-- ==== Sys2Proof/Word.lean ====
section
/-! DEFINITION. The word and byte types of the machine, and the small closed types that instructions are made of:
register numbers, tags, rounding modes, hints, scopes, orders, and what an event names. -/

namespace Sys2Proof

/-- A 64-bit word: a general register, an address, a special register. -/
abbrev Word := BitVec 64
/-- One byte of memory. -/
abbrev Byte := BitVec 8

/-- x0 to x31 (R116). -/
abbrev XReg := Fin 32
/-- c0 to c7. -/
abbrev CBit := Fin 8
/-- v0 to v31, or the base of a group. -/
abbrev VNum := Fin 32
/-- m0 to m7; as a governing mask, 0 means unmasked (R116). -/
abbrev MNum := Fin 8
/-- q0 to q7. -/
abbrev QNum := Fin 8
/-- e0 to e3. -/
abbrev ENum := Fin 4
/-- t0 to t7. -/
abbrev TNum := Fin 8
/-- z0 to z3. -/
abbrev ZNum := Fin 4
/-- ch0 to ch7. -/
abbrev ChNum := Fin 8
/-- s0 to s7. -/
abbrev SNum := Fin 8

/-- Element-type tags (R53). -/
inductive Tag where
  | none | i8 | i16 | i32 | i64 | ui8 | ui16 | ui32 | ui64
  | fp4 | e4m3 | e5m2 | bf16 | fp16 | fp32 | fp64 | sc8
deriving DecidableEq, Repr

/-- Static rounding modes, codes 0 to 4 of FCSR.RM (R47, R61). -/
inductive Rounding where
  | rne | rtz | rdn | rup | rna
deriving DecidableEq, Repr

/-- Placement hints (R78, R119); timing only. -/
inductive Hint where
  | none | ptr | val
deriving DecidableEq, Repr

/-- Scopes (R92, R254). -/
inductive Scope where
  | core | chip | dev | sys
deriving DecidableEq, Repr

/-- Order field of atomics (R254). -/
inductive Order where
  | relaxed | acq | rel | ar
deriving DecidableEq, Repr

/-- A transfer into an eyelet, as the receiving zone sees it (R246): one of this device's channels, or a request
of another device with its ticket, payload size and fibre bit. -/
inductive Transfer where
  | mine (h : Nat) (ch : ChNum)
  | theirs (dev : Fin 256) (ticket : Word) (size : Nat) (fib : Bool)
  /-- The answer of a zone on another device to one of this device's channels: 0, or the code it refuses with. -/
  | answer (h : Nat) (ch : ChNum) (code : Nat)
  /-- The sender of another device tells that its transfer has ended FAILED with PAGE, ACCESS, MISALIGN or UNCORR (R245). -/
  | ended (dev : Fin 256) (ticket : Word)
deriving DecidableEq, Repr

/-- A path that can be lost (R369): to another device, or between two chiplets of this one. -/
inductive Path where
  | device (d : Fin 256)
  | chiplets (a b : Fin 8)
deriving DecidableEq, Repr

/-- What holds copies of remote lines and translations (R77, R337): the first-level caches of a core, or the CAC of a chiplet. -/
inductive Cache where
  | core (n : Nat)
  | cac (chiplet : Nat)
deriving DecidableEq, Repr

/-- An address in a request of the host, and the function that it goes to (R373). -/
structure HostAddr where
  function : Fin 9
  addr     : Nat
deriving DecidableEq, Repr

/-- The target of a register write: an offset of the physical function's BAR0 (R373), or word 0xC11 + n of a
partition's window (R307, R309). -/
inductive DevReg where
  | bar (off : Nat)
  | partition (p : Fin 8) (n : Fin 11)
deriving DecidableEq, Repr

/-- A signed configuration image (R379): its bytes, its signature, and the settings read from it. -/
structure ConfigImage where
  bytes     : List Byte
  signature : List Byte
  device    : Fin 256
  domain    : List (Fin 256)
deriving DecidableEq, Repr

/-- Kinds of memory error event (R358, R359). -/
inductive MemErr where
  | corrected | uncorrectable | rowRepaired
deriving DecidableEq, Repr

end Sys2Proof
end

