-- ==== Sys2Proof/Syntax.lean ====
section
/-! DEFINITION. The instruction set as data: one constructor of `Instr` for every row of the opcode table.
Rows with an encoding carry their fields (06 R115, R116) and what a leading word (06 R117 to R119) adds to them;
rows without one are the part's own events (95_what_each_step_holds.md) and carry what the event is about. -/

namespace Sys2Proof

/-- Every row of the opcode table. -/
inductive Instr where
  /-- ADD (R139). -/
  | add (d : XReg) (a : XReg) (b : XReg)
  /-- SUB (R139). -/
  | sub (d : XReg) (a : XReg) (b : XReg)
  /-- AND (R139). -/
  | and (d : XReg) (a : XReg) (b : XReg)
  /-- OR (R139). -/
  | or (d : XReg) (a : XReg) (b : XReg)
  /-- XOR (R139). -/
  | xor (d : XReg) (a : XReg) (b : XReg)
  /-- ANDN (R139). -/
  | andn (d : XReg) (a : XReg) (b : XReg)
  /-- SLL (R139). -/
  | sll (d : XReg) (a : XReg) (b : XReg)
  /-- SRL (R139). -/
  | srl (d : XReg) (a : XReg) (b : XReg)
  /-- SRA (R139). -/
  | sra (d : XReg) (a : XReg) (b : XReg)
  /-- ROL (R139). -/
  | rol (d : XReg) (a : XReg) (b : XReg)
  /-- ROR (R139). -/
  | ror (d : XReg) (a : XReg) (b : XReg)
  /-- MIN (R139). -/
  | min (d : XReg) (a : XReg) (b : XReg)
  /-- MAX (R139). -/
  | max (d : XReg) (a : XReg) (b : XReg)
  /-- MINU (R139). -/
  | minu (d : XReg) (a : XReg) (b : XReg)
  /-- MAXU (R139). -/
  | maxu (d : XReg) (a : XReg) (b : XReg)
  /-- CSEL (R139). -/
  | csel (d : XReg) (a : XReg) (b : XReg) (n : CBit)
  /-- ADDI (R140). -/
  | addi (d : XReg) (a : XReg) (i : Int)
  /-- ANDI (R140). -/
  | andi (d : XReg) (a : XReg) (i : Int)
  /-- ORI (R140). -/
  | ori (d : XReg) (a : XReg) (i : Int)
  /-- XORI (R140). -/
  | xori (d : XReg) (a : XReg) (i : Int)
  /-- SLLI (R140). -/
  | slli (d : XReg) (a : XReg) (s : Fin 64)
  /-- SRLI (R140). -/
  | srli (d : XReg) (a : XReg) (s : Fin 64)
  /-- SRAI (R140). -/
  | srai (d : XReg) (a : XReg) (s : Fin 64)
  /-- RORI (R140). -/
  | rori (d : XReg) (a : XReg) (s : Fin 64)
  /-- LUI (R141). -/
  | lui (d : XReg) (i : Int)
  /-- LB (R147). -/
  | lb (d : XReg) (a : XReg) (o : Int)
  /-- LH (R147). -/
  | lh (d : XReg) (a : XReg) (o : Int)
  /-- LW (R147). -/
  | lw (d : XReg) (a : XReg) (o : Int)
  /-- LD (R147). -/
  | ld (d : XReg) (a : XReg) (o : Int)
  /-- LBU (R147). -/
  | lbu (d : XReg) (a : XReg) (o : Int)
  /-- LHU (R147). -/
  | lhu (d : XReg) (a : XReg) (o : Int)
  /-- LWU (R147). -/
  | lwu (d : XReg) (a : XReg) (o : Int)
  /-- SB (R147). -/
  | sb (s : XReg) (a : XReg) (o : Int)
  /-- SH (R147). -/
  | sh (s : XReg) (a : XReg) (o : Int)
  /-- SW (R147). -/
  | sw (s : XReg) (a : XReg) (o : Int)
  /-- SD (R147). -/
  | sd (s : XReg) (a : XReg) (o : Int)
  /-- BC (R144). -/
  | bc (c : CBit) (k : Fin 4) (o : Int)
  /-- BNC (R144). -/
  | bnc (c : CBit) (k : Fin 4) (o : Int)
  /-- JAL (R145). -/
  | jal (d : XReg) (o : Int)
  /-- JALR (R146). -/
  | jalr (d : XReg) (a : XReg) (i : Int)
  /-- CMPI_EQ (R143). -/
  | cmpiEq (c : CBit) (a : XReg) (i : Int)
  /-- CMPI_LT (R143). -/
  | cmpiLt (c : CBit) (a : XReg) (i : Int)
  /-- CMPI_LTU (R143). -/
  | cmpiLtu (c : CBit) (a : XReg) (i : Int)
  /-- CMP_EQ (R143). -/
  | cmpEq (c : CBit) (a : XReg) (b : XReg)
  /-- CMP_LT (R143). -/
  | cmpLt (c : CBit) (a : XReg) (b : XReg)
  /-- CMP_LTU (R143). -/
  | cmpLtu (c : CBit) (a : XReg) (b : XReg)
  /-- CMP_TST (R143). -/
  | cmpTst (c : CBit) (a : XReg) (b : XReg)
  /-- CAND (R143). -/
  | cand (d : CBit) (s : CBit) (t : CBit)
  /-- COR (R143). -/
  | cor (d : CBit) (s : CBit) (t : CBit)
  /-- CXOR (R143). -/
  | cxor (d : CBit) (s : CBit) (t : CBit)
  /-- CANDN (R143). -/
  | candn (d : CBit) (s : CBit) (t : CBit)
  /-- MOVS (R156). -/
  | movs (d : XReg) (r : Fin 4096)
  /-- SMOV (R156). -/
  | smov (a : XReg) (r : Fin 4096)
  /-- TRAP (R157). -/
  | trap (i : Int)
  /-- EBREAK (R157). -/
  | ebreak
  /-- KRET (R305). -/
  | kret
  /-- MCALL (R305). -/
  | mcall (i : Int)
  /-- MONRET (R305). -/
  | monret
  /-- INVPG (R339). -/
  | invpg (s : XReg) (a : XReg)
  /-- INVPG_G (R339). -/
  | invpgG (a : XReg)
  /-- HEND (R305). -/
  | hend (s : Fin 4096)
  /-- MUL (R150). -/
  | mul (d : XReg) (a : XReg) (b : XReg)
  /-- MULHI_SS (R150). -/
  | mulhiSs (d : XReg) (a : XReg) (b : XReg)
  /-- MULHI_UU (R150). -/
  | mulhiUu (d : XReg) (a : XReg) (b : XReg)
  /-- MULHI_SU (R150). -/
  | mulhiSu (d : XReg) (a : XReg) (b : XReg)
  /-- DIV (R150). -/
  | div (d : XReg) (a : XReg) (b : XReg)
  /-- DIVU (R150). -/
  | divu (d : XReg) (a : XReg) (b : XReg)
  /-- REM (R150). -/
  | rem (d : XReg) (a : XReg) (b : XReg)
  /-- REMU (R150). -/
  | remu (d : XReg) (a : XReg) (b : XReg)
  /-- FADD_S (R153). -/
  | faddS (d : XReg) (a : XReg) (b : XReg) (rm : Option Rounding)
  /-- FADD_D (R153). -/
  | faddD (d : XReg) (a : XReg) (b : XReg) (rm : Option Rounding)
  /-- FSUB_S (R153). -/
  | fsubS (d : XReg) (a : XReg) (b : XReg) (rm : Option Rounding)
  /-- FSUB_D (R153). -/
  | fsubD (d : XReg) (a : XReg) (b : XReg) (rm : Option Rounding)
  /-- FMUL_S (R153). -/
  | fmulS (d : XReg) (a : XReg) (b : XReg) (rm : Option Rounding)
  /-- FMUL_D (R153). -/
  | fmulD (d : XReg) (a : XReg) (b : XReg) (rm : Option Rounding)
  /-- FDIV_S (R153). -/
  | fdivS (d : XReg) (a : XReg) (b : XReg) (rm : Option Rounding)
  /-- FDIV_D (R153). -/
  | fdivD (d : XReg) (a : XReg) (b : XReg) (rm : Option Rounding)
  /-- FSQRT_S (R153). -/
  | fsqrtS (d : XReg) (a : XReg) (rm : Option Rounding)
  /-- FSQRT_D (R153). -/
  | fsqrtD (d : XReg) (a : XReg) (rm : Option Rounding)
  /-- FMIN_S (R155). -/
  | fminS (d : XReg) (a : XReg) (b : XReg) (rm : Option Rounding)
  /-- FMIN_D (R155). -/
  | fminD (d : XReg) (a : XReg) (b : XReg) (rm : Option Rounding)
  /-- FMAX_S (R155). -/
  | fmaxS (d : XReg) (a : XReg) (b : XReg) (rm : Option Rounding)
  /-- FMAX_D (R155). -/
  | fmaxD (d : XReg) (a : XReg) (b : XReg) (rm : Option Rounding)
  /-- FMAC_S (R153). -/
  | fmacS (d : XReg) (a : XReg) (b : XReg) (rm : Option Rounding)
  /-- FMAC_D (R153). -/
  | fmacD (d : XReg) (a : XReg) (b : XReg) (rm : Option Rounding)
  /-- FCMP_EQ_S (R155). -/
  | fcmpEqS (c : CBit) (a : XReg) (b : XReg) (rm : Option Rounding)
  /-- FCMP_EQ_D (R155). -/
  | fcmpEqD (c : CBit) (a : XReg) (b : XReg) (rm : Option Rounding)
  /-- FCMP_LT_S (R155). -/
  | fcmpLtS (c : CBit) (a : XReg) (b : XReg) (rm : Option Rounding)
  /-- FCMP_LT_D (R155). -/
  | fcmpLtD (c : CBit) (a : XReg) (b : XReg) (rm : Option Rounding)
  /-- FCMP_LE_S (R155). -/
  | fcmpLeS (c : CBit) (a : XReg) (b : XReg) (rm : Option Rounding)
  /-- FCMP_LE_D (R155). -/
  | fcmpLeD (c : CBit) (a : XReg) (b : XReg) (rm : Option Rounding)
  /-- FCVT_L_S (R153). -/
  | fcvtLS (d : XReg) (a : XReg) (rm : Option Rounding) (sat : Bool)
  /-- FCVT_L_D (R153). -/
  | fcvtLD (d : XReg) (a : XReg) (rm : Option Rounding) (sat : Bool)
  /-- FCVT_LU_S (R153). -/
  | fcvtLuS (d : XReg) (a : XReg) (rm : Option Rounding) (sat : Bool)
  /-- FCVT_LU_D (R153). -/
  | fcvtLuD (d : XReg) (a : XReg) (rm : Option Rounding) (sat : Bool)
  /-- FCVT_S_L (R153). -/
  | fcvtSL (d : XReg) (a : XReg) (rm : Option Rounding)
  /-- FCVT_D_L (R153). -/
  | fcvtDL (d : XReg) (a : XReg) (rm : Option Rounding)
  /-- FCVT_S_LU (R153). -/
  | fcvtSLu (d : XReg) (a : XReg) (rm : Option Rounding)
  /-- FCVT_D_LU (R153). -/
  | fcvtDLu (d : XReg) (a : XReg) (rm : Option Rounding)
  /-- FCVT_S_D (R153). -/
  | fcvtSD (d : XReg) (a : XReg) (rm : Option Rounding) (sat : Bool)
  /-- FCVT_D_S (R153). -/
  | fcvtDS (d : XReg) (a : XReg) (rm : Option Rounding)
  /-- CLZ (R152). -/
  | clz (d : XReg) (a : XReg)
  /-- CTZ (R152). -/
  | ctz (d : XReg) (a : XReg)
  /-- POPC (R152). -/
  | popc (d : XReg) (a : XReg)
  /-- BSWAP (R152). -/
  | bswap (d : XReg) (a : XReg)
  /-- BFX (R152). -/
  | bfx (d : XReg) (a : XReg) (l : Fin 64) (p : Fin 64)
  /-- BFXU (R152). -/
  | bfxu (d : XReg) (a : XReg) (l : Fin 64) (p : Fin 64)
  /-- BFI (R152). -/
  | bfi (d : XReg) (a : XReg) (l : Fin 64) (p : Fin 64)
  /-- FSH (R152). -/
  | fsh (d : XReg) (a : XReg) (s : Fin 64) (b : XReg)
  /-- FSHV (R152). -/
  | fshv (d : XReg) (a : XReg) (c : XReg) (b : XReg)
  /-- BFXUV (R152). -/
  | bfxuv (d : XReg) (a : XReg) (l : Fin 64) (b : XReg)
  /-- AMO_ADD (R256). -/
  | amoAdd (d : XReg) (a : XReg) (b : XReg) (o : Order) (s : Scope) (z : Bool)
  /-- AMO_AND (R256). -/
  | amoAnd (d : XReg) (a : XReg) (b : XReg) (o : Order) (s : Scope) (z : Bool)
  /-- AMO_OR (R256). -/
  | amoOr (d : XReg) (a : XReg) (b : XReg) (o : Order) (s : Scope) (z : Bool)
  /-- AMO_XOR (R256). -/
  | amoXor (d : XReg) (a : XReg) (b : XReg) (o : Order) (s : Scope) (z : Bool)
  /-- AMO_MIN (R256). -/
  | amoMin (d : XReg) (a : XReg) (b : XReg) (o : Order) (s : Scope) (z : Bool)
  /-- AMO_MAX (R256). -/
  | amoMax (d : XReg) (a : XReg) (b : XReg) (o : Order) (s : Scope) (z : Bool)
  /-- AMO_MINU (R256). -/
  | amoMinu (d : XReg) (a : XReg) (b : XReg) (o : Order) (s : Scope) (z : Bool)
  /-- AMO_MAXU (R256). -/
  | amoMaxu (d : XReg) (a : XReg) (b : XReg) (o : Order) (s : Scope) (z : Bool)
  /-- AMO_SWAP (R256). -/
  | amoSwap (d : XReg) (a : XReg) (b : XReg) (o : Order) (s : Scope) (z : Bool)
  /-- AMO_CAS (R256). -/
  | amoCas (d : XReg) (a : XReg) (b : XReg) (o : Order) (s : Scope) (z : Bool)
  /-- CAS_Q (R257). -/
  | casQ (d : XReg) (a : XReg) (b : XReg) (o : Order) (s : Scope)
  /-- LD_ACQ (R256). -/
  | ldAcq (d : XReg) (a : XReg) (s : Scope) (z : Bool)
  /-- ST_REL (R256). -/
  | stRel (a : XReg) (b : XReg) (s : Scope) (z : Bool)
  /-- FENCE (R98). -/
  | fence (sLd : Bool) (sSt : Bool) (sEng : Bool) (sRem : Bool) (s : Scope)
  /-- IFENCE (R259). -/
  | ifence
  /-- WAITGE (R260). -/
  | waitge (d : XReg) (a : XReg) (b : XReg) (s : Scope) (z : Bool)
  /-- WAITEQ (R260). -/
  | waiteq (d : XReg) (a : XReg) (b : XReg) (s : Scope) (z : Bool)
  /-- BAR_INIT (R262). -/
  | barInit (d : XReg) (a : XReg) (b : XReg)
  /-- BAR_ARRIVE (R262). -/
  | barArrive (d : XReg) (a : XReg) (s : Scope)
  /-- BAR_WAIT (R262). -/
  | barWait (a : XReg) (b : XReg) (s : Scope)
  /-- BAR_FIN (R262). -/
  | barFin (a : XReg)
  /-- FARM_DEF (R264). -/
  | farmDef (s : XReg) (a : XReg)
  /-- FARM_NEXT (R264). -/
  | farmNext (d : XReg) (n : CBit)
  /-- FARM_END (R264). -/
  | farmEnd
  /-- SCOMMIT (R267). -/
  | scommit
  /-- SABORT (R267). -/
  | sabort
  /-- SBEGIN (R265). -/
  | sbegin (o : Int)
  /-- LAUNCH (R268). -/
  | launch (d : XReg) (a : XReg) (b : XReg)
  /-- SETVL (R158). -/
  | setvl (d : XReg) (a : XReg) (t : Tag) (g : Fin 4)
  /-- SETVL_H (R158). -/
  | setvlH (d : XReg) (a : XReg) (t : Tag) (g : Fin 4)
  /-- VLD (R167). -/
  | vld (d : VNum) (a : XReg) (o : Bool) (m : MNum) (hint : Hint)
  /-- VLDFF (R168). -/
  | vldff (d : VNum) (a : XReg) (m : MNum) (hint : Hint)
  /-- VLDS (R167). -/
  | vlds (d : VNum) (a : XReg) (s : XReg) (o : Bool) (m : MNum) (hint : Hint)
  /-- VST (R167). -/
  | vst (v : VNum) (a : XReg) (o : Bool) (m : MNum)
  /-- VSTS (R167). -/
  | vsts (v : VNum) (a : XReg) (s : XReg) (o : Bool) (m : MNum)
  /-- VLDX (R169). -/
  | vldx (d : VNum) (a : XReg) (i : VNum) (c : Bool) (o : Bool) (m : MNum) (hint : Hint)
  /-- VLDX_FAR (R170). -/
  | vldxFar (d : VNum) (a : XReg) (i : VNum) (c : Bool) (o : Bool) (m : MNum) (hint : Hint)
  /-- VSTX (R169). -/
  | vstx (v : VNum) (a : XReg) (i : VNum) (c : Bool) (o : Bool) (m : MNum)
  /-- VSTX_FAR (R170). -/
  | vstxFar (v : VNum) (a : XReg) (i : VNum) (c : Bool) (o : Bool) (m : MNum)
  /-- VLDSEG (R171). -/
  | vldseg (d : VNum) (a : XReg) (o : Bool) (m : MNum) (n : Fin 8) (hint : Hint)
  /-- VSTSEG (R171). -/
  | vstseg (v : VNum) (a : XReg) (o : Bool) (m : MNum) (n : Fin 8)
  /-- VLDSEG_P (R172). -/
  | vldsegP (d : VNum) (a : XReg) (i : VNum) (c : Bool) (m : MNum) (n : Fin 8) (hint : Hint)
  /-- VSTSEG_P (R172). -/
  | vstsegP (v : VNum) (a : XReg) (i : VNum) (c : Bool) (o : Bool) (m : MNum) (n : Fin 8)
  /-- VLD2 (R174). -/
  | vld2 (d : VNum) (a : XReg) (o : Bool) (m : MNum) (hint : Hint)
  /-- VST2 (R174). -/
  | vst2 (v : VNum) (a : XReg) (o : Bool) (m : MNum)
  /-- VSBIND (R175). -/
  | vsbind (d : VNum) (a : XReg) (s : XReg) (n : SNum)
  /-- VSUNBIND (R175). -/
  | vsunbind (d : VNum)
  /-- VTAG (R160). -/
  | vtag (d : VNum) (t : Tag)
  /-- VTAGR (R160). -/
  | vtagr (d : VNum) (b : XReg)
  /-- SPDISC (R87). -/
  | spdisc (a : XReg) (b : XReg)
  /-- SPKEEP (R87). -/
  | spkeep (a : XReg) (b : XReg)
  /-- VADD (R184). -/
  | vadd (d : VNum) (a : VNum) (b : VNum) (q : Bool) (p : Bool) (m : MNum) (rm : Option Rounding) (sat : Bool)
  /-- VSUB (R184). -/
  | vsub (d : VNum) (a : VNum) (b : VNum) (q : Bool) (p : Bool) (m : MNum) (rm : Option Rounding) (sat : Bool)
  /-- VMUL (R184). -/
  | vmul (d : VNum) (a : VNum) (b : VNum) (q : Bool) (p : Bool) (m : MNum) (rm : Option Rounding) (sat : Bool)
  /-- VDIV (R184). -/
  | vdiv (d : VNum) (a : VNum) (b : VNum) (q : Bool) (p : Bool) (m : MNum) (rm : Option Rounding)
  /-- VREM (R184). -/
  | vrem (d : VNum) (a : VNum) (b : VNum) (q : Bool) (p : Bool) (m : MNum) (rm : Option Rounding)
  /-- VMIN (R184). -/
  | vmin (d : VNum) (a : VNum) (b : VNum) (q : Bool) (p : Bool) (m : MNum) (rm : Option Rounding)
  /-- VMAX (R184). -/
  | vmax (d : VNum) (a : VNum) (b : VNum) (q : Bool) (p : Bool) (m : MNum) (rm : Option Rounding)
  /-- VAND (R184). -/
  | vand (d : VNum) (a : VNum) (b : VNum) (q : Bool) (p : Bool) (m : MNum) (rm : Option Rounding)
  /-- VOR (R184). -/
  | vor (d : VNum) (a : VNum) (b : VNum) (q : Bool) (p : Bool) (m : MNum) (rm : Option Rounding)
  /-- VXOR (R184). -/
  | vxor (d : VNum) (a : VNum) (b : VNum) (q : Bool) (p : Bool) (m : MNum) (rm : Option Rounding)
  /-- VSLL (R184). -/
  | vsll (d : VNum) (a : VNum) (b : VNum) (q : Bool) (p : Bool) (m : MNum) (rm : Option Rounding)
  /-- VSRL (R184). -/
  | vsrl (d : VNum) (a : VNum) (b : VNum) (q : Bool) (p : Bool) (m : MNum) (rm : Option Rounding)
  /-- VSRA (R184). -/
  | vsra (d : VNum) (a : VNum) (b : VNum) (q : Bool) (p : Bool) (m : MNum) (rm : Option Rounding)
  /-- VMULH (R184). -/
  | vmulh (d : VNum) (a : VNum) (b : VNum) (q : Bool) (p : Bool) (m : MNum) (rm : Option Rounding)
  /-- VADD_X (R184). -/
  | vaddX (d : VNum) (a : VNum) (x : XReg) (q : Bool) (m : MNum) (rm : Option Rounding) (sat : Bool)
  /-- VSUB_X (R184). -/
  | vsubX (d : VNum) (a : VNum) (x : XReg) (q : Bool) (m : MNum) (rm : Option Rounding) (sat : Bool)
  /-- VMUL_X (R184). -/
  | vmulX (d : VNum) (a : VNum) (x : XReg) (q : Bool) (m : MNum) (rm : Option Rounding) (sat : Bool)
  /-- VDIV_X (R184). -/
  | vdivX (d : VNum) (a : VNum) (x : XReg) (q : Bool) (m : MNum) (rm : Option Rounding)
  /-- VREM_X (R184). -/
  | vremX (d : VNum) (a : VNum) (x : XReg) (q : Bool) (m : MNum) (rm : Option Rounding)
  /-- VMIN_X (R184). -/
  | vminX (d : VNum) (a : VNum) (x : XReg) (q : Bool) (m : MNum) (rm : Option Rounding)
  /-- VMAX_X (R184). -/
  | vmaxX (d : VNum) (a : VNum) (x : XReg) (q : Bool) (m : MNum) (rm : Option Rounding)
  /-- VAND_X (R184). -/
  | vandX (d : VNum) (a : VNum) (x : XReg) (q : Bool) (m : MNum) (rm : Option Rounding)
  /-- VOR_X (R184). -/
  | vorX (d : VNum) (a : VNum) (x : XReg) (q : Bool) (m : MNum) (rm : Option Rounding)
  /-- VXOR_X (R184). -/
  | vxorX (d : VNum) (a : VNum) (x : XReg) (q : Bool) (m : MNum) (rm : Option Rounding)
  /-- VSLL_X (R184). -/
  | vsllX (d : VNum) (a : VNum) (x : XReg) (q : Bool) (m : MNum) (rm : Option Rounding)
  /-- VSRL_X (R184). -/
  | vsrlX (d : VNum) (a : VNum) (x : XReg) (q : Bool) (m : MNum) (rm : Option Rounding)
  /-- VSRA_X (R184). -/
  | vsraX (d : VNum) (a : VNum) (x : XReg) (q : Bool) (m : MNum) (rm : Option Rounding)
  /-- VMULH_X (R184). -/
  | vmulhX (d : VNum) (a : VNum) (x : XReg) (q : Bool) (m : MNum) (rm : Option Rounding)
  /-- VFMA (R185). -/
  | vfma (d : VNum) (a : VNum) (b : VNum) (q : Bool) (p : Bool) (m : MNum) (rm : Option Rounding) (sat : Bool)
  /-- VFMS (R185). -/
  | vfms (d : VNum) (a : VNum) (b : VNum) (q : Bool) (p : Bool) (m : MNum) (rm : Option Rounding) (sat : Bool)
  /-- VFNMA (R185). -/
  | vfnma (d : VNum) (a : VNum) (b : VNum) (q : Bool) (p : Bool) (m : MNum) (rm : Option Rounding) (sat : Bool)
  /-- VFNMS (R185). -/
  | vfnms (d : VNum) (a : VNum) (b : VNum) (q : Bool) (p : Bool) (m : MNum) (rm : Option Rounding) (sat : Bool)
  /-- VCMP_EQ (R186). -/
  | vcmpEq (d : MNum) (a : VNum) (b : VNum) (q : Bool) (p : Bool) (m : MNum) (rm : Option Rounding)
  /-- VCMP_NE (R186). -/
  | vcmpNe (d : MNum) (a : VNum) (b : VNum) (q : Bool) (p : Bool) (m : MNum) (rm : Option Rounding)
  /-- VCMP_LT (R186). -/
  | vcmpLt (d : MNum) (a : VNum) (b : VNum) (q : Bool) (p : Bool) (m : MNum) (rm : Option Rounding)
  /-- VCMP_LE (R186). -/
  | vcmpLe (d : MNum) (a : VNum) (b : VNum) (q : Bool) (p : Bool) (m : MNum) (rm : Option Rounding)
  /-- VCMP_EQ_X (R186). -/
  | vcmpEqX (d : MNum) (a : VNum) (x : XReg) (q : Bool) (m : MNum) (rm : Option Rounding)
  /-- VCMP_NE_X (R186). -/
  | vcmpNeX (d : MNum) (a : VNum) (x : XReg) (q : Bool) (m : MNum) (rm : Option Rounding)
  /-- VCMP_LT_X (R186). -/
  | vcmpLtX (d : MNum) (a : VNum) (x : XReg) (q : Bool) (m : MNum) (rm : Option Rounding)
  /-- VCMP_LE_X (R186). -/
  | vcmpLeX (d : MNum) (a : VNum) (x : XReg) (q : Bool) (m : MNum) (rm : Option Rounding)
  /-- VCMP_GT_X (R186). -/
  | vcmpGtX (d : MNum) (a : VNum) (x : XReg) (q : Bool) (m : MNum) (rm : Option Rounding)
  /-- VCMP_GE_X (R186). -/
  | vcmpGeX (d : MNum) (a : VNum) (x : XReg) (q : Bool) (m : MNum) (rm : Option Rounding)
  /-- MAND (R187). -/
  | mand (d : MNum) (a : MNum) (b : MNum)
  /-- MOR (R187). -/
  | mor (d : MNum) (a : MNum) (b : MNum)
  /-- MXOR (R187). -/
  | mxor (d : MNum) (a : MNum) (b : MNum)
  /-- MANDN (R187). -/
  | mandn (d : MNum) (a : MNum) (b : MNum)
  /-- MNOT (R187). -/
  | mnot (d : MNum) (a : MNum)
  /-- MSBF (R187). -/
  | msbf (d : MNum) (a : MNum)
  /-- MSIF (R187). -/
  | msif (d : MNum) (a : MNum)
  /-- MPOPC (R187). -/
  | mpopc (d : XReg) (a : MNum) (m : MNum)
  /-- MFIRST (R187). -/
  | mfirst (d : XReg) (a : MNum) (m : MNum)
  /-- VMV (R188). -/
  | vmv (d : VNum) (a : VNum) (q : Bool) (m : MNum)
  /-- VMERGE (R188). -/
  | vmerge (d : VNum) (a : VNum) (b : VNum) (q : Bool) (p : Bool) (m : MNum)
  /-- VSPLAT (R188). -/
  | vsplat (d : VNum) (x : XReg) (m : MNum)
  /-- VID (R188). -/
  | vid (d : VNum) (m : MNum)
  /-- VSLIDEUP (R188). -/
  | vslideup (d : VNum) (a : VNum) (x : XReg) (q : Bool) (m : MNum)
  /-- VSLIDEDN (R188). -/
  | vslidedn (d : VNum) (a : VNum) (x : XReg) (q : Bool) (m : MNum)
  /-- VSLIDE1UP (R188). -/
  | vslide1up (d : VNum) (a : VNum) (x : XReg) (q : Bool) (m : MNum)
  /-- VSLIDE1DN (R188). -/
  | vslide1dn (d : VNum) (a : VNum) (x : XReg) (q : Bool) (m : MNum)
  /-- VRGATHER (R188). -/
  | vrgather (d : VNum) (a : VNum) (b : VNum) (q : Bool) (p : Bool) (m : MNum)
  /-- VCOMPRESS (R189). -/
  | vcompress (d : VNum) (a : VNum) (q : Bool) (m : MNum)
  /-- VEXPAND (R189). -/
  | vexpand (d : VNum) (a : VNum) (q : Bool) (m : MNum)
  /-- VPFXPOP (R189). -/
  | vpfxpop (d : VNum) (a : MNum)
  /-- VCONFLICT (R189). -/
  | vconflict (d : VNum) (a : VNum) (q : Bool) (m : MNum)
  /-- VSCAN_SEG_ADD (R189). -/
  | vscanSegAdd (d : VNum) (a : VNum) (q : Bool) (m : MNum) (rm : Option Rounding)
  /-- VSCAN_SEG_MIN (R189). -/
  | vscanSegMin (d : VNum) (a : VNum) (q : Bool) (m : MNum) (rm : Option Rounding)
  /-- VSCAN_SEG_MAX (R189). -/
  | vscanSegMax (d : VNum) (a : VNum) (q : Bool) (m : MNum) (rm : Option Rounding)
  /-- VRED_ADD (R190). -/
  | vredAdd (d : VNum) (a : VNum) (b : VNum) (q : Bool) (p : Bool) (m : MNum) (rm : Option Rounding)
  /-- VRED_MIN (R190). -/
  | vredMin (d : VNum) (a : VNum) (b : VNum) (q : Bool) (p : Bool) (m : MNum) (rm : Option Rounding)
  /-- VRED_MAX (R190). -/
  | vredMax (d : VNum) (a : VNum) (b : VNum) (q : Bool) (p : Bool) (m : MNum) (rm : Option Rounding)
  /-- VRED_AND (R190). -/
  | vredAnd (d : VNum) (a : VNum) (b : VNum) (q : Bool) (p : Bool) (m : MNum) (rm : Option Rounding)
  /-- VRED_OR (R190). -/
  | vredOr (d : VNum) (a : VNum) (b : VNum) (q : Bool) (p : Bool) (m : MNum) (rm : Option Rounding)
  /-- VRED_XOR (R190). -/
  | vredXor (d : VNum) (a : VNum) (b : VNum) (q : Bool) (p : Bool) (m : MNum) (rm : Option Rounding)
  /-- VFRED_ORD (R191). -/
  | vfredOrd (d : VNum) (a : VNum) (b : VNum) (q : Bool) (p : Bool) (m : MNum) (rm : Option Rounding)
  /-- VCVT (R192). -/
  | vcvt (d : VNum) (a : VNum) (t : Tag) (q : Bool) (m : MNum) (rm : Option Rounding) (sat : Bool)
  /-- VNEG (R193). -/
  | vneg (d : VNum) (a : VNum) (q : Bool) (m : MNum) (rm : Option Rounding) (sat : Bool)
  /-- VABS (R193). -/
  | vabs (d : VNum) (a : VNum) (q : Bool) (m : MNum) (rm : Option Rounding) (sat : Bool)
  /-- VSQRT (R193). -/
  | vsqrt (d : VNum) (a : VNum) (q : Bool) (m : MNum) (rm : Option Rounding)
  /-- VEXP2 (R194). -/
  | vexp2 (d : VNum) (a : VNum) (q : Bool) (m : MNum) (rm : Option Rounding)
  /-- VLOG2 (R194). -/
  | vlog2 (d : VNum) (a : VNum) (q : Bool) (m : MNum) (rm : Option Rounding)
  /-- VRCP (R194). -/
  | vrcp (d : VNum) (a : VNum) (q : Bool) (m : MNum) (rm : Option Rounding)
  /-- VRSQRT (R194). -/
  | vrsqrt (d : VNum) (a : VNum) (q : Bool) (m : MNum) (rm : Option Rounding)
  /-- VBEXT (R195). -/
  | vbext (d : VNum) (a : VNum) (b : VNum) (q : Bool) (p : Bool) (m : MNum) (len : Option (Fin 64))
  /-- VFSH (R195). -/
  | vfsh (d : VNum) (a : VNum) (b : VNum) (q : Bool) (p : Bool) (m : MNum)
  /-- XA_CLR (R196). -/
  | xaClr (e : ENum)
  /-- XA_ADDV (R196). -/
  | xaAddv (e : ENum) (a : VNum) (q : Bool) (m : MNum)
  /-- XA_DOT (R196). -/
  | xaDot (e : ENum) (a : VNum) (b : VNum) (q : Bool) (p : Bool) (m : MNum)
  /-- XA_RD (R197). -/
  | xaRd (d : XReg) (e : ENum) (t : Tag) (rm : Option Rounding)
  /-- XA_RDV (R197). -/
  | xaRdv (d : VNum) (e : ENum) (x : XReg) (rm : Option Rounding)
  /-- XA_LD (R198). -/
  | xaLd (e : ENum) (a : XReg) (hint : Hint)
  /-- XA_ST (R198). -/
  | xaSt (e : ENum) (a : XReg)
  /-- VMV_XV (R199). -/
  | vmvXv (d : XReg) (a : VNum) (x : XReg) (q : Bool)
  /-- VMV_VX (R199). -/
  | vmvVx (d : VNum) (a : XReg) (b : XReg)
  /-- QLD (R208). -/
  | qld (d : QNum) (v : XReg) (hint : Hint)
  /-- QWALK (R208). -/
  | qwalk (d : QNum) (v : XReg) (hint : Hint)
  /-- QWALK_D (R208). -/
  | qwalkD (d : QNum) (v : XReg) (hint : Hint)
  /-- QST (R209). -/
  | qst (a : QNum) (v : XReg)
  /-- QISECT_MUL (R211). -/
  | qisectMul (d : QNum) (a : QNum) (b : QNum) (rm : Option Rounding) (sat : Bool)
  /-- QISECT_A (R211). -/
  | qisectA (d : QNum) (a : QNum) (b : QNum)
  /-- QISECT_B (R211). -/
  | qisectB (d : QNum) (a : QNum) (b : QNum)
  /-- QUNION_ADD (R211). -/
  | qunionAdd (d : QNum) (a : QNum) (b : QNum) (rm : Option Rounding) (sat : Bool)
  /-- QMERGE (R211). -/
  | qmerge (d : QNum) (a : QNum) (b : QNum)
  /-- QSORT (R213). -/
  | qsort (d : QNum) (a : QNum)
  /-- QCOMPACT (R213). -/
  | qcompact (d : QNum) (a : QNum)
  /-- QCOMPACT_M (R213). -/
  | qcompactM (d : QNum) (a : QNum) (m : MNum)
  /-- QDOT (R211). -/
  | qdot (e : ENum) (a : QNum) (b : QNum)
  /-- QEXPAND (R215). -/
  | qexpand (a : QNum) (v : XReg) (d : VNum)
  /-- QFROMV (R215). -/
  | qfromv (d : QNum) (v : XReg) (a : VNum)
  /-- QFROMV_ALL (R215). -/
  | qfromvAll (d : QNum) (v : XReg) (a : VNum)
  /-- QCOORD (R215). -/
  | qcoord (a : QNum) (d : VNum)
  /-- QVAL (R215). -/
  | qval (a : QNum) (d : VNum)
  /-- QCNT (R215). -/
  | qcnt (a : QNum) (d : XReg)
  /-- QCLR (R215). -/
  | qclr (d : QNum)
  /-- QSCALE (R216). -/
  | qscale (d : QNum) (a : QNum) (v : XReg) (rm : Option Rounding) (sat : Bool)
  /-- QRED_ADD (R216). -/
  | qredAdd (a : QNum) (d : XReg) (rm : Option Rounding)
  /-- QRED_MIN (R216). -/
  | qredMin (a : QNum) (d : XReg)
  /-- QRED_MAX (R216). -/
  | qredMax (a : QNum) (d : XReg)
  /-- MATTACH (R220). -/
  | mattach (r : Fin 4)
  /-- MDETACH (R220). -/
  | mdetach
  /-- MZERO_T (R220). -/
  | mzeroT (d : TNum)
  /-- MZERO_Z (R220). -/
  | mzeroZ (d : ZNum)
  /-- MLD_T (R222). -/
  | mldT (d : TNum) (a : XReg) (hint : Hint)
  /-- MLD_Z (R222). -/
  | mldZ (d : ZNum) (a : XReg) (hint : Hint)
  /-- MLDBM (R223). -/
  | mldbm (d : TNum) (b : XReg) (a : XReg) (hint : Hint)
  /-- MST_T (R222). -/
  | mstT (d : TNum) (a : XReg)
  /-- MST_Z (R222). -/
  | mstZ (d : ZNum) (a : XReg)
  /-- MMA (R229). -/
  | mma (d : ZNum) (a : TNum) (b : TNum) (start : Fin 4) (ceil : Fin 4) (rm : Option Rounding)
  /-- MMA_SP (R229). -/
  | mmaSp (d : ZNum) (a : TNum) (b : TNum) (start : Fin 4) (ceil : Fin 4) (rm : Option Rounding)
  /-- MMA_SS (R229). -/
  | mmaSs (d : ZNum) (a : TNum) (b : TNum) (start : Fin 4) (ceil : Fin 4) (rm : Option Rounding)
  /-- MDRAIN (R231). -/
  | mdrain (z : ZNum) (m : MNum) (a : XReg) (rm : Option Rounding) (sat : Bool)
  /-- MDRAIN_X (R231). -/
  | mdrainX (z : ZNum) (m : MNum) (i : VNum) (a : XReg) (rm : Option Rounding) (sat : Bool)
  /-- MDRAINV (R231). -/
  | mdrainv (z : ZNum) (m : MNum) (d : VNum) (rm : Option Rounding) (sat : Bool)
  /-- CPY (R237). -/
  | cpy (h : ChNum) (a : XReg) (b : XReg) (r : Bool)
  /-- CPY2 (R237). -/
  | cpy2 (h : ChNum) (a : XReg) (b : XReg) (p : XReg) (r : Bool)
  /-- CPY_G (R237). -/
  | cpyG (h : ChNum) (a : XReg) (b : XReg) (i : VNum) (r : Bool)
  /-- CPY_GD (R237). -/
  | cpyGd (h : ChNum) (a : XReg) (b : XReg) (i : VNum) (r : Bool)
  /-- CPY_R (R237). -/
  | cpyR (h : ChNum) (a : XReg) (b : XReg) (r : Bool)
  /-- CBATCH (R241). -/
  | cbatch
  /-- CWAIT (R241). -/
  | cwait (n : Fin 32)
  /-- CSTAT (R241). -/
  | cstat (h : ChNum) (d : XReg) (s : Fin 4)
  /-- CACK (R241). -/
  | cack (h : ChNum)
  /-- LZ_INIT (R248). -/
  | lzInit (d : XReg) (b : XReg) (c : XReg)
  /-- LZ_RES (R247). -/
  | lzRes (d : XReg) (b : XReg)
  /-- LZ_WAIT (R247). -/
  | lzWait (b : XReg) (c : XReg)
  /-- LZ_FREE (R247). -/
  | lzFree (b : XReg) (c : XReg)
  /-- LZ_SCRUB (R247). -/
  | lzScrub (d : XReg) (b : XReg)
  /-- LZ_FIN (R248). -/
  | lzFin (b : XReg)
  /-- QSEND (R249). -/
  | qsend (h : ChNum) (b : XReg) (a : QNum) (r : Bool)
  /-- QRECV (R249). -/
  | qrecv (d : QNum) (b : XReg) (c : XReg)
  /-- GATHER_GROUP_ARRIVE (R85): All elements of a gather's element group arrive and its presence bit sets. -/
  | gatherGroupArrive (h : Nat) (v : VNum) (g : Fin 512)
  /-- STREAM_PREFETCH (R176): A stream engine prefetches up to 8 strips ahead without faulting. -/
  | streamPrefetch (h : Nat) (s : SNum)
  /-- COPY_ACCEPT (R233): A queued copy command is accepted when its channel is IDLE or DONE, or faults if FAILED. -/
  | copyAccept (h : Nat)
  /-- COPY_ELEMENT (R237): The engine checks and moves one element and advances progress and CWM. -/
  | copyElement (h : Nat) (ch : ChNum)
  /-- LZ_RES_REQUEST (R247): The zone reserves its lowest FREE eyelet atomically at its header and replies. -/
  | lzResRequest (dev : Fin 256) (handle : Word)
  /-- LZ_RES_REPLY (R247): The reservation reply arrives and completes lz.res with a ticket or code. -/
  | lzResReply (h : Nat) (value : Word) (c7 : Bool)
  /-- ZONE_FIRST_REQUEST (R246): The receiver checks a transfer's first request and accepts or refuses it. -/
  | zoneFirstRequest (t : Transfer)
  /-- EYELET_PAYLOAD_WRITE (R246): An arriving payload write lands in the eyelet's scratchpad bytes. -/
  | eyeletPayloadWrite (t : Transfer) (data : List Byte)
  /-- FULL_ACKNOWLEDGE (R246): The receiver's FULL acknowledgement makes the sender's copy DONE. -/
  | fullAcknowledge (h : Nat) (ch : ChNum)
  /-- MONITOR_WAKE (R25): A wake event makes a MONITOR hart re-check its wait condition. -/
  | monitorWake (h : Nat)
  /-- POLL_INTERVAL (R260): A polled wait re-reads its location at the end of its 4,096-cycle interval. -/
  | pollInterval (h : Nat)
  /-- ILLEGAL_ENCODING (R122): The strand reaches a word that is not an instruction and traps. -/
  | illegalEncoding (word : BitVec 32) (second : Bool)
  /-- TAKE_ASYNC_EVENT (R345): A pending asynchronous event is taken as a trap at VCP. -/
  | takeAsyncEvent (h : Nat)
  /-- RECLAIM_TIMEOUT (R29): The reclaim timer expires and CAUSE 0x21 becomes pending. -/
  | reclaimTimeout (h : Nat)
  /-- SWITCH_OUT (R349): A switch-pending hart's context is saved and its resources released. -/
  | switchOut (h : Nat)
  /-- HART_RESTORE (R355): The scheduler restores a SWITCHED hart from its save area. -/
  | hartRestore (h : Nat)
  /-- HART_END (R24): The hart ends when VCP reaches the hart-exit address. -/
  | hartEnd (h : Nat)
  /-- LAUNCH_DONE (R316): A draining launch's copies finish and the completion signal is written. -/
  | launchDone (l : Nat)
  /-- QUEUE_WINDOW_WRITE (R311): A 64-byte window write enqueues a launch packet or is dropped. -/
  | queueWindowWrite (q : Fin 1024) (off : Nat) (data : List Byte)
  /-- PACKET_ACCEPT (R313): The scheduler accepts a queue head and reads its argument block. -/
  | packetAccept (q : Fin 1024)
  /-- DEPENDENCE_RECHECK (R315): A write to a dependence word makes the scheduler re-read it. -/
  | dependenceRecheck (q : Fin 1024)
  /-- DEPENDENCE_POLL (R315): The 65,536-cycle poll of a host dependence word expires. -/
  | dependencePoll (q : Fin 1024)
  /-- SCHEDULE_PLACEMENT (R321): The scheduler chooses a candidate and places harts. -/
  | schedulePlacement (p : Fin 8)
  /-- RACK_LAUNCH_REQUEST (R329): A rack launch message is checked, enqueued and answered. The message is given as its bytes 0 and 1,
  bytes 2 and 3, and those after them. -/
  | rackLaunchRequest (source : Word) (queue request : BitVec 16) (rest : List Byte)
  /-- RACK_REPORT_REQUEST (R329): A report request makes the device send a residency report. -/
  | rackReportRequest (source : Word) (p : Fin 8)
  /-- RESIDENCY_REPORT (R330): The RPTINT interval expires and a residency report is sent. -/
  | residencyReport (p : Fin 8)
  /-- PARTITION_ENABLE (R308): A write of EN = 1 enables the partition or sets ERR. -/
  | partitionEnable (p : Fin 8)
  /-- PARTITION_DISABLE (R308): A write of EN = 0 disables an idle partition. -/
  | partitionDisable (p : Fin 8)
  /-- REGISTER_WRITE (R6): A write to a register with no behaviour of its own stores its writable fields. -/
  | registerWrite (r : DevReg) (v : Word)
  /-- CACHE_EVICTION_WRITEBACK (R110): The cache writes back dirty remote bytes on eviction. -/
  | cacheEvictionWriteback (holder : Cache) (line : Nat)
  /-- HOST_WRITE (R94): A host write request over PCI Express performs in 8-byte parts. -/
  | hostWrite (at' : HostAddr) (data : List Byte)
  /-- HOST_READ (R109): A host read of a device location completes after earlier device writes. -/
  | hostRead (at' : HostAddr) (n : Nat)
  /-- PATH_LOST (R251): A path is declared lost; eyelets tear and channels stop pending. -/
  | pathLost (p : Path)
  /-- PATH_RETURN (R251): A path returns; GEN steps and channel outcomes are reported. -/
  | pathReturn (p : Path) (full : List (Nat × ChNum))
  /-- PATH_LOST_FOR_GOOD (R370): No route returns within the limit and the path is lost for good. -/
  | pathLostForGood (p : Path)
  /-- WELT_COMMIT (R363): Writing COMMIT installs the staged routing tables or sets ERR. -/
  | weltCommit
  /-- WELT_GENERATION_DRAIN (R363): The last packet of the older generation leaves and PEND clears. -/
  | weltGenerationDrain
  /-- WELT_LINK_FAIL (R361): A die-to-die link fails and its packets are lost. -/
  | weltLinkFail (c : Fin 8) (l : Fin 4)
  /-- LANE_SPARE_REPAIR (R361): A link repairs a failed lane from its spares without loss. -/
  | laneSpareRepair (c : Fin 8) (l : Fin 4)
  /-- NIRMUS_DATA_FLIT (R364): A data flit is received, decoded, checked and delivered or dropped. -/
  | nirmusDataFlit (port : Fin 4) (words : List (BitVec 72))
  /-- NIRMUS_ACKNOWLEDGE_FLIT (R365): An acknowledge flit frees replay-buffer entries. -/
  | nirmusAcknowledgeFlit (port : Fin 4) (words : List (BitVec 72))
  /-- NIRMUS_IDLE_FLIT (R364): An idle flit is received. -/
  | nirmusIdleFlit (port : Fin 4) (words : List (BitVec 72))
  /-- KEY_EXHAUSTION_FLIT (R368): A KIND 3 flit announcing key exhaustion is received. -/
  | keyExhaustionFlit (port : Fin 4) (words : List (BitVec 72))
  /-- PLANE_RETURN (R366): Writing 1 to NSTAT.PF returns a retrained plane to service. -/
  | planeReturn (port : Fin 4)
  /-- TRANSMIT_KEY_SWITCH (R367): At a flit boundary after TRDY the sender switches keys and inverts KEP. -/
  | transmitKeySwitch (port : Fin 4)
  /-- COUNTER_EXHAUSTION (R368): NCNT reaches its last value and the port holds traffic. -/
  | counterExhaustion (port : Fin 4)
  /-- KEY_HOLD_TIMEOUT (R368): The 3,300,000-cycle exhaustion hold expires and the port fails. -/
  | keyHoldTimeout (port : Fin 4)
  /-- HOST_INTERRUPT (R377): A HINT write makes cause 0x22 pending on a hart or is dropped. -/
  | hostInterrupt (vf : Fin 9) (value : BitVec 32) (core : Fin 128) (slot : Fin 16)
  /-- PS0_RUN (R376): CMD 0 sets full issue rate. -/
  | ps0Run
  /-- PS1_CAPPED (R376): CMD 1 caps matrix issue. -/
  | ps1Capped
  /-- PS2_QUIESCE (R376): CMD 2 stops placement and restore. -/
  | ps2Quiesce
  /-- PS3_STANDBY (R376): CMD 3 powers off compute chiplets or is refused. -/
  | ps3Standby
  /-- UNIT_READY (R375): A unit finishes bring-up and its READY bit sets. -/
  | unitReady (u : Fin 33)
  /-- TEMP_ALERT (R376): A DRAM layer passes 105 °C; ALERT sets and MSI-X vector 0 fires. -/
  | tempAlert (celsius : BitVec 8)
  /-- THERMAL_POWER_REMOVAL (R376): Above 115 °C module power is removed and all state lost. -/
  | thermalPowerRemoval
  /-- MODULE_REMOVAL (R380): The module is removed from its tray, losing all state. -/
  | moduleRemoval
  /-- POWER_UP (R379): Power-up or device reset starts bring-up from the signed image. -/
  | powerUp
  /-- CONFIGURATION_IMAGE (R379): Felob verifies a signed configuration or firmware image and accepts or discards it. -/
  | configurationImage (img : ConfigImage)
  /-- FIRE (R378): Writing FIRE pulses the common snapshot trigger. -/
  | fire
  /-- SNAPCTL_FIRE (R301): A monitor write of SNAPCTL.FIRE pulses the snapshot trigger. -/
  | snapctlFire
  /-- RETIRE_CLUSTER (R380): RETIRE kind 1 retires a lane cluster and switches out its hart. -/
  | retireCluster (core : Fin 128) (cluster : Fin 16)
  /-- RETIRE_CORE (R380): RETIRE kind 2 retires a whole core. -/
  | retireCore (core : Fin 128)
  /-- RETIRE_MATRIX_ROWS (R380): RETIRE kind 3 removes 32 matrix rows at the next mdetach. -/
  | retireMatrixRows (core : Fin 128)
  /-- ROW_REPAIR (R380): RETIRE kind 4 copies an HBM4 row to a spare row. -/
  | rowRepair (addr : Nat)
  /-- ROW_REPAIR_DONE (R380): The row copy finishes and RETSTAT becomes done. -/
  | rowRepairDone
  /-- MEMORY_ERROR_EVENT (R359): An HBM4 error or repair event is counted and logged or dropped. -/
  | memoryErrorEvent (k : Fin 16) (kind : MemErr) (chan : Fin 64) (layer : Fin 16) (addr : Nat)
  /-- POP (R357): Writing POP removes the oldest error-log record. -/
  | pop (k : Fin 16)
  /-- BYTES_ACKNOWLEDGED (R81): An acknowledgement from the receiving zone arrives at the sender and advances the progress and CWMn of a cpy.r or qsend channel. -/
  | bytesAcknowledged (h : Nat) (ch : ChNum) (n : Nat)
  /-- PORT_TRAINING (R369): Lane training of a Nirmus port ends, taking the port from TRAINING to UP, or failing it when lanes will not retrain beyond the one failed plane. -/
  | portTraining (port : Fin 4) (ok : Bool)
deriving DecidableEq, Repr

end Sys2Proof
end

