-- ==== Sys2Proof/WellFormed.lean ====
section
/-! DEFINITION. Which instructions are well formed: the conditions of the encodings that no field's own range
already says (06 R116, R118, and the entries named at each group). -/

namespace Sys2Proof

/-- An immediate that an `n`-bit two's-complement field can hold (R118). -/
def immOk (n : Nat) (i : Int) : Bool := decide (-(2 ^ (n - 1) : Int) ≤ i ∧ i < (2 ^ (n - 1) : Int))

/-- The well-formedness of each row: immediates within what a leading word can extend them to (R118); branch hints
(R144); bit fields within the word (R151); register pairs, triples and quadruples (R207, R257); fence sets (R98);
required selectors and distinct fibres (R183, R210); tags an entry allows (R158, R192, R197); ladders (R116).
An event of the part has no encoding and nothing to check here. -/
def Instr.wf : Instr → Bool
  | .add _ _ _ => true
  | .sub _ _ _ => true
  | .and _ _ _ => true
  | .or _ _ _ => true
  | .xor _ _ _ => true
  | .andn _ _ _ => true
  | .sll _ _ _ => true
  | .srl _ _ _ => true
  | .sra _ _ _ => true
  | .rol _ _ _ => true
  | .ror _ _ _ => true
  | .min _ _ _ => true
  | .max _ _ _ => true
  | .minu _ _ _ => true
  | .maxu _ _ _ => true
  | .csel _ _ _ _ => true
  | .addi _ _ i => immOk 36 i
  | .andi _ _ i => immOk 36 i
  | .ori _ _ i => immOk 36 i
  | .xori _ _ i => immOk 36 i
  | .slli _ _ _ => true
  | .srli _ _ _ => true
  | .srai _ _ _ => true
  | .rori _ _ _ => true
  | .lui _ i => immOk 44 i
  | .lb _ _ o => immOk 36 o
  | .lh _ _ o => immOk 36 o
  | .lw _ _ o => immOk 36 o
  | .ld _ _ o => immOk 36 o
  | .lbu _ _ o => immOk 36 o
  | .lhu _ _ o => immOk 36 o
  | .lwu _ _ o => immOk 36 o
  | .sb _ _ o => immOk 36 o
  | .sh _ _ o => immOk 36 o
  | .sw _ _ o => immOk 36 o
  | .sd _ _ o => immOk 36 o
  | .bc _ k o => immOk 43 o && decide (k.val ≠ 3)
  | .bnc _ k o => immOk 43 o && decide (k.val ≠ 3)
  | .jal _ o => immOk 44 o
  | .jalr _ _ i => immOk 36 i
  | .cmpiEq _ _ i => immOk 36 i
  | .cmpiLt _ _ i => immOk 36 i
  | .cmpiLtu _ _ i => immOk 36 i
  | .cmpEq _ _ _ => true
  | .cmpLt _ _ _ => true
  | .cmpLtu _ _ _ => true
  | .cmpTst _ _ _ => true
  | .cand _ _ _ => true
  | .cor _ _ _ => true
  | .cxor _ _ _ => true
  | .candn _ _ _ => true
  | .movs _ _ => true
  | .smov _ _ => true
  | .trap i => immOk 12 i
  | .ebreak => true
  | .kret => true
  | .mcall i => immOk 12 i
  | .monret => true
  | .invpg _ _ => true
  | .invpgG _ => true
  | .hend s => decide (s.val ≤ 4)
  | .mul _ _ _ => true
  | .mulhiSs _ _ _ => true
  | .mulhiUu _ _ _ => true
  | .mulhiSu _ _ _ => true
  | .div _ _ _ => true
  | .divu _ _ _ => true
  | .rem _ _ _ => true
  | .remu _ _ _ => true
  | .faddS _ _ _ _ => true
  | .faddD _ _ _ _ => true
  | .fsubS _ _ _ _ => true
  | .fsubD _ _ _ _ => true
  | .fmulS _ _ _ _ => true
  | .fmulD _ _ _ _ => true
  | .fdivS _ _ _ _ => true
  | .fdivD _ _ _ _ => true
  | .fsqrtS _ _ _ => true
  | .fsqrtD _ _ _ => true
  | .fminS _ _ _ _ => true
  | .fminD _ _ _ _ => true
  | .fmaxS _ _ _ _ => true
  | .fmaxD _ _ _ _ => true
  | .fmacS _ _ _ _ => true
  | .fmacD _ _ _ _ => true
  | .fcmpEqS _ _ _ _ => true
  | .fcmpEqD _ _ _ _ => true
  | .fcmpLtS _ _ _ _ => true
  | .fcmpLtD _ _ _ _ => true
  | .fcmpLeS _ _ _ _ => true
  | .fcmpLeD _ _ _ _ => true
  | .fcvtLS _ _ _ _ => true
  | .fcvtLD _ _ _ _ => true
  | .fcvtLuS _ _ _ _ => true
  | .fcvtLuD _ _ _ _ => true
  | .fcvtSL _ _ _ => true
  | .fcvtDL _ _ _ => true
  | .fcvtSLu _ _ _ => true
  | .fcvtDLu _ _ _ => true
  | .fcvtSD _ _ _ _ => true
  | .fcvtDS _ _ _ => true
  | .clz _ _ => true
  | .ctz _ _ => true
  | .popc _ _ => true
  | .bswap _ _ => true
  | .bfx _ _ l p => decide (p.val + l.val < 64)
  | .bfxu _ _ l p => decide (p.val + l.val < 64)
  | .bfi _ _ l p => decide (p.val + l.val < 64)
  | .fsh _ _ _ _ => true
  | .fshv _ _ _ _ => true
  | .bfxuv _ _ _ _ => true
  | .amoAdd _ _ _ _ _ _ => true
  | .amoAnd _ _ _ _ _ _ => true
  | .amoOr _ _ _ _ _ _ => true
  | .amoXor _ _ _ _ _ _ => true
  | .amoMin _ _ _ _ _ _ => true
  | .amoMax _ _ _ _ _ _ => true
  | .amoMinu _ _ _ _ _ _ => true
  | .amoMaxu _ _ _ _ _ _ => true
  | .amoSwap _ _ _ _ _ _ => true
  | .amoCas _ _ _ _ _ _ => true
  | .casQ d _ b _ _ => decide (d.val % 2 = 0 ∧ d.val ≠ 0 ∧ b.val % 2 = 0)
  | .ldAcq _ _ _ _ => true
  | .stRel _ _ _ _ => true
  | .fence sLd sSt sEng sRem s => decide ((sLd || sSt || sEng || sRem) = true ∧ (sRem = true → s = .sys))
  | .ifence => true
  | .waitge _ _ _ _ _ => true
  | .waiteq _ _ _ _ _ => true
  | .barInit _ _ _ => true
  | .barArrive _ _ _ => true
  | .barWait _ _ _ => true
  | .barFin _ => true
  | .farmDef _ _ => true
  | .farmNext _ _ => true
  | .farmEnd => true
  | .scommit => true
  | .sabort => true
  | .sbegin o => immOk 36 o
  | .launch _ _ _ => true
  | .setvl _ _ t _ => decide (t ≠ .none)
  | .setvlH _ _ t _ => decide (t ≠ .none)
  | .vld _ _ _ _ _ => true
  | .vldff _ _ _ _ => true
  | .vlds _ _ _ _ _ _ => true
  | .vst _ _ _ _ => true
  | .vsts _ _ _ _ _ => true
  | .vldx _ _ _ _ _ _ _ => true
  | .vldxFar _ _ _ _ _ _ _ => true
  | .vstx _ _ _ _ _ _ => true
  | .vstxFar _ _ _ _ _ _ => true
  | .vldseg _ _ _ _ n _ => decide (n.val ≠ 0)
  | .vstseg _ _ _ _ n => decide (n.val ≠ 0)
  | .vldsegP _ _ _ _ _ n _ => decide (n.val ≠ 0)
  | .vstsegP _ _ _ _ _ _ n => decide (n.val ≠ 0)
  | .vld2 _ _ _ _ _ => true
  | .vst2 _ _ _ _ => true
  | .vsbind _ _ _ _ => true
  | .vsunbind _ => true
  | .vtag _ _ => true
  | .vtagr _ _ => true
  | .spdisc _ _ => true
  | .spkeep _ _ => true
  | .vadd _ _ _ _ _ _ _ _ => true
  | .vsub _ _ _ _ _ _ _ _ => true
  | .vmul _ _ _ _ _ _ _ _ => true
  | .vdiv _ _ _ _ _ _ _ => true
  | .vrem _ _ _ _ _ _ _ => true
  | .vmin _ _ _ _ _ _ _ => true
  | .vmax _ _ _ _ _ _ _ => true
  | .vand _ _ _ _ _ _ _ => true
  | .vor _ _ _ _ _ _ _ => true
  | .vxor _ _ _ _ _ _ _ => true
  | .vsll _ _ _ _ _ _ _ => true
  | .vsrl _ _ _ _ _ _ _ => true
  | .vsra _ _ _ _ _ _ _ => true
  | .vmulh _ _ _ _ _ _ _ => true
  | .vaddX _ _ _ _ _ _ _ => true
  | .vsubX _ _ _ _ _ _ _ => true
  | .vmulX _ _ _ _ _ _ _ => true
  | .vdivX _ _ _ _ _ _ => true
  | .vremX _ _ _ _ _ _ => true
  | .vminX _ _ _ _ _ _ => true
  | .vmaxX _ _ _ _ _ _ => true
  | .vandX _ _ _ _ _ _ => true
  | .vorX _ _ _ _ _ _ => true
  | .vxorX _ _ _ _ _ _ => true
  | .vsllX _ _ _ _ _ _ => true
  | .vsrlX _ _ _ _ _ _ => true
  | .vsraX _ _ _ _ _ _ => true
  | .vmulhX _ _ _ _ _ _ => true
  | .vfma _ _ _ _ _ _ _ _ => true
  | .vfms _ _ _ _ _ _ _ _ => true
  | .vfnma _ _ _ _ _ _ _ _ => true
  | .vfnms _ _ _ _ _ _ _ _ => true
  | .vcmpEq _ _ _ _ _ _ _ => true
  | .vcmpNe _ _ _ _ _ _ _ => true
  | .vcmpLt _ _ _ _ _ _ _ => true
  | .vcmpLe _ _ _ _ _ _ _ => true
  | .vcmpEqX _ _ _ _ _ _ => true
  | .vcmpNeX _ _ _ _ _ _ => true
  | .vcmpLtX _ _ _ _ _ _ => true
  | .vcmpLeX _ _ _ _ _ _ => true
  | .vcmpGtX _ _ _ _ _ _ => true
  | .vcmpGeX _ _ _ _ _ _ => true
  | .mand _ _ _ => true
  | .mor _ _ _ => true
  | .mxor _ _ _ => true
  | .mandn _ _ _ => true
  | .mnot _ _ => true
  | .msbf _ _ => true
  | .msif _ _ => true
  | .mpopc _ _ _ => true
  | .mfirst _ _ _ => true
  | .vmv _ _ _ _ => true
  | .vmerge _ _ _ _ _ m => decide (m.val ≠ 0)
  | .vsplat _ _ _ => true
  | .vid _ _ => true
  | .vslideup _ _ _ _ _ => true
  | .vslidedn _ _ _ _ _ => true
  | .vslide1up _ _ _ _ _ => true
  | .vslide1dn _ _ _ _ _ => true
  | .vrgather _ _ _ _ _ _ => true
  | .vcompress _ _ _ m => decide (m.val ≠ 0)
  | .vexpand _ _ _ m => decide (m.val ≠ 0)
  | .vpfxpop _ _ => true
  | .vconflict _ _ _ _ => true
  | .vscanSegAdd _ _ _ _ _ => true
  | .vscanSegMin _ _ _ _ _ => true
  | .vscanSegMax _ _ _ _ _ => true
  | .vredAdd _ _ _ _ _ _ _ => true
  | .vredMin _ _ _ _ _ _ _ => true
  | .vredMax _ _ _ _ _ _ _ => true
  | .vredAnd _ _ _ _ _ _ _ => true
  | .vredOr _ _ _ _ _ _ _ => true
  | .vredXor _ _ _ _ _ _ _ => true
  | .vfredOrd _ _ _ _ _ _ _ => true
  | .vcvt _ _ t _ _ _ _ => decide (t ≠ .none ∧ t ≠ .sc8)
  | .vneg _ _ _ _ _ _ => true
  | .vabs _ _ _ _ _ _ => true
  | .vsqrt _ _ _ _ _ => true
  | .vexp2 _ _ _ _ _ => true
  | .vlog2 _ _ _ _ _ => true
  | .vrcp _ _ _ _ _ => true
  | .vrsqrt _ _ _ _ _ => true
  | .vbext _ _ _ _ _ _ _ => true
  | .vfsh _ _ _ _ _ _ => true
  | .xaClr _ => true
  | .xaAddv _ _ _ _ => true
  | .xaDot _ _ _ _ _ _ => true
  | .xaRd _ _ t _ => decide (t = .fp64 ∨ t = .fp32 ∨ t = .bf16 ∨ t = .fp16)
  | .xaRdv _ _ _ _ => true
  | .xaLd _ _ _ => true
  | .xaSt _ _ => true
  | .vmvXv _ _ _ _ => true
  | .vmvVx _ _ _ => true
  | .qld _ v _ => decide (v.val ≤ 29)
  | .qwalk _ v _ => decide (v.val ≤ 28)
  | .qwalkD _ v _ => decide (v.val ≤ 28)
  | .qst _ v => decide (v.val ≤ 30)
  | .qisectMul d a b _ _ => decide (d ≠ a ∧ d ≠ b)
  | .qisectA d a b => decide (d ≠ a ∧ d ≠ b)
  | .qisectB d a b => decide (d ≠ a ∧ d ≠ b)
  | .qunionAdd d a b _ _ => decide (d ≠ a ∧ d ≠ b)
  | .qmerge d a b => decide (d ≠ a ∧ d ≠ b)
  | .qsort _ _ => true
  | .qcompact _ _ => true
  | .qcompactM _ _ _ => true
  | .qdot _ _ _ => true
  | .qexpand _ _ _ => true
  | .qfromv _ _ _ => true
  | .qfromvAll _ _ _ => true
  | .qcoord _ _ => true
  | .qval _ _ => true
  | .qcnt _ _ => true
  | .qclr _ => true
  | .qscale _ _ _ _ _ => true
  | .qredAdd _ _ _ => true
  | .qredMin _ _ => true
  | .qredMax _ _ => true
  | .mattach _ => true
  | .mdetach => true
  | .mzeroT _ => true
  | .mzeroZ _ => true
  | .mldT _ _ _ => true
  | .mldZ _ _ _ => true
  | .mldbm _ _ _ _ => true
  | .mstT _ _ => true
  | .mstZ _ _ => true
  | .mma _ _ _ start ceil _ => decide (start.val ≤ ceil.val)
  | .mmaSp _ _ _ start ceil _ => decide (start.val ≤ ceil.val)
  | .mmaSs _ _ _ start ceil _ => decide (start.val ≤ ceil.val)
  | .mdrain _ _ _ _ _ => true
  | .mdrainX _ _ _ _ _ _ => true
  | .mdrainv _ _ _ _ _ => true
  | .cpy _ _ _ _ => true
  | .cpy2 _ _ _ _ _ => true
  | .cpyG _ _ _ _ _ => true
  | .cpyGd _ _ _ _ _ => true
  | .cpyR _ _ _ _ => true
  | .cbatch => true
  | .cwait _ => true
  | .cstat _ _ _ => true
  | .cack _ => true
  | .lzInit _ _ _ => true
  | .lzRes _ _ => true
  | .lzWait _ _ => true
  | .lzFree _ _ => true
  | .lzScrub _ _ => true
  | .lzFin _ => true
  | .qsend _ _ _ _ => true
  | .qrecv _ _ _ => true
  | .gatherGroupArrive _ _ _ => true
  | .streamPrefetch _ _ => true
  | .copyAccept _ => true
  | .copyElement _ _ => true
  | .lzResRequest _ _ => true
  | .lzResReply _ _ _ => true
  | .zoneFirstRequest _ => true
  | .eyeletPayloadWrite _ _ => true
  | .fullAcknowledge _ _ => true
  | .monitorWake _ => true
  | .pollInterval _ => true
  | .illegalEncoding _ _ => true
  | .takeAsyncEvent _ => true
  | .reclaimTimeout _ => true
  | .switchOut _ => true
  | .hartRestore _ => true
  | .hartEnd _ => true
  | .launchDone _ => true
  | .queueWindowWrite _ _ _ => true
  | .packetAccept _ => true
  | .dependenceRecheck _ => true
  | .dependencePoll _ => true
  | .schedulePlacement _ => true
  | .rackLaunchRequest _ _ _ _ => true
  | .rackReportRequest _ _ => true
  | .residencyReport _ => true
  | .partitionEnable _ => true
  | .partitionDisable _ => true
  | .registerWrite _ _ => true
  | .cacheEvictionWriteback _ _ => true
  | .hostWrite _ _ => true
  | .hostRead _ _ => true
  | .pathLost _ => true
  | .pathReturn _ _ => true
  | .pathLostForGood _ => true
  | .weltCommit => true
  | .weltGenerationDrain => true
  | .weltLinkFail _ _ => true
  | .laneSpareRepair _ _ => true
  | .nirmusDataFlit _ _ => true
  | .nirmusAcknowledgeFlit _ _ => true
  | .nirmusIdleFlit _ _ => true
  | .keyExhaustionFlit _ _ => true
  | .planeReturn _ => true
  | .transmitKeySwitch _ => true
  | .counterExhaustion _ => true
  | .keyHoldTimeout _ => true
  | .hostInterrupt _ _ _ _ => true
  | .ps0Run => true
  | .ps1Capped => true
  | .ps2Quiesce => true
  | .ps3Standby => true
  | .unitReady _ => true
  | .tempAlert _ => true
  | .thermalPowerRemoval => true
  | .moduleRemoval => true
  | .powerUp => true
  | .configurationImage _ => true
  | .fire => true
  | .snapctlFire => true
  | .retireCluster _ _ => true
  | .retireCore _ => true
  | .retireMatrixRows _ => true
  | .rowRepair _ => true
  | .rowRepairDone => true
  | .memoryErrorEvent _ _ _ _ _ => true
  | .pop _ => true
  | .bytesAcknowledged _ _ _ => true
  | .portTraining _ _ => true

/-- The rows without an encoding: the part's own events. -/
def Instr.isEvent : Instr → Bool
  | .add _ _ _ => false
  | .sub _ _ _ => false
  | .and _ _ _ => false
  | .or _ _ _ => false
  | .xor _ _ _ => false
  | .andn _ _ _ => false
  | .sll _ _ _ => false
  | .srl _ _ _ => false
  | .sra _ _ _ => false
  | .rol _ _ _ => false
  | .ror _ _ _ => false
  | .min _ _ _ => false
  | .max _ _ _ => false
  | .minu _ _ _ => false
  | .maxu _ _ _ => false
  | .csel _ _ _ _ => false
  | .addi _ _ _ => false
  | .andi _ _ _ => false
  | .ori _ _ _ => false
  | .xori _ _ _ => false
  | .slli _ _ _ => false
  | .srli _ _ _ => false
  | .srai _ _ _ => false
  | .rori _ _ _ => false
  | .lui _ _ => false
  | .lb _ _ _ => false
  | .lh _ _ _ => false
  | .lw _ _ _ => false
  | .ld _ _ _ => false
  | .lbu _ _ _ => false
  | .lhu _ _ _ => false
  | .lwu _ _ _ => false
  | .sb _ _ _ => false
  | .sh _ _ _ => false
  | .sw _ _ _ => false
  | .sd _ _ _ => false
  | .bc _ _ _ => false
  | .bnc _ _ _ => false
  | .jal _ _ => false
  | .jalr _ _ _ => false
  | .cmpiEq _ _ _ => false
  | .cmpiLt _ _ _ => false
  | .cmpiLtu _ _ _ => false
  | .cmpEq _ _ _ => false
  | .cmpLt _ _ _ => false
  | .cmpLtu _ _ _ => false
  | .cmpTst _ _ _ => false
  | .cand _ _ _ => false
  | .cor _ _ _ => false
  | .cxor _ _ _ => false
  | .candn _ _ _ => false
  | .movs _ _ => false
  | .smov _ _ => false
  | .trap _ => false
  | .ebreak => false
  | .kret => false
  | .mcall _ => false
  | .monret => false
  | .invpg _ _ => false
  | .invpgG _ => false
  | .hend _ => false
  | .mul _ _ _ => false
  | .mulhiSs _ _ _ => false
  | .mulhiUu _ _ _ => false
  | .mulhiSu _ _ _ => false
  | .div _ _ _ => false
  | .divu _ _ _ => false
  | .rem _ _ _ => false
  | .remu _ _ _ => false
  | .faddS _ _ _ _ => false
  | .faddD _ _ _ _ => false
  | .fsubS _ _ _ _ => false
  | .fsubD _ _ _ _ => false
  | .fmulS _ _ _ _ => false
  | .fmulD _ _ _ _ => false
  | .fdivS _ _ _ _ => false
  | .fdivD _ _ _ _ => false
  | .fsqrtS _ _ _ => false
  | .fsqrtD _ _ _ => false
  | .fminS _ _ _ _ => false
  | .fminD _ _ _ _ => false
  | .fmaxS _ _ _ _ => false
  | .fmaxD _ _ _ _ => false
  | .fmacS _ _ _ _ => false
  | .fmacD _ _ _ _ => false
  | .fcmpEqS _ _ _ _ => false
  | .fcmpEqD _ _ _ _ => false
  | .fcmpLtS _ _ _ _ => false
  | .fcmpLtD _ _ _ _ => false
  | .fcmpLeS _ _ _ _ => false
  | .fcmpLeD _ _ _ _ => false
  | .fcvtLS _ _ _ _ => false
  | .fcvtLD _ _ _ _ => false
  | .fcvtLuS _ _ _ _ => false
  | .fcvtLuD _ _ _ _ => false
  | .fcvtSL _ _ _ => false
  | .fcvtDL _ _ _ => false
  | .fcvtSLu _ _ _ => false
  | .fcvtDLu _ _ _ => false
  | .fcvtSD _ _ _ _ => false
  | .fcvtDS _ _ _ => false
  | .clz _ _ => false
  | .ctz _ _ => false
  | .popc _ _ => false
  | .bswap _ _ => false
  | .bfx _ _ _ _ => false
  | .bfxu _ _ _ _ => false
  | .bfi _ _ _ _ => false
  | .fsh _ _ _ _ => false
  | .fshv _ _ _ _ => false
  | .bfxuv _ _ _ _ => false
  | .amoAdd _ _ _ _ _ _ => false
  | .amoAnd _ _ _ _ _ _ => false
  | .amoOr _ _ _ _ _ _ => false
  | .amoXor _ _ _ _ _ _ => false
  | .amoMin _ _ _ _ _ _ => false
  | .amoMax _ _ _ _ _ _ => false
  | .amoMinu _ _ _ _ _ _ => false
  | .amoMaxu _ _ _ _ _ _ => false
  | .amoSwap _ _ _ _ _ _ => false
  | .amoCas _ _ _ _ _ _ => false
  | .casQ _ _ _ _ _ => false
  | .ldAcq _ _ _ _ => false
  | .stRel _ _ _ _ => false
  | .fence _ _ _ _ _ => false
  | .ifence => false
  | .waitge _ _ _ _ _ => false
  | .waiteq _ _ _ _ _ => false
  | .barInit _ _ _ => false
  | .barArrive _ _ _ => false
  | .barWait _ _ _ => false
  | .barFin _ => false
  | .farmDef _ _ => false
  | .farmNext _ _ => false
  | .farmEnd => false
  | .scommit => false
  | .sabort => false
  | .sbegin _ => false
  | .launch _ _ _ => false
  | .setvl _ _ _ _ => false
  | .setvlH _ _ _ _ => false
  | .vld _ _ _ _ _ => false
  | .vldff _ _ _ _ => false
  | .vlds _ _ _ _ _ _ => false
  | .vst _ _ _ _ => false
  | .vsts _ _ _ _ _ => false
  | .vldx _ _ _ _ _ _ _ => false
  | .vldxFar _ _ _ _ _ _ _ => false
  | .vstx _ _ _ _ _ _ => false
  | .vstxFar _ _ _ _ _ _ => false
  | .vldseg _ _ _ _ _ _ => false
  | .vstseg _ _ _ _ _ => false
  | .vldsegP _ _ _ _ _ _ _ => false
  | .vstsegP _ _ _ _ _ _ _ => false
  | .vld2 _ _ _ _ _ => false
  | .vst2 _ _ _ _ => false
  | .vsbind _ _ _ _ => false
  | .vsunbind _ => false
  | .vtag _ _ => false
  | .vtagr _ _ => false
  | .spdisc _ _ => false
  | .spkeep _ _ => false
  | .vadd _ _ _ _ _ _ _ _ => false
  | .vsub _ _ _ _ _ _ _ _ => false
  | .vmul _ _ _ _ _ _ _ _ => false
  | .vdiv _ _ _ _ _ _ _ => false
  | .vrem _ _ _ _ _ _ _ => false
  | .vmin _ _ _ _ _ _ _ => false
  | .vmax _ _ _ _ _ _ _ => false
  | .vand _ _ _ _ _ _ _ => false
  | .vor _ _ _ _ _ _ _ => false
  | .vxor _ _ _ _ _ _ _ => false
  | .vsll _ _ _ _ _ _ _ => false
  | .vsrl _ _ _ _ _ _ _ => false
  | .vsra _ _ _ _ _ _ _ => false
  | .vmulh _ _ _ _ _ _ _ => false
  | .vaddX _ _ _ _ _ _ _ => false
  | .vsubX _ _ _ _ _ _ _ => false
  | .vmulX _ _ _ _ _ _ _ => false
  | .vdivX _ _ _ _ _ _ => false
  | .vremX _ _ _ _ _ _ => false
  | .vminX _ _ _ _ _ _ => false
  | .vmaxX _ _ _ _ _ _ => false
  | .vandX _ _ _ _ _ _ => false
  | .vorX _ _ _ _ _ _ => false
  | .vxorX _ _ _ _ _ _ => false
  | .vsllX _ _ _ _ _ _ => false
  | .vsrlX _ _ _ _ _ _ => false
  | .vsraX _ _ _ _ _ _ => false
  | .vmulhX _ _ _ _ _ _ => false
  | .vfma _ _ _ _ _ _ _ _ => false
  | .vfms _ _ _ _ _ _ _ _ => false
  | .vfnma _ _ _ _ _ _ _ _ => false
  | .vfnms _ _ _ _ _ _ _ _ => false
  | .vcmpEq _ _ _ _ _ _ _ => false
  | .vcmpNe _ _ _ _ _ _ _ => false
  | .vcmpLt _ _ _ _ _ _ _ => false
  | .vcmpLe _ _ _ _ _ _ _ => false
  | .vcmpEqX _ _ _ _ _ _ => false
  | .vcmpNeX _ _ _ _ _ _ => false
  | .vcmpLtX _ _ _ _ _ _ => false
  | .vcmpLeX _ _ _ _ _ _ => false
  | .vcmpGtX _ _ _ _ _ _ => false
  | .vcmpGeX _ _ _ _ _ _ => false
  | .mand _ _ _ => false
  | .mor _ _ _ => false
  | .mxor _ _ _ => false
  | .mandn _ _ _ => false
  | .mnot _ _ => false
  | .msbf _ _ => false
  | .msif _ _ => false
  | .mpopc _ _ _ => false
  | .mfirst _ _ _ => false
  | .vmv _ _ _ _ => false
  | .vmerge _ _ _ _ _ _ => false
  | .vsplat _ _ _ => false
  | .vid _ _ => false
  | .vslideup _ _ _ _ _ => false
  | .vslidedn _ _ _ _ _ => false
  | .vslide1up _ _ _ _ _ => false
  | .vslide1dn _ _ _ _ _ => false
  | .vrgather _ _ _ _ _ _ => false
  | .vcompress _ _ _ _ => false
  | .vexpand _ _ _ _ => false
  | .vpfxpop _ _ => false
  | .vconflict _ _ _ _ => false
  | .vscanSegAdd _ _ _ _ _ => false
  | .vscanSegMin _ _ _ _ _ => false
  | .vscanSegMax _ _ _ _ _ => false
  | .vredAdd _ _ _ _ _ _ _ => false
  | .vredMin _ _ _ _ _ _ _ => false
  | .vredMax _ _ _ _ _ _ _ => false
  | .vredAnd _ _ _ _ _ _ _ => false
  | .vredOr _ _ _ _ _ _ _ => false
  | .vredXor _ _ _ _ _ _ _ => false
  | .vfredOrd _ _ _ _ _ _ _ => false
  | .vcvt _ _ _ _ _ _ _ => false
  | .vneg _ _ _ _ _ _ => false
  | .vabs _ _ _ _ _ _ => false
  | .vsqrt _ _ _ _ _ => false
  | .vexp2 _ _ _ _ _ => false
  | .vlog2 _ _ _ _ _ => false
  | .vrcp _ _ _ _ _ => false
  | .vrsqrt _ _ _ _ _ => false
  | .vbext _ _ _ _ _ _ _ => false
  | .vfsh _ _ _ _ _ _ => false
  | .xaClr _ => false
  | .xaAddv _ _ _ _ => false
  | .xaDot _ _ _ _ _ _ => false
  | .xaRd _ _ _ _ => false
  | .xaRdv _ _ _ _ => false
  | .xaLd _ _ _ => false
  | .xaSt _ _ => false
  | .vmvXv _ _ _ _ => false
  | .vmvVx _ _ _ => false
  | .qld _ _ _ => false
  | .qwalk _ _ _ => false
  | .qwalkD _ _ _ => false
  | .qst _ _ => false
  | .qisectMul _ _ _ _ _ => false
  | .qisectA _ _ _ => false
  | .qisectB _ _ _ => false
  | .qunionAdd _ _ _ _ _ => false
  | .qmerge _ _ _ => false
  | .qsort _ _ => false
  | .qcompact _ _ => false
  | .qcompactM _ _ _ => false
  | .qdot _ _ _ => false
  | .qexpand _ _ _ => false
  | .qfromv _ _ _ => false
  | .qfromvAll _ _ _ => false
  | .qcoord _ _ => false
  | .qval _ _ => false
  | .qcnt _ _ => false
  | .qclr _ => false
  | .qscale _ _ _ _ _ => false
  | .qredAdd _ _ _ => false
  | .qredMin _ _ => false
  | .qredMax _ _ => false
  | .mattach _ => false
  | .mdetach => false
  | .mzeroT _ => false
  | .mzeroZ _ => false
  | .mldT _ _ _ => false
  | .mldZ _ _ _ => false
  | .mldbm _ _ _ _ => false
  | .mstT _ _ => false
  | .mstZ _ _ => false
  | .mma _ _ _ _ _ _ => false
  | .mmaSp _ _ _ _ _ _ => false
  | .mmaSs _ _ _ _ _ _ => false
  | .mdrain _ _ _ _ _ => false
  | .mdrainX _ _ _ _ _ _ => false
  | .mdrainv _ _ _ _ _ => false
  | .cpy _ _ _ _ => false
  | .cpy2 _ _ _ _ _ => false
  | .cpyG _ _ _ _ _ => false
  | .cpyGd _ _ _ _ _ => false
  | .cpyR _ _ _ _ => false
  | .cbatch => false
  | .cwait _ => false
  | .cstat _ _ _ => false
  | .cack _ => false
  | .lzInit _ _ _ => false
  | .lzRes _ _ => false
  | .lzWait _ _ => false
  | .lzFree _ _ => false
  | .lzScrub _ _ => false
  | .lzFin _ => false
  | .qsend _ _ _ _ => false
  | .qrecv _ _ _ => false
  | .gatherGroupArrive _ _ _ => true
  | .streamPrefetch _ _ => true
  | .copyAccept _ => true
  | .copyElement _ _ => true
  | .lzResRequest _ _ => true
  | .lzResReply _ _ _ => true
  | .zoneFirstRequest _ => true
  | .eyeletPayloadWrite _ _ => true
  | .fullAcknowledge _ _ => true
  | .monitorWake _ => true
  | .pollInterval _ => true
  | .illegalEncoding _ _ => true
  | .takeAsyncEvent _ => true
  | .reclaimTimeout _ => true
  | .switchOut _ => true
  | .hartRestore _ => true
  | .hartEnd _ => true
  | .launchDone _ => true
  | .queueWindowWrite _ _ _ => true
  | .packetAccept _ => true
  | .dependenceRecheck _ => true
  | .dependencePoll _ => true
  | .schedulePlacement _ => true
  | .rackLaunchRequest _ _ _ _ => true
  | .rackReportRequest _ _ => true
  | .residencyReport _ => true
  | .partitionEnable _ => true
  | .partitionDisable _ => true
  | .registerWrite _ _ => true
  | .cacheEvictionWriteback _ _ => true
  | .hostWrite _ _ => true
  | .hostRead _ _ => true
  | .pathLost _ => true
  | .pathReturn _ _ => true
  | .pathLostForGood _ => true
  | .weltCommit => true
  | .weltGenerationDrain => true
  | .weltLinkFail _ _ => true
  | .laneSpareRepair _ _ => true
  | .nirmusDataFlit _ _ => true
  | .nirmusAcknowledgeFlit _ _ => true
  | .nirmusIdleFlit _ _ => true
  | .keyExhaustionFlit _ _ => true
  | .planeReturn _ => true
  | .transmitKeySwitch _ => true
  | .counterExhaustion _ => true
  | .keyHoldTimeout _ => true
  | .hostInterrupt _ _ _ _ => true
  | .ps0Run => true
  | .ps1Capped => true
  | .ps2Quiesce => true
  | .ps3Standby => true
  | .unitReady _ => true
  | .tempAlert _ => true
  | .thermalPowerRemoval => true
  | .moduleRemoval => true
  | .powerUp => true
  | .configurationImage _ => true
  | .fire => true
  | .snapctlFire => true
  | .retireCluster _ _ => true
  | .retireCore _ => true
  | .retireMatrixRows _ => true
  | .rowRepair _ => true
  | .rowRepairDone => true
  | .memoryErrorEvent _ _ _ _ _ => true
  | .pop _ => true
  | .bytesAcknowledged _ _ _ => true
  | .portTraining _ _ => true

end Sys2Proof
end

