-- ==== Sys2Proof/Decode.lean ====
section
/-! DEFINITION. From words to instructions and back (06 R113 to R124). Words are read as numbers, bit 0 the least
significant. `decode` reads the word at the program counter and the word after it; `encode` writes the words of a
well-formed instruction, with a leading word only where one is needed (R118, R119, R130). -/

namespace Sys2Proof

/-- Bits [lo+n−1:lo] of a word. -/
def fld (w lo n : Nat) : Nat := w / 2 ^ lo % 2 ^ n

/-- An `n`-bit field read as two's complement. -/
def sx (n v : Nat) : Int := if v < 2 ^ (n - 1) then (v : Int) else (v : Int) - 2 ^ n

/-- The `n`-bit field of an immediate. -/
def immField (n : Nat) (i : Int) : Nat := (i % 2 ^ n).toNat

/-- Tag codes (R53). -/
def Tag.code : Tag → Nat
  | .none => 0 | .i8 => 1 | .i16 => 2 | .i32 => 3 | .i64 => 4 | .ui8 => 5 | .ui16 => 6 | .ui32 => 7 | .ui64 => 8
  | .fp4 => 9 | .e4m3 => 10 | .e5m2 => 11 | .bf16 => 12 | .fp16 => 13 | .fp32 => 14 | .fp64 => 15 | .sc8 => 16

/-- The tag of a code; codes 0x11 to 0x1F are reserved (R53). -/
def Tag.ofCode : Nat → Option Tag
  | 0 => some .none | 1 => some .i8 | 2 => some .i16 | 3 => some .i32 | 4 => some .i64
  | 5 => some .ui8 | 6 => some .ui16 | 7 => some .ui32 | 8 => some .ui64
  | 9 => some .fp4 | 10 => some .e4m3 | 11 => some .e5m2 | 12 => some .bf16 | 13 => some .fp16
  | 14 => some .fp32 | 15 => some .fp64 | 16 => some .sc8
  | _ => Option.none

/-- Scope codes (R254). -/
def Scope.code : Scope → Nat
  | .core => 0 | .chip => 1 | .dev => 2 | .sys => 3

/-- The scope of a two-bit code. -/
def Scope.ofCode : Nat → Scope
  | 0 => .core | 1 => .chip | 2 => .dev | _ => .sys

/-- Order codes (R254). -/
def Order.code : Order → Nat
  | .relaxed => 0 | .acq => 1 | .rel => 2 | .ar => 3

/-- The order of a two-bit code. -/
def Order.ofCode : Nat → Order
  | 0 => .relaxed | 1 => .acq | 2 => .rel | _ => .ar

/-- The RM field of a leading word: 0 dynamic, 1 to 5 static (R119). -/
def rmCode : Option Rounding → Nat
  | none => 0 | some .rne => 1 | some .rtz => 2 | some .rdn => 3 | some .rup => 4 | some .rna => 5

/-- The HINT field of a leading word (R119). -/
def Hint.code : Hint → Nat
  | .none => 0 | .ptr => 1 | .val => 2

/-- XIMM of `vbext` (R182): bit 6 set and the length less one, or 0. -/
def lenCode : Option (Fin 64) → Nat
  | none => 0 | some l => 64 + l.val

/-- The modifiers a leading word carries before a word that is not of format I, U or B (R119). -/
structure Mods where
  rm   : Option Rounding
  sat  : Bool
  hint : Hint
  xfn  : Nat
  ximm : Nat
deriving DecidableEq, Repr

/-- RM 6 and 7 are illegal. -/
def rmOfCode : Nat → Option (Option Rounding)
  | 0 => some none | 1 => some (some .rne) | 2 => some (some .rtz) | 3 => some (some .rdn)
  | 4 => some (some .rup) | 5 => some (some .rna) | _ => none

/-- HINT 3 is illegal. -/
def Hint.ofCode : Nat → Option Hint
  | 0 => some .none | 1 => some .ptr | 2 => some .val | _ => Option.none

/-- The modifier fields of a leading word, when RM and HINT hold legal values. -/
def Mods.read (p : Nat) : Option Mods :=
  match rmOfCode (fld p 28 3), Hint.ofCode (fld p 25 2) with
  | some rm, some hint => some ⟨rm, fld p 27 1 == 1, hint, fld p 21 4, fld p 7 14⟩
  | _, _ => none

/-- The length of `vbext` from XIMM (R182): XIMM[13:7] zero, and XIMM[5:0] zero when XIMM[6] is 0. -/
def lenOfXimm (x : Nat) : Option (Option (Fin 64)) :=
  if x = 0 then some none
  else if 64 ≤ x ∧ x < 128 then some (some (Fin.ofNat 64 (x - 64)))
  else none

/-- Major 0x01. -/
noncomputable def decodeMajor01 (w : Nat) : Option Instr :=
  if fld w 22 10 = 0 then some (.add (Fin.ofNat 32 (fld w 7 5)) (Fin.ofNat 32 (fld w 12 5)) (Fin.ofNat 32 (fld w 17 5)))
  else if fld w 22 10 = 1 then some (.sub (Fin.ofNat 32 (fld w 7 5)) (Fin.ofNat 32 (fld w 12 5)) (Fin.ofNat 32 (fld w 17 5)))
  else if fld w 22 10 = 2 then some (.and (Fin.ofNat 32 (fld w 7 5)) (Fin.ofNat 32 (fld w 12 5)) (Fin.ofNat 32 (fld w 17 5)))
  else if fld w 22 10 = 3 then some (.or (Fin.ofNat 32 (fld w 7 5)) (Fin.ofNat 32 (fld w 12 5)) (Fin.ofNat 32 (fld w 17 5)))
  else if fld w 22 10 = 4 then some (.xor (Fin.ofNat 32 (fld w 7 5)) (Fin.ofNat 32 (fld w 12 5)) (Fin.ofNat 32 (fld w 17 5)))
  else if fld w 22 10 = 5 then some (.andn (Fin.ofNat 32 (fld w 7 5)) (Fin.ofNat 32 (fld w 12 5)) (Fin.ofNat 32 (fld w 17 5)))
  else if fld w 22 10 = 6 then some (.sll (Fin.ofNat 32 (fld w 7 5)) (Fin.ofNat 32 (fld w 12 5)) (Fin.ofNat 32 (fld w 17 5)))
  else if fld w 22 10 = 7 then some (.srl (Fin.ofNat 32 (fld w 7 5)) (Fin.ofNat 32 (fld w 12 5)) (Fin.ofNat 32 (fld w 17 5)))
  else if fld w 22 10 = 8 then some (.sra (Fin.ofNat 32 (fld w 7 5)) (Fin.ofNat 32 (fld w 12 5)) (Fin.ofNat 32 (fld w 17 5)))
  else if fld w 22 10 = 9 then some (.rol (Fin.ofNat 32 (fld w 7 5)) (Fin.ofNat 32 (fld w 12 5)) (Fin.ofNat 32 (fld w 17 5)))
  else if fld w 22 10 = 10 then some (.ror (Fin.ofNat 32 (fld w 7 5)) (Fin.ofNat 32 (fld w 12 5)) (Fin.ofNat 32 (fld w 17 5)))
  else if fld w 22 10 = 11 then some (.min (Fin.ofNat 32 (fld w 7 5)) (Fin.ofNat 32 (fld w 12 5)) (Fin.ofNat 32 (fld w 17 5)))
  else if fld w 22 10 = 12 then some (.max (Fin.ofNat 32 (fld w 7 5)) (Fin.ofNat 32 (fld w 12 5)) (Fin.ofNat 32 (fld w 17 5)))
  else if fld w 22 10 = 13 then some (.minu (Fin.ofNat 32 (fld w 7 5)) (Fin.ofNat 32 (fld w 12 5)) (Fin.ofNat 32 (fld w 17 5)))
  else if fld w 22 10 = 14 then some (.maxu (Fin.ofNat 32 (fld w 7 5)) (Fin.ofNat 32 (fld w 12 5)) (Fin.ofNat 32 (fld w 17 5)))
  else if fld w 25 7 = 32 then some (.csel (Fin.ofNat 32 (fld w 7 5)) (Fin.ofNat 32 (fld w 12 5)) (Fin.ofNat 32 (fld w 17 5)) (Fin.ofNat 8 (fld w 22 3)))
  else none

/-- Major 0x02. -/
noncomputable def decodeMajor02 (w : Nat) : Option Instr :=
  if fld w 17 3 = 0 then some (.addi (Fin.ofNat 32 (fld w 7 5)) (Fin.ofNat 32 (fld w 12 5)) (sx 12 (fld w 20 12)))
  else if fld w 17 3 = 1 then some (.andi (Fin.ofNat 32 (fld w 7 5)) (Fin.ofNat 32 (fld w 12 5)) (sx 12 (fld w 20 12)))
  else if fld w 17 3 = 2 then some (.ori (Fin.ofNat 32 (fld w 7 5)) (Fin.ofNat 32 (fld w 12 5)) (sx 12 (fld w 20 12)))
  else if fld w 17 3 = 3 then some (.xori (Fin.ofNat 32 (fld w 7 5)) (Fin.ofNat 32 (fld w 12 5)) (sx 12 (fld w 20 12)))
  else if fld w 17 3 = 4 ∧ fld w 26 6 = 0 then some (.slli (Fin.ofNat 32 (fld w 7 5)) (Fin.ofNat 32 (fld w 12 5)) (Fin.ofNat 64 (fld w 20 6)))
  else if fld w 17 3 = 5 ∧ fld w 26 6 = 0 then some (.srli (Fin.ofNat 32 (fld w 7 5)) (Fin.ofNat 32 (fld w 12 5)) (Fin.ofNat 64 (fld w 20 6)))
  else if fld w 17 3 = 6 ∧ fld w 26 6 = 0 then some (.srai (Fin.ofNat 32 (fld w 7 5)) (Fin.ofNat 32 (fld w 12 5)) (Fin.ofNat 64 (fld w 20 6)))
  else if fld w 17 3 = 7 ∧ fld w 26 6 = 0 then some (.rori (Fin.ofNat 32 (fld w 7 5)) (Fin.ofNat 32 (fld w 12 5)) (Fin.ofNat 64 (fld w 20 6)))
  else none

/-- Major 0x03. -/
noncomputable def decodeMajor03 (w : Nat) : Option Instr :=
  some (.lui (Fin.ofNat 32 (fld w 7 5)) (sx 20 (fld w 12 20)))

/-- Major 0x04. -/
noncomputable def decodeMajor04 (w : Nat) : Option Instr :=
  if fld w 17 3 = 0 then some (.lb (Fin.ofNat 32 (fld w 7 5)) (Fin.ofNat 32 (fld w 12 5)) (sx 12 (fld w 20 12)))
  else if fld w 17 3 = 1 then some (.lh (Fin.ofNat 32 (fld w 7 5)) (Fin.ofNat 32 (fld w 12 5)) (sx 12 (fld w 20 12)))
  else if fld w 17 3 = 2 then some (.lw (Fin.ofNat 32 (fld w 7 5)) (Fin.ofNat 32 (fld w 12 5)) (sx 12 (fld w 20 12)))
  else if fld w 17 3 = 3 then some (.ld (Fin.ofNat 32 (fld w 7 5)) (Fin.ofNat 32 (fld w 12 5)) (sx 12 (fld w 20 12)))
  else if fld w 17 3 = 4 then some (.lbu (Fin.ofNat 32 (fld w 7 5)) (Fin.ofNat 32 (fld w 12 5)) (sx 12 (fld w 20 12)))
  else if fld w 17 3 = 5 then some (.lhu (Fin.ofNat 32 (fld w 7 5)) (Fin.ofNat 32 (fld w 12 5)) (sx 12 (fld w 20 12)))
  else if fld w 17 3 = 6 then some (.lwu (Fin.ofNat 32 (fld w 7 5)) (Fin.ofNat 32 (fld w 12 5)) (sx 12 (fld w 20 12)))
  else none

/-- Major 0x05. -/
noncomputable def decodeMajor05 (w : Nat) : Option Instr :=
  if fld w 17 3 = 0 then some (.sb (Fin.ofNat 32 (fld w 7 5)) (Fin.ofNat 32 (fld w 12 5)) (sx 12 (fld w 20 12)))
  else if fld w 17 3 = 1 then some (.sh (Fin.ofNat 32 (fld w 7 5)) (Fin.ofNat 32 (fld w 12 5)) (sx 12 (fld w 20 12)))
  else if fld w 17 3 = 2 then some (.sw (Fin.ofNat 32 (fld w 7 5)) (Fin.ofNat 32 (fld w 12 5)) (sx 12 (fld w 20 12)))
  else if fld w 17 3 = 3 then some (.sd (Fin.ofNat 32 (fld w 7 5)) (Fin.ofNat 32 (fld w 12 5)) (sx 12 (fld w 20 12)))
  else none

/-- Major 0x06. -/
noncomputable def decodeMajor06 (w : Nat) : Option Instr :=
  if fld w 10 1 = 0 then some (.bc (Fin.ofNat 8 (fld w 7 3)) (Fin.ofNat 4 (fld w 11 2)) (sx 19 (fld w 13 19)))
  else if fld w 10 1 = 1 then some (.bnc (Fin.ofNat 8 (fld w 7 3)) (Fin.ofNat 4 (fld w 11 2)) (sx 19 (fld w 13 19)))
  else none

/-- Major 0x07. -/
noncomputable def decodeMajor07 (w : Nat) : Option Instr :=
  some (.jal (Fin.ofNat 32 (fld w 7 5)) (sx 20 (fld w 12 20)))

/-- Major 0x08. -/
noncomputable def decodeMajor08 (w : Nat) : Option Instr :=
  if fld w 17 3 = 0 then some (.jalr (Fin.ofNat 32 (fld w 7 5)) (Fin.ofNat 32 (fld w 12 5)) (sx 12 (fld w 20 12)))
  else none

/-- Major 0x09. -/
noncomputable def decodeMajor09 (w : Nat) : Option Instr :=
  if fld w 10 2 = 0 ∧ fld w 17 3 = 1 then some (.cmpiEq (Fin.ofNat 8 (fld w 7 3)) (Fin.ofNat 32 (fld w 12 5)) (sx 12 (fld w 20 12)))
  else if fld w 10 2 = 0 ∧ fld w 17 3 = 2 then some (.cmpiLt (Fin.ofNat 8 (fld w 7 3)) (Fin.ofNat 32 (fld w 12 5)) (sx 12 (fld w 20 12)))
  else if fld w 10 2 = 0 ∧ fld w 17 3 = 3 then some (.cmpiLtu (Fin.ofNat 8 (fld w 7 3)) (Fin.ofNat 32 (fld w 12 5)) (sx 12 (fld w 20 12)))
  else if fld w 10 2 = 0 ∧ fld w 17 10 = 4 then some (.cmpEq (Fin.ofNat 8 (fld w 7 3)) (Fin.ofNat 32 (fld w 12 5)) (Fin.ofNat 32 (fld w 27 5)))
  else if fld w 10 2 = 0 ∧ fld w 17 10 = 5 then some (.cmpLt (Fin.ofNat 8 (fld w 7 3)) (Fin.ofNat 32 (fld w 12 5)) (Fin.ofNat 32 (fld w 27 5)))
  else if fld w 10 2 = 0 ∧ fld w 17 10 = 6 then some (.cmpLtu (Fin.ofNat 8 (fld w 7 3)) (Fin.ofNat 32 (fld w 12 5)) (Fin.ofNat 32 (fld w 27 5)))
  else if fld w 10 2 = 0 ∧ fld w 17 10 = 7 then some (.cmpTst (Fin.ofNat 8 (fld w 7 3)) (Fin.ofNat 32 (fld w 12 5)) (Fin.ofNat 32 (fld w 27 5)))
  else if fld w 10 2 = 0 ∧ fld w 15 7 = 0 ∧ fld w 25 7 = 0 then some (.cand (Fin.ofNat 8 (fld w 7 3)) (Fin.ofNat 8 (fld w 12 3)) (Fin.ofNat 8 (fld w 22 3)))
  else if fld w 10 2 = 0 ∧ fld w 15 7 = 0 ∧ fld w 25 7 = 1 then some (.cor (Fin.ofNat 8 (fld w 7 3)) (Fin.ofNat 8 (fld w 12 3)) (Fin.ofNat 8 (fld w 22 3)))
  else if fld w 10 2 = 0 ∧ fld w 15 7 = 0 ∧ fld w 25 7 = 2 then some (.cxor (Fin.ofNat 8 (fld w 7 3)) (Fin.ofNat 8 (fld w 12 3)) (Fin.ofNat 8 (fld w 22 3)))
  else if fld w 10 2 = 0 ∧ fld w 15 7 = 0 ∧ fld w 25 7 = 3 then some (.candn (Fin.ofNat 8 (fld w 7 3)) (Fin.ofNat 8 (fld w 12 3)) (Fin.ofNat 8 (fld w 22 3)))
  else none

/-- Major 0x0A. -/
noncomputable def decodeMajor0A (w : Nat) : Option Instr :=
  if fld w 12 8 = 0 then some (.movs (Fin.ofNat 32 (fld w 7 5)) (Fin.ofNat 4096 (fld w 20 12)))
  else if fld w 7 5 = 0 ∧ fld w 17 3 = 1 then some (.smov (Fin.ofNat 32 (fld w 12 5)) (Fin.ofNat 4096 (fld w 20 12)))
  else none

/-- Major 0x0B. -/
noncomputable def decodeMajor0B (w : Nat) : Option Instr :=
  if fld w 7 13 = 0 then some (.trap (sx 12 (fld w 20 12)))
  else if fld w 7 25 = 1024 then some (.ebreak)
  else if fld w 7 25 = 2048 then some (.kret)
  else if fld w 7 13 = 3072 then some (.mcall (sx 12 (fld w 20 12)))
  else if fld w 7 25 = 4096 then some (.monret)
  else if fld w 17 15 = 5 then some (.invpg (Fin.ofNat 32 (fld w 7 5)) (Fin.ofNat 32 (fld w 12 5)))
  else if fld w 7 5 = 0 ∧ fld w 17 15 = 13 then some (.invpgG (Fin.ofNat 32 (fld w 12 5)))
  else if fld w 7 13 = 6144 then some (.hend (Fin.ofNat 4096 (fld w 20 12)))
  else none

/-- Major 0x0C. -/
noncomputable def decodeMajor0C (w : Nat) : Option Instr :=
  if fld w 22 10 = 0 then some (.mul (Fin.ofNat 32 (fld w 7 5)) (Fin.ofNat 32 (fld w 12 5)) (Fin.ofNat 32 (fld w 17 5)))
  else if fld w 22 10 = 1 then some (.mulhiSs (Fin.ofNat 32 (fld w 7 5)) (Fin.ofNat 32 (fld w 12 5)) (Fin.ofNat 32 (fld w 17 5)))
  else if fld w 22 10 = 2 then some (.mulhiUu (Fin.ofNat 32 (fld w 7 5)) (Fin.ofNat 32 (fld w 12 5)) (Fin.ofNat 32 (fld w 17 5)))
  else if fld w 22 10 = 3 then some (.mulhiSu (Fin.ofNat 32 (fld w 7 5)) (Fin.ofNat 32 (fld w 12 5)) (Fin.ofNat 32 (fld w 17 5)))
  else if fld w 22 10 = 4 then some (.div (Fin.ofNat 32 (fld w 7 5)) (Fin.ofNat 32 (fld w 12 5)) (Fin.ofNat 32 (fld w 17 5)))
  else if fld w 22 10 = 5 then some (.divu (Fin.ofNat 32 (fld w 7 5)) (Fin.ofNat 32 (fld w 12 5)) (Fin.ofNat 32 (fld w 17 5)))
  else if fld w 22 10 = 6 then some (.rem (Fin.ofNat 32 (fld w 7 5)) (Fin.ofNat 32 (fld w 12 5)) (Fin.ofNat 32 (fld w 17 5)))
  else if fld w 22 10 = 7 then some (.remu (Fin.ofNat 32 (fld w 7 5)) (Fin.ofNat 32 (fld w 12 5)) (Fin.ofNat 32 (fld w 17 5)))
  else none

/-- Major 0x0D. -/
noncomputable def decodeMajor0D (w : Nat) : Option Instr :=
  if fld w 22 10 = 0 then some (.faddS (Fin.ofNat 32 (fld w 7 5)) (Fin.ofNat 32 (fld w 12 5)) (Fin.ofNat 32 (fld w 17 5)) none)
  else if fld w 22 10 = 1 then some (.faddD (Fin.ofNat 32 (fld w 7 5)) (Fin.ofNat 32 (fld w 12 5)) (Fin.ofNat 32 (fld w 17 5)) none)
  else if fld w 22 10 = 2 then some (.fsubS (Fin.ofNat 32 (fld w 7 5)) (Fin.ofNat 32 (fld w 12 5)) (Fin.ofNat 32 (fld w 17 5)) none)
  else if fld w 22 10 = 3 then some (.fsubD (Fin.ofNat 32 (fld w 7 5)) (Fin.ofNat 32 (fld w 12 5)) (Fin.ofNat 32 (fld w 17 5)) none)
  else if fld w 22 10 = 4 then some (.fmulS (Fin.ofNat 32 (fld w 7 5)) (Fin.ofNat 32 (fld w 12 5)) (Fin.ofNat 32 (fld w 17 5)) none)
  else if fld w 22 10 = 5 then some (.fmulD (Fin.ofNat 32 (fld w 7 5)) (Fin.ofNat 32 (fld w 12 5)) (Fin.ofNat 32 (fld w 17 5)) none)
  else if fld w 22 10 = 6 then some (.fdivS (Fin.ofNat 32 (fld w 7 5)) (Fin.ofNat 32 (fld w 12 5)) (Fin.ofNat 32 (fld w 17 5)) none)
  else if fld w 22 10 = 7 then some (.fdivD (Fin.ofNat 32 (fld w 7 5)) (Fin.ofNat 32 (fld w 12 5)) (Fin.ofNat 32 (fld w 17 5)) none)
  else if fld w 17 15 = 256 then some (.fsqrtS (Fin.ofNat 32 (fld w 7 5)) (Fin.ofNat 32 (fld w 12 5)) none)
  else if fld w 17 15 = 288 then some (.fsqrtD (Fin.ofNat 32 (fld w 7 5)) (Fin.ofNat 32 (fld w 12 5)) none)
  else if fld w 22 10 = 10 then some (.fminS (Fin.ofNat 32 (fld w 7 5)) (Fin.ofNat 32 (fld w 12 5)) (Fin.ofNat 32 (fld w 17 5)) none)
  else if fld w 22 10 = 11 then some (.fminD (Fin.ofNat 32 (fld w 7 5)) (Fin.ofNat 32 (fld w 12 5)) (Fin.ofNat 32 (fld w 17 5)) none)
  else if fld w 22 10 = 12 then some (.fmaxS (Fin.ofNat 32 (fld w 7 5)) (Fin.ofNat 32 (fld w 12 5)) (Fin.ofNat 32 (fld w 17 5)) none)
  else if fld w 22 10 = 13 then some (.fmaxD (Fin.ofNat 32 (fld w 7 5)) (Fin.ofNat 32 (fld w 12 5)) (Fin.ofNat 32 (fld w 17 5)) none)
  else if fld w 22 10 = 14 then some (.fmacS (Fin.ofNat 32 (fld w 7 5)) (Fin.ofNat 32 (fld w 12 5)) (Fin.ofNat 32 (fld w 17 5)) none)
  else if fld w 22 10 = 15 then some (.fmacD (Fin.ofNat 32 (fld w 7 5)) (Fin.ofNat 32 (fld w 12 5)) (Fin.ofNat 32 (fld w 17 5)) none)
  else if fld w 10 2 = 0 ∧ fld w 22 10 = 16 then some (.fcmpEqS (Fin.ofNat 8 (fld w 7 3)) (Fin.ofNat 32 (fld w 12 5)) (Fin.ofNat 32 (fld w 17 5)) none)
  else if fld w 10 2 = 0 ∧ fld w 22 10 = 17 then some (.fcmpEqD (Fin.ofNat 8 (fld w 7 3)) (Fin.ofNat 32 (fld w 12 5)) (Fin.ofNat 32 (fld w 17 5)) none)
  else if fld w 10 2 = 0 ∧ fld w 22 10 = 18 then some (.fcmpLtS (Fin.ofNat 8 (fld w 7 3)) (Fin.ofNat 32 (fld w 12 5)) (Fin.ofNat 32 (fld w 17 5)) none)
  else if fld w 10 2 = 0 ∧ fld w 22 10 = 19 then some (.fcmpLtD (Fin.ofNat 8 (fld w 7 3)) (Fin.ofNat 32 (fld w 12 5)) (Fin.ofNat 32 (fld w 17 5)) none)
  else if fld w 10 2 = 0 ∧ fld w 22 10 = 20 then some (.fcmpLeS (Fin.ofNat 8 (fld w 7 3)) (Fin.ofNat 32 (fld w 12 5)) (Fin.ofNat 32 (fld w 17 5)) none)
  else if fld w 10 2 = 0 ∧ fld w 22 10 = 21 then some (.fcmpLeD (Fin.ofNat 8 (fld w 7 3)) (Fin.ofNat 32 (fld w 12 5)) (Fin.ofNat 32 (fld w 17 5)) none)
  else if fld w 17 15 = 704 then some (.fcvtLS (Fin.ofNat 32 (fld w 7 5)) (Fin.ofNat 32 (fld w 12 5)) none false)
  else if fld w 17 15 = 736 then some (.fcvtLD (Fin.ofNat 32 (fld w 7 5)) (Fin.ofNat 32 (fld w 12 5)) none false)
  else if fld w 17 15 = 768 then some (.fcvtLuS (Fin.ofNat 32 (fld w 7 5)) (Fin.ofNat 32 (fld w 12 5)) none false)
  else if fld w 17 15 = 800 then some (.fcvtLuD (Fin.ofNat 32 (fld w 7 5)) (Fin.ofNat 32 (fld w 12 5)) none false)
  else if fld w 17 15 = 832 then some (.fcvtSL (Fin.ofNat 32 (fld w 7 5)) (Fin.ofNat 32 (fld w 12 5)) none)
  else if fld w 17 15 = 864 then some (.fcvtDL (Fin.ofNat 32 (fld w 7 5)) (Fin.ofNat 32 (fld w 12 5)) none)
  else if fld w 17 15 = 896 then some (.fcvtSLu (Fin.ofNat 32 (fld w 7 5)) (Fin.ofNat 32 (fld w 12 5)) none)
  else if fld w 17 15 = 928 then some (.fcvtDLu (Fin.ofNat 32 (fld w 7 5)) (Fin.ofNat 32 (fld w 12 5)) none)
  else if fld w 17 15 = 960 then some (.fcvtSD (Fin.ofNat 32 (fld w 7 5)) (Fin.ofNat 32 (fld w 12 5)) none false)
  else if fld w 17 15 = 992 then some (.fcvtDS (Fin.ofNat 32 (fld w 7 5)) (Fin.ofNat 32 (fld w 12 5)) none)
  else none

/-- Major 0x0E. -/
noncomputable def decodeMajor0E (w : Nat) : Option Instr :=
  if fld w 17 15 = 0 then some (.clz (Fin.ofNat 32 (fld w 7 5)) (Fin.ofNat 32 (fld w 12 5)))
  else if fld w 17 15 = 32 then some (.ctz (Fin.ofNat 32 (fld w 7 5)) (Fin.ofNat 32 (fld w 12 5)))
  else if fld w 17 15 = 64 then some (.popc (Fin.ofNat 32 (fld w 7 5)) (Fin.ofNat 32 (fld w 12 5)))
  else if fld w 17 15 = 96 then some (.bswap (Fin.ofNat 32 (fld w 7 5)) (Fin.ofNat 32 (fld w 12 5)))
  else if fld w 17 3 = 1 then some (.bfx (Fin.ofNat 32 (fld w 7 5)) (Fin.ofNat 32 (fld w 12 5)) (Fin.ofNat 64 (fld w 20 6)) (Fin.ofNat 64 (fld w 26 6)))
  else if fld w 17 3 = 2 then some (.bfxu (Fin.ofNat 32 (fld w 7 5)) (Fin.ofNat 32 (fld w 12 5)) (Fin.ofNat 64 (fld w 20 6)) (Fin.ofNat 64 (fld w 26 6)))
  else if fld w 17 3 = 3 then some (.bfi (Fin.ofNat 32 (fld w 7 5)) (Fin.ofNat 32 (fld w 12 5)) (Fin.ofNat 64 (fld w 20 6)) (Fin.ofNat 64 (fld w 26 6)))
  else if fld w 17 3 = 4 ∧ fld w 26 1 = 0 then some (.fsh (Fin.ofNat 32 (fld w 7 5)) (Fin.ofNat 32 (fld w 12 5)) (Fin.ofNat 64 (fld w 20 6)) (Fin.ofNat 32 (fld w 27 5)))
  else if fld w 17 3 = 5 ∧ fld w 25 2 = 0 then some (.fshv (Fin.ofNat 32 (fld w 7 5)) (Fin.ofNat 32 (fld w 12 5)) (Fin.ofNat 32 (fld w 20 5)) (Fin.ofNat 32 (fld w 27 5)))
  else if fld w 17 3 = 6 ∧ fld w 26 1 = 0 then some (.bfxuv (Fin.ofNat 32 (fld w 7 5)) (Fin.ofNat 32 (fld w 12 5)) (Fin.ofNat 64 (fld w 20 6)) (Fin.ofNat 32 (fld w 27 5)))
  else none

/-- Major 0x10. -/
noncomputable def decodeMajor10 (w : Nat) : Option Instr :=
  if fld w 22 1 = 0 ∧ fld w 28 4 = 0 then some (.amoAdd (Fin.ofNat 32 (fld w 7 5)) (Fin.ofNat 32 (fld w 12 5)) (Fin.ofNat 32 (fld w 17 5)) (Order.ofCode (fld w 23 2)) (Scope.ofCode (fld w 25 2)) (fld w 27 1 == 1))
  else if fld w 22 1 = 0 ∧ fld w 28 4 = 1 then some (.amoAnd (Fin.ofNat 32 (fld w 7 5)) (Fin.ofNat 32 (fld w 12 5)) (Fin.ofNat 32 (fld w 17 5)) (Order.ofCode (fld w 23 2)) (Scope.ofCode (fld w 25 2)) (fld w 27 1 == 1))
  else if fld w 22 1 = 0 ∧ fld w 28 4 = 2 then some (.amoOr (Fin.ofNat 32 (fld w 7 5)) (Fin.ofNat 32 (fld w 12 5)) (Fin.ofNat 32 (fld w 17 5)) (Order.ofCode (fld w 23 2)) (Scope.ofCode (fld w 25 2)) (fld w 27 1 == 1))
  else if fld w 22 1 = 0 ∧ fld w 28 4 = 3 then some (.amoXor (Fin.ofNat 32 (fld w 7 5)) (Fin.ofNat 32 (fld w 12 5)) (Fin.ofNat 32 (fld w 17 5)) (Order.ofCode (fld w 23 2)) (Scope.ofCode (fld w 25 2)) (fld w 27 1 == 1))
  else if fld w 22 1 = 0 ∧ fld w 28 4 = 4 then some (.amoMin (Fin.ofNat 32 (fld w 7 5)) (Fin.ofNat 32 (fld w 12 5)) (Fin.ofNat 32 (fld w 17 5)) (Order.ofCode (fld w 23 2)) (Scope.ofCode (fld w 25 2)) (fld w 27 1 == 1))
  else if fld w 22 1 = 0 ∧ fld w 28 4 = 5 then some (.amoMax (Fin.ofNat 32 (fld w 7 5)) (Fin.ofNat 32 (fld w 12 5)) (Fin.ofNat 32 (fld w 17 5)) (Order.ofCode (fld w 23 2)) (Scope.ofCode (fld w 25 2)) (fld w 27 1 == 1))
  else if fld w 22 1 = 0 ∧ fld w 28 4 = 6 then some (.amoMinu (Fin.ofNat 32 (fld w 7 5)) (Fin.ofNat 32 (fld w 12 5)) (Fin.ofNat 32 (fld w 17 5)) (Order.ofCode (fld w 23 2)) (Scope.ofCode (fld w 25 2)) (fld w 27 1 == 1))
  else if fld w 22 1 = 0 ∧ fld w 28 4 = 7 then some (.amoMaxu (Fin.ofNat 32 (fld w 7 5)) (Fin.ofNat 32 (fld w 12 5)) (Fin.ofNat 32 (fld w 17 5)) (Order.ofCode (fld w 23 2)) (Scope.ofCode (fld w 25 2)) (fld w 27 1 == 1))
  else if fld w 22 1 = 0 ∧ fld w 28 4 = 8 then some (.amoSwap (Fin.ofNat 32 (fld w 7 5)) (Fin.ofNat 32 (fld w 12 5)) (Fin.ofNat 32 (fld w 17 5)) (Order.ofCode (fld w 23 2)) (Scope.ofCode (fld w 25 2)) (fld w 27 1 == 1))
  else if fld w 22 1 = 0 ∧ fld w 28 4 = 9 then some (.amoCas (Fin.ofNat 32 (fld w 7 5)) (Fin.ofNat 32 (fld w 12 5)) (Fin.ofNat 32 (fld w 17 5)) (Order.ofCode (fld w 23 2)) (Scope.ofCode (fld w 25 2)) (fld w 27 1 == 1))
  else if fld w 22 1 = 0 ∧ fld w 27 5 = 21 then some (.casQ (Fin.ofNat 32 (fld w 7 5)) (Fin.ofNat 32 (fld w 12 5)) (Fin.ofNat 32 (fld w 17 5)) (Order.ofCode (fld w 23 2)) (Scope.ofCode (fld w 25 2)))
  else if fld w 17 8 = 64 ∧ fld w 28 4 = 11 then some (.ldAcq (Fin.ofNat 32 (fld w 7 5)) (Fin.ofNat 32 (fld w 12 5)) (Scope.ofCode (fld w 25 2)) (fld w 27 1 == 1))
  else if fld w 7 5 = 0 ∧ fld w 22 3 = 4 ∧ fld w 28 4 = 12 then some (.stRel (Fin.ofNat 32 (fld w 12 5)) (Fin.ofNat 32 (fld w 17 5)) (Scope.ofCode (fld w 25 2)) (fld w 27 1 == 1))
  else none

/-- Major 0x11. -/
noncomputable def decodeMajor11 (w : Nat) : Option Instr :=
  if fld w 7 13 = 0 ∧ fld w 26 6 = 0 then some (.fence (fld w 20 1 == 1) (fld w 21 1 == 1) (fld w 22 1 == 1) (fld w 23 1 == 1) (Scope.ofCode (fld w 24 2)))
  else if fld w 7 25 = 1024 then some (.ifence)
  else none

/-- Major 0x12. -/
noncomputable def decodeMajor12 (w : Nat) : Option Instr :=
  if fld w 22 3 = 0 ∧ fld w 28 4 = 0 then some (.waitge (Fin.ofNat 32 (fld w 7 5)) (Fin.ofNat 32 (fld w 12 5)) (Fin.ofNat 32 (fld w 17 5)) (Scope.ofCode (fld w 25 2)) (fld w 27 1 == 1))
  else if fld w 22 3 = 0 ∧ fld w 28 4 = 1 then some (.waiteq (Fin.ofNat 32 (fld w 7 5)) (Fin.ofNat 32 (fld w 12 5)) (Fin.ofNat 32 (fld w 17 5)) (Scope.ofCode (fld w 25 2)) (fld w 27 1 == 1))
  else none

/-- Major 0x13. -/
noncomputable def decodeMajor13 (w : Nat) : Option Instr :=
  if fld w 22 10 = 0 then some (.barInit (Fin.ofNat 32 (fld w 7 5)) (Fin.ofNat 32 (fld w 12 5)) (Fin.ofNat 32 (fld w 17 5)))
  else if fld w 17 8 = 0 ∧ fld w 27 5 = 2 then some (.barArrive (Fin.ofNat 32 (fld w 7 5)) (Fin.ofNat 32 (fld w 12 5)) (Scope.ofCode (fld w 25 2)))
  else if fld w 7 5 = 0 ∧ fld w 22 3 = 0 ∧ fld w 27 5 = 4 then some (.barWait (Fin.ofNat 32 (fld w 12 5)) (Fin.ofNat 32 (fld w 17 5)) (Scope.ofCode (fld w 25 2)))
  else if fld w 7 5 = 0 ∧ fld w 17 15 = 6144 then some (.barFin (Fin.ofNat 32 (fld w 12 5)))
  else none

/-- Major 0x14. -/
noncomputable def decodeMajor14 (w : Nat) : Option Instr :=
  if fld w 17 15 = 0 then some (.farmDef (Fin.ofNat 32 (fld w 7 5)) (Fin.ofNat 32 (fld w 12 5)))
  else if fld w 15 17 = 128 then some (.farmNext (Fin.ofNat 32 (fld w 7 5)) (Fin.ofNat 8 (fld w 12 3)))
  else if fld w 7 25 = 65536 then some (.farmEnd)
  else if fld w 7 25 = 98304 then some (.scommit)
  else if fld w 7 25 = 131072 then some (.sabort)
  else if fld w 7 13 = 1024 then some (.sbegin (sx 12 (fld w 20 12)))
  else none

/-- Major 0x15. -/
noncomputable def decodeMajor15 (w : Nat) : Option Instr :=
  if fld w 22 10 = 0 then some (.launch (Fin.ofNat 32 (fld w 7 5)) (Fin.ofNat 32 (fld w 12 5)) (Fin.ofNat 32 (fld w 17 5)))
  else none

/-- Major 0x20. -/
noncomputable def decodeMajor20 (w : Nat) : Option Instr :=
  if fld w 17 3 = 0 ∧ fld w 25 3 = 0 ∧ fld w 30 2 = 0 then (Tag.ofCode (fld w 20 5)).map fun tag => .setvl (Fin.ofNat 32 (fld w 7 5)) (Fin.ofNat 32 (fld w 12 5)) tag (Fin.ofNat 4 (fld w 28 2))
  else if fld w 17 3 = 1 ∧ fld w 25 3 = 0 ∧ fld w 30 2 = 0 then (Tag.ofCode (fld w 20 5)).map fun tag => .setvlH (Fin.ofNat 32 (fld w 7 5)) (Fin.ofNat 32 (fld w 12 5)) tag (Fin.ofNat 4 (fld w 28 2))
  else none

/-- Major 0x21. -/
noncomputable def decodeMajor21 (w : Nat) : Option Instr :=
  if fld w 17 6 = 0 ∧ fld w 27 5 = 0 then some (.vld (Fin.ofNat 32 (fld w 7 5)) (Fin.ofNat 32 (fld w 12 5)) (fld w 23 1 == 1) (Fin.ofNat 8 (fld w 24 3)) .none)
  else if fld w 17 7 = 64 ∧ fld w 27 5 = 1 then some (.vldff (Fin.ofNat 32 (fld w 7 5)) (Fin.ofNat 32 (fld w 12 5)) (Fin.ofNat 8 (fld w 24 3)) .none)
  else if fld w 22 1 = 0 ∧ fld w 27 5 = 2 then some (.vlds (Fin.ofNat 32 (fld w 7 5)) (Fin.ofNat 32 (fld w 12 5)) (Fin.ofNat 32 (fld w 17 5)) (fld w 23 1 == 1) (Fin.ofNat 8 (fld w 24 3)) .none)
  else if fld w 17 6 = 0 ∧ fld w 27 5 = 8 then some (.vst (Fin.ofNat 32 (fld w 7 5)) (Fin.ofNat 32 (fld w 12 5)) (fld w 23 1 == 1) (Fin.ofNat 8 (fld w 24 3)))
  else if fld w 22 1 = 0 ∧ fld w 27 5 = 10 then some (.vsts (Fin.ofNat 32 (fld w 7 5)) (Fin.ofNat 32 (fld w 12 5)) (Fin.ofNat 32 (fld w 17 5)) (fld w 23 1 == 1) (Fin.ofNat 8 (fld w 24 3)))
  else none

/-- Major 0x22. -/
noncomputable def decodeMajor22 (w : Nat) : Option Instr :=
  if fld w 27 5 = 0 then some (.vldx (Fin.ofNat 32 (fld w 7 5)) (Fin.ofNat 32 (fld w 12 5)) (Fin.ofNat 32 (fld w 17 5)) (fld w 22 1 == 1) (fld w 23 1 == 1) (Fin.ofNat 8 (fld w 24 3)) .none)
  else if fld w 27 5 = 1 then some (.vldxFar (Fin.ofNat 32 (fld w 7 5)) (Fin.ofNat 32 (fld w 12 5)) (Fin.ofNat 32 (fld w 17 5)) (fld w 22 1 == 1) (fld w 23 1 == 1) (Fin.ofNat 8 (fld w 24 3)) .none)
  else if fld w 27 5 = 8 then some (.vstx (Fin.ofNat 32 (fld w 7 5)) (Fin.ofNat 32 (fld w 12 5)) (Fin.ofNat 32 (fld w 17 5)) (fld w 22 1 == 1) (fld w 23 1 == 1) (Fin.ofNat 8 (fld w 24 3)))
  else if fld w 27 5 = 9 then some (.vstxFar (Fin.ofNat 32 (fld w 7 5)) (Fin.ofNat 32 (fld w 12 5)) (Fin.ofNat 32 (fld w 17 5)) (fld w 22 1 == 1) (fld w 23 1 == 1) (Fin.ofNat 8 (fld w 24 3)))
  else none

/-- Major 0x23. -/
noncomputable def decodeMajor23 (w : Nat) : Option Instr :=
  if fld w 17 6 = 0 ∧ fld w 30 2 = 0 then some (.vldseg (Fin.ofNat 32 (fld w 7 5)) (Fin.ofNat 32 (fld w 12 5)) (fld w 23 1 == 1) (Fin.ofNat 8 (fld w 24 3)) (Fin.ofNat 8 (fld w 27 3)) .none)
  else if fld w 17 6 = 0 ∧ fld w 30 2 = 1 then some (.vstseg (Fin.ofNat 32 (fld w 7 5)) (Fin.ofNat 32 (fld w 12 5)) (fld w 23 1 == 1) (Fin.ofNat 8 (fld w 24 3)) (Fin.ofNat 8 (fld w 27 3)))
  else if fld w 23 1 = 1 ∧ fld w 30 2 = 2 then some (.vldsegP (Fin.ofNat 32 (fld w 7 5)) (Fin.ofNat 32 (fld w 12 5)) (Fin.ofNat 32 (fld w 17 5)) (fld w 22 1 == 1) (Fin.ofNat 8 (fld w 24 3)) (Fin.ofNat 8 (fld w 27 3)) .none)
  else if fld w 30 2 = 3 then some (.vstsegP (Fin.ofNat 32 (fld w 7 5)) (Fin.ofNat 32 (fld w 12 5)) (Fin.ofNat 32 (fld w 17 5)) (fld w 22 1 == 1) (fld w 23 1 == 1) (Fin.ofNat 8 (fld w 24 3)) (Fin.ofNat 8 (fld w 27 3)))
  else none

/-- Major 0x24. -/
noncomputable def decodeMajor24 (w : Nat) : Option Instr :=
  if fld w 17 6 = 0 ∧ fld w 27 5 = 0 then some (.vld2 (Fin.ofNat 32 (fld w 7 5)) (Fin.ofNat 32 (fld w 12 5)) (fld w 23 1 == 1) (Fin.ofNat 8 (fld w 24 3)) .none)
  else if fld w 17 6 = 0 ∧ fld w 27 5 = 8 then some (.vst2 (Fin.ofNat 32 (fld w 7 5)) (Fin.ofNat 32 (fld w 12 5)) (fld w 23 1 == 1) (Fin.ofNat 8 (fld w 24 3)))
  else none

/-- Major 0x25. -/
noncomputable def decodeMajor25 (w : Nat) : Option Instr :=
  if fld w 22 5 = 2 ∧ fld w 30 2 = 0 then some (.vsbind (Fin.ofNat 32 (fld w 7 5)) (Fin.ofNat 32 (fld w 12 5)) (Fin.ofNat 32 (fld w 17 5)) (Fin.ofNat 8 (fld w 27 3)))
  else if fld w 12 20 = 526336 then some (.vsunbind (Fin.ofNat 32 (fld w 7 5)))
  else none

/-- Major 0x29. -/
noncomputable def decodeMajor29 (w : Nat) : Option Instr :=
  if fld w 17 15 = 0 then (Tag.ofCode (fld w 12 5)).map fun tag => .vtag (Fin.ofNat 32 (fld w 7 5)) tag
  else if fld w 12 5 = 0 ∧ fld w 22 10 = 32 then some (.vtagr (Fin.ofNat 32 (fld w 7 5)) (Fin.ofNat 32 (fld w 17 5)))
  else if fld w 7 5 = 0 ∧ fld w 22 10 = 992 then some (.spdisc (Fin.ofNat 32 (fld w 12 5)) (Fin.ofNat 32 (fld w 17 5)))
  else if fld w 7 5 = 0 ∧ fld w 22 10 = 993 then some (.spkeep (Fin.ofNat 32 (fld w 12 5)) (Fin.ofNat 32 (fld w 17 5)))
  else none

/-- Major 0x30. -/
noncomputable def decodeMajor30 (w : Nat) : Option Instr :=
  if fld w 27 5 = 0 then some (.vadd (Fin.ofNat 32 (fld w 7 5)) (Fin.ofNat 32 (fld w 12 5)) (Fin.ofNat 32 (fld w 17 5)) (fld w 22 1 == 1) (fld w 23 1 == 1) (Fin.ofNat 8 (fld w 24 3)) none false)
  else if fld w 27 5 = 1 then some (.vsub (Fin.ofNat 32 (fld w 7 5)) (Fin.ofNat 32 (fld w 12 5)) (Fin.ofNat 32 (fld w 17 5)) (fld w 22 1 == 1) (fld w 23 1 == 1) (Fin.ofNat 8 (fld w 24 3)) none false)
  else if fld w 27 5 = 2 then some (.vmul (Fin.ofNat 32 (fld w 7 5)) (Fin.ofNat 32 (fld w 12 5)) (Fin.ofNat 32 (fld w 17 5)) (fld w 22 1 == 1) (fld w 23 1 == 1) (Fin.ofNat 8 (fld w 24 3)) none false)
  else if fld w 27 5 = 3 then some (.vdiv (Fin.ofNat 32 (fld w 7 5)) (Fin.ofNat 32 (fld w 12 5)) (Fin.ofNat 32 (fld w 17 5)) (fld w 22 1 == 1) (fld w 23 1 == 1) (Fin.ofNat 8 (fld w 24 3)) none)
  else if fld w 27 5 = 4 then some (.vrem (Fin.ofNat 32 (fld w 7 5)) (Fin.ofNat 32 (fld w 12 5)) (Fin.ofNat 32 (fld w 17 5)) (fld w 22 1 == 1) (fld w 23 1 == 1) (Fin.ofNat 8 (fld w 24 3)) none)
  else if fld w 27 5 = 5 then some (.vmin (Fin.ofNat 32 (fld w 7 5)) (Fin.ofNat 32 (fld w 12 5)) (Fin.ofNat 32 (fld w 17 5)) (fld w 22 1 == 1) (fld w 23 1 == 1) (Fin.ofNat 8 (fld w 24 3)) none)
  else if fld w 27 5 = 6 then some (.vmax (Fin.ofNat 32 (fld w 7 5)) (Fin.ofNat 32 (fld w 12 5)) (Fin.ofNat 32 (fld w 17 5)) (fld w 22 1 == 1) (fld w 23 1 == 1) (Fin.ofNat 8 (fld w 24 3)) none)
  else if fld w 27 5 = 7 then some (.vand (Fin.ofNat 32 (fld w 7 5)) (Fin.ofNat 32 (fld w 12 5)) (Fin.ofNat 32 (fld w 17 5)) (fld w 22 1 == 1) (fld w 23 1 == 1) (Fin.ofNat 8 (fld w 24 3)) none)
  else if fld w 27 5 = 8 then some (.vor (Fin.ofNat 32 (fld w 7 5)) (Fin.ofNat 32 (fld w 12 5)) (Fin.ofNat 32 (fld w 17 5)) (fld w 22 1 == 1) (fld w 23 1 == 1) (Fin.ofNat 8 (fld w 24 3)) none)
  else if fld w 27 5 = 9 then some (.vxor (Fin.ofNat 32 (fld w 7 5)) (Fin.ofNat 32 (fld w 12 5)) (Fin.ofNat 32 (fld w 17 5)) (fld w 22 1 == 1) (fld w 23 1 == 1) (Fin.ofNat 8 (fld w 24 3)) none)
  else if fld w 27 5 = 10 then some (.vsll (Fin.ofNat 32 (fld w 7 5)) (Fin.ofNat 32 (fld w 12 5)) (Fin.ofNat 32 (fld w 17 5)) (fld w 22 1 == 1) (fld w 23 1 == 1) (Fin.ofNat 8 (fld w 24 3)) none)
  else if fld w 27 5 = 11 then some (.vsrl (Fin.ofNat 32 (fld w 7 5)) (Fin.ofNat 32 (fld w 12 5)) (Fin.ofNat 32 (fld w 17 5)) (fld w 22 1 == 1) (fld w 23 1 == 1) (Fin.ofNat 8 (fld w 24 3)) none)
  else if fld w 27 5 = 12 then some (.vsra (Fin.ofNat 32 (fld w 7 5)) (Fin.ofNat 32 (fld w 12 5)) (Fin.ofNat 32 (fld w 17 5)) (fld w 22 1 == 1) (fld w 23 1 == 1) (Fin.ofNat 8 (fld w 24 3)) none)
  else if fld w 27 5 = 13 then some (.vmulh (Fin.ofNat 32 (fld w 7 5)) (Fin.ofNat 32 (fld w 12 5)) (Fin.ofNat 32 (fld w 17 5)) (fld w 22 1 == 1) (fld w 23 1 == 1) (Fin.ofNat 8 (fld w 24 3)) none)
  else none

/-- Major 0x31. -/
noncomputable def decodeMajor31 (w : Nat) : Option Instr :=
  if fld w 23 1 = 0 ∧ fld w 27 5 = 0 then some (.vaddX (Fin.ofNat 32 (fld w 7 5)) (Fin.ofNat 32 (fld w 12 5)) (Fin.ofNat 32 (fld w 17 5)) (fld w 22 1 == 1) (Fin.ofNat 8 (fld w 24 3)) none false)
  else if fld w 23 1 = 0 ∧ fld w 27 5 = 1 then some (.vsubX (Fin.ofNat 32 (fld w 7 5)) (Fin.ofNat 32 (fld w 12 5)) (Fin.ofNat 32 (fld w 17 5)) (fld w 22 1 == 1) (Fin.ofNat 8 (fld w 24 3)) none false)
  else if fld w 23 1 = 0 ∧ fld w 27 5 = 2 then some (.vmulX (Fin.ofNat 32 (fld w 7 5)) (Fin.ofNat 32 (fld w 12 5)) (Fin.ofNat 32 (fld w 17 5)) (fld w 22 1 == 1) (Fin.ofNat 8 (fld w 24 3)) none false)
  else if fld w 23 1 = 0 ∧ fld w 27 5 = 3 then some (.vdivX (Fin.ofNat 32 (fld w 7 5)) (Fin.ofNat 32 (fld w 12 5)) (Fin.ofNat 32 (fld w 17 5)) (fld w 22 1 == 1) (Fin.ofNat 8 (fld w 24 3)) none)
  else if fld w 23 1 = 0 ∧ fld w 27 5 = 4 then some (.vremX (Fin.ofNat 32 (fld w 7 5)) (Fin.ofNat 32 (fld w 12 5)) (Fin.ofNat 32 (fld w 17 5)) (fld w 22 1 == 1) (Fin.ofNat 8 (fld w 24 3)) none)
  else if fld w 23 1 = 0 ∧ fld w 27 5 = 5 then some (.vminX (Fin.ofNat 32 (fld w 7 5)) (Fin.ofNat 32 (fld w 12 5)) (Fin.ofNat 32 (fld w 17 5)) (fld w 22 1 == 1) (Fin.ofNat 8 (fld w 24 3)) none)
  else if fld w 23 1 = 0 ∧ fld w 27 5 = 6 then some (.vmaxX (Fin.ofNat 32 (fld w 7 5)) (Fin.ofNat 32 (fld w 12 5)) (Fin.ofNat 32 (fld w 17 5)) (fld w 22 1 == 1) (Fin.ofNat 8 (fld w 24 3)) none)
  else if fld w 23 1 = 0 ∧ fld w 27 5 = 7 then some (.vandX (Fin.ofNat 32 (fld w 7 5)) (Fin.ofNat 32 (fld w 12 5)) (Fin.ofNat 32 (fld w 17 5)) (fld w 22 1 == 1) (Fin.ofNat 8 (fld w 24 3)) none)
  else if fld w 23 1 = 0 ∧ fld w 27 5 = 8 then some (.vorX (Fin.ofNat 32 (fld w 7 5)) (Fin.ofNat 32 (fld w 12 5)) (Fin.ofNat 32 (fld w 17 5)) (fld w 22 1 == 1) (Fin.ofNat 8 (fld w 24 3)) none)
  else if fld w 23 1 = 0 ∧ fld w 27 5 = 9 then some (.vxorX (Fin.ofNat 32 (fld w 7 5)) (Fin.ofNat 32 (fld w 12 5)) (Fin.ofNat 32 (fld w 17 5)) (fld w 22 1 == 1) (Fin.ofNat 8 (fld w 24 3)) none)
  else if fld w 23 1 = 0 ∧ fld w 27 5 = 10 then some (.vsllX (Fin.ofNat 32 (fld w 7 5)) (Fin.ofNat 32 (fld w 12 5)) (Fin.ofNat 32 (fld w 17 5)) (fld w 22 1 == 1) (Fin.ofNat 8 (fld w 24 3)) none)
  else if fld w 23 1 = 0 ∧ fld w 27 5 = 11 then some (.vsrlX (Fin.ofNat 32 (fld w 7 5)) (Fin.ofNat 32 (fld w 12 5)) (Fin.ofNat 32 (fld w 17 5)) (fld w 22 1 == 1) (Fin.ofNat 8 (fld w 24 3)) none)
  else if fld w 23 1 = 0 ∧ fld w 27 5 = 12 then some (.vsraX (Fin.ofNat 32 (fld w 7 5)) (Fin.ofNat 32 (fld w 12 5)) (Fin.ofNat 32 (fld w 17 5)) (fld w 22 1 == 1) (Fin.ofNat 8 (fld w 24 3)) none)
  else if fld w 23 1 = 0 ∧ fld w 27 5 = 13 then some (.vmulhX (Fin.ofNat 32 (fld w 7 5)) (Fin.ofNat 32 (fld w 12 5)) (Fin.ofNat 32 (fld w 17 5)) (fld w 22 1 == 1) (Fin.ofNat 8 (fld w 24 3)) none)
  else none

/-- Major 0x32. -/
noncomputable def decodeMajor32 (w : Nat) : Option Instr :=
  if fld w 27 5 = 0 then some (.vfma (Fin.ofNat 32 (fld w 7 5)) (Fin.ofNat 32 (fld w 12 5)) (Fin.ofNat 32 (fld w 17 5)) (fld w 22 1 == 1) (fld w 23 1 == 1) (Fin.ofNat 8 (fld w 24 3)) none false)
  else if fld w 27 5 = 1 then some (.vfms (Fin.ofNat 32 (fld w 7 5)) (Fin.ofNat 32 (fld w 12 5)) (Fin.ofNat 32 (fld w 17 5)) (fld w 22 1 == 1) (fld w 23 1 == 1) (Fin.ofNat 8 (fld w 24 3)) none false)
  else if fld w 27 5 = 2 then some (.vfnma (Fin.ofNat 32 (fld w 7 5)) (Fin.ofNat 32 (fld w 12 5)) (Fin.ofNat 32 (fld w 17 5)) (fld w 22 1 == 1) (fld w 23 1 == 1) (Fin.ofNat 8 (fld w 24 3)) none false)
  else if fld w 27 5 = 3 then some (.vfnms (Fin.ofNat 32 (fld w 7 5)) (Fin.ofNat 32 (fld w 12 5)) (Fin.ofNat 32 (fld w 17 5)) (fld w 22 1 == 1) (fld w 23 1 == 1) (Fin.ofNat 8 (fld w 24 3)) none false)
  else none

/-- Major 0x33. -/
noncomputable def decodeMajor33 (w : Nat) : Option Instr :=
  if fld w 10 2 = 0 ∧ fld w 27 5 = 0 then some (.vcmpEq (Fin.ofNat 8 (fld w 7 3)) (Fin.ofNat 32 (fld w 12 5)) (Fin.ofNat 32 (fld w 17 5)) (fld w 22 1 == 1) (fld w 23 1 == 1) (Fin.ofNat 8 (fld w 24 3)) none)
  else if fld w 10 2 = 0 ∧ fld w 27 5 = 1 then some (.vcmpNe (Fin.ofNat 8 (fld w 7 3)) (Fin.ofNat 32 (fld w 12 5)) (Fin.ofNat 32 (fld w 17 5)) (fld w 22 1 == 1) (fld w 23 1 == 1) (Fin.ofNat 8 (fld w 24 3)) none)
  else if fld w 10 2 = 0 ∧ fld w 27 5 = 2 then some (.vcmpLt (Fin.ofNat 8 (fld w 7 3)) (Fin.ofNat 32 (fld w 12 5)) (Fin.ofNat 32 (fld w 17 5)) (fld w 22 1 == 1) (fld w 23 1 == 1) (Fin.ofNat 8 (fld w 24 3)) none)
  else if fld w 10 2 = 0 ∧ fld w 27 5 = 3 then some (.vcmpLe (Fin.ofNat 8 (fld w 7 3)) (Fin.ofNat 32 (fld w 12 5)) (Fin.ofNat 32 (fld w 17 5)) (fld w 22 1 == 1) (fld w 23 1 == 1) (Fin.ofNat 8 (fld w 24 3)) none)
  else if fld w 10 2 = 0 ∧ fld w 23 1 = 0 ∧ fld w 27 5 = 8 then some (.vcmpEqX (Fin.ofNat 8 (fld w 7 3)) (Fin.ofNat 32 (fld w 12 5)) (Fin.ofNat 32 (fld w 17 5)) (fld w 22 1 == 1) (Fin.ofNat 8 (fld w 24 3)) none)
  else if fld w 10 2 = 0 ∧ fld w 23 1 = 0 ∧ fld w 27 5 = 9 then some (.vcmpNeX (Fin.ofNat 8 (fld w 7 3)) (Fin.ofNat 32 (fld w 12 5)) (Fin.ofNat 32 (fld w 17 5)) (fld w 22 1 == 1) (Fin.ofNat 8 (fld w 24 3)) none)
  else if fld w 10 2 = 0 ∧ fld w 23 1 = 0 ∧ fld w 27 5 = 10 then some (.vcmpLtX (Fin.ofNat 8 (fld w 7 3)) (Fin.ofNat 32 (fld w 12 5)) (Fin.ofNat 32 (fld w 17 5)) (fld w 22 1 == 1) (Fin.ofNat 8 (fld w 24 3)) none)
  else if fld w 10 2 = 0 ∧ fld w 23 1 = 0 ∧ fld w 27 5 = 11 then some (.vcmpLeX (Fin.ofNat 8 (fld w 7 3)) (Fin.ofNat 32 (fld w 12 5)) (Fin.ofNat 32 (fld w 17 5)) (fld w 22 1 == 1) (Fin.ofNat 8 (fld w 24 3)) none)
  else if fld w 10 2 = 0 ∧ fld w 23 1 = 0 ∧ fld w 27 5 = 12 then some (.vcmpGtX (Fin.ofNat 8 (fld w 7 3)) (Fin.ofNat 32 (fld w 12 5)) (Fin.ofNat 32 (fld w 17 5)) (fld w 22 1 == 1) (Fin.ofNat 8 (fld w 24 3)) none)
  else if fld w 10 2 = 0 ∧ fld w 23 1 = 0 ∧ fld w 27 5 = 13 then some (.vcmpGeX (Fin.ofNat 8 (fld w 7 3)) (Fin.ofNat 32 (fld w 12 5)) (Fin.ofNat 32 (fld w 17 5)) (fld w 22 1 == 1) (Fin.ofNat 8 (fld w 24 3)) none)
  else none

/-- Major 0x34. -/
noncomputable def decodeMajor34 (w : Nat) : Option Instr :=
  if fld w 10 2 = 0 ∧ fld w 15 2 = 0 ∧ fld w 20 12 = 0 then some (.mand (Fin.ofNat 8 (fld w 7 3)) (Fin.ofNat 8 (fld w 12 3)) (Fin.ofNat 8 (fld w 17 3)))
  else if fld w 10 2 = 0 ∧ fld w 15 2 = 0 ∧ fld w 20 12 = 128 then some (.mor (Fin.ofNat 8 (fld w 7 3)) (Fin.ofNat 8 (fld w 12 3)) (Fin.ofNat 8 (fld w 17 3)))
  else if fld w 10 2 = 0 ∧ fld w 15 2 = 0 ∧ fld w 20 12 = 256 then some (.mxor (Fin.ofNat 8 (fld w 7 3)) (Fin.ofNat 8 (fld w 12 3)) (Fin.ofNat 8 (fld w 17 3)))
  else if fld w 10 2 = 0 ∧ fld w 15 2 = 0 ∧ fld w 20 12 = 384 then some (.mandn (Fin.ofNat 8 (fld w 7 3)) (Fin.ofNat 8 (fld w 12 3)) (Fin.ofNat 8 (fld w 17 3)))
  else if fld w 10 2 = 0 ∧ fld w 15 17 = 16384 then some (.mnot (Fin.ofNat 8 (fld w 7 3)) (Fin.ofNat 8 (fld w 12 3)))
  else if fld w 10 2 = 0 ∧ fld w 15 17 = 20480 then some (.msbf (Fin.ofNat 8 (fld w 7 3)) (Fin.ofNat 8 (fld w 12 3)))
  else if fld w 10 2 = 0 ∧ fld w 15 17 = 24576 then some (.msif (Fin.ofNat 8 (fld w 7 3)) (Fin.ofNat 8 (fld w 12 3)))
  else if fld w 15 9 = 0 ∧ fld w 27 5 = 7 then some (.mpopc (Fin.ofNat 32 (fld w 7 5)) (Fin.ofNat 8 (fld w 12 3)) (Fin.ofNat 8 (fld w 24 3)))
  else if fld w 15 9 = 0 ∧ fld w 27 5 = 8 then some (.mfirst (Fin.ofNat 32 (fld w 7 5)) (Fin.ofNat 8 (fld w 12 3)) (Fin.ofNat 8 (fld w 24 3)))
  else none

/-- Major 0x35. -/
noncomputable def decodeMajor35 (w : Nat) : Option Instr :=
  if fld w 17 5 = 0 ∧ fld w 23 1 = 0 ∧ fld w 27 5 = 0 then some (.vmv (Fin.ofNat 32 (fld w 7 5)) (Fin.ofNat 32 (fld w 12 5)) (fld w 22 1 == 1) (Fin.ofNat 8 (fld w 24 3)))
  else if fld w 27 5 = 1 then some (.vmerge (Fin.ofNat 32 (fld w 7 5)) (Fin.ofNat 32 (fld w 12 5)) (Fin.ofNat 32 (fld w 17 5)) (fld w 22 1 == 1) (fld w 23 1 == 1) (Fin.ofNat 8 (fld w 24 3)))
  else if fld w 12 5 = 0 ∧ fld w 22 2 = 0 ∧ fld w 27 5 = 2 then some (.vsplat (Fin.ofNat 32 (fld w 7 5)) (Fin.ofNat 32 (fld w 17 5)) (Fin.ofNat 8 (fld w 24 3)))
  else if fld w 12 12 = 0 ∧ fld w 27 5 = 3 then some (.vid (Fin.ofNat 32 (fld w 7 5)) (Fin.ofNat 8 (fld w 24 3)))
  else if fld w 23 1 = 0 ∧ fld w 27 5 = 4 then some (.vslideup (Fin.ofNat 32 (fld w 7 5)) (Fin.ofNat 32 (fld w 12 5)) (Fin.ofNat 32 (fld w 17 5)) (fld w 22 1 == 1) (Fin.ofNat 8 (fld w 24 3)))
  else if fld w 23 1 = 0 ∧ fld w 27 5 = 5 then some (.vslidedn (Fin.ofNat 32 (fld w 7 5)) (Fin.ofNat 32 (fld w 12 5)) (Fin.ofNat 32 (fld w 17 5)) (fld w 22 1 == 1) (Fin.ofNat 8 (fld w 24 3)))
  else if fld w 23 1 = 0 ∧ fld w 27 5 = 6 then some (.vslide1up (Fin.ofNat 32 (fld w 7 5)) (Fin.ofNat 32 (fld w 12 5)) (Fin.ofNat 32 (fld w 17 5)) (fld w 22 1 == 1) (Fin.ofNat 8 (fld w 24 3)))
  else if fld w 23 1 = 0 ∧ fld w 27 5 = 7 then some (.vslide1dn (Fin.ofNat 32 (fld w 7 5)) (Fin.ofNat 32 (fld w 12 5)) (Fin.ofNat 32 (fld w 17 5)) (fld w 22 1 == 1) (Fin.ofNat 8 (fld w 24 3)))
  else if fld w 27 5 = 8 then some (.vrgather (Fin.ofNat 32 (fld w 7 5)) (Fin.ofNat 32 (fld w 12 5)) (Fin.ofNat 32 (fld w 17 5)) (fld w 22 1 == 1) (fld w 23 1 == 1) (Fin.ofNat 8 (fld w 24 3)))
  else none

/-- Major 0x36. -/
noncomputable def decodeMajor36 (w : Nat) : Option Instr :=
  if fld w 17 5 = 0 ∧ fld w 23 1 = 0 ∧ fld w 27 5 = 0 then some (.vcompress (Fin.ofNat 32 (fld w 7 5)) (Fin.ofNat 32 (fld w 12 5)) (fld w 22 1 == 1) (Fin.ofNat 8 (fld w 24 3)))
  else if fld w 17 5 = 0 ∧ fld w 23 1 = 0 ∧ fld w 27 5 = 1 then some (.vexpand (Fin.ofNat 32 (fld w 7 5)) (Fin.ofNat 32 (fld w 12 5)) (fld w 22 1 == 1) (Fin.ofNat 8 (fld w 24 3)))
  else if fld w 15 17 = 8192 then some (.vpfxpop (Fin.ofNat 32 (fld w 7 5)) (Fin.ofNat 8 (fld w 12 3)))
  else if fld w 17 5 = 0 ∧ fld w 23 1 = 0 ∧ fld w 27 5 = 3 then some (.vconflict (Fin.ofNat 32 (fld w 7 5)) (Fin.ofNat 32 (fld w 12 5)) (fld w 22 1 == 1) (Fin.ofNat 8 (fld w 24 3)))
  else if fld w 17 5 = 0 ∧ fld w 23 1 = 0 ∧ fld w 27 5 = 4 then some (.vscanSegAdd (Fin.ofNat 32 (fld w 7 5)) (Fin.ofNat 32 (fld w 12 5)) (fld w 22 1 == 1) (Fin.ofNat 8 (fld w 24 3)) none)
  else if fld w 17 5 = 0 ∧ fld w 23 1 = 0 ∧ fld w 27 5 = 5 then some (.vscanSegMin (Fin.ofNat 32 (fld w 7 5)) (Fin.ofNat 32 (fld w 12 5)) (fld w 22 1 == 1) (Fin.ofNat 8 (fld w 24 3)) none)
  else if fld w 17 5 = 0 ∧ fld w 23 1 = 0 ∧ fld w 27 5 = 6 then some (.vscanSegMax (Fin.ofNat 32 (fld w 7 5)) (Fin.ofNat 32 (fld w 12 5)) (fld w 22 1 == 1) (Fin.ofNat 8 (fld w 24 3)) none)
  else none

/-- Major 0x37. -/
noncomputable def decodeMajor37 (w : Nat) : Option Instr :=
  if fld w 27 5 = 0 then some (.vredAdd (Fin.ofNat 32 (fld w 7 5)) (Fin.ofNat 32 (fld w 12 5)) (Fin.ofNat 32 (fld w 17 5)) (fld w 22 1 == 1) (fld w 23 1 == 1) (Fin.ofNat 8 (fld w 24 3)) none)
  else if fld w 27 5 = 1 then some (.vredMin (Fin.ofNat 32 (fld w 7 5)) (Fin.ofNat 32 (fld w 12 5)) (Fin.ofNat 32 (fld w 17 5)) (fld w 22 1 == 1) (fld w 23 1 == 1) (Fin.ofNat 8 (fld w 24 3)) none)
  else if fld w 27 5 = 2 then some (.vredMax (Fin.ofNat 32 (fld w 7 5)) (Fin.ofNat 32 (fld w 12 5)) (Fin.ofNat 32 (fld w 17 5)) (fld w 22 1 == 1) (fld w 23 1 == 1) (Fin.ofNat 8 (fld w 24 3)) none)
  else if fld w 27 5 = 3 then some (.vredAnd (Fin.ofNat 32 (fld w 7 5)) (Fin.ofNat 32 (fld w 12 5)) (Fin.ofNat 32 (fld w 17 5)) (fld w 22 1 == 1) (fld w 23 1 == 1) (Fin.ofNat 8 (fld w 24 3)) none)
  else if fld w 27 5 = 4 then some (.vredOr (Fin.ofNat 32 (fld w 7 5)) (Fin.ofNat 32 (fld w 12 5)) (Fin.ofNat 32 (fld w 17 5)) (fld w 22 1 == 1) (fld w 23 1 == 1) (Fin.ofNat 8 (fld w 24 3)) none)
  else if fld w 27 5 = 5 then some (.vredXor (Fin.ofNat 32 (fld w 7 5)) (Fin.ofNat 32 (fld w 12 5)) (Fin.ofNat 32 (fld w 17 5)) (fld w 22 1 == 1) (fld w 23 1 == 1) (Fin.ofNat 8 (fld w 24 3)) none)
  else if fld w 27 5 = 6 then some (.vfredOrd (Fin.ofNat 32 (fld w 7 5)) (Fin.ofNat 32 (fld w 12 5)) (Fin.ofNat 32 (fld w 17 5)) (fld w 22 1 == 1) (fld w 23 1 == 1) (Fin.ofNat 8 (fld w 24 3)) none)
  else none

/-- Major 0x38. -/
noncomputable def decodeMajor38 (w : Nat) : Option Instr :=
  if fld w 23 1 = 0 ∧ fld w 27 5 = 0 then (Tag.ofCode (fld w 17 5)).map fun tag => .vcvt (Fin.ofNat 32 (fld w 7 5)) (Fin.ofNat 32 (fld w 12 5)) tag (fld w 22 1 == 1) (Fin.ofNat 8 (fld w 24 3)) none false
  else none

/-- Major 0x39. -/
noncomputable def decodeMajor39 (w : Nat) : Option Instr :=
  if fld w 17 5 = 0 ∧ fld w 23 1 = 0 ∧ fld w 27 5 = 0 then some (.vneg (Fin.ofNat 32 (fld w 7 5)) (Fin.ofNat 32 (fld w 12 5)) (fld w 22 1 == 1) (Fin.ofNat 8 (fld w 24 3)) none false)
  else if fld w 17 5 = 0 ∧ fld w 23 1 = 0 ∧ fld w 27 5 = 1 then some (.vabs (Fin.ofNat 32 (fld w 7 5)) (Fin.ofNat 32 (fld w 12 5)) (fld w 22 1 == 1) (Fin.ofNat 8 (fld w 24 3)) none false)
  else if fld w 17 5 = 0 ∧ fld w 23 1 = 0 ∧ fld w 27 5 = 2 then some (.vsqrt (Fin.ofNat 32 (fld w 7 5)) (Fin.ofNat 32 (fld w 12 5)) (fld w 22 1 == 1) (Fin.ofNat 8 (fld w 24 3)) none)
  else if fld w 17 5 = 0 ∧ fld w 23 1 = 0 ∧ fld w 27 5 = 3 then some (.vexp2 (Fin.ofNat 32 (fld w 7 5)) (Fin.ofNat 32 (fld w 12 5)) (fld w 22 1 == 1) (Fin.ofNat 8 (fld w 24 3)) none)
  else if fld w 17 5 = 0 ∧ fld w 23 1 = 0 ∧ fld w 27 5 = 4 then some (.vlog2 (Fin.ofNat 32 (fld w 7 5)) (Fin.ofNat 32 (fld w 12 5)) (fld w 22 1 == 1) (Fin.ofNat 8 (fld w 24 3)) none)
  else if fld w 17 5 = 0 ∧ fld w 23 1 = 0 ∧ fld w 27 5 = 5 then some (.vrcp (Fin.ofNat 32 (fld w 7 5)) (Fin.ofNat 32 (fld w 12 5)) (fld w 22 1 == 1) (Fin.ofNat 8 (fld w 24 3)) none)
  else if fld w 17 5 = 0 ∧ fld w 23 1 = 0 ∧ fld w 27 5 = 6 then some (.vrsqrt (Fin.ofNat 32 (fld w 7 5)) (Fin.ofNat 32 (fld w 12 5)) (fld w 22 1 == 1) (Fin.ofNat 8 (fld w 24 3)) none)
  else none

/-- Major 0x3A. -/
noncomputable def decodeMajor3A (w : Nat) : Option Instr :=
  if fld w 27 5 = 0 then some (.vbext (Fin.ofNat 32 (fld w 7 5)) (Fin.ofNat 32 (fld w 12 5)) (Fin.ofNat 32 (fld w 17 5)) (fld w 22 1 == 1) (fld w 23 1 == 1) (Fin.ofNat 8 (fld w 24 3)) none)
  else if fld w 27 5 = 1 then some (.vfsh (Fin.ofNat 32 (fld w 7 5)) (Fin.ofNat 32 (fld w 12 5)) (Fin.ofNat 32 (fld w 17 5)) (fld w 22 1 == 1) (fld w 23 1 == 1) (Fin.ofNat 8 (fld w 24 3)))
  else none

/-- Major 0x3B. -/
noncomputable def decodeMajor3B (w : Nat) : Option Instr :=
  if fld w 9 23 = 0 then some (.xaClr (Fin.ofNat 4 (fld w 7 2)))
  else if fld w 9 3 = 0 ∧ fld w 17 5 = 0 ∧ fld w 23 1 = 0 ∧ fld w 27 5 = 1 then some (.xaAddv (Fin.ofNat 4 (fld w 7 2)) (Fin.ofNat 32 (fld w 12 5)) (fld w 22 1 == 1) (Fin.ofNat 8 (fld w 24 3)))
  else if fld w 9 3 = 0 ∧ fld w 27 5 = 2 then some (.xaDot (Fin.ofNat 4 (fld w 7 2)) (Fin.ofNat 32 (fld w 12 5)) (Fin.ofNat 32 (fld w 17 5)) (fld w 22 1 == 1) (fld w 23 1 == 1) (Fin.ofNat 8 (fld w 24 3)))
  else if fld w 14 3 = 0 ∧ fld w 22 10 = 96 then (Tag.ofCode (fld w 17 5)).map fun tag => .xaRd (Fin.ofNat 32 (fld w 7 5)) (Fin.ofNat 4 (fld w 12 2)) tag none
  else if fld w 14 3 = 0 ∧ fld w 22 10 = 128 then some (.xaRdv (Fin.ofNat 32 (fld w 7 5)) (Fin.ofNat 4 (fld w 12 2)) (Fin.ofNat 32 (fld w 17 5)) none)
  else if fld w 9 3 = 0 ∧ fld w 17 15 = 5120 then some (.xaLd (Fin.ofNat 4 (fld w 7 2)) (Fin.ofNat 32 (fld w 12 5)) .none)
  else if fld w 9 3 = 0 ∧ fld w 17 15 = 6144 then some (.xaSt (Fin.ofNat 4 (fld w 7 2)) (Fin.ofNat 32 (fld w 12 5)))
  else none

/-- Major 0x3C. -/
noncomputable def decodeMajor3C (w : Nat) : Option Instr :=
  if fld w 23 9 = 0 then some (.vmvXv (Fin.ofNat 32 (fld w 7 5)) (Fin.ofNat 32 (fld w 12 5)) (Fin.ofNat 32 (fld w 17 5)) (fld w 22 1 == 1))
  else if fld w 22 10 = 32 then some (.vmvVx (Fin.ofNat 32 (fld w 7 5)) (Fin.ofNat 32 (fld w 12 5)) (Fin.ofNat 32 (fld w 17 5)))
  else none

/-- Major 0x40. -/
noncomputable def decodeMajor40 (w : Nat) : Option Instr :=
  if fld w 10 6 = 0 ∧ fld w 21 11 = 0 then some (.qld (Fin.ofNat 8 (fld w 7 3)) (Fin.ofNat 32 (fld w 16 5)) .none)
  else if fld w 10 6 = 0 ∧ fld w 21 11 = 32 then some (.qwalk (Fin.ofNat 8 (fld w 7 3)) (Fin.ofNat 32 (fld w 16 5)) .none)
  else if fld w 10 6 = 0 ∧ fld w 21 11 = 64 then some (.qwalkD (Fin.ofNat 8 (fld w 7 3)) (Fin.ofNat 32 (fld w 16 5)) .none)
  else if fld w 7 3 = 0 ∧ fld w 13 3 = 0 ∧ fld w 21 11 = 96 then some (.qst (Fin.ofNat 8 (fld w 10 3)) (Fin.ofNat 32 (fld w 16 5)))
  else none

/-- Major 0x41. -/
noncomputable def decodeMajor41 (w : Nat) : Option Instr :=
  if fld w 16 16 = 0 then some (.qisectMul (Fin.ofNat 8 (fld w 7 3)) (Fin.ofNat 8 (fld w 10 3)) (Fin.ofNat 8 (fld w 13 3)) none false)
  else if fld w 16 16 = 1024 then some (.qisectA (Fin.ofNat 8 (fld w 7 3)) (Fin.ofNat 8 (fld w 10 3)) (Fin.ofNat 8 (fld w 13 3)))
  else if fld w 16 16 = 2048 then some (.qisectB (Fin.ofNat 8 (fld w 7 3)) (Fin.ofNat 8 (fld w 10 3)) (Fin.ofNat 8 (fld w 13 3)))
  else if fld w 16 16 = 3072 then some (.qunionAdd (Fin.ofNat 8 (fld w 7 3)) (Fin.ofNat 8 (fld w 10 3)) (Fin.ofNat 8 (fld w 13 3)) none false)
  else if fld w 16 16 = 4096 then some (.qmerge (Fin.ofNat 8 (fld w 7 3)) (Fin.ofNat 8 (fld w 10 3)) (Fin.ofNat 8 (fld w 13 3)))
  else if fld w 13 19 = 40960 then some (.qsort (Fin.ofNat 8 (fld w 7 3)) (Fin.ofNat 8 (fld w 10 3)))
  else if fld w 13 19 = 49152 then some (.qcompact (Fin.ofNat 8 (fld w 7 3)) (Fin.ofNat 8 (fld w 10 3)))
  else if fld w 13 8 = 0 ∧ fld w 24 8 = 28 then some (.qcompactM (Fin.ofNat 8 (fld w 7 3)) (Fin.ofNat 8 (fld w 10 3)) (Fin.ofNat 8 (fld w 21 3)))
  else if fld w 9 1 = 0 ∧ fld w 16 16 = 8192 then some (.qdot (Fin.ofNat 4 (fld w 7 2)) (Fin.ofNat 8 (fld w 10 3)) (Fin.ofNat 8 (fld w 13 3)))
  else none

/-- Major 0x42. -/
noncomputable def decodeMajor42 (w : Nat) : Option Instr :=
  if fld w 7 3 = 0 ∧ fld w 13 3 = 0 ∧ fld w 26 6 = 0 then some (.qexpand (Fin.ofNat 8 (fld w 10 3)) (Fin.ofNat 32 (fld w 16 5)) (Fin.ofNat 32 (fld w 21 5)))
  else if fld w 10 6 = 0 ∧ fld w 26 6 = 1 then some (.qfromv (Fin.ofNat 8 (fld w 7 3)) (Fin.ofNat 32 (fld w 16 5)) (Fin.ofNat 32 (fld w 21 5)))
  else if fld w 10 6 = 0 ∧ fld w 26 6 = 2 then some (.qfromvAll (Fin.ofNat 8 (fld w 7 3)) (Fin.ofNat 32 (fld w 16 5)) (Fin.ofNat 32 (fld w 21 5)))
  else if fld w 7 3 = 0 ∧ fld w 13 8 = 0 ∧ fld w 26 6 = 3 then some (.qcoord (Fin.ofNat 8 (fld w 10 3)) (Fin.ofNat 32 (fld w 21 5)))
  else if fld w 7 3 = 0 ∧ fld w 13 8 = 0 ∧ fld w 26 6 = 4 then some (.qval (Fin.ofNat 8 (fld w 10 3)) (Fin.ofNat 32 (fld w 21 5)))
  else if fld w 7 3 = 0 ∧ fld w 13 3 = 0 ∧ fld w 21 11 = 160 then some (.qcnt (Fin.ofNat 8 (fld w 10 3)) (Fin.ofNat 32 (fld w 16 5)))
  else if fld w 10 22 = 393216 then some (.qclr (Fin.ofNat 8 (fld w 7 3)))
  else if fld w 13 3 = 0 ∧ fld w 21 11 = 224 then some (.qscale (Fin.ofNat 8 (fld w 7 3)) (Fin.ofNat 8 (fld w 10 3)) (Fin.ofNat 32 (fld w 16 5)) none false)
  else if fld w 7 3 = 0 ∧ fld w 13 3 = 0 ∧ fld w 21 11 = 256 then some (.qredAdd (Fin.ofNat 8 (fld w 10 3)) (Fin.ofNat 32 (fld w 16 5)) none)
  else if fld w 7 3 = 0 ∧ fld w 13 3 = 0 ∧ fld w 21 11 = 288 then some (.qredMin (Fin.ofNat 8 (fld w 10 3)) (Fin.ofNat 32 (fld w 16 5)))
  else if fld w 7 3 = 0 ∧ fld w 13 3 = 0 ∧ fld w 21 11 = 320 then some (.qredMax (Fin.ofNat 8 (fld w 10 3)) (Fin.ofNat 32 (fld w 16 5)))
  else none

/-- Major 0x48. -/
noncomputable def decodeMajor48 (w : Nat) : Option Instr :=
  if fld w 7 13 = 0 ∧ fld w 22 10 = 0 then some (.mattach (Fin.ofNat 4 (fld w 20 2)))
  else if fld w 7 25 = 8388608 then some (.mdetach)
  else if fld w 10 22 = 2097152 then some (.mzeroT (Fin.ofNat 8 (fld w 7 3)))
  else if fld w 9 23 = 6291456 then some (.mzeroZ (Fin.ofNat 4 (fld w 7 2)))
  else none

/-- Major 0x49. -/
noncomputable def decodeMajor49 (w : Nat) : Option Instr :=
  if fld w 10 15 = 0 ∧ fld w 30 2 = 0 then some (.mldT (Fin.ofNat 8 (fld w 7 3)) (Fin.ofNat 32 (fld w 25 5)) .none)
  else if fld w 9 16 = 0 ∧ fld w 30 2 = 1 then some (.mldZ (Fin.ofNat 4 (fld w 7 2)) (Fin.ofNat 32 (fld w 25 5)) .none)
  else if fld w 10 10 = 0 ∧ fld w 30 2 = 2 then some (.mldbm (Fin.ofNat 8 (fld w 7 3)) (Fin.ofNat 32 (fld w 20 5)) (Fin.ofNat 32 (fld w 25 5)) .none)
  else none

/-- Major 0x4A. -/
noncomputable def decodeMajor4A (w : Nat) : Option Instr :=
  if fld w 10 15 = 0 ∧ fld w 30 2 = 0 then some (.mstT (Fin.ofNat 8 (fld w 7 3)) (Fin.ofNat 32 (fld w 25 5)))
  else if fld w 9 16 = 0 ∧ fld w 30 2 = 1 then some (.mstZ (Fin.ofNat 4 (fld w 7 2)) (Fin.ofNat 32 (fld w 25 5)))
  else none

/-- Major 0x4B. -/
noncomputable def decodeMajor4B (w : Nat) : Option Instr :=
  if fld w 9 1 = 0 ∧ fld w 20 12 = 0 then some (.mma (Fin.ofNat 4 (fld w 7 2)) (Fin.ofNat 8 (fld w 10 3)) (Fin.ofNat 8 (fld w 13 3)) (Fin.ofNat 4 (fld w 16 2)) (Fin.ofNat 4 (fld w 18 2)) none)
  else if fld w 9 1 = 0 ∧ fld w 20 12 = 1024 then some (.mmaSp (Fin.ofNat 4 (fld w 7 2)) (Fin.ofNat 8 (fld w 10 3)) (Fin.ofNat 8 (fld w 13 3)) (Fin.ofNat 4 (fld w 16 2)) (Fin.ofNat 4 (fld w 18 2)) none)
  else if fld w 9 1 = 0 ∧ fld w 20 12 = 2048 then some (.mmaSs (Fin.ofNat 4 (fld w 7 2)) (Fin.ofNat 8 (fld w 10 3)) (Fin.ofNat 8 (fld w 13 3)) (Fin.ofNat 4 (fld w 16 2)) (Fin.ofNat 4 (fld w 18 2)) none)
  else none

/-- Major 0x4C. -/
noncomputable def decodeMajor4C (w : Nat) : Option Instr :=
  if fld w 9 4 = 0 ∧ fld w 16 9 = 0 ∧ fld w 30 2 = 0 then some (.mdrain (Fin.ofNat 4 (fld w 7 2)) (Fin.ofNat 8 (fld w 13 3)) (Fin.ofNat 32 (fld w 25 5)) none false)
  else if fld w 9 4 = 0 ∧ fld w 16 4 = 0 ∧ fld w 30 2 = 1 then some (.mdrainX (Fin.ofNat 4 (fld w 7 2)) (Fin.ofNat 8 (fld w 13 3)) (Fin.ofNat 32 (fld w 20 5)) (Fin.ofNat 32 (fld w 25 5)) none false)
  else if fld w 9 4 = 0 ∧ fld w 16 9 = 0 ∧ fld w 30 2 = 2 then some (.mdrainv (Fin.ofNat 4 (fld w 7 2)) (Fin.ofNat 8 (fld w 13 3)) (Fin.ofNat 32 (fld w 25 5)) none false)
  else none

/-- Major 0x50. -/
noncomputable def decodeMajor50 (w : Nat) : Option Instr :=
  if fld w 20 11 = 0 then some (.cpy (Fin.ofNat 8 (fld w 7 3)) (Fin.ofNat 32 (fld w 10 5)) (Fin.ofNat 32 (fld w 15 5)) (fld w 31 1 == 1))
  else if fld w 25 6 = 1 then some (.cpy2 (Fin.ofNat 8 (fld w 7 3)) (Fin.ofNat 32 (fld w 10 5)) (Fin.ofNat 32 (fld w 15 5)) (Fin.ofNat 32 (fld w 20 5)) (fld w 31 1 == 1))
  else if fld w 25 6 = 2 then some (.cpyG (Fin.ofNat 8 (fld w 7 3)) (Fin.ofNat 32 (fld w 10 5)) (Fin.ofNat 32 (fld w 15 5)) (Fin.ofNat 32 (fld w 20 5)) (fld w 31 1 == 1))
  else if fld w 25 6 = 3 then some (.cpyGd (Fin.ofNat 8 (fld w 7 3)) (Fin.ofNat 32 (fld w 10 5)) (Fin.ofNat 32 (fld w 15 5)) (Fin.ofNat 32 (fld w 20 5)) (fld w 31 1 == 1))
  else if fld w 20 11 = 128 then some (.cpyR (Fin.ofNat 8 (fld w 7 3)) (Fin.ofNat 32 (fld w 10 5)) (Fin.ofNat 32 (fld w 15 5)) (fld w 31 1 == 1))
  else none

/-- Major 0x51. -/
noncomputable def decodeMajor51 (w : Nat) : Option Instr :=
  if fld w 7 25 = 0 then some (.cbatch)
  else if fld w 7 8 = 0 ∧ fld w 20 12 = 32 then some (.cwait (Fin.ofNat 32 (fld w 15 5)))
  else if fld w 15 5 = 0 ∧ fld w 22 10 = 16 then some (.cstat (Fin.ofNat 8 (fld w 7 3)) (Fin.ofNat 32 (fld w 10 5)) (Fin.ofNat 4 (fld w 20 2)))
  else if fld w 10 22 = 98304 then some (.cack (Fin.ofNat 8 (fld w 7 3)))
  else none

/-- Major 0x52. -/
noncomputable def decodeMajor52 (w : Nat) : Option Instr :=
  if fld w 7 3 = 0 ∧ fld w 25 7 = 0 then some (.lzInit (Fin.ofNat 32 (fld w 10 5)) (Fin.ofNat 32 (fld w 15 5)) (Fin.ofNat 32 (fld w 20 5)))
  else if fld w 7 3 = 0 ∧ fld w 20 12 = 32 then some (.lzRes (Fin.ofNat 32 (fld w 10 5)) (Fin.ofNat 32 (fld w 15 5)))
  else if fld w 7 8 = 0 ∧ fld w 25 7 = 2 then some (.lzWait (Fin.ofNat 32 (fld w 15 5)) (Fin.ofNat 32 (fld w 20 5)))
  else if fld w 7 8 = 0 ∧ fld w 25 7 = 3 then some (.lzFree (Fin.ofNat 32 (fld w 15 5)) (Fin.ofNat 32 (fld w 20 5)))
  else if fld w 7 3 = 0 ∧ fld w 20 12 = 128 then some (.lzScrub (Fin.ofNat 32 (fld w 10 5)) (Fin.ofNat 32 (fld w 15 5)))
  else if fld w 7 8 = 0 ∧ fld w 20 12 = 160 then some (.lzFin (Fin.ofNat 32 (fld w 15 5)))
  else none

/-- Major 0x53. -/
noncomputable def decodeMajor53 (w : Nat) : Option Instr :=
  if fld w 10 5 = 0 ∧ fld w 23 8 = 0 then some (.qsend (Fin.ofNat 8 (fld w 7 3)) (Fin.ofNat 32 (fld w 15 5)) (Fin.ofNat 8 (fld w 20 3)) (fld w 31 1 == 1))
  else if fld w 7 3 = 0 ∧ fld w 13 2 = 0 ∧ fld w 25 7 = 1 then some (.qrecv (Fin.ofNat 8 (fld w 10 3)) (Fin.ofNat 32 (fld w 15 5)) (Fin.ofNat 32 (fld w 20 5)))
  else none

/-- The instruction of one word by its major opcode and fields (R121), before the conditions of `Instr.wf`. -/
noncomputable def decodeRaw (w : Nat) : Option Instr :=
  match w % 128 with
  | 1 => decodeMajor01 w
  | 2 => decodeMajor02 w
  | 3 => decodeMajor03 w
  | 4 => decodeMajor04 w
  | 5 => decodeMajor05 w
  | 6 => decodeMajor06 w
  | 7 => decodeMajor07 w
  | 8 => decodeMajor08 w
  | 9 => decodeMajor09 w
  | 10 => decodeMajor0A w
  | 11 => decodeMajor0B w
  | 12 => decodeMajor0C w
  | 13 => decodeMajor0D w
  | 14 => decodeMajor0E w
  | 16 => decodeMajor10 w
  | 17 => decodeMajor11 w
  | 18 => decodeMajor12 w
  | 19 => decodeMajor13 w
  | 20 => decodeMajor14 w
  | 21 => decodeMajor15 w
  | 32 => decodeMajor20 w
  | 33 => decodeMajor21 w
  | 34 => decodeMajor22 w
  | 35 => decodeMajor23 w
  | 36 => decodeMajor24 w
  | 37 => decodeMajor25 w
  | 41 => decodeMajor29 w
  | 48 => decodeMajor30 w
  | 49 => decodeMajor31 w
  | 50 => decodeMajor32 w
  | 51 => decodeMajor33 w
  | 52 => decodeMajor34 w
  | 53 => decodeMajor35 w
  | 54 => decodeMajor36 w
  | 55 => decodeMajor37 w
  | 56 => decodeMajor38 w
  | 57 => decodeMajor39 w
  | 58 => decodeMajor3A w
  | 59 => decodeMajor3B w
  | 60 => decodeMajor3C w
  | 64 => decodeMajor40 w
  | 65 => decodeMajor41 w
  | 66 => decodeMajor42 w
  | 72 => decodeMajor48 w
  | 73 => decodeMajor49 w
  | 74 => decodeMajor4A w
  | 75 => decodeMajor4B w
  | 76 => decodeMajor4C w
  | 80 => decodeMajor50 w
  | 81 => decodeMajor51 w
  | 82 => decodeMajor52 w
  | 83 => decodeMajor53 w
  | _ => none

/-- A word read alone: the instruction it is, or none (R122). -/
noncomputable def decodeWord (w : Nat) : Option Instr := (decodeRaw w).filter Instr.wf

/-- The immediate of an I, U or B word extended by the 24 bits of a leading word (R118): `n` is the word's own field. -/
def extendImm (p n : Nat) (i : Int) : Int := sx (24 + n) (fld p 7 24 * 2 ^ n + immField n i)

/-- What a leading word adds to the instruction of the word after it: none where the entry accepts no leading word, or
does not define a field that is nonzero (R118, R119, R120, and the tables of R138, R165, R182, R201, R219, R254). DEDUCED, log 16. -/
noncomputable def applyLeading (p : Nat) (i : Instr) : Option Instr :=
  match i, Mods.read p with
  | .addi d a i, _ => some (.addi d a (extendImm p 12 i))
  | .andi d a i, _ => some (.andi d a (extendImm p 12 i))
  | .ori d a i, _ => some (.ori d a (extendImm p 12 i))
  | .xori d a i, _ => some (.xori d a (extendImm p 12 i))
  | .lui d i, _ => some (.lui d (extendImm p 20 i))
  | .lb d a o, _ => some (.lb d a (extendImm p 12 o))
  | .lh d a o, _ => some (.lh d a (extendImm p 12 o))
  | .lw d a o, _ => some (.lw d a (extendImm p 12 o))
  | .ld d a o, _ => some (.ld d a (extendImm p 12 o))
  | .lbu d a o, _ => some (.lbu d a (extendImm p 12 o))
  | .lhu d a o, _ => some (.lhu d a (extendImm p 12 o))
  | .lwu d a o, _ => some (.lwu d a (extendImm p 12 o))
  | .sb s a o, _ => some (.sb s a (extendImm p 12 o))
  | .sh s a o, _ => some (.sh s a (extendImm p 12 o))
  | .sw s a o, _ => some (.sw s a (extendImm p 12 o))
  | .sd s a o, _ => some (.sd s a (extendImm p 12 o))
  | .bc c k o, _ => some (.bc c k (extendImm p 19 o))
  | .bnc c k o, _ => some (.bnc c k (extendImm p 19 o))
  | .jal d o, _ => some (.jal d (extendImm p 20 o))
  | .jalr d a i, _ => some (.jalr d a (extendImm p 12 i))
  | .cmpiEq c a i, _ => some (.cmpiEq c a (extendImm p 12 i))
  | .cmpiLt c a i, _ => some (.cmpiLt c a (extendImm p 12 i))
  | .cmpiLtu c a i, _ => some (.cmpiLtu c a (extendImm p 12 i))
  | .faddS d a b _, some μ => if μ.sat = false ∧ μ.hint = .none ∧ μ.xfn = 0 ∧ μ.ximm = 0 then some (.faddS d a b μ.rm) else none
  | .faddD d a b _, some μ => if μ.sat = false ∧ μ.hint = .none ∧ μ.xfn = 0 ∧ μ.ximm = 0 then some (.faddD d a b μ.rm) else none
  | .fsubS d a b _, some μ => if μ.sat = false ∧ μ.hint = .none ∧ μ.xfn = 0 ∧ μ.ximm = 0 then some (.fsubS d a b μ.rm) else none
  | .fsubD d a b _, some μ => if μ.sat = false ∧ μ.hint = .none ∧ μ.xfn = 0 ∧ μ.ximm = 0 then some (.fsubD d a b μ.rm) else none
  | .fmulS d a b _, some μ => if μ.sat = false ∧ μ.hint = .none ∧ μ.xfn = 0 ∧ μ.ximm = 0 then some (.fmulS d a b μ.rm) else none
  | .fmulD d a b _, some μ => if μ.sat = false ∧ μ.hint = .none ∧ μ.xfn = 0 ∧ μ.ximm = 0 then some (.fmulD d a b μ.rm) else none
  | .fdivS d a b _, some μ => if μ.sat = false ∧ μ.hint = .none ∧ μ.xfn = 0 ∧ μ.ximm = 0 then some (.fdivS d a b μ.rm) else none
  | .fdivD d a b _, some μ => if μ.sat = false ∧ μ.hint = .none ∧ μ.xfn = 0 ∧ μ.ximm = 0 then some (.fdivD d a b μ.rm) else none
  | .fsqrtS d a _, some μ => if μ.sat = false ∧ μ.hint = .none ∧ μ.xfn = 0 ∧ μ.ximm = 0 then some (.fsqrtS d a μ.rm) else none
  | .fsqrtD d a _, some μ => if μ.sat = false ∧ μ.hint = .none ∧ μ.xfn = 0 ∧ μ.ximm = 0 then some (.fsqrtD d a μ.rm) else none
  | .fminS d a b _, some μ => if μ.sat = false ∧ μ.hint = .none ∧ μ.xfn = 0 ∧ μ.ximm = 0 then some (.fminS d a b μ.rm) else none
  | .fminD d a b _, some μ => if μ.sat = false ∧ μ.hint = .none ∧ μ.xfn = 0 ∧ μ.ximm = 0 then some (.fminD d a b μ.rm) else none
  | .fmaxS d a b _, some μ => if μ.sat = false ∧ μ.hint = .none ∧ μ.xfn = 0 ∧ μ.ximm = 0 then some (.fmaxS d a b μ.rm) else none
  | .fmaxD d a b _, some μ => if μ.sat = false ∧ μ.hint = .none ∧ μ.xfn = 0 ∧ μ.ximm = 0 then some (.fmaxD d a b μ.rm) else none
  | .fmacS d a b _, some μ => if μ.sat = false ∧ μ.hint = .none ∧ μ.xfn = 0 ∧ μ.ximm = 0 then some (.fmacS d a b μ.rm) else none
  | .fmacD d a b _, some μ => if μ.sat = false ∧ μ.hint = .none ∧ μ.xfn = 0 ∧ μ.ximm = 0 then some (.fmacD d a b μ.rm) else none
  | .fcmpEqS c a b _, some μ => if μ.sat = false ∧ μ.hint = .none ∧ μ.xfn = 0 ∧ μ.ximm = 0 then some (.fcmpEqS c a b μ.rm) else none
  | .fcmpEqD c a b _, some μ => if μ.sat = false ∧ μ.hint = .none ∧ μ.xfn = 0 ∧ μ.ximm = 0 then some (.fcmpEqD c a b μ.rm) else none
  | .fcmpLtS c a b _, some μ => if μ.sat = false ∧ μ.hint = .none ∧ μ.xfn = 0 ∧ μ.ximm = 0 then some (.fcmpLtS c a b μ.rm) else none
  | .fcmpLtD c a b _, some μ => if μ.sat = false ∧ μ.hint = .none ∧ μ.xfn = 0 ∧ μ.ximm = 0 then some (.fcmpLtD c a b μ.rm) else none
  | .fcmpLeS c a b _, some μ => if μ.sat = false ∧ μ.hint = .none ∧ μ.xfn = 0 ∧ μ.ximm = 0 then some (.fcmpLeS c a b μ.rm) else none
  | .fcmpLeD c a b _, some μ => if μ.sat = false ∧ μ.hint = .none ∧ μ.xfn = 0 ∧ μ.ximm = 0 then some (.fcmpLeD c a b μ.rm) else none
  | .fcvtLS d a _ _, some μ => if μ.hint = .none ∧ μ.xfn = 0 ∧ μ.ximm = 0 then some (.fcvtLS d a μ.rm μ.sat) else none
  | .fcvtLD d a _ _, some μ => if μ.hint = .none ∧ μ.xfn = 0 ∧ μ.ximm = 0 then some (.fcvtLD d a μ.rm μ.sat) else none
  | .fcvtLuS d a _ _, some μ => if μ.hint = .none ∧ μ.xfn = 0 ∧ μ.ximm = 0 then some (.fcvtLuS d a μ.rm μ.sat) else none
  | .fcvtLuD d a _ _, some μ => if μ.hint = .none ∧ μ.xfn = 0 ∧ μ.ximm = 0 then some (.fcvtLuD d a μ.rm μ.sat) else none
  | .fcvtSL d a _, some μ => if μ.sat = false ∧ μ.hint = .none ∧ μ.xfn = 0 ∧ μ.ximm = 0 then some (.fcvtSL d a μ.rm) else none
  | .fcvtDL d a _, some μ => if μ.sat = false ∧ μ.hint = .none ∧ μ.xfn = 0 ∧ μ.ximm = 0 then some (.fcvtDL d a μ.rm) else none
  | .fcvtSLu d a _, some μ => if μ.sat = false ∧ μ.hint = .none ∧ μ.xfn = 0 ∧ μ.ximm = 0 then some (.fcvtSLu d a μ.rm) else none
  | .fcvtDLu d a _, some μ => if μ.sat = false ∧ μ.hint = .none ∧ μ.xfn = 0 ∧ μ.ximm = 0 then some (.fcvtDLu d a μ.rm) else none
  | .fcvtSD d a _ _, some μ => if μ.hint = .none ∧ μ.xfn = 0 ∧ μ.ximm = 0 then some (.fcvtSD d a μ.rm μ.sat) else none
  | .fcvtDS d a _, some μ => if μ.sat = false ∧ μ.hint = .none ∧ μ.xfn = 0 ∧ μ.ximm = 0 then some (.fcvtDS d a μ.rm) else none
  | .sbegin o, _ => some (.sbegin (extendImm p 12 o))
  | .vld d a o m _, some μ => if μ.rm = none ∧ μ.sat = false ∧ μ.xfn = 0 ∧ μ.ximm = 0 then some (.vld d a o m μ.hint) else none
  | .vldff d a m _, some μ => if μ.rm = none ∧ μ.sat = false ∧ μ.xfn = 0 ∧ μ.ximm = 0 then some (.vldff d a m μ.hint) else none
  | .vlds d a s o m _, some μ => if μ.rm = none ∧ μ.sat = false ∧ μ.xfn = 0 ∧ μ.ximm = 0 then some (.vlds d a s o m μ.hint) else none
  | .vldx d a i c o m _, some μ => if μ.rm = none ∧ μ.sat = false ∧ μ.xfn = 0 ∧ μ.ximm = 0 then some (.vldx d a i c o m μ.hint) else none
  | .vldxFar d a i c o m _, some μ => if μ.rm = none ∧ μ.sat = false ∧ μ.xfn = 0 ∧ μ.ximm = 0 then some (.vldxFar d a i c o m μ.hint) else none
  | .vldseg d a o m n _, some μ => if μ.rm = none ∧ μ.sat = false ∧ μ.xfn = 0 ∧ μ.ximm = 0 then some (.vldseg d a o m n μ.hint) else none
  | .vldsegP d a i c m n _, some μ => if μ.rm = none ∧ μ.sat = false ∧ μ.xfn = 0 ∧ μ.ximm = 0 then some (.vldsegP d a i c m n μ.hint) else none
  | .vld2 d a o m _, some μ => if μ.rm = none ∧ μ.sat = false ∧ μ.xfn = 0 ∧ μ.ximm = 0 then some (.vld2 d a o m μ.hint) else none
  | .vadd d a b q p m _ _, some μ => if μ.hint = .none ∧ μ.xfn = 0 ∧ μ.ximm = 0 then some (.vadd d a b q p m μ.rm μ.sat) else none
  | .vsub d a b q p m _ _, some μ => if μ.hint = .none ∧ μ.xfn = 0 ∧ μ.ximm = 0 then some (.vsub d a b q p m μ.rm μ.sat) else none
  | .vmul d a b q p m _ _, some μ => if μ.hint = .none ∧ μ.xfn = 0 ∧ μ.ximm = 0 then some (.vmul d a b q p m μ.rm μ.sat) else none
  | .vdiv d a b q p m _, some μ => if μ.sat = false ∧ μ.hint = .none ∧ μ.xfn = 0 ∧ μ.ximm = 0 then some (.vdiv d a b q p m μ.rm) else none
  | .vrem d a b q p m _, some μ => if μ.sat = false ∧ μ.hint = .none ∧ μ.xfn = 0 ∧ μ.ximm = 0 then some (.vrem d a b q p m μ.rm) else none
  | .vmin d a b q p m _, some μ => if μ.sat = false ∧ μ.hint = .none ∧ μ.xfn = 0 ∧ μ.ximm = 0 then some (.vmin d a b q p m μ.rm) else none
  | .vmax d a b q p m _, some μ => if μ.sat = false ∧ μ.hint = .none ∧ μ.xfn = 0 ∧ μ.ximm = 0 then some (.vmax d a b q p m μ.rm) else none
  | .vand d a b q p m _, some μ => if μ.sat = false ∧ μ.hint = .none ∧ μ.xfn = 0 ∧ μ.ximm = 0 then some (.vand d a b q p m μ.rm) else none
  | .vor d a b q p m _, some μ => if μ.sat = false ∧ μ.hint = .none ∧ μ.xfn = 0 ∧ μ.ximm = 0 then some (.vor d a b q p m μ.rm) else none
  | .vxor d a b q p m _, some μ => if μ.sat = false ∧ μ.hint = .none ∧ μ.xfn = 0 ∧ μ.ximm = 0 then some (.vxor d a b q p m μ.rm) else none
  | .vsll d a b q p m _, some μ => if μ.sat = false ∧ μ.hint = .none ∧ μ.xfn = 0 ∧ μ.ximm = 0 then some (.vsll d a b q p m μ.rm) else none
  | .vsrl d a b q p m _, some μ => if μ.sat = false ∧ μ.hint = .none ∧ μ.xfn = 0 ∧ μ.ximm = 0 then some (.vsrl d a b q p m μ.rm) else none
  | .vsra d a b q p m _, some μ => if μ.sat = false ∧ μ.hint = .none ∧ μ.xfn = 0 ∧ μ.ximm = 0 then some (.vsra d a b q p m μ.rm) else none
  | .vmulh d a b q p m _, some μ => if μ.sat = false ∧ μ.hint = .none ∧ μ.xfn = 0 ∧ μ.ximm = 0 then some (.vmulh d a b q p m μ.rm) else none
  | .vaddX d a x q m _ _, some μ => if μ.hint = .none ∧ μ.xfn = 0 ∧ μ.ximm = 0 then some (.vaddX d a x q m μ.rm μ.sat) else none
  | .vsubX d a x q m _ _, some μ => if μ.hint = .none ∧ μ.xfn = 0 ∧ μ.ximm = 0 then some (.vsubX d a x q m μ.rm μ.sat) else none
  | .vmulX d a x q m _ _, some μ => if μ.hint = .none ∧ μ.xfn = 0 ∧ μ.ximm = 0 then some (.vmulX d a x q m μ.rm μ.sat) else none
  | .vdivX d a x q m _, some μ => if μ.sat = false ∧ μ.hint = .none ∧ μ.xfn = 0 ∧ μ.ximm = 0 then some (.vdivX d a x q m μ.rm) else none
  | .vremX d a x q m _, some μ => if μ.sat = false ∧ μ.hint = .none ∧ μ.xfn = 0 ∧ μ.ximm = 0 then some (.vremX d a x q m μ.rm) else none
  | .vminX d a x q m _, some μ => if μ.sat = false ∧ μ.hint = .none ∧ μ.xfn = 0 ∧ μ.ximm = 0 then some (.vminX d a x q m μ.rm) else none
  | .vmaxX d a x q m _, some μ => if μ.sat = false ∧ μ.hint = .none ∧ μ.xfn = 0 ∧ μ.ximm = 0 then some (.vmaxX d a x q m μ.rm) else none
  | .vandX d a x q m _, some μ => if μ.sat = false ∧ μ.hint = .none ∧ μ.xfn = 0 ∧ μ.ximm = 0 then some (.vandX d a x q m μ.rm) else none
  | .vorX d a x q m _, some μ => if μ.sat = false ∧ μ.hint = .none ∧ μ.xfn = 0 ∧ μ.ximm = 0 then some (.vorX d a x q m μ.rm) else none
  | .vxorX d a x q m _, some μ => if μ.sat = false ∧ μ.hint = .none ∧ μ.xfn = 0 ∧ μ.ximm = 0 then some (.vxorX d a x q m μ.rm) else none
  | .vsllX d a x q m _, some μ => if μ.sat = false ∧ μ.hint = .none ∧ μ.xfn = 0 ∧ μ.ximm = 0 then some (.vsllX d a x q m μ.rm) else none
  | .vsrlX d a x q m _, some μ => if μ.sat = false ∧ μ.hint = .none ∧ μ.xfn = 0 ∧ μ.ximm = 0 then some (.vsrlX d a x q m μ.rm) else none
  | .vsraX d a x q m _, some μ => if μ.sat = false ∧ μ.hint = .none ∧ μ.xfn = 0 ∧ μ.ximm = 0 then some (.vsraX d a x q m μ.rm) else none
  | .vmulhX d a x q m _, some μ => if μ.sat = false ∧ μ.hint = .none ∧ μ.xfn = 0 ∧ μ.ximm = 0 then some (.vmulhX d a x q m μ.rm) else none
  | .vfma d a b q p m _ _, some μ => if μ.hint = .none ∧ μ.xfn = 0 ∧ μ.ximm = 0 then some (.vfma d a b q p m μ.rm μ.sat) else none
  | .vfms d a b q p m _ _, some μ => if μ.hint = .none ∧ μ.xfn = 0 ∧ μ.ximm = 0 then some (.vfms d a b q p m μ.rm μ.sat) else none
  | .vfnma d a b q p m _ _, some μ => if μ.hint = .none ∧ μ.xfn = 0 ∧ μ.ximm = 0 then some (.vfnma d a b q p m μ.rm μ.sat) else none
  | .vfnms d a b q p m _ _, some μ => if μ.hint = .none ∧ μ.xfn = 0 ∧ μ.ximm = 0 then some (.vfnms d a b q p m μ.rm μ.sat) else none
  | .vcmpEq d a b q p m _, some μ => if μ.sat = false ∧ μ.hint = .none ∧ μ.xfn = 0 ∧ μ.ximm = 0 then some (.vcmpEq d a b q p m μ.rm) else none
  | .vcmpNe d a b q p m _, some μ => if μ.sat = false ∧ μ.hint = .none ∧ μ.xfn = 0 ∧ μ.ximm = 0 then some (.vcmpNe d a b q p m μ.rm) else none
  | .vcmpLt d a b q p m _, some μ => if μ.sat = false ∧ μ.hint = .none ∧ μ.xfn = 0 ∧ μ.ximm = 0 then some (.vcmpLt d a b q p m μ.rm) else none
  | .vcmpLe d a b q p m _, some μ => if μ.sat = false ∧ μ.hint = .none ∧ μ.xfn = 0 ∧ μ.ximm = 0 then some (.vcmpLe d a b q p m μ.rm) else none
  | .vcmpEqX d a x q m _, some μ => if μ.sat = false ∧ μ.hint = .none ∧ μ.xfn = 0 ∧ μ.ximm = 0 then some (.vcmpEqX d a x q m μ.rm) else none
  | .vcmpNeX d a x q m _, some μ => if μ.sat = false ∧ μ.hint = .none ∧ μ.xfn = 0 ∧ μ.ximm = 0 then some (.vcmpNeX d a x q m μ.rm) else none
  | .vcmpLtX d a x q m _, some μ => if μ.sat = false ∧ μ.hint = .none ∧ μ.xfn = 0 ∧ μ.ximm = 0 then some (.vcmpLtX d a x q m μ.rm) else none
  | .vcmpLeX d a x q m _, some μ => if μ.sat = false ∧ μ.hint = .none ∧ μ.xfn = 0 ∧ μ.ximm = 0 then some (.vcmpLeX d a x q m μ.rm) else none
  | .vcmpGtX d a x q m _, some μ => if μ.sat = false ∧ μ.hint = .none ∧ μ.xfn = 0 ∧ μ.ximm = 0 then some (.vcmpGtX d a x q m μ.rm) else none
  | .vcmpGeX d a x q m _, some μ => if μ.sat = false ∧ μ.hint = .none ∧ μ.xfn = 0 ∧ μ.ximm = 0 then some (.vcmpGeX d a x q m μ.rm) else none
  | .vscanSegAdd d a q m _, some μ => if μ.sat = false ∧ μ.hint = .none ∧ μ.xfn = 0 ∧ μ.ximm = 0 then some (.vscanSegAdd d a q m μ.rm) else none
  | .vscanSegMin d a q m _, some μ => if μ.sat = false ∧ μ.hint = .none ∧ μ.xfn = 0 ∧ μ.ximm = 0 then some (.vscanSegMin d a q m μ.rm) else none
  | .vscanSegMax d a q m _, some μ => if μ.sat = false ∧ μ.hint = .none ∧ μ.xfn = 0 ∧ μ.ximm = 0 then some (.vscanSegMax d a q m μ.rm) else none
  | .vredAdd d a b q p m _, some μ => if μ.sat = false ∧ μ.hint = .none ∧ μ.xfn = 0 ∧ μ.ximm = 0 then some (.vredAdd d a b q p m μ.rm) else none
  | .vredMin d a b q p m _, some μ => if μ.sat = false ∧ μ.hint = .none ∧ μ.xfn = 0 ∧ μ.ximm = 0 then some (.vredMin d a b q p m μ.rm) else none
  | .vredMax d a b q p m _, some μ => if μ.sat = false ∧ μ.hint = .none ∧ μ.xfn = 0 ∧ μ.ximm = 0 then some (.vredMax d a b q p m μ.rm) else none
  | .vredAnd d a b q p m _, some μ => if μ.sat = false ∧ μ.hint = .none ∧ μ.xfn = 0 ∧ μ.ximm = 0 then some (.vredAnd d a b q p m μ.rm) else none
  | .vredOr d a b q p m _, some μ => if μ.sat = false ∧ μ.hint = .none ∧ μ.xfn = 0 ∧ μ.ximm = 0 then some (.vredOr d a b q p m μ.rm) else none
  | .vredXor d a b q p m _, some μ => if μ.sat = false ∧ μ.hint = .none ∧ μ.xfn = 0 ∧ μ.ximm = 0 then some (.vredXor d a b q p m μ.rm) else none
  | .vfredOrd d a b q p m _, some μ => if μ.sat = false ∧ μ.hint = .none ∧ μ.xfn = 0 ∧ μ.ximm = 0 then some (.vfredOrd d a b q p m μ.rm) else none
  | .vcvt d a t q m _ _, some μ => if μ.hint = .none ∧ μ.xfn = 0 ∧ μ.ximm = 0 then some (.vcvt d a t q m μ.rm μ.sat) else none
  | .vneg d a q m _ _, some μ => if μ.hint = .none ∧ μ.xfn = 0 ∧ μ.ximm = 0 then some (.vneg d a q m μ.rm μ.sat) else none
  | .vabs d a q m _ _, some μ => if μ.hint = .none ∧ μ.xfn = 0 ∧ μ.ximm = 0 then some (.vabs d a q m μ.rm μ.sat) else none
  | .vsqrt d a q m _, some μ => if μ.sat = false ∧ μ.hint = .none ∧ μ.xfn = 0 ∧ μ.ximm = 0 then some (.vsqrt d a q m μ.rm) else none
  | .vexp2 d a q m _, some μ => if μ.sat = false ∧ μ.hint = .none ∧ μ.xfn = 0 ∧ μ.ximm = 0 then some (.vexp2 d a q m μ.rm) else none
  | .vlog2 d a q m _, some μ => if μ.sat = false ∧ μ.hint = .none ∧ μ.xfn = 0 ∧ μ.ximm = 0 then some (.vlog2 d a q m μ.rm) else none
  | .vrcp d a q m _, some μ => if μ.sat = false ∧ μ.hint = .none ∧ μ.xfn = 0 ∧ μ.ximm = 0 then some (.vrcp d a q m μ.rm) else none
  | .vrsqrt d a q m _, some μ => if μ.sat = false ∧ μ.hint = .none ∧ μ.xfn = 0 ∧ μ.ximm = 0 then some (.vrsqrt d a q m μ.rm) else none
  | .vbext d a b q p m _, some μ => if μ.rm = none ∧ μ.sat = false ∧ μ.hint = .none ∧ μ.xfn = 0 then (lenOfXimm μ.ximm).map fun l => .vbext d a b q p m l else none
  | .xaRd d e t _, some μ => if μ.sat = false ∧ μ.hint = .none ∧ μ.xfn = 0 ∧ μ.ximm = 0 then some (.xaRd d e t μ.rm) else none
  | .xaRdv d e x _, some μ => if μ.sat = false ∧ μ.hint = .none ∧ μ.xfn = 0 ∧ μ.ximm = 0 then some (.xaRdv d e x μ.rm) else none
  | .xaLd e a _, some μ => if μ.rm = none ∧ μ.sat = false ∧ μ.xfn = 0 ∧ μ.ximm = 0 then some (.xaLd e a μ.hint) else none
  | .qld d v _, some μ => if μ.rm = none ∧ μ.sat = false ∧ μ.xfn = 0 ∧ μ.ximm = 0 then some (.qld d v μ.hint) else none
  | .qwalk d v _, some μ => if μ.rm = none ∧ μ.sat = false ∧ μ.xfn = 0 ∧ μ.ximm = 0 then some (.qwalk d v μ.hint) else none
  | .qwalkD d v _, some μ => if μ.rm = none ∧ μ.sat = false ∧ μ.xfn = 0 ∧ μ.ximm = 0 then some (.qwalkD d v μ.hint) else none
  | .qisectMul d a b _ _, some μ => if μ.hint = .none ∧ μ.xfn = 0 ∧ μ.ximm = 0 then some (.qisectMul d a b μ.rm μ.sat) else none
  | .qunionAdd d a b _ _, some μ => if μ.hint = .none ∧ μ.xfn = 0 ∧ μ.ximm = 0 then some (.qunionAdd d a b μ.rm μ.sat) else none
  | .qscale d a v _ _, some μ => if μ.hint = .none ∧ μ.xfn = 0 ∧ μ.ximm = 0 then some (.qscale d a v μ.rm μ.sat) else none
  | .qredAdd a d _, some μ => if μ.sat = false ∧ μ.hint = .none ∧ μ.xfn = 0 ∧ μ.ximm = 0 then some (.qredAdd a d μ.rm) else none
  | .mldT d a _, some μ => if μ.rm = none ∧ μ.sat = false ∧ μ.xfn = 0 ∧ μ.ximm = 0 then some (.mldT d a μ.hint) else none
  | .mldZ d a _, some μ => if μ.rm = none ∧ μ.sat = false ∧ μ.xfn = 0 ∧ μ.ximm = 0 then some (.mldZ d a μ.hint) else none
  | .mldbm d b a _, some μ => if μ.rm = none ∧ μ.sat = false ∧ μ.xfn = 0 ∧ μ.ximm = 0 then some (.mldbm d b a μ.hint) else none
  | .mma d a b start ceil _, some μ => if μ.sat = false ∧ μ.hint = .none ∧ μ.xfn = 0 ∧ μ.ximm = 0 then some (.mma d a b start ceil μ.rm) else none
  | .mmaSp d a b start ceil _, some μ => if μ.sat = false ∧ μ.hint = .none ∧ μ.xfn = 0 ∧ μ.ximm = 0 then some (.mmaSp d a b start ceil μ.rm) else none
  | .mmaSs d a b start ceil _, some μ => if μ.sat = false ∧ μ.hint = .none ∧ μ.xfn = 0 ∧ μ.ximm = 0 then some (.mmaSs d a b start ceil μ.rm) else none
  | .mdrain z m a _ _, some μ => if μ.hint = .none ∧ μ.xfn = 0 ∧ μ.ximm = 0 then some (.mdrain z m a μ.rm μ.sat) else none
  | .mdrainX z m i a _ _, some μ => if μ.hint = .none ∧ μ.xfn = 0 ∧ μ.ximm = 0 then some (.mdrainX z m i a μ.rm μ.sat) else none
  | .mdrainv z m d _ _, some μ => if μ.hint = .none ∧ μ.xfn = 0 ∧ μ.ximm = 0 then some (.mdrainv z m d μ.rm μ.sat) else none
  | _, _ => none

/-- What the decoder answers: an instruction, and whether it came as a pair (R117); or that the words are not an
instruction, and whether it is the second word of a pair that is found illegal (R124). -/
inductive Decoding where
  | instr (i : Instr) (pair : Bool)
  | illegal (second : Bool)
deriving DecidableEq, Repr

/-- Whether a word begins a pair: major 0x7F, but for the all-ones word (R117). DEDUCED, log 16. -/
def isLeading (w : Nat) : Bool := w % 128 == 127 && w != 0xFFFFFFFF

/-- The instruction at a word and the word after it (R117 to R124). DEDUCED, log 16. -/
noncomputable def decode (w1 w2 : Nat) : Decoding :=
  if isLeading w1 then
    if w2 % 128 = 127 then .illegal false
    else match decodeWord w2 with
      | none => .illegal true
      | some i =>
        if fld w1 31 1 = 1 then .illegal false
        else match (applyLeading w1 i).filter Instr.wf with
          | none => .illegal false
          | some j => .instr j true
  else match decodeWord w1 with
    | none => .illegal false
    | some i => .instr i false

/-- The instruction takes its rounding mode from FCSR.RM (R61, R119); a matrix step never does. -/
def Instr.dynamic : Instr → Bool
  | .faddS _ _ _ none | .faddD _ _ _ none | .fsubS _ _ _ none | .fsubD _ _ _ none | .fmulS _ _ _ none | .fmulD _ _ _ none
  | .fdivS _ _ _ none | .fdivD _ _ _ none | .fsqrtS _ _ none | .fsqrtD _ _ none | .fminS _ _ _ none | .fminD _ _ _ none
  | .fmaxS _ _ _ none | .fmaxD _ _ _ none | .fmacS _ _ _ none | .fmacD _ _ _ none | .fcmpEqS _ _ _ none | .fcmpEqD _ _ _ none
  | .fcmpLtS _ _ _ none | .fcmpLtD _ _ _ none | .fcmpLeS _ _ _ none | .fcmpLeD _ _ _ none | .fcvtLS _ _ none _
  | .fcvtLD _ _ none _ | .fcvtLuS _ _ none _ | .fcvtLuD _ _ none _ | .fcvtSL _ _ none | .fcvtDL _ _ none | .fcvtSLu _ _ none
  | .fcvtDLu _ _ none | .fcvtSD _ _ none _ | .fcvtDS _ _ none | .vadd _ _ _ _ _ _ none _ | .vsub _ _ _ _ _ _ none _
  | .vmul _ _ _ _ _ _ none _ | .vdiv _ _ _ _ _ _ none | .vrem _ _ _ _ _ _ none | .vmin _ _ _ _ _ _ none
  | .vmax _ _ _ _ _ _ none | .vand _ _ _ _ _ _ none | .vor _ _ _ _ _ _ none | .vxor _ _ _ _ _ _ none | .vsll _ _ _ _ _ _ none
  | .vsrl _ _ _ _ _ _ none | .vsra _ _ _ _ _ _ none | .vmulh _ _ _ _ _ _ none | .vaddX _ _ _ _ _ none _
  | .vsubX _ _ _ _ _ none _ | .vmulX _ _ _ _ _ none _ | .vdivX _ _ _ _ _ none | .vremX _ _ _ _ _ none | .vminX _ _ _ _ _ none
  | .vmaxX _ _ _ _ _ none | .vandX _ _ _ _ _ none | .vorX _ _ _ _ _ none | .vxorX _ _ _ _ _ none | .vsllX _ _ _ _ _ none
  | .vsrlX _ _ _ _ _ none | .vsraX _ _ _ _ _ none | .vmulhX _ _ _ _ _ none | .vfma _ _ _ _ _ _ none _
  | .vfms _ _ _ _ _ _ none _ | .vfnma _ _ _ _ _ _ none _ | .vfnms _ _ _ _ _ _ none _ | .vcmpEq _ _ _ _ _ _ none
  | .vcmpNe _ _ _ _ _ _ none | .vcmpLt _ _ _ _ _ _ none | .vcmpLe _ _ _ _ _ _ none | .vcmpEqX _ _ _ _ _ none
  | .vcmpNeX _ _ _ _ _ none | .vcmpLtX _ _ _ _ _ none | .vcmpLeX _ _ _ _ _ none | .vcmpGtX _ _ _ _ _ none
  | .vcmpGeX _ _ _ _ _ none | .vscanSegAdd _ _ _ _ none | .vscanSegMin _ _ _ _ none | .vscanSegMax _ _ _ _ none
  | .vredAdd _ _ _ _ _ _ none | .vredMin _ _ _ _ _ _ none | .vredMax _ _ _ _ _ _ none | .vredAnd _ _ _ _ _ _ none
  | .vredOr _ _ _ _ _ _ none | .vredXor _ _ _ _ _ _ none | .vfredOrd _ _ _ _ _ _ none | .vcvt _ _ _ _ _ none _
  | .vneg _ _ _ _ none _ | .vabs _ _ _ _ none _ | .vsqrt _ _ _ _ none | .vexp2 _ _ _ _ none | .vlog2 _ _ _ _ none
  | .vrcp _ _ _ _ none | .vrsqrt _ _ _ _ none | .xaRd _ _ _ none | .xaRdv _ _ _ none | .qisectMul _ _ _ none _
  | .qunionAdd _ _ _ none _ | .qscale _ _ _ none _ | .qredAdd _ _ none | .mdrain _ _ _ none _ | .mdrainX _ _ _ _ none _
  | .mdrainv _ _ _ none _ => true
  | _ => false

/-- The second word of a pair is found illegal for its dynamic mode (R124): a leading word of RM 0 that its entry refuses, before a
word that alone takes the mode. -/
noncomputable def secondDynamic (w1 w2 : Nat) : Bool :=
  isLeading w1 && fld w1 28 3 == 0 && (match decodeWord w2 with | some i => i.dynamic | none => false)

/-- A little-endian 32-bit word of bytes (R113); missing bytes read zero. -/
def wordOfBytes (bs : List Byte) : Nat := bs.take 4 |>.foldr (fun b acc => b.toNat + 256 * acc) 0

/-- Decoding on bytes in memory order: total on any list. -/
noncomputable def decodeBytes (bs : List Byte) : Decoding := decode (wordOfBytes bs) (wordOfBytes (bs.drop 4))

/-- The word of an instruction, without what a leading word carries; an event has none and gives 0. -/
def encodeWord : Instr → Nat
  | .add d a b => 1 + d.val * 128 + a.val * 4096 + b.val * 131072
  | .sub d a b => 4194305 + d.val * 128 + a.val * 4096 + b.val * 131072
  | .and d a b => 8388609 + d.val * 128 + a.val * 4096 + b.val * 131072
  | .or d a b => 12582913 + d.val * 128 + a.val * 4096 + b.val * 131072
  | .xor d a b => 16777217 + d.val * 128 + a.val * 4096 + b.val * 131072
  | .andn d a b => 20971521 + d.val * 128 + a.val * 4096 + b.val * 131072
  | .sll d a b => 25165825 + d.val * 128 + a.val * 4096 + b.val * 131072
  | .srl d a b => 29360129 + d.val * 128 + a.val * 4096 + b.val * 131072
  | .sra d a b => 33554433 + d.val * 128 + a.val * 4096 + b.val * 131072
  | .rol d a b => 37748737 + d.val * 128 + a.val * 4096 + b.val * 131072
  | .ror d a b => 41943041 + d.val * 128 + a.val * 4096 + b.val * 131072
  | .min d a b => 46137345 + d.val * 128 + a.val * 4096 + b.val * 131072
  | .max d a b => 50331649 + d.val * 128 + a.val * 4096 + b.val * 131072
  | .minu d a b => 54525953 + d.val * 128 + a.val * 4096 + b.val * 131072
  | .maxu d a b => 58720257 + d.val * 128 + a.val * 4096 + b.val * 131072
  | .csel d a b n => 1073741825 + d.val * 128 + a.val * 4096 + b.val * 131072 + n.val * 4194304
  | .addi d a i => 2 + d.val * 128 + a.val * 4096 + immField 12 i * 1048576
  | .andi d a i => 131074 + d.val * 128 + a.val * 4096 + immField 12 i * 1048576
  | .ori d a i => 262146 + d.val * 128 + a.val * 4096 + immField 12 i * 1048576
  | .xori d a i => 393218 + d.val * 128 + a.val * 4096 + immField 12 i * 1048576
  | .slli d a s => 524290 + d.val * 128 + a.val * 4096 + s.val * 1048576
  | .srli d a s => 655362 + d.val * 128 + a.val * 4096 + s.val * 1048576
  | .srai d a s => 786434 + d.val * 128 + a.val * 4096 + s.val * 1048576
  | .rori d a s => 917506 + d.val * 128 + a.val * 4096 + s.val * 1048576
  | .lui d i => 3 + d.val * 128 + immField 20 i * 4096
  | .lb d a o => 4 + d.val * 128 + a.val * 4096 + immField 12 o * 1048576
  | .lh d a o => 131076 + d.val * 128 + a.val * 4096 + immField 12 o * 1048576
  | .lw d a o => 262148 + d.val * 128 + a.val * 4096 + immField 12 o * 1048576
  | .ld d a o => 393220 + d.val * 128 + a.val * 4096 + immField 12 o * 1048576
  | .lbu d a o => 524292 + d.val * 128 + a.val * 4096 + immField 12 o * 1048576
  | .lhu d a o => 655364 + d.val * 128 + a.val * 4096 + immField 12 o * 1048576
  | .lwu d a o => 786436 + d.val * 128 + a.val * 4096 + immField 12 o * 1048576
  | .sb s a o => 5 + s.val * 128 + a.val * 4096 + immField 12 o * 1048576
  | .sh s a o => 131077 + s.val * 128 + a.val * 4096 + immField 12 o * 1048576
  | .sw s a o => 262149 + s.val * 128 + a.val * 4096 + immField 12 o * 1048576
  | .sd s a o => 393221 + s.val * 128 + a.val * 4096 + immField 12 o * 1048576
  | .bc c k o => 6 + c.val * 128 + k.val * 2048 + immField 19 o * 8192
  | .bnc c k o => 1030 + c.val * 128 + k.val * 2048 + immField 19 o * 8192
  | .jal d o => 7 + d.val * 128 + immField 20 o * 4096
  | .jalr d a i => 8 + d.val * 128 + a.val * 4096 + immField 12 i * 1048576
  | .cmpiEq c a i => 131081 + c.val * 128 + a.val * 4096 + immField 12 i * 1048576
  | .cmpiLt c a i => 262153 + c.val * 128 + a.val * 4096 + immField 12 i * 1048576
  | .cmpiLtu c a i => 393225 + c.val * 128 + a.val * 4096 + immField 12 i * 1048576
  | .cmpEq c a b => 524297 + c.val * 128 + a.val * 4096 + b.val * 134217728
  | .cmpLt c a b => 655369 + c.val * 128 + a.val * 4096 + b.val * 134217728
  | .cmpLtu c a b => 786441 + c.val * 128 + a.val * 4096 + b.val * 134217728
  | .cmpTst c a b => 917513 + c.val * 128 + a.val * 4096 + b.val * 134217728
  | .cand d s t => 9 + d.val * 128 + s.val * 4096 + t.val * 4194304
  | .cor d s t => 33554441 + d.val * 128 + s.val * 4096 + t.val * 4194304
  | .cxor d s t => 67108873 + d.val * 128 + s.val * 4096 + t.val * 4194304
  | .candn d s t => 100663305 + d.val * 128 + s.val * 4096 + t.val * 4194304
  | .movs d r => 10 + d.val * 128 + r.val * 1048576
  | .smov a r => 131082 + a.val * 4096 + r.val * 1048576
  | .trap i => 11 + immField 12 i * 1048576
  | .ebreak => 131083
  | .kret => 262155
  | .mcall i => 393227 + immField 12 i * 1048576
  | .monret => 524299
  | .invpg s a => 655371 + s.val * 128 + a.val * 4096
  | .invpgG a => 1703947 + a.val * 4096
  | .hend s => 786443 + s.val * 1048576
  | .mul d a b => 12 + d.val * 128 + a.val * 4096 + b.val * 131072
  | .mulhiSs d a b => 4194316 + d.val * 128 + a.val * 4096 + b.val * 131072
  | .mulhiUu d a b => 8388620 + d.val * 128 + a.val * 4096 + b.val * 131072
  | .mulhiSu d a b => 12582924 + d.val * 128 + a.val * 4096 + b.val * 131072
  | .div d a b => 16777228 + d.val * 128 + a.val * 4096 + b.val * 131072
  | .divu d a b => 20971532 + d.val * 128 + a.val * 4096 + b.val * 131072
  | .rem d a b => 25165836 + d.val * 128 + a.val * 4096 + b.val * 131072
  | .remu d a b => 29360140 + d.val * 128 + a.val * 4096 + b.val * 131072
  | .faddS d a b _ => 13 + d.val * 128 + a.val * 4096 + b.val * 131072
  | .faddD d a b _ => 4194317 + d.val * 128 + a.val * 4096 + b.val * 131072
  | .fsubS d a b _ => 8388621 + d.val * 128 + a.val * 4096 + b.val * 131072
  | .fsubD d a b _ => 12582925 + d.val * 128 + a.val * 4096 + b.val * 131072
  | .fmulS d a b _ => 16777229 + d.val * 128 + a.val * 4096 + b.val * 131072
  | .fmulD d a b _ => 20971533 + d.val * 128 + a.val * 4096 + b.val * 131072
  | .fdivS d a b _ => 25165837 + d.val * 128 + a.val * 4096 + b.val * 131072
  | .fdivD d a b _ => 29360141 + d.val * 128 + a.val * 4096 + b.val * 131072
  | .fsqrtS d a _ => 33554445 + d.val * 128 + a.val * 4096
  | .fsqrtD d a _ => 37748749 + d.val * 128 + a.val * 4096
  | .fminS d a b _ => 41943053 + d.val * 128 + a.val * 4096 + b.val * 131072
  | .fminD d a b _ => 46137357 + d.val * 128 + a.val * 4096 + b.val * 131072
  | .fmaxS d a b _ => 50331661 + d.val * 128 + a.val * 4096 + b.val * 131072
  | .fmaxD d a b _ => 54525965 + d.val * 128 + a.val * 4096 + b.val * 131072
  | .fmacS d a b _ => 58720269 + d.val * 128 + a.val * 4096 + b.val * 131072
  | .fmacD d a b _ => 62914573 + d.val * 128 + a.val * 4096 + b.val * 131072
  | .fcmpEqS c a b _ => 67108877 + c.val * 128 + a.val * 4096 + b.val * 131072
  | .fcmpEqD c a b _ => 71303181 + c.val * 128 + a.val * 4096 + b.val * 131072
  | .fcmpLtS c a b _ => 75497485 + c.val * 128 + a.val * 4096 + b.val * 131072
  | .fcmpLtD c a b _ => 79691789 + c.val * 128 + a.val * 4096 + b.val * 131072
  | .fcmpLeS c a b _ => 83886093 + c.val * 128 + a.val * 4096 + b.val * 131072
  | .fcmpLeD c a b _ => 88080397 + c.val * 128 + a.val * 4096 + b.val * 131072
  | .fcvtLS d a _ _ => 92274701 + d.val * 128 + a.val * 4096
  | .fcvtLD d a _ _ => 96469005 + d.val * 128 + a.val * 4096
  | .fcvtLuS d a _ _ => 100663309 + d.val * 128 + a.val * 4096
  | .fcvtLuD d a _ _ => 104857613 + d.val * 128 + a.val * 4096
  | .fcvtSL d a _ => 109051917 + d.val * 128 + a.val * 4096
  | .fcvtDL d a _ => 113246221 + d.val * 128 + a.val * 4096
  | .fcvtSLu d a _ => 117440525 + d.val * 128 + a.val * 4096
  | .fcvtDLu d a _ => 121634829 + d.val * 128 + a.val * 4096
  | .fcvtSD d a _ _ => 125829133 + d.val * 128 + a.val * 4096
  | .fcvtDS d a _ => 130023437 + d.val * 128 + a.val * 4096
  | .clz d a => 14 + d.val * 128 + a.val * 4096
  | .ctz d a => 4194318 + d.val * 128 + a.val * 4096
  | .popc d a => 8388622 + d.val * 128 + a.val * 4096
  | .bswap d a => 12582926 + d.val * 128 + a.val * 4096
  | .bfx d a l p => 131086 + d.val * 128 + a.val * 4096 + l.val * 1048576 + p.val * 67108864
  | .bfxu d a l p => 262158 + d.val * 128 + a.val * 4096 + l.val * 1048576 + p.val * 67108864
  | .bfi d a l p => 393230 + d.val * 128 + a.val * 4096 + l.val * 1048576 + p.val * 67108864
  | .fsh d a s b => 524302 + d.val * 128 + a.val * 4096 + s.val * 1048576 + b.val * 134217728
  | .fshv d a c b => 655374 + d.val * 128 + a.val * 4096 + c.val * 1048576 + b.val * 134217728
  | .bfxuv d a l b => 786446 + d.val * 128 + a.val * 4096 + l.val * 1048576 + b.val * 134217728
  | .amoAdd d a b o s z => 16 + d.val * 128 + a.val * 4096 + b.val * 131072 + o.code * 8388608 + s.code * 33554432 + z.toNat * 134217728
  | .amoAnd d a b o s z => 268435472 + d.val * 128 + a.val * 4096 + b.val * 131072 + o.code * 8388608 + s.code * 33554432 + z.toNat * 134217728
  | .amoOr d a b o s z => 536870928 + d.val * 128 + a.val * 4096 + b.val * 131072 + o.code * 8388608 + s.code * 33554432 + z.toNat * 134217728
  | .amoXor d a b o s z => 805306384 + d.val * 128 + a.val * 4096 + b.val * 131072 + o.code * 8388608 + s.code * 33554432 + z.toNat * 134217728
  | .amoMin d a b o s z => 1073741840 + d.val * 128 + a.val * 4096 + b.val * 131072 + o.code * 8388608 + s.code * 33554432 + z.toNat * 134217728
  | .amoMax d a b o s z => 1342177296 + d.val * 128 + a.val * 4096 + b.val * 131072 + o.code * 8388608 + s.code * 33554432 + z.toNat * 134217728
  | .amoMinu d a b o s z => 1610612752 + d.val * 128 + a.val * 4096 + b.val * 131072 + o.code * 8388608 + s.code * 33554432 + z.toNat * 134217728
  | .amoMaxu d a b o s z => 1879048208 + d.val * 128 + a.val * 4096 + b.val * 131072 + o.code * 8388608 + s.code * 33554432 + z.toNat * 134217728
  | .amoSwap d a b o s z => 2147483664 + d.val * 128 + a.val * 4096 + b.val * 131072 + o.code * 8388608 + s.code * 33554432 + z.toNat * 134217728
  | .amoCas d a b o s z => 2415919120 + d.val * 128 + a.val * 4096 + b.val * 131072 + o.code * 8388608 + s.code * 33554432 + z.toNat * 134217728
  | .casQ d a b o s => 2818572304 + d.val * 128 + a.val * 4096 + b.val * 131072 + o.code * 8388608 + s.code * 33554432
  | .ldAcq d a s z => 2961178640 + d.val * 128 + a.val * 4096 + s.code * 33554432 + z.toNat * 134217728
  | .stRel a b s z => 3238002704 + a.val * 4096 + b.val * 131072 + s.code * 33554432 + z.toNat * 134217728
  | .fence sLd sSt sEng sRem s => 17 + sLd.toNat * 1048576 + sSt.toNat * 2097152 + sEng.toNat * 4194304 + sRem.toNat * 8388608 + s.code * 16777216
  | .ifence => 131089
  | .waitge d a b s z => 18 + d.val * 128 + a.val * 4096 + b.val * 131072 + s.code * 33554432 + z.toNat * 134217728
  | .waiteq d a b s z => 268435474 + d.val * 128 + a.val * 4096 + b.val * 131072 + s.code * 33554432 + z.toNat * 134217728
  | .barInit d a b => 19 + d.val * 128 + a.val * 4096 + b.val * 131072
  | .barArrive d a s => 268435475 + d.val * 128 + a.val * 4096 + s.code * 33554432
  | .barWait a b s => 536870931 + a.val * 4096 + b.val * 131072 + s.code * 33554432
  | .barFin a => 805306387 + a.val * 4096
  | .farmDef s a => 20 + s.val * 128 + a.val * 4096
  | .farmNext d n => 4194324 + d.val * 128 + n.val * 4096
  | .farmEnd => 8388628
  | .scommit => 12582932
  | .sabort => 16777236
  | .sbegin o => 131092 + immField 12 o * 1048576
  | .launch d a b => 21 + d.val * 128 + a.val * 4096 + b.val * 131072
  | .setvl d a t g => 32 + d.val * 128 + a.val * 4096 + t.code * 1048576 + g.val * 268435456
  | .setvlH d a t g => 131104 + d.val * 128 + a.val * 4096 + t.code * 1048576 + g.val * 268435456
  | .vld d a o m _ => 33 + d.val * 128 + a.val * 4096 + o.toNat * 8388608 + m.val * 16777216
  | .vldff d a m _ => 142606369 + d.val * 128 + a.val * 4096 + m.val * 16777216
  | .vlds d a s o m _ => 268435489 + d.val * 128 + a.val * 4096 + s.val * 131072 + o.toNat * 8388608 + m.val * 16777216
  | .vst v a o m => 1073741857 + v.val * 128 + a.val * 4096 + o.toNat * 8388608 + m.val * 16777216
  | .vsts v a s o m => 1342177313 + v.val * 128 + a.val * 4096 + s.val * 131072 + o.toNat * 8388608 + m.val * 16777216
  | .vldx d a i c o m _ => 34 + d.val * 128 + a.val * 4096 + i.val * 131072 + c.toNat * 4194304 + o.toNat * 8388608 + m.val * 16777216
  | .vldxFar d a i c o m _ => 134217762 + d.val * 128 + a.val * 4096 + i.val * 131072 + c.toNat * 4194304 + o.toNat * 8388608 + m.val * 16777216
  | .vstx v a i c o m => 1073741858 + v.val * 128 + a.val * 4096 + i.val * 131072 + c.toNat * 4194304 + o.toNat * 8388608 + m.val * 16777216
  | .vstxFar v a i c o m => 1207959586 + v.val * 128 + a.val * 4096 + i.val * 131072 + c.toNat * 4194304 + o.toNat * 8388608 + m.val * 16777216
  | .vldseg d a o m n _ => 35 + d.val * 128 + a.val * 4096 + o.toNat * 8388608 + m.val * 16777216 + n.val * 134217728
  | .vstseg v a o m n => 1073741859 + v.val * 128 + a.val * 4096 + o.toNat * 8388608 + m.val * 16777216 + n.val * 134217728
  | .vldsegP d a i c m n _ => 2155872291 + d.val * 128 + a.val * 4096 + i.val * 131072 + c.toNat * 4194304 + m.val * 16777216 + n.val * 134217728
  | .vstsegP v a i c o m n => 3221225507 + v.val * 128 + a.val * 4096 + i.val * 131072 + c.toNat * 4194304 + o.toNat * 8388608 + m.val * 16777216 + n.val * 134217728
  | .vld2 d a o m _ => 36 + d.val * 128 + a.val * 4096 + o.toNat * 8388608 + m.val * 16777216
  | .vst2 v a o m => 1073741860 + v.val * 128 + a.val * 4096 + o.toNat * 8388608 + m.val * 16777216
  | .vsbind d a s n => 8388645 + d.val * 128 + a.val * 4096 + s.val * 131072 + n.val * 134217728
  | .vsunbind d => 2155872293 + d.val * 128
  | .vtag d t => 41 + d.val * 128 + t.code * 4096
  | .vtagr d b => 134217769 + d.val * 128 + b.val * 131072
  | .spdisc a b => 4160749609 + a.val * 4096 + b.val * 131072
  | .spkeep a b => 4164943913 + a.val * 4096 + b.val * 131072
  | .vadd d a b q p m _ _ => 48 + d.val * 128 + a.val * 4096 + b.val * 131072 + q.toNat * 4194304 + p.toNat * 8388608 + m.val * 16777216
  | .vsub d a b q p m _ _ => 134217776 + d.val * 128 + a.val * 4096 + b.val * 131072 + q.toNat * 4194304 + p.toNat * 8388608 + m.val * 16777216
  | .vmul d a b q p m _ _ => 268435504 + d.val * 128 + a.val * 4096 + b.val * 131072 + q.toNat * 4194304 + p.toNat * 8388608 + m.val * 16777216
  | .vdiv d a b q p m _ => 402653232 + d.val * 128 + a.val * 4096 + b.val * 131072 + q.toNat * 4194304 + p.toNat * 8388608 + m.val * 16777216
  | .vrem d a b q p m _ => 536870960 + d.val * 128 + a.val * 4096 + b.val * 131072 + q.toNat * 4194304 + p.toNat * 8388608 + m.val * 16777216
  | .vmin d a b q p m _ => 671088688 + d.val * 128 + a.val * 4096 + b.val * 131072 + q.toNat * 4194304 + p.toNat * 8388608 + m.val * 16777216
  | .vmax d a b q p m _ => 805306416 + d.val * 128 + a.val * 4096 + b.val * 131072 + q.toNat * 4194304 + p.toNat * 8388608 + m.val * 16777216
  | .vand d a b q p m _ => 939524144 + d.val * 128 + a.val * 4096 + b.val * 131072 + q.toNat * 4194304 + p.toNat * 8388608 + m.val * 16777216
  | .vor d a b q p m _ => 1073741872 + d.val * 128 + a.val * 4096 + b.val * 131072 + q.toNat * 4194304 + p.toNat * 8388608 + m.val * 16777216
  | .vxor d a b q p m _ => 1207959600 + d.val * 128 + a.val * 4096 + b.val * 131072 + q.toNat * 4194304 + p.toNat * 8388608 + m.val * 16777216
  | .vsll d a b q p m _ => 1342177328 + d.val * 128 + a.val * 4096 + b.val * 131072 + q.toNat * 4194304 + p.toNat * 8388608 + m.val * 16777216
  | .vsrl d a b q p m _ => 1476395056 + d.val * 128 + a.val * 4096 + b.val * 131072 + q.toNat * 4194304 + p.toNat * 8388608 + m.val * 16777216
  | .vsra d a b q p m _ => 1610612784 + d.val * 128 + a.val * 4096 + b.val * 131072 + q.toNat * 4194304 + p.toNat * 8388608 + m.val * 16777216
  | .vmulh d a b q p m _ => 1744830512 + d.val * 128 + a.val * 4096 + b.val * 131072 + q.toNat * 4194304 + p.toNat * 8388608 + m.val * 16777216
  | .vaddX d a x q m _ _ => 49 + d.val * 128 + a.val * 4096 + x.val * 131072 + q.toNat * 4194304 + m.val * 16777216
  | .vsubX d a x q m _ _ => 134217777 + d.val * 128 + a.val * 4096 + x.val * 131072 + q.toNat * 4194304 + m.val * 16777216
  | .vmulX d a x q m _ _ => 268435505 + d.val * 128 + a.val * 4096 + x.val * 131072 + q.toNat * 4194304 + m.val * 16777216
  | .vdivX d a x q m _ => 402653233 + d.val * 128 + a.val * 4096 + x.val * 131072 + q.toNat * 4194304 + m.val * 16777216
  | .vremX d a x q m _ => 536870961 + d.val * 128 + a.val * 4096 + x.val * 131072 + q.toNat * 4194304 + m.val * 16777216
  | .vminX d a x q m _ => 671088689 + d.val * 128 + a.val * 4096 + x.val * 131072 + q.toNat * 4194304 + m.val * 16777216
  | .vmaxX d a x q m _ => 805306417 + d.val * 128 + a.val * 4096 + x.val * 131072 + q.toNat * 4194304 + m.val * 16777216
  | .vandX d a x q m _ => 939524145 + d.val * 128 + a.val * 4096 + x.val * 131072 + q.toNat * 4194304 + m.val * 16777216
  | .vorX d a x q m _ => 1073741873 + d.val * 128 + a.val * 4096 + x.val * 131072 + q.toNat * 4194304 + m.val * 16777216
  | .vxorX d a x q m _ => 1207959601 + d.val * 128 + a.val * 4096 + x.val * 131072 + q.toNat * 4194304 + m.val * 16777216
  | .vsllX d a x q m _ => 1342177329 + d.val * 128 + a.val * 4096 + x.val * 131072 + q.toNat * 4194304 + m.val * 16777216
  | .vsrlX d a x q m _ => 1476395057 + d.val * 128 + a.val * 4096 + x.val * 131072 + q.toNat * 4194304 + m.val * 16777216
  | .vsraX d a x q m _ => 1610612785 + d.val * 128 + a.val * 4096 + x.val * 131072 + q.toNat * 4194304 + m.val * 16777216
  | .vmulhX d a x q m _ => 1744830513 + d.val * 128 + a.val * 4096 + x.val * 131072 + q.toNat * 4194304 + m.val * 16777216
  | .vfma d a b q p m _ _ => 50 + d.val * 128 + a.val * 4096 + b.val * 131072 + q.toNat * 4194304 + p.toNat * 8388608 + m.val * 16777216
  | .vfms d a b q p m _ _ => 134217778 + d.val * 128 + a.val * 4096 + b.val * 131072 + q.toNat * 4194304 + p.toNat * 8388608 + m.val * 16777216
  | .vfnma d a b q p m _ _ => 268435506 + d.val * 128 + a.val * 4096 + b.val * 131072 + q.toNat * 4194304 + p.toNat * 8388608 + m.val * 16777216
  | .vfnms d a b q p m _ _ => 402653234 + d.val * 128 + a.val * 4096 + b.val * 131072 + q.toNat * 4194304 + p.toNat * 8388608 + m.val * 16777216
  | .vcmpEq d a b q p m _ => 51 + d.val * 128 + a.val * 4096 + b.val * 131072 + q.toNat * 4194304 + p.toNat * 8388608 + m.val * 16777216
  | .vcmpNe d a b q p m _ => 134217779 + d.val * 128 + a.val * 4096 + b.val * 131072 + q.toNat * 4194304 + p.toNat * 8388608 + m.val * 16777216
  | .vcmpLt d a b q p m _ => 268435507 + d.val * 128 + a.val * 4096 + b.val * 131072 + q.toNat * 4194304 + p.toNat * 8388608 + m.val * 16777216
  | .vcmpLe d a b q p m _ => 402653235 + d.val * 128 + a.val * 4096 + b.val * 131072 + q.toNat * 4194304 + p.toNat * 8388608 + m.val * 16777216
  | .vcmpEqX d a x q m _ => 1073741875 + d.val * 128 + a.val * 4096 + x.val * 131072 + q.toNat * 4194304 + m.val * 16777216
  | .vcmpNeX d a x q m _ => 1207959603 + d.val * 128 + a.val * 4096 + x.val * 131072 + q.toNat * 4194304 + m.val * 16777216
  | .vcmpLtX d a x q m _ => 1342177331 + d.val * 128 + a.val * 4096 + x.val * 131072 + q.toNat * 4194304 + m.val * 16777216
  | .vcmpLeX d a x q m _ => 1476395059 + d.val * 128 + a.val * 4096 + x.val * 131072 + q.toNat * 4194304 + m.val * 16777216
  | .vcmpGtX d a x q m _ => 1610612787 + d.val * 128 + a.val * 4096 + x.val * 131072 + q.toNat * 4194304 + m.val * 16777216
  | .vcmpGeX d a x q m _ => 1744830515 + d.val * 128 + a.val * 4096 + x.val * 131072 + q.toNat * 4194304 + m.val * 16777216
  | .mand d a b => 52 + d.val * 128 + a.val * 4096 + b.val * 131072
  | .mor d a b => 134217780 + d.val * 128 + a.val * 4096 + b.val * 131072
  | .mxor d a b => 268435508 + d.val * 128 + a.val * 4096 + b.val * 131072
  | .mandn d a b => 402653236 + d.val * 128 + a.val * 4096 + b.val * 131072
  | .mnot d a => 536870964 + d.val * 128 + a.val * 4096
  | .msbf d a => 671088692 + d.val * 128 + a.val * 4096
  | .msif d a => 805306420 + d.val * 128 + a.val * 4096
  | .mpopc d a m => 939524148 + d.val * 128 + a.val * 4096 + m.val * 16777216
  | .mfirst d a m => 1073741876 + d.val * 128 + a.val * 4096 + m.val * 16777216
  | .vmv d a q m => 53 + d.val * 128 + a.val * 4096 + q.toNat * 4194304 + m.val * 16777216
  | .vmerge d a b q p m => 134217781 + d.val * 128 + a.val * 4096 + b.val * 131072 + q.toNat * 4194304 + p.toNat * 8388608 + m.val * 16777216
  | .vsplat d x m => 268435509 + d.val * 128 + x.val * 131072 + m.val * 16777216
  | .vid d m => 402653237 + d.val * 128 + m.val * 16777216
  | .vslideup d a x q m => 536870965 + d.val * 128 + a.val * 4096 + x.val * 131072 + q.toNat * 4194304 + m.val * 16777216
  | .vslidedn d a x q m => 671088693 + d.val * 128 + a.val * 4096 + x.val * 131072 + q.toNat * 4194304 + m.val * 16777216
  | .vslide1up d a x q m => 805306421 + d.val * 128 + a.val * 4096 + x.val * 131072 + q.toNat * 4194304 + m.val * 16777216
  | .vslide1dn d a x q m => 939524149 + d.val * 128 + a.val * 4096 + x.val * 131072 + q.toNat * 4194304 + m.val * 16777216
  | .vrgather d a b q p m => 1073741877 + d.val * 128 + a.val * 4096 + b.val * 131072 + q.toNat * 4194304 + p.toNat * 8388608 + m.val * 16777216
  | .vcompress d a q m => 54 + d.val * 128 + a.val * 4096 + q.toNat * 4194304 + m.val * 16777216
  | .vexpand d a q m => 134217782 + d.val * 128 + a.val * 4096 + q.toNat * 4194304 + m.val * 16777216
  | .vpfxpop d a => 268435510 + d.val * 128 + a.val * 4096
  | .vconflict d a q m => 402653238 + d.val * 128 + a.val * 4096 + q.toNat * 4194304 + m.val * 16777216
  | .vscanSegAdd d a q m _ => 536870966 + d.val * 128 + a.val * 4096 + q.toNat * 4194304 + m.val * 16777216
  | .vscanSegMin d a q m _ => 671088694 + d.val * 128 + a.val * 4096 + q.toNat * 4194304 + m.val * 16777216
  | .vscanSegMax d a q m _ => 805306422 + d.val * 128 + a.val * 4096 + q.toNat * 4194304 + m.val * 16777216
  | .vredAdd d a b q p m _ => 55 + d.val * 128 + a.val * 4096 + b.val * 131072 + q.toNat * 4194304 + p.toNat * 8388608 + m.val * 16777216
  | .vredMin d a b q p m _ => 134217783 + d.val * 128 + a.val * 4096 + b.val * 131072 + q.toNat * 4194304 + p.toNat * 8388608 + m.val * 16777216
  | .vredMax d a b q p m _ => 268435511 + d.val * 128 + a.val * 4096 + b.val * 131072 + q.toNat * 4194304 + p.toNat * 8388608 + m.val * 16777216
  | .vredAnd d a b q p m _ => 402653239 + d.val * 128 + a.val * 4096 + b.val * 131072 + q.toNat * 4194304 + p.toNat * 8388608 + m.val * 16777216
  | .vredOr d a b q p m _ => 536870967 + d.val * 128 + a.val * 4096 + b.val * 131072 + q.toNat * 4194304 + p.toNat * 8388608 + m.val * 16777216
  | .vredXor d a b q p m _ => 671088695 + d.val * 128 + a.val * 4096 + b.val * 131072 + q.toNat * 4194304 + p.toNat * 8388608 + m.val * 16777216
  | .vfredOrd d a b q p m _ => 805306423 + d.val * 128 + a.val * 4096 + b.val * 131072 + q.toNat * 4194304 + p.toNat * 8388608 + m.val * 16777216
  | .vcvt d a t q m _ _ => 56 + d.val * 128 + a.val * 4096 + t.code * 131072 + q.toNat * 4194304 + m.val * 16777216
  | .vneg d a q m _ _ => 57 + d.val * 128 + a.val * 4096 + q.toNat * 4194304 + m.val * 16777216
  | .vabs d a q m _ _ => 134217785 + d.val * 128 + a.val * 4096 + q.toNat * 4194304 + m.val * 16777216
  | .vsqrt d a q m _ => 268435513 + d.val * 128 + a.val * 4096 + q.toNat * 4194304 + m.val * 16777216
  | .vexp2 d a q m _ => 402653241 + d.val * 128 + a.val * 4096 + q.toNat * 4194304 + m.val * 16777216
  | .vlog2 d a q m _ => 536870969 + d.val * 128 + a.val * 4096 + q.toNat * 4194304 + m.val * 16777216
  | .vrcp d a q m _ => 671088697 + d.val * 128 + a.val * 4096 + q.toNat * 4194304 + m.val * 16777216
  | .vrsqrt d a q m _ => 805306425 + d.val * 128 + a.val * 4096 + q.toNat * 4194304 + m.val * 16777216
  | .vbext d a b q p m _ => 58 + d.val * 128 + a.val * 4096 + b.val * 131072 + q.toNat * 4194304 + p.toNat * 8388608 + m.val * 16777216
  | .vfsh d a b q p m => 134217786 + d.val * 128 + a.val * 4096 + b.val * 131072 + q.toNat * 4194304 + p.toNat * 8388608 + m.val * 16777216
  | .xaClr e => 59 + e.val * 128
  | .xaAddv e a q m => 134217787 + e.val * 128 + a.val * 4096 + q.toNat * 4194304 + m.val * 16777216
  | .xaDot e a b q p m => 268435515 + e.val * 128 + a.val * 4096 + b.val * 131072 + q.toNat * 4194304 + p.toNat * 8388608 + m.val * 16777216
  | .xaRd d e t _ => 402653243 + d.val * 128 + e.val * 4096 + t.code * 131072
  | .xaRdv d e x _ => 536870971 + d.val * 128 + e.val * 4096 + x.val * 131072
  | .xaLd e a _ => 671088699 + e.val * 128 + a.val * 4096
  | .xaSt e a => 805306427 + e.val * 128 + a.val * 4096
  | .vmvXv d a x q => 60 + d.val * 128 + a.val * 4096 + x.val * 131072 + q.toNat * 4194304
  | .vmvVx d a b => 134217788 + d.val * 128 + a.val * 4096 + b.val * 131072
  | .qld d v _ => 64 + d.val * 128 + v.val * 65536
  | .qwalk d v _ => 67108928 + d.val * 128 + v.val * 65536
  | .qwalkD d v _ => 134217792 + d.val * 128 + v.val * 65536
  | .qst a v => 201326656 + a.val * 1024 + v.val * 65536
  | .qisectMul d a b _ _ => 65 + d.val * 128 + a.val * 1024 + b.val * 8192
  | .qisectA d a b => 67108929 + d.val * 128 + a.val * 1024 + b.val * 8192
  | .qisectB d a b => 134217793 + d.val * 128 + a.val * 1024 + b.val * 8192
  | .qunionAdd d a b _ _ => 201326657 + d.val * 128 + a.val * 1024 + b.val * 8192
  | .qmerge d a b => 268435521 + d.val * 128 + a.val * 1024 + b.val * 8192
  | .qsort d a => 335544385 + d.val * 128 + a.val * 1024
  | .qcompact d a => 402653249 + d.val * 128 + a.val * 1024
  | .qcompactM d a m => 469762113 + d.val * 128 + a.val * 1024 + m.val * 2097152
  | .qdot e a b => 536870977 + e.val * 128 + a.val * 1024 + b.val * 8192
  | .qexpand a v d => 66 + a.val * 1024 + v.val * 65536 + d.val * 2097152
  | .qfromv d v a => 67108930 + d.val * 128 + v.val * 65536 + a.val * 2097152
  | .qfromvAll d v a => 134217794 + d.val * 128 + v.val * 65536 + a.val * 2097152
  | .qcoord a d => 201326658 + a.val * 1024 + d.val * 2097152
  | .qval a d => 268435522 + a.val * 1024 + d.val * 2097152
  | .qcnt a d => 335544386 + a.val * 1024 + d.val * 65536
  | .qclr d => 402653250 + d.val * 128
  | .qscale d a v _ _ => 469762114 + d.val * 128 + a.val * 1024 + v.val * 65536
  | .qredAdd a d _ => 536870978 + a.val * 1024 + d.val * 65536
  | .qredMin a d => 603979842 + a.val * 1024 + d.val * 65536
  | .qredMax a d => 671088706 + a.val * 1024 + d.val * 65536
  | .mattach r => 72 + r.val * 1048576
  | .mdetach => 1073741896
  | .mzeroT d => 2147483720 + d.val * 128
  | .mzeroZ d => 3221225544 + d.val * 128
  | .mldT d a _ => 73 + d.val * 128 + a.val * 33554432
  | .mldZ d a _ => 1073741897 + d.val * 128 + a.val * 33554432
  | .mldbm d b a _ => 2147483721 + d.val * 128 + b.val * 1048576 + a.val * 33554432
  | .mstT d a => 74 + d.val * 128 + a.val * 33554432
  | .mstZ d a => 1073741898 + d.val * 128 + a.val * 33554432
  | .mma d a b start ceil _ => 75 + d.val * 128 + a.val * 1024 + b.val * 8192 + start.val * 65536 + ceil.val * 262144
  | .mmaSp d a b start ceil _ => 1073741899 + d.val * 128 + a.val * 1024 + b.val * 8192 + start.val * 65536 + ceil.val * 262144
  | .mmaSs d a b start ceil _ => 2147483723 + d.val * 128 + a.val * 1024 + b.val * 8192 + start.val * 65536 + ceil.val * 262144
  | .mdrain z m a _ _ => 76 + z.val * 128 + m.val * 8192 + a.val * 33554432
  | .mdrainX z m i a _ _ => 1073741900 + z.val * 128 + m.val * 8192 + i.val * 1048576 + a.val * 33554432
  | .mdrainv z m d _ _ => 2147483724 + z.val * 128 + m.val * 8192 + d.val * 33554432
  | .cpy h a b r => 80 + h.val * 128 + a.val * 1024 + b.val * 32768 + r.toNat * 2147483648
  | .cpy2 h a b p r => 33554512 + h.val * 128 + a.val * 1024 + b.val * 32768 + p.val * 1048576 + r.toNat * 2147483648
  | .cpyG h a b i r => 67108944 + h.val * 128 + a.val * 1024 + b.val * 32768 + i.val * 1048576 + r.toNat * 2147483648
  | .cpyGd h a b i r => 100663376 + h.val * 128 + a.val * 1024 + b.val * 32768 + i.val * 1048576 + r.toNat * 2147483648
  | .cpyR h a b r => 134217808 + h.val * 128 + a.val * 1024 + b.val * 32768 + r.toNat * 2147483648
  | .cbatch => 81
  | .cwait n => 33554513 + n.val * 32768
  | .cstat h d s => 67108945 + h.val * 128 + d.val * 1024 + s.val * 1048576
  | .cack h => 100663377 + h.val * 128
  | .lzInit d b c => 82 + d.val * 1024 + b.val * 32768 + c.val * 1048576
  | .lzRes d b => 33554514 + d.val * 1024 + b.val * 32768
  | .lzWait b c => 67108946 + b.val * 32768 + c.val * 1048576
  | .lzFree b c => 100663378 + b.val * 32768 + c.val * 1048576
  | .lzScrub d b => 134217810 + d.val * 1024 + b.val * 32768
  | .lzFin b => 167772242 + b.val * 32768
  | .qsend h b a r => 83 + h.val * 128 + b.val * 32768 + a.val * 1048576 + r.toNat * 2147483648
  | .qrecv d b c => 33554515 + d.val * 1024 + b.val * 32768 + c.val * 1048576
  | _ => 0

/-- The leading word of an extended immediate, when its `n`-bit field cannot hold it. -/
def immLeading (n : Nat) (i : Int) : Option Nat :=
  if immOk n i then none else some (127 + 128 * (immField (n + 24) i / 2 ^ n))

/-- The leading word of modifiers, when one of them is written. -/
def modLeading (rm : Option Rounding) (sat : Bool) (hint : Hint) (ximm : Nat) : Option Nat :=
  if rm = none ∧ sat = false ∧ hint = .none ∧ ximm = 0 then none
  else some (127 + 128 * ximm + 33554432 * hint.code + 134217728 * sat.toNat + 268435456 * rmCode rm)

/-- The leading word an instruction needs (R130). -/
def leadingWord : Instr → Option Nat
  | .addi _ _ i => immLeading 12 i
  | .andi _ _ i => immLeading 12 i
  | .ori _ _ i => immLeading 12 i
  | .xori _ _ i => immLeading 12 i
  | .lui _ i => immLeading 20 i
  | .lb _ _ o => immLeading 12 o
  | .lh _ _ o => immLeading 12 o
  | .lw _ _ o => immLeading 12 o
  | .ld _ _ o => immLeading 12 o
  | .lbu _ _ o => immLeading 12 o
  | .lhu _ _ o => immLeading 12 o
  | .lwu _ _ o => immLeading 12 o
  | .sb _ _ o => immLeading 12 o
  | .sh _ _ o => immLeading 12 o
  | .sw _ _ o => immLeading 12 o
  | .sd _ _ o => immLeading 12 o
  | .bc _ _ o => immLeading 19 o
  | .bnc _ _ o => immLeading 19 o
  | .jal _ o => immLeading 20 o
  | .jalr _ _ i => immLeading 12 i
  | .cmpiEq _ _ i => immLeading 12 i
  | .cmpiLt _ _ i => immLeading 12 i
  | .cmpiLtu _ _ i => immLeading 12 i
  | .faddS _ _ _ rm => modLeading rm false .none 0
  | .faddD _ _ _ rm => modLeading rm false .none 0
  | .fsubS _ _ _ rm => modLeading rm false .none 0
  | .fsubD _ _ _ rm => modLeading rm false .none 0
  | .fmulS _ _ _ rm => modLeading rm false .none 0
  | .fmulD _ _ _ rm => modLeading rm false .none 0
  | .fdivS _ _ _ rm => modLeading rm false .none 0
  | .fdivD _ _ _ rm => modLeading rm false .none 0
  | .fsqrtS _ _ rm => modLeading rm false .none 0
  | .fsqrtD _ _ rm => modLeading rm false .none 0
  | .fminS _ _ _ rm => modLeading rm false .none 0
  | .fminD _ _ _ rm => modLeading rm false .none 0
  | .fmaxS _ _ _ rm => modLeading rm false .none 0
  | .fmaxD _ _ _ rm => modLeading rm false .none 0
  | .fmacS _ _ _ rm => modLeading rm false .none 0
  | .fmacD _ _ _ rm => modLeading rm false .none 0
  | .fcmpEqS _ _ _ rm => modLeading rm false .none 0
  | .fcmpEqD _ _ _ rm => modLeading rm false .none 0
  | .fcmpLtS _ _ _ rm => modLeading rm false .none 0
  | .fcmpLtD _ _ _ rm => modLeading rm false .none 0
  | .fcmpLeS _ _ _ rm => modLeading rm false .none 0
  | .fcmpLeD _ _ _ rm => modLeading rm false .none 0
  | .fcvtLS _ _ rm sat => modLeading rm sat .none 0
  | .fcvtLD _ _ rm sat => modLeading rm sat .none 0
  | .fcvtLuS _ _ rm sat => modLeading rm sat .none 0
  | .fcvtLuD _ _ rm sat => modLeading rm sat .none 0
  | .fcvtSL _ _ rm => modLeading rm false .none 0
  | .fcvtDL _ _ rm => modLeading rm false .none 0
  | .fcvtSLu _ _ rm => modLeading rm false .none 0
  | .fcvtDLu _ _ rm => modLeading rm false .none 0
  | .fcvtSD _ _ rm sat => modLeading rm sat .none 0
  | .fcvtDS _ _ rm => modLeading rm false .none 0
  | .sbegin o => immLeading 12 o
  | .vld _ _ _ _ hint => modLeading none false hint 0
  | .vldff _ _ _ hint => modLeading none false hint 0
  | .vlds _ _ _ _ _ hint => modLeading none false hint 0
  | .vldx _ _ _ _ _ _ hint => modLeading none false hint 0
  | .vldxFar _ _ _ _ _ _ hint => modLeading none false hint 0
  | .vldseg _ _ _ _ _ hint => modLeading none false hint 0
  | .vldsegP _ _ _ _ _ _ hint => modLeading none false hint 0
  | .vld2 _ _ _ _ hint => modLeading none false hint 0
  | .vadd _ _ _ _ _ _ rm sat => modLeading rm sat .none 0
  | .vsub _ _ _ _ _ _ rm sat => modLeading rm sat .none 0
  | .vmul _ _ _ _ _ _ rm sat => modLeading rm sat .none 0
  | .vdiv _ _ _ _ _ _ rm => modLeading rm false .none 0
  | .vrem _ _ _ _ _ _ rm => modLeading rm false .none 0
  | .vmin _ _ _ _ _ _ rm => modLeading rm false .none 0
  | .vmax _ _ _ _ _ _ rm => modLeading rm false .none 0
  | .vand _ _ _ _ _ _ rm => modLeading rm false .none 0
  | .vor _ _ _ _ _ _ rm => modLeading rm false .none 0
  | .vxor _ _ _ _ _ _ rm => modLeading rm false .none 0
  | .vsll _ _ _ _ _ _ rm => modLeading rm false .none 0
  | .vsrl _ _ _ _ _ _ rm => modLeading rm false .none 0
  | .vsra _ _ _ _ _ _ rm => modLeading rm false .none 0
  | .vmulh _ _ _ _ _ _ rm => modLeading rm false .none 0
  | .vaddX _ _ _ _ _ rm sat => modLeading rm sat .none 0
  | .vsubX _ _ _ _ _ rm sat => modLeading rm sat .none 0
  | .vmulX _ _ _ _ _ rm sat => modLeading rm sat .none 0
  | .vdivX _ _ _ _ _ rm => modLeading rm false .none 0
  | .vremX _ _ _ _ _ rm => modLeading rm false .none 0
  | .vminX _ _ _ _ _ rm => modLeading rm false .none 0
  | .vmaxX _ _ _ _ _ rm => modLeading rm false .none 0
  | .vandX _ _ _ _ _ rm => modLeading rm false .none 0
  | .vorX _ _ _ _ _ rm => modLeading rm false .none 0
  | .vxorX _ _ _ _ _ rm => modLeading rm false .none 0
  | .vsllX _ _ _ _ _ rm => modLeading rm false .none 0
  | .vsrlX _ _ _ _ _ rm => modLeading rm false .none 0
  | .vsraX _ _ _ _ _ rm => modLeading rm false .none 0
  | .vmulhX _ _ _ _ _ rm => modLeading rm false .none 0
  | .vfma _ _ _ _ _ _ rm sat => modLeading rm sat .none 0
  | .vfms _ _ _ _ _ _ rm sat => modLeading rm sat .none 0
  | .vfnma _ _ _ _ _ _ rm sat => modLeading rm sat .none 0
  | .vfnms _ _ _ _ _ _ rm sat => modLeading rm sat .none 0
  | .vcmpEq _ _ _ _ _ _ rm => modLeading rm false .none 0
  | .vcmpNe _ _ _ _ _ _ rm => modLeading rm false .none 0
  | .vcmpLt _ _ _ _ _ _ rm => modLeading rm false .none 0
  | .vcmpLe _ _ _ _ _ _ rm => modLeading rm false .none 0
  | .vcmpEqX _ _ _ _ _ rm => modLeading rm false .none 0
  | .vcmpNeX _ _ _ _ _ rm => modLeading rm false .none 0
  | .vcmpLtX _ _ _ _ _ rm => modLeading rm false .none 0
  | .vcmpLeX _ _ _ _ _ rm => modLeading rm false .none 0
  | .vcmpGtX _ _ _ _ _ rm => modLeading rm false .none 0
  | .vcmpGeX _ _ _ _ _ rm => modLeading rm false .none 0
  | .vscanSegAdd _ _ _ _ rm => modLeading rm false .none 0
  | .vscanSegMin _ _ _ _ rm => modLeading rm false .none 0
  | .vscanSegMax _ _ _ _ rm => modLeading rm false .none 0
  | .vredAdd _ _ _ _ _ _ rm => modLeading rm false .none 0
  | .vredMin _ _ _ _ _ _ rm => modLeading rm false .none 0
  | .vredMax _ _ _ _ _ _ rm => modLeading rm false .none 0
  | .vredAnd _ _ _ _ _ _ rm => modLeading rm false .none 0
  | .vredOr _ _ _ _ _ _ rm => modLeading rm false .none 0
  | .vredXor _ _ _ _ _ _ rm => modLeading rm false .none 0
  | .vfredOrd _ _ _ _ _ _ rm => modLeading rm false .none 0
  | .vcvt _ _ _ _ _ rm sat => modLeading rm sat .none 0
  | .vneg _ _ _ _ rm sat => modLeading rm sat .none 0
  | .vabs _ _ _ _ rm sat => modLeading rm sat .none 0
  | .vsqrt _ _ _ _ rm => modLeading rm false .none 0
  | .vexp2 _ _ _ _ rm => modLeading rm false .none 0
  | .vlog2 _ _ _ _ rm => modLeading rm false .none 0
  | .vrcp _ _ _ _ rm => modLeading rm false .none 0
  | .vrsqrt _ _ _ _ rm => modLeading rm false .none 0
  | .vbext _ _ _ _ _ _ len => modLeading none false .none (lenCode len)
  | .xaRd _ _ _ rm => modLeading rm false .none 0
  | .xaRdv _ _ _ rm => modLeading rm false .none 0
  | .xaLd _ _ hint => modLeading none false hint 0
  | .qld _ _ hint => modLeading none false hint 0
  | .qwalk _ _ hint => modLeading none false hint 0
  | .qwalkD _ _ hint => modLeading none false hint 0
  | .qisectMul _ _ _ rm sat => modLeading rm sat .none 0
  | .qunionAdd _ _ _ rm sat => modLeading rm sat .none 0
  | .qscale _ _ _ rm sat => modLeading rm sat .none 0
  | .qredAdd _ _ rm => modLeading rm false .none 0
  | .mldT _ _ hint => modLeading none false hint 0
  | .mldZ _ _ hint => modLeading none false hint 0
  | .mldbm _ _ _ hint => modLeading none false hint 0
  | .mma _ _ _ _ _ rm => modLeading rm false .none 0
  | .mmaSp _ _ _ _ _ rm => modLeading rm false .none 0
  | .mmaSs _ _ _ _ _ rm => modLeading rm false .none 0
  | .mdrain _ _ _ rm sat => modLeading rm sat .none 0
  | .mdrainX _ _ _ _ rm sat => modLeading rm sat .none 0
  | .mdrainv _ _ _ rm sat => modLeading rm sat .none 0
  | _ => none

/-- The words of an instruction: a leading word only where one is needed. -/
def encode (i : Instr) : List Nat :=
  match leadingWord i with
  | none => [encodeWord i]
  | some p => [p, encodeWord i]

/-- What the decoder reads from the words of `encode`. -/
noncomputable def decodeWords : List Nat → Decoding
  | [] => .illegal false
  | [w] => decode w 0
  | w1 :: w2 :: _ => decode w1 w2

/-- The opcode table's view of the decoder: bit 0 is the least significant bit of the first word, and the second word's
bits count on from it; bits the table does not give are zero. -/
noncomputable def decodeTableWord (_nbits w : Nat) : Option Instr :=
  match decode (w % 2 ^ 32) (w / 2 ^ 32 % 2 ^ 32) with
  | .instr i _ => some i
  | .illegal _ => none

end Sys2Proof
end

