-- ==== Sys2Proof/Machine/State.lean ====
section
/-! DEFINITION. Everything the spec gives the machine, as plain data: the harts with all their registers and engines,
the memories, and the blocks of the device. `State.reset` is the machine after device reset (01 R23, 02 R46, R52,
18 R301, 23 R374). Large registers are numbers: bit k of the number is bit k of the register's bytes, little-endian. -/

namespace Sys2Proof.Machine

/-- Why the machine stops. -/
inductive Fault where
  /-- Raised by the step when module power is off (R376, R380): nothing in the module can act. Safe: a stop. -/
  | noPower
deriving DecidableEq, Repr

/-- Why an instruction has no meaning here. -/
inductive Refusal where
  /-- Raised by the dispatch for an instruction whose meaning is not written. Safe: a stop. -/
  | notModelled (mnemonic : String)
deriving DecidableEq, Repr

/-! ### The state of one hart -/

/-- The levels of R299. -/
inductive Level where
  | user | kernel | monitor
deriving DecidableEq, Repr

/-- The states of R25; `empty` is a hart slot with no hart. -/
inductive Phase where
  | empty | active | monitor | switched | ended
deriving DecidableEq, Repr

/-- A vector register: up to 16 KiB, its tag (R36), the element groups a gather still owes (R37: the complement of the
presence bits), and whether its storage holds uncorrectable data (R356). -/
structure VReg where
  bits   : Nat := 0
  tag    : Tag := .none
  owed   : Nat := 0
  poison : Bool := false
deriving DecidableEq, Repr

/-- A mask (R38). -/
structure MReg where
  bits   : Nat := 0
  poison : Bool := false
deriving DecidableEq, Repr

/-- A fibre (R39): its n entries, each a coordinate and a value, its value tag and its sorted flag. `fresh`: nothing has
written its planes since the launch, so that they are zero above its entries too (R52). -/
structure QReg where
  entries : List (Nat × Nat) := []
  tag     : Tag := .none
  sorted  : Bool := true
  poison  : Bool := false
  fresh   : Bool := true
deriving DecidableEq, Repr

/-- An exact accumulator (R40): A as the integer its 4,352 bits are in two's complement, and the sticky bits. -/
structure EReg where
  a      : Int := 0
  nan    : Bool := false
  pinf   : Bool := false
  ninf   : Bool := false
  poison : Bool := false
deriving DecidableEq, Repr

/-- A tile's last (R42). -/
structure Shape where
  bm   : Bool := false
  pk   : Bool := false
  cols : Nat := 0
  rows : Nat := 0
  tag  : Tag := .none
deriving DecidableEq, Repr

/-- An operand tile with its bitmap and last (R41, R42). -/
structure TReg where
  bits   : Nat := 0
  bitmap : Nat := 0
  shape  : Shape := {}
  poison : Bool := false
deriving DecidableEq, Repr

/-- An accumulator tile with its last. -/
structure ZReg where
  bits   : Nat := 0
  shape  : Shape := {}
  poison : Bool := false
deriving DecidableEq, Repr

/-- The matrix context of an attached hart (R41, R218). -/
structure TileCtx where
  /-- MGRANT. -/
  rows    : Nat := 0
  t       : Vector TReg 8 := Vector.replicate 8 {}
  z       : Vector ZReg 4 := Vector.replicate 4 {}
  /-- MSTAT.CEILX and MSTAT.RUNG; ATT is that the context is held. -/
  ceilx   : Bool := false
  rung    : Fin 4 := 0
  mreplay : Vector Word 4 := Vector.replicate 4 0
deriving DecidableEq, Repr

/-- VCFG (R47). -/
structure Vcfg where
  tag  : Tag := .none
  lgrp : Nat := 0
  hold : Bool := false
deriving DecidableEq, Repr

/-- The five IEEE flags of FCSR (R47). -/
structure Flags where
  nv : Bool := false
  dz : Bool := false
  of : Bool := false
  uf : Bool := false
  nx : Bool := false
deriving DecidableEq, Repr

/-- FCSR (R47). -/
structure Fcsr where
  rm    : BitVec 3 := 0
  sat   : Bool := false
  flags : Flags := {}
deriving DecidableEq, Repr

/-- QPOS (R47). -/
structure Qpos where
  po : Nat := 0
  pb : Nat := 0
  pa : Nat := 0
deriving DecidableEq, Repr

/-- MBUDGET (R47). -/
structure Mbudget where
  cbits : Nat := 24
  canb  : Nat := 0
  ufb   : Nat := 0
  satb  : Nat := 0
deriving DecidableEq, Repr

/-- STATE of a channel (R234). -/
inductive ChState where
  | idle | running | done | failed
deriving DecidableEq, Repr

/-- The forms of a copy command (R236) and `qsend`. -/
inductive CopyForm where
  | cpy | cpy2 | cpyG | cpyGd | cpyR | qsend
deriving DecidableEq, Repr

/-- A copy command with the operands read at issue (R237, R354). -/
structure CopyCmd where
  form  : CopyForm := .cpy
  rel   : Bool := false
  tag   : Tag := .none
  itag  : Tag := .none
  batch : Nat := 0
  xa    : Word := 0
  xb    : Word := 0
  xc    : Word := 0
  n     : Nat := 0
  vl    : Nat := 0
  pitch : Word := 0
  /-- The level, the root table and the ASID at issue, which its translations use (R301, DESIGN CHOICE, log 13). -/
  user  : Bool := true
  root  : Word := 0
  asid  : Nat := 0
  /-- Captured indices of `cpy.g` and `cpy.gd`. -/
  idx   : List Int := []
  /-- The message image of a `qsend` (R249). -/
  msg   : List Byte := []
deriving DecidableEq, Repr

/-- A copy channel (R234, R241). -/
structure Channel where
  state    : ChState := .idle
  code     : Nat := 0
  pend     : Bool := false
  desc     : Bool := false
  rem      : Bool := false
  cwm      : Word := 0
  progress : Nat := 0
  failAddr : Word := 0
  dest     : Word := 0
  cmd      : Option CopyCmd := none
  /-- The first request of a transfer has been accepted (R246). -/
  begun    : Bool := false
  /-- Elements, or bytes of a `qsend`, already sent of a transfer to another device. -/
  sent     : Nat := 0
  /-- Payload bytes of a transfer that its engine has read and not yet sent (R104). -/
  ahead    : List Byte := []
deriving DecidableEq, Repr

/-- The translation that an access was checked under (R338): its address, log2 of the page, the ASID, whether it is
global. -/
structure Pin where
  addr : Nat
  page : Nat := 15
  asid : Nat := 0
  glob : Bool := false
deriving DecidableEq, Repr

/-- A prefetched strip: its values and the translations that it was read through (R176, R338). -/
structure Fetched where
  vals : List Nat
  pins : List Pin
deriving DecidableEq, Repr

/-- A stream binding and its prefetched strips (R175, R176). -/
structure Stream where
  bound  : Bool := false
  group  : Nat := 0
  lgrp   : Nat := 0
  tag    : Tag := .none
  base   : Word := 0
  stride : Word := 0
  pos    : Word := 0
  strips : List Fetched := []
deriving DecidableEq, Repr

/-- A buffered access of a guarded strip (R265, R354): address, log2 of the size, the scope of a `.rel`, data, the
half of its byte that an fp4 element is (R94), and the pinned translation (R338): the physical address, none in the window,
log2 of its page, its ASID, whether it is global. -/
structure StripRec where
  addr : Nat
  size : Nat
  rel  : Option Scope
  data : Nat
  half : Option Bool := none
  pin  : Option Nat := none
  page : Nat := 15
  asid : Nat := 0
  glob : Bool := false
deriving DecidableEq, Repr

/-- An open guarded strip: its recovery address, the level it was opened at (DEDUCED, log 20), its accesses in program order. -/
structure Strip where
  recovery : Word
  level    : Level
  recs     : List StripRec
deriving DecidableEq, Repr

/-- What a hart that issues nothing waits for (R25, R233, R247). -/
inductive Wait where
  /-- `waitge` (ge) or `waiteq`: destination, bytes, scope, address, value. -/
  | location (ge : Bool) (d : XReg) (bytes : Nat) (sc : Scope) (addr val : Word)
  | copies (n : Nat)
  | arrivals (handle count : Word)
  | phase (sc : Scope) (addr val : Word)
  /-- An engine command whose channel is running, and the streams that its acceptance moves on (R176). -/
  | channel (ch : ChNum) (cmd : CopyCmd) (uses : List SNum)
  /-- `lz.res` of a zone on another device. -/
  | reply (d : XReg) (dev : Nat)
  /-- `kret` of a switch-pending hart (R349). -/
  | switchOut
deriving DecidableEq, Repr

/-- The privileged registers of a hart (R301). -/
structure Priv where
  level    : Level := .user
  aie      : Bool := false
  ppl      : BitVec 2 := 0
  tvec     : Word := 0
  epc      : Word := 0
  cause    : Word := 0
  faddr    : Word := 0
  finfo    : Word := 0
  scratch  : Word := 0
  ptbase   : Word := 0
  asid     : Word := 0
  vlcap    : Nat := 16
  monvec   : Word := 0
  monpc    : Word := 0
  moncause : Word := 0
  monaddr  : Word := 0
  moninfo  : Word := 0
  monppl   : BitVec 2 := 0
  monspill : Word := 0
  /-- The partition that the partition window shows (R301); held per hart (DEDUCED, log 15). -/
  psel     : Fin 8 := 0
deriving DecidableEq, Repr

/-- Where a hart is placed and for which launch (R321). -/
structure Place where
  hid      : Nat := 0
  launch   : Nat := 0
  part     : Fin 8 := 0
  core     : Nat := 0
  slot     : Nat := 0
  cbase    : Nat := 0
  grant    : Nat := 1
  pieces   : List Nat := []
  saveslot : Nat := 0
  hartNo   : Nat := 0
  harts    : Nat := 0
deriving DecidableEq, Repr

/-- A hart. -/
structure Hart where
  phase     : Phase := .empty
  waiting   : Option Wait := none
  place     : Place := {}
  priv      : Priv := {}
  pc        : Word := 0
  x         : Vector Word 32 := Vector.replicate 32 0
  c         : Vector Bool 8 := Vector.replicate 8 false
  v         : Vector VReg 32 := Vector.replicate 32 {}
  m         : Vector MReg 8 := Vector.replicate 8 {}
  q         : Vector QReg 8 := Vector.replicate 8 {}
  e         : Vector EReg 4 := Vector.replicate 4 {}
  tile      : Option TileCtx := none
  /-- The effective cluster count Ge (R303). -/
  ge        : Nat := 1
  vl        : Nat := 0
  vsi       : Nat := 0
  vcfg      : Vcfg := {}
  rows      : Nat := 1
  pitch     : Word := 0
  fcsr      : Fcsr := {}
  qpos      : Qpos := {}
  mbudget   : Mbudget := {}
  ch        : Vector Channel 8 := Vector.replicate 8 {}
  /-- Number of the open batch (R240). -/
  batch     : Nat := 0
  streams   : Vector Stream 8 := Vector.replicate 8 {}
  farmid    : Word := 0
  fbase     : Word := 0
  ffault    : Word := 0xFFFFFFFFFFFFFFFF
  noStrips  : Bool := false
  discarded : Bool := false
  /-- Bit p: window page p is discardable (R87). -/
  disc      : Nat := 0
  strip     : Option Strip := none
  cycle     : Word := 0
  instret   : Word := 0
  /-- A pending 0x20, with its RETIRE bit (R345, R346). -/
  pend20    : Option Bool := none
  /-- A pending 0x21, with the posted count. -/
  pend21    : Option Nat := none
  /-- A pending 0x22, with the host's value. -/
  pend22    : Option (BitVec 32) := none
  switchPending : Bool := false
  /-- The posted count of a reclaim (R29). -/
  reclaim   : Option Nat := none
  /-- Lowest address of this hart's bytes discarded with a path lost for good, not yet reported (R371). -/
  lostBytes : Option Word := none
  /-- The fetched word and whether it is the second of a pair: INSTR and PAIR of FINFO (R346). -/
  iword     : BitVec 32 := 0
  ipair     : Bool := false
  /-- MODEL. The elements that a divisible instruction performs in this turn before it stops (R19, DESIGN CHOICE, log 61); none: all
  of them. -/
  limit     : Option Nat := none
deriving DecidableEq, Repr

/-! ### The device -/

/-- A landing zone (R242, R243). Its header and slot table stand in the scratchpad's bytes. -/
structure Zone where
  core   : Nat
  num    : Nat
  owner  : Nat
  part   : Fin 8
  pieces : List Nat
  base   : Nat
  slots  : Nat
  loge   : Nat
deriving DecidableEq, Repr

/-- Whose transfer holds a slot of a zone that is RESERVED or FILLING: the far chiplet of the sender (R369), and, once
filling, the transfer, its payload and FIB. -/
structure Fill where
  core : Nat
  zone : Nat
  slot : Nat
  chip : Nat
  xfer : Option Transfer
  size : Nat
  fib  : Bool
deriving DecidableEq, Repr

/-- What a path leaves to do when it returns (R251 step 3): the zone that tore an eyelet and is to step GEN, and the outcome to report of
another device's transfer, `full` where only the acknowledgement was lost. -/
structure Torn where
  path   : Path
  core   : Nat
  zone   : Nat
  ticket : Option Word
  full   : Bool := false
deriving DecidableEq, Repr

/-- A byte that a hart has written into a cached line and that has not gone out (R80, R110): its offset, the hart, the
address it stored to, the value, and the half of the byte when only that was written (R94). -/
structure Dirty where
  off  : Nat
  hid  : Nat
  va   : Nat
  byte : Byte
  half : Option Bool := none
deriving DecidableEq, Repr

/-- A copy of a line of remote memory (R77, R80): what holds it, its line address, its 128 bytes as filled or last written back, the
dirty bytes, oldest first, and its poisoned sectors (R356). DEDUCED, log 10. -/
structure RLine where
  holder : Cache
  line   : Nat
  data   : Nat
  dirty  : List Dirty := []
  poison : List (Nat × BitVec 32) := []
deriving DecidableEq, Repr

/-- An entry of a translation cache (R337): what holds it, partition, ASID, G, level, the part of the address above what it spans, and
the table entry as it was read. -/
structure TransEntry where
  holder : Cache
  part  : Fin 8
  asid  : Nat
  glob  : Bool
  lvl   : Nat
  page  : Nat
  entry : Nat
deriving DecidableEq, Repr

/-- Storage that an uncorrectable error strikes (R347, R356). -/
inductive Storage where
  | v (r : VNum) | m (r : MNum) | q (r : QNum) | e (r : ENum) | t (r : TNum) | z (r : ZNum)
  /-- A 32-byte sector of the scratchpads, by a byte in it. -/
  | spad (i : Nat)
  /-- A 32-byte sector of a cached line, by its holder and a physical address in it. -/
  | line (holder : Cache) (pa : Nat)
deriving DecidableEq, Repr

/-- MODEL. What the spec lets happen between the steps of its table, at a time it leaves open (DESIGN CHOICE, log 61). -/
inductive Chance where
  /-- The hart whose turn it is stops its divisible instruction after so many elements (R19). -/
  | divide (n : Nat)
  /-- A translation cache of the hart's core, or of its chiplet, takes the entry of a level on the path of an address (R337). -/
  | cacheEntry (chip : Bool) (lvl va : Nat)
  /-- A translation cache drops an entry. -/
  | dropEntry (n : Nat)
  /-- A first-level cache hands a remote line with its dirty bytes to its chiplet's CAC (R80). -/
  | spillLine (core : Fin 128) (line : Nat)
  /-- Another device writes its own memory (R90, R112). -/
  | otherDevice (pa : Nat) (data : List Byte)
  /-- The device of a remote line refuses accesses to it, or serves them again (R335). -/
  | refuse (line : Nat) (on : Bool)
  /-- An uncorrectable error strikes storage of the hart, a scratchpad or a cached line. -/
  | strike (w : Storage)
deriving DecidableEq, Repr

/-- A barrier object that is live (R261). -/
structure Barrier where
  addr : Nat
  part : Fin 8
deriving DecidableEq, Repr

/-- A partition's registers (R307, R309), its reserved launch and that launch's target cores (R322). -/
structure Partition where
  en      : Bool := false
  err     : Bool := false
  core0   : Word := 0
  core1   : Word := 0
  base    : Nat := 0
  size    : Nat := 0
  pcac    : Nat := 4
  pmrows  : Nat := 4
  pfunc   : Nat := 0
  count   : Nat := 0
  first   : Nat := 0
  ltvec   : Word := 0
  lroot   : Word := 0
  lvlcap  : Nat := 16
  lasid   : Nat := 0
  reserved : Option (Nat × List Nat) := none
deriving DecidableEq, Repr

/-- A partition's scheduler block (R318). -/
structure Sched where
  rclto    : Nat := 1048576
  ageth    : Nat := 16777216
  quant    : Nat := 1048576
  racken   : Bool := false
  preempt  : Bool := true
  rackaddr : Word := 0
  rptint   : Nat := 0
deriving DecidableEq, Repr

/-- A work queue (R311): its waiting packets, an accepted head that still holds its entry, ACC, DROP and the deficit. -/
structure Queue where
  packets : List (List Word) := []
  head    : Option Nat := none
  acc     : BitVec 16 := 0
  drop    : BitVec 16 := 0
  deficit : Int := 0
deriving DecidableEq, Repr

/-- The states of R21. -/
inductive LState where
  | queued | waiting | ready | running | draining | done | rejected
deriving DecidableEq, Repr

/-- A strip farm (R31). -/
structure Farm where
  live      : Bool := false
  exhausted : Bool := false
  counter   : Nat := 0
  extent    : Nat := 0
  strip     : Nat := 1
  joined    : List Nat := []
  id        : Word := 0
deriving DecidableEq, Repr

/-- A launch that has left its queue's waiting packets (R21, R312). -/
structure Launch where
  id       : Nat
  queue    : Nat
  part     : Fin 8
  words    : List Word
  args     : List Word := []
  state    : LState := .queued
  status   : Nat := 0
  /-- Harts placed so far, the grant of the first, the home chiplet. -/
  placed   : Nat := 0
  grant    : Nat := 0
  home     : Nat := 0
  /-- When it last became a candidate, and the effective priority it kept when it stopped being one (R319). -/
  since    : Nat := 0
  prio     : Nat := 0
  /-- The order in which launches were placed (R323). -/
  order    : Nat := 0
  /-- It holds a farm counter of its home chiplet (R326). -/
  counter  : Bool := false
  farm     : Farm := {}
deriving DecidableEq, Repr

/-- The welt routing block (R362): each table is 32 bits, chiplet 0 first. `old`: the tables of the generation before, which its packets
still in flight are routed by (R363). -/
structure Welt where
  gen   : BitVec 8 := 0
  pend  : Bool := false
  err   : Bool := false
  stg   : Vector (BitVec 32) 8
  cur   : Vector (BitVec 32) 8
  old   : Vector (BitVec 32) 8
  fail  : BitVec 32 := 0
deriving DecidableEq, Repr

/-- STATE of a Nirmus port (R367). -/
inductive PortState where
  | down | training | up | failed
deriving DecidableEq, Repr

/-- A data flit in a replay buffer (R365): its sequence number, destination and payload, how often it was replayed in a row, and
whether a replay is held back (R368). -/
structure Pending where
  seq   : BitVec 32
  dst   : Fin 256
  data  : List Byte
  tries : Nat := 0
  held  : Bool := false
deriving DecidableEq, Repr

/-- A Nirmus port (R364 to R368). -/
structure Port where
  state   : PortState := .down
  pf      : Bool := false
  fpl     : Nat := 0
  keyx    : Bool := false
  rply    : BitVec 16 := 0
  tkey    : Vector Word 4 := Vector.replicate 4 0
  rkey    : Vector Word 4 := Vector.replicate 4 0
  tsalt   : Word := 0
  rsalt   : Word := 0
  trdy    : Bool := false
  rrdy    : Bool := false
  ncnt    : BitVec 32 := 0
  /-- Keys and salts in use, and the key epochs of the two directions. -/
  txKey   : Vector Word 4 := Vector.replicate 4 0
  txSalt  : Word := 0
  txKep   : Bool := false
  rxKey   : Vector Word 4 := Vector.replicate 4 0
  rxSalt  : Word := 0
  rxKep   : Bool := false
  seq     : BitVec 32 := 0
  replay  : List Pending := []
deriving DecidableEq, Repr

/-- The service block (R374) and its snapshot region (R378). -/
structure Service where
  ready   : BitVec 33 := 0
  perr    : Bool := false
  state   : Fin 4 := 0
  cmd     : Fin 4 := 0
  intdrop : Word := 0
  snapseq : BitVec 32 := 0
  snap    : List (Nat × Word) := []
  retaddr : Word := 0
  retstat : Fin 4 := 0
  tmax    : BitVec 8 := 0
  alert   : Bool := false
  /-- The compute chiplets that PS3 powered off: no packet is accepted until they are ready again (R376). -/
  slept   : BitVec 33 := 0
deriving DecidableEq, Repr

/-- A controller's error log (R357): records of four words, oldest first. -/
structure ErrLog where
  recs : List (List Word) := []
  ce   : Word := 0
  ue   : Word := 0
  rp   : Word := 0
  ovf  : Word := 0
deriving DecidableEq, Repr

/-- What leaves the module towards the host, the rack or another device. -/
inductive Message where
  | msix (function vector : Nat)
  | felob (port : Nat)
  | hostData (addr : Nat) (data : List Byte)
  /-- A message to a rack node: its endpoint, and the message's words (R329, R330). -/
  | rack (dest : Word) (words : List Word)
  | reserve (dev : Nat) (handle : Word)
  | reserveReply (dev : Nat) (value : Word) (c7 : Bool)
  | firstRequest (dev : Nat) (ticket : Word) (size : Nat) (fib : Bool)
  | payload (dev : Nat) (ticket : Word) (data : List Byte)
  | transferFailed (dev : Nat) (ticket : Word)
  | refusal (dev : Nat) (ticket : Word) (code : Nat)
  | acknowledge (dev : Nat) (ticket : Word) (bytes : Nat) (full : Bool)
  | outcome (dev : Nat) (ticket : Word) (full : Bool)
  /-- The 129 words of a flit (R364). -/
  | flit (port : Nat) (words : List (BitVec 72))
  | delivered (port : Nat) (source : Nat) (payload : List Byte)
deriving DecidableEq, Repr

/-- The machine. -/
structure State where
  /-- The hart whose turn it is; the other harts of the device, in turn order. -/
  hart     : Hart := {}
  parked   : List Hart := []
  /-- 52-bit physical memory (R335): HBM4, host memory, remote devices. -/
  mem      : List Host.Cell := []
  /-- The scratchpads: byte o of core c is at c × 2 MiB + o. -/
  spad     : List Host.Cell := []
  rcache   : List RLine := []
  /-- Poisoned 32-byte sectors, each with its bytes not yet written again (R356), of memory and of the scratchpads. -/
  poison   : List (Nat × BitVec 32) := []
  spadPoison : List (Nat × BitVec 32) := []
  /-- The translation caches (R337), and the remote lines whose device refuses accesses (R335). -/
  tlb      : List TransEntry := []
  refused  : List Nat := []
  barriers : List Barrier := []
  zones    : List Zone := []
  fills    : List Fill := []
  parts    : Vector Partition 8 := Vector.replicate 8 {}
  scheds   : Vector Sched 8 := Vector.replicate 8 {}
  queues   : List (Nat × Queue) := []
  launches : List Launch := []
  welt     : Welt
  ports    : Vector Port 4 := Vector.replicate 4 {}
  service  : Service := {}
  logs     : Vector ErrLog 16 := Vector.replicate 16 {}
  /-- Retired clusters (core, cluster), retired cores, matrix rows ÷ 32 retired per core and pending (R380). -/
  retClusters : List (Nat × Nat) := []
  retCores    : List Nat := []
  retRows     : List (Nat × Nat) := []
  retRowsPend : List Nat := []
  /-- Cluster and core retirements whose harts are still to be switched out; the address whose row is being repaired. -/
  retiring : List (Nat × Option Nat) := []
  repairing : Option Nat := none
  /-- Paths declared lost, and lost for good (R251, R369, R370). -/
  lost     : List Path := []
  lostGood : List Path := []
  /-- What the zones of this device must report and step when a path returns (R251 step 3), and the transfers of other devices whose
  eyelets are FULL, with the sender and its ticket: their acknowledgement may yet be lost. -/
  torn     : List Torn := []
  fulls    : List (Fin 256 × Word) := []
  /-- Module power, and what the accepted configuration says (R379, R335). -/
  power    : Bool := true
  accepted : Bool := false
  /-- The configuration image failed: nothing but configuration space and Felob's mailbox responds (R379). -/
  silent   : Bool := false
  device   : Fin 256 := 0
  domain   : List (Fin 256) := []
  /-- Scheduler time, the next launch number, the next hart number, the next placement order. -/
  time     : Nat := 0
  nextLaunch : Nat := 0
  nextHart : Nat := 1
  nextOrder : Nat := 0
  /-- MODEL. What the outside and the engines do next, first (DESIGN CHOICE, log 5); what has left the module. -/
  agenda   : List Instr := []
  /-- MODEL. What happens after that, before the next turn (DESIGN CHOICE, log 61). -/
  chances  : List Chance := []
  outbox   : List Message := []
  /-- MODEL. The counter that a free value is taken at (DESIGN CHOICE, log 60). -/
  freeCtr  : Nat := 0
deriving DecidableEq, Repr

/-- Dimension-order routing (R362): the link from chiplet c towards d. -/
def dimensionLink (c d : Nat) : Nat :=
  let k := (d % 4 + 4 - c % 4) % 4
  if c = d then 7 else if k = 3 then 1 else if k ≠ 0 then 0 else 2

/-- A chiplet's table of R362: four bits for each destination. -/
def dimensionTable (c : Nat) : BitVec 32 :=
  BitVec.ofNat 32 ((List.range 8).foldr (fun d acc => acc + dimensionLink c d * 2 ^ (4 * d)) 0)

/-- The dimension-order tables of all chiplets. -/
def dimensionTables : Vector (BitVec 32) 8 := Vector.ofFn fun c => dimensionTable c.val

/-- The machine after device reset: every block at its reset value, no hart, no launch, memory with nothing listed. -/
def State.reset : State := { welt := { stg := dimensionTables, cur := dimensionTables, old := dimensionTables } }

end Sys2Proof.Machine
end

