-- ==== Sys2Proof/Machine/Bits.lean ====
section
/-! DEFINITION. Bit fields of numbers, two's complement, and byte order (00 R5): the helpers the meanings share. -/

namespace Sys2Proof.Machine

/-- Bits [off+len−1:off] of a number. -/
def bitsAt (n off len : Nat) : Nat := (n >>> off) % 2 ^ len

/-- A number with its bits [off+len−1:off] replaced. -/
def setBitsAt (n off len v : Nat) : Nat :=
  ((n >>> (off + len)) <<< (off + len)) + ((v % 2 ^ len) <<< off) + n % 2 ^ off

/-- One bit of a number. -/
def bitAt (n i : Nat) : Bool := (n >>> i) % 2 == 1

/-- A number with bit `i` set to `b`. -/
def setBitAt (n i : Nat) (b : Bool) : Nat := setBitsAt n i 1 b.toNat

/-- A `w`-bit pattern read as two's complement. -/
def toSigned (w v : Nat) : Int := if v % 2 ^ w < 2 ^ (w - 1) then (v % 2 ^ w : Nat) else ((v % 2 ^ w : Nat) : Int) - 2 ^ w

/-- The `w`-bit two's-complement pattern of an integer (R54). -/
def ofInt (w : Nat) (i : Int) : Nat := (i % 2 ^ w).toNat

/-- The low `n` bytes of a number, lowest first (R5). -/
def bytesOf : Nat → Nat → List Byte
  | 0, _ => []
  | n + 1, v => BitVec.ofNat 8 v :: bytesOf n (v / 256)

/-- The number a little-endian list of bytes stands for. -/
def ofBytes : List Byte → Nat
  | [] => 0
  | b :: bs => b.toNat + 256 * ofBytes bs

/-- Rounding up to a power of two's exponent: the least k with n ≤ 2^k. -/
def ceilLog2 (n : Nat) : Nat := if n ≤ 1 then 0 else (n - 1).log2 + 1

/-- Bits set in the low `n` bits. -/
def popCount : Nat → Nat → Nat
  | 0, _ => 0
  | n + 1, v => v % 2 + popCount n (v / 2)

/-- Position of the lowest set bit among the low `n`, or `n`. -/
def lowestBit : Nat → Nat → Nat
  | 0, _ => 0
  | n + 1, v => if v % 2 = 1 then 0 else 1 + lowestBit n (v / 2)

/-- The low `w` bits with their order of bytes reversed (`n` bytes). -/
def byteSwap (n v : Nat) : Nat := ofBytes (bytesOf n v).reverse

/-- Left rotation of a `w`-bit pattern. -/
def rotl (w v k : Nat) : Nat := (v <<< (k % w) + v >>> (w - k % w)) % 2 ^ w

/-- The number of leading zeros of a 64-bit pattern. -/
def clz64 (v : Nat) : Nat := if v = 0 then 64 else 63 - v.log2

/-- Truncated division of integers, rounding toward zero; the divisor is not 0. -/
def quotTowardZero (a b : Int) : Int := Int.tdiv a b

end Sys2Proof.Machine
end

