-- ==== Sys2Proof/Machine/Formats.lean ====
section
/-! DEFINITION. Element tags and floating-point formats (03 R53 to R58), and the promotion of mixed tags (R64, R65). -/

namespace Sys2Proof.Machine

/-- Width in bits (R53); `none` has none. -/
def tagBits : Tag → Nat
  | .none => 0 | .fp4 => 4
  | .i8 => 8 | .ui8 => 8 | .e4m3 => 8 | .e5m2 => 8 | .sc8 => 8
  | .i16 => 16 | .ui16 => 16 | .bf16 => 16 | .fp16 => 16
  | .i32 => 32 | .ui32 => 32 | .fp32 => 32
  | .i64 => 64 | .ui64 => 64 | .fp64 => 64

/-- A signed integer tag. -/
def tagSigned : Tag → Bool
  | .i8 => true | .i16 => true | .i32 => true | .i64 => true | _ => false

/-- An unsigned integer tag. -/
def tagUnsigned : Tag → Bool
  | .ui8 => true | .ui16 => true | .ui32 => true | .ui64 => true | _ => false

/-- An integer tag. -/
def tagInt (t : Tag) : Bool := tagSigned t || tagUnsigned t

/-- How a format spends its top encodings (R55). -/
inductive FmtKind where
  | ieee | e4m3 | fp4
deriving DecidableEq, Repr

/-- A floating-point format: exponent and fraction bits (R55). -/
structure Fmt where
  ebits : Nat
  mbits : Nat
  kind  : FmtKind
deriving DecidableEq, Repr

/-- The format of a floating tag. -/
def tagFmt : Tag → Option Fmt
  | .fp4 => some ⟨2, 1, .fp4⟩
  | .e4m3 => some ⟨4, 3, .e4m3⟩
  | .e5m2 => some ⟨5, 2, .ieee⟩
  | .bf16 => some ⟨8, 7, .ieee⟩
  | .fp16 => some ⟨5, 10, .ieee⟩
  | .fp32 => some ⟨8, 23, .ieee⟩
  | .fp64 => some ⟨11, 52, .ieee⟩
  | _ => none

/-- A floating tag. -/
def tagFloat (t : Tag) : Bool := (tagFmt t).isSome

/-- fp32. -/
def fmt32 : Fmt := ⟨8, 23, .ieee⟩
/-- fp64. -/
def fmt64 : Fmt := ⟨11, 52, .ieee⟩

/-- The bias. -/
def Fmt.bias (f : Fmt) : Int := 2 ^ (f.ebits - 1) - 1
/-- Significand bits p, the hidden bit included. -/
def Fmt.p (f : Fmt) : Nat := f.mbits + 1
/-- The exponent of the smallest normal value. -/
def Fmt.emin (f : Fmt) : Int := 1 - f.bias
/-- Width in bits. -/
def Fmt.width (f : Fmt) : Nat := 1 + f.ebits + f.mbits
/-- The bits of a sign, a biased exponent and a fraction. -/
def Fmt.pack (f : Fmt) (neg : Bool) (e m : Nat) : Nat := neg.toNat * 2 ^ (f.ebits + f.mbits) + e * 2 ^ f.mbits + m
/-- The largest finite value as an integer times a power of two. -/
def Fmt.maxFinite (f : Fmt) : Nat × Int :=
  match f.kind with
  | .ieee => (2 ^ f.p - 1, f.bias - f.mbits)
  | .e4m3 => (14, 5)
  | .fp4 => (3, 1)
/-- The bits of the largest finite value of a sign. -/
def Fmt.maxBits (f : Fmt) (neg : Bool) : Nat :=
  match f.kind with
  | .ieee => f.pack neg (2 ^ f.ebits - 2) (2 ^ f.mbits - 1)
  | .e4m3 => f.pack neg 15 6
  | .fp4 => f.pack neg 3 1
/-- The canonical NaN (R58); fp4 has none and stores +0 (R382). -/
def Fmt.nanBits (f : Fmt) : Nat :=
  match f.kind with
  | .ieee => f.pack false (2 ^ f.ebits - 1) (2 ^ (f.mbits - 1))
  | .e4m3 => 0x7F
  | .fp4 => 0
/-- The zero of a sign. -/
def Fmt.zeroBits (f : Fmt) (neg : Bool) : Nat := f.pack neg 0 0
/-- The infinity of a sign, of a format that has one. -/
def Fmt.infBits (f : Fmt) (neg : Bool) : Nat := f.pack neg (2 ^ f.ebits - 1) 0

/-- What a pattern stands for: (−1)^neg × m × 2^e, an infinity, or a NaN. -/
inductive FVal where
  | fin (neg : Bool) (m : Nat) (e : Int)
  | inf (neg : Bool)
  | nan (signalling : Bool)
deriving DecidableEq, Repr

/-- The value of an encoding (R55, R56, R58). DEDUCED, log 42. -/
def Fmt.value (f : Fmt) (bits : Nat) : FVal :=
  let frac := bitsAt bits 0 f.mbits
  let ex := bitsAt bits f.mbits f.ebits
  let neg := bitAt bits (f.ebits + f.mbits)
  let top := 2 ^ f.ebits - 1
  if f.kind = .ieee ∧ ex = top then
    if frac = 0 then .inf neg else .nan (!bitAt frac (f.mbits - 1))
  else if f.kind = .e4m3 ∧ ex = top ∧ frac = 7 then .nan false
  else if ex = 0 then .fin neg frac (f.emin - f.mbits)
  else .fin neg (2 ^ f.mbits + frac) (ex - f.bias - f.mbits)

/-- A value's negation. -/
def FVal.neg : FVal → FVal
  | .fin s m e => .fin (!s) m e
  | .inf s => .inf (!s)
  | .nan q => .nan q

/-- A signalling NaN. -/
def FVal.isSig : FVal → Bool
  | .nan true => true
  | _ => false

/-- A NaN of either kind. -/
def FVal.isNan : FVal → Bool
  | .nan _ => true
  | _ => false

/-- The scale 2^(E−127) of an sc8 byte; 255 is the NaN scale (R57). -/
def sc8Value (bits : Nat) : FVal := if bits % 256 = 255 then .nan false else .fin false 1 ((bits % 256 : Nat) - 127)

/-- The value sets of R64 as ranges: for an integer tag its bounds, for a floating tag its format. `contains t u` says
that every value of `u` is a value of `t`. An integer m ≤ 2^p fits a format exactly when its significand and exponent do. -/
def tagContains (t u : Tag) : Bool :=
  if t = u then true
  else match tagFmt t, tagFmt u with
    | some f, some g =>
      -- NaN and infinities of u must be values of t too, except where R65's table joins fp4 and e4m3 to wider formats
      f.p ≥ g.p && decide (f.emin - f.mbits ≤ g.emin - g.mbits) &&
        decide ((g.maxFinite.1 : Int) * 2 ^ (g.maxFinite.2 + 1100).toNat ≤ (f.maxFinite.1 : Int) * 2 ^ (f.maxFinite.2 + 1100).toNat) &&
        (g.kind != .ieee || f.kind == .ieee)
    | some f, none =>
      if tagInt u then
        let mag := if tagSigned u then tagBits u - 1 else tagBits u
        decide (mag ≤ f.p) && decide ((2 : Int) ^ mag ≤ (f.maxFinite.1 : Int) * 2 ^ f.maxFinite.2.toNat)
      else false
    | none, some _ => false
    | none, none =>
      if tagSigned t then
        (tagSigned u && tagBits u ≤ tagBits t) || (tagUnsigned u && tagBits u < tagBits t)
      else tagUnsigned t && tagUnsigned u && tagBits u ≤ tagBits t

/-- An index element extended by class to 64 bits (R169). -/
def indexInt (t : Tag) (bits : Nat) : Int := if tagSigned t then toSigned (tagBits t) bits else (bits : Int)

/-- A fibre's value in the low bits of its entry under a tag; the high bytes are zero (R39). -/
def narrowValue (t : Tag) (v : Nat) : Nat := if t = .none then v else v % 2 ^ tagBits t

/-- The candidates of R64 in order. -/
def promotionOrder : List Tag :=
  [.fp4, .i8, .ui8, .e4m3, .e5m2, .i16, .ui16, .fp16, .bf16, .i32, .ui32, .fp32, .i64, .ui64, .fp64]

/-- The result tag of two sources (R64, R65); none where it is a tag-fault. -/
def promote (a b : Tag) : Option Tag :=
  if a = .none ∨ b = .none ∨ a = .sc8 ∨ b = .sc8 then none
  else if a = b then some a
  else
    let n := Nat.min (tagBits a) (tagBits b)
    match promotionOrder.find? fun t => tagContains t a && tagContains t b with
    | some t => if tagBits t ≤ 4 * n then some t else none
    | none => if 64 ≤ 4 * n then some (if tagFloat a || tagFloat b then .fp64 else .i64) else none

end Sys2Proof.Machine
end

