-- ==== Sys2Proof/Machine/Flags.lean ====
section
/-! DEFINITION. The flags of FCSR and the outcome of one floating-point operation (02 R47, 03 R60, R67). -/

namespace Sys2Proof.Machine

/-- The OR of two sets of flags (R67). -/
def orFlags (a b : Flags) : Flags :=
  ⟨a.nv || b.nv, a.dz || b.dz, a.of || b.of, a.uf || b.uf, a.nx || b.nx⟩

/-- NV alone when `b`. -/
def flagNv (b : Bool) : Flags := { nv := b }
/-- No flag. -/
def noFlags : Flags := {}

/-- The five flags as bits [4:0] of FCSR, NV in bit 4 (R47). -/
def flagsWord (f : Flags) : Nat := f.nv.toNat * 16 + f.dz.toNat * 8 + f.of.toNat * 4 + f.uf.toNat * 2 + f.nx.toNat

/-- The flags of bits [4:0]. -/
def flagsOf (n : Nat) : Flags := ⟨bitAt n 4, bitAt n 3, bitAt n 2, bitAt n 1, bitAt n 0⟩

/-- A result with the flags it raises and whether a saturating form clamped it (SAT). -/
structure FRes where
  bits  : Nat
  flags : Flags
  sat   : Bool
deriving DecidableEq, Repr

/-- A result without a flag. -/
def FRes.plain (bits : Nat) : FRes := ⟨bits, noFlags, false⟩

/-- FCSR with a result's flags and SAT ORed in (R48, R67). -/
def Fcsr.merge (f : Fcsr) (fl : Flags) (sat : Bool) : Fcsr := ⟨f.rm, f.sat || sat, orFlags f.flags fl⟩

/-- FCSR as a word (R47). -/
def fcsrWord (f : Fcsr) : Nat := f.rm.toNat * 256 + f.sat.toNat * 32 + flagsWord f.flags

/-- FCSR from a written word; reserved bits are ignored (R45). -/
def fcsrOf (n : Nat) : Fcsr := ⟨BitVec.ofNat 3 (bitsAt n 8 3), bitAt n 5, flagsOf n⟩

/-- The rounding mode of an RM code; 5 to 7 name none (R47, R61). -/
def roundingOf (rm : BitVec 3) : Option Rounding :=
  match rm.toNat with
  | 0 => some .rne | 1 => some .rtz | 2 => some .rdn | 3 => some .rup | 4 => some .rna | _ => none

end Sys2Proof.Machine
end

