-- ==== Sys2Proof/Config.lean ====
section
/-! DEFINITION. What an implementation fixes and the values the spec leaves open. A free value is an opaque constant:
nothing in Lean can evaluate it, so a claim holds whatever it is. -/

namespace Sys2Proof.Config

/-- Cores of the device: 8 chiplets of 16 (R307). -/
abbrev cores : Nat := 128
/-- HBM4 of the device in bytes, 768 GiB (R335). -/
def hbmBytes : Nat := 0xC000000000
/-- Scratchpad bytes of one core (R76). -/
def spadBytes : Nat := 0x200000

/-- FREE VALUE (DESIGN CHOICE, log 6). For `vexp2`, `vlog2`, `vrcp` and `vrsqrt` in fp32 and fp64: whether the result is the upper of
the two neighbouring values R194 allows; a function of the operation, the tag code and the input's bits. -/
opaque upperNeighbour : Nat → Nat → Nat → Bool
/-- FREE VALUE (DESIGN CHOICE, log 7). The cycles that pass between two readings of a counter or two acts of a scheduler (R49, R319). -/
opaque elapsed : Nat → Nat
/-- FREE VALUE (DESIGN CHOICE, log 8). Whether an atomic whose reply was lost with its path has reached its location (R371). -/
opaque atomicLanded : Nat → Bool
/-- FREE VALUE (DESIGN CHOICE, log 9). FINFO.DISC when a switch trap is taken: the spec says what the bit asks of the `kret`, and not
what the hardware first puts there (R346, R349). -/
opaque discAtTrap : Nat → Bool
/-- FREE VALUE (DESIGN CHOICE, log 21). The window address, at its receiver, of an eyelet of a zone that this device does not hold
(R241). -/
opaque remoteEyelet : Nat → Nat
/-- FREE VALUE (DESIGN CHOICE, log 14). What an entry of a fibre at or above its count holds (R39): coordinate and value. -/
opaque staleEntry : Nat → Nat → BitVec 32 × BitVec 64
/-- FREE VALUE (DESIGN CHOICE, log 28). The number, in its stack, of the row in which a 32-byte sector of HBM4 lies (R380): the spec
gives no mapping. -/
opaque rowOf : Nat → Nat
/-- FREE VALUE (DESIGN CHOICE, log 28). The channel and the DRAM layer of a row, by stack and number (R358, R380). -/
opaque rowPlace : Nat × Nat → Fin 64 × Fin 16
/-- FREE VALUE (DESIGN CHOICE, log 50). The chiplet that an HBM4 stack hangs from (R371): the spec gives no mapping. -/
opaque stackChiplet : Nat → Fin 8
/-- FREE VALUE (DESIGN CHOICE, log 31). The user flits that a port has sent since it was last looked at, in order: KIND (0 idle, 1
data, 2 acknowledge), destination, SEQ of what is no data flit, payload (R364, R365). The spec does not say which flits carry an
access or a message. -/
opaque flitsSent : Nat → List (Fin 3 × Fin 256 × BitVec 32 × List Byte)
/-- FREE VALUE (DESIGN CHOICE, log 31). Word 0 of a flit as it leaves: the switch chips put the stamps in (R364, R366). -/
opaque stampWord : Nat → BitVec 72
/-- FREE VALUE (DESIGN CHOICE, log 31). Destination, SEQ and payload of a key-exhaustion flit (R368). -/
opaque exhaustionFlit : Nat → Fin 256 × BitVec 32 × List Byte
/-- FREE VALUE (DESIGN CHOICE, log 46). The pairs of chiplets that had packets on a welt link as it failed (R369). -/
opaque weltTraffic : Nat → List (Fin 8 × Fin 8)
/-- FREE VALUE (DESIGN CHOICE, log 67). Whether the last acknowledgement of a transfer had not arrived when its path was lost (R251). -/
opaque ackLost : Nat → Nat → Bool
/-- FREE VALUE (DESIGN CHOICE, log 33). What a host read finds in a byte of a poisoned sector (R356): the spec names no answer. -/
opaque poisonedByte : Nat → Nat → Byte
/-- OPEN FUNCTION (DESIGN CHOICE, log 12). Whether an image carries a valid XMSS signature under Felob's key (R379). -/
opaque imageVerifies : List Byte → List Byte → Bool

end Sys2Proof.Config
end

