-- ==== Sys2Proof/Machine/Mem.lean ====
section
/-! DEFINITION. Byte memories as lists of cells in one canonical form, and the 52-bit physical space (00 R5, 20 R335). -/

namespace Sys2Proof.Machine

/-- What an address that is not listed reads as. DESIGN CHOICE (log 4): zero, where the spec gives no contents. -/
def Memory.unlisted : Byte := 0

/-- The canonical form: addresses strictly rising, and no entry equal to what an unlisted address reads as. -/
def Memory.wf : List Host.Cell → Bool
  | [] => true
  | (a, b) :: rest =>
    b != Memory.unlisted && (match rest with | [] => true | (k, _) :: _ => decide (a < k)) && Memory.wf rest

/-- One byte. -/
def Memory.read : List Host.Cell → Nat → Byte
  | [], _ => Memory.unlisted
  | (k, b) :: rest, a => if k = a then b else Memory.read rest a

/-- Storing one byte, keeping the canonical form. -/
def Memory.write : List Host.Cell → Nat → Byte → List Host.Cell
  | [], a, b => if b = Memory.unlisted then [] else [(a, b)]
  | (k, v) :: rest, a, b =>
    if k = a then (if b = Memory.unlisted then rest else (a, b) :: rest)
    else if a < k then (if b = Memory.unlisted then (k, v) :: rest else (a, b) :: (k, v) :: rest)
    else (k, v) :: Memory.write rest a b

/-- `n` bytes from `a`, little-endian (R5). -/
def Memory.readN (m : List Host.Cell) (a : Nat) : Nat → Nat
  | 0 => 0
  | n + 1 => (Memory.read m a).toNat + 256 * Memory.readN m (a + 1) n

/-- Storing `n` bytes from `a`, little-endian. -/
def Memory.writeN (m : List Host.Cell) (a : Nat) : Nat → Nat → List Host.Cell
  | 0, _ => m
  | n + 1, v => Memory.writeN (Memory.write m a (BitVec.ofNat 8 v)) (a + 1) n (v / 256)

/-- Storing a list of bytes. -/
def Memory.writeList (m : List Host.Cell) (a : Nat) : List Byte → List Host.Cell
  | [] => m
  | b :: bs => Memory.writeList (Memory.write m a b) (a + 1) bs

/-- A list of bytes read. -/
def Memory.readList (m : List Host.Cell) (a : Nat) : Nat → List Byte
  | 0 => []
  | n + 1 => Memory.read m a :: Memory.readList m (a + 1) n

/-- `n` bytes from `a` set to zero: entries of the range are dropped. -/
def Memory.zero (m : List Host.Cell) (a n : Nat) : List Host.Cell := m.filter fun c => decide (c.1 < a) || decide (a + n ≤ c.1)

/-- Where a checked access goes: a physical address, or a byte of the scratchpads. -/
inductive Loc where
  | phys (a : Nat)
  | spad (i : Nat)
deriving DecidableEq, Repr

/-- The physical address of a location outside the scratchpads. -/
def Loc.phys? : Loc → Option Nat
  | .phys a => some a
  | .spad _ => none

/-- What holds a physical address (R335). -/
inductive Target where
  | hbm | host
  | remote (dev off : Nat)
  | nothing
deriving DecidableEq, Repr

/-- The layout of the physical space (R335), before what the device and its domain are. -/
def targetOf (pa : Nat) : Target :=
  if pa < Config.hbmBytes then .hbm
  else if 2 ^ 48 ≤ pa ∧ pa < 2 ^ 49 then .host
  else if 2 ^ 51 ≤ pa ∧ pa < 2 ^ 51 + 2 ^ 48 then
    if (pa - 2 ^ 51) % 2 ^ 40 < Config.hbmBytes then .remote ((pa - 2 ^ 51) / 2 ^ 40) ((pa - 2 ^ 51) % 2 ^ 40) else .nothing
  else .nothing

/-- The sectors still poisoned once bytes [a, a+n) are written (R356). -/
def unpoison (p : List (Nat × BitVec 32)) (a n : Nat) : List (Nat × BitVec 32) :=
  (p.map fun (s, m) =>
    if s < a + n ∧ a < s + 32 then
      (s, m &&& ~~~ BitVec.ofNat 32 (((2 ^ (Nat.min (a + n) (s + 32) - Nat.max a s) - 1) <<< (Nat.max a s - s))))
    else (s, m)).filter fun (_, m) => m != 0

/-- Whether a read of [a, a+n) meets a poisoned sector. -/
def poisoned (p : List (Nat × BitVec 32)) (a n : Nat) : Bool := p.any fun (s, _) => decide (s < a + n) && decide (a < s + 32)

/-- Reading a location's bytes as they stand. -/
def State.readLoc (s : State) (l : Loc) (n : Nat) : Nat :=
  match l with
  | .phys a => Memory.readN s.mem a n
  | .spad i => Memory.readN s.spad i n

/-- Writing a location's bytes. -/
def State.writeLoc (s : State) (l : Loc) (n v : Nat) : State :=
  match l with
  | .phys a => { s with mem := Memory.writeN s.mem a n v, poison := unpoison s.poison a n }
  | .spad i => { s with spad := Memory.writeN s.spad i n v, spadPoison := unpoison s.spadPoison i n }

/-- The sector of an address struck by an error: all its bytes are still to be written again (R356). -/
def strike (p : List (Nat × BitVec 32)) (a : Nat) : List (Nat × BitVec 32) :=
  (a / 32 * 32, BitVec.allOnes 32) :: p.filter fun e => e.1 != a / 32 * 32

end Sys2Proof.Machine
end

