-- ==== Sys2Proof/Machine/Ops.lean ====
section
/-! DEFINITION. The operations every meaning is built of: registers, traps and returns (18 R299 to R305, 21 R344 to
R347), address checks and translation (04 R74, R75, 07 R148, 20 R332 to R336), and single accesses to memory. -/

namespace Sys2Proof.Machine

/-! ### Registers of the hart whose turn it is -/

/-- An x register; x0 reads zero (R34). -/
def State.x (s : State) (r : XReg) : Word := if r.val = 0 then 0 else s.hart.x[r.val]

/-- Writing an x register; a write to x0 is discarded (R34, R138). -/
def State.setX (s : State) (r : XReg) (v : Word) : State :=
  if r.val = 0 then s else { s with hart := { s.hart with x := s.hart.x.set r.val v } }

/-- A condition bit. -/
def State.c (s : State) (r : CBit) : Bool := s.hart.c[r.val]

/-- Writing a condition bit. -/
def State.setC (s : State) (r : CBit) (v : Bool) : State :=
  { s with hart := { s.hart with c := s.hart.c.set r.val v } }

/-- The length of the instruction being executed: 4, or 8 for a pair (R117). DESIGN CHOICE, log 17. -/
def State.len (s : State) : Word := if s.hart.ipair then 8 else 4

/-- Setting the program counter. -/
def State.setPc (s : State) (pc : Word) : State := { s with hart := { s.hart with pc := pc } }

/-- Counting a completed instruction (R49). -/
def State.count (s : State) : State := { s with hart := { s.hart with instret := s.hart.instret + 1 } }

/-- Completing an instruction that goes on to the next (R16, R49). -/
def State.retire (s : State) : State := (s.setPc (s.hart.pc + s.len)).count

/-- ORing flags and SAT into FCSR (R48, R67). -/
def State.raise (s : State) (f : Flags) (sat : Bool) : State :=
  { s with hart := { s.hart with fcsr := s.hart.fcsr.merge f sat } }

/-- Setting VSI (R12, R18). -/
def State.setVsi (s : State) (n : Nat) : State := { s with hart := { s.hart with vsi := n } }

/-! ### Traps -/

/-- A trap: its cause, FADDR and FINFO (R346). -/
structure Trap where
  cause : Nat
  faddr : Word
  finfo : Word
deriving DecidableEq, Repr

/-- What a meaning comes to: a state, or a trap taken at a state that keeps the prefix performed (R18). -/
abbrev Run (α : Type) := Except (Trap × State) α

/-- Why one access fails (R347). -/
structure Reject where
  cause : Nat
  addr  : Nat
  why   : Nat := 0
  wlvl  : Nat := 0
  unit  : Nat := 0
deriving DecidableEq, Repr

/-- INSTR and PAIR of FINFO, with further fields above them (R346). -/
def State.info (s : State) (above : Nat) : Word :=
  BitVec.ofNat 64 (s.hart.iword.toNat + s.hart.ipair.toNat * 2 ^ 32 + above)

/-- The trap of a failed access (R346, R347). -/
def State.trapOf (s : State) (r : Reject) : Trap :=
  ⟨r.cause, BitVec.ofNat 64 r.addr, s.info (r.wlvl * 2 ^ 33 + r.why * 2 ^ 35 + r.unit * 2 ^ 41)⟩

/-- An illegal-encoding trap of the instruction being executed (R124). -/
def State.illegal (s : State) : Trap := ⟨0x01, s.hart.pc, s.info 0⟩
/-- A tag-fault with a reason (R346, R348). -/
def State.tagFault (s : State) (reason : Nat) : Trap := ⟨0x02, 0, s.info (reason * 2 ^ 33)⟩
/-- A misaligned trap. -/
def State.misaligned (s : State) (a : Word) : Trap := ⟨0x03, a, s.info 0⟩
/-- A zone fault with a reason. -/
def State.zoneFault (s : State) (a : Word) (reason : Nat) : Trap := ⟨0x0D, a, s.info (reason * 2 ^ 33)⟩
/-- A privileged-operation trap. -/
def State.privileged (s : State) : Trap := ⟨0x11, 0, s.info 0⟩
/-- A fibre-order trap: 0 qa, 1 qb, 2 the position pair. -/
def State.fibreOrder (s : State) (which : Nat) : Trap := ⟨0x0A, 0, s.info (which * 2 ^ 33)⟩
/-- A matrix-detached trap. -/
def State.detached (s : State) : Trap := ⟨0x0B, 0, s.info 0⟩
/-- What a forbidden instruction or an overflow raises in an open strip (R266); it becomes cause 0x0E. -/
def State.stripFatal (_s : State) : Trap := ⟨0x0E, 0, 0⟩

/-- Entering a handler (R299, R344): the level decides which registers are written and where the program counter goes.
An asynchronous event is taken at kernel level. -/
def State.enterTrap (s : State) (async : Bool) (cause : Nat) (epc faddr finfo : Word) : State :=
  let h := s.hart
  let p := h.priv
  let toKernel (ppl : BitVec 2) : Hart :=
    { h with pc := p.tvec, phase := .active, waiting := none,
             priv := { p with level := .kernel, aie := false, ppl := ppl, epc := epc,
                              cause := BitVec.ofNat 64 cause, faddr := faddr, finfo := finfo } }
  let toMonitor (ppl : BitVec 2) : Hart :=
    { h with pc := p.monvec, phase := .active, waiting := none,
             priv := { p with level := .monitor, monppl := ppl, monpc := epc,
                              moncause := BitVec.ofNat 64 cause, monaddr := faddr, moninfo := finfo } }
  { s with hart := match p.level with
      | .user => toKernel 0
      | .kernel => if async then toKernel 1 else toMonitor 1
      | .monitor => toMonitor 2 }

/-- Causes that are fatal to an open strip (R266). -/
def stripFatalCause (c : Nat) : Bool :=
  [0x01, 0x02, 0x03, 0x07, 0x08, 0x09, 0x0A, 0x0B, 0x0C, 0x0D, 0x0E, 0x12].contains c

/-- A guarded strip is open and guards the accesses made at this level (R265, DEDUCED, log 20). -/
def State.strip? (s : State) : Option Strip :=
  match s.hart.strip with
  | some st => if st.level = s.hart.priv.level then some st else none
  | none => none

/-- The open strip that a trap may be fatal to (R266): the one that guards this level; of a second `sbegin`, at any level, the one that
is open (DEDUCED, log 20). -/
def State.stripHit (s : State) (t : Trap) : Option Strip := if t.cause = 0x0E then s.hart.strip else s.strip?

/-- What stands in the place of a cause for an access that must wait: its row is under repair (R380). No cause of R346 has this number. -/
def holdCause : Nat := 256

/-- Taking an exception at the instruction the program counter names: the one shared operation. An access that must wait takes none: the
instruction is tried again at the hart's next turn, from the progress it has made (R380, log 30). In an open strip a fatal
cause discards the strip and becomes cause 0x0E at the recovery address (R266). -/
def State.takeTrap (s : State) (t : Trap) : State :=
  if t.cause = holdCause then s
  else match s.stripHit t with
  | some st =>
    if stripFatalCause t.cause then
      ({ s with hart := { s.hart with strip := none, ffault := s.hart.fbase, vsi := 0 } }).enterTrap false 0x0E
        st.recovery t.faddr (BitVec.ofNat 64 (t.cause + s.hart.pc.toNat / 4 % 2 ^ 49 * 2 ^ 8))
    else s.enterTrap false t.cause s.hart.pc t.faddr t.finfo
  | none => s.enterTrap false t.cause s.hart.pc t.faddr t.finfo

/-- What a meaning comes to, as a state. -/
def settled (r : Run State) : State :=
  match r with
  | .ok s => s
  | .error (t, s) => s.takeTrap t

/-- A meaning's outcome: every trap is a next state. -/
def finish (r : Run State) : Host.Outcome State Fault Refusal := .next (settled r)

/-- A trap that leaves the state as it is. -/
def State.trap {α : Type} (s : State) (t : Trap) : Run α := .error (t, s)

/-- A check: the trap when it fails. -/
def State.require (s : State) (ok : Bool) (t : Trap) : Run Unit := if ok then .ok () else .error (t, s)

/-- An instruction that an open strip forbids (R266). -/
def State.noStrip (s : State) : Run Unit := s.require s.strip?.isNone s.stripFatal

/-- The level a return goes to (R302, R305). -/
def levelOf (p : BitVec 2) : Level := if p = 0 then .user else if p = 1 then .kernel else .monitor

/-- The common part of `kret` and `monret` (R305): a misaligned target traps at the current level; otherwise level and
program counter change, and the instruction counts as completed. -/
def State.returnTo (s : State) (t : Word) (p : BitVec 2) : Run State :=
  if t.toNat % 4 ≠ 0 then s.trap (s.misaligned t)
  else .ok ({ s with hart := { s.hart with pc := t, priv := { s.hart.priv with level := levelOf p } } }).count

/-- Putting the hart to wait (R25): it keeps its program counter at the waiting instruction. -/
def State.wait (s : State) (w : Wait) (phase : Phase) : State :=
  { s with hart := { s.hart with waiting := some w, phase := phase } }

/-! ### The other harts -/

/-- The first hart of a list with a number, and the list with another hart in its place. -/
def exchange (n : Nat) (h : Hart) : List Hart → Option (Hart × List Hart)
  | [] => none
  | k :: rest =>
    if k.place.hid = n then some (k, h :: rest)
    else (exchange n h rest).map fun (k', rest') => (k', k :: rest')

/-- Making a parked hart the one whose turn it is. -/
def State.swap (s : State) (n : Nat) : State :=
  match exchange n s.hart s.parked with
  | some (k, rest) => { s with hart := k, parked := rest }
  | none => s

/-- All harts of the device. -/
def State.harts (s : State) : List Hart := s.hart :: s.parked

/-- The hart of a number, if one exists. -/
def State.hartOf (s : State) (n : Nat) : Option Hart :=
  s.harts.find? fun h => h.place.hid == n && h.phase != .empty

/-- Doing something as another hart. -/
def State.asHart (s : State) (n : Nat) (f : State → State) : State :=
  if s.hart.place.hid = n then f s else (f (s.swap n)).swap s.hart.place.hid

/-- Every hart changed. -/
def State.mapHarts (s : State) (f : Hart → Hart) : State := { s with hart := f s.hart, parked := s.parked.map f }

/-- A message leaves the module. -/
def State.send (s : State) (m : Message) : State := { s with outbox := s.outbox ++ [m] }

/-! ### Address checks and translation -/

/-- What an access does. -/
inductive Access where
  | load | store | atomic | fetch
deriving DecidableEq, Repr

/-- The page fault of an access (R334). -/
def pageFaultCause : Access → Nat
  | .load => 0x04 | .store => 0x05 | .atomic => 0x05 | .fetch => 0x06

/-- Whose translation a walk serves: user level or not, the partition, the root register, the ASID, and the core whose
translation caches it may use; the scheduler has none, which core 256 stands for. -/
structure Ctx where
  user : Bool
  part : Fin 8
  root : Word
  asid : Nat := 0
  core : Nat := 256
deriving DecidableEq, Repr

/-- The ASID that translations are tagged with: 16 bits (R301). -/
def Hart.asid (h : Hart) : Nat := h.priv.asid.toNat % 2 ^ 16

/-- The translation context of a hart. -/
def Hart.ctx (h : Hart) : Ctx := ⟨h.priv.level = .user, h.place.part, h.priv.ptbase, h.asid, h.place.core⟩

/-- The CAC of a core's chiplet. -/
def cacOf (core : Nat) : Cache := .cac (core / 16)

/-- The partition of a context. -/
def State.partOf (s : State) (p : Fin 8) : Partition := s.parts[p.val]

/-- Bytes [a, a+n) lie in a partition's HBM4 range (R307, R310). -/
def State.inRange (s : State) (p : Fin 8) (a n : Nat) : Bool :=
  let q := s.partOf p
  decide (q.base * 2 ^ 30 ≤ a) && decide (a + n ≤ (q.base + q.size) * 2 ^ 30) && decide (a + n ≤ Config.hbmBytes)

/-- The stack that holds an HBM4 address is ready (R375, R378). -/
def State.stackReady (s : State) (a : Nat) : Bool := s.service.ready.getLsbD (10 + a / (48 * 2 ^ 30))

/-- The root table: the register, or the first page of the partition's range while it is 0 (R336). -/
def State.rootOf (s : State) (c : Ctx) : Nat :=
  if c.root = 0 then (s.partOf c.part).base * 2 ^ 30 else c.root.toNat

/-- An entry that R334 calls malformed, at a level whose page has 2^sh bytes. -/
def entryBad (lvl sh e : Nat) : Bool :=
  let leaf := bitAt e 1
  bitsAt e 52 12 != 0 || bitsAt e 8 7 != 0 || bitAt e 2 ||
    (!leaf && (lvl == 1 || bitsAt e 3 5 != 0)) ||
    (leaf && bitAt e 4 && !bitAt e 3) ||
    (leaf && bitsAt e 15 (sh - 15) != 0)

/-- The permission an access needs of a leaf (R334). -/
def entryAllows (k : Access) (e : Nat) : Bool :=
  match k with
  | .load => bitAt e 3
  | .store => bitAt e 4
  | .atomic => bitAt e 3 && bitAt e 4
  | .fetch => bitAt e 5

/-- What a walk finds: the physical address, log2 of the page, the leaf's G bit. -/
structure Leaf where
  pa   : Nat
  sh   : Nat := 15
  glob : Bool := false
deriving DecidableEq, Repr

/-- What an entry read at a level says of an access (R334): a failure, the page, or the table below. -/
def entryStep (c : Ctx) (k : Access) (va lvl sh e : Nat) : Except Reject (Leaf ⊕ Nat) :=
  if !bitAt e 0 then .error { cause := pageFaultCause k, addr := va, why := 0, wlvl := lvl }
  else if entryBad lvl sh e then .error { cause := pageFaultCause k, addr := va, why := 1, wlvl := lvl }
  else if bitAt e 1 then
    if c.user && !bitAt e 6 then .error { cause := pageFaultCause k, addr := va, why := 2, wlvl := lvl }
    else if !entryAllows k e then .error { cause := pageFaultCause k, addr := va, why := 3, wlvl := lvl }
    else .ok (.inl { pa := bitsAt e sh (52 - sh) * 2 ^ sh + bitsAt va 0 sh, sh := sh, glob := bitAt e 7 })
  else .ok (.inr (bitsAt e 15 37 * 2 ^ 15))

/-- The stack and the row of an HBM4 address (R380); which rows there are is a free value (DESIGN CHOICE, log 28). -/
def rowAt (a : Nat) : Nat × Nat := (a / (48 * 2 ^ 30), Config.rowOf (a / 32))

/-- Some of n bytes of HBM4 lie in the row under repair (R380). -/
def State.inRepair (s : State) (a n : Nat) : Bool :=
  match s.repairing with
  | some r => (List.range ((a % 32 + n + 31) / 32)).any fun k => rowAt r == rowAt (a + 32 * k)
  | none => false

/-- The entry of a table page for an address, once the page may be read (R334, R375). -/
def State.tableEntry (s : State) (c : Ctx) (va sh table : Nat) : Except Reject Nat :=
  if !s.inRange c.part table 32768 then .error { cause := 0x07, addr := va, why := 1 }
  else if !s.stackReady table then .error { cause := 0x07, addr := va, why := 3 }
  else if s.inRepair (table + 8 * bitsAt va sh 12) 8 then .error { cause := holdCause, addr := va }
  else .ok (Memory.readN s.mem (table + 8 * bitsAt va sh 12) 8)

/-- The three-level walk (R332 to R334): levels with the size of their pages, and the table to read. -/
def State.walk (s : State) (c : Ctx) (k : Access) (va : Nat) : List (Nat × Nat) → Nat → Except Reject Leaf
  | [], _ => .error { cause := pageFaultCause k, addr := va, why := 1, wlvl := 1 }
  | (lvl, sh) :: rest, table => do
    match ← entryStep c k va lvl sh (← s.tableEntry c va sh table) with
    | .inl l => .ok l
    | .inr below => s.walk c k va rest below

/-- The levels of the walk (R332). -/
def walkLevels : List (Nat × Nat) := [(3, 39), (2, 27), (1, 15)]

/-- Log2 of the bytes that an entry of a level spans (R332). -/
def TransEntry.span (e : TransEntry) : Nat := 12 * e.lvl + 3

/-- A cached entry serves an address at a level (R337): in the core or its CAC, of the partition, of the ASID or global. -/
def TransEntry.serves (e : TransEntry) (c : Ctx) (va lvl : Nat) : Bool :=
  (e.holder == .core c.core || e.holder == cacOf c.core) && e.part == c.part && (e.glob || e.asid == c.asid) &&
    e.lvl == lvl && e.page == va / 2 ^ e.span

/-- The deepest cached entry for an address, and the levels below it (R337). -/
def State.cached (s : State) (c : Ctx) (va : Nat) : Option (TransEntry × List (Nat × Nat)) :=
  [(1, []), (2, [(1, 15)]), (3, [(2, 27), (1, 15)])].findSome? fun (lvl, below) =>
    (s.tlb.find? fun e => e.serves c va lvl).map fun e => (e, below)

/-- Translating an address (R332 to R337): a cached entry is used as it was read, whole; without one the walk starts at
the root. -/
def State.lookup (s : State) (c : Ctx) (k : Access) (va : Nat) : Except Reject Leaf :=
  match s.cached c va with
  | none => s.walk c k va walkLevels (s.rootOf c)
  | some (e, below) => do
    match ← entryStep c k va e.lvl e.span e.entry with
    | .inl l => .ok l
    | .inr table => s.walk c k va below table

/-- Translation of an address of the translated region. -/
def State.translate (s : State) (c : Ctx) (k : Access) (va : Nat) : Except Reject Nat :=
  (s.lookup c k va).map Leaf.pa

/-- The leaf that a store's check used, for its pin (R338). -/
def State.leafOf (s : State) (k : Access) (va : Nat) : Leaf :=
  (s.lookup s.hart.ctx k va).toOption.getD { pa := 0 }

/-- The pin of a checked access of the hart (R338). -/
def State.pinOf (s : State) (k : Access) (va : Nat) : Pin :=
  let l := s.leafOf k va
  ⟨va, l.sh, s.hart.asid, l.glob⟩

/-- The path to a device is lost (R369, R371). -/
def State.deviceLost (s : State) (d : Nat) : Bool :=
  (s.lost ++ s.lostGood).any fun p => match p with | .device e => e.val == d | _ => false

/-- A device lies in the fabric domain (R335). -/
def State.inDomain (s : State) (d : Nat) : Bool := s.domain.any fun e => e.val == d

/-- The path to a device is lost for good (R370). -/
def State.deviceGone (s : State) (d : Nat) : Bool :=
  s.lostGood.any fun p => match p with | .device e => e.val == d | _ => false
/-- The same for two chiplets. -/
def State.chipletsGone (s : State) (a b : Nat) : Bool :=
  s.lostGood.any fun p => match p with
    | .chiplets c d => (c.val == a && d.val == b) || (c.val == b && d.val == a)
    | _ => false

/-- Some port is live (R370). DEDUCED, log 52. -/
def State.linkUp (s : State) : Bool := s.ports.toList.any fun p => p.state == .up

/-- No live path reaches a device (R335, R371): its path was declared lost, or no port is live. DEDUCED, log 52. -/
def State.unreachable (s : State) (d : Nat) : Bool := s.deviceLost d || !s.linkUp

/-- The path between two chiplets of this device is lost. -/
def State.chipletsLost (s : State) (a b : Nat) : Bool :=
  (s.lost ++ s.lostGood).any fun p => match p with
    | .chiplets c d => (c.val == a && d.val == b) || (c.val == b && d.val == a)
    | _ => false

/-- An HBM4 address lies behind a lost path from a core's chiplet (R371). Which chiplet a stack hangs from is a free value
(DESIGN CHOICE, log 50). -/
def State.stackLost (s : State) (core pa : Nat) : Bool :=
  s.chipletsLost (core / 16) (Config.stackChiplet (pa / (48 * 2 ^ 30))).val

/-- The line that holds a physical address in a cache. -/
def State.lineOf (s : State) (c : Cache) (pa : Nat) : Option RLine :=
  s.rcache.find? fun l => l.holder == c && l.line == pa / 128 * 128

/-- A copy of a remote line that a core can use: its own, else its CAC's (R80). -/
def State.copyOf (s : State) (core pa : Nat) : Option RLine :=
  match s.lineOf (.core core) pa with
  | some l => some l
  | none => s.lineOf (cacOf core) pa

/-- No request for a remote location is answered: no live path, or its device refuses it (R335, R371). -/
def State.turnedAway (s : State) (d pa : Nat) : Bool := s.unreachable d || s.refused.contains (pa / 128 * 128)

/-- What the physical space says of an access (R310, R335, R375, R371). `cached`: a copy of a remote line will do, and a
store to this device's HBM4 may wait in a coherent cache. -/
def State.targetCheck (s : State) (part : Fin 8) (core va pa n : Nat) (k : Access) (cached : Bool) : Except Reject Unit :=
  match targetOf pa with
  | .hbm =>
    if s.inRange part pa n && s.stackReady pa then
      if s.stackLost core pa && !(cached && k == .store) then .error { cause := 0x07, addr := va, why := 2 }
      else if s.inRepair pa n then .error { cause := holdCause, addr := va }
      else .ok ()
    else .error { cause := 0x07, addr := va, why := 3 }
  | .host => .ok ()
  | .remote d _ =>
    if d = s.device.val ∨ !s.inDomain d then .error { cause := 0x07, addr := va, why := 3 }
    else if s.turnedAway d pa && !(cached && (s.copyOf core pa).isSome) then .error { cause := 0x07, addr := va, why := 2 }
    else .ok ()
  | .nothing => .error { cause := 0x07, addr := va, why := 3 }

/-- The window's base (R74). -/
def windowBase : Nat := 0x7FF0000000000

/-- The byte of the scratchpads that a window offset of a list of pieces names (R75). -/
def spadIndex (core : Nat) (pieces : List Nat) (off : Nat) : Nat :=
  core * Config.spadBytes + pieces.getD (off / 65536) 0 * 65536 + off % 65536

/-- Checks 1 to 3 of R148 for the bytes [va, va+n), aligned to `align`, in a translation context: where the access goes. -/
def State.resolveIn (s : State) (c : Ctx) (k : Access) (va n align : Nat) : Except Reject Loc :=
  let h := s.hart
  if va % align ≠ 0 then .error { cause := 0x03, addr := va }
  else if windowBase ≤ va then
    if k = .fetch then .error { cause := 0x07, addr := va }
    else if va - windowBase + n ≤ h.place.pieces.length * 65536 then
      .ok (.spad (spadIndex h.place.core h.place.pieces (va - windowBase)))
    else .error { cause := 0x07, addr := va }
  else (s.translate c k va).map .phys

/-- Check 4 of R148: what the target says. -/
def State.targetTakes (s : State) (part : Fin 8) (k : Access) (l : Loc) (va n : Nat) (cached : Bool) : Except Reject Unit :=
  match l with
  | .spad _ => .ok ()
  | .phys pa => s.targetCheck part s.hart.place.core va pa n k cached

/-- Checks 1 to 4 of R148. -/
def State.locateIn (s : State) (c : Ctx) (k : Access) (va n align : Nat) (cached : Bool) : Except Reject Loc := do
  let l ← s.resolveIn c k va n align
  s.targetTakes c.part k l va n cached
  .ok l

/-- The checks for an access the hart makes now. -/
def State.locate (s : State) (k : Access) (va n align : Nat) (cached : Bool) : Except Reject Loc :=
  s.locateIn s.hart.ctx k va n align cached

/-! ### Live barrier words (R252) -/

/-- The header or slot-table word of a zone at a scratchpad byte. -/
def Zone.covers (z : Zone) (i : Nat) : Bool :=
  (List.range (32 + z.slots)).any fun k => spadIndex z.core z.pieces (z.base + 8 * k) == i / 8 * 8

/-- Whether the byte is part of a live barrier word. -/
def State.liveWord (s : State) (l : Loc) : Bool :=
  match l with
  | .phys a => s.barriers.any fun b => decide (b.addr ≤ a) && decide (a < b.addr + 16)
  | .spad i => s.zones.any fun z => z.core == i / Config.spadBytes && z.covers i

/-! ### Cached remote lines (R80, R99, R110) -/

/-- A byte with one half replaced, or all of it. -/
def mergeHalf (old new : Byte) : Option Bool → Byte
  | none => new
  | some false => (old &&& 0xF0) ||| (new &&& 0x0F)
  | some true => (old &&& 0x0F) ||| (new &&& 0xF0)

/-- A dirty byte laid over a line's bytes. -/
def Dirty.over (d : Dirty) (data : Nat) : Nat :=
  setBitsAt data (8 * d.off) 8 (mergeHalf (BitVec.ofNat 8 (bitsAt data (8 * d.off) 8)) d.byte d.half).toNat

/-- The bytes of a line that a hart has written and that have not gone out, in whichever cache they stand. -/
def State.ownBytes (s : State) (hid line : Nat) : List Dirty :=
  (s.rcache.filter fun l => l.line == line).flatMap fun l => l.dirty.filter fun d => d.hid == hid

/-- A line as a hart reads it (R95, R112): a copy's bytes under the hart's own later writes. -/
def State.view (s : State) (hid : Nat) (l : RLine) : Nat := (s.ownBytes hid l.line).foldl (fun v d => d.over v) l.data

/-- The device of a remote line. -/
def RLine.device (l : RLine) : Nat := (l.line - 2 ^ 51) / 2 ^ 40

/-- Bytes that have reached their coherence point stand in every copy of their line. -/
def State.refresh (s : State) (line : Nat) (ds : List Dirty) : State :=
  { s with rcache := s.rcache.map fun l => if l.line = line then { l with data := ds.foldl (fun v d => d.over v) l.data } else l }

/-- Writing at a location's coherence point: n bytes, or half of one byte as an atomic update (R94), which covers no
poisoned byte. -/
def State.putLoc (s : State) (l : Loc) (n v : Nat) (half : Option Bool) : State :=
  match half with
  | none => s.writeLoc l n v
  | some _ =>
    { s.writeLoc l 1 (mergeHalf (BitVec.ofNat 8 (s.readLoc l 1)) (BitVec.ofNat 8 v) half).toNat with
      poison := s.poison, spadPoison := s.spadPoison }

/-- A dirty byte sent to its coherence point, in its line of 128 bytes. -/
def State.sendByte (s : State) (line : Nat) (d : Dirty) : State := s.putLoc (.phys (line + d.off % 128)) 1 d.byte.toNat d.half

/-- Writing back one line: the dirty bytes go out, oldest first, and stay dirty when the path is lost (R110, R371). -/
def State.writeBack (s : State) (l : RLine) : State :=
  if l.dirty.isEmpty || s.turnedAway l.device l.line then s
  else
    let s := (l.dirty.foldl (fun s d => s.sendByte l.line d) s).refresh l.line l.dirty
    { s with rcache := s.rcache.map fun k => if k.holder = l.holder ∧ k.line = l.line then { k with dirty := [] } else k }

/-- Every dirty byte that a hart has in a line goes out: what its access at the coherence point waits for (R97). -/
def State.settle (s : State) (hid pa : Nat) : State :=
  (s.rcache.filter fun l => l.line == pa / 128 * 128 && l.dirty.any fun d => d.hid == hid).foldl State.writeBack s

/-- The lowest address of dirty bytes of some lines that no write-back can send (R371). -/
def State.stuckIn (s : State) (ls : List RLine) : Option Nat :=
  ((ls.filter fun l => s.turnedAway l.device l.line).flatMap fun l => l.dirty.map Dirty.va).min?

/-- The line that a core reads through its cache: its own copy, else its CAC's, else one fetched into both, after the
hart's own dirty bytes have gone out (R80, R95, R110). DEDUCED, log 10. -/
def State.fillLine (s : State) (core hid pa : Nat) : RLine × State :=
  match s.lineOf (.core core) pa with
  | some l => (l, s)
  | none =>
    match s.lineOf (cacOf core) pa with
    | some l =>
      let k : RLine := { l with holder := .core core, dirty := [] }
      (k, { s with rcache := k :: s.rcache })
    | none =>
      let s := s.settle hid pa
      let line := pa / 128 * 128
      let k : RLine := { holder := .core core, line := line, data := Memory.readN s.mem line 128,
                         poison := s.poison.filter fun e => decide (line ≤ e.1) && decide (e.1 < line + 128) }
      (k, { s with rcache := k :: { k with holder := cacOf core } :: s.rcache })

/-- The dirty bytes of a store of n bytes: one for each, or half of one. -/
def dirtyBytes (off hid va n v : Nat) (half : Option Bool) : List Dirty :=
  (List.range n).map fun i => ⟨off + i, hid, va + i, BitVec.ofNat 8 (v / 256 ^ i), half⟩

/-- A hart's later write takes the place of its earlier one of the same byte; half a byte does not take a whole one's. -/
def Dirty.under (hid off n : Nat) (half : Option Bool) (d : Dirty) : Bool :=
  d.hid == hid && decide (off ≤ d.off) && decide (d.off < off + n) && (half.isNone || d.half == half)

/-- Bytes of a line that a hart writes anew are dirty no longer, in whichever cache they stood. -/
def State.forget (s : State) (line hid off n : Nat) (half : Option Bool) : State :=
  { s with rcache := s.rcache.map fun l =>
      if l.line = line then { l with dirty := l.dirty.filter fun d => !d.under hid off n half, poison := if half.isNone then unpoison l.poison (line + off) n else l.poison }
      else l }

/-- Writing into a core's cached line (R110). DEDUCED, log 10. -/
def State.writeLine (s : State) (core hid pa va n v : Nat) (half : Option Bool) : State :=
  let line := pa / 128 * 128
  let s := ((s.fillLine core hid pa).2).forget line hid (pa - line) n half
  { s with rcache := s.rcache.map fun l =>
      if l.holder = .core core ∧ l.line = line then { l with dirty := l.dirty ++ dirtyBytes (pa - line) hid va n v half } else l }

/-- The lines that a sys release or acquire of a core treats (R80, R99): its own, its CAC's, and those with bytes of the hart. -/
def RLine.inOrderOf (core hid : Nat) (l : RLine) : Bool :=
  l.holder == .core core || l.holder == cacOf core || l.dirty.any fun d => d.hid == hid

/-- Writing back every line of a core and of its CAC, and the lowest address that could not be sent. -/
def State.writeBackAll (s : State) (core hid : Nat) : State × Option Nat :=
  let mine := s.rcache.filter (RLine.inOrderOf core hid)
  (mine.foldl State.writeBack s, s.stuckIn mine)

/-- Bytes of the hart were discarded with a path and not yet reported: the fault that reports them (R371). -/
def State.reportLost (s : State) : Except Reject State :=
  match s.hart.lostBytes with
  | some a => .error { cause := 0x07, addr := a.toNat, why := 2 }
  | none => .ok s

/-- A sys release, or a sys fence naming `st` (R80, R98, R99): dirty bytes go out, or the lowest byte left is the
fault (R371). Bytes already discarded are reported once. DEDUCED, log 10. -/
def State.releaseSys (s : State) : Except Reject State := do
  let s ← s.reportLost
  match s.writeBackAll s.hart.place.core s.hart.place.hid with
  | (s', none) => .ok s'
  | (_, some a) => .error { cause := 0x07, addr := a, why := 2 }

/-- The copies in a core's cache and in its CAC dropped. -/
def State.dropLines (s : State) (core : Nat) : State :=
  { s with rcache := s.rcache.filter fun l => l.holder != .core core && l.holder != cacOf core }

/-- A sys acquire (R99): write-back, then the lines are invalidated. DEDUCED, log 10. -/
def State.acquireSys (s : State) : Except Reject State := s.releaseSys.map fun s => s.dropLines s.hart.place.core

/-- The report of discarded bytes is taken once (R371). -/
def State.clearLost (s : State) : State := { s with hart := { s.hart with lostBytes := none } }

/-- An access failure as a trap at a state. -/
def State.orTrap {α : Type} (s : State) (r : Except Reject α) : Run α :=
  match r with
  | .ok a => .ok a
  | .error e => .error (s.trapOf e, s)

/-- A sys release or acquire as a check: the report of discarded bytes is made once (R371). -/
def State.ordered (s : State) (r : Except Reject State) : Run State :=
  match r with
  | .ok s' => .ok s'
  | .error e => .error (s.trapOf e, s.clearLost)

/-! ### Single accesses -/

/-- How an access to remote memory is made (R99, R110). -/
inductive Route where
  | cached | through
deriving DecidableEq, Repr

/-- Where a buffered access and a load meet: the same physical byte, or the same byte of the window (R91, R106). -/
def StripRec.meets (r : StripRec) (l : Loc) (va k : Nat) : Option Nat :=
  match r.pin, l with
  | some p, .phys a => if a ≤ p + k then some (p + k - a) else none
  | none, .spad _ => if va ≤ r.addr + k then some (r.addr + k - va) else none
  | _, _ => none

/-- The buffered bytes of an open strip laid over bytes read at a location (R106). -/
def overlay (recs : List StripRec) (l : Loc) (va n v : Nat) : Nat :=
  recs.foldl (fun v r =>
    (List.range (2 ^ r.size)).foldl (fun v k =>
      match r.meets l va k with
      | some i =>
        if i < n then
          setBitsAt v (8 * i) 8 (mergeHalf (BitVec.ofNat 8 (bitsAt v (8 * i) 8)) (BitVec.ofNat 8 (bitsAt r.data (8 * k) 8)) r.half).toNat
        else v
      | none => v) v) v

/-- The unit of R347 whose data is uncorrectable. -/
def unitOf (pa : Nat) : Nat :=
  match targetOf pa with
  | .host => 3 | .remote _ _ => 4 | _ => 0

/-- Reading n bytes at a checked location (R80, R110): a remote line is read through the cache, or at its coherence
point after the hart's own bytes of it have gone there. Uncorrectable data is refused (R356). -/
def State.readAt (s : State) (p : Route) (l : Loc) (va n : Nat) : Except Reject (Nat × State) :=
  match l with
  | .spad i => if poisoned s.spadPoison i n then .error { cause := 0x12, addr := va, unit := 1 } else .ok (s.readLoc l n, s)
  | .phys a =>
    match targetOf a, p with
    | .remote _ _, .cached =>
      let (bad, unit) := match s.copyOf s.hart.place.core a with
        | some k => (poisoned k.poison a n, 2)
        | none => (poisoned s.poison a n, 4)
      if bad then .error { cause := 0x12, addr := va, unit := unit }
      else
        let (k, s) := s.fillLine s.hart.place.core s.hart.place.hid a
        .ok (bitsAt (s.view s.hart.place.hid k) (8 * (a - k.line)) (8 * n), s)
    | .remote _ _, .through =>
      let s := s.settle s.hart.place.hid a
      if poisoned s.poison a n then .error { cause := 0x12, addr := va, unit := 4 } else .ok (s.readLoc l n, s)
    | _, _ => if poisoned s.poison a n then .error { cause := 0x12, addr := va, unit := unitOf a } else .ok (s.readLoc l n, s)

/-- Half of a byte that its hart has already written and not sent goes out with it as one byte, the older one first (R94, R97). -/
def State.withOlder (s : State) (hid pa v : Nat) (half : Option Bool) : Nat × Option Bool :=
  match half with
  | none => (v, none)
  | some _ =>
    let own := (s.ownBytes hid (pa / 128 * 128)).filter fun d => d.off == pa % 128
    if own.any fun d => d.half.isNone then
      ((mergeHalf (own.foldl (fun b d => mergeHalf b d.byte d.half) 0) (BitVec.ofNat 8 v) half).toNat, none)
    else (v, half)

/-- Writing at a checked location that is no live barrier word: n bytes, or half of one (R94, R110). A write through to
remote memory stands in every copy of the line. -/
def State.writeOver (s : State) (p : Route) (l : Loc) (va n v : Nat) (half : Option Bool) : State :=
  match l with
  | .spad _ => s.putLoc l n v half
  | .phys a =>
    match targetOf a, p with
    | .remote _ _, .cached =>
      let (v, half) := s.withOlder s.hart.place.hid a v half
      s.writeLine s.hart.place.core s.hart.place.hid a va n v half
    | .remote _ _, .through =>
      let (v, half) := s.withOlder s.hart.place.hid a v half
      let line := a / 128 * 128
      ((s.putLoc l n v half).forget line s.hart.place.hid (a - line) n half).refresh line
        (dirtyBytes (a - line) s.hart.place.hid va n v half)
    | _, _ => s.putLoc l n v half

/-- Writing n bytes. -/
def State.writeAt (s : State) (p : Route) (l : Loc) (va n v : Nat) : State := s.writeOver p l va n v none

/-- The bytes read, the open strip's own over them (R106). -/
def State.laid (s : State) (l : Loc) (va n v : Nat) : Nat :=
  match s.strip? with
  | some st => overlay st.recs l va n v
  | none => v

/-- A load of n bytes (R148, R149): checks, then the strip's own bytes over memory's (R106). -/
def State.load (s : State) (p : Route) (va n : Nat) : Except Reject (Nat × State) := do
  let l ← s.locate .load va n n (p = .cached)
  let (v, s') ← s.readAt p l va n
  .ok (s.laid l va n v, s')

/-- The bytes a strip's buffer holds (R33). -/
def stripBytes (recs : List StripRec) : Nat := recs.foldl (fun n r => n + 2 ^ r.size) 0

/-- The record of a buffered store of n = 2^k bytes at a checked location. -/
def State.stripRec (s : State) (rel : Option Scope) (l : Loc) (va n v : Nat) (half : Option Bool) : StripRec :=
  let p := s.pinOf .store va
  { addr := va, size := n.log2, rel := rel, data := v % 2 ^ (8 * n), half := half, pin := l.phys?,
    page := p.page, asid := p.asid, glob := p.glob }

/-- Performing a checked store (R149, R252, R265): into the open strip's buffer, or to memory unless a live barrier word
stands there. -/
def State.put (s : State) (p : Route) (rel : Option Scope) (l : Loc) (va n v : Nat) (half : Option Bool) : Except Reject State :=
  match s.strip? with
  | some st =>
    if 65536 < stripBytes st.recs + n then .error { cause := 0x0E, addr := 0 }
    else .ok { s with hart := { s.hart with strip := some { st with recs := st.recs ++ [s.stripRec rel l va n v half] } } }
  | none =>
    if s.liveWord l then .error { cause := 0x08, addr := va / 8 * 8 }
    else .ok (s.writeOver p l va n v half)

/-- A store of n = 2^k bytes (R148, R149). -/
def State.store (s : State) (p : Route) (rel : Option Scope) (va n v : Nat) : Except Reject State := do
  let l ← s.locate .store va n n (p = .cached)
  s.put p rel l va n v none

/-- A free value's counter read and advanced. -/
def State.fresh (s : State) : Nat × State := (s.freeCtr, { s with freeCtr := s.freeCtr + 1 })

end Sys2Proof.Machine
end

