-- ==== Sys2Proof/Machine/Chance.lean ====
section
/-! DEFINITION. What the spec lets happen at a time it leaves open (DESIGN CHOICE, log 61): translation caches fill and lose
entries (20 R337), a remote line's dirty bytes move to the CAC (04 R80), another device writes its memory or refuses accesses
(05 R112, 20 R335), uncorrectable errors strike (21 R347, R356), a divisible instruction is cut (01 R19). -/

namespace Sys2Proof.Machine

/-- The entry of a level on the path of an address, as a cache may hold it (R337): it was read with V = 1 and is no fault. -/
def State.pathEntry (s : State) (c : Ctx) (holder : Cache) (va lvl : Nat) : List (Nat × Nat) → Nat → Option TransEntry
  | [], _ => none
  | (l, sh) :: rest, table =>
    match s.tableEntry c va sh table with
    | .error _ => none
    | .ok e =>
      if !bitAt e 0 || entryBad l sh e then none
      else if l = lvl then
        some { holder := holder, part := c.part, asid := c.asid, glob := bitAt e 1 && bitAt e 7, lvl := l,
               page := va / 2 ^ sh, entry := e }
      else if bitAt e 1 then none
      else s.pathEntry c holder va lvl rest (bitsAt e 15 37 * 2 ^ 15)

/-- A translation cache of the hart's core, or its chiplet's, takes an entry (R337). -/
def State.cacheEntry (s : State) (chip : Bool) (lvl va : Nat) : State :=
  let c := s.hart.ctx
  match s.pathEntry c (if chip then cacOf c.core else .core c.core) va lvl walkLevels (s.rootOf c) with
  | some e => { s with tlb := e :: s.tlb }
  | none => s

/-- A core's copy of a remote line goes to its CAC with its dirty bytes (R80). -/
def State.spillLine (s : State) (core line : Nat) : State :=
  match s.lineOf (.core core) line with
  | none => s
  | some l =>
    let s : State := { s with rcache := s.rcache.filter fun k => !(k.holder == .core core && k.line == l.line) }
    match s.lineOf (cacOf core) line with
    | some _ => { s with rcache := s.rcache.map fun k =>
        if k.holder = cacOf core ∧ k.line = l.line then { k with dirty := k.dirty ++ l.dirty } else k }
    | none => { s with rcache := { l with holder := cacOf core } :: s.rcache }

/-- Another device writes bytes of its own memory (R90, R112): no copy here follows. -/
def State.otherDevice (s : State) (pa : Nat) (data : List Byte) : State :=
  data.zipIdx.foldl (fun s (b, k) =>
    match targetOf (pa + k) with
    | .remote d _ => if d = s.device.val ∨ !s.inDomain d then s else s.writeLoc (.phys (pa + k)) 1 b.toNat
    | _ => s) s

/-- A remote line's device refuses accesses to it, or serves them again (R335). -/
def State.refuseLine (s : State) (line : Nat) (on : Bool) : State :=
  match targetOf line with
  | .remote _ _ =>
    let rest := s.refused.filter fun l => l != line
    if line % 128 = 0 then { s with refused := if on then line :: rest else rest } else s
  | _ => s

/-- An uncorrectable error strikes (R347, R356). -/
def State.struck (s : State) (w : Storage) : State :=
  let h := s.hart
  match w with
  | .v r => { s with hart := { h with v := h.v.set r.val { h.v[r.val] with poison := true } } }
  | .m r => { s with hart := { h with m := h.m.set r.val { h.m[r.val] with poison := true } } }
  | .q r => { s with hart := { h with q := h.q.set r.val { h.q[r.val] with poison := true } } }
  | .e r => { s with hart := { h with e := h.e.set r.val { h.e[r.val] with poison := true } } }
  | .t r => { s with hart := { h with tile := h.tile.map fun c => { c with t := c.t.set r.val { c.t[r.val] with poison := true } } } }
  | .z r => { s with hart := { h with tile := h.tile.map fun c => { c with z := c.z.set r.val { c.z[r.val] with poison := true } } } }
  | .spad i => if i < Config.cores * Config.spadBytes then { s with spadPoison := strike s.spadPoison i } else s
  | .line c pa => { s with rcache := s.rcache.map fun l =>
      if l.holder = c ∧ l.line = pa / 128 * 128 then { l with poison := strike l.poison pa } else l }

/-- One thing happens. -/
def State.happen (s : State) (c : Chance) : State :=
  match c with
  | .divide n => { s with hart := { s.hart with limit := some n } }
  | .cacheEntry chip lvl va => s.cacheEntry chip lvl va
  | .dropEntry n => { s with tlb := s.tlb.eraseIdx n }
  | .spillLine core line => s.spillLine core.val line
  | .otherDevice pa data => s.otherDevice pa data
  | .refuse line on => s.refuseLine line on
  | .strike w => s.struck w

end Sys2Proof.Machine
end

