-- ==== Sys2Proof/Machine/ZoneOps.lean ====
section
/-! DEFINITION. Landing zones as they stand in the scratchpad: handles, headers, slot-table entries, and what the zone
logic does to them (12 R242 to R247, R251, R252). -/

namespace Sys2Proof.Machine

/-- The fields of a handle or ticket (R242, R244). -/
def handleDev (h : Word) : Nat := bitsAt h.toNat 24 8
/-- The core of a handle, chiplet × 16 + core. -/
def handleCore (h : Word) : Nat := bitsAt h.toNat 16 3 * 16 + bitsAt h.toNat 8 4
/-- The zone number. -/
def handleZone (h : Word) : Nat := bitsAt h.toNat 0 4
/-- Bits that R242 makes zero in every handle or ticket. -/
def handleLowBad (h : Word) : Bool := bitsAt h.toNat 19 5 != 0 || bitsAt h.toNat 12 4 != 0 || bitsAt h.toNat 4 4 != 0
/-- Reserved bits of a handle. -/
def handleBad (h : Word) : Bool := handleLowBad h || bitsAt h.toNat 32 32 != 0
/-- Reserved bits of a ticket (R244). -/
def ticketBad (t : Word) : Bool := handleLowBad t || bitsAt t.toNat 32 8 != 0
/-- SLOT of a ticket. -/
def ticketSlot (t : Word) : Nat := bitsAt t.toNat 40 8
/-- GEN of a ticket. -/
def ticketGen (t : Word) : Nat := bitsAt t.toNat 48 16

/-- The handle of a zone of this device. -/
def handleOf (dev core num : Nat) : Nat := dev * 2 ^ 24 + core / 16 * 2 ^ 16 + core % 16 * 2 ^ 8 + num

/-- The live zone of a core and number. -/
def State.zoneAt (s : State) (core num : Nat) : Option Zone := s.zones.find? fun z => z.core == core && z.num == num

/-- The eyelet size (R248). -/
def Zone.eyelet (z : Zone) : Nat := 2 ^ (12 + z.loge)
/-- The window offset of eyelet 0: the next multiple of the eyelet size after the slot table (R243). -/
def Zone.eye0 (z : Zone) : Nat := (z.base + 256 + 8 * z.slots + z.eyelet - 1) / z.eyelet * z.eyelet
/-- The window offset after the last eyelet. -/
def Zone.stop (z : Zone) : Nat := z.eye0 + z.slots * z.eyelet
/-- A byte of the zone's region by window offset. -/
def Zone.byte (z : Zone) (off : Nat) : Nat := spadIndex z.core z.pieces off

/-- A header word (R243): 0 STATE, 1 ARRIVE, 2 TORN, 3 GEN, 4 SHAPE, 5 EYE0. -/
def State.zoneWord (s : State) (z : Zone) (k : Nat) : Nat := Memory.readN s.spad (z.byte (z.base + 8 * k)) 8
/-- Writing a header word. -/
def State.setZoneWord (s : State) (z : Zone) (k v : Nat) : State :=
  s.writeLoc (.spad (z.byte (z.base + 8 * k))) 8 v
/-- A slot-table entry. -/
def State.entry (s : State) (z : Zone) (slot : Nat) : Nat := s.zoneWord z (32 + slot)
/-- Writing an entry. -/
def State.setEntry (s : State) (z : Zone) (slot v : Nat) : State := s.setZoneWord z (32 + slot) v

/-- ST of an entry: 0 FREE, 1 RESERVED, 2 FILLING, 3 FULL, 4 TORN. -/
def entrySt (e : Nat) : Nat := bitsAt e 32 3
/-- SDEV of an entry. -/
def entryDev (e : Nat) : Nat := bitsAt e 40 8
/-- GEN of an entry. -/
def entryGen (e : Nat) : Nat := bitsAt e 48 16
/-- LEN of an entry. -/
def entryLen (e : Nat) : Nat := bitsAt e 0 19
/-- FIB of an entry. -/
def entryFib (e : Nat) : Bool := bitAt e 31

/-- The lowest-numbered FREE eyelet. -/
def State.freeSlot (s : State) (z : Zone) : Option Nat := (List.range z.slots).find? fun k => entrySt (s.entry z k) == 0

/-- The zone's owner, when it is switched out: its zones then accept nothing (R250). DEDUCED, log 51. -/
def State.ownerAway (s : State) (z : Zone) : Bool := s.harts.any fun h => h.place.hid == z.owner && h.phase == .switched

/-- The window address, at the receiver, of the eyelet a ticket names (R241); a zone that is not here gives a free value
(DESIGN CHOICE, log 21). -/
def State.eyeletAddr (s : State) (t : Word) : Word :=
  match (if handleDev t = s.device.val then s.zoneAt (handleCore t) (handleZone t) else none) with
  | some z => BitVec.ofNat 64 (windowBase + z.eye0 + ticketSlot t * z.eyelet)
  | none => BitVec.ofNat 64 (Config.remoteEyelet t.toNat)

/-- `lz.res` at the zone (R245, R247): the word for x[d] and c7, and the state with the eyelet reserved for a device and
the sender's chiplet. `part` is the sender's partition, none for another device. -/
def State.reserve (s : State) (h : Word) (dev chip : Nat) (part : Option (Fin 8)) : Nat × Bool × State :=
  match s.zoneAt (handleCore h) (handleZone h) with
  | none => (2, true, s)
  | some z =>
    if part.isSome && part != some z.part then (2, true, s)
    else if s.zoneWord z 0 = 2 then (3, true, s)
    else match s.freeSlot z with
      | none => (1, true, s)
      | some k =>
        let gen := s.zoneWord z 3 % 2 ^ 16
        let t := gen * 2 ^ 48 + k * 2 ^ 40 + handleOf s.device.val z.core z.num
        let s := s.setEntry z k (gen * 2 ^ 48 + dev * 2 ^ 40 + 1 * 2 ^ 32)
        (t, false, { s with fills := ⟨z.core, z.num, k, chip, none, 0, false⟩ :: s.fills })

/-- The first request of a transfer (R246): a refusal code, or the zone's state with the eyelet FILLING. -/
def State.firstRequest (s : State) (t : Word) (dev chip : Nat) (part : Option (Fin 8)) (x : Transfer) (size : Nat)
    (fib : Bool) : Except Nat State :=
  if ticketBad t then .error 0x07
  else match s.zoneAt (handleCore t) (handleZone t) with
    | none => .error 0x08
    | some z =>
      if part.isSome && part != some z.part then .error 0x08
      else if s.zoneWord z 0 = 2 then .error 0x0A
      else
        let k := ticketSlot t
        let e := s.entry z k
        if z.slots ≤ k ∨ entrySt e ≠ 1 ∨ entryDev e ≠ dev ∨ entryGen e ≠ ticketGen t ∨ s.zoneWord z 3 % 2 ^ 16 ≠ ticketGen t
        then .error 0x07
        else if z.eyelet < size then .error 0x09
        else
          let s := s.setEntry z k (setBitsAt e 32 3 2)
          let old := s.fills.filter fun f => !(f.core == z.core && f.zone == z.num && f.slot == k)
          .ok { s with fills := ⟨z.core, z.num, k, chip, some x, size, fib⟩ :: old }

/-- Whether a slot record is that of a transfer. -/
def Fill.isOf (f : Fill) (x : Transfer) : Bool :=
  match f.xfer, x with
  | some (.mine h c), .mine h' c' => h == h' && c == c'
  | some (.theirs d t _ _), .theirs d' t' _ _ => d == d' && t == t'
  | _, _ => false

/-- Whether a slot record is that of a transfer of another device. -/
def Fill.ofSender (f : Fill) (dev : Fin 256) (ticket : Word) : Bool :=
  match f.xfer with
  | some (.theirs d t _ _) => d == dev && t == ticket
  | _ => false

/-- The record of a transfer that is filling an eyelet. -/
def State.fillOf (s : State) (x : Transfer) : Option Fill := s.fills.find? fun f => f.isOf x

/-- The last byte has arrived (R245): LEN and FIB are written, the eyelet is FULL, ARRIVE rises. -/
def State.eyeletFull (s : State) (z : Zone) (f : Fill) : State :=
  let e := s.entry z f.slot
  let s := s.setEntry z f.slot (entryGen e * 2 ^ 48 + entryDev e * 2 ^ 40 + 3 * 2 ^ 32 + f.fib.toNat * 2 ^ 31 + f.size)
  let s := s.setZoneWord z 1 (s.zoneWord z 1 + 1)
  { s with fills := s.fills.filter fun g => g != f }

/-- Payload bytes arrive in ascending order (R245, R246): they go straight into the eyelet, and LEN counts them. -/
def State.arrive (s : State) (z : Zone) (f : Fill) (data : List Byte) : State :=
  let e := s.entry z f.slot
  let got := entryLen e
  let data := data.take (f.size - got)
  let s := data.zipIdx.foldl (fun s (b, k) =>
    s.writeLoc (.spad (z.byte (z.eye0 + f.slot * z.eyelet + got + k))) 1 b.toNat) s
  let s := s.setEntry z f.slot (setBitsAt e 0 19 (got + data.length))
  if got + data.length = f.size then s.eyeletFull z f else s

/-- An eyelet tears (R245): TORN rises. -/
def State.tear (s : State) (f : Fill) : State :=
  let s := { s with fills := s.fills.filter fun g => g != f }
  match s.zoneAt f.core f.zone with
  | none => s
  | some z => (s.setEntry z f.slot (setBitsAt (s.entry z f.slot) 32 3 4)).setZoneWord z 2 (s.zoneWord z 2 + 1)

/-- A copy met a live barrier word (R252): its zone becomes BROKEN, or its barrier object broken. -/
def State.clobber (s : State) (l : Loc) : State :=
  match l with
  | .spad i =>
    match s.zones.find? fun z => z.core == i / Config.spadBytes && z.covers i with
    | some z => s.setZoneWord z 0 2
    | none => s
  | .phys a =>
    match s.barriers.find? fun b => decide (b.addr ≤ a) && decide (a < b.addr + 16) with
    | some b => { s with mem := Memory.writeN s.mem b.addr 8 (setBitAt (Memory.readN s.mem b.addr 8) 33 true) }
    | none => s

end Sys2Proof.Machine
end

