-- ==== Sys2Proof/Machine/Fetch.lean ====
section
/-! DEFINITION. Fetching an instruction's words (06 R113, R117, R120, R123), what a hart does in its turn, and the
memory image that places one instruction for the next fetch. -/

namespace Sys2Proof.Machine

/-- The hart-exit address (R24). -/
def exitAddress : Word := 0x7FFFFFFFFFFF0

/-- The fetched word and pair flag kept for FINFO (R346). DESIGN CHOICE, log 17. -/
def State.latch (s : State) (w : BitVec 32) (pair : Bool) : State :=
  { s with hart := { s.hart with iword := w, ipair := pair } }

/-- Every presence bit set (R37). -/
def State.present (s : State) : State :=
  if s.hart.v.toList.any fun r => r.owed != 0 then
    { s with hart := { s.hart with v := s.hart.v.map fun r => { r with owed := 0 } } }
  else s

/-- One word (R113): the bytes that stand in memory as the instruction issues, or in the core's copy of a remote line. R125
lets a fetch that no sequence orders after a store see the old word, the new one or a mixed pair; the model's fetch sees the
new one (DESIGN CHOICE, log 17). -/
def fetchWord (s : State) (a : Word) : Except Reject (Nat × State) := do
  let l ← s.locate .fetch a.toNat 4 4 true
  s.readAt .cached l a.toNat 4

/-- The word at the program counter and, after a leading word, the word behind it (R117, R120). A fault on the first word
reports INSTR 0 and PAIR 0; one on the second reports the leading word and PAIR 1 (R346). -/
def fetch (s : State) : Run (Nat × Nat × State) := do
  let s0 := s.present.latch 0 false
  let (w1, s1) ← s0.orTrap (fetchWord s.present s.hart.pc)
  if isLeading w1 && s.hart.pc + 4 != exitAddress then
    let sp := s.present.latch (BitVec.ofNat 32 w1) true
    let (w2, s2) ← sp.orTrap (fetchWord s1 (s.hart.pc + 4))
    .ok (w1, w2, s2)
  else .ok (w1, 127, s1)

/-- Whether the second of two illegal words is the one found illegal (R124): alone it is no instruction, or its dynamic mode meets
an FCSR.RM of 5 to 7. DEDUCED, log 16. -/
noncomputable def State.blamesSecond (s : State) (w1 w2 : Nat) (second : Bool) : Bool :=
  second || (secondDynamic w1 w2 && (roundingOf s.hart.fcsr.rm).isNone)

/-- What a hart does in its turn. -/
inductive Turn where
  | event | exit | instruction
  | copy (ch : ChNum)
  | accept | recheck | switch | nothing
deriving DecidableEq, Repr

/-- A pending asynchronous event that the hart takes now (R299, R345): at user level, or at kernel level with AIE. -/
def Hart.takesEvent (h : Hart) : Bool :=
  (h.pend20.isSome || h.pend21.isSome || h.pend22.isSome) &&
    (h.priv.level == .user || (h.priv.level == .kernel && h.priv.aie))

/-- What a copy counts its progress in: elements, or the bytes of a message (R241). -/
def CopyCmd.units (k : CopyCmd) : Nat := if k.form = .qsend then k.msg.length else k.n

/-- A channel whose copy can move on without an outside event (DESIGN CHOICE, log 13): running, not stopped by a lost path, and not
waiting for another device to acknowledge. -/
def Channel.canMove (c : Channel) : Bool :=
  c.state == .running && !c.pend && !(c.begun && c.rem && (match c.cmd with | some k => decide (k.units ≤ c.sent) | none => true))

/-- A transfer into a zone of this device whose owner is switched out waits (R250). -/
def State.channelHeld (s : State) (c : Channel) : Bool :=
  c.rem && (match c.cmd with
    | some k => handleDev k.xa == s.device.val &&
        (match s.zoneAt (handleCore k.xa) (handleZone k.xa) with | some z => s.ownerAway z | none => false)
    | none => false)

/-- The lowest channel of the hart whose copy can move on. -/
def State.movable (s : State) : Option ChNum :=
  (List.finRange 8).find? fun k => let c := s.hart.ch[k.val]; c.canMove && !s.channelHeld c

/-- What the hart whose turn it is does. DESIGN CHOICE, log 39. -/
def State.turnKind (s : State) : Turn :=
  let h := s.hart
  match h.phase with
  | .active =>
    if h.takesEvent then .event
    else match h.waiting with
      | some (.channel _ _ _) => match s.movable with | some c => .copy c | none => .accept
      | some .switchOut => .switch
      | some _ => match s.movable with | some c => .copy c | none => .nothing
      | none => if h.pc = exitAddress then .exit else .instruction
  | .monitor =>
    if h.takesEvent then .event
    else match s.movable with | some c => .copy c | none => .recheck
  | .ended => match s.movable with | some c => .copy c | none => .nothing
  | .empty => .nothing
  | .switched => .nothing

/-- An event the machine takes: without module power only a power-up (R376, R379). -/
def State.hears (s : State) (e : Instr) : Bool :=
  match e with
  | .powerUp => true
  | _ => e.isEvent && s.power

/-- The page tables and the words of `State.withFetchWord`: root at 0, level 2 at 0x8000, level 1 at 0x1_0000, page at
0x1_8000, mapping 0x1_0000_0000. -/
def fetchImage (w : Nat) (m : List Host.Cell) : List Host.Cell :=
  let m := Memory.writeN m 0 8 (0x8000 + 1)
  let m := Memory.writeN m (0x8000 + 8 * 32) 8 (0x10000 + 1)
  let m := Memory.writeN m 0x10000 8 (0x18000 + 0x7B)
  Memory.writeN m 0x18000 8 (w % 2 ^ 64)

end Sys2Proof.Machine
end

