-- ==== Sys2Proof/Machine/Engine.lean ====
section
/-! DEFINITION. The copy engines (12 R233 to R240, 04 R81 to R84): accepting a command, moving one element, and
draining what a later access of the hart must wait for. -/

namespace Sys2Proof.Machine

/-- A channel of the hart. -/
def State.chan (s : State) (k : ChNum) : Channel := s.hart.ch[k.val]
/-- Writing a channel. -/
def State.setChan (s : State) (k : ChNum) (c : Channel) : State :=
  { s with hart := { s.hart with ch := s.hart.ch.set k.val c } }

/-- Bytes of one move: an fp4 copy moves whole bytes (R237). -/
def CopyCmd.width (k : CopyCmd) : Nat := if k.form = .qsend then 1 else Nat.max 1 (tagBits k.tag / 8)
/-- What one move adds to the progress (R237). -/
def CopyCmd.per (k : CopyCmd) : Nat := if k.tag = .fp4 ∧ k.form ≠ .qsend then 2 else 1
/-- The number of moves. -/
def CopyCmd.moves (k : CopyCmd) : Nat := k.n / k.per
/-- Payload bytes of a transfer into an eyelet (R246). -/
def CopyCmd.payload (k : CopyCmd) : Nat := if k.form = .qsend then k.msg.length else k.moves * k.width

/-- The row and column of move e of a `cpy2`: those of its first element (R237, DEDUCED, log 22). -/
def CopyCmd.row (k : CopyCmd) (e : Nat) : Nat := e * k.per / k.vl
/-- The column of move e in bytes. -/
def CopyCmd.col (k : CopyCmd) (e : Nat) : Nat := e * k.per % k.vl / k.per * k.width

/-- The source address of move e (R237). -/
def CopyCmd.src (k : CopyCmd) (e : Nat) : Word :=
  let w := k.width
  match k.form with
  | .cpy2 => k.xb + BitVec.ofNat 64 (k.row e) * k.xc + BitVec.ofNat 64 (k.col e)
  | .cpyG => k.xb + BitVec.ofInt 64 (k.idx.getD e 0 * w)
  | _ => k.xb + BitVec.ofNat 64 (e * w)

/-- The destination address of move e (R237). -/
def CopyCmd.dst (k : CopyCmd) (e : Nat) : Word :=
  let w := k.width
  match k.form with
  | .cpy2 => k.xa + BitVec.ofNat 64 (k.row e) * k.pitch + BitVec.ofNat 64 (k.col e)
  | .cpyGd => k.xa + BitVec.ofInt 64 (k.idx.getD e 0 * w)
  | _ => k.xa + BitVec.ofNat 64 (e * w)

/-- The least and greatest of the addresses of all moves, as displacements from a base. -/
def spanOf (f : Nat → Int) : Nat → Int × Int
  | 0 => (0, 0)
  | 1 => (f 0, f 0)
  | n + 1 => let (lo, hi) := spanOf f n; (min lo (f n), max hi (f n))

/-- The displacement of move e's source from x[b]. -/
def CopyCmd.srcOff (k : CopyCmd) (e : Nat) : Int :=
  match k.form with
  | .cpy2 => (k.row e : Int) * k.xc.toInt + (k.col e : Int)
  | .cpyG => k.idx.getD e 0 * k.width
  | _ => (e * k.width : Nat)

/-- The displacement of move e's destination from x[a]. -/
def CopyCmd.dstOff (k : CopyCmd) (e : Nat) : Int :=
  match k.form with
  | .cpy2 => (k.row e : Int) * k.pitch.toInt + (k.col e : Int)
  | .cpyGd => k.idx.getD e 0 * k.width
  | _ => (e * k.width : Nat)

/-- D, the lowest destination address (R81), of a local copy. -/
def CopyCmd.lowest (k : CopyCmd) : Word := k.xa + BitVec.ofInt 64 (spanOf k.dstOff k.moves).1

/-- CWM after `p` moves (R81). -/
def CopyCmd.watermark (k : CopyCmd) (desc : Bool) (d : Word) (p : Nat) : Word :=
  let whole := if p = k.moves ∧ p ≠ 0 then k.xa + BitVec.ofInt 64 ((spanOf k.dstOff k.moves).2 + k.width) else d
  match k.form with
  | .cpy => if desc then whole else d + BitVec.ofNat 64 (p * k.width)
  | .cpyG => d + BitVec.ofNat 64 (p * k.width)
  | .cpy2 => if 0 < k.pitch.toInt then d + BitVec.ofNat 64 (p * k.per / k.vl) * k.pitch else whole
  | .cpyGd => whole
  | .cpyR => d + BitVec.ofNat 64 (p * k.width)
  | .qsend => d + BitVec.ofNat 64 p

/-- The status code of a failed check (R235). -/
def codeOf (r : Reject) : Nat :=
  if r.cause = 0x04 ∨ r.cause = 0x05 then 0x01 else if r.cause = 0x03 then 0x03 else if r.cause = 0x12 then 0x04 else 0x02

/-- An access that waits for a row under repair (R380): the copy goes on later. -/
def Reject.holds (r : Reject) : Bool := r.cause == holdCause

/-- A channel whose copy ends FAILED (R235). -/
def Channel.fail (c : Channel) (code : Nat) (addr : Word) : Channel :=
  { c with state := .failed, code := code, pend := false, failAddr := addr }

/-- A channel whose copy is DONE. -/
def Channel.finish (c : Channel) : Channel := { c with state := .done, code := 0, pend := false }

/-- A channel stopped by a lost path (R251 step 2). -/
def Channel.stop (c : Channel) : Channel := { c with code := 0x05, pend := true }

/-- The translation context of a copy: that of its issue. -/
def State.copyCtx (s : State) (k : CopyCmd) : Ctx := ⟨k.user, s.hart.place.part, k.root, k.asid, s.hart.place.core⟩

/-- The checks of a move's source or destination (R237): checks 1 to 4 of R148. -/
def State.copyLoc (s : State) (k : CopyCmd) (acc : Access) (a : Word) : Except Reject Loc :=
  s.locateIn (s.copyCtx k) acc a.toNat k.width k.width false

/-- Reading the source bytes of a move at their coherence point, after the hart's own earlier writes of them (R97, R104). -/
def State.copyRead (s : State) (k : CopyCmd) (a : Word) : Except Reject (Nat × State) := do
  let l ← s.copyLoc k .load a
  s.readAt .through l a.toNat k.width

/-- One move of a copy within what the hart can address (R237). -/
def State.copyLocal (s : State) (ch : ChNum) (k : CopyCmd) : State :=
  let c := s.chan ch
  let done := c.progress / k.per
  if k.moves ≤ done then s.setChan ch c.finish
  else
    let e := if c.desc then k.moves - 1 - done else done
    let src := k.src e
    let dst := k.dst e
    let moved : Except Reject (Loc × Loc) := do
      let l ← s.copyLoc k .load src
      .ok (l, ← s.copyLoc k .store dst)
    match moved with
    | .error r => if r.holds then s else s.setChan ch (c.fail (codeOf r) (BitVec.ofNat 64 r.addr))
    | .ok (ls, ld) =>
      if s.liveWord ld then (s.clobber ld).setChan ch (c.fail 0x06 dst)
      else
        match s.readAt .through ls src.toNat k.width with
        | .error r => s.setChan ch (c.fail (codeOf r) (BitVec.ofNat 64 r.addr))
        | .ok (v, s) =>
          let s := s.writeAt .through ld dst.toNat k.width v
          let c := { c with progress := c.progress + k.per, cwm := k.watermark c.desc c.dest (done + 1) }
          s.setChan ch (if done + 1 = k.moves then c.finish else c)

/-- The bytes a transfer sends next, after `sent` units: of its message, those read ahead, or those at its source; or the
failure of reading them. -/
def State.nextPayload (s : State) (k : CopyCmd) (sent : Nat) (ahead : List Byte) : Except Reject (List Byte × Nat × State) :=
  if k.form = .qsend then .ok ((k.msg.drop sent).take 8, Nat.min 8 (k.msg.length - sent), s)
  else if k.width ≤ ahead.length then .ok (ahead.take k.width, k.per, s)
  else do
    let (v, s) ← s.copyRead k (k.src (sent / k.per))
    .ok (bytesOf k.width v, k.per, s)

/-- The number of payload bytes that `u` units are. -/
def CopyCmd.bytesFor (k : CopyCmd) (u : Nat) : Nat := if k.form = .qsend then u else u / k.per * k.width

/-- The first element's source fails its checks: the transfer ends before its first request (R235, R237). -/
def State.sourceBad (s : State) (k : CopyCmd) : Option Reject :=
  if k.form = .qsend ∨ k.payload = 0 then none
  else match s.copyLoc k .load (k.src 0) with
    | .error r => some r
    | .ok _ => none

/-- A transfer that has made no request meets the lost path to its zone (R251): it stops, or fails when the path is lost
for good. -/
def State.cutOff (s : State) (ch : ChNum) (good : Bool) : State :=
  s.setChan ch (if good then (s.chan ch).fail 0x05 0 else (s.chan ch).stop)

/-- The first request of a transfer (R246, R251): for a zone of this device the zone decides now; for another device the
request is sent. While the path is lost no request is made; a first element whose source fails makes none either. -/
def State.transferBegin (s : State) (ch : ChNum) (k : CopyCmd) : State :=
  let c := s.chan ch
  let t := k.xa
  let chip := s.hart.place.core / 16
  let fib := k.form = .qsend
  let here := handleDev t = s.device.val
  let far := handleCore t / 16
  if here ∧ s.chipletsLost chip far then s.cutOff ch (s.chipletsGone chip far)
  else if ¬ here ∧ s.inDomain (handleDev t) ∧ s.deviceLost (handleDev t) then s.cutOff ch (s.deviceGone (handleDev t))
  else match s.sourceBad k with
  | some r => if r.holds then s else s.setChan ch (c.fail (codeOf r) (BitVec.ofNat 64 r.addr))
  | none =>
    if ticketBad t then s.setChan ch (c.fail 0x07 0)
    else if here then
      match s.zoneAt (handleCore t) (handleZone t) with
      | some z =>
        if s.ownerAway z then s
        else match s.firstRequest t s.device.val chip (some s.hart.place.part) (.mine s.hart.place.hid ch) k.payload fib with
          | .error code => s.setChan ch (c.fail code 0)
          | .ok s' =>
            let c := { c with begun := true }
            if k.payload = 0 then
              match s'.fillOf (.mine s.hart.place.hid ch) with
              | some f => (s'.eyeletFull z f).setChan ch c.finish
              | none => s'.setChan ch c
            else s'.setChan ch c
      | none => s.setChan ch (c.fail 0x08 0)
    else if !s.inDomain (handleDev t) then s.setChan ch (c.fail 0x08 0)
    else if !s.linkUp then s
    else (s.send (.firstRequest (handleDev t) t k.payload fib)).setChan ch { c with begun := true }

/-- The next payload bytes of a transfer (R245, R246): into the eyelet, acknowledged at once, for a zone of this device;
out of the module for another. A source that fails ends the copy and tears the eyelet (R235). -/
def State.transferMove (s : State) (ch : ChNum) (k : CopyCmd) : State :=
  let c := s.chan ch
  let t := k.xa
  if handleDev t = s.device.val then
    match s.fillOf (.mine s.hart.place.hid ch), s.zoneAt (handleCore t) (handleZone t) with
    | some f, some z =>
      if s.ownerAway z then s
      else match s.nextPayload k c.sent c.ahead with
        | .error r => if r.holds then s else (s.tear f).setChan ch (c.fail (codeOf r) (BitVec.ofNat 64 r.addr))
        | .ok (data, u, s) =>
          let s := s.arrive z f data
          let c := { c with sent := c.sent + u, ahead := c.ahead.drop k.width, progress := k.bytesFor (c.sent + u),
                            cwm := c.dest + BitVec.ofNat 64 (k.bytesFor (c.sent + u)) }
          s.setChan ch (if k.units ≤ c.sent then c.finish else c)
    | _, _ => s.setChan ch (c.fail 0x08 0)
  else if k.units ≤ c.sent then s
  else match s.nextPayload k c.sent c.ahead with
    | .error r => if r.holds then s else (s.send (.transferFailed (handleDev t) t)).setChan ch (c.fail (codeOf r) (BitVec.ofNat 64 r.addr))
    | .ok (data, u, s) =>
      (s.send (.payload (handleDev t) t data)).setChan ch { c with sent := c.sent + u, ahead := c.ahead.drop k.width }

/-- One move of a channel's copy. -/
def State.copyMove (s : State) (ch : ChNum) : State :=
  let c := s.chan ch
  if c.canMove then
    match c.cmd with
    | none => s
    | some k =>
      if c.rem then (if c.begun then s.transferMove ch k else s.transferBegin ch k)
      else s.copyLocal ch k
  else s

/-- Moving a channel on, at most `fuel` times. -/
def State.runChannel (s : State) (ch : ChNum) : Nat → State
  | 0 => s
  | n + 1 => if (s.chan ch).canMove then (s.copyMove ch).runChannel ch n else s

/-- Moves that are enough to finish a channel's copy. -/
def Channel.fuel (c : Channel) : Nat := match c.cmd with | some k => k.units + 2 | none => 0

/-- The source bytes that a held transfer has still to read are read ahead, up to a failure (R104: a later write of the hart
to them comes after the copy's read). -/
def State.readAhead (s : State) (ch : ChNum) (k : CopyCmd) : Nat → State
  | 0 => s
  | n + 1 =>
    let c := s.chan ch
    let next := c.sent / k.per + c.ahead.length / k.width
    if k.moves ≤ next then s
    else match s.copyRead k (k.src next) with
      | .error _ => s
      | .ok (v, s') => (s'.setChan ch { c with ahead := c.ahead ++ bytesOf k.width v }).readAhead ch k n

/-- A channel's copy moved as far as it goes by itself; a transfer that is held back reads ahead. -/
def State.drainChannel (s : State) (ch : ChNum) : State :=
  let s := s.runChannel ch (s.chan ch).fuel
  match (s.chan ch).cmd with
  | some k => if (s.chan ch).state = .running ∧ k.form = .cpyR then s.readAhead ch k k.moves else s
  | none => s

/-- Every copy of the hart moved as far as it goes by itself: what an access of the hart that follows a copy waits for
(R82, R83, R104, DESIGN CHOICE, log 13). -/
def State.drain (s : State) : State := (List.finRange 8).foldl State.drainChannel s

/-- Outstanding batches (R240): one for each batch of which a copy is still running. -/
def Hart.cbatch (h : Hart) : Nat :=
  ((h.ch.toList.filter fun c => c.state == .running).filterMap fun c => c.cmd.map CopyCmd.batch).eraseDups.length

/-- The byte spans of the sources and the destinations of an indexed or 2-D copy overlap (R238 item 4). -/
def CopyCmd.spansMeet (k : CopyCmd) : Bool :=
  let ss := spanOf k.srcOff k.moves
  let ds := spanOf k.dstOff k.moves
  let lo (b : Word) (p : Int × Int) : Int := (b.toNat : Int) + p.1
  let hi (b : Word) (p : Int × Int) : Int := (b.toNat : Int) + p.2 + k.width
  (k.form == .cpy2 || k.form == .cpyG || k.form == .cpyGd) && k.moves != 0 &&
    decide (lo k.xb ss < hi k.xa ds) && decide (lo k.xa ds < hi k.xb ss)

/-- An engine fault (R238): FINFO names the channel, and bit 3 the check. -/
def engineFault (ch : ChNum) (span : Bool) : Trap := ⟨0x0C, 0, BitVec.ofNat 64 (ch.val + span.toNat * 8)⟩

/-- The channel that a command becomes (R233, R237): DESC is fixed, and an empty copy is DONE at once. -/
def State.taken (s : State) (k : CopyCmd) : Channel :=
  let rem := k.form = .cpyR ∨ k.form = .qsend
  let xa := k.xa.toNat
  let xb := k.xb.toNat
  let desc := k.form = .cpy ∧ xb < xa ∧ xa < xb + k.moves * k.width
  let d := if rem then s.eyeletAddr k.xa else k.lowest
  { state := if ¬ rem ∧ k.n = 0 then .done else .running, desc := desc, rem := rem, cwm := d, dest := d, cmd := some k }

/-- Both ends of a copy lie on this device: its `.rel` has scope dev, else sys (R104). -/
def State.copyStays (s : State) (k : CopyCmd) : Bool :=
  let onDevice (acc : Access) (a : Word) : Bool :=
    match s.resolveIn (s.copyCtx k) acc a.toNat k.width 1 with
    | .ok (.phys pa) => (match targetOf pa with | .hbm => true | .nothing => true | _ => false)
    | _ => true
  let es := List.range k.moves
  if k.form = .qsend then handleDev k.xa == s.device.val
  else if k.form = .cpyR then handleDev k.xa == s.device.val && es.all fun e => onDevice .load (k.src e)
  else es.all fun e => onDevice .load (k.src e) && onDevice .store (k.dst e)

/-- A `.rel` copy whose release cannot be made yet: dirty bytes that its scope covers cannot go out (R104, R108). Its command
waits for its channel meanwhile. DEDUCED, log 45. -/
def State.releaseStuck (s : State) (k : CopyCmd) : Bool :=
  k.rel && (s.writeBackAll s.hart.place.core s.hart.place.hid).2.isSome && !s.copyStays k

/-- Acceptance of a command by its channel (R233): a FAILED channel and meeting spans are engine faults (R238). The copy
joins the open batch (R240). Before a `.rel` copy the core's dirty remote bytes go out (R104); the cache may send them at
any time (R110). DEDUCED, log 45. -/
def State.accept (s : State) (ch : ChNum) (k : CopyCmd) : Run State :=
  if (s.chan ch).state = .failed then s.trap (engineFault ch false)
  else if k.spansMeet then s.trap (engineFault ch true)
  else
    let s := if k.rel then (s.writeBackAll s.hart.place.core s.hart.place.hid).1 else s
    let k := { k with batch := s.hart.batch }
    .ok (s.setChan ch (s.taken k))

/-- The channel cannot accept a command yet (R233). -/
def State.busy (s : State) (ch : ChNum) (k : CopyCmd) : Bool :=
  (s.chan ch).state == .running || (decide ((s.chan ch).state ≠ .failed) && s.releaseStuck k)

end Sys2Proof.Machine
end

