-- ==== Sys2Proof/Machine/Launch.lean ====
section
/-! DEFINITION. Launch packets, work queues and completion signals (19 R311 to R317, 01 R21, R22). -/

namespace Sys2Proof.Machine

/-- A word of a launch's packet (R312): 0 ENTRY, 1 ARGS, 2 DEPADDR, 3 DEPVAL, 4 DONEADDR, 5 DONESEQ, 6 CTL, 7 zero. -/
def Launch.word (l : Launch) (k : Nat) : Word := l.words.getD k 0
/-- CTL.HARTS. -/
def Launch.harts (l : Launch) : Nat := bitsAt (l.word 6).toNat 0 12
/-- CTL.MINLG. -/
def Launch.minlg (l : Launch) : Nat := bitsAt (l.word 6).toNat 12 3
/-- CTL.PREFLG. -/
def Launch.preflg (l : Launch) : Nat := bitsAt (l.word 6).toNat 16 3
/-- CTL.PIECES. -/
def Launch.pieces (l : Launch) : Nat := bitsAt (l.word 6).toNat 24 6
/-- CTL.CORES: the co-resident flag. -/
def Launch.cores (l : Launch) : Bool := bitAt (l.word 6).toNat 32
/-- CTL.PRIO. -/
def Launch.pri (l : Launch) : Nat := bitsAt (l.word 6).toNat 36 3

/-- A packet with a reserved bit set or a misaligned address (R312, R317). PART, bits [42:40], is ignored. -/
def packetBad (l : Launch) : Bool :=
  let c := (l.word 6).toNat
  (l.word 0).toNat % 4 != 0 || bitsAt (l.word 0).toNat 51 13 != 0 ||
    (l.word 1).toNat % 64 != 0 || (l.word 2).toNat % 8 != 0 || (l.word 4).toNat % 8 != 0 ||
    bitsAt (l.word 5).toNat 56 8 != 0 || l.word 7 != 0 ||
    bitsAt c 43 21 != 0 || bitAt c 39 || bitsAt c 33 3 != 0 || bitsAt c 30 2 != 0 || bitsAt c 19 5 != 0 || bitAt c 15

/-- CTL with the scheduler's PART written (R312). -/
def withPart (words : List Word) (p : Fin 8) : List Word :=
  words.set 6 (BitVec.ofNat 64 (setBitsAt (words.getD 6 0).toNat 40 3 p.val))

/-- The queue of a number; a queue that is not listed is at its reset state. -/
def State.queue (s : State) (q : Nat) : Queue := ((s.queues.find? fun e => e.1 == q).map (·.2)).getD {}
/-- A queue replaced. -/
def State.setQueue (s : State) (q : Nat) (v : Queue) : State :=
  { s with queues := (s.queues.filter fun e => decide (e.1 < q)) ++ (q, v) :: (s.queues.filter fun e => decide (q < e.1)) }

/-- Entries in use of a queue's 64 (R311, R314). -/
def Queue.used (q : Queue) : Nat := q.packets.length + (if q.head.isSome then 1 else 0)

/-- Enqueuing a packet, or dropping it when the queue is full (R311). -/
def State.enqueue (s : State) (q : Nat) (words : List Word) : State :=
  let k := s.queue q
  if k.used < 64 then s.setQueue q { k with packets := k.packets ++ [words], acc := k.acc + 1 }
  else s.setQueue q { k with drop := k.drop + 1 }

/-- The partition that owns a queue (R307): enabled, with the queue in its range. -/
def State.queueOwner (s : State) (q : Nat) : Option (Fin 8) :=
  (List.finRange 8).find? fun p =>
    let k := s.partOf p
    k.en && decide (k.first ≤ q) && decide (q < k.first + k.count)

/-- A launch replaced. -/
def State.putLaunch (s : State) (l : Launch) : State :=
  { s with launches := s.launches.map fun k => if k.id = l.id then l else k }
/-- The launch of a number. -/
def State.launchOf (s : State) (n : Nat) : Option Launch := s.launches.find? fun l => l.id == n

/-- The scheduler's own translation for a partition (R313, R336): root PLROOT, not at user level. Its wait for a row under repair (R380)
nobody can tell from none (log 30). -/
def State.schedLocate (s : State) (p : Fin 8) (k : Access) (va n : Nat) : Except Reject Nat :=
  if windowBase ≤ va then .error { cause := 0x07, addr := va }
  else do
    let s := { s with repairing := none }
    let q := s.partOf p
    let pa ← s.translate { user := false, part := p, root := q.lroot, asid := q.lasid } k va
    s.targetCheck p 256 va pa n k false
    .ok pa

/-- HBM4 of this device or host memory. -/
def localOrHost (pa : Nat) : Bool := match targetOf pa with | .hbm => true | .host => true | _ => false

/-- The completion signal (R316): DONESEQ × 256 + status at DONEADDR, when that is nonzero, aligned and can be written. -/
def State.signal (s : State) (l : Launch) (status : Nat) : State :=
  if l.word 4 = 0 ∨ (l.word 4).toNat % 8 ≠ 0 then s
  else match s.schedLocate l.part .store (l.word 4).toNat 8 with
    | .ok pa =>
      if localOrHost pa && !s.liveWord (.phys pa) then
        s.writeLoc (.phys pa) 8 (((l.word 5).toNat * 256 + status) % 2 ^ 64)
      else s
    | .error _ => s

/-- REJECTED with status 1 (R21, R317): the signal is written and the queue's entry freed. -/
def State.rejectLaunch (s : State) (l : Launch) : State :=
  let s := (s.signal l 1).putLaunch { l with state := .rejected, status := 1 }
  let k := s.queue l.queue
  if k.head = some l.id then s.setQueue l.queue { k with head := none } else s

/-- The cores of a partition, ascending (R307). -/
def State.partCores (s : State) (p : Fin 8) : List Nat :=
  let k := s.partOf p
  (List.range 128).filter fun c => if c < 64 then k.core0.getLsbD c else k.core1.getLsbD (c - 64)

/-- A cluster that has been retired, with its core or alone (R380). -/
def State.clusterRetired (s : State) (core k : Nat) : Bool :=
  s.retCores.contains core || s.retClusters.contains (core, k)

/-- Clusters of a core that are not retired (R317). -/
def State.liveClusters (s : State) (core : Nat) : Nat :=
  ((List.range 16).filter fun k => !s.clusterRetired core k).length

/-- S of R317: the harts of a launch that its partition could ever hold. -/
def State.capacity (s : State) (l : Launch) : Nat :=
  ((s.partCores l.part).map fun c =>
    let a := Nat.min 16 (s.liveClusters c / 2 ^ l.minlg)
    if l.pieces = 0 then a else Nat.min a (32 / l.pieces)).foldl (· + ·) 0

/-- The eight words of the argument block (R313). -/
def State.readArgs (s : State) (l : Launch) : Except Reject (List Word) :=
  if l.word 1 = 0 then .ok (List.replicate 8 0)
  else (List.range 8).mapM fun k => do
    let pa ← s.schedLocate l.part .load ((l.word 1).toNat + 8 * k) 8
    .ok (BitVec.ofNat 64 (Memory.readN s.mem pa 8))

/-- An address word of a packet that can be used: 0, or translated with the permission, in HBM4 or host memory. -/
def State.signalOk (s : State) (l : Launch) (k : Access) (a : Word) : Bool :=
  a == 0 || (match s.schedLocate l.part k a.toNat 8 with | .ok pa => localOrHost pa | .error _ => false)

/-- The dependence is met (R315). -/
def State.depMet (s : State) (l : Launch) : Bool :=
  l.word 2 == 0 || (match s.schedLocate l.part .load (l.word 2).toNat 8 with
    | .ok pa => decide ((l.word 3).toNat ≤ Memory.readN s.mem pa 8)
    | .error _ => false)

/-- The conditions of R317 under which an accepted packet is REJECTED. -/
def State.rejects (s : State) (l : Launch) : Bool :=
  packetBad l || (match s.readArgs l with | .ok _ => false | .error _ => true) ||
    l.harts == 0 || decide (2048 < l.harts) || decide (4 < l.minlg) || decide (4 < l.preflg) ||
    decide (l.preflg < l.minlg) || decide (32 < l.pieces) ||
    !s.signalOk l .load (l.word 2) || !s.signalOk l .store (l.word 4) ||
    s.capacity l == 0 || (l.cores && decide (s.capacity l < l.harts))

/-- Acceptance of a queue's oldest packet (R313 to R317). -/
def State.acceptPacket (s : State) (q : Nat) (p : Fin 8) : State :=
  let k := s.queue q
  match k.packets with
  | [] => s
  | w :: rest =>
    let l : Launch := { id := s.nextLaunch, queue := q, part := p, words := withPart w p, prio := bitsAt (w.getD 6 0).toNat 36 3 }
    let s := { s with nextLaunch := s.nextLaunch + 1, launches := s.launches ++ [l] }
    if s.rejects l then (s.setQueue q { k with packets := rest }).rejectLaunch l
    else
      let args := match s.readArgs l with | .ok a => a | .error _ => []
      let st := if s.depMet l then LState.ready else LState.waiting
      (s.setQueue q { k with packets := rest, head := some l.id }).putLaunch { l with args := args, state := st, since := s.time }

/-- Reading the dependence again (R315). -/
def State.recheckDep (s : State) (l : Launch) : State :=
  if l.state = .waiting ∧ s.depMet l then s.putLaunch { l with state := .ready, since := s.time } else s

end Sys2Proof.Machine
end

