-- ==== Sys2Proof/Machine/Place.lean ====
section
/-! DEFINITION. Which resources harts hold, and the choice of core, clusters, slot and pieces for a hart (19 R321, R325,
01 R23, 02 R52, 18 R309). -/

namespace Sys2Proof.Machine

/-- What a hart holds of a core. -/
structure Hold where
  hid    : Nat
  core   : Nat
  slot   : Nat
  cbase  : Nat
  grant  : Nat
  pieces : List Nat
deriving DecidableEq, Repr

/-- The hart owns a live zone (R250). -/
def State.ownsZone (s : State) (hid : Nat) : Bool := s.zones.any fun z => z.owner == hid

/-- A copy that runs has a source or destination element in the scratchpad window (R24). -/
def Channel.touchesWindow (c : Channel) : Bool :=
  c.state == .running && (match c.cmd with
    | some k => k.form != .qsend && (List.range k.moves).any fun e =>
        decide (windowBase ≤ (k.src e).toNat) || (k.form != .cpyR && decide (windowBase ≤ (k.dst e).toNat))
    | none => false)

/-- What a hart holds now: clusters and a slot while ACTIVE or MONITOR; pieces also while a copy of an ended hart uses
them (R24), and while a switched hart owns a live zone (R250). A grant of 0 holds no cluster and no slot. -/
def State.holdOf (s : State) (h : Hart) : Option Hold :=
  let p := h.place
  match h.phase with
  | .active => some ⟨p.hid, p.core, p.slot, p.cbase, p.grant, p.pieces⟩
  | .monitor => some ⟨p.hid, p.core, p.slot, p.cbase, p.grant, p.pieces⟩
  | .ended => if h.ch.toList.any Channel.touchesWindow then some ⟨p.hid, p.core, p.slot, 0, 0, p.pieces⟩ else none
  | .switched => if s.ownsZone p.hid then some ⟨p.hid, p.core, p.slot, 0, 0, p.pieces⟩ else none
  | .empty => none

/-- Everything held. -/
def State.holds (s : State) : List Hold := s.harts.filterMap s.holdOf

/-- A cluster of a core is free: not retired and not held. -/
def State.clusterFree (s : State) (hs : List Hold) (core k : Nat) : Bool :=
  !s.clusterRetired core k && !(hs.any fun h => h.core == core && decide (h.cbase ≤ k) && decide (k < h.cbase + h.grant))

/-- The aligned block of `size` clusters from `b` is free. -/
def State.blockFree (s : State) (hs : List Hold) (core b size : Nat) : Bool :=
  (List.range size).all fun i => s.clusterFree hs core (b + i)

/-- The buddy blocks of a core: free aligned blocks that no larger free block holds, as base and size. -/
def State.buddies (s : State) (hs : List Hold) (core : Nat) : List (Nat × Nat) :=
  [1, 2, 4, 8, 16].flatMap fun size =>
    ((List.range (16 / size)).map (· * size)).filterMap fun b =>
      if s.blockFree hs core b size && !(size < 16 && s.blockFree hs core (b / (2 * size) * (2 * size)) (2 * size))
      then some (b, size) else none

/-- The smallest free block of at least `g` clusters, lowest first (R321). -/
def State.bestBlock (s : State) (hs : List Hold) (core g : Nat) : Option (Nat × Nat) :=
  (s.buddies hs core).find? fun b => decide (g ≤ b.2)

/-- The lowest free hart slot of a core. -/
def freeHartSlot (hs : List Hold) (core : Nat) : Option Nat :=
  (List.range 16).find? fun k => !(hs.any fun h => h.core == core && h.slot == k && h.grant != 0)

/-- The lowest-numbered free pieces of a core (R321). -/
def freePieces (hs : List Hold) (core n : Nat) : Option (List Nat) :=
  let free := (List.range 32).filter fun k => !(hs.any fun h => h.core == core && h.pieces.contains k)
  if n ≤ free.length then some (free.take n) else none

/-- The distance of two chiplets in welt hops (R361). -/
def hops (a b : Nat) : Nat :=
  let d := (b % 4 + 4 - a % 4) % 4
  Nat.min d (4 - d) + (if a / 4 = b / 4 then 0 else 1)

/-- The chiplet of a core is ready (R375). -/
def State.coreReady (s : State) (core : Nat) : Bool := s.service.ready.getLsbD (2 + core / 16)

/-- The least of a list by a key, the first on a tie. -/
def minBy {α : Type} (key : α → Nat) : List α → Option α
  | [] => none
  | a :: rest => match minBy key rest with
    | none => some a
    | some b => if key a ≤ key b then some a else some b

/-- The place for one hart among some cores (R321): smallest sufficient block, then the home chiplet, nearer chiplets, and
the lowest core. -/
def State.placeOne (s : State) (hs : List Hold) (cores : List Nat) (home g pieces hid : Nat) : Option Hold :=
  let able := cores.filterMap fun c =>
    if !s.coreReady c then none
    else match s.bestBlock hs c g, freeHartSlot hs c, freePieces hs c pieces with
      | some (b, size), some k, some ps => some (size, (⟨hid, c, k, b, g, ps⟩ : Hold))
      | _, _, _ => none
  (minBy (fun (size, h) => size * 1024 + hops home (h.core / 16) * 128 + h.core) able).map (·.2)

/-- Places for up to `n` harts in turn. DEDUCED, log 41. -/
def State.placeMany (s : State) (cores : List Nat) (home g pieces : Nat) : Nat → List Hold → List Hold
  | 0, _ => []
  | n + 1, hs =>
    match s.placeOne hs cores home g pieces 0 with
    | none => []
    | some h => h :: s.placeMany cores home g pieces n (h :: hs)

/-- Free clusters of a chiplet among some cores. -/
def State.freeClusters (s : State) (hs : List Hold) (cores : List Nat) (chip : Nat) : Nat :=
  ((cores.filter fun c => c / 16 == chip && s.coreReady c).map fun c =>
    ((List.range 16).filter fun k => s.clusterFree hs c k).length).foldl (· + ·) 0

/-- The home chiplet of a launch (R321): most free clusters, the lowest number on a tie. -/
def State.homeChiplet (s : State) (hs : List Hold) (cores : List Nat) : Nat :=
  (minBy (fun c => 4096 - s.freeClusters hs cores c) (List.range 8)).getD 0

/-- Farm counters in use on a chiplet (R326). -/
def State.countersUsed (s : State) (chip : Nat) : Nat := (s.launches.filter fun l => l.counter && l.home == chip).length

/-- The grants to try, largest first: 2^hi down to 2^lo. -/
def grants (lo hi : Nat) : List Nat := ((List.range (hi + 1 - lo)).map fun k => 2 ^ (hi - k))

/-- A hart that the scheduler may still take resources from or restore. -/
def Hart.living (h : Hart) : Bool := h.phase == .active || h.phase == .monitor || h.phase == .switched

/-- The save slots that no existing hart of the partition holds, ascending (R350). -/
def State.freeSaveSlots (s : State) (p : Fin 8) : List Nat :=
  let held := (s.harts.filter fun h => h.place.part == p && h.living).map fun h => h.place.saveslot
  (List.range 2048).filter fun k => !held.contains k

/-- A first placement needs a farm counter of the home chiplet, and it has none left (R326). -/
def State.noCounter (s : State) (hs : List Hold) (l : Launch) : Bool :=
  l.placed == 0 && !l.counter && decide (64 ≤ s.countersUsed (s.homeChiplet hs (s.partCores l.part)))

/-- A way to place a launch's next harts among some cores: the home chiplet, which is the partition's (R321), the grant, and the
places. No more harts are placed than save slots are free (R350, DEDUCED, log 66). -/
def State.planLaunch (s : State) (hs : List Hold) (cores : List Nat) (l : Launch) : Option (Nat × Nat × List Hold) :=
  let home := if l.placed = 0 then s.homeChiplet hs (s.partCores l.part) else l.home
  let left := l.harts - l.placed
  if s.noCounter hs l then none
  else
    let gs := if l.placed = 0 then grants l.minlg l.preflg else [l.grant]
    gs.findSome? fun g =>
      let ps := s.placeMany cores home g l.pieces (Nat.min left (s.freeSaveSlots l.part).length) hs
      if (if l.cores then ps.length == left else decide (0 < ps.length)) then some (home, g, ps) else none

/-- Pieces zeroed (R24, R52). -/
def zeroPieces (m : List Host.Cell) (core : Nat) (ps : List Nat) : List Host.Cell :=
  ps.foldl (fun m k => Memory.zero m (core * Config.spadBytes + k * 65536) 65536) m

/-- Pieces of the scratchpads zeroed: no sector of them stays poisoned (R356). -/
def State.zeroPieces (s : State) (core : Nat) (ps : List Nat) : State :=
  { s with spad := Machine.zeroPieces s.spad core ps,
           spadPoison := ps.foldl (fun m k => unpoison m (core * Config.spadBytes + k * 65536) 65536) s.spadPoison }

/-- A hart as it is placed (R23, R46, R52, R309). -/
def newHart (l : Launch) (k : Partition) (h : Hold) (hid index slot : Nat) : Hart :=
  let args := (List.range 8).map fun i => l.args.getD i 0
  let x : Vector Word 32 := Vector.ofFn fun i =>
    if i.val = 1 then 0x7FFFFFFFFFFF0
    else if i.val = 3 then BitVec.ofNat 64 index
    else if i.val = 4 then BitVec.ofNat 64 l.harts
    else if 10 ≤ i.val ∧ i.val < 18 then args.getD (i.val - 10) 0
    else 0
  { phase := .active, pc := l.word 0, x := x, ge := Nat.min h.grant k.lvlcap,
    place := { hid := hid, launch := l.id, part := l.part, core := h.core, slot := h.slot, cbase := h.cbase,
               grant := h.grant, pieces := h.pieces, saveslot := slot, hartNo := index, harts := l.harts },
    priv := { tvec := k.ltvec, ptbase := k.lroot, asid := BitVec.ofNat 64 k.lasid, vlcap := k.lvlcap } }

/-- A hart joins the device: an empty current slot is taken, else it goes behind the others. -/
def State.addHart (s : State) (h : Hart) : State :=
  if s.hart.phase = .empty then { s with hart := h } else { s with parked := s.parked ++ [h] }

/-- An acquire at sys for a hart on a core (R80, R107): dirty remote bytes of the core, its CAC and the hart go out, and lines
of the core and the CAC without any are dropped. -/
def State.freshCore (s : State) (core hid : Nat) : State :=
  let s := (s.writeBackAll core hid).1
  { s with rcache := s.rcache.filter fun l => (l.holder != .core core && l.holder != cacOf core) || !l.dirty.isEmpty }

/-- One hart placed; acceptance was an acquire at sys for it (R107). -/
def State.startHart (s : State) (l : Launch) (h : Hold) (index : Nat) : State :=
  let s := s.freshCore h.core s.nextHart
  let n := newHart l (s.partOf l.part) h s.nextHart index ((s.freeSaveSlots l.part).headD 0)
  ({ s with nextHart := s.nextHart + 1 }.zeroPieces h.core h.pieces).addHart n

/-- A launch's next harts placed (R321): its first placement makes it RUNNING, frees its queue's entry (R314) and takes a
farm counter (R326). -/
def State.startLaunch (s : State) (l : Launch) (home g : Nat) (ps : List Hold) (prio : Nat) : State :=
  let s := ps.zipIdx.foldl (fun s (h, i) => s.startHart l h (l.placed + i)) s
  let q := s.queue l.queue
  let s := if q.head = some l.id then s.setQueue l.queue { q with head := none } else s
  let s := { s with nextOrder := s.nextOrder + 1 }
  s.putLaunch { l with state := .running, placed := l.placed + ps.length, grant := g, home := home, prio := prio,
                       order := s.nextOrder - 1, counter := true }

/-! ### Candidates (R319) -/

/-- The harts of a launch, in ascending hart index. -/
def State.hartsOf (s : State) (n : Nat) : List Hart :=
  let mine := s.harts.filter fun h => h.place.launch == n && h.living
  (List.range 2048).flatMap fun i => mine.filter fun h => h.place.hartNo == i

/-- The harts of a launch that wait for a restore: those of a co-resident launch once all its harts are switched (R27). -/
def State.awayHarts (s : State) (l : Launch) : List Hart :=
  let hs := s.hartsOf l.id
  let away := hs.filter fun h => h.phase == .switched
  if l.cores && away.length != hs.length then [] else away

/-- A candidate (R319). -/
def State.isCandidate (s : State) (l : Launch) : Bool :=
  match l.state with
  | .ready => true
  | .running => (!l.cores && decide (l.placed < l.harts)) || !(s.awayHarts l).isEmpty
  | _ => false

/-- A launch that has become a candidate since an earlier state waits from now on (R319). -/
def State.newCandidate (s old : State) (n : Nat) : State :=
  match s.launchOf n with
  | some l => if s.isCandidate l && !old.isCandidate l then s.putLaunch { l with since := s.time } else s
  | none => s

end Sys2Proof.Machine
end

