-- ==== Sys2Proof/Machine/Gcm.lean ====
section
/-! DEFINITION. AES-256-GCM (22 R367): the spec names the algorithm and does not print it. PRESUMED, log 12: as FIPS 197 and
SP 800-38D define it, with a 96-bit IV and a 128-bit tag. -/

namespace Sys2Proof.Machine

/-! ### The block cipher -/

/-- Doubling in GF(2^8). -/
def aesDouble (a : Byte) : Byte := (a <<< 1) ^^^ (if a.getLsbD 7 then 0x1B else 0)

/-- The product in GF(2^8): `n` bits of the second factor, lowest first. -/
def aesMul : Nat → Byte → Byte → Byte
  | 0, _, _ => 0
  | n + 1, a, b => (if b.getLsbD 0 then a else 0) ^^^ aesMul n (aesDouble a) (b >>> 1)

/-- The inverse in GF(2^8), 0 for 0: a to the power 254. -/
def aesInverse (a : Byte) : Byte :=
  (List.range 7).foldl (fun (p : Byte × Byte) _ => let q := aesMul 8 p.1 p.1; (q, aesMul 8 p.2 q)) (a, 1) |>.2

/-- The S-box. -/
def aesSub (a : Byte) : Byte :=
  let b := aesInverse a
  b ^^^ b.rotateLeft 1 ^^^ b.rotateLeft 2 ^^^ b.rotateLeft 3 ^^^ b.rotateLeft 4 ^^^ 0x63

/-- Two lists of bytes, byte by byte. -/
def xorBytes (a b : List Byte) : List Byte := List.zipWith (· ^^^ ·) a b

/-- The words of the key schedule from number i on, the last first. -/
def aesExpand : Nat → Nat → List (List Byte) → List (List Byte)
  | 0, _, ws => ws
  | n + 1, i, ws =>
    let t := ws.headD []
    let t := if i % 8 = 0 then xorBytes ((t.drop 1 ++ t.take 1).map aesSub) [(List.range (i / 8 - 1)).foldl (fun c _ => aesDouble c) 1, 0, 0, 0]
      else if i % 8 = 4 then t.map aesSub else t
    aesExpand n (i + 1) (xorBytes (ws.getD 7 []) t :: ws)

/-- The fifteen round keys of a key of 32 bytes. -/
def aesKeys (key : List Byte) : List (List Byte) :=
  let ws := (aesExpand 52 8 ((List.range 8).map fun k => (key.drop (4 * k)).take 4).reverse).reverse
  (List.range 15).map fun r => ((ws.drop (4 * r)).take 4).flatten

/-- The rows of a block shifted, column by column. -/
def aesShift (b : List Byte) : List Byte := (List.range 16).map fun k => b.getD ((k + 4 * (k % 4)) % 16) 0

/-- One column mixed. -/
def aesMix (b : List Byte) (k : Nat) : Byte :=
  let at' (i : Nat) : Byte := b.getD (k / 4 * 4 + (k + i) % 4) 0
  aesDouble (at' 0) ^^^ aesDouble (at' 1) ^^^ at' 1 ^^^ at' 2 ^^^ at' 3

/-- A block under the remaining round keys. -/
def aesRounds (b : List Byte) : List (List Byte) → List Byte
  | [] => b
  | [k] => xorBytes (aesShift (b.map aesSub)) k
  | k :: ks =>
    let c := aesShift (b.map aesSub)
    aesRounds (xorBytes ((List.range 16).map (aesMix c)) k) ks

/-- A block of 16 bytes encrypted. -/
def aesBlock (keys : List (List Byte)) (b : List Byte) : List Byte :=
  match keys with
  | [] => b
  | k :: ks => aesRounds (xorBytes b k) ks

/-! ### The mode -/

/-- A block as a number, the first byte highest. -/
def blockNum (b : List Byte) : Nat := ofBytes b.reverse
/-- A number as a block of 16 bytes. -/
def numBlock (v : Nat) : List Byte := (bytesOf 16 v).reverse

/-- The product of GHASH: bits of the first factor from the highest on. -/
def ghashMul : Nat → Nat → Nat → Nat
  | 0, _, _ => 0
  | n + 1, x, v => (if bitAt x n then v else 0) ^^^ ghashMul n x ((v >>> 1) ^^^ (if bitAt v 0 then 0xE1 <<< 120 else 0))

/-- The 16-byte blocks of some bytes, the last filled with zeros. -/
def blocksOf (b : List Byte) : List (List Byte) :=
  (List.range ((b.length + 15) / 16)).map fun k => ((b.drop (16 * k)).take 16 ++ List.replicate 16 0).take 16

/-- GHASH of additional data and ciphertext. -/
def ghash (h : Nat) (aad c : List Byte) : Nat :=
  (blocksOf aad ++ blocksOf c ++ [numBlock (8 * aad.length * 2 ^ 64 + 8 * c.length)]).foldl
    (fun y b => ghashMul 128 (y ^^^ blockNum b) h) 0

/-- Bytes under the counter stream, from counter 2 on. -/
def gcmStream (keys : List (List Byte)) (iv b : List Byte) : List Byte :=
  (blocksOf b).zipIdx.flatMap (fun (x, k) => xorBytes x (aesBlock keys (iv ++ (bytesOf 4 (k + 2)).reverse))) |>.take b.length

/-- The tag of a ciphertext. -/
def gcmTag (keys : List (List Byte)) (iv aad c : List Byte) : List Byte :=
  xorBytes (numBlock (ghash (blockNum (aesBlock keys (List.replicate 16 0))) aad c)) (aesBlock keys (iv ++ [0, 0, 0, 1]))

/-- Sealing: the encrypted bytes and the tag. -/
def gcmSeal (key iv aad b : List Byte) : List Byte × List Byte :=
  let keys := aesKeys key
  let c := gcmStream keys iv b
  (c, gcmTag keys iv aad c)

/-- Opening: the bytes where the tag agrees. -/
def gcmOpen (key iv aad c tag : List Byte) : Option (List Byte) :=
  let keys := aesKeys key
  if gcmTag keys iv aad c = tag then some (gcmStream keys iv c) else none

end Sys2Proof.Machine
end

