-- ==== Sys2Proof/Machine/Flit.lean ====
section
/-! DEFINITION. The flit of a Nirmus port as it is sent (22 R364, R367): header, encrypted payload and tag, code groups, words. -/

namespace Sys2Proof.Machine

/-! ### The code (R364) -/

/-- Doubling in GF(2^16) over x^16 + x^12 + x^3 + x + 1. -/
def gfDouble (a : Nat) : Nat := if 2 * a < 65536 then 2 * a else (2 * a) ^^^ 0x1100B

/-- The remainder of a group's data symbols, the first highest (DEDUCED, log 32), by (x − 1)(x − α): symbols 34 and 35. -/
def checkSymbols (c : List Nat) : List Nat :=
  let r := c.foldl (fun (p : Nat × Nat) d => let f := d ^^^ p.1; (p.2 ^^^ f ^^^ gfDouble f, gfDouble f)) (0, 0)
  [r.1, r.2]

/-- The 36 symbols of a group of 68 bytes. -/
def groupSymbols (b : List Byte) : List Nat :=
  let c := (List.range 34).map fun k => ofBytes ((b.drop (2 * k)).take 2)
  c ++ checkSymbols c

/-- Word w of a group: two bits of each symbol, on that symbol's lane. -/
def groupWord (c : List Nat) (w : Nat) : BitVec 72 :=
  BitVec.ofNat 72 (c.foldr (fun v a => bitsAt v (2 * w) 2 + 4 * a) 0)

/-- The 129 words of a flit of 1,088 bytes. -/
def flitWords (stamps : BitVec 72) (b : List Byte) : List (BitVec 72) :=
  stamps :: (List.range 16).flatMap fun g => (List.range 8).map (groupWord (groupSymbols ((b.drop (68 * g)).take 68)))

/-! ### The flit (R364, R367) -/

/-- A key of four words as bytes, low word and low byte first (DESIGN CHOICE, log 12). -/
def keyBytes (k : Vector Word 4) : List Byte := k.toList.flatMap fun w => bytesOf 8 w.toNat

/-- The IV of a flit: the salt, then the counter (the bytes of each, DESIGN CHOICE, log 12). -/
def flitIv (salt : Word) (ctr : Nat) : List Byte := bytesOf 8 salt.toNat ++ bytesOf 4 ctr

/-- Bytes 0 to 31 of a flit: the additional data. -/
def flitHead (dst src kind : Nat) (kep : Bool) (seq ctr : Nat) : List Byte :=
  bytesOf 8 (dst + src * 2 ^ 8 + kind * 2 ^ 16 + kep.toNat * 2 ^ 20 + seq * 2 ^ 32) ++ bytesOf 8 ctr ++ bytesOf 16 0

/-- A payload of 1,024 bytes. -/
def flitPayload (data : List Byte) : List Byte := (data ++ List.replicate 1024 0).take 1024

/-- The bytes of a flit that a port sends now: under its next counter, its key and its epoch. -/
def Port.flitOut (k : Port) (src : Fin 256) (kind : Nat) (dst : Fin 256) (seq : BitVec 32) (data : List Byte) : List Byte :=
  let head := flitHead dst.val src.val kind k.txKep seq.toNat k.ncnt.toNat
  let c := gcmSeal (keyBytes k.txKey) (flitIv k.txSalt k.ncnt.toNat) head (flitPayload data)
  head ++ c.1 ++ c.2 ++ bytesOf 16 0

end Sys2Proof.Machine
end

