-- ==== Sys2Proof/Machine/Device.lean ====
section
/-! DEFINITION. The device's register blocks: partitions (18 R307 to R309), the scheduler region (19 R318), queues'
QSTAT (R311), error logs (21 R357), the welt (22 R362), the ports (R367), the service block and snapshots (23 R373,
R374, R378). -/

namespace Sys2Proof.Machine

/-! ### Partitions -/

/-- A partition replaced. -/
def State.setPart (s : State) (p : Fin 8) (k : Partition) : State := { s with parts := s.parts.set p.val k }

/-- Register 0xC11 + n of a partition (R307, R309). -/
def partRead (k : Partition) (n : Nat) : Word :=
  match n with
  | 0 => BitVec.ofNat 64 (k.en.toNat + k.err.toNat * 2)
  | 1 => k.core0
  | 2 => k.core1
  | 3 => BitVec.ofNat 64 (k.base * 2 ^ 16 + k.size)
  | 4 => BitVec.ofNat 64 k.pcac
  | 5 => BitVec.ofNat 64 k.pmrows
  | 6 => BitVec.ofNat 64 k.pfunc
  | 7 => BitVec.ofNat 64 (k.count * 2 ^ 16 + k.first)
  | 8 => k.ltvec
  | 9 => k.lroot
  | 10 => BitVec.ofNat 64 (k.lvlcap * 2 ^ 32 + k.lasid)
  | _ => 0

/-- A legal cluster cap (R303). -/
def capOk (n : Nat) : Bool := [1, 2, 4, 8, 16].contains n

/-- A write of a partition register other than PCTL (R307, R309): ignored while EN = 1 where the map says so, and a
field keeps its value where the written one is out of range. -/
def partWrite (k : Partition) (n : Nat) (v : Word) : Partition :=
  let w := v.toNat
  let ifFree (k' : Partition) : Partition := if k.en then k else k'
  match n with
  | 1 => ifFree { k with core0 := v }
  | 2 => ifFree { k with core1 := v }
  | 3 => ifFree { k with base := bitsAt w 16 10, size := bitsAt w 0 10 }
  | 4 => if bitsAt w 0 5 ≤ 16 then { k with pcac := bitsAt w 0 5 } else k
  | 5 => if bitsAt w 0 3 ≤ 4 then { k with pmrows := bitsAt w 0 3 } else k
  | 6 => if bitsAt w 0 4 ≤ 8 then ifFree { k with pfunc := bitsAt w 0 4 } else k
  | 7 => ifFree { k with count := if bitsAt w 16 11 ≤ 1024 then bitsAt w 16 11 else k.count, first := bitsAt w 0 10 }
  | 8 => { k with ltvec := BitVec.ofNat 64 (bitsAt w 2 49 * 4) }
  | 9 => { k with lroot := BitVec.ofNat 64 (bitsAt w 15 37 * 2 ^ 15) }
  | 10 => { k with lvlcap := if capOk (bitsAt w 32 5) then bitsAt w 32 5 else k.lvlcap, lasid := bitsAt w 0 16 }
  | _ => k

/-- Ranges [a, a+m) and [b, b+n) share a number. -/
def overlaps (a m b n : Nat) : Bool := decide (a < b + n) && decide (b < a + m) && decide (0 < m) && decide (0 < n)

/-- Whether a partition can be enabled beside the others (R308). -/
def State.canEnable (s : State) (p : Fin 8) : Bool :=
  let k := s.partOf p
  let others := (List.finRange 8).filter fun o => o != p && (s.partOf o).en
  decide (k.base + k.size ≤ 768) && decide (k.first + k.count ≤ 1024) &&
    others.all fun o =>
      let j := s.partOf o
      j.core0 &&& k.core0 == 0 && j.core1 &&& k.core1 == 0 && !overlaps k.base k.size j.base j.size &&
        (k.pfunc == 0 || j.pfunc != k.pfunc) && !overlaps k.first k.count j.first j.count

/-- The queues a partition owns. -/
def Partition.queues (k : Partition) : List Nat := (List.range k.count).map fun i => k.first + i

/-- Enabling (R308): EN is set, and the deficits of its queues start at 0 (R320); or ERR is set. -/
def State.enablePart (s : State) (p : Fin 8) : State :=
  let k := s.partOf p
  if k.en then s
  else if s.canEnable p then
    let s := s.setPart p { k with en := true }
    k.queues.foldl (fun s q => if (s.queue q).deficit = 0 then s else s.setQueue q { s.queue q with deficit := 0 }) s
  else s.setPart p { k with err := true }

/-- A hart of the partition exists. -/
def State.partBusy (s : State) (p : Fin 8) : Bool :=
  (s.harts.any fun h => h.place.part == p && (h.phase == .active || h.phase == .monitor || h.phase == .switched)) ||
    s.launches.any fun l => l.part == p && (l.state == .running || l.state == .draining)

/-- The packets still QUEUED in a queue are rejected with status 1, oldest first (R308, R317). -/
def State.rejectQueued (s : State) (p : Fin 8) (q : Nat) : State :=
  let ws := (s.queue q).packets
  let s := if ws.isEmpty then s else s.setQueue q { s.queue q with packets := [] }
  ws.foldl (fun s w =>
    let l : Launch := { id := s.nextLaunch, queue := q, part := p, words := withPart w p, state := .queued }
    { s with nextLaunch := s.nextLaunch + 1, launches := s.launches ++ [l] }.rejectLaunch l) s

/-- Disabling an idle partition (R308): its QUEUED and WAITING launches are rejected (R21, R317). -/
def State.disablePart (s : State) (p : Fin 8) : State :=
  let k := s.partOf p
  if !k.en || s.partBusy p then s
  else
    let held := s.launches.filter fun l => l.part == p && l.state == .waiting
    let s := held.foldl (fun s l => s.rejectLaunch l) s
    let s := k.queues.foldl (fun s q => s.rejectQueued p q) s
    s.setPart p { s.partOf p with en := false }

/-- A write of PCTL (R307, R308): ERR is cleared by a 1 while EN is 0, then EN is set or cleared. -/
def State.writePctl (s : State) (p : Fin 8) (v : Word) : State :=
  let s := if v.getLsbD 1 && !(s.partOf p).en then s.setPart p { s.partOf p with err := false } else s
  if v.getLsbD 0 then s.enablePart p else s.disablePart p

/-- A write of a partition register (R307, R309). -/
def State.writePart (s : State) (p : Fin 8) (n : Nat) (v : Word) : State :=
  if n = 0 then s.writePctl p v else s.setPart p (partWrite (s.partOf p) n v)

/-! ### Reading the physical function's registers -/

/-- QSTAT (R311). -/
def Queue.qstat (q : Queue) : Word := BitVec.ofNat 64 (q.acc.toNat * 2 ^ 32 + q.drop.toNat * 2 ^ 16 + (64 - q.used))

/-- A register of a partition's scheduler block (R318). -/
def schedRead (k : Sched) (off : Nat) : Word :=
  match off with
  | 0x00 => BitVec.ofNat 64 k.rclto
  | 0x08 => BitVec.ofNat 64 k.ageth
  | 0x10 => BitVec.ofNat 64 k.quant
  | 0x18 => BitVec.ofNat 64 (k.racken.toNat * 2 + k.preempt.toNat)
  | 0x20 => k.rackaddr
  | 0x28 => BitVec.ofNat 64 k.rptint
  | _ => 0

/-- A write of a scheduler block's register (R318). -/
def schedWrite (k : Sched) (off : Nat) (v : Word) : Sched :=
  let w := v.toNat
  match off with
  | 0x00 => { k with rclto := bitsAt w 0 32 }
  | 0x08 => { k with ageth := bitsAt w 0 32 }
  | 0x10 => { k with quant := bitsAt w 0 24 }
  | 0x18 => { k with racken := bitAt w 1, preempt := bitAt w 0 }
  | 0x20 => { k with rackaddr := v }
  | 0x28 => { k with rptint := bitsAt w 0 32 }
  | _ => k

/-- A register of an error log (R357). -/
def logRead (k : ErrLog) (off : Nat) : Word :=
  match off with
  | 0x00 => BitVec.ofNat 64 k.recs.length
  | 0x08 => k.ce
  | 0x10 => k.ue
  | 0x18 => k.rp
  | 0x20 => k.ovf
  | 0x40 => (k.recs.headD []).getD 0 0
  | 0x48 => (k.recs.headD []).getD 1 0
  | 0x50 => (k.recs.headD []).getD 2 0
  | 0x58 => (k.recs.headD []).getD 3 0
  | _ => 0

/-- A register of the welt block (R362). -/
def weltRead (k : Welt) (off : Nat) : Word :=
  if off = 0 then BitVec.ofNat 64 (k.gen.toNat * 2 ^ 24 + k.pend.toNat * 2 ^ 17 + k.err.toNat * 2 ^ 16)
  else if 0x08 ≤ off ∧ off < 0x48 ∧ off % 8 = 0 then (k.stg[(off - 8) / 8]?.getD 0).setWidth 64
  else if 0x48 ≤ off ∧ off < 0x88 ∧ off % 8 = 0 then (k.cur[(off - 0x48) / 8]?.getD 0).setWidth 64
  else if off = 0x88 then k.fail.setWidth 64
  else 0

/-- STATE of a port as a number (R367). -/
def portState : PortState → Nat
  | .down => 0 | .training => 1 | .up => 2 | .failed => 3

/-- A register of a port (R367); keys and salts are write-only. -/
def portRead (k : Port) (off : Nat) : Word :=
  match off with
  | 0x00 => BitVec.ofNat 64 (k.rply.toNat * 2 ^ 32 + (if k.pf then k.fpl else 0) * 2 ^ 24 + k.keyx.toNat * 2 ^ 17 +
      k.pf.toNat * 2 ^ 16 + portState k.state)
  | 0x58 => BitVec.ofNat 64 (k.trdy.toNat * 2 + k.rrdy.toNat)
  | 0x60 => k.ncnt.setWidth 64
  | _ => 0

/-- A register of the service block (R374). -/
def serviceRead (k : Service) (off : Nat) : Word :=
  match off with
  | 0x00 => k.ready.setWidth 64
  | 0x08 => BitVec.ofNat 64 (k.perr.toNat * 2 ^ 16 + k.state.val * 2 ^ 8 + k.cmd.val)
  | 0x18 => k.intdrop
  | 0x20 => BitVec.ofNat 64 (k.snapseq.toNat * 2 ^ 32)
  | 0x30 => k.retaddr
  | 0x38 => BitVec.ofNat 64 k.retstat.val
  | 0x40 => BitVec.ofNat 64 (k.tmax.toNat * 2 ^ 8 + k.alert.toNat)
  | _ => 0

/-- An 8-byte register of BAR0 of the physical function by its offset, a multiple of 8 (R373). -/
def State.barRead (s : State) (off : Nat) : Word :=
  if off < 0x400000 then (if off % 4096 = 0x40 then (s.queue (off / 4096)).qstat else 0)
  else if off < 0x410000 then
    match s.scheds[(off - 0x400000) / 0x40]? with
    | some k => schedRead k ((off - 0x400000) % 0x40)
    | none => 0
  else if off < 0x420000 then
    match s.logs[(off - 0x410000) / 0x100]? with
    | some k => logRead k ((off - 0x410000) % 0x100)
    | none => 0
  else if off < 0x430000 then weltRead s.welt (off - 0x420000)
  else if off < 0x440000 then
    match s.ports[(off - 0x430000) / 0x100]? with
    | some k => portRead k ((off - 0x430000) % 0x100)
    | none => 0
  else if off < 0x450000 then serviceRead s.service (off - 0x440000)
  else if 0xC00000 ≤ off ∧ off < 0x1000000 then
    ((s.service.snap.find? fun e => e.1 == off - 0xC00000 + 0x400000).map (·.2)).getD 0
  else 0

/-- The read-only fields that a snapshot holds, by BAR0 offset with their masks (R378): RO fields of R357, R362, R367 and
R374. -/
def snapshotFields : List (Nat × Nat) :=
  ((List.range 16).flatMap fun k => [0x00, 0x08, 0x10, 0x18, 0x20, 0x40, 0x48, 0x50, 0x58].map fun o =>
      (0x410000 + 0x100 * k + o, 2 ^ 64 - 1)) ++
    (0x420000, 0xFF020000) :: ((List.range 8).map fun c => (0x420048 + 8 * c, 2 ^ 32 - 1)) ++
    (0x420088, 2 ^ 32 - 1) ::
    ((List.range 4).flatMap fun p => [(0x430000 + 0x100 * p, 0xFFFF3F020003), (0x430060 + 0x100 * p, 2 ^ 32 - 1)]) ++
    [(0x440000, 2 ^ 33 - 1), (0x440008, 0x300), (0x440018, 2 ^ 64 - 1), (0x440020, 0xFFFFFFFF00000000), (0x440038, 3),
     (0x440040, 0xFF00)]

/-- A port replaced. -/
def State.setPort (s : State) (p : Fin 4) (k : Port) : State := { s with ports := s.ports.set p.val k }

/-- A flit leaves a port under its next counter (R364, R365, R367). -/
def State.sendFlit (s : State) (p : Fin 4) (kind : Nat) (dst : Fin 256) (seq : BitVec 32) (data : List Byte) : State :=
  let (n, s) := s.fresh
  let k := s.ports[p.val]
  (s.setPort p { k with ncnt := k.ncnt + 1 }).send
    (.flit p.val (flitWords (Config.stampWord n) (k.flitOut s.device kind dst seq data)))

/-- A port may send a user flit now: it is live, its traffic is not held, and the last counter is not next (R368). -/
def Port.maySend (k : Port) : Bool := k.state == .up && !k.keyx && k.ncnt != 0xFFFFFFFF

/-- A user flit sent: a data flit goes to another device of the domain, takes the next SEQ and waits in the replay buffer of 256
until it is acknowledged (R365). -/
def State.sendUser (s : State) (p : Fin 4) (f : Fin 3 × Fin 256 × BitVec 32 × List Byte) : State :=
  let (kind, dst, seq, data) := f
  let k := s.ports[p.val]
  if !k.maySend then s
  else if kind ≠ 1 then s.sendFlit p kind.val dst seq data
  else if dst = s.device ∨ !s.inDomain dst.val ∨ 256 ≤ k.replay.length then s
  else (s.setPort p { k with seq := k.seq + 1, replay := k.replay ++ [⟨k.seq, dst, data, 0, false⟩] }).sendFlit p 1 dst k.seq data

/-- The flits that a live port has sent since it was last looked at, a free value (DESIGN CHOICE, log 31). -/
def State.traffic (s : State) (p : Fin 4) : State :=
  if !(s.ports[p.val]).maySend then s
  else
    let (n, s) := s.fresh
    (Config.flitsSent n).foldl (fun s f => s.sendUser p f) s

/-- Every port looked at. -/
def State.allTraffic (s : State) : State := (List.finRange 4).foldl State.traffic s

/-- The common snapshot trigger (R378): the region takes every read-only field's value of this moment, the old SNAPSEQ
among them (DEDUCED, log 25), and SNAPSEQ advances. -/
def State.snapshot (s : State) : State :=
  let s := s.allTraffic
  let vals := snapshotFields.filterMap fun (o, m) =>
    let v := s.barRead o &&& BitVec.ofNat 64 m
    if v = 0 then none else some (o, v)
  { s with service := { s.service with snapseq := s.service.snapseq + 1, snap := vals } }

end Sys2Proof.Machine
end

