-- ==== Sys2Proof/Machine/Scalar.lean ====
section
/-! DEFINITION. The scalar instructions of majors 0x01 to 0x09, 0x0C and 0x0E (07 R138 to R152), but for loads and
stores. Every one of them writes registers only and goes on to the next instruction; no flag is raised (R138). -/

namespace Sys2Proof.Machine

/-- The effect of an instruction that writes one x register (R138). -/
def putX (d : XReg) (v : Word) (s : State) : Host.Outcome State Fault Refusal := .next (s.setX d v).retire

/-- The effect of an instruction that writes one condition bit. -/
def putC (d : CBit) (v : Bool) (s : State) : Host.Outcome State Fault Refusal := .next (s.setC d v).retire

/-- The shift amount of a register: bits [5:0] (R139). -/
def shAmt (v : Word) : Nat := v.toNat % 64

/-- An immediate as 64 bits. -/
def immW (i : Int) : Word := BitVec.ofInt 64 i

/-- The signed quotient with its boundary cases (R150). -/
def divS (a b : Word) : Word :=
  if b = 0 then (if a.slt 0 then 0x8000000000000000 else 0x7FFFFFFFFFFFFFFF)
  else if a = 0x8000000000000000 ∧ b = 0xFFFFFFFFFFFFFFFF then 0x7FFFFFFFFFFFFFFF
  else BitVec.ofInt 64 (Int.tdiv a.toInt b.toInt)

/-- The unsigned quotient (R150). -/
def divU (a b : Word) : Word := if b = 0 then 0xFFFFFFFFFFFFFFFF else BitVec.ofNat 64 (a.toNat / b.toNat)

/-- The signed remainder: it takes the sign of the dividend (R150). -/
def remS (a b : Word) : Word := if b = 0 then a else BitVec.ofInt 64 (Int.tmod a.toInt b.toInt)

/-- The unsigned remainder (R150). -/
def remU (a b : Word) : Word := if b = 0 then a else BitVec.ofNat 64 (a.toNat % b.toNat)

/-- The high 64 bits of a product of integers (R150). -/
def mulHigh (a b : Int) : Word := BitVec.ofInt 64 (a * b / 2 ^ 64)

/-- The funnel shift of R152. -/
def funnel (a b : Word) (sh : Nat) : Word := BitVec.ofNat 64 ((a.toNat * 2 ^ 64 + b.toNat) / 2 ^ sh)

/-- `add` (R139). -/
def execAdd (d a b : XReg) (s : State) : Host.Outcome State Fault Refusal :=
  putX d (s.x a + s.x b) s

/-- `sub` (R139). -/
def execSub (d a b : XReg) (s : State) : Host.Outcome State Fault Refusal :=
  putX d (s.x a - s.x b) s

/-- `and` (R139). -/
def execAnd (d a b : XReg) (s : State) : Host.Outcome State Fault Refusal :=
  putX d (s.x a &&& s.x b) s

/-- `or` (R139). -/
def execOr (d a b : XReg) (s : State) : Host.Outcome State Fault Refusal :=
  putX d (s.x a ||| s.x b) s

/-- `xor` (R139). -/
def execXor (d a b : XReg) (s : State) : Host.Outcome State Fault Refusal :=
  putX d (s.x a ^^^ s.x b) s

/-- `andn` (R139). -/
def execAndn (d a b : XReg) (s : State) : Host.Outcome State Fault Refusal :=
  putX d (s.x a &&& ~~~ s.x b) s

/-- `sll` (R139). -/
def execSll (d a b : XReg) (s : State) : Host.Outcome State Fault Refusal :=
  putX d (s.x a <<< shAmt (s.x b)) s

/-- `srl` (R139). -/
def execSrl (d a b : XReg) (s : State) : Host.Outcome State Fault Refusal :=
  putX d (s.x a >>> shAmt (s.x b)) s

/-- `sra` (R139). -/
def execSra (d a b : XReg) (s : State) : Host.Outcome State Fault Refusal :=
  putX d ((s.x a).sshiftRight (shAmt (s.x b))) s

/-- `rol` (R139). -/
def execRol (d a b : XReg) (s : State) : Host.Outcome State Fault Refusal :=
  putX d ((s.x a).rotateLeft (shAmt (s.x b))) s

/-- `ror` (R139). -/
def execRor (d a b : XReg) (s : State) : Host.Outcome State Fault Refusal :=
  putX d ((s.x a).rotateRight (shAmt (s.x b))) s

/-- `min` (R139). -/
def execMin (d a b : XReg) (s : State) : Host.Outcome State Fault Refusal :=
  putX d (if (s.x b).slt (s.x a) then s.x b else s.x a) s

/-- `max` (R139). -/
def execMax (d a b : XReg) (s : State) : Host.Outcome State Fault Refusal :=
  putX d (if (s.x a).slt (s.x b) then s.x b else s.x a) s

/-- `minu` (R139). -/
def execMinu (d a b : XReg) (s : State) : Host.Outcome State Fault Refusal :=
  putX d (if (s.x b).ult (s.x a) then s.x b else s.x a) s

/-- `maxu` (R139). -/
def execMaxu (d a b : XReg) (s : State) : Host.Outcome State Fault Refusal :=
  putX d (if (s.x a).ult (s.x b) then s.x b else s.x a) s

/-- `csel` (R139). -/
def execCsel (d a b : XReg) (n : CBit) (s : State) : Host.Outcome State Fault Refusal :=
  putX d (if s.c n then s.x a else s.x b) s

/-- `addi` (R140). -/
def execAddi (d a : XReg) (i : Int) (s : State) : Host.Outcome State Fault Refusal :=
  putX d (s.x a + immW i) s

/-- `andi` (R140). -/
def execAndi (d a : XReg) (i : Int) (s : State) : Host.Outcome State Fault Refusal :=
  putX d (s.x a &&& immW i) s

/-- `ori` (R140). -/
def execOri (d a : XReg) (i : Int) (s : State) : Host.Outcome State Fault Refusal :=
  putX d (s.x a ||| immW i) s

/-- `xori` (R140). -/
def execXori (d a : XReg) (i : Int) (s : State) : Host.Outcome State Fault Refusal :=
  putX d (s.x a ^^^ immW i) s

/-- `slli` (R140). -/
def execSlli (d a : XReg) (k : Fin 64) (s : State) : Host.Outcome State Fault Refusal :=
  putX d (s.x a <<< k.val) s

/-- `srli` (R140). -/
def execSrli (d a : XReg) (k : Fin 64) (s : State) : Host.Outcome State Fault Refusal :=
  putX d (s.x a >>> k.val) s

/-- `srai` (R140). -/
def execSrai (d a : XReg) (k : Fin 64) (s : State) : Host.Outcome State Fault Refusal :=
  putX d ((s.x a).sshiftRight k.val) s

/-- `rori` (R140). -/
def execRori (d a : XReg) (k : Fin 64) (s : State) : Host.Outcome State Fault Refusal :=
  putX d ((s.x a).rotateRight k.val) s

/-- `lui` (R141). -/
def execLui (d : XReg) (i : Int) (s : State) : Host.Outcome State Fault Refusal :=
  putX d (immW (i * 4096)) s

/-- `bc` (R144); the kind is a prediction hint. -/
def execBc (c : CBit) (_k : Fin 4) (o : Int) (s : State) : Host.Outcome State Fault Refusal :=
  .next (if s.c c then s.setPc (s.hart.pc + immW (o * 4)) else s.setPc (s.hart.pc + s.len)).count

/-- `bnc` (R144). -/
def execBnc (c : CBit) (_k : Fin 4) (o : Int) (s : State) : Host.Outcome State Fault Refusal :=
  .next (if s.c c then s.setPc (s.hart.pc + s.len) else s.setPc (s.hart.pc + immW (o * 4))).count

/-- `jal` (R145). -/
def execJal (d : XReg) (o : Int) (s : State) : Host.Outcome State Fault Refusal :=
  .next ((s.setX d (s.hart.pc + s.len)).setPc (s.hart.pc + immW (o * 4))).count

/-- `jalr` (R146): a target that is not a multiple of 4 traps, and neither the link nor the program counter changes. -/
def execJalr (d a : XReg) (i : Int) (s : State) : Host.Outcome State Fault Refusal :=
  let t := s.x a + immW i
  if t.toNat % 4 ≠ 0 then .next (s.takeTrap (s.misaligned t))
  else .next ((s.setX d (s.hart.pc + s.len)).setPc t).count

/-- `cmpiEq` (R143). -/
def execCmpiEq (c : CBit) (a : XReg) (i : Int) (s : State) : Host.Outcome State Fault Refusal :=
  putC c (s.x a == immW i) s

/-- `cmpiLt` (R143). -/
def execCmpiLt (c : CBit) (a : XReg) (i : Int) (s : State) : Host.Outcome State Fault Refusal :=
  putC c ((s.x a).slt (immW i)) s

/-- `cmpiLtu` (R143). -/
def execCmpiLtu (c : CBit) (a : XReg) (i : Int) (s : State) : Host.Outcome State Fault Refusal :=
  putC c ((s.x a).ult (immW i)) s

/-- `cmpEq` (R143). -/
def execCmpEq (c : CBit) (a b : XReg) (s : State) : Host.Outcome State Fault Refusal :=
  putC c (s.x a == s.x b) s

/-- `cmpLt` (R143). -/
def execCmpLt (c : CBit) (a b : XReg) (s : State) : Host.Outcome State Fault Refusal :=
  putC c ((s.x a).slt (s.x b)) s

/-- `cmpLtu` (R143). -/
def execCmpLtu (c : CBit) (a b : XReg) (s : State) : Host.Outcome State Fault Refusal :=
  putC c ((s.x a).ult (s.x b)) s

/-- `cmpTst` (R143). -/
def execCmpTst (c : CBit) (a b : XReg) (s : State) : Host.Outcome State Fault Refusal :=
  putC c (s.x a &&& s.x b != 0) s

/-- `cand` (R143). -/
def execCand (d p q : CBit) (s : State) : Host.Outcome State Fault Refusal :=
  putC d (s.c p && s.c q) s

/-- `cor` (R143). -/
def execCor (d p q : CBit) (s : State) : Host.Outcome State Fault Refusal :=
  putC d (s.c p || s.c q) s

/-- `cxor` (R143). -/
def execCxor (d p q : CBit) (s : State) : Host.Outcome State Fault Refusal :=
  putC d (s.c p != s.c q) s

/-- `candn` (R143). -/
def execCandn (d p q : CBit) (s : State) : Host.Outcome State Fault Refusal :=
  putC d (s.c p && !s.c q) s

/-- `mul` (R150). -/
def execMul (d a b : XReg) (s : State) : Host.Outcome State Fault Refusal :=
  putX d (s.x a * s.x b) s

/-- `mulhiSs` (R150). -/
def execMulhiSs (d a b : XReg) (s : State) : Host.Outcome State Fault Refusal :=
  putX d (mulHigh (s.x a).toInt (s.x b).toInt) s

/-- `mulhiUu` (R150). -/
def execMulhiUu (d a b : XReg) (s : State) : Host.Outcome State Fault Refusal :=
  putX d (mulHigh (s.x a).toNat (s.x b).toNat) s

/-- `mulhiSu` (R150). -/
def execMulhiSu (d a b : XReg) (s : State) : Host.Outcome State Fault Refusal :=
  putX d (mulHigh (s.x a).toInt (s.x b).toNat) s

/-- `div` (R150). -/
def execDiv (d a b : XReg) (s : State) : Host.Outcome State Fault Refusal :=
  putX d (divS (s.x a) (s.x b)) s

/-- `divu` (R150). -/
def execDivu (d a b : XReg) (s : State) : Host.Outcome State Fault Refusal :=
  putX d (divU (s.x a) (s.x b)) s

/-- `rem` (R150). -/
def execRem (d a b : XReg) (s : State) : Host.Outcome State Fault Refusal :=
  putX d (remS (s.x a) (s.x b)) s

/-- `remu` (R150). -/
def execRemu (d a b : XReg) (s : State) : Host.Outcome State Fault Refusal :=
  putX d (remU (s.x a) (s.x b)) s

/-- `clz` (R152). -/
def execClz (d a : XReg) (s : State) : Host.Outcome State Fault Refusal :=
  putX d (BitVec.ofNat 64 (clz64 (s.x a).toNat)) s

/-- `ctz` (R152). -/
def execCtz (d a : XReg) (s : State) : Host.Outcome State Fault Refusal :=
  putX d (BitVec.ofNat 64 (lowestBit 64 (s.x a).toNat)) s

/-- `popc` (R152). -/
def execPopc (d a : XReg) (s : State) : Host.Outcome State Fault Refusal :=
  putX d (BitVec.ofNat 64 (popCount 64 (s.x a).toNat)) s

/-- `bswap` (R152). -/
def execBswap (d a : XReg) (s : State) : Host.Outcome State Fault Refusal :=
  putX d (BitVec.ofNat 64 (byteSwap 8 (s.x a).toNat)) s

/-- `bfx` (R152); `l` is the length less one. -/
def execBfx (d a : XReg) (l p : Fin 64) (s : State) : Host.Outcome State Fault Refusal :=
  putX d (BitVec.ofInt 64 (toSigned (l.val + 1) (bitsAt (s.x a).toNat p.val (l.val + 1)))) s

/-- `bfxu` (R152). -/
def execBfxu (d a : XReg) (l p : Fin 64) (s : State) : Host.Outcome State Fault Refusal :=
  putX d (BitVec.ofNat 64 (bitsAt (s.x a).toNat p.val (l.val + 1))) s

/-- `bfi` (R152). -/
def execBfi (d a : XReg) (l p : Fin 64) (s : State) : Host.Outcome State Fault Refusal :=
  putX d (BitVec.ofNat 64 (setBitsAt (s.x d).toNat p.val (l.val + 1) (s.x a).toNat)) s

/-- `fsh` (R152). -/
def execFsh (d a : XReg) (k : Fin 64) (b : XReg) (s : State) : Host.Outcome State Fault Refusal :=
  putX d (funnel (s.x a) (s.x b) k.val) s

/-- `fshv` (R152). -/
def execFshv (d a c b : XReg) (s : State) : Host.Outcome State Fault Refusal :=
  putX d (funnel (s.x a) (s.x b) (shAmt (s.x c))) s

/-- `bfxuv` (R152). -/
def execBfxuv (d a : XReg) (l : Fin 64) (b : XReg) (s : State) : Host.Outcome State Fault Refusal :=
  putX d (BitVec.ofNat 64 (bitsAt (s.x a).toNat (shAmt (s.x b)) (l.val + 1))) s

end Sys2Proof.Machine
end

