-- ==== Sys2Proof/Machine/SpecialRegs.lean ====
section
/-! DEFINITION. Special registers by number (02 R42 to R50, 07 R156, 12 R234, 18 R300 to R303): their words, what a
`movs` reads, what an `smov` writes. -/

namespace Sys2Proof.Machine

/-! ### Words of the registers with fields -/

/-- VCFG (R47). -/
def vcfgWord (v : Vcfg) : Nat := v.hold.toNat * 2 ^ 12 + v.lgrp * 2 ^ 8 + v.tag.code
/-- QPOS (R47). -/
def qposWord (q : Qpos) : Nat := q.po * 2 ^ 32 + q.pb * 2 ^ 16 + q.pa
/-- QPOS from a word. -/
def qposOf (n : Nat) : Qpos := ⟨bitsAt n 32 12, bitsAt n 16 12, bitsAt n 0 13⟩
/-- MBUDGET (R47). -/
def mbudgetWord (b : Mbudget) : Nat := b.cbits * 2 ^ 48 + b.canb * 2 ^ 32 + b.ufb * 2 ^ 16 + b.satb
/-- MBUDGET from a word. -/
def mbudgetOf (n : Nat) : Mbudget := ⟨bitsAt n 48 6, bitsAt n 32 16, bitsAt n 16 16, bitsAt n 0 16⟩
/-- A last (R42). -/
def shapeWord (k : Shape) : Nat :=
  k.bm.toNat * 2 ^ 26 + k.pk.toNat * 2 ^ 25 + k.cols * 2 ^ 16 + k.rows * 2 ^ 8 + k.tag.code

/-- A tag that a last may hold (R42): of an operand tile, or of an accumulator tile. -/
def shapeTagOk (operand : Bool) (t : Tag) : Bool :=
  if operand then [Tag.none, .i8, .ui8, .fp4, .e4m3, .e5m2, .bf16, .fp16, .fp32, .fp64].contains t
  else [Tag.none, .i32, .fp32, .fp64].contains t

/-- The last of a written word, unless R43 refuses it. A TAG of none has no element width, so that any COLS passes
(DESIGN CHOICE, log 64). -/
def shapeOf (operand : Bool) (mgrant n : Nat) : Option Shape :=
  match Tag.ofCode (bitsAt n 0 5) with
  | none => none
  | some t =>
    let k : Shape := ⟨bitAt n 26, bitAt n 25, bitsAt n 16 9, bitsAt n 8 8, t⟩
    if bitsAt n 27 37 = 0 ∧ bitsAt n 5 3 = 0 ∧ shapeTagOk operand t ∧ k.rows ≤ mgrant ∧
        k.cols * tagBits t ≤ (if operand then 1024 else 4096) ∧ (k.pk → k.bm) ∧ (k.bm → 8 ≤ tagBits t) ∧
        (operand ∨ (k.bm = false ∧ k.pk = false))
    then some k else none

/-- STATE of a channel as a number (R234). -/
def chState : ChState → Nat
  | .idle => 0 | .running => 1 | .done => 2 | .failed => 3
/-- CSTAT (R234). -/
def cstatWord (c : Channel) : Nat :=
  c.code * 2 ^ 8 + c.pend.toNat * 32 + c.desc.toNat * 16 + c.rem.toNat * 8 + chState c.state

/-- VLMAX for a tag, a group and an effective cluster count (R44); 0 while the tag is none. -/
def vlmaxOf (t : Tag) (lgrp ge : Nat) : Nat := if t = .none then 0 else 1024 * ge * 2 ^ lgrp * 8 / tagBits t

/-- VLMAX of a hart. -/
def Hart.vlmax (h : Hart) : Nat := vlmaxOf h.vcfg.tag h.vcfg.lgrp h.ge

/-- SPSTAT (R47). -/
def spstatWord (h : Hart) : Nat := h.place.pieces.length * 2 ^ 8 + h.discarded.toNat

/-- MSTAT (R47, R218): zero on a hart that is not attached. -/
def mstatWord (h : Hart) : Nat :=
  match h.tile with
  | some t => 8 + t.ceilx.toNat * 4 + t.rung.val
  | none => 0

/-- MREPLAYn: zero on a hart that is not attached (R218). -/
def Hart.replay (h : Hart) (n : Nat) : Word := match h.tile with | some t => t.mreplay[n]?.getD 0 | none => 0

/-! ### Reading -/

/-- A user register other than CYCLE and the lasts (R46); none where no register has the number. -/
def Hart.userSr (h : Hart) (n : Nat) : Option Word :=
  let w (k : Nat) : Option Word := some (BitVec.ofNat 64 k)
  match n with
  | 0x000 => w h.vl
  | 0x001 => w h.vlmax
  | 0x002 => w h.vsi
  | 0x003 => w (vcfgWord h.vcfg)
  | 0x004 => w h.rows
  | 0x005 => some h.pitch
  | 0x006 => w (fcsrWord h.fcsr)
  | 0x007 => some h.pc
  | 0x008 => w (qposWord h.qpos)
  | 0x009 => w h.place.hartNo
  | 0x00A => w h.place.harts
  | 0x00B => w h.ge
  | 0x00C => w (128 * h.ge)
  | 0x010 => w (match h.tile with | some t => t.rows | none => 0)
  | 0x011 => w (mbudgetWord h.mbudget)
  | 0x012 => w (mstatWord h)
  | 0x014 => some (h.replay 0)
  | 0x015 => some (h.replay 1)
  | 0x016 => some (h.replay 2)
  | 0x017 => some (h.replay 3)
  | 0x038 => w h.cbatch
  | 0x040 => some h.farmid
  | 0x041 => some h.fbase
  | 0x042 => some h.ffault
  | 0x048 => w (spstatWord h)
  | 0x051 => some h.instret
  | _ =>
    if 0x028 ≤ n ∧ n < 0x030 then some (h.ch[n - 0x028]?.getD {}).cwm
    else if 0x030 ≤ n ∧ n < 0x038 then w (cstatWord (h.ch[n - 0x030]?.getD {}))
    else none

/-- The last of a number 0x018 to 0x023 of an attached hart's context. -/
def TileCtx.last (t : TileCtx) (n : Nat) : Shape :=
  if n < 0x020 then (t.t[n - 0x018]?.getD {}).shape else (t.z[n - 0x020]?.getD {}).shape

/-- STATUS (R302). -/
def statusWord (p : Priv) : Nat := p.aie.toNat * 4 + p.ppl.toNat

/-- A privileged register (R301); none where R301 lists none. SNAPCTL is write-only and reads zero. -/
def State.privSr (s : State) (n : Nat) : Option Word :=
  let p := s.hart.priv
  let w (k : Nat) : Option Word := some (BitVec.ofNat 64 k)
  match n with
  | 0x800 => w (statusWord p)
  | 0x801 => some p.tvec
  | 0x802 => some p.epc
  | 0x803 => some p.cause
  | 0x804 => some p.faddr
  | 0x805 => some p.finfo
  | 0x806 => some p.scratch
  | 0x808 => some p.ptbase
  | 0x809 => some p.asid
  | 0x80A => w p.vlcap
  | 0x80B => w s.hart.place.part.val
  | 0x80C => w s.hart.place.saveslot
  | 0xC00 => some p.monvec
  | 0xC01 => some p.monpc
  | 0xC02 => some p.moncause
  | 0xC03 => some p.monaddr
  | 0xC04 => some p.moninfo
  | 0xC05 => w p.monppl.toNat
  | 0xC06 => some p.monspill
  | 0xC08 => some 0
  | 0xC10 => w p.psel.val
  | _ => if 0xC11 ≤ n ∧ n ≤ 0xC1B then some (partRead (s.partOf p.psel) (n - 0xC11)) else none

/-- The privilege of a number is checked before its listing (R300, R45). -/
def State.srPrivilege (s : State) (n : Nat) : Run Unit :=
  if n < 0x800 then .ok ()
  else match s.hart.priv.level with
    | .user => s.trap s.privileged
    | .kernel => if n < 0xC00 then .ok () else s.trap s.privileged
    | .monitor => .ok ()

/-- CYCLE (R49): the cycles since it was last read are a free value (DESIGN CHOICE, log 7). -/
def State.readCycle (s : State) : Word × State :=
  let (k, s) := s.fresh
  let v := s.hart.cycle + BitVec.ofNat 64 (Config.elapsed k)
  (v, { s with hart := { s.hart with cycle := v } })

/-- What a `movs` reads (R45, R46, R50, R301). -/
def State.readSr (s : State) (n : Nat) : Run (Word × State) := do
  s.srPrivilege n
  if n = 0x050 then .ok s.readCycle
  else if 0x018 ≤ n ∧ n < 0x024 then
    match s.hart.tile with
    | some t => .ok (BitVec.ofNat 64 (shapeWord (t.last n)), s)
    | none => s.trap s.detached
  else
    match (if n < 0x800 then s.hart.userSr n else s.privSr n) with
    | some v => .ok (v, s)
    | none => s.trap s.illegal

/-! ### Writing -/

/-- The hart's privileged registers changed. -/
def State.setPriv (s : State) (f : Priv → Priv) : State := { s with hart := { s.hart with priv := f s.hart.priv } }

/-- A context with a last replaced. -/
def TileCtx.setLast (t : TileCtx) (n : Nat) (k : Shape) : TileCtx :=
  if n < 0x020 then { t with t := t.t.setIfInBounds (n - 0x018) { t.t[n - 0x018]?.getD {} with shape := k } }
  else { t with z := t.z.setIfInBounds (n - 0x020) { t.z[n - 0x020]?.getD {} with shape := k } }

/-- An `smov` to a last (R41, R43). -/
def State.writeLast (s : State) (n : Nat) (v : Word) : Run State :=
  match s.hart.tile with
  | none => s.trap s.detached
  | some t =>
    match shapeOf (n < 0x020) t.rows v.toNat with
    | none => s.trap (s.tagFault 4)
    | some k => .ok { s with hart := { s.hart with tile := some (t.setLast n k) } }

/-- An `smov` to a user register (R46, R47): RO and RS registers ignore it (R45, DEDUCED, log 23). -/
def State.writeUserSr (s : State) (n : Nat) (v : Word) : State :=
  let h := s.hart
  let w := v.toNat
  match n with
  | 0x002 => { s with hart := { h with vsi := w % 2 ^ 32 } }
  | 0x004 => { s with hart := { h with rows := w % 2 ^ 16 } }
  | 0x005 => { s with hart := { h with pitch := v } }
  | 0x006 => { s with hart := { h with fcsr := fcsrOf w } }
  | 0x008 => { s with hart := { h with qpos := qposOf w } }
  | 0x011 => { s with hart := { h with mbudget := mbudgetOf w } }
  | 0x012 => match h.tile with
    | some t => if bitAt w 2 then { s with hart := { h with tile := some { t with ceilx := false } } } else s
    | none => s
  | 0x042 => { s with hart := { h with ffault := v } }
  | 0x048 => if bitAt w 0 then { s with hart := { h with discarded := false } } else s
  | _ => if 0x014 ≤ n ∧ n < 0x018 then
      match h.tile with
      | some t => { s with hart := { h with tile := some { t with mreplay := t.mreplay.setIfInBounds (n - 0x014) v } } }
      | none => s
    else s

/-- An `smov` to a privileged register (R301 to R303, R307, R309). -/
def State.writePrivSr (s : State) (n : Nat) (v : Word) : State :=
  let w := v.toNat
  match n with
  | 0x800 => s.setPriv fun p => { p with aie := bitAt w 2, ppl := if bitsAt w 0 2 ≤ 1 then BitVec.ofNat 2 w else p.ppl }
  | 0x801 => s.setPriv fun p => { p with tvec := BitVec.ofNat 64 (w / 4 * 4) }
  | 0x802 => s.setPriv fun p => { p with epc := v }
  | 0x803 => s.setPriv fun p => { p with cause := BitVec.ofNat 64 (w % 256) }
  | 0x804 => s.setPriv fun p => { p with faddr := v }
  | 0x805 => s.setPriv fun p => { p with finfo := v }
  | 0x806 => s.setPriv fun p => { p with scratch := v }
  | 0x808 => s.setPriv fun p => { p with ptbase := BitVec.ofNat 64 (bitsAt w 15 37 * 2 ^ 15) }
  | 0x809 => s.setPriv fun p => { p with asid := BitVec.ofNat 64 (w % 2 ^ 16) }
  | 0x80A => s.setPriv fun p => { p with vlcap := if capOk (bitsAt w 0 5) then bitsAt w 0 5 else p.vlcap }
  | 0xC00 => s.setPriv fun p => { p with monvec := BitVec.ofNat 64 (w / 4 * 4) }
  | 0xC01 => s.setPriv fun p => { p with monpc := v }
  | 0xC02 => s.setPriv fun p => { p with moncause := BitVec.ofNat 64 (w % 256) }
  | 0xC03 => s.setPriv fun p => { p with monaddr := v }
  | 0xC04 => s.setPriv fun p => { p with moninfo := v }
  | 0xC05 => s.setPriv fun p => { p with monppl := if bitsAt w 0 2 ≤ 2 then BitVec.ofNat 2 w else p.monppl }
  | 0xC06 => s.setPriv fun p => { p with monspill := v }
  | 0xC08 => if bitAt w 0 then s.snapshot else s
  | 0xC10 => s.setPriv fun p => { p with psel := Fin.ofNat 8 w }
  | _ => if 0xC11 ≤ n ∧ n ≤ 0xC1B then s.writePart s.hart.priv.psel (n - 0xC11) v else s

/-- What an `smov` writes (R45, R300). -/
def State.writeSr (s : State) (n : Nat) (v : Word) : Run State := do
  s.srPrivilege n
  if 0x018 ≤ n ∧ n < 0x024 then s.writeLast n v
  else if n < 0x800 then
    if n = 0x050 ∨ (s.hart.userSr n).isSome then .ok (s.writeUserSr n v) else s.trap s.illegal
  else if (s.privSr n).isSome then .ok (s.writePrivSr n v) else s.trap s.illegal

/-- `movs` (R156). -/
def execMovs (d : XReg) (r : Fin 4096) (s : State) : Host.Outcome State Fault Refusal :=
  finish do
    let (v, s') ← s.readSr r.val
    .ok (s'.setX d v).retire

/-- `smov` (R156). -/
def execSmov (a : XReg) (r : Fin 4096) (s : State) : Host.Outcome State Fault Refusal :=
  finish do
    let s' ← s.writeSr r.val (s.x a)
    .ok s'.retire

end Sys2Proof.Machine
end

