-- ==== Sys2Proof/Machine/Switch.lean ====
section
/-! DEFINITION. Full context switches and the end of a hart (21 R349 to R356, 19 R325, 01 R24, R25). -/

namespace Sys2Proof.Machine

/-! ### The end of a hart -/

/-- A farm that a hart has joined counts it as having left; the last one frees the counter (R24, R31). -/
def Farm.leave (f : Farm) (hid : Nat) : Farm :=
  let j := f.joined.filter fun n => n != hid
  if f.live ∧ j.isEmpty then { f with live := false, exhausted := false, joined := [] } else { f with joined := j }

/-- A zone stops being live (R24, R245): its FILLING transfers of this device end FAILED with NOZONE, keeping their
progress, and its slot records go. -/
def State.killZone (s : State) (z : Zone) : State :=
  let mine := s.fills.filter fun f => f.core == z.core && f.zone == z.num
  let s := s.setZoneWord z 0 0
  let s := { s with zones := s.zones.filter fun y => y != z, fills := s.fills.filter fun f => !(f.core == z.core && f.zone == z.num),
                    torn := s.torn.filter fun t => !(t.core == z.core && t.zone == z.num) }
  mine.foldl (fun s f => match f.xfer with
    | some (.mine hid ch) => s.mapHarts fun h =>
        if h.place.hid = hid then
          { h with ch := h.ch.set ch.val ((h.ch[ch.val]).fail 0x08 0) }
        else h
    | some (.theirs d t _ _) => s.send (.refusal d.val t 0x08)
    | _ => s) s

/-- Waiting harts whose `lz.wait` names a dead zone look again by themselves (R25); nothing else changes. The launch of a
hart that ends takes a status, the largest value so far (R22), and starts DRAINING with its last hart (R21). -/
def State.closeLaunch (s : State) (n hid status : Nat) : State :=
  match s.launchOf n with
  | none => s
  | some l =>
    let alive := s.harts.any fun h => h.place.launch == n && h.place.hid != hid &&
      (h.phase == .active || h.phase == .monitor || h.phase == .switched)
    s.putLaunch { l with status := Nat.max l.status status, farm := l.farm.leave hid,
                         state := if l.state = .running ∧ l.placed = l.harts ∧ !alive then .draining else l.state }

/-- A hart holds what a retirement takes away. -/
def State.retireHeld (s : State) (core : Nat) (cluster : Option Nat) : Bool :=
  s.harts.any fun h => (h.phase == .active || h.phase == .monitor) && h.place.core == core &&
    (match cluster with | none => true | some k => decide (h.place.cbase ≤ k) && decide (k < h.place.cbase + h.place.grant))

/-- A retirement ends when no hart holds what is retired (R380). DEDUCED, log 55. -/
def State.settleRetire (s : State) : State :=
  if s.retiring.all fun (c, k) => s.retireHeld c k then s
  else { s with retiring := s.retiring.filter fun (c, k) => s.retireHeld c k
                service := { s.service with retstat := 2 } }

/-- Every binding of a hart ends (R175); its prefetched strips are dropped. -/
def Hart.unbound (h : Hart) : Hart := { h with streams := h.streams.map fun b => { b with bound := false, strips := [] } }

/-- The hart whose turn it is ends (R24): its strip is discarded (status 3), its bindings end (R175), its zones die, its clusters
and matrix attachment go, its accepted copies run on. The pieces that it held are zeroed as they are released. -/
def State.endHart (s0 : State) (status : Nat) : State :=
  let h := s0.hart
  let held := (s0.holdOf h).isSome
  let st := if h.strip.isSome then Nat.max status 3 else status
  let s := (s0.zones.filter fun z => z.owner == h.place.hid).foldl State.killZone s0
  let h := s.hart
  let s := { s with hart := { h.unbound with phase := .ended, waiting := none, strip := none, tile := none, switchPending := false,
                                             reclaim := none, pend20 := none, pend21 := none, pend22 := none } }
  let s := if held && (s.holdOf s.hart).isNone then s.zeroPieces h.place.core h.place.pieces else s
  ((s.closeLaunch h.place.launch h.place.hid st).newCandidate s0 h.place.launch).settleRetire

/-! ### Saving -/

/-- The save area of a slot (R350). -/
def saveArea (slot : Nat) : Nat := 0x7FE0000000000 + slot * 0x800000

/-- Words packed into a number, the first lowest. -/
def packWords : List Nat → Nat
  | [] => 0
  | w :: ws => w % 2 ^ 64 + 2 ^ 64 * packWords ws

/-- A value placed at a byte offset. -/
def atOffset (off v : Nat) : Nat := v <<< (8 * off)

/-- The disc pages that are left out of a save: all of them when DISC is 1 (R88, R349). -/
def Hart.leftOut (h : Hart) : Bool := h.priv.finfo.getLsbD 0 && h.disc != 0

/-- FORMAT (R353). Of pieces kept in place no page is left out (R250, R349). -/
def Hart.format (h : Hart) (kept : Bool) : Nat :=
  1 + h.tile.isSome.toNat * 2 ^ 8 + (h.leftOut && !kept).toNat * 2 ^ 9 + kept.toNat * 2 ^ 10

/-- A level as a number (R299). -/
def levelNum : Level → Nat
  | .user => 0 | .kernel => 1 | .monitor => 2

/-- The header (R353), with the address and level to resume at. -/
def Hart.header (h : Hart) (resume : Word) (lvl : Nat) (kept : Bool) : Nat :=
  let t := h.tile.getD {}
  let w (off : Nat) (l : List Nat) : Nat := atOffset off (packWords l)
  w 0x000 (resume.toNat :: ((List.range 31).map fun i => (h.x[i + 1]?.getD 0).toNat)) +
    w 0x100 [((List.range 8).foldr (fun i a => a + (h.c[i]?.getD false).toNat * 2 ^ i) 0) + lvl * 2 ^ 8,
      h.vl, h.vsi, vcfgWord h.vcfg, h.rows, h.pitch.toNat, fcsrWord h.fcsr, qposWord h.qpos,
      mbudgetWord h.mbudget, mstatWord h, t.rows] +
    w 0x158 ((List.range 4).map fun i => (h.replay i).toNat) +
    (if h.tile.isSome then w 0x178 ((List.range 12).map fun i => shapeWord (t.last (0x018 + i))) else 0) +
    w 0x1D8 [h.farmid.toNat, h.fbase.toNat, h.ffault.toNat, spstatWord h, h.cycle.toNat, h.instret.toNat, h.ge,
      statusWord h.priv, h.priv.tvec.toNat, h.priv.scratch.toNat, h.priv.vlcap, h.batch % 2 ^ 32,
      h.strip.isSome.toNat, ((h.strip.map fun r => r.recovery.toNat).getD 0), ((h.strip.map fun r => r.recs.length).getD 0)] +
    atOffset 0x250 h.disc +
    atOffset 0x290 ((List.range 32).foldr (fun i a => a * 256 + (h.v[i]?.getD {}).tag.code) 0) +
    (List.range 8).foldr (fun i a => a + atOffset (0x2B0 + 16 * i)
      (let q := h.q[i]?.getD {}; q.entries.length + q.tag.code * 2 ^ 16 + q.sorted.toNat * 2 ^ 24)) 0 +
    w 0x330 [h.format kept]

/-- The form number of a channel record's CMD (R354). -/
def formNum : CopyForm → Nat
  | .cpy => 0 | .cpy2 => 1 | .cpyG => 2 | .cpyGd => 3 | .cpyR => 4 | .qsend => 32

/-- A channel record (R354). -/
def Channel.record (c : Channel) : Nat :=
  let k := c.cmd.getD {}
  packWords [cstatWord c, c.cwm.toNat, c.progress, c.failAddr.toNat, c.dest.toNat,
    formNum k.form + k.rel.toNat * 2 ^ 6 + k.tag.code * 2 ^ 7 + k.itag.code * 2 ^ 12 + k.batch % 2 ^ 32 * 2 ^ 32,
    k.xa.toNat, k.xb.toNat, k.xc.toNat, k.n, k.vl, k.pitch.toNat]

/-- A stream record (R354). -/
def Stream.record (t : Stream) : Nat :=
  packWords [t.bound.toNat + t.group * 2 ^ 8 + t.lgrp * 2 ^ 16 + t.tag.code * 2 ^ 24, t.base.toNat, t.stride.toNat, t.pos.toNat]

/-- A strip record (R354). -/
def StripRec.record (r : StripRec) : Nat :=
  packWords [r.addr % 2 ^ 51 + r.size * 2 ^ 52 + r.rel.isSome.toNat * 2 ^ 56, r.data]

/-- The spill image of an exact accumulator (R40): 552 bytes. -/
def EReg.image (e : EReg) : Nat :=
  ofInt 4352 e.a + (e.nan.toNat + e.pinf.toNat * 2 + e.ninf.toNat * 4) * 2 ^ 4352

/-- The accumulator of an image; the last word's other bits are ignored. -/
def EReg.ofImage (n : Nat) : EReg :=
  { a := toSigned 4352 (n % 2 ^ 4352), nan := bitAt n 4352, pinf := bitAt n 4353, ninf := bitAt n 4354 }

/-- A window page is left out of the save. -/
def Hart.pageOut (h : Hart) (p : Nat) : Bool := h.leftOut && bitAt h.disc p

/-- Integers packed as fields of b bits, the first lowest. -/
def packInts (b : Nat) : List Int → Nat
  | [] => 0
  | i :: is => ofInt b i + 2 ^ b * packInts b is

/-- The captured indices of a channel, or its message image (R352): bytes and value. Indices are packed as elements of the index
tag, so that the most there can be fill the 128 KiB of a channel (DEDUCED, log 26). -/
def Channel.captured (c : Channel) : Nat × Nat :=
  match c.cmd with
  | none => (0, 0)
  | some k =>
    if k.form = .qsend then (k.msg.length, ofBytes k.msg)
    else ((k.idx.length * tagBits k.itag + 7) / 8, packInts (tagBits k.itag) k.idx)

/-- The regions of a save (R352): offset, bytes, value. Regions that the context does not use are left out. -/
def Hart.regions (h : Hart) (spad : List Host.Cell) (resume : Word) (lvl : Nat) (kept : Bool) : List (Nat × Nat × Nat) :=
  let idx (n : Nat) := List.range n
  [(0, 4096, h.header resume lvl kept)] ++
    (idx 4).map (fun i => (0x1000 + 0x400 * i, 552, (h.e[i]?.getD {}).image)) ++
    (idx 8).map (fun i => (0x2000 + 0x800 * i, 128 * h.ge, (h.m[i]?.getD {}).bits)) ++
    (idx 8).map (fun i => (0x6000 + 128 * i, 96, (h.ch[i]?.getD {}).record)) ++
    (idx 8).map (fun i => (0x6400 + 64 * i, 32, (h.streams[i]?.getD {}).record)) ++
    (match h.strip with
      | none => []
      | some st => st.recs.zipIdx.map fun (r, i) => (0x8000 + 16 * i, 16, r.record)) ++
    (idx 32).map (fun i => (0x110000 + 0x4000 * i, 1024 * h.ge, (h.v[i]?.getD {}).bits)) ++
    (idx 8).flatMap (fun i =>
      let q := h.q[i]?.getD {}
      [(0x190000 + 0x6000 * i, (4 * q.entries.length + 7) / 8 * 8, q.entries.foldr (fun e a => e.1 + 2 ^ 32 * a) 0),
       (0x190000 + 0x6000 * i + 0x2000, 8 * q.entries.length, packWords (q.entries.map (·.2)))]) ++
    (match h.tile with
      | none => []
      | some t =>
        (idx 8).map (fun i => (0x1C0000 + 0x4000 * i, 0x4000, (t.t[i]?.getD ({} : TReg)).bits)) ++
        (idx 8).map (fun i => (0x1E0000 + 0x800 * i, 0x800, (t.t[i]?.getD ({} : TReg)).bitmap)) ++
        (idx 4).map (fun i => (0x1F0000 + 0x10000 * i, 0x10000, (t.z[i]?.getD ({} : ZReg)).bits))) ++
    (idx 8).flatMap (fun i =>
      let (n, v) := (h.ch[i]?.getD {}).captured
      if n = 0 then [] else [(0x240000 + 0x20000 * i, (n + 7) / 8 * 8, v)]) ++
    (if kept then [] else
      (idx (16 * h.place.pieces.length)).filterMap fun p =>
        if h.pageOut p then none
        else some (0x400000 + 4096 * p, 4096, Memory.readN spad (spadIndex h.place.core h.place.pieces (4096 * p)) 4096))

/-- The first byte of a page of 32 KiB that a region has. -/
def firstByte (p o n : Nat) : Option Nat :=
  if o < (p + 1) * 32768 ∧ p * 32768 < o + n then some (Nat.max o (p * 32768)) else none

/-- The 32 KiB pages of an area that some regions, offset and bytes, touch, ascending, each with the lowest offset touched. -/
def regionPages (rs : List (Nat × Nat)) : List (Nat × Nat) :=
  (List.range 256).filterMap fun p => (rs.filterMap fun (o, n) => firstByte p o n).min?.map fun f => (p, f)

/-- The physical base of every page of an area, all checked for reading and writing before the first access (R350); the lowest byte
used is the one that faults. -/
def State.areaPages (s : State) (h : Hart) : List (Nat × Nat) → Except Reject (List (Nat × Nat))
  | [] => .ok []
  | (p, off) :: ps => do
    let va := saveArea h.place.saveslot + off
    let c : Ctx := { h.ctx with user := false }
    let pa ← s.translate c .atomic va
    s.targetCheck h.place.part h.place.core va (pa / 32768 * 32768) 32768 .atomic false
    let rest ← s.areaPages h ps
    .ok ((p, pa / 32768 * 32768) :: rest)

/-- The physical address of an offset of an area. -/
def areaByte (pages : List (Nat × Nat)) (off : Nat) : Nat :=
  ((pages.find? fun e => e.1 == off / 32768).map (·.2)).getD 0 + off % 32768

/-- Writing n bytes of a region, eight at a time. -/
def State.putRegion (s : State) (pages : List (Nat × Nat)) (off v : Nat) : Nat → State
  | 0 => s
  | n + 1 => (s.writeLoc (.phys (areaByte pages off)) 8 (v % 2 ^ 64)).putRegion pages (off + 8) (v / 2 ^ 64) n

/-- A hart of a switched context: what the scheduler keeps outside the area (R351, DEDUCED, log 24), the pins of an open strip
among it (R338, R349). -/
def Hart.switchedOut (h : Hart) : Hart :=
  { phase := .switched, place := h.place, priv := h.priv, ge := h.ge, pend22 := h.pend22, lostBytes := h.lostBytes,
    strip := h.strip }

/-- Some storage that the save reads is poisoned (R356). -/
def Hart.storageBad (h : Hart) : Bool :=
  h.v.toList.any VReg.poison || h.m.toList.any MReg.poison || h.q.toList.any QReg.poison || h.e.toList.any EReg.poison ||
    (match h.tile with | some t => t.t.toList.any TReg.poison || t.z.toList.any ZReg.poison | none => false)

/-- A transfer into an eyelet is still in flight (R349 step 2). -/
def Hart.sending (h : Hart) : Bool := h.ch.toList.any fun c => c.rem && c.state == .running

/-- A save would read uncorrectable data (R356): in registers or tiles, or in the pieces that it writes (DEDUCED, log 65). -/
def State.saveBad (s : State) (kept : Bool) : Bool :=
  let h := s.hart
  h.storageBad || (!kept && h.place.pieces.any fun k =>
    poisoned s.spadPoison (h.place.core * Config.spadBytes + k * 65536) 65536)

/-- Switching the hart whose turn it is out (R349, R350): transfers end first; every page is checked before the first
write; the hart becomes SWITCHED and its clusters, context and pieces are zeroed and released. -/
def State.switchOut (s : State) : Run State :=
  let s := s.drain
  let kept := s.ownsZone s.hart.place.hid
  if s.hart.sending then .ok (s.wait .switchOut .active)
  else if s.saveBad kept then .ok (s.endHart 2)
  else
    let old := s
    let (_, s) := s.readCycle
    let h := { s.hart with instret := s.hart.instret + 1 }
    let rs := h.regions s.spad h.priv.epc h.priv.ppl.toNat kept
    match s.areaPages h (regionPages (rs.map fun (o, n, _) => (o, n))) with
    | .error r => s.trap (s.trapOf r)
    | .ok pages =>
      let s := rs.foldl (fun s (o, n, v) => s.putRegion pages o v ((n + 7) / 8)) s
      let s := if kept then s else s.zeroPieces h.place.core h.place.pieces
      .ok ({ s with hart := h.switchedOut }.newCandidate old h.place.launch).settleRetire

/-! ### Restoring -/

/-- Reading a region. -/
def State.getRegion (s : State) (pages : List (Nat × Nat)) (off : Nat) : Nat → Nat
  | 0 => 0
  | n + 1 => Memory.readN s.mem (areaByte pages off) 8 + 2 ^ 64 * s.getRegion pages (off + 8) n

/-- One page of a restored piece: as saved, or zero (R88, R355); a page of pieces kept in place stays unless it was left out. -/
def State.restorePage (s : State) (pages : List (Nat × Nat)) (core : Nat) (ps : List Nat) (kept out : Bool) (p : Nat) : State :=
  let at' := Loc.spad (spadIndex core ps (4096 * p))
  if out then s.writeLoc at' 4096 0
  else if kept then s
  else s.writeLoc at' 4096 (s.getRegion pages (0x400000 + 4096 * p) 512)

/-- The restored pieces. -/
def State.restorePieces (s : State) (pages : List (Nat × Nat)) (core : Nat) (ps : List Nat) (disc fmt : Nat) : State :=
  (List.range (16 * ps.length)).foldl (fun s p => s.restorePage pages core ps (bitAt fmt 10) (bitAt fmt 9 && bitAt disc p) p) s

/-- The form of a channel record. -/
def formOf : Nat → Option CopyForm
  | 0 => some .cpy | 1 => some .cpy2 | 2 => some .cpyG | 3 => some .cpyGd | 4 => some .cpyR | 32 => some .qsend | _ => none

/-- n packed index elements of a tag. -/
def unpackInts (t : Tag) (v : Nat) : Nat → List Int
  | 0 => []
  | n + 1 => indexInt t (v % 2 ^ tagBits t) :: unpackInts t (v / 2 ^ tagBits t) n

/-- The message length of a `qsend` whose image begins with a count and a tag (R249). -/
def messageLen (n : Nat) (t : Tag) : Nat := 16 + 8 * ((4 * n + 7) / 8) + n * Nat.max 1 (tagBits t / 8)

/-- The bytes of captured indices or of a message that a channel record names (R352). -/
def capturedBytes (form : CopyForm) (itag : Tag) (n : Nat) : Nat :=
  match form with
  | .cpyG | .cpyGd => Nat.min 0x20000 ((n * tagBits itag + 7) / 8)
  | .qsend => 0x8000
  | _ => 0

/-- A channel from its record (R354), with the level and the hart to resume; none where the record holds no channel. -/
def State.readChannel (s : State) (pages : List (Nat × Nat)) (user : Bool) (h : Hart) (i : Nat) : Option Channel :=
  let r := s.getRegion pages (0x6000 + 128 * i) 12
  let w (k : Nat) : Nat := bitsAt r (64 * k) 64
  let st : Option ChState := match bitsAt (w 0) 0 3 with
    | 0 => some .idle | 1 => some .running | 2 => some .done | 3 => some .failed | _ => none
  match st, formOf (bitsAt (w 5) 0 6), Tag.ofCode (bitsAt (w 5) 7 5), Tag.ofCode (bitsAt (w 5) 12 5) with
  | some st, some form, some tag, some itag =>
    let img := s.getRegion pages (0x240000 + 0x20000 * i)
    let msg := if form = .qsend then
        let hd := img 2
        bytesOf (messageLen (bitsAt hd 0 32 % 4096) ((Tag.ofCode (bitsAt hd 32 5)).getD .none))
          (img ((messageLen (bitsAt hd 0 32 % 4096) ((Tag.ofCode (bitsAt hd 32 5)).getD .none) + 7) / 8))
      else []
    let idx := if form = .cpyG ∨ form = .cpyGd then unpackInts itag (img ((capturedBytes form itag (w 9) + 7) / 8)) (Nat.min 0x20000 (w 9)) else []
    let rem := bitAt (w 0) 3
    let cmd : CopyCmd := {
      form := form, rel := bitAt (w 5) 6, tag := tag, itag := itag, batch := bitsAt (w 5) 32 32
      xa := BitVec.ofNat 64 (w 6), xb := BitVec.ofNat 64 (w 7), xc := BitVec.ofNat 64 (w 8), n := w 9, vl := w 10
      pitch := BitVec.ofNat 64 (w 11), user := user, root := h.priv.ptbase, asid := h.asid, idx := idx, msg := msg }
    let c : Channel := {
      state := st, code := bitsAt (w 0) 8 8, pend := bitAt (w 0) 5, desc := bitAt (w 0) 4, rem := rem
      cwm := BitVec.ofNat 64 (w 1), progress := w 2, failAddr := BitVec.ofNat 64 (w 3), dest := BitVec.ofNat 64 (w 4)
      cmd := if w 6 = 0 ∧ w 7 = 0 ∧ w 9 = 0 then none else some cmd, sent := if rem then w 2 else 0 }
    if cstatWord c = w 0 ∧ bitsAt (w 5) 17 15 = 0 then some c else none
  | _, _, _, _ => none

/-- A stream binding from its record. -/
def State.readStream (s : State) (pages : List (Nat × Nat)) (i : Nat) : Option Stream :=
  let r := s.getRegion pages (0x6400 + 64 * i) 4
  let w (k : Nat) : Nat := bitsAt r (64 * k) 64
  (Tag.ofCode (bitsAt (w 0) 24 5)).bind fun t =>
    let k : Stream := {
      bound := bitAt (w 0) 0, group := bitsAt (w 0) 8 5, lgrp := bitsAt (w 0) 16 2, tag := t
      base := BitVec.ofNat 64 (w 1), stride := BitVec.ofNat 64 (w 2), pos := BitVec.ofNat 64 (w 3) }
    if k.record % 2 ^ 64 = w 0 then some k else none

/-- What the area does not hold of a strip record is that of the record kept for it (R338, R351, DEDUCED, log 20): the same place and
address, else the first of the address; a release with no record kept has scope sys. -/
def keptRec (kept : List StripRec) (i addr : Nat) : StripRec :=
  match kept[i]?.filter fun e => e.addr == addr with
  | some e => e
  | none => (kept.find? fun e => e.addr == addr).getD { addr := addr, size := 0, rel := none, data := 0 }

/-- Strip record i read. -/
def stripRecOf (kept : List StripRec) (i r : Nat) : Option StripRec :=
  let a := bitsAt r 0 51
  let p := keptRec kept i a
  let k : StripRec := { p with size := bitsAt r 52 2, data := bitsAt r 64 64,
                               rel := if bitAt r 56 then some (p.rel.getD .sys) else none }
  if k.record = r then some k else none

/-- A list of options, all of them. -/
def allSome {α : Type} : List (Option α) → Option (List α)
  | [] => some []
  | a :: as => a.bind fun x => (allSome as).map fun xs => x :: xs

/-- A fibre from its header word and planes. -/
def State.readFibre (s : State) (pages : List (Nat × Nat)) (hdr : Nat) (ge i : Nat) : Option QReg :=
  let w := bitsAt hdr (8 * (0x2B0 + 16 * i)) 128
  let n := bitsAt w 0 12
  (Tag.ofCode (bitsAt w 16 5)).bind fun t =>
    if w = n + t.code * 2 ^ 16 + (bitAt w 24).toNat * 2 ^ 24 ∧ n ≤ 128 * ge then
      let cs := s.getRegion pages (0x190000 + 0x6000 * i) ((n + 1) / 2)
      let vs := s.getRegion pages (0x190000 + 0x6000 * i + 0x2000) n
      some { entries := (List.range n).map fun k => (bitsAt cs (32 * k) 32, narrowValue t (bitsAt vs (64 * k) 64)), tag := t,
             sorted := bitAt w 24, fresh := false }
    else none

/-- The matrix context of a save (R218, R352); none where a last breaks R43. -/
def State.readTile (s : State) (pages : List (Nat × Nat)) (hdr : Nat) : Option TileCtx :=
  let w (off : Nat) : Nat := bitsAt hdr (8 * off) 64
  let rows := w 0x150
  let t := allSome ((List.range 8).map fun i => (shapeOf true rows (w (0x178 + 8 * i))).map fun k =>
    ({ bits := s.getRegion pages (0x1C0000 + 0x4000 * i) 2048, bitmap := s.getRegion pages (0x1E0000 + 0x800 * i) 256,
       shape := k } : TReg))
  let z := allSome ((List.range 4).map fun i => (shapeOf false rows (w (0x1B8 + 8 * i))).map fun k =>
    ({ bits := s.getRegion pages (0x1F0000 + 0x10000 * i) 8192, shape := k } : ZReg))
  match t, z with
  | some ts, some zs =>
    some { rows := rows, t := Vector.ofFn fun i => ts.getD i.val {}, z := Vector.ofFn fun i => zs.getD i.val {},
           ceilx := bitAt (w 0x148) 2, rung := Fin.ofNat 4 (w 0x148),
           mreplay := Vector.ofFn fun i => BitVec.ofNat 64 (w (0x158 + 8 * i.val)) }
  | _, _ => none

/-- The restored hart of an area (R355), placed anew; none where a check fails. A resume address that is no multiple of 4 is loaded as
it stands, and the next fetch traps (DESIGN CHOICE, log 64). -/
def State.readContext (s : State) (pages : List (Nat × Nat)) (h : Hart) (at' : Hold) : Option Hart :=
  let hdr := s.getRegion pages 0 512
  let w (off : Nat) : Nat := bitsAt hdr (8 * off) 64
  let word (off : Nat) : Word := BitVec.ofNat 64 (w off)
  let fmt := w 0x330
  let ge := w 0x208
  let lvl := bitsAt (w 0x100) 8 2
  let user := lvl == 0
  let tags := allSome ((List.range 32).map fun i => Tag.ofCode (bitsAt hdr (8 * (0x290 + i)) 8))
  let fibres := allSome ((List.range 8).map fun i => s.readFibre pages hdr ge i)
  let chans := allSome ((List.range 8).map fun i => s.readChannel pages user h i)
  let strms := allSome ((List.range 8).map fun i => s.readStream pages i)
  let recs := if bitAt (w 0x238) 0 then
      allSome ((List.range (Nat.min (w 0x248) 65536)).map fun i => stripRecOf ((h.strip.map Strip.recs).getD []) i (s.getRegion pages (0x8000 + 16 * i) 2))
    else some []
  let tile : Option (Option TileCtx) := if bitAt fmt 8 then (s.readTile pages hdr).map some else some none
  match Tag.ofCode (bitsAt (w 0x118) 0 5), tags, fibres, chans, strms, recs, tile with
  | some vt, some tags, some fibres, some chans, some strms, some recs, some tile =>
    let vcfg : Vcfg := ⟨vt, bitsAt (w 0x118) 8 2, bitAt (w 0x118) 12⟩
    let ok := bitsAt fmt 0 8 = 1 ∧ bitsAt fmt 11 53 = 0 ∧ bitsAt (w 0x100) 10 54 = 0 ∧ lvl ≠ 3 ∧ w 0x108 < 2 ^ 32 ∧
      w 0x110 < 2 ^ 32 ∧ vcfgWord vcfg = w 0x118 ∧ w 0x120 < 2 ^ 16 ∧ fcsrWord (fcsrOf (w 0x130)) = w 0x130 ∧
      qposWord (qposOf (w 0x138)) = w 0x138 ∧ mbudgetWord (mbudgetOf (w 0x140)) = w 0x140 ∧ bitsAt (w 0x148) 4 60 = 0 ∧
      ge = h.ge ∧ bitsAt (w 0x210) 3 61 = 0 ∧ bitsAt (w 0x218) 0 2 = 0 ∧ capOk (w 0x228) ∧ bitsAt (w 0x230) 32 32 = 0 ∧
      bitsAt (w 0x238) 1 63 = 0 ∧ w 0x108 ≤ vlmaxOf vt vcfg.lgrp ge ∧
      w 0x1F0 / 2 ^ 14 = 0 ∧ bitsAt (w 0x1F0) 1 7 = 0
    if ok then
      some { h with
        phase := .active, waiting := none, pc := word 0x000
        place := { h.place with core := at'.core, slot := at'.slot, cbase := at'.cbase, grant := at'.grant, pieces := at'.pieces }
        priv := { h.priv with level := levelOf (BitVec.ofNat 2 lvl), aie := bitAt (w 0x210) 2, ppl := BitVec.ofNat 2 (w 0x210),
                              tvec := word 0x218, scratch := word 0x220, vlcap := w 0x228 }
        x := Vector.ofFn fun i => if i.val = 0 then 0 else word (8 * i.val)
        c := Vector.ofFn fun i => bitAt (w 0x100) i.val
        vl := w 0x108, vsi := w 0x110, vcfg := vcfg, rows := w 0x120, pitch := word 0x128, fcsr := fcsrOf (w 0x130)
        qpos := qposOf (w 0x138), mbudget := mbudgetOf (w 0x140), tile := tile, ge := ge
        v := Vector.ofFn fun i =>
          { bits := s.getRegion pages (0x110000 + 0x4000 * i.val) (128 * ge), tag := tags.getD i.val .none }
        m := Vector.ofFn fun i => { bits := s.getRegion pages (0x2000 + 0x800 * i.val) (16 * ge) }
        q := Vector.ofFn fun i => fibres.getD i.val {}
        e := Vector.ofFn fun i => EReg.ofImage (s.getRegion pages (0x1000 + 0x400 * i.val) 69)
        ch := Vector.ofFn fun i => chans.getD i.val {}
        streams := Vector.ofFn fun i => strms.getD i.val {}
        farmid := word 0x1D8, fbase := word 0x1E0, ffault := word 0x1E8
        discarded := bitAt (w 0x1F0) 0 || bitAt fmt 9
        cycle := word 0x1F8, instret := word 0x200, batch := w 0x230
        disc := bitsAt hdr (8 * 0x250) 512
        strip := if bitAt (w 0x238) 0 then some ⟨word 0x240, (h.strip.map Strip.level).getD (levelOf (BitVec.ofNat 2 lvl)), recs⟩ else none }
    else none
  | _, _, _, _, _, _, _ => none

/-- The regions of an area that a restore reads (R352, R355), as its first page tells of them, for a number of pieces. -/
def State.savedRegions (s : State) (page0 : List (Nat × Nat)) (pieces : Nat) : List (Nat × Nat) :=
  let hdr := s.getRegion page0 0 512
  let w (off : Nat) : Nat := bitsAt hdr (8 * off) 64
  let fmt := w 0x330
  let idx (n : Nat) := List.range n
  [(0, 0x6600)] ++
    (if bitAt (w 0x238) 0 then [(0x8000, 16 * Nat.min (w 0x248) 65536)] else []) ++
    (idx 32).map (fun i => (0x110000 + 0x4000 * i, 1024 * Nat.min (w 0x208) 16)) ++
    (idx 8).flatMap (fun i =>
      let n := bitsAt (w (0x2B0 + 16 * i)) 0 12
      [(0x190000 + 0x6000 * i, (4 * n + 7) / 8 * 8), (0x190000 + 0x6000 * i + 0x2000, 8 * n)]) ++
    (if bitAt fmt 8 then [(0x1C0000, 0x24000), (0x1F0000, 0x40000)] else []) ++
    (idx 8).map (fun i =>
      let r := s.getRegion page0 (0x6000 + 128 * i) 12
      (0x240000 + 0x20000 * i, capturedBytes ((formOf (bitsAt r 320 6)).getD .cpy) ((Tag.ofCode (bitsAt r 332 5)).getD .none) (bitsAt r 576 64))) ++
    (if bitAt fmt 10 then [] else (idx (16 * pieces)).filterMap fun p =>
      if bitAt fmt 9 && bitAt hdr (8 * 0x250 + p) then none else some (0x400000 + 4096 * p, 4096))

/-- A read of some regions meets uncorrectable data. -/
def State.regionsBad (s : State) (pages rs : List (Nat × Nat)) : Bool :=
  !s.poison.isEmpty && rs.any fun (o, n) => (List.range ((n + 7) / 8)).any fun k => poisoned s.poison (areaByte pages (o + 8 * k)) 8

/-- The hart restored from the pages of its area, once they translate (R355). -/
def State.restoreWith (s : State) (at' : Hold) (rs : List (Nat × Nat)) : Option (List (Nat × Nat)) → State
  | none => s.endHart 2
  | some pages =>
    if s.regionsBad pages rs then s.endHart 2
    else match s.readContext pages s.hart at' with
      | none => s.endHart 2
      | some h' => { s with hart := h' }.restorePieces pages at'.core at'.pieces h'.disc (s.getRegion pages 0x330 1)

/-- The restore once the header's page translates: what it tells of must translate too (R355). -/
def State.restoreFrom (s : State) (at' : Hold) : Option (List (Nat × Nat)) → State
  | none => s.endHart 2
  | some hp =>
    let rs := s.savedRegions hp s.hart.place.pieces.length
    s.restoreWith at' rs (s.areaPages s.hart (regionPages rs)).toOption

/-- Restoring the hart whose turn it is onto a place (R355): checks that fail end it with status 2. -/
def State.restoreHart (s : State) (at' : Hold) : State := s.restoreFrom at' (s.areaPages s.hart [(0, 0)]).toOption

end Sys2Proof.Machine
end

