-- ==== Sys2Proof/Machine/Float.lean ====
section
/-! DEFINITION. Floating-point arithmetic: every result is the exact real result rounded once (03 R58 to R63, R382). -/

namespace Sys2Proof.Machine

/-- The magnitude m × 2^e in units of 2^u, rounded by a mode (R59), and whether it was inexact. -/
def roundUnits (rm : Rounding) (neg : Bool) (m : Nat) (e u : Int) : Nat × Bool :=
  if u ≤ e then (m <<< (e - u).toNat, false)
  else
    let d := (u - e).toNat
    let q := m >>> d
    let r := m % 2 ^ d
    if r = 0 then (q, false)
    else
      let half := 2 ^ (d - 1)
      let up : Bool := match rm with
        | .rne => decide (half < r) || (r == half && q % 2 == 1)
        | .rna => decide (half ≤ r)
        | .rtz => false
        | .rdn => neg
        | .rup => !neg
      (q + up.toNat, true)

/-- The encoding of r × 2^u, where u is at least the spacing of subnormals and r at most 2^p. -/
def Fmt.encode (f : Fmt) (neg : Bool) (r : Nat) (u : Int) : Nat :=
  if r < 2 ^ f.mbits then f.pack neg 0 r
  else if r = 2 ^ f.p then f.pack neg (u + 1 + f.mbits + f.bias).toNat 0
  else f.pack neg (u + f.mbits + f.bias).toNat (r - 2 ^ f.mbits)

/-- The result of an overflow (R60). -/
def Fmt.overflowBits (f : Fmt) (rm : Rounding) (neg : Bool) : Nat :=
  let away : Bool := match rm with
    | .rne => true | .rna => true | .rtz => false | .rup => !neg | .rdn => neg
  match f.kind with
  | .fp4 => f.maxBits neg
  | .e4m3 => if away then f.nanBits else f.maxBits neg
  | .ieee => if away then f.infBits neg else f.maxBits neg

/-- Rounding and finishing an exact nonzero magnitude m × 2^e (R59, R60); `sat` clamps an overflow (R62, R63). -/
def Fmt.round (f : Fmt) (rm : Rounding) (sat neg : Bool) (m : Nat) (e : Int) : FRes :=
  let ex : Int := m.log2 + e
  let u := max ex f.emin - f.mbits
  let (r, nx) := roundUnits rm neg m e u
  let mx := f.maxFinite
  let base := min u mx.2
  if mx.1 <<< (mx.2 - base).toNat < r <<< (u - base).toNat then
    if sat then ⟨f.maxBits neg, { nx := true }, true⟩
    else ⟨f.overflowBits rm neg, { of := true, nx := true }, false⟩
  else
    let tiny := decide (ex < f.emin) &&
      !(ex == f.emin - 1 && (roundUnits rm neg m e (ex - f.mbits)).1 == 2 ^ f.p)
    ⟨f.encode neg r u, { uf := tiny && nx, nx := nx }, false⟩

/-- A NaN result; fp4 stores +0 with NV (R58, R382). -/
def Fmt.nanResult (f : Fmt) (nv : Bool) : FRes :=
  ⟨f.nanBits, flagNv (nv || f.kind == .fp4), false⟩

/-- An infinite result of an arithmetic operation; DZ when it comes of a division by zero (R382). -/
def Fmt.infResult (f : Fmt) (neg dz : Bool) : FRes :=
  match f.kind with
  | .ieee => ⟨f.infBits neg, { dz := dz }, false⟩
  | .e4m3 => ⟨f.nanBits, { dz := dz, nv := true }, false⟩
  | .fp4 => ⟨f.maxBits neg, { dz := dz, nv := true }, false⟩

/-- An exact finite result, zero included. -/
def Fmt.finResult (f : Fmt) (rm : Rounding) (sat neg : Bool) (m : Nat) (e : Int) : FRes :=
  if m = 0 then .plain (f.zeroBits neg) else f.round rm sat neg m e

/-- A value as an integer of units of 2^e0, where e0 is at most its exponent. -/
def scaledInt (neg : Bool) (m : Nat) (e e0 : Int) : Int :=
  let k : Int := (m <<< (e - e0).toNat : Nat)
  if neg then -k else k

/-- The sum of two values (R59). -/
def Fmt.add (f : Fmt) (rm : Rounding) (sat : Bool) (a b : FVal) : FRes :=
  match a, b with
  | .nan q, y => f.nanResult (q || y.isSig)
  | x, .nan q => f.nanResult (q || x.isSig)
  | .inf s, .inf t => if s = t then f.infResult s false else f.nanResult true
  | .inf s, _ => f.infResult s false
  | _, .inf s => f.infResult s false
  | .fin s m e, .fin t n g =>
    let e0 := min e g
    let v := scaledInt s m e e0 + scaledInt t n g e0
    if v = 0 then
      .plain (f.zeroBits (if m = 0 ∧ n = 0 ∧ s = t then s else rm == .rdn))
    else f.round rm sat (decide (v < 0)) v.natAbs e0

/-- The product. -/
def Fmt.mul (f : Fmt) (rm : Rounding) (sat : Bool) (a b : FVal) : FRes :=
  match a, b with
  | .nan q, y => f.nanResult (q || y.isSig)
  | x, .nan q => f.nanResult (q || x.isSig)
  | .inf s, .inf t => f.infResult (s != t) false
  | .inf s, .fin t m _ => if m = 0 then f.nanResult true else f.infResult (s != t) false
  | .fin s m _, .inf t => if m = 0 then f.nanResult true else f.infResult (s != t) false
  | .fin s m e, .fin t n g => f.finResult rm sat (s != t) (m * n) (e + g)

/-- The exact product of two values, as a value; ∞ × 0 is a signalling NaN here, so that its use raises NV. -/
def FVal.times (a b : FVal) : FVal :=
  match a, b with
  | .nan q, y => .nan (q || y.isSig)
  | x, .nan q => .nan (q || x.isSig)
  | .inf s, .inf t => .inf (s != t)
  | .inf s, .fin t m _ => if m = 0 then .nan true else .inf (s != t)
  | .fin s m _, .inf t => if m = 0 then .nan true else .inf (s != t)
  | .fin s m e, .fin t n g => .fin (s != t) (m * n) (e + g)

/-- a × b + c rounded once; ∞ × 0 gives NaN with NV whatever c is (R155, R185). -/
def Fmt.fma (f : Fmt) (rm : Rounding) (sat : Bool) (a b c : FVal) : FRes := f.add rm sat (a.times b) c

/-- A quotient of magnitudes with three bits beyond p and a sticky bit below them. -/
def quotBits (p m n : Nat) (e : Int) : Nat × Int :=
  let k := (p + 5 + n.log2) - m.log2
  let q := (m <<< k) / n
  let r := (m <<< k) % n
  (4 * q + (if r = 0 then 0 else 1), e - k - 2)

/-- The quotient (R155, R382). -/
def Fmt.div (f : Fmt) (rm : Rounding) (sat : Bool) (a b : FVal) : FRes :=
  match a, b with
  | .nan q, y => f.nanResult (q || y.isSig)
  | x, .nan q => f.nanResult (q || x.isSig)
  | .inf _, .inf _ => f.nanResult true
  | .inf s, .fin t _ _ => f.infResult (s != t) false
  | .fin s _ _, .inf t => .plain (f.zeroBits (s != t))
  | .fin s m e, .fin t n g =>
    if n = 0 then
      if m = 0 then f.nanResult true else f.infResult (s != t) true
    else if m = 0 then .plain (f.zeroBits (s != t))
    else
      let (q, g') := quotBits f.p m n (e - g)
      f.round rm sat (s != t) q g'

/-- The integer square root by its bits: the largest r below 2^k with r² ≤ n, given r so far. -/
def isqrtGo (n : Nat) : Nat → Nat → Nat
  | 0, r => r
  | k + 1, r => let c := r + 2 ^ k; isqrtGo n k (if c * c ≤ n then c else r)

/-- ⌊√n⌋. -/
def isqrt (n : Nat) : Nat := isqrtGo n (n.log2 / 2 + 1) 0

/-- The root of m × 2^e with bits enough to round to p, and a sticky bit. -/
def rootBits (p m : Nat) (e : Int) : Nat × Int :=
  let k0 := 2 * (p + 5)
  let k := if (e - k0) % 2 = 0 then k0 else k0 + 1
  let n := m <<< k
  let r := isqrt n
  (4 * r + (if r * r = n then 0 else 1), (e - k) / 2 - 2)

/-- The square root (R155). -/
def Fmt.sqrt (f : Fmt) (rm : Rounding) (a : FVal) : FRes :=
  match a with
  | .nan q => f.nanResult q
  | .inf s => if s then f.nanResult true else f.infResult false false
  | .fin s m e =>
    if m = 0 then .plain (f.zeroBits s)
    else if s then f.nanResult true
    else let (r, g) := rootBits f.p m e; f.round rm false false r g

/-- The order of two values; none when either is a NaN. -/
def FVal.cmp (a b : FVal) : Option Ordering :=
  match a, b with
  | .nan _, _ => none
  | _, .nan _ => none
  | .inf s, .inf t => some (if s = t then .eq else if s then .lt else .gt)
  | .inf s, _ => some (if s then .lt else .gt)
  | _, .inf s => some (if s then .gt else .lt)
  | .fin s m e, .fin t n g =>
    let e0 := min e g
    some (compare (scaledInt s m e e0) (scaledInt t n g e0))

/-- Whether a value is a negative zero or a positive one. -/
def FVal.negSign : FVal → Bool
  | .fin s _ _ => s
  | .inf s => s
  | .nan _ => false

/-- `fmin` (lo) or `fmax` on patterns (R155); −0 lies below +0. -/
def Fmt.minMax (f : Fmt) (lo : Bool) (a b : Nat) : FRes :=
  let x := f.value a
  let y := f.value b
  let nv := flagNv (x.isSig || y.isSig)
  match x.isNan, y.isNan with
  | true, true => ⟨f.nanBits, nv, false⟩
  | true, false => ⟨b, nv, false⟩
  | false, true => ⟨a, nv, false⟩
  | false, false =>
    let aLess : Bool := match x.cmp y with
      | some .lt => true
      | some .eq => x.negSign
      | _ => false
    .plain (if aLess == lo then a else b)

/-- Rounding to an integer (R63): the integer and whether it was inexact. -/
def toIntegral (rm : Rounding) (neg : Bool) (m : Nat) (e : Int) : Int × Bool :=
  let (r, nx) := roundUnits rm neg m e 0
  (if neg then -(r : Int) else r, nx)

/-- The least and greatest value of an integer tag (R54). -/
def intRange (t : Tag) : Int × Int :=
  if tagSigned t then (-(2 ^ (tagBits t - 1)), 2 ^ (tagBits t - 1) - 1) else (0, 2 ^ tagBits t - 1)

/-- Floating to integer (R63). -/
def floatToInt (t : Tag) (rm : Rounding) (sat : Bool) (v : FVal) : FRes :=
  let (lo, hi) := intRange t
  let w := tagBits t
  let clamp (i : Int) (q : Bool) : FRes := ⟨ofInt w i, flagNv (!sat || q), sat⟩
  match v with
  | .nan q => clamp 0 q
  | .inf s => clamp (if s then lo else hi) false
  | .fin s m e =>
    let (i, nx) := toIntegral rm s m e
    if i < lo then clamp lo false
    else if hi < i then clamp hi false
    else ⟨ofInt w i, { nx := nx }, false⟩

/-- Integer to floating (R63). -/
def Fmt.ofInteger (f : Fmt) (rm : Rounding) (sat : Bool) (i : Int) : FRes :=
  f.finResult rm sat (decide (i < 0)) i.natAbs 0

/-- Floating to floating (R62). -/
def Fmt.convert (f : Fmt) (rm : Rounding) (sat : Bool) (v : FVal) : FRes :=
  match v with
  | .nan q => f.nanResult q
  | .inf s =>
    match f.kind with
    | .ieee => .plain (f.infBits s)
    | .e4m3 => if sat then ⟨f.maxBits s, noFlags, true⟩ else ⟨f.nanBits, flagNv true, false⟩
    | .fp4 => if sat then ⟨f.maxBits s, noFlags, true⟩ else ⟨f.maxBits s, flagNv true, false⟩
  | .fin s m e => f.finResult rm sat s m e

/-- The integer a pattern of an integer tag holds (R54). -/
def intValue (t : Tag) (bits : Nat) : Int :=
  if tagSigned t then toSigned (tagBits t) bits else ((bits % 2 ^ tagBits t : Nat) : Int)

/-- Integer to integer (R63). -/
def intToInt (t : Tag) (sat : Bool) (i : Int) : FRes :=
  let (lo, hi) := intRange t
  if sat then
    if i < lo then ⟨ofInt (tagBits t) lo, noFlags, true⟩
    else if hi < i then ⟨ofInt (tagBits t) hi, noFlags, true⟩
    else .plain (ofInt (tagBits t) i)
  else .plain (ofInt (tagBits t) i)

/-- Conversion of a pattern between any two tags (R62, R63); none where a tag has no values. SAT clamps to a narrower integer or
to one of the same width; a wider one extends. -/
def convertTag (src dst : Tag) (rm : Rounding) (sat : Bool) (bits : Nat) : Option FRes :=
  match tagFmt src, tagFmt dst with
  | some f, some g => some (g.convert rm sat (f.value bits))
  | some f, none => if tagInt dst then some (floatToInt dst rm sat (f.value bits)) else none
  | none, some g => if tagInt src then some (g.ofInteger rm sat (intValue src bits)) else none
  | none, none => if tagInt src && tagInt dst then some (intToInt dst (sat && decide (tagBits dst ≤ tagBits src)) (intValue src bits)) else none

end Sys2Proof.Machine
end

