-- ==== Sys2Proof/Machine/Operands.lean ====
section
/-! DEFINITION. Vector operands: register groups and their elements (02 R35 to R38), masks, the checks before the first
element (08 R164, 09 R181), bound streams as sources (08 R176, R177), and the writing of results (09 R180). -/

namespace Sys2Proof.Machine

/-! ### Groups -/

/-- A register group as an operand: its lowest register, its number of registers, the width of its elements in bits. -/
structure Grp where
  base : Nat
  n    : Nat
  bits : Nat
deriving DecidableEq, Repr

/-- Bits of one vector register: 1 KiB × G (R34, with Ge). -/
def Hart.slice (h : Hart) : Nat := 8192 * h.ge
/-- MLEN (R38, R44). -/
def Hart.mlen (h : Hart) : Nat := 1024 * h.ge
/-- FCAP (R44). -/
def Hart.fcap (h : Hart) : Nat := 128 * h.ge

/-- The registers that an operand of elements of `b` bits takes: g × wt ÷ w, one register where that is below 1 (R179). -/
def Vcfg.regs (v : Vcfg) (b : Nat) : Nat :=
  if 2 ^ v.lgrp * b < tagBits v.tag then 1 else 2 ^ v.lgrp * b / tagBits v.tag

/-- The group of a register for elements of `b` bits. DEDUCED, log 36. -/
def State.grp (s : State) (r : VNum) (b : Nat) : Grp := ⟨r.val, s.hart.vcfg.regs b, b⟩

/-- The base is a multiple of the group size (R35); a group above 8 registers has its own fault. -/
def Grp.aligned (g : Grp) : Bool := decide (8 < g.n) || g.base % g.n == 0
/-- At most 8 registers. -/
def Grp.fits (g : Grp) : Bool := decide (g.n ≤ 8)
/-- A register of the group. -/
def Grp.has (g : Grp) (r : Nat) : Bool := decide (g.base ≤ r) && decide (r < g.base + g.n)
/-- Two groups share a register. -/
def Grp.overlaps (g k : Grp) : Bool := decide (g.base < k.base + k.n) && decide (k.base < g.base + g.n)

/-- The tag of a register (R36). -/
def State.vtagOf (s : State) (r : VNum) : Tag := s.hart.v[r.val].tag

/-- The storage of n registers from `base`, the lowest register lowest. -/
def State.storage (s : State) (base : Nat) : Nat → Nat
  | 0 => 0
  | n + 1 => (s.hart.v[base % 32]?.getD {}).bits % 2 ^ s.hart.slice + s.storage (base + 1) n <<< s.hart.slice

/-- The storage of a group. -/
def State.bitsOf (s : State) (g : Grp) : Nat := s.storage g.base g.n

/-- Element i of elements of `b` bits. -/
def elemAt (v b i : Nat) : Nat := bitsAt v (i * b) b

/-- Elements replaced in a storage. -/
def putElems (v b : Nat) (l : List (Nat × Nat)) : Nat := l.foldl (fun v (i, x) => setBitsAt v (i * b) b x) v

/-- Whether a list of writes covers all of register j of a group (R356). -/
def coversReg (l : List (Nat × Nat)) (per j : Nat) : Bool :=
  decide (per ≤ (l.filter fun e => decide (j * per ≤ e.1) && decide (e.1 < (j + 1) * per)).length)

/-- Elements of a group written; the tag goes into every register of it when one is given (R36). -/
def State.writeGroup (s : State) (g : Grp) (t : Option Tag) (l : List (Nat × Nat)) : State :=
  let h := s.hart
  let v := putElems (s.bitsOf g) g.bits l
  let reg (r : Fin 32) : VReg :=
    let o := h.v[r]
    if g.has r then
      { bits := bitsAt v ((r - g.base) * h.slice) h.slice, tag := t.getD o.tag, owed := 0,
        poison := o.poison && !coversReg l (h.slice / g.bits) (r - g.base) }
    else o
  { s with hart := { h with v := Vector.ofFn reg } }

/-- The tag of every register of a group set. -/
def State.tagGroup (s : State) (g : Grp) (t : Tag) : State := s.writeGroup g (some t) []

/-! ### Masks -/

/-- Bit i of a mask. -/
def State.mbit (s : State) (m : MNum) (i : Nat) : Bool := bitAt s.hart.m[m.val].bits i

/-- An element is active under a governing mask: mk = 0 means unmasked (R116, R162). -/
def State.active (s : State) (mk : MNum) (i : Nat) : Bool := mk.val == 0 || s.mbit mk i

/-- Bits of a mask written. -/
def State.writeMask (s : State) (d : MNum) (l : List (Nat × Bool)) : State :=
  let o := s.hart.m[d.val]
  let b := l.foldl (fun b (i, x) => setBitAt b i x) o.bits
  { s with hart := { s.hart with m := s.hart.m.set d.val { bits := b, poison := o.poison && decide (l.length < s.hart.mlen) } } }

/-- Elements VSI to n − 1. -/
def State.range (s : State) (n : Nat) : List Nat := (List.range (n - s.hart.vsi)).map (· + s.hart.vsi)

/-- The active elements from VSI to n − 1, ascending (R162, R180). -/
def State.actives (s : State) (mk : MNum) (n : Nat) : List Nat := (s.range n).filter (s.active mk)

/-! ### Bound streams -/

/-- The group of a binding. -/
def Stream.grp (b : Stream) : Grp := ⟨b.group, 2 ^ b.lgrp, tagBits b.tag⟩

/-- The streams whose groups a list of groups touches. -/
def State.boundBy (s : State) (gs : List Grp) : List SNum :=
  (List.finRange 8).filter fun k => let b := s.hart.streams[k.val]; b.bound && gs.any b.grp.overlaps

/-- The trap of a write to a bound group (R177, R346). -/
def State.boundWrite (s : State) (k : SNum) : Trap :=
  ⟨0x09, 0, s.info (s.hart.streams[k.val].group * 2 ^ 33 + k.val * 2 ^ 38)⟩

/-- The address of element i of a binding's next strip (R176). -/
def Stream.addr (b : Stream) (i : Nat) : Word := b.base + (b.pos + BitVec.ofNat 64 i) * b.stride

/-- Reading `n` elements of a binding from its position. -/
def State.streamRead (s : State) (b : Stream) : Nat → Except Reject (List Nat × State)
  | 0 => .ok ([], s)
  | n + 1 => do
    let (l, s) ← s.streamRead b n
    let w := tagBits b.tag / 8
    let a := (b.addr n).toNat
    let k ← s.locate .load a w w true
    let (v, s') ← s.readAt .cached k a w
    .ok (l ++ [s'.laid k a w v], s')

/-- The trap of a delivery that fails (R177, R347). -/
def State.streamTrap (s : State) (k : SNum) (r : Reject) : Trap :=
  ⟨r.cause, BitVec.ofNat 64 r.addr, (s.trapOf r).finfo + BitVec.ofNat 64 (2 ^ 37 + k.val * 2 ^ 38)⟩

/-- A use (R176): VL elements are delivered into the group, a prefetched strip first. A failing element is the consumer's
trap (R177). -/
def State.deliverOne (s : State) (k : SNum) : Run State :=
  let b := s.hart.streams[k.val]
  let put (s : State) (l : List Nat) : State := s.writeGroup b.grp none (l.zipIdx.map fun (x, i) => (i, x))
  match b.strips.head?.filter fun st => st.vals.length == s.hart.vl with
  | some st => .ok (put s st.vals)
  | none =>
    match s.streamRead b s.hart.vl with
    | .ok (l, s) => .ok (put s l)
    | .error r => .error (s.streamTrap k r, s)

/-- All uses of an instruction, each stream once, the lowest first: where two fail, the lowest stream's failure is the trap
(DESIGN CHOICE, log 34; R177 says nothing). -/
def State.deliver (s : State) : List SNum → Run State
  | [] => .ok s
  | k :: ks => do
    let s ← s.deliverOne k
    s.deliver ks

/-- The consumer completes: the positions move on (R176). -/
def State.advance (s : State) (ks : List SNum) : State :=
  let next (i : Fin 8) : Stream :=
    let b := s.hart.streams[i]
    if ks.contains i then
      { b with pos := b.pos + BitVec.ofNat 64 s.hart.vl,
               strips := match b.strips with
                 | st :: rest => if st.vals.length = s.hart.vl then rest else []
                 | [] => [] }
    else b
  { s with hart := { s.hart with streams := Vector.ofFn next } }

/-! ### The checks before the first element -/

/-- VCFG.TAG none is a tag-fault before everything else (R383). -/
def State.needRef (s : State) : Run Unit := s.require (s.hart.vcfg.tag != .none) (s.tagFault 2)

/-- VCFG.TAG sc8 on an instruction that R57 does not list. -/
def State.noScale (s : State) : Bool × Nat := (s.hart.vcfg.tag == .sc8, 2)

/-- The lowest reason of the conditions that hold (R348). DEDUCED, log 34. -/
def lowestReason (l : List (Bool × Nat)) : Option Nat := ((l.filter (·.1)).map (·.2)).min?

/-- The trap of a reader of poisoned register storage (R356). -/
def State.registerBad (s : State) : Trap := ⟨0x12, 0, s.info (6 * 2 ^ 41)⟩

/-- A read of these groups and masks meets poisoned storage. -/
def State.readsBad (s : State) (srcs : List Grp) (masks : List MNum) : Bool :=
  ((List.range 32).any fun r => (s.hart.v[r]?.getD {}).poison && srcs.any fun g => g.has r) ||
    masks.any fun m => s.hart.m[m.val].poison

/-- The order of R164 and R181: bases, tag-faults with the lowest reason, bound destinations, delivery of bound sources;
then poisoned storage. Where a destination meets several bound groups, the lowest stream's is named (DESIGN CHOICE, log 34). `len` is the number of elements that a mask, read or written, must hold. DEDUCED, log 34. DEDUCED, log 36. -/
def State.prepare (s : State) (srcs dsts : List Grp) (masks : List MNum) (usesMask : Bool) (len : Nat)
    (faults : List (Bool × Nat)) : Run State := do
  s.require ((srcs ++ dsts).all Grp.aligned) (s.tagFault 1)
  let used := s.boundBy srcs
  let more := [((srcs ++ dsts).any fun g => !g.fits, 5), (usesMask && decide (s.hart.mlen < len), 5),
    (used.any fun k => let b := s.hart.streams[k.val]; decide (2 ^ b.lgrp * s.hart.slice < s.hart.vl * tagBits b.tag), 5)]
  match lowestReason (faults ++ more) with
  | some r => s.trap (s.tagFault r)
  | none => .ok ()
  match s.boundBy dsts with
  | k :: _ => s.trap (s.boundWrite k)
  | [] => .ok ()
  let s ← s.deliver used
  s.require (!s.readsBad srcs masks) s.registerBad
  .ok s

/-- An instruction that operated under VL completes: its streams move on, VSI is 0 (R12, R176, R180). DEDUCED, log 2. -/
def State.vdone (s : State) (srcs : List Grp) : State := ((s.advance (s.boundBy srcs)).setVsi 0).retire

/-- A governing mask as a list of masks read. -/
def masksOf (mk : MNum) : List MNum := if mk.val = 0 then [] else [mk]

/-- A typed source that no entry accepts: none or sc8 (R36, R57). -/
def untyped (t : Tag) : Bool := t == .none || t == .sc8

/-- Two widths differ by more than four times (R66). -/
def tooWide (a b : Nat) : Bool := decide (4 * a < b) || decide (4 * b < a)

/-! ### Divided instructions -/

/-- The active elements that a divisible instruction performs in this turn, and the first one that it leaves (R19,
DESIGN CHOICE, log 61). -/
def State.share (s : State) (acts : List Nat) : List Nat × Option Nat :=
  match s.hart.limit with
  | none => (acts, none)
  | some n => (acts.take n, acts[n]?)

/-! ### The element loop -/

/-- The results of some elements, with their flags and SAT ORed (R67). -/
def runElems (f : Nat → FRes) : List Nat → List (Nat × Nat) × Flags × Bool
  | [] => ([], noFlags, false)
  | i :: is =>
    let r := f i
    let (l, fl, sat) := runElems f is
    ((i, r.bits) :: l, orFlags r.flags fl, r.sat || sat)

/-- The element loop of R180: with VSI at VL or above nothing is written and no tag changes. -/
def State.elementwise (s : State) (dst : Grp) (t : Tag) (acts : List Nat) (f : Nat → FRes) : State :=
  if s.hart.vl ≤ s.hart.vsi then s
  else
    let (l, fl, sat) := runElems f acts
    (s.writeGroup dst (some t) l).raise fl sat

/-- An element read in its own tag and converted to a result tag (R66). -/
def convElem (src dst : Tag) (rm : Rounding) (bits : Nat) : FRes :=
  if src = dst then .plain bits else (convertTag src dst rm false bits).getD (.plain 0)

/-- `reg_gather` (R173): position j of elements that a function gives below VLMAX, zero above. -/
def regGather (vlmax : Nat) (read : Nat → Nat) (j : Nat) : Nat := if j < vlmax then read j else 0

end Sys2Proof.Machine
end

