-- ==== Sys2Proof/Machine/ScalarFp.lean ====
section
/-! DEFINITION. Scalar floating point, major 0x0D (07 R153 to R155, 03 R58 to R63). -/

namespace Sys2Proof.Machine

/-- The rounding mode of an instruction (R61): its static mode, or FCSR.RM, whose codes 5 to 7 are an illegal encoding. -/
def State.mode (s : State) (rm : Option Rounding) : Run Rounding :=
  match rm with
  | some r => .ok r
  | none => match roundingOf s.hart.fcsr.rm with
    | some r => .ok r
    | none => .error (s.illegal, s)

/-- An instruction that writes an x register with a floating-point result: an fp32 result clears bits [63:32] (R154). -/
def fpX (d : XReg) (rm : Option Rounding) (k : Rounding → FRes) (s : State) : Host.Outcome State Fault Refusal :=
  finish do
    let r ← s.mode rm
    let v := k r
    .ok ((s.setX d (BitVec.ofNat 64 v.bits)).raise v.flags v.sat).retire

/-- A compare: its condition bit and whether NV is raised. -/
def fpC (d : CBit) (rm : Option Rounding) (v nv : Bool) (s : State) : Host.Outcome State Fault Refusal :=
  finish do
    let _ ← s.mode rm
    .ok ((s.setC d v).raise (flagNv nv) false).retire

/-- An fp32 operand: bits [31:0] of its register (R154). -/
def State.s32 (s : State) (r : XReg) : FVal := fmt32.value ((s.x r).toNat % 2 ^ 32)
/-- An fp64 operand. -/
def State.d64 (s : State) (r : XReg) : FVal := fmt64.value (s.x r).toNat

/-- `fadd.s` (R153). -/
def execFaddS (d a b : XReg) (rm : Option Rounding) (s : State) : Host.Outcome State Fault Refusal :=
  fpX d rm (fun r => fmt32.add r false (s.s32 a) (s.s32 b)) s

/-- `fsub.s` (R153). -/
def execFsubS (d a b : XReg) (rm : Option Rounding) (s : State) : Host.Outcome State Fault Refusal :=
  fpX d rm (fun r => fmt32.add r false (s.s32 a) (s.s32 b).neg) s

/-- `fmul.s` (R153). -/
def execFmulS (d a b : XReg) (rm : Option Rounding) (s : State) : Host.Outcome State Fault Refusal :=
  fpX d rm (fun r => fmt32.mul r false (s.s32 a) (s.s32 b)) s

/-- `fdiv.s` (R153). -/
def execFdivS (d a b : XReg) (rm : Option Rounding) (s : State) : Host.Outcome State Fault Refusal :=
  fpX d rm (fun r => fmt32.div r false (s.s32 a) (s.s32 b)) s

/-- `fsqrt.s` (R153, R155). -/
def execFsqrtS (d a : XReg) (rm : Option Rounding) (s : State) : Host.Outcome State Fault Refusal :=
  fpX d rm (fun r => fmt32.sqrt r (s.s32 a)) s

/-- `fmin.s` (R155). -/
def execFminS (d a b : XReg) (rm : Option Rounding) (s : State) : Host.Outcome State Fault Refusal :=
  fpX d rm (fun _ => fmt32.minMax true ((s.x a).toNat % 2 ^ 32) ((s.x b).toNat % 2 ^ 32)) s

/-- `fmax.s` (R155). -/
def execFmaxS (d a b : XReg) (rm : Option Rounding) (s : State) : Host.Outcome State Fault Refusal :=
  fpX d rm (fun _ => fmt32.minMax false ((s.x a).toNat % 2 ^ 32) ((s.x b).toNat % 2 ^ 32)) s

/-- `fmac.s` (R153, R155). -/
def execFmacS (d a b : XReg) (rm : Option Rounding) (s : State) : Host.Outcome State Fault Refusal :=
  fpX d rm (fun r => fmt32.fma r false (s.s32 a) (s.s32 b) (s.s32 d)) s

/-- `fcmp.eq.s` (R153, R155). -/
def execFcmpEqS (c : CBit) (a b : XReg) (rm : Option Rounding) (s : State) : Host.Outcome State Fault Refusal :=
  fpC c rm ((s.s32 a).cmp (s.s32 b) == some .eq) ((s.s32 a).isSig || (s.s32 b).isSig) s

/-- `fcmp.lt.s` (R153, R155). -/
def execFcmpLtS (c : CBit) (a b : XReg) (rm : Option Rounding) (s : State) : Host.Outcome State Fault Refusal :=
  fpC c rm ((s.s32 a).cmp (s.s32 b) == some .lt) ((s.s32 a).isNan || (s.s32 b).isNan) s

/-- `fcmp.le.s` (R153, R155). -/
def execFcmpLeS (c : CBit) (a b : XReg) (rm : Option Rounding) (s : State) : Host.Outcome State Fault Refusal :=
  fpC c rm ((s.s32 a).cmp (s.s32 b) == some .lt || (s.s32 a).cmp (s.s32 b) == some .eq) ((s.s32 a).isNan || (s.s32 b).isNan) s

/-- `fcvt.l.s` (R153, R63). -/
def execFcvtLS (d a : XReg) (rm : Option Rounding) (sat : Bool) (s : State) : Host.Outcome State Fault Refusal :=
  fpX d rm (fun r => floatToInt .i64 r sat (s.s32 a)) s

/-- `fcvt.lu.s` (R153, R63). -/
def execFcvtLuS (d a : XReg) (rm : Option Rounding) (sat : Bool) (s : State) : Host.Outcome State Fault Refusal :=
  fpX d rm (fun r => floatToInt .ui64 r sat (s.s32 a)) s

/-- `fcvt.s.l` (R153, R63). -/
def execFcvtSL (d a : XReg) (rm : Option Rounding) (s : State) : Host.Outcome State Fault Refusal :=
  fpX d rm (fun r => fmt32.ofInteger r false (s.x a).toInt) s

/-- `fcvt.s.lu` (R153, R63). -/
def execFcvtSLu (d a : XReg) (rm : Option Rounding) (s : State) : Host.Outcome State Fault Refusal :=
  fpX d rm (fun r => fmt32.ofInteger r false (s.x a).toNat) s

/-- `fadd.d` (R153). -/
def execFaddD (d a b : XReg) (rm : Option Rounding) (s : State) : Host.Outcome State Fault Refusal :=
  fpX d rm (fun r => fmt64.add r false (s.d64 a) (s.d64 b)) s

/-- `fsub.d` (R153). -/
def execFsubD (d a b : XReg) (rm : Option Rounding) (s : State) : Host.Outcome State Fault Refusal :=
  fpX d rm (fun r => fmt64.add r false (s.d64 a) (s.d64 b).neg) s

/-- `fmul.d` (R153). -/
def execFmulD (d a b : XReg) (rm : Option Rounding) (s : State) : Host.Outcome State Fault Refusal :=
  fpX d rm (fun r => fmt64.mul r false (s.d64 a) (s.d64 b)) s

/-- `fdiv.d` (R153). -/
def execFdivD (d a b : XReg) (rm : Option Rounding) (s : State) : Host.Outcome State Fault Refusal :=
  fpX d rm (fun r => fmt64.div r false (s.d64 a) (s.d64 b)) s

/-- `fsqrt.d` (R153, R155). -/
def execFsqrtD (d a : XReg) (rm : Option Rounding) (s : State) : Host.Outcome State Fault Refusal :=
  fpX d rm (fun r => fmt64.sqrt r (s.d64 a)) s

/-- `fmin.d` (R155). -/
def execFminD (d a b : XReg) (rm : Option Rounding) (s : State) : Host.Outcome State Fault Refusal :=
  fpX d rm (fun _ => fmt64.minMax true (s.x a).toNat (s.x b).toNat) s

/-- `fmax.d` (R155). -/
def execFmaxD (d a b : XReg) (rm : Option Rounding) (s : State) : Host.Outcome State Fault Refusal :=
  fpX d rm (fun _ => fmt64.minMax false (s.x a).toNat (s.x b).toNat) s

/-- `fmac.d` (R153, R155). -/
def execFmacD (d a b : XReg) (rm : Option Rounding) (s : State) : Host.Outcome State Fault Refusal :=
  fpX d rm (fun r => fmt64.fma r false (s.d64 a) (s.d64 b) (s.d64 d)) s

/-- `fcmp.eq.d` (R153, R155). -/
def execFcmpEqD (c : CBit) (a b : XReg) (rm : Option Rounding) (s : State) : Host.Outcome State Fault Refusal :=
  fpC c rm ((s.d64 a).cmp (s.d64 b) == some .eq) ((s.d64 a).isSig || (s.d64 b).isSig) s

/-- `fcmp.lt.d` (R153, R155). -/
def execFcmpLtD (c : CBit) (a b : XReg) (rm : Option Rounding) (s : State) : Host.Outcome State Fault Refusal :=
  fpC c rm ((s.d64 a).cmp (s.d64 b) == some .lt) ((s.d64 a).isNan || (s.d64 b).isNan) s

/-- `fcmp.le.d` (R153, R155). -/
def execFcmpLeD (c : CBit) (a b : XReg) (rm : Option Rounding) (s : State) : Host.Outcome State Fault Refusal :=
  fpC c rm ((s.d64 a).cmp (s.d64 b) == some .lt || (s.d64 a).cmp (s.d64 b) == some .eq) ((s.d64 a).isNan || (s.d64 b).isNan) s

/-- `fcvt.l.d` (R153, R63). -/
def execFcvtLD (d a : XReg) (rm : Option Rounding) (sat : Bool) (s : State) : Host.Outcome State Fault Refusal :=
  fpX d rm (fun r => floatToInt .i64 r sat (s.d64 a)) s

/-- `fcvt.lu.d` (R153, R63). -/
def execFcvtLuD (d a : XReg) (rm : Option Rounding) (sat : Bool) (s : State) : Host.Outcome State Fault Refusal :=
  fpX d rm (fun r => floatToInt .ui64 r sat (s.d64 a)) s

/-- `fcvt.d.l` (R153, R63). -/
def execFcvtDL (d a : XReg) (rm : Option Rounding) (s : State) : Host.Outcome State Fault Refusal :=
  fpX d rm (fun r => fmt64.ofInteger r false (s.x a).toInt) s

/-- `fcvt.d.lu` (R153, R63). -/
def execFcvtDLu (d a : XReg) (rm : Option Rounding) (s : State) : Host.Outcome State Fault Refusal :=
  fpX d rm (fun r => fmt64.ofInteger r false (s.x a).toNat) s

/-- `fcvt.s.d` (R153, R62). -/
def execFcvtSD (d a : XReg) (rm : Option Rounding) (sat : Bool) (s : State) : Host.Outcome State Fault Refusal :=
  fpX d rm (fun r => fmt32.convert r sat (s.d64 a)) s

/-- `fcvt.d.s` (R153): exact. -/
def execFcvtDS (d a : XReg) (rm : Option Rounding) (s : State) : Host.Outcome State Fault Refusal :=
  fpX d rm (fun r => fmt64.convert r false (s.s32 a)) s

end Sys2Proof.Machine
end

