-- ==== Sys2Proof/Machine/SpecialFn.lean ====
section
/-! DEFINITION. The special functions of 09 R194: `vexp2`, `vlog2`, `vrcp`, `vrsqrt`. An irrational result is enclosed to
256 bits below its leading bit; bf16 and fp16 round it correctly, fp32 and fp64 take one of its two neighbours, which one
being a free value (DESIGN CHOICE, log 6). -/

namespace Sys2Proof.Machine

/-- The four functions. -/
inductive SpecFn where
  | exp2 | log2 | rcp | rsqrt
deriving DecidableEq, Repr

/-- A code for the free value's argument. -/
def SpecFn.code : SpecFn → Nat
  | .exp2 => 0 | .log2 => 1 | .rcp => 2 | .rsqrt => 3

/-- The exact value of a function at a finite nonzero or otherwise ordinary point. -/
inductive Exact where
  /-- (−1)^neg × m × 2^e exactly. -/
  | exact (neg : Bool) (m : Nat) (e : Int)
  /-- A value strictly between (−1)^neg × m × 2^e and the next multiple of 2^e away from zero. -/
  | between (neg : Bool) (m : Nat) (e : Int)
deriving DecidableEq, Repr

/-- ln 2 × 2^256, rounded down. -/
def ln2Fixed : Nat := 80260960185991308862233904206310070533990667611589946606122867505419956976171

/-- Terms t × y^k ÷ k! of the exponential series in units of 2^−256, from term n on. -/
def expSeries (y : Nat) : Nat → Nat → Nat → Nat
  | 0, _, _ => 0
  | fuel + 1, n, t => t + expSeries y fuel (n + 1) (t * y / 2 ^ 256 / (n + 1))

/-- 2^f × 2^256 for a fraction f × 2^256, from below. -/
def exp2Fixed (f : Nat) : Nat := expSeries (f * ln2Fixed / 2 ^ 256) 70 0 (2 ^ 256)

/-- Terms z^(2k+1) ÷ (2k+1) of the inverse hyperbolic tangent in units of 2^−288. -/
def atanhSeries (zz : Nat) : Nat → Nat → Nat → Nat
  | 0, _, _ => 0
  | fuel + 1, k, t => t / (2 * k + 1) + atanhSeries zz fuel (k + 1) (t * zz / 2 ^ 288)

/-- log2 of 1 + r ÷ 2^k, in units of 2^−256, from below. -/
def log2Fixed (r k : Nat) : Nat :=
  let z := (r <<< 288) / (2 ^ (k + 1) + r)
  (2 * atanhSeries (z * z / 2 ^ 288) 100 0 z) * 2 ^ 224 / ln2Fixed

/-- 2^x for x = (−1)^neg × m × 2^e. Far outside every format's range the exponent is held at ±5000. -/
def exp2Exact (neg : Bool) (m : Nat) (e : Int) : Exact :=
  if m = 0 then .exact false 1 0
  else if 14 < m.log2 + e then .exact false 1 (if neg then -5000 else 5000)
  else if 0 ≤ e then .exact false 1 (scaledInt neg m e 0)
  else
    let d := (-e).toNat
    let i : Int := if neg then -((m >>> d : Nat) : Int) else (m >>> d : Nat)
    let r := m % 2 ^ d
    if r = 0 then .exact false 1 i
    else
      -- neg: 2^x = 2^(i − 1) × 2^(1 − r/2^d)
      let f := if neg then ((2 ^ d - r) <<< 256) >>> d else (r <<< 256) >>> d
      .between false (exp2Fixed f) ((if neg then i - 1 else i) - 256)

/-- log2 x for x = m × 2^e, m nonzero. -/
def log2Exact (m : Nat) (e : Int) : Exact :=
  let k := m.log2
  let n : Int := k + e
  let r := m - 2 ^ k
  if r = 0 then .exact (decide (n < 0)) n.natAbs 0
  else
    let v : Int := n * 2 ^ 256 + (log2Fixed r k : Nat)
    if 0 ≤ v then .between false v.natAbs (-256) else .between true (v.natAbs - 1) (-256)

/-- 1 ÷ x for x = (−1)^neg × m × 2^e, m nonzero. -/
def rcpExact (neg : Bool) (m : Nat) (e : Int) : Exact :=
  let k := 256 + m.log2
  let q := 2 ^ k / m
  if q * m = 2 ^ k then .exact neg q (-e - k) else .between neg q (-e - k)

/-- 1 ÷ √x for x = m × 2^e, m nonzero. -/
def rsqrtExact (m : Nat) (e : Int) : Exact :=
  let m := if e % 2 = 0 then m else 2 * m
  let e := if e % 2 = 0 then e else e - 1
  let k := 2 * (256 + m.log2)
  let q := 2 ^ k / m
  let r := isqrt q
  if q * m = 2 ^ k ∧ r * r = q then .exact false r (-(e / 2) - (k / 2 : Nat)) else .between false r (-(e / 2) - (k / 2 : Nat))

/-- An exact value rounded by a mode: one sticky bit stands for what lies beyond the enclosure. -/
def Fmt.roundExact (f : Fmt) (rm : Rounding) : Exact → FRes
  | .exact neg m e => f.finResult rm false neg m e
  | .between neg m e => f.round rm false neg (2 * m + 1) (e - 1)

/-- fp32 and fp64: the exact value when it is representable, else the neighbour that the free value names; NX when they
differ, UF when the exact value is tiny (R194). -/
def Fmt.neighbour (f : Fmt) (upper : Bool) (x : Exact) : FRes :=
  let lo := f.roundExact .rdn x
  let r := if lo.flags.nx then (if upper then f.roundExact .rup x else lo) else lo
  ⟨r.bits, { of := r.flags.of, uf := (f.roundExact .rne x).flags.uf, nx := lo.flags.nx }, false⟩

/-- The special inputs, and the exact value elsewhere. -/
def specExact (f : Fmt) (k : SpecFn) (x : FVal) : FRes ⊕ Exact :=
  match k, x with
  | _, .nan q => .inl (f.nanResult q)
  | .exp2, .inf s => .inl (.plain (if s then f.zeroBits false else f.infBits false))
  | .exp2, .fin s m e => .inr (exp2Exact s m e)
  | .log2, .inf s => .inl (if s then f.nanResult true else .plain (f.infBits false))
  | .log2, .fin s m e =>
    if m = 0 then .inl ⟨f.infBits true, { dz := true }, false⟩
    else if s then .inl (f.nanResult true) else .inr (log2Exact m e)
  | .rcp, .inf s => .inl (.plain (f.zeroBits s))
  | .rcp, .fin s m e => if m = 0 then .inl ⟨f.infBits s, { dz := true }, false⟩ else .inr (rcpExact s m e)
  | .rsqrt, .inf s => .inl (if s then f.nanResult true else .plain (f.zeroBits false))
  | .rsqrt, .fin s m e =>
    if m = 0 then .inl ⟨f.infBits s, { dz := true }, false⟩
    else if s then .inl (f.nanResult true) else .inr (rsqrtExact m e)

/-- The results that R194's table fixes for fp32 and fp64 whatever the mode: overflow to infinity, and `vexp2` far below
the subnormals to +0. -/
def rangeResult (f : Fmt) (k : SpecFn) (x : Exact) : Option FRes :=
  let v := f.roundExact .rtz x
  match k with
  | .exp2 =>
    let far : Bool := match x with
      | .exact _ m e => decide (m.log2 + e < f.emin - f.mbits - 1)
      | .between _ m e => decide (m.log2 + e < f.emin - f.mbits - 1)
    if v.flags.of then some ⟨f.infBits false, { of := true, nx := true }, false⟩
    else if far then some ⟨f.zeroBits false, { uf := true, nx := true }, false⟩
    else none
  | .rcp =>
    let neg : Bool := match x with | .exact s _ _ => s | .between s _ _ => s
    if (f.roundExact (if neg then .rdn else .rup) x).flags.of then some ⟨f.infBits neg, { of := true, nx := true }, false⟩ else none
  | _ => none

/-- A special function of a pattern of a floating tag (R194). -/
def specialFn (t : Tag) (f : Fmt) (rm : Rounding) (k : SpecFn) (bits : Nat) : FRes :=
  match specExact f k (f.value bits) with
  | .inl r => r
  | .inr x =>
    if t = .fp32 ∨ t = .fp64 then
      match rangeResult f k x with
      | some r => r
      | none => f.neighbour (Config.upperNeighbour k.code t.code bits) x
    else f.roundExact rm x

end Sys2Proof.Machine
end

