-- ==== Sys2Proof/Machine/VectorArith.lean ====
section
/-! DEFINITION. Vector arithmetic, compares, conversions, unary operations and bit streams, majors 0x30 to 0x33, 0x38 to
0x3A (09 R179 to R186, R192 to R195, 03 R54, R64 to R67). -/

namespace Sys2Proof.Machine

/-! ### Operations on elements of one tag -/

/-- The operations of R184. -/
inductive ArithOp where
  | add | sub | mul | div | rem | min | max | and | or | xor | sll | srl | sra | mulh
deriving DecidableEq, Repr

/-- The operations that a floating tag has (R184). -/
def ArithOp.floats : ArithOp → Bool
  | .add => true | .sub => true | .mul => true | .div => true | .min => true | .max => true | _ => false

/-- The signed or unsigned quotient with its corner cases (R150, R184). -/
def intDiv (t : Tag) (a b : Int) : Int :=
  let (lo, hi) := intRange t
  if b = 0 then (if a < 0 then lo else hi)
  else if a = lo ∧ b = -1 then hi
  else quotTowardZero a b

/-- The remainder (R150, R184). -/
def intRem (a b : Int) : Int := if b = 0 then a else Int.tmod a b

/-- One operation at an integer tag on patterns (R54, R184). -/
def intOp (k : ArithOp) (t : Tag) (sat : Bool) (x y : Nat) : FRes :=
  let w := tagBits t
  let a := intValue t x
  let b := intValue t y
  match k with
  | .add => intToInt t sat (a + b)
  | .sub => intToInt t sat (a - b)
  | .mul => intToInt t sat (a * b)
  | .div => .plain (ofInt w (intDiv t a b))
  | .rem => .plain (ofInt w (intRem a b))
  | .min => .plain (if a ≤ b then x else y)
  | .max => .plain (if a ≤ b then y else x)
  | .and => .plain (x &&& y)
  | .or => .plain (x ||| y)
  | .xor => .plain (x ^^^ y)
  | .sll => .plain ((x <<< (y % w)) % 2 ^ w)
  | .srl => .plain (x >>> (y % w))
  | .sra => .plain (ofInt w (toSigned w x / 2 ^ (y % w)))
  | .mulh => .plain (ofInt w (a * b / 2 ^ w))

/-- One operation at a floating tag on patterns (R59, R155); SAT has no effect on it (R182). -/
def floatOp (k : ArithOp) (f : Fmt) (rm : Rounding) (x y : Nat) : FRes :=
  let a := f.value x
  let b := f.value y
  match k with
  | .add => f.add rm false a b
  | .sub => f.add rm false a b.neg
  | .mul => f.mul rm false a b
  | .div => f.div rm false a b
  | .min => f.minMax true x y
  | .max => f.minMax false x y
  | _ => .plain 0

/-- One operation at a tag. -/
def arithOp (k : ArithOp) (t : Tag) (rm : Rounding) (sat : Bool) (x y : Nat) : FRes :=
  match tagFmt t with
  | some f => floatOp k f rm x y
  | none => intOp k t sat x y

/-- The flags of operands' conversions joined to a result's (R66). -/
def FRes.joined (r : FRes) (a b : FRes) : FRes := ⟨r.bits, orFlags r.flags (orFlags a.flags b.flags), r.sat⟩

/-- An operation on two elements of their own tags, converted to the result tag first (R66). DEDUCED, log 54. -/
def mixedOp (ta tb t : Tag) (rm : Rounding) (op : Nat → Nat → FRes) (x y : Nat) : FRes :=
  let a := convElem ta t rm x
  let b := convElem tb t rm y
  (op a.bits b.bits).joined a b

/-! ### The forms -/

/-- The V form of R184: two groups, promoted. -/
def vecVV (d a b : VNum) (mk : MNum) (rm : Option Rounding) (sat : Bool) (k : ArithOp) (s : State) : Host.Outcome State Fault Refusal :=
  finish do
    let m ← s.mode rm
    s.needRef
    let ta := s.vtagOf a
    let tb := s.vtagOf b
    let ga := s.grp a (tagBits ta)
    let gb := s.grp b (tagBits tb)
    let p := promote ta tb
    let t := p.getD .none
    let gd := s.grp d (tagBits t)
    let s ← s.prepare [ga, gb] (if p.isSome then [gd] else []) (masksOf mk) (mk.val != 0) s.hart.vl
      [s.noScale, (untyped ta || untyped tb, 2), (p.isNone, 3), (tagFloat t && !k.floats, 3)]
    let va := s.bitsOf ga
    let vb := s.bitsOf gb
    let f (i : Nat) : FRes := mixedOp ta tb t m (arithOp k t m sat) (elemAt va ga.bits i) (elemAt vb gb.bits i)
    .ok ((s.elementwise gd t (s.actives mk s.hart.vl) f).vdone [ga, gb])

/-- The VX form of R184: the scalar is read with va's tag. -/
def vecVX (d a : VNum) (x : XReg) (mk : MNum) (rm : Option Rounding) (sat : Bool) (k : ArithOp) (s : State) : Host.Outcome State Fault Refusal :=
  finish do
    let m ← s.mode rm
    s.needRef
    let t := s.vtagOf a
    let ga := s.grp a (tagBits t)
    let gd := s.grp d (tagBits t)
    let s ← s.prepare [ga] [gd] (masksOf mk) (mk.val != 0) s.hart.vl [s.noScale, (untyped t, 2), (tagFloat t && !k.floats, 3)]
    let va := s.bitsOf ga
    let y := (s.x x).toNat % 2 ^ tagBits t
    .ok ((s.elementwise gd t (s.actives mk s.hart.vl) fun i => arithOp k t m sat (elemAt va ga.bits i) y).vdone [ga])

/-- a × b + d in a tag, the product and the addend negated on request (R185). -/
def fusedOp (t : Tag) (rm : Rounding) (sat negP negD : Bool) (x y z : Nat) : FRes :=
  match tagFmt t with
  | some f =>
    let a := if negP then (f.value x).neg else f.value x
    let c := if negD then (f.value z).neg else f.value z
    f.fma rm false a (f.value y) c
  | none =>
    let p := intValue t x * intValue t y
    let c := intValue t z
    intToInt t sat ((if negP then -p else p) + (if negD then -c else c))

/-- The fused forms (R185): vd is a source in its own tag and the destination in the promoted one. -/
def vecFused (d a b : VNum) (mk : MNum) (rm : Option Rounding) (sat negP negD : Bool) (s : State) : Host.Outcome State Fault Refusal :=
  finish do
    let m ← s.mode rm
    s.needRef
    let ta := s.vtagOf a
    let tb := s.vtagOf b
    let td := s.vtagOf d
    let p := (promote ta tb).bind fun t => promote t td
    let t := p.getD .none
    let ga := s.grp a (tagBits ta)
    let gb := s.grp b (tagBits tb)
    let g0 := s.grp d (tagBits td)
    let gd := s.grp d (tagBits t)
    let wide := p.isSome && (tooWide (tagBits ta) (tagBits t) || tooWide (tagBits tb) (tagBits t) || tooWide (tagBits td) (tagBits t))
    let s ← s.prepare [ga, gb, g0] (if p.isSome then [gd] else []) (masksOf mk) (mk.val != 0) s.hart.vl
      [s.noScale, (untyped ta || untyped tb || untyped td, 2), (p.isNone, 3), (wide, 3)]
    let va := s.bitsOf ga
    let vb := s.bitsOf gb
    let vd := s.bitsOf g0
    let f (i : Nat) : FRes :=
      let z := convElem td t m (elemAt vd g0.bits i)
      (mixedOp ta tb t m (fun x y => fusedOp t m sat negP negD x y z.bits) (elemAt va ga.bits i) (elemAt vb gb.bits i)).joined z (.plain 0)
    .ok ((s.elementwise gd t (s.actives mk s.hart.vl) f).vdone [ga, gb, g0])

/-! ### Compares (R186) -/

/-- The relations of R186. -/
inductive CmpOp where
  | eq | ne | lt | le | gt | ge
deriving DecidableEq, Repr

/-- A relation of an order. -/
def CmpOp.holds (k : CmpOp) (o : Ordering) : Bool :=
  match k with
  | .eq => o == .eq
  | .ne => o != .eq
  | .lt => o == .lt
  | .le => o != .gt
  | .gt => o == .gt
  | .ge => o != .lt

/-- A compare in a tag: 0 or 1, and NV for a NaN as R186 states. -/
def cmpOp (k : CmpOp) (t : Tag) (x y : Nat) : FRes :=
  match tagFmt t with
  | some f =>
    let a := f.value x
    let b := f.value y
    match a.cmp b with
    | some o => .plain (k.holds o).toNat
    | none => ⟨(k == .ne).toNat, flagNv ((k != .eq && k != .ne) || a.isSig || b.isSig), false⟩
  | none => .plain (k.holds (compare (intValue t x) (intValue t y))).toNat

/-- The results of a compare written to a mask, nothing with VSI at VL or above. -/
def State.maskResult (s : State) (d : MNum) (acts : List Nat) (f : Nat → FRes) : State :=
  if s.hart.vl ≤ s.hart.vsi then s
  else
    let (l, fl, _) := runElems f acts
    (s.writeMask d (l.map fun (i, b) => (i, b != 0))).raise fl false

/-- The V form of a compare. -/
def cmpVV (d : MNum) (a b : VNum) (mk : MNum) (rm : Option Rounding) (k : CmpOp) (s : State) : Host.Outcome State Fault Refusal :=
  finish do
    let m ← s.mode rm
    s.needRef
    let ta := s.vtagOf a
    let tb := s.vtagOf b
    let ga := s.grp a (tagBits ta)
    let gb := s.grp b (tagBits tb)
    let p := promote ta tb
    let t := p.getD .none
    let s ← s.prepare [ga, gb] [] (masksOf mk) true s.hart.vl [s.noScale, (untyped ta || untyped tb, 2), (p.isNone, 3)]
    let va := s.bitsOf ga
    let vb := s.bitsOf gb
    let f (i : Nat) : FRes := mixedOp ta tb t m (cmpOp k t) (elemAt va ga.bits i) (elemAt vb gb.bits i)
    .ok ((s.maskResult d (s.actives mk s.hart.vl) f).vdone [ga, gb])

/-- The VX form of a compare. -/
def cmpVX (d : MNum) (a : VNum) (x : XReg) (mk : MNum) (rm : Option Rounding) (k : CmpOp) (s : State) : Host.Outcome State Fault Refusal :=
  finish do
    let _ ← s.mode rm
    s.needRef
    let t := s.vtagOf a
    let ga := s.grp a (tagBits t)
    let s ← s.prepare [ga] [] (masksOf mk) true s.hart.vl [s.noScale, (untyped t, 2)]
    let va := s.bitsOf ga
    let y := (s.x x).toNat % 2 ^ tagBits t
    .ok ((s.maskResult d (s.actives mk s.hart.vl) fun i => cmpOp k t (elemAt va ga.bits i) y).vdone [ga])

/-! ### Conversions and unary operations (R192 to R194) -/

/-- A unary form: tags it accepts, its result tag, its operation. -/
def vecUnary (d a : VNum) (mk : MNum) (rm : Option Rounding) (dst : Tag → Tag) (ok : Tag → Bool)
    (op : Tag → Rounding → Nat → FRes) (s : State) : Host.Outcome State Fault Refusal :=
  finish do
    let m ← s.mode rm
    s.needRef
    let ta := s.vtagOf a
    let t := dst ta
    let ga := s.grp a (tagBits ta)
    let gd := s.grp d (tagBits t)
    let s ← s.prepare [ga] [gd] (masksOf mk) (mk.val != 0) s.hart.vl
      [s.noScale, (untyped ta, 2), (!ok ta, 3), (tooWide (tagBits ta) (tagBits t), 3)]
    let va := s.bitsOf ga
    .ok ((s.elementwise gd t (s.actives mk s.hart.vl) fun i => op ta m (elemAt va ga.bits i)).vdone [ga])

/-- `vcvt` (R192). -/
def execVcvt (d a : VNum) (t : Tag) (_q : Bool) (mk : MNum) (rm : Option Rounding) (sat : Bool) (s : State) : Host.Outcome State Fault Refusal :=
  vecUnary d a mk rm (fun _ => t) (fun _ => true) (fun ta m x => (convertTag ta t m sat x).getD (.plain 0)) s

/-- Negation (R193). -/
def negOp (sat : Bool) (t : Tag) (x : Nat) : FRes :=
  if tagFloat t then .plain (setBitAt x (tagBits t - 1) (!bitAt x (tagBits t - 1))) else intToInt t sat (-intValue t x)

/-- Absolute value (R193). -/
def absOp (sat : Bool) (t : Tag) (x : Nat) : FRes :=
  if tagFloat t then .plain (setBitAt x (tagBits t - 1) false) else intToInt t sat (intValue t x).natAbs

/-- `vneg` (R193). -/
def execVneg (d a : VNum) (_q : Bool) (mk : MNum) (rm : Option Rounding) (sat : Bool) (s : State) : Host.Outcome State Fault Refusal :=
  vecUnary d a mk rm id (fun _ => true) (fun t _ x => negOp sat t x) s
/-- `vabs` (R193). -/
def execVabs (d a : VNum) (_q : Bool) (mk : MNum) (rm : Option Rounding) (sat : Bool) (s : State) : Host.Outcome State Fault Refusal :=
  vecUnary d a mk rm id (fun _ => true) (fun t _ x => absOp sat t x) s

/-- A square root in a tag. -/
def sqrtOp (t : Tag) (m : Rounding) (x : Nat) : FRes := match tagFmt t with | some f => f.sqrt m (f.value x) | none => .plain 0

/-- `vsqrt` (R193): floating except fp4. -/
def execVsqrt (d a : VNum) (_q : Bool) (mk : MNum) (rm : Option Rounding) (s : State) : Host.Outcome State Fault Refusal :=
  vecUnary d a mk rm id (fun t => tagFloat t && t != .fp4) sqrtOp s

/-- The tags of the special functions (R193). -/
def specialTag (t : Tag) : Bool := [Tag.bf16, .fp16, .fp32, .fp64].contains t

/-- A special function in a tag. -/
def specialOp (k : SpecFn) (t : Tag) (m : Rounding) (x : Nat) : FRes :=
  match tagFmt t with | some f => specialFn t f m k x | none => .plain 0

/-- `vexp2` (R194). -/
def execVexp2 (d a : VNum) (_q : Bool) (mk : MNum) (rm : Option Rounding) (s : State) : Host.Outcome State Fault Refusal :=
  vecUnary d a mk rm id specialTag (specialOp .exp2) s
/-- `vlog2` (R194). -/
def execVlog2 (d a : VNum) (_q : Bool) (mk : MNum) (rm : Option Rounding) (s : State) : Host.Outcome State Fault Refusal :=
  vecUnary d a mk rm id specialTag (specialOp .log2) s
/-- `vrcp` (R194). -/
def execVrcp (d a : VNum) (_q : Bool) (mk : MNum) (rm : Option Rounding) (s : State) : Host.Outcome State Fault Refusal :=
  vecUnary d a mk rm id specialTag (specialOp .rcp) s
/-- `vrsqrt` (R194). -/
def execVrsqrt (d a : VNum) (_q : Bool) (mk : MNum) (rm : Option Rounding) (s : State) : Host.Outcome State Fault Refusal :=
  vecUnary d a mk rm id specialTag (specialOp .rsqrt) s

/-! ### Bit streams (R195) -/

/-- `len` bits of a stream of `size` bits from a bit offset; bits beyond the stream read zero. -/
def streamBits (v size off len : Nat) : Nat := bitsAt (v % 2 ^ size) off len

/-- `vbext` (R195). -/
def execVbext (d a b : VNum) (_q _p : Bool) (mk : MNum) (len : Option (Fin 64)) (s : State) : Host.Outcome State Fault Refusal :=
  finish do
    s.needRef
    let t := s.hart.vcfg.tag
    let w := tagBits t
    let n := match len with | some l => l.val + 1 | none => w
    let tb := s.vtagOf b
    let ga := s.grp a w
    let gb := s.grp b (tagBits tb)
    let gd := s.grp d w
    let s ← s.prepare [ga, gb] [gd] (masksOf mk) (mk.val != 0) s.hart.vl
      [s.noScale, (untyped tb || s.vtagOf a == .sc8, 2), (!tagUnsigned t, 3), (!tagInt tb, 3), (tooWide (tagBits tb) w, 3), (decide (w < n), 5)]
    let va := s.bitsOf ga
    let vb := s.bitsOf gb
    let f (i : Nat) : FRes := .plain (streamBits va (ga.n * s.hart.slice) (ofInt 64 (indexInt tb (elemAt vb gb.bits i))) n)
    .ok ((s.elementwise gd t (s.actives mk s.hart.vl) f).vdone [ga, gb])

/-- `vfsh` (R195): va and vb promoted to an integer tag that vd carries; vd is the amount and the destination. -/
def execVfsh (d a b : VNum) (_q _p : Bool) (mk : MNum) (s : State) : Host.Outcome State Fault Refusal :=
  finish do
    s.needRef
    let ta := s.vtagOf a
    let tb := s.vtagOf b
    let td := s.vtagOf d
    let p := promote ta tb
    let t := p.getD .none
    let w := tagBits t
    let ga := s.grp a (tagBits ta)
    let gb := s.grp b (tagBits tb)
    let gd := s.grp d (tagBits td)
    let s ← s.prepare [ga, gb, gd] [gd] (masksOf mk) (mk.val != 0) s.hart.vl
      [s.noScale, (untyped ta || untyped tb || untyped td, 2), (p.isNone, 3), (!tagInt t, 3), (td != t, 3)]
    let va := s.bitsOf ga
    let vb := s.bitsOf gb
    let vd := s.bitsOf gd
    let f (i : Nat) : FRes :=
      let x := (convElem ta t .rne (elemAt va ga.bits i)).bits
      let y := (convElem tb t .rne (elemAt vb gb.bits i)).bits
      .plain (((x * 2 ^ w + y) >>> (elemAt vd gd.bits i % w)) % 2 ^ w)
    .ok ((s.elementwise gd t (s.actives mk s.hart.vl) f).vdone [ga, gb, gd])

/-! ### The instructions -/


/-- `vadd` (R184). -/
def execVadd (d a b : VNum) (_q _p : Bool) (mk : MNum) (rm : Option Rounding) (sat : Bool) (s : State) : Host.Outcome State Fault Refusal :=
  vecVV d a b mk rm sat .add s

/-- `vadd.x` (R184). -/
def execVaddX (d a : VNum) (x : XReg) (_q : Bool) (mk : MNum) (rm : Option Rounding) (sat : Bool) (s : State) : Host.Outcome State Fault Refusal :=
  vecVX d a x mk rm sat .add s

/-- `vsub` (R184). -/
def execVsub (d a b : VNum) (_q _p : Bool) (mk : MNum) (rm : Option Rounding) (sat : Bool) (s : State) : Host.Outcome State Fault Refusal :=
  vecVV d a b mk rm sat .sub s

/-- `vsub.x` (R184). -/
def execVsubX (d a : VNum) (x : XReg) (_q : Bool) (mk : MNum) (rm : Option Rounding) (sat : Bool) (s : State) : Host.Outcome State Fault Refusal :=
  vecVX d a x mk rm sat .sub s

/-- `vmul` (R184). -/
def execVmul (d a b : VNum) (_q _p : Bool) (mk : MNum) (rm : Option Rounding) (sat : Bool) (s : State) : Host.Outcome State Fault Refusal :=
  vecVV d a b mk rm sat .mul s

/-- `vmul.x` (R184). -/
def execVmulX (d a : VNum) (x : XReg) (_q : Bool) (mk : MNum) (rm : Option Rounding) (sat : Bool) (s : State) : Host.Outcome State Fault Refusal :=
  vecVX d a x mk rm sat .mul s

/-- `vdiv` (R184). -/
def execVdiv (d a b : VNum) (_q _p : Bool) (mk : MNum) (rm : Option Rounding) (s : State) : Host.Outcome State Fault Refusal :=
  vecVV d a b mk rm false .div s

/-- `vdiv.x` (R184). -/
def execVdivX (d a : VNum) (x : XReg) (_q : Bool) (mk : MNum) (rm : Option Rounding) (s : State) : Host.Outcome State Fault Refusal :=
  vecVX d a x mk rm false .div s

/-- `vrem` (R184). -/
def execVrem (d a b : VNum) (_q _p : Bool) (mk : MNum) (rm : Option Rounding) (s : State) : Host.Outcome State Fault Refusal :=
  vecVV d a b mk rm false .rem s

/-- `vrem.x` (R184). -/
def execVremX (d a : VNum) (x : XReg) (_q : Bool) (mk : MNum) (rm : Option Rounding) (s : State) : Host.Outcome State Fault Refusal :=
  vecVX d a x mk rm false .rem s

/-- `vmin` (R184). -/
def execVmin (d a b : VNum) (_q _p : Bool) (mk : MNum) (rm : Option Rounding) (s : State) : Host.Outcome State Fault Refusal :=
  vecVV d a b mk rm false .min s

/-- `vmin.x` (R184). -/
def execVminX (d a : VNum) (x : XReg) (_q : Bool) (mk : MNum) (rm : Option Rounding) (s : State) : Host.Outcome State Fault Refusal :=
  vecVX d a x mk rm false .min s

/-- `vmax` (R184). -/
def execVmax (d a b : VNum) (_q _p : Bool) (mk : MNum) (rm : Option Rounding) (s : State) : Host.Outcome State Fault Refusal :=
  vecVV d a b mk rm false .max s

/-- `vmax.x` (R184). -/
def execVmaxX (d a : VNum) (x : XReg) (_q : Bool) (mk : MNum) (rm : Option Rounding) (s : State) : Host.Outcome State Fault Refusal :=
  vecVX d a x mk rm false .max s

/-- `vand` (R184). -/
def execVand (d a b : VNum) (_q _p : Bool) (mk : MNum) (rm : Option Rounding) (s : State) : Host.Outcome State Fault Refusal :=
  vecVV d a b mk rm false .and s

/-- `vand.x` (R184). -/
def execVandX (d a : VNum) (x : XReg) (_q : Bool) (mk : MNum) (rm : Option Rounding) (s : State) : Host.Outcome State Fault Refusal :=
  vecVX d a x mk rm false .and s

/-- `vor` (R184). -/
def execVor (d a b : VNum) (_q _p : Bool) (mk : MNum) (rm : Option Rounding) (s : State) : Host.Outcome State Fault Refusal :=
  vecVV d a b mk rm false .or s

/-- `vor.x` (R184). -/
def execVorX (d a : VNum) (x : XReg) (_q : Bool) (mk : MNum) (rm : Option Rounding) (s : State) : Host.Outcome State Fault Refusal :=
  vecVX d a x mk rm false .or s

/-- `vxor` (R184). -/
def execVxor (d a b : VNum) (_q _p : Bool) (mk : MNum) (rm : Option Rounding) (s : State) : Host.Outcome State Fault Refusal :=
  vecVV d a b mk rm false .xor s

/-- `vxor.x` (R184). -/
def execVxorX (d a : VNum) (x : XReg) (_q : Bool) (mk : MNum) (rm : Option Rounding) (s : State) : Host.Outcome State Fault Refusal :=
  vecVX d a x mk rm false .xor s

/-- `vsll` (R184). -/
def execVsll (d a b : VNum) (_q _p : Bool) (mk : MNum) (rm : Option Rounding) (s : State) : Host.Outcome State Fault Refusal :=
  vecVV d a b mk rm false .sll s

/-- `vsll.x` (R184). -/
def execVsllX (d a : VNum) (x : XReg) (_q : Bool) (mk : MNum) (rm : Option Rounding) (s : State) : Host.Outcome State Fault Refusal :=
  vecVX d a x mk rm false .sll s

/-- `vsrl` (R184). -/
def execVsrl (d a b : VNum) (_q _p : Bool) (mk : MNum) (rm : Option Rounding) (s : State) : Host.Outcome State Fault Refusal :=
  vecVV d a b mk rm false .srl s

/-- `vsrl.x` (R184). -/
def execVsrlX (d a : VNum) (x : XReg) (_q : Bool) (mk : MNum) (rm : Option Rounding) (s : State) : Host.Outcome State Fault Refusal :=
  vecVX d a x mk rm false .srl s

/-- `vsra` (R184). -/
def execVsra (d a b : VNum) (_q _p : Bool) (mk : MNum) (rm : Option Rounding) (s : State) : Host.Outcome State Fault Refusal :=
  vecVV d a b mk rm false .sra s

/-- `vsra.x` (R184). -/
def execVsraX (d a : VNum) (x : XReg) (_q : Bool) (mk : MNum) (rm : Option Rounding) (s : State) : Host.Outcome State Fault Refusal :=
  vecVX d a x mk rm false .sra s

/-- `vmulh` (R184). -/
def execVmulh (d a b : VNum) (_q _p : Bool) (mk : MNum) (rm : Option Rounding) (s : State) : Host.Outcome State Fault Refusal :=
  vecVV d a b mk rm false .mulh s

/-- `vmulh.x` (R184). -/
def execVmulhX (d a : VNum) (x : XReg) (_q : Bool) (mk : MNum) (rm : Option Rounding) (s : State) : Host.Outcome State Fault Refusal :=
  vecVX d a x mk rm false .mulh s

/-- `vfma` (R185). -/
def execVfma (d a b : VNum) (_q _p : Bool) (mk : MNum) (rm : Option Rounding) (sat : Bool) (s : State) : Host.Outcome State Fault Refusal :=
  vecFused d a b mk rm sat false false s

/-- `vfms` (R185). -/
def execVfms (d a b : VNum) (_q _p : Bool) (mk : MNum) (rm : Option Rounding) (sat : Bool) (s : State) : Host.Outcome State Fault Refusal :=
  vecFused d a b mk rm sat false true s

/-- `vfnma` (R185). -/
def execVfnma (d a b : VNum) (_q _p : Bool) (mk : MNum) (rm : Option Rounding) (sat : Bool) (s : State) : Host.Outcome State Fault Refusal :=
  vecFused d a b mk rm sat true false s

/-- `vfnms` (R185). -/
def execVfnms (d a b : VNum) (_q _p : Bool) (mk : MNum) (rm : Option Rounding) (sat : Bool) (s : State) : Host.Outcome State Fault Refusal :=
  vecFused d a b mk rm sat true true s

/-- `vcmp.eq` (R186). -/
def execVcmpEq (d : MNum) (a b : VNum) (_q _p : Bool) (mk : MNum) (rm : Option Rounding) (s : State) : Host.Outcome State Fault Refusal :=
  cmpVV d a b mk rm .eq s

/-- `vcmp.ne` (R186). -/
def execVcmpNe (d : MNum) (a b : VNum) (_q _p : Bool) (mk : MNum) (rm : Option Rounding) (s : State) : Host.Outcome State Fault Refusal :=
  cmpVV d a b mk rm .ne s

/-- `vcmp.lt` (R186). -/
def execVcmpLt (d : MNum) (a b : VNum) (_q _p : Bool) (mk : MNum) (rm : Option Rounding) (s : State) : Host.Outcome State Fault Refusal :=
  cmpVV d a b mk rm .lt s

/-- `vcmp.le` (R186). -/
def execVcmpLe (d : MNum) (a b : VNum) (_q _p : Bool) (mk : MNum) (rm : Option Rounding) (s : State) : Host.Outcome State Fault Refusal :=
  cmpVV d a b mk rm .le s

/-- `vcmp.eq.x` (R186). -/
def execVcmpEqX (d : MNum) (a : VNum) (x : XReg) (_q : Bool) (mk : MNum) (rm : Option Rounding) (s : State) : Host.Outcome State Fault Refusal :=
  cmpVX d a x mk rm .eq s

/-- `vcmp.ne.x` (R186). -/
def execVcmpNeX (d : MNum) (a : VNum) (x : XReg) (_q : Bool) (mk : MNum) (rm : Option Rounding) (s : State) : Host.Outcome State Fault Refusal :=
  cmpVX d a x mk rm .ne s

/-- `vcmp.lt.x` (R186). -/
def execVcmpLtX (d : MNum) (a : VNum) (x : XReg) (_q : Bool) (mk : MNum) (rm : Option Rounding) (s : State) : Host.Outcome State Fault Refusal :=
  cmpVX d a x mk rm .lt s

/-- `vcmp.le.x` (R186). -/
def execVcmpLeX (d : MNum) (a : VNum) (x : XReg) (_q : Bool) (mk : MNum) (rm : Option Rounding) (s : State) : Host.Outcome State Fault Refusal :=
  cmpVX d a x mk rm .le s

/-- `vcmp.gt.x` (R186). -/
def execVcmpGtX (d : MNum) (a : VNum) (x : XReg) (_q : Bool) (mk : MNum) (rm : Option Rounding) (s : State) : Host.Outcome State Fault Refusal :=
  cmpVX d a x mk rm .gt s

/-- `vcmp.ge.x` (R186). -/
def execVcmpGeX (d : MNum) (a : VNum) (x : XReg) (_q : Bool) (mk : MNum) (rm : Option Rounding) (s : State) : Host.Outcome State Fault Refusal :=
  cmpVX d a x mk rm .ge s

end Sys2Proof.Machine
end

