-- ==== Sys2Proof/Machine/VectorMem.lean ====
section
/-! DEFINITION. Vector length, tags and vector memory instructions, majors 0x20 to 0x25 and 0x29 (08 R158 to R177,
04 R87). -/

namespace Sys2Proof.Machine

/-! ### The vector length (R158, R29, R30, R303) -/

/-- Every fibre holds at most so many entries. -/
def Hart.fibresFit (h : Hart) (n : Nat) : Bool := h.q.toList.all fun q => decide (q.entries.length ≤ n)

/-- The storage of the group of `n` registers from `base`, for registers of `sz` bits. -/
def Hart.groupBits (h : Hart) (sz base : Nat) : Nat → Nat
  | 0 => 0
  | n + 1 => (h.v[base % 32]?.getD {}).bits % 2 ^ sz + h.groupBits sz (base + 1) n <<< sz

/-- Registers with only the slices of a smaller Ge (R30): each group of the size in VCFG keeps the elements that its smaller
storage holds, where R35 then places them (DEDUCED, log 63); masks keep the bits of those elements. -/
def Hart.cut (h : Hart) (ge : Nat) : Hart :=
  let g := 2 ^ h.vcfg.lgrp
  { h with ge := ge,
           v := Vector.ofFn fun r => { h.v[r] with
             bits := bitsAt (h.groupBits h.slice (r.val / g * g) g) (r.val % g * (8192 * ge)) (8192 * ge) },
           m := h.m.map fun r => { r with bits := r.bits % 2 ^ (1024 * ge) } }

/-- A posted reclaim is taken by a plain `setvl` when the fibres fit, with no guarded strip open (R29, R331). -/
def Hart.takesReclaim (h : Hart) (hold : Bool) (g : Nat) : Bool := !hold && h.strip.isNone && h.fibresFit (128 * g)

/-- The grant and Ge after a `setvl` (R29, R30, R303): the plain form takes a posted reclaim or a lower VLCAP when the
fibres fit, either form takes a rise. -/
def Hart.regrant (h : Hart) (hold : Bool) : Hart :=
  let h := match h.reclaim with
    | some g =>
      if h.takesReclaim hold g then { h with place := { h.place with grant := g }, reclaim := none, pend21 := none } else h
    | none => h
  let target := Nat.min h.place.grant h.priv.vlcap
  if target < h.ge then
    if !hold && h.fibresFit (128 * target) then h.cut target else h.cut (Nat.min h.ge h.place.grant)
  else { h with ge := target }

/-- `setvl` and `setvl.h` (R158). -/
def setVl (hold : Bool) (d a : XReg) (t : Tag) (g : Fin 4) (s : State) : Host.Outcome State Fault Refusal :=
  let avl := (s.x a).toNat
  let h := s.hart.regrant hold
  let max := vlmaxOf t g.val h.ge
  let vl := if a.val = 0 then max else Nat.min avl max
  let h := { h with vcfg := ⟨t, g.val, hold⟩, vl := vl, vsi := 0 }
  .next ({ s with hart := h }.setX d (BitVec.ofNat 64 vl)).retire

/-- `setvl` (R158). -/
def execSetvl (d a : XReg) (t : Tag) (g : Fin 4) (s : State) : Host.Outcome State Fault Refusal := setVl false d a t g s
/-- `setvl.h` (R158). -/
def execSetvlH (d a : XReg) (t : Tag) (g : Fin 4) (s : State) : Host.Outcome State Fault Refusal := setVl true d a t g s

/-! ### Tags (R160) -/

/-- The group of size 2^LGRP of a register, whatever VCFG.TAG. -/
def State.plainGrp (s : State) (r : VNum) : Grp := ⟨r.val, 2 ^ s.hart.vcfg.lgrp, 8⟩

/-- Setting the tag of a group. -/
def setTag (d : VNum) (t : Option Tag) (s : State) : Host.Outcome State Fault Refusal :=
  finish do
    let g := s.plainGrp d
    s.require g.aligned (s.tagFault 1)
    match t with
    | none => s.trap (s.tagFault 2)
    | some t =>
      match s.boundBy [g] with
      | k :: _ => s.trap (s.boundWrite k)
      | [] => .ok (s.tagGroup g t).retire

/-- `vtag` (R160). -/
def execVtag (d : VNum) (t : Tag) (s : State) : Host.Outcome State Fault Refusal := setTag d (some t) s
/-- `vtagr` (R160): a reserved code is a tag-fault (R53). DEDUCED, log 53. -/
def execVtagr (d : VNum) (b : XReg) (s : State) : Host.Outcome State Fault Refusal :=
  setTag d (Tag.ofCode ((s.x b).toNat % 32)) s

/-! ### The access sequence (R163) -/

/-- The checks of one element's accesses before any element performs: alignment, region, translation (R148 items 1 to 3). -/
def State.checkWords (s : State) (k : Access) (n : Nat) : List Word → Except Reject (List (Word × Loc))
  | [] => .ok []
  | a :: as => do
    let l ← s.resolveIn s.hart.ctx k a.toNat n n
    let rest ← s.checkWords k n as
    .ok ((a, l) :: rest)

/-- All checks before the first element performs: the elements that can perform, and the first that cannot. -/
def State.checkElems (s : State) (k : Access) (n : Nat) (addr : Nat → List Word) :
    List Nat → List (Nat × List (Word × Loc)) × Option (Nat × Reject)
  | [] => ([], none)
  | e :: es =>
    match s.checkWords k n (addr e) with
    | .error r => ([], some (e, r))
    | .ok ls =>
      let (rest, bad) := s.checkElems k n addr es
      ((e, ls) :: rest, bad)

/-- What the targets of an element's words say as it performs (R148 item 4, R163). -/
def State.admitWords (s : State) (k : Access) (n : Nat) (cached : Bool) : List (Word × Loc) → Except Reject Unit
  | [] => .ok ()
  | (a, l) :: rest => do
    s.targetTakes s.hart.place.part k l a.toNat n cached
    s.admitWords k n cached rest

/-- The words of one element read, the open strip's own bytes first (R106). -/
def State.readWords (s : State) (n : Nat) : List (Word × Loc) → Except Reject (List Nat × State)
  | [] => .ok ([], s)
  | (a, l) :: rest => do
    let (v, s) ← s.readAt .cached l a.toNat n
    let (vs, s') ← s.readWords n rest
    .ok (s.laid l a.toNat n v :: vs, s')

/-- One element of a load performed. -/
def State.readElem (s : State) (n : Nat) (ls : List (Word × Loc)) : Except Reject (List Nat × State) := do
  s.admitWords .load n true ls
  s.readWords n ls

/-- The elements performed by a load: their values, and the element that a target refused or that met uncorrectable data. -/
def State.readElems (s : State) (n : Nat) : List (Nat × List (Word × Loc)) → List (Nat × List Nat) × State × Option (Nat × Reject)
  | [] => ([], s, none)
  | (e, ls) :: rest =>
    match s.readElem n ls with
    | .error r => ([], s, some (e, r))
    | .ok (vs, s) =>
      let (out, s, bad) := s.readElems n rest
      ((e, vs) :: out, s, bad)

/-- A load's elements: those performed, the state, and the failure that stops it. -/
def State.loadElems (s : State) (n : Nat) (addr : Nat → List Word) (acts : List Nat) :
    List (Nat × List Nat) × State × Option (Nat × Reject) :=
  let (ok, bad) := s.checkElems .load n addr acts
  let (out, s, bad') := s.readElems n ok
  (out, s, match bad' with | some b => some b | none => bad)

/-- The words of one element stored in order, into the open strip's buffer or to memory (R252, R265). -/
def State.storeWords (s : State) (p : Route) (n : Nat) (half : Option Bool) : List (Word × Loc) → List Nat → Except Reject State
  | (a, l) :: ls, v :: vs => do
    let s ← s.put p none l a.toNat n v half
    s.storeWords p n half ls vs
  | _, _ => .ok s

/-- One element of a store performed. An element whose words cannot all perform performs none of them (R163). -/
def State.writeElem (s : State) (p : Route) (n : Nat) (half : Option Bool) (ls : List (Word × Loc)) (vs : List Nat) : Except Reject State := do
  s.admitWords .store n (p == .cached) ls
  s.storeWords p n half ls vs

/-- The elements performed by a store: `val` gives an element's words, `half` the half of a byte that it is (R94). -/
def State.writeElems (s : State) (p : Route) (n : Nat) (half : Nat → Option Bool) (val : Nat → List Nat) :
    List (Nat × List (Word × Loc)) → State × Option (Nat × Reject)
  | [] => (s, none)
  | (e, ls) :: rest =>
    match s.writeElem p n (half e) ls (val e) with
    | .error r => (s, some (e, r))
    | .ok s => s.writeElems p n half val rest

/-- A store's elements. -/
def State.storeElems (s : State) (p : Route) (n : Nat) (half : Nat → Option Bool) (addr : Nat → List Word) (val : Nat → List Nat)
    (acts : List Nat) : State × Option (Nat × Reject) :=
  let (ok, bad) := s.checkElems .store n addr acts
  let (s, bad') := s.writeElems p n half val ok
  (s, match bad' with | some b => some b | none => bad)

/-- The end of a divisible access (R163): completion, a trap with VSI at the element, or a stop with VSI at the first
element left (R19). -/
def State.endAccess (s : State) (srcs : List Grp) (bad : Option (Nat × Reject)) (left : Option Nat) : Run State :=
  match bad, left with
  | some (k, r), _ => .error (s.trapOf r, s.setVsi k)
  | none, some k => .ok (s.setVsi k)
  | none, none => .ok (s.vdone srcs)

/-! ### Operands of the memory instructions -/

/-- Bytes of one element access; an fp4 element is accessed as its byte. -/
def elemBytes (t : Tag) : Nat := Nat.max 1 (tagBits t / 8)

/-- The half of a byte that an fp4 element is, or the whole value (R161). -/
def pickElem (t : Tag) (e v : Nat) : Nat := if t = .fp4 then bitsAt v (4 * (e % 2)) 4 else v

/-- The destination or source data group (R161). -/
def State.dataGrp (s : State) (r : VNum) : Grp := s.grp r (tagBits s.hart.vcfg.tag)

/-- The results of a load written to the field groups: the tag when the load completes with VSI below N (R162), or when
at least one element performed (R161). -/
def State.writeFields (s : State) (gs : List Grp) (out : List (Nat × List Nat)) (whole : Bool) : State :=
  if out.isEmpty && !whole then s
  else gs.zipIdx.foldl (fun s (g, f) =>
    s.writeGroup g (some s.hart.vcfg.tag) (out.map fun (e, vs) => (e, pickElem s.hart.vcfg.tag e (vs.getD f 0)))) s

/-- A divisible load (R161 to R163) of N elements with some fields each. `gs` are the destination groups, `srcs` the
index group where there is one. -/
def State.vload (s : State) (gs srcs : List Grp) (mk : MNum) (len : Nat) (faults : List (Bool × Nat))
    (addr : State → Nat → List Word) : Run State := do
  s.needRef
  let s ← s.drain.prepare srcs gs (masksOf mk) (mk.val != 0) len faults
  let (acts, left) := s.share (s.actives mk len)
  let (out, s', bad) := s.loadElems (elemBytes s.hart.vcfg.tag) (addr s) acts
  (s'.writeFields gs out (bad.isNone && left.isNone && decide (s.hart.vsi < len))).endAccess srcs bad left

/-- The half of its byte that an element is, for fp4 (R94, R161). -/
def halfOf (t : Tag) (e : Nat) : Option Bool := if t = .fp4 then some (e % 2 == 1) else none

/-- The words an element of a store writes: its fields from the source groups; an fp4 value stands in both halves of its
byte, of which one is written (R94). -/
def storeVals (gs : List Grp) (s : State) (e : Nat) : List Nat :=
  gs.map fun g =>
    let v := elemAt (s.bitsOf g) g.bits e
    if s.hart.vcfg.tag = .fp4 then v * 17 else v

/-- How a vector store reaches remote memory (R110): ordered ones write through. -/
def storeRoute (unord : Bool) : Route := if unord then .cached else .through

/-- A divisible store (R161 to R163). -/
def State.vstore (s : State) (gs idx : List Grp) (mk : MNum) (unord : Bool) (len : Nat) (faults : List (Bool × Nat))
    (addr : State → Nat → List Word) (val : State → Nat → List Nat) : Run State := do
  s.needRef
  let srcs := gs ++ idx
  let s ← s.drain.prepare srcs [] (masksOf mk) (mk.val != 0) len faults
  let t := s.hart.vcfg.tag
  let (acts, left) := s.share (s.actives mk len)
  let (s', bad) := s.storeElems (storeRoute unord) (elemBytes t) (halfOf t) (addr s) (val s) acts
  s'.endAccess srcs bad left

/-- The address of element e at a base and a width in bits: halves of bytes count together (R161). -/
def unitAddr (base : Word) (bits e : Nat) : Word := base + BitVec.ofNat 64 (e * bits / 8)

/-- fp4 on a form without it (R166). -/
def State.noFp4 (s : State) : Bool × Nat := (s.hart.vcfg.tag == .fp4, 3)

/-! ### Unit-stride and strided accesses (R167, R168) -/

/-- `vld` (R167). -/
def execVld (d : VNum) (a : XReg) (_o : Bool) (mk : MNum) (_hint : Hint) (s : State) : Host.Outcome State Fault Refusal :=
  finish (s.vload [s.dataGrp d] [] mk s.hart.vl []
    fun s e => [unitAddr (s.x a) (tagBits s.hart.vcfg.tag) e])

/-- `vldff` (R168): a fault above VSI trims VL in place of a trap. -/
def execVldff (d : VNum) (a : XReg) (mk : MNum) (_hint : Hint) (s : State) : Host.Outcome State Fault Refusal :=
  finish do
    s.needRef
    let g := s.dataGrp d
    let s ← s.drain.prepare [] [g] (masksOf mk) (mk.val != 0) s.hart.vl [s.noFp4]
    let (acts, left) := s.share (s.actives mk s.hart.vl)
    let (out, s', bad) := s.loadElems (elemBytes s.hart.vcfg.tag)
      (fun e => [unitAddr (s.x a) (tagBits s.hart.vcfg.tag) e]) acts
    let trim := match bad with | some (k, r) => decide (s.hart.vsi < k) && r.cause != holdCause | none => true
    let s' := s'.writeFields [g] out (trim && left.isNone && decide (s.hart.vsi < s.hart.vl))
    match bad with
    | some (k, _) =>
      if trim then .ok { s' with hart := { s'.hart with vl := k, vsi := 0 } }.retire else s'.endAccess [] bad left
    | none => s'.endAccess [] bad left

/-- The address of element e with a stride in bytes. -/
def strideAddr (base stride : Word) (e : Nat) : Word := base + BitVec.ofNat 64 e * stride

/-- `vlds` (R167). -/
def execVlds (d : VNum) (a r : XReg) (_o : Bool) (mk : MNum) (_hint : Hint) (s : State) : Host.Outcome State Fault Refusal :=
  finish (s.vload [s.dataGrp d] [] mk s.hart.vl [s.noFp4] fun s e => [strideAddr (s.x a) (s.x r) e])

/-- `vst` (R167). -/
def execVst (v : VNum) (a : XReg) (o : Bool) (mk : MNum) (s : State) : Host.Outcome State Fault Refusal :=
  finish (s.vstore [s.dataGrp v] [] mk (!o) s.hart.vl []
    (fun s e => [unitAddr (s.x a) (tagBits s.hart.vcfg.tag) e]) (storeVals [s.dataGrp v]))

/-- `vsts` (R167). -/
def execVsts (v : VNum) (a r : XReg) (o : Bool) (mk : MNum) (s : State) : Host.Outcome State Fault Refusal :=
  finish (s.vstore [s.dataGrp v] [] mk (!o) s.hart.vl [s.noFp4]
    (fun s e => [strideAddr (s.x a) (s.x r) e]) (storeVals [s.dataGrp v]))

/-! ### Indexed accesses (R169, R170) -/

/-- The index group of a register (R169). -/
def State.idxGrp (s : State) (i : VNum) : Grp := s.grp i (tagBits (s.vtagOf i))

/-- The conditions of R169 and R172 on an index group beside destination groups. -/
def State.idxFaults (s : State) (i : VNum) (dsts : List Grp) : List (Bool × Nat) :=
  let t := s.vtagOf i
  [s.noFp4, (untyped t, 2), (!tagInt t, 3), (tooWide (tagBits t) (tagBits s.hart.vcfg.tag), 3),
    (dsts.any (s.idxGrp i).overlaps, 6)]

/-- idx(e) of a typed index group (R169). -/
def State.idxOf (s : State) (i : VNum) (e : Nat) : Int :=
  let t := s.vtagOf i
  indexInt t (elemAt (s.bitsOf (s.idxGrp i)) (tagBits t) e)

/-- The address of an indexed element (R169). -/
def State.idxAddr (s : State) (a : XReg) (i : VNum) (e : Nat) : Word :=
  s.x a + BitVec.ofInt 64 (s.idxOf i e * (tagBits s.hart.vcfg.tag / 8 : Nat))

/-- The presence bits of the element groups that some elements of a group lie in are clear (R37, R85). -/
def State.owe (s : State) (g : Grp) (acts : List Nat) : State :=
  let h := s.hart
  let per := h.slice / 256
  let reg (r : Fin 32) : VReg :=
    let o := h.v[r]
    if g.has r then
      { o with owed := acts.foldl (fun w e =>
          let k := e * g.bits / 256
          if k / per = r - g.base then setBitAt w (k % per) true else w) 0 }
    else o
  { s with hart := { h with v := Vector.ofFn reg } }

/-- A gather. One that stops part way owes the element groups of the elements it has left (R85); they are all present
again when it completes or traps (R37, R86). -/
def gather (d : VNum) (a : XReg) (i : VNum) (mk : MNum) (s : State) : Host.Outcome State Fault Refusal :=
  finish do
    let g := s.dataGrp d
    let s' ← s.vload [g] [s.idxGrp i] mk s.hart.vl (s.idxFaults i [g]) fun s e => [s.idxAddr a i e]
    let acts := s.actives mk s.hart.vl
    .ok (match (s.share acts).2 with
      | some k => s'.owe g (acts.filter fun e => decide (k ≤ e))
      | none => s')

/-- A scatter. -/
def scatter (v : VNum) (a : XReg) (i : VNum) (unord : Bool) (mk : MNum) (s : State) : Host.Outcome State Fault Refusal :=
  finish (s.vstore [s.dataGrp v] [s.idxGrp i] mk unord s.hart.vl (s.idxFaults i [])
    (fun s e => [s.idxAddr a i e]) (storeVals [s.dataGrp v]))

/-- `vldx` (R169). -/
def execVldx (d : VNum) (a : XReg) (i : VNum) (_c _o : Bool) (mk : MNum) (_hint : Hint) (s : State) :
    Host.Outcome State Fault Refusal := gather d a i mk s
/-- `vldx.far` (R170): the near form's results; the engine that performs it changes timing only. -/
def execVldxFar (d : VNum) (a : XReg) (i : VNum) (_c _o : Bool) (mk : MNum) (_hint : Hint) (s : State) :
    Host.Outcome State Fault Refusal := gather d a i mk s
/-- `vstx` (R169). -/
def execVstx (v : VNum) (a : XReg) (i : VNum) (_c o : Bool) (mk : MNum) (s : State) : Host.Outcome State Fault Refusal :=
  scatter v a i (!o) mk s
/-- `vstx.far` (R170). -/
def execVstxFar (v : VNum) (a : XReg) (i : VNum) (_c o : Bool) (mk : MNum) (s : State) : Host.Outcome State Fault Refusal :=
  scatter v a i (!o) mk s

/-! ### Segments (R171 to R173) -/

/-- The field groups of a segment access: `nf` groups from a base, g registers apart. -/
def State.fieldGrps (s : State) (r : VNum) (nf : Nat) : List Grp :=
  (List.range nf).map fun f => ⟨r.val + f * 2 ^ s.hart.vcfg.lgrp, 2 ^ s.hart.vcfg.lgrp, tagBits s.hart.vcfg.tag⟩

/-- Fields lie beyond v31 (R171). -/
def State.fieldsBad (s : State) (r : VNum) (nf : Nat) : Bool × Nat := (decide (32 < r.val + nf * 2 ^ s.hart.vcfg.lgrp), 5)

/-- The addresses of the fields of record e (R171). -/
def segAddr (s : State) (a : XReg) (nf e : Nat) : List Word :=
  (List.range nf).map fun f => unitAddr (s.x a) (tagBits s.hart.vcfg.tag) (e * nf + f)

/-- The number of fields of a segment form. -/
def fieldCount (n : Fin 8) : Nat := n.val + 1

/-- `vldseg` (R171). -/
def execVldseg (d : VNum) (a : XReg) (_o : Bool) (mk : MNum) (n : Fin 8) (_hint : Hint) (s : State) :
    Host.Outcome State Fault Refusal :=
  finish (s.vload (s.fieldGrps d (fieldCount n)) [] mk s.hart.vl [s.noFp4, s.fieldsBad d (fieldCount n)]
    fun s e => segAddr s a (fieldCount n) e)

/-- `vstseg` (R171). -/
def execVstseg (v : VNum) (a : XReg) (o : Bool) (mk : MNum) (n : Fin 8) (s : State) : Host.Outcome State Fault Refusal :=
  finish (s.vstore (s.fieldGrps v (fieldCount n)) [] mk (!o) s.hart.vl [s.noFp4, s.fieldsBad v (fieldCount n)]
    (fun s e => segAddr s a (fieldCount n) e) (storeVals (s.fieldGrps v (fieldCount n))))

/-- The value that a permuted load gives position j of field f: a staged record below VL, the destination's own element
above it (R173). -/
def permElem (vl vlmax : Nat) (staged : List (Nat × List Nat)) (f : Nat) (old : Nat → Nat) (j : Int) : Nat :=
  if j < 0 then 0 else regGather vlmax (fun k => if k < vl then ((staged[k]?.getD (0, [])).2).getD f 0 else old k) j.toNat

/-- `vldseg.p` (R172): every record is read before any register is written; a fault writes nothing. -/
def execVldsegP (d : VNum) (a : XReg) (i : VNum) (_c : Bool) (mk : MNum) (n : Fin 8) (_hint : Hint) (s : State) :
    Host.Outcome State Fault Refusal :=
  finish do
    s.needRef
    let gs := s.fieldGrps d (fieldCount n)
    let s ← s.drain.prepare [s.idxGrp i] gs (masksOf mk) (mk.val != 0) s.hart.vl
      (s.idxFaults i gs ++ [s.fieldsBad d (fieldCount n), (s.hart.vsi != 0, 7)])
    let (staged, s', bad) := s.loadElems (elemBytes s.hart.vcfg.tag) (segAddr s a (fieldCount n)) (List.range s.hart.vl)
    match bad with
    | some (_, r) => s'.trap (s'.trapOf r)
    | none =>
      let out := (s.actives mk s.hart.vl).map fun e =>
        (e, gs.zipIdx.map fun (g, f) =>
          permElem s.hart.vl s.hart.vlmax staged f (elemAt (s.bitsOf g) g.bits) (s.idxOf i e))
      .ok ((s'.writeFields gs out (s.hart.vl != 0)).vdone [s.idxGrp i])

/-- The words of a permuted store's record: each field at the position that the index names (R172, R173). -/
def permVals (gs : List Grp) (i : VNum) (s : State) (e : Nat) : List Nat :=
  let j := s.idxOf i e
  gs.map fun g => if j < 0 then 0 else regGather s.hart.vlmax (elemAt (s.bitsOf g) g.bits) j.toNat

/-- `vstseg.p` (R172). -/
def execVstsegP (v : VNum) (a : XReg) (i : VNum) (_c o : Bool) (mk : MNum) (n : Fin 8) (s : State) :
    Host.Outcome State Fault Refusal :=
  finish (s.vstore (s.fieldGrps v (fieldCount n)) [s.idxGrp i] mk (!o) s.hart.vl
    (s.idxFaults i [] ++ [s.fieldsBad v (fieldCount n)])
    (fun s e => segAddr s a (fieldCount n) e) (permVals (s.fieldGrps v (fieldCount n)) i))

/-! ### 2-D accesses (R174) -/

/-- The address of element e of a 2-D access. -/
def planeAddr (s : State) (a : XReg) (e : Nat) : Word :=
  s.x a + BitVec.ofNat 64 (e / s.hart.vl) * s.hart.pitch + BitVec.ofNat 64 (e % s.hart.vl * tagBits s.hart.vcfg.tag / 8)

/-- The conditions of R166 and R174. -/
def State.planeFaults (s : State) : List (Bool × Nat) :=
  [(s.hart.vcfg.tag == .fp4 && (s.hart.vl % 2 != 0 || s.hart.pitch.toNat % 2 != 0), 5),
    (decide (s.hart.vlmax < s.hart.rows * s.hart.vl), 5)]

/-- `vld2` (R174). -/
def execVld2 (d : VNum) (a : XReg) (_o : Bool) (mk : MNum) (_hint : Hint) (s : State) : Host.Outcome State Fault Refusal :=
  finish (s.vload [s.dataGrp d] [] mk (s.hart.rows * s.hart.vl) s.planeFaults fun s e => [planeAddr s a e])

/-- `vst2` (R174). -/
def execVst2 (v : VNum) (a : XReg) (o : Bool) (mk : MNum) (s : State) : Host.Outcome State Fault Refusal :=
  finish (s.vstore [s.dataGrp v] [] mk (!o) (s.hart.rows * s.hart.vl) s.planeFaults
    (fun s e => [planeAddr s a e]) (storeVals [s.dataGrp v]))

/-! ### Stream registers (R175) -/

/-- Every binding that a condition names ends; its prefetched strips are dropped. -/
def State.unbind (s : State) (p : SNum → Stream → Bool) : State :=
  let next (k : Fin 8) : Stream :=
    let b := s.hart.streams[k]
    if b.bound && p k b then { b with bound := false, strips := [] } else b
  { s with hart := { s.hart with streams := Vector.ofFn next } }

/-- `vsbind` (R175): fp4 is a tag-fault (R166). The stream's reads come after the older copies of the hart (R105). -/
def execVsbind (d : VNum) (a r : XReg) (n : SNum) (s : State) : Host.Outcome State Fault Refusal :=
  finish do
    s.needRef
    let s := s.drain
    let g := s.dataGrp d
    s.require g.aligned (s.tagFault 1)
    s.require (s.hart.vcfg.tag != .fp4) (s.tagFault 3)
    let b : Stream := { bound := true, group := d.val, lgrp := s.hart.vcfg.lgrp, tag := s.hart.vcfg.tag,
                        base := s.x a, stride := s.x r }
    let s := s.unbind fun k b => k == n || b.grp.overlaps g
    .ok ({ s with hart := { s.hart with streams := s.hart.streams.set n.val b } }.tagGroup g b.tag).retire

/-- `vsunbind` (R175). -/
def execVsunbind (d : VNum) (s : State) : Host.Outcome State Fault Refusal :=
  finish do
    s.needRef
    .ok (s.unbind fun _ b => b.grp.has d.val).retire

/-! ### Discardable regions (R87) -/

/-- The range of `spdisc` or `spkeep`: its window offset, once the checks hold. -/
def State.discRange (s : State) (base len : Word) : Run Nat := do
  s.require (base.toNat % 4096 == 0 && len.toNat % 4096 == 0) (s.misaligned base)
  let off := base.toNat - windowBase
  s.require (decide (windowBase ≤ base.toNat) && decide (off + len.toNat ≤ s.hart.place.pieces.length * 65536))
    (s.trapOf { cause := 0x07, addr := base.toNat })
  .ok off

/-- The disc bits of a range set to a value. -/
def setDisc (d off len : Nat) (v : Bool) : Nat :=
  setBitsAt d (off / 4096) (len / 4096) (if v then 2 ^ (len / 4096) - 1 else 0)

/-- `spdisc` (R87): not over a live zone. -/
def execSpdisc (a b : XReg) (s : State) : Host.Outcome State Fault Refusal :=
  finish do
    let len := s.x b
    if len = 0 then .ok s.retire
    else
      let off ← s.discRange (s.x a) len
      s.require (!(s.zones.any fun z => z.owner == s.hart.place.hid && decide (off < z.stop) && decide (z.base < off + len.toNat)))
        (s.zoneFault (s.x a) 6)
      .ok { s with hart := { s.hart with disc := setDisc s.hart.disc off len.toNat true } }.retire

/-- `spkeep` (R87). -/
def execSpkeep (a b : XReg) (s : State) : Host.Outcome State Fault Refusal :=
  finish do
    let len := s.x b
    if len = 0 then .ok s.retire
    else
      let off ← s.discRange (s.x a) len
      .ok { s with hart := { s.hart with disc := setDisc s.hart.disc off len.toNat false } }.retire

end Sys2Proof.Machine
end

