-- ==== Sys2Proof/Machine/VectorPerm.lean ====
section
/-! DEFINITION. Masks, element moves, permutations, scans, reductions, exact accumulators and the moves between vectors and
x registers, majors 0x34 to 0x37, 0x3B and 0x3C (09 R187 to R191, R196 to R199, 03 R69 to R73). -/

namespace Sys2Proof.Machine

/-! ### Mask operations (R187) -/

/-- A mask operation that writes positions VSI to VL − 1. -/
def maskOp (d : MNum) (srcs : List MNum) (f : State → Nat → Bool) (s : State) : Host.Outcome State Fault Refusal :=
  finish do
    let s ← s.prepare [] [] srcs true s.hart.vl []
    .ok ((s.writeMask d ((s.range s.hart.vl).map fun i => (i, f s i))).vdone [])

/-- `mand` (R187). -/
def execMand (d a b : MNum) (s : State) : Host.Outcome State Fault Refusal := maskOp d [a, b] (fun s i => s.mbit a i && s.mbit b i) s
/-- `mor` (R187). -/
def execMor (d a b : MNum) (s : State) : Host.Outcome State Fault Refusal := maskOp d [a, b] (fun s i => s.mbit a i || s.mbit b i) s
/-- `mxor` (R187). -/
def execMxor (d a b : MNum) (s : State) : Host.Outcome State Fault Refusal := maskOp d [a, b] (fun s i => s.mbit a i != s.mbit b i) s
/-- `mandn` (R187). -/
def execMandn (d a b : MNum) (s : State) : Host.Outcome State Fault Refusal := maskOp d [a, b] (fun s i => s.mbit a i && !s.mbit b i) s
/-- `mnot` (R187). -/
def execMnot (d a : MNum) (s : State) : Host.Outcome State Fault Refusal := maskOp d [a] (fun s i => !s.mbit a i) s

/-- The lowest position from VSI at which a mask is 1; VL when there is none. -/
def State.firstSet (s : State) (a : MNum) : Nat := ((s.range s.hart.vl).find? (s.mbit a)).getD s.hart.vl

/-- `msbf` (R187). -/
def execMsbf (d a : MNum) (s : State) : Host.Outcome State Fault Refusal := maskOp d [a] (fun s i => decide (i < s.firstSet a)) s
/-- `msif` (R187). -/
def execMsif (d a : MNum) (s : State) : Host.Outcome State Fault Refusal := maskOp d [a] (fun s i => decide (i ≤ s.firstSet a)) s

/-- The positions of `mpopc` and `mfirst`. -/
def State.setPositions (s : State) (a mk : MNum) : List Nat := (s.actives mk s.hart.vl).filter (s.mbit a)

/-- `mpopc` (R187). -/
def execMpopc (d : XReg) (a mk : MNum) (s : State) : Host.Outcome State Fault Refusal :=
  finish do
    let s ← s.prepare [] [] (a :: masksOf mk) true s.hart.vl []
    .ok ((s.setX d (BitVec.ofNat 64 (s.setPositions a mk).length)).vdone [])

/-- `mfirst` (R187). -/
def execMfirst (d : XReg) (a mk : MNum) (s : State) : Host.Outcome State Fault Refusal :=
  finish do
    let s ← s.prepare [] [] (a :: masksOf mk) true s.hart.vl []
    .ok ((s.setX d (match (s.setPositions a mk).head? with | some i => BitVec.ofNat 64 i | none => BitVec.allOnes 64)).vdone [])

/-! ### Moves and permutations (R188, R189) -/

/-- Elements written without a flag: pairs of index and bits, nothing with VSI at VL or above. -/
def State.moveElems (s : State) (dst : Grp) (t : Tag) (l : List (Nat × Nat)) : State :=
  if s.hart.vl ≤ s.hart.vsi then s else s.writeGroup dst (some t) l

/-- A move from one group whose result tag is va's (R188): `f` gives the new elements from a reading function. -/
def vecMove (d a : VNum) (masks : List MNum) (usesMask : Bool) (f : State → (Nat → Nat) → List (Nat × Nat)) (s : State) :
    Host.Outcome State Fault Refusal :=
  finish do
    s.needRef
    let t := s.vtagOf a
    let ga := s.grp a (tagBits t)
    let gd := s.grp d (tagBits t)
    let s ← s.prepare [ga] [gd] masks usesMask s.hart.vl [(t == .none, 2)]
    .ok ((s.moveElems gd t (f s (elemAt (s.bitsOf ga) ga.bits))).vdone [ga])

/-- `vmv` (R188): a source tagged none is copied at the width of VCFG.TAG. -/
def execVmv (d a : VNum) (_q : Bool) (mk : MNum) (s : State) : Host.Outcome State Fault Refusal :=
  finish do
    s.needRef
    let t := s.vtagOf a
    let w := if t = .none then tagBits s.hart.vcfg.tag else tagBits t
    let ga := s.grp a w
    let gd := s.grp d w
    let s ← s.prepare [ga] [gd] (masksOf mk) (mk.val != 0) s.hart.vl []
    let va := s.bitsOf ga
    .ok ((s.moveElems gd t ((s.actives mk s.hart.vl).map fun i => (i, elemAt va w i))).vdone [ga])

/-- `vmerge` (R188): the mask selects for every element from VSI. -/
def execVmerge (d a b : VNum) (_q _p : Bool) (mk : MNum) (s : State) : Host.Outcome State Fault Refusal :=
  finish do
    s.needRef
    let ta := s.vtagOf a
    let tb := s.vtagOf b
    let ga := s.grp a (tagBits ta)
    let gb := s.grp b (tagBits tb)
    let gd := s.grp d (tagBits ta)
    let s ← s.prepare [ga, gb] [gd] [mk] true s.hart.vl [(ta == .none || tb == .none, 2), (ta != tb, 3)]
    let va := s.bitsOf ga
    let vb := s.bitsOf gb
    .ok ((s.moveElems gd ta ((s.range s.hart.vl).map fun i =>
      (i, if s.mbit mk i then elemAt va ga.bits i else elemAt vb gb.bits i))).vdone [ga, gb])

/-- An instruction without a vector source whose result tag is VCFG.TAG. -/
def vecFill (d : VNum) (mk : MNum) (faults : List (Bool × Nat)) (f : Nat → Nat) (s : State) : Host.Outcome State Fault Refusal :=
  finish do
    s.needRef
    let t := s.hart.vcfg.tag
    let gd := s.grp d (tagBits t)
    let s ← s.prepare [] [gd] (masksOf mk) (mk.val != 0) s.hart.vl faults
    .ok ((s.moveElems gd t ((s.actives mk s.hart.vl).map fun i => (i, f i))).vdone [])

/-- `vsplat` (R188). -/
def execVsplat (d : VNum) (x : XReg) (mk : MNum) (s : State) : Host.Outcome State Fault Refusal :=
  vecFill d mk [] (fun _ => (s.x x).toNat % 2 ^ tagBits s.hart.vcfg.tag) s
/-- `vid` (R188). DEDUCED, log 35. -/
def execVid (d : VNum) (mk : MNum) (s : State) : Host.Outcome State Fault Refusal :=
  vecFill d mk [s.noScale, (!tagInt s.hart.vcfg.tag, 3)] (fun i => i % 2 ^ tagBits s.hart.vcfg.tag) s

/-- `vslideup` (R188). -/
def execVslideup (d a : VNum) (x : XReg) (_q : Bool) (mk : MNum) (s : State) : Host.Outcome State Fault Refusal :=
  let k := (s.x x).toNat
  vecMove d a (masksOf mk) (mk.val != 0)
    (fun s va => ((s.actives mk s.hart.vl).filter fun i => decide (k ≤ i)).map fun i => (i, va (i - k))) s
/-- `vslidedn` (R188, R173). -/
def execVslidedn (d a : VNum) (x : XReg) (_q : Bool) (mk : MNum) (s : State) : Host.Outcome State Fault Refusal :=
  let k := (s.x x).toNat
  vecMove d a (masksOf mk) (mk.val != 0)
    (fun s va => (s.actives mk s.hart.vl).map fun i => (i, regGather s.hart.vlmax va (i + k))) s
/-- `vslide1up` (R188). -/
def execVslide1up (d a : VNum) (x : XReg) (_q : Bool) (mk : MNum) (s : State) : Host.Outcome State Fault Refusal :=
  let y := (s.x x).toNat % 2 ^ tagBits (s.vtagOf a)
  vecMove d a (masksOf mk) (mk.val != 0)
    (fun s va => (s.actives mk s.hart.vl).map fun i => (i, if i = 0 then y else va (i - 1))) s
/-- `vslide1dn` (R188). -/
def execVslide1dn (d a : VNum) (x : XReg) (_q : Bool) (mk : MNum) (s : State) : Host.Outcome State Fault Refusal :=
  let y := (s.x x).toNat % 2 ^ tagBits (s.vtagOf a)
  vecMove d a (masksOf mk) (mk.val != 0)
    (fun s va => (s.actives mk s.hart.vl).map fun i => (i, if i + 1 = s.hart.vl then y else va (i + 1))) s

/-- `vrgather` (R188): an index extended by class and read as unsigned, so that a negative one reads zero. -/
def execVrgather (d a b : VNum) (_q _p : Bool) (mk : MNum) (s : State) : Host.Outcome State Fault Refusal :=
  finish do
    s.needRef
    let t := s.vtagOf a
    let tb := s.vtagOf b
    let ga := s.grp a (tagBits t)
    let gb := s.grp b (tagBits tb)
    let gd := s.grp d (tagBits t)
    let s ← s.prepare [ga, gb] [gd] (masksOf mk) (mk.val != 0) s.hart.vl
      [(t == .none || untyped tb, 2), (!tagInt tb, 3), (tooWide (tagBits t) (tagBits tb), 3)]
    let va := s.bitsOf ga
    let vb := s.bitsOf gb
    .ok ((s.moveElems gd t ((s.actives mk s.hart.vl).map fun i =>
      (i, regGather s.hart.vlmax (elemAt va ga.bits) (ofInt 64 (indexInt tb (elemAt vb gb.bits i)))))).vdone [ga, gb])

/-- `vcompress` (R189): selected elements packed from VSI. -/
def execVcompress (d a : VNum) (_q : Bool) (mk : MNum) (s : State) : Host.Outcome State Fault Refusal :=
  vecMove d a [mk] true
    (fun s va => ((s.range s.hart.vl).filter (s.mbit mk)).zipIdx.map fun (i, j) => (s.hart.vsi + j, va i)) s
/-- `vexpand` (R189): elements from VSI spread to the selected places. -/
def execVexpand (d a : VNum) (_q : Bool) (mk : MNum) (s : State) : Host.Outcome State Fault Refusal :=
  vecMove d a [mk] true
    (fun s va => ((s.range s.hart.vl).filter (s.mbit mk)).zipIdx.map fun (i, j) => (i, va (s.hart.vsi + j))) s

/-- Counts of set positions before each index of a list. -/
def prefixCounts (p : Nat → Bool) : List Nat → Nat → List (Nat × Nat)
  | [], _ => []
  | i :: is, n => (i, n) :: prefixCounts p is (if p i then n + 1 else n)

/-- `vpfxpop` (R189): VCFG.TAG must be integer; counts wrap. DEDUCED, log 35. -/
def execVpfxpop (d : VNum) (a : MNum) (s : State) : Host.Outcome State Fault Refusal :=
  finish do
    s.needRef
    let t := s.hart.vcfg.tag
    let gd := s.grp d (tagBits t)
    let s ← s.prepare [] [gd] [a] true s.hart.vl [s.noScale, (!tagInt t, 3)]
    .ok ((s.moveElems gd t ((prefixCounts (s.mbit a) (s.range s.hart.vl) 0).map fun (i, n) => (i, n % 2 ^ tagBits t))).vdone [])

/-- The signed tag of the width of a 32- or 64-bit integer tag. -/
def signedOf : Tag → Tag
  | .ui32 => .i32
  | .ui64 => .i64
  | t => t

/-- The last index of a list of earlier ones with the same element. -/
def lastSame (va : Nat → Nat) (x : Nat) (l : List Nat) : Option Nat := (l.filter fun j => va j == x).getLast?

/-- `vconflict` (R189). -/
def execVconflict (d a : VNum) (_q : Bool) (mk : MNum) (s : State) : Host.Outcome State Fault Refusal :=
  finish do
    s.needRef
    let t := s.vtagOf a
    let ga := s.grp a (tagBits t)
    let gd := s.grp d (tagBits t)
    let s ← s.prepare [ga] [gd] (masksOf mk) (mk.val != 0) s.hart.vl
      [s.noScale, (untyped t, 2), (!([Tag.i32, .ui32, .i64, .ui64].contains t), 3)]
    let va := elemAt (s.bitsOf ga) ga.bits
    let acts := s.actives mk s.hart.vl
    .ok ((s.moveElems gd (signedOf t) (acts.map fun i =>
      (i, match lastSame va (va i) (acts.filter fun j => decide (j < i)) with
          | some j => j
          | none => 2 ^ tagBits t - 1))).vdone [ga])

/-- A segmented scan: the running value restarts at the first index and at each head (R189). -/
def scanSeg (op : Nat → Nat → FRes) (va : Nat → Nat) (head : Nat → Bool) : List Nat → Option Nat → List (Nat × FRes)
  | [], _ => []
  | i :: is, acc =>
    let r : FRes := match acc with
      | none => .plain (va i)
      | some v => if head i then .plain (va i) else op v (va i)
    (i, r) :: scanSeg op va head is (some r.bits)

/-- The flags of a list of results. -/
def flagsOr (l : List (Nat × FRes)) : Flags := l.foldr (fun (_, r) f => orFlags r.flags f) noFlags

/-- A segmented scan instruction (R189). -/
def vecScan (d a : VNum) (mk : MNum) (rm : Option Rounding) (k : ArithOp) (s : State) : Host.Outcome State Fault Refusal :=
  finish do
    let m ← s.mode rm
    s.needRef
    let t := s.vtagOf a
    let ga := s.grp a (tagBits t)
    let gd := s.grp d (tagBits t)
    let s ← s.prepare [ga] [gd] (masksOf mk) (mk.val != 0) s.hart.vl [s.noScale, (untyped t, 2)]
    let l := scanSeg (arithOp k t m false) (elemAt (s.bitsOf ga) ga.bits) (fun i => mk.val != 0 && s.mbit mk i) (s.range s.hart.vl) none
    .ok (((s.moveElems gd t (l.map fun (i, r) => (i, r.bits))).raise (flagsOr l) false).vdone [ga])

/-- `vscan.seg.add` (R189). -/
def execVscanSegAdd (d a : VNum) (_q : Bool) (mk : MNum) (rm : Option Rounding) (s : State) : Host.Outcome State Fault Refusal :=
  vecScan d a mk rm .add s
/-- `vscan.seg.min` (R189). -/
def execVscanSegMin (d a : VNum) (_q : Bool) (mk : MNum) (rm : Option Rounding) (s : State) : Host.Outcome State Fault Refusal :=
  vecScan d a mk rm .min s
/-- `vscan.seg.max` (R189). -/
def execVscanSegMax (d a : VNum) (_q : Bool) (mk : MNum) (rm : Option Rounding) (s : State) : Host.Outcome State Fault Refusal :=
  vecScan d a mk rm .max s

/-! ### Reductions (R69, R70, R190, R191) -/

/-- An operand of a reduction: absent, or a value with the flags raised on the way to it. -/
abbrev Part := Option Nat × Flags

/-- Two operands combined; an absent one leaves the other unchanged (R69). -/
def combine (op : Nat → Nat → FRes) (a b : Part) : Part :=
  match a, b with
  | (some x, f), (some y, g) => let r := op x y; (some r.bits, orFlags r.flags (orFlags f g))
  | (some x, f), (none, g) => (some x, orFlags f g)
  | (none, f), (b, g) => (b, orFlags f g)

/-- The tree of R69 over a list of elements, at most `fuel` levels deep. -/
def treeFold (op : Nat → Nat → FRes) : Nat → List Part → Part
  | _, [] => (none, noFlags)
  | _, [x] => x
  | 0, x :: _ => x
  | fuel + 1, l =>
    let h := 2 ^ (ceilLog2 l.length - 1)
    combine op (treeFold op fuel (l.take h)) (treeFold op fuel (l.drop h))

/-- The whole of a tree reduction with its initial value (R190). -/
def treeReduce (op : Nat → Nat → FRes) (l : List Part) (init : FRes) : FRes :=
  match combine op (treeFold op 64 l) (some init.bits, init.flags) with
  | (some x, f) => ⟨x, f, false⟩
  | (none, f) => ⟨init.bits, f, false⟩

/-- An ordered sum (R70). -/
def orderedSum (op : Nat → Nat → FRes) : List FRes → FRes → FRes
  | [], acc => acc
  | x :: xs, acc => orderedSum op xs ((op acc.bits x.bits).joined acc x)

/-- A reduction (R190): `f` combines the elements of va, none where inactive, in the result tag, with the initial value; it is given the
active elements to perform. With VSI at VL or above, VL = 0 among it, nothing is written (R20, R180; DESIGN CHOICE, log 64, beside
R190 and R191). The ordered form may stop at an element: vd[0] holds the running partial and VSI names the element (R19, R191). -/
def vecReduce (d a b : VNum) (mk : MNum) (rm : Option Rounding) (ok : Tag → Bool) (ordered : Bool)
    (f : State → Tag → Rounding → List Nat → (Nat → FRes) → FRes → FRes) (s : State) : Host.Outcome State Fault Refusal :=
  finish do
    let m ← s.mode rm
    s.needRef
    let ta := s.vtagOf a
    let tb := s.vtagOf b
    let ga := s.grp a (tagBits ta)
    let gb := s.grp b (tagBits tb)
    let p := promote ta tb
    let t := p.getD .none
    let gd := s.grp d (tagBits t)
    let s ← s.prepare [ga, gb] (if p.isSome then [gd] else []) (masksOf mk) (mk.val != 0) s.hart.vl
      [s.noScale, (untyped ta || untyped tb, 2), (p.isNone, 3), (!ok t, 3), (ordered && gd.overlaps ga, 6)]
    if s.hart.vl ≤ s.hart.vsi then .ok (s.vdone [ga, gb])
    else
      let va := s.bitsOf ga
      let init := convElem tb t m (elemAt (s.bitsOf gb) gb.bits 0)
      let init := if ordered && s.hart.vsi != 0 then .plain (elemAt (s.bitsOf gd) gd.bits 0) else init
      let all := s.actives mk s.hart.vl
      let (acts, left) := if ordered then s.share all else (all, none)
      let r := f s t m acts (fun i => convElem ta t m (elemAt va ga.bits i)) init
      let s' := (s.writeGroup gd (some t) [(0, r.bits)]).raise r.flags false
      .ok (match left with
        | none => s'.vdone [ga, gb]
        | some k => if k = s.hart.vsi then s else s'.setVsi k)

/-- A tree reduction (R69, R190): elements below VSI and inactive ones are absent. -/
def vecTree (d a b : VNum) (mk : MNum) (rm : Option Rounding) (k : ArithOp) (s : State) : Host.Outcome State Fault Refusal :=
  vecReduce d a b mk rm (fun t => k.floats || tagInt t) false
    (fun s t m _ x init => treeReduce (arithOp k t m false)
      ((List.range s.hart.vl).map fun i =>
        if decide (s.hart.vsi ≤ i) && s.active mk i then (some (x i).bits, (x i).flags) else (none, noFlags)) init) s

/-- `vred.add` (R190). -/
def execVredAdd (d a b : VNum) (_q _p : Bool) (mk : MNum) (rm : Option Rounding) (s : State) : Host.Outcome State Fault Refusal :=
  vecTree d a b mk rm .add s
/-- `vred.min` (R190). -/
def execVredMin (d a b : VNum) (_q _p : Bool) (mk : MNum) (rm : Option Rounding) (s : State) : Host.Outcome State Fault Refusal :=
  vecTree d a b mk rm .min s
/-- `vred.max` (R190). -/
def execVredMax (d a b : VNum) (_q _p : Bool) (mk : MNum) (rm : Option Rounding) (s : State) : Host.Outcome State Fault Refusal :=
  vecTree d a b mk rm .max s
/-- `vred.and` (R190). -/
def execVredAnd (d a b : VNum) (_q _p : Bool) (mk : MNum) (rm : Option Rounding) (s : State) : Host.Outcome State Fault Refusal :=
  vecTree d a b mk rm .and s
/-- `vred.or` (R190). -/
def execVredOr (d a b : VNum) (_q _p : Bool) (mk : MNum) (rm : Option Rounding) (s : State) : Host.Outcome State Fault Refusal :=
  vecTree d a b mk rm .or s
/-- `vred.xor` (R190). -/
def execVredXor (d a b : VNum) (_q _p : Bool) (mk : MNum) (rm : Option Rounding) (s : State) : Host.Outcome State Fault Refusal :=
  vecTree d a b mk rm .xor s

/-- `vfred.ord` (R191): stopped at VSI it goes on from vd[0]. -/
def execVfredOrd (d a b : VNum) (_q _p : Bool) (mk : MNum) (rm : Option Rounding) (s : State) : Host.Outcome State Fault Refusal :=
  vecReduce d a b mk rm tagFloat true
    (fun _ t m acts x init => orderedSum (arithOp .add t m false) (acts.map x) init) s

/-! ### Exact accumulators (R72, R73, R196 to R198) -/

/-- An exact accumulator of the hart. -/
def State.acc (s : State) (e : ENum) : EReg := s.hart.e[e.val]
/-- Writing it. -/
def State.setAcc (s : State) (e : ENum) (k : EReg) : State := { s with hart := { s.hart with e := s.hart.e.set e.val k } }

/-- One term added (R72): the accumulator and whether NV is raised. -/
def EReg.add (k : EReg) (t : FVal) : EReg × Bool :=
  match t with
  | .fin neg m e => ({ k with a := toSigned 4352 (ofInt 4352 (k.a + scaledInt neg m e (-2148))) }, false)
  | .inf false => ({ k with pinf := true }, false)
  | .inf true => ({ k with ninf := true }, false)
  | .nan sig => ({ k with nan := true }, sig)

/-- Terms added in turn. -/
def EReg.addAll (k : EReg) : List FVal → EReg × Bool
  | [] => (k, false)
  | t :: ts =>
    let (k, b) := k.add t
    let (k, b') := k.addAll ts
    (k, b || b')

/-- The read-out (R73). -/
def EReg.read (k : EReg) (f : Fmt) (rm : Rounding) : FRes :=
  if k.nan then .plain f.nanBits
  else if k.pinf && k.ninf then ⟨f.nanBits, flagNv true, false⟩
  else if k.pinf then .plain (f.infBits false)
  else if k.ninf then .plain (f.infBits true)
  else f.finResult rm false (decide (k.a < 0)) k.a.natAbs (-2148)

/-- The trap of a poisoned accumulator (R356). -/
def State.accOk (s : State) (e : ENum) : Run Unit := s.require (!(s.acc e).poison) s.registerBad

/-- `xa.clr` (R72, R196). -/
def execXaClr (e : ENum) (s : State) : Host.Outcome State Fault Refusal := .next (s.setAcc e {}).retire

/-- The value of an element of a floating tag. -/
def elemValue (t : Tag) (x : Nat) : FVal := match tagFmt t with | some f => f.value x | none => .fin false 0 0

/-- `xa.addv` (R196). -/
def execXaAddv (e : ENum) (a : VNum) (_q : Bool) (mk : MNum) (s : State) : Host.Outcome State Fault Refusal :=
  finish do
    s.needRef
    let t := s.vtagOf a
    let ga := s.grp a (tagBits t)
    let s ← s.prepare [ga] [] (masksOf mk) (mk.val != 0) s.hart.vl [s.noScale, (untyped t, 2), (!tagFloat t, 3)]
    s.accOk e
    let va := s.bitsOf ga
    let (k, nv) := (s.acc e).addAll ((s.actives mk s.hart.vl).map fun i => elemValue t (elemAt va ga.bits i))
    .ok (((s.setAcc e k).raise (flagNv nv) false).vdone [ga])

/-- `xa.dot` (R196): exact products, any two floating tags. -/
def execXaDot (e : ENum) (a b : VNum) (_q _p : Bool) (mk : MNum) (s : State) : Host.Outcome State Fault Refusal :=
  finish do
    s.needRef
    let ta := s.vtagOf a
    let tb := s.vtagOf b
    let ga := s.grp a (tagBits ta)
    let gb := s.grp b (tagBits tb)
    let s ← s.prepare [ga, gb] [] (masksOf mk) (mk.val != 0) s.hart.vl
      [s.noScale, (untyped ta || untyped tb, 2), (!(tagFloat ta && tagFloat tb), 3)]
    s.accOk e
    let va := s.bitsOf ga
    let vb := s.bitsOf gb
    let (k, nv) := (s.acc e).addAll ((s.actives mk s.hart.vl).map fun i =>
      (elemValue ta (elemAt va ga.bits i)).times (elemValue tb (elemAt vb gb.bits i)))
    .ok (((s.setAcc e k).raise (flagNv nv) false).vdone [ga, gb])

/-- The format of a read-out tag. -/
def readFmt (t : Tag) : Fmt := (tagFmt t).getD fmt64

/-- `xa.rd` (R197). -/
def execXaRd (d : XReg) (e : ENum) (t : Tag) (rm : Option Rounding) (s : State) : Host.Outcome State Fault Refusal :=
  finish do
    let m ← s.mode rm
    s.accOk e
    let r := (s.acc e).read (readFmt t) m
    .ok ((s.setX d (BitVec.ofNat 64 r.bits)).raise r.flags false).retire

/-- `xa.rdv` (R197). A vd tagged none or sc8 has reason 2, other excluded tags reason 3 (DESIGN CHOICE, log 64). -/
def execXaRdv (d : VNum) (e : ENum) (x : XReg) (rm : Option Rounding) (s : State) : Host.Outcome State Fault Refusal :=
  finish do
    let m ← s.mode rm
    s.needRef
    let t := s.vtagOf d
    let gd := s.grp d (tagBits t)
    let i := (s.x x).toNat
    let s ← s.prepare [] [gd] [] false 0 [s.noScale, (untyped t, 2), (!specialTag t, 3), (decide (s.hart.vlmax ≤ i), 5)]
    s.accOk e
    let r := (s.acc e).read (readFmt t) m
    .ok ((s.writeGroup gd none [(i, r.bits)]).raise r.flags false).retire

/-- The addresses of the 69 words of an image. -/
def imageWords (ea : Word) : List Word := (List.range 69).map fun k => ea + BitVec.ofNat 64 (8 * k)

/-- The words of an image with their numbers, once items 1 to 3 of R148 hold for all of them; else the lowest word that fails, by the
check that it fails itself (DESIGN CHOICE, log 64). -/
def State.imageLocs (s : State) (k : Access) (ea : Word) : Except Reject (List (Nat × List (Word × Loc))) :=
  (s.checkWords k 8 (imageWords ea)).map fun ls => ls.zipIdx.map fun (l, i) => (i, [l])

/-- `xa.ld` (R198): a target that refuses, or uncorrectable data, leaves eN as it was. -/
def execXaLd (e : ENum) (a : XReg) (_hint : Hint) (s : State) : Host.Outcome State Fault Refusal :=
  finish do
    let s := s.drain
    let ls ← s.orTrap (s.imageLocs .load (s.x a))
    match s.readElems 8 ls with
    | (_, s, some (_, r)) => s.trap (s.trapOf r)
    | (out, s, none) => .ok (s.setAcc e (EReg.ofImage (packWords (out.flatMap (·.2))))).retire

/-- `xa.st` (R198): a check that fails stops the whole of it, a target that refuses word k leaves the words before it; a
live barrier word stops all (R252). -/
def execXaSt (e : ENum) (a : XReg) (s : State) : Host.Outcome State Fault Refusal :=
  finish do
    let s := s.drain
    s.accOk e
    let ls ← s.orTrap (s.imageLocs .store (s.x a))
    let img := (s.acc e).image
    match s.strip?.isNone, (ls.flatMap (·.2)).find? fun l => s.liveWord l.2 with
    | true, some l => s.trap (s.trapOf { cause := 0x08, addr := l.1.toNat })
    | _, _ =>
      match s.writeElems .through 8 (fun _ => none) (fun k => [bitsAt img (64 * k) 64]) ls with
      | (s, some (_, r)) => s.trap (s.trapOf r)
      | (s, none) => .ok s.retire

/-! ### Vectors and scalars (R199) -/

/-- An element extended by class to 64 bits (R199). -/
def extendElem (t : Tag) (x : Nat) : Word := if tagSigned t then BitVec.ofInt 64 (toSigned (tagBits t) x) else BitVec.ofNat 64 x

/-- `vmv.xv` (R199). -/
def execVmvXv (d : XReg) (a : VNum) (x : XReg) (_q : Bool) (s : State) : Host.Outcome State Fault Refusal :=
  finish do
    s.needRef
    let t := s.vtagOf a
    let ga := s.grp a (tagBits t)
    let s ← s.prepare [ga] [] [] false 0 [(t == .none, 2)]
    let v := regGather s.hart.vlmax (elemAt (s.bitsOf ga) ga.bits) (s.x x).toNat
    .ok ((s.setX d (extendElem t v)).advance (s.boundBy [ga])).retire

/-- `vmv.vx` (R199). -/
def execVmvVx (d : VNum) (a b : XReg) (s : State) : Host.Outcome State Fault Refusal :=
  finish do
    s.needRef
    let t := s.vtagOf d
    let gd := s.grp d (tagBits t)
    let i := (s.x a).toNat
    let s ← s.prepare [] [gd] [] false 0 [(t == .none, 2), (decide (s.hart.vlmax ≤ i), 5)]
    .ok (s.writeGroup gd none [(i, (s.x b).toNat % 2 ^ tagBits t)]).retire

end Sys2Proof.Machine
end

