-- ==== Sys2Proof/Machine/Fibre.lean ====
section
/-! DEFINITION. Fibre instructions, majors 0x40 to 0x42 (10 R200 to R216, R384, 02 R39). -/

namespace Sys2Proof.Machine

/-! ### Fibres -/

/-- A fibre register. -/
def State.q (s : State) (r : QNum) : QReg := s.hart.q[r.val]
/-- Writing a fibre register: its planes have been written (R52). -/
def State.setQ (s : State) (r : QNum) (k : QReg) : State :=
  { s with hart := { s.hart with q := s.hart.q.set r.val { k with fresh := false } } }
/-- QPOS written. -/
def State.setQpos (s : State) (k : Qpos) : State := { s with hart := { s.hart with qpos := k } }
/-- The count n. -/
def QReg.n (k : QReg) : Nat := k.entries.length

/-- Entries 0 to po − 1 of a fibre that goes on under a tag; those at or above its count are zero in planes that nothing has
written (R52), else free values (R39, DESIGN CHOICE, log 14). -/
def State.keepEntries (s : State) (r : QNum) (po : Nat) (t : Tag) : List (Nat × Nat) × State :=
  let q := s.q r
  let k := (q.entries.take po).map fun e => (e.1, narrowValue t e.2)
  if k.length = po then (k, s)
  else if q.fresh then (k ++ List.replicate (po - k.length) (0, 0), s)
  else
    let (c, s) := s.fresh
    (k ++ (List.range (po - k.length)).map fun i =>
      let e := Config.staleEntry c (k.length + i)
      (e.1.toNat, narrowValue t e.2.toNat), s)

/-- Whether a fibre's storage stays poisoned when it is written from entry po on (R356). -/
def QReg.keepsPoison (k : QReg) (po : Nat) : Bool := k.poison && po != 0

/-- A value that `qcompact` and `qfromv` drop: integer 0 or floating ±0 (R213). -/
def isZeroElem (t : Tag) (x : Nat) : Bool := if tagFloat t then x % 2 ^ (tagBits t - 1) == 0 else x == 0

/-- QPOS.PO above FCAP (R202). -/
def State.poBad (s : State) : Bool × Nat := (decide (s.hart.fcap < s.hart.qpos.po), 5)

/-- Poisoned fibres among the sources (R356). -/
def State.fibresOk (s : State) (l : List QNum) : Run Unit := s.require (!l.any fun r => (s.q r).poison) s.registerBad

/-- Condition 1 of R202: bases, then groups above 8 registers. -/
def State.groupsOk (s : State) (gs : List Grp) : Run Unit := do
  s.require (gs.all Grp.aligned) (s.tagFault 1)
  s.require (gs.all Grp.fits) (s.tagFault 5)

/-- QPOS.PO as a divisible load or store of fibres leaves it. -/
def State.setPo (s : State) (n : Nat) : State := s.setQpos { s.hart.qpos with po := n }

/-- The entries from po that a divisible fibre instruction performs in this turn, of those up to m, and whether it stops before m
(R19, DESIGN CHOICE, log 61). -/
def State.entryShare (s : State) (po m : Nat) : Nat × Bool :=
  match s.hart.limit with
  | none => (m - po, false)
  | some n => (Nat.min n (m - po), decide (n < m - po))

/-! ### Loads, walks and stores (R207 to R209) -/

/-- The checks of one entry before any entry performs: the coordinate at 4 bytes, then the value at w bytes. -/
def State.checkEntry (s : State) (k : Access) (ca va : Word) (w : Nat) : Except Reject (Loc × Loc) := do
  let lc ← s.resolveIn s.hart.ctx k ca.toNat 4 4
  let lv ← s.resolveIn s.hart.ctx k va.toNat w w
  .ok (lc, lv)

/-- Address of entry j of a plane. -/
def planeEntry (base : Word) (w j : Nat) : Word := base + BitVec.ofNat 64 (w * j)

/-- The checks of `n` entries from j: those that can perform and the first that cannot. -/
def State.checkEntries (s : State) (k : Access) (cb vb : Word) (w : Nat) :
    Nat → Nat → List (Nat × Loc × Loc) × Option (Nat × Reject)
  | 0, _ => ([], none)
  | n + 1, j =>
    match s.checkEntry k (planeEntry cb 4 j) (planeEntry vb w j) w with
    | .error r => ([], some (j, r))
    | .ok l =>
      let (rest, bad) := s.checkEntries k cb vb w n (j + 1)
      ((j, l) :: rest, bad)

/-- One entry read: its coordinate, then its value. -/
def State.readEntry (s : State) (w : Nat) (ca va : Word) (lc lv : Loc) : Except Reject ((Nat × Nat) × State) := do
  let (c, s) ← s.readElem 4 [(ca, lc)]
  let (v, s) ← s.readElem w [(va, lv)]
  .ok ((c.headD 0, v.headD 0), s)

/-- Checked entries read in order. -/
def State.readEntries (s : State) (cb vb : Word) (w : Nat) :
    List (Nat × Loc × Loc) → List (Nat × Nat) × State × Option (Nat × Reject)
  | [] => ([], s, none)
  | (j, lc, lv) :: rest =>
    match s.readEntry w (planeEntry cb 4 j) (planeEntry vb w j) lc lv with
    | .error r => ([], s, some (j, r))
    | .ok (e, s) =>
      let (out, s, bad) := s.readEntries cb vb w rest
      (e :: out, s, bad)

/-- The coordinates of a list never fall. -/
def nonDecreasing : List (Nat × Nat) → Bool
  | a :: b :: rest => decide (a.1 ≤ b.1) && nonDecreasing (b :: rest)
  | _ => true

/-- The tag condition of `qld` and `qwalk` (R207). -/
def loadTagBad (t : Tag) : List (Bool × Nat) := [(t == .sc8, 2), (t == .fp4, 3)]

/-- A fibre whose entries from po on have been loaded: the sorted flag is computed from what is loaded. DEDUCED, log 38. -/
def QReg.loaded (old : QReg) (t : Tag) (po : Nat) (kept out : List (Nat × Nat)) : QReg :=
  { entries := kept ++ out, tag := t, poison := old.keepsPoison po,
    sorted := (po == 0 || old.sorted) && (out.isEmpty || nonDecreasing (kept.drop (po - 1) ++ out)) }

/-- A load that stops after some entries: count, tag and QPOS.PO say how far it came (R205). -/
def State.stopLoad (s : State) (d : QNum) (old : QReg) (po : Nat) (kept out : List (Nat × Nat)) : State :=
  (s.setQ d (old.loaded s.hart.vcfg.tag po kept out)).setPo (po + out.length)

/-- Loading entries PO to min(cnt, FCAP) − 1 (R205, R208). -/
def State.loadFibre (s : State) (d : QNum) (cb vb : Word) (cnt : Nat) : Run State := do
  let t := s.hart.vcfg.tag
  let w := tagBits t / 8
  let po := s.hart.qpos.po
  let old := s.q d
  let (n, stops) := s.entryShare po (Nat.min cnt s.hart.fcap)
  let (kept, s) := s.keepEntries d po t
  let kept := kept.take (Nat.min cnt s.hart.fcap)
  let (ok, bad) := s.checkEntries .load cb vb w n po
  let (out, s, bad') := s.readEntries cb vb w ok
  match bad', bad with
  | some (_, r), _ => .error (s.trapOf r, s.stopLoad d old po kept out)
  | none, some (_, r) => .error (s.trapOf r, s.stopLoad d old po kept out)
  | none, none =>
    if stops then .ok (s.stopLoad d old po kept out)
    else .ok ((((s.setQ d (old.loaded t po kept out)).setPo 0).setC 7 (decide (s.hart.fcap < cnt))).retire)

/-- `qld` (R208). -/
def execQld (d : QNum) (v : XReg) (_hint : Hint) (s : State) : Host.Outcome State Fault Refusal :=
  finish do
    s.needRef
    let s ← s.drain.prepare [] [] [] false 0 (s.poBad :: loadTagBad s.hart.vcfg.tag)
    s.loadFibre d (s.x v) (s.x (v + 1)) (s.x (v + 2)).toNat

/-- `qwalk` and `qwalk.d`: two positions of pw bytes are read first (R208); a fault there is a stop with nothing more loaded (R205; the
sorted flag, log 64). -/
def walkFibre (pw : Nat) (d : QNum) (v : XReg) (s : State) : Host.Outcome State Fault Refusal :=
  finish do
    s.needRef
    let s ← s.drain.prepare [] [] [] false 0 (s.poBad :: loadTagBad s.hart.vcfg.tag)
    let i := (s.x (v + 3)).toNat
    let addrs := [planeEntry (s.x v) pw i, planeEntry (s.x v) pw (i + 1)]
    match (do let ls ← s.checkWords .load pw addrs; s.readElem pw ls : Except Reject (List Nat × State)) with
    | .error r =>
      let po := s.hart.qpos.po
      let (kept, s') := s.keepEntries d po s.hart.vcfg.tag
      .error (s.trapOf r, s'.stopLoad d (s.q d) po kept [])
    | .ok (ps, s) =>
      let b := ps.getD 0 0
      let e := ps.getD 1 0
      s.require (decide (b ≤ e)) (s.fibreOrder 2)
      s.loadFibre d (planeEntry (s.x (v + 1)) 4 b) (planeEntry (s.x (v + 2)) (tagBits s.hart.vcfg.tag / 8) b) (e - b)

/-- `qwalk` (R208). -/
def execQwalk (d : QNum) (v : XReg) (_hint : Hint) (s : State) : Host.Outcome State Fault Refusal := walkFibre 4 d v s
/-- `qwalk.d` (R208). -/
def execQwalkD (d : QNum) (v : XReg) (_hint : Hint) (s : State) : Host.Outcome State Fault Refusal := walkFibre 8 d v s

/-- Checked entries stored in order, each coordinate before its value: a value that is refused leaves its coordinate written (R207). -/
def State.writeEntries (s : State) (cb vb : Word) (w : Nat) (es : List (Nat × Nat)) :
    List (Nat × Loc × Loc) → State × Option (Nat × Reject)
  | [] => (s, none)
  | (j, lc, lv) :: rest =>
    let e := es[j]?.getD (0, 0)
    match s.writeElem .through 4 none [(planeEntry cb 4 j, lc)] [e.1] with
    | .error r => (s, some (j, r))
    | .ok s =>
      match s.writeElem .through w none [(planeEntry vb w j, lv)] [e.2] with
      | .error r => (s, some (j, r))
      | .ok s => s.writeEntries cb vb w es rest

/-- `qst` (R209). DEDUCED, log 38. -/
def execQst (a : QNum) (v : XReg) (s : State) : Host.Outcome State Fault Refusal :=
  finish do
    let k := s.q a
    let s ← s.drain.prepare [] [] [] false 0
      [s.poBad, (decide (0 < k.n) && untyped k.tag, 2), (decide (0 < k.n) && k.tag == .fp4, 3)]
    s.fibresOk [a]
    let po := s.hart.qpos.po
    let w := tagBits k.tag / 8
    let (n, stops) := s.entryShare po k.n
    let (ok, bad) := s.checkEntries .store (s.x v) (s.x (v + 1)) w n po
    let (s, bad') := s.writeEntries (s.x v) (s.x (v + 1)) w k.entries ok
    match bad', bad with
    | some (j, r), _ => .error (s.trapOf r, s.setPo j)
    | none, some (j, r) => .error (s.trapOf r, s.setPo j)
    | none, none => .ok (if stops then s.setPo (po + n) else (s.setPo 0).retire)

/-! ### Set operations (R210 to R212) -/

/-- The set operations. -/
inductive SetOp where
  | isectMul | isectA | isectB | union | merge | dot
deriving DecidableEq, Repr

/-- One step of the table of R211. -/
inductive SetStep where
  /-- Both sides are spent, or an intersection has lost one. -/
  | finished
  /-- Positions move; an entry may be emitted: from qa, from qb or from both. -/
  | move (da db : Nat) (fromA fromB : Bool)
deriving DecidableEq, Repr

/-- Whether a step of the table emits. -/
def SetStep.emits : SetStep → Bool
  | .finished => false
  | .move _ _ a b => a || b

/-- The table of R211. -/
def SetOp.step (k : SetOp) (a b : Option (Nat × Nat)) : SetStep :=
  match k, a, b with
  | _, none, none => .finished
  | .union, some _, none => .move 1 0 true false
  | .merge, some _, none => .move 1 0 true false
  | .union, none, some _ => .move 0 1 false true
  | .merge, none, some _ => .move 0 1 false true
  | _, some _, none => .finished
  | _, none, some _ => .finished
  | .union, some x, some y =>
    if x.1 < y.1 then .move 1 0 true false else if x.1 = y.1 then .move 1 1 true true else .move 0 1 false true
  | .merge, some x, some y => if x.1 ≤ y.1 then .move 1 0 true false else .move 0 1 false true
  | .dot, some x, some y =>
    if x.1 < y.1 then .move 1 0 false false else if x.1 = y.1 then .move 1 1 false false else .move 0 1 false false
  | _, some x, some y =>
    if x.1 < y.1 then .move 1 0 false false else if x.1 = y.1 then .move 1 1 true true else .move 0 1 false false

/-- How a set operation ends (R205). -/
inductive SetOutcome where
  | finished | full | stopped
deriving DecidableEq, Repr

/-- What a set operation comes to: emitted entries, pairs of equal coordinates, positions, how it ended. -/
structure SetEnd where
  out   : List (Nat × Nat) := []
  pairs : List (Nat × Nat) := []
  pa    : Nat := 0
  pb    : Nat := 0
  how   : SetOutcome := .finished
  flags : Flags := {}
  sat   : Bool := false
deriving DecidableEq, Repr

/-- The loop of R211, at most so many steps; `emit` gives the value of an entry from what is present. -/
def setLoop (k : SetOp) (emit : Option Nat → Option Nat → FRes) (room : Nat) (as bs : List (Nat × Nat)) :
    Nat → Nat → Nat → Nat → SetEnd
  | 0, pa, pb, _ => { pa := pa, pb := pb, how := .stopped }
  | fuel + 1, pa, pb, po =>
    let a := as[pa]?
    let b := bs[pb]?
    match k.step a b with
    | .finished => { pa := pa, pb := pb }
    | .move da db fa fb =>
      if (fa || fb) && po == room then { pa := pa, pb := pb, how := .full }
      else
        let e := setLoop k emit room as bs fuel (pa + da) (pb + db) (if fa || fb then po + 1 else po)
        let x := a.getD (0, 0)
        let y := b.getD (0, 0)
        if fa || fb then
          let r := emit (if fa then some x.2 else none) (if fb then some y.2 else none)
          { e with out := (if fa then x.1 else y.1, r.bits) :: e.out, flags := orFlags r.flags e.flags, sat := r.sat || e.sat }
        else if da = 1 ∧ db = 1 then { e with pairs := (x.2, y.2) :: e.pairs }
        else e

/-- The steps that a set operation takes in this turn (R19, DESIGN CHOICE, log 61): all, and one that finds it finished, or fewer. -/
def State.stepShare (s : State) (a b : QReg) : Nat :=
  let all := a.n + b.n + 1
  match s.hart.limit with
  | none => all
  | some n => Nat.min n all

/-- Promotion under rule 1 of R64 alone (R203). -/
def promoteExact (a b : Tag) : Option Tag :=
  match promote a b with
  | some t => if tagContains t a && tagContains t b then some t else none
  | none => none

/-- The tags of two inputs where an empty one is treated as carrying the other's (R384). -/
def inputTags (a b : QReg) : Tag × Tag :=
  if a.n = 0 ∧ b.n = 0 then (let t := if a.tag = .none then b.tag else a.tag; (t, t))
  else if a.n = 0 then (b.tag, b.tag)
  else if b.n = 0 then (a.tag, a.tag)
  else (a.tag, b.tag)

/-- The value that a set operation emits, in a result tag (R211, R212). -/
def emitValue (k : SetOp) (ta tb t : Tag) (m : Rounding) (sat : Bool) (a b : Option Nat) : FRes :=
  match k, a, b with
  | .isectMul, some x, some y => mixedOp ta tb t m (arithOp .mul t m sat) x y
  | .union, some x, some y => mixedOp ta tb t m (arithOp .add t m sat) x y
  | .union, some x, none => (convertTag ta t m false x).getD (.plain 0)
  | .union, none, some y => (convertTag tb t m false y).getD (.plain 0)
  | .isectB, _, some y => .plain y
  | _, some x, _ => .plain x
  | _, none, some y => .plain y
  | _, none, none => .plain 0

/-- The inputs must be sorted (R202). -/
def State.sortedOk (s : State) (a b : QNum) : Run Unit := do
  s.require (s.q a).sorted (s.fibreOrder 0)
  s.require (s.q b).sorted (s.fibreOrder 1)

/-- A set operation that writes a fibre (R205, R211). `t` is its result tag, none where a tag condition fails. -/
def setInstr (k : SetOp) (d a b : QNum) (m : Rounding) (sat : Bool) (t : Option Tag) (s : State) : Run State := do
  let qa := s.q a
  let qb := s.q b
  let (ta, tb) := inputTags qa qb
  let s ← s.prepare [] [] [] false 0 [s.poBad, (t.isNone, 3)]
  s.sortedOk a b
  s.fibresOk [a, b]
  let t := t.getD .none
  let p := s.hart.qpos
  let old := s.q d
  let (kept, s) := s.keepEntries d p.po t
  let e := setLoop k (emitValue k ta tb t m sat) s.hart.fcap qa.entries qb.entries (s.stepShare qa qb)
    (Nat.min p.pa qa.n) (Nat.min p.pb qb.n) p.po
  let out := kept ++ e.out
  let s := (s.setQ d { entries := out, tag := t, sorted := true, poison := old.keepsPoison p.po }).raise e.flags e.sat
  .ok (match e.how with
    | .finished => ((s.setQpos ⟨0, 0, 0⟩).setC 7 false).retire
    | .full => ((s.setQpos ⟨0, e.pb, e.pa⟩).setC 7 true).retire
    | .stopped => s.setQpos ⟨out.length, e.pb, e.pa⟩)

/-- The result tag of `qisect.mul` and `qunion.add` (R203, R210, R384). -/
def promotedTag (a b : QReg) : Option Tag :=
  let (ta, tb) := inputTags a b
  if a.n = 0 ∧ b.n = 0 then some ta else promoteExact ta tb

/-- `qisect.mul` (R211). -/
def execQisectMul (d a b : QNum) (rm : Option Rounding) (sat : Bool) (s : State) : Host.Outcome State Fault Refusal :=
  finish do
    let m ← s.mode rm
    setInstr .isectMul d a b m sat (promotedTag (s.q a) (s.q b)) s
/-- `qisect.a` (R211). -/
def execQisectA (d a b : QNum) (s : State) : Host.Outcome State Fault Refusal :=
  finish (setInstr .isectA d a b .rne false (some (s.q a).tag) s)
/-- `qisect.b` (R211). -/
def execQisectB (d a b : QNum) (s : State) : Host.Outcome State Fault Refusal :=
  finish (setInstr .isectB d a b .rne false (some (s.q b).tag) s)
/-- `qunion.add` (R211, R212). -/
def execQunionAdd (d a b : QNum) (rm : Option Rounding) (sat : Bool) (s : State) : Host.Outcome State Fault Refusal :=
  finish do
    let m ← s.mode rm
    setInstr .union d a b m sat (promotedTag (s.q a) (s.q b)) s
/-- `qmerge` (R210): the value tags must be equal. -/
def execQmerge (d a b : QNum) (s : State) : Host.Outcome State Fault Refusal :=
  let (ta, tb) := inputTags (s.q a) (s.q b)
  finish (setInstr .merge d a b .rne false (if ta = tb then some ta else none) s)

/-- `qdot` (R211, R212): exact products into an accumulator. -/
def execQdot (e : ENum) (a b : QNum) (s : State) : Host.Outcome State Fault Refusal :=
  finish do
    let qa := s.q a
    let qb := s.q b
    let (ta, tb) := inputTags qa qb
    let bad := (decide (0 < qa.n) && !tagFloat qa.tag) || (decide (0 < qb.n) && !tagFloat qb.tag)
    let s ← s.prepare [] [] [] false 0 [s.poBad, (bad, 3)]
    s.sortedOk a b
    s.fibresOk [a, b]
    s.accOk e
    let p := s.hart.qpos
    let r := setLoop .dot (fun _ _ => .plain 0) 0 qa.entries qb.entries (s.stepShare qa qb)
      (Nat.min p.pa qa.n) (Nat.min p.pb qb.n) 0
    let (k, nv) := (s.acc e).addAll (r.pairs.map fun (x, y) => (elemValue ta x).times (elemValue tb y))
    let s := (s.setAcc e k).raise (flagNv nv) false
    .ok (if r.how = .stopped then s.setQpos ⟨p.po, r.pb, r.pa⟩ else ((s.setQpos ⟨0, 0, 0⟩).setC 7 false).retire)

/-! ### Reshapes (R213) -/

/-- Stable insertion by coordinate. -/
def insertEntry (e : Nat × Nat) : List (Nat × Nat) → List (Nat × Nat)
  | [] => [e]
  | k :: rest => if e.1 ≤ k.1 then e :: k :: rest else k :: insertEntry e rest

/-- A stable sort by coordinate. -/
def sortEntries : List (Nat × Nat) → List (Nat × Nat)
  | [] => []
  | e :: rest => insertEntry e (sortEntries rest)

/-- An indivisible reshape. -/
def reshape (d a : QNum) (f : QReg → QReg) (s : State) : Host.Outcome State Fault Refusal :=
  finish do
    s.fibresOk [a]
    .ok (s.setQ d { f (s.q a) with poison := false }).retire

/-- `qsort` (R213). -/
def execQsort (d a : QNum) (s : State) : Host.Outcome State Fault Refusal :=
  reshape d a (fun k => { k with entries := sortEntries k.entries, sorted := true }) s
/-- `qcompact` (R213): a NaN is kept. -/
def execQcompact (d a : QNum) (s : State) : Host.Outcome State Fault Refusal :=
  reshape d a (fun k => { k with entries := k.entries.filter fun e => !isZeroElem k.tag e.2 }) s
/-- `qcompact.m` (R213). -/
def execQcompactM (d a : QNum) (m : MNum) (s : State) : Host.Outcome State Fault Refusal :=
  finish do
    s.fibresOk [a]
    s.require (!s.hart.m[m.val].poison) s.registerBad
    let k := s.q a
    .ok (s.setQ d { k with entries := (k.entries.zipIdx.filter fun (_, j) => s.mbit m j).map (·.1) }).retire

/-! ### Fibres, vectors and scalars (R214 to R216) -/

/-- The destination tag of `qexpand` and `qval` (R214, R384). -/
def State.fibreTag (s : State) (k : QReg) : Tag := if k.n = 0 ∧ k.tag = .none then s.hart.vcfg.tag else k.tag

/-- A move from a fibre into a vector group: VSI is left at 0 (R200). -/
def fibreToVec (a : QNum) (d : VNum) (t : State → QReg → Tag) (f : State → QReg → List (Nat × Nat)) (s : State) :
    Host.Outcome State Fault Refusal :=
  finish do
    s.needRef
    let k := s.q a
    let t := t s k
    let gd := s.grp d (tagBits t)
    s.groupsOk [gd]
    let s ← s.prepare [] [gd] [] false 0 [s.noScale, (untyped t, 2)]
    s.fibresOk [a]
    .ok ((s.writeGroup gd (some t) (f s k)).setVsi 0).retire

/-- `qexpand` (R215). -/
def execQexpand (a : QNum) (v : XReg) (d : VNum) (s : State) : Host.Outcome State Fault Refusal :=
  let x := (s.x v).toNat
  fibreToVec a d State.fibreTag (fun s k =>
    (List.range s.hart.vl).map (fun i => (i, 0)) ++
      (k.entries.filter fun e => decide (x ≤ e.1) && decide (e.1 < x + s.hart.vl)).map fun e => (e.1 - x, e.2)) s
/-- `qcoord` (R215). -/
def execQcoord (a : QNum) (d : VNum) (s : State) : Host.Outcome State Fault Refusal :=
  fibreToVec a d (fun _ _ => .ui32) (fun s k => (k.entries.take s.hart.vl).zipIdx.map fun (e, i) => (i, e.1)) s
/-- `qval` (R215). -/
def execQval (a : QNum) (d : VNum) (s : State) : Host.Outcome State Fault Refusal :=
  fibreToVec a d State.fibreTag (fun s k => (k.entries.take s.hart.vl).zipIdx.map fun (e, i) => (i, e.2)) s

/-- The entries of `qfromv` from index i: those emitted, and the index where it ended full. -/
def fromVec (all : Bool) (t : Tag) (va : Nat → Nat) (base room : Nat) : Nat → Nat → Nat → List (Nat × Nat) × Option Nat
  | 0, _, _ => ([], none)
  | n + 1, i, po =>
    if all || !isZeroElem t (va i) then
      if po = room then ([], some i)
      else
        let (out, r) := fromVec all t va base room n (i + 1) (po + 1)
        ((base + i, va i) :: out, r)
    else fromVec all t va base room n (i + 1) po

/-- `qfromv` and `qfromv.all` (R215), which may stop at an element (R19, DESIGN CHOICE, log 61). -/
def vecToFibre (all : Bool) (d : QNum) (v : XReg) (a : VNum) (s : State) : Host.Outcome State Fault Refusal :=
  finish do
    s.needRef
    let t := s.vtagOf a
    let ga := s.grp a (tagBits t)
    let x := (s.x v).toNat
    let vl := s.hart.vl
    s.groupsOk [ga]
    let s ← s.prepare [ga] [] [] false 0
      [s.noScale, (untyped t, 2), (decide (4096 < vl), 5), (decide (2 ^ 32 < x + vl), 5), s.poBad]
    let p := s.hart.qpos
    let old := s.q d
    let (kept, s) := s.keepEntries d p.po t
    let (n, stops) := s.entryShare p.pa vl
    let (out, full) := fromVec all t (elemAt (s.bitsOf ga) ga.bits) x s.hart.fcap n p.pa p.po
    let es := kept ++ out
    let s := s.setQ d { entries := es, tag := t, sorted := true, poison := old.keepsPoison p.po }
    .ok (match full, stops with
      | some i, _ => ((s.setQpos ⟨0, p.pb, i⟩).setC 7 true).vdone [ga]
      | none, true => s.setQpos ⟨es.length, p.pb, p.pa + n⟩
      | none, false => ((s.setQpos ⟨0, 0, 0⟩).setC 7 false).vdone [ga])

/-- `qfromv` (R215). -/
def execQfromv (d : QNum) (v : XReg) (a : VNum) (s : State) : Host.Outcome State Fault Refusal := vecToFibre false d v a s
/-- `qfromv.all` (R215). -/
def execQfromvAll (d : QNum) (v : XReg) (a : VNum) (s : State) : Host.Outcome State Fault Refusal := vecToFibre true d v a s

/-- `qcnt` (R215). -/
def execQcnt (a : QNum) (d : XReg) (s : State) : Host.Outcome State Fault Refusal :=
  .next (s.setX d (BitVec.ofNat 64 (s.q a).n)).retire
/-- `qclr` (R215): the planes stay as they are. -/
def execQclr (d : QNum) (s : State) : Host.Outcome State Fault Refusal :=
  let k : QReg := { s.q d with entries := [], sorted := true, poison := false }
  .next { s with hart := { s.hart with q := s.hart.q.set d.val k } }.retire

/-- `qscale` (R216). -/
def execQscale (d a : QNum) (v : XReg) (rm : Option Rounding) (sat : Bool) (s : State) : Host.Outcome State Fault Refusal :=
  finish do
    let m ← s.mode rm
    s.fibresOk [a]
    let k := s.q a
    let y := (s.x v).toNat % 2 ^ tagBits k.tag
    let l := k.entries.map fun e => (e.1, arithOp .mul k.tag m sat e.2 y)
    .ok ((s.setQ d { k with entries := l.map fun (c, r) => (c, r.bits) }).raise (flagsOr l) (l.any fun e => e.2.sat)).retire

/-- The result of a reduction of no entries (R216). -/
def emptyReduction (k : ArithOp) (t : Tag) : FRes :=
  match k, tagFmt t with
  | .add, _ => .plain 0
  | _, some f => .plain (f.nanResult false).bits
  | .min, none => .plain (ofInt (tagBits t) (intRange t).2)
  | _, none => .plain (ofInt (tagBits t) (intRange t).1)

/-- `qred` (R216). -/
def fibreReduce (a : QNum) (d : XReg) (m : Rounding) (k : ArithOp) (s : State) : Run State := do
  s.fibresOk [a]
  let q := s.q a
  if q.n = 0 ∧ q.tag = .none then .ok (s.setX d 0).retire
  else
    let r : FRes := match treeFold (arithOp k q.tag m false) 64 (q.entries.map fun e => (some e.2, noFlags)) with
      | (some x, f) => ⟨x, f, false⟩
      | (none, _) => emptyReduction k q.tag
    .ok ((s.setX d (extendElem q.tag r.bits)).raise r.flags false).retire

/-- `qred.add` (R216). -/
def execQredAdd (a : QNum) (d : XReg) (rm : Option Rounding) (s : State) : Host.Outcome State Fault Refusal :=
  finish do
    let m ← s.mode rm
    fibreReduce a d m .add s
/-- `qred.min` (R216). -/
def execQredMin (a : QNum) (d : XReg) (s : State) : Host.Outcome State Fault Refusal := finish (fibreReduce a d .rne .min s)
/-- `qred.max` (R216). -/
def execQredMax (a : QNum) (d : XReg) (s : State) : Host.Outcome State Fault Refusal := finish (fibreReduce a d .rne .max s)

end Sys2Proof.Machine
end

