-- ==== Sys2Proof/Machine/System.lean ====
section
/-! DEFINITION. System instructions, major 0x0B (07 R157, 18 R305, R306, 20 R339, R340). -/

namespace Sys2Proof.Machine

/-- A privileged function at user level traps (R305). -/
def State.kernelOnly (s : State) : Run Unit := s.require (s.hart.priv.level != .user) s.privileged

/-- Every transfer that a fence naming `eng` waits for has completed or failed (R98). -/
def Hart.engIdle (h : Hart) : Bool := h.ch.toList.all fun c => c.state != .running

/-- A page of 2^sh bytes holds both addresses. -/
def samePage (sh a b : Nat) : Bool := a / 2 ^ sh == b / 2 ^ sh

/-- Whether an invalidation of an address, for an ASID or for every one, removes a translation of ASID `k` and G `g` that holds
the address where `holds` says so (R339, R340): an address in the window names all of an ASID, but no global one. -/
def removes (va : Nat) (asid : Option (BitVec 16)) (holds : Bool) (k : Nat) (g : Bool) : Bool :=
  (decide (windowBase ≤ va) || holds) &&
    (match asid with
     | none => true
     | some n => if g then decide (va < windowBase) else k == n.toNat)

/-- A pin is on a translation that an invalidation removes (R338). -/
def Pin.removed (p : Pin) (va : Nat) (asid : Option (BitVec 16)) : Bool :=
  removes va asid (samePage p.page p.addr va) p.asid p.glob

/-- Whether a buffered store's pin is on a translation that an invalidation removes (R338 to R340). -/
def StripRec.pins (r : StripRec) (va : Nat) (asid : Option (BitVec 16)) : Bool :=
  r.pin.isSome && Pin.removed ⟨r.addr, r.page, r.asid, r.glob⟩ va asid

/-- Some hart of the partition holds such a pin. -/
def State.pinned (s : State) (p : Fin 8) (va : Nat) (asid : Option (BitVec 16)) : Bool :=
  s.harts.any fun h => h.place.part == p &&
    (match h.strip with | some st => st.recs.any fun r => r.pins va asid | none => false)

/-- Strips prefetched through a removed translation are dropped, with those behind them (R339). -/
def Stream.keepStrips (b : Stream) (va : Nat) (asid : Option (BitVec 16)) : Stream :=
  { b with strips := b.strips.takeWhile fun f => f.pins.all fun p => !p.removed va asid }

/-- Cached entries on the path of an address, or all of an ASID or partition, and the strips read through them go (R339, R340). -/
def State.dropEntries (s : State) (p : Fin 8) (va : Nat) (asid : Option (BitVec 16)) : State :=
  ({ s with tlb := s.tlb.filter fun e =>
      !(e.part == p && removes va asid (e.page == va / 2 ^ e.span) e.asid e.glob) }).mapHarts fun h =>
    if h.place.part = p then { h with streams := h.streams.map fun (b : Stream) => b.keepStrips va asid } else h

/-- The invalidation protocol (R306, R339, R340): cached entries go on every core of the partition; while a pin on them stands,
or a copy of the hart runs, the instruction waits, tried again at each turn. -/
def State.invalidate (s : State) (va : Nat) (asid : Option (BitVec 16)) : State :=
  let s := s.drain
  let p := s.hart.place.part
  let s := s.dropEntries p va asid
  if s.hart.engIdle && !s.pinned p va asid then s.retire else s

/-- `trap` (R157): a system call; CAUSE 0x10, EPC at the instruction. -/
def execTrap (i : Int) (s : State) : Host.Outcome State Fault Refusal :=
  finish (s.trap ⟨0x10, 0, BitVec.ofInt 64 i⟩)

/-- `ebreak` (R157): CAUSE 0x0F. -/
def execEbreak (s : State) : Host.Outcome State Fault Refusal := finish (s.trap ⟨0x0F, 0, 0⟩)

/-- `kret` (R305); the first one of a switch-pending hart switches it out instead (R349). -/
def execKret (s : State) : Host.Outcome State Fault Refusal :=
  finish do
    s.kernelOnly
    if s.hart.switchPending then .ok (s.wait .switchOut .active)
    else s.returnTo s.hart.priv.epc s.hart.priv.ppl

/-- `mcall` (R305): from kernel level a trap to the monitor; at monitor level an illegal encoding. -/
def execMcall (i : Int) (s : State) : Host.Outcome State Fault Refusal :=
  finish do
    s.kernelOnly
    s.require (s.hart.priv.level == .kernel) s.illegal
    s.trap ⟨0x10, 0, BitVec.ofInt 64 i⟩

/-- `monret` (R305). -/
def execMonret (s : State) : Host.Outcome State Fault Refusal :=
  finish do
    s.require (s.hart.priv.level == .monitor) s.privileged
    s.returnTo s.hart.priv.monpc s.hart.priv.monppl

/-- `invpg` (R305, R306): bits [50:15] of x[a], bits [15:0] of x[s]. -/
def execInvpg (r a : XReg) (s : State) : Host.Outcome State Fault Refusal :=
  finish do
    s.kernelOnly
    .ok (s.invalidate (bitsAt (s.x a).toNat 15 36 * 2 ^ 15) (some ((s.x r).setWidth 16)))

/-- `invpg.g`. -/
def execInvpgG (a : XReg) (s : State) : Host.Outcome State Fault Refusal :=
  finish do
    s.kernelOnly
    .ok (s.invalidate (bitsAt (s.x a).toNat 15 36 * 2 ^ 15) none)

/-- `hend` (R305): the hart ends as R24 states, with a status for its launch. -/
def execHend (st : Fin 4096) (s : State) : Host.Outcome State Fault Refusal :=
  finish do
    s.kernelOnly
    .ok (s.count.endHart st.val)

/-- An illegal encoding (R122, R124): the word and whether it is the second of a pair stand in FINFO. -/
def execIllegalEncoding (w : BitVec 32) (second : Bool) (s : State) : Host.Outcome State Fault Refusal :=
  let s := s.latch w second
  finish (s.trap s.illegal)

end Sys2Proof.Machine
end

