-- ==== Sys2Proof/Machine/Sync.lean ====
section
/-! DEFINITION. Atomics, ordered accesses, fences, waits, barrier objects, farms, guarded strips and the device-side
launch: majors 0x10 to 0x15 (13 R254 to R268, 05 R98 to R100, 01 R31 to R33). -/

namespace Sys2Proof.Machine

/-! ### Atomics -/

/-- The bytes of the size bit (R254). -/
def sizeBytes (z : Bool) : Nat := if z then 8 else 4
/-- A release. -/
def isRel : Order → Bool
  | .rel => true | .ar => true | _ => false
/-- An acquire. -/
def isAcq : Order → Bool
  | .acq => true | .ar => true | _ => false

/-- A target refused by R255. DEDUCED, log 43. -/
def refusal (a : Nat) : Reject := { cause := 0x07, addr := a, why := 2 }

/-- Whether a location is host memory. -/
def Loc.isHost : Loc → Bool
  | .phys a => (match targetOf a with | .host => true | _ => false)
  | .spad _ => false
/-- Whether a location is remote memory. -/
def Loc.isRemote : Loc → Bool
  | .phys a => (match targetOf a with | .remote _ _ => true | _ => false)
  | .spad _ => false
/-- Whether a location is HBM4 of this device. -/
def Loc.isHbm : Loc → Bool
  | .phys a => (match targetOf a with | .hbm => true | _ => false)
  | .spad _ => false

/-- Before an atomic on remote memory: the dirty bytes of the core's copy of its line, and the hart's own wherever they stand, are
written back, and the copy is dropped (R100); bytes that cannot go out are the fault (R371). DEDUCED, log 10. -/
def State.evictFor (s : State) (l : Loc) : Except Reject State :=
  match l with
  | .spad _ => .ok s
  | .phys a =>
    let core := s.hart.place.core
    let line := a / 128 * 128
    let mine := s.rcache.filter fun k =>
      k.line == line && (k.holder == .core core || k.dirty.any fun d => d.hid == s.hart.place.hid)
    match s.stuckIn mine with
    | some b => .error (refusal b)
    | none =>
      let s := mine.foldl State.writeBack s
      .ok { s with rcache := s.rcache.filter fun e => !(e.holder == .core core && e.line == line) }

/-- Where an atomic's operand lies (R148 items 1 to 3, R252, R255). -/
def State.atomicLoc (s : State) (va n : Nat) (hostOk : Bool) : Run Loc := do
  let l ← s.orTrap (s.resolveIn s.hart.ctx .atomic va n n)
  s.require (!l.isHost || hostOk) (s.trapOf (refusal va))
  s.require (!s.liveWord l) (s.trapOf { cause := 0x08, addr := va / 8 * 8 })
  .ok l

/-- What an atomic needs to have gone out before it performs (R99, R100, R371): bytes that were discarded are reported first. -/
def State.beforeAtomic (s : State) (l : Loc) (rel : Bool) : Run State := do
  let s ← s.ordered s.reportLost
  let s ← if rel then s.ordered s.releaseSys else .ok s
  if l.isRemote then s.orTrap (s.evictFor l) else .ok s

/-- The reply of an atomic is lost with a path, and not refused by the device at its other end (R371). -/
def State.replyLost (s : State) (l : Loc) : Bool :=
  match l with
  | .phys a => (match targetOf a with | .remote d _ => s.unreachable d | .hbm => true | _ => false)
  | .spad _ => false

/-- An atomic that its target refuses (R148 item 4). One whose reply is lost with its path may have been performed (R371): a free
value says whether (DESIGN CHOICE, log 8). -/
def State.atomicRefused (s : State) (l : Loc) (n : Nat) (order : Bool) (f : Nat → Option Nat) (e : Reject) : Run (Nat × State) :=
  if e.why ≠ 2 then s.trap (s.trapOf e)
  else do
    let s ← s.beforeAtomic l order
    let (k, s) := s.fresh
    match (if Config.atomicLanded k && s.replyLost l then f (s.readLoc l n) else none) with
    | some v => .error (s.trapOf e, s.writeLoc l n (v % 2 ^ (8 * n)))
    | none => s.trap (s.trapOf e)

/-- One atomic on n bytes (R99, R100, R254 to R256): the old value and the state with the new one, if `f` gives one. -/
def State.atomic (s : State) (va n : Nat) (o : Order) (sc : Scope) (hostOk : Bool) (f : Nat → Option Nat) : Run (Nat × State) := do
  s.noStrip
  let s := s.drain
  let l ← s.atomicLoc va n hostOk
  match s.targetTakes s.hart.place.part .atomic l va n false with
  | .error e => s.atomicRefused l n ((isRel o || isAcq o) && sc == .sys) f e
  | .ok () =>
    let s ← s.beforeAtomic l (isRel o && sc == .sys)
    let (old, s) ← s.orTrap (s.readAt .through l va n)
    let s ← if isAcq o && sc == .sys then s.ordered s.acquireSys else .ok s
    .ok (old, match f old with | some v => s.writeAt .through l va n (v % 2 ^ (8 * n)) | none => s)

/-- The two's-complement pattern of n bytes as a 64-bit register, sign-extended (R256). -/
def extendOld (n v : Nat) : Word := BitVec.ofInt 64 (toSigned (8 * n) v)

/-- An `amo` of major 0x10: `f old s` is the new value. -/
def amo (d a b : XReg) (o : Order) (sc : Scope) (z hostOk : Bool) (f : Nat → Nat → Option Nat) (s : State) :
    Host.Outcome State Fault Refusal :=
  finish do
    let n := sizeBytes z
    let (old, s') ← s.atomic (s.x a).toNat n o sc hostOk fun old => f old ((s.x b).toNat % 2 ^ (8 * n))
    .ok (s'.setX d (extendOld n old)).retire

/-- The smaller or larger of two patterns, signed. -/
def pickSigned (n : Nat) (lo : Bool) (a b : Nat) : Nat :=
  if decide (toSigned (8 * n) a ≤ toSigned (8 * n) b) == lo then a else b

/-- `amo.add` (R256). -/
def execAmoAdd (d a b : XReg) (o : Order) (sc : Scope) (z : Bool) (s : State) : Host.Outcome State Fault Refusal :=
  amo d a b o sc z true (fun x y => some (x + y)) s
/-- `amo.and` (R256). -/
def execAmoAnd (d a b : XReg) (o : Order) (sc : Scope) (z : Bool) (s : State) : Host.Outcome State Fault Refusal :=
  amo d a b o sc z false (fun x y => some (x &&& y)) s
/-- `amo.or` (R256). -/
def execAmoOr (d a b : XReg) (o : Order) (sc : Scope) (z : Bool) (s : State) : Host.Outcome State Fault Refusal :=
  amo d a b o sc z false (fun x y => some (x ||| y)) s
/-- `amo.xor` (R256). -/
def execAmoXor (d a b : XReg) (o : Order) (sc : Scope) (z : Bool) (s : State) : Host.Outcome State Fault Refusal :=
  amo d a b o sc z false (fun x y => some (x ^^^ y)) s
/-- `amo.min` (R256). -/
def execAmoMin (d a b : XReg) (o : Order) (sc : Scope) (z : Bool) (s : State) : Host.Outcome State Fault Refusal :=
  amo d a b o sc z false (fun x y => some (pickSigned (sizeBytes z) true x y)) s
/-- `amo.max` (R256). -/
def execAmoMax (d a b : XReg) (o : Order) (sc : Scope) (z : Bool) (s : State) : Host.Outcome State Fault Refusal :=
  amo d a b o sc z false (fun x y => some (pickSigned (sizeBytes z) false x y)) s
/-- `amo.minu` (R256). -/
def execAmoMinu (d a b : XReg) (o : Order) (sc : Scope) (z : Bool) (s : State) : Host.Outcome State Fault Refusal :=
  amo d a b o sc z false (fun x y => some (Nat.min x y)) s
/-- `amo.maxu` (R256). -/
def execAmoMaxu (d a b : XReg) (o : Order) (sc : Scope) (z : Bool) (s : State) : Host.Outcome State Fault Refusal :=
  amo d a b o sc z false (fun x y => some (Nat.max x y)) s
/-- `amo.swap` (R256). -/
def execAmoSwap (d a b : XReg) (o : Order) (sc : Scope) (z : Bool) (s : State) : Host.Outcome State Fault Refusal :=
  amo d a b o sc z true (fun _ y => some y) s
/-- `amo.cas` (R256): no write when the comparison with x[d] fails. -/
def execAmoCas (d a b : XReg) (o : Order) (sc : Scope) (z : Bool) (s : State) : Host.Outcome State Fault Refusal :=
  amo d a b o sc z true (fun x y => if x = (s.x d).toNat % 2 ^ (8 * sizeBytes z) then some y else none) s

/-- The register after one. -/
def XReg.next (r : XReg) : XReg := Fin.ofNat 32 (r.val + 1)

/-- `cas.q` (R257): 16 bytes against the register pairs d and b. -/
def execCasQ (d a b : XReg) (o : Order) (sc : Scope) (s : State) : Host.Outcome State Fault Refusal :=
  finish do
    let pair (r : XReg) : Nat := (s.x (XReg.next r)).toNat * 2 ^ 64 + (s.x r).toNat
    let (old, s') ← s.atomic (s.x a).toNat 16 o sc true fun old => if old = pair d then some (pair b) else none
    .ok ((s'.setX d (BitVec.ofNat 64 old)).setX (XReg.next d) (BitVec.ofNat 64 (old / 2 ^ 64))).retire

/-- Reading for an acquire at a scope (R99, R256, R260): at sys a remote location is read at its coherence point, and then the
lines of the core and its CAC go. The strip's own bytes are read first (R106). -/
def State.acquireLoad (s : State) (sc : Scope) (va n : Nat) : Run (Nat × State) :=
  if sc = .sys then do
    let (v, s) ← s.orTrap (s.load .through va n)
    .ok (v, ← s.ordered s.acquireSys)
  else s.orTrap (s.load .cached va n)

/-- `ld.acq` (R256). -/
def execLdAcq (d a : XReg) (sc : Scope) (z : Bool) (s : State) : Host.Outcome State Fault Refusal :=
  finish do
    let s := s.drain
    let (v, s') ← s.acquireLoad sc (s.x a).toNat (sizeBytes z)
    .ok (s'.setX d (extendOld (sizeBytes z) v)).retire

/-- `st.rel` (R256): at sys a release writes back first; in an open strip the release waits for the commit (R106). -/
def execStRel (a b : XReg) (sc : Scope) (z : Bool) (s : State) : Host.Outcome State Fault Refusal :=
  finish do
    let s := s.drain
    let n := sizeBytes z
    let va := (s.x a).toNat
    let l ← s.orTrap (s.locate .store va n n (sc != .sys))
    s.require (s.strip?.isSome || !s.liveWord l) (s.trapOf { cause := 0x08, addr := va / 8 * 8 })
    let s1 ← if sc == .sys && s.strip?.isNone then s.ordered s.releaseSys else .ok s
    let s2 ← s1.orTrap (s1.put (if sc == .sys then .through else .cached) (some sc) l va n ((s.x b).toNat % 2 ^ (8 * n)) none)
    .ok s2.retire

/-! ### Fences -/

/-- `fence` (R98, R259): every access here has performed when its instruction ends, so the sets order copies, which are
finished or waited for, and remote lines at scope sys. -/
def execFence (_ld st eng rem : Bool) (sc : Scope) (s : State) : Host.Outcome State Fault Refusal :=
  finish do
    s.noStrip
    let s := if eng then s.drain else s
    if eng && !s.hart.engIdle then .ok s
    else
      let s ← if rem then s.ordered s.acquireSys else if st && sc == .sys then s.ordered s.releaseSys else .ok s
      .ok s.retire

/-- `ifence` (R259): nothing is fetched ahead here, so nothing is discarded. -/
def execIfence (s : State) : Host.Outcome State Fault Refusal :=
  finish do
    s.noStrip
    .ok s.retire

/-! ### Waits -/

/-- The hart runs again and its waiting instruction completes. -/
def State.wake (s : State) : State := { s with hart := { s.hart with phase := .active, waiting := none } }

/-- One look of `waitge` or `waiteq` (R260): completion, or MONITOR. -/
def State.waitLocation (s : State) (ge : Bool) (d : XReg) (n : Nat) (sc : Scope) (addr val : Word) : Run State := do
  let (v, s') ← s.acquireLoad sc addr.toNat n
  let w := val.toNat % 2 ^ (8 * n)
  if (if ge then decide (w ≤ v) else v == w) then .ok (s'.wake.setX d (BitVec.ofNat 64 v)).retire
  else .ok (s'.wait (.location ge d n sc addr val) .monitor)

/-- A wait instruction. -/
def waitInstr (ge : Bool) (d a b : XReg) (sc : Scope) (z : Bool) (s : State) : Host.Outcome State Fault Refusal :=
  finish do
    s.noStrip
    let s := s.drain
    s.waitLocation ge d (sizeBytes z) sc (s.x a) (s.x b)

/-- `waitge` (R260). -/
def execWaitge (d a b : XReg) (sc : Scope) (z : Bool) (s : State) : Host.Outcome State Fault Refusal :=
  waitInstr true d a b sc z s
/-- `waiteq` (R260). -/
def execWaiteq (d a b : XReg) (sc : Scope) (z : Bool) (s : State) : Host.Outcome State Fault Refusal :=
  waitInstr false d a b sc z s

/-! ### Barrier objects -/

/-- The physical address of a barrier object (R148, R255, R261). -/
def State.barrierLoc (s : State) (k : Access) (va : Nat) : Except Reject Nat := do
  let l ← s.locate k va 16 16 false
  match l with
  | .phys a => if l.isHbm then .ok a else .error (refusal va)
  | .spad _ => .error (refusal va)

/-- The object at an address is live. -/
def State.barrierLive (s : State) (pa : Nat) : Bool := s.barriers.any fun b => b.addr == pa
/-- CTL and PHASE of an object (R261), read as one access (R356). -/
def State.barrierWords (s : State) (pa va : Nat) : Except Reject (Nat × Nat) := do
  let (v, _) ← s.readAt .through (.phys pa) va 16
  .ok (v % 2 ^ 64, v / 2 ^ 64)

/-- `bar.init` (R262). -/
def execBarInit (d a b : XReg) (s : State) : Host.Outcome State Fault Refusal :=
  finish do
    s.noStrip
    let s := s.drain
    let pa ← s.orTrap (s.barrierLoc .store (s.x a).toNat)
    let n := (s.x b).toNat % 2 ^ 32
    let p := s.hart.place.part
    let st : Nat := if n = 0 then 2 else if s.barrierLive pa then 3
      else if 1024 ≤ (s.barriers.filter fun k => k.part == p).length then 1 else 0
    let s' := if st = 0 then
        { (s.writeLoc (.phys pa) 16 (2 ^ 32 + n)) with barriers := ⟨pa, p⟩ :: s.barriers } else s
    .ok ((s'.setX d (BitVec.ofNat 64 st)).setC 7 (st != 0)).retire

/-- PHASE after one arrival (R262). -/
def arrivePhase (w parties : Nat) : Nat :=
  let p := bitsAt w 32 32
  let n := (w + 1) % 2 ^ 32
  if n = parties then (p + 1) % 2 ^ 32 * 2 ^ 32 else p * 2 ^ 32 + n

/-- `bar.arrive` (R262): a release at the scope. -/
def execBarArrive (d a : XReg) (sc : Scope) (s : State) : Host.Outcome State Fault Refusal :=
  finish do
    s.noStrip
    let s := s.drain
    let pa ← s.orTrap (s.barrierLoc .atomic (s.x a).toNat)
    let s ← if sc == .sys then s.ordered s.releaseSys else .ok s
    let (ctl, w) ← s.orTrap (s.barrierWords pa (s.x a).toNat)
    if !s.barrierLive pa || bitAt ctl 33 then .ok ((s.setX d 0).setC 7 true).retire
    else
      let s' := s.writeLoc (.phys (pa + 8)) 8 (arrivePhase w (ctl % 2 ^ 32))
      .ok ((s'.setX d (BitVec.ofNat 64 (bitsAt w 32 32))).setC 7 false).retire

/-- A `bar.wait` completes as an acquire at its scope, with c7 (R262). -/
def State.passPhase (s : State) (sc : Scope) (gone : Bool) : Run State := do
  let s ← if sc == .sys then s.ordered s.acquireSys else .ok s
  .ok (s.wake.setC 7 gone).retire

/-- One look of `bar.wait` (R262). -/
def State.waitPhase (s : State) (sc : Scope) (addr val : Word) : Run State := do
  let pa ← s.orTrap (s.barrierLoc .load addr.toNat)
  let (ctl, w) ← s.orTrap (s.barrierWords pa addr.toNat)
  let gone := !s.barrierLive pa || bitAt ctl 33
  if !gone && bitsAt w 32 32 == val.toNat % 2 ^ 32 then .ok (s.wait (.phase sc addr val) .monitor)
  else s.passPhase sc gone

/-- `bar.wait` (R262). -/
def execBarWait (a b : XReg) (sc : Scope) (s : State) : Host.Outcome State Fault Refusal :=
  finish do
    s.noStrip
    let s := s.drain
    s.waitPhase sc (s.x a) (s.x b)

/-- A hart that waits at the barrier object of a physical address. -/
def State.waitsAt (s : State) (h : Hart) (pa : Nat) : Bool :=
  match h.waiting with
  | some (.phase _ addr _) => (match s.translate h.ctx .load addr.toNat with | .ok a => a == pa | .error _ => false)
  | _ => false

/-- A waiter of a barrier that ends completes at its scope with c7 set (R262). DEDUCED, log 40. -/
def State.releaseWaiter (s : State) (hid : Nat) : State :=
  s.asHart hid fun s => match s.hart.waiting with
    | some (.phase sc _ _) => settled (s.passPhase sc true)
    | _ => s

/-- `bar.fin` (R262). DEDUCED, log 40. -/
def execBarFin (a : XReg) (s : State) : Host.Outcome State Fault Refusal :=
  finish do
    s.noStrip
    let s := s.drain
    let pa ← s.orTrap (s.barrierLoc .store (s.x a).toNat)
    if s.barrierLive pa then
      let (ctl, _) ← s.orTrap (s.barrierWords pa (s.x a).toNat)
      let ws := (s.harts.filter fun h => h.phase == .monitor && s.waitsAt h pa).map fun h => h.place.hid
      let s' := s.writeLoc (.phys pa) 8 (setBitAt ctl 32 false)
      let s' := { s' with barriers := s'.barriers.filter fun k => k.addr != pa }
      .ok (ws.foldl State.releaseWaiter s'.retire)
    else .ok s.retire

/-! ### Strip farms (R31, R32, R264) -/

/-- The farm of the hart's launch. -/
def State.farm (s : State) : Farm := match s.launchOf s.hart.place.launch with | some l => l.farm | none => {}
/-- That farm replaced. -/
def State.setFarm (s : State) (f : Farm) : State :=
  match s.launchOf s.hart.place.launch with
  | some l => s.putLaunch { l with farm := f }
  | none => s

/-- The farm after a hart's `farm.def` (R31, R264). -/
def Farm.define (f : Farm) (hid : Nat) (extent strip : Word) : Farm :=
  if f.live then (if f.joined.contains hid then f else { f with joined := f.joined ++ [hid] })
  else { live := true, exhausted := false, counter := 0, extent := extent.toNat, strip := Nat.max 1 strip.toNat,
         joined := [hid], id := f.id + 1 }

/-- `farm.def` (R264). -/
def execFarmDef (r a : XReg) (s : State) : Host.Outcome State Fault Refusal :=
  finish do
    s.noStrip
    let f := s.farm.define s.hart.place.hid (s.x a) (s.x r)
    let s' := s.setFarm f
    .ok { s' with hart := { s'.hart with farmid := f.id } }.retire

/-- `farm.next` (R31, R264). -/
def execFarmNext (d : XReg) (n : CBit) (s : State) : Host.Outcome State Fault Refusal :=
  finish do
    s.noStrip
    let f := s.farm
    let s' :=
      if !(f.live && f.joined.contains s.hart.place.hid) then s.setC n true
      else if !f.exhausted && decide (f.counter < f.extent) then
        let s1 := s.setFarm { f with counter := Nat.min (f.counter + f.strip) (2 ^ 64 - 1) }
        { s1 with hart := { s1.hart with fbase := BitVec.ofNat 64 f.counter, noStrips := false } }.setC n false
      else
        let s1 := s.setFarm { f with exhausted := true }
        { s1 with hart := { s1.hart with noStrips := true } }.setC n true
    .ok (s'.setX d s'.hart.fbase).retire

/-- `farm.end` (R264). -/
def execFarmEnd (s : State) : Host.Outcome State Fault Refusal :=
  finish do
    s.noStrip
    .ok (s.setFarm (s.farm.leave s.hart.place.hid)).retire

/-! ### Guarded strips (R265 to R267) -/

/-- The hart's strip replaced. -/
def State.setStrip (s : State) (st : Option Strip) : State := { s with hart := { s.hart with strip := st } }

/-- `sbegin` (R265). A strip of another level counts as open too (DEDUCED, log 20). -/
def execSbegin (o : Int) (s : State) : Host.Outcome State Fault Refusal :=
  finish do
    s.require s.hart.strip.isNone s.stripFatal
    .ok (s.setStrip (some ⟨s.hart.pc + BitVec.ofInt 64 (4 * o), s.hart.priv.level, []⟩)).retire

/-- One buffered access performed (R267): at its pinned translation, or in the window as it now lies; a release at sys writes
back first and goes to its coherence point; another access to a remote line that cannot be reached stays in the core's copy
(R110, R371). -/
def State.commitOne (s : State) (r : StripRec) : Run State := do
  let n := 2 ^ r.size
  let rel := r.rel == some .sys
  let l ← match r.pin with
    | some pa => .ok (Loc.phys pa)
    | none => s.orTrap (s.resolveIn s.hart.ctx .store r.addr n n)
  s.orTrap (s.targetTakes s.hart.place.part .store l r.addr n (!rel))
  s.require (!s.liveWord l) (s.trapOf { cause := 0x08, addr := r.addr / 8 * 8 })
  let s ← if rel then s.ordered s.releaseSys else .ok s
  let route : Route := match s.targetTakes s.hart.place.part .store l r.addr n false with
    | .ok () => .through
    | .error _ => .cached
  .ok (s.writeOver route l r.addr n r.data r.half)

/-- The buffer performed in order, so many accesses in this turn (R19, R267, R360); a failure or a stop leaves the rest of it. -/
def State.commitAll (s : State) (st : Strip) : List StripRec → Option Nat → Run State
  | [], _ => .ok (s.setStrip none)
  | r :: rest, some 0 => .ok (s.setStrip (some { st with recs := r :: rest }))
  | r :: rest, n =>
    match (s.setStrip none).commitOne r with
    | .ok s' => s'.commitAll st rest (n.map (· - 1))
    | .error (t, s') => .error (t, s'.setStrip (some { st with recs := r :: rest }))

/-- `scommit` (R267); its traps are ordinary ones. It completes when the buffer is empty, and waits for a row repair (R380). -/
def execScommit (s : State) : Host.Outcome State Fault Refusal :=
  let s := s.drain
  match s.strip? with
  | none => .next s.retire
  | some st =>
    match s.commitAll st st.recs s.hart.limit with
    | .ok s' => .next (if s'.hart.strip.isSome then s' else s'.retire)
    | .error (t, s') => .next (if t.cause = holdCause then s' else s'.enterTrap false t.cause s'.hart.pc t.faddr t.finfo)

/-- `sabort` (R267). -/
def execSabort (s : State) : Host.Outcome State Fault Refusal :=
  .next (if s.strip?.isSome then s.setStrip none else s).retire

/-! ### The device-side launch (R268) -/

/-- Eight words read one after another. -/
def State.readPacket (s : State) (l : Loc) (va : Nat) : Nat → Except Reject (List Word)
  | 0 => .ok []
  | n + 1 => do
    let k := 8 * (7 - n)
    let at' : Loc := match l with | .phys a => .phys (a + k) | .spad i => .spad (i + k)
    let (v, _) ← s.readAt .through at' (va + k) 8
    let rest ← s.readPacket l va n
    .ok (BitVec.ofNat 64 v :: rest)

/-- `launch` (R268). -/
def execLaunch (d a b : XReg) (s : State) : Host.Outcome State Fault Refusal :=
  finish do
    s.noStrip
    let s := s.drain
    let va := (s.x a).toNat
    let l ← s.orTrap (s.locate .load va 64 64 false)
    s.require (!l.isHost && !l.isRemote) (s.trapOf (refusal va))
    let q := (s.x b).toNat
    let p := s.hart.place.part
    if 1024 ≤ q ∨ s.queueOwner q ≠ some p then .ok ((s.setX d 2).setC 7 true).retire
    else
      let ws ← s.orTrap (s.readPacket l va 8)
      if 64 ≤ (s.queue q).used then .ok ((s.setX d 1).setC 7 true).retire
      else .ok (((s.enqueue q (withPart ws p)).setX d 0).setC 7 false).retire

end Sys2Proof.Machine
end

