-- ==== Sys2Proof/Machine/Copy.lean ====
section
/-! DEFINITION. Copy channels and landing zones, majors 0x50 to 0x53 (12 R233 to R250). -/

namespace Sys2Proof.Machine

/-! ### Copy commands (R236 to R238) -/

/-- The operands of a command that every form has, as read at issue (R237). -/
def State.command (s : State) (form : CopyForm) (rel : Bool) (xa xb xc : Word) (n : Nat) : CopyCmd :=
  let h := s.hart
  { form := form, rel := rel, tag := h.vcfg.tag, xa := xa, xb := xb, xc := xc, n := n, vl := h.vl, pitch := h.pitch,
    user := h.priv.level = .user, root := h.priv.ptbase, asid := h.asid }

/-- A command is accepted, or waits for its channel (R233); the streams it used move on as it completes. A copy has no VSI
progress, so VSI stays as it was (DEDUCED, log 37: R12 does not say whether a copy operates under VL). -/
def State.issueCopy (s : State) (ch : ChNum) (k : CopyCmd) (uses : List SNum) : Run State :=
  if s.busy ch k then .ok (s.wait (.channel ch k uses) .active)
  else do
    let s ← s.accept ch k
    .ok (s.advance uses).retire

/-- The tag conditions of R238 item 2 for N elements. -/
def State.copyFaults (s : State) (n : Nat) : List (Bool × Nat) :=
  [(s.hart.vcfg.tag == .sc8, 2), (s.hart.vcfg.tag == .fp4 && n % 2 != 0, 5)]

/-- A copy without an index group. -/
def plainCopy (form : CopyForm) (ch : ChNum) (rel : Bool) (xa xb xc : Word) (n : Nat) (s : State) :
    Host.Outcome State Fault Refusal :=
  finish do
    s.noStrip
    s.needRef
    let s ← s.prepare [] [] [] false 0 (s.copyFaults n)
    s.issueCopy ch (s.command form rel xa xb xc n) []

/-- `cpy` (R236, R237). -/
def execCpy (h : ChNum) (a b : XReg) (r : Bool) (s : State) : Host.Outcome State Fault Refusal :=
  plainCopy .cpy h r (s.x a) (s.x b) 0 s.hart.vl s
/-- `cpy2` (R236, R237). -/
def execCpy2 (h : ChNum) (a b p : XReg) (r : Bool) (s : State) : Host.Outcome State Fault Refusal :=
  plainCopy .cpy2 h r (s.x a) (s.x b) (s.x p) (s.hart.rows * s.hart.vl) s
/-- `cpy.r` (R236, R246): its ticket is checked at its first request (R244). -/
def execCpyR (h : ChNum) (a b : XReg) (r : Bool) (s : State) : Host.Outcome State Fault Refusal :=
  plainCopy .cpyR h r (s.x a) (s.x b) 0 s.hart.vl s

/-- A copy with an index group: the values are captured (R237), and the group is a source (R176). -/
def indexCopy (form : CopyForm) (ch : ChNum) (a b : XReg) (i : VNum) (rel : Bool) (s : State) :
    Host.Outcome State Fault Refusal :=
  finish do
    s.noStrip
    s.needRef
    let g := s.idxGrp i
    let s ← s.prepare [g] [] [] false 0 (s.idxFaults i [] ++ s.copyFaults s.hart.vl)
    let k := s.command form rel (s.x a) (s.x b) 0 s.hart.vl
    s.issueCopy ch { k with itag := s.vtagOf i, idx := (List.range s.hart.vl).map (s.idxOf i) } (s.boundBy [g])

/-- `cpy.g` (R236, R237). -/
def execCpyG (h : ChNum) (a b : XReg) (i : VNum) (r : Bool) (s : State) : Host.Outcome State Fault Refusal :=
  indexCopy .cpyG h a b i r s
/-- `cpy.gd` (R236, R237). -/
def execCpyGd (h : ChNum) (a b : XReg) (i : VNum) (r : Bool) (s : State) : Host.Outcome State Fault Refusal :=
  indexCopy .cpyGd h a b i r s

/-! ### Batches and status (R240, R241) -/

/-- `cbatch` (R241): an empty open batch stays open. A hart has eight channels, so sixteen batches are never
outstanding. -/
def execCbatch (s : State) : Host.Outcome State Fault Refusal :=
  finish do
    s.noStrip
    let h := s.hart
    let used := h.ch.toList.any fun c => match c.cmd with | some k => k.batch == h.batch | none => false
    .ok ({ s with hart := { h with batch := if used then (h.batch + 1) % 2 ^ 32 else h.batch } }).retire

/-- Some channel is FAILED. -/
def Hart.anyFailed (h : Hart) : Bool := h.ch.toList.any fun c => c.state == .failed

/-- One look of `cwait` (R241): completion as an acquire at sys, or MONITOR. -/
def State.waitCopies (s : State) (n : Nat) : Run State :=
  if n < s.hart.cbatch then .ok (s.wait (.copies n) .monitor)
  else do
    let s ← s.ordered s.acquireSys
    .ok (s.wake.setC 7 s.hart.anyFailed).retire

/-- `cwait` (R241). -/
def execCwait (n : Fin 32) (s : State) : Host.Outcome State Fault Refusal :=
  finish do
    s.noStrip
    s.waitCopies n.val

/-- A word of a channel (R241). -/
def Channel.word (c : Channel) (sel : Nat) : Word :=
  match sel with
  | 0 => BitVec.ofNat 64 (cstatWord c)
  | 1 => BitVec.ofNat 64 c.progress
  | 2 => if c.state = .failed then c.failAddr else 0
  | _ => c.dest

/-- `cstat` (R241). -/
def execCstat (h : ChNum) (d : XReg) (r : Fin 4) (s : State) : Host.Outcome State Fault Refusal :=
  finish do
    s.noStrip
    .ok (s.setX d ((s.chan h).word r.val)).retire

/-- `cack` (R241). -/
def execCack (h : ChNum) (s : State) : Host.Outcome State Fault Refusal :=
  finish do
    s.noStrip
    let c := s.chan h
    .ok (if c.state = .failed then
        s.setChan h { c with state := .idle, code := 0, pend := false, desc := false, rem := false, failAddr := 0 }
      else s).retire

/-! ### Landing zones (R242 to R248) -/

/-- The live zone of this device that a handle names. -/
def State.zoneOf (s : State) (h : Word) : Option Zone :=
  if handleDev h = s.device.val then s.zoneAt (handleCore h) (handleZone h) else none

/-- The checks of an owner-only instruction (R247). -/
def State.ownZone (s : State) (h : Word) : Run Zone := do
  s.require (!handleBad h) (s.zoneFault h 1)
  match s.zoneOf h with
  | none => s.trap (s.zoneFault h 2)
  | some z =>
    s.require (z.owner == s.hart.place.hid) (s.zoneFault h 3)
    .ok z

/-- The zone that a base and a configuration describe (R242, R248). -/
def State.describe (s : State) (base : Nat) (cfg : Word) : Zone :=
  let p := s.hart.place
  ⟨p.core, bitsAt cfg.toNat 16 4, p.hid, p.part, p.pieces, base - windowBase, bitsAt cfg.toNat 0 8 + 1, bitsAt cfg.toNat 8 3⟩

/-- Two regions of one hart's window overlap. -/
def Zone.meets (z y : Zone) : Bool := z.owner == y.owner && decide (z.base < y.stop) && decide (y.base < z.stop)

/-- A disc page of the hart lies in a range of its window. -/
def State.discTouches (s : State) (lo hi : Nat) : Bool :=
  (List.range (16 * s.hart.place.pieces.length)).any fun p =>
    bitAt s.hart.disc p && decide (p * 4096 < hi) && decide (lo < (p + 1) * 4096)

/-- The header and slot table of a new zone (R243, R248). -/
def State.buildZone (s : State) (z : Zone) (cfg : Word) : State :=
  let s := (List.range (32 + z.slots)).foldl (fun s k => s.setZoneWord z k 0) { s with zones := z :: s.zones }
  ((s.setZoneWord z 0 1).setZoneWord z 4 cfg.toNat).setZoneWord z 5 (windowBase + z.eye0)

/-- `lz.init` (R247, R248). -/
def execLzInit (d b c : XReg) (s : State) : Host.Outcome State Fault Refusal :=
  finish do
    s.noStrip
    let s := s.drain
    let base := s.x b
    let cfg := s.x c
    s.require (bitsAt cfg.toNat 20 44 == 0 && bitsAt cfg.toNat 11 5 == 0 && decide (bitsAt cfg.toNat 8 3 ≤ 6)) (s.zoneFault base 1)
    let z := s.describe base.toNat cfg
    s.require (base.toNat % z.eyelet == 0) (s.misaligned base)
    let room := s.hart.place.pieces.length * 65536
    s.require (decide (windowBase ≤ base.toNat) && decide (base.toNat < windowBase + room)) (s.trapOf { cause := 0x07, addr := base.toNat })
    s.require (decide (z.stop ≤ room)) (s.trapOf { cause := 0x07, addr := windowBase + room })
    s.require (!((s.zoneAt z.core z.num).isSome || s.zones.any z.meets || s.discTouches z.base z.stop)) (s.zoneFault base 6)
    .ok ((s.buildZone z cfg).setX d (BitVec.ofNat 64 (handleOf s.device.val z.core z.num))).retire

/-- `lz.res` (R247): a zone here answers at once, unless its owner is switched out (R250); a request to another device
leaves the module, and the strand waits for the reply. DEDUCED, log 51. -/
def execLzRes (d b : XReg) (s : State) : Host.Outcome State Fault Refusal :=
  finish do
    s.noStrip
    let h := s.x b
    s.require (!handleBad h) (s.zoneFault h 1)
    let dev := handleDev h
    let chip := s.hart.place.core / 16
    let answer (v : Nat) : Run State := .ok ((s.setX d (BitVec.ofNat 64 v)).setC 7 true).retire
    if dev = s.device.val then
      if s.chipletsLost chip (handleCore h / 16) then answer 4
      else if (match s.zoneOf h with | some z => z.part == s.hart.place.part && s.ownerAway z | none => false) then .ok s
      else
        let (v, full, s') := s.reserve h dev chip (some s.hart.place.part)
        .ok ((s'.setX d (BitVec.ofNat 64 v)).setC 7 full).retire
    else if !(s.domain.any fun e => e.val == dev) then answer 2
    else if s.unreachable dev then answer 4
    else .ok ((s.send (.reserve dev h)).wait (.reply d dev) .active)

/-- One look of `lz.wait` (R247): an acquire at sys, or MONITOR. -/
def State.waitArrivals (s : State) (h count : Word) : Run State := do
  let z ← s.ownZone h
  let broken := s.zoneWord z 0 == 2
  if broken || decide (count.toNat ≤ s.zoneWord z 1) then do
    let s ← s.ordered s.acquireSys
    .ok (s.wake.setC 7 broken).retire
  else .ok (s.wait (.arrivals h count) .monitor)

/-- `lz.wait` (R247). -/
def execLzWait (b c : XReg) (s : State) : Host.Outcome State Fault Refusal :=
  finish do
    s.noStrip
    s.waitArrivals (s.x b) (s.x c)

/-- `lz.free` (R247): FULL to FREE; ARRIVE falls. -/
def execLzFree (b c : XReg) (s : State) : Host.Outcome State Fault Refusal :=
  finish do
    s.noStrip
    let s := s.drain
    let z ← s.ownZone (s.x b)
    let k := (s.x c).toNat
    s.require (decide (k < z.slots) && entrySt (s.entry z k) == 3) (s.zoneFault (s.x b) 4)
    .ok ((s.setEntry z k 0).setZoneWord z 1 (s.zoneWord z 1 - 1)).retire

/-- The torn eyelets of a zone. -/
def State.tornSlots (s : State) (z : Zone) : List Nat := (List.range z.slots).filter fun k => entrySt (s.entry z k) == 4

/-- `lz.scrub` (R247): every TORN eyelet to FREE; TORN falls by their number. -/
def execLzScrub (d b : XReg) (s : State) : Host.Outcome State Fault Refusal :=
  finish do
    s.noStrip
    let s := s.drain
    let z ← s.ownZone (s.x b)
    let l := s.tornSlots z
    let s' := (l.foldl (fun s k => s.setEntry z k 0) s).setZoneWord z 2 (s.zoneWord z 2 - l.length)
    .ok (s'.setX d (BitVec.ofNat 64 l.length)).retire

/-- `lz.fin` (R248): while an eyelet is FILLING the instruction is tried again at the hart's next turn. -/
def execLzFin (b : XReg) (s : State) : Host.Outcome State Fault Refusal :=
  finish do
    s.noStrip
    let s := s.drain
    let z ← s.ownZone (s.x b)
    if (List.range z.slots).any fun k => entrySt (s.entry z k) == 2 then .ok s
    else .ok (s.killZone z).retire

/-! ### Fibre messages (R249) -/

/-- Bytes of a value in a message. -/
def messageValue (t : Tag) : Nat := Nat.max 1 (tagBits t / 8)

/-- Where the values of a message of n entries begin. -/
def messageValues (n : Nat) : Nat := 16 + 8 * ((4 * n + 7) / 8)

/-- The message of a fibre (R249). -/
def QReg.message (q : QReg) : List Byte :=
  let n := q.entries.length
  let w := messageValue q.tag
  bytesOf 8 (n + q.tag.code * 2 ^ 32 + q.sorted.toNat * 2 ^ 40) ++ bytesOf 8 0 ++
    q.entries.flatMap (fun e => bytesOf 4 e.1) ++ bytesOf (messageValues n - 16 - 4 * n) 0 ++
    q.entries.flatMap fun e => bytesOf w e.2

/-- `qsend` (R249): it reads neither VCFG nor VL. -/
def execQsend (h : ChNum) (b : XReg) (a : QNum) (r : Bool) (s : State) : Host.Outcome State Fault Refusal :=
  finish do
    s.noStrip
    let q := s.q a
    s.require (!(q.tag == .none && q.n != 0)) (s.tagFault 2)
    s.fibresOk [a]
    let k := s.command .qsend r (s.x b) 0 0 q.n
    s.issueCopy h { k with tag := q.tag, vl := 0, msg := q.message } []

/-- The byte of an eyelet's payload. -/
def Zone.payload (z : Zone) (slot k : Nat) : Nat := z.byte (z.eye0 + slot * z.eyelet + k)

/-- n bytes of a payload, little-endian. -/
def State.payloadRead (s : State) (z : Zone) (slot k n : Nat) : Nat :=
  ofBytes ((List.range n).map fun i => Memory.read s.spad (z.payload slot (k + i)))

/-- The lowest payload byte of a range that holds uncorrectable data (R249, R356). -/
def State.payloadBad (s : State) (z : Zone) (slot k n : Nat) : Option Reject :=
  ((List.range n).find? fun i => poisoned s.spadPoison (z.payload slot (k + i)) 1).map fun i =>
    { cause := 0x12, addr := windowBase + z.eye0 + slot * z.eyelet + k + i, unit := 1 }

/-- A check that a payload's bytes can be read. -/
def State.payloadOk (s : State) (z : Zone) (slot k n : Nat) : Run Unit :=
  match s.payloadBad z slot k n with
  | some r => s.trap (s.trapOf r)
  | none => .ok ()

/-- Entry i of a message of n entries. -/
def State.messageEntry (s : State) (z : Zone) (slot n : Nat) (t : Tag) (i : Nat) : Nat × Nat :=
  let w := messageValue t
  (s.payloadRead z slot (16 + 4 * i) 4, s.payloadRead z slot (messageValues n + i * w) w % 2 ^ tagBits t)

/-- `qrecv` (R249). -/
def execQrecv (d : QNum) (b c : XReg) (s : State) : Host.Outcome State Fault Refusal :=
  finish do
    s.noStrip
    let s := s.drain
    let h := s.x b
    let z ← s.ownZone h
    let k := (s.x c).toNat
    let e := s.entry z k
    s.require (decide (k < z.slots) && entrySt e == 3 && entryFib e) (s.zoneFault h 4)
    s.payloadOk z k 0 8
    let hd := s.payloadRead z k 0 8
    let n := bitsAt hd 0 32
    match (if bitsAt hd 32 8 < 16 then Tag.ofCode (bitsAt hd 32 8) else none) with
    | none => s.trap (s.tagFault 2)
    | some t =>
      s.require (!(t == .none && n != 0)) (s.tagFault 2)
      s.require (decide (messageValues n + n * messageValue t ≤ entryLen e)) (s.zoneFault h 5)
      let m := Nat.min n s.hart.fcap
      s.payloadOk z k 16 (4 * m)
      s.payloadOk z k (messageValues n) (m * messageValue t)
      let q : QReg := { fresh := false, entries := (List.range m).map (s.messageEntry z k n t), tag := t, sorted := bitAt hd 40 }
      .ok ((s.setQ d q).setC 7 (decide (s.hart.fcap < n))).retire

end Sys2Proof.Machine
end

