-- ==== Sys2Proof/Machine/CopyEvents.lean ====
section
/-! DEFINITION. What the copy, stream and gather engines and the landing zones do by themselves (02 R37, 04 R85, 08 R176,
12 R233, R237, R245 to R247, 04 R81). An event that nothing enables changes nothing (DESIGN CHOICE, log 5). -/

namespace Sys2Proof.Machine

/-- Doing something as a hart that exists and is not switched out. -/
def State.asLive (s : State) (hid : Nat) (f : State → State) : State :=
  match s.hartOf hid with
  | some h => if h.phase = .switched then s else s.asHart hid f
  | none => s

/-! ### Gathers and streams -/

/-- GATHER_GROUP_ARRIVE (R37, R85): the presence bit of an element group sets once every element of the group that the
gather reads has arrived, which VSI tells. -/
def execGatherGroupArrive (h : Nat) (v : VNum) (g : Fin 512) (s : State) : Host.Outcome State Fault Refusal :=
  .next (s.asLive h fun s =>
    let r := s.hart.v[v.val]
    let stop := (v.val % 2 ^ s.hart.vcfg.lgrp * (s.hart.slice / 256) + g.val + 1) * 256
    if stop ≤ s.hart.vsi * tagBits s.hart.vcfg.tag then
      { s with hart := { s.hart with v := s.hart.v.set v.val { r with owed := setBitAt r.owed g.val false } } }
    else s)

/-- A stream engine reads the strip after those it holds, and pins what it translated; a read that fails is not made (R176,
R338). -/
def State.prefetch (s : State) (k : SNum) : State :=
  let b := s.hart.streams[k.val]
  let vl := s.hart.vl
  let cap := s.hart.slice * 2 ^ b.lgrp
  let next : Stream := { b with pos := b.pos + BitVec.ofNat 64 (b.strips.length * vl) }
  if b.bound && decide (b.strips.length < 8) && vl != 0 && decide (vl * tagBits b.tag ≤ cap) && b.strips.all (fun l => l.vals.length == vl) then
    match s.streamRead next vl with
    | .ok (l, s') =>
      let st : Fetched := ⟨l, (List.range vl).map fun i => s.pinOf .load (next.addr i).toNat⟩
      { s' with hart := { s'.hart with streams := s'.hart.streams.set k.val { b with strips := b.strips ++ [st] } } }
    | .error _ => s
  else s

/-- STREAM_PREFETCH (R176). -/
def execStreamPrefetch (h : Nat) (k : SNum) (s : State) : Host.Outcome State Fault Refusal :=
  .next (s.asLive h fun s => s.prefetch k)

/-! ### Copies -/

/-- The command that a hart waits with is accepted once its channel has ended its copy (R233). -/
def State.acceptWaiting (s : State) : State :=
  match s.hart.waiting with
  | some (.channel ch k uses) =>
    if s.busy ch k then s
    else settled (do
      let s' ← s.accept ch k
      .ok (s'.wake.advance uses).retire)
  | _ => s

/-- COPY_ACCEPT (R233): a FAILED channel traps. -/
def execCopyAccept (h : Nat) (s : State) : Host.Outcome State Fault Refusal := .next (s.asLive h State.acceptWaiting)

/-- COPY_ELEMENT (R237): one element of a local copy, or the next request of a transfer. -/
def execCopyElement (h : Nat) (ch : ChNum) (s : State) : Host.Outcome State Fault Refusal :=
  .next (s.asLive h fun s => s.copyMove ch)

/-- A channel of the hart has sent a whole transfer to another device, which has not answered. -/
def State.awaits (s : State) (ch : ChNum) : Option CopyCmd :=
  let c := s.chan ch
  match c.cmd with
  | some k => if c.state == .running && c.rem && c.begun && !c.pend && handleDev k.xa != s.device.val then some k else none
  | none => none

/-- FULL_ACKNOWLEDGE (R246): the copy is DONE, its progress at the payload's end. -/
def execFullAcknowledge (h : Nat) (ch : ChNum) (s : State) : Host.Outcome State Fault Refusal :=
  .next (s.asLive h fun s =>
    match s.awaits ch with
    | some k =>
      let c := s.chan ch
      if k.units ≤ c.sent then
        s.setChan ch { c with progress := k.payload, cwm := c.dest + BitVec.ofNat 64 k.payload }.finish
      else s
    | none => s)

/-- BYTES_ACKNOWLEDGED (R81): the receiver has n bytes of the payload; progress and CWM rise to them. -/
def execBytesAcknowledged (h : Nat) (ch : ChNum) (n : Nat) (s : State) : Host.Outcome State Fault Refusal :=
  .next (s.asLive h fun s =>
    match s.awaits ch with
    | some k =>
      let c := s.chan ch
      if c.progress < n ∧ n ≤ k.bytesFor c.sent then
        s.setChan ch { c with progress := n, cwm := c.dest + BitVec.ofNat 64 n }
      else s
    | none => s)

/-! ### Landing zones -/

/-- A device of the fabric domain, other than this one, whose path is there. -/
def State.reaches (s : State) (d : Fin 256) : Bool :=
  d != s.device && s.domain.any (fun e => e == d) && !s.unreachable d.val

/-- The zone that a request names waits for its owner (R250). -/
def State.zoneWaits (s : State) (h : Word) : Bool :=
  match s.zoneAt (handleCore h) (handleZone h) with | some z => s.ownerAway z | none => false

/-- LZ_RES_REQUEST (R247): a request of another device reserves the lowest FREE eyelet, and the reply leaves. -/
def execLzResRequest (dev : Fin 256) (handle : Word) (s : State) : Host.Outcome State Fault Refusal :=
  if s.reaches dev && !s.zoneWaits handle then
    let (v, full, s') := s.reserve handle dev.val (handleCore handle / 16) none
    .next (s'.send (.reserveReply dev.val (BitVec.ofNat 64 v) full))
  else .next s

/-- LZ_RES_REPLY (R247): the reply completes the `lz.res` that waits for it. -/
def execLzResReply (h : Nat) (value : Word) (c7 : Bool) (s : State) : Host.Outcome State Fault Refusal :=
  .next (s.asLive h fun s =>
    match s.hart.waiting with
    | some (.reply d _) => ((s.wake.setX d value).setC 7 c7).retire
    | _ => s)

/-- A refusal of another device's zone ends the copy with its code; the progress stays (R235, R246). -/
def State.turnDown (s : State) (ch : ChNum) (code : Nat) : State :=
  match s.awaits ch with
  | some _ => if 0x07 ≤ code ∧ code ≤ 0x0A then s.setChan ch ((s.chan ch).fail code 0) else s
  | none => s

/-- ZONE_FIRST_REQUEST (R246): the receiver accepts or refuses; a payload of no bytes makes the eyelet FULL. -/
def execZoneFirstRequest (t : Transfer) (s : State) : Host.Outcome State Fault Refusal :=
  match t with
  | .mine h ch => .next (s.asLive h fun s => let c := s.chan ch; if c.rem && !c.begun then s.copyMove ch else s)
  | .answer h ch code => .next (s.asLive h fun s => s.turnDown ch code)
  | .ended _ _ => .next s
  | .theirs dev ticket size fib =>
    if s.reaches dev && !s.zoneWaits ticket then
      match s.firstRequest ticket dev.val (handleCore ticket / 16) none t size fib with
      | .error code => .next (s.send (.refusal dev.val ticket code))
      | .ok s' =>
        match s'.fillOf t, s'.zoneAt (handleCore ticket) (handleZone ticket) with
        | some f, some z =>
          if size = 0 then .next (({ s' with fulls := s'.fulls ++ [(dev, ticket)] }.eyeletFull z f).send (.acknowledge dev.val ticket 0 true))
          else .next s'
        | _, _ => .next s'
    else .next s

/-- EYELET_PAYLOAD_WRITE (R245, R246): bytes land in the eyelet, and are acknowledged; the last make it FULL. A transfer of
another device that ends FAILED at its sender tears its eyelet. -/
def execEyeletPayloadWrite (t : Transfer) (data : List Byte) (s : State) : Host.Outcome State Fault Refusal :=
  match t with
  | .mine h ch => .next (s.asLive h fun s => let c := s.chan ch; if c.rem && c.begun then s.copyMove ch else s)
  | .answer _ _ _ => .next s
  | .ended dev ticket =>
    match s.fills.find? fun f => f.ofSender dev ticket with
    | some f => .next (if s.reaches dev && !s.zoneWaits ticket then s.tear f else s)
    | none => .next s
  | .theirs dev ticket _ _ =>
    match s.fillOf t with
    | none => .next s
    | some f =>
      match s.zoneAt f.core f.zone with
      | none => .next s
      | some z =>
        if s.reaches dev && !s.ownerAway z && !data.isEmpty then
          let s' := s.arrive z f data
          let e := s'.entry z f.slot
          let full := entrySt e == 3
          let s' := if full then { s' with fulls := s'.fulls ++ [(dev, ticket)] } else s'
          .next (s'.send (.acknowledge dev.val ticket (entryLen e) full))
        else .next s

end Sys2Proof.Machine
end

