-- ==== Sys2Proof/Machine/HartEvents.lean ====
section
/-! DEFINITION. What happens to a hart between its instructions: wakes, asynchronous events, switch-out and end (01 R24 to
R30, 21 R345, R346, R349). -/

namespace Sys2Proof.Machine

/-- A look at the condition of a waiting hart (R25). DESIGN CHOICE, log 39. -/
def State.lookAgain (s : State) : Run State :=
  match s.hart.waiting with
  | some (.location ge d n sc addr val) => s.waitLocation ge d n sc addr val
  | some (.copies n) => s.waitCopies n
  | some (.arrivals h count) => s.waitArrivals h count
  | some (.phase sc addr val) => s.waitPhase sc addr val
  | _ => .ok s

/-- The hart is in MONITOR. -/
def State.monitoring (s : State) : Bool := s.hart.phase == .monitor

/-- MONITOR_WAKE (R25): a hart in MONITOR checks its condition again. DESIGN CHOICE, log 39. -/
def execMonitorWake (h : Nat) (s : State) : Host.Outcome State Fault Refusal :=
  .next (s.asLive h fun s => if s.monitoring then settled s.lookAgain else s)

/-- POLL_INTERVAL (R260): a wait on a location reads it again. DESIGN CHOICE, log 39. -/
def execPollInterval (h : Nat) (s : State) : Host.Outcome State Fault Refusal :=
  .next (s.asLive h fun s =>
    match s.hart.waiting with
    | some (.location _ _ _ _ _ _) => if s.monitoring then settled s.lookAgain else s
    | _ => s)

/-- The FINFO word of a switch trap, but for DISC, which is a free value (DESIGN CHOICE, log 9). -/
def switchInfo (disc : Bool) (above : Nat) : Word := BitVec.ofNat 64 (disc.toNat + above)

/-- One pending event is taken, 0x21, 0x20 and 0x22 in turn; taking one of the first two withdraws the other (R345) and
a posted reclaim (R29), and makes the hart switch-pending (R349). Every presence bit is set (R37, R86). -/
def State.takeEvent (s : State) : State :=
  let s := s.present
  let h := s.hart
  match h.pend21, h.pend20, h.pend22 with
  | some g, _, _ =>
    let (k, s) := s.fresh
    ({ s with hart := { h with pend20 := none, pend21 := none, reclaim := none, switchPending := true } }).enterTrap true 0x21 h.pc 0
      (switchInfo (Config.discAtTrap k) (g * 2 ^ 8))
  | none, some retire, _ =>
    let (k, s) := s.fresh
    ({ s with hart := { h with pend20 := none, reclaim := none, switchPending := true } }).enterTrap true 0x20 h.pc 0
      (switchInfo (Config.discAtTrap k) (retire.toNat * 2))
  | none, none, some v => ({ s with hart := { h with pend22 := none } }).enterTrap true 0x22 h.pc 0 (v.setWidth 64)
  | none, none, none => s

/-- TAKE_ASYNC_EVENT (R345): at user level, or at kernel level with AIE. DEDUCED, log 58. -/
def execTakeAsyncEvent (h : Nat) (s : State) : Host.Outcome State Fault Refusal :=
  .next (s.asLive h fun s =>
    if (s.hart.phase == .active || s.hart.phase == .monitor) && s.hart.takesEvent then s.takeEvent else s)

/-- Cause 0x20 becomes pending on a hart that runs, once (R345). -/
def Hart.preempt (h : Hart) (retire : Bool) : Hart :=
  if (h.phase == .active || h.phase == .monitor) && h.pend20.isNone && h.pend21.isNone && !h.switchPending then
    { h with pend20 := some retire }
  else h

/-- A switch of one hart of a co-resident launch takes all of them (R27). DEDUCED, log 57. -/
def State.preemptMates (s : State) (launch hid : Nat) : State :=
  match s.launchOf launch with
  | some l => if l.cores then s.mapHarts fun h => if h.place.launch = launch ∧ h.place.hid ≠ hid then h.preempt false else h else s
  | none => s

/-- RECLAIM_TIMEOUT (R29): the timer of a posted reclaim expires. -/
def execReclaimTimeout (h : Nat) (s : State) : Host.Outcome State Fault Refusal :=
  .next (s.asLive h fun s =>
    match s.hart.reclaim with
    | some g =>
      if s.hart.phase == .active || s.hart.phase == .monitor then
        ({ s with hart := { s.hart with reclaim := none, pend21 := some g } }).preemptMates s.hart.place.launch s.hart.place.hid
      else s
    | none => s)

/-- SWITCH_OUT (R349, R350): the second half of a switch-pending hart's first `kret`. -/
def execSwitchOut (h : Nat) (s : State) : Host.Outcome State Fault Refusal :=
  .next (s.asLive h fun s =>
    match s.hart.waiting with
    | some .switchOut => settled s.switchOut
    | _ => s)

/-- HART_END (R24): VCP has reached the hart-exit address. -/
def execHartEnd (h : Nat) (s : State) : Host.Outcome State Fault Refusal :=
  .next (s.asLive h fun s =>
    if s.hart.phase == .active && s.hart.waiting.isNone && s.hart.pc == exitAddress then s.endHart 0 else s)

end Sys2Proof.Machine
end

