-- ==== Sys2Proof/Machine/Matrix.lean ====
section
/-! DEFINITION. The shared matrix unit: tile contexts, tile loads and stores, narrow-first multiplication and drains,
majors 0x48 to 0x4C (11 R218 to R232, 03 R68, R71). -/

namespace Sys2Proof.Machine

/-! ### Attachment and clearing (R218, R220) -/

/-- A hart that holds its core's context: an attached hart that is placed on the core. -/
def Hart.attachedTo (h : Hart) (core : Nat) : Bool :=
  h.tile.isSome && h.place.core == core && (h.phase == .active || h.phase == .monitor)

/-- Rows of a core that have been retired, in units of 32 (R380). -/
def State.rowsRetired (s : State) (core : Nat) : Nat := ((s.retRows.find? fun e => e.1 == core).map (·.2)).getD 0

/-- Rows of a core's context that a partition grants (R220, R307): 32 fewer for each retirement (R380). DEDUCED, log 55. -/
def State.rowsOf (s : State) (p : Fin 8) (core : Nat) : Nat := 32 * ((s.partOf p).pmrows - s.rowsRetired core)

/-- Rows of the context of the hart's core. -/
def State.rowsAvailable (s : State) : Nat := s.rowsOf s.hart.place.part s.hart.place.core

/-- The hart's context set. -/
def State.setTile (s : State) (t : Option TileCtx) : State := { s with hart := { s.hart with tile := t } }

/-- `mattach` (R220): MGRANT of a hart that is not attached reads 0 because it holds no context. -/
def execMattach (r : Fin 4) (s : State) : Host.Outcome State Fault Refusal :=
  if s.hart.tile.isSome then .next (s.setC 7 false).retire
  else if s.parked.any fun h => h.attachedTo s.hart.place.core then .next (s.setC 7 true).retire
  else
    let g := Nat.min (32 * (r.val + 1)) s.rowsAvailable
    if g = 0 then .next (s.setC 7 true).retire
    else .next ((s.setTile (some { rows := g })).setC 7 false).retire

/-- Retired rows that wait for the release of a core's context take effect (R380 KIND 3). -/
def State.retireRowsOf (s : State) (core : Nat) : State :=
  let n := (s.retRowsPend.filter fun c => c == core).length
  if n = 0 then s
  else { s with
    retRows := (core, s.rowsRetired core + n) :: s.retRows.filter fun e => e.1 != core
    retRowsPend := s.retRowsPend.filter fun c => c != core
    service := { s.service with retstat := 2 } }

/-- `mdetach` (R220). DEDUCED, log 55. -/
def execMdetach (s : State) : Host.Outcome State Fault Refusal :=
  if s.hart.tile.isSome then .next ((s.setTile none).retireRowsOf s.hart.place.core).retire else .next s.retire

/-- The context of an attached hart, or the matrix-detached trap (R221 item 1). -/
def State.context (s : State) : Run TileCtx :=
  match s.hart.tile with
  | some t => .ok t
  | none => s.trap s.detached

/-- An operand tile replaced. -/
def TileCtx.setT (c : TileCtx) (d : TNum) (t : TReg) : TileCtx := { c with t := c.t.set d.val t }
/-- An accumulator tile replaced. -/
def TileCtx.setZ (c : TileCtx) (d : ZNum) (z : ZReg) : TileCtx := { c with z := c.z.set d.val z }

/-- `mzero` of an operand tile (R220). -/
def execMzeroT (d : TNum) (s : State) : Host.Outcome State Fault Refusal :=
  finish do
    let c ← s.context
    .ok (s.setTile (some (c.setT d { shape := c.t[d.val].shape }))).retire
/-- `mzero` of an accumulator tile (R220). -/
def execMzeroZ (d : ZNum) (s : State) : Host.Outcome State Fault Refusal :=
  finish do
    let c ← s.context
    .ok (s.setTile (some (c.setZ d { shape := c.z[d.val].shape }))).retire

/-! ### Loading and storing tiles (R222, R223) -/

/-- Bits of a row of a tile (R41). -/
def rowBits (operand : Bool) : Nat := if operand then 1024 else 4096

/-- The bytes that one access moves: an element, or two fp4 elements. -/
def Shape.unit (y : Shape) : Nat := elemBytes y.tag

/-- Accesses of one row of `vl` elements. -/
def Shape.perRow (y : Shape) (vl : Nat) : Nat := vl * tagBits y.tag / 8 / y.unit

/-- The conditions of R222: TAG none, too many rows, too many columns, BM, and odd VL or PITCH with fp4. A last without a tag is a
source without one where the tile is read, a tag that the entry excludes where it is written (R348, DEDUCED, log 34). -/
def State.tileFaults (s : State) (y : Shape) (bm reads : Bool) : List (Bool × Nat) :=
  [(y.tag == .none, if reads then 2 else 3), (decide (y.rows < s.hart.rows), 4), (!bm && decide (y.cols < s.hart.vl), 4), (y.bm != bm, 4),
    (y.tag == .fp4 && (s.hart.vl % 2 != 0 || s.hart.pitch.toNat % 2 != 0), 4)]

/-- A tag-fault with the lowest reason of the conditions that hold. -/
def State.tagCheck (s : State) (l : List (Bool × Nat)) : Run Unit :=
  match lowestReason l with
  | some r => s.trap (s.tagFault r)
  | none => .ok ()

/-- The address of unit u of a tile access, at its row and place in the row. -/
def State.tileAddr (s : State) (y : Shape) (base : Word) (u : Nat) : List Word :=
  let per := y.perRow s.hart.vl
  [base + BitVec.ofNat 64 (u / per) * s.hart.pitch + BitVec.ofNat 64 (u % per * y.unit)]

/-- The bit at which unit u lies in its tile. -/
def State.tileBit (s : State) (y : Shape) (operand : Bool) (u : Nat) : Nat :=
  let per := y.perRow s.hart.vl
  u / per * rowBits operand + u % per * y.unit * 8

/-- The units of an access. -/
def State.tileUnits (s : State) (y : Shape) : List Nat := List.range (s.hart.rows * y.perRow s.hart.vl)

/-- Loaded units written into a tile's bits. -/
def State.putUnits (s : State) (y : Shape) (operand : Bool) (bits : Nat) (out : List (Nat × List Nat)) : Nat :=
  out.foldl (fun b (u, vs) => setBitsAt b (s.tileBit y operand u) (8 * y.unit) (vs.getD 0 0)) bits

/-- A load that begins only when every check of it holds (R221, R222). -/
def State.loadAll (s : State) (n : Nat) (addr : Nat → List Word) (es : List Nat) : Run (List (Nat × List Nat) × State) :=
  let (ok, bad) := s.checkElems .load n addr es
  match bad with
  | some (_, r) => s.trap (s.trapOf r)
  | none =>
    match s.readElems n ok with
    | (_, s', some (_, r)) => s'.trap (s'.trapOf r)
    | (out, s', none) => .ok (out, s')

/-- A load of tile units (R222): nothing is written unless every access has performed. -/
def State.loadUnits (s : State) (y : Shape) (base : Word) : Run (List (Nat × List Nat) × State) :=
  s.loadAll y.unit (s.tileAddr y base) (s.tileUnits y)

/-- A load covers a whole tile of 128 rows (R356). -/
def State.wholeTile (s : State) (y : Shape) (operand : Bool) : Bool :=
  s.hart.rows == 128 && s.hart.vl * tagBits y.tag == rowBits operand

/-- A matrix instruction that operates under VL completes: VSI is 0 (R12, DEDUCED, log 37). -/
def State.mdone (s : State) : State := (s.setVsi 0).retire

/-- `mld` of an operand tile (R222). DEDUCED, log 37. -/
def execMldT (d : TNum) (a : XReg) (_hint : Hint) (s : State) : Host.Outcome State Fault Refusal :=
  finish do
    let c ← s.context
    let t := c.t[d.val]
    s.tagCheck (s.tileFaults t.shape false false)
    let (out, s') ← s.drain.loadUnits t.shape (s.x a)
    let t' := { t with bits := s.putUnits t.shape true t.bits out, poison := t.poison && !s.wholeTile t.shape true }
    .ok (s'.setTile (some (c.setT d t'))).mdone

/-- `mld` of an accumulator tile (R222). -/
def execMldZ (d : ZNum) (a : XReg) (_hint : Hint) (s : State) : Host.Outcome State Fault Refusal :=
  finish do
    let c ← s.context
    let z := c.z[d.val]
    s.tagCheck (s.tileFaults z.shape false false)
    let (out, s') ← s.drain.loadUnits z.shape (s.x a)
    let z' := { z with bits := s.putUnits z.shape false z.bits out, poison := z.poison && !s.wholeTile z.shape false }
    .ok (s'.setTile (some (c.setZ d z'))).mdone

/-- The address of a tile row at a base. -/
def rowAddr (base pitch : Word) (i : Nat) : Word := base + BitVec.ofNat 64 i * pitch

/-- The columns of a bitmap row that hold a value, ascending. -/
def presentCols (bm : Nat) : List Nat := (List.range 128).filter (bitAt bm)

/-- The slots that a row's present values take: packed in order, or at their own columns (R223). -/
def rowSlots (pk : Bool) (bm : Nat) : List Nat :=
  if pk then List.range (popCount 128 bm) else presentCols bm

/-- `mldbm` (R222, R223): every bitmap row is checked and read, then every value it selects. -/
def execMldbm (d : TNum) (b a : XReg) (_hint : Hint) (s : State) : Host.Outcome State Fault Refusal :=
  finish do
    let c ← s.context
    let t := c.t[d.val]
    let y := t.shape
    s.tagCheck (s.tileFaults y true false)
    let s := s.drain
    s.require ((s.x b).toNat % 16 == 0) (s.misaligned (s.x b))
    let (maps, s1) ← s.loadAll 16 (fun i => [rowAddr (s.x b) 16 i]) (List.range s.hart.rows)
    let w := tagBits y.tag / 8
    let rows := maps.map fun (i, v) => (i, (v.getD 0 0) % 2 ^ Nat.min y.cols 128)
    let want := rows.flatMap fun (i, bm) => (rowSlots y.pk bm).map fun k => (i, k)
    let at' (e : Nat) : Nat × Nat := want.getD e (0, 0)
    let (vals, s2) ← s1.loadAll w
      (fun e => [rowAddr (s.x a) s.hart.pitch (at' e).1 + BitVec.ofNat 64 ((at' e).2 * w)]) (List.range want.length)
    let cleared := rows.foldl (fun v (i, _) => setBitsAt v (i * 1024) 1024 0) t.bits
    let bits := vals.foldl (fun v (e, l) => setBitsAt v ((at' e).1 * 1024 + (at' e).2 * w * 8) (8 * w) (l.getD 0 0)) cleared
    let bitmap := rows.foldl (fun v (i, bm) => setBitsAt v (i * 128) 128 bm) t.bitmap
    let t' := { t with bits := bits, bitmap := bitmap, poison := t.poison && s.hart.rows != 128 }
    .ok (s2.setTile (some (c.setT d t'))).mdone

/-- A reader of tile storage that holds uncorrectable data (R232, R356). -/
def State.tileBad (s : State) : Trap := ⟨0x12, 0, s.info (5 * 2 ^ 41)⟩

/-- A tile store (R222): every check precedes the first access; a target that refuses, uncorrectable data or a live barrier word stops
after the elements below it, with VSI unchanged. -/
def mst (y : Shape) (operand poison : Bool) (bits : Nat) (a : XReg) (s : State) : Run State := do
  s.tagCheck (s.tileFaults y false true)
  s.require (!poison) s.tileBad
  let s := s.drain
  let (ok, bad) := s.checkElems .store y.unit (s.tileAddr y (s.x a)) (s.tileUnits y)
  match bad with
  | some (_, r) => s.trap (s.trapOf r)
  | none =>
    match s.writeElems .through y.unit (fun _ => none) (fun u => [bitsAt bits (s.tileBit y operand u) (8 * y.unit)]) ok with
    | (s', some (_, r)) => s'.trap (s'.trapOf r)
    | (s', none) => .ok s'.mdone

/-- `mst` of an operand tile (R222). DEDUCED, log 37. -/
def execMstT (d : TNum) (a : XReg) (s : State) : Host.Outcome State Fault Refusal :=
  finish do
    let c ← s.context
    mst c.t[d.val].shape true c.t[d.val].poison c.t[d.val].bits a s
/-- `mst` of an accumulator tile (R222). -/
def execMstZ (d : ZNum) (a : XReg) (s : State) : Host.Outcome State Fault Refusal :=
  finish do
    let c ← s.context
    mst c.z[d.val].shape false c.z[d.val].poison c.z[d.val].bits a s

/-! ### Multiplication: operands (R224 to R227) -/

/-- The accumulator tag and the K-block of two operand tags (R224, R71). -/
def stepTags (a b : Tag) : Option (Tag × Nat) :=
  let small (t : Tag) : Bool := t == .fp4 || t == .e4m3 || t == .e5m2
  let int (t : Tag) : Bool := t == .i8 || t == .ui8
  if int a && int b then some (.i32, 32)
  else if small a && small b then some (.fp32, 32)
  else if a = b ∧ (a = .bf16 ∨ a = .fp16 ∨ a = .fp32) then some (.fp32, 32)
  else if a = .fp64 ∧ b = .fp64 then some (.fp64, 16)
  else none

/-- The value of an element of an operand tile: an integer as a value of exponent 0. -/
def tileValue (t : Tag) (bits : Nat) : FVal :=
  match tagFmt t with
  | some f => f.value bits
  | none => let i := intValue t bits; .fin (decide (i < 0)) i.natAbs 0

/-- Element (i, k) of a tile when it takes part in a step (R225); a packed value stands at its slot (R223). -/
def TReg.element (t : TReg) (i k : Nat) : Option FVal :=
  let y := t.shape
  let w := tagBits y.tag
  let bm := bitsAt t.bitmap (i * 128) 128
  if y.rows ≤ i ∨ y.cols ≤ k then none
  else if y.bm && !bitAt bm k then none
  else
    let slot := if y.pk then popCount k bm else k
    some (tileValue y.tag (bitsAt t.bits (i * 1024 + slot * w) w))

/-- Rows 0 to n − 1 of a tile, K columns each. -/
def TReg.operand (t : TReg) (n k : Nat) : List (List (Option FVal)) :=
  (List.range n).map fun i => (List.range k).map (t.element i)

/-- The rungs (R226): whether one narrows a stored tag. -/
def rungNarrows (r : Nat) (t : Tag) : Bool :=
  match r with
  | 0 => [Tag.e4m3, .e5m2, .bf16, .fp16, .fp32, .fp64].contains t
  | 1 => [Tag.bf16, .fp16, .fp32, .fp64].contains t
  | 2 => [Tag.fp32, .fp64].contains t
  | _ => false

/-- The format of an attempt, and emaxF of a block-scaled one (R226, R227). -/
def rungFmt (r : Nat) : Fmt := if r = 0 then ⟨2, 1, .fp4⟩ else if r = 1 then ⟨4, 3, .e4m3⟩ else ⟨8, 7, .ieee⟩
/-- emaxF (R227). -/
def rungEmax (r : Nat) : Int := if r = 0 then 2 else 8

/-- The attempt list L (R226). -/
def attempts (a b : Tag) (start ceil : Nat) : List Nat :=
  (List.range 4).filter fun r => r == ceil || (decide (start ≤ r) && decide (r < ceil) && (rungNarrows r a || rungNarrows r b))

/-- floor_log2 of a finite nonzero value's magnitude. -/
def floorLog2 (m : Nat) (e : Int) : Int := m.log2 + e

/-- The exponents of the finite nonzero elements of a block. -/
def blockExps (l : List (Option FVal)) : List Int :=
  l.filterMap fun x => match x with
    | some (.fin _ m e) => if m = 0 then none else some (floorLog2 m e)
    | _ => none

/-- t of a scale block (R227). -/
def blockScale (r : Nat) (l : List (Option FVal)) : Int :=
  match (blockExps l).max? with
  | none => 0
  | some eb => max (-127) (min 127 (rungEmax r - eb))

/-- A narrowed element with its counts of saturations and underflows. -/
structure Narrowed where
  value : Option FVal
  sat   : Nat := 0
  uf    : Nat := 0
deriving DecidableEq, Repr

/-- Narrowing one element with a scale exponent (R227). DEDUCED, log 11. -/
def narrowOne (r : Nat) (t : Int) (x : Option FVal) : Narrowed :=
  match x with
  | none => { value := none }
  | some (.fin s m e) =>
    if m = 0 then { value := some (.fin s m e) }
    else
      let f := rungFmt r
      let q := f.round .rne false s m (e + t)
      let back (v : FVal) : FVal := match v with | .fin n k g => .fin n k (g - t) | v => v
      if q.flags.of then { value := some (back (f.value (f.maxBits s))), sat := 1 }
      else match f.value q.bits with
        | .fin n 0 g => { value := some (.fin n 0 g), uf := 1 }
        | v => { value := some (back v) }
  | some v => { value := some v, sat := if r < 2 then 1 else 0 }

/-- A row cut into blocks of n columns. -/
def chunks (n : Nat) : Nat → List (Option FVal) → List (List (Option FVal))
  | 0, _ => []
  | fuel + 1, l => if l.isEmpty then [] else l.take n :: chunks n fuel (l.drop n)

/-- Narrowing a row (R227): rung 2 has no scale. -/
def narrowRow (r : Nat) (row : List (Option FVal)) : List Narrowed :=
  (chunks 32 row.length row).flatMap fun b => b.map (narrowOne r (if r < 2 then blockScale r b else 0))

/-- An operand as it enters an attempt, with its counts. -/
def narrow (r : Nat) (t : Tag) (rows : List (List (Option FVal))) : List (List (Option FVal)) × Nat × Nat :=
  if rungNarrows r t then
    let l := rows.map (narrowRow r)
    let all := l.flatten
    (l.map fun row => row.map (·.value), (all.map (·.sat)).foldl (· + ·) 0, (all.map (·.uf)).foldl (· + ·) 0)
  else (rows, 0, 0)

/-! ### Multiplication: the step (R71, R228 to R230) -/

/-- The products of a block's effectual pairs. -/
def blockProducts : List (Option FVal) → List (Option FVal) → List FVal
  | some a :: as, some b :: bs => a.times b :: blockProducts as bs
  | _ :: as, _ :: bs => blockProducts as bs
  | _, _ => []

/-- The least exponent of the finite products. -/
def leastExp (l : List FVal) : Int :=
  ((l.filterMap fun v => match v with | .fin _ _ e => some e | _ => none).min?).getD 0

/-- The exact sum of finite products in units of 2^e0. -/
def sumAt (e0 : Int) (l : List FVal) : Int :=
  l.foldl (fun a v => match v with | .fin s m e => a + scaledInt s m e e0 | _ => a) 0

/-- The exact sum of a block (R71, R230); a zero sum is −0 only when every product is −0. -/
def blockSum (l : List FVal) : FVal :=
  let pinf := l.any fun v => v == .inf false
  let ninf := l.any fun v => v == .inf true
  if (pinf && ninf) || l.any FVal.isNan then .nan ((pinf && ninf) || l.any FVal.isSig)
  else if pinf || ninf then .inf ninf
  else
    let e0 := leastExp l
    let v := sumAt e0 l
    if v = 0 then .fin (l.all FVal.negSign) 0 0 else .fin (decide (v < 0)) v.natAbs e0

/-- A cancellation (R228) with C = CBITS. -/
def cancels (c : Nat) (l : List FVal) : Bool :=
  let exps := blockExps (l.map some)
  c != 0 && (l.all fun v => match v with | .fin _ _ _ => true | _ => false) &&
    (match exps.max? with
      | none => false
      | some pm => match blockSum l with
        | .fin _ 0 _ => true
        | .fin _ m e => decide (floorLog2 m e < pm - c)
        | _ => false)

/-- One accumulator element over its K-blocks: the new bits, the flags, the cancellations (R71, R229). -/
def stepElement (zt : Tag) (c : Nat) (z : Nat) : List (List (Option FVal) × List (Option FVal)) → Nat × Flags × Nat
  | [] => (z, noFlags, 0)
  | (a, b) :: rest =>
    let ps := blockProducts a b
    if ps.isEmpty then stepElement zt c z rest
    else match tagFmt zt with
      | none =>
        let (z', fl, n) := stepElement zt c (ofInt 32 (sumAt 0 ps + z)) rest
        (z', fl, n)
      | some f =>
        let r := f.add .rne false (blockSum ps) (f.value z)
        let (z', fl, n) := stepElement zt c r.bits rest
        (z', orFlags r.flags fl, n + (cancels c ps).toNat)

/-- An attempt: the new elements with their bit offsets, the flags and the cancellations (R229). -/
def attempt (zt : Tag) (kb c : Nat) (z : ZReg) (a b : List (List (Option FVal))) : List (Nat × Nat) × Flags × Nat :=
  let w := tagBits zt
  let cut (l : List (List (Option FVal))) := l.map fun row => chunks kb row.length row
  let bs := (cut b).zipIdx
  let cells := (cut a).zipIdx.flatMap fun (ra, i) => bs.map fun (rb, j) =>
    let off := i * 4096 + j * w
    (off, stepElement zt c (bitsAt z.bits off w) (ra.zip rb))
  (cells.map fun (o, r) => (o, r.1), cells.foldl (fun fl (_, r) => orFlags fl r.2.1) noFlags,
    cells.foldl (fun n (_, r) => n + r.2.2) 0)

/-- A counter of MREPLAY stepped (R229). -/
def TileCtx.stepReplay (c : TileCtx) (r : Nat) : TileCtx :=
  { c with mreplay := c.mreplay.setIfInBounds r ((c.mreplay[r]?.getD 0) + 1) }

/-- The ladder (R229): attempts in turn, each squashed when it exceeds its budgets and is not the last. -/
def climb (m : Mbudget) (zt : Tag) (kb : Nat) (d : ZNum) (ta tb : Tag) (a b : List (List (Option FVal))) (c : TileCtx) :
    List Nat → TileCtx × Flags
  | [] => (c, noFlags)
  | r :: rest =>
    let (na, sa, ua) := narrow r ta a
    let (nb, sb, ub) := narrow r tb b
    let z := c.z[d.val]
    let (cells, fl, can) := attempt zt kb m.cbits z na nb
    let exceeds := decide (m.satb < sa + sb) || decide (m.ufb < ua + ub) || decide (m.canb < can)
    match rest with
    | next :: _ =>
      if exceeds then climb m zt kb d ta tb a b (c.stepReplay next) rest
      else
        let z' := { z with bits := cells.foldl (fun v (o, x) => setBitsAt v o (tagBits zt) x) z.bits }
        ({ c.setZ d z' with rung := Fin.ofNat 4 r }, fl)
    | [] =>
      let z' := { z with bits := cells.foldl (fun v (o, x) => setBitsAt v o (tagBits zt) x) z.bits }
      ({ c.setZ d z' with rung := Fin.ofNat 4 r, ceilx := c.ceilx || exceeds }, fl)

/-- A multiply step with its bitmap requirement (R224, R225, R229). -/
def multiply (bma bmb : Bool) (d : ZNum) (a b : TNum) (start ceil : Fin 4) (s : State) : Run State := do
  let c ← s.context
  let ta := c.t[a.val]
  let tb := c.t[b.val]
  let z := c.z[d.val]
  let k := stepTags ta.shape.tag tb.shape.tag
  s.tagCheck [(untyped ta.shape.tag || untyped tb.shape.tag || untyped z.shape.tag, 2),
    (k.isNone, 3), ((k.map (·.1)).getD .none != z.shape.tag, 3), (ta.shape.bm != bma || tb.shape.bm != bmb, 4)]
  if z.shape.rows = 0 ∨ z.shape.cols = 0 then .ok s.retire
  else
    s.require (!(ta.poison || tb.poison || z.poison)) s.tileBad
    let (zt, kb) := k.getD (.none, 32)
    let cols := Nat.max ta.shape.cols tb.shape.cols
    let (c', fl) := climb s.hart.mbudget zt kb d ta.shape.tag tb.shape.tag (ta.operand z.shape.rows cols)
      (tb.operand z.shape.cols cols) c (attempts ta.shape.tag tb.shape.tag start.val ceil.val)
    .ok ((s.setTile (some c')).raise fl false).retire

/-- `mma` (R224, R229). -/
def execMma (d : ZNum) (a b : TNum) (start ceil : Fin 4) (_rm : Option Rounding) (s : State) : Host.Outcome State Fault Refusal :=
  finish (multiply false false d a b start ceil s)
/-- `mma.sp` (R224, R229). -/
def execMmaSp (d : ZNum) (a b : TNum) (start ceil : Fin 4) (_rm : Option Rounding) (s : State) : Host.Outcome State Fault Refusal :=
  finish (multiply true false d a b start ceil s)
/-- `mma.ss` (R224, R229). -/
def execMmaSs (d : ZNum) (a b : TNum) (start ceil : Fin 4) (_rm : Option Rounding) (s : State) : Host.Outcome State Fault Refusal :=
  finish (multiply true true d a b start ceil s)

/-! ### Draining (R231) -/

/-- The conditions of R231 that all drains share. -/
def State.drainFaults (s : State) (z : Shape) (mk : MNum) : List (Bool × Nat) :=
  let n := s.hart.rows * s.hart.vl
  let t := s.hart.vcfg.tag
  [(z.tag == .none, 2), (decide (z.rows < s.hart.rows), 4), (decide (z.cols < s.hart.vl), 4), (t == .sc8, 2),
    (tooWide (tagBits z.tag) (tagBits t), 3), (mk.val != 0 && decide (s.hart.mlen < n), 5)]

/-- Element e of a drain, converted (R231). -/
def State.drained (s : State) (z : ZReg) (m : Rounding) (sat : Bool) (e : Nat) : FRes :=
  let w := tagBits z.shape.tag
  (convertTag z.shape.tag s.hart.vcfg.tag m sat (bitsAt z.bits (e / s.hart.vl * 4096 + e % s.hart.vl * w) w)).getD (.plain 0)

/-- The flags of some elements of a drain (R67). -/
def State.drainRaise (s : State) (f : Nat → FRes) (es : List Nat) : State :=
  let (_, fl, sat) := runElems f es
  s.raise fl sat

/-- A drain to memory (R231): from VSI, with the flags of the elements stored, and VSI at the element that fails or, where it is
stopped (R19), at the first one left. While VCFG.TAG is none the tag-fault comes first, before a detached hart's trap (R383 against
R221; DESIGN CHOICE, log 64). -/
def drainMem (z : ZNum) (mk : MNum) (m : Rounding) (sat : Bool) (srcs : List Grp) (more : List (Bool × Nat))
    (row : State → Nat → Int) (a : XReg) (s : State) : Run State := do
  s.needRef
  let c ← s.context
  let k := c.z[z.val]
  let s ← s.drain.prepare srcs [] (masksOf mk) false 0 (s.drainFaults k.shape mk ++ more)
  s.require (!k.poison) s.tileBad
  let w := elemBytes s.hart.vcfg.tag
  let vl := s.hart.vl
  let (acts, left) := s.share (s.actives mk (s.hart.rows * vl))
  let f := s.drained k m sat
  let addr (e : Nat) : List Word := [s.x a + BitVec.ofInt 64 (row s (e / vl)) * s.hart.pitch + BitVec.ofNat 64 (e % vl * w)]
  let (s', bad) := s.storeElems .through w (fun _ => none) addr (fun e => [(f e).bits]) acts
  let done := match bad with | some (e, _) => acts.filter fun i => decide (i < e) | none => acts
  (s'.drainRaise f done).endAccess srcs bad left

/-- `mdrain` (R231). DEDUCED, log 35. DEDUCED, log 37. -/
def execMdrain (z : ZNum) (mk : MNum) (a : XReg) (rm : Option Rounding) (sat : Bool) (s : State) : Host.Outcome State Fault Refusal :=
  finish do
    let m ← s.mode rm
    drainMem z mk m sat [] [] (fun _ i => i) a s

/-- `mdrain.x` (R231): one index register of an integer tag names the rows. -/
def execMdrainX (z : ZNum) (mk : MNum) (i : VNum) (a : XReg) (rm : Option Rounding) (sat : Bool) (s : State) :
    Host.Outcome State Fault Refusal :=
  finish do
    let m ← s.mode rm
    let t := s.vtagOf i
    let g : Grp := ⟨i.val, 1, tagBits t⟩
    drainMem z mk m sat [g] [(untyped t, 2), (!tagInt t, 3)]
      (fun s k => indexInt t (elemAt (s.bitsOf g) (tagBits t) k)) a s

/-- `mdrainv` (R231): indivisible; VSI is not read. The order of R383 and R221 as for the other drains (log 64). DEDUCED, log 37. -/
def execMdrainv (z : ZNum) (mk : MNum) (d : VNum) (rm : Option Rounding) (sat : Bool) (s : State) : Host.Outcome State Fault Refusal :=
  finish do
    let m ← s.mode rm
    s.needRef
    let c ← s.context
    let k := c.z[z.val]
    let n := s.hart.rows * s.hart.vl
    let g := s.dataGrp d
    let s ← s.prepare [] [g] (masksOf mk) false 0 (s.drainFaults k.shape mk ++ [(decide (s.hart.vlmax < n), 5)])
    s.require (!k.poison) s.tileBad
    let (l, fl, sat') := runElems (s.drained k m sat) ((List.range n).filter (s.active mk))
    .ok ((s.writeGroup g (some s.hart.vcfg.tag) l).raise fl sat').mdone

end Sys2Proof.Machine
end

