-- ==== Sys2Proof/Machine/Scheduler.lean ====
section
/-! DEFINITION. The chiplet schedulers: candidates and their order, placement, pre-emption, reclaims, restores, the end of
a launch, and the ways a packet reaches a queue (19 R311 to R330, 21 R355, 01 R21, R27). -/

namespace Sys2Proof.Machine

/-! ### Candidates and their order (R319, R320) -/

/-- Effective priority (R319): aged while a candidate, else the value it kept. -/
def State.eff (s : State) (l : Launch) : Nat :=
  if s.isCandidate l then
    Nat.min 7 (l.pri + (s.time - l.since) / Nat.max 1 (s.scheds[l.part.val]).ageth)
  else l.prio

/-- The deficit of a launch's queue. -/
def State.deficitOf (s : State) (l : Launch) : Int := (s.queue l.queue).deficit

/-- Among candidates of one effective priority (R320): larger deficit, lower queue, older launch. -/
def State.before (s : State) (a b : Launch) : Bool :=
  if s.deficitOf a ≠ s.deficitOf b then decide (s.deficitOf b < s.deficitOf a)
  else if a.queue ≠ b.queue then decide (a.queue < b.queue)
  else decide (a.id < b.id)

/-- A list with an element put in where an order wants it. -/
def putIn {α : Type} (lt : α → α → Bool) (a : α) : List α → List α
  | [] => [a]
  | b :: rest => if lt a b then a :: b :: rest else b :: putIn lt a rest

/-- A list in an order. -/
def inOrder {α : Type} (lt : α → α → Bool) (l : List α) : List α := l.foldr (putIn lt) []

/-- The candidate chosen of a list (R319, R320): of the highest effective priority; a queue head only where no candidate of it has harts
to restore. DEDUCED, log 41. -/
def State.pick (s : State) (l : List Launch) : Option Launch :=
  let top := (l.map s.eff).max?
  let cs := l.filter fun c => some (s.eff c) == top
  let cs := if cs.any fun c => !(s.awayHarts c).isEmpty then cs.filter fun c => c.state != .ready else cs
  (inOrder s.before cs).head?

/-- A list of candidates in the order in which they are chosen. -/
def State.ranked (s : State) : Nat → List Launch → List Launch
  | 0, _ => []
  | n + 1, l => match s.pick l with
    | none => []
    | some c => c :: s.ranked n (l.filter fun k => k.id != c.id)

/-- The candidates of a partition, first chosen first. -/
def State.candidates (s : State) (p : Fin 8) : List Launch :=
  let l := s.launches.filter fun l => l.part == p && s.isCandidate l
  s.ranked l.length l

/-- Harts of a queue's launches that are ACTIVE or MONITOR. -/
def State.queueLoad (s : State) (q : Nat) : Nat :=
  (s.harts.filter fun h => (h.phase == .active || h.phase == .monitor) &&
    (match s.launchOf h.place.launch with | some l => l.queue == q | none => false)).length

/-- A launch of the queue is WAITING, READY or RUNNING. -/
def State.queueLive (s : State) (q : Nat) : Bool :=
  s.launches.any fun l => l.queue == q && (l.state == .waiting || l.state == .ready || l.state == .running)

/-- Time passes (R319, R320): the cycles are a free value (DESIGN CHOICE, log 7). Deficits fall by each queue's harts, and an idle queue
keeps none above 0. -/
def State.tick (s : State) : State :=
  let (k, s) := s.fresh
  let n := Config.elapsed k
  let qs := s.queues.map fun (q, v) =>
    let d := v.deficit - (n : Int) * (s.queueLoad q : Int)
    (q, { v with deficit := if s.queueLive q then d else (if d < 0 then d else 0) })
  { s with time := s.time + n, queues := qs }

/-- Deficits topped up by QUANT when no candidate of the top effective priority has one above 0 (R320). -/
def State.topUp (s : State) (p : Fin 8) : State :=
  match s.candidates p with
  | [] => s
  | c :: rest =>
    let top := (c :: rest).filter fun l => s.eff l == s.eff c
    if top.any fun l => decide (0 < s.deficitOf l) then s
    else
      let quant : Int := (s.scheds[p.val]).quant
      ((top.map Launch.queue).eraseDups).foldl (fun s q =>
        let v := s.queue q
        let d := v.deficit + quant
        s.setQueue q { v with deficit := if d < quant then d else quant }) s

/-! ### Where a candidate fits (R321, R325) -/

/-- What the scheduler does for a candidate. -/
inductive Plan where
  | place (home grant : Nat) (at' : List Hold)
  | restore (at' : List Hold)
deriving DecidableEq, Repr

/-- The places of a plan. -/
def Plan.holds : Plan → List Hold
  | .place _ _ l => l
  | .restore l => l

/-- The bytes of a save's header at an offset. -/
def headerWord (m : List Host.Cell) (pages : List (Nat × Nat)) (off : Nat) : Nat := Memory.readN m (areaByte pages off) 8

/-- Rows of a matrix context that a save's header tells of; 0 where the header does not translate. -/
def rowsSavedAt (m : List Host.Cell) : Option (List (Nat × Nat)) → Nat
  | none => 0
  | some hp => if bitAt (headerWord m hp 0x330) 8 then headerWord m hp 0x150 else 0

/-- Rows that a save area asks its core for (R355): none unless FORMAT[8] is set. -/
def State.savedRows (s : State) (h : Hart) : Nat := rowsSavedAt s.mem (s.areaPages h [(0, 0)]).toOption

/-- A core's context can take a restored matrix grant (R220, R355). -/
def State.contextFree (s : State) (p : Fin 8) (core rows : Nat) : Bool :=
  rows == 0 || (!(s.harts.any fun h => h.attachedTo core) &&
    decide (rows ≤ s.rowsOf p core))

/-- The place of one restored hart on a grant (R325); the owner of a live zone goes to its own core and pieces (R250). `taken`: cores
whose context this restore already gives away. -/
def State.placeBack (s : State) (hs : List Hold) (cores taken : List Nat) (l : Launch) (h : Hart) (g : Nat) : Option Hold :=
  let rows := s.savedRows h
  let owner := s.ownsZone h.place.hid
  let able := cores.filter fun c =>
    (!owner || c == h.place.core) && (rows == 0 || !taken.contains c) && s.contextFree l.part c rows
  (s.placeOne hs able l.home g (if owner then 0 else h.place.pieces.length) h.place.hid).map fun k =>
    if owner then { k with pieces := h.place.pieces } else k

/-- The grants of a restore: from 2^PREFLG down to the saved Ge (R325). -/
def Hart.grantsBack (h : Hart) (l : Launch) : List Nat := grants h.ge.log2 l.preflg

/-- Places for all of some harts, each on the largest grant with which it and the harts after it find one. -/
def State.placeAllBack (s : State) (cores : List Nat) (l : Launch) : List Hart → List Hold → List Nat → Option (List Hold)
  | [], _, _ => some []
  | h :: rest, hs, taken =>
    (h.grantsBack l).findSome? fun g =>
      match s.placeBack hs cores taken l h g with
      | none => none
      | some k =>
        (s.placeAllBack cores l rest (k :: hs) (if s.savedRows h = 0 then taken else k.core :: taken)).map (k :: ·)

/-- The restore of a launch's harts: of all harts of a co-resident launch in one step (R27), else of the first hart that
fits. DEDUCED, log 41. -/
def State.planRestore (s : State) (hs : List Hold) (cores : List Nat) (l : Launch) : Option (List Hold) :=
  let away := s.awayHarts l
  if away.isEmpty then none
  else if l.cores then s.placeAllBack cores l away hs []
  else away.findSome? fun h => (h.grantsBack l).findSome? fun g => (s.placeBack hs cores [] l h g).map fun k => [k]

/-- How a candidate fits among some cores when `hs` is held; harts to restore come first. -/
def State.planFor (s : State) (hs : List Hold) (cores : List Nat) (l : Launch) : Option Plan :=
  match s.planRestore hs cores l with
  | some at' => some (.restore at')
  | none =>
    if l.state = .ready ∨ (l.state = .running ∧ !l.cores ∧ l.placed < l.harts) then
      (s.planLaunch hs cores l).map fun (home, g, at') => .place home g at'
    else none

/-- The cores open to a candidate: those of its partition, without a reserved launch's target cores for a lower effective priority
(R322), and for the same one, or the reserved launch could not be placed in time (DEDUCED, log 41). -/
def State.openCores (s : State) (l : Launch) : List Nat :=
  match (s.partOf l.part).reserved with
  | none => s.partCores l.part
  | some (n, target) =>
    match s.launchOf n with
    | none => s.partCores l.part
    | some r =>
      if r.id ≠ l.id ∧ s.eff l ≤ s.eff r then (s.partCores l.part).filter fun c => !target.contains c
      else s.partCores l.part

/-- How a candidate fits now. -/
def State.plan (s : State) (l : Launch) : Option Plan := s.planFor s.holds (s.openCores l) l

/-! ### The reserved launch and pre-emption (R322 to R324) -/

/-- RUNNING launches of a partition below an effective priority: lowest first, most recently placed first among equals. -/
def State.victims (s : State) (p : Fin 8) (e : Nat) : List Launch :=
  inOrder (fun a b => if s.eff a ≠ s.eff b then decide (s.eff a < s.eff b) else decide (b.order < a.order))
    (s.launches.filter fun l => l.part == p && l.state == .running && decide (s.eff l < e))

/-- What is held without the harts of some launches that run. -/
def State.holdsWithout (s : State) (ls : List Launch) : List Hold :=
  (s.harts.filter fun h => !(ls.any fun l => l.id == h.place.launch) || h.phase == .ended).filterMap s.holdOf

/-- The target cores of a candidate (R322, R323): where R321 would place it, or the next hart of a launch that is not
co-resident, if everything of lower effective priority were free. -/
def State.targetCores (s : State) (l : Launch) : Option (List Nat) :=
  (s.planFor (s.holdsWithout (s.victims l.part (s.eff l))) (s.openCores l) l).map fun p =>
    let cs := (p.holds.map Hold.core).eraseDups
    if l.cores then cs else cs.take 1

/-- What a hart will hold once what has been asked of it is done: a posted reclaim's clusters, and nothing but a live
zone's pieces after a switch. -/
def State.soonOf (s : State) (h : Hart) : Option Hold :=
  if (h.phase == .active || h.phase == .monitor) && (h.switchPending || h.pend20.isSome || h.pend21.isSome) then
    if s.ownsZone h.place.hid then some ⟨h.place.hid, h.place.core, h.place.slot, 0, 0, h.place.pieces⟩ else none
  else (s.holdOf h).map fun k => match h.reclaim with | some g => { k with grant := Nat.min g k.grant } | none => k

/-- Everything held once all that has been asked for is done. -/
def State.soon (s : State) : List Hold := s.harts.filterMap s.soonOf

/-- A hart that a halving can be posted to (R29): none is posted yet, and no switch is on its way. -/
def Hart.canHalve (h : Hart) (least : Nat) : Bool :=
  (h.phase == .active || h.phase == .monitor) && h.reclaim.isNone && h.pend20.isNone && h.pend21.isNone && !h.switchPending &&
    decide (least < h.place.grant)

/-- The harts that R323 takes from, in its order: launch by launch, ascending hart index, on the target cores. -/
def State.victimHarts (s : State) (l : Launch) (target : List Nat) : List (Launch × Hart) :=
  (s.victims l.part (s.eff l)).flatMap fun v =>
    ((s.hartsOf v.id).filter fun h => target.contains h.place.core && h.phase != .switched).map fun h => (v, h)

/-- What would be held with every victim hart on the target cores at the minimum of its launch (R323 step 1). -/
def State.halvedHolds (s : State) (vs : List (Launch × Hart)) : List Hold :=
  s.soon.map fun k => match vs.find? fun v => v.2.place.hid == k.hid with
    | some (v, _) => { k with grant := Nat.min k.grant (2 ^ v.minlg) }
    | none => k

/-- Halvings posted one at a time until the candidate would fit (R323 step 1, R324). -/
def State.postHalvings (s : State) (l : Launch) : List (Launch × Hart) → State
  | [] => s
  | (v, h) :: rest =>
    if (s.planFor s.soon (s.openCores l) l).isSome then s
    else if h.canHalve (2 ^ v.minlg) then
      (s.mapHarts fun k => if k.place.hid = h.place.hid ∧ k.phase ≠ .empty then { k with reclaim := some (k.place.grant / 2) } else k).postHalvings l rest
    else s.postHalvings l rest

/-- Full switches of victim harts until the candidate would fit (R323 step 2). -/
def State.postSwitches (s : State) (l : Launch) : List (Launch × Hart) → State
  | [] => s
  | (v, h) :: rest =>
    if (s.planFor s.soon (s.openCores l) l).isSome then s
    else
      let s := s.mapHarts fun k => if k.place.hid = h.place.hid then k.preempt false else k
      (s.preemptMates v.id h.place.hid).postSwitches l rest

/-- Resources taken for a candidate that does not fit (R323); none where it will fit by what is already on its way. DEDUCED, log 41. -/
def State.takeFor (s : State) (l : Launch) : Option State :=
  if (s.planFor s.soon (s.openCores l) l).isSome then some s
  else match s.targetCores l with
    | none => none
    | some target =>
      let vs := s.victimHarts l target
      if vs.isEmpty then none
      else if (s.scheds[l.part.val]).rclto ≠ 0 ∧ (s.planFor (s.halvedHolds vs) (s.openCores l) l).isSome then some (s.postHalvings l vs)
      else some (s.postSwitches l vs)

/-- The reserved launch given up when it is no candidate any more (R322). -/
def State.dropReserved (s : State) (p : Fin 8) : State :=
  match (s.partOf p).reserved with
  | some (n, _) =>
    match s.launchOf n with
    | some l => if s.isCandidate l then s else s.setPart p { s.partOf p with reserved := none }
    | none => s.setPart p { s.partOf p with reserved := none }
  | none => s

/-- The oldest co-resident candidate that has aged and does not fit becomes the reserved launch (R322). DEDUCED, log 41. -/
def State.reserveLaunch (s : State) (p : Fin 8) : State :=
  if (s.partOf p).reserved.isSome then s
  else
    let aged := (s.candidates p).filter fun l =>
      l.cores && decide (Nat.max 1 (s.scheds[p.val]).ageth ≤ s.time - l.since) && (s.plan l).isNone
    match inOrder (fun a b => decide (a.since < b.since)) aged with
    | [] => s
    | l :: _ => match s.targetCores l with
      | some t => s.setPart p { s.partOf p with reserved := some (l.id, t) }
      | none => s

/-- The scheduler may place and restore (R308, R376). -/
def State.mayPlace (s : State) (p : Fin 8) : Bool := (s.partOf p).en && decide (s.service.state.val ≤ 1)

/-- The first candidate that fits, with its plan. DEDUCED, log 41. -/
def State.winner (s : State) (p : Fin 8) : Option (Launch × Plan) :=
  (s.candidates p).findSome? fun l => (s.plan l).map fun k => (l, k)

/-- Candidates tried in order: resources are taken for the first that does not fit and has victims; the first that fits is
placed. A candidate whose home chiplet has no farm counter is passed over (R326). Harts to be restored are left to HART_RESTORE. DEDUCED,
log 41. -/
def State.choose (s : State) (p : Fin 8) (took : Bool) : List Launch → State
  | [] => s
  | l :: rest =>
    match s.plan l with
    | some (.place home g at') => s.startLaunch l home g at' (s.eff l)
    | some (.restore _) => s
    | none =>
      if took || !(s.scheds[p.val]).preempt || s.noCounter s.holds l then s.choose p took rest
      else match s.takeFor l with
        | some s' => s'.choose p true rest
        | none => s.choose p false rest

/-- SCHEDULE_PLACEMENT (R319 to R324). -/
def execSchedulePlacement (p : Fin 8) (s : State) : Host.Outcome State Fault Refusal :=
  if s.mayPlace p then
    let s := ((s.tick.topUp p).dropReserved p).reserveLaunch p
    .next ((s.choose p false (s.candidates p)).dropReserved p)
  else .next s

/-- A hart restored on a place. It sees its own stores there: its old core's dirty remote bytes go out and its new core's
clean lines go (R95, R110). -/
def State.bringBack (s : State) (k : Hold) : State :=
  match s.hartOf k.hid with
  | none => s
  | some h => ((s.freshCore h.place.core k.hid).freshCore k.core k.hid).asHart k.hid fun s => s.restoreHart k

/-- HART_RESTORE (R325, R355): the restore whose turn it is, of the named hart, and of its launch's other harts with it
where they are co-resident (R27). A restore waits for a row repair (R380). The launch keeps its effective priority when its last hart is back (R319). -/
def execHartRestore (h : Nat) (s : State) : Host.Outcome State Fault Refusal :=
  match s.hartOf h with
  | none => .next s
  | some k =>
    let p := k.place.part
    if s.mayPlace p && s.repairing.isNone then
      match s.winner p with
      | some (l, .restore at') =>
        if at'.any fun q => q.hid == h then
          let e := s.eff l
          let s := at'.foldl State.bringBack s
          .next (match s.launchOf l.id with
            | some l' => (if s.isCandidate l' then s else s.putLaunch { l' with prio := e }).dropReserved p
            | none => s)
        else .next s
      | _ => .next s
    else .next s

/-! ### The end of a launch (R21, R22, R316) -/

/-- The ended harts of a launch. -/
def State.endedOf (s : State) (n : Nat) : List Hart := s.harts.filter fun h => h.place.launch == n && h.phase == .ended

/-- A launch's harts leave the device. -/
def State.dismiss (s : State) (n : Nat) : State :=
  { s with hart := if s.hart.place.launch = n ∧ s.hart.phase = .ended then {} else s.hart
           parked := s.parked.filter fun h => !(h.place.launch == n && h.phase == .ended) }

/-- The release at sys of some harts (R107): their dirty remote bytes go out; none while some of them cannot. -/
def State.releaseHarts (s : State) (hs : List Hart) : Option State :=
  let s := hs.foldl (fun s h => (s.writeBackAll h.place.core h.place.hid).1) s
  if s.rcache.any fun l => l.dirty.any fun d => hs.any fun h => h.place.hid == d.hid then none else some s

/-- LAUNCH_DONE (R21, R316): every copy has completed or failed. The status is recorded (R22), the completion signal is a
release at sys of the launch's accesses (R107), for which it waits, and the farm counter goes back (R326). DEDUCED, log 57. -/
def execLaunchDone (n : Nat) (s : State) : Host.Outcome State Fault Refusal :=
  match s.launchOf n with
  | none => .next s
  | some l =>
    let chans := (s.endedOf n).flatMap fun h => h.ch.toList
    if l.state = .draining ∧ !(chans.any fun c => c.state == .running) then
      match s.releaseHarts (s.endedOf n) with
      | none => .next s
      | some s =>
        let st := if chans.any fun c => c.state == .failed then 4 else l.status
        .next (((s.signal l st).putLaunch { l with state := .done, status := st, counter := false }).dismiss n)
    else .next s

/-! ### How packets reach a queue -/

/-- The bytes of a packet as its eight words. -/
def packetWords (data : List Byte) : List Word :=
  (List.range 8).map fun k => BitVec.ofNat 64 (ofBytes ((data.drop (8 * k)).take 8))

/-- A write into a queue's window (R311): 64 bytes at offset 0 are a packet; other writes below 0x40 are counted as
dropped. READY[0] opens the queues (R375), a failed image shuts them (R379). -/
def State.windowWrite (s : State) (q off : Nat) (data : List Byte) : State :=
  if !s.service.ready.getLsbD 0 || s.silent then s
  else if off = 0 ∧ data.length = 64 then s.enqueue q (packetWords data)
  else if off < 0x40 ∧ !data.isEmpty then s.setQueue q { s.queue q with drop := (s.queue q).drop + 1 }
  else s

/-- QUEUE_WINDOW_WRITE (R311). -/
def execQueueWindowWrite (q : Fin 1024) (off : Nat) (data : List Byte) (s : State) : Host.Outcome State Fault Refusal :=
  .next (s.windowWrite q.val off data)

/-- A compute chiplet of the partition is ready (R375), and after PS3 all those that it powered off are again (R376). -/
def State.partReady (s : State) (p : Fin 8) : Bool :=
  (s.partCores p).any s.coreReady && s.service.slept &&& ~~~ s.service.ready == 0

/-- PACKET_ACCEPT (R313, R314): the oldest packet of a queue whose head is free. None is accepted in PS3 or before the
chiplets are ready (R376). -/
def execPacketAccept (q : Fin 1024) (s : State) : Host.Outcome State Fault Refusal :=
  match s.queueOwner q.val with
  | some p =>
    if s.service.ready.getLsbD 1 && s.service.state != 3 && s.partReady p && (s.queue q.val).head.isNone then
      .next (s.acceptPacket q.val p)
    else .next s
  | none => .next s

/-- The dependence word of a queue's head read again (R315), if it lies where the event says. -/
def State.recheckHead (s : State) (q : Nat) (host : Bool) : State :=
  match (s.queue q).head.bind s.launchOf with
  | none => s
  | some l =>
    match s.schedLocate l.part .load (l.word 2).toNat 8 with
    | .ok pa => if (targetOf pa == .host) == host then s.recheckDep l else s
    | .error _ => s

/-- DEPENDENCE_RECHECK (R315): a write to a dependence word in this device's HBM4. -/
def execDependenceRecheck (q : Fin 1024) (s : State) : Host.Outcome State Fault Refusal := .next (s.recheckHead q.val false)

/-- DEPENDENCE_POLL (R315): the poll of a dependence word in host memory. -/
def execDependencePoll (q : Fin 1024) (s : State) : Host.Outcome State Fault Refusal := .next (s.recheckHead q.val true)

/-- An Ethernet unit is ready (R375). -/
def State.rackUp (s : State) : Bool := s.service.ready.getLsbD 30 || s.service.ready.getLsbD 31

/-- A message comes from the rack node that a partition permits (R329). -/
def State.rackFrom (s : State) (source : Word) (p : Fin 8) : Bool :=
  let k := s.scheds[p.val]
  s.rackUp && !s.silent && k.racken && k.rackaddr == source

/-- The answer to a launch request (R329). -/
def State.rackAnswer (s : State) (dest : Word) (req result : Nat) : State :=
  s.send (.rack dest [BitVec.ofNat 64 (req * 2 ^ 16 + 2 * 2 ^ 32 + result * 2 ^ 40)])

/-- A launch request as R329 lays it out: 72 bytes, kind 1, no other bit of the first eight. -/
def rackRequestOk (queue : BitVec 16) (rest : List Byte) : Bool :=
  rest.length == 68 && bitsAt queue.toNat 10 6 == 0 && ofBytes (rest.take 4) == 1

/-- RACK_LAUNCH_REQUEST (R329): from the node that the owner of the named queue permits it is checked, enqueued as a window write, and
answered. A node that some enabled partition permits, naming a queue of none, gets result 2 (DESIGN CHOICE, log 64); other messages are dropped. -/
def execRackLaunchRequest (source : Word) (queue request : BitVec 16) (rest : List Byte) (s : State) :
    Host.Outcome State Fault Refusal :=
  let q := bitsAt queue.toNat 0 10
  let req := request.toNat
  match s.queueOwner q with
  | some p =>
    if s.rackFrom source p && s.service.ready.getLsbD 0 then
      if !rackRequestOk queue rest then .next (s.rackAnswer source req 3)
      else
        let full := decide (64 ≤ (s.queue q).used)
        .next ((s.enqueue q (packetWords (rest.drop 4))).rackAnswer source req full.toNat)
    else .next s
  | none =>
    .next (if s.service.ready.getLsbD 0 && (List.finRange 8).any fun p => (s.partOf p).en && s.rackFrom source p then
      s.rackAnswer source req 2 else s)

/-! ### Residency reports (R330) -/

/-- The counts of a report: free blocks of 1, 2, 4, 8 and 16 clusters, hart slots, pieces, READY candidates at each
effective priority, RUNNING launches. In PS3 every free count and every candidate count is 0 (R376). -/
def State.residencyCounts (s : State) (p : Fin 8) : List Nat :=
  let cores := s.partCores p
  let hs := s.holds
  let sum (l : List Nat) : Nat := l.foldl (· + ·) 0
  let blocks := [1, 2, 4, 8, 16].map fun n => sum (cores.map fun c => ((s.buddies hs c).filter fun b => b.2 == n).length)
  let slots := sum (cores.map fun c => 16 - (hs.filter fun h => h.core == c && h.grant != 0).length)
  let pieces := sum (cores.map fun c => 32 - sum ((hs.filter fun h => h.core == c).map fun h => h.pieces.length))
  let ready := s.launches.filter fun l => l.part == p && l.state == .ready
  let at' := (List.range 8).map fun e => (ready.filter fun l => s.eff l == e).length
  let off := s.service.state == 3
  let run := (s.launches.filter fun l => l.part == p && l.state == .running).length
  ((blocks ++ [slots, pieces] ++ at').map fun n => if off then 0 else n) ++ [run]

/-- The seventeen words of a report. -/
def State.residencyWords (s : State) (p : Fin 8) : List Word :=
  BitVec.ofNat 64 (p.val + 3 * 2 ^ 32) :: (s.residencyCounts p).map (BitVec.ofNat 64)

/-- A report leaves for RACKADDR. -/
def State.report (s : State) (p : Fin 8) : State := s.send (.rack (s.scheds[p.val]).rackaddr (s.residencyWords p))

/-- RACK_REPORT_REQUEST (R329). -/
def execRackReportRequest (source : Word) (p : Fin 8) (s : State) : Host.Outcome State Fault Refusal :=
  .next (if (s.partOf p).en && s.rackFrom source p then s.report p else s)

/-- RESIDENCY_REPORT (R330): the interval passes, where RPTINT is nonzero. -/
def execResidencyReport (p : Fin 8) (s : State) : Host.Outcome State Fault Refusal :=
  .next (if (s.partOf p).en && s.rackUp && !s.silent && (s.scheds[p.val]).rptint != 0 then s.report p else s)

/-! ### Partitions -/

/-- PARTITION_ENABLE (R308). -/
def execPartitionEnable (p : Fin 8) (s : State) : Host.Outcome State Fault Refusal := .next (s.enablePart p)

/-- PARTITION_DISABLE (R308). -/
def execPartitionDisable (p : Fin 8) (s : State) : Host.Outcome State Fault Refusal := .next (s.disablePart p)

end Sys2Proof.Machine
end

