-- ==== Sys2Proof/Machine/Service.lean ====
section
/-! DEFINITION. The service block: power states, readiness, host interrupts, snapshots, retirement, configuration and
memory error logs (23 R374 to R381, 21 R357 to R359). -/

namespace Sys2Proof.Machine

/-- The service block changed. -/
def State.setService (s : State) (f : Service → Service) : State := { s with service := f s.service }

/-! ### Power and readiness (R375, R376) -/

/-- A write of CMD that is accepted. -/
def State.powerState (s : State) (n : Fin 4) : State := s.setService fun k => { k with cmd := n, state := n }

/-- PS0_RUN (R376). -/
def execPs0Run (s : State) : Host.Outcome State Fault Refusal := .next (s.powerState 0)

/-- PS1_CAPPED (R376): the cap of matrix issue is timing only. -/
def execPs1Capped (s : State) : Host.Outcome State Fault Refusal := .next (s.powerState 1)

/-- PS2_QUIESCE (R376). -/
def execPs2Quiesce (s : State) : Host.Outcome State Fault Refusal := .next (s.powerState 2)

/-- What refuses standby (R376, R381). -/
def State.standbyBusy (s : State) : Bool :=
  (s.launches.any fun l => l.state == .waiting || l.state == .ready || l.state == .running || l.state == .draining) ||
    (s.harts.any fun h => h.phase == .switched) || s.service.retstat == 1

/-- READY [9:2] and [32]: the compute chiplets and the welt. -/
def chipletBits : BitVec 33 := 0x1000003FC

/-- PS3_STANDBY (R376): refused with PERR, or the compute chiplets power off, and with them the scratchpads and the
caches. DEDUCED, log 48. DEDUCED, log 49. -/
def execPs3Standby (s : State) : Host.Outcome State Fault Refusal :=
  if s.standbyBusy then .next (s.setService fun k => { k with perr := true })
  else
    let s := s.powerState 3
    .next { s.setService (fun k => { k with slept := k.ready &&& 0x3FC, ready := k.ready &&& ~~~ chipletBits }) with
      spad := [], spadPoison := [], rcache := [], tlb := [] }

/-- UNIT_READY (R375): bit 1 needs an accepted configuration (R379); chiplets and welt stay off in PS3. -/
def execUnitReady (u : Fin 33) (s : State) : Host.Outcome State Fault Refusal :=
  if (u.val = 1 ∧ !s.accepted) ∨ (s.service.state = 3 ∧ chipletBits.getLsbD u.val) then .next s
  else .next (s.setService fun k => { k with ready := k.ready ||| BitVec.ofNat 33 (2 ^ u.val) })

/-- TEMP_ALERT (R376): TMAX is the highest temperature; above 105 °C ALERT sets and MSI-X vector 0 fires. DEDUCED, log 56. -/
def execTempAlert (celsius : BitVec 8) (s : State) : Host.Outcome State Fault Refusal :=
  let s := s.setService fun k => { k with tmax := celsius }
  if 105 < celsius.toNat then .next ((s.setService fun k => { k with alert := true }).send (.msix 0 0)) else .next s

/-- The device at its reset state; what lies outside it, what has left it and what is to come stay, and so does HBM4 while
power is there (DESIGN CHOICE, log 27). -/
def State.restart (s : State) (power : Bool) : State :=
  { State.reset with
    mem := if power then s.mem else s.mem.filter fun c => decide (Config.hbmBytes ≤ c.1)
    poison := if power then s.poison else s.poison.filter fun c => decide (Config.hbmBytes ≤ c.1)
    power := power, agenda := s.agenda, chances := s.chances, outbox := s.outbox, refused := s.refused, freeCtr := s.freeCtr }

/-- THERMAL_POWER_REMOVAL (R376): above 115 °C. -/
def execThermalPowerRemoval (s : State) : Host.Outcome State Fault Refusal :=
  if 115 < s.service.tmax.toNat then .next (s.restart false) else .next s

/-- MODULE_REMOVAL (R376, R380). -/
def execModuleRemoval (s : State) : Host.Outcome State Fault Refusal := .next (s.restart false)

/-- POWER_UP (R379): power-up or device reset; bring-up starts. -/
def execPowerUp (s : State) : Host.Outcome State Fault Refusal := .next (s.restart true)

/-- CONFIGURATION_IMAGE (R379, R335): an image that verifies is accepted, READY[1] sets, and the settings hold until the
next reset; one that fails is discarded, and the device answers nothing but configuration space and Felob's mailbox. DEDUCED, log 19. -/
def execConfigurationImage (img : ConfigImage) (s : State) : Host.Outcome State Fault Refusal :=
  if s.accepted then .next s
  else if Config.imageVerifies img.bytes img.signature then
    .next { s.setService (fun k => { k with ready := k.ready ||| 2 }) with
      accepted := true, silent := false, device := img.device, domain := img.domain }
  else .next { s with silent := true }

/-! ### Host interrupts and snapshots (R377, R378) -/

/-- The hart that HINT names: one that runs in the slot, else one that was switched out of it (DEDUCED, log 29). -/
def State.hartAt (s : State) (core slot : Nat) : Option Hart :=
  match s.harts.find? fun h => (h.phase == .active || h.phase == .monitor) && h.place.core == core && h.place.slot == slot with
  | some h => some h
  | none => s.harts.find? fun h => h.phase == .switched && h.place.core == core && h.place.slot == slot

/-- A function may interrupt a core: the physical function any, a virtual function one of its partition. -/
def State.mayInterrupt (s : State) (vf core : Nat) : Bool :=
  vf == 0 || (List.finRange 8).any fun p => (s.partOf p).en && (s.partOf p).pfunc == vf && (s.partCores p).contains core

/-- HOST_INTERRUPT (R377). -/
def execHostInterrupt (vf : Fin 9) (value : BitVec 32) (core : Fin 128) (slot : Fin 16) (s : State) :
    Host.Outcome State Fault Refusal :=
  let drop := s.setService fun k => { k with intdrop := k.intdrop + 1 }
  if s.silent then .next s else
  match (if s.mayInterrupt vf.val core.val then s.hartAt core.val slot.val else none) with
  | some h =>
    if h.pend22.isSome then .next drop
    else .next (s.mapHarts fun k =>
      if k.place.hid = h.place.hid ∧ k.phase ≠ .empty then { k with pend22 := some value } else k)
  | none => .next drop

/-- FIRE (R378). -/
def execFire (s : State) : Host.Outcome State Fault Refusal := .next s.snapshot

/-- SNAPCTL_FIRE (R301, R378). -/
def execSnapctlFire (s : State) : Host.Outcome State Fault Refusal := .next s.snapshot

/-! ### Retirement and sparing (R380) -/

/-- RETSTAT. -/
def State.setRetstat (s : State) (n : Fin 4) : State := s.setService fun k => { k with retstat := n }

/-- A retirement begins, unless one is busy. -/
def State.retirement (s : State) (f : State → State) : State :=
  if s.service.retstat = 1 then s.setRetstat 3 else f (s.setRetstat 1)

/-- A hart is to be switched out for a retirement, with RETIRE in FINFO (R346); a switch-out under way completes (R360). -/
def Hart.retireOut (h : Hart) : Hart :=
  if (h.phase == .active || h.phase == .monitor) && !h.switchPending then { h with pend20 := some true } else h

/-- Harts with a property are switched out for a retirement, and with them their co-resident mates (R27). -/
def State.retireHarts (s : State) (p : Hart → Bool) : State :=
  let gone := s.harts.filter fun h => (h.phase == .active || h.phase == .monitor) && p h
  let s := s.mapHarts fun h => if p h then h.retireOut else h
  gone.foldl (fun s h => s.preemptMates h.place.launch h.place.hid) s

/-- RETIRE_CLUSTER (R380 KIND 1). DEDUCED, log 55. -/
def execRetireCluster (core : Fin 128) (cluster : Fin 16) (s : State) : Host.Outcome State Fault Refusal :=
  .next (s.retirement fun s =>
    let s := { s with retClusters := (core.val, cluster.val) :: s.retClusters, retiring := (core.val, some cluster.val) :: s.retiring }
    (s.retireHarts fun h => h.place.core == core.val && decide (h.place.cbase ≤ cluster.val) &&
      decide (cluster.val < h.place.cbase + h.place.grant)).settleRetire)

/-- A hart ended with status 2. -/
def State.endByNumber (s : State) (hid : Nat) : State := s.asHart hid fun s => s.endHart 2

/-- RETIRE_CORE (R380 KIND 2): owners of live zones of the core are ended with status 2. -/
def execRetireCore (core : Fin 128) (s : State) : Host.Outcome State Fault Refusal :=
  .next (s.retirement fun s =>
    let s := { s with retCores := core.val :: s.retCores, retiring := (core.val, none) :: s.retiring }
    let owners := (s.zones.filter fun z => z.core == core.val).map Zone.owner
    let s := owners.eraseDups.foldl State.endByNumber s
    (s.retireHarts fun h => h.place.core == core.val).settleRetire)

/-- RETIRE_MATRIX_ROWS (R380 KIND 3): done at the context's next `mdetach`. DEDUCED, log 55. -/
def execRetireMatrixRows (core : Fin 128) (s : State) : Host.Outcome State Fault Refusal :=
  .next (s.retirement fun s => { s with retRowsPend := core.val :: s.retRowsPend })

/-- ROW_REPAIR (R380 KIND 4): the row of RETADDR is copied to a spare row, which no program sees; an address outside HBM4
has no row and is refused (DEDUCED, log 30). -/
def execRowRepair (addr : Nat) (s : State) : Host.Outcome State Fault Refusal :=
  if s.service.retaddr.toNat / 32 ≠ addr / 32 then .next s
  else .next (s.retirement fun s => if Config.hbmBytes ≤ addr then s.setRetstat 3 else { s with repairing := some addr })

/-! ### Memory error logs (R357 to R359) -/

/-- The code of a record's KIND (R358). -/
def memErrCode : MemErr → Nat
  | .corrected => 1 | .uncorrectable => 2 | .rowRepaired => 3

/-- An event counted, and recorded while fewer than 64 records are held (R358, R359). -/
def ErrLog.event (k : ErrLog) (kind : MemErr) (chan layer addr : Nat) : ErrLog :=
  let k := match kind with
    | .corrected => { k with ce := k.ce + 1 }
    | .uncorrectable => { k with ue := k.ue + 1 }
    | .rowRepaired => { k with rp := k.rp + 1 }
  let seq := (k.ce + k.ue + k.rp).toNat % 2 ^ 32
  let rec4 : List Word :=
    [BitVec.ofNat 64 (layer * 2 ^ 48 + memErrCode kind * 2 ^ 40 + chan * 2 ^ 32 + seq),
     BitVec.ofNat 64 (bitsAt addr 5 47 * 32),
     BitVec.ofNat 64 (k.ue.toNat % 2 ^ 32 * 2 ^ 32 + k.ce.toNat % 2 ^ 32),
     BitVec.ofNat 64 (k.rp.toNat % 2 ^ 32)]
  if k.recs.length < 64 then { k with recs := k.recs ++ [rec4] } else { k with ovf := k.ovf + 1 }

/-- An event at controller k. -/
def State.logEvent (s : State) (k : Fin 16) (kind : MemErr) (chan layer addr : Nat) : State :=
  { s with logs := s.logs.set k.val ((s.logs[k.val]).event kind chan layer addr) }

/-- The controller of an HBM4 address: that of its stack (R378). -/
def controllerOf (a : Nat) : Nat := a / (48 * 2 ^ 30)

/-- MEMORY_ERROR_EVENT (R359): an uncorrectable error poisons its sector (R356). -/
def execMemoryErrorEvent (k : Fin 16) (kind : MemErr) (chan : Fin 64) (layer : Fin 16) (addr : Nat) (s : State) :
    Host.Outcome State Fault Refusal :=
  if controllerOf addr ≠ k.val then .next s
  else
    let s := s.logEvent k kind chan.val layer.val addr
    if kind = .uncorrectable then
      .next { s with poison := strike s.poison addr }
    else .next s

/-- ROW_REPAIR_DONE (R380): RETSTAT becomes done, and one KIND 3 record is logged; where the row lies is a free value
(DESIGN CHOICE, log 28). -/
def execRowRepairDone (s : State) : Host.Outcome State Fault Refusal :=
  match s.repairing with
  | some a =>
    let (chan, layer) := Config.rowPlace (rowAt a)
    .next { (s.setRetstat 2).logEvent (Fin.ofNat 16 (controllerOf a)) .rowRepaired chan.val layer.val a with
      repairing := none }
  | none => .next s

/-- POP (R357). -/
def execPop (k : Fin 16) (s : State) : Host.Outcome State Fault Refusal :=
  .next { s with logs := s.logs.set k.val { s.logs[k.val] with recs := (s.logs[k.val]).recs.drop 1 } }

end Sys2Proof.Machine
end

