-- ==== Sys2Proof/Machine/Fabric.lean ====
section
/-! DEFINITION. The welt, the Nirmus ports, link encryption and the link-failure sequence (22 R361 to R372, 12 R251). -/

namespace Sys2Proof.Machine

/-! ### Paths (R251, R369 to R371) -/

/-- Two chiplets are the ends of a path. -/
def joins (p : Path) (x y : Nat) : Bool :=
  match p with
  | .chiplets a b => (a.val == x && b.val == y) || (a.val == y && b.val == x)
  | .device _ => false

/-- Two names of one path. -/
def samePath : Path → Path → Bool
  | .device d, .device e => d == e
  | .chiplets a b, q => joins q a.val b.val
  | .device _, .chiplets _ _ => false

/-- An eyelet's sender is at the other end of a path (R251 step 1, R369). -/
def State.fillOver (s : State) (p : Path) (f : Fill) : Bool :=
  match s.zoneAt f.core f.zone with
  | none => false
  | some z =>
    let dev := entryDev (s.entry z f.slot)
    match p with
    | .device d => dev == d.val && d != s.device
    | .chiplets _ _ => dev == s.device.val && joins p (f.core / 16) f.chip

/-- A hart's channel sends over a path: its copy runs, and its ticket's zone is at the path's other end. DEDUCED, log 50. -/
def State.sendsOver (s : State) (p : Path) (h : Hart) (c : Channel) : Bool :=
  c.rem && c.state == .running && (match c.cmd with
    | none => false
    | some k =>
      match p with
      | .device d => handleDev k.xa == d.val && d != s.device
      | .chiplets _ _ => handleDev k.xa == s.device.val && joins p (h.place.core / 16) (handleCore k.xa / 16))

/-- Every channel of every hart changed. -/
def State.mapChannels (s : State) (f : Hart → ChNum → Channel → Channel) : State :=
  s.mapHarts fun h => { h with ch := Vector.ofFn fun i => f h i h.ch[i.val] }

/-- What a torn eyelet leaves to do when its path returns (R251 step 3). -/
def Fill.torn (f : Fill) (p : Path) : Torn :=
  { path := p, core := f.core, zone := f.zone, ticket := match f.xfer with | some (.theirs _ t _ _) => some t | _ => none }

/-- The transfers of a lost path's device whose eyelets are FULL and whose acknowledgement was lost, a free value (DESIGN CHOICE,
log 67): their outcome is still to be reported (R251 step 3). -/
def State.keepFulls (s : State) (p : Path) : State :=
  match p with
  | .chiplets _ _ => s
  | .device d =>
    let (n, s) := s.fresh
    let mine := (s.fulls.filter fun e => e.1 == d).zipIdx.filter fun e => Config.ackLost n e.2
    { s with
      fulls := s.fulls.filter fun e => e.1 != d
      torn := s.torn ++ mine.map fun e => ⟨p, handleCore e.1.2, handleZone e.1.2, some e.1.2, true⟩ }

/-- A path declared lost (R251 steps 1 and 2): eyelets tear, channels stop, and `lz.res` over it ends with code 4. -/
def State.losePath (s : State) (p : Path) : State :=
  if (s.lost ++ s.lostGood).any fun q => samePath p q then s
  else
    let gone := s.fills.filter fun f => s.fillOver p f
    let s := gone.foldl State.tear s
    let s := { s with torn := s.torn ++ gone.map (Fill.torn · p), lost := p :: s.lost }.keepFulls p
    let s := s.mapChannels fun h _ c => if s.sendsOver p h c then c.stop else c
    let waits := (s.harts.filter fun h => match h.waiting, p with
      | some (.reply _ dev), .device d => dev == d.val
      | _, _ => false).map fun h => h.place.hid
    waits.foldl (fun s n => s.asHart n fun s =>
      match s.hart.waiting with
      | some (.reply d _) => ((s.wake.setX d 4).setC 7 true).retire
      | _ => s) s

/-- The chiplet at the far end of a link (R361). -/
def linkEnd (c l : Nat) : Nat :=
  if l = 0 then c / 4 * 4 + (c + 1) % 4 else if l = 1 then c / 4 * 4 + (c + 3) % 4 else (c + 4) % 8

/-- A table's link from chiplet c towards d. -/
def tableLink (t : Vector (BitVec 32) 8) (c d : Nat) : Nat := bitsAt ((t[c]?.getD 0).toNat) (4 * d) 3

/-- Following tables from c reaches d within some hops, over no failed link (R363). -/
def routes (t : Vector (BitVec 32) 8) (fail : BitVec 32) (d : Nat) : Nat → Nat → Bool
  | 0, c => c == d
  | n + 1, c =>
    c == d || (let l := tableLink t c d
      decide (l < 4) && !fail.getLsbD (4 * c + l) && routes t fail d n (linkEnd c l))

/-- A path can return (R370): a live port, or current tables that route both ways without a failed link and PEND 0. DEDUCED, log 52. -/
def State.canReturn (s : State) (p : Path) : Bool :=
  match p with
  | .device _ => s.linkUp
  | .chiplets a b => !s.welt.pend && routes s.welt.cur s.welt.fail b.val 3 a.val && routes s.welt.cur s.welt.fail a.val 3 b.val

/-- The tables that packets in flight are routed by (R363). -/
def Welt.tables (k : Welt) : List (Vector (BitVec 32) 8) := if k.pend then [k.cur, k.old] else [k.cur]

/-- Some packets between two chiplets meet a failed link (R369). -/
def Welt.cuts (k : Welt) (a b : Nat) : Bool :=
  k.tables.any fun t => !routes t k.fail b 3 a || !routes t k.fail a 3 b

/-- PATH_LOST (R251, R369): to another device of the domain, or between two chiplets whose packets a failed link takes. -/
def execPathLost (p : Path) (s : State) : Host.Outcome State Fault Refusal :=
  match p with
  | .device d => if d != s.device && s.inDomain d.val then .next (s.losePath p) else .next s
  | .chiplets a b => if a != b && s.welt.cuts a.val b.val then .next (s.losePath p) else .next s

/-- Links that have not failed lead from c to d within some hops. -/
def reachable (fail : BitVec 32) (d : Nat) : Nat → Nat → Bool
  | 0, c => c == d
  | n + 1, c => c == d || (List.range 4).any fun l => !fail.getLsbD (4 * c + l) && reachable fail d n (linkEnd c l)

/-- Tables that a commit accepts exist (R363): every chiplet reaches every other within 3 hops of links that have not failed. -/
def Welt.canRoute (k : Welt) : Bool := (List.range 8).all fun c => (List.range 8).all fun d => reachable k.fail d 3 c

/-- A lost path can be lost for good (R370): no live port, or neither the current tables nor any that a commit accepts can route.
DEDUCED, log 52. -/
def State.canGo (s : State) (p : Path) : Bool :=
  match p with
  | .device _ => !s.linkUp
  | .chiplets a b =>
    !(routes s.welt.cur s.welt.fail b.val 3 a.val && routes s.welt.cur s.welt.fail a.val 3 b.val) && !s.welt.canRoute

/-- The outcome of a stopped channel (R251 step 3). -/
def Channel.outcome (c : Channel) (full : Bool) : Channel :=
  match c.cmd with
  | some k =>
    if full && c.begun && decide (k.units ≤ c.sent) then
      { c with progress := k.payload, cwm := c.dest + BitVec.ofNat 64 k.payload }.finish
    else { c with state := .failed, pend := false }
  | none => { c with state := .failed, pend := false }

/-- PATH_RETURN (R251 steps 3 and 4, R370): zones that tore step GEN, the outcome of every channel is reported, and the
path is there again. `full`: the channels whose eyelets the other device reports FULL. -/
def execPathReturn (p : Path) (full : List (Nat × ChNum)) (s : State) : Host.Outcome State Fault Refusal :=
  if (s.lost.any fun q => samePath p q) && s.canReturn p then
    let mine := s.torn.filter fun t => samePath p t.path
    let zones := ((mine.filter fun t => !t.full).map fun t => (t.core, t.zone)).eraseDups
    let s := zones.foldl (fun s (core, num) => match s.zoneAt core num with
      | some z => s.setZoneWord z 3 ((s.zoneWord z 3 + 1) % 2 ^ 16)
      | none => s) s
    let s := mine.foldl (fun s t => match t.ticket, t.path with
      | some k, .device d => s.send (.outcome d.val k t.full)
      | _, _ => s) s
    let s := s.mapChannels fun h i c =>
      if c.pend && s.sendsOver p h c then
        c.outcome (match p with | .device _ => full.any (fun e => e.1 == h.place.hid && e.2 == i) | .chiplets _ _ => false)
      else c
    .next { s with lost := s.lost.filter fun q => !samePath p q, torn := s.torn.filter fun t => !samePath p t.path }
  else .next s

/-- Dirty bytes for a device are discarded, and each hart keeps the lowest of its own to report once (R371). -/
def State.discardFor (s : State) (d : Nat) : State :=
  let gone := (s.rcache.filter fun l => l.device == d).flatMap RLine.dirty
  let s := { s with rcache := s.rcache.filter fun l => !(l.device == d && !l.dirty.isEmpty) }
  s.mapHarts fun h =>
    match ((gone.filter fun b => b.hid == h.place.hid).map Dirty.va).min? with
    | none => h
    | some a => { h with lostBytes := some (match h.lostBytes with
        | some b => if b.toNat ≤ a then b else BitVec.ofNat 64 a
        | none => BitVec.ofNat 64 a) }

/-- PATH_LOST_FOR_GOOD (R251, R370, R371): stopped channels are FAILED with LINKFAIL, and GEN does not step. -/
def execPathLostForGood (p : Path) (s : State) : Host.Outcome State Fault Refusal :=
  if (s.lost.any fun q => samePath p q) && s.canGo p then
    let s := s.mapChannels fun h _ c => if c.pend && s.sendsOver p h c then c.outcome false else c
    let s := { s with lost := s.lost.filter (fun q => !samePath p q), lostGood := p :: s.lostGood
                      torn := s.torn.filter fun t => !samePath p t.path }
    .next (match p with | .device d => s.discardFor d.val | .chiplets _ _ => s)
  else .next s

/-! ### The welt (R361 to R363) -/

/-- The welt block changed. -/
def State.setWelt (s : State) (f : Welt → Welt) : State := { s with welt := f s.welt }

/-- An entry of a staged table is one that R363 allows. -/
def entryGood (k : Welt) (c d : Nat) : Bool :=
  let l := tableLink k.stg c d
  if c = d then l == 7 else decide (l < 4) && !k.fail.getLsbD (4 * c + l)

/-- The staged tables can be committed (R363). -/
def Welt.canCommit (k : Welt) : Bool :=
  !k.pend && (List.range 8).all fun c => (List.range 8).all fun d => entryGood k c d && routes k.stg k.fail d 3 c

/-- WELT_COMMIT (R363): the staged tables become current and GEN steps, or ERR is set. -/
def execWeltCommit (s : State) : Host.Outcome State Fault Refusal :=
  .next (s.setWelt fun k => if k.canCommit then { k with cur := k.stg, old := k.cur, gen := k.gen + 1, pend := true } else { k with err := true })

/-- WELT_GENERATION_DRAIN (R363). -/
def execWeltGenerationDrain (s : State) : Host.Outcome State Fault Refusal := .next (s.setWelt fun k => { k with pend := false })

/-- The number of a link at its far end. DEDUCED, log 46. -/
def farLink (l : Nat) : Nat := if l = 0 then 1 else if l = 1 then 0 else l

/-- The route between two chiplets by a table passes a link, from either end of it. -/
def passes (t : Vector (BitVec 32) 8) (c l d : Nat) : Nat → Nat → Bool
  | 0, _ => false
  | n + 1, x => x != d && (let k := tableLink t x d
      (x == c && k == l) || (x == linkEnd c l && k == farLink l) || passes t c l d n (linkEnd x k))

/-- The pairs of chiplets that had packets on a link as it failed: a free value among those whose packets pass it (R369). DEDUCED,
log 46. -/
def Welt.struckPairs (k : Welt) (n c l : Nat) : List (Fin 8 × Fin 8) :=
  (Config.weltTraffic n).filter fun (a, b) =>
    a != b && k.tables.any fun t => passes t c l b.val 3 a.val || passes t c l a.val 3 b.val

/-- WELT_LINK_FAIL (R361, R369): FAIL is set for both ends of the link, and the paths of the packets on it are declared lost. DEDUCED,
log 46. -/
def execWeltLinkFail (c : Fin 8) (l : Fin 4) (s : State) : Host.Outcome State Fault Refusal :=
  let (n, s) := s.fresh
  let pairs := s.welt.struckPairs n c.val l.val
  let s := s.setWelt fun k =>
    { k with fail := k.fail ||| BitVec.ofNat 32 (2 ^ (4 * c.val + l.val)) |||
        BitVec.ofNat 32 (2 ^ (4 * linkEnd c.val l.val + farLink l.val)) }
  .next (pairs.foldl (fun s (a, b) => s.losePath (.chiplets a b)) s)

/-- LANE_SPARE_REPAIR (R361): no traffic is lost and no register shows it. -/
def execLaneSpareRepair (_c : Fin 8) (_l : Fin 4) (s : State) : Host.Outcome State Fault Refusal := .next s

/-! ### Ports -/

/-- A port of the device. -/
def State.port (s : State) (p : Fin 4) : Port := s.ports[p.val]

/-- A port fails (R369): its replay buffer is lost, and the path to every device that had a flit in it. DEDUCED, log 47. -/
def State.portFail (s : State) (p : Fin 4) : State :=
  let s := s.traffic p
  let k := s.port p
  let ds := (k.replay.map Pending.dst).eraseDups
  let s := s.setPort p { k with state := .failed, replay := [] }
  ds.foldl (fun s d => s.losePath (.device d)) s

/-- PORT_TRAINING (R367, R369): a port that is down begins to train; its training ends with the port up or failed; lanes of a live port
that will not retrain fail it. DEDUCED, log 47. -/
def execPortTraining (port : Fin 4) (ok : Bool) (s : State) : Host.Outcome State Fault Refusal :=
  let k := s.port port
  match k.state, ok with
  | .down, true => .next (s.setPort port { k with state := .training })
  | .training, true => .next (s.setPort port { k with state := .up })
  | .training, false => .next (s.portFail port)
  | .up, false => .next (s.portFail port)
  | _, _ => .next s

/-- PLANE_RETURN (R366). -/
def execPlaneReturn (port : Fin 4) (s : State) : Host.Outcome State Fault Refusal :=
  .next (s.setPort port { s.port port with pf := false, fpl := 0 })

/-- One entry of the replay buffer sent again under a fresh counter (R365), or held back (R368); after eight replays in a
row the port fails (R369). -/
def State.replayOne (s : State) (p : Fin 4) (seq : BitVec 32) : State :=
  let k := s.port p
  match k.replay.find? fun e => e.seq == seq with
  | none => s
  | some e =>
    if 8 ≤ e.tries then s.portFail p
    else
      let put (e' : Pending) : List Pending := k.replay.map fun x => if x.seq = seq then e' else x
      if k.maySend then
        (s.setPort p { k with replay := put { e with tries := e.tries + 1, held := false }, rply := k.rply + 1 }).sendFlit p 1 e.dst e.seq e.data
      else s.setPort p { k with replay := put { e with held := true } }

/-- TRANSMIT_KEY_SWITCH (R367, R368): the staged key, counter 0, KEP inverted; held traffic resumes. -/
def execTransmitKeySwitch (port : Fin 4) (s : State) : Host.Outcome State Fault Refusal :=
  let s' := s.traffic port
  let k := s'.port port
  if k.trdy && k.state != .failed then
    let s' := s'.setPort port { k with
      txKey := k.tkey, txSalt := k.tsalt, ncnt := 0, txKep := !k.txKep, trdy := false, keyx := false }
    .next (((k.replay.filter Pending.held).map Pending.seq).foldl (fun s q => s.replayOne port q) s')
  else .next s

/-- COUNTER_EXHAUSTION (R368): one flit of KIND 3 under the last counter, KEYX, and an interrupt to Felob. -/
def execCounterExhaustion (port : Fin 4) (s : State) : Host.Outcome State Fault Refusal :=
  let s' := s.traffic port
  let k := s'.port port
  if k.state = .up ∧ !k.keyx ∧ !k.trdy ∧ k.ncnt = 0xFFFFFFFF then
    let (n, s') := s'.fresh
    let (dst, seq, data) := Config.exhaustionFlit n
    let s' := s'.sendFlit port 3 dst seq data
    .next ((s'.setPort port { s'.port port with keyx := true, ncnt := 0xFFFFFFFF }).send (.felob port.val))
  else .next s

/-- KEY_HOLD_TIMEOUT (R368, R372): no transmit key came in time. -/
def execKeyHoldTimeout (port : Fin 4) (s : State) : Host.Outcome State Fault Refusal :=
  let k := s.port port
  if k.keyx && !k.trdy && k.state == .up then .next (s.portFail port) else .next s

/-! ### Receiving flits (R364 to R367) -/

/-- A symbol times the k-th power of x. -/
def gfShift : Nat → Nat → Nat
  | 0, a => a
  | k + 1, a => gfShift k (gfDouble a)

/-- The two checks of a group: its symbols as a polynomial's coefficients, the first highest (DEDUCED, log 32), at 1 and at x. -/
def syndromes (c : List Nat) : Nat × Nat := (c.foldl (fun a b => a ^^^ b) 0, c.foldl (fun a b => gfDouble a ^^^ b) 0)

/-- A symbol changed by a pattern. -/
def patch (c : List Nat) (i e : Nat) : List Nat := c.zipIdx.map fun (b, k) => if k = i then b ^^^ e else b

/-- A group decoded (R365): one slice corrected, or with a failed plane that slice restored and any other error refused. -/
def decodeGroup (failed : Option Nat) (c : List Nat) : Option (List Nat) :=
  let (s0, s1) := syndromes c
  match failed with
  | some f => if gfShift (35 - f) s0 = s1 then some (patch c f s0) else none
  | none =>
    if s0 = 0 ∧ s1 = 0 then some c
    else if s0 = 0 then none
    else ((List.range 36).find? fun i => gfShift (35 - i) s0 == s1).map fun i => patch c i s0

/-- Symbol `k` of a group of eight words (R364). -/
def symbolOf (ws : List (BitVec 72)) (k : Nat) : Nat :=
  ws.foldr (fun w a => bitsAt w.toNat (2 * k) 2 + 4 * a) 0

/-- The 68 bytes of a decoded group. -/
def groupBytes (c : List Nat) : List Byte := (c.take 34).flatMap fun b => bytesOf 2 b

/-- The 1,088 bytes of a flit; none where a group cannot be corrected. -/
def flitBytes (failed : Option Nat) (words : List (BitVec 72)) : Option (List Byte) :=
  (allSome ((List.range 16).map fun g =>
    let ws := (words.drop (1 + 8 * g)).take 8
    (decodeGroup failed ((List.range 36).map (symbolOf ws))).map groupBytes)).map List.flatten

/-- What the stamps say (R366): nothing, a plane that fails now, or that the port fails. -/
inductive Stamps where
  | fine | plane (f : Nat) | port
deriving DecidableEq, Repr

/-- The stamps compared among the planes that have not failed. -/
def stampsOf (failed : Option Nat) (word : BitVec 72) : Stamps :=
  let st := ((List.range 36).filter fun i => failed != some i).map fun i => (i, bitsAt word.toNat (2 * i) 2)
  let odd := st.filter fun (i, v) => (st.filter fun (j, _) => j != i).all fun (_, u) => u != v
  let alike (l : List (Nat × Nat)) : Bool := l.all fun (_, v) => some v == (l.head?.map (·.2))
  if alike st then .fine
  else match failed, odd with
    | none, [(f, _)] => if alike (st.filter fun (i, _) => i != f) then .plane f else .port
    | _, _ => .port

/-- Bytes of a flit from one offset to another. -/
def slice (b : List Byte) (lo hi : Nat) : List Byte := (b.drop lo).take (hi - lo)

/-- The payload where the tag holds, and the port afterwards (R367): a changed KEP is checked under the staged key, which
is then promoted. None: the tag fails. -/
def Port.openFlit (k : Port) (b : List Byte) : Option (List Byte × Port) :=
  let hdr := ofBytes (slice b 0 8)
  let ctr := ofBytes (slice b 8 12)
  let kep := bitAt hdr 20
  let tryKey (key : Vector Word 4) (salt : Word) : Option (List Byte) :=
    gcmOpen (keyBytes key) (flitIv salt ctr) (slice b 0 32) (slice b 32 1056) (slice b 1056 1072)
  if kep = k.rxKep then (tryKey k.rxKey k.rxSalt).map fun t => (t, k)
  else if k.rrdy then
    (tryKey k.rkey k.rsalt).map fun t => (t, { k with rxKey := k.rkey, rxSalt := k.rsalt, rxKep := kep, rrdy := false })
  else none

/-- An acknowledge flit (R365): its entry leaves the replay buffer, and older ones, which did not arrive, are replayed
(DEDUCED, log 32). -/
def State.acknowledged (s : State) (p : Fin 4) (seq : BitVec 32) : State :=
  let k := s.port p
  let older := (k.replay.takeWhile fun e => e.seq != seq).map Pending.seq
  if k.replay.any fun e => e.seq == seq then
    older.foldl (fun s q => if (s.port p).state = .up then s.replayOne p q else s)
      (s.setPort p { k with replay := k.replay.filter fun e => e.seq != seq })
  else s

/-- A flit whose groups decoded: the tag is checked, and the flit acts by its KIND. -/
def State.acceptFlit (s : State) (p : Fin 4) (b : List Byte) : State :=
  match (s.port p).openFlit b with
  | none => s.portFail p
  | some (data, k) =>
    let s := s.setPort p k
    let hdr := ofBytes (slice b 0 8)
    match bitsAt hdr 16 4 with
    | 1 => if bitsAt hdr 0 8 = s.device.val then s.send (.delivered p.val (bitsAt hdr 8 8) data) else s
    | 2 => (s.traffic p).acknowledged p (BitVec.ofNat 32 (bitsAt hdr 32 32))
    | _ => s

/-- A flit received by a live port (R364 to R367): stamps, groups, tag. A flit that cannot be corrected is dropped. -/
def State.receive (s : State) (p : Fin 4) (words : List (BitVec 72)) : State :=
  let k := s.port p
  let failed := if k.pf then some k.fpl else none
  if k.state ≠ .up ∨ words.length ≠ 129 then s
  else match stampsOf failed (words.headD 0) with
    | .port => s.portFail p
    | .plane f =>
      let s := s.setPort p { k with pf := true, fpl := f }
      match flitBytes (some f) words with
      | some b => s.acceptFlit p b
      | none => s
    | .fine =>
      match flitBytes failed words with
      | some b => s.acceptFlit p b
      | none => s

/-- NIRMUS_DATA_FLIT (R364). -/
def execNirmusDataFlit (port : Fin 4) (words : List (BitVec 72)) (s : State) : Host.Outcome State Fault Refusal :=
  .next (s.receive port words)

/-- NIRMUS_ACKNOWLEDGE_FLIT (R365). -/
def execNirmusAcknowledgeFlit (port : Fin 4) (words : List (BitVec 72)) (s : State) : Host.Outcome State Fault Refusal :=
  .next (s.receive port words)

/-- NIRMUS_IDLE_FLIT (R364). -/
def execNirmusIdleFlit (port : Fin 4) (words : List (BitVec 72)) (s : State) : Host.Outcome State Fault Refusal :=
  .next (s.receive port words)

/-- KEY_EXHAUSTION_FLIT (R368): the far end holds its traffic; nothing of this device changes by it. -/
def execKeyExhaustionFlit (port : Fin 4) (words : List (BitVec 72)) (s : State) : Host.Outcome State Fault Refusal :=
  .next (s.receive port words)

end Sys2Proof.Machine
end

