-- ==== Sys2Proof/Machine/HostPort.lean ====
section
/-! DEFINITION. What the host does over PCI Express: register writes, BAR0 accesses and memory accesses (23 R373, R374,
05 R94, R109, 19 R311, 18 R307, 22 R362, R367), and the eviction of a cached line (05 R110). -/

namespace Sys2Proof.Machine

/-! ### Register writes -/

/-- A port's plain fields (R367): staged keys and salts, low word first, and NKCTL. -/
def portWrite (k : Port) (off : Nat) (v : Word) : Port :=
  if 0x08 ≤ off ∧ off < 0x28 then { k with tkey := k.tkey.setIfInBounds ((off - 0x08) / 8) v }
  else if 0x28 ≤ off ∧ off < 0x48 then { k with rkey := k.rkey.setIfInBounds ((off - 0x28) / 8) v }
  else if off = 0x48 then { k with tsalt := v }
  else if off = 0x50 then { k with rsalt := v }
  else if off = 0x58 then { k with trdy := v.getLsbD 1, rrdy := v.getLsbD 0 }
  else k

/-- The welt block's plain fields (R362): WCTL.ERR, cleared by a 1, and the staged tables, whose bits 4d + 3 are zero. -/
def weltWrite (k : Welt) (off : Nat) (v : Word) : Welt :=
  if off = 0 then (if v.getLsbD 16 then { k with err := false } else k)
  else if 0x08 ≤ off ∧ off < 0x48 then { k with stg := k.stg.setIfInBounds ((off - 8) / 8) (v.setWidth 32 &&& 0x77777777) }
  else k

/-- The service block's plain fields (R374): PERR and ALERT, cleared by a 1, and RETADDR. -/
def serviceWrite (k : Service) (off : Nat) (v : Word) : Service :=
  match off with
  | 0x08 => if v.getLsbD 16 then { k with perr := false } else k
  | 0x30 => { k with retaddr := BitVec.ofNat 64 (bitsAt v.toNat 5 47 * 32) }
  | 0x40 => if v.getLsbD 0 then { k with alert := false } else k
  | _ => k

/-- The writable fields of an 8-byte register of BAR0 (R6, R373): other bits and other registers ignore the write. -/
def State.plainWrite (s : State) (off : Nat) (v : Word) : State :=
  if 0x400000 ≤ off ∧ off < 0x410000 then
    let p := (off - 0x400000) / 0x40
    match s.scheds[p]? with
    | some k => { s with scheds := s.scheds.setIfInBounds p (schedWrite k ((off - 0x400000) % 0x40) v) }
    | none => s
  else if 0x420000 ≤ off ∧ off < 0x430000 then s.setWelt fun k => weltWrite k (off - 0x420000) v
  else if 0x430000 ≤ off ∧ off < 0x440000 then
    let p := (off - 0x430000) / 0x100
    match s.ports[p]? with
    | some k => { s with ports := s.ports.setIfInBounds p (portWrite k ((off - 0x430000) % 0x100) v) }
    | none => s
  else if 0x440000 ≤ off ∧ off < 0x450000 then s.setService fun k => serviceWrite k (off - 0x440000) v
  else s

/-- REGISTER_WRITE (R6, R307, R309, R318, R362, R367, R374). Of PCTL the write clears ERR while EN is 0; EN has events of its own. After
a failed image nothing answers (R379). -/
def execRegisterWrite (r : DevReg) (v : Word) (s : State) : Host.Outcome State Fault Refusal :=
  match r with
  | .bar off => if off % 8 = 0 && !s.silent then .next (s.plainWrite off v) else .next s
  | .partition p n =>
    if s.silent then .next s
    else if n.val = 0 then
      .next (if v.getLsbD 1 && !(s.partOf p).en then s.setPart p { s.partOf p with err := false } else s)
    else .next (s.writePart p n.val v)

/-- The state after a meaning that answers with a next state. -/
def nextOf (s : State) (o : Host.Outcome State Fault Refusal) : State :=
  match o with
  | .next t => t
  | .fault _ => s
  | .refused _ => s

/-- A write of CMD (R376). -/
def State.powerCommand (s : State) (n : Nat) : State :=
  nextOf s (match n % 4 with
    | 0 => execPs0Run s
    | 1 => execPs1Capped s
    | 2 => execPs2Quiesce s
    | _ => execPs3Standby s)

/-- A write of HINT by a function (R377). -/
def State.hint (s : State) (vf : Nat) (v : Word) : State :=
  nextOf s (execHostInterrupt (Fin.ofNat 9 vf) (BitVec.ofNat 32 (bitsAt v.toNat 32 32)) (Fin.ofNat 128 (bitsAt v.toNat 4 7))
    (Fin.ofNat 16 (bitsAt v.toNat 0 4)) s)

/-- A write of RETIRE (R380); other kinds are refused. -/
def State.retireRequest (s : State) (v : Word) : State :=
  let core : Fin 128 := Fin.ofNat 128 (bitsAt v.toNat 4 7)
  nextOf s (match bitsAt v.toNat 0 4 with
    | 1 => execRetireCluster core (Fin.ofNat 16 (bitsAt v.toNat 11 4)) s
    | 2 => execRetireCore core s
    | 3 => execRetireMatrixRows core s
    | 4 => execRowRepair s.service.retaddr.toNat s
    | _ => .next (s.setRetstat 3))

/-- A write of an 8-byte register of the physical function's BAR0: its plain fields, then what a bit of it starts. -/
def State.barWrite (s : State) (off : Nat) (v : Word) : State :=
  let s := s.plainWrite off v
  if 0x410000 ≤ off ∧ off < 0x411000 then
    if off % 0x100 = 0x28 ∧ v.getLsbD 0 then nextOf s (execPop (Fin.ofNat 16 ((off - 0x410000) / 0x100)) s) else s
  else if off = 0x420000 then (if v.getLsbD 8 then nextOf s (execWeltCommit s) else s)
  else if 0x430000 ≤ off ∧ off < 0x430400 then
    if off % 0x100 = 0 ∧ v.getLsbD 16 then nextOf s (execPlaneReturn (Fin.ofNat 4 ((off - 0x430000) / 0x100)) s) else s
  else if off = 0x440008 then s.powerCommand v.toNat
  else if off = 0x440010 then s.hint 0 v
  else if off = 0x440020 then (if v.getLsbD 0 then s.snapshot else s)
  else if off = 0x440028 then s.retireRequest v
  else s

/-! ### Requests (R94, R373) -/

/-- Where the model's host addresses put the BAR0 of the function that a request goes to (DESIGN CHOICE, log 33). -/
def barBase : Nat := 2 ^ 52

/-- The enabled partition of a virtual function. -/
def State.partOfVf (s : State) (f : Nat) : Option (Fin 8) :=
  (List.finRange 8).find? fun p => (s.partOf p).en && (s.partOf p).pfunc == f

/-- The queue whose window a function reaches at an offset: any through the physical function, those of its partition
through a virtual one. -/
def State.windowQueue (s : State) (f off : Nat) : Option Nat :=
  if 0x400000 ≤ off then none
  else if f = 0 then some (off / 4096)
  else match s.partOfVf f with
    | none => none
    | some p => if off / 4096 < (s.partOf p).count then some ((s.partOf p).first + off / 4096) else none

/-- The whole 8-byte parts of a request, ascending, as offset and value. Parts of fewer bytes write no register
(DESIGN CHOICE, log 33). -/
def wholeParts (off : Nat) (data : List Byte) : List (Nat × Word) :=
  let first := (off + 7) / 8 * 8
  (List.range ((off + data.length - first) / 8)).map fun k =>
    (first + 8 * k, BitVec.ofNat 64 (ofBytes ((data.drop (first + 8 * k - off)).take 8)))

/-- A write request to BAR0 of a function. -/
def State.barRequest (s : State) (f off : Nat) (data : List Byte) : State :=
  if off < 0x400000 then
    match s.windowQueue f off with
    | some q => s.windowWrite q (off % 4096) data
    | none => s
  else (wholeParts off data).foldl (fun s (o, v) =>
    if f = 0 then s.barWrite o v else if o = 0x400010 then s.hint f v else s) s

/-- One byte written by the host to memory: not where a live barrier word stands (R252, DESIGN CHOICE, log 33). -/
def State.hostByte (s : State) (a : Nat) (b : Byte) : State :=
  if s.liveWord (.phys a) then s else s.writeLoc (.phys a) 1 b.toNat

/-- A function reaches an HBM4 byte: a virtual one, its partition's range (R310), of a stack that is ready (R375). -/
def State.hostReaches (s : State) (f a : Nat) : Bool :=
  match s.partOfVf f with
  | some p => f != 0 && s.inRange p a 1 && s.stackReady a
  | none => false

/-- HOST_WRITE (R94) to a function: its BAR0, HBM4 of its partition (R310), or the host's own memory. After a failed image the device
takes none (R379). -/
def execHostWrite (at' : HostAddr) (data : List Byte) (s : State) : Host.Outcome State Fault Refusal :=
  let addr := at'.addr
  if barBase ≤ addr then
    if s.silent || 2 ^ 25 ≤ addr - barBase then .next s else .next (s.barRequest at'.function.val (addr - barBase) data)
  else .next (data.zipIdx.foldl (fun s (b, k) =>
    match targetOf (addr + k) with
    | .host => s.hostByte (addr + k) b
    | .hbm => if !s.silent && s.hostReaches at'.function.val (addr + k) then s.hostByte (addr + k) b else s
    | _ => s) s)

/-- An 8-byte register that a function reads. -/
def State.barValue (s : State) (f off : Nat) : Word :=
  if f = 0 then s.barRead off
  else if off = 0x400000 then s.barRead 0x440000
  else match s.windowQueue f off with
    | some q => if off % 4096 = 0x40 then (s.queue q).qstat else 0
    | none => 0

/-- A byte of memory as the host reads it: of a poisoned sector (R356) a free value, at a place of its counter. -/
def State.hostMemory (s : State) (n a : Nat) : Byte := if poisoned s.poison a 1 then Config.poisonedByte n a else Memory.read s.mem a

/-- The byte the host reads at an address of a function; what is not there reads zero. -/
def State.hostSees (s : State) (n f a : Nat) : Byte :=
  if barBase ≤ a then
    let off := a - barBase
    if off < 2 ^ 25 then BitVec.ofNat 8 (bitsAt (s.barValue f (off / 8 * 8)).toNat (8 * (off % 8)) 8) else 0
  else match targetOf a with
    | .host => s.hostMemory n a
    | .hbm => if s.hostReaches f a then s.hostMemory n a else 0
    | _ => 0

/-- HOST_READ (R94, R109) of a function: the data goes to the host behind every device write made before. NCNT is looked at first
(DESIGN CHOICE, log 31). After a failed image the device does not answer (R379). -/
def execHostRead (at' : HostAddr) (n : Nat) (s : State) : Host.Outcome State Fault Refusal :=
  let addr := at'.addr
  if s.silent then .next s
  else
    let s := if barBase ≤ addr then s.allTraffic else s
    let (c, s) := s.fresh
    .next (s.send (.hostData addr ((List.range n).map fun k => s.hostSees c at'.function.val (addr + k))))

/-- CACHE_EVICTION_WRITEBACK (R110, R371): a line of a core's cache or of a CAC; its dirty bytes go out and it leaves. Where they cannot
go, the line stays. -/
def execCacheEvictionWriteback (holder : Cache) (line : Nat) (s : State) : Host.Outcome State Fault Refusal :=
  match s.rcache.find? fun l => l.holder == holder && l.line == line with
  | none => .next s
  | some l =>
    if !l.dirty.isEmpty && s.turnedAway l.device l.line then .next s
    else
      let s := s.writeBack l
      .next { s with rcache := s.rcache.filter fun e => !(e.holder == holder && e.line == line) }

end Sys2Proof.Machine
end

