-- ==== Sys2Proof/Machine/ScalarMem.lean ====
section
/-! DEFINITION. Scalar loads and stores, majors 0x04 and 0x05 (07 R147 to R149). -/

namespace Sys2Proof.Machine

/-- The effective address (R147). -/
def State.ea (s : State) (a : XReg) (o : Int) : Nat := (s.x a + immW o).toNat

/-- A load of n bytes, sign- or zero-extended (R147, R148); a load into x0 still performs. -/
def loadX (n : Nat) (signed : Bool) (d a : XReg) (o : Int) (s : State) : Host.Outcome State Fault Refusal :=
  finish do
    let s := s.drain
    let (v, s') ← s.orTrap (s.load .cached (s.ea a o) n)
    .ok (s'.setX d (if signed then BitVec.ofInt 64 (toSigned (8 * n) v) else BitVec.ofNat 64 v)).retire

/-- A store of n bytes of a register (R147, R148). -/
def storeX (n : Nat) (d a : XReg) (o : Int) (s : State) : Host.Outcome State Fault Refusal :=
  finish do
    let s := s.drain
    let s' ← s.orTrap (s.store .cached none (s.ea a o) n ((s.x d).toNat % 2 ^ (8 * n)))
    .ok s'.retire

/-- `lb` (R147). -/
def execLb (d a : XReg) (o : Int) (s : State) : Host.Outcome State Fault Refusal := loadX 1 true d a o s
/-- `lh` (R147). -/
def execLh (d a : XReg) (o : Int) (s : State) : Host.Outcome State Fault Refusal := loadX 2 true d a o s
/-- `lw` (R147). -/
def execLw (d a : XReg) (o : Int) (s : State) : Host.Outcome State Fault Refusal := loadX 4 true d a o s
/-- `ld` (R147). -/
def execLd (d a : XReg) (o : Int) (s : State) : Host.Outcome State Fault Refusal := loadX 8 false d a o s
/-- `lbu` (R147). -/
def execLbu (d a : XReg) (o : Int) (s : State) : Host.Outcome State Fault Refusal := loadX 1 false d a o s
/-- `lhu` (R147). -/
def execLhu (d a : XReg) (o : Int) (s : State) : Host.Outcome State Fault Refusal := loadX 2 false d a o s
/-- `lwu` (R147). -/
def execLwu (d a : XReg) (o : Int) (s : State) : Host.Outcome State Fault Refusal := loadX 4 false d a o s
/-- `sb` (R147). -/
def execSb (d a : XReg) (o : Int) (s : State) : Host.Outcome State Fault Refusal := storeX 1 d a o s
/-- `sh` (R147). -/
def execSh (d a : XReg) (o : Int) (s : State) : Host.Outcome State Fault Refusal := storeX 2 d a o s
/-- `sw` (R147). -/
def execSw (d a : XReg) (o : Int) (s : State) : Host.Outcome State Fault Refusal := storeX 4 d a o s
/-- `sd` (R147). -/
def execSd (d a : XReg) (o : Int) (s : State) : Host.Outcome State Fault Refusal := storeX 8 d a o s

end Sys2Proof.Machine
end

