-- ==== Sys2Proof/Machine/Dispatch.lean ====
section
/-! DEFINITION. One arm per instruction: a direct call of its meaning, or a rejection by name. -/

namespace Sys2Proof.Machine

/-- The meaning of an instruction in a state. DEDUCED, log 2. -/
def exec (i : Instr) (s : State) : Host.Outcome State Fault Refusal :=
  match i with
  | .add d a b => Sys2Proof.Machine.execAdd d a b s
  | .sub d a b => Sys2Proof.Machine.execSub d a b s
  | .and d a b => Sys2Proof.Machine.execAnd d a b s
  | .or d a b => Sys2Proof.Machine.execOr d a b s
  | .xor d a b => Sys2Proof.Machine.execXor d a b s
  | .andn d a b => Sys2Proof.Machine.execAndn d a b s
  | .sll d a b => Sys2Proof.Machine.execSll d a b s
  | .srl d a b => Sys2Proof.Machine.execSrl d a b s
  | .sra d a b => Sys2Proof.Machine.execSra d a b s
  | .rol d a b => Sys2Proof.Machine.execRol d a b s
  | .ror d a b => Sys2Proof.Machine.execRor d a b s
  | .min d a b => Sys2Proof.Machine.execMin d a b s
  | .max d a b => Sys2Proof.Machine.execMax d a b s
  | .minu d a b => Sys2Proof.Machine.execMinu d a b s
  | .maxu d a b => Sys2Proof.Machine.execMaxu d a b s
  | .csel d a b n => Sys2Proof.Machine.execCsel d a b n s
  | .addi d a imm => Sys2Proof.Machine.execAddi d a imm s
  | .andi d a imm => Sys2Proof.Machine.execAndi d a imm s
  | .ori d a imm => Sys2Proof.Machine.execOri d a imm s
  | .xori d a imm => Sys2Proof.Machine.execXori d a imm s
  | .slli d a s1 => Sys2Proof.Machine.execSlli d a s1 s
  | .srli d a s1 => Sys2Proof.Machine.execSrli d a s1 s
  | .srai d a s1 => Sys2Proof.Machine.execSrai d a s1 s
  | .rori d a s1 => Sys2Proof.Machine.execRori d a s1 s
  | .lui d imm => Sys2Proof.Machine.execLui d imm s
  | .lb d a o => Sys2Proof.Machine.execLb d a o s
  | .lh d a o => Sys2Proof.Machine.execLh d a o s
  | .lw d a o => Sys2Proof.Machine.execLw d a o s
  | .ld d a o => Sys2Proof.Machine.execLd d a o s
  | .lbu d a o => Sys2Proof.Machine.execLbu d a o s
  | .lhu d a o => Sys2Proof.Machine.execLhu d a o s
  | .lwu d a o => Sys2Proof.Machine.execLwu d a o s
  | .sb s1 a o => Sys2Proof.Machine.execSb s1 a o s
  | .sh s1 a o => Sys2Proof.Machine.execSh s1 a o s
  | .sw s1 a o => Sys2Proof.Machine.execSw s1 a o s
  | .sd s1 a o => Sys2Proof.Machine.execSd s1 a o s
  | .bc c k o => Sys2Proof.Machine.execBc c k o s
  | .bnc c k o => Sys2Proof.Machine.execBnc c k o s
  | .jal d o => Sys2Proof.Machine.execJal d o s
  | .jalr d a imm => Sys2Proof.Machine.execJalr d a imm s
  | .cmpiEq c a imm => Sys2Proof.Machine.execCmpiEq c a imm s
  | .cmpiLt c a imm => Sys2Proof.Machine.execCmpiLt c a imm s
  | .cmpiLtu c a imm => Sys2Proof.Machine.execCmpiLtu c a imm s
  | .cmpEq c a b => Sys2Proof.Machine.execCmpEq c a b s
  | .cmpLt c a b => Sys2Proof.Machine.execCmpLt c a b s
  | .cmpLtu c a b => Sys2Proof.Machine.execCmpLtu c a b s
  | .cmpTst c a b => Sys2Proof.Machine.execCmpTst c a b s
  | .cand d s1 t => Sys2Proof.Machine.execCand d s1 t s
  | .cor d s1 t => Sys2Proof.Machine.execCor d s1 t s
  | .cxor d s1 t => Sys2Proof.Machine.execCxor d s1 t s
  | .candn d s1 t => Sys2Proof.Machine.execCandn d s1 t s
  | .movs d r => Sys2Proof.Machine.execMovs d r s
  | .smov a r => Sys2Proof.Machine.execSmov a r s
  | .trap imm => Sys2Proof.Machine.execTrap imm s
  | .ebreak => Sys2Proof.Machine.execEbreak s
  | .kret => Sys2Proof.Machine.execKret s
  | .mcall imm => Sys2Proof.Machine.execMcall imm s
  | .monret => Sys2Proof.Machine.execMonret s
  | .invpg s1 a => Sys2Proof.Machine.execInvpg s1 a s
  | .invpgG a => Sys2Proof.Machine.execInvpgG a s
  | .hend s1 => Sys2Proof.Machine.execHend s1 s
  | .mul d a b => Sys2Proof.Machine.execMul d a b s
  | .mulhiSs d a b => Sys2Proof.Machine.execMulhiSs d a b s
  | .mulhiUu d a b => Sys2Proof.Machine.execMulhiUu d a b s
  | .mulhiSu d a b => Sys2Proof.Machine.execMulhiSu d a b s
  | .div d a b => Sys2Proof.Machine.execDiv d a b s
  | .divu d a b => Sys2Proof.Machine.execDivu d a b s
  | .rem d a b => Sys2Proof.Machine.execRem d a b s
  | .remu d a b => Sys2Proof.Machine.execRemu d a b s
  | .faddS d a b rm => Sys2Proof.Machine.execFaddS d a b rm s
  | .faddD d a b rm => Sys2Proof.Machine.execFaddD d a b rm s
  | .fsubS d a b rm => Sys2Proof.Machine.execFsubS d a b rm s
  | .fsubD d a b rm => Sys2Proof.Machine.execFsubD d a b rm s
  | .fmulS d a b rm => Sys2Proof.Machine.execFmulS d a b rm s
  | .fmulD d a b rm => Sys2Proof.Machine.execFmulD d a b rm s
  | .fdivS d a b rm => Sys2Proof.Machine.execFdivS d a b rm s
  | .fdivD d a b rm => Sys2Proof.Machine.execFdivD d a b rm s
  | .fsqrtS d a rm => Sys2Proof.Machine.execFsqrtS d a rm s
  | .fsqrtD d a rm => Sys2Proof.Machine.execFsqrtD d a rm s
  | .fminS d a b rm => Sys2Proof.Machine.execFminS d a b rm s
  | .fminD d a b rm => Sys2Proof.Machine.execFminD d a b rm s
  | .fmaxS d a b rm => Sys2Proof.Machine.execFmaxS d a b rm s
  | .fmaxD d a b rm => Sys2Proof.Machine.execFmaxD d a b rm s
  | .fmacS d a b rm => Sys2Proof.Machine.execFmacS d a b rm s
  | .fmacD d a b rm => Sys2Proof.Machine.execFmacD d a b rm s
  | .fcmpEqS c a b rm => Sys2Proof.Machine.execFcmpEqS c a b rm s
  | .fcmpEqD c a b rm => Sys2Proof.Machine.execFcmpEqD c a b rm s
  | .fcmpLtS c a b rm => Sys2Proof.Machine.execFcmpLtS c a b rm s
  | .fcmpLtD c a b rm => Sys2Proof.Machine.execFcmpLtD c a b rm s
  | .fcmpLeS c a b rm => Sys2Proof.Machine.execFcmpLeS c a b rm s
  | .fcmpLeD c a b rm => Sys2Proof.Machine.execFcmpLeD c a b rm s
  | .fcvtLS d a rm sat => Sys2Proof.Machine.execFcvtLS d a rm sat s
  | .fcvtLD d a rm sat => Sys2Proof.Machine.execFcvtLD d a rm sat s
  | .fcvtLuS d a rm sat => Sys2Proof.Machine.execFcvtLuS d a rm sat s
  | .fcvtLuD d a rm sat => Sys2Proof.Machine.execFcvtLuD d a rm sat s
  | .fcvtSL d a rm => Sys2Proof.Machine.execFcvtSL d a rm s
  | .fcvtDL d a rm => Sys2Proof.Machine.execFcvtDL d a rm s
  | .fcvtSLu d a rm => Sys2Proof.Machine.execFcvtSLu d a rm s
  | .fcvtDLu d a rm => Sys2Proof.Machine.execFcvtDLu d a rm s
  | .fcvtSD d a rm sat => Sys2Proof.Machine.execFcvtSD d a rm sat s
  | .fcvtDS d a rm => Sys2Proof.Machine.execFcvtDS d a rm s
  | .clz d a => Sys2Proof.Machine.execClz d a s
  | .ctz d a => Sys2Proof.Machine.execCtz d a s
  | .popc d a => Sys2Proof.Machine.execPopc d a s
  | .bswap d a => Sys2Proof.Machine.execBswap d a s
  | .bfx d a l p => Sys2Proof.Machine.execBfx d a l p s
  | .bfxu d a l p => Sys2Proof.Machine.execBfxu d a l p s
  | .bfi d a l p => Sys2Proof.Machine.execBfi d a l p s
  | .fsh d a s1 b => Sys2Proof.Machine.execFsh d a s1 b s
  | .fshv d a c b => Sys2Proof.Machine.execFshv d a c b s
  | .bfxuv d a l b => Sys2Proof.Machine.execBfxuv d a l b s
  | .amoAdd d a b o s1 z => Sys2Proof.Machine.execAmoAdd d a b o s1 z s
  | .amoAnd d a b o s1 z => Sys2Proof.Machine.execAmoAnd d a b o s1 z s
  | .amoOr d a b o s1 z => Sys2Proof.Machine.execAmoOr d a b o s1 z s
  | .amoXor d a b o s1 z => Sys2Proof.Machine.execAmoXor d a b o s1 z s
  | .amoMin d a b o s1 z => Sys2Proof.Machine.execAmoMin d a b o s1 z s
  | .amoMax d a b o s1 z => Sys2Proof.Machine.execAmoMax d a b o s1 z s
  | .amoMinu d a b o s1 z => Sys2Proof.Machine.execAmoMinu d a b o s1 z s
  | .amoMaxu d a b o s1 z => Sys2Proof.Machine.execAmoMaxu d a b o s1 z s
  | .amoSwap d a b o s1 z => Sys2Proof.Machine.execAmoSwap d a b o s1 z s
  | .amoCas d a b o s1 z => Sys2Proof.Machine.execAmoCas d a b o s1 z s
  | .casQ d a b o s1 => Sys2Proof.Machine.execCasQ d a b o s1 s
  | .ldAcq d a s1 z => Sys2Proof.Machine.execLdAcq d a s1 z s
  | .stRel a b s1 z => Sys2Proof.Machine.execStRel a b s1 z s
  | .fence sLd sSt sEng sRem s1 => Sys2Proof.Machine.execFence sLd sSt sEng sRem s1 s
  | .ifence => Sys2Proof.Machine.execIfence s
  | .waitge d a b s1 z => Sys2Proof.Machine.execWaitge d a b s1 z s
  | .waiteq d a b s1 z => Sys2Proof.Machine.execWaiteq d a b s1 z s
  | .barInit d a b => Sys2Proof.Machine.execBarInit d a b s
  | .barArrive d a s1 => Sys2Proof.Machine.execBarArrive d a s1 s
  | .barWait a b s1 => Sys2Proof.Machine.execBarWait a b s1 s
  | .barFin a => Sys2Proof.Machine.execBarFin a s
  | .farmDef s1 a => Sys2Proof.Machine.execFarmDef s1 a s
  | .farmNext d n => Sys2Proof.Machine.execFarmNext d n s
  | .farmEnd => Sys2Proof.Machine.execFarmEnd s
  | .scommit => Sys2Proof.Machine.execScommit s
  | .sabort => Sys2Proof.Machine.execSabort s
  | .sbegin o => Sys2Proof.Machine.execSbegin o s
  | .launch d a b => Sys2Proof.Machine.execLaunch d a b s
  | .setvl d a t g => Sys2Proof.Machine.execSetvl d a t g s
  | .setvlH d a t g => Sys2Proof.Machine.execSetvlH d a t g s
  | .vld d a o m hint => Sys2Proof.Machine.execVld d a o m hint s
  | .vldff d a m hint => Sys2Proof.Machine.execVldff d a m hint s
  | .vlds d a s1 o m hint => Sys2Proof.Machine.execVlds d a s1 o m hint s
  | .vst v a o m => Sys2Proof.Machine.execVst v a o m s
  | .vsts v a s1 o m => Sys2Proof.Machine.execVsts v a s1 o m s
  | .vldx d a imm c o m hint => Sys2Proof.Machine.execVldx d a imm c o m hint s
  | .vldxFar d a imm c o m hint => Sys2Proof.Machine.execVldxFar d a imm c o m hint s
  | .vstx v a imm c o m => Sys2Proof.Machine.execVstx v a imm c o m s
  | .vstxFar v a imm c o m => Sys2Proof.Machine.execVstxFar v a imm c o m s
  | .vldseg d a o m n hint => Sys2Proof.Machine.execVldseg d a o m n hint s
  | .vstseg v a o m n => Sys2Proof.Machine.execVstseg v a o m n s
  | .vldsegP d a imm c m n hint => Sys2Proof.Machine.execVldsegP d a imm c m n hint s
  | .vstsegP v a imm c o m n => Sys2Proof.Machine.execVstsegP v a imm c o m n s
  | .vld2 d a o m hint => Sys2Proof.Machine.execVld2 d a o m hint s
  | .vst2 v a o m => Sys2Proof.Machine.execVst2 v a o m s
  | .vsbind d a s1 n => Sys2Proof.Machine.execVsbind d a s1 n s
  | .vsunbind d => Sys2Proof.Machine.execVsunbind d s
  | .vtag d t => Sys2Proof.Machine.execVtag d t s
  | .vtagr d b => Sys2Proof.Machine.execVtagr d b s
  | .spdisc a b => Sys2Proof.Machine.execSpdisc a b s
  | .spkeep a b => Sys2Proof.Machine.execSpkeep a b s
  | .vadd d a b q p m rm sat => Sys2Proof.Machine.execVadd d a b q p m rm sat s
  | .vsub d a b q p m rm sat => Sys2Proof.Machine.execVsub d a b q p m rm sat s
  | .vmul d a b q p m rm sat => Sys2Proof.Machine.execVmul d a b q p m rm sat s
  | .vdiv d a b q p m rm => Sys2Proof.Machine.execVdiv d a b q p m rm s
  | .vrem d a b q p m rm => Sys2Proof.Machine.execVrem d a b q p m rm s
  | .vmin d a b q p m rm => Sys2Proof.Machine.execVmin d a b q p m rm s
  | .vmax d a b q p m rm => Sys2Proof.Machine.execVmax d a b q p m rm s
  | .vand d a b q p m rm => Sys2Proof.Machine.execVand d a b q p m rm s
  | .vor d a b q p m rm => Sys2Proof.Machine.execVor d a b q p m rm s
  | .vxor d a b q p m rm => Sys2Proof.Machine.execVxor d a b q p m rm s
  | .vsll d a b q p m rm => Sys2Proof.Machine.execVsll d a b q p m rm s
  | .vsrl d a b q p m rm => Sys2Proof.Machine.execVsrl d a b q p m rm s
  | .vsra d a b q p m rm => Sys2Proof.Machine.execVsra d a b q p m rm s
  | .vmulh d a b q p m rm => Sys2Proof.Machine.execVmulh d a b q p m rm s
  | .vaddX d a x q m rm sat => Sys2Proof.Machine.execVaddX d a x q m rm sat s
  | .vsubX d a x q m rm sat => Sys2Proof.Machine.execVsubX d a x q m rm sat s
  | .vmulX d a x q m rm sat => Sys2Proof.Machine.execVmulX d a x q m rm sat s
  | .vdivX d a x q m rm => Sys2Proof.Machine.execVdivX d a x q m rm s
  | .vremX d a x q m rm => Sys2Proof.Machine.execVremX d a x q m rm s
  | .vminX d a x q m rm => Sys2Proof.Machine.execVminX d a x q m rm s
  | .vmaxX d a x q m rm => Sys2Proof.Machine.execVmaxX d a x q m rm s
  | .vandX d a x q m rm => Sys2Proof.Machine.execVandX d a x q m rm s
  | .vorX d a x q m rm => Sys2Proof.Machine.execVorX d a x q m rm s
  | .vxorX d a x q m rm => Sys2Proof.Machine.execVxorX d a x q m rm s
  | .vsllX d a x q m rm => Sys2Proof.Machine.execVsllX d a x q m rm s
  | .vsrlX d a x q m rm => Sys2Proof.Machine.execVsrlX d a x q m rm s
  | .vsraX d a x q m rm => Sys2Proof.Machine.execVsraX d a x q m rm s
  | .vmulhX d a x q m rm => Sys2Proof.Machine.execVmulhX d a x q m rm s
  | .vfma d a b q p m rm sat => Sys2Proof.Machine.execVfma d a b q p m rm sat s
  | .vfms d a b q p m rm sat => Sys2Proof.Machine.execVfms d a b q p m rm sat s
  | .vfnma d a b q p m rm sat => Sys2Proof.Machine.execVfnma d a b q p m rm sat s
  | .vfnms d a b q p m rm sat => Sys2Proof.Machine.execVfnms d a b q p m rm sat s
  | .vcmpEq d a b q p m rm => Sys2Proof.Machine.execVcmpEq d a b q p m rm s
  | .vcmpNe d a b q p m rm => Sys2Proof.Machine.execVcmpNe d a b q p m rm s
  | .vcmpLt d a b q p m rm => Sys2Proof.Machine.execVcmpLt d a b q p m rm s
  | .vcmpLe d a b q p m rm => Sys2Proof.Machine.execVcmpLe d a b q p m rm s
  | .vcmpEqX d a x q m rm => Sys2Proof.Machine.execVcmpEqX d a x q m rm s
  | .vcmpNeX d a x q m rm => Sys2Proof.Machine.execVcmpNeX d a x q m rm s
  | .vcmpLtX d a x q m rm => Sys2Proof.Machine.execVcmpLtX d a x q m rm s
  | .vcmpLeX d a x q m rm => Sys2Proof.Machine.execVcmpLeX d a x q m rm s
  | .vcmpGtX d a x q m rm => Sys2Proof.Machine.execVcmpGtX d a x q m rm s
  | .vcmpGeX d a x q m rm => Sys2Proof.Machine.execVcmpGeX d a x q m rm s
  | .mand d a b => Sys2Proof.Machine.execMand d a b s
  | .mor d a b => Sys2Proof.Machine.execMor d a b s
  | .mxor d a b => Sys2Proof.Machine.execMxor d a b s
  | .mandn d a b => Sys2Proof.Machine.execMandn d a b s
  | .mnot d a => Sys2Proof.Machine.execMnot d a s
  | .msbf d a => Sys2Proof.Machine.execMsbf d a s
  | .msif d a => Sys2Proof.Machine.execMsif d a s
  | .mpopc d a m => Sys2Proof.Machine.execMpopc d a m s
  | .mfirst d a m => Sys2Proof.Machine.execMfirst d a m s
  | .vmv d a q m => Sys2Proof.Machine.execVmv d a q m s
  | .vmerge d a b q p m => Sys2Proof.Machine.execVmerge d a b q p m s
  | .vsplat d x m => Sys2Proof.Machine.execVsplat d x m s
  | .vid d m => Sys2Proof.Machine.execVid d m s
  | .vslideup d a x q m => Sys2Proof.Machine.execVslideup d a x q m s
  | .vslidedn d a x q m => Sys2Proof.Machine.execVslidedn d a x q m s
  | .vslide1up d a x q m => Sys2Proof.Machine.execVslide1up d a x q m s
  | .vslide1dn d a x q m => Sys2Proof.Machine.execVslide1dn d a x q m s
  | .vrgather d a b q p m => Sys2Proof.Machine.execVrgather d a b q p m s
  | .vcompress d a q m => Sys2Proof.Machine.execVcompress d a q m s
  | .vexpand d a q m => Sys2Proof.Machine.execVexpand d a q m s
  | .vpfxpop d a => Sys2Proof.Machine.execVpfxpop d a s
  | .vconflict d a q m => Sys2Proof.Machine.execVconflict d a q m s
  | .vscanSegAdd d a q m rm => Sys2Proof.Machine.execVscanSegAdd d a q m rm s
  | .vscanSegMin d a q m rm => Sys2Proof.Machine.execVscanSegMin d a q m rm s
  | .vscanSegMax d a q m rm => Sys2Proof.Machine.execVscanSegMax d a q m rm s
  | .vredAdd d a b q p m rm => Sys2Proof.Machine.execVredAdd d a b q p m rm s
  | .vredMin d a b q p m rm => Sys2Proof.Machine.execVredMin d a b q p m rm s
  | .vredMax d a b q p m rm => Sys2Proof.Machine.execVredMax d a b q p m rm s
  | .vredAnd d a b q p m rm => Sys2Proof.Machine.execVredAnd d a b q p m rm s
  | .vredOr d a b q p m rm => Sys2Proof.Machine.execVredOr d a b q p m rm s
  | .vredXor d a b q p m rm => Sys2Proof.Machine.execVredXor d a b q p m rm s
  | .vfredOrd d a b q p m rm => Sys2Proof.Machine.execVfredOrd d a b q p m rm s
  | .vcvt d a t q m rm sat => Sys2Proof.Machine.execVcvt d a t q m rm sat s
  | .vneg d a q m rm sat => Sys2Proof.Machine.execVneg d a q m rm sat s
  | .vabs d a q m rm sat => Sys2Proof.Machine.execVabs d a q m rm sat s
  | .vsqrt d a q m rm => Sys2Proof.Machine.execVsqrt d a q m rm s
  | .vexp2 d a q m rm => Sys2Proof.Machine.execVexp2 d a q m rm s
  | .vlog2 d a q m rm => Sys2Proof.Machine.execVlog2 d a q m rm s
  | .vrcp d a q m rm => Sys2Proof.Machine.execVrcp d a q m rm s
  | .vrsqrt d a q m rm => Sys2Proof.Machine.execVrsqrt d a q m rm s
  | .vbext d a b q p m len => Sys2Proof.Machine.execVbext d a b q p m len s
  | .vfsh d a b q p m => Sys2Proof.Machine.execVfsh d a b q p m s
  | .xaClr e => Sys2Proof.Machine.execXaClr e s
  | .xaAddv e a q m => Sys2Proof.Machine.execXaAddv e a q m s
  | .xaDot e a b q p m => Sys2Proof.Machine.execXaDot e a b q p m s
  | .xaRd d e t rm => Sys2Proof.Machine.execXaRd d e t rm s
  | .xaRdv d e x rm => Sys2Proof.Machine.execXaRdv d e x rm s
  | .xaLd e a hint => Sys2Proof.Machine.execXaLd e a hint s
  | .xaSt e a => Sys2Proof.Machine.execXaSt e a s
  | .vmvXv d a x q => Sys2Proof.Machine.execVmvXv d a x q s
  | .vmvVx d a b => Sys2Proof.Machine.execVmvVx d a b s
  | .qld d v hint => Sys2Proof.Machine.execQld d v hint s
  | .qwalk d v hint => Sys2Proof.Machine.execQwalk d v hint s
  | .qwalkD d v hint => Sys2Proof.Machine.execQwalkD d v hint s
  | .qst a v => Sys2Proof.Machine.execQst a v s
  | .qisectMul d a b rm sat => Sys2Proof.Machine.execQisectMul d a b rm sat s
  | .qisectA d a b => Sys2Proof.Machine.execQisectA d a b s
  | .qisectB d a b => Sys2Proof.Machine.execQisectB d a b s
  | .qunionAdd d a b rm sat => Sys2Proof.Machine.execQunionAdd d a b rm sat s
  | .qmerge d a b => Sys2Proof.Machine.execQmerge d a b s
  | .qsort d a => Sys2Proof.Machine.execQsort d a s
  | .qcompact d a => Sys2Proof.Machine.execQcompact d a s
  | .qcompactM d a m => Sys2Proof.Machine.execQcompactM d a m s
  | .qdot e a b => Sys2Proof.Machine.execQdot e a b s
  | .qexpand a v d => Sys2Proof.Machine.execQexpand a v d s
  | .qfromv d v a => Sys2Proof.Machine.execQfromv d v a s
  | .qfromvAll d v a => Sys2Proof.Machine.execQfromvAll d v a s
  | .qcoord a d => Sys2Proof.Machine.execQcoord a d s
  | .qval a d => Sys2Proof.Machine.execQval a d s
  | .qcnt a d => Sys2Proof.Machine.execQcnt a d s
  | .qclr d => Sys2Proof.Machine.execQclr d s
  | .qscale d a v rm sat => Sys2Proof.Machine.execQscale d a v rm sat s
  | .qredAdd a d rm => Sys2Proof.Machine.execQredAdd a d rm s
  | .qredMin a d => Sys2Proof.Machine.execQredMin a d s
  | .qredMax a d => Sys2Proof.Machine.execQredMax a d s
  | .mattach r => Sys2Proof.Machine.execMattach r s
  | .mdetach => Sys2Proof.Machine.execMdetach s
  | .mzeroT d => Sys2Proof.Machine.execMzeroT d s
  | .mzeroZ d => Sys2Proof.Machine.execMzeroZ d s
  | .mldT d a hint => Sys2Proof.Machine.execMldT d a hint s
  | .mldZ d a hint => Sys2Proof.Machine.execMldZ d a hint s
  | .mldbm d b a hint => Sys2Proof.Machine.execMldbm d b a hint s
  | .mstT d a => Sys2Proof.Machine.execMstT d a s
  | .mstZ d a => Sys2Proof.Machine.execMstZ d a s
  | .mma d a b start ceil rm => Sys2Proof.Machine.execMma d a b start ceil rm s
  | .mmaSp d a b start ceil rm => Sys2Proof.Machine.execMmaSp d a b start ceil rm s
  | .mmaSs d a b start ceil rm => Sys2Proof.Machine.execMmaSs d a b start ceil rm s
  | .mdrain z m a rm sat => Sys2Proof.Machine.execMdrain z m a rm sat s
  | .mdrainX z m imm a rm sat => Sys2Proof.Machine.execMdrainX z m imm a rm sat s
  | .mdrainv z m d rm sat => Sys2Proof.Machine.execMdrainv z m d rm sat s
  | .cpy h a b r => Sys2Proof.Machine.execCpy h a b r s
  | .cpy2 h a b p r => Sys2Proof.Machine.execCpy2 h a b p r s
  | .cpyG h a b imm r => Sys2Proof.Machine.execCpyG h a b imm r s
  | .cpyGd h a b imm r => Sys2Proof.Machine.execCpyGd h a b imm r s
  | .cpyR h a b r => Sys2Proof.Machine.execCpyR h a b r s
  | .cbatch => Sys2Proof.Machine.execCbatch s
  | .cwait n => Sys2Proof.Machine.execCwait n s
  | .cstat h d s1 => Sys2Proof.Machine.execCstat h d s1 s
  | .cack h => Sys2Proof.Machine.execCack h s
  | .lzInit d b c => Sys2Proof.Machine.execLzInit d b c s
  | .lzRes d b => Sys2Proof.Machine.execLzRes d b s
  | .lzWait b c => Sys2Proof.Machine.execLzWait b c s
  | .lzFree b c => Sys2Proof.Machine.execLzFree b c s
  | .lzScrub d b => Sys2Proof.Machine.execLzScrub d b s
  | .lzFin b => Sys2Proof.Machine.execLzFin b s
  | .qsend h b a r => Sys2Proof.Machine.execQsend h b a r s
  | .qrecv d b c => Sys2Proof.Machine.execQrecv d b c s
  | .gatherGroupArrive h v g => Sys2Proof.Machine.execGatherGroupArrive h v g s
  | .streamPrefetch h s1 => Sys2Proof.Machine.execStreamPrefetch h s1 s
  | .copyAccept h => Sys2Proof.Machine.execCopyAccept h s
  | .copyElement h ch => Sys2Proof.Machine.execCopyElement h ch s
  | .lzResRequest dev handle => Sys2Proof.Machine.execLzResRequest dev handle s
  | .lzResReply h value c7 => Sys2Proof.Machine.execLzResReply h value c7 s
  | .zoneFirstRequest t => Sys2Proof.Machine.execZoneFirstRequest t s
  | .eyeletPayloadWrite t data => Sys2Proof.Machine.execEyeletPayloadWrite t data s
  | .fullAcknowledge h ch => Sys2Proof.Machine.execFullAcknowledge h ch s
  | .monitorWake h => Sys2Proof.Machine.execMonitorWake h s
  | .pollInterval h => Sys2Proof.Machine.execPollInterval h s
  | .illegalEncoding word second => Sys2Proof.Machine.execIllegalEncoding word second s
  | .takeAsyncEvent h => Sys2Proof.Machine.execTakeAsyncEvent h s
  | .reclaimTimeout h => Sys2Proof.Machine.execReclaimTimeout h s
  | .switchOut h => Sys2Proof.Machine.execSwitchOut h s
  | .hartRestore h => Sys2Proof.Machine.execHartRestore h s
  | .hartEnd h => Sys2Proof.Machine.execHartEnd h s
  | .launchDone l => Sys2Proof.Machine.execLaunchDone l s
  | .queueWindowWrite q off data => Sys2Proof.Machine.execQueueWindowWrite q off data s
  | .packetAccept q => Sys2Proof.Machine.execPacketAccept q s
  | .dependenceRecheck q => Sys2Proof.Machine.execDependenceRecheck q s
  | .dependencePoll q => Sys2Proof.Machine.execDependencePoll q s
  | .schedulePlacement p => Sys2Proof.Machine.execSchedulePlacement p s
  | .rackLaunchRequest source q req rest => Sys2Proof.Machine.execRackLaunchRequest source q req rest s
  | .rackReportRequest source p => Sys2Proof.Machine.execRackReportRequest source p s
  | .residencyReport p => Sys2Proof.Machine.execResidencyReport p s
  | .partitionEnable p => Sys2Proof.Machine.execPartitionEnable p s
  | .partitionDisable p => Sys2Proof.Machine.execPartitionDisable p s
  | .registerWrite r v => Sys2Proof.Machine.execRegisterWrite r v s
  | .cacheEvictionWriteback holder line => Sys2Proof.Machine.execCacheEvictionWriteback holder line s
  | .hostWrite at' data => Sys2Proof.Machine.execHostWrite at' data s
  | .hostRead at' n => Sys2Proof.Machine.execHostRead at' n s
  | .pathLost p => Sys2Proof.Machine.execPathLost p s
  | .pathReturn p full => Sys2Proof.Machine.execPathReturn p full s
  | .pathLostForGood p => Sys2Proof.Machine.execPathLostForGood p s
  | .weltCommit => Sys2Proof.Machine.execWeltCommit s
  | .weltGenerationDrain => Sys2Proof.Machine.execWeltGenerationDrain s
  | .weltLinkFail c l => Sys2Proof.Machine.execWeltLinkFail c l s
  | .laneSpareRepair c l => Sys2Proof.Machine.execLaneSpareRepair c l s
  | .nirmusDataFlit port words => Sys2Proof.Machine.execNirmusDataFlit port words s
  | .nirmusAcknowledgeFlit port words => Sys2Proof.Machine.execNirmusAcknowledgeFlit port words s
  | .nirmusIdleFlit port words => Sys2Proof.Machine.execNirmusIdleFlit port words s
  | .keyExhaustionFlit port words => Sys2Proof.Machine.execKeyExhaustionFlit port words s
  | .planeReturn port => Sys2Proof.Machine.execPlaneReturn port s
  | .transmitKeySwitch port => Sys2Proof.Machine.execTransmitKeySwitch port s
  | .counterExhaustion port => Sys2Proof.Machine.execCounterExhaustion port s
  | .keyHoldTimeout port => Sys2Proof.Machine.execKeyHoldTimeout port s
  | .hostInterrupt vf value core slot => Sys2Proof.Machine.execHostInterrupt vf value core slot s
  | .ps0Run => Sys2Proof.Machine.execPs0Run s
  | .ps1Capped => Sys2Proof.Machine.execPs1Capped s
  | .ps2Quiesce => Sys2Proof.Machine.execPs2Quiesce s
  | .ps3Standby => Sys2Proof.Machine.execPs3Standby s
  | .unitReady u => Sys2Proof.Machine.execUnitReady u s
  | .tempAlert celsius => Sys2Proof.Machine.execTempAlert celsius s
  | .thermalPowerRemoval => Sys2Proof.Machine.execThermalPowerRemoval s
  | .moduleRemoval => Sys2Proof.Machine.execModuleRemoval s
  | .powerUp => Sys2Proof.Machine.execPowerUp s
  | .configurationImage img => Sys2Proof.Machine.execConfigurationImage img s
  | .fire => Sys2Proof.Machine.execFire s
  | .snapctlFire => Sys2Proof.Machine.execSnapctlFire s
  | .retireCluster core cluster => Sys2Proof.Machine.execRetireCluster core cluster s
  | .retireCore core => Sys2Proof.Machine.execRetireCore core s
  | .retireMatrixRows core => Sys2Proof.Machine.execRetireMatrixRows core s
  | .rowRepair addr => Sys2Proof.Machine.execRowRepair addr s
  | .rowRepairDone => Sys2Proof.Machine.execRowRepairDone s
  | .memoryErrorEvent k kind chan layer addr => Sys2Proof.Machine.execMemoryErrorEvent k kind chan layer addr s
  | .pop k => Sys2Proof.Machine.execPop k s
  | .bytesAcknowledged h ch n => Sys2Proof.Machine.execBytesAcknowledged h ch n s
  | .portTraining port ok => Sys2Proof.Machine.execPortTraining port ok s

end Sys2Proof.Machine
end

