-- ==== Sys2Proof/Machine/Step.lean ====
section
/-! DEFINITION. One step of the machine. First an event that the outside or an engine brings (DESIGN CHOICE, log 5), or what may
happen at a time the spec leaves open (DESIGN CHOICE, log 61); else the hart
whose turn it is does one thing: takes a pending event, ends, runs one instruction, or looks at what it waits for. -/

namespace Sys2Proof.Machine

/-- The turn passes to the next hart (R327, DESIGN CHOICE, log 1). -/
def State.rotate (s : State) : State :=
  let done := { s.hart with limit := none }
  match s.parked with
  | [] => { s with hart := done }
  | h :: rest => { s with hart := h, parked := rest ++ [done] }

/-- The outcome of a turn, with the turn passed on. -/
def passTurn (o : Host.Outcome State Fault Refusal) : Host.Outcome State Fault Refusal :=
  match o with
  | .next s => .next s.rotate
  | .fault r => .fault r
  | .refused r => .refused r

/-- One instruction of an active hart: fetch, decode, run (R113 to R124). -/
noncomputable def issue (s : State) : Host.Outcome State Fault Refusal :=
  match fetch s with
  | .error (t, s') => .next (s'.takeTrap t)
  | .ok (w1, w2, s') =>
    match decode w1 w2 with
    | .illegal second =>
      let second := s.blamesSecond w1 w2 second
      exec (.illegalEncoding (BitVec.ofNat 32 (if second then w2 else w1)) second) s'
    | .instr i pair => exec i (s'.latch (BitVec.ofNat 32 (if pair then w2 else w1)) pair)

/-- What the hart whose turn it is does. -/
noncomputable def turn (s : State) : Host.Outcome State Fault Refusal :=
  let h := s.hart
  match s.turnKind with
  | .event => exec (.takeAsyncEvent h.place.hid) s
  | .exit => exec (.hartEnd h.place.hid) s
  | .instruction => issue s
  | .copy ch => exec (.copyElement h.place.hid ch) s
  | .accept => exec (.copyAccept h.place.hid) s
  | .recheck => exec (.monitorWake h.place.hid) s
  | .switch => exec (.switchOut h.place.hid) s
  | .nothing => .next s

/-- A chance, else a turn, of a machine with power. -/
noncomputable def act (s : State) : Host.Outcome State Fault Refusal :=
  match s.chances with
  | c :: rest => .next ({ s with chances := rest }.happen c)
  | [] => passTurn (turn s)

/-- One step. DESIGN CHOICE, log 59. DESIGN CHOICE, log 61. -/
noncomputable def step (s : State) : Host.Outcome State Fault Refusal :=
  match s.agenda with
  | e :: rest => if s.hears e then exec e { s with agenda := rest } else .next { s with agenda := rest }
  | [] => if s.power then act s else .fault .noPower

/-- A state whose very next step fetches and runs the instruction of `nbits` bits `w` (DESIGN CHOICE, log 3): the hart whose turn it is
is active at user level at 0x1_0000_0000, which partition 0's tables map to physical 0x1_8000, where the words stand. -/
def State.withFetchWord (s : State) (_nbits w : Nat) : State :=
  let h := s.hart
  let p := s.parts[0]
  { s with
    agenda := []
    chances := []
    power := true
    service := { s.service with ready := BitVec.allOnes 33 }
    parts := s.parts.set 0 { p with en := true, base := 0, size := Nat.max 1 p.size }
    hart := { h with
      phase := .active, waiting := none, limit := none, pend20 := none, pend21 := none, pend22 := none, pc := 0x100000000
      place := { h.place with part := 0 }
      priv := { h.priv with level := .user, ptbase := 0, asid := 0 } }
    mem := fetchImage w s.mem
    tlb := []
    repairing := none }

end Sys2Proof.Machine
end

