-- ==== Sys2Proof/Safety.lean ====
section
/-! DEFINITION. What counts as a sound state: the invariant that every step keeps; and the terms that the
claims use: what a core sees of memory, what an instruction leaves unchanged, what taking an exception leaves. -/

namespace Sys2Proof.Safety

open Sys2Proof.Machine

/-- READY [9:2] and [32]: the compute chiplets and the welt (R375), powered off in PS3 (R376). -/
def standbyOff : BitVec 33 := 0x1000003FC

/-- What soundness asks of the parts of a state that it is about. -/
structure SoundParts (mem spad : List Host.Cell) (service : Service) (accepted : Bool) : Prop where
  /-- Physical memory is in its canonical form. -/
  mem_wf   : Memory.wf mem = true
  /-- So are the scratchpads. -/
  spad_wf  : Memory.wf spad = true
  /-- READY [1] stays 0 until a signed configuration is accepted (R375, R379). -/
  signed   : service.ready.getLsbD 1 = true → accepted = true
  /-- In PS3 no compute chiplet is ready, nor the welt (R376). -/
  standby  : service.state = 3 → service.ready &&& standbyOff = 0

/-- A sound state. -/
def Sound (s : State) : Prop := SoundParts s.mem s.spad s.service s.accepted

end Sys2Proof.Safety

namespace Sys2Proof.Claim

open Sys2Proof.Machine

/-- Every byte of memory reads as before: physical memory and the scratchpads. -/
def sameMemory (s t : State) : Prop :=
  (∀ a, Memory.read t.mem a = Memory.read s.mem a) ∧ (∀ a, Memory.read t.spad a = Memory.read s.spad a)

/-- The instruction counts as completed and goes on to the next; of the rest, only what the two functions name may
differ: `t` is `s` with the fields that `f` copies from the hart of `t`. -/
def goesOn (s t : State) : Prop := t.hart.pc = s.hart.pc + s.len ∧ t.hart.instret = s.hart.instret + 1

/-- One x register is written: x0 stays 0, every other x register and everything else is as before. -/
def wroteX (s t : State) (d : XReg) (v : Word) : Prop :=
  t.x d = (if d = 0 then 0 else v) ∧ (∀ r, r ≠ d → t.x r = s.x r) ∧ goesOn s t ∧ sameMemory s t ∧
    t = { s with hart := { s.hart with x := t.hart.x, pc := t.hart.pc, instret := t.hart.instret } }

/-- One condition bit is written, and nothing else. -/
def wroteC (s t : State) (d : CBit) (v : Bool) : Prop :=
  t.c d = v ∧ (∀ r, r ≠ d → t.c r = s.c r) ∧ goesOn s t ∧ sameMemory s t ∧
    t = { s with hart := { s.hart with c := t.hart.c, pc := t.hart.pc, instret := t.hart.instret } }

/-- The rounding mode an instruction uses (R61): its static mode, else the one that FCSR.RM names. -/
def roundsBy (s : State) (rm : Option Rounding) (m : Rounding) : Prop :=
  rm = some m ∨ (rm = none ∧ roundingOf s.hart.fcsr.rm = some m)

/-- FCSR after a result: its flags and SAT ORed in (R48, R67), RM as before. -/
def raised (s t : State) (fl : Flags) (sat : Bool) : Prop :=
  t.hart.fcsr.rm = s.hart.fcsr.rm ∧ t.hart.fcsr.sat = (s.hart.fcsr.sat || sat) ∧
    t.hart.fcsr.flags = orFlags s.hart.fcsr.flags fl

/-- The byte k places behind a location. -/
def plus : Loc → Nat → Loc
  | .phys a, k => .phys (a + k)
  | .spad i, k => .spad (i + k)

/-- The line that a core reads a remote byte from: its own copy, its CAC's, else memory's (R80). -/
def lineAt (s : State) (core a : Nat) : RLine :=
  (s.copyOf core a).getD { holder := .core core, line := a / 128 * 128, data := Memory.readN s.mem (a / 128 * 128) 128 }

/-- The byte that a hart on a core sees at a location (R80, R95, R112): a scratchpad byte, a byte of physical memory, or for a remote
device the byte of the line that the core reads, under what the hart itself has written and not sent. -/
def seen (s : State) (core hid : Nat) : Loc → Byte
  | .spad i => Memory.read s.spad i
  | .phys a =>
    match targetOf a with
    | .remote _ _ => BitVec.ofNat 8 (s.view hid (lineAt s core a) >>> (8 * (a % 128)))
    | _ => Memory.read s.mem a

/-- The state in which an access finds a location: the hart's own bytes of a remote line have gone out where no cache near it holds a
copy (R95, DEDUCED, log 10); else the state itself. -/
def near (s : State) : Loc → State
  | .spad _ => s
  | .phys a =>
    match targetOf a with
    | .remote _ _ => if (s.copyOf s.hart.place.core a).isSome then s else s.settle s.hart.place.hid a
    | _ => s

/-- Every hart sees every byte as before, on every core. -/
def seenAlike (s t : State) : Prop := ∀ core hid l, seen t core hid l = seen s core hid l

/-- Byte k behind an access as a buffered access holds it (R91, R106): both are of the same physical bytes, or of the same bytes of the
window. -/
def buffered (r : StripRec) (l : Loc) (va k : Nat) : Option Byte :=
  match r.pin, l with
  | some p, .phys a =>
    if p ≤ a + k ∧ a + k < p + 2 ^ r.size then some (BitVec.ofNat 8 (r.data >>> (8 * (a + k - p)))) else none
  | none, .spad _ =>
    if r.addr ≤ va + k ∧ va + k < r.addr + 2 ^ r.size then some (BitVec.ofNat 8 (r.data >>> (8 * (va + k - r.addr)))) else none
  | _, _ => none

/-- Byte k behind an access with the open strip's own accesses laid over it, in their order (R106). -/
def ownByte (st : Option Strip) (l : Loc) (va k : Nat) (under : Byte) : Byte :=
  match st with
  | none => under
  | some st => st.recs.foldl (fun b r => match buffered r l va k with | some x => mergeHalf b x r.half | none => b) under

/-- The bytes at a location can be read: no uncorrectable data stands there, or in the copy that the core reads (R356, R80). -/
def readable (s : State) (l : Loc) (n : Nat) : Prop :=
  match l with
  | .spad i => poisoned s.spadPoison i n = false
  | .phys a =>
    match targetOf a, s.copyOf s.hart.place.core a with
    | .remote _ _, some k => poisoned k.poison a n = false
    | _, _ => poisoned s.poison a n = false

/-- The effective address of R147. -/
def address (s : State) (a : XReg) (o : Int) : Nat := (s.x a + BitVec.ofInt 64 o).toNat

/-- What taking a synchronous exception leaves (R299, R344), without a strip: from user level the kernel's registers are
written and AIE is cleared, from kernel and monitor level the monitor's; the hart runs at the handler's address; nothing
else changes. -/
def took (s t : State) (cause : Nat) (epc faddr finfo : Word) : Prop :=
  let p := s.hart.priv
  let q := t.hart.priv
  (p.level = .user → q.level = .kernel ∧ t.hart.pc = p.tvec ∧ q.epc = epc ∧ q.cause = BitVec.ofNat 64 cause ∧
    q.faddr = faddr ∧ q.finfo = finfo ∧ q.ppl = 0 ∧ q.aie = false ∧
    q = { p with level := q.level, epc := q.epc, cause := q.cause, faddr := q.faddr, finfo := q.finfo
                 ppl := q.ppl, aie := q.aie }) ∧
  (p.level ≠ .user → q.level = .monitor ∧ t.hart.pc = p.monvec ∧ q.monpc = epc ∧ q.moncause = BitVec.ofNat 64 cause ∧
    q.monaddr = faddr ∧ q.moninfo = finfo ∧ q.monppl = (if p.level = .kernel then 1 else 2) ∧
    q = { p with level := q.level, monpc := q.monpc, moncause := q.moncause, monaddr := q.monaddr
                 moninfo := q.moninfo, monppl := q.monppl }) ∧
  t.hart.phase = .active ∧ t.hart.waiting = none ∧
  t = { s with hart := { s.hart with pc := t.hart.pc, phase := t.hart.phase, waiting := t.hart.waiting, priv := q } }

/-- The causes of R266. -/
def fatal (c : Nat) : Prop :=
  c = 0x01 ∨ c = 0x02 ∨ c = 0x03 ∨ c = 0x07 ∨ c = 0x08 ∨ c = 0x09 ∨ c = 0x0A ∨ c = 0x0B ∨ c = 0x0C ∨ c = 0x0D ∨
    c = 0x0E ∨ c = 0x12

/-! ### Atomics, ordered accesses, fences, waits (13 R254 to R260) -/

/-- No line that a release of the hart treats holds a byte that has still to go out, and none was lost unreported (R80, R371): a
release at scope sys finds nothing to do. -/
def clean (s : State) : Prop :=
  s.hart.lostBytes = none ∧ ∀ k ∈ s.rcache, k.inOrderOf s.hart.place.core s.hart.place.hid = true → k.dirty = []

/-- No copy of another device's memory is left in the caches of a hart's core and its CAC (R80, R99). -/
def noCopies (s t : State) : Prop := ∀ k ∈ t.rcache, k.holder ≠ .core s.hart.place.core ∧ k.holder ≠ cacOf s.hart.place.core

/-- No uncorrectable data stands at a location (R356). -/
def sane (s : State) (l : Loc) (n : Nat) : Prop :=
  match l with
  | .phys a => poisoned s.poison a n = false
  | .spad i => poisoned s.spadPoison i n = false

/-- The bytes of a size bit. -/
def size (z : Bool) : Nat := if z then 8 else 4

/-- A pattern of n bytes as a signed integer. -/
def signed (n v : Nat) : Int := (BitVec.ofNat (8 * n) v).toInt

/-- The atomics of R256: destination, address register, bytes, whether host memory is allowed (R255), and the new pattern
of the old one, none where nothing is written. -/
def amoForm (s : State) : Instr → Option (XReg × XReg × Nat × Bool × (Nat → Option Nat))
  | .amoAdd d a b _ _ z => some (d, a, size z, true, fun old => some ((old + (s.x b).toNat) % 2 ^ (8 * size z)))
  | .amoAnd d a b _ _ z => some (d, a, size z, false, fun old => some (old &&& (s.x b).toNat % 2 ^ (8 * size z)))
  | .amoOr d a b _ _ z => some (d, a, size z, false, fun old => some (old ||| (s.x b).toNat % 2 ^ (8 * size z)))
  | .amoXor d a b _ _ z => some (d, a, size z, false, fun old => some (old ^^^ (s.x b).toNat % 2 ^ (8 * size z)))
  | .amoMin d a b _ _ z => some (d, a, size z, false, fun old =>
      let v := (s.x b).toNat % 2 ^ (8 * size z)
      some (if signed (size z) old ≤ signed (size z) v then old else v))
  | .amoMax d a b _ _ z => some (d, a, size z, false, fun old =>
      let v := (s.x b).toNat % 2 ^ (8 * size z)
      some (if signed (size z) old ≤ signed (size z) v then v else old))
  | .amoMinu d a b _ _ z => some (d, a, size z, false, fun old => some (min old ((s.x b).toNat % 2 ^ (8 * size z))))
  | .amoMaxu d a b _ _ z => some (d, a, size z, false, fun old => some (max old ((s.x b).toNat % 2 ^ (8 * size z))))
  | .amoSwap d a b _ _ z => some (d, a, size z, true, fun _ => some ((s.x b).toNat % 2 ^ (8 * size z)))
  | .amoCas d a b _ _ z => some (d, a, size z, true, fun old =>
      if old = (s.x d).toNat % 2 ^ (8 * size z) then some ((s.x b).toNat % 2 ^ (8 * size z)) else none)
  | _ => none

/-- The register after one. -/
def after (r : XReg) : XReg := r + 1

/-- What an atomic does to memory: n bytes at a location become a pattern, every other byte is as before. -/
def stored (u t : State) (l : Loc) (n v : Nat) : Prop :=
  t.readLoc l n = v ∧
    (∀ b, (∀ k, k < n → Loc.phys b ≠ plus l k) → Memory.read t.mem b = Memory.read u.mem b) ∧
    (∀ b, (∀ k, k < n → Loc.spad b ≠ plus l k) → Memory.read t.spad b = Memory.read u.spad b)

/-- An atomic on n bytes at an address can be performed: its checks pass, the location is no live barrier word (R252), no
host memory unless allowed (R255), no uncorrectable data; no strip is open (R266). -/
def atomicOk (s : State) (va n : Nat) (host : Bool) (l : Loc) : Prop :=
  s.strip? = none ∧ s.drain.locate .atomic va n n false = .ok l ∧ s.drain.liveWord l = false ∧
    (∀ a, l = .phys a → targetOf a = .host → host = true) ∧ sane s.drain l n ∧ clean s.drain

/-- What a load for an acquire can read (R99, R256): below scope sys as an ordinary load, at scope sys at the coherence
point, once the hart's own bytes are there. -/
def acquirable (s : State) (sc : Scope) (l : Loc) (n : Nat) : Prop :=
  if sc = .sys then sane s l n ∧ clean s else readable s l n

/-- The state in which such a load finds a location. -/
def nearFor (s : State) (sc : Scope) (l : Loc) : State := if sc = .sys then s else near s l

/-- The byte that such a load reads: at scope sys at the coherence point. -/
def acquired (s : State) (sc : Scope) (l : Loc) (k : Nat) : Byte :=
  if sc = .sys then (match l with | .phys a => Memory.read s.mem (a + k) | .spad i => Memory.read s.spad (i + k))
  else seen s s.hart.place.core s.hart.place.hid (plus l k)

/-- A wait of R260: whether it is satisfied by a value, its destination, address and value registers, scope and bytes. -/
def waitForm : Instr → Option (Bool × XReg × XReg × XReg × Scope × Nat)
  | .waitge d a b sc z => some (true, d, a, b, sc, size z)
  | .waiteq d a b sc z => some (false, d, a, b, sc, size z)
  | _ => none

/-! ### Vector instructions: what an instruction needs (08 R164, 09 R181) -/

/-- The operands of a vector instruction: source and destination groups, masks read, whether a mask is read or written and
how many elements it must hold, the tag conditions that are tag-faults (R181). -/
structure Operands where
  srcs     : List Grp
  dsts     : List Grp
  masks    : List MNum
  usesMask : Bool
  len      : Nat
  faults   : List Bool

/-- The instruction can be performed: VCFG.TAG is set where it names a group (R383), every base is a multiple of its group, which has at most 8 registers,
no tag condition holds, a mask holds the elements, no destination is bound to a stream; the strips of the bound sources fit
their groups and are delivered, which leaves the state `u` (`s` itself where no source is bound); no storage that is read
holds uncorrectable data. -/
def ready (s u : State) (o : Operands) : Prop :=
  (o.srcs ++ o.dsts ≠ [] → s.hart.vcfg.tag ≠ .none) ∧ (∀ g ∈ o.srcs ++ o.dsts, g.n ≤ 8 ∧ g.base % g.n = 0) ∧ (∀ f ∈ o.faults, f = false) ∧
    (o.usesMask = true → o.len ≤ 1024 * s.hart.ge) ∧ s.boundBy o.dsts = [] ∧
    (∀ k ∈ s.boundBy o.srcs, s.hart.vl * tagBits s.hart.streams[k.val].tag ≤ 2 ^ s.hart.streams[k.val].lgrp * (8192 * s.hart.ge)) ∧
    s.deliver (s.boundBy o.srcs) = .ok u ∧
    (∀ g ∈ o.srcs, ∀ r : VNum, g.base ≤ r.val → r.val < g.base + g.n → u.hart.v[r.val].poison = false) ∧
    (∀ k ∈ o.masks, u.hart.m[k.val].poison = false)

/-- The streams bound to source groups move on by VL elements (R176). -/
def movedOn (s : State) (srcs : List Grp) (streams : Vector Stream 8) : Prop :=
  ∀ k : SNum, (k ∉ s.boundBy srcs → streams[k.val] = s.hart.streams[k.val]) ∧
    (k ∈ s.boundBy srcs → streams[k.val].pos = s.hart.streams[k.val].pos + BitVec.ofNat 64 s.hart.vl ∧
      streams[k.val] = { s.hart.streams[k.val] with pos := streams[k.val].pos, strips := streams[k.val].strips })

/-- Element i of a group, as its storage holds it. -/
def element (s : State) (g : Grp) (i : Nat) : Nat := elemAt (s.bitsOf g) g.bits i

/-- Element i lies within a group's registers. -/
def within (s : State) (g : Grp) (i : Nat) : Prop := (i + 1) * g.bits ≤ g.n * (8192 * s.hart.ge)

/-- The elements of a list are written to a group, which takes a tag; every other element of it, and every other register,
is as before. -/
def wroteElements (u t : State) (g : Grp) (tag : Tag) (acts : List Nat) (value : Nat → Nat) : Prop :=
  (∀ i ∈ acts, within u g i → element t g i = value i % 2 ^ g.bits) ∧
    (∀ i, i ∉ acts → within u g i → element t g i = element u g i) ∧
    ∀ r : VNum, if g.base ≤ r.val ∧ r.val < g.base + g.n then t.hart.v[r.val].tag = tag else t.hart.v[r.val] = u.hart.v[r.val]

/-- A vector instruction has completed (R12, R16, R180): VSI is 0, the bound sources have moved on; `t` differs from `u` in
these and in the vector registers, masks, x registers, accumulators and FCSR that the statement names. -/
def vectorDone (s u t : State) (srcs : List Grp) : Prop :=
  t.hart.vsi = 0 ∧ goesOn s t ∧ movedOn s srcs t.hart.streams ∧ sameMemory u t ∧
    t = { u with hart := { u.hart with
      v := t.hart.v, m := t.hart.m, x := t.hart.x, e := t.hart.e, fcsr := t.hart.fcsr, vsi := t.hart.vsi
      streams := t.hart.streams, pc := t.hart.pc, instret := t.hart.instret } }

/-- An instruction that writes elements of one group: its operands, the group, the tag it takes, the elements from VSI on
that are written (R162), and the value of each with its flags. -/
structure Elementwise extends Operands where
  dst   : Grp
  tag   : Tag
  acts  : List Nat
  value : Nat → FRes

/-- The elements from VSI to VL − 1 that a governing mask leaves active; m0 leaves all (R116, R162). -/
def activeIn (u : State) (k : MNum) : List Nat :=
  (List.range u.hart.vl).filter fun i => decide (u.hart.vsi ≤ i) && (k.val == 0 || u.hart.m[k.val].bits.testBit i)

/-- Bit i of a mask. -/
def maskBit (u : State) (k : MNum) (i : Nat) : Bool := u.hart.m[k.val].bits.testBit i

/-- The OR of the flags of some elements, and of their SAT. -/
def allFlags (l : List Nat) (f : Nat → FRes) : Flags := l.foldr (fun i a => orFlags (f i).flags a) {}
/-- The OR of SAT. -/
def anySat (l : List Nat) (f : Nat → FRes) : Bool := l.any fun i => (f i).sat

/-- The vector register's tag, and the group of a register whose elements have a tag. -/
def tagOf (s : State) (r : VNum) : Tag := s.hart.v[r.val].tag
/-- R179: g × wt ÷ w registers, one where that is below 1. -/
def groupOf (s : State) (r : VNum) (t : Tag) : Grp :=
  ⟨r.val, max 1 (2 ^ s.hart.vcfg.lgrp * tagBits t / tagBits s.hart.vcfg.tag), tagBits t⟩

/-- No element of this tag (R36, R57). -/
def noElements (t : Tag) : Bool := t == .none || t == .sc8

/-- VCFG.TAG is sc8, which R57 keeps to a few instructions. -/
def noScale (s : State) : Bool := s.hart.vcfg.tag == .sc8

/-- Two widths differ by more than four times (R66). -/
def farApart (a b : Nat) : Bool := decide (4 * a < b) || decide (4 * b < a)

/-- The masks that a governing mask reads. -/
def governed (k : MNum) : List MNum := if k.val = 0 then [] else [k]

/-- A form with two vector sources, promoted (R65, R184). -/
def binary (s u : State) (m : Rounding) (d a b : VNum) (mk : MNum) (floats : Bool) (op : Tag → Nat → Nat → FRes) : Elementwise :=
  let ta := tagOf s a
  let tb := tagOf s b
  let t := (promote ta tb).getD .none
  let ga := groupOf s a ta
  let gb := groupOf s b tb
  { srcs := [ga, gb], dsts := [groupOf s d t], masks := governed mk, usesMask := mk.val != 0, len := s.hart.vl
    faults := [noScale s, noElements ta, noElements tb, (promote ta tb).isNone, tagFloat t && !floats]
    dst := groupOf s d t, tag := t, acts := activeIn u mk
    value := fun i => mixedOp ta tb t m (op t) (element u ga i) (element u gb i) }

/-- A form with a vector and an x register, read with the vector's tag (R184). -/
def scalarForm (s u : State) (d a : VNum) (x : XReg) (mk : MNum) (floats : Bool) (op : Tag → Nat → Nat → FRes) : Elementwise :=
  let t := tagOf s a
  let ga := groupOf s a t
  { srcs := [ga], dsts := [groupOf s d t], masks := governed mk, usesMask := mk.val != 0, len := s.hart.vl
    faults := [noScale s, noElements t, tagFloat t && !floats]
    dst := groupOf s d t, tag := t, acts := activeIn u mk
    value := fun i => op t (element u ga i) ((s.x x).toNat % 2 ^ tagBits t) }

/-- a × b + d (R185): vd is read in its own tag, and takes the promoted one. -/
def fused (s u : State) (m : Rounding) (d a b : VNum) (mk : MNum) (sat negP negD : Bool) : Elementwise :=
  let ta := tagOf s a
  let tb := tagOf s b
  let td := tagOf s d
  let p := (promote ta tb).bind fun t => promote t td
  let t := p.getD .none
  let ga := groupOf s a ta
  let gb := groupOf s b tb
  let g0 := groupOf s d td
  { srcs := [ga, gb, g0], dsts := [groupOf s d t], masks := governed mk, usesMask := mk.val != 0, len := s.hart.vl
    faults := [noScale s, noElements ta, noElements tb, noElements td, p.isNone, farApart (tagBits ta) (tagBits t),
      farApart (tagBits tb) (tagBits t), farApart (tagBits td) (tagBits t)]
    dst := groupOf s d t, tag := t, acts := activeIn u mk
    value := fun i =>
      let z := convElem td t m (element u g0 i)
      let r := mixedOp ta tb t m (fun x y => fusedOp t m sat negP negD x y z.bits) (element u ga i) (element u gb i)
      ⟨r.bits, orFlags r.flags z.flags, r.sat⟩ }

/-- The arithmetic of R184 and R185, with its static rounding mode. -/
def arithmetic (s u : State) (m : Rounding) : Instr → Option (Option Rounding × Elementwise)
  | .vadd d a b _ _ k rm sat => some (rm, binary s u m d a b k true fun t => arithOp .add t m sat)
  | .vsub d a b _ _ k rm sat => some (rm, binary s u m d a b k true fun t => arithOp .sub t m sat)
  | .vmul d a b _ _ k rm sat => some (rm, binary s u m d a b k true fun t => arithOp .mul t m sat)
  | .vdiv d a b _ _ k rm => some (rm, binary s u m d a b k true fun t => arithOp .div t m false)
  | .vrem d a b _ _ k rm => some (rm, binary s u m d a b k false fun t => arithOp .rem t m false)
  | .vmin d a b _ _ k rm => some (rm, binary s u m d a b k true fun t => arithOp .min t m false)
  | .vmax d a b _ _ k rm => some (rm, binary s u m d a b k true fun t => arithOp .max t m false)
  | .vand d a b _ _ k rm => some (rm, binary s u m d a b k false fun t => arithOp .and t m false)
  | .vor d a b _ _ k rm => some (rm, binary s u m d a b k false fun t => arithOp .or t m false)
  | .vxor d a b _ _ k rm => some (rm, binary s u m d a b k false fun t => arithOp .xor t m false)
  | .vsll d a b _ _ k rm => some (rm, binary s u m d a b k false fun t => arithOp .sll t m false)
  | .vsrl d a b _ _ k rm => some (rm, binary s u m d a b k false fun t => arithOp .srl t m false)
  | .vsra d a b _ _ k rm => some (rm, binary s u m d a b k false fun t => arithOp .sra t m false)
  | .vmulh d a b _ _ k rm => some (rm, binary s u m d a b k false fun t => arithOp .mulh t m false)
  | .vaddX d a x _ k rm sat => some (rm, scalarForm s u d a x k true fun t => arithOp .add t m sat)
  | .vsubX d a x _ k rm sat => some (rm, scalarForm s u d a x k true fun t => arithOp .sub t m sat)
  | .vmulX d a x _ k rm sat => some (rm, scalarForm s u d a x k true fun t => arithOp .mul t m sat)
  | .vdivX d a x _ k rm => some (rm, scalarForm s u d a x k true fun t => arithOp .div t m false)
  | .vremX d a x _ k rm => some (rm, scalarForm s u d a x k false fun t => arithOp .rem t m false)
  | .vminX d a x _ k rm => some (rm, scalarForm s u d a x k true fun t => arithOp .min t m false)
  | .vmaxX d a x _ k rm => some (rm, scalarForm s u d a x k true fun t => arithOp .max t m false)
  | .vandX d a x _ k rm => some (rm, scalarForm s u d a x k false fun t => arithOp .and t m false)
  | .vorX d a x _ k rm => some (rm, scalarForm s u d a x k false fun t => arithOp .or t m false)
  | .vxorX d a x _ k rm => some (rm, scalarForm s u d a x k false fun t => arithOp .xor t m false)
  | .vsllX d a x _ k rm => some (rm, scalarForm s u d a x k false fun t => arithOp .sll t m false)
  | .vsrlX d a x _ k rm => some (rm, scalarForm s u d a x k false fun t => arithOp .srl t m false)
  | .vsraX d a x _ k rm => some (rm, scalarForm s u d a x k false fun t => arithOp .sra t m false)
  | .vmulhX d a x _ k rm => some (rm, scalarForm s u d a x k false fun t => arithOp .mulh t m false)
  | .vfma d a b _ _ k rm sat => some (rm, fused s u m d a b k sat false false)
  | .vfms d a b _ _ k rm sat => some (rm, fused s u m d a b k sat false true)
  | .vfnma d a b _ _ k rm sat => some (rm, fused s u m d a b k sat true false)
  | .vfnms d a b _ _ k rm sat => some (rm, fused s u m d a b k sat true true)
  | _ => none

/-- A form with one vector source (R192 to R194). -/
def unary (s u : State) (d a : VNum) (mk : MNum) (t : Tag) (bad : Bool) (op : Nat → FRes) : Elementwise :=
  let ta := tagOf s a
  let ga := groupOf s a ta
  { srcs := [ga], dsts := [groupOf s d t], masks := governed mk, usesMask := mk.val != 0, len := s.hart.vl
    faults := [noScale s, noElements ta, bad, farApart (tagBits ta) (tagBits t)]
    dst := groupOf s d t, tag := t, acts := activeIn u mk, value := fun i => op (element u ga i) }

/-- The operation of a floating tag. -/
def inFormat (t : Tag) (op : Fmt → FRes) : FRes := match tagFmt t with | some f => op f | none => ⟨0, {}, false⟩

/-- The tags of the special functions (R193). -/
def special (t : Tag) : Bool := t == .bf16 || t == .fp16 || t == .fp32 || t == .fp64

/-- The conversions, unary operations and bit streams of R192 to R195. -/
def unaries (s u : State) (m : Rounding) : Instr → Option (Option (Option Rounding) × Elementwise)
  | .vcvt d a t _ k rm sat => some (some rm, unary s u d a k t false fun x => (convertTag (tagOf s a) t m sat x).getD ⟨0, {}, false⟩)
  | .vneg d a _ k rm sat => some (some rm, unary s u d a k (tagOf s a) false fun x =>
      if tagFloat (tagOf s a) then ⟨x ^^^ 2 ^ (tagBits (tagOf s a) - 1), {}, false⟩
      else intToInt (tagOf s a) sat (-intValue (tagOf s a) x))
  | .vabs d a _ k rm sat => some (some rm, unary s u d a k (tagOf s a) false fun x =>
      if tagFloat (tagOf s a) then ⟨x % 2 ^ (tagBits (tagOf s a) - 1), {}, false⟩
      else intToInt (tagOf s a) sat (intValue (tagOf s a) x).natAbs)
  | .vsqrt d a _ k rm => some (some rm, unary s u d a k (tagOf s a) (!tagFloat (tagOf s a) || tagOf s a == .fp4) fun x =>
      inFormat (tagOf s a) fun f => f.sqrt m (f.value x))
  | .vexp2 d a _ k rm => some (some rm, unary s u d a k (tagOf s a) (!special (tagOf s a)) fun x =>
      inFormat (tagOf s a) fun f => specialFn (tagOf s a) f m .exp2 x)
  | .vlog2 d a _ k rm => some (some rm, unary s u d a k (tagOf s a) (!special (tagOf s a)) fun x =>
      inFormat (tagOf s a) fun f => specialFn (tagOf s a) f m .log2 x)
  | .vrcp d a _ k rm => some (some rm, unary s u d a k (tagOf s a) (!special (tagOf s a)) fun x =>
      inFormat (tagOf s a) fun f => specialFn (tagOf s a) f m .rcp x)
  | .vrsqrt d a _ k rm => some (some rm, unary s u d a k (tagOf s a) (!special (tagOf s a)) fun x =>
      inFormat (tagOf s a) fun f => specialFn (tagOf s a) f m .rsqrt x)
  | .vbext d a b _ _ k len =>
    let t := s.hart.vcfg.tag
    let tb := tagOf s b
    let ga := groupOf s a t
    let gb := groupOf s b tb
    let n := match len with | some l => l.val + 1 | none => tagBits t
    some (none,
      { srcs := [ga, gb], dsts := [groupOf s d t], masks := governed k, usesMask := k.val != 0, len := s.hart.vl
        faults := [noScale s, noElements tb, tagOf s a == .sc8, !tagUnsigned t, !tagInt tb, farApart (tagBits tb) (tagBits t), decide (tagBits t < n)]
        dst := groupOf s d t, tag := t, acts := activeIn u k
        value := fun i =>
          let off := (BitVec.ofInt 64 (if tagSigned tb then (BitVec.ofNat (tagBits tb) (element u gb i)).toInt else element u gb i)).toNat
          ⟨(u.bitsOf ga >>> off) % 2 ^ n, {}, false⟩ })
  | .vfsh d a b _ _ k =>
    let ta := tagOf s a
    let tb := tagOf s b
    let t := (promote ta tb).getD .none
    let ga := groupOf s a ta
    let gb := groupOf s b tb
    let gd := groupOf s d (tagOf s d)
    some (none,
      { srcs := [ga, gb, gd], dsts := [gd], masks := governed k, usesMask := k.val != 0, len := s.hart.vl
        faults := [noScale s, noElements ta, noElements tb, noElements (tagOf s d), (promote ta tb).isNone, !tagInt t, tagOf s d != t]
        dst := gd, tag := t, acts := activeIn u k
        value := fun i =>
          let hi := (convElem ta t .rne (element u ga i)).bits
          let lo := (convElem tb t .rne (element u gb i)).bits
          ⟨(hi * 2 ^ tagBits t + lo) / 2 ^ (element u gd i % tagBits t) % 2 ^ tagBits t, {}, false⟩ })
  | _ => none

/-- What an element-wise instruction does once it can be performed (R12, R67, R162, R180): it completes; with VSI below VL the
active elements take their values, the group its tag, and FCSR the flags and SAT of all of them; with VSI at VL or above
nothing is written and no tag changes. -/
def performs (s u : State) (i : Instr) (e : Claim.Elementwise) : Prop :=
  ∃ t, exec i s = .next t ∧ Claim.vectorDone s u t e.srcs ∧ t.hart.x = u.hart.x ∧ t.hart.m = u.hart.m ∧ t.hart.e = u.hart.e ∧
    (s.hart.vsi < s.hart.vl → Claim.wroteElements u t e.dst e.tag e.acts (fun i => (e.value i).bits) ∧
      Claim.raised u t (Claim.allFlags e.acts e.value) (Claim.anySat e.acts e.value)) ∧
    (s.hart.vl ≤ s.hart.vsi → t.hart.v = u.hart.v ∧ t.hart.fcsr = u.hart.fcsr)

end Sys2Proof.Claim
end

