-- ==== Sys2Proof/Certificates/Slice0/Obligations.lean ====
section
/-! DEFINITION. The statements for the provers, with the terms of the spec that they are written in. A statement with
several parts is their conjunction; each part stands under a name of its own beside the terms that it uses. -/

open Sys2Proof Sys2Proof.Machine

namespace Sys2Proof.Claim

open Sys2Proof.Machine

/-! ### Scalar results (07 R139 to R152) -/

/-- The shift amount of a register: its bits [5:0]. -/
def amount (s : State) (b : XReg) : Nat := (s.x b).toNat % 64

/-- The tables of R139, R140 and R141: the register written and its value. -/
def alu (s : State) : Instr → Option (XReg × Word)
  | .add d a b => some (d, s.x a + s.x b)
  | .sub d a b => some (d, s.x a - s.x b)
  | .and d a b => some (d, s.x a &&& s.x b)
  | .or d a b => some (d, s.x a ||| s.x b)
  | .xor d a b => some (d, s.x a ^^^ s.x b)
  | .andn d a b => some (d, s.x a &&& ~~~s.x b)
  | .sll d a b => some (d, s.x a <<< amount s b)
  | .srl d a b => some (d, s.x a >>> amount s b)
  | .sra d a b => some (d, (s.x a).sshiftRight (amount s b))
  | .rol d a b => some (d, (s.x a).rotateLeft (amount s b))
  | .ror d a b => some (d, (s.x a).rotateRight (amount s b))
  | .min d a b => some (d, if (s.x a).toInt ≤ (s.x b).toInt then s.x a else s.x b)
  | .max d a b => some (d, if (s.x a).toInt ≤ (s.x b).toInt then s.x b else s.x a)
  | .minu d a b => some (d, if (s.x a).toNat ≤ (s.x b).toNat then s.x a else s.x b)
  | .maxu d a b => some (d, if (s.x a).toNat ≤ (s.x b).toNat then s.x b else s.x a)
  | .csel d a b n => some (d, if s.c n then s.x a else s.x b)
  | .addi d a i => some (d, s.x a + BitVec.ofInt 64 i)
  | .andi d a i => some (d, s.x a &&& BitVec.ofInt 64 i)
  | .ori d a i => some (d, s.x a ||| BitVec.ofInt 64 i)
  | .xori d a i => some (d, s.x a ^^^ BitVec.ofInt 64 i)
  | .slli d a k => some (d, s.x a <<< k.val)
  | .srli d a k => some (d, s.x a >>> k.val)
  | .srai d a k => some (d, (s.x a).sshiftRight k.val)
  | .rori d a k => some (d, (s.x a).rotateRight k.val)
  | .lui d i => some (d, BitVec.ofInt 64 (i * 4096))
  | _ => none

/-- The table of R143: the condition bit written and its value. -/
def condition (s : State) : Instr → Option (CBit × Bool)
  | .cmpiEq d a i => some (d, decide (s.x a = BitVec.ofInt 64 i))
  | .cmpiLt d a i => some (d, decide ((s.x a).toInt < (BitVec.ofInt 64 i).toInt))
  | .cmpiLtu d a i => some (d, decide ((s.x a).toNat < (BitVec.ofInt 64 i).toNat))
  | .cmpEq d a b => some (d, decide (s.x a = s.x b))
  | .cmpLt d a b => some (d, decide ((s.x a).toInt < (s.x b).toInt))
  | .cmpLtu d a b => some (d, decide ((s.x a).toNat < (s.x b).toNat))
  | .cmpTst d a b => some (d, decide (s.x a &&& s.x b ≠ 0))
  | .cand d p q => some (d, s.c p && s.c q)
  | .cor d p q => some (d, s.c p || s.c q)
  | .cxor d p q => some (d, s.c p ^^ s.c q)
  | .candn d p q => some (d, s.c p && !s.c q)
  | _ => none

/-- The multiplications and divisions of R150: destination, operands, and what the result `v` satisfies. -/
def muldiv (s : State) : Instr → Option (XReg × (Word → Prop))
  | .mul d a b => some (d, fun v => v.toNat = (s.x a).toNat * (s.x b).toNat % 2 ^ 64)
  | .mulhiSs d a b => some (d, fun v => v.toInt * 2 ^ 64 + (s.x a * s.x b).toNat = (s.x a).toInt * (s.x b).toInt)
  | .mulhiUu d a b => some (d, fun v => v.toNat * 2 ^ 64 + (s.x a * s.x b).toNat = (s.x a).toNat * (s.x b).toNat)
  | .mulhiSu d a b => some (d, fun v => v.toInt * 2 ^ 64 + (s.x a * s.x b).toNat = (s.x a).toInt * (s.x b).toNat)
  | .div d a b => some (d, fun q =>
      if s.x b = 0 then q = (if (s.x a).toInt < 0 then 0x8000000000000000 else 0x7FFFFFFFFFFFFFFF)
      else if (s.x a).toInt = -2 ^ 63 ∧ (s.x b).toInt = -1 then q = 0x7FFFFFFFFFFFFFFF
      else ∃ r : Int, (s.x a).toInt = q.toInt * (s.x b).toInt + r ∧ r.natAbs < (s.x b).toInt.natAbs ∧
        (0 ≤ (s.x a).toInt → 0 ≤ r) ∧ ((s.x a).toInt < 0 → r ≤ 0))
  | .divu d a b => some (d, fun q =>
      if s.x b = 0 then q = 0xFFFFFFFFFFFFFFFF
      else ∃ r : Nat, (s.x a).toNat = q.toNat * (s.x b).toNat + r ∧ r < (s.x b).toNat)
  | .rem d a b => some (d, fun r =>
      if s.x b = 0 then r = s.x a
      else (∃ q : Int, (s.x a).toInt = q * (s.x b).toInt + r.toInt) ∧ r.toInt.natAbs < (s.x b).toInt.natAbs ∧
        (0 ≤ (s.x a).toInt → 0 ≤ r.toInt) ∧ ((s.x a).toInt < 0 → r.toInt ≤ 0))
  | .remu d a b => some (d, fun r =>
      if s.x b = 0 then r = s.x a
      else (∃ q : Nat, (s.x a).toNat = q * (s.x b).toNat + r.toNat) ∧ r.toNat < (s.x b).toNat)
  | _ => none

/-- Bits of the result are given one by one. -/
def bitwise (v : Word) (f : Nat → Bool) : Prop := ∀ k, k < 64 → v.getLsbD k = f k

/-- Bit k of x[hi] × 2^64 + x[lo] shifted right by sh. -/
def funnelBit (hi lo : Word) (sh k : Nat) : Bool := if k + sh < 64 then lo.getLsbD (k + sh) else hi.getLsbD (k + sh - 64)

/-- R152: destination and what the result `v` satisfies. A field of length l.val + 1 begins at bit p. -/
def bitField (s : State) : Instr → Option (XReg × (Word → Prop))
  | .clz d a => some (d, fun v => v.toNat ≤ 64 ∧ (∀ k, 64 - v.toNat ≤ k → (s.x a).getLsbD k = false) ∧
      (v.toNat < 64 → (s.x a).getLsbD (63 - v.toNat) = true))
  | .ctz d a => some (d, fun v => v.toNat ≤ 64 ∧ (∀ k, k < v.toNat → (s.x a).getLsbD k = false) ∧
      (v.toNat < 64 → (s.x a).getLsbD v.toNat = true))
  | .popc d a => some (d, fun v => v.toNat = ((List.range 64).filter (s.x a).getLsbD).length)
  | .bswap d a => some (d, fun v => ∀ i, i < 8 → v.extractLsb' (8 * i) 8 = (s.x a).extractLsb' (8 * (7 - i)) 8)
  | .bfx d a l p => some (d, fun v => bitwise v fun k => (s.x a).getLsbD (p.val + min k l.val))
  | .bfxu d a l p => some (d, fun v => bitwise v fun k => decide (k ≤ l.val) && (s.x a).getLsbD (p.val + k))
  | .bfi d a l p => some (d, fun v => bitwise v fun k =>
      if p.val ≤ k ∧ k ≤ p.val + l.val then (s.x a).getLsbD (k - p.val) else (s.x d).getLsbD k)
  | .fsh d a k b => some (d, fun v => bitwise v (funnelBit (s.x a) (s.x b) k.val))
  | .fshv d a c b => some (d, fun v => bitwise v (funnelBit (s.x a) (s.x b) (amount s c)))
  | .bfxuv d a l b => some (d, fun v => bitwise v fun k => decide (k ≤ l.val) && (s.x a).getLsbD (amount s b + k))
  | _ => none

/-- R144 to R146: the link register with its value, where there is one, and the target, where the instruction completes. -/
def jump (s : State) : Instr → Option (XReg × Word)
  | .bc c _ o => some (0, if s.c c then s.hart.pc + BitVec.ofInt 64 (o * 4) else s.hart.pc + s.len)
  | .bnc c _ o => some (0, if s.c c then s.hart.pc + s.len else s.hart.pc + BitVec.ofInt 64 (o * 4))
  | .jal d o => some (d, s.hart.pc + BitVec.ofInt 64 (o * 4))
  | .jalr d a i => if (s.x a + BitVec.ofInt 64 i).toNat % 4 = 0 then some (d, s.x a + BitVec.ofInt 64 i) else none
  | _ => none

/-- R139, R140, R141: every register and immediate operation of majors 0x01 to 0x03 completes with the value of its table
in x[d]; a write to x0 is discarded (R138), and nothing else changes. -/
def ScalarArithmetic : Prop :=
  ∀ (s : State) (i : Instr) (d : XReg) (v : Word), Claim.alu s i = some (d, v) →
    ∃ t, exec i s = .next t ∧ Claim.wroteX s t d v

/-- R143: every compare and condition operation completes with the value of the table in its condition bit. -/
def ScalarConditions : Prop :=
  ∀ (s : State) (i : Instr) (d : CBit) (v : Bool), Claim.condition s i = some (d, v) →
    ∃ t, exec i s = .next t ∧ Claim.wroteC s t d v

/-- R150: products, quotients and remainders, with the boundary cases; nothing traps. -/
def MultiplyDivide : Prop :=
  ∀ (s : State) (i : Instr) (d : XReg) (P : Word → Prop), Claim.muldiv s i = some (d, P) →
    ∃ t v, exec i s = .next t ∧ P v ∧ Claim.wroteX s t d v

end Sys2Proof.Claim

/-- R152: counts, byte swap, bit fields and funnel shifts, bit by bit. -/
def Obligations.BitFields : Prop :=
  ∀ (s : State) (i : Instr) (d : XReg) (P : Word → Prop), i.wf = true → Claim.bitField s i = some (d, P) →
    ∃ t v, exec i s = .next t ∧ P v ∧ Claim.wroteX s t d v

/-- R144, R145, R146: branches and jumps; the link is the address behind the instruction (x0 for a branch, which links
nothing); nothing else changes. A `jalr` whose target is no multiple of 4 takes a misaligned trap with the target in FADDR, and
neither the link nor anything else is written (R114). -/
def Obligations.BranchesAndJumps : Prop :=
  (∀ (s : State) (i : Instr) (d : XReg) (target : Word), Claim.jump s i = some (d, target) →
    ∃ t, exec i s = .next t ∧ t.hart.pc = target ∧ t.hart.instret = s.hart.instret + 1 ∧
      t.x d = (if d = 0 then 0 else s.hart.pc + s.len) ∧ (∀ r, r ≠ d → t.x r = s.x r) ∧ Claim.sameMemory s t ∧
      t = { s with hart := { s.hart with x := t.hart.x, pc := t.hart.pc, instret := t.hart.instret } }) ∧
  (∀ (s : State) (d a : XReg) (o : Int), (s.x a + BitVec.ofInt 64 o).toNat % 4 ≠ 0 →
    exec (.jalr d a o) s = .next (s.takeTrap ⟨0x03, s.x a + BitVec.ofInt 64 o, s.info 0⟩))

namespace Sys2Proof.Claim

open Sys2Proof.Machine

/-! ### Scalar floating point (07 R153 to R155) -/

/-- An fp32 operand (R154): bits [31:0]; an fp64 operand. -/
def single (s : State) (r : XReg) : FVal := fmt32.value ((s.x r).toNat % 2 ^ 32)
/-- An fp64 operand. -/
def double (s : State) (r : XReg) : FVal := fmt64.value (s.x r).toNat

/-- The table of R153 for results in an x register: destination, static mode, and the result in a rounding mode. -/
def floatResult (s : State) : Instr → Option (XReg × Option Rounding × (Rounding → FRes))
  | .faddS d a b rm => some (d, rm, fun m => fmt32.add m false (single s a) (single s b))
  | .fsubS d a b rm => some (d, rm, fun m => fmt32.add m false (single s a) (single s b).neg)
  | .fmulS d a b rm => some (d, rm, fun m => fmt32.mul m false (single s a) (single s b))
  | .fdivS d a b rm => some (d, rm, fun m => fmt32.div m false (single s a) (single s b))
  | .fsqrtS d a rm => some (d, rm, fun m => fmt32.sqrt m (single s a))
  | .fminS d a b rm => some (d, rm, fun _ => fmt32.minMax true ((s.x a).toNat % 2 ^ 32) ((s.x b).toNat % 2 ^ 32))
  | .fmaxS d a b rm => some (d, rm, fun _ => fmt32.minMax false ((s.x a).toNat % 2 ^ 32) ((s.x b).toNat % 2 ^ 32))
  | .fmacS d a b rm => some (d, rm, fun m => fmt32.fma m false (single s a) (single s b) (single s d))
  | .fcvtLS d a rm sat => some (d, rm, fun m => floatToInt .i64 m sat (single s a))
  | .fcvtLuS d a rm sat => some (d, rm, fun m => floatToInt .ui64 m sat (single s a))
  | .fcvtSL d a rm => some (d, rm, fun m => fmt32.ofInteger m false (s.x a).toInt)
  | .fcvtSLu d a rm => some (d, rm, fun m => fmt32.ofInteger m false (s.x a).toNat)
  | .faddD d a b rm => some (d, rm, fun m => fmt64.add m false (double s a) (double s b))
  | .fsubD d a b rm => some (d, rm, fun m => fmt64.add m false (double s a) (double s b).neg)
  | .fmulD d a b rm => some (d, rm, fun m => fmt64.mul m false (double s a) (double s b))
  | .fdivD d a b rm => some (d, rm, fun m => fmt64.div m false (double s a) (double s b))
  | .fsqrtD d a rm => some (d, rm, fun m => fmt64.sqrt m (double s a))
  | .fminD d a b rm => some (d, rm, fun _ => fmt64.minMax true (s.x a).toNat (s.x b).toNat)
  | .fmaxD d a b rm => some (d, rm, fun _ => fmt64.minMax false (s.x a).toNat (s.x b).toNat)
  | .fmacD d a b rm => some (d, rm, fun m => fmt64.fma m false (double s a) (double s b) (double s d))
  | .fcvtLD d a rm sat => some (d, rm, fun m => floatToInt .i64 m sat (double s a))
  | .fcvtLuD d a rm sat => some (d, rm, fun m => floatToInt .ui64 m sat (double s a))
  | .fcvtDL d a rm => some (d, rm, fun m => fmt64.ofInteger m false (s.x a).toInt)
  | .fcvtDLu d a rm => some (d, rm, fun m => fmt64.ofInteger m false (s.x a).toNat)
  | .fcvtSD d a rm sat => some (d, rm, fun m => fmt32.convert m sat (double s a))
  | .fcvtDS d a rm => some (d, rm, fun m => fmt64.convert m false (single s a))
  | _ => none

/-- The compares of R153: destination, static mode, the orders for which the bit is 1, whether a quiet NaN raises NV too,
the operands. -/
def floatCompare (s : State) : Instr → Option (CBit × Option Rounding × (Ordering → Bool) × Bool × FVal × FVal)
  | .fcmpEqS c a b rm => some (c, rm, (· == .eq), false, single s a, single s b)
  | .fcmpLtS c a b rm => some (c, rm, (· == .lt), true, single s a, single s b)
  | .fcmpLeS c a b rm => some (c, rm, (· != .gt), true, single s a, single s b)
  | .fcmpEqD c a b rm => some (c, rm, (· == .eq), false, double s a, double s b)
  | .fcmpLtD c a b rm => some (c, rm, (· == .lt), true, double s a, double s b)
  | .fcmpLeD c a b rm => some (c, rm, (· != .gt), true, double s a, double s b)
  | _ => none

/-- The static rounding mode of an instruction that accepts an RM leading word and does not ignore it (R61, R138, R182, R201,
R219). -/
def rounding : Instr → Option (Option Rounding)
  | .faddS _ _ _ rm => some rm | .faddD _ _ _ rm => some rm | .fsubS _ _ _ rm => some rm | .fsubD _ _ _ rm => some rm
  | .fmulS _ _ _ rm => some rm | .fmulD _ _ _ rm => some rm | .fdivS _ _ _ rm => some rm | .fdivD _ _ _ rm => some rm
  | .fsqrtS _ _ rm => some rm | .fsqrtD _ _ rm => some rm | .fminS _ _ _ rm => some rm | .fminD _ _ _ rm => some rm
  | .fmaxS _ _ _ rm => some rm | .fmaxD _ _ _ rm => some rm | .fmacS _ _ _ rm => some rm | .fmacD _ _ _ rm => some rm
  | .fcmpEqS _ _ _ rm => some rm | .fcmpEqD _ _ _ rm => some rm | .fcmpLtS _ _ _ rm => some rm
  | .fcmpLtD _ _ _ rm => some rm | .fcmpLeS _ _ _ rm => some rm | .fcmpLeD _ _ _ rm => some rm
  | .fcvtLS _ _ rm _ => some rm | .fcvtLD _ _ rm _ => some rm | .fcvtLuS _ _ rm _ => some rm | .fcvtLuD _ _ rm _ => some rm
  | .fcvtSL _ _ rm => some rm | .fcvtDL _ _ rm => some rm | .fcvtSLu _ _ rm => some rm | .fcvtDLu _ _ rm => some rm
  | .fcvtSD _ _ rm _ => some rm | .fcvtDS _ _ rm => some rm
  | .vadd _ _ _ _ _ _ rm _ => some rm | .vsub _ _ _ _ _ _ rm _ => some rm | .vmul _ _ _ _ _ _ rm _ => some rm
  | .vdiv _ _ _ _ _ _ rm => some rm | .vrem _ _ _ _ _ _ rm => some rm | .vmin _ _ _ _ _ _ rm => some rm
  | .vmax _ _ _ _ _ _ rm => some rm | .vand _ _ _ _ _ _ rm => some rm | .vor _ _ _ _ _ _ rm => some rm
  | .vxor _ _ _ _ _ _ rm => some rm | .vsll _ _ _ _ _ _ rm => some rm | .vsrl _ _ _ _ _ _ rm => some rm
  | .vsra _ _ _ _ _ _ rm => some rm | .vmulh _ _ _ _ _ _ rm => some rm
  | .vaddX _ _ _ _ _ rm _ => some rm | .vsubX _ _ _ _ _ rm _ => some rm | .vmulX _ _ _ _ _ rm _ => some rm
  | .vdivX _ _ _ _ _ rm => some rm | .vremX _ _ _ _ _ rm => some rm | .vminX _ _ _ _ _ rm => some rm
  | .vmaxX _ _ _ _ _ rm => some rm | .vandX _ _ _ _ _ rm => some rm | .vorX _ _ _ _ _ rm => some rm
  | .vxorX _ _ _ _ _ rm => some rm | .vsllX _ _ _ _ _ rm => some rm | .vsrlX _ _ _ _ _ rm => some rm
  | .vsraX _ _ _ _ _ rm => some rm | .vmulhX _ _ _ _ _ rm => some rm
  | .vfma _ _ _ _ _ _ rm _ => some rm | .vfms _ _ _ _ _ _ rm _ => some rm
  | .vfnma _ _ _ _ _ _ rm _ => some rm | .vfnms _ _ _ _ _ _ rm _ => some rm
  | .vcmpEq _ _ _ _ _ _ rm => some rm | .vcmpNe _ _ _ _ _ _ rm => some rm | .vcmpLt _ _ _ _ _ _ rm => some rm
  | .vcmpLe _ _ _ _ _ _ rm => some rm | .vcmpEqX _ _ _ _ _ rm => some rm | .vcmpNeX _ _ _ _ _ rm => some rm
  | .vcmpLtX _ _ _ _ _ rm => some rm | .vcmpLeX _ _ _ _ _ rm => some rm | .vcmpGtX _ _ _ _ _ rm => some rm
  | .vcmpGeX _ _ _ _ _ rm => some rm
  | .vscanSegAdd _ _ _ _ rm => some rm | .vscanSegMin _ _ _ _ rm => some rm | .vscanSegMax _ _ _ _ rm => some rm
  | .vredAdd _ _ _ _ _ _ rm => some rm | .vredMin _ _ _ _ _ _ rm => some rm | .vredMax _ _ _ _ _ _ rm => some rm
  | .vredAnd _ _ _ _ _ _ rm => some rm | .vredOr _ _ _ _ _ _ rm => some rm | .vredXor _ _ _ _ _ _ rm => some rm
  | .vfredOrd _ _ _ _ _ _ rm => some rm | .vcvt _ _ _ _ _ rm _ => some rm | .vneg _ _ _ _ rm _ => some rm
  | .vabs _ _ _ _ rm _ => some rm | .vsqrt _ _ _ _ rm => some rm | .vexp2 _ _ _ _ rm => some rm
  | .vlog2 _ _ _ _ rm => some rm | .vrcp _ _ _ _ rm => some rm | .vrsqrt _ _ _ _ rm => some rm
  | .xaRd _ _ _ rm => some rm | .xaRdv _ _ _ rm => some rm
  | .qisectMul _ _ _ rm _ => some rm | .qunionAdd _ _ _ rm _ => some rm | .qscale _ _ _ rm _ => some rm
  | .qredAdd _ _ rm => some rm
  | .mdrain _ _ _ rm _ => some rm | .mdrainX _ _ _ _ rm _ => some rm | .mdrainv _ _ _ rm _ => some rm
  | _ => none

/-- An IEEE format of e exponent bits and f fraction bits, read off a pattern: a NaN, a signalling NaN, an infinity, a
zero, the sign. -/
def isNaN (e f x : Nat) : Bool := x / 2 ^ f % 2 ^ e == 2 ^ e - 1 && x % 2 ^ f != 0
/-- A signalling NaN: its fraction's top bit is 0 (R58). -/
def isSignalling (e f x : Nat) : Bool := isNaN e f x && decide (x % 2 ^ f < 2 ^ (f - 1))
/-- An infinity. -/
def isInf (e f x : Nat) : Bool := x % 2 ^ (e + f) == (2 ^ e - 1) * 2 ^ f
/-- A zero. -/
def isZero (e f x : Nat) : Bool := x % 2 ^ (e + f) == 0
/-- The sign bit. -/
def sign (e f x : Nat) : Bool := x / 2 ^ (e + f) % 2 == 1
/-- The canonical NaN (R58), an infinity and a zero of a sign. -/
def canonical (e f : Nat) : Nat := (2 ^ e - 1) * 2 ^ f + 2 ^ (f - 1)
/-- An infinity of a sign. -/
def infinity (e f : Nat) (neg : Bool) : Nat := neg.toNat * 2 ^ (e + f) + (2 ^ e - 1) * 2 ^ f

/-- The instruction completes, writes a pattern to x[d], and raises these flags. -/
def givesX (s : State) (i : Instr) (d : XReg) (v : Nat) (fl : Flags) : Prop :=
  ∃ t, exec i s = .next t ∧ t.x d = (if d = 0 then 0 else BitVec.ofNat 64 v) ∧ raised s t fl false

/-- The instruction completes, writes a condition bit, and raises these flags. -/
def givesC (s : State) (i : Instr) (d : CBit) (v : Bool) (fl : Flags) : Prop :=
  ∃ t, exec i s = .next t ∧ t.c d = v ∧ raised s t fl false

/-- The rows of R155 for one format: its instructions, and how an operand's pattern is read. -/
def specialCases (s : State) (e f : Nat) (pat : XReg → Nat)
    (fmin fmax fdiv fmac : XReg → XReg → XReg → Instr) (fsqrt : XReg → XReg → Instr)
    (fcmpEq fcmpLt fcmpLe : CBit → XReg → XReg → Instr) : Prop :=
  ∀ (d a b : XReg) (c : CBit),
    let nv : Flags := { nv := isSignalling e f (pat a) || isSignalling e f (pat b) }
    (isNaN e f (pat a) = true → isNaN e f (pat b) = false →
      givesX s (fmin d a b) d (pat b) nv ∧ givesX s (fmax d a b) d (pat b) nv) ∧
    (isNaN e f (pat a) = false → isNaN e f (pat b) = true →
      givesX s (fmin d a b) d (pat a) nv ∧ givesX s (fmax d a b) d (pat a) nv) ∧
    (isNaN e f (pat a) = true → isNaN e f (pat b) = true →
      givesX s (fmin d a b) d (canonical e f) nv ∧ givesX s (fmax d a b) d (canonical e f) nv) ∧
    (isZero e f (pat a) = true → isZero e f (pat b) = true → sign e f (pat a) ≠ sign e f (pat b) →
      givesX s (fmin d a b) d (2 ^ (e + f)) {} ∧ givesX s (fmax d a b) d 0 {}) ∧
    ((isNaN e f (pat a) || isNaN e f (pat b)) = true →
      givesC s (fcmpEq c a b) c false nv ∧ givesC s (fcmpLt c a b) c false { nv := true } ∧
      givesC s (fcmpLe c a b) c false { nv := true }) ∧
    ((isNaN e f (pat a) || isInf e f (pat a) || isZero e f (pat a)) = false → isZero e f (pat b) = true →
      givesX s (fdiv d a b) d (infinity e f (sign e f (pat a) ^^ sign e f (pat b))) { dz := true }) ∧
    ((isZero e f (pat a) && isZero e f (pat b) || isInf e f (pat a) && isInf e f (pat b)) = true →
      givesX s (fdiv d a b) d (canonical e f) { nv := true }) ∧
    (isZero e f (pat a) = true → sign e f (pat a) = true → givesX s (fsqrt d a) d (2 ^ (e + f)) {}) ∧
    (sign e f (pat a) = true → (isZero e f (pat a) || isNaN e f (pat a)) = false →
      givesX s (fsqrt d a) d (canonical e f) { nv := true }) ∧
    ((isInf e f (pat a) && isZero e f (pat b) || isZero e f (pat a) && isInf e f (pat b)) = true →
      givesX s (fmac d a b) d (canonical e f) { nv := true })

/-- R153, R154: every scalar floating-point operation with a result in an x register completes; an fp32 result clears bits
[63:32]; its flags and SAT are ORed into FCSR, and nothing else changes. -/
def FloatResults : Prop :=
  ∀ (s : State) (i : Instr) (d : XReg) (rm : Option Rounding) (k : Rounding → FRes) (m : Rounding),
    Claim.floatResult s i = some (d, rm, k) → Claim.roundsBy s rm m →
    ∃ t, exec i s = .next t ∧ t.x d = (if d = 0 then 0 else BitVec.ofNat 64 (k m).bits) ∧ (∀ r, r ≠ d → t.x r = s.x r) ∧
      Claim.raised s t (k m).flags (k m).sat ∧ Claim.goesOn s t ∧ Claim.sameMemory s t ∧
      t = { s with hart := { s.hart with
        x := t.hart.x, fcsr := t.hart.fcsr, pc := t.hart.pc, instret := t.hart.instret } }

/-- R153, R155: every scalar floating-point compare completes; a NaN operand makes the bit 0, with NV for a signalling NaN,
and for a quiet one where the compare is not `fcmp.eq`; nothing else changes. -/
def FloatCompares : Prop :=
  ∀ (s : State) (i : Instr) (d : CBit) (rm : Option Rounding) (holds : Ordering → Bool) (quiet : Bool) (x y : FVal)
    (m : Rounding),
    Claim.floatCompare s i = some (d, rm, holds, quiet, x, y) → Claim.roundsBy s rm m →
    ∃ t, exec i s = .next t ∧ t.c d = (match x.cmp y with | some o => holds o | none => false) ∧
      (∀ r, r ≠ d → t.c r = s.c r) ∧
      Claim.raised s t { nv := x.isSig || y.isSig || (quiet && (x.isNan || y.isNan)) } false ∧ Claim.goesOn s t ∧
      Claim.sameMemory s t ∧
      t = { s with hart := { s.hart with
        c := t.hart.c, fcsr := t.hart.fcsr, pc := t.hart.pc, instret := t.hart.instret } }

/-- R47, R61: an instruction that accepts an RM leading word and has no static mode takes an illegal-encoding trap while FCSR.RM
holds a code from 5 to 7; the program counter stays at it for EPC. -/
def ReservedRoundingTraps : Prop :=
  ∀ (s : State) (i : Instr), Claim.rounding i = some none → 5 ≤ s.hart.fcsr.rm.toNat →
    exec i s = .next (s.takeTrap s.illegal)

end Sys2Proof.Claim

/-- R155: the special cases of major 0x0D, read off the patterns of the operands, in fp32 and in fp64. -/
def Obligations.FloatSpecialCases : Prop :=
  ∀ (s : State) (rm : Option Rounding) (m : Rounding), Claim.roundsBy s rm m →
    Claim.specialCases s 8 23 (fun r => (s.x r).toNat % 2 ^ 32) (.fminS · · · rm) (.fmaxS · · · rm) (.fdivS · · · rm)
      (.fmacS · · · rm) (.fsqrtS · · rm) (.fcmpEqS · · · rm) (.fcmpLtS · · · rm) (.fcmpLeS · · · rm) ∧
    Claim.specialCases s 11 52 (fun r => (s.x r).toNat) (.fminD · · · rm) (.fmaxD · · · rm) (.fdivD · · · rm)
      (.fmacD · · · rm) (.fsqrtD · · rm) (.fcmpEqD · · · rm) (.fcmpLtD · · · rm) (.fcmpLeD · · · rm)

namespace Sys2Proof.Claim

open Sys2Proof.Machine

/-! ### Single accesses to memory (07 R147, R148) -/

/-- The loads of R147: bytes, sign, destination, base and offset. -/
def loadForm : Instr → Option (Nat × Bool × XReg × XReg × Int)
  | .lb d a o => some (1, true, d, a, o)
  | .lh d a o => some (2, true, d, a, o)
  | .lw d a o => some (4, true, d, a, o)
  | .ld d a o => some (8, false, d, a, o)
  | .lbu d a o => some (1, false, d, a, o)
  | .lhu d a o => some (2, false, d, a, o)
  | .lwu d a o => some (4, false, d, a, o)
  | _ => none

/-- The stores of R147: bytes, data register, base and offset. -/
def storeForm : Instr → Option (Nat × XReg × XReg × Int)
  | .sb r a o => some (1, r, a, o)
  | .sh r a o => some (2, r, a, o)
  | .sw r a o => some (4, r, a, o)
  | .sd r a o => some (8, r, a, o)
  | _ => none

/-- A location on another device. -/
def faraway : Loc → Prop
  | .spad _ => False
  | .phys a => ∃ d o, targetOf a = .remote d o

/-- R147, R148: outside a strip, a store whose checks pass, at a location that holds no live barrier word (R252), completes:
the hart sees the low bytes of x[s] there, from every core. A byte of this device's memory or of host memory is written there, and
every hart sees it; a byte of another device is written into the core's copy of its line (R149, R110), and the other harts see it as
before. Every other byte is as before, to every hart. -/
def ScalarStores : Prop :=
  ∀ (s : State) (i : Instr) (n : Nat) (r a : XReg) (o : Int) (l : Loc),
    Claim.storeForm i = some (n, r, a, o) →
    Safety.Sound s → s.drain.locate .store (Claim.address s a o) n n true = .ok l → s.strip? = none →
    s.drain.liveWord l = false →
    let u := Claim.near s.drain l
    ∃ t, exec i s = .next t ∧
      (∀ core hid k, k < n → hid = s.hart.place.hid ∨ ¬ Claim.faraway l →
        Claim.seen t core hid (Claim.plus l k) = BitVec.ofNat 8 ((s.x r).toNat >>> (8 * k))) ∧
      (∀ core hid m, (∀ k, k < n → m ≠ Claim.plus l k) ∨ hid ≠ s.hart.place.hid ∧ Claim.faraway l →
        Claim.seen t core hid m = Claim.seen u core hid m) ∧
      (∀ b, (∀ k, k < n → Loc.phys b ≠ Claim.plus l k) → Memory.read t.mem b = Memory.read u.mem b) ∧
      (∀ b, (∀ k, k < n → Loc.spad b ≠ Claim.plus l k) → Memory.read t.spad b = Memory.read u.spad b) ∧
      Claim.goesOn s t ∧
      t = { u with mem := t.mem, spad := t.spad, rcache := t.rcache, poison := t.poison, spadPoison := t.spadPoison, hart := { u.hart with
        pc := t.hart.pc, instret := t.hart.instret } }

/-- R265, R33: in an open strip a store whose checks pass, and whose bytes fit the buffer of 64 KiB, is appended to the
buffer, with the physical address that its check found (R338); memory is as before. -/
def StripStoresAreBuffered : Prop :=
  ∀ (s : State) (i : Instr) (n : Nat) (r a : XReg) (o : Int) (l : Loc) (st : Strip),
    Claim.storeForm i = some (n, r, a, o) →
    s.drain.locate .store (Claim.address s a o) n n true = .ok l → s.drain.strip? = some st →
    (st.recs.map fun k => 2 ^ k.size).sum + n ≤ 65536 →
    ∃ t k, exec i s = .next t ∧ t.hart.strip = some { st with recs := st.recs ++ [k] } ∧
      k.addr = Claim.address s a o ∧ 2 ^ k.size = n ∧ k.rel = none ∧ k.data = (s.x r).toNat % 2 ^ (8 * n) ∧ k.half = none ∧
      k.pin = (match l with | .phys pa => some pa | .spad _ => none) ∧
      Claim.goesOn s t ∧ Claim.sameMemory s.drain t ∧
      t = { s.drain with hart := { s.drain.hart with
        strip := t.hart.strip, pc := t.hart.pc, instret := t.hart.instret } }

end Sys2Proof.Claim

/-- R147, R148, R106: a load whose checks pass and whose bytes can be read completes. Byte k of the value is what the hart sees
there (R80), under the open strip's own stores to it; the value is sign- or zero-extended into x[d]. Every hart sees every byte as
before. `s.drain` is the state once the hart's copies have moved as far as they go by themselves (DESIGN CHOICE, log 13): it is
`s` while no copy runs. `near` of it is that state once the hart's own bytes of a line of another device, of which no cache near it
holds a copy, have gone out (R95, DEDUCED, log 10); the line may then stand in the caches. -/
def Obligations.ScalarLoads : Prop :=
  ∀ (s : State) (i : Instr) (n : Nat) (signed : Bool) (d a : XReg) (o : Int) (l : Loc),
    Claim.loadForm i = some (n, signed, d, a, o) →
    s.drain.locate .load (Claim.address s a o) n n true = .ok l → Claim.readable s.drain l n →
    let u := Claim.near s.drain l
    ∃ t v, exec i s = .next t ∧
      (∀ k, k < n → BitVec.ofNat 8 (v >>> (8 * k)) = Claim.ownByte s.drain.strip? l (Claim.address s a o) k
        (Claim.seen u s.hart.place.core s.hart.place.hid (Claim.plus l k))) ∧ v < 2 ^ (8 * n) ∧
      t.x d = (if d = 0 then 0 else if signed then (BitVec.ofNat (8 * n) v).signExtend 64 else BitVec.ofNat 64 v) ∧
      (∀ r, r ≠ d → t.x r = s.x r) ∧ Claim.goesOn s t ∧ Claim.sameMemory u t ∧ Claim.seenAlike u t ∧
      t = { u with rcache := t.rcache, hart := { u.hart with
        x := t.hart.x, pc := t.hart.pc, instret := t.hart.instret } }

/-- R148: the checks of a scalar access in their order, and the trap of each, with the effective address in FADDR: an
address that is no multiple of the size is misaligned; one beyond the hart's pieces, or above the address space, is an access
fault; one of the translated region fails as its walk or its target says. Memory is as the hart's copies left it. While a row is under
repair (R380) the reject may say that the access waits for it: the hart then stays at the instruction (log 30). -/
def Obligations.ScalarAccessTraps : Prop :=
  ∀ (s : State) (i : Instr) (n : Nat) (k : Access) (a : XReg) (o : Int),
    ((∃ signed d, Claim.loadForm i = some (n, signed, d, a, o)) ∧ k = .load ∨
      (∃ r, Claim.storeForm i = some (n, r, a, o)) ∧ k = .store) →
    let ea := Claim.address s a o
    let u := s.drain
    (ea % n ≠ 0 → exec i s = .next (u.takeTrap ⟨0x03, BitVec.ofNat 64 ea, u.info 0⟩)) ∧
    (ea % n = 0 → windowBase ≤ ea → u.hart.place.pieces.length * 65536 < ea - windowBase + n →
      exec i s = .next (u.takeTrap ⟨0x07, BitVec.ofNat 64 ea, u.info 0⟩)) ∧
    (ea % n = 0 → ea < windowBase → ∀ r, u.translate u.hart.ctx k ea = .error r →
      r.addr = ea ∧ (s.repairing = none → r.cause = 0x07 ∨ r.cause = (if k = .load then 0x04 else 0x05)) ∧ exec i s = .next (u.takeTrap (u.trapOf r))) ∧
    (ea % n = 0 → ea < windowBase → ∀ pa r, u.translate u.hart.ctx k ea = .ok pa →
      u.targetCheck u.hart.place.part u.hart.place.core ea pa n k true = .error r →
      r.addr = ea ∧ (s.repairing = none → r.cause = 0x07) ∧ exec i s = .next (u.takeTrap (u.trapOf r)))

namespace Sys2Proof.Claim

open Sys2Proof.Machine

/-! ### Exceptions and privilege (18 R299 to R306, 21 R344 to R346) -/

/-- The instructions whose effect is to take an exception that no strip changes: cause and FINFO (R157, R305). -/
def callForm (s : State) : Instr → Option (Nat × Word)
  | .trap i => some (0x10, BitVec.ofInt 64 i)
  | .ebreak => some (0x0F, 0)
  | .mcall i => if s.hart.priv.level = .kernel then some (0x10, BitVec.ofInt 64 i) else none
  | _ => none

/-- The instructions that an open strip forbids (R266): a second `sbegin`, fences, `ifence`, atomics, `cas.q`, waits,
barrier instructions, farms, `launch`, and majors 0x50 to 0x53. -/
def forbidden : Instr → Bool
  | .sbegin _ | .fence _ _ _ _ _ | .ifence
  | .amoAdd _ _ _ _ _ _ | .amoAnd _ _ _ _ _ _ | .amoOr _ _ _ _ _ _ | .amoXor _ _ _ _ _ _ | .amoMin _ _ _ _ _ _
  | .amoMax _ _ _ _ _ _ | .amoMinu _ _ _ _ _ _ | .amoMaxu _ _ _ _ _ _ | .amoSwap _ _ _ _ _ _ | .amoCas _ _ _ _ _ _
  | .casQ _ _ _ _ _ | .waitge _ _ _ _ _ | .waiteq _ _ _ _ _ | .barInit _ _ _ | .barArrive _ _ _ | .barWait _ _ _
  | .barFin _ | .farmDef _ _ | .farmNext _ _ | .farmEnd | .launch _ _ _
  | .cpy _ _ _ _ | .cpy2 _ _ _ _ _ | .cpyG _ _ _ _ _ | .cpyGd _ _ _ _ _ | .cpyR _ _ _ _ | .cbatch | .cwait _ | .cstat _ _ _
  | .cack _ | .lzInit _ _ _ | .lzRes _ _ | .lzWait _ _ | .lzFree _ _ | .lzScrub _ _ | .lzFin _ | .qsend _ _ _ _
  | .qrecv _ _ _ => true
  | _ => false

/-- The instructions that a level may not run, with the trap each takes (R305, R300): privileged-operation at user level,
and at kernel level for `monret` and registers from 0xC00; an illegal encoding for `mcall` at monitor level. -/
def denied (s : State) : Instr → Option Trap
  | .kret | .invpg _ _ | .invpgG _ | .hend _ => if s.hart.priv.level = .user then some s.privileged else none
  | .mcall _ => match s.hart.priv.level with | .user => some s.privileged | .kernel => none | .monitor => some s.illegal
  | .monret => if s.hart.priv.level = .monitor then none else some s.privileged
  | .movs _ n | .smov _ n =>
    if 0xC00 ≤ n.val ∧ s.hart.priv.level ≠ .monitor ∨ 0x800 ≤ n.val ∧ s.hart.priv.level = .user then some s.privileged else none
  | _ => none

/-- The strip that an exception may be fatal to (R266): the one that guards the hart's level; of a second `sbegin`, at any level, the
one that is open (DEDUCED, log 20). -/
def struck (s : State) (cause : Nat) : Option Strip := if cause = 0x0E then s.hart.strip else s.strip?

/-- An invalidation names a translation of an ASID and G, which holds the address where `holds` says so (R339, R340): an address of
the window names every translation of its ASID but the global ones; without an ASID, of every ASID. -/
def names (va : Nat) (asid : Option (BitVec 16)) (holds : Bool) (k : Nat) (glob : Bool) : Bool :=
  match asid with
  | none => decide (windowBase ≤ va) || holds
  | some n => if glob then decide (va < windowBase) && holds else (decide (windowBase ≤ va) || holds) && k == n.toNat

/-- A page of 2^sh bytes holds both addresses. -/
def onePage (sh a b : Nat) : Bool := a / 2 ^ sh == b / 2 ^ sh

/-- The prefetched strips of a binding that an invalidation leaves: those before the first that was read through a translation it
names (R339). -/
def unstaled (va : Nat) (asid : Option (BitVec 16)) (b : Stream) : Stream :=
  { b with strips := b.strips.takeWhile fun f => f.pins.all fun p => !names va asid (onePage p.page p.addr va) p.asid p.glob }

/-- The number of a level (R299). -/
def levelAt : BitVec 2 → Level
  | 0 => .user | 1 => .kernel | _ => .monitor

/-- R299, R344, R266: taking an exception, of any cause that the spec numbers. With no strip open, or for a cause that is not fatal
to it, the registers of R299 are written and nothing else. A cause fatal to an open strip discards the buffer, closes the strip, sets FFAULT := FBASE
and VSI := 0, and is taken as cause 0x0E at the recovery address, with the original cause and the instruction's address ÷ 4
in FINFO. -/
def TakingAnException : Prop :=
  ∀ (s : State) (k : Trap), k.cause < 0x100 →
    ((∀ st, Claim.struck s k.cause = some st → ¬ Claim.fatal k.cause) →
      Claim.took s (s.takeTrap k) k.cause s.hart.pc k.faddr k.finfo) ∧
    (∀ st, Claim.struck s k.cause = some st → Claim.fatal k.cause →
      Claim.took { s with hart := { s.hart with strip := none, ffault := s.hart.fbase, vsi := 0 } } (s.takeTrap k) 0x0E
        st.recovery k.faddr (BitVec.ofNat 64 (k.cause + s.hart.pc.toNat / 4 % 2 ^ 49 * 2 ^ 8)))

/-- R157, R305, R124: `trap`, `ebreak`, `mcall` at kernel level and an illegal encoding take their exception: the saved
program counter is the instruction's own address, FADDR 0, FINFO the immediate; of an illegal encoding FADDR is the
address, FINFO the word and whether it is the second of a pair. They do not count in INSTRET. -/
def SystemCalls : Prop :=
  (∀ (s : State) (i : Instr) (cause : Nat) (info : Word), Claim.callForm s i = some (cause, info) →
    ∃ t, exec i s = .next t ∧ Claim.took s t cause s.hart.pc 0 info) ∧
  (∀ (s : State) (w : BitVec 32) (second : Bool), s.strip? = none →
    ∃ t, exec (.illegalEncoding w second) s = .next t ∧
      Claim.took { s with hart := { s.hart with iword := w, ipair := second } } t 0x01 s.hart.pc s.hart.pc
        (BitVec.ofNat 64 (w.toNat + second.toNat * 2 ^ 32)))

/-- R266: every instruction that an open strip forbids is fatal to it: the strip is closed, FFAULT := FBASE, VSI := 0, and
the trap 0x0E is taken at the recovery address with 0x0E as the original cause and FADDR 0. Nothing else changes. A second `sbegin`
is so at every level (DEDUCED, log 20). -/
def StripForbids : Prop :=
  ∀ (s : State) (i : Instr) (st : Strip), Claim.forbidden i = true →
    s.strip? = some st ∨ (∃ o, i = .sbegin o) ∧ s.hart.strip = some st →
    ∃ t, exec i s = .next t ∧
      Claim.took { s with hart := { s.hart with strip := none, ffault := s.hart.fbase, vsi := 0 } } t 0x0E st.recovery 0
        (BitVec.ofNat 64 (0x0E + s.hart.pc.toNat / 4 % 2 ^ 49 * 2 ^ 8))

/-- R305, R300, R45: a privileged function or register number at a level that may not use it takes its trap, and has no
effect. -/
def PrivilegeTraps : Prop :=
  ∀ (s : State) (i : Instr) (k : Trap), Claim.denied s i = some k → exec i s = .next (s.takeTrap k)

/-- R306, R339, R340: at kernel or monitor level, once no copy of the hart runs and no open strip of the partition pins a translation
that it names, `invpg` and `invpg.g` complete: the partition's cached entries that hold the address, of the ASID or global, are gone
from every cache, all others stay; strips prefetched through them, and those behind, go (DEDUCED, log 18); no register, no memory
and no other part of a hart changes. -/
def InvalidationCompletes : Prop :=
  ∀ (s : State) (i : Instr) (a : XReg) (asid : Option (BitVec 16)),
    ((∃ r, i = .invpg r a ∧ asid = some ((s.x r).setWidth 16)) ∨ i = .invpgG a ∧ asid = none) →
    let va := bitsAt (s.x a).toNat 15 36 * 2 ^ 15
    let p := s.hart.place.part
    s.hart.priv.level ≠ .user → (∀ c ∈ s.drain.hart.ch.toList, c.state ≠ .running) →
    (∀ h ∈ s.hart :: s.parked, h.place.part = p → ∀ st, h.strip = some st → ∀ r ∈ st.recs, r.pin.isSome = true →
      Claim.names va asid (Claim.onePage r.page r.addr va) r.asid r.glob = false) →
    ∃ t, exec i s = .next t ∧ Claim.goesOn s t ∧ Claim.sameMemory s.drain t ∧
      t.tlb = s.tlb.filter (fun e => !(e.part == p && Claim.names va asid (e.page == va / 2 ^ (12 * e.lvl + 3)) e.asid e.glob)) ∧
      t.hart.streams = s.hart.streams.map (Claim.unstaled va asid) ∧
      t = { s.drain with tlb := t.tlb, parked := t.parked, hart := { s.drain.hart with
        streams := t.hart.streams, pc := t.hart.pc, instret := t.hart.instret } } ∧
      t.parked = s.parked.map fun h => if h.place.part = p then { h with streams := h.streams.map (Claim.unstaled va asid) } else h

end Sys2Proof.Claim

/-- R305, R349: `kret` at kernel or monitor level goes to EPC at the level STATUS.PPL names, `monret` at monitor level to
MONPC at the level of MONSTAT.PPL; a target that is no multiple of 4 is a misaligned trap at the current level; the `kret` of
a hart that is to be switched out waits for the switch instead. Nothing else changes. -/
def Obligations.Returns : Prop :=
  ∀ (s : State) (i : Instr) (target : Word) (ppl : BitVec 2),
    (i = .kret ∧ s.hart.priv.level ≠ .user ∧ s.hart.switchPending = false ∧ target = s.hart.priv.epc ∧ ppl = s.hart.priv.ppl ∨
      i = .monret ∧ s.hart.priv.level = .monitor ∧ target = s.hart.priv.monpc ∧ ppl = s.hart.priv.monppl) →
    (target.toNat % 4 = 0 → ∃ t, exec i s = .next t ∧ t.hart.pc = target ∧ t.hart.priv.level = Claim.levelAt ppl ∧
      t.hart.instret = s.hart.instret + 1 ∧
      t = { s with hart := { s.hart with pc := t.hart.pc, instret := t.hart.instret
                                         priv := { s.hart.priv with level := t.hart.priv.level } } }) ∧
    (target.toNat % 4 ≠ 0 → exec i s = .next (s.takeTrap ⟨0x03, target, s.info 0⟩)) ∧
    (s.hart.priv.level ≠ .user → s.hart.switchPending = true → exec .kret s =
      .next { s with hart := { s.hart with waiting := some .switchOut, phase := .active } })

namespace Sys2Proof.Claim

open Sys2Proof.Machine

/-! ### Special registers (02 R45 to R50, 18 R300 to R302) -/

/-- A level may use a register number (R300). -/
def srLevel (s : State) (n : Nat) : Prop :=
  n < 0x800 ∨ n < 0xC00 ∧ s.hart.priv.level ≠ .user ∨ n < 0x1000 ∧ s.hart.priv.level = .monitor

/-- A register of the partition window as it reads (R307, R309). -/
def windowWord (k : Partition) (n : Nat) : Word :=
  match n with
  | 0xC11 => BitVec.ofNat 64 (k.en.toNat + k.err.toNat * 2)
  | 0xC12 => k.core0
  | 0xC13 => k.core1
  | 0xC14 => BitVec.ofNat 64 (k.size + k.base * 2 ^ 16)
  | 0xC15 => BitVec.ofNat 64 k.pcac
  | 0xC16 => BitVec.ofNat 64 k.pmrows
  | 0xC17 => BitVec.ofNat 64 k.pfunc
  | 0xC18 => BitVec.ofNat 64 (k.first + k.count * 2 ^ 16)
  | 0xC19 => k.ltvec
  | 0xC1A => k.lroot
  | _ => BitVec.ofNat 64 (k.lasid + k.lvlcap * 2 ^ 32)

/-- What it reads as after a write (R307, R309): the registers that an enabled partition fixes keep their value, and so does a field
whose written value is out of range. -/
def windowAfter (k : Partition) (n : Nat) (v : Word) : Word :=
  let old := windowWord k n
  let free (w : Word) : Word := if k.en then old else w
  match n with
  | 0xC12 => free v
  | 0xC13 => free v
  | 0xC14 => free (v &&& 0x3FF03FF)
  | 0xC15 => if (v &&& 0x1F).toNat ≤ 16 then v &&& 0x1F else old
  | 0xC16 => if (v &&& 7).toNat ≤ 4 then v &&& 7 else old
  | 0xC17 => if (v &&& 0xF).toNat ≤ 8 then free (v &&& 0xF) else old
  | 0xC18 => free ((v &&& 0x3FF) ||| (if ((v >>> 16) &&& 0x7FF).toNat ≤ 1024 then v &&& 0x7FF0000 else BitVec.ofNat 64 (k.count * 2 ^ 16)))
  | 0xC19 => v &&& 0x7FFFFFFFFFFFC
  | 0xC1A => v &&& 0xFFFFFFFFF8000
  | _ => (v &&& 0xFFFF) ||| (if (v >>> 32) &&& 0x1F ∈ ([1, 2, 4, 8, 16] : List Word) then v &&& 0x1F00000000 else BitVec.ofNat 64 (k.lvlcap * 2 ^ 32))

/-- What a register reads as (R46, R47, R301, R307), for every register but CYCLE and the lasts. -/
def register (s : State) (n : Nat) : Option Word :=
  let h := s.hart
  let p := h.priv
  let w (k : Nat) : Option Word := some (BitVec.ofNat 64 k)
  match n with
  | 0x000 => w h.vl
  | 0x001 => w (if h.vcfg.tag = .none then 0 else 1024 * h.ge * 2 ^ h.vcfg.lgrp * 8 / tagBits h.vcfg.tag)
  | 0x002 => w h.vsi
  | 0x003 => w (h.vcfg.tag.code + h.vcfg.lgrp * 2 ^ 8 + h.vcfg.hold.toNat * 2 ^ 12)
  | 0x004 => w h.rows
  | 0x005 => some h.pitch
  | 0x006 => w (h.fcsr.flags.nx.toNat + h.fcsr.flags.uf.toNat * 2 + h.fcsr.flags.of.toNat * 4 + h.fcsr.flags.dz.toNat * 8 +
      h.fcsr.flags.nv.toNat * 16 + h.fcsr.sat.toNat * 32 + h.fcsr.rm.toNat * 256)
  | 0x007 => some h.pc
  | 0x008 => w (h.qpos.pa + h.qpos.pb * 2 ^ 16 + h.qpos.po * 2 ^ 32)
  | 0x009 => w h.place.hartNo
  | 0x00A => w h.place.harts
  | 0x00B => w h.ge
  | 0x00C => w (128 * h.ge)
  | 0x010 => w ((h.tile.map TileCtx.rows).getD 0)
  | 0x011 => w (h.mbudget.satb + h.mbudget.ufb * 2 ^ 16 + h.mbudget.canb * 2 ^ 32 + h.mbudget.cbits * 2 ^ 48)
  | 0x012 => w ((h.tile.map fun t => t.rung.val + t.ceilx.toNat * 4 + 8).getD 0)
  | 0x038 => w h.cbatch
  | 0x040 => some h.farmid
  | 0x041 => some h.fbase
  | 0x042 => some h.ffault
  | 0x048 => w (h.discarded.toNat + h.place.pieces.length * 2 ^ 8)
  | 0x051 => some h.instret
  | 0x800 => w (p.ppl.toNat + p.aie.toNat * 4)
  | 0x801 => some p.tvec
  | 0x802 => some p.epc
  | 0x803 => some p.cause
  | 0x804 => some p.faddr
  | 0x805 => some p.finfo
  | 0x806 => some p.scratch
  | 0x808 => some p.ptbase
  | 0x809 => some p.asid
  | 0x80A => w p.vlcap
  | 0x80B => w h.place.part.val
  | 0x80C => w h.place.saveslot
  | 0xC00 => some p.monvec
  | 0xC01 => some p.monpc
  | 0xC02 => some p.moncause
  | 0xC03 => some p.monaddr
  | 0xC04 => some p.moninfo
  | 0xC05 => w p.monppl.toNat
  | 0xC06 => some p.monspill
  | 0xC08 => some 0
  | 0xC10 => w p.psel.val
  | _ =>
    if 0xC11 ≤ n ∧ n ≤ 0xC1B then some (windowWord s.parts[p.psel.val] n)
    else if 0x014 ≤ n ∧ n < 0x018 then some ((h.tile.bind fun t => t.mreplay[n - 0x014]?).getD 0)
    else if 0x028 ≤ n ∧ n < 0x030 then some (h.ch[n - 0x028]?.getD {}).cwm
    else if 0x030 ≤ n ∧ n < 0x038 then
      let c := h.ch[n - 0x030]?.getD {}
      w ((match c.state with | .idle => 0 | .running => 1 | .done => 2 | .failed => 3) + c.rem.toNat * 8 + c.desc.toNat * 16 +
        c.pend.toNat * 32 + c.code * 2 ^ 8)
    else none

/-- The bits that a write keeps of its value (R46, R47, R301), for the registers of which nothing else decides. -/
def kept (n : Nat) : Option Word :=
  match n with
  | 0x002 => some 0xFFFFFFFF
  | 0x004 => some 0xFFFF
  | 0x005 => some (-1)
  | 0x006 => some 0x73F
  | 0x008 => some 0xFFF0FFF1FFF
  | 0x011 => some 0x3FFFFFFFFFFFFF
  | 0x042 => some (-1)
  | 0x801 => some (-4)
  | 0x802 => some (-1)
  | 0x803 => some 0xFF
  | 0x804 => some (-1)
  | 0x805 => some (-1)
  | 0x806 => some (-1)
  | 0x808 => some 0xFFFFFFFFF8000
  | 0x809 => some 0xFFFF
  | 0xC00 => some (-4)
  | 0xC01 => some (-1)
  | 0xC02 => some 0xFF
  | 0xC03 => some (-1)
  | 0xC04 => some (-1)
  | 0xC06 => some (-1)
  | 0xC10 => some 7
  | _ => none

/-- What a register reads as after a write of v (R46, R47, R218, R301, R302, R307): a value of STATUS.PPL above 1, of MONSTAT.PPL of 3
and of VLCAP other than 1, 2, 4, 8 and 16 is not written; a 1 clears MSTAT.CEILX and SPSTAT.DISCARDED; SNAPCTL reads 0. -/
def becomes (s : State) (v : Word) (n : Nat) : Option Word :=
  let old := (register s n).getD 0
  match kept n with
  | some mask => some (v &&& mask)
  | none => match n with
    | 0x012 => some (if v.getLsbD 2 then old &&& 0xFFFFFFFFFFFFFFFB else old)
    | 0x048 => some (if v.getLsbD 0 then old &&& 0xFFFFFFFFFFFFFFFE else old)
    | 0x800 => some (if v &&& 2 = 0 then v &&& 7 else (old &&& 3) ||| (v &&& 4))
    | 0x80A => some (if v &&& 0x1F ∈ ([1, 2, 4, 8, 16] : List Word) then v &&& 0x1F else old)
    | 0xC05 => some (if v &&& 3 = 3 then old else v &&& 3)
    | 0xC08 => some 0
    | _ =>
      if 0x014 ≤ n ∧ n < 0x018 then some (if s.hart.tile.isSome then v else 0)
      else if 0xC12 ≤ n ∧ n ≤ 0xC1B then some (windowAfter s.parts[s.hart.priv.psel.val] n v)
      else none

/-- A last as it reads (R42). -/
def lastWord (k : Shape) : Nat := k.tag.code + k.rows * 2 ^ 8 + k.cols * 2 ^ 16 + k.pk.toNat * 2 ^ 25 + k.bm.toNat * 2 ^ 26

/-- The last of a register number: of operand tiles from 0x018, of accumulator tiles from 0x020. -/
def lastAt (c : TileCtx) (n : Nat) : Shape := if n < 0x020 then (c.t[n - 0x018]?.getD {}).shape else (c.z[n - 0x020]?.getD {}).shape

/-- R43 accepts a value for a last; a TAG of none has no element width (DESIGN CHOICE, log 64). -/
def lastOk (n rows v : Nat) : Prop :=
  ∃ k : Shape, v = lastWord k ∧ k.rows < 2 ^ 8 ∧ k.cols < 2 ^ 9 ∧ k.rows ≤ rows ∧ (k.pk = true → k.bm = true) ∧
    (k.bm = true → 8 ≤ tagBits k.tag) ∧
    if n < 0x020 then k.tag ∈ [Tag.none, .i8, .ui8, .fp4, .e4m3, .e5m2, .bf16, .fp16, .fp32, .fp64] ∧ k.cols * tagBits k.tag ≤ 1024
    else k.tag ∈ [Tag.none, .i32, .fp32, .fp64] ∧ k.cols * tagBits k.tag ≤ 4096 ∧ k.bm = false ∧ k.pk = false

/-- The registers a write leaves as they are (R45, R46, R301), RO and RS. -/
def readOnly (n : Nat) : Prop :=
  n ∈ [0x000, 0x001, 0x003, 0x007, 0x009, 0x00A, 0x00B, 0x00C, 0x010, 0x038, 0x040, 0x041, 0x050, 0x051, 0x80B, 0x80C] ∨
    0x028 ≤ n ∧ n < 0x038

/-- Numbers with no register (R45, R301). -/
def unlisted (n : Nat) : Prop :=
  0x00D ≤ n ∧ n ≤ 0x00F ∨ n = 0x013 ∨ 0x024 ≤ n ∧ n ≤ 0x027 ∨ 0x039 ≤ n ∧ n ≤ 0x03F ∨ 0x043 ≤ n ∧ n ≤ 0x047 ∨
    0x049 ≤ n ∧ n ≤ 0x04F ∨ 0x052 ≤ n ∧ n ≤ 0x7FF ∨ n = 0x807 ∨ 0x80D ≤ n ∧ n ≤ 0xBFF ∨ n = 0xC07 ∨
    0xC09 ≤ n ∧ n ≤ 0xC0F ∨ 0xC1C ≤ n ∧ n ≤ 0xFFF

/-- The hart may still run or be restored (R25). -/
def alive (h : Hart) : Prop := h.phase = .active ∨ h.phase = .monitor ∨ h.phase = .switched

/-- What the end of the hart whose turn it is leaves (R24, R175, R22): its strip is discarded, which makes the status at least 3; its
bindings, matrix context and pending events go; its zones die, with their FILLING transfers failed NOZONE; its launch takes the
largest status, loses it from the farm, and is DRAINING after its last hart; its clusters and slot are free, and once none of its
copies uses them its pieces, zeroed. -/
def ended (s t : State) (status : Nat) : Prop :=
  let h := s.hart
  let last (l : Launch) : Prop := l.state = .running ∧ l.placed = l.harts ∧
    ∀ k ∈ s.parked, k.place.launch = l.id → k.place.hid ≠ h.place.hid → ¬ alive k
  t.hart.phase = .ended ∧ t.hart.waiting = none ∧ t.hart.strip = none ∧ t.hart.tile = none ∧ t.hart.pend20 = none ∧
  t.hart.pend21 = none ∧ t.hart.pend22 = none ∧ t.hart.switchPending = false ∧ t.hart.reclaim = none ∧
  (∀ k : SNum, t.hart.streams[k.val].bound = false ∧ t.hart.streams[k.val].strips = []) ∧
  (∀ z, z ∈ t.zones ↔ z ∈ s.zones ∧ z.owner ≠ h.place.hid) ∧
  (∀ f ∈ t.fills, f ∈ s.fills ∧ ∀ z ∈ s.zones, z.owner = h.place.hid → ¬ (f.core = z.core ∧ f.zone = z.num)) ∧
  (∀ z ∈ s.zones, z.owner = h.place.hid → ∀ f ∈ s.fills, f.core = z.core → f.zone = z.num →
    (∀ k ch, f.xfer = some (.mine k ch) → ∀ q ∈ t.hart :: t.parked, q.place.hid = k →
      q.ch[ch.val].state = .failed ∧ q.ch[ch.val].code = 0x08) ∧
    (∀ d tk a b, f.xfer = some (.theirs d tk a b) → .refusal d.val tk 0x08 ∈ t.outbox)) ∧
  (∀ l, s.launchOf h.place.launch = some l → ∃ l', t.launchOf l.id = some l' ∧
    l'.status = max l.status (if h.strip.isSome then max status 3 else status) ∧ h.place.hid ∉ l'.farm.joined ∧
    ((∀ n ∈ l.farm.joined, n = h.place.hid) → l'.farm.live = false) ∧
    (last l → l'.state = .draining) ∧ (¬ last l → l'.state = l.state)) ∧
  (h.phase = .active → (∀ c ∈ h.ch.toList, c.touchesWindow = false) → t.holdOf t.hart = none ∧
    ∀ i, i < h.place.pieces.length * 65536 → Memory.read t.spad (spadIndex h.place.core h.place.pieces i) = 0) ∧
  (h.phase = .active → (∃ c ∈ t.hart.ch.toList, c.touchesWindow = true) →
    t.holdOf t.hart = some ⟨h.place.hid, h.place.core, h.place.slot, 0, 0, h.place.pieces⟩)

/-- R46, R47, R301, R302, R307: a `movs` of a register that the level may use completes with what the register reads as; nothing
else changes. CYCLE reads as a later count, which stays (the cycles that have passed are a free value, log 7). A last of an attached
hart reads as its fields (R42); of one that is not attached it takes a matrix-detached trap (R41). -/
def SpecialReads : Prop :=
  (∀ (s : State) (d : XReg) (n : Fin 4096) (v : Word), Claim.srLevel s n.val → Claim.register s n.val = some v →
    ∃ t, exec (.movs d n) s = .next t ∧ Claim.wroteX s t d v) ∧
  (∀ (s : State) (d : XReg), ∃ t, exec (.movs d 0x050) s = .next t ∧ t.x d = (if d = 0 then 0 else t.hart.cycle) ∧
    (∀ r, r ≠ d → t.x r = s.x r) ∧ Claim.goesOn s t ∧
    t = { s with freeCtr := t.freeCtr, hart := { s.hart with x := t.hart.x, cycle := t.hart.cycle, pc := t.hart.pc, instret := t.hart.instret } }) ∧
  (∀ (s : State) (d : XReg) (n : Fin 4096), 0x018 ≤ n.val → n.val < 0x024 →
    (∀ c, s.hart.tile = some c →
      ∃ t, exec (.movs d n) s = .next t ∧ Claim.wroteX s t d (BitVec.ofNat 64 (Claim.lastWord (Claim.lastAt c n.val)))) ∧
    (s.hart.tile = none → exec (.movs d n) s = .next (s.takeTrap ⟨0x0B, 0, s.info 0⟩)))

/-- R45 to R47, R301, R302, R307: an `smov` to a writable register that the level may use completes; the register then reads as its
table says, and every other register but VCP and INSTRET as before (PSEL also chooses the partition that the window shows). A
write to a register marked RO or RS is ignored. An unlisted number takes an illegal-encoding trap on both instructions. -/
def SpecialWrites : Prop :=
  ∀ (s : State) (a : XReg) (n : Fin 4096), Claim.srLevel s n.val →
    (∀ w, Claim.becomes s (s.x a) n.val = some w →
      ∃ t, exec (.smov a n) s = .next t ∧ Claim.register t n.val = some w ∧
        (∀ k, k ≠ n.val → k ≠ 0x007 → k ≠ 0x051 → (n.val = 0xC10 → k < 0xC11 ∨ 0xC1B < k) → Claim.register t k = Claim.register s k) ∧
        (∀ r, t.x r = s.x r) ∧ Claim.goesOn s t ∧ Claim.sameMemory s t) ∧
    (Claim.readOnly n.val → ∃ t, exec (.smov a n) s = .next t ∧ Claim.goesOn s t ∧
      t = { s with hart := { s.hart with pc := t.hart.pc, instret := t.hart.instret } }) ∧
    (Claim.unlisted n.val → ∀ d, exec (.movs d n) s = .next (s.takeTrap s.illegal) ∧
      exec (.smov a n) s = .next (s.takeTrap s.illegal))

/-- R41, R42, R43: an `smov` to a last: without an attached context a matrix-detached trap; a value that R43 refuses is a tag-fault
with reason 4 and changes nothing; any other is what the last then reads as, and no other last, no tile and nothing else changes. -/
def LastWrites : Prop :=
  ∀ (s : State) (a : XReg) (n : Fin 4096), 0x018 ≤ n.val → n.val < 0x024 →
    (s.hart.tile = none → exec (.smov a n) s = .next (s.takeTrap ⟨0x0B, 0, s.info 0⟩)) ∧
    (∀ c, s.hart.tile = some c →
      (¬ Claim.lastOk n.val c.rows (s.x a).toNat → exec (.smov a n) s = .next (s.takeTrap ⟨0x02, 0, s.info (4 * 2 ^ 33)⟩)) ∧
      (Claim.lastOk n.val c.rows (s.x a).toNat → ∃ t c', exec (.smov a n) s = .next t ∧ t.hart.tile = some c' ∧
        Claim.lastWord (Claim.lastAt c' n.val) = (s.x a).toNat ∧
        (∀ k, 0x018 ≤ k → k < 0x024 → k ≠ n.val → Claim.lastAt c' k = Claim.lastAt c k) ∧
        (∀ k : TNum, c'.t[k.val] = { c.t[k.val] with shape := c'.t[k.val].shape }) ∧
        (∀ k : ZNum, c'.z[k.val] = { c.z[k.val] with shape := c'.z[k.val].shape }) ∧
        c' = { c with t := c'.t, z := c'.z } ∧ Claim.goesOn s t ∧
        t = { s with hart := { s.hart with tile := t.hart.tile, pc := t.hart.pc, instret := t.hart.instret } }))

/-- R378, R307, R308: the two registers of the monitor whose write does more than change a field. Bit 0 of SNAPCTL takes a snapshot,
which advances SNAPSEQ; without it nothing happens. A write of PCTL clears ERR by a 1 while EN is 0; then bit 0 enables or disables the
partition that PSEL names, as PARTITION_ENABLE and PARTITION_DISABLE do. -/
def MonitorWrites : Prop :=
  ∀ (s : State) (a : XReg), s.hart.priv.level = .monitor →
    (∃ t, exec (.smov a 0xC08) s = .next t ∧ Claim.goesOn s t ∧ (∀ r, t.x r = s.x r) ∧ Claim.sameMemory s t ∧
      ((s.x a).getLsbD 0 = true → t.service.snapseq = s.service.snapseq + 1) ∧
      ((s.x a).getLsbD 0 = false → t.service = s.service)) ∧
    (let p := s.hart.priv.psel
     let k := s.parts[p.val]
     let u : State := if (s.x a).getLsbD 1 = true ∧ k.en = false then { s with parts := s.parts.set p.val { k with err := false } } else s
     ∃ t v, exec (.smov a 0xC11) s = .next t ∧
      exec (if (s.x a).getLsbD 0 then .partitionEnable p else .partitionDisable p) u = .next v ∧
      t = { v with hart := { v.hart with pc := s.hart.pc + s.len, instret := s.hart.instret + 1 } })

/-- R24, R305: `hend` at kernel or monitor level ends the hart; physical memory and the x registers are as before. -/
def HartEnds : Prop :=
  ∀ (s : State) (status : Fin 4096), s.hart.priv.level ≠ .user →
    ∃ t, exec (.hend status) s = .next t ∧ Claim.ended s t status.val ∧ t.hart.instret = s.hart.instret + 1 ∧
      (∀ r, t.x r = s.x r) ∧ t.mem = s.mem

end Sys2Proof.Claim

namespace Sys2Proof.Claim

open Sys2Proof.Machine

/-- R254 to R256: an atomic that can be performed completes: x[d] is the old pattern, sign-extended; the location holds the
new one, and every other byte of memory is as before. -/
def Atomics : Prop :=
  ∀ (s : State) (i : Instr) (d a : XReg) (n : Nat) (host : Bool) (f : Nat → Option Nat) (l : Loc),
    Claim.amoForm s i = some (d, a, n, host, f) → Safety.Sound s → Claim.atomicOk s (s.x a).toNat n host l →
    let old := s.drain.readLoc l n
    ∃ t, exec i s = .next t ∧ t.x d = (if d = 0 then 0 else (BitVec.ofNat (8 * n) old).signExtend 64) ∧
      (∀ r, r ≠ d → t.x r = s.x r) ∧ Claim.stored s.drain t l n ((f old).getD old) ∧ Claim.goesOn s t ∧
      t = { s.drain with mem := t.mem, spad := t.spad, poison := t.poison, spadPoison := t.spadPoison, rcache := t.rcache, hart := { s.drain.hart with
        x := t.hart.x, pc := t.hart.pc, instret := t.hart.instret } }

/-- R257: `cas.q` that can be performed completes: the pair x[d], x[d+1] takes the 16 bytes as they were; they become the
pair x[b], x[b+1] when they were equal to the pair x[d], x[d+1]. -/
def CompareAndSwapPair : Prop :=
  ∀ (s : State) (d a b : XReg) (o : Order) (sc : Scope) (l : Loc),
    Safety.Sound s → Claim.atomicOk s (s.x a).toNat 16 true l →
    let old := s.drain.readLoc l 16
    let pair (r : XReg) : Nat := (s.x r).toNat + 2 ^ 64 * (s.x (Claim.after r)).toNat
    ∃ t, exec (.casQ d a b o sc) s = .next t ∧ t.x d = (if d = 0 then 0 else BitVec.ofNat 64 old) ∧
      t.x (Claim.after d) = (if Claim.after d = 0 then 0 else BitVec.ofNat 64 (old / 2 ^ 64)) ∧
      (∀ r, r ≠ d → r ≠ Claim.after d → t.x r = s.x r) ∧
      Claim.stored s.drain t l 16 (if old = pair d then pair b else old) ∧ Claim.goesOn s t ∧
      t = { s.drain with mem := t.mem, spad := t.spad, poison := t.poison, spadPoison := t.spadPoison, rcache := t.rcache, hart := { s.drain.hart with
        x := t.hart.x, pc := t.hart.pc, instret := t.hart.instret } }

/-- R256: `ld.acq` that can be performed completes: x[d] is the value read, sign-extended; memory is as before, and at scope
sys no copy of another device's memory is left in the core or its chiplet's CAC. -/
def LoadAcquire : Prop :=
  ∀ (s : State) (d a : XReg) (sc : Scope) (z : Bool) (l : Loc),
    s.drain.locate .load (s.x a).toNat (Claim.size z) (Claim.size z) (sc != .sys) = .ok l →
    Claim.acquirable s.drain sc l (Claim.size z) →
    let u := Claim.nearFor s.drain sc l
    ∃ t v, exec (.ldAcq d a sc z) s = .next t ∧ v < 2 ^ (8 * Claim.size z) ∧
      (∀ k, k < Claim.size z → BitVec.ofNat 8 (v >>> (8 * k)) =
        Claim.ownByte s.drain.strip? l (s.x a).toNat k (Claim.acquired u sc l k)) ∧
      t.x d = (if d = 0 then 0 else (BitVec.ofNat (8 * Claim.size z) v).signExtend 64) ∧ (∀ r, r ≠ d → t.x r = s.x r) ∧
      (sc = .sys → Claim.noCopies s t) ∧ Claim.goesOn s t ∧ Claim.sameMemory u t ∧
      t = { u with rcache := t.rcache, hart := { u.hart with
        x := t.hart.x, pc := t.hart.pc, instret := t.hart.instret } }

/-- R256, R106: outside a strip `st.rel` that can be performed completes as a store of the low bytes of x[b], and at scope sys
the bytes stand at their coherence point; in a strip it is appended to the buffer with its scope. -/
def StoreRelease : Prop :=
  ∀ (s : State) (a b : XReg) (sc : Scope) (z : Bool) (l : Loc), Safety.Sound s →
    s.drain.locate .store (s.x a).toNat (Claim.size z) (Claim.size z) (sc != .sys) = .ok l →
    let n := Claim.size z
    let v := (s.x b).toNat % 2 ^ (8 * n)
    let u := Claim.nearFor s.drain sc l
    (s.strip? = none → s.drain.liveWord l = false → (sc = .sys → Claim.clean s.drain) →
      ∃ t, exec (.stRel a b sc z) s = .next t ∧ (sc = .sys → t.readLoc l n = v) ∧
        (∀ core k, k < n → Claim.seen t core s.hart.place.hid (Claim.plus l k) = BitVec.ofNat 8 (v >>> (8 * k))) ∧
        (∀ core hid m, (∀ k, k < n → m ≠ Claim.plus l k) → Claim.seen t core hid m = Claim.seen u core hid m) ∧
        Claim.goesOn s t ∧
        t = { u with mem := t.mem, spad := t.spad, poison := t.poison, spadPoison := t.spadPoison, rcache := t.rcache, hart := { u.hart with
          pc := t.hart.pc, instret := t.hart.instret } }) ∧
    (∀ st, s.drain.strip? = some st → (st.recs.map fun k => 2 ^ k.size).sum + n ≤ 65536 →
      ∃ t k, exec (.stRel a b sc z) s = .next t ∧ t.hart.strip = some { st with recs := st.recs ++ [k] } ∧
        k.addr = (s.x a).toNat ∧ 2 ^ k.size = n ∧ k.rel = some sc ∧ k.data = v ∧ Claim.goesOn s t ∧
        Claim.sameMemory s.drain t ∧
        t = { s.drain with hart := { s.drain.hart with strip := t.hart.strip, pc := t.hart.pc, instret := t.hart.instret } })

/-- R98, R259: outside a strip a fence completes once the transfers it names have ended, `ifence` at once; a fence naming
`rem` leaves the core and its chiplet's CAC no copy of another device's memory; nothing else changes. While a named transfer runs, the fence
waits: it stays at its address and changes nothing. -/
def Fences : Prop :=
  ∀ (s : State) (ld st eng rem : Bool) (sc : Scope), s.strip? = none →
    let u := if eng then s.drain else s
    ((eng = true → ∀ c ∈ u.hart.ch.toList, c.state ≠ .running) → (rem = true ∨ st = true ∧ sc = .sys → Claim.clean u) →
      ∃ t, exec (.fence ld st eng rem sc) s = .next t ∧ Claim.goesOn s t ∧ Claim.sameMemory u t ∧
        (rem = true → Claim.noCopies s t) ∧ (rem = false → t.rcache = u.rcache) ∧
        t = { u with rcache := t.rcache, hart := { u.hart with pc := t.hart.pc, instret := t.hart.instret } }) ∧
    ((∃ c ∈ u.hart.ch.toList, c.state = .running) → eng = true → exec (.fence ld st eng rem sc) s = .next u) ∧
    exec .ifence s = .next { s with hart := { s.hart with pc := s.hart.pc + s.len, instret := s.hart.instret + 1 } }

/-- R260, R25: outside a strip `waitge` and `waiteq` look at their location: when the value satisfies the wait, unsigned at
its width, it completes with x[d] the value, zero-extended; otherwise the hart is in MONITOR at the instruction, waiting for
that location. -/
def WaitsLook : Prop :=
  ∀ (s : State) (i : Instr) (ge : Bool) (d a b : XReg) (sc : Scope) (n : Nat) (l : Loc),
    Claim.waitForm i = some (ge, d, a, b, sc, n) → s.strip? = none →
    s.drain.locate .load (s.x a).toNat n n (sc != .sys) = .ok l → Claim.acquirable s.drain sc l n →
    let u := Claim.nearFor s.drain sc l
    ∃ t v, exec i s = .next t ∧ v < 2 ^ (8 * n) ∧
      (∀ k, k < n → BitVec.ofNat 8 (v >>> (8 * k)) = Claim.acquired u sc l k) ∧ Claim.sameMemory u t ∧
      (let w := (s.x b).toNat % 2 ^ (8 * n)
       if (if ge then w ≤ v else w = v) then
        t.x d = (if d = 0 then 0 else BitVec.ofNat 64 v) ∧ (∀ r, r ≠ d → t.x r = s.x r) ∧ Claim.goesOn s t ∧
        t = { u with rcache := t.rcache, hart := { u.hart with
          x := t.hart.x, pc := t.hart.pc, instret := t.hart.instret, phase := .active, waiting := none } }
       else
        t = { u with rcache := t.rcache, hart := { u.hart with
          phase := .monitor, waiting := some (.location ge d n sc (s.x a) (s.x b)) } })

end Sys2Proof.Claim

namespace Sys2Proof.Claim

open Sys2Proof.Machine

/-! ### Barrier objects, farms, guarded strips, launch (13 R261 to R268, 01 R31) -/

/-- The bytes of a hart that a sys acquire would have to send: there are none, and none was lost unreported (R80, R371). -/
def cleanOf (s : State) (h : Hart) : Prop :=
  h.lostBytes = none ∧ ∀ k ∈ s.rcache, k.inOrderOf h.place.core h.place.hid = true → k.dirty = []

/-- The physical address of a barrier object at x[a]: its checks pass and it lies in HBM4 of this device (R255, R261). -/
def barrierAt (s : State) (k : Access) (a : XReg) (pa : Nat) : Prop :=
  s.drain.locate k (s.x a).toNat 16 16 false = .ok (.phys pa) ∧ targetOf pa = .hbm

/-- A barrier object is live at an address; its words CTL and PHASE; BROKEN (R261). -/
def live (s : State) (pa : Nat) : Prop := ∃ b ∈ s.barriers, b.addr = pa
/-- CTL. -/
def ctl (s : State) (pa : Nat) : Nat := Memory.readN s.mem pa 8
/-- PHASE and ARRIVED. -/
def phase (s : State) (pa : Nat) : Nat := Memory.readN s.mem (pa + 8) 8
/-- BROKEN. -/
def broken (s : State) (pa : Nat) : Prop := (ctl s pa).testBit 33 = true

/-- Only the n bytes at a physical address may differ in memory. -/
def onlyBytes (u t : State) (pa n : Nat) : Prop :=
  (∀ b, b < pa ∨ pa + n ≤ b → Memory.read t.mem b = Memory.read u.mem b) ∧ t.spad = u.spad

/-- The farm of the hart's launch (R31). -/
def farmOf (s : State) : Farm := ((s.launchOf s.hart.place.launch).map Launch.farm).getD {}

/-- What a farm instruction leaves: the launches but for the farm of the hart's own, and of the hart what it names. -/
def farmStep (s t : State) (f : Farm) : Prop :=
  farmOf t = f ∧ (∀ n, n ≠ s.hart.place.launch → t.launchOf n = s.launchOf n) ∧ goesOn s t ∧ sameMemory s t ∧
    t = { s with launches := t.launches, hart := { s.hart with
      x := t.hart.x, c := t.hart.c, fbase := t.hart.fbase, farmid := t.hart.farmid, noStrips := t.hart.noStrips
      pc := t.hart.pc, instret := t.hart.instret } }

/-- Where a buffered store goes (R267): its pinned translation, or the byte of the window as it lies. -/
def placeOf (s : State) (r : StripRec) : Loc :=
  match r.pin with
  | some pa => .phys pa
  | none => .spad (spadIndex s.hart.place.core s.hart.place.pieces (r.addr - windowBase))

/-- A buffered store can be performed: its target can be reached, and holds no live barrier word; a release at sys finds the core
clean. -/
def commits (s : State) (r : StripRec) : Prop :=
  (match r.pin with
    | some pa => s.targetCheck s.hart.place.part s.hart.place.core r.addr pa (2 ^ r.size) .store false = .ok ()
    | none => r.addr % 2 ^ r.size = 0 ∧ windowBase ≤ r.addr ∧
        r.addr - windowBase + 2 ^ r.size ≤ s.hart.place.pieces.length * 65536) ∧
    s.liveWord (placeOf s r) = false ∧ (r.rel = some .sys → clean s)

/-- The words of a launch packet at a location, with the caller's partition in CTL [42:40] (R268, R312). -/
def packetAt (s : State) (l : Loc) (p : Fin 8) : List Word :=
  (List.range 8).map fun k =>
    let w := match l with | .phys a => Memory.readN s.mem (a + 8 * k) 8 | .spad i => Memory.readN s.spad (i + 8 * k) 8
    BitVec.ofNat 64 (if k = 6 then w % 2 ^ 40 + p.val * 2 ^ 40 + w / 2 ^ 43 * 2 ^ 43 else w)

/-- x[d] and c7 of an instruction that reports a status (R262, R268). -/
def reports (s t : State) (d : XReg) (v : Word) (c7 : Bool) : Prop :=
  t.x d = (if d = 0 then 0 else v) ∧ (∀ r, r ≠ d → t.x r = s.x r) ∧ t.c 7 = c7 ∧ (∀ r, r ≠ 7 → t.c r = s.c r) ∧ goesOn s t

/-- R261, R262: `bar.init` at an object's place completes with its status: 2 for no parties, 3 for a live object, 1 while the
partition holds 1,024 live ones, else 0 with CTL = LIVE and PARTIES, PHASE = 0, and the object live. -/
def BarrierInit : Prop :=
  ∀ (s : State) (d a b : XReg) (pa : Nat), Safety.Sound s → s.strip? = none → Claim.barrierAt s .store a pa →
    let u := s.drain
    let n := (s.x b).toNat % 2 ^ 32
    let full := 1024 ≤ (u.barriers.filter fun k => k.part = s.hart.place.part).length
    ∃ t, exec (.barInit d a b) s = .next t ∧
      t = { u with mem := t.mem, poison := t.poison, barriers := t.barriers, hart := { u.hart with
        x := t.hart.x, c := t.hart.c, pc := t.hart.pc, instret := t.hart.instret } } ∧
      (n = 0 → Claim.reports s t d 2 true ∧ t.mem = u.mem ∧ t.barriers = u.barriers) ∧
      (n ≠ 0 → Claim.live u pa → Claim.reports s t d 3 true ∧ t.mem = u.mem ∧ t.barriers = u.barriers) ∧
      (n ≠ 0 → ¬ Claim.live u pa → full → Claim.reports s t d 1 true ∧ t.mem = u.mem ∧ t.barriers = u.barriers) ∧
      (n ≠ 0 → ¬ Claim.live u pa → ¬ full → Claim.reports s t d 0 false ∧ Claim.onlyBytes u t pa 16 ∧
        Claim.ctl t pa = 2 ^ 32 + n ∧ Claim.phase t pa = 0 ∧ t.barriers = ⟨pa, s.hart.place.part⟩ :: u.barriers)

/-- R262: `bar.arrive` completes. At an object that is not live or is BROKEN x[d] := 0 and c7 := 1; else x[d] is the phase,
c7 := 0, and ARRIVED rises by one; the arrival that makes it PARTIES clears it and completes the phase. -/
def BarrierArrive : Prop :=
  ∀ (s : State) (d a : XReg) (sc : Scope) (pa : Nat), Safety.Sound s → s.strip? = none → Claim.barrierAt s .atomic a pa →
    Claim.sane s.drain (.phys pa) 16 → (sc = .sys → Claim.clean s.drain) →
    let u := s.drain
    let arrived := (Claim.phase u pa % 2 ^ 32 + 1) % 2 ^ 32
    let done := Claim.phase u pa / 2 ^ 32
    ∃ t, exec (.barArrive d a sc) s = .next t ∧
      t = { u with mem := t.mem, poison := t.poison, hart := { u.hart with
        x := t.hart.x, c := t.hart.c, pc := t.hart.pc, instret := t.hart.instret } } ∧
      (¬ Claim.live u pa ∨ Claim.broken u pa → Claim.reports s t d 0 true ∧ t.mem = u.mem) ∧
      (Claim.live u pa → ¬ Claim.broken u pa → Claim.reports s t d (BitVec.ofNat 64 done) false ∧
        Claim.onlyBytes u t (pa + 8) 8 ∧
        Claim.phase t pa = if arrived = Claim.ctl u pa % 2 ^ 32 then (done + 1) % 2 ^ 32 * 2 ^ 32
          else done * 2 ^ 32 + arrived)

/-- R262, R25: `bar.wait` at a live object whose PHASE is x[b] leaves the hart in MONITOR at the instruction; otherwise it
completes, with c7 set when the object is not live or is BROKEN, as an acquire at its scope (R108). -/
def BarrierWait : Prop :=
  ∀ (s : State) (a b : XReg) (sc : Scope) (pa : Nat), s.strip? = none → Claim.barrierAt s .load a pa →
    Claim.sane s.drain (.phys pa) 16 → (sc = .sys → Claim.clean s.drain) →
    let u := s.drain
    let gone := ¬ Claim.live u pa ∨ Claim.broken u pa
    ∃ t, exec (.barWait a b sc) s = .next t ∧
      (¬ gone → Claim.phase u pa / 2 ^ 32 = (s.x b).toNat % 2 ^ 32 →
        t = { u with hart := { u.hart with phase := .monitor, waiting := some (.phase sc (s.x a) (s.x b)) } }) ∧
      (gone ∨ Claim.phase u pa / 2 ^ 32 ≠ (s.x b).toNat % 2 ^ 32 →
        (t.c 7 = true ↔ gone) ∧ (sc = .sys → Claim.noCopies s t) ∧ (∀ r, r ≠ 7 → t.c r = s.c r) ∧ Claim.goesOn s t ∧ Claim.sameMemory u t ∧
        t = { u with rcache := t.rcache, hart := { u.hart with
          c := t.hart.c, pc := t.hart.pc, instret := t.hart.instret, phase := .active, waiting := none } })

/-- R262: `bar.fin` of a live object ends it: LIVE := 0 and the object is live no more; of one that is not live it has no
effect. Both complete. Every hart in MONITOR at the object completes its `bar.wait` with c7 set, at scope sys as an acquire. The
harts are told apart by their numbers. -/
def BarrierFinish : Prop :=
  ∀ (s : State) (a : XReg) (pa : Nat), Safety.Sound s → s.strip? = none → Claim.barrierAt s .store a pa →
    Claim.sane s.drain (.phys pa) 16 →
    s.hart.phase = .active → ((s.hart :: s.parked).map fun h => h.place.hid).Nodup →
    let u := s.drain
    let waits (h : Hart) : Prop := h.phase = .monitor ∧ u.waitsAt h pa = true
    (∀ h ∈ u.parked, waits h → ∀ addr val, h.waiting = some (.phase .sys addr val) → Claim.cleanOf u h) →
    ∃ t, exec (.barFin a) s = .next t ∧ Claim.goesOn s t ∧
      t = { u with mem := t.mem, poison := t.poison, rcache := t.rcache, barriers := t.barriers, parked := t.parked
                   hart := { u.hart with pc := t.hart.pc, instret := t.hart.instret } } ∧
      (¬ Claim.live u pa → t.mem = u.mem ∧ t.rcache = u.rcache ∧ t.barriers = u.barriers ∧ t.parked = u.parked) ∧
      (Claim.live u pa → ¬ Claim.live t pa ∧ (∀ b ∈ u.barriers, b.addr ≠ pa → b ∈ t.barriers) ∧ Claim.onlyBytes u t pa 8 ∧
        (∀ k, k ≠ 32 → (Claim.ctl t pa).testBit k = (Claim.ctl u pa).testBit k) ∧ (Claim.ctl t pa).testBit 32 = false ∧
        (∀ h ∈ u.parked, waits h → ∀ addr val, h.waiting = some (.phase .sys addr val) →
          ∀ k ∈ t.rcache, k.holder ≠ .core h.place.core ∧ k.holder ≠ cacOf h.place.core) ∧ (∀ k ∈ t.rcache, k ∈ u.rcache) ∧
        t.parked = u.parked.map fun h => if h.phase = .monitor ∧ u.waitsAt h pa = true then
          { h with phase := .active, waiting := none, c := h.c.set 7 true, instret := h.instret + 1
                   pc := h.pc + (if h.ipair then 8 else 4) } else h)

end Sys2Proof.Claim

/-- R31, R32, R264: `farm.def` starts a farm while none is live, with the hart joined and FARMID stepped, else joins the live
one; `farm.next` hands the next strip base to a joined hart until the extent is reached, then sets the no-strips bit; a hart
that has not joined gets c[N] := 1 with FBASE unchanged; `farm.end` leaves, and the last hart to leave ends the farm. All
complete. -/
def Obligations.Farms : Prop :=
  ∀ (s : State) (l : Launch), s.launchOf s.hart.place.launch = some l → s.strip? = none →
    let f := Claim.farmOf s
    let me := s.hart.place.hid
    (∀ r a, ∃ t, exec (.farmDef r a) s = .next t ∧ t.hart.farmid = (Claim.farmOf t).id ∧
      (∀ q, t.x q = s.x q) ∧ (∀ q, t.c q = s.c q) ∧ t.hart.fbase = s.hart.fbase ∧
      (f.live = false → Claim.farmStep s t { live := true, exhausted := false, counter := 0, extent := (s.x a).toNat
                                             strip := max 1 (s.x r).toNat, joined := [me], id := f.id + 1 }) ∧
      (f.live = true → me ∈ f.joined → Claim.farmStep s t f) ∧
      (f.live = true → me ∉ f.joined → Claim.farmStep s t { f with joined := f.joined ++ [me] })) ∧
    (∀ d n, ∃ t, exec (.farmNext d n) s = .next t ∧ t.x d = (if d = 0 then 0 else t.hart.fbase) ∧
      (∀ q, q ≠ d → t.x q = s.x q) ∧ (∀ q, q ≠ n → t.c q = s.c q) ∧ t.hart.farmid = s.hart.farmid ∧
      (f.live = false ∨ me ∉ f.joined → t.c n = true ∧ t.hart.fbase = s.hart.fbase ∧
        t.hart.noStrips = s.hart.noStrips ∧ Claim.farmStep s t f) ∧
      (f.live = true → me ∈ f.joined → f.exhausted = false → f.counter < f.extent →
        t.c n = false ∧ t.hart.fbase = BitVec.ofNat 64 f.counter ∧ t.hart.noStrips = false ∧
        Claim.farmStep s t { f with counter := min (f.counter + f.strip) (2 ^ 64 - 1) }) ∧
      (f.live = true → me ∈ f.joined → f.exhausted = true ∨ f.extent ≤ f.counter →
        t.c n = true ∧ t.hart.fbase = s.hart.fbase ∧ t.hart.noStrips = true ∧
        Claim.farmStep s t { f with exhausted := true })) ∧
    (∃ t, exec .farmEnd s = .next t ∧ (∀ q, t.x q = s.x q) ∧ (∀ q, t.c q = s.c q) ∧ t.hart.fbase = s.hart.fbase ∧
      t.hart.farmid = s.hart.farmid ∧
      let rest := f.joined.filter fun n => n ≠ me
      Claim.farmStep s t (if f.live = true ∧ rest = [] then { f with live := false, exhausted := false, joined := [] }
        else { f with joined := rest }))

/-- R265, R267: `sbegin` with no strip open opens one with its recovery address pc + 4 × offset and an empty buffer; `sabort`
discards the buffer without writing FFAULT; `scommit` performs the buffered stores in program order, each at its place, and
closes the strip; where an event stops it after some of them (R19, log 61), those are performed, and it stays at its address with the
rest. With no strip open `scommit` and `sabort` have no effect. All complete. -/
def Obligations.Strips : Prop :=
  ∀ s : State,
    (∀ o, s.hart.strip = none → ∃ t, exec (.sbegin o) s = .next t ∧ Claim.goesOn s t ∧
      t.hart.strip = some ⟨s.hart.pc + BitVec.ofInt 64 (4 * o), s.hart.priv.level, []⟩ ∧
      t = { s with hart := { s.hart with strip := t.hart.strip, pc := t.hart.pc, instret := t.hart.instret } }) ∧
    (∃ t, exec .sabort s = .next t ∧ Claim.goesOn s t ∧ (s.strip?.isSome → t.hart.strip = none) ∧
      (s.strip? = none → t.hart.strip = s.hart.strip) ∧
      t = { s with hart := { s.hart with strip := t.hart.strip, pc := t.hart.pc, instret := t.hart.instret } }) ∧
    (s.strip? = none → ∃ t, exec .scommit s = .next t ∧ Claim.goesOn s t ∧
      t = { s.drain with hart := { s.drain.hart with pc := t.hart.pc, instret := t.hart.instret } }) ∧
    (∀ st, s.strip? = some st → (∀ r ∈ st.recs, Claim.commits s.drain r) →
      let u := s.drain
      let n := s.hart.limit.getD st.recs.length
      let done := (st.recs.take n).foldl (fun v r => v.putLoc (Claim.placeOf u r) (2 ^ r.size) r.data r.half) u
      ∃ t, exec .scommit s = .next t ∧ t.mem = done.mem ∧ t.spad = done.spad ∧
        (st.recs.length ≤ n → t.hart.strip = none ∧ Claim.goesOn s t) ∧
        (n < st.recs.length → t.hart.strip = some { st with recs := st.recs.drop n } ∧ t.hart.pc = s.hart.pc ∧
          t.hart.instret = s.hart.instret) ∧
        t = { u with mem := t.mem, spad := t.spad, poison := t.poison, spadPoison := t.spadPoison, rcache := t.rcache, hart := { u.hart with
          strip := t.hart.strip, pc := t.hart.pc, instret := t.hart.instret } })

/-- R268: outside a strip, `launch` of a packet that can be read from HBM4 of this device or the window completes: x[d] is 2
for a queue number above 1,023 or a queue that is not the partition's, 1 for a full queue, both with c7 set and nothing
queued; else 0 with c7 clear, and the packet stands last in the queue with the caller's partition in it. -/
def Obligations.DeviceLaunch : Prop :=
  ∀ (s : State) (d a b : XReg) (l : Loc), s.strip? = none → s.drain.locate .load (s.x a).toNat 64 64 false = .ok l →
    (∀ pa, l = .phys pa → targetOf pa = .hbm) → Claim.sane s.drain l 64 →
    let u := s.drain
    let q := (s.x b).toNat
    ∃ t, exec (.launch d a b) s = .next t ∧ Claim.sameMemory u t ∧
      t = { u with queues := t.queues, hart := { u.hart with
        x := t.hart.x, c := t.hart.c, pc := t.hart.pc, instret := t.hart.instret } } ∧
      (1024 ≤ q ∨ u.queueOwner q ≠ some s.hart.place.part → Claim.reports s t d 2 true ∧ t.queues = u.queues) ∧
      (q < 1024 → u.queueOwner q = some s.hart.place.part →
        (64 ≤ (u.queue q).used → Claim.reports s t d 1 true ∧ t.queues = u.queues) ∧
        ((u.queue q).used < 64 → Claim.reports s t d 0 false ∧
          t.queue q = { u.queue q with packets := (u.queue q).packets ++ [Claim.packetAt u l s.hart.place.part]
                                       acc := (u.queue q).acc + 1 } ∧
          ∀ r, r ≠ q → t.queue r = u.queue r))

/-- R184, R185, R65 to R67: the arithmetic of majors 0x30 to 0x32 on two groups, a group and an x register, and fused. -/
def Obligations.VectorArithmetic : Prop :=
  ∀ (s u : State) (i : Instr) (rm : Option Rounding) (m : Rounding) (e : Claim.Elementwise),
    Claim.arithmetic s u m i = some (rm, e) → Claim.roundsBy s rm m → Claim.ready s u e.toOperands → Claim.performs s u i e

/-- R192 to R195: conversions, negation, absolute value, square root, the special functions, and bit streams. -/
def Obligations.VectorUnary : Prop :=
  ∀ (s u : State) (i : Instr) (rm : Option (Option Rounding)) (m : Rounding) (e : Claim.Elementwise),
    Claim.unaries s u m i = some (rm, e) → (∀ r, rm = some r → Claim.roundsBy s r m) → Claim.ready s u e.toOperands →
    Claim.performs s u i e

namespace Sys2Proof.Claim

open Sys2Proof.Machine

/-! ### Moves, permutations, scans (09 R188, R189) -/

/-- A value without flags. -/
def plain (v : Nat) : FRes := ⟨v, {}, false⟩

/-- A move whose one source and result share a tag: `acts` are the elements written. -/
def move (s : State) (d a : VNum) (masks : List MNum) (usesMask : Bool) (bad : Bool) (t : Tag) (acts : List Nat) (value : Nat → FRes) :
    Elementwise :=
  let ga := groupOf s a (tagOf s a)
  { srcs := [ga], dsts := [groupOf s d t], masks := masks, usesMask := usesMask, len := s.hart.vl
    faults := [tagOf s a == .none, bad], dst := groupOf s d t, tag := t, acts := acts, value := value }

/-- VLMAX (R44). -/
def vlmax (s : State) : Nat := 1024 * s.hart.ge * 2 ^ s.hart.vcfg.lgrp * 8 / tagBits s.hart.vcfg.tag

/-- `reg_gather` (R173): zero from VLMAX on. -/
def gathered (u : State) (g : Grp) (j : Nat) : Nat := if j < vlmax u then element u g j else 0

/-- The elements from VSI to VL − 1 that a mask selects. -/
def selected (u : State) (k : MNum) : List Nat :=
  (List.range u.hart.vl).filter fun i => decide (u.hart.vsi ≤ i) && maskBit u k i

/-- All elements from VSI to VL − 1. -/
def everyIn (u : State) : List Nat := (List.range u.hart.vl).filter fun i => decide (u.hart.vsi ≤ i)

/-- The largest j below a bound, from a list of indexes, that satisfies a condition. -/
def lastBelow (l : List Nat) (b : Nat) (p : Nat → Bool) : Option Nat := (l.filter fun j => decide (j < b) && p j).max?

/-- The running value of a segmented scan at the element k places behind VSI (R189). -/
def running (op : Nat → Nat → FRes) (x : Nat → Nat) (head : Nat → Bool) (vsi : Nat) : Nat → FRes
  | 0 => plain (x vsi)
  | k + 1 => if head (vsi + (k + 1)) then plain (x (vsi + (k + 1))) else op (running op x head vsi k).bits (x (vsi + (k + 1)))

/-- A segmented scan. -/
def scan (s u : State) (d a : VNum) (k : MNum) (op : Nat → Nat → FRes) : Elementwise :=
  let g := groupOf s a (tagOf s a)
  move s d a (governed k) (k.val != 0) (noScale s || tagOf s a == .sc8) (tagOf s a) (everyIn u) fun i =>
    running op (element u g) (fun j => k.val != 0 && maskBit u k j) u.hart.vsi (i - u.hart.vsi)

/-- The moves, permutations and scans of R188 and R189, with the rounding mode of those that have one. -/
def moves (s u : State) (m : Rounding) : Instr → Option (Option (Option Rounding) × Elementwise)
  | .vmv d a _ k =>
    let w := if tagOf s a = .none then s.hart.vcfg.tag else tagOf s a
    let ga := groupOf s a w
    some (none, { srcs := [ga], dsts := [groupOf s d w], masks := governed k, usesMask := k.val != 0, len := s.hart.vl, faults := []
                  dst := groupOf s d w, tag := tagOf s a, acts := activeIn u k, value := fun i => plain (element u ga i) })
  | .vmerge d a b _ _ k =>
    let ga := groupOf s a (tagOf s a)
    let gb := groupOf s b (tagOf s b)
    some (none, { srcs := [ga, gb], dsts := [groupOf s d (tagOf s a)], masks := [k], usesMask := true, len := s.hart.vl
                  faults := [tagOf s a == .none, tagOf s b == .none, tagOf s a != tagOf s b]
                  dst := groupOf s d (tagOf s a), tag := tagOf s a, acts := everyIn u
                  value := fun i => plain (if maskBit u k i then element u ga i else element u gb i) })
  | .vsplat d x k =>
    let t := s.hart.vcfg.tag
    some (none, { srcs := [], dsts := [groupOf s d t], masks := governed k, usesMask := k.val != 0, len := s.hart.vl, faults := []
                  dst := groupOf s d t, tag := t, acts := activeIn u k, value := fun _ => plain (s.x x).toNat })
  | .vid d k =>
    let t := s.hart.vcfg.tag
    some (none, { srcs := [], dsts := [groupOf s d t], masks := governed k, usesMask := k.val != 0, len := s.hart.vl
                  faults := [noScale s, !tagInt t], dst := groupOf s d t, tag := t, acts := activeIn u k, value := fun i => plain i })
  | .vslideup d a x _ k =>
    some (none, move s d a (governed k) (k.val != 0) false (tagOf s a) ((activeIn u k).filter fun i => decide ((s.x x).toNat ≤ i))
      fun i => plain (element u (groupOf s a (tagOf s a)) (i - (s.x x).toNat)))
  | .vslidedn d a x _ k =>
    some (none, move s d a (governed k) (k.val != 0) false (tagOf s a) (activeIn u k)
      fun i => plain (gathered u (groupOf s a (tagOf s a)) (i + (s.x x).toNat)))
  | .vslide1up d a x _ k =>
    some (none, move s d a (governed k) (k.val != 0) false (tagOf s a) (activeIn u k)
      fun i => plain (if i = 0 then (s.x x).toNat else element u (groupOf s a (tagOf s a)) (i - 1)))
  | .vslide1dn d a x _ k =>
    some (none, move s d a (governed k) (k.val != 0) false (tagOf s a) (activeIn u k)
      fun i => plain (if i + 1 = s.hart.vl then (s.x x).toNat else element u (groupOf s a (tagOf s a)) (i + 1)))
  | .vrgather d a b _ _ k =>
    let ta := tagOf s a
    let tb := tagOf s b
    let ga := groupOf s a ta
    let gb := groupOf s b tb
    some (none, { srcs := [ga, gb], dsts := [groupOf s d ta], masks := governed k, usesMask := k.val != 0, len := s.hart.vl
                  faults := [ta == .none, noElements tb, !tagInt tb, farApart (tagBits ta) (tagBits tb)]
                  dst := groupOf s d ta, tag := ta, acts := activeIn u k
                  value := fun i =>
                    let j := if tagSigned tb then (BitVec.ofNat (tagBits tb) (element u gb i)).toInt else element u gb i
                    plain (gathered u ga (BitVec.ofInt 64 j).toNat) })
  | .vcompress d a _ k =>
    let sel := selected u k
    some (none, move s d a [k] true false (tagOf s a) ((List.range sel.length).map fun j => u.hart.vsi + j)
      fun i => plain (element u (groupOf s a (tagOf s a)) (sel.getD (i - u.hart.vsi) 0)))
  | .vexpand d a _ k =>
    let sel := selected u k
    some (none, move s d a [k] true false (tagOf s a) sel
      fun i => plain (element u (groupOf s a (tagOf s a)) (u.hart.vsi + (sel.filter fun j => decide (j < i)).length)))
  | .vpfxpop d a =>
    let t := s.hart.vcfg.tag
    some (none, { srcs := [], dsts := [groupOf s d t], masks := [a], usesMask := true, len := s.hart.vl
                  faults := [noScale s, !tagInt t]
                  dst := groupOf s d t, tag := t, acts := everyIn u
                  value := fun i => plain ((selected u a).filter fun j => decide (j < i)).length })
  | .vconflict d a _ k =>
    let t := tagOf s a
    some (none, move s d a (governed k) (k.val != 0) (noScale s || !(t == .i32 || t == .ui32 || t == .i64 || t == .ui64))
      (if t = .ui32 then .i32 else if t = .ui64 then .i64 else t) (activeIn u k)
      fun i => plain (match lastBelow (activeIn u k) i fun j => element u (groupOf s a t) j == element u (groupOf s a t) i with
        | some j => j
        | none => 2 ^ tagBits t - 1))
  | .vscanSegAdd d a _ k rm => some (some rm, scan s u d a k (arithOp .add (tagOf s a) m false))
  | .vscanSegMin d a _ k rm => some (some rm, scan s u d a k (arithOp .min (tagOf s a) m false))
  | .vscanSegMax d a _ k rm => some (some rm, scan s u d a k (arithOp .max (tagOf s a) m false))
  | _ => none

/-! ### Masks (09 R186, R187) -/

/-- What an instruction that writes a mask needs and writes: bits of the elements in `acts`, their flags. -/
structure MaskResult extends Operands where
  dst   : MNum
  acts  : List Nat
  value : Nat → FRes

/-- A compare of two groups (R186). -/
def compareTwo (s u : State) (m : Rounding) (d : MNum) (a b : VNum) (mk : MNum) (k : CmpOp) : MaskResult :=
  let ta := tagOf s a
  let tb := tagOf s b
  let ga := groupOf s a ta
  let gb := groupOf s b tb
  let t := (promote ta tb).getD .none
  { srcs := [ga, gb], dsts := [], masks := governed mk, usesMask := true, len := s.hart.vl
    faults := [noScale s, noElements ta, noElements tb, (promote ta tb).isNone], dst := d, acts := activeIn u mk
    value := fun i => mixedOp ta tb t m (cmpOp k t) (element u ga i) (element u gb i) }

/-- A compare of a group with an x register (R186). -/
def compareScalar (s u : State) (d : MNum) (a : VNum) (x : XReg) (mk : MNum) (k : CmpOp) : MaskResult :=
  let t := tagOf s a
  let ga := groupOf s a t
  { srcs := [ga], dsts := [], masks := governed mk, usesMask := true, len := s.hart.vl, faults := [noScale s, noElements t], dst := d
    acts := activeIn u mk, value := fun i => cmpOp k t (element u ga i) ((s.x x).toNat % 2 ^ tagBits t) }

/-- A mask operation (R187): every position from VSI to VL − 1. -/
def maskForm (s u : State) (d : MNum) (srcs : List MNum) (f : Nat → Bool) : MaskResult :=
  { srcs := [], dsts := [], masks := srcs, usesMask := true, len := s.hart.vl, faults := [], dst := d, acts := everyIn u
    value := fun i => plain (f i).toNat }

/-- The compares of R186 and the mask operations of R187. -/
def maskResults (s u : State) (m : Rounding) : Instr → Option (Option (Option Rounding) × MaskResult)
  | .vcmpEq d a b _ _ k rm => some (some rm, compareTwo s u m d a b k .eq)
  | .vcmpNe d a b _ _ k rm => some (some rm, compareTwo s u m d a b k .ne)
  | .vcmpLt d a b _ _ k rm => some (some rm, compareTwo s u m d a b k .lt)
  | .vcmpLe d a b _ _ k rm => some (some rm, compareTwo s u m d a b k .le)
  | .vcmpEqX d a x _ k rm => some (some rm, compareScalar s u d a x k .eq)
  | .vcmpNeX d a x _ k rm => some (some rm, compareScalar s u d a x k .ne)
  | .vcmpLtX d a x _ k rm => some (some rm, compareScalar s u d a x k .lt)
  | .vcmpLeX d a x _ k rm => some (some rm, compareScalar s u d a x k .le)
  | .vcmpGtX d a x _ k rm => some (some rm, compareScalar s u d a x k .gt)
  | .vcmpGeX d a x _ k rm => some (some rm, compareScalar s u d a x k .ge)
  | .mand d a b => some (none, maskForm s u d [a, b] fun i => maskBit u a i && maskBit u b i)
  | .mor d a b => some (none, maskForm s u d [a, b] fun i => maskBit u a i || maskBit u b i)
  | .mxor d a b => some (none, maskForm s u d [a, b] fun i => maskBit u a i ^^ maskBit u b i)
  | .mandn d a b => some (none, maskForm s u d [a, b] fun i => maskBit u a i && !maskBit u b i)
  | .mnot d a => some (none, maskForm s u d [a] fun i => !maskBit u a i)
  | .msbf d a => some (none, maskForm s u d [a] fun i => (selected u a).all fun j => decide (i < j))
  | .msif d a => some (none, maskForm s u d [a] fun i => (selected u a).all fun j => decide (i ≤ j))
  | _ => none

/-! ### Reductions (03 R69, R70, 09 R190, R191) -/

/-- A node of the tree of R69: absent, or a value with the flags raised below it. An absent operand leaves the other
unchanged. -/
def join (op : Nat → Nat → FRes) : Option (Nat × Flags) → Option (Nat × Flags) → Option (Nat × Flags)
  | none, b => b
  | some a, none => some a
  | some (x, f), some (y, g) => some ((op x y).bits, orFlags (op x y).flags (orFlags f g))

/-- The tree of 2^k leaves from leaf i on. -/
def tree (op : Nat → Nat → FRes) (leaf : Nat → Option (Nat × Flags)) : Nat → Nat → Option (Nat × Flags)
  | 0, i => leaf i
  | k + 1, i => join op (tree op leaf k i) (tree op leaf k (i + 2 ^ k))

/-- The value of a tree reduction: the tree over the active elements, then the initial value (R190). -/
def treeValue (op : Nat → Nat → FRes) (leaf : Nat → Option (Nat × Flags)) (n : Nat) (init : FRes) : FRes :=
  match join op (tree op leaf (ceilLog2 n) 0) (some (init.bits, init.flags)) with
  | some (x, f) => ⟨x, f, false⟩
  | none => init

/-- A running sum in order (R70). -/
def sumInOrder (op : Nat → Nat → FRes) : List FRes → FRes → FRes
  | [], acc => acc
  | x :: xs, acc => let r := op acc.bits x.bits; sumInOrder op xs ⟨r.bits, orFlags r.flags (orFlags acc.flags x.flags), false⟩

/-- Element i of a group, converted from its tag to another. -/
def readAs (src dst : Tag) (m : Rounding) (u : State) (g : Grp) (i : Nat) : FRes := convElem src dst m (element u g i)

/-- What a reduction needs, and the value and flags that element 0 takes. -/
structure Reduction extends Operands where
  dst   : Grp
  tag   : Tag
  value : FRes

/-- A reduction of va with the initial value vb[0], in their promoted tag (R190, R191). -/
def reduction (s u : State) (m : Rounding) (d a b : VNum) (k : MNum) (floats ints ordered : Bool)
    (f : Tag → (Nat → FRes) → FRes → FRes) : Reduction :=
  let ta := tagOf s a
  let tb := tagOf s b
  let t := (promote ta tb).getD .none
  let ga := groupOf s a ta
  let gb := groupOf s b tb
  let gd := groupOf s d t
  { srcs := [ga, gb], dsts := [gd], masks := governed k, usesMask := k.val != 0, len := s.hart.vl
    faults := [noScale s, noElements ta, noElements tb, (promote ta tb).isNone, !(tagFloat t && floats || tagInt t && ints),
      ordered && decide (gd.base < ga.base + ga.n) && decide (ga.base < gd.base + gd.n)]
    dst := gd, tag := t
    value := f t (fun i => convElem ta t m (element u ga i))
      (if ordered && u.hart.vsi != 0 then plain (element u gd 0) else convElem tb t m (element u gb 0)) }

/-- A tree reduction (R69): elements below VSI and inactive ones are absent. -/
def treeForm (s u : State) (m : Rounding) (d a b : VNum) (k : MNum) (floats : Bool) (op : ArithOp) : Reduction :=
  reduction s u m d a b k floats true false fun t x init =>
    treeValue (arithOp op t m false) (fun i => if i ∈ activeIn u k then some ((x i).bits, (x i).flags) else none) s.hart.vl init

/-- The reductions of R190 and R191. -/
def reductions (s u : State) (m : Rounding) : Instr → Option (Option Rounding × Reduction)
  | .vredAdd d a b _ _ k rm => some (rm, treeForm s u m d a b k true .add)
  | .vredMin d a b _ _ k rm => some (rm, treeForm s u m d a b k true .min)
  | .vredMax d a b _ _ k rm => some (rm, treeForm s u m d a b k true .max)
  | .vredAnd d a b _ _ k rm => some (rm, treeForm s u m d a b k false .and)
  | .vredOr d a b _ _ k rm => some (rm, treeForm s u m d a b k false .or)
  | .vredXor d a b _ _ k rm => some (rm, treeForm s u m d a b k false .xor)
  | .vfredOrd d a b _ _ k rm => some (rm, reduction s u m d a b k true false true fun t x init =>
      sumInOrder (arithOp .add t m false) ((activeIn u k).map x) init)
  | _ => none

/-- R190, R191, R69, R70: a reduction completes: element 0 of the destination takes the reduction of the active elements from
VSI on with the initial value, in the promoted tag, and every other element is as before; with VSI at VL or above nothing is
written (DESIGN CHOICE, log 64). Where an event stops `vfred.ord` after n active elements, with another one, k, left (R19, R191,
log 61), it stays at its address with the running sum in element 0 and VSI = k. -/
def VectorReductions : Prop :=
  ∀ (s u : State) (i : Instr) (rm : Option Rounding) (m : Rounding) (e : Claim.Reduction),
    Claim.reductions s u m i = some (rm, e) → Claim.roundsBy s rm m → s.hart.vl ≤ 2 ^ 32 → Claim.ready s u e.toOperands →
    ((∃ d a b p q k r, i = .vfredOrd d a b p q k r) → s.hart.limit = none) →
    ∃ t, exec i s = .next t ∧ Claim.vectorDone s u t e.srcs ∧ t.hart.x = u.hart.x ∧ t.hart.m = u.hart.m ∧ t.hart.e = u.hart.e ∧
      (s.hart.vsi < s.hart.vl → Claim.wroteElements u t e.dst e.tag [0] (fun _ => e.value.bits) ∧
        Claim.raised u t e.value.flags false) ∧
      (s.hart.vl ≤ s.hart.vsi → t.hart.v = u.hart.v ∧ t.hart.fcsr = u.hart.fcsr)

/-- R191, R19: the stop of `vfred.ord`. -/
def OrderedSumStops : Prop :=
  ∀ (s u : State) (d a b : VNum) (p q : Bool) (k : MNum) (rm : Option Rounding) (m : Rounding) (e : Claim.Reduction) (n j : Nat),
    Claim.reductions s u m (.vfredOrd d a b p q k rm) = some (rm, e) → Claim.roundsBy s rm m → Claim.ready s u e.toOperands →
    s.hart.limit = some n → (Claim.activeIn u k)[n]? = some j → j ≠ s.hart.vsi →
    let ta := Claim.tagOf s a
    let first := Claim.readAs ta e.tag m u (Claim.groupOf s a ta)
    let start : FRes := if u.hart.vsi ≠ 0 then Claim.plain (Claim.element u e.dst 0)
      else convElem (Claim.tagOf s b) e.tag m (Claim.element u (Claim.groupOf s b (Claim.tagOf s b)) 0)
    let sum := Claim.sumInOrder (arithOp .add e.tag m false) (((Claim.activeIn u k).take n).map first) start
    ∃ t, exec (.vfredOrd d a b p q k rm) s = .next t ∧ Claim.wroteElements u t e.dst e.tag [0] (fun _ => sum.bits) ∧
      Claim.raised u t sum.flags false ∧ t.hart.vsi = j ∧ t.hart.pc = s.hart.pc ∧ t.hart.instret = s.hart.instret ∧
      t = { u with hart := { u.hart with v := t.hart.v, fcsr := t.hart.fcsr, vsi := t.hart.vsi } }

end Sys2Proof.Claim

/-- R188, R189, R173: moves, slides, gathers, compress, expand, running counts, conflicts and segmented scans. All sources are
read as they stood before. -/
def Obligations.VectorMoves : Prop :=
  ∀ (s u : State) (i : Instr) (rm : Option (Option Rounding)) (m : Rounding) (e : Claim.Elementwise),
    Claim.moves s u m i = some (rm, e) → (∀ r, rm = some r → Claim.roundsBy s r m) → Claim.ready s u e.toOperands →
    Claim.performs s u i e

/-- R186, R187: the compares and the mask operations complete: the bits of the elements named take their values, every other
bit of the destination and every other mask is as before; a compare raises its flags, and writes nothing with VSI at VL or
above. -/
def Obligations.VectorMasks : Prop :=
  ∀ (s u : State) (i : Instr) (rm : Option (Option Rounding)) (m : Rounding) (e : Claim.MaskResult),
    Claim.maskResults s u m i = some (rm, e) → (∀ r, rm = some r → Claim.roundsBy s r m) → Claim.ready s u e.toOperands →
    ∃ t, exec i s = .next t ∧ Claim.vectorDone s u t e.srcs ∧ t.hart.x = u.hart.x ∧ t.hart.v = u.hart.v ∧ t.hart.e = u.hart.e ∧
      (∀ j ∈ e.acts, Claim.maskBit t e.dst j = decide ((e.value j).bits ≠ 0)) ∧
      (∀ j, j ∉ e.acts → Claim.maskBit t e.dst j = Claim.maskBit u e.dst j) ∧
      (∀ k : MNum, k ≠ e.dst → t.hart.m[k.val] = u.hart.m[k.val]) ∧
      Claim.raised u t (Claim.allFlags e.acts e.value) false

namespace Sys2Proof.Claim

open Sys2Proof.Machine

/-! ### The vector length and tags (08 R158, R160) -/

/-- What a hart with a smaller G keeps (R30, R35): each group of the size in VCFG keeps the elements that its smaller storage
holds, where the group's layout then puts them (DEDUCED, log 63); a mask keeps its low bits. -/
def sliced (h : Hart) (ge : Nat) (v : Vector VReg 32) (m : Vector MReg 8) : Prop :=
  let g := 2 ^ h.vcfg.lgrp
  (∀ r : VNum, v[r.val] = { h.v[r.val] with bits := v[r.val].bits } ∧ ∀ j, v[r.val].bits.testBit j =
    (let p := r.val % g * (8192 * ge) + j
     let old := (h.v[(r.val / g * g + p / (8192 * h.ge)) % 32]?.getD {}).bits
     decide (j < 8192 * ge) && old.testBit (p % (8192 * h.ge)))) ∧
    ∀ k : MNum, m[k.val] = { h.m[k.val] with bits := h.m[k.val].bits % 2 ^ (1024 * ge) }

/-- What `setvl` writes beside the grant (R158): VCFG, VL and x[d] from the G it leaves; VSI is 0. -/
def configured (s t : State) (hold : Bool) (d a : XReg) (w : Tag) (g : Fin 4) : Prop :=
  let most := 1024 * t.hart.ge * 2 ^ g.val * 8 / tagBits w
  t.hart.vcfg = ⟨w, g.val, hold⟩ ∧ t.hart.vl = (if a = 0 then most else min (s.x a).toNat most) ∧ t.hart.vsi = 0 ∧
    t.x d = (if d = 0 then 0 else BitVec.ofNat 64 t.hart.vl) ∧ (∀ r, r ≠ d → t.x r = s.x r) ∧ goesOn s t ∧ sameMemory s t ∧
    t = { s with hart := { s.hart with
      x := t.hart.x, vcfg := t.hart.vcfg, vl := t.hart.vl, vsi := 0, pc := t.hart.pc, instret := t.hart.instret
      ge := t.hart.ge, v := t.hart.v, m := t.hart.m, place := t.hart.place, reclaim := t.hart.reclaim, pend21 := t.hart.pend21 } }

/-- Every fibre of the hart holds at most FCAP entries at a grant (R30, R44). -/
def fibresFit (h : Hart) (ge : Nat) : Prop := ∀ q ∈ h.q.toList, q.entries.length ≤ 128 * ge

/-- G after a `setvl` under a grant (R29, R30, R303): it rises to the grant under VLCAP; the plain form lowers it to that when
the fibres fit; else it falls no further than the grant. -/
def follows (h t : Hart) (hold : Bool) (grant : Nat) : Prop :=
  let goal := min grant h.priv.vlcap
  (h.ge ≤ goal → t.ge = goal ∧ t.v = h.v ∧ t.m = h.m) ∧
    (goal < h.ge → hold = false → fibresFit h goal → t.ge = goal ∧ sliced h goal t.v t.m) ∧
    (goal < h.ge → hold = true ∨ ¬ fibresFit h goal → t.ge = min h.ge grant ∧ sliced h (min h.ge grant) t.v t.m)

/-- A trap that an instruction takes at a state. -/
def traps (i : Instr) (s u : State) (k : Trap) : Prop := exec i s = .next (u.takeTrap k)

/-! ### Words of a transfer (08 R161 to R163) -/

/-- Where a checked address lies. -/
def lies (u : State) (k : Access) (n : Nat) (cached : Bool) (a : Word) : Loc :=
  match u.locate k a.toNat n n cached with
  | .ok l => l
  | .error _ => .spad 0

/-- The n bytes at an address can be read. -/
def loadable (u : State) (n : Nat) (a : Word) : Prop := ∃ l, u.locate .load a.toNat n n true = .ok l ∧ readable u l n

/-- The n bytes at an address fail: a check does, or uncorrectable data stands there, not at another device. -/
def fails (u : State) (n : Nat) (a : Word) : Prop :=
  (∀ l, u.locate .load a.toNat n n true ≠ .ok l) ∨
    ∃ l, u.locate .load a.toNat n n true = .ok l ∧ ¬ readable u l n ∧ ∀ b, l = .phys b → ∀ d o, targetOf b ≠ .remote d o

/-- The n bytes at an address can be written: the checks pass, and outside a strip no live barrier word stands there. -/
def storable (u : State) (n : Nat) (cached : Bool) (a : Word) : Prop :=
  ∃ l, u.locate .store a.toNat n n cached = .ok l ∧ (u.strip? = none → u.liveWord l = false)

/-- What a load reads at an address: each byte as the hart sees it, under the open strip's own (R106, R80, R95). -/
def wordAt (u : State) (n : Nat) (a : Word) : Nat :=
  let l := lies u .load n true a
  (List.range n).foldr (fun k v => (ownByte u.strip? l a.toNat k
    (seen (near u l) u.hart.place.core u.hart.place.hid (plus l k))).toNat + 256 * v) 0

/-- The state in which some accesses find their locations, one after another (R95, DEDUCED, log 10). -/
def nearAll (u : State) (ls : List Loc) : State := ls.foldl near u

/-- One word of a store: its address, place, size, value, the half of a byte that it is, and whether it is written through. -/
structure Write where
  va      : Word
  loc     : Loc
  n       : Nat
  v       : Nat
  half    : Option Bool := none
  through : Bool := false

/-- The byte that a write brings to a location. -/
def Write.byte (w : Write) (m : Loc) : Option Byte :=
  ((List.range w.n).find? fun k => plus w.loc k == m).map fun k => BitVec.ofNat 8 (w.v >>> (8 * k))

/-- A location's byte after some writes, in their order. -/
def rewritten (ws : List Write) (m : Loc) (b : Byte) : Byte :=
  ws.foldl (fun b w => match w.byte m with | some x => mergeHalf b x w.half | none => b) b

/-- Some writes have been made, from a state `u`. In a strip they stand last in its buffer, in their order (R265), and nothing
else. Outside a strip: the hart sees the rewritten byte at every place; the other harts see it at every place that is on no other
device, and see a byte that no write covers as before; memory's own bytes change where a write covers them on this device or in host
memory, or goes through, and then have what the hart sees. -/
def storedAll (u t : State) (ws : List Write) : Prop :=
  let r := ws.foldl (fun r w => if w.through then r else near r w.loc) u
  let h := u.hart.place.hid
  (u.strip? = none →
    (∀ core m, seen t core h m = rewritten ws m (seen r core h m)) ∧
    (∀ core hid m, ¬ faraway m → seen t core hid m = rewritten ws m (seen r core hid m)) ∧
    (∀ core hid m, (∀ w ∈ ws, (w.byte m).isSome → w.through = false) ∧ hid ≠ h ∧ faraway m ∨ (∀ w ∈ ws, w.byte m = none) →
      seen t core hid m = seen r core hid m) ∧
    (∀ b, (∀ w ∈ ws, (w.byte (.phys b)).isSome → w.through = false ∧ faraway (.phys b)) → Memory.read t.mem b = Memory.read r.mem b) ∧
    (∀ b core, ∀ w ∈ ws, (w.byte (.phys b)).isSome → w.through = true →
      mergeHalf (Memory.read t.mem b) (seen t core h (.phys b)) w.half = Memory.read t.mem b) ∧
    (∀ b, (∀ w ∈ ws, w.byte (.spad b) = none) → Memory.read t.spad b = Memory.read r.spad b) ∧ t.hart.strip = u.hart.strip) ∧
  (∀ st, u.strip? = some st → sameMemory u t ∧ t.rcache = u.rcache ∧ t.poison = u.poison ∧ t.spadPoison = u.spadPoison ∧
    ∃ new, t.hart.strip = some { st with recs := st.recs ++ new } ∧
      new.map (fun r => (r.addr, 2 ^ r.size, r.rel, r.data, r.half, r.pin)) = ws.map fun w =>
        (w.va.toNat, w.n, none, w.v % 2 ^ (8 * w.n), w.half, match w.loc with | .phys a => some a | .spad _ => none))

/-- An open strip's buffer of 64 KiB holds some writes (R33). -/
def roomFor (u : State) (ws : List Write) : Prop :=
  ∀ st, u.strip? = some st → (st.recs.map fun k => 2 ^ k.size).sum + (ws.map Write.n).sum ≤ 65536

/-- Bytes of an element access; an fp4 element is accessed as its byte (R161). -/
def accessBytes (s : State) : Nat := max 1 (tagBits s.hart.vcfg.tag / 8)

/-- The elements from VSI to N − 1 that a mask leaves active (R162). -/
def activeTo (u : State) (k : MNum) (n : Nat) : List Nat :=
  (List.range n).filter fun i => decide (u.hart.vsi ≤ i) && (k.val == 0 || u.hart.m[k.val].bits.testBit i)

/-- A vector transfer: its operands, its data groups by field, the elements that move, the records a load reads, the
addresses of an element's words, and what a field's element takes or gives. -/
structure Transfer extends Operands where
  groups : List Grp
  acts   : List Nat
  reads  : List Nat
  addr   : Nat → List Word
  value  : Nat → Nat → Nat

/-- The group of a register for the elements of VCFG.TAG (R161). -/
def dataGroup (s : State) (r : VNum) : Grp := groupOf s r s.hart.vcfg.tag

/-- The groups of nf fields (R171). -/
def fieldGroups (s : State) (r : VNum) (nf : Nat) : List Grp :=
  (List.range nf).map fun f => ⟨r.val + f * 2 ^ s.hart.vcfg.lgrp, 2 ^ s.hart.vcfg.lgrp, tagBits s.hart.vcfg.tag⟩

/-- The index group of a register, and its conditions (R169). -/
def indexGroup (s : State) (i : VNum) : Grp := groupOf s i (tagOf s i)

/-- Two groups share a register. -/
def meets (g k : Grp) : Bool := decide (g.base < k.base + k.n) && decide (k.base < g.base + g.n)

/-- R169's conditions beside the destination groups. -/
def indexFaults (s : State) (i : VNum) (dsts : List Grp) : List Bool :=
  [s.hart.vcfg.tag == .fp4, noElements (tagOf s i), !tagInt (tagOf s i),
    farApart (tagBits (tagOf s i)) (tagBits s.hart.vcfg.tag), dsts.any (meets (indexGroup s i))]

/-- idx(e) (R169): extended by class. -/
def index (s u : State) (i : VNum) (e : Nat) : Int :=
  let x := element u (indexGroup s i) e
  if tagSigned (tagOf s i) then (BitVec.ofNat (tagBits (tagOf s i)) x).toInt else x

/-- element_address of the unit-stride, strided, indexed, segment and 2-D forms. -/
def unitAddress (s : State) (a : XReg) (e : Nat) : Word := s.x a + BitVec.ofNat 64 (e * tagBits s.hart.vcfg.tag / 8)
/-- R167. -/
def strideAddress (s : State) (a r : XReg) (e : Nat) : Word := s.x a + BitVec.ofNat 64 e * s.x r
/-- R169. -/
def indexAddress (s u : State) (a : XReg) (i : VNum) (e : Nat) : Word :=
  s.x a + BitVec.ofInt 64 (index s u i e * (tagBits s.hart.vcfg.tag / 8 : Nat))
/-- R171. -/
def recordAddress (s : State) (a : XReg) (nf e : Nat) : List Word := (List.range nf).map fun f => unitAddress s a (e * nf + f)
/-- R174. -/
def planeAddress (s : State) (a : XReg) (e : Nat) : Word :=
  s.x a + BitVec.ofNat 64 (e / s.hart.vl) * s.hart.pitch + BitVec.ofNat 64 (e % s.hart.vl * tagBits s.hart.vcfg.tag / 8)

/-- R166, R174. -/
def planeFaults (s : State) : List Bool :=
  [s.hart.vcfg.tag == .fp4 && (s.hart.vl % 2 != 0 || s.hart.pitch.toNat % 2 != 0), decide (vlmax s < s.hart.rows * s.hart.vl)]

/-- A transfer of N elements under a mask. -/
def transfer (u : State) (groups idx : List Grp) (load : Bool) (k : MNum) (n : Nat) (faults : List Bool) (addr : Nat → List Word)
    (value : Nat → Nat → Nat) : Transfer :=
  { srcs := if load then idx else groups ++ idx, dsts := if load then groups else [], masks := governed k, usesMask := k.val != 0
    len := n, faults := faults, groups := groups, acts := activeTo u k n, reads := activeTo u k n, addr := addr, value := value }

/-- What a load gives field f of element e: its word, or the half of the byte that an fp4 element is (R94). -/
def loaded (s u : State) (addr : Nat → List Word) (e f : Nat) : Nat :=
  let v := wordAt u (accessBytes s) ((addr e).getD f 0)
  if s.hart.vcfg.tag = .fp4 then v / 16 ^ (e % 2) % 16 else v

/-- A plain load. -/
def loadOf (s u : State) (groups idx : List Grp) (k : MNum) (n : Nat) (faults : List Bool) (addr : Nat → List Word) : Transfer :=
  transfer u groups idx true k n faults addr (loaded s u addr)

/-- `reg_gather` of a permuted load (R172, R173): a staged record, the destination's own tail, zero. -/
def staged (s u : State) (i : VNum) (g : Grp) (addr : Nat → List Word) (e f : Nat) : Nat :=
  let j := index s u i e
  if j < 0 then 0 else if j.toNat < s.hart.vl ∧ j.toNat < vlmax u then wordAt u (accessBytes s) ((addr j.toNat).getD f 0)
  else gathered u g j.toNat

/-- The loads of majors 0x21 to 0x24. -/
def loads (s u : State) : Instr → Option Transfer
  | .vld d a _ k _ => some (loadOf s u [dataGroup s d] [] k s.hart.vl [] fun e => [unitAddress s a e])
  | .vldff d a k _ => some (loadOf s u [dataGroup s d] [] k s.hart.vl [s.hart.vcfg.tag == .fp4] fun e => [unitAddress s a e])
  | .vlds d a r _ k _ => some (loadOf s u [dataGroup s d] [] k s.hart.vl [s.hart.vcfg.tag == .fp4] fun e => [strideAddress s a r e])
  | .vldx d a i _ _ k _ | .vldxFar d a i _ _ k _ =>
    some (loadOf s u [dataGroup s d] [indexGroup s i] k s.hart.vl (indexFaults s i [dataGroup s d]) fun e => [indexAddress s u a i e])
  | .vldseg d a _ k n _ =>
    some (loadOf s u (fieldGroups s d (n.val + 1)) [] k s.hart.vl
      [s.hart.vcfg.tag == .fp4, decide (32 < d.val + (n.val + 1) * 2 ^ s.hart.vcfg.lgrp)] (recordAddress s a (n.val + 1)))
  | .vldsegP d a i _ k n _ =>
    let gs := fieldGroups s d (n.val + 1)
    some { transfer u gs [indexGroup s i] true k s.hart.vl
             (indexFaults s i gs ++ [decide (32 < d.val + (n.val + 1) * 2 ^ s.hart.vcfg.lgrp), s.hart.vsi != 0])
             (recordAddress s a (n.val + 1)) (fun e f => staged s u i (gs.getD f ⟨0, 1, 8⟩) (recordAddress s a (n.val + 1)) e f) with
           reads := List.range s.hart.vl }
  | .vld2 d a _ k _ =>
    some (loadOf s u [dataGroup s d] [] k (s.hart.rows * s.hart.vl) (planeFaults s) fun e => [planeAddress s a e])
  | _ => none

/-- A store of the elements of its groups. -/
def storeOf (u : State) (groups idx : List Grp) (k : MNum) (n : Nat) (faults : List Bool) (addr : Nat → List Word) : Transfer :=
  transfer u groups idx false k n faults addr fun e f => element u (groups.getD f ⟨0, 1, 8⟩) e

/-- The stores of majors 0x21 to 0x24, and whether they are unordered. -/
def stores (s u : State) : Instr → Option (Bool × Transfer)
  | .vst d a o k => some (!o, storeOf u [dataGroup s d] [] k s.hart.vl [] fun e => [unitAddress s a e])
  | .vsts d a r o k => some (!o, storeOf u [dataGroup s d] [] k s.hart.vl [s.hart.vcfg.tag == .fp4] fun e => [strideAddress s a r e])
  | .vstx d a i _ o k | .vstxFar d a i _ o k =>
    some (!o, storeOf u [dataGroup s d] [indexGroup s i] k s.hart.vl (indexFaults s i []) fun e => [indexAddress s u a i e])
  | .vstseg d a o k n =>
    some (!o, storeOf u (fieldGroups s d (n.val + 1)) [] k s.hart.vl
      [s.hart.vcfg.tag == .fp4, decide (32 < d.val + (n.val + 1) * 2 ^ s.hart.vcfg.lgrp)] (recordAddress s a (n.val + 1)))
  | .vstsegP d a i _ o k n =>
    let gs := fieldGroups s d (n.val + 1)
    some (!o, transfer u gs [indexGroup s i] false k s.hart.vl
      (indexFaults s i [] ++ [decide (32 < d.val + (n.val + 1) * 2 ^ s.hart.vcfg.lgrp)]) (recordAddress s a (n.val + 1))
      fun e f => let j := index s u i e; if j < 0 then 0 else gathered u (gs.getD f ⟨0, 1, 8⟩) j.toNat)
  | .vst2 d a o k =>
    some (!o, storeOf u [dataGroup s d] [] k (s.hart.rows * s.hart.vl) (planeFaults s) fun e => [planeAddress s a e])
  | _ => none

/-- The words of a store in order: the fields of the active elements. An fp4 element is one half of its byte (R94). -/
def writes (s u : State) (unord : Bool) (e : Transfer) : List Write :=
  e.acts.flatMap fun i => (List.range e.groups.length).map fun f =>
    let a := (e.addr i).getD f 0
    let n := accessBytes s
    let v := e.value i f
    if s.hart.vcfg.tag = .fp4 then ⟨a, lies u .store n unord a, n, v * 17, some (i % 2 == 1), !unord⟩
    else ⟨a, lies u .store n unord a, n, v, none, !unord⟩

/-- The elements of some groups are written, group f with the values of field f; the groups take a tag; every other element
and register is as before. -/
def wroteFields (u t : State) (gs : List Grp) (tag : Tag) (acts : List Nat) (value : Nat → Nat → Nat) : Prop :=
  (∀ f g, gs[f]? = some g → (∀ i ∈ acts, within u g i → element t g i = value i f % 2 ^ g.bits) ∧
    (∀ i, i ∉ acts → within u g i → element t g i = element u g i)) ∧
  ∀ r : VNum, if ∃ g ∈ gs, g.base ≤ r.val ∧ r.val < g.base + g.n then t.hart.v[r.val].tag = tag else t.hart.v[r.val] = u.hart.v[r.val]

/-- One element of a group is written, and no tag. -/
def wroteElement (u t : State) (g : Grp) (i v : Nat) : Prop :=
  (within u g i → element t g i = v % 2 ^ g.bits) ∧ (∀ j, j ≠ i → within u g j → element t g j = element u g j) ∧
    ∀ r : VNum, t.hart.v[r.val].tag = u.hart.v[r.val].tag ∧
      (¬ (g.base ≤ r.val ∧ r.val < g.base + g.n) → t.hart.v[r.val] = u.hart.v[r.val])

/-! ### Exact accumulators (03 R72, R73, 09 R196 to R198) -/

/-- What a finite term adds to A. -/
def addend : FVal → Int
  | .fin neg m e => scaledInt neg m e (-2148)
  | _ => 0

/-- The terms of a list added to an accumulator (R72): A modulo 2^4352, and within its 4,352 bits if it was; the sticky
bits. -/
def accumulated (k k' : EReg) (l : List FVal) : Prop :=
  (∃ q : Int, k'.a = k.a + (l.map addend).sum + q * 2 ^ 4352) ∧
    (-2 ^ 4351 ≤ k.a ∧ k.a < 2 ^ 4351 → -2 ^ 4351 ≤ k'.a ∧ k'.a < 2 ^ 4351) ∧
    k'.nan = (k.nan || l.any FVal.isNan) ∧ k'.pinf = (k.pinf || l.any (· == .inf false)) ∧
    k'.ninf = (k.ninf || l.any (· == .inf true)) ∧ k'.poison = k.poison

/-- The read-out of R73. -/
def readOut (k : EReg) (f : Fmt) (m : Rounding) : FRes :=
  match k.nan, k.pinf, k.ninf with
  | true, _, _ => plain f.nanBits
  | false, true, true => ⟨f.nanBits, { nv := true }, false⟩
  | false, true, false => plain (f.infBits false)
  | false, false, true => plain (f.infBits true)
  | false, false, false => if k.a = 0 then plain 0 else f.finResult m false (decide (k.a < 0)) k.a.natAbs (-2148)

/-- The value of an element of a floating tag. -/
def valueOf (t : Tag) (x : Nat) : FVal := match tagFmt t with | some f => f.value x | none => .fin false 0 0

/-- The two accumulating instructions: operands, accumulator, terms (R196). -/
def summed (s u : State) : Instr → Option (Operands × ENum × List FVal)
  | .xaAddv e a _ k =>
    let ta := tagOf s a
    let ga := groupOf s a ta
    some ({ srcs := [ga], dsts := [], masks := governed k, usesMask := k.val != 0, len := s.hart.vl
            faults := [noScale s, noElements ta, !tagFloat ta] }, e,
      (activeIn u k).map fun i => valueOf ta (element u ga i))
  | .xaDot e a b _ _ k =>
    let ta := tagOf s a
    let tb := tagOf s b
    let ga := groupOf s a ta
    let gb := groupOf s b tb
    some ({ srcs := [ga, gb], dsts := [], masks := governed k, usesMask := k.val != 0, len := s.hart.vl
            faults := [noScale s, noElements ta, noElements tb, !tagFloat ta, !tagFloat tb] }, e,
      (activeIn u k).map fun i => (valueOf ta (element u ga i)).times (valueOf tb (element u gb i)))
  | _ => none

/-- Whether terms raise NV (R72): a signalling NaN, or ∞ × 0. -/
def invalid (l : List FVal) : Bool := l.any FVal.isSig

/-- Only the accumulator e of the hart may differ. -/
def onlyAcc (u t : State) (e : ENum) : Prop := ∀ k : ENum, k ≠ e → t.hart.e[k.val] = u.hart.e[k.val]

/-- The address of word k of an image, and byte j of the image (R40). -/
def imageAddr (s : State) (a : XReg) (k : Nat) : Word := s.x a + BitVec.ofNat 64 (8 * k)
/-- The image of an accumulator. -/
def imageOf (k : EReg) : Nat := (k.a % 2 ^ 4352).toNat + (k.nan.toNat + k.pinf.toNat * 2 + k.ninf.toNat * 4) * 2 ^ 4352

/-- The instructions of R187 and R199 that give an x register: operands, register, value, whether VSI becomes 0. -/
def toScalar (s u : State) : Instr → Option (Operands × XReg × Word × Bool)
  | .mpopc d a k =>
    some ({ srcs := [], dsts := [], masks := a :: governed k, usesMask := true, len := s.hart.vl, faults := [] }, d,
      BitVec.ofNat 64 ((activeIn u k).filter (maskBit u a)).length, true)
  | .mfirst d a k =>
    some ({ srcs := [], dsts := [], masks := a :: governed k, usesMask := true, len := s.hart.vl, faults := [] }, d,
      (match ((activeIn u k).filter (maskBit u a)).min? with | some i => BitVec.ofNat 64 i | none => -1), true)
  | .vmvXv d a b _ =>
    let t := tagOf s a
    let v := gathered u (groupOf s a t) (s.x b).toNat
    some ({ srcs := [groupOf s a t], dsts := [], masks := [], usesMask := false, len := 0, faults := [t == .none] }, d,
      (if tagSigned t then (BitVec.ofNat (tagBits t) v).signExtend 64 else BitVec.ofNat 64 v), false)
  | _ => none

/-- R160, R36: `vtag` and `vtagr` with a defined code, on a group whose base is a multiple of its size and that no binding
overlaps, complete: every register of the group takes the tag and keeps its bytes; nothing else changes. -/
def TagsSet : Prop :=
  ∀ (s : State) (i : Instr) (d : VNum) (w : Tag),
    (i = .vtag d w ∨ ∃ b, i = .vtagr d b ∧ Tag.ofCode ((s.x b).toNat % 32) = some w) →
    let g : Grp := ⟨d.val, 2 ^ s.hart.vcfg.lgrp, 8⟩
    g.n ≤ 8 → d.val % g.n = 0 → s.boundBy [g] = [] →
    ∃ t, exec i s = .next t ∧ Claim.wroteElements s t g w [] (fun _ => 0) ∧ Claim.goesOn s t ∧ Claim.sameMemory s t ∧
      t = { s with hart := { s.hart with v := t.hart.v, pc := t.hart.pc, instret := t.hart.instret } }

/-- R160, R175, R383: where the instructions of tags and bindings trap: a base that is no multiple of its group (reason 1); a code
of `vtagr` that is reserved, and bindings while VCFG.TAG is none (reason 2); `vsbind` of fp4 (reason 3); a tag on a group that is bound,
the lowest such stream named (DESIGN CHOICE, log 34). -/
def TagTraps : Prop :=
  ∀ (s : State) (d : VNum),
    let g : Grp := ⟨d.val, 2 ^ s.hart.vcfg.lgrp, 8⟩
    let u := s.drain
    let reason (q : State) (n : Nat) : Trap := ⟨0x02, 0, q.info (n * 2 ^ 33)⟩
    (g.n ≤ 8 → d.val % g.n ≠ 0 →
      (∀ w, Claim.traps (.vtag d w) s s (reason s 1)) ∧ (∀ b, Claim.traps (.vtagr d b) s s (reason s 1)) ∧
      (s.hart.vcfg.tag ≠ .none → ∀ a r n, Claim.traps (.vsbind d a r n) s u (reason u 1))) ∧
    (g.n ≤ 8 → d.val % g.n = 0 →
      (∀ b, Tag.ofCode ((s.x b).toNat % 32) = none → Claim.traps (.vtagr d b) s s (reason s 2)) ∧
      (s.hart.vcfg.tag = .fp4 → ∀ a r n, Claim.traps (.vsbind d a r n) s u (reason u 3)) ∧
      (∀ (k : Sys2Proof.SNum) rest, s.boundBy [g] = k :: rest →
        let bound : Trap := ⟨0x09, 0, s.info (s.hart.streams[k.val].group * 2 ^ 33 + k.val * 2 ^ 38)⟩
        (∀ w, Claim.traps (.vtag d w) s s bound) ∧
        ∀ b w, Tag.ofCode ((s.x b).toNat % 32) = some w → Claim.traps (.vtagr d b) s s bound)) ∧
    (s.hart.vcfg.tag = .none → (∀ a r n, Claim.traps (.vsbind d a r n) s s (reason s 2)) ∧ Claim.traps (.vsunbind d) s s (reason s 2))

/-- R161 to R163, R167 to R174: a vector load whose operands and whose elements' checks pass, and which no event cuts (R19, log 61),
completes: with VSI below N the active elements take their words and the groups the tag VCFG.TAG; with VSI at N or above nothing
is written. Memory as every hart sees it is as before, once the hart's own bytes of the lines read have gone out (log 10). -/
def VectorLoads : Prop :=
  ∀ (s u : State) (i : Instr) (e : Claim.Transfer),
    Claim.loads s.drain u i = some e → Claim.ready s.drain u e.toOperands → s.hart.limit = none →
    (∀ j ∈ e.reads, ∀ a ∈ e.addr j, Claim.loadable u (Claim.accessBytes s) a) →
    let r := Claim.nearAll u (e.reads.flatMap fun j => (e.addr j).map (Claim.lies u .load (Claim.accessBytes s) true))
    ∃ t, exec i s = .next t ∧ t.hart.vsi = 0 ∧ Claim.goesOn s t ∧ Claim.movedOn s.drain e.srcs t.hart.streams ∧
      (s.hart.vsi < e.len → Claim.wroteFields u t e.groups s.hart.vcfg.tag e.acts e.value) ∧
      (e.len ≤ s.hart.vsi → t.hart.v = u.hart.v) ∧ Claim.sameMemory r t ∧ Claim.seenAlike r t ∧
      t = { r with rcache := t.rcache, hart := { r.hart with
        v := t.hart.v, vsi := t.hart.vsi, streams := t.hart.streams, pc := t.hart.pc, instret := t.hart.instret } }

/-- R168: a `vldff` that meets a failing element above VSI completes: the elements before it are loaded, VL becomes its
number, VSI is 0. -/
def FirstFaultTrims : Prop :=
  ∀ (s u : State) (d : VNum) (a : XReg) (k : MNum) (hint : Hint) (e : Claim.Transfer) (before after : List Nat) (bad : Nat),
    Claim.loads s.drain u (.vldff d a k hint) = some e → Claim.ready s.drain u e.toOperands → e.acts = before ++ bad :: after →
    s.hart.limit = none → s.repairing = none →
    s.hart.vsi < bad → (∀ j ∈ before, Claim.loadable u (Claim.accessBytes s) (Claim.unitAddress s a j)) →
    Claim.fails u (Claim.accessBytes s) (Claim.unitAddress s a bad) →
    let r := Claim.nearAll u (before.map fun j => Claim.lies u .load (Claim.accessBytes s) true (Claim.unitAddress s a j))
    ∃ t, exec (.vldff d a k hint) s = .next t ∧ t.hart.vl = bad ∧ t.hart.vsi = 0 ∧ Claim.goesOn s t ∧
      Claim.wroteFields u t e.groups s.hart.vcfg.tag before e.value ∧ Claim.sameMemory r t ∧ Claim.seenAlike r t ∧
      t = { r with rcache := t.rcache, hart := { r.hart with
        v := t.hart.v, vl := t.hart.vl, vsi := t.hart.vsi, pc := t.hart.pc, instret := t.hart.instret } }

/-- R163, R19, R18: a divisible vector load that an event cuts after n of its active elements, with another one, j, left, keeps what
it has done and stays at its address with VSI = j; nothing is counted and no stream moves on. -/
def VectorLoadStops : Prop :=
  ∀ (s u : State) (d : VNum) (a : XReg) (o : Bool) (k : MNum) (hint : Hint) (e : Claim.Transfer) (n j : Nat),
    Claim.loads s.drain u (.vld d a o k hint) = some e → Claim.ready s.drain u e.toOperands →
    s.hart.limit = some n → 0 < n → e.acts[n]? = some j →
    (∀ j ∈ e.acts.take n, ∀ a ∈ e.addr j, Claim.loadable u (Claim.accessBytes s) a) →
    let r := Claim.nearAll u ((e.acts.take n).flatMap fun j => (e.addr j).map (Claim.lies u .load (Claim.accessBytes s) true))
    ∃ t, exec (.vld d a o k hint) s = .next t ∧ t.hart.vsi = j ∧ t.hart.pc = s.hart.pc ∧ t.hart.instret = s.hart.instret ∧
      Claim.wroteFields u t e.groups s.hart.vcfg.tag (e.acts.take n) e.value ∧ Claim.sameMemory r t ∧ Claim.seenAlike r t ∧
      t = { r with rcache := t.rcache, hart := { r.hart with v := t.hart.v, vsi := t.hart.vsi } }

/-- R175: `vsbind` of an aligned group with a tag other than none and fp4 ends the bindings of its name and of every group it
overlaps, and binds the group from position 0; the group takes the tag. `vsunbind` ends the binding whose group contains
its register. Both complete; `vsbind` follows the hart's older copies (R105): `s.drain` is the state once they have moved as far as
they go by themselves. -/
def StreamBindings : Prop :=
  ∀ (s : State), s.hart.vcfg.tag ≠ .none →
    let w := s.hart.vcfg.tag
    (∀ (d : VNum) (a r : XReg) (n : Sys2Proof.SNum), w ≠ .fp4 → 2 ^ s.hart.vcfg.lgrp ≤ 8 → d.val % 2 ^ s.hart.vcfg.lgrp = 0 →
      let g : Grp := ⟨d.val, 2 ^ s.hart.vcfg.lgrp, tagBits w⟩
      let u := s.drain
      ∃ t, exec (.vsbind d a r n) s = .next t ∧ Claim.goesOn s t ∧ Claim.sameMemory u t ∧
        t.hart.streams[n.val] = ⟨true, d.val, s.hart.vcfg.lgrp, w, s.x a, s.x r, 0, []⟩ ∧
        (∀ k : Sys2Proof.SNum, k ≠ n → let b := s.hart.streams[k.val]
          t.hart.streams[k.val] = if b.bound = true ∧ Claim.meets ⟨b.group, 2 ^ b.lgrp, 0⟩ g = true
            then { b with bound := false, strips := [] } else b) ∧
        Claim.wroteElements u t g w [] (fun _ => 0) ∧
        t = { u with hart := { u.hart with
          v := t.hart.v, streams := t.hart.streams, pc := t.hart.pc, instret := t.hart.instret } }) ∧
    (∀ d : VNum, ∃ t, exec (.vsunbind d) s = .next t ∧ Claim.goesOn s t ∧
      (∀ k : Sys2Proof.SNum, let b := s.hart.streams[k.val]
        t.hart.streams[k.val] = if b.bound = true ∧ b.group ≤ d.val ∧ d.val < b.group + 2 ^ b.lgrp
          then { b with bound := false, strips := [] } else b) ∧
      t = { s with hart := { s.hart with streams := t.hart.streams, pc := t.hart.pc, instret := t.hart.instret } })

/-- R87: `spdisc` and `spkeep` of whole 4-KiB pages of the window complete, `spdisc` outside every live zone of the hart: the
disc bits of the pages become 1 or 0, every other one is as before; a length of 0 changes nothing. -/
def DiscardMarks : Prop :=
  ∀ (s : State) (disc : Bool) (a b : XReg),
    let off := (s.x a).toNat - windowBase
    let len := (s.x b).toNat
    let i := if disc then Instr.spdisc a b else Instr.spkeep a b
    (len = 0 → ∃ t, exec i s = .next t ∧ Claim.goesOn s t ∧
      t = { s with hart := { s.hart with pc := t.hart.pc, instret := t.hart.instret } }) ∧
    (len ≠ 0 → (s.x a).toNat % 4096 = 0 → len % 4096 = 0 → windowBase ≤ (s.x a).toNat →
      off + len ≤ s.hart.place.pieces.length * 65536 →
      (disc = true → ∀ z ∈ s.zones, z.owner = s.hart.place.hid → z.stop ≤ off ∨ off + len ≤ z.base) →
      ∃ t, exec i s = .next t ∧ Claim.goesOn s t ∧
        (∀ p, t.hart.disc.testBit p = if off / 4096 ≤ p ∧ p < (off + len) / 4096 then disc else s.hart.disc.testBit p) ∧
        t = { s with hart := { s.hart with disc := t.hart.disc, pc := t.hart.pc, instret := t.hart.instret } })

/-- R187, R199, R173: `mpopc`, `mfirst` and `vmv.xv` complete with their value in x[d]; `vmv.xv` leaves VSI. -/
def VectorToScalar : Prop :=
  ∀ (s u : State) (i : Instr) (o : Claim.Operands) (d : XReg) (v : Word) (z : Bool),
    Claim.toScalar s u i = some (o, d, v, z) → Claim.ready s u o →
    ∃ t, exec i s = .next t ∧ t.x d = (if d = 0 then 0 else v) ∧ (∀ r, r ≠ d → t.x r = u.x r) ∧ Claim.goesOn s t ∧
      Claim.sameMemory u t ∧ Claim.movedOn s o.srcs t.hart.streams ∧ t.hart.vsi = (if z then 0 else s.hart.vsi) ∧
      t = { u with hart := { u.hart with
        x := t.hart.x, vsi := t.hart.vsi, streams := t.hart.streams, pc := t.hart.pc, instret := t.hart.instret } }

/-- R199, R197, R73: `vmv.vx` writes the low bits of x[b] to one element, `xa.rdv` a read-out, `xa.rd` a read-out to x[d];
each completes, with no tag and no other element changed. -/
def ScalarToVector : Prop :=
  ∀ s : State,
    (∀ (d : VNum) (a b : XReg), let w := Claim.tagOf s d; let g := Claim.groupOf s d w
      Claim.ready s s ⟨[], [g], [], false, 0, [w == .none, decide (Claim.vlmax s ≤ (s.x a).toNat)]⟩ →
      ∃ t, exec (.vmvVx d a b) s = .next t ∧ Claim.wroteElement s t g (s.x a).toNat (s.x b).toNat ∧ Claim.goesOn s t ∧
        Claim.sameMemory s t ∧ t = { s with hart := { s.hart with v := t.hart.v, pc := t.hart.pc, instret := t.hart.instret } }) ∧
    (∀ (d : VNum) (e : ENum) (x : XReg) (rm : Option Rounding) (m : Rounding) (f : Fmt),
      let w := Claim.tagOf s d; let g := Claim.groupOf s d w
      Claim.roundsBy s rm m → tagFmt w = some f → s.hart.e[e.val].poison = false →
      Claim.ready s s ⟨[], [g], [], false, 0, [Claim.noScale s, !Claim.special w, decide (Claim.vlmax s ≤ (s.x x).toNat)]⟩ →
      let r := Claim.readOut s.hart.e[e.val] f m
      ∃ t, exec (.xaRdv d e x rm) s = .next t ∧ Claim.wroteElement s t g (s.x x).toNat r.bits ∧ Claim.raised s t r.flags false ∧
        Claim.goesOn s t ∧ Claim.sameMemory s t ∧
        t = { s with hart := { s.hart with v := t.hart.v, fcsr := t.hart.fcsr, pc := t.hart.pc, instret := t.hart.instret } }) ∧
    (∀ (d : XReg) (e : ENum) (w : Tag) (rm : Option Rounding) (m : Rounding) (f : Fmt),
      Claim.special w = true → tagFmt w = some f → Claim.roundsBy s rm m → s.hart.e[e.val].poison = false →
      let r := Claim.readOut s.hart.e[e.val] f m
      ∃ t, exec (.xaRd d e w rm) s = .next t ∧ t.x d = (if d = 0 then 0 else BitVec.ofNat 64 r.bits) ∧
        (∀ q, q ≠ d → t.x q = s.x q) ∧ Claim.raised s t r.flags false ∧ Claim.goesOn s t ∧ Claim.sameMemory s t ∧
        t = { s with hart := { s.hart with x := t.hart.x, fcsr := t.hart.fcsr, pc := t.hart.pc, instret := t.hart.instret } })

/-- R72, R196: `xa.clr` clears an accumulator; `xa.addv` and `xa.dot` add their terms exactly, whatever their order, and raise
NV for an invalid one. All complete. -/
def Accumulation : Prop :=
  (∀ (s : State) (e : ENum), ∃ t, exec (.xaClr e) s = .next t ∧ t.hart.e[e.val] = ⟨0, false, false, false, false⟩ ∧
    Claim.onlyAcc s t e ∧ Claim.goesOn s t ∧
    t = { s with hart := { s.hart with e := t.hart.e, pc := t.hart.pc, instret := t.hart.instret } }) ∧
  ∀ (s u : State) (i : Instr) (o : Claim.Operands) (e : ENum) (l : List FVal),
    Claim.summed s u i = some (o, e, l) → Claim.ready s u o → s.hart.e[e.val].poison = false →
    ∃ t, exec i s = .next t ∧ Claim.vectorDone s u t o.srcs ∧ t.hart.x = u.hart.x ∧ t.hart.v = u.hart.v ∧ t.hart.m = u.hart.m ∧
      Claim.accumulated u.hart.e[e.val] t.hart.e[e.val] l ∧ Claim.onlyAcc u t e ∧ Claim.raised u t { nv := Claim.invalid l } false

/-- R198, R40: `xa.ld` and `xa.st` whose 69 words pass their checks complete: the accumulator takes the image read, bits 3 and
up of its last word ignored; or the image is stored, word by word. -/
def AccumulatorImages : Prop :=
  ∀ (s : State) (e : ENum) (a : XReg), Safety.Sound s →
    let u := s.drain
    (∀ hint, (∀ k, k < 69 → Claim.loadable u 8 (Claim.imageAddr s a k)) →
      let r := Claim.nearAll u ((List.range 69).map fun k => Claim.lies u .load 8 true (Claim.imageAddr s a k))
      ∃ t n, exec (.xaLd e a hint) s = .next t ∧
        (∀ k, k < 69 → n >>> (64 * k) % 2 ^ 64 = Claim.wordAt u 8 (Claim.imageAddr s a k)) ∧
        t.hart.e[e.val] = ⟨(BitVec.ofNat 4352 n).toInt, n.testBit 4352, n.testBit 4353, n.testBit 4354, false⟩ ∧
        Claim.onlyAcc u t e ∧ Claim.goesOn s t ∧ Claim.sameMemory r t ∧ Claim.seenAlike r t ∧
        t = { r with rcache := t.rcache, hart := { r.hart with e := t.hart.e, pc := t.hart.pc, instret := t.hart.instret } }) ∧
    (s.hart.e[e.val].poison = false → (∀ k, k < 69 → Claim.storable u 8 false (Claim.imageAddr s a k)) →
      let ws := (List.range 69).map fun k =>
        ({ va := Claim.imageAddr s a k, loc := Claim.lies u .store 8 false (Claim.imageAddr s a k), n := 8
           v := Claim.imageOf s.hart.e[e.val] >>> (64 * k) % 2 ^ 64, through := true } : Claim.Write)
      Claim.roomFor u ws →
      ∃ t, exec (.xaSt e a) s = .next t ∧ Claim.storedAll u t ws ∧ Claim.goesOn s t ∧
        t = { u with mem := t.mem, spad := t.spad, poison := t.poison, spadPoison := t.spadPoison, rcache := t.rcache, hart := { u.hart with
          strip := t.hart.strip, pc := t.hart.pc, instret := t.hart.instret } })

end Sys2Proof.Claim

/-- R158, R29, R30, R303, R331: `setvl` and `setvl.h` complete, and G follows the grant. The plain form outside a guarded strip takes a
posted reclaim whose fibres fit: the posted count is then the grant; in every other case the grant and what is posted are as before. -/
def Obligations.VectorLength : Prop :=
  ∀ (s : State) (hold : Bool) (d a : XReg) (w : Tag) (g : Fin 4), w ≠ .none →
    ∃ t, exec (if hold then .setvlH d a w g else .setvl d a w g) s = .next t ∧ Claim.configured s t hold d a w g ∧
      (let h := s.hart
       (∀ n, hold = false → h.strip = none → h.reclaim = some n → Claim.fibresFit h n →
        t.hart.place = { h.place with grant := n } ∧ t.hart.reclaim = none ∧ t.hart.pend21 = none ∧ Claim.follows h t.hart hold n) ∧
       (hold = true ∨ h.strip ≠ none ∨ h.reclaim = none ∨ (∃ n, h.reclaim = some n ∧ ¬ Claim.fibresFit h n) →
        t.hart.place = h.place ∧ t.hart.reclaim = h.reclaim ∧ t.hart.pend21 = h.pend21 ∧ Claim.follows h t.hart hold h.place.grant))

/-- R161 to R163, R167, R169 to R174, R94: a vector store whose operands and whose elements' checks pass, and which no event cuts
(R19, log 61), completes: its words are written in ascending element order and, in an element, in ascending field order, or stand in
the open strip's buffer. -/
def Obligations.VectorStores : Prop :=
  ∀ (s u : State) (i : Instr) (unord : Bool) (e : Claim.Transfer),
    Claim.stores s.drain u i = some (unord, e) → Safety.Sound s → Claim.ready s.drain u e.toOperands → s.hart.limit = none →
    (∀ j ∈ e.acts, ∀ a ∈ e.addr j, Claim.storable u (Claim.accessBytes s) unord a) →
    Claim.roomFor u (Claim.writes s.drain u unord e) →
    ∃ t, exec i s = .next t ∧ t.hart.vsi = 0 ∧ Claim.goesOn s t ∧ Claim.movedOn s.drain e.srcs t.hart.streams ∧
      Claim.storedAll u t (Claim.writes s.drain u unord e) ∧
      t = { u with mem := t.mem, spad := t.spad, poison := t.poison, spadPoison := t.spadPoison, rcache := t.rcache, hart := { u.hart with
        strip := t.hart.strip, vsi := t.hart.vsi, streams := t.hart.streams, pc := t.hart.pc, instret := t.hart.instret } }

namespace Sys2Proof.Claim

open Sys2Proof.Machine

/-! ### Fibres (02 R39, 10 R203 to R216) -/

/-- A fibre of the hart. -/
def fibre (s : State) (q : QNum) : QReg := s.hart.q[q.val]

/-- Only the fibre d may differ. -/
def onlyFibre (u t : State) (d : QNum) : Prop := ∀ k : QNum, k ≠ d → fibre t k = fibre u k

/-- Only the condition bit c7 may differ, and it is this (R205). -/
def onlyC7 (u t : State) (v : Bool) : Prop := t.c 7 = v ∧ ∀ r, r ≠ 7 → t.c r = u.c r

/-- An entry under a value tag: its value has the tag's bits, and its high bytes read zero (R39). -/
def narrowed (t : Tag) (e : Nat × Nat) : Nat × Nat := (e.1, if t = .none then e.2 else e.2 % 2 ^ tagBits t)

/-- Entries 0 to PO − 1 of a fibre that goes on (R205): those it had are kept under the new tag; in planes that nothing has written
since the launch the others are zero (R52), else they are undefined (R39). -/
def carried (old new : QReg) (po : Nat) : Prop :=
  (∀ j, j < po → j < old.entries.length → new.entries[j]? = (old.entries[j]?).map (narrowed new.tag)) ∧
    (old.fresh = true → ∀ j, j < po → old.entries.length ≤ j → new.entries[j]? = some (0, 0)) ∧ po ≤ new.entries.length

/-- A fibre keeps entries 0 to PO − 1 and goes on with others (R205). -/
def appended (old new : QReg) (po : Nat) (out : List (Nat × Nat)) : Prop := carried old new po ∧ new.entries.drop po = out

/-- What a divisible fibre instruction may change beside memory: one fibre, QPOS, c7, FCSR, an accumulator (R204, R205). -/
def fibreFrame (s u t : State) : Prop :=
  goesOn s t ∧ sameMemory u t ∧ seenAlike u t ∧
    t = { u with freeCtr := t.freeCtr, rcache := t.rcache, hart := { u.hart with
      q := t.hart.q, qpos := t.hart.qpos, c := t.hart.c, fcsr := t.hart.fcsr, e := t.hart.e, pc := t.hart.pc
      instret := t.hart.instret } }

/-- Address of entry j of a plane of n bytes. -/
def entryAddr (base : Word) (n j : Nat) : Word := base + BitVec.ofNat 64 (n * j)

/-- Where the entries from j to m − 1 of two planes stand, in the order in which they are accessed (R207). -/
def planeLocs (s u : State) (cb vb : Word) (j m : Nat) : List Loc :=
  let w := tagBits s.hart.vcfg.tag / 8
  ((List.range m).filter fun i => decide (j ≤ i)).flatMap fun i =>
    [lies u .load 4 true (entryAddr cb 4 i), lies u .load w true (entryAddr vb w i)]

/-- A fibre d into which the entries from PO to m − 1 of two planes were read, the sorted flag is that of what
was read. -/
def readFibre (s u t : State) (d : QNum) (cb vb : Word) (m : Nat) : Prop :=
  let po := s.hart.qpos.po
  let w := tagBits s.hart.vcfg.tag / 8
  let old := fibre s d
  let new := fibre t d
  let coord (j : Nat) : Nat := ((new.entries[j]?).getD (0, 0)).1
  new.entries.length = m ∧ new.tag = s.hart.vcfg.tag ∧
    (∀ j, j < po → j < m → j < old.entries.length → new.entries[j]? = (old.entries[j]?).map (narrowed new.tag)) ∧
    (old.fresh = true → ∀ j, j < po → j < m → old.entries.length ≤ j → new.entries[j]? = some (0, 0)) ∧
    (∀ j, po ≤ j → j < m → new.entries[j]? = some (wordAt u 4 (entryAddr cb 4 j), wordAt u w (entryAddr vb w j))) ∧
    (new.sorted = true ↔ (po = 0 ∨ old.sorted = true) ∧ ∀ j, po ≤ j → j < m → 0 < j → coord (j - 1) ≤ coord j) ∧ onlyFibre s t d

/-- What the loads of R208 leave: entries PO to min(cnt, FCAP) − 1 read, QPOS, c7. -/
def loadedFibre (s u t : State) (d : QNum) (pre : List Loc) (cb vb : Word) (cnt : Nat) : Prop :=
  let m := min cnt (128 * s.hart.ge)
  readFibre s u t d cb vb m ∧ t.hart.qpos = { s.hart.qpos with po := 0 } ∧ onlyC7 s t (decide (128 * s.hart.ge < cnt)) ∧
    fibreFrame s (nearAll u (pre ++ planeLocs s u cb vb s.hart.qpos.po m)) t ∧ t.hart.fcsr = s.hart.fcsr ∧ t.hart.e = s.hart.e

/-- Entries PO to min(cnt, FCAP) − 1 of two planes can be read. -/
def planesLoadable (s u : State) (cb vb : Word) (cnt : Nat) : Prop :=
  ∀ j, s.hart.qpos.po ≤ j → j < min cnt (128 * s.hart.ge) →
    loadable u 4 (entryAddr cb 4 j) ∧ loadable u (tagBits s.hart.vcfg.tag / 8) (entryAddr vb (tagBits s.hart.vcfg.tag / 8) j)

/-- The tag and PO that `qld` and the walks need (R207, R202). -/
def canLoad (s : State) : Prop :=
  s.hart.vcfg.tag ≠ .none ∧ s.hart.vcfg.tag ≠ .sc8 ∧ s.hart.vcfg.tag ≠ .fp4 ∧ s.hart.qpos.po ≤ 128 * s.hart.ge

/-- One step of R211: how the positions move, the entry emitted, the products added. -/
structure Move where
  da    : Nat
  db    : Nat
  emits : Option (Nat × FRes) := none
  terms : List FVal := []

/-- The column of R211 for the intersections. -/
def isect (v : Nat → Nat → FRes) : Option (Nat × Nat) → Option (Nat × Nat) → Option Move
  | some (ca, a), some (cb, b) =>
    if ca < cb then some ⟨1, 0, none, []⟩ else if ca = cb then some ⟨1, 1, some (ca, v a b), []⟩ else some ⟨0, 1, none, []⟩
  | _, _ => none

/-- The column for `qunion.add`. -/
def union (add : Nat → Nat → FRes) (one two : Nat → FRes) : Option (Nat × Nat) → Option (Nat × Nat) → Option Move
  | some (ca, a), some (cb, b) =>
    if ca < cb then some ⟨1, 0, some (ca, one a), []⟩ else if ca = cb then some ⟨1, 1, some (ca, add a b), []⟩
    else some ⟨0, 1, some (cb, two b), []⟩
  | some (ca, a), none => some ⟨1, 0, some (ca, one a), []⟩
  | none, some (cb, b) => some ⟨0, 1, some (cb, two b), []⟩
  | none, none => none

/-- The column for `qmerge`. -/
def stableMerge : Option (Nat × Nat) → Option (Nat × Nat) → Option Move
  | some (ca, a), some (cb, b) => if ca ≤ cb then some ⟨1, 0, some (ca, plain a), []⟩ else some ⟨0, 1, some (cb, plain b), []⟩
  | some (ca, a), none => some ⟨1, 0, some (ca, plain a), []⟩
  | none, some (cb, b) => some ⟨0, 1, some (cb, plain b), []⟩
  | none, none => none

/-- The column for `qdot`. -/
def products (p : Nat → Nat → FVal) : Option (Nat × Nat) → Option (Nat × Nat) → Option Move
  | some (ca, a), some (cb, b) =>
    if ca < cb then some ⟨1, 0, none, []⟩ else if ca = cb then some ⟨1, 1, none, [p a b]⟩ else some ⟨0, 1, none, []⟩
  | _, _ => none

/-- The loop of R211 from two positions and an output position: what it emits and adds, whether it ends full, where. -/
inductive Steps (op : Option (Nat × Nat) → Option (Nat × Nat) → Option Move) (qa qb : List (Nat × Nat)) (room : Nat) :
    Nat → Nat → Nat → List (Nat × FRes) → List FVal → Bool → Nat → Nat → Prop
  | finished (pa pb po : Nat) : op qa[pa]? qb[pb]? = none → Steps op qa qb room pa pb po [] [] false pa pb
  | full (pa pb po : Nat) (k : Move) : op qa[pa]? qb[pb]? = some k → k.emits ≠ none → po = room →
      Steps op qa qb room pa pb po [] [] true pa pb
  | emit (pa pb po : Nat) (k : Move) (e : Nat × FRes) (es : List (Nat × FRes)) (ls : List FVal) (f : Bool) (a b : Nat) :
      op qa[pa]? qb[pb]? = some k → k.emits = some e → po ≠ room →
      Steps op qa qb room (pa + k.da) (pb + k.db) (po + 1) es ls f a b → Steps op qa qb room pa pb po (e :: es) (k.terms ++ ls) f a b
  | pass (pa pb po : Nat) (k : Move) (es : List (Nat × FRes)) (ls : List FVal) (f : Bool) (a b : Nat) :
      op qa[pa]? qb[pb]? = some k → k.emits = none →
      Steps op qa qb room (pa + k.da) (pb + k.db) po es ls f a b → Steps op qa qb room pa pb po es (k.terms ++ ls) f a b

/-- So many steps of R211, none of which ends it: what they emit and add, and where they lead. -/
inductive Walked (op : Option (Nat × Nat) → Option (Nat × Nat) → Option Move) (qa qb : List (Nat × Nat)) (room : Nat) :
    Nat → Nat → Nat → Nat → List (Nat × FRes) → List FVal → Nat → Nat → Prop
  | none (pa pb po : Nat) : Walked op qa qb room 0 pa pb po [] [] pa pb
  | emit (n pa pb po : Nat) (k : Move) (e : Nat × FRes) (es : List (Nat × FRes)) (ls : List FVal) (a b : Nat) :
      op qa[pa]? qb[pb]? = some k → k.emits = some e → po ≠ room → Walked op qa qb room n (pa + k.da) (pb + k.db) (po + 1) es ls a b →
      Walked op qa qb room (n + 1) pa pb po (e :: es) (k.terms ++ ls) a b
  | pass (n pa pb po : Nat) (k : Move) (es : List (Nat × FRes)) (ls : List FVal) (a b : Nat) :
      op qa[pa]? qb[pb]? = some k → k.emits = none → Walked op qa qb room n (pa + k.da) (pb + k.db) po es ls a b →
      Walked op qa qb room (n + 1) pa pb po es (k.terms ++ ls) a b

/-- The value tags of two inputs, an empty one carrying the other's (R384). -/
def valueTags (a b : QReg) : Tag × Tag :=
  match decide (a.entries = []), decide (b.entries = []) with
  | true, true => if a.tag = .none then (b.tag, b.tag) else (a.tag, a.tag)
  | true, false => (b.tag, b.tag)
  | false, true => (a.tag, a.tag)
  | false, false => (a.tag, b.tag)

/-- The promotion of R203, by rule 1 of R64 alone. -/
def exactTag (a b : QReg) : Option Tag :=
  let (ta, tb) := valueTags a b
  if a.entries = [] ∧ b.entries = [] then some ta
  else (promote ta tb).filter fun t => tagContains t ta && tagContains t tb

/-- The set operations that write a fibre (R210, R212): rounding mode, destination, inputs, result tag, column. -/
def combining (s : State) (m : Rounding) : Instr →
    Option (Option (Option Rounding) × QNum × QNum × QNum × Option Tag × (Option (Nat × Nat) → Option (Nat × Nat) → Option Move))
  | .qisectMul d a b rm sat =>
    let (ta, tb) := valueTags (fibre s a) (fibre s b)
    let t := exactTag (fibre s a) (fibre s b)
    some (some rm, d, a, b, t, isect fun x y => mixedOp ta tb (t.getD .none) m (arithOp .mul (t.getD .none) m sat) x y)
  | .qisectA d a b => some (none, d, a, b, some (fibre s a).tag, isect fun x _ => plain x)
  | .qisectB d a b => some (none, d, a, b, some (fibre s b).tag, isect fun _ y => plain y)
  | .qunionAdd d a b rm sat =>
    let (ta, tb) := valueTags (fibre s a) (fibre s b)
    let t := exactTag (fibre s a) (fibre s b)
    some (some rm, d, a, b, t, union (fun x y => mixedOp ta tb (t.getD .none) m (arithOp .add (t.getD .none) m sat) x y)
      (fun x => (convertTag ta (t.getD .none) m false x).getD (plain 0))
      (fun y => (convertTag tb (t.getD .none) m false y).getD (plain 0)))
  | .qmerge d a b =>
    let (ta, tb) := valueTags (fibre s a) (fibre s b)
    some (none, d, a, b, if ta = tb then some ta else none, stableMerge)
  | _ => none

/-- Both inputs are sorted and hold no uncorrectable data, and PO is at most FCAP (R202, R356). -/
def canCombine (s : State) (a b : QNum) : Prop :=
  (fibre s a).sorted = true ∧ (fibre s b).sorted = true ∧ (fibre s a).poison = false ∧ (fibre s b).poison = false ∧
    s.hart.qpos.po ≤ 128 * s.hart.ge

/-- The flags of emitted values. -/
def flagsOf (l : List (Nat × FRes)) : Flags := l.foldr (fun e a => orFlags e.2.flags a) {}

/-- A value is zero (R213). -/
def isZeroValue (t : Tag) (x : Nat) : Bool := if tagFloat t then x % 2 ^ (tagBits t - 1) == 0 else x == 0

/-- The value that a reduction of a fibre gives (R216). -/
def reducedValue (q : QReg) (k : ArithOp) (m : Rounding) : FRes :=
  if q.entries = [] then
    if k = .add then plain 0
    else match tagFmt q.tag with
      | some f => plain f.nanBits
      | none =>
        let v := if tagSigned q.tag then (if k = .min then 2 ^ (tagBits q.tag - 1) - 1 else 2 ^ (tagBits q.tag - 1))
          else if k = .min then 2 ^ tagBits q.tag - 1 else 0
        plain v
  else
    match tree (arithOp k q.tag m false) (fun i => (q.entries[i]?).map fun e => (e.2, {})) (ceilLog2 q.entries.length) 0 with
    | some (x, f) => ⟨x, f, false⟩
    | none => plain 0

/-- The reductions of R216. -/
def fibreReductions : Instr → Option (QNum × XReg × Option (Option Rounding) × ArithOp)
  | .qredAdd a d rm => some (a, d, some rm, .add)
  | .qredMin a d => some (a, d, none, .min)
  | .qredMax a d => some (a, d, none, .max)
  | _ => none

/-- The indivisible reshapes (R213, R215): destination, source, whether a mask that is read holds no
uncorrectable data, what the destination becomes. -/
def reshapes (s : State) : Instr → Option (QNum × QNum × Bool × (QReg → Prop))
  | .qsort d a =>
    let k := fibre s a
    some (d, a, true, fun q => q.entries.Perm k.entries ∧ q.entries.Pairwise (fun x y => x.1 ≤ y.1) ∧
      (∀ c, q.entries.filter (fun e => e.1 == c) = k.entries.filter (fun e => e.1 == c)) ∧ q.tag = k.tag ∧ q.sorted = true)
  | .qcompact d a =>
    let k := fibre s a
    some (d, a, true, fun q => q.entries = k.entries.filter (fun e => !isZeroValue k.tag e.2) ∧ q.tag = k.tag ∧ q.sorted = k.sorted)
  | .qcompactM d a m =>
    let k := fibre s a
    some (d, a, !s.hart.m[m.val].poison, fun q =>
      q.entries = ((List.range k.entries.length).filter (maskBit s m)).map (fun j => (k.entries[j]?).getD (0, 0)) ∧
      q.tag = k.tag ∧ q.sorted = k.sorted)
  | .qclr d => some (d, d, true, fun q => q.entries = [] ∧ q.tag = (fibre s d).tag ∧ q.sorted = true)
  | _ => none

/-- The tag a vector takes from a fibre (R214, R384). -/
def takenTag (s : State) (k : QReg) : Tag := if k.entries = [] ∧ k.tag = .none then s.hart.vcfg.tag else k.tag

/-- The moves into a vector (R215): fibre, group, tag, elements, values. -/
def fromFibre (s : State) : Instr → Option (QNum × Grp × Tag × List Nat × (Nat → Nat))
  | .qexpand a v d =>
    let k := fibre s a
    let t := takenTag s k
    some (a, groupOf s d t, t, List.range s.hart.vl, fun i =>
      ((k.entries.reverse.find? fun e => e.1 == (s.x v).toNat + i).map Prod.snd).getD 0)
  | .qcoord a d =>
    let k := fibre s a
    some (a, groupOf s d .ui32, .ui32, List.range (min k.entries.length s.hart.vl), fun i => ((k.entries[i]?).getD (0, 0)).1)
  | .qval a d =>
    let k := fibre s a
    let t := takenTag s k
    some (a, groupOf s d t, t, List.range (min k.entries.length s.hart.vl), fun i => ((k.entries[i]?).getD (0, 0)).2)
  | _ => none

/-- The moves into a fibre (R215): whether zeros are kept, fibre, base register, vector. -/
def toFibre : Instr → Option (Bool × QNum × XReg × VNum)
  | .qfromv d v a => some (false, d, v, a)
  | .qfromvAll d v a => some (true, d, v, a)
  | _ => none

/-- R205, R206, R210 to R212: the set operations run the steps of their column from QPOS to an end: the fibre takes the emitted
entries behind entry PO − 1, its tag and the sorted flag; QPOS is 0 at a finished end and holds the positions at a full one;
c7 says which; the flags of the emitted values are raised. No event cuts them (R19, log 61). -/
def FibreSets : Prop :=
  ∀ (s : State) (i : Instr) (m : Rounding) (rm : Option (Option Rounding)) (d a b : QNum) (w : Tag)
    (op : Option (Nat × Nat) → Option (Nat × Nat) → Option Claim.Move),
    Claim.combining s m i = some (rm, d, a, b, some w, op) → (∀ r, rm = some r → Claim.roundsBy s r m) → Claim.canCombine s a b → s.hart.limit = none →
    let p := s.hart.qpos
    let qa := (Claim.fibre s a).entries
    let qb := (Claim.fibre s b).entries
    ∃ t out l full pa pb, exec i s = .next t ∧
      Claim.Steps op qa qb (128 * s.hart.ge) (min p.pa qa.length) (min p.pb qb.length) p.po out l full pa pb ∧
      Claim.appended (Claim.fibre s d) (Claim.fibre t d) p.po (out.map fun e => (e.1, e.2.bits)) ∧ (Claim.fibre t d).tag = w ∧
      (Claim.fibre t d).sorted = true ∧ Claim.onlyFibre s t d ∧ t.hart.qpos = (if full then ⟨0, pb, pa⟩ else ⟨0, 0, 0⟩) ∧
      Claim.onlyC7 s t full ∧ Claim.raised s t (Claim.flagsOf out) (out.any fun e => e.2.sat) ∧ t.hart.e = s.hart.e ∧
      Claim.fibreFrame s s t

/-- R211, R212, R72: `qdot` adds the exact products of the pairs with equal coordinates to its accumulator, and raises NV for
an invalid one; it never ends full. -/
def FibreDot : Prop :=
  ∀ (s : State) (e : ENum) (a b : QNum), Claim.canCombine s a b → s.hart.e[e.val].poison = false → s.hart.limit = none →
    let ka := Claim.fibre s a
    let kb := Claim.fibre s b
    (ka.entries ≠ [] → tagFloat ka.tag = true) → (kb.entries ≠ [] → tagFloat kb.tag = true) →
    let (ta, tb) := Claim.valueTags ka kb
    let p := s.hart.qpos
    ∃ t out l pa pb, exec (.qdot e a b) s = .next t ∧
      Claim.Steps (Claim.products fun x y => (Claim.valueOf ta x).times (Claim.valueOf tb y)) ka.entries kb.entries 0
        (min p.pa ka.entries.length) (min p.pb kb.entries.length) 0 out l false pa pb ∧
      Claim.accumulated s.hart.e[e.val] t.hart.e[e.val] l ∧ Claim.onlyAcc s t e ∧ t.hart.q = s.hart.q ∧
      t.hart.qpos = ⟨0, 0, 0⟩ ∧ Claim.onlyC7 s t false ∧ Claim.raised s t { nv := Claim.invalid l } false ∧ Claim.fibreFrame s s t

/-- R205, R211, R19: where an event cuts a fibre instruction (log 61), it stays at its address with what it has done: a set operation
after n steps has its emitted entries behind entry PO − 1 and their flags raised, `qdot` its products added, QPOS holds the positions and
the next output position, and c7 is as before; `qld` after n entries has them behind entry PO − 1, and QPOS.PO counts them. -/
def FibreStops : Prop :=
  (∀ (s : State) (i : Instr) (m : Rounding) (rm : Option (Option Rounding)) (d a b : QNum) (w : Tag) (n : Nat)
    (op : Option (Nat × Nat) → Option (Nat × Nat) → Option Claim.Move) (out : List (Nat × FRes)) (l : List FVal) (pa pb : Nat),
    Claim.combining s m i = some (rm, d, a, b, some w, op) → (∀ r, rm = some r → Claim.roundsBy s r m) → Claim.canCombine s a b →
    s.hart.limit = some n →
    let p := s.hart.qpos
    let qa := (Claim.fibre s a).entries
    let qb := (Claim.fibre s b).entries
    Claim.Walked op qa qb (128 * s.hart.ge) n (min p.pa qa.length) (min p.pb qb.length) p.po out l pa pb →
    ∃ t, exec i s = .next t ∧ Claim.appended (Claim.fibre s d) (Claim.fibre t d) p.po (out.map fun e => (e.1, e.2.bits)) ∧
      (Claim.fibre t d).tag = w ∧ (Claim.fibre t d).sorted = true ∧ Claim.onlyFibre s t d ∧ t.hart.qpos = ⟨p.po + out.length, pb, pa⟩ ∧
      Claim.raised s t (Claim.flagsOf out) (out.any fun e => e.2.sat) ∧ Claim.sameMemory s t ∧
      t = { s with freeCtr := t.freeCtr, hart := { s.hart with q := t.hart.q, qpos := t.hart.qpos, fcsr := t.hart.fcsr } }) ∧
  (∀ (s : State) (e : ENum) (a b : QNum) (n : Nat) (out : List (Nat × FRes)) (l : List FVal) (pa pb : Nat),
    Claim.canCombine s a b → s.hart.e[e.val].poison = false → s.hart.limit = some n →
    let ka := Claim.fibre s a
    let kb := Claim.fibre s b
    (ka.entries ≠ [] → tagFloat ka.tag = true) → (kb.entries ≠ [] → tagFloat kb.tag = true) →
    let (ta, tb) := Claim.valueTags ka kb
    let p := s.hart.qpos
    Claim.Walked (Claim.products fun x y => (Claim.valueOf ta x).times (Claim.valueOf tb y)) ka.entries kb.entries 0 n
      (min p.pa ka.entries.length) (min p.pb kb.entries.length) 0 out l pa pb →
    ∃ t, exec (.qdot e a b) s = .next t ∧ Claim.accumulated s.hart.e[e.val] t.hart.e[e.val] l ∧ Claim.onlyAcc s t e ∧
      t.hart.qpos = ⟨p.po, pb, pa⟩ ∧ Claim.raised s t { nv := Claim.invalid l } false ∧
      t = { s with hart := { s.hart with e := t.hart.e, qpos := t.hart.qpos, fcsr := t.hart.fcsr } }) ∧
  ∀ (s : State) (d : QNum) (v : XReg) (hint : Hint) (n : Nat), Claim.canLoad s → s.hart.limit = some n →
    let u := s.drain
    let m := s.hart.qpos.po + n
    m < min (s.x (v + 2)).toNat (128 * s.hart.ge) → Claim.planesLoadable s u (s.x v) (s.x (v + 1)) m →
    let r := Claim.nearAll u (Claim.planeLocs s u (s.x v) (s.x (v + 1)) s.hart.qpos.po m)
    ∃ t, exec (.qld d v hint) s = .next t ∧ Claim.readFibre s u t d (s.x v) (s.x (v + 1)) m ∧ t.hart.qpos = { s.hart.qpos with po := m } ∧
      Claim.sameMemory r t ∧ Claim.seenAlike r t ∧
      t = { r with freeCtr := t.freeCtr, rcache := t.rcache, hart := { r.hart with q := t.hart.q, qpos := t.hart.qpos } }

/-- R213, R215, R216: `qsort`, `qcompact`, `qcompact.m` and `qclr` complete with their fibre; `qcnt` with the count in x[d];
`qscale` with every value multiplied and rounded once. QPOS and every other fibre are as before. -/
def FibreReshapes : Prop :=
  (∀ (s : State) (i : Instr) (d a : QNum) (P : QReg → Prop), Claim.reshapes s i = some (d, a, true, P) →
    (Claim.fibre s a).poison = false →
    ∃ t, exec i s = .next t ∧ P (Claim.fibre t d) ∧ Claim.onlyFibre s t d ∧ Claim.goesOn s t ∧ Claim.sameMemory s t ∧
      t = { s with hart := { s.hart with q := t.hart.q, pc := t.hart.pc, instret := t.hart.instret } }) ∧
  (∀ (s : State) (a : QNum) (d : XReg), ∃ t, exec (.qcnt a d) s = .next t ∧
    Claim.wroteX s t d (BitVec.ofNat 64 (Claim.fibre s a).entries.length)) ∧
  (∀ (s : State) (d a : QNum) (v : XReg) (rm : Option Rounding) (sat : Bool) (m : Rounding),
    Claim.roundsBy s rm m → (Claim.fibre s a).poison = false →
    let k := Claim.fibre s a
    (k.entries ≠ [] → k.tag ≠ .none ∧ k.tag ≠ .sc8) →
    let l := k.entries.map fun e => (e.1, arithOp .mul k.tag m sat e.2 ((s.x v).toNat % 2 ^ tagBits k.tag))
    ∃ t, exec (.qscale d a v rm sat) s = .next t ∧
      Claim.fibre t d = ⟨l.map fun e => (e.1, e.2.bits), k.tag, k.sorted, false, false⟩ ∧ Claim.onlyFibre s t d ∧
      Claim.raised s t (Claim.flagsOf l) (l.any fun e => e.2.sat) ∧ Claim.goesOn s t ∧ Claim.sameMemory s t ∧
      t = { s with hart := { s.hart with q := t.hart.q, fcsr := t.hart.fcsr, pc := t.hart.pc, instret := t.hart.instret } })

/-- R216, R69: the reductions of a fibre complete with the tree's value, extended by class, in x[d]; the empty ones as R216
and R384 give them. -/
def FibreReductions : Prop :=
  ∀ (s : State) (i : Instr) (a : QNum) (d : XReg) (rm : Option (Option Rounding)) (k : ArithOp) (m : Rounding),
    Claim.fibreReductions i = some (a, d, rm, k) → (∀ r, rm = some r → Claim.roundsBy s r m) → (rm = none → m = .rne) →
    let q := Claim.fibre s a
    q.poison = false → q.tag ≠ .sc8 → q.entries.length ≤ 2 ^ 32 → (q.entries ≠ [] → q.tag ≠ .none) →
    let r := if q.tag = .none then ⟨0, {}, false⟩ else Claim.reducedValue q k m
    ∃ t, exec i s = .next t ∧
      t.x d = (if d = 0 then 0 else if tagSigned q.tag then (BitVec.ofNat (tagBits q.tag) r.bits).signExtend 64
        else BitVec.ofNat 64 r.bits) ∧
      (∀ z, z ≠ d → t.x z = s.x z) ∧ Claim.raised s t r.flags false ∧ Claim.goesOn s t ∧ Claim.sameMemory s t ∧
      t = { s with hart := { s.hart with x := t.hart.x, fcsr := t.hart.fcsr, pc := t.hart.pc, instret := t.hart.instret } }

end Sys2Proof.Claim

/-- R207, R208: no event cutting them (R19, log 61), `qld` and the walks complete once their tag, PO and entries' checks pass, and a walk's positions do not fall;
`qst` completes with its entries stored in order, each coordinate before its value (R209). -/
def Obligations.FibreMemory : Prop :=
  ∀ s : State, Safety.Sound s → s.hart.limit = none →
    let u := s.drain
    let w := tagBits s.hart.vcfg.tag / 8
    (∀ (d : QNum) (v : XReg) (hint : Hint), Claim.canLoad s → Claim.planesLoadable s u (s.x v) (s.x (v + 1)) (s.x (v + 2)).toNat →
      ∃ t, exec (.qld d v hint) s = .next t ∧ Claim.loadedFibre s u t d [] (s.x v) (s.x (v + 1)) (s.x (v + 2)).toNat) ∧
    (∀ (wide : Bool) (d : QNum) (v : XReg) (hint : Hint), Claim.canLoad s →
      let pw := if wide then 8 else 4
      let i := (s.x (v + 3)).toNat
      Claim.loadable u pw (Claim.entryAddr (s.x v) pw i) → Claim.loadable u pw (Claim.entryAddr (s.x v) pw (i + 1)) →
      let at' (j : Nat) : Loc := Claim.lies u .load pw true (Claim.entryAddr (s.x v) pw j)
      let b := Claim.wordAt u pw (Claim.entryAddr (s.x v) pw i)
      let e := Claim.wordAt u pw (Claim.entryAddr (s.x v) pw (i + 1))
      b ≤ e → Claim.planesLoadable s u (Claim.entryAddr (s.x (v + 1)) 4 b) (Claim.entryAddr (s.x (v + 2)) w b) (e - b) →
      ∃ t, exec (if wide then .qwalkD d v hint else .qwalk d v hint) s = .next t ∧
        Claim.loadedFibre s u t d [at' i, at' (i + 1)] (Claim.entryAddr (s.x (v + 1)) 4 b) (Claim.entryAddr (s.x (v + 2)) w b) (e - b)) ∧
    ∀ (a : QNum) (v : XReg),
      let k := Claim.fibre s a
      let n := tagBits k.tag / 8
      (k.entries ≠ [] → k.tag ≠ .none ∧ k.tag ≠ .sc8 ∧ k.tag ≠ .fp4) → k.poison = false → s.hart.qpos.po ≤ 128 * s.hart.ge →
      let todo := (List.range k.entries.length).filter fun j => decide (s.hart.qpos.po ≤ j)
      (∀ j ∈ todo, Claim.storable u 4 false (Claim.entryAddr (s.x v) 4 j) ∧
        Claim.storable u n false (Claim.entryAddr (s.x (v + 1)) n j)) →
      let ws := todo.flatMap fun j =>
        let e := (k.entries[j]?).getD (0, 0)
        [(⟨Claim.entryAddr (s.x v) 4 j, Claim.lies u .store 4 false (Claim.entryAddr (s.x v) 4 j), 4, e.1, none, true⟩ : Claim.Write),
          ⟨Claim.entryAddr (s.x (v + 1)) n j, Claim.lies u .store n false (Claim.entryAddr (s.x (v + 1)) n j), n, e.2, none, true⟩]
      Claim.roomFor u ws →
      ∃ t, exec (.qst a v) s = .next t ∧ Claim.storedAll u t ws ∧ t.hart.qpos = { s.hart.qpos with po := 0 } ∧ Claim.goesOn s t ∧
        t = { u with mem := t.mem, spad := t.spad, poison := t.poison, spadPoison := t.spadPoison, rcache := t.rcache, hart := { u.hart with
          strip := t.hart.strip, qpos := t.hart.qpos, pc := t.hart.pc, instret := t.hart.instret } }

/-- R214, R215, R384: `qexpand`, `qcoord` and `qval` complete with the elements of their group; `qfromv` and `qfromv.all` with
the elements from PA on behind entry PO − 1 of the fibre, full when one more is due than FCAP holds. -/
def Obligations.FibreVectors : Prop :=
  (∀ (s : State) (i : Instr) (a : QNum) (g : Grp) (w : Tag) (acts : List Nat) (value : Nat → Nat),
    Claim.fromFibre s i = some (a, g, w, acts, value) → (Claim.fibre s a).poison = false →
    Claim.ready s s ⟨[], [g], [], false, 0, [Claim.noScale s, Claim.noElements w]⟩ →
    ∃ t, exec i s = .next t ∧ Claim.wroteElements s t g w acts value ∧ t.hart.vsi = 0 ∧ Claim.goesOn s t ∧ Claim.sameMemory s t ∧
      t = { s with hart := { s.hart with v := t.hart.v, vsi := 0, pc := t.hart.pc, instret := t.hart.instret } }) ∧
  (∀ (s u : State) (i : Instr) (all : Bool) (d : QNum) (v : XReg) (a : VNum), Claim.toFibre i = some (all, d, v, a) →
    let w := Claim.tagOf s a
    let g := Claim.groupOf s a w
    let x := (s.x v).toNat
    let p := s.hart.qpos
    s.hart.limit = none →
    Claim.ready s u ⟨[g], [], [], false, 0,
      [Claim.noScale s, Claim.noElements w, decide (4096 < s.hart.vl), decide (2 ^ 32 < x + s.hart.vl), decide (128 * s.hart.ge < p.po)]⟩ →
    let due := (List.range s.hart.vl).filter fun i => decide (p.pa ≤ i) && (all || !Claim.isZeroValue w (Claim.element u g i))
    let room := 128 * s.hart.ge - p.po
    ∃ t, exec i s = .next t ∧
      Claim.appended (Claim.fibre s d) (Claim.fibre t d) p.po ((due.take room).map fun i => (x + i, Claim.element u g i)) ∧
      (Claim.fibre t d).tag = w ∧ (Claim.fibre t d).sorted = true ∧ Claim.onlyFibre s t d ∧
      t.hart.qpos = (match due[room]? with | some i => ⟨0, p.pb, i⟩ | none => ⟨0, 0, 0⟩) ∧
      Claim.onlyC7 s t (due[room]?).isSome ∧ t.hart.vsi = 0 ∧ Claim.movedOn s [g] t.hart.streams ∧ Claim.goesOn s t ∧
      Claim.sameMemory u t ∧
      t = { u with freeCtr := t.freeCtr, hart := { u.hart with
        q := t.hart.q, qpos := t.hart.qpos, c := t.hart.c, vsi := 0, streams := t.hart.streams, pc := t.hart.pc
        instret := t.hart.instret } })

namespace Sys2Proof.Claim

open Sys2Proof.Machine

/-! ### Tiles and multiplication (11 R218 to R231) -/

/-- Only the hart's tile context, c7 and what every instruction moves may differ. -/
def tileFrame (s t : State) : Prop :=
  goesOn s t ∧ sameMemory s t ∧
    t = { s with hart := { s.hart with tile := t.hart.tile, c := t.hart.c, pc := t.hart.pc, instret := t.hart.instret } }

/-- Another hart of the core holds the core's context (R218). -/
def takenByOther (s : State) : Prop :=
  ∃ h ∈ s.parked, h.tile.isSome = true ∧ h.place.core = s.hart.place.core ∧ (h.phase = .active ∨ h.phase = .monitor)

/-- Rows of the context that the partition grants (R220), 32 fewer for each retirement (R380; DEDUCED, log 55). -/
def availableRows (s : State) : Nat :=
  32 * (s.parts[s.hart.place.part.val].pmrows - ((s.retRows.find? fun e => e.1 == s.hart.place.core).map Prod.snd).getD 0)

/-- A last that R43 allows, by its widths. -/
def legalShape (y : Shape) (operand : Bool) : Prop :=
  y.cols * tagBits y.tag ≤ (if operand then 1024 else 4096) ∧ y.rows ≤ 128 ∧ (y.bm = true → 8 ≤ tagBits y.tag)

/-- The shape conditions of R222 for `mld` and `mst`. -/
def movable (s : State) (y : Shape) : Prop :=
  y.tag ≠ .none ∧ s.hart.rows ≤ y.rows ∧ s.hart.vl ≤ y.cols ∧ y.bm = false ∧
    (y.tag = .fp4 → s.hart.vl % 2 = 0 ∧ s.hart.pitch.toNat % 2 = 0)

/-- Bytes of an access of a tile: an element, or two fp4 elements; accesses of a row; the address of access j of row i. -/
def unitBytes (y : Shape) : Nat := max 1 (tagBits y.tag / 8)
/-- Accesses of a row. -/
def rowUnits (s : State) (y : Shape) : Nat := s.hart.vl * tagBits y.tag / 8 / unitBytes y
/-- R222. -/
def unitAddr (s : State) (y : Shape) (a : XReg) (i j : Nat) : Word :=
  s.x a + BitVec.ofNat 64 i * s.hart.pitch + BitVec.ofNat 64 (j * unitBytes y)

/-- Bits [o, o+n) of a tile's storage. -/
def field (bits o n : Nat) : Nat := bits >>> o % 2 ^ n

/-- ROWS rows of a tile of R bits a row have been loaded (R222): each access at its place, every other bit as before. -/
def loadedTile (s u : State) (y : Shape) (a : XReg) (r old new : Nat) : Prop :=
  let n := unitBytes y
  (∀ i j, i < s.hart.rows → j < rowUnits s y → field new (i * r + j * n * 8) (8 * n) = wordAt u n (unitAddr s y a i j)) ∧
    ∀ p, (∀ i j, i < s.hart.rows → j < rowUnits s y → p < i * r + j * n * 8 ∨ i * r + j * n * 8 + 8 * n ≤ p) →
      new.testBit p = old.testBit p

/-- The stores of a tile in ascending order. -/
def tileWrites (s u : State) (y : Shape) (a : XReg) (r bits : Nat) : List Write :=
  let n := unitBytes y
  (List.range s.hart.rows).flatMap fun i => (List.range (rowUnits s y)).map fun j =>
    ⟨unitAddr s y a i j, lies u .store n false (unitAddr s y a i j), n, field bits (i * r + j * n * 8) (8 * n), none, true⟩

/-- Where the units of a tile load stand, in their order. -/
def tileLocs (s u : State) (y : Shape) (a : XReg) : List Loc :=
  (List.range s.hart.rows).flatMap fun i => (List.range (rowUnits s y)).map fun j =>
    lies u .load (unitBytes y) true (unitAddr s y a i j)

/-- The columns of a bitmap row below COLS that hold a value, and the slots their values take (R223). -/
def bitmapRow (u : State) (y : Shape) (base : Word) (i : Nat) : Nat :=
  wordAt u 16 (base + BitVec.ofNat 64 i * 16) % 2 ^ min y.cols 128
/-- R223: packed in order, or at their own columns. -/
def slotsOf (y : Shape) (bm : Nat) : List Nat :=
  let cols := (List.range 128).filter bm.testBit
  if y.pk then List.range cols.length else cols

/-- The forms of R224: bitmaps that ta and tb need, tiles, start and ceiling. -/
def mmaForm : Instr → Option (Bool × Bool × ZNum × TNum × TNum × Nat × Nat)
  | .mma d a b lo hi _ => some (false, false, d, a, b, lo.val, hi.val)
  | .mmaSp d a b lo hi _ => some (true, false, d, a, b, lo.val, hi.val)
  | .mmaSs d a b lo hi _ => some (true, true, d, a, b, lo.val, hi.val)
  | _ => none

/-- The attempt list L of R226. -/
def ladder (a b : Tag) (lo hi : Nat) : List Nat :=
  (List.range 4).filter fun r => r == hi || (decide (lo ≤ r) && decide (r < hi) && (rungNarrows r a || rungNarrows r b))

/-- The products of the effectual pairs of a K-block (R225). -/
def blockOf (a b : List (Option FVal)) (k0 kb : Nat) : List FVal :=
  (List.range kb).filterMap fun k => match (a[k0 + k]?).join, (b[k0 + k]?).join with
    | some x, some y => some (x.times y)
    | _, _ => none

/-- One accumulator element over its K-blocks (R71, R228, R229): its bits, its flags, its cancellations. -/
def cell (zt : Tag) (kb cbits k : Nat) (a b : List (Option FVal)) (z : Nat) : Nat × Flags × Nat :=
  (List.range ((k + kb - 1) / kb)).foldl (fun acc n =>
    let ps := blockOf a b (n * kb) kb
    if ps = [] then acc
    else match tagFmt zt with
      | none => ((BitVec.ofInt 32 (sumAt 0 ps + acc.1)).toNat, acc.2)
      | some f =>
        let r := f.add .rne false (blockSum ps) (f.value acc.1)
        (r.bits, orFlags acc.2.1 r.flags, acc.2.2 + (cancels cbits ps).toNat)) (z, {}, 0)

/-- An attempt on a rung: its cells by row and column, and whether it exceeds its budgets (R228). -/
structure Attempt where
  cell    : Nat → Nat → Nat × Flags × Nat
  exceeds : Bool

/-- The attempt of R229 on rung r. -/
def attemptOn (m : Mbudget) (z : ZReg) (ta tb : TReg) (zt : Tag) (kb r : Nat) : Attempt :=
  let k := max ta.shape.cols tb.shape.cols
  let (na, sa, ua) := narrow r ta.shape.tag (ta.operand z.shape.rows k)
  let (nb, sb, ub) := narrow r tb.shape.tag (tb.operand z.shape.cols k)
  let c (i j : Nat) := cell zt kb m.cbits k (na.getD i []) (nb.getD j []) (field z.bits (i * 4096 + j * tagBits zt) (tagBits zt))
  let can := ((List.range z.shape.rows).map fun i => ((List.range z.shape.cols).map fun j => (c i j).2.2).sum).sum
  ⟨c, decide (m.satb < sa + sb) || decide (m.ufb < ua + ub) || decide (m.canb < can)⟩

/-- The instructions that need an attached matrix context (R221 item 1), with the rounding mode and VCFG.TAG that some also need. -/
def needsContext : Instr → Option (Option (Option Rounding) × Bool)
  | .mzeroT _ | .mzeroZ _ | .mldT _ _ _ | .mldZ _ _ _ | .mldbm _ _ _ _ | .mstT _ _ | .mstZ _ _ => some (none, false)
  | .mma _ _ _ _ _ _ | .mmaSp _ _ _ _ _ _ | .mmaSs _ _ _ _ _ _ => some (none, false)
  | .mdrain _ _ _ rm _ | .mdrainX _ _ _ _ rm _ | .mdrainv _ _ _ rm _ => some (some rm, true)
  | _ => none

/-- The conditions of R222 on a last, beside its tag: too few rows, too few columns, the wrong BM, odd VL or PITCH with fp4. -/
def misshapen (s : State) (y : Shape) (bm : Bool) : Prop :=
  y.rows < s.hart.rows ∨ (bm = false ∧ y.cols < s.hart.vl) ∨ y.bm ≠ bm ∨
    (y.tag = .fp4 ∧ ¬ (s.hart.vl % 2 = 0 ∧ s.hart.pitch.toNat % 2 = 0))

/-- The operands of a drain (R231): sources, tag conditions. -/
def drainFaults (s : State) (y : Shape) : List Bool :=
  [y.tag == .none, decide (y.rows < s.hart.rows), decide (y.cols < s.hart.vl), s.hart.vcfg.tag == .sc8,
    farApart (tagBits y.tag) (tagBits s.hart.vcfg.tag)]

/-- Element e of a drain, converted to VCFG.TAG (R231). -/
def drainedValue (s : State) (z : ZReg) (m : Rounding) (sat : Bool) (e : Nat) : FRes :=
  let w := tagBits z.shape.tag
  (convertTag z.shape.tag s.hart.vcfg.tag m sat (field z.bits (e / s.hart.vl * 4096 + e % s.hart.vl * w) w)).getD (plain 0)

/-- The drains to memory: tile, mask, base, mode, SAT, index register. -/
def drainForm : Instr → Option (ZNum × MNum × XReg × Option Rounding × Bool × Option VNum)
  | .mdrain z k a rm sat => some (z, k, a, rm, sat, none)
  | .mdrainX z k i a rm sat => some (z, k, a, rm, sat, some i)
  | _ => none

/-- R221, R222, R224, R225, R348: where the matrix instructions trap. Without an attached context they take matrix-detached. With one, a
last takes the lowest reason that holds: TAG none is reason 2 where the tile is read and 3 where it is written (DEDUCED, log 34), a shape
that does not fit reason 4; of a multiplication, a tag none or sc8 is reason 2, tags outside R224's table 3, a wrong BM 4. -/
def MatrixTraps : Prop :=
  (∀ (s : State) (i : Instr) (rm : Option (Option Rounding)) (typed : Bool), Claim.needsContext i = some (rm, typed) →
    s.hart.tile = none → (∀ r, rm = some r → ∃ m, Claim.roundsBy s r m) → (typed = true → s.hart.vcfg.tag ≠ .none) →
    Claim.traps i s s ⟨0x0B, 0, s.info 0⟩) ∧
  (∀ (s : State) (c : TileCtx) (i : Instr) (y : Shape) (bm reads : Bool), s.hart.tile = some c →
    ((∃ (d : TNum) (a : XReg) (h : Hint), i = .mldT d a h ∧ y = c.t[d.val].shape ∧ bm = false ∧ reads = false) ∨
      (∃ (d : Sys2Proof.ZNum) (a : XReg) (h : Hint), i = .mldZ d a h ∧ y = c.z[d.val].shape ∧ bm = false ∧ reads = false) ∨
      (∃ (d : TNum) (b a : XReg) (h : Hint), i = .mldbm d b a h ∧ y = c.t[d.val].shape ∧ bm = true ∧ reads = false) ∨
      (∃ (d : TNum) (a : XReg), i = .mstT d a ∧ y = c.t[d.val].shape ∧ bm = false ∧ reads = true) ∨
      ∃ (d : Sys2Proof.ZNum) (a : XReg), i = .mstZ d a ∧ y = c.z[d.val].shape ∧ bm = false ∧ reads = true) →
    (y.tag = .none → Claim.traps i s s ⟨0x02, 0, s.info ((if reads then 2 else 3) * 2 ^ 33)⟩) ∧
    (y.tag ≠ .none → Claim.misshapen s y bm → Claim.traps i s s ⟨0x02, 0, s.info (4 * 2 ^ 33)⟩)) ∧
  ∀ (s : State) (i : Instr) (bma bmb : Bool) (d : Sys2Proof.ZNum) (a b : TNum) (lo hi : Nat) (c : TileCtx),
    Claim.mmaForm i = some (bma, bmb, d, a, b, lo, hi) → s.hart.tile = some c →
    let ta := c.t[a.val].shape
    let tb := c.t[b.val].shape
    let z := c.z[d.val].shape
    let bare := Claim.noElements ta.tag = true ∨ Claim.noElements tb.tag = true ∨ Claim.noElements z.tag = true
    let outside := ∀ kb, stepTags ta.tag tb.tag ≠ some (z.tag, kb)
    let reason (n : Nat) : Trap := ⟨0x02, 0, s.info (n * 2 ^ 33)⟩
    (bare → Claim.traps i s s (reason 2)) ∧ (¬ bare → outside → Claim.traps i s s (reason 3)) ∧
    (¬ bare → ¬ outside → ta.bm ≠ bma ∨ tb.bm ≠ bmb → Claim.traps i s s (reason 4))

/-- R222, R223: `mld` and `mldbm` of an attached hart whose shapes and accesses pass complete: ROWS rows of the tile take what
was read, and with a bitmap its rows; every other tile, bit and last is as before; VSI is 0 (R12, DEDUCED, log 37). -/
def TileLoads : Prop :=
  ∀ (s : State) (c : TileCtx) (a : XReg) (hint : Hint), s.hart.tile = some c →
    let u := s.drain
    let frame (ls : List Loc) (t : State) : Prop :=
      let r := Claim.nearAll u ls
      t.hart.vsi = 0 ∧ Claim.goesOn s t ∧ Claim.sameMemory r t ∧ Claim.seenAlike r t ∧
        t = { r with rcache := t.rcache, hart := { r.hart with
          tile := t.hart.tile, vsi := t.hart.vsi, pc := t.hart.pc, instret := t.hart.instret } }
    let readable (y : Shape) : Prop := ∀ i j, i < s.hart.rows → j < Claim.rowUnits s y →
      Claim.loadable u (Claim.unitBytes y) (Claim.unitAddr s y a i j)
    (∀ d : TNum, let k := c.t[d.val]
      Claim.legalShape k.shape true → Claim.movable s k.shape → readable k.shape →
      ∃ t k', exec (.mldT d a hint) s = .next t ∧ frame (Claim.tileLocs s u k.shape a) t ∧
        t.hart.tile = some { c with t := c.t.set d.val k' } ∧
        Claim.loadedTile s u k.shape a 1024 k.bits k'.bits ∧ k'.bitmap = k.bitmap ∧ k'.shape = k.shape) ∧
    (∀ d : Sys2Proof.ZNum, let k := c.z[d.val]
      Claim.legalShape k.shape false → Claim.movable s k.shape → readable k.shape →
      ∃ t k', exec (.mldZ d a hint) s = .next t ∧ frame (Claim.tileLocs s u k.shape a) t ∧
        t.hart.tile = some { c with z := c.z.set d.val k' } ∧
        Claim.loadedTile s u k.shape a 4096 k.bits k'.bits ∧ k'.shape = k.shape) ∧
    ∀ (d : TNum) (b : XReg), let k := c.t[d.val]
      let y := k.shape
      let w := tagBits y.tag / 8
      let row (i : Nat) : Word := s.x b + BitVec.ofNat 64 i * 16
      let bm (i : Nat) : Nat := Claim.bitmapRow u y (s.x b) i
      let value (i p : Nat) : Word := s.x a + BitVec.ofNat 64 i * s.hart.pitch + BitVec.ofNat 64 (p * w)
      Claim.legalShape y true → y.tag ≠ .none → s.hart.rows ≤ y.rows → y.bm = true → (s.x b).toNat % 16 = 0 →
      (∀ i, i < s.hart.rows → Claim.loadable u 16 (row i)) →
      (∀ i, i < s.hart.rows → ∀ p ∈ Claim.slotsOf y (bm i), Claim.loadable u w (value i p)) →
      let ls := (List.range s.hart.rows).map (fun i => Claim.lies u .load 16 true (row i)) ++
        (List.range s.hart.rows).flatMap fun i => (Claim.slotsOf y (bm i)).map fun p => Claim.lies u .load w true (value i p)
      ∃ t k', exec (.mldbm d b a hint) s = .next t ∧ frame ls t ∧ t.hart.tile = some { c with t := c.t.set d.val k' } ∧
        k'.shape = y ∧
        (∀ i, i < s.hart.rows → Claim.field k'.bitmap (i * 128) 128 = bm i ∧
          (∀ p ∈ Claim.slotsOf y (bm i), Claim.field k'.bits (i * 1024 + p * w * 8) (8 * w) = Claim.wordAt u w (value i p)) ∧
          ∀ q, q < 1024 → (∀ p ∈ Claim.slotsOf y (bm i), q < p * w * 8 ∨ p * w * 8 + 8 * w ≤ q) →
            k'.bits.testBit (i * 1024 + q) = false) ∧
        (∀ q, s.hart.rows * 1024 ≤ q → k'.bits.testBit q = k.bits.testBit q) ∧
        ∀ q, s.hart.rows * 128 ≤ q → k'.bitmap.testBit q = k.bitmap.testBit q

/-- R222, R265: `mst` of an attached hart whose shape and accesses pass completes: the elements are stored in ascending order,
or stand in the open strip's buffer; the tile is as before; VSI is 0 (R12, DEDUCED, log 37). -/
def TileStores : Prop :=
  ∀ (s : State) (c : TileCtx) (i : Instr) (a : XReg) (y : Shape) (operand poison : Bool) (bits : Nat), Safety.Sound s →
    s.hart.tile = some c →
    ((∃ d : TNum, i = .mstT d a ∧ operand = true ∧ y = c.t[d.val].shape ∧ poison = c.t[d.val].poison ∧ bits = c.t[d.val].bits) ∨
      ∃ d : Sys2Proof.ZNum, i = .mstZ d a ∧ operand = false ∧ y = c.z[d.val].shape ∧ poison = c.z[d.val].poison ∧ bits = c.z[d.val].bits) →
    Claim.movable s y → poison = false →
    let u := s.drain
    let ws := Claim.tileWrites s u y a (if operand then 1024 else 4096) bits
    (∀ w ∈ ws, Claim.storable u (Claim.unitBytes y) false w.va) → Claim.roomFor u ws →
    ∃ t, exec i s = .next t ∧ Claim.storedAll u t ws ∧ t.hart.vsi = 0 ∧ Claim.goesOn s t ∧
      t = { u with mem := t.mem, spad := t.spad, poison := t.poison, spadPoison := t.spadPoison, rcache := t.rcache, hart := { u.hart with
        strip := t.hart.strip, vsi := t.hart.vsi, pc := t.hart.pc, instret := t.hart.instret } }

end Sys2Proof.Claim

/-- R218, R220: `mattach` of an attached hart changes nothing but c7 := 0; with the context held by another hart of the core,
or no rows available, c7 := 1; else the hart holds a context of the lesser number of rows with everything in it 0. `mdetach`
gives the context up; `mzero` clears a tile and its bitmap and keeps its last. All complete. -/
def Obligations.MatrixContexts : Prop :=
  ∀ s : State,
    (∀ r : Fin 4, ∃ t, exec (.mattach r) s = .next t ∧ Claim.tileFrame s t ∧ (∀ q, q ≠ 7 → t.c q = s.c q) ∧
      let g := min (32 * (r.val + 1)) (Claim.availableRows s)
      (s.hart.tile.isSome = true → t.c 7 = false ∧ t.hart.tile = s.hart.tile) ∧
      (s.hart.tile = none → Claim.takenByOther s ∨ g = 0 → t.c 7 = true ∧ t.hart.tile = none) ∧
      (s.hart.tile = none → ¬ Claim.takenByOther s → g ≠ 0 → t.c 7 = false ∧ ∃ c, t.hart.tile = some c ∧ c.rows = g ∧
        c.ceilx = false ∧ c.rung = 0 ∧ (∀ k : Fin 4, c.mreplay[k.val] = 0) ∧
        (∀ k : TNum, c.t[k.val] = ⟨0, 0, ⟨false, false, 0, 0, .none⟩, false⟩) ∧
        ∀ k : Sys2Proof.ZNum, c.z[k.val] = ⟨0, ⟨false, false, 0, 0, .none⟩, false⟩)) ∧
    (∃ t, exec .mdetach s = .next t ∧ t.hart.tile = none ∧ Claim.goesOn s t ∧
      t = { s with retRows := t.retRows, retRowsPend := t.retRowsPend, service := t.service, hart := { s.hart with
        tile := none, pc := t.hart.pc, instret := t.hart.instret } } ∧
      (s.hart.tile = none ∨ s.hart.place.core ∉ s.retRowsPend →
        t.retRows = s.retRows ∧ t.retRowsPend = s.retRowsPend ∧ t.service = s.service)) ∧
    (∀ (c : TileCtx) (d : TNum), s.hart.tile = some c → ∃ t k, exec (.mzeroT d) s = .next t ∧ Claim.tileFrame s t ∧
      t.hart.c = s.hart.c ∧ t.hart.tile = some { c with t := c.t.set d.val k } ∧ k.bits = 0 ∧ k.bitmap = 0 ∧
      k.shape = c.t[d.val].shape) ∧
    (∀ (c : TileCtx) (d : Sys2Proof.ZNum), s.hart.tile = some c → ∃ t k, exec (.mzeroZ d) s = .next t ∧ Claim.tileFrame s t ∧
      t.hart.c = s.hart.c ∧ t.hart.tile = some { c with z := c.z.set d.val k } ∧ k.bits = 0 ∧ k.shape = c.z[d.val].shape)

/-- R224 to R230: a multiplication with tags and bitmaps of R224 completes. With M or N zero nothing changes. Otherwise the
accepted rung is the first of L within its budgets, else the last, which sets CEILX when it exceeds them; each element of the
M by N accumulator takes its K-blocks on that rung, every other bit of the context is as before but RUNG and the MREPLAY of
each rung that was resoled to; the accepted attempt's flags are raised. -/
def Obligations.Multiplication : Prop :=
  ∀ (s : State) (i : Instr) (bma bmb : Bool) (d : Sys2Proof.ZNum) (a b : TNum) (lo hi : Nat) (c : TileCtx) (zt : Tag) (kb : Nat),
    Claim.mmaForm i = some (bma, bmb, d, a, b, lo, hi) → s.hart.tile = some c →
    let ta := c.t[a.val]
    let tb := c.t[b.val]
    let z := c.z[d.val]
    let w := tagBits zt
    ta.shape.bm = bma → tb.shape.bm = bmb → stepTags ta.shape.tag tb.shape.tag = some (zt, kb) → z.shape.tag = zt →
    (z.shape.rows = 0 ∨ z.shape.cols = 0 → ∃ t, exec i s = .next t ∧ Claim.tileFrame s t ∧ t.hart.tile = s.hart.tile ∧
      t.hart.c = s.hart.c) ∧
    (z.shape.rows ≠ 0 → z.shape.cols ≠ 0 → ta.poison = false → tb.poison = false → z.poison = false →
      Claim.legalShape z.shape false →
      let l := Claim.ladder ta.shape.tag tb.shape.tag lo hi
      let on := Claim.attemptOn s.hart.mbudget z ta tb zt kb
      ∃ t r bits, exec i s = .next t ∧
        ((l.find? fun r => !(on r).exceeds) = some r ∨ (l.all fun r => (on r).exceeds) = true ∧ l.getLast? = some r) ∧
        t.hart.tile = some { c with z := c.z.set d.val { z with bits := bits }, rung := Fin.ofNat 4 r
                                    ceilx := c.ceilx || (on r).exceeds
                                    mreplay := Vector.ofFn fun k : Fin 4 => c.mreplay[k.val] +
                                      (if k.val ∈ l.tail ∧ k.val ≤ r then 1 else 0) } ∧
        (∀ p q, p < z.shape.rows → q < z.shape.cols → Claim.field bits (p * 4096 + q * w) w = ((on r).cell p q).1) ∧
        (∀ k, (∀ p q, p < z.shape.rows → q < z.shape.cols → k < p * 4096 + q * w ∨ p * 4096 + q * w + w ≤ k) →
          bits.testBit k = z.bits.testBit k) ∧
        Claim.raised s t ((List.range z.shape.rows).foldr (fun p fl =>
          (List.range z.shape.cols).foldr (fun q fl => orFlags ((on r).cell p q).2.1 fl) fl) {}) false ∧
        Claim.goesOn s t ∧ Claim.sameMemory s t ∧
        t = { s with hart := { s.hart with
          tile := t.hart.tile, fcsr := t.hart.fcsr, pc := t.hart.pc, instret := t.hart.instret } })

/-- R231, R162: `mdrain` and `mdrain.x` whose conditions and accesses pass complete: the active elements from VSI on are stored,
converted, in ascending order, their flags are raised, VSI is 0, no event cutting them (R19, log 61); `mdrainv` completes with all active elements in its group,
which takes the tag, and VSI is 0 (R12, DEDUCED, log 37). The tile is as before. -/
def Obligations.Drains : Prop :=
  (∀ (s u : State) (i : Instr) (c : TileCtx) (z : Sys2Proof.ZNum) (k : MNum) (a : XReg) (rm : Option Rounding) (sat : Bool)
      (x : Option VNum) (m : Rounding), Safety.Sound s →
    Claim.drainForm i = some (z, k, a, rm, sat, x) → Claim.roundsBy s rm m → s.hart.tile = some c → c.z[z.val].poison = false →
    let y := c.z[z.val].shape
    let n := s.hart.rows * s.hart.vl
    let g (v : VNum) : Grp := ⟨v.val, 1, tagBits (Claim.tagOf s v)⟩
    let srcs := match x with | some v => [g v] | none => []
    let more := match x with | some v => [Claim.noElements (Claim.tagOf s v), !tagInt (Claim.tagOf s v)] | none => []
    s.hart.limit = none → s.hart.vcfg.tag ≠ .none → Claim.ready s.drain u ⟨srcs, [], Claim.governed k, k.val != 0, n, Claim.drainFaults s y ++ more⟩ →
    let row (p : Nat) : Int := match x with
      | some v => if tagSigned (Claim.tagOf s v) then (BitVec.ofNat (tagBits (Claim.tagOf s v)) (Claim.element u (g v) p)).toInt
          else Claim.element u (g v) p
      | none => p
    let w := Claim.accessBytes s
    let addr (e : Nat) : Word :=
      s.x a + BitVec.ofInt 64 (row (e / s.hart.vl)) * s.hart.pitch + BitVec.ofNat 64 (e % s.hart.vl * w)
    let acts := Claim.activeTo u k n
    let value := Claim.drainedValue s c.z[z.val] m sat
    let ws := acts.map fun e => (⟨addr e, Claim.lies u .store w false (addr e), w, (value e).bits, none, true⟩ : Claim.Write)
    (∀ e ∈ acts, Claim.storable u w false (addr e)) → Claim.roomFor u ws →
    ∃ t, exec i s = .next t ∧ Claim.storedAll u t ws ∧ t.hart.vsi = 0 ∧ Claim.goesOn s t ∧
      Claim.movedOn s.drain srcs t.hart.streams ∧ Claim.raised u t (Claim.allFlags acts value) (Claim.anySat acts value) ∧
      t = { u with mem := t.mem, spad := t.spad, poison := t.poison, spadPoison := t.spadPoison, rcache := t.rcache, hart := { u.hart with
        strip := t.hart.strip, fcsr := t.hart.fcsr, vsi := t.hart.vsi, streams := t.hart.streams, pc := t.hart.pc
        instret := t.hart.instret } }) ∧
  ∀ (s : State) (c : TileCtx) (z : Sys2Proof.ZNum) (k : MNum) (d : VNum) (rm : Option Rounding) (sat : Bool) (m : Rounding),
    Claim.roundsBy s rm m → s.hart.tile = some c → c.z[z.val].poison = false →
    let n := s.hart.rows * s.hart.vl
    let g := Claim.dataGroup s d
    Claim.ready s s ⟨[], [g], Claim.governed k, k.val != 0, n, Claim.drainFaults s c.z[z.val].shape ++ [decide (Claim.vlmax s < n)]⟩ →
    let acts := (List.range n).filter fun e => k.val == 0 || Claim.maskBit s k e
    let value := Claim.drainedValue s c.z[z.val] m sat
    ∃ t, exec (.mdrainv z k d rm sat) s = .next t ∧ Claim.wroteElements s t g s.hart.vcfg.tag acts (fun e => (value e).bits) ∧
      Claim.raised s t (Claim.allFlags acts value) (Claim.anySat acts value) ∧ t.hart.vsi = 0 ∧ Claim.goesOn s t ∧
      Claim.sameMemory s t ∧
      t = { s with hart := { s.hart with
        v := t.hart.v, fcsr := t.hart.fcsr, vsi := 0, pc := t.hart.pc, instret := t.hart.instret } }

namespace Sys2Proof.Claim

open Sys2Proof.Machine

/-! ### Copies (04 R81, 12 R233 to R241) -/

/-- Bytes that one move of a copy moves; an fp4 copy moves whole bytes, two elements at once (R237). -/
def moveBytes (k : CopyCmd) : Nat := max 1 (tagBits k.tag / 8)
/-- Elements of one move. -/
def moveElements (k : CopyCmd) : Nat := if k.tag = .fp4 then 2 else 1
/-- Moves of a copy. -/
def moveCount (k : CopyCmd) : Nat := k.n / moveElements k

/-- How far the source and the destination of move e lie behind x[b] and x[a] (R237). -/
def displaced (k : CopyCmd) (e : Nat) : Int × Int :=
  let w := moveBytes k
  let first := e * moveElements k
  let row : Nat := first / k.vl
  let col : Nat := first % k.vl / moveElements k * w
  match k.form with
  | .cpy2 => (row * k.xc.toInt + col, row * k.pitch.toInt + col)
  | .cpyG => (k.idx.getD e 0 * w, (e * w : Nat))
  | .cpyGd => ((e * w : Nat), k.idx.getD e 0 * w)
  | _ => ((e * w : Nat), (e * w : Nat))

/-- The source address of move e. -/
def sourceOf (k : CopyCmd) (e : Nat) : Word := k.xb + BitVec.ofInt 64 (displaced k e).1
/-- The destination address of move e. -/
def targetAt (k : CopyCmd) (e : Nat) : Word := k.xa + BitVec.ofInt 64 (displaced k e).2

/-- The copy writes an eyelet. -/
def toEyelet (k : CopyCmd) : Bool := k.form == .cpyR || k.form == .qsend

/-- The spans of the source and the destination bytes of a `cpy2`, `cpy.g` or `cpy.gd` are apart (R238 item 4). -/
def apart (k : CopyCmd) : Prop :=
  (k.form = .cpy ∨ toEyelet k) ∨
    (∀ i j, i < moveCount k → j < moveCount k →
      (k.xb.toNat : Int) + (displaced k i).1 + moveBytes k ≤ (k.xa.toNat : Int) + (displaced k j).2) ∨
    (∀ i j, i < moveCount k → j < moveCount k →
      (k.xa.toNat : Int) + (displaced k j).2 + moveBytes k ≤ (k.xb.toNat : Int) + (displaced k i).1)

/-- D, the lowest destination address of a local copy (R81). -/
def lowestAt (k : CopyCmd) (d : Word) : Prop :=
  (moveCount k = 0 → d = k.xa) ∧
    (0 < moveCount k → ∃ e < moveCount k, d = targetAt k e ∧ ∀ j < moveCount k, (displaced k e).2 ≤ (displaced k j).2)

/-- The address one byte above the highest destination byte. -/
def aboveAt (k : CopyCmd) (d : Word) : Prop :=
  ∃ e < moveCount k, d = targetAt k e + BitVec.ofNat 64 (moveBytes k) ∧ ∀ j < moveCount k, (displaced k j).2 ≤ (displaced k e).2

/-- CWM after `p` moves of a local copy, where D is `d` (R81). -/
def markedAt (k : CopyCmd) (desc : Bool) (d : Word) (p : Nat) (mark : Word) : Prop :=
  match k.form with
  | .cpy => if desc then (p < moveCount k → mark = d) ∧ (p = moveCount k → aboveAt k mark)
      else mark = d + BitVec.ofNat 64 (p * moveBytes k)
  | .cpyG => mark = d + BitVec.ofNat 64 (p * moveBytes k)
  | .cpy2 => if 0 < k.pitch.toInt then mark = d + BitVec.ofNat 64 (p * moveElements k / k.vl) * k.pitch
      else (p < moveCount k → mark = d) ∧ (p = moveCount k → aboveAt k mark)
  | _ => (p < moveCount k → mark = d) ∧ (p = moveCount k → aboveAt k mark)

/-- A channel of the hart. -/
def channel (s : State) (ch : ChNum) : Channel := s.hart.ch[ch.val]
/-- The other channels of the hart are as before. -/
def onlyChannel (s t : State) (ch : ChNum) : Prop := ∀ k : ChNum, k ≠ ch → channel t k = channel s k

/-- The copy commands: channel, operands, and the command as read at issue; `u` is the state in which an index group is read
(R236, R237, R249). A `qsend` also needs a fibre with a tag, or empty, in sound storage. -/
def copyForm (s u : State) : Instr → Option (ChNum × Operands × CopyCmd)
  | .cpy h a b r => some (h, ⟨[], [], [], false, 0, [noElements s.hart.vcfg.tag, s.hart.vcfg.tag == .fp4 && s.hart.vl % 2 != 0]⟩,
      base .cpy r (s.x a) (s.x b) 0 s.hart.vl)
  | .cpy2 h a b p r => some (h, ⟨[], [], [], false, 0,
      [noElements s.hart.vcfg.tag, s.hart.vcfg.tag == .fp4 && s.hart.rows * s.hart.vl % 2 != 0]⟩,
      base .cpy2 r (s.x a) (s.x b) (s.x p) (s.hart.rows * s.hart.vl))
  | .cpyR h a b r => some (h, ⟨[], [], [], false, 0, [noElements s.hart.vcfg.tag, s.hart.vcfg.tag == .fp4 && s.hart.vl % 2 != 0]⟩,
      base .cpyR r (s.x a) (s.x b) 0 s.hart.vl)
  | .cpyG h a b i r => some (h, ⟨[indexGroup s i], [], [], false, 0, noElements s.hart.vcfg.tag :: indexFaults s i []⟩,
      { base .cpyG r (s.x a) (s.x b) 0 s.hart.vl with itag := tagOf s i, idx := (List.range s.hart.vl).map (index s u i) })
  | .cpyGd h a b i r => some (h, ⟨[indexGroup s i], [], [], false, 0, noElements s.hart.vcfg.tag :: indexFaults s i []⟩,
      { base .cpyGd r (s.x a) (s.x b) 0 s.hart.vl with itag := tagOf s i, idx := (List.range s.hart.vl).map (index s u i) })
  | .qsend h b a r =>
    let q := s.hart.q[a.val]
    some (h, ⟨[], [], [], false, 0, [q.tag == .none && q.entries != [], q.poison]⟩,
      { base .qsend r (s.x b) 0 0 q.entries.length with tag := q.tag, vl := 0, msg := image q })
  | _ => none
where
  /-- The operands that every form reads. -/
  base (f : CopyForm) (r : Bool) (xa xb xc : Word) (n : Nat) : CopyCmd :=
    { form := f, rel := r, tag := s.hart.vcfg.tag, batch := 0, xa := xa, xb := xb, xc := xc, n := n, vl := s.hart.vl
      pitch := s.hart.pitch, user := decide (s.hart.priv.level = .user), root := s.hart.priv.ptbase, asid := s.hart.priv.asid.toNat % 2 ^ 16 }
  /-- The message of a fibre (R249): n, tag and sorted flag, eight bytes of zeros, the coordinates, zeros up to a multiple of
  eight, the values. -/
  image (q : QReg) : List Byte :=
    let n := q.entries.length
    bytesOf 8 (n + q.tag.code * 2 ^ 32 + q.sorted.toNat * 2 ^ 40) ++ List.replicate 8 0 ++
      q.entries.flatMap (fun e => bytesOf 4 e.1) ++ List.replicate (4 * (n % 2)) 0 ++
      q.entries.flatMap (fun e => bytesOf (max 1 (tagBits q.tag / 8)) e.2)

/-- The window address of a zone's eyelet 0 (R243): the next multiple of the eyelet size after the slot table. -/
def firstEyelet (z : Zone) : Nat :=
  let e := 2 ^ (12 + z.loge)
  (z.base + 256 + 8 * z.slots + e - 1) / e * e

/-- The window address, at a zone of this device, of the eyelet that a ticket names (R241). -/
def eyeletAt (z : Zone) (ticket : Word) : Word :=
  BitVec.ofNat 64 (windowBase + firstEyelet z + ticket.toNat / 2 ^ 40 % 256 * 2 ^ (12 + z.loge))

/-- A hart that an event names is the one whose turn it is. -/
def mine (s : State) (h : Nat) : Prop := s.hart.place.hid = h ∧ s.hart.phase ≠ .empty ∧ s.hart.phase ≠ .switched

/-- A running channel with a command, no lost path (R234). -/
def copying (s : State) (ch : ChNum) (k : CopyCmd) : Prop :=
  (channel s ch).state = .running ∧ (channel s ch).pend = false ∧ (channel s ch).cmd = some k

/-- The move of a local copy that comes next (R237). -/
def nextMove (c : Channel) (k : CopyCmd) : Nat :=
  let done := c.progress / moveElements k
  if c.desc then moveCount k - 1 - done else done

/-- The translation context of a copy: its level, root and ASID at issue, the hart's partition and core. -/
def copyContext (s : State) (k : CopyCmd) : Ctx := ⟨k.user, s.hart.place.part, k.root, k.asid, s.hart.place.core⟩

/-- The state in which an engine reads a source at its coherence point: the hart's own bytes of a line of another device have gone
there (R97, R104). -/
def sourced (s : State) (l : Loc) : State :=
  match l with
  | .spad _ => s
  | .phys a =>
    match targetOf a with
    | .remote _ _ => s.settle s.hart.place.hid a
    | _ => s

/-- A copy met a live barrier word (R252): the zone whose word it is becomes BROKEN, or the barrier object whose word it is has its
broken bit set, CTL [33]; every other byte is as before. -/
def broke (s t : State) (l : Loc) : Prop :=
  match l with
  | .spad i =>
    t.mem = s.mem ∧ ∀ z, (s.zones.find? fun z => z.core == i / Sys2Proof.Config.spadBytes && z.covers i) = some z →
      t.zoneWord z 0 = 2 ∧ ∀ j, j < z.byte z.base ∨ z.byte z.base + 8 ≤ j → Memory.read t.spad j = Memory.read s.spad j
  | .phys a =>
    t.spad = s.spad ∧ ∀ b, (s.barriers.find? fun b => decide (b.addr ≤ a) && decide (a < b.addr + 16)) = some b →
      Memory.readN t.mem b.addr 8 = Memory.readN s.mem b.addr 8 ||| 2 ^ 33 ∧
        ∀ j, j < b.addr ∨ b.addr + 8 ≤ j → Memory.read t.mem j = Memory.read s.mem j

/-- The code of a failed check (R235). -/
def failCode (cause : Nat) : Nat := if cause = 0x04 ∨ cause = 0x05 then 1 else if cause = 0x03 then 3 else if cause = 0x12 then 4 else 2

/-- A channel whose copy ends FAILED with a code at an address: its progress and CWM stay (R235). -/
def failedAs (c c' : Channel) (code : Nat) (addr : Word) : Prop :=
  c' = { c with state := .failed, code := code, pend := false, failAddr := addr }

/-- The channel that a command becomes (R233, R237, R240): in the open batch, with DESC fixed, progress 0 and CWM at D; RUNNING, or
DONE when it is local and has no element. -/
def acceptedAs (s : State) (c : Channel) (k : CopyCmd) : Prop :=
  c.cmd = some { k with batch := s.hart.batch } ∧ c.code = 0 ∧ c.pend = false ∧ c.progress = 0 ∧ c.failAddr = 0 ∧
    c.begun = false ∧ c.sent = 0 ∧ c.ahead = [] ∧ c.cwm = c.dest ∧ c.rem = toEyelet k ∧
    (c.desc = true ↔ k.form = .cpy ∧ k.xb.toNat < k.xa.toNat ∧ k.xa.toNat < k.xb.toNat + moveCount k * moveBytes k) ∧
    c.state = (if k.n = 0 ∧ toEyelet k = false then ChState.done else .running) ∧
    (toEyelet k = false → lowestAt k c.dest) ∧
    (∀ z, toEyelet k = true → handleDev k.xa = s.device.val →
      s.zoneAt (handleCore k.xa) (handleZone k.xa) = some z → c.dest = eyeletAt z k.xa)

/-- Bytes that a `.rel` command must send out first cannot go: a line of another device that the release treats holds some, and its
device is not reached or refuses them (R104, R371); and the copy reaches beyond this device, so that its scope is sys. -/
def relHeld (u : State) (k : CopyCmd) : Prop :=
  k.rel = true ∧ u.copyStays k = false ∧ ∃ l ∈ u.rcache, l.inOrderOf u.hart.place.core u.hart.place.hid = true ∧ l.dirty ≠ [] ∧
    u.turnedAway l.device l.line = true

/-- What a `.rel` command first does (R104), and another does not: the bytes of other devices that a release of the hart treats go
out, those that can. -/
def sentOut (u t : State) (k : CopyCmd) : Prop :=
  let mine (l : RLine) : Prop := l.inOrderOf u.hart.place.core u.hart.place.hid = true
  (k.rel = false → t.mem = u.mem ∧ t.rcache = u.rcache ∧ t.poison = u.poison) ∧
    (k.rel = true → (∀ l ∈ t.rcache, mine l → l.dirty = [] ∨ u.turnedAway l.device l.line = true) ∧
      ∀ a, (∀ l ∈ u.rcache, mine l → ∀ d ∈ l.dirty, l.line + d.off % 128 ≠ a) → Memory.read t.mem a = Memory.read u.mem a)

/-- R16, R81, R233, R237, R240: outside a strip a copy command whose operands are in order, of a channel that is not FAILED,
with source and destination apart, completes; with the channel IDLE or DONE, and nothing that a `.rel` must wait for (DEDUCED, log 45), it is accepted: the channel takes the command
into the open batch, fixes DESC, has progress 0 and CWM at D, and is RUNNING, or DONE when it is local and has no element.
Nothing else changes but that a `.rel` command first sends the hart's bytes of other devices out. While the channel runs
another copy, or the release is held, the command waits. VSI stays as it was (DEDUCED, log 37). -/
def CopyCommands : Prop :=
  ∀ (s u : State) (i : Instr) (ch : ChNum) (o : Claim.Operands) (k : CopyCmd),
    Claim.copyForm s u i = some (ch, o, k) → s.strip? = none → Claim.ready s u o → (Claim.channel s ch).state ≠ .failed →
    ((Claim.channel s ch).state = .running ∨ Claim.relHeld u k → exec i s = .next { u with hart := { u.hart with
      phase := .active, waiting := some (.channel ch k (s.boundBy o.srcs)) } }) ∧
    ((Claim.channel s ch).state ≠ .running → ¬ Claim.relHeld u k → Claim.apart k → ∃ t, exec i s = .next t ∧
      Claim.acceptedAs s (Claim.channel t ch) k ∧
      Claim.onlyChannel s t ch ∧ Claim.goesOn s t ∧ Claim.movedOn s o.srcs t.hart.streams ∧ t.spad = u.spad ∧
      Claim.sentOut u t k ∧
      t = { u with mem := t.mem, poison := t.poison, rcache := t.rcache, hart := { u.hart with
        ch := t.hart.ch, streams := t.hart.streams, pc := t.hart.pc, instret := t.hart.instret } })

/-- R238 items 3 and 4: a copy command whose operands are in order takes an engine fault when its channel is FAILED, with the
channel in FINFO [2:0], or when source and destination meet, with FINFO [3] set. Nothing is accepted. -/
def EngineFaults : Prop :=
  ∀ (s u : State) (i : Instr) (ch : ChNum) (o : Claim.Operands) (k : CopyCmd),
    Claim.copyForm s u i = some (ch, o, k) → s.strip? = none → Claim.ready s u o →
    ((Claim.channel s ch).state = .failed → ∃ t, exec i s = .next t ∧
      Claim.took u t 0x0C s.hart.pc 0 (BitVec.ofNat 64 ch.val)) ∧
    ((Claim.channel s ch).state = .idle ∨ (Claim.channel s ch).state = .done → ¬ Claim.relHeld u k → ¬ Claim.apart k →
      ∃ t, exec i s = .next t ∧ Claim.took u t 0x0C s.hart.pc 0 (BitVec.ofNat 64 (ch.val + 8)))

/-- R240, R241: outside a strip `cbatch` closes the open batch unless it is empty; `cwait n` completes when at most n batches
are outstanding, with c7 set when a channel is FAILED and as an acquire at scope sys, and else leaves the hart in MONITOR;
`cstat` reads the channel's status, progress, failing address or D; `cack` makes a FAILED channel IDLE with a cleared status
and its progress, CWM and D kept. -/
def CopyStatus : Prop :=
  ∀ s : State, s.strip? = none →
    (∃ t, exec .cbatch s = .next t ∧ Claim.goesOn s t ∧
      (let open' := ∃ ch k, (Claim.channel s ch).cmd = some k ∧ k.batch = s.hart.batch
       (open' → t.hart.batch = (s.hart.batch + 1) % 2 ^ 32) ∧ (¬ open' → t.hart.batch = s.hart.batch)) ∧
      t = { s with hart := { s.hart with batch := t.hart.batch, pc := t.hart.pc, instret := t.hart.instret } }) ∧
    (∀ (n : Fin 32) (out : List Nat), out.Nodup →
      (∀ b, b ∈ out ↔ ∃ ch k, (Claim.channel s ch).state = .running ∧ (Claim.channel s ch).cmd = some k ∧ k.batch = b) →
      (n.val < out.length → exec (.cwait n) s = .next { s with hart := { s.hart with
        phase := .monitor, waiting := some (.copies n.val) } }) ∧
      (out.length ≤ n.val → Claim.clean s → ∃ t, exec (.cwait n) s = .next t ∧ Claim.goesOn s t ∧ Claim.sameMemory s t ∧
        (t.c 7 = true ↔ ∃ ch, (Claim.channel s ch).state = .failed) ∧ (∀ r, r ≠ 7 → t.c r = s.c r) ∧
        Claim.noCopies s t ∧
        t = { s with rcache := t.rcache, hart := { s.hart with
          c := t.hart.c, phase := .active, waiting := none, pc := t.hart.pc, instret := t.hart.instret } })) ∧
    (∀ ch d sel, ∃ t, exec (.cstat ch d sel) s = .next t ∧
      Claim.wroteX s t d (let c := Claim.channel s ch
        if sel = 0 then BitVec.ofNat 64 ((match c.state with | .idle => 0 | .running => 1 | .done => 2 | .failed => 3) +
          c.rem.toNat * 2 ^ 3 + c.desc.toNat * 2 ^ 4 + c.pend.toNat * 2 ^ 5 + c.code * 2 ^ 8)
        else if sel = 1 then BitVec.ofNat 64 c.progress
        else if sel = 2 then (if c.state = .failed then c.failAddr else 0)
        else c.dest)) ∧
    (∀ ch, ∃ t, exec (.cack ch) s = .next t ∧ Claim.goesOn s t ∧ Claim.onlyChannel s t ch ∧
      (let c := Claim.channel s ch
       Claim.channel t ch = if c.state = .failed then
         { c with state := .idle, code := 0, pend := false, desc := false, rem := false, failAddr := 0 } else c) ∧
      t = { s with hart := { s.hart with ch := t.hart.ch, pc := t.hart.pc, instret := t.hart.instret } })

end Sys2Proof.Claim

/-- R81, R235, R237, R252: the engine's next move of a running local copy of the hart. With source and destination checked, no
live barrier word there, and sound data at the source, the source bytes stand at the destination at the coherence point, every other
byte is as before, progress and CWM rise, and the last move makes the channel DONE. A source or a destination that fails a check, the
source first, then a live barrier word, which leaves its zone or object broken, then uncorrectable data at the source, ends the copy
FAILED with its code and address, its progress kept. The source is read once the hart's own bytes of its line have gone out (R97). -/
def Obligations.CopyElements : Prop :=
  ∀ (s : State) (h : Nat) (ch : ChNum) (k : CopyCmd), Safety.Sound s → Claim.mine s h → Claim.copying s ch k →
    Claim.toEyelet k = false → (Claim.channel s ch).rem = false → s.repairing = none →
    let c := Claim.channel s ch
    let w := Claim.moveBytes k
    let done := c.progress / Claim.moveElements k
    let e := Claim.nextMove c k
    let src := Claim.sourceOf k e
    let dst := Claim.targetAt k e
    let from' := s.locateIn (Claim.copyContext s k) .load src.toNat w w false
    let onto := s.locateIn (Claim.copyContext s k) .store dst.toNat w w false
    done < Claim.moveCount k → ∃ t, exec (.copyElement h ch) s = .next t ∧ Claim.onlyChannel s t ch ∧
      (∀ a b, from' = .ok a → onto = .ok b → s.liveWord b = false →
        let r := Claim.sourced s a
        (Claim.sane r a w → Claim.stored r t b w (r.readLoc a w) ∧
          (let c' := Claim.channel t ch
           c'.progress = c.progress + Claim.moveElements k ∧ Claim.markedAt k c.desc c.dest (done + 1) c'.cwm ∧
           (done + 1 < Claim.moveCount k → c'.state = .running ∧ c'.code = c.code) ∧
           (done + 1 = Claim.moveCount k → c'.state = .done ∧ c'.code = 0) ∧
           c' = { c with state := c'.state, code := c'.code, progress := c'.progress, cwm := c'.cwm }) ∧
          t = { r with mem := t.mem, spad := t.spad, poison := t.poison, spadPoison := t.spadPoison, rcache := t.rcache
                       hart := { r.hart with ch := t.hart.ch } }) ∧
        (¬ Claim.sane r a w → Claim.failedAs c (Claim.channel t ch) 4 src ∧ t = { s with hart := { s.hart with ch := t.hart.ch } })) ∧
      (∀ r, from' = .error r → Claim.failedAs c (Claim.channel t ch) (Claim.failCode r.cause) (BitVec.ofNat 64 r.addr) ∧
        t = { s with hart := { s.hart with ch := t.hart.ch } }) ∧
      (∀ a r, from' = .ok a → onto = .error r →
        Claim.failedAs c (Claim.channel t ch) (Claim.failCode r.cause) (BitVec.ofNat 64 r.addr) ∧
        t = { s with hart := { s.hart with ch := t.hart.ch } }) ∧
      (∀ a b, from' = .ok a → onto = .ok b → s.liveWord b = true →
        Claim.failedAs c (Claim.channel t ch) 6 dst ∧ Claim.broke s t b ∧
        t = { s with mem := t.mem, spad := t.spad, spadPoison := t.spadPoison, hart := { s.hart with ch := t.hart.ch } })

namespace Sys2Proof.Claim

open Sys2Proof.Machine

/-! ### Landing zones (12 R242 to R249) -/

/-- A zone whose header and slot table lie within distinct pieces of its owner, as `lz.init` leaves it. -/
def placed (z : Zone) : Prop := z.base % 8 = 0 ∧ z.pieces.Nodup ∧ z.base + 256 + 8 * z.slots ≤ z.pieces.length * 65536

/-- The hart owns the live zone of this device that a handle names, and the handle has no reserved bit set (R247). -/
def owns (s : State) (h : Word) (z : Zone) : Prop :=
  handleBad h = false ∧ handleDev h = s.device.val ∧ s.zoneAt (handleCore h) (handleZone h) = some z ∧ z.owner = s.hart.place.hid

/-- Only some words of a zone's header and slot table may differ in memory. -/
def onlyWords (u t : State) (z : Zone) (ks : List Nat) : Prop :=
  t.mem = u.mem ∧ ∀ i, (∀ k ∈ ks, i < z.byte (z.base + 8 * k) ∨ z.byte (z.base + 8 * k) + 8 ≤ i) →
    Memory.read t.spad i = Memory.read u.spad i

/-- ST, SDEV, GEN, LEN and FIB of an entry as one word (R243). -/
def entryWord (st dev gen len : Nat) (fib : Bool) : Nat := gen * 2 ^ 48 + dev * 2 ^ 40 + st * 2 ^ 32 + fib.toNat * 2 ^ 31 + len

/-- The byte of an eyelet's payload. -/
def payloadByte (s : State) (z : Zone) (slot i : Nat) : Byte :=
  Memory.read s.spad (z.byte (firstEyelet z + slot * 2 ^ (12 + z.loge) + i))

/-- n bytes of a payload, little-endian. -/
def payloadWord (s : State) (z : Zone) (slot i n : Nat) : Nat :=
  (List.range n).foldr (fun k v => (payloadByte s z slot (i + k)).toNat + 256 * v) 0

/-- What a zone instruction leaves beside memory and the zone's records. -/
def zoneFrame (s u t : State) : Prop :=
  goesOn s t ∧ t = { u with spad := t.spad, spadPoison := t.spadPoison, zones := t.zones, fills := t.fills, torn := t.torn, hart := { u.hart with
    x := t.hart.x, c := t.hart.c, q := t.hart.q, pc := t.hart.pc, instret := t.hart.instret } }

/-- The zone's records are as before. -/
def sameZones (u t : State) : Prop := t.zones = u.zones ∧ t.fills = u.fills ∧ t.torn = u.torn

/-- A reservation at a zone (R245, R247): the word and c7 it answers, and the state after it. `part` is the sender's partition,
none for another device. -/
def reserved (u t : State) (h : Word) (dev chip : Nat) (part : Option (Fin 8)) (v : Word) (c7 : Bool) : Prop :=
  match u.zoneAt (handleCore h) (handleZone h) with
  | none => v = 2 ∧ c7 = true ∧ t.spad = u.spad ∧ t.fills = u.fills
  | some z =>
    if part ≠ none ∧ part ≠ some z.part then v = 2 ∧ c7 = true ∧ t.spad = u.spad ∧ t.fills = u.fills
    else if u.zoneWord z 0 = 2 then v = 3 ∧ c7 = true ∧ t.spad = u.spad ∧ t.fills = u.fills
    else
      let gen := u.zoneWord z 3 % 2 ^ 16
      ((∀ k < z.slots, entrySt (u.entry z k) ≠ 0) → v = 1 ∧ c7 = true ∧ t.spad = u.spad ∧ t.fills = u.fills) ∧
        ∀ k < z.slots, entrySt (u.entry z k) = 0 → (∀ j < k, entrySt (u.entry z j) ≠ 0) →
          v = BitVec.ofNat 64 (u.device.val * 2 ^ 24 + z.core / 16 * 2 ^ 16 + z.core % 16 * 2 ^ 8 + z.num + k * 2 ^ 40 + gen * 2 ^ 48) ∧ c7 = false ∧
            t.entry z k = entryWord 1 dev gen 0 false ∧ onlyWords u t z [32 + k] ∧
            t.fills = ⟨z.core, z.num, k, chip, none, 0, false⟩ :: u.fills

/-- The refusal of a transfer's first request, by the checks of R246 in order; none accepts it. -/
def refusalOf (u : State) (t : Word) (dev size : Nat) (part : Option (Fin 8)) : Option Nat :=
  if ticketBad t then some 7
  else match u.zoneAt (handleCore t) (handleZone t) with
    | none => some 8
    | some z =>
      let k := t.toNat / 2 ^ 40 % 256
      let e := u.entry z k
      let gen := t.toNat / 2 ^ 48
      if part ≠ none ∧ part ≠ some z.part then some 8
      else if u.zoneWord z 0 = 2 then some 10
      else if z.slots ≤ k ∨ entrySt e ≠ 1 ∨ entryDev e ≠ dev ∨ entryGen e ≠ gen ∨ u.zoneWord z 3 % 2 ^ 16 ≠ gen then some 7
      else if 2 ^ (12 + z.loge) < size then some 9
      else none

/-- An eyelet's entry with another ST (R243, R245). -/
def restated (e st : Nat) : Nat := e / 2 ^ 35 * 2 ^ 35 + st * 2 ^ 32 + e % 2 ^ 32

/-- An eyelet has become FULL (R245): LEN and FIB are written, ARRIVE rises by one. -/
def filled (u t : State) (z : Zone) (slot len : Nat) (fib : Bool) : Prop :=
  t.entry z slot = entryWord 3 (entryDev (u.entry z slot)) (entryGen (u.entry z slot)) len fib ∧
    t.zoneWord z 1 = (u.zoneWord z 1 + 1) % 2 ^ 64

/-- Another device of the domain whose path is there (R335, R371). -/
def reachable (s : State) (dev : Fin 256) : Prop := dev ≠ s.device ∧ dev ∈ s.domain ∧ s.unreachable dev.val = false

/-- The zone that a handle or ticket names, if there is one, is not one of a hart that is switched out (R250). -/
def ownerHere (s : State) (h : Word) : Prop :=
  ∀ z, s.zoneAt (handleCore h) (handleZone h) = some z → ∀ k ∈ s.hart :: s.parked, k.place.hid = z.owner → k.phase ≠ .switched

/-- R243, R248: outside a strip `lz.init` whose base and configuration pass its checks completes: the zone is live, its header
is STATE 1, ARRIVE, TORN and GEN 0, SHAPE and EYE0, its slot table is 0, x[d] is its handle; no eyelet byte and no other byte of
memory changes. -/
def ZoneInit : Prop :=
  ∀ (s : State) (d b c : XReg), Safety.Sound s → s.strip? = none → s.hart.place.pieces.Nodup →
    let u := s.drain
    let base := (s.x b).toNat
    let cfg := (s.x c).toNat
    let p := s.hart.place
    let z : Zone := ⟨p.core, cfg / 2 ^ 16 % 16, p.hid, p.part, p.pieces, base - windowBase, cfg % 256 + 1, cfg / 2 ^ 8 % 8⟩
    cfg < 2 ^ 20 → cfg / 2 ^ 11 % 32 = 0 → cfg / 2 ^ 8 % 8 ≤ 6 → base % 2 ^ (12 + z.loge) = 0 → windowBase ≤ base →
    Claim.firstEyelet z + z.slots * 2 ^ (12 + z.loge) ≤ p.pieces.length * 65536 →
    (∀ y ∈ u.zones, ¬ (y.core = z.core ∧ y.num = z.num)) →
    (∀ y ∈ u.zones, y.owner = z.owner →
      Claim.firstEyelet z + z.slots * 2 ^ (12 + z.loge) ≤ y.base ∨ Claim.firstEyelet y + y.slots * 2 ^ (12 + y.loge) ≤ z.base) →
    (∀ k, s.hart.disc.testBit k = true → (k + 1) * 4096 ≤ z.base ∨ Claim.firstEyelet z + z.slots * 2 ^ (12 + z.loge) ≤ k * 4096) →
    ∃ t, exec (.lzInit d b c) s = .next t ∧ Claim.zoneFrame s u t ∧ t.zones = z :: u.zones ∧ t.fills = u.fills ∧ t.torn = u.torn ∧
      t.zoneWord z 0 = 1 ∧ t.zoneWord z 1 = 0 ∧ t.zoneWord z 2 = 0 ∧ t.zoneWord z 3 = 0 ∧ t.zoneWord z 4 = cfg ∧
      t.zoneWord z 5 = windowBase + Claim.firstEyelet z ∧ (∀ k, 6 ≤ k → k < 32 + z.slots → t.zoneWord z k = 0) ∧
      t.x d = (if d = 0 then 0 else BitVec.ofNat 64
        (s.device.val * 2 ^ 24 + p.core / 16 * 2 ^ 16 + p.core % 16 * 2 ^ 8 + z.num)) ∧ (∀ r, r ≠ d → t.x r = s.x r) ∧
      t.hart.c = s.hart.c ∧ t.hart.q = s.hart.q ∧ Claim.onlyWords u t z (List.range (32 + z.slots))

/-- R247, R346, R348: the owner-only instructions trap with a zone fault, FADDR the handle: reason 1 where the handle has reserved bits
set, 2 where it names no live zone of this device (so a zone of another device), 3 where another hart owns the zone; `lz.free` and
`qrecv` reason 4 for an eyelet that the zone has not, or that is not FULL. -/
def ZoneTraps : Prop :=
  ∀ (s : State) (b : XReg), s.strip? = none →
    let h := s.x b
    let u := s.drain
    let fault (q : State) (n : Nat) : Trap := ⟨0x0D, h, q.info (n * 2 ^ 33)⟩
    let all (n : Nat) : Prop := (∀ c, Claim.traps (.lzWait b c) s s (fault s n)) ∧ (∀ c, Claim.traps (.lzFree b c) s u (fault u n)) ∧
      (∀ d, Claim.traps (.lzScrub d b) s u (fault u n)) ∧ Claim.traps (.lzFin b) s u (fault u n) ∧
      ∀ d c, Claim.traps (.qrecv d b c) s u (fault u n)
    (handleBad h = true → all 1) ∧
    (handleBad h = false → (handleDev h ≠ s.device.val ∨ ∀ z ∈ s.zones, ¬ (z.core = handleCore h ∧ z.num = handleZone h)) → all 2) ∧
    (handleBad h = false → handleDev h = s.device.val → ∀ z, s.zoneAt (handleCore h) (handleZone h) = some z →
      z.owner ≠ s.hart.place.hid → all 3) ∧
    ∀ z, Claim.owns u h z → ∀ c, z.slots ≤ (s.x c).toNat ∨ entrySt (u.entry z (s.x c).toNat) ≠ 3 →
      Claim.traps (.lzFree b c) s u (fault u 4) ∧ ∀ d, Claim.traps (.qrecv d b c) s u (fault u 4)

/-- R245, R247 to R249: the owner's instructions on its live zone complete. `lz.free` of a FULL eyelet makes its entry 0 and
ARRIVE one less; `lz.scrub` makes every TORN entry 0, TORN less by their number, x[d] that number; `lz.fin` with no eyelet
FILLING ends the zone, its STATE 0, and with one FILLING it waits at its address; `qrecv` of a FULL eyelet that holds a fibre
message of at most LEN bytes, with sound data, loads min(n, FCAP) entries, the tag and the sorted flag, and c7 says n > FCAP;
uncorrectable data among its first eight bytes is a trap 0x12 of UNIT 1 at the lowest such byte (R356). -/
def ZoneOwner : Prop :=
  ∀ (s : State) (b : XReg) (z : Zone), Safety.Sound s → s.strip? = none → Claim.owns s.drain (s.x b) z → Claim.placed z →
    let u := s.drain
    (∀ c, (s.x c).toNat < z.slots → entrySt (u.entry z (s.x c).toNat) = 3 →
      ∃ t, exec (.lzFree b c) s = .next t ∧ Claim.zoneFrame s u t ∧ Claim.sameZones u t ∧ t.hart.x = s.hart.x ∧
        t.hart.c = s.hart.c ∧ t.hart.q = s.hart.q ∧ t.entry z (s.x c).toNat = 0 ∧ t.zoneWord z 1 = u.zoneWord z 1 - 1 ∧
        Claim.onlyWords u t z [1, 32 + (s.x c).toNat]) ∧
    (∀ d, let torn := (List.range z.slots).filter fun k => entrySt (u.entry z k) == 4
      ∃ t, exec (.lzScrub d b) s = .next t ∧ Claim.zoneFrame s u t ∧ Claim.sameZones u t ∧
        t.x d = (if d = 0 then 0 else BitVec.ofNat 64 torn.length) ∧ (∀ r, r ≠ d → t.x r = s.x r) ∧
        t.hart.c = s.hart.c ∧ t.hart.q = s.hart.q ∧ (∀ k ∈ torn, t.entry z k = 0) ∧
        t.zoneWord z 2 = u.zoneWord z 2 - torn.length ∧ Claim.onlyWords u t z (2 :: torn.map (32 + ·))) ∧
    ((∃ k < z.slots, entrySt (u.entry z k) = 2) → exec (.lzFin b) s = .next u) ∧
    ((∀ k < z.slots, entrySt (u.entry z k) ≠ 2) → (∀ f ∈ u.fills, f.core = z.core → f.zone = z.num → f.xfer = none) →
      ∃ t, exec (.lzFin b) s = .next t ∧ Claim.zoneFrame s u t ∧ t.hart.x = s.hart.x ∧ t.hart.c = s.hart.c ∧
        t.hart.q = s.hart.q ∧ z ∉ t.zones ∧ (∀ y ∈ u.zones, y ≠ z → y ∈ t.zones) ∧ (∀ y ∈ t.zones, y ∈ u.zones) ∧
        t.zoneWord z 0 = 0 ∧ Claim.onlyWords u t z [0]) ∧
    (∀ d c tag, let k := (s.x c).toNat
      let e := u.entry z k
      let n := Claim.payloadWord u z k 0 4
      let w := max 1 (tagBits tag / 8)
      let values := 16 + 8 * ((4 * n + 7) / 8)
      let m := min n (128 * s.hart.ge)
      k < z.slots → entrySt e = 3 → e.testBit 31 = true →
      Claim.payloadWord u z k 4 1 < 16 → Tag.ofCode (Claim.payloadWord u z k 4 1) = some tag → (n ≠ 0 → tag ≠ .none) →
      values + n * w ≤ e % 2 ^ 19 →
      (∀ i < values + n * w, Claim.sane u (.spad (z.byte (Claim.firstEyelet z + k * 2 ^ (12 + z.loge) + i))) 1) →
      ∃ t, exec (.qrecv d b c) s = .next t ∧ Claim.zoneFrame s u t ∧ Claim.sameZones u t ∧ t.spad = u.spad ∧
        t.hart.x = s.hart.x ∧ t.c 7 = decide (128 * s.hart.ge < n) ∧ (∀ r, r ≠ 7 → t.c r = s.c r) ∧
        (∀ q : QNum, q ≠ d → t.hart.q[q.val] = s.hart.q[q.val]) ∧
        let new := t.hart.q[d.val]
        new.entries.length = m ∧ new.tag = tag ∧ new.sorted = (Claim.payloadByte u z k 5).getLsbD 0 ∧ new.poison = false ∧
          ∀ i < m, new.entries[i]? = some
            (Claim.payloadWord u z k (16 + 4 * i) 4, Claim.payloadWord u z k (values + i * w) w % 2 ^ tagBits tag)) ∧
    (∀ d c, let k := (s.x c).toNat
      let e := u.entry z k
      let at' (i : Nat) : Nat := Claim.firstEyelet z + k * 2 ^ (12 + z.loge) + i
      k < z.slots → entrySt e = 3 → e.testBit 31 = true → ∀ i < 8, ¬ Claim.sane u (.spad (z.byte (at' i))) 1 →
      (∀ j < i, Claim.sane u (.spad (z.byte (at' j))) 1) →
      Claim.traps (.qrecv d b c) s u ⟨0x12, BitVec.ofNat 64 (windowBase + at' i), u.info (2 ^ 41)⟩)

/-- R245, R247, R250: outside a strip `lz.res` with no reserved bit set completes for a zone of this device whose owner is not
switched out: with code 4 when the path between the chiplets is lost, else with the zone's answer. For another device it
completes with code 2 when the domain does not hold the device and 4 when its path is lost; else the request leaves the
module, and the strand waits for the reply. While the owner is switched out the instruction stays at its address (DEDUCED, log 51). -/
def ZoneReservations : Prop :=
  ∀ (s : State) (d b : XReg), Safety.Sound s → s.strip? = none → handleBad (s.x b) = false →
    let h := s.x b
    let dev := h.toNat / 2 ^ 24 % 256
    let chip := s.hart.place.core / 16
    let answers (v : Word) (c7 : Bool) (t : State) := exec (.lzRes d b) s = .next t ∧ Claim.reports s t d v c7 ∧
      t = { s with spad := t.spad, spadPoison := t.spadPoison, fills := t.fills, hart := { s.hart with
        x := t.hart.x, c := t.hart.c, pc := t.hart.pc, instret := t.hart.instret } }
    (dev = s.device.val →
      (s.chipletsLost chip (handleCore h / 16) = true → ∃ t, answers 4 true t ∧ t.spad = s.spad ∧ t.fills = s.fills) ∧
      (s.chipletsLost chip (handleCore h / 16) = false → ¬ Claim.ownerHere s h →
        (∀ z, s.zoneAt (handleCore h) (handleZone h) = some z → z.part = s.hart.place.part) → exec (.lzRes d b) s = .next s) ∧
      (s.chipletsLost chip (handleCore h / 16) = false → Claim.ownerHere s h →
        (∀ z, s.zoneAt (handleCore h) (handleZone h) = some z → Claim.placed z) →
        ∃ t v c7, answers v c7 t ∧ Claim.reserved s t h dev chip (some s.hart.place.part) v c7)) ∧
    (dev ≠ s.device.val →
      ((∀ e ∈ s.domain, e.val ≠ dev) → ∃ t, answers 2 true t ∧ t.spad = s.spad ∧ t.fills = s.fills) ∧
      ((∃ e ∈ s.domain, e.val = dev) → s.unreachable dev = true → ∃ t, answers 4 true t ∧ t.spad = s.spad ∧ t.fills = s.fills) ∧
      ((∃ e ∈ s.domain, e.val = dev) → s.unreachable dev = false → exec (.lzRes d b) s = .next { s with
        outbox := s.outbox ++ [.reserve dev h], hart := { s.hart with phase := .active, waiting := some (.reply d dev) } }))

/-- R25, R247, R252: outside a strip `lz.wait` of the owner completes, as an acquire at scope sys, when the zone is BROKEN, with c7 set,
or when ARRIVE has reached x[c], with c7 clear; else the hart is in MONITOR at the instruction. -/
def ZoneWaits : Prop :=
  ∀ (s : State) (b c : XReg) (z : Zone), s.strip? = none → Claim.owns s (s.x b) z →
    (s.zoneWord z 0 = 2 ∨ (s.x c).toNat ≤ s.zoneWord z 1 → Claim.clean s → ∃ t, exec (.lzWait b c) s = .next t ∧
      t.c 7 = decide (s.zoneWord z 0 = 2) ∧ (∀ r, r ≠ 7 → t.c r = s.c r) ∧ Claim.goesOn s t ∧ Claim.sameMemory s t ∧
      Claim.noCopies s t ∧
      t = { s with rcache := t.rcache, hart := { s.hart with
        c := t.hart.c, phase := .active, waiting := none, pc := t.hart.pc, instret := t.hart.instret } }) ∧
    (s.zoneWord z 0 ≠ 2 → s.zoneWord z 1 < (s.x c).toNat → exec (.lzWait b c) s = .next { s with hart := { s.hart with
      phase := .monitor, waiting := some (.arrivals (s.x b) (s.x c)) } })

/-- R245 to R247: what another device's requests do to a zone of this device. A reservation answers as the zone decides; a
first request is refused with its code, no byte written, or makes the eyelet FILLING, or at once FULL when the payload has no
byte; a payload write puts its bytes in the eyelet and is acknowledged, and the last makes the eyelet FULL. The news that the transfer
failed at its sender tears the eyelet. An eyelet that becomes FULL is kept among those whose acknowledgement may yet be lost (R251). -/
def ZoneServesDevices : Prop :=
  ∀ (s : State) (dev : Fin 256), Safety.Sound s → Claim.reachable s dev →
    (∀ h, Claim.ownerHere s h → (∀ z, s.zoneAt (handleCore h) (handleZone h) = some z → Claim.placed z) →
      ∃ t v c7, exec (.lzResRequest dev h) s = .next t ∧ Claim.reserved s t h dev.val (handleCore h / 16) none v c7 ∧
        t = { s with spad := t.spad, spadPoison := t.spadPoison, fills := t.fills, outbox := s.outbox ++ [.reserveReply dev.val v c7] }) ∧
    (∀ ticket size fib, Claim.ownerHere s ticket →
      let x := Transfer.theirs dev ticket size fib
      (∀ code, Claim.refusalOf s ticket dev.val size none = some code →
        exec (.zoneFirstRequest x) s = .next { s with outbox := s.outbox ++ [.refusal dev.val ticket code] }) ∧
      (∀ z, Claim.refusalOf s ticket dev.val size none = none → s.zoneAt (handleCore ticket) (handleZone ticket) = some z →
        Claim.placed z →
        let k := ticket.toNat / 2 ^ 40 % 256
        ∃ t, exec (.zoneFirstRequest x) s = .next t ∧
          (0 < size → t.entry z k = Claim.restated (s.entry z k) 2 ∧ Claim.onlyWords s t z [32 + k] ∧ t.outbox = s.outbox ∧
            t.fulls = s.fulls ∧
            (∃ f ∈ t.fills, f = ⟨z.core, z.num, k, handleCore ticket / 16, some x, size, fib⟩)) ∧
          (size = 0 → Claim.filled s t z k 0 fib ∧ Claim.onlyWords s t z [1, 32 + k] ∧
            t.outbox = s.outbox ++ [.acknowledge dev.val ticket 0 true] ∧ t.fulls = s.fulls ++ [(dev, ticket)]) ∧
          t = { s with spad := t.spad, spadPoison := t.spadPoison, fills := t.fills, fulls := t.fulls, outbox := t.outbox })) ∧
    (∀ ticket size fib data f z, let x := Transfer.theirs dev ticket size fib
      s.fillOf x = some f → s.zoneAt f.core f.zone = some z → Claim.placed z →
      (∀ k ∈ s.hart :: s.parked, k.place.hid = z.owner → k.phase ≠ .switched) → data ≠ [] → f.slot < z.slots →
      Claim.firstEyelet z + z.slots * 2 ^ (12 + z.loge) ≤ z.pieces.length * 65536 →
      let got := s.entry z f.slot % 2 ^ 19
      let n := min data.length (f.size - got)
      got + n < 2 ^ 19 → got + n ≤ 2 ^ (12 + z.loge) →
      ∃ t, exec (.eyeletPayloadWrite x data) s = .next t ∧
        (∀ i < n, Claim.payloadByte t z f.slot (got + i) = data.getD i 0) ∧
        (got + n ≠ f.size → entrySt (s.entry z f.slot) = 2 → t.entry z f.slot = s.entry z f.slot / 2 ^ 19 * 2 ^ 19 + got + n ∧
          t.zoneWord z 1 = s.zoneWord z 1 ∧ t.fills = s.fills ∧ t.fulls = s.fulls ∧
          t.outbox = s.outbox ++ [.acknowledge dev.val ticket (got + n) false]) ∧
        (got + n = f.size → Claim.filled s t z f.slot f.size f.fib ∧ f ∉ t.fills ∧
          t.fulls = s.fulls ++ [(dev, ticket)] ∧ t.outbox = s.outbox ++ [.acknowledge dev.val ticket f.size true]) ∧ t.mem = s.mem ∧
        t = { s with spad := t.spad, spadPoison := t.spadPoison, fills := t.fills, fulls := t.fulls, outbox := t.outbox }) ∧
    (∀ ticket data f z, (s.fills.find? fun f => f.ofSender dev ticket) = some f → s.zoneAt f.core f.zone = some z → Claim.placed z →
      Claim.ownerHere s ticket → f.slot < z.slots →
      ∃ t, exec (.eyeletPayloadWrite (.ended dev ticket) data) s = .next t ∧
        t.entry z f.slot = Claim.restated (s.entry z f.slot) 4 ∧ t.zoneWord z 2 = (s.zoneWord z 2 + 1) % 2 ^ 64 ∧
        Claim.onlyWords s t z [2, 32 + f.slot] ∧ f ∉ t.fills ∧
        t = { s with spad := t.spad, spadPoison := t.spadPoison, fills := t.fills })

/-- R246, R235: a transfer of the hart into a zone of another device of its domain, whose path is there and a port live. With the
ticket free of reserved bits and the first source in order the first move sends the request; a first source that fails its checks ends
the copy before any request (R237); each later move sends the next bytes, and a source that fails then ends the copy and says so to the
receiver. -/
def TransfersLeave : Prop :=
  ∀ (s : State) (h : Nat) (ch : ChNum) (k : CopyCmd), Claim.mine s h → Claim.copying s ch k → (Claim.channel s ch).rem = true →
    Claim.toEyelet k = true → s.repairing = none → handleDev k.xa ≠ s.device.val → s.inDomain (handleDev k.xa) = true →
    s.unreachable (handleDev k.xa) = false →
    let c := Claim.channel s ch
    let dev := handleDev k.xa
    let w := Claim.moveBytes k
    let n := c.sent / Claim.moveElements k
    let size := if k.form = .qsend then k.msg.length else Claim.moveCount k * w
    let source (e : Nat) : Word := k.xb + BitVec.ofNat 64 (e * w)
    let from' (e : Nat) := s.locateIn (Claim.copyContext s k) .load (source e).toNat w w false
    let ends (o : List Message) (r : Reject) : Prop := ∃ t, exec (.copyElement h ch) s = .next t ∧
      Claim.failedAs c (Claim.channel t ch) (Claim.failCode r.cause) (BitVec.ofNat 64 r.addr) ∧ Claim.onlyChannel s t ch ∧
      t = { s with outbox := s.outbox ++ o, hart := { s.hart with ch := t.hart.ch } }
    (c.begun = false → (k.form = .qsend ∨ size = 0 ∨ ∃ l, from' 0 = .ok l) → ticketBad k.xa = false →
      ∃ t, exec (.copyElement h ch) s = .next t ∧ Claim.channel t ch = { c with begun := true } ∧ Claim.onlyChannel s t ch ∧
        t = { s with outbox := s.outbox ++ [.firstRequest dev k.xa size (k.form == .qsend)], hart := { s.hart with ch := t.hart.ch } }) ∧
    (c.begun = false → k.form ≠ .qsend → size ≠ 0 → ∀ r, from' 0 = .error r → ends [] r) ∧
    (c.begun = true → k.form = .cpyR → c.sent < k.n → c.ahead = [] →
      (∀ l, from' n = .ok l → Claim.sane (Claim.sourced s l) l w →
        let r := Claim.sourced s l
        ∃ t data, exec (.copyElement h ch) s = .next t ∧ t.outbox = s.outbox ++ [.payload dev k.xa data] ∧ data.length = w ∧
          (∀ i < w, data.getD i 0 = BitVec.ofNat 8 (r.readLoc l w >>> (8 * i))) ∧
          Claim.channel t ch = { c with sent := c.sent + Claim.moveElements k } ∧ Claim.onlyChannel s t ch ∧
          t = { r with outbox := t.outbox, hart := { r.hart with ch := t.hart.ch } }) ∧
      ∀ r, from' n = .error r → ends [.transferFailed dev k.xa] r) ∧
    (c.begun = true → k.form = .qsend → c.sent < k.msg.length → c.ahead = [] →
      let data := (k.msg.drop c.sent).take 8
      ∃ t, exec (.copyElement h ch) s = .next t ∧
        Claim.channel t ch = { c with sent := c.sent + data.length } ∧ Claim.onlyChannel s t ch ∧
        t = { s with outbox := s.outbox ++ [.payload dev k.xa data], hart := { s.hart with ch := t.hart.ch } })

/-- R81, R246, R247: what the answers of another device do to the hart's transfers. The reply completes the `lz.res` that
waits; bytes acknowledged raise progress and CWM; the acknowledgement FULL makes the copy DONE with progress and CWM at the
payload's end; a refusal makes it FAILED with its code, the progress kept. -/
def DevicesAnswer : Prop :=
  ∀ (s : State) (h : Nat), Claim.mine s h →
    (∀ d dev value c7, s.hart.waiting = some (.reply d dev) → ∃ t, exec (.lzResReply h value c7) s = .next t ∧
      Claim.reports s t d value c7 ∧
      t = { s with hart := { s.hart with
        x := t.hart.x, c := t.hart.c, phase := .active, waiting := none, pc := t.hart.pc, instret := t.hart.instret } }) ∧
    (∀ ch k, Claim.copying s ch k → (Claim.channel s ch).rem = true → (Claim.channel s ch).begun = true →
      handleDev k.xa ≠ s.device.val →
      let c := Claim.channel s ch
      let size := if k.form = .qsend then k.msg.length else Claim.moveCount k * Claim.moveBytes k
      let sent := if k.form = .qsend then c.sent else c.sent / Claim.moveElements k * Claim.moveBytes k
      (∀ n, c.progress < n → n ≤ sent → ∃ t, exec (.bytesAcknowledged h ch n) s = .next t ∧
        Claim.channel t ch = { c with progress := n, cwm := c.dest + BitVec.ofNat 64 n } ∧ Claim.onlyChannel s t ch ∧
        t = { s with hart := { s.hart with ch := t.hart.ch } }) ∧
      ((if k.form = .qsend then k.msg.length else k.n) ≤ c.sent → ∃ t, exec (.fullAcknowledge h ch) s = .next t ∧
        Claim.channel t ch = { c with state := .done, code := 0, progress := size, cwm := c.dest + BitVec.ofNat 64 size } ∧
        Claim.onlyChannel s t ch ∧ t = { s with hart := { s.hart with ch := t.hart.ch } }) ∧
      (∀ code, 7 ≤ code → code ≤ 10 → ∃ t, exec (.zoneFirstRequest (.answer h ch code)) s = .next t ∧
        Claim.failedAs c (Claim.channel t ch) code 0 ∧ Claim.onlyChannel s t ch ∧
        t = { s with hart := { s.hart with ch := t.hart.ch } }))

/-- R37, R85, R176, R233, R338: the other engine events of the hart. A waiting copy command whose channel is IDLE or DONE, and which
nothing holds (DEDUCED, log 45), is accepted, and the hart goes on; an element group of a gather arrives once VSI has passed its elements,
and only its presence changes; a stream engine reads the strip behind those it holds, and pins what it translated, and only that
changes. -/
def EngineEvents : Prop :=
  ∀ (s : State) (h : Nat), Claim.mine s h →
    (∀ ch k uses, s.hart.waiting = some (.channel ch k uses) → ¬ Claim.relHeld s k →
      (Claim.channel s ch).state = .idle ∨ (Claim.channel s ch).state = .done → Claim.apart k →
      ∃ t, exec (.copyAccept h) s = .next t ∧ Claim.acceptedAs s (Claim.channel t ch) k ∧ Claim.onlyChannel s t ch ∧
        Claim.goesOn s t ∧ Claim.sentOut s t k ∧
        (∀ j : Sys2Proof.SNum, if j ∈ uses then t.hart.streams[j.val].pos = s.hart.streams[j.val].pos + BitVec.ofNat 64 s.hart.vl
          else t.hart.streams[j.val] = s.hart.streams[j.val]) ∧
        t = { s with mem := t.mem, poison := t.poison, rcache := t.rcache, hart := { s.hart with
          ch := t.hart.ch, streams := t.hart.streams, phase := .active, waiting := none, pc := t.hart.pc
          instret := t.hart.instret } }) ∧
    (∀ v g, ∃ t, exec (.gatherGroupArrive h v g) s = .next t ∧
      (∀ r : VNum, r ≠ v → t.hart.v[r.val] = s.hart.v[r.val]) ∧
      (let n := t.hart.v[v.val]
       let ends := (v.val % 2 ^ s.hart.vcfg.lgrp * (32 * s.hart.ge) + g.val + 1) * 256
       n = { s.hart.v[v.val] with owed := n.owed } ∧ ∀ i, n.owed.testBit i =
         (s.hart.v[v.val].owed.testBit i && !(i == g.val && decide (ends ≤ s.hart.vsi * tagBits s.hart.vcfg.tag)))) ∧
      t = { s with hart := { s.hart with v := t.hart.v } }) ∧
    (∀ k : Sys2Proof.SNum, let b := s.hart.streams[k.val]
      let n := s.hart.vl
      let w := tagBits b.tag / 8
      let addr (i : Nat) : Word := b.base + (b.pos + BitVec.ofNat 64 (b.strips.length * n + i)) * b.stride
      b.bound = true → b.strips.length < 8 → 0 < n → w ∣ 8 → 0 < w → n * tagBits b.tag ≤ 2 ^ b.lgrp * (8192 * s.hart.ge) →
      (∀ l ∈ b.strips, l.vals.length = n) → (∀ i < n, Claim.loadable s w (addr i)) →
      let r := Claim.nearAll s ((List.range n).map fun i => Claim.lies s .load w true (addr i))
      ∃ t st, exec (.streamPrefetch h k) s = .next t ∧ t.hart.streams[k.val] = { b with strips := b.strips ++ [st] } ∧
        st.vals = (List.range n).map (fun i => Claim.wordAt s w (addr i)) ∧
        st.pins.map (fun p => (p.addr, p.asid)) = (List.range n).map (fun i => ((addr i).toNat, s.hart.priv.asid.toNat % 2 ^ 16)) ∧
        (∀ j : Sys2Proof.SNum, j ≠ k → t.hart.streams[j.val] = s.hart.streams[j.val]) ∧ Claim.seenAlike r t ∧
        t = { r with rcache := t.rcache, hart := { r.hart with streams := t.hart.streams } })

end Sys2Proof.Claim

namespace Sys2Proof.Claim

open Sys2Proof.Machine

/-- R235, R245, R246: a transfer of the hart into a zone of this device, its path there and the zone's owner not switched out. The
engine's first move is the first request: refused with its code, no byte written, or the eyelet is FILLING, or at once FULL when
the payload has no byte; a first source that fails its checks ends the copy before it, and the eyelet stays RESERVED (R235, R237). Each later move puts an element's bytes in the eyelet, with progress and CWM behind them, and the
last makes the eyelet FULL and the copy DONE; a source that fails its checks tears the eyelet and ends the copy. -/
def LocalTransfers : Prop :=
  ∀ (s : State) (h : Nat) (ch : ChNum) (k : CopyCmd), Safety.Sound s → Claim.mine s h → Claim.copying s ch k →
    (Claim.channel s ch).rem = true → Claim.toEyelet k = true → handleDev k.xa = s.device.val →
    s.chipletsLost (s.hart.place.core / 16) (handleCore k.xa / 16) = false → Claim.ownerHere s k.xa → s.repairing = none →
    let c := Claim.channel s ch
    let me := Transfer.mine s.hart.place.hid ch
    let size := if k.form = .qsend then k.msg.length else Claim.moveCount k * Claim.moveBytes k
    let first := s.locateIn (Claim.copyContext s k) .load k.xb.toNat (Claim.moveBytes k) (Claim.moveBytes k) false
    let opens := k.form = .qsend ∨ size = 0 ∨ ∃ l, first = .ok l
    (c.begun = false → k.form ≠ .qsend → size ≠ 0 → ∀ r, first = .error r → ∃ t, exec (.copyElement h ch) s = .next t ∧
      Claim.failedAs c (Claim.channel t ch) (Claim.failCode r.cause) (BitVec.ofNat 64 r.addr) ∧ Claim.onlyChannel s t ch ∧
      t = { s with hart := { s.hart with ch := t.hart.ch } }) ∧
    (c.begun = false → opens →
      (∀ code, Claim.refusalOf s k.xa s.device.val size (some s.hart.place.part) = some code →
        ∃ t, exec (.copyElement h ch) s = .next t ∧ Claim.failedAs c (Claim.channel t ch) code 0 ∧ Claim.onlyChannel s t ch ∧
          t = { s with hart := { s.hart with ch := t.hart.ch } }) ∧
      (∀ z, Claim.refusalOf s k.xa s.device.val size (some s.hart.place.part) = none →
        s.zoneAt (handleCore k.xa) (handleZone k.xa) = some z → Claim.placed z →
        let slot := k.xa.toNat / 2 ^ 40 % 256
        ∃ t, exec (.copyElement h ch) s = .next t ∧ exec (.zoneFirstRequest (.mine h ch)) s = .next t ∧ Claim.onlyChannel s t ch ∧
          (0 < size → t.entry z slot = Claim.restated (s.entry z slot) 2 ∧ Claim.onlyWords s t z [32 + slot] ∧
            Claim.channel t ch = { c with begun := true } ∧
            ∃ f ∈ t.fills, f = ⟨z.core, z.num, slot, s.hart.place.core / 16, some me, size, k.form == .qsend⟩) ∧
          (size = 0 → Claim.filled s t z slot 0 (k.form == .qsend) ∧ Claim.onlyWords s t z [1, 32 + slot] ∧
            Claim.channel t ch = { c with state := .done, code := 0, begun := true }) ∧
          t = { s with spad := t.spad, spadPoison := t.spadPoison, fills := t.fills, hart := { s.hart with ch := t.hart.ch } })) ∧
    (∀ f z, c.begun = true → c.sent < (if k.form = .qsend then k.msg.length else k.n) → s.fillOf me = some f →
      f.core = handleCore k.xa → f.zone = handleZone k.xa → s.zoneAt f.core f.zone = some z →
      (∀ j ∈ s.hart :: s.parked, j.place.hid = z.owner → j.phase ≠ .switched) → Claim.placed z → f.slot < z.slots →
      Claim.firstEyelet z + z.slots * 2 ^ (12 + z.loge) ≤ z.pieces.length * 65536 → f.size ≤ 2 ^ (12 + z.loge) → f.size < 2 ^ 19 →
      f.size = size → (k.form = .qsend ∨ k.n % Claim.moveElements k = 0) →
      let w := Claim.moveBytes k
      let src := k.xb + BitVec.ofNat 64 (c.sent / Claim.moveElements k * w)
      let from' := s.locateIn (Claim.copyContext s k) .load src.toNat w w false
      let step := if k.form = .qsend then min 8 (size - c.sent) else Claim.moveElements k
      let bytes := if k.form = .qsend then c.sent else c.sent / Claim.moveElements k * w
      let bytes' := if k.form = .qsend then c.sent + step else (c.sent + step) / Claim.moveElements k * w
      s.entry z f.slot % 2 ^ 19 = bytes → bytes' ≤ size →
      (∀ i < bytes' - bytes, ∀ (b : Byte) (r : State), (k.form = .qsend → b = k.msg.getD (bytes + i) 0 ∧ r = s) →
        (k.form ≠ .qsend → w ≤ c.ahead.length → b = c.ahead.getD i 0 ∧ r = s) →
        (k.form ≠ .qsend → c.ahead.length < w → ∃ l, from' = .ok l ∧ r = Claim.sourced s l ∧ Claim.sane r l w ∧
          b = BitVec.ofNat 8 (r.readLoc l w >>> (8 * i))) →
        ∃ t, exec (.copyElement h ch) s = .next t ∧ exec (.eyeletPayloadWrite (.mine h ch) []) s = .next t ∧
          Claim.payloadByte t z f.slot (bytes + i) = b ∧ t.mem = r.mem ∧ Claim.onlyChannel s t ch ∧
          (let c' := Claim.channel t ch
           c'.progress = bytes' ∧ c'.cwm = c.dest + BitVec.ofNat 64 bytes' ∧ c'.sent = c.sent + step ∧
             (bytes' < size → c'.state = .running ∧ t.entry z f.slot % 2 ^ 19 = bytes' ∧ t.zoneWord z 1 = s.zoneWord z 1) ∧
             (bytes' = size → c'.state = .done ∧ c'.code = 0 ∧ Claim.filled s t z f.slot size f.fib)) ∧
          t = { r with spad := t.spad, spadPoison := t.spadPoison, fills := t.fills, hart := { r.hart with ch := t.hart.ch } }) ∧
      (∀ r, k.form ≠ .qsend → c.ahead.length < w → from' = .error r → ∃ t, exec (.copyElement h ch) s = .next t ∧
        Claim.failedAs c (Claim.channel t ch) (Claim.failCode r.cause) (BitVec.ofNat 64 r.addr) ∧ Claim.onlyChannel s t ch ∧
        t.entry z f.slot = Claim.restated (s.entry z f.slot) 4 ∧ t.zoneWord z 2 = (s.zoneWord z 2 + 1) % 2 ^ 64 ∧
        Claim.onlyWords s t z [2, 32 + f.slot] ∧ f ∉ t.fills))

end Sys2Proof.Claim

namespace Sys2Proof.Claim

open Sys2Proof.Machine

/-! ### What happens to a hart between its instructions (01 R24 to R30, 21 R345, R349 to R355) -/

/-- No copy of the hart can move on by itself. -/
def settledCopies (s : State) : Prop := ∀ c ∈ s.hart.ch.toList, c.canMove = false

/-- A hart that a pending event's level lets take it (R299, R345). -/
def takes (h : Hart) : Prop := h.priv.level = .user ∨ (h.priv.level = .kernel ∧ h.priv.aie = true)

/-- An asynchronous event taken (R299, R345): at the kernel's vector, with the level and AIE saved away. -/
def entered (h h' : Hart) (cause : Nat) (finfo : Word) : Prop :=
  h'.pc = h.priv.tvec ∧ h'.phase = .active ∧ h'.waiting = none ∧
    h'.priv = { h.priv with level := .kernel, aie := false, ppl := if h.priv.level = .user then 0 else 1, epc := h.pc
                            cause := BitVec.ofNat 64 cause, faddr := 0, finfo := finfo }

/-- A hart that a switch of its launch takes with it (R27, R345). -/
def called (h h' : Hart) : Prop :=
  h' = if (h.phase = .active ∨ h.phase = .monitor) ∧ h.pend20 = none ∧ h.pend21 = none ∧ h.switchPending = false
    then { h with pend20 := some false } else h

/-- A word of a save area (R353), through its pages. -/
def savedWord (s : State) (pages : List (Nat × Nat)) (off : Nat) : Nat := Memory.readN s.mem (areaByte pages off) 8

/-- So many words of a save area as one number, the first lowest. -/
def savedBits (s : State) (pages : List (Nat × Nat)) (off n : Nat) : Nat :=
  (List.range n).foldr (fun i v => savedWord s pages (off + 8 * i) * 2 ^ (64 * i) + v) 0

/-- The registers that the header holds as they read, and their offsets (R353). -/
def headerRegisters : List (Nat × Nat) :=
  [(0x000, 0x108), (0x002, 0x110), (0x003, 0x118), (0x004, 0x120), (0x005, 0x128), (0x006, 0x130), (0x008, 0x138), (0x011, 0x140),
   (0x040, 0x1D8), (0x041, 0x1E0), (0x042, 0x1E8), (0x00B, 0x208), (0x801, 0x218), (0x806, 0x220), (0x80A, 0x228)]

/-- What the hart holds fits the places of R352. -/
def areaFits (h : Hart) : Prop :=
  h.ge ≤ 16 ∧ h.place.pieces.length ≤ 64 ∧ (∀ st, h.strip = some st → st.recs.length ≤ 65536) ∧
    (∀ r : QNum, h.q[r.val].entries.length ≤ 128 * h.ge) ∧ ∀ c : ChNum, (h.ch[c.val].captured).1 ≤ 0x20000

/-- A save of the hart would read uncorrectable data (R356): in a register, a tile, or a piece that it writes. -/
def unreadable (s : State) (kept : Bool) : Prop :=
  let h := s.hart
  (∃ r : VNum, h.v[r.val].poison = true) ∨ (∃ r : MNum, h.m[r.val].poison = true) ∨ (∃ r : QNum, h.q[r.val].poison = true) ∨
    (∃ r : ENum, h.e[r.val].poison = true) ∨
    (∃ c, h.tile = some c ∧ ((∃ r : TNum, c.t[r.val].poison = true) ∨ ∃ r : ZNum, c.z[r.val].poison = true)) ∨
    (kept = false ∧ ∃ p ∈ h.place.pieces, poisoned s.spadPoison (h.place.core * 0x200000 + p * 65536) 65536 = true)

/-- The pages of a save area where they do not lie over one another. -/
def pagesApart (pages : List (Nat × Nat)) : Prop :=
  ∀ e ∈ pages, ∀ f ∈ pages, e.1 ≠ f.1 → e.2 + 32768 ≤ f.2 ∨ f.2 + 32768 ≤ e.2

/-- The registers, accumulators and fibres of a hart are those of a save area (R352, R353). -/
def holdsSaved (u : State) (pages : List (Nat × Nat)) (k : Hart) : Prop :=
  (∀ r : XReg, r ≠ 0 → k.x[r.val] = BitVec.ofNat 64 (savedWord u pages (8 * r.val))) ∧ k.x[0] = 0 ∧
  (∀ r : CBit, k.c[r.val] = (savedWord u pages 0x100).testBit r.val) ∧
  (∀ e ∈ headerRegisters, register { u with hart := k } e.1 = some (BitVec.ofNat 64 (savedWord u pages e.2))) ∧
  k.cycle = BitVec.ofNat 64 (savedWord u pages 0x1F8) ∧ k.instret = BitVec.ofNat 64 (savedWord u pages 0x200) ∧
  (∀ r : VNum, k.v[r.val].bits = savedBits u pages (0x110000 + 0x4000 * r.val) (128 * k.ge) ∧
    k.v[r.val].tag.code = savedWord u pages (0x290 + r.val / 8 * 8) / 256 ^ (r.val % 8) % 256 ∧ k.v[r.val].owed = 0) ∧
  (∀ r : MNum, k.m[r.val].bits = savedBits u pages (0x2000 + 0x800 * r.val) (16 * k.ge)) ∧
  (∀ r : ENum, (k.e[r.val]).image = savedBits u pages (0x1000 + 0x400 * r.val) 69 % 2 ^ 4355) ∧
  (∀ r : QNum, let w := savedWord u pages (0x2B0 + 16 * r.val)
    k.q[r.val].entries.length = w % 2 ^ 12 ∧ k.q[r.val].tag.code = w / 2 ^ 16 % 32 ∧ k.q[r.val].sorted = w.testBit 24 ∧
      ∀ i e, k.q[r.val].entries[i]? = some e →
        e = narrowed k.q[r.val].tag (savedWord u pages (0x190000 + 0x6000 * r.val + 8 * (i / 2)) / 2 ^ (32 * (i % 2)) % 2 ^ 32,
          savedWord u pages (0x192000 + 0x6000 * r.val + 8 * i)))

/-- The matrix context, channels, streams and strip of a hart are those of a save area (R352 to R354). -/
def holdsUnits (u : State) (pages : List (Nat × Nat)) (k : Hart) : Prop :=
  (k.tile.isSome = (savedWord u pages 0x330).testBit 8 ∧ ∀ c, k.tile = some c → c.rows = savedWord u pages 0x150 ∧
    (∀ r : TNum, c.t[r.val].bits = savedBits u pages (0x1C0000 + 0x4000 * r.val) 2048 ∧
      c.t[r.val].bitmap = savedBits u pages (0x1E0000 + 0x800 * r.val) 256 ∧
      lastWord c.t[r.val].shape = savedWord u pages (0x178 + 8 * r.val)) ∧
    ∀ r : ZNum, c.z[r.val].bits = savedBits u pages (0x1F0000 + 0x10000 * r.val) 8192 ∧
      lastWord c.z[r.val].shape = savedWord u pages (0x1B8 + 8 * r.val)) ∧
  (∀ c : ChNum, let at' := 0x6000 + 128 * c.val
    register { u with hart := k } (0x030 + c.val) = some (BitVec.ofNat 64 (savedWord u pages at')) ∧
      k.ch[c.val].cwm = BitVec.ofNat 64 (savedWord u pages (at' + 8)) ∧ k.ch[c.val].progress = savedWord u pages (at' + 16) ∧
      k.ch[c.val].failAddr = BitVec.ofNat 64 (savedWord u pages (at' + 24)) ∧
      k.ch[c.val].dest = BitVec.ofNat 64 (savedWord u pages (at' + 32))) ∧
  (∀ n : SNum, let at' := 0x6400 + 64 * n.val
    k.streams[n.val].bound = (savedWord u pages at').testBit 0 ∧ k.streams[n.val].strips = [] ∧
      k.streams[n.val].base = BitVec.ofNat 64 (savedWord u pages (at' + 8)) ∧
      k.streams[n.val].stride = BitVec.ofNat 64 (savedWord u pages (at' + 16)) ∧
      k.streams[n.val].pos = BitVec.ofNat 64 (savedWord u pages (at' + 24))) ∧
  (k.strip.isSome = (savedWord u pages 0x238).testBit 0 ∧ ∀ st, k.strip = some st →
    st.recovery = BitVec.ofNat 64 (savedWord u pages 0x240) ∧
    ∀ i r, st.recs[i]? = some r → r.addr + 2 ^ 52 * r.size + (if r.rel.isSome then 2 ^ 56 else 0) = savedWord u pages (0x8000 + 16 * i) ∧
      r.data = savedWord u pages (0x8008 + 16 * i))

/-- Words of a header that R355 refuses, whatever the rest is. -/
def illFormed (u : State) (pages : List (Nat × Nat)) : Prop :=
  let w := savedWord u pages
  w 0x330 % 256 ≠ 1 ∨ 2 ^ 11 ≤ w 0x330 ∨ w 0x100 / 256 % 4 = 3 ∨ 2 ^ 32 ≤ w 0x108 ∨ 2 ^ 32 ≤ w 0x110 ∨ 2 ^ 16 ≤ w 0x120 ∨
    w 0x208 ≠ u.hart.ge ∨ w 0x218 % 4 ≠ 0 ∨ w 0x228 ∉ [1, 2, 4, 8, 16] ∨ 2 ≤ w 0x238

/-- R25, R260: a wake event makes a hart in MONITOR, whose copies are at rest, do what its waiting instruction would do at
the same operands: complete or go on waiting. The end of a polling interval does so for a wait on a location. On a hart that
is not in MONITOR neither does anything. -/
def HartsLookAgain : Prop :=
  ∀ (s : State) (h : Nat), Claim.mine s h → s.strip? = none → Claim.settledCopies s →
    (s.hart.phase ≠ .monitor → exec (.monitorWake h) s = .next s ∧ exec (.pollInterval h) s = .next s) ∧
    (s.hart.phase = .monitor →
      (∀ n : Fin 32, s.hart.waiting = some (.copies n.val) →
        ∃ t, exec (.monitorWake h) s = .next t ∧ exec (.cwait n) s = .next t ∧ exec (.pollInterval h) s = .next s) ∧
      (∀ b c, s.hart.waiting = some (.arrivals (s.x b) (s.x c)) →
        ∃ t, exec (.monitorWake h) s = .next t ∧ exec (.lzWait b c) s = .next t) ∧
      (∀ a b sc, s.hart.waiting = some (.phase sc (s.x a) (s.x b)) →
        ∃ t, exec (.monitorWake h) s = .next t ∧ exec (.barWait a b sc) s = .next t) ∧
      (∀ d a b sc z, s.hart.waiting = some (.location true d (Claim.size z) sc (s.x a) (s.x b)) →
        ∃ t, exec (.monitorWake h) s = .next t ∧ exec (.pollInterval h) s = .next t ∧ exec (.waitge d a b sc z) s = .next t) ∧
      (∀ d a b sc z, s.hart.waiting = some (.location false d (Claim.size z) sc (s.x a) (s.x b)) →
        ∃ t, exec (.monitorWake h) s = .next t ∧ exec (.pollInterval h) s = .next t ∧ exec (.waiteq d a b sc z) s = .next t))

/-- R29, R37, R86, R299, R345, R349: a hart that runs and may take a pending event takes 0x21 before 0x20 before 0x22, at the kernel's
vector, with its count, its RETIRE bit or its value in FINFO, and every element of its vectors is present; the first two withdraw each
other and a posted reclaim and make the hart switch-pending. The end of the reclaim timer makes 0x21 pending with the posted count, and
calls the harts of a co-resident launch. -/
def AsynchronousEvents : Prop :=
  ∀ (s : State) (h : Nat), Claim.mine s h → (s.hart.phase = .active ∨ s.hart.phase = .monitor) →
    let here (t : State) : Prop := ∀ r : VNum, t.hart.v[r.val] = { s.hart.v[r.val] with owed := 0 }
    (∀ g, Claim.takes s.hart → s.hart.pend21 = some g → ∃ t disc, exec (.takeAsyncEvent h) s = .next t ∧ here t ∧
      Claim.entered s.hart t.hart 0x21 (BitVec.ofNat 64 (disc + g * 2 ^ 8)) ∧ disc < 2 ∧
      t = { s with freeCtr := t.freeCtr, hart := { s.hart with
        pc := t.hart.pc, phase := t.hart.phase, waiting := t.hart.waiting, priv := t.hart.priv, v := t.hart.v, pend20 := none
        pend21 := none, reclaim := none, switchPending := true } }) ∧
    (∀ retire, Claim.takes s.hart → s.hart.pend21 = none → s.hart.pend20 = some retire →
      ∃ t disc, exec (.takeAsyncEvent h) s = .next t ∧ here t ∧
        Claim.entered s.hart t.hart 0x20 (BitVec.ofNat 64 (disc + retire.toNat * 2)) ∧ disc < 2 ∧
        t = { s with freeCtr := t.freeCtr, hart := { s.hart with
          pc := t.hart.pc, phase := t.hart.phase, waiting := t.hart.waiting, priv := t.hart.priv, v := t.hart.v, pend20 := none
          reclaim := none, switchPending := true } }) ∧
    (∀ v, Claim.takes s.hart → s.hart.pend21 = none → s.hart.pend20 = none → s.hart.pend22 = some v →
      ∃ t, exec (.takeAsyncEvent h) s = .next t ∧ here t ∧ Claim.entered s.hart t.hart 0x22 (v.setWidth 64) ∧
        t = { s with hart := { s.hart with
          pc := t.hart.pc, phase := t.hart.phase, waiting := t.hart.waiting, priv := t.hart.priv, v := t.hart.v, pend22 := none } }) ∧
    (¬ Claim.takes s.hart → exec (.takeAsyncEvent h) s = .next s) ∧
    (s.hart.reclaim = none → exec (.reclaimTimeout h) s = .next s) ∧
    (∀ g, s.hart.reclaim = some g → ∃ t, exec (.reclaimTimeout h) s = .next t ∧
      t.hart = { s.hart with reclaim := none, pend21 := some g } ∧
      t = { s with hart := t.hart, parked := t.parked } ∧ t.parked.length = s.parked.length ∧
      ((s.launchOf s.hart.place.launch).all (fun l => !l.cores) = true → t.parked = s.parked) ∧
      ((s.launchOf s.hart.place.launch).any Launch.cores = true → ∀ (i : Nat) (k k' : Hart), s.parked[i]? = some k →
        t.parked[i]? = some k' →
          if k.place.launch = s.hart.place.launch ∧ k.place.hid ≠ h then Claim.called k k' else k' = k))

/-- R21, R22, R24, R107, R316: a hart whose pc is the hart-exit address ends, with status 0; elsewhere the event does nothing. A
DRAINING launch of which no copy runs is DONE: its status is 4 when a copy of it FAILED and is not acknowledged, its harts leave, and
DONESEQ × 256 + status stands at DONEADDR, when that is not 0 and is aligned, as the only change of memory; the launch's harts have no
byte of other devices still to send. While such a byte cannot be sent nothing happens. -/
def EndOfHartsAndLaunches : Prop :=
  (∀ (s : State) (h : Nat), Claim.mine s h →
    (s.hart.phase = .active → s.hart.waiting = none → s.hart.pc = 0x7FFFFFFFFFFF0 →
      ∃ t, exec (.hartEnd h) s = .next t ∧ Claim.ended s t 0 ∧ (∀ r, t.x r = s.x r) ∧ t.mem = s.mem) ∧
    (s.hart.pc ≠ 0x7FFFFFFFFFFF0 → exec (.hartEnd h) s = .next s)) ∧
  ∀ (s : State) (l : Launch), Safety.Sound s → s.launchOf l.id = some l → l.state = .draining →
    (∀ k ∈ s.hart :: s.parked, k.place.launch = l.id → k.phase = .ended → ∀ c ∈ k.ch.toList, c.state ≠ .running) →
    ((∃ k ∈ s.rcache, s.turnedAway k.device k.line = true ∧ ∃ d ∈ k.dirty, ∃ j ∈ s.hart :: s.parked,
      j.place.launch = l.id ∧ j.phase = .ended ∧ j.place.hid = d.hid) → exec (.launchDone l.id) s = .next s) ∧
    ((∀ k ∈ s.rcache, k.dirty = []) →
    let failed := ∃ k ∈ s.hart :: s.parked, k.place.launch = l.id ∧ k.phase = .ended ∧ ∃ c ∈ k.ch.toList, c.state = .failed
    ∃ t status, exec (.launchDone l.id) s = .next t ∧ (failed → status = 4) ∧ (¬ failed → status = l.status) ∧
      t.launchOf l.id = some { l with state := .done, status := status, counter := false } ∧
      (∀ n, n ≠ l.id → t.launchOf n = s.launchOf n) ∧
      (∀ k ∈ t.hart :: t.parked, k.place.launch = l.id → k.phase ≠ .ended) ∧
      (∀ k ∈ s.parked, (k.place.launch ≠ l.id ∨ k.phase ≠ .ended) → k ∈ t.parked) ∧
      (l.word 4 = 0 ∨ (l.word 4).toNat % 8 ≠ 0 → t.mem = s.mem) ∧
      (∀ pa, l.word 4 ≠ 0 → (l.word 4).toNat % 8 = 0 → s.schedLocate l.part .store (l.word 4).toNat 8 = .ok pa → localOrHost pa = true →
        s.liveWord (.phys pa) = false →
        Memory.readN t.mem pa 8 = ((l.word 5).toNat * 256 + status) % 2 ^ 64 ∧
        ∀ a, a < pa ∨ pa + 8 ≤ a → Memory.read t.mem a = Memory.read s.mem a) ∧
      t = { s with mem := t.mem, poison := t.poison, launches := t.launches, hart := t.hart, parked := t.parked })

/-- R349 to R353, R356: the switch-out of a hart whose copies are at rest. While a transfer into an eyelet runs it waits. Where what it
would save is uncorrectable the hart ends with status 2. Where its area fails a check of R350, before anything is written, it traps.
Else the hart is SWITCHED, with its place, privileged registers, G, matrix grant and strip remembered; its pieces read zero unless it owns
a live zone; every byte of memory outside the pages of its save area is as before; and where those pages are apart they hold EPC, x and
the other registers, vectors, masks and accumulators (CYCLE moves on, log 7). -/
def SwitchOut : Prop :=
  ∀ (s : State) (h : Nat), Safety.Sound s → Claim.mine s h → s.hart.waiting = some .switchOut → Claim.settledCopies s →
    let kept := s.ownsZone h
    let sending := ∃ c ∈ s.hart.ch.toList, c.rem = true ∧ c.state = .running
    let u := (s.readCycle).2
    let k := { u.hart with instret := s.hart.instret + 1 }
    let rs := (k.regions s.spad k.priv.epc k.priv.ppl.toNat kept).map fun r => (r.1, r.2.1)
    (sending → exec (.switchOut h) s = .next { s with hart := { s.hart with phase := .active } }) ∧
    (¬ sending → Claim.unreadable s kept → ∃ t, exec (.switchOut h) s = .next t ∧ Claim.ended s t 2 ∧
      (∀ r, t.x r = s.x r) ∧ t.mem = s.mem) ∧
    (∀ e, ¬ sending → ¬ Claim.unreadable s kept → u.areaPages k (regionPages rs) = .error e →
      exec (.switchOut h) s = .next (u.takeTrap (u.trapOf e)) ∧ u.mem = s.mem) ∧
    (∀ pages, ¬ sending → ¬ Claim.unreadable s kept → Claim.areaFits s.hart → u.areaPages k (regionPages rs) = .ok pages →
      ∃ t, exec (.switchOut h) s = .next t ∧ t.hart.phase = .switched ∧ t.hart.place = s.hart.place ∧ t.hart.priv = s.hart.priv ∧
        t.hart.ge = s.hart.ge ∧ t.hart.waiting = none ∧ t.hart.tile = none ∧ t.hart.switchPending = false ∧ t.hart.strip = s.hart.strip ∧
        t.parked = s.parked ∧ t.zones = s.zones ∧ (kept = true → t.spad = s.spad) ∧
        (kept = false → ∀ p ∈ s.hart.place.pieces, ∀ i < 65536,
          Memory.read t.spad (s.hart.place.core * 0x200000 + p * 65536 + i) = 0) ∧
        (∀ a, (∀ e ∈ pages, a < e.2 ∨ e.2 + 32768 ≤ a) → Memory.read t.mem a = Memory.read s.mem a) ∧
        (Claim.pagesApart pages →
          Claim.savedWord t pages 0 = s.hart.priv.epc.toNat ∧
          (∀ r : XReg, r ≠ 0 → Claim.savedWord t pages (8 * r.val) = (s.x r).toNat) ∧
          (∀ e ∈ Claim.headerRegisters, ∀ w, Claim.register s e.1 = some w → Claim.savedWord t pages e.2 = w.toNat) ∧
          Claim.savedWord t pages 0x200 = (s.hart.instret + 1).toNat ∧ Claim.savedWord t pages 0x1F8 = u.hart.cycle.toNat ∧
          (∀ r : VNum, Claim.savedBits t pages (0x110000 + 0x4000 * r.val) (128 * s.hart.ge) = s.hart.v[r.val].bits % 2 ^ (8192 * s.hart.ge)) ∧
          (∀ r : MNum, Claim.savedBits t pages (0x2000 + 0x800 * r.val) (16 * s.hart.ge) = s.hart.m[r.val].bits % 2 ^ (1024 * s.hart.ge)) ∧
          (∀ r : ENum, Claim.savedBits t pages (0x1000 + 0x400 * r.val) 69 = (s.hart.e[r.val]).image % 2 ^ 4416)))

/-- R325, R355, R356: the restore whose turn it is, of the one hart that it names, at the place the scheduler chose. Where its area does
not translate, is uncorrectable, or breaks a check of R355, the hart ends with status 2. Else it is ACTIVE there, with its clusters, slot
and pieces, at the pc, registers, vectors, masks, accumulators, fibres, matrix context, channels, streams and strip of its area; pages of
its pieces are as saved, and zero where they were left out. -/
def HartRestore : Prop :=
  ∀ (s : State) (h : Nat) (l : Launch) (q : Hold),
    s.hart.place.hid = h → s.hart.phase = .switched → (∀ j ∈ s.parked, j.place.hid ≠ h) → s.repairing = none →
    s.mayPlace s.hart.place.part = true → s.winner s.hart.place.part = some (l, .restore [q]) → q.hid = h →
    let u := (s.freshCore s.hart.place.core h).freshCore q.core h
    let dies := ∃ t, exec (.hartRestore h) s = .next t ∧ Claim.ended u t 2 ∧ t.mem = u.mem
    (∀ e, u.areaPages u.hart [(0, 0)] = .error e → dies) ∧
    (∀ first, u.areaPages u.hart [(0, 0)] = .ok first →
      let rs := u.savedRegions first s.hart.place.pieces.length
      (∀ e, u.areaPages u.hart (regionPages rs) = .error e → dies) ∧
      (∀ pages, u.areaPages u.hart (regionPages rs) = .ok pages →
        ((∃ r ∈ rs, ∃ i, 8 * i < r.2 ∧ poisoned u.poison (areaByte pages (r.1 + 8 * i)) 8 = true) → dies) ∧
        (Claim.illFormed u pages → dies) ∧ (u.readContext pages u.hart q = none → dies) ∧
        (∀ k, (∀ r ∈ rs, ∀ i, 8 * i < r.2 → poisoned u.poison (areaByte pages (r.1 + 8 * i)) 8 = false) →
          u.readContext pages u.hart q = some k →
          let fmt := Claim.savedWord u pages 0x330
          ∃ t, exec (.hartRestore h) s = .next t ∧ t.hart = k ∧ k.phase = .active ∧ k.waiting = none ∧
            k.place = { s.hart.place with core := q.core, slot := q.slot, cbase := q.cbase, grant := q.grant, pieces := q.pieces } ∧
            k.pc = BitVec.ofNat 64 (Claim.savedWord u pages 0) ∧ Claim.holdsSaved u pages k ∧ Claim.holdsUnits u pages k ∧
            t.parked = s.parked ∧ t.mem = u.mem ∧ (fmt.testBit 10 = true → fmt.testBit 9 = false → t.spad = u.spad) ∧
            (q.pieces.Nodup → fmt.testBit 10 = false → ∀ p < 16 * q.pieces.length, ∀ i < 512,
              Memory.readN t.spad (spadIndex q.core q.pieces (4096 * p + 8 * i)) 8 =
                if fmt.testBit 9 = true ∧ k.disc.testBit p = true then 0 else Claim.savedWord u pages (0x400000 + 4096 * p + 8 * i)))))

end Sys2Proof.Claim

namespace Sys2Proof.Claim

open Sys2Proof.Machine

/-! ### Queues, launches, partitions (18 R307, R308, 19 R311 to R330) -/

/-- The eight words of 64 bytes (R5). -/
def wordsOf (data : List Byte) : List Word :=
  (List.range 8).map fun k => BitVec.ofNat 64 ((List.range 8).foldr (fun i v => (data.getD (8 * k + i) 0).toNat + 256 * v) 0)

/-- Only one queue may differ. -/
def onlyQueue (s t : State) (q : Nat) : Prop := ∀ r, r ≠ q → t.queue r = s.queue r

/-- A packet offered to a queue (R311): queued last, or dropped and counted where 64 entries are in use. -/
def offered (s t : State) (q : Nat) (ws : List Word) : Prop :=
  ((s.queue q).used < 64 → t.queue q = { s.queue q with packets := (s.queue q).packets ++ [ws], acc := (s.queue q).acc + 1 }) ∧
    (64 ≤ (s.queue q).used → t.queue q = { s.queue q with drop := (s.queue q).drop + 1 })

/-- The launch that a packet of a queue becomes, with the scheduler's partition in CTL [42:40] (R312). -/
def launchFrom (s : State) (q : Nat) (p : Fin 8) (w : List Word) : Launch :=
  { id := s.nextLaunch, queue := q, part := p
    words := w.set 6 (BitVec.ofNat 64 ((w.getD 6 0).toNat / 2 ^ 43 * 2 ^ 43 + p.val * 2 ^ 40 + (w.getD 6 0).toNat % 2 ^ 40))
    prio := (w.getD 6 0).toNat / 2 ^ 36 % 8 }

/-- The dependence is met (R315): none, or the word at DEPADDR is at least DEPVAL. -/
def dependenceMet (s : State) (l : Launch) : Prop :=
  l.word 2 = 0 ∨ ∃ pa, s.schedLocate l.part .load (l.word 2).toNat 8 = .ok pa ∧ (l.word 3).toNat ≤ Memory.readN s.mem pa 8

/-- A bit of a packet that R312 reserves is set, or an address of it is misaligned. -/
def packetMalformed (l : Launch) : Prop :=
  let c := (l.word 6).toNat
  (l.word 0).toNat % 4 ≠ 0 ∨ 2 ^ 51 ≤ (l.word 0).toNat ∨ (l.word 1).toNat % 64 ≠ 0 ∨ (l.word 2).toNat % 8 ≠ 0 ∨
    (l.word 4).toNat % 8 ≠ 0 ∨ 2 ^ 56 ≤ (l.word 5).toNat ∨ l.word 7 ≠ 0 ∨
    2 ^ 43 ≤ c ∨ c.testBit 39 = true ∨ c / 2 ^ 33 % 8 ≠ 0 ∨ c / 2 ^ 30 % 4 ≠ 0 ∨ c / 2 ^ 19 % 32 ≠ 0 ∨ c.testBit 15 = true

/-- An address word of a packet is 0, or is translated with the permission, in HBM4 of this device or host memory. -/
def addressUsable (s : State) (l : Launch) (k : Access) (a : Word) : Prop :=
  a = 0 ∨ ∃ pa, s.schedLocate l.part k a.toNat 8 = .ok pa ∧ (targetOf pa = .hbm ∨ targetOf pa = .host)

/-- S of R317: how many harts of a launch its partition could hold at once. -/
def couldHold (s : State) (l : Launch) : Nat :=
  let c := (l.word 6).toNat
  let pieces := c / 2 ^ 24 % 64
  ((s.partCores l.part).map fun k =>
    let fit := min 16 (((List.range 16).filter fun n => !s.clusterRetired k n).length / 2 ^ (c / 2 ^ 12 % 8))
    if pieces = 0 then fit else min fit (32 / pieces)).sum

/-- The table of R317: a packet is refused. -/
def refusedPacket (s : State) (l : Launch) : Prop :=
  let c := (l.word 6).toNat
  let harts := c % 2 ^ 12
  let least := c / 2 ^ 12 % 8
  let wanted := c / 2 ^ 16 % 8
  packetMalformed l ∨
    (l.word 1 ≠ 0 ∧ ∃ k < 8, ∀ pa, s.schedLocate l.part .load ((l.word 1).toNat + 8 * k) 8 ≠ .ok pa) ∨
    harts = 0 ∨ 2048 < harts ∨ 4 < least ∨ 4 < wanted ∨ wanted < least ∨ 32 < c / 2 ^ 24 % 64 ∨
    ¬ addressUsable s l .load (l.word 2) ∨ ¬ addressUsable s l .store (l.word 4) ∨
    couldHold s l = 0 ∨ (c.testBit 32 = true ∧ couldHold s l < harts)

/-- The completion signal of a launch (R316): DONESEQ × 256 + status at DONEADDR, where that is nonzero, aligned and can be written; no
other byte of memory changes. -/
def signalled (s t : State) (l : Launch) (status : Nat) : Prop :=
  (∀ pa, l.word 4 ≠ 0 → (l.word 4).toNat % 8 = 0 → s.schedLocate l.part .store (l.word 4).toNat 8 = .ok pa →
    (targetOf pa = .hbm ∨ targetOf pa = .host) → s.liveWord (.phys pa) = false →
    Memory.readN t.mem pa 8 = ((l.word 5).toNat * 256 + status) % 2 ^ 64 ∧
      ∀ a, a < pa ∨ pa + 8 ≤ a → Memory.read t.mem a = Memory.read s.mem a) ∧
  (l.word 4 = 0 ∨ (l.word 4).toNat % 8 ≠ 0 ∨ (∀ pa, s.schedLocate l.part .store (l.word 4).toNat 8 ≠ .ok pa) → t.mem = s.mem)

/-- The hart that a placement makes (R23, R46, R52, R309): all else of it is at its reset value. -/
def freshHart (s : State) (l : Launch) (q : Hold) (index : Nat) (k : Hart) : Prop :=
  let p := s.partOf l.part
  k.ge = min q.grant p.lvlcap ∧
    k.place.launch = l.id ∧ k.place.part = l.part ∧ k.place.core = q.core ∧ k.place.slot = q.slot ∧ k.place.cbase = q.cbase ∧
    k.place.grant = q.grant ∧ k.place.pieces = q.pieces ∧ k.place.hartNo = index ∧ k.place.harts = l.harts ∧
    (∀ j ∈ s.hart :: s.parked, j.place.part = l.part → alive j → j.place.saveslot ≠ k.place.saveslot) ∧
    k.priv = { tvec := p.ltvec, ptbase := p.lroot, asid := BitVec.ofNat 64 p.lasid, vlcap := p.lvlcap } ∧
    k.x[1] = 0x7FFFFFFFFFFF0 ∧ k.x[3] = BitVec.ofNat 64 index ∧ k.x[4] = BitVec.ofNat 64 l.harts ∧
    (∀ i : Fin 8, k.x[10 + i.val] = l.args.getD i.val 0) ∧
    (∀ r : XReg, r ≠ 1 → r ≠ 3 → r ≠ 4 → ¬ (10 ≤ r.val ∧ r.val < 18) → k.x[r.val] = 0) ∧
    k = { phase := .active, pc := l.word 0, x := k.x, ge := k.ge, place := k.place, priv := k.priv }

/-- A message of a rack node that its partition accepts (R329); after a failed image nothing is (R379). -/
def rackAccepts (s : State) (source : Word) (p : Fin 8) : Prop :=
  s.silent = false ∧ (s.service.ready.getLsbD 30 = true ∨ s.service.ready.getLsbD 31 = true) ∧ (s.scheds[p.val]).racken = true ∧
    (s.scheds[p.val]).rackaddr = source

/-- The answer to a launch request (R329): its number, kind 2 and the result. -/
def rackAnswered (s : State) (dest : Word) (req result : Nat) : State :=
  { s with outbox := s.outbox ++ [.rack dest [BitVec.ofNat 64 (req * 2 ^ 16 + 2 * 2 ^ 32 + result * 2 ^ 40)]] }

/-- R311, R375, R379: a write of 64 bytes at offset 0 of a queue's window offers its packet; another write below offset 0x40 counts
in DROP; a write elsewhere, of no byte, before READY [0] is set or after a failed image does nothing. -/
def QueueWindows : Prop :=
  ∀ (s : State) (q : Fin 1024) (off : Nat) (data : List Byte),
    let opened := s.service.ready.getLsbD 0 = true ∧ s.silent = false
    ∃ t, exec (.queueWindowWrite q off data) s = .next t ∧
    Claim.onlyQueue s t q.val ∧ t = { s with queues := t.queues } ∧
    (¬ opened ∨ 0x40 ≤ off ∨ data = [] → t = s) ∧
    (opened → off = 0 → data.length = 64 → Claim.offered s t q.val (Claim.wordsOf data)) ∧
    (opened → off < 0x40 → data ≠ [] → ¬ (off = 0 ∧ data.length = 64) →
      t.queue q.val = { s.queue q.val with drop := (s.queue q.val).drop + 1 })

/-- R313 to R317, R376: the oldest packet of a queue whose head is free, owned by an enabled partition with a ready chiplet,
READY [1] set, not in standby and with all chiplets back that it powered off, is accepted: it leaves the waiting packets and becomes a
launch with the partition in its CTL. Where no row of R317 holds it is the queue's head, with its argument block read, READY when its
dependence is met and else WAITING; where one holds it is REJECTED with status 1, which its completion signal says, and frees its entry.
Otherwise nothing is accepted. -/
def PacketAcceptance : Prop :=
  ∀ (s : State) (q : Fin 1024),
    (∀ p, Safety.Sound s → ∀ (w : List Word) (rest : List (List Word)),
      s.queueOwner q.val = some p → s.service.ready.getLsbD 1 = true → s.service.state ≠ 3 →
      (∃ c ∈ s.partCores p, s.service.ready.getLsbD (2 + c / 16) = true) →
      (∀ n < 33, s.service.slept.getLsbD n = true → s.service.ready.getLsbD n = true) → (s.queue q.val).head = none →
      (s.queue q.val).packets = w :: rest → (∀ l ∈ s.launches, l.id ≠ s.nextLaunch) →
      let l := Claim.launchFrom s q.val p w
      ∃ t l', exec (.packetAccept q) s = .next t ∧ t.launches = s.launches ++ [l'] ∧ t.nextLaunch = s.nextLaunch + 1 ∧
        Claim.onlyQueue s t q.val ∧ (t.queue q.val).packets = rest ∧
        t = { s with mem := t.mem, poison := t.poison, queues := t.queues, launches := t.launches, nextLaunch := t.nextLaunch } ∧
        (Claim.refusedPacket s l → l' = { l with state := .rejected, status := 1 } ∧ (t.queue q.val).head = none ∧ Claim.signalled s t l 1) ∧
        (¬ Claim.refusedPacket s l →
          (t.queue q.val).head = some l.id ∧ t.mem = s.mem ∧ l'.since = s.time ∧
          (Claim.dependenceMet s l → l'.state = .ready) ∧ (¬ Claim.dependenceMet s l → l'.state = .waiting) ∧
          l' = { l with state := l'.state, args := l'.args, since := l'.since } ∧
          (l.word 1 = 0 → l'.args = List.replicate 8 0) ∧
          ∀ k < 8, ∀ pa, l.word 1 ≠ 0 → s.schedLocate p .load ((l.word 1).toNat + 8 * k) 8 = .ok pa →
            l'.args[k]? = some (BitVec.ofNat 64 (Memory.readN s.mem pa 8)))) ∧
    (s.queueOwner q.val = none ∨ s.service.ready.getLsbD 1 = false ∨ s.service.state = 3 ∨ (s.queue q.val).head ≠ none ∨
      (s.queue q.val).packets = [] ∨ (∃ n, s.service.slept.getLsbD n = true ∧ s.service.ready.getLsbD n = false) ∨
      (∃ p, s.queueOwner q.val = some p ∧ ∀ c ∈ s.partCores p, s.service.ready.getLsbD (2 + c / 16) = false) →
      exec (.packetAccept q) s = .next s)

/-- R315: a recheck of the dependence word of a queue's WAITING head, when it lies in this device, and a poll of it, when it
lies in host memory, make the launch READY from now on if its dependence is met, and else do nothing. -/
def DependenceChecks : Prop :=
  ∀ (s : State) (q : Fin 1024) (l : Launch) (pa : Nat), (s.queue q.val).head = some l.id → s.launchOf l.id = some l →
    l.state = .waiting → l.word 2 ≠ 0 → s.schedLocate l.part .load (l.word 2).toNat 8 = .ok pa →
    let met := (l.word 3).toNat ≤ Memory.readN s.mem pa 8
    (targetOf pa ≠ .host → exec (.dependencePoll q) s = .next s ∧ (¬ met → exec (.dependenceRecheck q) s = .next s) ∧
      (met → ∃ t, exec (.dependenceRecheck q) s = .next t ∧ t.launchOf l.id = some { l with state := .ready, since := s.time } ∧
        (∀ n, n ≠ l.id → t.launchOf n = s.launchOf n) ∧ t = { s with launches := t.launches })) ∧
    (targetOf pa = .host → exec (.dependenceRecheck q) s = .next s ∧ (¬ met → exec (.dependencePoll q) s = .next s) ∧
      (met → ∃ t, exec (.dependencePoll q) s = .next t ∧ t.launchOf l.id = some { l with state := .ready, since := s.time } ∧
        (∀ n, n ≠ l.id → t.launchOf n = s.launchOf n) ∧ t = { s with launches := t.launches }))

/-- R23, R46, R52, R309, R321, R376: outside quiesce and standby, when the first candidate of an enabled partition fits, its
placement makes a hart at every place chosen, in hart order, as a fresh hart of its launch with the argument words; their
pieces read zero; the launch is RUNNING with so many harts more and frees its queue's entry; no byte of memory changes but
what the cores still had to send. A partition that may not place keeps everything as it is. -/
def Placement : Prop :=
  ∀ (s : State) (p : Fin 8),
    ((s.partOf p).en = false ∨ 2 ≤ s.service.state.val → exec (.schedulePlacement p) s = .next s) ∧
    ((s.partOf p).en = true → s.service.state.val ≤ 1 →
      let u := ((s.tick.topUp p).dropReserved p).reserveLaunch p
      ∀ (l : Launch) (rest : List Launch) (home grant : Nat) (at' : List Hold), u.candidates p = l :: rest →
        u.launchOf l.id = some l → u.plan l = some (.place home grant at') → (∀ k ∈ u.rcache, k.dirty = []) →
        ∃ t l', exec (.schedulePlacement p) s = .next t ∧ t.launchOf l.id = some l' ∧
          l' = { l with state := .running, placed := l.placed + at'.length, grant := grant, home := home, prio := u.eff l
                        order := u.nextOrder, counter := true } ∧
          (∀ n, n ≠ l.id → t.launchOf n = u.launchOf n) ∧ ((u.queue l.queue).head = some l.id → (t.queue l.queue).head = none) ∧
          Claim.onlyQueue u t l.queue ∧ t.nextHart = s.nextHart + at'.length ∧ t.mem = s.mem ∧
          (∀ (i : Nat) (h : Hold), at'[i]? = some h →
            (∃ k ∈ t.hart :: t.parked, Claim.freshHart u l h (l.placed + i) k ∧ k.place.hid = s.nextHart + i) ∧
            ∀ c ∈ h.pieces, ∀ b < 65536, Memory.read t.spad (h.core * 0x200000 + c * 65536 + b) = 0) ∧
          (∀ k ∈ s.hart :: s.parked, k.phase ≠ .empty → k ∈ t.hart :: t.parked))

/-- R329, R330: a rack launch message that names a queue whose partition permits its sender is answered there: 3 for one not as R329 lays
it out, else 1 when the queue is full and 0 when the packet was queued. One of a node that some enabled partition permits, naming a queue
of none, is answered 2 (DESIGN CHOICE, log 64). A report request of the node, and the end of a report interval, send the residency report
of an enabled partition to its RACKADDR. Other messages are dropped without a reply. -/
def RackMessages : Prop :=
  ∀ (s : State) (source : Word),
    (∀ (queue request : BitVec 16) (rest : List Byte), let q := queue.toNat % 2 ^ 10
      let req := request.toNat
      let formed := rest.length = 68 ∧ queue.toNat / 2 ^ 10 = 0 ∧ rest.take 4 = [1, 0, 0, 0]
      let i := Instr.rackLaunchRequest source queue request rest
      (∀ p, s.queueOwner q = some p →
        (Claim.rackAccepts s source p → s.service.ready.getLsbD 0 = true →
          (¬ formed → exec i s = .next (Claim.rackAnswered s source req 3)) ∧
          (formed → ∃ u, exec i s = .next (Claim.rackAnswered u source req (if 64 ≤ (s.queue q).used then 1 else 0)) ∧
            u = { s with queues := u.queues } ∧ Claim.offered s u q (Claim.wordsOf (rest.drop 4)) ∧ Claim.onlyQueue s u q)) ∧
        (¬ Claim.rackAccepts s source p ∨ s.service.ready.getLsbD 0 = false → exec i s = .next s)) ∧
      (s.queueOwner q = none →
        let known := s.service.ready.getLsbD 0 = true ∧ ∃ p : Fin 8, (s.partOf p).en = true ∧ Claim.rackAccepts s source p
        (known → exec i s = .next (Claim.rackAnswered s source req 2)) ∧ (¬ known → exec i s = .next s))) ∧
    ∀ p : Fin 8, let ws := s.residencyWords p
      let sent : State := { s with outbox := s.outbox ++ [.rack (s.scheds[p.val]).rackaddr ws] }
      let up := s.silent = false ∧ (s.service.ready.getLsbD 30 = true ∨ s.service.ready.getLsbD 31 = true)
      ws.length = 17 ∧ ws[0]? = some (BitVec.ofNat 64 (p.val + 3 * 2 ^ 32)) ∧
        ((s.partOf p).en = true → Claim.rackAccepts s source p → exec (.rackReportRequest source p) s = .next sent) ∧
        ((s.partOf p).en = false ∨ ¬ Claim.rackAccepts s source p → exec (.rackReportRequest source p) s = .next s) ∧
        ((s.partOf p).en = true → up → (s.scheds[p.val]).rptint ≠ 0 → exec (.residencyReport p) s = .next sent) ∧
        ((s.partOf p).en = false ∨ ¬ up ∨ (s.scheds[p.val]).rptint = 0 → exec (.residencyReport p) s = .next s)

/-- R21, R308, R317, R320: enabling a partition that overlaps no enabled one sets EN and makes the deficits of its queues 0; else it
sets ERR. Disabling an idle partition clears EN, rejects its WAITING launches and the packets that its queues hold, and leaves other
launches, queues and partitions, and all but the words of completion signals, as they are; disabling one with harts or with RUNNING or
DRAINING launches does nothing. -/
def PartitionSwitches : Prop :=
  ∀ (s : State) (p : Fin 8),
    let k := s.partOf p
    (∃ t, exec (.partitionEnable p) s = .next t ∧ t = { s with parts := t.parts, queues := t.queues } ∧
      (∀ o : Fin 8, o ≠ p → t.partOf o = s.partOf o) ∧ (∀ q, t.queue q = { s.queue q with deficit := (t.queue q).deficit }) ∧
      (k.en = true → t = s) ∧
      (k.en = false → s.canEnable p = true → t.partOf p = { k with en := true } ∧
        ∀ q, (k.first ≤ q → q < k.first + k.count → (t.queue q).deficit = 0) ∧
          (q < k.first ∨ k.first + k.count ≤ q → t.queue q = s.queue q)) ∧
      (k.en = false → s.canEnable p = false → t.partOf p = { k with err := true } ∧ t.queues = s.queues)) ∧
    (k.en = false ∨ s.partBusy p = true → exec (.partitionDisable p) s = .next s) ∧
    (k.en = true → s.partBusy p = false → (s.launches.map Launch.id).Nodup → (∀ l ∈ s.launches, l.id < s.nextLaunch) →
      let owned (q : Nat) := k.first ≤ q ∧ q < k.first + k.count
      ∃ t, exec (.partitionDisable p) s = .next t ∧ t.partOf p = { k with en := false } ∧ (∀ o : Fin 8, o ≠ p → t.partOf o = s.partOf o) ∧
        (∀ l ∈ s.launches,
          (if l.part = p ∧ l.state = .waiting then { l with state := .rejected, status := 1 } else l) ∈ t.launches) ∧
        (∀ q, owned q → (t.queue q).packets = [] ∧ ∀ w ∈ (s.queue q).packets, ∃ l ∈ t.launches,
          l.queue = q ∧ l.words = (Claim.launchFrom s q p w).words ∧ l.part = p ∧ l.state = .rejected ∧ l.status = 1) ∧
        (∀ q, ¬ owned q → (∀ l ∈ s.launches, l.part = p → l.state = .waiting → l.queue ≠ q) → t.queue q = s.queue q) ∧
        ((∀ l ∈ s.launches, l.part = p → l.state = .waiting → l.word 4 = 0) →
          (∀ q, owned q → ∀ w ∈ (s.queue q).packets, w.getD 4 0 = 0) → t.mem = s.mem) ∧
        t = { s with mem := t.mem, poison := t.poison, launches := t.launches, queues := t.queues, parts := t.parts
                     nextLaunch := t.nextLaunch })

end Sys2Proof.Claim

namespace Sys2Proof.Claim

open Sys2Proof.Machine

/-! ### Paths, the welt and the ports (12 R251, 22 R361 to R371) -/

/-- The link of a table from a chiplet towards another (R362), four bits for each destination. -/
def linkOf (t : Vector (BitVec 32) 8) (c d : Fin 8) : Nat := t[c.val].toNat / 2 ^ (4 * d.val) % 8

/-- The chiplet behind a link of a chiplet in the 2 × 4 welt (R361). -/
def neighbour (c l : Nat) : Nat :=
  if l = 0 then c / 4 * 4 + (c + 1) % 4 else if l = 1 then c / 4 * 4 + (c + 3) % 4 else (c + 4) % 8

/-- Tables lead from a chiplet to another in at most n links, none of them failed. -/
def leads (t : Vector (BitVec 32) 8) (fail : BitVec 32) (d : Fin 8) : Nat → Fin 8 → Prop
  | 0, c => c = d
  | n + 1, c => c = d ∨ (linkOf t c d < 4 ∧ fail.getLsbD (4 * c.val + linkOf t c d) = false ∧
      leads t fail d n (Fin.ofNat 8 (neighbour c.val (linkOf t c d))))

/-- Some links that have not failed lead from a chiplet to another, at most n of them. -/
def joined (fail : BitVec 32) (d : Fin 8) : Nat → Fin 8 → Prop
  | 0, c => c = d
  | n + 1, c => c = d ∨ ∃ l < 4, fail.getLsbD (4 * c.val + l) = false ∧ joined fail d n (Fin.ofNat 8 (neighbour c.val l))

/-- Tables lead both ways between two chiplets. -/
def leadsBoth (t : Vector (BitVec 32) 8) (fail : BitVec 32) (a b : Fin 8) : Prop := leads t fail b 3 a ∧ leads t fail a 3 b

/-- A path that can be lost: to another device of the domain, or between two chiplets whose packets meet a failed link, by the current
tables or, while PEND is set, by the older ones (R363, R369). -/
def losable (s : State) : Path → Prop
  | .device d => d ≠ s.device ∧ d ∈ s.domain
  | .chiplets a b => a ≠ b ∧ (¬ leadsBoth s.welt.cur s.welt.fail a b ∨ (s.welt.pend = true ∧ ¬ leadsBoth s.welt.old s.welt.fail a b))

/-- A path can return (R370): a live port to a device; for two chiplets current tables that lead both ways, PEND clear. -/
def mayReturn (s : State) : Path → Prop
  | .device _ => ∃ p : Fin 4, (s.ports[p.val]).state = .up
  | .chiplets a b => s.welt.pend = false ∧ leadsBoth s.welt.cur s.welt.fail a b

/-- A path can be lost for good (R370): no live port; for two chiplets neither the current tables lead both ways nor can any that a
commit accepts, which lead everywhere in three links (R363). -/
def mayGo (s : State) : Path → Prop
  | .device _ => ∀ p : Fin 4, (s.ports[p.val]).state ≠ .up
  | .chiplets a b => ¬ leadsBoth s.welt.cur s.welt.fail a b ∧ ∃ c d : Fin 8, ¬ joined s.welt.fail d 3 c

/-- The path is declared lost, under either of its names. -/
def isLost (s : State) (p : Path) : Prop := ∃ q ∈ s.lost, samePath p q = true

/-- What the loss of a path does to a hart (R251 step 2): each of its channels that sends over it stops with LINKFAIL and PEND,
and an `lz.res` that waits for a device it led to ends with code 4. -/
def cutOff (s : State) (p : Path) (k k' : Hart) : Prop :=
  (∀ i : ChNum, k'.ch[i.val] = if s.sendsOver p k k.ch[i.val] then { k.ch[i.val] with code := 5, pend := true } else k.ch[i.val]) ∧
    (∀ d dev, k.waiting = some (.reply d dev) → (∃ e, p = .device e ∧ e.val = dev) →
      (∀ r : XReg, k'.x[r.val] = if r = d ∧ r ≠ 0 then 4 else k.x[r.val]) ∧
      (∀ r : CBit, k'.c[r.val] = if r = 7 then true else k.c[r.val]) ∧
      k' = { k with x := k'.x, c := k'.c, ch := k'.ch, phase := .active, waiting := none, instret := k.instret + 1
                    pc := k.pc + (if k.ipair then 8 else 4) }) ∧
    ((∀ d dev, k.waiting = some (.reply d dev) → ∀ e, p = .device e → e.val ≠ dev) → k' = { k with ch := k'.ch })

/-- A function of every hart of two states. -/
def everyHart (s t : State) (f : Hart → Hart → Prop) : Prop :=
  f s.hart t.hart ∧ t.parked.length = s.parked.length ∧
    ∀ (i : Nat) (k k' : Hart), s.parked[i]? = some k → t.parked[i]? = some k' → f k k'

/-- The outcome of a stopped channel (R251 step 3): DONE with its progress at the payload's end where its eyelet is FULL, else
FAILED with LINKFAIL and its progress kept. -/
def outcomeOf (c c' : Channel) (full : Bool) : Prop :=
  ∀ k, c.cmd = some k →
    let size := if k.form = .qsend then k.msg.length else k.n / (if k.tag = .fp4 then 2 else 1) * max 1 (tagBits k.tag / 8)
    let sentAll := c.begun = true ∧ (if k.form = .qsend then k.msg.length else k.n) ≤ c.sent
    (full = true ∧ sentAll → c' = { c with state := .done, code := 0, pend := false, progress := size
                                           cwm := c.dest + BitVec.ofNat 64 size }) ∧
      (¬ (full = true ∧ sentAll) → c' = { c with state := .failed, pend := false })

/-- Staged tables that may be committed (R363): no older generation is pending, every chiplet's own entry is 7, every other
entry a live link, and they lead everywhere in at most three links. -/
def committable (k : Welt) : Prop :=
  k.pend = false ∧ ∀ c d : Fin 8, (c = d → linkOf k.stg c d = 7) ∧
    (c ≠ d → linkOf k.stg c d < 4 ∧ k.fail.getLsbD (4 * c.val + linkOf k.stg c d) = false) ∧ leads k.stg k.fail d 3 c

/-- Two zones have no byte of their headers and slot tables in common. -/
def zonesApart (y z : Zone) : Prop :=
  ∀ i < 256 + 8 * y.slots, ∀ j < 256 + 8 * z.slots, y.byte (y.base + i) ≠ z.byte (z.base + j)

/-- Bytes of the header and the slot table of a zone. -/
def inTable (z : Zone) (i : Nat) : Prop := ∃ k < 256 + 8 * z.slots, i = z.byte (z.base + k)

/-- Some torn eyelets of a zone (R251 step 1): each is TORN, the zone's TORN rises by their number, and its other words are as before. -/
def tornIn (s t : State) (z : Zone) (torn : List Fill) : Prop :=
  (∀ f ∈ torn, t.entry z f.slot = restated (s.entry z f.slot) 4) ∧
    t.zoneWord z 2 = (s.zoneWord z 2 + torn.length) % 2 ^ 64 ∧
    ∀ k < 32 + z.slots, k ≠ 2 → (∀ f ∈ torn, k ≠ 32 + f.slot) → t.zoneWord z k = s.zoneWord z k

/-- Only one port may differ, messages that leave, and the free values taken. -/
def onlyPort (s t : State) (p : Fin 4) : Prop :=
  (∀ q : Fin 4, q ≠ p → t.ports[q.val] = s.ports[q.val]) ∧ t = { s with ports := t.ports, outbox := t.outbox, freeCtr := t.freeCtr }

/-- A port has failed (R369): its replay buffer is lost, the path to every device that a flit in it went to is lost, and no byte of
physical memory changes. -/
def portFailed (s t : State) (p : Fin 4) : Prop :=
  (t.ports[p.val]).state = .failed ∧ (t.ports[p.val]).replay = [] ∧ (∀ q : Fin 4, q ≠ p → t.ports[q.val] = s.ports[q.val]) ∧
    (∀ e ∈ (s.ports[p.val]).replay, ∃ q ∈ t.lost ++ t.lostGood, samePath q (.device e.dst) = true) ∧ t.mem = s.mem

/-- R251 steps 1 and 2, R363, R369: a path that is not lost yet is declared lost: to another device of the domain, or between two chiplets
whose packets meet a failed link. Every channel that sends over it stops, every `lz.res` over it ends with code 4, and every RESERVED or
FILLING eyelet whose sender is at its other end goes: it is TORN and its zone's TORN counts it, for as many eyelets and zones as there
are, and no other byte changes. A path declared lost already, and one that cannot be lost, change nothing. -/
def PathLost : Prop :=
  ∀ (s : State) (p : Path), (¬ Claim.losable s p → exec (.pathLost p) s = .next s) ∧
    ((∃ q ∈ s.lost ++ s.lostGood, samePath p q = true) → exec (.pathLost p) s = .next s) ∧
    (Safety.Sound s → Claim.losable s p → ((s.hart :: s.parked).map fun k => k.place.hid).Nodup →
      (∀ q ∈ s.lost ++ s.lostGood, samePath p q = false) → ∃ t, exec (.pathLost p) s = .next t ∧ t.lost = p :: s.lost ∧
      Claim.everyHart s t (Claim.cutOff s p) ∧
      (let gone := s.fills.filter fun f => s.fillOver p f
       (∀ f ∈ gone, f ∉ t.fills) ∧ (∀ f ∈ s.fills, f ∉ gone → f ∈ t.fills) ∧
         ((∀ f ∈ gone, ∀ y, s.zoneAt f.core f.zone = some y → Claim.placed y ∧ f.slot < y.slots) →
           (∀ i, (∀ f ∈ gone, ∀ y, s.zoneAt f.core f.zone = some y → ¬ Claim.inTable y i) →
             Memory.read t.spad i = Memory.read s.spad i) ∧
           ∀ z, s.zoneAt z.core z.num = some z → Claim.placed z →
             (∀ f ∈ gone, ∀ y, s.zoneAt f.core f.zone = some y → y = z ∨ Claim.zonesApart y z) →
             Claim.tornIn s t z (gone.filter fun f => f.core == z.core && f.zone == z.num))) ∧
      (∀ e ∈ t.fulls, e ∈ s.fulls ∧ p ≠ .device e.1) ∧
      t = { s with lost := t.lost, spad := t.spad, spadPoison := t.spadPoison, fills := t.fills, torn := t.torn, fulls := t.fulls
                   hart := t.hart, parked := t.parked, freeCtr := t.freeCtr })

/-- R251 steps 3 and 4, R370, R371: a lost path that can return does so: every channel stopped over it gets its outcome, the outcomes of
other devices' transfers are sent to them, and a zone that tore an eyelet over it steps GEN. Where no route returns in time, and none
can, the path is lost for good: every such channel is FAILED with LINKFAIL, GEN is not stepped, and bytes that were still to go to the
device are discarded, each hart keeping the lowest of its own to report. Where the path is not lost, or may not, both change nothing. -/
def PathsReturn : Prop :=
  ∀ (s : State) (p : Path) (full : List (Nat × ChNum)), Safety.Sound s →
    (¬ (Claim.isLost s p ∧ Claim.mayReturn s p) → exec (.pathReturn p full) s = .next s) ∧
    (¬ (Claim.isLost s p ∧ Claim.mayGo s p) → exec (.pathLostForGood p) s = .next s) ∧
    (Claim.isLost s p → Claim.mayReturn s p → ∃ t, exec (.pathReturn p full) s = .next t ∧ ¬ Claim.isLost t p ∧
      (∀ q ∈ s.lost, samePath p q = false → q ∈ t.lost) ∧ t.mem = s.mem ∧
      Claim.everyHart s t (fun k k' => k' = { k with ch := k'.ch } ∧ ∀ i : ChNum, let c := k.ch[i.val]
        (c.pend = true → s.sendsOver p k c = true →
          Claim.outcomeOf c k'.ch[i.val] (match p with | .device _ => decide ((k.place.hid, i) ∈ full) | .chiplets _ _ => false)) ∧
        (c.pend = false ∨ s.sendsOver p k c = false → k'.ch[i.val] = c)) ∧
      t.outbox = s.outbox ++ (s.torn.filter fun e => samePath p e.path).filterMap (fun e =>
        match e.ticket, e.path with | some k, .device d => some (.outcome d.val k e.full) | _, _ => none) ∧
      (∀ e ∈ t.torn, e ∈ s.torn ∧ samePath p e.path = false) ∧
      ((∀ e ∈ s.torn, samePath p e.path = true → e.full = true) → t.spad = s.spad) ∧
      ∀ z, s.zoneAt z.core z.num = some z → Claim.placed z →
        (∃ e ∈ s.torn, samePath p e.path = true ∧ e.full = false ∧ e.core = z.core ∧ e.zone = z.num) →
        (∀ e ∈ s.torn, samePath p e.path = true → e.full = false → ∀ y, s.zoneAt e.core e.zone = some y →
          Claim.placed y ∧ (y = z ∨ Claim.zonesApart y z)) →
        t.zoneWord z 3 = (s.zoneWord z 3 + 1) % 2 ^ 16 ∧ ∀ k < 32 + z.slots, k ≠ 3 → t.zoneWord z k = s.zoneWord z k) ∧
    (Claim.isLost s p → Claim.mayGo s p → ∃ t, exec (.pathLostForGood p) s = .next t ∧ ¬ Claim.isLost t p ∧ p ∈ t.lostGood ∧ Claim.sameMemory s t ∧
      Claim.everyHart s t (fun k k' => k' = { k with ch := k'.ch, lostBytes := k'.lostBytes } ∧
        (∀ i : ChNum, let c := k.ch[i.val]
          (c.pend = true → s.sendsOver p k c = true → k'.ch[i.val] = { c with state := .failed, pend := false }) ∧
          (c.pend = false ∨ s.sendsOver p k c = false → k'.ch[i.val] = c)) ∧
        ∀ d : Fin 256, p = .device d → ∀ l ∈ s.rcache, l.device = d.val → ∀ b ∈ l.dirty, b.hid = k.place.hid →
          ∃ a, k'.lostBytes = some a ∧ a.toNat ≤ b.va) ∧
      ∀ l ∈ s.rcache, ((∃ d : Fin 256, p = .device d ∧ l.device = d.val) ∧ l.dirty ≠ [] → l ∉ t.rcache) ∧
        (¬ ((∃ d : Fin 256, p = .device d ∧ l.device = d.val) ∧ l.dirty ≠ []) → l ∈ t.rcache))

/-- R361, R363, R366, R369: COMMIT makes staged tables that are allowed the current ones, steps GEN and sets PEND, else it sets ERR; the
last packet of the older generation clears PEND; a failed link sets its FAIL bit at both ends, and of the paths between chiplets only
those can become lost whose packets meet a failed link (which had packets there is a free value, log 46); a lane repair changes nothing;
the return of a plane clears PF. -/
def WeltRegisters : Prop :=
  ∀ s : State,
    (Claim.committable s.welt → exec .weltCommit s = .next { s with welt := { s.welt with
      cur := s.welt.stg, old := s.welt.cur, gen := s.welt.gen + 1, pend := true } }) ∧
    (¬ Claim.committable s.welt → exec .weltCommit s = .next { s with welt := { s.welt with err := true } }) ∧
    exec .weltGenerationDrain s = .next { s with welt := { s.welt with pend := false } } ∧
    (∀ c l, exec (.laneSpareRepair c l) s = .next s) ∧
    (∀ (c : Fin 8) (l : Fin 4), ∃ t, exec (.weltLinkFail c l) s = .next t ∧ t.mem = s.mem ∧
      t.welt = { s.welt with fail := t.welt.fail } ∧ (∀ q ∈ s.lost, q ∈ t.lost) ∧ (∀ q ∈ t.lost, q ∈ s.lost ∨ Claim.losable t q) ∧
      (t.lost = s.lost → t = { s with welt := t.welt, freeCtr := t.freeCtr }) ∧
      ∀ k < 32, t.welt.fail.getLsbD k = (s.welt.fail.getLsbD k || k == 4 * c.val + l.val ||
        k == 4 * Claim.neighbour c.val l.val + (if l = 0 then 1 else if l = 1 then 0 else l.val))) ∧
    ∀ p : Fin 4, ∃ t, exec (.planeReturn p) s = .next t ∧ Claim.onlyPort s t p ∧ t.outbox = s.outbox ∧
      t.ports[p.val] = { s.ports[p.val] with pf := false, fpl := 0 }

/-- R365 to R369: the ports. Training takes a port from DOWN to TRAINING and from TRAINING to UP; where it fails, of a port that trains or
is UP, the port fails, as one does whose hold ends without a key. A staged transmit key is used from counter 0 on, with KEP inverted and
nothing held, when nothing was held back. The last counter is spent on one flit of KIND 3 with KEYX set and Felob told; with any
other counter next nothing happens. (The flits that a port sends between events are a free value, log 31.) -/
def PortEvents : Prop :=
  ∀ (s : State) (p : Fin 4), let k := s.ports[p.val]
    let u := s.traffic p
    let k' := u.ports[p.val]
    (∀ from' to' : PortState, (from' = .down ∧ to' = .training) ∨ (from' = .training ∧ to' = .up) → k.state = from' →
      ∃ t, exec (.portTraining p true) s = .next t ∧ Claim.onlyPort s t p ∧ t.outbox = s.outbox ∧ t.ports[p.val] = { k with state := to' }) ∧
    (k.state = .up ∨ k.state = .failed → exec (.portTraining p true) s = .next s) ∧
    (k.state = .up ∨ k.state = .training → ∃ t, exec (.portTraining p false) s = .next t ∧ Claim.portFailed u t p) ∧
    (k.state = .down ∨ k.state = .failed → exec (.portTraining p false) s = .next s) ∧
    (k.keyx = true → k.trdy = false → k.state = .up → ∃ t, exec (.keyHoldTimeout p) s = .next t ∧ Claim.portFailed u t p) ∧
    (k.keyx = false ∨ k.trdy = true ∨ k.state ≠ .up → exec (.keyHoldTimeout p) s = .next s) ∧
    (k.trdy = true → k.state ≠ .failed → (∀ e ∈ k.replay, e.held = false) →
      ∃ t, exec (.transmitKeySwitch p) s = .next t ∧ Claim.onlyPort u t p ∧ t.outbox = u.outbox ∧
        t.ports[p.val] = { k' with txKey := k'.tkey, txSalt := k'.tsalt, ncnt := 0, txKep := !k'.txKep, trdy := false, keyx := false }) ∧
    (k.trdy = false ∨ k.state = .failed → exec (.transmitKeySwitch p) s = .next s) ∧
    (k.state = .up → k.keyx = false → k.trdy = false → k'.ncnt = 0xFFFFFFFF →
      ∃ t stamps dst seq data, exec (.counterExhaustion p) s = .next t ∧ Claim.onlyPort u t p ∧ t.ports[p.val] = { k' with keyx := true } ∧
        t.outbox = u.outbox ++ [.flit p.val (flitWords stamps (k'.flitOut s.device 3 dst seq data)), .felob p.val]) ∧
    (k.state ≠ .up ∨ k.keyx = true ∨ k.trdy = true ∨ k'.ncnt ≠ 0xFFFFFFFF → exec (.counterExhaustion p) s = .next s)

/-- R364 to R367: every flit of a port that is UP is read alike. One whose stamps agree and whose groups and tag hold delivers
its payload when it is of KIND 1 for this device, frees its replay entry when it is an acknowledgement of the oldest one, and
else changes only what the key check promotes. One that cannot be corrected is dropped; a wrong tag fails the port, as stamps do that no
single plane explains; stamps that one does mark it failed. At a port that is not UP nothing happens. -/
def FlitsReceived : Prop :=
  ∀ (s : State) (p : Fin 4) (words : List (BitVec 72)), let k := s.ports[p.val]
    let failed := if k.pf then some k.fpl else none
    (∀ i, i = Instr.nirmusDataFlit p words ∨ i = .nirmusAcknowledgeFlit p words ∨ i = .nirmusIdleFlit p words ∨
        i = .keyExhaustionFlit p words →
      (k.state ≠ .up ∨ words.length ≠ 129 → exec i s = .next s) ∧
      (k.state = .up → words.length = 129 → stampsOf failed (words.headD 0) = .port →
        ∃ t, exec i s = .next t ∧ Claim.portFailed (s.traffic p) t p) ∧
      (∀ f, k.state = .up → words.length = 129 → stampsOf failed (words.headD 0) = .plane f → flitBytes (some f) words = none →
        exec i s = .next (s.setPort p { k with pf := true, fpl := f })) ∧
      (k.state = .up → words.length = 129 → stampsOf failed (words.headD 0) = .fine →
        (flitBytes failed words = none → exec i s = .next s) ∧
        ∀ b, flitBytes failed words = some b →
          (k.openFlit b = none → ∃ t, exec i s = .next t ∧ Claim.portFailed (s.traffic p) t p) ∧
          ∀ data k', k.openFlit b = some (data, k') →
            let u := s.setPort p k'
            let hdr := ofBytes (b.take 8)
            let kind := hdr / 2 ^ 16 % 16
            (kind = 1 → hdr % 256 = s.device.val →
              exec i s = .next { u with outbox := s.outbox ++ [.delivered p.val (hdr / 2 ^ 8 % 256) data] }) ∧
            (kind = 1 → hdr % 256 ≠ s.device.val → exec i s = .next u) ∧
            (kind ≠ 1 → kind ≠ 2 → exec i s = .next u) ∧
            ∀ e rest, kind = 2 → ((u.traffic p).ports[p.val]).replay = e :: rest → e.seq = BitVec.ofNat 32 (hdr / 2 ^ 32 % 2 ^ 32) →
              ∃ t, exec i s = .next t ∧ Claim.onlyPort (u.traffic p) t p ∧
                t.ports[p.val] = { (u.traffic p).ports[p.val] with replay := rest.filter fun x => x.seq != e.seq }))

end Sys2Proof.Claim

namespace Sys2Proof.Claim

open Sys2Proof.Machine

/-! ### The service block, the host, memory errors (18 R301, 21 R356 to R359, 23 R373 to R380) -/

/-- Only the service block may differ, as named. -/
def service (s : State) (k : Service) : State := { s with service := k }

/-- What refuses standby (R376, R381): a launch on its way, a switched hart, a retirement under way. -/
def busyForStandby (s : State) : Prop :=
  (∃ l ∈ s.launches, l.state = .waiting ∨ l.state = .ready ∨ l.state = .running ∨ l.state = .draining) ∨
    (∃ k ∈ s.hart :: s.parked, k.phase = .switched) ∨ s.service.retstat = 1

/-- The machine after device reset, with what lies outside it (R379); HBM4 keeps its contents while power stays, which is the
model's choice (DESIGN CHOICE, log 27). -/
def restarted (s t : State) (power : Bool) : Prop :=
  (∀ a, Memory.read t.mem a = if power = false ∧ a < 0xC000000000 then 0 else Memory.read s.mem a) ∧
    t = { State.reset with mem := t.mem, poison := t.poison, power := power, agenda := s.agenda, chances := s.chances
                           outbox := s.outbox, refused := s.refused, freeCtr := s.freeCtr }

/-- A record of an error log (R358). -/
def errorRecord (k : ErrLog) (kind : MemErr) (chan layer addr : Nat) : List Word :=
  let code := match kind with | .corrected => 1 | .uncorrectable => 2 | .rowRepaired => 3
  [BitVec.ofNat 64 (layer * 2 ^ 48 + code * 2 ^ 40 + chan * 2 ^ 32 + (k.ce + k.ue + k.rp).toNat % 2 ^ 32),
    BitVec.ofNat 64 (addr / 32 % 2 ^ 47 * 32), BitVec.ofNat 64 (k.ue.toNat % 2 ^ 32 * 2 ^ 32 + k.ce.toNat % 2 ^ 32),
    BitVec.ofNat 64 (k.rp.toNat % 2 ^ 32)]

/-- An event at a controller's log (R357 to R359): its count rises, and it is recorded behind fewer than 64 records, else OVF
counts it. -/
def logged (k k' : ErrLog) (kind : MemErr) (chan layer addr : Nat) : Prop :=
  k'.ce = k.ce + (if kind = .corrected then 1 else 0) ∧ k'.ue = k.ue + (if kind = .uncorrectable then 1 else 0) ∧
    k'.rp = k.rp + (if kind = .rowRepaired then 1 else 0) ∧
    (k.recs.length < 64 → k'.recs = k.recs ++ [errorRecord k' kind chan layer addr] ∧ k'.ovf = k.ovf) ∧
    (64 ≤ k.recs.length → k'.recs = k.recs ∧ k'.ovf = k.ovf + 1)

/-- A function may interrupt a core (R377): the physical function any, a virtual function one of its enabled partition. -/
def reaches (s : State) (vf : Fin 9) (core : Fin 128) : Prop :=
  vf = 0 ∨ ∃ p : Fin 8, (s.partOf p).en = true ∧ (s.partOf p).pfunc = vf.val ∧ core.val ∈ s.partCores p

/-- A hart that a retirement asks to leave (R346, R380). -/
def retired (k k' : Hart) (hit : Prop) : Prop :=
  (hit → (k.phase = .active ∨ k.phase = .monitor) → k.switchPending = false → k'.pend20 = some true) ∧
    (¬ hit → k'.pend20 = k.pend20 ∨ k'.pend20 = some false) ∧ k' = { k with pend20 := k'.pend20 }

/-- A hart that owned a live zone of a retired core has ended, its launch's status is at least 2, and of the live zones only those of
such harts are gone (R380). -/
def ownersEnded (s t : State) (core : Nat) : Prop :=
  ∀ z ∈ s.zones,
    ((∀ y ∈ s.zones, y.core = core → y.owner ≠ z.owner) → z ∈ t.zones) ∧
    (z.core = core → z ∉ t.zones ∧ (∀ k ∈ t.hart :: t.parked, k.place.hid = z.owner → k.phase = .ended) ∧
      ∀ k ∈ s.hart :: s.parked, k.place.hid = z.owner → ∀ l, s.launchOf k.place.launch = some l →
        ∃ l', t.launchOf l.id = some l' ∧ 2 ≤ l'.status ∧ l.status ≤ l'.status)

/-- A byte of memory that a function reaches (R94, R310): host memory; HBM4 of its own partition, of a stack that is ready. -/
def hostMay (s : State) (f : Fin 9) (a : Nat) : Prop :=
  targetOf a = .host ∨
    (targetOf a = .hbm ∧ f ≠ 0 ∧ s.stackReady a = true ∧ ∃ p, s.partOfVf f.val = some p ∧ s.inRange p a 1 = true)

/-- R375, R376: CMD 0, 1 and 2 are accepted: CMD and STATE take the number and nothing else changes. CMD 3 is refused with PERR
while the device is busy, with nothing else changed; else the power state is 3, the compute chiplets and the welt are not
ready (those that were are remembered), the scratchpads read zero, no cache holds a line or a translation, and nothing else is lost. -/
def PowerStates : Prop :=
  ∀ s : State,
    exec .ps0Run s = .next (Claim.service s { s.service with cmd := 0, state := 0 }) ∧
    exec .ps1Capped s = .next (Claim.service s { s.service with cmd := 1, state := 1 }) ∧
    exec .ps2Quiesce s = .next (Claim.service s { s.service with cmd := 2, state := 2 }) ∧
    (Claim.busyForStandby s → exec .ps3Standby s = .next (Claim.service s { s.service with perr := true })) ∧
    (¬ Claim.busyForStandby s → ∃ t, exec .ps3Standby s = .next t ∧
      (∀ i : Fin 33, t.service.ready.getLsbD i.val =
        (s.service.ready.getLsbD i.val && !((2 ≤ i.val && i.val ≤ 9) || i.val == 32))) ∧
      (∀ i : Fin 33, t.service.slept.getLsbD i.val = (s.service.ready.getLsbD i.val && (2 ≤ i.val && i.val ≤ 9))) ∧
      t = { s with spad := [], spadPoison := [], rcache := [], tlb := []
                   service := { s.service with cmd := 3, state := 3, ready := t.service.ready, slept := t.service.slept } })

/-- R375, R376, R378 to R380: bring-up and power. A unit's readiness sets its bit, but bit 1 before a signed configuration is
accepted and the compute chiplets and the welt in standby; TMAX is the temperature, and above 105 °C ALERT is set and vector 0
leaves; above 115 °C, and when the module is removed, power goes; power-up resets the device. An image that verifies, with none
accepted yet, sets READY [1] and the device's number and domain; one that fails leaves the device silent; after acceptance an image
changes nothing. -/
def BringUp : Prop :=
  ∀ s : State,
    (∀ u : Fin 33, ∃ t, exec (.unitReady u) s = .next t ∧ t = { s with service := { s.service with ready := t.service.ready } } ∧
      let barred := (u.val = 1 ∧ s.accepted = false) ∨ (s.service.state = 3 ∧ (2 ≤ u.val ∧ u.val ≤ 9 ∨ u.val = 32))
      (barred → t = s) ∧
        (¬ barred → ∀ i : Fin 33, t.service.ready.getLsbD i.val = (s.service.ready.getLsbD i.val || decide (i = u)))) ∧
    (∀ c : BitVec 8, (105 < c.toNat → exec (.tempAlert c) s = .next { s with
        service := { s.service with tmax := c, alert := true }, outbox := s.outbox ++ [.msix 0 0] }) ∧
      (c.toNat ≤ 105 → exec (.tempAlert c) s = .next { s with service := { s.service with tmax := c } })) ∧
    (s.service.tmax.toNat ≤ 115 → exec .thermalPowerRemoval s = .next s) ∧
    (115 < s.service.tmax.toNat → ∃ t, exec .thermalPowerRemoval s = .next t ∧ Claim.restarted s t false) ∧
    (∃ t, exec .moduleRemoval s = .next t ∧ Claim.restarted s t false) ∧
    (∃ t, exec .powerUp s = .next t ∧ Claim.restarted s t true) ∧
    (∀ img : ConfigImage,
      (s.accepted = true → exec (.configurationImage img) s = .next s) ∧
      (s.accepted = false → Config.imageVerifies img.bytes img.signature = false →
        exec (.configurationImage img) s = .next { s with silent := true }) ∧
      (s.accepted = false → Config.imageVerifies img.bytes img.signature = true →
        ∃ t, exec (.configurationImage img) s = .next t ∧
          (∀ i : Fin 33, t.service.ready.getLsbD i.val = (s.service.ready.getLsbD i.val || i.val == 1)) ∧
          t = { s with accepted := true, silent := false, device := img.device, domain := img.domain
                       service := { s.service with ready := t.service.ready } }))

/-- R377, R378: a host interrupt makes 0x22 pending, with its value, on the hart that runs in the slot; where none does, none was
switched out of it, one is pending already, or the function may not reach the core, INTDROP counts it. Either snapshot trigger
steps SNAPSEQ, and the region takes every read-only field. After a failed image no interrupt is taken (R379). -/
def HostInterruptsAndSnapshots : Prop :=
  ∀ s : State,
    (∀ (vf : Fin 9) (v : BitVec 32) (core : Fin 128) (slot : Fin 16),
      let dropped := Claim.service s { s.service with intdrop := s.service.intdrop + 1 }
      let at' (k : Hart) := k.place.core = core.val ∧ k.place.slot = slot.val
      (s.silent = true → exec (.hostInterrupt vf v core slot) s = .next s) ∧ (s.silent = false →
      (¬ Claim.reaches s vf core → exec (.hostInterrupt vf v core slot) s = .next dropped) ∧
      ((∀ k ∈ s.hart :: s.parked, at' k → k.phase = .empty ∨ k.phase = .ended) →
        exec (.hostInterrupt vf v core slot) s = .next dropped) ∧
      (at' s.hart → (s.hart.phase = .active ∨ s.hart.phase = .monitor) → Claim.reaches s vf core →
        (s.hart.pend22.isSome → exec (.hostInterrupt vf v core slot) s = .next dropped) ∧
        (s.hart.pend22 = none → (∀ k ∈ s.parked, k.place.hid ≠ s.hart.place.hid) →
          exec (.hostInterrupt vf v core slot) s = .next { s with hart := { s.hart with pend22 := some v } })))) ∧
    (∃ t, exec .fire s = .next t ∧ exec .snapctlFire s = .next t ∧
      t.service = { s.service with snapseq := s.service.snapseq + 1, snap := t.service.snap } ∧
      (∀ o v, (o, v) ∈ t.service.snap → ∃ m, (o, m) ∈ snapshotFields ∧ v = s.allTraffic.barRead o &&& BitVec.ofNat 64 m) ∧
      (∀ o m, (o, m) ∈ snapshotFields → s.allTraffic.barRead o &&& BitVec.ofNat 64 m ≠ 0 →
        (o, s.allTraffic.barRead o &&& BitVec.ofNat 64 m) ∈ t.service.snap) ∧
      t = { s with service := t.service, ports := t.ports, outbox := t.outbox, freeCtr := t.freeCtr })

/-- R346, R380: retirement while none is under way. A cluster or a core that no hart uses is retired at once, RETSTAT 2; the harts
that hold it are asked to leave first, RETSTAT 1; owners of live zones of a retired core are ended with status 2. Matrix rows wait for
the context's next `mdetach`, RETSTAT 1. A row repair of an HBM4 address runs, RETSTAT 1, until it is done, RETSTAT 2 and one record of
KIND 3; a scalar load from its row waits for it. Another address is refused, as is a second retirement while one is under way,
RETSTAT 3. -/
def Retirement : Prop :=
  ∀ s : State,
    (s.service.retstat = 1 → ∀ (core : Fin 128) (cl : Fin 16),
      let refused := Claim.service s { s.service with retstat := 3 }
      exec (.retireCluster core cl) s = .next refused ∧ exec (.retireCore core) s = .next refused ∧
        exec (.retireMatrixRows core) s = .next refused ∧
        exec (.rowRepair s.service.retaddr.toNat) s = .next refused) ∧
    (s.service.retstat ≠ 1 → ∀ (core : Fin 128),
      (∀ cl : Fin 16, ∃ t, exec (.retireCluster core cl) s = .next t ∧ (core.val, cl.val) ∈ t.retClusters ∧
        (∀ e ∈ s.retClusters, e ∈ t.retClusters) ∧ t.mem = s.mem ∧ t.spad = s.spad ∧ (∀ r, t.x r = s.x r) ∧
        let holds (k : Hart) := k.place.core = core.val ∧ k.place.cbase ≤ cl.val ∧ cl.val < k.place.cbase + k.place.grant
        Claim.everyHart s t (fun k k' => Claim.retired k k' (holds k)) ∧
        ((∀ k ∈ s.hart :: s.parked, (k.phase = .active ∨ k.phase = .monitor) → ¬ holds k) →
          t.service = { s.service with retstat := 2 }) ∧
        ((∃ k ∈ s.hart :: s.parked, (k.phase = .active ∨ k.phase = .monitor) ∧ holds k) →
          (∀ e ∈ s.retiring, s.retireHeld e.1 e.2 = true) → t.service = { s.service with retstat := 1 })) ∧
      ((∀ z ∈ s.zones, z.core ≠ core.val) → ∃ t, exec (.retireCore core) s = .next t ∧ core.val ∈ t.retCores ∧
        t.mem = s.mem ∧ t.spad = s.spad ∧ Claim.everyHart s t (fun k k' => Claim.retired k k' (k.place.core = core.val)) ∧
        ((∀ k ∈ s.hart :: s.parked, (k.phase = .active ∨ k.phase = .monitor) → k.place.core ≠ core.val) →
          t.service = { s.service with retstat := 2 })) ∧
      ((∀ z ∈ s.zones, z.core = core.val → ∃ k ∈ s.hart :: s.parked, k.place.hid = z.owner ∧ k.phase ≠ .empty) →
        ((s.hart :: s.parked).map fun k => k.place.hid).Nodup →
        ∃ t, exec (.retireCore core) s = .next t ∧ core.val ∈ t.retCores ∧ t.mem = s.mem ∧ Claim.ownersEnded s t core.val) ∧
      exec (.retireMatrixRows core) s = .next { s with
        retRowsPend := core.val :: s.retRowsPend, service := { s.service with retstat := 1 } } ∧
      (0xC000000000 ≤ s.service.retaddr.toNat → exec (.rowRepair s.service.retaddr.toNat) s =
        .next (Claim.service s { s.service with retstat := 3 })) ∧
      (s.service.retaddr.toNat < 0xC000000000 → exec (.rowRepair s.service.retaddr.toNat) s = .next { s with
        repairing := some s.service.retaddr.toNat, service := { s.service with retstat := 1 } })) ∧
    (∀ i n sg d a o r pa, Claim.loadForm i = some (n, sg, d, a, o) → s.repairing = some r →
      let ea := Claim.address s a o
      let u := s.drain
      ea % n = 0 → ea < windowBase → u.translate u.hart.ctx .load ea = .ok pa → targetOf pa = .hbm →
      u.inRange u.hart.place.part pa n = true → u.stackReady pa = true → u.stackLost u.hart.place.core pa = false →
      rowAt r = rowAt pa → exec i s = .next u) ∧
    (s.repairing = none → exec .rowRepairDone s = .next s) ∧
    (∀ a, s.repairing = some a → a < 0xC000000000 → ∃ t, exec .rowRepairDone s = .next t ∧
      (∃ chan layer : Nat, Claim.logged (s.logs[a / (48 * 2 ^ 30) % 16]) (t.logs[a / (48 * 2 ^ 30) % 16]) .rowRepaired chan layer a) ∧
      t = { s with logs := t.logs, repairing := none, service := { s.service with retstat := 2 } })

/-- R356 to R359: an event at the controller of its address is counted and logged; an uncorrectable one makes the sector's 32
bytes unreadable, and no other of HBM4's sectors; POP drops the oldest record. An event at another controller does nothing. -/
def MemoryErrors : Prop :=
  ∀ (s : State) (k : Fin 16),
    (∀ (kind : MemErr) (chan : Fin 64) (layer : Fin 16) (addr : Nat),
      (addr / (48 * 2 ^ 30) ≠ k.val → exec (.memoryErrorEvent k kind chan layer addr) s = .next s) ∧
      (addr / (48 * 2 ^ 30) = k.val → ∃ t, exec (.memoryErrorEvent k kind chan layer addr) s = .next t ∧
        Claim.logged s.logs[k.val] t.logs[k.val] kind chan.val layer.val addr ∧
        (∀ j : Fin 16, j ≠ k → t.logs[j.val] = s.logs[j.val]) ∧
        (kind ≠ .uncorrectable → t.poison = s.poison) ∧
        (kind = .uncorrectable → ∀ a, poisoned t.poison a 1 = true ↔
          (a / 32 = addr / 32 ∨ ∃ e ∈ s.poison, e.1 ≠ addr / 32 * 32 ∧ e.1 ≤ a ∧ a < e.1 + 32)) ∧
        t = { s with logs := t.logs, poison := t.poison })) ∧
    ∃ t, exec (.pop k) s = .next t ∧ t.logs[k.val] = { s.logs[k.val] with recs := (s.logs[k.val]).recs.drop 1 } ∧
      (∀ j : Fin 16, j ≠ k → t.logs[j.val] = s.logs[j.val]) ∧ t = { s with logs := t.logs }

/-- R6, R94, R109, R110, R252, R307, R310, R318, R371, R374, R379: what the host and the cache do. A host write of one byte to host memory,
or through a virtual function to HBM4 of its partition, where no live barrier word stands, stores it and nothing else; elsewhere in HBM4
nothing. A host read gives such bytes to the host, and zero for what its function does not reach (of uncorrectable ones a free value,
log 33). A write of a scheduler register stores its field; of RETADDR its address. After a failed image nothing of the device answers. An
eviction sends a line's dirty bytes out, drops the line, and changes no other byte; while they cannot go the line stays. -/
def HostAccesses : Prop :=
  ∀ s : State, Safety.Sound s →
    (∀ (f : Fin 9) a (b : Byte), a < 2 ^ 52 →
      (Claim.hostMay s f a → (targetOf a = .host ∨ s.silent = false) → s.liveWord (.phys a) = false →
        ∃ t, exec (.hostWrite ⟨f, a⟩ [b]) s = .next t ∧ Memory.read t.mem a = b ∧
          (∀ k, k ≠ a → Memory.read t.mem k = Memory.read s.mem k) ∧ t = { s with mem := t.mem, poison := t.poison }) ∧
      (¬ Claim.hostMay s f a ∨ (targetOf a ≠ .host ∧ s.silent = true) ∨ s.liveWord (.phys a) = true →
        exec (.hostWrite ⟨f, a⟩ [b]) s = .next s)) ∧
    (∀ (f : Fin 9) a n, (s.silent = true → exec (.hostRead ⟨f, a⟩ n) s = .next s) ∧
      (s.silent = false → a + n ≤ 2 ^ 52 → a < 2 ^ 52 → ∃ t data, exec (.hostRead ⟨f, a⟩ n) s = .next t ∧
        t = { s with outbox := s.outbox ++ [.hostData a data], freeCtr := t.freeCtr } ∧ data.length = n ∧
        ∀ k < n, (¬ Claim.hostMay s f (a + k) → data[k]? = some 0) ∧
          (Claim.hostMay s f (a + k) → poisoned s.poison (a + k) 1 = false → data[k]? = some (Memory.read s.mem (a + k))))) ∧
    (s.silent = true → ∀ r v, exec (.registerWrite r v) s = .next s) ∧
    (s.silent = false →
      (∀ (p : Fin 8) (v : Word), ∃ t, exec (.registerWrite (.bar (0x400000 + 0x40 * p.val)) v) s = .next t ∧
        t.scheds[p.val] = { s.scheds[p.val] with rclto := v.toNat % 2 ^ 32 } ∧
        (∀ q : Fin 8, q ≠ p → t.scheds[q.val] = s.scheds[q.val]) ∧ t = { s with scheds := t.scheds }) ∧
      (∀ v : Word, ∃ t, exec (.registerWrite (.bar 0x440030) v) s = .next t ∧
        t = { s with service := { s.service with retaddr := BitVec.ofNat 64 (v.toNat / 32 % 2 ^ 47 * 32) } }) ∧
      (∀ (p : Fin 8) (v : Word), ∃ t, exec (.registerWrite (.partition p 8) v) s = .next t ∧
        t.partOf p = { s.partOf p with ltvec := BitVec.ofNat 64 (v.toNat / 4 % 2 ^ 49 * 4) } ∧
        (∀ q : Fin 8, q ≠ p → t.partOf q = s.partOf q) ∧ t = { s with parts := t.parts })) ∧
    ∀ l ∈ s.rcache, (∀ k ∈ s.rcache, k.holder = l.holder → k.line = l.line → k = l) →
      (l.dirty ≠ [] → s.turnedAway l.device l.line = true → exec (.cacheEvictionWriteback l.holder l.line) s = .next s) ∧
      (l.dirty = [] ∨ s.turnedAway l.device l.line = false →
        ∃ t, exec (.cacheEvictionWriteback l.holder l.line) s = .next t ∧
          (∀ k ∈ t.rcache, ¬ (k.holder = l.holder ∧ k.line = l.line)) ∧
          (∀ k ∈ s.rcache, k.line ≠ l.line → k ∈ t.rcache) ∧
          (∀ k ∈ s.rcache, k.line = l.line → k.holder ≠ l.holder → ∃ k' ∈ t.rcache, k' = { k with data := k'.data }) ∧
          (∀ d ∈ l.dirty, d.half = none → (∀ e ∈ l.dirty, e.off % 128 = d.off % 128 → e = d) →
            Memory.read t.mem (l.line + d.off % 128) = d.byte) ∧
          (∀ a, (∀ d ∈ l.dirty, l.line + d.off % 128 ≠ a) → Memory.read t.mem a = Memory.read s.mem a) ∧
          t = { s with mem := t.mem, poison := t.poison, rcache := t.rcache })

end Sys2Proof.Claim

namespace Sys2Proof.Claim

open Sys2Proof.Machine

/-! ### The machine as a whole -/

/-- The hart whose turn it is runs an instruction now: nothing else happens before, it is ACTIVE, waits for nothing, takes no pending
event, and its pc is not the hart-exit address (R24, R345). -/
def runs (s : State) : Prop :=
  s.agenda = [] ∧ s.chances = [] ∧ s.power = true ∧ s.hart.phase = .active ∧ s.hart.waiting = none ∧ s.hart.pc ≠ 0x7FFFFFFFFFFF0 ∧
    ((s.hart.pend20 = none ∧ s.hart.pend21 = none ∧ s.hart.pend22 = none) ∨ s.hart.priv.level = .monitor ∨
      (s.hart.priv.level = .kernel ∧ s.hart.priv.aie = false))

/-- A word stands at an address, at a location, and can be fetched (R113, R148): its bytes are what the hart sees. -/
def wordStands (s : State) (a : Word) (l : Loc) (w : Nat) : Prop :=
  s.locate .fetch a.toNat 4 4 true = .ok l ∧ readable s l 4 ∧ w < 2 ^ 32 ∧
    ∀ k, k < 4 → BitVec.ofNat 8 (w >>> (8 * k)) = seen (near s l) s.hart.place.core s.hart.place.hid (plus l k)

/-- A hart's turn has passed to the next hart; what was to stop an instruction early (R19) is over. -/
def passed (u t : State) : Prop :=
  let k := { u.hart with limit := none }
  (u.parked = [] → t = { u with hart := k }) ∧ ∀ j rest, u.parked = j :: rest → t = { u with hart := j, parked := rest ++ [k] }

/-- What fetching leaves (R37, R80, R113): as it found the words, but for lines that caches now hold; every element of the hart's vectors
is present. -/
def fetched (s u s' : State) : Prop :=
  seenAlike u s' ∧ (∀ r : VNum, s'.hart.v[r.val] = { s.hart.v[r.val] with owed := 0 }) ∧
    s' = { u with rcache := s'.rcache, hart := { u.hart with v := s'.hart.v, iword := s'.hart.iword, ipair := s'.hart.ipair } }

/-- The words that R113 to R120 make an instruction: one word, or a leading word and the word behind it. -/
def decodesTo (w1 w2 : Nat) (i : Instr) (pair : Bool) : Prop := decode w1 w2 = .instr i pair

/-- The number of the hart that an event of one hart names. -/
def eventHart : Instr → Option Nat
  | .gatherGroupArrive h _ _ => some h
  | .streamPrefetch h _ => some h
  | .copyAccept h => some h
  | .copyElement h _ => some h
  | .lzResReply h _ _ => some h
  | .fullAcknowledge h _ => some h
  | .bytesAcknowledged h _ _ => some h
  | .zoneFirstRequest (.mine h _) => some h
  | .zoneFirstRequest (.answer h _ _) => some h
  | .eyeletPayloadWrite (.mine h _) _ => some h
  | .monitorWake h => some h
  | .pollInterval h => some h
  | .takeAsyncEvent h => some h
  | .reclaimTimeout h => some h
  | .switchOut h => some h
  | .hartEnd h => some h
  | _ => none

/-- One byte of a store of a memory, beside all the others. -/
def oneByte (m m' : List Host.Cell) (a : Nat) (b : Byte) : Prop :=
  Memory.read m' a = b ∧ ∀ k, k ≠ a → Memory.read m' k = Memory.read m k

/-- What a special register reads as at reset (R46, R47, R301, R303, R307, R309): 0, but for ROWS, CLUSTERS and MASKLEN of a grant of 1
(DESIGN CHOICE, log 2), MBUDGET.CBITS, FFAULT, VLCAP, PCAC, PMROWS and LVLCAP. -/
def resetWord (n : Nat) : Word :=
  match n with
  | 0x004 => 1
  | 0x00B => 1
  | 0x00C => 128
  | 0x011 => 24 <<< 48
  | 0x042 => -1
  | 0x80A => 16
  | 0xC15 => 4
  | 0xC16 => 4
  | 0xC1B => 16 <<< 32
  | _ => 0

/-- The instruction has completed (R18): it counts in INSTRET. -/
def counted (s t : State) : Prop := t.hart.instret = s.hart.instret + 1

/-- The hart has taken a synchronous exception (R299, R344): it runs at the vector of the kernel, or from above user level of the
monitor, with a cause of R346 there. -/
def trapped (s t : State) : Prop :=
  let p := s.hart.priv
  let q := t.hart.priv
  t.hart.phase = .active ∧ t.hart.waiting = none ∧ t.hart.instret = s.hart.instret ∧
    (p.level = .user → q.level = .kernel ∧ t.hart.pc = p.tvec ∧ q.aie = false ∧ q.ppl = 0 ∧ 1 ≤ q.cause.toNat ∧ q.cause.toNat ≤ 0x12) ∧
    (p.level ≠ .user → q.level = .monitor ∧ t.hart.pc = p.monvec ∧ 1 ≤ q.moncause.toNat ∧ q.moncause.toNat ≤ 0x12)

/-- The instructions that may have to wait: copies and messages for their channel, waits for what they wait for, reservations for their
answer, `lz.fin`, fences and invalidations for what is under way, a switch-pending `kret` for the switch. -/
def mayWait : Instr → Prop
  | .cpy _ _ _ _ => True
  | .cpy2 _ _ _ _ _ => True
  | .cpyG _ _ _ _ _ => True
  | .cpyGd _ _ _ _ _ => True
  | .cpyR _ _ _ _ => True
  | .qsend _ _ _ _ => True
  | .cwait _ => True
  | .lzRes _ _ => True
  | .lzWait _ _ => True
  | .lzFin _ => True
  | .barWait _ _ _ => True
  | .waitge _ _ _ _ _ => True
  | .waiteq _ _ _ _ _ => True
  | .fence _ _ _ _ _ => True
  | .invpg _ _ => True
  | .invpgG _ => True
  | .kret => True
  | _ => False

/-- The instruction has not completed and is the next one again: it waits, as one of those that may (R25), or for a row repair (R380), or
it was stopped between its elements (R19). -/
def waits (s t : State) (i : Instr) : Prop :=
  (mayWait i ∨ s.repairing ≠ none ∨ s.hart.limit ≠ none) ∧ t.hart.pc = s.hart.pc ∧ t.hart.instret = s.hart.instret

/-- R113 to R124: where the words at the pc decode to an instruction, a step is that instruction at that state, with the fetched
word and the pair flag latched and at most lines of other devices' memory fetched, and the turn passes; where they are not an
instruction it is the illegal-encoding trap of the word that R124 names. An event on the agenda comes first, then what may happen at any
time (log 61), and with no power nothing steps. -/
def StepRunsTheDecodedInstruction : Prop :=
  ∀ s : State,
    (Claim.runs s → ∀ l1 l2 w1 w2, Claim.wordStands s s.hart.pc l1 w1 →
      (isLeading w1 = true → s.hart.pc + 4 ≠ 0x7FFFFFFFFFFF0 ∧ Claim.wordStands (Claim.near s l1) (s.hart.pc + 4) l2 w2) →
      (isLeading w1 = false → w2 = 127) →
      let u := if isLeading w1 then Claim.near (Claim.near s l1) l2 else Claim.near s l1
      ∃ s', Claim.fetched s u s' ∧
        (∀ i pair, Claim.decodesTo w1 w2 i pair → s'.hart.iword = BitVec.ofNat 32 (if pair then w2 else w1) ∧ s'.hart.ipair = pair ∧
          ∃ v t, exec i s' = .next v ∧ step s = .next t ∧ Claim.passed v t) ∧
        (∀ second, decode w1 w2 = .illegal second →
          let second := second || (secondDynamic w1 w2 && (roundingOf s.hart.fcsr.rm).isNone)
          ∃ v t, exec (.illegalEncoding (BitVec.ofNat 32 (if second then w2 else w1)) second) s' = .next v ∧
            step s = .next t ∧ Claim.passed v t)) ∧
    (∀ e rest, s.agenda = e :: rest → s.power = true → e.isEvent = true →
      ∃ t, exec e { s with agenda := rest } = .next t ∧ step s = .next t) ∧
    (∀ c rest, s.agenda = [] → s.power = true → s.chances = c :: rest → step s = .next ({ s with chances := rest }.happen c)) ∧
    (s.agenda = [] → s.power = false → step s = .fault .noPower)

/-- An event of another hart that is not switched out is the same event in that hart's turn, with the turn given back; of a
hart that does not exist it does nothing. -/
def EventsOfOtherHarts : Prop :=
  ∀ (s : State) (i : Instr) (h : Nat), Claim.eventHart i = some h → ((s.hart :: s.parked).map fun k => k.place.hid).Nodup →
    (∀ k ∈ s.parked, k.place.hid = h → k.phase ≠ .empty → k.phase ≠ .switched →
      ∃ u, exec i (s.swap h) = .next u ∧ exec i s = .next (u.swap s.hart.place.hid) ∧ (s.swap h).hart = k ∧
        ((s.swap h).swap s.hart.place.hid) = s) ∧
    ((∀ k ∈ s.hart :: s.parked, k.place.hid ≠ h ∨ k.phase = .empty ∨ k.phase = .switched) → exec i s = .next s)

end Sys2Proof.Claim

/-- R23, R46, R47, R301, R303, R307, R309, R318, R357, R362, R367, R374, R379: after reset no hart, launch, zone or barrier exists; no
partition is enabled; every register of R46, R47, R301 and R307 reads as its table says, 0 unless it names another value (ROWS 1,
MBUDGET.CBITS 24, FFAULT all ones, VLCAP 16, PCAC 4, PMROWS 4, LVLCAP 16); vectors, masks, fibres and accumulators are empty, no context is
attached, channels and streams are idle; the scheduler blocks are at RCLTO 2^20, AGETH 2^24, QUANT 2^20 and PREEMPT; the welt's tables are
dimension-ordered with GEN 0 and no link failed; the ports are DOWN, the logs empty; nothing is ready in power state 0. -/
def Obligations.ResetValues : Prop :=
  let s := State.reset
  s.parked = [] ∧ s.hart.phase = .empty ∧ s.launches = [] ∧ s.zones = [] ∧ s.barriers = [] ∧ s.queues = [] ∧ s.rcache = [] ∧
    s.mem = [] ∧ s.spad = [] ∧ s.poison = [] ∧ s.tlb = [] ∧ s.accepted = false ∧
    (∀ n w, Claim.register s n = some w → w = Claim.resetWord n) ∧
    (∀ r : XReg, s.hart.x[r.val] = 0) ∧ (∀ r : CBit, s.hart.c[r.val] = false) ∧
    (∀ r : VNum, s.hart.v[r.val].bits = 0 ∧ s.hart.v[r.val].tag = .none) ∧ (∀ r : MNum, s.hart.m[r.val].bits = 0) ∧
    (∀ r : QNum, s.hart.q[r.val].entries = [] ∧ s.hart.q[r.val].tag = .none) ∧
    (∀ r : ENum, s.hart.e[r.val].a = 0 ∧ s.hart.e[r.val].nan = false ∧ s.hart.e[r.val].pinf = false ∧ s.hart.e[r.val].ninf = false) ∧
    s.hart.tile = none ∧ s.hart.strip = none ∧ s.hart.priv.level = .user ∧ s.hart.disc = 0 ∧
    (∀ k : ChNum, s.hart.ch[k.val].state = .idle) ∧ (∀ k : Fin 8, s.hart.streams[k.val].bound = false) ∧
    (∀ p : Fin 8, (s.partOf p).en = false ∧ (s.partOf p).err = false ∧ (s.partOf p).pcac = 4 ∧ (s.partOf p).pmrows = 4 ∧
      (s.partOf p).lvlcap = 16 ∧ (s.partOf p).size = 0 ∧ (s.scheds[p.val]).rclto = 2 ^ 20 ∧
      (s.scheds[p.val]).ageth = 2 ^ 24 ∧ (s.scheds[p.val]).quant = 2 ^ 20 ∧ (s.scheds[p.val]).preempt = true ∧
      (s.scheds[p.val]).racken = false ∧ (s.scheds[p.val]).rackaddr = 0 ∧ (s.scheds[p.val]).rptint = 0) ∧
    s.welt.gen = 0 ∧ s.welt.pend = false ∧ s.welt.err = false ∧ s.welt.fail = 0 ∧ s.welt.cur = s.welt.stg ∧
    (∀ c d : Fin 8, Claim.linkOf s.welt.cur c d =
      if c = d then 7 else if (d.val + 4 - c.val % 4) % 4 = 3 then 1 else if (d.val + 4 - c.val % 4) % 4 ≠ 0 then 0 else 2) ∧
    (∀ p : Fin 4, (s.ports[p.val]).state = .down ∧ (s.ports[p.val]).ncnt = 0 ∧ (s.ports[p.val]).replay = [] ∧
      (s.ports[p.val]).pf = false ∧ (s.ports[p.val]).keyx = false ∧ (s.ports[p.val]).rply = 0 ∧
      (s.ports[p.val]).trdy = false ∧ (s.ports[p.val]).rrdy = false) ∧
    (∀ k : Fin 16, (s.logs[k.val]).recs = [] ∧ (s.logs[k.val]).ce = 0 ∧ (s.logs[k.val]).ue = 0 ∧ (s.logs[k.val]).rp = 0 ∧
      (s.logs[k.val]).ovf = 0) ∧
    s.service.ready = 0 ∧ s.service.state = 0 ∧ s.service.snapseq = 0 ∧ s.service.retstat = 0 ∧ s.service.retaddr = 0 ∧
    s.service.intdrop = 0 ∧ s.service.perr = false ∧ s.service.alert = false ∧ Safety.Sound s

/-- The step keeps soundness: both memories stay in their one form, READY [1] waits for an accepted configuration, and in standby
neither a compute chiplet nor the welt is ready. -/
def Obligations.StepKeepsSound : Prop :=
  ∀ s t : State, Safety.Sound s → step s = .next t → Safety.Sound t

/-- R113 to R120: the words of a well-formed instruction that has an encoding, with every operand at every value that the
encoding admits, decode to it and to nothing else. -/
def Obligations.EncodeDecode : Prop :=
  ∀ i : Instr, i.wf = true → i.isEvent = false → decodeWords (encode i) = .instr i (leadingWord i).isSome

/-- The memories: in their canonical form a store of a byte keeps the form, is read back, and leaves every other byte; n bytes
likewise, little-endian (R5); and memories in the form that read alike are equal. -/
def Obligations.MemoryLaws : Prop :=
  ∀ m : List Host.Cell, Memory.wf m = true →
    (∀ a b, Memory.wf (Memory.write m a b) = true ∧ Claim.oneByte m (Memory.write m a b) a b) ∧
    (∀ a n v, Memory.wf (Memory.writeN m a n v) = true ∧ Memory.readN (Memory.writeN m a n v) a n = v % 256 ^ n ∧
      (∀ k, k < n → Memory.read (Memory.writeN m a n v) (a + k) = BitVec.ofNat 8 (v / 256 ^ k)) ∧
      ∀ k, k < a ∨ a + n ≤ k → Memory.read (Memory.writeN m a n v) k = Memory.read m k) ∧
    (∀ a n, Memory.wf (Memory.zero m a n) = true ∧ ∀ k, Memory.read (Memory.zero m a n) k =
      if a ≤ k ∧ k < a + n then 0 else Memory.read m k) ∧
    ∀ k, Memory.wf k = true → (∀ a, Memory.read k a = Memory.read m a) → k = m

/-- R16, R18, R25, R299: every instruction and every event, in every state, answers with a next state. An instruction of a hart that waits
for nothing completes, and counts; or takes a synchronous exception; or is the next one again: of those that may wait, of any while a row
is under repair (log 30) or where the turn stops a divisible instruction early (log 61). -/
def Obligations.EveryInstructionAnswers : Prop :=
  ∀ (i : Instr) (s : State), ∃ t, exec i s = .next t ∧
    (i.isEvent = false → s.hart.waiting = none → Claim.counted s t ∨ Claim.trapped s t ∨ Claim.waits s t i)

/-- Words that the spec writes out decode to what they stand for (R236, R241, R247, R249 and the entries named there). -/
def Obligations.WordsDecode : Prop :=
  decode 0x0005A950 127 = .instr (.cpy 2 10 11 false) false ∧ decode 0x8005A950 127 = .instr (.cpy 2 10 11 true) false ∧
    decode 0x02E6B0D0 127 = .instr (.cpy2 1 12 13 14 false) false ∧ decode 0x080AD1D0 127 = .instr (.cpyR 3 20 21 false) false ∧
    decode 0x00000051 127 = .instr .cbatch false ∧ decode 0x02000051 127 = .instr (.cwait 0) false ∧
    decode 0x041025D1 127 = .instr (.cstat 3 9 1) false ∧ decode 0x00C5A852 127 = .instr (.lzInit 10 11 12) false ∧
    decode 0x02031452 127 = .instr (.lzRes 5 6) false ∧ decode 0x04730052 127 = .instr (.lzWait 6 7) false ∧
    decode 0x00240053 127 = .instr (.qsend 0 8 2 false) false ∧ decode 0x02730453 127 = .instr (.qrecv 1 6 7) false ∧
    decode 0 127 = .illegal false ∧ decode 0x0005A953 127 = .illegal false

/-- Register, immediate, compare, condition, product and quotient instructions complete with the values of their tables and nothing else. -/
def Obligations.ScalarResults : Prop :=
  Claim.ScalarArithmetic ∧ Claim.ScalarConditions ∧ Claim.MultiplyDivide

/-- Scalar floating-point results and compares complete, with their flags in FCSR. -/
def Obligations.FloatArithmetic : Prop :=
  Claim.FloatResults ∧ Claim.FloatCompares

/-- Scalar stores change exactly their bytes, and in a strip stand last in its buffer. -/
def Obligations.ScalarStores : Prop :=
  Claim.ScalarStores ∧ Claim.StripStoresAreBuffered

/-- Reserved rounding modes, instructions a strip forbids, and privileged instructions below their level take the exception of the spec. -/
def Obligations.ForbiddenInstructions : Prop :=
  Claim.ReservedRoundingTraps ∧ Claim.StripForbids ∧ Claim.PrivilegeTraps

/-- Taking an exception saves what R299 says and goes to the handler; system calls, breakpoints and illegal words do so. -/
def Obligations.TakingAnException : Prop :=
  Claim.TakingAnException ∧ Claim.SystemCalls

/-- Translation invalidation completes, and the end of a hart leaves what R24 says. -/
def Obligations.PrivilegedEffects : Prop :=
  Claim.InvalidationCompletes ∧ Claim.HartEnds

/-- Special registers read and are written as their tables say, at the levels that may use them. -/
def Obligations.SpecialRegisters : Prop :=
  Claim.SpecialReads ∧ Claim.SpecialWrites ∧ Claim.LastWrites ∧ Claim.MonitorWrites

/-- Atomics complete with the old value in x[d] and the new one in memory, and change no other byte. -/
def Obligations.Atomics : Prop :=
  Claim.Atomics ∧ Claim.CompareAndSwapPair

/-- Acquire loads and release stores complete with the bytes of their scope. -/
def Obligations.AcquireAndRelease : Prop :=
  Claim.LoadAcquire ∧ Claim.StoreRelease

/-- Fences complete when the transfers they name have ended; waits complete when satisfied, else the hart is in MONITOR. -/
def Obligations.FencesAndWaits : Prop :=
  Claim.Fences ∧ Claim.WaitsLook

/-- The barrier object instructions: initialisation, arrival, wait and end. -/
def Obligations.Barriers : Prop :=
  Claim.BarrierInit ∧ Claim.BarrierArrive ∧ Claim.BarrierWait ∧ Claim.BarrierFinish

/-- Reductions leave the value of the order or tree that the spec fixes. -/
def Obligations.VectorReductions : Prop :=
  Claim.VectorReductions ∧ Claim.OrderedSumStops

/-- Tag setting, stream bindings and disc marks change exactly what they name. -/
def Obligations.TagsAndStreams : Prop :=
  Claim.TagsSet ∧ Claim.TagTraps ∧ Claim.StreamBindings ∧ Claim.DiscardMarks

/-- Vector loads deliver every active record, and a first-faulting load trims VL at the first element that fails. -/
def Obligations.VectorLoads : Prop :=
  Claim.VectorLoads ∧ Claim.FirstFaultTrims ∧ Claim.VectorLoadStops

/-- Moves between scalar registers and vectors or masks. -/
def Obligations.ElementMoves : Prop :=
  Claim.VectorToScalar ∧ Claim.ScalarToVector

/-- Exact accumulators sum without rounding, and their images in memory round-trip. -/
def Obligations.Accumulators : Prop :=
  Claim.Accumulation ∧ Claim.AccumulatorImages

/-- Intersections, unions, merges and sparse dot products walk two sorted fibres as R211 says. -/
def Obligations.FibreSets : Prop :=
  Claim.FibreSets ∧ Claim.FibreDot ∧ Claim.FibreStops

/-- Fibre reshapes and reductions. -/
def Obligations.FibreReshapes : Prop :=
  Claim.FibreReshapes ∧ Claim.FibreReductions

/-- Tile loads and stores move the units of their shape. -/
def Obligations.TileMoves : Prop :=
  Claim.TileLoads ∧ Claim.TileStores ∧ Claim.MatrixTraps

/-- Copy commands are accepted by a free channel, wait for a running one, and take engine faults. -/
def Obligations.CopyCommands : Prop :=
  Claim.CopyCommands ∧ Claim.EngineFaults

/-- Batches and channel status, and the engine events of a hart. -/
def Obligations.CopyStatusAndEngines : Prop :=
  Claim.CopyStatus ∧ Claim.EngineEvents

/-- The owner makes, frees, scrubs, reads and ends its landing zone. -/
def Obligations.ZoneOwner : Prop :=
  Claim.ZoneInit ∧ Claim.ZoneOwner ∧ Claim.ZoneTraps

/-- Reservations and waits at landing zones answer with the codes of R247. -/
def Obligations.ZoneRequests : Prop :=
  Claim.ZoneReservations ∧ Claim.ZoneWaits

/-- Transfers into eyelets: those of this device, those of others, and the answers of others. -/
def Obligations.Transfers : Prop :=
  Claim.LocalTransfers ∧ Claim.TransfersLeave ∧ Claim.ZoneServesDevices ∧ Claim.DevicesAnswer

/-- Wakes, asynchronous events, and the end of harts and launches. -/
def Obligations.HartEvents : Prop :=
  Claim.HartsLookAgain ∧ Claim.AsynchronousEvents ∧ Claim.EndOfHartsAndLaunches

/-- A switch-out saves and releases a hart, and a restore brings back what its area holds. -/
def Obligations.ContextSwitch : Prop :=
  Claim.SwitchOut ∧ Claim.HartRestore

/-- Packets reach their queues, are accepted or rejected, and wait for their dependences. -/
def Obligations.Launches : Prop :=
  Claim.QueueWindows ∧ Claim.PacketAcceptance ∧ Claim.DependenceChecks

/-- Placement makes the harts of a launch; partitions are switched and rack messages answered. -/
def Obligations.Scheduling : Prop :=
  Claim.Placement ∧ Claim.RackMessages ∧ Claim.PartitionSwitches

/-- The loss and the return of a path, at zones, channels and harts. -/
def Obligations.LostPaths : Prop :=
  Claim.PathLost ∧ Claim.PathsReturn

/-- The welt block, port events and received flits. -/
def Obligations.LinksAndPorts : Prop :=
  Claim.WeltRegisters ∧ Claim.PortEvents ∧ Claim.FlitsReceived

/-- Power states, bring-up, host interrupts and snapshots. -/
def Obligations.PowerAndInterrupts : Prop :=
  Claim.PowerStates ∧ Claim.BringUp ∧ Claim.HostInterruptsAndSnapshots

/-- Retirement, memory errors and host accesses. -/
def Obligations.Maintenance : Prop :=
  Claim.Retirement ∧ Claim.MemoryErrors ∧ Claim.HostAccesses

/-- A step runs the instruction that the words at the pc decode to; events of other harts act in their turn. -/
def Obligations.StepRunsTheDecodedInstruction : Prop :=
  Claim.StepRunsTheDecodedInstruction ∧ Claim.EventsOfOtherHarts
end

