-- ==== Sys2Proof/Laws/Bits.lean ====
section
/-! SUPPORT. Bit fields and bytes of numbers (00 R5), bit by bit and byte by byte. -/

namespace Sys2Proof.Laws

set_option Elab.async false

open Sys2Proof.Machine Sys2Proof.Claim

theorem testBit_bitsAt (n off len k : Nat) : (bitsAt n off len).testBit k = (decide (k < len) && n.testBit (off + k)) := by
  unfold bitsAt; simp [Nat.testBit_mod_two_pow, Nat.testBit_shiftRight]

theorem testBit_setBitsAt (n off len v k : Nat) : (setBitsAt n off len v).testBit k =
    if off ≤ k ∧ k < off + len then v.testBit (k - off) else n.testBit k := by
  unfold setBitsAt
  have h1 : (v % 2 ^ len) <<< off + n % 2 ^ off = (v % 2 ^ len) <<< off ||| n % 2 ^ off := 
    Nat.shiftLeft_add_eq_or_of_lt (Nat.mod_lt _ (Nat.two_pow_pos _)) _
  have h2 : (v % 2 ^ len) <<< off + n % 2 ^ off < 2 ^ (off + len) := by
    have a := Nat.mod_lt v (Nat.two_pow_pos len)
    have b := Nat.mod_lt n (Nat.two_pow_pos off)
    rw [Nat.shiftLeft_eq, Nat.pow_add]
    have c : (v % 2 ^ len + 1) * 2 ^ off ≤ 2 ^ len * 2 ^ off := Nat.mul_le_mul_right _ a
    rw [Nat.add_mul, Nat.one_mul] at c; rw [Nat.mul_comm (2 ^ off)]; omega
  rw [Nat.add_assoc, Nat.shiftLeft_add_eq_or_of_lt h2, h1]
  simp only [Nat.testBit_or, Nat.testBit_shiftLeft, Nat.testBit_mod_two_pow, Nat.testBit_shiftRight]
  by_cases c1 : off ≤ k
  · by_cases c2 : k < off + len
    · have : ¬ off + len ≤ k := by omega
      have e : k - off < len := by omega
      have e2 : ¬ k < off := by omega
      simp [c1, c2, this, e, e2]
    · have : off + len ≤ k := by omega
      have e : ¬ k - off < len := by omega
      have e2 : ¬ k < off := by omega
      simp [c1, c2, this, e, e2]
  · have : ¬ off + len ≤ k := by omega
    simp [c1, this]; intro; omega

theorem bit_nat (v : Word) (k : Nat) : v.toNat.testBit k = v.getLsbD k := rfl

theorem getLsbD_ofNat64 (n k : Nat) (h : k < 64) : (BitVec.ofNat 64 n).getLsbD k = n.testBit k := by
  rw [BitVec.getLsbD_ofNat]; simp [h]

theorem popCount_eq (n v : Nat) : popCount n v = ((List.range n).filter v.testBit).length := by
  induction n generalizing v with
  | zero => rfl
  | succ n ih =>
    rw [popCount, ih, List.range_succ_eq_map, List.filter_cons]
    have e : (List.filter v.testBit (List.map Nat.succ (List.range n))).length = (List.filter (v / 2).testBit (List.range n)).length := by
      rw [List.filter_map, List.length_map]; congr 1; apply List.filter_congr; intro x _; simp [Nat.testBit_succ]
    split
    · rename_i h; simp only [List.length_cons, e]; simp [Nat.testBit_zero] at h; omega
    · rename_i h; rw [e]; simp [Nat.testBit_zero] at h; omega

theorem lowestBit_spec (n v : Nat) : lowestBit n v ≤ n ∧ (∀ k, k < lowestBit n v → v.testBit k = false) ∧
    (lowestBit n v < n → v.testBit (lowestBit n v) = true) := by
  induction n generalizing v with
  | zero => simp [lowestBit]
  | succ n ih =>
    rw [lowestBit]
    split
    · rename_i h; refine ⟨by omega, fun k hk => by omega, fun _ => by simp [Nat.testBit_zero, h]⟩
    · rename_i h
      obtain ⟨a, b, c⟩ := ih (v / 2)
      refine ⟨by omega, ?_, ?_⟩
      · intro k hk
        cases k with
        | zero => simp [Nat.testBit_zero]; omega
        | succ k => rw [Nat.testBit_succ]; exact b k (by omega)
      · intro hl
        rw [Nat.add_comm, Nat.testBit_succ]; exact c (by omega)

theorem ofBytes_lt (l : List Byte) : ofBytes l < 2 ^ (8 * l.length) := by
  induction l with
  | nil => simp [ofBytes]
  | cons b l ih =>
    have := b.isLt
    simp only [ofBytes, List.length_cons]
    have e : 2 ^ (8 * (l.length + 1)) = 2 ^ (8 * l.length) * 256 := by rw [Nat.mul_succ, Nat.pow_add]
    omega

theorem byte_ofBytes (l : List Byte) (i : Nat) : BitVec.ofNat 8 (ofBytes l >>> (8 * i)) = l.getD i 0 := by
  induction l generalizing i with
  | nil => simp [ofBytes]
  | cons b l ih =>
    cases i with
    | zero => 
      simp only [ofBytes, Nat.mul_zero, Nat.shiftRight_zero, List.getD_cons_zero]
      apply BitVec.eq_of_toNat_eq; rw [BitVec.toNat_ofNat]; have := b.isLt; omega
    | succ i =>
      rw [List.getD_cons_succ, ← ih i]
      congr 1
      rw [ofBytes, Nat.mul_succ, Nat.add_comm (8 * i) 8, Nat.shiftRight_add]
      congr 1
      have := b.isLt
      simp [Nat.shiftRight_eq_div_pow]; omega

theorem bytesOf_getD (n v i : Nat) (h : i < n) : (bytesOf n v).getD i 0 = BitVec.ofNat 8 (v >>> (8 * i)) := by
  induction n generalizing v i with
  | zero => omega
  | succ n ih =>
    cases i with
    | zero => simp [bytesOf]
    | succ i =>
      rw [bytesOf, List.getD_cons_succ, ih _ _ (by omega), Nat.mul_succ, Nat.add_comm (8 * i) 8, Nat.shiftRight_add]
      simp [Nat.shiftRight_eq_div_pow]

theorem bytesOf_length (n v : Nat) : (bytesOf n v).length = n := by
  induction n generalizing v with
  | zero => rfl
  | succ n ih => simp [bytesOf, ih]

theorem byte_readN (m : List Host.Cell) (a n k : Nat) (h : k < n) : BitVec.ofNat 8 (Memory.readN m a n >>> (8 * k)) = Memory.read m (a + k) := by
  induction n generalizing a k with
  | zero => omega
  | succ n ih =>
    rw [Memory.readN]
    have hb := (Memory.read m a).isLt
    cases k with
    | zero =>
      apply BitVec.eq_of_toNat_eq
      simp only [BitVec.toNat_ofNat, Nat.mul_zero, Nat.shiftRight_zero, Nat.add_zero]; omega
    | succ k =>
      have := ih (a + 1) k (by omega)
      rw [show a + (k + 1) = a + 1 + k by omega, ← this, Nat.mul_succ, Nat.add_comm (8 * k) 8, Nat.shiftRight_add]
      congr 2
      simp [Nat.shiftRight_eq_div_pow]; omega

theorem readN_lt (m : List Host.Cell) (a n : Nat) : Memory.readN m a n < 2 ^ (8 * n) := by
  induction n generalizing a with
  | zero => simp [Memory.readN]
  | succ n ih =>
    rw [Memory.readN]
    have hb := (Memory.read m a).isLt
    have := ih (a + 1)
    have e : 2 ^ (8 * (n + 1)) = 2 ^ (8 * n) * 256 := by rw [Nat.mul_succ, Nat.pow_add]
    omega

theorem byte_bitsAt (d o n k : Nat) (h : k < n) : BitVec.ofNat 8 (bitsAt d o (8 * n) >>> (8 * k)) = BitVec.ofNat 8 (d >>> (o + 8 * k)) := by
  apply BitVec.eq_of_getLsbD_eq
  intro i hi
  rw [BitVec.getLsbD_ofNat, BitVec.getLsbD_ofNat, Nat.testBit_shiftRight, Nat.testBit_shiftRight, testBit_bitsAt]
  have : 8 * k + i < 8 * n := by omega
  simp [this, Nat.add_assoc]

theorem byte_setBitsAt (d o n v k : Nat) : BitVec.ofNat 8 (setBitsAt d (8 * o) (8 * n) v >>> (8 * k)) =
    if o ≤ k ∧ k < o + n then BitVec.ofNat 8 (v >>> (8 * (k - o))) else BitVec.ofNat 8 (d >>> (8 * k)) := by
  apply BitVec.eq_of_getLsbD_eq
  intro i hi
  rw [BitVec.getLsbD_ofNat, Nat.testBit_shiftRight, testBit_setBitsAt]
  split
  · rename_i h
    have : o ≤ k ∧ k < o + n := by omega
    rw [if_pos this, BitVec.getLsbD_ofNat, Nat.testBit_shiftRight]
    congr 2; omega
  · rename_i h
    have : ¬ (o ≤ k ∧ k < o + n) := by omega
    rw [if_neg this, BitVec.getLsbD_ofNat, Nat.testBit_shiftRight]

theorem byte_over (d : Dirty) (v k : Nat) : BitVec.ofNat 8 (d.over v >>> (8 * k)) =
    if d.off = k then mergeHalf (BitVec.ofNat 8 (v >>> (8 * k))) d.byte d.half else BitVec.ofNat 8 (v >>> (8 * k)) := by
  have e := byte_setBitsAt v d.off 1 (mergeHalf (BitVec.ofNat 8 (bitsAt v (8 * d.off) 8)) d.byte d.half).toNat k
  have b := byte_bitsAt v (8 * d.off) 1 0 (by omega)
  simp only [Nat.mul_one, Nat.mul_zero, Nat.shiftRight_zero, Nat.add_zero] at e b
  unfold Dirty.over
  rw [e]
  by_cases h : d.off = k
  · subst h
    rw [if_pos rfl, if_pos ⟨Nat.le_refl _, Nat.lt_succ_self _⟩, Nat.sub_self, Nat.mul_zero, Nat.shiftRight_zero, BitVec.ofNat_toNat, b]
    simp
  · rw [if_neg h, if_neg (by omega)]

/-- The effect of one record at one byte of the record's first m. -/
def upTo (r : StripRec) (l : Loc) (va k m : Nat) : Option Byte :=
  match r.pin, l with
  | some p, .phys a => if p ≤ a + k ∧ a + k < p + m then some (BitVec.ofNat 8 (r.data >>> (8 * (a + k - p)))) else none
  | none, .spad _ => if r.addr ≤ va + k ∧ va + k < r.addr + m then some (BitVec.ofNat 8 (r.data >>> (8 * (va + k - r.addr)))) else none
  | _, _ => none

theorem meets_upTo (r : StripRec) (l : Loc) (va k m : Nat) :
    upTo r l va k (m + 1) = if r.meets l va m = some k then some (BitVec.ofNat 8 (bitsAt r.data (8 * m) 8)) else upTo r l va k m := by
  have b := byte_bitsAt r.data (8 * m) 1 0 (by omega)
  simp only [Nat.mul_one, Nat.mul_zero, Nat.shiftRight_zero, Nat.add_zero] at b
  rw [b]
  unfold upTo StripRec.meets
  cases r.pin with
  | none =>
    cases l with
    | phys a => simp
    | spad i =>
      simp only [Option.ite_none_right_eq_some, Option.some.injEq]
      by_cases c : va ≤ r.addr + m ∧ r.addr + m - va = k
      · rw [if_pos c, if_pos (by omega)]; congr 3; omega
      · rw [if_neg c]; congr 1; simp only [eq_iff_iff]; omega
  | some p =>
    cases l with
    | spad i => simp
    | phys a =>
      simp only [Option.ite_none_right_eq_some, Option.some.injEq]
      by_cases c : a ≤ p + m ∧ p + m - a = k
      · rw [if_pos c, if_pos (by omega)]; congr 3; omega
      · rw [if_neg c]; congr 1; simp only [eq_iff_iff]; omega

theorem upTo_none (r : StripRec) (l : Loc) (va k m : Nat) (h : r.meets l va m = some k) : upTo r l va k m = none := by
  unfold upTo; unfold StripRec.meets at h
  cases hp : r.pin with
  | none =>
    cases l with
    | phys a => rfl
    | spad i =>
      simp only [hp] at h ⊢
      split at h
      · injection h with h; rw [if_neg (by omega)]
      · cases h
  | some p =>
    cases l with
    | spad i => rfl
    | phys a =>
      simp only [hp] at h ⊢
      split at h
      · injection h with h; rw [if_neg (by omega)]
      · cases h

theorem byte_inner (r : StripRec) (l : Loc) (va n v k m : Nat) (hk : k < n) :
    BitVec.ofNat 8 (((List.range m).foldl (fun v j => match r.meets l va j with
      | some i => if i < n then
          setBitsAt v (8 * i) 8 (mergeHalf (BitVec.ofNat 8 (bitsAt v (8 * i) 8)) (BitVec.ofNat 8 (bitsAt r.data (8 * j) 8)) r.half).toNat else v
      | none => v) v) >>> (8 * k)) =
    match upTo r l va k m with
    | some x => mergeHalf (BitVec.ofNat 8 (v >>> (8 * k))) x r.half
    | none => BitVec.ofNat 8 (v >>> (8 * k)) := by
  induction m with
  | zero =>
    have : upTo r l va k 0 = none := by unfold upTo; split <;> first | rfl | (rw [if_neg (by omega)])
    rw [this]; rfl
  | succ m ih =>
    rw [List.range_succ, List.foldl_append, List.foldl_cons, List.foldl_nil, meets_upTo]
    generalize List.foldl _ v (List.range m) = w at ih ⊢
    cases hm : r.meets l va m with
    | none => simpa using ih
    | some i =>
      dsimp only
      by_cases hi : i = k
      · subst hi
        have e := byte_over ⟨i, 0, 0, BitVec.ofNat 8 (bitsAt r.data (8 * m) 8), r.half⟩ w i
        unfold Dirty.over at e
        rw [if_pos hk, if_pos rfl, e, if_pos rfl, ih, upTo_none _ _ _ _ _ hm]
      · have hne : ¬ (some i = some k) := fun h => hi (Option.some.inj h)
        rw [if_neg hne, ← ih]
        by_cases hn : i < n
        · have e := byte_over ⟨i, 0, 0, BitVec.ofNat 8 (bitsAt r.data (8 * m) 8), r.half⟩ w k
          unfold Dirty.over at e
          rw [if_neg hi] at e
          rw [if_pos hn]; exact e
        · rw [if_neg hn]

theorem byte_overlay (st : Strip) (l : Loc) (va n v k : Nat) (hk : k < n) :
    BitVec.ofNat 8 (overlay st.recs l va n v >>> (8 * k)) = ownByte (some st) l va k (BitVec.ofNat 8 (v >>> (8 * k))) := by
  unfold ownByte overlay
  dsimp only
  generalize st.recs = L
  induction L generalizing v with
  | nil => rfl
  | cons r L ih =>
    rw [List.foldl_cons, List.foldl_cons, ih]
    congr 1
    exact byte_inner _ _ _ _ _ _ _ hk

theorem setBitsAt_lt (d o n v B : Nat) (hd : d < 2 ^ B) (h : o + n ≤ B) : setBitsAt d o n v < 2 ^ B := by
  apply Nat.lt_pow_two_of_testBit
  intro i hi
  rw [testBit_setBitsAt]
  have : ¬ (o ≤ i ∧ i < o + n) := by omega
  rw [if_neg this]
  exact Nat.testBit_lt_two_pow (Nat.lt_of_lt_of_le hd (Nat.pow_le_pow_right (by omega) hi))

theorem overlay_lt (recs : List StripRec) (l : Loc) (va n v : Nat) (h : v < 2 ^ (8 * n)) : overlay recs l va n v < 2 ^ (8 * n) := by
  unfold overlay
  induction recs generalizing v with
  | nil => exact h
  | cons r l ih =>
    rw [List.foldl_cons]; apply ih
    generalize List.range (2 ^ r.size) = L
    induction L generalizing v with
    | nil => exact h
    | cons j L ihL =>
      rw [List.foldl_cons]; apply ihL
      split
      · split
        · apply setBitsAt_lt _ _ _ _ _ h; omega
        · exact h
      · exact h

end Sys2Proof.Laws
end

