-- ==== Sys2Proof/Laws/Engine.lean ====
section
/-! SUPPORT. What copies that move on by themselves can do (12 R233 to R251): `State.drain` changes channels, memory, landing
zones and messages only. -/

namespace Sys2Proof.Laws

set_option Elab.async false

open Sys2Proof.Machine Sys2Proof.Claim

def CopyOnly (s t : State) : Prop := ∃ ch mem spad poison spadPoison rcache fills outbox, t = { s with
    hart := { s.hart with ch := ch }, mem := mem, spad := spad, poison := poison, spadPoison := spadPoison
    rcache := rcache, fills := fills, outbox := outbox }

theorem CopyOnly.refl (s : State) : CopyOnly s s := ⟨_, _, _, _, _, _, _, _, rfl⟩

theorem CopyOnly.trans {s t u : State} (h : CopyOnly s t) (k : CopyOnly t u) : CopyOnly s u := by
  obtain ⟨a, b, c, d, e, f, g, i, rfl⟩ := h
  obtain ⟨a', b', c', d', e', f', g', i', rfl⟩ := k
  exact ⟨a', b', c', d', e', f', g', i', rfl⟩

theorem co_spad (s : State) (x) : CopyOnly s { s with spad := x } := ⟨_, _, _, _, _, _, _, _, rfl⟩

theorem co_mem (s : State) (x) : CopyOnly s { s with mem := x } := ⟨_, _, _, _, _, _, _, _, rfl⟩

theorem co_fills (s : State) (x) : CopyOnly s { s with fills := x } := ⟨_, _, _, _, _, _, _, _, rfl⟩

theorem co_rcache (s : State) (x) : CopyOnly s { s with rcache := x } := ⟨_, _, _, _, _, _, _, _, rfl⟩

theorem co_send (s : State) (x) : CopyOnly s (s.send x) := ⟨_, _, _, _, _, _, _, _, rfl⟩

theorem co_setChan (s : State) (k : ChNum) (c : Channel) : CopyOnly s (s.setChan k c) := ⟨_, _, _, _, _, _, _, _, rfl⟩

theorem CopyOnly.setChan {s t : State} (h : CopyOnly s t) (k : ChNum) (c : Channel) : CopyOnly s (t.setChan k c) := h.trans (co_setChan ..)

theorem co_foldl {α : Type} (f : State → α → State) (l : List α) (hf : ∀ s a, CopyOnly s (f s a)) (s : State) : CopyOnly s (l.foldl f s) := by
  induction l generalizing s with
  | nil => exact .refl _
  | cons a l ih => exact (hf s a).trans (ih _)

theorem co_writeLoc (s : State) (l : Loc) (n v : Nat) : CopyOnly s (s.writeLoc l n v) := by cases l <;> exact ⟨_, _, _, _, _, _, _, _, rfl⟩

theorem co_putLoc (s : State) (l : Loc) (n v : Nat) (half : Option Bool) : CopyOnly s (s.putLoc l n v half) := by
  cases half
  · exact co_writeLoc ..
  · cases l <;> exact ⟨_, _, _, _, _, _, _, _, rfl⟩

theorem co_sendAll (line : Nat) (ds : List Dirty) (s : State) : CopyOnly s (ds.foldl (fun s d => s.sendByte line d) s) :=
  co_foldl _ _ (fun _ _ => co_putLoc ..) s

theorem co_writeBack (s : State) (l : RLine) : CopyOnly s (s.writeBack l) := by
  unfold State.writeBack
  split
  · exact .refl _
  · exact ((co_sendAll ..).trans (co_rcache ..)).trans (co_rcache ..)

theorem co_settle (s : State) (hid pa : Nat) : CopyOnly s (s.settle hid pa) := co_foldl _ _ co_writeBack s

theorem co_writeBackAll (s : State) (core hid : Nat) : CopyOnly s (s.writeBackAll core hid).1 := co_foldl _ _ co_writeBack s

theorem co_fillLine (s : State) (core hid pa : Nat) : CopyOnly s (s.fillLine core hid pa).2 := by
  unfold State.fillLine
  split
  · exact .refl _
  · split
    · exact co_rcache ..
    · exact (co_settle ..).trans (co_rcache ..)

theorem co_writeOver (s : State) (p : Route) (l : Loc) (va n v : Nat) (half : Option Bool) : CopyOnly s (s.writeOver p l va n v half) := by
  unfold State.writeOver
  split
  · exact co_putLoc ..
  · split
    · exact ((co_fillLine ..).trans (co_rcache ..)).trans (co_rcache ..)
    · exact ((co_putLoc ..).trans (co_rcache ..)).trans (co_rcache ..)
    · exact co_putLoc ..

theorem co_writeAt (s : State) (p : Route) (l : Loc) (va n v : Nat) : CopyOnly s (s.writeAt p l va n v) := co_writeOver ..

theorem co_readAt {s t : State} {p : Route} {l : Loc} {va n v : Nat} (h : s.readAt p l va n = .ok (v, t)) : CopyOnly s t := by
  unfold State.readAt at h
  split at h
  · split at h
    · cases h
    · cases h; exact .refl _
  · split at h
    · split at h <;> dsimp only at h <;> split at h <;> cases h <;> exact co_fillLine ..
    · dsimp only at h
      split at h
      · cases h
      · cases h; exact co_settle ..
    · split at h
      · cases h
      · cases h; exact .refl _

theorem co_setZoneWord (s : State) (z : Zone) (k v : Nat) : CopyOnly s (s.setZoneWord z k v) := co_writeLoc ..

theorem co_setEntry (s : State) (z : Zone) (k v : Nat) : CopyOnly s (s.setEntry z k v) := co_setZoneWord ..

theorem co_clobber (s : State) (l : Loc) : CopyOnly s (s.clobber l) := by
  unfold State.clobber; split <;> split
  · exact co_setZoneWord ..
  · exact .refl _
  · exact co_mem ..
  · exact .refl _

theorem co_tear (s : State) (f : Fill) : CopyOnly s (s.tear f) := by
  unfold State.tear; dsimp only; split
  · exact co_fills ..
  · exact (co_fills s _).trans ((co_setEntry ..).trans (co_setZoneWord ..))

theorem co_eyeletFull (s : State) (z : Zone) (f : Fill) : CopyOnly s (s.eyeletFull z f) := by
  unfold State.eyeletFull
  exact (co_setEntry s _ _ _).trans ((co_setZoneWord ..).trans (co_fills ..))

theorem co_arrive (s : State) (z : Zone) (f : Fill) (d : List Byte) : CopyOnly s (s.arrive z f d) := by
  unfold State.arrive
  extract_lets e got dd s1 s2
  have h : CopyOnly s s2 := (co_foldl _ _ (fun _ _ => co_writeLoc ..) s).trans (co_setEntry ..)
  split
  · exact h.trans (co_eyeletFull ..)
  · exact h

theorem co_firstRequest {s t : State} {a b c d e f g} (h : s.firstRequest a b c d e f g = .ok t) : CopyOnly s t := by
  unfold State.firstRequest at h
  split at h; · cases h
  split at h; · cases h
  split at h; · cases h
  split at h; · cases h
  extract_lets at h
  split at h; · cases h
  split at h; · cases h
  cases h; exact (co_setEntry ..).trans (co_fills ..)

theorem co_failOrWait (s : State) (r : Reject) (ch : ChNum) (c : Channel) {u : State} (h : CopyOnly s u) :
    CopyOnly s (if r.holds then s else u.setChan ch c) := by
  split
  · exact .refl _
  · exact h.setChan ..

theorem co_local (s : State) (ch : ChNum) (k : CopyCmd) : CopyOnly s (s.copyLocal ch k) := by
  unfold State.copyLocal
  dsimp only
  split; · exact co_setChan ..
  split
  · exact co_failOrWait _ _ _ _ (.refl _)
  · split
    · exact (co_clobber ..).setChan ..
    · split
      · exact co_setChan ..
      · rename_i h
        exact ((co_readAt h).trans (co_writeAt ..)).setChan ..

theorem co_begin (s : State) (ch : ChNum) (k : CopyCmd) : CopyOnly s (s.transferBegin ch k) := by
  unfold State.transferBegin
  dsimp only
  split; · exact co_setChan ..
  split; · exact co_setChan ..
  split; · exact co_failOrWait _ _ _ _ (.refl _)
  split; · exact co_setChan ..
  split
  · split
    · split; · exact .refl _
      split; · exact co_setChan ..
      rename_i h
      have hh := co_firstRequest h
      split
      · split
        · exact (hh.trans (co_eyeletFull ..)).setChan ..
        · exact hh.setChan ..
      · exact hh.setChan ..
    · exact co_setChan ..
  · split; · exact co_setChan ..
    split; · exact .refl _
    exact (co_send ..).setChan ..

theorem co_copyRead {s t : State} {k : CopyCmd} {a : Word} {v : Nat} (h : s.copyRead k a = .ok (v, t)) : CopyOnly s t := by
  unfold State.copyRead at h
  cases hl : s.copyLoc k .load a with
  | error e => rw [hl] at h; cases h
  | ok l => rw [hl] at h; exact co_readAt h

theorem co_nextPayload {s t : State} {k : CopyCmd} {n u : Nat} {a d : List Byte} (h : s.nextPayload k n a = .ok (d, u, t)) : CopyOnly s t := by
  unfold State.nextPayload at h
  split at h
  · cases h; exact .refl _
  split at h
  · cases h; exact .refl _
  cases hr : s.copyRead k (k.src (n / k.per)) with
  | error e => rw [hr] at h; cases h
  | ok p => obtain ⟨v, w⟩ := p; rw [hr] at h; cases h; exact co_copyRead hr

theorem co_move (s : State) (ch : ChNum) (k : CopyCmd) : CopyOnly s (s.transferMove ch k) := by
  unfold State.transferMove
  dsimp only
  split
  · split
    · split; · exact .refl _
      split
      · exact co_failOrWait _ _ _ _ (co_tear ..)
      · rename_i h
        exact ((co_nextPayload h).trans (co_arrive ..)).setChan ..
    · exact co_setChan ..
  · split; · exact .refl _
    split
    · exact co_failOrWait _ _ _ _ (co_send ..)
    · rename_i h
      exact ((co_nextPayload h).trans (co_send ..)).setChan ..

theorem co_copyMove (s : State) (ch : ChNum) : CopyOnly s (s.copyMove ch) := by
  unfold State.copyMove
  extract_lets c
  split
  · split; · exact .refl _
    split
    · split
      · exact co_move ..
      · exact co_begin ..
    · exact co_local ..
  · exact .refl _

theorem co_run (ch : ChNum) (n : Nat) (s : State) : CopyOnly s (s.runChannel ch n) := by
  induction n generalizing s with
  | zero => exact .refl _
  | succ n ih =>
    rw [State.runChannel]
    split
    · exact (co_copyMove ..).trans (ih _)
    · exact .refl _

theorem co_readAhead (ch : ChNum) (k : CopyCmd) (n : Nat) (s : State) : CopyOnly s (s.readAhead ch k n) := by
  induction n generalizing s with
  | zero => exact .refl _
  | succ n ih =>
    rw [State.readAhead]
    split; · exact .refl _
    split
    · exact .refl _
    · rename_i h
      exact ((co_copyRead h).setChan ..).trans (ih _)

theorem co_drainChannel (s : State) (ch : ChNum) : CopyOnly s (s.drainChannel ch) := by
  unfold State.drainChannel
  dsimp only
  split
  · split
    · exact (co_run ..).trans (co_readAhead ..)
    · exact co_run ..
  · exact co_run ..

/-- Draining changes channels, memory, landing zones, copies of remote lines and messages only. -/
theorem co_drain (s : State) : CopyOnly s s.drain := co_foldl _ _ co_drainChannel s

theorem co_x {s t : State} (h : CopyOnly s t) (r : XReg) : t.x r = s.x r := by obtain ⟨_, _, _, _, _, _, _, _, rfl⟩ := h; rfl

theorem co_len {s t : State} (h : CopyOnly s t) : t.len = s.len := by obtain ⟨_, _, _, _, _, _, _, _, rfl⟩ := h; rfl

theorem co_pc {s t : State} (h : CopyOnly s t) : t.hart.pc = s.hart.pc := by obtain ⟨_, _, _, _, _, _, _, _, rfl⟩ := h; rfl

theorem co_instret {s t : State} (h : CopyOnly s t) : t.hart.instret = s.hart.instret := by obtain ⟨_, _, _, _, _, _, _, _, rfl⟩ := h; rfl

theorem co_core {s t : State} (h : CopyOnly s t) : t.hart.place = s.hart.place := by obtain ⟨_, _, _, _, _, _, _, _, rfl⟩ := h; rfl

theorem co_strip {s t : State} (h : CopyOnly s t) : t.strip? = s.strip? := by obtain ⟨_, _, _, _, _, _, _, _, rfl⟩ := h; rfl

end Sys2Proof.Laws
end

