-- ==== Sys2Proof/Laws/Mem.lean ====
section
/-! SUPPORT. The laws of byte memories (00 R5, 20 R335): reading after writing, and the canonical form, which every
operation keeps. -/

namespace Sys2Proof.Machine

set_option Elab.async false

/-- Every address of a list lies above a bound. -/
def Memory.above (a : Nat) (m : List Host.Cell) : Prop := ∀ c ∈ m, a < c.1

theorem Memory.wf_nil : Memory.wf [] = true := rfl

theorem Memory.wf_cons (a : Nat) (b : Byte) (m : List Host.Cell) :
    Memory.wf ((a, b) :: m) = true ↔ b ≠ Memory.unlisted ∧ Memory.above a m ∧ Memory.wf m = true := by
  induction m generalizing a b with
  | nil => simp [Memory.wf, Memory.above]
  | cons c m ih =>
    obtain ⟨k, v⟩ := c
    rw [Memory.wf]
    simp only [Bool.and_eq_true, bne_iff_ne, ne_eq, decide_eq_true_eq]
    constructor
    · rintro ⟨⟨h1, h2⟩, h3⟩
      obtain ⟨-, h5, -⟩ := (ih k v).1 h3
      refine ⟨h1, ?_, h3⟩
      intro c hc
      rcases List.mem_cons.1 hc with rfl | hc
      · exact h2
      · exact lt_trans h2 (h5 c hc)
    · rintro ⟨h1, h2, h3⟩
      exact ⟨⟨h1, h2 (k, v) (List.mem_cons_self ..)⟩, h3⟩

theorem Memory.above_mono {a b : Nat} {m : List Host.Cell} (h : Memory.above b m) (hab : a ≤ b) : Memory.above a m :=
  fun c hc => lt_of_le_of_lt hab (h c hc)

/-- An address that is not listed reads as the unlisted byte. -/
theorem Memory.read_above {a k : Nat} {m : List Host.Cell} (h : Memory.above a m) (hk : k ≤ a) :
    Memory.read m k = Memory.unlisted := by
  induction m with
  | nil => rfl
  | cons c m ih =>
    obtain ⟨q, v⟩ := c
    have hq : a < q := h (q, v) (List.mem_cons_self ..)
    rw [Memory.read, if_neg (by omega)]
    exact ih fun c hc => h c (List.mem_cons_of_mem _ hc)

theorem Memory.write_above {a k : Nat} {b : Byte} {m : List Host.Cell} (h : Memory.above a m) (hk : a < k) :
    Memory.above a (Memory.write m k b) := by
  induction m with
  | nil =>
    rw [Memory.write]
    split
    · intro c hc; cases hc
    · intro c hc; rcases List.mem_singleton.1 hc with rfl; exact hk
  | cons c m ih =>
    obtain ⟨q, v⟩ := c
    have hq : a < q := h (q, v) (List.mem_cons_self ..)
    have hm : Memory.above a m := fun c hc => h c (List.mem_cons_of_mem _ hc)
    rw [Memory.write]
    split
    · split
      · exact hm
      · intro c hc
        rcases List.mem_cons.1 hc with rfl | hc
        · exact hk
        · exact hm c hc
    · split
      · split
        · exact h
        · intro c hc
          rcases List.mem_cons.1 hc with rfl | hc
          · exact hk
          · exact h c hc
      · intro c hc
        rcases List.mem_cons.1 hc with rfl | hc
        · exact hq
        · exact ih hm c hc

/-- Storing a byte keeps the canonical form. -/
theorem Memory.wf_write {m : List Host.Cell} (h : Memory.wf m = true) (a : Nat) (b : Byte) :
    Memory.wf (Memory.write m a b) = true := by
  induction m with
  | nil =>
    rw [Memory.write]
    split
    · rfl
    · rename_i hb; exact (Memory.wf_cons ..).2 ⟨hb, (fun c hc => by cases hc), rfl⟩
  | cons c m ih =>
    obtain ⟨q, v⟩ := c
    obtain ⟨hv, hq, hm⟩ := (Memory.wf_cons ..).1 h
    rw [Memory.write]
    split
    · rename_i he
      split
      · exact hm
      · rename_i hb
        exact (Memory.wf_cons ..).2 ⟨hb, he ▸ hq, hm⟩
    · split
      · rename_i hlt
        split
        · exact h
        · rename_i hb
          refine (Memory.wf_cons ..).2 ⟨hb, ?_, h⟩
          intro c hc
          rcases List.mem_cons.1 hc with rfl | hc
          · exact hlt
          · exact lt_trans hlt (hq c hc)
      · exact (Memory.wf_cons ..).2 ⟨hv, Memory.write_above hq (by omega), ih hm⟩

theorem Memory.wf_writeN {m : List Host.Cell} (h : Memory.wf m = true) (a n v : Nat) :
    Memory.wf (Memory.writeN m a n v) = true := by
  induction n generalizing m a v with
  | zero => exact h
  | succ n ih => exact ih (Memory.wf_write h ..) _ _

theorem Memory.wf_writeList {m : List Host.Cell} (h : Memory.wf m = true) (a : Nat) (l : List Byte) :
    Memory.wf (Memory.writeList m a l) = true := by
  induction l generalizing m a with
  | nil => exact h
  | cons b l ih => exact ih (Memory.wf_write h ..) _

/-- Dropping cells keeps the canonical form. -/
theorem Memory.wf_filter {m : List Host.Cell} (h : Memory.wf m = true) (p : Host.Cell → Bool) :
    Memory.wf (m.filter p) = true := by
  induction m with
  | nil => rfl
  | cons c m ih =>
    obtain ⟨q, v⟩ := c
    obtain ⟨hv, hq, hm⟩ := (Memory.wf_cons ..).1 h
    rw [List.filter_cons]
    split
    · exact (Memory.wf_cons ..).2 ⟨hv, fun c hc => hq c (List.mem_of_mem_filter hc), ih hm⟩
    · exact ih hm

theorem Memory.wf_zero {m : List Host.Cell} (h : Memory.wf m = true) (a n : Nat) :
    Memory.wf (Memory.zero m a n) = true := Memory.wf_filter h _

/-- Reading the byte just stored. -/
theorem Memory.read_write_same {m : List Host.Cell} (h : Memory.wf m = true) (a : Nat) (b : Byte) :
    Memory.read (Memory.write m a b) a = b := by
  induction m with
  | nil =>
    rw [Memory.write]
    split
    · rename_i hb; rw [hb]; rfl
    · simp [Memory.read]
  | cons c m ih =>
    obtain ⟨q, v⟩ := c
    obtain ⟨-, hq, hm⟩ := (Memory.wf_cons ..).1 h
    rw [Memory.write]
    split
    · rename_i he
      split
      · rename_i hb; rw [hb]; exact Memory.read_above hq (le_of_eq he.symm)
      · simp [Memory.read]
    · rename_i hne
      split
      · rename_i hlt
        split
        · rename_i hb
          rw [hb, Memory.read, if_neg hne]
          exact Memory.read_above hq (le_of_lt hlt)
        · simp [Memory.read]
      · rw [Memory.read, if_neg hne]; exact ih hm

/-- A store leaves every other byte alone. -/
theorem Memory.read_write_other (m : List Host.Cell) {a k : Nat} (b : Byte) (hk : k ≠ a) :
    Memory.read (Memory.write m a b) k = Memory.read m k := by
  induction m with
  | nil =>
    rw [Memory.write]
    split
    · rfl
    · simp [Memory.read, Ne.symm hk]
  | cons c m ih =>
    obtain ⟨q, v⟩ := c
    rw [Memory.write]
    split
    · rename_i he
      split
      · rw [Memory.read, if_neg (by omega)]
      · rw [Memory.read, Memory.read, if_neg (Ne.symm hk), if_neg (by omega)]
    · split
      · split
        · rfl
        · conv_lhs => rw [Memory.read, if_neg (Ne.symm hk)]
      · rw [Memory.read, Memory.read, ih]

/-- A store of n bytes leaves every byte outside them alone. -/
theorem Memory.read_writeN_other (m : List Host.Cell) (a n v : Nat) {k : Nat} (hk : k < a ∨ a + n ≤ k) :
    Memory.read (Memory.writeN m a n v) k = Memory.read m k := by
  induction n generalizing m a v with
  | zero => rfl
  | succ n ih => rw [Memory.writeN, ih _ _ _ (by omega), Memory.read_write_other _ _ (by omega)]

/-- The bytes of a store of n bytes, lowest first (R5). -/
theorem Memory.read_writeN {m : List Host.Cell} (h : Memory.wf m = true) (a n v i : Nat) (hi : i < n) :
    Memory.read (Memory.writeN m a n v) (a + i) = BitVec.ofNat 8 (v / 256 ^ i) := by
  induction n generalizing m a v i with
  | zero => omega
  | succ n ih =>
    rw [Memory.writeN]
    rcases i with _ | i
    · rw [Memory.read_writeN_other _ _ _ _ (by omega), Nat.add_zero, Memory.read_write_same h]
      simp
    · have e : a + (i + 1) = a + 1 + i := by omega
      rw [e, ih (Memory.wf_write h ..) _ _ _ (by omega), Nat.div_div_eq_div_mul, pow_succ, Nat.mul_comm]

/-- Bytes read outside a store read as before it. -/
theorem Memory.readN_writeN_other (m : List Host.Cell) (a n v b k : Nat) (h : b + k ≤ a ∨ a + n ≤ b) :
    Memory.readN (Memory.writeN m a n v) b k = Memory.readN m b k := by
  induction k generalizing b with
  | zero => rfl
  | succ k ih => rw [Memory.readN, Memory.readN, Memory.read_writeN_other _ _ _ _ (by omega), ih _ (by omega)]

/-- Reading back what was stored (R5). -/
theorem Memory.readN_writeN {m : List Host.Cell} (h : Memory.wf m = true) (a n v : Nat) :
    Memory.readN (Memory.writeN m a n v) a n = v % 256 ^ n := by
  have key : ∀ k d, d + k = n → Memory.readN (Memory.writeN m a n v) (a + d) k = v / 256 ^ d % 256 ^ k := by
    intro k
    induction k with
    | zero => intro d _; simp [Memory.readN, Nat.mod_one]
    | succ k ih =>
      intro d hd
      rw [Memory.readN, Memory.read_writeN h _ _ _ _ (by omega), Nat.add_assoc, ih (d + 1) (by omega)]
      rw [BitVec.toNat_ofNat, pow_succ 256 d, ← Nat.div_div_eq_div_mul, pow_succ 256 k, Nat.mul_comm (256 ^ k) 256,
        Nat.mod_mul]
  simpa using key n 0 (by omega)

/-- Two memories in canonical form that read alike are the same list. -/
theorem Memory.ext_read {m k : List Host.Cell} (hm : Memory.wf m = true) (hk : Memory.wf k = true)
    (h : ∀ a, Memory.read m a = Memory.read k a) : m = k := by
  have empty : ∀ (a : Nat) (b : Byte) (m : List Host.Cell), Memory.wf ((a, b) :: m) = true →
      ¬ ∀ x, Memory.read ((a, b) :: m) x = Memory.unlisted := by
    intro a b m hw hx
    exact ((Memory.wf_cons ..).1 hw).1 (by simpa [Memory.read] using hx a)
  induction m generalizing k with
  | nil =>
    cases k with
    | nil => rfl
    | cons c k => exact absurd (fun x => (h x).symm) (empty c.1 c.2 k hk)
  | cons c m ih =>
    cases k with
    | nil => exact absurd h (empty c.1 c.2 m hm)
    | cons d k =>
      obtain ⟨a, b⟩ := c
      obtain ⟨a', b'⟩ := d
      obtain ⟨hb, ha, hm'⟩ := (Memory.wf_cons ..).1 hm
      obtain ⟨hb', ha', hk'⟩ := (Memory.wf_cons ..).1 hk
      have e : a = a' := by
        rcases lt_trichotomy a a' with hlt | rfl | hlt
        · have := h a
          rw [Memory.read, if_pos rfl, Memory.read, if_neg (by omega), Memory.read_above ha' (by omega)] at this
          exact absurd this hb
        · rfl
        · have := h a'
          rw [Memory.read, if_neg (by omega), Memory.read_above ha (by omega), Memory.read, if_pos rfl] at this
          exact absurd this.symm hb'
      subst e
      have e2 : b = b' := by have := h a; simpa [Memory.read] using this
      subst e2
      congr 1
      apply ih hm' hk'
      intro x
      by_cases hx : x = a
      · subst hx; rw [Memory.read_above ha le_rfl, Memory.read_above ha' le_rfl]
      · have := h x
        rwa [Memory.read, if_neg (Ne.symm hx), Memory.read, if_neg (Ne.symm hx)] at this

end Sys2Proof.Machine
end

