-- ==== Sys2Proof/Laws/Access.lean ====
section
/-! SUPPORT. Single accesses to memory (07 R147 to R149, 20 R332 to R337): where a checked access goes, what a hart reads there
and sees after a write, and how a check fails. -/

namespace Sys2Proof.Laws

set_option Elab.async false

open Sys2Proof.Machine Sys2Proof.Claim

/-! ### Translation -/

theorem leaf_mod (e va sh n : Nat) (hsh : 15 ≤ sh) (hn : n ∣ 8) : (bitsAt e sh (52 - sh) * 2 ^ sh + bitsAt va 0 sh) % n = va % n := by
  have d : n ∣ 2 ^ sh := by
    have e : sh = sh - 3 + 3 := by omega
    rw [e, Nat.pow_succ, Nat.pow_succ, Nat.pow_succ]
    exact hn.trans ⟨2 ^ (sh - 3), by ring⟩
  have e1 : bitsAt va 0 sh = va % 2 ^ sh := by simp [bitsAt]
  rw [e1, Nat.add_mod, Nat.mod_mod_of_dvd _ d, Nat.mod_eq_zero_of_dvd (Dvd.dvd.mul_left d _), Nat.zero_add, Nat.mod_mod]

/-- What an entry of a level can say: a page that keeps the low bits of the address, the table below, or a fault at the address. -/
theorem entryStep_says {c : Ctx} {k : Access} {va lvl sh e : Nat} {r} (h : entryStep c k va lvl sh e = r) :
    (∃ lf, r = .ok (.inl lf) ∧ lf.pa = bitsAt e sh (52 - sh) * 2 ^ sh + bitsAt va 0 sh) ∨ (∃ b, r = .ok (.inr b)) ∨
      ∃ x, r = .error x ∧ x.addr = va ∧ x.cause = pageFaultCause k := by
  subst h; unfold entryStep
  split; · exact .inr (.inr ⟨_, rfl, rfl, rfl⟩)
  split; · exact .inr (.inr ⟨_, rfl, rfl, rfl⟩)
  split
  · split; · exact .inr (.inr ⟨_, rfl, rfl, rfl⟩)
    split; · exact .inr (.inr ⟨_, rfl, rfl, rfl⟩)
    exact .inl ⟨_, rfl, rfl⟩
  · exact .inr (.inl ⟨_, rfl⟩)

theorem tableEntry_err {s : State} {c : Ctx} {va sh tb : Nat} {r : Reject} (h : s.tableEntry c va sh tb = .error r) :
    r.addr = va ∧ (r.cause = 0x07 ∨ (r.cause = holdCause ∧ s.repairing ≠ none)) := by
  unfold State.tableEntry at h
  split at h; · cases h; exact ⟨rfl, .inl rfl⟩
  split at h; · cases h; exact ⟨rfl, .inl rfl⟩
  split at h
  · rename_i hr
    cases h; refine ⟨rfl, .inr ⟨rfl, fun e => ?_⟩⟩
    unfold State.inRepair at hr; rw [e] at hr; cases hr
  · cases h

/-- What a walk can say. -/
theorem walk_says (s : State) (c : Ctx) (k : Access) (va : Nat) (lv : List (Nat × Nat)) (tb : Nat) (hl : ∀ p ∈ lv, 15 ≤ p.2) :
    (∀ lf, s.walk c k va lv tb = .ok lf → ∀ n, n ∣ 8 → lf.pa % n = va % n) ∧
    (∀ r, s.walk c k va lv tb = .error r →
      r.addr = va ∧ (r.cause = 0x07 ∨ r.cause = pageFaultCause k ∨ (r.cause = holdCause ∧ s.repairing ≠ none))) := by
  induction lv generalizing tb with
  | nil =>
    rw [State.walk]
    refine ⟨(by rintro lf ⟨⟩), ?_⟩
    rintro r h; cases h; exact ⟨rfl, .inr (.inl rfl)⟩
  | cons p rest ih =>
    obtain ⟨lvl, sh⟩ := p
    have hsh : 15 ≤ sh := hl _ (List.mem_cons_self ..)
    have ih := fun tb => ih tb (fun p hp => hl p (List.mem_cons_of_mem _ hp))
    rw [State.walk]
    cases ht : s.tableEntry c va sh tb with
    | error x =>
      refine ⟨(by rintro lf ⟨⟩), ?_⟩
      rintro r h; cases h
      obtain ⟨h1, h2⟩ := tableEntry_err ht
      exact ⟨h1, h2.imp_right .inr⟩
    | ok e =>
      simp only [bind, Except.bind]
      rcases entryStep_says (rfl : entryStep c k va lvl sh e = _) with ⟨lf, h, hp⟩ | ⟨b, h⟩ | ⟨x, h, hx⟩ <;> rw [h] <;> dsimp only
      · refine ⟨?_, (by rintro r ⟨⟩)⟩
        rintro lf' h n hn; cases h; rw [hp]; exact leaf_mod _ _ _ _ hsh hn
      · exact ih b
      · refine ⟨(by rintro lf ⟨⟩), ?_⟩
        rintro r h; cases h; exact ⟨hx.1, .inr (.inl hx.2)⟩

theorem cached_level {s : State} {c : Ctx} {va : Nat} {e : TransEntry} {below} (h : s.cached c va = some (e, below)) :
    (e.lvl = 1 ∨ e.lvl = 2 ∨ e.lvl = 3) ∧ ∀ p ∈ below, 15 ≤ p.2 := by
  unfold State.cached at h
  simp only [List.findSome?_cons, List.findSome?_nil] at h
  have key : ∀ lvl b, ((s.tlb.find? fun e => e.serves c va lvl).map fun e => (e, b)) = some (e, below) → e.lvl = lvl ∧ below = b := by
    intro lvl b h
    cases hf : s.tlb.find? fun e => e.serves c va lvl with
    | none => rw [hf] at h; cases h
    | some e' =>
      rw [hf] at h
      cases h
      have := List.find?_some hf
      unfold TransEntry.serves at this
      simp only [Bool.and_eq_true, beq_iff_eq] at this
      exact ⟨this.1.2, rfl⟩
  split at h
  · rename_i h1; cases h; obtain ⟨a, b⟩ := key _ _ h1; subst b; exact ⟨.inl a, by simp⟩
  split at h
  · rename_i h1; cases h; obtain ⟨a, b⟩ := key _ _ h1; subst b; exact ⟨.inr (.inl a), by simp⟩
  split at h
  · rename_i h1; cases h; obtain ⟨a, b⟩ := key _ _ h1; subst b; exact ⟨.inr (.inr a), by simp⟩
  · cases h

/-- What a translation can say. -/
theorem lookup_says (s : State) (c : Ctx) (k : Access) (va : Nat) :
    (∀ lf, s.lookup c k va = .ok lf → ∀ n, n ∣ 8 → lf.pa % n = va % n) ∧
    (∀ r, s.lookup c k va = .error r →
      r.addr = va ∧ (r.cause = 0x07 ∨ r.cause = pageFaultCause k ∨ (r.cause = holdCause ∧ s.repairing ≠ none))) := by
  unfold State.lookup
  cases hc : s.cached c va with
  | none => exact walk_says s c k va _ _ (by decide)
  | some p =>
    obtain ⟨e, below⟩ := p
    obtain ⟨hl, hb⟩ := cached_level hc
    have hs : 15 ≤ e.span := by unfold TransEntry.span; omega
    simp only [bind, Except.bind]
    rcases entryStep_says (rfl : entryStep c k va e.lvl e.span e.entry = _) with ⟨lf, h, hp⟩ | ⟨b, h⟩ | ⟨x, h, hx⟩ <;> rw [h] <;> dsimp only
    · refine ⟨?_, (by rintro r ⟨⟩)⟩
      rintro lf' h n hn; cases h; rw [hp]; exact leaf_mod _ _ _ _ hs hn
    · exact walk_says s c k va _ _ hb
    · refine ⟨(by rintro lf ⟨⟩), ?_⟩
      rintro r h; cases h; exact ⟨hx.1, .inr (.inl hx.2)⟩

theorem translate_pa {s : State} {c : Ctx} {k : Access} {va n pa : Nat} (h : s.translate c k va = .ok pa) (hn : n ∣ 8) : pa % n = va % n := by
  unfold State.translate at h
  cases hw : s.lookup c k va with
  | error e => rw [hw] at h; cases h
  | ok lf => rw [hw] at h; cases h; exact (lookup_says s c k va).1 lf hw n hn

theorem translate_err {s : State} {c : Ctx} {k : Access} {va : Nat} {r : Reject} (h : s.translate c k va = .error r) :
    r.addr = va ∧ (r.cause = 0x07 ∨ r.cause = pageFaultCause k ∨ (r.cause = holdCause ∧ s.repairing ≠ none)) := by
  unfold State.translate at h
  cases hw : s.lookup c k va with
  | error e => rw [hw] at h; cases h; exact (lookup_says s c k va).2 _ hw
  | ok lf => rw [hw] at h; cases h

theorem target_err {s : State} {p : Fin 8} {c va pa n : Nat} {k : Access} {b : Bool} {r : Reject}
    (h : s.targetCheck p c va pa n k b = .error r) :
    r.addr = va ∧ (r.cause = 0x07 ∨ (r.cause = holdCause ∧ s.repairing ≠ none)) := by
  unfold State.targetCheck at h
  split at h
  · split at h
    · split at h; · cases h; exact ⟨rfl, .inl rfl⟩
      split at h
      · rename_i hr
        cases h; refine ⟨rfl, .inr ⟨rfl, fun e => ?_⟩⟩
        unfold State.inRepair at hr; rw [e] at hr; cases hr
      · cases h
    · cases h; exact ⟨rfl, .inl rfl⟩
  · cases h
  · split at h; · cases h; exact ⟨rfl, .inl rfl⟩
    split at h; · cases h; exact ⟨rfl, .inl rfl⟩
    cases h
  · cases h; exact ⟨rfl, .inl rfl⟩

theorem resolve_phys {s : State} {c : Ctx} {k : Access} {va n a : Nat} (h : s.resolveIn c k va n n = .ok (.phys a)) (hn : n ∣ 8) : a % n = 0 := by
  unfold State.resolveIn at h
  dsimp only at h
  split at h; · cases h
  rename_i h0
  split at h
  · split at h; · cases h
    split at h <;> cases h
  · cases ht : s.translate c k va with
    | error e => rw [ht] at h; cases h
    | ok pa => rw [ht] at h; cases h; rw [translate_pa ht hn]; omega

theorem locate_parts {s : State} {k : Access} {va n : Nat} {b : Bool} {l : Loc} (h : s.locate k va n n b = .ok l) :
    s.resolveIn s.hart.ctx k va n n = .ok l ∧ s.targetTakes s.hart.place.part k l va n b = .ok () := by
  unfold State.locate State.locateIn at h
  cases hr : s.resolveIn s.hart.ctx k va n n with
  | error e => rw [hr] at h; cases h
  | ok l' =>
    rw [hr] at h
    simp only [bind, Except.bind] at h
    cases ha : s.targetTakes s.hart.ctx.part k l' va n b with
    | error e => rw [ha] at h; cases h
    | ok u => rw [ha] at h; cases h; exact ⟨rfl, ha⟩

theorem locate_phys {s : State} {k : Access} {va n : Nat} {b : Bool} {a : Nat} (h : s.locate k va n n b = .ok (.phys a))
    (hn : n ∣ 8) : a % n = 0 := resolve_phys (locate_parts h).1 hn

/-! ### What holds an address -/

theorem remote_iff (a : Nat) : (∃ d o, targetOf a = .remote d o) ↔ (2 ^ 51 ≤ a ∧ a < 2 ^ 51 + 2 ^ 48 ∧ (a - 2 ^ 51) % 2 ^ 40 < 0xC000000000) := by
  unfold targetOf Config.hbmBytes
  split
  · constructor
    · rintro ⟨d, o, h⟩; cases h
    · intro h; omega
  split
  · constructor
    · rintro ⟨d, o, h⟩; cases h
    · intro h; omega
  split
  · split
    · rename_i h1 h2
      exact ⟨fun _ => ⟨h1.1, h1.2, h2⟩, fun _ => ⟨_, _, rfl⟩⟩
    · constructor
      · rintro ⟨d, o, h⟩; cases h
      · intro h; omega
  · constructor
    · rintro ⟨d, o, h⟩; cases h
    · intro h; omega

theorem remote_plus (a n k : Nat) (hn : n ∣ 8) (ha : a % n = 0) (hk : k < n) :
    (∃ d o, targetOf (a + k) = .remote d o) ↔ (∃ d o, targetOf a = .remote d o) := by
  rw [remote_iff, remote_iff]
  have : n = 1 ∨ n = 2 ∨ n = 4 ∨ n = 8 := by
    have h1 := Nat.le_of_dvd (by omega) hn
    interval_cases n <;> simp_all
  rcases this with rfl | rfl | rfl | rfl <;> omega

theorem div128 (a n k : Nat) (hn : n ∣ 8) (ha : a % n = 0) (hk : k < n) : (a + k) / 128 = a / 128 := by
  have : n = 1 ∨ n = 2 ∨ n = 4 ∨ n = 8 := by
    have h1 := Nat.le_of_dvd (by omega) hn
    interval_cases n <;> simp_all
  rcases this with rfl | rfl | rfl | rfl <;> omega

/-! ### What a hart sees of a remote line -/

/-- Dirty bytes laid over one byte. -/
def under (ds : List Dirty) (k : Nat) (b : Byte) : Byte := ds.foldl (fun b d => if d.off = k then mergeHalf b d.byte d.half else b) b

theorem under_filter (ds : List Dirty) (k : Nat) (b : Byte) : under ds k b = under (ds.filter fun d => d.off == k) k b := by
  unfold under
  induction ds generalizing b with
  | nil => rfl
  | cons d ds ih =>
    rw [List.foldl_cons, List.filter_cons, ih]
    by_cases h : d.off = k <;> simp [h]

theorem byte_overs (ds : List Dirty) (v k : Nat) :
    BitVec.ofNat 8 (ds.foldl (fun v d => d.over v) v >>> (8 * k)) = under ds k (BitVec.ofNat 8 (v >>> (8 * k))) := by
  unfold under
  induction ds generalizing v with
  | nil => rfl
  | cons d ds ih => rw [List.foldl_cons, List.foldl_cons, ih, byte_over]

theorem seen_local {s : State} {c h a : Nat} (hr : ¬ ∃ d o, targetOf a = .remote d o) : seen s c h (.phys a) = Memory.read s.mem a := by
  show (match targetOf a with | .remote _ _ => _ | _ => Memory.read s.mem a) = _
  split
  · rename_i d o e; exact absurd ⟨d, o, e⟩ hr
  · rfl

theorem lineOf_line {s : State} {c : Cache} {a : Nat} {k : RLine} (h : s.lineOf c a = some k) : k.holder = c ∧ k.line = a / 128 * 128 := by
  have := List.find?_some h; simpa using this

theorem copyOf_line {s : State} {c a : Nat} {k : RLine} (h : s.copyOf c a = some k) : k.line = a / 128 * 128 := by
  unfold State.copyOf at h
  split at h
  · rename_i e; cases h; exact (lineOf_line e).2
  · exact (lineOf_line h).2

theorem lineAt_line (s : State) (c a : Nat) : (lineAt s c a).line = a / 128 * 128 := by
  unfold lineAt
  cases h : s.copyOf c a with
  | none => rfl
  | some k => exact copyOf_line h

theorem copyOf_congr (s : State) (c a b : Nat) (h : a / 128 = b / 128) : s.copyOf c a = s.copyOf c b := by
  unfold State.copyOf State.lineOf; rw [h]

theorem lineAt_congr (s : State) (c a b : Nat) (h : a / 128 = b / 128) : lineAt s c a = lineAt s c b := by
  unfold lineAt; rw [copyOf_congr s c a b h, h]

theorem seen_remote {s : State} {c h a : Nat} (hr : ∃ d o, targetOf a = .remote d o) : seen s c h (.phys a) =
    under (s.ownBytes h (a / 128 * 128)) (a % 128) (BitVec.ofNat 8 ((lineAt s c a).data >>> (8 * (a % 128)))) := by
  obtain ⟨d, o, e⟩ := hr
  have : seen s c h (.phys a) = BitVec.ofNat 8 (s.view h (lineAt s c a) >>> (8 * (a % 128))) := by
    show (match targetOf a with | .remote _ _ => _ | _ => Memory.read s.mem a) = _
    rw [e]
  rw [this]
  unfold State.view
  rw [byte_overs, lineAt_line]

theorem seen_of_parts {s t : State} (h1 : t.mem = s.mem) (h2 : t.spad = s.spad) (h3 : t.rcache = s.rcache) : seenAlike s t := by
  intro c h l; unfold seen lineAt State.copyOf State.lineOf State.view State.ownBytes; rw [h1, h2, h3]

theorem seenAlike.trans {s t u : State} (h : seenAlike s t) (k : seenAlike t u) : seenAlike s u :=
  fun c d l => (k c d l).trans (h c d l)

/-- What a hart sees follows from its own bytes and from the data of the lines that cores read. -/
theorem seen_of_lines {s t : State} (hm : t.mem = s.mem) (hs : t.spad = s.spad)
    (hd : ∀ c a, (lineAt t c a).data = (lineAt s c a).data) (ho : ∀ h line, t.ownBytes h line = s.ownBytes h line) : seenAlike s t := by
  intro c h l
  cases l with
  | spad i => show Memory.read t.spad i = Memory.read s.spad i; rw [hs]
  | phys a =>
    by_cases hr : ∃ d o, targetOf a = .remote d o
    · rw [seen_remote hr, seen_remote hr, hd, ho]
    · rw [seen_local hr, seen_local hr, hm]

/-! ### Filling a line -/

/-- Going out leaves where lines stand. -/
theorem writeBack_places (s : State) (l : RLine) :
    (s.writeBack l).rcache.map (fun k => (k.holder, k.line)) = s.rcache.map fun k => (k.holder, k.line) := by
  have hs : ∀ (ds : List Dirty) (s : State), (ds.foldl (fun s d => s.sendByte l.line d) s).rcache = s.rcache := by
    intro ds
    induction ds with
    | nil => intro s; rfl
    | cons d ds ih =>
      intro s; rw [List.foldl_cons, ih]
      unfold State.sendByte State.putLoc; split <;> rfl
  unfold State.writeBack
  split
  · rfl
  · dsimp only [State.refresh]
    rw [hs]
    simp only [List.map_map]
    apply List.map_congr_left
    intro k _
    dsimp only [Function.comp]
    split <;> split <;> rfl

theorem settle_places (s : State) (hid pa : Nat) :
    (s.settle hid pa).rcache.map (fun k => (k.holder, k.line)) = s.rcache.map fun k => (k.holder, k.line) := by
  unfold State.settle
  generalize s.rcache.filter _ = L
  induction L generalizing s with
  | nil => rfl
  | cons l L ih => rw [List.foldl_cons, ih, writeBack_places]

theorem lineOf_places {s t : State} (h : t.rcache.map (fun k => (k.holder, k.line)) = s.rcache.map fun k => (k.holder, k.line))
    (c : Cache) (a : Nat) (hn : s.lineOf c a = none) : t.lineOf c a = none := by
  unfold State.lineOf at *
  rw [List.find?_eq_none] at *
  intro k hk hc
  have : (k.holder, k.line) ∈ s.rcache.map fun k => (k.holder, k.line) := by rw [← h]; exact List.mem_map_of_mem (f := fun k : RLine => (k.holder, k.line)) hk
  obtain ⟨j, hj, e⟩ := List.mem_map.1 this
  simp only [Prod.mk.injEq] at e
  exact hn j hj (by rw [e.1, e.2]; exact hc)

theorem copyOf_none {s : State} {c a : Nat} : s.copyOf c a = none ↔ s.lineOf (.core c) a = none ∧ s.lineOf (cacOf c) a = none := by
  unfold State.copyOf
  cases s.lineOf (.core c) a <;> simp

/-- The state in which a core fills a line. -/
def filledFrom (s : State) (core hid a : Nat) : State := if (s.copyOf core a).isSome then s else s.settle hid a

/-- A fill leaves what every hart sees; the line is the one that the core reads. -/
theorem fillLine_says (s : State) (core hid a : Nat) : ∃ k t, s.fillLine core hid a = (k, t) ∧
    (let u := filledFrom s core hid a
     t = { u with rcache := t.rcache } ∧ k.holder = .core core ∧ k.line = a / 128 * 128 ∧ k.data = (lineAt u core a).data ∧
      t.lineOf (.core core) a = some k ∧
      (∀ c b, (lineAt t c b).data = (lineAt u c b).data) ∧ (∀ h line, t.ownBytes h line = u.ownBytes h line)) := by
  unfold State.fillLine filledFrom
  cases h1 : s.lineOf (.core core) a with
  | some l =>
    have hc : s.copyOf core a = some l := by unfold State.copyOf; rw [h1]
    obtain ⟨h2, h3⟩ := lineOf_line h1
    refine ⟨l, s, rfl, ?_⟩
    rw [hc]
    exact ⟨rfl, h2, h3, by show l.data = ((s.copyOf core a).getD _).data; rw [hc]; rfl, h1, fun _ _ => rfl, fun _ _ => rfl⟩
  | none =>
    dsimp only
    cases h2 : s.lineOf (cacOf core) a with
    | some l =>
      have hc : s.copyOf core a = some l := by unfold State.copyOf; rw [h1]; exact h2
      obtain ⟨h3, h4⟩ := lineOf_line h2
      refine ⟨_, _, rfl, ?_⟩
      rw [hc]
      refine ⟨rfl, rfl, h4, by show l.data = ((s.copyOf core a).getD _).data; rw [hc]; rfl, ?_, ?_, ?_⟩
      · unfold State.lineOf; rw [List.find?_cons, h4]; simp
      · intro c b
        unfold lineAt State.copyOf State.lineOf
        simp only [List.find?_cons, h4]
        have e : (Cache.core core == cacOf c) = false := rfl
        simp only [e, Bool.false_and, Option.isSome_some, if_true]
        by_cases hb : core = c ∧ a / 128 * 128 = b / 128 * 128
        · have e1 : (Cache.core core == Cache.core c && a / 128 * 128 == b / 128 * 128) = true := by simp [hb]
          have hn : s.rcache.find? (fun l => l.holder == .core c && l.line == b / 128 * 128) = none := by
            rw [← hb.1, ← hb.2]; exact h1
          have hq : s.rcache.find? (fun l => l.holder == cacOf c && l.line == b / 128 * 128) = some l := by
            rw [← hb.1, ← hb.2]; exact h2
          rw [hn, hq]; simp only [e1]; rfl
        · have e1 : (Cache.core core == Cache.core c && a / 128 * 128 == b / 128 * 128) = false := by
            simpa [Cache.core.injEq] using hb
          simp only [e1]
      · intro h line
        unfold State.ownBytes
        simp only [Option.isSome_some, if_true, List.filter_cons]
        split <;> simp
    | none =>
      have hc : s.copyOf core a = none := copyOf_none.2 ⟨h1, h2⟩
      refine ⟨_, _, rfl, ?_⟩
      rw [hc]
      simp only [Option.isSome_none, Bool.false_eq_true, if_false]
      have g1 := lineOf_places (settle_places s hid a) _ _ h1
      have g2 := lineOf_places (settle_places s hid a) _ _ h2
      generalize s.settle hid a = u at g1 g2 ⊢
      have hu : (lineAt u core a).data = Memory.readN u.mem (a / 128 * 128) 128 := by
        unfold lineAt; rw [copyOf_none.2 ⟨g1, g2⟩]; rfl
      refine ⟨trivial, trivial, trivial, hu.symm, ?_, ?_, ?_⟩
      · unfold State.lineOf; rw [List.find?_cons]; simp
      · intro c b
        unfold lineAt State.copyOf State.lineOf
        simp only [List.find?_cons]
        have e : (Cache.core core == cacOf c) = false := rfl
        have e' : (cacOf core == Cache.core c) = false := rfl
        simp only [e, e', Bool.false_and]
        by_cases hb : a / 128 * 128 = b / 128 * 128
        · by_cases hq : core = c
          · subst hq
            have e1 : (Cache.core core == Cache.core core && a / 128 * 128 == b / 128 * 128) = true := by simp [hb]
            have n1 : u.rcache.find? (fun l => l.holder == .core core && l.line == b / 128 * 128) = none := by rw [← hb]; exact g1
            have n2 : u.rcache.find? (fun l => l.holder == cacOf core && l.line == b / 128 * 128) = none := by rw [← hb]; exact g2
            rw [n1, n2]; simp only [e1]; simp [hb]
          · have e1 : (Cache.core core == Cache.core c && a / 128 * 128 == b / 128 * 128) = false := by simp [Cache.core.injEq, hq]
            simp only [e1]
            cases hf : u.rcache.find? (fun l => l.holder == .core c && l.line == b / 128 * 128) with
            | some l => rfl
            | none =>
              dsimp only
              by_cases hq2 : cacOf core = cacOf c
              · have e2 : (cacOf core == cacOf c && a / 128 * 128 == b / 128 * 128) = true := by simp [hb, hq2]
                have n2 : u.rcache.find? (fun l => l.holder == cacOf c && l.line == b / 128 * 128) = none := by rw [← hb, ← hq2]; exact g2
                rw [n2]; simp only [e2]; simp [hb]
              · have e2 : (cacOf core == cacOf c && a / 128 * 128 == b / 128 * 128) = false := by simp [hq2]
                simp only [e2]
        · have e1 : ∀ x y : Cache, (x == y && a / 128 * 128 == b / 128 * 128) = false := by intro x y; simp [hb]
          simp only [e1]
      · intro h line
        unfold State.ownBytes
        simp only [List.filter_cons]
        split <;> simp

theorem near_phys (s : State) (a : Nat) (hr : ∃ d o, targetOf a = .remote d o) :
    near s (.phys a) = filledFrom s s.hart.place.core s.hart.place.hid a := by
  obtain ⟨d, o, e⟩ := hr
  show (match targetOf a with | .remote _ _ => _ | _ => s) = _
  rw [e]; rfl

theorem near_local (s : State) (a : Nat) (hr : ¬ ∃ d o, targetOf a = .remote d o) : near s (.phys a) = s := by
  show (match targetOf a with | .remote _ _ => _ | _ => s) = _
  split
  · rename_i d o e; exact absurd ⟨d, o, e⟩ hr
  · rfl

theorem co_near (s : State) (l : Loc) : CopyOnly s (near s l) := by
  unfold near
  split
  · exact .refl _
  · split
    · split
      · exact .refl _
      · exact co_settle ..
    · exact .refl _

/-- What finding a location near leaves: memory, copies and poison may differ. -/
theorem near_parts (s : State) (l : Loc) : (near s l).hart.place = s.hart.place := co_core (co_near s l)

/-! ### Reading -/

/-- An ordinary load's read: its bytes are those the hart sees, and every hart sees as before. -/
theorem readAt_seen (s : State) (l : Loc) (va n : Nat) (hn : n ∣ 8) (ha : ∀ a, l = .phys a → a % n = 0) (hr : readable s l n) :
    ∃ v s', s.readAt .cached l va n = .ok (v, s') ∧
      (∀ k, k < n → BitVec.ofNat 8 (v >>> (8 * k)) = seen (near s l) s.hart.place.core s.hart.place.hid (plus l k)) ∧ v < 2 ^ (8 * n) ∧
      seenAlike (near s l) s' ∧ s' = { near s l with rcache := s'.rcache } := by
  cases l with
  | spad i =>
    refine ⟨Memory.readN s.spad i n, s, ?_, fun k hk => byte_readN _ _ _ _ hk, readN_lt _ _ _, fun _ _ _ => rfl, rfl⟩
    have hp : poisoned s.spadPoison i n = false := hr
    unfold State.readAt; simp only [hp]; rfl
  | phys a =>
    have ha := ha a rfl
    by_cases hrem : ∃ d o, targetOf a = .remote d o
    · rw [near_phys s a hrem]
      obtain ⟨k, t, hf, ht, -, hl, hd, -, hA, hO⟩ := fillLine_says s s.hart.place.core s.hart.place.hid a
      have hh : t.hart = (filledFrom s s.hart.place.core s.hart.place.hid a).hart := by rw [ht]
      have hplace : t.hart.place = s.hart.place := by rw [hh, ← near_phys s a hrem]; exact near_parts ..
      refine ⟨bitsAt (t.view s.hart.place.hid k) (8 * (a - k.line)) (8 * n), t, ?_, ?_, ?_, ?_, ht⟩
      · obtain ⟨d, o, e⟩ := hrem
        unfold readable at hr
        unfold State.readAt
        simp only [e] at hr ⊢
        cases hc : s.copyOf s.hart.place.core a with
        | none => rw [hc] at hr; simp only at hr; rw [hf]; simp only [hr, hplace]; rfl
        | some j => rw [hc] at hr; simp only at hr; rw [hf]; simp only [hr, hplace]; rfl
      · intro j hj
        have hr' := (remote_plus a n j hn ha hj).2 hrem
        have e1 := div128 a n j hn ha hj
        show _ = seen _ _ _ (.phys (a + j))
        rw [byte_bitsAt _ _ _ _ hj, seen_remote hr', lineAt_congr _ _ (a + j) a e1, e1, ← hd, ← hO, ← hl]
        have e2 : 8 * (a - k.line) + 8 * j = 8 * ((a + j) % 128) := by rw [hl]; omega
        rw [e2]; unfold State.view; rw [byte_overs]
      · unfold bitsAt; exact Nat.mod_lt _ (Nat.two_pow_pos _)
      · exact seen_of_lines (by rw [ht]) (by rw [ht]) hA hO
    · rw [near_local s a hrem]
      have hp : poisoned s.poison a n = false := by
        unfold readable at hr
        cases e : targetOf a with
        | remote d o => exact absurd ⟨d, o, e⟩ hrem
        | _ => simpa only [e] using hr
      refine ⟨Memory.readN s.mem a n, s, ?_, ?_, readN_lt _ _ _, fun _ _ _ => rfl, rfl⟩
      · unfold State.readAt
        dsimp only
        cases e : targetOf a with
        | remote d o => exact absurd ⟨d, o, e⟩ hrem
        | _ => simp only [hp]; rfl
      · intro k hk
        show _ = seen s _ _ (.phys (a + k))
        rw [seen_local (fun h => hrem ((remote_plus a n k hn ha hk).1 h)), byte_readN _ _ _ _ hk]

theorem load_seen (s : State) (l : Loc) (va n : Nat) (hn : n ∣ 8) (hl : s.locate .load va n n true = .ok l) (hr : readable s l n) :
    ∃ v s', s.load .cached va n = .ok (v, s') ∧
      (∀ k, k < n → BitVec.ofNat 8 (v >>> (8 * k)) =
        ownByte s.strip? l va k (seen (near s l) s.hart.place.core s.hart.place.hid (plus l k))) ∧ v < 2 ^ (8 * n) ∧
      seenAlike (near s l) s' ∧ s' = { near s l with rcache := s'.rcache } := by
  obtain ⟨v, s', h1, h2, h3, h4, h5⟩ := readAt_seen s l va n hn (fun a ha => locate_phys (ha ▸ hl) hn) hr
  refine ⟨s.laid l va n v, s', ?_, ?_, ?_, h4, h5⟩
  · unfold State.load
    rw [show decide (Route.cached = Route.cached) = true from rfl, hl]
    simp only [bind, Except.bind, h1]
  · intro k hk
    unfold State.laid
    cases hs : s.strip? with
    | none => exact h2 k hk
    | some st => dsimp only; rw [byte_overlay st _ _ _ _ _ hk, h2 k hk]
  · unfold State.laid
    split
    · exact overlay_lt _ _ _ _ _ h3
    · exact h3

/-! ### Writing -/

theorem div256 (v k : Nat) : v / 256 ^ k = v >>> (8 * k) := by rw [Nat.shiftRight_eq_div_pow, Nat.pow_mul]

theorem find_map (L : List RLine) (f : RLine → RLine) (hf : ∀ l, (f l).holder = l.holder ∧ (f l).line = l.line) (c : Cache) (b : Nat) :
    (L.map f).find? (fun l => l.holder == c && l.line == b) = (L.find? fun l => l.holder == c && l.line == b).map f := by
  rw [List.find?_map]
  congr 2
  funext l; simp [Function.comp, hf l]

/-- Lines changed in nothing that a core reads of them. -/
theorem lineAt_map (s : State) (f : RLine → RLine) (hf : ∀ l, (f l).holder = l.holder ∧ (f l).line = l.line ∧ (f l).data = l.data) (c a : Nat) :
    (lineAt { s with rcache := s.rcache.map f } c a).data = (lineAt s c a).data := by
  have hf' : ∀ l, (f l).holder = l.holder ∧ (f l).line = l.line := fun l => ⟨(hf l).1, (hf l).2.1⟩
  unfold lineAt State.copyOf State.lineOf
  simp only [find_map _ _ hf']
  cases s.rcache.find? fun l => l.holder == .core c && l.line == a / 128 * 128 with
  | some l => exact (hf l).2.2
  | none =>
    cases s.rcache.find? fun l => l.holder == cacOf c && l.line == a / 128 * 128 with
    | some l => exact (hf l).2.2
    | none => rfl

theorem under_all (ds : List Dirty) (k : Nat) (b x : Byte) (h : ∀ d ∈ ds, d.off = k → d.half = none ∧ d.byte = x)
    (he : ∃ d ∈ ds, d.off = k) : under ds k b = x := by
  induction ds generalizing b with
  | nil => obtain ⟨d, hd, _⟩ := he; cases hd
  | cons d ds ih =>
    show under ds k (if d.off = k then mergeHalf b d.byte d.half else b) = x
    by_cases hn : ∃ d ∈ ds, d.off = k
    · exact ih _ (fun d hd => h d (List.mem_cons_of_mem _ hd)) hn
    · have hd : d.off = k := by
        obtain ⟨e, he, hk⟩ := he
        rcases List.mem_cons.1 he with rfl | he
        · exact hk
        · exact absurd ⟨e, he, hk⟩ hn
      obtain ⟨h1, h2⟩ := h d (List.mem_cons_self ..) hd
      rw [if_pos hd, h1, h2]
      have : ∀ (ds : List Dirty) (b : Byte), (¬ ∃ d ∈ ds, d.off = k) → under ds k b = b := by
        intro ds
        induction ds with
        | nil => intro b _; rfl
        | cons e ds ih =>
          intro b hne
          show under ds k (if e.off = k then _ else b) = b
          rw [if_neg (fun h => hne ⟨e, List.mem_cons_self .., h⟩)]
          exact ih b (fun ⟨d, hd, hk⟩ => hne ⟨d, List.mem_cons_of_mem _ hd, hk⟩)
      exact this ds _ hn

/-- A store into a core's cached line: the hart sees the bytes stored, on every core; nothing else of what anyone sees changes. -/
theorem writeLine_says (s : State) (core hid pa va n v : Nat) :
    let u := filledFrom s core hid pa
    let t := s.writeLine core hid pa va n v none
    (∃ rc, t = { u with rcache := rc }) ∧ (∀ c b, (lineAt t c b).data = (lineAt u c b).data) ∧
    (∀ h line k, (h ≠ hid ∨ line ≠ pa / 128 * 128 ∨ k < pa % 128 ∨ pa % 128 + n ≤ k) → ∀ b, under (t.ownBytes h line) k b = under (u.ownBytes h line) k b) ∧
    (∀ k, pa % 128 ≤ k → k < pa % 128 + n → ∀ b, under (t.ownBytes hid (pa / 128 * 128)) k b = BitVec.ofNat 8 (v >>> (8 * (k - pa % 128)))) := by
  intro u t
  obtain ⟨kl, w, hf, hw, hk1, hk2, -, hk4, hA, hO⟩ := fillLine_says s core hid pa
  have ho : pa - pa / 128 * 128 = pa % 128 := by omega
  let f (l : RLine) : RLine := if l.line = pa / 128 * 128 then
    { l with dirty := l.dirty.filter fun d => !d.under hid (pa % 128) n none, poison := unpoison l.poison (pa / 128 * 128 + pa % 128) n } else l
  let g (l : RLine) : RLine := if l.holder = .core core ∧ l.line = pa / 128 * 128 then
    { l with dirty := l.dirty ++ dirtyBytes (pa % 128) hid va n v none } else l
  have ht : t = { w with rcache := w.rcache.map (g ∘ f) } := by
    show s.writeLine core hid pa va n v none = _
    unfold State.writeLine State.forget
    rw [hf]
    dsimp only
    rw [ho, List.map_map]; rfl
  have hfg : ∀ l, ((g ∘ f) l).holder = l.holder ∧ ((g ∘ f) l).line = l.line ∧ ((g ∘ f) l).data = l.data := by
    intro l; dsimp only [Function.comp, f, g]; split <;> split <;> exact ⟨rfl, rfl, rfl⟩
  have hdirty : ∀ l, ((g ∘ f) l).dirty = if l.line = pa / 128 * 128 then (l.dirty.filter fun d => !d.under hid (pa % 128) n none) ++
      (if l.holder = .core core then dirtyBytes (pa % 128) hid va n v none else []) else l.dirty := by
    intro l; dsimp only [Function.comp, f, g]
    by_cases h1 : l.line = pa / 128 * 128
    · by_cases h2 : l.holder = .core core <;> simp [h1, h2]
    · simp [h1]
  have hown : ∀ h line, t.ownBytes h line = (w.rcache.filter fun l => l.line == line).flatMap fun l => ((g ∘ f) l).dirty.filter fun d => d.hid == h := by
    intro h line
    rw [ht]; unfold State.ownBytes
    dsimp only
    rw [List.filter_map, List.flatMap_map]
    congr 1
    apply List.filter_congr; intro l _
    show (((g ∘ f) l).line == line) = (l.line == line)
    rw [(hfg l).2.1]
  have hown0 : ∀ h line, u.ownBytes h line = (w.rcache.filter fun l => l.line == line).flatMap fun l => l.dirty.filter fun d => d.hid == h := by
    intro h line; rw [← hO]; rfl
  refine ⟨⟨_, by rw [ht, hw]⟩, ?_, ?_, ?_⟩
  · intro c b; rw [ht, lineAt_map _ _ hfg]; exact hA c b
  · intro h line k hc b
    rw [under_filter, under_filter (u.ownBytes h line)]
    congr 1
    rw [hown, hown0, List.filter_flatMap, List.filter_flatMap]
    apply List.flatMap_congr
    intro l hl
    have hll : l.line = line := by simpa using (List.mem_filter.1 hl).2
    rw [hdirty]
    by_cases h1 : l.line = pa / 128 * 128
    · rw [if_pos h1]
      have hc' : h ≠ hid ∨ k < pa % 128 ∨ pa % 128 + n ≤ k := by
        rcases hc with h2 | h2 | h2
        · exact .inl h2
        · exact absurd (hll ▸ h1) h2
        · exact .inr h2
      have e0 : ∀ (m : List Dirty), (∀ d ∈ m, ∃ i, i < n ∧ d.off = pa % 128 + i ∧ d.hid = hid) →
          (m.filter fun d => d.hid == h).filter (fun d => d.off == k) = [] := by
        intro m hm
        rw [List.filter_filter, List.filter_eq_nil_iff]
        intro d hd
        obtain ⟨i, hi, h3, h4⟩ := hm d hd
        simp only [Bool.and_eq_true, beq_iff_eq, not_and]
        intro h5 h6
        rcases hc' with h7 | h7 | h7
        · exact h7 (h6 ▸ h4)
        · omega
        · omega
      rw [List.filter_append, List.filter_append]
      have e1 : ((if l.holder = .core core then dirtyBytes (pa % 128) hid va n v none else []).filter fun d => d.hid == h).filter (fun d => d.off == k) = [] := by
        split
        · apply e0
          intro d hd
          unfold dirtyBytes at hd
          obtain ⟨i, hi, rfl⟩ := List.mem_map.1 hd
          exact ⟨i, List.mem_range.1 hi, rfl, rfl⟩
        · rfl
      rw [e1, List.append_nil, List.filter_filter, List.filter_filter, List.filter_filter]
      apply List.filter_congr
      intro d _
      by_cases h2 : (d.off == k && d.hid == h) = true
      · simp only [Bool.and_eq_true, beq_iff_eq] at h2
        have : d.under hid (pa % 128) n none = false := by
          unfold Dirty.under
          rcases hc' with h7 | h7 | h7
          · have : (d.hid == hid) = false := by rw [h2.2]; simpa using h7
            simp [this]
          · have : ¬ pa % 128 ≤ d.off := by omega
            simp [this]
          · have : ¬ d.off < pa % 128 + n := by omega
            simp [this]
        simp [this, h2]
      · have h3 : (d.off == k && d.hid == h) = false := by simpa using h2
        rw [h3, Bool.false_and]
    · rw [if_neg h1]
  · intro k hk1' hk2' b
    apply under_all
    · intro d hd hdk
      rw [hown] at hd
      obtain ⟨l, hl, hd⟩ := List.mem_flatMap.1 hd
      have hll : l.line = pa / 128 * 128 := by simpa using (List.mem_filter.1 hl).2
      obtain ⟨hd, hh⟩ := List.mem_filter.1 hd
      rw [hdirty, if_pos hll] at hd
      rcases List.mem_append.1 hd with hd | hd
      · have := (List.mem_filter.1 hd).2
        unfold Dirty.under at this
        have hh : d.hid = hid := by simpa using hh
        have h1 : pa % 128 ≤ d.off := by omega
        have h2 : d.off < pa % 128 + n := by omega
        simp [hh, h1, h2] at this
      · split at hd
        · unfold dirtyBytes at hd
          obtain ⟨i, hi, rfl⟩ := List.mem_map.1 hd
          refine ⟨rfl, ?_⟩
          dsimp only at hdk ⊢
          rw [div256, ← hdk]; congr 3; omega
        · cases hd
    · refine ⟨⟨k, hid, va + (k - pa % 128), BitVec.ofNat 8 (v / 256 ^ (k - pa % 128)), none⟩, ?_, rfl⟩
      rw [hown]
      unfold State.lineOf at hk4
      have hm := List.mem_of_find?_eq_some hk4
      apply List.mem_flatMap.2
      refine ⟨kl, List.mem_filter.2 ⟨hm, by simp [hk2]⟩, List.mem_filter.2 ⟨?_, by simp⟩⟩
      rw [hdirty, if_pos hk2, if_pos hk1]
      apply List.mem_append.2; right
      unfold dirtyBytes
      apply List.mem_map.2
      refine ⟨k - pa % 128, List.mem_range.2 (by omega), ?_⟩
      congr 1; omega

/-- A store at a checked location: the hart sees the bytes stored; every other byte is as before, as every hart sees it. A byte of
another device is written into the core's line only. -/
theorem writeAt_seen (s : State) (l : Loc) (va n v : Nat) (hm : Memory.wf s.mem = true) (hs : Memory.wf s.spad = true) (hn : n ∣ 8)
    (ha : ∀ a, l = .phys a → a % n = 0) :
    let u := near s l
    let t := s.writeAt .cached l va n v
    (∀ core k, k < n → seen t core s.hart.place.hid (plus l k) = BitVec.ofNat 8 (v >>> (8 * k))) ∧
    (∀ core hid m, (∀ k, k < n → m ≠ plus l k) → seen t core hid m = seen u core hid m) ∧
    (∀ core hid m, hid ≠ s.hart.place.hid → (∃ a, l = .phys a ∧ ∃ d o, targetOf a = .remote d o) → seen t core hid m = seen u core hid m) ∧
    (∀ b, (∀ k, k < n → Loc.phys b ≠ plus l k) → Memory.read t.mem b = Memory.read u.mem b) ∧
    (∀ b, (∀ k, k < n → Loc.spad b ≠ plus l k) → Memory.read t.spad b = Memory.read u.spad b) ∧
    (∃ mem spad rcache poison spadPoison,
      t = { u with mem := mem, spad := spad, rcache := rcache, poison := poison, spadPoison := spadPoison }) := by
  intro u t
  cases l with
  | spad i =>
    have out : ∀ b, (∀ k, k < n → Loc.spad b ≠ plus (.spad i) k) → Memory.read (Memory.writeN s.spad i n v) b = Memory.read s.spad b := by
      intro b h
      apply Memory.read_writeN_other
      by_contra hc
      exact h (b - i) (by omega) (by show Loc.spad b = Loc.spad (i + (b - i)); congr 1; omega)
    refine ⟨?_, ?_, ?_, fun _ _ => rfl, out, ⟨_, _, _, _, _, rfl⟩⟩
    · intro core k hk
      show Memory.read (Memory.writeN s.spad i n v) (i + k) = _
      rw [Memory.read_writeN hs _ _ _ _ hk, div256]
    · intro c h m hmm
      cases m with
      | phys a => rfl
      | spad j => exact out j hmm
    · rintro _ _ _ _ ⟨a, h, _⟩; cases h
  | phys a =>
    have ha := ha a rfl
    by_cases hrem : ∃ d o, targetOf a = .remote d o
    · have et : t = s.writeLine s.hart.place.core s.hart.place.hid a va n v none := by
        obtain ⟨d, o, e⟩ := hrem
        show s.writeOver .cached (.phys a) va n v none = _
        unfold State.writeOver; simp only [e]; rfl
      have eu : u = filledFrom s s.hart.place.core s.hart.place.hid a := near_phys s a hrem
      obtain ⟨⟨rc, h1⟩, h2, h3, h4⟩ := writeLine_says s s.hart.place.core s.hart.place.hid a va n v
      rw [← et, ← eu] at h1 h2 h3
      rw [← et] at h4
      have emem : t.mem = u.mem := by rw [h1]
      have espad : t.spad = u.spad := by rw [h1]
      have other : ∀ core hid m, (hid ≠ s.hart.place.hid ∨ ∀ k, k < n → m ≠ plus (.phys a) k) → seen t core hid m = seen u core hid m := by
        intro core hid m hc
        cases m with
        | spad j => show Memory.read t.spad j = _; rw [espad]; rfl
        | phys b =>
          by_cases hb : ∃ d o, targetOf b = .remote d o
          · rw [seen_remote hb, seen_remote hb, h2]
            apply h3
            rcases hc with h | h
            · exact .inl h
            · by_cases he : b / 128 * 128 = a / 128 * 128
              · right; right
                by_contra hcon
                refine h (b - a) ?_ ?_
                · omega
                · show Loc.phys b = Loc.phys (a + (b - a)); congr 1; omega
              · exact .inr (.inl he)
          · rw [seen_local hb, seen_local hb, emem]
      refine ⟨?_, fun c h m hm => other c h m (.inr hm), fun c h m hh _ => other c h m (.inl hh), fun b _ => by rw [emem],
        fun b _ => by rw [espad], ⟨_, _, _, _, _, h1⟩⟩
      intro core k hk
      show seen t _ _ (.phys (a + k)) = _
      have e1 := div128 a n k hn ha hk
      rw [seen_remote ((remote_plus a n k hn ha hk).2 hrem), e1, h4 _ (by omega) (by omega)]
      congr 3; omega
    · have et : t = s.writeLoc (.phys a) n v := by
        show s.writeOver .cached (.phys a) va n v none = _
        unfold State.writeOver
        dsimp only
        cases e : targetOf a with
        | remote d o => exact absurd ⟨d, o, e⟩ hrem
        | _ => rfl
      have eu : u = s := near_local s a hrem
      have emem : t.mem = Memory.writeN s.mem a n v := by rw [et]; rfl
      have out : ∀ b, (∀ k, k < n → Loc.phys b ≠ plus (.phys a) k) → Memory.read t.mem b = Memory.read s.mem b := by
        intro b h
        rw [emem]
        apply Memory.read_writeN_other
        by_contra hc
        exact h (b - a) (by omega) (by show Loc.phys b = Loc.phys (a + (b - a)); congr 1; omega)
      rw [eu]
      refine ⟨?_, ?_, ?_, out, fun b _ => by rw [et]; rfl, ⟨_, _, _, _, _, et⟩⟩
      · intro core k hk
        show seen t _ _ (.phys (a + k)) = _
        rw [seen_local (fun h => hrem ((remote_plus a n k hn ha hk).1 h)), emem, Memory.read_writeN hm _ _ _ _ hk, div256]
      · intro c h m hmm
        cases m with
        | spad j => show Memory.read t.spad j = _; rw [et]; rfl
        | phys b =>
          have o := out b hmm
          by_cases hb : ∃ d o, targetOf b = .remote d o
          · rw [seen_remote hb, seen_remote hb]
            have hrc : t.rcache = s.rcache := by rw [et]; rfl
            have hown : t.ownBytes h (b / 128 * 128) = s.ownBytes h (b / 128 * 128) := by unfold State.ownBytes; rw [hrc]
            have hcopy : t.copyOf c b = s.copyOf c b := by unfold State.copyOf State.lineOf; rw [hrc]
            rw [hown]
            congr 1
            unfold lineAt
            rw [hcopy]
            cases s.copyOf c b with
            | some k => simp only [Option.getD_some]
            | none =>
              dsimp only [Option.getD_none]
              rw [byte_readN _ _ _ _ (by omega), byte_readN _ _ _ _ (by omega)]
              have e2 : b / 128 * 128 + b % 128 = b := by omega
              rw [e2]; exact o
          · rw [seen_local hb, seen_local hb]; exact o
      · rintro _ _ _ _ ⟨a', h, hr⟩; cases h; exact absurd hr hrem

theorem upd_rc {u s' : State} (h5 : s' = { u with rcache := s'.rcache }) : (∀ r, s'.x r = u.x r) ∧ s'.hart = u.hart ∧ s'.mem = u.mem ∧ s'.spad = u.spad := by
  have h1 := congrArg State.hart h5
  have h2 := congrArg State.mem h5
  have h3 := congrArg State.spad h5
  dsimp only at h1 h2 h3
  exact ⟨fun r => by unfold State.x; rw [h1], h1, h2, h3⟩


theorem signed_ext (w v : Nat) (hw : 0 < w) (hv : v < 2 ^ w) : BitVec.ofInt 64 (toSigned w v) = (BitVec.ofNat w v).signExtend 64 := by
  rw [BitVec.signExtend]
  congr 1
  rw [BitVec.toInt_eq_toNat_cond, BitVec.toNat_ofNat, toSigned, Nat.mod_eq_of_lt hv]
  have : 2 ^ w = 2 * 2 ^ (w - 1) := by rw [← Nat.pow_succ']; congr 1; omega
  split <;> split <;> first | omega | rfl

end Sys2Proof.Laws
end

