-- ==== Sys2Proof/Laws/Coding.lean ====
section
/-! SUPPORT. The fields of a packed word, immediates, and what the leading word of an instruction reads back as: the
lemmas that the round trip of decode and encode is made of. -/

namespace Sys2Proof.Laws

set_option Elab.async false

/-- The lowest field of a packed word. -/
theorem fld_zero (v r n : Nat) (h : v < 2 ^ n) : fld (v + 2 ^ n * r) 0 n = v := by
  simp [fld, Nat.add_mul_mod_self_left, Nat.mod_eq_of_lt h]

/-- A field above the lowest one. -/
theorem fld_step (v r k lo n : Nat) (h : v < 2 ^ k) : fld (v + 2 ^ k * r) (k + lo) n = fld r lo n := by
  unfold fld
  rw [Nat.pow_add, ← Nat.div_div_eq_div_mul, Nat.add_mul_div_left _ _ (Nat.two_pow_pos k), Nat.div_eq_of_lt h, Nat.zero_add]

/-- The highest field of a packed word. -/
theorem fld_last (v n : Nat) (h : v < 2 ^ n) : fld v 0 n = v := by
  simp [fld, Nat.mod_eq_of_lt h]

/-- The low bits of a packed word. -/
theorem low_packed (v r : Nat) (h : v < 128) : (v + 2 ^ 7 * r) % 128 = v := by omega

theorem beq_toNat (q : Bool) : (q.toNat == 1) = q := by cases q <;> rfl

theorem toNat_bound (q : Bool) : q.toNat < 2 ^ 1 := by cases q <;> decide

theorem fin_ofNat (n : Nat) [NeZero n] (d : Fin n) : Fin.ofNat n d.val = d := by
  ext; simp [Fin.ofNat, Nat.mod_eq_of_lt d.isLt]

theorem scope_ofCode (s : Scope) : Scope.ofCode s.code = s := by cases s <;> rfl
theorem scope_bound (s : Scope) : s.code < 2 ^ 2 := by cases s <;> decide
theorem order_ofCode (s : Order) : Order.ofCode s.code = s := by cases s <;> rfl
theorem order_bound (s : Order) : s.code < 2 ^ 2 := by cases s <;> decide
theorem tag_ofCode (t : Tag) : Tag.ofCode t.code = some t := by cases t <;> rfl
theorem tag_bound (t : Tag) : t.code < 2 ^ 5 := by cases t <;> decide

theorem immField_bound (n : Nat) (i : Int) : immField n i < 2 ^ n := by
  have h : (0 : Int) < 2 ^ n := by positivity
  have h1 := Int.emod_nonneg i (ne_of_gt h)
  have h2 := Int.emod_lt_of_pos i h
  unfold immField
  zify
  rw [Int.toNat_of_nonneg h1]
  exact h2

/-- A field that can hold an immediate gives it back. -/
theorem sx_immField (n : Nat) (i : Int) (hn : 1 ≤ n) (h : immOk n i = true) : sx n (immField n i) = i := by
  obtain ⟨k, rfl⟩ : ∃ k, n = k + 1 := ⟨n - 1, by omega⟩
  simp only [immOk, decide_eq_true_eq, Nat.add_sub_cancel] at h
  obtain ⟨h1, h2⟩ := h
  have hp : (0 : Int) < 2 ^ (k + 1) := by positivity
  have e : (2 : Int) ^ (k + 1) = 2 * 2 ^ k := by ring
  have hnn := Int.emod_nonneg i (ne_of_gt hp)
  unfold sx immField
  simp only [Nat.add_sub_cancel]
  have hc : (((i % 2 ^ (k + 1)).toNat : Nat) : Int) = i % 2 ^ (k + 1) := Int.toNat_of_nonneg hnn
  by_cases hi : 0 ≤ i
  · have : i % 2 ^ (k + 1) = i := Int.emod_eq_of_lt hi (by omega)
    rw [if_pos (by zify; rw [hc, this]; exact h2), hc, this]
  · have : i % 2 ^ (k + 1) = i + 2 ^ (k + 1) := by
      rw [← Int.add_emod_right]
      exact Int.emod_eq_of_lt (by omega) (by omega)
    rw [if_neg (by zify; rw [hc, this]; omega), hc, this]
    omega

/-- A field of n bits read as two's complement is an immediate that n bits hold. -/
theorem immOk_sx (n v : Nat) (hn : 1 ≤ n) (h : v < 2 ^ n) : immOk n (sx n v) = true := by
  obtain ⟨k, rfl⟩ : ∃ k, n = k + 1 := ⟨n - 1, by omega⟩
  simp only [immOk, decide_eq_true_eq, sx, Nat.add_sub_cancel]
  have e : (2 : Nat) ^ (k + 1) = 2 * 2 ^ k := by ring
  have e' : (2 : Int) ^ (k + 1) = 2 * 2 ^ k := by ring
  have hp : (0 : Nat) < 2 ^ k := by positivity
  split
  · rename_i hv; constructor
    · have : (0 : Int) ≤ 2 ^ k := by positivity
      omega
    · zify at hv; exact hv
  · rename_i hv
    rw [e] at h
    zify at h hv hp
    rw [e']
    omega

/-- A wider field holds what a narrower one holds. -/
theorem immOk_mono (n m : Nat) (i : Int) (hn : 1 ≤ n) (hm : n ≤ m) (h : immOk n i = true) : immOk m i = true := by
  simp only [immOk, decide_eq_true_eq] at *
  have : (2 : Int) ^ (n - 1) ≤ 2 ^ (m - 1) := pow_le_pow_right₀ (by norm_num) (by omega)
  omega

/-- The field of a field. -/
theorem immField_sx (n v : Nat) (h : v < 2 ^ n) : immField n (sx n v) = v := by
  have hz : (v : Int) < 2 ^ n := by exact_mod_cast h
  unfold immField sx
  split
  · rw [Int.emod_eq_of_lt (by omega) hz]; simp
  · have : ((v : Int) - 2 ^ n) % 2 ^ n = v := by
      rw [Int.sub_emod_right]; exact Int.emod_eq_of_lt (by omega) hz
    rw [this]; simp

/-- The low field of a wider field of an immediate. -/
theorem immField_low (n k : Nat) (i : Int) : immField (n + k) i % 2 ^ n = immField n i := by
  unfold immField
  have h1 : (0 : Int) < 2 ^ (n + k) := by positivity
  have h2 : (0 : Int) < 2 ^ n := by positivity
  zify
  rw [Int.toNat_of_nonneg (Int.emod_nonneg _ (ne_of_gt h1)), Int.toNat_of_nonneg (Int.emod_nonneg _ (ne_of_gt h2))]
  rw [pow_add]
  exact Int.emod_emod_of_dvd i (Dvd.intro _ rfl)

/-- What a leading word of an extended immediate gives back (R118). -/
theorem extend_back (n : Nat) (i : Int) (hn : 1 ≤ n) (h : immOk (24 + n) i = true) :
    extendImm (127 + 128 * (immField (n + 24) i / 2 ^ n)) n (sx n (immField n i)) = i := by
  have hb : immField (n + 24) i / 2 ^ n < 2 ^ 24 := by
    have := immField_bound (n + 24) i
    rw [pow_add] at this
    exact Nat.div_lt_of_lt_mul this
  unfold extendImm
  rw [immField_sx n _ (immField_bound n i)]
  have hf : fld (127 + 128 * (immField (n + 24) i / 2 ^ n)) 7 24 = immField (n + 24) i / 2 ^ n := by
    unfold fld; omega
  rw [hf, ← immField_low n 24 i, Nat.div_add_mod', Nat.add_comm n 24]
  exact sx_immField (24 + n) i (by omega) h

/-- That leading word begins a pair (R117). -/
theorem extend_leading (n : Nat) (i : Int) :
    isLeading (127 + 128 * (immField (n + 24) i / 2 ^ n)) = true := by
  have hb : immField (n + 24) i / 2 ^ n < 2 ^ 24 := by
    have := immField_bound (n + 24) i
    rw [pow_add] at this
    exact Nat.div_lt_of_lt_mul this
  unfold isLeading
  simp only [Bool.and_eq_true, beq_iff_eq, bne_iff_ne, ne_eq]
  constructor <;> omega

/-- Its bit 31 is zero (R117). -/
theorem extend_low (n : Nat) (i : Int) : fld (127 + 128 * (immField (n + 24) i / 2 ^ n)) 31 1 = 0 := by
  have hb : immField (n + 24) i / 2 ^ n < 2 ^ 24 := by
    have := immField_bound (n + 24) i
    rw [pow_add] at this
    exact Nat.div_lt_of_lt_mul this
  unfold fld
  omega

/-- A leading word of modifiers. -/
def modWord (rm : Option Rounding) (sat : Bool) (hint : Hint) (ximm : Nat) : Nat :=
  127 + 128 * ximm + 33554432 * hint.code + 134217728 * sat.toNat + 268435456 * rmCode rm

/-- It begins a pair, its bit 31 is zero, and it reads back (R117, R119). -/
theorem modWord_reads (rm : Option Rounding) (sat : Bool) (hint : Hint) (ximm : Nat) (h : ximm < 2 ^ 14) :
    isLeading (modWord rm sat hint ximm) = true ∧ fld (modWord rm sat hint ximm) 31 1 = 0 ∧
      Mods.read (modWord rm sat hint ximm) = some ⟨rm, sat, hint, 0, ximm⟩ := by
  have hh : hint.code < 3 := by cases hint <;> decide
  have hs : sat.toNat < 2 := by cases sat <;> decide
  have hr : rmCode rm < 6 := by cases rm with | none => decide | some r => cases r <;> decide
  have e0 : modWord rm sat hint ximm % 128 = 127 := by unfold modWord; omega
  have e1 : fld (modWord rm sat hint ximm) 31 1 = 0 := by unfold modWord fld; omega
  have e2 : fld (modWord rm sat hint ximm) 28 3 = rmCode rm := by unfold modWord fld; omega
  have e3 : fld (modWord rm sat hint ximm) 25 2 = hint.code := by unfold modWord fld; omega
  have e4 : fld (modWord rm sat hint ximm) 27 1 = sat.toNat := by unfold modWord fld; omega
  have e5 : fld (modWord rm sat hint ximm) 21 4 = 0 := by unfold modWord fld; omega
  have e6 : fld (modWord rm sat hint ximm) 7 14 = ximm := by unfold modWord fld; omega
  refine ⟨?_, e1, ?_⟩
  · have e7 : modWord rm sat hint ximm ≠ 0xFFFFFFFF := by unfold modWord; omega
    simp [isLeading, e0, e7]
  · unfold Mods.read
    rw [e2, e3, e4, e5, e6]
    have r1 : rmOfCode (rmCode rm) = some rm := by cases rm with | none => rfl | some r => cases r <;> rfl
    have r2 : Hint.ofCode hint.code = some hint := by cases hint <;> rfl
    rw [r1, r2, beq_toNat]

theorem lenCode_bound (l : Option (Fin 64)) : lenCode l < 2 ^ 14 := by
  cases l with
  | none => decide
  | some l => have := l.isLt; simp only [lenCode]; omega

theorem lenCode_some (l : Fin 64) : lenCode (some l) ≠ 0 := by simp [lenCode]

theorem lenOfXimm_back (l : Option (Fin 64)) : lenOfXimm (lenCode l) = some l := by
  cases l with
  | none => rfl
  | some l =>
    have h := l.isLt
    change lenOfXimm (64 + l.val) = some (some l)
    unfold lenOfXimm
    rw [if_neg (by omega), if_pos (by omega)]
    simp

/-- The round trip of an instruction that never takes a leading word. -/
theorem trip_plain (i : Instr) (hl : leadingWord i = none) (h7 : encodeWord i % 128 ≠ 127)
    (hraw : decodeRaw (encodeWord i) = some i) (hwf : i.wf = true) :
    decodeWords (encode i) = .instr i (leadingWord i).isSome := by
  have hn : isLeading (encodeWord i) = false := by simp [isLeading, h7]
  have hd : decodeWord (encodeWord i) = some i := by simp [decodeWord, hraw, hwf]
  simp [encode, hl, decodeWords, decode, hn, hd]

/-- The round trip of an instruction whose immediate a leading word may extend. -/
theorem trip_imm (n : Nat) (hn : 1 ≤ n) (mk : Int → Instr) (v : Int) (hl : leadingWord (mk v) = immLeading n v)
    (h7 : encodeWord (mk v) % 128 ≠ 127) (hraw : decodeRaw (encodeWord (mk v)) = some (mk (sx n (immField n v))))
    (hwf : (mk v).wf = true) (hok : immOk (24 + n) v = true) (hwf0 : (mk (sx n (immField n v))).wf = true)
    (happ : ∀ p u, applyLeading p (mk u) = some (mk (extendImm p n u))) :
    decodeWords (encode (mk v)) = .instr (mk v) (leadingWord (mk v)).isSome := by
  have hd : decodeWord (encodeWord (mk v)) = some (mk (sx n (immField n v))) := by simp [decodeWord, hraw, hwf0]
  by_cases h : immOk n v = true
  · have hn' : isLeading (encodeWord (mk v)) = false := by simp [isLeading, h7]
    rw [sx_immField n v hn h] at hd
    have hl' : leadingWord (mk v) = none := by rw [hl]; simp [immLeading, h]
    simp [encode, hl', decodeWords, decode, hn', hd]
  · have hl' : leadingWord (mk v) = some (127 + 128 * (immField (n + 24) v / 2 ^ n)) := by rw [hl]; simp [immLeading, h]
    have ha := happ (127 + 128 * (immField (n + 24) v / 2 ^ n)) (sx n (immField n v))
    rw [extend_back n v hn hok] at ha
    have hf : Option.filter Instr.wf (some (mk v)) = some (mk v) := by simp [Option.filter, hwf]
    simp [encode, hl', decodeWords, decode, extend_leading, extend_low, h7, hd, ha, hf]

/-- The round trip of an instruction that a leading word may give modifiers. -/
theorem trip_mod (i i0 : Instr) (rm : Option Rounding) (sat : Bool) (hint : Hint) (ximm : Nat) (hx : ximm < 2 ^ 14)
    (hl : leadingWord i = modLeading rm sat hint ximm) (h7 : encodeWord i % 128 ≠ 127)
    (hraw : decodeRaw (encodeWord i) = some i0) (hwf : i.wf = true) (hwf0 : i0.wf = true)
    (h0 : rm = none ∧ sat = false ∧ hint = .none ∧ ximm = 0 → i0 = i)
    (happ : ∀ p, Mods.read p = some ⟨rm, sat, hint, 0, ximm⟩ → applyLeading p i0 = some i) :
    decodeWords (encode i) = .instr i (leadingWord i).isSome := by
  have hd : decodeWord (encodeWord i) = some i0 := by simp [decodeWord, hraw, hwf0]
  by_cases h : rm = none ∧ sat = false ∧ hint = .none ∧ ximm = 0
  · have hn : isLeading (encodeWord i) = false := by simp [isLeading, h7]
    have hl' : leadingWord i = none := by rw [hl]; simp [modLeading, h]
    rw [h0 h] at hd
    simp [encode, hl', decodeWords, decode, hn, hd]
  · have hl' : leadingWord i = some (modWord rm sat hint ximm) := by rw [hl]; simp only [modLeading, if_neg h, modWord]
    obtain ⟨h1, h3, h2⟩ := modWord_reads rm sat hint ximm hx
    have hf : Option.filter Instr.wf (some i) = some i := by simp [Option.filter, hwf]
    simp [encode, hl', decodeWords, decode, h1, h3, h7, hd, happ _ h2, hf]

end Sys2Proof.Laws
end

