-- ==== Sys2Proof/Laws/Raw.lean ====
section
/-! SUPPORT. One word of every row of the opcode table packed and read back, row by row (06 R113 to R124): the parts of
the round trip of encode and decode. -/

set_option linter.unusedSimpArgs false
set_option linter.unusedTactic false
set_option linter.unusedVariables false
set_option Elab.async false

namespace Sys2Proof.Laws.Raw

theorem zero_tile (x c : Nat) : x + 0 * c = x := by rw [Nat.zero_mul, Nat.add_zero]

/-- A field that shares the bits from p to p + m with a known field and differs there is not c. -/
theorem other_bits (w lo n c tl tn v p m : Nat) (h : fld w tl tn = v)
    (hc : tl ≤ p ∧ p + m ≤ tl + tn ∧ lo ≤ p ∧ p + m ≤ lo + n ∧ c / 2 ^ (p - lo) % 2 ^ m ≠ v / 2 ^ (p - tl) % 2 ^ m) :
    (fld w lo n = c) = False := by
  obtain ⟨h1, h2, h3, h4, h5⟩ := hc
  have sub : ∀ a k, a ≤ p → p + m ≤ a + k → fld w a k / 2 ^ (p - a) % 2 ^ m = w / 2 ^ p % 2 ^ m := by
    intro a k ha hk
    obtain ⟨j, rfl⟩ : ∃ j, p = a + j := ⟨p - a, by omega⟩
    obtain ⟨t, rfl⟩ : ∃ t, k = j + m + t := ⟨k - j - m, by omega⟩
    simp only [fld, Nat.add_sub_cancel_left]
    rw [Nat.add_assoc j m t, Nat.pow_add 2 j, Nat.mod_mul_right_div_self, Nat.div_div_eq_div_mul, ← Nat.pow_add,
      Nat.pow_add 2 m t, Nat.mod_mul_right_mod]
  simp only [eq_iff_iff, iff_false]
  intro hw
  apply h5
  rw [← hw, ← h, sub lo n h3 h4, sub tl tn h1 h2]

theorem shape1 (m f0 f1 f2 f3 w : Nat) (hm : m < 128) (h0 : f0 < 2 ^ 5) (h1 : f1 < 2 ^ 5) (h2 : f2 < 2 ^ 5) (h3 : f3 < 2 ^ 10)
    (hw : w = m + f0 * 128 + f1 * 4096 + f2 * 131072 + f3 * 4194304) :
    w % 128 = m ∧ fld w 7 5 = f0 ∧ fld w 12 5 = f1 ∧ fld w 17 5 = f2 ∧ fld w 22 10 = f3 := by
  have e : w = m + 2 ^ 7 * (f0 + 2 ^ 5 * (f1 + 2 ^ 5 * (f2 + 2 ^ 5 * f3))) := by omega
  rw [e]
  exact ⟨low_packed _ _ hm,
    (fld_step _ _ 7 0 5 hm).trans (fld_zero _ _ _ h0),
    (fld_step _ _ 7 5 5 hm).trans ((fld_step _ _ 5 0 5 h0).trans (fld_zero _ _ _ h1)),
    (fld_step _ _ 7 10 5 hm).trans ((fld_step _ _ 5 5 5 h0).trans ((fld_step _ _ 5 0 5 h1).trans (fld_zero _ _ _ h2))),
    (fld_step _ _ 7 15 10 hm).trans ((fld_step _ _ 5 10 10 h0).trans ((fld_step _ _ 5 5 10 h1).trans ((fld_step _ _ 5 0 10 h2).trans (fld_last _ _ h3))))⟩

theorem shape2 (m f0 f1 f2 f3 f4 w : Nat) (hm : m < 128) (h0 : f0 < 2 ^ 5) (h1 : f1 < 2 ^ 5) (h2 : f2 < 2 ^ 5) (h3 : f3 < 2 ^ 3) (h4 : f4 < 2 ^ 7)
    (hw : w = m + f0 * 128 + f1 * 4096 + f2 * 131072 + f3 * 4194304 + f4 * 33554432) :
    w % 128 = m ∧ fld w 7 5 = f0 ∧ fld w 12 5 = f1 ∧ fld w 17 5 = f2 ∧ fld w 22 3 = f3 ∧ fld w 25 7 = f4 := by
  have e : w = m + 2 ^ 7 * (f0 + 2 ^ 5 * (f1 + 2 ^ 5 * (f2 + 2 ^ 5 * (f3 + 2 ^ 3 * f4)))) := by omega
  rw [e]
  exact ⟨low_packed _ _ hm,
    (fld_step _ _ 7 0 5 hm).trans (fld_zero _ _ _ h0),
    (fld_step _ _ 7 5 5 hm).trans ((fld_step _ _ 5 0 5 h0).trans (fld_zero _ _ _ h1)),
    (fld_step _ _ 7 10 5 hm).trans ((fld_step _ _ 5 5 5 h0).trans ((fld_step _ _ 5 0 5 h1).trans (fld_zero _ _ _ h2))),
    (fld_step _ _ 7 15 3 hm).trans ((fld_step _ _ 5 10 3 h0).trans ((fld_step _ _ 5 5 3 h1).trans ((fld_step _ _ 5 0 3 h2).trans (fld_zero _ _ _ h3)))),
    (fld_step _ _ 7 18 7 hm).trans ((fld_step _ _ 5 13 7 h0).trans ((fld_step _ _ 5 8 7 h1).trans ((fld_step _ _ 5 3 7 h2).trans ((fld_step _ _ 3 0 7 h3).trans (fld_last _ _ h4)))))⟩

theorem shape3 (m f0 f1 f2 f3 w : Nat) (hm : m < 128) (h0 : f0 < 2 ^ 5) (h1 : f1 < 2 ^ 5) (h2 : f2 < 2 ^ 3) (h3 : f3 < 2 ^ 12)
    (hw : w = m + f0 * 128 + f1 * 4096 + f2 * 131072 + f3 * 1048576) :
    w % 128 = m ∧ fld w 7 5 = f0 ∧ fld w 12 5 = f1 ∧ fld w 17 3 = f2 ∧ fld w 20 12 = f3 := by
  have e : w = m + 2 ^ 7 * (f0 + 2 ^ 5 * (f1 + 2 ^ 5 * (f2 + 2 ^ 3 * f3))) := by omega
  rw [e]
  exact ⟨low_packed _ _ hm,
    (fld_step _ _ 7 0 5 hm).trans (fld_zero _ _ _ h0),
    (fld_step _ _ 7 5 5 hm).trans ((fld_step _ _ 5 0 5 h0).trans (fld_zero _ _ _ h1)),
    (fld_step _ _ 7 10 3 hm).trans ((fld_step _ _ 5 5 3 h0).trans ((fld_step _ _ 5 0 3 h1).trans (fld_zero _ _ _ h2))),
    (fld_step _ _ 7 13 12 hm).trans ((fld_step _ _ 5 8 12 h0).trans ((fld_step _ _ 5 3 12 h1).trans ((fld_step _ _ 3 0 12 h2).trans (fld_last _ _ h3))))⟩

theorem shape4 (m f0 f1 f2 f3 f4 w : Nat) (hm : m < 128) (h0 : f0 < 2 ^ 5) (h1 : f1 < 2 ^ 5) (h2 : f2 < 2 ^ 3) (h3 : f3 < 2 ^ 6) (h4 : f4 < 2 ^ 6)
    (hw : w = m + f0 * 128 + f1 * 4096 + f2 * 131072 + f3 * 1048576 + f4 * 67108864) :
    w % 128 = m ∧ fld w 7 5 = f0 ∧ fld w 12 5 = f1 ∧ fld w 17 3 = f2 ∧ fld w 20 6 = f3 ∧ fld w 26 6 = f4 := by
  have e : w = m + 2 ^ 7 * (f0 + 2 ^ 5 * (f1 + 2 ^ 5 * (f2 + 2 ^ 3 * (f3 + 2 ^ 6 * f4)))) := by omega
  rw [e]
  exact ⟨low_packed _ _ hm,
    (fld_step _ _ 7 0 5 hm).trans (fld_zero _ _ _ h0),
    (fld_step _ _ 7 5 5 hm).trans ((fld_step _ _ 5 0 5 h0).trans (fld_zero _ _ _ h1)),
    (fld_step _ _ 7 10 3 hm).trans ((fld_step _ _ 5 5 3 h0).trans ((fld_step _ _ 5 0 3 h1).trans (fld_zero _ _ _ h2))),
    (fld_step _ _ 7 13 6 hm).trans ((fld_step _ _ 5 8 6 h0).trans ((fld_step _ _ 5 3 6 h1).trans ((fld_step _ _ 3 0 6 h2).trans (fld_zero _ _ _ h3)))),
    (fld_step _ _ 7 19 6 hm).trans ((fld_step _ _ 5 14 6 h0).trans ((fld_step _ _ 5 9 6 h1).trans ((fld_step _ _ 3 6 6 h2).trans ((fld_step _ _ 6 0 6 h3).trans (fld_last _ _ h4)))))⟩

theorem shape5 (m f0 f1 w : Nat) (hm : m < 128) (h0 : f0 < 2 ^ 5) (h1 : f1 < 2 ^ 20)
    (hw : w = m + f0 * 128 + f1 * 4096) :
    w % 128 = m ∧ fld w 7 5 = f0 ∧ fld w 12 20 = f1 := by
  have e : w = m + 2 ^ 7 * (f0 + 2 ^ 5 * f1) := by omega
  rw [e]
  exact ⟨low_packed _ _ hm,
    (fld_step _ _ 7 0 5 hm).trans (fld_zero _ _ _ h0),
    (fld_step _ _ 7 5 20 hm).trans ((fld_step _ _ 5 0 20 h0).trans (fld_last _ _ h1))⟩

theorem shape6 (m f0 f1 f2 f3 w : Nat) (hm : m < 128) (h0 : f0 < 2 ^ 3) (h1 : f1 < 2 ^ 1) (h2 : f2 < 2 ^ 2) (h3 : f3 < 2 ^ 19)
    (hw : w = m + f0 * 128 + f1 * 1024 + f2 * 2048 + f3 * 8192) :
    w % 128 = m ∧ fld w 7 3 = f0 ∧ fld w 10 1 = f1 ∧ fld w 11 2 = f2 ∧ fld w 13 19 = f3 := by
  have e : w = m + 2 ^ 7 * (f0 + 2 ^ 3 * (f1 + 2 ^ 1 * (f2 + 2 ^ 2 * f3))) := by omega
  rw [e]
  exact ⟨low_packed _ _ hm,
    (fld_step _ _ 7 0 3 hm).trans (fld_zero _ _ _ h0),
    (fld_step _ _ 7 3 1 hm).trans ((fld_step _ _ 3 0 1 h0).trans (fld_zero _ _ _ h1)),
    (fld_step _ _ 7 4 2 hm).trans ((fld_step _ _ 3 1 2 h0).trans ((fld_step _ _ 1 0 2 h1).trans (fld_zero _ _ _ h2))),
    (fld_step _ _ 7 6 19 hm).trans ((fld_step _ _ 3 3 19 h0).trans ((fld_step _ _ 1 2 19 h1).trans ((fld_step _ _ 2 0 19 h2).trans (fld_last _ _ h3))))⟩

theorem shape7 (m f0 f1 f2 f3 f4 w : Nat) (hm : m < 128) (h0 : f0 < 2 ^ 3) (h1 : f1 < 2 ^ 2) (h2 : f2 < 2 ^ 5) (h3 : f3 < 2 ^ 3) (h4 : f4 < 2 ^ 12)
    (hw : w = m + f0 * 128 + f1 * 1024 + f2 * 4096 + f3 * 131072 + f4 * 1048576) :
    w % 128 = m ∧ fld w 7 3 = f0 ∧ fld w 10 2 = f1 ∧ fld w 12 5 = f2 ∧ fld w 17 3 = f3 ∧ fld w 20 12 = f4 := by
  have e : w = m + 2 ^ 7 * (f0 + 2 ^ 3 * (f1 + 2 ^ 2 * (f2 + 2 ^ 5 * (f3 + 2 ^ 3 * f4)))) := by omega
  rw [e]
  exact ⟨low_packed _ _ hm,
    (fld_step _ _ 7 0 3 hm).trans (fld_zero _ _ _ h0),
    (fld_step _ _ 7 3 2 hm).trans ((fld_step _ _ 3 0 2 h0).trans (fld_zero _ _ _ h1)),
    (fld_step _ _ 7 5 5 hm).trans ((fld_step _ _ 3 2 5 h0).trans ((fld_step _ _ 2 0 5 h1).trans (fld_zero _ _ _ h2))),
    (fld_step _ _ 7 10 3 hm).trans ((fld_step _ _ 3 7 3 h0).trans ((fld_step _ _ 2 5 3 h1).trans ((fld_step _ _ 5 0 3 h2).trans (fld_zero _ _ _ h3)))),
    (fld_step _ _ 7 13 12 hm).trans ((fld_step _ _ 3 10 12 h0).trans ((fld_step _ _ 2 8 12 h1).trans ((fld_step _ _ 5 3 12 h2).trans ((fld_step _ _ 3 0 12 h3).trans (fld_last _ _ h4)))))⟩

theorem shape8 (m f0 f1 f2 f3 f4 w : Nat) (hm : m < 128) (h0 : f0 < 2 ^ 3) (h1 : f1 < 2 ^ 2) (h2 : f2 < 2 ^ 5) (h3 : f3 < 2 ^ 10) (h4 : f4 < 2 ^ 5)
    (hw : w = m + f0 * 128 + f1 * 1024 + f2 * 4096 + f3 * 131072 + f4 * 134217728) :
    w % 128 = m ∧ fld w 7 3 = f0 ∧ fld w 10 2 = f1 ∧ fld w 12 5 = f2 ∧ fld w 17 10 = f3 ∧ fld w 27 5 = f4 := by
  have e : w = m + 2 ^ 7 * (f0 + 2 ^ 3 * (f1 + 2 ^ 2 * (f2 + 2 ^ 5 * (f3 + 2 ^ 10 * f4)))) := by omega
  rw [e]
  exact ⟨low_packed _ _ hm,
    (fld_step _ _ 7 0 3 hm).trans (fld_zero _ _ _ h0),
    (fld_step _ _ 7 3 2 hm).trans ((fld_step _ _ 3 0 2 h0).trans (fld_zero _ _ _ h1)),
    (fld_step _ _ 7 5 5 hm).trans ((fld_step _ _ 3 2 5 h0).trans ((fld_step _ _ 2 0 5 h1).trans (fld_zero _ _ _ h2))),
    (fld_step _ _ 7 10 10 hm).trans ((fld_step _ _ 3 7 10 h0).trans ((fld_step _ _ 2 5 10 h1).trans ((fld_step _ _ 5 0 10 h2).trans (fld_zero _ _ _ h3)))),
    (fld_step _ _ 7 20 5 hm).trans ((fld_step _ _ 3 17 5 h0).trans ((fld_step _ _ 2 15 5 h1).trans ((fld_step _ _ 5 10 5 h2).trans ((fld_step _ _ 10 0 5 h3).trans (fld_last _ _ h4)))))⟩

theorem shape9 (m f0 f1 f2 f3 f4 f5 w : Nat) (hm : m < 128) (h0 : f0 < 2 ^ 3) (h1 : f1 < 2 ^ 2) (h2 : f2 < 2 ^ 3) (h3 : f3 < 2 ^ 7) (h4 : f4 < 2 ^ 3) (h5 : f5 < 2 ^ 7)
    (hw : w = m + f0 * 128 + f1 * 1024 + f2 * 4096 + f3 * 32768 + f4 * 4194304 + f5 * 33554432) :
    w % 128 = m ∧ fld w 7 3 = f0 ∧ fld w 10 2 = f1 ∧ fld w 12 3 = f2 ∧ fld w 15 7 = f3 ∧ fld w 22 3 = f4 ∧ fld w 25 7 = f5 := by
  have e : w = m + 2 ^ 7 * (f0 + 2 ^ 3 * (f1 + 2 ^ 2 * (f2 + 2 ^ 3 * (f3 + 2 ^ 7 * (f4 + 2 ^ 3 * f5))))) := by omega
  rw [e]
  exact ⟨low_packed _ _ hm,
    (fld_step _ _ 7 0 3 hm).trans (fld_zero _ _ _ h0),
    (fld_step _ _ 7 3 2 hm).trans ((fld_step _ _ 3 0 2 h0).trans (fld_zero _ _ _ h1)),
    (fld_step _ _ 7 5 3 hm).trans ((fld_step _ _ 3 2 3 h0).trans ((fld_step _ _ 2 0 3 h1).trans (fld_zero _ _ _ h2))),
    (fld_step _ _ 7 8 7 hm).trans ((fld_step _ _ 3 5 7 h0).trans ((fld_step _ _ 2 3 7 h1).trans ((fld_step _ _ 3 0 7 h2).trans (fld_zero _ _ _ h3)))),
    (fld_step _ _ 7 15 3 hm).trans ((fld_step _ _ 3 12 3 h0).trans ((fld_step _ _ 2 10 3 h1).trans ((fld_step _ _ 3 7 3 h2).trans ((fld_step _ _ 7 0 3 h3).trans (fld_zero _ _ _ h4))))),
    (fld_step _ _ 7 18 7 hm).trans ((fld_step _ _ 3 15 7 h0).trans ((fld_step _ _ 2 13 7 h1).trans ((fld_step _ _ 3 10 7 h2).trans ((fld_step _ _ 7 3 7 h3).trans ((fld_step _ _ 3 0 7 h4).trans (fld_last _ _ h5))))))⟩

theorem shape10 (m f0 f1 f2 w : Nat) (hm : m < 128) (h0 : f0 < 2 ^ 5) (h1 : f1 < 2 ^ 8) (h2 : f2 < 2 ^ 12)
    (hw : w = m + f0 * 128 + f1 * 4096 + f2 * 1048576) :
    w % 128 = m ∧ fld w 7 5 = f0 ∧ fld w 12 8 = f1 ∧ fld w 20 12 = f2 := by
  have e : w = m + 2 ^ 7 * (f0 + 2 ^ 5 * (f1 + 2 ^ 8 * f2)) := by omega
  rw [e]
  exact ⟨low_packed _ _ hm,
    (fld_step _ _ 7 0 5 hm).trans (fld_zero _ _ _ h0),
    (fld_step _ _ 7 5 8 hm).trans ((fld_step _ _ 5 0 8 h0).trans (fld_zero _ _ _ h1)),
    (fld_step _ _ 7 13 12 hm).trans ((fld_step _ _ 5 8 12 h0).trans ((fld_step _ _ 8 0 12 h1).trans (fld_last _ _ h2)))⟩

theorem shape11 (m f0 f1 w : Nat) (hm : m < 128) (h0 : f0 < 2 ^ 13) (h1 : f1 < 2 ^ 12)
    (hw : w = m + f0 * 128 + f1 * 1048576) :
    w % 128 = m ∧ fld w 7 13 = f0 ∧ fld w 20 12 = f1 := by
  have e : w = m + 2 ^ 7 * (f0 + 2 ^ 13 * f1) := by omega
  rw [e]
  exact ⟨low_packed _ _ hm,
    (fld_step _ _ 7 0 13 hm).trans (fld_zero _ _ _ h0),
    (fld_step _ _ 7 13 12 hm).trans ((fld_step _ _ 13 0 12 h0).trans (fld_last _ _ h1))⟩

theorem shape12 (m f0 w : Nat) (hm : m < 128) (h0 : f0 < 2 ^ 25)
    (hw : w = m + f0 * 128) :
    w % 128 = m ∧ fld w 7 25 = f0 := by
  have e : w = m + 2 ^ 7 * f0 := by omega
  rw [e]
  exact ⟨low_packed _ _ hm,
    (fld_step _ _ 7 0 25 hm).trans (fld_last _ _ h0)⟩

theorem shape13 (m f0 f1 f2 w : Nat) (hm : m < 128) (h0 : f0 < 2 ^ 5) (h1 : f1 < 2 ^ 5) (h2 : f2 < 2 ^ 15)
    (hw : w = m + f0 * 128 + f1 * 4096 + f2 * 131072) :
    w % 128 = m ∧ fld w 7 5 = f0 ∧ fld w 12 5 = f1 ∧ fld w 17 15 = f2 := by
  have e : w = m + 2 ^ 7 * (f0 + 2 ^ 5 * (f1 + 2 ^ 5 * f2)) := by omega
  rw [e]
  exact ⟨low_packed _ _ hm,
    (fld_step _ _ 7 0 5 hm).trans (fld_zero _ _ _ h0),
    (fld_step _ _ 7 5 5 hm).trans ((fld_step _ _ 5 0 5 h0).trans (fld_zero _ _ _ h1)),
    (fld_step _ _ 7 10 15 hm).trans ((fld_step _ _ 5 5 15 h0).trans ((fld_step _ _ 5 0 15 h1).trans (fld_last _ _ h2)))⟩

theorem shape14 (m f0 f1 f2 f3 f4 w : Nat) (hm : m < 128) (h0 : f0 < 2 ^ 3) (h1 : f1 < 2 ^ 2) (h2 : f2 < 2 ^ 5) (h3 : f3 < 2 ^ 5) (h4 : f4 < 2 ^ 10)
    (hw : w = m + f0 * 128 + f1 * 1024 + f2 * 4096 + f3 * 131072 + f4 * 4194304) :
    w % 128 = m ∧ fld w 7 3 = f0 ∧ fld w 10 2 = f1 ∧ fld w 12 5 = f2 ∧ fld w 17 5 = f3 ∧ fld w 22 10 = f4 := by
  have e : w = m + 2 ^ 7 * (f0 + 2 ^ 3 * (f1 + 2 ^ 2 * (f2 + 2 ^ 5 * (f3 + 2 ^ 5 * f4)))) := by omega
  rw [e]
  exact ⟨low_packed _ _ hm,
    (fld_step _ _ 7 0 3 hm).trans (fld_zero _ _ _ h0),
    (fld_step _ _ 7 3 2 hm).trans ((fld_step _ _ 3 0 2 h0).trans (fld_zero _ _ _ h1)),
    (fld_step _ _ 7 5 5 hm).trans ((fld_step _ _ 3 2 5 h0).trans ((fld_step _ _ 2 0 5 h1).trans (fld_zero _ _ _ h2))),
    (fld_step _ _ 7 10 5 hm).trans ((fld_step _ _ 3 7 5 h0).trans ((fld_step _ _ 2 5 5 h1).trans ((fld_step _ _ 5 0 5 h2).trans (fld_zero _ _ _ h3)))),
    (fld_step _ _ 7 15 10 hm).trans ((fld_step _ _ 3 12 10 h0).trans ((fld_step _ _ 2 10 10 h1).trans ((fld_step _ _ 5 5 10 h2).trans ((fld_step _ _ 5 0 10 h3).trans (fld_last _ _ h4)))))⟩

theorem shape15 (m f0 f1 f2 f3 f4 f5 w : Nat) (hm : m < 128) (h0 : f0 < 2 ^ 5) (h1 : f1 < 2 ^ 5) (h2 : f2 < 2 ^ 3) (h3 : f3 < 2 ^ 6) (h4 : f4 < 2 ^ 1) (h5 : f5 < 2 ^ 5)
    (hw : w = m + f0 * 128 + f1 * 4096 + f2 * 131072 + f3 * 1048576 + f4 * 67108864 + f5 * 134217728) :
    w % 128 = m ∧ fld w 7 5 = f0 ∧ fld w 12 5 = f1 ∧ fld w 17 3 = f2 ∧ fld w 20 6 = f3 ∧ fld w 26 1 = f4 ∧ fld w 27 5 = f5 := by
  have e : w = m + 2 ^ 7 * (f0 + 2 ^ 5 * (f1 + 2 ^ 5 * (f2 + 2 ^ 3 * (f3 + 2 ^ 6 * (f4 + 2 ^ 1 * f5))))) := by omega
  rw [e]
  exact ⟨low_packed _ _ hm,
    (fld_step _ _ 7 0 5 hm).trans (fld_zero _ _ _ h0),
    (fld_step _ _ 7 5 5 hm).trans ((fld_step _ _ 5 0 5 h0).trans (fld_zero _ _ _ h1)),
    (fld_step _ _ 7 10 3 hm).trans ((fld_step _ _ 5 5 3 h0).trans ((fld_step _ _ 5 0 3 h1).trans (fld_zero _ _ _ h2))),
    (fld_step _ _ 7 13 6 hm).trans ((fld_step _ _ 5 8 6 h0).trans ((fld_step _ _ 5 3 6 h1).trans ((fld_step _ _ 3 0 6 h2).trans (fld_zero _ _ _ h3)))),
    (fld_step _ _ 7 19 1 hm).trans ((fld_step _ _ 5 14 1 h0).trans ((fld_step _ _ 5 9 1 h1).trans ((fld_step _ _ 3 6 1 h2).trans ((fld_step _ _ 6 0 1 h3).trans (fld_zero _ _ _ h4))))),
    (fld_step _ _ 7 20 5 hm).trans ((fld_step _ _ 5 15 5 h0).trans ((fld_step _ _ 5 10 5 h1).trans ((fld_step _ _ 3 7 5 h2).trans ((fld_step _ _ 6 1 5 h3).trans ((fld_step _ _ 1 0 5 h4).trans (fld_last _ _ h5))))))⟩

theorem shape16 (m f0 f1 f2 f3 f4 f5 w : Nat) (hm : m < 128) (h0 : f0 < 2 ^ 5) (h1 : f1 < 2 ^ 5) (h2 : f2 < 2 ^ 3) (h3 : f3 < 2 ^ 5) (h4 : f4 < 2 ^ 2) (h5 : f5 < 2 ^ 5)
    (hw : w = m + f0 * 128 + f1 * 4096 + f2 * 131072 + f3 * 1048576 + f4 * 33554432 + f5 * 134217728) :
    w % 128 = m ∧ fld w 7 5 = f0 ∧ fld w 12 5 = f1 ∧ fld w 17 3 = f2 ∧ fld w 20 5 = f3 ∧ fld w 25 2 = f4 ∧ fld w 27 5 = f5 := by
  have e : w = m + 2 ^ 7 * (f0 + 2 ^ 5 * (f1 + 2 ^ 5 * (f2 + 2 ^ 3 * (f3 + 2 ^ 5 * (f4 + 2 ^ 2 * f5))))) := by omega
  rw [e]
  exact ⟨low_packed _ _ hm,
    (fld_step _ _ 7 0 5 hm).trans (fld_zero _ _ _ h0),
    (fld_step _ _ 7 5 5 hm).trans ((fld_step _ _ 5 0 5 h0).trans (fld_zero _ _ _ h1)),
    (fld_step _ _ 7 10 3 hm).trans ((fld_step _ _ 5 5 3 h0).trans ((fld_step _ _ 5 0 3 h1).trans (fld_zero _ _ _ h2))),
    (fld_step _ _ 7 13 5 hm).trans ((fld_step _ _ 5 8 5 h0).trans ((fld_step _ _ 5 3 5 h1).trans ((fld_step _ _ 3 0 5 h2).trans (fld_zero _ _ _ h3)))),
    (fld_step _ _ 7 18 2 hm).trans ((fld_step _ _ 5 13 2 h0).trans ((fld_step _ _ 5 8 2 h1).trans ((fld_step _ _ 3 5 2 h2).trans ((fld_step _ _ 5 0 2 h3).trans (fld_zero _ _ _ h4))))),
    (fld_step _ _ 7 20 5 hm).trans ((fld_step _ _ 5 15 5 h0).trans ((fld_step _ _ 5 10 5 h1).trans ((fld_step _ _ 3 7 5 h2).trans ((fld_step _ _ 5 2 5 h3).trans ((fld_step _ _ 2 0 5 h4).trans (fld_last _ _ h5))))))⟩

theorem shape17 (m f0 f1 f2 f3 f4 f5 f6 f7 w : Nat) (hm : m < 128) (h0 : f0 < 2 ^ 5) (h1 : f1 < 2 ^ 5) (h2 : f2 < 2 ^ 5) (h3 : f3 < 2 ^ 1) (h4 : f4 < 2 ^ 2) (h5 : f5 < 2 ^ 2) (h6 : f6 < 2 ^ 1) (h7 : f7 < 2 ^ 4)
    (hw : w = m + f0 * 128 + f1 * 4096 + f2 * 131072 + f3 * 4194304 + f4 * 8388608 + f5 * 33554432 + f6 * 134217728 + f7 * 268435456) :
    w % 128 = m ∧ fld w 7 5 = f0 ∧ fld w 12 5 = f1 ∧ fld w 17 5 = f2 ∧ fld w 22 1 = f3 ∧ fld w 23 2 = f4 ∧ fld w 25 2 = f5 ∧ fld w 27 1 = f6 ∧ fld w 28 4 = f7 := by
  have e : w = m + 2 ^ 7 * (f0 + 2 ^ 5 * (f1 + 2 ^ 5 * (f2 + 2 ^ 5 * (f3 + 2 ^ 1 * (f4 + 2 ^ 2 * (f5 + 2 ^ 2 * (f6 + 2 ^ 1 * f7))))))) := by omega
  rw [e]
  exact ⟨low_packed _ _ hm,
    (fld_step _ _ 7 0 5 hm).trans (fld_zero _ _ _ h0),
    (fld_step _ _ 7 5 5 hm).trans ((fld_step _ _ 5 0 5 h0).trans (fld_zero _ _ _ h1)),
    (fld_step _ _ 7 10 5 hm).trans ((fld_step _ _ 5 5 5 h0).trans ((fld_step _ _ 5 0 5 h1).trans (fld_zero _ _ _ h2))),
    (fld_step _ _ 7 15 1 hm).trans ((fld_step _ _ 5 10 1 h0).trans ((fld_step _ _ 5 5 1 h1).trans ((fld_step _ _ 5 0 1 h2).trans (fld_zero _ _ _ h3)))),
    (fld_step _ _ 7 16 2 hm).trans ((fld_step _ _ 5 11 2 h0).trans ((fld_step _ _ 5 6 2 h1).trans ((fld_step _ _ 5 1 2 h2).trans ((fld_step _ _ 1 0 2 h3).trans (fld_zero _ _ _ h4))))),
    (fld_step _ _ 7 18 2 hm).trans ((fld_step _ _ 5 13 2 h0).trans ((fld_step _ _ 5 8 2 h1).trans ((fld_step _ _ 5 3 2 h2).trans ((fld_step _ _ 1 2 2 h3).trans ((fld_step _ _ 2 0 2 h4).trans (fld_zero _ _ _ h5)))))),
    (fld_step _ _ 7 20 1 hm).trans ((fld_step _ _ 5 15 1 h0).trans ((fld_step _ _ 5 10 1 h1).trans ((fld_step _ _ 5 5 1 h2).trans ((fld_step _ _ 1 4 1 h3).trans ((fld_step _ _ 2 2 1 h4).trans ((fld_step _ _ 2 0 1 h5).trans (fld_zero _ _ _ h6))))))),
    (fld_step _ _ 7 21 4 hm).trans ((fld_step _ _ 5 16 4 h0).trans ((fld_step _ _ 5 11 4 h1).trans ((fld_step _ _ 5 6 4 h2).trans ((fld_step _ _ 1 5 4 h3).trans ((fld_step _ _ 2 3 4 h4).trans ((fld_step _ _ 2 1 4 h5).trans ((fld_step _ _ 1 0 4 h6).trans (fld_last _ _ h7))))))))⟩

theorem shape18 (m f0 f1 f2 f3 f4 f5 f6 w : Nat) (hm : m < 128) (h0 : f0 < 2 ^ 5) (h1 : f1 < 2 ^ 5) (h2 : f2 < 2 ^ 5) (h3 : f3 < 2 ^ 1) (h4 : f4 < 2 ^ 2) (h5 : f5 < 2 ^ 2) (h6 : f6 < 2 ^ 5)
    (hw : w = m + f0 * 128 + f1 * 4096 + f2 * 131072 + f3 * 4194304 + f4 * 8388608 + f5 * 33554432 + f6 * 134217728) :
    w % 128 = m ∧ fld w 7 5 = f0 ∧ fld w 12 5 = f1 ∧ fld w 17 5 = f2 ∧ fld w 22 1 = f3 ∧ fld w 23 2 = f4 ∧ fld w 25 2 = f5 ∧ fld w 27 5 = f6 := by
  have e : w = m + 2 ^ 7 * (f0 + 2 ^ 5 * (f1 + 2 ^ 5 * (f2 + 2 ^ 5 * (f3 + 2 ^ 1 * (f4 + 2 ^ 2 * (f5 + 2 ^ 2 * f6)))))) := by omega
  rw [e]
  exact ⟨low_packed _ _ hm,
    (fld_step _ _ 7 0 5 hm).trans (fld_zero _ _ _ h0),
    (fld_step _ _ 7 5 5 hm).trans ((fld_step _ _ 5 0 5 h0).trans (fld_zero _ _ _ h1)),
    (fld_step _ _ 7 10 5 hm).trans ((fld_step _ _ 5 5 5 h0).trans ((fld_step _ _ 5 0 5 h1).trans (fld_zero _ _ _ h2))),
    (fld_step _ _ 7 15 1 hm).trans ((fld_step _ _ 5 10 1 h0).trans ((fld_step _ _ 5 5 1 h1).trans ((fld_step _ _ 5 0 1 h2).trans (fld_zero _ _ _ h3)))),
    (fld_step _ _ 7 16 2 hm).trans ((fld_step _ _ 5 11 2 h0).trans ((fld_step _ _ 5 6 2 h1).trans ((fld_step _ _ 5 1 2 h2).trans ((fld_step _ _ 1 0 2 h3).trans (fld_zero _ _ _ h4))))),
    (fld_step _ _ 7 18 2 hm).trans ((fld_step _ _ 5 13 2 h0).trans ((fld_step _ _ 5 8 2 h1).trans ((fld_step _ _ 5 3 2 h2).trans ((fld_step _ _ 1 2 2 h3).trans ((fld_step _ _ 2 0 2 h4).trans (fld_zero _ _ _ h5)))))),
    (fld_step _ _ 7 20 5 hm).trans ((fld_step _ _ 5 15 5 h0).trans ((fld_step _ _ 5 10 5 h1).trans ((fld_step _ _ 5 5 5 h2).trans ((fld_step _ _ 1 4 5 h3).trans ((fld_step _ _ 2 2 5 h4).trans ((fld_step _ _ 2 0 5 h5).trans (fld_last _ _ h6)))))))⟩

theorem shape19 (m f0 f1 f2 f3 f4 f5 w : Nat) (hm : m < 128) (h0 : f0 < 2 ^ 5) (h1 : f1 < 2 ^ 5) (h2 : f2 < 2 ^ 8) (h3 : f3 < 2 ^ 2) (h4 : f4 < 2 ^ 1) (h5 : f5 < 2 ^ 4)
    (hw : w = m + f0 * 128 + f1 * 4096 + f2 * 131072 + f3 * 33554432 + f4 * 134217728 + f5 * 268435456) :
    w % 128 = m ∧ fld w 7 5 = f0 ∧ fld w 12 5 = f1 ∧ fld w 17 8 = f2 ∧ fld w 25 2 = f3 ∧ fld w 27 1 = f4 ∧ fld w 28 4 = f5 := by
  have e : w = m + 2 ^ 7 * (f0 + 2 ^ 5 * (f1 + 2 ^ 5 * (f2 + 2 ^ 8 * (f3 + 2 ^ 2 * (f4 + 2 ^ 1 * f5))))) := by omega
  rw [e]
  exact ⟨low_packed _ _ hm,
    (fld_step _ _ 7 0 5 hm).trans (fld_zero _ _ _ h0),
    (fld_step _ _ 7 5 5 hm).trans ((fld_step _ _ 5 0 5 h0).trans (fld_zero _ _ _ h1)),
    (fld_step _ _ 7 10 8 hm).trans ((fld_step _ _ 5 5 8 h0).trans ((fld_step _ _ 5 0 8 h1).trans (fld_zero _ _ _ h2))),
    (fld_step _ _ 7 18 2 hm).trans ((fld_step _ _ 5 13 2 h0).trans ((fld_step _ _ 5 8 2 h1).trans ((fld_step _ _ 8 0 2 h2).trans (fld_zero _ _ _ h3)))),
    (fld_step _ _ 7 20 1 hm).trans ((fld_step _ _ 5 15 1 h0).trans ((fld_step _ _ 5 10 1 h1).trans ((fld_step _ _ 8 2 1 h2).trans ((fld_step _ _ 2 0 1 h3).trans (fld_zero _ _ _ h4))))),
    (fld_step _ _ 7 21 4 hm).trans ((fld_step _ _ 5 16 4 h0).trans ((fld_step _ _ 5 11 4 h1).trans ((fld_step _ _ 8 3 4 h2).trans ((fld_step _ _ 2 1 4 h3).trans ((fld_step _ _ 1 0 4 h4).trans (fld_last _ _ h5))))))⟩

theorem shape20 (m f0 f1 f2 f3 f4 f5 f6 w : Nat) (hm : m < 128) (h0 : f0 < 2 ^ 5) (h1 : f1 < 2 ^ 5) (h2 : f2 < 2 ^ 5) (h3 : f3 < 2 ^ 3) (h4 : f4 < 2 ^ 2) (h5 : f5 < 2 ^ 1) (h6 : f6 < 2 ^ 4)
    (hw : w = m + f0 * 128 + f1 * 4096 + f2 * 131072 + f3 * 4194304 + f4 * 33554432 + f5 * 134217728 + f6 * 268435456) :
    w % 128 = m ∧ fld w 7 5 = f0 ∧ fld w 12 5 = f1 ∧ fld w 17 5 = f2 ∧ fld w 22 3 = f3 ∧ fld w 25 2 = f4 ∧ fld w 27 1 = f5 ∧ fld w 28 4 = f6 := by
  have e : w = m + 2 ^ 7 * (f0 + 2 ^ 5 * (f1 + 2 ^ 5 * (f2 + 2 ^ 5 * (f3 + 2 ^ 3 * (f4 + 2 ^ 2 * (f5 + 2 ^ 1 * f6)))))) := by omega
  rw [e]
  exact ⟨low_packed _ _ hm,
    (fld_step _ _ 7 0 5 hm).trans (fld_zero _ _ _ h0),
    (fld_step _ _ 7 5 5 hm).trans ((fld_step _ _ 5 0 5 h0).trans (fld_zero _ _ _ h1)),
    (fld_step _ _ 7 10 5 hm).trans ((fld_step _ _ 5 5 5 h0).trans ((fld_step _ _ 5 0 5 h1).trans (fld_zero _ _ _ h2))),
    (fld_step _ _ 7 15 3 hm).trans ((fld_step _ _ 5 10 3 h0).trans ((fld_step _ _ 5 5 3 h1).trans ((fld_step _ _ 5 0 3 h2).trans (fld_zero _ _ _ h3)))),
    (fld_step _ _ 7 18 2 hm).trans ((fld_step _ _ 5 13 2 h0).trans ((fld_step _ _ 5 8 2 h1).trans ((fld_step _ _ 5 3 2 h2).trans ((fld_step _ _ 3 0 2 h3).trans (fld_zero _ _ _ h4))))),
    (fld_step _ _ 7 20 1 hm).trans ((fld_step _ _ 5 15 1 h0).trans ((fld_step _ _ 5 10 1 h1).trans ((fld_step _ _ 5 5 1 h2).trans ((fld_step _ _ 3 2 1 h3).trans ((fld_step _ _ 2 0 1 h4).trans (fld_zero _ _ _ h5)))))),
    (fld_step _ _ 7 21 4 hm).trans ((fld_step _ _ 5 16 4 h0).trans ((fld_step _ _ 5 11 4 h1).trans ((fld_step _ _ 5 6 4 h2).trans ((fld_step _ _ 3 3 4 h3).trans ((fld_step _ _ 2 1 4 h4).trans ((fld_step _ _ 1 0 4 h5).trans (fld_last _ _ h6)))))))⟩

theorem shape21 (m f0 f1 f2 f3 f4 f5 f6 w : Nat) (hm : m < 128) (h0 : f0 < 2 ^ 13) (h1 : f1 < 2 ^ 1) (h2 : f2 < 2 ^ 1) (h3 : f3 < 2 ^ 1) (h4 : f4 < 2 ^ 1) (h5 : f5 < 2 ^ 2) (h6 : f6 < 2 ^ 6)
    (hw : w = m + f0 * 128 + f1 * 1048576 + f2 * 2097152 + f3 * 4194304 + f4 * 8388608 + f5 * 16777216 + f6 * 67108864) :
    w % 128 = m ∧ fld w 7 13 = f0 ∧ fld w 20 1 = f1 ∧ fld w 21 1 = f2 ∧ fld w 22 1 = f3 ∧ fld w 23 1 = f4 ∧ fld w 24 2 = f5 ∧ fld w 26 6 = f6 := by
  have e : w = m + 2 ^ 7 * (f0 + 2 ^ 13 * (f1 + 2 ^ 1 * (f2 + 2 ^ 1 * (f3 + 2 ^ 1 * (f4 + 2 ^ 1 * (f5 + 2 ^ 2 * f6)))))) := by omega
  rw [e]
  exact ⟨low_packed _ _ hm,
    (fld_step _ _ 7 0 13 hm).trans (fld_zero _ _ _ h0),
    (fld_step _ _ 7 13 1 hm).trans ((fld_step _ _ 13 0 1 h0).trans (fld_zero _ _ _ h1)),
    (fld_step _ _ 7 14 1 hm).trans ((fld_step _ _ 13 1 1 h0).trans ((fld_step _ _ 1 0 1 h1).trans (fld_zero _ _ _ h2))),
    (fld_step _ _ 7 15 1 hm).trans ((fld_step _ _ 13 2 1 h0).trans ((fld_step _ _ 1 1 1 h1).trans ((fld_step _ _ 1 0 1 h2).trans (fld_zero _ _ _ h3)))),
    (fld_step _ _ 7 16 1 hm).trans ((fld_step _ _ 13 3 1 h0).trans ((fld_step _ _ 1 2 1 h1).trans ((fld_step _ _ 1 1 1 h2).trans ((fld_step _ _ 1 0 1 h3).trans (fld_zero _ _ _ h4))))),
    (fld_step _ _ 7 17 2 hm).trans ((fld_step _ _ 13 4 2 h0).trans ((fld_step _ _ 1 3 2 h1).trans ((fld_step _ _ 1 2 2 h2).trans ((fld_step _ _ 1 1 2 h3).trans ((fld_step _ _ 1 0 2 h4).trans (fld_zero _ _ _ h5)))))),
    (fld_step _ _ 7 19 6 hm).trans ((fld_step _ _ 13 6 6 h0).trans ((fld_step _ _ 1 5 6 h1).trans ((fld_step _ _ 1 4 6 h2).trans ((fld_step _ _ 1 3 6 h3).trans ((fld_step _ _ 1 2 6 h4).trans ((fld_step _ _ 2 0 6 h5).trans (fld_last _ _ h6)))))))⟩

theorem shape22 (m f0 f1 f2 f3 f4 w : Nat) (hm : m < 128) (h0 : f0 < 2 ^ 5) (h1 : f1 < 2 ^ 5) (h2 : f2 < 2 ^ 8) (h3 : f3 < 2 ^ 2) (h4 : f4 < 2 ^ 5)
    (hw : w = m + f0 * 128 + f1 * 4096 + f2 * 131072 + f3 * 33554432 + f4 * 134217728) :
    w % 128 = m ∧ fld w 7 5 = f0 ∧ fld w 12 5 = f1 ∧ fld w 17 8 = f2 ∧ fld w 25 2 = f3 ∧ fld w 27 5 = f4 := by
  have e : w = m + 2 ^ 7 * (f0 + 2 ^ 5 * (f1 + 2 ^ 5 * (f2 + 2 ^ 8 * (f3 + 2 ^ 2 * f4)))) := by omega
  rw [e]
  exact ⟨low_packed _ _ hm,
    (fld_step _ _ 7 0 5 hm).trans (fld_zero _ _ _ h0),
    (fld_step _ _ 7 5 5 hm).trans ((fld_step _ _ 5 0 5 h0).trans (fld_zero _ _ _ h1)),
    (fld_step _ _ 7 10 8 hm).trans ((fld_step _ _ 5 5 8 h0).trans ((fld_step _ _ 5 0 8 h1).trans (fld_zero _ _ _ h2))),
    (fld_step _ _ 7 18 2 hm).trans ((fld_step _ _ 5 13 2 h0).trans ((fld_step _ _ 5 8 2 h1).trans ((fld_step _ _ 8 0 2 h2).trans (fld_zero _ _ _ h3)))),
    (fld_step _ _ 7 20 5 hm).trans ((fld_step _ _ 5 15 5 h0).trans ((fld_step _ _ 5 10 5 h1).trans ((fld_step _ _ 8 2 5 h2).trans ((fld_step _ _ 2 0 5 h3).trans (fld_last _ _ h4)))))⟩

theorem shape23 (m f0 f1 f2 f3 f4 f5 w : Nat) (hm : m < 128) (h0 : f0 < 2 ^ 5) (h1 : f1 < 2 ^ 5) (h2 : f2 < 2 ^ 5) (h3 : f3 < 2 ^ 3) (h4 : f4 < 2 ^ 2) (h5 : f5 < 2 ^ 5)
    (hw : w = m + f0 * 128 + f1 * 4096 + f2 * 131072 + f3 * 4194304 + f4 * 33554432 + f5 * 134217728) :
    w % 128 = m ∧ fld w 7 5 = f0 ∧ fld w 12 5 = f1 ∧ fld w 17 5 = f2 ∧ fld w 22 3 = f3 ∧ fld w 25 2 = f4 ∧ fld w 27 5 = f5 := by
  have e : w = m + 2 ^ 7 * (f0 + 2 ^ 5 * (f1 + 2 ^ 5 * (f2 + 2 ^ 5 * (f3 + 2 ^ 3 * (f4 + 2 ^ 2 * f5))))) := by omega
  rw [e]
  exact ⟨low_packed _ _ hm,
    (fld_step _ _ 7 0 5 hm).trans (fld_zero _ _ _ h0),
    (fld_step _ _ 7 5 5 hm).trans ((fld_step _ _ 5 0 5 h0).trans (fld_zero _ _ _ h1)),
    (fld_step _ _ 7 10 5 hm).trans ((fld_step _ _ 5 5 5 h0).trans ((fld_step _ _ 5 0 5 h1).trans (fld_zero _ _ _ h2))),
    (fld_step _ _ 7 15 3 hm).trans ((fld_step _ _ 5 10 3 h0).trans ((fld_step _ _ 5 5 3 h1).trans ((fld_step _ _ 5 0 3 h2).trans (fld_zero _ _ _ h3)))),
    (fld_step _ _ 7 18 2 hm).trans ((fld_step _ _ 5 13 2 h0).trans ((fld_step _ _ 5 8 2 h1).trans ((fld_step _ _ 5 3 2 h2).trans ((fld_step _ _ 3 0 2 h3).trans (fld_zero _ _ _ h4))))),
    (fld_step _ _ 7 20 5 hm).trans ((fld_step _ _ 5 15 5 h0).trans ((fld_step _ _ 5 10 5 h1).trans ((fld_step _ _ 5 5 5 h2).trans ((fld_step _ _ 3 2 5 h3).trans ((fld_step _ _ 2 0 5 h4).trans (fld_last _ _ h5))))))⟩

theorem shape24 (m f0 f1 f2 w : Nat) (hm : m < 128) (h0 : f0 < 2 ^ 5) (h1 : f1 < 2 ^ 3) (h2 : f2 < 2 ^ 17)
    (hw : w = m + f0 * 128 + f1 * 4096 + f2 * 32768) :
    w % 128 = m ∧ fld w 7 5 = f0 ∧ fld w 12 3 = f1 ∧ fld w 15 17 = f2 := by
  have e : w = m + 2 ^ 7 * (f0 + 2 ^ 5 * (f1 + 2 ^ 3 * f2)) := by omega
  rw [e]
  exact ⟨low_packed _ _ hm,
    (fld_step _ _ 7 0 5 hm).trans (fld_zero _ _ _ h0),
    (fld_step _ _ 7 5 3 hm).trans ((fld_step _ _ 5 0 3 h0).trans (fld_zero _ _ _ h1)),
    (fld_step _ _ 7 8 17 hm).trans ((fld_step _ _ 5 3 17 h0).trans ((fld_step _ _ 3 0 17 h1).trans (fld_last _ _ h2)))⟩

theorem shape25 (m f0 f1 f2 f3 f4 f5 f6 w : Nat) (hm : m < 128) (h0 : f0 < 2 ^ 5) (h1 : f1 < 2 ^ 5) (h2 : f2 < 2 ^ 3) (h3 : f3 < 2 ^ 5) (h4 : f4 < 2 ^ 3) (h5 : f5 < 2 ^ 2) (h6 : f6 < 2 ^ 2)
    (hw : w = m + f0 * 128 + f1 * 4096 + f2 * 131072 + f3 * 1048576 + f4 * 33554432 + f5 * 268435456 + f6 * 1073741824) :
    w % 128 = m ∧ fld w 7 5 = f0 ∧ fld w 12 5 = f1 ∧ fld w 17 3 = f2 ∧ fld w 20 5 = f3 ∧ fld w 25 3 = f4 ∧ fld w 28 2 = f5 ∧ fld w 30 2 = f6 := by
  have e : w = m + 2 ^ 7 * (f0 + 2 ^ 5 * (f1 + 2 ^ 5 * (f2 + 2 ^ 3 * (f3 + 2 ^ 5 * (f4 + 2 ^ 3 * (f5 + 2 ^ 2 * f6)))))) := by omega
  rw [e]
  exact ⟨low_packed _ _ hm,
    (fld_step _ _ 7 0 5 hm).trans (fld_zero _ _ _ h0),
    (fld_step _ _ 7 5 5 hm).trans ((fld_step _ _ 5 0 5 h0).trans (fld_zero _ _ _ h1)),
    (fld_step _ _ 7 10 3 hm).trans ((fld_step _ _ 5 5 3 h0).trans ((fld_step _ _ 5 0 3 h1).trans (fld_zero _ _ _ h2))),
    (fld_step _ _ 7 13 5 hm).trans ((fld_step _ _ 5 8 5 h0).trans ((fld_step _ _ 5 3 5 h1).trans ((fld_step _ _ 3 0 5 h2).trans (fld_zero _ _ _ h3)))),
    (fld_step _ _ 7 18 3 hm).trans ((fld_step _ _ 5 13 3 h0).trans ((fld_step _ _ 5 8 3 h1).trans ((fld_step _ _ 3 5 3 h2).trans ((fld_step _ _ 5 0 3 h3).trans (fld_zero _ _ _ h4))))),
    (fld_step _ _ 7 21 2 hm).trans ((fld_step _ _ 5 16 2 h0).trans ((fld_step _ _ 5 11 2 h1).trans ((fld_step _ _ 3 8 2 h2).trans ((fld_step _ _ 5 3 2 h3).trans ((fld_step _ _ 3 0 2 h4).trans (fld_zero _ _ _ h5)))))),
    (fld_step _ _ 7 23 2 hm).trans ((fld_step _ _ 5 18 2 h0).trans ((fld_step _ _ 5 13 2 h1).trans ((fld_step _ _ 3 10 2 h2).trans ((fld_step _ _ 5 5 2 h3).trans ((fld_step _ _ 3 2 2 h4).trans ((fld_step _ _ 2 0 2 h5).trans (fld_last _ _ h6)))))))⟩

theorem shape26 (m f0 f1 f2 f3 f4 f5 w : Nat) (hm : m < 128) (h0 : f0 < 2 ^ 5) (h1 : f1 < 2 ^ 5) (h2 : f2 < 2 ^ 6) (h3 : f3 < 2 ^ 1) (h4 : f4 < 2 ^ 3) (h5 : f5 < 2 ^ 5)
    (hw : w = m + f0 * 128 + f1 * 4096 + f2 * 131072 + f3 * 8388608 + f4 * 16777216 + f5 * 134217728) :
    w % 128 = m ∧ fld w 7 5 = f0 ∧ fld w 12 5 = f1 ∧ fld w 17 6 = f2 ∧ fld w 23 1 = f3 ∧ fld w 24 3 = f4 ∧ fld w 27 5 = f5 := by
  have e : w = m + 2 ^ 7 * (f0 + 2 ^ 5 * (f1 + 2 ^ 5 * (f2 + 2 ^ 6 * (f3 + 2 ^ 1 * (f4 + 2 ^ 3 * f5))))) := by omega
  rw [e]
  exact ⟨low_packed _ _ hm,
    (fld_step _ _ 7 0 5 hm).trans (fld_zero _ _ _ h0),
    (fld_step _ _ 7 5 5 hm).trans ((fld_step _ _ 5 0 5 h0).trans (fld_zero _ _ _ h1)),
    (fld_step _ _ 7 10 6 hm).trans ((fld_step _ _ 5 5 6 h0).trans ((fld_step _ _ 5 0 6 h1).trans (fld_zero _ _ _ h2))),
    (fld_step _ _ 7 16 1 hm).trans ((fld_step _ _ 5 11 1 h0).trans ((fld_step _ _ 5 6 1 h1).trans ((fld_step _ _ 6 0 1 h2).trans (fld_zero _ _ _ h3)))),
    (fld_step _ _ 7 17 3 hm).trans ((fld_step _ _ 5 12 3 h0).trans ((fld_step _ _ 5 7 3 h1).trans ((fld_step _ _ 6 1 3 h2).trans ((fld_step _ _ 1 0 3 h3).trans (fld_zero _ _ _ h4))))),
    (fld_step _ _ 7 20 5 hm).trans ((fld_step _ _ 5 15 5 h0).trans ((fld_step _ _ 5 10 5 h1).trans ((fld_step _ _ 6 4 5 h2).trans ((fld_step _ _ 1 3 5 h3).trans ((fld_step _ _ 3 0 5 h4).trans (fld_last _ _ h5))))))⟩

theorem shape27 (m f0 f1 f2 f3 f4 w : Nat) (hm : m < 128) (h0 : f0 < 2 ^ 5) (h1 : f1 < 2 ^ 5) (h2 : f2 < 2 ^ 7) (h3 : f3 < 2 ^ 3) (h4 : f4 < 2 ^ 5)
    (hw : w = m + f0 * 128 + f1 * 4096 + f2 * 131072 + f3 * 16777216 + f4 * 134217728) :
    w % 128 = m ∧ fld w 7 5 = f0 ∧ fld w 12 5 = f1 ∧ fld w 17 7 = f2 ∧ fld w 24 3 = f3 ∧ fld w 27 5 = f4 := by
  have e : w = m + 2 ^ 7 * (f0 + 2 ^ 5 * (f1 + 2 ^ 5 * (f2 + 2 ^ 7 * (f3 + 2 ^ 3 * f4)))) := by omega
  rw [e]
  exact ⟨low_packed _ _ hm,
    (fld_step _ _ 7 0 5 hm).trans (fld_zero _ _ _ h0),
    (fld_step _ _ 7 5 5 hm).trans ((fld_step _ _ 5 0 5 h0).trans (fld_zero _ _ _ h1)),
    (fld_step _ _ 7 10 7 hm).trans ((fld_step _ _ 5 5 7 h0).trans ((fld_step _ _ 5 0 7 h1).trans (fld_zero _ _ _ h2))),
    (fld_step _ _ 7 17 3 hm).trans ((fld_step _ _ 5 12 3 h0).trans ((fld_step _ _ 5 7 3 h1).trans ((fld_step _ _ 7 0 3 h2).trans (fld_zero _ _ _ h3)))),
    (fld_step _ _ 7 20 5 hm).trans ((fld_step _ _ 5 15 5 h0).trans ((fld_step _ _ 5 10 5 h1).trans ((fld_step _ _ 7 3 5 h2).trans ((fld_step _ _ 3 0 5 h3).trans (fld_last _ _ h4)))))⟩

theorem shape28 (m f0 f1 f2 f3 f4 f5 f6 w : Nat) (hm : m < 128) (h0 : f0 < 2 ^ 5) (h1 : f1 < 2 ^ 5) (h2 : f2 < 2 ^ 5) (h3 : f3 < 2 ^ 1) (h4 : f4 < 2 ^ 1) (h5 : f5 < 2 ^ 3) (h6 : f6 < 2 ^ 5)
    (hw : w = m + f0 * 128 + f1 * 4096 + f2 * 131072 + f3 * 4194304 + f4 * 8388608 + f5 * 16777216 + f6 * 134217728) :
    w % 128 = m ∧ fld w 7 5 = f0 ∧ fld w 12 5 = f1 ∧ fld w 17 5 = f2 ∧ fld w 22 1 = f3 ∧ fld w 23 1 = f4 ∧ fld w 24 3 = f5 ∧ fld w 27 5 = f6 := by
  have e : w = m + 2 ^ 7 * (f0 + 2 ^ 5 * (f1 + 2 ^ 5 * (f2 + 2 ^ 5 * (f3 + 2 ^ 1 * (f4 + 2 ^ 1 * (f5 + 2 ^ 3 * f6)))))) := by omega
  rw [e]
  exact ⟨low_packed _ _ hm,
    (fld_step _ _ 7 0 5 hm).trans (fld_zero _ _ _ h0),
    (fld_step _ _ 7 5 5 hm).trans ((fld_step _ _ 5 0 5 h0).trans (fld_zero _ _ _ h1)),
    (fld_step _ _ 7 10 5 hm).trans ((fld_step _ _ 5 5 5 h0).trans ((fld_step _ _ 5 0 5 h1).trans (fld_zero _ _ _ h2))),
    (fld_step _ _ 7 15 1 hm).trans ((fld_step _ _ 5 10 1 h0).trans ((fld_step _ _ 5 5 1 h1).trans ((fld_step _ _ 5 0 1 h2).trans (fld_zero _ _ _ h3)))),
    (fld_step _ _ 7 16 1 hm).trans ((fld_step _ _ 5 11 1 h0).trans ((fld_step _ _ 5 6 1 h1).trans ((fld_step _ _ 5 1 1 h2).trans ((fld_step _ _ 1 0 1 h3).trans (fld_zero _ _ _ h4))))),
    (fld_step _ _ 7 17 3 hm).trans ((fld_step _ _ 5 12 3 h0).trans ((fld_step _ _ 5 7 3 h1).trans ((fld_step _ _ 5 2 3 h2).trans ((fld_step _ _ 1 1 3 h3).trans ((fld_step _ _ 1 0 3 h4).trans (fld_zero _ _ _ h5)))))),
    (fld_step _ _ 7 20 5 hm).trans ((fld_step _ _ 5 15 5 h0).trans ((fld_step _ _ 5 10 5 h1).trans ((fld_step _ _ 5 5 5 h2).trans ((fld_step _ _ 1 4 5 h3).trans ((fld_step _ _ 1 3 5 h4).trans ((fld_step _ _ 3 0 5 h5).trans (fld_last _ _ h6)))))))⟩

theorem shape29 (m f0 f1 f2 f3 f4 f5 f6 w : Nat) (hm : m < 128) (h0 : f0 < 2 ^ 5) (h1 : f1 < 2 ^ 5) (h2 : f2 < 2 ^ 6) (h3 : f3 < 2 ^ 1) (h4 : f4 < 2 ^ 3) (h5 : f5 < 2 ^ 3) (h6 : f6 < 2 ^ 2)
    (hw : w = m + f0 * 128 + f1 * 4096 + f2 * 131072 + f3 * 8388608 + f4 * 16777216 + f5 * 134217728 + f6 * 1073741824) :
    w % 128 = m ∧ fld w 7 5 = f0 ∧ fld w 12 5 = f1 ∧ fld w 17 6 = f2 ∧ fld w 23 1 = f3 ∧ fld w 24 3 = f4 ∧ fld w 27 3 = f5 ∧ fld w 30 2 = f6 := by
  have e : w = m + 2 ^ 7 * (f0 + 2 ^ 5 * (f1 + 2 ^ 5 * (f2 + 2 ^ 6 * (f3 + 2 ^ 1 * (f4 + 2 ^ 3 * (f5 + 2 ^ 3 * f6)))))) := by omega
  rw [e]
  exact ⟨low_packed _ _ hm,
    (fld_step _ _ 7 0 5 hm).trans (fld_zero _ _ _ h0),
    (fld_step _ _ 7 5 5 hm).trans ((fld_step _ _ 5 0 5 h0).trans (fld_zero _ _ _ h1)),
    (fld_step _ _ 7 10 6 hm).trans ((fld_step _ _ 5 5 6 h0).trans ((fld_step _ _ 5 0 6 h1).trans (fld_zero _ _ _ h2))),
    (fld_step _ _ 7 16 1 hm).trans ((fld_step _ _ 5 11 1 h0).trans ((fld_step _ _ 5 6 1 h1).trans ((fld_step _ _ 6 0 1 h2).trans (fld_zero _ _ _ h3)))),
    (fld_step _ _ 7 17 3 hm).trans ((fld_step _ _ 5 12 3 h0).trans ((fld_step _ _ 5 7 3 h1).trans ((fld_step _ _ 6 1 3 h2).trans ((fld_step _ _ 1 0 3 h3).trans (fld_zero _ _ _ h4))))),
    (fld_step _ _ 7 20 3 hm).trans ((fld_step _ _ 5 15 3 h0).trans ((fld_step _ _ 5 10 3 h1).trans ((fld_step _ _ 6 4 3 h2).trans ((fld_step _ _ 1 3 3 h3).trans ((fld_step _ _ 3 0 3 h4).trans (fld_zero _ _ _ h5)))))),
    (fld_step _ _ 7 23 2 hm).trans ((fld_step _ _ 5 18 2 h0).trans ((fld_step _ _ 5 13 2 h1).trans ((fld_step _ _ 6 7 2 h2).trans ((fld_step _ _ 1 6 2 h3).trans ((fld_step _ _ 3 3 2 h4).trans ((fld_step _ _ 3 0 2 h5).trans (fld_last _ _ h6)))))))⟩

theorem shape30 (m f0 f1 f2 f3 f4 f5 f6 f7 w : Nat) (hm : m < 128) (h0 : f0 < 2 ^ 5) (h1 : f1 < 2 ^ 5) (h2 : f2 < 2 ^ 5) (h3 : f3 < 2 ^ 1) (h4 : f4 < 2 ^ 1) (h5 : f5 < 2 ^ 3) (h6 : f6 < 2 ^ 3) (h7 : f7 < 2 ^ 2)
    (hw : w = m + f0 * 128 + f1 * 4096 + f2 * 131072 + f3 * 4194304 + f4 * 8388608 + f5 * 16777216 + f6 * 134217728 + f7 * 1073741824) :
    w % 128 = m ∧ fld w 7 5 = f0 ∧ fld w 12 5 = f1 ∧ fld w 17 5 = f2 ∧ fld w 22 1 = f3 ∧ fld w 23 1 = f4 ∧ fld w 24 3 = f5 ∧ fld w 27 3 = f6 ∧ fld w 30 2 = f7 := by
  have e : w = m + 2 ^ 7 * (f0 + 2 ^ 5 * (f1 + 2 ^ 5 * (f2 + 2 ^ 5 * (f3 + 2 ^ 1 * (f4 + 2 ^ 1 * (f5 + 2 ^ 3 * (f6 + 2 ^ 3 * f7))))))) := by omega
  rw [e]
  exact ⟨low_packed _ _ hm,
    (fld_step _ _ 7 0 5 hm).trans (fld_zero _ _ _ h0),
    (fld_step _ _ 7 5 5 hm).trans ((fld_step _ _ 5 0 5 h0).trans (fld_zero _ _ _ h1)),
    (fld_step _ _ 7 10 5 hm).trans ((fld_step _ _ 5 5 5 h0).trans ((fld_step _ _ 5 0 5 h1).trans (fld_zero _ _ _ h2))),
    (fld_step _ _ 7 15 1 hm).trans ((fld_step _ _ 5 10 1 h0).trans ((fld_step _ _ 5 5 1 h1).trans ((fld_step _ _ 5 0 1 h2).trans (fld_zero _ _ _ h3)))),
    (fld_step _ _ 7 16 1 hm).trans ((fld_step _ _ 5 11 1 h0).trans ((fld_step _ _ 5 6 1 h1).trans ((fld_step _ _ 5 1 1 h2).trans ((fld_step _ _ 1 0 1 h3).trans (fld_zero _ _ _ h4))))),
    (fld_step _ _ 7 17 3 hm).trans ((fld_step _ _ 5 12 3 h0).trans ((fld_step _ _ 5 7 3 h1).trans ((fld_step _ _ 5 2 3 h2).trans ((fld_step _ _ 1 1 3 h3).trans ((fld_step _ _ 1 0 3 h4).trans (fld_zero _ _ _ h5)))))),
    (fld_step _ _ 7 20 3 hm).trans ((fld_step _ _ 5 15 3 h0).trans ((fld_step _ _ 5 10 3 h1).trans ((fld_step _ _ 5 5 3 h2).trans ((fld_step _ _ 1 4 3 h3).trans ((fld_step _ _ 1 3 3 h4).trans ((fld_step _ _ 3 0 3 h5).trans (fld_zero _ _ _ h6))))))),
    (fld_step _ _ 7 23 2 hm).trans ((fld_step _ _ 5 18 2 h0).trans ((fld_step _ _ 5 13 2 h1).trans ((fld_step _ _ 5 8 2 h2).trans ((fld_step _ _ 1 7 2 h3).trans ((fld_step _ _ 1 6 2 h4).trans ((fld_step _ _ 3 3 2 h5).trans ((fld_step _ _ 3 0 2 h6).trans (fld_last _ _ h7))))))))⟩

theorem shape31 (m f0 f1 f2 f3 f4 f5 w : Nat) (hm : m < 128) (h0 : f0 < 2 ^ 5) (h1 : f1 < 2 ^ 5) (h2 : f2 < 2 ^ 5) (h3 : f3 < 2 ^ 5) (h4 : f4 < 2 ^ 3) (h5 : f5 < 2 ^ 2)
    (hw : w = m + f0 * 128 + f1 * 4096 + f2 * 131072 + f3 * 4194304 + f4 * 134217728 + f5 * 1073741824) :
    w % 128 = m ∧ fld w 7 5 = f0 ∧ fld w 12 5 = f1 ∧ fld w 17 5 = f2 ∧ fld w 22 5 = f3 ∧ fld w 27 3 = f4 ∧ fld w 30 2 = f5 := by
  have e : w = m + 2 ^ 7 * (f0 + 2 ^ 5 * (f1 + 2 ^ 5 * (f2 + 2 ^ 5 * (f3 + 2 ^ 5 * (f4 + 2 ^ 3 * f5))))) := by omega
  rw [e]
  exact ⟨low_packed _ _ hm,
    (fld_step _ _ 7 0 5 hm).trans (fld_zero _ _ _ h0),
    (fld_step _ _ 7 5 5 hm).trans ((fld_step _ _ 5 0 5 h0).trans (fld_zero _ _ _ h1)),
    (fld_step _ _ 7 10 5 hm).trans ((fld_step _ _ 5 5 5 h0).trans ((fld_step _ _ 5 0 5 h1).trans (fld_zero _ _ _ h2))),
    (fld_step _ _ 7 15 5 hm).trans ((fld_step _ _ 5 10 5 h0).trans ((fld_step _ _ 5 5 5 h1).trans ((fld_step _ _ 5 0 5 h2).trans (fld_zero _ _ _ h3)))),
    (fld_step _ _ 7 20 3 hm).trans ((fld_step _ _ 5 15 3 h0).trans ((fld_step _ _ 5 10 3 h1).trans ((fld_step _ _ 5 5 3 h2).trans ((fld_step _ _ 5 0 3 h3).trans (fld_zero _ _ _ h4))))),
    (fld_step _ _ 7 23 2 hm).trans ((fld_step _ _ 5 18 2 h0).trans ((fld_step _ _ 5 13 2 h1).trans ((fld_step _ _ 5 8 2 h2).trans ((fld_step _ _ 5 3 2 h3).trans ((fld_step _ _ 3 0 2 h4).trans (fld_last _ _ h5))))))⟩

theorem shape32 (m f0 f1 f2 f3 f4 f5 f6 f7 w : Nat) (hm : m < 128) (h0 : f0 < 2 ^ 3) (h1 : f1 < 2 ^ 2) (h2 : f2 < 2 ^ 5) (h3 : f3 < 2 ^ 5) (h4 : f4 < 2 ^ 1) (h5 : f5 < 2 ^ 1) (h6 : f6 < 2 ^ 3) (h7 : f7 < 2 ^ 5)
    (hw : w = m + f0 * 128 + f1 * 1024 + f2 * 4096 + f3 * 131072 + f4 * 4194304 + f5 * 8388608 + f6 * 16777216 + f7 * 134217728) :
    w % 128 = m ∧ fld w 7 3 = f0 ∧ fld w 10 2 = f1 ∧ fld w 12 5 = f2 ∧ fld w 17 5 = f3 ∧ fld w 22 1 = f4 ∧ fld w 23 1 = f5 ∧ fld w 24 3 = f6 ∧ fld w 27 5 = f7 := by
  have e : w = m + 2 ^ 7 * (f0 + 2 ^ 3 * (f1 + 2 ^ 2 * (f2 + 2 ^ 5 * (f3 + 2 ^ 5 * (f4 + 2 ^ 1 * (f5 + 2 ^ 1 * (f6 + 2 ^ 3 * f7))))))) := by omega
  rw [e]
  exact ⟨low_packed _ _ hm,
    (fld_step _ _ 7 0 3 hm).trans (fld_zero _ _ _ h0),
    (fld_step _ _ 7 3 2 hm).trans ((fld_step _ _ 3 0 2 h0).trans (fld_zero _ _ _ h1)),
    (fld_step _ _ 7 5 5 hm).trans ((fld_step _ _ 3 2 5 h0).trans ((fld_step _ _ 2 0 5 h1).trans (fld_zero _ _ _ h2))),
    (fld_step _ _ 7 10 5 hm).trans ((fld_step _ _ 3 7 5 h0).trans ((fld_step _ _ 2 5 5 h1).trans ((fld_step _ _ 5 0 5 h2).trans (fld_zero _ _ _ h3)))),
    (fld_step _ _ 7 15 1 hm).trans ((fld_step _ _ 3 12 1 h0).trans ((fld_step _ _ 2 10 1 h1).trans ((fld_step _ _ 5 5 1 h2).trans ((fld_step _ _ 5 0 1 h3).trans (fld_zero _ _ _ h4))))),
    (fld_step _ _ 7 16 1 hm).trans ((fld_step _ _ 3 13 1 h0).trans ((fld_step _ _ 2 11 1 h1).trans ((fld_step _ _ 5 6 1 h2).trans ((fld_step _ _ 5 1 1 h3).trans ((fld_step _ _ 1 0 1 h4).trans (fld_zero _ _ _ h5)))))),
    (fld_step _ _ 7 17 3 hm).trans ((fld_step _ _ 3 14 3 h0).trans ((fld_step _ _ 2 12 3 h1).trans ((fld_step _ _ 5 7 3 h2).trans ((fld_step _ _ 5 2 3 h3).trans ((fld_step _ _ 1 1 3 h4).trans ((fld_step _ _ 1 0 3 h5).trans (fld_zero _ _ _ h6))))))),
    (fld_step _ _ 7 20 5 hm).trans ((fld_step _ _ 3 17 5 h0).trans ((fld_step _ _ 2 15 5 h1).trans ((fld_step _ _ 5 10 5 h2).trans ((fld_step _ _ 5 5 5 h3).trans ((fld_step _ _ 1 4 5 h4).trans ((fld_step _ _ 1 3 5 h5).trans ((fld_step _ _ 3 0 5 h6).trans (fld_last _ _ h7))))))))⟩

theorem shape33 (m f0 f1 f2 f3 f4 f5 w : Nat) (hm : m < 128) (h0 : f0 < 2 ^ 3) (h1 : f1 < 2 ^ 2) (h2 : f2 < 2 ^ 3) (h3 : f3 < 2 ^ 2) (h4 : f4 < 2 ^ 3) (h5 : f5 < 2 ^ 12)
    (hw : w = m + f0 * 128 + f1 * 1024 + f2 * 4096 + f3 * 32768 + f4 * 131072 + f5 * 1048576) :
    w % 128 = m ∧ fld w 7 3 = f0 ∧ fld w 10 2 = f1 ∧ fld w 12 3 = f2 ∧ fld w 15 2 = f3 ∧ fld w 17 3 = f4 ∧ fld w 20 12 = f5 := by
  have e : w = m + 2 ^ 7 * (f0 + 2 ^ 3 * (f1 + 2 ^ 2 * (f2 + 2 ^ 3 * (f3 + 2 ^ 2 * (f4 + 2 ^ 3 * f5))))) := by omega
  rw [e]
  exact ⟨low_packed _ _ hm,
    (fld_step _ _ 7 0 3 hm).trans (fld_zero _ _ _ h0),
    (fld_step _ _ 7 3 2 hm).trans ((fld_step _ _ 3 0 2 h0).trans (fld_zero _ _ _ h1)),
    (fld_step _ _ 7 5 3 hm).trans ((fld_step _ _ 3 2 3 h0).trans ((fld_step _ _ 2 0 3 h1).trans (fld_zero _ _ _ h2))),
    (fld_step _ _ 7 8 2 hm).trans ((fld_step _ _ 3 5 2 h0).trans ((fld_step _ _ 2 3 2 h1).trans ((fld_step _ _ 3 0 2 h2).trans (fld_zero _ _ _ h3)))),
    (fld_step _ _ 7 10 3 hm).trans ((fld_step _ _ 3 7 3 h0).trans ((fld_step _ _ 2 5 3 h1).trans ((fld_step _ _ 3 2 3 h2).trans ((fld_step _ _ 2 0 3 h3).trans (fld_zero _ _ _ h4))))),
    (fld_step _ _ 7 13 12 hm).trans ((fld_step _ _ 3 10 12 h0).trans ((fld_step _ _ 2 8 12 h1).trans ((fld_step _ _ 3 5 12 h2).trans ((fld_step _ _ 2 3 12 h3).trans ((fld_step _ _ 3 0 12 h4).trans (fld_last _ _ h5))))))⟩

theorem shape34 (m f0 f1 f2 f3 w : Nat) (hm : m < 128) (h0 : f0 < 2 ^ 3) (h1 : f1 < 2 ^ 2) (h2 : f2 < 2 ^ 3) (h3 : f3 < 2 ^ 17)
    (hw : w = m + f0 * 128 + f1 * 1024 + f2 * 4096 + f3 * 32768) :
    w % 128 = m ∧ fld w 7 3 = f0 ∧ fld w 10 2 = f1 ∧ fld w 12 3 = f2 ∧ fld w 15 17 = f3 := by
  have e : w = m + 2 ^ 7 * (f0 + 2 ^ 3 * (f1 + 2 ^ 2 * (f2 + 2 ^ 3 * f3))) := by omega
  rw [e]
  exact ⟨low_packed _ _ hm,
    (fld_step _ _ 7 0 3 hm).trans (fld_zero _ _ _ h0),
    (fld_step _ _ 7 3 2 hm).trans ((fld_step _ _ 3 0 2 h0).trans (fld_zero _ _ _ h1)),
    (fld_step _ _ 7 5 3 hm).trans ((fld_step _ _ 3 2 3 h0).trans ((fld_step _ _ 2 0 3 h1).trans (fld_zero _ _ _ h2))),
    (fld_step _ _ 7 8 17 hm).trans ((fld_step _ _ 3 5 17 h0).trans ((fld_step _ _ 2 3 17 h1).trans ((fld_step _ _ 3 0 17 h2).trans (fld_last _ _ h3))))⟩

theorem shape35 (m f0 f1 f2 f3 f4 w : Nat) (hm : m < 128) (h0 : f0 < 2 ^ 5) (h1 : f1 < 2 ^ 3) (h2 : f2 < 2 ^ 9) (h3 : f3 < 2 ^ 3) (h4 : f4 < 2 ^ 5)
    (hw : w = m + f0 * 128 + f1 * 4096 + f2 * 32768 + f3 * 16777216 + f4 * 134217728) :
    w % 128 = m ∧ fld w 7 5 = f0 ∧ fld w 12 3 = f1 ∧ fld w 15 9 = f2 ∧ fld w 24 3 = f3 ∧ fld w 27 5 = f4 := by
  have e : w = m + 2 ^ 7 * (f0 + 2 ^ 5 * (f1 + 2 ^ 3 * (f2 + 2 ^ 9 * (f3 + 2 ^ 3 * f4)))) := by omega
  rw [e]
  exact ⟨low_packed _ _ hm,
    (fld_step _ _ 7 0 5 hm).trans (fld_zero _ _ _ h0),
    (fld_step _ _ 7 5 3 hm).trans ((fld_step _ _ 5 0 3 h0).trans (fld_zero _ _ _ h1)),
    (fld_step _ _ 7 8 9 hm).trans ((fld_step _ _ 5 3 9 h0).trans ((fld_step _ _ 3 0 9 h1).trans (fld_zero _ _ _ h2))),
    (fld_step _ _ 7 17 3 hm).trans ((fld_step _ _ 5 12 3 h0).trans ((fld_step _ _ 3 9 3 h1).trans ((fld_step _ _ 9 0 3 h2).trans (fld_zero _ _ _ h3)))),
    (fld_step _ _ 7 20 5 hm).trans ((fld_step _ _ 5 15 5 h0).trans ((fld_step _ _ 3 12 5 h1).trans ((fld_step _ _ 9 3 5 h2).trans ((fld_step _ _ 3 0 5 h3).trans (fld_last _ _ h4)))))⟩

theorem shape36 (m f0 f1 f2 f3 f4 f5 w : Nat) (hm : m < 128) (h0 : f0 < 2 ^ 5) (h1 : f1 < 2 ^ 5) (h2 : f2 < 2 ^ 5) (h3 : f3 < 2 ^ 2) (h4 : f4 < 2 ^ 3) (h5 : f5 < 2 ^ 5)
    (hw : w = m + f0 * 128 + f1 * 4096 + f2 * 131072 + f3 * 4194304 + f4 * 16777216 + f5 * 134217728) :
    w % 128 = m ∧ fld w 7 5 = f0 ∧ fld w 12 5 = f1 ∧ fld w 17 5 = f2 ∧ fld w 22 2 = f3 ∧ fld w 24 3 = f4 ∧ fld w 27 5 = f5 := by
  have e : w = m + 2 ^ 7 * (f0 + 2 ^ 5 * (f1 + 2 ^ 5 * (f2 + 2 ^ 5 * (f3 + 2 ^ 2 * (f4 + 2 ^ 3 * f5))))) := by omega
  rw [e]
  exact ⟨low_packed _ _ hm,
    (fld_step _ _ 7 0 5 hm).trans (fld_zero _ _ _ h0),
    (fld_step _ _ 7 5 5 hm).trans ((fld_step _ _ 5 0 5 h0).trans (fld_zero _ _ _ h1)),
    (fld_step _ _ 7 10 5 hm).trans ((fld_step _ _ 5 5 5 h0).trans ((fld_step _ _ 5 0 5 h1).trans (fld_zero _ _ _ h2))),
    (fld_step _ _ 7 15 2 hm).trans ((fld_step _ _ 5 10 2 h0).trans ((fld_step _ _ 5 5 2 h1).trans ((fld_step _ _ 5 0 2 h2).trans (fld_zero _ _ _ h3)))),
    (fld_step _ _ 7 17 3 hm).trans ((fld_step _ _ 5 12 3 h0).trans ((fld_step _ _ 5 7 3 h1).trans ((fld_step _ _ 5 2 3 h2).trans ((fld_step _ _ 2 0 3 h3).trans (fld_zero _ _ _ h4))))),
    (fld_step _ _ 7 20 5 hm).trans ((fld_step _ _ 5 15 5 h0).trans ((fld_step _ _ 5 10 5 h1).trans ((fld_step _ _ 5 5 5 h2).trans ((fld_step _ _ 2 3 5 h3).trans ((fld_step _ _ 3 0 5 h4).trans (fld_last _ _ h5))))))⟩

theorem shape37 (m f0 f1 f2 f3 w : Nat) (hm : m < 128) (h0 : f0 < 2 ^ 5) (h1 : f1 < 2 ^ 12) (h2 : f2 < 2 ^ 3) (h3 : f3 < 2 ^ 5)
    (hw : w = m + f0 * 128 + f1 * 4096 + f2 * 16777216 + f3 * 134217728) :
    w % 128 = m ∧ fld w 7 5 = f0 ∧ fld w 12 12 = f1 ∧ fld w 24 3 = f2 ∧ fld w 27 5 = f3 := by
  have e : w = m + 2 ^ 7 * (f0 + 2 ^ 5 * (f1 + 2 ^ 12 * (f2 + 2 ^ 3 * f3))) := by omega
  rw [e]
  exact ⟨low_packed _ _ hm,
    (fld_step _ _ 7 0 5 hm).trans (fld_zero _ _ _ h0),
    (fld_step _ _ 7 5 12 hm).trans ((fld_step _ _ 5 0 12 h0).trans (fld_zero _ _ _ h1)),
    (fld_step _ _ 7 17 3 hm).trans ((fld_step _ _ 5 12 3 h0).trans ((fld_step _ _ 12 0 3 h1).trans (fld_zero _ _ _ h2))),
    (fld_step _ _ 7 20 5 hm).trans ((fld_step _ _ 5 15 5 h0).trans ((fld_step _ _ 12 3 5 h1).trans ((fld_step _ _ 3 0 5 h2).trans (fld_last _ _ h3))))⟩

theorem shape38 (m f0 f1 w : Nat) (hm : m < 128) (h0 : f0 < 2 ^ 2) (h1 : f1 < 2 ^ 23)
    (hw : w = m + f0 * 128 + f1 * 512) :
    w % 128 = m ∧ fld w 7 2 = f0 ∧ fld w 9 23 = f1 := by
  have e : w = m + 2 ^ 7 * (f0 + 2 ^ 2 * f1) := by omega
  rw [e]
  exact ⟨low_packed _ _ hm,
    (fld_step _ _ 7 0 2 hm).trans (fld_zero _ _ _ h0),
    (fld_step _ _ 7 2 23 hm).trans ((fld_step _ _ 2 0 23 h0).trans (fld_last _ _ h1))⟩

theorem shape39 (m f0 f1 f2 f3 f4 f5 f6 f7 w : Nat) (hm : m < 128) (h0 : f0 < 2 ^ 2) (h1 : f1 < 2 ^ 3) (h2 : f2 < 2 ^ 5) (h3 : f3 < 2 ^ 5) (h4 : f4 < 2 ^ 1) (h5 : f5 < 2 ^ 1) (h6 : f6 < 2 ^ 3) (h7 : f7 < 2 ^ 5)
    (hw : w = m + f0 * 128 + f1 * 512 + f2 * 4096 + f3 * 131072 + f4 * 4194304 + f5 * 8388608 + f6 * 16777216 + f7 * 134217728) :
    w % 128 = m ∧ fld w 7 2 = f0 ∧ fld w 9 3 = f1 ∧ fld w 12 5 = f2 ∧ fld w 17 5 = f3 ∧ fld w 22 1 = f4 ∧ fld w 23 1 = f5 ∧ fld w 24 3 = f6 ∧ fld w 27 5 = f7 := by
  have e : w = m + 2 ^ 7 * (f0 + 2 ^ 2 * (f1 + 2 ^ 3 * (f2 + 2 ^ 5 * (f3 + 2 ^ 5 * (f4 + 2 ^ 1 * (f5 + 2 ^ 1 * (f6 + 2 ^ 3 * f7))))))) := by omega
  rw [e]
  exact ⟨low_packed _ _ hm,
    (fld_step _ _ 7 0 2 hm).trans (fld_zero _ _ _ h0),
    (fld_step _ _ 7 2 3 hm).trans ((fld_step _ _ 2 0 3 h0).trans (fld_zero _ _ _ h1)),
    (fld_step _ _ 7 5 5 hm).trans ((fld_step _ _ 2 3 5 h0).trans ((fld_step _ _ 3 0 5 h1).trans (fld_zero _ _ _ h2))),
    (fld_step _ _ 7 10 5 hm).trans ((fld_step _ _ 2 8 5 h0).trans ((fld_step _ _ 3 5 5 h1).trans ((fld_step _ _ 5 0 5 h2).trans (fld_zero _ _ _ h3)))),
    (fld_step _ _ 7 15 1 hm).trans ((fld_step _ _ 2 13 1 h0).trans ((fld_step _ _ 3 10 1 h1).trans ((fld_step _ _ 5 5 1 h2).trans ((fld_step _ _ 5 0 1 h3).trans (fld_zero _ _ _ h4))))),
    (fld_step _ _ 7 16 1 hm).trans ((fld_step _ _ 2 14 1 h0).trans ((fld_step _ _ 3 11 1 h1).trans ((fld_step _ _ 5 6 1 h2).trans ((fld_step _ _ 5 1 1 h3).trans ((fld_step _ _ 1 0 1 h4).trans (fld_zero _ _ _ h5)))))),
    (fld_step _ _ 7 17 3 hm).trans ((fld_step _ _ 2 15 3 h0).trans ((fld_step _ _ 3 12 3 h1).trans ((fld_step _ _ 5 7 3 h2).trans ((fld_step _ _ 5 2 3 h3).trans ((fld_step _ _ 1 1 3 h4).trans ((fld_step _ _ 1 0 3 h5).trans (fld_zero _ _ _ h6))))))),
    (fld_step _ _ 7 20 5 hm).trans ((fld_step _ _ 2 18 5 h0).trans ((fld_step _ _ 3 15 5 h1).trans ((fld_step _ _ 5 10 5 h2).trans ((fld_step _ _ 5 5 5 h3).trans ((fld_step _ _ 1 4 5 h4).trans ((fld_step _ _ 1 3 5 h5).trans ((fld_step _ _ 3 0 5 h6).trans (fld_last _ _ h7))))))))⟩

theorem shape40 (m f0 f1 f2 f3 f4 w : Nat) (hm : m < 128) (h0 : f0 < 2 ^ 5) (h1 : f1 < 2 ^ 2) (h2 : f2 < 2 ^ 3) (h3 : f3 < 2 ^ 5) (h4 : f4 < 2 ^ 10)
    (hw : w = m + f0 * 128 + f1 * 4096 + f2 * 16384 + f3 * 131072 + f4 * 4194304) :
    w % 128 = m ∧ fld w 7 5 = f0 ∧ fld w 12 2 = f1 ∧ fld w 14 3 = f2 ∧ fld w 17 5 = f3 ∧ fld w 22 10 = f4 := by
  have e : w = m + 2 ^ 7 * (f0 + 2 ^ 5 * (f1 + 2 ^ 2 * (f2 + 2 ^ 3 * (f3 + 2 ^ 5 * f4)))) := by omega
  rw [e]
  exact ⟨low_packed _ _ hm,
    (fld_step _ _ 7 0 5 hm).trans (fld_zero _ _ _ h0),
    (fld_step _ _ 7 5 2 hm).trans ((fld_step _ _ 5 0 2 h0).trans (fld_zero _ _ _ h1)),
    (fld_step _ _ 7 7 3 hm).trans ((fld_step _ _ 5 2 3 h0).trans ((fld_step _ _ 2 0 3 h1).trans (fld_zero _ _ _ h2))),
    (fld_step _ _ 7 10 5 hm).trans ((fld_step _ _ 5 5 5 h0).trans ((fld_step _ _ 2 3 5 h1).trans ((fld_step _ _ 3 0 5 h2).trans (fld_zero _ _ _ h3)))),
    (fld_step _ _ 7 15 10 hm).trans ((fld_step _ _ 5 10 10 h0).trans ((fld_step _ _ 2 8 10 h1).trans ((fld_step _ _ 3 5 10 h2).trans ((fld_step _ _ 5 0 10 h3).trans (fld_last _ _ h4)))))⟩

theorem shape41 (m f0 f1 f2 f3 w : Nat) (hm : m < 128) (h0 : f0 < 2 ^ 2) (h1 : f1 < 2 ^ 3) (h2 : f2 < 2 ^ 5) (h3 : f3 < 2 ^ 15)
    (hw : w = m + f0 * 128 + f1 * 512 + f2 * 4096 + f3 * 131072) :
    w % 128 = m ∧ fld w 7 2 = f0 ∧ fld w 9 3 = f1 ∧ fld w 12 5 = f2 ∧ fld w 17 15 = f3 := by
  have e : w = m + 2 ^ 7 * (f0 + 2 ^ 2 * (f1 + 2 ^ 3 * (f2 + 2 ^ 5 * f3))) := by omega
  rw [e]
  exact ⟨low_packed _ _ hm,
    (fld_step _ _ 7 0 2 hm).trans (fld_zero _ _ _ h0),
    (fld_step _ _ 7 2 3 hm).trans ((fld_step _ _ 2 0 3 h0).trans (fld_zero _ _ _ h1)),
    (fld_step _ _ 7 5 5 hm).trans ((fld_step _ _ 2 3 5 h0).trans ((fld_step _ _ 3 0 5 h1).trans (fld_zero _ _ _ h2))),
    (fld_step _ _ 7 10 15 hm).trans ((fld_step _ _ 2 8 15 h0).trans ((fld_step _ _ 3 5 15 h1).trans ((fld_step _ _ 5 0 15 h2).trans (fld_last _ _ h3))))⟩

theorem shape42 (m f0 f1 f2 f3 f4 w : Nat) (hm : m < 128) (h0 : f0 < 2 ^ 5) (h1 : f1 < 2 ^ 5) (h2 : f2 < 2 ^ 5) (h3 : f3 < 2 ^ 1) (h4 : f4 < 2 ^ 9)
    (hw : w = m + f0 * 128 + f1 * 4096 + f2 * 131072 + f3 * 4194304 + f4 * 8388608) :
    w % 128 = m ∧ fld w 7 5 = f0 ∧ fld w 12 5 = f1 ∧ fld w 17 5 = f2 ∧ fld w 22 1 = f3 ∧ fld w 23 9 = f4 := by
  have e : w = m + 2 ^ 7 * (f0 + 2 ^ 5 * (f1 + 2 ^ 5 * (f2 + 2 ^ 5 * (f3 + 2 ^ 1 * f4)))) := by omega
  rw [e]
  exact ⟨low_packed _ _ hm,
    (fld_step _ _ 7 0 5 hm).trans (fld_zero _ _ _ h0),
    (fld_step _ _ 7 5 5 hm).trans ((fld_step _ _ 5 0 5 h0).trans (fld_zero _ _ _ h1)),
    (fld_step _ _ 7 10 5 hm).trans ((fld_step _ _ 5 5 5 h0).trans ((fld_step _ _ 5 0 5 h1).trans (fld_zero _ _ _ h2))),
    (fld_step _ _ 7 15 1 hm).trans ((fld_step _ _ 5 10 1 h0).trans ((fld_step _ _ 5 5 1 h1).trans ((fld_step _ _ 5 0 1 h2).trans (fld_zero _ _ _ h3)))),
    (fld_step _ _ 7 16 9 hm).trans ((fld_step _ _ 5 11 9 h0).trans ((fld_step _ _ 5 6 9 h1).trans ((fld_step _ _ 5 1 9 h2).trans ((fld_step _ _ 1 0 9 h3).trans (fld_last _ _ h4)))))⟩

theorem shape43 (m f0 f1 f2 f3 w : Nat) (hm : m < 128) (h0 : f0 < 2 ^ 3) (h1 : f1 < 2 ^ 6) (h2 : f2 < 2 ^ 5) (h3 : f3 < 2 ^ 11)
    (hw : w = m + f0 * 128 + f1 * 1024 + f2 * 65536 + f3 * 2097152) :
    w % 128 = m ∧ fld w 7 3 = f0 ∧ fld w 10 6 = f1 ∧ fld w 16 5 = f2 ∧ fld w 21 11 = f3 := by
  have e : w = m + 2 ^ 7 * (f0 + 2 ^ 3 * (f1 + 2 ^ 6 * (f2 + 2 ^ 5 * f3))) := by omega
  rw [e]
  exact ⟨low_packed _ _ hm,
    (fld_step _ _ 7 0 3 hm).trans (fld_zero _ _ _ h0),
    (fld_step _ _ 7 3 6 hm).trans ((fld_step _ _ 3 0 6 h0).trans (fld_zero _ _ _ h1)),
    (fld_step _ _ 7 9 5 hm).trans ((fld_step _ _ 3 6 5 h0).trans ((fld_step _ _ 6 0 5 h1).trans (fld_zero _ _ _ h2))),
    (fld_step _ _ 7 14 11 hm).trans ((fld_step _ _ 3 11 11 h0).trans ((fld_step _ _ 6 5 11 h1).trans ((fld_step _ _ 5 0 11 h2).trans (fld_last _ _ h3))))⟩

theorem shape44 (m f0 f1 f2 f3 f4 w : Nat) (hm : m < 128) (h0 : f0 < 2 ^ 3) (h1 : f1 < 2 ^ 3) (h2 : f2 < 2 ^ 3) (h3 : f3 < 2 ^ 5) (h4 : f4 < 2 ^ 11)
    (hw : w = m + f0 * 128 + f1 * 1024 + f2 * 8192 + f3 * 65536 + f4 * 2097152) :
    w % 128 = m ∧ fld w 7 3 = f0 ∧ fld w 10 3 = f1 ∧ fld w 13 3 = f2 ∧ fld w 16 5 = f3 ∧ fld w 21 11 = f4 := by
  have e : w = m + 2 ^ 7 * (f0 + 2 ^ 3 * (f1 + 2 ^ 3 * (f2 + 2 ^ 3 * (f3 + 2 ^ 5 * f4)))) := by omega
  rw [e]
  exact ⟨low_packed _ _ hm,
    (fld_step _ _ 7 0 3 hm).trans (fld_zero _ _ _ h0),
    (fld_step _ _ 7 3 3 hm).trans ((fld_step _ _ 3 0 3 h0).trans (fld_zero _ _ _ h1)),
    (fld_step _ _ 7 6 3 hm).trans ((fld_step _ _ 3 3 3 h0).trans ((fld_step _ _ 3 0 3 h1).trans (fld_zero _ _ _ h2))),
    (fld_step _ _ 7 9 5 hm).trans ((fld_step _ _ 3 6 5 h0).trans ((fld_step _ _ 3 3 5 h1).trans ((fld_step _ _ 3 0 5 h2).trans (fld_zero _ _ _ h3)))),
    (fld_step _ _ 7 14 11 hm).trans ((fld_step _ _ 3 11 11 h0).trans ((fld_step _ _ 3 8 11 h1).trans ((fld_step _ _ 3 5 11 h2).trans ((fld_step _ _ 5 0 11 h3).trans (fld_last _ _ h4)))))⟩

theorem shape45 (m f0 f1 f2 f3 w : Nat) (hm : m < 128) (h0 : f0 < 2 ^ 3) (h1 : f1 < 2 ^ 3) (h2 : f2 < 2 ^ 3) (h3 : f3 < 2 ^ 16)
    (hw : w = m + f0 * 128 + f1 * 1024 + f2 * 8192 + f3 * 65536) :
    w % 128 = m ∧ fld w 7 3 = f0 ∧ fld w 10 3 = f1 ∧ fld w 13 3 = f2 ∧ fld w 16 16 = f3 := by
  have e : w = m + 2 ^ 7 * (f0 + 2 ^ 3 * (f1 + 2 ^ 3 * (f2 + 2 ^ 3 * f3))) := by omega
  rw [e]
  exact ⟨low_packed _ _ hm,
    (fld_step _ _ 7 0 3 hm).trans (fld_zero _ _ _ h0),
    (fld_step _ _ 7 3 3 hm).trans ((fld_step _ _ 3 0 3 h0).trans (fld_zero _ _ _ h1)),
    (fld_step _ _ 7 6 3 hm).trans ((fld_step _ _ 3 3 3 h0).trans ((fld_step _ _ 3 0 3 h1).trans (fld_zero _ _ _ h2))),
    (fld_step _ _ 7 9 16 hm).trans ((fld_step _ _ 3 6 16 h0).trans ((fld_step _ _ 3 3 16 h1).trans ((fld_step _ _ 3 0 16 h2).trans (fld_last _ _ h3))))⟩

theorem shape46 (m f0 f1 f2 w : Nat) (hm : m < 128) (h0 : f0 < 2 ^ 3) (h1 : f1 < 2 ^ 3) (h2 : f2 < 2 ^ 19)
    (hw : w = m + f0 * 128 + f1 * 1024 + f2 * 8192) :
    w % 128 = m ∧ fld w 7 3 = f0 ∧ fld w 10 3 = f1 ∧ fld w 13 19 = f2 := by
  have e : w = m + 2 ^ 7 * (f0 + 2 ^ 3 * (f1 + 2 ^ 3 * f2)) := by omega
  rw [e]
  exact ⟨low_packed _ _ hm,
    (fld_step _ _ 7 0 3 hm).trans (fld_zero _ _ _ h0),
    (fld_step _ _ 7 3 3 hm).trans ((fld_step _ _ 3 0 3 h0).trans (fld_zero _ _ _ h1)),
    (fld_step _ _ 7 6 19 hm).trans ((fld_step _ _ 3 3 19 h0).trans ((fld_step _ _ 3 0 19 h1).trans (fld_last _ _ h2)))⟩

theorem shape47 (m f0 f1 f2 f3 f4 w : Nat) (hm : m < 128) (h0 : f0 < 2 ^ 3) (h1 : f1 < 2 ^ 3) (h2 : f2 < 2 ^ 8) (h3 : f3 < 2 ^ 3) (h4 : f4 < 2 ^ 8)
    (hw : w = m + f0 * 128 + f1 * 1024 + f2 * 8192 + f3 * 2097152 + f4 * 16777216) :
    w % 128 = m ∧ fld w 7 3 = f0 ∧ fld w 10 3 = f1 ∧ fld w 13 8 = f2 ∧ fld w 21 3 = f3 ∧ fld w 24 8 = f4 := by
  have e : w = m + 2 ^ 7 * (f0 + 2 ^ 3 * (f1 + 2 ^ 3 * (f2 + 2 ^ 8 * (f3 + 2 ^ 3 * f4)))) := by omega
  rw [e]
  exact ⟨low_packed _ _ hm,
    (fld_step _ _ 7 0 3 hm).trans (fld_zero _ _ _ h0),
    (fld_step _ _ 7 3 3 hm).trans ((fld_step _ _ 3 0 3 h0).trans (fld_zero _ _ _ h1)),
    (fld_step _ _ 7 6 8 hm).trans ((fld_step _ _ 3 3 8 h0).trans ((fld_step _ _ 3 0 8 h1).trans (fld_zero _ _ _ h2))),
    (fld_step _ _ 7 14 3 hm).trans ((fld_step _ _ 3 11 3 h0).trans ((fld_step _ _ 3 8 3 h1).trans ((fld_step _ _ 8 0 3 h2).trans (fld_zero _ _ _ h3)))),
    (fld_step _ _ 7 17 8 hm).trans ((fld_step _ _ 3 14 8 h0).trans ((fld_step _ _ 3 11 8 h1).trans ((fld_step _ _ 8 3 8 h2).trans ((fld_step _ _ 3 0 8 h3).trans (fld_last _ _ h4)))))⟩

theorem shape48 (m f0 f1 f2 f3 f4 w : Nat) (hm : m < 128) (h0 : f0 < 2 ^ 2) (h1 : f1 < 2 ^ 1) (h2 : f2 < 2 ^ 3) (h3 : f3 < 2 ^ 3) (h4 : f4 < 2 ^ 16)
    (hw : w = m + f0 * 128 + f1 * 512 + f2 * 1024 + f3 * 8192 + f4 * 65536) :
    w % 128 = m ∧ fld w 7 2 = f0 ∧ fld w 9 1 = f1 ∧ fld w 10 3 = f2 ∧ fld w 13 3 = f3 ∧ fld w 16 16 = f4 := by
  have e : w = m + 2 ^ 7 * (f0 + 2 ^ 2 * (f1 + 2 ^ 1 * (f2 + 2 ^ 3 * (f3 + 2 ^ 3 * f4)))) := by omega
  rw [e]
  exact ⟨low_packed _ _ hm,
    (fld_step _ _ 7 0 2 hm).trans (fld_zero _ _ _ h0),
    (fld_step _ _ 7 2 1 hm).trans ((fld_step _ _ 2 0 1 h0).trans (fld_zero _ _ _ h1)),
    (fld_step _ _ 7 3 3 hm).trans ((fld_step _ _ 2 1 3 h0).trans ((fld_step _ _ 1 0 3 h1).trans (fld_zero _ _ _ h2))),
    (fld_step _ _ 7 6 3 hm).trans ((fld_step _ _ 2 4 3 h0).trans ((fld_step _ _ 1 3 3 h1).trans ((fld_step _ _ 3 0 3 h2).trans (fld_zero _ _ _ h3)))),
    (fld_step _ _ 7 9 16 hm).trans ((fld_step _ _ 2 7 16 h0).trans ((fld_step _ _ 1 6 16 h1).trans ((fld_step _ _ 3 3 16 h2).trans ((fld_step _ _ 3 0 16 h3).trans (fld_last _ _ h4)))))⟩

theorem shape49 (m f0 f1 f2 f3 f4 f5 w : Nat) (hm : m < 128) (h0 : f0 < 2 ^ 3) (h1 : f1 < 2 ^ 3) (h2 : f2 < 2 ^ 3) (h3 : f3 < 2 ^ 5) (h4 : f4 < 2 ^ 5) (h5 : f5 < 2 ^ 6)
    (hw : w = m + f0 * 128 + f1 * 1024 + f2 * 8192 + f3 * 65536 + f4 * 2097152 + f5 * 67108864) :
    w % 128 = m ∧ fld w 7 3 = f0 ∧ fld w 10 3 = f1 ∧ fld w 13 3 = f2 ∧ fld w 16 5 = f3 ∧ fld w 21 5 = f4 ∧ fld w 26 6 = f5 := by
  have e : w = m + 2 ^ 7 * (f0 + 2 ^ 3 * (f1 + 2 ^ 3 * (f2 + 2 ^ 3 * (f3 + 2 ^ 5 * (f4 + 2 ^ 5 * f5))))) := by omega
  rw [e]
  exact ⟨low_packed _ _ hm,
    (fld_step _ _ 7 0 3 hm).trans (fld_zero _ _ _ h0),
    (fld_step _ _ 7 3 3 hm).trans ((fld_step _ _ 3 0 3 h0).trans (fld_zero _ _ _ h1)),
    (fld_step _ _ 7 6 3 hm).trans ((fld_step _ _ 3 3 3 h0).trans ((fld_step _ _ 3 0 3 h1).trans (fld_zero _ _ _ h2))),
    (fld_step _ _ 7 9 5 hm).trans ((fld_step _ _ 3 6 5 h0).trans ((fld_step _ _ 3 3 5 h1).trans ((fld_step _ _ 3 0 5 h2).trans (fld_zero _ _ _ h3)))),
    (fld_step _ _ 7 14 5 hm).trans ((fld_step _ _ 3 11 5 h0).trans ((fld_step _ _ 3 8 5 h1).trans ((fld_step _ _ 3 5 5 h2).trans ((fld_step _ _ 5 0 5 h3).trans (fld_zero _ _ _ h4))))),
    (fld_step _ _ 7 19 6 hm).trans ((fld_step _ _ 3 16 6 h0).trans ((fld_step _ _ 3 13 6 h1).trans ((fld_step _ _ 3 10 6 h2).trans ((fld_step _ _ 5 5 6 h3).trans ((fld_step _ _ 5 0 6 h4).trans (fld_last _ _ h5))))))⟩

theorem shape50 (m f0 f1 f2 f3 f4 w : Nat) (hm : m < 128) (h0 : f0 < 2 ^ 3) (h1 : f1 < 2 ^ 6) (h2 : f2 < 2 ^ 5) (h3 : f3 < 2 ^ 5) (h4 : f4 < 2 ^ 6)
    (hw : w = m + f0 * 128 + f1 * 1024 + f2 * 65536 + f3 * 2097152 + f4 * 67108864) :
    w % 128 = m ∧ fld w 7 3 = f0 ∧ fld w 10 6 = f1 ∧ fld w 16 5 = f2 ∧ fld w 21 5 = f3 ∧ fld w 26 6 = f4 := by
  have e : w = m + 2 ^ 7 * (f0 + 2 ^ 3 * (f1 + 2 ^ 6 * (f2 + 2 ^ 5 * (f3 + 2 ^ 5 * f4)))) := by omega
  rw [e]
  exact ⟨low_packed _ _ hm,
    (fld_step _ _ 7 0 3 hm).trans (fld_zero _ _ _ h0),
    (fld_step _ _ 7 3 6 hm).trans ((fld_step _ _ 3 0 6 h0).trans (fld_zero _ _ _ h1)),
    (fld_step _ _ 7 9 5 hm).trans ((fld_step _ _ 3 6 5 h0).trans ((fld_step _ _ 6 0 5 h1).trans (fld_zero _ _ _ h2))),
    (fld_step _ _ 7 14 5 hm).trans ((fld_step _ _ 3 11 5 h0).trans ((fld_step _ _ 6 5 5 h1).trans ((fld_step _ _ 5 0 5 h2).trans (fld_zero _ _ _ h3)))),
    (fld_step _ _ 7 19 6 hm).trans ((fld_step _ _ 3 16 6 h0).trans ((fld_step _ _ 6 10 6 h1).trans ((fld_step _ _ 5 5 6 h2).trans ((fld_step _ _ 5 0 6 h3).trans (fld_last _ _ h4)))))⟩

theorem shape51 (m f0 f1 f2 f3 f4 w : Nat) (hm : m < 128) (h0 : f0 < 2 ^ 3) (h1 : f1 < 2 ^ 3) (h2 : f2 < 2 ^ 8) (h3 : f3 < 2 ^ 5) (h4 : f4 < 2 ^ 6)
    (hw : w = m + f0 * 128 + f1 * 1024 + f2 * 8192 + f3 * 2097152 + f4 * 67108864) :
    w % 128 = m ∧ fld w 7 3 = f0 ∧ fld w 10 3 = f1 ∧ fld w 13 8 = f2 ∧ fld w 21 5 = f3 ∧ fld w 26 6 = f4 := by
  have e : w = m + 2 ^ 7 * (f0 + 2 ^ 3 * (f1 + 2 ^ 3 * (f2 + 2 ^ 8 * (f3 + 2 ^ 5 * f4)))) := by omega
  rw [e]
  exact ⟨low_packed _ _ hm,
    (fld_step _ _ 7 0 3 hm).trans (fld_zero _ _ _ h0),
    (fld_step _ _ 7 3 3 hm).trans ((fld_step _ _ 3 0 3 h0).trans (fld_zero _ _ _ h1)),
    (fld_step _ _ 7 6 8 hm).trans ((fld_step _ _ 3 3 8 h0).trans ((fld_step _ _ 3 0 8 h1).trans (fld_zero _ _ _ h2))),
    (fld_step _ _ 7 14 5 hm).trans ((fld_step _ _ 3 11 5 h0).trans ((fld_step _ _ 3 8 5 h1).trans ((fld_step _ _ 8 0 5 h2).trans (fld_zero _ _ _ h3)))),
    (fld_step _ _ 7 19 6 hm).trans ((fld_step _ _ 3 16 6 h0).trans ((fld_step _ _ 3 13 6 h1).trans ((fld_step _ _ 8 5 6 h2).trans ((fld_step _ _ 5 0 6 h3).trans (fld_last _ _ h4)))))⟩

theorem shape52 (m f0 f1 w : Nat) (hm : m < 128) (h0 : f0 < 2 ^ 3) (h1 : f1 < 2 ^ 22)
    (hw : w = m + f0 * 128 + f1 * 1024) :
    w % 128 = m ∧ fld w 7 3 = f0 ∧ fld w 10 22 = f1 := by
  have e : w = m + 2 ^ 7 * (f0 + 2 ^ 3 * f1) := by omega
  rw [e]
  exact ⟨low_packed _ _ hm,
    (fld_step _ _ 7 0 3 hm).trans (fld_zero _ _ _ h0),
    (fld_step _ _ 7 3 22 hm).trans ((fld_step _ _ 3 0 22 h0).trans (fld_last _ _ h1))⟩

theorem shape53 (m f0 f1 f2 w : Nat) (hm : m < 128) (h0 : f0 < 2 ^ 13) (h1 : f1 < 2 ^ 2) (h2 : f2 < 2 ^ 10)
    (hw : w = m + f0 * 128 + f1 * 1048576 + f2 * 4194304) :
    w % 128 = m ∧ fld w 7 13 = f0 ∧ fld w 20 2 = f1 ∧ fld w 22 10 = f2 := by
  have e : w = m + 2 ^ 7 * (f0 + 2 ^ 13 * (f1 + 2 ^ 2 * f2)) := by omega
  rw [e]
  exact ⟨low_packed _ _ hm,
    (fld_step _ _ 7 0 13 hm).trans (fld_zero _ _ _ h0),
    (fld_step _ _ 7 13 2 hm).trans ((fld_step _ _ 13 0 2 h0).trans (fld_zero _ _ _ h1)),
    (fld_step _ _ 7 15 10 hm).trans ((fld_step _ _ 13 2 10 h0).trans ((fld_step _ _ 2 0 10 h1).trans (fld_last _ _ h2)))⟩

theorem shape54 (m f0 f1 f2 f3 w : Nat) (hm : m < 128) (h0 : f0 < 2 ^ 3) (h1 : f1 < 2 ^ 15) (h2 : f2 < 2 ^ 5) (h3 : f3 < 2 ^ 2)
    (hw : w = m + f0 * 128 + f1 * 1024 + f2 * 33554432 + f3 * 1073741824) :
    w % 128 = m ∧ fld w 7 3 = f0 ∧ fld w 10 15 = f1 ∧ fld w 25 5 = f2 ∧ fld w 30 2 = f3 := by
  have e : w = m + 2 ^ 7 * (f0 + 2 ^ 3 * (f1 + 2 ^ 15 * (f2 + 2 ^ 5 * f3))) := by omega
  rw [e]
  exact ⟨low_packed _ _ hm,
    (fld_step _ _ 7 0 3 hm).trans (fld_zero _ _ _ h0),
    (fld_step _ _ 7 3 15 hm).trans ((fld_step _ _ 3 0 15 h0).trans (fld_zero _ _ _ h1)),
    (fld_step _ _ 7 18 5 hm).trans ((fld_step _ _ 3 15 5 h0).trans ((fld_step _ _ 15 0 5 h1).trans (fld_zero _ _ _ h2))),
    (fld_step _ _ 7 23 2 hm).trans ((fld_step _ _ 3 20 2 h0).trans ((fld_step _ _ 15 5 2 h1).trans ((fld_step _ _ 5 0 2 h2).trans (fld_last _ _ h3))))⟩

theorem shape55 (m f0 f1 f2 f3 w : Nat) (hm : m < 128) (h0 : f0 < 2 ^ 2) (h1 : f1 < 2 ^ 16) (h2 : f2 < 2 ^ 5) (h3 : f3 < 2 ^ 2)
    (hw : w = m + f0 * 128 + f1 * 512 + f2 * 33554432 + f3 * 1073741824) :
    w % 128 = m ∧ fld w 7 2 = f0 ∧ fld w 9 16 = f1 ∧ fld w 25 5 = f2 ∧ fld w 30 2 = f3 := by
  have e : w = m + 2 ^ 7 * (f0 + 2 ^ 2 * (f1 + 2 ^ 16 * (f2 + 2 ^ 5 * f3))) := by omega
  rw [e]
  exact ⟨low_packed _ _ hm,
    (fld_step _ _ 7 0 2 hm).trans (fld_zero _ _ _ h0),
    (fld_step _ _ 7 2 16 hm).trans ((fld_step _ _ 2 0 16 h0).trans (fld_zero _ _ _ h1)),
    (fld_step _ _ 7 18 5 hm).trans ((fld_step _ _ 2 16 5 h0).trans ((fld_step _ _ 16 0 5 h1).trans (fld_zero _ _ _ h2))),
    (fld_step _ _ 7 23 2 hm).trans ((fld_step _ _ 2 21 2 h0).trans ((fld_step _ _ 16 5 2 h1).trans ((fld_step _ _ 5 0 2 h2).trans (fld_last _ _ h3))))⟩

theorem shape56 (m f0 f1 f2 f3 f4 w : Nat) (hm : m < 128) (h0 : f0 < 2 ^ 3) (h1 : f1 < 2 ^ 10) (h2 : f2 < 2 ^ 5) (h3 : f3 < 2 ^ 5) (h4 : f4 < 2 ^ 2)
    (hw : w = m + f0 * 128 + f1 * 1024 + f2 * 1048576 + f3 * 33554432 + f4 * 1073741824) :
    w % 128 = m ∧ fld w 7 3 = f0 ∧ fld w 10 10 = f1 ∧ fld w 20 5 = f2 ∧ fld w 25 5 = f3 ∧ fld w 30 2 = f4 := by
  have e : w = m + 2 ^ 7 * (f0 + 2 ^ 3 * (f1 + 2 ^ 10 * (f2 + 2 ^ 5 * (f3 + 2 ^ 5 * f4)))) := by omega
  rw [e]
  exact ⟨low_packed _ _ hm,
    (fld_step _ _ 7 0 3 hm).trans (fld_zero _ _ _ h0),
    (fld_step _ _ 7 3 10 hm).trans ((fld_step _ _ 3 0 10 h0).trans (fld_zero _ _ _ h1)),
    (fld_step _ _ 7 13 5 hm).trans ((fld_step _ _ 3 10 5 h0).trans ((fld_step _ _ 10 0 5 h1).trans (fld_zero _ _ _ h2))),
    (fld_step _ _ 7 18 5 hm).trans ((fld_step _ _ 3 15 5 h0).trans ((fld_step _ _ 10 5 5 h1).trans ((fld_step _ _ 5 0 5 h2).trans (fld_zero _ _ _ h3)))),
    (fld_step _ _ 7 23 2 hm).trans ((fld_step _ _ 3 20 2 h0).trans ((fld_step _ _ 10 10 2 h1).trans ((fld_step _ _ 5 5 2 h2).trans ((fld_step _ _ 5 0 2 h3).trans (fld_last _ _ h4)))))⟩

theorem shape57 (m f0 f1 f2 f3 f4 f5 f6 w : Nat) (hm : m < 128) (h0 : f0 < 2 ^ 2) (h1 : f1 < 2 ^ 1) (h2 : f2 < 2 ^ 3) (h3 : f3 < 2 ^ 3) (h4 : f4 < 2 ^ 2) (h5 : f5 < 2 ^ 2) (h6 : f6 < 2 ^ 12)
    (hw : w = m + f0 * 128 + f1 * 512 + f2 * 1024 + f3 * 8192 + f4 * 65536 + f5 * 262144 + f6 * 1048576) :
    w % 128 = m ∧ fld w 7 2 = f0 ∧ fld w 9 1 = f1 ∧ fld w 10 3 = f2 ∧ fld w 13 3 = f3 ∧ fld w 16 2 = f4 ∧ fld w 18 2 = f5 ∧ fld w 20 12 = f6 := by
  have e : w = m + 2 ^ 7 * (f0 + 2 ^ 2 * (f1 + 2 ^ 1 * (f2 + 2 ^ 3 * (f3 + 2 ^ 3 * (f4 + 2 ^ 2 * (f5 + 2 ^ 2 * f6)))))) := by omega
  rw [e]
  exact ⟨low_packed _ _ hm,
    (fld_step _ _ 7 0 2 hm).trans (fld_zero _ _ _ h0),
    (fld_step _ _ 7 2 1 hm).trans ((fld_step _ _ 2 0 1 h0).trans (fld_zero _ _ _ h1)),
    (fld_step _ _ 7 3 3 hm).trans ((fld_step _ _ 2 1 3 h0).trans ((fld_step _ _ 1 0 3 h1).trans (fld_zero _ _ _ h2))),
    (fld_step _ _ 7 6 3 hm).trans ((fld_step _ _ 2 4 3 h0).trans ((fld_step _ _ 1 3 3 h1).trans ((fld_step _ _ 3 0 3 h2).trans (fld_zero _ _ _ h3)))),
    (fld_step _ _ 7 9 2 hm).trans ((fld_step _ _ 2 7 2 h0).trans ((fld_step _ _ 1 6 2 h1).trans ((fld_step _ _ 3 3 2 h2).trans ((fld_step _ _ 3 0 2 h3).trans (fld_zero _ _ _ h4))))),
    (fld_step _ _ 7 11 2 hm).trans ((fld_step _ _ 2 9 2 h0).trans ((fld_step _ _ 1 8 2 h1).trans ((fld_step _ _ 3 5 2 h2).trans ((fld_step _ _ 3 2 2 h3).trans ((fld_step _ _ 2 0 2 h4).trans (fld_zero _ _ _ h5)))))),
    (fld_step _ _ 7 13 12 hm).trans ((fld_step _ _ 2 11 12 h0).trans ((fld_step _ _ 1 10 12 h1).trans ((fld_step _ _ 3 7 12 h2).trans ((fld_step _ _ 3 4 12 h3).trans ((fld_step _ _ 2 2 12 h4).trans ((fld_step _ _ 2 0 12 h5).trans (fld_last _ _ h6)))))))⟩

theorem shape58 (m f0 f1 f2 f3 f4 f5 w : Nat) (hm : m < 128) (h0 : f0 < 2 ^ 2) (h1 : f1 < 2 ^ 4) (h2 : f2 < 2 ^ 3) (h3 : f3 < 2 ^ 9) (h4 : f4 < 2 ^ 5) (h5 : f5 < 2 ^ 2)
    (hw : w = m + f0 * 128 + f1 * 512 + f2 * 8192 + f3 * 65536 + f4 * 33554432 + f5 * 1073741824) :
    w % 128 = m ∧ fld w 7 2 = f0 ∧ fld w 9 4 = f1 ∧ fld w 13 3 = f2 ∧ fld w 16 9 = f3 ∧ fld w 25 5 = f4 ∧ fld w 30 2 = f5 := by
  have e : w = m + 2 ^ 7 * (f0 + 2 ^ 2 * (f1 + 2 ^ 4 * (f2 + 2 ^ 3 * (f3 + 2 ^ 9 * (f4 + 2 ^ 5 * f5))))) := by omega
  rw [e]
  exact ⟨low_packed _ _ hm,
    (fld_step _ _ 7 0 2 hm).trans (fld_zero _ _ _ h0),
    (fld_step _ _ 7 2 4 hm).trans ((fld_step _ _ 2 0 4 h0).trans (fld_zero _ _ _ h1)),
    (fld_step _ _ 7 6 3 hm).trans ((fld_step _ _ 2 4 3 h0).trans ((fld_step _ _ 4 0 3 h1).trans (fld_zero _ _ _ h2))),
    (fld_step _ _ 7 9 9 hm).trans ((fld_step _ _ 2 7 9 h0).trans ((fld_step _ _ 4 3 9 h1).trans ((fld_step _ _ 3 0 9 h2).trans (fld_zero _ _ _ h3)))),
    (fld_step _ _ 7 18 5 hm).trans ((fld_step _ _ 2 16 5 h0).trans ((fld_step _ _ 4 12 5 h1).trans ((fld_step _ _ 3 9 5 h2).trans ((fld_step _ _ 9 0 5 h3).trans (fld_zero _ _ _ h4))))),
    (fld_step _ _ 7 23 2 hm).trans ((fld_step _ _ 2 21 2 h0).trans ((fld_step _ _ 4 17 2 h1).trans ((fld_step _ _ 3 14 2 h2).trans ((fld_step _ _ 9 5 2 h3).trans ((fld_step _ _ 5 0 2 h4).trans (fld_last _ _ h5))))))⟩

theorem shape59 (m f0 f1 f2 f3 f4 f5 f6 w : Nat) (hm : m < 128) (h0 : f0 < 2 ^ 2) (h1 : f1 < 2 ^ 4) (h2 : f2 < 2 ^ 3) (h3 : f3 < 2 ^ 4) (h4 : f4 < 2 ^ 5) (h5 : f5 < 2 ^ 5) (h6 : f6 < 2 ^ 2)
    (hw : w = m + f0 * 128 + f1 * 512 + f2 * 8192 + f3 * 65536 + f4 * 1048576 + f5 * 33554432 + f6 * 1073741824) :
    w % 128 = m ∧ fld w 7 2 = f0 ∧ fld w 9 4 = f1 ∧ fld w 13 3 = f2 ∧ fld w 16 4 = f3 ∧ fld w 20 5 = f4 ∧ fld w 25 5 = f5 ∧ fld w 30 2 = f6 := by
  have e : w = m + 2 ^ 7 * (f0 + 2 ^ 2 * (f1 + 2 ^ 4 * (f2 + 2 ^ 3 * (f3 + 2 ^ 4 * (f4 + 2 ^ 5 * (f5 + 2 ^ 5 * f6)))))) := by omega
  rw [e]
  exact ⟨low_packed _ _ hm,
    (fld_step _ _ 7 0 2 hm).trans (fld_zero _ _ _ h0),
    (fld_step _ _ 7 2 4 hm).trans ((fld_step _ _ 2 0 4 h0).trans (fld_zero _ _ _ h1)),
    (fld_step _ _ 7 6 3 hm).trans ((fld_step _ _ 2 4 3 h0).trans ((fld_step _ _ 4 0 3 h1).trans (fld_zero _ _ _ h2))),
    (fld_step _ _ 7 9 4 hm).trans ((fld_step _ _ 2 7 4 h0).trans ((fld_step _ _ 4 3 4 h1).trans ((fld_step _ _ 3 0 4 h2).trans (fld_zero _ _ _ h3)))),
    (fld_step _ _ 7 13 5 hm).trans ((fld_step _ _ 2 11 5 h0).trans ((fld_step _ _ 4 7 5 h1).trans ((fld_step _ _ 3 4 5 h2).trans ((fld_step _ _ 4 0 5 h3).trans (fld_zero _ _ _ h4))))),
    (fld_step _ _ 7 18 5 hm).trans ((fld_step _ _ 2 16 5 h0).trans ((fld_step _ _ 4 12 5 h1).trans ((fld_step _ _ 3 9 5 h2).trans ((fld_step _ _ 4 5 5 h3).trans ((fld_step _ _ 5 0 5 h4).trans (fld_zero _ _ _ h5)))))),
    (fld_step _ _ 7 23 2 hm).trans ((fld_step _ _ 2 21 2 h0).trans ((fld_step _ _ 4 17 2 h1).trans ((fld_step _ _ 3 14 2 h2).trans ((fld_step _ _ 4 10 2 h3).trans ((fld_step _ _ 5 5 2 h4).trans ((fld_step _ _ 5 0 2 h5).trans (fld_last _ _ h6)))))))⟩

theorem shape60 (m f0 f1 f2 f3 f4 w : Nat) (hm : m < 128) (h0 : f0 < 2 ^ 3) (h1 : f1 < 2 ^ 5) (h2 : f2 < 2 ^ 5) (h3 : f3 < 2 ^ 11) (h4 : f4 < 2 ^ 1)
    (hw : w = m + f0 * 128 + f1 * 1024 + f2 * 32768 + f3 * 1048576 + f4 * 2147483648) :
    w % 128 = m ∧ fld w 7 3 = f0 ∧ fld w 10 5 = f1 ∧ fld w 15 5 = f2 ∧ fld w 20 11 = f3 ∧ fld w 31 1 = f4 := by
  have e : w = m + 2 ^ 7 * (f0 + 2 ^ 3 * (f1 + 2 ^ 5 * (f2 + 2 ^ 5 * (f3 + 2 ^ 11 * f4)))) := by omega
  rw [e]
  exact ⟨low_packed _ _ hm,
    (fld_step _ _ 7 0 3 hm).trans (fld_zero _ _ _ h0),
    (fld_step _ _ 7 3 5 hm).trans ((fld_step _ _ 3 0 5 h0).trans (fld_zero _ _ _ h1)),
    (fld_step _ _ 7 8 5 hm).trans ((fld_step _ _ 3 5 5 h0).trans ((fld_step _ _ 5 0 5 h1).trans (fld_zero _ _ _ h2))),
    (fld_step _ _ 7 13 11 hm).trans ((fld_step _ _ 3 10 11 h0).trans ((fld_step _ _ 5 5 11 h1).trans ((fld_step _ _ 5 0 11 h2).trans (fld_zero _ _ _ h3)))),
    (fld_step _ _ 7 24 1 hm).trans ((fld_step _ _ 3 21 1 h0).trans ((fld_step _ _ 5 16 1 h1).trans ((fld_step _ _ 5 11 1 h2).trans ((fld_step _ _ 11 0 1 h3).trans (fld_last _ _ h4)))))⟩

theorem shape61 (m f0 f1 f2 f3 f4 f5 w : Nat) (hm : m < 128) (h0 : f0 < 2 ^ 3) (h1 : f1 < 2 ^ 5) (h2 : f2 < 2 ^ 5) (h3 : f3 < 2 ^ 5) (h4 : f4 < 2 ^ 6) (h5 : f5 < 2 ^ 1)
    (hw : w = m + f0 * 128 + f1 * 1024 + f2 * 32768 + f3 * 1048576 + f4 * 33554432 + f5 * 2147483648) :
    w % 128 = m ∧ fld w 7 3 = f0 ∧ fld w 10 5 = f1 ∧ fld w 15 5 = f2 ∧ fld w 20 5 = f3 ∧ fld w 25 6 = f4 ∧ fld w 31 1 = f5 := by
  have e : w = m + 2 ^ 7 * (f0 + 2 ^ 3 * (f1 + 2 ^ 5 * (f2 + 2 ^ 5 * (f3 + 2 ^ 5 * (f4 + 2 ^ 6 * f5))))) := by omega
  rw [e]
  exact ⟨low_packed _ _ hm,
    (fld_step _ _ 7 0 3 hm).trans (fld_zero _ _ _ h0),
    (fld_step _ _ 7 3 5 hm).trans ((fld_step _ _ 3 0 5 h0).trans (fld_zero _ _ _ h1)),
    (fld_step _ _ 7 8 5 hm).trans ((fld_step _ _ 3 5 5 h0).trans ((fld_step _ _ 5 0 5 h1).trans (fld_zero _ _ _ h2))),
    (fld_step _ _ 7 13 5 hm).trans ((fld_step _ _ 3 10 5 h0).trans ((fld_step _ _ 5 5 5 h1).trans ((fld_step _ _ 5 0 5 h2).trans (fld_zero _ _ _ h3)))),
    (fld_step _ _ 7 18 6 hm).trans ((fld_step _ _ 3 15 6 h0).trans ((fld_step _ _ 5 10 6 h1).trans ((fld_step _ _ 5 5 6 h2).trans ((fld_step _ _ 5 0 6 h3).trans (fld_zero _ _ _ h4))))),
    (fld_step _ _ 7 24 1 hm).trans ((fld_step _ _ 3 21 1 h0).trans ((fld_step _ _ 5 16 1 h1).trans ((fld_step _ _ 5 11 1 h2).trans ((fld_step _ _ 5 6 1 h3).trans ((fld_step _ _ 6 0 1 h4).trans (fld_last _ _ h5))))))⟩

theorem shape62 (m f0 f1 f2 w : Nat) (hm : m < 128) (h0 : f0 < 2 ^ 8) (h1 : f1 < 2 ^ 5) (h2 : f2 < 2 ^ 12)
    (hw : w = m + f0 * 128 + f1 * 32768 + f2 * 1048576) :
    w % 128 = m ∧ fld w 7 8 = f0 ∧ fld w 15 5 = f1 ∧ fld w 20 12 = f2 := by
  have e : w = m + 2 ^ 7 * (f0 + 2 ^ 8 * (f1 + 2 ^ 5 * f2)) := by omega
  rw [e]
  exact ⟨low_packed _ _ hm,
    (fld_step _ _ 7 0 8 hm).trans (fld_zero _ _ _ h0),
    (fld_step _ _ 7 8 5 hm).trans ((fld_step _ _ 8 0 5 h0).trans (fld_zero _ _ _ h1)),
    (fld_step _ _ 7 13 12 hm).trans ((fld_step _ _ 8 5 12 h0).trans ((fld_step _ _ 5 0 12 h1).trans (fld_last _ _ h2)))⟩

theorem shape63 (m f0 f1 f2 f3 f4 w : Nat) (hm : m < 128) (h0 : f0 < 2 ^ 3) (h1 : f1 < 2 ^ 5) (h2 : f2 < 2 ^ 5) (h3 : f3 < 2 ^ 2) (h4 : f4 < 2 ^ 10)
    (hw : w = m + f0 * 128 + f1 * 1024 + f2 * 32768 + f3 * 1048576 + f4 * 4194304) :
    w % 128 = m ∧ fld w 7 3 = f0 ∧ fld w 10 5 = f1 ∧ fld w 15 5 = f2 ∧ fld w 20 2 = f3 ∧ fld w 22 10 = f4 := by
  have e : w = m + 2 ^ 7 * (f0 + 2 ^ 3 * (f1 + 2 ^ 5 * (f2 + 2 ^ 5 * (f3 + 2 ^ 2 * f4)))) := by omega
  rw [e]
  exact ⟨low_packed _ _ hm,
    (fld_step _ _ 7 0 3 hm).trans (fld_zero _ _ _ h0),
    (fld_step _ _ 7 3 5 hm).trans ((fld_step _ _ 3 0 5 h0).trans (fld_zero _ _ _ h1)),
    (fld_step _ _ 7 8 5 hm).trans ((fld_step _ _ 3 5 5 h0).trans ((fld_step _ _ 5 0 5 h1).trans (fld_zero _ _ _ h2))),
    (fld_step _ _ 7 13 2 hm).trans ((fld_step _ _ 3 10 2 h0).trans ((fld_step _ _ 5 5 2 h1).trans ((fld_step _ _ 5 0 2 h2).trans (fld_zero _ _ _ h3)))),
    (fld_step _ _ 7 15 10 hm).trans ((fld_step _ _ 3 12 10 h0).trans ((fld_step _ _ 5 7 10 h1).trans ((fld_step _ _ 5 2 10 h2).trans ((fld_step _ _ 2 0 10 h3).trans (fld_last _ _ h4)))))⟩

theorem shape64 (m f0 f1 f2 f3 f4 w : Nat) (hm : m < 128) (h0 : f0 < 2 ^ 3) (h1 : f1 < 2 ^ 5) (h2 : f2 < 2 ^ 5) (h3 : f3 < 2 ^ 5) (h4 : f4 < 2 ^ 7)
    (hw : w = m + f0 * 128 + f1 * 1024 + f2 * 32768 + f3 * 1048576 + f4 * 33554432) :
    w % 128 = m ∧ fld w 7 3 = f0 ∧ fld w 10 5 = f1 ∧ fld w 15 5 = f2 ∧ fld w 20 5 = f3 ∧ fld w 25 7 = f4 := by
  have e : w = m + 2 ^ 7 * (f0 + 2 ^ 3 * (f1 + 2 ^ 5 * (f2 + 2 ^ 5 * (f3 + 2 ^ 5 * f4)))) := by omega
  rw [e]
  exact ⟨low_packed _ _ hm,
    (fld_step _ _ 7 0 3 hm).trans (fld_zero _ _ _ h0),
    (fld_step _ _ 7 3 5 hm).trans ((fld_step _ _ 3 0 5 h0).trans (fld_zero _ _ _ h1)),
    (fld_step _ _ 7 8 5 hm).trans ((fld_step _ _ 3 5 5 h0).trans ((fld_step _ _ 5 0 5 h1).trans (fld_zero _ _ _ h2))),
    (fld_step _ _ 7 13 5 hm).trans ((fld_step _ _ 3 10 5 h0).trans ((fld_step _ _ 5 5 5 h1).trans ((fld_step _ _ 5 0 5 h2).trans (fld_zero _ _ _ h3)))),
    (fld_step _ _ 7 18 7 hm).trans ((fld_step _ _ 3 15 7 h0).trans ((fld_step _ _ 5 10 7 h1).trans ((fld_step _ _ 5 5 7 h2).trans ((fld_step _ _ 5 0 7 h3).trans (fld_last _ _ h4)))))⟩

theorem shape65 (m f0 f1 f2 f3 w : Nat) (hm : m < 128) (h0 : f0 < 2 ^ 3) (h1 : f1 < 2 ^ 5) (h2 : f2 < 2 ^ 5) (h3 : f3 < 2 ^ 12)
    (hw : w = m + f0 * 128 + f1 * 1024 + f2 * 32768 + f3 * 1048576) :
    w % 128 = m ∧ fld w 7 3 = f0 ∧ fld w 10 5 = f1 ∧ fld w 15 5 = f2 ∧ fld w 20 12 = f3 := by
  have e : w = m + 2 ^ 7 * (f0 + 2 ^ 3 * (f1 + 2 ^ 5 * (f2 + 2 ^ 5 * f3))) := by omega
  rw [e]
  exact ⟨low_packed _ _ hm,
    (fld_step _ _ 7 0 3 hm).trans (fld_zero _ _ _ h0),
    (fld_step _ _ 7 3 5 hm).trans ((fld_step _ _ 3 0 5 h0).trans (fld_zero _ _ _ h1)),
    (fld_step _ _ 7 8 5 hm).trans ((fld_step _ _ 3 5 5 h0).trans ((fld_step _ _ 5 0 5 h1).trans (fld_zero _ _ _ h2))),
    (fld_step _ _ 7 13 12 hm).trans ((fld_step _ _ 3 10 12 h0).trans ((fld_step _ _ 5 5 12 h1).trans ((fld_step _ _ 5 0 12 h2).trans (fld_last _ _ h3))))⟩

theorem shape66 (m f0 f1 f2 f3 w : Nat) (hm : m < 128) (h0 : f0 < 2 ^ 8) (h1 : f1 < 2 ^ 5) (h2 : f2 < 2 ^ 5) (h3 : f3 < 2 ^ 7)
    (hw : w = m + f0 * 128 + f1 * 32768 + f2 * 1048576 + f3 * 33554432) :
    w % 128 = m ∧ fld w 7 8 = f0 ∧ fld w 15 5 = f1 ∧ fld w 20 5 = f2 ∧ fld w 25 7 = f3 := by
  have e : w = m + 2 ^ 7 * (f0 + 2 ^ 8 * (f1 + 2 ^ 5 * (f2 + 2 ^ 5 * f3))) := by omega
  rw [e]
  exact ⟨low_packed _ _ hm,
    (fld_step _ _ 7 0 8 hm).trans (fld_zero _ _ _ h0),
    (fld_step _ _ 7 8 5 hm).trans ((fld_step _ _ 8 0 5 h0).trans (fld_zero _ _ _ h1)),
    (fld_step _ _ 7 13 5 hm).trans ((fld_step _ _ 8 5 5 h0).trans ((fld_step _ _ 5 0 5 h1).trans (fld_zero _ _ _ h2))),
    (fld_step _ _ 7 18 7 hm).trans ((fld_step _ _ 8 10 7 h0).trans ((fld_step _ _ 5 5 7 h1).trans ((fld_step _ _ 5 0 7 h2).trans (fld_last _ _ h3))))⟩

theorem shape67 (m f0 f1 f2 f3 f4 f5 w : Nat) (hm : m < 128) (h0 : f0 < 2 ^ 3) (h1 : f1 < 2 ^ 5) (h2 : f2 < 2 ^ 5) (h3 : f3 < 2 ^ 3) (h4 : f4 < 2 ^ 8) (h5 : f5 < 2 ^ 1)
    (hw : w = m + f0 * 128 + f1 * 1024 + f2 * 32768 + f3 * 1048576 + f4 * 8388608 + f5 * 2147483648) :
    w % 128 = m ∧ fld w 7 3 = f0 ∧ fld w 10 5 = f1 ∧ fld w 15 5 = f2 ∧ fld w 20 3 = f3 ∧ fld w 23 8 = f4 ∧ fld w 31 1 = f5 := by
  have e : w = m + 2 ^ 7 * (f0 + 2 ^ 3 * (f1 + 2 ^ 5 * (f2 + 2 ^ 5 * (f3 + 2 ^ 3 * (f4 + 2 ^ 8 * f5))))) := by omega
  rw [e]
  exact ⟨low_packed _ _ hm,
    (fld_step _ _ 7 0 3 hm).trans (fld_zero _ _ _ h0),
    (fld_step _ _ 7 3 5 hm).trans ((fld_step _ _ 3 0 5 h0).trans (fld_zero _ _ _ h1)),
    (fld_step _ _ 7 8 5 hm).trans ((fld_step _ _ 3 5 5 h0).trans ((fld_step _ _ 5 0 5 h1).trans (fld_zero _ _ _ h2))),
    (fld_step _ _ 7 13 3 hm).trans ((fld_step _ _ 3 10 3 h0).trans ((fld_step _ _ 5 5 3 h1).trans ((fld_step _ _ 5 0 3 h2).trans (fld_zero _ _ _ h3)))),
    (fld_step _ _ 7 16 8 hm).trans ((fld_step _ _ 3 13 8 h0).trans ((fld_step _ _ 5 8 8 h1).trans ((fld_step _ _ 5 3 8 h2).trans ((fld_step _ _ 3 0 8 h3).trans (fld_zero _ _ _ h4))))),
    (fld_step _ _ 7 24 1 hm).trans ((fld_step _ _ 3 21 1 h0).trans ((fld_step _ _ 5 16 1 h1).trans ((fld_step _ _ 5 11 1 h2).trans ((fld_step _ _ 3 8 1 h3).trans ((fld_step _ _ 8 0 1 h4).trans (fld_last _ _ h5))))))⟩

theorem shape68 (m f0 f1 f2 f3 f4 f5 w : Nat) (hm : m < 128) (h0 : f0 < 2 ^ 3) (h1 : f1 < 2 ^ 3) (h2 : f2 < 2 ^ 2) (h3 : f3 < 2 ^ 5) (h4 : f4 < 2 ^ 5) (h5 : f5 < 2 ^ 7)
    (hw : w = m + f0 * 128 + f1 * 1024 + f2 * 8192 + f3 * 32768 + f4 * 1048576 + f5 * 33554432) :
    w % 128 = m ∧ fld w 7 3 = f0 ∧ fld w 10 3 = f1 ∧ fld w 13 2 = f2 ∧ fld w 15 5 = f3 ∧ fld w 20 5 = f4 ∧ fld w 25 7 = f5 := by
  have e : w = m + 2 ^ 7 * (f0 + 2 ^ 3 * (f1 + 2 ^ 3 * (f2 + 2 ^ 2 * (f3 + 2 ^ 5 * (f4 + 2 ^ 5 * f5))))) := by omega
  rw [e]
  exact ⟨low_packed _ _ hm,
    (fld_step _ _ 7 0 3 hm).trans (fld_zero _ _ _ h0),
    (fld_step _ _ 7 3 3 hm).trans ((fld_step _ _ 3 0 3 h0).trans (fld_zero _ _ _ h1)),
    (fld_step _ _ 7 6 2 hm).trans ((fld_step _ _ 3 3 2 h0).trans ((fld_step _ _ 3 0 2 h1).trans (fld_zero _ _ _ h2))),
    (fld_step _ _ 7 8 5 hm).trans ((fld_step _ _ 3 5 5 h0).trans ((fld_step _ _ 3 2 5 h1).trans ((fld_step _ _ 2 0 5 h2).trans (fld_zero _ _ _ h3)))),
    (fld_step _ _ 7 13 5 hm).trans ((fld_step _ _ 3 10 5 h0).trans ((fld_step _ _ 3 7 5 h1).trans ((fld_step _ _ 2 5 5 h2).trans ((fld_step _ _ 5 0 5 h3).trans (fld_zero _ _ _ h4))))),
    (fld_step _ _ 7 18 7 hm).trans ((fld_step _ _ 3 15 7 h0).trans ((fld_step _ _ 3 12 7 h1).trans ((fld_step _ _ 2 10 7 h2).trans ((fld_step _ _ 5 5 7 h3).trans ((fld_step _ _ 5 0 7 h4).trans (fld_last _ _ h5))))))⟩

theorem major01 (w : Nat) (h : w % 128 = 1) : decodeRaw w = decodeMajor01 w := by unfold decodeRaw; rw [h]; rfl
theorem major02 (w : Nat) (h : w % 128 = 2) : decodeRaw w = decodeMajor02 w := by unfold decodeRaw; rw [h]; rfl
theorem major03 (w : Nat) (h : w % 128 = 3) : decodeRaw w = decodeMajor03 w := by unfold decodeRaw; rw [h]; rfl
theorem major04 (w : Nat) (h : w % 128 = 4) : decodeRaw w = decodeMajor04 w := by unfold decodeRaw; rw [h]; rfl
theorem major05 (w : Nat) (h : w % 128 = 5) : decodeRaw w = decodeMajor05 w := by unfold decodeRaw; rw [h]; rfl
theorem major06 (w : Nat) (h : w % 128 = 6) : decodeRaw w = decodeMajor06 w := by unfold decodeRaw; rw [h]; rfl
theorem major07 (w : Nat) (h : w % 128 = 7) : decodeRaw w = decodeMajor07 w := by unfold decodeRaw; rw [h]; rfl
theorem major08 (w : Nat) (h : w % 128 = 8) : decodeRaw w = decodeMajor08 w := by unfold decodeRaw; rw [h]; rfl
theorem major09 (w : Nat) (h : w % 128 = 9) : decodeRaw w = decodeMajor09 w := by unfold decodeRaw; rw [h]; rfl
theorem major0A (w : Nat) (h : w % 128 = 10) : decodeRaw w = decodeMajor0A w := by unfold decodeRaw; rw [h]; rfl
theorem major0B (w : Nat) (h : w % 128 = 11) : decodeRaw w = decodeMajor0B w := by unfold decodeRaw; rw [h]; rfl
theorem major0C (w : Nat) (h : w % 128 = 12) : decodeRaw w = decodeMajor0C w := by unfold decodeRaw; rw [h]; rfl
theorem major0D (w : Nat) (h : w % 128 = 13) : decodeRaw w = decodeMajor0D w := by unfold decodeRaw; rw [h]; rfl
theorem major0E (w : Nat) (h : w % 128 = 14) : decodeRaw w = decodeMajor0E w := by unfold decodeRaw; rw [h]; rfl
theorem major10 (w : Nat) (h : w % 128 = 16) : decodeRaw w = decodeMajor10 w := by unfold decodeRaw; rw [h]; rfl
theorem major11 (w : Nat) (h : w % 128 = 17) : decodeRaw w = decodeMajor11 w := by unfold decodeRaw; rw [h]; rfl
theorem major12 (w : Nat) (h : w % 128 = 18) : decodeRaw w = decodeMajor12 w := by unfold decodeRaw; rw [h]; rfl
theorem major13 (w : Nat) (h : w % 128 = 19) : decodeRaw w = decodeMajor13 w := by unfold decodeRaw; rw [h]; rfl
theorem major14 (w : Nat) (h : w % 128 = 20) : decodeRaw w = decodeMajor14 w := by unfold decodeRaw; rw [h]; rfl
theorem major15 (w : Nat) (h : w % 128 = 21) : decodeRaw w = decodeMajor15 w := by unfold decodeRaw; rw [h]; rfl
theorem major20 (w : Nat) (h : w % 128 = 32) : decodeRaw w = decodeMajor20 w := by unfold decodeRaw; rw [h]; rfl
theorem major21 (w : Nat) (h : w % 128 = 33) : decodeRaw w = decodeMajor21 w := by unfold decodeRaw; rw [h]; rfl
theorem major22 (w : Nat) (h : w % 128 = 34) : decodeRaw w = decodeMajor22 w := by unfold decodeRaw; rw [h]; rfl
theorem major23 (w : Nat) (h : w % 128 = 35) : decodeRaw w = decodeMajor23 w := by unfold decodeRaw; rw [h]; rfl
theorem major24 (w : Nat) (h : w % 128 = 36) : decodeRaw w = decodeMajor24 w := by unfold decodeRaw; rw [h]; rfl
theorem major25 (w : Nat) (h : w % 128 = 37) : decodeRaw w = decodeMajor25 w := by unfold decodeRaw; rw [h]; rfl
theorem major29 (w : Nat) (h : w % 128 = 41) : decodeRaw w = decodeMajor29 w := by unfold decodeRaw; rw [h]; rfl
theorem major30 (w : Nat) (h : w % 128 = 48) : decodeRaw w = decodeMajor30 w := by unfold decodeRaw; rw [h]; rfl
theorem major31 (w : Nat) (h : w % 128 = 49) : decodeRaw w = decodeMajor31 w := by unfold decodeRaw; rw [h]; rfl
theorem major32 (w : Nat) (h : w % 128 = 50) : decodeRaw w = decodeMajor32 w := by unfold decodeRaw; rw [h]; rfl
theorem major33 (w : Nat) (h : w % 128 = 51) : decodeRaw w = decodeMajor33 w := by unfold decodeRaw; rw [h]; rfl
theorem major34 (w : Nat) (h : w % 128 = 52) : decodeRaw w = decodeMajor34 w := by unfold decodeRaw; rw [h]; rfl
theorem major35 (w : Nat) (h : w % 128 = 53) : decodeRaw w = decodeMajor35 w := by unfold decodeRaw; rw [h]; rfl
theorem major36 (w : Nat) (h : w % 128 = 54) : decodeRaw w = decodeMajor36 w := by unfold decodeRaw; rw [h]; rfl
theorem major37 (w : Nat) (h : w % 128 = 55) : decodeRaw w = decodeMajor37 w := by unfold decodeRaw; rw [h]; rfl
theorem major38 (w : Nat) (h : w % 128 = 56) : decodeRaw w = decodeMajor38 w := by unfold decodeRaw; rw [h]; rfl
theorem major39 (w : Nat) (h : w % 128 = 57) : decodeRaw w = decodeMajor39 w := by unfold decodeRaw; rw [h]; rfl
theorem major3A (w : Nat) (h : w % 128 = 58) : decodeRaw w = decodeMajor3A w := by unfold decodeRaw; rw [h]; rfl
theorem major3B (w : Nat) (h : w % 128 = 59) : decodeRaw w = decodeMajor3B w := by unfold decodeRaw; rw [h]; rfl
theorem major3C (w : Nat) (h : w % 128 = 60) : decodeRaw w = decodeMajor3C w := by unfold decodeRaw; rw [h]; rfl
theorem major40 (w : Nat) (h : w % 128 = 64) : decodeRaw w = decodeMajor40 w := by unfold decodeRaw; rw [h]; rfl
theorem major41 (w : Nat) (h : w % 128 = 65) : decodeRaw w = decodeMajor41 w := by unfold decodeRaw; rw [h]; rfl
theorem major42 (w : Nat) (h : w % 128 = 66) : decodeRaw w = decodeMajor42 w := by unfold decodeRaw; rw [h]; rfl
theorem major48 (w : Nat) (h : w % 128 = 72) : decodeRaw w = decodeMajor48 w := by unfold decodeRaw; rw [h]; rfl
theorem major49 (w : Nat) (h : w % 128 = 73) : decodeRaw w = decodeMajor49 w := by unfold decodeRaw; rw [h]; rfl
theorem major4A (w : Nat) (h : w % 128 = 74) : decodeRaw w = decodeMajor4A w := by unfold decodeRaw; rw [h]; rfl
theorem major4B (w : Nat) (h : w % 128 = 75) : decodeRaw w = decodeMajor4B w := by unfold decodeRaw; rw [h]; rfl
theorem major4C (w : Nat) (h : w % 128 = 76) : decodeRaw w = decodeMajor4C w := by unfold decodeRaw; rw [h]; rfl
theorem major50 (w : Nat) (h : w % 128 = 80) : decodeRaw w = decodeMajor50 w := by unfold decodeRaw; rw [h]; rfl
theorem major51 (w : Nat) (h : w % 128 = 81) : decodeRaw w = decodeMajor51 w := by unfold decodeRaw; rw [h]; rfl
theorem major52 (w : Nat) (h : w % 128 = 82) : decodeRaw w = decodeMajor52 w := by unfold decodeRaw; rw [h]; rfl
theorem major53 (w : Nat) (h : w % 128 = 83) : decodeRaw w = decodeMajor53 w := by unfold decodeRaw; rw [h]; rfl

theorem add (d : XReg) (a : XReg) (b : XReg) (w : Nat) (hw : w = 1 + d.val * 128 + a.val * 4096 + b.val * 131072) :
    w % 128 = 1 ∧ decodeRaw w = some (.add d a b) := by
  obtain ⟨h7, e0, e1, e2, e3⟩ := shape1 1 _ _ _ 0 w (by decide) d.isLt a.isLt b.isLt (by decide)
    (by rw [hw]; simp only [zero_tile])
  refine ⟨h7, ?_⟩
  rw [major01 w h7, decodeMajor01]
  simp only [e0, e1, e2, e3, fin_ofNat, beq_toNat, scope_ofCode, order_ofCode, tag_ofCode, Nat.reduceEqDiff, ↓reduceIte, OfNat.ofNat_ne_zero, and_true, and_false, and_self, false_and, true_and, Option.map_some]
  try rfl

theorem sub (d : XReg) (a : XReg) (b : XReg) (w : Nat) (hw : w = 4194305 + d.val * 128 + a.val * 4096 + b.val * 131072) :
    w % 128 = 1 ∧ decodeRaw w = some (.sub d a b) := by
  obtain ⟨h7, e0, e1, e2, e3⟩ := shape1 1 _ _ _ 1 w (by decide) d.isLt a.isLt b.isLt (by decide)
    (by omega)
  refine ⟨h7, ?_⟩
  rw [major01 w h7, decodeMajor01]
  simp only [e0, e1, e2, e3, fin_ofNat, beq_toNat, scope_ofCode, order_ofCode, tag_ofCode, Nat.reduceEqDiff, ↓reduceIte, OfNat.ofNat_ne_zero, and_true, and_false, and_self, false_and, true_and, Option.map_some]
  try rfl

theorem and (d : XReg) (a : XReg) (b : XReg) (w : Nat) (hw : w = 8388609 + d.val * 128 + a.val * 4096 + b.val * 131072) :
    w % 128 = 1 ∧ decodeRaw w = some (.and d a b) := by
  obtain ⟨h7, e0, e1, e2, e3⟩ := shape1 1 _ _ _ 2 w (by decide) d.isLt a.isLt b.isLt (by decide)
    (by omega)
  refine ⟨h7, ?_⟩
  rw [major01 w h7, decodeMajor01]
  simp only [e0, e1, e2, e3, fin_ofNat, beq_toNat, scope_ofCode, order_ofCode, tag_ofCode, Nat.reduceEqDiff, ↓reduceIte, OfNat.ofNat_ne_zero, and_true, and_false, and_self, false_and, true_and, Option.map_some]
  try rfl

theorem or (d : XReg) (a : XReg) (b : XReg) (w : Nat) (hw : w = 12582913 + d.val * 128 + a.val * 4096 + b.val * 131072) :
    w % 128 = 1 ∧ decodeRaw w = some (.or d a b) := by
  obtain ⟨h7, e0, e1, e2, e3⟩ := shape1 1 _ _ _ 3 w (by decide) d.isLt a.isLt b.isLt (by decide)
    (by omega)
  refine ⟨h7, ?_⟩
  rw [major01 w h7, decodeMajor01]
  simp only [e0, e1, e2, e3, fin_ofNat, beq_toNat, scope_ofCode, order_ofCode, tag_ofCode, Nat.reduceEqDiff, ↓reduceIte, OfNat.ofNat_ne_zero, and_true, and_false, and_self, false_and, true_and, Option.map_some]
  try rfl

theorem xor (d : XReg) (a : XReg) (b : XReg) (w : Nat) (hw : w = 16777217 + d.val * 128 + a.val * 4096 + b.val * 131072) :
    w % 128 = 1 ∧ decodeRaw w = some (.xor d a b) := by
  obtain ⟨h7, e0, e1, e2, e3⟩ := shape1 1 _ _ _ 4 w (by decide) d.isLt a.isLt b.isLt (by decide)
    (by omega)
  refine ⟨h7, ?_⟩
  rw [major01 w h7, decodeMajor01]
  simp only [e0, e1, e2, e3, fin_ofNat, beq_toNat, scope_ofCode, order_ofCode, tag_ofCode, Nat.reduceEqDiff, ↓reduceIte, OfNat.ofNat_ne_zero, and_true, and_false, and_self, false_and, true_and, Option.map_some]
  try rfl

theorem andn (d : XReg) (a : XReg) (b : XReg) (w : Nat) (hw : w = 20971521 + d.val * 128 + a.val * 4096 + b.val * 131072) :
    w % 128 = 1 ∧ decodeRaw w = some (.andn d a b) := by
  obtain ⟨h7, e0, e1, e2, e3⟩ := shape1 1 _ _ _ 5 w (by decide) d.isLt a.isLt b.isLt (by decide)
    (by omega)
  refine ⟨h7, ?_⟩
  rw [major01 w h7, decodeMajor01]
  simp only [e0, e1, e2, e3, fin_ofNat, beq_toNat, scope_ofCode, order_ofCode, tag_ofCode, Nat.reduceEqDiff, ↓reduceIte, OfNat.ofNat_ne_zero, and_true, and_false, and_self, false_and, true_and, Option.map_some]
  try rfl

theorem sll (d : XReg) (a : XReg) (b : XReg) (w : Nat) (hw : w = 25165825 + d.val * 128 + a.val * 4096 + b.val * 131072) :
    w % 128 = 1 ∧ decodeRaw w = some (.sll d a b) := by
  obtain ⟨h7, e0, e1, e2, e3⟩ := shape1 1 _ _ _ 6 w (by decide) d.isLt a.isLt b.isLt (by decide)
    (by omega)
  refine ⟨h7, ?_⟩
  rw [major01 w h7, decodeMajor01]
  simp only [e0, e1, e2, e3, fin_ofNat, beq_toNat, scope_ofCode, order_ofCode, tag_ofCode, Nat.reduceEqDiff, ↓reduceIte, OfNat.ofNat_ne_zero, and_true, and_false, and_self, false_and, true_and, Option.map_some]
  try rfl

theorem srl (d : XReg) (a : XReg) (b : XReg) (w : Nat) (hw : w = 29360129 + d.val * 128 + a.val * 4096 + b.val * 131072) :
    w % 128 = 1 ∧ decodeRaw w = some (.srl d a b) := by
  obtain ⟨h7, e0, e1, e2, e3⟩ := shape1 1 _ _ _ 7 w (by decide) d.isLt a.isLt b.isLt (by decide)
    (by omega)
  refine ⟨h7, ?_⟩
  rw [major01 w h7, decodeMajor01]
  simp only [e0, e1, e2, e3, fin_ofNat, beq_toNat, scope_ofCode, order_ofCode, tag_ofCode, Nat.reduceEqDiff, ↓reduceIte, OfNat.ofNat_ne_zero, and_true, and_false, and_self, false_and, true_and, Option.map_some]
  try rfl

theorem sra (d : XReg) (a : XReg) (b : XReg) (w : Nat) (hw : w = 33554433 + d.val * 128 + a.val * 4096 + b.val * 131072) :
    w % 128 = 1 ∧ decodeRaw w = some (.sra d a b) := by
  obtain ⟨h7, e0, e1, e2, e3⟩ := shape1 1 _ _ _ 8 w (by decide) d.isLt a.isLt b.isLt (by decide)
    (by omega)
  refine ⟨h7, ?_⟩
  rw [major01 w h7, decodeMajor01]
  simp only [e0, e1, e2, e3, fin_ofNat, beq_toNat, scope_ofCode, order_ofCode, tag_ofCode, Nat.reduceEqDiff, ↓reduceIte, OfNat.ofNat_ne_zero, and_true, and_false, and_self, false_and, true_and, Option.map_some]
  try rfl

theorem rol (d : XReg) (a : XReg) (b : XReg) (w : Nat) (hw : w = 37748737 + d.val * 128 + a.val * 4096 + b.val * 131072) :
    w % 128 = 1 ∧ decodeRaw w = some (.rol d a b) := by
  obtain ⟨h7, e0, e1, e2, e3⟩ := shape1 1 _ _ _ 9 w (by decide) d.isLt a.isLt b.isLt (by decide)
    (by omega)
  refine ⟨h7, ?_⟩
  rw [major01 w h7, decodeMajor01]
  simp only [e0, e1, e2, e3, fin_ofNat, beq_toNat, scope_ofCode, order_ofCode, tag_ofCode, Nat.reduceEqDiff, ↓reduceIte, OfNat.ofNat_ne_zero, and_true, and_false, and_self, false_and, true_and, Option.map_some]
  try rfl

theorem ror (d : XReg) (a : XReg) (b : XReg) (w : Nat) (hw : w = 41943041 + d.val * 128 + a.val * 4096 + b.val * 131072) :
    w % 128 = 1 ∧ decodeRaw w = some (.ror d a b) := by
  obtain ⟨h7, e0, e1, e2, e3⟩ := shape1 1 _ _ _ 10 w (by decide) d.isLt a.isLt b.isLt (by decide)
    (by omega)
  refine ⟨h7, ?_⟩
  rw [major01 w h7, decodeMajor01]
  simp only [e0, e1, e2, e3, fin_ofNat, beq_toNat, scope_ofCode, order_ofCode, tag_ofCode, Nat.reduceEqDiff, ↓reduceIte, OfNat.ofNat_ne_zero, and_true, and_false, and_self, false_and, true_and, Option.map_some]
  try rfl

theorem min (d : XReg) (a : XReg) (b : XReg) (w : Nat) (hw : w = 46137345 + d.val * 128 + a.val * 4096 + b.val * 131072) :
    w % 128 = 1 ∧ decodeRaw w = some (.min d a b) := by
  obtain ⟨h7, e0, e1, e2, e3⟩ := shape1 1 _ _ _ 11 w (by decide) d.isLt a.isLt b.isLt (by decide)
    (by omega)
  refine ⟨h7, ?_⟩
  rw [major01 w h7, decodeMajor01]
  simp only [e0, e1, e2, e3, fin_ofNat, beq_toNat, scope_ofCode, order_ofCode, tag_ofCode, Nat.reduceEqDiff, ↓reduceIte, OfNat.ofNat_ne_zero, and_true, and_false, and_self, false_and, true_and, Option.map_some]
  try rfl

theorem max (d : XReg) (a : XReg) (b : XReg) (w : Nat) (hw : w = 50331649 + d.val * 128 + a.val * 4096 + b.val * 131072) :
    w % 128 = 1 ∧ decodeRaw w = some (.max d a b) := by
  obtain ⟨h7, e0, e1, e2, e3⟩ := shape1 1 _ _ _ 12 w (by decide) d.isLt a.isLt b.isLt (by decide)
    (by omega)
  refine ⟨h7, ?_⟩
  rw [major01 w h7, decodeMajor01]
  simp only [e0, e1, e2, e3, fin_ofNat, beq_toNat, scope_ofCode, order_ofCode, tag_ofCode, Nat.reduceEqDiff, ↓reduceIte, OfNat.ofNat_ne_zero, and_true, and_false, and_self, false_and, true_and, Option.map_some]
  try rfl

theorem minu (d : XReg) (a : XReg) (b : XReg) (w : Nat) (hw : w = 54525953 + d.val * 128 + a.val * 4096 + b.val * 131072) :
    w % 128 = 1 ∧ decodeRaw w = some (.minu d a b) := by
  obtain ⟨h7, e0, e1, e2, e3⟩ := shape1 1 _ _ _ 13 w (by decide) d.isLt a.isLt b.isLt (by decide)
    (by omega)
  refine ⟨h7, ?_⟩
  rw [major01 w h7, decodeMajor01]
  simp only [e0, e1, e2, e3, fin_ofNat, beq_toNat, scope_ofCode, order_ofCode, tag_ofCode, Nat.reduceEqDiff, ↓reduceIte, OfNat.ofNat_ne_zero, and_true, and_false, and_self, false_and, true_and, Option.map_some]
  try rfl

theorem maxu (d : XReg) (a : XReg) (b : XReg) (w : Nat) (hw : w = 58720257 + d.val * 128 + a.val * 4096 + b.val * 131072) :
    w % 128 = 1 ∧ decodeRaw w = some (.maxu d a b) := by
  obtain ⟨h7, e0, e1, e2, e3⟩ := shape1 1 _ _ _ 14 w (by decide) d.isLt a.isLt b.isLt (by decide)
    (by omega)
  refine ⟨h7, ?_⟩
  rw [major01 w h7, decodeMajor01]
  simp only [e0, e1, e2, e3, fin_ofNat, beq_toNat, scope_ofCode, order_ofCode, tag_ofCode, Nat.reduceEqDiff, ↓reduceIte, OfNat.ofNat_ne_zero, and_true, and_false, and_self, false_and, true_and, Option.map_some]
  try rfl

theorem csel (d : XReg) (a : XReg) (b : XReg) (n : CBit) (w : Nat) (hw : w = 1073741825 + d.val * 128 + a.val * 4096 + b.val * 131072 + n.val * 4194304) :
    w % 128 = 1 ∧ decodeRaw w = some (.csel d a b n) := by
  obtain ⟨h7, e0, e1, e2, e3, e4⟩ := shape2 1 _ _ _ _ 32 w (by decide) d.isLt a.isLt b.isLt n.isLt (by decide)
    (by omega)
  have k0 := other_bits w 22 10 0 25 7 32 25 7 e4 (by decide)
  have k1 := other_bits w 22 10 1 25 7 32 25 7 e4 (by decide)
  have k2 := other_bits w 22 10 2 25 7 32 25 7 e4 (by decide)
  have k3 := other_bits w 22 10 3 25 7 32 25 7 e4 (by decide)
  have k4 := other_bits w 22 10 4 25 7 32 25 7 e4 (by decide)
  have k5 := other_bits w 22 10 5 25 7 32 25 7 e4 (by decide)
  have k6 := other_bits w 22 10 6 25 7 32 25 7 e4 (by decide)
  have k7 := other_bits w 22 10 7 25 7 32 25 7 e4 (by decide)
  have k8 := other_bits w 22 10 8 25 7 32 25 7 e4 (by decide)
  have k9 := other_bits w 22 10 9 25 7 32 25 7 e4 (by decide)
  have k10 := other_bits w 22 10 10 25 7 32 25 7 e4 (by decide)
  have k11 := other_bits w 22 10 11 25 7 32 25 7 e4 (by decide)
  have k12 := other_bits w 22 10 12 25 7 32 25 7 e4 (by decide)
  have k13 := other_bits w 22 10 13 25 7 32 25 7 e4 (by decide)
  have k14 := other_bits w 22 10 14 25 7 32 25 7 e4 (by decide)
  refine ⟨h7, ?_⟩
  rw [major01 w h7, decodeMajor01]
  simp only [e0, e1, e2, e3, e4, k0, k1, k2, k3, k4, k5, k6, k7, k8, k9, k10, k11, k12, k13, k14, fin_ofNat, beq_toNat, scope_ofCode, order_ofCode, tag_ofCode, Nat.reduceEqDiff, ↓reduceIte, OfNat.ofNat_ne_zero, and_true, and_false, and_self, false_and, true_and, Option.map_some]
  try rfl

theorem addi (d : XReg) (a : XReg) (i : Int) (w : Nat) (hw : w = 2 + d.val * 128 + a.val * 4096 + immField 12 i * 1048576) :
    w % 128 = 2 ∧ decodeRaw w = some (.addi d a (sx 12 (immField 12 i))) := by
  obtain ⟨h7, e0, e1, e2, e3⟩ := shape3 2 _ _ 0 _ w (by decide) d.isLt a.isLt (by decide) (immField_bound 12 i)
    (by rw [hw]; simp only [zero_tile])
  refine ⟨h7, ?_⟩
  rw [major02 w h7, decodeMajor02]
  simp only [e0, e1, e2, e3, fin_ofNat, beq_toNat, scope_ofCode, order_ofCode, tag_ofCode, Nat.reduceEqDiff, ↓reduceIte, OfNat.ofNat_ne_zero, and_true, and_false, and_self, false_and, true_and, Option.map_some]
  try rfl

theorem andi (d : XReg) (a : XReg) (i : Int) (w : Nat) (hw : w = 131074 + d.val * 128 + a.val * 4096 + immField 12 i * 1048576) :
    w % 128 = 2 ∧ decodeRaw w = some (.andi d a (sx 12 (immField 12 i))) := by
  obtain ⟨h7, e0, e1, e2, e3⟩ := shape3 2 _ _ 1 _ w (by decide) d.isLt a.isLt (by decide) (immField_bound 12 i)
    (by omega)
  refine ⟨h7, ?_⟩
  rw [major02 w h7, decodeMajor02]
  simp only [e0, e1, e2, e3, fin_ofNat, beq_toNat, scope_ofCode, order_ofCode, tag_ofCode, Nat.reduceEqDiff, ↓reduceIte, OfNat.ofNat_ne_zero, and_true, and_false, and_self, false_and, true_and, Option.map_some]
  try rfl

theorem ori (d : XReg) (a : XReg) (i : Int) (w : Nat) (hw : w = 262146 + d.val * 128 + a.val * 4096 + immField 12 i * 1048576) :
    w % 128 = 2 ∧ decodeRaw w = some (.ori d a (sx 12 (immField 12 i))) := by
  obtain ⟨h7, e0, e1, e2, e3⟩ := shape3 2 _ _ 2 _ w (by decide) d.isLt a.isLt (by decide) (immField_bound 12 i)
    (by omega)
  refine ⟨h7, ?_⟩
  rw [major02 w h7, decodeMajor02]
  simp only [e0, e1, e2, e3, fin_ofNat, beq_toNat, scope_ofCode, order_ofCode, tag_ofCode, Nat.reduceEqDiff, ↓reduceIte, OfNat.ofNat_ne_zero, and_true, and_false, and_self, false_and, true_and, Option.map_some]
  try rfl

theorem xori (d : XReg) (a : XReg) (i : Int) (w : Nat) (hw : w = 393218 + d.val * 128 + a.val * 4096 + immField 12 i * 1048576) :
    w % 128 = 2 ∧ decodeRaw w = some (.xori d a (sx 12 (immField 12 i))) := by
  obtain ⟨h7, e0, e1, e2, e3⟩ := shape3 2 _ _ 3 _ w (by decide) d.isLt a.isLt (by decide) (immField_bound 12 i)
    (by omega)
  refine ⟨h7, ?_⟩
  rw [major02 w h7, decodeMajor02]
  simp only [e0, e1, e2, e3, fin_ofNat, beq_toNat, scope_ofCode, order_ofCode, tag_ofCode, Nat.reduceEqDiff, ↓reduceIte, OfNat.ofNat_ne_zero, and_true, and_false, and_self, false_and, true_and, Option.map_some]
  try rfl

theorem slli (d : XReg) (a : XReg) (s : Fin 64) (w : Nat) (hw : w = 524290 + d.val * 128 + a.val * 4096 + s.val * 1048576) :
    w % 128 = 2 ∧ decodeRaw w = some (.slli d a s) := by
  obtain ⟨h7, e0, e1, e2, e3, e4⟩ := shape4 2 _ _ 4 _ 0 w (by decide) d.isLt a.isLt (by decide) s.isLt (by decide)
    (by omega)
  refine ⟨h7, ?_⟩
  rw [major02 w h7, decodeMajor02]
  simp only [e0, e1, e2, e3, e4, fin_ofNat, beq_toNat, scope_ofCode, order_ofCode, tag_ofCode, Nat.reduceEqDiff, ↓reduceIte, OfNat.ofNat_ne_zero, and_true, and_false, and_self, false_and, true_and, Option.map_some]
  try rfl

theorem srli (d : XReg) (a : XReg) (s : Fin 64) (w : Nat) (hw : w = 655362 + d.val * 128 + a.val * 4096 + s.val * 1048576) :
    w % 128 = 2 ∧ decodeRaw w = some (.srli d a s) := by
  obtain ⟨h7, e0, e1, e2, e3, e4⟩ := shape4 2 _ _ 5 _ 0 w (by decide) d.isLt a.isLt (by decide) s.isLt (by decide)
    (by omega)
  refine ⟨h7, ?_⟩
  rw [major02 w h7, decodeMajor02]
  simp only [e0, e1, e2, e3, e4, fin_ofNat, beq_toNat, scope_ofCode, order_ofCode, tag_ofCode, Nat.reduceEqDiff, ↓reduceIte, OfNat.ofNat_ne_zero, and_true, and_false, and_self, false_and, true_and, Option.map_some]
  try rfl

theorem srai (d : XReg) (a : XReg) (s : Fin 64) (w : Nat) (hw : w = 786434 + d.val * 128 + a.val * 4096 + s.val * 1048576) :
    w % 128 = 2 ∧ decodeRaw w = some (.srai d a s) := by
  obtain ⟨h7, e0, e1, e2, e3, e4⟩ := shape4 2 _ _ 6 _ 0 w (by decide) d.isLt a.isLt (by decide) s.isLt (by decide)
    (by omega)
  refine ⟨h7, ?_⟩
  rw [major02 w h7, decodeMajor02]
  simp only [e0, e1, e2, e3, e4, fin_ofNat, beq_toNat, scope_ofCode, order_ofCode, tag_ofCode, Nat.reduceEqDiff, ↓reduceIte, OfNat.ofNat_ne_zero, and_true, and_false, and_self, false_and, true_and, Option.map_some]
  try rfl

theorem rori (d : XReg) (a : XReg) (s : Fin 64) (w : Nat) (hw : w = 917506 + d.val * 128 + a.val * 4096 + s.val * 1048576) :
    w % 128 = 2 ∧ decodeRaw w = some (.rori d a s) := by
  obtain ⟨h7, e0, e1, e2, e3, e4⟩ := shape4 2 _ _ 7 _ 0 w (by decide) d.isLt a.isLt (by decide) s.isLt (by decide)
    (by omega)
  refine ⟨h7, ?_⟩
  rw [major02 w h7, decodeMajor02]
  simp only [e0, e1, e2, e3, e4, fin_ofNat, beq_toNat, scope_ofCode, order_ofCode, tag_ofCode, Nat.reduceEqDiff, ↓reduceIte, OfNat.ofNat_ne_zero, and_true, and_false, and_self, false_and, true_and, Option.map_some]
  try rfl

theorem lui (d : XReg) (i : Int) (w : Nat) (hw : w = 3 + d.val * 128 + immField 20 i * 4096) :
    w % 128 = 3 ∧ decodeRaw w = some (.lui d (sx 20 (immField 20 i))) := by
  obtain ⟨h7, e0, e1⟩ := shape5 3 _ _ w (by decide) d.isLt (immField_bound 20 i)
    hw
  refine ⟨h7, ?_⟩
  rw [major03 w h7, decodeMajor03]
  simp only [e0, e1, fin_ofNat, beq_toNat, scope_ofCode, order_ofCode, tag_ofCode, Nat.reduceEqDiff, ↓reduceIte, OfNat.ofNat_ne_zero, and_true, and_false, and_self, false_and, true_and, Option.map_some]
  try rfl

theorem lb (d : XReg) (a : XReg) (o : Int) (w : Nat) (hw : w = 4 + d.val * 128 + a.val * 4096 + immField 12 o * 1048576) :
    w % 128 = 4 ∧ decodeRaw w = some (.lb d a (sx 12 (immField 12 o))) := by
  obtain ⟨h7, e0, e1, e2, e3⟩ := shape3 4 _ _ 0 _ w (by decide) d.isLt a.isLt (by decide) (immField_bound 12 o)
    (by rw [hw]; simp only [zero_tile])
  refine ⟨h7, ?_⟩
  rw [major04 w h7, decodeMajor04]
  simp only [e0, e1, e2, e3, fin_ofNat, beq_toNat, scope_ofCode, order_ofCode, tag_ofCode, Nat.reduceEqDiff, ↓reduceIte, OfNat.ofNat_ne_zero, and_true, and_false, and_self, false_and, true_and, Option.map_some]
  try rfl

theorem lh (d : XReg) (a : XReg) (o : Int) (w : Nat) (hw : w = 131076 + d.val * 128 + a.val * 4096 + immField 12 o * 1048576) :
    w % 128 = 4 ∧ decodeRaw w = some (.lh d a (sx 12 (immField 12 o))) := by
  obtain ⟨h7, e0, e1, e2, e3⟩ := shape3 4 _ _ 1 _ w (by decide) d.isLt a.isLt (by decide) (immField_bound 12 o)
    (by omega)
  refine ⟨h7, ?_⟩
  rw [major04 w h7, decodeMajor04]
  simp only [e0, e1, e2, e3, fin_ofNat, beq_toNat, scope_ofCode, order_ofCode, tag_ofCode, Nat.reduceEqDiff, ↓reduceIte, OfNat.ofNat_ne_zero, and_true, and_false, and_self, false_and, true_and, Option.map_some]
  try rfl

theorem lw (d : XReg) (a : XReg) (o : Int) (w : Nat) (hw : w = 262148 + d.val * 128 + a.val * 4096 + immField 12 o * 1048576) :
    w % 128 = 4 ∧ decodeRaw w = some (.lw d a (sx 12 (immField 12 o))) := by
  obtain ⟨h7, e0, e1, e2, e3⟩ := shape3 4 _ _ 2 _ w (by decide) d.isLt a.isLt (by decide) (immField_bound 12 o)
    (by omega)
  refine ⟨h7, ?_⟩
  rw [major04 w h7, decodeMajor04]
  simp only [e0, e1, e2, e3, fin_ofNat, beq_toNat, scope_ofCode, order_ofCode, tag_ofCode, Nat.reduceEqDiff, ↓reduceIte, OfNat.ofNat_ne_zero, and_true, and_false, and_self, false_and, true_and, Option.map_some]
  try rfl

theorem ld (d : XReg) (a : XReg) (o : Int) (w : Nat) (hw : w = 393220 + d.val * 128 + a.val * 4096 + immField 12 o * 1048576) :
    w % 128 = 4 ∧ decodeRaw w = some (.ld d a (sx 12 (immField 12 o))) := by
  obtain ⟨h7, e0, e1, e2, e3⟩ := shape3 4 _ _ 3 _ w (by decide) d.isLt a.isLt (by decide) (immField_bound 12 o)
    (by omega)
  refine ⟨h7, ?_⟩
  rw [major04 w h7, decodeMajor04]
  simp only [e0, e1, e2, e3, fin_ofNat, beq_toNat, scope_ofCode, order_ofCode, tag_ofCode, Nat.reduceEqDiff, ↓reduceIte, OfNat.ofNat_ne_zero, and_true, and_false, and_self, false_and, true_and, Option.map_some]
  try rfl

theorem lbu (d : XReg) (a : XReg) (o : Int) (w : Nat) (hw : w = 524292 + d.val * 128 + a.val * 4096 + immField 12 o * 1048576) :
    w % 128 = 4 ∧ decodeRaw w = some (.lbu d a (sx 12 (immField 12 o))) := by
  obtain ⟨h7, e0, e1, e2, e3⟩ := shape3 4 _ _ 4 _ w (by decide) d.isLt a.isLt (by decide) (immField_bound 12 o)
    (by omega)
  refine ⟨h7, ?_⟩
  rw [major04 w h7, decodeMajor04]
  simp only [e0, e1, e2, e3, fin_ofNat, beq_toNat, scope_ofCode, order_ofCode, tag_ofCode, Nat.reduceEqDiff, ↓reduceIte, OfNat.ofNat_ne_zero, and_true, and_false, and_self, false_and, true_and, Option.map_some]
  try rfl

theorem lhu (d : XReg) (a : XReg) (o : Int) (w : Nat) (hw : w = 655364 + d.val * 128 + a.val * 4096 + immField 12 o * 1048576) :
    w % 128 = 4 ∧ decodeRaw w = some (.lhu d a (sx 12 (immField 12 o))) := by
  obtain ⟨h7, e0, e1, e2, e3⟩ := shape3 4 _ _ 5 _ w (by decide) d.isLt a.isLt (by decide) (immField_bound 12 o)
    (by omega)
  refine ⟨h7, ?_⟩
  rw [major04 w h7, decodeMajor04]
  simp only [e0, e1, e2, e3, fin_ofNat, beq_toNat, scope_ofCode, order_ofCode, tag_ofCode, Nat.reduceEqDiff, ↓reduceIte, OfNat.ofNat_ne_zero, and_true, and_false, and_self, false_and, true_and, Option.map_some]
  try rfl

theorem lwu (d : XReg) (a : XReg) (o : Int) (w : Nat) (hw : w = 786436 + d.val * 128 + a.val * 4096 + immField 12 o * 1048576) :
    w % 128 = 4 ∧ decodeRaw w = some (.lwu d a (sx 12 (immField 12 o))) := by
  obtain ⟨h7, e0, e1, e2, e3⟩ := shape3 4 _ _ 6 _ w (by decide) d.isLt a.isLt (by decide) (immField_bound 12 o)
    (by omega)
  refine ⟨h7, ?_⟩
  rw [major04 w h7, decodeMajor04]
  simp only [e0, e1, e2, e3, fin_ofNat, beq_toNat, scope_ofCode, order_ofCode, tag_ofCode, Nat.reduceEqDiff, ↓reduceIte, OfNat.ofNat_ne_zero, and_true, and_false, and_self, false_and, true_and, Option.map_some]
  try rfl

theorem sb (s : XReg) (a : XReg) (o : Int) (w : Nat) (hw : w = 5 + s.val * 128 + a.val * 4096 + immField 12 o * 1048576) :
    w % 128 = 5 ∧ decodeRaw w = some (.sb s a (sx 12 (immField 12 o))) := by
  obtain ⟨h7, e0, e1, e2, e3⟩ := shape3 5 _ _ 0 _ w (by decide) s.isLt a.isLt (by decide) (immField_bound 12 o)
    (by rw [hw]; simp only [zero_tile])
  refine ⟨h7, ?_⟩
  rw [major05 w h7, decodeMajor05]
  simp only [e0, e1, e2, e3, fin_ofNat, beq_toNat, scope_ofCode, order_ofCode, tag_ofCode, Nat.reduceEqDiff, ↓reduceIte, OfNat.ofNat_ne_zero, and_true, and_false, and_self, false_and, true_and, Option.map_some]
  try rfl

theorem sh (s : XReg) (a : XReg) (o : Int) (w : Nat) (hw : w = 131077 + s.val * 128 + a.val * 4096 + immField 12 o * 1048576) :
    w % 128 = 5 ∧ decodeRaw w = some (.sh s a (sx 12 (immField 12 o))) := by
  obtain ⟨h7, e0, e1, e2, e3⟩ := shape3 5 _ _ 1 _ w (by decide) s.isLt a.isLt (by decide) (immField_bound 12 o)
    (by omega)
  refine ⟨h7, ?_⟩
  rw [major05 w h7, decodeMajor05]
  simp only [e0, e1, e2, e3, fin_ofNat, beq_toNat, scope_ofCode, order_ofCode, tag_ofCode, Nat.reduceEqDiff, ↓reduceIte, OfNat.ofNat_ne_zero, and_true, and_false, and_self, false_and, true_and, Option.map_some]
  try rfl

theorem sw (s : XReg) (a : XReg) (o : Int) (w : Nat) (hw : w = 262149 + s.val * 128 + a.val * 4096 + immField 12 o * 1048576) :
    w % 128 = 5 ∧ decodeRaw w = some (.sw s a (sx 12 (immField 12 o))) := by
  obtain ⟨h7, e0, e1, e2, e3⟩ := shape3 5 _ _ 2 _ w (by decide) s.isLt a.isLt (by decide) (immField_bound 12 o)
    (by omega)
  refine ⟨h7, ?_⟩
  rw [major05 w h7, decodeMajor05]
  simp only [e0, e1, e2, e3, fin_ofNat, beq_toNat, scope_ofCode, order_ofCode, tag_ofCode, Nat.reduceEqDiff, ↓reduceIte, OfNat.ofNat_ne_zero, and_true, and_false, and_self, false_and, true_and, Option.map_some]
  try rfl

theorem sd (s : XReg) (a : XReg) (o : Int) (w : Nat) (hw : w = 393221 + s.val * 128 + a.val * 4096 + immField 12 o * 1048576) :
    w % 128 = 5 ∧ decodeRaw w = some (.sd s a (sx 12 (immField 12 o))) := by
  obtain ⟨h7, e0, e1, e2, e3⟩ := shape3 5 _ _ 3 _ w (by decide) s.isLt a.isLt (by decide) (immField_bound 12 o)
    (by omega)
  refine ⟨h7, ?_⟩
  rw [major05 w h7, decodeMajor05]
  simp only [e0, e1, e2, e3, fin_ofNat, beq_toNat, scope_ofCode, order_ofCode, tag_ofCode, Nat.reduceEqDiff, ↓reduceIte, OfNat.ofNat_ne_zero, and_true, and_false, and_self, false_and, true_and, Option.map_some]
  try rfl

theorem bc (c : CBit) (k : Fin 4) (o : Int) (w : Nat) (hw : w = 6 + c.val * 128 + k.val * 2048 + immField 19 o * 8192) :
    w % 128 = 6 ∧ decodeRaw w = some (.bc c k (sx 19 (immField 19 o))) := by
  obtain ⟨h7, e0, e1, e2, e3⟩ := shape6 6 _ 0 _ _ w (by decide) c.isLt (by decide) k.isLt (immField_bound 19 o)
    (by rw [hw]; simp only [zero_tile])
  refine ⟨h7, ?_⟩
  rw [major06 w h7, decodeMajor06]
  simp only [e0, e1, e2, e3, fin_ofNat, beq_toNat, scope_ofCode, order_ofCode, tag_ofCode, Nat.reduceEqDiff, ↓reduceIte, OfNat.ofNat_ne_zero, and_true, and_false, and_self, false_and, true_and, Option.map_some]
  try rfl

theorem bnc (c : CBit) (k : Fin 4) (o : Int) (w : Nat) (hw : w = 1030 + c.val * 128 + k.val * 2048 + immField 19 o * 8192) :
    w % 128 = 6 ∧ decodeRaw w = some (.bnc c k (sx 19 (immField 19 o))) := by
  obtain ⟨h7, e0, e1, e2, e3⟩ := shape6 6 _ 1 _ _ w (by decide) c.isLt (by decide) k.isLt (immField_bound 19 o)
    (by omega)
  refine ⟨h7, ?_⟩
  rw [major06 w h7, decodeMajor06]
  simp only [e0, e1, e2, e3, fin_ofNat, beq_toNat, scope_ofCode, order_ofCode, tag_ofCode, Nat.reduceEqDiff, ↓reduceIte, OfNat.ofNat_ne_zero, and_true, and_false, and_self, false_and, true_and, Option.map_some]
  try rfl

theorem jal (d : XReg) (o : Int) (w : Nat) (hw : w = 7 + d.val * 128 + immField 20 o * 4096) :
    w % 128 = 7 ∧ decodeRaw w = some (.jal d (sx 20 (immField 20 o))) := by
  obtain ⟨h7, e0, e1⟩ := shape5 7 _ _ w (by decide) d.isLt (immField_bound 20 o)
    hw
  refine ⟨h7, ?_⟩
  rw [major07 w h7, decodeMajor07]
  simp only [e0, e1, fin_ofNat, beq_toNat, scope_ofCode, order_ofCode, tag_ofCode, Nat.reduceEqDiff, ↓reduceIte, OfNat.ofNat_ne_zero, and_true, and_false, and_self, false_and, true_and, Option.map_some]
  try rfl

theorem jalr (d : XReg) (a : XReg) (i : Int) (w : Nat) (hw : w = 8 + d.val * 128 + a.val * 4096 + immField 12 i * 1048576) :
    w % 128 = 8 ∧ decodeRaw w = some (.jalr d a (sx 12 (immField 12 i))) := by
  obtain ⟨h7, e0, e1, e2, e3⟩ := shape3 8 _ _ 0 _ w (by decide) d.isLt a.isLt (by decide) (immField_bound 12 i)
    (by rw [hw]; simp only [zero_tile])
  refine ⟨h7, ?_⟩
  rw [major08 w h7, decodeMajor08]
  simp only [e0, e1, e2, e3, fin_ofNat, beq_toNat, scope_ofCode, order_ofCode, tag_ofCode, Nat.reduceEqDiff, ↓reduceIte, OfNat.ofNat_ne_zero, and_true, and_false, and_self, false_and, true_and, Option.map_some]
  try rfl

theorem cmpiEq (c : CBit) (a : XReg) (i : Int) (w : Nat) (hw : w = 131081 + c.val * 128 + a.val * 4096 + immField 12 i * 1048576) :
    w % 128 = 9 ∧ decodeRaw w = some (.cmpiEq c a (sx 12 (immField 12 i))) := by
  obtain ⟨h7, e0, e1, e2, e3, e4⟩ := shape7 9 _ 0 _ 1 _ w (by decide) c.isLt (by decide) a.isLt (by decide) (immField_bound 12 i)
    (by omega)
  refine ⟨h7, ?_⟩
  rw [major09 w h7, decodeMajor09]
  simp only [e0, e1, e2, e3, e4, fin_ofNat, beq_toNat, scope_ofCode, order_ofCode, tag_ofCode, Nat.reduceEqDiff, ↓reduceIte, OfNat.ofNat_ne_zero, and_true, and_false, and_self, false_and, true_and, Option.map_some]
  try rfl

theorem cmpiLt (c : CBit) (a : XReg) (i : Int) (w : Nat) (hw : w = 262153 + c.val * 128 + a.val * 4096 + immField 12 i * 1048576) :
    w % 128 = 9 ∧ decodeRaw w = some (.cmpiLt c a (sx 12 (immField 12 i))) := by
  obtain ⟨h7, e0, e1, e2, e3, e4⟩ := shape7 9 _ 0 _ 2 _ w (by decide) c.isLt (by decide) a.isLt (by decide) (immField_bound 12 i)
    (by omega)
  refine ⟨h7, ?_⟩
  rw [major09 w h7, decodeMajor09]
  simp only [e0, e1, e2, e3, e4, fin_ofNat, beq_toNat, scope_ofCode, order_ofCode, tag_ofCode, Nat.reduceEqDiff, ↓reduceIte, OfNat.ofNat_ne_zero, and_true, and_false, and_self, false_and, true_and, Option.map_some]
  try rfl

theorem cmpiLtu (c : CBit) (a : XReg) (i : Int) (w : Nat) (hw : w = 393225 + c.val * 128 + a.val * 4096 + immField 12 i * 1048576) :
    w % 128 = 9 ∧ decodeRaw w = some (.cmpiLtu c a (sx 12 (immField 12 i))) := by
  obtain ⟨h7, e0, e1, e2, e3, e4⟩ := shape7 9 _ 0 _ 3 _ w (by decide) c.isLt (by decide) a.isLt (by decide) (immField_bound 12 i)
    (by omega)
  refine ⟨h7, ?_⟩
  rw [major09 w h7, decodeMajor09]
  simp only [e0, e1, e2, e3, e4, fin_ofNat, beq_toNat, scope_ofCode, order_ofCode, tag_ofCode, Nat.reduceEqDiff, ↓reduceIte, OfNat.ofNat_ne_zero, and_true, and_false, and_self, false_and, true_and, Option.map_some]
  try rfl

theorem cmpEq (c : CBit) (a : XReg) (b : XReg) (w : Nat) (hw : w = 524297 + c.val * 128 + a.val * 4096 + b.val * 134217728) :
    w % 128 = 9 ∧ decodeRaw w = some (.cmpEq c a b) := by
  obtain ⟨h7, e0, e1, e2, e3, e4⟩ := shape8 9 _ 0 _ 4 _ w (by decide) c.isLt (by decide) a.isLt (by decide) b.isLt
    (by omega)
  have k0 := other_bits w 17 3 1 17 10 4 17 3 e3 (by decide)
  have k1 := other_bits w 17 3 2 17 10 4 17 3 e3 (by decide)
  have k2 := other_bits w 17 3 3 17 10 4 17 3 e3 (by decide)
  refine ⟨h7, ?_⟩
  rw [major09 w h7, decodeMajor09]
  simp only [e0, e1, e2, e3, e4, k0, k1, k2, fin_ofNat, beq_toNat, scope_ofCode, order_ofCode, tag_ofCode, Nat.reduceEqDiff, ↓reduceIte, OfNat.ofNat_ne_zero, and_true, and_false, and_self, false_and, true_and, Option.map_some]
  try rfl

theorem cmpLt (c : CBit) (a : XReg) (b : XReg) (w : Nat) (hw : w = 655369 + c.val * 128 + a.val * 4096 + b.val * 134217728) :
    w % 128 = 9 ∧ decodeRaw w = some (.cmpLt c a b) := by
  obtain ⟨h7, e0, e1, e2, e3, e4⟩ := shape8 9 _ 0 _ 5 _ w (by decide) c.isLt (by decide) a.isLt (by decide) b.isLt
    (by omega)
  have k0 := other_bits w 17 3 1 17 10 5 17 3 e3 (by decide)
  have k1 := other_bits w 17 3 2 17 10 5 17 3 e3 (by decide)
  have k2 := other_bits w 17 3 3 17 10 5 17 3 e3 (by decide)
  refine ⟨h7, ?_⟩
  rw [major09 w h7, decodeMajor09]
  simp only [e0, e1, e2, e3, e4, k0, k1, k2, fin_ofNat, beq_toNat, scope_ofCode, order_ofCode, tag_ofCode, Nat.reduceEqDiff, ↓reduceIte, OfNat.ofNat_ne_zero, and_true, and_false, and_self, false_and, true_and, Option.map_some]
  try rfl

theorem cmpLtu (c : CBit) (a : XReg) (b : XReg) (w : Nat) (hw : w = 786441 + c.val * 128 + a.val * 4096 + b.val * 134217728) :
    w % 128 = 9 ∧ decodeRaw w = some (.cmpLtu c a b) := by
  obtain ⟨h7, e0, e1, e2, e3, e4⟩ := shape8 9 _ 0 _ 6 _ w (by decide) c.isLt (by decide) a.isLt (by decide) b.isLt
    (by omega)
  have k0 := other_bits w 17 3 1 17 10 6 17 3 e3 (by decide)
  have k1 := other_bits w 17 3 2 17 10 6 17 3 e3 (by decide)
  have k2 := other_bits w 17 3 3 17 10 6 17 3 e3 (by decide)
  refine ⟨h7, ?_⟩
  rw [major09 w h7, decodeMajor09]
  simp only [e0, e1, e2, e3, e4, k0, k1, k2, fin_ofNat, beq_toNat, scope_ofCode, order_ofCode, tag_ofCode, Nat.reduceEqDiff, ↓reduceIte, OfNat.ofNat_ne_zero, and_true, and_false, and_self, false_and, true_and, Option.map_some]
  try rfl

theorem cmpTst (c : CBit) (a : XReg) (b : XReg) (w : Nat) (hw : w = 917513 + c.val * 128 + a.val * 4096 + b.val * 134217728) :
    w % 128 = 9 ∧ decodeRaw w = some (.cmpTst c a b) := by
  obtain ⟨h7, e0, e1, e2, e3, e4⟩ := shape8 9 _ 0 _ 7 _ w (by decide) c.isLt (by decide) a.isLt (by decide) b.isLt
    (by omega)
  have k0 := other_bits w 17 3 1 17 10 7 17 3 e3 (by decide)
  have k1 := other_bits w 17 3 2 17 10 7 17 3 e3 (by decide)
  have k2 := other_bits w 17 3 3 17 10 7 17 3 e3 (by decide)
  refine ⟨h7, ?_⟩
  rw [major09 w h7, decodeMajor09]
  simp only [e0, e1, e2, e3, e4, k0, k1, k2, fin_ofNat, beq_toNat, scope_ofCode, order_ofCode, tag_ofCode, Nat.reduceEqDiff, ↓reduceIte, OfNat.ofNat_ne_zero, and_true, and_false, and_self, false_and, true_and, Option.map_some]
  try rfl

theorem cand (d : CBit) (s : CBit) (t : CBit) (w : Nat) (hw : w = 9 + d.val * 128 + s.val * 4096 + t.val * 4194304) :
    w % 128 = 9 ∧ decodeRaw w = some (.cand d s t) := by
  obtain ⟨h7, e0, e1, e2, e3, e4, e5⟩ := shape9 9 _ 0 _ 0 _ 0 w (by decide) d.isLt (by decide) s.isLt (by decide) t.isLt (by decide)
    (by rw [hw]; simp only [zero_tile])
  have k0 := other_bits w 17 3 1 15 7 0 17 3 e3 (by decide)
  have k1 := other_bits w 17 3 2 15 7 0 17 3 e3 (by decide)
  have k2 := other_bits w 17 3 3 15 7 0 17 3 e3 (by decide)
  have k3 := other_bits w 17 10 4 15 7 0 17 5 e3 (by decide)
  have k4 := other_bits w 17 10 5 15 7 0 17 5 e3 (by decide)
  have k5 := other_bits w 17 10 6 15 7 0 17 5 e3 (by decide)
  have k6 := other_bits w 17 10 7 15 7 0 17 5 e3 (by decide)
  refine ⟨h7, ?_⟩
  rw [major09 w h7, decodeMajor09]
  simp only [e0, e1, e2, e3, e4, e5, k0, k1, k2, k3, k4, k5, k6, fin_ofNat, beq_toNat, scope_ofCode, order_ofCode, tag_ofCode, Nat.reduceEqDiff, ↓reduceIte, OfNat.ofNat_ne_zero, and_true, and_false, and_self, false_and, true_and, Option.map_some]
  try rfl

theorem cor (d : CBit) (s : CBit) (t : CBit) (w : Nat) (hw : w = 33554441 + d.val * 128 + s.val * 4096 + t.val * 4194304) :
    w % 128 = 9 ∧ decodeRaw w = some (.cor d s t) := by
  obtain ⟨h7, e0, e1, e2, e3, e4, e5⟩ := shape9 9 _ 0 _ 0 _ 1 w (by decide) d.isLt (by decide) s.isLt (by decide) t.isLt (by decide)
    (by omega)
  have k0 := other_bits w 17 3 1 15 7 0 17 3 e3 (by decide)
  have k1 := other_bits w 17 3 2 15 7 0 17 3 e3 (by decide)
  have k2 := other_bits w 17 3 3 15 7 0 17 3 e3 (by decide)
  have k3 := other_bits w 17 10 4 15 7 0 17 5 e3 (by decide)
  have k4 := other_bits w 17 10 5 15 7 0 17 5 e3 (by decide)
  have k5 := other_bits w 17 10 6 15 7 0 17 5 e3 (by decide)
  have k6 := other_bits w 17 10 7 15 7 0 17 5 e3 (by decide)
  refine ⟨h7, ?_⟩
  rw [major09 w h7, decodeMajor09]
  simp only [e0, e1, e2, e3, e4, e5, k0, k1, k2, k3, k4, k5, k6, fin_ofNat, beq_toNat, scope_ofCode, order_ofCode, tag_ofCode, Nat.reduceEqDiff, ↓reduceIte, OfNat.ofNat_ne_zero, and_true, and_false, and_self, false_and, true_and, Option.map_some]
  try rfl

theorem cxor (d : CBit) (s : CBit) (t : CBit) (w : Nat) (hw : w = 67108873 + d.val * 128 + s.val * 4096 + t.val * 4194304) :
    w % 128 = 9 ∧ decodeRaw w = some (.cxor d s t) := by
  obtain ⟨h7, e0, e1, e2, e3, e4, e5⟩ := shape9 9 _ 0 _ 0 _ 2 w (by decide) d.isLt (by decide) s.isLt (by decide) t.isLt (by decide)
    (by omega)
  have k0 := other_bits w 17 3 1 15 7 0 17 3 e3 (by decide)
  have k1 := other_bits w 17 3 2 15 7 0 17 3 e3 (by decide)
  have k2 := other_bits w 17 3 3 15 7 0 17 3 e3 (by decide)
  have k3 := other_bits w 17 10 4 15 7 0 17 5 e3 (by decide)
  have k4 := other_bits w 17 10 5 15 7 0 17 5 e3 (by decide)
  have k5 := other_bits w 17 10 6 15 7 0 17 5 e3 (by decide)
  have k6 := other_bits w 17 10 7 15 7 0 17 5 e3 (by decide)
  refine ⟨h7, ?_⟩
  rw [major09 w h7, decodeMajor09]
  simp only [e0, e1, e2, e3, e4, e5, k0, k1, k2, k3, k4, k5, k6, fin_ofNat, beq_toNat, scope_ofCode, order_ofCode, tag_ofCode, Nat.reduceEqDiff, ↓reduceIte, OfNat.ofNat_ne_zero, and_true, and_false, and_self, false_and, true_and, Option.map_some]
  try rfl

theorem candn (d : CBit) (s : CBit) (t : CBit) (w : Nat) (hw : w = 100663305 + d.val * 128 + s.val * 4096 + t.val * 4194304) :
    w % 128 = 9 ∧ decodeRaw w = some (.candn d s t) := by
  obtain ⟨h7, e0, e1, e2, e3, e4, e5⟩ := shape9 9 _ 0 _ 0 _ 3 w (by decide) d.isLt (by decide) s.isLt (by decide) t.isLt (by decide)
    (by omega)
  have k0 := other_bits w 17 3 1 15 7 0 17 3 e3 (by decide)
  have k1 := other_bits w 17 3 2 15 7 0 17 3 e3 (by decide)
  have k2 := other_bits w 17 3 3 15 7 0 17 3 e3 (by decide)
  have k3 := other_bits w 17 10 4 15 7 0 17 5 e3 (by decide)
  have k4 := other_bits w 17 10 5 15 7 0 17 5 e3 (by decide)
  have k5 := other_bits w 17 10 6 15 7 0 17 5 e3 (by decide)
  have k6 := other_bits w 17 10 7 15 7 0 17 5 e3 (by decide)
  refine ⟨h7, ?_⟩
  rw [major09 w h7, decodeMajor09]
  simp only [e0, e1, e2, e3, e4, e5, k0, k1, k2, k3, k4, k5, k6, fin_ofNat, beq_toNat, scope_ofCode, order_ofCode, tag_ofCode, Nat.reduceEqDiff, ↓reduceIte, OfNat.ofNat_ne_zero, and_true, and_false, and_self, false_and, true_and, Option.map_some]
  try rfl

theorem movs (d : XReg) (r : Fin 4096) (w : Nat) (hw : w = 10 + d.val * 128 + r.val * 1048576) :
    w % 128 = 10 ∧ decodeRaw w = some (.movs d r) := by
  obtain ⟨h7, e0, e1, e2⟩ := shape10 10 _ 0 _ w (by decide) d.isLt (by decide) r.isLt
    (by rw [hw]; simp only [zero_tile])
  refine ⟨h7, ?_⟩
  rw [major0A w h7, decodeMajor0A]
  simp only [e0, e1, e2, fin_ofNat, beq_toNat, scope_ofCode, order_ofCode, tag_ofCode, Nat.reduceEqDiff, ↓reduceIte, OfNat.ofNat_ne_zero, and_true, and_false, and_self, false_and, true_and, Option.map_some]
  try rfl

theorem smov (a : XReg) (r : Fin 4096) (w : Nat) (hw : w = 131082 + a.val * 4096 + r.val * 1048576) :
    w % 128 = 10 ∧ decodeRaw w = some (.smov a r) := by
  obtain ⟨h7, e0, e1, e2, e3⟩ := shape3 10 0 _ 1 _ w (by decide) (by decide) a.isLt (by decide) r.isLt
    (by omega)
  have k0 := other_bits w 12 8 0 17 3 1 17 3 e2 (by decide)
  refine ⟨h7, ?_⟩
  rw [major0A w h7, decodeMajor0A]
  simp only [e0, e1, e2, e3, k0, fin_ofNat, beq_toNat, scope_ofCode, order_ofCode, tag_ofCode, Nat.reduceEqDiff, ↓reduceIte, OfNat.ofNat_ne_zero, and_true, and_false, and_self, false_and, true_and, Option.map_some]
  try rfl

theorem trap (i : Int) (w : Nat) (hw : w = 11 + immField 12 i * 1048576) :
    w % 128 = 11 ∧ decodeRaw w = some (.trap (sx 12 (immField 12 i))) := by
  obtain ⟨h7, e0, e1⟩ := shape11 11 0 _ w (by decide) (by decide) (immField_bound 12 i)
    (by rw [hw])
  refine ⟨h7, ?_⟩
  rw [major0B w h7, decodeMajor0B]
  simp only [e0, e1, fin_ofNat, beq_toNat, scope_ofCode, order_ofCode, tag_ofCode, Nat.reduceEqDiff, ↓reduceIte, OfNat.ofNat_ne_zero, and_true, and_false, and_self, false_and, true_and, Option.map_some]
  try rfl

theorem ebreak (w : Nat) (hw : w = 131083) :
    w % 128 = 11 ∧ decodeRaw w = some (.ebreak) := by
  obtain ⟨h7, e0⟩ := shape12 11 1024 w (by decide) (by decide)
    (by omega)
  have k0 := other_bits w 7 13 0 7 25 1024 7 13 e0 (by decide)
  refine ⟨h7, ?_⟩
  rw [major0B w h7, decodeMajor0B]
  simp only [e0, k0, fin_ofNat, beq_toNat, scope_ofCode, order_ofCode, tag_ofCode, Nat.reduceEqDiff, ↓reduceIte, OfNat.ofNat_ne_zero, and_true, and_false, and_self, false_and, true_and, Option.map_some]
  try rfl

theorem kret (w : Nat) (hw : w = 262155) :
    w % 128 = 11 ∧ decodeRaw w = some (.kret) := by
  obtain ⟨h7, e0⟩ := shape12 11 2048 w (by decide) (by decide)
    (by omega)
  have k0 := other_bits w 7 13 0 7 25 2048 7 13 e0 (by decide)
  refine ⟨h7, ?_⟩
  rw [major0B w h7, decodeMajor0B]
  simp only [e0, k0, fin_ofNat, beq_toNat, scope_ofCode, order_ofCode, tag_ofCode, Nat.reduceEqDiff, ↓reduceIte, OfNat.ofNat_ne_zero, and_true, and_false, and_self, false_and, true_and, Option.map_some]
  try rfl

theorem mcall (i : Int) (w : Nat) (hw : w = 393227 + immField 12 i * 1048576) :
    w % 128 = 11 ∧ decodeRaw w = some (.mcall (sx 12 (immField 12 i))) := by
  obtain ⟨h7, e0, e1⟩ := shape11 11 3072 _ w (by decide) (by decide) (immField_bound 12 i)
    (by omega)
  have k0 := other_bits w 7 25 1024 7 13 3072 7 13 e0 (by decide)
  have k1 := other_bits w 7 25 2048 7 13 3072 7 13 e0 (by decide)
  refine ⟨h7, ?_⟩
  rw [major0B w h7, decodeMajor0B]
  simp only [e0, e1, k0, k1, fin_ofNat, beq_toNat, scope_ofCode, order_ofCode, tag_ofCode, Nat.reduceEqDiff, ↓reduceIte, OfNat.ofNat_ne_zero, and_true, and_false, and_self, false_and, true_and, Option.map_some]
  try rfl

theorem monret (w : Nat) (hw : w = 524299) :
    w % 128 = 11 ∧ decodeRaw w = some (.monret) := by
  obtain ⟨h7, e0⟩ := shape12 11 4096 w (by decide) (by decide)
    (by omega)
  have k0 := other_bits w 7 13 0 7 25 4096 7 13 e0 (by decide)
  have k1 := other_bits w 7 13 3072 7 25 4096 7 13 e0 (by decide)
  refine ⟨h7, ?_⟩
  rw [major0B w h7, decodeMajor0B]
  simp only [e0, k0, k1, fin_ofNat, beq_toNat, scope_ofCode, order_ofCode, tag_ofCode, Nat.reduceEqDiff, ↓reduceIte, OfNat.ofNat_ne_zero, and_true, and_false, and_self, false_and, true_and, Option.map_some]
  try rfl

theorem invpg (s : XReg) (a : XReg) (w : Nat) (hw : w = 655371 + s.val * 128 + a.val * 4096) :
    w % 128 = 11 ∧ decodeRaw w = some (.invpg s a) := by
  obtain ⟨h7, e0, e1, e2⟩ := shape13 11 _ _ 5 w (by decide) s.isLt a.isLt (by decide)
    (by omega)
  have k0 := other_bits w 7 13 0 17 15 5 17 3 e2 (by decide)
  have k1 := other_bits w 7 25 1024 17 15 5 17 15 e2 (by decide)
  have k2 := other_bits w 7 25 2048 17 15 5 17 15 e2 (by decide)
  have k3 := other_bits w 7 13 3072 17 15 5 17 3 e2 (by decide)
  have k4 := other_bits w 7 25 4096 17 15 5 17 15 e2 (by decide)
  refine ⟨h7, ?_⟩
  rw [major0B w h7, decodeMajor0B]
  simp only [e0, e1, e2, k0, k1, k2, k3, k4, fin_ofNat, beq_toNat, scope_ofCode, order_ofCode, tag_ofCode, Nat.reduceEqDiff, ↓reduceIte, OfNat.ofNat_ne_zero, and_true, and_false, and_self, false_and, true_and, Option.map_some]
  try rfl

theorem invpgG (a : XReg) (w : Nat) (hw : w = 1703947 + a.val * 4096) :
    w % 128 = 11 ∧ decodeRaw w = some (.invpgG a) := by
  obtain ⟨h7, e0, e1, e2⟩ := shape13 11 0 _ 13 w (by decide) (by decide) a.isLt (by decide)
    (by omega)
  have k0 := other_bits w 7 13 0 17 15 13 17 3 e2 (by decide)
  have k1 := other_bits w 7 25 1024 17 15 13 17 15 e2 (by decide)
  have k2 := other_bits w 7 25 2048 17 15 13 17 15 e2 (by decide)
  have k3 := other_bits w 7 13 3072 17 15 13 17 3 e2 (by decide)
  have k4 := other_bits w 7 25 4096 17 15 13 17 15 e2 (by decide)
  refine ⟨h7, ?_⟩
  rw [major0B w h7, decodeMajor0B]
  simp only [e0, e1, e2, k0, k1, k2, k3, k4, fin_ofNat, beq_toNat, scope_ofCode, order_ofCode, tag_ofCode, Nat.reduceEqDiff, ↓reduceIte, OfNat.ofNat_ne_zero, and_true, and_false, and_self, false_and, true_and, Option.map_some]
  try rfl

theorem hend (s : Fin 4096) (w : Nat) (hw : w = 786443 + s.val * 1048576) :
    w % 128 = 11 ∧ decodeRaw w = some (.hend s) := by
  obtain ⟨h7, e0, e1⟩ := shape11 11 6144 _ w (by decide) (by decide) s.isLt
    (by omega)
  have k0 := other_bits w 7 25 1024 7 13 6144 7 13 e0 (by decide)
  have k1 := other_bits w 7 25 2048 7 13 6144 7 13 e0 (by decide)
  have k2 := other_bits w 7 25 4096 7 13 6144 7 13 e0 (by decide)
  have k3 := other_bits w 17 15 5 7 13 6144 17 3 e0 (by decide)
  have k4 := other_bits w 17 15 13 7 13 6144 17 3 e0 (by decide)
  refine ⟨h7, ?_⟩
  rw [major0B w h7, decodeMajor0B]
  simp only [e0, e1, k0, k1, k2, k3, k4, fin_ofNat, beq_toNat, scope_ofCode, order_ofCode, tag_ofCode, Nat.reduceEqDiff, ↓reduceIte, OfNat.ofNat_ne_zero, and_true, and_false, and_self, false_and, true_and, Option.map_some]
  try rfl

theorem mul (d : XReg) (a : XReg) (b : XReg) (w : Nat) (hw : w = 12 + d.val * 128 + a.val * 4096 + b.val * 131072) :
    w % 128 = 12 ∧ decodeRaw w = some (.mul d a b) := by
  obtain ⟨h7, e0, e1, e2, e3⟩ := shape1 12 _ _ _ 0 w (by decide) d.isLt a.isLt b.isLt (by decide)
    (by rw [hw]; simp only [zero_tile])
  refine ⟨h7, ?_⟩
  rw [major0C w h7, decodeMajor0C]
  simp only [e0, e1, e2, e3, fin_ofNat, beq_toNat, scope_ofCode, order_ofCode, tag_ofCode, Nat.reduceEqDiff, ↓reduceIte, OfNat.ofNat_ne_zero, and_true, and_false, and_self, false_and, true_and, Option.map_some]
  try rfl

theorem mulhiSs (d : XReg) (a : XReg) (b : XReg) (w : Nat) (hw : w = 4194316 + d.val * 128 + a.val * 4096 + b.val * 131072) :
    w % 128 = 12 ∧ decodeRaw w = some (.mulhiSs d a b) := by
  obtain ⟨h7, e0, e1, e2, e3⟩ := shape1 12 _ _ _ 1 w (by decide) d.isLt a.isLt b.isLt (by decide)
    (by omega)
  refine ⟨h7, ?_⟩
  rw [major0C w h7, decodeMajor0C]
  simp only [e0, e1, e2, e3, fin_ofNat, beq_toNat, scope_ofCode, order_ofCode, tag_ofCode, Nat.reduceEqDiff, ↓reduceIte, OfNat.ofNat_ne_zero, and_true, and_false, and_self, false_and, true_and, Option.map_some]
  try rfl

theorem mulhiUu (d : XReg) (a : XReg) (b : XReg) (w : Nat) (hw : w = 8388620 + d.val * 128 + a.val * 4096 + b.val * 131072) :
    w % 128 = 12 ∧ decodeRaw w = some (.mulhiUu d a b) := by
  obtain ⟨h7, e0, e1, e2, e3⟩ := shape1 12 _ _ _ 2 w (by decide) d.isLt a.isLt b.isLt (by decide)
    (by omega)
  refine ⟨h7, ?_⟩
  rw [major0C w h7, decodeMajor0C]
  simp only [e0, e1, e2, e3, fin_ofNat, beq_toNat, scope_ofCode, order_ofCode, tag_ofCode, Nat.reduceEqDiff, ↓reduceIte, OfNat.ofNat_ne_zero, and_true, and_false, and_self, false_and, true_and, Option.map_some]
  try rfl

theorem mulhiSu (d : XReg) (a : XReg) (b : XReg) (w : Nat) (hw : w = 12582924 + d.val * 128 + a.val * 4096 + b.val * 131072) :
    w % 128 = 12 ∧ decodeRaw w = some (.mulhiSu d a b) := by
  obtain ⟨h7, e0, e1, e2, e3⟩ := shape1 12 _ _ _ 3 w (by decide) d.isLt a.isLt b.isLt (by decide)
    (by omega)
  refine ⟨h7, ?_⟩
  rw [major0C w h7, decodeMajor0C]
  simp only [e0, e1, e2, e3, fin_ofNat, beq_toNat, scope_ofCode, order_ofCode, tag_ofCode, Nat.reduceEqDiff, ↓reduceIte, OfNat.ofNat_ne_zero, and_true, and_false, and_self, false_and, true_and, Option.map_some]
  try rfl

theorem div (d : XReg) (a : XReg) (b : XReg) (w : Nat) (hw : w = 16777228 + d.val * 128 + a.val * 4096 + b.val * 131072) :
    w % 128 = 12 ∧ decodeRaw w = some (.div d a b) := by
  obtain ⟨h7, e0, e1, e2, e3⟩ := shape1 12 _ _ _ 4 w (by decide) d.isLt a.isLt b.isLt (by decide)
    (by omega)
  refine ⟨h7, ?_⟩
  rw [major0C w h7, decodeMajor0C]
  simp only [e0, e1, e2, e3, fin_ofNat, beq_toNat, scope_ofCode, order_ofCode, tag_ofCode, Nat.reduceEqDiff, ↓reduceIte, OfNat.ofNat_ne_zero, and_true, and_false, and_self, false_and, true_and, Option.map_some]
  try rfl

theorem divu (d : XReg) (a : XReg) (b : XReg) (w : Nat) (hw : w = 20971532 + d.val * 128 + a.val * 4096 + b.val * 131072) :
    w % 128 = 12 ∧ decodeRaw w = some (.divu d a b) := by
  obtain ⟨h7, e0, e1, e2, e3⟩ := shape1 12 _ _ _ 5 w (by decide) d.isLt a.isLt b.isLt (by decide)
    (by omega)
  refine ⟨h7, ?_⟩
  rw [major0C w h7, decodeMajor0C]
  simp only [e0, e1, e2, e3, fin_ofNat, beq_toNat, scope_ofCode, order_ofCode, tag_ofCode, Nat.reduceEqDiff, ↓reduceIte, OfNat.ofNat_ne_zero, and_true, and_false, and_self, false_and, true_and, Option.map_some]
  try rfl

theorem rem (d : XReg) (a : XReg) (b : XReg) (w : Nat) (hw : w = 25165836 + d.val * 128 + a.val * 4096 + b.val * 131072) :
    w % 128 = 12 ∧ decodeRaw w = some (.rem d a b) := by
  obtain ⟨h7, e0, e1, e2, e3⟩ := shape1 12 _ _ _ 6 w (by decide) d.isLt a.isLt b.isLt (by decide)
    (by omega)
  refine ⟨h7, ?_⟩
  rw [major0C w h7, decodeMajor0C]
  simp only [e0, e1, e2, e3, fin_ofNat, beq_toNat, scope_ofCode, order_ofCode, tag_ofCode, Nat.reduceEqDiff, ↓reduceIte, OfNat.ofNat_ne_zero, and_true, and_false, and_self, false_and, true_and, Option.map_some]
  try rfl

theorem remu (d : XReg) (a : XReg) (b : XReg) (w : Nat) (hw : w = 29360140 + d.val * 128 + a.val * 4096 + b.val * 131072) :
    w % 128 = 12 ∧ decodeRaw w = some (.remu d a b) := by
  obtain ⟨h7, e0, e1, e2, e3⟩ := shape1 12 _ _ _ 7 w (by decide) d.isLt a.isLt b.isLt (by decide)
    (by omega)
  refine ⟨h7, ?_⟩
  rw [major0C w h7, decodeMajor0C]
  simp only [e0, e1, e2, e3, fin_ofNat, beq_toNat, scope_ofCode, order_ofCode, tag_ofCode, Nat.reduceEqDiff, ↓reduceIte, OfNat.ofNat_ne_zero, and_true, and_false, and_self, false_and, true_and, Option.map_some]
  try rfl

theorem faddS (d : XReg) (a : XReg) (b : XReg) (rm : Option Rounding) (w : Nat) (hw : w = 13 + d.val * 128 + a.val * 4096 + b.val * 131072) :
    w % 128 = 13 ∧ decodeRaw w = some (.faddS d a b none) := by
  obtain ⟨h7, e0, e1, e2, e3⟩ := shape1 13 _ _ _ 0 w (by decide) d.isLt a.isLt b.isLt (by decide)
    (by rw [hw]; simp only [zero_tile])
  refine ⟨h7, ?_⟩
  rw [major0D w h7, decodeMajor0D]
  simp only [e0, e1, e2, e3, fin_ofNat, beq_toNat, scope_ofCode, order_ofCode, tag_ofCode, Nat.reduceEqDiff, ↓reduceIte, OfNat.ofNat_ne_zero, and_true, and_false, and_self, false_and, true_and, Option.map_some]
  try rfl

theorem faddD (d : XReg) (a : XReg) (b : XReg) (rm : Option Rounding) (w : Nat) (hw : w = 4194317 + d.val * 128 + a.val * 4096 + b.val * 131072) :
    w % 128 = 13 ∧ decodeRaw w = some (.faddD d a b none) := by
  obtain ⟨h7, e0, e1, e2, e3⟩ := shape1 13 _ _ _ 1 w (by decide) d.isLt a.isLt b.isLt (by decide)
    (by omega)
  refine ⟨h7, ?_⟩
  rw [major0D w h7, decodeMajor0D]
  simp only [e0, e1, e2, e3, fin_ofNat, beq_toNat, scope_ofCode, order_ofCode, tag_ofCode, Nat.reduceEqDiff, ↓reduceIte, OfNat.ofNat_ne_zero, and_true, and_false, and_self, false_and, true_and, Option.map_some]
  try rfl

theorem fsubS (d : XReg) (a : XReg) (b : XReg) (rm : Option Rounding) (w : Nat) (hw : w = 8388621 + d.val * 128 + a.val * 4096 + b.val * 131072) :
    w % 128 = 13 ∧ decodeRaw w = some (.fsubS d a b none) := by
  obtain ⟨h7, e0, e1, e2, e3⟩ := shape1 13 _ _ _ 2 w (by decide) d.isLt a.isLt b.isLt (by decide)
    (by omega)
  refine ⟨h7, ?_⟩
  rw [major0D w h7, decodeMajor0D]
  simp only [e0, e1, e2, e3, fin_ofNat, beq_toNat, scope_ofCode, order_ofCode, tag_ofCode, Nat.reduceEqDiff, ↓reduceIte, OfNat.ofNat_ne_zero, and_true, and_false, and_self, false_and, true_and, Option.map_some]
  try rfl

theorem fsubD (d : XReg) (a : XReg) (b : XReg) (rm : Option Rounding) (w : Nat) (hw : w = 12582925 + d.val * 128 + a.val * 4096 + b.val * 131072) :
    w % 128 = 13 ∧ decodeRaw w = some (.fsubD d a b none) := by
  obtain ⟨h7, e0, e1, e2, e3⟩ := shape1 13 _ _ _ 3 w (by decide) d.isLt a.isLt b.isLt (by decide)
    (by omega)
  refine ⟨h7, ?_⟩
  rw [major0D w h7, decodeMajor0D]
  simp only [e0, e1, e2, e3, fin_ofNat, beq_toNat, scope_ofCode, order_ofCode, tag_ofCode, Nat.reduceEqDiff, ↓reduceIte, OfNat.ofNat_ne_zero, and_true, and_false, and_self, false_and, true_and, Option.map_some]
  try rfl

theorem fmulS (d : XReg) (a : XReg) (b : XReg) (rm : Option Rounding) (w : Nat) (hw : w = 16777229 + d.val * 128 + a.val * 4096 + b.val * 131072) :
    w % 128 = 13 ∧ decodeRaw w = some (.fmulS d a b none) := by
  obtain ⟨h7, e0, e1, e2, e3⟩ := shape1 13 _ _ _ 4 w (by decide) d.isLt a.isLt b.isLt (by decide)
    (by omega)
  refine ⟨h7, ?_⟩
  rw [major0D w h7, decodeMajor0D]
  simp only [e0, e1, e2, e3, fin_ofNat, beq_toNat, scope_ofCode, order_ofCode, tag_ofCode, Nat.reduceEqDiff, ↓reduceIte, OfNat.ofNat_ne_zero, and_true, and_false, and_self, false_and, true_and, Option.map_some]
  try rfl

theorem fmulD (d : XReg) (a : XReg) (b : XReg) (rm : Option Rounding) (w : Nat) (hw : w = 20971533 + d.val * 128 + a.val * 4096 + b.val * 131072) :
    w % 128 = 13 ∧ decodeRaw w = some (.fmulD d a b none) := by
  obtain ⟨h7, e0, e1, e2, e3⟩ := shape1 13 _ _ _ 5 w (by decide) d.isLt a.isLt b.isLt (by decide)
    (by omega)
  refine ⟨h7, ?_⟩
  rw [major0D w h7, decodeMajor0D]
  simp only [e0, e1, e2, e3, fin_ofNat, beq_toNat, scope_ofCode, order_ofCode, tag_ofCode, Nat.reduceEqDiff, ↓reduceIte, OfNat.ofNat_ne_zero, and_true, and_false, and_self, false_and, true_and, Option.map_some]
  try rfl

theorem fdivS (d : XReg) (a : XReg) (b : XReg) (rm : Option Rounding) (w : Nat) (hw : w = 25165837 + d.val * 128 + a.val * 4096 + b.val * 131072) :
    w % 128 = 13 ∧ decodeRaw w = some (.fdivS d a b none) := by
  obtain ⟨h7, e0, e1, e2, e3⟩ := shape1 13 _ _ _ 6 w (by decide) d.isLt a.isLt b.isLt (by decide)
    (by omega)
  refine ⟨h7, ?_⟩
  rw [major0D w h7, decodeMajor0D]
  simp only [e0, e1, e2, e3, fin_ofNat, beq_toNat, scope_ofCode, order_ofCode, tag_ofCode, Nat.reduceEqDiff, ↓reduceIte, OfNat.ofNat_ne_zero, and_true, and_false, and_self, false_and, true_and, Option.map_some]
  try rfl

theorem fdivD (d : XReg) (a : XReg) (b : XReg) (rm : Option Rounding) (w : Nat) (hw : w = 29360141 + d.val * 128 + a.val * 4096 + b.val * 131072) :
    w % 128 = 13 ∧ decodeRaw w = some (.fdivD d a b none) := by
  obtain ⟨h7, e0, e1, e2, e3⟩ := shape1 13 _ _ _ 7 w (by decide) d.isLt a.isLt b.isLt (by decide)
    (by omega)
  refine ⟨h7, ?_⟩
  rw [major0D w h7, decodeMajor0D]
  simp only [e0, e1, e2, e3, fin_ofNat, beq_toNat, scope_ofCode, order_ofCode, tag_ofCode, Nat.reduceEqDiff, ↓reduceIte, OfNat.ofNat_ne_zero, and_true, and_false, and_self, false_and, true_and, Option.map_some]
  try rfl

theorem fsqrtS (d : XReg) (a : XReg) (rm : Option Rounding) (w : Nat) (hw : w = 33554445 + d.val * 128 + a.val * 4096) :
    w % 128 = 13 ∧ decodeRaw w = some (.fsqrtS d a none) := by
  obtain ⟨h7, e0, e1, e2⟩ := shape13 13 _ _ 256 w (by decide) d.isLt a.isLt (by decide)
    (by omega)
  have k0 := other_bits w 22 10 0 17 15 256 22 10 e2 (by decide)
  have k1 := other_bits w 22 10 1 17 15 256 22 10 e2 (by decide)
  have k2 := other_bits w 22 10 2 17 15 256 22 10 e2 (by decide)
  have k3 := other_bits w 22 10 3 17 15 256 22 10 e2 (by decide)
  have k4 := other_bits w 22 10 4 17 15 256 22 10 e2 (by decide)
  have k5 := other_bits w 22 10 5 17 15 256 22 10 e2 (by decide)
  have k6 := other_bits w 22 10 6 17 15 256 22 10 e2 (by decide)
  have k7 := other_bits w 22 10 7 17 15 256 22 10 e2 (by decide)
  refine ⟨h7, ?_⟩
  rw [major0D w h7, decodeMajor0D]
  simp only [e0, e1, e2, k0, k1, k2, k3, k4, k5, k6, k7, fin_ofNat, beq_toNat, scope_ofCode, order_ofCode, tag_ofCode, Nat.reduceEqDiff, ↓reduceIte, OfNat.ofNat_ne_zero, and_true, and_false, and_self, false_and, true_and, Option.map_some]
  try rfl

theorem fsqrtD (d : XReg) (a : XReg) (rm : Option Rounding) (w : Nat) (hw : w = 37748749 + d.val * 128 + a.val * 4096) :
    w % 128 = 13 ∧ decodeRaw w = some (.fsqrtD d a none) := by
  obtain ⟨h7, e0, e1, e2⟩ := shape13 13 _ _ 288 w (by decide) d.isLt a.isLt (by decide)
    (by omega)
  have k0 := other_bits w 22 10 0 17 15 288 22 10 e2 (by decide)
  have k1 := other_bits w 22 10 1 17 15 288 22 10 e2 (by decide)
  have k2 := other_bits w 22 10 2 17 15 288 22 10 e2 (by decide)
  have k3 := other_bits w 22 10 3 17 15 288 22 10 e2 (by decide)
  have k4 := other_bits w 22 10 4 17 15 288 22 10 e2 (by decide)
  have k5 := other_bits w 22 10 5 17 15 288 22 10 e2 (by decide)
  have k6 := other_bits w 22 10 6 17 15 288 22 10 e2 (by decide)
  have k7 := other_bits w 22 10 7 17 15 288 22 10 e2 (by decide)
  refine ⟨h7, ?_⟩
  rw [major0D w h7, decodeMajor0D]
  simp only [e0, e1, e2, k0, k1, k2, k3, k4, k5, k6, k7, fin_ofNat, beq_toNat, scope_ofCode, order_ofCode, tag_ofCode, Nat.reduceEqDiff, ↓reduceIte, OfNat.ofNat_ne_zero, and_true, and_false, and_self, false_and, true_and, Option.map_some]
  try rfl

theorem fminS (d : XReg) (a : XReg) (b : XReg) (rm : Option Rounding) (w : Nat) (hw : w = 41943053 + d.val * 128 + a.val * 4096 + b.val * 131072) :
    w % 128 = 13 ∧ decodeRaw w = some (.fminS d a b none) := by
  obtain ⟨h7, e0, e1, e2, e3⟩ := shape1 13 _ _ _ 10 w (by decide) d.isLt a.isLt b.isLt (by decide)
    (by omega)
  have k0 := other_bits w 17 15 256 22 10 10 22 10 e3 (by decide)
  have k1 := other_bits w 17 15 288 22 10 10 22 10 e3 (by decide)
  refine ⟨h7, ?_⟩
  rw [major0D w h7, decodeMajor0D]
  simp only [e0, e1, e2, e3, k0, k1, fin_ofNat, beq_toNat, scope_ofCode, order_ofCode, tag_ofCode, Nat.reduceEqDiff, ↓reduceIte, OfNat.ofNat_ne_zero, and_true, and_false, and_self, false_and, true_and, Option.map_some]
  try rfl

theorem fminD (d : XReg) (a : XReg) (b : XReg) (rm : Option Rounding) (w : Nat) (hw : w = 46137357 + d.val * 128 + a.val * 4096 + b.val * 131072) :
    w % 128 = 13 ∧ decodeRaw w = some (.fminD d a b none) := by
  obtain ⟨h7, e0, e1, e2, e3⟩ := shape1 13 _ _ _ 11 w (by decide) d.isLt a.isLt b.isLt (by decide)
    (by omega)
  have k0 := other_bits w 17 15 256 22 10 11 22 10 e3 (by decide)
  have k1 := other_bits w 17 15 288 22 10 11 22 10 e3 (by decide)
  refine ⟨h7, ?_⟩
  rw [major0D w h7, decodeMajor0D]
  simp only [e0, e1, e2, e3, k0, k1, fin_ofNat, beq_toNat, scope_ofCode, order_ofCode, tag_ofCode, Nat.reduceEqDiff, ↓reduceIte, OfNat.ofNat_ne_zero, and_true, and_false, and_self, false_and, true_and, Option.map_some]
  try rfl

theorem fmaxS (d : XReg) (a : XReg) (b : XReg) (rm : Option Rounding) (w : Nat) (hw : w = 50331661 + d.val * 128 + a.val * 4096 + b.val * 131072) :
    w % 128 = 13 ∧ decodeRaw w = some (.fmaxS d a b none) := by
  obtain ⟨h7, e0, e1, e2, e3⟩ := shape1 13 _ _ _ 12 w (by decide) d.isLt a.isLt b.isLt (by decide)
    (by omega)
  have k0 := other_bits w 17 15 256 22 10 12 22 10 e3 (by decide)
  have k1 := other_bits w 17 15 288 22 10 12 22 10 e3 (by decide)
  refine ⟨h7, ?_⟩
  rw [major0D w h7, decodeMajor0D]
  simp only [e0, e1, e2, e3, k0, k1, fin_ofNat, beq_toNat, scope_ofCode, order_ofCode, tag_ofCode, Nat.reduceEqDiff, ↓reduceIte, OfNat.ofNat_ne_zero, and_true, and_false, and_self, false_and, true_and, Option.map_some]
  try rfl

theorem fmaxD (d : XReg) (a : XReg) (b : XReg) (rm : Option Rounding) (w : Nat) (hw : w = 54525965 + d.val * 128 + a.val * 4096 + b.val * 131072) :
    w % 128 = 13 ∧ decodeRaw w = some (.fmaxD d a b none) := by
  obtain ⟨h7, e0, e1, e2, e3⟩ := shape1 13 _ _ _ 13 w (by decide) d.isLt a.isLt b.isLt (by decide)
    (by omega)
  have k0 := other_bits w 17 15 256 22 10 13 22 10 e3 (by decide)
  have k1 := other_bits w 17 15 288 22 10 13 22 10 e3 (by decide)
  refine ⟨h7, ?_⟩
  rw [major0D w h7, decodeMajor0D]
  simp only [e0, e1, e2, e3, k0, k1, fin_ofNat, beq_toNat, scope_ofCode, order_ofCode, tag_ofCode, Nat.reduceEqDiff, ↓reduceIte, OfNat.ofNat_ne_zero, and_true, and_false, and_self, false_and, true_and, Option.map_some]
  try rfl

theorem fmacS (d : XReg) (a : XReg) (b : XReg) (rm : Option Rounding) (w : Nat) (hw : w = 58720269 + d.val * 128 + a.val * 4096 + b.val * 131072) :
    w % 128 = 13 ∧ decodeRaw w = some (.fmacS d a b none) := by
  obtain ⟨h7, e0, e1, e2, e3⟩ := shape1 13 _ _ _ 14 w (by decide) d.isLt a.isLt b.isLt (by decide)
    (by omega)
  have k0 := other_bits w 17 15 256 22 10 14 22 10 e3 (by decide)
  have k1 := other_bits w 17 15 288 22 10 14 22 10 e3 (by decide)
  refine ⟨h7, ?_⟩
  rw [major0D w h7, decodeMajor0D]
  simp only [e0, e1, e2, e3, k0, k1, fin_ofNat, beq_toNat, scope_ofCode, order_ofCode, tag_ofCode, Nat.reduceEqDiff, ↓reduceIte, OfNat.ofNat_ne_zero, and_true, and_false, and_self, false_and, true_and, Option.map_some]
  try rfl

theorem fmacD (d : XReg) (a : XReg) (b : XReg) (rm : Option Rounding) (w : Nat) (hw : w = 62914573 + d.val * 128 + a.val * 4096 + b.val * 131072) :
    w % 128 = 13 ∧ decodeRaw w = some (.fmacD d a b none) := by
  obtain ⟨h7, e0, e1, e2, e3⟩ := shape1 13 _ _ _ 15 w (by decide) d.isLt a.isLt b.isLt (by decide)
    (by omega)
  have k0 := other_bits w 17 15 256 22 10 15 22 10 e3 (by decide)
  have k1 := other_bits w 17 15 288 22 10 15 22 10 e3 (by decide)
  refine ⟨h7, ?_⟩
  rw [major0D w h7, decodeMajor0D]
  simp only [e0, e1, e2, e3, k0, k1, fin_ofNat, beq_toNat, scope_ofCode, order_ofCode, tag_ofCode, Nat.reduceEqDiff, ↓reduceIte, OfNat.ofNat_ne_zero, and_true, and_false, and_self, false_and, true_and, Option.map_some]
  try rfl

theorem fcmpEqS (c : CBit) (a : XReg) (b : XReg) (rm : Option Rounding) (w : Nat) (hw : w = 67108877 + c.val * 128 + a.val * 4096 + b.val * 131072) :
    w % 128 = 13 ∧ decodeRaw w = some (.fcmpEqS c a b none) := by
  obtain ⟨h7, e0, e1, e2, e3, e4⟩ := shape14 13 _ 0 _ _ 16 w (by decide) c.isLt (by decide) a.isLt b.isLt (by decide)
    (by omega)
  have k0 := other_bits w 17 15 256 22 10 16 22 10 e4 (by decide)
  have k1 := other_bits w 17 15 288 22 10 16 22 10 e4 (by decide)
  refine ⟨h7, ?_⟩
  rw [major0D w h7, decodeMajor0D]
  simp only [e0, e1, e2, e3, e4, k0, k1, fin_ofNat, beq_toNat, scope_ofCode, order_ofCode, tag_ofCode, Nat.reduceEqDiff, ↓reduceIte, OfNat.ofNat_ne_zero, and_true, and_false, and_self, false_and, true_and, Option.map_some]
  try rfl

theorem fcmpEqD (c : CBit) (a : XReg) (b : XReg) (rm : Option Rounding) (w : Nat) (hw : w = 71303181 + c.val * 128 + a.val * 4096 + b.val * 131072) :
    w % 128 = 13 ∧ decodeRaw w = some (.fcmpEqD c a b none) := by
  obtain ⟨h7, e0, e1, e2, e3, e4⟩ := shape14 13 _ 0 _ _ 17 w (by decide) c.isLt (by decide) a.isLt b.isLt (by decide)
    (by omega)
  have k0 := other_bits w 17 15 256 22 10 17 22 10 e4 (by decide)
  have k1 := other_bits w 17 15 288 22 10 17 22 10 e4 (by decide)
  refine ⟨h7, ?_⟩
  rw [major0D w h7, decodeMajor0D]
  simp only [e0, e1, e2, e3, e4, k0, k1, fin_ofNat, beq_toNat, scope_ofCode, order_ofCode, tag_ofCode, Nat.reduceEqDiff, ↓reduceIte, OfNat.ofNat_ne_zero, and_true, and_false, and_self, false_and, true_and, Option.map_some]
  try rfl

theorem fcmpLtS (c : CBit) (a : XReg) (b : XReg) (rm : Option Rounding) (w : Nat) (hw : w = 75497485 + c.val * 128 + a.val * 4096 + b.val * 131072) :
    w % 128 = 13 ∧ decodeRaw w = some (.fcmpLtS c a b none) := by
  obtain ⟨h7, e0, e1, e2, e3, e4⟩ := shape14 13 _ 0 _ _ 18 w (by decide) c.isLt (by decide) a.isLt b.isLt (by decide)
    (by omega)
  have k0 := other_bits w 17 15 256 22 10 18 22 10 e4 (by decide)
  have k1 := other_bits w 17 15 288 22 10 18 22 10 e4 (by decide)
  refine ⟨h7, ?_⟩
  rw [major0D w h7, decodeMajor0D]
  simp only [e0, e1, e2, e3, e4, k0, k1, fin_ofNat, beq_toNat, scope_ofCode, order_ofCode, tag_ofCode, Nat.reduceEqDiff, ↓reduceIte, OfNat.ofNat_ne_zero, and_true, and_false, and_self, false_and, true_and, Option.map_some]
  try rfl

theorem fcmpLtD (c : CBit) (a : XReg) (b : XReg) (rm : Option Rounding) (w : Nat) (hw : w = 79691789 + c.val * 128 + a.val * 4096 + b.val * 131072) :
    w % 128 = 13 ∧ decodeRaw w = some (.fcmpLtD c a b none) := by
  obtain ⟨h7, e0, e1, e2, e3, e4⟩ := shape14 13 _ 0 _ _ 19 w (by decide) c.isLt (by decide) a.isLt b.isLt (by decide)
    (by omega)
  have k0 := other_bits w 17 15 256 22 10 19 22 10 e4 (by decide)
  have k1 := other_bits w 17 15 288 22 10 19 22 10 e4 (by decide)
  refine ⟨h7, ?_⟩
  rw [major0D w h7, decodeMajor0D]
  simp only [e0, e1, e2, e3, e4, k0, k1, fin_ofNat, beq_toNat, scope_ofCode, order_ofCode, tag_ofCode, Nat.reduceEqDiff, ↓reduceIte, OfNat.ofNat_ne_zero, and_true, and_false, and_self, false_and, true_and, Option.map_some]
  try rfl

theorem fcmpLeS (c : CBit) (a : XReg) (b : XReg) (rm : Option Rounding) (w : Nat) (hw : w = 83886093 + c.val * 128 + a.val * 4096 + b.val * 131072) :
    w % 128 = 13 ∧ decodeRaw w = some (.fcmpLeS c a b none) := by
  obtain ⟨h7, e0, e1, e2, e3, e4⟩ := shape14 13 _ 0 _ _ 20 w (by decide) c.isLt (by decide) a.isLt b.isLt (by decide)
    (by omega)
  have k0 := other_bits w 17 15 256 22 10 20 22 10 e4 (by decide)
  have k1 := other_bits w 17 15 288 22 10 20 22 10 e4 (by decide)
  refine ⟨h7, ?_⟩
  rw [major0D w h7, decodeMajor0D]
  simp only [e0, e1, e2, e3, e4, k0, k1, fin_ofNat, beq_toNat, scope_ofCode, order_ofCode, tag_ofCode, Nat.reduceEqDiff, ↓reduceIte, OfNat.ofNat_ne_zero, and_true, and_false, and_self, false_and, true_and, Option.map_some]
  try rfl

theorem fcmpLeD (c : CBit) (a : XReg) (b : XReg) (rm : Option Rounding) (w : Nat) (hw : w = 88080397 + c.val * 128 + a.val * 4096 + b.val * 131072) :
    w % 128 = 13 ∧ decodeRaw w = some (.fcmpLeD c a b none) := by
  obtain ⟨h7, e0, e1, e2, e3, e4⟩ := shape14 13 _ 0 _ _ 21 w (by decide) c.isLt (by decide) a.isLt b.isLt (by decide)
    (by omega)
  have k0 := other_bits w 17 15 256 22 10 21 22 10 e4 (by decide)
  have k1 := other_bits w 17 15 288 22 10 21 22 10 e4 (by decide)
  refine ⟨h7, ?_⟩
  rw [major0D w h7, decodeMajor0D]
  simp only [e0, e1, e2, e3, e4, k0, k1, fin_ofNat, beq_toNat, scope_ofCode, order_ofCode, tag_ofCode, Nat.reduceEqDiff, ↓reduceIte, OfNat.ofNat_ne_zero, and_true, and_false, and_self, false_and, true_and, Option.map_some]
  try rfl

theorem fcvtLS (d : XReg) (a : XReg) (rm : Option Rounding) (sat : Bool) (w : Nat) (hw : w = 92274701 + d.val * 128 + a.val * 4096) :
    w % 128 = 13 ∧ decodeRaw w = some (.fcvtLS d a none false) := by
  obtain ⟨h7, e0, e1, e2⟩ := shape13 13 _ _ 704 w (by decide) d.isLt a.isLt (by decide)
    (by omega)
  have k0 := other_bits w 22 10 0 17 15 704 22 10 e2 (by decide)
  have k1 := other_bits w 22 10 1 17 15 704 22 10 e2 (by decide)
  have k2 := other_bits w 22 10 2 17 15 704 22 10 e2 (by decide)
  have k3 := other_bits w 22 10 3 17 15 704 22 10 e2 (by decide)
  have k4 := other_bits w 22 10 4 17 15 704 22 10 e2 (by decide)
  have k5 := other_bits w 22 10 5 17 15 704 22 10 e2 (by decide)
  have k6 := other_bits w 22 10 6 17 15 704 22 10 e2 (by decide)
  have k7 := other_bits w 22 10 7 17 15 704 22 10 e2 (by decide)
  have k8 := other_bits w 22 10 10 17 15 704 22 10 e2 (by decide)
  have k9 := other_bits w 22 10 11 17 15 704 22 10 e2 (by decide)
  have k10 := other_bits w 22 10 12 17 15 704 22 10 e2 (by decide)
  have k11 := other_bits w 22 10 13 17 15 704 22 10 e2 (by decide)
  have k12 := other_bits w 22 10 14 17 15 704 22 10 e2 (by decide)
  have k13 := other_bits w 22 10 15 17 15 704 22 10 e2 (by decide)
  have k14 := other_bits w 22 10 16 17 15 704 22 10 e2 (by decide)
  have k15 := other_bits w 22 10 17 17 15 704 22 10 e2 (by decide)
  have k16 := other_bits w 22 10 18 17 15 704 22 10 e2 (by decide)
  have k17 := other_bits w 22 10 19 17 15 704 22 10 e2 (by decide)
  have k18 := other_bits w 22 10 20 17 15 704 22 10 e2 (by decide)
  have k19 := other_bits w 22 10 21 17 15 704 22 10 e2 (by decide)
  refine ⟨h7, ?_⟩
  rw [major0D w h7, decodeMajor0D]
  simp only [e0, e1, e2, k0, k1, k2, k3, k4, k5, k6, k7, k8, k9, k10, k11, k12, k13, k14, k15, k16, k17, k18, k19, fin_ofNat, beq_toNat, scope_ofCode, order_ofCode, tag_ofCode, Nat.reduceEqDiff, ↓reduceIte, OfNat.ofNat_ne_zero, and_true, and_false, and_self, false_and, true_and, Option.map_some]
  try rfl

theorem fcvtLD (d : XReg) (a : XReg) (rm : Option Rounding) (sat : Bool) (w : Nat) (hw : w = 96469005 + d.val * 128 + a.val * 4096) :
    w % 128 = 13 ∧ decodeRaw w = some (.fcvtLD d a none false) := by
  obtain ⟨h7, e0, e1, e2⟩ := shape13 13 _ _ 736 w (by decide) d.isLt a.isLt (by decide)
    (by omega)
  have k0 := other_bits w 22 10 0 17 15 736 22 10 e2 (by decide)
  have k1 := other_bits w 22 10 1 17 15 736 22 10 e2 (by decide)
  have k2 := other_bits w 22 10 2 17 15 736 22 10 e2 (by decide)
  have k3 := other_bits w 22 10 3 17 15 736 22 10 e2 (by decide)
  have k4 := other_bits w 22 10 4 17 15 736 22 10 e2 (by decide)
  have k5 := other_bits w 22 10 5 17 15 736 22 10 e2 (by decide)
  have k6 := other_bits w 22 10 6 17 15 736 22 10 e2 (by decide)
  have k7 := other_bits w 22 10 7 17 15 736 22 10 e2 (by decide)
  have k8 := other_bits w 22 10 10 17 15 736 22 10 e2 (by decide)
  have k9 := other_bits w 22 10 11 17 15 736 22 10 e2 (by decide)
  have k10 := other_bits w 22 10 12 17 15 736 22 10 e2 (by decide)
  have k11 := other_bits w 22 10 13 17 15 736 22 10 e2 (by decide)
  have k12 := other_bits w 22 10 14 17 15 736 22 10 e2 (by decide)
  have k13 := other_bits w 22 10 15 17 15 736 22 10 e2 (by decide)
  have k14 := other_bits w 22 10 16 17 15 736 22 10 e2 (by decide)
  have k15 := other_bits w 22 10 17 17 15 736 22 10 e2 (by decide)
  have k16 := other_bits w 22 10 18 17 15 736 22 10 e2 (by decide)
  have k17 := other_bits w 22 10 19 17 15 736 22 10 e2 (by decide)
  have k18 := other_bits w 22 10 20 17 15 736 22 10 e2 (by decide)
  have k19 := other_bits w 22 10 21 17 15 736 22 10 e2 (by decide)
  refine ⟨h7, ?_⟩
  rw [major0D w h7, decodeMajor0D]
  simp only [e0, e1, e2, k0, k1, k2, k3, k4, k5, k6, k7, k8, k9, k10, k11, k12, k13, k14, k15, k16, k17, k18, k19, fin_ofNat, beq_toNat, scope_ofCode, order_ofCode, tag_ofCode, Nat.reduceEqDiff, ↓reduceIte, OfNat.ofNat_ne_zero, and_true, and_false, and_self, false_and, true_and, Option.map_some]
  try rfl

theorem fcvtLuS (d : XReg) (a : XReg) (rm : Option Rounding) (sat : Bool) (w : Nat) (hw : w = 100663309 + d.val * 128 + a.val * 4096) :
    w % 128 = 13 ∧ decodeRaw w = some (.fcvtLuS d a none false) := by
  obtain ⟨h7, e0, e1, e2⟩ := shape13 13 _ _ 768 w (by decide) d.isLt a.isLt (by decide)
    (by omega)
  have k0 := other_bits w 22 10 0 17 15 768 22 10 e2 (by decide)
  have k1 := other_bits w 22 10 1 17 15 768 22 10 e2 (by decide)
  have k2 := other_bits w 22 10 2 17 15 768 22 10 e2 (by decide)
  have k3 := other_bits w 22 10 3 17 15 768 22 10 e2 (by decide)
  have k4 := other_bits w 22 10 4 17 15 768 22 10 e2 (by decide)
  have k5 := other_bits w 22 10 5 17 15 768 22 10 e2 (by decide)
  have k6 := other_bits w 22 10 6 17 15 768 22 10 e2 (by decide)
  have k7 := other_bits w 22 10 7 17 15 768 22 10 e2 (by decide)
  have k8 := other_bits w 22 10 10 17 15 768 22 10 e2 (by decide)
  have k9 := other_bits w 22 10 11 17 15 768 22 10 e2 (by decide)
  have k10 := other_bits w 22 10 12 17 15 768 22 10 e2 (by decide)
  have k11 := other_bits w 22 10 13 17 15 768 22 10 e2 (by decide)
  have k12 := other_bits w 22 10 14 17 15 768 22 10 e2 (by decide)
  have k13 := other_bits w 22 10 15 17 15 768 22 10 e2 (by decide)
  have k14 := other_bits w 22 10 16 17 15 768 22 10 e2 (by decide)
  have k15 := other_bits w 22 10 17 17 15 768 22 10 e2 (by decide)
  have k16 := other_bits w 22 10 18 17 15 768 22 10 e2 (by decide)
  have k17 := other_bits w 22 10 19 17 15 768 22 10 e2 (by decide)
  have k18 := other_bits w 22 10 20 17 15 768 22 10 e2 (by decide)
  have k19 := other_bits w 22 10 21 17 15 768 22 10 e2 (by decide)
  refine ⟨h7, ?_⟩
  rw [major0D w h7, decodeMajor0D]
  simp only [e0, e1, e2, k0, k1, k2, k3, k4, k5, k6, k7, k8, k9, k10, k11, k12, k13, k14, k15, k16, k17, k18, k19, fin_ofNat, beq_toNat, scope_ofCode, order_ofCode, tag_ofCode, Nat.reduceEqDiff, ↓reduceIte, OfNat.ofNat_ne_zero, and_true, and_false, and_self, false_and, true_and, Option.map_some]
  try rfl

theorem fcvtLuD (d : XReg) (a : XReg) (rm : Option Rounding) (sat : Bool) (w : Nat) (hw : w = 104857613 + d.val * 128 + a.val * 4096) :
    w % 128 = 13 ∧ decodeRaw w = some (.fcvtLuD d a none false) := by
  obtain ⟨h7, e0, e1, e2⟩ := shape13 13 _ _ 800 w (by decide) d.isLt a.isLt (by decide)
    (by omega)
  have k0 := other_bits w 22 10 0 17 15 800 22 10 e2 (by decide)
  have k1 := other_bits w 22 10 1 17 15 800 22 10 e2 (by decide)
  have k2 := other_bits w 22 10 2 17 15 800 22 10 e2 (by decide)
  have k3 := other_bits w 22 10 3 17 15 800 22 10 e2 (by decide)
  have k4 := other_bits w 22 10 4 17 15 800 22 10 e2 (by decide)
  have k5 := other_bits w 22 10 5 17 15 800 22 10 e2 (by decide)
  have k6 := other_bits w 22 10 6 17 15 800 22 10 e2 (by decide)
  have k7 := other_bits w 22 10 7 17 15 800 22 10 e2 (by decide)
  have k8 := other_bits w 22 10 10 17 15 800 22 10 e2 (by decide)
  have k9 := other_bits w 22 10 11 17 15 800 22 10 e2 (by decide)
  have k10 := other_bits w 22 10 12 17 15 800 22 10 e2 (by decide)
  have k11 := other_bits w 22 10 13 17 15 800 22 10 e2 (by decide)
  have k12 := other_bits w 22 10 14 17 15 800 22 10 e2 (by decide)
  have k13 := other_bits w 22 10 15 17 15 800 22 10 e2 (by decide)
  have k14 := other_bits w 22 10 16 17 15 800 22 10 e2 (by decide)
  have k15 := other_bits w 22 10 17 17 15 800 22 10 e2 (by decide)
  have k16 := other_bits w 22 10 18 17 15 800 22 10 e2 (by decide)
  have k17 := other_bits w 22 10 19 17 15 800 22 10 e2 (by decide)
  have k18 := other_bits w 22 10 20 17 15 800 22 10 e2 (by decide)
  have k19 := other_bits w 22 10 21 17 15 800 22 10 e2 (by decide)
  refine ⟨h7, ?_⟩
  rw [major0D w h7, decodeMajor0D]
  simp only [e0, e1, e2, k0, k1, k2, k3, k4, k5, k6, k7, k8, k9, k10, k11, k12, k13, k14, k15, k16, k17, k18, k19, fin_ofNat, beq_toNat, scope_ofCode, order_ofCode, tag_ofCode, Nat.reduceEqDiff, ↓reduceIte, OfNat.ofNat_ne_zero, and_true, and_false, and_self, false_and, true_and, Option.map_some]
  try rfl

theorem fcvtSL (d : XReg) (a : XReg) (rm : Option Rounding) (w : Nat) (hw : w = 109051917 + d.val * 128 + a.val * 4096) :
    w % 128 = 13 ∧ decodeRaw w = some (.fcvtSL d a none) := by
  obtain ⟨h7, e0, e1, e2⟩ := shape13 13 _ _ 832 w (by decide) d.isLt a.isLt (by decide)
    (by omega)
  have k0 := other_bits w 22 10 0 17 15 832 22 10 e2 (by decide)
  have k1 := other_bits w 22 10 1 17 15 832 22 10 e2 (by decide)
  have k2 := other_bits w 22 10 2 17 15 832 22 10 e2 (by decide)
  have k3 := other_bits w 22 10 3 17 15 832 22 10 e2 (by decide)
  have k4 := other_bits w 22 10 4 17 15 832 22 10 e2 (by decide)
  have k5 := other_bits w 22 10 5 17 15 832 22 10 e2 (by decide)
  have k6 := other_bits w 22 10 6 17 15 832 22 10 e2 (by decide)
  have k7 := other_bits w 22 10 7 17 15 832 22 10 e2 (by decide)
  have k8 := other_bits w 22 10 10 17 15 832 22 10 e2 (by decide)
  have k9 := other_bits w 22 10 11 17 15 832 22 10 e2 (by decide)
  have k10 := other_bits w 22 10 12 17 15 832 22 10 e2 (by decide)
  have k11 := other_bits w 22 10 13 17 15 832 22 10 e2 (by decide)
  have k12 := other_bits w 22 10 14 17 15 832 22 10 e2 (by decide)
  have k13 := other_bits w 22 10 15 17 15 832 22 10 e2 (by decide)
  have k14 := other_bits w 22 10 16 17 15 832 22 10 e2 (by decide)
  have k15 := other_bits w 22 10 17 17 15 832 22 10 e2 (by decide)
  have k16 := other_bits w 22 10 18 17 15 832 22 10 e2 (by decide)
  have k17 := other_bits w 22 10 19 17 15 832 22 10 e2 (by decide)
  have k18 := other_bits w 22 10 20 17 15 832 22 10 e2 (by decide)
  have k19 := other_bits w 22 10 21 17 15 832 22 10 e2 (by decide)
  refine ⟨h7, ?_⟩
  rw [major0D w h7, decodeMajor0D]
  simp only [e0, e1, e2, k0, k1, k2, k3, k4, k5, k6, k7, k8, k9, k10, k11, k12, k13, k14, k15, k16, k17, k18, k19, fin_ofNat, beq_toNat, scope_ofCode, order_ofCode, tag_ofCode, Nat.reduceEqDiff, ↓reduceIte, OfNat.ofNat_ne_zero, and_true, and_false, and_self, false_and, true_and, Option.map_some]
  try rfl

theorem fcvtDL (d : XReg) (a : XReg) (rm : Option Rounding) (w : Nat) (hw : w = 113246221 + d.val * 128 + a.val * 4096) :
    w % 128 = 13 ∧ decodeRaw w = some (.fcvtDL d a none) := by
  obtain ⟨h7, e0, e1, e2⟩ := shape13 13 _ _ 864 w (by decide) d.isLt a.isLt (by decide)
    (by omega)
  have k0 := other_bits w 22 10 0 17 15 864 22 10 e2 (by decide)
  have k1 := other_bits w 22 10 1 17 15 864 22 10 e2 (by decide)
  have k2 := other_bits w 22 10 2 17 15 864 22 10 e2 (by decide)
  have k3 := other_bits w 22 10 3 17 15 864 22 10 e2 (by decide)
  have k4 := other_bits w 22 10 4 17 15 864 22 10 e2 (by decide)
  have k5 := other_bits w 22 10 5 17 15 864 22 10 e2 (by decide)
  have k6 := other_bits w 22 10 6 17 15 864 22 10 e2 (by decide)
  have k7 := other_bits w 22 10 7 17 15 864 22 10 e2 (by decide)
  have k8 := other_bits w 22 10 10 17 15 864 22 10 e2 (by decide)
  have k9 := other_bits w 22 10 11 17 15 864 22 10 e2 (by decide)
  have k10 := other_bits w 22 10 12 17 15 864 22 10 e2 (by decide)
  have k11 := other_bits w 22 10 13 17 15 864 22 10 e2 (by decide)
  have k12 := other_bits w 22 10 14 17 15 864 22 10 e2 (by decide)
  have k13 := other_bits w 22 10 15 17 15 864 22 10 e2 (by decide)
  have k14 := other_bits w 22 10 16 17 15 864 22 10 e2 (by decide)
  have k15 := other_bits w 22 10 17 17 15 864 22 10 e2 (by decide)
  have k16 := other_bits w 22 10 18 17 15 864 22 10 e2 (by decide)
  have k17 := other_bits w 22 10 19 17 15 864 22 10 e2 (by decide)
  have k18 := other_bits w 22 10 20 17 15 864 22 10 e2 (by decide)
  have k19 := other_bits w 22 10 21 17 15 864 22 10 e2 (by decide)
  refine ⟨h7, ?_⟩
  rw [major0D w h7, decodeMajor0D]
  simp only [e0, e1, e2, k0, k1, k2, k3, k4, k5, k6, k7, k8, k9, k10, k11, k12, k13, k14, k15, k16, k17, k18, k19, fin_ofNat, beq_toNat, scope_ofCode, order_ofCode, tag_ofCode, Nat.reduceEqDiff, ↓reduceIte, OfNat.ofNat_ne_zero, and_true, and_false, and_self, false_and, true_and, Option.map_some]
  try rfl

theorem fcvtSLu (d : XReg) (a : XReg) (rm : Option Rounding) (w : Nat) (hw : w = 117440525 + d.val * 128 + a.val * 4096) :
    w % 128 = 13 ∧ decodeRaw w = some (.fcvtSLu d a none) := by
  obtain ⟨h7, e0, e1, e2⟩ := shape13 13 _ _ 896 w (by decide) d.isLt a.isLt (by decide)
    (by omega)
  have k0 := other_bits w 22 10 0 17 15 896 22 10 e2 (by decide)
  have k1 := other_bits w 22 10 1 17 15 896 22 10 e2 (by decide)
  have k2 := other_bits w 22 10 2 17 15 896 22 10 e2 (by decide)
  have k3 := other_bits w 22 10 3 17 15 896 22 10 e2 (by decide)
  have k4 := other_bits w 22 10 4 17 15 896 22 10 e2 (by decide)
  have k5 := other_bits w 22 10 5 17 15 896 22 10 e2 (by decide)
  have k6 := other_bits w 22 10 6 17 15 896 22 10 e2 (by decide)
  have k7 := other_bits w 22 10 7 17 15 896 22 10 e2 (by decide)
  have k8 := other_bits w 22 10 10 17 15 896 22 10 e2 (by decide)
  have k9 := other_bits w 22 10 11 17 15 896 22 10 e2 (by decide)
  have k10 := other_bits w 22 10 12 17 15 896 22 10 e2 (by decide)
  have k11 := other_bits w 22 10 13 17 15 896 22 10 e2 (by decide)
  have k12 := other_bits w 22 10 14 17 15 896 22 10 e2 (by decide)
  have k13 := other_bits w 22 10 15 17 15 896 22 10 e2 (by decide)
  have k14 := other_bits w 22 10 16 17 15 896 22 10 e2 (by decide)
  have k15 := other_bits w 22 10 17 17 15 896 22 10 e2 (by decide)
  have k16 := other_bits w 22 10 18 17 15 896 22 10 e2 (by decide)
  have k17 := other_bits w 22 10 19 17 15 896 22 10 e2 (by decide)
  have k18 := other_bits w 22 10 20 17 15 896 22 10 e2 (by decide)
  have k19 := other_bits w 22 10 21 17 15 896 22 10 e2 (by decide)
  refine ⟨h7, ?_⟩
  rw [major0D w h7, decodeMajor0D]
  simp only [e0, e1, e2, k0, k1, k2, k3, k4, k5, k6, k7, k8, k9, k10, k11, k12, k13, k14, k15, k16, k17, k18, k19, fin_ofNat, beq_toNat, scope_ofCode, order_ofCode, tag_ofCode, Nat.reduceEqDiff, ↓reduceIte, OfNat.ofNat_ne_zero, and_true, and_false, and_self, false_and, true_and, Option.map_some]
  try rfl

theorem fcvtDLu (d : XReg) (a : XReg) (rm : Option Rounding) (w : Nat) (hw : w = 121634829 + d.val * 128 + a.val * 4096) :
    w % 128 = 13 ∧ decodeRaw w = some (.fcvtDLu d a none) := by
  obtain ⟨h7, e0, e1, e2⟩ := shape13 13 _ _ 928 w (by decide) d.isLt a.isLt (by decide)
    (by omega)
  have k0 := other_bits w 22 10 0 17 15 928 22 10 e2 (by decide)
  have k1 := other_bits w 22 10 1 17 15 928 22 10 e2 (by decide)
  have k2 := other_bits w 22 10 2 17 15 928 22 10 e2 (by decide)
  have k3 := other_bits w 22 10 3 17 15 928 22 10 e2 (by decide)
  have k4 := other_bits w 22 10 4 17 15 928 22 10 e2 (by decide)
  have k5 := other_bits w 22 10 5 17 15 928 22 10 e2 (by decide)
  have k6 := other_bits w 22 10 6 17 15 928 22 10 e2 (by decide)
  have k7 := other_bits w 22 10 7 17 15 928 22 10 e2 (by decide)
  have k8 := other_bits w 22 10 10 17 15 928 22 10 e2 (by decide)
  have k9 := other_bits w 22 10 11 17 15 928 22 10 e2 (by decide)
  have k10 := other_bits w 22 10 12 17 15 928 22 10 e2 (by decide)
  have k11 := other_bits w 22 10 13 17 15 928 22 10 e2 (by decide)
  have k12 := other_bits w 22 10 14 17 15 928 22 10 e2 (by decide)
  have k13 := other_bits w 22 10 15 17 15 928 22 10 e2 (by decide)
  have k14 := other_bits w 22 10 16 17 15 928 22 10 e2 (by decide)
  have k15 := other_bits w 22 10 17 17 15 928 22 10 e2 (by decide)
  have k16 := other_bits w 22 10 18 17 15 928 22 10 e2 (by decide)
  have k17 := other_bits w 22 10 19 17 15 928 22 10 e2 (by decide)
  have k18 := other_bits w 22 10 20 17 15 928 22 10 e2 (by decide)
  have k19 := other_bits w 22 10 21 17 15 928 22 10 e2 (by decide)
  refine ⟨h7, ?_⟩
  rw [major0D w h7, decodeMajor0D]
  simp only [e0, e1, e2, k0, k1, k2, k3, k4, k5, k6, k7, k8, k9, k10, k11, k12, k13, k14, k15, k16, k17, k18, k19, fin_ofNat, beq_toNat, scope_ofCode, order_ofCode, tag_ofCode, Nat.reduceEqDiff, ↓reduceIte, OfNat.ofNat_ne_zero, and_true, and_false, and_self, false_and, true_and, Option.map_some]
  try rfl

theorem fcvtSD (d : XReg) (a : XReg) (rm : Option Rounding) (sat : Bool) (w : Nat) (hw : w = 125829133 + d.val * 128 + a.val * 4096) :
    w % 128 = 13 ∧ decodeRaw w = some (.fcvtSD d a none false) := by
  obtain ⟨h7, e0, e1, e2⟩ := shape13 13 _ _ 960 w (by decide) d.isLt a.isLt (by decide)
    (by omega)
  have k0 := other_bits w 22 10 0 17 15 960 22 10 e2 (by decide)
  have k1 := other_bits w 22 10 1 17 15 960 22 10 e2 (by decide)
  have k2 := other_bits w 22 10 2 17 15 960 22 10 e2 (by decide)
  have k3 := other_bits w 22 10 3 17 15 960 22 10 e2 (by decide)
  have k4 := other_bits w 22 10 4 17 15 960 22 10 e2 (by decide)
  have k5 := other_bits w 22 10 5 17 15 960 22 10 e2 (by decide)
  have k6 := other_bits w 22 10 6 17 15 960 22 10 e2 (by decide)
  have k7 := other_bits w 22 10 7 17 15 960 22 10 e2 (by decide)
  have k8 := other_bits w 22 10 10 17 15 960 22 10 e2 (by decide)
  have k9 := other_bits w 22 10 11 17 15 960 22 10 e2 (by decide)
  have k10 := other_bits w 22 10 12 17 15 960 22 10 e2 (by decide)
  have k11 := other_bits w 22 10 13 17 15 960 22 10 e2 (by decide)
  have k12 := other_bits w 22 10 14 17 15 960 22 10 e2 (by decide)
  have k13 := other_bits w 22 10 15 17 15 960 22 10 e2 (by decide)
  have k14 := other_bits w 22 10 16 17 15 960 22 10 e2 (by decide)
  have k15 := other_bits w 22 10 17 17 15 960 22 10 e2 (by decide)
  have k16 := other_bits w 22 10 18 17 15 960 22 10 e2 (by decide)
  have k17 := other_bits w 22 10 19 17 15 960 22 10 e2 (by decide)
  have k18 := other_bits w 22 10 20 17 15 960 22 10 e2 (by decide)
  have k19 := other_bits w 22 10 21 17 15 960 22 10 e2 (by decide)
  refine ⟨h7, ?_⟩
  rw [major0D w h7, decodeMajor0D]
  simp only [e0, e1, e2, k0, k1, k2, k3, k4, k5, k6, k7, k8, k9, k10, k11, k12, k13, k14, k15, k16, k17, k18, k19, fin_ofNat, beq_toNat, scope_ofCode, order_ofCode, tag_ofCode, Nat.reduceEqDiff, ↓reduceIte, OfNat.ofNat_ne_zero, and_true, and_false, and_self, false_and, true_and, Option.map_some]
  try rfl

theorem fcvtDS (d : XReg) (a : XReg) (rm : Option Rounding) (w : Nat) (hw : w = 130023437 + d.val * 128 + a.val * 4096) :
    w % 128 = 13 ∧ decodeRaw w = some (.fcvtDS d a none) := by
  obtain ⟨h7, e0, e1, e2⟩ := shape13 13 _ _ 992 w (by decide) d.isLt a.isLt (by decide)
    (by omega)
  have k0 := other_bits w 22 10 0 17 15 992 22 10 e2 (by decide)
  have k1 := other_bits w 22 10 1 17 15 992 22 10 e2 (by decide)
  have k2 := other_bits w 22 10 2 17 15 992 22 10 e2 (by decide)
  have k3 := other_bits w 22 10 3 17 15 992 22 10 e2 (by decide)
  have k4 := other_bits w 22 10 4 17 15 992 22 10 e2 (by decide)
  have k5 := other_bits w 22 10 5 17 15 992 22 10 e2 (by decide)
  have k6 := other_bits w 22 10 6 17 15 992 22 10 e2 (by decide)
  have k7 := other_bits w 22 10 7 17 15 992 22 10 e2 (by decide)
  have k8 := other_bits w 22 10 10 17 15 992 22 10 e2 (by decide)
  have k9 := other_bits w 22 10 11 17 15 992 22 10 e2 (by decide)
  have k10 := other_bits w 22 10 12 17 15 992 22 10 e2 (by decide)
  have k11 := other_bits w 22 10 13 17 15 992 22 10 e2 (by decide)
  have k12 := other_bits w 22 10 14 17 15 992 22 10 e2 (by decide)
  have k13 := other_bits w 22 10 15 17 15 992 22 10 e2 (by decide)
  have k14 := other_bits w 22 10 16 17 15 992 22 10 e2 (by decide)
  have k15 := other_bits w 22 10 17 17 15 992 22 10 e2 (by decide)
  have k16 := other_bits w 22 10 18 17 15 992 22 10 e2 (by decide)
  have k17 := other_bits w 22 10 19 17 15 992 22 10 e2 (by decide)
  have k18 := other_bits w 22 10 20 17 15 992 22 10 e2 (by decide)
  have k19 := other_bits w 22 10 21 17 15 992 22 10 e2 (by decide)
  refine ⟨h7, ?_⟩
  rw [major0D w h7, decodeMajor0D]
  simp only [e0, e1, e2, k0, k1, k2, k3, k4, k5, k6, k7, k8, k9, k10, k11, k12, k13, k14, k15, k16, k17, k18, k19, fin_ofNat, beq_toNat, scope_ofCode, order_ofCode, tag_ofCode, Nat.reduceEqDiff, ↓reduceIte, OfNat.ofNat_ne_zero, and_true, and_false, and_self, false_and, true_and, Option.map_some]
  try rfl

theorem clz (d : XReg) (a : XReg) (w : Nat) (hw : w = 14 + d.val * 128 + a.val * 4096) :
    w % 128 = 14 ∧ decodeRaw w = some (.clz d a) := by
  obtain ⟨h7, e0, e1, e2⟩ := shape13 14 _ _ 0 w (by decide) d.isLt a.isLt (by decide)
    (by rw [hw]; simp only [zero_tile])
  refine ⟨h7, ?_⟩
  rw [major0E w h7, decodeMajor0E]
  simp only [e0, e1, e2, fin_ofNat, beq_toNat, scope_ofCode, order_ofCode, tag_ofCode, Nat.reduceEqDiff, ↓reduceIte, OfNat.ofNat_ne_zero, and_true, and_false, and_self, false_and, true_and, Option.map_some]
  try rfl

theorem ctz (d : XReg) (a : XReg) (w : Nat) (hw : w = 4194318 + d.val * 128 + a.val * 4096) :
    w % 128 = 14 ∧ decodeRaw w = some (.ctz d a) := by
  obtain ⟨h7, e0, e1, e2⟩ := shape13 14 _ _ 32 w (by decide) d.isLt a.isLt (by decide)
    (by omega)
  refine ⟨h7, ?_⟩
  rw [major0E w h7, decodeMajor0E]
  simp only [e0, e1, e2, fin_ofNat, beq_toNat, scope_ofCode, order_ofCode, tag_ofCode, Nat.reduceEqDiff, ↓reduceIte, OfNat.ofNat_ne_zero, and_true, and_false, and_self, false_and, true_and, Option.map_some]
  try rfl

theorem popc (d : XReg) (a : XReg) (w : Nat) (hw : w = 8388622 + d.val * 128 + a.val * 4096) :
    w % 128 = 14 ∧ decodeRaw w = some (.popc d a) := by
  obtain ⟨h7, e0, e1, e2⟩ := shape13 14 _ _ 64 w (by decide) d.isLt a.isLt (by decide)
    (by omega)
  refine ⟨h7, ?_⟩
  rw [major0E w h7, decodeMajor0E]
  simp only [e0, e1, e2, fin_ofNat, beq_toNat, scope_ofCode, order_ofCode, tag_ofCode, Nat.reduceEqDiff, ↓reduceIte, OfNat.ofNat_ne_zero, and_true, and_false, and_self, false_and, true_and, Option.map_some]
  try rfl

theorem bswap (d : XReg) (a : XReg) (w : Nat) (hw : w = 12582926 + d.val * 128 + a.val * 4096) :
    w % 128 = 14 ∧ decodeRaw w = some (.bswap d a) := by
  obtain ⟨h7, e0, e1, e2⟩ := shape13 14 _ _ 96 w (by decide) d.isLt a.isLt (by decide)
    (by omega)
  refine ⟨h7, ?_⟩
  rw [major0E w h7, decodeMajor0E]
  simp only [e0, e1, e2, fin_ofNat, beq_toNat, scope_ofCode, order_ofCode, tag_ofCode, Nat.reduceEqDiff, ↓reduceIte, OfNat.ofNat_ne_zero, and_true, and_false, and_self, false_and, true_and, Option.map_some]
  try rfl

theorem bfx (d : XReg) (a : XReg) (l : Fin 64) (p : Fin 64) (w : Nat) (hw : w = 131086 + d.val * 128 + a.val * 4096 + l.val * 1048576 + p.val * 67108864) :
    w % 128 = 14 ∧ decodeRaw w = some (.bfx d a l p) := by
  obtain ⟨h7, e0, e1, e2, e3, e4⟩ := shape4 14 _ _ 1 _ _ w (by decide) d.isLt a.isLt (by decide) l.isLt p.isLt
    (by omega)
  have k0 := other_bits w 17 15 0 17 3 1 17 3 e2 (by decide)
  have k1 := other_bits w 17 15 32 17 3 1 17 3 e2 (by decide)
  have k2 := other_bits w 17 15 64 17 3 1 17 3 e2 (by decide)
  have k3 := other_bits w 17 15 96 17 3 1 17 3 e2 (by decide)
  refine ⟨h7, ?_⟩
  rw [major0E w h7, decodeMajor0E]
  simp only [e0, e1, e2, e3, e4, k0, k1, k2, k3, fin_ofNat, beq_toNat, scope_ofCode, order_ofCode, tag_ofCode, Nat.reduceEqDiff, ↓reduceIte, OfNat.ofNat_ne_zero, and_true, and_false, and_self, false_and, true_and, Option.map_some]
  try rfl

theorem bfxu (d : XReg) (a : XReg) (l : Fin 64) (p : Fin 64) (w : Nat) (hw : w = 262158 + d.val * 128 + a.val * 4096 + l.val * 1048576 + p.val * 67108864) :
    w % 128 = 14 ∧ decodeRaw w = some (.bfxu d a l p) := by
  obtain ⟨h7, e0, e1, e2, e3, e4⟩ := shape4 14 _ _ 2 _ _ w (by decide) d.isLt a.isLt (by decide) l.isLt p.isLt
    (by omega)
  have k0 := other_bits w 17 15 0 17 3 2 17 3 e2 (by decide)
  have k1 := other_bits w 17 15 32 17 3 2 17 3 e2 (by decide)
  have k2 := other_bits w 17 15 64 17 3 2 17 3 e2 (by decide)
  have k3 := other_bits w 17 15 96 17 3 2 17 3 e2 (by decide)
  refine ⟨h7, ?_⟩
  rw [major0E w h7, decodeMajor0E]
  simp only [e0, e1, e2, e3, e4, k0, k1, k2, k3, fin_ofNat, beq_toNat, scope_ofCode, order_ofCode, tag_ofCode, Nat.reduceEqDiff, ↓reduceIte, OfNat.ofNat_ne_zero, and_true, and_false, and_self, false_and, true_and, Option.map_some]
  try rfl

theorem bfi (d : XReg) (a : XReg) (l : Fin 64) (p : Fin 64) (w : Nat) (hw : w = 393230 + d.val * 128 + a.val * 4096 + l.val * 1048576 + p.val * 67108864) :
    w % 128 = 14 ∧ decodeRaw w = some (.bfi d a l p) := by
  obtain ⟨h7, e0, e1, e2, e3, e4⟩ := shape4 14 _ _ 3 _ _ w (by decide) d.isLt a.isLt (by decide) l.isLt p.isLt
    (by omega)
  have k0 := other_bits w 17 15 0 17 3 3 17 3 e2 (by decide)
  have k1 := other_bits w 17 15 32 17 3 3 17 3 e2 (by decide)
  have k2 := other_bits w 17 15 64 17 3 3 17 3 e2 (by decide)
  have k3 := other_bits w 17 15 96 17 3 3 17 3 e2 (by decide)
  refine ⟨h7, ?_⟩
  rw [major0E w h7, decodeMajor0E]
  simp only [e0, e1, e2, e3, e4, k0, k1, k2, k3, fin_ofNat, beq_toNat, scope_ofCode, order_ofCode, tag_ofCode, Nat.reduceEqDiff, ↓reduceIte, OfNat.ofNat_ne_zero, and_true, and_false, and_self, false_and, true_and, Option.map_some]
  try rfl

theorem fsh (d : XReg) (a : XReg) (s : Fin 64) (b : XReg) (w : Nat) (hw : w = 524302 + d.val * 128 + a.val * 4096 + s.val * 1048576 + b.val * 134217728) :
    w % 128 = 14 ∧ decodeRaw w = some (.fsh d a s b) := by
  obtain ⟨h7, e0, e1, e2, e3, e4, e5⟩ := shape15 14 _ _ 4 _ 0 _ w (by decide) d.isLt a.isLt (by decide) s.isLt (by decide) b.isLt
    (by omega)
  have k0 := other_bits w 17 15 0 17 3 4 17 3 e2 (by decide)
  have k1 := other_bits w 17 15 32 17 3 4 17 3 e2 (by decide)
  have k2 := other_bits w 17 15 64 17 3 4 17 3 e2 (by decide)
  have k3 := other_bits w 17 15 96 17 3 4 17 3 e2 (by decide)
  refine ⟨h7, ?_⟩
  rw [major0E w h7, decodeMajor0E]
  simp only [e0, e1, e2, e3, e4, e5, k0, k1, k2, k3, fin_ofNat, beq_toNat, scope_ofCode, order_ofCode, tag_ofCode, Nat.reduceEqDiff, ↓reduceIte, OfNat.ofNat_ne_zero, and_true, and_false, and_self, false_and, true_and, Option.map_some]
  try rfl

theorem fshv (d : XReg) (a : XReg) (c : XReg) (b : XReg) (w : Nat) (hw : w = 655374 + d.val * 128 + a.val * 4096 + c.val * 1048576 + b.val * 134217728) :
    w % 128 = 14 ∧ decodeRaw w = some (.fshv d a c b) := by
  obtain ⟨h7, e0, e1, e2, e3, e4, e5⟩ := shape16 14 _ _ 5 _ 0 _ w (by decide) d.isLt a.isLt (by decide) c.isLt (by decide) b.isLt
    (by omega)
  have k0 := other_bits w 17 15 0 17 3 5 17 3 e2 (by decide)
  have k1 := other_bits w 17 15 32 17 3 5 17 3 e2 (by decide)
  have k2 := other_bits w 17 15 64 17 3 5 17 3 e2 (by decide)
  have k3 := other_bits w 17 15 96 17 3 5 17 3 e2 (by decide)
  refine ⟨h7, ?_⟩
  rw [major0E w h7, decodeMajor0E]
  simp only [e0, e1, e2, e3, e4, e5, k0, k1, k2, k3, fin_ofNat, beq_toNat, scope_ofCode, order_ofCode, tag_ofCode, Nat.reduceEqDiff, ↓reduceIte, OfNat.ofNat_ne_zero, and_true, and_false, and_self, false_and, true_and, Option.map_some]
  try rfl

theorem bfxuv (d : XReg) (a : XReg) (l : Fin 64) (b : XReg) (w : Nat) (hw : w = 786446 + d.val * 128 + a.val * 4096 + l.val * 1048576 + b.val * 134217728) :
    w % 128 = 14 ∧ decodeRaw w = some (.bfxuv d a l b) := by
  obtain ⟨h7, e0, e1, e2, e3, e4, e5⟩ := shape15 14 _ _ 6 _ 0 _ w (by decide) d.isLt a.isLt (by decide) l.isLt (by decide) b.isLt
    (by omega)
  have k0 := other_bits w 17 15 0 17 3 6 17 3 e2 (by decide)
  have k1 := other_bits w 17 15 32 17 3 6 17 3 e2 (by decide)
  have k2 := other_bits w 17 15 64 17 3 6 17 3 e2 (by decide)
  have k3 := other_bits w 17 15 96 17 3 6 17 3 e2 (by decide)
  refine ⟨h7, ?_⟩
  rw [major0E w h7, decodeMajor0E]
  simp only [e0, e1, e2, e3, e4, e5, k0, k1, k2, k3, fin_ofNat, beq_toNat, scope_ofCode, order_ofCode, tag_ofCode, Nat.reduceEqDiff, ↓reduceIte, OfNat.ofNat_ne_zero, and_true, and_false, and_self, false_and, true_and, Option.map_some]
  try rfl

theorem amoAdd (d : XReg) (a : XReg) (b : XReg) (o : Order) (s : Scope) (z : Bool) (w : Nat) (hw : w = 16 + d.val * 128 + a.val * 4096 + b.val * 131072 + o.code * 8388608 + s.code * 33554432 + z.toNat * 134217728) :
    w % 128 = 16 ∧ decodeRaw w = some (.amoAdd d a b o s z) := by
  obtain ⟨h7, e0, e1, e2, e3, e4, e5, e6, e7⟩ := shape17 16 _ _ _ 0 _ _ _ 0 w (by decide) d.isLt a.isLt b.isLt (by decide) (order_bound o) (scope_bound s) (toNat_bound z) (by decide)
    (by rw [hw]; simp only [zero_tile])
  refine ⟨h7, ?_⟩
  rw [major10 w h7, decodeMajor10]
  simp only [e0, e1, e2, e3, e4, e5, e6, e7, fin_ofNat, beq_toNat, scope_ofCode, order_ofCode, tag_ofCode, Nat.reduceEqDiff, ↓reduceIte, OfNat.ofNat_ne_zero, and_true, and_false, and_self, false_and, true_and, Option.map_some]
  try rfl

theorem amoAnd (d : XReg) (a : XReg) (b : XReg) (o : Order) (s : Scope) (z : Bool) (w : Nat) (hw : w = 268435472 + d.val * 128 + a.val * 4096 + b.val * 131072 + o.code * 8388608 + s.code * 33554432 + z.toNat * 134217728) :
    w % 128 = 16 ∧ decodeRaw w = some (.amoAnd d a b o s z) := by
  obtain ⟨h7, e0, e1, e2, e3, e4, e5, e6, e7⟩ := shape17 16 _ _ _ 0 _ _ _ 1 w (by decide) d.isLt a.isLt b.isLt (by decide) (order_bound o) (scope_bound s) (toNat_bound z) (by decide)
    (by omega)
  refine ⟨h7, ?_⟩
  rw [major10 w h7, decodeMajor10]
  simp only [e0, e1, e2, e3, e4, e5, e6, e7, fin_ofNat, beq_toNat, scope_ofCode, order_ofCode, tag_ofCode, Nat.reduceEqDiff, ↓reduceIte, OfNat.ofNat_ne_zero, and_true, and_false, and_self, false_and, true_and, Option.map_some]
  try rfl

theorem amoOr (d : XReg) (a : XReg) (b : XReg) (o : Order) (s : Scope) (z : Bool) (w : Nat) (hw : w = 536870928 + d.val * 128 + a.val * 4096 + b.val * 131072 + o.code * 8388608 + s.code * 33554432 + z.toNat * 134217728) :
    w % 128 = 16 ∧ decodeRaw w = some (.amoOr d a b o s z) := by
  obtain ⟨h7, e0, e1, e2, e3, e4, e5, e6, e7⟩ := shape17 16 _ _ _ 0 _ _ _ 2 w (by decide) d.isLt a.isLt b.isLt (by decide) (order_bound o) (scope_bound s) (toNat_bound z) (by decide)
    (by omega)
  refine ⟨h7, ?_⟩
  rw [major10 w h7, decodeMajor10]
  simp only [e0, e1, e2, e3, e4, e5, e6, e7, fin_ofNat, beq_toNat, scope_ofCode, order_ofCode, tag_ofCode, Nat.reduceEqDiff, ↓reduceIte, OfNat.ofNat_ne_zero, and_true, and_false, and_self, false_and, true_and, Option.map_some]
  try rfl

theorem amoXor (d : XReg) (a : XReg) (b : XReg) (o : Order) (s : Scope) (z : Bool) (w : Nat) (hw : w = 805306384 + d.val * 128 + a.val * 4096 + b.val * 131072 + o.code * 8388608 + s.code * 33554432 + z.toNat * 134217728) :
    w % 128 = 16 ∧ decodeRaw w = some (.amoXor d a b o s z) := by
  obtain ⟨h7, e0, e1, e2, e3, e4, e5, e6, e7⟩ := shape17 16 _ _ _ 0 _ _ _ 3 w (by decide) d.isLt a.isLt b.isLt (by decide) (order_bound o) (scope_bound s) (toNat_bound z) (by decide)
    (by omega)
  refine ⟨h7, ?_⟩
  rw [major10 w h7, decodeMajor10]
  simp only [e0, e1, e2, e3, e4, e5, e6, e7, fin_ofNat, beq_toNat, scope_ofCode, order_ofCode, tag_ofCode, Nat.reduceEqDiff, ↓reduceIte, OfNat.ofNat_ne_zero, and_true, and_false, and_self, false_and, true_and, Option.map_some]
  try rfl

theorem amoMin (d : XReg) (a : XReg) (b : XReg) (o : Order) (s : Scope) (z : Bool) (w : Nat) (hw : w = 1073741840 + d.val * 128 + a.val * 4096 + b.val * 131072 + o.code * 8388608 + s.code * 33554432 + z.toNat * 134217728) :
    w % 128 = 16 ∧ decodeRaw w = some (.amoMin d a b o s z) := by
  obtain ⟨h7, e0, e1, e2, e3, e4, e5, e6, e7⟩ := shape17 16 _ _ _ 0 _ _ _ 4 w (by decide) d.isLt a.isLt b.isLt (by decide) (order_bound o) (scope_bound s) (toNat_bound z) (by decide)
    (by omega)
  refine ⟨h7, ?_⟩
  rw [major10 w h7, decodeMajor10]
  simp only [e0, e1, e2, e3, e4, e5, e6, e7, fin_ofNat, beq_toNat, scope_ofCode, order_ofCode, tag_ofCode, Nat.reduceEqDiff, ↓reduceIte, OfNat.ofNat_ne_zero, and_true, and_false, and_self, false_and, true_and, Option.map_some]
  try rfl

theorem amoMax (d : XReg) (a : XReg) (b : XReg) (o : Order) (s : Scope) (z : Bool) (w : Nat) (hw : w = 1342177296 + d.val * 128 + a.val * 4096 + b.val * 131072 + o.code * 8388608 + s.code * 33554432 + z.toNat * 134217728) :
    w % 128 = 16 ∧ decodeRaw w = some (.amoMax d a b o s z) := by
  obtain ⟨h7, e0, e1, e2, e3, e4, e5, e6, e7⟩ := shape17 16 _ _ _ 0 _ _ _ 5 w (by decide) d.isLt a.isLt b.isLt (by decide) (order_bound o) (scope_bound s) (toNat_bound z) (by decide)
    (by omega)
  refine ⟨h7, ?_⟩
  rw [major10 w h7, decodeMajor10]
  simp only [e0, e1, e2, e3, e4, e5, e6, e7, fin_ofNat, beq_toNat, scope_ofCode, order_ofCode, tag_ofCode, Nat.reduceEqDiff, ↓reduceIte, OfNat.ofNat_ne_zero, and_true, and_false, and_self, false_and, true_and, Option.map_some]
  try rfl

theorem amoMinu (d : XReg) (a : XReg) (b : XReg) (o : Order) (s : Scope) (z : Bool) (w : Nat) (hw : w = 1610612752 + d.val * 128 + a.val * 4096 + b.val * 131072 + o.code * 8388608 + s.code * 33554432 + z.toNat * 134217728) :
    w % 128 = 16 ∧ decodeRaw w = some (.amoMinu d a b o s z) := by
  obtain ⟨h7, e0, e1, e2, e3, e4, e5, e6, e7⟩ := shape17 16 _ _ _ 0 _ _ _ 6 w (by decide) d.isLt a.isLt b.isLt (by decide) (order_bound o) (scope_bound s) (toNat_bound z) (by decide)
    (by omega)
  refine ⟨h7, ?_⟩
  rw [major10 w h7, decodeMajor10]
  simp only [e0, e1, e2, e3, e4, e5, e6, e7, fin_ofNat, beq_toNat, scope_ofCode, order_ofCode, tag_ofCode, Nat.reduceEqDiff, ↓reduceIte, OfNat.ofNat_ne_zero, and_true, and_false, and_self, false_and, true_and, Option.map_some]
  try rfl

theorem amoMaxu (d : XReg) (a : XReg) (b : XReg) (o : Order) (s : Scope) (z : Bool) (w : Nat) (hw : w = 1879048208 + d.val * 128 + a.val * 4096 + b.val * 131072 + o.code * 8388608 + s.code * 33554432 + z.toNat * 134217728) :
    w % 128 = 16 ∧ decodeRaw w = some (.amoMaxu d a b o s z) := by
  obtain ⟨h7, e0, e1, e2, e3, e4, e5, e6, e7⟩ := shape17 16 _ _ _ 0 _ _ _ 7 w (by decide) d.isLt a.isLt b.isLt (by decide) (order_bound o) (scope_bound s) (toNat_bound z) (by decide)
    (by omega)
  refine ⟨h7, ?_⟩
  rw [major10 w h7, decodeMajor10]
  simp only [e0, e1, e2, e3, e4, e5, e6, e7, fin_ofNat, beq_toNat, scope_ofCode, order_ofCode, tag_ofCode, Nat.reduceEqDiff, ↓reduceIte, OfNat.ofNat_ne_zero, and_true, and_false, and_self, false_and, true_and, Option.map_some]
  try rfl

theorem amoSwap (d : XReg) (a : XReg) (b : XReg) (o : Order) (s : Scope) (z : Bool) (w : Nat) (hw : w = 2147483664 + d.val * 128 + a.val * 4096 + b.val * 131072 + o.code * 8388608 + s.code * 33554432 + z.toNat * 134217728) :
    w % 128 = 16 ∧ decodeRaw w = some (.amoSwap d a b o s z) := by
  obtain ⟨h7, e0, e1, e2, e3, e4, e5, e6, e7⟩ := shape17 16 _ _ _ 0 _ _ _ 8 w (by decide) d.isLt a.isLt b.isLt (by decide) (order_bound o) (scope_bound s) (toNat_bound z) (by decide)
    (by omega)
  refine ⟨h7, ?_⟩
  rw [major10 w h7, decodeMajor10]
  simp only [e0, e1, e2, e3, e4, e5, e6, e7, fin_ofNat, beq_toNat, scope_ofCode, order_ofCode, tag_ofCode, Nat.reduceEqDiff, ↓reduceIte, OfNat.ofNat_ne_zero, and_true, and_false, and_self, false_and, true_and, Option.map_some]
  try rfl

theorem amoCas (d : XReg) (a : XReg) (b : XReg) (o : Order) (s : Scope) (z : Bool) (w : Nat) (hw : w = 2415919120 + d.val * 128 + a.val * 4096 + b.val * 131072 + o.code * 8388608 + s.code * 33554432 + z.toNat * 134217728) :
    w % 128 = 16 ∧ decodeRaw w = some (.amoCas d a b o s z) := by
  obtain ⟨h7, e0, e1, e2, e3, e4, e5, e6, e7⟩ := shape17 16 _ _ _ 0 _ _ _ 9 w (by decide) d.isLt a.isLt b.isLt (by decide) (order_bound o) (scope_bound s) (toNat_bound z) (by decide)
    (by omega)
  refine ⟨h7, ?_⟩
  rw [major10 w h7, decodeMajor10]
  simp only [e0, e1, e2, e3, e4, e5, e6, e7, fin_ofNat, beq_toNat, scope_ofCode, order_ofCode, tag_ofCode, Nat.reduceEqDiff, ↓reduceIte, OfNat.ofNat_ne_zero, and_true, and_false, and_self, false_and, true_and, Option.map_some]
  try rfl

theorem casQ (d : XReg) (a : XReg) (b : XReg) (o : Order) (s : Scope) (w : Nat) (hw : w = 2818572304 + d.val * 128 + a.val * 4096 + b.val * 131072 + o.code * 8388608 + s.code * 33554432) :
    w % 128 = 16 ∧ decodeRaw w = some (.casQ d a b o s) := by
  obtain ⟨h7, e0, e1, e2, e3, e4, e5, e6⟩ := shape18 16 _ _ _ 0 _ _ 21 w (by decide) d.isLt a.isLt b.isLt (by decide) (order_bound o) (scope_bound s) (by decide)
    (by omega)
  have k0 := other_bits w 28 4 0 27 5 21 28 4 e6 (by decide)
  have k1 := other_bits w 28 4 1 27 5 21 28 4 e6 (by decide)
  have k2 := other_bits w 28 4 2 27 5 21 28 4 e6 (by decide)
  have k3 := other_bits w 28 4 3 27 5 21 28 4 e6 (by decide)
  have k4 := other_bits w 28 4 4 27 5 21 28 4 e6 (by decide)
  have k5 := other_bits w 28 4 5 27 5 21 28 4 e6 (by decide)
  have k6 := other_bits w 28 4 6 27 5 21 28 4 e6 (by decide)
  have k7 := other_bits w 28 4 7 27 5 21 28 4 e6 (by decide)
  have k8 := other_bits w 28 4 8 27 5 21 28 4 e6 (by decide)
  have k9 := other_bits w 28 4 9 27 5 21 28 4 e6 (by decide)
  refine ⟨h7, ?_⟩
  rw [major10 w h7, decodeMajor10]
  simp only [e0, e1, e2, e3, e4, e5, e6, k0, k1, k2, k3, k4, k5, k6, k7, k8, k9, fin_ofNat, beq_toNat, scope_ofCode, order_ofCode, tag_ofCode, Nat.reduceEqDiff, ↓reduceIte, OfNat.ofNat_ne_zero, and_true, and_false, and_self, false_and, true_and, Option.map_some]
  try rfl

theorem ldAcq (d : XReg) (a : XReg) (s : Scope) (z : Bool) (w : Nat) (hw : w = 2961178640 + d.val * 128 + a.val * 4096 + s.code * 33554432 + z.toNat * 134217728) :
    w % 128 = 16 ∧ decodeRaw w = some (.ldAcq d a s z) := by
  obtain ⟨h7, e0, e1, e2, e3, e4, e5⟩ := shape19 16 _ _ 64 _ _ 11 w (by decide) d.isLt a.isLt (by decide) (scope_bound s) (toNat_bound z) (by decide)
    (by omega)
  have k0 := other_bits w 27 5 21 28 4 11 28 4 e5 (by decide)
  refine ⟨h7, ?_⟩
  rw [major10 w h7, decodeMajor10]
  simp only [e0, e1, e2, e3, e4, e5, k0, fin_ofNat, beq_toNat, scope_ofCode, order_ofCode, tag_ofCode, Nat.reduceEqDiff, ↓reduceIte, OfNat.ofNat_ne_zero, and_true, and_false, and_self, false_and, true_and, Option.map_some]
  try rfl

theorem stRel (a : XReg) (b : XReg) (s : Scope) (z : Bool) (w : Nat) (hw : w = 3238002704 + a.val * 4096 + b.val * 131072 + s.code * 33554432 + z.toNat * 134217728) :
    w % 128 = 16 ∧ decodeRaw w = some (.stRel a b s z) := by
  obtain ⟨h7, e0, e1, e2, e3, e4, e5, e6⟩ := shape20 16 0 _ _ 4 _ _ 12 w (by decide) (by decide) a.isLt b.isLt (by decide) (scope_bound s) (toNat_bound z) (by decide)
    (by omega)
  have k0 := other_bits w 27 5 21 28 4 12 28 4 e6 (by decide)
  refine ⟨h7, ?_⟩
  rw [major10 w h7, decodeMajor10]
  simp only [e0, e1, e2, e3, e4, e5, e6, k0, fin_ofNat, beq_toNat, scope_ofCode, order_ofCode, tag_ofCode, Nat.reduceEqDiff, ↓reduceIte, OfNat.ofNat_ne_zero, and_true, and_false, and_self, false_and, true_and, Option.map_some]
  try rfl

theorem fence (sLd : Bool) (sSt : Bool) (sEng : Bool) (sRem : Bool) (s : Scope) (w : Nat) (hw : w = 17 + sLd.toNat * 1048576 + sSt.toNat * 2097152 + sEng.toNat * 4194304 + sRem.toNat * 8388608 + s.code * 16777216) :
    w % 128 = 17 ∧ decodeRaw w = some (.fence sLd sSt sEng sRem s) := by
  obtain ⟨h7, e0, e1, e2, e3, e4, e5, e6⟩ := shape21 17 0 _ _ _ _ _ 0 w (by decide) (by decide) (toNat_bound sLd) (toNat_bound sSt) (toNat_bound sEng) (toNat_bound sRem) (scope_bound s) (by decide)
    (by rw [hw]; simp only [zero_tile])
  refine ⟨h7, ?_⟩
  rw [major11 w h7, decodeMajor11]
  simp only [e0, e1, e2, e3, e4, e5, e6, fin_ofNat, beq_toNat, scope_ofCode, order_ofCode, tag_ofCode, Nat.reduceEqDiff, ↓reduceIte, OfNat.ofNat_ne_zero, and_true, and_false, and_self, false_and, true_and, Option.map_some]
  try rfl

theorem ifence (w : Nat) (hw : w = 131089) :
    w % 128 = 17 ∧ decodeRaw w = some (.ifence) := by
  obtain ⟨h7, e0⟩ := shape12 17 1024 w (by decide) (by decide)
    (by omega)
  have k0 := other_bits w 7 13 0 7 25 1024 7 13 e0 (by decide)
  refine ⟨h7, ?_⟩
  rw [major11 w h7, decodeMajor11]
  simp only [e0, k0, fin_ofNat, beq_toNat, scope_ofCode, order_ofCode, tag_ofCode, Nat.reduceEqDiff, ↓reduceIte, OfNat.ofNat_ne_zero, and_true, and_false, and_self, false_and, true_and, Option.map_some]
  try rfl

theorem waitge (d : XReg) (a : XReg) (b : XReg) (s : Scope) (z : Bool) (w : Nat) (hw : w = 18 + d.val * 128 + a.val * 4096 + b.val * 131072 + s.code * 33554432 + z.toNat * 134217728) :
    w % 128 = 18 ∧ decodeRaw w = some (.waitge d a b s z) := by
  obtain ⟨h7, e0, e1, e2, e3, e4, e5, e6⟩ := shape20 18 _ _ _ 0 _ _ 0 w (by decide) d.isLt a.isLt b.isLt (by decide) (scope_bound s) (toNat_bound z) (by decide)
    (by rw [hw]; simp only [zero_tile])
  refine ⟨h7, ?_⟩
  rw [major12 w h7, decodeMajor12]
  simp only [e0, e1, e2, e3, e4, e5, e6, fin_ofNat, beq_toNat, scope_ofCode, order_ofCode, tag_ofCode, Nat.reduceEqDiff, ↓reduceIte, OfNat.ofNat_ne_zero, and_true, and_false, and_self, false_and, true_and, Option.map_some]
  try rfl

theorem waiteq (d : XReg) (a : XReg) (b : XReg) (s : Scope) (z : Bool) (w : Nat) (hw : w = 268435474 + d.val * 128 + a.val * 4096 + b.val * 131072 + s.code * 33554432 + z.toNat * 134217728) :
    w % 128 = 18 ∧ decodeRaw w = some (.waiteq d a b s z) := by
  obtain ⟨h7, e0, e1, e2, e3, e4, e5, e6⟩ := shape20 18 _ _ _ 0 _ _ 1 w (by decide) d.isLt a.isLt b.isLt (by decide) (scope_bound s) (toNat_bound z) (by decide)
    (by omega)
  refine ⟨h7, ?_⟩
  rw [major12 w h7, decodeMajor12]
  simp only [e0, e1, e2, e3, e4, e5, e6, fin_ofNat, beq_toNat, scope_ofCode, order_ofCode, tag_ofCode, Nat.reduceEqDiff, ↓reduceIte, OfNat.ofNat_ne_zero, and_true, and_false, and_self, false_and, true_and, Option.map_some]
  try rfl

theorem barInit (d : XReg) (a : XReg) (b : XReg) (w : Nat) (hw : w = 19 + d.val * 128 + a.val * 4096 + b.val * 131072) :
    w % 128 = 19 ∧ decodeRaw w = some (.barInit d a b) := by
  obtain ⟨h7, e0, e1, e2, e3⟩ := shape1 19 _ _ _ 0 w (by decide) d.isLt a.isLt b.isLt (by decide)
    (by rw [hw]; simp only [zero_tile])
  refine ⟨h7, ?_⟩
  rw [major13 w h7, decodeMajor13]
  simp only [e0, e1, e2, e3, fin_ofNat, beq_toNat, scope_ofCode, order_ofCode, tag_ofCode, Nat.reduceEqDiff, ↓reduceIte, OfNat.ofNat_ne_zero, and_true, and_false, and_self, false_and, true_and, Option.map_some]
  try rfl

theorem barArrive (d : XReg) (a : XReg) (s : Scope) (w : Nat) (hw : w = 268435475 + d.val * 128 + a.val * 4096 + s.code * 33554432) :
    w % 128 = 19 ∧ decodeRaw w = some (.barArrive d a s) := by
  obtain ⟨h7, e0, e1, e2, e3, e4⟩ := shape22 19 _ _ 0 _ 2 w (by decide) d.isLt a.isLt (by decide) (scope_bound s) (by decide)
    (by omega)
  have k0 := other_bits w 22 10 0 27 5 2 27 5 e4 (by decide)
  refine ⟨h7, ?_⟩
  rw [major13 w h7, decodeMajor13]
  simp only [e0, e1, e2, e3, e4, k0, fin_ofNat, beq_toNat, scope_ofCode, order_ofCode, tag_ofCode, Nat.reduceEqDiff, ↓reduceIte, OfNat.ofNat_ne_zero, and_true, and_false, and_self, false_and, true_and, Option.map_some]
  try rfl

theorem barWait (a : XReg) (b : XReg) (s : Scope) (w : Nat) (hw : w = 536870931 + a.val * 4096 + b.val * 131072 + s.code * 33554432) :
    w % 128 = 19 ∧ decodeRaw w = some (.barWait a b s) := by
  obtain ⟨h7, e0, e1, e2, e3, e4, e5⟩ := shape23 19 0 _ _ 0 _ 4 w (by decide) (by decide) a.isLt b.isLt (by decide) (scope_bound s) (by decide)
    (by omega)
  have k0 := other_bits w 22 10 0 27 5 4 27 5 e5 (by decide)
  refine ⟨h7, ?_⟩
  rw [major13 w h7, decodeMajor13]
  simp only [e0, e1, e2, e3, e4, e5, k0, fin_ofNat, beq_toNat, scope_ofCode, order_ofCode, tag_ofCode, Nat.reduceEqDiff, ↓reduceIte, OfNat.ofNat_ne_zero, and_true, and_false, and_self, false_and, true_and, Option.map_some]
  try rfl

theorem barFin (a : XReg) (w : Nat) (hw : w = 805306387 + a.val * 4096) :
    w % 128 = 19 ∧ decodeRaw w = some (.barFin a) := by
  obtain ⟨h7, e0, e1, e2⟩ := shape13 19 0 _ 6144 w (by decide) (by decide) a.isLt (by decide)
    (by omega)
  have k0 := other_bits w 22 10 0 17 15 6144 22 10 e2 (by decide)
  have k1 := other_bits w 27 5 2 17 15 6144 27 5 e2 (by decide)
  have k2 := other_bits w 27 5 4 17 15 6144 27 5 e2 (by decide)
  refine ⟨h7, ?_⟩
  rw [major13 w h7, decodeMajor13]
  simp only [e0, e1, e2, k0, k1, k2, fin_ofNat, beq_toNat, scope_ofCode, order_ofCode, tag_ofCode, Nat.reduceEqDiff, ↓reduceIte, OfNat.ofNat_ne_zero, and_true, and_false, and_self, false_and, true_and, Option.map_some]
  try rfl

theorem farmDef (s : XReg) (a : XReg) (w : Nat) (hw : w = 20 + s.val * 128 + a.val * 4096) :
    w % 128 = 20 ∧ decodeRaw w = some (.farmDef s a) := by
  obtain ⟨h7, e0, e1, e2⟩ := shape13 20 _ _ 0 w (by decide) s.isLt a.isLt (by decide)
    (by rw [hw]; simp only [zero_tile])
  refine ⟨h7, ?_⟩
  rw [major14 w h7, decodeMajor14]
  simp only [e0, e1, e2, fin_ofNat, beq_toNat, scope_ofCode, order_ofCode, tag_ofCode, Nat.reduceEqDiff, ↓reduceIte, OfNat.ofNat_ne_zero, and_true, and_false, and_self, false_and, true_and, Option.map_some]
  try rfl

theorem farmNext (d : XReg) (n : CBit) (w : Nat) (hw : w = 4194324 + d.val * 128 + n.val * 4096) :
    w % 128 = 20 ∧ decodeRaw w = some (.farmNext d n) := by
  obtain ⟨h7, e0, e1, e2⟩ := shape24 20 _ _ 128 w (by decide) d.isLt n.isLt (by decide)
    (by omega)
  have k0 := other_bits w 17 15 0 15 17 128 17 15 e2 (by decide)
  refine ⟨h7, ?_⟩
  rw [major14 w h7, decodeMajor14]
  simp only [e0, e1, e2, k0, fin_ofNat, beq_toNat, scope_ofCode, order_ofCode, tag_ofCode, Nat.reduceEqDiff, ↓reduceIte, OfNat.ofNat_ne_zero, and_true, and_false, and_self, false_and, true_and, Option.map_some]
  try rfl

theorem farmEnd (w : Nat) (hw : w = 8388628) :
    w % 128 = 20 ∧ decodeRaw w = some (.farmEnd) := by
  obtain ⟨h7, e0⟩ := shape12 20 65536 w (by decide) (by decide)
    (by omega)
  have k0 := other_bits w 17 15 0 7 25 65536 17 15 e0 (by decide)
  have k1 := other_bits w 15 17 128 7 25 65536 15 17 e0 (by decide)
  refine ⟨h7, ?_⟩
  rw [major14 w h7, decodeMajor14]
  simp only [e0, k0, k1, fin_ofNat, beq_toNat, scope_ofCode, order_ofCode, tag_ofCode, Nat.reduceEqDiff, ↓reduceIte, OfNat.ofNat_ne_zero, and_true, and_false, and_self, false_and, true_and, Option.map_some]
  try rfl

theorem scommit (w : Nat) (hw : w = 12582932) :
    w % 128 = 20 ∧ decodeRaw w = some (.scommit) := by
  obtain ⟨h7, e0⟩ := shape12 20 98304 w (by decide) (by decide)
    (by omega)
  have k0 := other_bits w 17 15 0 7 25 98304 17 15 e0 (by decide)
  have k1 := other_bits w 15 17 128 7 25 98304 15 17 e0 (by decide)
  refine ⟨h7, ?_⟩
  rw [major14 w h7, decodeMajor14]
  simp only [e0, k0, k1, fin_ofNat, beq_toNat, scope_ofCode, order_ofCode, tag_ofCode, Nat.reduceEqDiff, ↓reduceIte, OfNat.ofNat_ne_zero, and_true, and_false, and_self, false_and, true_and, Option.map_some]
  try rfl

theorem sabort (w : Nat) (hw : w = 16777236) :
    w % 128 = 20 ∧ decodeRaw w = some (.sabort) := by
  obtain ⟨h7, e0⟩ := shape12 20 131072 w (by decide) (by decide)
    (by omega)
  have k0 := other_bits w 17 15 0 7 25 131072 17 15 e0 (by decide)
  have k1 := other_bits w 15 17 128 7 25 131072 15 17 e0 (by decide)
  refine ⟨h7, ?_⟩
  rw [major14 w h7, decodeMajor14]
  simp only [e0, k0, k1, fin_ofNat, beq_toNat, scope_ofCode, order_ofCode, tag_ofCode, Nat.reduceEqDiff, ↓reduceIte, OfNat.ofNat_ne_zero, and_true, and_false, and_self, false_and, true_and, Option.map_some]
  try rfl

theorem sbegin (o : Int) (w : Nat) (hw : w = 131092 + immField 12 o * 1048576) :
    w % 128 = 20 ∧ decodeRaw w = some (.sbegin (sx 12 (immField 12 o))) := by
  obtain ⟨h7, e0, e1⟩ := shape11 20 1024 _ w (by decide) (by decide) (immField_bound 12 o)
    (by omega)
  have k0 := other_bits w 17 15 0 7 13 1024 17 3 e0 (by decide)
  have k1 := other_bits w 15 17 128 7 13 1024 15 5 e0 (by decide)
  have k2 := other_bits w 7 25 65536 7 13 1024 7 13 e0 (by decide)
  have k3 := other_bits w 7 25 98304 7 13 1024 7 13 e0 (by decide)
  have k4 := other_bits w 7 25 131072 7 13 1024 7 13 e0 (by decide)
  refine ⟨h7, ?_⟩
  rw [major14 w h7, decodeMajor14]
  simp only [e0, e1, k0, k1, k2, k3, k4, fin_ofNat, beq_toNat, scope_ofCode, order_ofCode, tag_ofCode, Nat.reduceEqDiff, ↓reduceIte, OfNat.ofNat_ne_zero, and_true, and_false, and_self, false_and, true_and, Option.map_some]
  try rfl

theorem launch (d : XReg) (a : XReg) (b : XReg) (w : Nat) (hw : w = 21 + d.val * 128 + a.val * 4096 + b.val * 131072) :
    w % 128 = 21 ∧ decodeRaw w = some (.launch d a b) := by
  obtain ⟨h7, e0, e1, e2, e3⟩ := shape1 21 _ _ _ 0 w (by decide) d.isLt a.isLt b.isLt (by decide)
    (by rw [hw]; simp only [zero_tile])
  refine ⟨h7, ?_⟩
  rw [major15 w h7, decodeMajor15]
  simp only [e0, e1, e2, e3, fin_ofNat, beq_toNat, scope_ofCode, order_ofCode, tag_ofCode, Nat.reduceEqDiff, ↓reduceIte, OfNat.ofNat_ne_zero, and_true, and_false, and_self, false_and, true_and, Option.map_some]
  try rfl

theorem setvl (d : XReg) (a : XReg) (t : Tag) (g : Fin 4) (w : Nat) (hw : w = 32 + d.val * 128 + a.val * 4096 + t.code * 1048576 + g.val * 268435456) :
    w % 128 = 32 ∧ decodeRaw w = some (.setvl d a t g) := by
  obtain ⟨h7, e0, e1, e2, e3, e4, e5, e6⟩ := shape25 32 _ _ 0 _ 0 _ 0 w (by decide) d.isLt a.isLt (by decide) (tag_bound t) (by decide) g.isLt (by decide)
    (by rw [hw]; simp only [zero_tile])
  refine ⟨h7, ?_⟩
  rw [major20 w h7, decodeMajor20]
  simp only [e0, e1, e2, e3, e4, e5, e6, fin_ofNat, beq_toNat, scope_ofCode, order_ofCode, tag_ofCode, Nat.reduceEqDiff, ↓reduceIte, OfNat.ofNat_ne_zero, and_true, and_false, and_self, false_and, true_and, Option.map_some]
  try rfl

theorem setvlH (d : XReg) (a : XReg) (t : Tag) (g : Fin 4) (w : Nat) (hw : w = 131104 + d.val * 128 + a.val * 4096 + t.code * 1048576 + g.val * 268435456) :
    w % 128 = 32 ∧ decodeRaw w = some (.setvlH d a t g) := by
  obtain ⟨h7, e0, e1, e2, e3, e4, e5, e6⟩ := shape25 32 _ _ 1 _ 0 _ 0 w (by decide) d.isLt a.isLt (by decide) (tag_bound t) (by decide) g.isLt (by decide)
    (by omega)
  refine ⟨h7, ?_⟩
  rw [major20 w h7, decodeMajor20]
  simp only [e0, e1, e2, e3, e4, e5, e6, fin_ofNat, beq_toNat, scope_ofCode, order_ofCode, tag_ofCode, Nat.reduceEqDiff, ↓reduceIte, OfNat.ofNat_ne_zero, and_true, and_false, and_self, false_and, true_and, Option.map_some]
  try rfl

theorem vld (d : VNum) (a : XReg) (o : Bool) (m : MNum) (hint : Hint) (w : Nat) (hw : w = 33 + d.val * 128 + a.val * 4096 + o.toNat * 8388608 + m.val * 16777216) :
    w % 128 = 33 ∧ decodeRaw w = some (.vld d a o m .none) := by
  obtain ⟨h7, e0, e1, e2, e3, e4, e5⟩ := shape26 33 _ _ 0 _ _ 0 w (by decide) d.isLt a.isLt (by decide) (toNat_bound o) m.isLt (by decide)
    (by rw [hw]; simp only [zero_tile])
  refine ⟨h7, ?_⟩
  rw [major21 w h7, decodeMajor21]
  simp only [e0, e1, e2, e3, e4, e5, fin_ofNat, beq_toNat, scope_ofCode, order_ofCode, tag_ofCode, Nat.reduceEqDiff, ↓reduceIte, OfNat.ofNat_ne_zero, and_true, and_false, and_self, false_and, true_and, Option.map_some]
  try rfl

theorem vldff (d : VNum) (a : XReg) (m : MNum) (hint : Hint) (w : Nat) (hw : w = 142606369 + d.val * 128 + a.val * 4096 + m.val * 16777216) :
    w % 128 = 33 ∧ decodeRaw w = some (.vldff d a m .none) := by
  obtain ⟨h7, e0, e1, e2, e3, e4⟩ := shape27 33 _ _ 64 _ 1 w (by decide) d.isLt a.isLt (by decide) m.isLt (by decide)
    (by omega)
  refine ⟨h7, ?_⟩
  rw [major21 w h7, decodeMajor21]
  simp only [e0, e1, e2, e3, e4, fin_ofNat, beq_toNat, scope_ofCode, order_ofCode, tag_ofCode, Nat.reduceEqDiff, ↓reduceIte, OfNat.ofNat_ne_zero, and_true, and_false, and_self, false_and, true_and, Option.map_some]
  try rfl

theorem vlds (d : VNum) (a : XReg) (s : XReg) (o : Bool) (m : MNum) (hint : Hint) (w : Nat) (hw : w = 268435489 + d.val * 128 + a.val * 4096 + s.val * 131072 + o.toNat * 8388608 + m.val * 16777216) :
    w % 128 = 33 ∧ decodeRaw w = some (.vlds d a s o m .none) := by
  obtain ⟨h7, e0, e1, e2, e3, e4, e5, e6⟩ := shape28 33 _ _ _ 0 _ _ 2 w (by decide) d.isLt a.isLt s.isLt (by decide) (toNat_bound o) m.isLt (by decide)
    (by omega)
  refine ⟨h7, ?_⟩
  rw [major21 w h7, decodeMajor21]
  simp only [e0, e1, e2, e3, e4, e5, e6, fin_ofNat, beq_toNat, scope_ofCode, order_ofCode, tag_ofCode, Nat.reduceEqDiff, ↓reduceIte, OfNat.ofNat_ne_zero, and_true, and_false, and_self, false_and, true_and, Option.map_some]
  try rfl

theorem vst (v : VNum) (a : XReg) (o : Bool) (m : MNum) (w : Nat) (hw : w = 1073741857 + v.val * 128 + a.val * 4096 + o.toNat * 8388608 + m.val * 16777216) :
    w % 128 = 33 ∧ decodeRaw w = some (.vst v a o m) := by
  obtain ⟨h7, e0, e1, e2, e3, e4, e5⟩ := shape26 33 _ _ 0 _ _ 8 w (by decide) v.isLt a.isLt (by decide) (toNat_bound o) m.isLt (by decide)
    (by omega)
  refine ⟨h7, ?_⟩
  rw [major21 w h7, decodeMajor21]
  simp only [e0, e1, e2, e3, e4, e5, fin_ofNat, beq_toNat, scope_ofCode, order_ofCode, tag_ofCode, Nat.reduceEqDiff, ↓reduceIte, OfNat.ofNat_ne_zero, and_true, and_false, and_self, false_and, true_and, Option.map_some]
  try rfl

theorem vsts (v : VNum) (a : XReg) (s : XReg) (o : Bool) (m : MNum) (w : Nat) (hw : w = 1342177313 + v.val * 128 + a.val * 4096 + s.val * 131072 + o.toNat * 8388608 + m.val * 16777216) :
    w % 128 = 33 ∧ decodeRaw w = some (.vsts v a s o m) := by
  obtain ⟨h7, e0, e1, e2, e3, e4, e5, e6⟩ := shape28 33 _ _ _ 0 _ _ 10 w (by decide) v.isLt a.isLt s.isLt (by decide) (toNat_bound o) m.isLt (by decide)
    (by omega)
  refine ⟨h7, ?_⟩
  rw [major21 w h7, decodeMajor21]
  simp only [e0, e1, e2, e3, e4, e5, e6, fin_ofNat, beq_toNat, scope_ofCode, order_ofCode, tag_ofCode, Nat.reduceEqDiff, ↓reduceIte, OfNat.ofNat_ne_zero, and_true, and_false, and_self, false_and, true_and, Option.map_some]
  try rfl

theorem vldx (d : VNum) (a : XReg) (i : VNum) (c : Bool) (o : Bool) (m : MNum) (hint : Hint) (w : Nat) (hw : w = 34 + d.val * 128 + a.val * 4096 + i.val * 131072 + c.toNat * 4194304 + o.toNat * 8388608 + m.val * 16777216) :
    w % 128 = 34 ∧ decodeRaw w = some (.vldx d a i c o m .none) := by
  obtain ⟨h7, e0, e1, e2, e3, e4, e5, e6⟩ := shape28 34 _ _ _ _ _ _ 0 w (by decide) d.isLt a.isLt i.isLt (toNat_bound c) (toNat_bound o) m.isLt (by decide)
    (by rw [hw]; simp only [zero_tile])
  refine ⟨h7, ?_⟩
  rw [major22 w h7, decodeMajor22]
  simp only [e0, e1, e2, e3, e4, e5, e6, fin_ofNat, beq_toNat, scope_ofCode, order_ofCode, tag_ofCode, Nat.reduceEqDiff, ↓reduceIte, OfNat.ofNat_ne_zero, and_true, and_false, and_self, false_and, true_and, Option.map_some]
  try rfl

theorem vldxFar (d : VNum) (a : XReg) (i : VNum) (c : Bool) (o : Bool) (m : MNum) (hint : Hint) (w : Nat) (hw : w = 134217762 + d.val * 128 + a.val * 4096 + i.val * 131072 + c.toNat * 4194304 + o.toNat * 8388608 + m.val * 16777216) :
    w % 128 = 34 ∧ decodeRaw w = some (.vldxFar d a i c o m .none) := by
  obtain ⟨h7, e0, e1, e2, e3, e4, e5, e6⟩ := shape28 34 _ _ _ _ _ _ 1 w (by decide) d.isLt a.isLt i.isLt (toNat_bound c) (toNat_bound o) m.isLt (by decide)
    (by omega)
  refine ⟨h7, ?_⟩
  rw [major22 w h7, decodeMajor22]
  simp only [e0, e1, e2, e3, e4, e5, e6, fin_ofNat, beq_toNat, scope_ofCode, order_ofCode, tag_ofCode, Nat.reduceEqDiff, ↓reduceIte, OfNat.ofNat_ne_zero, and_true, and_false, and_self, false_and, true_and, Option.map_some]
  try rfl

theorem vstx (v : VNum) (a : XReg) (i : VNum) (c : Bool) (o : Bool) (m : MNum) (w : Nat) (hw : w = 1073741858 + v.val * 128 + a.val * 4096 + i.val * 131072 + c.toNat * 4194304 + o.toNat * 8388608 + m.val * 16777216) :
    w % 128 = 34 ∧ decodeRaw w = some (.vstx v a i c o m) := by
  obtain ⟨h7, e0, e1, e2, e3, e4, e5, e6⟩ := shape28 34 _ _ _ _ _ _ 8 w (by decide) v.isLt a.isLt i.isLt (toNat_bound c) (toNat_bound o) m.isLt (by decide)
    (by omega)
  refine ⟨h7, ?_⟩
  rw [major22 w h7, decodeMajor22]
  simp only [e0, e1, e2, e3, e4, e5, e6, fin_ofNat, beq_toNat, scope_ofCode, order_ofCode, tag_ofCode, Nat.reduceEqDiff, ↓reduceIte, OfNat.ofNat_ne_zero, and_true, and_false, and_self, false_and, true_and, Option.map_some]
  try rfl

theorem vstxFar (v : VNum) (a : XReg) (i : VNum) (c : Bool) (o : Bool) (m : MNum) (w : Nat) (hw : w = 1207959586 + v.val * 128 + a.val * 4096 + i.val * 131072 + c.toNat * 4194304 + o.toNat * 8388608 + m.val * 16777216) :
    w % 128 = 34 ∧ decodeRaw w = some (.vstxFar v a i c o m) := by
  obtain ⟨h7, e0, e1, e2, e3, e4, e5, e6⟩ := shape28 34 _ _ _ _ _ _ 9 w (by decide) v.isLt a.isLt i.isLt (toNat_bound c) (toNat_bound o) m.isLt (by decide)
    (by omega)
  refine ⟨h7, ?_⟩
  rw [major22 w h7, decodeMajor22]
  simp only [e0, e1, e2, e3, e4, e5, e6, fin_ofNat, beq_toNat, scope_ofCode, order_ofCode, tag_ofCode, Nat.reduceEqDiff, ↓reduceIte, OfNat.ofNat_ne_zero, and_true, and_false, and_self, false_and, true_and, Option.map_some]
  try rfl

theorem vldseg (d : VNum) (a : XReg) (o : Bool) (m : MNum) (n : Fin 8) (hint : Hint) (w : Nat) (hw : w = 35 + d.val * 128 + a.val * 4096 + o.toNat * 8388608 + m.val * 16777216 + n.val * 134217728) :
    w % 128 = 35 ∧ decodeRaw w = some (.vldseg d a o m n .none) := by
  obtain ⟨h7, e0, e1, e2, e3, e4, e5, e6⟩ := shape29 35 _ _ 0 _ _ _ 0 w (by decide) d.isLt a.isLt (by decide) (toNat_bound o) m.isLt n.isLt (by decide)
    (by rw [hw]; simp only [zero_tile])
  refine ⟨h7, ?_⟩
  rw [major23 w h7, decodeMajor23]
  simp only [e0, e1, e2, e3, e4, e5, e6, fin_ofNat, beq_toNat, scope_ofCode, order_ofCode, tag_ofCode, Nat.reduceEqDiff, ↓reduceIte, OfNat.ofNat_ne_zero, and_true, and_false, and_self, false_and, true_and, Option.map_some]
  try rfl

theorem vstseg (v : VNum) (a : XReg) (o : Bool) (m : MNum) (n : Fin 8) (w : Nat) (hw : w = 1073741859 + v.val * 128 + a.val * 4096 + o.toNat * 8388608 + m.val * 16777216 + n.val * 134217728) :
    w % 128 = 35 ∧ decodeRaw w = some (.vstseg v a o m n) := by
  obtain ⟨h7, e0, e1, e2, e3, e4, e5, e6⟩ := shape29 35 _ _ 0 _ _ _ 1 w (by decide) v.isLt a.isLt (by decide) (toNat_bound o) m.isLt n.isLt (by decide)
    (by omega)
  refine ⟨h7, ?_⟩
  rw [major23 w h7, decodeMajor23]
  simp only [e0, e1, e2, e3, e4, e5, e6, fin_ofNat, beq_toNat, scope_ofCode, order_ofCode, tag_ofCode, Nat.reduceEqDiff, ↓reduceIte, OfNat.ofNat_ne_zero, and_true, and_false, and_self, false_and, true_and, Option.map_some]
  try rfl

theorem vldsegP (d : VNum) (a : XReg) (i : VNum) (c : Bool) (m : MNum) (n : Fin 8) (hint : Hint) (w : Nat) (hw : w = 2155872291 + d.val * 128 + a.val * 4096 + i.val * 131072 + c.toNat * 4194304 + m.val * 16777216 + n.val * 134217728) :
    w % 128 = 35 ∧ decodeRaw w = some (.vldsegP d a i c m n .none) := by
  obtain ⟨h7, e0, e1, e2, e3, e4, e5, e6, e7⟩ := shape30 35 _ _ _ _ 1 _ _ 2 w (by decide) d.isLt a.isLt i.isLt (toNat_bound c) (by decide) m.isLt n.isLt (by decide)
    (by omega)
  refine ⟨h7, ?_⟩
  rw [major23 w h7, decodeMajor23]
  simp only [e0, e1, e2, e3, e4, e5, e6, e7, fin_ofNat, beq_toNat, scope_ofCode, order_ofCode, tag_ofCode, Nat.reduceEqDiff, ↓reduceIte, OfNat.ofNat_ne_zero, and_true, and_false, and_self, false_and, true_and, Option.map_some]
  try rfl

theorem vstsegP (v : VNum) (a : XReg) (i : VNum) (c : Bool) (o : Bool) (m : MNum) (n : Fin 8) (w : Nat) (hw : w = 3221225507 + v.val * 128 + a.val * 4096 + i.val * 131072 + c.toNat * 4194304 + o.toNat * 8388608 + m.val * 16777216 + n.val * 134217728) :
    w % 128 = 35 ∧ decodeRaw w = some (.vstsegP v a i c o m n) := by
  obtain ⟨h7, e0, e1, e2, e3, e4, e5, e6, e7⟩ := shape30 35 _ _ _ _ _ _ _ 3 w (by decide) v.isLt a.isLt i.isLt (toNat_bound c) (toNat_bound o) m.isLt n.isLt (by decide)
    (by omega)
  refine ⟨h7, ?_⟩
  rw [major23 w h7, decodeMajor23]
  simp only [e0, e1, e2, e3, e4, e5, e6, e7, fin_ofNat, beq_toNat, scope_ofCode, order_ofCode, tag_ofCode, Nat.reduceEqDiff, ↓reduceIte, OfNat.ofNat_ne_zero, and_true, and_false, and_self, false_and, true_and, Option.map_some]
  try rfl

theorem vld2 (d : VNum) (a : XReg) (o : Bool) (m : MNum) (hint : Hint) (w : Nat) (hw : w = 36 + d.val * 128 + a.val * 4096 + o.toNat * 8388608 + m.val * 16777216) :
    w % 128 = 36 ∧ decodeRaw w = some (.vld2 d a o m .none) := by
  obtain ⟨h7, e0, e1, e2, e3, e4, e5⟩ := shape26 36 _ _ 0 _ _ 0 w (by decide) d.isLt a.isLt (by decide) (toNat_bound o) m.isLt (by decide)
    (by rw [hw]; simp only [zero_tile])
  refine ⟨h7, ?_⟩
  rw [major24 w h7, decodeMajor24]
  simp only [e0, e1, e2, e3, e4, e5, fin_ofNat, beq_toNat, scope_ofCode, order_ofCode, tag_ofCode, Nat.reduceEqDiff, ↓reduceIte, OfNat.ofNat_ne_zero, and_true, and_false, and_self, false_and, true_and, Option.map_some]
  try rfl

theorem vst2 (v : VNum) (a : XReg) (o : Bool) (m : MNum) (w : Nat) (hw : w = 1073741860 + v.val * 128 + a.val * 4096 + o.toNat * 8388608 + m.val * 16777216) :
    w % 128 = 36 ∧ decodeRaw w = some (.vst2 v a o m) := by
  obtain ⟨h7, e0, e1, e2, e3, e4, e5⟩ := shape26 36 _ _ 0 _ _ 8 w (by decide) v.isLt a.isLt (by decide) (toNat_bound o) m.isLt (by decide)
    (by omega)
  refine ⟨h7, ?_⟩
  rw [major24 w h7, decodeMajor24]
  simp only [e0, e1, e2, e3, e4, e5, fin_ofNat, beq_toNat, scope_ofCode, order_ofCode, tag_ofCode, Nat.reduceEqDiff, ↓reduceIte, OfNat.ofNat_ne_zero, and_true, and_false, and_self, false_and, true_and, Option.map_some]
  try rfl

theorem vsbind (d : VNum) (a : XReg) (s : XReg) (n : SNum) (w : Nat) (hw : w = 8388645 + d.val * 128 + a.val * 4096 + s.val * 131072 + n.val * 134217728) :
    w % 128 = 37 ∧ decodeRaw w = some (.vsbind d a s n) := by
  obtain ⟨h7, e0, e1, e2, e3, e4, e5⟩ := shape31 37 _ _ _ 2 _ 0 w (by decide) d.isLt a.isLt s.isLt (by decide) n.isLt (by decide)
    (by omega)
  refine ⟨h7, ?_⟩
  rw [major25 w h7, decodeMajor25]
  simp only [e0, e1, e2, e3, e4, e5, fin_ofNat, beq_toNat, scope_ofCode, order_ofCode, tag_ofCode, Nat.reduceEqDiff, ↓reduceIte, OfNat.ofNat_ne_zero, and_true, and_false, and_self, false_and, true_and, Option.map_some]
  try rfl

theorem vsunbind (d : VNum) (w : Nat) (hw : w = 2155872293 + d.val * 128) :
    w % 128 = 37 ∧ decodeRaw w = some (.vsunbind d) := by
  obtain ⟨h7, e0, e1⟩ := shape5 37 _ 526336 w (by decide) d.isLt (by decide)
    (by omega)
  have k0 := other_bits w 30 2 0 12 20 526336 30 2 e1 (by decide)
  refine ⟨h7, ?_⟩
  rw [major25 w h7, decodeMajor25]
  simp only [e0, e1, k0, fin_ofNat, beq_toNat, scope_ofCode, order_ofCode, tag_ofCode, Nat.reduceEqDiff, ↓reduceIte, OfNat.ofNat_ne_zero, and_true, and_false, and_self, false_and, true_and, Option.map_some]
  try rfl

theorem vtag (d : VNum) (t : Tag) (w : Nat) (hw : w = 41 + d.val * 128 + t.code * 4096) :
    w % 128 = 41 ∧ decodeRaw w = some (.vtag d t) := by
  obtain ⟨h7, e0, e1, e2⟩ := shape13 41 _ _ 0 w (by decide) d.isLt (tag_bound t) (by decide)
    (by rw [hw]; simp only [zero_tile])
  refine ⟨h7, ?_⟩
  rw [major29 w h7, decodeMajor29]
  simp only [e0, e1, e2, fin_ofNat, beq_toNat, scope_ofCode, order_ofCode, tag_ofCode, Nat.reduceEqDiff, ↓reduceIte, OfNat.ofNat_ne_zero, and_true, and_false, and_self, false_and, true_and, Option.map_some]
  try rfl

theorem vtagr (d : VNum) (b : XReg) (w : Nat) (hw : w = 134217769 + d.val * 128 + b.val * 131072) :
    w % 128 = 41 ∧ decodeRaw w = some (.vtagr d b) := by
  obtain ⟨h7, e0, e1, e2, e3⟩ := shape1 41 _ 0 _ 32 w (by decide) d.isLt (by decide) b.isLt (by decide)
    (by omega)
  have k0 := other_bits w 17 15 0 22 10 32 22 10 e3 (by decide)
  refine ⟨h7, ?_⟩
  rw [major29 w h7, decodeMajor29]
  simp only [e0, e1, e2, e3, k0, fin_ofNat, beq_toNat, scope_ofCode, order_ofCode, tag_ofCode, Nat.reduceEqDiff, ↓reduceIte, OfNat.ofNat_ne_zero, and_true, and_false, and_self, false_and, true_and, Option.map_some]
  try rfl

theorem spdisc (a : XReg) (b : XReg) (w : Nat) (hw : w = 4160749609 + a.val * 4096 + b.val * 131072) :
    w % 128 = 41 ∧ decodeRaw w = some (.spdisc a b) := by
  obtain ⟨h7, e0, e1, e2, e3⟩ := shape1 41 0 _ _ 992 w (by decide) (by decide) a.isLt b.isLt (by decide)
    (by omega)
  have k0 := other_bits w 17 15 0 22 10 992 22 10 e3 (by decide)
  refine ⟨h7, ?_⟩
  rw [major29 w h7, decodeMajor29]
  simp only [e0, e1, e2, e3, k0, fin_ofNat, beq_toNat, scope_ofCode, order_ofCode, tag_ofCode, Nat.reduceEqDiff, ↓reduceIte, OfNat.ofNat_ne_zero, and_true, and_false, and_self, false_and, true_and, Option.map_some]
  try rfl

theorem spkeep (a : XReg) (b : XReg) (w : Nat) (hw : w = 4164943913 + a.val * 4096 + b.val * 131072) :
    w % 128 = 41 ∧ decodeRaw w = some (.spkeep a b) := by
  obtain ⟨h7, e0, e1, e2, e3⟩ := shape1 41 0 _ _ 993 w (by decide) (by decide) a.isLt b.isLt (by decide)
    (by omega)
  have k0 := other_bits w 17 15 0 22 10 993 22 10 e3 (by decide)
  refine ⟨h7, ?_⟩
  rw [major29 w h7, decodeMajor29]
  simp only [e0, e1, e2, e3, k0, fin_ofNat, beq_toNat, scope_ofCode, order_ofCode, tag_ofCode, Nat.reduceEqDiff, ↓reduceIte, OfNat.ofNat_ne_zero, and_true, and_false, and_self, false_and, true_and, Option.map_some]
  try rfl

theorem vadd (d : VNum) (a : VNum) (b : VNum) (q : Bool) (p : Bool) (m : MNum) (rm : Option Rounding) (sat : Bool) (w : Nat) (hw : w = 48 + d.val * 128 + a.val * 4096 + b.val * 131072 + q.toNat * 4194304 + p.toNat * 8388608 + m.val * 16777216) :
    w % 128 = 48 ∧ decodeRaw w = some (.vadd d a b q p m none false) := by
  obtain ⟨h7, e0, e1, e2, e3, e4, e5, e6⟩ := shape28 48 _ _ _ _ _ _ 0 w (by decide) d.isLt a.isLt b.isLt (toNat_bound q) (toNat_bound p) m.isLt (by decide)
    (by rw [hw]; simp only [zero_tile])
  refine ⟨h7, ?_⟩
  rw [major30 w h7, decodeMajor30]
  simp only [e0, e1, e2, e3, e4, e5, e6, fin_ofNat, beq_toNat, scope_ofCode, order_ofCode, tag_ofCode, Nat.reduceEqDiff, ↓reduceIte, OfNat.ofNat_ne_zero, and_true, and_false, and_self, false_and, true_and, Option.map_some]
  try rfl

theorem vsub (d : VNum) (a : VNum) (b : VNum) (q : Bool) (p : Bool) (m : MNum) (rm : Option Rounding) (sat : Bool) (w : Nat) (hw : w = 134217776 + d.val * 128 + a.val * 4096 + b.val * 131072 + q.toNat * 4194304 + p.toNat * 8388608 + m.val * 16777216) :
    w % 128 = 48 ∧ decodeRaw w = some (.vsub d a b q p m none false) := by
  obtain ⟨h7, e0, e1, e2, e3, e4, e5, e6⟩ := shape28 48 _ _ _ _ _ _ 1 w (by decide) d.isLt a.isLt b.isLt (toNat_bound q) (toNat_bound p) m.isLt (by decide)
    (by omega)
  refine ⟨h7, ?_⟩
  rw [major30 w h7, decodeMajor30]
  simp only [e0, e1, e2, e3, e4, e5, e6, fin_ofNat, beq_toNat, scope_ofCode, order_ofCode, tag_ofCode, Nat.reduceEqDiff, ↓reduceIte, OfNat.ofNat_ne_zero, and_true, and_false, and_self, false_and, true_and, Option.map_some]
  try rfl

theorem vmul (d : VNum) (a : VNum) (b : VNum) (q : Bool) (p : Bool) (m : MNum) (rm : Option Rounding) (sat : Bool) (w : Nat) (hw : w = 268435504 + d.val * 128 + a.val * 4096 + b.val * 131072 + q.toNat * 4194304 + p.toNat * 8388608 + m.val * 16777216) :
    w % 128 = 48 ∧ decodeRaw w = some (.vmul d a b q p m none false) := by
  obtain ⟨h7, e0, e1, e2, e3, e4, e5, e6⟩ := shape28 48 _ _ _ _ _ _ 2 w (by decide) d.isLt a.isLt b.isLt (toNat_bound q) (toNat_bound p) m.isLt (by decide)
    (by omega)
  refine ⟨h7, ?_⟩
  rw [major30 w h7, decodeMajor30]
  simp only [e0, e1, e2, e3, e4, e5, e6, fin_ofNat, beq_toNat, scope_ofCode, order_ofCode, tag_ofCode, Nat.reduceEqDiff, ↓reduceIte, OfNat.ofNat_ne_zero, and_true, and_false, and_self, false_and, true_and, Option.map_some]
  try rfl

theorem vdiv (d : VNum) (a : VNum) (b : VNum) (q : Bool) (p : Bool) (m : MNum) (rm : Option Rounding) (w : Nat) (hw : w = 402653232 + d.val * 128 + a.val * 4096 + b.val * 131072 + q.toNat * 4194304 + p.toNat * 8388608 + m.val * 16777216) :
    w % 128 = 48 ∧ decodeRaw w = some (.vdiv d a b q p m none) := by
  obtain ⟨h7, e0, e1, e2, e3, e4, e5, e6⟩ := shape28 48 _ _ _ _ _ _ 3 w (by decide) d.isLt a.isLt b.isLt (toNat_bound q) (toNat_bound p) m.isLt (by decide)
    (by omega)
  refine ⟨h7, ?_⟩
  rw [major30 w h7, decodeMajor30]
  simp only [e0, e1, e2, e3, e4, e5, e6, fin_ofNat, beq_toNat, scope_ofCode, order_ofCode, tag_ofCode, Nat.reduceEqDiff, ↓reduceIte, OfNat.ofNat_ne_zero, and_true, and_false, and_self, false_and, true_and, Option.map_some]
  try rfl

theorem vrem (d : VNum) (a : VNum) (b : VNum) (q : Bool) (p : Bool) (m : MNum) (rm : Option Rounding) (w : Nat) (hw : w = 536870960 + d.val * 128 + a.val * 4096 + b.val * 131072 + q.toNat * 4194304 + p.toNat * 8388608 + m.val * 16777216) :
    w % 128 = 48 ∧ decodeRaw w = some (.vrem d a b q p m none) := by
  obtain ⟨h7, e0, e1, e2, e3, e4, e5, e6⟩ := shape28 48 _ _ _ _ _ _ 4 w (by decide) d.isLt a.isLt b.isLt (toNat_bound q) (toNat_bound p) m.isLt (by decide)
    (by omega)
  refine ⟨h7, ?_⟩
  rw [major30 w h7, decodeMajor30]
  simp only [e0, e1, e2, e3, e4, e5, e6, fin_ofNat, beq_toNat, scope_ofCode, order_ofCode, tag_ofCode, Nat.reduceEqDiff, ↓reduceIte, OfNat.ofNat_ne_zero, and_true, and_false, and_self, false_and, true_and, Option.map_some]
  try rfl

theorem vmin (d : VNum) (a : VNum) (b : VNum) (q : Bool) (p : Bool) (m : MNum) (rm : Option Rounding) (w : Nat) (hw : w = 671088688 + d.val * 128 + a.val * 4096 + b.val * 131072 + q.toNat * 4194304 + p.toNat * 8388608 + m.val * 16777216) :
    w % 128 = 48 ∧ decodeRaw w = some (.vmin d a b q p m none) := by
  obtain ⟨h7, e0, e1, e2, e3, e4, e5, e6⟩ := shape28 48 _ _ _ _ _ _ 5 w (by decide) d.isLt a.isLt b.isLt (toNat_bound q) (toNat_bound p) m.isLt (by decide)
    (by omega)
  refine ⟨h7, ?_⟩
  rw [major30 w h7, decodeMajor30]
  simp only [e0, e1, e2, e3, e4, e5, e6, fin_ofNat, beq_toNat, scope_ofCode, order_ofCode, tag_ofCode, Nat.reduceEqDiff, ↓reduceIte, OfNat.ofNat_ne_zero, and_true, and_false, and_self, false_and, true_and, Option.map_some]
  try rfl

theorem vmax (d : VNum) (a : VNum) (b : VNum) (q : Bool) (p : Bool) (m : MNum) (rm : Option Rounding) (w : Nat) (hw : w = 805306416 + d.val * 128 + a.val * 4096 + b.val * 131072 + q.toNat * 4194304 + p.toNat * 8388608 + m.val * 16777216) :
    w % 128 = 48 ∧ decodeRaw w = some (.vmax d a b q p m none) := by
  obtain ⟨h7, e0, e1, e2, e3, e4, e5, e6⟩ := shape28 48 _ _ _ _ _ _ 6 w (by decide) d.isLt a.isLt b.isLt (toNat_bound q) (toNat_bound p) m.isLt (by decide)
    (by omega)
  refine ⟨h7, ?_⟩
  rw [major30 w h7, decodeMajor30]
  simp only [e0, e1, e2, e3, e4, e5, e6, fin_ofNat, beq_toNat, scope_ofCode, order_ofCode, tag_ofCode, Nat.reduceEqDiff, ↓reduceIte, OfNat.ofNat_ne_zero, and_true, and_false, and_self, false_and, true_and, Option.map_some]
  try rfl

theorem vand (d : VNum) (a : VNum) (b : VNum) (q : Bool) (p : Bool) (m : MNum) (rm : Option Rounding) (w : Nat) (hw : w = 939524144 + d.val * 128 + a.val * 4096 + b.val * 131072 + q.toNat * 4194304 + p.toNat * 8388608 + m.val * 16777216) :
    w % 128 = 48 ∧ decodeRaw w = some (.vand d a b q p m none) := by
  obtain ⟨h7, e0, e1, e2, e3, e4, e5, e6⟩ := shape28 48 _ _ _ _ _ _ 7 w (by decide) d.isLt a.isLt b.isLt (toNat_bound q) (toNat_bound p) m.isLt (by decide)
    (by omega)
  refine ⟨h7, ?_⟩
  rw [major30 w h7, decodeMajor30]
  simp only [e0, e1, e2, e3, e4, e5, e6, fin_ofNat, beq_toNat, scope_ofCode, order_ofCode, tag_ofCode, Nat.reduceEqDiff, ↓reduceIte, OfNat.ofNat_ne_zero, and_true, and_false, and_self, false_and, true_and, Option.map_some]
  try rfl

theorem vor (d : VNum) (a : VNum) (b : VNum) (q : Bool) (p : Bool) (m : MNum) (rm : Option Rounding) (w : Nat) (hw : w = 1073741872 + d.val * 128 + a.val * 4096 + b.val * 131072 + q.toNat * 4194304 + p.toNat * 8388608 + m.val * 16777216) :
    w % 128 = 48 ∧ decodeRaw w = some (.vor d a b q p m none) := by
  obtain ⟨h7, e0, e1, e2, e3, e4, e5, e6⟩ := shape28 48 _ _ _ _ _ _ 8 w (by decide) d.isLt a.isLt b.isLt (toNat_bound q) (toNat_bound p) m.isLt (by decide)
    (by omega)
  refine ⟨h7, ?_⟩
  rw [major30 w h7, decodeMajor30]
  simp only [e0, e1, e2, e3, e4, e5, e6, fin_ofNat, beq_toNat, scope_ofCode, order_ofCode, tag_ofCode, Nat.reduceEqDiff, ↓reduceIte, OfNat.ofNat_ne_zero, and_true, and_false, and_self, false_and, true_and, Option.map_some]
  try rfl

theorem vxor (d : VNum) (a : VNum) (b : VNum) (q : Bool) (p : Bool) (m : MNum) (rm : Option Rounding) (w : Nat) (hw : w = 1207959600 + d.val * 128 + a.val * 4096 + b.val * 131072 + q.toNat * 4194304 + p.toNat * 8388608 + m.val * 16777216) :
    w % 128 = 48 ∧ decodeRaw w = some (.vxor d a b q p m none) := by
  obtain ⟨h7, e0, e1, e2, e3, e4, e5, e6⟩ := shape28 48 _ _ _ _ _ _ 9 w (by decide) d.isLt a.isLt b.isLt (toNat_bound q) (toNat_bound p) m.isLt (by decide)
    (by omega)
  refine ⟨h7, ?_⟩
  rw [major30 w h7, decodeMajor30]
  simp only [e0, e1, e2, e3, e4, e5, e6, fin_ofNat, beq_toNat, scope_ofCode, order_ofCode, tag_ofCode, Nat.reduceEqDiff, ↓reduceIte, OfNat.ofNat_ne_zero, and_true, and_false, and_self, false_and, true_and, Option.map_some]
  try rfl

theorem vsll (d : VNum) (a : VNum) (b : VNum) (q : Bool) (p : Bool) (m : MNum) (rm : Option Rounding) (w : Nat) (hw : w = 1342177328 + d.val * 128 + a.val * 4096 + b.val * 131072 + q.toNat * 4194304 + p.toNat * 8388608 + m.val * 16777216) :
    w % 128 = 48 ∧ decodeRaw w = some (.vsll d a b q p m none) := by
  obtain ⟨h7, e0, e1, e2, e3, e4, e5, e6⟩ := shape28 48 _ _ _ _ _ _ 10 w (by decide) d.isLt a.isLt b.isLt (toNat_bound q) (toNat_bound p) m.isLt (by decide)
    (by omega)
  refine ⟨h7, ?_⟩
  rw [major30 w h7, decodeMajor30]
  simp only [e0, e1, e2, e3, e4, e5, e6, fin_ofNat, beq_toNat, scope_ofCode, order_ofCode, tag_ofCode, Nat.reduceEqDiff, ↓reduceIte, OfNat.ofNat_ne_zero, and_true, and_false, and_self, false_and, true_and, Option.map_some]
  try rfl

theorem vsrl (d : VNum) (a : VNum) (b : VNum) (q : Bool) (p : Bool) (m : MNum) (rm : Option Rounding) (w : Nat) (hw : w = 1476395056 + d.val * 128 + a.val * 4096 + b.val * 131072 + q.toNat * 4194304 + p.toNat * 8388608 + m.val * 16777216) :
    w % 128 = 48 ∧ decodeRaw w = some (.vsrl d a b q p m none) := by
  obtain ⟨h7, e0, e1, e2, e3, e4, e5, e6⟩ := shape28 48 _ _ _ _ _ _ 11 w (by decide) d.isLt a.isLt b.isLt (toNat_bound q) (toNat_bound p) m.isLt (by decide)
    (by omega)
  refine ⟨h7, ?_⟩
  rw [major30 w h7, decodeMajor30]
  simp only [e0, e1, e2, e3, e4, e5, e6, fin_ofNat, beq_toNat, scope_ofCode, order_ofCode, tag_ofCode, Nat.reduceEqDiff, ↓reduceIte, OfNat.ofNat_ne_zero, and_true, and_false, and_self, false_and, true_and, Option.map_some]
  try rfl

theorem vsra (d : VNum) (a : VNum) (b : VNum) (q : Bool) (p : Bool) (m : MNum) (rm : Option Rounding) (w : Nat) (hw : w = 1610612784 + d.val * 128 + a.val * 4096 + b.val * 131072 + q.toNat * 4194304 + p.toNat * 8388608 + m.val * 16777216) :
    w % 128 = 48 ∧ decodeRaw w = some (.vsra d a b q p m none) := by
  obtain ⟨h7, e0, e1, e2, e3, e4, e5, e6⟩ := shape28 48 _ _ _ _ _ _ 12 w (by decide) d.isLt a.isLt b.isLt (toNat_bound q) (toNat_bound p) m.isLt (by decide)
    (by omega)
  refine ⟨h7, ?_⟩
  rw [major30 w h7, decodeMajor30]
  simp only [e0, e1, e2, e3, e4, e5, e6, fin_ofNat, beq_toNat, scope_ofCode, order_ofCode, tag_ofCode, Nat.reduceEqDiff, ↓reduceIte, OfNat.ofNat_ne_zero, and_true, and_false, and_self, false_and, true_and, Option.map_some]
  try rfl

theorem vmulh (d : VNum) (a : VNum) (b : VNum) (q : Bool) (p : Bool) (m : MNum) (rm : Option Rounding) (w : Nat) (hw : w = 1744830512 + d.val * 128 + a.val * 4096 + b.val * 131072 + q.toNat * 4194304 + p.toNat * 8388608 + m.val * 16777216) :
    w % 128 = 48 ∧ decodeRaw w = some (.vmulh d a b q p m none) := by
  obtain ⟨h7, e0, e1, e2, e3, e4, e5, e6⟩ := shape28 48 _ _ _ _ _ _ 13 w (by decide) d.isLt a.isLt b.isLt (toNat_bound q) (toNat_bound p) m.isLt (by decide)
    (by omega)
  refine ⟨h7, ?_⟩
  rw [major30 w h7, decodeMajor30]
  simp only [e0, e1, e2, e3, e4, e5, e6, fin_ofNat, beq_toNat, scope_ofCode, order_ofCode, tag_ofCode, Nat.reduceEqDiff, ↓reduceIte, OfNat.ofNat_ne_zero, and_true, and_false, and_self, false_and, true_and, Option.map_some]
  try rfl

theorem vaddX (d : VNum) (a : VNum) (x : XReg) (q : Bool) (m : MNum) (rm : Option Rounding) (sat : Bool) (w : Nat) (hw : w = 49 + d.val * 128 + a.val * 4096 + x.val * 131072 + q.toNat * 4194304 + m.val * 16777216) :
    w % 128 = 49 ∧ decodeRaw w = some (.vaddX d a x q m none false) := by
  obtain ⟨h7, e0, e1, e2, e3, e4, e5, e6⟩ := shape28 49 _ _ _ _ 0 _ 0 w (by decide) d.isLt a.isLt x.isLt (toNat_bound q) (by decide) m.isLt (by decide)
    (by rw [hw]; simp only [zero_tile])
  refine ⟨h7, ?_⟩
  rw [major31 w h7, decodeMajor31]
  simp only [e0, e1, e2, e3, e4, e5, e6, fin_ofNat, beq_toNat, scope_ofCode, order_ofCode, tag_ofCode, Nat.reduceEqDiff, ↓reduceIte, OfNat.ofNat_ne_zero, and_true, and_false, and_self, false_and, true_and, Option.map_some]
  try rfl

theorem vsubX (d : VNum) (a : VNum) (x : XReg) (q : Bool) (m : MNum) (rm : Option Rounding) (sat : Bool) (w : Nat) (hw : w = 134217777 + d.val * 128 + a.val * 4096 + x.val * 131072 + q.toNat * 4194304 + m.val * 16777216) :
    w % 128 = 49 ∧ decodeRaw w = some (.vsubX d a x q m none false) := by
  obtain ⟨h7, e0, e1, e2, e3, e4, e5, e6⟩ := shape28 49 _ _ _ _ 0 _ 1 w (by decide) d.isLt a.isLt x.isLt (toNat_bound q) (by decide) m.isLt (by decide)
    (by omega)
  refine ⟨h7, ?_⟩
  rw [major31 w h7, decodeMajor31]
  simp only [e0, e1, e2, e3, e4, e5, e6, fin_ofNat, beq_toNat, scope_ofCode, order_ofCode, tag_ofCode, Nat.reduceEqDiff, ↓reduceIte, OfNat.ofNat_ne_zero, and_true, and_false, and_self, false_and, true_and, Option.map_some]
  try rfl

theorem vmulX (d : VNum) (a : VNum) (x : XReg) (q : Bool) (m : MNum) (rm : Option Rounding) (sat : Bool) (w : Nat) (hw : w = 268435505 + d.val * 128 + a.val * 4096 + x.val * 131072 + q.toNat * 4194304 + m.val * 16777216) :
    w % 128 = 49 ∧ decodeRaw w = some (.vmulX d a x q m none false) := by
  obtain ⟨h7, e0, e1, e2, e3, e4, e5, e6⟩ := shape28 49 _ _ _ _ 0 _ 2 w (by decide) d.isLt a.isLt x.isLt (toNat_bound q) (by decide) m.isLt (by decide)
    (by omega)
  refine ⟨h7, ?_⟩
  rw [major31 w h7, decodeMajor31]
  simp only [e0, e1, e2, e3, e4, e5, e6, fin_ofNat, beq_toNat, scope_ofCode, order_ofCode, tag_ofCode, Nat.reduceEqDiff, ↓reduceIte, OfNat.ofNat_ne_zero, and_true, and_false, and_self, false_and, true_and, Option.map_some]
  try rfl

theorem vdivX (d : VNum) (a : VNum) (x : XReg) (q : Bool) (m : MNum) (rm : Option Rounding) (w : Nat) (hw : w = 402653233 + d.val * 128 + a.val * 4096 + x.val * 131072 + q.toNat * 4194304 + m.val * 16777216) :
    w % 128 = 49 ∧ decodeRaw w = some (.vdivX d a x q m none) := by
  obtain ⟨h7, e0, e1, e2, e3, e4, e5, e6⟩ := shape28 49 _ _ _ _ 0 _ 3 w (by decide) d.isLt a.isLt x.isLt (toNat_bound q) (by decide) m.isLt (by decide)
    (by omega)
  refine ⟨h7, ?_⟩
  rw [major31 w h7, decodeMajor31]
  simp only [e0, e1, e2, e3, e4, e5, e6, fin_ofNat, beq_toNat, scope_ofCode, order_ofCode, tag_ofCode, Nat.reduceEqDiff, ↓reduceIte, OfNat.ofNat_ne_zero, and_true, and_false, and_self, false_and, true_and, Option.map_some]
  try rfl

theorem vremX (d : VNum) (a : VNum) (x : XReg) (q : Bool) (m : MNum) (rm : Option Rounding) (w : Nat) (hw : w = 536870961 + d.val * 128 + a.val * 4096 + x.val * 131072 + q.toNat * 4194304 + m.val * 16777216) :
    w % 128 = 49 ∧ decodeRaw w = some (.vremX d a x q m none) := by
  obtain ⟨h7, e0, e1, e2, e3, e4, e5, e6⟩ := shape28 49 _ _ _ _ 0 _ 4 w (by decide) d.isLt a.isLt x.isLt (toNat_bound q) (by decide) m.isLt (by decide)
    (by omega)
  refine ⟨h7, ?_⟩
  rw [major31 w h7, decodeMajor31]
  simp only [e0, e1, e2, e3, e4, e5, e6, fin_ofNat, beq_toNat, scope_ofCode, order_ofCode, tag_ofCode, Nat.reduceEqDiff, ↓reduceIte, OfNat.ofNat_ne_zero, and_true, and_false, and_self, false_and, true_and, Option.map_some]
  try rfl

theorem vminX (d : VNum) (a : VNum) (x : XReg) (q : Bool) (m : MNum) (rm : Option Rounding) (w : Nat) (hw : w = 671088689 + d.val * 128 + a.val * 4096 + x.val * 131072 + q.toNat * 4194304 + m.val * 16777216) :
    w % 128 = 49 ∧ decodeRaw w = some (.vminX d a x q m none) := by
  obtain ⟨h7, e0, e1, e2, e3, e4, e5, e6⟩ := shape28 49 _ _ _ _ 0 _ 5 w (by decide) d.isLt a.isLt x.isLt (toNat_bound q) (by decide) m.isLt (by decide)
    (by omega)
  refine ⟨h7, ?_⟩
  rw [major31 w h7, decodeMajor31]
  simp only [e0, e1, e2, e3, e4, e5, e6, fin_ofNat, beq_toNat, scope_ofCode, order_ofCode, tag_ofCode, Nat.reduceEqDiff, ↓reduceIte, OfNat.ofNat_ne_zero, and_true, and_false, and_self, false_and, true_and, Option.map_some]
  try rfl

theorem vmaxX (d : VNum) (a : VNum) (x : XReg) (q : Bool) (m : MNum) (rm : Option Rounding) (w : Nat) (hw : w = 805306417 + d.val * 128 + a.val * 4096 + x.val * 131072 + q.toNat * 4194304 + m.val * 16777216) :
    w % 128 = 49 ∧ decodeRaw w = some (.vmaxX d a x q m none) := by
  obtain ⟨h7, e0, e1, e2, e3, e4, e5, e6⟩ := shape28 49 _ _ _ _ 0 _ 6 w (by decide) d.isLt a.isLt x.isLt (toNat_bound q) (by decide) m.isLt (by decide)
    (by omega)
  refine ⟨h7, ?_⟩
  rw [major31 w h7, decodeMajor31]
  simp only [e0, e1, e2, e3, e4, e5, e6, fin_ofNat, beq_toNat, scope_ofCode, order_ofCode, tag_ofCode, Nat.reduceEqDiff, ↓reduceIte, OfNat.ofNat_ne_zero, and_true, and_false, and_self, false_and, true_and, Option.map_some]
  try rfl

theorem vandX (d : VNum) (a : VNum) (x : XReg) (q : Bool) (m : MNum) (rm : Option Rounding) (w : Nat) (hw : w = 939524145 + d.val * 128 + a.val * 4096 + x.val * 131072 + q.toNat * 4194304 + m.val * 16777216) :
    w % 128 = 49 ∧ decodeRaw w = some (.vandX d a x q m none) := by
  obtain ⟨h7, e0, e1, e2, e3, e4, e5, e6⟩ := shape28 49 _ _ _ _ 0 _ 7 w (by decide) d.isLt a.isLt x.isLt (toNat_bound q) (by decide) m.isLt (by decide)
    (by omega)
  refine ⟨h7, ?_⟩
  rw [major31 w h7, decodeMajor31]
  simp only [e0, e1, e2, e3, e4, e5, e6, fin_ofNat, beq_toNat, scope_ofCode, order_ofCode, tag_ofCode, Nat.reduceEqDiff, ↓reduceIte, OfNat.ofNat_ne_zero, and_true, and_false, and_self, false_and, true_and, Option.map_some]
  try rfl

theorem vorX (d : VNum) (a : VNum) (x : XReg) (q : Bool) (m : MNum) (rm : Option Rounding) (w : Nat) (hw : w = 1073741873 + d.val * 128 + a.val * 4096 + x.val * 131072 + q.toNat * 4194304 + m.val * 16777216) :
    w % 128 = 49 ∧ decodeRaw w = some (.vorX d a x q m none) := by
  obtain ⟨h7, e0, e1, e2, e3, e4, e5, e6⟩ := shape28 49 _ _ _ _ 0 _ 8 w (by decide) d.isLt a.isLt x.isLt (toNat_bound q) (by decide) m.isLt (by decide)
    (by omega)
  refine ⟨h7, ?_⟩
  rw [major31 w h7, decodeMajor31]
  simp only [e0, e1, e2, e3, e4, e5, e6, fin_ofNat, beq_toNat, scope_ofCode, order_ofCode, tag_ofCode, Nat.reduceEqDiff, ↓reduceIte, OfNat.ofNat_ne_zero, and_true, and_false, and_self, false_and, true_and, Option.map_some]
  try rfl

theorem vxorX (d : VNum) (a : VNum) (x : XReg) (q : Bool) (m : MNum) (rm : Option Rounding) (w : Nat) (hw : w = 1207959601 + d.val * 128 + a.val * 4096 + x.val * 131072 + q.toNat * 4194304 + m.val * 16777216) :
    w % 128 = 49 ∧ decodeRaw w = some (.vxorX d a x q m none) := by
  obtain ⟨h7, e0, e1, e2, e3, e4, e5, e6⟩ := shape28 49 _ _ _ _ 0 _ 9 w (by decide) d.isLt a.isLt x.isLt (toNat_bound q) (by decide) m.isLt (by decide)
    (by omega)
  refine ⟨h7, ?_⟩
  rw [major31 w h7, decodeMajor31]
  simp only [e0, e1, e2, e3, e4, e5, e6, fin_ofNat, beq_toNat, scope_ofCode, order_ofCode, tag_ofCode, Nat.reduceEqDiff, ↓reduceIte, OfNat.ofNat_ne_zero, and_true, and_false, and_self, false_and, true_and, Option.map_some]
  try rfl

theorem vsllX (d : VNum) (a : VNum) (x : XReg) (q : Bool) (m : MNum) (rm : Option Rounding) (w : Nat) (hw : w = 1342177329 + d.val * 128 + a.val * 4096 + x.val * 131072 + q.toNat * 4194304 + m.val * 16777216) :
    w % 128 = 49 ∧ decodeRaw w = some (.vsllX d a x q m none) := by
  obtain ⟨h7, e0, e1, e2, e3, e4, e5, e6⟩ := shape28 49 _ _ _ _ 0 _ 10 w (by decide) d.isLt a.isLt x.isLt (toNat_bound q) (by decide) m.isLt (by decide)
    (by omega)
  refine ⟨h7, ?_⟩
  rw [major31 w h7, decodeMajor31]
  simp only [e0, e1, e2, e3, e4, e5, e6, fin_ofNat, beq_toNat, scope_ofCode, order_ofCode, tag_ofCode, Nat.reduceEqDiff, ↓reduceIte, OfNat.ofNat_ne_zero, and_true, and_false, and_self, false_and, true_and, Option.map_some]
  try rfl

theorem vsrlX (d : VNum) (a : VNum) (x : XReg) (q : Bool) (m : MNum) (rm : Option Rounding) (w : Nat) (hw : w = 1476395057 + d.val * 128 + a.val * 4096 + x.val * 131072 + q.toNat * 4194304 + m.val * 16777216) :
    w % 128 = 49 ∧ decodeRaw w = some (.vsrlX d a x q m none) := by
  obtain ⟨h7, e0, e1, e2, e3, e4, e5, e6⟩ := shape28 49 _ _ _ _ 0 _ 11 w (by decide) d.isLt a.isLt x.isLt (toNat_bound q) (by decide) m.isLt (by decide)
    (by omega)
  refine ⟨h7, ?_⟩
  rw [major31 w h7, decodeMajor31]
  simp only [e0, e1, e2, e3, e4, e5, e6, fin_ofNat, beq_toNat, scope_ofCode, order_ofCode, tag_ofCode, Nat.reduceEqDiff, ↓reduceIte, OfNat.ofNat_ne_zero, and_true, and_false, and_self, false_and, true_and, Option.map_some]
  try rfl

theorem vsraX (d : VNum) (a : VNum) (x : XReg) (q : Bool) (m : MNum) (rm : Option Rounding) (w : Nat) (hw : w = 1610612785 + d.val * 128 + a.val * 4096 + x.val * 131072 + q.toNat * 4194304 + m.val * 16777216) :
    w % 128 = 49 ∧ decodeRaw w = some (.vsraX d a x q m none) := by
  obtain ⟨h7, e0, e1, e2, e3, e4, e5, e6⟩ := shape28 49 _ _ _ _ 0 _ 12 w (by decide) d.isLt a.isLt x.isLt (toNat_bound q) (by decide) m.isLt (by decide)
    (by omega)
  refine ⟨h7, ?_⟩
  rw [major31 w h7, decodeMajor31]
  simp only [e0, e1, e2, e3, e4, e5, e6, fin_ofNat, beq_toNat, scope_ofCode, order_ofCode, tag_ofCode, Nat.reduceEqDiff, ↓reduceIte, OfNat.ofNat_ne_zero, and_true, and_false, and_self, false_and, true_and, Option.map_some]
  try rfl

theorem vmulhX (d : VNum) (a : VNum) (x : XReg) (q : Bool) (m : MNum) (rm : Option Rounding) (w : Nat) (hw : w = 1744830513 + d.val * 128 + a.val * 4096 + x.val * 131072 + q.toNat * 4194304 + m.val * 16777216) :
    w % 128 = 49 ∧ decodeRaw w = some (.vmulhX d a x q m none) := by
  obtain ⟨h7, e0, e1, e2, e3, e4, e5, e6⟩ := shape28 49 _ _ _ _ 0 _ 13 w (by decide) d.isLt a.isLt x.isLt (toNat_bound q) (by decide) m.isLt (by decide)
    (by omega)
  refine ⟨h7, ?_⟩
  rw [major31 w h7, decodeMajor31]
  simp only [e0, e1, e2, e3, e4, e5, e6, fin_ofNat, beq_toNat, scope_ofCode, order_ofCode, tag_ofCode, Nat.reduceEqDiff, ↓reduceIte, OfNat.ofNat_ne_zero, and_true, and_false, and_self, false_and, true_and, Option.map_some]
  try rfl

theorem vfma (d : VNum) (a : VNum) (b : VNum) (q : Bool) (p : Bool) (m : MNum) (rm : Option Rounding) (sat : Bool) (w : Nat) (hw : w = 50 + d.val * 128 + a.val * 4096 + b.val * 131072 + q.toNat * 4194304 + p.toNat * 8388608 + m.val * 16777216) :
    w % 128 = 50 ∧ decodeRaw w = some (.vfma d a b q p m none false) := by
  obtain ⟨h7, e0, e1, e2, e3, e4, e5, e6⟩ := shape28 50 _ _ _ _ _ _ 0 w (by decide) d.isLt a.isLt b.isLt (toNat_bound q) (toNat_bound p) m.isLt (by decide)
    (by rw [hw]; simp only [zero_tile])
  refine ⟨h7, ?_⟩
  rw [major32 w h7, decodeMajor32]
  simp only [e0, e1, e2, e3, e4, e5, e6, fin_ofNat, beq_toNat, scope_ofCode, order_ofCode, tag_ofCode, Nat.reduceEqDiff, ↓reduceIte, OfNat.ofNat_ne_zero, and_true, and_false, and_self, false_and, true_and, Option.map_some]
  try rfl

theorem vfms (d : VNum) (a : VNum) (b : VNum) (q : Bool) (p : Bool) (m : MNum) (rm : Option Rounding) (sat : Bool) (w : Nat) (hw : w = 134217778 + d.val * 128 + a.val * 4096 + b.val * 131072 + q.toNat * 4194304 + p.toNat * 8388608 + m.val * 16777216) :
    w % 128 = 50 ∧ decodeRaw w = some (.vfms d a b q p m none false) := by
  obtain ⟨h7, e0, e1, e2, e3, e4, e5, e6⟩ := shape28 50 _ _ _ _ _ _ 1 w (by decide) d.isLt a.isLt b.isLt (toNat_bound q) (toNat_bound p) m.isLt (by decide)
    (by omega)
  refine ⟨h7, ?_⟩
  rw [major32 w h7, decodeMajor32]
  simp only [e0, e1, e2, e3, e4, e5, e6, fin_ofNat, beq_toNat, scope_ofCode, order_ofCode, tag_ofCode, Nat.reduceEqDiff, ↓reduceIte, OfNat.ofNat_ne_zero, and_true, and_false, and_self, false_and, true_and, Option.map_some]
  try rfl

theorem vfnma (d : VNum) (a : VNum) (b : VNum) (q : Bool) (p : Bool) (m : MNum) (rm : Option Rounding) (sat : Bool) (w : Nat) (hw : w = 268435506 + d.val * 128 + a.val * 4096 + b.val * 131072 + q.toNat * 4194304 + p.toNat * 8388608 + m.val * 16777216) :
    w % 128 = 50 ∧ decodeRaw w = some (.vfnma d a b q p m none false) := by
  obtain ⟨h7, e0, e1, e2, e3, e4, e5, e6⟩ := shape28 50 _ _ _ _ _ _ 2 w (by decide) d.isLt a.isLt b.isLt (toNat_bound q) (toNat_bound p) m.isLt (by decide)
    (by omega)
  refine ⟨h7, ?_⟩
  rw [major32 w h7, decodeMajor32]
  simp only [e0, e1, e2, e3, e4, e5, e6, fin_ofNat, beq_toNat, scope_ofCode, order_ofCode, tag_ofCode, Nat.reduceEqDiff, ↓reduceIte, OfNat.ofNat_ne_zero, and_true, and_false, and_self, false_and, true_and, Option.map_some]
  try rfl

theorem vfnms (d : VNum) (a : VNum) (b : VNum) (q : Bool) (p : Bool) (m : MNum) (rm : Option Rounding) (sat : Bool) (w : Nat) (hw : w = 402653234 + d.val * 128 + a.val * 4096 + b.val * 131072 + q.toNat * 4194304 + p.toNat * 8388608 + m.val * 16777216) :
    w % 128 = 50 ∧ decodeRaw w = some (.vfnms d a b q p m none false) := by
  obtain ⟨h7, e0, e1, e2, e3, e4, e5, e6⟩ := shape28 50 _ _ _ _ _ _ 3 w (by decide) d.isLt a.isLt b.isLt (toNat_bound q) (toNat_bound p) m.isLt (by decide)
    (by omega)
  refine ⟨h7, ?_⟩
  rw [major32 w h7, decodeMajor32]
  simp only [e0, e1, e2, e3, e4, e5, e6, fin_ofNat, beq_toNat, scope_ofCode, order_ofCode, tag_ofCode, Nat.reduceEqDiff, ↓reduceIte, OfNat.ofNat_ne_zero, and_true, and_false, and_self, false_and, true_and, Option.map_some]
  try rfl

theorem vcmpEq (d : MNum) (a : VNum) (b : VNum) (q : Bool) (p : Bool) (m : MNum) (rm : Option Rounding) (w : Nat) (hw : w = 51 + d.val * 128 + a.val * 4096 + b.val * 131072 + q.toNat * 4194304 + p.toNat * 8388608 + m.val * 16777216) :
    w % 128 = 51 ∧ decodeRaw w = some (.vcmpEq d a b q p m none) := by
  obtain ⟨h7, e0, e1, e2, e3, e4, e5, e6, e7⟩ := shape32 51 _ 0 _ _ _ _ _ 0 w (by decide) d.isLt (by decide) a.isLt b.isLt (toNat_bound q) (toNat_bound p) m.isLt (by decide)
    (by rw [hw]; simp only [zero_tile])
  refine ⟨h7, ?_⟩
  rw [major33 w h7, decodeMajor33]
  simp only [e0, e1, e2, e3, e4, e5, e6, e7, fin_ofNat, beq_toNat, scope_ofCode, order_ofCode, tag_ofCode, Nat.reduceEqDiff, ↓reduceIte, OfNat.ofNat_ne_zero, and_true, and_false, and_self, false_and, true_and, Option.map_some]
  try rfl

theorem vcmpNe (d : MNum) (a : VNum) (b : VNum) (q : Bool) (p : Bool) (m : MNum) (rm : Option Rounding) (w : Nat) (hw : w = 134217779 + d.val * 128 + a.val * 4096 + b.val * 131072 + q.toNat * 4194304 + p.toNat * 8388608 + m.val * 16777216) :
    w % 128 = 51 ∧ decodeRaw w = some (.vcmpNe d a b q p m none) := by
  obtain ⟨h7, e0, e1, e2, e3, e4, e5, e6, e7⟩ := shape32 51 _ 0 _ _ _ _ _ 1 w (by decide) d.isLt (by decide) a.isLt b.isLt (toNat_bound q) (toNat_bound p) m.isLt (by decide)
    (by omega)
  refine ⟨h7, ?_⟩
  rw [major33 w h7, decodeMajor33]
  simp only [e0, e1, e2, e3, e4, e5, e6, e7, fin_ofNat, beq_toNat, scope_ofCode, order_ofCode, tag_ofCode, Nat.reduceEqDiff, ↓reduceIte, OfNat.ofNat_ne_zero, and_true, and_false, and_self, false_and, true_and, Option.map_some]
  try rfl

theorem vcmpLt (d : MNum) (a : VNum) (b : VNum) (q : Bool) (p : Bool) (m : MNum) (rm : Option Rounding) (w : Nat) (hw : w = 268435507 + d.val * 128 + a.val * 4096 + b.val * 131072 + q.toNat * 4194304 + p.toNat * 8388608 + m.val * 16777216) :
    w % 128 = 51 ∧ decodeRaw w = some (.vcmpLt d a b q p m none) := by
  obtain ⟨h7, e0, e1, e2, e3, e4, e5, e6, e7⟩ := shape32 51 _ 0 _ _ _ _ _ 2 w (by decide) d.isLt (by decide) a.isLt b.isLt (toNat_bound q) (toNat_bound p) m.isLt (by decide)
    (by omega)
  refine ⟨h7, ?_⟩
  rw [major33 w h7, decodeMajor33]
  simp only [e0, e1, e2, e3, e4, e5, e6, e7, fin_ofNat, beq_toNat, scope_ofCode, order_ofCode, tag_ofCode, Nat.reduceEqDiff, ↓reduceIte, OfNat.ofNat_ne_zero, and_true, and_false, and_self, false_and, true_and, Option.map_some]
  try rfl

theorem vcmpLe (d : MNum) (a : VNum) (b : VNum) (q : Bool) (p : Bool) (m : MNum) (rm : Option Rounding) (w : Nat) (hw : w = 402653235 + d.val * 128 + a.val * 4096 + b.val * 131072 + q.toNat * 4194304 + p.toNat * 8388608 + m.val * 16777216) :
    w % 128 = 51 ∧ decodeRaw w = some (.vcmpLe d a b q p m none) := by
  obtain ⟨h7, e0, e1, e2, e3, e4, e5, e6, e7⟩ := shape32 51 _ 0 _ _ _ _ _ 3 w (by decide) d.isLt (by decide) a.isLt b.isLt (toNat_bound q) (toNat_bound p) m.isLt (by decide)
    (by omega)
  refine ⟨h7, ?_⟩
  rw [major33 w h7, decodeMajor33]
  simp only [e0, e1, e2, e3, e4, e5, e6, e7, fin_ofNat, beq_toNat, scope_ofCode, order_ofCode, tag_ofCode, Nat.reduceEqDiff, ↓reduceIte, OfNat.ofNat_ne_zero, and_true, and_false, and_self, false_and, true_and, Option.map_some]
  try rfl

theorem vcmpEqX (d : MNum) (a : VNum) (x : XReg) (q : Bool) (m : MNum) (rm : Option Rounding) (w : Nat) (hw : w = 1073741875 + d.val * 128 + a.val * 4096 + x.val * 131072 + q.toNat * 4194304 + m.val * 16777216) :
    w % 128 = 51 ∧ decodeRaw w = some (.vcmpEqX d a x q m none) := by
  obtain ⟨h7, e0, e1, e2, e3, e4, e5, e6, e7⟩ := shape32 51 _ 0 _ _ _ 0 _ 8 w (by decide) d.isLt (by decide) a.isLt x.isLt (toNat_bound q) (by decide) m.isLt (by decide)
    (by omega)
  refine ⟨h7, ?_⟩
  rw [major33 w h7, decodeMajor33]
  simp only [e0, e1, e2, e3, e4, e5, e6, e7, fin_ofNat, beq_toNat, scope_ofCode, order_ofCode, tag_ofCode, Nat.reduceEqDiff, ↓reduceIte, OfNat.ofNat_ne_zero, and_true, and_false, and_self, false_and, true_and, Option.map_some]
  try rfl

theorem vcmpNeX (d : MNum) (a : VNum) (x : XReg) (q : Bool) (m : MNum) (rm : Option Rounding) (w : Nat) (hw : w = 1207959603 + d.val * 128 + a.val * 4096 + x.val * 131072 + q.toNat * 4194304 + m.val * 16777216) :
    w % 128 = 51 ∧ decodeRaw w = some (.vcmpNeX d a x q m none) := by
  obtain ⟨h7, e0, e1, e2, e3, e4, e5, e6, e7⟩ := shape32 51 _ 0 _ _ _ 0 _ 9 w (by decide) d.isLt (by decide) a.isLt x.isLt (toNat_bound q) (by decide) m.isLt (by decide)
    (by omega)
  refine ⟨h7, ?_⟩
  rw [major33 w h7, decodeMajor33]
  simp only [e0, e1, e2, e3, e4, e5, e6, e7, fin_ofNat, beq_toNat, scope_ofCode, order_ofCode, tag_ofCode, Nat.reduceEqDiff, ↓reduceIte, OfNat.ofNat_ne_zero, and_true, and_false, and_self, false_and, true_and, Option.map_some]
  try rfl

theorem vcmpLtX (d : MNum) (a : VNum) (x : XReg) (q : Bool) (m : MNum) (rm : Option Rounding) (w : Nat) (hw : w = 1342177331 + d.val * 128 + a.val * 4096 + x.val * 131072 + q.toNat * 4194304 + m.val * 16777216) :
    w % 128 = 51 ∧ decodeRaw w = some (.vcmpLtX d a x q m none) := by
  obtain ⟨h7, e0, e1, e2, e3, e4, e5, e6, e7⟩ := shape32 51 _ 0 _ _ _ 0 _ 10 w (by decide) d.isLt (by decide) a.isLt x.isLt (toNat_bound q) (by decide) m.isLt (by decide)
    (by omega)
  refine ⟨h7, ?_⟩
  rw [major33 w h7, decodeMajor33]
  simp only [e0, e1, e2, e3, e4, e5, e6, e7, fin_ofNat, beq_toNat, scope_ofCode, order_ofCode, tag_ofCode, Nat.reduceEqDiff, ↓reduceIte, OfNat.ofNat_ne_zero, and_true, and_false, and_self, false_and, true_and, Option.map_some]
  try rfl

theorem vcmpLeX (d : MNum) (a : VNum) (x : XReg) (q : Bool) (m : MNum) (rm : Option Rounding) (w : Nat) (hw : w = 1476395059 + d.val * 128 + a.val * 4096 + x.val * 131072 + q.toNat * 4194304 + m.val * 16777216) :
    w % 128 = 51 ∧ decodeRaw w = some (.vcmpLeX d a x q m none) := by
  obtain ⟨h7, e0, e1, e2, e3, e4, e5, e6, e7⟩ := shape32 51 _ 0 _ _ _ 0 _ 11 w (by decide) d.isLt (by decide) a.isLt x.isLt (toNat_bound q) (by decide) m.isLt (by decide)
    (by omega)
  refine ⟨h7, ?_⟩
  rw [major33 w h7, decodeMajor33]
  simp only [e0, e1, e2, e3, e4, e5, e6, e7, fin_ofNat, beq_toNat, scope_ofCode, order_ofCode, tag_ofCode, Nat.reduceEqDiff, ↓reduceIte, OfNat.ofNat_ne_zero, and_true, and_false, and_self, false_and, true_and, Option.map_some]
  try rfl

theorem vcmpGtX (d : MNum) (a : VNum) (x : XReg) (q : Bool) (m : MNum) (rm : Option Rounding) (w : Nat) (hw : w = 1610612787 + d.val * 128 + a.val * 4096 + x.val * 131072 + q.toNat * 4194304 + m.val * 16777216) :
    w % 128 = 51 ∧ decodeRaw w = some (.vcmpGtX d a x q m none) := by
  obtain ⟨h7, e0, e1, e2, e3, e4, e5, e6, e7⟩ := shape32 51 _ 0 _ _ _ 0 _ 12 w (by decide) d.isLt (by decide) a.isLt x.isLt (toNat_bound q) (by decide) m.isLt (by decide)
    (by omega)
  refine ⟨h7, ?_⟩
  rw [major33 w h7, decodeMajor33]
  simp only [e0, e1, e2, e3, e4, e5, e6, e7, fin_ofNat, beq_toNat, scope_ofCode, order_ofCode, tag_ofCode, Nat.reduceEqDiff, ↓reduceIte, OfNat.ofNat_ne_zero, and_true, and_false, and_self, false_and, true_and, Option.map_some]
  try rfl

theorem vcmpGeX (d : MNum) (a : VNum) (x : XReg) (q : Bool) (m : MNum) (rm : Option Rounding) (w : Nat) (hw : w = 1744830515 + d.val * 128 + a.val * 4096 + x.val * 131072 + q.toNat * 4194304 + m.val * 16777216) :
    w % 128 = 51 ∧ decodeRaw w = some (.vcmpGeX d a x q m none) := by
  obtain ⟨h7, e0, e1, e2, e3, e4, e5, e6, e7⟩ := shape32 51 _ 0 _ _ _ 0 _ 13 w (by decide) d.isLt (by decide) a.isLt x.isLt (toNat_bound q) (by decide) m.isLt (by decide)
    (by omega)
  refine ⟨h7, ?_⟩
  rw [major33 w h7, decodeMajor33]
  simp only [e0, e1, e2, e3, e4, e5, e6, e7, fin_ofNat, beq_toNat, scope_ofCode, order_ofCode, tag_ofCode, Nat.reduceEqDiff, ↓reduceIte, OfNat.ofNat_ne_zero, and_true, and_false, and_self, false_and, true_and, Option.map_some]
  try rfl

theorem mand (d : MNum) (a : MNum) (b : MNum) (w : Nat) (hw : w = 52 + d.val * 128 + a.val * 4096 + b.val * 131072) :
    w % 128 = 52 ∧ decodeRaw w = some (.mand d a b) := by
  obtain ⟨h7, e0, e1, e2, e3, e4, e5⟩ := shape33 52 _ 0 _ 0 _ 0 w (by decide) d.isLt (by decide) a.isLt (by decide) b.isLt (by decide)
    (by rw [hw]; simp only [zero_tile])
  refine ⟨h7, ?_⟩
  rw [major34 w h7, decodeMajor34]
  simp only [e0, e1, e2, e3, e4, e5, fin_ofNat, beq_toNat, scope_ofCode, order_ofCode, tag_ofCode, Nat.reduceEqDiff, ↓reduceIte, OfNat.ofNat_ne_zero, and_true, and_false, and_self, false_and, true_and, Option.map_some]
  try rfl

theorem mor (d : MNum) (a : MNum) (b : MNum) (w : Nat) (hw : w = 134217780 + d.val * 128 + a.val * 4096 + b.val * 131072) :
    w % 128 = 52 ∧ decodeRaw w = some (.mor d a b) := by
  obtain ⟨h7, e0, e1, e2, e3, e4, e5⟩ := shape33 52 _ 0 _ 0 _ 128 w (by decide) d.isLt (by decide) a.isLt (by decide) b.isLt (by decide)
    (by omega)
  refine ⟨h7, ?_⟩
  rw [major34 w h7, decodeMajor34]
  simp only [e0, e1, e2, e3, e4, e5, fin_ofNat, beq_toNat, scope_ofCode, order_ofCode, tag_ofCode, Nat.reduceEqDiff, ↓reduceIte, OfNat.ofNat_ne_zero, and_true, and_false, and_self, false_and, true_and, Option.map_some]
  try rfl

theorem mxor (d : MNum) (a : MNum) (b : MNum) (w : Nat) (hw : w = 268435508 + d.val * 128 + a.val * 4096 + b.val * 131072) :
    w % 128 = 52 ∧ decodeRaw w = some (.mxor d a b) := by
  obtain ⟨h7, e0, e1, e2, e3, e4, e5⟩ := shape33 52 _ 0 _ 0 _ 256 w (by decide) d.isLt (by decide) a.isLt (by decide) b.isLt (by decide)
    (by omega)
  refine ⟨h7, ?_⟩
  rw [major34 w h7, decodeMajor34]
  simp only [e0, e1, e2, e3, e4, e5, fin_ofNat, beq_toNat, scope_ofCode, order_ofCode, tag_ofCode, Nat.reduceEqDiff, ↓reduceIte, OfNat.ofNat_ne_zero, and_true, and_false, and_self, false_and, true_and, Option.map_some]
  try rfl

theorem mandn (d : MNum) (a : MNum) (b : MNum) (w : Nat) (hw : w = 402653236 + d.val * 128 + a.val * 4096 + b.val * 131072) :
    w % 128 = 52 ∧ decodeRaw w = some (.mandn d a b) := by
  obtain ⟨h7, e0, e1, e2, e3, e4, e5⟩ := shape33 52 _ 0 _ 0 _ 384 w (by decide) d.isLt (by decide) a.isLt (by decide) b.isLt (by decide)
    (by omega)
  refine ⟨h7, ?_⟩
  rw [major34 w h7, decodeMajor34]
  simp only [e0, e1, e2, e3, e4, e5, fin_ofNat, beq_toNat, scope_ofCode, order_ofCode, tag_ofCode, Nat.reduceEqDiff, ↓reduceIte, OfNat.ofNat_ne_zero, and_true, and_false, and_self, false_and, true_and, Option.map_some]
  try rfl

theorem mnot (d : MNum) (a : MNum) (w : Nat) (hw : w = 536870964 + d.val * 128 + a.val * 4096) :
    w % 128 = 52 ∧ decodeRaw w = some (.mnot d a) := by
  obtain ⟨h7, e0, e1, e2, e3⟩ := shape34 52 _ 0 _ 16384 w (by decide) d.isLt (by decide) a.isLt (by decide)
    (by omega)
  have k0 := other_bits w 20 12 0 15 17 16384 20 12 e3 (by decide)
  have k1 := other_bits w 20 12 128 15 17 16384 20 12 e3 (by decide)
  have k2 := other_bits w 20 12 256 15 17 16384 20 12 e3 (by decide)
  have k3 := other_bits w 20 12 384 15 17 16384 20 12 e3 (by decide)
  refine ⟨h7, ?_⟩
  rw [major34 w h7, decodeMajor34]
  simp only [e0, e1, e2, e3, k0, k1, k2, k3, fin_ofNat, beq_toNat, scope_ofCode, order_ofCode, tag_ofCode, Nat.reduceEqDiff, ↓reduceIte, OfNat.ofNat_ne_zero, and_true, and_false, and_self, false_and, true_and, Option.map_some]
  try rfl

theorem msbf (d : MNum) (a : MNum) (w : Nat) (hw : w = 671088692 + d.val * 128 + a.val * 4096) :
    w % 128 = 52 ∧ decodeRaw w = some (.msbf d a) := by
  obtain ⟨h7, e0, e1, e2, e3⟩ := shape34 52 _ 0 _ 20480 w (by decide) d.isLt (by decide) a.isLt (by decide)
    (by omega)
  have k0 := other_bits w 20 12 0 15 17 20480 20 12 e3 (by decide)
  have k1 := other_bits w 20 12 128 15 17 20480 20 12 e3 (by decide)
  have k2 := other_bits w 20 12 256 15 17 20480 20 12 e3 (by decide)
  have k3 := other_bits w 20 12 384 15 17 20480 20 12 e3 (by decide)
  refine ⟨h7, ?_⟩
  rw [major34 w h7, decodeMajor34]
  simp only [e0, e1, e2, e3, k0, k1, k2, k3, fin_ofNat, beq_toNat, scope_ofCode, order_ofCode, tag_ofCode, Nat.reduceEqDiff, ↓reduceIte, OfNat.ofNat_ne_zero, and_true, and_false, and_self, false_and, true_and, Option.map_some]
  try rfl

theorem msif (d : MNum) (a : MNum) (w : Nat) (hw : w = 805306420 + d.val * 128 + a.val * 4096) :
    w % 128 = 52 ∧ decodeRaw w = some (.msif d a) := by
  obtain ⟨h7, e0, e1, e2, e3⟩ := shape34 52 _ 0 _ 24576 w (by decide) d.isLt (by decide) a.isLt (by decide)
    (by omega)
  have k0 := other_bits w 20 12 0 15 17 24576 20 12 e3 (by decide)
  have k1 := other_bits w 20 12 128 15 17 24576 20 12 e3 (by decide)
  have k2 := other_bits w 20 12 256 15 17 24576 20 12 e3 (by decide)
  have k3 := other_bits w 20 12 384 15 17 24576 20 12 e3 (by decide)
  refine ⟨h7, ?_⟩
  rw [major34 w h7, decodeMajor34]
  simp only [e0, e1, e2, e3, k0, k1, k2, k3, fin_ofNat, beq_toNat, scope_ofCode, order_ofCode, tag_ofCode, Nat.reduceEqDiff, ↓reduceIte, OfNat.ofNat_ne_zero, and_true, and_false, and_self, false_and, true_and, Option.map_some]
  try rfl

theorem mpopc (d : XReg) (a : MNum) (m : MNum) (w : Nat) (hw : w = 939524148 + d.val * 128 + a.val * 4096 + m.val * 16777216) :
    w % 128 = 52 ∧ decodeRaw w = some (.mpopc d a m) := by
  obtain ⟨h7, e0, e1, e2, e3, e4⟩ := shape35 52 _ _ 0 _ 7 w (by decide) d.isLt a.isLt (by decide) m.isLt (by decide)
    (by omega)
  have k0 := other_bits w 20 12 0 27 5 7 27 5 e4 (by decide)
  have k1 := other_bits w 20 12 128 27 5 7 27 5 e4 (by decide)
  have k2 := other_bits w 20 12 256 27 5 7 27 5 e4 (by decide)
  have k3 := other_bits w 20 12 384 27 5 7 27 5 e4 (by decide)
  have k4 := other_bits w 15 17 16384 27 5 7 27 5 e4 (by decide)
  have k5 := other_bits w 15 17 20480 27 5 7 27 5 e4 (by decide)
  have k6 := other_bits w 15 17 24576 27 5 7 27 5 e4 (by decide)
  refine ⟨h7, ?_⟩
  rw [major34 w h7, decodeMajor34]
  simp only [e0, e1, e2, e3, e4, k0, k1, k2, k3, k4, k5, k6, fin_ofNat, beq_toNat, scope_ofCode, order_ofCode, tag_ofCode, Nat.reduceEqDiff, ↓reduceIte, OfNat.ofNat_ne_zero, and_true, and_false, and_self, false_and, true_and, Option.map_some]
  try rfl

theorem mfirst (d : XReg) (a : MNum) (m : MNum) (w : Nat) (hw : w = 1073741876 + d.val * 128 + a.val * 4096 + m.val * 16777216) :
    w % 128 = 52 ∧ decodeRaw w = some (.mfirst d a m) := by
  obtain ⟨h7, e0, e1, e2, e3, e4⟩ := shape35 52 _ _ 0 _ 8 w (by decide) d.isLt a.isLt (by decide) m.isLt (by decide)
    (by omega)
  have k0 := other_bits w 20 12 0 27 5 8 27 5 e4 (by decide)
  have k1 := other_bits w 20 12 128 27 5 8 27 5 e4 (by decide)
  have k2 := other_bits w 20 12 256 27 5 8 27 5 e4 (by decide)
  have k3 := other_bits w 20 12 384 27 5 8 27 5 e4 (by decide)
  have k4 := other_bits w 15 17 16384 27 5 8 27 5 e4 (by decide)
  have k5 := other_bits w 15 17 20480 27 5 8 27 5 e4 (by decide)
  have k6 := other_bits w 15 17 24576 27 5 8 27 5 e4 (by decide)
  refine ⟨h7, ?_⟩
  rw [major34 w h7, decodeMajor34]
  simp only [e0, e1, e2, e3, e4, k0, k1, k2, k3, k4, k5, k6, fin_ofNat, beq_toNat, scope_ofCode, order_ofCode, tag_ofCode, Nat.reduceEqDiff, ↓reduceIte, OfNat.ofNat_ne_zero, and_true, and_false, and_self, false_and, true_and, Option.map_some]
  try rfl

theorem vmv (d : VNum) (a : VNum) (q : Bool) (m : MNum) (w : Nat) (hw : w = 53 + d.val * 128 + a.val * 4096 + q.toNat * 4194304 + m.val * 16777216) :
    w % 128 = 53 ∧ decodeRaw w = some (.vmv d a q m) := by
  obtain ⟨h7, e0, e1, e2, e3, e4, e5, e6⟩ := shape28 53 _ _ 0 _ 0 _ 0 w (by decide) d.isLt a.isLt (by decide) (toNat_bound q) (by decide) m.isLt (by decide)
    (by rw [hw]; simp only [zero_tile])
  refine ⟨h7, ?_⟩
  rw [major35 w h7, decodeMajor35]
  simp only [e0, e1, e2, e3, e4, e5, e6, fin_ofNat, beq_toNat, scope_ofCode, order_ofCode, tag_ofCode, Nat.reduceEqDiff, ↓reduceIte, OfNat.ofNat_ne_zero, and_true, and_false, and_self, false_and, true_and, Option.map_some]
  try rfl

theorem vmerge (d : VNum) (a : VNum) (b : VNum) (q : Bool) (p : Bool) (m : MNum) (w : Nat) (hw : w = 134217781 + d.val * 128 + a.val * 4096 + b.val * 131072 + q.toNat * 4194304 + p.toNat * 8388608 + m.val * 16777216) :
    w % 128 = 53 ∧ decodeRaw w = some (.vmerge d a b q p m) := by
  obtain ⟨h7, e0, e1, e2, e3, e4, e5, e6⟩ := shape28 53 _ _ _ _ _ _ 1 w (by decide) d.isLt a.isLt b.isLt (toNat_bound q) (toNat_bound p) m.isLt (by decide)
    (by omega)
  refine ⟨h7, ?_⟩
  rw [major35 w h7, decodeMajor35]
  simp only [e0, e1, e2, e3, e4, e5, e6, fin_ofNat, beq_toNat, scope_ofCode, order_ofCode, tag_ofCode, Nat.reduceEqDiff, ↓reduceIte, OfNat.ofNat_ne_zero, and_true, and_false, and_self, false_and, true_and, Option.map_some]
  try rfl

theorem vsplat (d : VNum) (x : XReg) (m : MNum) (w : Nat) (hw : w = 268435509 + d.val * 128 + x.val * 131072 + m.val * 16777216) :
    w % 128 = 53 ∧ decodeRaw w = some (.vsplat d x m) := by
  obtain ⟨h7, e0, e1, e2, e3, e4, e5⟩ := shape36 53 _ 0 _ 0 _ 2 w (by decide) d.isLt (by decide) x.isLt (by decide) m.isLt (by decide)
    (by omega)
  refine ⟨h7, ?_⟩
  rw [major35 w h7, decodeMajor35]
  simp only [e0, e1, e2, e3, e4, e5, fin_ofNat, beq_toNat, scope_ofCode, order_ofCode, tag_ofCode, Nat.reduceEqDiff, ↓reduceIte, OfNat.ofNat_ne_zero, and_true, and_false, and_self, false_and, true_and, Option.map_some]
  try rfl

theorem vid (d : VNum) (m : MNum) (w : Nat) (hw : w = 402653237 + d.val * 128 + m.val * 16777216) :
    w % 128 = 53 ∧ decodeRaw w = some (.vid d m) := by
  obtain ⟨h7, e0, e1, e2, e3⟩ := shape37 53 _ 0 _ 3 w (by decide) d.isLt (by decide) m.isLt (by decide)
    (by omega)
  refine ⟨h7, ?_⟩
  rw [major35 w h7, decodeMajor35]
  simp only [e0, e1, e2, e3, fin_ofNat, beq_toNat, scope_ofCode, order_ofCode, tag_ofCode, Nat.reduceEqDiff, ↓reduceIte, OfNat.ofNat_ne_zero, and_true, and_false, and_self, false_and, true_and, Option.map_some]
  try rfl

theorem vslideup (d : VNum) (a : VNum) (x : XReg) (q : Bool) (m : MNum) (w : Nat) (hw : w = 536870965 + d.val * 128 + a.val * 4096 + x.val * 131072 + q.toNat * 4194304 + m.val * 16777216) :
    w % 128 = 53 ∧ decodeRaw w = some (.vslideup d a x q m) := by
  obtain ⟨h7, e0, e1, e2, e3, e4, e5, e6⟩ := shape28 53 _ _ _ _ 0 _ 4 w (by decide) d.isLt a.isLt x.isLt (toNat_bound q) (by decide) m.isLt (by decide)
    (by omega)
  refine ⟨h7, ?_⟩
  rw [major35 w h7, decodeMajor35]
  simp only [e0, e1, e2, e3, e4, e5, e6, fin_ofNat, beq_toNat, scope_ofCode, order_ofCode, tag_ofCode, Nat.reduceEqDiff, ↓reduceIte, OfNat.ofNat_ne_zero, and_true, and_false, and_self, false_and, true_and, Option.map_some]
  try rfl

theorem vslidedn (d : VNum) (a : VNum) (x : XReg) (q : Bool) (m : MNum) (w : Nat) (hw : w = 671088693 + d.val * 128 + a.val * 4096 + x.val * 131072 + q.toNat * 4194304 + m.val * 16777216) :
    w % 128 = 53 ∧ decodeRaw w = some (.vslidedn d a x q m) := by
  obtain ⟨h7, e0, e1, e2, e3, e4, e5, e6⟩ := shape28 53 _ _ _ _ 0 _ 5 w (by decide) d.isLt a.isLt x.isLt (toNat_bound q) (by decide) m.isLt (by decide)
    (by omega)
  refine ⟨h7, ?_⟩
  rw [major35 w h7, decodeMajor35]
  simp only [e0, e1, e2, e3, e4, e5, e6, fin_ofNat, beq_toNat, scope_ofCode, order_ofCode, tag_ofCode, Nat.reduceEqDiff, ↓reduceIte, OfNat.ofNat_ne_zero, and_true, and_false, and_self, false_and, true_and, Option.map_some]
  try rfl

theorem vslide1up (d : VNum) (a : VNum) (x : XReg) (q : Bool) (m : MNum) (w : Nat) (hw : w = 805306421 + d.val * 128 + a.val * 4096 + x.val * 131072 + q.toNat * 4194304 + m.val * 16777216) :
    w % 128 = 53 ∧ decodeRaw w = some (.vslide1up d a x q m) := by
  obtain ⟨h7, e0, e1, e2, e3, e4, e5, e6⟩ := shape28 53 _ _ _ _ 0 _ 6 w (by decide) d.isLt a.isLt x.isLt (toNat_bound q) (by decide) m.isLt (by decide)
    (by omega)
  refine ⟨h7, ?_⟩
  rw [major35 w h7, decodeMajor35]
  simp only [e0, e1, e2, e3, e4, e5, e6, fin_ofNat, beq_toNat, scope_ofCode, order_ofCode, tag_ofCode, Nat.reduceEqDiff, ↓reduceIte, OfNat.ofNat_ne_zero, and_true, and_false, and_self, false_and, true_and, Option.map_some]
  try rfl

theorem vslide1dn (d : VNum) (a : VNum) (x : XReg) (q : Bool) (m : MNum) (w : Nat) (hw : w = 939524149 + d.val * 128 + a.val * 4096 + x.val * 131072 + q.toNat * 4194304 + m.val * 16777216) :
    w % 128 = 53 ∧ decodeRaw w = some (.vslide1dn d a x q m) := by
  obtain ⟨h7, e0, e1, e2, e3, e4, e5, e6⟩ := shape28 53 _ _ _ _ 0 _ 7 w (by decide) d.isLt a.isLt x.isLt (toNat_bound q) (by decide) m.isLt (by decide)
    (by omega)
  refine ⟨h7, ?_⟩
  rw [major35 w h7, decodeMajor35]
  simp only [e0, e1, e2, e3, e4, e5, e6, fin_ofNat, beq_toNat, scope_ofCode, order_ofCode, tag_ofCode, Nat.reduceEqDiff, ↓reduceIte, OfNat.ofNat_ne_zero, and_true, and_false, and_self, false_and, true_and, Option.map_some]
  try rfl

theorem vrgather (d : VNum) (a : VNum) (b : VNum) (q : Bool) (p : Bool) (m : MNum) (w : Nat) (hw : w = 1073741877 + d.val * 128 + a.val * 4096 + b.val * 131072 + q.toNat * 4194304 + p.toNat * 8388608 + m.val * 16777216) :
    w % 128 = 53 ∧ decodeRaw w = some (.vrgather d a b q p m) := by
  obtain ⟨h7, e0, e1, e2, e3, e4, e5, e6⟩ := shape28 53 _ _ _ _ _ _ 8 w (by decide) d.isLt a.isLt b.isLt (toNat_bound q) (toNat_bound p) m.isLt (by decide)
    (by omega)
  refine ⟨h7, ?_⟩
  rw [major35 w h7, decodeMajor35]
  simp only [e0, e1, e2, e3, e4, e5, e6, fin_ofNat, beq_toNat, scope_ofCode, order_ofCode, tag_ofCode, Nat.reduceEqDiff, ↓reduceIte, OfNat.ofNat_ne_zero, and_true, and_false, and_self, false_and, true_and, Option.map_some]
  try rfl

theorem vcompress (d : VNum) (a : VNum) (q : Bool) (m : MNum) (w : Nat) (hw : w = 54 + d.val * 128 + a.val * 4096 + q.toNat * 4194304 + m.val * 16777216) :
    w % 128 = 54 ∧ decodeRaw w = some (.vcompress d a q m) := by
  obtain ⟨h7, e0, e1, e2, e3, e4, e5, e6⟩ := shape28 54 _ _ 0 _ 0 _ 0 w (by decide) d.isLt a.isLt (by decide) (toNat_bound q) (by decide) m.isLt (by decide)
    (by rw [hw]; simp only [zero_tile])
  refine ⟨h7, ?_⟩
  rw [major36 w h7, decodeMajor36]
  simp only [e0, e1, e2, e3, e4, e5, e6, fin_ofNat, beq_toNat, scope_ofCode, order_ofCode, tag_ofCode, Nat.reduceEqDiff, ↓reduceIte, OfNat.ofNat_ne_zero, and_true, and_false, and_self, false_and, true_and, Option.map_some]
  try rfl

theorem vexpand (d : VNum) (a : VNum) (q : Bool) (m : MNum) (w : Nat) (hw : w = 134217782 + d.val * 128 + a.val * 4096 + q.toNat * 4194304 + m.val * 16777216) :
    w % 128 = 54 ∧ decodeRaw w = some (.vexpand d a q m) := by
  obtain ⟨h7, e0, e1, e2, e3, e4, e5, e6⟩ := shape28 54 _ _ 0 _ 0 _ 1 w (by decide) d.isLt a.isLt (by decide) (toNat_bound q) (by decide) m.isLt (by decide)
    (by omega)
  refine ⟨h7, ?_⟩
  rw [major36 w h7, decodeMajor36]
  simp only [e0, e1, e2, e3, e4, e5, e6, fin_ofNat, beq_toNat, scope_ofCode, order_ofCode, tag_ofCode, Nat.reduceEqDiff, ↓reduceIte, OfNat.ofNat_ne_zero, and_true, and_false, and_self, false_and, true_and, Option.map_some]
  try rfl

theorem vpfxpop (d : VNum) (a : MNum) (w : Nat) (hw : w = 268435510 + d.val * 128 + a.val * 4096) :
    w % 128 = 54 ∧ decodeRaw w = some (.vpfxpop d a) := by
  obtain ⟨h7, e0, e1, e2⟩ := shape24 54 _ _ 8192 w (by decide) d.isLt a.isLt (by decide)
    (by omega)
  have k0 := other_bits w 27 5 0 15 17 8192 27 5 e2 (by decide)
  have k1 := other_bits w 27 5 1 15 17 8192 27 5 e2 (by decide)
  refine ⟨h7, ?_⟩
  rw [major36 w h7, decodeMajor36]
  simp only [e0, e1, e2, k0, k1, fin_ofNat, beq_toNat, scope_ofCode, order_ofCode, tag_ofCode, Nat.reduceEqDiff, ↓reduceIte, OfNat.ofNat_ne_zero, and_true, and_false, and_self, false_and, true_and, Option.map_some]
  try rfl

theorem vconflict (d : VNum) (a : VNum) (q : Bool) (m : MNum) (w : Nat) (hw : w = 402653238 + d.val * 128 + a.val * 4096 + q.toNat * 4194304 + m.val * 16777216) :
    w % 128 = 54 ∧ decodeRaw w = some (.vconflict d a q m) := by
  obtain ⟨h7, e0, e1, e2, e3, e4, e5, e6⟩ := shape28 54 _ _ 0 _ 0 _ 3 w (by decide) d.isLt a.isLt (by decide) (toNat_bound q) (by decide) m.isLt (by decide)
    (by omega)
  have k0 := other_bits w 15 17 8192 27 5 3 27 5 e6 (by decide)
  refine ⟨h7, ?_⟩
  rw [major36 w h7, decodeMajor36]
  simp only [e0, e1, e2, e3, e4, e5, e6, k0, fin_ofNat, beq_toNat, scope_ofCode, order_ofCode, tag_ofCode, Nat.reduceEqDiff, ↓reduceIte, OfNat.ofNat_ne_zero, and_true, and_false, and_self, false_and, true_and, Option.map_some]
  try rfl

theorem vscanSegAdd (d : VNum) (a : VNum) (q : Bool) (m : MNum) (rm : Option Rounding) (w : Nat) (hw : w = 536870966 + d.val * 128 + a.val * 4096 + q.toNat * 4194304 + m.val * 16777216) :
    w % 128 = 54 ∧ decodeRaw w = some (.vscanSegAdd d a q m none) := by
  obtain ⟨h7, e0, e1, e2, e3, e4, e5, e6⟩ := shape28 54 _ _ 0 _ 0 _ 4 w (by decide) d.isLt a.isLt (by decide) (toNat_bound q) (by decide) m.isLt (by decide)
    (by omega)
  have k0 := other_bits w 15 17 8192 27 5 4 27 5 e6 (by decide)
  refine ⟨h7, ?_⟩
  rw [major36 w h7, decodeMajor36]
  simp only [e0, e1, e2, e3, e4, e5, e6, k0, fin_ofNat, beq_toNat, scope_ofCode, order_ofCode, tag_ofCode, Nat.reduceEqDiff, ↓reduceIte, OfNat.ofNat_ne_zero, and_true, and_false, and_self, false_and, true_and, Option.map_some]
  try rfl

theorem vscanSegMin (d : VNum) (a : VNum) (q : Bool) (m : MNum) (rm : Option Rounding) (w : Nat) (hw : w = 671088694 + d.val * 128 + a.val * 4096 + q.toNat * 4194304 + m.val * 16777216) :
    w % 128 = 54 ∧ decodeRaw w = some (.vscanSegMin d a q m none) := by
  obtain ⟨h7, e0, e1, e2, e3, e4, e5, e6⟩ := shape28 54 _ _ 0 _ 0 _ 5 w (by decide) d.isLt a.isLt (by decide) (toNat_bound q) (by decide) m.isLt (by decide)
    (by omega)
  have k0 := other_bits w 15 17 8192 27 5 5 27 5 e6 (by decide)
  refine ⟨h7, ?_⟩
  rw [major36 w h7, decodeMajor36]
  simp only [e0, e1, e2, e3, e4, e5, e6, k0, fin_ofNat, beq_toNat, scope_ofCode, order_ofCode, tag_ofCode, Nat.reduceEqDiff, ↓reduceIte, OfNat.ofNat_ne_zero, and_true, and_false, and_self, false_and, true_and, Option.map_some]
  try rfl

theorem vscanSegMax (d : VNum) (a : VNum) (q : Bool) (m : MNum) (rm : Option Rounding) (w : Nat) (hw : w = 805306422 + d.val * 128 + a.val * 4096 + q.toNat * 4194304 + m.val * 16777216) :
    w % 128 = 54 ∧ decodeRaw w = some (.vscanSegMax d a q m none) := by
  obtain ⟨h7, e0, e1, e2, e3, e4, e5, e6⟩ := shape28 54 _ _ 0 _ 0 _ 6 w (by decide) d.isLt a.isLt (by decide) (toNat_bound q) (by decide) m.isLt (by decide)
    (by omega)
  have k0 := other_bits w 15 17 8192 27 5 6 27 5 e6 (by decide)
  refine ⟨h7, ?_⟩
  rw [major36 w h7, decodeMajor36]
  simp only [e0, e1, e2, e3, e4, e5, e6, k0, fin_ofNat, beq_toNat, scope_ofCode, order_ofCode, tag_ofCode, Nat.reduceEqDiff, ↓reduceIte, OfNat.ofNat_ne_zero, and_true, and_false, and_self, false_and, true_and, Option.map_some]
  try rfl

theorem vredAdd (d : VNum) (a : VNum) (b : VNum) (q : Bool) (p : Bool) (m : MNum) (rm : Option Rounding) (w : Nat) (hw : w = 55 + d.val * 128 + a.val * 4096 + b.val * 131072 + q.toNat * 4194304 + p.toNat * 8388608 + m.val * 16777216) :
    w % 128 = 55 ∧ decodeRaw w = some (.vredAdd d a b q p m none) := by
  obtain ⟨h7, e0, e1, e2, e3, e4, e5, e6⟩ := shape28 55 _ _ _ _ _ _ 0 w (by decide) d.isLt a.isLt b.isLt (toNat_bound q) (toNat_bound p) m.isLt (by decide)
    (by rw [hw]; simp only [zero_tile])
  refine ⟨h7, ?_⟩
  rw [major37 w h7, decodeMajor37]
  simp only [e0, e1, e2, e3, e4, e5, e6, fin_ofNat, beq_toNat, scope_ofCode, order_ofCode, tag_ofCode, Nat.reduceEqDiff, ↓reduceIte, OfNat.ofNat_ne_zero, and_true, and_false, and_self, false_and, true_and, Option.map_some]
  try rfl

theorem vredMin (d : VNum) (a : VNum) (b : VNum) (q : Bool) (p : Bool) (m : MNum) (rm : Option Rounding) (w : Nat) (hw : w = 134217783 + d.val * 128 + a.val * 4096 + b.val * 131072 + q.toNat * 4194304 + p.toNat * 8388608 + m.val * 16777216) :
    w % 128 = 55 ∧ decodeRaw w = some (.vredMin d a b q p m none) := by
  obtain ⟨h7, e0, e1, e2, e3, e4, e5, e6⟩ := shape28 55 _ _ _ _ _ _ 1 w (by decide) d.isLt a.isLt b.isLt (toNat_bound q) (toNat_bound p) m.isLt (by decide)
    (by omega)
  refine ⟨h7, ?_⟩
  rw [major37 w h7, decodeMajor37]
  simp only [e0, e1, e2, e3, e4, e5, e6, fin_ofNat, beq_toNat, scope_ofCode, order_ofCode, tag_ofCode, Nat.reduceEqDiff, ↓reduceIte, OfNat.ofNat_ne_zero, and_true, and_false, and_self, false_and, true_and, Option.map_some]
  try rfl

theorem vredMax (d : VNum) (a : VNum) (b : VNum) (q : Bool) (p : Bool) (m : MNum) (rm : Option Rounding) (w : Nat) (hw : w = 268435511 + d.val * 128 + a.val * 4096 + b.val * 131072 + q.toNat * 4194304 + p.toNat * 8388608 + m.val * 16777216) :
    w % 128 = 55 ∧ decodeRaw w = some (.vredMax d a b q p m none) := by
  obtain ⟨h7, e0, e1, e2, e3, e4, e5, e6⟩ := shape28 55 _ _ _ _ _ _ 2 w (by decide) d.isLt a.isLt b.isLt (toNat_bound q) (toNat_bound p) m.isLt (by decide)
    (by omega)
  refine ⟨h7, ?_⟩
  rw [major37 w h7, decodeMajor37]
  simp only [e0, e1, e2, e3, e4, e5, e6, fin_ofNat, beq_toNat, scope_ofCode, order_ofCode, tag_ofCode, Nat.reduceEqDiff, ↓reduceIte, OfNat.ofNat_ne_zero, and_true, and_false, and_self, false_and, true_and, Option.map_some]
  try rfl

theorem vredAnd (d : VNum) (a : VNum) (b : VNum) (q : Bool) (p : Bool) (m : MNum) (rm : Option Rounding) (w : Nat) (hw : w = 402653239 + d.val * 128 + a.val * 4096 + b.val * 131072 + q.toNat * 4194304 + p.toNat * 8388608 + m.val * 16777216) :
    w % 128 = 55 ∧ decodeRaw w = some (.vredAnd d a b q p m none) := by
  obtain ⟨h7, e0, e1, e2, e3, e4, e5, e6⟩ := shape28 55 _ _ _ _ _ _ 3 w (by decide) d.isLt a.isLt b.isLt (toNat_bound q) (toNat_bound p) m.isLt (by decide)
    (by omega)
  refine ⟨h7, ?_⟩
  rw [major37 w h7, decodeMajor37]
  simp only [e0, e1, e2, e3, e4, e5, e6, fin_ofNat, beq_toNat, scope_ofCode, order_ofCode, tag_ofCode, Nat.reduceEqDiff, ↓reduceIte, OfNat.ofNat_ne_zero, and_true, and_false, and_self, false_and, true_and, Option.map_some]
  try rfl

theorem vredOr (d : VNum) (a : VNum) (b : VNum) (q : Bool) (p : Bool) (m : MNum) (rm : Option Rounding) (w : Nat) (hw : w = 536870967 + d.val * 128 + a.val * 4096 + b.val * 131072 + q.toNat * 4194304 + p.toNat * 8388608 + m.val * 16777216) :
    w % 128 = 55 ∧ decodeRaw w = some (.vredOr d a b q p m none) := by
  obtain ⟨h7, e0, e1, e2, e3, e4, e5, e6⟩ := shape28 55 _ _ _ _ _ _ 4 w (by decide) d.isLt a.isLt b.isLt (toNat_bound q) (toNat_bound p) m.isLt (by decide)
    (by omega)
  refine ⟨h7, ?_⟩
  rw [major37 w h7, decodeMajor37]
  simp only [e0, e1, e2, e3, e4, e5, e6, fin_ofNat, beq_toNat, scope_ofCode, order_ofCode, tag_ofCode, Nat.reduceEqDiff, ↓reduceIte, OfNat.ofNat_ne_zero, and_true, and_false, and_self, false_and, true_and, Option.map_some]
  try rfl

theorem vredXor (d : VNum) (a : VNum) (b : VNum) (q : Bool) (p : Bool) (m : MNum) (rm : Option Rounding) (w : Nat) (hw : w = 671088695 + d.val * 128 + a.val * 4096 + b.val * 131072 + q.toNat * 4194304 + p.toNat * 8388608 + m.val * 16777216) :
    w % 128 = 55 ∧ decodeRaw w = some (.vredXor d a b q p m none) := by
  obtain ⟨h7, e0, e1, e2, e3, e4, e5, e6⟩ := shape28 55 _ _ _ _ _ _ 5 w (by decide) d.isLt a.isLt b.isLt (toNat_bound q) (toNat_bound p) m.isLt (by decide)
    (by omega)
  refine ⟨h7, ?_⟩
  rw [major37 w h7, decodeMajor37]
  simp only [e0, e1, e2, e3, e4, e5, e6, fin_ofNat, beq_toNat, scope_ofCode, order_ofCode, tag_ofCode, Nat.reduceEqDiff, ↓reduceIte, OfNat.ofNat_ne_zero, and_true, and_false, and_self, false_and, true_and, Option.map_some]
  try rfl

theorem vfredOrd (d : VNum) (a : VNum) (b : VNum) (q : Bool) (p : Bool) (m : MNum) (rm : Option Rounding) (w : Nat) (hw : w = 805306423 + d.val * 128 + a.val * 4096 + b.val * 131072 + q.toNat * 4194304 + p.toNat * 8388608 + m.val * 16777216) :
    w % 128 = 55 ∧ decodeRaw w = some (.vfredOrd d a b q p m none) := by
  obtain ⟨h7, e0, e1, e2, e3, e4, e5, e6⟩ := shape28 55 _ _ _ _ _ _ 6 w (by decide) d.isLt a.isLt b.isLt (toNat_bound q) (toNat_bound p) m.isLt (by decide)
    (by omega)
  refine ⟨h7, ?_⟩
  rw [major37 w h7, decodeMajor37]
  simp only [e0, e1, e2, e3, e4, e5, e6, fin_ofNat, beq_toNat, scope_ofCode, order_ofCode, tag_ofCode, Nat.reduceEqDiff, ↓reduceIte, OfNat.ofNat_ne_zero, and_true, and_false, and_self, false_and, true_and, Option.map_some]
  try rfl

theorem vcvt (d : VNum) (a : VNum) (t : Tag) (q : Bool) (m : MNum) (rm : Option Rounding) (sat : Bool) (w : Nat) (hw : w = 56 + d.val * 128 + a.val * 4096 + t.code * 131072 + q.toNat * 4194304 + m.val * 16777216) :
    w % 128 = 56 ∧ decodeRaw w = some (.vcvt d a t q m none false) := by
  obtain ⟨h7, e0, e1, e2, e3, e4, e5, e6⟩ := shape28 56 _ _ _ _ 0 _ 0 w (by decide) d.isLt a.isLt (tag_bound t) (toNat_bound q) (by decide) m.isLt (by decide)
    (by rw [hw]; simp only [zero_tile])
  refine ⟨h7, ?_⟩
  rw [major38 w h7, decodeMajor38]
  simp only [e0, e1, e2, e3, e4, e5, e6, fin_ofNat, beq_toNat, scope_ofCode, order_ofCode, tag_ofCode, Nat.reduceEqDiff, ↓reduceIte, OfNat.ofNat_ne_zero, and_true, and_false, and_self, false_and, true_and, Option.map_some]
  try rfl

theorem vneg (d : VNum) (a : VNum) (q : Bool) (m : MNum) (rm : Option Rounding) (sat : Bool) (w : Nat) (hw : w = 57 + d.val * 128 + a.val * 4096 + q.toNat * 4194304 + m.val * 16777216) :
    w % 128 = 57 ∧ decodeRaw w = some (.vneg d a q m none false) := by
  obtain ⟨h7, e0, e1, e2, e3, e4, e5, e6⟩ := shape28 57 _ _ 0 _ 0 _ 0 w (by decide) d.isLt a.isLt (by decide) (toNat_bound q) (by decide) m.isLt (by decide)
    (by rw [hw]; simp only [zero_tile])
  refine ⟨h7, ?_⟩
  rw [major39 w h7, decodeMajor39]
  simp only [e0, e1, e2, e3, e4, e5, e6, fin_ofNat, beq_toNat, scope_ofCode, order_ofCode, tag_ofCode, Nat.reduceEqDiff, ↓reduceIte, OfNat.ofNat_ne_zero, and_true, and_false, and_self, false_and, true_and, Option.map_some]
  try rfl

theorem vabs (d : VNum) (a : VNum) (q : Bool) (m : MNum) (rm : Option Rounding) (sat : Bool) (w : Nat) (hw : w = 134217785 + d.val * 128 + a.val * 4096 + q.toNat * 4194304 + m.val * 16777216) :
    w % 128 = 57 ∧ decodeRaw w = some (.vabs d a q m none false) := by
  obtain ⟨h7, e0, e1, e2, e3, e4, e5, e6⟩ := shape28 57 _ _ 0 _ 0 _ 1 w (by decide) d.isLt a.isLt (by decide) (toNat_bound q) (by decide) m.isLt (by decide)
    (by omega)
  refine ⟨h7, ?_⟩
  rw [major39 w h7, decodeMajor39]
  simp only [e0, e1, e2, e3, e4, e5, e6, fin_ofNat, beq_toNat, scope_ofCode, order_ofCode, tag_ofCode, Nat.reduceEqDiff, ↓reduceIte, OfNat.ofNat_ne_zero, and_true, and_false, and_self, false_and, true_and, Option.map_some]
  try rfl

theorem vsqrt (d : VNum) (a : VNum) (q : Bool) (m : MNum) (rm : Option Rounding) (w : Nat) (hw : w = 268435513 + d.val * 128 + a.val * 4096 + q.toNat * 4194304 + m.val * 16777216) :
    w % 128 = 57 ∧ decodeRaw w = some (.vsqrt d a q m none) := by
  obtain ⟨h7, e0, e1, e2, e3, e4, e5, e6⟩ := shape28 57 _ _ 0 _ 0 _ 2 w (by decide) d.isLt a.isLt (by decide) (toNat_bound q) (by decide) m.isLt (by decide)
    (by omega)
  refine ⟨h7, ?_⟩
  rw [major39 w h7, decodeMajor39]
  simp only [e0, e1, e2, e3, e4, e5, e6, fin_ofNat, beq_toNat, scope_ofCode, order_ofCode, tag_ofCode, Nat.reduceEqDiff, ↓reduceIte, OfNat.ofNat_ne_zero, and_true, and_false, and_self, false_and, true_and, Option.map_some]
  try rfl

theorem vexp2 (d : VNum) (a : VNum) (q : Bool) (m : MNum) (rm : Option Rounding) (w : Nat) (hw : w = 402653241 + d.val * 128 + a.val * 4096 + q.toNat * 4194304 + m.val * 16777216) :
    w % 128 = 57 ∧ decodeRaw w = some (.vexp2 d a q m none) := by
  obtain ⟨h7, e0, e1, e2, e3, e4, e5, e6⟩ := shape28 57 _ _ 0 _ 0 _ 3 w (by decide) d.isLt a.isLt (by decide) (toNat_bound q) (by decide) m.isLt (by decide)
    (by omega)
  refine ⟨h7, ?_⟩
  rw [major39 w h7, decodeMajor39]
  simp only [e0, e1, e2, e3, e4, e5, e6, fin_ofNat, beq_toNat, scope_ofCode, order_ofCode, tag_ofCode, Nat.reduceEqDiff, ↓reduceIte, OfNat.ofNat_ne_zero, and_true, and_false, and_self, false_and, true_and, Option.map_some]
  try rfl

theorem vlog2 (d : VNum) (a : VNum) (q : Bool) (m : MNum) (rm : Option Rounding) (w : Nat) (hw : w = 536870969 + d.val * 128 + a.val * 4096 + q.toNat * 4194304 + m.val * 16777216) :
    w % 128 = 57 ∧ decodeRaw w = some (.vlog2 d a q m none) := by
  obtain ⟨h7, e0, e1, e2, e3, e4, e5, e6⟩ := shape28 57 _ _ 0 _ 0 _ 4 w (by decide) d.isLt a.isLt (by decide) (toNat_bound q) (by decide) m.isLt (by decide)
    (by omega)
  refine ⟨h7, ?_⟩
  rw [major39 w h7, decodeMajor39]
  simp only [e0, e1, e2, e3, e4, e5, e6, fin_ofNat, beq_toNat, scope_ofCode, order_ofCode, tag_ofCode, Nat.reduceEqDiff, ↓reduceIte, OfNat.ofNat_ne_zero, and_true, and_false, and_self, false_and, true_and, Option.map_some]
  try rfl

theorem vrcp (d : VNum) (a : VNum) (q : Bool) (m : MNum) (rm : Option Rounding) (w : Nat) (hw : w = 671088697 + d.val * 128 + a.val * 4096 + q.toNat * 4194304 + m.val * 16777216) :
    w % 128 = 57 ∧ decodeRaw w = some (.vrcp d a q m none) := by
  obtain ⟨h7, e0, e1, e2, e3, e4, e5, e6⟩ := shape28 57 _ _ 0 _ 0 _ 5 w (by decide) d.isLt a.isLt (by decide) (toNat_bound q) (by decide) m.isLt (by decide)
    (by omega)
  refine ⟨h7, ?_⟩
  rw [major39 w h7, decodeMajor39]
  simp only [e0, e1, e2, e3, e4, e5, e6, fin_ofNat, beq_toNat, scope_ofCode, order_ofCode, tag_ofCode, Nat.reduceEqDiff, ↓reduceIte, OfNat.ofNat_ne_zero, and_true, and_false, and_self, false_and, true_and, Option.map_some]
  try rfl

theorem vrsqrt (d : VNum) (a : VNum) (q : Bool) (m : MNum) (rm : Option Rounding) (w : Nat) (hw : w = 805306425 + d.val * 128 + a.val * 4096 + q.toNat * 4194304 + m.val * 16777216) :
    w % 128 = 57 ∧ decodeRaw w = some (.vrsqrt d a q m none) := by
  obtain ⟨h7, e0, e1, e2, e3, e4, e5, e6⟩ := shape28 57 _ _ 0 _ 0 _ 6 w (by decide) d.isLt a.isLt (by decide) (toNat_bound q) (by decide) m.isLt (by decide)
    (by omega)
  refine ⟨h7, ?_⟩
  rw [major39 w h7, decodeMajor39]
  simp only [e0, e1, e2, e3, e4, e5, e6, fin_ofNat, beq_toNat, scope_ofCode, order_ofCode, tag_ofCode, Nat.reduceEqDiff, ↓reduceIte, OfNat.ofNat_ne_zero, and_true, and_false, and_self, false_and, true_and, Option.map_some]
  try rfl

theorem vbext (d : VNum) (a : VNum) (b : VNum) (q : Bool) (p : Bool) (m : MNum) (len : Option (Fin 64)) (w : Nat) (hw : w = 58 + d.val * 128 + a.val * 4096 + b.val * 131072 + q.toNat * 4194304 + p.toNat * 8388608 + m.val * 16777216) :
    w % 128 = 58 ∧ decodeRaw w = some (.vbext d a b q p m none) := by
  obtain ⟨h7, e0, e1, e2, e3, e4, e5, e6⟩ := shape28 58 _ _ _ _ _ _ 0 w (by decide) d.isLt a.isLt b.isLt (toNat_bound q) (toNat_bound p) m.isLt (by decide)
    (by rw [hw]; simp only [zero_tile])
  refine ⟨h7, ?_⟩
  rw [major3A w h7, decodeMajor3A]
  simp only [e0, e1, e2, e3, e4, e5, e6, fin_ofNat, beq_toNat, scope_ofCode, order_ofCode, tag_ofCode, Nat.reduceEqDiff, ↓reduceIte, OfNat.ofNat_ne_zero, and_true, and_false, and_self, false_and, true_and, Option.map_some]
  try rfl

theorem vfsh (d : VNum) (a : VNum) (b : VNum) (q : Bool) (p : Bool) (m : MNum) (w : Nat) (hw : w = 134217786 + d.val * 128 + a.val * 4096 + b.val * 131072 + q.toNat * 4194304 + p.toNat * 8388608 + m.val * 16777216) :
    w % 128 = 58 ∧ decodeRaw w = some (.vfsh d a b q p m) := by
  obtain ⟨h7, e0, e1, e2, e3, e4, e5, e6⟩ := shape28 58 _ _ _ _ _ _ 1 w (by decide) d.isLt a.isLt b.isLt (toNat_bound q) (toNat_bound p) m.isLt (by decide)
    (by omega)
  refine ⟨h7, ?_⟩
  rw [major3A w h7, decodeMajor3A]
  simp only [e0, e1, e2, e3, e4, e5, e6, fin_ofNat, beq_toNat, scope_ofCode, order_ofCode, tag_ofCode, Nat.reduceEqDiff, ↓reduceIte, OfNat.ofNat_ne_zero, and_true, and_false, and_self, false_and, true_and, Option.map_some]
  try rfl

theorem xaClr (e : ENum) (w : Nat) (hw : w = 59 + e.val * 128) :
    w % 128 = 59 ∧ decodeRaw w = some (.xaClr e) := by
  obtain ⟨h7, e0, e1⟩ := shape38 59 _ 0 w (by decide) e.isLt (by decide)
    (by rw [hw]; simp only [zero_tile])
  refine ⟨h7, ?_⟩
  rw [major3B w h7, decodeMajor3B]
  simp only [e0, e1, fin_ofNat, beq_toNat, scope_ofCode, order_ofCode, tag_ofCode, Nat.reduceEqDiff, ↓reduceIte, OfNat.ofNat_ne_zero, and_true, and_false, and_self, false_and, true_and, Option.map_some]
  try rfl

theorem xaAddv (e : ENum) (a : VNum) (q : Bool) (m : MNum) (w : Nat) (hw : w = 134217787 + e.val * 128 + a.val * 4096 + q.toNat * 4194304 + m.val * 16777216) :
    w % 128 = 59 ∧ decodeRaw w = some (.xaAddv e a q m) := by
  obtain ⟨h7, e0, e1, e2, e3, e4, e5, e6, e7⟩ := shape39 59 _ 0 _ 0 _ 0 _ 1 w (by decide) e.isLt (by decide) a.isLt (by decide) (toNat_bound q) (by decide) m.isLt (by decide)
    (by omega)
  have k0 := other_bits w 9 23 0 27 5 1 27 5 e7 (by decide)
  refine ⟨h7, ?_⟩
  rw [major3B w h7, decodeMajor3B]
  simp only [e0, e1, e2, e3, e4, e5, e6, e7, k0, fin_ofNat, beq_toNat, scope_ofCode, order_ofCode, tag_ofCode, Nat.reduceEqDiff, ↓reduceIte, OfNat.ofNat_ne_zero, and_true, and_false, and_self, false_and, true_and, Option.map_some]
  try rfl

theorem xaDot (e : ENum) (a : VNum) (b : VNum) (q : Bool) (p : Bool) (m : MNum) (w : Nat) (hw : w = 268435515 + e.val * 128 + a.val * 4096 + b.val * 131072 + q.toNat * 4194304 + p.toNat * 8388608 + m.val * 16777216) :
    w % 128 = 59 ∧ decodeRaw w = some (.xaDot e a b q p m) := by
  obtain ⟨h7, e0, e1, e2, e3, e4, e5, e6, e7⟩ := shape39 59 _ 0 _ _ _ _ _ 2 w (by decide) e.isLt (by decide) a.isLt b.isLt (toNat_bound q) (toNat_bound p) m.isLt (by decide)
    (by omega)
  have k0 := other_bits w 9 23 0 27 5 2 27 5 e7 (by decide)
  refine ⟨h7, ?_⟩
  rw [major3B w h7, decodeMajor3B]
  simp only [e0, e1, e2, e3, e4, e5, e6, e7, k0, fin_ofNat, beq_toNat, scope_ofCode, order_ofCode, tag_ofCode, Nat.reduceEqDiff, ↓reduceIte, OfNat.ofNat_ne_zero, and_true, and_false, and_self, false_and, true_and, Option.map_some]
  try rfl

theorem xaRd (d : XReg) (e : ENum) (t : Tag) (rm : Option Rounding) (w : Nat) (hw : w = 402653243 + d.val * 128 + e.val * 4096 + t.code * 131072) :
    w % 128 = 59 ∧ decodeRaw w = some (.xaRd d e t none) := by
  obtain ⟨h7, e0, e1, e2, e3, e4⟩ := shape40 59 _ _ 0 _ 96 w (by decide) d.isLt e.isLt (by decide) (tag_bound t) (by decide)
    (by omega)
  have k0 := other_bits w 9 23 0 22 10 96 22 10 e4 (by decide)
  have k1 := other_bits w 27 5 1 22 10 96 27 5 e4 (by decide)
  have k2 := other_bits w 27 5 2 22 10 96 27 5 e4 (by decide)
  refine ⟨h7, ?_⟩
  rw [major3B w h7, decodeMajor3B]
  simp only [e0, e1, e2, e3, e4, k0, k1, k2, fin_ofNat, beq_toNat, scope_ofCode, order_ofCode, tag_ofCode, Nat.reduceEqDiff, ↓reduceIte, OfNat.ofNat_ne_zero, and_true, and_false, and_self, false_and, true_and, Option.map_some]
  try rfl

theorem xaRdv (d : VNum) (e : ENum) (x : XReg) (rm : Option Rounding) (w : Nat) (hw : w = 536870971 + d.val * 128 + e.val * 4096 + x.val * 131072) :
    w % 128 = 59 ∧ decodeRaw w = some (.xaRdv d e x none) := by
  obtain ⟨h7, e0, e1, e2, e3, e4⟩ := shape40 59 _ _ 0 _ 128 w (by decide) d.isLt e.isLt (by decide) x.isLt (by decide)
    (by omega)
  have k0 := other_bits w 9 23 0 22 10 128 22 10 e4 (by decide)
  have k1 := other_bits w 27 5 1 22 10 128 27 5 e4 (by decide)
  have k2 := other_bits w 27 5 2 22 10 128 27 5 e4 (by decide)
  refine ⟨h7, ?_⟩
  rw [major3B w h7, decodeMajor3B]
  simp only [e0, e1, e2, e3, e4, k0, k1, k2, fin_ofNat, beq_toNat, scope_ofCode, order_ofCode, tag_ofCode, Nat.reduceEqDiff, ↓reduceIte, OfNat.ofNat_ne_zero, and_true, and_false, and_self, false_and, true_and, Option.map_some]
  try rfl

theorem xaLd (e : ENum) (a : XReg) (hint : Hint) (w : Nat) (hw : w = 671088699 + e.val * 128 + a.val * 4096) :
    w % 128 = 59 ∧ decodeRaw w = some (.xaLd e a .none) := by
  obtain ⟨h7, e0, e1, e2, e3⟩ := shape41 59 _ 0 _ 5120 w (by decide) e.isLt (by decide) a.isLt (by decide)
    (by omega)
  have k0 := other_bits w 9 23 0 17 15 5120 17 15 e3 (by decide)
  have k1 := other_bits w 27 5 1 17 15 5120 27 5 e3 (by decide)
  have k2 := other_bits w 27 5 2 17 15 5120 27 5 e3 (by decide)
  have k3 := other_bits w 22 10 96 17 15 5120 22 10 e3 (by decide)
  have k4 := other_bits w 22 10 128 17 15 5120 22 10 e3 (by decide)
  refine ⟨h7, ?_⟩
  rw [major3B w h7, decodeMajor3B]
  simp only [e0, e1, e2, e3, k0, k1, k2, k3, k4, fin_ofNat, beq_toNat, scope_ofCode, order_ofCode, tag_ofCode, Nat.reduceEqDiff, ↓reduceIte, OfNat.ofNat_ne_zero, and_true, and_false, and_self, false_and, true_and, Option.map_some]
  try rfl

theorem xaSt (e : ENum) (a : XReg) (w : Nat) (hw : w = 805306427 + e.val * 128 + a.val * 4096) :
    w % 128 = 59 ∧ decodeRaw w = some (.xaSt e a) := by
  obtain ⟨h7, e0, e1, e2, e3⟩ := shape41 59 _ 0 _ 6144 w (by decide) e.isLt (by decide) a.isLt (by decide)
    (by omega)
  have k0 := other_bits w 9 23 0 17 15 6144 17 15 e3 (by decide)
  have k1 := other_bits w 27 5 1 17 15 6144 27 5 e3 (by decide)
  have k2 := other_bits w 27 5 2 17 15 6144 27 5 e3 (by decide)
  have k3 := other_bits w 22 10 96 17 15 6144 22 10 e3 (by decide)
  have k4 := other_bits w 22 10 128 17 15 6144 22 10 e3 (by decide)
  refine ⟨h7, ?_⟩
  rw [major3B w h7, decodeMajor3B]
  simp only [e0, e1, e2, e3, k0, k1, k2, k3, k4, fin_ofNat, beq_toNat, scope_ofCode, order_ofCode, tag_ofCode, Nat.reduceEqDiff, ↓reduceIte, OfNat.ofNat_ne_zero, and_true, and_false, and_self, false_and, true_and, Option.map_some]
  try rfl

theorem vmvXv (d : XReg) (a : VNum) (x : XReg) (q : Bool) (w : Nat) (hw : w = 60 + d.val * 128 + a.val * 4096 + x.val * 131072 + q.toNat * 4194304) :
    w % 128 = 60 ∧ decodeRaw w = some (.vmvXv d a x q) := by
  obtain ⟨h7, e0, e1, e2, e3, e4⟩ := shape42 60 _ _ _ _ 0 w (by decide) d.isLt a.isLt x.isLt (toNat_bound q) (by decide)
    (by rw [hw]; simp only [zero_tile])
  refine ⟨h7, ?_⟩
  rw [major3C w h7, decodeMajor3C]
  simp only [e0, e1, e2, e3, e4, fin_ofNat, beq_toNat, scope_ofCode, order_ofCode, tag_ofCode, Nat.reduceEqDiff, ↓reduceIte, OfNat.ofNat_ne_zero, and_true, and_false, and_self, false_and, true_and, Option.map_some]
  try rfl

theorem vmvVx (d : VNum) (a : XReg) (b : XReg) (w : Nat) (hw : w = 134217788 + d.val * 128 + a.val * 4096 + b.val * 131072) :
    w % 128 = 60 ∧ decodeRaw w = some (.vmvVx d a b) := by
  obtain ⟨h7, e0, e1, e2, e3⟩ := shape1 60 _ _ _ 32 w (by decide) d.isLt a.isLt b.isLt (by decide)
    (by omega)
  have k0 := other_bits w 23 9 0 22 10 32 23 9 e3 (by decide)
  refine ⟨h7, ?_⟩
  rw [major3C w h7, decodeMajor3C]
  simp only [e0, e1, e2, e3, k0, fin_ofNat, beq_toNat, scope_ofCode, order_ofCode, tag_ofCode, Nat.reduceEqDiff, ↓reduceIte, OfNat.ofNat_ne_zero, and_true, and_false, and_self, false_and, true_and, Option.map_some]
  try rfl

theorem qld (d : QNum) (v : XReg) (hint : Hint) (w : Nat) (hw : w = 64 + d.val * 128 + v.val * 65536) :
    w % 128 = 64 ∧ decodeRaw w = some (.qld d v .none) := by
  obtain ⟨h7, e0, e1, e2, e3⟩ := shape43 64 _ 0 _ 0 w (by decide) d.isLt (by decide) v.isLt (by decide)
    (by rw [hw]; simp only [zero_tile])
  refine ⟨h7, ?_⟩
  rw [major40 w h7, decodeMajor40]
  simp only [e0, e1, e2, e3, fin_ofNat, beq_toNat, scope_ofCode, order_ofCode, tag_ofCode, Nat.reduceEqDiff, ↓reduceIte, OfNat.ofNat_ne_zero, and_true, and_false, and_self, false_and, true_and, Option.map_some]
  try rfl

theorem qwalk (d : QNum) (v : XReg) (hint : Hint) (w : Nat) (hw : w = 67108928 + d.val * 128 + v.val * 65536) :
    w % 128 = 64 ∧ decodeRaw w = some (.qwalk d v .none) := by
  obtain ⟨h7, e0, e1, e2, e3⟩ := shape43 64 _ 0 _ 32 w (by decide) d.isLt (by decide) v.isLt (by decide)
    (by omega)
  refine ⟨h7, ?_⟩
  rw [major40 w h7, decodeMajor40]
  simp only [e0, e1, e2, e3, fin_ofNat, beq_toNat, scope_ofCode, order_ofCode, tag_ofCode, Nat.reduceEqDiff, ↓reduceIte, OfNat.ofNat_ne_zero, and_true, and_false, and_self, false_and, true_and, Option.map_some]
  try rfl

theorem qwalkD (d : QNum) (v : XReg) (hint : Hint) (w : Nat) (hw : w = 134217792 + d.val * 128 + v.val * 65536) :
    w % 128 = 64 ∧ decodeRaw w = some (.qwalkD d v .none) := by
  obtain ⟨h7, e0, e1, e2, e3⟩ := shape43 64 _ 0 _ 64 w (by decide) d.isLt (by decide) v.isLt (by decide)
    (by omega)
  refine ⟨h7, ?_⟩
  rw [major40 w h7, decodeMajor40]
  simp only [e0, e1, e2, e3, fin_ofNat, beq_toNat, scope_ofCode, order_ofCode, tag_ofCode, Nat.reduceEqDiff, ↓reduceIte, OfNat.ofNat_ne_zero, and_true, and_false, and_self, false_and, true_and, Option.map_some]
  try rfl

theorem qst (a : QNum) (v : XReg) (w : Nat) (hw : w = 201326656 + a.val * 1024 + v.val * 65536) :
    w % 128 = 64 ∧ decodeRaw w = some (.qst a v) := by
  obtain ⟨h7, e0, e1, e2, e3, e4⟩ := shape44 64 0 _ 0 _ 96 w (by decide) (by decide) a.isLt (by decide) v.isLt (by decide)
    (by omega)
  refine ⟨h7, ?_⟩
  rw [major40 w h7, decodeMajor40]
  simp only [e0, e1, e2, e3, e4, fin_ofNat, beq_toNat, scope_ofCode, order_ofCode, tag_ofCode, Nat.reduceEqDiff, ↓reduceIte, OfNat.ofNat_ne_zero, and_true, and_false, and_self, false_and, true_and, Option.map_some]
  try rfl

theorem qisectMul (d : QNum) (a : QNum) (b : QNum) (rm : Option Rounding) (sat : Bool) (w : Nat) (hw : w = 65 + d.val * 128 + a.val * 1024 + b.val * 8192) :
    w % 128 = 65 ∧ decodeRaw w = some (.qisectMul d a b none false) := by
  obtain ⟨h7, e0, e1, e2, e3⟩ := shape45 65 _ _ _ 0 w (by decide) d.isLt a.isLt b.isLt (by decide)
    (by rw [hw]; simp only [zero_tile])
  refine ⟨h7, ?_⟩
  rw [major41 w h7, decodeMajor41]
  simp only [e0, e1, e2, e3, fin_ofNat, beq_toNat, scope_ofCode, order_ofCode, tag_ofCode, Nat.reduceEqDiff, ↓reduceIte, OfNat.ofNat_ne_zero, and_true, and_false, and_self, false_and, true_and, Option.map_some]
  try rfl

theorem qisectA (d : QNum) (a : QNum) (b : QNum) (w : Nat) (hw : w = 67108929 + d.val * 128 + a.val * 1024 + b.val * 8192) :
    w % 128 = 65 ∧ decodeRaw w = some (.qisectA d a b) := by
  obtain ⟨h7, e0, e1, e2, e3⟩ := shape45 65 _ _ _ 1024 w (by decide) d.isLt a.isLt b.isLt (by decide)
    (by omega)
  refine ⟨h7, ?_⟩
  rw [major41 w h7, decodeMajor41]
  simp only [e0, e1, e2, e3, fin_ofNat, beq_toNat, scope_ofCode, order_ofCode, tag_ofCode, Nat.reduceEqDiff, ↓reduceIte, OfNat.ofNat_ne_zero, and_true, and_false, and_self, false_and, true_and, Option.map_some]
  try rfl

theorem qisectB (d : QNum) (a : QNum) (b : QNum) (w : Nat) (hw : w = 134217793 + d.val * 128 + a.val * 1024 + b.val * 8192) :
    w % 128 = 65 ∧ decodeRaw w = some (.qisectB d a b) := by
  obtain ⟨h7, e0, e1, e2, e3⟩ := shape45 65 _ _ _ 2048 w (by decide) d.isLt a.isLt b.isLt (by decide)
    (by omega)
  refine ⟨h7, ?_⟩
  rw [major41 w h7, decodeMajor41]
  simp only [e0, e1, e2, e3, fin_ofNat, beq_toNat, scope_ofCode, order_ofCode, tag_ofCode, Nat.reduceEqDiff, ↓reduceIte, OfNat.ofNat_ne_zero, and_true, and_false, and_self, false_and, true_and, Option.map_some]
  try rfl

theorem qunionAdd (d : QNum) (a : QNum) (b : QNum) (rm : Option Rounding) (sat : Bool) (w : Nat) (hw : w = 201326657 + d.val * 128 + a.val * 1024 + b.val * 8192) :
    w % 128 = 65 ∧ decodeRaw w = some (.qunionAdd d a b none false) := by
  obtain ⟨h7, e0, e1, e2, e3⟩ := shape45 65 _ _ _ 3072 w (by decide) d.isLt a.isLt b.isLt (by decide)
    (by omega)
  refine ⟨h7, ?_⟩
  rw [major41 w h7, decodeMajor41]
  simp only [e0, e1, e2, e3, fin_ofNat, beq_toNat, scope_ofCode, order_ofCode, tag_ofCode, Nat.reduceEqDiff, ↓reduceIte, OfNat.ofNat_ne_zero, and_true, and_false, and_self, false_and, true_and, Option.map_some]
  try rfl

theorem qmerge (d : QNum) (a : QNum) (b : QNum) (w : Nat) (hw : w = 268435521 + d.val * 128 + a.val * 1024 + b.val * 8192) :
    w % 128 = 65 ∧ decodeRaw w = some (.qmerge d a b) := by
  obtain ⟨h7, e0, e1, e2, e3⟩ := shape45 65 _ _ _ 4096 w (by decide) d.isLt a.isLt b.isLt (by decide)
    (by omega)
  refine ⟨h7, ?_⟩
  rw [major41 w h7, decodeMajor41]
  simp only [e0, e1, e2, e3, fin_ofNat, beq_toNat, scope_ofCode, order_ofCode, tag_ofCode, Nat.reduceEqDiff, ↓reduceIte, OfNat.ofNat_ne_zero, and_true, and_false, and_self, false_and, true_and, Option.map_some]
  try rfl

theorem qsort (d : QNum) (a : QNum) (w : Nat) (hw : w = 335544385 + d.val * 128 + a.val * 1024) :
    w % 128 = 65 ∧ decodeRaw w = some (.qsort d a) := by
  obtain ⟨h7, e0, e1, e2⟩ := shape46 65 _ _ 40960 w (by decide) d.isLt a.isLt (by decide)
    (by omega)
  have k0 := other_bits w 16 16 0 13 19 40960 16 16 e2 (by decide)
  have k1 := other_bits w 16 16 1024 13 19 40960 16 16 e2 (by decide)
  have k2 := other_bits w 16 16 2048 13 19 40960 16 16 e2 (by decide)
  have k3 := other_bits w 16 16 3072 13 19 40960 16 16 e2 (by decide)
  have k4 := other_bits w 16 16 4096 13 19 40960 16 16 e2 (by decide)
  refine ⟨h7, ?_⟩
  rw [major41 w h7, decodeMajor41]
  simp only [e0, e1, e2, k0, k1, k2, k3, k4, fin_ofNat, beq_toNat, scope_ofCode, order_ofCode, tag_ofCode, Nat.reduceEqDiff, ↓reduceIte, OfNat.ofNat_ne_zero, and_true, and_false, and_self, false_and, true_and, Option.map_some]
  try rfl

theorem qcompact (d : QNum) (a : QNum) (w : Nat) (hw : w = 402653249 + d.val * 128 + a.val * 1024) :
    w % 128 = 65 ∧ decodeRaw w = some (.qcompact d a) := by
  obtain ⟨h7, e0, e1, e2⟩ := shape46 65 _ _ 49152 w (by decide) d.isLt a.isLt (by decide)
    (by omega)
  have k0 := other_bits w 16 16 0 13 19 49152 16 16 e2 (by decide)
  have k1 := other_bits w 16 16 1024 13 19 49152 16 16 e2 (by decide)
  have k2 := other_bits w 16 16 2048 13 19 49152 16 16 e2 (by decide)
  have k3 := other_bits w 16 16 3072 13 19 49152 16 16 e2 (by decide)
  have k4 := other_bits w 16 16 4096 13 19 49152 16 16 e2 (by decide)
  refine ⟨h7, ?_⟩
  rw [major41 w h7, decodeMajor41]
  simp only [e0, e1, e2, k0, k1, k2, k3, k4, fin_ofNat, beq_toNat, scope_ofCode, order_ofCode, tag_ofCode, Nat.reduceEqDiff, ↓reduceIte, OfNat.ofNat_ne_zero, and_true, and_false, and_self, false_and, true_and, Option.map_some]
  try rfl

theorem qcompactM (d : QNum) (a : QNum) (m : MNum) (w : Nat) (hw : w = 469762113 + d.val * 128 + a.val * 1024 + m.val * 2097152) :
    w % 128 = 65 ∧ decodeRaw w = some (.qcompactM d a m) := by
  obtain ⟨h7, e0, e1, e2, e3, e4⟩ := shape47 65 _ _ 0 _ 28 w (by decide) d.isLt a.isLt (by decide) m.isLt (by decide)
    (by omega)
  have k0 := other_bits w 16 16 0 24 8 28 24 8 e4 (by decide)
  have k1 := other_bits w 16 16 1024 24 8 28 24 8 e4 (by decide)
  have k2 := other_bits w 16 16 2048 24 8 28 24 8 e4 (by decide)
  have k3 := other_bits w 16 16 3072 24 8 28 24 8 e4 (by decide)
  have k4 := other_bits w 16 16 4096 24 8 28 24 8 e4 (by decide)
  have k5 := other_bits w 13 19 40960 24 8 28 24 8 e4 (by decide)
  have k6 := other_bits w 13 19 49152 24 8 28 24 8 e4 (by decide)
  refine ⟨h7, ?_⟩
  rw [major41 w h7, decodeMajor41]
  simp only [e0, e1, e2, e3, e4, k0, k1, k2, k3, k4, k5, k6, fin_ofNat, beq_toNat, scope_ofCode, order_ofCode, tag_ofCode, Nat.reduceEqDiff, ↓reduceIte, OfNat.ofNat_ne_zero, and_true, and_false, and_self, false_and, true_and, Option.map_some]
  try rfl

theorem qdot (e : ENum) (a : QNum) (b : QNum) (w : Nat) (hw : w = 536870977 + e.val * 128 + a.val * 1024 + b.val * 8192) :
    w % 128 = 65 ∧ decodeRaw w = some (.qdot e a b) := by
  obtain ⟨h7, e0, e1, e2, e3, e4⟩ := shape48 65 _ 0 _ _ 8192 w (by decide) e.isLt (by decide) a.isLt b.isLt (by decide)
    (by omega)
  have k0 := other_bits w 13 19 40960 16 16 8192 16 16 e4 (by decide)
  have k1 := other_bits w 13 19 49152 16 16 8192 16 16 e4 (by decide)
  have k2 := other_bits w 24 8 28 16 16 8192 24 8 e4 (by decide)
  refine ⟨h7, ?_⟩
  rw [major41 w h7, decodeMajor41]
  simp only [e0, e1, e2, e3, e4, k0, k1, k2, fin_ofNat, beq_toNat, scope_ofCode, order_ofCode, tag_ofCode, Nat.reduceEqDiff, ↓reduceIte, OfNat.ofNat_ne_zero, and_true, and_false, and_self, false_and, true_and, Option.map_some]
  try rfl

theorem qexpand (a : QNum) (v : XReg) (d : VNum) (w : Nat) (hw : w = 66 + a.val * 1024 + v.val * 65536 + d.val * 2097152) :
    w % 128 = 66 ∧ decodeRaw w = some (.qexpand a v d) := by
  obtain ⟨h7, e0, e1, e2, e3, e4, e5⟩ := shape49 66 0 _ 0 _ _ 0 w (by decide) (by decide) a.isLt (by decide) v.isLt d.isLt (by decide)
    (by rw [hw]; simp only [zero_tile])
  refine ⟨h7, ?_⟩
  rw [major42 w h7, decodeMajor42]
  simp only [e0, e1, e2, e3, e4, e5, fin_ofNat, beq_toNat, scope_ofCode, order_ofCode, tag_ofCode, Nat.reduceEqDiff, ↓reduceIte, OfNat.ofNat_ne_zero, and_true, and_false, and_self, false_and, true_and, Option.map_some]
  try rfl

theorem qfromv (d : QNum) (v : XReg) (a : VNum) (w : Nat) (hw : w = 67108930 + d.val * 128 + v.val * 65536 + a.val * 2097152) :
    w % 128 = 66 ∧ decodeRaw w = some (.qfromv d v a) := by
  obtain ⟨h7, e0, e1, e2, e3, e4⟩ := shape50 66 _ 0 _ _ 1 w (by decide) d.isLt (by decide) v.isLt a.isLt (by decide)
    (by omega)
  refine ⟨h7, ?_⟩
  rw [major42 w h7, decodeMajor42]
  simp only [e0, e1, e2, e3, e4, fin_ofNat, beq_toNat, scope_ofCode, order_ofCode, tag_ofCode, Nat.reduceEqDiff, ↓reduceIte, OfNat.ofNat_ne_zero, and_true, and_false, and_self, false_and, true_and, Option.map_some]
  try rfl

theorem qfromvAll (d : QNum) (v : XReg) (a : VNum) (w : Nat) (hw : w = 134217794 + d.val * 128 + v.val * 65536 + a.val * 2097152) :
    w % 128 = 66 ∧ decodeRaw w = some (.qfromvAll d v a) := by
  obtain ⟨h7, e0, e1, e2, e3, e4⟩ := shape50 66 _ 0 _ _ 2 w (by decide) d.isLt (by decide) v.isLt a.isLt (by decide)
    (by omega)
  refine ⟨h7, ?_⟩
  rw [major42 w h7, decodeMajor42]
  simp only [e0, e1, e2, e3, e4, fin_ofNat, beq_toNat, scope_ofCode, order_ofCode, tag_ofCode, Nat.reduceEqDiff, ↓reduceIte, OfNat.ofNat_ne_zero, and_true, and_false, and_self, false_and, true_and, Option.map_some]
  try rfl

theorem qcoord (a : QNum) (d : VNum) (w : Nat) (hw : w = 201326658 + a.val * 1024 + d.val * 2097152) :
    w % 128 = 66 ∧ decodeRaw w = some (.qcoord a d) := by
  obtain ⟨h7, e0, e1, e2, e3, e4⟩ := shape51 66 0 _ 0 _ 3 w (by decide) (by decide) a.isLt (by decide) d.isLt (by decide)
    (by omega)
  refine ⟨h7, ?_⟩
  rw [major42 w h7, decodeMajor42]
  simp only [e0, e1, e2, e3, e4, fin_ofNat, beq_toNat, scope_ofCode, order_ofCode, tag_ofCode, Nat.reduceEqDiff, ↓reduceIte, OfNat.ofNat_ne_zero, and_true, and_false, and_self, false_and, true_and, Option.map_some]
  try rfl

theorem qval (a : QNum) (d : VNum) (w : Nat) (hw : w = 268435522 + a.val * 1024 + d.val * 2097152) :
    w % 128 = 66 ∧ decodeRaw w = some (.qval a d) := by
  obtain ⟨h7, e0, e1, e2, e3, e4⟩ := shape51 66 0 _ 0 _ 4 w (by decide) (by decide) a.isLt (by decide) d.isLt (by decide)
    (by omega)
  refine ⟨h7, ?_⟩
  rw [major42 w h7, decodeMajor42]
  simp only [e0, e1, e2, e3, e4, fin_ofNat, beq_toNat, scope_ofCode, order_ofCode, tag_ofCode, Nat.reduceEqDiff, ↓reduceIte, OfNat.ofNat_ne_zero, and_true, and_false, and_self, false_and, true_and, Option.map_some]
  try rfl

theorem qcnt (a : QNum) (d : XReg) (w : Nat) (hw : w = 335544386 + a.val * 1024 + d.val * 65536) :
    w % 128 = 66 ∧ decodeRaw w = some (.qcnt a d) := by
  obtain ⟨h7, e0, e1, e2, e3, e4⟩ := shape44 66 0 _ 0 _ 160 w (by decide) (by decide) a.isLt (by decide) d.isLt (by decide)
    (by omega)
  have k0 := other_bits w 26 6 0 21 11 160 26 6 e4 (by decide)
  have k1 := other_bits w 26 6 1 21 11 160 26 6 e4 (by decide)
  have k2 := other_bits w 26 6 2 21 11 160 26 6 e4 (by decide)
  have k3 := other_bits w 26 6 3 21 11 160 26 6 e4 (by decide)
  have k4 := other_bits w 26 6 4 21 11 160 26 6 e4 (by decide)
  refine ⟨h7, ?_⟩
  rw [major42 w h7, decodeMajor42]
  simp only [e0, e1, e2, e3, e4, k0, k1, k2, k3, k4, fin_ofNat, beq_toNat, scope_ofCode, order_ofCode, tag_ofCode, Nat.reduceEqDiff, ↓reduceIte, OfNat.ofNat_ne_zero, and_true, and_false, and_self, false_and, true_and, Option.map_some]
  try rfl

theorem qclr (d : QNum) (w : Nat) (hw : w = 402653250 + d.val * 128) :
    w % 128 = 66 ∧ decodeRaw w = some (.qclr d) := by
  obtain ⟨h7, e0, e1⟩ := shape52 66 _ 393216 w (by decide) d.isLt (by decide)
    (by omega)
  have k0 := other_bits w 26 6 0 10 22 393216 26 6 e1 (by decide)
  have k1 := other_bits w 26 6 1 10 22 393216 26 6 e1 (by decide)
  have k2 := other_bits w 26 6 2 10 22 393216 26 6 e1 (by decide)
  have k3 := other_bits w 26 6 3 10 22 393216 26 6 e1 (by decide)
  have k4 := other_bits w 26 6 4 10 22 393216 26 6 e1 (by decide)
  have k5 := other_bits w 21 11 160 10 22 393216 21 11 e1 (by decide)
  refine ⟨h7, ?_⟩
  rw [major42 w h7, decodeMajor42]
  simp only [e0, e1, k0, k1, k2, k3, k4, k5, fin_ofNat, beq_toNat, scope_ofCode, order_ofCode, tag_ofCode, Nat.reduceEqDiff, ↓reduceIte, OfNat.ofNat_ne_zero, and_true, and_false, and_self, false_and, true_and, Option.map_some]
  try rfl

theorem qscale (d : QNum) (a : QNum) (v : XReg) (rm : Option Rounding) (sat : Bool) (w : Nat) (hw : w = 469762114 + d.val * 128 + a.val * 1024 + v.val * 65536) :
    w % 128 = 66 ∧ decodeRaw w = some (.qscale d a v none false) := by
  obtain ⟨h7, e0, e1, e2, e3, e4⟩ := shape44 66 _ _ 0 _ 224 w (by decide) d.isLt a.isLt (by decide) v.isLt (by decide)
    (by omega)
  have k0 := other_bits w 26 6 0 21 11 224 26 6 e4 (by decide)
  have k1 := other_bits w 26 6 1 21 11 224 26 6 e4 (by decide)
  have k2 := other_bits w 26 6 2 21 11 224 26 6 e4 (by decide)
  have k3 := other_bits w 26 6 3 21 11 224 26 6 e4 (by decide)
  have k4 := other_bits w 26 6 4 21 11 224 26 6 e4 (by decide)
  have k5 := other_bits w 10 22 393216 21 11 224 21 11 e4 (by decide)
  refine ⟨h7, ?_⟩
  rw [major42 w h7, decodeMajor42]
  simp only [e0, e1, e2, e3, e4, k0, k1, k2, k3, k4, k5, fin_ofNat, beq_toNat, scope_ofCode, order_ofCode, tag_ofCode, Nat.reduceEqDiff, ↓reduceIte, OfNat.ofNat_ne_zero, and_true, and_false, and_self, false_and, true_and, Option.map_some]
  try rfl

theorem qredAdd (a : QNum) (d : XReg) (rm : Option Rounding) (w : Nat) (hw : w = 536870978 + a.val * 1024 + d.val * 65536) :
    w % 128 = 66 ∧ decodeRaw w = some (.qredAdd a d none) := by
  obtain ⟨h7, e0, e1, e2, e3, e4⟩ := shape44 66 0 _ 0 _ 256 w (by decide) (by decide) a.isLt (by decide) d.isLt (by decide)
    (by omega)
  have k0 := other_bits w 26 6 0 21 11 256 26 6 e4 (by decide)
  have k1 := other_bits w 26 6 1 21 11 256 26 6 e4 (by decide)
  have k2 := other_bits w 26 6 2 21 11 256 26 6 e4 (by decide)
  have k3 := other_bits w 26 6 3 21 11 256 26 6 e4 (by decide)
  have k4 := other_bits w 26 6 4 21 11 256 26 6 e4 (by decide)
  have k5 := other_bits w 10 22 393216 21 11 256 21 11 e4 (by decide)
  refine ⟨h7, ?_⟩
  rw [major42 w h7, decodeMajor42]
  simp only [e0, e1, e2, e3, e4, k0, k1, k2, k3, k4, k5, fin_ofNat, beq_toNat, scope_ofCode, order_ofCode, tag_ofCode, Nat.reduceEqDiff, ↓reduceIte, OfNat.ofNat_ne_zero, and_true, and_false, and_self, false_and, true_and, Option.map_some]
  try rfl

theorem qredMin (a : QNum) (d : XReg) (w : Nat) (hw : w = 603979842 + a.val * 1024 + d.val * 65536) :
    w % 128 = 66 ∧ decodeRaw w = some (.qredMin a d) := by
  obtain ⟨h7, e0, e1, e2, e3, e4⟩ := shape44 66 0 _ 0 _ 288 w (by decide) (by decide) a.isLt (by decide) d.isLt (by decide)
    (by omega)
  have k0 := other_bits w 26 6 0 21 11 288 26 6 e4 (by decide)
  have k1 := other_bits w 26 6 1 21 11 288 26 6 e4 (by decide)
  have k2 := other_bits w 26 6 2 21 11 288 26 6 e4 (by decide)
  have k3 := other_bits w 26 6 3 21 11 288 26 6 e4 (by decide)
  have k4 := other_bits w 26 6 4 21 11 288 26 6 e4 (by decide)
  have k5 := other_bits w 10 22 393216 21 11 288 21 11 e4 (by decide)
  refine ⟨h7, ?_⟩
  rw [major42 w h7, decodeMajor42]
  simp only [e0, e1, e2, e3, e4, k0, k1, k2, k3, k4, k5, fin_ofNat, beq_toNat, scope_ofCode, order_ofCode, tag_ofCode, Nat.reduceEqDiff, ↓reduceIte, OfNat.ofNat_ne_zero, and_true, and_false, and_self, false_and, true_and, Option.map_some]
  try rfl

theorem qredMax (a : QNum) (d : XReg) (w : Nat) (hw : w = 671088706 + a.val * 1024 + d.val * 65536) :
    w % 128 = 66 ∧ decodeRaw w = some (.qredMax a d) := by
  obtain ⟨h7, e0, e1, e2, e3, e4⟩ := shape44 66 0 _ 0 _ 320 w (by decide) (by decide) a.isLt (by decide) d.isLt (by decide)
    (by omega)
  have k0 := other_bits w 26 6 0 21 11 320 26 6 e4 (by decide)
  have k1 := other_bits w 26 6 1 21 11 320 26 6 e4 (by decide)
  have k2 := other_bits w 26 6 2 21 11 320 26 6 e4 (by decide)
  have k3 := other_bits w 26 6 3 21 11 320 26 6 e4 (by decide)
  have k4 := other_bits w 26 6 4 21 11 320 26 6 e4 (by decide)
  have k5 := other_bits w 10 22 393216 21 11 320 21 11 e4 (by decide)
  refine ⟨h7, ?_⟩
  rw [major42 w h7, decodeMajor42]
  simp only [e0, e1, e2, e3, e4, k0, k1, k2, k3, k4, k5, fin_ofNat, beq_toNat, scope_ofCode, order_ofCode, tag_ofCode, Nat.reduceEqDiff, ↓reduceIte, OfNat.ofNat_ne_zero, and_true, and_false, and_self, false_and, true_and, Option.map_some]
  try rfl

theorem mattach (r : Fin 4) (w : Nat) (hw : w = 72 + r.val * 1048576) :
    w % 128 = 72 ∧ decodeRaw w = some (.mattach r) := by
  obtain ⟨h7, e0, e1, e2⟩ := shape53 72 0 _ 0 w (by decide) (by decide) r.isLt (by decide)
    (by rw [hw]; simp only [zero_tile])
  refine ⟨h7, ?_⟩
  rw [major48 w h7, decodeMajor48]
  simp only [e0, e1, e2, fin_ofNat, beq_toNat, scope_ofCode, order_ofCode, tag_ofCode, Nat.reduceEqDiff, ↓reduceIte, OfNat.ofNat_ne_zero, and_true, and_false, and_self, false_and, true_and, Option.map_some]
  try rfl

theorem mdetach (w : Nat) (hw : w = 1073741896) :
    w % 128 = 72 ∧ decodeRaw w = some (.mdetach) := by
  obtain ⟨h7, e0⟩ := shape12 72 8388608 w (by decide) (by decide)
    (by omega)
  have k0 := other_bits w 22 10 0 7 25 8388608 22 10 e0 (by decide)
  refine ⟨h7, ?_⟩
  rw [major48 w h7, decodeMajor48]
  simp only [e0, k0, fin_ofNat, beq_toNat, scope_ofCode, order_ofCode, tag_ofCode, Nat.reduceEqDiff, ↓reduceIte, OfNat.ofNat_ne_zero, and_true, and_false, and_self, false_and, true_and, Option.map_some]
  try rfl

theorem mzeroT (d : TNum) (w : Nat) (hw : w = 2147483720 + d.val * 128) :
    w % 128 = 72 ∧ decodeRaw w = some (.mzeroT d) := by
  obtain ⟨h7, e0, e1⟩ := shape52 72 _ 2097152 w (by decide) d.isLt (by decide)
    (by omega)
  have k0 := other_bits w 22 10 0 10 22 2097152 22 10 e1 (by decide)
  have k1 := other_bits w 7 25 8388608 10 22 2097152 10 22 e1 (by decide)
  refine ⟨h7, ?_⟩
  rw [major48 w h7, decodeMajor48]
  simp only [e0, e1, k0, k1, fin_ofNat, beq_toNat, scope_ofCode, order_ofCode, tag_ofCode, Nat.reduceEqDiff, ↓reduceIte, OfNat.ofNat_ne_zero, and_true, and_false, and_self, false_and, true_and, Option.map_some]
  try rfl

theorem mzeroZ (d : ZNum) (w : Nat) (hw : w = 3221225544 + d.val * 128) :
    w % 128 = 72 ∧ decodeRaw w = some (.mzeroZ d) := by
  obtain ⟨h7, e0, e1⟩ := shape38 72 _ 6291456 w (by decide) d.isLt (by decide)
    (by omega)
  have k0 := other_bits w 22 10 0 9 23 6291456 22 10 e1 (by decide)
  have k1 := other_bits w 7 25 8388608 9 23 6291456 9 23 e1 (by decide)
  have k2 := other_bits w 10 22 2097152 9 23 6291456 10 22 e1 (by decide)
  refine ⟨h7, ?_⟩
  rw [major48 w h7, decodeMajor48]
  simp only [e0, e1, k0, k1, k2, fin_ofNat, beq_toNat, scope_ofCode, order_ofCode, tag_ofCode, Nat.reduceEqDiff, ↓reduceIte, OfNat.ofNat_ne_zero, and_true, and_false, and_self, false_and, true_and, Option.map_some]
  try rfl

theorem mldT (d : TNum) (a : XReg) (hint : Hint) (w : Nat) (hw : w = 73 + d.val * 128 + a.val * 33554432) :
    w % 128 = 73 ∧ decodeRaw w = some (.mldT d a .none) := by
  obtain ⟨h7, e0, e1, e2, e3⟩ := shape54 73 _ 0 _ 0 w (by decide) d.isLt (by decide) a.isLt (by decide)
    (by rw [hw]; simp only [zero_tile])
  refine ⟨h7, ?_⟩
  rw [major49 w h7, decodeMajor49]
  simp only [e0, e1, e2, e3, fin_ofNat, beq_toNat, scope_ofCode, order_ofCode, tag_ofCode, Nat.reduceEqDiff, ↓reduceIte, OfNat.ofNat_ne_zero, and_true, and_false, and_self, false_and, true_and, Option.map_some]
  try rfl

theorem mldZ (d : ZNum) (a : XReg) (hint : Hint) (w : Nat) (hw : w = 1073741897 + d.val * 128 + a.val * 33554432) :
    w % 128 = 73 ∧ decodeRaw w = some (.mldZ d a .none) := by
  obtain ⟨h7, e0, e1, e2, e3⟩ := shape55 73 _ 0 _ 1 w (by decide) d.isLt (by decide) a.isLt (by decide)
    (by omega)
  refine ⟨h7, ?_⟩
  rw [major49 w h7, decodeMajor49]
  simp only [e0, e1, e2, e3, fin_ofNat, beq_toNat, scope_ofCode, order_ofCode, tag_ofCode, Nat.reduceEqDiff, ↓reduceIte, OfNat.ofNat_ne_zero, and_true, and_false, and_self, false_and, true_and, Option.map_some]
  try rfl

theorem mldbm (d : TNum) (b : XReg) (a : XReg) (hint : Hint) (w : Nat) (hw : w = 2147483721 + d.val * 128 + b.val * 1048576 + a.val * 33554432) :
    w % 128 = 73 ∧ decodeRaw w = some (.mldbm d b a .none) := by
  obtain ⟨h7, e0, e1, e2, e3, e4⟩ := shape56 73 _ 0 _ _ 2 w (by decide) d.isLt (by decide) b.isLt a.isLt (by decide)
    (by omega)
  refine ⟨h7, ?_⟩
  rw [major49 w h7, decodeMajor49]
  simp only [e0, e1, e2, e3, e4, fin_ofNat, beq_toNat, scope_ofCode, order_ofCode, tag_ofCode, Nat.reduceEqDiff, ↓reduceIte, OfNat.ofNat_ne_zero, and_true, and_false, and_self, false_and, true_and, Option.map_some]
  try rfl

theorem mstT (d : TNum) (a : XReg) (w : Nat) (hw : w = 74 + d.val * 128 + a.val * 33554432) :
    w % 128 = 74 ∧ decodeRaw w = some (.mstT d a) := by
  obtain ⟨h7, e0, e1, e2, e3⟩ := shape54 74 _ 0 _ 0 w (by decide) d.isLt (by decide) a.isLt (by decide)
    (by rw [hw]; simp only [zero_tile])
  refine ⟨h7, ?_⟩
  rw [major4A w h7, decodeMajor4A]
  simp only [e0, e1, e2, e3, fin_ofNat, beq_toNat, scope_ofCode, order_ofCode, tag_ofCode, Nat.reduceEqDiff, ↓reduceIte, OfNat.ofNat_ne_zero, and_true, and_false, and_self, false_and, true_and, Option.map_some]
  try rfl

theorem mstZ (d : ZNum) (a : XReg) (w : Nat) (hw : w = 1073741898 + d.val * 128 + a.val * 33554432) :
    w % 128 = 74 ∧ decodeRaw w = some (.mstZ d a) := by
  obtain ⟨h7, e0, e1, e2, e3⟩ := shape55 74 _ 0 _ 1 w (by decide) d.isLt (by decide) a.isLt (by decide)
    (by omega)
  refine ⟨h7, ?_⟩
  rw [major4A w h7, decodeMajor4A]
  simp only [e0, e1, e2, e3, fin_ofNat, beq_toNat, scope_ofCode, order_ofCode, tag_ofCode, Nat.reduceEqDiff, ↓reduceIte, OfNat.ofNat_ne_zero, and_true, and_false, and_self, false_and, true_and, Option.map_some]
  try rfl

theorem mma (d : ZNum) (a : TNum) (b : TNum) (start : Fin 4) (ceil : Fin 4) (rm : Option Rounding) (w : Nat) (hw : w = 75 + d.val * 128 + a.val * 1024 + b.val * 8192 + start.val * 65536 + ceil.val * 262144) :
    w % 128 = 75 ∧ decodeRaw w = some (.mma d a b start ceil none) := by
  obtain ⟨h7, e0, e1, e2, e3, e4, e5, e6⟩ := shape57 75 _ 0 _ _ _ _ 0 w (by decide) d.isLt (by decide) a.isLt b.isLt start.isLt ceil.isLt (by decide)
    (by rw [hw]; simp only [zero_tile])
  refine ⟨h7, ?_⟩
  rw [major4B w h7, decodeMajor4B]
  simp only [e0, e1, e2, e3, e4, e5, e6, fin_ofNat, beq_toNat, scope_ofCode, order_ofCode, tag_ofCode, Nat.reduceEqDiff, ↓reduceIte, OfNat.ofNat_ne_zero, and_true, and_false, and_self, false_and, true_and, Option.map_some]
  try rfl

theorem mmaSp (d : ZNum) (a : TNum) (b : TNum) (start : Fin 4) (ceil : Fin 4) (rm : Option Rounding) (w : Nat) (hw : w = 1073741899 + d.val * 128 + a.val * 1024 + b.val * 8192 + start.val * 65536 + ceil.val * 262144) :
    w % 128 = 75 ∧ decodeRaw w = some (.mmaSp d a b start ceil none) := by
  obtain ⟨h7, e0, e1, e2, e3, e4, e5, e6⟩ := shape57 75 _ 0 _ _ _ _ 1024 w (by decide) d.isLt (by decide) a.isLt b.isLt start.isLt ceil.isLt (by decide)
    (by omega)
  refine ⟨h7, ?_⟩
  rw [major4B w h7, decodeMajor4B]
  simp only [e0, e1, e2, e3, e4, e5, e6, fin_ofNat, beq_toNat, scope_ofCode, order_ofCode, tag_ofCode, Nat.reduceEqDiff, ↓reduceIte, OfNat.ofNat_ne_zero, and_true, and_false, and_self, false_and, true_and, Option.map_some]
  try rfl

theorem mmaSs (d : ZNum) (a : TNum) (b : TNum) (start : Fin 4) (ceil : Fin 4) (rm : Option Rounding) (w : Nat) (hw : w = 2147483723 + d.val * 128 + a.val * 1024 + b.val * 8192 + start.val * 65536 + ceil.val * 262144) :
    w % 128 = 75 ∧ decodeRaw w = some (.mmaSs d a b start ceil none) := by
  obtain ⟨h7, e0, e1, e2, e3, e4, e5, e6⟩ := shape57 75 _ 0 _ _ _ _ 2048 w (by decide) d.isLt (by decide) a.isLt b.isLt start.isLt ceil.isLt (by decide)
    (by omega)
  refine ⟨h7, ?_⟩
  rw [major4B w h7, decodeMajor4B]
  simp only [e0, e1, e2, e3, e4, e5, e6, fin_ofNat, beq_toNat, scope_ofCode, order_ofCode, tag_ofCode, Nat.reduceEqDiff, ↓reduceIte, OfNat.ofNat_ne_zero, and_true, and_false, and_self, false_and, true_and, Option.map_some]
  try rfl

theorem mdrain (z : ZNum) (m : MNum) (a : XReg) (rm : Option Rounding) (sat : Bool) (w : Nat) (hw : w = 76 + z.val * 128 + m.val * 8192 + a.val * 33554432) :
    w % 128 = 76 ∧ decodeRaw w = some (.mdrain z m a none false) := by
  obtain ⟨h7, e0, e1, e2, e3, e4, e5⟩ := shape58 76 _ 0 _ 0 _ 0 w (by decide) z.isLt (by decide) m.isLt (by decide) a.isLt (by decide)
    (by rw [hw]; simp only [zero_tile])
  refine ⟨h7, ?_⟩
  rw [major4C w h7, decodeMajor4C]
  simp only [e0, e1, e2, e3, e4, e5, fin_ofNat, beq_toNat, scope_ofCode, order_ofCode, tag_ofCode, Nat.reduceEqDiff, ↓reduceIte, OfNat.ofNat_ne_zero, and_true, and_false, and_self, false_and, true_and, Option.map_some]
  try rfl

theorem mdrainX (z : ZNum) (m : MNum) (i : VNum) (a : XReg) (rm : Option Rounding) (sat : Bool) (w : Nat) (hw : w = 1073741900 + z.val * 128 + m.val * 8192 + i.val * 1048576 + a.val * 33554432) :
    w % 128 = 76 ∧ decodeRaw w = some (.mdrainX z m i a none false) := by
  obtain ⟨h7, e0, e1, e2, e3, e4, e5, e6⟩ := shape59 76 _ 0 _ 0 _ _ 1 w (by decide) z.isLt (by decide) m.isLt (by decide) i.isLt a.isLt (by decide)
    (by omega)
  refine ⟨h7, ?_⟩
  rw [major4C w h7, decodeMajor4C]
  simp only [e0, e1, e2, e3, e4, e5, e6, fin_ofNat, beq_toNat, scope_ofCode, order_ofCode, tag_ofCode, Nat.reduceEqDiff, ↓reduceIte, OfNat.ofNat_ne_zero, and_true, and_false, and_self, false_and, true_and, Option.map_some]
  try rfl

theorem mdrainv (z : ZNum) (m : MNum) (d : VNum) (rm : Option Rounding) (sat : Bool) (w : Nat) (hw : w = 2147483724 + z.val * 128 + m.val * 8192 + d.val * 33554432) :
    w % 128 = 76 ∧ decodeRaw w = some (.mdrainv z m d none false) := by
  obtain ⟨h7, e0, e1, e2, e3, e4, e5⟩ := shape58 76 _ 0 _ 0 _ 2 w (by decide) z.isLt (by decide) m.isLt (by decide) d.isLt (by decide)
    (by omega)
  refine ⟨h7, ?_⟩
  rw [major4C w h7, decodeMajor4C]
  simp only [e0, e1, e2, e3, e4, e5, fin_ofNat, beq_toNat, scope_ofCode, order_ofCode, tag_ofCode, Nat.reduceEqDiff, ↓reduceIte, OfNat.ofNat_ne_zero, and_true, and_false, and_self, false_and, true_and, Option.map_some]
  try rfl

theorem cpy (h : ChNum) (a : XReg) (b : XReg) (r : Bool) (w : Nat) (hw : w = 80 + h.val * 128 + a.val * 1024 + b.val * 32768 + r.toNat * 2147483648) :
    w % 128 = 80 ∧ decodeRaw w = some (.cpy h a b r) := by
  obtain ⟨h7, e0, e1, e2, e3, e4⟩ := shape60 80 _ _ _ 0 _ w (by decide) h.isLt a.isLt b.isLt (by decide) (toNat_bound r)
    (by rw [hw]; simp only [zero_tile])
  refine ⟨h7, ?_⟩
  rw [major50 w h7, decodeMajor50]
  simp only [e0, e1, e2, e3, e4, fin_ofNat, beq_toNat, scope_ofCode, order_ofCode, tag_ofCode, Nat.reduceEqDiff, ↓reduceIte, OfNat.ofNat_ne_zero, and_true, and_false, and_self, false_and, true_and, Option.map_some]
  try rfl

theorem cpy2 (h : ChNum) (a : XReg) (b : XReg) (p : XReg) (r : Bool) (w : Nat) (hw : w = 33554512 + h.val * 128 + a.val * 1024 + b.val * 32768 + p.val * 1048576 + r.toNat * 2147483648) :
    w % 128 = 80 ∧ decodeRaw w = some (.cpy2 h a b p r) := by
  obtain ⟨h7, e0, e1, e2, e3, e4, e5⟩ := shape61 80 _ _ _ _ 1 _ w (by decide) h.isLt a.isLt b.isLt p.isLt (by decide) (toNat_bound r)
    (by omega)
  have k0 := other_bits w 20 11 0 25 6 1 25 6 e4 (by decide)
  refine ⟨h7, ?_⟩
  rw [major50 w h7, decodeMajor50]
  simp only [e0, e1, e2, e3, e4, e5, k0, fin_ofNat, beq_toNat, scope_ofCode, order_ofCode, tag_ofCode, Nat.reduceEqDiff, ↓reduceIte, OfNat.ofNat_ne_zero, and_true, and_false, and_self, false_and, true_and, Option.map_some]
  try rfl

theorem cpyG (h : ChNum) (a : XReg) (b : XReg) (i : VNum) (r : Bool) (w : Nat) (hw : w = 67108944 + h.val * 128 + a.val * 1024 + b.val * 32768 + i.val * 1048576 + r.toNat * 2147483648) :
    w % 128 = 80 ∧ decodeRaw w = some (.cpyG h a b i r) := by
  obtain ⟨h7, e0, e1, e2, e3, e4, e5⟩ := shape61 80 _ _ _ _ 2 _ w (by decide) h.isLt a.isLt b.isLt i.isLt (by decide) (toNat_bound r)
    (by omega)
  have k0 := other_bits w 20 11 0 25 6 2 25 6 e4 (by decide)
  refine ⟨h7, ?_⟩
  rw [major50 w h7, decodeMajor50]
  simp only [e0, e1, e2, e3, e4, e5, k0, fin_ofNat, beq_toNat, scope_ofCode, order_ofCode, tag_ofCode, Nat.reduceEqDiff, ↓reduceIte, OfNat.ofNat_ne_zero, and_true, and_false, and_self, false_and, true_and, Option.map_some]
  try rfl

theorem cpyGd (h : ChNum) (a : XReg) (b : XReg) (i : VNum) (r : Bool) (w : Nat) (hw : w = 100663376 + h.val * 128 + a.val * 1024 + b.val * 32768 + i.val * 1048576 + r.toNat * 2147483648) :
    w % 128 = 80 ∧ decodeRaw w = some (.cpyGd h a b i r) := by
  obtain ⟨h7, e0, e1, e2, e3, e4, e5⟩ := shape61 80 _ _ _ _ 3 _ w (by decide) h.isLt a.isLt b.isLt i.isLt (by decide) (toNat_bound r)
    (by omega)
  have k0 := other_bits w 20 11 0 25 6 3 25 6 e4 (by decide)
  refine ⟨h7, ?_⟩
  rw [major50 w h7, decodeMajor50]
  simp only [e0, e1, e2, e3, e4, e5, k0, fin_ofNat, beq_toNat, scope_ofCode, order_ofCode, tag_ofCode, Nat.reduceEqDiff, ↓reduceIte, OfNat.ofNat_ne_zero, and_true, and_false, and_self, false_and, true_and, Option.map_some]
  try rfl

theorem cpyR (h : ChNum) (a : XReg) (b : XReg) (r : Bool) (w : Nat) (hw : w = 134217808 + h.val * 128 + a.val * 1024 + b.val * 32768 + r.toNat * 2147483648) :
    w % 128 = 80 ∧ decodeRaw w = some (.cpyR h a b r) := by
  obtain ⟨h7, e0, e1, e2, e3, e4⟩ := shape60 80 _ _ _ 128 _ w (by decide) h.isLt a.isLt b.isLt (by decide) (toNat_bound r)
    (by omega)
  have k0 := other_bits w 25 6 1 20 11 128 25 6 e3 (by decide)
  have k1 := other_bits w 25 6 2 20 11 128 25 6 e3 (by decide)
  have k2 := other_bits w 25 6 3 20 11 128 25 6 e3 (by decide)
  refine ⟨h7, ?_⟩
  rw [major50 w h7, decodeMajor50]
  simp only [e0, e1, e2, e3, e4, k0, k1, k2, fin_ofNat, beq_toNat, scope_ofCode, order_ofCode, tag_ofCode, Nat.reduceEqDiff, ↓reduceIte, OfNat.ofNat_ne_zero, and_true, and_false, and_self, false_and, true_and, Option.map_some]
  try rfl

theorem cbatch (w : Nat) (hw : w = 81) :
    w % 128 = 81 ∧ decodeRaw w = some (.cbatch) := by
  obtain ⟨h7, e0⟩ := shape12 81 0 w (by decide) (by decide)
    (by rw [hw])
  refine ⟨h7, ?_⟩
  rw [major51 w h7, decodeMajor51]
  simp only [e0, fin_ofNat, beq_toNat, scope_ofCode, order_ofCode, tag_ofCode, Nat.reduceEqDiff, ↓reduceIte, OfNat.ofNat_ne_zero, and_true, and_false, and_self, false_and, true_and, Option.map_some]
  try rfl

theorem cwait (n : Fin 32) (w : Nat) (hw : w = 33554513 + n.val * 32768) :
    w % 128 = 81 ∧ decodeRaw w = some (.cwait n) := by
  obtain ⟨h7, e0, e1, e2⟩ := shape62 81 0 _ 32 w (by decide) (by decide) n.isLt (by decide)
    (by omega)
  have k0 := other_bits w 7 25 0 20 12 32 20 12 e2 (by decide)
  refine ⟨h7, ?_⟩
  rw [major51 w h7, decodeMajor51]
  simp only [e0, e1, e2, k0, fin_ofNat, beq_toNat, scope_ofCode, order_ofCode, tag_ofCode, Nat.reduceEqDiff, ↓reduceIte, OfNat.ofNat_ne_zero, and_true, and_false, and_self, false_and, true_and, Option.map_some]
  try rfl

theorem cstat (h : ChNum) (d : XReg) (s : Fin 4) (w : Nat) (hw : w = 67108945 + h.val * 128 + d.val * 1024 + s.val * 1048576) :
    w % 128 = 81 ∧ decodeRaw w = some (.cstat h d s) := by
  obtain ⟨h7, e0, e1, e2, e3, e4⟩ := shape63 81 _ _ 0 _ 16 w (by decide) h.isLt d.isLt (by decide) s.isLt (by decide)
    (by omega)
  have k0 := other_bits w 7 25 0 22 10 16 22 10 e4 (by decide)
  have k1 := other_bits w 20 12 32 22 10 16 22 10 e4 (by decide)
  refine ⟨h7, ?_⟩
  rw [major51 w h7, decodeMajor51]
  simp only [e0, e1, e2, e3, e4, k0, k1, fin_ofNat, beq_toNat, scope_ofCode, order_ofCode, tag_ofCode, Nat.reduceEqDiff, ↓reduceIte, OfNat.ofNat_ne_zero, and_true, and_false, and_self, false_and, true_and, Option.map_some]
  try rfl

theorem cack (h : ChNum) (w : Nat) (hw : w = 100663377 + h.val * 128) :
    w % 128 = 81 ∧ decodeRaw w = some (.cack h) := by
  obtain ⟨h7, e0, e1⟩ := shape52 81 _ 98304 w (by decide) h.isLt (by decide)
    (by omega)
  have k0 := other_bits w 7 25 0 10 22 98304 10 22 e1 (by decide)
  have k1 := other_bits w 20 12 32 10 22 98304 20 12 e1 (by decide)
  have k2 := other_bits w 22 10 16 10 22 98304 22 10 e1 (by decide)
  refine ⟨h7, ?_⟩
  rw [major51 w h7, decodeMajor51]
  simp only [e0, e1, k0, k1, k2, fin_ofNat, beq_toNat, scope_ofCode, order_ofCode, tag_ofCode, Nat.reduceEqDiff, ↓reduceIte, OfNat.ofNat_ne_zero, and_true, and_false, and_self, false_and, true_and, Option.map_some]
  try rfl

theorem lzInit (d : XReg) (b : XReg) (c : XReg) (w : Nat) (hw : w = 82 + d.val * 1024 + b.val * 32768 + c.val * 1048576) :
    w % 128 = 82 ∧ decodeRaw w = some (.lzInit d b c) := by
  obtain ⟨h7, e0, e1, e2, e3, e4⟩ := shape64 82 0 _ _ _ 0 w (by decide) (by decide) d.isLt b.isLt c.isLt (by decide)
    (by rw [hw]; simp only [zero_tile])
  refine ⟨h7, ?_⟩
  rw [major52 w h7, decodeMajor52]
  simp only [e0, e1, e2, e3, e4, fin_ofNat, beq_toNat, scope_ofCode, order_ofCode, tag_ofCode, Nat.reduceEqDiff, ↓reduceIte, OfNat.ofNat_ne_zero, and_true, and_false, and_self, false_and, true_and, Option.map_some]
  try rfl

theorem lzRes (d : XReg) (b : XReg) (w : Nat) (hw : w = 33554514 + d.val * 1024 + b.val * 32768) :
    w % 128 = 82 ∧ decodeRaw w = some (.lzRes d b) := by
  obtain ⟨h7, e0, e1, e2, e3⟩ := shape65 82 0 _ _ 32 w (by decide) (by decide) d.isLt b.isLt (by decide)
    (by omega)
  have k0 := other_bits w 25 7 0 20 12 32 25 7 e3 (by decide)
  refine ⟨h7, ?_⟩
  rw [major52 w h7, decodeMajor52]
  simp only [e0, e1, e2, e3, k0, fin_ofNat, beq_toNat, scope_ofCode, order_ofCode, tag_ofCode, Nat.reduceEqDiff, ↓reduceIte, OfNat.ofNat_ne_zero, and_true, and_false, and_self, false_and, true_and, Option.map_some]
  try rfl

theorem lzWait (b : XReg) (c : XReg) (w : Nat) (hw : w = 67108946 + b.val * 32768 + c.val * 1048576) :
    w % 128 = 82 ∧ decodeRaw w = some (.lzWait b c) := by
  obtain ⟨h7, e0, e1, e2, e3⟩ := shape66 82 0 _ _ 2 w (by decide) (by decide) b.isLt c.isLt (by decide)
    (by omega)
  have k0 := other_bits w 20 12 32 25 7 2 25 7 e3 (by decide)
  refine ⟨h7, ?_⟩
  rw [major52 w h7, decodeMajor52]
  simp only [e0, e1, e2, e3, k0, fin_ofNat, beq_toNat, scope_ofCode, order_ofCode, tag_ofCode, Nat.reduceEqDiff, ↓reduceIte, OfNat.ofNat_ne_zero, and_true, and_false, and_self, false_and, true_and, Option.map_some]
  try rfl

theorem lzFree (b : XReg) (c : XReg) (w : Nat) (hw : w = 100663378 + b.val * 32768 + c.val * 1048576) :
    w % 128 = 82 ∧ decodeRaw w = some (.lzFree b c) := by
  obtain ⟨h7, e0, e1, e2, e3⟩ := shape66 82 0 _ _ 3 w (by decide) (by decide) b.isLt c.isLt (by decide)
    (by omega)
  have k0 := other_bits w 20 12 32 25 7 3 25 7 e3 (by decide)
  refine ⟨h7, ?_⟩
  rw [major52 w h7, decodeMajor52]
  simp only [e0, e1, e2, e3, k0, fin_ofNat, beq_toNat, scope_ofCode, order_ofCode, tag_ofCode, Nat.reduceEqDiff, ↓reduceIte, OfNat.ofNat_ne_zero, and_true, and_false, and_self, false_and, true_and, Option.map_some]
  try rfl

theorem lzScrub (d : XReg) (b : XReg) (w : Nat) (hw : w = 134217810 + d.val * 1024 + b.val * 32768) :
    w % 128 = 82 ∧ decodeRaw w = some (.lzScrub d b) := by
  obtain ⟨h7, e0, e1, e2, e3⟩ := shape65 82 0 _ _ 128 w (by decide) (by decide) d.isLt b.isLt (by decide)
    (by omega)
  have k0 := other_bits w 25 7 0 20 12 128 25 7 e3 (by decide)
  have k1 := other_bits w 25 7 2 20 12 128 25 7 e3 (by decide)
  have k2 := other_bits w 25 7 3 20 12 128 25 7 e3 (by decide)
  refine ⟨h7, ?_⟩
  rw [major52 w h7, decodeMajor52]
  simp only [e0, e1, e2, e3, k0, k1, k2, fin_ofNat, beq_toNat, scope_ofCode, order_ofCode, tag_ofCode, Nat.reduceEqDiff, ↓reduceIte, OfNat.ofNat_ne_zero, and_true, and_false, and_self, false_and, true_and, Option.map_some]
  try rfl

theorem lzFin (b : XReg) (w : Nat) (hw : w = 167772242 + b.val * 32768) :
    w % 128 = 82 ∧ decodeRaw w = some (.lzFin b) := by
  obtain ⟨h7, e0, e1, e2⟩ := shape62 82 0 _ 160 w (by decide) (by decide) b.isLt (by decide)
    (by omega)
  have k0 := other_bits w 25 7 0 20 12 160 25 7 e2 (by decide)
  have k1 := other_bits w 25 7 2 20 12 160 25 7 e2 (by decide)
  have k2 := other_bits w 25 7 3 20 12 160 25 7 e2 (by decide)
  refine ⟨h7, ?_⟩
  rw [major52 w h7, decodeMajor52]
  simp only [e0, e1, e2, k0, k1, k2, fin_ofNat, beq_toNat, scope_ofCode, order_ofCode, tag_ofCode, Nat.reduceEqDiff, ↓reduceIte, OfNat.ofNat_ne_zero, and_true, and_false, and_self, false_and, true_and, Option.map_some]
  try rfl

theorem qsend (h : ChNum) (b : XReg) (a : QNum) (r : Bool) (w : Nat) (hw : w = 83 + h.val * 128 + b.val * 32768 + a.val * 1048576 + r.toNat * 2147483648) :
    w % 128 = 83 ∧ decodeRaw w = some (.qsend h b a r) := by
  obtain ⟨h7, e0, e1, e2, e3, e4, e5⟩ := shape67 83 _ 0 _ _ 0 _ w (by decide) h.isLt (by decide) b.isLt a.isLt (by decide) (toNat_bound r)
    (by rw [hw]; simp only [zero_tile])
  refine ⟨h7, ?_⟩
  rw [major53 w h7, decodeMajor53]
  simp only [e0, e1, e2, e3, e4, e5, fin_ofNat, beq_toNat, scope_ofCode, order_ofCode, tag_ofCode, Nat.reduceEqDiff, ↓reduceIte, OfNat.ofNat_ne_zero, and_true, and_false, and_self, false_and, true_and, Option.map_some]
  try rfl

theorem qrecv (d : QNum) (b : XReg) (c : XReg) (w : Nat) (hw : w = 33554515 + d.val * 1024 + b.val * 32768 + c.val * 1048576) :
    w % 128 = 83 ∧ decodeRaw w = some (.qrecv d b c) := by
  obtain ⟨h7, e0, e1, e2, e3, e4, e5⟩ := shape68 83 0 _ 0 _ _ 1 w (by decide) (by decide) d.isLt (by decide) b.isLt c.isLt (by decide)
    (by omega)
  have k0 := other_bits w 23 8 0 25 7 1 25 6 e5 (by decide)
  refine ⟨h7, ?_⟩
  rw [major53 w h7, decodeMajor53]
  simp only [e0, e1, e2, e3, e4, e5, k0, fin_ofNat, beq_toNat, scope_ofCode, order_ofCode, tag_ofCode, Nat.reduceEqDiff, ↓reduceIte, OfNat.ofNat_ne_zero, and_true, and_false, and_self, false_and, true_and, Option.map_some]
  try rfl

end Sys2Proof.Laws.Raw
end

