-- ==== Sys2Proof/Laws/PerInstr.lean ====
section
/-! SUPPORT. The round trip of encode and decode, instruction by instruction (06 R113 to R124): the words of a
well-formed instruction, a leading word with them where one is needed, decode to that instruction. -/

set_option Elab.async false

namespace Sys2Proof.Laws.RoundTrip

/-- The words of a well-formed instruction that has an encoding decode to it and to nothing else. -/
def Statement (i : Instr) : Prop :=
  i.wf = true → i.isEvent = false → decodeWords (encode i) = .instr i (leadingWord i).isSome

/-- No leading word. -/
theorem plain (i : Instr) (maj : Nat) (hm : maj ≠ 127) (hl : leadingWord i = none)
    (h : encodeWord i % 128 = maj ∧ decodeRaw (encodeWord i) = some i) : Statement i :=
  fun hwf _ => trip_plain i hl (h.1 ▸ hm) h.2 hwf

/-- An immediate that a leading word may extend. -/
theorem imm (n maj : Nat) (hn : 1 ≤ n) (hm : maj ≠ 127) (mk : Int → Instr) (v : Int)
    (hl : leadingWord (mk v) = immLeading n v)
    (h : encodeWord (mk v) % 128 = maj ∧ decodeRaw (encodeWord (mk v)) = some (mk (sx n (immField n v))))
    (hok : (mk v).wf = true → immOk (24 + n) v = true)
    (hwf0 : ∀ u, (mk v).wf = true → immOk (24 + n) u = true → (mk u).wf = true)
    (happ : ∀ p u, applyLeading p (mk u) = some (mk (extendImm p n u))) : Statement (mk v) :=
  fun hwf _ => trip_imm n hn mk v hl (h.1 ▸ hm) h.2 hwf (hok hwf)
    (hwf0 _ hwf (immOk_mono n (24 + n) _ hn (by omega) (immOk_sx n _ hn (immField_bound n v)))) happ

/-- Modifiers that a leading word may carry. -/
theorem mods (i i0 : Instr) (maj : Nat) (rm : Option Rounding) (sat : Bool) (hint : Hint) (ximm : Nat)
    (hx : ximm < 2 ^ 14) (hm : maj ≠ 127) (hl : leadingWord i = modLeading rm sat hint ximm)
    (h : encodeWord i % 128 = maj ∧ decodeRaw (encodeWord i) = some i0) (hwf0 : i0.wf = i.wf)
    (h0 : rm = none ∧ sat = false ∧ hint = .none ∧ ximm = 0 → i0 = i)
    (happ : ∀ p, Mods.read p = some ⟨rm, sat, hint, 0, ximm⟩ → applyLeading p i0 = some i) : Statement i :=
  fun hwf _ => trip_mod i i0 rm sat hint ximm hx hl (h.1 ▸ hm) h.2 hwf (hwf0.trans hwf) h0 happ

/-- An event of the part has no words. -/
theorem event (i : Instr) (h : i.isEvent = true) : Statement i := fun _ he => absurd (h.symm.trans he) (by decide)

theorem add (d : XReg) (a : XReg) (b : XReg) : Statement (.add d a b) :=
  plain _ 1 (by decide) rfl (Raw.add d a b _ rfl)

theorem sub (d : XReg) (a : XReg) (b : XReg) : Statement (.sub d a b) :=
  plain _ 1 (by decide) rfl (Raw.sub d a b _ rfl)

theorem and (d : XReg) (a : XReg) (b : XReg) : Statement (.and d a b) :=
  plain _ 1 (by decide) rfl (Raw.and d a b _ rfl)

theorem or (d : XReg) (a : XReg) (b : XReg) : Statement (.or d a b) :=
  plain _ 1 (by decide) rfl (Raw.or d a b _ rfl)

theorem xor (d : XReg) (a : XReg) (b : XReg) : Statement (.xor d a b) :=
  plain _ 1 (by decide) rfl (Raw.xor d a b _ rfl)

theorem andn (d : XReg) (a : XReg) (b : XReg) : Statement (.andn d a b) :=
  plain _ 1 (by decide) rfl (Raw.andn d a b _ rfl)

theorem sll (d : XReg) (a : XReg) (b : XReg) : Statement (.sll d a b) :=
  plain _ 1 (by decide) rfl (Raw.sll d a b _ rfl)

theorem srl (d : XReg) (a : XReg) (b : XReg) : Statement (.srl d a b) :=
  plain _ 1 (by decide) rfl (Raw.srl d a b _ rfl)

theorem sra (d : XReg) (a : XReg) (b : XReg) : Statement (.sra d a b) :=
  plain _ 1 (by decide) rfl (Raw.sra d a b _ rfl)

theorem rol (d : XReg) (a : XReg) (b : XReg) : Statement (.rol d a b) :=
  plain _ 1 (by decide) rfl (Raw.rol d a b _ rfl)

theorem ror (d : XReg) (a : XReg) (b : XReg) : Statement (.ror d a b) :=
  plain _ 1 (by decide) rfl (Raw.ror d a b _ rfl)

theorem min (d : XReg) (a : XReg) (b : XReg) : Statement (.min d a b) :=
  plain _ 1 (by decide) rfl (Raw.min d a b _ rfl)

theorem max (d : XReg) (a : XReg) (b : XReg) : Statement (.max d a b) :=
  plain _ 1 (by decide) rfl (Raw.max d a b _ rfl)

theorem minu (d : XReg) (a : XReg) (b : XReg) : Statement (.minu d a b) :=
  plain _ 1 (by decide) rfl (Raw.minu d a b _ rfl)

theorem maxu (d : XReg) (a : XReg) (b : XReg) : Statement (.maxu d a b) :=
  plain _ 1 (by decide) rfl (Raw.maxu d a b _ rfl)

theorem csel (d : XReg) (a : XReg) (b : XReg) (n : CBit) : Statement (.csel d a b n) :=
  plain _ 1 (by decide) rfl (Raw.csel d a b n _ rfl)

theorem addi (d : XReg) (a : XReg) (i : Int) : Statement (.addi d a i) :=
  imm 12 2 (by decide) (by decide) (fun u => .addi d a u) i rfl (Raw.addi d a i _ rfl) (fun h => h) (fun _ _ h => h) (fun _ _ => rfl)

theorem andi (d : XReg) (a : XReg) (i : Int) : Statement (.andi d a i) :=
  imm 12 2 (by decide) (by decide) (fun u => .andi d a u) i rfl (Raw.andi d a i _ rfl) (fun h => h) (fun _ _ h => h) (fun _ _ => rfl)

theorem ori (d : XReg) (a : XReg) (i : Int) : Statement (.ori d a i) :=
  imm 12 2 (by decide) (by decide) (fun u => .ori d a u) i rfl (Raw.ori d a i _ rfl) (fun h => h) (fun _ _ h => h) (fun _ _ => rfl)

theorem xori (d : XReg) (a : XReg) (i : Int) : Statement (.xori d a i) :=
  imm 12 2 (by decide) (by decide) (fun u => .xori d a u) i rfl (Raw.xori d a i _ rfl) (fun h => h) (fun _ _ h => h) (fun _ _ => rfl)

theorem slli (d : XReg) (a : XReg) (s : Fin 64) : Statement (.slli d a s) :=
  plain _ 2 (by decide) rfl (Raw.slli d a s _ rfl)

theorem srli (d : XReg) (a : XReg) (s : Fin 64) : Statement (.srli d a s) :=
  plain _ 2 (by decide) rfl (Raw.srli d a s _ rfl)

theorem srai (d : XReg) (a : XReg) (s : Fin 64) : Statement (.srai d a s) :=
  plain _ 2 (by decide) rfl (Raw.srai d a s _ rfl)

theorem rori (d : XReg) (a : XReg) (s : Fin 64) : Statement (.rori d a s) :=
  plain _ 2 (by decide) rfl (Raw.rori d a s _ rfl)

theorem lui (d : XReg) (i : Int) : Statement (.lui d i) :=
  imm 20 3 (by decide) (by decide) (fun u => .lui d u) i rfl (Raw.lui d i _ rfl) (fun h => h) (fun _ _ h => h) (fun _ _ => rfl)

theorem lb (d : XReg) (a : XReg) (o : Int) : Statement (.lb d a o) :=
  imm 12 4 (by decide) (by decide) (fun u => .lb d a u) o rfl (Raw.lb d a o _ rfl) (fun h => h) (fun _ _ h => h) (fun _ _ => rfl)

theorem lh (d : XReg) (a : XReg) (o : Int) : Statement (.lh d a o) :=
  imm 12 4 (by decide) (by decide) (fun u => .lh d a u) o rfl (Raw.lh d a o _ rfl) (fun h => h) (fun _ _ h => h) (fun _ _ => rfl)

theorem lw (d : XReg) (a : XReg) (o : Int) : Statement (.lw d a o) :=
  imm 12 4 (by decide) (by decide) (fun u => .lw d a u) o rfl (Raw.lw d a o _ rfl) (fun h => h) (fun _ _ h => h) (fun _ _ => rfl)

theorem ld (d : XReg) (a : XReg) (o : Int) : Statement (.ld d a o) :=
  imm 12 4 (by decide) (by decide) (fun u => .ld d a u) o rfl (Raw.ld d a o _ rfl) (fun h => h) (fun _ _ h => h) (fun _ _ => rfl)

theorem lbu (d : XReg) (a : XReg) (o : Int) : Statement (.lbu d a o) :=
  imm 12 4 (by decide) (by decide) (fun u => .lbu d a u) o rfl (Raw.lbu d a o _ rfl) (fun h => h) (fun _ _ h => h) (fun _ _ => rfl)

theorem lhu (d : XReg) (a : XReg) (o : Int) : Statement (.lhu d a o) :=
  imm 12 4 (by decide) (by decide) (fun u => .lhu d a u) o rfl (Raw.lhu d a o _ rfl) (fun h => h) (fun _ _ h => h) (fun _ _ => rfl)

theorem lwu (d : XReg) (a : XReg) (o : Int) : Statement (.lwu d a o) :=
  imm 12 4 (by decide) (by decide) (fun u => .lwu d a u) o rfl (Raw.lwu d a o _ rfl) (fun h => h) (fun _ _ h => h) (fun _ _ => rfl)

theorem sb (s : XReg) (a : XReg) (o : Int) : Statement (.sb s a o) :=
  imm 12 5 (by decide) (by decide) (fun u => .sb s a u) o rfl (Raw.sb s a o _ rfl) (fun h => h) (fun _ _ h => h) (fun _ _ => rfl)

theorem sh (s : XReg) (a : XReg) (o : Int) : Statement (.sh s a o) :=
  imm 12 5 (by decide) (by decide) (fun u => .sh s a u) o rfl (Raw.sh s a o _ rfl) (fun h => h) (fun _ _ h => h) (fun _ _ => rfl)

theorem sw (s : XReg) (a : XReg) (o : Int) : Statement (.sw s a o) :=
  imm 12 5 (by decide) (by decide) (fun u => .sw s a u) o rfl (Raw.sw s a o _ rfl) (fun h => h) (fun _ _ h => h) (fun _ _ => rfl)

theorem sd (s : XReg) (a : XReg) (o : Int) : Statement (.sd s a o) :=
  imm 12 5 (by decide) (by decide) (fun u => .sd s a u) o rfl (Raw.sd s a o _ rfl) (fun h => h) (fun _ _ h => h) (fun _ _ => rfl)

theorem bc (c : CBit) (k : Fin 4) (o : Int) : Statement (.bc c k o) :=
  imm 19 6 (by decide) (by decide) (fun u => .bc c k u) o rfl (Raw.bc c k o _ rfl)
    (by simp only [Instr.wf, Bool.and_eq_true]; exact fun h => h.1)
    (by simp only [Instr.wf, Bool.and_eq_true]; exact fun _ h hu => ⟨hu, h.2⟩) (fun _ _ => rfl)

theorem bnc (c : CBit) (k : Fin 4) (o : Int) : Statement (.bnc c k o) :=
  imm 19 6 (by decide) (by decide) (fun u => .bnc c k u) o rfl (Raw.bnc c k o _ rfl)
    (by simp only [Instr.wf, Bool.and_eq_true]; exact fun h => h.1)
    (by simp only [Instr.wf, Bool.and_eq_true]; exact fun _ h hu => ⟨hu, h.2⟩) (fun _ _ => rfl)

theorem jal (d : XReg) (o : Int) : Statement (.jal d o) :=
  imm 20 7 (by decide) (by decide) (fun u => .jal d u) o rfl (Raw.jal d o _ rfl) (fun h => h) (fun _ _ h => h) (fun _ _ => rfl)

theorem jalr (d : XReg) (a : XReg) (i : Int) : Statement (.jalr d a i) :=
  imm 12 8 (by decide) (by decide) (fun u => .jalr d a u) i rfl (Raw.jalr d a i _ rfl) (fun h => h) (fun _ _ h => h) (fun _ _ => rfl)

theorem cmpiEq (c : CBit) (a : XReg) (i : Int) : Statement (.cmpiEq c a i) :=
  imm 12 9 (by decide) (by decide) (fun u => .cmpiEq c a u) i rfl (Raw.cmpiEq c a i _ rfl) (fun h => h) (fun _ _ h => h) (fun _ _ => rfl)

theorem cmpiLt (c : CBit) (a : XReg) (i : Int) : Statement (.cmpiLt c a i) :=
  imm 12 9 (by decide) (by decide) (fun u => .cmpiLt c a u) i rfl (Raw.cmpiLt c a i _ rfl) (fun h => h) (fun _ _ h => h) (fun _ _ => rfl)

theorem cmpiLtu (c : CBit) (a : XReg) (i : Int) : Statement (.cmpiLtu c a i) :=
  imm 12 9 (by decide) (by decide) (fun u => .cmpiLtu c a u) i rfl (Raw.cmpiLtu c a i _ rfl) (fun h => h) (fun _ _ h => h) (fun _ _ => rfl)

theorem cmpEq (c : CBit) (a : XReg) (b : XReg) : Statement (.cmpEq c a b) :=
  plain _ 9 (by decide) rfl (Raw.cmpEq c a b _ rfl)

theorem cmpLt (c : CBit) (a : XReg) (b : XReg) : Statement (.cmpLt c a b) :=
  plain _ 9 (by decide) rfl (Raw.cmpLt c a b _ rfl)

theorem cmpLtu (c : CBit) (a : XReg) (b : XReg) : Statement (.cmpLtu c a b) :=
  plain _ 9 (by decide) rfl (Raw.cmpLtu c a b _ rfl)

theorem cmpTst (c : CBit) (a : XReg) (b : XReg) : Statement (.cmpTst c a b) :=
  plain _ 9 (by decide) rfl (Raw.cmpTst c a b _ rfl)

theorem cand (d : CBit) (s : CBit) (t : CBit) : Statement (.cand d s t) :=
  plain _ 9 (by decide) rfl (Raw.cand d s t _ rfl)

theorem cor (d : CBit) (s : CBit) (t : CBit) : Statement (.cor d s t) :=
  plain _ 9 (by decide) rfl (Raw.cor d s t _ rfl)

theorem cxor (d : CBit) (s : CBit) (t : CBit) : Statement (.cxor d s t) :=
  plain _ 9 (by decide) rfl (Raw.cxor d s t _ rfl)

theorem candn (d : CBit) (s : CBit) (t : CBit) : Statement (.candn d s t) :=
  plain _ 9 (by decide) rfl (Raw.candn d s t _ rfl)

theorem movs (d : XReg) (r : Fin 4096) : Statement (.movs d r) :=
  plain _ 10 (by decide) rfl (Raw.movs d r _ rfl)

theorem smov (a : XReg) (r : Fin 4096) : Statement (.smov a r) :=
  plain _ 10 (by decide) rfl (Raw.smov a r _ rfl)

theorem trap (i : Int) : Statement (.trap i) :=
  fun hwf he => plain (.trap i) 11 (by decide) rfl
    (by have h := Raw.trap i _ rfl; rw [sx_immField 12 i (by decide) hwf] at h; exact h) hwf he

theorem ebreak : Statement (.ebreak) :=
  plain _ 11 (by decide) rfl (Raw.ebreak _ rfl)

theorem kret : Statement (.kret) :=
  plain _ 11 (by decide) rfl (Raw.kret _ rfl)

theorem mcall (i : Int) : Statement (.mcall i) :=
  fun hwf he => plain (.mcall i) 11 (by decide) rfl
    (by have h := Raw.mcall i _ rfl; rw [sx_immField 12 i (by decide) hwf] at h; exact h) hwf he

theorem monret : Statement (.monret) :=
  plain _ 11 (by decide) rfl (Raw.monret _ rfl)

theorem invpg (s : XReg) (a : XReg) : Statement (.invpg s a) :=
  plain _ 11 (by decide) rfl (Raw.invpg s a _ rfl)

theorem invpgG (a : XReg) : Statement (.invpgG a) :=
  plain _ 11 (by decide) rfl (Raw.invpgG a _ rfl)

theorem hend (s : Fin 4096) : Statement (.hend s) :=
  plain _ 11 (by decide) rfl (Raw.hend s _ rfl)

theorem mul (d : XReg) (a : XReg) (b : XReg) : Statement (.mul d a b) :=
  plain _ 12 (by decide) rfl (Raw.mul d a b _ rfl)

theorem mulhiSs (d : XReg) (a : XReg) (b : XReg) : Statement (.mulhiSs d a b) :=
  plain _ 12 (by decide) rfl (Raw.mulhiSs d a b _ rfl)

theorem mulhiUu (d : XReg) (a : XReg) (b : XReg) : Statement (.mulhiUu d a b) :=
  plain _ 12 (by decide) rfl (Raw.mulhiUu d a b _ rfl)

theorem mulhiSu (d : XReg) (a : XReg) (b : XReg) : Statement (.mulhiSu d a b) :=
  plain _ 12 (by decide) rfl (Raw.mulhiSu d a b _ rfl)

theorem div (d : XReg) (a : XReg) (b : XReg) : Statement (.div d a b) :=
  plain _ 12 (by decide) rfl (Raw.div d a b _ rfl)

theorem divu (d : XReg) (a : XReg) (b : XReg) : Statement (.divu d a b) :=
  plain _ 12 (by decide) rfl (Raw.divu d a b _ rfl)

theorem rem (d : XReg) (a : XReg) (b : XReg) : Statement (.rem d a b) :=
  plain _ 12 (by decide) rfl (Raw.rem d a b _ rfl)

theorem remu (d : XReg) (a : XReg) (b : XReg) : Statement (.remu d a b) :=
  plain _ 12 (by decide) rfl (Raw.remu d a b _ rfl)

theorem faddS (d : XReg) (a : XReg) (b : XReg) (rm : Option Rounding) : Statement (.faddS d a b rm) :=
  mods _ (.faddS d a b none) 13 rm false .none 0 (by decide) (by decide) rfl (Raw.faddS d a b rm _ rfl) rfl
    (fun h => by cases h.1; rfl) (fun p hp => by unfold applyLeading; rw [hp]; rfl)

theorem faddD (d : XReg) (a : XReg) (b : XReg) (rm : Option Rounding) : Statement (.faddD d a b rm) :=
  mods _ (.faddD d a b none) 13 rm false .none 0 (by decide) (by decide) rfl (Raw.faddD d a b rm _ rfl) rfl
    (fun h => by cases h.1; rfl) (fun p hp => by unfold applyLeading; rw [hp]; rfl)

theorem fsubS (d : XReg) (a : XReg) (b : XReg) (rm : Option Rounding) : Statement (.fsubS d a b rm) :=
  mods _ (.fsubS d a b none) 13 rm false .none 0 (by decide) (by decide) rfl (Raw.fsubS d a b rm _ rfl) rfl
    (fun h => by cases h.1; rfl) (fun p hp => by unfold applyLeading; rw [hp]; rfl)

theorem fsubD (d : XReg) (a : XReg) (b : XReg) (rm : Option Rounding) : Statement (.fsubD d a b rm) :=
  mods _ (.fsubD d a b none) 13 rm false .none 0 (by decide) (by decide) rfl (Raw.fsubD d a b rm _ rfl) rfl
    (fun h => by cases h.1; rfl) (fun p hp => by unfold applyLeading; rw [hp]; rfl)

theorem fmulS (d : XReg) (a : XReg) (b : XReg) (rm : Option Rounding) : Statement (.fmulS d a b rm) :=
  mods _ (.fmulS d a b none) 13 rm false .none 0 (by decide) (by decide) rfl (Raw.fmulS d a b rm _ rfl) rfl
    (fun h => by cases h.1; rfl) (fun p hp => by unfold applyLeading; rw [hp]; rfl)

theorem fmulD (d : XReg) (a : XReg) (b : XReg) (rm : Option Rounding) : Statement (.fmulD d a b rm) :=
  mods _ (.fmulD d a b none) 13 rm false .none 0 (by decide) (by decide) rfl (Raw.fmulD d a b rm _ rfl) rfl
    (fun h => by cases h.1; rfl) (fun p hp => by unfold applyLeading; rw [hp]; rfl)

theorem fdivS (d : XReg) (a : XReg) (b : XReg) (rm : Option Rounding) : Statement (.fdivS d a b rm) :=
  mods _ (.fdivS d a b none) 13 rm false .none 0 (by decide) (by decide) rfl (Raw.fdivS d a b rm _ rfl) rfl
    (fun h => by cases h.1; rfl) (fun p hp => by unfold applyLeading; rw [hp]; rfl)

theorem fdivD (d : XReg) (a : XReg) (b : XReg) (rm : Option Rounding) : Statement (.fdivD d a b rm) :=
  mods _ (.fdivD d a b none) 13 rm false .none 0 (by decide) (by decide) rfl (Raw.fdivD d a b rm _ rfl) rfl
    (fun h => by cases h.1; rfl) (fun p hp => by unfold applyLeading; rw [hp]; rfl)

theorem fsqrtS (d : XReg) (a : XReg) (rm : Option Rounding) : Statement (.fsqrtS d a rm) :=
  mods _ (.fsqrtS d a none) 13 rm false .none 0 (by decide) (by decide) rfl (Raw.fsqrtS d a rm _ rfl) rfl
    (fun h => by cases h.1; rfl) (fun p hp => by unfold applyLeading; rw [hp]; rfl)

theorem fsqrtD (d : XReg) (a : XReg) (rm : Option Rounding) : Statement (.fsqrtD d a rm) :=
  mods _ (.fsqrtD d a none) 13 rm false .none 0 (by decide) (by decide) rfl (Raw.fsqrtD d a rm _ rfl) rfl
    (fun h => by cases h.1; rfl) (fun p hp => by unfold applyLeading; rw [hp]; rfl)

theorem fminS (d : XReg) (a : XReg) (b : XReg) (rm : Option Rounding) : Statement (.fminS d a b rm) :=
  mods _ (.fminS d a b none) 13 rm false .none 0 (by decide) (by decide) rfl (Raw.fminS d a b rm _ rfl) rfl
    (fun h => by cases h.1; rfl) (fun p hp => by unfold applyLeading; rw [hp]; rfl)

theorem fminD (d : XReg) (a : XReg) (b : XReg) (rm : Option Rounding) : Statement (.fminD d a b rm) :=
  mods _ (.fminD d a b none) 13 rm false .none 0 (by decide) (by decide) rfl (Raw.fminD d a b rm _ rfl) rfl
    (fun h => by cases h.1; rfl) (fun p hp => by unfold applyLeading; rw [hp]; rfl)

theorem fmaxS (d : XReg) (a : XReg) (b : XReg) (rm : Option Rounding) : Statement (.fmaxS d a b rm) :=
  mods _ (.fmaxS d a b none) 13 rm false .none 0 (by decide) (by decide) rfl (Raw.fmaxS d a b rm _ rfl) rfl
    (fun h => by cases h.1; rfl) (fun p hp => by unfold applyLeading; rw [hp]; rfl)

theorem fmaxD (d : XReg) (a : XReg) (b : XReg) (rm : Option Rounding) : Statement (.fmaxD d a b rm) :=
  mods _ (.fmaxD d a b none) 13 rm false .none 0 (by decide) (by decide) rfl (Raw.fmaxD d a b rm _ rfl) rfl
    (fun h => by cases h.1; rfl) (fun p hp => by unfold applyLeading; rw [hp]; rfl)

theorem fmacS (d : XReg) (a : XReg) (b : XReg) (rm : Option Rounding) : Statement (.fmacS d a b rm) :=
  mods _ (.fmacS d a b none) 13 rm false .none 0 (by decide) (by decide) rfl (Raw.fmacS d a b rm _ rfl) rfl
    (fun h => by cases h.1; rfl) (fun p hp => by unfold applyLeading; rw [hp]; rfl)

theorem fmacD (d : XReg) (a : XReg) (b : XReg) (rm : Option Rounding) : Statement (.fmacD d a b rm) :=
  mods _ (.fmacD d a b none) 13 rm false .none 0 (by decide) (by decide) rfl (Raw.fmacD d a b rm _ rfl) rfl
    (fun h => by cases h.1; rfl) (fun p hp => by unfold applyLeading; rw [hp]; rfl)

theorem fcmpEqS (c : CBit) (a : XReg) (b : XReg) (rm : Option Rounding) : Statement (.fcmpEqS c a b rm) :=
  mods _ (.fcmpEqS c a b none) 13 rm false .none 0 (by decide) (by decide) rfl (Raw.fcmpEqS c a b rm _ rfl) rfl
    (fun h => by cases h.1; rfl) (fun p hp => by unfold applyLeading; rw [hp]; rfl)

theorem fcmpEqD (c : CBit) (a : XReg) (b : XReg) (rm : Option Rounding) : Statement (.fcmpEqD c a b rm) :=
  mods _ (.fcmpEqD c a b none) 13 rm false .none 0 (by decide) (by decide) rfl (Raw.fcmpEqD c a b rm _ rfl) rfl
    (fun h => by cases h.1; rfl) (fun p hp => by unfold applyLeading; rw [hp]; rfl)

theorem fcmpLtS (c : CBit) (a : XReg) (b : XReg) (rm : Option Rounding) : Statement (.fcmpLtS c a b rm) :=
  mods _ (.fcmpLtS c a b none) 13 rm false .none 0 (by decide) (by decide) rfl (Raw.fcmpLtS c a b rm _ rfl) rfl
    (fun h => by cases h.1; rfl) (fun p hp => by unfold applyLeading; rw [hp]; rfl)

theorem fcmpLtD (c : CBit) (a : XReg) (b : XReg) (rm : Option Rounding) : Statement (.fcmpLtD c a b rm) :=
  mods _ (.fcmpLtD c a b none) 13 rm false .none 0 (by decide) (by decide) rfl (Raw.fcmpLtD c a b rm _ rfl) rfl
    (fun h => by cases h.1; rfl) (fun p hp => by unfold applyLeading; rw [hp]; rfl)

theorem fcmpLeS (c : CBit) (a : XReg) (b : XReg) (rm : Option Rounding) : Statement (.fcmpLeS c a b rm) :=
  mods _ (.fcmpLeS c a b none) 13 rm false .none 0 (by decide) (by decide) rfl (Raw.fcmpLeS c a b rm _ rfl) rfl
    (fun h => by cases h.1; rfl) (fun p hp => by unfold applyLeading; rw [hp]; rfl)

theorem fcmpLeD (c : CBit) (a : XReg) (b : XReg) (rm : Option Rounding) : Statement (.fcmpLeD c a b rm) :=
  mods _ (.fcmpLeD c a b none) 13 rm false .none 0 (by decide) (by decide) rfl (Raw.fcmpLeD c a b rm _ rfl) rfl
    (fun h => by cases h.1; rfl) (fun p hp => by unfold applyLeading; rw [hp]; rfl)

theorem fcvtLS (d : XReg) (a : XReg) (rm : Option Rounding) (sat : Bool) : Statement (.fcvtLS d a rm sat) :=
  mods _ (.fcvtLS d a none false) 13 rm sat .none 0 (by decide) (by decide) rfl (Raw.fcvtLS d a rm sat _ rfl) rfl
    (fun h => by cases h.1; cases h.2.1; rfl) (fun p hp => by unfold applyLeading; rw [hp]; rfl)

theorem fcvtLD (d : XReg) (a : XReg) (rm : Option Rounding) (sat : Bool) : Statement (.fcvtLD d a rm sat) :=
  mods _ (.fcvtLD d a none false) 13 rm sat .none 0 (by decide) (by decide) rfl (Raw.fcvtLD d a rm sat _ rfl) rfl
    (fun h => by cases h.1; cases h.2.1; rfl) (fun p hp => by unfold applyLeading; rw [hp]; rfl)

theorem fcvtLuS (d : XReg) (a : XReg) (rm : Option Rounding) (sat : Bool) : Statement (.fcvtLuS d a rm sat) :=
  mods _ (.fcvtLuS d a none false) 13 rm sat .none 0 (by decide) (by decide) rfl (Raw.fcvtLuS d a rm sat _ rfl) rfl
    (fun h => by cases h.1; cases h.2.1; rfl) (fun p hp => by unfold applyLeading; rw [hp]; rfl)

theorem fcvtLuD (d : XReg) (a : XReg) (rm : Option Rounding) (sat : Bool) : Statement (.fcvtLuD d a rm sat) :=
  mods _ (.fcvtLuD d a none false) 13 rm sat .none 0 (by decide) (by decide) rfl (Raw.fcvtLuD d a rm sat _ rfl) rfl
    (fun h => by cases h.1; cases h.2.1; rfl) (fun p hp => by unfold applyLeading; rw [hp]; rfl)

theorem fcvtSL (d : XReg) (a : XReg) (rm : Option Rounding) : Statement (.fcvtSL d a rm) :=
  mods _ (.fcvtSL d a none) 13 rm false .none 0 (by decide) (by decide) rfl (Raw.fcvtSL d a rm _ rfl) rfl
    (fun h => by cases h.1; rfl) (fun p hp => by unfold applyLeading; rw [hp]; rfl)

theorem fcvtDL (d : XReg) (a : XReg) (rm : Option Rounding) : Statement (.fcvtDL d a rm) :=
  mods _ (.fcvtDL d a none) 13 rm false .none 0 (by decide) (by decide) rfl (Raw.fcvtDL d a rm _ rfl) rfl
    (fun h => by cases h.1; rfl) (fun p hp => by unfold applyLeading; rw [hp]; rfl)

theorem fcvtSLu (d : XReg) (a : XReg) (rm : Option Rounding) : Statement (.fcvtSLu d a rm) :=
  mods _ (.fcvtSLu d a none) 13 rm false .none 0 (by decide) (by decide) rfl (Raw.fcvtSLu d a rm _ rfl) rfl
    (fun h => by cases h.1; rfl) (fun p hp => by unfold applyLeading; rw [hp]; rfl)

theorem fcvtDLu (d : XReg) (a : XReg) (rm : Option Rounding) : Statement (.fcvtDLu d a rm) :=
  mods _ (.fcvtDLu d a none) 13 rm false .none 0 (by decide) (by decide) rfl (Raw.fcvtDLu d a rm _ rfl) rfl
    (fun h => by cases h.1; rfl) (fun p hp => by unfold applyLeading; rw [hp]; rfl)

theorem fcvtSD (d : XReg) (a : XReg) (rm : Option Rounding) (sat : Bool) : Statement (.fcvtSD d a rm sat) :=
  mods _ (.fcvtSD d a none false) 13 rm sat .none 0 (by decide) (by decide) rfl (Raw.fcvtSD d a rm sat _ rfl) rfl
    (fun h => by cases h.1; cases h.2.1; rfl) (fun p hp => by unfold applyLeading; rw [hp]; rfl)

theorem fcvtDS (d : XReg) (a : XReg) (rm : Option Rounding) : Statement (.fcvtDS d a rm) :=
  mods _ (.fcvtDS d a none) 13 rm false .none 0 (by decide) (by decide) rfl (Raw.fcvtDS d a rm _ rfl) rfl
    (fun h => by cases h.1; rfl) (fun p hp => by unfold applyLeading; rw [hp]; rfl)

theorem clz (d : XReg) (a : XReg) : Statement (.clz d a) :=
  plain _ 14 (by decide) rfl (Raw.clz d a _ rfl)

theorem ctz (d : XReg) (a : XReg) : Statement (.ctz d a) :=
  plain _ 14 (by decide) rfl (Raw.ctz d a _ rfl)

theorem popc (d : XReg) (a : XReg) : Statement (.popc d a) :=
  plain _ 14 (by decide) rfl (Raw.popc d a _ rfl)

theorem bswap (d : XReg) (a : XReg) : Statement (.bswap d a) :=
  plain _ 14 (by decide) rfl (Raw.bswap d a _ rfl)

theorem bfx (d : XReg) (a : XReg) (l : Fin 64) (p : Fin 64) : Statement (.bfx d a l p) :=
  plain _ 14 (by decide) rfl (Raw.bfx d a l p _ rfl)

theorem bfxu (d : XReg) (a : XReg) (l : Fin 64) (p : Fin 64) : Statement (.bfxu d a l p) :=
  plain _ 14 (by decide) rfl (Raw.bfxu d a l p _ rfl)

theorem bfi (d : XReg) (a : XReg) (l : Fin 64) (p : Fin 64) : Statement (.bfi d a l p) :=
  plain _ 14 (by decide) rfl (Raw.bfi d a l p _ rfl)

theorem fsh (d : XReg) (a : XReg) (s : Fin 64) (b : XReg) : Statement (.fsh d a s b) :=
  plain _ 14 (by decide) rfl (Raw.fsh d a s b _ rfl)

theorem fshv (d : XReg) (a : XReg) (c : XReg) (b : XReg) : Statement (.fshv d a c b) :=
  plain _ 14 (by decide) rfl (Raw.fshv d a c b _ rfl)

theorem bfxuv (d : XReg) (a : XReg) (l : Fin 64) (b : XReg) : Statement (.bfxuv d a l b) :=
  plain _ 14 (by decide) rfl (Raw.bfxuv d a l b _ rfl)

theorem amoAdd (d : XReg) (a : XReg) (b : XReg) (o : Order) (s : Scope) (z : Bool) : Statement (.amoAdd d a b o s z) :=
  plain _ 16 (by decide) rfl (Raw.amoAdd d a b o s z _ rfl)

theorem amoAnd (d : XReg) (a : XReg) (b : XReg) (o : Order) (s : Scope) (z : Bool) : Statement (.amoAnd d a b o s z) :=
  plain _ 16 (by decide) rfl (Raw.amoAnd d a b o s z _ rfl)

theorem amoOr (d : XReg) (a : XReg) (b : XReg) (o : Order) (s : Scope) (z : Bool) : Statement (.amoOr d a b o s z) :=
  plain _ 16 (by decide) rfl (Raw.amoOr d a b o s z _ rfl)

theorem amoXor (d : XReg) (a : XReg) (b : XReg) (o : Order) (s : Scope) (z : Bool) : Statement (.amoXor d a b o s z) :=
  plain _ 16 (by decide) rfl (Raw.amoXor d a b o s z _ rfl)

theorem amoMin (d : XReg) (a : XReg) (b : XReg) (o : Order) (s : Scope) (z : Bool) : Statement (.amoMin d a b o s z) :=
  plain _ 16 (by decide) rfl (Raw.amoMin d a b o s z _ rfl)

theorem amoMax (d : XReg) (a : XReg) (b : XReg) (o : Order) (s : Scope) (z : Bool) : Statement (.amoMax d a b o s z) :=
  plain _ 16 (by decide) rfl (Raw.amoMax d a b o s z _ rfl)

theorem amoMinu (d : XReg) (a : XReg) (b : XReg) (o : Order) (s : Scope) (z : Bool) : Statement (.amoMinu d a b o s z) :=
  plain _ 16 (by decide) rfl (Raw.amoMinu d a b o s z _ rfl)

theorem amoMaxu (d : XReg) (a : XReg) (b : XReg) (o : Order) (s : Scope) (z : Bool) : Statement (.amoMaxu d a b o s z) :=
  plain _ 16 (by decide) rfl (Raw.amoMaxu d a b o s z _ rfl)

theorem amoSwap (d : XReg) (a : XReg) (b : XReg) (o : Order) (s : Scope) (z : Bool) : Statement (.amoSwap d a b o s z) :=
  plain _ 16 (by decide) rfl (Raw.amoSwap d a b o s z _ rfl)

theorem amoCas (d : XReg) (a : XReg) (b : XReg) (o : Order) (s : Scope) (z : Bool) : Statement (.amoCas d a b o s z) :=
  plain _ 16 (by decide) rfl (Raw.amoCas d a b o s z _ rfl)

theorem casQ (d : XReg) (a : XReg) (b : XReg) (o : Order) (s : Scope) : Statement (.casQ d a b o s) :=
  plain _ 16 (by decide) rfl (Raw.casQ d a b o s _ rfl)

theorem ldAcq (d : XReg) (a : XReg) (s : Scope) (z : Bool) : Statement (.ldAcq d a s z) :=
  plain _ 16 (by decide) rfl (Raw.ldAcq d a s z _ rfl)

theorem stRel (a : XReg) (b : XReg) (s : Scope) (z : Bool) : Statement (.stRel a b s z) :=
  plain _ 16 (by decide) rfl (Raw.stRel a b s z _ rfl)

theorem fence (sLd : Bool) (sSt : Bool) (sEng : Bool) (sRem : Bool) (s : Scope) : Statement (.fence sLd sSt sEng sRem s) :=
  plain _ 17 (by decide) rfl (Raw.fence sLd sSt sEng sRem s _ rfl)

theorem ifence : Statement (.ifence) :=
  plain _ 17 (by decide) rfl (Raw.ifence _ rfl)

theorem waitge (d : XReg) (a : XReg) (b : XReg) (s : Scope) (z : Bool) : Statement (.waitge d a b s z) :=
  plain _ 18 (by decide) rfl (Raw.waitge d a b s z _ rfl)

theorem waiteq (d : XReg) (a : XReg) (b : XReg) (s : Scope) (z : Bool) : Statement (.waiteq d a b s z) :=
  plain _ 18 (by decide) rfl (Raw.waiteq d a b s z _ rfl)

theorem barInit (d : XReg) (a : XReg) (b : XReg) : Statement (.barInit d a b) :=
  plain _ 19 (by decide) rfl (Raw.barInit d a b _ rfl)

theorem barArrive (d : XReg) (a : XReg) (s : Scope) : Statement (.barArrive d a s) :=
  plain _ 19 (by decide) rfl (Raw.barArrive d a s _ rfl)

theorem barWait (a : XReg) (b : XReg) (s : Scope) : Statement (.barWait a b s) :=
  plain _ 19 (by decide) rfl (Raw.barWait a b s _ rfl)

theorem barFin (a : XReg) : Statement (.barFin a) :=
  plain _ 19 (by decide) rfl (Raw.barFin a _ rfl)

theorem farmDef (s : XReg) (a : XReg) : Statement (.farmDef s a) :=
  plain _ 20 (by decide) rfl (Raw.farmDef s a _ rfl)

theorem farmNext (d : XReg) (n : CBit) : Statement (.farmNext d n) :=
  plain _ 20 (by decide) rfl (Raw.farmNext d n _ rfl)

theorem farmEnd : Statement (.farmEnd) :=
  plain _ 20 (by decide) rfl (Raw.farmEnd _ rfl)

theorem scommit : Statement (.scommit) :=
  plain _ 20 (by decide) rfl (Raw.scommit _ rfl)

theorem sabort : Statement (.sabort) :=
  plain _ 20 (by decide) rfl (Raw.sabort _ rfl)

theorem sbegin (o : Int) : Statement (.sbegin o) :=
  imm 12 20 (by decide) (by decide) (fun u => .sbegin u) o rfl (Raw.sbegin o _ rfl) (fun h => h) (fun _ _ h => h) (fun _ _ => rfl)

theorem launch (d : XReg) (a : XReg) (b : XReg) : Statement (.launch d a b) :=
  plain _ 21 (by decide) rfl (Raw.launch d a b _ rfl)

theorem setvl (d : XReg) (a : XReg) (t : Tag) (g : Fin 4) : Statement (.setvl d a t g) :=
  plain _ 32 (by decide) rfl (Raw.setvl d a t g _ rfl)

theorem setvlH (d : XReg) (a : XReg) (t : Tag) (g : Fin 4) : Statement (.setvlH d a t g) :=
  plain _ 32 (by decide) rfl (Raw.setvlH d a t g _ rfl)

theorem vld (d : VNum) (a : XReg) (o : Bool) (m : MNum) (hint : Hint) : Statement (.vld d a o m hint) :=
  mods _ (.vld d a o m .none) 33 none false hint 0 (by decide) (by decide) rfl (Raw.vld d a o m hint _ rfl) rfl
    (fun h => by cases h.2.2.1; rfl) (fun p hp => by unfold applyLeading; rw [hp]; rfl)

theorem vldff (d : VNum) (a : XReg) (m : MNum) (hint : Hint) : Statement (.vldff d a m hint) :=
  mods _ (.vldff d a m .none) 33 none false hint 0 (by decide) (by decide) rfl (Raw.vldff d a m hint _ rfl) rfl
    (fun h => by cases h.2.2.1; rfl) (fun p hp => by unfold applyLeading; rw [hp]; rfl)

theorem vlds (d : VNum) (a : XReg) (s : XReg) (o : Bool) (m : MNum) (hint : Hint) : Statement (.vlds d a s o m hint) :=
  mods _ (.vlds d a s o m .none) 33 none false hint 0 (by decide) (by decide) rfl (Raw.vlds d a s o m hint _ rfl) rfl
    (fun h => by cases h.2.2.1; rfl) (fun p hp => by unfold applyLeading; rw [hp]; rfl)

theorem vst (v : VNum) (a : XReg) (o : Bool) (m : MNum) : Statement (.vst v a o m) :=
  plain _ 33 (by decide) rfl (Raw.vst v a o m _ rfl)

theorem vsts (v : VNum) (a : XReg) (s : XReg) (o : Bool) (m : MNum) : Statement (.vsts v a s o m) :=
  plain _ 33 (by decide) rfl (Raw.vsts v a s o m _ rfl)

theorem vldx (d : VNum) (a : XReg) (i : VNum) (c : Bool) (o : Bool) (m : MNum) (hint : Hint) : Statement (.vldx d a i c o m hint) :=
  mods _ (.vldx d a i c o m .none) 34 none false hint 0 (by decide) (by decide) rfl (Raw.vldx d a i c o m hint _ rfl) rfl
    (fun h => by cases h.2.2.1; rfl) (fun p hp => by unfold applyLeading; rw [hp]; rfl)

theorem vldxFar (d : VNum) (a : XReg) (i : VNum) (c : Bool) (o : Bool) (m : MNum) (hint : Hint) : Statement (.vldxFar d a i c o m hint) :=
  mods _ (.vldxFar d a i c o m .none) 34 none false hint 0 (by decide) (by decide) rfl (Raw.vldxFar d a i c o m hint _ rfl) rfl
    (fun h => by cases h.2.2.1; rfl) (fun p hp => by unfold applyLeading; rw [hp]; rfl)

theorem vstx (v : VNum) (a : XReg) (i : VNum) (c : Bool) (o : Bool) (m : MNum) : Statement (.vstx v a i c o m) :=
  plain _ 34 (by decide) rfl (Raw.vstx v a i c o m _ rfl)

theorem vstxFar (v : VNum) (a : XReg) (i : VNum) (c : Bool) (o : Bool) (m : MNum) : Statement (.vstxFar v a i c o m) :=
  plain _ 34 (by decide) rfl (Raw.vstxFar v a i c o m _ rfl)

theorem vldseg (d : VNum) (a : XReg) (o : Bool) (m : MNum) (n : Fin 8) (hint : Hint) : Statement (.vldseg d a o m n hint) :=
  mods _ (.vldseg d a o m n .none) 35 none false hint 0 (by decide) (by decide) rfl (Raw.vldseg d a o m n hint _ rfl) rfl
    (fun h => by cases h.2.2.1; rfl) (fun p hp => by unfold applyLeading; rw [hp]; rfl)

theorem vstseg (v : VNum) (a : XReg) (o : Bool) (m : MNum) (n : Fin 8) : Statement (.vstseg v a o m n) :=
  plain _ 35 (by decide) rfl (Raw.vstseg v a o m n _ rfl)

theorem vldsegP (d : VNum) (a : XReg) (i : VNum) (c : Bool) (m : MNum) (n : Fin 8) (hint : Hint) : Statement (.vldsegP d a i c m n hint) :=
  mods _ (.vldsegP d a i c m n .none) 35 none false hint 0 (by decide) (by decide) rfl (Raw.vldsegP d a i c m n hint _ rfl) rfl
    (fun h => by cases h.2.2.1; rfl) (fun p hp => by unfold applyLeading; rw [hp]; rfl)

theorem vstsegP (v : VNum) (a : XReg) (i : VNum) (c : Bool) (o : Bool) (m : MNum) (n : Fin 8) : Statement (.vstsegP v a i c o m n) :=
  plain _ 35 (by decide) rfl (Raw.vstsegP v a i c o m n _ rfl)

theorem vld2 (d : VNum) (a : XReg) (o : Bool) (m : MNum) (hint : Hint) : Statement (.vld2 d a o m hint) :=
  mods _ (.vld2 d a o m .none) 36 none false hint 0 (by decide) (by decide) rfl (Raw.vld2 d a o m hint _ rfl) rfl
    (fun h => by cases h.2.2.1; rfl) (fun p hp => by unfold applyLeading; rw [hp]; rfl)

theorem vst2 (v : VNum) (a : XReg) (o : Bool) (m : MNum) : Statement (.vst2 v a o m) :=
  plain _ 36 (by decide) rfl (Raw.vst2 v a o m _ rfl)

theorem vsbind (d : VNum) (a : XReg) (s : XReg) (n : SNum) : Statement (.vsbind d a s n) :=
  plain _ 37 (by decide) rfl (Raw.vsbind d a s n _ rfl)

theorem vsunbind (d : VNum) : Statement (.vsunbind d) :=
  plain _ 37 (by decide) rfl (Raw.vsunbind d _ rfl)

theorem vtag (d : VNum) (t : Tag) : Statement (.vtag d t) :=
  plain _ 41 (by decide) rfl (Raw.vtag d t _ rfl)

theorem vtagr (d : VNum) (b : XReg) : Statement (.vtagr d b) :=
  plain _ 41 (by decide) rfl (Raw.vtagr d b _ rfl)

theorem spdisc (a : XReg) (b : XReg) : Statement (.spdisc a b) :=
  plain _ 41 (by decide) rfl (Raw.spdisc a b _ rfl)

theorem spkeep (a : XReg) (b : XReg) : Statement (.spkeep a b) :=
  plain _ 41 (by decide) rfl (Raw.spkeep a b _ rfl)

theorem vadd (d : VNum) (a : VNum) (b : VNum) (q : Bool) (p : Bool) (m : MNum) (rm : Option Rounding) (sat : Bool) : Statement (.vadd d a b q p m rm sat) :=
  mods _ (.vadd d a b q p m none false) 48 rm sat .none 0 (by decide) (by decide) rfl (Raw.vadd d a b q p m rm sat _ rfl) rfl
    (fun h => by cases h.1; cases h.2.1; rfl) (fun p hp => by unfold applyLeading; rw [hp]; rfl)

theorem vsub (d : VNum) (a : VNum) (b : VNum) (q : Bool) (p : Bool) (m : MNum) (rm : Option Rounding) (sat : Bool) : Statement (.vsub d a b q p m rm sat) :=
  mods _ (.vsub d a b q p m none false) 48 rm sat .none 0 (by decide) (by decide) rfl (Raw.vsub d a b q p m rm sat _ rfl) rfl
    (fun h => by cases h.1; cases h.2.1; rfl) (fun p hp => by unfold applyLeading; rw [hp]; rfl)

theorem vmul (d : VNum) (a : VNum) (b : VNum) (q : Bool) (p : Bool) (m : MNum) (rm : Option Rounding) (sat : Bool) : Statement (.vmul d a b q p m rm sat) :=
  mods _ (.vmul d a b q p m none false) 48 rm sat .none 0 (by decide) (by decide) rfl (Raw.vmul d a b q p m rm sat _ rfl) rfl
    (fun h => by cases h.1; cases h.2.1; rfl) (fun p hp => by unfold applyLeading; rw [hp]; rfl)

theorem vdiv (d : VNum) (a : VNum) (b : VNum) (q : Bool) (p : Bool) (m : MNum) (rm : Option Rounding) : Statement (.vdiv d a b q p m rm) :=
  mods _ (.vdiv d a b q p m none) 48 rm false .none 0 (by decide) (by decide) rfl (Raw.vdiv d a b q p m rm _ rfl) rfl
    (fun h => by cases h.1; rfl) (fun p hp => by unfold applyLeading; rw [hp]; rfl)

theorem vrem (d : VNum) (a : VNum) (b : VNum) (q : Bool) (p : Bool) (m : MNum) (rm : Option Rounding) : Statement (.vrem d a b q p m rm) :=
  mods _ (.vrem d a b q p m none) 48 rm false .none 0 (by decide) (by decide) rfl (Raw.vrem d a b q p m rm _ rfl) rfl
    (fun h => by cases h.1; rfl) (fun p hp => by unfold applyLeading; rw [hp]; rfl)

theorem vmin (d : VNum) (a : VNum) (b : VNum) (q : Bool) (p : Bool) (m : MNum) (rm : Option Rounding) : Statement (.vmin d a b q p m rm) :=
  mods _ (.vmin d a b q p m none) 48 rm false .none 0 (by decide) (by decide) rfl (Raw.vmin d a b q p m rm _ rfl) rfl
    (fun h => by cases h.1; rfl) (fun p hp => by unfold applyLeading; rw [hp]; rfl)

theorem vmax (d : VNum) (a : VNum) (b : VNum) (q : Bool) (p : Bool) (m : MNum) (rm : Option Rounding) : Statement (.vmax d a b q p m rm) :=
  mods _ (.vmax d a b q p m none) 48 rm false .none 0 (by decide) (by decide) rfl (Raw.vmax d a b q p m rm _ rfl) rfl
    (fun h => by cases h.1; rfl) (fun p hp => by unfold applyLeading; rw [hp]; rfl)

theorem vand (d : VNum) (a : VNum) (b : VNum) (q : Bool) (p : Bool) (m : MNum) (rm : Option Rounding) : Statement (.vand d a b q p m rm) :=
  mods _ (.vand d a b q p m none) 48 rm false .none 0 (by decide) (by decide) rfl (Raw.vand d a b q p m rm _ rfl) rfl
    (fun h => by cases h.1; rfl) (fun p hp => by unfold applyLeading; rw [hp]; rfl)

theorem vor (d : VNum) (a : VNum) (b : VNum) (q : Bool) (p : Bool) (m : MNum) (rm : Option Rounding) : Statement (.vor d a b q p m rm) :=
  mods _ (.vor d a b q p m none) 48 rm false .none 0 (by decide) (by decide) rfl (Raw.vor d a b q p m rm _ rfl) rfl
    (fun h => by cases h.1; rfl) (fun p hp => by unfold applyLeading; rw [hp]; rfl)

theorem vxor (d : VNum) (a : VNum) (b : VNum) (q : Bool) (p : Bool) (m : MNum) (rm : Option Rounding) : Statement (.vxor d a b q p m rm) :=
  mods _ (.vxor d a b q p m none) 48 rm false .none 0 (by decide) (by decide) rfl (Raw.vxor d a b q p m rm _ rfl) rfl
    (fun h => by cases h.1; rfl) (fun p hp => by unfold applyLeading; rw [hp]; rfl)

theorem vsll (d : VNum) (a : VNum) (b : VNum) (q : Bool) (p : Bool) (m : MNum) (rm : Option Rounding) : Statement (.vsll d a b q p m rm) :=
  mods _ (.vsll d a b q p m none) 48 rm false .none 0 (by decide) (by decide) rfl (Raw.vsll d a b q p m rm _ rfl) rfl
    (fun h => by cases h.1; rfl) (fun p hp => by unfold applyLeading; rw [hp]; rfl)

theorem vsrl (d : VNum) (a : VNum) (b : VNum) (q : Bool) (p : Bool) (m : MNum) (rm : Option Rounding) : Statement (.vsrl d a b q p m rm) :=
  mods _ (.vsrl d a b q p m none) 48 rm false .none 0 (by decide) (by decide) rfl (Raw.vsrl d a b q p m rm _ rfl) rfl
    (fun h => by cases h.1; rfl) (fun p hp => by unfold applyLeading; rw [hp]; rfl)

theorem vsra (d : VNum) (a : VNum) (b : VNum) (q : Bool) (p : Bool) (m : MNum) (rm : Option Rounding) : Statement (.vsra d a b q p m rm) :=
  mods _ (.vsra d a b q p m none) 48 rm false .none 0 (by decide) (by decide) rfl (Raw.vsra d a b q p m rm _ rfl) rfl
    (fun h => by cases h.1; rfl) (fun p hp => by unfold applyLeading; rw [hp]; rfl)

theorem vmulh (d : VNum) (a : VNum) (b : VNum) (q : Bool) (p : Bool) (m : MNum) (rm : Option Rounding) : Statement (.vmulh d a b q p m rm) :=
  mods _ (.vmulh d a b q p m none) 48 rm false .none 0 (by decide) (by decide) rfl (Raw.vmulh d a b q p m rm _ rfl) rfl
    (fun h => by cases h.1; rfl) (fun p hp => by unfold applyLeading; rw [hp]; rfl)

theorem vaddX (d : VNum) (a : VNum) (x : XReg) (q : Bool) (m : MNum) (rm : Option Rounding) (sat : Bool) : Statement (.vaddX d a x q m rm sat) :=
  mods _ (.vaddX d a x q m none false) 49 rm sat .none 0 (by decide) (by decide) rfl (Raw.vaddX d a x q m rm sat _ rfl) rfl
    (fun h => by cases h.1; cases h.2.1; rfl) (fun p hp => by unfold applyLeading; rw [hp]; rfl)

theorem vsubX (d : VNum) (a : VNum) (x : XReg) (q : Bool) (m : MNum) (rm : Option Rounding) (sat : Bool) : Statement (.vsubX d a x q m rm sat) :=
  mods _ (.vsubX d a x q m none false) 49 rm sat .none 0 (by decide) (by decide) rfl (Raw.vsubX d a x q m rm sat _ rfl) rfl
    (fun h => by cases h.1; cases h.2.1; rfl) (fun p hp => by unfold applyLeading; rw [hp]; rfl)

theorem vmulX (d : VNum) (a : VNum) (x : XReg) (q : Bool) (m : MNum) (rm : Option Rounding) (sat : Bool) : Statement (.vmulX d a x q m rm sat) :=
  mods _ (.vmulX d a x q m none false) 49 rm sat .none 0 (by decide) (by decide) rfl (Raw.vmulX d a x q m rm sat _ rfl) rfl
    (fun h => by cases h.1; cases h.2.1; rfl) (fun p hp => by unfold applyLeading; rw [hp]; rfl)

theorem vdivX (d : VNum) (a : VNum) (x : XReg) (q : Bool) (m : MNum) (rm : Option Rounding) : Statement (.vdivX d a x q m rm) :=
  mods _ (.vdivX d a x q m none) 49 rm false .none 0 (by decide) (by decide) rfl (Raw.vdivX d a x q m rm _ rfl) rfl
    (fun h => by cases h.1; rfl) (fun p hp => by unfold applyLeading; rw [hp]; rfl)

theorem vremX (d : VNum) (a : VNum) (x : XReg) (q : Bool) (m : MNum) (rm : Option Rounding) : Statement (.vremX d a x q m rm) :=
  mods _ (.vremX d a x q m none) 49 rm false .none 0 (by decide) (by decide) rfl (Raw.vremX d a x q m rm _ rfl) rfl
    (fun h => by cases h.1; rfl) (fun p hp => by unfold applyLeading; rw [hp]; rfl)

theorem vminX (d : VNum) (a : VNum) (x : XReg) (q : Bool) (m : MNum) (rm : Option Rounding) : Statement (.vminX d a x q m rm) :=
  mods _ (.vminX d a x q m none) 49 rm false .none 0 (by decide) (by decide) rfl (Raw.vminX d a x q m rm _ rfl) rfl
    (fun h => by cases h.1; rfl) (fun p hp => by unfold applyLeading; rw [hp]; rfl)

theorem vmaxX (d : VNum) (a : VNum) (x : XReg) (q : Bool) (m : MNum) (rm : Option Rounding) : Statement (.vmaxX d a x q m rm) :=
  mods _ (.vmaxX d a x q m none) 49 rm false .none 0 (by decide) (by decide) rfl (Raw.vmaxX d a x q m rm _ rfl) rfl
    (fun h => by cases h.1; rfl) (fun p hp => by unfold applyLeading; rw [hp]; rfl)

theorem vandX (d : VNum) (a : VNum) (x : XReg) (q : Bool) (m : MNum) (rm : Option Rounding) : Statement (.vandX d a x q m rm) :=
  mods _ (.vandX d a x q m none) 49 rm false .none 0 (by decide) (by decide) rfl (Raw.vandX d a x q m rm _ rfl) rfl
    (fun h => by cases h.1; rfl) (fun p hp => by unfold applyLeading; rw [hp]; rfl)

theorem vorX (d : VNum) (a : VNum) (x : XReg) (q : Bool) (m : MNum) (rm : Option Rounding) : Statement (.vorX d a x q m rm) :=
  mods _ (.vorX d a x q m none) 49 rm false .none 0 (by decide) (by decide) rfl (Raw.vorX d a x q m rm _ rfl) rfl
    (fun h => by cases h.1; rfl) (fun p hp => by unfold applyLeading; rw [hp]; rfl)

theorem vxorX (d : VNum) (a : VNum) (x : XReg) (q : Bool) (m : MNum) (rm : Option Rounding) : Statement (.vxorX d a x q m rm) :=
  mods _ (.vxorX d a x q m none) 49 rm false .none 0 (by decide) (by decide) rfl (Raw.vxorX d a x q m rm _ rfl) rfl
    (fun h => by cases h.1; rfl) (fun p hp => by unfold applyLeading; rw [hp]; rfl)

theorem vsllX (d : VNum) (a : VNum) (x : XReg) (q : Bool) (m : MNum) (rm : Option Rounding) : Statement (.vsllX d a x q m rm) :=
  mods _ (.vsllX d a x q m none) 49 rm false .none 0 (by decide) (by decide) rfl (Raw.vsllX d a x q m rm _ rfl) rfl
    (fun h => by cases h.1; rfl) (fun p hp => by unfold applyLeading; rw [hp]; rfl)

theorem vsrlX (d : VNum) (a : VNum) (x : XReg) (q : Bool) (m : MNum) (rm : Option Rounding) : Statement (.vsrlX d a x q m rm) :=
  mods _ (.vsrlX d a x q m none) 49 rm false .none 0 (by decide) (by decide) rfl (Raw.vsrlX d a x q m rm _ rfl) rfl
    (fun h => by cases h.1; rfl) (fun p hp => by unfold applyLeading; rw [hp]; rfl)

theorem vsraX (d : VNum) (a : VNum) (x : XReg) (q : Bool) (m : MNum) (rm : Option Rounding) : Statement (.vsraX d a x q m rm) :=
  mods _ (.vsraX d a x q m none) 49 rm false .none 0 (by decide) (by decide) rfl (Raw.vsraX d a x q m rm _ rfl) rfl
    (fun h => by cases h.1; rfl) (fun p hp => by unfold applyLeading; rw [hp]; rfl)

theorem vmulhX (d : VNum) (a : VNum) (x : XReg) (q : Bool) (m : MNum) (rm : Option Rounding) : Statement (.vmulhX d a x q m rm) :=
  mods _ (.vmulhX d a x q m none) 49 rm false .none 0 (by decide) (by decide) rfl (Raw.vmulhX d a x q m rm _ rfl) rfl
    (fun h => by cases h.1; rfl) (fun p hp => by unfold applyLeading; rw [hp]; rfl)

theorem vfma (d : VNum) (a : VNum) (b : VNum) (q : Bool) (p : Bool) (m : MNum) (rm : Option Rounding) (sat : Bool) : Statement (.vfma d a b q p m rm sat) :=
  mods _ (.vfma d a b q p m none false) 50 rm sat .none 0 (by decide) (by decide) rfl (Raw.vfma d a b q p m rm sat _ rfl) rfl
    (fun h => by cases h.1; cases h.2.1; rfl) (fun p hp => by unfold applyLeading; rw [hp]; rfl)

theorem vfms (d : VNum) (a : VNum) (b : VNum) (q : Bool) (p : Bool) (m : MNum) (rm : Option Rounding) (sat : Bool) : Statement (.vfms d a b q p m rm sat) :=
  mods _ (.vfms d a b q p m none false) 50 rm sat .none 0 (by decide) (by decide) rfl (Raw.vfms d a b q p m rm sat _ rfl) rfl
    (fun h => by cases h.1; cases h.2.1; rfl) (fun p hp => by unfold applyLeading; rw [hp]; rfl)

theorem vfnma (d : VNum) (a : VNum) (b : VNum) (q : Bool) (p : Bool) (m : MNum) (rm : Option Rounding) (sat : Bool) : Statement (.vfnma d a b q p m rm sat) :=
  mods _ (.vfnma d a b q p m none false) 50 rm sat .none 0 (by decide) (by decide) rfl (Raw.vfnma d a b q p m rm sat _ rfl) rfl
    (fun h => by cases h.1; cases h.2.1; rfl) (fun p hp => by unfold applyLeading; rw [hp]; rfl)

theorem vfnms (d : VNum) (a : VNum) (b : VNum) (q : Bool) (p : Bool) (m : MNum) (rm : Option Rounding) (sat : Bool) : Statement (.vfnms d a b q p m rm sat) :=
  mods _ (.vfnms d a b q p m none false) 50 rm sat .none 0 (by decide) (by decide) rfl (Raw.vfnms d a b q p m rm sat _ rfl) rfl
    (fun h => by cases h.1; cases h.2.1; rfl) (fun p hp => by unfold applyLeading; rw [hp]; rfl)

theorem vcmpEq (d : MNum) (a : VNum) (b : VNum) (q : Bool) (p : Bool) (m : MNum) (rm : Option Rounding) : Statement (.vcmpEq d a b q p m rm) :=
  mods _ (.vcmpEq d a b q p m none) 51 rm false .none 0 (by decide) (by decide) rfl (Raw.vcmpEq d a b q p m rm _ rfl) rfl
    (fun h => by cases h.1; rfl) (fun p hp => by unfold applyLeading; rw [hp]; rfl)

theorem vcmpNe (d : MNum) (a : VNum) (b : VNum) (q : Bool) (p : Bool) (m : MNum) (rm : Option Rounding) : Statement (.vcmpNe d a b q p m rm) :=
  mods _ (.vcmpNe d a b q p m none) 51 rm false .none 0 (by decide) (by decide) rfl (Raw.vcmpNe d a b q p m rm _ rfl) rfl
    (fun h => by cases h.1; rfl) (fun p hp => by unfold applyLeading; rw [hp]; rfl)

theorem vcmpLt (d : MNum) (a : VNum) (b : VNum) (q : Bool) (p : Bool) (m : MNum) (rm : Option Rounding) : Statement (.vcmpLt d a b q p m rm) :=
  mods _ (.vcmpLt d a b q p m none) 51 rm false .none 0 (by decide) (by decide) rfl (Raw.vcmpLt d a b q p m rm _ rfl) rfl
    (fun h => by cases h.1; rfl) (fun p hp => by unfold applyLeading; rw [hp]; rfl)

theorem vcmpLe (d : MNum) (a : VNum) (b : VNum) (q : Bool) (p : Bool) (m : MNum) (rm : Option Rounding) : Statement (.vcmpLe d a b q p m rm) :=
  mods _ (.vcmpLe d a b q p m none) 51 rm false .none 0 (by decide) (by decide) rfl (Raw.vcmpLe d a b q p m rm _ rfl) rfl
    (fun h => by cases h.1; rfl) (fun p hp => by unfold applyLeading; rw [hp]; rfl)

theorem vcmpEqX (d : MNum) (a : VNum) (x : XReg) (q : Bool) (m : MNum) (rm : Option Rounding) : Statement (.vcmpEqX d a x q m rm) :=
  mods _ (.vcmpEqX d a x q m none) 51 rm false .none 0 (by decide) (by decide) rfl (Raw.vcmpEqX d a x q m rm _ rfl) rfl
    (fun h => by cases h.1; rfl) (fun p hp => by unfold applyLeading; rw [hp]; rfl)

theorem vcmpNeX (d : MNum) (a : VNum) (x : XReg) (q : Bool) (m : MNum) (rm : Option Rounding) : Statement (.vcmpNeX d a x q m rm) :=
  mods _ (.vcmpNeX d a x q m none) 51 rm false .none 0 (by decide) (by decide) rfl (Raw.vcmpNeX d a x q m rm _ rfl) rfl
    (fun h => by cases h.1; rfl) (fun p hp => by unfold applyLeading; rw [hp]; rfl)

theorem vcmpLtX (d : MNum) (a : VNum) (x : XReg) (q : Bool) (m : MNum) (rm : Option Rounding) : Statement (.vcmpLtX d a x q m rm) :=
  mods _ (.vcmpLtX d a x q m none) 51 rm false .none 0 (by decide) (by decide) rfl (Raw.vcmpLtX d a x q m rm _ rfl) rfl
    (fun h => by cases h.1; rfl) (fun p hp => by unfold applyLeading; rw [hp]; rfl)

theorem vcmpLeX (d : MNum) (a : VNum) (x : XReg) (q : Bool) (m : MNum) (rm : Option Rounding) : Statement (.vcmpLeX d a x q m rm) :=
  mods _ (.vcmpLeX d a x q m none) 51 rm false .none 0 (by decide) (by decide) rfl (Raw.vcmpLeX d a x q m rm _ rfl) rfl
    (fun h => by cases h.1; rfl) (fun p hp => by unfold applyLeading; rw [hp]; rfl)

theorem vcmpGtX (d : MNum) (a : VNum) (x : XReg) (q : Bool) (m : MNum) (rm : Option Rounding) : Statement (.vcmpGtX d a x q m rm) :=
  mods _ (.vcmpGtX d a x q m none) 51 rm false .none 0 (by decide) (by decide) rfl (Raw.vcmpGtX d a x q m rm _ rfl) rfl
    (fun h => by cases h.1; rfl) (fun p hp => by unfold applyLeading; rw [hp]; rfl)

theorem vcmpGeX (d : MNum) (a : VNum) (x : XReg) (q : Bool) (m : MNum) (rm : Option Rounding) : Statement (.vcmpGeX d a x q m rm) :=
  mods _ (.vcmpGeX d a x q m none) 51 rm false .none 0 (by decide) (by decide) rfl (Raw.vcmpGeX d a x q m rm _ rfl) rfl
    (fun h => by cases h.1; rfl) (fun p hp => by unfold applyLeading; rw [hp]; rfl)

theorem mand (d : MNum) (a : MNum) (b : MNum) : Statement (.mand d a b) :=
  plain _ 52 (by decide) rfl (Raw.mand d a b _ rfl)

theorem mor (d : MNum) (a : MNum) (b : MNum) : Statement (.mor d a b) :=
  plain _ 52 (by decide) rfl (Raw.mor d a b _ rfl)

theorem mxor (d : MNum) (a : MNum) (b : MNum) : Statement (.mxor d a b) :=
  plain _ 52 (by decide) rfl (Raw.mxor d a b _ rfl)

theorem mandn (d : MNum) (a : MNum) (b : MNum) : Statement (.mandn d a b) :=
  plain _ 52 (by decide) rfl (Raw.mandn d a b _ rfl)

theorem mnot (d : MNum) (a : MNum) : Statement (.mnot d a) :=
  plain _ 52 (by decide) rfl (Raw.mnot d a _ rfl)

theorem msbf (d : MNum) (a : MNum) : Statement (.msbf d a) :=
  plain _ 52 (by decide) rfl (Raw.msbf d a _ rfl)

theorem msif (d : MNum) (a : MNum) : Statement (.msif d a) :=
  plain _ 52 (by decide) rfl (Raw.msif d a _ rfl)

theorem mpopc (d : XReg) (a : MNum) (m : MNum) : Statement (.mpopc d a m) :=
  plain _ 52 (by decide) rfl (Raw.mpopc d a m _ rfl)

theorem mfirst (d : XReg) (a : MNum) (m : MNum) : Statement (.mfirst d a m) :=
  plain _ 52 (by decide) rfl (Raw.mfirst d a m _ rfl)

theorem vmv (d : VNum) (a : VNum) (q : Bool) (m : MNum) : Statement (.vmv d a q m) :=
  plain _ 53 (by decide) rfl (Raw.vmv d a q m _ rfl)

theorem vmerge (d : VNum) (a : VNum) (b : VNum) (q : Bool) (p : Bool) (m : MNum) : Statement (.vmerge d a b q p m) :=
  plain _ 53 (by decide) rfl (Raw.vmerge d a b q p m _ rfl)

theorem vsplat (d : VNum) (x : XReg) (m : MNum) : Statement (.vsplat d x m) :=
  plain _ 53 (by decide) rfl (Raw.vsplat d x m _ rfl)

theorem vid (d : VNum) (m : MNum) : Statement (.vid d m) :=
  plain _ 53 (by decide) rfl (Raw.vid d m _ rfl)

theorem vslideup (d : VNum) (a : VNum) (x : XReg) (q : Bool) (m : MNum) : Statement (.vslideup d a x q m) :=
  plain _ 53 (by decide) rfl (Raw.vslideup d a x q m _ rfl)

theorem vslidedn (d : VNum) (a : VNum) (x : XReg) (q : Bool) (m : MNum) : Statement (.vslidedn d a x q m) :=
  plain _ 53 (by decide) rfl (Raw.vslidedn d a x q m _ rfl)

theorem vslide1up (d : VNum) (a : VNum) (x : XReg) (q : Bool) (m : MNum) : Statement (.vslide1up d a x q m) :=
  plain _ 53 (by decide) rfl (Raw.vslide1up d a x q m _ rfl)

theorem vslide1dn (d : VNum) (a : VNum) (x : XReg) (q : Bool) (m : MNum) : Statement (.vslide1dn d a x q m) :=
  plain _ 53 (by decide) rfl (Raw.vslide1dn d a x q m _ rfl)

theorem vrgather (d : VNum) (a : VNum) (b : VNum) (q : Bool) (p : Bool) (m : MNum) : Statement (.vrgather d a b q p m) :=
  plain _ 53 (by decide) rfl (Raw.vrgather d a b q p m _ rfl)

theorem vcompress (d : VNum) (a : VNum) (q : Bool) (m : MNum) : Statement (.vcompress d a q m) :=
  plain _ 54 (by decide) rfl (Raw.vcompress d a q m _ rfl)

theorem vexpand (d : VNum) (a : VNum) (q : Bool) (m : MNum) : Statement (.vexpand d a q m) :=
  plain _ 54 (by decide) rfl (Raw.vexpand d a q m _ rfl)

theorem vpfxpop (d : VNum) (a : MNum) : Statement (.vpfxpop d a) :=
  plain _ 54 (by decide) rfl (Raw.vpfxpop d a _ rfl)

theorem vconflict (d : VNum) (a : VNum) (q : Bool) (m : MNum) : Statement (.vconflict d a q m) :=
  plain _ 54 (by decide) rfl (Raw.vconflict d a q m _ rfl)

theorem vscanSegAdd (d : VNum) (a : VNum) (q : Bool) (m : MNum) (rm : Option Rounding) : Statement (.vscanSegAdd d a q m rm) :=
  mods _ (.vscanSegAdd d a q m none) 54 rm false .none 0 (by decide) (by decide) rfl (Raw.vscanSegAdd d a q m rm _ rfl) rfl
    (fun h => by cases h.1; rfl) (fun p hp => by unfold applyLeading; rw [hp]; rfl)

theorem vscanSegMin (d : VNum) (a : VNum) (q : Bool) (m : MNum) (rm : Option Rounding) : Statement (.vscanSegMin d a q m rm) :=
  mods _ (.vscanSegMin d a q m none) 54 rm false .none 0 (by decide) (by decide) rfl (Raw.vscanSegMin d a q m rm _ rfl) rfl
    (fun h => by cases h.1; rfl) (fun p hp => by unfold applyLeading; rw [hp]; rfl)

theorem vscanSegMax (d : VNum) (a : VNum) (q : Bool) (m : MNum) (rm : Option Rounding) : Statement (.vscanSegMax d a q m rm) :=
  mods _ (.vscanSegMax d a q m none) 54 rm false .none 0 (by decide) (by decide) rfl (Raw.vscanSegMax d a q m rm _ rfl) rfl
    (fun h => by cases h.1; rfl) (fun p hp => by unfold applyLeading; rw [hp]; rfl)

theorem vredAdd (d : VNum) (a : VNum) (b : VNum) (q : Bool) (p : Bool) (m : MNum) (rm : Option Rounding) : Statement (.vredAdd d a b q p m rm) :=
  mods _ (.vredAdd d a b q p m none) 55 rm false .none 0 (by decide) (by decide) rfl (Raw.vredAdd d a b q p m rm _ rfl) rfl
    (fun h => by cases h.1; rfl) (fun p hp => by unfold applyLeading; rw [hp]; rfl)

theorem vredMin (d : VNum) (a : VNum) (b : VNum) (q : Bool) (p : Bool) (m : MNum) (rm : Option Rounding) : Statement (.vredMin d a b q p m rm) :=
  mods _ (.vredMin d a b q p m none) 55 rm false .none 0 (by decide) (by decide) rfl (Raw.vredMin d a b q p m rm _ rfl) rfl
    (fun h => by cases h.1; rfl) (fun p hp => by unfold applyLeading; rw [hp]; rfl)

theorem vredMax (d : VNum) (a : VNum) (b : VNum) (q : Bool) (p : Bool) (m : MNum) (rm : Option Rounding) : Statement (.vredMax d a b q p m rm) :=
  mods _ (.vredMax d a b q p m none) 55 rm false .none 0 (by decide) (by decide) rfl (Raw.vredMax d a b q p m rm _ rfl) rfl
    (fun h => by cases h.1; rfl) (fun p hp => by unfold applyLeading; rw [hp]; rfl)

theorem vredAnd (d : VNum) (a : VNum) (b : VNum) (q : Bool) (p : Bool) (m : MNum) (rm : Option Rounding) : Statement (.vredAnd d a b q p m rm) :=
  mods _ (.vredAnd d a b q p m none) 55 rm false .none 0 (by decide) (by decide) rfl (Raw.vredAnd d a b q p m rm _ rfl) rfl
    (fun h => by cases h.1; rfl) (fun p hp => by unfold applyLeading; rw [hp]; rfl)

theorem vredOr (d : VNum) (a : VNum) (b : VNum) (q : Bool) (p : Bool) (m : MNum) (rm : Option Rounding) : Statement (.vredOr d a b q p m rm) :=
  mods _ (.vredOr d a b q p m none) 55 rm false .none 0 (by decide) (by decide) rfl (Raw.vredOr d a b q p m rm _ rfl) rfl
    (fun h => by cases h.1; rfl) (fun p hp => by unfold applyLeading; rw [hp]; rfl)

theorem vredXor (d : VNum) (a : VNum) (b : VNum) (q : Bool) (p : Bool) (m : MNum) (rm : Option Rounding) : Statement (.vredXor d a b q p m rm) :=
  mods _ (.vredXor d a b q p m none) 55 rm false .none 0 (by decide) (by decide) rfl (Raw.vredXor d a b q p m rm _ rfl) rfl
    (fun h => by cases h.1; rfl) (fun p hp => by unfold applyLeading; rw [hp]; rfl)

theorem vfredOrd (d : VNum) (a : VNum) (b : VNum) (q : Bool) (p : Bool) (m : MNum) (rm : Option Rounding) : Statement (.vfredOrd d a b q p m rm) :=
  mods _ (.vfredOrd d a b q p m none) 55 rm false .none 0 (by decide) (by decide) rfl (Raw.vfredOrd d a b q p m rm _ rfl) rfl
    (fun h => by cases h.1; rfl) (fun p hp => by unfold applyLeading; rw [hp]; rfl)

theorem vcvt (d : VNum) (a : VNum) (t : Tag) (q : Bool) (m : MNum) (rm : Option Rounding) (sat : Bool) : Statement (.vcvt d a t q m rm sat) :=
  mods _ (.vcvt d a t q m none false) 56 rm sat .none 0 (by decide) (by decide) rfl (Raw.vcvt d a t q m rm sat _ rfl) rfl
    (fun h => by cases h.1; cases h.2.1; rfl) (fun p hp => by unfold applyLeading; rw [hp]; rfl)

theorem vneg (d : VNum) (a : VNum) (q : Bool) (m : MNum) (rm : Option Rounding) (sat : Bool) : Statement (.vneg d a q m rm sat) :=
  mods _ (.vneg d a q m none false) 57 rm sat .none 0 (by decide) (by decide) rfl (Raw.vneg d a q m rm sat _ rfl) rfl
    (fun h => by cases h.1; cases h.2.1; rfl) (fun p hp => by unfold applyLeading; rw [hp]; rfl)

theorem vabs (d : VNum) (a : VNum) (q : Bool) (m : MNum) (rm : Option Rounding) (sat : Bool) : Statement (.vabs d a q m rm sat) :=
  mods _ (.vabs d a q m none false) 57 rm sat .none 0 (by decide) (by decide) rfl (Raw.vabs d a q m rm sat _ rfl) rfl
    (fun h => by cases h.1; cases h.2.1; rfl) (fun p hp => by unfold applyLeading; rw [hp]; rfl)

theorem vsqrt (d : VNum) (a : VNum) (q : Bool) (m : MNum) (rm : Option Rounding) : Statement (.vsqrt d a q m rm) :=
  mods _ (.vsqrt d a q m none) 57 rm false .none 0 (by decide) (by decide) rfl (Raw.vsqrt d a q m rm _ rfl) rfl
    (fun h => by cases h.1; rfl) (fun p hp => by unfold applyLeading; rw [hp]; rfl)

theorem vexp2 (d : VNum) (a : VNum) (q : Bool) (m : MNum) (rm : Option Rounding) : Statement (.vexp2 d a q m rm) :=
  mods _ (.vexp2 d a q m none) 57 rm false .none 0 (by decide) (by decide) rfl (Raw.vexp2 d a q m rm _ rfl) rfl
    (fun h => by cases h.1; rfl) (fun p hp => by unfold applyLeading; rw [hp]; rfl)

theorem vlog2 (d : VNum) (a : VNum) (q : Bool) (m : MNum) (rm : Option Rounding) : Statement (.vlog2 d a q m rm) :=
  mods _ (.vlog2 d a q m none) 57 rm false .none 0 (by decide) (by decide) rfl (Raw.vlog2 d a q m rm _ rfl) rfl
    (fun h => by cases h.1; rfl) (fun p hp => by unfold applyLeading; rw [hp]; rfl)

theorem vrcp (d : VNum) (a : VNum) (q : Bool) (m : MNum) (rm : Option Rounding) : Statement (.vrcp d a q m rm) :=
  mods _ (.vrcp d a q m none) 57 rm false .none 0 (by decide) (by decide) rfl (Raw.vrcp d a q m rm _ rfl) rfl
    (fun h => by cases h.1; rfl) (fun p hp => by unfold applyLeading; rw [hp]; rfl)

theorem vrsqrt (d : VNum) (a : VNum) (q : Bool) (m : MNum) (rm : Option Rounding) : Statement (.vrsqrt d a q m rm) :=
  mods _ (.vrsqrt d a q m none) 57 rm false .none 0 (by decide) (by decide) rfl (Raw.vrsqrt d a q m rm _ rfl) rfl
    (fun h => by cases h.1; rfl) (fun p hp => by unfold applyLeading; rw [hp]; rfl)

theorem vbext (d : VNum) (a : VNum) (b : VNum) (q : Bool) (p : Bool) (m : MNum) (len : Option (Fin 64)) : Statement (.vbext d a b q p m len) :=
  mods _ (.vbext d a b q p m none) 58 none false .none (lenCode len) (lenCode_bound len) (by decide) rfl (Raw.vbext d a b q p m len _ rfl) rfl
    (fun h => by cases len with | none => rfl | some l => exact absurd h.2.2.2 (lenCode_some l)) (fun pw hp => by unfold applyLeading; rw [hp]; exact congrArg (Option.map fun l => Instr.vbext d a b q p m l) (lenOfXimm_back len))

theorem vfsh (d : VNum) (a : VNum) (b : VNum) (q : Bool) (p : Bool) (m : MNum) : Statement (.vfsh d a b q p m) :=
  plain _ 58 (by decide) rfl (Raw.vfsh d a b q p m _ rfl)

theorem xaClr (e : ENum) : Statement (.xaClr e) :=
  plain _ 59 (by decide) rfl (Raw.xaClr e _ rfl)

theorem xaAddv (e : ENum) (a : VNum) (q : Bool) (m : MNum) : Statement (.xaAddv e a q m) :=
  plain _ 59 (by decide) rfl (Raw.xaAddv e a q m _ rfl)

theorem xaDot (e : ENum) (a : VNum) (b : VNum) (q : Bool) (p : Bool) (m : MNum) : Statement (.xaDot e a b q p m) :=
  plain _ 59 (by decide) rfl (Raw.xaDot e a b q p m _ rfl)

theorem xaRd (d : XReg) (e : ENum) (t : Tag) (rm : Option Rounding) : Statement (.xaRd d e t rm) :=
  mods _ (.xaRd d e t none) 59 rm false .none 0 (by decide) (by decide) rfl (Raw.xaRd d e t rm _ rfl) rfl
    (fun h => by cases h.1; rfl) (fun p hp => by unfold applyLeading; rw [hp]; rfl)

theorem xaRdv (d : VNum) (e : ENum) (x : XReg) (rm : Option Rounding) : Statement (.xaRdv d e x rm) :=
  mods _ (.xaRdv d e x none) 59 rm false .none 0 (by decide) (by decide) rfl (Raw.xaRdv d e x rm _ rfl) rfl
    (fun h => by cases h.1; rfl) (fun p hp => by unfold applyLeading; rw [hp]; rfl)

theorem xaLd (e : ENum) (a : XReg) (hint : Hint) : Statement (.xaLd e a hint) :=
  mods _ (.xaLd e a .none) 59 none false hint 0 (by decide) (by decide) rfl (Raw.xaLd e a hint _ rfl) rfl
    (fun h => by cases h.2.2.1; rfl) (fun p hp => by unfold applyLeading; rw [hp]; rfl)

theorem xaSt (e : ENum) (a : XReg) : Statement (.xaSt e a) :=
  plain _ 59 (by decide) rfl (Raw.xaSt e a _ rfl)

theorem vmvXv (d : XReg) (a : VNum) (x : XReg) (q : Bool) : Statement (.vmvXv d a x q) :=
  plain _ 60 (by decide) rfl (Raw.vmvXv d a x q _ rfl)

theorem vmvVx (d : VNum) (a : XReg) (b : XReg) : Statement (.vmvVx d a b) :=
  plain _ 60 (by decide) rfl (Raw.vmvVx d a b _ rfl)

theorem qld (d : QNum) (v : XReg) (hint : Hint) : Statement (.qld d v hint) :=
  mods _ (.qld d v .none) 64 none false hint 0 (by decide) (by decide) rfl (Raw.qld d v hint _ rfl) rfl
    (fun h => by cases h.2.2.1; rfl) (fun p hp => by unfold applyLeading; rw [hp]; rfl)

theorem qwalk (d : QNum) (v : XReg) (hint : Hint) : Statement (.qwalk d v hint) :=
  mods _ (.qwalk d v .none) 64 none false hint 0 (by decide) (by decide) rfl (Raw.qwalk d v hint _ rfl) rfl
    (fun h => by cases h.2.2.1; rfl) (fun p hp => by unfold applyLeading; rw [hp]; rfl)

theorem qwalkD (d : QNum) (v : XReg) (hint : Hint) : Statement (.qwalkD d v hint) :=
  mods _ (.qwalkD d v .none) 64 none false hint 0 (by decide) (by decide) rfl (Raw.qwalkD d v hint _ rfl) rfl
    (fun h => by cases h.2.2.1; rfl) (fun p hp => by unfold applyLeading; rw [hp]; rfl)

theorem qst (a : QNum) (v : XReg) : Statement (.qst a v) :=
  plain _ 64 (by decide) rfl (Raw.qst a v _ rfl)

theorem qisectMul (d : QNum) (a : QNum) (b : QNum) (rm : Option Rounding) (sat : Bool) : Statement (.qisectMul d a b rm sat) :=
  mods _ (.qisectMul d a b none false) 65 rm sat .none 0 (by decide) (by decide) rfl (Raw.qisectMul d a b rm sat _ rfl) rfl
    (fun h => by cases h.1; cases h.2.1; rfl) (fun p hp => by unfold applyLeading; rw [hp]; rfl)

theorem qisectA (d : QNum) (a : QNum) (b : QNum) : Statement (.qisectA d a b) :=
  plain _ 65 (by decide) rfl (Raw.qisectA d a b _ rfl)

theorem qisectB (d : QNum) (a : QNum) (b : QNum) : Statement (.qisectB d a b) :=
  plain _ 65 (by decide) rfl (Raw.qisectB d a b _ rfl)

theorem qunionAdd (d : QNum) (a : QNum) (b : QNum) (rm : Option Rounding) (sat : Bool) : Statement (.qunionAdd d a b rm sat) :=
  mods _ (.qunionAdd d a b none false) 65 rm sat .none 0 (by decide) (by decide) rfl (Raw.qunionAdd d a b rm sat _ rfl) rfl
    (fun h => by cases h.1; cases h.2.1; rfl) (fun p hp => by unfold applyLeading; rw [hp]; rfl)

theorem qmerge (d : QNum) (a : QNum) (b : QNum) : Statement (.qmerge d a b) :=
  plain _ 65 (by decide) rfl (Raw.qmerge d a b _ rfl)

theorem qsort (d : QNum) (a : QNum) : Statement (.qsort d a) :=
  plain _ 65 (by decide) rfl (Raw.qsort d a _ rfl)

theorem qcompact (d : QNum) (a : QNum) : Statement (.qcompact d a) :=
  plain _ 65 (by decide) rfl (Raw.qcompact d a _ rfl)

theorem qcompactM (d : QNum) (a : QNum) (m : MNum) : Statement (.qcompactM d a m) :=
  plain _ 65 (by decide) rfl (Raw.qcompactM d a m _ rfl)

theorem qdot (e : ENum) (a : QNum) (b : QNum) : Statement (.qdot e a b) :=
  plain _ 65 (by decide) rfl (Raw.qdot e a b _ rfl)

theorem qexpand (a : QNum) (v : XReg) (d : VNum) : Statement (.qexpand a v d) :=
  plain _ 66 (by decide) rfl (Raw.qexpand a v d _ rfl)

theorem qfromv (d : QNum) (v : XReg) (a : VNum) : Statement (.qfromv d v a) :=
  plain _ 66 (by decide) rfl (Raw.qfromv d v a _ rfl)

theorem qfromvAll (d : QNum) (v : XReg) (a : VNum) : Statement (.qfromvAll d v a) :=
  plain _ 66 (by decide) rfl (Raw.qfromvAll d v a _ rfl)

theorem qcoord (a : QNum) (d : VNum) : Statement (.qcoord a d) :=
  plain _ 66 (by decide) rfl (Raw.qcoord a d _ rfl)

theorem qval (a : QNum) (d : VNum) : Statement (.qval a d) :=
  plain _ 66 (by decide) rfl (Raw.qval a d _ rfl)

theorem qcnt (a : QNum) (d : XReg) : Statement (.qcnt a d) :=
  plain _ 66 (by decide) rfl (Raw.qcnt a d _ rfl)

theorem qclr (d : QNum) : Statement (.qclr d) :=
  plain _ 66 (by decide) rfl (Raw.qclr d _ rfl)

theorem qscale (d : QNum) (a : QNum) (v : XReg) (rm : Option Rounding) (sat : Bool) : Statement (.qscale d a v rm sat) :=
  mods _ (.qscale d a v none false) 66 rm sat .none 0 (by decide) (by decide) rfl (Raw.qscale d a v rm sat _ rfl) rfl
    (fun h => by cases h.1; cases h.2.1; rfl) (fun p hp => by unfold applyLeading; rw [hp]; rfl)

theorem qredAdd (a : QNum) (d : XReg) (rm : Option Rounding) : Statement (.qredAdd a d rm) :=
  mods _ (.qredAdd a d none) 66 rm false .none 0 (by decide) (by decide) rfl (Raw.qredAdd a d rm _ rfl) rfl
    (fun h => by cases h.1; rfl) (fun p hp => by unfold applyLeading; rw [hp]; rfl)

theorem qredMin (a : QNum) (d : XReg) : Statement (.qredMin a d) :=
  plain _ 66 (by decide) rfl (Raw.qredMin a d _ rfl)

theorem qredMax (a : QNum) (d : XReg) : Statement (.qredMax a d) :=
  plain _ 66 (by decide) rfl (Raw.qredMax a d _ rfl)

theorem mattach (r : Fin 4) : Statement (.mattach r) :=
  plain _ 72 (by decide) rfl (Raw.mattach r _ rfl)

theorem mdetach : Statement (.mdetach) :=
  plain _ 72 (by decide) rfl (Raw.mdetach _ rfl)

theorem mzeroT (d : TNum) : Statement (.mzeroT d) :=
  plain _ 72 (by decide) rfl (Raw.mzeroT d _ rfl)

theorem mzeroZ (d : ZNum) : Statement (.mzeroZ d) :=
  plain _ 72 (by decide) rfl (Raw.mzeroZ d _ rfl)

theorem mldT (d : TNum) (a : XReg) (hint : Hint) : Statement (.mldT d a hint) :=
  mods _ (.mldT d a .none) 73 none false hint 0 (by decide) (by decide) rfl (Raw.mldT d a hint _ rfl) rfl
    (fun h => by cases h.2.2.1; rfl) (fun p hp => by unfold applyLeading; rw [hp]; rfl)

theorem mldZ (d : ZNum) (a : XReg) (hint : Hint) : Statement (.mldZ d a hint) :=
  mods _ (.mldZ d a .none) 73 none false hint 0 (by decide) (by decide) rfl (Raw.mldZ d a hint _ rfl) rfl
    (fun h => by cases h.2.2.1; rfl) (fun p hp => by unfold applyLeading; rw [hp]; rfl)

theorem mldbm (d : TNum) (b : XReg) (a : XReg) (hint : Hint) : Statement (.mldbm d b a hint) :=
  mods _ (.mldbm d b a .none) 73 none false hint 0 (by decide) (by decide) rfl (Raw.mldbm d b a hint _ rfl) rfl
    (fun h => by cases h.2.2.1; rfl) (fun p hp => by unfold applyLeading; rw [hp]; rfl)

theorem mstT (d : TNum) (a : XReg) : Statement (.mstT d a) :=
  plain _ 74 (by decide) rfl (Raw.mstT d a _ rfl)

theorem mstZ (d : ZNum) (a : XReg) : Statement (.mstZ d a) :=
  plain _ 74 (by decide) rfl (Raw.mstZ d a _ rfl)

theorem mma (d : ZNum) (a : TNum) (b : TNum) (start : Fin 4) (ceil : Fin 4) (rm : Option Rounding) : Statement (.mma d a b start ceil rm) :=
  mods _ (.mma d a b start ceil none) 75 rm false .none 0 (by decide) (by decide) rfl (Raw.mma d a b start ceil rm _ rfl) rfl
    (fun h => by cases h.1; rfl) (fun p hp => by unfold applyLeading; rw [hp]; rfl)

theorem mmaSp (d : ZNum) (a : TNum) (b : TNum) (start : Fin 4) (ceil : Fin 4) (rm : Option Rounding) : Statement (.mmaSp d a b start ceil rm) :=
  mods _ (.mmaSp d a b start ceil none) 75 rm false .none 0 (by decide) (by decide) rfl (Raw.mmaSp d a b start ceil rm _ rfl) rfl
    (fun h => by cases h.1; rfl) (fun p hp => by unfold applyLeading; rw [hp]; rfl)

theorem mmaSs (d : ZNum) (a : TNum) (b : TNum) (start : Fin 4) (ceil : Fin 4) (rm : Option Rounding) : Statement (.mmaSs d a b start ceil rm) :=
  mods _ (.mmaSs d a b start ceil none) 75 rm false .none 0 (by decide) (by decide) rfl (Raw.mmaSs d a b start ceil rm _ rfl) rfl
    (fun h => by cases h.1; rfl) (fun p hp => by unfold applyLeading; rw [hp]; rfl)

theorem mdrain (z : ZNum) (m : MNum) (a : XReg) (rm : Option Rounding) (sat : Bool) : Statement (.mdrain z m a rm sat) :=
  mods _ (.mdrain z m a none false) 76 rm sat .none 0 (by decide) (by decide) rfl (Raw.mdrain z m a rm sat _ rfl) rfl
    (fun h => by cases h.1; cases h.2.1; rfl) (fun p hp => by unfold applyLeading; rw [hp]; rfl)

theorem mdrainX (z : ZNum) (m : MNum) (i : VNum) (a : XReg) (rm : Option Rounding) (sat : Bool) : Statement (.mdrainX z m i a rm sat) :=
  mods _ (.mdrainX z m i a none false) 76 rm sat .none 0 (by decide) (by decide) rfl (Raw.mdrainX z m i a rm sat _ rfl) rfl
    (fun h => by cases h.1; cases h.2.1; rfl) (fun p hp => by unfold applyLeading; rw [hp]; rfl)

theorem mdrainv (z : ZNum) (m : MNum) (d : VNum) (rm : Option Rounding) (sat : Bool) : Statement (.mdrainv z m d rm sat) :=
  mods _ (.mdrainv z m d none false) 76 rm sat .none 0 (by decide) (by decide) rfl (Raw.mdrainv z m d rm sat _ rfl) rfl
    (fun h => by cases h.1; cases h.2.1; rfl) (fun p hp => by unfold applyLeading; rw [hp]; rfl)

theorem cpy (h : ChNum) (a : XReg) (b : XReg) (r : Bool) : Statement (.cpy h a b r) :=
  plain _ 80 (by decide) rfl (Raw.cpy h a b r _ rfl)

theorem cpy2 (h : ChNum) (a : XReg) (b : XReg) (p : XReg) (r : Bool) : Statement (.cpy2 h a b p r) :=
  plain _ 80 (by decide) rfl (Raw.cpy2 h a b p r _ rfl)

theorem cpyG (h : ChNum) (a : XReg) (b : XReg) (i : VNum) (r : Bool) : Statement (.cpyG h a b i r) :=
  plain _ 80 (by decide) rfl (Raw.cpyG h a b i r _ rfl)

theorem cpyGd (h : ChNum) (a : XReg) (b : XReg) (i : VNum) (r : Bool) : Statement (.cpyGd h a b i r) :=
  plain _ 80 (by decide) rfl (Raw.cpyGd h a b i r _ rfl)

theorem cpyR (h : ChNum) (a : XReg) (b : XReg) (r : Bool) : Statement (.cpyR h a b r) :=
  plain _ 80 (by decide) rfl (Raw.cpyR h a b r _ rfl)

theorem cbatch : Statement (.cbatch) :=
  plain _ 81 (by decide) rfl (Raw.cbatch _ rfl)

theorem cwait (n : Fin 32) : Statement (.cwait n) :=
  plain _ 81 (by decide) rfl (Raw.cwait n _ rfl)

theorem cstat (h : ChNum) (d : XReg) (s : Fin 4) : Statement (.cstat h d s) :=
  plain _ 81 (by decide) rfl (Raw.cstat h d s _ rfl)

theorem cack (h : ChNum) : Statement (.cack h) :=
  plain _ 81 (by decide) rfl (Raw.cack h _ rfl)

theorem lzInit (d : XReg) (b : XReg) (c : XReg) : Statement (.lzInit d b c) :=
  plain _ 82 (by decide) rfl (Raw.lzInit d b c _ rfl)

theorem lzRes (d : XReg) (b : XReg) : Statement (.lzRes d b) :=
  plain _ 82 (by decide) rfl (Raw.lzRes d b _ rfl)

theorem lzWait (b : XReg) (c : XReg) : Statement (.lzWait b c) :=
  plain _ 82 (by decide) rfl (Raw.lzWait b c _ rfl)

theorem lzFree (b : XReg) (c : XReg) : Statement (.lzFree b c) :=
  plain _ 82 (by decide) rfl (Raw.lzFree b c _ rfl)

theorem lzScrub (d : XReg) (b : XReg) : Statement (.lzScrub d b) :=
  plain _ 82 (by decide) rfl (Raw.lzScrub d b _ rfl)

theorem lzFin (b : XReg) : Statement (.lzFin b) :=
  plain _ 82 (by decide) rfl (Raw.lzFin b _ rfl)

theorem qsend (h : ChNum) (b : XReg) (a : QNum) (r : Bool) : Statement (.qsend h b a r) :=
  plain _ 83 (by decide) rfl (Raw.qsend h b a r _ rfl)

theorem qrecv (d : QNum) (b : XReg) (c : XReg) : Statement (.qrecv d b c) :=
  plain _ 83 (by decide) rfl (Raw.qrecv d b c _ rfl)

theorem gatherGroupArrive (h : Nat) (v : VNum) (g : Fin 512) : Statement (.gatherGroupArrive h v g) := event _ rfl
theorem streamPrefetch (h : Nat) (s : SNum) : Statement (.streamPrefetch h s) := event _ rfl
theorem copyAccept (h : Nat) : Statement (.copyAccept h) := event _ rfl
theorem copyElement (h : Nat) (ch : ChNum) : Statement (.copyElement h ch) := event _ rfl
theorem lzResRequest (dev : Fin 256) (handle : Word) : Statement (.lzResRequest dev handle) := event _ rfl
theorem lzResReply (h : Nat) (value : Word) (c7 : Bool) : Statement (.lzResReply h value c7) := event _ rfl
theorem zoneFirstRequest (t : Transfer) : Statement (.zoneFirstRequest t) := event _ rfl
theorem eyeletPayloadWrite (t : Transfer) (data : List Byte) : Statement (.eyeletPayloadWrite t data) := event _ rfl
theorem fullAcknowledge (h : Nat) (ch : ChNum) : Statement (.fullAcknowledge h ch) := event _ rfl
theorem monitorWake (h : Nat) : Statement (.monitorWake h) := event _ rfl
theorem pollInterval (h : Nat) : Statement (.pollInterval h) := event _ rfl
theorem illegalEncoding (word : BitVec 32) (second : Bool) : Statement (.illegalEncoding word second) := event _ rfl
theorem takeAsyncEvent (h : Nat) : Statement (.takeAsyncEvent h) := event _ rfl
theorem reclaimTimeout (h : Nat) : Statement (.reclaimTimeout h) := event _ rfl
theorem switchOut (h : Nat) : Statement (.switchOut h) := event _ rfl
theorem hartRestore (h : Nat) : Statement (.hartRestore h) := event _ rfl
theorem hartEnd (h : Nat) : Statement (.hartEnd h) := event _ rfl
theorem launchDone (l : Nat) : Statement (.launchDone l) := event _ rfl
theorem queueWindowWrite (q : Fin 1024) (off : Nat) (data : List Byte) : Statement (.queueWindowWrite q off data) := event _ rfl
theorem packetAccept (q : Fin 1024) : Statement (.packetAccept q) := event _ rfl
theorem dependenceRecheck (q : Fin 1024) : Statement (.dependenceRecheck q) := event _ rfl
theorem dependencePoll (q : Fin 1024) : Statement (.dependencePoll q) := event _ rfl
theorem schedulePlacement (p : Fin 8) : Statement (.schedulePlacement p) := event _ rfl
theorem rackLaunchRequest (source : Word) (q req : BitVec 16) (rest : List Byte) : Statement (.rackLaunchRequest source q req rest) := event _ rfl
theorem rackReportRequest (source : Word) (p : Fin 8) : Statement (.rackReportRequest source p) := event _ rfl
theorem residencyReport (p : Fin 8) : Statement (.residencyReport p) := event _ rfl
theorem partitionEnable (p : Fin 8) : Statement (.partitionEnable p) := event _ rfl
theorem partitionDisable (p : Fin 8) : Statement (.partitionDisable p) := event _ rfl
theorem registerWrite (r : DevReg) (v : Word) : Statement (.registerWrite r v) := event _ rfl
theorem cacheEvictionWriteback (holder : Cache) (line : Nat) : Statement (.cacheEvictionWriteback holder line) := event _ rfl
theorem hostWrite (at' : HostAddr) (data : List Byte) : Statement (.hostWrite at' data) := event _ rfl
theorem hostRead (at' : HostAddr) (n : Nat) : Statement (.hostRead at' n) := event _ rfl
theorem pathLost (p : Path) : Statement (.pathLost p) := event _ rfl
theorem pathReturn (p : Path) (full : List (Nat × ChNum)) : Statement (.pathReturn p full) := event _ rfl
theorem pathLostForGood (p : Path) : Statement (.pathLostForGood p) := event _ rfl
theorem weltCommit : Statement (.weltCommit) := event _ rfl
theorem weltGenerationDrain : Statement (.weltGenerationDrain) := event _ rfl
theorem weltLinkFail (c : Fin 8) (l : Fin 4) : Statement (.weltLinkFail c l) := event _ rfl
theorem laneSpareRepair (c : Fin 8) (l : Fin 4) : Statement (.laneSpareRepair c l) := event _ rfl
theorem nirmusDataFlit (port : Fin 4) (words : List (BitVec 72)) : Statement (.nirmusDataFlit port words) := event _ rfl
theorem nirmusAcknowledgeFlit (port : Fin 4) (words : List (BitVec 72)) : Statement (.nirmusAcknowledgeFlit port words) := event _ rfl
theorem nirmusIdleFlit (port : Fin 4) (words : List (BitVec 72)) : Statement (.nirmusIdleFlit port words) := event _ rfl
theorem keyExhaustionFlit (port : Fin 4) (words : List (BitVec 72)) : Statement (.keyExhaustionFlit port words) := event _ rfl
theorem planeReturn (port : Fin 4) : Statement (.planeReturn port) := event _ rfl
theorem transmitKeySwitch (port : Fin 4) : Statement (.transmitKeySwitch port) := event _ rfl
theorem counterExhaustion (port : Fin 4) : Statement (.counterExhaustion port) := event _ rfl
theorem keyHoldTimeout (port : Fin 4) : Statement (.keyHoldTimeout port) := event _ rfl
theorem hostInterrupt (vf : Fin 9) (value : BitVec 32) (core : Fin 128) (slot : Fin 16) : Statement (.hostInterrupt vf value core slot) := event _ rfl
theorem ps0Run : Statement (.ps0Run) := event _ rfl
theorem ps1Capped : Statement (.ps1Capped) := event _ rfl
theorem ps2Quiesce : Statement (.ps2Quiesce) := event _ rfl
theorem ps3Standby : Statement (.ps3Standby) := event _ rfl
theorem unitReady (u : Fin 33) : Statement (.unitReady u) := event _ rfl
theorem tempAlert (celsius : BitVec 8) : Statement (.tempAlert celsius) := event _ rfl
theorem thermalPowerRemoval : Statement (.thermalPowerRemoval) := event _ rfl
theorem moduleRemoval : Statement (.moduleRemoval) := event _ rfl
theorem powerUp : Statement (.powerUp) := event _ rfl
theorem configurationImage (img : ConfigImage) : Statement (.configurationImage img) := event _ rfl
theorem fire : Statement (.fire) := event _ rfl
theorem snapctlFire : Statement (.snapctlFire) := event _ rfl
theorem retireCluster (core : Fin 128) (cluster : Fin 16) : Statement (.retireCluster core cluster) := event _ rfl
theorem retireCore (core : Fin 128) : Statement (.retireCore core) := event _ rfl
theorem retireMatrixRows (core : Fin 128) : Statement (.retireMatrixRows core) := event _ rfl
theorem rowRepair (addr : Nat) : Statement (.rowRepair addr) := event _ rfl
theorem rowRepairDone : Statement (.rowRepairDone) := event _ rfl
theorem memoryErrorEvent (k : Fin 16) (kind : MemErr) (chan : Fin 64) (layer : Fin 16) (addr : Nat) : Statement (.memoryErrorEvent k kind chan layer addr) := event _ rfl
theorem pop (k : Fin 16) : Statement (.pop k) := event _ rfl
theorem bytesAcknowledged (h : Nat) (ch : ChNum) (n : Nat) : Statement (.bytesAcknowledged h ch n) := event _ rfl
theorem portTraining (port : Fin 4) (ok : Bool) : Statement (.portTraining port ok) := event _ rfl

end Sys2Proof.Laws.RoundTrip
end

