-- ==== Sys2Proof/Laws/Register.lean ====
section
/-! SUPPORT. Registers read after a write, and what the shared scalar operations do (07 R138 to R155). -/

namespace Sys2Proof.Laws

set_option Elab.async false

open Sys2Proof.Machine Sys2Proof.Claim

theorem x_setX (s : State) (d r : XReg) (v : Word) : (s.setX d v).x r = if r = d then (if d = 0 then 0 else v) else s.x r := by
  unfold State.setX State.x
  by_cases hd : d.val = 0
  · have : d = 0 := Fin.ext hd
    subst this
    by_cases hr : r = 0 <;> simp [hr]
  · have hd0 : d ≠ 0 := fun h => hd (by simp [h])
    simp only [hd, if_false, hd0]
    by_cases hr : r = d
    · subst hr; simp [hd]
    · simp only [hr, if_false]
      split
      · rfl
      · rw [Vector.getElem_set_ne]; intro h; exact hr (Fin.ext h.symm)

theorem setX_only (s : State) (d : XReg) (v : Word) : s.setX d v = { s with hart := { s.hart with x := (s.setX d v).hart.x } } := by
  unfold State.setX; split <;> rfl

theorem putX_wrote (s : State) (d : XReg) (v : Word) : ∃ t, putX d v s = .next t ∧ wroteX s t d v := by
  refine ⟨_, rfl, ?_, ?_, ?_, ?_, ?_⟩
  · show (s.setX d v).x d = _
    simp [x_setX]
  · intro r hr
    show (s.setX d v).x r = _
    simp [x_setX, hr]
  · rw [setX_only]; exact ⟨rfl, rfl⟩
  · rw [setX_only]; exact ⟨fun _ => rfl, fun _ => rfl⟩
  · rw [setX_only]; rfl

theorem c_setC (s : State) (d r : CBit) (v : Bool) : (s.setC d v).c r = if r = d then v else s.c r := by
  unfold State.setC State.c
  by_cases hr : r = d
  · subst hr; simp
  · simp only [hr, if_false]; rw [Vector.getElem_set_ne]; intro h; exact hr (Fin.ext h.symm)

theorem putC_wrote (s : State) (d : CBit) (v : Bool) : ∃ t, putC d v s = .next t ∧ wroteC s t d v := by
  refine ⟨_, rfl, ?_, ?_, ⟨rfl, rfl⟩, ⟨fun _ => rfl, fun _ => rfl⟩, rfl⟩
  · show (s.setC d v).c d = _
    simp [c_setC]
  · intro r hr
    show (s.setC d v).c r = _
    simp [c_setC, hr]

theorem slt_int (a b : Word) : a.slt b = decide (a.toInt < b.toInt) := rfl

theorem ult_nat (a b : Word) : a.ult b = decide (a.toNat < b.toNat) := rfl

theorem mode_ok {s : State} {rm : Option Rounding} {m : Rounding} (h : roundsBy s rm m) : s.mode rm = .ok m := by
  rcases h with rfl | ⟨rfl, h⟩
  · rfl
  · simp [State.mode, h]

theorem mode_bad {s : State} (h : 5 ≤ s.hart.fcsr.rm.toNat) : s.mode none = .error (s.illegal, s) := by
  have : roundingOf s.hart.fcsr.rm = none := by
    unfold roundingOf; split <;> first | omega | rfl
  simp [State.mode, this]

theorem fpX_wrote (s : State) (d : XReg) (rm : Option Rounding) (k : Rounding → FRes) (m : Rounding) (h : roundsBy s rm m) :
    ∃ t, fpX d rm k s = .next t ∧ t.x d = (if d = 0 then 0 else BitVec.ofNat 64 (k m).bits) ∧ (∀ r, r ≠ d → t.x r = s.x r) ∧
      Claim.raised s t (k m).flags (k m).sat ∧ Claim.goesOn s t ∧ Claim.sameMemory s t ∧
      t = { s with hart := { s.hart with
        x := t.hart.x, fcsr := t.hart.fcsr, pc := t.hart.pc, instret := t.hart.instret } } := by
  refine ⟨((s.setX d (BitVec.ofNat 64 (k m).bits)).raise (k m).flags (k m).sat).retire, ?_, ?_, ?_, ?_, ?_, ?_, ?_⟩
  · unfold fpX; rw [mode_ok h]; rfl
  · show (s.setX d _).x d = _; simp [x_setX]
  · intro r hr; show (s.setX d _).x r = _; simp [x_setX, hr]
  · rw [setX_only]; exact ⟨rfl, rfl, rfl⟩
  · rw [setX_only]; exact ⟨rfl, rfl⟩
  · rw [setX_only]; exact ⟨fun _ => rfl, fun _ => rfl⟩
  · rw [setX_only]; rfl

theorem fpC_wrote (s : State) (d : CBit) (rm : Option Rounding) (v nv : Bool) (m : Rounding) (h : roundsBy s rm m) :
    ∃ t, fpC d rm v nv s = .next t ∧ t.c d = v ∧ (∀ r, r ≠ d → t.c r = s.c r) ∧
      Claim.raised s t { nv := nv } false ∧ Claim.goesOn s t ∧ Claim.sameMemory s t ∧
      t = { s with hart := { s.hart with
        c := t.hart.c, fcsr := t.hart.fcsr, pc := t.hart.pc, instret := t.hart.instret } } := by
  refine ⟨((s.setC d v).raise (flagNv nv) false).retire, ?_, ?_, ?_, ⟨rfl, rfl, rfl⟩, ⟨rfl, rfl⟩, ⟨fun _ => rfl, fun _ => rfl⟩, rfl⟩
  · unfold fpC; rw [mode_ok h]; rfl
  · show (s.setC d _).c d = _; simp [c_setC]
  · intro r hr; show (s.setC d _).c r = _; simp [c_setC, hr]

end Sys2Proof.Laws
end

