-- ==== Sys2Proof/Laws/Runs.lean ====
section
/-! SUPPORT. How a meaning ends: what holds of the state it comes to, and soundness of the state a trap is taken at. One
rule for each way the meanings are put together. -/

namespace Sys2Proof.Machine

set_option Elab.async false

open Sys2Proof.Safety

variable {α β : Type}

/-- A run ends well: its result has a property, or its trap is taken at a sound state. -/
def Ends (Q : α → Prop) (r : Run α) : Prop :=
  match r with
  | .ok a => Q a
  | .error e => Sound e.2

/-- What an access that succeeds comes to has a property. -/
def Gives (Q : α → Prop) (r : Except Reject α) : Prop := ∀ a, r = .ok a → Q a

/-- The next state of an outcome, if it is one, is sound. -/
def OutSound (o : Host.Outcome State Fault Refusal) : Prop := ∀ t, o = .next t → Sound t

theorem outSound_next {s : State} (h : Sound s) : OutSound (.next s) := fun _ e => by cases e; exact h

theorem ends_ok {Q : α → Prop} {a : α} (h : Q a) : Ends Q (.ok a) := h

theorem ends_bind {Q : α → Prop} {P : β → Prop} {r : Run α} {f : α → Run β} (h : Ends Q r)
    (hf : ∀ a, Q a → Ends P (f a)) : Ends P (r >>= f) := by
  cases r with
  | ok a => exact hf a h
  | error e => exact h

theorem ends_mono {Q P : α → Prop} {r : Run α} (h : Ends Q r) (hq : ∀ a, Q a → P a) : Ends P r := by
  cases r with
  | ok a => exact hq a h
  | error e => exact h

theorem ends_trap {Q : α → Prop} {s : State} (h : Sound s) (t : Trap) : Ends Q (s.trap t) := h

theorem ends_error {Q : α → Prop} {s : State} (h : Sound s) (t : Trap) : Ends Q (.error (t, s) : Run α) := h

theorem ends_require {s : State} (h : Sound s) (b : Bool) (t : Trap) : Ends (fun _ => True) (s.require b t) := by
  unfold State.require
  split
  · trivial
  · exact h

theorem ends_ite {Q : α → Prop} {p : Prop} [Decidable p] {r t : Run α} (h1 : Ends Q r) (h2 : Ends Q t) :
    Ends Q (if p then r else t) := by split <;> assumption

/-- One of two ways on to the same continuation. -/
theorem ends_choose {P : β → Prop} {p : Prop} [Decidable p] {s : State} {r : Run State} {f : State → Run β}
    (hr : Ends Sound r) (h : Sound s) (hf : ∀ t, Sound t → Ends P (f t)) :
    Ends P (if p then r >>= f else (Except.ok s : Run State) >>= f) :=
  ends_ite (ends_bind hr hf) (hf s h)

theorem ends_orTrap {Q : α → Prop} {s : State} {r : Except Reject α} (h : Sound s) (hr : Gives Q r) :
    Ends Q (s.orTrap r) := by
  cases r with
  | ok a => exact hr a rfl
  | error e => exact h

theorem gives_ok {Q : α → Prop} {a : α} (h : Q a) : Gives Q (.ok a) := fun _ e => by cases e; exact h

theorem gives_error {Q : α → Prop} (r : Reject) : Gives Q (.error r : Except Reject α) := fun _ e => by cases e

theorem gives_any (r : Except Reject α) : Gives (fun _ => True) r := fun _ _ => trivial

theorem gives_bind {Q : α → Prop} {P : β → Prop} {r : Except Reject α} {f : α → Except Reject β} (h : Gives Q r)
    (hf : ∀ a, Q a → Gives P (f a)) : Gives P (r >>= f) := by
  cases r with
  | ok a => exact hf a (h a rfl)
  | error e => exact gives_error e

end Sys2Proof.Machine
end

