-- ==== Sys2Proof/Laws/SoundOps.lean ====
section
/-! SUPPORT. Soundness of the shared operations over registers, traps, memory, cached lines and zones. A rule for each:
what it makes of a sound state is sound. -/

namespace Sys2Proof.Machine

set_option Elab.async false

open Sys2Proof.Safety

variable {s : State}

/-- Soundness speaks of the memories, the service block and the configuration only. -/
theorem Sound.of_eq {t : State} (h : Sound s) (h1 : t.mem = s.mem) (h2 : t.spad = s.spad) (h3 : t.service = s.service)
    (h4 : t.accepted = s.accepted) : Sound t := by
  unfold Sound at *; rw [h1, h2, h3, h4]; exact h

/-- Another hart, and anything else soundness does not speak of. -/
theorem Sound.hart (h : Sound s) (k : Hart) : Sound { s with hart := k } := h

theorem sound_mem (h : Sound s) {m : List Host.Cell} (hm : Memory.wf m = true) : Sound { s with mem := m } :=
  ⟨hm, h.spad_wf, h.signed, h.standby⟩

theorem sound_spad (h : Sound s) {m : List Host.Cell} (hm : Memory.wf m = true) : Sound { s with spad := m } :=
  ⟨h.mem_wf, hm, h.signed, h.standby⟩

/-! ### Parts that soundness does not speak of -/

theorem sound_parked (h : Sound s) (v : List Hart) : Sound { s with parked := v } := h
theorem sound_rcache (h : Sound s) (v : List RLine) : Sound { s with rcache := v } := h
theorem sound_poison (h : Sound s) (v : List (Nat × BitVec 32)) : Sound { s with poison := v } := h
theorem sound_spadPoison (h : Sound s) (v : List (Nat × BitVec 32)) : Sound { s with spadPoison := v } := h
theorem sound_tlb (h : Sound s) (v : List TransEntry) : Sound { s with tlb := v } := h
theorem sound_refused (h : Sound s) (v : List Nat) : Sound { s with refused := v } := h
theorem sound_barriers (h : Sound s) (v : List Barrier) : Sound { s with barriers := v } := h
theorem sound_zones (h : Sound s) (v : List Zone) : Sound { s with zones := v } := h
theorem sound_fills (h : Sound s) (v : List Fill) : Sound { s with fills := v } := h
theorem sound_parts (h : Sound s) (v : Vector Partition 8) : Sound { s with parts := v } := h
theorem sound_scheds (h : Sound s) (v : Vector Sched 8) : Sound { s with scheds := v } := h
theorem sound_queues (h : Sound s) (v : List (Nat × Queue)) : Sound { s with queues := v } := h
theorem sound_launches (h : Sound s) (v : List Launch) : Sound { s with launches := v } := h
theorem sound_welt (h : Sound s) (v : Welt) : Sound { s with welt := v } := h
theorem sound_ports (h : Sound s) (v : Vector Port 4) : Sound { s with ports := v } := h
theorem sound_logs (h : Sound s) (v : Vector ErrLog 16) : Sound { s with logs := v } := h
theorem sound_retClusters (h : Sound s) (v : List (Nat × Nat)) : Sound { s with retClusters := v } := h
theorem sound_retCores (h : Sound s) (v : List Nat) : Sound { s with retCores := v } := h
theorem sound_retRows (h : Sound s) (v : List (Nat × Nat)) : Sound { s with retRows := v } := h
theorem sound_retRowsPend (h : Sound s) (v : List Nat) : Sound { s with retRowsPend := v } := h
theorem sound_retiring (h : Sound s) (v : List (Nat × Option Nat)) : Sound { s with retiring := v } := h
theorem sound_repairing (h : Sound s) (v : Option Nat) : Sound { s with repairing := v } := h
theorem sound_lost (h : Sound s) (v : List Path) : Sound { s with lost := v } := h
theorem sound_lostGood (h : Sound s) (v : List Path) : Sound { s with lostGood := v } := h
theorem sound_torn (h : Sound s) (v : List Torn) : Sound { s with torn := v } := h
theorem sound_fulls (h : Sound s) (v : List (Fin 256 × Word)) : Sound { s with fulls := v } := h
theorem sound_chances (h : Sound s) (v : List Chance) : Sound { s with chances := v } := h
theorem sound_outbox (h : Sound s) (v : List Message) : Sound { s with outbox := v } := h
theorem sound_agenda (h : Sound s) (v : List Instr) : Sound { s with agenda := v } := h
theorem sound_nextHart (h : Sound s) (v : Nat) : Sound { s with nextHart := v } := h
theorem sound_nextLaunch (h : Sound s) (v : Nat) : Sound { s with nextLaunch := v } := h
theorem sound_nextOrder (h : Sound s) (v : Nat) : Sound { s with nextOrder := v } := h
theorem sound_time (h : Sound s) (v : Nat) : Sound { s with time := v } := h
theorem sound_freeCtr (h : Sound s) (v : Nat) : Sound { s with freeCtr := v } := h

/-! ### Registers -/

theorem sound_setX (h : Sound s) (r : XReg) (v : Word) : Sound (s.setX r v) := by
  unfold State.setX; split <;> exact h
theorem sound_setC (h : Sound s) (r : CBit) (v : Bool) : Sound (s.setC r v) := h
theorem sound_setPc (h : Sound s) (v : Word) : Sound (s.setPc v) := h
theorem sound_count (h : Sound s) : Sound s.count := h
theorem sound_retire (h : Sound s) : Sound s.retire := h
theorem sound_raise (h : Sound s) (f : Flags) (b : Bool) : Sound (s.raise f b) := h
theorem sound_setVsi (h : Sound s) (n : Nat) : Sound (s.setVsi n) := h
theorem sound_latch (h : Sound s) (w : BitVec 32) (b : Bool) : Sound (s.latch w b) := h
theorem sound_wait (h : Sound s) (w : Wait) (p : Phase) : Sound (s.wait w p) := h
theorem sound_clearLost (h : Sound s) : Sound s.clearLost := h
theorem sound_fresh (h : Sound s) : Sound s.fresh.2 := h
theorem sound_send (h : Sound s) (m : Message) : Sound (s.send m) := h
theorem sound_mapHarts (h : Sound s) (f : Hart → Hart) : Sound (s.mapHarts f) := h

/-! ### Traps -/

theorem sound_enterTrap (h : Sound s) (a : Bool) (c : Nat) (p f i : Word) : Sound (s.enterTrap a c p f i) := h

theorem sound_takeTrap (h : Sound s) (t : Trap) : Sound (s.takeTrap t) := by
  unfold State.takeTrap
  split
  · exact h
  · split
    · split <;> exact h
    · exact h

theorem outSound_finish {r : Run State} (h : Ends Sound r) : OutSound (finish r) := by
  cases r with
  | ok s => exact outSound_next h
  | error e => exact outSound_next (sound_takeTrap h _)

theorem ends_noStrip (h : Sound s) : Ends (fun _ => True) s.noStrip := ends_require h _ _

theorem ends_returnTo (h : Sound s) (t : Word) (p : BitVec 2) : Ends Sound (s.returnTo t p) := by
  unfold State.returnTo
  exact ends_ite (ends_trap h _) (ends_ok h)

/-! ### The other harts -/

theorem sound_swap (h : Sound s) (n : Nat) : Sound (s.swap n) := by
  unfold State.swap; split <;> exact h

theorem sound_asHart (h : Sound s) (n : Nat) (f : State → State) (hf : ∀ s, Sound s → Sound (f s)) :
    Sound (s.asHart n f) := by
  unfold State.asHart
  split
  · exact hf _ h
  · exact sound_swap (hf _ (sound_swap h n)) _

/-! ### Memory and cached lines -/

theorem sound_writeLoc (h : Sound s) (l : Loc) (n v : Nat) : Sound (s.writeLoc l n v) := by
  cases l with
  | phys a => exact ⟨Memory.wf_writeN h.mem_wf a n v, h.spad_wf, h.signed, h.standby⟩
  | spad i => exact sound_spad h (Memory.wf_writeN h.spad_wf i n v)

/-- Folding sound steps is sound. -/
theorem sound_foldl {α : Type} (f : State → α → State) (hf : ∀ s a, Sound s → Sound (f s a)) (l : List α) :
    ∀ {s : State}, Sound s → Sound (l.foldl f s) := by
  induction l with
  | nil => exact fun h => h
  | cons a l ih => exact fun h => ih (hf _ a h)

theorem sound_putLoc (h : Sound s) (l : Loc) (n v : Nat) (half : Option Bool) : Sound (s.putLoc l n v half) := by
  cases half
  · exact sound_writeLoc h _ _ _
  · exact Sound.of_eq (sound_writeLoc h l 1 (mergeHalf _ _ _).toNat) rfl rfl rfl rfl

theorem sound_refresh (h : Sound s) (line : Nat) (ds : List Dirty) : Sound (s.refresh line ds) := h

theorem sound_writeBack (h : Sound s) (l : RLine) : Sound (s.writeBack l) := by
  unfold State.writeBack
  split
  · exact h
  · exact sound_rcache (sound_refresh (sound_foldl _ (fun _ _ h => sound_putLoc h _ _ _ _) _ h) _ _) _

theorem sound_settle (h : Sound s) (hid pa : Nat) : Sound (s.settle hid pa) := sound_foldl _ (fun _ l h => sound_writeBack h l) _ h

theorem sound_fillLine (h : Sound s) (c hid a : Nat) : Sound (s.fillLine c hid a).2 := by
  unfold State.fillLine
  split
  · exact h
  · split
    · exact h
    · exact sound_rcache (sound_settle h _ _) _

theorem sound_forget (h : Sound s) (line hid off n : Nat) (half : Option Bool) : Sound (s.forget line hid off n half) := h

theorem sound_writeLine (h : Sound s) (c hid a va n v : Nat) (half : Option Bool) : Sound (s.writeLine c hid a va n v half) :=
  sound_rcache (sound_forget (sound_fillLine h _ _ _) _ _ _ _ _) _

theorem sound_writeBackAll (h : Sound s) (c hid : Nat) : Sound (s.writeBackAll c hid).1 :=
  sound_foldl _ (fun _ l h => sound_writeBack h l) _ h

theorem gives_reportLost (h : Sound s) : Gives Sound s.reportLost := by
  unfold State.reportLost
  split
  · exact gives_error _
  · exact gives_ok h

theorem gives_releaseSys (h : Sound s) : Gives Sound s.releaseSys := by
  unfold State.releaseSys
  refine gives_bind (gives_reportLost h) fun s h => ?_
  split
  · rename_i s' e
    have := sound_writeBackAll h s.hart.place.core s.hart.place.hid
    rw [e] at this
    exact gives_ok this
  · exact gives_error _

theorem gives_acquireSys (h : Sound s) : Gives Sound s.acquireSys := by
  unfold State.acquireSys
  intro t e
  cases hr : s.releaseSys with
  | error r => rw [hr] at e; cases e
  | ok u => rw [hr] at e; cases e; exact sound_rcache (gives_releaseSys h u hr) _

theorem ends_ordered (h : Sound s) {r : Except Reject State} (hr : Gives Sound r) : Ends Sound (s.ordered r) := by
  cases r with
  | ok a => exact hr a rfl
  | error e => exact h

theorem ends_release (h : Sound s) : Ends Sound (s.ordered s.releaseSys) := ends_ordered h (gives_releaseSys h)
theorem ends_acquire (h : Sound s) : Ends Sound (s.ordered s.acquireSys) := ends_ordered h (gives_acquireSys h)

/-! ### Single accesses -/

theorem gives_readAt (h : Sound s) (p : Route) (l : Loc) (va n : Nat) : Gives (fun r => Sound r.2) (s.readAt p l va n) := by
  intro r e
  unfold State.readAt at e
  split at e
  · split at e
    · cases e
    · cases e; exact h
  · split at e
    · split at e; dsimp only at e; split at e; cases e; cases e; exact sound_fillLine h _ _ _
    · dsimp only at e
      split at e
      · cases e
      · cases e; exact sound_settle h _ _
    · split at e
      · cases e
      · cases e; exact h

theorem sound_writeOver (h : Sound s) (p : Route) (l : Loc) (va n v : Nat) (half : Option Bool) : Sound (s.writeOver p l va n v half) := by
  unfold State.writeOver
  split
  · exact sound_putLoc h _ _ _ _
  · split
    · exact sound_writeLine h _ _ _ _ _ _ _
    · exact sound_refresh (sound_forget (sound_putLoc h _ _ _ _) _ _ _ _ _) _ _
    · exact sound_putLoc h _ _ _ _

theorem sound_writeAt (h : Sound s) (p : Route) (l : Loc) (va n v : Nat) : Sound (s.writeAt p l va n v) := sound_writeOver h _ _ _ _ _ _

theorem gives_load (h : Sound s) (p : Route) (va n : Nat) : Gives (fun r => Sound r.2) (s.load p va n) := by
  unfold State.load
  exact gives_bind (gives_any _) fun l _ => gives_bind (gives_readAt h p l va n) fun ⟨v, s'⟩ h => gives_ok h

theorem gives_put (h : Sound s) (p : Route) (rel : Option Scope) (l : Loc) (va n v : Nat) (half : Option Bool) :
    Gives Sound (s.put p rel l va n v half) := by
  unfold State.put
  split
  · split
    · exact gives_error _
    · exact gives_ok h
  · split
    · exact gives_error _
    · exact gives_ok (sound_writeOver h _ _ _ _ _ _)

theorem gives_store (h : Sound s) (p : Route) (rel : Option Scope) (va n v : Nat) : Gives Sound (s.store p rel va n v) := by
  unfold State.store
  exact gives_bind (gives_any _) fun l _ => gives_put h _ _ _ _ _ _ _

/-! ### Landing zones -/

theorem sound_setZoneWord (h : Sound s) (z : Zone) (k v : Nat) : Sound (s.setZoneWord z k v) := sound_writeLoc h _ _ _

theorem sound_setEntry (h : Sound s) (z : Zone) (k v : Nat) : Sound (s.setEntry z k v) := sound_setZoneWord h _ _ _

theorem sound_reserve (h : Sound s) (w : Word) (d c : Nat) (p : Option (Fin 8)) : Sound (s.reserve w d c p).2.2 := by
  unfold State.reserve
  split
  · exact h
  · split
    · exact h
    · split
      · exact h
      · split
        · exact h
        · exact sound_fills (sound_setEntry h _ _ _) _

theorem sound_firstRequest (h : Sound s) {w : Word} {d c : Nat} {p : Option (Fin 8)} {x : Transfer} {n : Nat} {f : Bool}
    {t : State} (e : s.firstRequest w d c p x n f = .ok t) : Sound t := by
  unfold State.firstRequest at e
  split at e
  · cases e
  · split at e
    · cases e
    · split at e
      · cases e
      · split at e
        · cases e
        · simp only at e
          split at e
          · cases e
          · split at e
            · cases e
            · cases e; exact sound_fills (sound_setEntry h _ _ _) _

theorem sound_eyeletFull (h : Sound s) (z : Zone) (f : Fill) : Sound (s.eyeletFull z f) :=
  sound_fills (sound_setZoneWord (sound_setEntry h _ _ _) _ _ _) _

theorem wf_foldl {α : Type} (f : List Host.Cell → α → List Host.Cell)
    (hf : ∀ m a, Memory.wf m = true → Memory.wf (f m a) = true) (l : List α) :
    ∀ {m : List Host.Cell}, Memory.wf m = true → Memory.wf (l.foldl f m) = true := by
  induction l with
  | nil => exact fun h => h
  | cons a l ih => exact fun h => ih (hf _ a h)

theorem sound_arrive (h : Sound s) (z : Zone) (f : Fill) (l : List Byte) : Sound (s.arrive z f l) := by
  unfold State.arrive
  extract_lets e got dd s1 s2
  have h1 : Sound s1 := sound_foldl _ (fun _ _ h => sound_writeLoc h _ _ _) _ h
  have h2 : Sound s2 := sound_setEntry h1 _ _ _
  split
  · exact sound_eyeletFull h2 _ _
  · exact h2

theorem sound_tear (h : Sound s) (f : Fill) : Sound (s.tear f) := by
  unfold State.tear
  simp only
  split
  · exact h
  · exact sound_setZoneWord (sound_setEntry (sound_fills h _) _ _ _) _ _ _

theorem sound_clobber (h : Sound s) (l : Loc) : Sound (s.clobber l) := by
  unfold State.clobber
  split
  · split
    · exact sound_setZoneWord h _ _ _
    · exact h
  · split
    · exact sound_mem h (Memory.wf_writeN h.mem_wf _ _ _)
    · exact h

/-! ### Fetching -/

theorem gives_fetchWord (h : Sound s) (a : Word) : Gives (fun r => Sound r.2) (fetchWord s a) := by
  unfold fetchWord
  exact gives_bind (gives_any _) fun l _ => gives_readAt h _ _ _ _

theorem sound_present (h : Sound s) : Sound s.present := by unfold State.present; split <;> exact h

theorem ends_fetch (h : Sound s) : Ends (fun r => Sound r.2.2) (fetch s) := by
  unfold fetch
  have hp := sound_present h
  refine ends_bind (ends_orTrap (sound_latch hp _ _) (gives_fetchWord hp _)) fun ⟨w, s1⟩ h1 => ?_
  dsimp only
  split
  · exact ends_bind (ends_orTrap (sound_latch hp _ _) (gives_fetchWord h1 _)) fun ⟨_, _⟩ h2 => ends_ok h2
  · exact ends_ok h1

end Sys2Proof.Machine
end

