-- ==== Sys2Proof/Laws/SoundSystem.lean ====
section
/-! SUPPORT. Soundness of the copy engines, the scheduler's records, the register blocks, context switches and the
system and synchronisation instructions. -/

namespace Sys2Proof.Machine

set_option Elab.async false

open Sys2Proof.Safety

variable {s : State}

/-! ### Copy engines -/

theorem sound_setChan (h : Sound s) (k : ChNum) (c : Channel) : Sound (s.setChan k c) := h

theorem gives_copyRead (h : Sound s) (k : CopyCmd) (a : Word) : Gives (fun r => Sound r.2) (s.copyRead k a) :=
  gives_bind (gives_any _) fun _ _ => gives_readAt h _ _ _ _

theorem gives_nextPayload (h : Sound s) (k : CopyCmd) (n : Nat) (l : List Byte) :
    Gives (fun r => Sound r.2.2) (s.nextPayload k n l) := by
  unfold State.nextPayload
  split
  · exact gives_ok h
  · split
    · exact gives_ok h
    · exact gives_bind (gives_copyRead h _ _) fun ⟨_, _⟩ h => gives_ok h

theorem sound_copyLocal (h : Sound s) (ch : ChNum) (k : CopyCmd) : Sound (s.copyLocal ch k) := by
  unfold State.copyLocal
  dsimp only
  split
  · exact h
  · split
    · split <;> exact h
    · split
      · exact sound_setChan (sound_clobber h _) _ _
      · split
        · exact h
        · rename_i e
          exact sound_setChan (sound_writeAt (gives_readAt h _ _ _ _ _ e) _ _ _ _ _) _ _

theorem sound_transferBegin (h : Sound s) (ch : ChNum) (k : CopyCmd) : Sound (s.transferBegin ch k) := by
  unfold State.transferBegin
  dsimp only
  split; · exact h
  split; · exact h
  split; · split <;> exact h
  split; · exact h
  split
  · split
    · split; · exact h
      split; · exact h
      rename_i e
      have h' := sound_firstRequest h e
      split
      · split
        · exact sound_setChan (sound_eyeletFull h' _ _) _ _
        · exact sound_setChan h' _ _
      · exact sound_setChan h' _ _
    · exact h
  · split; · exact h
    split; · exact h
    exact sound_setChan (sound_send h _) _ _

theorem sound_transferMove (h : Sound s) (ch : ChNum) (k : CopyCmd) : Sound (s.transferMove ch k) := by
  unfold State.transferMove
  dsimp only
  split
  · split
    · split; · exact h
      split
      · split
        · exact h
        · exact sound_setChan (sound_tear h _) _ _
      · rename_i e
        exact sound_setChan (sound_arrive (gives_nextPayload h _ _ _ _ e) _ _ _) _ _
    · exact h
  · split; · exact h
    split
    · split
      · exact h
      · exact sound_setChan (sound_send h _) _ _
    · rename_i e
      exact sound_setChan (sound_send (gives_nextPayload h _ _ _ _ e) _) _ _

theorem sound_copyMove (h : Sound s) (ch : ChNum) : Sound (s.copyMove ch) := by
  unfold State.copyMove
  dsimp only
  split
  · split
    · exact h
    · split
      · split
        · exact sound_transferMove h _ _
        · exact sound_transferBegin h _ _
      · exact sound_copyLocal h _ _
  · exact h

theorem sound_runChannel (ch : ChNum) (n : Nat) : ∀ {s : State}, Sound s → Sound (s.runChannel ch n) := by
  induction n with
  | zero => exact fun h => h
  | succ n ih =>
    intro s h
    rw [State.runChannel]
    split
    · exact ih (sound_copyMove h _)
    · exact h

theorem sound_readAhead (ch : ChNum) (k : CopyCmd) (n : Nat) : ∀ {s : State}, Sound s → Sound (s.readAhead ch k n) := by
  induction n with
  | zero => exact fun h => h
  | succ n ih =>
    intro s h
    rw [State.readAhead]
    split; · exact h
    split
    · exact h
    · rename_i e
      exact ih (sound_setChan (gives_copyRead h _ _ _ e) _ _)

theorem sound_drainChannel (h : Sound s) (ch : ChNum) : Sound (s.drainChannel ch) := by
  unfold State.drainChannel
  dsimp only
  have hr : Sound (s.runChannel ch (s.chan ch).fuel) := sound_runChannel _ _ h
  split
  · split
    · exact sound_readAhead _ _ _ hr
    · exact hr
  · exact hr

theorem sound_drain (h : Sound s) : Sound s.drain := sound_foldl _ (fun _ _ h => sound_drainChannel h _) _ h

theorem ends_accept (h : Sound s) (ch : ChNum) (k : CopyCmd) : Ends Sound (s.accept ch k) := by
  unfold State.accept
  split
  · exact ends_trap h _
  · split
    · exact ends_trap h _
    · dsimp only
      split
      · exact ends_ok (sound_setChan (sound_writeBackAll h _ _) _ _)
      · exact ends_ok (sound_setChan h _ _)

/-! ### Queues and launches -/

theorem sound_setQueue (h : Sound s) (q : Nat) (v : Queue) : Sound (s.setQueue q v) := h
theorem sound_putLaunch (h : Sound s) (l : Launch) : Sound (s.putLaunch l) := h

theorem sound_enqueue (h : Sound s) (q : Nat) (w : List Word) : Sound (s.enqueue q w) := by
  unfold State.enqueue; dsimp only; split <;> exact h

theorem sound_signal (h : Sound s) (l : Launch) (n : Nat) : Sound (s.signal l n) := by
  unfold State.signal
  split
  · exact h
  · split
    · split
      · exact sound_writeLoc h _ _ _
      · exact h
    · exact h

theorem sound_rejectLaunch (h : Sound s) (l : Launch) : Sound (s.rejectLaunch l) := by
  unfold State.rejectLaunch
  dsimp only
  split
  · exact sound_setQueue (sound_putLaunch (sound_signal h _ _) _) _ _
  · exact sound_putLaunch (sound_signal h _ _) _

theorem sound_acceptPacket (h : Sound s) (q : Nat) (p : Fin 8) : Sound (s.acceptPacket q p) := by
  unfold State.acceptPacket
  extract_lets k
  split
  · exact h
  · extract_lets l t
    have ht : Sound t := h
    split
    · exact sound_rejectLaunch (sound_setQueue ht _ _) _
    · exact sound_putLaunch (sound_setQueue ht _ _) _

theorem sound_recheckDep (h : Sound s) (l : Launch) : Sound (s.recheckDep l) := by
  unfold State.recheckDep; split <;> exact h

/-! ### Register blocks -/

theorem sound_setPart (h : Sound s) (p : Fin 8) (k : Partition) : Sound (s.setPart p k) := h

theorem sound_enablePart (h : Sound s) (p : Fin 8) : Sound (s.enablePart p) := by
  unfold State.enablePart
  dsimp only
  split
  · exact h
  · split
    · refine sound_foldl _ (fun s q h => ?_) _ (sound_setPart h _ _)
      split <;> exact h
    · exact h

theorem sound_rejectQueued (h : Sound s) (p : Fin 8) (q : Nat) : Sound (s.rejectQueued p q) := by
  unfold State.rejectQueued
  extract_lets ws q' t
  have ht : Sound t := by unfold t; split <;> exact h
  refine sound_foldl _ (fun s w h => ?_) _ ht
  extract_lets l
  have hl : Sound { s with nextLaunch := s.nextLaunch + 1, launches := s.launches ++ [l] } := h
  exact sound_rejectLaunch hl _

theorem sound_disablePart (h : Sound s) (p : Fin 8) : Sound (s.disablePart p) := by
  unfold State.disablePart
  dsimp only
  split
  · exact h
  · exact sound_setPart (sound_foldl _ (fun s q h => sound_rejectQueued h p q) _
      (sound_foldl _ (fun s l h => sound_rejectLaunch h l) _ h)) _ _

theorem sound_writePctl (h : Sound s) (p : Fin 8) (v : Word) : Sound (s.writePctl p v) := by
  unfold State.writePctl
  dsimp only
  have h' : Sound (if v.getLsbD 1 && !(s.partOf p).en then s.setPart p { s.partOf p with err := false } else s) := by split <;> exact h
  split
  · exact sound_enablePart h' _
  · exact sound_disablePart h' _

theorem sound_writePart (h : Sound s) (p : Fin 8) (n : Nat) (v : Word) : Sound (s.writePart p n v) := by
  unfold State.writePart
  split
  · exact sound_writePctl h _ _
  · exact h

theorem sound_setPort (h : Sound s) (p : Fin 4) (k : Port) : Sound (s.setPort p k) := h

theorem sound_sendFlit (h : Sound s) (p : Fin 4) (k : Nat) (d : Fin 256) (q : BitVec 32) (l : List Byte) : Sound (s.sendFlit p k d q l) :=
  sound_send (sound_setPort (sound_fresh h) _ _) _

theorem sound_sendUser (h : Sound s) (p : Fin 4) (f : Fin 3 × Fin 256 × BitVec 32 × List Byte) : Sound (s.sendUser p f) := by
  obtain ⟨a, b, c, d⟩ := f
  unfold State.sendUser
  dsimp only
  split; · exact h
  split; · exact sound_sendFlit h _ _ _ _ _
  split; · exact h
  exact sound_sendFlit (sound_setPort h _ _) _ _ _ _ _

theorem sound_traffic (h : Sound s) (p : Fin 4) : Sound (s.traffic p) := by
  unfold State.traffic
  split
  · exact h
  · exact sound_foldl _ (fun _ _ h => sound_sendUser h _ _) _ (sound_fresh h)

theorem sound_allTraffic (h : Sound s) : Sound s.allTraffic := sound_foldl _ (fun _ p h => sound_traffic h p) _ h

/-- A change of the service block that leaves READY and STATE alone. -/
theorem sound_service (h : Sound s) (k : Service) (hr : k.ready = s.service.ready) (hs : k.state = s.service.state) :
    Sound { s with service := k } :=
  ⟨h.mem_wf, h.spad_wf, by rw [show State.service { s with service := k } = k from rfl, hr]; exact h.signed,
    by rw [show State.service { s with service := k } = k from rfl, hr, hs]; exact h.standby⟩

theorem sound_snapshot (h : Sound s) : Sound s.snapshot := by
  unfold State.snapshot
  extract_lets t vals
  have ht : Sound t := sound_allTraffic h
  clear_value t
  exact sound_service ht _ rfl rfl

/-! ### Special registers -/

theorem ends_srPrivilege (h : Sound s) (n : Nat) : Ends (fun _ => True) (s.srPrivilege n) := by
  unfold State.srPrivilege
  split
  · trivial
  · split
    · exact ends_trap h _
    · exact ends_ite trivial (ends_trap h _)
    · trivial

theorem ends_readSr (h : Sound s) (n : Nat) : Ends (fun r => Sound r.2) (s.readSr n) := by
  unfold State.readSr
  refine ends_bind (ends_srPrivilege h n) fun _ _ => ?_
  split
  · exact h
  · split
    · split
      · exact h
      · exact ends_trap h _
    · split
      · exact h
      · exact ends_trap h _

theorem sound_setPriv (h : Sound s) (f : Priv → Priv) : Sound (s.setPriv f) := h

theorem ends_writeLast (h : Sound s) (n : Nat) (v : Word) : Ends Sound (s.writeLast n v) := by
  unfold State.writeLast
  split
  · exact ends_trap h _
  · split
    · exact ends_trap h _
    · exact ends_ok h

theorem sound_writeUserSr (h : Sound s) (n : Nat) (v : Word) : Sound (s.writeUserSr n v) := by
  unfold State.writeUserSr
  dsimp only
  repeat' split
  all_goals exact h

theorem sound_writePrivSr (h : Sound s) (n : Nat) (v : Word) : Sound (s.writePrivSr n v) := by
  unfold State.writePrivSr
  extract_lets w
  split
  all_goals first
    | with_reducible exact sound_setPriv h _
    | skip
  · split
    · exact sound_snapshot h
    · exact h
  · split
    · exact sound_writePart h _ _ _
    · exact h

theorem ends_writeSr (h : Sound s) (n : Nat) (v : Word) : Ends Sound (s.writeSr n v) := by
  unfold State.writeSr
  refine ends_bind (ends_srPrivilege h n) fun _ _ => ?_
  split
  · exact ends_writeLast h _ _
  · split
    · exact ends_ite (ends_ok (sound_writeUserSr h _ _)) (ends_trap h _)
    · exact ends_ite (ends_ok (sound_writePrivSr h _ _)) (ends_trap h _)

/-! ### Placing harts -/

theorem sound_addHart (h : Sound s) (k : Hart) : Sound (s.addHart k) := by unfold State.addHart; split <;> exact h

theorem sound_freshCore (h : Sound s) (c hid : Nat) : Sound (s.freshCore c hid) := sound_rcache (sound_writeBackAll h c hid) _

theorem wf_zeroPieces {m : List Host.Cell} (h : Memory.wf m = true) (c : Nat) (ps : List Nat) :
    Memory.wf (zeroPieces m c ps) = true := wf_foldl _ (fun _ _ h => Memory.wf_zero h _ _) _ h

theorem sound_zeroPieces (h : Sound s) (c : Nat) (ps : List Nat) : Sound (s.zeroPieces c ps) :=
  sound_spad h (wf_zeroPieces h.spad_wf _ _)

theorem sound_startHart (h : Sound s) (l : Launch) (k : Hold) (i : Nat) : Sound (s.startHart l k i) := by
  unfold State.startHart
  extract_lets t n
  have ht : Sound t := sound_freshCore h _ _
  clear_value t
  exact sound_addHart (sound_zeroPieces (sound_nextHart ht _) _ _) _

theorem sound_startLaunch (h : Sound s) (l : Launch) (home g : Nat) (ps : List Hold) (e : Nat) :
    Sound (s.startLaunch l home g ps e) := by
  unfold State.startLaunch
  dsimp only
  refine sound_putLaunch (sound_nextOrder ?_ _) _
  have h' := sound_foldl (fun s (x : Hold × Nat) => s.startHart l x.1 (l.placed + x.2)) (fun _ _ h => sound_startHart h _ _ _)
    ps.zipIdx h
  split <;> exact h'

/-! ### The end of a hart and context switches -/

theorem sound_killZone (h : Sound s) (z : Zone) : Sound (s.killZone z) := by
  unfold State.killZone
  dsimp only
  refine sound_foldl _ (fun s f h => ?_) _ (Sound.of_eq (sound_setZoneWord h z 0 0) rfl rfl rfl rfl)
  split
  · exact h
  · exact h
  · exact h

theorem sound_closeLaunch (h : Sound s) (n i c : Nat) : Sound (s.closeLaunch n i c) := by
  unfold State.closeLaunch
  split
  · exact h
  · exact h

theorem sound_settleRetire (h : Sound s) : Sound s.settleRetire := by
  unfold State.settleRetire
  split
  · exact h
  · exact sound_service (sound_retiring h _) _ rfl rfl

theorem sound_newCandidate (h : Sound s) (old : State) (n : Nat) : Sound (s.newCandidate old n) := by
  unfold State.newCandidate
  split
  · split <;> exact h
  · exact h

theorem sound_endHart (h : Sound s) (c : Nat) : Sound (s.endHart c) := by
  have ht : Sound ((s.zones.filter fun z => z.owner == s.hart.place.hid).foldl State.killZone s) :=
    sound_foldl State.killZone (fun _ _ h => sound_killZone h _) _ h
  unfold State.endHart
  dsimp only
  generalize (s.zones.filter fun z => z.owner == s.hart.place.hid).foldl State.killZone s = t at ht ⊢
  refine sound_settleRetire (sound_newCandidate (sound_closeLaunch ?_ _ _ _) _ _)
  split
  · exact sound_zeroPieces (Sound.hart ht _) _ _
  · exact Sound.hart ht _

theorem sound_putRegion (pages : List (Nat × Nat)) (n : Nat) :
    ∀ {s : State} (off v : Nat), Sound s → Sound (s.putRegion pages off v n) := by
  induction n with
  | zero => exact fun _ _ h => h
  | succ n ih => exact fun _ _ h => ih _ _ (sound_writeLoc h _ _ _)

theorem sound_readCycle (h : Sound s) : Sound s.readCycle.2 := h

theorem ends_switchOut (h : Sound s) : Ends Sound s.switchOut := by
  unfold State.switchOut
  have hd : Sound s.drain := sound_drain h
  dsimp only
  generalize s.drain = d at hd ⊢
  have hc := sound_readCycle hd
  generalize d.readCycle.2 = c at hc ⊢
  split
  · exact hd
  · split
    · exact ends_ok (sound_endHart hd _)
    · split
      · exact ends_trap hc _
      · refine ends_ok (sound_settleRetire (sound_newCandidate (Sound.hart ?_ _) _ _))
        have hu := fun rs pages => sound_foldl (fun s (x : Nat × Nat × Nat) => s.putRegion pages x.1 x.2.2 ((x.2.1 + 7) / 8))
            (fun _ _ h => sound_putRegion _ _ _ _ h) rs hc
        split
        · exact hu _ _
        · exact sound_zeroPieces (hu _ _) _ _

theorem sound_restorePage (h : Sound s) (pages : List (Nat × Nat)) (c : Nat) (ps : List Nat) (kept out : Bool) (p : Nat) :
    Sound (s.restorePage pages c ps kept out p) := by
  unfold State.restorePage
  dsimp only
  split; · exact sound_writeLoc h _ _ _
  split; · exact h
  exact sound_writeLoc h _ _ _

theorem sound_restorePieces (h : Sound s) (pages : List (Nat × Nat)) (c : Nat) (ps : List Nat) (d f : Nat) :
    Sound (s.restorePieces pages c ps d f) := sound_foldl _ (fun _ _ h => sound_restorePage h _ _ _ _ _ _) _ h

theorem sound_restoreWith (h : Sound s) (k : Hold) (rs : List (Nat × Nat)) (o : Option (List (Nat × Nat))) :
    Sound (s.restoreWith k rs o) := by
  cases o with
  | none => exact sound_endHart h _
  | some pages =>
    rw [State.restoreWith]
    split
    · exact sound_endHart h _
    · split
      · exact sound_endHart h _
      · exact sound_restorePieces (Sound.hart h _) _ _ _ _ _

theorem sound_restoreHart (h : Sound s) (k : Hold) : Sound (s.restoreHart k) := by
  unfold State.restoreHart
  cases (s.areaPages s.hart [(0, 0)]).toOption with
  | none => exact sound_endHart h _
  | some hp => exact sound_restoreWith h _ _ _

/-! ### System instructions -/

theorem ends_kernelOnly (h : Sound s) : Ends (fun _ => True) s.kernelOnly := ends_require h _ _

theorem sound_dropEntries (h : Sound s) (p : Fin 8) (va : Nat) (a : Option (BitVec 16)) : Sound (s.dropEntries p va a) := h

theorem sound_invalidate (h : Sound s) (va : Nat) (a : Option (BitVec 16)) : Sound (s.invalidate va a) := by
  unfold State.invalidate
  extract_lets t p u
  have ht : Sound t := sound_drain h
  clear_value t
  split
  · exact sound_retire (sound_dropEntries ht _ _ _)
  · exact sound_dropEntries ht _ _ _

/-! ### Synchronisation -/

theorem gives_evictFor (h : Sound s) (l : Loc) : Gives Sound (s.evictFor l) := by
  unfold State.evictFor
  split
  · exact gives_ok h
  · extract_lets core line mine
    split
    · exact gives_error _
    · exact gives_ok (sound_rcache (sound_foldl _ (fun _ l h => sound_writeBack h l) _ h) _)

theorem ends_atomicLoc (h : Sound s) (va n : Nat) (b : Bool) : Ends (fun _ => True) (s.atomicLoc va n b) := by
  unfold State.atomicLoc
  exact ends_bind (ends_orTrap h (gives_any _)) fun _ _ => ends_bind (ends_require h _ _) fun _ _ =>
    ends_bind (ends_require h _ _) fun _ _ => trivial

theorem ends_beforeAtomic (h : Sound s) (l : Loc) (rel : Bool) : Ends Sound (s.beforeAtomic l rel) := by
  unfold State.beforeAtomic
  refine ends_bind (ends_ordered h (gives_reportLost h)) fun s1 h1 => ?_
  refine ends_choose (ends_release h1) h1 fun s2 h2 => ?_
  exact ends_ite (ends_orTrap h2 (gives_evictFor h2 _)) (ends_ok h2)

theorem ends_atomicRefused (h : Sound s) (l : Loc) (n : Nat) (order : Bool) (f : Nat → Option Nat) (e : Reject) :
    Ends (fun r => Sound r.2) (s.atomicRefused l n order f e) := by
  unfold State.atomicRefused
  refine ends_ite (ends_trap h _) (ends_bind (ends_beforeAtomic h _ _) fun s1 h1 => ?_)
  dsimp only
  split
  · exact ends_error (sound_writeLoc (sound_freeCtr h1 _) _ _ _) _
  · exact ends_trap (sound_freeCtr h1 _) _

theorem ends_atomic (h : Sound s) (va n : Nat) (o : Order) (sc : Scope) (b : Bool) (f : Nat → Option Nat) :
    Ends (fun r => Sound r.2) (s.atomic va n o sc b f) := by
  unfold State.atomic
  refine ends_bind (ends_noStrip h) fun _ _ => ?_
  have hd := sound_drain h
  dsimp only
  generalize s.drain = d at hd ⊢
  refine ends_bind (ends_atomicLoc hd _ _ _) fun l _ => ?_
  split
  · exact ends_atomicRefused hd _ _ _ _ _
  · refine ends_bind (ends_beforeAtomic hd _ _) fun s1 h1 => ?_
    refine ends_bind (ends_orTrap h1 (gives_readAt h1 _ _ _ _)) fun ⟨old, s2⟩ h2 => ?_
    refine ends_choose (ends_acquire h2) h2 fun s3 h3 => ends_ok ?_
    dsimp only
    split
    · exact sound_writeAt h3 _ _ _ _ _
    · exact h3

theorem out_amo (h : Sound s) (d a b : XReg) (o : Order) (sc : Scope) (z k : Bool) (f : Nat → Nat → Option Nat) :
    OutSound (amo d a b o sc z k f s) :=
  outSound_finish (ends_bind (ends_atomic h _ _ _ _ _ _) fun ⟨_, _⟩ h => ends_ok (sound_retire (sound_setX h _ _)))

theorem ends_acquireLoad (h : Sound s) (sc : Scope) (va n : Nat) : Ends (fun r => Sound r.2) (s.acquireLoad sc va n) := by
  unfold State.acquireLoad
  refine ends_ite (ends_bind (ends_orTrap h (gives_load h _ _ _)) fun ⟨_, s1⟩ h1 => ?_) (ends_orTrap h (gives_load h _ _ _))
  exact ends_bind (ends_acquire h1) fun _ h => ends_ok h

theorem sound_wake (h : Sound s) : Sound s.wake := h

theorem ends_waitLocation (h : Sound s) (ge : Bool) (d : XReg) (n : Nat) (sc : Scope) (a v : Word) :
    Ends Sound (s.waitLocation ge d n sc a v) := by
  unfold State.waitLocation
  refine ends_bind (ends_acquireLoad h _ _ _) fun ⟨v, s'⟩ h' => ?_
  exact ends_ite (ends_ok (sound_retire (sound_setX (sound_wake h') _ _))) (ends_ok (sound_wait h' _ _))

theorem ends_passPhase (h : Sound s) (sc : Scope) (g : Bool) : Ends Sound (s.passPhase sc g) := by
  unfold State.passPhase
  exact ends_choose (ends_acquire h) h fun s1 h1 => ends_ok (sound_retire (sound_setC (sound_wake h1) _ _))

theorem ends_waitPhase (h : Sound s) (sc : Scope) (a v : Word) : Ends Sound (s.waitPhase sc a v) := by
  unfold State.waitPhase
  refine ends_bind (ends_orTrap h (gives_any _)) fun pa _ => ?_
  refine ends_bind (ends_orTrap h (gives_any _)) fun ⟨ctl, w⟩ _ => ?_
  exact ends_ite (ends_ok (sound_wait h _ _)) (ends_passPhase h _ _)

theorem sound_settled {r : Run State} (h : Ends Sound r) : Sound (settled r) := by
  cases r with
  | ok s => exact h
  | error e => exact sound_takeTrap h _

theorem sound_releaseWaiter (h : Sound s) (n : Nat) : Sound (s.releaseWaiter n) :=
  sound_asHart h _ _ fun t h => by
    split
    · exact sound_settled (ends_passPhase h _ _)
    · exact h

theorem sound_setFarm (h : Sound s) (f : Farm) : Sound (s.setFarm f) := by unfold State.setFarm; split <;> exact h

theorem sound_setStrip (h : Sound s) (t : Option Strip) : Sound (s.setStrip t) := h

theorem ends_commitOne (h : Sound s) (r : StripRec) : Ends Sound (s.commitOne r) := by
  unfold State.commitOne
  dsimp only
  have key : ∀ l : Loc, Ends Sound (do
      s.orTrap (s.targetTakes s.hart.place.part .store l r.addr (2 ^ r.size) (!(r.rel == some .sys)))
      s.require (!s.liveWord l) (s.trapOf { cause := 0x08, addr := r.addr / 8 * 8 })
      let s ← if (r.rel == some .sys) = true then s.ordered s.releaseSys else .ok s
      let route : Route := match s.targetTakes s.hart.place.part .store l r.addr (2 ^ r.size) false with
        | .ok () => .through
        | .error _ => .cached
      .ok (s.writeOver route l r.addr (2 ^ r.size) r.data r.half)) := fun l =>
    ends_bind (ends_orTrap h (gives_any _)) fun _ _ => ends_bind (ends_require h _ _) fun _ _ =>
      ends_choose (ends_release h) h fun s1 h1 => ends_ok (sound_writeOver h1 _ _ _ _ _ _)
  split
  · exact key _
  · exact ends_bind (ends_orTrap h (gives_any _)) fun l _ => key l

theorem ends_commitAll (st : Strip) (l : List StripRec) : ∀ {s : State} (n : Option Nat), Sound s → Ends Sound (s.commitAll st l n) := by
  induction l with
  | nil => intro s n h; unfold State.commitAll; exact h
  | cons r rest ih =>
    intro s n h
    have h1 := ends_commitOne (sound_setStrip h none) r
    unfold State.commitAll
    split
    · exact sound_setStrip h _
    · exact ends_ok (sound_setStrip h _)
    · rename_i e _
      cases e
      split
      · rename_i s' e; rw [e] at h1; exact ih _ h1
      · rename_i t s' e; rw [e] at h1; exact sound_setStrip h1 _

end Sys2Proof.Machine
end

