-- ==== Sys2Proof/Laws/Sync.lean ====
section
/-! SUPPORT. What release, acquire and an atomic access do when nothing is left to write back. -/

namespace Sys2Proof.Laws

set_option Elab.async false

open Sys2Proof Sys2Proof.Machine Sys2Proof.Claim

theorem foldl_id {α β : Type} (f : β → α → β) (b : β) (l : List α) (h : ∀ a ∈ l, f b a = b) : l.foldl f b = b := by
  induction l with
  | nil => rfl
  | cons a l ih => rw [List.foldl_cons, h a (by simp)]; exact ih fun a ha => h a (by simp [ha])

theorem settled_clean {s : State} (h : clean s) (L : List RLine) (hL : ∀ k ∈ L, k ∈ s.rcache ∧ k.inOrderOf s.hart.place.core s.hart.place.hid = true) :
    L.foldl State.writeBack s = s ∧ s.stuckIn L = none := by
  constructor
  · apply foldl_id
    intro k hk
    have := h.2 k (hL k hk).1 (hL k hk).2
    unfold State.writeBack; simp [this]
  · unfold State.stuckIn
    have : ((L.filter fun l => s.turnedAway l.device l.line).flatMap fun l => l.dirty.map Dirty.va) = [] := by
      rw [List.flatMap_eq_nil_iff]
      intro k hk
      rw [List.mem_filter] at hk
      rw [h.2 k (hL k hk.1).1 (hL k hk.1).2]; rfl
    rw [this]; rfl

theorem writeBackAll_clean {s : State} (h : clean s) : s.writeBackAll s.hart.place.core s.hart.place.hid = (s, none) := by
  unfold State.writeBackAll
  obtain ⟨e1, e2⟩ := settled_clean h (s.rcache.filter (RLine.inOrderOf s.hart.place.core s.hart.place.hid)) (fun k hk => List.mem_filter.1 hk)
  simp only [e1, e2]

theorem report_clean {s : State} (h : clean s) : s.reportLost = .ok s := by unfold State.reportLost; rw [h.1]

theorem release_clean {s : State} (h : clean s) : s.releaseSys = .ok s := by
  unfold State.releaseSys
  rw [report_clean h]
  simp only [bind, Except.bind, writeBackAll_clean h]

/-- The copies of the hart's core and its CAC gone. -/
def dropped (s : State) : State := s.dropLines s.hart.place.core

theorem acquire_clean {s : State} (h : clean s) : s.acquireSys = .ok (dropped s) := by
  unfold State.acquireSys; rw [release_clean h]; rfl

theorem settle_clean {s : State} (h : clean s) (a : Nat) : s.settle s.hart.place.hid a = s := by
  unfold State.settle
  refine (settled_clean h _ fun k hk => ?_).1
  obtain ⟨h1, h2⟩ := List.mem_filter.1 hk
  refine ⟨h1, ?_⟩
  unfold RLine.inOrderOf
  simp only [Bool.and_eq_true] at h2
  simp [h2.2]

theorem clean_rcache {s : State} (h : clean s) (rc : List RLine) (hs : ∀ k ∈ rc, k ∈ s.rcache) : clean { s with rcache := rc } :=
  ⟨h.1, fun k hk hc => h.2 k (hs k hk) hc⟩

/-- s with a cache of clean lines only fewer -/
def Fewer (s t : State) : Prop := ∃ rc, t = { s with rcache := rc } ∧ ∀ k ∈ rc, k ∈ s.rcache

theorem Fewer.refl (s : State) : Fewer s s := ⟨s.rcache, rfl, fun _ h => h⟩
theorem Fewer.trans {s t u : State} (h : Fewer s t) (k : Fewer t u) : Fewer s u := by
  obtain ⟨a, rfl, ha⟩ := h; obtain ⟨b, rfl, hb⟩ := k; exact ⟨b, rfl, fun k hk => ha k (hb k hk)⟩
theorem Fewer.clean {s t : State} (h : Fewer s t) (hc : clean s) : clean t := by
  obtain ⟨a, rfl, ha⟩ := h; exact clean_rcache hc a ha
theorem fewer_dropped (s : State) : Fewer s (dropped s) := ⟨_, rfl, fun k hk => (List.mem_filter.1 hk).1⟩

theorem evict_clean {s : State} (h : clean s) (l : Loc) : ∃ t, s.evictFor l = .ok t ∧ Fewer s t := by
  unfold State.evictFor
  cases l with
  | spad i => exact ⟨s, rfl, .refl s⟩
  | phys a =>
    dsimp only
    obtain ⟨e1, e2⟩ := settled_clean h (s.rcache.filter fun k =>
        k.line == a / 128 * 128 && (k.holder == .core s.hart.place.core || k.dirty.any fun d => d.hid == s.hart.place.hid)) (fun k hk => by
      obtain ⟨h1, h2⟩ := List.mem_filter.1 hk
      refine ⟨h1, ?_⟩
      unfold RLine.inOrderOf
      simp only [Bool.and_eq_true, Bool.or_eq_true] at h2
      rcases h2.2 with h3 | h3 <;> simp [h3])
    rw [e2]
    simp only [e1]
    exact ⟨_, rfl, _, rfl, fun k hk => (List.mem_filter.1 hk).1⟩

theorem ordered_ok {s : State} {r : Except Reject State} {t : State} (h : r = .ok t) : s.ordered r = .ok t := by rw [h]; rfl

theorem readAt_through {s : State} {l : Loc} {va n : Nat} (h : sane s l n) (hc : clean s) : s.readAt .through l va n = .ok (s.readLoc l n, s) := by
  unfold State.readAt
  cases l with
  | spad i => have h : poisoned s.spadPoison i n = false := h; simp only [h]; rfl
  | phys a =>
    have h : poisoned s.poison a n = false := h
    dsimp only
    rw [settle_clean hc]
    simp only [h]
    split <;> first | rfl | (rename_i e; cases e)

/-- What an atomic does to its memory. -/
def wrote (t : State) (l : Loc) (n : Nat) : Option Nat → State
  | some v => t.writeLoc l n (v % 2 ^ (8 * n))
  | none => t

theorem isRemote_iff (a : Nat) : (Loc.phys a).isRemote = true ↔ ∃ d o, targetOf a = .remote d o := by
  unfold Loc.isRemote
  dsimp only
  split <;> simp_all

theorem isHost_iff (a : Nat) : (Loc.phys a).isHost = true ↔ targetOf a = .host := by
  unfold Loc.isHost
  dsimp only
  split <;> simp_all

/-- A write at the coherence point: the location's bytes, and the copies and poison follow. -/
theorem writeAt_through (s : State) (l : Loc) (va n v : Nat) : ∃ rc po sp,
    s.writeAt .through l va n v = { s.writeLoc l n v with rcache := rc, poison := po, spadPoison := sp } := by
  unfold State.writeAt State.writeOver State.putLoc
  cases l with
  | spad i => exact ⟨_, _, _, rfl⟩
  | phys a =>
    dsimp only
    split
    · rename_i e; cases e
    · exact ⟨_, _, _, rfl⟩
    · exact ⟨_, _, _, rfl⟩

/-- An atomic that can be performed: the old value, and what it leaves. -/
theorem atomic_ok {s : State} {va n : Nat} {host : Bool} {l : Loc} (h : atomicOk s va n host l) (o : Order) (sc : Scope) (f : Nat → Option Nat) :
    ∃ w rc po sp, s.atomic va n o sc host f = .ok (s.drain.readLoc l n, w) ∧
      w = { wrote s.drain l n (f (s.drain.readLoc l n)) with rcache := rc, poison := po, spadPoison := sp } := by
  obtain ⟨h1, h2, h3, h4, h5, h6⟩ := h
  have hn : s.noStrip = .ok () := by unfold State.noStrip State.require; rw [h1]; rfl
  unfold State.atomic
  rw [hn]
  generalize s.drain = u at *
  obtain ⟨h2a, h2b⟩ := locate_parts h2
  have hl : u.atomicLoc va n host = .ok l := by
    unfold State.atomicLoc
    rw [h2a]
    have : (!l.isHost || host) = true := by
      cases l with
      | spad i => rfl
      | phys a =>
        by_cases hh : targetOf a = .host
        · simp [h4 a rfl hh]
        · have : (Loc.phys a).isHost = false := by rw [← Bool.not_eq_true, isHost_iff]; exact hh
          simp [this]
    simp only [State.orTrap, State.require, this, h3, bind, Except.bind, Bool.not_false, if_true]
  have hb : ∀ r, ∃ t, u.beforeAtomic l r = .ok t ∧ Fewer u t := by
    intro r
    obtain ⟨t, e1, e2⟩ := evict_clean h6 l
    unfold State.beforeAtomic
    rw [report_clean h6]
    simp only [State.ordered, bind, Except.bind]
    rw [release_clean h6]
    by_cases hr : l.isRemote = true
    · refine ⟨t, ?_, e2⟩
      cases r <;> simp only [hr, e1, State.orTrap, if_true, if_false, Bool.false_eq_true]
    · refine ⟨u, ?_, .refl u⟩
      cases r <;> simp only [hr, if_true, if_false, Bool.false_eq_true]
  obtain ⟨t, ht, ft⟩ := hb (isRel o && sc == .sys)
  have hc := ft.clean h6
  have hsane : sane t l n := by
    obtain ⟨rc, rfl, _⟩ := ft
    cases l <;> exact h5
  have hrl : t.readLoc l n = u.readLoc l n := by obtain ⟨_, rfl, _⟩ := ft; rfl
  have fin : ∀ w, Fewer u w → ∃ rc po sp, (match f (u.readLoc l n) with
      | some v => w.writeAt .through l va n (v % 2 ^ (8 * n)) | none => w) =
      { wrote u l n (f (u.readLoc l n)) with rcache := rc, poison := po, spadPoison := sp } := by
    rintro w ⟨rc, rfl, _⟩
    unfold wrote
    cases f (u.readLoc l n) with
    | none => exact ⟨_, _, _, rfl⟩
    | some v =>
      obtain ⟨a, b, c, e⟩ := writeAt_through { u with rcache := rc } l va n (v % 2 ^ (8 * n))
      refine ⟨a, b, c, ?_⟩
      dsimp only
      rw [e]
      cases l <;> rfl
  have hw : ∃ w, (if (isAcq o && sc == .sys) = true then t.ordered t.acquireSys else .ok t) = .ok w ∧ Fewer u w := by
    split
    · rw [acquire_clean hc]; exact ⟨_, rfl, ft.trans (fewer_dropped t)⟩
    · exact ⟨t, rfl, ft⟩
  obtain ⟨w, ew, fw⟩ := hw
  obtain ⟨a, b, c, e⟩ := fin w fw
  refine ⟨_, a, b, c, ?_, e⟩
  simp only [bind, Except.bind]
  rw [hl]
  simp only
  rw [h2b]
  simp only
  rw [ht]
  simp only
  rw [readAt_through hsane hc, hrl]
  simp only [State.orTrap]
  split at ew
  · rename_i c; rw [if_pos c, ew] <;> rfl
  · rename_i c; rw [if_neg c]; cases ew; rfl

theorem wrote_parts (u : State) (l : Loc) (n : Nat) (f : Option Nat) (rc po sp) : ∃ m s' rc' po' sp',
    { wrote u l n f with rcache := rc, poison := po, spadPoison := sp } =
      { u with mem := m, spad := s', rcache := rc', poison := po', spadPoison := sp' } := by
  unfold wrote; split
  · cases l <;> exact ⟨_, _, _, _, _, rfl⟩
  · exact ⟨_, _, _, _, _, rfl⟩

theorem stored_wrote {u : State} (hm : Memory.wf u.mem = true) (hs : Memory.wf u.spad = true) (l : Loc) (n : Nat) (f : Option Nat)
    (w : State) (hw : w.mem = (wrote u l n f).mem) (hw2 : w.spad = (wrote u l n f).spad) (hv : ∀ v, f = some v → v < 2 ^ (8 * n)) :
    stored u w l n (f.getD (u.readLoc l n)) := by
  cases f with
  | none =>
    refine ⟨?_, fun b _ => by rw [hw]; rfl, fun b _ => by rw [hw2]; rfl⟩
    unfold State.readLoc; rw [hw, hw2]; rfl
  | some v =>
    have hv := hv v rfl
    have e := Nat.mod_eq_of_lt hv
    unfold wrote at hw hw2
    dsimp only at hw hw2
    rw [e] at hw hw2
    cases l with
    | phys a =>
      refine ⟨?_, ?_, fun b _ => by rw [hw2]; rfl⟩
      · unfold State.readLoc; dsimp only; rw [hw]
        show Memory.readN (Memory.writeN u.mem a n v) a n = v
        rw [Memory.readN_writeN hm]
        rw [Nat.pow_mul] at hv
        exact Nat.mod_eq_of_lt hv
      · intro b hb; rw [hw]
        show Memory.read (Memory.writeN u.mem a n v) b = _
        apply Memory.read_writeN_other
        by_contra hc
        exact hb (b - a) (by omega) (by show Loc.phys b = .phys _; congr 1; omega)
    | spad a =>
      refine ⟨?_, fun b _ => by rw [hw]; rfl, ?_⟩
      · unfold State.readLoc; dsimp only; rw [hw2]
        show Memory.readN (Memory.writeN u.spad a n v) a n = v
        rw [Memory.readN_writeN hs]
        rw [Nat.pow_mul] at hv
        exact Nat.mod_eq_of_lt hv
      · intro b hb; rw [hw2]
        show Memory.read (Memory.writeN u.spad a n v) b = _
        apply Memory.read_writeN_other
        by_contra hc
        exact hb (b - a) (by omega) (by show Loc.spad b = .spad _; congr 1; omega)

theorem readLoc_lt (s : State) (l : Loc) (n : Nat) : s.readLoc l n < 2 ^ (8 * n) := by
  unfold State.readLoc; split <;> exact readN_lt _ _ _

theorem amo_core {s : State} {d a b : XReg} {n : Nat} {o : Order} {sc : Scope} {z host : Bool} {l : Loc} (f : Nat → Nat → Option Nat) (g : Nat → Option Nat)
    (hn : n = sizeBytes z) (hS : Safety.Sound s) (h : atomicOk s (s.x a).toNat n host l)
    (hg : ∀ old, old < 2 ^ (8 * n) → (f old ((s.x b).toNat % 2 ^ (8 * n))).map (· % 2 ^ (8 * n)) = g old) :
    let old := s.drain.readLoc l n
    ∃ t, amo d a b o sc z host f s = .next t ∧ t.x d = (if d = 0 then 0 else (BitVec.ofNat (8 * n) old).signExtend 64) ∧
      (∀ r, r ≠ d → t.x r = s.x r) ∧ Claim.stored s.drain t l n ((g old).getD old) ∧ Claim.goesOn s t ∧
      t = { s.drain with mem := t.mem, spad := t.spad, poison := t.poison, spadPoison := t.spadPoison, rcache := t.rcache
                         hart := { s.drain.hart with x := t.hart.x, pc := t.hart.pc, instret := t.hart.instret } } := by
  intro old
  obtain ⟨w, rc, po, sp, e, hw⟩ := atomic_ok h o sc fun old => f old ((s.x b).toNat % 2 ^ (8 * n))
  have hS' := sound_drain hS
  have hco := co_drain s
  have hlt : old < 2 ^ (8 * n) := readLoc_lt _ _ _
  have hgg := hg old hlt
  have e1 : amo d a b o sc z host f s = .next (w.setX d (extendOld n old)).retire := by
    unfold amo; rw [← hn]; simp only [e]; rfl
  rw [e1]
  have hwr : wrote s.drain l n (f old ((s.x b).toNat % 2 ^ (8 * n))) = wrote s.drain l n (g old) := by
    rw [← hgg]; unfold wrote
    rcases f old ((s.x b).toNat % 2 ^ (8 * n)) with _ | v
    · rfl
    · simp [Nat.mod_mod]
  rw [hwr] at hw
  have hst : ∀ v : State, v.mem = w.mem → v.spad = w.spad → stored s.drain v l n ((g old).getD old) := by
    intro v hv1 hv2
    rw [hw] at hv1 hv2
    exact stored_wrote hS'.mem_wf hS'.spad_wf l n (g old) v hv1 hv2 (by
      intro v hv; rw [← hgg] at hv
      rcases hf : f old ((s.x b).toNat % 2 ^ (8 * n)) with _ | q
      · rw [hf] at hv; cases hv
      · rw [hf] at hv
        have : q % 2 ^ (8 * n) = v := by simpa using hv
        rw [← this]; exact Nat.mod_lt _ (Nat.two_pow_pos _))
  have hwf : ∃ m sp rc po q, w = { s.drain with mem := m, spad := sp, rcache := rc, poison := po, spadPoison := q } := by
    rw [hw]
    exact wrote_parts ..
  have hext : extendOld n old = (BitVec.ofNat (8 * n) old).signExtend 64 :=
    signed_ext _ _ (by rw [hn]; cases z <;> decide) hlt
  have h1 := fun r => co_x hco r
  have h2 := co_pc hco
  have h3 := co_len hco
  have h4 := co_instret hco
  clear_value old
  clear e e1 hS' hS h hg hw hwr hgg
  obtain ⟨m, sp, rc, po, q, rfl⟩ := hwf
  revert hst
  generalize s.drain = u at *
  intro hst
  refine ⟨_, rfl, ?_, ?_, hst _ ?_ ?_, ⟨?_, ?_⟩, ?_⟩
  · show (State.setX _ d _).x d = _
    rw [x_setX, if_pos rfl, hext]
  · intro r hr
    show (State.setX _ d _).x r = _
    rw [x_setX, if_neg hr, ← h1 r]; rfl
  · rw [setX_only]; rfl
  · rw [setX_only]; rfl
  · rw [setX_only]; show u.hart.pc + u.len = _; rw [h2, h3]
  · rw [setX_only]; show u.hart.instret + 1 = _; rw [h4]
  · rw [setX_only]; rfl

theorem picks (n : Nat) (lo : Bool) (a b : Nat) (h : 0 < 8 * n) (ha : a < 2 ^ (8 * n)) (hb : b < 2 ^ (8 * n)) :
    pickSigned n lo a b = if signed n a ≤ signed n b then (if lo then a else b) else (if lo then b else a) := by
  have e : ∀ v, v < 2 ^ (8 * n) → toSigned (8 * n) v = signed n v := by
    intro v hv
    unfold signed
    rw [BitVec.toInt_eq_toNat_cond, BitVec.toNat_ofNat, Nat.mod_eq_of_lt hv]
    unfold toSigned
    have e2 : 2 ^ (8 * n) = 2 * 2 ^ (8 * n - 1) := by rw [← Nat.pow_succ']; congr 1; omega
    rw [Nat.mod_eq_of_lt hv]
    have e3 : ((2 ^ (8 * n) : Nat) : Int) = 2 ^ (8 * n) := by push_cast; rfl
    rw [← e3, e2]
    split <;> split <;> first | rfl | omega
  unfold pickSigned
  rw [e a ha, e b hb]
  by_cases c : signed n a ≤ signed n b <;> cases lo <;> simp [c]

end Sys2Proof.Laws
end

