-- ==== Sys2Proof/Laws/Vector.lean ====
section
/-! SUPPORT. What a vector instruction does with its operands: bringing them up, its elements, its end. -/

namespace Sys2Proof.Laws

set_option Elab.async false

open Sys2Proof Sys2Proof.Machine Sys2Proof.Claim

/-- what a delivery leaves -/
def Delivered (s u : State) : Prop := ∃ v ch mem spad poison spadPoison rcache fills outbox, u = { s with
  hart := { s.hart with v := v, ch := ch }, mem := mem, spad := spad, poison := poison, spadPoison := spadPoison
  rcache := rcache, fills := fills, outbox := outbox }

theorem Delivered.refl (s : State) : Delivered s s := ⟨_, _, _, _, _, _, _, _, _, rfl⟩

theorem Delivered.trans {s t u : State} (h : Delivered s t) (k : Delivered t u) : Delivered s u := by
  obtain ⟨_, _, _, _, _, _, _, _, _, rfl⟩ := h
  obtain ⟨_, _, _, _, _, _, _, _, _, rfl⟩ := k
  exact ⟨_, _, _, _, _, _, _, _, _, rfl⟩

theorem delivered_copy {s u : State} (h : CopyOnly s u) : Delivered s u := by
  obtain ⟨_, _, _, _, _, _, _, _, rfl⟩ := h; exact ⟨_, _, _, _, _, _, _, _, _, rfl⟩

/-- The parts of the hart that a delivery leaves. -/
theorem Delivered.keeps {s u : State} (h : Delivered s u) : u.hart.vl = s.hart.vl ∧ u.hart.vsi = s.hart.vsi ∧ u.hart.streams = s.hart.streams ∧
    u.hart.pc + u.len = s.hart.pc + s.len ∧ u.hart.instret = s.hart.instret ∧ (∀ gs, u.boundBy gs = s.boundBy gs) ∧ (∀ x, u.x x = s.x x) := by
  obtain ⟨_, _, _, _, _, _, _, _, _, rfl⟩ := h; exact ⟨rfl, rfl, rfl, rfl, rfl, fun _ => rfl, fun _ => rfl⟩

theorem storage_bit (s : State) (n base k : Nat) : (s.storage base n).testBit k =
    (decide (k < n * s.hart.slice) && (s.hart.v[(base + k / s.hart.slice) % 32]?.getD {}).bits.testBit (k % s.hart.slice)) := by
  induction n generalizing base k with
  | zero => simp [State.storage]
  | succ n ih =>
    rw [State.storage]
    generalize hb : (s.hart.v[base % 32]?.getD {}).bits = b at *
    have key : (b % 2 ^ s.hart.slice + s.storage (base + 1) n <<< s.hart.slice).testBit k =
        if k < s.hart.slice then b.testBit k else (s.storage (base + 1) n).testBit (k - s.hart.slice) := by
      rw [Nat.add_comm, Nat.shiftLeft_eq, Nat.mul_comm, Nat.testBit_two_pow_mul_add _ (Nat.mod_lt _ (Nat.two_pow_pos _))]
      split
      · rw [Nat.testBit_mod_two_pow]; simp [*]
      · rfl
    rw [key]
    by_cases hk : k < s.hart.slice
    · rw [if_pos hk]
      have : k < (n + 1) * s.hart.slice := by rw [Nat.succ_mul]; omega
      rw [Nat.div_eq_of_lt hk, Nat.mod_eq_of_lt hk]
      have hb' : (s.hart.v[(base + 0) % 32]?.getD {}).bits = b := hb
      rw [hb']; simp [this]
    · rw [if_neg hk, ih]
      by_cases h0 : s.hart.slice = 0
      · simp [h0]
      have hd : k / s.hart.slice = (k - s.hart.slice) / s.hart.slice + 1 := by
        have := Nat.add_div_right (k - s.hart.slice) (Nat.pos_of_ne_zero h0)
        rw [Nat.sub_add_cancel (Nat.not_lt.1 hk)] at this; exact this
      have hm : k % s.hart.slice = (k - s.hart.slice) % s.hart.slice := by
        have := Nat.add_mod_right (k - s.hart.slice) s.hart.slice
        rw [Nat.sub_add_cancel (Nat.not_lt.1 hk)] at this; exact this
      rw [hd, hm, show base + 1 + (k - s.hart.slice) / s.hart.slice = base + ((k - s.hart.slice) / s.hart.slice + 1) by omega]
      congr 1
      rw [Nat.succ_mul]
      apply decide_eq_decide.2
      omega

theorem writeGroup_reg (s : State) (g : Grp) (t : Option Tag) (l : List (Nat × Nat)) (r : Nat) (hr : r < 32) :
    (s.writeGroup g t l).hart.v[r] = if g.has r then
      { bits := bitsAt (putElems (s.bitsOf g) g.bits l) ((r - g.base) * s.hart.slice) s.hart.slice, tag := t.getD s.hart.v[r].tag, owed := 0
        poison := s.hart.v[r].poison && !coversReg l (s.hart.slice / g.bits) (r - g.base) } else s.hart.v[r] := by
  unfold State.writeGroup
  simp only [Vector.getElem_ofFn]
  rfl

theorem writeGroup_ge (s : State) (g : Grp) (t : Option Tag) (l : List (Nat × Nat)) : (s.writeGroup g t l).hart.slice = s.hart.slice := by
  unfold Hart.slice State.writeGroup; rfl

theorem writeGroup_bit (s : State) (g : Grp) (t : Option Tag) (l : List (Nat × Nat)) (hg : g.base + g.n ≤ 32) (k : Nat) :
    ((s.writeGroup g t l).bitsOf g).testBit k = (decide (k < g.n * s.hart.slice) && (putElems (s.bitsOf g) g.bits l).testBit k) := by
  rw [State.bitsOf, storage_bit, writeGroup_ge]
  by_cases hk : k < g.n * s.hart.slice
  · have h0 : 0 < s.hart.slice := Nat.pos_of_ne_zero (by intro h; rw [h] at hk; omega)
    have hq : k / s.hart.slice < g.n := (Nat.div_lt_iff_lt_mul h0).2 hk
    have hr : (g.base + k / s.hart.slice) % 32 = g.base + k / s.hart.slice := Nat.mod_eq_of_lt (by omega)
    have hlt : g.base + k / s.hart.slice < 32 := by omega
    have hh : g.has (g.base + k / s.hart.slice) = true := by unfold Grp.has; simp; exact hq
    rw [hr, Vector.getElem?_eq_getElem hlt, Option.getD_some, writeGroup_reg _ _ _ _ _ hlt, if_pos hh]
    rw [testBit_bitsAt]
    have : k % s.hart.slice < s.hart.slice := Nat.mod_lt _ h0
    have e2 : (g.base + k / s.hart.slice - g.base) * s.hart.slice + k % s.hart.slice = k := by
      rw [Nat.add_sub_cancel_left, Nat.mul_comm]; exact Nat.div_add_mod k _
    rw [e2]; simp [this, hk]
  · simp [hk]

theorem elem_setBits (v b i j x : Nat) : elemAt (setBitsAt v (j * b) b x) b i = if i = j then x % 2 ^ b else elemAt v b i := by
  apply Nat.eq_of_testBit_eq
  intro k
  unfold elemAt
  rw [testBit_bitsAt, testBit_setBitsAt]
  by_cases hk : k < b
  · by_cases h : i = j
    · subst h
      have : i * b ≤ i * b + k ∧ i * b + k < i * b + b := by omega
      rw [if_pos this, if_pos rfl, Nat.testBit_mod_two_pow, Nat.add_sub_cancel_left]
    · have : ¬ (j * b ≤ i * b + k ∧ i * b + k < j * b + b) := by
        rcases Nat.lt_or_gt_of_ne h with h | h
        · have := Nat.mul_le_mul_right b (Nat.succ_le_of_lt h); rw [Nat.succ_mul] at this; omega
        · have := Nat.mul_le_mul_right b (Nat.succ_le_of_lt h); rw [Nat.succ_mul] at this; omega
      rw [if_neg this, if_neg h, testBit_bitsAt]
  · have : (if i = j then x % 2 ^ b else bitsAt v (i * b) b).testBit k = false := by
      split
      · rw [Nat.testBit_mod_two_pow]; simp [hk]
      · rw [testBit_bitsAt]; simp [hk]
    rw [this]; simp [hk]

theorem elem_putElems (b : Nat) (f : Nat → Nat) (acts : List Nat) (v i : Nat) :
    elemAt (putElems v b (acts.map fun i => (i, f i))) b i = if i ∈ acts then f i % 2 ^ b else elemAt v b i := by
  induction acts generalizing v with
  | nil => simp [putElems]
  | cons j l ih =>
    have : putElems v b ((j :: l).map fun i => (i, f i)) = putElems (setBitsAt v (j * b) b (f j)) b (l.map fun i => (i, f i)) := rfl
    rw [this, ih]
    by_cases h : i ∈ l
    · simp [h]
    · rw [if_neg h, elem_setBits]
      by_cases hj : i = j
      · subst hj; simp
      · simp [h, hj]

theorem element_writeGroup (u : State) (g : Grp) (t : Option Tag) (l : List (Nat × Nat)) (hg : g.base + g.n ≤ 32) (i : Nat) (hi : within u g i) :
    element (u.writeGroup g t l) g i = elemAt (putElems (u.bitsOf g) g.bits l) g.bits i := by
  apply Nat.eq_of_testBit_eq
  intro k
  unfold element elemAt
  rw [testBit_bitsAt, testBit_bitsAt, writeGroup_bit _ _ _ _ hg]
  by_cases hk : k < g.bits
  · have : i * g.bits + k < g.n * u.hart.slice := by
      unfold within at hi; rw [Nat.succ_mul] at hi; unfold Hart.slice; omega
    simp [hk, this]
  · simp [hk]

theorem storage_congr {s t : State} (h1 : t.hart.v = s.hart.v) (h2 : t.hart.slice = s.hart.slice) (n b : Nat) : t.storage b n = s.storage b n := by
  induction n generalizing b with
  | zero => rfl
  | succ n ih => rw [State.storage, State.storage, ih, h1, h2]

theorem wrote_self (u : State) (g : Grp) (tag : Tag) (acts : List Nat) (f : Nat → Nat) (hg : g.base + g.n ≤ 32) :
    wroteElements u (u.writeGroup g (some tag) (acts.map fun i => (i, f i))) g tag acts f := by
  refine ⟨?_, ?_, ?_⟩
  · intro i hi hw
    rw [element_writeGroup _ _ _ _ hg _ hw, elem_putElems, if_pos hi]
  · intro i hi hw
    rw [element_writeGroup _ _ _ _ hg _ hw, elem_putElems, if_neg hi]; rfl
  · intro r
    rw [writeGroup_reg _ _ _ _ _ r.isLt]
    split
    · rename_i h
      have : g.has r.val = true := by unfold Grp.has; simp [h]
      rw [if_pos this]; rfl
    · rename_i h
      have : ¬ g.has r.val = true := by unfold Grp.has; simp at h ⊢; exact h
      rw [if_neg this]

theorem wrote_congr {u t t' : State} {g : Grp} {tag : Tag} {acts : List Nat} {f : Nat → Nat} (h1 : t'.hart.v = t.hart.v) (h2 : t'.hart.slice = t.hart.slice)
    (h : wroteElements u t g tag acts f) : wroteElements u t' g tag acts f := by
  have he : ∀ i, element t' g i = element t g i := by
    intro i; unfold element State.bitsOf; rw [storage_congr h1 h2]
  refine ⟨fun i hi hw => by rw [he]; exact h.1 i hi hw, fun i hi hw => by rw [he]; exact h.2.1 i hi hw, fun r => ?_⟩
  rw [h1]; exact h.2.2 r

theorem runElems_eq (f : Nat → FRes) (l : List Nat) : runElems f l = (l.map fun i => (i, (f i).bits), allFlags l f, anySat l f) := by
  induction l with
  | nil => rfl
  | cons a l ih => simp only [runElems, ih]; rfl

theorem prepare_ready {s u : State} {o : Operands} (h : ready s u o) (flt : List (Bool × Nat)) (hf : ∀ p : Bool × Nat, p ∈ flt → p.1 = true → p.1 ∈ o.faults) :
    s.prepare o.srcs o.dsts o.masks o.usesMask o.len flt = .ok u := by
  obtain ⟨h0, h1, h2, h3, h4, h5, h6, h7, h8⟩ := h
  have a1 : (o.srcs ++ o.dsts).all Grp.aligned = true := by
    rw [List.all_eq_true]; intro g hg
    unfold Grp.aligned; simp [(h1 g hg).2]
  have a2 : ((o.srcs ++ o.dsts).any fun g => !g.fits) = false := by
    rw [List.any_eq_false]; intro g hg
    unfold Grp.fits; simp [(h1 g hg).1]
  have a3 : (o.usesMask && decide (s.hart.mlen < o.len)) = false := by
    cases hu : o.usesMask with
    | false => rfl
    | true => have := h3 hu; unfold Hart.mlen; simp; omega
  have a4 : ((s.boundBy o.srcs).any fun k => let b := s.hart.streams[k.val]; decide (2 ^ b.lgrp * s.hart.slice < s.hart.vl * tagBits b.tag)) = false := by
    rw [List.any_eq_false]; intro k hk
    have := h5 k hk; unfold Hart.slice; simp; omega
  have a5 : lowestReason (flt ++ [((o.srcs ++ o.dsts).any fun g => !g.fits, 5), (o.usesMask && decide (s.hart.mlen < o.len), 5),
    ((s.boundBy o.srcs).any fun k => let b := s.hart.streams[k.val]; decide (2 ^ b.lgrp * s.hart.slice < s.hart.vl * tagBits b.tag), 5)]) = none := by
    unfold lowestReason
    have : (flt ++ [((o.srcs ++ o.dsts).any fun g => !g.fits, 5), (o.usesMask && decide (s.hart.mlen < o.len), 5),
      ((s.boundBy o.srcs).any fun k => let b := s.hart.streams[k.val]; decide (2 ^ b.lgrp * s.hart.slice < s.hart.vl * tagBits b.tag), 5)]).filter (fun p : Bool × Nat => p.1) = [] := by
      rw [List.filter_eq_nil_iff]
      intro f hf'
      rw [List.mem_append] at hf'
      rcases hf' with hf' | hf'
      · intro ht
        have := h2 _ (hf f hf' ht)
        rw [this] at ht; cases ht
      · simp only [a2, a3, a4, List.mem_cons, List.not_mem_nil, or_false] at hf'
        rcases hf' with rfl | rfl | rfl <;> simp
    rw [this]; rfl
  have a6 : u.readsBad o.srcs o.masks = false := by
    unfold State.readsBad
    rw [Bool.or_eq_false_iff]
    constructor
    · rw [List.any_eq_false]
      intro r hr
      have hr : r < 32 := by simpa using hr
      rw [Vector.getElem?_eq_getElem hr, Option.getD_some]
      intro hc
      rw [Bool.and_eq_true, List.any_eq_true] at hc
      obtain ⟨hp, g, hg, hh⟩ := hc
      unfold Grp.has at hh
      rw [Bool.and_eq_true, decide_eq_true_eq, decide_eq_true_eq] at hh
      have := h7 g hg ⟨r, hr⟩ hh.1 hh.2
      rw [this] at hp; cases hp
    · rw [List.any_eq_false]; intro k hk; simp [h8 k hk]
  unfold State.prepare
  simp only [bind, Except.bind, State.require, a1, if_true]
  rw [a5]
  simp only [h4, h6, a6, Bool.not_false, if_true]

theorem delivered_group (s : State) (g : Grp) (t : Option Tag) (l : List (Nat × Nat)) : Delivered s (s.writeGroup g t l) :=
  ⟨_, _, _, _, _, _, _, _, _, rfl⟩

theorem co_streamRead (s : State) (b : Stream) (n : Nat) (l : List Nat) (u : State) (h : s.streamRead b n = .ok (l, u)) : CopyOnly s u := by
  induction n generalizing l u with
  | zero =>
    unfold State.streamRead at h
    injection h with h; injection h with _ h; rw [← h]; exact .refl _
  | succ n ih =>
    rw [State.streamRead] at h
    rcases hr : s.streamRead b n with e | ⟨l1, s1⟩
    · rw [hr] at h; simp only [bind, Except.bind] at h; injection h
    · have h1 := ih _ _ hr
      rw [hr] at h
      simp only [bind, Except.bind] at h
      split at h
      · injection h
      · split at h
        · injection h
        · rename_i p hp
          injection h with h; injection h with _ h
          rw [← h]; exact h1.trans (co_readAt hp)

theorem deliverOne_only (k : Sys2Proof.SNum) (s u : State) (h : s.deliverOne k = .ok u) : Delivered s u := by
  unfold State.deliverOne at h
  dsimp only at h
  split at h
  · injection h with h; rw [← h]; exact delivered_group _ _ _ _
  · split at h
    · rename_i hr
      injection h with h
      rw [← h]
      exact (delivered_copy (co_streamRead _ _ _ _ _ hr)).trans (delivered_group _ _ _ _)
    · injection h

theorem deliver_only (ks : List Sys2Proof.SNum) (s u : State) (h : s.deliver ks = .ok u) : Delivered s u := by
  induction ks generalizing s with
  | nil => unfold State.deliver at h; injection h with h; rw [← h]; exact .refl _
  | cons k ks ih =>
    rw [State.deliver] at h
    rcases hk : s.deliverOne k with e | t
    · rw [hk] at h; simp only [bind, Except.bind] at h; injection h
    · rw [hk] at h; exact (deliverOne_only _ _ _ hk).trans (ih _ h)

theorem group_eq (s : State) (r : VNum) (t : Tag) (h : s.hart.vcfg.tag ≠ .none) : s.grp r (tagBits t) = groupOf s r t := by
  unfold State.grp groupOf Vcfg.regs
  have : 0 < tagBits s.hart.vcfg.tag := by revert h; cases s.hart.vcfg.tag <;> simp [tagBits]
  congr 1
  split
  · rename_i hh; rw [Nat.div_eq_of_lt hh]; rfl
  · rename_i hh
    have := Nat.div_pos (Nat.not_lt.1 hh) this
    omega

theorem bitAt_testBit (n i : Nat) : bitAt n i = n.testBit i := by
  unfold bitAt; rw [Nat.testBit_eq_decide_div_mod_eq, Nat.shiftRight_eq_div_pow]; rfl

theorem range_filter (n k : Nat) : (List.range (n - k)).map (· + k) = (List.range n).filter fun i => decide (k ≤ i) := by
  by_cases h : n ≤ k
  · rw [Nat.sub_eq_zero_of_le h]
    symm; simp only [List.range_zero, List.map_nil, List.filter_eq_nil_iff]
    intro a ha; have := List.mem_range.1 ha; simp; omega
  · obtain ⟨m, rfl⟩ : ∃ m, n = k + m := ⟨n - k, by omega⟩
    rw [Nat.add_sub_cancel_left, List.range_add, List.filter_append]
    have e1 : (List.range k).filter (fun i => decide (k ≤ i)) = [] := by
      rw [List.filter_eq_nil_iff]; intro a ha; have := List.mem_range.1 ha; simp; omega
    have e2 : ((List.range m).map fun i => k + i).filter (fun i => decide (k ≤ i)) = (List.range m).map fun i => k + i := by
      rw [List.filter_eq_self]; intro a ha
      obtain ⟨b, _, rfl⟩ := List.mem_map.1 ha; simp
    rw [e1, e2, List.nil_append]
    apply List.map_congr_left; intro a _; omega

theorem actives_eq (u : State) (k : MNum) : u.actives k u.hart.vl = activeIn u k := by
  unfold State.actives State.range activeIn State.active State.mbit
  rw [range_filter, List.filter_filter]
  apply List.filter_congr
  intro a _
  rw [bitAt_testBit, Bool.and_comm]

theorem advance_stream (u : State) (ks : List Sys2Proof.SNum) (k : Sys2Proof.SNum) : (u.advance ks).hart.streams[k.val] =
    if k ∈ ks then { u.hart.streams[k.val] with pos := u.hart.streams[k.val].pos + BitVec.ofNat 64 u.hart.vl
                                                strips := match u.hart.streams[k.val].strips with
                                                  | st :: rest => if st.vals.length = u.hart.vl then rest else []
                                                  | [] => [] } else u.hart.streams[k.val] := by
  unfold State.advance
  simp only [Vector.getElem_ofFn, List.contains_iff_mem]
  rfl

theorem advance_movedOn (s u : State) (srcs : List Grp) (hu : Delivered s u) :
    movedOn s srcs (u.advance (s.boundBy srcs)).hart.streams := by
  obtain ⟨h2, _, h1, _⟩ := hu.keeps
  intro k
  rw [advance_stream, h1, h2]
  constructor
  · intro h; rw [if_neg h]
  · intro h; rw [if_pos h]; exact ⟨rfl, rfl⟩

theorem vdone_done {s u : State} (srcs : List Grp) (hdl : Delivered s u) (x : Vector Word 32) (v : Vector VReg 32) (m : Vector MReg 8) (e : Vector EReg 4) (f : Fcsr) :
    ∃ t, ({ u with hart := { u.hart with x := x, v := v, m := m, e := e, fcsr := f } } : State).vdone srcs = t ∧ vectorDone s u t srcs ∧
      t.hart.x = x ∧ t.hart.v = v ∧ t.hart.m = m ∧ t.hart.e = e ∧ t.hart.fcsr = f ∧ t.hart.slice = u.hart.slice := by
  have hmv := advance_movedOn s u srcs hdl
  obtain ⟨_, _, _, hpc, hir, hbb, _⟩ := hdl.keeps
  have hb := hbb srcs
  rw [← hb] at hmv
  refine ⟨{ u with hart := { u.hart with x := x, v := v, m := m, e := e, fcsr := f, vsi := 0, streams := (u.advance (u.boundBy srcs)).hart.streams, pc := u.hart.pc + u.len, instret := u.hart.instret + 1 } }, rfl, ⟨rfl, ⟨hpc, ?_⟩, hmv, ⟨fun _ => rfl, fun _ => rfl⟩, rfl⟩, rfl, rfl, rfl, rfl, rfl, rfl⟩
  show u.hart.instret + 1 = _; rw [hir]

theorem writeGroup_rec (u : State) (g : Grp) (t : Option Tag) (l : List (Nat × Nat)) :
    u.writeGroup g t l = { u with hart := { u.hart with v := (u.writeGroup g t l).hart.v } } := rfl

theorem perform_core {s u : State} {e : Elementwise} (hr : ready s u e.toOperands) (hg : e.dst.base + e.dst.n ≤ 32)
    (i : Instr) (he : exec i s = .next ((u.elementwise e.dst e.tag e.acts e.value).vdone e.srcs)) : performs s u i e := by
  have hdl := deliver_only _ _ _ hr.2.2.2.2.2.2.1
  obtain ⟨hvl, hvsi, _⟩ := hdl.keeps
  refine ⟨_, he, ?_⟩
  clear he
  unfold State.elementwise
  by_cases c : u.hart.vl ≤ u.hart.vsi
  · rw [if_pos c]
    obtain ⟨t, e1, h1, h2, h3, h4, h5, h6, h7⟩ := vdone_done e.srcs hdl u.hart.x u.hart.v u.hart.m u.hart.e u.hart.fcsr
    have e2 : u.vdone e.srcs = t := e1
    rw [e2]
    exact ⟨h1, h2, h4, h5, fun h => by omega, fun _ => ⟨h3, h6⟩⟩
  · rw [if_neg c, runElems_eq]
    have hw := wrote_self u e.dst e.tag e.acts (fun i => (e.value i).bits) hg
    dsimp only
    rw [writeGroup_rec] at hw ⊢
    generalize (u.writeGroup e.dst (some e.tag) (e.acts.map fun i => (i, (e.value i).bits))).hart.v = V at *
    obtain ⟨t, e1, h1, h2, h3, h4, h5, h6, h7⟩ := vdone_done e.srcs hdl u.hart.x V u.hart.m u.hart.e (u.hart.fcsr.merge (allFlags e.acts e.value) (anySat e.acts e.value))
    have e2 : (({ u with hart := { u.hart with v := V } } : State).raise (allFlags e.acts e.value) (anySat e.acts e.value)).vdone e.srcs = t := e1
    rw [e2]
    refine ⟨h1, h2, h4, h5, fun _ => ⟨by refine wrote_congr ?_ ?_ hw; exact h3; exact h7, ?_⟩, fun h => by omega⟩
    unfold raised; rw [h6]; exact ⟨rfl, rfl, rfl⟩

theorem group_small (s : State) (r : VNum) (t : Tag) (h1 : (groupOf s r t).n ≤ 8) (h2 : (groupOf s r t).base % (groupOf s r t).n = 0) :
    (groupOf s r t).base + (groupOf s r t).n ≤ 32 := by
  have hr := r.isLt
  have : (groupOf s r t).n = 1 ∨ (groupOf s r t).n = 2 ∨ (groupOf s r t).n = 4 ∨ (groupOf s r t).n = 8 := by
    have key : ∀ a c l : Nat, 2 ^ l * 2 ^ a / 2 ^ c = 0 ∨ ∃ k, 2 ^ l * 2 ^ a / 2 ^ c = 2 ^ k := by
      intro a c l
      rw [← Nat.pow_add]
      by_cases h : c ≤ l + a
      · right; exact ⟨l + a - c, Nat.pow_div h (by omega)⟩
      · left; exact Nat.div_eq_of_lt (Nat.pow_lt_pow_right (by omega) (by omega))
    have pw : ∀ t : Tag, tagBits t = 0 ∨ ∃ a, tagBits t = 2 ^ a := by
      intro t; cases t <;> first | exact .inl rfl | exact .inr ⟨2, rfl⟩ | exact .inr ⟨3, rfl⟩ | exact .inr ⟨4, rfl⟩ | exact .inr ⟨5, rfl⟩ | exact .inr ⟨6, rfl⟩
    have hn : ∃ k, (groupOf s r t).n = 2 ^ k := by
      show ∃ k, max 1 (2 ^ s.hart.vcfg.lgrp * tagBits t / tagBits s.hart.vcfg.tag) = 2 ^ k
      rcases pw t with h | ⟨a, ha⟩
      · exact ⟨0, by rw [h]; simp⟩
      rcases pw s.hart.vcfg.tag with h | ⟨c, hc⟩
      · exact ⟨0, by rw [h]; simp⟩
      rw [ha, hc]
      rcases key a c s.hart.vcfg.lgrp with h | ⟨k, h⟩
      · exact ⟨0, by rw [h]; rfl⟩
      · exact ⟨k, by rw [h]; exact Nat.max_eq_right (Nat.one_le_two_pow)⟩
    obtain ⟨k, hk⟩ := hn
    rw [hk] at h1 ⊢
    have : k ≤ 3 := by
      by_contra hc
      have := Nat.pow_le_pow_right (n := 2) (by omega) (show 4 ≤ k by omega)
      omega
    interval_cases k <;> simp
  have hb : (groupOf s r t).base = r.val := rfl
  rcases this with h | h | h | h <;> rw [h] at h2 ⊢ <;> rw [hb] at h2 ⊢ <;> omega


theorem needRef_ok {s : State} (h : s.hart.vcfg.tag ≠ .none) : s.needRef = .ok () := by
  unfold State.needRef State.require
  rw [if_pos (by simpa using h)]

theorem binary_core {s u : State} {m : Rounding} {rm : Option Rounding} {d a b : VNum} {mk : MNum} {sat : Bool} {k : ArithOp} 
    (hm : roundsBy s rm m) (hr : ready s u (binary s u m d a b mk k.floats fun t => arithOp k t m sat).toOperands) :
    vecVV d a b mk rm sat k s = .next ((u.elementwise (groupOf s d ((promote (tagOf s a) (tagOf s b)).getD .none)) ((promote (tagOf s a) (tagOf s b)).getD .none) (activeIn u mk)
      (binary s u m d a b mk k.floats fun t => arithOp k t m sat).value).vdone [groupOf s a (tagOf s a), groupOf s b (tagOf s b)]) := by
  have h0 := hr.1 (by simp [binary])
  have hp : (promote (tagOf s a) (tagOf s b)).isSome = true := by
    have := hr.2.2.1 ((promote (tagOf s a) (tagOf s b)).isNone) (by simp [binary])
    cases h : promote (tagOf s a) (tagOf s b) <;> simp_all
  have hpr := prepare_ready hr [s.noScale, (untyped (tagOf s a) || untyped (tagOf s b), 2), ((promote (tagOf s a) (tagOf s b)).isNone, 3),
      (tagFloat ((promote (tagOf s a) (tagOf s b)).getD .none) && !k.floats, 3)] (by
    have hf := hr.2.2.1
    intro p hp ht
    simp only [List.mem_cons, List.not_mem_nil, or_false] at hp
    rcases hp with rfl | rfl | rfl | rfl
    · exact List.mem_cons.2 (.inl rfl)
    · simp only [Bool.or_eq_true] at ht
      rcases ht with ht | ht
      · have := hf (noElements (tagOf s a)) (by simp [binary])
        rw [show untyped (tagOf s a) = noElements (tagOf s a) from rfl, this] at ht; cases ht
      · have := hf (noElements (tagOf s b)) (by simp [binary])
        rw [show untyped (tagOf s b) = noElements (tagOf s b) from rfl, this] at ht; cases ht
    · simp [binary]
    · simp [binary])
  unfold vecVV
  rw [mode_ok hm, needRef_ok h0]
  simp only [bind, Except.bind]
  rw [show s.vtagOf a = tagOf s a from rfl, show s.vtagOf b = tagOf s b from rfl]
  rw [group_eq _ _ _ h0, group_eq _ _ _ h0, group_eq _ _ _ h0, hp, if_pos rfl]
  have hpr' : s.prepare [groupOf s a (tagOf s a), groupOf s b (tagOf s b)] [groupOf s d ((promote (tagOf s a) (tagOf s b)).getD .none)] (masksOf mk) (mk.val != 0) s.hart.vl
      [s.noScale, (untyped (tagOf s a) || untyped (tagOf s b), 2), ((promote (tagOf s a) (tagOf s b)).isNone, 3),
      (tagFloat ((promote (tagOf s a) (tagOf s b)).getD .none) && !k.floats, 3)] = .ok u := hpr
  rw [hpr']
  simp only [actives_eq, finish]
  rfl

theorem scalar_core {s u : State} {m : Rounding} {rm : Option Rounding} {d a : VNum} {x : XReg} {mk : MNum} {sat : Bool} {k : ArithOp} 
    (hm : roundsBy s rm m) (hr : ready s u (scalarForm s u d a x mk k.floats fun t => arithOp k t m sat).toOperands) :
    vecVX d a x mk rm sat k s = .next ((u.elementwise (groupOf s d (tagOf s a)) (tagOf s a) (activeIn u mk)
      (scalarForm s u d a x mk k.floats fun t => arithOp k t m sat).value).vdone [groupOf s a (tagOf s a)]) := by
  have h0 := hr.1 (by simp [scalarForm])
  have hpr := prepare_ready hr [s.noScale, (untyped (tagOf s a), 2), (tagFloat (tagOf s a) && !k.floats, 3)] (by
    intro p hp ht
    simp only [List.mem_cons, List.not_mem_nil, or_false] at hp
    rcases hp with rfl | rfl | rfl
    · exact List.mem_cons.2 (.inl rfl)
    · simp [scalarForm, untyped, noElements]
    · simp [scalarForm])
  have hx : u.x x = s.x x := (deliver_only _ _ _ hr.2.2.2.2.2.2.1).keeps.2.2.2.2.2.2 x
  unfold vecVX
  rw [mode_ok hm, needRef_ok h0]
  simp only [bind, Except.bind]
  rw [show s.vtagOf a = tagOf s a from rfl]
  rw [group_eq _ _ _ h0, group_eq _ _ _ h0]
  have hpr' : s.prepare [groupOf s a (tagOf s a)] [groupOf s d (tagOf s a)] (masksOf mk) (mk.val != 0) s.hart.vl [s.noScale, (untyped (tagOf s a), 2), (tagFloat (tagOf s a) && !k.floats, 3)] = .ok u := hpr
  rw [hpr']
  simp only [actives_eq, finish, hx]
  rfl

theorem fused_core {s u : State} {m : Rounding} {rm : Option Rounding} {d a b : VNum} {mk : MNum} {sat np nd : Bool} 
    (hm : roundsBy s rm m) (hr : ready s u (fused s u m d a b mk sat np nd).toOperands) :
    vecFused d a b mk rm sat np nd s = .next ((u.elementwise (fused s u m d a b mk sat np nd).dst (fused s u m d a b mk sat np nd).tag (activeIn u mk)
      (fused s u m d a b mk sat np nd).value).vdone (fused s u m d a b mk sat np nd).srcs) := by
  have h0 := hr.1 (by simp [fused])
  have hf := hr.2.2.1
  have hp : ((promote (tagOf s a) (tagOf s b)).bind fun t => promote t (tagOf s d)).isSome = true := by
    have := hf (((promote (tagOf s a) (tagOf s b)).bind fun t => promote t (tagOf s d)).isNone) (by simp [fused])
    cases h : (promote (tagOf s a) (tagOf s b)).bind fun t => promote t (tagOf s d) <;> simp_all
  have ff : ∀ f, f ∈ (fused s u m d a b mk sat np nd).faults → f = false := hf
  have e1 := ff (noElements (tagOf s a)) (by simp [fused])
  have e2 := ff (noElements (tagOf s b)) (by simp [fused])
  have e3 := ff (noElements (tagOf s d)) (by simp [fused])
  have e4 := ff (farApart (tagBits (tagOf s a)) (tagBits (((promote (tagOf s a) (tagOf s b)).bind fun t => promote t (tagOf s d)).getD .none))) (by simp [fused])
  have e5 := ff (farApart (tagBits (tagOf s b)) (tagBits (((promote (tagOf s a) (tagOf s b)).bind fun t => promote t (tagOf s d)).getD .none))) (by simp [fused])
  have e6 := ff (farApart (tagBits (tagOf s d)) (tagBits (((promote (tagOf s a) (tagOf s b)).bind fun t => promote t (tagOf s d)).getD .none))) (by simp [fused])
  have hpr := prepare_ready hr [s.noScale, (untyped (tagOf s a) || untyped (tagOf s b) || untyped (tagOf s d), 2), (((promote (tagOf s a) (tagOf s b)).bind fun t => promote t (tagOf s d)).isNone, 3), (((promote (tagOf s a) (tagOf s b)).bind fun t => promote t (tagOf s d)).isSome && (tooWide (tagBits (tagOf s a)) (tagBits (((promote (tagOf s a) (tagOf s b)).bind fun t => promote t (tagOf s d)).getD .none)) || tooWide (tagBits (tagOf s b)) (tagBits (((promote (tagOf s a) (tagOf s b)).bind fun t => promote t (tagOf s d)).getD .none)) || tooWide (tagBits (tagOf s d)) (tagBits (((promote (tagOf s a) (tagOf s b)).bind fun t => promote t (tagOf s d)).getD .none))), 3)] (by
    intro p hp' ht
    simp only [List.mem_cons, List.not_mem_nil, or_false] at hp'
    have u1 : untyped (tagOf s a) = false := e1
    have u2 : untyped (tagOf s b) = false := e2
    have u3 : untyped (tagOf s d) = false := e3
    have u4 : tooWide (tagBits (tagOf s a)) (tagBits (((promote (tagOf s a) (tagOf s b)).bind fun t => promote t (tagOf s d)).getD .none)) = false := e4
    have u5 : tooWide (tagBits (tagOf s b)) (tagBits (((promote (tagOf s a) (tagOf s b)).bind fun t => promote t (tagOf s d)).getD .none)) = false := e5
    have u6 : tooWide (tagBits (tagOf s d)) (tagBits (((promote (tagOf s a) (tagOf s b)).bind fun t => promote t (tagOf s d)).getD .none)) = false := e6
    rcases hp' with rfl | rfl | rfl | rfl
    · exact List.mem_cons.2 (.inl rfl)
    · simp [u1, u2, u3] at ht
    · simp [fused]
    · simp [u4, u5, u6] at ht)
  unfold vecFused
  rw [mode_ok hm, needRef_ok h0]
  simp only [bind, Except.bind]
  rw [show s.vtagOf a = tagOf s a from rfl, show s.vtagOf b = tagOf s b from rfl, show s.vtagOf d = tagOf s d from rfl]
  rw [group_eq _ _ _ h0, group_eq _ _ _ h0, group_eq _ _ _ h0, group_eq _ _ _ h0, if_pos hp]
  have hpr' : s.prepare [groupOf s a (tagOf s a), groupOf s b (tagOf s b), groupOf s d (tagOf s d)] [groupOf s d (((promote (tagOf s a) (tagOf s b)).bind fun t => promote t (tagOf s d)).getD .none)] (masksOf mk) (mk.val != 0) s.hart.vl
      [s.noScale, (untyped (tagOf s a) || untyped (tagOf s b) || untyped (tagOf s d), 2), (((promote (tagOf s a) (tagOf s b)).bind fun t => promote t (tagOf s d)).isNone, 3), (((promote (tagOf s a) (tagOf s b)).bind fun t => promote t (tagOf s d)).isSome && (tooWide (tagBits (tagOf s a)) (tagBits (((promote (tagOf s a) (tagOf s b)).bind fun t => promote t (tagOf s d)).getD .none)) || tooWide (tagBits (tagOf s b)) (tagBits (((promote (tagOf s a) (tagOf s b)).bind fun t => promote t (tagOf s d)).getD .none)) || tooWide (tagBits (tagOf s d)) (tagBits (((promote (tagOf s a) (tagOf s b)).bind fun t => promote t (tagOf s d)).getD .none))), 3)] = .ok u := hpr
  rw [hpr']
  simp only [actives_eq, finish]
  have ev : ∀ i, (fused s u m d a b mk sat np nd).value i =
      let z := convElem (tagOf s d) (((promote (tagOf s a) (tagOf s b)).bind fun t => promote t (tagOf s d)).getD .none) m (element u (groupOf s d (tagOf s d)) i)
      let r := mixedOp (tagOf s a) (tagOf s b) (((promote (tagOf s a) (tagOf s b)).bind fun t => promote t (tagOf s d)).getD .none) m (fun x y => fusedOp (((promote (tagOf s a) (tagOf s b)).bind fun t => promote t (tagOf s d)).getD .none) m sat np nd x y z.bits) (element u (groupOf s a (tagOf s a)) i) (element u (groupOf s b (tagOf s b)) i)
      r.joined z (.plain 0) := by
    intro i
    have oo : ∀ f : Flags, orFlags f (FRes.plain 0).flags = f := by intro f; cases f; simp [orFlags, FRes.plain, noFlags]
    simp only [FRes.joined, oo]; rfl
  have ev' := funext ev
  rw [ev']
  rfl

theorem fused_group (s u : State) (m : Rounding) (d a b : VNum) (mk : MNum) (sat np nd : Bool) : (fused s u m d a b mk sat np nd).dst = groupOf s d (((promote (tagOf s a) (tagOf s b)).bind fun t => promote t (tagOf s d)).getD .none) := rfl

end Sys2Proof.Laws
end

