-- ==== Sys2Proof/Laws/State.lean ====
section
/-! SUPPORT. What each update of the state leaves in each field: one lemma for a field and an update. -/

namespace Sys2Proof.Laws

open Sys2Proof.Machine

variable (s : State)

@[simp] theorem setX_parked (d : XReg) (v : Word) : (s.setX d v).parked = s.parked := by unfold State.setX; split <;> rfl
@[simp] theorem setX_mem (d : XReg) (v : Word) : (s.setX d v).mem = s.mem := by unfold State.setX; split <;> rfl
@[simp] theorem setX_spad (d : XReg) (v : Word) : (s.setX d v).spad = s.spad := by unfold State.setX; split <;> rfl
@[simp] theorem setX_rcache (d : XReg) (v : Word) : (s.setX d v).rcache = s.rcache := by unfold State.setX; split <;> rfl
@[simp] theorem setX_poison (d : XReg) (v : Word) : (s.setX d v).poison = s.poison := by unfold State.setX; split <;> rfl
@[simp] theorem setX_spadPoison (d : XReg) (v : Word) : (s.setX d v).spadPoison = s.spadPoison := by unfold State.setX; split <;> rfl
@[simp] theorem setX_tlb (d : XReg) (v : Word) : (s.setX d v).tlb = s.tlb := by unfold State.setX; split <;> rfl
@[simp] theorem setX_refused (d : XReg) (v : Word) : (s.setX d v).refused = s.refused := by unfold State.setX; split <;> rfl
@[simp] theorem setX_barriers (d : XReg) (v : Word) : (s.setX d v).barriers = s.barriers := by unfold State.setX; split <;> rfl
@[simp] theorem setX_zones (d : XReg) (v : Word) : (s.setX d v).zones = s.zones := by unfold State.setX; split <;> rfl
@[simp] theorem setX_fills (d : XReg) (v : Word) : (s.setX d v).fills = s.fills := by unfold State.setX; split <;> rfl
@[simp] theorem setX_parts (d : XReg) (v : Word) : (s.setX d v).parts = s.parts := by unfold State.setX; split <;> rfl
@[simp] theorem setX_scheds (d : XReg) (v : Word) : (s.setX d v).scheds = s.scheds := by unfold State.setX; split <;> rfl
@[simp] theorem setX_queues (d : XReg) (v : Word) : (s.setX d v).queues = s.queues := by unfold State.setX; split <;> rfl
@[simp] theorem setX_launches (d : XReg) (v : Word) : (s.setX d v).launches = s.launches := by unfold State.setX; split <;> rfl
@[simp] theorem setX_welt (d : XReg) (v : Word) : (s.setX d v).welt = s.welt := by unfold State.setX; split <;> rfl
@[simp] theorem setX_ports (d : XReg) (v : Word) : (s.setX d v).ports = s.ports := by unfold State.setX; split <;> rfl
@[simp] theorem setX_service (d : XReg) (v : Word) : (s.setX d v).service = s.service := by unfold State.setX; split <;> rfl
@[simp] theorem setX_logs (d : XReg) (v : Word) : (s.setX d v).logs = s.logs := by unfold State.setX; split <;> rfl
@[simp] theorem setX_retClusters (d : XReg) (v : Word) : (s.setX d v).retClusters = s.retClusters := by unfold State.setX; split <;> rfl
@[simp] theorem setX_retCores (d : XReg) (v : Word) : (s.setX d v).retCores = s.retCores := by unfold State.setX; split <;> rfl
@[simp] theorem setX_retRows (d : XReg) (v : Word) : (s.setX d v).retRows = s.retRows := by unfold State.setX; split <;> rfl
@[simp] theorem setX_retRowsPend (d : XReg) (v : Word) : (s.setX d v).retRowsPend = s.retRowsPend := by unfold State.setX; split <;> rfl
@[simp] theorem setX_retiring (d : XReg) (v : Word) : (s.setX d v).retiring = s.retiring := by unfold State.setX; split <;> rfl
@[simp] theorem setX_repairing (d : XReg) (v : Word) : (s.setX d v).repairing = s.repairing := by unfold State.setX; split <;> rfl
@[simp] theorem setX_lost (d : XReg) (v : Word) : (s.setX d v).lost = s.lost := by unfold State.setX; split <;> rfl
@[simp] theorem setX_lostGood (d : XReg) (v : Word) : (s.setX d v).lostGood = s.lostGood := by unfold State.setX; split <;> rfl
@[simp] theorem setX_torn (d : XReg) (v : Word) : (s.setX d v).torn = s.torn := by unfold State.setX; split <;> rfl
@[simp] theorem setX_fulls (d : XReg) (v : Word) : (s.setX d v).fulls = s.fulls := by unfold State.setX; split <;> rfl
@[simp] theorem setX_power (d : XReg) (v : Word) : (s.setX d v).power = s.power := by unfold State.setX; split <;> rfl
@[simp] theorem setX_accepted (d : XReg) (v : Word) : (s.setX d v).accepted = s.accepted := by unfold State.setX; split <;> rfl
@[simp] theorem setX_silent (d : XReg) (v : Word) : (s.setX d v).silent = s.silent := by unfold State.setX; split <;> rfl
@[simp] theorem setX_device (d : XReg) (v : Word) : (s.setX d v).device = s.device := by unfold State.setX; split <;> rfl
@[simp] theorem setX_domain (d : XReg) (v : Word) : (s.setX d v).domain = s.domain := by unfold State.setX; split <;> rfl
@[simp] theorem setX_time (d : XReg) (v : Word) : (s.setX d v).time = s.time := by unfold State.setX; split <;> rfl
@[simp] theorem setX_nextLaunch (d : XReg) (v : Word) : (s.setX d v).nextLaunch = s.nextLaunch := by unfold State.setX; split <;> rfl
@[simp] theorem setX_nextHart (d : XReg) (v : Word) : (s.setX d v).nextHart = s.nextHart := by unfold State.setX; split <;> rfl
@[simp] theorem setX_nextOrder (d : XReg) (v : Word) : (s.setX d v).nextOrder = s.nextOrder := by unfold State.setX; split <;> rfl
@[simp] theorem setX_agenda (d : XReg) (v : Word) : (s.setX d v).agenda = s.agenda := by unfold State.setX; split <;> rfl
@[simp] theorem setX_chances (d : XReg) (v : Word) : (s.setX d v).chances = s.chances := by unfold State.setX; split <;> rfl
@[simp] theorem setX_outbox (d : XReg) (v : Word) : (s.setX d v).outbox = s.outbox := by unfold State.setX; split <;> rfl
@[simp] theorem setX_freeCtr (d : XReg) (v : Word) : (s.setX d v).freeCtr = s.freeCtr := by unfold State.setX; split <;> rfl
@[simp] theorem setX_hart_phase (d : XReg) (v : Word) : (s.setX d v).hart.phase = s.hart.phase := by unfold State.setX; split <;> rfl
@[simp] theorem setX_hart_waiting (d : XReg) (v : Word) : (s.setX d v).hart.waiting = s.hart.waiting := by unfold State.setX; split <;> rfl
@[simp] theorem setX_hart_place (d : XReg) (v : Word) : (s.setX d v).hart.place = s.hart.place := by unfold State.setX; split <;> rfl
@[simp] theorem setX_hart_priv (d : XReg) (v : Word) : (s.setX d v).hart.priv = s.hart.priv := by unfold State.setX; split <;> rfl
@[simp] theorem setX_hart_pc (d : XReg) (v : Word) : (s.setX d v).hart.pc = s.hart.pc := by unfold State.setX; split <;> rfl
@[simp] theorem setX_hart_c (d : XReg) (v : Word) : (s.setX d v).hart.c = s.hart.c := by unfold State.setX; split <;> rfl
@[simp] theorem setX_hart_v (d : XReg) (v : Word) : (s.setX d v).hart.v = s.hart.v := by unfold State.setX; split <;> rfl
@[simp] theorem setX_hart_m (d : XReg) (v : Word) : (s.setX d v).hart.m = s.hart.m := by unfold State.setX; split <;> rfl
@[simp] theorem setX_hart_q (d : XReg) (v : Word) : (s.setX d v).hart.q = s.hart.q := by unfold State.setX; split <;> rfl
@[simp] theorem setX_hart_e (d : XReg) (v : Word) : (s.setX d v).hart.e = s.hart.e := by unfold State.setX; split <;> rfl
@[simp] theorem setX_hart_tile (d : XReg) (v : Word) : (s.setX d v).hart.tile = s.hart.tile := by unfold State.setX; split <;> rfl
@[simp] theorem setX_hart_ge (d : XReg) (v : Word) : (s.setX d v).hart.ge = s.hart.ge := by unfold State.setX; split <;> rfl
@[simp] theorem setX_hart_vl (d : XReg) (v : Word) : (s.setX d v).hart.vl = s.hart.vl := by unfold State.setX; split <;> rfl
@[simp] theorem setX_hart_vsi (d : XReg) (v : Word) : (s.setX d v).hart.vsi = s.hart.vsi := by unfold State.setX; split <;> rfl
@[simp] theorem setX_hart_vcfg (d : XReg) (v : Word) : (s.setX d v).hart.vcfg = s.hart.vcfg := by unfold State.setX; split <;> rfl
@[simp] theorem setX_hart_rows (d : XReg) (v : Word) : (s.setX d v).hart.rows = s.hart.rows := by unfold State.setX; split <;> rfl
@[simp] theorem setX_hart_pitch (d : XReg) (v : Word) : (s.setX d v).hart.pitch = s.hart.pitch := by unfold State.setX; split <;> rfl
@[simp] theorem setX_hart_fcsr (d : XReg) (v : Word) : (s.setX d v).hart.fcsr = s.hart.fcsr := by unfold State.setX; split <;> rfl
@[simp] theorem setX_hart_qpos (d : XReg) (v : Word) : (s.setX d v).hart.qpos = s.hart.qpos := by unfold State.setX; split <;> rfl
@[simp] theorem setX_hart_mbudget (d : XReg) (v : Word) : (s.setX d v).hart.mbudget = s.hart.mbudget := by unfold State.setX; split <;> rfl
@[simp] theorem setX_hart_ch (d : XReg) (v : Word) : (s.setX d v).hart.ch = s.hart.ch := by unfold State.setX; split <;> rfl
@[simp] theorem setX_hart_batch (d : XReg) (v : Word) : (s.setX d v).hart.batch = s.hart.batch := by unfold State.setX; split <;> rfl
@[simp] theorem setX_hart_streams (d : XReg) (v : Word) : (s.setX d v).hart.streams = s.hart.streams := by unfold State.setX; split <;> rfl
@[simp] theorem setX_hart_farmid (d : XReg) (v : Word) : (s.setX d v).hart.farmid = s.hart.farmid := by unfold State.setX; split <;> rfl
@[simp] theorem setX_hart_fbase (d : XReg) (v : Word) : (s.setX d v).hart.fbase = s.hart.fbase := by unfold State.setX; split <;> rfl
@[simp] theorem setX_hart_ffault (d : XReg) (v : Word) : (s.setX d v).hart.ffault = s.hart.ffault := by unfold State.setX; split <;> rfl
@[simp] theorem setX_hart_noStrips (d : XReg) (v : Word) : (s.setX d v).hart.noStrips = s.hart.noStrips := by unfold State.setX; split <;> rfl
@[simp] theorem setX_hart_discarded (d : XReg) (v : Word) : (s.setX d v).hart.discarded = s.hart.discarded := by unfold State.setX; split <;> rfl
@[simp] theorem setX_hart_disc (d : XReg) (v : Word) : (s.setX d v).hart.disc = s.hart.disc := by unfold State.setX; split <;> rfl
@[simp] theorem setX_hart_strip (d : XReg) (v : Word) : (s.setX d v).hart.strip = s.hart.strip := by unfold State.setX; split <;> rfl
@[simp] theorem setX_hart_cycle (d : XReg) (v : Word) : (s.setX d v).hart.cycle = s.hart.cycle := by unfold State.setX; split <;> rfl
@[simp] theorem setX_hart_instret (d : XReg) (v : Word) : (s.setX d v).hart.instret = s.hart.instret := by unfold State.setX; split <;> rfl
@[simp] theorem setX_hart_pend20 (d : XReg) (v : Word) : (s.setX d v).hart.pend20 = s.hart.pend20 := by unfold State.setX; split <;> rfl
@[simp] theorem setX_hart_pend21 (d : XReg) (v : Word) : (s.setX d v).hart.pend21 = s.hart.pend21 := by unfold State.setX; split <;> rfl
@[simp] theorem setX_hart_pend22 (d : XReg) (v : Word) : (s.setX d v).hart.pend22 = s.hart.pend22 := by unfold State.setX; split <;> rfl
@[simp] theorem setX_hart_switchPending (d : XReg) (v : Word) : (s.setX d v).hart.switchPending = s.hart.switchPending := by unfold State.setX; split <;> rfl
@[simp] theorem setX_hart_reclaim (d : XReg) (v : Word) : (s.setX d v).hart.reclaim = s.hart.reclaim := by unfold State.setX; split <;> rfl
@[simp] theorem setX_hart_lostBytes (d : XReg) (v : Word) : (s.setX d v).hart.lostBytes = s.hart.lostBytes := by unfold State.setX; split <;> rfl
@[simp] theorem setX_hart_iword (d : XReg) (v : Word) : (s.setX d v).hart.iword = s.hart.iword := by unfold State.setX; split <;> rfl
@[simp] theorem setX_hart_ipair (d : XReg) (v : Word) : (s.setX d v).hart.ipair = s.hart.ipair := by unfold State.setX; split <;> rfl
@[simp] theorem setX_hart_limit (d : XReg) (v : Word) : (s.setX d v).hart.limit = s.hart.limit := by unfold State.setX; split <;> rfl
@[simp] theorem setC_parked (r : CBit) (v : Bool) : (s.setC r v).parked = s.parked := rfl
@[simp] theorem setC_mem (r : CBit) (v : Bool) : (s.setC r v).mem = s.mem := rfl
@[simp] theorem setC_spad (r : CBit) (v : Bool) : (s.setC r v).spad = s.spad := rfl
@[simp] theorem setC_rcache (r : CBit) (v : Bool) : (s.setC r v).rcache = s.rcache := rfl
@[simp] theorem setC_poison (r : CBit) (v : Bool) : (s.setC r v).poison = s.poison := rfl
@[simp] theorem setC_spadPoison (r : CBit) (v : Bool) : (s.setC r v).spadPoison = s.spadPoison := rfl
@[simp] theorem setC_tlb (r : CBit) (v : Bool) : (s.setC r v).tlb = s.tlb := rfl
@[simp] theorem setC_refused (r : CBit) (v : Bool) : (s.setC r v).refused = s.refused := rfl
@[simp] theorem setC_barriers (r : CBit) (v : Bool) : (s.setC r v).barriers = s.barriers := rfl
@[simp] theorem setC_zones (r : CBit) (v : Bool) : (s.setC r v).zones = s.zones := rfl
@[simp] theorem setC_fills (r : CBit) (v : Bool) : (s.setC r v).fills = s.fills := rfl
@[simp] theorem setC_parts (r : CBit) (v : Bool) : (s.setC r v).parts = s.parts := rfl
@[simp] theorem setC_scheds (r : CBit) (v : Bool) : (s.setC r v).scheds = s.scheds := rfl
@[simp] theorem setC_queues (r : CBit) (v : Bool) : (s.setC r v).queues = s.queues := rfl
@[simp] theorem setC_launches (r : CBit) (v : Bool) : (s.setC r v).launches = s.launches := rfl
@[simp] theorem setC_welt (r : CBit) (v : Bool) : (s.setC r v).welt = s.welt := rfl
@[simp] theorem setC_ports (r : CBit) (v : Bool) : (s.setC r v).ports = s.ports := rfl
@[simp] theorem setC_service (r : CBit) (v : Bool) : (s.setC r v).service = s.service := rfl
@[simp] theorem setC_logs (r : CBit) (v : Bool) : (s.setC r v).logs = s.logs := rfl
@[simp] theorem setC_retClusters (r : CBit) (v : Bool) : (s.setC r v).retClusters = s.retClusters := rfl
@[simp] theorem setC_retCores (r : CBit) (v : Bool) : (s.setC r v).retCores = s.retCores := rfl
@[simp] theorem setC_retRows (r : CBit) (v : Bool) : (s.setC r v).retRows = s.retRows := rfl
@[simp] theorem setC_retRowsPend (r : CBit) (v : Bool) : (s.setC r v).retRowsPend = s.retRowsPend := rfl
@[simp] theorem setC_retiring (r : CBit) (v : Bool) : (s.setC r v).retiring = s.retiring := rfl
@[simp] theorem setC_repairing (r : CBit) (v : Bool) : (s.setC r v).repairing = s.repairing := rfl
@[simp] theorem setC_lost (r : CBit) (v : Bool) : (s.setC r v).lost = s.lost := rfl
@[simp] theorem setC_lostGood (r : CBit) (v : Bool) : (s.setC r v).lostGood = s.lostGood := rfl
@[simp] theorem setC_torn (r : CBit) (v : Bool) : (s.setC r v).torn = s.torn := rfl
@[simp] theorem setC_fulls (r : CBit) (v : Bool) : (s.setC r v).fulls = s.fulls := rfl
@[simp] theorem setC_power (r : CBit) (v : Bool) : (s.setC r v).power = s.power := rfl
@[simp] theorem setC_accepted (r : CBit) (v : Bool) : (s.setC r v).accepted = s.accepted := rfl
@[simp] theorem setC_silent (r : CBit) (v : Bool) : (s.setC r v).silent = s.silent := rfl
@[simp] theorem setC_device (r : CBit) (v : Bool) : (s.setC r v).device = s.device := rfl
@[simp] theorem setC_domain (r : CBit) (v : Bool) : (s.setC r v).domain = s.domain := rfl
@[simp] theorem setC_time (r : CBit) (v : Bool) : (s.setC r v).time = s.time := rfl
@[simp] theorem setC_nextLaunch (r : CBit) (v : Bool) : (s.setC r v).nextLaunch = s.nextLaunch := rfl
@[simp] theorem setC_nextHart (r : CBit) (v : Bool) : (s.setC r v).nextHart = s.nextHart := rfl
@[simp] theorem setC_nextOrder (r : CBit) (v : Bool) : (s.setC r v).nextOrder = s.nextOrder := rfl
@[simp] theorem setC_agenda (r : CBit) (v : Bool) : (s.setC r v).agenda = s.agenda := rfl
@[simp] theorem setC_chances (r : CBit) (v : Bool) : (s.setC r v).chances = s.chances := rfl
@[simp] theorem setC_outbox (r : CBit) (v : Bool) : (s.setC r v).outbox = s.outbox := rfl
@[simp] theorem setC_freeCtr (r : CBit) (v : Bool) : (s.setC r v).freeCtr = s.freeCtr := rfl
@[simp] theorem setC_hart_phase (r : CBit) (v : Bool) : (s.setC r v).hart.phase = s.hart.phase := rfl
@[simp] theorem setC_hart_waiting (r : CBit) (v : Bool) : (s.setC r v).hart.waiting = s.hart.waiting := rfl
@[simp] theorem setC_hart_place (r : CBit) (v : Bool) : (s.setC r v).hart.place = s.hart.place := rfl
@[simp] theorem setC_hart_priv (r : CBit) (v : Bool) : (s.setC r v).hart.priv = s.hart.priv := rfl
@[simp] theorem setC_hart_pc (r : CBit) (v : Bool) : (s.setC r v).hart.pc = s.hart.pc := rfl
@[simp] theorem setC_hart_x (r : CBit) (v : Bool) : (s.setC r v).hart.x = s.hart.x := rfl
@[simp] theorem setC_hart_c (r : CBit) (v : Bool) : (s.setC r v).hart.c = s.hart.c.set r.val v := rfl
@[simp] theorem setC_hart_v (r : CBit) (v : Bool) : (s.setC r v).hart.v = s.hart.v := rfl
@[simp] theorem setC_hart_m (r : CBit) (v : Bool) : (s.setC r v).hart.m = s.hart.m := rfl
@[simp] theorem setC_hart_q (r : CBit) (v : Bool) : (s.setC r v).hart.q = s.hart.q := rfl
@[simp] theorem setC_hart_e (r : CBit) (v : Bool) : (s.setC r v).hart.e = s.hart.e := rfl
@[simp] theorem setC_hart_tile (r : CBit) (v : Bool) : (s.setC r v).hart.tile = s.hart.tile := rfl
@[simp] theorem setC_hart_ge (r : CBit) (v : Bool) : (s.setC r v).hart.ge = s.hart.ge := rfl
@[simp] theorem setC_hart_vl (r : CBit) (v : Bool) : (s.setC r v).hart.vl = s.hart.vl := rfl
@[simp] theorem setC_hart_vsi (r : CBit) (v : Bool) : (s.setC r v).hart.vsi = s.hart.vsi := rfl
@[simp] theorem setC_hart_vcfg (r : CBit) (v : Bool) : (s.setC r v).hart.vcfg = s.hart.vcfg := rfl
@[simp] theorem setC_hart_rows (r : CBit) (v : Bool) : (s.setC r v).hart.rows = s.hart.rows := rfl
@[simp] theorem setC_hart_pitch (r : CBit) (v : Bool) : (s.setC r v).hart.pitch = s.hart.pitch := rfl
@[simp] theorem setC_hart_fcsr (r : CBit) (v : Bool) : (s.setC r v).hart.fcsr = s.hart.fcsr := rfl
@[simp] theorem setC_hart_qpos (r : CBit) (v : Bool) : (s.setC r v).hart.qpos = s.hart.qpos := rfl
@[simp] theorem setC_hart_mbudget (r : CBit) (v : Bool) : (s.setC r v).hart.mbudget = s.hart.mbudget := rfl
@[simp] theorem setC_hart_ch (r : CBit) (v : Bool) : (s.setC r v).hart.ch = s.hart.ch := rfl
@[simp] theorem setC_hart_batch (r : CBit) (v : Bool) : (s.setC r v).hart.batch = s.hart.batch := rfl
@[simp] theorem setC_hart_streams (r : CBit) (v : Bool) : (s.setC r v).hart.streams = s.hart.streams := rfl
@[simp] theorem setC_hart_farmid (r : CBit) (v : Bool) : (s.setC r v).hart.farmid = s.hart.farmid := rfl
@[simp] theorem setC_hart_fbase (r : CBit) (v : Bool) : (s.setC r v).hart.fbase = s.hart.fbase := rfl
@[simp] theorem setC_hart_ffault (r : CBit) (v : Bool) : (s.setC r v).hart.ffault = s.hart.ffault := rfl
@[simp] theorem setC_hart_noStrips (r : CBit) (v : Bool) : (s.setC r v).hart.noStrips = s.hart.noStrips := rfl
@[simp] theorem setC_hart_discarded (r : CBit) (v : Bool) : (s.setC r v).hart.discarded = s.hart.discarded := rfl
@[simp] theorem setC_hart_disc (r : CBit) (v : Bool) : (s.setC r v).hart.disc = s.hart.disc := rfl
@[simp] theorem setC_hart_strip (r : CBit) (v : Bool) : (s.setC r v).hart.strip = s.hart.strip := rfl
@[simp] theorem setC_hart_cycle (r : CBit) (v : Bool) : (s.setC r v).hart.cycle = s.hart.cycle := rfl
@[simp] theorem setC_hart_instret (r : CBit) (v : Bool) : (s.setC r v).hart.instret = s.hart.instret := rfl
@[simp] theorem setC_hart_pend20 (r : CBit) (v : Bool) : (s.setC r v).hart.pend20 = s.hart.pend20 := rfl
@[simp] theorem setC_hart_pend21 (r : CBit) (v : Bool) : (s.setC r v).hart.pend21 = s.hart.pend21 := rfl
@[simp] theorem setC_hart_pend22 (r : CBit) (v : Bool) : (s.setC r v).hart.pend22 = s.hart.pend22 := rfl
@[simp] theorem setC_hart_switchPending (r : CBit) (v : Bool) : (s.setC r v).hart.switchPending = s.hart.switchPending := rfl
@[simp] theorem setC_hart_reclaim (r : CBit) (v : Bool) : (s.setC r v).hart.reclaim = s.hart.reclaim := rfl
@[simp] theorem setC_hart_lostBytes (r : CBit) (v : Bool) : (s.setC r v).hart.lostBytes = s.hart.lostBytes := rfl
@[simp] theorem setC_hart_iword (r : CBit) (v : Bool) : (s.setC r v).hart.iword = s.hart.iword := rfl
@[simp] theorem setC_hart_ipair (r : CBit) (v : Bool) : (s.setC r v).hart.ipair = s.hart.ipair := rfl
@[simp] theorem setC_hart_limit (r : CBit) (v : Bool) : (s.setC r v).hart.limit = s.hart.limit := rfl
@[simp] theorem setPc_parked (pc : Word) : (s.setPc pc).parked = s.parked := rfl
@[simp] theorem setPc_mem (pc : Word) : (s.setPc pc).mem = s.mem := rfl
@[simp] theorem setPc_spad (pc : Word) : (s.setPc pc).spad = s.spad := rfl
@[simp] theorem setPc_rcache (pc : Word) : (s.setPc pc).rcache = s.rcache := rfl
@[simp] theorem setPc_poison (pc : Word) : (s.setPc pc).poison = s.poison := rfl
@[simp] theorem setPc_spadPoison (pc : Word) : (s.setPc pc).spadPoison = s.spadPoison := rfl
@[simp] theorem setPc_tlb (pc : Word) : (s.setPc pc).tlb = s.tlb := rfl
@[simp] theorem setPc_refused (pc : Word) : (s.setPc pc).refused = s.refused := rfl
@[simp] theorem setPc_barriers (pc : Word) : (s.setPc pc).barriers = s.barriers := rfl
@[simp] theorem setPc_zones (pc : Word) : (s.setPc pc).zones = s.zones := rfl
@[simp] theorem setPc_fills (pc : Word) : (s.setPc pc).fills = s.fills := rfl
@[simp] theorem setPc_parts (pc : Word) : (s.setPc pc).parts = s.parts := rfl
@[simp] theorem setPc_scheds (pc : Word) : (s.setPc pc).scheds = s.scheds := rfl
@[simp] theorem setPc_queues (pc : Word) : (s.setPc pc).queues = s.queues := rfl
@[simp] theorem setPc_launches (pc : Word) : (s.setPc pc).launches = s.launches := rfl
@[simp] theorem setPc_welt (pc : Word) : (s.setPc pc).welt = s.welt := rfl
@[simp] theorem setPc_ports (pc : Word) : (s.setPc pc).ports = s.ports := rfl
@[simp] theorem setPc_service (pc : Word) : (s.setPc pc).service = s.service := rfl
@[simp] theorem setPc_logs (pc : Word) : (s.setPc pc).logs = s.logs := rfl
@[simp] theorem setPc_retClusters (pc : Word) : (s.setPc pc).retClusters = s.retClusters := rfl
@[simp] theorem setPc_retCores (pc : Word) : (s.setPc pc).retCores = s.retCores := rfl
@[simp] theorem setPc_retRows (pc : Word) : (s.setPc pc).retRows = s.retRows := rfl
@[simp] theorem setPc_retRowsPend (pc : Word) : (s.setPc pc).retRowsPend = s.retRowsPend := rfl
@[simp] theorem setPc_retiring (pc : Word) : (s.setPc pc).retiring = s.retiring := rfl
@[simp] theorem setPc_repairing (pc : Word) : (s.setPc pc).repairing = s.repairing := rfl
@[simp] theorem setPc_lost (pc : Word) : (s.setPc pc).lost = s.lost := rfl
@[simp] theorem setPc_lostGood (pc : Word) : (s.setPc pc).lostGood = s.lostGood := rfl
@[simp] theorem setPc_torn (pc : Word) : (s.setPc pc).torn = s.torn := rfl
@[simp] theorem setPc_fulls (pc : Word) : (s.setPc pc).fulls = s.fulls := rfl
@[simp] theorem setPc_power (pc : Word) : (s.setPc pc).power = s.power := rfl
@[simp] theorem setPc_accepted (pc : Word) : (s.setPc pc).accepted = s.accepted := rfl
@[simp] theorem setPc_silent (pc : Word) : (s.setPc pc).silent = s.silent := rfl
@[simp] theorem setPc_device (pc : Word) : (s.setPc pc).device = s.device := rfl
@[simp] theorem setPc_domain (pc : Word) : (s.setPc pc).domain = s.domain := rfl
@[simp] theorem setPc_time (pc : Word) : (s.setPc pc).time = s.time := rfl
@[simp] theorem setPc_nextLaunch (pc : Word) : (s.setPc pc).nextLaunch = s.nextLaunch := rfl
@[simp] theorem setPc_nextHart (pc : Word) : (s.setPc pc).nextHart = s.nextHart := rfl
@[simp] theorem setPc_nextOrder (pc : Word) : (s.setPc pc).nextOrder = s.nextOrder := rfl
@[simp] theorem setPc_agenda (pc : Word) : (s.setPc pc).agenda = s.agenda := rfl
@[simp] theorem setPc_chances (pc : Word) : (s.setPc pc).chances = s.chances := rfl
@[simp] theorem setPc_outbox (pc : Word) : (s.setPc pc).outbox = s.outbox := rfl
@[simp] theorem setPc_freeCtr (pc : Word) : (s.setPc pc).freeCtr = s.freeCtr := rfl
@[simp] theorem setPc_hart_phase (pc : Word) : (s.setPc pc).hart.phase = s.hart.phase := rfl
@[simp] theorem setPc_hart_waiting (pc : Word) : (s.setPc pc).hart.waiting = s.hart.waiting := rfl
@[simp] theorem setPc_hart_place (pc : Word) : (s.setPc pc).hart.place = s.hart.place := rfl
@[simp] theorem setPc_hart_priv (pc : Word) : (s.setPc pc).hart.priv = s.hart.priv := rfl
@[simp] theorem setPc_hart_pc (pc : Word) : (s.setPc pc).hart.pc = pc := rfl
@[simp] theorem setPc_hart_x (pc : Word) : (s.setPc pc).hart.x = s.hart.x := rfl
@[simp] theorem setPc_hart_c (pc : Word) : (s.setPc pc).hart.c = s.hart.c := rfl
@[simp] theorem setPc_hart_v (pc : Word) : (s.setPc pc).hart.v = s.hart.v := rfl
@[simp] theorem setPc_hart_m (pc : Word) : (s.setPc pc).hart.m = s.hart.m := rfl
@[simp] theorem setPc_hart_q (pc : Word) : (s.setPc pc).hart.q = s.hart.q := rfl
@[simp] theorem setPc_hart_e (pc : Word) : (s.setPc pc).hart.e = s.hart.e := rfl
@[simp] theorem setPc_hart_tile (pc : Word) : (s.setPc pc).hart.tile = s.hart.tile := rfl
@[simp] theorem setPc_hart_ge (pc : Word) : (s.setPc pc).hart.ge = s.hart.ge := rfl
@[simp] theorem setPc_hart_vl (pc : Word) : (s.setPc pc).hart.vl = s.hart.vl := rfl
@[simp] theorem setPc_hart_vsi (pc : Word) : (s.setPc pc).hart.vsi = s.hart.vsi := rfl
@[simp] theorem setPc_hart_vcfg (pc : Word) : (s.setPc pc).hart.vcfg = s.hart.vcfg := rfl
@[simp] theorem setPc_hart_rows (pc : Word) : (s.setPc pc).hart.rows = s.hart.rows := rfl
@[simp] theorem setPc_hart_pitch (pc : Word) : (s.setPc pc).hart.pitch = s.hart.pitch := rfl
@[simp] theorem setPc_hart_fcsr (pc : Word) : (s.setPc pc).hart.fcsr = s.hart.fcsr := rfl
@[simp] theorem setPc_hart_qpos (pc : Word) : (s.setPc pc).hart.qpos = s.hart.qpos := rfl
@[simp] theorem setPc_hart_mbudget (pc : Word) : (s.setPc pc).hart.mbudget = s.hart.mbudget := rfl
@[simp] theorem setPc_hart_ch (pc : Word) : (s.setPc pc).hart.ch = s.hart.ch := rfl
@[simp] theorem setPc_hart_batch (pc : Word) : (s.setPc pc).hart.batch = s.hart.batch := rfl
@[simp] theorem setPc_hart_streams (pc : Word) : (s.setPc pc).hart.streams = s.hart.streams := rfl
@[simp] theorem setPc_hart_farmid (pc : Word) : (s.setPc pc).hart.farmid = s.hart.farmid := rfl
@[simp] theorem setPc_hart_fbase (pc : Word) : (s.setPc pc).hart.fbase = s.hart.fbase := rfl
@[simp] theorem setPc_hart_ffault (pc : Word) : (s.setPc pc).hart.ffault = s.hart.ffault := rfl
@[simp] theorem setPc_hart_noStrips (pc : Word) : (s.setPc pc).hart.noStrips = s.hart.noStrips := rfl
@[simp] theorem setPc_hart_discarded (pc : Word) : (s.setPc pc).hart.discarded = s.hart.discarded := rfl
@[simp] theorem setPc_hart_disc (pc : Word) : (s.setPc pc).hart.disc = s.hart.disc := rfl
@[simp] theorem setPc_hart_strip (pc : Word) : (s.setPc pc).hart.strip = s.hart.strip := rfl
@[simp] theorem setPc_hart_cycle (pc : Word) : (s.setPc pc).hart.cycle = s.hart.cycle := rfl
@[simp] theorem setPc_hart_instret (pc : Word) : (s.setPc pc).hart.instret = s.hart.instret := rfl
@[simp] theorem setPc_hart_pend20 (pc : Word) : (s.setPc pc).hart.pend20 = s.hart.pend20 := rfl
@[simp] theorem setPc_hart_pend21 (pc : Word) : (s.setPc pc).hart.pend21 = s.hart.pend21 := rfl
@[simp] theorem setPc_hart_pend22 (pc : Word) : (s.setPc pc).hart.pend22 = s.hart.pend22 := rfl
@[simp] theorem setPc_hart_switchPending (pc : Word) : (s.setPc pc).hart.switchPending = s.hart.switchPending := rfl
@[simp] theorem setPc_hart_reclaim (pc : Word) : (s.setPc pc).hart.reclaim = s.hart.reclaim := rfl
@[simp] theorem setPc_hart_lostBytes (pc : Word) : (s.setPc pc).hart.lostBytes = s.hart.lostBytes := rfl
@[simp] theorem setPc_hart_iword (pc : Word) : (s.setPc pc).hart.iword = s.hart.iword := rfl
@[simp] theorem setPc_hart_ipair (pc : Word) : (s.setPc pc).hart.ipair = s.hart.ipair := rfl
@[simp] theorem setPc_hart_limit (pc : Word) : (s.setPc pc).hart.limit = s.hart.limit := rfl
@[simp] theorem count_parked : s.count.parked = s.parked := rfl
@[simp] theorem count_mem : s.count.mem = s.mem := rfl
@[simp] theorem count_spad : s.count.spad = s.spad := rfl
@[simp] theorem count_rcache : s.count.rcache = s.rcache := rfl
@[simp] theorem count_poison : s.count.poison = s.poison := rfl
@[simp] theorem count_spadPoison : s.count.spadPoison = s.spadPoison := rfl
@[simp] theorem count_tlb : s.count.tlb = s.tlb := rfl
@[simp] theorem count_refused : s.count.refused = s.refused := rfl
@[simp] theorem count_barriers : s.count.barriers = s.barriers := rfl
@[simp] theorem count_zones : s.count.zones = s.zones := rfl
@[simp] theorem count_fills : s.count.fills = s.fills := rfl
@[simp] theorem count_parts : s.count.parts = s.parts := rfl
@[simp] theorem count_scheds : s.count.scheds = s.scheds := rfl
@[simp] theorem count_queues : s.count.queues = s.queues := rfl
@[simp] theorem count_launches : s.count.launches = s.launches := rfl
@[simp] theorem count_welt : s.count.welt = s.welt := rfl
@[simp] theorem count_ports : s.count.ports = s.ports := rfl
@[simp] theorem count_service : s.count.service = s.service := rfl
@[simp] theorem count_logs : s.count.logs = s.logs := rfl
@[simp] theorem count_retClusters : s.count.retClusters = s.retClusters := rfl
@[simp] theorem count_retCores : s.count.retCores = s.retCores := rfl
@[simp] theorem count_retRows : s.count.retRows = s.retRows := rfl
@[simp] theorem count_retRowsPend : s.count.retRowsPend = s.retRowsPend := rfl
@[simp] theorem count_retiring : s.count.retiring = s.retiring := rfl
@[simp] theorem count_repairing : s.count.repairing = s.repairing := rfl
@[simp] theorem count_lost : s.count.lost = s.lost := rfl
@[simp] theorem count_lostGood : s.count.lostGood = s.lostGood := rfl
@[simp] theorem count_torn : s.count.torn = s.torn := rfl
@[simp] theorem count_fulls : s.count.fulls = s.fulls := rfl
@[simp] theorem count_power : s.count.power = s.power := rfl
@[simp] theorem count_accepted : s.count.accepted = s.accepted := rfl
@[simp] theorem count_silent : s.count.silent = s.silent := rfl
@[simp] theorem count_device : s.count.device = s.device := rfl
@[simp] theorem count_domain : s.count.domain = s.domain := rfl
@[simp] theorem count_time : s.count.time = s.time := rfl
@[simp] theorem count_nextLaunch : s.count.nextLaunch = s.nextLaunch := rfl
@[simp] theorem count_nextHart : s.count.nextHart = s.nextHart := rfl
@[simp] theorem count_nextOrder : s.count.nextOrder = s.nextOrder := rfl
@[simp] theorem count_agenda : s.count.agenda = s.agenda := rfl
@[simp] theorem count_chances : s.count.chances = s.chances := rfl
@[simp] theorem count_outbox : s.count.outbox = s.outbox := rfl
@[simp] theorem count_freeCtr : s.count.freeCtr = s.freeCtr := rfl
@[simp] theorem count_hart_phase : s.count.hart.phase = s.hart.phase := rfl
@[simp] theorem count_hart_waiting : s.count.hart.waiting = s.hart.waiting := rfl
@[simp] theorem count_hart_place : s.count.hart.place = s.hart.place := rfl
@[simp] theorem count_hart_priv : s.count.hart.priv = s.hart.priv := rfl
@[simp] theorem count_hart_pc : s.count.hart.pc = s.hart.pc := rfl
@[simp] theorem count_hart_x : s.count.hart.x = s.hart.x := rfl
@[simp] theorem count_hart_c : s.count.hart.c = s.hart.c := rfl
@[simp] theorem count_hart_v : s.count.hart.v = s.hart.v := rfl
@[simp] theorem count_hart_m : s.count.hart.m = s.hart.m := rfl
@[simp] theorem count_hart_q : s.count.hart.q = s.hart.q := rfl
@[simp] theorem count_hart_e : s.count.hart.e = s.hart.e := rfl
@[simp] theorem count_hart_tile : s.count.hart.tile = s.hart.tile := rfl
@[simp] theorem count_hart_ge : s.count.hart.ge = s.hart.ge := rfl
@[simp] theorem count_hart_vl : s.count.hart.vl = s.hart.vl := rfl
@[simp] theorem count_hart_vsi : s.count.hart.vsi = s.hart.vsi := rfl
@[simp] theorem count_hart_vcfg : s.count.hart.vcfg = s.hart.vcfg := rfl
@[simp] theorem count_hart_rows : s.count.hart.rows = s.hart.rows := rfl
@[simp] theorem count_hart_pitch : s.count.hart.pitch = s.hart.pitch := rfl
@[simp] theorem count_hart_fcsr : s.count.hart.fcsr = s.hart.fcsr := rfl
@[simp] theorem count_hart_qpos : s.count.hart.qpos = s.hart.qpos := rfl
@[simp] theorem count_hart_mbudget : s.count.hart.mbudget = s.hart.mbudget := rfl
@[simp] theorem count_hart_ch : s.count.hart.ch = s.hart.ch := rfl
@[simp] theorem count_hart_batch : s.count.hart.batch = s.hart.batch := rfl
@[simp] theorem count_hart_streams : s.count.hart.streams = s.hart.streams := rfl
@[simp] theorem count_hart_farmid : s.count.hart.farmid = s.hart.farmid := rfl
@[simp] theorem count_hart_fbase : s.count.hart.fbase = s.hart.fbase := rfl
@[simp] theorem count_hart_ffault : s.count.hart.ffault = s.hart.ffault := rfl
@[simp] theorem count_hart_noStrips : s.count.hart.noStrips = s.hart.noStrips := rfl
@[simp] theorem count_hart_discarded : s.count.hart.discarded = s.hart.discarded := rfl
@[simp] theorem count_hart_disc : s.count.hart.disc = s.hart.disc := rfl
@[simp] theorem count_hart_strip : s.count.hart.strip = s.hart.strip := rfl
@[simp] theorem count_hart_cycle : s.count.hart.cycle = s.hart.cycle := rfl
@[simp] theorem count_hart_instret : s.count.hart.instret = s.hart.instret + 1 := rfl
@[simp] theorem count_hart_pend20 : s.count.hart.pend20 = s.hart.pend20 := rfl
@[simp] theorem count_hart_pend21 : s.count.hart.pend21 = s.hart.pend21 := rfl
@[simp] theorem count_hart_pend22 : s.count.hart.pend22 = s.hart.pend22 := rfl
@[simp] theorem count_hart_switchPending : s.count.hart.switchPending = s.hart.switchPending := rfl
@[simp] theorem count_hart_reclaim : s.count.hart.reclaim = s.hart.reclaim := rfl
@[simp] theorem count_hart_lostBytes : s.count.hart.lostBytes = s.hart.lostBytes := rfl
@[simp] theorem count_hart_iword : s.count.hart.iword = s.hart.iword := rfl
@[simp] theorem count_hart_ipair : s.count.hart.ipair = s.hart.ipair := rfl
@[simp] theorem count_hart_limit : s.count.hart.limit = s.hart.limit := rfl
@[simp] theorem retire_parked : s.retire.parked = s.parked := rfl
@[simp] theorem retire_mem : s.retire.mem = s.mem := rfl
@[simp] theorem retire_spad : s.retire.spad = s.spad := rfl
@[simp] theorem retire_rcache : s.retire.rcache = s.rcache := rfl
@[simp] theorem retire_poison : s.retire.poison = s.poison := rfl
@[simp] theorem retire_spadPoison : s.retire.spadPoison = s.spadPoison := rfl
@[simp] theorem retire_tlb : s.retire.tlb = s.tlb := rfl
@[simp] theorem retire_refused : s.retire.refused = s.refused := rfl
@[simp] theorem retire_barriers : s.retire.barriers = s.barriers := rfl
@[simp] theorem retire_zones : s.retire.zones = s.zones := rfl
@[simp] theorem retire_fills : s.retire.fills = s.fills := rfl
@[simp] theorem retire_parts : s.retire.parts = s.parts := rfl
@[simp] theorem retire_scheds : s.retire.scheds = s.scheds := rfl
@[simp] theorem retire_queues : s.retire.queues = s.queues := rfl
@[simp] theorem retire_launches : s.retire.launches = s.launches := rfl
@[simp] theorem retire_welt : s.retire.welt = s.welt := rfl
@[simp] theorem retire_ports : s.retire.ports = s.ports := rfl
@[simp] theorem retire_service : s.retire.service = s.service := rfl
@[simp] theorem retire_logs : s.retire.logs = s.logs := rfl
@[simp] theorem retire_retClusters : s.retire.retClusters = s.retClusters := rfl
@[simp] theorem retire_retCores : s.retire.retCores = s.retCores := rfl
@[simp] theorem retire_retRows : s.retire.retRows = s.retRows := rfl
@[simp] theorem retire_retRowsPend : s.retire.retRowsPend = s.retRowsPend := rfl
@[simp] theorem retire_retiring : s.retire.retiring = s.retiring := rfl
@[simp] theorem retire_repairing : s.retire.repairing = s.repairing := rfl
@[simp] theorem retire_lost : s.retire.lost = s.lost := rfl
@[simp] theorem retire_lostGood : s.retire.lostGood = s.lostGood := rfl
@[simp] theorem retire_torn : s.retire.torn = s.torn := rfl
@[simp] theorem retire_fulls : s.retire.fulls = s.fulls := rfl
@[simp] theorem retire_power : s.retire.power = s.power := rfl
@[simp] theorem retire_accepted : s.retire.accepted = s.accepted := rfl
@[simp] theorem retire_silent : s.retire.silent = s.silent := rfl
@[simp] theorem retire_device : s.retire.device = s.device := rfl
@[simp] theorem retire_domain : s.retire.domain = s.domain := rfl
@[simp] theorem retire_time : s.retire.time = s.time := rfl
@[simp] theorem retire_nextLaunch : s.retire.nextLaunch = s.nextLaunch := rfl
@[simp] theorem retire_nextHart : s.retire.nextHart = s.nextHart := rfl
@[simp] theorem retire_nextOrder : s.retire.nextOrder = s.nextOrder := rfl
@[simp] theorem retire_agenda : s.retire.agenda = s.agenda := rfl
@[simp] theorem retire_chances : s.retire.chances = s.chances := rfl
@[simp] theorem retire_outbox : s.retire.outbox = s.outbox := rfl
@[simp] theorem retire_freeCtr : s.retire.freeCtr = s.freeCtr := rfl
@[simp] theorem retire_hart_phase : s.retire.hart.phase = s.hart.phase := rfl
@[simp] theorem retire_hart_waiting : s.retire.hart.waiting = s.hart.waiting := rfl
@[simp] theorem retire_hart_place : s.retire.hart.place = s.hart.place := rfl
@[simp] theorem retire_hart_priv : s.retire.hart.priv = s.hart.priv := rfl
@[simp] theorem retire_hart_pc : s.retire.hart.pc = s.hart.pc + s.len := rfl
@[simp] theorem retire_hart_x : s.retire.hart.x = s.hart.x := rfl
@[simp] theorem retire_hart_c : s.retire.hart.c = s.hart.c := rfl
@[simp] theorem retire_hart_v : s.retire.hart.v = s.hart.v := rfl
@[simp] theorem retire_hart_m : s.retire.hart.m = s.hart.m := rfl
@[simp] theorem retire_hart_q : s.retire.hart.q = s.hart.q := rfl
@[simp] theorem retire_hart_e : s.retire.hart.e = s.hart.e := rfl
@[simp] theorem retire_hart_tile : s.retire.hart.tile = s.hart.tile := rfl
@[simp] theorem retire_hart_ge : s.retire.hart.ge = s.hart.ge := rfl
@[simp] theorem retire_hart_vl : s.retire.hart.vl = s.hart.vl := rfl
@[simp] theorem retire_hart_vsi : s.retire.hart.vsi = s.hart.vsi := rfl
@[simp] theorem retire_hart_vcfg : s.retire.hart.vcfg = s.hart.vcfg := rfl
@[simp] theorem retire_hart_rows : s.retire.hart.rows = s.hart.rows := rfl
@[simp] theorem retire_hart_pitch : s.retire.hart.pitch = s.hart.pitch := rfl
@[simp] theorem retire_hart_fcsr : s.retire.hart.fcsr = s.hart.fcsr := rfl
@[simp] theorem retire_hart_qpos : s.retire.hart.qpos = s.hart.qpos := rfl
@[simp] theorem retire_hart_mbudget : s.retire.hart.mbudget = s.hart.mbudget := rfl
@[simp] theorem retire_hart_ch : s.retire.hart.ch = s.hart.ch := rfl
@[simp] theorem retire_hart_batch : s.retire.hart.batch = s.hart.batch := rfl
@[simp] theorem retire_hart_streams : s.retire.hart.streams = s.hart.streams := rfl
@[simp] theorem retire_hart_farmid : s.retire.hart.farmid = s.hart.farmid := rfl
@[simp] theorem retire_hart_fbase : s.retire.hart.fbase = s.hart.fbase := rfl
@[simp] theorem retire_hart_ffault : s.retire.hart.ffault = s.hart.ffault := rfl
@[simp] theorem retire_hart_noStrips : s.retire.hart.noStrips = s.hart.noStrips := rfl
@[simp] theorem retire_hart_discarded : s.retire.hart.discarded = s.hart.discarded := rfl
@[simp] theorem retire_hart_disc : s.retire.hart.disc = s.hart.disc := rfl
@[simp] theorem retire_hart_strip : s.retire.hart.strip = s.hart.strip := rfl
@[simp] theorem retire_hart_cycle : s.retire.hart.cycle = s.hart.cycle := rfl
@[simp] theorem retire_hart_instret : s.retire.hart.instret = s.hart.instret + 1 := rfl
@[simp] theorem retire_hart_pend20 : s.retire.hart.pend20 = s.hart.pend20 := rfl
@[simp] theorem retire_hart_pend21 : s.retire.hart.pend21 = s.hart.pend21 := rfl
@[simp] theorem retire_hart_pend22 : s.retire.hart.pend22 = s.hart.pend22 := rfl
@[simp] theorem retire_hart_switchPending : s.retire.hart.switchPending = s.hart.switchPending := rfl
@[simp] theorem retire_hart_reclaim : s.retire.hart.reclaim = s.hart.reclaim := rfl
@[simp] theorem retire_hart_lostBytes : s.retire.hart.lostBytes = s.hart.lostBytes := rfl
@[simp] theorem retire_hart_iword : s.retire.hart.iword = s.hart.iword := rfl
@[simp] theorem retire_hart_ipair : s.retire.hart.ipair = s.hart.ipair := rfl
@[simp] theorem retire_hart_limit : s.retire.hart.limit = s.hart.limit := rfl
@[simp] theorem raise_parked (f : Flags) (b : Bool) : (s.raise f b).parked = s.parked := rfl
@[simp] theorem raise_mem (f : Flags) (b : Bool) : (s.raise f b).mem = s.mem := rfl
@[simp] theorem raise_spad (f : Flags) (b : Bool) : (s.raise f b).spad = s.spad := rfl
@[simp] theorem raise_rcache (f : Flags) (b : Bool) : (s.raise f b).rcache = s.rcache := rfl
@[simp] theorem raise_poison (f : Flags) (b : Bool) : (s.raise f b).poison = s.poison := rfl
@[simp] theorem raise_spadPoison (f : Flags) (b : Bool) : (s.raise f b).spadPoison = s.spadPoison := rfl
@[simp] theorem raise_tlb (f : Flags) (b : Bool) : (s.raise f b).tlb = s.tlb := rfl
@[simp] theorem raise_refused (f : Flags) (b : Bool) : (s.raise f b).refused = s.refused := rfl
@[simp] theorem raise_barriers (f : Flags) (b : Bool) : (s.raise f b).barriers = s.barriers := rfl
@[simp] theorem raise_zones (f : Flags) (b : Bool) : (s.raise f b).zones = s.zones := rfl
@[simp] theorem raise_fills (f : Flags) (b : Bool) : (s.raise f b).fills = s.fills := rfl
@[simp] theorem raise_parts (f : Flags) (b : Bool) : (s.raise f b).parts = s.parts := rfl
@[simp] theorem raise_scheds (f : Flags) (b : Bool) : (s.raise f b).scheds = s.scheds := rfl
@[simp] theorem raise_queues (f : Flags) (b : Bool) : (s.raise f b).queues = s.queues := rfl
@[simp] theorem raise_launches (f : Flags) (b : Bool) : (s.raise f b).launches = s.launches := rfl
@[simp] theorem raise_welt (f : Flags) (b : Bool) : (s.raise f b).welt = s.welt := rfl
@[simp] theorem raise_ports (f : Flags) (b : Bool) : (s.raise f b).ports = s.ports := rfl
@[simp] theorem raise_service (f : Flags) (b : Bool) : (s.raise f b).service = s.service := rfl
@[simp] theorem raise_logs (f : Flags) (b : Bool) : (s.raise f b).logs = s.logs := rfl
@[simp] theorem raise_retClusters (f : Flags) (b : Bool) : (s.raise f b).retClusters = s.retClusters := rfl
@[simp] theorem raise_retCores (f : Flags) (b : Bool) : (s.raise f b).retCores = s.retCores := rfl
@[simp] theorem raise_retRows (f : Flags) (b : Bool) : (s.raise f b).retRows = s.retRows := rfl
@[simp] theorem raise_retRowsPend (f : Flags) (b : Bool) : (s.raise f b).retRowsPend = s.retRowsPend := rfl
@[simp] theorem raise_retiring (f : Flags) (b : Bool) : (s.raise f b).retiring = s.retiring := rfl
@[simp] theorem raise_repairing (f : Flags) (b : Bool) : (s.raise f b).repairing = s.repairing := rfl
@[simp] theorem raise_lost (f : Flags) (b : Bool) : (s.raise f b).lost = s.lost := rfl
@[simp] theorem raise_lostGood (f : Flags) (b : Bool) : (s.raise f b).lostGood = s.lostGood := rfl
@[simp] theorem raise_torn (f : Flags) (b : Bool) : (s.raise f b).torn = s.torn := rfl
@[simp] theorem raise_fulls (f : Flags) (b : Bool) : (s.raise f b).fulls = s.fulls := rfl
@[simp] theorem raise_power (f : Flags) (b : Bool) : (s.raise f b).power = s.power := rfl
@[simp] theorem raise_accepted (f : Flags) (b : Bool) : (s.raise f b).accepted = s.accepted := rfl
@[simp] theorem raise_silent (f : Flags) (b : Bool) : (s.raise f b).silent = s.silent := rfl
@[simp] theorem raise_device (f : Flags) (b : Bool) : (s.raise f b).device = s.device := rfl
@[simp] theorem raise_domain (f : Flags) (b : Bool) : (s.raise f b).domain = s.domain := rfl
@[simp] theorem raise_time (f : Flags) (b : Bool) : (s.raise f b).time = s.time := rfl
@[simp] theorem raise_nextLaunch (f : Flags) (b : Bool) : (s.raise f b).nextLaunch = s.nextLaunch := rfl
@[simp] theorem raise_nextHart (f : Flags) (b : Bool) : (s.raise f b).nextHart = s.nextHart := rfl
@[simp] theorem raise_nextOrder (f : Flags) (b : Bool) : (s.raise f b).nextOrder = s.nextOrder := rfl
@[simp] theorem raise_agenda (f : Flags) (b : Bool) : (s.raise f b).agenda = s.agenda := rfl
@[simp] theorem raise_chances (f : Flags) (b : Bool) : (s.raise f b).chances = s.chances := rfl
@[simp] theorem raise_outbox (f : Flags) (b : Bool) : (s.raise f b).outbox = s.outbox := rfl
@[simp] theorem raise_freeCtr (f : Flags) (b : Bool) : (s.raise f b).freeCtr = s.freeCtr := rfl
@[simp] theorem raise_hart_phase (f : Flags) (b : Bool) : (s.raise f b).hart.phase = s.hart.phase := rfl
@[simp] theorem raise_hart_waiting (f : Flags) (b : Bool) : (s.raise f b).hart.waiting = s.hart.waiting := rfl
@[simp] theorem raise_hart_place (f : Flags) (b : Bool) : (s.raise f b).hart.place = s.hart.place := rfl
@[simp] theorem raise_hart_priv (f : Flags) (b : Bool) : (s.raise f b).hart.priv = s.hart.priv := rfl
@[simp] theorem raise_hart_pc (f : Flags) (b : Bool) : (s.raise f b).hart.pc = s.hart.pc := rfl
@[simp] theorem raise_hart_x (f : Flags) (b : Bool) : (s.raise f b).hart.x = s.hart.x := rfl
@[simp] theorem raise_hart_c (f : Flags) (b : Bool) : (s.raise f b).hart.c = s.hart.c := rfl
@[simp] theorem raise_hart_v (f : Flags) (b : Bool) : (s.raise f b).hart.v = s.hart.v := rfl
@[simp] theorem raise_hart_m (f : Flags) (b : Bool) : (s.raise f b).hart.m = s.hart.m := rfl
@[simp] theorem raise_hart_q (f : Flags) (b : Bool) : (s.raise f b).hart.q = s.hart.q := rfl
@[simp] theorem raise_hart_e (f : Flags) (b : Bool) : (s.raise f b).hart.e = s.hart.e := rfl
@[simp] theorem raise_hart_tile (f : Flags) (b : Bool) : (s.raise f b).hart.tile = s.hart.tile := rfl
@[simp] theorem raise_hart_ge (f : Flags) (b : Bool) : (s.raise f b).hart.ge = s.hart.ge := rfl
@[simp] theorem raise_hart_vl (f : Flags) (b : Bool) : (s.raise f b).hart.vl = s.hart.vl := rfl
@[simp] theorem raise_hart_vsi (f : Flags) (b : Bool) : (s.raise f b).hart.vsi = s.hart.vsi := rfl
@[simp] theorem raise_hart_vcfg (f : Flags) (b : Bool) : (s.raise f b).hart.vcfg = s.hart.vcfg := rfl
@[simp] theorem raise_hart_rows (f : Flags) (b : Bool) : (s.raise f b).hart.rows = s.hart.rows := rfl
@[simp] theorem raise_hart_pitch (f : Flags) (b : Bool) : (s.raise f b).hart.pitch = s.hart.pitch := rfl
@[simp] theorem raise_hart_fcsr (f : Flags) (b : Bool) : (s.raise f b).hart.fcsr = s.hart.fcsr.merge f b := rfl
@[simp] theorem raise_hart_qpos (f : Flags) (b : Bool) : (s.raise f b).hart.qpos = s.hart.qpos := rfl
@[simp] theorem raise_hart_mbudget (f : Flags) (b : Bool) : (s.raise f b).hart.mbudget = s.hart.mbudget := rfl
@[simp] theorem raise_hart_ch (f : Flags) (b : Bool) : (s.raise f b).hart.ch = s.hart.ch := rfl
@[simp] theorem raise_hart_batch (f : Flags) (b : Bool) : (s.raise f b).hart.batch = s.hart.batch := rfl
@[simp] theorem raise_hart_streams (f : Flags) (b : Bool) : (s.raise f b).hart.streams = s.hart.streams := rfl
@[simp] theorem raise_hart_farmid (f : Flags) (b : Bool) : (s.raise f b).hart.farmid = s.hart.farmid := rfl
@[simp] theorem raise_hart_fbase (f : Flags) (b : Bool) : (s.raise f b).hart.fbase = s.hart.fbase := rfl
@[simp] theorem raise_hart_ffault (f : Flags) (b : Bool) : (s.raise f b).hart.ffault = s.hart.ffault := rfl
@[simp] theorem raise_hart_noStrips (f : Flags) (b : Bool) : (s.raise f b).hart.noStrips = s.hart.noStrips := rfl
@[simp] theorem raise_hart_discarded (f : Flags) (b : Bool) : (s.raise f b).hart.discarded = s.hart.discarded := rfl
@[simp] theorem raise_hart_disc (f : Flags) (b : Bool) : (s.raise f b).hart.disc = s.hart.disc := rfl
@[simp] theorem raise_hart_strip (f : Flags) (b : Bool) : (s.raise f b).hart.strip = s.hart.strip := rfl
@[simp] theorem raise_hart_cycle (f : Flags) (b : Bool) : (s.raise f b).hart.cycle = s.hart.cycle := rfl
@[simp] theorem raise_hart_instret (f : Flags) (b : Bool) : (s.raise f b).hart.instret = s.hart.instret := rfl
@[simp] theorem raise_hart_pend20 (f : Flags) (b : Bool) : (s.raise f b).hart.pend20 = s.hart.pend20 := rfl
@[simp] theorem raise_hart_pend21 (f : Flags) (b : Bool) : (s.raise f b).hart.pend21 = s.hart.pend21 := rfl
@[simp] theorem raise_hart_pend22 (f : Flags) (b : Bool) : (s.raise f b).hart.pend22 = s.hart.pend22 := rfl
@[simp] theorem raise_hart_switchPending (f : Flags) (b : Bool) : (s.raise f b).hart.switchPending = s.hart.switchPending := rfl
@[simp] theorem raise_hart_reclaim (f : Flags) (b : Bool) : (s.raise f b).hart.reclaim = s.hart.reclaim := rfl
@[simp] theorem raise_hart_lostBytes (f : Flags) (b : Bool) : (s.raise f b).hart.lostBytes = s.hart.lostBytes := rfl
@[simp] theorem raise_hart_iword (f : Flags) (b : Bool) : (s.raise f b).hart.iword = s.hart.iword := rfl
@[simp] theorem raise_hart_ipair (f : Flags) (b : Bool) : (s.raise f b).hart.ipair = s.hart.ipair := rfl
@[simp] theorem raise_hart_limit (f : Flags) (b : Bool) : (s.raise f b).hart.limit = s.hart.limit := rfl
@[simp] theorem setVsi_parked (n : Nat) : (s.setVsi n).parked = s.parked := rfl
@[simp] theorem setVsi_mem (n : Nat) : (s.setVsi n).mem = s.mem := rfl
@[simp] theorem setVsi_spad (n : Nat) : (s.setVsi n).spad = s.spad := rfl
@[simp] theorem setVsi_rcache (n : Nat) : (s.setVsi n).rcache = s.rcache := rfl
@[simp] theorem setVsi_poison (n : Nat) : (s.setVsi n).poison = s.poison := rfl
@[simp] theorem setVsi_spadPoison (n : Nat) : (s.setVsi n).spadPoison = s.spadPoison := rfl
@[simp] theorem setVsi_tlb (n : Nat) : (s.setVsi n).tlb = s.tlb := rfl
@[simp] theorem setVsi_refused (n : Nat) : (s.setVsi n).refused = s.refused := rfl
@[simp] theorem setVsi_barriers (n : Nat) : (s.setVsi n).barriers = s.barriers := rfl
@[simp] theorem setVsi_zones (n : Nat) : (s.setVsi n).zones = s.zones := rfl
@[simp] theorem setVsi_fills (n : Nat) : (s.setVsi n).fills = s.fills := rfl
@[simp] theorem setVsi_parts (n : Nat) : (s.setVsi n).parts = s.parts := rfl
@[simp] theorem setVsi_scheds (n : Nat) : (s.setVsi n).scheds = s.scheds := rfl
@[simp] theorem setVsi_queues (n : Nat) : (s.setVsi n).queues = s.queues := rfl
@[simp] theorem setVsi_launches (n : Nat) : (s.setVsi n).launches = s.launches := rfl
@[simp] theorem setVsi_welt (n : Nat) : (s.setVsi n).welt = s.welt := rfl
@[simp] theorem setVsi_ports (n : Nat) : (s.setVsi n).ports = s.ports := rfl
@[simp] theorem setVsi_service (n : Nat) : (s.setVsi n).service = s.service := rfl
@[simp] theorem setVsi_logs (n : Nat) : (s.setVsi n).logs = s.logs := rfl
@[simp] theorem setVsi_retClusters (n : Nat) : (s.setVsi n).retClusters = s.retClusters := rfl
@[simp] theorem setVsi_retCores (n : Nat) : (s.setVsi n).retCores = s.retCores := rfl
@[simp] theorem setVsi_retRows (n : Nat) : (s.setVsi n).retRows = s.retRows := rfl
@[simp] theorem setVsi_retRowsPend (n : Nat) : (s.setVsi n).retRowsPend = s.retRowsPend := rfl
@[simp] theorem setVsi_retiring (n : Nat) : (s.setVsi n).retiring = s.retiring := rfl
@[simp] theorem setVsi_repairing (n : Nat) : (s.setVsi n).repairing = s.repairing := rfl
@[simp] theorem setVsi_lost (n : Nat) : (s.setVsi n).lost = s.lost := rfl
@[simp] theorem setVsi_lostGood (n : Nat) : (s.setVsi n).lostGood = s.lostGood := rfl
@[simp] theorem setVsi_torn (n : Nat) : (s.setVsi n).torn = s.torn := rfl
@[simp] theorem setVsi_fulls (n : Nat) : (s.setVsi n).fulls = s.fulls := rfl
@[simp] theorem setVsi_power (n : Nat) : (s.setVsi n).power = s.power := rfl
@[simp] theorem setVsi_accepted (n : Nat) : (s.setVsi n).accepted = s.accepted := rfl
@[simp] theorem setVsi_silent (n : Nat) : (s.setVsi n).silent = s.silent := rfl
@[simp] theorem setVsi_device (n : Nat) : (s.setVsi n).device = s.device := rfl
@[simp] theorem setVsi_domain (n : Nat) : (s.setVsi n).domain = s.domain := rfl
@[simp] theorem setVsi_time (n : Nat) : (s.setVsi n).time = s.time := rfl
@[simp] theorem setVsi_nextLaunch (n : Nat) : (s.setVsi n).nextLaunch = s.nextLaunch := rfl
@[simp] theorem setVsi_nextHart (n : Nat) : (s.setVsi n).nextHart = s.nextHart := rfl
@[simp] theorem setVsi_nextOrder (n : Nat) : (s.setVsi n).nextOrder = s.nextOrder := rfl
@[simp] theorem setVsi_agenda (n : Nat) : (s.setVsi n).agenda = s.agenda := rfl
@[simp] theorem setVsi_chances (n : Nat) : (s.setVsi n).chances = s.chances := rfl
@[simp] theorem setVsi_outbox (n : Nat) : (s.setVsi n).outbox = s.outbox := rfl
@[simp] theorem setVsi_freeCtr (n : Nat) : (s.setVsi n).freeCtr = s.freeCtr := rfl
@[simp] theorem setVsi_hart_phase (n : Nat) : (s.setVsi n).hart.phase = s.hart.phase := rfl
@[simp] theorem setVsi_hart_waiting (n : Nat) : (s.setVsi n).hart.waiting = s.hart.waiting := rfl
@[simp] theorem setVsi_hart_place (n : Nat) : (s.setVsi n).hart.place = s.hart.place := rfl
@[simp] theorem setVsi_hart_priv (n : Nat) : (s.setVsi n).hart.priv = s.hart.priv := rfl
@[simp] theorem setVsi_hart_pc (n : Nat) : (s.setVsi n).hart.pc = s.hart.pc := rfl
@[simp] theorem setVsi_hart_x (n : Nat) : (s.setVsi n).hart.x = s.hart.x := rfl
@[simp] theorem setVsi_hart_c (n : Nat) : (s.setVsi n).hart.c = s.hart.c := rfl
@[simp] theorem setVsi_hart_v (n : Nat) : (s.setVsi n).hart.v = s.hart.v := rfl
@[simp] theorem setVsi_hart_m (n : Nat) : (s.setVsi n).hart.m = s.hart.m := rfl
@[simp] theorem setVsi_hart_q (n : Nat) : (s.setVsi n).hart.q = s.hart.q := rfl
@[simp] theorem setVsi_hart_e (n : Nat) : (s.setVsi n).hart.e = s.hart.e := rfl
@[simp] theorem setVsi_hart_tile (n : Nat) : (s.setVsi n).hart.tile = s.hart.tile := rfl
@[simp] theorem setVsi_hart_ge (n : Nat) : (s.setVsi n).hart.ge = s.hart.ge := rfl
@[simp] theorem setVsi_hart_vl (n : Nat) : (s.setVsi n).hart.vl = s.hart.vl := rfl
@[simp] theorem setVsi_hart_vsi (n : Nat) : (s.setVsi n).hart.vsi = n := rfl
@[simp] theorem setVsi_hart_vcfg (n : Nat) : (s.setVsi n).hart.vcfg = s.hart.vcfg := rfl
@[simp] theorem setVsi_hart_rows (n : Nat) : (s.setVsi n).hart.rows = s.hart.rows := rfl
@[simp] theorem setVsi_hart_pitch (n : Nat) : (s.setVsi n).hart.pitch = s.hart.pitch := rfl
@[simp] theorem setVsi_hart_fcsr (n : Nat) : (s.setVsi n).hart.fcsr = s.hart.fcsr := rfl
@[simp] theorem setVsi_hart_qpos (n : Nat) : (s.setVsi n).hart.qpos = s.hart.qpos := rfl
@[simp] theorem setVsi_hart_mbudget (n : Nat) : (s.setVsi n).hart.mbudget = s.hart.mbudget := rfl
@[simp] theorem setVsi_hart_ch (n : Nat) : (s.setVsi n).hart.ch = s.hart.ch := rfl
@[simp] theorem setVsi_hart_batch (n : Nat) : (s.setVsi n).hart.batch = s.hart.batch := rfl
@[simp] theorem setVsi_hart_streams (n : Nat) : (s.setVsi n).hart.streams = s.hart.streams := rfl
@[simp] theorem setVsi_hart_farmid (n : Nat) : (s.setVsi n).hart.farmid = s.hart.farmid := rfl
@[simp] theorem setVsi_hart_fbase (n : Nat) : (s.setVsi n).hart.fbase = s.hart.fbase := rfl
@[simp] theorem setVsi_hart_ffault (n : Nat) : (s.setVsi n).hart.ffault = s.hart.ffault := rfl
@[simp] theorem setVsi_hart_noStrips (n : Nat) : (s.setVsi n).hart.noStrips = s.hart.noStrips := rfl
@[simp] theorem setVsi_hart_discarded (n : Nat) : (s.setVsi n).hart.discarded = s.hart.discarded := rfl
@[simp] theorem setVsi_hart_disc (n : Nat) : (s.setVsi n).hart.disc = s.hart.disc := rfl
@[simp] theorem setVsi_hart_strip (n : Nat) : (s.setVsi n).hart.strip = s.hart.strip := rfl
@[simp] theorem setVsi_hart_cycle (n : Nat) : (s.setVsi n).hart.cycle = s.hart.cycle := rfl
@[simp] theorem setVsi_hart_instret (n : Nat) : (s.setVsi n).hart.instret = s.hart.instret := rfl
@[simp] theorem setVsi_hart_pend20 (n : Nat) : (s.setVsi n).hart.pend20 = s.hart.pend20 := rfl
@[simp] theorem setVsi_hart_pend21 (n : Nat) : (s.setVsi n).hart.pend21 = s.hart.pend21 := rfl
@[simp] theorem setVsi_hart_pend22 (n : Nat) : (s.setVsi n).hart.pend22 = s.hart.pend22 := rfl
@[simp] theorem setVsi_hart_switchPending (n : Nat) : (s.setVsi n).hart.switchPending = s.hart.switchPending := rfl
@[simp] theorem setVsi_hart_reclaim (n : Nat) : (s.setVsi n).hart.reclaim = s.hart.reclaim := rfl
@[simp] theorem setVsi_hart_lostBytes (n : Nat) : (s.setVsi n).hart.lostBytes = s.hart.lostBytes := rfl
@[simp] theorem setVsi_hart_iword (n : Nat) : (s.setVsi n).hart.iword = s.hart.iword := rfl
@[simp] theorem setVsi_hart_ipair (n : Nat) : (s.setVsi n).hart.ipair = s.hart.ipair := rfl
@[simp] theorem setVsi_hart_limit (n : Nat) : (s.setVsi n).hart.limit = s.hart.limit := rfl
@[simp] theorem wait_parked (w : Wait) (p : Phase) : (s.wait w p).parked = s.parked := rfl
@[simp] theorem wait_mem (w : Wait) (p : Phase) : (s.wait w p).mem = s.mem := rfl
@[simp] theorem wait_spad (w : Wait) (p : Phase) : (s.wait w p).spad = s.spad := rfl
@[simp] theorem wait_rcache (w : Wait) (p : Phase) : (s.wait w p).rcache = s.rcache := rfl
@[simp] theorem wait_poison (w : Wait) (p : Phase) : (s.wait w p).poison = s.poison := rfl
@[simp] theorem wait_spadPoison (w : Wait) (p : Phase) : (s.wait w p).spadPoison = s.spadPoison := rfl
@[simp] theorem wait_tlb (w : Wait) (p : Phase) : (s.wait w p).tlb = s.tlb := rfl
@[simp] theorem wait_refused (w : Wait) (p : Phase) : (s.wait w p).refused = s.refused := rfl
@[simp] theorem wait_barriers (w : Wait) (p : Phase) : (s.wait w p).barriers = s.barriers := rfl
@[simp] theorem wait_zones (w : Wait) (p : Phase) : (s.wait w p).zones = s.zones := rfl
@[simp] theorem wait_fills (w : Wait) (p : Phase) : (s.wait w p).fills = s.fills := rfl
@[simp] theorem wait_parts (w : Wait) (p : Phase) : (s.wait w p).parts = s.parts := rfl
@[simp] theorem wait_scheds (w : Wait) (p : Phase) : (s.wait w p).scheds = s.scheds := rfl
@[simp] theorem wait_queues (w : Wait) (p : Phase) : (s.wait w p).queues = s.queues := rfl
@[simp] theorem wait_launches (w : Wait) (p : Phase) : (s.wait w p).launches = s.launches := rfl
@[simp] theorem wait_welt (w : Wait) (p : Phase) : (s.wait w p).welt = s.welt := rfl
@[simp] theorem wait_ports (w : Wait) (p : Phase) : (s.wait w p).ports = s.ports := rfl
@[simp] theorem wait_service (w : Wait) (p : Phase) : (s.wait w p).service = s.service := rfl
@[simp] theorem wait_logs (w : Wait) (p : Phase) : (s.wait w p).logs = s.logs := rfl
@[simp] theorem wait_retClusters (w : Wait) (p : Phase) : (s.wait w p).retClusters = s.retClusters := rfl
@[simp] theorem wait_retCores (w : Wait) (p : Phase) : (s.wait w p).retCores = s.retCores := rfl
@[simp] theorem wait_retRows (w : Wait) (p : Phase) : (s.wait w p).retRows = s.retRows := rfl
@[simp] theorem wait_retRowsPend (w : Wait) (p : Phase) : (s.wait w p).retRowsPend = s.retRowsPend := rfl
@[simp] theorem wait_retiring (w : Wait) (p : Phase) : (s.wait w p).retiring = s.retiring := rfl
@[simp] theorem wait_repairing (w : Wait) (p : Phase) : (s.wait w p).repairing = s.repairing := rfl
@[simp] theorem wait_lost (w : Wait) (p : Phase) : (s.wait w p).lost = s.lost := rfl
@[simp] theorem wait_lostGood (w : Wait) (p : Phase) : (s.wait w p).lostGood = s.lostGood := rfl
@[simp] theorem wait_torn (w : Wait) (p : Phase) : (s.wait w p).torn = s.torn := rfl
@[simp] theorem wait_fulls (w : Wait) (p : Phase) : (s.wait w p).fulls = s.fulls := rfl
@[simp] theorem wait_power (w : Wait) (p : Phase) : (s.wait w p).power = s.power := rfl
@[simp] theorem wait_accepted (w : Wait) (p : Phase) : (s.wait w p).accepted = s.accepted := rfl
@[simp] theorem wait_silent (w : Wait) (p : Phase) : (s.wait w p).silent = s.silent := rfl
@[simp] theorem wait_device (w : Wait) (p : Phase) : (s.wait w p).device = s.device := rfl
@[simp] theorem wait_domain (w : Wait) (p : Phase) : (s.wait w p).domain = s.domain := rfl
@[simp] theorem wait_time (w : Wait) (p : Phase) : (s.wait w p).time = s.time := rfl
@[simp] theorem wait_nextLaunch (w : Wait) (p : Phase) : (s.wait w p).nextLaunch = s.nextLaunch := rfl
@[simp] theorem wait_nextHart (w : Wait) (p : Phase) : (s.wait w p).nextHart = s.nextHart := rfl
@[simp] theorem wait_nextOrder (w : Wait) (p : Phase) : (s.wait w p).nextOrder = s.nextOrder := rfl
@[simp] theorem wait_agenda (w : Wait) (p : Phase) : (s.wait w p).agenda = s.agenda := rfl
@[simp] theorem wait_chances (w : Wait) (p : Phase) : (s.wait w p).chances = s.chances := rfl
@[simp] theorem wait_outbox (w : Wait) (p : Phase) : (s.wait w p).outbox = s.outbox := rfl
@[simp] theorem wait_freeCtr (w : Wait) (p : Phase) : (s.wait w p).freeCtr = s.freeCtr := rfl
@[simp] theorem wait_hart_phase (w : Wait) (p : Phase) : (s.wait w p).hart.phase = p := rfl
@[simp] theorem wait_hart_waiting (w : Wait) (p : Phase) : (s.wait w p).hart.waiting = some w := rfl
@[simp] theorem wait_hart_place (w : Wait) (p : Phase) : (s.wait w p).hart.place = s.hart.place := rfl
@[simp] theorem wait_hart_priv (w : Wait) (p : Phase) : (s.wait w p).hart.priv = s.hart.priv := rfl
@[simp] theorem wait_hart_pc (w : Wait) (p : Phase) : (s.wait w p).hart.pc = s.hart.pc := rfl
@[simp] theorem wait_hart_x (w : Wait) (p : Phase) : (s.wait w p).hart.x = s.hart.x := rfl
@[simp] theorem wait_hart_c (w : Wait) (p : Phase) : (s.wait w p).hart.c = s.hart.c := rfl
@[simp] theorem wait_hart_v (w : Wait) (p : Phase) : (s.wait w p).hart.v = s.hart.v := rfl
@[simp] theorem wait_hart_m (w : Wait) (p : Phase) : (s.wait w p).hart.m = s.hart.m := rfl
@[simp] theorem wait_hart_q (w : Wait) (p : Phase) : (s.wait w p).hart.q = s.hart.q := rfl
@[simp] theorem wait_hart_e (w : Wait) (p : Phase) : (s.wait w p).hart.e = s.hart.e := rfl
@[simp] theorem wait_hart_tile (w : Wait) (p : Phase) : (s.wait w p).hart.tile = s.hart.tile := rfl
@[simp] theorem wait_hart_ge (w : Wait) (p : Phase) : (s.wait w p).hart.ge = s.hart.ge := rfl
@[simp] theorem wait_hart_vl (w : Wait) (p : Phase) : (s.wait w p).hart.vl = s.hart.vl := rfl
@[simp] theorem wait_hart_vsi (w : Wait) (p : Phase) : (s.wait w p).hart.vsi = s.hart.vsi := rfl
@[simp] theorem wait_hart_vcfg (w : Wait) (p : Phase) : (s.wait w p).hart.vcfg = s.hart.vcfg := rfl
@[simp] theorem wait_hart_rows (w : Wait) (p : Phase) : (s.wait w p).hart.rows = s.hart.rows := rfl
@[simp] theorem wait_hart_pitch (w : Wait) (p : Phase) : (s.wait w p).hart.pitch = s.hart.pitch := rfl
@[simp] theorem wait_hart_fcsr (w : Wait) (p : Phase) : (s.wait w p).hart.fcsr = s.hart.fcsr := rfl
@[simp] theorem wait_hart_qpos (w : Wait) (p : Phase) : (s.wait w p).hart.qpos = s.hart.qpos := rfl
@[simp] theorem wait_hart_mbudget (w : Wait) (p : Phase) : (s.wait w p).hart.mbudget = s.hart.mbudget := rfl
@[simp] theorem wait_hart_ch (w : Wait) (p : Phase) : (s.wait w p).hart.ch = s.hart.ch := rfl
@[simp] theorem wait_hart_batch (w : Wait) (p : Phase) : (s.wait w p).hart.batch = s.hart.batch := rfl
@[simp] theorem wait_hart_streams (w : Wait) (p : Phase) : (s.wait w p).hart.streams = s.hart.streams := rfl
@[simp] theorem wait_hart_farmid (w : Wait) (p : Phase) : (s.wait w p).hart.farmid = s.hart.farmid := rfl
@[simp] theorem wait_hart_fbase (w : Wait) (p : Phase) : (s.wait w p).hart.fbase = s.hart.fbase := rfl
@[simp] theorem wait_hart_ffault (w : Wait) (p : Phase) : (s.wait w p).hart.ffault = s.hart.ffault := rfl
@[simp] theorem wait_hart_noStrips (w : Wait) (p : Phase) : (s.wait w p).hart.noStrips = s.hart.noStrips := rfl
@[simp] theorem wait_hart_discarded (w : Wait) (p : Phase) : (s.wait w p).hart.discarded = s.hart.discarded := rfl
@[simp] theorem wait_hart_disc (w : Wait) (p : Phase) : (s.wait w p).hart.disc = s.hart.disc := rfl
@[simp] theorem wait_hart_strip (w : Wait) (p : Phase) : (s.wait w p).hart.strip = s.hart.strip := rfl
@[simp] theorem wait_hart_cycle (w : Wait) (p : Phase) : (s.wait w p).hart.cycle = s.hart.cycle := rfl
@[simp] theorem wait_hart_instret (w : Wait) (p : Phase) : (s.wait w p).hart.instret = s.hart.instret := rfl
@[simp] theorem wait_hart_pend20 (w : Wait) (p : Phase) : (s.wait w p).hart.pend20 = s.hart.pend20 := rfl
@[simp] theorem wait_hart_pend21 (w : Wait) (p : Phase) : (s.wait w p).hart.pend21 = s.hart.pend21 := rfl
@[simp] theorem wait_hart_pend22 (w : Wait) (p : Phase) : (s.wait w p).hart.pend22 = s.hart.pend22 := rfl
@[simp] theorem wait_hart_switchPending (w : Wait) (p : Phase) : (s.wait w p).hart.switchPending = s.hart.switchPending := rfl
@[simp] theorem wait_hart_reclaim (w : Wait) (p : Phase) : (s.wait w p).hart.reclaim = s.hart.reclaim := rfl
@[simp] theorem wait_hart_lostBytes (w : Wait) (p : Phase) : (s.wait w p).hart.lostBytes = s.hart.lostBytes := rfl
@[simp] theorem wait_hart_iword (w : Wait) (p : Phase) : (s.wait w p).hart.iword = s.hart.iword := rfl
@[simp] theorem wait_hart_ipair (w : Wait) (p : Phase) : (s.wait w p).hart.ipair = s.hart.ipair := rfl
@[simp] theorem wait_hart_limit (w : Wait) (p : Phase) : (s.wait w p).hart.limit = s.hart.limit := rfl
@[simp] theorem wake_parked : s.wake.parked = s.parked := rfl
@[simp] theorem wake_mem : s.wake.mem = s.mem := rfl
@[simp] theorem wake_spad : s.wake.spad = s.spad := rfl
@[simp] theorem wake_rcache : s.wake.rcache = s.rcache := rfl
@[simp] theorem wake_poison : s.wake.poison = s.poison := rfl
@[simp] theorem wake_spadPoison : s.wake.spadPoison = s.spadPoison := rfl
@[simp] theorem wake_tlb : s.wake.tlb = s.tlb := rfl
@[simp] theorem wake_refused : s.wake.refused = s.refused := rfl
@[simp] theorem wake_barriers : s.wake.barriers = s.barriers := rfl
@[simp] theorem wake_zones : s.wake.zones = s.zones := rfl
@[simp] theorem wake_fills : s.wake.fills = s.fills := rfl
@[simp] theorem wake_parts : s.wake.parts = s.parts := rfl
@[simp] theorem wake_scheds : s.wake.scheds = s.scheds := rfl
@[simp] theorem wake_queues : s.wake.queues = s.queues := rfl
@[simp] theorem wake_launches : s.wake.launches = s.launches := rfl
@[simp] theorem wake_welt : s.wake.welt = s.welt := rfl
@[simp] theorem wake_ports : s.wake.ports = s.ports := rfl
@[simp] theorem wake_service : s.wake.service = s.service := rfl
@[simp] theorem wake_logs : s.wake.logs = s.logs := rfl
@[simp] theorem wake_retClusters : s.wake.retClusters = s.retClusters := rfl
@[simp] theorem wake_retCores : s.wake.retCores = s.retCores := rfl
@[simp] theorem wake_retRows : s.wake.retRows = s.retRows := rfl
@[simp] theorem wake_retRowsPend : s.wake.retRowsPend = s.retRowsPend := rfl
@[simp] theorem wake_retiring : s.wake.retiring = s.retiring := rfl
@[simp] theorem wake_repairing : s.wake.repairing = s.repairing := rfl
@[simp] theorem wake_lost : s.wake.lost = s.lost := rfl
@[simp] theorem wake_lostGood : s.wake.lostGood = s.lostGood := rfl
@[simp] theorem wake_torn : s.wake.torn = s.torn := rfl
@[simp] theorem wake_fulls : s.wake.fulls = s.fulls := rfl
@[simp] theorem wake_power : s.wake.power = s.power := rfl
@[simp] theorem wake_accepted : s.wake.accepted = s.accepted := rfl
@[simp] theorem wake_silent : s.wake.silent = s.silent := rfl
@[simp] theorem wake_device : s.wake.device = s.device := rfl
@[simp] theorem wake_domain : s.wake.domain = s.domain := rfl
@[simp] theorem wake_time : s.wake.time = s.time := rfl
@[simp] theorem wake_nextLaunch : s.wake.nextLaunch = s.nextLaunch := rfl
@[simp] theorem wake_nextHart : s.wake.nextHart = s.nextHart := rfl
@[simp] theorem wake_nextOrder : s.wake.nextOrder = s.nextOrder := rfl
@[simp] theorem wake_agenda : s.wake.agenda = s.agenda := rfl
@[simp] theorem wake_chances : s.wake.chances = s.chances := rfl
@[simp] theorem wake_outbox : s.wake.outbox = s.outbox := rfl
@[simp] theorem wake_freeCtr : s.wake.freeCtr = s.freeCtr := rfl
@[simp] theorem wake_hart_phase : s.wake.hart.phase = .active := rfl
@[simp] theorem wake_hart_waiting : s.wake.hart.waiting = none := rfl
@[simp] theorem wake_hart_place : s.wake.hart.place = s.hart.place := rfl
@[simp] theorem wake_hart_priv : s.wake.hart.priv = s.hart.priv := rfl
@[simp] theorem wake_hart_pc : s.wake.hart.pc = s.hart.pc := rfl
@[simp] theorem wake_hart_x : s.wake.hart.x = s.hart.x := rfl
@[simp] theorem wake_hart_c : s.wake.hart.c = s.hart.c := rfl
@[simp] theorem wake_hart_v : s.wake.hart.v = s.hart.v := rfl
@[simp] theorem wake_hart_m : s.wake.hart.m = s.hart.m := rfl
@[simp] theorem wake_hart_q : s.wake.hart.q = s.hart.q := rfl
@[simp] theorem wake_hart_e : s.wake.hart.e = s.hart.e := rfl
@[simp] theorem wake_hart_tile : s.wake.hart.tile = s.hart.tile := rfl
@[simp] theorem wake_hart_ge : s.wake.hart.ge = s.hart.ge := rfl
@[simp] theorem wake_hart_vl : s.wake.hart.vl = s.hart.vl := rfl
@[simp] theorem wake_hart_vsi : s.wake.hart.vsi = s.hart.vsi := rfl
@[simp] theorem wake_hart_vcfg : s.wake.hart.vcfg = s.hart.vcfg := rfl
@[simp] theorem wake_hart_rows : s.wake.hart.rows = s.hart.rows := rfl
@[simp] theorem wake_hart_pitch : s.wake.hart.pitch = s.hart.pitch := rfl
@[simp] theorem wake_hart_fcsr : s.wake.hart.fcsr = s.hart.fcsr := rfl
@[simp] theorem wake_hart_qpos : s.wake.hart.qpos = s.hart.qpos := rfl
@[simp] theorem wake_hart_mbudget : s.wake.hart.mbudget = s.hart.mbudget := rfl
@[simp] theorem wake_hart_ch : s.wake.hart.ch = s.hart.ch := rfl
@[simp] theorem wake_hart_batch : s.wake.hart.batch = s.hart.batch := rfl
@[simp] theorem wake_hart_streams : s.wake.hart.streams = s.hart.streams := rfl
@[simp] theorem wake_hart_farmid : s.wake.hart.farmid = s.hart.farmid := rfl
@[simp] theorem wake_hart_fbase : s.wake.hart.fbase = s.hart.fbase := rfl
@[simp] theorem wake_hart_ffault : s.wake.hart.ffault = s.hart.ffault := rfl
@[simp] theorem wake_hart_noStrips : s.wake.hart.noStrips = s.hart.noStrips := rfl
@[simp] theorem wake_hart_discarded : s.wake.hart.discarded = s.hart.discarded := rfl
@[simp] theorem wake_hart_disc : s.wake.hart.disc = s.hart.disc := rfl
@[simp] theorem wake_hart_strip : s.wake.hart.strip = s.hart.strip := rfl
@[simp] theorem wake_hart_cycle : s.wake.hart.cycle = s.hart.cycle := rfl
@[simp] theorem wake_hart_instret : s.wake.hart.instret = s.hart.instret := rfl
@[simp] theorem wake_hart_pend20 : s.wake.hart.pend20 = s.hart.pend20 := rfl
@[simp] theorem wake_hart_pend21 : s.wake.hart.pend21 = s.hart.pend21 := rfl
@[simp] theorem wake_hart_pend22 : s.wake.hart.pend22 = s.hart.pend22 := rfl
@[simp] theorem wake_hart_switchPending : s.wake.hart.switchPending = s.hart.switchPending := rfl
@[simp] theorem wake_hart_reclaim : s.wake.hart.reclaim = s.hart.reclaim := rfl
@[simp] theorem wake_hart_lostBytes : s.wake.hart.lostBytes = s.hart.lostBytes := rfl
@[simp] theorem wake_hart_iword : s.wake.hart.iword = s.hart.iword := rfl
@[simp] theorem wake_hart_ipair : s.wake.hart.ipair = s.hart.ipair := rfl
@[simp] theorem wake_hart_limit : s.wake.hart.limit = s.hart.limit := rfl
@[simp] theorem setChan_parked (k : ChNum) (c : Channel) : (s.setChan k c).parked = s.parked := rfl
@[simp] theorem setChan_mem (k : ChNum) (c : Channel) : (s.setChan k c).mem = s.mem := rfl
@[simp] theorem setChan_spad (k : ChNum) (c : Channel) : (s.setChan k c).spad = s.spad := rfl
@[simp] theorem setChan_rcache (k : ChNum) (c : Channel) : (s.setChan k c).rcache = s.rcache := rfl
@[simp] theorem setChan_poison (k : ChNum) (c : Channel) : (s.setChan k c).poison = s.poison := rfl
@[simp] theorem setChan_spadPoison (k : ChNum) (c : Channel) : (s.setChan k c).spadPoison = s.spadPoison := rfl
@[simp] theorem setChan_tlb (k : ChNum) (c : Channel) : (s.setChan k c).tlb = s.tlb := rfl
@[simp] theorem setChan_refused (k : ChNum) (c : Channel) : (s.setChan k c).refused = s.refused := rfl
@[simp] theorem setChan_barriers (k : ChNum) (c : Channel) : (s.setChan k c).barriers = s.barriers := rfl
@[simp] theorem setChan_zones (k : ChNum) (c : Channel) : (s.setChan k c).zones = s.zones := rfl
@[simp] theorem setChan_fills (k : ChNum) (c : Channel) : (s.setChan k c).fills = s.fills := rfl
@[simp] theorem setChan_parts (k : ChNum) (c : Channel) : (s.setChan k c).parts = s.parts := rfl
@[simp] theorem setChan_scheds (k : ChNum) (c : Channel) : (s.setChan k c).scheds = s.scheds := rfl
@[simp] theorem setChan_queues (k : ChNum) (c : Channel) : (s.setChan k c).queues = s.queues := rfl
@[simp] theorem setChan_launches (k : ChNum) (c : Channel) : (s.setChan k c).launches = s.launches := rfl
@[simp] theorem setChan_welt (k : ChNum) (c : Channel) : (s.setChan k c).welt = s.welt := rfl
@[simp] theorem setChan_ports (k : ChNum) (c : Channel) : (s.setChan k c).ports = s.ports := rfl
@[simp] theorem setChan_service (k : ChNum) (c : Channel) : (s.setChan k c).service = s.service := rfl
@[simp] theorem setChan_logs (k : ChNum) (c : Channel) : (s.setChan k c).logs = s.logs := rfl
@[simp] theorem setChan_retClusters (k : ChNum) (c : Channel) : (s.setChan k c).retClusters = s.retClusters := rfl
@[simp] theorem setChan_retCores (k : ChNum) (c : Channel) : (s.setChan k c).retCores = s.retCores := rfl
@[simp] theorem setChan_retRows (k : ChNum) (c : Channel) : (s.setChan k c).retRows = s.retRows := rfl
@[simp] theorem setChan_retRowsPend (k : ChNum) (c : Channel) : (s.setChan k c).retRowsPend = s.retRowsPend := rfl
@[simp] theorem setChan_retiring (k : ChNum) (c : Channel) : (s.setChan k c).retiring = s.retiring := rfl
@[simp] theorem setChan_repairing (k : ChNum) (c : Channel) : (s.setChan k c).repairing = s.repairing := rfl
@[simp] theorem setChan_lost (k : ChNum) (c : Channel) : (s.setChan k c).lost = s.lost := rfl
@[simp] theorem setChan_lostGood (k : ChNum) (c : Channel) : (s.setChan k c).lostGood = s.lostGood := rfl
@[simp] theorem setChan_torn (k : ChNum) (c : Channel) : (s.setChan k c).torn = s.torn := rfl
@[simp] theorem setChan_fulls (k : ChNum) (c : Channel) : (s.setChan k c).fulls = s.fulls := rfl
@[simp] theorem setChan_power (k : ChNum) (c : Channel) : (s.setChan k c).power = s.power := rfl
@[simp] theorem setChan_accepted (k : ChNum) (c : Channel) : (s.setChan k c).accepted = s.accepted := rfl
@[simp] theorem setChan_silent (k : ChNum) (c : Channel) : (s.setChan k c).silent = s.silent := rfl
@[simp] theorem setChan_device (k : ChNum) (c : Channel) : (s.setChan k c).device = s.device := rfl
@[simp] theorem setChan_domain (k : ChNum) (c : Channel) : (s.setChan k c).domain = s.domain := rfl
@[simp] theorem setChan_time (k : ChNum) (c : Channel) : (s.setChan k c).time = s.time := rfl
@[simp] theorem setChan_nextLaunch (k : ChNum) (c : Channel) : (s.setChan k c).nextLaunch = s.nextLaunch := rfl
@[simp] theorem setChan_nextHart (k : ChNum) (c : Channel) : (s.setChan k c).nextHart = s.nextHart := rfl
@[simp] theorem setChan_nextOrder (k : ChNum) (c : Channel) : (s.setChan k c).nextOrder = s.nextOrder := rfl
@[simp] theorem setChan_agenda (k : ChNum) (c : Channel) : (s.setChan k c).agenda = s.agenda := rfl
@[simp] theorem setChan_chances (k : ChNum) (c : Channel) : (s.setChan k c).chances = s.chances := rfl
@[simp] theorem setChan_outbox (k : ChNum) (c : Channel) : (s.setChan k c).outbox = s.outbox := rfl
@[simp] theorem setChan_freeCtr (k : ChNum) (c : Channel) : (s.setChan k c).freeCtr = s.freeCtr := rfl
@[simp] theorem setChan_hart_phase (k : ChNum) (c : Channel) : (s.setChan k c).hart.phase = s.hart.phase := rfl
@[simp] theorem setChan_hart_waiting (k : ChNum) (c : Channel) : (s.setChan k c).hart.waiting = s.hart.waiting := rfl
@[simp] theorem setChan_hart_place (k : ChNum) (c : Channel) : (s.setChan k c).hart.place = s.hart.place := rfl
@[simp] theorem setChan_hart_priv (k : ChNum) (c : Channel) : (s.setChan k c).hart.priv = s.hart.priv := rfl
@[simp] theorem setChan_hart_pc (k : ChNum) (c : Channel) : (s.setChan k c).hart.pc = s.hart.pc := rfl
@[simp] theorem setChan_hart_x (k : ChNum) (c : Channel) : (s.setChan k c).hart.x = s.hart.x := rfl
@[simp] theorem setChan_hart_c (k : ChNum) (c : Channel) : (s.setChan k c).hart.c = s.hart.c := rfl
@[simp] theorem setChan_hart_v (k : ChNum) (c : Channel) : (s.setChan k c).hart.v = s.hart.v := rfl
@[simp] theorem setChan_hart_m (k : ChNum) (c : Channel) : (s.setChan k c).hart.m = s.hart.m := rfl
@[simp] theorem setChan_hart_q (k : ChNum) (c : Channel) : (s.setChan k c).hart.q = s.hart.q := rfl
@[simp] theorem setChan_hart_e (k : ChNum) (c : Channel) : (s.setChan k c).hart.e = s.hart.e := rfl
@[simp] theorem setChan_hart_tile (k : ChNum) (c : Channel) : (s.setChan k c).hart.tile = s.hart.tile := rfl
@[simp] theorem setChan_hart_ge (k : ChNum) (c : Channel) : (s.setChan k c).hart.ge = s.hart.ge := rfl
@[simp] theorem setChan_hart_vl (k : ChNum) (c : Channel) : (s.setChan k c).hart.vl = s.hart.vl := rfl
@[simp] theorem setChan_hart_vsi (k : ChNum) (c : Channel) : (s.setChan k c).hart.vsi = s.hart.vsi := rfl
@[simp] theorem setChan_hart_vcfg (k : ChNum) (c : Channel) : (s.setChan k c).hart.vcfg = s.hart.vcfg := rfl
@[simp] theorem setChan_hart_rows (k : ChNum) (c : Channel) : (s.setChan k c).hart.rows = s.hart.rows := rfl
@[simp] theorem setChan_hart_pitch (k : ChNum) (c : Channel) : (s.setChan k c).hart.pitch = s.hart.pitch := rfl
@[simp] theorem setChan_hart_fcsr (k : ChNum) (c : Channel) : (s.setChan k c).hart.fcsr = s.hart.fcsr := rfl
@[simp] theorem setChan_hart_qpos (k : ChNum) (c : Channel) : (s.setChan k c).hart.qpos = s.hart.qpos := rfl
@[simp] theorem setChan_hart_mbudget (k : ChNum) (c : Channel) : (s.setChan k c).hart.mbudget = s.hart.mbudget := rfl
@[simp] theorem setChan_hart_ch (k : ChNum) (c : Channel) : (s.setChan k c).hart.ch = s.hart.ch.set k.val c := rfl
@[simp] theorem setChan_hart_batch (k : ChNum) (c : Channel) : (s.setChan k c).hart.batch = s.hart.batch := rfl
@[simp] theorem setChan_hart_streams (k : ChNum) (c : Channel) : (s.setChan k c).hart.streams = s.hart.streams := rfl
@[simp] theorem setChan_hart_farmid (k : ChNum) (c : Channel) : (s.setChan k c).hart.farmid = s.hart.farmid := rfl
@[simp] theorem setChan_hart_fbase (k : ChNum) (c : Channel) : (s.setChan k c).hart.fbase = s.hart.fbase := rfl
@[simp] theorem setChan_hart_ffault (k : ChNum) (c : Channel) : (s.setChan k c).hart.ffault = s.hart.ffault := rfl
@[simp] theorem setChan_hart_noStrips (k : ChNum) (c : Channel) : (s.setChan k c).hart.noStrips = s.hart.noStrips := rfl
@[simp] theorem setChan_hart_discarded (k : ChNum) (c : Channel) : (s.setChan k c).hart.discarded = s.hart.discarded := rfl
@[simp] theorem setChan_hart_disc (k : ChNum) (c : Channel) : (s.setChan k c).hart.disc = s.hart.disc := rfl
@[simp] theorem setChan_hart_strip (k : ChNum) (c : Channel) : (s.setChan k c).hart.strip = s.hart.strip := rfl
@[simp] theorem setChan_hart_cycle (k : ChNum) (c : Channel) : (s.setChan k c).hart.cycle = s.hart.cycle := rfl
@[simp] theorem setChan_hart_instret (k : ChNum) (c : Channel) : (s.setChan k c).hart.instret = s.hart.instret := rfl
@[simp] theorem setChan_hart_pend20 (k : ChNum) (c : Channel) : (s.setChan k c).hart.pend20 = s.hart.pend20 := rfl
@[simp] theorem setChan_hart_pend21 (k : ChNum) (c : Channel) : (s.setChan k c).hart.pend21 = s.hart.pend21 := rfl
@[simp] theorem setChan_hart_pend22 (k : ChNum) (c : Channel) : (s.setChan k c).hart.pend22 = s.hart.pend22 := rfl
@[simp] theorem setChan_hart_switchPending (k : ChNum) (c : Channel) : (s.setChan k c).hart.switchPending = s.hart.switchPending := rfl
@[simp] theorem setChan_hart_reclaim (k : ChNum) (c : Channel) : (s.setChan k c).hart.reclaim = s.hart.reclaim := rfl
@[simp] theorem setChan_hart_lostBytes (k : ChNum) (c : Channel) : (s.setChan k c).hart.lostBytes = s.hart.lostBytes := rfl
@[simp] theorem setChan_hart_iword (k : ChNum) (c : Channel) : (s.setChan k c).hart.iword = s.hart.iword := rfl
@[simp] theorem setChan_hart_ipair (k : ChNum) (c : Channel) : (s.setChan k c).hart.ipair = s.hart.ipair := rfl
@[simp] theorem setChan_hart_limit (k : ChNum) (c : Channel) : (s.setChan k c).hart.limit = s.hart.limit := rfl
@[simp] theorem send_hart (m : Message) : (s.send m).hart = s.hart := rfl
@[simp] theorem send_parked (m : Message) : (s.send m).parked = s.parked := rfl
@[simp] theorem send_mem (m : Message) : (s.send m).mem = s.mem := rfl
@[simp] theorem send_spad (m : Message) : (s.send m).spad = s.spad := rfl
@[simp] theorem send_rcache (m : Message) : (s.send m).rcache = s.rcache := rfl
@[simp] theorem send_poison (m : Message) : (s.send m).poison = s.poison := rfl
@[simp] theorem send_spadPoison (m : Message) : (s.send m).spadPoison = s.spadPoison := rfl
@[simp] theorem send_tlb (m : Message) : (s.send m).tlb = s.tlb := rfl
@[simp] theorem send_refused (m : Message) : (s.send m).refused = s.refused := rfl
@[simp] theorem send_barriers (m : Message) : (s.send m).barriers = s.barriers := rfl
@[simp] theorem send_zones (m : Message) : (s.send m).zones = s.zones := rfl
@[simp] theorem send_fills (m : Message) : (s.send m).fills = s.fills := rfl
@[simp] theorem send_parts (m : Message) : (s.send m).parts = s.parts := rfl
@[simp] theorem send_scheds (m : Message) : (s.send m).scheds = s.scheds := rfl
@[simp] theorem send_queues (m : Message) : (s.send m).queues = s.queues := rfl
@[simp] theorem send_launches (m : Message) : (s.send m).launches = s.launches := rfl
@[simp] theorem send_welt (m : Message) : (s.send m).welt = s.welt := rfl
@[simp] theorem send_ports (m : Message) : (s.send m).ports = s.ports := rfl
@[simp] theorem send_service (m : Message) : (s.send m).service = s.service := rfl
@[simp] theorem send_logs (m : Message) : (s.send m).logs = s.logs := rfl
@[simp] theorem send_retClusters (m : Message) : (s.send m).retClusters = s.retClusters := rfl
@[simp] theorem send_retCores (m : Message) : (s.send m).retCores = s.retCores := rfl
@[simp] theorem send_retRows (m : Message) : (s.send m).retRows = s.retRows := rfl
@[simp] theorem send_retRowsPend (m : Message) : (s.send m).retRowsPend = s.retRowsPend := rfl
@[simp] theorem send_retiring (m : Message) : (s.send m).retiring = s.retiring := rfl
@[simp] theorem send_repairing (m : Message) : (s.send m).repairing = s.repairing := rfl
@[simp] theorem send_lost (m : Message) : (s.send m).lost = s.lost := rfl
@[simp] theorem send_lostGood (m : Message) : (s.send m).lostGood = s.lostGood := rfl
@[simp] theorem send_torn (m : Message) : (s.send m).torn = s.torn := rfl
@[simp] theorem send_fulls (m : Message) : (s.send m).fulls = s.fulls := rfl
@[simp] theorem send_power (m : Message) : (s.send m).power = s.power := rfl
@[simp] theorem send_accepted (m : Message) : (s.send m).accepted = s.accepted := rfl
@[simp] theorem send_silent (m : Message) : (s.send m).silent = s.silent := rfl
@[simp] theorem send_device (m : Message) : (s.send m).device = s.device := rfl
@[simp] theorem send_domain (m : Message) : (s.send m).domain = s.domain := rfl
@[simp] theorem send_time (m : Message) : (s.send m).time = s.time := rfl
@[simp] theorem send_nextLaunch (m : Message) : (s.send m).nextLaunch = s.nextLaunch := rfl
@[simp] theorem send_nextHart (m : Message) : (s.send m).nextHart = s.nextHart := rfl
@[simp] theorem send_nextOrder (m : Message) : (s.send m).nextOrder = s.nextOrder := rfl
@[simp] theorem send_agenda (m : Message) : (s.send m).agenda = s.agenda := rfl
@[simp] theorem send_chances (m : Message) : (s.send m).chances = s.chances := rfl
@[simp] theorem send_outbox (m : Message) : (s.send m).outbox = s.outbox ++ [m] := rfl
@[simp] theorem send_freeCtr (m : Message) : (s.send m).freeCtr = s.freeCtr := rfl
@[simp] theorem setPart_hart (p : Fin 8) (k : Partition) : (s.setPart p k).hart = s.hart := rfl
@[simp] theorem setPart_parked (p : Fin 8) (k : Partition) : (s.setPart p k).parked = s.parked := rfl
@[simp] theorem setPart_mem (p : Fin 8) (k : Partition) : (s.setPart p k).mem = s.mem := rfl
@[simp] theorem setPart_spad (p : Fin 8) (k : Partition) : (s.setPart p k).spad = s.spad := rfl
@[simp] theorem setPart_rcache (p : Fin 8) (k : Partition) : (s.setPart p k).rcache = s.rcache := rfl
@[simp] theorem setPart_poison (p : Fin 8) (k : Partition) : (s.setPart p k).poison = s.poison := rfl
@[simp] theorem setPart_spadPoison (p : Fin 8) (k : Partition) : (s.setPart p k).spadPoison = s.spadPoison := rfl
@[simp] theorem setPart_tlb (p : Fin 8) (k : Partition) : (s.setPart p k).tlb = s.tlb := rfl
@[simp] theorem setPart_refused (p : Fin 8) (k : Partition) : (s.setPart p k).refused = s.refused := rfl
@[simp] theorem setPart_barriers (p : Fin 8) (k : Partition) : (s.setPart p k).barriers = s.barriers := rfl
@[simp] theorem setPart_zones (p : Fin 8) (k : Partition) : (s.setPart p k).zones = s.zones := rfl
@[simp] theorem setPart_fills (p : Fin 8) (k : Partition) : (s.setPart p k).fills = s.fills := rfl
@[simp] theorem setPart_parts (p : Fin 8) (k : Partition) : (s.setPart p k).parts = s.parts.set p.val k := rfl
@[simp] theorem setPart_scheds (p : Fin 8) (k : Partition) : (s.setPart p k).scheds = s.scheds := rfl
@[simp] theorem setPart_queues (p : Fin 8) (k : Partition) : (s.setPart p k).queues = s.queues := rfl
@[simp] theorem setPart_launches (p : Fin 8) (k : Partition) : (s.setPart p k).launches = s.launches := rfl
@[simp] theorem setPart_welt (p : Fin 8) (k : Partition) : (s.setPart p k).welt = s.welt := rfl
@[simp] theorem setPart_ports (p : Fin 8) (k : Partition) : (s.setPart p k).ports = s.ports := rfl
@[simp] theorem setPart_service (p : Fin 8) (k : Partition) : (s.setPart p k).service = s.service := rfl
@[simp] theorem setPart_logs (p : Fin 8) (k : Partition) : (s.setPart p k).logs = s.logs := rfl
@[simp] theorem setPart_retClusters (p : Fin 8) (k : Partition) : (s.setPart p k).retClusters = s.retClusters := rfl
@[simp] theorem setPart_retCores (p : Fin 8) (k : Partition) : (s.setPart p k).retCores = s.retCores := rfl
@[simp] theorem setPart_retRows (p : Fin 8) (k : Partition) : (s.setPart p k).retRows = s.retRows := rfl
@[simp] theorem setPart_retRowsPend (p : Fin 8) (k : Partition) : (s.setPart p k).retRowsPend = s.retRowsPend := rfl
@[simp] theorem setPart_retiring (p : Fin 8) (k : Partition) : (s.setPart p k).retiring = s.retiring := rfl
@[simp] theorem setPart_repairing (p : Fin 8) (k : Partition) : (s.setPart p k).repairing = s.repairing := rfl
@[simp] theorem setPart_lost (p : Fin 8) (k : Partition) : (s.setPart p k).lost = s.lost := rfl
@[simp] theorem setPart_lostGood (p : Fin 8) (k : Partition) : (s.setPart p k).lostGood = s.lostGood := rfl
@[simp] theorem setPart_torn (p : Fin 8) (k : Partition) : (s.setPart p k).torn = s.torn := rfl
@[simp] theorem setPart_fulls (p : Fin 8) (k : Partition) : (s.setPart p k).fulls = s.fulls := rfl
@[simp] theorem setPart_power (p : Fin 8) (k : Partition) : (s.setPart p k).power = s.power := rfl
@[simp] theorem setPart_accepted (p : Fin 8) (k : Partition) : (s.setPart p k).accepted = s.accepted := rfl
@[simp] theorem setPart_silent (p : Fin 8) (k : Partition) : (s.setPart p k).silent = s.silent := rfl
@[simp] theorem setPart_device (p : Fin 8) (k : Partition) : (s.setPart p k).device = s.device := rfl
@[simp] theorem setPart_domain (p : Fin 8) (k : Partition) : (s.setPart p k).domain = s.domain := rfl
@[simp] theorem setPart_time (p : Fin 8) (k : Partition) : (s.setPart p k).time = s.time := rfl
@[simp] theorem setPart_nextLaunch (p : Fin 8) (k : Partition) : (s.setPart p k).nextLaunch = s.nextLaunch := rfl
@[simp] theorem setPart_nextHart (p : Fin 8) (k : Partition) : (s.setPart p k).nextHart = s.nextHart := rfl
@[simp] theorem setPart_nextOrder (p : Fin 8) (k : Partition) : (s.setPart p k).nextOrder = s.nextOrder := rfl
@[simp] theorem setPart_agenda (p : Fin 8) (k : Partition) : (s.setPart p k).agenda = s.agenda := rfl
@[simp] theorem setPart_chances (p : Fin 8) (k : Partition) : (s.setPart p k).chances = s.chances := rfl
@[simp] theorem setPart_outbox (p : Fin 8) (k : Partition) : (s.setPart p k).outbox = s.outbox := rfl
@[simp] theorem setPart_freeCtr (p : Fin 8) (k : Partition) : (s.setPart p k).freeCtr = s.freeCtr := rfl
@[simp] theorem putLaunch_hart (l : Launch) : (s.putLaunch l).hart = s.hart := rfl
@[simp] theorem putLaunch_parked (l : Launch) : (s.putLaunch l).parked = s.parked := rfl
@[simp] theorem putLaunch_mem (l : Launch) : (s.putLaunch l).mem = s.mem := rfl
@[simp] theorem putLaunch_spad (l : Launch) : (s.putLaunch l).spad = s.spad := rfl
@[simp] theorem putLaunch_rcache (l : Launch) : (s.putLaunch l).rcache = s.rcache := rfl
@[simp] theorem putLaunch_poison (l : Launch) : (s.putLaunch l).poison = s.poison := rfl
@[simp] theorem putLaunch_spadPoison (l : Launch) : (s.putLaunch l).spadPoison = s.spadPoison := rfl
@[simp] theorem putLaunch_tlb (l : Launch) : (s.putLaunch l).tlb = s.tlb := rfl
@[simp] theorem putLaunch_refused (l : Launch) : (s.putLaunch l).refused = s.refused := rfl
@[simp] theorem putLaunch_barriers (l : Launch) : (s.putLaunch l).barriers = s.barriers := rfl
@[simp] theorem putLaunch_zones (l : Launch) : (s.putLaunch l).zones = s.zones := rfl
@[simp] theorem putLaunch_fills (l : Launch) : (s.putLaunch l).fills = s.fills := rfl
@[simp] theorem putLaunch_parts (l : Launch) : (s.putLaunch l).parts = s.parts := rfl
@[simp] theorem putLaunch_scheds (l : Launch) : (s.putLaunch l).scheds = s.scheds := rfl
@[simp] theorem putLaunch_queues (l : Launch) : (s.putLaunch l).queues = s.queues := rfl
@[simp] theorem putLaunch_launches (l : Launch) : (s.putLaunch l).launches = s.launches.map fun k => if k.id = l.id then l else k := rfl
@[simp] theorem putLaunch_welt (l : Launch) : (s.putLaunch l).welt = s.welt := rfl
@[simp] theorem putLaunch_ports (l : Launch) : (s.putLaunch l).ports = s.ports := rfl
@[simp] theorem putLaunch_service (l : Launch) : (s.putLaunch l).service = s.service := rfl
@[simp] theorem putLaunch_logs (l : Launch) : (s.putLaunch l).logs = s.logs := rfl
@[simp] theorem putLaunch_retClusters (l : Launch) : (s.putLaunch l).retClusters = s.retClusters := rfl
@[simp] theorem putLaunch_retCores (l : Launch) : (s.putLaunch l).retCores = s.retCores := rfl
@[simp] theorem putLaunch_retRows (l : Launch) : (s.putLaunch l).retRows = s.retRows := rfl
@[simp] theorem putLaunch_retRowsPend (l : Launch) : (s.putLaunch l).retRowsPend = s.retRowsPend := rfl
@[simp] theorem putLaunch_retiring (l : Launch) : (s.putLaunch l).retiring = s.retiring := rfl
@[simp] theorem putLaunch_repairing (l : Launch) : (s.putLaunch l).repairing = s.repairing := rfl
@[simp] theorem putLaunch_lost (l : Launch) : (s.putLaunch l).lost = s.lost := rfl
@[simp] theorem putLaunch_lostGood (l : Launch) : (s.putLaunch l).lostGood = s.lostGood := rfl
@[simp] theorem putLaunch_torn (l : Launch) : (s.putLaunch l).torn = s.torn := rfl
@[simp] theorem putLaunch_fulls (l : Launch) : (s.putLaunch l).fulls = s.fulls := rfl
@[simp] theorem putLaunch_power (l : Launch) : (s.putLaunch l).power = s.power := rfl
@[simp] theorem putLaunch_accepted (l : Launch) : (s.putLaunch l).accepted = s.accepted := rfl
@[simp] theorem putLaunch_silent (l : Launch) : (s.putLaunch l).silent = s.silent := rfl
@[simp] theorem putLaunch_device (l : Launch) : (s.putLaunch l).device = s.device := rfl
@[simp] theorem putLaunch_domain (l : Launch) : (s.putLaunch l).domain = s.domain := rfl
@[simp] theorem putLaunch_time (l : Launch) : (s.putLaunch l).time = s.time := rfl
@[simp] theorem putLaunch_nextLaunch (l : Launch) : (s.putLaunch l).nextLaunch = s.nextLaunch := rfl
@[simp] theorem putLaunch_nextHart (l : Launch) : (s.putLaunch l).nextHart = s.nextHart := rfl
@[simp] theorem putLaunch_nextOrder (l : Launch) : (s.putLaunch l).nextOrder = s.nextOrder := rfl
@[simp] theorem putLaunch_agenda (l : Launch) : (s.putLaunch l).agenda = s.agenda := rfl
@[simp] theorem putLaunch_chances (l : Launch) : (s.putLaunch l).chances = s.chances := rfl
@[simp] theorem putLaunch_outbox (l : Launch) : (s.putLaunch l).outbox = s.outbox := rfl
@[simp] theorem putLaunch_freeCtr (l : Launch) : (s.putLaunch l).freeCtr = s.freeCtr := rfl
@[simp] theorem setQueue_hart (q : Nat) (v : Queue) : (s.setQueue q v).hart = s.hart := rfl
@[simp] theorem setQueue_parked (q : Nat) (v : Queue) : (s.setQueue q v).parked = s.parked := rfl
@[simp] theorem setQueue_mem (q : Nat) (v : Queue) : (s.setQueue q v).mem = s.mem := rfl
@[simp] theorem setQueue_spad (q : Nat) (v : Queue) : (s.setQueue q v).spad = s.spad := rfl
@[simp] theorem setQueue_rcache (q : Nat) (v : Queue) : (s.setQueue q v).rcache = s.rcache := rfl
@[simp] theorem setQueue_poison (q : Nat) (v : Queue) : (s.setQueue q v).poison = s.poison := rfl
@[simp] theorem setQueue_spadPoison (q : Nat) (v : Queue) : (s.setQueue q v).spadPoison = s.spadPoison := rfl
@[simp] theorem setQueue_tlb (q : Nat) (v : Queue) : (s.setQueue q v).tlb = s.tlb := rfl
@[simp] theorem setQueue_refused (q : Nat) (v : Queue) : (s.setQueue q v).refused = s.refused := rfl
@[simp] theorem setQueue_barriers (q : Nat) (v : Queue) : (s.setQueue q v).barriers = s.barriers := rfl
@[simp] theorem setQueue_zones (q : Nat) (v : Queue) : (s.setQueue q v).zones = s.zones := rfl
@[simp] theorem setQueue_fills (q : Nat) (v : Queue) : (s.setQueue q v).fills = s.fills := rfl
@[simp] theorem setQueue_parts (q : Nat) (v : Queue) : (s.setQueue q v).parts = s.parts := rfl
@[simp] theorem setQueue_scheds (q : Nat) (v : Queue) : (s.setQueue q v).scheds = s.scheds := rfl
@[simp] theorem setQueue_queues (q : Nat) (v : Queue) : (s.setQueue q v).queues = (s.queues.filter fun e => decide (e.1 < q)) ++ (q, v) :: (s.queues.filter fun e => decide (q < e.1)) := rfl
@[simp] theorem setQueue_launches (q : Nat) (v : Queue) : (s.setQueue q v).launches = s.launches := rfl
@[simp] theorem setQueue_welt (q : Nat) (v : Queue) : (s.setQueue q v).welt = s.welt := rfl
@[simp] theorem setQueue_ports (q : Nat) (v : Queue) : (s.setQueue q v).ports = s.ports := rfl
@[simp] theorem setQueue_service (q : Nat) (v : Queue) : (s.setQueue q v).service = s.service := rfl
@[simp] theorem setQueue_logs (q : Nat) (v : Queue) : (s.setQueue q v).logs = s.logs := rfl
@[simp] theorem setQueue_retClusters (q : Nat) (v : Queue) : (s.setQueue q v).retClusters = s.retClusters := rfl
@[simp] theorem setQueue_retCores (q : Nat) (v : Queue) : (s.setQueue q v).retCores = s.retCores := rfl
@[simp] theorem setQueue_retRows (q : Nat) (v : Queue) : (s.setQueue q v).retRows = s.retRows := rfl
@[simp] theorem setQueue_retRowsPend (q : Nat) (v : Queue) : (s.setQueue q v).retRowsPend = s.retRowsPend := rfl
@[simp] theorem setQueue_retiring (q : Nat) (v : Queue) : (s.setQueue q v).retiring = s.retiring := rfl
@[simp] theorem setQueue_repairing (q : Nat) (v : Queue) : (s.setQueue q v).repairing = s.repairing := rfl
@[simp] theorem setQueue_lost (q : Nat) (v : Queue) : (s.setQueue q v).lost = s.lost := rfl
@[simp] theorem setQueue_lostGood (q : Nat) (v : Queue) : (s.setQueue q v).lostGood = s.lostGood := rfl
@[simp] theorem setQueue_torn (q : Nat) (v : Queue) : (s.setQueue q v).torn = s.torn := rfl
@[simp] theorem setQueue_fulls (q : Nat) (v : Queue) : (s.setQueue q v).fulls = s.fulls := rfl
@[simp] theorem setQueue_power (q : Nat) (v : Queue) : (s.setQueue q v).power = s.power := rfl
@[simp] theorem setQueue_accepted (q : Nat) (v : Queue) : (s.setQueue q v).accepted = s.accepted := rfl
@[simp] theorem setQueue_silent (q : Nat) (v : Queue) : (s.setQueue q v).silent = s.silent := rfl
@[simp] theorem setQueue_device (q : Nat) (v : Queue) : (s.setQueue q v).device = s.device := rfl
@[simp] theorem setQueue_domain (q : Nat) (v : Queue) : (s.setQueue q v).domain = s.domain := rfl
@[simp] theorem setQueue_time (q : Nat) (v : Queue) : (s.setQueue q v).time = s.time := rfl
@[simp] theorem setQueue_nextLaunch (q : Nat) (v : Queue) : (s.setQueue q v).nextLaunch = s.nextLaunch := rfl
@[simp] theorem setQueue_nextHart (q : Nat) (v : Queue) : (s.setQueue q v).nextHart = s.nextHart := rfl
@[simp] theorem setQueue_nextOrder (q : Nat) (v : Queue) : (s.setQueue q v).nextOrder = s.nextOrder := rfl
@[simp] theorem setQueue_agenda (q : Nat) (v : Queue) : (s.setQueue q v).agenda = s.agenda := rfl
@[simp] theorem setQueue_chances (q : Nat) (v : Queue) : (s.setQueue q v).chances = s.chances := rfl
@[simp] theorem setQueue_outbox (q : Nat) (v : Queue) : (s.setQueue q v).outbox = s.outbox := rfl
@[simp] theorem setQueue_freeCtr (q : Nat) (v : Queue) : (s.setQueue q v).freeCtr = s.freeCtr := rfl
@[simp] theorem setService_hart (f : Service → Service) : (s.setService f).hart = s.hart := rfl
@[simp] theorem setService_parked (f : Service → Service) : (s.setService f).parked = s.parked := rfl
@[simp] theorem setService_mem (f : Service → Service) : (s.setService f).mem = s.mem := rfl
@[simp] theorem setService_spad (f : Service → Service) : (s.setService f).spad = s.spad := rfl
@[simp] theorem setService_rcache (f : Service → Service) : (s.setService f).rcache = s.rcache := rfl
@[simp] theorem setService_poison (f : Service → Service) : (s.setService f).poison = s.poison := rfl
@[simp] theorem setService_spadPoison (f : Service → Service) : (s.setService f).spadPoison = s.spadPoison := rfl
@[simp] theorem setService_tlb (f : Service → Service) : (s.setService f).tlb = s.tlb := rfl
@[simp] theorem setService_refused (f : Service → Service) : (s.setService f).refused = s.refused := rfl
@[simp] theorem setService_barriers (f : Service → Service) : (s.setService f).barriers = s.barriers := rfl
@[simp] theorem setService_zones (f : Service → Service) : (s.setService f).zones = s.zones := rfl
@[simp] theorem setService_fills (f : Service → Service) : (s.setService f).fills = s.fills := rfl
@[simp] theorem setService_parts (f : Service → Service) : (s.setService f).parts = s.parts := rfl
@[simp] theorem setService_scheds (f : Service → Service) : (s.setService f).scheds = s.scheds := rfl
@[simp] theorem setService_queues (f : Service → Service) : (s.setService f).queues = s.queues := rfl
@[simp] theorem setService_launches (f : Service → Service) : (s.setService f).launches = s.launches := rfl
@[simp] theorem setService_welt (f : Service → Service) : (s.setService f).welt = s.welt := rfl
@[simp] theorem setService_ports (f : Service → Service) : (s.setService f).ports = s.ports := rfl
@[simp] theorem setService_service (f : Service → Service) : (s.setService f).service = f s.service := rfl
@[simp] theorem setService_logs (f : Service → Service) : (s.setService f).logs = s.logs := rfl
@[simp] theorem setService_retClusters (f : Service → Service) : (s.setService f).retClusters = s.retClusters := rfl
@[simp] theorem setService_retCores (f : Service → Service) : (s.setService f).retCores = s.retCores := rfl
@[simp] theorem setService_retRows (f : Service → Service) : (s.setService f).retRows = s.retRows := rfl
@[simp] theorem setService_retRowsPend (f : Service → Service) : (s.setService f).retRowsPend = s.retRowsPend := rfl
@[simp] theorem setService_retiring (f : Service → Service) : (s.setService f).retiring = s.retiring := rfl
@[simp] theorem setService_repairing (f : Service → Service) : (s.setService f).repairing = s.repairing := rfl
@[simp] theorem setService_lost (f : Service → Service) : (s.setService f).lost = s.lost := rfl
@[simp] theorem setService_lostGood (f : Service → Service) : (s.setService f).lostGood = s.lostGood := rfl
@[simp] theorem setService_torn (f : Service → Service) : (s.setService f).torn = s.torn := rfl
@[simp] theorem setService_fulls (f : Service → Service) : (s.setService f).fulls = s.fulls := rfl
@[simp] theorem setService_power (f : Service → Service) : (s.setService f).power = s.power := rfl
@[simp] theorem setService_accepted (f : Service → Service) : (s.setService f).accepted = s.accepted := rfl
@[simp] theorem setService_silent (f : Service → Service) : (s.setService f).silent = s.silent := rfl
@[simp] theorem setService_device (f : Service → Service) : (s.setService f).device = s.device := rfl
@[simp] theorem setService_domain (f : Service → Service) : (s.setService f).domain = s.domain := rfl
@[simp] theorem setService_time (f : Service → Service) : (s.setService f).time = s.time := rfl
@[simp] theorem setService_nextLaunch (f : Service → Service) : (s.setService f).nextLaunch = s.nextLaunch := rfl
@[simp] theorem setService_nextHart (f : Service → Service) : (s.setService f).nextHart = s.nextHart := rfl
@[simp] theorem setService_nextOrder (f : Service → Service) : (s.setService f).nextOrder = s.nextOrder := rfl
@[simp] theorem setService_agenda (f : Service → Service) : (s.setService f).agenda = s.agenda := rfl
@[simp] theorem setService_chances (f : Service → Service) : (s.setService f).chances = s.chances := rfl
@[simp] theorem setService_outbox (f : Service → Service) : (s.setService f).outbox = s.outbox := rfl
@[simp] theorem setService_freeCtr (f : Service → Service) : (s.setService f).freeCtr = s.freeCtr := rfl

end Sys2Proof.Laws
end

