-- ==== Sys2Proof/Tests/Slice0.lean ====
section
/-! SUPPORT. Tests: ill-formed terms, words of every row, single steps, and for every statement with hypotheses a
state and operands that meet them. Expected words and values are written out from the spec. -/

namespace Sys2Proof.Tests

set_option Elab.async false

open Sys2Proof Sys2Proof.Machine

/-! ### Small states -/

/-- A hart at user level on core 2 with scratchpad piece 3, x5 at its window, x6 at an unaligned window address,
x7 behind the window, x8 and x9 small numbers, x10 at a mapped page, x11 at an unmapped one. -/
def testHart : Hart :=
  { phase := .active, pc := 0x100000000
    place := { hid := 1, launch := 1, core := 2, pieces := [3] }
    x := Vector.ofFn fun k : Fin 32 =>
      if k.val = 5 then 0x7FF0000000000 else if k.val = 6 then 0x7FF0000000001 else if k.val = 7 then 0x7FF0000010000
      else if k.val = 8 then 8 else if k.val = 9 then 4096 else if k.val = 10 then 0x100000000
      else if k.val = 11 then 0x200000000 else 0
    priv := { level := .user, tvec := 0x300000000 } }

/-- Page tables at physical address 0: the page at 0x1_0000_0000 is physical 0x1_8000 with every permission. -/
def testMem : List Host.Cell :=
  [(0x0, 0x01), (0x1, 0x80), (0x8100, 0x01), (0x8102, 0x01), (0x10000, 0x7B), (0x10001, 0x80), (0x10002, 0x01)]

/-- The test machine: one hart, partition 0 enabled over the first 1 GiB. -/
def us : State :=
  { State.reset with
    hart := testHart, mem := testMem, nextLaunch := 2, nextHart := 2
    parts := State.reset.parts.set 0 { State.reset.parts[0] with en := true, size := 1 }
    service := { State.reset.service with ready := BitVec.allOnes 33 }, accepted := true }

/-- The test machine with its hart changed. -/
def withHart (f : Hart → Hart) : State := { us with hart := f us.hart }

/-- Its hart at kernel level, at monitor level, with an open strip. -/
def ks : State := withHart fun h => { h with priv := { h.priv with level := .kernel, epc := 0x100000004 } }
def ms : State := withHart fun h => { h with priv := { h.priv with level := .monitor, monpc := 0x100000004 } }
def ss : State := withHart fun h => { h with strip := some ⟨0x100000040, .user, [{ addr := 0x7FF0000000000, size := 3, rel := none, data := 5 }]⟩ }

theorem us_sound : Safety.Sound us := by
  refine ⟨?_, ?_, ?_, ?_⟩ <;> decide +kernel

/-- An answer that is not a refusal. -/
theorem okOf {ε α : Type} {r : Except ε α} {a : α} (h : r.toOption = some a) : r = .ok a := by
  cases r with
  | error e => cases h
  | ok b => cases h; rfl

/-- A machine with no uncorrectable data has none at a location. -/
theorem saneOf {s : State} {l : Loc} {n : Nat} (h1 : s.poison = []) (h2 : s.spadPoison = []) : Claim.sane s l n := by
  cases l <;> simp [Claim.sane, h1, h2, poisoned]

/-- Nor, with no line in a cache, in what a core reads there. -/
theorem readableOf {s : State} {l : Loc} {n : Nat} (h1 : s.poison = []) (h2 : s.spadPoison = []) (h3 : s.rcache = []) :
    Claim.readable s l n := by
  have hc : ∀ a, s.copyOf s.hart.place.core a = none := fun a => by simp [State.copyOf, State.lineOf, h3]
  cases l with
  | spad i => simp [Claim.readable, h2, poisoned]
  | phys a => simp only [Claim.readable, hc, h1]; split <;> simp_all [poisoned]

/-- An answer of which a property holds; one that is an error. -/
theorem okAnd {ε α : Type} {r : Except ε α} {P : α → Prop} [DecidablePred P] (h : r.toOption.any (fun a => decide (P a)) = true) :
    ∃ a, r = .ok a ∧ P a := by
  cases r with
  | error e => cases h
  | ok a => exact ⟨a, rfl, of_decide_eq_true h⟩
theorem errorOf {ε α : Type} {r : Except ε α} (h : r.toOption.isSome = false) : ∃ e, r = .error e := by
  cases r with
  | error e => exact ⟨e, rfl⟩
  | ok a => cases h

/-! ### Ill-formed terms -/

/-- Immediates that no leading word extends to (R118). -/
theorem test_wf_immediates : Instr.wf (.addi 5 6 (2 ^ 35)) = false ∧ Instr.wf (.andi 5 6 (-(2 ^ 35) - 1)) = false ∧
    Instr.wf (.ori 5 6 (2 ^ 35)) = false ∧ Instr.wf (.xori 5 6 (2 ^ 35)) = false ∧ Instr.wf (.lb 5 6 (2 ^ 35)) = false ∧
    Instr.wf (.lh 5 6 (2 ^ 35)) = false ∧ Instr.wf (.lw 5 6 (2 ^ 35)) = false ∧ Instr.wf (.ld 5 6 (2 ^ 35)) = false ∧
    Instr.wf (.lbu 5 6 (2 ^ 35)) = false ∧ Instr.wf (.lhu 5 6 (2 ^ 35)) = false ∧ Instr.wf (.lwu 5 6 (2 ^ 35)) = false ∧
    Instr.wf (.sb 5 6 (2 ^ 35)) = false ∧ Instr.wf (.sh 5 6 (2 ^ 35)) = false ∧ Instr.wf (.sw 5 6 (2 ^ 35)) = false ∧
    Instr.wf (.sd 5 6 (2 ^ 35)) = false ∧ Instr.wf (.jalr 1 5 (2 ^ 35)) = false ∧ Instr.wf (.cmpiEq 1 5 (2 ^ 35)) = false ∧
    Instr.wf (.cmpiLt 1 5 (2 ^ 35)) = false ∧ Instr.wf (.cmpiLtu 1 5 (2 ^ 35)) = false ∧ Instr.wf (.sbegin (2 ^ 35)) = false ∧
    Instr.wf (.lui 5 (2 ^ 43)) = false ∧ Instr.wf (.jal 1 (2 ^ 43)) = false ∧ Instr.wf (.bc 1 0 (2 ^ 42)) = false ∧
    Instr.wf (.bnc 1 0 (2 ^ 42)) = false ∧ Instr.wf (.trap 2048) = false ∧ Instr.wf (.mcall (-2049)) = false := by decide +kernel
/-- Branch hint 3 (R144), end status 5 (R306), bit fields past bit 63 (R151). -/
theorem test_wf_fields : Instr.wf (.bc 1 3 0) = false ∧ Instr.wf (.bnc 1 3 0) = false ∧ Instr.wf (.hend 5) = false ∧
    Instr.wf (.bfx 5 6 3 61) = false ∧ Instr.wf (.bfxu 5 6 63 1) = false ∧ Instr.wf (.bfi 5 6 60 4) = false := by decide +kernel
/-- Register pairs of `cas.q` (R257), fences with no set and with `rem` below scope sys (R98). -/
theorem test_wf_order : Instr.wf (.casQ 7 5 8 .acq .dev) = false ∧ Instr.wf (.casQ 0 5 8 .acq .dev) = false ∧
    Instr.wf (.casQ 6 5 9 .acq .dev) = false ∧ Instr.wf (.fence false false false false .dev) = false ∧
    Instr.wf (.fence false true false true .dev) = false := by decide +kernel
/-- Tags that an entry does not allow (R158, R192, R197), segments of one field, missing selectors (R183). -/
theorem test_wf_vectors : Instr.wf (.setvl 5 6 .none 0) = false ∧ Instr.wf (.setvlH 5 6 .none 0) = false ∧
    Instr.wf (.vldseg 4 5 false 0 0 .none) = false ∧ Instr.wf (.vstseg 4 5 false 0 0) = false ∧
    Instr.wf (.vldsegP 4 5 8 false 0 0 .none) = false ∧ Instr.wf (.vstsegP 4 5 8 false false 0 0) = false ∧
    Instr.wf (.vmerge 4 5 6 false false 0) = false ∧ Instr.wf (.vcompress 4 5 false 0) = false ∧ Instr.wf (.vexpand 4 5 false 0) = false ∧
    Instr.wf (.vcvt 4 5 .none false 0 none false) = false ∧ Instr.wf (.vcvt 4 5 .sc8 false 0 none false) = false ∧
    Instr.wf (.xaRd 5 0 .e4m3 none) = false := by decide +kernel
/-- Registers behind x31 (R207), a destination fibre that is a source (R210), a ladder upside down (R116). -/
theorem test_wf_fibres : Instr.wf (.qld 1 30 .none) = false ∧ Instr.wf (.qwalk 1 29 .none) = false ∧ Instr.wf (.qwalkD 1 29 .none) = false ∧
    Instr.wf (.qst 1 31) = false ∧ Instr.wf (.qisectMul 1 1 2 none false) = false ∧ Instr.wf (.qisectA 1 2 1) = false ∧
    Instr.wf (.qisectB 2 2 1) = false ∧ Instr.wf (.qunionAdd 1 2 1 none false) = false ∧ Instr.wf (.qmerge 1 1 2) = false ∧
    Instr.wf (.mma 0 1 2 2 1 none) = false ∧ Instr.wf (.mmaSp 0 1 2 3 0 none) = false ∧ Instr.wf (.mmaSs 0 1 2 1 0 none) = false := by
  decide +kernel

/-! ### Words of every row with an encoding -/

/-- Words of major 0x01, from the encoding tables of R139. -/
theorem test_decode_01 :
    decodeTableWord 32 0x00186281 = some (.add 5 6 12) ∧
    decodeTableWord 32 0x00586281 = some (.sub 5 6 12) ∧
    decodeTableWord 32 0x00986281 = some (.and 5 6 12) ∧
    decodeTableWord 32 0x00D86281 = some (.or 5 6 12) ∧
    decodeTableWord 32 0x01186281 = some (.xor 5 6 12) ∧
    decodeTableWord 32 0x01586281 = some (.andn 5 6 12) ∧
    decodeTableWord 32 0x01986281 = some (.sll 5 6 12) ∧
    decodeTableWord 32 0x01D86281 = some (.srl 5 6 12) ∧
    decodeTableWord 32 0x02186281 = some (.sra 5 6 12) ∧
    decodeTableWord 32 0x02586281 = some (.rol 5 6 12) ∧
    decodeTableWord 32 0x02986281 = some (.ror 5 6 12) ∧
    decodeTableWord 32 0x02D86281 = some (.min 5 6 12) ∧
    decodeTableWord 32 0x03186281 = some (.max 5 6 12) ∧
    decodeTableWord 32 0x03586281 = some (.minu 5 6 12) ∧
    decodeTableWord 32 0x03986281 = some (.maxu 5 6 12) ∧
    decodeTableWord 32 0x41986281 = some (.csel 5 6 12 6) := by decide +kernel

/-- Words of major 0x02, from the encoding tables of R140. -/
theorem test_decode_02 :
    decodeTableWord 32 0x80506282 = some (.addi 5 6 (-2043)) ∧
    decodeTableWord 32 0x80526282 = some (.andi 5 6 (-2043)) ∧
    decodeTableWord 32 0x80546282 = some (.ori 5 6 (-2043)) ∧
    decodeTableWord 32 0x80566282 = some (.xori 5 6 (-2043)) ∧
    decodeTableWord 32 0x00586282 = some (.slli 5 6 5) ∧
    decodeTableWord 32 0x005A6282 = some (.srli 5 6 5) ∧
    decodeTableWord 32 0x005C6282 = some (.srai 5 6 5) ∧
    decodeTableWord 32 0x005E6282 = some (.rori 5 6 5) := by decide +kernel

/-- Words of major 0x03, from the encoding tables of R141. -/
theorem test_decode_03 :
    decodeTableWord 32 0x80005283 = some (.lui 5 (-524283)) := by decide +kernel

/-- Words of major 0x04, from the encoding tables of R147. -/
theorem test_decode_04 :
    decodeTableWord 32 0x80506284 = some (.lb 5 6 (-2043)) ∧
    decodeTableWord 32 0x80526284 = some (.lh 5 6 (-2043)) ∧
    decodeTableWord 32 0x80546284 = some (.lw 5 6 (-2043)) ∧
    decodeTableWord 32 0x80566284 = some (.ld 5 6 (-2043)) ∧
    decodeTableWord 32 0x80586284 = some (.lbu 5 6 (-2043)) ∧
    decodeTableWord 32 0x805A6284 = some (.lhu 5 6 (-2043)) ∧
    decodeTableWord 32 0x805C6284 = some (.lwu 5 6 (-2043)) := by decide +kernel

/-- Words of major 0x05, from the encoding tables of R147. -/
theorem test_decode_05 :
    decodeTableWord 32 0x80506285 = some (.sb 5 6 (-2043)) ∧
    decodeTableWord 32 0x80526285 = some (.sh 5 6 (-2043)) ∧
    decodeTableWord 32 0x80546285 = some (.sw 5 6 (-2043)) ∧
    decodeTableWord 32 0x80566285 = some (.sd 5 6 (-2043)) := by decide +kernel

/-- Words of major 0x06, from the encoding tables of R144. -/
theorem test_decode_06 :
    decodeTableWord 32 0xFFFEE986 = some (.bc 3 1 (-9)) ∧
    decodeTableWord 32 0x7FFFF506 = some (.bnc 2 2 262143) := by decide +kernel

/-- Words of major 0x07, from the encoding tables of R145. -/
theorem test_decode_07 :
    decodeTableWord 32 0x80005287 = some (.jal 5 (-524283)) := by decide +kernel

/-- Words of major 0x08, from the encoding tables of R146. -/
theorem test_decode_08 :
    decodeTableWord 32 0x80506288 = some (.jalr 5 6 (-2043)) := by decide +kernel

/-- Words of major 0x09, from the encoding tables of R143. -/
theorem test_decode_09 :
    decodeTableWord 32 0x80526189 = some (.cmpiEq 3 6 (-2043)) ∧
    decodeTableWord 32 0x80546189 = some (.cmpiLt 3 6 (-2043)) ∧
    decodeTableWord 32 0x80566189 = some (.cmpiLtu 3 6 (-2043)) ∧
    decodeTableWord 32 0x60086189 = some (.cmpEq 3 6 12) ∧
    decodeTableWord 32 0x600A6189 = some (.cmpLt 3 6 12) ∧
    decodeTableWord 32 0x600C6189 = some (.cmpLtu 3 6 12) ∧
    decodeTableWord 32 0x600E6189 = some (.cmpTst 3 6 12) ∧
    decodeTableWord 32 0x01402189 = some (.cand 3 2 5) ∧
    decodeTableWord 32 0x03402189 = some (.cor 3 2 5) ∧
    decodeTableWord 32 0x05402189 = some (.cxor 3 2 5) ∧
    decodeTableWord 32 0x07402189 = some (.candn 3 2 5) := by decide +kernel

/-- Words of major 0x0A, from the encoding tables of R156. -/
theorem test_decode_0A :
    decodeTableWord 32 0x0040028A = some (.movs 5 4) ∧
    decodeTableWord 32 0x0042500A = some (.smov 5 4) := by decide +kernel

/-- Words of major 0x0B, from the encoding tables of R157, R305, R339. -/
theorem test_decode_0B :
    decodeTableWord 32 0x8050000B = some (.trap (-2043)) ∧
    decodeTableWord 32 0x0002000B = some (.ebreak) ∧
    decodeTableWord 32 0x0004000B = some (.kret) ∧
    decodeTableWord 32 0x8056000B = some (.mcall (-2043)) ∧
    decodeTableWord 32 0x0008000B = some (.monret) ∧
    decodeTableWord 32 0x000A628B = some (.invpg 5 6) ∧
    decodeTableWord 32 0x001A500B = some (.invpgG 5) ∧
    decodeTableWord 32 0x003C000B = some (.hend 3) := by decide +kernel

/-- Words of major 0x0C, from the encoding tables of R150. -/
theorem test_decode_0C :
    decodeTableWord 32 0x0018628C = some (.mul 5 6 12) ∧
    decodeTableWord 32 0x0058628C = some (.mulhiSs 5 6 12) ∧
    decodeTableWord 32 0x0098628C = some (.mulhiUu 5 6 12) ∧
    decodeTableWord 32 0x00D8628C = some (.mulhiSu 5 6 12) ∧
    decodeTableWord 32 0x0118628C = some (.div 5 6 12) ∧
    decodeTableWord 32 0x0158628C = some (.divu 5 6 12) ∧
    decodeTableWord 32 0x0198628C = some (.rem 5 6 12) ∧
    decodeTableWord 32 0x01D8628C = some (.remu 5 6 12) := by decide +kernel

/-- Words of major 0x0D, from the encoding tables of R153, R155. -/
theorem test_decode_0D_1 :
    decodeTableWord 32 0x0018628D = some (.faddS 5 6 12 none) ∧
    decodeTableWord 32 0x0058628D = some (.faddD 5 6 12 none) ∧
    decodeTableWord 32 0x0098628D = some (.fsubS 5 6 12 none) ∧
    decodeTableWord 32 0x00D8628D = some (.fsubD 5 6 12 none) ∧
    decodeTableWord 32 0x0118628D = some (.fmulS 5 6 12 none) ∧
    decodeTableWord 32 0x0158628D = some (.fmulD 5 6 12 none) ∧
    decodeTableWord 32 0x0198628D = some (.fdivS 5 6 12 none) ∧
    decodeTableWord 32 0x01D8628D = some (.fdivD 5 6 12 none) ∧
    decodeTableWord 32 0x0200628D = some (.fsqrtS 5 6 none) ∧
    decodeTableWord 32 0x0240628D = some (.fsqrtD 5 6 none) ∧
    decodeTableWord 32 0x0298628D = some (.fminS 5 6 12 none) ∧
    decodeTableWord 32 0x02D8628D = some (.fminD 5 6 12 none) ∧
    decodeTableWord 32 0x0318628D = some (.fmaxS 5 6 12 none) ∧
    decodeTableWord 32 0x0358628D = some (.fmaxD 5 6 12 none) ∧
    decodeTableWord 32 0x0398628D = some (.fmacS 5 6 12 none) ∧
    decodeTableWord 32 0x03D8628D = some (.fmacD 5 6 12 none) ∧
    decodeTableWord 32 0x0418618D = some (.fcmpEqS 3 6 12 none) ∧
    decodeTableWord 32 0x0458618D = some (.fcmpEqD 3 6 12 none) ∧
    decodeTableWord 32 0x0498618D = some (.fcmpLtS 3 6 12 none) ∧
    decodeTableWord 32 0x04D8618D = some (.fcmpLtD 3 6 12 none) ∧
    decodeTableWord 32 0x0518618D = some (.fcmpLeS 3 6 12 none) ∧
    decodeTableWord 32 0x0558618D = some (.fcmpLeD 3 6 12 none) ∧
    decodeTableWord 32 0x0580628D = some (.fcvtLS 5 6 none false) ∧
    decodeTableWord 32 0x05C0628D = some (.fcvtLD 5 6 none false) := by decide +kernel

/-- Words of major 0x0D, from the encoding tables of R153. -/
theorem test_decode_0D_2 :
    decodeTableWord 32 0x0600628D = some (.fcvtLuS 5 6 none false) ∧
    decodeTableWord 32 0x0640628D = some (.fcvtLuD 5 6 none false) ∧
    decodeTableWord 32 0x0680628D = some (.fcvtSL 5 6 none) ∧
    decodeTableWord 32 0x06C0628D = some (.fcvtDL 5 6 none) ∧
    decodeTableWord 32 0x0700628D = some (.fcvtSLu 5 6 none) ∧
    decodeTableWord 32 0x0740628D = some (.fcvtDLu 5 6 none) ∧
    decodeTableWord 32 0x0780628D = some (.fcvtSD 5 6 none false) ∧
    decodeTableWord 32 0x07C0628D = some (.fcvtDS 5 6 none) := by decide +kernel

/-- Words of major 0x0E, from the encoding tables of R152. -/
theorem test_decode_0E :
    decodeTableWord 32 0x0000628E = some (.clz 5 6) ∧
    decodeTableWord 32 0x0040628E = some (.ctz 5 6) ∧
    decodeTableWord 32 0x0080628E = some (.popc 5 6) ∧
    decodeTableWord 32 0x00C0628E = some (.bswap 5 6) ∧
    decodeTableWord 32 0x1852628E = some (.bfx 5 6 5 6) ∧
    decodeTableWord 32 0x1854628E = some (.bfxu 5 6 5 6) ∧
    decodeTableWord 32 0x1856628E = some (.bfi 5 6 5 6) ∧
    decodeTableWord 32 0xA058628E = some (.fsh 5 6 5 20) ∧
    decodeTableWord 32 0xA0CA628E = some (.fshv 5 6 12 20) ∧
    decodeTableWord 32 0xA05C628E = some (.bfxuv 5 6 5 20) := by decide +kernel

/-- Words of major 0x10, from the encoding tables of R256, R257. -/
theorem test_decode_10 :
    decodeTableWord 32 0x0C986290 = some (.amoAdd 5 6 12 .acq .dev true) ∧
    decodeTableWord 32 0x1C986290 = some (.amoAnd 5 6 12 .acq .dev true) ∧
    decodeTableWord 32 0x2C986290 = some (.amoOr 5 6 12 .acq .dev true) ∧
    decodeTableWord 32 0x3C986290 = some (.amoXor 5 6 12 .acq .dev true) ∧
    decodeTableWord 32 0x4C986290 = some (.amoMin 5 6 12 .acq .dev true) ∧
    decodeTableWord 32 0x5C986290 = some (.amoMax 5 6 12 .acq .dev true) ∧
    decodeTableWord 32 0x6C986290 = some (.amoMinu 5 6 12 .acq .dev true) ∧
    decodeTableWord 32 0x7C986290 = some (.amoMaxu 5 6 12 .acq .dev true) ∧
    decodeTableWord 32 0x8C986290 = some (.amoSwap 5 6 12 .acq .dev true) ∧
    decodeTableWord 32 0x9C986290 = some (.amoCas 5 6 12 .acq .dev true) ∧
    decodeTableWord 32 0xAC905310 = some (.casQ 6 5 8 .acq .dev) ∧
    decodeTableWord 32 0xBC806290 = some (.ldAcq 5 6 .dev true) ∧
    decodeTableWord 32 0xCD0C5010 = some (.stRel 5 6 .dev true) := by decide +kernel

/-- Words of major 0x11, from the encoding tables of R98, R259. -/
theorem test_decode_11 :
    decodeTableWord 32 0x02200011 = some (.fence false true false false .dev) ∧
    decodeTableWord 32 0x00020011 = some (.ifence) := by decide +kernel

/-- Words of major 0x12, from the encoding tables of R260. -/
theorem test_decode_12 :
    decodeTableWord 32 0x0C186292 = some (.waitge 5 6 12 .dev true) ∧
    decodeTableWord 32 0x1C186292 = some (.waiteq 5 6 12 .dev true) := by decide +kernel

/-- Words of major 0x13, from the encoding tables of R262. -/
theorem test_decode_13 :
    decodeTableWord 32 0x00186293 = some (.barInit 5 6 12) ∧
    decodeTableWord 32 0x14006293 = some (.barArrive 5 6 .dev) ∧
    decodeTableWord 32 0x240C5013 = some (.barWait 5 6 .dev) ∧
    decodeTableWord 32 0x30005013 = some (.barFin 5) := by decide +kernel

/-- Words of major 0x14, from the encoding tables of R264, R267, R265. -/
theorem test_decode_14 :
    decodeTableWord 32 0x00006294 = some (.farmDef 5 6) ∧
    decodeTableWord 32 0x00402294 = some (.farmNext 5 2) ∧
    decodeTableWord 32 0x00800014 = some (.farmEnd) ∧
    decodeTableWord 32 0x00C00014 = some (.scommit) ∧
    decodeTableWord 32 0x01000014 = some (.sabort) ∧
    decodeTableWord 32 0x80520014 = some (.sbegin (-2043)) := by decide +kernel

/-- Words of major 0x15, from the encoding tables of R268. -/
theorem test_decode_15 :
    decodeTableWord 32 0x00186295 = some (.launch 5 6 12) := by decide +kernel

/-- Words of major 0x20, from the encoding tables of R158. -/
theorem test_decode_20 :
    decodeTableWord 32 0x30E062A0 = some (.setvl 5 6 .fp32 3) ∧
    decodeTableWord 32 0x30E262A0 = some (.setvlH 5 6 .fp32 3) := by decide +kernel

/-- Words of major 0x21, from the encoding tables of R167, R168. -/
theorem test_decode_21 :
    decodeTableWord 32 0x068062A1 = some (.vld 5 6 true 6 .none) ∧
    decodeTableWord 32 0x0D8062A1 = some (.vldff 5 6 5 .none) ∧
    decodeTableWord 32 0x139862A1 = some (.vlds 5 6 12 true 3 .none) ∧
    decodeTableWord 32 0x468062A1 = some (.vst 5 6 true 6) ∧
    decodeTableWord 32 0x539862A1 = some (.vsts 5 6 12 true 3) := by decide +kernel

/-- Words of major 0x22, from the encoding tables of R169, R170. -/
theorem test_decode_22 :
    decodeTableWord 32 0x02D862A2 = some (.vldx 5 6 12 true true 2 .none) ∧
    decodeTableWord 32 0x0AD862A2 = some (.vldxFar 5 6 12 true true 2 .none) ∧
    decodeTableWord 32 0x42D862A2 = some (.vstx 5 6 12 true true 2) ∧
    decodeTableWord 32 0x4AD862A2 = some (.vstxFar 5 6 12 true true 2) := by decide +kernel

/-- Words of major 0x23, from the encoding tables of R171, R172. -/
theorem test_decode_23 :
    decodeTableWord 32 0x3E8062A3 = some (.vldseg 5 6 true 6 7 .none) ∧
    decodeTableWord 32 0x7E8062A3 = some (.vstseg 5 6 true 6 7) ∧
    decodeTableWord 32 0xBBD862A3 = some (.vldsegP 5 6 12 true 3 7 .none) ∧
    decodeTableWord 32 0xFAD862A3 = some (.vstsegP 5 6 12 true true 2 7) := by decide +kernel

/-- Words of major 0x24, from the encoding tables of R174. -/
theorem test_decode_24 :
    decodeTableWord 32 0x068062A4 = some (.vld2 5 6 true 6 .none) ∧
    decodeTableWord 32 0x468062A4 = some (.vst2 5 6 true 6) := by decide +kernel

/-- Words of major 0x25, from the encoding tables of R175. -/
theorem test_decode_25 :
    decodeTableWord 32 0x309862A5 = some (.vsbind 5 6 12 6) ∧
    decodeTableWord 32 0x808002A5 = some (.vsunbind 5) := by decide +kernel

/-- Words of major 0x29, from the encoding tables of R160, R87. -/
theorem test_decode_29 :
    decodeTableWord 32 0x0000E2A9 = some (.vtag 5 .fp32) ∧
    decodeTableWord 32 0x080C02A9 = some (.vtagr 5 6) ∧
    decodeTableWord 32 0xF80C5029 = some (.spdisc 5 6) ∧
    decodeTableWord 32 0xF84C5029 = some (.spkeep 5 6) := by decide +kernel

/-- Words of major 0x30, from the encoding tables of R184. -/
theorem test_decode_30 :
    decodeTableWord 32 0x02D862B0 = some (.vadd 5 6 12 true true 2 none false) ∧
    decodeTableWord 32 0x0AD862B0 = some (.vsub 5 6 12 true true 2 none false) ∧
    decodeTableWord 32 0x12D862B0 = some (.vmul 5 6 12 true true 2 none false) ∧
    decodeTableWord 32 0x1AD862B0 = some (.vdiv 5 6 12 true true 2 none) ∧
    decodeTableWord 32 0x22D862B0 = some (.vrem 5 6 12 true true 2 none) ∧
    decodeTableWord 32 0x2AD862B0 = some (.vmin 5 6 12 true true 2 none) ∧
    decodeTableWord 32 0x32D862B0 = some (.vmax 5 6 12 true true 2 none) ∧
    decodeTableWord 32 0x3AD862B0 = some (.vand 5 6 12 true true 2 none) ∧
    decodeTableWord 32 0x42D862B0 = some (.vor 5 6 12 true true 2 none) ∧
    decodeTableWord 32 0x4AD862B0 = some (.vxor 5 6 12 true true 2 none) ∧
    decodeTableWord 32 0x52D862B0 = some (.vsll 5 6 12 true true 2 none) ∧
    decodeTableWord 32 0x5AD862B0 = some (.vsrl 5 6 12 true true 2 none) ∧
    decodeTableWord 32 0x62D862B0 = some (.vsra 5 6 12 true true 2 none) ∧
    decodeTableWord 32 0x6AD862B0 = some (.vmulh 5 6 12 true true 2 none) := by decide +kernel

/-- Words of major 0x31, from the encoding tables of R184. -/
theorem test_decode_31 :
    decodeTableWord 32 0x035862B1 = some (.vaddX 5 6 12 true 3 none false) ∧
    decodeTableWord 32 0x0B5862B1 = some (.vsubX 5 6 12 true 3 none false) ∧
    decodeTableWord 32 0x135862B1 = some (.vmulX 5 6 12 true 3 none false) ∧
    decodeTableWord 32 0x1B5862B1 = some (.vdivX 5 6 12 true 3 none) ∧
    decodeTableWord 32 0x235862B1 = some (.vremX 5 6 12 true 3 none) ∧
    decodeTableWord 32 0x2B5862B1 = some (.vminX 5 6 12 true 3 none) ∧
    decodeTableWord 32 0x335862B1 = some (.vmaxX 5 6 12 true 3 none) ∧
    decodeTableWord 32 0x3B5862B1 = some (.vandX 5 6 12 true 3 none) ∧
    decodeTableWord 32 0x435862B1 = some (.vorX 5 6 12 true 3 none) ∧
    decodeTableWord 32 0x4B5862B1 = some (.vxorX 5 6 12 true 3 none) ∧
    decodeTableWord 32 0x535862B1 = some (.vsllX 5 6 12 true 3 none) ∧
    decodeTableWord 32 0x5B5862B1 = some (.vsrlX 5 6 12 true 3 none) ∧
    decodeTableWord 32 0x635862B1 = some (.vsraX 5 6 12 true 3 none) ∧
    decodeTableWord 32 0x6B5862B1 = some (.vmulhX 5 6 12 true 3 none) := by decide +kernel

/-- Words of major 0x32, from the encoding tables of R185. -/
theorem test_decode_32 :
    decodeTableWord 32 0x02D862B2 = some (.vfma 5 6 12 true true 2 none false) ∧
    decodeTableWord 32 0x0AD862B2 = some (.vfms 5 6 12 true true 2 none false) ∧
    decodeTableWord 32 0x12D862B2 = some (.vfnma 5 6 12 true true 2 none false) ∧
    decodeTableWord 32 0x1AD862B2 = some (.vfnms 5 6 12 true true 2 none false) := by decide +kernel

/-- Words of major 0x33, from the encoding tables of R186. -/
theorem test_decode_33 :
    decodeTableWord 32 0x02D861B3 = some (.vcmpEq 3 6 12 true true 2 none) ∧
    decodeTableWord 32 0x0AD861B3 = some (.vcmpNe 3 6 12 true true 2 none) ∧
    decodeTableWord 32 0x12D861B3 = some (.vcmpLt 3 6 12 true true 2 none) ∧
    decodeTableWord 32 0x1AD861B3 = some (.vcmpLe 3 6 12 true true 2 none) ∧
    decodeTableWord 32 0x435861B3 = some (.vcmpEqX 3 6 12 true 3 none) ∧
    decodeTableWord 32 0x4B5861B3 = some (.vcmpNeX 3 6 12 true 3 none) ∧
    decodeTableWord 32 0x535861B3 = some (.vcmpLtX 3 6 12 true 3 none) ∧
    decodeTableWord 32 0x5B5861B3 = some (.vcmpLeX 3 6 12 true 3 none) ∧
    decodeTableWord 32 0x635861B3 = some (.vcmpGtX 3 6 12 true 3 none) ∧
    decodeTableWord 32 0x6B5861B3 = some (.vcmpGeX 3 6 12 true 3 none) := by decide +kernel

/-- Words of major 0x34, from the encoding tables of R187. -/
theorem test_decode_34 :
    decodeTableWord 32 0x000A21B4 = some (.mand 3 2 5) ∧
    decodeTableWord 32 0x080A21B4 = some (.mor 3 2 5) ∧
    decodeTableWord 32 0x100A21B4 = some (.mxor 3 2 5) ∧
    decodeTableWord 32 0x180A21B4 = some (.mandn 3 2 5) ∧
    decodeTableWord 32 0x200021B4 = some (.mnot 3 2) ∧
    decodeTableWord 32 0x280021B4 = some (.msbf 3 2) ∧
    decodeTableWord 32 0x300021B4 = some (.msif 3 2) ∧
    decodeTableWord 32 0x3D0022B4 = some (.mpopc 5 2 5) ∧
    decodeTableWord 32 0x450022B4 = some (.mfirst 5 2 5) := by decide +kernel

/-- Words of major 0x35, from the encoding tables of R188. -/
theorem test_decode_35 :
    decodeTableWord 32 0x064062B5 = some (.vmv 5 6 true 6) ∧
    decodeTableWord 32 0x0AD862B5 = some (.vmerge 5 6 12 true true 2) ∧
    decodeTableWord 32 0x150C02B5 = some (.vsplat 5 6 5) ∧
    decodeTableWord 32 0x1A0002B5 = some (.vid 5 2) ∧
    decodeTableWord 32 0x235862B5 = some (.vslideup 5 6 12 true 3) ∧
    decodeTableWord 32 0x2B5862B5 = some (.vslidedn 5 6 12 true 3) ∧
    decodeTableWord 32 0x335862B5 = some (.vslide1up 5 6 12 true 3) ∧
    decodeTableWord 32 0x3B5862B5 = some (.vslide1dn 5 6 12 true 3) ∧
    decodeTableWord 32 0x42D862B5 = some (.vrgather 5 6 12 true true 2) := by decide +kernel

/-- Words of major 0x36, from the encoding tables of R189. -/
theorem test_decode_36 :
    decodeTableWord 32 0x064062B6 = some (.vcompress 5 6 true 6) ∧
    decodeTableWord 32 0x0E4062B6 = some (.vexpand 5 6 true 6) ∧
    decodeTableWord 32 0x100022B6 = some (.vpfxpop 5 2) ∧
    decodeTableWord 32 0x1E4062B6 = some (.vconflict 5 6 true 6) ∧
    decodeTableWord 32 0x264062B6 = some (.vscanSegAdd 5 6 true 6 none) ∧
    decodeTableWord 32 0x2E4062B6 = some (.vscanSegMin 5 6 true 6 none) ∧
    decodeTableWord 32 0x364062B6 = some (.vscanSegMax 5 6 true 6 none) := by decide +kernel

/-- Words of major 0x37, from the encoding tables of R190, R191. -/
theorem test_decode_37 :
    decodeTableWord 32 0x02D862B7 = some (.vredAdd 5 6 12 true true 2 none) ∧
    decodeTableWord 32 0x0AD862B7 = some (.vredMin 5 6 12 true true 2 none) ∧
    decodeTableWord 32 0x12D862B7 = some (.vredMax 5 6 12 true true 2 none) ∧
    decodeTableWord 32 0x1AD862B7 = some (.vredAnd 5 6 12 true true 2 none) ∧
    decodeTableWord 32 0x22D862B7 = some (.vredOr 5 6 12 true true 2 none) ∧
    decodeTableWord 32 0x2AD862B7 = some (.vredXor 5 6 12 true true 2 none) ∧
    decodeTableWord 32 0x32D862B7 = some (.vfredOrd 5 6 12 true true 2 none) := by decide +kernel

/-- Words of major 0x38, from the encoding tables of R192. -/
theorem test_decode_38 :
    decodeTableWord 32 0x035C62B8 = some (.vcvt 5 6 .fp32 true 3 none false) := by decide +kernel

/-- Words of major 0x39, from the encoding tables of R193, R194. -/
theorem test_decode_39 :
    decodeTableWord 32 0x064062B9 = some (.vneg 5 6 true 6 none false) ∧
    decodeTableWord 32 0x0E4062B9 = some (.vabs 5 6 true 6 none false) ∧
    decodeTableWord 32 0x164062B9 = some (.vsqrt 5 6 true 6 none) ∧
    decodeTableWord 32 0x1E4062B9 = some (.vexp2 5 6 true 6 none) ∧
    decodeTableWord 32 0x264062B9 = some (.vlog2 5 6 true 6 none) ∧
    decodeTableWord 32 0x2E4062B9 = some (.vrcp 5 6 true 6 none) ∧
    decodeTableWord 32 0x364062B9 = some (.vrsqrt 5 6 true 6 none) := by decide +kernel

/-- Words of major 0x3A, from the encoding tables of R195. -/
theorem test_decode_3A :
    decodeTableWord 32 0x02D862BA = some (.vbext 5 6 12 true true 2 none) ∧
    decodeTableWord 32 0x0AD862BA = some (.vfsh 5 6 12 true true 2) := by decide +kernel

/-- Words of major 0x3B, from the encoding tables of R196, R197, R198. -/
theorem test_decode_3B :
    decodeTableWord 32 0x000000BB = some (.xaClr 1) ∧
    decodeTableWord 32 0x0E4060BB = some (.xaAddv 1 6 true 6) ∧
    decodeTableWord 32 0x12D860BB = some (.xaDot 1 6 12 true true 2) ∧
    decodeTableWord 32 0x181C22BB = some (.xaRd 5 2 .fp32 none) ∧
    decodeTableWord 32 0x201822BB = some (.xaRdv 5 2 12 none) ∧
    decodeTableWord 32 0x280060BB = some (.xaLd 1 6 .none) ∧
    decodeTableWord 32 0x300060BB = some (.xaSt 1 6) := by decide +kernel

/-- Words of major 0x3C, from the encoding tables of R199. -/
theorem test_decode_3C :
    decodeTableWord 32 0x005862BC = some (.vmvXv 5 6 12 true) ∧
    decodeTableWord 32 0x081862BC = some (.vmvVx 5 6 12) := by decide +kernel

/-- Words of major 0x40, from the encoding tables of R208, R209. -/
theorem test_decode_40 :
    decodeTableWord 32 0x000601C0 = some (.qld 3 6 .none) ∧
    decodeTableWord 32 0x040601C0 = some (.qwalk 3 6 .none) ∧
    decodeTableWord 32 0x080601C0 = some (.qwalkD 3 6 .none) ∧
    decodeTableWord 32 0x0C060C40 = some (.qst 3 6) := by decide +kernel

/-- Words of major 0x41, from the encoding tables of R211, R213. -/
theorem test_decode_41 :
    decodeTableWord 32 0x0000A9C1 = some (.qisectMul 3 2 5 none false) ∧
    decodeTableWord 32 0x0400A9C1 = some (.qisectA 3 2 5) ∧
    decodeTableWord 32 0x0800A9C1 = some (.qisectB 3 2 5) ∧
    decodeTableWord 32 0x0C00A9C1 = some (.qunionAdd 3 2 5 none false) ∧
    decodeTableWord 32 0x1000A9C1 = some (.qmerge 3 2 5) ∧
    decodeTableWord 32 0x140009C1 = some (.qsort 3 2) ∧
    decodeTableWord 32 0x180009C1 = some (.qcompact 3 2) ∧
    decodeTableWord 32 0x1CA009C1 = some (.qcompactM 3 2 5) ∧
    decodeTableWord 32 0x2000A8C1 = some (.qdot 1 2 5) := by decide +kernel

/-- Words of major 0x42, from the encoding tables of R215, R216. -/
theorem test_decode_42 :
    decodeTableWord 32 0x01860C42 = some (.qexpand 3 6 12) ∧
    decodeTableWord 32 0x058601C2 = some (.qfromv 3 6 12) ∧
    decodeTableWord 32 0x098601C2 = some (.qfromvAll 3 6 12) ∧
    decodeTableWord 32 0x0CC00C42 = some (.qcoord 3 6) ∧
    decodeTableWord 32 0x10C00C42 = some (.qval 3 6) ∧
    decodeTableWord 32 0x14060C42 = some (.qcnt 3 6) ∧
    decodeTableWord 32 0x180001C2 = some (.qclr 3) ∧
    decodeTableWord 32 0x1C0C09C2 = some (.qscale 3 2 12 none false) ∧
    decodeTableWord 32 0x20060C42 = some (.qredAdd 3 6 none) ∧
    decodeTableWord 32 0x24060C42 = some (.qredMin 3 6) ∧
    decodeTableWord 32 0x28060C42 = some (.qredMax 3 6) := by decide +kernel

/-- Words of major 0x48, from the encoding tables of R220. -/
theorem test_decode_48 :
    decodeTableWord 32 0x00300048 = some (.mattach 3) ∧
    decodeTableWord 32 0x40000048 = some (.mdetach) ∧
    decodeTableWord 32 0x800001C8 = some (.mzeroT 3) ∧
    decodeTableWord 32 0xC00000C8 = some (.mzeroZ 1) := by decide +kernel

/-- Words of major 0x49, from the encoding tables of R222, R223. -/
theorem test_decode_49 :
    decodeTableWord 32 0x0C0001C9 = some (.mldT 3 6 .none) ∧
    decodeTableWord 32 0x4C0000C9 = some (.mldZ 1 6 .none) ∧
    decodeTableWord 32 0x986001C9 = some (.mldbm 3 6 12 .none) := by decide +kernel

/-- Words of major 0x4A, from the encoding tables of R222. -/
theorem test_decode_4A :
    decodeTableWord 32 0x0C0001CA = some (.mstT 3 6) ∧
    decodeTableWord 32 0x4C0000CA = some (.mstZ 1 6) := by decide +kernel

/-- Words of major 0x4B, from the encoding tables of R229. -/
theorem test_decode_4B :
    decodeTableWord 32 0x0009ACCB = some (.mma 1 3 5 1 2 none) ∧
    decodeTableWord 32 0x4009ACCB = some (.mmaSp 1 3 5 1 2 none) ∧
    decodeTableWord 32 0x8009ACCB = some (.mmaSs 1 3 5 1 2 none) := by decide +kernel

/-- Words of major 0x4C, from the encoding tables of R231. -/
theorem test_decode_4C :
    decodeTableWord 32 0x180040CC = some (.mdrain 1 2 12 none false) ∧
    decodeTableWord 32 0x68C040CC = some (.mdrainX 1 2 12 20 none false) ∧
    decodeTableWord 32 0x980040CC = some (.mdrainv 1 2 12 none false) := by decide +kernel

/-- Words of major 0x50, from the encoding tables of R237. -/
theorem test_decode_50 :
    decodeTableWord 32 0x800619D0 = some (.cpy 3 6 12 true) ∧
    decodeTableWord 32 0x834619D0 = some (.cpy2 3 6 12 20 true) ∧
    decodeTableWord 32 0x854619D0 = some (.cpyG 3 6 12 20 true) ∧
    decodeTableWord 32 0x874619D0 = some (.cpyGd 3 6 12 20 true) ∧
    decodeTableWord 32 0x880619D0 = some (.cpyR 3 6 12 true) := by decide +kernel

/-- Words of major 0x51, from the encoding tables of R241. -/
theorem test_decode_51 :
    decodeTableWord 32 0x00000051 = some (.cbatch) ∧
    decodeTableWord 32 0x02018051 = some (.cwait 3) ∧
    decodeTableWord 32 0x043019D1 = some (.cstat 3 6 3) ∧
    decodeTableWord 32 0x060001D1 = some (.cack 3) := by decide +kernel

/-- Words of major 0x52, from the encoding tables of R248, R247. -/
theorem test_decode_52 :
    decodeTableWord 32 0x00C31452 = some (.lzInit 5 6 12) ∧
    decodeTableWord 32 0x02031452 = some (.lzRes 5 6) ∧
    decodeTableWord 32 0x04628052 = some (.lzWait 5 6) ∧
    decodeTableWord 32 0x06628052 = some (.lzFree 5 6) ∧
    decodeTableWord 32 0x08031452 = some (.lzScrub 5 6) ∧
    decodeTableWord 32 0x0A028052 = some (.lzFin 5) := by decide +kernel

/-- Words of major 0x53, from the encoding tables of R249. -/
theorem test_decode_53 :
    decodeTableWord 32 0x805301D3 = some (.qsend 3 6 5 true) ∧
    decodeTableWord 32 0x02C30C53 = some (.qrecv 3 6 12) := by decide +kernel

/-- The routine of 07 "Example: a short scalar routine", word by word; the first two words are a pair. -/
theorem test_decode_routine :
    decode 0x0000017F 0x00000283 = .instr (.lui 5 0x200000) true ∧ decodeTableWord 32 0x00065304 = some (.ld 6 5 0) ∧
    decodeTableWord 32 0x00865384 = some (.ld 7 5 8) ∧ decodeTableWord 32 0x0080640E = some (.popc 8 6) ∧
    decodeTableWord 32 0x0032748E = some (.bfx 9 7 3 0) ∧ decodeTableWord 32 0xD074650E = some (.bfxu 10 6 7 52) ∧
    decodeTableWord 32 0x0100758C = some (.div 11 7 0) ∧ decodeTableWord 32 0x00047089 = some (.cmpiLt 1 7 0) ∧
    decodeTableWord 32 0x00004486 = some (.bnc 1 0 2) ∧ decodeTableWord 32 0x00148601 = some (.add 12 8 10) ∧
    decodeTableWord 32 0x00001008 = some (.jalr 0 1 0) := by decide +kernel
/-- The examples of 13: `cas.q.sys.ar x6, x8, (x10)` and `fence.dev.st`. -/
theorem test_decode_examples : decodeTableWord 32 0xAF90A310 = some (.casQ 6 10 8 .ar .sys) ∧
    decodeTableWord 32 0x02200011 = some (.fence false true false false .dev) := by decide +kernel
/-- Reserved words are refused by the decoder: major 0, function codes and fields that no entry gives. -/
theorem test_decode_reserved : decodeTableWord 32 0 = none ∧ decodeTableWord 32 0xFFC00001 = none ∧ decodeTableWord 32 0x000E6284 = none ∧
    decodeTableWord 32 0x00001986 = none ∧ decodeTableWord 32 0x00000011 = none := by decide +kernel

/-! ### Witnesses: scalar instructions -/

theorem wit_ScalarArithmetic : Claim.alu us (.add 12 5 8) = some (12, 0x7FF0000000008) := by decide +kernel
theorem wit_ScalarConditions : Claim.condition us (.cmpLtu 3 8 5) = some (3, true) := by decide +kernel
theorem wit_MultiplyDivide : ∃ P, Claim.muldiv us (.div 12 5 8) = some (12, P) := ⟨_, rfl⟩
theorem wit_BitFields : Instr.wf (.bfx 12 5 23 40) = true ∧ ∃ P, Claim.bitField us (.bfx 12 5 23 40) = some (12, P) :=
  ⟨by decide +kernel, _, rfl⟩
theorem wit_BranchesAndJumps : Claim.jump us (.jal 1 (-4)) = some (1, 0xFFFFFFF0) := by decide +kernel
theorem wit_FloatResults : (∃ k, Claim.floatResult us (.faddS 12 8 9 none) = some (12, none, k)) ∧ Claim.roundsBy us none .rne :=
  ⟨⟨_, rfl⟩, .inr ⟨rfl, by decide +kernel⟩⟩
theorem wit_FloatCompares : (∃ k q x y, Claim.floatCompare us (.fcmpLtD 3 8 9 (some .rup)) = some (3, some .rup, k, q, x, y)) ∧
    Claim.roundsBy us (some .rup) .rup := ⟨⟨_, _, _, _, rfl⟩, .inl rfl⟩
theorem wit_FloatSpecialCases : Claim.roundsBy us (some .rtz) .rtz := .inl rfl
theorem wit_ReservedRoundingTraps :
    let s := withHart fun h => { h with fcsr := { h.fcsr with rm := 5 } }
    Claim.rounding (.faddS 12 8 9 none) = some none ∧ 5 ≤ s.hart.fcsr.rm.toNat := by decide +kernel
theorem wit_ScalarLoads : Claim.loadForm (.ld 12 5 8) = some (8, false, 12, 5, 8) ∧
    us.drain.locate .load (Claim.address us 5 8) 8 8 true = .ok (.spad (2 * 0x200000 + 3 * 0x10000 + 8)) ∧
    Claim.readable us.drain (.spad (2 * 0x200000 + 3 * 0x10000 + 8)) 8 := ⟨rfl, okOf (by decide +kernel), readableOf rfl rfl rfl⟩
/-- The last byte of the window; and a page of memory. -/
theorem wit_ScalarLoads_edges :
    us.drain.locate .load (Claim.address us 7 (-1)) 1 1 true = .ok (.spad (2 * 0x200000 + 4 * 0x10000 - 1)) ∧
    us.drain.locate .load (Claim.address us 10 0x7FF8) 8 8 true = .ok (.phys 0x1FFF8) ∧
    Claim.readable us.drain (.phys 0x1FFF8) 8 := ⟨okOf (by decide +kernel), okOf (by decide +kernel), readableOf rfl rfl rfl⟩
theorem wit_ScalarStores : Claim.storeForm (.sd 8 10 0) = some (8, 8, 10, 0) ∧ Safety.Sound us ∧
    us.drain.locate .store (Claim.address us 10 0) 8 8 true = .ok (.phys 0x18000) ∧ us.strip? = none ∧
    us.drain.liveWord (.phys 0x18000) = false := ⟨rfl, us_sound, okOf (by decide +kernel), by decide +kernel⟩
theorem wit_StripStoresAreBuffered : Claim.storeForm (.sw 8 5 4) = some (4, 8, 5, 4) ∧
    ss.drain.locate .store (Claim.address ss 5 4) 4 4 true = .ok (.spad (2 * 0x200000 + 3 * 0x10000 + 4)) ∧
    (∃ st, ss.drain.strip? = some st ∧ (st.recs.map fun k => 2 ^ k.size).sum + 4 ≤ 65536) :=
  ⟨rfl, okOf (by decide +kernel), _, rfl, by decide +kernel⟩
/-- An unaligned address; the first address behind the window; an unmapped page; a page of memory that does not exist. -/
theorem wit_ScalarAccessTraps : Claim.loadForm (.lw 12 6 0) = some (4, true, 12, 6, 0) ∧ Claim.address us 6 0 % 4 ≠ 0 ∧
    (Claim.address us 7 0 % 4 = 0 ∧ windowBase ≤ Claim.address us 7 0 ∧
      us.drain.hart.place.pieces.length * 65536 < Claim.address us 7 0 - windowBase + 4) ∧
    (Claim.address us 11 0 % 4 = 0 ∧ Claim.address us 11 0 < windowBase ∧
      (us.drain.translate us.drain.hart.ctx .load (Claim.address us 11 0)).toOption = none) := by decide +kernel
/-- The test machine with the page at 0x1_0000_0000 behind the end of HBM. -/
def bs : State := { us with mem := Memory.writeN us.mem 0x10000 8 (0xC000000000 + 0x7B) }
theorem wit_ScalarAccessTraps_target :
    bs.drain.translate bs.drain.hart.ctx .load (Claim.address bs 10 0) = .ok 0xC000000000 ∧
      (bs.drain.targetCheck bs.drain.hart.place.part bs.drain.hart.place.core (Claim.address bs 10 0) 0xC000000000 4 .load true).toOption = none :=
  ⟨okOf (by decide +kernel), by decide +kernel⟩
/-- A strip that user level has open, seen from kernel level. -/
def sk : State := { ss with hart := { ss.hart with priv := { ss.hart.priv with level := .kernel } } }
/-- No strip, a cause that is not fatal to one, a fatal cause, a second `sbegin` of a higher level. -/
theorem wit_TakingAnException : Claim.struck us 3 = none ∧ (Claim.struck ss 4).isSome = true ∧ ¬ Claim.fatal 4 ∧
    (Claim.struck ss 3).isSome = true ∧ Claim.fatal 3 ∧ Claim.struck sk 3 = none ∧ (Claim.struck sk 0x0E).isSome = true ∧ Claim.fatal 0x0E := by
  refine ⟨by decide +kernel, by decide +kernel, by unfold Claim.fatal; decide, by decide +kernel, by unfold Claim.fatal; decide, by decide +kernel,
    by decide +kernel, by unfold Claim.fatal; decide⟩
theorem wit_SystemCalls : Claim.callForm us (.trap (-1)) = some (0x10, -1) ∧ Claim.callForm us .ebreak = some (0x0F, 0) ∧
    Claim.callForm ks (.mcall 2047) = some (0x10, 2047) ∧ us.strip? = none := by decide +kernel
theorem wit_StripForbids : Claim.forbidden .ifence = true ∧ (∃ st, ss.strip? = some st) ∧ Claim.forbidden (.sbegin 4) = true ∧
    sk.strip? = none ∧ ∃ st, sk.hart.strip = some st := ⟨rfl, ⟨_, rfl⟩, rfl, rfl, _, rfl⟩
/-- `kret` and `monret` to an aligned address and to an unaligned one; `kret` of a hart called off its core. -/
theorem wit_Returns : (ks.hart.priv.level ≠ .user ∧ ks.hart.switchPending = false ∧ ks.hart.priv.epc.toNat % 4 = 0) ∧
    (ms.hart.priv.level = .monitor ∧ ms.hart.priv.monpc.toNat % 4 = 0) ∧
    (let s := { ks with hart := { ks.hart with priv := { ks.hart.priv with epc := 0x100000002 } } }
     s.hart.priv.level ≠ .user ∧ s.hart.switchPending = false ∧ s.hart.priv.epc.toNat % 4 ≠ 0) ∧
    (let s := { ks with hart := { ks.hart with switchPending := true } }
     s.hart.priv.level ≠ .user ∧ s.hart.switchPending = true) := by decide +kernel
theorem wit_PrivilegeTraps : Claim.denied us .kret = some us.privileged ∧ Claim.denied ks (.movs 5 0xC00) = some ks.privileged ∧
    Claim.denied ks (.movs 5 0xBFF) = none ∧ Claim.denied us (.smov 5 0x800) = some us.privileged ∧
    Claim.denied us (.smov 5 0x7FF) = none ∧ Claim.denied ms (.mcall 0) = some ms.illegal := by decide +kernel
/-- No strip is open; one holds a store through a translation of another ASID. -/
theorem wit_InvalidationCompletes : ks.hart.priv.level ≠ .user ∧ (∀ c ∈ ks.drain.hart.ch.toList, c.state ≠ .running) ∧
    (let s : State := { ks with hart := { ks.hart with strip := some ⟨0, .user, [{ addr := 0x100000000, size := 3, rel := none, data := 5, pin := some 0x18000, asid := 7 }]⟩ } }
     ∀ h ∈ s.hart :: s.parked, h.place.part = s.hart.place.part → ∀ st, h.strip = some st → ∀ r ∈ st.recs, r.pin.isSome = true →
      Claim.names (bitsAt (s.x 10).toNat 15 36 * 2 ^ 15) (some ((s.x 9).setWidth 16)) (Claim.onePage r.page r.addr (bitsAt (s.x 10).toNat 15 36 * 2 ^ 15)) r.asid r.glob = false) := by
  refine ⟨by decide +kernel, by decide +kernel, ?_⟩
  intro s h hm _ st hs r hr _
  rcases List.mem_cons.1 hm with rfl | hm
  · cases hs
    rcases List.mem_singleton.1 hr with rfl
    decide +kernel
  · cases hm
theorem wit_SpecialReads : Claim.srLevel us 0x002 ∧ (Claim.register us 0x002).isSome = true ∧
    Claim.srLevel ks 0x800 ∧ (Claim.register ks 0x800).isSome = true ∧
    Claim.srLevel ms 0xC00 ∧ (Claim.register ms 0xC00).isSome = true := by
  refine ⟨.inl (by decide), by decide +kernel, .inr (.inl (by decide +kernel)), by decide +kernel, .inr (.inr (by decide +kernel)), by decide +kernel⟩
theorem wit_SpecialWrites : Claim.becomes us (us.x 8) 0x006 = some 8 ∧ Claim.srLevel us 0x006 ∧
    Claim.readOnly 0x000 ∧ Claim.readOnly 0x037 ∧ Claim.srLevel us 0x037 ∧ Claim.unlisted 0x00D ∧ Claim.unlisted 0x7FF ∧
    Claim.unlisted 0xFFF ∧ Claim.srLevel ms 0xFFF := by
  unfold Claim.readOnly Claim.unlisted Claim.srLevel
  exact ⟨by decide +kernel, by decide, by decide, by decide, by decide, by decide, by decide, by decide, by decide +kernel⟩
theorem wit_HartEnds : ks.hart.priv.level ≠ .user := by decide +kernel
/-- The monitor, with bit 0 of the register read 0 and 1; of the enabled partition and of another. -/
theorem wit_MonitorWrites : ms.hart.priv.level = .monitor ∧ (ms.x 8).getLsbD 0 = false ∧ (ms.x 6).getLsbD 0 = true ∧
    (ms.parts[(ms.hart.priv.psel).val]).en = true := by decide +kernel

/-! ### Witnesses: synchronisation -/

/-- The location of the mapped page, and of the window's first byte. -/
def page : Loc := .phys 0x18000
def window : Loc := .spad (2 * 0x200000 + 3 * 0x10000)

theorem us_clean : Claim.clean us.drain := ⟨rfl, by intro k hk; cases hk⟩
theorem us_sane (l : Loc) (n : Nat) : Claim.sane us.drain l n := saneOf rfl rfl
theorem us_readable : Claim.acquirable us.drain .dev page 8 := by
  unfold Claim.acquirable; rw [if_neg (by decide)]; exact readableOf rfl rfl rfl
theorem us_atomic : Claim.atomicOk us (us.x 10).toNat 8 true page :=
  ⟨by decide +kernel, okOf (by decide +kernel), by decide +kernel, fun a h k => rfl, us_sane _ _, us_clean⟩
theorem wit_Atomics : (∃ f, Claim.amoForm us (.amoAdd 12 10 8 .ar .sys true) = some (12, 10, 8, true, f)) ∧ Safety.Sound us ∧
    Claim.atomicOk us (us.x 10).toNat 8 true page := ⟨⟨_, rfl⟩, us_sound, us_atomic⟩
theorem wit_CompareAndSwapPair : Safety.Sound us ∧ Claim.atomicOk us (us.x 5).toNat 16 true window :=
  ⟨us_sound, by decide +kernel, okOf (by decide +kernel), by decide +kernel, fun a h k => rfl, us_sane _ _, us_clean⟩
theorem wit_LoadAcquire :
    us.drain.locate .load (us.x 10).toNat (Claim.size true) (Claim.size true) (Scope.sys != .sys) = .ok page ∧
    Claim.acquirable us.drain .sys page (Claim.size true) ∧ Claim.acquirable us.drain .dev page (Claim.size true) :=
  ⟨okOf (by decide +kernel), ⟨us_sane _ _, us_clean⟩, us_readable⟩
/-- Outside a strip and inside one. -/
theorem wit_StoreRelease : (Safety.Sound us ∧
    us.drain.locate .store (us.x 10).toNat (Claim.size true) (Claim.size true) (Scope.sys != .sys) = .ok page ∧
    us.strip? = none ∧ us.drain.liveWord page = false ∧ Claim.clean us.drain) ∧
    ss.drain.locate .store (ss.x 5).toNat (Claim.size false) (Claim.size false) (Scope.dev != .sys) = .ok window ∧
    ∃ st, ss.drain.strip? = some st ∧ (st.recs.map fun k => 2 ^ k.size).sum + Claim.size false ≤ 65536 :=
  ⟨⟨us_sound, okOf (by decide +kernel), by decide +kernel, by decide +kernel, us_clean⟩, okOf (by decide +kernel), _, rfl, by decide +kernel⟩
/-- No copy is running; and one that cannot move on is. -/
theorem wit_Fences : (us.strip? = none ∧ (∀ c ∈ us.drain.hart.ch.toList, c.state ≠ .running) ∧ Claim.clean us.drain) ∧
    ∃ c ∈ (withHart fun h => { h with ch := h.ch.set 3 { h.ch[3] with state := .running } }).drain.hart.ch.toList, c.state = .running := by
  refine ⟨⟨by decide +kernel, by decide +kernel, us_clean⟩, by decide +kernel⟩
theorem wit_WaitsLook : Claim.waitForm (.waitge 12 10 8 .dev true) = some (true, 12, 10, 8, .dev, 8) ∧ us.strip? = none ∧
    us.drain.locate .load (us.x 10).toNat 8 8 (Scope.dev != .sys) = .ok page ∧ Claim.acquirable us.drain .dev page 8 :=
  ⟨rfl, by decide +kernel, okOf (by decide +kernel), us_readable⟩

/-- The test machine with barrier objects, and with contents at the page. -/
def bars (l : List Barrier) (ctl phase : Nat) : State :=
  { us with barriers := l, mem := Memory.writeN (Memory.writeN us.mem 0x18000 8 ctl) 0x18008 8 phase }
def free : State := bars [] 0 0
def live : State := bars [⟨0x18000, 0⟩] (2 ^ 32 + 2) 1
def broken : State := bars [⟨0x18000, 0⟩] (2 ^ 33 + 2 ^ 32 + 2) 1
def fullBars : State := bars ((List.range 1024).map fun k => ⟨0x100000 + 16 * k, 0⟩) 0 0

theorem sound_of (s : State) (h : Memory.wf s.mem && Memory.wf s.spad && s.accepted && (s.service.state != 3) = true) : Safety.Sound s := by
  simp only [Bool.and_eq_true, bne_iff_ne, ne_eq, decide_eq_true_eq] at h
  exact ⟨h.1.1.1, h.1.1.2, fun _ => h.1.2, fun c => absurd c h.2⟩

theorem wit_BarrierInit : (Safety.Sound free ∧ free.strip? = none ∧ Claim.barrierAt free .store 10 0x18000 ∧
      (free.x 0).toNat % 2 ^ 32 = 0 ∧ (free.x 8).toNat % 2 ^ 32 ≠ 0 ∧ ¬ Claim.live free.drain 0x18000) ∧
    (Claim.barrierAt live .store 10 0x18000 ∧ Claim.live live.drain 0x18000) ∧
    (Claim.barrierAt fullBars .store 10 0x18000 ∧ ¬ Claim.live fullBars.drain 0x18000 ∧
      1024 ≤ (fullBars.drain.barriers.filter fun k => k.part = fullBars.hart.place.part).length) := by
  refine ⟨⟨sound_of _ (by decide +kernel), by decide +kernel, ⟨okOf (by decide +kernel), by decide +kernel⟩, by decide +kernel,
    by decide +kernel, ?_⟩, ⟨⟨okOf (by decide +kernel), by decide +kernel⟩, ?_⟩, ⟨⟨okOf (by decide +kernel), by decide +kernel⟩, ?_, by decide +kernel⟩⟩
  all_goals unfold Claim.live; decide +kernel
theorem wit_BarrierArrive : (Safety.Sound free ∧ free.strip? = none ∧ Claim.barrierAt free .atomic 10 0x18000 ∧
      Claim.clean free.drain ∧ ¬ Claim.live free.drain 0x18000) ∧
    (Claim.barrierAt broken .atomic 10 0x18000 ∧ Claim.broken broken.drain 0x18000) ∧
    (Safety.Sound live ∧ Claim.barrierAt live .atomic 10 0x18000 ∧ Claim.live live.drain 0x18000 ∧ ¬ Claim.broken live.drain 0x18000 ∧
      (Claim.phase live.drain 0x18000 % 2 ^ 32 + 1) % 2 ^ 32 = Claim.ctl live.drain 0x18000 % 2 ^ 32) ∧
    Claim.sane free.drain (.phys 0x18000) 16 ∧ Claim.sane broken.drain (.phys 0x18000) 16 ∧ Claim.sane live.drain (.phys 0x18000) 16 := by
  refine ⟨⟨sound_of _ (by decide +kernel), by decide +kernel, ⟨okOf (by decide +kernel), by decide +kernel⟩,
    ⟨rfl, by intro k hk; cases hk⟩, ?_⟩, ⟨⟨okOf (by decide +kernel), by decide +kernel⟩, ?_⟩,
    ⟨sound_of _ (by decide +kernel), ⟨okOf (by decide +kernel), by decide +kernel⟩, ?_, ?_, by decide +kernel⟩, saneOf rfl rfl, saneOf rfl rfl, saneOf rfl rfl⟩
  all_goals first | (unfold Claim.live; decide +kernel) | (unfold Claim.broken; decide +kernel)
theorem wit_BarrierWait : live.strip? = none ∧ Claim.barrierAt live .load 10 0x18000 ∧ Claim.sane live.drain (.phys 0x18000) 16 ∧ Claim.clean live.drain ∧
    Claim.live live.drain 0x18000 ∧ ¬ Claim.broken live.drain 0x18000 ∧
    Claim.phase live.drain 0x18000 / 2 ^ 32 = (live.x 0).toNat % 2 ^ 32 ∧ Claim.phase live.drain 0x18000 / 2 ^ 32 ≠ (live.x 8).toNat % 2 ^ 32 := by
  refine ⟨by decide +kernel, ⟨okOf (by decide +kernel), by decide +kernel⟩, saneOf rfl rfl, ⟨rfl, by intro k hk; cases hk⟩, ?_, ?_, by decide +kernel⟩
  · unfold Claim.live; decide +kernel
  · unfold Claim.broken; decide +kernel
/-- Another hart waits at the object, at scope sys. -/
def watched : State := { live with parked := [{ live.hart with
  place := { live.hart.place with hid := 2, slot := 1 }, phase := .monitor, waiting := some (.phase .sys (live.x 10) 0) }] }
theorem wit_BarrierFinish : Safety.Sound watched ∧ watched.strip? = none ∧ Claim.barrierAt watched .store 10 0x18000 ∧
    Claim.sane watched.drain (.phys 0x18000) 16 ∧ watched.hart.phase = .active ∧ ((watched.hart :: watched.parked).map fun h => h.place.hid).Nodup ∧
    (∀ h ∈ watched.drain.parked, Claim.cleanOf watched.drain h) ∧ Claim.live watched.drain 0x18000 ∧ ¬ Claim.live free.drain 0x18000 ∧
    ∃ h ∈ watched.drain.parked, h.phase = .monitor ∧ watched.drain.waitsAt h 0x18000 = true := by
  refine ⟨sound_of _ (by decide +kernel), by decide +kernel, ⟨okOf (by decide +kernel), by decide +kernel⟩, saneOf rfl rfl, by decide +kernel,
    by decide +kernel, ?_, ?_, ?_, by decide +kernel⟩
  · unfold Claim.cleanOf; decide +kernel
  all_goals unfold Claim.live; decide +kernel

/-- The test machine with a launch whose farm is as said. -/
def farmed (f : Farm) : State := { us with launches := [{ id := 1, queue := 0, part := 0, words := [], farm := f }] }
/-- No farm; a live one with strips left; one at its end; one the hart has not joined. -/
theorem wit_Farms : ((farmed {}).launchOf (farmed {}).hart.place.launch).isSome = true ∧ (farmed {}).strip? = none ∧
    (Claim.farmOf (farmed {})).live = false ∧
    (let f := Claim.farmOf (farmed { live := true, counter := 7, extent := 8, strip := 4, joined := [1] });
      f.live = true ∧ 1 ∈ f.joined ∧ f.exhausted = false ∧ f.counter < f.extent) ∧
    (let f := Claim.farmOf (farmed { live := true, counter := 8, extent := 8, strip := 4, joined := [1] });
      f.live = true ∧ 1 ∈ f.joined ∧ f.extent ≤ f.counter) ∧
    (let f := Claim.farmOf (farmed { live := true, joined := [2] });
      f.live = true ∧ 1 ∉ f.joined) := by decide +kernel
theorem wit_Strips : us.hart.strip = none ∧ us.strip? = none ∧
    (∃ st, ss.strip? = some st ∧ (∀ r ∈ st.recs, Claim.commits ss.drain r) ∧ st.recs.length ≤ ss.hart.limit.getD st.recs.length ∧
      (some 0).getD st.recs.length < st.recs.length) := by
  refine ⟨by decide +kernel, by decide +kernel, _, rfl, ?_, by decide +kernel⟩
  intro r hr
  simp only [List.mem_cons, List.not_mem_nil, or_false] at hr
  subst hr
  exact ⟨⟨by decide +kernel, by decide +kernel⟩, by decide +kernel, by intro h; cases h⟩
/-- The first queue of the partition with room, the same full, and a queue of no partition. -/
def queued (n : Nat) : State := { us with
  parts := us.parts.set 0 { us.parts[0] with first := 8, count := 1 }
  queues := [(8, { packets := (List.range n).map fun _ => [] })] }
theorem wit_DeviceLaunch : us.strip? = none ∧ (queued 63).drain.locate .load ((queued 63).x 10).toNat 64 64 false = .ok page ∧
    targetOf 0x18000 = .hbm ∧ Claim.sane (queued 63).drain page 64 ∧
    (queued 63).drain.queueOwner 8 = some (queued 63).hart.place.part ∧ ((queued 63).drain.queue 8).used < 64 ∧
    (queued 64).drain.queueOwner 8 = some (queued 64).hart.place.part ∧ 64 ≤ ((queued 64).drain.queue 8).used ∧
    (queued 63).drain.queueOwner 0 ≠ some (queued 63).hart.place.part ∧ 1024 ≤ ((queued 63).x 9).toNat := by
  refine ⟨by decide +kernel, okOf (by decide +kernel), by decide +kernel, saneOf rfl rfl, by decide +kernel⟩

/-! ### Witnesses: vector instructions -/

/-- What `ready` asks where no stream is bound. -/
theorem readyOf (s : State) (o : Claim.Operands) (h1 : (o.srcs ++ o.dsts).isEmpty = true ∨ s.hart.vcfg.tag ≠ .none)
    (h : (∀ g ∈ o.srcs ++ o.dsts, g.n ≤ 8 ∧ g.base % g.n = 0) ∧ (∀ f ∈ o.faults, f = false) ∧
      (o.usesMask = true → o.len ≤ 1024 * s.hart.ge) ∧ s.boundBy o.dsts = [] ∧ s.boundBy o.srcs = [] ∧
      (∀ g ∈ o.srcs, ∀ r : VNum, g.base ≤ r.val → r.val < g.base + g.n → s.hart.v[r.val].poison = false) ∧
      ∀ k ∈ o.masks, s.hart.m[k.val].poison = false) : Claim.ready s s o := by
  obtain ⟨h2, h3, h4, h5, h6, h7, h8⟩ := h
  refine ⟨fun h => h1.resolve_left (by simpa using h), h2, h3, h4, h5, ?_, ?_, h7, h8⟩
  · rw [h6]; intro k hk; cases hk
  · rw [h6]; rfl

/-- The test machine with four fp32 elements a group, v12 and v13 and v14 tagged fp32, v16 tagged i32, m3 with two bits. -/
def vectorHart (h : Hart) : Hart :=
  { h with
    vcfg := { tag := .fp32 }, vl := 4, rows := 2, pitch := 16
    v := Vector.ofFn fun k : Fin 32 => { bits := 0x3F8000003F8000003F8000003F800000, tag := if k.val = 16 then .i32 else .fp32 }
    m := Vector.ofFn fun k : Fin 8 => { bits := if k.val = 3 then 5 else 0 } }
def vs : State := withHart vectorHart
theorem vs_sound : Safety.Sound vs := sound_of _ (by decide +kernel)
/-- One whose index vector i32 holds zeros; one at an unmapped page. -/
def vs0 : State := withHart fun h => { vectorHart h with v := Vector.ofFn fun k : Fin 32 => { tag := if k.val = 16 then .i32 else .fp32 } }

theorem wit_VectorArithmetic : ∃ e, Claim.arithmetic vs vs .rne (.vadd 12 13 14 false false 3 none false) = some (none, e) ∧
    Claim.roundsBy vs none .rne ∧ Claim.ready vs vs e.toOperands :=
  ⟨_, rfl, .inr ⟨rfl, by decide +kernel⟩, readyOf _ _ (.inr (by decide +kernel)) (by decide +kernel)⟩
/-- The fused form, whose last destination is v28. -/
theorem wit_VectorArithmetic_fused : ∃ e, Claim.arithmetic vs vs .rtz (.vfma 28 13 31 false false 0 (some .rtz) false) = some (some .rtz, e) ∧
    Claim.roundsBy vs (some .rtz) .rtz ∧ Claim.ready vs vs e.toOperands :=
  ⟨_, rfl, .inl rfl, readyOf _ _ (.inr (by decide +kernel)) (by decide +kernel)⟩
theorem wit_VectorUnary : ∃ e, Claim.unaries vs vs .rne (.vabs 12 13 false 3 none false) = some (some none, e) ∧
    Claim.roundsBy vs none .rne ∧ Claim.ready vs vs e.toOperands :=
  ⟨_, rfl, .inr ⟨rfl, by decide +kernel⟩, readyOf _ _ (.inr (by decide +kernel)) (by decide +kernel)⟩
theorem wit_VectorMoves : ∃ rm e, Claim.moves vs vs .rne (.vrgather 12 13 16 false false 0) = some (rm, e) ∧ rm = none ∧
    Claim.ready vs vs e.toOperands :=
  ⟨_, _, rfl, rfl, readyOf _ _ (.inr (by decide +kernel)) (by decide +kernel)⟩
theorem wit_VectorMasks : ∃ e, Claim.maskResults vs vs .rne (.vcmpLt 2 13 14 false false 3 none) = some (some none, e) ∧
    Claim.roundsBy vs none .rne ∧ Claim.ready vs vs e.toOperands :=
  ⟨_, rfl, .inr ⟨rfl, by decide +kernel⟩, readyOf _ _ (.inr (by decide +kernel)) (by decide +kernel)⟩
theorem wit_VectorReductions : ∃ e, Claim.reductions vs vs .rne (.vredAdd 12 13 14 false false 3 none) = some (none, e) ∧
    Claim.roundsBy vs none .rne ∧ vs.hart.vl ≤ 2 ^ 32 ∧ vs.hart.vsi < vs.hart.vl ∧ vs.hart.limit = none ∧ Claim.ready vs vs e.toOperands :=
  ⟨_, rfl, .inr ⟨rfl, by decide +kernel⟩, by decide +kernel, by decide +kernel, rfl, readyOf _ _ (.inr (by decide +kernel)) (by decide +kernel)⟩
/-- The vectors of `vs` where an event is to stop the instruction after n elements. -/
def vcut (n : Nat) : State := { vs with hart := { vs.hart with limit := some n } }
/-- One element done, with another left. -/
theorem wit_OrderedSumStops : ∃ e, Claim.reductions (vcut 1) (vcut 1) .rne (.vfredOrd 12 13 14 false false 3 none) = some (none, e) ∧
    Claim.roundsBy (vcut 1) none .rne ∧ (vcut 1).hart.limit = some 1 ∧ (Claim.activeIn (vcut 1) 3)[1]? = some 2 ∧ 2 ≠ (vcut 1).hart.vsi ∧
    Claim.ready (vcut 1) (vcut 1) e.toOperands :=
  ⟨_, rfl, .inr ⟨rfl, by decide +kernel⟩, rfl, by decide +kernel, by decide +kernel, readyOf _ _ (.inr (by decide +kernel)) (by decide +kernel)⟩
/-- No reclaim with Ge kept and with Ge to shrink; a hold that shrinks; a reclaim that fits and one that does not. -/
theorem wit_VectorLength :
    (us.hart.reclaim = none ∧ us.hart.ge ≤ min us.hart.place.grant us.hart.priv.vlcap) ∧
    (let h := { us.hart with ge := 2 }; min h.place.grant h.priv.vlcap < h.ge ∧ ∀ q ∈ h.q.toList, q.entries.length ≤ 128 * min h.place.grant h.priv.vlcap) ∧
    (let h := { us.hart with ge := 2, place := { us.hart.place with grant := 2 }, priv := { us.hart.priv with vlcap := 1 } }
     h.ge ≤ h.place.grant ∧ h.priv.vlcap < h.ge) ∧
    (let h := { us.hart with ge := 2, reclaim := some 1, place := { us.hart.place with grant := 2 } }
     ∀ q ∈ h.q.toList, q.entries.length ≤ 128 * 1) ∧
    (let h := { us.hart with ge := 2, reclaim := some 1, q := us.hart.q.set 3 { entries := (List.range 129).map fun k => (k, 0), tag := .i8 } }
     ¬ ∀ q ∈ h.q.toList, q.entries.length ≤ 128 * 1) ∧ ss.hart.strip ≠ none := by decide +kernel
theorem wit_TagsSet : Tag.ofCode ((vs.x 8).toNat % 32) = some .ui64 ∧ 2 ^ vs.hart.vcfg.lgrp ≤ 8 ∧ 12 % 2 ^ vs.hart.vcfg.lgrp = 0 ∧
    vs.boundBy [⟨12, 2 ^ vs.hart.vcfg.lgrp, 8⟩] = [] := by decide +kernel
/-- An unaligned group, a reserved code, a binding on the group, no tag. -/
theorem wit_TagTraps : (let s := withHart fun h => { vectorHart h with vcfg := { tag := .fp32, lgrp := 1 } }
      (2 ^ s.hart.vcfg.lgrp ≤ 8 ∧ (13 : VNum).val % 2 ^ s.hart.vcfg.lgrp ≠ 0)) ∧ Tag.ofCode ((vs.x 9 + 31).toNat % 32) = none ∧
    (withHart fun h => { vectorHart h with vcfg := { tag := .fp4 } }).hart.vcfg.tag = .fp4 ∧
    (let s : State := { vs with hart := { vs.hart with streams := vs.hart.streams.set 2 ⟨true, 12, 0, .fp32, 0x7FF0000000000, 4, 0, []⟩ } }
     s.boundBy [⟨12, 2 ^ s.hart.vcfg.lgrp, 8⟩] = [2]) ∧ us.hart.vcfg.tag = .none := by decide +kernel
theorem vs_loadable (j : Nat) (h : j < 4) : Claim.loadable vs (Claim.accessBytes vs) (Claim.unitAddress vs 10 j) := by
  have : j ∈ [0, 1, 2, 3] := by simp; omega
  refine ⟨.phys (0x18000 + 4 * j), ?_, readableOf rfl rfl rfl⟩
  simp only [List.mem_cons, List.not_mem_nil, or_false] at this
  rcases this with rfl | rfl | rfl | rfl <;> exact okOf (by decide +kernel)
theorem wit_VectorLoads : ∃ e, Claim.loads vs.drain vs (.vld 12 10 false 3 .none) = some e ∧ Claim.ready vs.drain vs e.toOperands ∧
    vs.hart.limit = none ∧ ∀ j ∈ e.reads, ∀ a ∈ e.addr j, Claim.loadable vs (Claim.accessBytes vs) a := by
  have hd : vs.drain = vs := by decide +kernel
  rw [hd]
  refine ⟨_, rfl, readyOf _ _ (.inr (by decide +kernel)) (by decide +kernel), rfl, ?_⟩
  intro j hj a ha
  have hr : j ∈ [0, 2] := by
    have : ∀ j ∈ Claim.activeTo vs 3 4, j ∈ [0, 2] := by decide +kernel
    exact this j hj
  have ha' : a = Claim.unitAddress vs 10 j := List.mem_singleton.1 ha
  subst ha'
  exact vs_loadable j (by simp at hr; omega)
/-- One active element loaded, with another left. -/
theorem wit_VectorLoadStops : ∃ e, Claim.loads (vcut 1).drain (vcut 1) (.vld 12 10 false 3 .none) = some e ∧
    Claim.ready (vcut 1).drain (vcut 1) e.toOperands ∧ (vcut 1).hart.limit = some 1 ∧ e.acts[1]? = some 2 ∧
    ∀ j ∈ e.acts.take 1, ∀ a ∈ e.addr j, Claim.loadable (vcut 1) (Claim.accessBytes (vcut 1)) a := by
  have hd : (vcut 1).drain = vcut 1 := by decide +kernel
  rw [hd]
  refine ⟨_, rfl, readyOf _ _ (.inr (by decide +kernel)) (by decide +kernel), rfl, by decide +kernel, ?_⟩
  intro j hj a ha
  have hr : ∀ j ∈ (Claim.activeTo (vcut 1) 3 4).take 1, j = 0 := by decide +kernel
  have hj := hr j hj
  subst hj
  rw [show a = Claim.unitAddress (vcut 1) 10 0 from List.mem_singleton.1 ha]
  exact ⟨.phys 0x18000, okOf (by decide +kernel), readableOf rfl rfl rfl⟩
/-- Two elements are in the page's last 8 bytes; the third is at an unmapped address. -/
def edge : State := withHart fun h => { vectorHart h with x := h.x.set 10 0x100007FF8 }
theorem wit_FirstFaultTrims : ∃ e, Claim.loads edge.drain edge (.vldff 12 10 0 .none) = some e ∧ Claim.ready edge.drain edge e.toOperands ∧
    e.acts = [0, 1] ++ 2 :: [3] ∧ edge.hart.limit = none ∧ edge.repairing = none ∧ edge.hart.vsi < 2 ∧
    (∀ j ∈ [0, 1], Claim.loadable edge (Claim.accessBytes edge) (Claim.unitAddress edge 10 j)) ∧
    Claim.fails edge (Claim.accessBytes edge) (Claim.unitAddress edge 10 2) := by
  have hd : edge.drain = edge := by decide +kernel
  rw [hd]
  refine ⟨_, rfl, readyOf _ _ (.inr (by decide +kernel)) (by decide +kernel), by decide +kernel, rfl, rfl, by decide +kernel, ?_, ?_⟩
  · intro j hj
    simp only [List.mem_cons, List.not_mem_nil, or_false] at hj
    rcases hj with rfl | rfl
    · exact ⟨.phys 0x1FFF8, okOf (by decide +kernel), readableOf rfl rfl rfl⟩
    · exact ⟨.phys 0x1FFFC, okOf (by decide +kernel), readableOf rfl rfl rfl⟩
  · left; intro l h
    have : (edge.locate .load (Claim.unitAddress edge 10 2).toNat (Claim.accessBytes edge) (Claim.accessBytes edge) true).toOption = none := by decide +kernel
    rw [h] at this; cases this
theorem wit_VectorStores : ∃ o e, Claim.stores vs.drain vs (.vst 12 5 false 3) = some (o, e) ∧ Safety.Sound vs ∧ vs.hart.limit = none ∧
    Claim.ready vs.drain vs e.toOperands ∧
    (∀ j ∈ e.acts, ∀ a ∈ e.addr j, Claim.storable vs (Claim.accessBytes vs) o a ∧
      (vs.hart.vcfg.tag = .fp4 → Claim.readable vs (Claim.lies vs .store 1 o a) 1)) ∧
    Claim.roomFor vs (Claim.writes vs.drain vs o e) := by
  have hd : vs.drain = vs := by decide +kernel
  rw [hd]
  refine ⟨_, _, rfl, vs_sound, rfl, readyOf _ _ (.inr (by decide +kernel)) (by decide +kernel), ?_, ?_⟩
  · intro j hj a ha
    have hr : ∀ j ∈ Claim.activeTo vs 3 4, j ∈ [0, 2] := by decide +kernel
    have hj := hr j hj
    have ha : a = Claim.unitAddress vs 5 j := List.mem_singleton.1 ha
    subst ha
    refine ⟨⟨.spad (2 * 0x200000 + 3 * 0x10000 + 4 * j), ?_, fun _ => ?_⟩, fun h => absurd h (by decide +kernel)⟩
    all_goals simp only [List.mem_cons, List.not_mem_nil, or_false] at hj; rcases hj with rfl | rfl
    all_goals first | exact okOf (by decide +kernel) | decide +kernel
  · intro st h
    have : vs.strip? = none := by decide +kernel
    rw [this] at h; cases h
theorem wit_StreamBindings : vs.hart.vcfg.tag ≠ .none ∧ vs.hart.vcfg.tag ≠ .fp4 ∧ 2 ^ vs.hart.vcfg.lgrp ≤ 8 ∧
    31 % 2 ^ vs.hart.vcfg.lgrp = 0 := by decide +kernel
/-- No length; the last page of the window. -/
theorem wit_DiscardMarks : (us.x 0).toNat = 0 ∧
    (let s := withHart fun h => { h with x := h.x.set 7 0x7FF000000F000 }
     (s.x 9).toNat ≠ 0 ∧ (s.x 7).toNat % 4096 = 0 ∧ (s.x 9).toNat % 4096 = 0 ∧ windowBase ≤ (s.x 7).toNat ∧
      (s.x 7).toNat - windowBase + (s.x 9).toNat ≤ s.hart.place.pieces.length * 65536 ∧
      ∀ z ∈ s.zones, z.owner = s.hart.place.hid → z.stop ≤ 0) := by decide +kernel
theorem wit_VectorToScalar : ∃ o v z, Claim.toScalar vs vs (.mpopc 12 3 0) = some (o, 12, v, z) ∧ Claim.ready vs vs o :=
  ⟨_, _, _, rfl, readyOf _ _ (.inl (by decide +kernel)) (by decide +kernel)⟩
/-- The last element of the vector register that x[9] can name is 255; an accumulator is read out as fp32. -/
theorem wit_ScalarToVector :
    Claim.ready vs vs ⟨[], [Claim.groupOf vs 12 (Claim.tagOf vs 12)], [], false, 0,
      [Claim.tagOf vs 12 == .none, decide (Claim.vlmax vs ≤ (vs.x 8).toNat)]⟩ ∧
    (Claim.roundsBy vs none .rne ∧ tagFmt (Claim.tagOf vs 12) = some fmt32 ∧ vs.hart.e[0].poison = false ∧
      Claim.ready vs vs ⟨[], [Claim.groupOf vs 12 (Claim.tagOf vs 12)], [], false, 0,
        [Claim.noScale vs, !Claim.special (Claim.tagOf vs 12), decide (Claim.vlmax vs ≤ (vs.x 8).toNat)]⟩) ∧
    Claim.special .fp64 = true ∧ tagFmt .fp64 = some fmt64 :=
  ⟨readyOf _ _ (.inr (by decide +kernel)) (by decide +kernel),
    ⟨.inr ⟨rfl, by decide +kernel⟩, rfl, rfl, readyOf _ _ (.inr (by decide +kernel)) (by decide +kernel)⟩, rfl, rfl⟩
theorem wit_Accumulation : ∃ o l, Claim.summed vs vs (.xaAddv 1 13 false 3) = some (o, 1, l) ∧ Claim.ready vs vs o ∧
    vs.hart.e[1].poison = false :=
  ⟨_, _, rfl, readyOf _ _ (.inr (by decide +kernel)) (by decide +kernel), rfl⟩
theorem wit_AccumulatorImages : Safety.Sound us ∧ (∀ k, k < 69 → Claim.loadable us.drain 8 (Claim.imageAddr us 5 k)) ∧
    (us.hart.e[2].poison = false ∧ (∀ k, k < 69 → Claim.storable us.drain 8 false (Claim.imageAddr us 5 k)) ∧
      us.drain.strip? = none) := by
  have key : ∀ k ∈ List.range 69, (us.drain.locate .load (Claim.imageAddr us 5 k).toNat 8 8 true).toOption = some (.spad (2 * 0x200000 + 3 * 0x10000 + 8 * k)) ∧
      (us.drain.locate .store (Claim.imageAddr us 5 k).toNat 8 8 false).toOption = some (.spad (2 * 0x200000 + 3 * 0x10000 + 8 * k)) ∧
      us.drain.liveWord (.spad (2 * 0x200000 + 3 * 0x10000 + 8 * k)) = false := by decide +kernel
  refine ⟨us_sound, ?_, by decide +kernel, ?_, by decide +kernel⟩ <;> intro k hk <;> have := key k (List.mem_range.2 hk)
  · exact ⟨_, okOf this.1, readableOf rfl rfl rfl⟩
  · exact ⟨_, okOf this.2.1, fun _ => this.2.2⟩

/-! ### Witnesses: fibres and matrices -/

theorem loadableOf {s : State} {n : Nat} {a : Word} (h1 : s.poison = []) (h2 : s.spadPoison = []) (h3 : s.rcache = [])
    (h : (s.locate .load a.toNat n n true).toOption.isSome = true) : Claim.loadable s n a := by
  cases e : s.locate .load a.toNat n n true with
  | error r => rw [e] at h; cases h
  | ok l => exact ⟨l, e, readableOf h1 h2 h3⟩
theorem storableOf {s : State} {n : Nat} {a : Word} {c : Bool} (h : (s.locate .store a.toNat n n c).toOption.any (fun l => !s.liveWord l) = true) :
    Claim.storable s n c a := by
  cases e : s.locate .store a.toNat n n c with
  | error r => rw [e] at h; cases h
  | ok l => rw [e] at h; exact ⟨l, e, fun _ => by simpa [Except.toOption] using h⟩
theorem roomOf {s : State} {l : List Claim.Write} (h : s.strip? = none) : Claim.roomFor s l := by
  intro st k; rw [h] at k; cases k

/-- Fibres q1 of three entries and q2 of two; x12 to x15 the operands of a load of three entries, x16 to x19 those of a walk. -/
def fs : State :=
  { us with
    spad := Memory.writeN [] (2 * 0x200000 + 3 * 0x10000 + 0x208) 8 0x200000000
    hart := { vectorHart us.hart with
      x := Vector.ofFn fun k : Fin 32 => if k.val = 12 ∨ k.val = 17 then 0x7FF0000000000 else if k.val = 13 ∨ k.val = 18 then 0x7FF0000000100
        else if k.val = 14 then 3 else if k.val = 16 then 0x7FF0000000200 else if k.val = 19 then 2 else 0
      q := ((us.hart.q.set 1 { entries := [(1, 0x3F800000), (4, 0x40000000), (9, 0)], tag := .fp32 }).set 2
        { entries := [(4, 0x40400000), (7, 0x3F800000)], tag := .fp32 }) } }
theorem wit_FibreMemory : Safety.Sound fs ∧ fs.hart.limit = none ∧ Claim.canLoad fs ∧
    Claim.planesLoadable fs fs.drain (fs.x 12) (fs.x 13) (fs.x 14).toNat ∧
    (Claim.loadable fs.drain 4 (Claim.entryAddr (fs.x 16) 4 (fs.x 19).toNat) ∧
      Claim.loadable fs.drain 4 (Claim.entryAddr (fs.x 16) 4 ((fs.x 19).toNat + 1)) ∧
      Claim.wordAt fs.drain 4 (Claim.entryAddr (fs.x 16) 4 (fs.x 19).toNat) = 0 ∧
      Claim.wordAt fs.drain 4 (Claim.entryAddr (fs.x 16) 4 ((fs.x 19).toNat + 1)) = 2 ∧
      Claim.planesLoadable fs fs.drain (Claim.entryAddr (fs.x 17) 4 0) (Claim.entryAddr (fs.x 18) 4 0) 2) := by
  have key : ∀ j ∈ [0, 1, 2], ((fs.drain.locate .load (Claim.entryAddr (fs.x 12) 4 j).toNat 4 4 true).toOption.isSome = true) ∧
      ((fs.drain.locate .load (Claim.entryAddr (fs.x 13) 4 j).toNat 4 4 true).toOption.isSome = true) := by decide +kernel
  have pl : ∀ n, n ≤ 3 → Claim.planesLoadable fs fs.drain (fs.x 12) (fs.x 13) n := by
    intro n hn j _ hj
    have := key j (by simp; omega)
    exact ⟨loadableOf rfl rfl rfl this.1, loadableOf rfl rfl rfl this.2⟩
  exact ⟨sound_of _ (by decide +kernel), rfl, ⟨by decide +kernel, by decide +kernel⟩, pl 3 (by decide),
    loadableOf rfl rfl rfl (by decide +kernel), loadableOf rfl rfl rfl (by decide +kernel), by decide +kernel, by decide +kernel, pl 2 (by decide)⟩
theorem wit_FibreMemory_store : (Claim.fibre fs 1).poison = false ∧ fs.hart.qpos.po ≤ 128 * fs.hart.ge ∧
    (∀ j ∈ List.range (Claim.fibre fs 1).entries.length, Claim.storable fs.drain 4 false (Claim.entryAddr (fs.x 12) 4 j) ∧
      Claim.storable fs.drain 4 false (Claim.entryAddr (fs.x 13) 4 j)) ∧ fs.drain.strip? = none := by
  have key : ∀ j ∈ [0, 1, 2], ((fs.drain.locate .store (Claim.entryAddr (fs.x 12) 4 j).toNat 4 4 false).toOption.any (fun l => !fs.drain.liveWord l) = true) ∧
      ((fs.drain.locate .store (Claim.entryAddr (fs.x 13) 4 j).toNat 4 4 false).toOption.any (fun l => !fs.drain.liveWord l) = true) := by decide +kernel
  refine ⟨by decide +kernel, by decide +kernel, ?_, by decide +kernel⟩
  intro j hj
  have h3 : j < 3 := List.mem_range.1 hj
  have := key j (by simp; omega)
  exact ⟨storableOf this.1, storableOf this.2⟩
theorem fs_combine : Claim.canCombine fs 1 2 := ⟨by decide +kernel, by decide +kernel⟩
theorem wit_FibreSets : (∃ op, Claim.combining fs .rne (.qunionAdd 3 1 2 none false) = some (some none, 3, 1, 2, some .fp32, op)) ∧
    Claim.roundsBy fs none .rne ∧ Claim.canCombine fs 1 2 ∧ fs.hart.limit = none := ⟨⟨_, rfl⟩, .inr ⟨rfl, by decide +kernel⟩, fs_combine, rfl⟩
theorem wit_FibreDot : Claim.canCombine fs 1 2 ∧ fs.hart.limit = none ∧ fs.hart.e[0].poison = false ∧ tagFloat (Claim.fibre fs 1).tag = true ∧
    tagFloat (Claim.fibre fs 2).tag = true := ⟨fs_combine, rfl, by decide +kernel⟩
/-- One step of the union of q1 and q2, one of their products, and one entry loaded, with more left. -/
def fcut : State := { fs with hart := { fs.hart with limit := some 1 } }
theorem wit_FibreStops : (∃ (op : Option (Nat × Nat) → Option (Nat × Nat) → Option Claim.Move) (k : Claim.Move) (e : Nat × FRes), Claim.combining fcut .rne (.qunionAdd 3 1 2 none false) = some (some none, 3, 1, 2, some .fp32, op) ∧
      Claim.Walked op (Claim.fibre fcut 1).entries (Claim.fibre fcut 2).entries (128 * fcut.hart.ge) 1 0 0 0 [e] (k.terms ++ []) (0 + k.da) (0 + k.db)) ∧
    Claim.roundsBy fcut none .rne ∧ Claim.canCombine fcut 1 2 ∧ fcut.hart.limit = some 1 ∧ Claim.canLoad fcut ∧
    0 + 1 < min (fcut.x 14).toNat (128 * fcut.hart.ge) ∧ Claim.planesLoadable fcut fcut.drain (fcut.x 12) (fcut.x 13) 1 ∧
    ∃ k : Claim.Move, k.emits = none ∧ Claim.Walked (Claim.products fun x y => (Claim.valueOf .fp32 x).times (Claim.valueOf .fp32 y)) (Claim.fibre fcut 1).entries
      (Claim.fibre fcut 2).entries 0 1 0 0 0 [] (k.terms ++ []) (0 + k.da) (0 + k.db) := by
  refine ⟨⟨_, _, _, rfl, .emit 0 0 0 0 _ _ [] [] _ _ rfl rfl (by decide +kernel) (.none _ _ _)⟩, .inr ⟨rfl, by decide +kernel⟩,
    ⟨by decide +kernel, by decide +kernel⟩, rfl,
    ⟨by decide +kernel, by decide +kernel⟩, by decide +kernel, ?_, ⟨_, rfl, .pass 0 0 0 0 _ [] [] _ _ rfl rfl (.none _ _ _)⟩⟩
  intro j _ hj
  have : j = 0 := by have : j < 1 := Nat.lt_of_lt_of_le hj (Nat.min_le_left _ _); omega
  subst this
  exact ⟨loadableOf rfl rfl rfl (by decide +kernel), loadableOf rfl rfl rfl (by decide +kernel)⟩
theorem wit_FibreReshapes : (∃ P, Claim.reshapes fs (.qsort 3 1) = some (3, 1, true, P)) ∧ (Claim.fibre fs 1).poison = false ∧
    Claim.roundsBy fs none .rne := ⟨⟨_, rfl⟩, by decide +kernel, .inr ⟨rfl, by decide +kernel⟩⟩
theorem wit_FibreReductions : Claim.fibreReductions (.qredAdd 1 12 none) = some (1, 12, some none, .add) ∧ Claim.roundsBy fs none .rne ∧
    (Claim.fibre fs 1).poison = false ∧ (Claim.fibre fs 1).tag ≠ .sc8 ∧ (Claim.fibre fs 1).entries.length ≤ 2 ^ 32 ∧
    (Claim.fibre fs 1).tag ≠ .none := ⟨rfl, .inr ⟨rfl, by decide +kernel⟩, by decide +kernel⟩
/-- Into a vector, and from one: the last x[v] at which every coordinate is below 2^32 is 2^32 − VL. -/
theorem wit_FibreVectors : (∃ g w acts value, Claim.fromFibre fs (.qexpand 1 0 12) = some (1, g, w, acts, value) ∧
      Claim.ready fs fs ⟨[], [g], [], false, 0, [Claim.noScale fs, Claim.noElements w]⟩) ∧ (Claim.fibre fs 1).poison = false ∧
    Claim.toFibre (.qfromv 3 14 13) = some (false, 3, 14, 13) ∧
    (let s : State := { fs with hart := { fs.hart with x := fs.hart.x.set 14 0xFFFFFFFC } }
     decide (2 ^ 32 < (s.x 14).toNat + s.hart.vl) = false) ∧
    fs.hart.limit = none ∧ Claim.ready fs fs ⟨[Claim.groupOf fs 13 (Claim.tagOf fs 13)], [], [], false, 0,
      [Claim.noScale fs, Claim.noElements (Claim.tagOf fs 13), decide (4096 < fs.hart.vl), decide (2 ^ 32 < (fs.x 14).toNat + fs.hart.vl),
        decide (128 * fs.hart.ge < fs.hart.qpos.po)]⟩ := by
  refine ⟨⟨_, _, _, _, rfl, readyOf _ _ (.inr (by decide +kernel)) (by decide +kernel)⟩, by decide +kernel, rfl, by decide +kernel, rfl, ?_⟩
  exact readyOf _ _ (.inr (by decide +kernel)) (by decide +kernel)

/-- Operand tiles 0 and 1 of two rows of four fp32, operand tile 2 with a bitmap, accumulator tile 0 of two rows of two. -/
def ctx : TileCtx :=
  { rows := 32
    t := (((Vector.replicate 8 {}).set 0 { shape := ⟨false, false, 4, 2, .fp32⟩ }).set 1 { shape := ⟨false, false, 4, 2, .fp32⟩ }).set 2
      { shape := ⟨true, false, 4, 2, .fp32⟩ }
    z := ((Vector.replicate 4 {}).set 0 { shape := ⟨false, false, 2, 2, .fp32⟩ }).set 1 { shape := ⟨false, false, 4, 2, .fp32⟩ } }
def ts : State :=
  { us with hart := { vectorHart us.hart with tile := some ctx } }
theorem ts_units (i j : Nat) (hi : i < 2) (hj : j < 4) (a : XReg) (h : a = 5) :
    (ts.drain.locate .load (Claim.unitAddr ts ⟨false, false, 4, 2, .fp32⟩ a i j).toNat 4 4 true).toOption = some (.spad (2 * 0x200000 + 3 * 0x10000 + 16 * i + 4 * j)) ∧
    (ts.drain.locate .store (Claim.unitAddr ts ⟨false, false, 4, 2, .fp32⟩ a i j).toNat 4 4 false).toOption = some (.spad (2 * 0x200000 + 3 * 0x10000 + 16 * i + 4 * j)) ∧
    ts.drain.liveWord (.spad (2 * 0x200000 + 3 * 0x10000 + 16 * i + 4 * j)) = false := by
  subst h
  have key : ∀ i ∈ [0, 1], ∀ j ∈ [0, 1, 2, 3],
      (ts.drain.locate .load (Claim.unitAddr ts ⟨false, false, 4, 2, .fp32⟩ 5 i j).toNat 4 4 true).toOption = some (.spad (2 * 0x200000 + 3 * 0x10000 + 16 * i + 4 * j)) ∧
      (ts.drain.locate .store (Claim.unitAddr ts ⟨false, false, 4, 2, .fp32⟩ 5 i j).toNat 4 4 false).toOption = some (.spad (2 * 0x200000 + 3 * 0x10000 + 16 * i + 4 * j)) ∧
      ts.drain.liveWord (.spad (2 * 0x200000 + 3 * 0x10000 + 16 * i + 4 * j)) = false := by decide +kernel
  exact key i (by simp; omega) j (by simp; omega)
/-- No context; a context, with a value of no tag, the widest of an accumulator's last, one with reserved bits set. -/
theorem wit_LastWrites : us.hart.tile = none ∧ ts.hart.tile = some ctx ∧ Claim.lastOk 0x018 32 (us.x 0).toNat ∧
    Claim.lastOk 0x020 32 (Claim.lastWord ⟨false, false, 128, 32, .fp32⟩) ∧ ¬ Claim.lastOk 0x018 32 (us.x 5).toNat := by
  refine ⟨by decide +kernel, by decide +kernel, ⟨⟨false, false, 0, 0, .none⟩, by decide +kernel⟩, ⟨_, rfl, by decide +kernel⟩, ?_⟩
  rintro ⟨k, e, hr, hc, _⟩
  have h5 : (us.x 5).toNat = 0x7FF0000000000 := by decide +kernel
  have ht : k.tag.code < 32 := by cases k.tag <;> decide
  rw [h5] at e
  unfold Claim.lastWord at e
  have := Bool.toNat_le k.pk
  have := Bool.toNat_le k.bm
  omega
/-- No context with rows to spare, with none, with another hart's; a context. -/
theorem wit_MatrixContexts : us.hart.tile = none ∧ Claim.availableRows us = 128 ∧ ¬ Claim.takenByOther us ∧
    Claim.takenByOther { us with parked := [{ ts.hart with place := { ts.hart.place with hid := 2, slot := 1 } }] } ∧
    Claim.availableRows { us with retRows := [(2, 4)] } = 0 ∧ ts.hart.tile = some ctx := by
  refine ⟨by decide +kernel, by decide +kernel, ?_, ⟨_, List.mem_singleton.2 rfl, by decide +kernel⟩,
    by decide +kernel⟩
  rintro ⟨h, hm, _⟩; cases hm
theorem wit_TileLoads : ts.hart.tile = some ctx ∧
    (Claim.legalShape ctx.t[0].shape true ∧ Claim.movable ts ctx.t[0].shape ∧
      ∀ i j, i < ts.hart.rows → j < Claim.rowUnits ts ctx.t[0].shape →
        Claim.loadable ts.drain (Claim.unitBytes ctx.t[0].shape) (Claim.unitAddr ts ctx.t[0].shape 5 i j)) ∧
    (Claim.legalShape ctx.z[1].shape false ∧ Claim.movable ts ctx.z[1].shape) ∧
    (let y := ctx.t[2].shape
     Claim.legalShape y true ∧ y.tag ≠ .none ∧ ts.hart.rows ≤ y.rows ∧ y.bm = true ∧ (ts.x 5).toNat % 16 = 0 ∧
      (∀ i, i < ts.hart.rows → Claim.loadable ts.drain 16 (ts.x 5 + BitVec.ofNat 64 i * 16)) ∧
      ∀ i, i < ts.hart.rows → Claim.slotsOf y (Claim.bitmapRow ts.drain y (ts.x 5) i) = []) := by
  refine ⟨by decide +kernel, ⟨?_, ?_, ?_⟩, ⟨?_, ?_⟩, ?tags⟩
  case tags =>
    refine ⟨by unfold Claim.legalShape; decide +kernel, ?_⟩
    iterate 4 refine ⟨by decide +kernel, ?_⟩
    have rows : ∀ i ∈ [0, 1], Claim.slotsOf ctx.t[2].shape (Claim.bitmapRow ts.drain ctx.t[2].shape (ts.x 5) i) = [] := by decide +kernel
    refine ⟨fun i hi => ?_, fun i hi => rows i (by have : i < 2 := hi; simp; omega)⟩
    · have : i ∈ [0, 1] := by have : i < 2 := hi; simp; omega
      have key : ∀ i ∈ [0, 1], ((ts.drain.locate .load (ts.x 5 + BitVec.ofNat 64 i * 16).toNat 16 16 true).toOption.isSome = true) := by decide +kernel
      exact loadableOf rfl rfl rfl (key i this)
  · unfold Claim.legalShape; decide +kernel
  · unfold Claim.movable; decide +kernel
  · intro i j hi hj
    exact ⟨_, okOf (ts_units i j hi hj 5 rfl).1, readableOf rfl rfl rfl⟩
  · unfold Claim.legalShape; decide +kernel
  · unfold Claim.movable; decide +kernel
theorem wit_TileStores : Safety.Sound ts ∧ ts.hart.tile = some ctx ∧ Claim.movable ts ctx.t[0].shape ∧ ctx.t[0].poison = false ∧
    (∀ w ∈ Claim.tileWrites ts ts.drain ctx.t[0].shape 5 1024 ctx.t[0].bits,
      Claim.storable ts.drain (Claim.unitBytes ctx.t[0].shape) false w.va) ∧
    Claim.roomFor ts.drain (Claim.tileWrites ts ts.drain ctx.t[0].shape 5 1024 ctx.t[0].bits) := by
  refine ⟨sound_of _ (by decide +kernel), by decide +kernel, by unfold Claim.movable; decide +kernel, by decide +kernel, ?_, roomOf (by decide +kernel)⟩
  intro w hw
  obtain ⟨i, hi, hw⟩ := List.mem_flatMap.1 hw
  obtain ⟨j, hj, rfl⟩ := List.mem_map.1 hw
  have := ts_units i j (List.mem_range.1 hi) (List.mem_range.1 hj) 5 rfl
  exact ⟨_, okOf this.2.1, fun _ => this.2.2⟩
theorem wit_Multiplication : Claim.mmaForm (.mma 0 0 1 0 3 none) = some (false, false, 0, 0, 1, 0, 3) ∧ ts.hart.tile = some ctx ∧
    ctx.t[0].shape.bm = false ∧ ctx.t[1].shape.bm = false ∧ stepTags ctx.t[0].shape.tag ctx.t[1].shape.tag = some (.fp32, 32) ∧
    ctx.z[0].shape.tag = .fp32 ∧ ctx.z[0].shape.rows ≠ 0 ∧ ctx.z[0].shape.cols ≠ 0 ∧ ctx.t[0].poison = false ∧
    ctx.t[1].poison = false ∧ ctx.z[0].poison = false ∧ Claim.legalShape ctx.z[0].shape false := by
  refine ⟨rfl, ?_⟩
  iterate 10 refine ⟨by decide +kernel, ?_⟩
  unfold Claim.legalShape; decide +kernel
/-- An accumulator tile with no columns, whose multiplication changes nothing. -/
theorem wit_Multiplication_empty : stepTags .fp32 .fp32 = some (.fp32, 32) ∧ (⟨false, false, 0, 2, .fp32⟩ : Shape).cols = 0 := ⟨by decide +kernel, rfl⟩
/-- No context, untyped and typed; a last with no tag, one that does not fit, an accumulator of integers, a tile without its bitmap. -/
theorem wit_MatrixTraps : Claim.needsContext (.mma 0 0 1 0 3 none) = some (none, false) ∧ vs.hart.tile = none ∧
    Claim.needsContext (.mdrain 1 0 5 none false) = some (some none, true) ∧ Claim.roundsBy vs none .rne ∧ vs.hart.vcfg.tag ≠ .none ∧
    ts.hart.tile = some ctx ∧ ctx.t[3].shape.tag = .none ∧ ctx.t[2].shape.tag ≠ .none ∧ Claim.misshapen ts ctx.t[2].shape false ∧
    Claim.noElements ctx.t[3].shape.tag = true ∧
    (let c : TileCtx := { ctx with z := ctx.z.set 2 { shape := ⟨false, false, 2, 2, .i32⟩ } }
     (Claim.noElements c.z[2].shape.tag = false ∧ ∀ kb, stepTags c.t[0].shape.tag c.t[1].shape.tag ≠ some (c.z[2].shape.tag, kb))) ∧
    (Claim.mmaForm (.mmaSp 0 0 1 0 3 none) = some (true, false, 0, 0, 1, 0, 3) ∧ ctx.t[0].shape.bm ≠ true) := by
  refine ⟨rfl, by decide +kernel, rfl, .inr ⟨rfl, by decide +kernel⟩, ?_⟩
  iterate 4 refine ⟨by decide +kernel, ?_⟩
  refine ⟨by unfold Claim.misshapen; decide +kernel, by decide +kernel, ⟨by decide +kernel, ?_⟩, rfl, by decide +kernel⟩
  intro kb h
  rw [show stepTags _ _ = some (Tag.fp32, 32) from rfl] at h
  cases h
theorem wit_Drains : Safety.Sound ts ∧ Claim.drainForm (.mdrain 1 0 5 none false) = some (1, 0, 5, none, false, none) ∧
    Claim.roundsBy ts none .rne ∧ ts.hart.tile = some ctx ∧ ctx.z[1].poison = false ∧ ts.hart.limit = none ∧ ts.hart.vcfg.tag ≠ .none ∧
    Claim.ready ts ts ⟨[], [], Claim.governed 0, false, 8, Claim.drainFaults ts ctx.z[1].shape⟩ ∧
    Claim.ready ts ts ⟨[], [Claim.dataGroup ts 12], Claim.governed 0, false, 8, Claim.drainFaults ts ctx.z[1].shape ++ [decide (Claim.vlmax ts < 8)]⟩ ∧
    (∀ e ∈ List.range 8, Claim.storable ts 4 false (ts.x 5 + BitVec.ofInt 64 ((e / ts.hart.vl : Nat) : Int) * ts.hart.pitch + BitVec.ofNat 64 (e % ts.hart.vl * 4))) := by
  have key : ∀ e ∈ List.range 8, ((ts.locate .store (ts.x 5 + BitVec.ofInt 64 ((e / ts.hart.vl : Nat) : Int) * ts.hart.pitch + BitVec.ofNat 64 (e % ts.hart.vl * 4)).toNat 4 4 false).toOption.any (fun l => !ts.liveWord l) = true) := by decide +kernel
  refine ⟨sound_of _ (by decide +kernel), rfl, .inr ⟨rfl, by decide +kernel⟩, by decide +kernel, by decide +kernel, rfl, by decide +kernel, ?_, ?_, ?_⟩
  · exact readyOf _ _ (.inl (by decide +kernel)) (by decide +kernel)
  · exact readyOf _ _ (.inr (by decide +kernel)) (by decide +kernel)
  · intro e he; exact storableOf (key e he)

/-! ### Witnesses: engines, landing zones, events -/

/-- The test machine with a channel in a state. -/
def chs (c : Channel) : State := { vs with hart := { vs.hart with ch := vs.hart.ch.set 3 c } }
def localCopy : CopyCmd := { tag := .fp32, n := 4, vl := 4, xa := 0x7FF0000000000, xb := 0x7FF0000000004 }
def remoteCopy : CopyCmd := { form := .cpyR, tag := .fp32, n := 4, vl := 4, xa := 0x09000000, xb := 0x7FF0000000000 }
theorem wit_mine : Claim.mine us 1 := by refine ⟨?_, ?_, ?_⟩ <;> decide +kernel
/-- A byte of the hart that cannot go out to device 9, in a line of its core. -/
def stuckLine : RLine := { holder := .core 2, line := 2 ^ 51 + 9 * 2 ^ 40, data := 0, dirty := [{ off := 3, hid := 1, va := 0x200000003, byte := 7 }] }
def stuck : State := { vs with rcache := [stuckLine], domain := [0, 9], lost := [.device 9] }
theorem stuck_held : Claim.relHeld stuck { remoteCopy with rel := true } :=
  ⟨rfl, by decide +kernel, stuckLine, List.mem_singleton.2 rfl, by decide +kernel⟩
/-- A free channel, a running one, a failed one; a held release; a copy onto itself and a gather with a gap. -/
theorem wit_CopyCommands : (∃ o k, Claim.copyForm vs vs (.cpy 3 5 12 false) = some (3, o, k) ∧ Claim.ready vs vs o ∧ Claim.apart k) ∧
    vs.strip? = none ∧ (Claim.channel vs 3).state ≠ .failed ∧ (Claim.channel vs 3).state ≠ .running ∧
    (Claim.channel (chs { state := .running, cmd := some localCopy }) 3).state = .running ∧ ¬ Claim.relHeld vs localCopy ∧
    Claim.relHeld stuck { remoteCopy with rel := true } :=
  ⟨⟨_, _, rfl, readyOf _ _ (.inl (by decide +kernel)) (by decide +kernel), .inl (.inl rfl)⟩,
    rfl, by decide +kernel, by decide +kernel, rfl, (fun h => by cases h.1), stuck_held⟩
/-- A failed channel; a strided copy that overlaps itself. -/
theorem wit_EngineFaults : (Claim.channel (chs { state := .failed }) 3).state = .failed ∧ (Claim.channel vs 3).state = .idle ∧
    (∃ o k, Claim.copyForm vs vs (.cpy2 3 5 5 9 false) = some (3, o, k) ∧ Claim.ready vs vs o ∧ ¬ Claim.apart k ∧ ¬ Claim.relHeld vs k) := by
  refine ⟨by decide +kernel, by decide +kernel, _, _, rfl, readyOf _ _ (.inl (by decide +kernel)) (by decide +kernel), ?_, fun h => by cases h.1⟩
  rintro (h | h | h)
  · rcases h with h | h <;> revert h <;> decide +kernel
  · have := h 0 0 (by decide +kernel) (by decide +kernel); revert this; decide +kernel
  · have := h 0 0 (by decide +kernel) (by decide +kernel); revert this; decide +kernel
/-- Nothing outstanding; one batch outstanding. -/
theorem wit_CopyStatus : us.strip? = none ∧ Claim.clean us ∧
    ((Claim.channel (chs { state := .running, cmd := some localCopy }) 3).state = .running ∧ localCopy.batch = 0 ∧ [0].Nodup) :=
  ⟨by decide +kernel, ⟨rfl, by intro k hk; cases hk⟩, by decide +kernel, rfl, by decide⟩
def copying : State := chs { state := .running, cmd := some localCopy, dest := 0x7FF0000000000 }
/-- The first move and the last. -/
theorem wit_CopyElements : Safety.Sound copying ∧ Claim.copying copying 3 localCopy ∧ Claim.toEyelet localCopy = false ∧
    (Claim.channel copying 3).rem = false ∧ (Claim.channel copying 3).progress / Claim.moveElements localCopy < Claim.moveCount localCopy ∧
    copying.locateIn (Claim.copyContext copying localCopy) .load (Claim.sourceOf localCopy 3).toNat 4 4 false = .ok (.spad (2 * 0x200000 + 3 * 0x10000 + 16)) ∧
    copying.locateIn (Claim.copyContext copying localCopy) .store (Claim.targetAt localCopy 3).toNat 4 4 false = .ok (.spad (2 * 0x200000 + 3 * 0x10000 + 12)) ∧
    copying.liveWord (.spad (2 * 0x200000 + 3 * 0x10000 + 12)) = false ∧ copying.repairing = none ∧
    Claim.sane (Claim.sourced copying (.spad (2 * 0x200000 + 3 * 0x10000 + 16))) (.spad (2 * 0x200000 + 3 * 0x10000 + 16)) 4 ∧
    ¬ Claim.sane { copying with spadPoison := [(2 * 0x200000 + 3 * 0x10000, 0)] } (.spad (2 * 0x200000 + 3 * 0x10000 + 16)) 4 :=
  ⟨sound_of _ (by decide +kernel), ⟨by decide +kernel, by decide +kernel⟩, by decide +kernel, by decide +kernel, by decide +kernel,
    okOf (by decide +kernel), okOf (by decide +kernel), by decide +kernel, rfl, saneOf rfl rfl, (by unfold Claim.sane; decide +kernel)⟩

/-- A zone of four eyelets of 4 KiB at the start of the window; entry 0 full, entry 1 reserved for this device, entry 2 filling
from device 9, entry 3 torn. -/
def zone : Zone := ⟨2, 5, 1, 0, [3], 0, 4, 0⟩
def zw (k : Nat) : Nat := 2 * 0x200000 + 3 * 0x10000 + 8 * k
def zs : State :=
  { us with
    zones := [zone], domain := [0, 9], ports := us.ports.set 0 { us.ports[0] with state := .up }
    spad := Memory.writeN (Memory.writeN (Memory.writeN (Memory.writeN (Memory.writeN [] (zw 0) 8 1) (zw 32) 8 (3 * 2 ^ 32 + 2 ^ 31 + 16))
      (zw 33) 8 (1 * 2 ^ 32)) (zw 34) 8 (2 * 2 ^ 32 + 9 * 2 ^ 40)) (zw 35) 8 (4 * 2 ^ 32)
    fills := [⟨2, 5, 2, 0, some (.theirs 9 0x205 8 false), 8, false⟩]
    hart := { us.hart with
      x := Vector.ofFn fun k : Fin 32 => if k.val = 12 then 0x205 else if k.val = 13 then 5 * 2 ^ 16 + 3 else if k.val = 5 then 0x7FF0000000000
        else if k.val = 15 then 3 else if k.val = 16 then 0x09000000 else 0 } }
/-- The same with entry 2 free, so that nothing is filling. -/
def zq : State := { zs with spad := Memory.writeN zs.spad (zw 34) 8 0, fills := [] }
theorem zone_placed : Claim.placed zone := by refine ⟨?_, ?_, ?_⟩ <;> decide +kernel
theorem zs_sound : Safety.Sound zs := sound_of _ (by decide +kernel)
theorem wit_ZoneInit : let s : State := { zs with zones := [], fills := [] }
    Safety.Sound s ∧ s.strip? = none ∧ s.hart.place.pieces.Nodup ∧ (s.x 13).toNat < 2 ^ 20 ∧ (s.x 13).toNat / 2 ^ 11 % 32 = 0 ∧
    (s.x 13).toNat / 2 ^ 8 % 8 ≤ 6 ∧ (s.x 5).toNat % 4096 = 0 ∧ windowBase ≤ (s.x 5).toNat ∧
    Claim.firstEyelet zone + zone.slots * 4096 ≤ s.hart.place.pieces.length * 65536 ∧ s.drain.zones = [] ∧
    (∀ k, s.hart.disc.testBit k = true → (k + 1) * 4096 ≤ zone.base) := by
  refine ⟨sound_of _ (by decide +kernel), ?_⟩
  iterate 9 refine ⟨by decide +kernel, ?_⟩
  intro k hk
  rw [show (_ : State).hart.disc = 0 from rfl, Nat.zero_testBit] at hk; cases hk
/-- Reserved bits in the handle; no such zone; another owner; an eyelet the zone has not. -/
theorem wit_ZoneTraps : zs.strip? = none ∧ handleBad (zs.x 5) = true ∧ (handleBad (zs.x 12) = false ∧ ∀ z ∈ us.zones, ¬ (z.core = handleCore (zs.x 12) ∧ z.num = handleZone (zs.x 12))) ∧
    (let s : State := { zs with zones := [{ zone with owner := 2 }] }
     s.zoneAt (handleCore (s.x 12)) (handleZone (s.x 12)) = some { zone with owner := 2 } ∧ (2 : Nat) ≠ s.hart.place.hid) ∧
    handleDev (zs.x 12) = zs.device.val ∧ handleDev (zs.x 16) ≠ zs.device.val ∧
    Claim.owns zs.drain (zs.x 12) zone ∧ zone.slots ≤ (zs.x 13).toNat ∧ entrySt (zs.drain.entry zone 2) ≠ 3 := by
  iterate 6 refine ⟨by decide +kernel, ?_⟩
  exact ⟨⟨by decide +kernel, by decide +kernel⟩, by decide +kernel⟩
/-- A full entry to free; one filling; none filling; a message of no entries to receive; one whose first bytes are uncorrectable. -/
theorem wit_ZoneOwner : Safety.Sound zs ∧ zs.strip? = none ∧ Claim.owns zs.drain (zs.x 12) zone ∧ Claim.placed zone ∧
    ((zs.x 0).toNat < zone.slots ∧ entrySt (zs.drain.entry zone (zs.x 0).toNat) = 3) ∧ entrySt (zs.drain.entry zone 2) = 2 ∧
    (∀ k < 4, entrySt (zq.drain.entry zone k) ≠ 2) ∧ zq.drain.fills = [] ∧
    ((zs.drain.entry zone 0).testBit 31 = true ∧ Claim.payloadWord zs.drain zone 0 0 4 = 0 ∧ Tag.ofCode (Claim.payloadWord zs.drain zone 0 4 1) = some .none ∧
      Claim.payloadWord zs.drain zone 0 4 1 < 16 ∧ 16 ≤ zs.drain.entry zone 0 % 2 ^ 19 ∧ ∀ i, Claim.sane zs.drain (.spad i) 1) ∧
    (let at' := zone.byte (Claim.firstEyelet zone)
     ¬ Claim.sane { zs.drain with spadPoison := [(at', 0)] } (.spad at') 1) := by
  refine ⟨zs_sound, by decide +kernel, ⟨by decide +kernel, by decide +kernel⟩, zone_placed, ?_⟩
  iterate 4 refine ⟨by decide +kernel, ?_⟩
  refine ⟨?_, by unfold Claim.sane; decide +kernel⟩
  iterate 5 refine ⟨by decide +kernel, ?_⟩
  exact fun _ => saneOf rfl rfl
theorem zs_owner (h : Word) : Claim.ownerHere zs h := by
  intro z _ k hk _
  simp only [List.mem_cons] at hk
  rcases hk with rfl | hk
  · decide +kernel
  · cases hk
/-- A zone of this device, one of device 9, one of a device outside the domain; no path to device 9. -/
theorem wit_ZoneReservations : Safety.Sound zs ∧ zs.strip? = none ∧
    (handleBad (zs.x 12) = false ∧ (zs.x 12).toNat / 2 ^ 24 % 256 = zs.device.val ∧ zs.chipletsLost 0 (handleCore (zs.x 12) / 16) = false ∧
      Claim.ownerHere zs (zs.x 12) ∧ zs.zoneAt (handleCore (zs.x 12)) (handleZone (zs.x 12)) = some zone) ∧
    (handleBad (zs.x 16) = false ∧ (zs.x 16).toNat / 2 ^ 24 % 256 = 9 ∧ (∃ e ∈ zs.domain, e.val = 9) ∧ zs.unreachable 9 = false ∧
      ({ zs with lost := [.device 9] } : State).unreachable 9 = true ∧ ∀ e ∈ us.domain, e.val ≠ 9) :=
  ⟨zs_sound, by decide +kernel, ⟨by decide +kernel, by decide +kernel, by decide +kernel, zs_owner _, by decide +kernel⟩, by decide +kernel⟩
theorem wit_ZoneWaits : zs.strip? = none ∧ Claim.owns zs (zs.x 12) zone ∧ zs.zoneWord zone 0 ≠ 2 ∧ (zs.x 0).toNat ≤ zs.zoneWord zone 1 ∧
    zs.zoneWord zone 1 < (zs.x 15).toNat ∧ Claim.clean zs ∧
    ({ zs with spad := Memory.writeN zs.spad (zw 0) 8 2 } : State).zoneWord zone 0 = 2 :=
  ⟨by decide +kernel, ⟨by decide +kernel, by decide +kernel⟩, by decide +kernel, by decide +kernel,
    by decide +kernel, ⟨rfl, by intro k hk; cases hk⟩, by decide +kernel⟩
/-- A request for entry 1, accepted when reserved for device 9, and refused to it as it stands; payload for entry 2. -/
def zr : State := { zs with spad := Memory.writeN zs.spad (zw 33) 8 (1 * 2 ^ 32 + 9 * 2 ^ 40) }
theorem wit_ZoneServesDevices : Safety.Sound zs ∧ Claim.reachable zs 9 ∧ Claim.ownerHere zs 0x10000000205 ∧
    Claim.refusalOf zs 0x10000000205 9 8 none = some 7 ∧ Claim.refusalOf zr 0x10000000205 9 4096 none = none ∧
    Claim.refusalOf zr 0x10000000205 9 4097 none = some 9 ∧
    (zs.fillOf (.theirs 9 0x205 8 false) = some ⟨2, 5, 2, 0, some (.theirs 9 0x205 8 false), 8, false⟩ ∧ zs.zoneAt 2 5 = some zone ∧
      zs.entry zone 2 % 2 ^ 19 = 0 ∧ Claim.firstEyelet zone + zone.slots * 2 ^ (12 + zone.loge) ≤ zone.pieces.length * 65536) := by
  refine ⟨zs_sound, ⟨by decide +kernel, by decide +kernel⟩, zs_owner _, by decide +kernel⟩
/-- A transfer to device 9 before its first request; one whose first source is not mapped; one under way, and a message under way. -/
def sending (c : Channel) : State := { zs with hart := { zs.hart with ch := zs.hart.ch.set 3 c } }
theorem wit_TransfersLeave : Claim.mine (sending { state := .running, rem := true, cmd := some remoteCopy }) 1 ∧
    Claim.copying (sending { state := .running, rem := true, cmd := some remoteCopy }) 3 remoteCopy ∧ Claim.toEyelet remoteCopy = true ∧
    handleDev remoteCopy.xa ≠ zs.device.val ∧ zs.inDomain (handleDev remoteCopy.xa) = true ∧ zs.unreachable (handleDev remoteCopy.xa) = false ∧
    zs.repairing = none ∧ ticketBad remoteCopy.xa = false ∧
    (let s := sending { state := .running, rem := true, begun := true, sent := 1, cmd := some remoteCopy }
     (Claim.channel s 3).sent < remoteCopy.n ∧ (Claim.channel s 3).ahead = [] ∧
      ∃ l, s.locateIn (Claim.copyContext s remoteCopy) .load (remoteCopy.xb + BitVec.ofNat 64 4).toNat 4 4 false = .ok l ∧ Claim.sane (Claim.sourced s l) l 4) ∧
    (let k : CopyCmd := { remoteCopy with xb := 0x200000000 }
     ∃ r, zs.locateIn (Claim.copyContext zs k) .load k.xb.toNat 4 4 false = .error r) ∧
    (let k : CopyCmd := { form := .qsend, xa := 0x09000000, msg := List.replicate 16 0 }
     Claim.toEyelet k = true ∧ 8 < k.msg.length) := by
  refine ⟨⟨by decide +kernel, by decide +kernel⟩, ⟨by decide +kernel, by decide +kernel⟩, by decide +kernel,
    by decide +kernel, by decide +kernel, by decide +kernel, rfl, by decide +kernel, ⟨by decide +kernel, by decide +kernel, _, okOf (a := .spad (2 * 0x200000 + 3 * 0x10000 + 4)) (by decide +kernel),
    saneOf rfl rfl⟩, errorOf (by decide +kernel), by decide +kernel⟩
/-- A hart that waits for device 9's answer; a channel that has sent its eight bytes to device 9. -/
def answering : State := { zs with hart := { zs.hart with
  waiting := some (.reply 12 9)
  ch := zs.hart.ch.set 3 { state := .running, rem := true, begun := true, sent := 2, cmd := some remoteCopy } } }
theorem wit_DevicesAnswer : Claim.mine answering 1 ∧ answering.hart.waiting = some (.reply 12 9) ∧ Claim.copying answering 3 remoteCopy ∧
    (Claim.channel answering 3).rem = true ∧ (Claim.channel answering 3).begun = true ∧ handleDev remoteCopy.xa ≠ answering.device.val ∧
    (Claim.channel answering 3).progress < 8 ∧ 8 ≤ (Claim.channel answering 3).sent / Claim.moveElements remoteCopy * Claim.moveBytes remoteCopy := by
  refine ⟨⟨by decide +kernel, by decide +kernel⟩, by decide +kernel, ⟨by decide +kernel, by decide +kernel⟩,
    by decide +kernel⟩
/-- A hart that waits for a channel now free; a stream to prefetch. -/
def waitingCopy : State := { vs with hart := { vs.hart with
  waiting := some (.channel 3 localCopy [])
  streams := vs.hart.streams.set 2 ⟨true, 12, 0, .fp32, 0x7FF0000000000, 4, 0, []⟩ } }
theorem wit_EngineEvents : Claim.mine waitingCopy 1 ∧ waitingCopy.hart.waiting = some (.channel 3 localCopy []) ∧
    (Claim.channel waitingCopy 3).state = .idle ∧ Claim.apart localCopy ∧ ¬ Claim.relHeld waitingCopy localCopy ∧
    (waitingCopy.hart.streams[2].bound = true ∧ 0 < waitingCopy.hart.vl ∧
      waitingCopy.hart.vl * 32 ≤ 2 ^ waitingCopy.hart.streams[2].lgrp * (8192 * waitingCopy.hart.ge)) ∧
    ∀ i < 4, Claim.loadable waitingCopy 4 (waitingCopy.hart.streams[2].base + (waitingCopy.hart.streams[2].pos + BitVec.ofNat 64 (0 * 4 + i)) * waitingCopy.hart.streams[2].stride) := by
  refine ⟨⟨by decide +kernel, by decide +kernel⟩, by decide +kernel, by decide +kernel, .inl (.inl rfl), (fun h => by cases h.1), by decide +kernel, ?_⟩
  have key : ∀ i ∈ [0, 1, 2, 3], ((waitingCopy.locate .load (waitingCopy.hart.streams[2].base + (waitingCopy.hart.streams[2].pos + BitVec.ofNat 64 (0 * 4 + i)) * waitingCopy.hart.streams[2].stride).toNat 4 4 true).toOption.isSome = true) := by decide +kernel
  intro i hi
  exact loadableOf rfl rfl rfl (key i (by simp; omega))
/-- A transfer of eight bytes to the reserved entry of the hart's own zone, before its first request. -/
def landing : CopyCmd := { form := .cpyR, tag := .fp32, n := 2, vl := 2, xa := 0x10000000205, xb := 0x7FF0000006000 }
def transfer : State := { zs with hart := { zs.hart with ch := zs.hart.ch.set 3 { state := .running, rem := true, cmd := some landing } } }
/-- The same after its first request, with four of the eight bytes landed. -/
def moving : State := { transfer with
  fills := [⟨2, 5, 1, 0, some (.mine 1 3), 8, false⟩], spad := Memory.writeN transfer.spad (zw 33) 8 (2 * 2 ^ 32 + 4)
  hart := { transfer.hart with ch := transfer.hart.ch.set 3 { state := .running, rem := true, begun := true, sent := 1, progress := 4, cmd := some landing } } }
theorem transfer_owner : Claim.ownerHere transfer landing.xa := by
  intro z _ k hk _
  rcases List.mem_cons.1 hk with rfl | hk
  · decide +kernel
  · cases hk
theorem wit_LocalTransfers : Safety.Sound transfer ∧ Claim.copying transfer 3 landing ∧ (Claim.channel transfer 3).rem = true ∧
    Claim.toEyelet landing = true ∧ handleDev landing.xa = transfer.device.val ∧
    transfer.chipletsLost (transfer.hart.place.core / 16) (handleCore landing.xa / 16) = false ∧ (Claim.channel transfer 3).begun = false ∧
    Claim.refusalOf transfer landing.xa transfer.device.val 8 (some transfer.hart.place.part) = none ∧
    transfer.zoneAt (handleCore landing.xa) (handleZone landing.xa) = some zone ∧
    Claim.refusalOf { transfer with device := 7 } landing.xa 7 8 (some 0) = some 7 ∧ Claim.ownerHere transfer landing.xa ∧ transfer.repairing = none ∧
    (∃ l, transfer.locateIn (Claim.copyContext transfer landing) .load landing.xb.toNat 4 4 false = .ok l) ∧
    (let k : CopyCmd := { landing with xb := 0x200000000 }
     ∃ r, transfer.locateIn (Claim.copyContext transfer k) .load k.xb.toNat 4 4 false = .error r) := by
  refine ⟨sound_of _ (by decide +kernel), ⟨by decide +kernel, by decide +kernel⟩, ?_⟩
  iterate 8 refine ⟨by decide +kernel, ?_⟩
  exact ⟨transfer_owner, rfl,
    ⟨_, okOf (a := .spad (2 * 0x200000 + 3 * 0x10000 + 0x6000)) (by decide +kernel)⟩, errorOf (by decide +kernel)⟩
theorem wit_LocalTransfers_moving : Claim.copying moving 3 landing ∧ (Claim.channel moving 3).begun = true ∧ (Claim.channel moving 3).sent < landing.n ∧
    moving.fillOf (.mine 1 3) = some ⟨2, 5, 1, 0, some (.mine 1 3), 8, false⟩ ∧ handleCore landing.xa = 2 ∧
    handleZone landing.xa = 5 ∧ moving.zoneAt 2 5 = some zone ∧
    moving.entry zone 1 % 2 ^ 19 = (Claim.channel moving 3).sent / Claim.moveElements landing * Claim.moveBytes landing ∧
    moving.locateIn (Claim.copyContext moving landing) .load (landing.xb + BitVec.ofNat 64 4).toNat 4 4 false = .ok (.spad (2 * 0x200000 + 3 * 0x10000 + 0x6004)) := by
  refine ⟨⟨by decide +kernel, by decide +kernel⟩, ?_⟩
  iterate 7 refine ⟨by decide +kernel, ?_⟩
  exact okOf (by decide +kernel)

/-! ### Witnesses: harts, the scheduler, the fabric, the device -/

/-- Waiting at a monitor with nothing copying. -/
def waits (w : Wait) : State := withHart fun h => { h with phase := .monitor, waiting := some w }
theorem wit_HartsLookAgain : Claim.mine (waits (.copies 31)) 1 ∧ (waits (.copies 31)).strip? = none ∧ Claim.settledCopies (waits (.copies 31)) ∧
    (waits (.copies 31)).hart.phase = .monitor ∧ us.hart.phase ≠ .monitor ∧
    (waits (.location true 12 (Claim.size true) .dev (us.x 10) (us.x 8))).hart.waiting =
      some (.location true 12 (Claim.size true) .dev ((waits (.copies 31)).x 10) ((waits (.copies 31)).x 8)) := by
  refine ⟨⟨by decide +kernel, by decide +kernel⟩, by decide +kernel, by unfold Claim.settledCopies; decide +kernel,
    by decide +kernel⟩
/-- Each of the three events, at the level that takes it and at one that does not; a reclaim. -/
theorem wit_AsynchronousEvents : Claim.mine us 1 ∧ us.hart.phase = .active ∧ Claim.takes us.hart ∧ ¬ Claim.takes ks.hart ∧ ¬ Claim.takes ms.hart ∧
    (withHart fun h => { h with pend21 := some 2 }).hart.pend21 = some 2 ∧
    (withHart fun h => { h with pend20 := some true }).hart.pend20 = some true ∧
    (withHart fun h => { h with pend22 := some 7 }).hart.pend22 = some 7 ∧
    (withHart fun h => { h with reclaim := some 1 }).hart.reclaim = some 1 ∧ us.hart.reclaim = none := by
  unfold Claim.takes
  exact ⟨wit_mine, by decide +kernel⟩
def draining : Launch := { id := 1, queue := 0, part := 0, words := [0, 0, 0, 0, 0x100000000, 5, 1, 0], state := .draining }
def ending : State := { us with launches := [draining], hart := { us.hart with phase := .ended } }
theorem wit_EndOfHartsAndLaunches : Claim.mine us 1 ∧
    ((withHart fun h => { h with pc := 0x7FFFFFFFFFFF0 }).hart.pc = 0x7FFFFFFFFFFF0 ∧ us.hart.waiting = none) ∧
    us.hart.pc ≠ 0x7FFFFFFFFFFF0 ∧
    (Safety.Sound ending ∧ ending.launchOf 1 = some draining ∧ draining.state = .draining ∧ (∀ c ∈ ending.hart.ch.toList, c.state ≠ .running) ∧
      ending.rcache = [] ∧ draining.word 4 ≠ 0 ∧ ending.schedLocate 0 .store (draining.word 4).toNat 8 = .ok 0x18000 ∧
      localOrHost 0x18000 = true ∧ ending.liveWord (.phys 0x18000) = false ∧ (draining.word 4).toNat % 8 = 0) ∧
    (let s : State := { ending with rcache := [stuckLine], domain := [0, 9], lost := [.device 9] }
     s.turnedAway stuckLine.device stuckLine.line = true ∧ ∃ d ∈ stuckLine.dirty, ∃ j ∈ s.hart :: s.parked, j.place.launch = draining.id ∧ j.phase = .ended ∧ j.place.hid = d.hid) := by
  refine ⟨wit_mine, by decide +kernel, by decide +kernel, ⟨sound_of _ (by decide +kernel), by decide +kernel, by decide +kernel, by decide +kernel,
    by decide +kernel, by decide +kernel, okOf (by decide +kernel), by decide +kernel⟩, by decide +kernel⟩

/-- The save areas lie in one mapped region of 512 GiB. -/
def areas (s : State) : State :=
  { s with
    mem := Memory.writeN s.mem 0x7FE0 8 0x1B
    parts := s.parts.set 0 { s.parts[0] with en := true, size := 768, core0 := 4, count := 1 } }
def leaving : State := areas (withHart fun h => { h with waiting := some .switchOut, place := { h.place with saveslot := 1 }, priv := { h.priv with level := .kernel } })
/-- The regions that a switch-out of a hart saves, as offsets and lengths. -/
def saves (s : State) : Hart × List (Nat × Nat) :=
  let k := { (s.readCycle).2.hart with instret := s.hart.instret + 1 }
  (k, (k.regions s.spad k.priv.epc k.priv.ppl.toNat (s.ownsZone 1)).map fun r => (r.1, r.2.1))
/-- A hart at rest; one whose transfer runs; one with an uncorrectable accumulator; one whose area is not mapped. -/
theorem wit_SwitchOut : Safety.Sound leaving ∧ Claim.mine leaving 1 ∧ leaving.hart.waiting = some .switchOut ∧ Claim.settledCopies leaving ∧
    (¬ ∃ c ∈ leaving.hart.ch.toList, c.rem = true ∧ c.state = .running) ∧ ¬ Claim.unreadable leaving (leaving.ownsZone 1) ∧ Claim.areaFits leaving.hart ∧
    (∃ pages, (leaving.readCycle).2.areaPages (saves leaving).1 (regionPages (saves leaving).2) = .ok pages ∧ Claim.pagesApart pages) ∧
    (∃ c ∈ (withHart fun h => { h with ch := h.ch.set 0 { state := .running, rem := true } }).hart.ch.toList, c.rem = true ∧ c.state = .running) ∧
    Claim.unreadable (withHart fun h => { h with e := h.e.set 3 { h.e[3] with poison := true } }) false ∧
    ∃ e, (us.readCycle).2.areaPages (saves us).1 (regionPages (saves us).2) = .error e := by
  refine ⟨sound_of _ (by decide +kernel), ⟨by decide +kernel, by decide +kernel⟩, by decide +kernel,
    by unfold Claim.settledCopies; decide +kernel, by decide +kernel, ?_, ⟨by decide +kernel, by decide +kernel, ?_, by decide +kernel⟩,
    okAnd (P := fun (l : List (Nat × Nat)) => ∀ e ∈ l, ∀ f ∈ l, e.1 ≠ f.1 → e.2 + 32768 ≤ f.2 ∨ f.2 + 32768 ≤ e.2) ?_, by decide +kernel, .inr (.inr (.inr (.inl ⟨3, by decide +kernel⟩))), errorOf (by decide +kernel)⟩
  · rintro (h | h | h | h | ⟨c, h, _⟩ | h)
    case inr.inr.inr.inr.inl => rw [show leaving.hart.tile = none from rfl] at h; cases h
    all_goals revert h; decide +kernel
  · intro st h; rw [show leaving.hart.strip = none from rfl] at h; cases h
  · decide +kernel
/-- A switched-out hart whose saved context is zero but for FORMAT, Ge and VLCAP. -/
def away : State := { areas us with
  mem := Memory.writeN (Memory.writeN (Memory.writeN (areas us).mem (0x800000 + 0x208) 8 1) (0x800000 + 0x228) 8 16) (0x800000 + 0x330) 8 0x401
  hart := { testHart with phase := .switched, place := { testHart.place with saveslot := 1, harts := 1 } }
  launches := [{ id := 1, queue := 0, part := 0, words := [0, 0, 0, 0, 0, 0, 1 + 2 ^ 24, 0], state := .running, placed := 1, grant := 1 }] }
def placeBack : Hold := ⟨1, 2, 0, 0, 1, [0]⟩
def awayCore : State := (away.freshCore 2 1).freshCore 2 1
def areaOf : List (Nat × Nat) := (regionPages (awayCore.savedRegions [(0, 0x800000)] 1)).map fun p => (p.1, 0x800000 + 0x8000 * p.1)
theorem away_winner : ∃ l, away.winner 0 = some (l, .restore [placeBack]) := by
  have h : (away.winner 0).map Prod.snd = some (.restore [placeBack]) := by decide +kernel
  cases e : away.winner 0 with
  | none => rw [e] at h; cases h
  | some x => rw [e] at h; exact ⟨x.1, by cases x; cases h; rfl⟩
theorem wit_HartRestore : away.hart.place.hid = 1 ∧ away.hart.phase = .switched ∧ away.parked = [] ∧ away.repairing = none ∧ away.mayPlace 0 = true ∧
    (∃ l, away.winner 0 = some (l, .restore [placeBack])) ∧ placeBack.hid = 1 ∧
    awayCore.areaPages awayCore.hart [(0, 0)] = .ok [(0, 0x800000)] :=
  ⟨rfl, rfl, rfl, rfl, by decide +kernel, away_winner, rfl, okOf (by decide +kernel)⟩
theorem wit_HartRestore_pages :
    awayCore.areaPages awayCore.hart (regionPages (awayCore.savedRegions [(0, 0x800000)] 1)) = .ok areaOf := okOf (by decide +kernel)
theorem wit_HartRestore_context : awayCore.poison = [] ∧ (awayCore.readContext areaOf awayCore.hart placeBack).isSome = true := by
  decide +kernel
/-- A launch ready to be placed on core 2. -/
def ready1 : Launch := { id := 1, queue := 0, part := 0, words := [0x100000000, 0, 0, 0, 0, 0, 1 + 2 ^ 24, 0], state := .ready }
def emp : State := { areas State.reset with
  nextLaunch := 2, launches := [ready1]
  scheds := State.reset.scheds.set 0 { State.reset.scheds[0] with quant := 1 }
  service := { State.reset.service with ready := BitVec.allOnes 33 }, accepted := true }
/-- A window write of a whole packet, of part of one, behind the window. -/
theorem wit_QueueWindows : us.service.ready.getLsbD 0 = true ∧ (List.replicate 64 (0 : Byte)).length = 64 ∧ 0x3F < 0x40 ∧
    us.silent = false ∧ State.reset.service.ready.getLsbD 0 = false := by decide +kernel
/-- A packet that is accepted, one that is rejected (no harts), and one whose dependence is not met. -/
def offering (w : List Word) : State := { emp with launches := [], nextLaunch := 1, queues := [(0, { packets := [w] })] }
theorem wit_PacketAcceptance : (let s := offering ready1.words
      Safety.Sound s ∧ s.queueOwner 0 = some 0 ∧ s.service.ready.getLsbD 1 = true ∧ s.service.state ≠ 3 ∧
      (∃ c ∈ s.partCores 0, s.service.ready.getLsbD (2 + c / 16) = true) ∧
      (∀ n < 33, s.service.slept.getLsbD n = true → s.service.ready.getLsbD n = true) ∧ (s.queue 0).head = none ∧ (s.queue 0).packets = [ready1.words] ∧
      (∀ l ∈ s.launches, l.id ≠ s.nextLaunch) ∧ ¬ Claim.refusedPacket s (Claim.launchFrom s 0 0 ready1.words) ∧
      Claim.dependenceMet s (Claim.launchFrom s 0 0 ready1.words)) ∧
    (let w : List Word := [0x100000000, 0, 0, 0, 0, 0, 0, 0]
     Claim.refusedPacket (offering w) (Claim.launchFrom (offering w) 0 0 w)) ∧
    (let s : State := { offering ready1.words with service := { us.service with slept := 4, ready := BitVec.allOnes 33 - 4 } }
     ∃ n, s.service.slept.getLsbD n = true ∧ s.service.ready.getLsbD n = false) := by
  refine ⟨⟨sound_of _ (by decide +kernel), ?part⟩, .inr (.inr (.inl (by decide +kernel))), ⟨2, by decide +kernel⟩⟩
  iterate 8 refine ⟨by decide +kernel, ?_⟩
  refine ⟨?_, .inl (by decide +kernel)⟩
  rintro (h | ⟨h, _⟩ | h | h | h | h | h | h | h | h | h | h)
  case inr.inr.inr.inr.inr.inr.inr.inr.inl => exact h (.inl (by decide +kernel))
  case inr.inr.inr.inr.inr.inr.inr.inr.inr.inl => exact h (.inl (by decide +kernel))
  all_goals first | (unfold Claim.packetMalformed at h; revert h; decide +kernel) | (revert h; decide +kernel)
/-- The same packet with a bit of its last word set, or with its entry no multiple of 4: each alone refuses it. -/
theorem wit_PacketAcceptance_refusals : Claim.packetMalformed (Claim.launchFrom emp 0 0 [0x100000000, 0, 0, 0, 0, 0, 1 + 2 ^ 24, 1]) ∧
    Claim.packetMalformed (Claim.launchFrom emp 0 0 [0x100000002, 0, 0, 0, 0, 0, 1 + 2 ^ 24, 0]) := by
  unfold Claim.packetMalformed; decide +kernel
/-- A dependence word in HBM, met and not met, and one in host memory. -/
def depend (dep val : Word) : State := { us with
  mem := Memory.writeN (Memory.writeN us.mem 0x8108 8 0x20001) 0x20000 8 (0x1000000000000 + 0x7B)
  launches := [{ id := 1, queue := 0, part := 0, words := [0, 0, dep, val, 0, 0, 1, 0], state := .waiting }], queues := [(0, { head := some 1 })] }
theorem wit_DependenceChecks : (((depend 0x100000000 0).launchOf 1).map fun l => (l.state, l.word 2)) = some (.waiting, 0x100000000) ∧
    ((depend 0x100000000 0).queue 0).head = some 1 ∧ ((depend 0x100000000 0).launchOf 1).isSome = true ∧
    (depend 0x100000000 0).schedLocate 0 .load 0x100000000 8 = .ok 0x18000 ∧ targetOf 0x18000 ≠ .host ∧
    (0 : Word).toNat ≤ Memory.readN (depend 0x100000000 0).mem 0x18000 8 ∧ ¬ (1 : Word).toNat ≤ Memory.readN (depend 0x100000000 1).mem 0x18000 8 ∧
    (depend 0x108000000 0).schedLocate 0 .load 0x108000000 8 = .ok 0x1000000000000 ∧ targetOf 0x1000000000000 = .host := by
  refine ⟨by decide +kernel, by decide +kernel, by decide +kernel, okOf (by decide +kernel), by decide +kernel, by decide +kernel, by decide +kernel, okOf (by decide +kernel), by decide +kernel⟩
/-- The same once time has passed. -/
def aged (n : Nat) (q : List (Nat × Queue)) : State := { emp with time := n, freeCtr := 1, queues := q }
/-- The only candidate is chosen. -/
theorem pick_one (s : State) (l : Launch) (h : s.awayHarts l = []) : s.pick [l] = some l := by
  simp [State.pick, h, inOrder, putIn]
set_option maxRecDepth 20000 in
theorem aged_candidates (n : Nat) (q : List (Nat × Queue)) : (aged n q).candidates 0 = [ready1] := by
  have h : (aged n q).launches.filter (fun l => l.part == 0 && (aged n q).isCandidate l) = [ready1] := rfl
  simp only [State.candidates, h, List.length_singleton, State.ranked, pick_one (aged n q) ready1 rfl]
theorem aged_topUp (n : Nat) : (aged n []).topUp 0 = aged n [(0, { deficit := 1 })] := by
  simp only [State.topUp, aged_candidates, List.filter, beq_self_eq_true]
  rfl
theorem aged_reserve (n : Nat) (q : List (Nat × Queue)) : (aged n q).reserveLaunch 0 = aged n q := by
  have h : ((aged n q).partOf 0).reserved.isSome = false := rfl
  have hc : ready1.cores = false := by decide +kernel
  simp [State.reserveLaunch, h, aged_candidates, hc, inOrder]
theorem aged_plan : (aged (0 + Config.elapsed 0) [(0, { deficit := 1 })]).plan ready1 = some (.place 0 1 [⟨0, 2, 0, 0, 1, [0]⟩]) := by
  decide +kernel
theorem wit_Placement : (emp.partOf 0).en = true ∧ emp.service.state.val ≤ 1 ∧ (State.reset.partOf 0).en = false ∧
    (let u := ((emp.tick.topUp 0).dropReserved 0).reserveLaunch 0
     u.candidates 0 = [ready1] ∧ u.launchOf 1 = some ready1 ∧ u.plan ready1 = some (.place 0 1 [⟨0, 2, 0, 0, 1, [0]⟩]) ∧ u.rcache = []) := by
  refine ⟨by decide +kernel, by decide +kernel, by decide +kernel, ?_⟩
  have e : ((emp.tick.topUp 0).dropReserved 0).reserveLaunch 0 = aged (0 + Config.elapsed 0) [(0, { deficit := 1 })] := by
    rw [show emp.tick = aged (0 + Config.elapsed 0) [] from rfl, aged_topUp]; exact aged_reserve _ _
  rw [e]
  exact ⟨aged_candidates _ _, rfl, aged_plan, rfl⟩
/-- A rack address that is accepted and one that is not; reports on and off. -/
def racked : State := { us with
  parts := us.parts.set 0 { us.parts[0] with count := 1 }
  scheds := us.scheds.set 0 { us.scheds[0] with racken := true, rackaddr := 5, rptint := 9 } }
theorem wit_RackMessages : racked.queueOwner 0 = some 0 ∧ Claim.rackAccepts racked 5 0 ∧ ¬ Claim.rackAccepts racked 6 0 ∧
    racked.silent = false ∧ racked.service.ready.getLsbD 0 = true ∧ (racked.partOf 0).en = true ∧ (racked.scheds[0]).rptint ≠ 0 ∧ (us.scheds[0]).rptint = 0 := by
  unfold Claim.rackAccepts; decide +kernel
/-- A partition that can be enabled, one that cannot, one that is busy, one that is not. -/
theorem wit_PartitionSwitches : (us.partOf 1).en = false ∧ us.canEnable 1 = true ∧
    (let s : State := { us with parts := us.parts.set 1 { us.parts[1] with first := 1024, count := 1 } }; (s.partOf 1).en = false ∧ s.canEnable 1 = false) ∧
    us.partBusy 0 = true ∧ (emp.partOf 0).en = true ∧ emp.partBusy 0 = false ∧
    (emp.launches.map Launch.id).Nodup ∧ (∀ l ∈ emp.launches, l.id < emp.nextLaunch) ∧
    (let s : State := { emp with launches := [{ ready1 with state := .waiting }] }
     s.partBusy 0 = false ∧ ∀ l ∈ s.launches, l.part = 0 → l.state = .waiting → l.word 4 = 0) := by decide +kernel

/-- A path within the domain, with a copy and a fill over it; the same path lost already. -/
def crossing : State := { zs with hart := { zs.hart with ch := zs.hart.ch.set 3 { state := .running, rem := true, begun := true, cmd := some remoteCopy } } }
theorem wit_PathLost : Safety.Sound crossing ∧ Claim.losable crossing (.device 9) ∧ ((crossing.hart :: crossing.parked).map fun k => k.place.hid).Nodup ∧
    crossing.lost ++ crossing.lostGood = [] ∧ crossing.fills.filter (fun f => crossing.fillOver (.device 9) f) = [⟨2, 5, 2, 0, some (.theirs 9 0x205 8 false), 8, false⟩] ∧
    crossing.zoneAt 2 5 = some zone ∧ Claim.placed zone ∧ 2 < zone.slots ∧ samePath (.device 9) (.device 9) = true := by
  refine ⟨sound_of _ (by decide +kernel), ?_, by decide +kernel, rfl, by decide +kernel, rfl, zone_placed, by decide +kernel⟩
  constructor <;> decide +kernel
/-- Two eyelets of the zone go with the path: one FILLING and one RESERVED for its sender. -/
def twice : State := { crossing with spad := zr.spad, fills := crossing.fills ++ [⟨2, 5, 1, 0, none, 0, false⟩] }
theorem wit_PathLost_two : Safety.Sound twice ∧ Claim.losable twice (.device 9) ∧
    (twice.fills.filter fun f => twice.fillOver (.device 9) f).length = 2 ∧
    (∀ f ∈ twice.fills, twice.zoneAt f.core f.zone = some zone ∧ f.slot < zone.slots) ∧ ¬ Claim.losable twice (.device 0) := by
  refine ⟨sound_of _ (by decide +kernel), ?_, by decide +kernel, by decide +kernel, ?_⟩
  · constructor <;> decide +kernel
  · rintro ⟨h, _⟩; revert h; decide +kernel
/-- Every link of the welt has failed; none has. -/
def apart : State := { us with welt := { us.welt with fail := BitVec.allOnes 32 } }
theorem no_lead (c d : Fin 8) (h : c ≠ d) : ¬ Claim.leads apart.welt.cur apart.welt.fail d 3 c := by
  rintro (e | ⟨k, e, _⟩)
  · exact h e
  · rw [show apart.welt.fail = BitVec.allOnes 32 from rfl, BitVec.getLsbD_allOnes] at e
    have := c.isLt
    simp at e; omega
theorem wit_PathLost_welt : Claim.losable apart (.chiplets 0 1) ∧ Claim.mayGo apart (.chiplets 0 1) ∧ Claim.mayReturn us (.chiplets 0 1) := by
  refine ⟨⟨by decide, .inl fun h => no_lead 0 1 (by decide) h.1⟩, ⟨fun h => no_lead 0 1 (by decide) h.1, 0, 1, ?_⟩, by decide +kernel, ?_, ?_⟩
  · rintro (h | ⟨l, hl, e, _⟩)
    · revert h; decide
    · rw [show apart.welt.fail = BitVec.allOnes 32 from rfl, BitVec.getLsbD_allOnes] at e
      simp at e; omega
  · exact .inr ⟨by decide +kernel, by decide +kernel, .inl (by decide +kernel)⟩
  · exact .inr ⟨by decide +kernel, by decide +kernel, .inl (by decide +kernel)⟩
def cut : State := { crossing with lost := [.device 9], torn := [⟨.device 9, 2, 5, none, false⟩] }
/-- A lost path with a live port; the same with none; one that is not lost; a transfer whose last acknowledgement was lost. -/
theorem wit_PathsReturn : Safety.Sound cut ∧ Claim.isLost cut (.device 9) ∧ ¬ Claim.isLost crossing (.device 9) ∧ Claim.mayReturn cut (.device 9) ∧
    cut.zoneAt zone.core zone.num = some zone ∧ Claim.placed zone ∧
    (∃ e ∈ cut.torn, samePath (.device 9) e.path = true ∧ e.full = false ∧ e.core = zone.core ∧ e.zone = zone.num) ∧
    (∀ e ∈ cut.torn, ∀ y, cut.zoneAt e.core e.zone = some y → y = zone) ∧
    (let s : State := { cut with ports := us.ports }; Claim.isLost s (.device 9) ∧ Claim.mayGo s (.device 9) ∧ ¬ Claim.mayReturn s (.device 9)) ∧
    (let s : State := { cut with torn := [⟨.device 9, 2, 5, some 0x205, true⟩] }; ∀ e ∈ s.torn, samePath (.device 9) e.path = true → e.full = true) := by
  refine ⟨sound_of _ (by decide +kernel), ?_, ?_, ⟨0, by decide +kernel⟩, by decide +kernel, zone_placed, by decide +kernel, ?_, ⟨?_, ?_, ?_⟩, by decide +kernel⟩
  · unfold Claim.isLost; decide +kernel
  · unfold Claim.isLost; decide +kernel
  · intro e he y hy
    rcases List.mem_singleton.1 he with rfl
    rw [show cut.zoneAt _ _ = some zone from rfl] at hy; cases hy; rfl
  · unfold Claim.isLost; decide +kernel
  · intro p; revert p; decide +kernel
  · rintro ⟨p, h⟩; revert p; decide +kernel
/-- Staged tables that may be committed, as after reset, and the same with an older generation pending. -/
theorem wit_WeltRegisters : us.welt.stg = us.welt.cur ∧ us.welt.pend = false ∧ ¬ Claim.committable { us.welt with pend := true } ∧
    (∀ c d : Fin 8, (c = d → Claim.linkOf us.welt.stg c d = 7) ∧ (c ≠ d → Claim.linkOf us.welt.stg c d < 4)) := by
  exact ⟨rfl, by decide +kernel, fun h : Claim.committable _ => absurd h.1 (by decide), by decide +kernel⟩
/-- A port in each state, with a key ready, and at its last counter. -/
def ported (k : Port) : State := { us with ports := us.ports.set 1 k }
theorem wit_PortEvents : (ported { state := .training }).ports[1].state = .training ∧ (ported { state := .up }).ports[1].state = .up ∧
    (let k := (ported { state := .up, keyx := true }).ports[1]; k.keyx = true ∧ k.trdy = false ∧ k.state = .up) ∧
    (let k := (ported { state := .up, trdy := true }).ports[1]; k.trdy = true ∧ k.state ≠ .failed ∧ k.replay = []) ∧
    (let s := ported { state := .up, ncnt := 0xFFFFFFFF }
     s.ports[1].keyx = false ∧ s.ports[1].trdy = false ∧ (s.traffic 1).ports[1].ncnt = 0xFFFFFFFF) ∧
    us.ports[1].state = .down ∧ (ported { state := .failed }).ports[1].state = .failed := by decide +kernel
/-- A flit of 129 words with equal stamps arrives at a port that is up; at one that is down. -/
theorem wit_FlitsReceived : (ported { state := .up }).ports[1].state = .up ∧ (List.replicate 129 (0 : BitVec 72)).length = 129 ∧
    stampsOf none ((List.replicate 129 (0 : BitVec 72)).headD 0) = .fine ∧ us.ports[1].state ≠ .up := by decide +kernel
theorem wit_PowerStates : Claim.busyForStandby { us with service := { us.service with retstat := 1 } } ∧ ¬ Claim.busyForStandby us := by
  refine ⟨.inr (.inr rfl), ?_⟩
  rintro (⟨l, h, _⟩ | ⟨k, h, e⟩ | h)
  · cases h
  · rcases List.mem_cons.1 h with rfl | h
    · revert e; decide +kernel
    · cases h
  · revert h; decide +kernel
/-- Temperatures on both sides of 105 and of 115. -/
theorem wit_BringUp : 105 < (106 : BitVec 8).toNat ∧ (105 : BitVec 8).toNat ≤ 105 ∧ State.reset.service.tmax.toNat ≤ 115 ∧
    (let s : State := { us with service := { us.service with tmax := 116 } }; 115 < s.service.tmax.toNat) ∧
    State.reset.accepted = false ∧ us.accepted = true := by decide +kernel
/-- The host's own function, a function of no partition; a slot with a hart, one without. -/
theorem wit_HostInterruptsAndSnapshots : Claim.reaches us 0 2 ∧ ¬ Claim.reaches us 8 2 ∧
    (us.hart.place.core = (2 : Fin 128).val ∧ us.hart.place.slot = (0 : Fin 16).val ∧ us.hart.phase = .active ∧ us.hart.pend22 = none ∧ us.parked = []) := by
  refine ⟨.inl rfl, ?_, by decide +kernel⟩
  unfold Claim.reaches; decide +kernel
theorem wit_Retirement : us.service.retstat ≠ 1 ∧ us.retiring = [] ∧ us.zones = [] ∧ us.service.retaddr.toNat < 0xC000000000 ∧ us.repairing = none ∧
    ({ us with repairing := some 0xBFFFFFFFFF } : State).repairing = some 0xBFFFFFFFFF ∧
    (∃ k ∈ us.hart :: us.parked, (k.phase = .active ∨ k.phase = .monitor) ∧ k.place.core = 2 ∧ k.place.cbase ≤ 0 ∧ 0 < k.place.cbase + k.place.grant) := by
  iterate 6 refine ⟨by decide +kernel, ?_⟩
  exact ⟨us.hart, by simp, by decide +kernel⟩
/-- The page lies in stack 1, in the row under repair. -/
def mending : State := { us with
  mem := Memory.writeN us.mem 0x10000 8 0xC0000007B, repairing := some 0xC00000000
  parts := us.parts.set 0 { us.parts[0] with size := 64 } }
/-- A live zone on the core; a row under repair that a load meets; an address outside HBM4. -/
theorem wit_Retirement_zone : (∃ z ∈ zs.zones, z.core = 2) ∧
    (∀ z ∈ zs.zones, z.core = 2 → ∃ k ∈ zs.hart :: zs.parked, k.place.hid = z.owner ∧ k.phase ≠ .empty) ∧
    ((zs.hart :: zs.parked).map fun k => k.place.hid).Nodup ∧ zs.service.retstat ≠ 1 ∧
    (Claim.loadForm (.ld 12 10 0) = some (8, false, 12, 10, 0) ∧ Claim.address mending 10 0 % 8 = 0 ∧ Claim.address mending 10 0 < windowBase ∧
      mending.drain.translate mending.drain.hart.ctx .load (Claim.address mending 10 0) = .ok 0xC00000000 ∧ targetOf 0xC00000000 = .hbm ∧
      mending.drain.inRange mending.drain.hart.place.part 0xC00000000 8 = true ∧ mending.drain.stackReady 0xC00000000 = true ∧
      mending.drain.stackLost mending.drain.hart.place.core 0xC00000000 = false ∧ mending.repairing = some 0xC00000000) ∧
    (let s : State := { us with service := { us.service with retaddr := 0xC000000000 } }; 0xC000000000 ≤ s.service.retaddr.toNat) := by
  iterate 4 refine ⟨by decide +kernel, ?_⟩
  refine ⟨⟨rfl, by decide +kernel, by decide +kernel, okOf (by decide +kernel), by decide +kernel,
    by decide +kernel, by decide +kernel, rfl, rfl⟩, by decide +kernel⟩
/-- The first and the last address of stack 1. -/
theorem wit_MemoryErrors : 0xC00000000 / (48 * 2 ^ 30) = 1 ∧ 0x17FFFFFFFF / (48 * 2 ^ 30) = 1 ∧ 0x1800000000 / (48 * 2 ^ 30) ≠ 1 := by decide
/-- A virtual function reaches HBM of its partition, and host memory; the physical function reaches host memory alone. -/
def hosted : State := { us with parts := us.parts.set 0 { us.parts[0] with pfunc := 1 } }
theorem wit_HostAccesses : Safety.Sound hosted ∧ hosted.silent = false ∧ Claim.hostMay hosted 1 0x3FFFFFFF ∧ ¬ Claim.hostMay hosted 1 0x40000000 ∧
    ¬ Claim.hostMay hosted 0 0x3FFFFFFF ∧ Claim.hostMay hosted 0 0x1000000000000 ∧
    hosted.liveWord (.phys 0x3FFFFFFF) = false ∧ poisoned hosted.poison 0x3FFFFFFF 1 = false ∧ 0x1000000000000 + 1 ≤ 2 ^ 52 ∧
    (let s : State := { zs with rcache := [stuckLine] }
     ∀ l ∈ s.rcache, (∀ k ∈ s.rcache, k.holder = l.holder → k.line = l.line → k = l) ∧ l.dirty ≠ [] ∧ s.turnedAway l.device l.line = false ∧
      ({ s with lost := [.device 9] } : State).turnedAway l.device l.line = true ∧
      ∀ d ∈ l.dirty, d.half = none ∧ ∀ e ∈ l.dirty, e.off % 128 = d.off % 128 → e = d) := by
  refine ⟨sound_of _ (by decide +kernel), rfl, ?_, ?_, ?_, ?_, ?_⟩
  all_goals first | decide +kernel | (unfold Claim.hostMay; decide +kernel)
theorem wit_StepKeepsSound : Safety.Sound us ∧ ∃ t, step { us with agenda := [.ps1Capped] } = .next t := by
  refine ⟨us_sound, ?_⟩
  show ∃ t, (if State.hears { us with agenda := [.ps1Capped] } .ps1Capped then exec .ps1Capped { us with agenda := [] }
    else .next { us with agenda := [] }) = .next t
  split <;> exact ⟨_, rfl⟩
theorem wit_EncodeDecode : Instr.wf (.add 5 6 12) = true ∧ Instr.isEvent (.add 5 6 12) = false := by decide +kernel
theorem wit_MemoryLaws : Memory.wf testMem = true ∧ Memory.wf ([] : List Host.Cell) = true := by decide +kernel
/-- A word stands at the pc of a hart that runs; an event is due; a chance has come; the power is off. -/
def stepping : State := { us with mem := Memory.writeN us.mem 0x18000 4 0x00186281 }
theorem wit_StepRunsTheDecodedInstruction : Claim.runs stepping ∧ Claim.wordStands stepping stepping.hart.pc (.phys 0x18000) 0x00186281 ∧
    isLeading 0x00186281 = false ∧ Instr.isEvent .fire = true ∧
    (let s : State := { stepping with chances := [.dropEntry 0] }; s.agenda = [] ∧ s.power = true) ∧
    (let s : State := { stepping with power := false }; s.agenda = [] ∧ s.power = false) := by
  refine ⟨⟨rfl, rfl, rfl, by decide +kernel, rfl, by decide +kernel, .inl (by decide +kernel)⟩, ⟨okOf (by decide +kernel), readableOf rfl rfl rfl, by decide, ?_⟩,
    by decide +kernel⟩
  intro k hk
  have : ∀ k ∈ List.range 4, BitVec.ofNat 8 (0x00186281 >>> (8 * k)) =
      Claim.seen (Claim.near stepping (.phys 0x18000)) stepping.hart.place.core stepping.hart.place.hid (Claim.plus (.phys 0x18000) k) := by decide +kernel
  exact this k (List.mem_range.2 hk)
theorem wit_StepRunsTheDecodedInstruction_decodes : Claim.decodesTo 0x00186281 127 (.add 5 6 12) false ∧ Claim.decodesTo 0x0 127 (.add 5 6 12) false = False := by
  refine ⟨by unfold Claim.decodesTo; decide +kernel, ?_⟩
  rw [eq_iff_iff, iff_false]; unfold Claim.decodesTo; decide +kernel
/-- Another hart of the machine, and a number that none has. -/
theorem wit_EventsOfOtherHarts : let s : State := { us with parked := [{ us.hart with place := { us.hart.place with hid := 2, slot := 1 } }] }
    Claim.eventHart (.monitorWake 2) = some 2 ∧ ((s.hart :: s.parked).map fun k => k.place.hid).Nodup ∧
    (∃ k ∈ s.parked, k.place.hid = 2 ∧ k.phase ≠ .empty ∧ k.phase ≠ .switched) ∧ ∀ k ∈ s.hart :: s.parked, k.place.hid ≠ 3 := by decide +kernel

/-! ### Single steps -/

/-- The state after an instruction. -/
def after (i : Instr) (s : State) : State := match exec i s with | .next t => t | _ => s
/-- The test machine with three registers set. -/
def regs (a b c : Word) : State := withHart fun h => { h with x := ((h.x.set 12 a).set 13 b).set 14 c }

theorem test_add_wraps : (after (.add 12 13 14) (regs 0 0xFFFFFFFFFFFFFFFF 2)).x 12 = 1 := by decide +kernel
theorem test_add_x0 : (after (.add 0 13 14) (regs 0 3 2)).x 0 = 0 := by decide +kernel
theorem test_sub_order : (after (.sub 12 13 14) (regs 0 3 5)).x 12 = 0xFFFFFFFFFFFFFFFE := by decide +kernel
theorem test_sra_sign : (after (.sra 12 13 14) (regs 0 0x8000000000000000 63)).x 12 = 0xFFFFFFFFFFFFFFFF := by decide +kernel
/-- The values of the routine of 07. -/
theorem test_popc : (after (.popc 12 13) (regs 0 0x00F00000000000FF 0)).x 12 = 12 := by decide +kernel
theorem test_bfx : (after (.bfx 12 13 3 0) (regs 0 0xFFFFFFFFFFFFFFF8 0)).x 12 = 0xFFFFFFFFFFFFFFF8 := by decide +kernel
theorem test_bfxu : (after (.bfxu 12 13 7 52) (regs 0 0x00F00000000000FF 0)).x 12 = 0x0F := by decide +kernel
theorem test_div_zero : (after (.div 12 13 14) (regs 0 0xFFFFFFFFFFFFFFF8 0)).x 12 = 0x8000000000000000 := by decide +kernel
theorem test_cmpi_lt : (after (.cmpiLt 1 13 0) (regs 0 0xFFFFFFFFFFFFFFF8 0)).c 1 = true := by decide +kernel
theorem test_lui_pair : (after (.lui 12 0x200000) us).x 12 = 0x200000000 := by decide +kernel
theorem test_jal_link : (after (.jal 1 (-1)) us).hart.pc = 0xFFFFFFFC ∧ (after (.jal 1 (-1)) us).x 1 = 0x100000004 := by decide +kernel
/-- 1 + 2^-24 in fp32 rounds to even with NX; to 1 + 2^-23 upwards (IEEE 754). -/
theorem test_fadd_rne : (after (.faddS 12 13 14 none) (regs 0 0x3F800000 0x33800000)).x 12 = 0x3F800000 ∧
    (after (.faddS 12 13 14 none) (regs 0 0x3F800000 0x33800000)).hart.fcsr.flags.nx = true := by decide +kernel
theorem test_fadd_rup : (after (.faddS 12 13 14 (some .rup)) (regs 0 0x3F800000 0x33800000)).x 12 = 0x3F800001 := by decide +kernel
theorem test_fdiv_zero : (after (.fdivD 12 13 14 none) (regs 0 0x3FF0000000000000 0)).x 12 = 0x7FF0000000000000 ∧
    (after (.fdivD 12 13 14 none) (regs 0 0x3FF0000000000000 0)).hart.fcsr.flags.dz = true := by decide +kernel
/-- A store's bytes are little-endian (R70); a byte load extends the sign. -/
theorem test_sd_bytes : Memory.read (after (.sd 14 10 0) (regs 0 0 0x0807060504030281)).mem 0x18000 = 0x81 ∧
    Memory.read (after (.sd 14 10 0) (regs 0 0 0x0807060504030281)).mem 0x18007 = 0x08 := by decide +kernel
theorem test_lb_sign : (after (.lb 12 10 1) { us with mem := Memory.write us.mem 0x18001 0x80 }).x 12 = 0xFFFFFFFFFFFFFF80 := by decide +kernel
theorem test_misaligned : (after (.lw 12 6 0) us).hart.priv.cause = 3 ∧ (after (.lw 12 6 0) us).hart.priv.faddr = 0x7FF0000000001 := by decide +kernel
theorem test_trap_entry : (after (.trap (-1)) us).hart.pc = 0x300000000 ∧ (after (.trap (-1)) us).hart.priv.epc = 0x100000000 ∧
    (after (.trap (-1)) us).hart.priv.level = .kernel ∧ (after (.trap (-1)) us).hart.priv.cause = 0x10 := by decide +kernel
theorem test_kret : (after .kret ks).hart.pc = 0x100000004 ∧ (after .kret ks).hart.priv.level = .user := by decide +kernel
theorem test_amo_old : (after (.amoAdd 12 10 8 .ar .sys true) { us with mem := Memory.write us.mem 0x18000 5 }).x 12 = 5 ∧
    Memory.read (after (.amoAdd 12 10 8 .ar .sys true) { us with mem := Memory.write us.mem 0x18000 5 }).mem 0x18000 = 13 := by decide +kernel
/-- `setvl` of fp32 at Ge = 1: VLMAX is 256 (R159). -/
theorem test_setvl : (after (.setvl 12 9 .fp32 0) us).hart.vl = 256 ∧ (after (.setvl 12 8 .fp32 0) us).x 12 = 8 := by decide +kernel
/-- 1 + 1 in active elements 0 and 2 only. -/
theorem test_vadd_mask : elemAt ((after (.vadd 12 13 14 false false 3 none false) vs).bitsOf ⟨12, 1, 32⟩) 32 2 = 0x40000000 ∧
    elemAt ((after (.vadd 12 13 14 false false 3 none false) vs).bitsOf ⟨12, 1, 32⟩) 32 1 = 0x3F800000 := by decide +kernel
/-- The last arrival turns the phase: PHASE 0 with one of two arrivals in goes to PHASE 1 (R263). -/
theorem test_barrier_turns : Memory.readN (after (.barArrive 12 10 .dev) live).mem 0x18008 8 = 2 ^ 32 := by decide +kernel
theorem test_farm_next : (after (.farmNext 12 3) (farmed { live := true, counter := 4, extent := 8, strip := 4, joined := [1] })).x 12 = 4 ∧
    (after (.farmNext 12 3) (farmed { live := true, counter := 4, extent := 8, strip := 4, joined := [1] })).c 3 = false := by decide +kernel
/-- Union of (1, 1.0) (4, 2.0) (9, 0) with (4, 3.0) (7, 1.0). -/
theorem test_union : (Claim.fibre (after (.qunionAdd 3 1 2 none false) fs) 3).entries =
    [(1, 0x3F800000), (4, 0x40A00000), (7, 0x3F800000), (9, 0)] := by decide +kernel
theorem test_lz_free : (after (.lzFree 12 0) zs).entry zone 0 = 0 := by decide +kernel
/-- The move of element 0 of a copy to a higher, overlapping place comes last; here the copy goes down. -/
theorem test_copy_element : (Claim.channel (after (.copyElement 1 3) copying) 3).progress = 1 := by decide +kernel
/-- A word fetched and run as the first instruction, and an illegal one. -/
theorem test_step_runs : (match step (us.withFetchWord 32 0x00186281) with | .next t => decide (t.hart.instret = 1 ∧ t.hart.pc = 0x100000004) | _ => false) = true := by
  decide +kernel
theorem test_step_illegal : (match step (State.reset.withFetchWord 32 0) with | .next t => decide (t.hart.priv.cause = 1 ∧ t.hart.priv.epc = 0x100000000) | _ => false) = true := by
  decide +kernel

end Sys2Proof.Tests
end

section
/-! The laws of a memory in its one form (R5). -/

namespace Sys2Proof.Laws

set_option Elab.async false

open Sys2Proof.Machine

/-- Zeroing a range sets its bytes to what an unlisted address reads as and leaves the others. -/
theorem read_zero (m : List Host.Cell) (a n k : Nat) :
    Memory.read (Memory.zero m a n) k = if a ≤ k ∧ k < a + n then 0 else Memory.read m k := by
  induction m with
  | nil => simp [Memory.zero, Memory.read, Memory.unlisted]
  | cons c m ih =>
    obtain ⟨q, v⟩ := c
    simp only [Memory.zero, List.filter_cons] at ih ⊢
    by_cases hq : q < a ∨ a + n ≤ q
    · simp only [Memory.read, Bool.or_eq_true, decide_eq_true_eq, hq, if_true, ih]
      grind
    · have hq' : (decide (q < a) || decide (a + n ≤ q)) = false := by simpa using hq
      rw [hq', if_neg (by decide), ih, Memory.read]
      grind

/-- Settles O57: the laws of stores, of n-byte stores, of zeroing, and of equal reads, each by its lemma about `Memory`. -/
theorem memoryLaws : Obligations.MemoryLaws := by
  intro m hm
  refine ⟨fun a b => ?_, fun a n v => ?_, fun a n => ?_, fun k hk h => Memory.ext_read hk hm h⟩
  · exact ⟨Memory.wf_write hm a b, Memory.read_write_same hm a b, fun k hk => Memory.read_write_other m b hk⟩
  · exact ⟨Memory.wf_writeN hm a n v, Memory.readN_writeN hm a n v, fun k hk => Memory.read_writeN hm a n v k hk,
      fun k hk => Memory.read_writeN_other m a n v hk⟩
  · exact ⟨Memory.wf_zero hm a n, read_zero m a n⟩

end Sys2Proof.Laws
end

section
/-! Soundness of the scalar, system and synchronisation instructions: each meaning takes a sound state to sound states. -/

namespace Sys2Proof.Machine

set_option Elab.async false

open Sys2Proof.Safety

variable {s : State}

theorem sound_ite {p : Prop} [Decidable p] {a b : State} (ha : Sound a) (hb : Sound b) : Sound (if p then a else b) := by
  split <;> assumption

/-! ### Registers and branches (07 R138 to R155) -/

theorem out_putX (h : Sound s) (d : XReg) (v : Word) : OutSound (putX d v s) := outSound_next (sound_setX h d v)

theorem out_putC (h : Sound s) (d : CBit) (v : Bool) : OutSound (putC d v s) := outSound_next h

theorem out_execBc (h : Sound s) (c : CBit) (k : Fin 4) (o : Int) : OutSound (execBc c k o s) :=
  outSound_next (sound_count (by split <;> exact h))

theorem out_execBnc (h : Sound s) (c : CBit) (k : Fin 4) (o : Int) : OutSound (execBnc c k o s) :=
  outSound_next (sound_count (by split <;> exact h))

theorem out_execJal (h : Sound s) (d : XReg) (o : Int) : OutSound (execJal d o s) := outSound_next (sound_setX h _ _)

theorem out_execJalr (h : Sound s) (d a : XReg) (i : Int) : OutSound (execJalr d a i s) := by
  unfold execJalr
  dsimp only
  split
  · exact outSound_next (sound_takeTrap h _)
  · exact outSound_next (sound_setX h _ _)

theorem ends_mode (h : Sound s) (rm : Option Rounding) : Ends (fun _ => True) (s.mode rm) := by
  unfold State.mode
  split
  · trivial
  · split
    · trivial
    · exact ends_error h _

/-- An instruction that completes with an x register and c7 (R138, R262). -/
theorem sound_answer (h : Sound s) (d : XReg) (v : Word) (r : CBit) (b : Bool) : Sound ((s.setX d v).setC r b).retire :=
  sound_retire (sound_setC (sound_setX h d v) r b)

theorem out_fpX (h : Sound s) (d : XReg) (rm : Option Rounding) (k : Rounding → FRes) : OutSound (fpX d rm k s) :=
  outSound_finish (ends_bind (ends_mode h rm) fun _ _ => ends_ok (sound_setX h _ _))

theorem out_fpC (h : Sound s) (d : CBit) (rm : Option Rounding) (v nv : Bool) : OutSound (fpC d rm v nv s) :=
  outSound_finish (ends_bind (ends_mode h rm) fun _ _ => ends_ok h)

/-! ### Loads and stores (07 R147 to R149) -/

theorem out_loadX (h : Sound s) (n : Nat) (g : Bool) (d a : XReg) (o : Int) : OutSound (loadX n g d a o s) :=
  outSound_finish (ends_bind (ends_orTrap (sound_drain h) (gives_load (sound_drain h) _ _ _)) fun ⟨_, _⟩ h =>
    ends_ok (sound_setX h _ _))

theorem out_storeX (h : Sound s) (n : Nat) (d a : XReg) (o : Int) : OutSound (storeX n d a o s) :=
  outSound_finish (ends_bind (ends_orTrap (sound_drain h) (gives_store (sound_drain h) _ _ _ _ _)) fun _ h => ends_ok h)

/-! ### System instructions (07 R156, R157, 18 R305, R306) -/

theorem out_trap (h : Sound s) (t : Trap) : OutSound (finish (s.trap t)) := outSound_finish (ends_trap h t)

theorem out_execMovs (h : Sound s) (d : XReg) (r : Fin 4096) : OutSound (execMovs d r s) :=
  outSound_finish (ends_bind (ends_readSr h _) fun ⟨_, _⟩ h => ends_ok (sound_setX h _ _))

theorem out_execSmov (h : Sound s) (a : XReg) (r : Fin 4096) : OutSound (execSmov a r s) :=
  outSound_finish (ends_bind (ends_writeSr h _ _) fun _ h => ends_ok h)

theorem out_execKret (h : Sound s) : OutSound (execKret s) :=
  outSound_finish (ends_bind (ends_kernelOnly h) fun _ _ => ends_ite (ends_ok h) (ends_returnTo h _ _))

theorem out_execMcall (h : Sound s) (i : Int) : OutSound (execMcall i s) :=
  outSound_finish (ends_bind (ends_kernelOnly h) fun _ _ => ends_bind (ends_require h _ _) fun _ _ => ends_trap h _)

theorem out_execMonret (h : Sound s) : OutSound (execMonret s) :=
  outSound_finish (ends_bind (ends_require h _ _) fun _ _ => ends_returnTo h _ _)

theorem out_execInvpg (h : Sound s) (r a : XReg) : OutSound (execInvpg r a s) :=
  outSound_finish (ends_bind (ends_kernelOnly h) fun _ _ => ends_ok (sound_invalidate h _ _))

theorem out_execInvpgG (h : Sound s) (a : XReg) : OutSound (execInvpgG a s) :=
  outSound_finish (ends_bind (ends_kernelOnly h) fun _ _ => ends_ok (sound_invalidate h _ _))

theorem out_execHend (h : Sound s) (n : Fin 4096) : OutSound (execHend n s) :=
  outSound_finish (ends_bind (ends_kernelOnly h) fun _ _ => ends_ok (sound_endHart (sound_count h) _))

theorem out_execIllegalEncoding (h : Sound s) (w : BitVec 32) (b : Bool) : OutSound (execIllegalEncoding w b s) :=
  out_trap (sound_latch h w b) _

/-! ### Atomics, ordered accesses, fences and waits (13 R254 to R260) -/

theorem out_execCasQ (h : Sound s) (d a b : XReg) (o : Order) (sc : Scope) : OutSound (execCasQ d a b o sc s) :=
  outSound_finish (ends_bind (ends_atomic h _ _ _ _ _ _) fun ⟨_, _⟩ h =>
    ends_ok (sound_retire (sound_setX (sound_setX h _ _) _ _)))

theorem out_execLdAcq (h : Sound s) (d a : XReg) (sc : Scope) (z : Bool) : OutSound (execLdAcq d a sc z s) :=
  outSound_finish (ends_bind (ends_acquireLoad (sound_drain h) _ _ _) fun ⟨_, _⟩ h => ends_ok (sound_setX h _ _))

theorem out_execStRel (h : Sound s) (a b : XReg) (sc : Scope) (z : Bool) : OutSound (execStRel a b sc z s) := by
  have hd := sound_drain h
  unfold execStRel
  dsimp only
  generalize s.drain = d at hd ⊢
  refine outSound_finish (ends_bind (ends_orTrap hd (gives_any _)) fun l _ => ends_bind (ends_require hd _ _) fun _ _ => ?_)
  exact ends_choose (ends_release hd) hd fun s1 h1 => ends_bind (ends_orTrap h1 (gives_put h1 _ _ _ _ _ _ _)) fun _ h => ends_ok h

theorem out_execFence (h : Sound s) (ld st eng rem : Bool) (sc : Scope) : OutSound (execFence ld st eng rem sc s) := by
  refine outSound_finish (ends_bind (ends_noStrip h) fun _ _ => ?_)
  have hd : Sound (if eng then s.drain else s) := by split; exacts [sound_drain h, h]
  dsimp only
  generalize (if eng then s.drain else s) = d at hd ⊢
  exact ends_ite (ends_ok hd) (ends_ite (ends_bind (ends_acquire hd) fun _ h => ends_ok h)
    (ends_choose (ends_release hd) hd fun _ h => ends_ok h))

theorem out_execIfence (h : Sound s) : OutSound (execIfence s) :=
  outSound_finish (ends_bind (ends_noStrip h) fun _ _ => ends_ok h)

theorem out_waitInstr (h : Sound s) (ge : Bool) (d a b : XReg) (sc : Scope) (z : Bool) : OutSound (waitInstr ge d a b sc z s) :=
  outSound_finish (ends_bind (ends_noStrip h) fun _ _ => ends_waitLocation (sound_drain h) _ _ _ _ _ _)

/-! ### Barrier objects (13 R261, R262) -/

theorem out_execBarInit (h : Sound s) (d a b : XReg) : OutSound (execBarInit d a b s) := by
  have hd := sound_drain h
  unfold execBarInit
  dsimp only
  generalize s.drain = u at hd ⊢
  refine outSound_finish (ends_bind (ends_noStrip h) fun _ _ => ends_bind (ends_orTrap hd (gives_any _)) fun pa _ => ?_)
  exact ends_ok (sound_answer (sound_ite (sound_barriers (sound_writeLoc hd _ _ _) _) hd) _ _ _ _)

theorem out_execBarArrive (h : Sound s) (d a : XReg) (sc : Scope) : OutSound (execBarArrive d a sc s) := by
  have hd := sound_drain h
  unfold execBarArrive
  dsimp only
  generalize s.drain = u at hd ⊢
  refine outSound_finish (ends_bind (ends_noStrip h) fun _ _ => ends_bind (ends_orTrap hd (gives_any _)) fun pa _ => ?_)
  refine ends_choose (ends_release hd) hd fun t ht => ends_bind (ends_orTrap ht (gives_any _)) fun ⟨ctl, w⟩ _ => ?_
  exact ends_ite (ends_ok (sound_answer ht _ _ _ _)) (ends_ok (sound_answer (sound_writeLoc ht _ _ _) _ _ _ _))

theorem out_execBarWait (h : Sound s) (a b : XReg) (sc : Scope) : OutSound (execBarWait a b sc s) :=
  outSound_finish (ends_bind (ends_noStrip h) fun _ _ => ends_waitPhase (sound_drain h) _ _ _)

theorem out_execBarFin (h : Sound s) (a : XReg) : OutSound (execBarFin a s) := by
  have hd := sound_drain h
  unfold execBarFin
  dsimp only
  generalize s.drain = u at hd ⊢
  refine outSound_finish (ends_bind (ends_noStrip h) fun _ _ => ends_bind (ends_orTrap hd (gives_any _)) fun pa _ => ?_)
  refine ends_ite (ends_bind (ends_orTrap hd (gives_any _)) fun ⟨ctl, _⟩ _ => ?_) (ends_ok hd)
  have hw : Sound (u.writeLoc (.phys pa) 8 (setBitAt ctl 32 false)) := sound_writeLoc hd _ _ _
  exact ends_ok (sound_foldl _ (fun _ n h => sound_releaseWaiter h n) _ hw)

/-! ### Farms, guarded strips, the device-side launch (01 R31, 13 R264 to R268) -/

theorem out_execFarmDef (h : Sound s) (r a : XReg) : OutSound (execFarmDef r a s) :=
  outSound_finish (ends_bind (ends_noStrip h) fun _ _ => ends_ok (Sound.hart (sound_setFarm h _) _))

theorem out_execFarmNext (h : Sound s) (d : XReg) (n : CBit) : OutSound (execFarmNext d n s) := by
  refine outSound_finish (ends_bind (ends_noStrip h) fun _ _ => ?_)
  dsimp only
  refine ends_ok (sound_setX ?_ _ _)
  split
  · exact h
  · split
    · exact Sound.hart (sound_setFarm h _) _
    · exact Sound.hart (sound_setFarm h _) _

theorem out_execFarmEnd (h : Sound s) : OutSound (execFarmEnd s) :=
  outSound_finish (ends_bind (ends_noStrip h) fun _ _ => ends_ok (sound_setFarm h _))

theorem out_execSbegin (h : Sound s) (o : Int) : OutSound (execSbegin o s) :=
  outSound_finish (ends_bind (ends_require h _ _) fun _ _ => ends_ok h)

theorem out_execScommit (h : Sound s) : OutSound (execScommit s) := by
  have hd := sound_drain h
  unfold execScommit
  dsimp only
  generalize s.drain = u at hd ⊢
  split
  · exact outSound_next hd
  · rename_i st _
    have hc := ends_commitAll st st.recs u.hart.limit hd
    split
    · rename_i s' e
      rw [e] at hc
      exact outSound_next (by split <;> exact hc)
    · rename_i t s' e
      rw [e] at hc
      exact outSound_next (by split; exacts [hc, sound_enterTrap hc _ _ _ _ _])

theorem out_execSabort (h : Sound s) : OutSound (execSabort s) := outSound_next (sound_retire (by split <;> exact h))

theorem out_execLaunch (h : Sound s) (d a b : XReg) : OutSound (execLaunch d a b s) := by
  have hd := sound_drain h
  unfold execLaunch
  dsimp only
  generalize s.drain = u at hd ⊢
  refine outSound_finish (ends_bind (ends_noStrip h) fun _ _ => ends_bind (ends_orTrap hd (gives_any _)) fun l _ =>
    ends_bind (ends_require hd _ _) fun _ _ => ?_)
  refine ends_ite (ends_ok (sound_answer hd _ _ _ _)) (ends_bind (ends_orTrap hd (gives_any _)) fun ws _ => ?_)
  exact ends_ite (ends_ok (sound_answer hd _ _ _ _)) (ends_ok (sound_answer (sound_enqueue hd _ _) _ _ _ _))

end Sys2Proof.Machine
end

section
/-! Soundness of the vector configuration, memory and arithmetic instructions. -/

namespace Sys2Proof.Machine

set_option Elab.async false

open Sys2Proof.Safety

variable {s : State}

/-! ### The shared operations of vector instructions (08 R164, 09 R180, R181) -/

theorem sound_writeGroup (h : Sound s) (g : Grp) (t : Option Tag) (l : List (Nat × Nat)) : Sound (s.writeGroup g t l) := by
  unfold State.writeGroup; exact Sound.hart h _
theorem sound_tagGroup (h : Sound s) (g : Grp) (t : Tag) : Sound (s.tagGroup g t) := sound_writeGroup h _ _ _
theorem sound_writeMask (h : Sound s) (d : MNum) (l : List (Nat × Bool)) : Sound (s.writeMask d l) := by
  unfold State.writeMask; exact Sound.hart h _
theorem sound_advance (h : Sound s) (ks : List SNum) : Sound (s.advance ks) := by
  unfold State.advance; exact Sound.hart h _
theorem sound_vdone (h : Sound s) (gs : List Grp) : Sound (s.vdone gs) :=
  sound_retire (sound_setVsi (sound_advance h _) _)

theorem sound_elementwise (h : Sound s) (g : Grp) (t : Tag) (l : List Nat) (f : Nat → FRes) : Sound (s.elementwise g t l f) :=
  sound_ite h (sound_raise (sound_writeGroup h _ _ _) _ _)

theorem sound_maskResult (h : Sound s) (d : MNum) (l : List Nat) (f : Nat → FRes) : Sound (s.maskResult d l f) :=
  sound_ite h (sound_raise (sound_writeMask h _ _) _ _)

theorem gives_streamRead (b : Stream) (n : Nat) : ∀ {s : State}, Sound s → Gives (fun r => Sound r.2) (s.streamRead b n) := by
  induction n with
  | zero => exact fun h => gives_ok h
  | succ n ih =>
    intro s h
    rw [State.streamRead]
    exact gives_bind (ih h) fun ⟨_, _⟩ h1 => gives_bind (gives_any _) fun _ _ =>
      gives_bind (gives_readAt h1 _ _ _ _) fun ⟨_, _⟩ h2 => gives_ok h2

theorem ends_deliverOne (h : Sound s) (k : SNum) : Ends Sound (s.deliverOne k) := by
  unfold State.deliverOne
  dsimp only
  split
  · exact ends_ok (sound_writeGroup h _ _ _)
  · have hr := gives_streamRead s.hart.streams[k.val] s.hart.vl h
    split
    · rename_i e
      exact ends_ok (sound_writeGroup (hr _ e) _ _ _)
    · exact ends_error h _

theorem ends_deliver (ks : List SNum) : ∀ {s : State}, Sound s → Ends Sound (s.deliver ks) := by
  induction ks with
  | nil => exact fun h => ends_ok h
  | cons k ks ih => exact fun h => ends_bind (ends_deliverOne h k) fun _ h => ih h

theorem ends_needRef (h : Sound s) : Ends (fun _ => True) s.needRef := ends_require h _ _

theorem ends_prepare (h : Sound s) (srcs dsts : List Grp) (masks : List MNum) (u : Bool) (n : Nat) (faults : List (Bool × Nat)) :
    Ends Sound (s.prepare srcs dsts masks u n faults) := by
  unfold State.prepare
  refine ends_bind (ends_require h _ _) fun _ _ => ?_
  have delivered (ks : List SNum) : Ends Sound (do
      let s ← s.deliver ks
      s.require (!s.readsBad srcs masks) s.registerBad
      .ok s) :=
    ends_bind (ends_deliver ks h) fun t ht => ends_bind (ends_require ht _ _) fun _ _ => ends_ok ht
  dsimp only
  split
  · exact h
  · split
    · exact h
    · exact delivered _

/-! ### Arithmetic, compares, conversions and bit streams (09 R184 to R195) -/

theorem out_vecVV (h : Sound s) (d a b : VNum) (mk : MNum) (rm : Option Rounding) (sat : Bool) (k : ArithOp) :
    OutSound (vecVV d a b mk rm sat k s) :=
  outSound_finish (ends_bind (ends_mode h rm) fun _ _ => ends_bind (ends_needRef h) fun _ _ =>
    ends_bind (ends_prepare h _ _ _ _ _ _) fun _ h => ends_ok (sound_vdone (sound_elementwise h _ _ _ _) _))

theorem out_vecVX (h : Sound s) (d a : VNum) (x : XReg) (mk : MNum) (rm : Option Rounding) (sat : Bool) (k : ArithOp) :
    OutSound (vecVX d a x mk rm sat k s) :=
  outSound_finish (ends_bind (ends_mode h rm) fun _ _ => ends_bind (ends_needRef h) fun _ _ =>
    ends_bind (ends_prepare h _ _ _ _ _ _) fun _ h => ends_ok (sound_vdone (sound_elementwise h _ _ _ _) _))

theorem out_vecFused (h : Sound s) (d a b : VNum) (mk : MNum) (rm : Option Rounding) (sat p n : Bool) :
    OutSound (vecFused d a b mk rm sat p n s) :=
  outSound_finish (ends_bind (ends_mode h rm) fun _ _ => ends_bind (ends_needRef h) fun _ _ =>
    ends_bind (ends_prepare h _ _ _ _ _ _) fun _ h => ends_ok (sound_vdone (sound_elementwise h _ _ _ _) _))

theorem out_vecUnary (h : Sound s) (d a : VNum) (mk : MNum) (rm : Option Rounding) (dst : Tag → Tag) (ok : Tag → Bool)
    (op : Tag → Rounding → Nat → FRes) : OutSound (vecUnary d a mk rm dst ok op s) :=
  outSound_finish (ends_bind (ends_mode h rm) fun _ _ => ends_bind (ends_needRef h) fun _ _ =>
    ends_bind (ends_prepare h _ _ _ _ _ _) fun _ h => ends_ok (sound_vdone (sound_elementwise h _ _ _ _) _))

theorem out_cmpVV (h : Sound s) (d : MNum) (a b : VNum) (mk : MNum) (rm : Option Rounding) (k : CmpOp) :
    OutSound (cmpVV d a b mk rm k s) :=
  outSound_finish (ends_bind (ends_mode h rm) fun _ _ => ends_bind (ends_needRef h) fun _ _ =>
    ends_bind (ends_prepare h _ _ _ _ _ _) fun _ h => ends_ok (sound_vdone (sound_maskResult h _ _ _) _))

theorem out_cmpVX (h : Sound s) (d : MNum) (a : VNum) (x : XReg) (mk : MNum) (rm : Option Rounding) (k : CmpOp) :
    OutSound (cmpVX d a x mk rm k s) :=
  outSound_finish (ends_bind (ends_mode h rm) fun _ _ => ends_bind (ends_needRef h) fun _ _ =>
    ends_bind (ends_prepare h _ _ _ _ _ _) fun _ h => ends_ok (sound_vdone (sound_maskResult h _ _ _) _))

theorem out_execVbext (h : Sound s) (d a b : VNum) (q p : Bool) (mk : MNum) (len : Option (Fin 64)) :
    OutSound (execVbext d a b q p mk len s) :=
  outSound_finish (ends_bind (ends_needRef h) fun _ _ =>
    ends_bind (ends_prepare h _ _ _ _ _ _) fun _ h => ends_ok (sound_vdone (sound_elementwise h _ _ _ _) _))

theorem out_execVfsh (h : Sound s) (d a b : VNum) (q p : Bool) (mk : MNum) : OutSound (execVfsh d a b q p mk s) :=
  outSound_finish (ends_bind (ends_needRef h) fun _ _ =>
    ends_bind (ends_prepare h _ _ _ _ _ _) fun _ h => ends_ok (sound_vdone (sound_elementwise h _ _ _ _) _))

/-! ### The vector length and tags (08 R158, R160) -/

theorem out_setVl (h : Sound s) (hold : Bool) (d a : XReg) (t : Tag) (g : Fin 4) : OutSound (setVl hold d a t g s) :=
  outSound_next (sound_retire (sound_setX (Sound.hart h _) _ _))

theorem out_setTag (h : Sound s) (d : VNum) (t : Option Tag) : OutSound (setTag d t s) := by
  refine outSound_finish (ends_bind (ends_require h _ _) fun _ _ => ?_)
  split
  · exact ends_trap h _
  · split
    · exact ends_trap h _
    · exact ends_ok (sound_retire (sound_tagGroup h _ _))

/-! ### The access sequence (08 R163) -/

theorem gives_readWords (n : Nat) (ls : List (Word × Loc)) :
    ∀ {s : State}, Sound s → Gives (fun r => Sound r.2) (s.readWords n ls) := by
  induction ls with
  | nil => exact fun h => gives_ok h
  | cons l ls ih =>
    obtain ⟨a, l⟩ := l
    exact fun h => gives_bind (gives_readAt h _ _ _ _) fun ⟨_, _⟩ h1 => gives_bind (ih h1) fun ⟨_, _⟩ h2 => gives_ok h2

theorem sound_readElems (n : Nat) (es : List (Nat × List (Word × Loc))) :
    ∀ {s : State}, Sound s → Sound (s.readElems n es).2.1 := by
  induction es with
  | nil => exact fun h => h
  | cons e es ih =>
    intro s h
    obtain ⟨e, ls⟩ := e
    have hr : Gives (fun r => Sound r.2) (s.readElem n ls) := gives_bind (gives_any _) fun _ _ => gives_readWords _ _ h
    rw [State.readElems]
    split
    · exact h
    · rename_i heq
      exact ih (hr _ heq)

theorem sound_loadElems (h : Sound s) (n : Nat) (addr : Nat → List Word) (l : List Nat) : Sound (s.loadElems n addr l).2.1 :=
  sound_readElems _ _ h

theorem gives_storeWords (p : Route) (n : Nat) (half : Option Bool) (ls : List (Word × Loc)) :
    ∀ {s : State} (vs : List Nat), Sound s → Gives Sound (s.storeWords p n half ls vs) := by
  induction ls with
  | nil => exact fun _ h => gives_ok h
  | cons l ls ih =>
    intro s vs h
    cases vs with
    | nil => exact gives_ok h
    | cons v vs => exact gives_bind (gives_put h _ _ _ _ _ _ _) fun _ h => ih _ h

theorem sound_writeElems (p : Route) (n : Nat) (half : Nat → Option Bool) (val : Nat → List Nat) (es : List (Nat × List (Word × Loc))) :
    ∀ {s : State}, Sound s → Sound (s.writeElems p n half val es).1 := by
  induction es with
  | nil => exact fun h => h
  | cons e es ih =>
    intro s h
    obtain ⟨e, ls⟩ := e
    have hw : Gives Sound (s.writeElem p n (half e) ls (val e)) :=
      gives_bind (gives_any _) fun _ _ => gives_storeWords _ _ _ _ _ h
    rw [State.writeElems]
    split
    · exact h
    · rename_i heq
      exact ih (hw _ heq)

theorem sound_storeElems (h : Sound s) (p : Route) (n : Nat) (half : Nat → Option Bool) (addr : Nat → List Word)
    (val : Nat → List Nat) (l : List Nat) : Sound (s.storeElems p n half addr val l).1 := sound_writeElems _ _ _ _ _ h

theorem ends_endAccess (h : Sound s) (gs : List Grp) (bad : Option (Nat × Reject)) (left : Option Nat) :
    Ends Sound (s.endAccess gs bad left) := by
  unfold State.endAccess
  split
  · exact ends_error (sound_setVsi h _) _
  · exact ends_ok (sound_setVsi h _)
  · exact ends_ok (sound_vdone h _)

theorem sound_writeFields (h : Sound s) (gs : List Grp) (out : List (Nat × List Nat)) (whole : Bool) :
    Sound (s.writeFields gs out whole) :=
  sound_ite h (sound_foldl _ (fun _ _ h => sound_writeGroup h _ _ _) _ h)

theorem ends_vload (h : Sound s) (gs srcs : List Grp) (mk : MNum) (len : Nat) (faults : List (Bool × Nat))
    (addr : State → Nat → List Word) : Ends Sound (s.vload gs srcs mk len faults addr) := by
  unfold State.vload
  refine ends_bind (ends_needRef h) fun _ _ => ends_bind (ends_prepare (sound_drain h) _ _ _ _ _ _) fun t ht => ?_
  exact ends_endAccess (sound_writeFields (sound_loadElems ht _ _ _) _ _ _) _ _ _

theorem ends_vstore (h : Sound s) (gs idx : List Grp) (mk : MNum) (unord : Bool) (len : Nat) (faults : List (Bool × Nat))
    (addr : State → Nat → List Word) (val : State → Nat → List Nat) : Ends Sound (s.vstore gs idx mk unord len faults addr val) := by
  unfold State.vstore
  refine ends_bind (ends_needRef h) fun _ _ => ends_bind (ends_prepare (sound_drain h) _ _ _ _ _ _) fun t ht => ?_
  exact ends_endAccess (sound_storeElems ht _ _ _ _ _ _) _ _ _

/-! ### Vector loads and stores (08 R167 to R174) -/

theorem out_vload (h : Sound s) (gs srcs : List Grp) (mk : MNum) (len : Nat) (faults : List (Bool × Nat))
    (addr : State → Nat → List Word) : OutSound (finish (s.vload gs srcs mk len faults addr)) :=
  outSound_finish (ends_vload h _ _ _ _ _ _)

theorem out_vstore (h : Sound s) (gs idx : List Grp) (mk : MNum) (unord : Bool) (len : Nat) (faults : List (Bool × Nat))
    (addr : State → Nat → List Word) (val : State → Nat → List Nat) :
    OutSound (finish (s.vstore gs idx mk unord len faults addr val)) :=
  outSound_finish (ends_vstore h _ _ _ _ _ _ _ _)

theorem out_execVldff (h : Sound s) (d : VNum) (a : XReg) (mk : MNum) (hint : Hint) : OutSound (execVldff d a mk hint s) := by
  refine outSound_finish (ends_bind (ends_needRef h) fun _ _ => ends_bind (ends_prepare (sound_drain h) _ _ _ _ _ _) fun t ht => ?_)
  split
  rename_i acts left _
  have hl := sound_loadElems ht (elemBytes t.hart.vcfg.tag) (fun e => [unitAddr (t.x a) (tagBits t.hart.vcfg.tag) e]) acts
  split
  rename_i out u bad e
  rw [e] at hl
  have hf := sound_writeFields hl [s.dataGrp d] out
  split
  · exact ends_ite (ends_ok (sound_retire (Sound.hart (hf _) _))) (ends_endAccess (hf _) _ _ _)
  · exact ends_endAccess (hf _) _ _ _

theorem sound_owe (h : Sound s) (g : Grp) (l : List Nat) : Sound (s.owe g l) := by
  unfold State.owe; exact Sound.hart h _

theorem out_gather (h : Sound s) (d : VNum) (a : XReg) (i : VNum) (mk : MNum) : OutSound (gather d a i mk s) := by
  refine outSound_finish (ends_bind (ends_vload h _ _ _ _ _ _) fun t ht => ends_ok ?_)
  split
  · exact sound_owe ht _ _
  · exact ht

theorem out_execVldsegP (h : Sound s) (d : VNum) (a : XReg) (i : VNum) (c : Bool) (mk : MNum) (n : Fin 8) (hint : Hint) :
    OutSound (execVldsegP d a i c mk n hint s) := by
  refine outSound_finish (ends_bind (ends_needRef h) fun _ _ => ends_bind (ends_prepare (sound_drain h) _ _ _ _ _ _) fun t ht => ?_)
  have hl := sound_loadElems ht (elemBytes t.hart.vcfg.tag) (segAddr t a (fieldCount n)) (List.range t.hart.vl)
  split
  rename_i staged u bad e
  rw [e] at hl
  split
  · exact ends_trap hl _
  · exact ends_ok (sound_vdone (sound_writeFields hl _ _ _) _)

/-! ### Stream registers and discardable regions (08 R175, 04 R87) -/

theorem sound_unbind (h : Sound s) (p : SNum → Stream → Bool) : Sound (s.unbind p) := by
  unfold State.unbind; exact Sound.hart h _

theorem out_execVsbind (h : Sound s) (d : VNum) (a r : XReg) (n : SNum) : OutSound (execVsbind d a r n s) := by
  have hd := sound_drain h
  refine outSound_finish (ends_bind (ends_needRef h) fun _ _ => ?_)
  dsimp only
  generalize s.drain = u at hd ⊢
  exact ends_bind (ends_require hd _ _) fun _ _ => ends_bind (ends_require hd _ _) fun _ _ =>
    ends_ok (sound_retire (sound_tagGroup (Sound.hart (sound_unbind hd _) _) _ _))

theorem out_execVsunbind (h : Sound s) (d : VNum) : OutSound (execVsunbind d s) :=
  outSound_finish (ends_bind (ends_needRef h) fun _ _ => ends_ok (sound_retire (sound_unbind h _)))

theorem ends_discRange (h : Sound s) (b l : Word) : Ends (fun _ => True) (s.discRange b l) :=
  ends_bind (ends_require h _ _) fun _ _ => ends_bind (ends_require h _ _) fun _ _ => trivial

theorem out_execSpdisc (h : Sound s) (a b : XReg) : OutSound (execSpdisc a b s) :=
  outSound_finish (ends_ite (ends_ok h) (ends_bind (ends_discRange h _ _) fun _ _ =>
    ends_bind (ends_require h _ _) fun _ _ => ends_ok h))

theorem out_execSpkeep (h : Sound s) (a b : XReg) : OutSound (execSpkeep a b s) :=
  outSound_finish (ends_ite (ends_ok h) (ends_bind (ends_discRange h _ _) fun _ _ => ends_ok h))

end Sys2Proof.Machine
end

section
/-! Soundness of masks, moves, reductions and exact accumulators. -/

namespace Sys2Proof.Machine

set_option Elab.async false

open Sys2Proof.Safety

variable {s : State}

/-! ### Masks, moves, permutations, scans (09 R187 to R189) -/

theorem out_maskOp (h : Sound s) (d : MNum) (srcs : List MNum) (f : State → Nat → Bool) : OutSound (maskOp d srcs f s) :=
  outSound_finish (ends_bind (ends_prepare h _ _ _ _ _ _) fun _ h => ends_ok (sound_vdone (sound_writeMask h _ _) _))

theorem out_execMpopc (h : Sound s) (d : XReg) (a mk : MNum) : OutSound (execMpopc d a mk s) :=
  outSound_finish (ends_bind (ends_prepare h _ _ _ _ _ _) fun _ h => ends_ok (sound_vdone (sound_setX h _ _) _))

theorem out_execMfirst (h : Sound s) (d : XReg) (a mk : MNum) : OutSound (execMfirst d a mk s) :=
  outSound_finish (ends_bind (ends_prepare h _ _ _ _ _ _) fun _ h => ends_ok (sound_vdone (sound_setX h _ _) _))

theorem sound_moveElems (h : Sound s) (g : Grp) (t : Tag) (l : List (Nat × Nat)) : Sound (s.moveElems g t l) :=
  sound_ite h (sound_writeGroup h _ _ _)

theorem out_vecMove (h : Sound s) (d a : VNum) (ms : List MNum) (u : Bool) (f : State → (Nat → Nat) → List (Nat × Nat)) :
    OutSound (vecMove d a ms u f s) :=
  outSound_finish (ends_bind (ends_needRef h) fun _ _ =>
    ends_bind (ends_prepare h _ _ _ _ _ _) fun _ h => ends_ok (sound_vdone (sound_moveElems h _ _ _) _))

theorem out_execVmv (h : Sound s) (d a : VNum) (q : Bool) (mk : MNum) : OutSound (execVmv d a q mk s) :=
  outSound_finish (ends_bind (ends_needRef h) fun _ _ =>
    ends_bind (ends_prepare h _ _ _ _ _ _) fun _ h => ends_ok (sound_vdone (sound_moveElems h _ _ _) _))

theorem out_execVmerge (h : Sound s) (d a b : VNum) (q p : Bool) (mk : MNum) : OutSound (execVmerge d a b q p mk s) :=
  outSound_finish (ends_bind (ends_needRef h) fun _ _ =>
    ends_bind (ends_prepare h _ _ _ _ _ _) fun _ h => ends_ok (sound_vdone (sound_moveElems h _ _ _) _))

theorem out_vecFill (h : Sound s) (d : VNum) (mk : MNum) (faults : List (Bool × Nat)) (f : Nat → Nat) :
    OutSound (vecFill d mk faults f s) :=
  outSound_finish (ends_bind (ends_needRef h) fun _ _ =>
    ends_bind (ends_prepare h _ _ _ _ _ _) fun _ h => ends_ok (sound_vdone (sound_moveElems h _ _ _) _))

theorem out_execVrgather (h : Sound s) (d a b : VNum) (q p : Bool) (mk : MNum) : OutSound (execVrgather d a b q p mk s) :=
  outSound_finish (ends_bind (ends_needRef h) fun _ _ =>
    ends_bind (ends_prepare h _ _ _ _ _ _) fun _ h => ends_ok (sound_vdone (sound_moveElems h _ _ _) _))

theorem out_execVpfxpop (h : Sound s) (d : VNum) (a : MNum) : OutSound (execVpfxpop d a s) :=
  outSound_finish (ends_bind (ends_needRef h) fun _ _ =>
    ends_bind (ends_prepare h _ _ _ _ _ _) fun _ h => ends_ok (sound_vdone (sound_moveElems h _ _ _) _))

theorem out_execVconflict (h : Sound s) (d a : VNum) (q : Bool) (mk : MNum) : OutSound (execVconflict d a q mk s) :=
  outSound_finish (ends_bind (ends_needRef h) fun _ _ =>
    ends_bind (ends_prepare h _ _ _ _ _ _) fun _ h => ends_ok (sound_vdone (sound_moveElems h _ _ _) _))

theorem out_vecScan (h : Sound s) (d a : VNum) (mk : MNum) (rm : Option Rounding) (k : ArithOp) :
    OutSound (vecScan d a mk rm k s) :=
  outSound_finish (ends_bind (ends_mode h rm) fun _ _ => ends_bind (ends_needRef h) fun _ _ =>
    ends_bind (ends_prepare h _ _ _ _ _ _) fun _ h => ends_ok (sound_vdone (sound_raise (sound_moveElems h _ _ _) _ _) _))

/-! ### Reductions (09 R190, R191) -/

theorem out_vecReduce (h : Sound s) (d a b : VNum) (mk : MNum) (rm : Option Rounding) (ok : Tag → Bool) (ordered : Bool)
    (f : State → Tag → Rounding → List Nat → (Nat → FRes) → FRes → FRes) : OutSound (vecReduce d a b mk rm ok ordered f s) := by
  refine outSound_finish (ends_bind (ends_mode h rm) fun _ _ => ends_bind (ends_needRef h) fun _ _ =>
    ends_bind (ends_prepare h _ _ _ _ _ _) fun t ht => ends_ite (ends_ok (sound_vdone ht _)) ?_)
  have hw := fun g u l fl => sound_raise (sound_writeGroup ht g u l) fl false
  extract_lets va init start all
  split
  refine ends_ok ?_
  split
  · exact sound_vdone (hw _ _ _ _) _
  · exact sound_ite ht (sound_setVsi (hw _ _ _ _) _)

/-! ### Exact accumulators (09 R196 to R198) -/

theorem sound_setAcc (h : Sound s) (e : ENum) (k : EReg) : Sound (s.setAcc e k) := by
  unfold State.setAcc; exact Sound.hart h _

theorem ends_accOk (h : Sound s) (e : ENum) : Ends (fun _ => True) (s.accOk e) := ends_require h _ _

theorem out_execXaClr (h : Sound s) (e : ENum) : OutSound (execXaClr e s) := outSound_next (sound_retire (sound_setAcc h _ _))

theorem out_execXaAddv (h : Sound s) (e : ENum) (a : VNum) (q : Bool) (mk : MNum) : OutSound (execXaAddv e a q mk s) :=
  outSound_finish (ends_bind (ends_needRef h) fun _ _ => ends_bind (ends_prepare h _ _ _ _ _ _) fun _ h =>
    ends_bind (ends_accOk h _) fun _ _ => ends_ok (sound_vdone (sound_raise (sound_setAcc h _ _) _ _) _))

theorem out_execXaDot (h : Sound s) (e : ENum) (a b : VNum) (q p : Bool) (mk : MNum) : OutSound (execXaDot e a b q p mk s) :=
  outSound_finish (ends_bind (ends_needRef h) fun _ _ => ends_bind (ends_prepare h _ _ _ _ _ _) fun _ h =>
    ends_bind (ends_accOk h _) fun _ _ => ends_ok (sound_vdone (sound_raise (sound_setAcc h _ _) _ _) _))

theorem out_execXaRd (h : Sound s) (d : XReg) (e : ENum) (t : Tag) (rm : Option Rounding) : OutSound (execXaRd d e t rm s) :=
  outSound_finish (ends_bind (ends_mode h rm) fun _ _ => ends_bind (ends_accOk h _) fun _ _ =>
    ends_ok (sound_retire (sound_raise (sound_setX h _ _) _ _)))

theorem out_execXaRdv (h : Sound s) (d : VNum) (e : ENum) (x : XReg) (rm : Option Rounding) : OutSound (execXaRdv d e x rm s) :=
  outSound_finish (ends_bind (ends_mode h rm) fun _ _ => ends_bind (ends_needRef h) fun _ _ =>
    ends_bind (ends_prepare h _ _ _ _ _ _) fun _ h => ends_bind (ends_accOk h _) fun _ _ =>
      ends_ok (sound_retire (sound_raise (sound_writeGroup h _ _ _) _ _)))

theorem out_execXaLd (h : Sound s) (e : ENum) (a : XReg) (hint : Hint) : OutSound (execXaLd e a hint s) := by
  have hd := sound_drain h
  unfold execXaLd
  dsimp only
  generalize s.drain = u at hd ⊢
  refine outSound_finish (ends_bind (ends_orTrap hd (gives_any _)) fun ls _ => ?_)
  have hr := sound_readElems 8 ls hd
  split
  · rename_i e; rw [e] at hr; exact ends_trap hr _
  · rename_i e; rw [e] at hr; exact ends_ok (sound_retire (sound_setAcc hr _ _))

theorem out_execXaSt (h : Sound s) (e : ENum) (a : XReg) : OutSound (execXaSt e a s) := by
  have hd := sound_drain h
  unfold execXaSt
  dsimp only
  generalize s.drain = u at hd ⊢
  refine outSound_finish (ends_bind (ends_accOk hd _) fun _ _ => ends_bind (ends_orTrap hd (gives_any _)) fun ls _ => ?_)
  have hw := sound_writeElems .through 8 (fun _ => none) (fun k => [bitsAt (u.acc e).image (64 * k) 64]) ls hd
  split
  · exact ends_trap hd _
  · split
    · rename_i e; rw [e] at hw; exact ends_trap hw _
    · rename_i e; rw [e] at hw; exact ends_ok (sound_retire hw)

/-! ### Vectors and scalars (09 R199) -/

theorem out_execVmvXv (h : Sound s) (d : XReg) (a : VNum) (x : XReg) (q : Bool) : OutSound (execVmvXv d a x q s) :=
  outSound_finish (ends_bind (ends_needRef h) fun _ _ => ends_bind (ends_prepare h _ _ _ _ _ _) fun _ h =>
    ends_ok (sound_retire (sound_advance (sound_setX h _ _) _)))

theorem out_execVmvVx (h : Sound s) (d : VNum) (a b : XReg) : OutSound (execVmvVx d a b s) :=
  outSound_finish (ends_bind (ends_needRef h) fun _ _ => ends_bind (ends_prepare h _ _ _ _ _ _) fun _ h =>
    ends_ok (sound_retire (sound_writeGroup h _ _ _)))

end Sys2Proof.Machine
end

section
/-! Soundness of the fibre instructions (10 R200 to R216). -/

namespace Sys2Proof.Machine

set_option Elab.async false

open Sys2Proof.Safety

variable {s : State}

/-! ### Fibre registers -/

theorem sound_setQ (h : Sound s) (r : QNum) (k : QReg) : Sound (s.setQ r k) := by
  unfold State.setQ; exact Sound.hart h _
theorem sound_setQpos (h : Sound s) (k : Qpos) : Sound (s.setQpos k) := h
theorem sound_setPo (h : Sound s) (n : Nat) : Sound (s.setPo n) := h
theorem sound_stopLoad (h : Sound s) (d : QNum) (old : QReg) (po : Nat) (k o : List (Nat × Nat)) : Sound (s.stopLoad d old po k o) :=
  sound_setPo (sound_setQ h _ _) _

theorem sound_keepEntries (h : Sound s) (r : QNum) (po : Nat) (t : Tag) : Sound (s.keepEntries r po t).2 := by
  unfold State.keepEntries
  dsimp only
  split
  · exact h
  · split
    · exact h
    · exact sound_fresh h

theorem ends_fibresOk (h : Sound s) (l : List QNum) : Ends (fun _ => True) (s.fibresOk l) := ends_require h _ _

theorem ends_groupsOk (h : Sound s) (gs : List Grp) : Ends (fun _ => True) (s.groupsOk gs) :=
  ends_bind (ends_require h _ _) fun _ _ => ends_require h _ _

theorem ends_sortedOk (h : Sound s) (a b : QNum) : Ends (fun _ => True) (s.sortedOk a b) :=
  ends_bind (ends_require h _ _) fun _ _ => ends_require h _ _

/-! ### Loads, walks and stores (R207 to R209) -/

theorem gives_readElem (h : Sound s) (n : Nat) (ls : List (Word × Loc)) : Gives (fun r => Sound r.2) (s.readElem n ls) :=
  gives_bind (gives_any _) fun _ _ => gives_readWords n ls h

theorem gives_writeElem (h : Sound s) (p : Route) (n : Nat) (half : Option Bool) (ls : List (Word × Loc)) (vs : List Nat) :
    Gives Sound (s.writeElem p n half ls vs) :=
  gives_bind (gives_any _) fun _ _ => gives_storeWords _ _ _ _ _ h

theorem gives_readEntry (h : Sound s) (w : Nat) (ca va : Word) (lc lv : Loc) :
    Gives (fun r => Sound r.2) (s.readEntry w ca va lc lv) :=
  gives_bind (gives_readElem h _ _) fun ⟨_, _⟩ h1 => gives_bind (gives_readElem h1 _ _) fun ⟨_, _⟩ h2 => gives_ok h2

theorem sound_readEntries (cb vb : Word) (w : Nat) (l : List (Nat × Loc × Loc)) :
    ∀ {s : State}, Sound s → Sound (s.readEntries cb vb w l).2.1 := by
  induction l with
  | nil => exact fun h => h
  | cons e l ih =>
    intro s h
    obtain ⟨j, lc, lv⟩ := e
    rw [State.readEntries]
    split
    · exact h
    · rename_i e
      exact ih (gives_readEntry h _ _ _ _ _ _ e)

theorem ends_loadFibre (h : Sound s) (d : QNum) (cb vb : Word) (cnt : Nat) : Ends Sound (s.loadFibre d cb vb cnt) := by
  unfold State.loadFibre
  have hk := sound_keepEntries h d s.hart.qpos.po s.hart.vcfg.tag
  dsimp only
  generalize s.keepEntries d s.hart.qpos.po s.hart.vcfg.tag = k at hk ⊢
  obtain ⟨kept, u⟩ := k
  have hr := fun l => sound_readEntries cb vb (tagBits s.hart.vcfg.tag / 8) l hk
  dsimp only
  split
  · exact ends_error (sound_stopLoad (hr _) _ _ _ _ _) _
  · exact ends_error (sound_stopLoad (hr _) _ _ _ _ _) _
  · exact ends_ite (ends_ok (sound_stopLoad (hr _) _ _ _ _ _))
      (ends_ok (sound_retire (sound_setC (sound_setPo (sound_setQ (hr _) _ _) _) _ _)))

theorem out_execQld (h : Sound s) (d : QNum) (v : XReg) (hint : Hint) : OutSound (execQld d v hint s) :=
  outSound_finish (ends_bind (ends_needRef h) fun _ _ => ends_bind (ends_prepare (sound_drain h) _ _ _ _ _ _) fun _ h =>
    ends_loadFibre h _ _ _ _)

theorem out_walkFibre (h : Sound s) (pw : Nat) (d : QNum) (v : XReg) : OutSound (walkFibre pw d v s) := by
  refine outSound_finish (ends_bind (ends_needRef h) fun _ _ => ends_bind (ends_prepare (sound_drain h) _ _ _ _ _ _) fun t ht => ?_)
  extract_lets i addrs
  have hp : Gives (fun r => Sound r.2) (do let ls ← t.checkWords .load pw addrs; t.readElem pw ls) :=
    gives_bind (gives_any _) fun ls _ => gives_readElem ht _ _
  split
  · exact ends_error (sound_stopLoad (sound_keepEntries ht _ _ _) _ _ _ _ _) _
  · rename_i e
    have hu := hp _ e
    exact ends_bind (ends_require hu _ _) fun _ _ => ends_loadFibre hu _ _ _ _

theorem sound_writeEntries (cb vb : Word) (w : Nat) (es : List (Nat × Nat)) (l : List (Nat × Loc × Loc)) :
    ∀ {s : State}, Sound s → Sound (s.writeEntries cb vb w es l).1 := by
  induction l with
  | nil => exact fun h => h
  | cons e l ih =>
    intro s h
    obtain ⟨j, lc, lv⟩ := e
    rw [State.writeEntries]
    split
    · exact h
    · rename_i e1
      have h1 := gives_writeElem h _ _ _ _ _ _ e1
      split
      · exact h1
      · rename_i e2
        exact ih (gives_writeElem h1 _ _ _ _ _ _ e2)

theorem out_execQst (h : Sound s) (a : QNum) (v : XReg) : OutSound (execQst a v s) := by
  refine outSound_finish (ends_bind (ends_prepare (sound_drain h) _ _ _ _ _ _) fun t ht =>
    ends_bind (ends_fibresOk ht _) fun _ _ => ?_)
  have hw := fun l => sound_writeEntries (t.x v) (t.x (v + 1)) (tagBits (s.q a).tag / 8) (s.q a).entries l ht
  dsimp only
  split
  · exact ends_error (sound_setPo (hw _) _) _
  · exact ends_error (sound_setPo (hw _) _) _
  · exact ends_ok (sound_ite (sound_setPo (hw _) _) (sound_retire (sound_setPo (hw _) _)))

/-! ### Set operations (R210 to R212) -/

theorem ends_setInstr (h : Sound s) (k : SetOp) (d a b : QNum) (m : Rounding) (sat : Bool) (t : Option Tag) :
    Ends Sound (setInstr k d a b m sat t s) := by
  unfold setInstr
  dsimp only
  refine ends_bind (ends_prepare h _ _ _ _ _ _) fun u hu => ends_bind (ends_sortedOk hu _ _) fun _ _ =>
    ends_bind (ends_fibresOk hu _) fun _ _ => ends_ok ?_
  have hs := fun q fl b => sound_raise (sound_setQ (sound_keepEntries hu d u.hart.qpos.po (t.getD .none)) d q) fl b
  split
  · exact sound_retire (sound_setC (sound_setQpos (hs _ _ _) _) _ _)
  · exact sound_retire (sound_setC (sound_setQpos (hs _ _ _) _) _ _)
  · exact sound_setQpos (hs _ _ _) _

theorem out_setInstr (h : Sound s) (k : SetOp) (d a b : QNum) (m : Rounding) (sat : Bool) (t : Option Tag) :
    OutSound (finish (setInstr k d a b m sat t s)) := outSound_finish (ends_setInstr h _ _ _ _ _ _ _)

theorem out_execQisectMul (h : Sound s) (d a b : QNum) (rm : Option Rounding) (sat : Bool) : OutSound (execQisectMul d a b rm sat s) :=
  outSound_finish (ends_bind (ends_mode h rm) fun _ _ => ends_setInstr h _ _ _ _ _ _ _)

theorem out_execQunionAdd (h : Sound s) (d a b : QNum) (rm : Option Rounding) (sat : Bool) : OutSound (execQunionAdd d a b rm sat s) :=
  outSound_finish (ends_bind (ends_mode h rm) fun _ _ => ends_setInstr h _ _ _ _ _ _ _)

theorem out_execQdot (h : Sound s) (e : ENum) (a b : QNum) : OutSound (execQdot e a b s) := by
  unfold execQdot
  dsimp only
  refine outSound_finish (ends_bind (ends_prepare h _ _ _ _ _ _) fun u hu => ends_bind (ends_sortedOk hu _ _) fun _ _ =>
    ends_bind (ends_fibresOk hu _) fun _ _ => ends_bind (ends_accOk hu _) fun _ _ => ends_ok ?_)
  have hs := fun k fl => sound_raise (sound_setAcc hu e k) fl false
  exact sound_ite (sound_setQpos (hs _ _) _) (sound_retire (sound_setC (sound_setQpos (hs _ _) _) _ _))

/-! ### Reshapes and moves (R213 to R216) -/

theorem out_reshape (h : Sound s) (d a : QNum) (f : QReg → QReg) : OutSound (reshape d a f s) :=
  outSound_finish (ends_bind (ends_fibresOk h _) fun _ _ => ends_ok (sound_retire (sound_setQ h _ _)))

theorem out_execQcompactM (h : Sound s) (d a : QNum) (m : MNum) : OutSound (execQcompactM d a m s) :=
  outSound_finish (ends_bind (ends_fibresOk h _) fun _ _ => ends_bind (ends_require h _ _) fun _ _ =>
    ends_ok (sound_retire (sound_setQ h _ _)))

theorem out_fibreToVec (h : Sound s) (a : QNum) (d : VNum) (t : State → QReg → Tag) (f : State → QReg → List (Nat × Nat)) :
    OutSound (fibreToVec a d t f s) :=
  outSound_finish (ends_bind (ends_needRef h) fun _ _ => ends_bind (ends_groupsOk h _) fun _ _ =>
    ends_bind (ends_prepare h _ _ _ _ _ _) fun _ h => ends_bind (ends_fibresOk h _) fun _ _ =>
      ends_ok (sound_retire (sound_setVsi (sound_writeGroup h _ _ _) _)))

theorem out_vecToFibre (h : Sound s) (all : Bool) (d : QNum) (v : XReg) (a : VNum) : OutSound (vecToFibre all d v a s) := by
  refine outSound_finish (ends_bind (ends_needRef h) fun _ _ => ends_bind (ends_groupsOk h _) fun _ _ =>
    ends_bind (ends_prepare h _ _ _ _ _ _) fun u hu => ends_ok ?_)
  have hs := fun t q => sound_setQ (sound_keepEntries hu d u.hart.qpos.po t) d q
  dsimp only
  split
  · exact sound_vdone (sound_setC (sound_setQpos (hs _ _) _) _ _) _
  · exact sound_setQpos (hs _ _) _
  · exact sound_vdone (sound_setC (sound_setQpos (hs _ _) _) _ _) _

theorem out_execQcnt (h : Sound s) (a : QNum) (d : XReg) : OutSound (execQcnt a d s) :=
  outSound_next (sound_retire (sound_setX h _ _))

theorem out_execQclr (h : Sound s) (d : QNum) : OutSound (execQclr d s) := outSound_next (sound_retire (Sound.hart h _))

theorem out_execQscale (h : Sound s) (d a : QNum) (v : XReg) (rm : Option Rounding) (sat : Bool) :
    OutSound (execQscale d a v rm sat s) :=
  outSound_finish (ends_bind (ends_mode h rm) fun _ _ => ends_bind (ends_fibresOk h _) fun _ _ =>
    ends_ok (sound_retire (sound_raise (sound_setQ h _ _) _ _)))

theorem ends_fibreReduce (h : Sound s) (a : QNum) (d : XReg) (m : Rounding) (k : ArithOp) : Ends Sound (fibreReduce a d m k s) :=
  ends_bind (ends_fibresOk h _) fun _ _ => ends_ite (ends_ok (sound_retire (sound_setX h _ _)))
    (ends_ok (sound_retire (sound_raise (sound_setX h _ _) _ _)))

theorem out_fibreReduce (h : Sound s) (a : QNum) (d : XReg) (m : Rounding) (k : ArithOp) : OutSound (finish (fibreReduce a d m k s)) :=
  outSound_finish (ends_fibreReduce h _ _ _ _)

theorem out_execQredAdd (h : Sound s) (a : QNum) (d : XReg) (rm : Option Rounding) : OutSound (execQredAdd a d rm s) :=
  outSound_finish (ends_bind (ends_mode h rm) fun _ _ => ends_fibreReduce h _ _ _ _)

end Sys2Proof.Machine
end

section
/-! Soundness of the copy commands and of the landing-zone instructions (12 R233 to R250). -/

namespace Sys2Proof.Machine

set_option Elab.async false

open Sys2Proof.Safety

variable {s : State}

/-! ### Copy commands and their status (R236 to R241) -/

theorem ends_issueCopy (h : Sound s) (ch : ChNum) (k : CopyCmd) (uses : List SNum) : Ends Sound (s.issueCopy ch k uses) :=
  ends_ite (ends_ok (sound_wait h _ _)) (ends_bind (ends_accept h _ _) fun _ h => ends_ok (sound_retire (sound_advance h _)))

theorem out_plainCopy (h : Sound s) (form : CopyForm) (ch : ChNum) (rel : Bool) (xa xb xc : Word) (n : Nat) :
    OutSound (plainCopy form ch rel xa xb xc n s) :=
  outSound_finish (ends_bind (ends_noStrip h) fun _ _ => ends_bind (ends_needRef h) fun _ _ =>
    ends_bind (ends_prepare h _ _ _ _ _ _) fun _ h => ends_issueCopy h _ _ _)

theorem out_indexCopy (h : Sound s) (form : CopyForm) (ch : ChNum) (a b : XReg) (i : VNum) (rel : Bool) :
    OutSound (indexCopy form ch a b i rel s) :=
  outSound_finish (ends_bind (ends_noStrip h) fun _ _ => ends_bind (ends_needRef h) fun _ _ =>
    ends_bind (ends_prepare h _ _ _ _ _ _) fun _ h => ends_issueCopy h _ _ _)

theorem out_execCbatch (h : Sound s) : OutSound (execCbatch s) :=
  outSound_finish (ends_bind (ends_noStrip h) fun _ _ => ends_ok (sound_retire (Sound.hart h _)))

theorem ends_waitCopies (h : Sound s) (n : Nat) : Ends Sound (s.waitCopies n) :=
  ends_ite (ends_ok (sound_wait h _ _)) (ends_bind (ends_acquire h) fun _ h => ends_ok (sound_retire (sound_setC (sound_wake h) _ _)))

theorem out_execCwait (h : Sound s) (n : Fin 32) : OutSound (execCwait n s) :=
  outSound_finish (ends_bind (ends_noStrip h) fun _ _ => ends_waitCopies h _)

theorem out_execCstat (h : Sound s) (ch : ChNum) (d : XReg) (r : Fin 4) : OutSound (execCstat ch d r s) :=
  outSound_finish (ends_bind (ends_noStrip h) fun _ _ => ends_ok (sound_retire (sound_setX h _ _)))

theorem out_execCack (h : Sound s) (ch : ChNum) : OutSound (execCack ch s) :=
  outSound_finish (ends_bind (ends_noStrip h) fun _ _ => ends_ok (sound_retire (sound_ite (sound_setChan h _ _) h)))

/-! ### Landing zones (R242 to R248) -/

theorem ends_ownZone (h : Sound s) (w : Word) : Ends (fun _ => True) (s.ownZone w) := by
  unfold State.ownZone
  refine ends_bind (ends_require h _ _) fun _ _ => ?_
  split
  · exact ends_trap h _
  · exact ends_bind (ends_require h _ _) fun _ _ => trivial

theorem sound_buildZone (h : Sound s) (z : Zone) (c : Word) : Sound (s.buildZone z c) := by
  unfold State.buildZone
  extract_lets t
  have ht : Sound t := sound_foldl _ (fun _ _ h => sound_setZoneWord h _ _ _) _ (sound_zones h _)
  exact sound_setZoneWord (sound_setZoneWord (sound_setZoneWord ht _ _ _) _ _ _) _ _ _

theorem out_execLzInit (h : Sound s) (d b c : XReg) : OutSound (execLzInit d b c s) := by
  have hd := sound_drain h
  unfold execLzInit
  dsimp only
  generalize s.drain = u at hd ⊢
  exact outSound_finish (ends_bind (ends_noStrip h) fun _ _ => ends_bind (ends_require hd _ _) fun _ _ =>
    ends_bind (ends_require hd _ _) fun _ _ => ends_bind (ends_require hd _ _) fun _ _ =>
    ends_bind (ends_require hd _ _) fun _ _ => ends_bind (ends_require hd _ _) fun _ _ =>
      ends_ok (sound_retire (sound_setX (sound_buildZone hd _ _) _ _)))

theorem out_execLzRes (h : Sound s) (d b : XReg) : OutSound (execLzRes d b s) := by
  refine outSound_finish (ends_bind (ends_noStrip h) fun _ _ => ends_bind (ends_require h _ _) fun _ _ => ?_)
  have answered (v : Nat) : Ends Sound (.ok ((s.setX d (BitVec.ofNat 64 v)).setC 7 true).retire : Run State) :=
    ends_ok (sound_answer h _ _ _ _)
  refine ends_ite (ends_ite (answered 4) (ends_ite (ends_ok h) (ends_ok ?_))) (ends_ite (answered 2) (ends_ite (answered 4) ?_))
  · exact sound_answer (sound_reserve h _ _ _ _) _ _ _ _
  · exact ends_ok (sound_wait (sound_send h _) _ _)

theorem ends_waitArrivals (h : Sound s) (w c : Word) : Ends Sound (s.waitArrivals w c) := by
  unfold State.waitArrivals
  refine ends_bind (ends_ownZone h _) fun z _ => ?_
  dsimp only
  generalize (s.zoneWord z 0 == 2) = broken, decide (c.toNat ≤ s.zoneWord z 1) = full
  refine ends_ite (ends_bind (ends_acquire h) fun t ht => ?_) (ends_ok (sound_wait h _ _))
  exact ends_ok (sound_retire (sound_setC (sound_wake ht) _ _))

theorem out_execLzWait (h : Sound s) (b c : XReg) : OutSound (execLzWait b c s) :=
  outSound_finish (ends_bind (ends_noStrip h) fun _ _ => ends_waitArrivals h _ _)

theorem out_execLzFree (h : Sound s) (b c : XReg) : OutSound (execLzFree b c s) := by
  have hd := sound_drain h
  unfold execLzFree
  dsimp only
  generalize s.drain = u at hd ⊢
  exact outSound_finish (ends_bind (ends_noStrip h) fun _ _ => ends_bind (ends_ownZone hd _) fun _ _ =>
    ends_bind (ends_require hd _ _) fun _ _ => ends_ok (sound_retire (sound_setZoneWord (sound_setEntry hd _ _ _) _ _ _)))

theorem out_execLzScrub (h : Sound s) (d b : XReg) : OutSound (execLzScrub d b s) := by
  have hd := sound_drain h
  unfold execLzScrub
  dsimp only
  generalize s.drain = u at hd ⊢
  refine outSound_finish (ends_bind (ends_noStrip h) fun _ _ => ends_bind (ends_ownZone hd _) fun z _ => ends_ok ?_)
  exact sound_retire (sound_setX (sound_setZoneWord (sound_foldl _ (fun _ _ h => sound_setEntry h _ _ _) _ hd) _ _ _) _ _)

theorem out_execLzFin (h : Sound s) (b : XReg) : OutSound (execLzFin b s) := by
  have hd := sound_drain h
  unfold execLzFin
  dsimp only
  generalize s.drain = u at hd ⊢
  exact outSound_finish (ends_bind (ends_noStrip h) fun _ _ => ends_bind (ends_ownZone hd _) fun z _ =>
    ends_ite (ends_ok hd) (ends_ok (sound_retire (sound_killZone hd _))))

/-! ### Fibre messages (R249) -/

theorem out_execQsend (h : Sound s) (ch : ChNum) (b : XReg) (a : QNum) (r : Bool) : OutSound (execQsend ch b a r s) :=
  outSound_finish (ends_bind (ends_noStrip h) fun _ _ => ends_bind (ends_require h _ _) fun _ _ =>
    ends_bind (ends_fibresOk h _) fun _ _ => ends_issueCopy h _ _ _)

theorem ends_payloadOk (h : Sound s) (z : Zone) (k i n : Nat) : Ends (fun _ => True) (s.payloadOk z k i n) := by
  unfold State.payloadOk
  split
  · exact ends_trap h _
  · trivial

theorem out_execQrecv (h : Sound s) (d : QNum) (b c : XReg) : OutSound (execQrecv d b c s) := by
  have hd := sound_drain h
  unfold execQrecv
  dsimp only
  generalize s.drain = u at hd ⊢
  refine outSound_finish (ends_bind (ends_noStrip h) fun _ _ => ends_bind (ends_ownZone hd _) fun z _ =>
    ends_bind (ends_require hd _ _) fun _ _ => ends_bind (ends_payloadOk hd _ _ _ _) fun _ _ => ?_)
  split
  · exact ends_trap hd _
  · refine ends_bind (ends_require hd _ _) fun _ _ => ends_bind (ends_require hd _ _) fun _ _ => ?_
    generalize u.payloadRead z (u.x c).toNat 0 8 = w
    exact ends_bind (ends_payloadOk hd _ _ _ _) fun _ _ => ends_bind (ends_payloadOk hd _ _ _ _) fun _ _ =>
      ends_ok (sound_retire (sound_setC (sound_setQ hd _ _) _ _))

end Sys2Proof.Machine
end

section
/-! Soundness of what engines, landing zones and harts do by themselves (12 R233 to R247, 01 R24 to R30, 21 R345 to R349), and of the
matrix unit (11 R218 to R232). -/

namespace Sys2Proof.Machine

set_option Elab.async false

open Sys2Proof.Safety

variable {s : State}

theorem sound_asLive (h : Sound s) (n : Nat) (f : State → State) (hf : ∀ s, Sound s → Sound (f s)) : Sound (s.asLive n f) := by
  unfold State.asLive
  split
  · exact sound_ite h (sound_asHart h _ _ hf)
  · exact h

/-- An event of a hart is sound when what it does in that hart's turn is. -/
theorem out_asLive (h : Sound s) (n : Nat) (f : State → State) (hf : ∀ s, Sound s → Sound (f s)) : OutSound (.next (s.asLive n f)) :=
  outSound_next (sound_asLive h n f hf)

/-! ### Gathers, streams and copies -/

theorem out_execGatherGroupArrive (h : Sound s) (n : Nat) (v : VNum) (g : Fin 512) : OutSound (execGatherGroupArrive n v g s) :=
  out_asLive h _ _ fun _ h => sound_ite (Sound.hart h _) h

theorem sound_prefetch (h : Sound s) (k : SNum) : Sound (s.prefetch k) := by
  unfold State.prefetch
  dsimp only
  split
  · split
    · rename_i e
      exact Sound.hart (gives_streamRead _ _ h _ e) _
    · exact h
  · exact h

theorem out_execStreamPrefetch (h : Sound s) (n : Nat) (k : SNum) : OutSound (execStreamPrefetch n k s) :=
  out_asLive h _ _ fun _ h => sound_prefetch h k

theorem sound_acceptWaiting (h : Sound s) : Sound s.acceptWaiting := by
  unfold State.acceptWaiting
  split
  · refine sound_ite h (sound_settled (ends_bind (ends_accept h _ _) fun _ h => ends_ok ?_))
    exact sound_retire (sound_advance (sound_wake h) _)
  · exact h

theorem out_execCopyAccept (h : Sound s) (n : Nat) : OutSound (execCopyAccept n s) :=
  out_asLive h _ _ fun _ h => sound_acceptWaiting h

theorem out_execCopyElement (h : Sound s) (n : Nat) (ch : ChNum) : OutSound (execCopyElement n ch s) :=
  out_asLive h _ _ fun _ h => sound_copyMove h ch

theorem out_execFullAcknowledge (h : Sound s) (n : Nat) (ch : ChNum) : OutSound (execFullAcknowledge n ch s) :=
  out_asLive h _ _ fun _ h => by
    split
    · exact sound_ite (sound_setChan h _ _) h
    · exact h

theorem out_execBytesAcknowledged (h : Sound s) (n : Nat) (ch : ChNum) (k : Nat) : OutSound (execBytesAcknowledged n ch k s) :=
  out_asLive h _ _ fun _ h => by
    split
    · exact sound_ite (sound_setChan h _ _) h
    · exact h

/-! ### Landing zones -/

theorem out_execLzResRequest (h : Sound s) (dev : Fin 256) (w : Word) : OutSound (execLzResRequest dev w s) := by
  unfold execLzResRequest
  split
  · exact outSound_next (sound_send (sound_reserve h _ _ _ _) _)
  · exact outSound_next h

theorem out_execLzResReply (h : Sound s) (n : Nat) (v : Word) (c : Bool) : OutSound (execLzResReply n v c s) :=
  out_asLive h _ _ fun _ h => by
    split
    · exact sound_answer (sound_wake h) _ _ _ _
    · exact h

theorem sound_turnDown (h : Sound s) (ch : ChNum) (code : Nat) : Sound (s.turnDown ch code) := by
  unfold State.turnDown
  split
  · exact sound_ite (sound_setChan h _ _) h
  · exact h

theorem out_execZoneFirstRequest (h : Sound s) (t : Transfer) : OutSound (execZoneFirstRequest t s) := by
  cases t with
  | mine n ch => exact out_asLive h _ _ fun _ h => sound_ite (sound_copyMove h _) h
  | answer n ch code => exact out_asLive h _ _ fun _ h => sound_turnDown h _ _
  | ended => exact outSound_next h
  | theirs dev ticket size fib =>
    unfold execZoneFirstRequest
    dsimp only
    split
    · split
      · exact outSound_next (sound_send h _)
      · rename_i e
        have hf := sound_firstRequest h e
        split
        · split
          · exact outSound_next (sound_send (sound_eyeletFull (sound_fulls hf _) _ _) _)
          · exact outSound_next hf
        · exact outSound_next hf
    · exact outSound_next h

theorem out_execEyeletPayloadWrite (h : Sound s) (t : Transfer) (l : List Byte) : OutSound (execEyeletPayloadWrite t l s) := by
  cases t with
  | mine n ch => exact out_asLive h _ _ fun _ h => sound_ite (sound_copyMove h _) h
  | answer n ch code => exact outSound_next h
  | ended dev ticket =>
    unfold execEyeletPayloadWrite
    dsimp only
    split
    · exact outSound_next (sound_ite (sound_tear h _) h)
    · exact outSound_next h
  | theirs dev ticket size fib =>
    unfold execEyeletPayloadWrite
    dsimp only
    split
    · exact outSound_next h
    · split
      · exact outSound_next h
      · rename_i f _ _ z _
        have ha := sound_arrive h z f l
        generalize s.arrive z f l = u at ha ⊢
        split
        · exact outSound_next (sound_send (sound_ite (sound_fulls ha _) ha) _)
        · exact outSound_next h

/-! ### Harts between instructions -/

theorem ends_lookAgain (h : Sound s) : Ends Sound s.lookAgain := by
  unfold State.lookAgain
  split
  · exact ends_waitLocation h _ _ _ _ _ _
  · exact ends_waitCopies h _
  · exact ends_waitArrivals h _ _
  · exact ends_waitPhase h _ _ _
  · exact ends_ok h

theorem sound_look (h : Sound s) : Sound (if s.monitoring then settled s.lookAgain else s) :=
  sound_ite (sound_settled (ends_lookAgain h)) h

theorem out_execMonitorWake (h : Sound s) (n : Nat) : OutSound (execMonitorWake n s) := out_asLive h _ _ fun _ h => sound_look h

theorem out_execPollInterval (h : Sound s) (n : Nat) : OutSound (execPollInterval n s) :=
  out_asLive h _ _ fun _ h => by
    split
    · exact sound_look h
    · exact h

theorem sound_takeEvent (h : Sound s) : Sound s.takeEvent := by
  have hp := sound_present h
  unfold State.takeEvent
  dsimp only
  generalize s.present = u at hp ⊢
  have hf := sound_fresh hp
  generalize u.fresh = r at hf ⊢
  obtain ⟨k, t⟩ := r
  dsimp only
  split
  · exact sound_enterTrap (Sound.hart hf _) _ _ _ _ _
  · exact sound_enterTrap (Sound.hart hf _) _ _ _ _ _
  · exact sound_enterTrap (Sound.hart hp _) _ _ _ _ _
  · exact hp

theorem out_execTakeAsyncEvent (h : Sound s) (n : Nat) : OutSound (execTakeAsyncEvent n s) :=
  out_asLive h _ _ fun _ h => sound_ite (sound_takeEvent h) h

theorem sound_preemptMates (h : Sound s) (l n : Nat) : Sound (s.preemptMates l n) := by
  unfold State.preemptMates
  split
  · exact sound_ite (sound_mapHarts h _) h
  · exact h

theorem out_execReclaimTimeout (h : Sound s) (n : Nat) : OutSound (execReclaimTimeout n s) :=
  out_asLive h _ _ fun _ h => by
    split
    · exact sound_ite (sound_preemptMates (Sound.hart h _) _ _) h
    · exact h

/-- Composed and not applied: Lean evaluates a goal `Ends _ s.switchOut` through the drain, which is costly. -/
theorem sound_settled_switchOut : Sound s → Sound (settled s.switchOut) :=
  Function.comp (@sound_settled _) (@ends_switchOut s)

theorem out_execSwitchOut (h : Sound s) (n : Nat) : OutSound (execSwitchOut n s) :=
  out_asLive h _ _ fun _ h => by
    split
    · exact sound_settled_switchOut h
    · exact h

theorem out_execHartEnd (h : Sound s) (n : Nat) : OutSound (execHartEnd n s) :=
  out_asLive h _ _ fun _ h => sound_ite (sound_endHart h _) h

/-! ### Tile contexts and tiles (11 R218 to R223) -/

theorem sound_setTile (h : Sound s) (t : Option TileCtx) : Sound (s.setTile t) := h

theorem out_execMattach (h : Sound s) (r : Fin 4) : OutSound (execMattach r s) := by
  unfold execMattach
  dsimp only
  split
  · exact outSound_next (sound_retire (sound_setC h _ _))
  · split
    · exact outSound_next (sound_retire (sound_setC h _ _))
    · split
      · exact outSound_next (sound_retire (sound_setC h _ _))
      · exact outSound_next (sound_retire (sound_setC (sound_setTile h _) _ _))

theorem sound_retireRowsOf (h : Sound s) (c : Nat) : Sound (s.retireRowsOf c) :=
  sound_ite h (sound_service (sound_retRows (sound_retRowsPend h _) _) _ rfl rfl)

theorem out_execMdetach (h : Sound s) : OutSound (execMdetach s) := by
  unfold execMdetach
  split
  · exact outSound_next (sound_retire (sound_retireRowsOf (sound_setTile h _) _))
  · exact outSound_next (sound_retire h)

theorem ends_context (h : Sound s) : Ends (fun _ => True) s.context := by
  unfold State.context
  split
  · trivial
  · exact ends_trap h _

theorem out_execMzeroT (h : Sound s) (d : TNum) : OutSound (execMzeroT d s) :=
  outSound_finish (ends_bind (ends_context h) fun _ _ => ends_ok (sound_retire (sound_setTile h _)))

theorem out_execMzeroZ (h : Sound s) (d : ZNum) : OutSound (execMzeroZ d s) :=
  outSound_finish (ends_bind (ends_context h) fun _ _ => ends_ok (sound_retire (sound_setTile h _)))

theorem ends_tagCheck (h : Sound s) (l : List (Bool × Nat)) : Ends (fun _ => True) (s.tagCheck l) := by
  unfold State.tagCheck
  split
  · exact ends_trap h _
  · trivial

theorem ends_loadAll (h : Sound s) (n : Nat) (addr : Nat → List Word) (es : List Nat) :
    Ends (fun r => Sound r.2) (s.loadAll n addr es) := by
  unfold State.loadAll
  split
  rename_i ok bad _
  have hr := sound_readElems n ok h
  split
  · exact ends_trap h _
  · split
    · rename_i e; rw [e] at hr; exact ends_trap hr _
    · rename_i e; rw [e] at hr; exact ends_ok hr

theorem sound_mdone (h : Sound s) : Sound s.mdone := sound_retire (sound_setVsi h _)

theorem out_execMldT (h : Sound s) (d : TNum) (a : XReg) (hint : Hint) : OutSound (execMldT d a hint s) :=
  outSound_finish (ends_bind (ends_context h) fun _ _ => ends_bind (ends_tagCheck h _) fun _ _ =>
    ends_bind (ends_loadAll (sound_drain h) _ _ _) fun ⟨_, _⟩ h => ends_ok (sound_mdone (sound_setTile h _)))

theorem out_execMldZ (h : Sound s) (d : ZNum) (a : XReg) (hint : Hint) : OutSound (execMldZ d a hint s) :=
  outSound_finish (ends_bind (ends_context h) fun _ _ => ends_bind (ends_tagCheck h _) fun _ _ =>
    ends_bind (ends_loadAll (sound_drain h) _ _ _) fun ⟨_, _⟩ h => ends_ok (sound_mdone (sound_setTile h _)))

theorem out_execMldbm (h : Sound s) (d : TNum) (b a : XReg) (hint : Hint) : OutSound (execMldbm d b a hint s) := by
  have hd := sound_drain h
  refine outSound_finish (ends_bind (ends_context h) fun _ _ => ends_bind (ends_tagCheck h _) fun _ _ => ?_)
  dsimp only
  generalize s.drain = u at hd ⊢
  exact ends_bind (ends_require hd _ _) fun _ _ => ends_bind (ends_loadAll hd _ _ _) fun ⟨_, _⟩ h1 =>
    ends_bind (ends_loadAll h1 _ _ _) fun ⟨_, _⟩ h2 => ends_ok (sound_mdone (sound_setTile h2 _))

theorem ends_mst (h : Sound s) (y : Shape) (o p : Bool) (bits : Nat) (a : XReg) : Ends Sound (mst y o p bits a s) := by
  have hd := sound_drain h
  unfold mst
  refine ends_bind (ends_tagCheck h _) fun _ _ => ends_bind (ends_require h _ _) fun _ _ => ?_
  dsimp only
  generalize s.drain = u at hd ⊢
  split
  · exact ends_trap hd _
  · have hw := sound_writeElems .through y.unit (fun _ => none) (fun k => [bitsAt bits (u.tileBit y o k) (8 * y.unit)])
      (u.checkElems .store y.unit (u.tileAddr y (u.x a)) (u.tileUnits y)).1 hd
    split
    · rename_i e; rw [e] at hw; exact ends_trap hw _
    · rename_i e; rw [e] at hw; exact ends_ok (sound_mdone hw)

theorem out_execMstT (h : Sound s) (d : TNum) (a : XReg) : OutSound (execMstT d a s) :=
  outSound_finish (ends_bind (ends_context h) fun _ _ => ends_mst h _ _ _ _ _)

theorem out_execMstZ (h : Sound s) (d : ZNum) (a : XReg) : OutSound (execMstZ d a s) :=
  outSound_finish (ends_bind (ends_context h) fun _ _ => ends_mst h _ _ _ _ _)

/-! ### Multiplication and drains (11 R224 to R231) -/

theorem out_multiply (h : Sound s) (p q : Bool) (d : ZNum) (a b : TNum) (r c : Fin 4) :
    OutSound (finish (multiply p q d a b r c s)) := by
  refine outSound_finish (ends_bind (ends_context h) fun _ _ => ends_bind (ends_tagCheck h _) fun _ _ =>
    ends_ite (ends_ok (sound_retire h)) ?_)
  exact ends_bind (ends_require h _ _) fun _ _ => ends_ok (sound_retire (sound_raise (sound_setTile h _) _ _))

theorem ends_drainMem (h : Sound s) (z : ZNum) (mk : MNum) (m : Rounding) (sat : Bool) (srcs : List Grp) (more : List (Bool × Nat))
    (row : State → Nat → Int) (a : XReg) : Ends Sound (drainMem z mk m sat srcs more row a s) := by
  refine ends_bind (ends_needRef h) fun _ _ => ends_bind (ends_context h) fun _ _ =>
    ends_bind (ends_prepare (sound_drain h) _ _ _ _ _ _) fun t ht => ends_bind (ends_require ht _ _) fun _ _ => ?_
  exact ends_endAccess (sound_raise (sound_storeElems ht _ _ _ _ _ _) _ _) _ _ _

theorem out_execMdrain (h : Sound s) (z : ZNum) (mk : MNum) (a : XReg) (rm : Option Rounding) (sat : Bool) :
    OutSound (execMdrain z mk a rm sat s) :=
  outSound_finish (ends_bind (ends_mode h rm) fun _ _ => ends_drainMem h _ _ _ _ _ _ _ _)

theorem out_execMdrainX (h : Sound s) (z : ZNum) (mk : MNum) (i : VNum) (a : XReg) (rm : Option Rounding) (sat : Bool) :
    OutSound (execMdrainX z mk i a rm sat s) :=
  outSound_finish (ends_bind (ends_mode h rm) fun _ _ => ends_drainMem h _ _ _ _ _ _ _ _)

theorem out_execMdrainv (h : Sound s) (z : ZNum) (mk : MNum) (d : VNum) (rm : Option Rounding) (sat : Bool) :
    OutSound (execMdrainv z mk d rm sat s) :=
  outSound_finish (ends_bind (ends_mode h rm) fun _ _ => ends_bind (ends_needRef h) fun _ _ => ends_bind (ends_context h) fun _ _ =>
    ends_bind (ends_prepare h _ _ _ _ _ _) fun _ h => ends_bind (ends_require h _ _) fun _ _ =>
      ends_ok (sound_mdone (sound_raise (sound_writeGroup h _ _ _) _ _)))

end Sys2Proof.Machine
end

section
/-! Soundness of the schedulers' events (19 R311 to R330, 01 R21, R22, 21 R355). -/

namespace Sys2Proof.Machine

set_option Elab.async false

open Sys2Proof.Safety

variable {s : State}

/-! ### Placement and pre-emption (R319 to R324) -/

theorem sound_tick (h : Sound s) : Sound s.tick := h

theorem sound_topUp (h : Sound s) (p : Fin 8) : Sound (s.topUp p) := by
  unfold State.topUp
  split
  · exact h
  · exact sound_ite h (sound_foldl _ (fun _ _ h => sound_setQueue h _ _) _ h)

theorem sound_postHalvings (l : Launch) (vs : List (Launch × Hart)) : ∀ {s : State}, Sound s → Sound (s.postHalvings l vs) := by
  induction vs with
  | nil => exact fun h => h
  | cons v vs ih =>
    intro s h
    rw [State.postHalvings]
    exact sound_ite h (sound_ite (ih (sound_mapHarts h _)) (ih h))

theorem sound_postSwitches (l : Launch) (vs : List (Launch × Hart)) : ∀ {s : State}, Sound s → Sound (s.postSwitches l vs) := by
  induction vs with
  | nil => exact fun h => h
  | cons v vs ih =>
    intro s h
    rw [State.postSwitches]
    exact sound_ite h (ih (sound_preemptMates (sound_mapHarts h _) _ _))

theorem sound_takeFor (h : Sound s) (l : Launch) {t : State} (e : s.takeFor l = some t) : Sound t := by
  unfold State.takeFor at e
  split at e
  · cases e; exact h
  · split at e
    · cases e
    · dsimp only at e
      split at e
      · cases e
      · split at e
        · cases e; exact sound_postHalvings _ _ h
        · cases e; exact sound_postSwitches _ _ h

theorem sound_dropReserved (h : Sound s) (p : Fin 8) : Sound (s.dropReserved p) := by
  unfold State.dropReserved
  split
  · split
    · exact sound_ite h (sound_setPart h _ _)
    · exact sound_setPart h _ _
  · exact h

theorem sound_reserveLaunch (h : Sound s) (p : Fin 8) : Sound (s.reserveLaunch p) := by
  unfold State.reserveLaunch
  refine sound_ite h ?_
  dsimp only
  split
  · exact h
  · split
    · exact sound_setPart h _ _
    · exact h

theorem sound_choose (p : Fin 8) (ls : List Launch) : ∀ {s : State} (took : Bool), Sound s → Sound (s.choose p took ls) := by
  induction ls with
  | nil => exact fun _ h => h
  | cons l ls ih =>
    intro s took h
    rw [State.choose]
    split
    · exact sound_startLaunch h _ _ _ _ _
    · exact h
    · split
      · exact ih _ h
      · split
        · rename_i e; exact ih _ (sound_takeFor h _ e)
        · exact ih _ h

theorem out_execSchedulePlacement (h : Sound s) (p : Fin 8) : OutSound (execSchedulePlacement p s) := by
  unfold execSchedulePlacement
  split
  · exact outSound_next (sound_dropReserved (sound_choose _ _ _
      (sound_reserveLaunch (sound_dropReserved (sound_topUp (sound_tick h) _) _) _)) _)
  · exact outSound_next h

/-! ### Restores and the end of a launch (R21, R22, R316, R325, R355) -/

theorem sound_bringBack (h : Sound s) (k : Hold) : Sound (s.bringBack k) := by
  unfold State.bringBack
  split
  · exact h
  · exact sound_asHart (sound_freshCore (sound_freshCore h _ _) _ _) _ _ fun _ h => sound_restoreHart h k

theorem out_execHartRestore (h : Sound s) (n : Nat) : OutSound (execHartRestore n s) := by
  unfold execHartRestore
  split
  · exact outSound_next h
  · dsimp only
    split
    · split
      · split
        · rename_i at' _ _
          have hb := sound_foldl State.bringBack (fun _ _ h => sound_bringBack h _) at' h
          refine outSound_next ?_
          split
          · exact sound_dropReserved (sound_ite hb (sound_putLaunch hb _)) _
          · exact hb
        · exact outSound_next h
      · exact outSound_next h
    · exact outSound_next h

theorem sound_releaseHarts (h : Sound s) (hs : List Hart) {t : State} (e : s.releaseHarts hs = some t) : Sound t := by
  unfold State.releaseHarts at e
  dsimp only at e
  split at e
  · cases e
  · cases e; exact sound_foldl _ (fun _ _ h => sound_writeBackAll h _ _) _ h

theorem sound_dismiss (h : Sound s) (n : Nat) : Sound (s.dismiss n) := by
  unfold State.dismiss; exact Sound.hart (sound_parked h _) _

theorem out_execLaunchDone (h : Sound s) (n : Nat) : OutSound (execLaunchDone n s) := by
  unfold execLaunchDone
  split
  · exact outSound_next h
  · dsimp only
    split
    · split
      · exact outSound_next h
      · rename_i e
        exact outSound_next (sound_dismiss (sound_putLaunch (sound_signal (sound_releaseHarts h _ e) _ _) _) _)
    · exact outSound_next h

/-! ### Packets, rack messages and reports (R311 to R315, R329, R330) -/

theorem sound_windowWrite (h : Sound s) (q off : Nat) (l : List Byte) : Sound (s.windowWrite q off l) :=
  sound_ite h (sound_ite (sound_enqueue h _ _) (sound_ite (sound_setQueue h _ _) h))

theorem out_execQueueWindowWrite (h : Sound s) (q : Fin 1024) (off : Nat) (l : List Byte) :
    OutSound (execQueueWindowWrite q off l s) :=
  outSound_next (sound_windowWrite h _ _ _)

theorem out_execPacketAccept (h : Sound s) (q : Fin 1024) : OutSound (execPacketAccept q s) := by
  unfold execPacketAccept
  split
  · split
    · exact outSound_next (sound_acceptPacket h _ _)
    · exact outSound_next h
  · exact outSound_next h

theorem sound_recheckHead (h : Sound s) (q : Nat) (b : Bool) : Sound (s.recheckHead q b) := by
  unfold State.recheckHead
  split
  · exact h
  · split
    · exact sound_ite (sound_recheckDep h _) h
    · exact h

theorem sound_rackAnswer (h : Sound s) (d : Word) (r k : Nat) : Sound (s.rackAnswer d r k) := sound_send h _

theorem out_execRackLaunchRequest (h : Sound s) (w : Word) (q r : BitVec 16) (l : List Byte) :
    OutSound (execRackLaunchRequest w q r l s) := by
  unfold execRackLaunchRequest
  dsimp only
  split
  · split
    · split
      · exact outSound_next (sound_rackAnswer h _ _ _)
      · exact outSound_next (sound_rackAnswer (sound_enqueue h _ _) _ _ _)
    · exact outSound_next h
  · exact outSound_next (sound_ite (sound_rackAnswer h _ _ _) h)

theorem out_execRackReportRequest (h : Sound s) (w : Word) (p : Fin 8) : OutSound (execRackReportRequest w p s) :=
  outSound_next (sound_ite (sound_send h _) h)

theorem out_execResidencyReport (h : Sound s) (p : Fin 8) : OutSound (execResidencyReport p s) :=
  outSound_next (sound_ite (sound_send h _) h)

end Sys2Proof.Machine
end

section
/-! Soundness of the service block, the paths, the ports and the host's requests (22 R361 to R372, 23 R373 to R381), and of the
chances. -/

namespace Sys2Proof.Machine

set_option Elab.async false

open Sys2Proof.Safety

variable {s : State}

/-! ### Power and readiness (R375, R376, R379) -/

/-- A power state other than standby asks nothing of READY. -/
theorem sound_powerState (h : Sound s) {n : Fin 4} (hn : n ≠ 3) : Sound (s.powerState n) :=
  ⟨h.mem_wf, h.spad_wf, h.signed, fun e => absurd e hn⟩

theorem out_execPs3Standby (h : Sound s) : OutSound (execPs3Standby s) := by
  unfold execPs3Standby
  split
  · exact outSound_next (sound_service h _ rfl rfl)
  · refine outSound_next ⟨h.mem_wf, rfl, fun e => h.signed ?_, fun _ => ?_⟩
    · have e' : (s.service.ready &&& ~~~ chipletBits).getLsbD 1 = true := e
      rw [BitVec.getLsbD_and, Bool.and_eq_true] at e'
      exact e'.1
    · show s.service.ready &&& ~~~ chipletBits &&& standbyOff = 0
      rw [BitVec.and_assoc, show ~~~ chipletBits &&& standbyOff = 0#33 by decide, BitVec.and_zero]
      rfl

/-- READY with one more unit, in standby none of the compute chiplets or the welt. -/
theorem or_unit_and_standbyOff {r : BitVec 33} (hr : r &&& standbyOff = 0) (u : Fin 33) (hu : chipletBits.getLsbD u.val = false) :
    (r ||| BitVec.ofNat 33 (2 ^ u.val)) &&& standbyOff = 0 := by
  have hone : ∀ u : Fin 33, chipletBits.getLsbD u.val = false → BitVec.ofNat 33 (2 ^ u.val) &&& standbyOff = 0 := by decide
  rw [BitVec.and_comm, BitVec.and_or_distrib_left, BitVec.and_comm, hr, BitVec.and_comm, hone u hu]
  rfl

/-- A unit other than 1 leaves READY [1] as it was. -/
theorem getLsbD_or_unit (r : BitVec 33) (u : Fin 33) (hu : u.val ≠ 1) :
    (r ||| BitVec.ofNat 33 (2 ^ u.val)).getLsbD 1 = r.getLsbD 1 := by
  have hone : ∀ u : Fin 33, u.val ≠ 1 → (BitVec.ofNat 33 (2 ^ u.val)).getLsbD 1 = false := by decide
  rw [BitVec.getLsbD_or, hone u hu, Bool.or_false]

theorem out_execUnitReady (h : Sound s) (u : Fin 33) : OutSound (execUnitReady u s) := by
  unfold execUnitReady
  split
  · exact outSound_next h
  · rename_i hu
    rw [not_or, not_and, not_and] at hu
    obtain ⟨hsigned, hoff⟩ := hu
    refine outSound_next ⟨h.mem_wf, h.spad_wf, fun e => ?_, fun e => ?_⟩
    · by_cases h1 : u.val = 1
      · simpa using hsigned h1
      · exact h.signed ((getLsbD_or_unit _ u h1).symm.trans e)
    · exact or_unit_and_standbyOff (h.standby e) u (by simpa using hoff e)

theorem out_execConfigurationImage (h : Sound s) (img : ConfigImage) : OutSound (execConfigurationImage img s) := by
  unfold execConfigurationImage
  split
  · exact outSound_next h
  · split
    · refine outSound_next ⟨h.mem_wf, h.spad_wf, fun _ => rfl, fun e => ?_⟩
      exact or_unit_and_standbyOff (h.standby e) 1 (by decide)
    · exact outSound_next h

/-- A change of the service block that leaves READY and the power state. -/
theorem sound_setService (h : Sound s) (f : Service → Service) (hr : (f s.service).ready = s.service.ready)
    (hs : (f s.service).state = s.service.state) : Sound (s.setService f) := sound_service h _ hr hs

theorem out_execTempAlert (h : Sound s) (c : BitVec 8) : OutSound (execTempAlert c s) := by
  unfold execTempAlert
  dsimp only
  split
  · exact outSound_next (sound_send (sound_setService (sound_setService h _ rfl rfl) _ rfl rfl) _)
  · exact outSound_next (sound_service h _ rfl rfl)

theorem sound_restart (h : Sound s) (power : Bool) : Sound (s.restart power) := by
  refine ⟨?_, rfl, fun e => ?_, fun e => ?_⟩
  · show Memory.wf (if power then s.mem else s.mem.filter fun c => decide (Config.hbmBytes ≤ c.1)) = true
    split
    · exact h.mem_wf
    · exact Memory.wf_filter h.mem_wf _
  · exact absurd (show State.reset.service.ready.getLsbD 1 = true from e) (by decide)
  · exact absurd (show State.reset.service.state = 3 from e) (by decide)

theorem out_execThermalPowerRemoval (h : Sound s) : OutSound (execThermalPowerRemoval s) := by
  unfold execThermalPowerRemoval
  split
  · exact outSound_next (sound_restart h _)
  · exact outSound_next h

/-! ### Host interrupts, retirement and error logs (R357 to R359, R377, R380) -/

theorem out_execHostInterrupt (h : Sound s) (f : Fin 9) (v : BitVec 32) (c : Fin 128) (k : Fin 16) :
    OutSound (execHostInterrupt f v c k s) := by
  have hd := sound_service h { s.service with intdrop := s.service.intdrop + 1 } rfl rfl
  unfold execHostInterrupt
  dsimp only
  split
  · exact outSound_next h
  · split
    · split
      · exact outSound_next hd
      · exact outSound_next (sound_mapHarts h _)
    · exact outSound_next hd

theorem sound_setRetstat (h : Sound s) (n : Fin 4) : Sound (s.setRetstat n) := sound_service h _ rfl rfl

theorem sound_retirement (h : Sound s) (f : State → State) (hf : ∀ s, Sound s → Sound (f s)) : Sound (s.retirement f) :=
  sound_ite (sound_setRetstat h _) (hf _ (sound_setRetstat h _))

theorem sound_retireHarts (h : Sound s) (p : Hart → Bool) : Sound (s.retireHarts p) :=
  sound_foldl _ (fun _ _ h => sound_preemptMates h _ _) _ (sound_mapHarts h _)

theorem out_execRetireCluster (h : Sound s) (c : Fin 128) (k : Fin 16) : OutSound (execRetireCluster c k s) :=
  outSound_next (sound_retirement h _ fun u h => by
    have hu : Sound { u with retClusters := (c.val, k.val) :: u.retClusters, retiring := (c.val, some k.val) :: u.retiring } := h
    exact sound_settleRetire (sound_retireHarts hu _))

theorem sound_endByNumber (h : Sound s) (n : Nat) : Sound (s.endByNumber n) := sound_asHart h _ _ fun _ h => sound_endHart h _

theorem out_execRetireCore (h : Sound s) (c : Fin 128) : OutSound (execRetireCore c s) :=
  outSound_next (sound_retirement h _ fun u h => by
    have hu : Sound { u with retCores := c.val :: u.retCores, retiring := (c.val, none) :: u.retiring } := h
    exact sound_settleRetire (sound_retireHarts (sound_foldl _ (fun _ n h => sound_endByNumber h n) _ hu) _))

theorem out_execRetireMatrixRows (h : Sound s) (c : Fin 128) : OutSound (execRetireMatrixRows c s) :=
  outSound_next (sound_retirement h _ fun _ h => sound_retRowsPend h _)

theorem out_execRowRepair (h : Sound s) (a : Nat) : OutSound (execRowRepair a s) := by
  unfold execRowRepair
  split
  · exact outSound_next h
  · exact outSound_next (sound_retirement h _ fun _ h => sound_ite (sound_setRetstat h _) (sound_repairing h _))

theorem sound_logEvent (h : Sound s) (k : Fin 16) (e : MemErr) (c l a : Nat) : Sound (s.logEvent k e c l a) := sound_logs h _

theorem out_execMemoryErrorEvent (h : Sound s) (k : Fin 16) (e : MemErr) (c : Fin 64) (l : Fin 16) (a : Nat) :
    OutSound (execMemoryErrorEvent k e c l a s) := by
  unfold execMemoryErrorEvent
  split
  · exact outSound_next h
  · dsimp only
    split
    · exact outSound_next (sound_poison (sound_logEvent h _ _ _ _ _) _)
    · exact outSound_next (sound_logEvent h _ _ _ _ _)

theorem out_execRowRepairDone (h : Sound s) : OutSound (execRowRepairDone s) := by
  unfold execRowRepairDone
  split
  · exact outSound_next (sound_repairing (sound_logEvent (sound_setRetstat h _) _ _ _ _ _) _)
  · exact outSound_next h

theorem out_execPop (h : Sound s) (k : Fin 16) : OutSound (execPop k s) := outSound_next (sound_logs h _)

/-! ### Paths (R251, R369 to R371) -/

theorem sound_mapChannels (h : Sound s) (f : Hart → ChNum → Channel → Channel) : Sound (s.mapChannels f) := sound_mapHarts h _

theorem sound_keepFulls (h : Sound s) (p : Path) : Sound (s.keepFulls p) := by
  cases p with
  | device d => exact sound_fresh h
  | chiplets a b => exact h

theorem sound_losePath (h : Sound s) (p : Path) : Sound (s.losePath p) := by
  unfold State.losePath
  refine sound_ite h ?_
  have ht := sound_foldl State.tear (fun _ f h => sound_tear h f) (s.fills.filter fun f => s.fillOver p f) h
  dsimp only
  generalize (s.fills.filter fun f => s.fillOver p f).foldl State.tear s = t at ht ⊢
  have htorn : Sound { t with torn := t.torn ++ (s.fills.filter fun f => s.fillOver p f).map (Fill.torn · p), lost := p :: t.lost } := ht
  refine sound_foldl _ (fun u n hu => sound_asHart hu _ _ fun v hv => ?_) _ (sound_mapChannels (sound_keepFulls htorn p) _)
  split
  · exact sound_answer (sound_wake hv) _ _ _ _
  · exact hv

theorem out_execPathLost (h : Sound s) (p : Path) : OutSound (execPathLost p s) := by
  unfold execPathLost
  split <;> split
  · exact outSound_next (sound_losePath h _)
  · exact outSound_next h
  · exact outSound_next (sound_losePath h _)
  · exact outSound_next h

/-- Other lost paths and torn eyelets. -/
theorem sound_lostTorn (h : Sound s) (l : List Path) (t : List Torn) : Sound { s with lost := l, torn := t } := h

theorem out_execPathReturn (h : Sound s) (p : Path) (full : List (Nat × ChNum)) : OutSound (execPathReturn p full s) := by
  unfold execPathReturn
  split
  · dsimp only
    refine outSound_next (sound_lostTorn (sound_mapChannels (sound_foldl _ (fun u t hu => ?_) _
      (sound_foldl _ (fun u z hu => ?_) _ h)) _) _ _)
    · split
      · exact sound_send hu _
      · exact hu
    · split
      · exact sound_setZoneWord hu _ _ _
      · exact hu
  · exact outSound_next h

theorem sound_discardFor (h : Sound s) (d : Nat) : Sound (s.discardFor d) := sound_mapHarts (sound_rcache h _) _

theorem out_execPathLostForGood (h : Sound s) (p : Path) : OutSound (execPathLostForGood p s) := by
  unfold execPathLostForGood
  split
  · have hm := sound_mapChannels h fun h _ c => if c.pend && s.sendsOver p h c then c.outcome false else c
    dsimp only
    generalize s.mapChannels _ = u at hm ⊢
    cases p with
    | device d =>
      have hl : Sound { u with lost := u.lost.filter (fun q => !samePath (.device d) q), lostGood := .device d :: u.lostGood,
                               torn := u.torn.filter fun t => !samePath (.device d) t.path } := hm
      exact outSound_next (sound_discardFor hl _)
    | chiplets a b => exact outSound_next hm
  · exact outSound_next h

/-! ### The welt and the ports (R361 to R369) -/

theorem sound_setWelt (h : Sound s) (f : Welt → Welt) : Sound (s.setWelt f) := sound_welt h _

theorem out_setWelt (h : Sound s) (f : Welt → Welt) : OutSound (.next (s.setWelt f)) := outSound_next (sound_setWelt h f)

theorem out_execWeltLinkFail (h : Sound s) (c : Fin 8) (l : Fin 4) : OutSound (execWeltLinkFail c l s) :=
  outSound_next (sound_foldl _ (fun _ _ h => sound_losePath h _) _ (sound_setWelt (sound_fresh h) _))

theorem sound_portFail (h : Sound s) (p : Fin 4) : Sound (s.portFail p) :=
  sound_foldl _ (fun _ _ h => sound_losePath h _) _ (sound_setPort (sound_traffic h p) _ _)

theorem out_execPortTraining (h : Sound s) (p : Fin 4) (ok : Bool) : OutSound (execPortTraining p ok s) := by
  unfold execPortTraining
  dsimp only
  split
  · exact outSound_next (sound_setPort h _ _)
  · exact outSound_next (sound_setPort h _ _)
  · exact outSound_next (sound_portFail h _)
  · exact outSound_next (sound_portFail h _)
  · exact outSound_next h

theorem out_execPlaneReturn (h : Sound s) (p : Fin 4) : OutSound (execPlaneReturn p s) := outSound_next (sound_setPort h _ _)

theorem sound_replayOne (h : Sound s) (p : Fin 4) (q : BitVec 32) : Sound (s.replayOne p q) := by
  unfold State.replayOne
  dsimp only
  split
  · exact h
  · exact sound_ite (sound_portFail h _) (sound_ite (sound_sendFlit (sound_setPort h _ _) _ _ _ _ _) (sound_setPort h _ _))

theorem out_execTransmitKeySwitch (h : Sound s) (p : Fin 4) : OutSound (execTransmitKeySwitch p s) := by
  have ht := sound_traffic h p
  unfold execTransmitKeySwitch
  dsimp only
  generalize s.traffic p = t at ht ⊢
  split
  · exact outSound_next (sound_foldl _ (fun _ _ h => sound_replayOne h _ _) _ (sound_setPort ht _ _))
  · exact outSound_next h

theorem out_execCounterExhaustion (h : Sound s) (p : Fin 4) : OutSound (execCounterExhaustion p s) := by
  have ht := sound_traffic h p
  unfold execCounterExhaustion
  dsimp only
  generalize s.traffic p = t at ht ⊢
  split
  · exact outSound_next (sound_send (sound_setPort (sound_sendFlit (sound_fresh ht) _ _ _ _ _) _ _) _)
  · exact outSound_next h

theorem out_execKeyHoldTimeout (h : Sound s) (p : Fin 4) : OutSound (execKeyHoldTimeout p s) := by
  unfold execKeyHoldTimeout
  dsimp only
  split
  · exact outSound_next (sound_portFail h _)
  · exact outSound_next h

theorem sound_acknowledged (h : Sound s) (p : Fin 4) (q : BitVec 32) : Sound (s.acknowledged p q) :=
  sound_ite (sound_foldl _ (fun _ _ h => sound_ite (sound_replayOne h _ _) h) _ (sound_setPort h _ _)) h

theorem sound_acceptFlit (h : Sound s) (p : Fin 4) (b : List Byte) : Sound (s.acceptFlit p b) := by
  unfold State.acceptFlit
  split
  · exact sound_portFail h _
  · dsimp only
    split
    · exact sound_ite (sound_send (sound_setPort h _ _) _) (sound_setPort h _ _)
    · exact sound_acknowledged (sound_traffic (sound_setPort h _ _) _) _ _
    · exact sound_setPort h _ _

theorem sound_receive (h : Sound s) (p : Fin 4) (ws : List (BitVec 72)) : Sound (s.receive p ws) := by
  unfold State.receive
  refine sound_ite h ?_
  split
  · exact sound_portFail h _
  · dsimp only
    split
    · exact sound_acceptFlit (sound_setPort h _ _) _ _
    · exact sound_setPort h _ _
  · split
    · exact sound_acceptFlit h _ _
    · exact h

theorem out_receive (h : Sound s) (p : Fin 4) (ws : List (BitVec 72)) : OutSound (.next (s.receive p ws)) :=
  outSound_next (sound_receive h p ws)

/-! ### The host's register writes and requests (R6, R94, R373, R374) -/

theorem serviceWrite_ready_state (k : Service) (off : Nat) (v : Word) :
    (serviceWrite k off v).ready = k.ready ∧ (serviceWrite k off v).state = k.state := by
  unfold serviceWrite
  split
  · split <;> exact ⟨rfl, rfl⟩
  · exact ⟨rfl, rfl⟩
  · split <;> exact ⟨rfl, rfl⟩
  · exact ⟨rfl, rfl⟩

theorem sound_serviceWrite (h : Sound s) (off : Nat) (v : Word) : Sound (s.setService fun k => serviceWrite k off v) :=
  sound_setService h (fun k => serviceWrite k off v) (serviceWrite_ready_state _ _ _).1 (serviceWrite_ready_state _ _ _).2

theorem sound_schedWrites (h : Sound s) (p off : Nat) (v : Word) :
    Sound (match s.scheds[p]? with | some k => { s with scheds := s.scheds.setIfInBounds p (schedWrite k off v) } | none => s) := by
  split
  · exact sound_scheds h _
  · exact h

theorem sound_portWrites (h : Sound s) (p off : Nat) (v : Word) :
    Sound (match s.ports[p]? with | some k => { s with ports := s.ports.setIfInBounds p (portWrite k off v) } | none => s) := by
  split
  · exact sound_ports h _
  · exact h

theorem sound_plainWrite (h : Sound s) (off : Nat) (v : Word) : Sound (s.plainWrite off v) :=
  sound_ite (sound_schedWrites h _ _ v) (sound_ite (sound_setWelt h _)
    (sound_ite (sound_portWrites h _ _ v) (sound_ite (sound_serviceWrite h _ v) h)))

theorem out_execRegisterWrite (h : Sound s) (r : DevReg) (v : Word) : OutSound (execRegisterWrite r v s) := by
  unfold execRegisterWrite
  split
  · split
    · exact outSound_next (sound_plainWrite h _ _)
    · exact outSound_next h
  · split
    · exact outSound_next h
    · split
      · exact outSound_next (sound_ite (sound_setPart h _ _) h)
      · exact outSound_next (sound_writePart h _ _ _)

theorem sound_nextOf (h : Sound s) {o : Host.Outcome State Fault Refusal} (ho : OutSound o) : Sound (nextOf s o) := by
  cases o with
  | next t => exact ho t rfl
  | fault => exact h
  | refused => exact h

theorem sound_powerCommand (h : Sound s) (n : Nat) : Sound (s.powerCommand n) := by
  refine sound_nextOf h ?_
  split
  · exact outSound_next (sound_powerState h (by decide))
  · exact outSound_next (sound_powerState h (by decide))
  · exact outSound_next (sound_powerState h (by decide))
  · exact out_execPs3Standby h

theorem sound_hint (h : Sound s) (f : Nat) (v : Word) : Sound (s.hint f v) := sound_nextOf h (out_execHostInterrupt h _ _ _ _)

theorem sound_retireRequest (h : Sound s) (v : Word) : Sound (s.retireRequest v) := by
  refine sound_nextOf h ?_
  split
  · exact out_execRetireCluster h _ _
  · exact out_execRetireCore h _
  · exact out_execRetireMatrixRows h _
  · exact out_execRowRepair h _
  · exact outSound_next (sound_setRetstat h _)

theorem sound_barWrite (h : Sound s) (off : Nat) (v : Word) : Sound (s.barWrite off v) := by
  have hp := sound_plainWrite h off v
  unfold State.barWrite
  dsimp only
  generalize s.plainWrite off v = t at hp ⊢
  exact sound_ite (sound_ite (sound_nextOf hp (out_execPop hp _)) hp)
    (sound_ite (sound_ite (sound_nextOf hp (out_setWelt hp _)) hp)
      (sound_ite (sound_ite (sound_nextOf hp (out_execPlaneReturn hp _)) hp)
        (sound_ite (sound_powerCommand hp _) (sound_ite (sound_hint hp _ _)
          (sound_ite (sound_ite (sound_snapshot hp) hp) (sound_ite (sound_retireRequest hp _) hp))))))

theorem sound_barRequest (h : Sound s) (f off : Nat) (l : List Byte) : Sound (s.barRequest f off l) := by
  unfold State.barRequest
  split
  · split
    · exact sound_windowWrite h _ _ _
    · exact h
  · exact sound_foldl _ (fun _ _ h => sound_ite (sound_barWrite h _ _) (sound_ite (sound_hint h _ _) h)) _ h

theorem sound_hostByte (h : Sound s) (a : Nat) (b : Byte) : Sound (s.hostByte a b) := sound_ite h (sound_writeLoc h _ _ _)

theorem out_execHostWrite (h : Sound s) (a : HostAddr) (l : List Byte) : OutSound (execHostWrite a l s) := by
  unfold execHostWrite
  dsimp only
  split
  · split
    · exact outSound_next h
    · exact outSound_next (sound_barRequest h _ _ _)
  · refine outSound_next (sound_foldl _ (fun u x hu => ?_) _ h)
    split
    · exact sound_hostByte hu _ _
    · exact sound_ite (sound_hostByte hu _ _) hu
    · exact hu

theorem out_execHostRead (h : Sound s) (a : HostAddr) (n : Nat) : OutSound (execHostRead a n s) := by
  unfold execHostRead
  dsimp only
  split
  · exact outSound_next h
  · exact outSound_next (sound_send (sound_fresh (sound_ite (sound_allTraffic h) h)) _)

theorem out_execCacheEvictionWriteback (h : Sound s) (c : Cache) (n : Nat) : OutSound (execCacheEvictionWriteback c n s) := by
  unfold execCacheEvictionWriteback
  split
  · exact outSound_next h
  · split
    · exact outSound_next h
    · exact outSound_next (sound_rcache (sound_writeBack h _) _)

/-! ### Chances -/

/- The definition is unfolded as a function: at arguments the kernel would run the walk to compare the two sides. -/
theorem sound_cacheEntry (h : Sound s) (b : Bool) (l a : Nat) : Sound (s.cacheEntry b l a) := by
  have e : @State.cacheEntry = @State.cacheEntry := rfl
  conv at e => rhs; delta State.cacheEntry
  rw [e]
  dsimp only
  generalize State.pathEntry _ _ _ _ _ _ _ = e
  cases e with
  | none => exact h
  | some e => exact sound_tlb h _

theorem sound_spillLine (h : Sound s) (c l : Nat) : Sound (s.spillLine c l) := by
  unfold State.spillLine
  split
  · exact h
  · dsimp only
    split
    · exact sound_rcache h _
    · exact sound_rcache h _

theorem sound_otherDevice (h : Sound s) (a : Nat) (l : List Byte) : Sound (s.otherDevice a l) := by
  refine sound_foldl _ (fun u x hu => ?_) _ h
  dsimp only
  split
  · split
    · exact hu
    · exact sound_writeLoc hu _ _ _
  · exact hu

theorem sound_refuseLine (h : Sound s) (l : Nat) (b : Bool) : Sound (s.refuseLine l b) := by
  unfold State.refuseLine
  split
  · exact sound_ite (sound_refused h _) h
  · exact h

theorem sound_struck (h : Sound s) (w : Storage) : Sound (s.struck w) := by
  unfold State.struck
  cases w with
  | spad i => exact sound_ite (sound_spadPoison h _) h
  | line c a => exact sound_rcache h _
  | v | m | q | e | t | z => exact Sound.hart h _

theorem sound_happen (h : Sound s) (c : Chance) : Sound (s.happen c) := by
  cases c with
  | divide => exact Sound.hart h _
  | cacheEntry => exact sound_cacheEntry h _ _ _
  | dropEntry => exact sound_tlb h _
  | spillLine => exact sound_spillLine h _ _
  | otherDevice => exact sound_otherDevice h _ _
  | refuse => exact sound_refuseLine h _ _
  | strike => exact sound_struck h _

end Sys2Proof.Machine
end

section
/-! Soundness of a step: the meaning of every instruction and event, a turn, and a chance. -/

namespace Sys2Proof.Machine

set_option Elab.async false

open Sys2Proof.Safety

variable {s : State}

/-! ### Moves whose operands are named before the shared meaning -/

theorem out_execVslideup (h : Sound s) (d a : VNum) (x : XReg) (q : Bool) (mk : MNum) : OutSound (execVslideup d a x q mk s) := by
  unfold execVslideup
  exact out_vecMove h _ _ _ _ _

theorem out_execVslidedn (h : Sound s) (d a : VNum) (x : XReg) (q : Bool) (mk : MNum) : OutSound (execVslidedn d a x q mk s) := by
  unfold execVslidedn
  exact out_vecMove h _ _ _ _ _

theorem out_execVslide1up (h : Sound s) (d a : VNum) (x : XReg) (q : Bool) (mk : MNum) : OutSound (execVslide1up d a x q mk s) := by
  unfold execVslide1up
  exact out_vecMove h _ _ _ _ _

theorem out_execVslide1dn (h : Sound s) (d a : VNum) (x : XReg) (q : Bool) (mk : MNum) : OutSound (execVslide1dn d a x q mk s) := by
  unfold execVslide1dn
  exact out_vecMove h _ _ _ _ _

theorem out_vecTree (h : Sound s) (d a b : VNum) (mk : MNum) (rm : Option Rounding) (k : ArithOp) :
    OutSound (vecTree d a b mk rm k s) := by
  unfold vecTree
  exact out_vecReduce h _ _ _ _ _ _ _ _

theorem out_execQmerge (h : Sound s) (d a b : QNum) : OutSound (execQmerge d a b s) := by
  unfold execQmerge
  exact out_setInstr h _ _ _ _ _ _ _

theorem out_execQexpand (h : Sound s) (a : QNum) (v : XReg) (d : VNum) : OutSound (execQexpand a v d s) := by
  unfold execQexpand
  exact out_fibreToVec h _ _ _ _

/-- Every instruction and event keeps soundness: for each, the lemma of its meaning. -/
theorem out_exec (h : Sound s) (i : Instr) : OutSound (exec i s) := by
  unfold exec
  cases i with
  | add | sub | and | or | xor | andn | sll | srl | sra | rol | ror | min | max | minu | maxu | csel | addi | andi |
  ori | xori | slli | srli | srai | rori | lui | mul | mulhiSs | mulhiUu | mulhiSu | div | divu | rem | remu | clz |
  ctz | popc | bswap | bfx | bfxu | bfi | fsh | fshv | bfxuv => exact out_putX h _ _
  | lb | lh | lw | ld | lbu | lhu | lwu => exact out_loadX h _ _ _ _ _
  | sb | sh | sw | sd => exact out_storeX h _ _ _ _
  | bc c k o => exact out_execBc h c k o
  | bnc c k o => exact out_execBnc h c k o
  | jal => exact out_execJal h _ _
  | jalr => exact out_execJalr h _ _ _
  | cmpiEq | cmpiLt | cmpiLtu | cmpEq | cmpLt | cmpLtu | cmpTst | cand | cor | cxor | candn => exact out_putC h _ _
  | movs => exact out_execMovs h _ _
  | smov => exact out_execSmov h _ _
  | trap | ebreak => exact out_trap h _
  | kret => exact out_execKret h
  | mcall => exact out_execMcall h _
  | monret => exact out_execMonret h
  | invpg => exact out_execInvpg h _ _
  | invpgG => exact out_execInvpgG h _
  | hend => exact out_execHend h _
  | faddS | faddD | fsubS | fsubD | fmulS | fmulD | fdivS | fdivD | fsqrtS | fsqrtD | fminS | fminD | fmaxS | fmaxD |
  fmacS | fmacD | fcvtLS | fcvtLD | fcvtLuS | fcvtLuD | fcvtSL | fcvtDL | fcvtSLu | fcvtDLu | fcvtSD | fcvtDS =>
    exact out_fpX h _ _ _
  | fcmpEqS | fcmpEqD | fcmpLtS | fcmpLtD | fcmpLeS | fcmpLeD => exact out_fpC h _ _ _ _
  | amoAdd | amoAnd | amoOr | amoXor | amoMin | amoMax | amoMinu | amoMaxu | amoSwap | amoCas =>
    exact out_amo h _ _ _ _ _ _ _ _
  | casQ => exact out_execCasQ h _ _ _ _ _
  | ldAcq => exact out_execLdAcq h _ _ _ _
  | stRel => exact out_execStRel h _ _ _ _
  | fence => exact out_execFence h _ _ _ _ _
  | ifence => exact out_execIfence h
  | waitge | waiteq => exact out_waitInstr h _ _ _ _ _ _
  | barInit => exact out_execBarInit h _ _ _
  | barArrive => exact out_execBarArrive h _ _ _
  | barWait => exact out_execBarWait h _ _ _
  | barFin => exact out_execBarFin h _
  | farmDef => exact out_execFarmDef h _ _
  | farmNext => exact out_execFarmNext h _ _
  | farmEnd => exact out_execFarmEnd h
  | scommit => exact out_execScommit h
  | sabort => exact out_execSabort h
  | sbegin => exact out_execSbegin h _
  | launch => exact out_execLaunch h _ _ _
  | setvl | setvlH => exact out_setVl h _ _ _ _ _
  | vld | vlds | vldseg | vld2 => exact out_vload h _ _ _ _ _ _
  | vldff => exact out_execVldff h _ _ _ _
  | vst | vsts | vstx | vstxFar | vstseg | vstsegP | vst2 => exact out_vstore h _ _ _ _ _ _ _ _
  | vldx | vldxFar => exact out_gather h _ _ _ _
  | vldsegP => exact out_execVldsegP h _ _ _ _ _ _ _
  | vsbind => exact out_execVsbind h _ _ _ _
  | vsunbind => exact out_execVsunbind h _
  | vtag | vtagr => exact out_setTag h _ _
  | spdisc => exact out_execSpdisc h _ _
  | spkeep => exact out_execSpkeep h _ _
  | vadd | vsub | vmul | vdiv | vrem | vmin | vmax | vand | vor | vxor | vsll | vsrl | vsra | vmulh =>
    exact out_vecVV h _ _ _ _ _ _ _
  | vaddX | vsubX | vmulX | vdivX | vremX | vminX | vmaxX | vandX | vorX | vxorX | vsllX | vsrlX | vsraX | vmulhX =>
    exact out_vecVX h _ _ _ _ _ _ _
  | vfma | vfms | vfnma | vfnms => exact out_vecFused h _ _ _ _ _ _ _ _
  | vcmpEq | vcmpNe | vcmpLt | vcmpLe => exact out_cmpVV h _ _ _ _ _ _
  | vcmpEqX | vcmpNeX | vcmpLtX | vcmpLeX | vcmpGtX | vcmpGeX => exact out_cmpVX h _ _ _ _ _ _
  | mand | mor | mxor | mandn | mnot | msbf | msif => exact out_maskOp h _ _ _
  | mpopc => exact out_execMpopc h _ _ _
  | mfirst => exact out_execMfirst h _ _ _
  | vmv => exact out_execVmv h _ _ _ _
  | vmerge => exact out_execVmerge h _ _ _ _ _ _
  | vsplat | vid => exact out_vecFill h _ _ _ _
  | vcompress | vexpand => exact out_vecMove h _ _ _ _ _
  | vslideup => exact out_execVslideup h _ _ _ _ _
  | vslidedn => exact out_execVslidedn h _ _ _ _ _
  | vslide1up => exact out_execVslide1up h _ _ _ _ _
  | vslide1dn => exact out_execVslide1dn h _ _ _ _ _
  | vrgather => exact out_execVrgather h _ _ _ _ _ _
  | vpfxpop => exact out_execVpfxpop h _ _
  | vconflict => exact out_execVconflict h _ _ _ _
  | vscanSegAdd | vscanSegMin | vscanSegMax => exact out_vecScan h _ _ _ _ _
  | vredAdd | vredMin | vredMax | vredAnd | vredOr | vredXor => exact out_vecTree h _ _ _ _ _ _
  | vfredOrd => exact out_vecReduce h _ _ _ _ _ _ _ _
  | vcvt | vneg | vabs | vsqrt | vexp2 | vlog2 | vrcp | vrsqrt => exact out_vecUnary h _ _ _ _ _ _ _
  | vbext => exact out_execVbext h _ _ _ _ _ _ _
  | vfsh => exact out_execVfsh h _ _ _ _ _ _
  | xaClr => exact out_execXaClr h _
  | xaAddv => exact out_execXaAddv h _ _ _ _
  | xaDot => exact out_execXaDot h _ _ _ _ _ _
  | xaRd => exact out_execXaRd h _ _ _ _
  | xaRdv => exact out_execXaRdv h _ _ _ _
  | xaLd => exact out_execXaLd h _ _ _
  | xaSt => exact out_execXaSt h _ _
  | vmvXv => exact out_execVmvXv h _ _ _ _
  | vmvVx => exact out_execVmvVx h _ _ _
  | qld => exact out_execQld h _ _ _
  | qwalk | qwalkD => exact out_walkFibre h _ _ _
  | qst => exact out_execQst h _ _
  | qisectMul => exact out_execQisectMul h _ _ _ _ _
  | qisectA | qisectB => exact out_setInstr h _ _ _ _ _ _ _
  | qunionAdd => exact out_execQunionAdd h _ _ _ _ _
  | qsort | qcompact => exact out_reshape h _ _ _
  | qcompactM => exact out_execQcompactM h _ _ _
  | qmerge => exact out_execQmerge h _ _ _
  | qexpand => exact out_execQexpand h _ _ _
  | qdot => exact out_execQdot h _ _ _
  | qcoord | qval => exact out_fibreToVec h _ _ _ _
  | qfromv | qfromvAll => exact out_vecToFibre h _ _ _ _
  | qcnt => exact out_execQcnt h _ _
  | qclr => exact out_execQclr h _
  | qscale => exact out_execQscale h _ _ _ _ _
  | qredAdd => exact out_execQredAdd h _ _ _
  | qredMin | qredMax => exact out_fibreReduce h _ _ _ _
  | mattach => exact out_execMattach h _
  | mdetach => exact out_execMdetach h
  | mzeroT => exact out_execMzeroT h _
  | mzeroZ => exact out_execMzeroZ h _
  | mldT => exact out_execMldT h _ _ _
  | mldZ => exact out_execMldZ h _ _ _
  | mldbm => exact out_execMldbm h _ _ _ _
  | mstT => exact out_execMstT h _ _
  | mstZ => exact out_execMstZ h _ _
  | mma | mmaSp | mmaSs => exact out_multiply h _ _ _ _ _ _ _
  | mdrain => exact out_execMdrain h _ _ _ _ _
  | mdrainX => exact out_execMdrainX h _ _ _ _ _ _
  | mdrainv => exact out_execMdrainv h _ _ _ _ _
  | cpy | cpy2 | cpyR => exact out_plainCopy h _ _ _ _ _ _ _
  | cpyG | cpyGd => exact out_indexCopy h _ _ _ _ _ _
  | cbatch => exact out_execCbatch h
  | cwait => exact out_execCwait h _
  | cstat => exact out_execCstat h _ _ _
  | cack => exact out_execCack h _
  | lzInit => exact out_execLzInit h _ _ _
  | lzRes => exact out_execLzRes h _ _
  | lzWait => exact out_execLzWait h _ _
  | lzFree => exact out_execLzFree h _ _
  | lzScrub => exact out_execLzScrub h _ _
  | lzFin => exact out_execLzFin h _
  | qsend => exact out_execQsend h _ _ _ _
  | qrecv => exact out_execQrecv h _ _ _
  | gatherGroupArrive => exact out_execGatherGroupArrive h _ _ _
  | streamPrefetch => exact out_execStreamPrefetch h _ _
  | copyAccept => exact out_execCopyAccept h _
  | copyElement => exact out_execCopyElement h _ _
  | lzResRequest => exact out_execLzResRequest h _ _
  | lzResReply => exact out_execLzResReply h _ _ _
  | zoneFirstRequest => exact out_execZoneFirstRequest h _
  | eyeletPayloadWrite => exact out_execEyeletPayloadWrite h _ _
  | fullAcknowledge => exact out_execFullAcknowledge h _ _
  | monitorWake => exact out_execMonitorWake h _
  | pollInterval => exact out_execPollInterval h _
  | illegalEncoding => exact out_execIllegalEncoding h _ _
  | takeAsyncEvent => exact out_execTakeAsyncEvent h _
  | reclaimTimeout => exact out_execReclaimTimeout h _
  | switchOut => exact out_execSwitchOut h _
  | hartRestore => exact out_execHartRestore h _
  | hartEnd => exact out_execHartEnd h _
  | launchDone => exact out_execLaunchDone h _
  | queueWindowWrite => exact out_execQueueWindowWrite h _ _ _
  | packetAccept => exact out_execPacketAccept h _
  | dependenceRecheck | dependencePoll => exact outSound_next (sound_recheckHead h _ _)
  | schedulePlacement => exact out_execSchedulePlacement h _
  | rackLaunchRequest => exact out_execRackLaunchRequest h _ _ _ _
  | rackReportRequest => exact out_execRackReportRequest h _ _
  | residencyReport => exact out_execResidencyReport h _
  | partitionEnable => exact outSound_next (sound_enablePart h _)
  | partitionDisable => exact outSound_next (sound_disablePart h _)
  | registerWrite => exact out_execRegisterWrite h _ _
  | cacheEvictionWriteback => exact out_execCacheEvictionWriteback h _ _
  | hostWrite => exact out_execHostWrite h _ _
  | hostRead => exact out_execHostRead h _ _
  | pathLost => exact out_execPathLost h _
  | pathReturn => exact out_execPathReturn h _ _
  | pathLostForGood => exact out_execPathLostForGood h _
  | weltCommit | weltGenerationDrain => exact out_setWelt h _
  | weltLinkFail => exact out_execWeltLinkFail h _ _
  | laneSpareRepair => exact outSound_next h
  | nirmusDataFlit | nirmusAcknowledgeFlit | nirmusIdleFlit | keyExhaustionFlit => exact out_receive h _ _
  | planeReturn => exact out_execPlaneReturn h _
  | transmitKeySwitch => exact out_execTransmitKeySwitch h _
  | counterExhaustion => exact out_execCounterExhaustion h _
  | keyHoldTimeout => exact out_execKeyHoldTimeout h _
  | hostInterrupt => exact out_execHostInterrupt h _ _ _ _
  | ps0Run | ps1Capped | ps2Quiesce => exact outSound_next (sound_powerState h (by decide))
  | ps3Standby => exact out_execPs3Standby h
  | unitReady => exact out_execUnitReady h _
  | tempAlert => exact out_execTempAlert h _
  | thermalPowerRemoval => exact out_execThermalPowerRemoval h
  | moduleRemoval | powerUp => exact outSound_next (sound_restart h _)
  | configurationImage => exact out_execConfigurationImage h _
  | fire | snapctlFire => exact outSound_next (sound_snapshot h)
  | retireCluster => exact out_execRetireCluster h _ _
  | retireCore => exact out_execRetireCore h _
  | retireMatrixRows => exact out_execRetireMatrixRows h _
  | rowRepair => exact out_execRowRepair h _
  | rowRepairDone => exact out_execRowRepairDone h
  | memoryErrorEvent => exact out_execMemoryErrorEvent h _ _ _ _ _
  | pop => exact out_execPop h _
  | bytesAcknowledged => exact out_execBytesAcknowledged h _ _ _
  | portTraining => exact out_execPortTraining h _ _

theorem sound_rotate (h : Sound s) : Sound s.rotate := by
  unfold State.rotate
  dsimp only
  split
  · exact h
  · exact h

theorem out_passTurn {o : Host.Outcome State Fault Refusal} (ho : OutSound o) : OutSound (passTurn o) := by
  cases o with
  | next s => exact outSound_next (sound_rotate (ho s rfl))
  | fault r => exact fun _ e => nomatch e
  | refused r => exact fun _ e => nomatch e

theorem out_issue (h : Sound s) : OutSound (issue s) := by
  have hf := ends_fetch h
  unfold issue
  split
  · rename_i e
    rw [e] at hf
    exact outSound_next (sound_takeTrap hf _)
  · rename_i e
    rw [e] at hf
    split
    · exact out_exec hf _
    · exact out_exec (sound_latch hf _ _) _

theorem out_turn (h : Sound s) : OutSound (turn s) := by
  unfold turn
  dsimp only
  split
  case h_3 => exact out_issue h
  case h_8 => exact outSound_next h
  all_goals exact out_exec h _

theorem out_act (h : Sound s) : OutSound (act s) := by
  unfold act
  split
  · exact outSound_next (sound_happen (sound_chances h _) _)
  · exact out_passTurn (out_turn h)

theorem out_step (h : Sound s) : OutSound (step s) := by
  unfold step
  split
  · split
    · exact out_exec (sound_agenda h _) _
    · exact outSound_next h
  · split
    · exact out_act h
    · exact fun _ e => nomatch e

/-- Settles O55: each meaning, turn and chance keeps soundness, and so does the step made of them. -/
theorem stepKeepsSound : Obligations.StepKeepsSound := by
  intro s t h e
  exact out_step h t e

end Sys2Proof.Machine
end

section
/-! The harts that a retirement asks to leave (21 R346, 23 R380). -/

namespace Sys2Proof.Laws

set_option Elab.async false

open Sys2Proof.Machine

variable {s t : State}

/-- Where a hart is placed, and its phase. -/
def seat (k : Hart) : Place × Phase := (k.place, k.phase)

/-- A relation of every hart of two states lives on when the second state's harts change with it. -/
theorem everyHart_mapHarts {R : Hart → Hart → Prop} (h : Claim.everyHart s t R) {f : Hart → Hart}
    (hf : ∀ k k', R k k' → R k (f k')) : Claim.everyHart s (t.mapHarts f) R := by
  obtain ⟨hcur, hlen, hpark⟩ := h
  refine ⟨hf _ _ hcur, by simpa [State.mapHarts] using hlen, fun i k k' hk hk' => ?_⟩
  obtain ⟨j, hj, rfl⟩ : ∃ j, t.parked[i]? = some j ∧ f j = k' := by simpa [State.mapHarts] using hk'
  exact hf _ _ (hpark i k j hk hj)

/-- Harts that keep something keep it in their list. -/
theorem harts_map_of_everyHart {α : Type} (g : Hart → α) (h : Claim.everyHart s t fun k k' => g k' = g k) :
    t.harts.map g = s.harts.map g := by
  obtain ⟨hcur, hlen, hpark⟩ := h
  have hp : t.parked.map g = s.parked.map g := by
    refine List.ext_getElem (by simpa using hlen) fun i h1 h2 => ?_
    rw [List.length_map] at h1 h2
    simpa using hpark i _ _ (List.getElem?_eq_getElem h2) (List.getElem?_eq_getElem h1)
  simp [State.harts, hcur, hp]

theorem everyHart_mono {R Q : Hart → Hart → Prop} (h : Claim.everyHart s t R) (hq : ∀ k k', R k k' → Q k k') :
    Claim.everyHart s t Q :=
  ⟨hq _ _ h.1, h.2.1, fun i k k' hk hk' => hq _ _ (h.2.2 i k k' hk hk')⟩

/-- A hart asked to leave for a retirement is asked so. -/
theorem retired_retireOut (k : Hart) (p : Hart → Bool) : Claim.retired k (if p k then k.retireOut else k) (p k = true) := by
  unfold Hart.retireOut
  split
  · rename_i hp
    split
    · exact ⟨fun _ _ _ => rfl, fun h => absurd hp h, rfl⟩
    · rename_i hb
      refine ⟨fun _ ha hs => absurd ?_ hb, fun h => absurd hp h, rfl⟩
      rcases ha with ha | ha <;> simp [ha, hs]
  · rename_i hp
    exact ⟨fun h => absurd h hp, fun _ => .inl rfl, rfl⟩

/-- The switch that a mate is asked for takes nothing from what the retirement asked (R345: cause 0x20 is pending once). -/
theorem retired_preempt {k k' : Hart} {hit : Prop} (h : Claim.retired k k' hit) : Claim.retired k (k'.preempt false) hit := by
  obtain ⟨hhit, hmiss, heq⟩ := h
  unfold Hart.preempt
  split
  · rename_i hb
    simp only [Bool.and_eq_true, Option.isNone_iff_eq_none] at hb
    obtain ⟨⟨⟨-, hnone⟩, -⟩, -⟩ := hb
    refine ⟨fun h1 h2 h3 => ?_, fun _ => .inr rfl, by rw [heq]⟩
    rw [hhit h1 h2 h3] at hnone
    cases hnone
  · exact ⟨hhit, hmiss, heq⟩

theorem retired_keeps_seat {k k' : Hart} {hit : Prop} (h : Claim.retired k k' hit) : seat k' = seat k := by
  obtain ⟨-, -, heq⟩ := h
  rw [heq]
  rfl

/-- A switch of co-resident mates changes harts only, and those only by asking them. -/
theorem preemptMates_says (s : State) (l n : Nat) : ∃ f : Hart → Hart, s.preemptMates l n = s.mapHarts f ∧
    ∀ k, f k = k ∨ f k = k.preempt false := by
  have stays : s = s.mapHarts id := by simp [State.mapHarts]
  unfold State.preemptMates
  split
  · split
    · exact ⟨_, rfl, fun k => by split <;> simp⟩
    · exact ⟨id, stays, fun k => .inl rfl⟩
  · exact ⟨id, stays, fun k => .inl rfl⟩

/-- What asking harts to leave does (R346): only harts change, each as `Claim.retired` says. -/
theorem retireHarts_says (s : State) (p : Hart → Bool) :
    s.retireHarts p = { s with hart := (s.retireHarts p).hart, parked := (s.retireHarts p).parked } ∧
      Claim.everyHart s (s.retireHarts p) fun k k' => Claim.retired k k' (p k = true) := by
  have first : Claim.everyHart s (s.mapHarts fun h => if p h then h.retireOut else h) fun k k' => Claim.retired k k' (p k = true) := by
    refine ⟨retired_retireOut _ p, by simp [State.mapHarts], fun i k k' hk hk' => ?_⟩
    obtain ⟨j, hj, rfl⟩ : ∃ j, s.parked[i]? = some j ∧ (if p j then j.retireOut else j) = k' := by
      simpa [State.mapHarts] using hk'
    cases hk.symm.trans hj
    exact retired_retireOut _ p
  have mates : ∀ (l : List Hart) (t : State), t = { s with hart := t.hart, parked := t.parked } →
      Claim.everyHart s t (fun k k' => Claim.retired k k' (p k = true)) →
      let u := l.foldl (fun s h => s.preemptMates h.place.launch h.place.hid) t
      u = { s with hart := u.hart, parked := u.parked } ∧ Claim.everyHart s u fun k k' => Claim.retired k k' (p k = true) := by
    intro l
    induction l with
    | nil => exact fun t ht hr => ⟨ht, hr⟩
    | cons h l ih =>
      intro t ht hr
      obtain ⟨f, hf, hk⟩ := preemptMates_says t h.place.launch h.place.hid
      refine ih _ ?_ ?_ <;> beta_reduce
      · rw [hf]
        conv_lhs => rw [ht]
        rfl
      · rw [hf]
        refine everyHart_mapHarts hr fun k k' h => ?_
        rcases hk k' with e | e
        · rw [e]; exact h
        · rw [e]; exact retired_preempt h
  exact mates _ _ rfl first

/-- Whether a hart holds what is retired, by where it is placed and its phase. -/
theorem retireHeld_congr (h : t.harts.map seat = s.harts.map seat) (c : Nat) (k : Option Nat) : t.retireHeld c k = s.retireHeld c k := by
  have held (u : State) : u.retireHeld c k = (u.harts.map seat).any fun e =>
      (e.2 == .active || e.2 == .monitor) && e.1.core == c &&
        (match k with | none => true | some k => decide (e.1.cbase ≤ k) && decide (k < e.1.cbase + e.1.grant)) := by
    rw [List.any_map]; rfl
  rw [held, held, h]

theorem retireHarts_held (s : State) (p : Hart → Bool) (c : Nat) (k : Option Nat) : (s.retireHarts p).retireHeld c k = s.retireHeld c k :=
  retireHeld_congr (harts_map_of_everyHart seat (everyHart_mono (retireHarts_says s p).2 fun _ _ => retired_keeps_seat)) c k

/-- No hart that runs holds a retired core or cluster. -/
theorem not_retireHeld_iff (s : State) (c : Nat) (k : Option Nat) : s.retireHeld c k = false ↔
    ∀ h ∈ s.hart :: s.parked, (h.phase = .active ∨ h.phase = .monitor) → ¬ (h.place.core = c ∧
      ∀ n ∈ k, h.place.cbase ≤ n ∧ n < h.place.cbase + h.place.grant) := by
  unfold State.retireHeld State.harts
  rw [List.any_eq_false]
  refine forall₂_congr fun h _ => ?_
  cases k <;> simp [not_and]

/-! ### The end of a retirement (R380) -/

theorem settleRetire_of_held (h : ∀ e ∈ s.retiring, s.retireHeld e.1 e.2 = true) : s.settleRetire = s := by
  unfold State.settleRetire
  exact if_pos (by simpa using fun c k hm => h (c, k) hm)

theorem settleRetire_of_free {e : Nat × Option Nat} (he : e ∈ s.retiring) (h : s.retireHeld e.1 e.2 = false) :
    s.settleRetire = { s with retiring := s.retiring.filter fun (c, k) => s.retireHeld c k
                              service := { s.service with retstat := 2 } } := by
  unfold State.settleRetire
  refine if_neg fun hall => ?_
  have := List.all_eq_true.1 hall e he
  simp [h] at this

theorem settleRetire_eq (s : State) : s.settleRetire =
    { s with retiring := s.settleRetire.retiring, service := s.settleRetire.service } := by
  unfold State.settleRetire
  split <;> rfl

end Sys2Proof.Laws
end

section
/-! The owners of live zones that a retirement ends (23 R380): what ending a hart by its number does to the zones, the harts and the
launches. -/

namespace Sys2Proof.Laws

set_option Elab.async false

open Sys2Proof.Machine

variable {s t u : State}

/-! ### Another hart's turn -/

theorem exchange_perm {n : Nat} {h k : Hart} {l rest : List Hart} (e : exchange n h l = some (k, rest)) :
    (k :: rest).Perm (h :: l) ∧ k.place.hid = n := by
  induction l generalizing k rest with
  | nil => cases e
  | cons j l ih =>
    unfold exchange at e
    split at e
    · rename_i hj
      cases e
      exact ⟨.swap .., hj⟩
    · obtain ⟨⟨k', rest'⟩, e', heq⟩ := Option.map_eq_some_iff.1 e
      cases heq
      obtain ⟨hp, hk⟩ := ih e'
      exact ⟨((List.Perm.swap ..).trans (hp.cons j)).trans (.swap ..), hk⟩

theorem exchange_of_mem {n : Nat} (h : Hart) {l : List Hart} (hm : ∃ k ∈ l, k.place.hid = n) :
    ∃ k rest, exchange n h l = some (k, rest) := by
  induction l with
  | nil => simp at hm
  | cons j l ih =>
    unfold exchange
    split
    · exact ⟨_, _, rfl⟩
    · rename_i hj
      obtain ⟨k, hk, hn⟩ := hm
      obtain ⟨k', rest, e⟩ := ih ⟨k, (List.mem_cons.1 hk).resolve_left fun e => hj (e ▸ hn), hn⟩
      exact ⟨k', j :: rest, by rw [e]; rfl⟩

/-- Giving the turn to a hart of a number only puts the harts in another order. -/
theorem swap_says (s : State) (n : Nat) : s.swap n = { s with hart := (s.swap n).hart, parked := (s.swap n).parked } ∧
    (s.swap n).harts.Perm s.harts := by
  unfold State.swap
  split
  · rename_i e
    exact ⟨rfl, (exchange_perm e).1⟩
  · exact ⟨rfl, .refl _⟩

theorem swap_hid {n : Nat} (h : ∃ k ∈ s.parked, k.place.hid = n) : (s.swap n).hart.place.hid = n := by
  obtain ⟨k, rest, e⟩ := exchange_of_mem s.hart h
  unfold State.swap
  rw [e]
  exact (exchange_perm e).2

/-- Doing something as a hart that is there: it is done with that hart's turn, and then the harts are in some order. -/
theorem asHart_says {n : Nat} (f : State → State) (h : ∃ k ∈ s.harts, k.place.hid = n) :
    ∃ u, u = { s with hart := u.hart, parked := u.parked } ∧ u.harts.Perm s.harts ∧ u.hart.place.hid = n ∧
      s.asHart n f = { f u with hart := (s.asHart n f).hart, parked := (s.asHart n f).parked } ∧
      (s.asHart n f).harts.Perm (f u).harts := by
  unfold State.asHart
  split
  · rename_i hn
    exact ⟨s, rfl, .refl _, hn, rfl, .refl _⟩
  · rename_i hn
    obtain ⟨k, hk, hkn⟩ := h
    have hp : k ∈ s.parked := (List.mem_cons.1 hk).resolve_left fun e => hn (e ▸ hkn)
    obtain ⟨heq, hperm⟩ := swap_says s n
    obtain ⟨heq', hperm'⟩ := swap_says (f (s.swap n)) s.hart.place.hid
    exact ⟨s.swap n, heq, hperm, swap_hid ⟨k, hp, hkn⟩, heq', hperm'⟩

/-! ### Zones that die (R245) -/

/-- Everything but zones, channels and scratchpads is as it was: memory, launches, and where the harts are and their phases. -/
structure ZonesOnly (s t : State) : Prop where
  mem : t.mem = s.mem
  retCores : t.retCores = s.retCores
  launches : t.launches = s.launches
  cur : seat t.hart = seat s.hart
  parked : t.parked.map seat = s.parked.map seat

theorem ZonesOnly.refl (s : State) : ZonesOnly s s := ⟨rfl, rfl, rfl, rfl, rfl⟩

theorem ZonesOnly.trans (h : ZonesOnly s t) (k : ZonesOnly t u) : ZonesOnly s u :=
  ⟨k.mem.trans h.mem, k.retCores.trans h.retCores, k.launches.trans h.launches, k.cur.trans h.cur, k.parked.trans h.parked⟩

/-- Harts changed in their channels alone. -/
theorem zonesOnly_mapHarts (s : State) {f : Hart → Hart} (hf : ∀ k, seat (f k) = seat k) : ZonesOnly s (s.mapHarts f) :=
  ⟨rfl, rfl, rfl, hf _, by simp [State.mapHarts, Function.comp_def, hf]⟩

theorem foldl_zonesOnly {α : Type} (f : State → α → State) (hf : ∀ s a, ZonesOnly s (f s a) ∧ (f s a).zones = s.zones) (l : List α)
    (s : State) : ZonesOnly s (l.foldl f s) ∧ (l.foldl f s).zones = s.zones := by
  induction l generalizing s with
  | nil => exact ⟨.refl s, rfl⟩
  | cons a l ih =>
    obtain ⟨hk, hz⟩ := hf s a
    obtain ⟨hk', hz'⟩ := ih (f s a)
    exact ⟨hk.trans hk', hz'.trans hz⟩

/-- A zone that stops being live leaves the list of live zones, and every other zone stays in it. -/
theorem killZone_says (s : State) (z : Zone) : ZonesOnly s (s.killZone z) ∧ (s.killZone z).zones = s.zones.filter fun y => y != z := by
  unfold State.killZone
  dsimp only
  set v : State := { s.setZoneWord z 0 0 with
    zones := (s.setZoneWord z 0 0).zones.filter fun y => y != z
    fills := (s.setZoneWord z 0 0).fills.filter fun f => !(f.core == z.core && f.zone == z.num)
    torn := (s.setZoneWord z 0 0).torn.filter fun t => !(t.core == z.core && t.zone == z.num) } with hv
  have hs : ZonesOnly s v := ⟨rfl, rfl, rfl, rfl, rfl⟩
  have hz : v.zones = s.zones.filter fun y => y != z := rfl
  clear_value v
  refine (fun h => ⟨hs.trans h.1, h.2.trans hz⟩) (foldl_zonesOnly _ (fun w f => ?_) _ v)
  split
  · exact ⟨zonesOnly_mapHarts w fun k => by split <;> rfl, rfl⟩
  · exact ⟨⟨rfl, rfl, rfl, rfl, rfl⟩, rfl⟩
  · exact ⟨.refl w, rfl⟩

theorem killZones_says (l : List Zone) (s : State) : ZonesOnly s (l.foldl State.killZone s) ∧
    ∀ z, z ∈ (l.foldl State.killZone s).zones ↔ z ∈ s.zones ∧ z ∉ l := by
  induction l generalizing s with
  | nil => exact ⟨.refl s, by simp⟩
  | cons y l ih =>
    obtain ⟨hk, hz⟩ := killZone_says s y
    obtain ⟨hk', hz'⟩ := ih (s.killZone y)
    refine ⟨hk.trans hk', fun z => ?_⟩
    rw [List.foldl_cons, hz' z, hz, List.mem_filter, List.mem_cons, not_or, and_assoc, bne_iff_ne]

/-! ### Launches -/

/-- The launch of a number once another has been replaced. -/
theorem launchOf_putLaunch {m : Nat} {l : Launch} (h : s.launchOf m = some l) (x : Launch) :
    (s.putLaunch x).launchOf m = some (if l.id = x.id then x else l) := by
  have key (L : List Launch) (hL : L.find? (fun k => k.id == m) = some l) :
      (L.map fun k => if k.id = x.id then x else k).find? (fun k => k.id == m) = some (if l.id = x.id then x else l) := by
    induction L with
    | nil => cases hL
    | cons k L ih =>
      have hid : (if k.id = x.id then x else k).id = k.id := by split <;> simp_all
      rw [List.map_cons, List.find?_cons, hid]
      rw [List.find?_cons] at hL
      split at hL
      · cases hL; rfl
      · exact ih hL
  exact key s.launches h

/-- Every launch of a state is there later, with no smaller status. -/
def LaunchesKept (s t : State) : Prop := ∀ m l, s.launchOf m = some l → ∃ l', t.launchOf m = some l' ∧ l.status ≤ l'.status

theorem LaunchesKept.trans (h : LaunchesKept s t) (k : LaunchesKept t u) : LaunchesKept s u := fun m l e => by
  obtain ⟨l', e', hl⟩ := h m l e
  obtain ⟨l'', e'', hl'⟩ := k m l' e'
  exact ⟨l'', e'', hl.trans hl'⟩

/-- A launch replaced by one of its own number with no smaller status. -/
theorem launchesKept_putLaunch {n : Nat} {l x : Launch} (h : s.launchOf n = some l) (hid : x.id = l.id) (hs : l.status ≤ x.status) :
    LaunchesKept s (s.putLaunch x) := by
  intro m k hk
  refine ⟨_, launchOf_putLaunch hk x, ?_⟩
  split
  · rename_i e
    have hm : k.id = m := by simpa using List.find?_some hk
    have hn : l.id = n := by simpa using List.find?_some h
    have : m = n := by rw [← hm, e, hid, hn]
    subst this
    cases h.symm.trans hk
    exact hs
  · exact le_rfl

theorem newCandidate_says (s old : State) (n : Nat) :
    s.newCandidate old n = { s with launches := (s.newCandidate old n).launches } ∧ LaunchesKept s (s.newCandidate old n) := by
  unfold State.newCandidate
  have stays : LaunchesKept s s := fun m l e => ⟨l, e, le_rfl⟩
  split
  · split
    · rename_i e _
      exact ⟨rfl, launchesKept_putLaunch e rfl le_rfl⟩
    · exact ⟨rfl, stays⟩
  · exact ⟨rfl, stays⟩

/-- A hart's launch takes the status it ends with, where it is larger (R22). -/
theorem closeLaunch_says (s : State) (n hid status : Nat) :
    s.closeLaunch n hid status = { s with launches := (s.closeLaunch n hid status).launches } ∧
      LaunchesKept s (s.closeLaunch n hid status) ∧
      ∀ l, s.launchOf n = some l → ∃ l', (s.closeLaunch n hid status).launchOf n = some l' ∧ status ≤ l'.status := by
  unfold State.closeLaunch
  cases e : s.launchOf n with
  | none => exact ⟨rfl, fun m l h => ⟨l, h, le_rfl⟩, fun _ h => by cases h⟩
  | some l =>
    refine ⟨rfl, launchesKept_putLaunch e rfl (Nat.le_max_left ..), fun l' h => ?_⟩
    cases h
    exact ⟨_, launchOf_putLaunch e _, by rw [if_pos rfl]; exact Nat.le_max_right ..⟩

/-! ### A hart that ends (R24) -/

theorem settleRetire_launches (s : State) : s.settleRetire.launches = s.launches := by rw [settleRetire_eq]

/-- What the end of the hart whose turn it is does to memory, harts, zones and launches. -/
theorem endHart_says (s : State) (status : Nat) :
    (s.endHart status).mem = s.mem ∧ (s.endHart status).retCores = s.retCores ∧
      (s.endHart status).hart.place = s.hart.place ∧ (s.endHart status).hart.phase = .ended ∧
      (s.endHart status).parked.map seat = s.parked.map seat ∧
      (∀ z, z ∈ (s.endHart status).zones ↔ z ∈ s.zones ∧ z.owner ≠ s.hart.place.hid) ∧
      LaunchesKept s (s.endHart status) ∧
      ∀ l, s.launchOf s.hart.place.launch = some l →
        ∃ l', (s.endHart status).launchOf s.hart.place.launch = some l' ∧ status ≤ l'.status := by
  obtain ⟨hk, hz⟩ := killZones_says (s.zones.filter fun z => z.owner == s.hart.place.hid) s
  unfold State.endHart
  extract_lets h held st v h' src w w'
  have hplace : h'.place = s.hart.place := congrArg Prod.fst hk.cur
  have hst : status ≤ st := by
    simp only [st]
    split
    · exact Nat.le_max_left ..
    · exact le_rfl
  have hw : w' = { w with spad := w'.spad, spadPoison := w'.spadPoison } := by
    simp only [w']
    split <;> rfl
  have hv : ∀ m, w'.launchOf m = s.launchOf m := fun m => by
    rw [hw]
    exact congrArg (List.find? fun l : Launch => l.id == m) hk.launches
  clear_value st w'
  obtain ⟨hc, hckept, hcstatus⟩ := closeLaunch_says w' h'.place.launch h'.place.hid st
  obtain ⟨hn, hnkept⟩ := newCandidate_says (w'.closeLaunch h'.place.launch h'.place.hid st) s h'.place.launch
  set c := w'.closeLaunch h'.place.launch h'.place.hid st
  set n := c.newCandidate s h'.place.launch
  obtain ⟨a, b, d, e, f, hall⟩ : ∃ a b d e f, n.settleRetire =
      { w with spad := a, spadPoison := b, launches := d, retiring := e, service := f } :=
    ⟨_, _, _, _, _, by rw [settleRetire_eq, hn, hc, hw]⟩
  have hlaunch : ∀ m, n.settleRetire.launchOf m = n.launchOf m := fun m =>
    congrArg (List.find? fun l : Launch => l.id == m) (settleRetire_launches n)
  have hkept : LaunchesKept s n.settleRetire := fun m l e => by
    rw [hlaunch]
    exact hckept.trans hnkept m l ((hv m).trans e)
  refine ⟨by rw [hall]; exact hk.mem, by rw [hall]; exact hk.retCores, by rw [hall]; exact hplace, by rw [hall],
    by rw [hall]; exact hk.parked, fun z => ?_, hkept, fun l e => ?_⟩
  · rw [hall]
    refine (hz z).trans (and_congr_right fun hm => ?_)
    rw [List.mem_filter, not_and, beq_iff_eq]
    exact ⟨fun h => h hm, fun h _ => h⟩
  · rw [← hplace] at e ⊢
    obtain ⟨l', e', h1⟩ := hcstatus l ((hv _).trans e)
    obtain ⟨l'', e'', h2⟩ := hnkept _ _ e'
    exact ⟨l'', (hlaunch _).trans e'', hst.trans (h1.trans h2)⟩

end Sys2Proof.Laws
end

section
/-! The clauses of retirement (21 R346, 23 R380), but for the load that waits for a row. -/

namespace Sys2Proof.Laws

set_option Elab.async false

open Sys2Proof.Machine

variable {s t u : State}

/-! ### Harts ended by their numbers -/

/-- The numbers of the harts of a state. -/
def hids (s : State) : List Nat := s.harts.map fun k => k.place.hid

/-- What has become of a state once the harts of some numbers have been ended with status 2. -/
structure Ended (s t : State) (l : List Nat) : Prop where
  mem : t.mem = s.mem
  retCores : t.retCores = s.retCores
  places : (t.harts.map Hart.place).Perm (s.harts.map Hart.place)
  ended : ∀ k ∈ t.harts, k.place.hid ∈ l → k.phase = .ended
  stays : ∀ k ∈ t.harts, k.phase = .ended ∨ ∃ j ∈ s.harts, seat j = seat k
  zones : ∀ z, z ∈ t.zones ↔ z ∈ s.zones ∧ z.owner ∉ l
  launches : LaunchesKept s t
  status : ∀ k ∈ s.harts, k.place.hid ∈ l → ∀ x, s.launchOf k.place.launch = some x →
    ∃ x', t.launchOf k.place.launch = some x' ∧ 2 ≤ x'.status

theorem Ended.hids_perm {l : List Nat} (h : Ended s t l) : (hids t).Perm (hids s) := by
  simpa [hids, Function.comp_def] using h.places.map Place.hid

theorem ended_nil (s : State) : Ended s s [] :=
  ⟨rfl, rfl, .refl _, by simp, fun k hk => .inr ⟨k, hk, rfl⟩, by simp, fun _ x h => ⟨x, h, le_rfl⟩, by simp⟩

theorem Ended.cons {n : Nat} {l : List Nat} (h : Ended s t [n]) (k : Ended t u l) : Ended s u (n :: l) where
  mem := k.mem.trans h.mem
  retCores := k.retCores.trans h.retCores
  places := k.places.trans h.places
  ended j hj hn := by
    rcases List.mem_cons.1 hn with rfl | hl
    · rcases k.stays j hj with e | ⟨i, hi, e⟩
      · exact e
      · have hplace : i.place = j.place := congrArg Prod.fst e
        exact (congrArg Prod.snd e).symm.trans (h.ended i hi (by rw [hplace]; exact List.mem_singleton_self _))
    · exact k.ended j hj hl
  stays j hj := by
    rcases k.stays j hj with e | ⟨i, hi, e⟩
    · exact .inl e
    · rcases h.stays i hi with e' | ⟨a, ha, e'⟩
      · exact .inl ((congrArg Prod.snd e).symm.trans e')
      · exact .inr ⟨a, ha, e'.trans e⟩
  zones z := by
    rw [k.zones z, h.zones z]
    simp only [List.mem_cons, List.not_mem_nil, or_false, not_or, and_assoc]
  launches := h.launches.trans k.launches
  status j hj hn x hx := by
    rcases List.mem_cons.1 hn with e | hl
    · obtain ⟨x', hx', h2⟩ := h.status j hj (e ▸ List.mem_singleton_self _) x hx
      obtain ⟨x'', hx'', hle⟩ := k.launches _ _ hx'
      exact ⟨x'', hx'', h2.trans hle⟩
    · obtain ⟨i, hi, e⟩ : ∃ i ∈ t.harts, i.place = j.place :=
        List.mem_map.1 (h.places.mem_iff.2 (List.mem_map_of_mem hj))
      obtain ⟨x', hx', -⟩ := h.launches _ _ hx
      rw [← e] at hx' ⊢
      exact k.status i hi (e ▸ hl) x' hx'

/-- Harts with different numbers: the one of a number is the only one. -/
theorem eq_of_hid {j k : Hart} (hn : (hids s).Nodup) (hj : j ∈ s.harts) (hk : k ∈ s.harts) (e : j.place.hid = k.place.hid) : j = k :=
  List.inj_on_of_nodup_map hn hj hk e

/-- Ending one hart by its number. -/
theorem endByNumber_ended {n : Nat} (hn : (hids s).Nodup) (h : n ∈ hids s) : Ended s (s.endByNumber n) [n] := by
  obtain ⟨u, hu, huperm, hun, ht, htperm⟩ := asHart_says (s := s) (n := n) (fun s => s.endHart 2) (List.mem_map.1 h)
  obtain ⟨hmem, hret, hplace, hphase, hpark, hzones, hkept, hstatus⟩ := endHart_says u 2
  have hnu : (hids u).Nodup := (huperm.map fun k : Hart => k.place.hid).nodup_iff.2 hn
  have hlaunch (m : Nat) : u.launchOf m = s.launchOf m := by rw [hu]; rfl
  change s.endByNumber n = _ at ht
  change (s.endByNumber n).harts.Perm _ at htperm
  -- a hart after it: the one that has ended, or one of the others, which are where they were
  have who : ∀ k ∈ (s.endByNumber n).harts, k = (u.endHart 2).hart ∨ ∃ j ∈ u.parked, seat j = seat k := by
    intro k hk
    rcases List.mem_cons.1 (htperm.mem_iff.1 hk) with e | hk
    · exact .inl e
    · exact .inr (List.mem_map.1 (hpark ▸ List.mem_map_of_mem (f := seat) hk))
  have hlaunch' (m : Nat) : (s.endByNumber n).launchOf m = (u.endHart 2).launchOf m := by rw [ht]; rfl
  refine ⟨by rw [ht]; exact hmem.trans (by rw [hu]), by rw [ht]; exact hret.trans (by rw [hu]), ?_, fun k hk hkn => ?_, fun k hk => ?_,
    fun z => ?_, fun m x hx => ?_, fun k hk hkn x hx => ?_⟩
  · refine (htperm.map Hart.place).trans (.trans (.of_eq ?_) (huperm.map Hart.place))
    have hp : (u.endHart 2).parked.map Hart.place = u.parked.map Hart.place := by
      simpa [Function.comp_def, seat] using congrArg (List.map Prod.fst) hpark
    simp [State.harts, hplace, hp]
  · rcases who k hk with e | ⟨j, hj, e⟩
    · rw [e]; exact hphase
    · have hjn : j.place.hid = u.hart.place.hid := by
        rw [show j.place = k.place from congrArg Prod.fst e, hun]
        exact List.mem_singleton.1 hkn
      have : u.hart.place.hid ∉ u.parked.map fun k => k.place.hid := (List.nodup_cons.1 hnu).1
      exact absurd (hjn ▸ List.mem_map_of_mem (f := fun k : Hart => k.place.hid) hj) this
  · rcases who k hk with e | ⟨j, hj, e⟩
    · exact .inl (e ▸ hphase)
    · exact .inr ⟨j, huperm.mem_iff.1 (List.mem_cons_of_mem _ hj), e⟩
  · rw [ht]
    refine (hzones z).trans ?_
    rw [hun, List.mem_singleton, hu]
  · rw [hlaunch']
    exact hkept m x ((hlaunch m).trans hx)
  · have e : k = u.hart := eq_of_hid hnu (huperm.mem_iff.2 hk) (List.mem_cons_self ..) ((List.mem_singleton.1 hkn).trans hun.symm)
    subst e
    rw [hlaunch']
    exact hstatus x ((hlaunch _).trans hx)

theorem foldl_endByNumber (l : List Nat) (hn : (hids s).Nodup) (h : ∀ n ∈ l, n ∈ hids s) :
    Ended s (l.foldl State.endByNumber s) l := by
  induction l generalizing s with
  | nil => exact ended_nil s
  | cons n l ih =>
    have h1 := endByNumber_ended hn (h n (List.mem_cons_self ..))
    exact h1.cons (ih (h1.hids_perm.nodup_iff.2 hn) fun m hm => h1.hids_perm.mem_iff.2 (h m (List.mem_cons_of_mem _ hm)))

/-- Once the owners of a core's zones have ended, harts that are where they were and zones and launches as they are then. -/
theorem Ended.ownersEnded {v : State} {l : List Nat} {core : Nat} (h : Ended s v l)
    (hl : ∀ n, n ∈ l ↔ ∃ z ∈ s.zones, z.core = core ∧ z.owner = n)
    (hseat : t.harts.map seat = v.harts.map seat) (hz : t.zones = v.zones) (hx : t.launches = v.launches) :
    Claim.ownersEnded s t core := by
  intro z hzs
  refine ⟨fun hno => ?_, fun hc => ?_⟩
  · rw [hz]
    refine (h.zones z).2 ⟨hzs, fun hm => ?_⟩
    obtain ⟨y, hy, hyc, hyo⟩ := (hl _).1 hm
    exact hno y hy hyc hyo
  · have ho : z.owner ∈ l := (hl _).2 ⟨z, hzs, hc, rfl⟩
    refine ⟨by rw [hz, h.zones z]; exact fun hm => hm.2 ho, fun k hk hkn => ?_, fun k hk hkn x hxs => ?_⟩
    · obtain ⟨j, hj, e⟩ := List.mem_map.1 (hseat ▸ List.mem_map_of_mem (f := seat) hk)
      have hjn : j.place.hid ∈ l := by rw [show j.place = k.place from congrArg Prod.fst e, hkn]; exact ho
      exact (congrArg Prod.snd e).symm.trans (h.ended j hj hjn)
    · obtain ⟨x', hx', h2⟩ := h.status k hk (hkn ▸ ho) x hxs
      obtain ⟨x'', hx'', hle⟩ := h.launches _ _ hxs
      cases hx'.symm.trans hx''
      have hid : x.id = k.place.launch := by simpa using List.find?_some hxs
      refine ⟨x', ?_, h2, hle⟩
      rw [hid, ← hx']
      exact congrArg (List.find? fun l : Launch => l.id == k.place.launch) hx

end Sys2Proof.Laws
end

section
/-! Retirement and the repair of a row (21 R346, 23 R380), and memory errors (21 R356 to R359). -/

namespace Sys2Proof.Laws

set_option Elab.async false

open Sys2Proof.Machine

variable {s t u : State}

/-! ### Retirement of clusters and cores -/

/-- A retirement while none is under way. -/
theorem retirement_of_idle (h : s.service.retstat ≠ 1) (f : State → State) : s.retirement f = f (s.setRetstat 1) := if_neg h

/-- A second retirement is refused. -/
theorem retirement_of_busy (h : s.service.retstat = 1) (f : State → State) :
    s.retirement f = Claim.service s { s.service with retstat := 3 } := if_pos h

/-- What asking harts to leave and settling what nobody holds makes of a state. -/
structure AskedToLeave (u t : State) (p : Hart → Bool) : Prop where
  mem : t.mem = u.mem
  spad : t.spad = u.spad
  retClusters : t.retClusters = u.retClusters
  retCores : t.retCores = u.retCores
  zones : t.zones = u.zones
  launches : t.launches = u.launches
  x : ∀ r, t.x r = u.x r
  harts : Claim.everyHart u t fun k k' => Claim.retired k k' (p k = true)
  free : ∀ e ∈ u.retiring, u.retireHeld e.1 e.2 = false → t.service = { u.service with retstat := 2 }
  held : (∀ e ∈ u.retiring, u.retireHeld e.1 e.2 = true) → t.service = u.service

theorem askedToLeave (u : State) (p : Hart → Bool) : AskedToLeave u (u.retireHarts p).settleRetire p := by
  obtain ⟨hv, hr⟩ := retireHarts_says u p
  have hheld := retireHarts_held u p
  generalize u.retireHarts p = v at hv hr hheld ⊢
  have hret : v.retiring = u.retiring := by rw [hv]
  have hx : v.hart.x = u.hart.x := by
    obtain ⟨⟨-, -, hcur⟩, -⟩ := hr
    rw [hcur]
  have ht := settleRetire_eq v
  refine ⟨by rw [ht, hv], by rw [ht, hv], by rw [ht, hv], by rw [ht, hv], by rw [ht, hv], by rw [ht, hv], fun r => ?_, ?_,
    fun e he hf => ?_, fun h => ?_⟩
  · rw [ht]
    simp only [State.x, hx]
  · rw [ht]
    exact hr
  · rw [settleRetire_of_free (hret ▸ he) ((hheld _ _).trans hf), hv]
  · rw [settleRetire_of_held fun e he => (hheld _ _).trans (h e (hret ▸ he)), hv]

theorem AskedToLeave.seats {p : Hart → Bool} (h : AskedToLeave u t p) : t.harts.map seat = u.harts.map seat :=
  harts_map_of_everyHart seat (everyHart_mono h.harts fun _ _ => retired_keeps_seat)

/-- The harts asked to leave, by another name of who they are. -/
theorem AskedToLeave.asked {p : Hart → Bool} (h : AskedToLeave u t p) {q : Hart → Prop} (hq : ∀ k, p k = true ↔ q k) :
    Claim.everyHart u t fun k k' => Claim.retired k k' (q k) :=
  everyHart_mono h.harts fun k k' hk => by rwa [propext (hq k)] at hk

/-- A hart of a core whose clusters are among those granted to it. -/
def onCluster (core cl : Nat) (k : Hart) : Bool :=
  k.place.core == core && decide (k.place.cbase ≤ cl) && decide (cl < k.place.cbase + k.place.grant)

theorem onCluster_iff (core cl : Nat) (k : Hart) : onCluster core cl k = true ↔
    k.place.core = core ∧ k.place.cbase ≤ cl ∧ cl < k.place.cbase + k.place.grant := by
  simp [onCluster, and_assoc]

/-- The state in which a retirement of a cluster asks harts to leave. -/
def clusterRetiring (s : State) (core : Fin 128) (cl : Fin 16) : State :=
  { s.setRetstat 1 with retClusters := (core.val, cl.val) :: s.retClusters, retiring := (core.val, some cl.val) :: s.retiring }

theorem retireCluster_eq (h : s.service.retstat ≠ 1) (core : Fin 128) (cl : Fin 16) :
    exec (.retireCluster core cl) s =
      .next ((clusterRetiring s core cl).retireHarts (onCluster core.val cl.val)).settleRetire :=
  congrArg Host.Outcome.next (retirement_of_idle h _)

/-- The state in which a retirement of a core ends the owners of its zones. -/
def coreRetiring (s : State) (core : Fin 128) : State :=
  { s.setRetstat 1 with retCores := core.val :: s.retCores, retiring := (core.val, none) :: s.retiring }

/-- The owners of the live zones of a core. -/
def zoneOwners (s : State) (core : Nat) : List Nat := ((s.zones.filter fun z => z.core == core).map Zone.owner).eraseDups

theorem mem_zoneOwners {core n : Nat} : n ∈ zoneOwners s core ↔ ∃ z ∈ s.zones, z.core = core ∧ z.owner = n := by
  simp [zoneOwners, and_assoc]

theorem retireCore_eq (h : s.service.retstat ≠ 1) (core : Fin 128) :
    exec (.retireCore core) s =
      .next (((zoneOwners s core.val).foldl State.endByNumber (coreRetiring s core)).retireHarts fun k =>
        k.place.core == core.val).settleRetire :=
  congrArg Host.Outcome.next (retirement_of_idle h _)

theorem cluster_clause (h : s.service.retstat ≠ 1) (core : Fin 128) (cl : Fin 16) :
    ∃ t, exec (.retireCluster core cl) s = .next t ∧ (core.val, cl.val) ∈ t.retClusters ∧
      (∀ e ∈ s.retClusters, e ∈ t.retClusters) ∧ t.mem = s.mem ∧ t.spad = s.spad ∧ (∀ r, t.x r = s.x r) ∧
      let holds (k : Hart) := k.place.core = core.val ∧ k.place.cbase ≤ cl.val ∧ cl.val < k.place.cbase + k.place.grant
      Claim.everyHart s t (fun k k' => Claim.retired k k' (holds k)) ∧
      ((∀ k ∈ s.hart :: s.parked, (k.phase = .active ∨ k.phase = .monitor) → ¬ holds k) →
        t.service = { s.service with retstat := 2 }) ∧
      ((∃ k ∈ s.hart :: s.parked, (k.phase = .active ∨ k.phase = .monitor) ∧ holds k) →
        (∀ e ∈ s.retiring, s.retireHeld e.1 e.2 = true) → t.service = { s.service with retstat := 1 }) := by
  have ha := askedToLeave (clusterRetiring s core cl) (onCluster core.val cl.val)
  have hfree := not_retireHeld_iff s core.val (some cl.val)
  refine ⟨_, retireCluster_eq h core cl, ?_⟩
  generalize ((clusterRetiring s core cl).retireHarts (onCluster core.val cl.val)).settleRetire = t at ha ⊢
  refine ⟨?_, fun e he => ?_, ha.mem, ha.spad, ha.x, ha.asked (onCluster_iff _ _), fun hno => ?_, fun hyes hall => ?_⟩
  · rw [ha.retClusters]
    exact List.mem_cons_self ..
  · rw [ha.retClusters]
    exact List.mem_cons_of_mem _ he
  · refine ha.free _ (List.mem_cons_self ..) (hfree.2 fun k hk hp hq => hno k hk hp ?_)
    exact ⟨hq.1, hq.2 _ rfl⟩
  · refine ha.held fun e he => ?_
    rcases List.mem_cons.1 he with rfl | he
    · by_contra hf
      obtain ⟨k, hk, hp, hq⟩ := hyes
      exact hfree.1 (Bool.eq_false_of_not_eq_true hf) k hk hp ⟨hq.1, fun n hn => by cases hn; exact hq.2⟩
    · exact hall e he

theorem core_clause (h : s.service.retstat ≠ 1) (core : Fin 128) (hz : ∀ z ∈ s.zones, z.core ≠ core.val) :
    ∃ t, exec (.retireCore core) s = .next t ∧ core.val ∈ t.retCores ∧ t.mem = s.mem ∧ t.spad = s.spad ∧
      Claim.everyHart s t (fun k k' => Claim.retired k k' (k.place.core = core.val)) ∧
      ((∀ k ∈ s.hart :: s.parked, (k.phase = .active ∨ k.phase = .monitor) → k.place.core ≠ core.val) →
        t.service = { s.service with retstat := 2 }) := by
  have hnone : zoneOwners s core.val = [] := List.eq_nil_iff_forall_not_mem.2 fun n hn => by
    obtain ⟨z, hm, hc, -⟩ := mem_zoneOwners.1 hn
    exact hz z hm hc
  have ha := askedToLeave (coreRetiring s core) fun k => k.place.core == core.val
  refine ⟨_, retireCore_eq h core, ?_⟩
  rw [hnone, List.foldl_nil]
  generalize ((coreRetiring s core).retireHarts fun k => k.place.core == core.val).settleRetire = t at ha ⊢
  refine ⟨?_, ha.mem, ha.spad, ha.asked fun k => beq_iff_eq, fun hno => ?_⟩
  · rw [ha.retCores]
    exact List.mem_cons_self ..
  · exact ha.free _ (List.mem_cons_self ..) ((not_retireHeld_iff s core.val none).2 fun k hk hp hq => hno k hk hp hq.1)

theorem core_owners_clause (h : s.service.retstat ≠ 1) (core : Fin 128)
    (hz : ∀ z ∈ s.zones, z.core = core.val → ∃ k ∈ s.hart :: s.parked, k.place.hid = z.owner ∧ k.phase ≠ .empty)
    (hn : ((s.hart :: s.parked).map fun k => k.place.hid).Nodup) :
    ∃ t, exec (.retireCore core) s = .next t ∧ core.val ∈ t.retCores ∧ t.mem = s.mem ∧ Claim.ownersEnded s t core.val := by
  have there : ∀ n ∈ zoneOwners s core.val, n ∈ hids (coreRetiring s core) := fun n hm => by
    obtain ⟨z, hzs, hc, rfl⟩ := mem_zoneOwners.1 hm
    obtain ⟨k, hk, hkn, -⟩ := hz z hzs hc
    exact hkn ▸ List.mem_map_of_mem (f := fun k : Hart => k.place.hid) hk
  have he := foldl_endByNumber (s := coreRetiring s core) (zoneOwners s core.val) hn there
  refine ⟨_, retireCore_eq h core, ?_⟩
  generalize (zoneOwners s core.val).foldl State.endByNumber (coreRetiring s core) = v at he ⊢
  have ha := askedToLeave v fun k => k.place.core == core.val
  refine ⟨?_, ha.mem.trans he.mem, fun z hm => ?_⟩
  · rw [ha.retCores, he.retCores]
    exact List.mem_cons_self ..
  · exact he.ownersEnded (fun n => mem_zoneOwners) ha.seats ha.zones ha.launches z hm

/-! ### Repair of a row, and the error logs -/

/-- A log whose count of a kind has risen. -/
def counted (k : ErrLog) (kind : MemErr) : ErrLog :=
  { k with ce := k.ce + (if kind = .corrected then 1 else 0), ue := k.ue + (if kind = .uncorrectable then 1 else 0)
           rp := k.rp + (if kind = .rowRepaired then 1 else 0) }

/-- An event is counted, and recorded behind fewer than 64 records (R358, R359). -/
theorem event_eq (k : ErrLog) (kind : MemErr) (chan layer addr : Nat) :
    k.event kind chan layer addr =
      if k.recs.length < 64 then
        { counted k kind with recs := k.recs ++ [Claim.errorRecord (counted k kind) kind chan layer addr] }
      else { counted k kind with ovf := k.ovf + 1 } := by
  cases kind <;>
    simp only [ErrLog.event, counted, Claim.errorRecord, memErrCode, bitsAt, Nat.shiftRight_eq_div_pow, if_true, if_false, reduceCtorEq,
      BitVec.ofNat_eq_ofNat, BitVec.add_zero, Nat.reducePow]

theorem event_logged (k : ErrLog) (kind : MemErr) (chan layer addr : Nat) :
    Claim.logged k (k.event kind chan layer addr) kind chan layer addr := by
  rw [event_eq]
  split
  · rename_i h
    exact ⟨rfl, rfl, rfl, fun _ => ⟨rfl, rfl⟩, fun h' => absurd h (Nat.not_lt.2 h')⟩
  · rename_i h
    exact ⟨rfl, rfl, rfl, fun h' => absurd h' h, fun _ => ⟨rfl, rfl⟩⟩

theorem logEvent_other (k j : Fin 16) (h : j ≠ k) (kind : MemErr) (chan layer addr : Nat) :
    (s.logEvent k kind chan layer addr).logs[j.val] = s.logs[j.val] := by
  have : k.val ≠ j.val := fun e => h (Fin.ext e.symm)
  simp [State.logEvent, this]

theorem logEvent_logged (k : Fin 16) (kind : MemErr) (chan layer addr : Nat) :
    Claim.logged s.logs[k.val] (s.logEvent k kind chan layer addr).logs[k.val] kind chan layer addr := by
  simpa [State.logEvent] using event_logged s.logs[k.val] kind chan layer addr

theorem rowRepairDone_clause {a : Nat} (h : s.repairing = some a) : ∃ t, exec .rowRepairDone s = .next t ∧
    (∃ chan layer : Nat, Claim.logged (s.logs[a / (48 * 2 ^ 30) % 16]) (t.logs[a / (48 * 2 ^ 30) % 16]) .rowRepaired chan layer a) ∧
    t = { s with logs := t.logs, repairing := none, service := { s.service with retstat := 2 } } := by
  have he : exec .rowRepairDone s = .next { (s.setRetstat 2).logEvent (Fin.ofNat 16 (controllerOf a)) .rowRepaired
      (Config.rowPlace (rowAt a)).1.val (Config.rowPlace (rowAt a)).2.val a with repairing := none } := by
    show execRowRepairDone s = _
    unfold execRowRepairDone
    rw [h]
  exact ⟨_, he, ⟨_, _, logEvent_logged (s := s.setRetstat 2) (Fin.ofNat 16 (controllerOf a)) _ _ _ a⟩, rfl⟩

theorem rowRepair_clause (h : s.service.retstat ≠ 1) :
    (0xC000000000 ≤ s.service.retaddr.toNat → exec (.rowRepair s.service.retaddr.toNat) s =
      .next (Claim.service s { s.service with retstat := 3 })) ∧
    (s.service.retaddr.toNat < 0xC000000000 → exec (.rowRepair s.service.retaddr.toNat) s = .next { s with
      repairing := some s.service.retaddr.toNat, service := { s.service with retstat := 1 } }) := by
  have he : exec (.rowRepair s.service.retaddr.toNat) s =
      .next (if Config.hbmBytes ≤ s.service.retaddr.toNat then (s.setRetstat 1).setRetstat 3
        else { s.setRetstat 1 with repairing := some s.service.retaddr.toNat }) := by
    show execRowRepair s.service.retaddr.toNat s = _
    unfold execRowRepair
    rw [if_neg (not_not.2 rfl), retirement_of_idle h]
  rw [he, show Config.hbmBytes = 0xC000000000 from rfl]
  exact ⟨fun h => by rw [if_pos h]; rfl, fun h => by rw [if_neg (Nat.not_le.2 h)]; rfl⟩

/-- The second retirement, of each kind. -/
theorem busy_clause (h : s.service.retstat = 1) (core : Fin 128) (cl : Fin 16) :
    let refused := Claim.service s { s.service with retstat := 3 }
    exec (.retireCluster core cl) s = .next refused ∧ exec (.retireCore core) s = .next refused ∧
      exec (.retireMatrixRows core) s = .next refused ∧ exec (.rowRepair s.service.retaddr.toNat) s = .next refused := by
  refine ⟨congrArg Host.Outcome.next (retirement_of_busy h _), congrArg Host.Outcome.next (retirement_of_busy h _),
    congrArg Host.Outcome.next (retirement_of_busy h _), ?_⟩
  show execRowRepair s.service.retaddr.toNat s = _
  unfold execRowRepair
  rw [if_neg (not_not.2 rfl), retirement_of_busy h]

/-! ### Memory errors -/

/-- The sectors that are unreadable once one has been struck. -/
theorem poisoned_strike (p : List (Nat × BitVec 32)) (addr a : Nat) : poisoned (strike p addr) a 1 = true ↔
    (a / 32 = addr / 32 ∨ ∃ e ∈ p, e.1 ≠ addr / 32 * 32 ∧ e.1 ≤ a ∧ a < e.1 + 32) := by
  unfold poisoned strike
  rw [List.any_cons, Bool.or_eq_true, List.any_eq_true]
  refine or_congr ?_ ?_
  · simp only [Bool.and_eq_true, decide_eq_true_eq]
    omega
  · simp only [List.mem_filter, bne_iff_ne, Bool.and_eq_true, decide_eq_true_eq, and_assoc, Nat.lt_succ_iff]

theorem memoryErrors : Claim.MemoryErrors := by
  intro s k
  refine ⟨fun kind chan layer addr => ⟨fun h => if_pos h, fun h => ?_⟩, ?_⟩
  · have he : exec (.memoryErrorEvent k kind chan layer addr) s = _ := if_neg (not_not.2 h)
    by_cases hk : kind = .uncorrectable
    · refine ⟨_, he.trans (if_pos hk), logEvent_logged k kind chan.val layer.val addr, fun j hj => logEvent_other k j hj _ _ _ _,
        fun hn => absurd hk hn, fun _ a => poisoned_strike s.poison addr a, rfl⟩
    · exact ⟨_, he.trans (if_neg hk), logEvent_logged k kind chan.val layer.val addr, fun j hj => logEvent_other k j hj _ _ _ _,
        fun _ => rfl, fun h => absurd h hk, rfl⟩
  · refine ⟨_, rfl, by simp, fun j hj => ?_, rfl⟩
    have : k.val ≠ j.val := fun e => hj (Fin.ext e.symm)
    simp [this]

end Sys2Proof.Laws
end

section
/-! A load from a row under repair (23 R380), and the obligations' retirement. -/

namespace Sys2Proof.Laws

set_option Elab.async false

open Sys2Proof.Machine

variable {s u : State}

/-- The scalar loads are one meaning, of 1 to 8 bytes. -/
theorem exec_loadForm {i : Instr} {n : Nat} {sg : Bool} {d a : XReg} {o : Int} (h : Claim.loadForm i = some (n, sg, d, a, o))
    (s : State) : 0 < n ∧ ∃ sg', exec i s = loadX n sg' d a o s := by
  cases i <;> cases h <;> exact ⟨by decide, _, rfl⟩

/-- An access to a row under repair is to wait. -/
theorem targetCheck_inRepair {p : Fin 8} {core va pa n r : Nat} (ht : targetOf pa = .hbm) (hr : u.inRange p pa n = true)
    (hready : u.stackReady pa = true) (hl : u.stackLost core pa = false) (hn : 0 < n) (hrep : u.repairing = some r)
    (hrow : rowAt r = rowAt pa) :
    u.targetCheck p core va pa n .load true = .error { cause := holdCause, addr := va } := by
  have hin : u.inRepair pa n = true := by
    unfold State.inRepair
    rw [hrep]
    exact List.any_eq_true.2 ⟨0, List.mem_range.2 (by omega), by simp [hrow]⟩
  unfold State.targetCheck
  rw [ht]
  simp [hr, hready, hl, hin]

/-- The instruction that makes it is tried again: nothing of it is done (log 30). -/
theorem load_waits {va n pa r : Nat} (hal : va % n = 0) (hw : va < windowBase) (htr : u.translate u.hart.ctx .load va = .ok pa)
    (ht : targetOf pa = .hbm) (hr : u.inRange u.hart.place.part pa n = true)
    (hready : u.stackReady pa = true) (hl : u.stackLost u.hart.place.core pa = false) (hn : 0 < n) (hrep : u.repairing = some r)
    (hrow : rowAt r = rowAt pa) : u.load .cached va n = .error { cause := holdCause, addr := va } := by
  have hres : u.resolveIn u.hart.ctx .load va n n = .ok (.phys pa) := by
    unfold State.resolveIn
    simp [hal, Nat.not_le.2 hw, htr, Except.map]
  have hc := targetCheck_inRepair (p := u.hart.place.part) (va := va) ht hr hready hl hn hrep hrow
  have hloc : u.locate .load va n n true = .error { cause := holdCause, addr := va } := by
    unfold State.locate State.locateIn
    rw [hres]
    exact congrArg (· >>= fun _ => Except.ok (Loc.phys pa)) hc
  exact congrArg (· >>= fun l => u.readAt .cached l va n >>= fun r => Except.ok (u.laid l va n r.1, r.2)) hloc

theorem rowLoad_clause {i : Instr} {n : Nat} {sg : Bool} {d a : XReg} {o : Int} {r pa ea : Nat}
    (hi : Claim.loadForm i = some (n, sg, d, a, o)) (hrep : s.repairing = some r) (hea : ea = Claim.address s a o) (hu : u = s.drain)
    (hal : ea % n = 0) (hw : ea < windowBase) (htr : u.translate u.hart.ctx .load ea = .ok pa) (ht : targetOf pa = .hbm)
    (hr : u.inRange u.hart.place.part pa n = true) (hready : u.stackReady pa = true)
    (hl : u.stackLost u.hart.place.core pa = false) (hrow : rowAt r = rowAt pa) : exec i s = .next u := by
  obtain ⟨hn, sg', he⟩ := exec_loadForm hi s
  have hrep' : u.repairing = some r := by
    obtain ⟨_, _, _, _, _, _, _, _, e⟩ := co_drain s
    rw [hu, e]
    exact hrep
  have hea' : u.ea a o = ea := by
    unfold State.ea
    rw [hu, co_x (co_drain s), hea]
    rfl
  have hload := load_waits hal hw htr ht hr hready hl hn hrep' hrow
  rw [he]
  unfold loadX
  dsimp only
  rw [← hu, hea', hload]
  show Host.Outcome.next (u.takeTrap (u.trapOf { cause := holdCause, addr := ea })) = .next u
  exact congrArg Host.Outcome.next (if_pos rfl)

theorem retirement : Claim.Retirement := by
  intro s
  refine ⟨busy_clause, fun h core => ⟨cluster_clause h core, core_clause h core, core_owners_clause h core,
    congrArg Host.Outcome.next (retirement_of_idle h _), rowRepair_clause h⟩, ?_, fun h => ?_, fun a h _ => rowRepairDone_clause h⟩
  · intro i n sg d a o r pa hi hrep ea u hal hw htr ht hr hready hl hrow
    exact rowLoad_clause hi hrep rfl rfl hal hw htr ht hr hready hl hrow
  · show execRowRepairDone s = _
    unfold execRowRepairDone
    rw [h]

end Sys2Proof.Laws
end

section
/-! What the host does to memory and registers (05 R94, R109, 18 R307, 19 R310, R318, 23 R373 to R379). -/

namespace Sys2Proof.Laws

set_option Elab.async false

open Sys2Proof.Machine

variable {s : State}

/-! ### Writes of the host -/

theorem hostReaches_iff (f : Fin 9) (a : Nat) : s.hostReaches f.val a = true ↔
    f ≠ 0 ∧ s.stackReady a = true ∧ ∃ p, s.partOfVf f.val = some p ∧ s.inRange p a 1 = true := by
  unfold State.hostReaches
  cases s.partOfVf f.val with
  | none => simp
  | some p =>
    have hf : (f.val != 0) = true ↔ f ≠ 0 := bne_iff_ne.trans (not_congr (Fin.val_eq_zero_iff (a := f)))
    simp only [Bool.and_eq_true, hf, Option.some.injEq, exists_eq_left']
    exact ⟨fun ⟨⟨h1, h2⟩, h3⟩ => ⟨h1, h3, h2⟩, fun ⟨h1, h3, h2⟩ => ⟨⟨h1, h2⟩, h3⟩⟩

/-- The target of a byte that a function reaches, and that the device serves. -/
theorem hostMay_iff (f : Fin 9) (a : Nat) : Claim.hostMay s f a ↔
    targetOf a = .host ∨ (targetOf a = .hbm ∧ s.hostReaches f.val a = true) := by
  unfold Claim.hostMay
  rw [hostReaches_iff]

theorem hostWrite_taken {f : Fin 9} {a : Nat} (b : Byte) (ha : a < 2 ^ 52) (hmay : Claim.hostMay s f a)
    (hs : targetOf a = .host ∨ s.silent = false) : exec (.hostWrite ⟨f, a⟩ [b]) s = .next (s.hostByte a b) := by
  have hbar : ¬ barBase ≤ a := Nat.not_le.2 ha
  show execHostWrite ⟨f, a⟩ [b] s = _
  unfold execHostWrite
  rcases (hostMay_iff f a).1 hmay with h | ⟨h, hr⟩
  · simp [hbar, h]
  · have hq : s.silent = false := hs.resolve_left fun e => by rw [h] at e; cases e
    simp [hbar, h, hr, hq]

theorem hostWrite_ignored {f : Fin 9} {a : Nat} (b : Byte) (ha : a < 2 ^ 52)
    (hno : ¬ Claim.hostMay s f a ∨ (targetOf a ≠ .host ∧ s.silent = true) ∨ s.liveWord (.phys a) = true) :
    exec (.hostWrite ⟨f, a⟩ [b]) s = .next s := by
  have hbar : ¬ barBase ≤ a := Nat.not_le.2 ha
  have hlive : s.liveWord (.phys a) = true → s.hostByte a b = s := fun h => if_pos h
  rw [hostMay_iff] at hno
  show execHostWrite ⟨f, a⟩ [b] s = _
  unfold execHostWrite
  cases h : targetOf a with
  | host =>
    have : s.liveWord (.phys a) = true := by simpa [h] using hno
    simp [hbar, h, hlive this]
  | hbm =>
    by_cases hr : s.silent = false ∧ s.hostReaches f.val a = true
    · have : s.liveWord (.phys a) = true := by simpa [h, hr.1, hr.2] using hno
      simp [hbar, h, hlive this]
    · simpa [hbar, h] using fun hq hy => absurd ⟨hq, hy⟩ hr
  | remote d o => simp [hbar, h]
  | nothing => simp [hbar, h]

/-- A byte of memory written by the host. -/
theorem hostByte_says (hm : Memory.wf s.mem = true) {a : Nat} (b : Byte) (hl : s.liveWord (.phys a) = false) :
    Memory.read (s.hostByte a b).mem a = b ∧ (∀ k, k ≠ a → Memory.read (s.hostByte a b).mem k = Memory.read s.mem k) ∧
      s.hostByte a b = { s with mem := (s.hostByte a b).mem, poison := (s.hostByte a b).poison } := by
  have e : s.hostByte a b = s.writeLoc (.phys a) 1 b.toNat := if_neg (by simp [hl])
  rw [e]
  refine ⟨?_, fun k hk => Memory.read_writeN_other _ _ _ _ (by omega), rfl⟩
  show Memory.read (Memory.writeN s.mem a 1 b.toNat) a = b
  simpa using Memory.read_writeN hm a 1 b.toNat 0 Nat.one_pos

/-! ### Reads of the host -/

/-- The byte that the host reads of memory. -/
theorem hostSees_memory (n : Nat) {f : Fin 9} {a : Nat} (ha : a < 2 ^ 52) :
    (¬ Claim.hostMay s f a → s.hostSees n f.val a = 0) ∧
      (Claim.hostMay s f a → poisoned s.poison a 1 = false → s.hostSees n f.val a = Memory.read s.mem a) := by
  have hbar : ¬ barBase ≤ a := Nat.not_le.2 ha
  rw [hostMay_iff]
  unfold State.hostSees State.hostMemory
  rw [if_neg hbar]
  cases h : targetOf a <;> simp +contextual

theorem hostRead_clause {f : Fin 9} {a n : Nat} (hs : s.silent = false) (han : a + n ≤ 2 ^ 52) (ha : a < 2 ^ 52) :
    ∃ t data, exec (.hostRead ⟨f, a⟩ n) s = .next t ∧
      t = { s with outbox := s.outbox ++ [.hostData a data], freeCtr := t.freeCtr } ∧ data.length = n ∧
      ∀ k < n, (¬ Claim.hostMay s f (a + k) → data[k]? = some 0) ∧
        (Claim.hostMay s f (a + k) → poisoned s.poison (a + k) 1 = false → data[k]? = some (Memory.read s.mem (a + k))) := by
  have hbar : ¬ barBase ≤ a := Nat.not_le.2 ha
  refine ⟨s.fresh.2.send (.hostData a ((List.range n).map fun k => s.fresh.2.hostSees s.freeCtr f.val (a + k))),
    (List.range n).map fun k => s.fresh.2.hostSees s.freeCtr f.val (a + k), ?_, ?_, by simp, fun k hk => ?_⟩
  · show execHostRead ⟨f, a⟩ n s = _
    unfold execHostRead
    simp only [hs, hbar, if_false, Bool.false_eq_true]
    rfl
  · rfl
  · obtain ⟨hno, hyes⟩ := hostSees_memory (s := s.fresh.2) s.freeCtr (f := f) (a := a + k) (by omega)
    have hat : ((List.range n).map fun k => s.fresh.2.hostSees s.freeCtr f.val (a + k))[k]? =
        some (s.fresh.2.hostSees s.freeCtr f.val (a + k)) := by simp [hk]
    rw [hat]
    exact ⟨fun h => congrArg some (hno h), fun h hp => congrArg some (hyes h hp)⟩

/-! ### Register writes -/

/-- After a failed image no register is written (R379). -/
theorem registerWrite_silent (h : s.silent = true) (r : DevReg) (v : Word) : exec (.registerWrite r v) s = .next s := by
  cases r with
  | bar off => exact if_neg (by simp [h])
  | partition p n => exact if_pos h

theorem registerWrite_bar (h : s.silent = false) {off : Nat} (ho : off % 8 = 0) (v : Word) :
    exec (.registerWrite (.bar off) v) s = .next (s.plainWrite off v) := if_pos (by simp [h, ho])

theorem setIfInBounds_eq_set {α : Type} {n i : Nat} (v : Vector α n) (x : α) (h : i < n) : v.setIfInBounds i x = v.set i x h :=
  Vector.ext fun j hj => by rw [Vector.getElem_setIfInBounds, Vector.getElem_set]

/-- RCLTO of a partition's scheduler block (R318). -/
theorem plainWrite_rclto (p : Fin 8) (v : Word) : s.plainWrite (0x400000 + 0x40 * p.val) v =
    { s with scheds := s.scheds.set p.val { s.scheds[p.val] with rclto := v.toNat % 2 ^ 32 } } := by
  have hp := p.isLt
  have hin : 0x400000 ≤ 0x400000 + 0x40 * p.val ∧ 0x400000 + 0x40 * p.val < 0x410000 := by omega
  have hno : (0x400000 + 0x40 * p.val - 0x400000) / 0x40 = p.val := by omega
  have hoff : (0x400000 + 0x40 * p.val - 0x400000) % 0x40 = 0 := by omega
  unfold State.plainWrite
  rw [if_pos hin]
  dsimp only
  rw [hno, hoff, Vector.getElem?_eq_getElem hp]
  simp [setIfInBounds_eq_set _ _ hp, schedWrite, bitsAt]

/-- RETADDR (R374). -/
theorem plainWrite_retaddr (v : Word) : s.plainWrite 0x440030 v =
    { s with service := { s.service with retaddr := BitVec.ofNat 64 (v.toNat / 32 % 2 ^ 47 * 32) } } := by
  have hoff : (0x440030 - 0x440000 : Nat) = 0x30 := by norm_num
  unfold State.plainWrite
  rw [if_neg (by norm_num), if_neg (by norm_num), if_neg (by norm_num), if_pos (by norm_num), hoff]
  simp [State.setService, serviceWrite, bitsAt, Nat.shiftRight_eq_div_pow]

/-- LTVEC of a partition (R307). -/
theorem registerWrite_ltvec (h : s.silent = false) (p : Fin 8) (v : Word) : exec (.registerWrite (.partition p 8) v) s =
    .next (s.setPart p { s.partOf p with ltvec := BitVec.ofNat 64 (v.toNat / 4 % 2 ^ 49 * 4) }) := by
  show execRegisterWrite (.partition p 8) v s = _
  unfold execRegisterWrite
  simp [h, State.writePart, partWrite, bitsAt, Nat.shiftRight_eq_div_pow]

theorem register_clause (h : s.silent = false) :
    (∀ (p : Fin 8) (v : Word), ∃ t, exec (.registerWrite (.bar (0x400000 + 0x40 * p.val)) v) s = .next t ∧
      t.scheds[p.val] = { s.scheds[p.val] with rclto := v.toNat % 2 ^ 32 } ∧
      (∀ q : Fin 8, q ≠ p → t.scheds[q.val] = s.scheds[q.val]) ∧ t = { s with scheds := t.scheds }) ∧
    (∀ v : Word, ∃ t, exec (.registerWrite (.bar 0x440030) v) s = .next t ∧
      t = { s with service := { s.service with retaddr := BitVec.ofNat 64 (v.toNat / 32 % 2 ^ 47 * 32) } }) ∧
    (∀ (p : Fin 8) (v : Word), ∃ t, exec (.registerWrite (.partition p 8) v) s = .next t ∧
      t.partOf p = { s.partOf p with ltvec := BitVec.ofNat 64 (v.toNat / 4 % 2 ^ 49 * 4) } ∧
      (∀ q : Fin 8, q ≠ p → t.partOf q = s.partOf q) ∧ t = { s with parts := t.parts }) := by
  have apart {p q : Fin 8} (hq : q ≠ p) : p.val ≠ q.val := fun e => hq (Fin.ext e.symm)
  refine ⟨fun p v => ?_, fun v => ?_, fun p v => ?_⟩
  · refine ⟨_, (registerWrite_bar h (by omega) v).trans (congrArg _ (plainWrite_rclto p v)), by simp, fun q hq => ?_, rfl⟩
    simp [apart hq]
  · exact ⟨_, (registerWrite_bar h (by norm_num) v).trans (congrArg _ (plainWrite_retaddr v)), rfl⟩
  · refine ⟨_, registerWrite_ltvec h p v, by simp [State.setPart, State.partOf], fun q hq => ?_, rfl⟩
    simp [State.setPart, State.partOf, apart hq]

end Sys2Proof.Laws
end

section
/-! The eviction of a cached line (05 R110, 22 R371), and the obligation on maintenance. -/

namespace Sys2Proof.Laws

set_option Elab.async false

open Sys2Proof.Machine

variable {s : State}

/-! ### Dirty bytes that go out -/

/-- A dirty byte that goes out reaches its place in its line and no other byte. -/
theorem sendByte_says (hm : Memory.wf s.mem = true) (line : Nat) (d : Dirty) :
    s.sendByte line d = { s with mem := (s.sendByte line d).mem, poison := (s.sendByte line d).poison } ∧
      Memory.wf (s.sendByte line d).mem = true ∧
      (∀ a, line + d.off % 128 ≠ a → Memory.read (s.sendByte line d).mem a = Memory.read s.mem a) ∧
      (d.half = none → Memory.read (s.sendByte line d).mem (line + d.off % 128) = d.byte) := by
  have other (v a : Nat) (ha : line + d.off % 128 ≠ a) :
      Memory.read (Memory.writeN s.mem (line + d.off % 128) 1 v) a = Memory.read s.mem a :=
    Memory.read_writeN_other _ _ _ _ (by omega)
  unfold State.sendByte State.putLoc
  cases d.half with
  | none =>
    refine ⟨rfl, Memory.wf_writeN hm _ _ _, other _, fun _ => ?_⟩
    show Memory.read (Memory.writeN s.mem (line + d.off % 128) 1 d.byte.toNat) (line + d.off % 128) = d.byte
    simpa using Memory.read_writeN hm (line + d.off % 128) 1 d.byte.toNat 0 Nat.one_pos
  | some b => exact ⟨rfl, Memory.wf_writeN hm _ _ _, other _, fun h => by cases h⟩

/-- All dirty bytes of a line that go out: a byte written whole, and by no other dirty byte, stands there then. -/
theorem sendBytes_says (line : Nat) (ds : List Dirty) (s : State) (hm : Memory.wf s.mem = true) :
    let t := ds.foldl (fun s d => s.sendByte line d) s
    t = { s with mem := t.mem, poison := t.poison } ∧
      (∀ a, (∀ d ∈ ds, line + d.off % 128 ≠ a) → Memory.read t.mem a = Memory.read s.mem a) ∧
      ∀ d ∈ ds, d.half = none → (∀ e ∈ ds, e.off % 128 = d.off % 128 → e = d) →
        Memory.read t.mem (line + d.off % 128) = d.byte := by
  induction ds generalizing s with
  | nil => exact ⟨rfl, fun _ _ => rfl, fun d hd => by cases hd⟩
  | cons c ds ih =>
    obtain ⟨heq, hwf, hother, hbyte⟩ := sendByte_says hm line c
    obtain ⟨heq', hother', hbyte'⟩ := ih (s.sendByte line c) hwf
    rw [List.foldl_cons]
    dsimp only at heq' ⊢
    generalize ds.foldl (fun s d => s.sendByte line d) (s.sendByte line c) = t at heq' hother' hbyte' ⊢
    refine ⟨by rw [heq', heq], fun a ha => ?_, fun d hd hh hone => ?_⟩
    · rw [hother' a fun d hd => ha d (List.mem_cons_of_mem _ hd), hother a (ha c (List.mem_cons_self ..))]
    · by_cases hin : d ∈ ds
      · exact hbyte' d hin hh fun e he => hone e (List.mem_cons_of_mem _ he)
      · obtain rfl : d = c := (List.mem_cons.1 hd).resolve_right hin
        refine (hother' _ fun e he hoff => hin ?_).trans (hbyte hh)
        exact hone e (List.mem_cons_of_mem _ he) (Nat.add_left_cancel hoff) ▸ he

/-- What writing back a line makes of the lines: other lines are as they were, and other copies of it take its bytes. -/
structure LineCleaned (l : RLine) (g : RLine → RLine) : Prop where
  place : ∀ k, (g k).holder = k.holder ∧ (g k).line = k.line
  far : ∀ k, k.line ≠ l.line → g k = k
  copy : ∀ k, k.holder ≠ l.holder → g k = { k with data := (g k).data }

theorem lineCleaned_id (l : RLine) : LineCleaned l id := ⟨fun _ => ⟨rfl, rfl⟩, fun _ _ => rfl, fun _ _ => rfl⟩

/-- A line refreshed by its dirty bytes, which are dirty in it no longer. -/
def cleanLine (l k : RLine) : RLine :=
  let k' : RLine := if k.line = l.line then { k with data := l.dirty.foldl (fun v d => d.over v) k.data } else k
  if k'.holder = l.holder ∧ k'.line = l.line then { k' with dirty := [] } else k'

theorem lineCleaned_cleanLine (l : RLine) : LineCleaned l (cleanLine l) := by
  refine ⟨fun k => ?_, fun k hk => ?_, fun k hk => ?_⟩ <;> unfold cleanLine <;> dsimp only
  · split <;> split <;> exact ⟨rfl, rfl⟩
  · rw [if_neg hk, if_neg fun h => hk h.2]
  · have hno : ∀ b : RLine, b.holder = k.holder → ¬ (b.holder = l.holder ∧ b.line = l.line) := fun b e h => hk (e ▸ h.1)
    split
    · rw [if_neg (hno _ rfl)]
    · rw [if_neg (hno _ rfl)]

/-- Writing back one line (R110): its dirty bytes reach memory, and nothing else changes but the copies of the line. -/
theorem writeBack_says (hm : Memory.wf s.mem = true) (l : RLine) (h : l.dirty = [] ∨ s.turnedAway l.device l.line = false) :
    s.writeBack l = { s with mem := (s.writeBack l).mem, poison := (s.writeBack l).poison, rcache := (s.writeBack l).rcache } ∧
      (∃ g, LineCleaned l g ∧ (s.writeBack l).rcache = s.rcache.map g) ∧
      (∀ a, (∀ d ∈ l.dirty, l.line + d.off % 128 ≠ a) → Memory.read (s.writeBack l).mem a = Memory.read s.mem a) ∧
      ∀ d ∈ l.dirty, d.half = none → (∀ e ∈ l.dirty, e.off % 128 = d.off % 128 → e = d) →
        Memory.read (s.writeBack l).mem (l.line + d.off % 128) = d.byte := by
  by_cases hd : l.dirty = []
  · have e : s.writeBack l = s := if_pos (by simp [hd])
    rw [e, hd]
    exact ⟨rfl, ⟨id, lineCleaned_id l, (List.map_id _).symm⟩, fun _ _ => rfl, fun d hm => by cases hm⟩
  · obtain ⟨heq, hother, hbyte⟩ := sendBytes_says l.line l.dirty s hm
    have e : s.writeBack l = { (l.dirty.foldl (fun s d => s.sendByte l.line d) s) with
        rcache := (l.dirty.foldl (fun s d => s.sendByte l.line d) s).rcache.map (cleanLine l) } := by
      unfold State.writeBack
      rw [if_neg (by simp [hd, h.resolve_left hd])]
      simp only [State.refresh, List.map_map]
      rfl
    rw [e]
    dsimp only at heq hother hbyte ⊢
    generalize l.dirty.foldl (fun s d => s.sendByte l.line d) s = t at heq hother hbyte ⊢
    exact ⟨by rw [heq], ⟨_, lineCleaned_cleanLine l, by rw [heq]⟩, hother, hbyte⟩

/-! ### Evictions -/

/-- The line that an eviction names, where it is the only one of its holder and its place. -/
theorem find_line {l : RLine} (hl : l ∈ s.rcache) (hone : ∀ k ∈ s.rcache, k.holder = l.holder → k.line = l.line → k = l) :
    s.rcache.find? (fun k => k.holder == l.holder && k.line == l.line) = some l := by
  cases e : s.rcache.find? fun k => k.holder == l.holder && k.line == l.line with
  | none => exact absurd (List.find?_eq_none.1 e l hl) (by simp)
  | some k =>
    have hk := List.find?_some e
    rw [Bool.and_eq_true, beq_iff_eq, beq_iff_eq] at hk
    rw [hone k (List.mem_of_find?_eq_some e) hk.1 hk.2]

theorem eviction_clause (hs : Safety.Sound s) {l : RLine} (hl : l ∈ s.rcache)
    (hone : ∀ k ∈ s.rcache, k.holder = l.holder → k.line = l.line → k = l) :
    (l.dirty ≠ [] → s.turnedAway l.device l.line = true → exec (.cacheEvictionWriteback l.holder l.line) s = .next s) ∧
    (l.dirty = [] ∨ s.turnedAway l.device l.line = false →
      ∃ t, exec (.cacheEvictionWriteback l.holder l.line) s = .next t ∧
        (∀ k ∈ t.rcache, ¬ (k.holder = l.holder ∧ k.line = l.line)) ∧
        (∀ k ∈ s.rcache, k.line ≠ l.line → k ∈ t.rcache) ∧
        (∀ k ∈ s.rcache, k.line = l.line → k.holder ≠ l.holder → ∃ k' ∈ t.rcache, k' = { k with data := k'.data }) ∧
        (∀ d ∈ l.dirty, d.half = none → (∀ e ∈ l.dirty, e.off % 128 = d.off % 128 → e = d) →
          Memory.read t.mem (l.line + d.off % 128) = d.byte) ∧
        (∀ a, (∀ d ∈ l.dirty, l.line + d.off % 128 ≠ a) → Memory.read t.mem a = Memory.read s.mem a) ∧
        t = { s with mem := t.mem, poison := t.poison, rcache := t.rcache }) := by
  have hexec : exec (.cacheEvictionWriteback l.holder l.line) s =
      if !l.dirty.isEmpty && s.turnedAway l.device l.line then .next s
      else .next { s.writeBack l with
        rcache := (s.writeBack l).rcache.filter fun e => !(e.holder == l.holder && e.line == l.line) } := by
    show execCacheEvictionWriteback l.holder l.line s = _
    unfold execCacheEvictionWriteback
    rw [find_line hl hone]
  refine ⟨fun hd ht => hexec.trans (if_pos (by simp [hd, ht])), fun h => ?_⟩
  obtain ⟨heq, ⟨g, hg, hmap⟩, hother, hbyte⟩ := writeBack_says hs.mem_wf l h
  have hin (k : RLine) (hk : k ∈ s.rcache) (hno : ¬ (k.holder = l.holder ∧ k.line = l.line)) :
      g k ∈ (s.writeBack l).rcache.filter fun e => !(e.holder == l.holder && e.line == l.line) := by
    obtain ⟨hh, hli⟩ := hg.place k
    rw [hmap, List.mem_filter, hh, hli]
    exact ⟨List.mem_map_of_mem hk, by simpa [imp_iff_not_or] using hno⟩
  refine ⟨_, hexec.trans (if_neg ?_), fun k hk => ?_, fun k hk hli => ?_, fun k hk _ hh => ?_, hbyte, hother, by rw [heq]⟩
  · rcases h with h | h <;> simp [h]
  · simpa [imp_iff_not_or] using (List.mem_filter.1 hk).2
  · exact hg.far k hli ▸ hin k hk fun h => hli h.2
  · exact ⟨g k, hin k hk fun h => hh h.1, hg.copy k hh⟩

theorem hostAccesses : Claim.HostAccesses := by
  intro s hs
  refine ⟨fun f a b ha => ⟨fun hmay hq hl => ?_, hostWrite_ignored b ha⟩, fun f a n => ⟨fun h => if_pos h, hostRead_clause⟩,
    registerWrite_silent, register_clause, fun l hl hone => eviction_clause hs hl hone⟩
  exact ⟨_, hostWrite_taken b ha hmay hq, hostByte_says hs.mem_wf b hl⟩

/-- Settles O53, by its three parts: retirement, memory errors, and what the host and the cache do. -/
theorem maintenance : Obligations.Maintenance := ⟨retirement, memoryErrors, hostAccesses⟩

end Sys2Proof.Laws
end

section
/-! The machine after device reset (01 R23, 02 R46, R47, 18 R301, R307, 19 R318). -/

namespace Sys2Proof.Laws

set_option Elab.async false

open Sys2Proof.Machine

/-- The registers that R46, R47 and R301 name one by one read at reset as their tables say; so do the windows of registers beside them. -/
theorem register_reset {n : Nat} {w : Word} (h : Claim.register State.reset n = some w) : w = Claim.resetWord n := by
  unfold Claim.register at h
  dsimp only at h
  split at h
  case h_44 =>
    split_ifs at h with h1 h2 h3 h4
    · obtain ⟨ha, hb⟩ := h1
      interval_cases n <;> exact (Option.some.inj h).symm.trans (by decide)
    · obtain ⟨ha, hb⟩ := h2
      interval_cases n <;> exact (Option.some.inj h).symm.trans (by decide)
    · obtain ⟨ha, hb⟩ := h3
      interval_cases n <;> exact (Option.some.inj h).symm.trans (by decide)
    · obtain ⟨ha, hb⟩ := h4
      interval_cases n <;> exact (Option.some.inj h).symm.trans (by decide)
  all_goals exact (Option.some.inj h).symm.trans (by decide)

/-- Dimension-order routing (R362), link by link. -/
theorem dimensionTables_link (c d : Fin 8) : Claim.linkOf dimensionTables c d =
    if c = d then 7 else if (d.val + 4 - c.val % 4) % 4 = 3 then 1 else if (d.val + 4 - c.val % 4) % 4 ≠ 0 then 0 else 2 := by
  revert c d
  decide

theorem sound_reset : Safety.Sound State.reset := ⟨rfl, rfl, by decide, by decide⟩

/-- Settles O54: the state after reset, field by field; the registers by `register_reset`, the tables by `dimensionTables_link`. -/
theorem resetValues : Obligations.ResetValues := by
  unfold Obligations.ResetValues
  refine ⟨rfl, rfl, rfl, rfl, rfl, rfl, rfl, rfl, rfl, rfl, rfl, rfl, fun n w => register_reset, ?x, ?c, ?v, ?m, ?q, ?e,
    rfl, rfl, rfl, rfl, ?channels, ?streams, ?parts, rfl, rfl, rfl, rfl, rfl, dimensionTables_link, ?ports, ?logs,
    rfl, rfl, rfl, rfl, rfl, rfl, rfl, rfl, sound_reset⟩
  case x => decide
  case c => decide
  case v => decide
  case m => decide
  case q => decide
  case e => decide
  case channels => decide
  case streams => decide
  case parts => decide
  case ports => decide
  case logs => decide

end Sys2Proof.Laws
end

section
namespace Sys2Proof.Laws

set_option Elab.async false

open Sys2Proof.Machine

variable {s : State}

/-! ### Farms (01 R31, R32, 13 R264) -/

/-- Replacing a launch leaves the launches of other numbers. -/
theorem launchOf_putLaunch_other {n : Nat} {x : Launch} (hn : n ≠ x.id) : (s.putLaunch x).launchOf n = s.launchOf n := by
  have key (L : List Launch) : (L.map fun k => if k.id = x.id then x else k).find? (fun k => k.id == n) =
      L.find? fun k => k.id == n := by
    induction L with
    | nil => rfl
    | cons k L ih =>
      rw [List.map_cons, List.find?_cons, List.find?_cons, ih]
      split_ifs with hk
      · have h1 : (x.id == n) = false := beq_false_of_ne (Ne.symm hn)
        have h2 : (k.id == n) = false := hk ▸ h1
        rw [h2]; simp only [h1]
      · rfl
  exact key s.launches

/-- Replacing the farm of the hart's launch leaves the launch of every number but its own. -/
theorem launchOf_setFarm {l : Launch} (h : s.launchOf s.hart.place.launch = some l) (f : Farm) (n : Nat) :
    (s.setFarm f).launchOf n = if n = s.hart.place.launch then some { l with farm := f } else s.launchOf n := by
  have hid : l.id = s.hart.place.launch := by simpa using List.find?_some h
  have e : s.setFarm f = s.putLaunch { l with farm := f } := by unfold State.setFarm; rw [h]
  rw [e]
  split
  · next hn => rw [launchOf_putLaunch (hn ▸ h), if_pos rfl]
  · next hn => exact launchOf_putLaunch_other (hid ▸ hn)

/-- What a farm instruction leaves, read off the state it leaves: the launch of the hart with another farm, every other launch as
before, and the hart's registers that `farmStep` names. -/
theorem farmStep_of {t : State} {l : Launch} {f : Farm}
    (hl : ∀ n, t.launchOf n = if n = s.hart.place.launch then some { l with farm := f } else s.launchOf n)
    (ht : t = { s with launches := t.launches, hart := { s.hart with
      x := t.hart.x, c := t.hart.c, fbase := t.hart.fbase, farmid := t.hart.farmid, noStrips := t.hart.noStrips
      pc := t.hart.pc, instret := t.hart.instret } })
    (hg : Claim.goesOn s t) : Claim.farmStep s t f := by
  have hp : t.hart.place = s.hart.place := by rw [ht]
  refine ⟨?_, fun n hn => by rw [hl, if_neg hn], hg, ⟨fun a => by rw [ht], fun a => by rw [ht]⟩, ht⟩
  unfold Claim.farmOf
  rw [hp, hl, if_pos rfl]
  rfl

/-- The same launch with the farm it has. -/
theorem launchOf_ownFarm {l : Launch} (h : s.launchOf s.hart.place.launch = some l) (n : Nat) :
    s.launchOf n = if n = s.hart.place.launch then some { l with farm := l.farm } else s.launchOf n := by
  split
  · next hn => exact hn ▸ h
  · rfl

theorem noStrip_of_none (h : s.strip? = none) : s.noStrip = .ok () := by
  unfold State.noStrip State.require
  rw [h]
  rfl

theorem farm_of_launch {l : Launch} (h : s.launchOf s.hart.place.launch = some l) : s.farm = l.farm := by
  unfold State.farm
  rw [h]

/-- Where no strip forbids an instruction, it does what follows that check (R266). -/
theorem finish_noStrip (h : s.strip? = none) (f : Unit → Run State) : finish (s.noStrip >>= f) = finish (f ()) := by
  rw [noStrip_of_none h]
  rfl

/-- Replacing the farm of the hart's launch changes the launches only. -/
theorem setFarm_only (f : Farm) : s.setFarm f = { s with launches := (s.setFarm f).launches } := by
  unfold State.setFarm
  split <;> rfl

/-- The state after a farm instruction: the farm replaced, registers of the hart written, the instruction completed. -/
def farmLeft (s : State) (f : Farm) (h : Hart) : State :=
  State.retire { s with launches := (s.setFarm f).launches, hart := { s.hart with
    x := h.x, c := h.c, fbase := h.fbase, farmid := h.farmid, noStrips := h.noStrips } }

theorem farmStep_farmLeft {l : Launch} (h : s.launchOf s.hart.place.launch = some l) (f : Farm) (k : Hart) :
    Claim.farmStep s (farmLeft s f k) f := by
  refine farmStep_of (l := l) (fun n => ?_) rfl ⟨rfl, rfl⟩
  have e := launchOf_setFarm h f n
  rw [setFarm_only] at e
  exact e

theorem exec_farmDef (hs : s.strip? = none) (r a : XReg) : exec (.farmDef r a) s =
    .next (farmLeft s (s.farm.define s.hart.place.hid (s.x a) (s.x r))
      { s.hart with farmid := (s.farm.define s.hart.place.hid (s.x a) (s.x r)).id }) := by
  refine (finish_noStrip hs _).trans ?_
  dsimp only
  rw [setFarm_only]
  rfl

/-- The x registers after a write, which x0 discards (R34). -/
def xWith (x : Vector Word 32) (d : XReg) (v : Word) : Vector Word 32 := if d.val = 0 then x else x.set d.val v

theorem setX_xWith (d : XReg) (v : Word) : s.setX d v = { s with hart := { s.hart with x := xWith s.hart.x d v } } := by
  unfold State.setX xWith
  split <;> rfl

/-- A hart that hands over a strip base: c[N], FBASE and the no-strips bit written, then x[d] := FBASE (R264). -/
def handed (s : State) (d : XReg) (n : CBit) (none' : Bool) (base : Word) (noStrips : Bool) : Hart :=
  { s.hart with x := xWith s.hart.x d base, c := s.hart.c.set n.val none', fbase := base, noStrips := noStrips }

theorem exec_farmNext_out (hs : s.strip? = none) (d : XReg) (n : CBit)
    (hj : (s.farm.live && s.farm.joined.contains s.hart.place.hid) = false) : exec (.farmNext d n) s =
      .next (State.retire { s with hart := handed s d n true s.hart.fbase s.hart.noStrips }) := by
  refine (finish_noStrip hs _).trans ?_
  dsimp only
  rw [hj, setX_xWith]
  rfl

theorem exec_farmNext_in (hs : s.strip? = none) (d : XReg) (n : CBit) (hj : s.farm.live = true ∧ s.hart.place.hid ∈ s.farm.joined) :
    exec (.farmNext d n) s = .next (if s.farm.exhausted = false ∧ s.farm.counter < s.farm.extent
      then farmLeft s { s.farm with counter := min (s.farm.counter + s.farm.strip) (2 ^ 64 - 1) }
        (handed s d n false (BitVec.ofNat 64 s.farm.counter) false)
      else farmLeft s { s.farm with exhausted := true } (handed s d n true s.hart.fbase true)) := by
  refine (finish_noStrip hs _).trans ?_
  have hj' : (s.farm.live && s.farm.joined.contains s.hart.place.hid) = true := by simp [hj]
  dsimp only
  rw [hj', Bool.not_true, if_neg Bool.false_ne_true]
  by_cases c : s.farm.exhausted = false ∧ s.farm.counter < s.farm.extent
  · rw [if_pos c, if_pos (by simp [c])]
    rw [setFarm_only, setX_xWith]
    rfl
  · rw [if_neg c, if_neg (by simpa using c)]
    rw [setFarm_only, setX_xWith]
    rfl

theorem exec_farmEnd (hs : s.strip? = none) : exec .farmEnd s = .next (farmLeft s (s.farm.leave s.hart.place.hid) s.hart) := by
  refine (finish_noStrip hs _).trans ?_
  rw [setFarm_only]
  rfl

theorem x_of_xWith {t : State} {d : XReg} {v : Word} (h : t.hart.x = xWith s.hart.x d v) (q : XReg) :
    t.x q = if q = d then (if d = 0 then 0 else v) else s.x q := by
  rw [← x_setX s d q v, setX_xWith]
  unfold State.x
  rw [h]

theorem c_of_set {t : State} {n : CBit} {b : Bool} (h : t.hart.c = s.hart.c.set n.val b) (q : CBit) :
    t.c q = if q = n then b else s.c q := by
  rw [← c_setC s n q b]
  unfold State.c
  rw [h]
  rfl

/-- What x and c hold after FBASE is handed over. -/
theorem handed_regs {t : State} {d : XReg} {n : CBit} {b : Bool} {base : Word} (hx : t.hart.x = xWith s.hart.x d base)
    (hc : t.hart.c = s.hart.c.set n.val b) : t.x d = (if d = 0 then 0 else base) ∧ t.c n = b ∧
      (∀ q, q ≠ d → t.x q = s.x q) ∧ ∀ q, q ≠ n → t.c q = s.c q :=
  ⟨(x_of_xWith hx d).trans (if_pos rfl), (c_of_set hc n).trans (if_pos rfl), fun q hq => (x_of_xWith hx q).trans (if_neg hq),
    fun q hq => (c_of_set hc q).trans (if_neg hq)⟩

theorem farmDef_clause {l : Launch} (h : s.launchOf s.hart.place.launch = some l) (hs : s.strip? = none) (r a : XReg) :
    ∃ t, exec (.farmDef r a) s = .next t ∧ t.hart.farmid = (Claim.farmOf t).id ∧
      (∀ q, t.x q = s.x q) ∧ (∀ q, t.c q = s.c q) ∧ t.hart.fbase = s.hart.fbase ∧
      (l.farm.live = false → Claim.farmStep s t { live := true, exhausted := false, counter := 0, extent := (s.x a).toNat
                                                  strip := max 1 (s.x r).toNat, joined := [s.hart.place.hid], id := l.farm.id + 1 }) ∧
      (l.farm.live = true → s.hart.place.hid ∈ l.farm.joined → Claim.farmStep s t l.farm) ∧
      (l.farm.live = true → s.hart.place.hid ∉ l.farm.joined →
        Claim.farmStep s t { l.farm with joined := l.farm.joined ++ [s.hart.place.hid] }) := by
  have he := exec_farmDef hs r a
  rw [farm_of_launch h] at he
  have hstep := farmStep_farmLeft h (l.farm.define s.hart.place.hid (s.x a) (s.x r))
    { s.hart with farmid := (l.farm.define s.hart.place.hid (s.x a) (s.x r)).id }
  refine ⟨_, he, by rw [hstep.1]; rfl, fun _ => rfl, fun _ => rfl, rfl, fun hl => ?_, fun hl hj => ?_, fun hl hj => ?_⟩ <;>
    refine Eq.mp (congrArg (Claim.farmStep s _) ?_) hstep <;> unfold Farm.define
  · rw [hl]; rfl
  · simp [hl, hj]
  · simp [hl, hj]

theorem farmNext_clause {l : Launch} (h : s.launchOf s.hart.place.launch = some l) (hs : s.strip? = none) (d : XReg) (n : CBit) :
    ∃ t, exec (.farmNext d n) s = .next t ∧ t.x d = (if d = 0 then 0 else t.hart.fbase) ∧
      (∀ q, q ≠ d → t.x q = s.x q) ∧ (∀ q, q ≠ n → t.c q = s.c q) ∧ t.hart.farmid = s.hart.farmid ∧
      (l.farm.live = false ∨ s.hart.place.hid ∉ l.farm.joined → t.c n = true ∧ t.hart.fbase = s.hart.fbase ∧
        t.hart.noStrips = s.hart.noStrips ∧ Claim.farmStep s t l.farm) ∧
      (l.farm.live = true → s.hart.place.hid ∈ l.farm.joined → l.farm.exhausted = false → l.farm.counter < l.farm.extent →
        t.c n = false ∧ t.hart.fbase = BitVec.ofNat 64 l.farm.counter ∧ t.hart.noStrips = false ∧
        Claim.farmStep s t { l.farm with counter := min (l.farm.counter + l.farm.strip) (2 ^ 64 - 1) }) ∧
      (l.farm.live = true → s.hart.place.hid ∈ l.farm.joined → l.farm.exhausted = true ∨ l.farm.extent ≤ l.farm.counter →
        t.c n = true ∧ t.hart.fbase = s.hart.fbase ∧ t.hart.noStrips = true ∧
        Claim.farmStep s t { l.farm with exhausted := true }) := by
  have hf := farm_of_launch h
  by_cases hj : l.farm.live = true ∧ s.hart.place.hid ∈ l.farm.joined
  · have hin : ¬ (l.farm.live = false ∨ s.hart.place.hid ∉ l.farm.joined) := by simp [hj]
    have he := exec_farmNext_in hs d n (hf ▸ hj)
    rw [hf] at he
    by_cases c : l.farm.exhausted = false ∧ l.farm.counter < l.farm.extent
    · rw [if_pos c] at he
      obtain ⟨hx, hc, hxs, hcs⟩ := handed_regs (s := s) (t := farmLeft s _ (handed s d n false (BitVec.ofNat 64 l.farm.counter) false)) rfl rfl
      refine ⟨_, he, hx, hxs, hcs, rfl, fun hn => absurd hn hin, fun _ _ _ _ => ⟨hc, rfl, rfl, farmStep_farmLeft h _ _⟩, fun _ _ hx => ?_⟩
      rcases hx with hx | hx
      · exact absurd hx (by simp [c.1])
      · exact absurd c.2 (Nat.not_lt.2 hx)
    · rw [if_neg c] at he
      obtain ⟨hx, hc, hxs, hcs⟩ := handed_regs (s := s) (t := farmLeft s _ (handed s d n true s.hart.fbase true)) rfl rfl
      exact ⟨_, he, hx, hxs, hcs, rfl, fun hn => absurd hn hin, fun _ _ h1 h2 => absurd ⟨h1, h2⟩ c,
        fun _ _ _ => ⟨hc, rfl, rfl, farmStep_farmLeft h _ _⟩⟩
  · have he := exec_farmNext_out hs d n (by rw [hf]; simpa using hj)
    obtain ⟨hx, hc, hxs, hcs⟩ := handed_regs (s := s)
      (t := State.retire { s with hart := handed s d n true s.hart.fbase s.hart.noStrips }) rfl rfl
    exact ⟨_, he, hx, hxs, hcs, rfl, fun _ => ⟨hc, rfl, rfl, farmStep_of (l := l) (launchOf_ownFarm h) rfl ⟨rfl, rfl⟩⟩,
      fun h1 h2 => absurd ⟨h1, h2⟩ hj, fun h1 h2 => absurd ⟨h1, h2⟩ hj⟩

theorem farmEnd_clause {l : Launch} (h : s.launchOf s.hart.place.launch = some l) (hs : s.strip? = none) :
    ∃ t, exec .farmEnd s = .next t ∧ (∀ q, t.x q = s.x q) ∧ (∀ q, t.c q = s.c q) ∧ t.hart.fbase = s.hart.fbase ∧
      t.hart.farmid = s.hart.farmid ∧
      Claim.farmStep s t (if l.farm.live = true ∧ l.farm.joined.filter (fun n => n ≠ s.hart.place.hid) = []
        then { l.farm with live := false, exhausted := false, joined := [] }
        else { l.farm with joined := l.farm.joined.filter fun n => n ≠ s.hart.place.hid }) := by
  refine ⟨_, exec_farmEnd hs, fun _ => rfl, fun _ => rfl, rfl, rfl, ?_⟩
  rw [farm_of_launch h]
  refine Eq.mp (congrArg (Claim.farmStep s _) ?_) (farmStep_farmLeft h _ _)
  unfold Farm.leave
  simp [bne, List.isEmpty_iff, decide_not]
  rfl

/-- Settles O18: each farm instruction, by the cases of R31 and R264. -/
theorem farms : Obligations.Farms := by
  intro s l h hs
  have hf : Claim.farmOf s = l.farm := by unfold Claim.farmOf; rw [h]; rfl
  dsimp only
  rw [hf]
  exact ⟨farmDef_clause h hs, farmNext_clause h hs, farmEnd_clause h hs⟩

end Sys2Proof.Laws
end

section
/-! A waiting hart that looks again (01 R25, 13 R260, 04 R104): the wait instruction reads ahead what a stopped transfer of the hart has
still to send, and a wake does not. -/

namespace Sys2Proof.Laws

set_option Elab.async false

open Sys2Proof.Machine

/-- A transfer of one byte of the window into an eyelet, which a lost path has stopped before it read anything (R251). -/
def stoppedTransfer : Channel :=
  { state := .running, code := 5, pend := true, rem := true
    cmd := some { form := .cpyR, tag := .i8, xb := 0x7FF0000000000, n := 1, vl := 1 } }

/-- A hart in MONITOR at `waitge x3, (x1), x2` on a word of its window that is still 0, beside its stopped transfer. -/
def waitsBesideTransfer : State :=
  { State.reset with hart :=
    { phase := .monitor, waiting := some (.location true 3 8 .core 0x7FF0000000000 1), place := { pieces := [0] }
      x := ((Vector.replicate 32 0).set 1 0x7FF0000000000).set 2 1, ch := (Vector.replicate 8 {}).set 0 stoppedTransfer } }

/-- How many bytes of the first channel's transfer have been read ahead. -/
def readAheadOf (o : Host.Outcome State Fault Refusal) : Nat :=
  match o with
  | .next t => t.hart.ch[0].ahead.length
  | _ => 0

theorem waitge_readsAhead : readAheadOf (exec (.waitge 3 1 2 .core true) waitsBesideTransfer) = 1 := by decide

theorem monitorWake_readsNothing : readAheadOf (exec (.monitorWake 0) waitsBesideTransfer) = 0 := by decide

theorem not_hartsLookAgain : ¬ Claim.HartsLookAgain := by
  intro h
  obtain ⟨-, hmon⟩ := h waitsBesideTransfer 0 ⟨rfl, by decide, by decide⟩ rfl (by unfold Claim.settledCopies; decide)
  obtain ⟨-, -, -, hge, -⟩ := hmon rfl
  obtain ⟨t, hwake, -, hwait⟩ := hge 3 1 2 .core true rfl
  have e1 := waitge_readsAhead
  have e0 := monitorWake_readsNothing
  rw [hwait] at e1
  rw [hwake, e1] at e0
  exact absurd e0 (by decide)

/-- Refutes O46: with a transfer stopped by a lost path, whose bytes have not been read, `waitge` reads them ahead (R104) before it looks,
and MONITOR_WAKE looks without doing so: the two leave different channels. -/
theorem not_hartEvents : ¬ Obligations.HartEvents := fun h => not_hartsLookAgain h.1

end Sys2Proof.Laws
end

section
/-! The end of a barrier object beside two harts of one number (13 R262, DEDUCED, log 40). -/

namespace Sys2Proof.Laws

set_option Elab.async false

open Sys2Proof.Machine

/-- A leaf of user level for reads and writes, of the page at 0. -/
def zeroPage : TransEntry := { holder := .core 0, part := 0, asid := 0, glob := false, lvl := 1, page := 0, entry := 0b1011011 }

/-- The first hart runs, with the number 0; so does the second, which has the same number; the third waits at the barrier object at 0. -/
def twoOfOneNumber : State :=
  { State.reset with
    hart := { phase := .active }
    parked := [{ phase := .active, instret := 7 }, { phase := .monitor, place := { hid := 1 }, waiting := some (.phase .core 0 0) }]
    tlb := [zeroPage], barriers := [⟨0, 0⟩]
    parts := (Vector.replicate 8 {}).set 0 { en := true, size := 1 }
    service := { ready := BitVec.allOnes 33 } }

/-- What INSTRET of the hart whose turn it is then says. -/
def instretOf (o : Host.Outcome State Fault Refusal) : Word :=
  match o with
  | .next t => t.hart.instret
  | _ => 0

theorem barFin_ofOneNumber : instretOf (exec (.barFin 0) twoOfOneNumber) = 7 := by decide

/-- Refutes O58: `bar.fin` lets the waiting hart complete by its number and comes back to the running hart by its own; where another
hart has that number it comes back to that one, which has neither completed, nor trapped, nor begun to wait. -/
theorem not_everyInstructionAnswers : ¬ Obligations.EveryInstructionAnswers := by
  intro h
  obtain ⟨t, he, hanswer⟩ := h (.barFin 0) twoOfOneNumber
  have h7 : t.hart.instret = 7 := by
    have e := barFin_ofOneNumber
    rw [he] at e
    exact e
  rcases hanswer rfl rfl with hc | ht | ⟨-, -, hw⟩
  · exact absurd (h7.symm.trans hc) (by decide)
  · obtain ⟨-, -, hi, -⟩ := ht
    exact absurd (h7.symm.trans hi) (by decide)
  · exact absurd (h7.symm.trans hw) (by decide)

end Sys2Proof.Laws
end

section
/-! A first-faulting load beside an empty poison mark (08 R168, 21 R356). -/

namespace Sys2Proof.Laws

set_option Elab.async false

open Sys2Proof.Machine

/-- A leaf of user level for reads and writes, in the cache of core 0. -/
def userLeaf (page pa : Nat) : TransEntry :=
  { holder := .core 0, part := 0, asid := 0, glob := false, lvl := 1, page := page, entry := pa + 0b1011011 }

/-- Page 0 lies in device 1 and page 1 in HBM4, where a sector is marked poisoned with every byte of it written again. The hart has a byte
of device 1 still to send, in the cache of another core, and loads the last word of page 0 and the first of page 1. -/
def loadsOverMark : State :=
  { State.reset with
    hart := { phase := .active, x := (Vector.replicate 32 0).set 1 0x7FF8, vcfg := { tag := .i64 }, vl := 2 }
    tlb := [userLeaf 0 (2 ^ 51 + 2 ^ 40), userLeaf 1 0]
    rcache := [{ holder := .core 16, line := 2 ^ 51 + 2 ^ 40 + 0x7F80, data := 0, dirty := [⟨0, 0, 0, 1, none⟩] }]
    poison := [(0, 0)]
    domain := [1], ports := (Vector.replicate 4 {}).set 0 { state := .up }
    parts := (Vector.replicate 8 {}).set 0 { en := true, size := 1 }
    service := { ready := BitVec.allOnes 33 } }

/-- VL of the hart whose turn it is then. -/
def vlOf (o : Host.Outcome State Fault Refusal) : Nat :=
  match o with
  | .next t => t.hart.vl
  | _ => 0

theorem vldff_overMark : vlOf (exec (.vldff 0 1 0 .none) loadsOverMark) = 2 := by decide

theorem drain_loadsOverMark : loadsOverMark.drain = loadsOverMark := rfl

theorem ready_loadsOverMark :
    Claim.ready loadsOverMark loadsOverMark (Claim.loadOf loadsOverMark loadsOverMark [Claim.dataGroup loadsOverMark 0] [] 0 2
      [false] fun e => [Claim.unitAddress loadsOverMark 1 e]).toOperands := by
  refine ⟨fun _ => by decide, by decide, by decide, fun h => absurd h (by decide), by decide, by decide, rfl, by decide, by decide⟩

theorem loadable_firstWord : Claim.loadable loadsOverMark 8 (Claim.unitAddress loadsOverMark 1 0) := by
  refine ⟨.phys (2 ^ 51 + 2 ^ 40 + 0x7FF8), by decide, ?_⟩
  have ht : targetOf (2 ^ 51 + 2 ^ 40 + 0x7FF8) = .remote 1 0x7FF8 := by decide
  have hc : loadsOverMark.copyOf loadsOverMark.hart.place.core (2 ^ 51 + 2 ^ 40 + 0x7FF8) = none := by decide
  unfold Claim.readable
  dsimp only
  rw [ht, hc]
  decide

theorem fails_secondWord : Claim.fails loadsOverMark 8 (Claim.unitAddress loadsOverMark 1 1) := by
  refine .inr ⟨.phys 0, by decide, ?_, fun b hb d o => ?_⟩
  · intro h
    have hp : poisoned loadsOverMark.poison 0 8 = false := h
    exact absurd hp (by decide)
  · cases hb
    have e : targetOf 0 = .hbm := by decide
    rw [e]
    exact Target.noConfusion

theorem not_firstFaultTrims : ¬ Claim.FirstFaultTrims := by
  intro h
  obtain ⟨t, he, hvl, -⟩ := h loadsOverMark loadsOverMark 0 1 0 .none _ [0] [] 1 rfl ready_loadsOverMark (by decide) rfl rfl
    (by decide) (fun j hj => List.mem_singleton.1 hj ▸ loadable_firstWord) fails_secondWord
  have e := vldff_overMark
  rw [he] at e
  exact absurd (hvl.symm.trans e) (by decide)

/-- Refutes O28: the first word's line is fetched once the hart's own byte of it has gone out (R95), and that write drops every mark of
no byte; the second word, which stood under one, then reads, and the load completes with VL as it was. -/
theorem not_vectorLoads : ¬ Obligations.VectorLoads := fun h => not_firstFaultTrims h.2.1

end Sys2Proof.Laws
end


section
/-! What goes out and what is delivered before a copy command (05 R104, R110; 08 R176), and the geometry of a copy's moves
(12 R237, R238). -/

namespace Sys2Proof.Laws

set_option Elab.async false

open Sys2Proof Sys2Proof.Machine Sys2Proof.Claim

/-! ### What going out changes -/

/-- Two states apart in memory, its poison and the cached remote lines only. -/
def Relined (s t : State) : Prop := ∃ mem poison rcache, t = { s with mem := mem, poison := poison, rcache := rcache }

theorem Relined.refl (s : State) : Relined s s := ⟨_, _, _, rfl⟩

theorem Relined.trans {s t u : State} (h : Relined s t) (k : Relined t u) : Relined s u := by
  obtain ⟨_, _, _, rfl⟩ := h
  obtain ⟨_, _, _, rfl⟩ := k
  exact ⟨_, _, _, rfl⟩

theorem relined_foldl {α : Type} (f : State → α → State) (hf : ∀ s a, Relined s (f s a)) (l : List α) (s : State) :
    Relined s (l.foldl f s) := by
  induction l generalizing s with
  | nil => exact .refl s
  | cons a l ih => exact (hf s a).trans (ih _)

theorem relined_sendByte (s : State) (line : Nat) (d : Dirty) : Relined s (s.sendByte line d) := by
  unfold State.sendByte State.putLoc
  cases d.half <;> exact ⟨_, _, _, rfl⟩

theorem relined_writeBack (s : State) (l : RLine) : Relined s (s.writeBack l) := by
  unfold State.writeBack
  split
  · exact .refl s
  · exact (relined_foldl _ (fun s d => relined_sendByte s _ d) _ s).trans ⟨_, _, _, rfl⟩

theorem relined_writeBackAll (s : State) (core hid : Nat) : Relined s (s.writeBackAll core hid).1 :=
  relined_foldl _ relined_writeBack _ s

theorem relined_fillLine (s : State) (core hid pa : Nat) : Relined s (s.fillLine core hid pa).2 := by
  unfold State.fillLine
  split
  · exact .refl s
  · split
    · exact ⟨_, _, _, rfl⟩
    · exact (relined_foldl _ relined_writeBack _ s).trans ⟨_, _, _, rfl⟩

theorem relined_readAt {s t : State} {l : Loc} {va n v : Nat} (h : s.readAt .cached l va n = .ok (v, t)) : Relined s t := by
  unfold State.readAt at h
  split at h
  · split at h
    · cases h
    · cases h; exact .refl _
  · split at h
    · split at h <;> dsimp only at h <;> split at h <;> cases h <;> exact relined_fillLine _ _ _ _
    · rename_i hr; cases hr
    · split at h
      · cases h
      · cases h; exact .refl _

/-- The bytes of a line go out to their places in it, and nowhere else. -/
theorem sendBytes_other (line : Nat) (ds : List Dirty) (s : State) (a : Nat) (ha : ∀ d ∈ ds, line + d.off % 128 ≠ a) :
    Memory.read (ds.foldl (fun s d => s.sendByte line d) s).mem a = Memory.read s.mem a := by
  induction ds generalizing s with
  | nil => rfl
  | cons d ds ih =>
    rw [List.foldl_cons, ih _ fun e he => ha e (List.mem_cons_of_mem _ he)]
    have hd := ha d (List.mem_cons_self ..)
    unfold State.sendByte State.putLoc
    cases d.half <;> exact Memory.read_writeN_other _ _ _ _ (by omega)

theorem sendBytes_rcache (line : Nat) (ds : List Dirty) (s : State) :
    (ds.foldl (fun s d => s.sendByte line d) s).rcache = s.rcache := by
  induction ds generalizing s with
  | nil => rfl
  | cons d ds ih =>
    rw [List.foldl_cons, ih]
    unfold State.sendByte State.putLoc
    cases d.half <;> rfl

theorem writeBack_other (s : State) (l : RLine) (a : Nat) (ha : ∀ d ∈ l.dirty, l.line + d.off % 128 ≠ a) :
    Memory.read (s.writeBack l).mem a = Memory.read s.mem a := by
  unfold State.writeBack
  split
  · rfl
  · exact sendBytes_other l.line l.dirty s a ha

/-- A line as a write-back of `l` leaves it: it keeps its place and keeps or loses its dirty bytes. -/
theorem writeBack_lines {s : State} {l k : RLine} (hk : k ∈ (s.writeBack l).rcache) :
    ∃ j ∈ s.rcache, k.holder = j.holder ∧ k.line = j.line ∧ (k.dirty = [] ∨ k.dirty = j.dirty) := by
  unfold State.writeBack at hk
  split at hk
  · exact ⟨k, hk, rfl, rfl, .inr rfl⟩
  · dsimp only [State.refresh] at hk
    rw [sendBytes_rcache] at hk
    simp only [List.mem_map, exists_exists_and_eq_and] at hk
    obtain ⟨j, hj, rfl⟩ := hk
    refine ⟨j, hj, ?_⟩
    split <;> split <;> simp

/-- A write-back that can be made leaves no dirty byte in the line's copy. -/
theorem writeBack_clears {s : State} {l k : RLine} (hl : l.dirty ≠ []) (ht : s.turnedAway l.device l.line = false)
    (hk : k ∈ (s.writeBack l).rcache) (hh : k.holder = l.holder) (hli : k.line = l.line) : k.dirty = [] := by
  unfold State.writeBack at hk
  rw [if_neg (by simp [hl, ht])] at hk
  simp only [List.mem_map] at hk
  obtain ⟨j, -, rfl⟩ := hk
  split at hh <;> rename_i c
  · rw [if_pos c]
  · rw [if_neg c] at hli
    exact absurd ⟨hh, hli⟩ c

theorem turnedAway_writeBack (s : State) (l : RLine) (d pa : Nat) : (s.writeBack l).turnedAway d pa = s.turnedAway d pa := by
  obtain ⟨_, _, _, h⟩ := relined_writeBack s l
  rw [h]; rfl

/-- What writing back some lines leaves in a line: its place, its dirty bytes or none; none when one of the lines stands in
its place and can be sent. -/
theorem writeBacks_lines (ls : List RLine) (s : State) {k : RLine} (hk : k ∈ (ls.foldl State.writeBack s).rcache) :
    ∃ j ∈ s.rcache, k.holder = j.holder ∧ k.line = j.line ∧ (k.dirty = [] ∨ k.dirty = j.dirty) ∧
      (∀ l ∈ ls, l.holder = k.holder → l.line = k.line → l.dirty ≠ [] → s.turnedAway l.device l.line = false → k.dirty = []) := by
  induction ls generalizing s with
  | nil => exact ⟨k, hk, rfl, rfl, .inr rfl, fun l hl => absurd hl List.not_mem_nil⟩
  | cons l ls ih =>
    obtain ⟨i, hi, hih, hil, hid, hcl⟩ := ih (s.writeBack l) hk
    obtain ⟨j, hj, hjh, hjl, hjd⟩ := writeBack_lines hi
    refine ⟨j, hj, hih.trans hjh, hil.trans hjl, ?_, fun m hm hmh hml hmd hmt => ?_⟩
    · rcases hid with h | h
      · exact .inl h
      · rwa [h]
    · rcases List.mem_cons.1 hm with rfl | hm
      · have hc := writeBack_clears hmd hmt hi (hih.symm.trans hmh.symm) (hil.symm.trans hml.symm)
        rcases hid with h | h
        · exact h
        · rw [h, hc]
      · exact hcl m hm hmh hml hmd (by rw [turnedAway_writeBack, hmt])

theorem writeBacks_other (ls : List RLine) (s : State) (a : Nat) (ha : ∀ l ∈ ls, ∀ d ∈ l.dirty, l.line + d.off % 128 ≠ a) :
    Memory.read (ls.foldl State.writeBack s).mem a = Memory.read s.mem a := by
  induction ls generalizing s with
  | nil => rfl
  | cons l ls ih =>
    rw [List.foldl_cons, ih _ fun m hm => ha m (List.mem_cons_of_mem _ hm)]
    exact writeBack_other s l a (ha l (List.mem_cons_self ..))

/-- After a write-back of all that a release treats, a line it treats has a dirty byte only where it cannot be sent. -/
theorem writeBackAll_sends (s : State) (core hid : Nat) {k : RLine} (hk : k ∈ (s.writeBackAll core hid).1.rcache)
    (hm : k.inOrderOf core hid = true) : k.dirty = [] ∨ s.turnedAway k.device k.line = true := by
  obtain ⟨j, hj, hh, hl, hd, hcl⟩ := writeBacks_lines _ s hk
  by_cases h0 : k.dirty = []
  · exact .inl h0
  · have hkj := hd.resolve_left h0
    have hjm : j.inOrderOf core hid = true := by
      unfold RLine.inOrderOf at hm ⊢
      rwa [← hh, ← hkj]
    have hdev : j.device = k.device := by unfold RLine.device; rw [hl]
    refine .inr (by_contra fun ht => h0 (hcl j (List.mem_filter.2 ⟨hj, hjm⟩) hh.symm hl.symm (hkj ▸ h0) ?_))
    rw [hdev, ← hl]
    simpa using ht

theorem writeBackAll_other (s : State) (core hid a : Nat)
    (ha : ∀ l ∈ s.rcache, l.inOrderOf core hid = true → ∀ d ∈ l.dirty, l.line + d.off % 128 ≠ a) :
    Memory.read (s.writeBackAll core hid).1.mem a = Memory.read s.mem a :=
  writeBacks_other _ s a fun l hl => ha l (List.mem_filter.1 hl).1 (List.mem_filter.1 hl).2

/-- Dirty bytes of some lines that cannot be sent. -/
theorem stuckIn_isSome (s : State) (ls : List RLine) :
    (s.stuckIn ls).isSome = true ↔ ∃ l ∈ ls, l.dirty ≠ [] ∧ s.turnedAway l.device l.line = true := by
  unfold State.stuckIn
  rw [List.isSome_min?_iff, ne_eq, List.flatMap_eq_nil_iff]
  simp only [List.mem_filter, List.map_eq_nil_iff, not_forall]
  constructor
  · rintro ⟨l, ⟨hl, ht⟩, hd⟩; exact ⟨l, hl, hd, ht⟩
  · rintro ⟨l, hl, hd, ht⟩; exact ⟨l, ⟨hl, ht⟩, hd⟩

theorem releaseStuck_iff (s : State) (k : CopyCmd) : s.releaseStuck k = true ↔ relHeld s k := by
  unfold State.releaseStuck relHeld State.writeBackAll
  rw [Bool.and_eq_true, Bool.and_eq_true, stuckIn_isSome]
  simp only [List.mem_filter, Bool.not_eq_true']
  constructor
  · rintro ⟨⟨hr, l, ⟨hl, hm⟩, hd, ht⟩, hs⟩; exact ⟨hr, hs, l, hl, hm, hd, ht⟩
  · rintro ⟨hr, hs, l, hl, hm, hd, ht⟩; exact ⟨⟨hr, l, ⟨hl, hm⟩, hd, ht⟩, hs⟩

/-! ### What a delivery changes -/

/-- The state that a delivery leaves: of the hart the vector registers only, whose tags stay. -/
def Brought (s u : State) : Prop := ∃ v mem poison rcache, (∀ r : VNum, (v[r.val]).tag = (s.hart.v[r.val]).tag) ∧
  u = { s with hart := { s.hart with v := v }, mem := mem, poison := poison, rcache := rcache }

theorem Brought.refl (s : State) : Brought s s := ⟨_, _, _, _, fun _ => rfl, rfl⟩

theorem Brought.trans {s t u : State} (h : Brought s t) (k : Brought t u) : Brought s u := by
  obtain ⟨v, _, _, _, hv, rfl⟩ := h
  obtain ⟨w, _, _, _, hw, rfl⟩ := k
  exact ⟨w, _, _, _, fun r => (hw r).trans (hv r), rfl⟩

theorem Relined.brought {s t : State} (h : Relined s t) : Brought s t := by
  obtain ⟨_, _, _, rfl⟩ := h
  exact ⟨_, _, _, _, fun _ => rfl, rfl⟩

theorem brought_writeGroup (s : State) (g : Grp) (l : List (Nat × Nat)) : Brought s (s.writeGroup g none l) := by
  refine ⟨(s.writeGroup g none l).hart.v, _, _, _, fun r => ?_, rfl⟩
  rw [writeGroup_reg _ _ _ _ _ r.isLt]
  split <;> rfl

theorem relined_streamRead (s : State) (b : Stream) (n : Nat) (l : List Nat) (u : State) (h : s.streamRead b n = .ok (l, u)) :
    Relined s u := by
  induction n generalizing l u with
  | zero => cases h; exact .refl s
  | succ n ih =>
    rw [State.streamRead] at h
    rcases hr : s.streamRead b n with e | ⟨l1, s1⟩
    · rw [hr] at h; cases h
    · have h1 := ih _ _ hr
      rw [hr] at h
      simp only [bind, Except.bind] at h
      split at h
      · cases h
      · split at h
        · cases h
        · rename_i p hp
          cases h
          exact h1.trans (relined_readAt hp)

theorem brought_deliverOne (k : Sys2Proof.SNum) (s u : State) (h : s.deliverOne k = .ok u) : Brought s u := by
  unfold State.deliverOne at h
  dsimp only at h
  split at h
  · cases h; exact brought_writeGroup ..
  · split at h
    · rename_i hr
      cases h
      exact (relined_streamRead _ _ _ _ _ hr).brought.trans (brought_writeGroup ..)
    · cases h

theorem brought_deliver (ks : List Sys2Proof.SNum) (s u : State) (h : s.deliver ks = .ok u) : Brought s u := by
  induction ks generalizing s with
  | nil => cases h; exact .refl _
  | cons k ks ih =>
    rw [State.deliver] at h
    rcases hk : s.deliverOne k with e | t
    · rw [hk] at h; cases h
    · rw [hk] at h; exact (brought_deliverOne _ _ _ hk).trans (ih _ h)

/-! ### The moves of a copy -/

/-- The span of some displacements: its bounds are taken, and hold all of them. -/
theorem spanOf_bounds (f : Nat → Int) (n : Nat) :
    (∃ e < n + 1, (spanOf f (n + 1)).1 = f e) ∧ (∃ e < n + 1, (spanOf f (n + 1)).2 = f e) ∧
      ∀ j < n + 1, (spanOf f (n + 1)).1 ≤ f j ∧ f j ≤ (spanOf f (n + 1)).2 := by
  induction n with
  | zero =>
    refine ⟨⟨0, Nat.one_pos, rfl⟩, ⟨0, Nat.one_pos, rfl⟩, fun j hj => ?_⟩
    obtain rfl : j = 0 := by omega
    exact ⟨le_refl (f 0), le_refl (f 0)⟩
  | succ n ih =>
    obtain ⟨⟨a, ha, hlo⟩, ⟨b, hb, hhi⟩, hall⟩ := ih
    have step : spanOf f (n + 1 + 1) = (min (spanOf f (n + 1)).1 (f (n + 1)), max (spanOf f (n + 1)).2 (f (n + 1))) := rfl
    rw [step]
    refine ⟨?_, ?_, fun j hj => ?_⟩
    · rcases min_choice (spanOf f (n + 1)).1 (f (n + 1)) with h | h
      · exact ⟨a, by omega, h.trans hlo⟩
      · exact ⟨n + 1, by omega, h⟩
    · rcases max_choice (spanOf f (n + 1)).2 (f (n + 1)) with h | h
      · exact ⟨b, by omega, h.trans hhi⟩
      · exact ⟨n + 1, by omega, h⟩
    · rcases Nat.lt_succ_iff_lt_or_eq.1 hj with h | rfl
      · exact ⟨(min_le_left ..).trans (hall j h).1, (hall j h).2.trans (le_max_left ..)⟩
      · exact ⟨min_le_right .., le_max_right ..⟩

section
variable {k : CopyCmd} (hq : k.form ≠ .qsend)
include hq

theorem per_eq : k.per = moveElements k := by
  unfold CopyCmd.per moveElements
  simp [hq]

theorem width_eq : k.width = moveBytes k := if_neg hq

theorem moves_eq : k.moves = moveCount k := by
  unfold CopyCmd.moves moveCount
  rw [per_eq hq]

theorem dstOff_eq (e : Nat) : k.dstOff e = (displaced k e).2 := by
  unfold CopyCmd.dstOff displaced CopyCmd.row CopyCmd.col
  rw [per_eq hq, width_eq hq]
  cases hf : k.form <;> simp

theorem srcOff_eq (e : Nat) : k.srcOff e = (displaced k e).1 := by
  unfold CopyCmd.srcOff displaced CopyCmd.row CopyCmd.col
  rw [per_eq hq, width_eq hq]
  cases hf : k.form <;> simp

/-- D of a local copy (R81). -/
theorem lowestAt_lowest : lowestAt k k.lowest := by
  unfold CopyCmd.lowest
  rw [moves_eq hq, funext (dstOff_eq hq)]
  refine ⟨fun h0 => ?_, fun hpos => ?_⟩
  · rw [h0]; simp [spanOf]
  · obtain ⟨n, hn⟩ : ∃ n, moveCount k = n + 1 := ⟨moveCount k - 1, by omega⟩
    obtain ⟨⟨e, he, hlo⟩, -, hall⟩ := spanOf_bounds (fun e => (displaced k e).2) n
    rw [hn]
    exact ⟨e, he, by rw [hlo]; rfl, fun j hj => hlo ▸ (hall j hj).1⟩

/-- Spans meet exactly where source and destination are not apart (R238 item 4). -/
theorem spansMeet_iff : k.spansMeet = true ↔ ¬ apart k := by
  unfold CopyCmd.spansMeet apart toEyelet
  rw [moves_eq hq, width_eq hq, funext (dstOff_eq hq), funext (srcOff_eq hq)]
  rcases Nat.eq_zero_or_pos (moveCount k) with h0 | hpos
  · simp [h0]
  obtain ⟨n, hn⟩ : ∃ n, moveCount k = n + 1 := ⟨moveCount k - 1, by omega⟩
  obtain ⟨⟨a, ha, hslo⟩, ⟨b, hb, hshi⟩, hs⟩ := spanOf_bounds (fun e => (displaced k e).1) n
  obtain ⟨⟨c, hc, hdlo⟩, ⟨d, hd, hdhi⟩, hds⟩ := spanOf_bounds (fun e => (displaced k e).2) n
  rw [hn]
  have hleft : (∀ i j, i < n + 1 → j < n + 1 → (k.xb.toNat : Int) + (displaced k i).1 + moveBytes k ≤ k.xa.toNat + (displaced k j).2) ↔
      ¬ (k.xa.toNat : Int) + (spanOf (fun e => (displaced k e).2) (n + 1)).1 <
        k.xb.toNat + (spanOf (fun e => (displaced k e).1) (n + 1)).2 + moveBytes k := by
    refine ⟨fun h => ?_, fun h i j hi hj => ?_⟩
    · have := h b c hb hc; rw [hdlo, hshi]; omega
    · have := (hs i hi).2; have := (hds j hj).1; omega
  have hright : (∀ i j, i < n + 1 → j < n + 1 → (k.xa.toNat : Int) + (displaced k j).2 + moveBytes k ≤ k.xb.toNat + (displaced k i).1) ↔
      ¬ (k.xb.toNat : Int) + (spanOf (fun e => (displaced k e).1) (n + 1)).1 <
        k.xa.toNat + (spanOf (fun e => (displaced k e).2) (n + 1)).2 + moveBytes k := by
    refine ⟨fun h => ?_, fun h i j hi hj => ?_⟩
    · have := h a d ha hd; rw [hslo, hdhi]; omega
    · have := (hs i hi).1; have := (hds j hj).2; omega
  rw [hleft, hright]
  cases hf : k.form <;> simp_all [and_comm]

end

/-- A message meets nothing (R238 item 4 speaks of copies). -/
theorem spansMeet_qsend {k : CopyCmd} (hq : k.form = .qsend) : k.spansMeet = false ∧ apart k := by
  unfold CopyCmd.spansMeet apart toEyelet
  simp [hq]

theorem spansMeet_eq (k : CopyCmd) : k.spansMeet = true ↔ ¬ apart k := by
  by_cases hq : k.form = .qsend
  · obtain ⟨h, ha⟩ := spansMeet_qsend hq
    simp [h, ha]
  · exact spansMeet_iff hq

end Sys2Proof.Laws
end

section
/-! The copy commands (12 R233 to R240): acceptance, waiting and engine faults. -/

namespace Sys2Proof.Laws

set_option Elab.async false

open Sys2Proof Sys2Proof.Machine Sys2Proof.Claim

/-! ### What a copy command issues -/

theorem boundBy_nil (s : State) : s.boundBy [] = [] := by simp [State.boundBy]

theorem command_brought {s u : State} (h : Brought s u) (f : CopyForm) (r : Bool) (xa xb xc : Word) (n : Nat) :
    u.command f r xa xb xc n = copyForm.base s f r xa xb xc n := by
  obtain ⟨_, _, _, _, _, rfl⟩ := h; rfl

/-- The checks of a copy command whose operands are in order. -/
theorem prepared {s u : State} {o : Operands} (hs : s.strip? = none) (hr : ready s u o) (ht : s.hart.vcfg.tag ≠ .none)
    {flt : List (Bool × Nat)} (hf : ∀ p ∈ flt, p.1 = true → p.1 ∈ o.faults) (f : State → Run State) :
    finish (do s.noStrip; s.needRef; let v ← s.prepare o.srcs o.dsts o.masks o.usesMask o.len flt; f v) = finish (f u) := by
  rw [noStrip_of_none hs, needRef_ok ht, prepare_ready hr flt hf]
  rfl

theorem vcfgTag_of_faults {s u : State} {o : Operands} (hr : ready s u o) (h : noElements s.hart.vcfg.tag ∈ o.faults) :
    s.hart.vcfg.tag ≠ .none := by
  intro ht
  obtain ⟨-, -, hf, -⟩ := hr
  have := hf _ h
  rw [ht] at this
  cases this

theorem ready_brought {s u : State} {o : Operands} (hr : ready s u o) : Brought s u := by
  obtain ⟨-, -, -, -, -, -, hd, -⟩ := hr
  exact brought_deliver _ _ _ hd

/-- A copy without an index group, prepared. -/
theorem plainCopy_issues {s u : State} {f : CopyForm} {ch : ChNum} {r : Bool} {xa xb xc : Word} {n : Nat}
    (hs : s.strip? = none)
    (hr : ready s u ⟨[], [], [], false, 0, [noElements s.hart.vcfg.tag, s.hart.vcfg.tag == .fp4 && n % 2 != 0]⟩) :
    plainCopy f ch r xa xb xc n s = finish (u.issueCopy ch (copyForm.base s f r xa xb xc n) (s.boundBy [])) := by
  have ht := vcfgTag_of_faults hr (List.mem_cons_self ..)
  refine (prepared hs hr ht (flt := s.copyFaults n) ?_ _).trans ?_
  · intro p hp h
    unfold State.copyFaults at hp
    rw [h]
    rcases List.mem_pair.1 hp with rfl | rfl
    · simp [noElements, show s.hart.vcfg.tag = .sc8 by simpa using h]
    · exact List.mem_pair.2 (.inr h.symm)
  · rw [command_brought (ready_brought hr), boundBy_nil]

theorem indexInt_eq (t : Tag) (x : Nat) : indexInt t x = if tagSigned t then (BitVec.ofNat (tagBits t) x).toInt else x := by
  unfold indexInt
  split
  · next h =>
    obtain ⟨w, hw⟩ : ∃ w, tagBits t = w + 1 := by cases t <;> cases h <;> exact ⟨_, rfl⟩
    rw [hw, BitVec.toInt, BitVec.toNat_ofNat, toSigned]
    simp only [Nat.add_sub_cancel, pow_succ]
    split_ifs <;> push_cast at * <;> omega
  · rfl

/-- The index of an element, in the state in which its group is read. -/
theorem index_eq {s u : State} (h : Brought s u) (ht : s.hart.vcfg.tag ≠ .none) (i : VNum) (e : Nat) :
    index s u i e = u.idxOf i e := by
  have hv : u.vtagOf i = tagOf s i := by
    obtain ⟨_, _, _, _, hv, rfl⟩ := h; exact hv i
  have hg : u.idxGrp i = indexGroup s i := by
    unfold State.idxGrp indexGroup
    rw [hv, ← group_eq s i _ ht]
    obtain ⟨_, _, _, _, _, rfl⟩ := h; rfl
  unfold index State.idxOf element
  rw [hv, hg, indexInt_eq]
  rfl

/-- A copy with an index group, prepared. -/
theorem indexCopy_issues {s u : State} {f : CopyForm} {ch : ChNum} {r : Bool} {a b : XReg} {i : VNum} (hs : s.strip? = none)
    (hr : ready s u ⟨[indexGroup s i], [], [], false, 0, noElements s.hart.vcfg.tag :: indexFaults s i []⟩) :
    indexCopy f ch a b i r s = finish (u.issueCopy ch
      { copyForm.base s f r (s.x a) (s.x b) 0 s.hart.vl with
        itag := tagOf s i, idx := (List.range s.hart.vl).map (index s u i) } (s.boundBy [indexGroup s i])) := by
  have ht := vcfgTag_of_faults hr (List.mem_cons_self ..)
  have hb := ready_brought hr
  have hg : s.idxGrp i = indexGroup s i := group_eq s i _ ht
  have hflt : ∀ p ∈ s.idxFaults i [] ++ s.copyFaults s.hart.vl, p.1 = true →
      p.1 ∈ noElements s.hart.vcfg.tag :: indexFaults s i [] := by
    intro p hp h
    simp only [State.idxFaults, State.copyFaults, List.cons_append, List.nil_append, List.mem_cons, List.not_mem_nil,
      or_false] at hp
    rw [h]
    simp only [indexFaults, List.mem_cons]
    rcases hp with rfl | rfl | rfl | rfl | rfl | rfl | rfl
    · exact .inr (.inl h.symm)
    · exact .inr (.inr (.inl h.symm))
    · exact .inr (.inr (.inr (.inl h.symm)))
    · exact .inr (.inr (.inr (.inr (.inl h.symm))))
    · cases h
    · exact .inl (by simp [noElements, show s.hart.vcfg.tag = .sc8 by simpa using h])
    · exact .inr (.inl (Bool.and_eq_true_iff.1 h).1.symm)
  unfold indexCopy
  rw [hg]
  refine (prepared hs hr ht hflt _).trans ?_
  rw [command_brought hb, ← funext (index_eq hb ht i)]
  obtain ⟨_, _, _, _, hv, rfl⟩ := hb
  rw [← show _ = tagOf s i from hv i]
  rfl

/-- The message of a fibre (R249). -/
theorem message_eq (q : QReg) : q.message = copyForm.image q := by
  have hz (n : Nat) : bytesOf n 0 = List.replicate n 0 := by
    induction n with
    | zero => rfl
    | succ n ih => rw [bytesOf, Nat.zero_div, ih]; rfl
  unfold QReg.message copyForm.image messageValues messageValue
  dsimp only
  rw [hz, hz, show 16 + 8 * ((4 * q.entries.length + 7) / 8) - 16 - 4 * q.entries.length = 4 * (q.entries.length % 2) by omega]

theorem qsend_issues {s u : State} {ch : ChNum} {a : QNum} {b : XReg} {r : Bool} (hs : s.strip? = none)
    (hr : ready s u ⟨[], [], [], false, 0,
      [s.hart.q[a.val].tag == .none && s.hart.q[a.val].entries != [], s.hart.q[a.val].poison]⟩) :
    execQsend ch b a r s = finish (u.issueCopy ch
      { copyForm.base s .qsend r (s.x b) 0 0 s.hart.q[a.val].entries.length with
        tag := s.hart.q[a.val].tag, vl := 0, msg := copyForm.image s.hart.q[a.val] } (s.boundBy [])) := by
  obtain ⟨-, -, hf, -, -, -, hd, -⟩ := hr
  rw [boundBy_nil] at hd ⊢
  cases hd
  have h1 := hf _ (List.mem_cons_self ..)
  have h2 := hf _ (List.mem_cons_of_mem _ (List.mem_cons_self ..))
  have hq : s.q a = s.hart.q[a.val] := rfl
  unfold execQsend
  rw [noStrip_of_none hs, hq]
  have hn : (s.hart.q[a.val].tag == Tag.none && s.hart.q[a.val].n != 0) = false := by
    unfold QReg.n
    revert h1
    cases s.hart.q[a.val].entries <;> simp
  have hp : s.fibresOk [a] = .ok () := by
    unfold State.fibresOk State.require
    simp [State.q, h2]
  dsimp only
  rw [hn, hp, message_eq]
  rfl

/-- A copy command whose operands are in order issues its command. -/
theorem exec_copyForm {s u : State} {i : Instr} {ch : ChNum} {o : Operands} {k : CopyCmd} (hf : copyForm s u i = some (ch, o, k))
    (hs : s.strip? = none) (hr : ready s u o) : exec i s = finish (u.issueCopy ch k (s.boundBy o.srcs)) := by
  cases i <;> cases hf
  case cpy => exact plainCopy_issues hs hr
  case cpy2 => exact plainCopy_issues hs hr
  case cpyR => exact plainCopy_issues hs hr
  case cpyG => exact indexCopy_issues hs hr
  case cpyGd => exact indexCopy_issues hs hr
  case qsend => exact qsend_issues hs hr

/-! ### What a channel makes of a command -/

theorem busy_iff (u : State) (ch : ChNum) (k : CopyCmd) :
    u.busy ch k = true ↔ (channel u ch).state = .running ∨ ((channel u ch).state ≠ .failed ∧ relHeld u k) := by
  unfold State.busy
  rw [Bool.or_eq_true, Bool.and_eq_true, releaseStuck_iff, beq_iff_eq, decide_eq_true_eq]
  rfl

theorem issueCopy_waits {u : State} {ch : ChNum} {k : CopyCmd} (uses : List Sys2Proof.SNum)
    (h : (channel u ch).state = .running ∨ ((channel u ch).state ≠ .failed ∧ relHeld u k)) :
    u.issueCopy ch k uses = .ok (u.wait (.channel ch k uses) .active) :=
  if_pos ((busy_iff u ch k).2 h)

theorem issueCopy_accepts {u : State} {ch : ChNum} {k : CopyCmd} (uses : List Sys2Proof.SNum)
    (h : ¬ ((channel u ch).state = .running ∨ ((channel u ch).state ≠ .failed ∧ relHeld u k))) :
    u.issueCopy ch k uses = (u.accept ch k >>= fun v => .ok (v.advance uses).retire) :=
  if_neg fun hb => h ((busy_iff u ch k).1 hb)

/-- The state in which a command is accepted: the bytes that a `.rel` must send have gone out. -/
def released (u : State) (k : CopyCmd) : State := if k.rel then (u.writeBackAll u.hart.place.core u.hart.place.hid).1 else u

theorem relined_released (u : State) (k : CopyCmd) : Relined u (released u k) := by
  unfold released
  split
  · exact relined_writeBackAll ..
  · exact .refl u

theorem sentOut_released (u : State) (k : CopyCmd) : sentOut u (released u k) k := by
  unfold sentOut released
  refine ⟨fun hr => by simp [hr], fun hr => ?_⟩
  rw [if_pos hr]
  exact ⟨fun l hl hm => writeBackAll_sends _ _ _ hl hm, fun a ha => writeBackAll_other _ _ _ a ha⟩

theorem accept_failed {u : State} {ch : ChNum} {k : CopyCmd} (h : (channel u ch).state = .failed) :
    u.accept ch k = u.trap (engineFault ch false) := if_pos h

theorem accept_meets {u : State} {ch : ChNum} {k : CopyCmd} (h : (channel u ch).state ≠ .failed) (hm : ¬ apart k) :
    u.accept ch k = u.trap (engineFault ch true) :=
  (if_neg h).trans (if_pos ((spansMeet_eq k).2 hm))

theorem accept_takes {u : State} {ch : ChNum} {k : CopyCmd} (h : (channel u ch).state ≠ .failed) (ha : apart k) :
    u.accept ch k = .ok ((released u k).setChan ch ((released u k).taken { k with batch := u.hart.batch })) := by
  refine (if_neg h).trans ((if_neg fun hm => (spansMeet_eq k).1 hm ha).trans ?_)
  obtain ⟨_, _, _, he⟩ := relined_released u k
  have hb : (released u k).hart.batch = u.hart.batch := by rw [he]
  rw [← hb]
  rfl

theorem eyeletAddr_at {u : State} {t : Word} {z : Zone} (hd : handleDev t = u.device.val)
    (hz : u.zoneAt (handleCore t) (handleZone t) = some z) : u.eyeletAddr t = eyeletAt z t := by
  unfold State.eyeletAddr eyeletAt
  rw [if_pos hd, hz]
  simp only [ticketSlot, bitsAt, Nat.shiftRight_eq_div_pow]
  rfl

/-- The channel that a command becomes. -/
theorem taken_acceptedAs {s w : State} (hd : w.device = s.device) (hz : w.zones = s.zones) (k : CopyCmd) :
    acceptedAs s (w.taken { k with batch := s.hart.batch }) k := by
  have hrem : (decide (k.form = .cpyR ∨ k.form = .qsend)) = toEyelet k := by
    unfold toEyelet; cases k.form <;> rfl
  have hrem' : (k.form = .cpyR ∨ k.form = .qsend) ↔ toEyelet k = true := by rw [← hrem, decide_eq_true_eq]
  refine ⟨rfl, rfl, rfl, rfl, rfl, rfl, rfl, rfl, rfl, hrem, ?_, ?_, fun he => ?_, fun z he hdev hza => ?_⟩
  · by_cases hq : k.form = .qsend
    · simp [State.taken, hq]
    · have hm : k.moves = moveCount k := moves_eq hq
      have hw : k.width = moveBytes k := width_eq hq
      rw [← hm, ← hw]
      exact decide_eq_true_iff
  · show (if ¬ (k.form = .cpyR ∨ k.form = .qsend) ∧ k.n = 0 then ChState.done else .running) = _
    simp [hrem', and_comm]
  · have hq : k.form ≠ .qsend := fun h => by simp [toEyelet, h] at he
    have hno : ¬ (k.form = .cpyR ∨ k.form = .qsend) := fun h => by rw [hrem'.1 h] at he; cases he
    show lowestAt k (if k.form = .cpyR ∨ k.form = .qsend then w.eyeletAddr k.xa else k.lowest)
    rw [if_neg hno]
    exact lowestAt_lowest hq
  · show (if k.form = .cpyR ∨ k.form = .qsend then w.eyeletAddr k.xa else k.lowest) = _
    rw [if_pos (hrem'.2 he)]
    refine eyeletAddr_at (by rw [hd, hdev]) ?_
    unfold State.zoneAt at hza ⊢
    rw [hz, hza]

/-! ### The obligation -/

theorem channel_brought {s u : State} (h : Brought s u) (ch : ChNum) : channel u ch = channel s ch := by
  obtain ⟨_, _, _, _, _, rfl⟩ := h; rfl

theorem channel_setChan (s : State) (k j : ChNum) (c : Channel) : channel (s.setChan k c) j = if j = k then c else channel s j := by
  unfold channel State.setChan
  simp only [Vector.getElem_set, Fin.ext_iff, eq_comm (a := k.val)]

theorem copyCommands_clause {s u : State} {i : Instr} {ch : ChNum} {o : Operands} {k : CopyCmd}
    (hf : copyForm s u i = some (ch, o, k)) (hs : s.strip? = none) (hr : ready s u o) (hc : (channel s ch).state ≠ .failed)
    (hrun : (channel s ch).state ≠ .running) (hrel : ¬ relHeld u k) (ha : apart k) : ∃ t, exec i s = .next t ∧
      acceptedAs s (channel t ch) k ∧ onlyChannel s t ch ∧ goesOn s t ∧ movedOn s o.srcs t.hart.streams ∧ t.spad = u.spad ∧
      sentOut u t k ∧
      t = { u with mem := t.mem, poison := t.poison, rcache := t.rcache, hart := { u.hart with
        ch := t.hart.ch, streams := t.hart.streams, pc := t.hart.pc, instret := t.hart.instret } } := by
  have hb := ready_brought hr
  have hch := channel_brought hb ch
  have hmv := advance_movedOn s u o.srcs (deliver_only _ _ _ hr.2.2.2.2.2.2.1)
  have hsent := sentOut_released u k
  have hissue : u.issueCopy ch k (s.boundBy o.srcs) = .ok ((((released u k).setChan ch
      ((released u k).taken { k with batch := u.hart.batch })).advance (s.boundBy o.srcs)).retire) := by
    rw [issueCopy_accepts _ (by rw [hch]; tauto), accept_takes (by rwa [hch]) ha]
    rfl
  refine ⟨_, (exec_copyForm hf hs hr).trans (congrArg finish hissue), ?_⟩
  obtain ⟨mem, poison, rcache, hw⟩ := relined_released u k
  rw [hw] at hsent ⊢
  obtain ⟨v, mem', poison', rcache', -, rfl⟩ := hb
  refine ⟨?_, fun j hj => (channel_setChan _ _ j _).trans (if_neg hj), ⟨rfl, rfl⟩, hmv, rfl, hsent, rfl⟩
  refine Eq.subst (motive := (acceptedAs s · k)) ((channel_setChan _ ch ch _).trans (if_pos rfl)).symm ?_
  exact taken_acceptedAs rfl rfl k

/-- A synchronous exception, outside a strip, of an instruction that has performed nothing (R299, R344). -/
theorem took_enterTrap (u : State) (cause : Nat) (faddr finfo : Word) :
    took u (u.enterTrap false cause u.hart.pc faddr finfo) cause u.hart.pc faddr finfo := by
  unfold took State.enterTrap
  cases hl : u.hart.priv.level <;> simp [hl]

theorem engineFault_clause {s u : State} {i : Instr} {ch : ChNum} {o : Operands} {k : CopyCmd}
    (hf : copyForm s u i = some (ch, o, k)) (hs : s.strip? = none) (hr : ready s u o) {b : Bool}
    (ha : u.accept ch k = u.trap (engineFault ch b))
    (hno : ¬ ((channel s ch).state = .running ∨ ((channel s ch).state ≠ .failed ∧ relHeld u k))) :
    ∃ t, exec i s = .next t ∧ took u t 0x0C s.hart.pc 0 (BitVec.ofNat 64 (ch.val + b.toNat * 8)) := by
  have hb := ready_brought hr
  have hissue : u.issueCopy ch k (s.boundBy o.srcs) = .error (engineFault ch b, u) := by
    rw [issueCopy_accepts _ (by rwa [channel_brought hb]), ha]
    rfl
  have hu : u.strip? = none := by obtain ⟨_, _, _, _, _, rfl⟩ := hb; exact hs
  have hpc : u.hart.pc = s.hart.pc := by obtain ⟨_, _, _, _, _, rfl⟩ := hb; rfl
  have htrap : u.takeTrap (engineFault ch b) = u.enterTrap false 0x0C u.hart.pc 0 (BitVec.ofNat 64 (ch.val + b.toNat * 8)) := by
    have hhit : u.stripHit (engineFault ch b) = none := (if_neg (show ¬ 0x0C = 0x0E by decide)).trans hu
    refine (if_neg (show ¬ 0x0C = holdCause by decide)).trans ?_
    rw [hhit]
    rfl
  refine ⟨_, (exec_copyForm hf hs hr).trans (congrArg finish hissue), ?_⟩
  rw [← hpc]
  show took u (u.takeTrap (engineFault ch b)) _ _ _ _
  rw [htrap]
  exact took_enterTrap ..

theorem copyCommands_hold : Claim.CopyCommands := by
  intro s u i ch o k hf hs hr hc
  have hch := channel_brought (ready_brought hr) ch
  refine ⟨fun h => ?_, fun hrun hrel ha => copyCommands_clause hf hs hr hc hrun hrel ha⟩
  exact (exec_copyForm hf hs hr).trans (congrArg finish (issueCopy_waits _ (by rw [hch]; tauto)))

theorem engineFaults : Claim.EngineFaults := by
  intro s u i ch o k hf hs hr
  have hch := channel_brought (ready_brought hr) ch
  refine ⟨fun hc => ?_, fun hc hrel ha => ?_⟩
  · exact engineFault_clause hf hs hr (b := false) (accept_failed (by rw [hch, hc])) (by simp [hc])
  · have hne : (channel s ch).state ≠ .failed := by rcases hc with h | h <;> simp [h]
    have hnr : (channel s ch).state ≠ .running := by rcases hc with h | h <;> simp [h]
    exact engineFault_clause hf hs hr (b := true) (accept_meets (by rwa [hch]) ha) (by tauto)

/-- Settles O40, by what a copy command issues and what its channel makes of that: it waits, is taken, or is an engine fault. -/
theorem copyCommands : Obligations.CopyCommands := ⟨copyCommands_hold, engineFaults⟩

end Sys2Proof.Laws
end

section
/-! Queues, rejected launches, and the switches of a partition (18 R308, 19 R311 to R320). -/

namespace Sys2Proof.Laws

set_option Elab.async false

open Sys2Proof Sys2Proof.Machine

variable {s t u : State}

/-! ### Queues -/

theorem find_filter_kept {α : Type} {p f : α → Bool} (L : List α) (h : ∀ e, f e = true → p e = true) :
    (L.filter p).find? f = L.find? f := by
  rw [List.find?_filter]
  congr 1
  funext e
  cases hf : f e <;> simp [h e, hf]

theorem find_filter_gone {α : Type} {p f : α → Bool} (L : List α) (h : ∀ e, f e = true → p e = false) :
    (L.filter p).find? f = none := by
  rw [List.find?_eq_none]
  intro e he hf
  rw [List.mem_filter, h e hf] at he
  cases he.2

/-- The queues once one has been replaced. -/
theorem queue_setQueue (s : State) (q r : Nat) (v : Queue) : (s.setQueue q v).queue r = if r = q then v else s.queue r := by
  unfold State.queue
  rw [setQueue_queues, List.find?_append, List.find?_cons]
  split_ifs with h
  · subst h
    rw [find_filter_gone _ fun e he => by simpa using (beq_iff_eq.1 he).ge]
    simp
  · have hq : (q == r) = false := beq_false_of_ne (Ne.symm h)
    simp only [hq]
    rcases Nat.lt_or_gt_of_ne h with hlt | hgt
    · rw [find_filter_kept _ fun e he => by simpa [beq_iff_eq.1 he] using hlt,
        find_filter_gone _ fun e he => by simpa [beq_iff_eq.1 he] using hlt.le, Option.or_none]
    · rw [find_filter_gone _ fun e he => by simpa [beq_iff_eq.1 he] using hgt.le,
        find_filter_kept _ fun e he => by simpa [beq_iff_eq.1 he] using hgt, Option.none_or]

/-! ### Enabling (R308, R320) -/

/-- A queue whose deficit starts at 0. -/
def clearDeficit (s : State) (q : Nat) : State :=
  if (s.queue q).deficit = 0 then s else s.setQueue q { s.queue q with deficit := 0 }

theorem clearDeficit_only (s : State) (q : Nat) : clearDeficit s q = { s with queues := (clearDeficit s q).queues } := by
  unfold clearDeficit
  split_ifs <;> rfl

theorem queue_clearDeficit (s : State) (q r : Nat) :
    (clearDeficit s q).queue r = if r = q then { s.queue r with deficit := 0 } else s.queue r := by
  unfold clearDeficit
  split_ifs with hd hr hr
  · subst hr; rw [← hd]
  · rfl
  · subst hr; rw [queue_setQueue, if_pos rfl]
  · rw [queue_setQueue, if_neg hr]

/-- Deficits that start at 0: of the queues of a list, and of no other. -/
theorem clearDeficits_says (qs : List Nat) (s : State) :
    qs.foldl clearDeficit s = { s with queues := (qs.foldl clearDeficit s).queues } ∧
      ∀ r, (qs.foldl clearDeficit s).queue r = if r ∈ qs then { s.queue r with deficit := 0 } else s.queue r := by
  induction qs generalizing s with
  | nil => exact ⟨rfl, fun r => (if_neg List.not_mem_nil).symm⟩
  | cons q qs ih =>
    obtain ⟨heq, hq⟩ := ih (clearDeficit s q)
    rw [List.foldl_cons]
    refine ⟨by rw [heq, clearDeficit_only], fun r => ?_⟩
    rw [hq, queue_clearDeficit]
    by_cases hr : r = q <;> by_cases hm : r ∈ qs <;> simp [hr, hm]

theorem mem_queues (k : Partition) (q : Nat) : q ∈ k.queues ↔ k.first ≤ q ∧ q < k.first + k.count := by
  unfold Partition.queues
  rw [List.mem_map]
  constructor
  · rintro ⟨i, hi, rfl⟩
    have := List.mem_range.1 hi
    omega
  · rintro ⟨h1, h2⟩
    exact ⟨q - k.first, List.mem_range.2 (by omega), by omega⟩

theorem partOf_setPart (s : State) (p o : Fin 8) (k : Partition) : (s.setPart p k).partOf o = if o = p then k else s.partOf o := by
  unfold State.partOf State.setPart
  simp only [Vector.getElem_set, Fin.ext_iff, eq_comm (a := p.val)]

theorem partitionEnable_clause (s : State) (p : Fin 8) :
    let k := s.partOf p
    ∃ t, exec (.partitionEnable p) s = .next t ∧ t = { s with parts := t.parts, queues := t.queues } ∧
      (∀ o : Fin 8, o ≠ p → t.partOf o = s.partOf o) ∧ (∀ q, t.queue q = { s.queue q with deficit := (t.queue q).deficit }) ∧
      (k.en = true → t = s) ∧
      (k.en = false → s.canEnable p = true → t.partOf p = { k with en := true } ∧
        ∀ q, (k.first ≤ q → q < k.first + k.count → (t.queue q).deficit = 0) ∧
          (q < k.first ∨ k.first + k.count ≤ q → t.queue q = s.queue q)) ∧
      (k.en = false → s.canEnable p = false → t.partOf p = { k with err := true } ∧ t.queues = s.queues) := by
  intro k
  cases hen : k.en with
  | true =>
    refine ⟨s, congrArg _ (if_pos hen), rfl, fun _ _ => rfl, fun _ => rfl, fun _ => rfl, nofun, nofun⟩
  | false =>
    have hno : ¬ (s.partOf p).en = true := Bool.eq_false_iff.1 hen
    cases hc : s.canEnable p with
    | true =>
      obtain ⟨heq, hq⟩ := clearDeficits_says k.queues (s.setPart p { k with en := true })
      have hq' (q : Nat) : (s.setPart p { k with en := true }).queue q = s.queue q := rfl
      have hp (o : Fin 8) : (k.queues.foldl clearDeficit (s.setPart p { k with en := true })).partOf o =
          if o = p then { k with en := true } else s.partOf o := by
        rw [heq]; exact partOf_setPart s p o _
      refine ⟨k.queues.foldl clearDeficit (s.setPart p { k with en := true }), congrArg _ ((if_neg hno).trans (if_pos hc)),
        by rw [heq]; rfl, fun o ho => (hp o).trans (if_neg ho), fun q => ?_, nofun,
        fun _ _ => ⟨(hp p).trans (if_pos rfl), fun q => ⟨fun h1 h2 => ?_, fun h => ?_⟩⟩, nofun⟩
      · rw [hq, hq']; split_ifs <;> rfl
      · rw [hq, if_pos ((mem_queues k q).2 ⟨h1, h2⟩)]
      · rw [hq, if_neg fun hm => by have := (mem_queues k q).1 hm; omega, hq']
    | false =>
      refine ⟨s.setPart p { k with err := true }, congrArg _ ((if_neg hno).trans (if_neg (Bool.eq_false_iff.1 hc))), rfl,
        fun o ho => (partOf_setPart s p o _).trans (if_neg ho), fun _ => rfl, nofun, nofun,
        fun _ _ => ⟨by rw [partOf_setPart, if_pos rfl, hen], rfl⟩⟩

/-! ### Rejected launches (R21, R316, R317) -/

/-- A launch that is REJECTED with status 1. -/
def rejected (l : Launch) : Launch := { l with state := .rejected, status := 1 }

theorem signal_only (s : State) (l : Launch) (n : Nat) :
    s.signal l n = { s with mem := (s.signal l n).mem, poison := (s.signal l n).poison } := by
  unfold State.signal
  split
  · rfl
  · split
    · split <;> rfl
    · rfl

/-- A launch that asks for no completion signal gets none (R316). -/
theorem signal_none {l : Launch} (h : l.word 4 = 0) (s : State) (n : Nat) : s.signal l n = s := if_pos (.inl h)

/-- What the rejection of a launch changes. -/
theorem rejectLaunch_only (s : State) (l : Launch) : s.rejectLaunch l = { s with
    mem := (s.signal l 1).mem, poison := (s.signal l 1).poison
    launches := s.launches.map fun k => if k.id = l.id then rejected l else k, queues := (s.rejectLaunch l).queues } := by
  have hs := signal_only s l 1
  unfold State.rejectLaunch
  dsimp only
  generalize s.signal l 1 = v at hs ⊢
  split <;> rw [hs] <;> rfl

/-- The queue of a rejected launch frees its entry; every queue keeps its packets. -/
theorem queue_rejectLaunch (s : State) (l : Launch) (r : Nat) :
    ((s.rejectLaunch l).queue r).packets = (s.queue r).packets ∧ (r ≠ l.queue → (s.rejectLaunch l).queue r = s.queue r) := by
  have hq (r : Nat) : ((s.signal l 1).putLaunch { l with state := .rejected, status := 1 }).queue r = s.queue r := by
    rw [signal_only]; rfl
  unfold State.rejectLaunch
  dsimp only
  split
  · rw [queue_setQueue, hq]
    split_ifs with h
    · subst h; exact ⟨rfl, fun h => absurd rfl h⟩
    · rw [hq]; exact ⟨rfl, fun _ => rfl⟩
  · rw [hq]; exact ⟨rfl, fun _ => rfl⟩

/-! ### A partition that is disabled (R308) -/

/-- What the rejections of a partition's launches may change. -/
def RejectsOnly (s t : State) : Prop := ∃ mem poison launches queues nextLaunch, t = { s with
  mem := mem, poison := poison, launches := launches, queues := queues, nextLaunch := nextLaunch }

theorem RejectsOnly.refl (s : State) : RejectsOnly s s := ⟨_, _, _, _, _, rfl⟩

theorem RejectsOnly.trans (h : RejectsOnly s t) (k : RejectsOnly t u) : RejectsOnly s u := by
  obtain ⟨_, _, _, _, _, rfl⟩ := h
  obtain ⟨_, _, _, _, _, rfl⟩ := k
  exact ⟨_, _, _, _, _, rfl⟩

/-- The launch a list of rejections makes of one: rejected when it is among them. -/
theorem rejections_of {k : Launch} (ls : List Launch) (hls : ∀ l ∈ ls, l.id = k.id → l = k) (x : Launch) (hx : x.id = k.id) :
    ls.foldl (fun x l => if x.id = l.id then rejected l else x) x = if k ∈ ls then rejected k else x := by
  induction ls generalizing x with
  | nil => rw [if_neg List.not_mem_nil]; rfl
  | cons l ls ih =>
    have ih' := ih fun m hm => hls m (List.mem_cons_of_mem _ hm)
    rw [List.foldl_cons]
    by_cases h : x.id = l.id
    · obtain rfl : l = k := hls l (List.mem_cons_self ..) (h.symm.trans hx)
      rw [if_pos h, ih' (rejected l) rfl, if_pos (List.mem_cons_self ..), ite_self]
    · have hk : k ≠ l := fun e => h (e ▸ hx)
      rw [if_neg h, ih' x hx]
      simp [hk]

/-- The WAITING launches of a partition are rejected: what that leaves. -/
theorem rejectLaunches_says (ls : List Launch) (s : State) :
    let t := ls.foldl (fun s l => s.rejectLaunch l) s
    RejectsOnly s t ∧ t.nextLaunch = s.nextLaunch ∧
      t.launches = s.launches.map (fun k => ls.foldl (fun x l => if x.id = l.id then rejected l else x) k) ∧
      (∀ r, (t.queue r).packets = (s.queue r).packets ∧ ((∀ l ∈ ls, l.queue ≠ r) → t.queue r = s.queue r)) ∧
      ((∀ l ∈ ls, l.word 4 = 0) → t.mem = s.mem) := by
  induction ls generalizing s with
  | nil => exact ⟨.refl s, rfl, (List.map_id _).symm, fun _ => ⟨rfl, fun _ => rfl⟩, fun _ => rfl⟩
  | cons l ls ih =>
    obtain ⟨honly, hnext, hl, hq, hm⟩ := ih (s.rejectLaunch l)
    have h1 := rejectLaunch_only s l
    rw [List.foldl_cons]
    refine ⟨.trans ⟨_, _, _, _, _, h1⟩ honly, hnext.trans (by rw [h1]), ?_, fun r => ?_, fun h0 => ?_⟩
    · rw [hl, h1, List.map_map]; rfl
    · obtain ⟨hp, hk⟩ := queue_rejectLaunch s l r
      refine ⟨(hq r).1.trans hp, fun hne => ?_⟩
      exact ((hq r).2 fun m hm => hne m (List.mem_cons_of_mem _ hm)).trans (hk (hne l (List.mem_cons_self ..)).symm)
    · rw [hm fun m hm => h0 m (List.mem_cons_of_mem _ hm), h1]
      show (s.signal l 1).mem = s.mem
      rw [signal_none (h0 l (List.mem_cons_self ..))]

/-- Every launch has a number that was given out. -/
def Numbered (s : State) : Prop := ∀ l ∈ s.launches, l.id < s.nextLaunch

/-- The launch that a packet of a queue becomes when it is rejected unaccepted. -/
def queuedLaunch (s : State) (p : Fin 8) (q : Nat) (w : List Word) : Launch :=
  { id := s.nextLaunch, queue := q, part := p, words := withPart w p, state := .queued }

/-- One packet of a queue that is rejected. -/
def rejectPacket (p : Fin 8) (q : Nat) (s : State) (w : List Word) : State :=
  { s with nextLaunch := s.nextLaunch + 1, launches := s.launches ++ [queuedLaunch s p q w] }.rejectLaunch (queuedLaunch s p q w)

/-- A packet of a queue left its trace: a REJECTED launch with the packet's words. -/
def Recorded (t : State) (p : Fin 8) (q : Nat) (w : List Word) : Prop := ∃ l ∈ t.launches,
  l.queue = q ∧ l.words = withPart w p ∧ l.part = p ∧ l.state = .rejected ∧ l.status = 1

theorem queuedLaunch_word4 (s : State) (p : Fin 8) (q : Nat) (w : List Word) : (queuedLaunch s p q w).word 4 = w.getD 4 0 := by
  unfold Launch.word queuedLaunch withPart
  simp [List.getD_eq_getElem?_getD]

theorem rejectPacket_says (p : Fin 8) (q : Nat) (w : List Word) (hn : Numbered s) :
    let t := rejectPacket p q s w
    RejectsOnly s t ∧ Numbered t ∧ s.launches ⊆ t.launches ∧ Recorded t p q w ∧
      (∀ r, (t.queue r).packets = (s.queue r).packets ∧ (r ≠ q → t.queue r = s.queue r)) ∧ (w.getD 4 0 = 0 → t.mem = s.mem) := by
  have h1 := rejectLaunch_only { s with nextLaunch := s.nextLaunch + 1, launches := s.launches ++ [queuedLaunch s p q w] }
    (queuedLaunch s p q w)
  have hl : (rejectPacket p q s w).launches = s.launches ++ [rejected (queuedLaunch s p q w)] := by
    unfold rejectPacket
    rw [h1]
    dsimp only
    rw [List.map_append, List.map_singleton, if_pos rfl]
    congr 1
    exact (List.map_congr_left fun k hk => if_neg (hn k hk).ne).trans (List.map_id _)
  have hnext : (rejectPacket p q s w).nextLaunch = s.nextLaunch + 1 := by unfold rejectPacket; rw [h1]
  refine ⟨⟨_, _, _, _, _, h1⟩, fun k hk => ?_, hl ▸ List.subset_append_left .., ?_, fun r => queue_rejectLaunch _ _ r, fun h0 => ?_⟩
  · rw [hl, List.mem_append, List.mem_singleton] at hk
    rw [hnext]
    rcases hk with hk | rfl
    · exact (hn k hk).trans (Nat.lt_succ_self _)
    · exact Nat.lt_succ_self _
  · exact ⟨_, hl ▸ List.mem_append_right _ (List.mem_singleton_self _), rfl, rfl, rfl, rfl, rfl⟩
  · show (rejectPacket p q s w).mem = s.mem
    unfold rejectPacket
    rw [h1]
    show (State.signal _ _ 1).mem = s.mem
    rw [signal_none ((queuedLaunch_word4 s p q w).trans h0)]

theorem Recorded.mono {p : Fin 8} {q : Nat} {w : List Word} (h : Recorded s p q w) (hs : s.launches ⊆ t.launches) :
    Recorded t p q w := by
  obtain ⟨l, hl, h⟩ := h
  exact ⟨l, hs hl, h⟩

theorem rejectPackets_says (p : Fin 8) (q : Nat) (ws : List (List Word)) (s : State) (hn : Numbered s) :
    let t := ws.foldl (rejectPacket p q) s
    RejectsOnly s t ∧ Numbered t ∧ s.launches ⊆ t.launches ∧ (∀ w ∈ ws, Recorded t p q w) ∧
      (∀ r, (t.queue r).packets = (s.queue r).packets ∧ (r ≠ q → t.queue r = s.queue r)) ∧
      ((∀ w ∈ ws, w.getD 4 0 = 0) → t.mem = s.mem) := by
  induction ws generalizing s with
  | nil => exact ⟨.refl s, hn, List.Subset.refl _, fun _ h => absurd h List.not_mem_nil, fun _ => ⟨rfl, fun _ => rfl⟩, fun _ => rfl⟩
  | cons w ws ih =>
    obtain ⟨ho, hn', hsub, hrec, hq, hm⟩ := rejectPacket_says p q w hn
    obtain ⟨ho', hn'', hsub', hrec', hq', hm'⟩ := ih (rejectPacket p q s w) hn'
    rw [List.foldl_cons]
    refine ⟨ho.trans ho', hn'', fun _ h => hsub' (hsub h), fun v hv => ?_, fun r => ?_, fun h0 => ?_⟩
    · rcases List.mem_cons.1 hv with rfl | hv
      · exact hrec.mono hsub'
      · exact hrec' v hv
    · exact ⟨(hq' r).1.trans (hq r).1, fun hr => ((hq' r).2 hr).trans ((hq r).2 hr)⟩
    · exact (hm' fun v hv => h0 v (List.mem_cons_of_mem _ hv)).trans (hm (h0 w (List.mem_cons_self ..)))

/-- A queue whose packets are rejected is empty of packets; the others are as before. -/
theorem rejectQueued_says (p : Fin 8) (q : Nat) (s : State) (hn : Numbered s) :
    let t := s.rejectQueued p q
    RejectsOnly s t ∧ Numbered t ∧ s.launches ⊆ t.launches ∧ (∀ w ∈ (s.queue q).packets, Recorded t p q w) ∧
      (∀ r, (t.queue r).packets = (if r = q then [] else (s.queue r).packets) ∧ (r ≠ q → t.queue r = s.queue r)) ∧
      ((∀ w ∈ (s.queue q).packets, w.getD 4 0 = 0) → t.mem = s.mem) := by
  set v : State := if (s.queue q).packets.isEmpty then s else s.setQueue q { s.queue q with packets := [] } with hv
  have heq : v = { s with queues := v.queues } := by rw [hv]; split <;> rfl
  have hvq (r : Nat) : (v.queue r).packets = (if r = q then [] else (s.queue r).packets) ∧ (r ≠ q → v.queue r = s.queue r) := by
    rw [hv]
    split_ifs with he hr hr
    · subst hr; exact ⟨List.isEmpty_iff.1 he, fun _ => rfl⟩
    · exact ⟨rfl, fun _ => rfl⟩
    · subst hr; rw [queue_setQueue, if_pos rfl]; exact ⟨rfl, fun h => absurd rfl h⟩
    · rw [queue_setQueue, if_neg hr]; exact ⟨rfl, fun _ => rfl⟩
  have hvn : Numbered v := by rw [heq]; exact hn
  have hvl : v.launches = s.launches := by rw [heq]
  have hvm : v.mem = s.mem := by rw [heq]
  obtain ⟨ho, hn', hsub, hrec, hq, hm⟩ := rejectPackets_says p q (s.queue q).packets v hvn
  refine ⟨.trans ⟨_, _, _, _, _, heq⟩ ho, hn', hvl ▸ hsub, hrec, fun r => ?_, fun h0 => (hm h0).trans hvm⟩
  exact ⟨(hq r).1.trans (hvq r).1, fun hr => ((hq r).2 hr).trans ((hvq r).2 hr)⟩

theorem rejectQueues_says (p : Fin 8) (qs : List Nat) (s : State) (hn : Numbered s) :
    let t := qs.foldl (fun s q => s.rejectQueued p q) s
    RejectsOnly s t ∧ s.launches ⊆ t.launches ∧ (∀ q ∈ qs, ∀ w ∈ (s.queue q).packets, Recorded t p q w) ∧
      (∀ r, (t.queue r).packets = (if r ∈ qs then [] else (s.queue r).packets) ∧ (r ∉ qs → t.queue r = s.queue r)) ∧
      ((∀ q ∈ qs, ∀ w ∈ (s.queue q).packets, w.getD 4 0 = 0) → t.mem = s.mem) := by
  induction qs generalizing s with
  | nil =>
    exact ⟨.refl s, List.Subset.refl _, fun _ h => absurd h List.not_mem_nil, fun _ => ⟨(if_neg List.not_mem_nil).symm, fun _ => rfl⟩,
      fun _ => rfl⟩
  | cons q qs ih =>
    obtain ⟨ho, hn', hsub, hrec, hq, hm⟩ := rejectQueued_says p q s hn
    obtain ⟨ho', hsub', hrec', hq', hm'⟩ := ih (s.rejectQueued p q) hn'
    have hcases (r : Nat) (w : List Word) (hw : w ∈ (s.queue r).packets) (hr : r ≠ q) : w ∈ ((s.rejectQueued p q).queue r).packets := by
      rwa [(hq r).2 hr]
    rw [List.foldl_cons]
    refine ⟨ho.trans ho', fun _ h => hsub' (hsub h), fun r hr w hw => ?_, fun r => ⟨?_, fun hr => ?_⟩, fun h0 => ?_⟩
    · by_cases hrq : r = q
      · subst hrq; exact (hrec w hw).mono hsub'
      · exact hrec' r ((List.mem_cons.1 hr).resolve_left hrq) w (hcases r w hw hrq)
    · rw [(hq' r).1, (hq r).1]
      by_cases hrq : r = q <;> by_cases hrs : r ∈ qs <;> simp [hrq, hrs]
    · obtain ⟨h1, h2⟩ := not_or.1 (List.mem_cons.not.1 hr)
      exact ((hq' r).2 h2).trans ((hq r).2 h1)
    · refine (hm' fun r hr w hw => ?_).trans (hm (h0 q (List.mem_cons_self ..)))
      rw [(hq r).1] at hw
      split_ifs at hw with hrq
      · cases hw
      · exact h0 r (List.mem_cons_of_mem _ hr) w hw

theorem withPart_eq (s : State) (q : Nat) (p : Fin 8) (w : List Word) : withPart w p = (Claim.launchFrom s q p w).words := by
  unfold withPart Claim.launchFrom setBitsAt
  have hp : p.val % 2 ^ 3 = p.val := Nat.mod_eq_of_lt p.isLt
  dsimp only
  rw [hp, Nat.shiftRight_eq_div_pow, Nat.shiftLeft_eq, Nat.shiftLeft_eq]

theorem partitionDisable_clause (s : State) (p : Fin 8) : let k := s.partOf p
    (k.en = false ∨ s.partBusy p = true → exec (.partitionDisable p) s = .next s) ∧
    (k.en = true → s.partBusy p = false → (s.launches.map Launch.id).Nodup → (∀ l ∈ s.launches, l.id < s.nextLaunch) →
      let owned (q : Nat) := k.first ≤ q ∧ q < k.first + k.count
      ∃ t, exec (.partitionDisable p) s = .next t ∧ t.partOf p = { k with en := false } ∧ (∀ o : Fin 8, o ≠ p → t.partOf o = s.partOf o) ∧
        (∀ l ∈ s.launches,
          (if l.part = p ∧ l.state = .waiting then { l with state := .rejected, status := 1 } else l) ∈ t.launches) ∧
        (∀ q, owned q → (t.queue q).packets = [] ∧ ∀ w ∈ (s.queue q).packets, ∃ l ∈ t.launches,
          l.queue = q ∧ l.words = (Claim.launchFrom s q p w).words ∧ l.part = p ∧ l.state = .rejected ∧ l.status = 1) ∧
        (∀ q, ¬ owned q → (∀ l ∈ s.launches, l.part = p → l.state = .waiting → l.queue ≠ q) → t.queue q = s.queue q) ∧
        ((∀ l ∈ s.launches, l.part = p → l.state = .waiting → l.word 4 = 0) →
          (∀ q, owned q → ∀ w ∈ (s.queue q).packets, w.getD 4 0 = 0) → t.mem = s.mem) ∧
        t = { s with mem := t.mem, poison := t.poison, launches := t.launches, queues := t.queues, parts := t.parts
                     nextLaunch := t.nextLaunch }) := by
  intro k
  refine ⟨fun h => congrArg _ (if_pos ?_), fun hen hbusy hdup hnum => ?_⟩
  · rcases h with h | h
    · simp [show (s.partOf p).en = false from h]
    · simp [h]
  set held := s.launches.filter fun l => l.part == p && l.state == .waiting with hheld
  have hin (l : Launch) : l ∈ held ↔ l ∈ s.launches ∧ l.part = p ∧ l.state = .waiting := by simp [hheld]
  obtain ⟨ho, hnext, hl, hq, hm⟩ := rejectLaunches_says held s
  set v := held.foldl (fun s l => s.rejectLaunch l) s with hv
  have hone (l m : Launch) (h1 : l ∈ s.launches) (h2 : m ∈ s.launches) (h : l.id = m.id) : l = m :=
    List.inj_on_of_nodup_map hdup h1 h2 h
  have himage (l : Launch) (h : l ∈ s.launches) :
      held.foldl (fun x l => if x.id = l.id then rejected l else x) l = if l ∈ held then rejected l else l :=
    rejections_of held (fun m hm he => hone m l ((hin m).1 hm).1 h he) l rfl
  have hvn : Numbered v := by
    intro l hlv
    rw [hl] at hlv
    obtain ⟨j, hj, rfl⟩ := List.mem_map.1 hlv
    rw [himage j hj, hnext]
    split_ifs <;> exact hnum j hj
  obtain ⟨ho', hsub, hrec, hq', hm'⟩ := rejectQueues_says p k.queues v hvn
  set w := k.queues.foldl (fun s q => s.rejectQueued p q) v with hw
  obtain ⟨mem, poison, launches, queues, nextLaunch, hall⟩ := ho.trans ho'
  have hpart (o : Fin 8) : w.partOf o = s.partOf o := by rw [hall]; rfl
  refine ⟨w.setPart p { w.partOf p with en := false }, congrArg _ (if_neg ?_), ?_, fun o hne => ?_, fun l hls => ?_, fun q hq0 => ?_,
    fun q hq0 hne => ?_, fun h1 h2 => ?_, ?_⟩
  · simp [show (s.partOf p).en = true from hen, hbusy]
  · rw [partOf_setPart, if_pos rfl, hpart]
  · rw [partOf_setPart, if_neg hne, hpart]
  · refine hsub ?_
    rw [hl]
    refine List.mem_map.2 ⟨l, hls, (himage l hls).trans ?_⟩
    simp only [hin, hls, true_and]
    rfl
  · have hmem : q ∈ k.queues := (mem_queues k q).2 hq0
    refine ⟨(hq' q).1.trans (if_pos hmem), fun x hx => ?_⟩
    rw [← withPart_eq]
    exact hrec q hmem x (by rwa [(hq q).1])
  · refine ((hq' q).2 fun h => hq0 ((mem_queues k q).1 h)).trans ((hq q).2 fun l hlh => ?_)
    obtain ⟨h1, h2, h3⟩ := (hin l).1 hlh
    exact hne l h1 h2 h3
  · refine (hm' fun q hqs x hx => ?_).trans (hm fun l hlh => ?_)
    · rw [(hq q).1] at hx
      exact h2 q ((mem_queues k q).1 hqs) x hx
    · obtain ⟨h3, h4, h5⟩ := (hin l).1 hlh
      exact h1 l h3 h4 h5
  · rw [hall]; rfl

theorem partitionSwitches : Claim.PartitionSwitches := by
  intro s p
  obtain ⟨h1, h2⟩ := partitionDisable_clause s p
  exact ⟨partitionEnable_clause s p, h1, h2⟩

end Sys2Proof.Laws
end

section
/-! Rack messages and residency reports (19 R329, R330). -/

namespace Sys2Proof.Laws

set_option Elab.async false

open Sys2Proof Sys2Proof.Machine

variable {s : State}

/-! ### Packets as words (R5, R311) -/

theorem ofBytes_take (n : Nat) (l : List Byte) :
    ofBytes (l.take n) = (List.range n).foldr (fun i v => (l.getD i 0).toNat + 256 * v) 0 := by
  induction n generalizing l with
  | zero => rfl
  | succ n ih =>
    rw [List.range_succ_eq_map, List.foldr_cons, List.foldr_map]
    cases l with
    | nil =>
      have h0 := ih []
      rw [List.take_nil] at h0 ⊢
      simp only [List.getD_nil] at h0 ⊢
      rw [← h0]
      rfl
    | cons b l =>
      rw [List.take_succ_cons, ofBytes, ih]
      rfl

/-- A packet's bytes are its eight words. -/
theorem packetWords_eq (data : List Byte) : packetWords data = Claim.wordsOf data := by
  unfold packetWords Claim.wordsOf
  refine List.map_congr_left fun k _ => ?_
  rw [ofBytes_take]
  simp only [List.getD_eq_getElem?_getD, List.getElem?_drop]

/-- A packet offered to a queue (R311). -/
theorem enqueue_says (s : State) (q : Nat) (ws : List Word) :
    s.enqueue q ws = { s with queues := (s.enqueue q ws).queues } ∧ Claim.offered s (s.enqueue q ws) q ws ∧
      Claim.onlyQueue s (s.enqueue q ws) q := by
  unfold State.enqueue Claim.offered Claim.onlyQueue
  dsimp only
  split
  · next h =>
    exact ⟨rfl, ⟨fun _ => (queue_setQueue ..).trans (if_pos rfl), fun h' => by omega⟩, fun r hr => (queue_setQueue ..).trans (if_neg hr)⟩
  · next h =>
    exact ⟨rfl, ⟨fun h' => absurd h' h, fun _ => (queue_setQueue ..).trans (if_pos rfl)⟩,
      fun r hr => (queue_setQueue ..).trans (if_neg hr)⟩

/-! ### Launch requests (R329) -/

/-- The first word of a launch request's body: kind 1, and no other bit. -/
theorem ofBytes_one (l : List Byte) (h : l.length = 4) : ofBytes l = 1 ↔ l = [1, 0, 0, 0] := by
  obtain ⟨a, b, c, d, rfl⟩ := List.length_eq_four.1 h
  simp only [ofBytes, List.cons.injEq, and_true]
  constructor
  · intro h
    have := a.isLt; have := b.isLt; have := c.isLt; have := d.isLt
    refine ⟨?_, ?_, ?_, ?_⟩ <;> refine BitVec.eq_of_toNat_eq ?_ <;> simp <;> omega
  · rintro ⟨rfl, rfl, rfl, rfl⟩
    rfl

theorem rackRequestOk_iff (queue : BitVec 16) (rest : List Byte) :
    rackRequestOk queue rest = true ↔ rest.length = 68 ∧ queue.toNat / 2 ^ 10 = 0 ∧ rest.take 4 = [1, 0, 0, 0] := by
  unfold rackRequestOk bitsAt
  have hq := queue.isLt
  rw [Bool.and_eq_true, Bool.and_eq_true, beq_iff_eq, beq_iff_eq, beq_iff_eq, Nat.shiftRight_eq_div_pow, and_assoc]
  refine and_congr_right fun hl => and_congr ⟨fun h => by omega, fun h => by omega⟩ (ofBytes_one _ ?_)
  rw [List.length_take]
  omega

theorem rackFrom_iff (s : State) (source : Word) (p : Fin 8) : s.rackFrom source p = true ↔ Claim.rackAccepts s source p := by
  unfold State.rackFrom State.rackUp Claim.rackAccepts
  simp only [Bool.and_eq_true, Bool.or_eq_true, Bool.not_eq_true', beq_iff_eq]
  tauto

theorem rackFrom_false (s : State) (source : Word) (p : Fin 8) : s.rackFrom source p = false ↔ ¬ Claim.rackAccepts s source p := by
  rw [← rackFrom_iff, Bool.not_eq_true]

theorem rackLaunchRequest_clause (s : State) (source : Word) (queue request : BitVec 16) (rest : List Byte) :
    let q := queue.toNat % 2 ^ 10
    let req := request.toNat
    let formed := rest.length = 68 ∧ queue.toNat / 2 ^ 10 = 0 ∧ rest.take 4 = [1, 0, 0, 0]
    let i := Instr.rackLaunchRequest source queue request rest
    (∀ p, s.queueOwner q = some p →
      (Claim.rackAccepts s source p → s.service.ready.getLsbD 0 = true →
        (¬ formed → exec i s = .next (Claim.rackAnswered s source req 3)) ∧
        (formed → ∃ u, exec i s = .next (Claim.rackAnswered u source req (if 64 ≤ (s.queue q).used then 1 else 0)) ∧
          u = { s with queues := u.queues } ∧ Claim.offered s u q (Claim.wordsOf (rest.drop 4)) ∧ Claim.onlyQueue s u q)) ∧
      (¬ Claim.rackAccepts s source p ∨ s.service.ready.getLsbD 0 = false → exec i s = .next s)) ∧
    (s.queueOwner q = none →
      let known := s.service.ready.getLsbD 0 = true ∧ ∃ p : Fin 8, (s.partOf p).en = true ∧ Claim.rackAccepts s source p
      (known → exec i s = .next (Claim.rackAnswered s source req 2)) ∧ (¬ known → exec i s = .next s)) := by
  intro q req formed i
  have hq : bitsAt queue.toNat 0 10 = q := rfl
  have hformed : rackRequestOk queue rest = true ↔ formed := rackRequestOk_iff queue rest
  have hexec : exec i s = execRackLaunchRequest source queue request rest s := rfl
  unfold execRackLaunchRequest at hexec
  simp only [hq] at hexec
  refine ⟨fun p hp => ?_, fun hp => ?_⟩
  · rw [hp] at hexec
    refine ⟨fun ha hr => ⟨fun hf => ?_, fun hf => ?_⟩, fun h => ?_⟩
    · refine hexec.trans ((if_pos (by rw [(rackFrom_iff ..).2 ha, hr]; rfl)).trans (if_pos ?_))
      rw [Bool.eq_false_iff.2 fun h => hf (hformed.1 h)]
      rfl
    · obtain ⟨h1, h2, h3⟩ := enqueue_says s q (packetWords (rest.drop 4))
      rw [packetWords_eq] at h1 h2 h3 hexec
      refine ⟨_, hexec.trans ((if_pos (by rw [(rackFrom_iff ..).2 ha, hr]; rfl)).trans ((if_neg (by rw [hformed.2 hf]; decide)).trans ?_)),
        h1, h2, h3⟩
      split_ifs with hfull <;> simp only [hfull] <;> rfl
    · refine hexec.trans (if_neg ?_)
      rcases h with h | h
      · rw [(rackFrom_false ..).2 h]; simp
      · simp only [h]; simp
  · rw [hp] at hexec
    have hknown : (s.service.ready.getLsbD 0 && (List.finRange 8).any fun p => (s.partOf p).en && s.rackFrom source p) = true ↔
        s.service.ready.getLsbD 0 = true ∧ ∃ p : Fin 8, (s.partOf p).en = true ∧ Claim.rackAccepts s source p := by
      simp [rackFrom_iff]
    exact ⟨fun h => hexec.trans (congrArg _ (if_pos (hknown.2 h))), fun h => hexec.trans (congrArg _ (if_neg fun h' => h (hknown.1 h')))⟩

/-! ### Residency reports (R330) -/

theorem residencyWords_length (s : State) (p : Fin 8) : (s.residencyWords p).length = 17 := by
  unfold State.residencyWords State.residencyCounts
  simp only [List.length_cons, List.length_map, List.length_append, List.length_range, List.length_nil]

theorem rackMessages : Claim.RackMessages := by
  intro s source
  refine ⟨fun queue request rest => rackLaunchRequest_clause s source queue request rest, fun p => ?_⟩
  intro ws sent up
  have hreport : s.report p = sent := rfl
  have hup : (s.rackUp && !s.silent) = true ↔ up := by
    unfold State.rackUp
    simp only [Bool.and_eq_true, Bool.or_eq_true, Bool.not_eq_true']
    exact and_comm
  have hreq : ((s.partOf p).en && s.rackFrom source p) = true ↔ (s.partOf p).en = true ∧ Claim.rackAccepts s source p := by
    rw [Bool.and_eq_true, rackFrom_iff]
  have hint : ((s.partOf p).en && s.rackUp && !s.silent && (s.scheds[p.val]).rptint != 0) = true ↔
      (s.partOf p).en = true ∧ up ∧ (s.scheds[p.val]).rptint ≠ 0 := by
    rw [Bool.and_assoc (s.partOf p).en, Bool.and_eq_true, Bool.and_eq_true, hup, and_assoc, bne_iff_ne]
  refine ⟨residencyWords_length s p, rfl, fun h1 h2 => congrArg _ (if_pos (hreq.2 ⟨h1, h2⟩)), fun h => congrArg _ (if_neg fun hc => ?_),
    fun h1 h2 h3 => congrArg _ (if_pos (hint.2 ⟨h1, h2, h3⟩)), fun h => congrArg _ (if_neg fun hc => ?_)⟩
  · obtain ⟨h1, h2⟩ := hreq.1 hc
    rcases h with h | h
    · rw [h1] at h; cases h
    · exact h h2
  · obtain ⟨h1, h2, h3⟩ := hint.1 hc
    rcases h with h | h | h
    · rw [h1] at h; cases h
    · exact h h2
    · exact h3 h

end Sys2Proof.Laws
end

section
/-! Placement of a launch's harts (19 R321, 01 R23, 02 R46, R52), and the obligation on the schedulers. -/

namespace Sys2Proof.Laws

set_option Elab.async false

open Sys2Proof Sys2Proof.Machine

variable {s t u : State} {l : Launch}

/-! ### Save slots and places -/

/-- No more places than were asked for. -/
theorem placeMany_length (s : State) (cores : List Nat) (home g pieces n : Nat) (hs : List Hold) :
    (s.placeMany cores home g pieces n hs).length ≤ n := by
  induction n generalizing hs with
  | zero => exact le_rfl
  | succ n ih =>
    rw [State.placeMany]
    split
    · exact Nat.zero_le _
    · exact Nat.succ_le_succ (ih _)

/-- A placement's plan has no more places than save slots are free (R350). -/
theorem plan_length {home grant : Nat} {at' : List Hold} (h : s.plan l = some (.place home grant at')) :
    at'.length ≤ (s.freeSaveSlots l.part).length := by
  unfold State.plan State.planFor at h
  split at h
  · cases h
  · split at h
    · obtain ⟨x, hx, he⟩ := Option.map_eq_some_iff.1 h
      unfold State.planLaunch at hx
      dsimp only at hx
      split at hx
      · cases hx
      · obtain ⟨g, -, hg⟩ := List.exists_of_findSome?_eq_some hx
        obtain ⟨-, hx⟩ := Option.ite_none_right_eq_some.1 hg
        cases hx
        cases he
        exact (placeMany_length ..).trans (Nat.min_le_right ..)
    · cases h

theorem living_iff (h : Hart) : h.living = true ↔ Claim.alive h := by
  unfold Hart.living Claim.alive
  rw [Bool.or_eq_true, Bool.or_eq_true, beq_iff_eq, beq_iff_eq, beq_iff_eq, or_assoc]

theorem mem_freeSaveSlots (s : State) (p : Fin 8) (n : Nat) : n ∈ s.freeSaveSlots p ↔
    n < 2048 ∧ ∀ j ∈ s.harts, j.place.part = p → Claim.alive j → j.place.saveslot ≠ n := by
  unfold State.freeSaveSlots
  rw [List.mem_filter, List.mem_range, Bool.not_eq_true', ← Bool.not_eq_true, List.contains_iff_mem, List.mem_map]
  refine and_congr_right fun _ => ⟨fun h j hj hp ha he => h ⟨j, List.mem_filter.2 ⟨hj, ?_⟩, he⟩, ?_⟩
  · rw [Bool.and_eq_true, beq_iff_eq, living_iff]
    exact ⟨hp, ha⟩
  · rintro h ⟨j, hj, he⟩
    obtain ⟨hj, hpa⟩ := List.mem_filter.1 hj
    rw [Bool.and_eq_true, beq_iff_eq, living_iff] at hpa
    exact h j hj hpa.1 hpa.2 he

theorem freeSaveSlots_sorted (s : State) (p : Fin 8) : (s.freeSaveSlots p).Pairwise (· < ·) :=
  List.pairwise_lt_range.filter _

/-- One hart more takes one save slot at most. -/
theorem freeSaveSlots_taken {p : Fin 8} {n : Hart} {x : Nat} {xs : List Nat} (hx : s.freeSaveSlots p = x :: xs)
    (hn : n.place.saveslot = x) (ht : ∀ j ∈ t.harts, j = n ∨ j ∈ s.harts) : xs.length ≤ (t.freeSaveSlots p).length := by
  have hsort := freeSaveSlots_sorted s p
  rw [hx, List.pairwise_cons] at hsort
  have hsub : xs ⊆ t.freeSaveSlots p := fun y hy => by
    have hys : y ∈ s.freeSaveSlots p := hx ▸ List.mem_cons_of_mem _ hy
    obtain ⟨hlt, hfree⟩ := (mem_freeSaveSlots s p y).1 hys
    refine (mem_freeSaveSlots t p y).2 ⟨hlt, fun j hj hp ha => ?_⟩
    rcases ht j hj with rfl | hj
    · exact hn ▸ (hsort.1 y hy).ne
    · exact hfree j hj hp ha
  exact (List.subperm_of_subset (hsort.2.imp fun h => h.ne) hsub).length_le

/-! ### Pieces zeroed (R24, R52) -/

theorem read_zeroPieces (m : List Host.Cell) (core : Nat) (ps : List Nat) (a : Nat) :
    ((∃ c ∈ ps, core * 0x200000 + c * 65536 ≤ a ∧ a < core * 0x200000 + c * 65536 + 65536) →
      Memory.read (Machine.zeroPieces m core ps) a = 0) ∧
    (Memory.read m a = 0 → Memory.read (Machine.zeroPieces m core ps) a = 0) := by
  unfold Machine.zeroPieces
  induction ps generalizing m with
  | nil => exact ⟨fun ⟨_, h, _⟩ => absurd h List.not_mem_nil, id⟩
  | cons c ps ih =>
    obtain ⟨h1, h2⟩ := ih (Memory.zero m (core * Config.spadBytes + c * 65536) 65536)
    rw [List.foldl_cons]
    refine ⟨?_, fun h => h2 ?_⟩
    · rintro ⟨d, hd, hle, hlt⟩
      rcases List.mem_cons.1 hd with rfl | hd
      · exact h2 ((read_zero ..).trans (if_pos ⟨hle, hlt⟩))
      · exact h1 ⟨d, hd, hle, hlt⟩
    · rw [read_zero, h, ite_self]

/-! ### One hart placed -/

theorem writeBack_clean {k : RLine} (h : k.dirty = []) (s : State) : s.writeBack k = s := if_pos (by simp [h])

/-- A core with nothing to send only drops lines. -/
theorem freshCore_clean (h : ∀ k ∈ s.rcache, k.dirty = []) (core hid : Nat) :
    ∃ rcache, (∀ k ∈ rcache, k.dirty = []) ∧ s.freshCore core hid = { s with rcache := rcache } := by
  have key (L : List RLine) (hL : ∀ k ∈ L, k.dirty = []) : L.foldl State.writeBack s = s := by
    induction L with
    | nil => rfl
    | cons k L ih =>
      rw [List.foldl_cons, writeBack_clean (hL k (List.mem_cons_self ..)), ih fun j hj => hL j (List.mem_cons_of_mem _ hj)]
  unfold State.freshCore State.writeBackAll
  dsimp only
  rw [key _ fun k hk => h k (List.mem_filter.1 hk).1]
  exact ⟨_, fun k hk => h k (List.mem_filter.1 hk).1, rfl⟩

/-- What placing harts may change: harts are kept, and bytes that are zero stay so. -/
structure Placed (s t : State) : Prop where
  only : ∃ hart parked spad spadPoison rcache nextHart, t = { s with
    hart := hart, parked := parked, spad := spad, spadPoison := spadPoison, rcache := rcache, nextHart := nextHart }
  kept : ∀ k ∈ s.harts, k.phase ≠ .empty → k ∈ t.harts
  clean : ∀ k ∈ t.rcache, k.dirty = []
  zero : ∀ a, Memory.read s.spad a = 0 → Memory.read t.spad a = 0

theorem Placed.refl (h : ∀ k ∈ s.rcache, k.dirty = []) : Placed s s :=
  ⟨⟨_, _, _, _, _, _, rfl⟩, fun _ h _ => h, h, fun _ h => h⟩

theorem Placed.trans (h : Placed s t) (k : Placed t u) : Placed s u := by
  refine ⟨?_, fun j hj hp => k.kept j (h.kept j hj hp) hp, k.clean, fun a ha => k.zero a (h.zero a ha)⟩
  obtain ⟨_, _, _, _, _, _, rfl⟩ := h.only
  obtain ⟨_, _, _, _, _, _, rfl⟩ := k.only
  exact ⟨_, _, _, _, _, _, rfl⟩

theorem Placed.partOf (h : Placed s t) (p : Fin 8) : t.partOf p = s.partOf p := by
  obtain ⟨_, _, _, _, _, _, rfl⟩ := h.only
  rfl

/-- A hart that is fresh after others were placed was fresh before. -/
theorem Placed.freshHart (h : Placed s t) {q : Hold} {i : Nat} {k : Hart} (hk : Claim.freshHart t l q i k) :
    Claim.freshHart s l q i k := by
  unfold Claim.freshHart at hk ⊢
  rw [h.partOf] at hk
  obtain ⟨a, b, c, d, e, f, g, i, j, m, hslot, n⟩ := hk
  refine ⟨a, b, c, d, e, f, g, i, j, m, fun y hy hp ha => hslot y (h.kept y hy fun h0 => ?_) hp ha, n⟩
  rw [Claim.alive, h0] at ha
  rcases ha with ha | ha | ha <;> cases ha

/-- The x registers of a hart as it is placed. -/
theorem newHart_x (l : Launch) (k : Partition) (q : Hold) (hid index slot r : Nat) (hr : r < 32) :
    (newHart l k q hid index slot).x[r] = if r = 1 then 0x7FFFFFFFFFFF0 else if r = 3 then BitVec.ofNat 64 index
      else if r = 4 then BitVec.ofNat 64 l.harts
      else if 10 ≤ r ∧ r < 18 then ((List.range 8).map fun i => l.args.getD i 0).getD (r - 10) 0 else 0 :=
  Vector.getElem_ofFn _

/-- The hart that a placement makes, on a free save slot. -/
theorem newHart_fresh {q : Hold} {hid index slot : Nat} (hs : slot ∈ s.freeSaveSlots l.part) :
    Claim.freshHart s l q index (newHart l (s.partOf l.part) q hid index slot) := by
  obtain ⟨-, hfree⟩ := (mem_freeSaveSlots s l.part slot).1 hs
  refine ⟨rfl, rfl, rfl, rfl, rfl, rfl, rfl, rfl, rfl, rfl, hfree, rfl, ?_, ?_, ?_, fun i => ?_, fun r h1 h3 h4 h => ?_, rfl⟩
  · rw [newHart_x, if_pos rfl]
  · rw [newHart_x, if_neg (by decide), if_pos rfl]
  · rw [newHart_x, if_neg (by decide), if_neg (by decide), if_pos rfl]
  · rw [newHart_x, if_neg (by omega), if_neg (by omega), if_neg (by omega), if_pos (by omega), Nat.add_sub_cancel_left]
    simp [List.getD_eq_getElem?_getD]
  · have e1 : r.val ≠ 1 := fun e => h1 (Fin.ext e)
    have e3 : r.val ≠ 3 := fun e => h3 (Fin.ext e)
    have e4 : r.val ≠ 4 := fun e => h4 (Fin.ext e)
    rw [newHart_x, if_neg e1, if_neg e3, if_neg e4, if_neg h]

theorem harts_addHart (s : State) (k : Hart) :
    (∀ j ∈ (s.addHart k).harts, j = k ∨ j ∈ s.harts) ∧ k ∈ (s.addHart k).harts ∧
      ∀ j ∈ s.harts, j.phase ≠ .empty → j ∈ (s.addHart k).harts := by
  unfold State.addHart State.harts
  split
  · next h =>
    simp only [List.mem_cons]
    refine ⟨fun j hj => by tauto, by tauto, fun j hj hp => ?_⟩
    rcases hj with rfl | hj
    · exact absurd h hp
    · exact .inr hj
  · simp only [List.mem_cons, List.mem_append, List.not_mem_nil, or_false]
    exact ⟨fun j hj => by tauto, by tauto, fun j hj _ => by tauto⟩

/-- One hart placed. -/
theorem startHart_says (hc : ∀ k ∈ s.rcache, k.dirty = []) (q : Hold) (index : Nat) {x : Nat} {xs : List Nat}
    (hx : s.freeSaveSlots l.part = x :: xs) :
    Placed s (s.startHart l q index) ∧ (s.startHart l q index).nextHart = s.nextHart + 1 ∧
      xs.length ≤ ((s.startHart l q index).freeSaveSlots l.part).length ∧
      (∃ k ∈ (s.startHart l q index).harts, Claim.freshHart s l q index k ∧ k.place.hid = s.nextHart) ∧
      ∀ c ∈ q.pieces, ∀ b < 65536, Memory.read (s.startHart l q index).spad (q.core * 0x200000 + c * 65536 + b) = 0 := by
  obtain ⟨rc, hclean, hcore⟩ := freshCore_clean hc q.core s.nextHart
  have hfresh := newHart_fresh (s := s) (l := l) (q := q) (hid := s.nextHart) (index := index) (hx ▸ List.mem_cons_self ..)
  set k := newHart l (s.partOf l.part) q s.nextHart index x with hk
  set v : State := { s with rcache := rc, nextHart := s.nextHart + 1 }.zeroPieces q.core q.pieces with hv
  have hstart : s.startHart l q index = v.addHart k := by
    unfold State.startHart
    rw [hcore]
    show v.addHart (newHart l (s.partOf l.part) q s.nextHart index ((s.freeSaveSlots l.part).headD 0)) = _
    rw [hx]
    rfl
  obtain ⟨hin, hself, hkept⟩ := harts_addHart v k
  have hadd : v.addHart k = { v with hart := (v.addHart k).hart, parked := (v.addHart k).parked } := by
    unfold State.addHart; split <;> rfl
  have hspad : (v.addHart k).spad = Machine.zeroPieces s.spad q.core q.pieces := by rw [hadd]; rfl
  rw [hstart]
  refine ⟨⟨⟨_, _, _, _, _, _, hadd⟩, hkept, ?_, fun a ha => ?_⟩, ?_, ?_, ⟨k, hself, hfresh, rfl⟩, fun c hc b hb => ?_⟩
  · rw [hadd]; exact hclean
  · rw [hspad]; exact (read_zeroPieces ..).2 ha
  · rw [hadd]; rfl
  · exact freeSaveSlots_taken hx rfl hin
  · rw [hspad]; exact (read_zeroPieces ..).1 ⟨c, hc, by omega, by omega⟩

/-! ### All harts of a placement -/

theorem startHarts_says (hs : List Hold) (n : Nat) (s : State) (hc : ∀ k ∈ s.rcache, k.dirty = [])
    (hlen : hs.length ≤ (s.freeSaveSlots l.part).length) :
    let t := (hs.zipIdx n).foldl (fun s (q, i) => s.startHart l q (l.placed + i)) s
    Placed s t ∧ t.nextHart = s.nextHart + hs.length ∧ ∀ (i : Nat) (q : Hold), hs[i]? = some q →
      (∃ k ∈ t.harts, Claim.freshHart s l q (l.placed + (n + i)) k ∧ k.place.hid = s.nextHart + i) ∧
      ∀ c ∈ q.pieces, ∀ b < 65536, Memory.read t.spad (q.core * 0x200000 + c * 65536 + b) = 0 := by
  induction hs generalizing n s with
  | nil => exact ⟨.refl hc, rfl, fun i q h => by cases h⟩
  | cons q hs ih =>
    obtain ⟨x, xs, hx⟩ : ∃ x xs, s.freeSaveSlots l.part = x :: xs :=
      List.exists_cons_of_length_pos (lt_of_lt_of_le (Nat.succ_pos _) hlen)
    obtain ⟨hp, hnext, hslots, ⟨k, hk, hfresh, hhid⟩, hz⟩ := startHart_says hc q (l.placed + n) hx
    rw [List.zipIdx_cons, List.foldl_cons]
    obtain ⟨hp', hnext', hall⟩ := ih (n + 1) (s.startHart l q (l.placed + n)) hp.clean (by
      rw [hx] at hlen
      exact (Nat.le_of_succ_le_succ hlen).trans hslots)
    refine ⟨hp.trans hp', by rw [hnext', hnext, List.length_cons]; omega, fun i h hi => ?_⟩
    cases i with
    | zero =>
      cases hi
      have hne : k.phase ≠ .empty := by
        obtain ⟨-, -, -, -, -, -, -, -, -, -, -, -, -, -, -, -, -, he⟩ := hfresh
        rw [he]; exact Phase.noConfusion
      exact ⟨⟨k, hp'.kept k hk hne, hfresh, hhid⟩, fun c hc b hb => hp'.zero _ (hz c hc b hb)⟩
    | succ i =>
      obtain ⟨⟨j, hj, hjf, hjh⟩, hjz⟩ := hall i h hi
      rw [show n + 1 + i = n + (i + 1) by omega] at hjf
      exact ⟨⟨j, hj, hp.freshHart hjf, by rw [hjh, hnext]; omega⟩, hjz⟩

/-- A launch's next harts placed: the harts, the launch and its queue (R314, R321). -/
theorem startLaunch_says {home grant : Nat} {at' : List Hold} {prio : Nat} (hc : ∀ k ∈ s.rcache, k.dirty = [])
    (hl : s.launchOf l.id = some l) (hlen : at'.length ≤ (s.freeSaveSlots l.part).length) :
    let t := s.startLaunch l home grant at' prio
    t.launchOf l.id = some { l with state := .running, placed := l.placed + at'.length, grant := grant, home := home, prio := prio
                                    order := s.nextOrder, counter := true } ∧
      (∀ n, n ≠ l.id → t.launchOf n = s.launchOf n) ∧ ((s.queue l.queue).head = some l.id → (t.queue l.queue).head = none) ∧
      Claim.onlyQueue s t l.queue ∧ t.nextHart = s.nextHart + at'.length ∧ t.mem = s.mem ∧
      (∀ (i : Nat) (h : Hold), at'[i]? = some h →
        (∃ k ∈ t.hart :: t.parked, Claim.freshHart s l h (l.placed + i) k ∧ k.place.hid = s.nextHart + i) ∧
        ∀ c ∈ h.pieces, ∀ b < 65536, Memory.read t.spad (h.core * 0x200000 + c * 65536 + b) = 0) ∧
      (∀ k ∈ s.hart :: s.parked, k.phase ≠ .empty → k ∈ t.hart :: t.parked) := by
  obtain ⟨hp, hnext, hall⟩ := startHarts_says at' 0 s hc hlen
  unfold State.startLaunch
  dsimp only at hp hnext hall ⊢
  set v := (at'.zipIdx 0).foldl (fun s (q, i) => s.startHart l q (l.placed + i)) s with hv
  clear_value v
  set w : State := if (v.queue l.queue).head = some l.id then v.setQueue l.queue { v.queue l.queue with head := none } else v with hw
  have hwv : w = { v with queues := w.queues } := by rw [hw]; split <;> rfl
  obtain ⟨hart, parked, spad, spadPoison, rcache, nextHart, hvs⟩ := hp.only
  have hvq (r : Nat) : v.queue r = s.queue r := by rw [hvs]; rfl
  have hwq (r : Nat) : (r ≠ l.queue → w.queue r = s.queue r) ∧
      ((s.queue l.queue).head = some l.id → (w.queue l.queue).head = none) := by
    rw [hw, hvq]
    split_ifs with h
    · exact ⟨fun hr => ((queue_setQueue ..).trans (if_neg hr)).trans (hvq r), fun _ => by rw [queue_setQueue, if_pos rfl]⟩
    · exact ⟨fun _ => hvq r, fun h' => absurd h' h⟩
  have hws : w.launches = s.launches := by rw [hwv, hvs]
  have hwo : w.nextOrder = s.nextOrder := by rw [hwv, hvs]
  have hlw (n : Nat) : ({ w with nextOrder := w.nextOrder + 1 } : State).launchOf n = s.launchOf n :=
    congrArg (List.find? fun l : Launch => l.id == n) hws
  refine ⟨?_, fun n hn => (launchOf_putLaunch_other (by exact hn)).trans (hlw n), (hwq 0).2, fun r hr => (hwq r).1 hr, ?_, ?_, fun i h hi => ?_,
    fun k hk hne => ?_⟩
  · rw [launchOf_putLaunch ((hlw _).trans hl), if_pos rfl]
    simp only [Nat.add_sub_cancel, hwo]
  · rw [putLaunch_nextHart, ← hnext, hwv]
  · rw [putLaunch_mem, hwv, hvs]
  · obtain ⟨⟨k, hk, hf, hh⟩, hz⟩ := hall i h hi
    rw [Nat.zero_add] at hf
    rw [putLaunch_spad, hwv]
    refine ⟨⟨k, ?_, hf, hh⟩, hz⟩
    rw [putLaunch_hart, putLaunch_parked]
    exact hk
  · rw [putLaunch_hart, putLaunch_parked, hwv]
    exact hp.kept k hk hne

/-! ### The obligation -/

/-- What a scheduler may change before it places: the clock, deficits and the reserved launch. -/
def Weighed (s t : State) : Prop := ∃ time queues freeCtr parts, t = { s with
  time := time, queues := queues, freeCtr := freeCtr, parts := parts }

theorem Weighed.trans (h : Weighed s t) (k : Weighed t u) : Weighed s u := by
  obtain ⟨_, _, _, _, rfl⟩ := h
  obtain ⟨_, _, _, _, rfl⟩ := k
  exact ⟨_, _, _, _, rfl⟩

theorem weighed_foldl {α : Type} (f : State → α → State) (hf : ∀ s a, Weighed s (f s a)) (l : List α) (s : State) :
    Weighed s (l.foldl f s) := by
  induction l generalizing s with
  | nil => exact ⟨_, _, _, _, rfl⟩
  | cons a l ih => exact (hf s a).trans (ih _)

theorem weighed_topUp (s : State) (p : Fin 8) : Weighed s (s.topUp p) := by
  unfold State.topUp
  split
  · exact ⟨_, _, _, _, rfl⟩
  · dsimp only
    split
    · exact ⟨_, _, _, _, rfl⟩
    · exact weighed_foldl _ (fun _ _ => ⟨_, _, _, _, rfl⟩) _ s

/-- Giving up a reserved launch changes its partition's register only. -/
theorem dropReserved_only (s : State) (p : Fin 8) : s.dropReserved p = { s with parts := (s.dropReserved p).parts } := by
  unfold State.dropReserved
  split
  · split
    · split <;> rfl
    · rfl
  · rfl

theorem weighed_reserveLaunch (s : State) (p : Fin 8) : Weighed s (s.reserveLaunch p) := by
  unfold State.reserveLaunch
  split
  · exact ⟨_, _, _, _, rfl⟩
  · dsimp only
    split
    · exact ⟨_, _, _, _, rfl⟩
    · split <;> exact ⟨_, _, _, _, rfl⟩

theorem placement : Claim.Placement := by
  intro s p
  refine ⟨fun h => if_neg ?_, fun hen hst => ?_⟩
  · unfold State.mayPlace
    rcases h with h | h
    · simp [h]
    · simp; omega
  intro u l rest home grant at' hcand hl hplan hclean
  have hmay : s.mayPlace p = true := by unfold State.mayPlace; simp [hen, hst]
  have hexec : exec (.schedulePlacement p) s = .next ((u.startLaunch l home grant at' (u.eff l)).dropReserved p) := by
    refine (if_pos hmay).trans ?_
    show Host.Outcome.next ((u.choose p false (u.candidates p)).dropReserved p) = _
    rw [hcand, State.choose, hplan]
  have hu : Weighed s u :=
    ((Weighed.trans ⟨_, _, _, _, rfl⟩ (weighed_topUp s.tick p)).trans ⟨_, _, _, _, dropReserved_only _ p⟩).trans
      (weighed_reserveLaunch _ p)
  clear_value u
  obtain ⟨h1, h2, h3, h4, h5, h6, h7, h8⟩ := startLaunch_says (home := home) (grant := grant) (prio := u.eff l) hclean hl (plan_length hplan)
  obtain ⟨_, _, _, _, rfl⟩ := hu
  rw [dropReserved_only] at hexec
  exact ⟨_, _, hexec, h1, rfl, h2, h3, h4, h5, h6, h7, h8⟩

/-- Settles O49, by its three parts: placement, rack messages, and the switches of a partition. -/
theorem scheduling : Obligations.Scheduling := ⟨placement, rackMessages, partitionSwitches⟩

end Sys2Proof.Laws
end

section
/-! Exact accumulators: the sums of `xa.addv` and `xa.dot`, and clearing (03 R72, 09 R196). -/

namespace Sys2Proof.Laws

set_option Elab.async false

open Sys2Proof Sys2Proof.Machine Sys2Proof.Claim

/-! ### Terms added to an accumulator -/

/-- A value wrapped to w bits differs from it by a multiple of 2^w and lies in the range of two's complement. -/
theorem toSigned_ofInt {w p : Nat} (hw : w = p + 1) (i : Int) :
    (∃ q : Int, toSigned w (ofInt w i) = i + q * 2 ^ w) ∧ -2 ^ p ≤ toSigned w (ofInt w i) ∧ toSigned w (ofInt w i) < 2 ^ p := by
  have hp : w - 1 = p := by omega
  have hpos : (0 : Int) < 2 ^ w := by positivity
  have hlo := Int.emod_nonneg i hpos.ne'
  have hhi := Int.emod_lt_of_pos i hpos
  have hsplit := Int.emod_add_mul_ediv i (2 ^ w)
  have hnat : ((ofInt w i : Nat) : Int) = i % 2 ^ w := Int.toNat_of_nonneg hlo
  have hmod : ofInt w i % 2 ^ w = ofInt w i := Nat.mod_eq_of_lt (by zify; rw [hnat]; exact hhi)
  have hhalf : (2 : Int) ^ w = 2 * 2 ^ p := by rw [hw, pow_succ, mul_comm]
  have hcmp : ofInt w i < 2 ^ p ↔ i % 2 ^ w < 2 ^ p := by zify; rw [hnat]
  unfold toSigned
  rw [hp, hmod, hnat]
  simp only [hcmp]
  generalize (2 : Int) ^ p = half at *
  generalize (2 : Int) ^ w = full at *
  split
  · exact ⟨⟨-(i / full), by linarith⟩, by omega, by omega⟩
  · exact ⟨⟨-(i / full) - 1, by linarith⟩, by omega, by omega⟩

theorem add_no_multiple (a m : Int) : a + 0 + 0 * m = a := by rw [Int.zero_mul, Int.add_zero, Int.add_zero]

theorem accumulated_nil (k : EReg) : accumulated k k [] :=
  ⟨⟨0, (add_no_multiple _ _).symm⟩, id, by simp, by simp, by simp, rfl⟩

/-- One term: a finite one is added to A, any other sets its sticky bit (R72). -/
theorem accumulated_add (k : EReg) (v : FVal) : accumulated k (k.add v).1 [v] := by
  cases v with
  | fin neg m e =>
    obtain ⟨⟨q, hq⟩, hrange⟩ := toSigned_ofInt (w := 4352) (p := 4351) rfl (k.a + scaledInt neg m e (-2148))
    have ha : (k.add (.fin neg m e)).1 = { k with a := toSigned 4352 (ofInt 4352 (k.a + scaledInt neg m e (-2148))) } := rfl
    rw [ha]
    generalize toSigned 4352 (ofInt 4352 (k.a + scaledInt neg m e (-2148))) = b at hq hrange
    refine ⟨⟨q, ?_⟩, fun _ => hrange, ?_, ?_, ?_, rfl⟩
    · rw [List.map_singleton, List.sum_singleton]; exact hq
    · exact (Bool.or_false _).symm
    · exact (Bool.or_false _).symm
    · exact (Bool.or_false _).symm
  | inf neg =>
    cases neg <;> exact ⟨⟨0, (add_no_multiple _ _).symm⟩, id, by simp [EReg.add, FVal.isNan], by simp [EReg.add], by simp [EReg.add], rfl⟩
  | nan sig => exact ⟨⟨0, (add_no_multiple _ _).symm⟩, id, by simp [EReg.add, FVal.isNan], by simp [EReg.add], by simp [EReg.add], rfl⟩

theorem accumulated_append {k k' k'' : EReg} {l m : List FVal} (h : accumulated k k' l) (g : accumulated k' k'' m) :
    accumulated k k'' (l ++ m) := by
  obtain ⟨⟨q, ha⟩, hr, hn, hp, hi, hb⟩ := h
  obtain ⟨⟨r, ha'⟩, hr', hn', hp', hi', hb'⟩ := g
  refine ⟨⟨q + r, ?_⟩, fun h => hr' (hr h), ?_, ?_, ?_, hb'.trans hb⟩
  · rw [ha', ha, List.map_append, List.sum_append, Int.add_mul]; abel
  · rw [hn', hn, List.any_append, Bool.or_assoc]
  · rw [hp', hp, List.any_append, Bool.or_assoc]
  · rw [hi', hi, List.any_append, Bool.or_assoc]

theorem add_invalid (k : EReg) (v : FVal) : (k.add v).2 = v.isSig := by
  rcases v with _ | (_ | _) | (_ | _) <;> rfl

/-- The terms added in turn: the sum, and NV for an invalid one (R72). -/
theorem addAll_says (l : List FVal) (k : EReg) : accumulated k (k.addAll l).1 l ∧ (k.addAll l).2 = invalid l := by
  induction l generalizing k with
  | nil => exact ⟨accumulated_nil k, rfl⟩
  | cons v l ih =>
    obtain ⟨hsum, hnv⟩ := ih (k.add v).1
    exact ⟨accumulated_append (accumulated_add k v) hsum, congrArg₂ or (add_invalid k v) hnv⟩

/-! ### The instructions -/

theorem onlyAcc_set {u t : State} {e : ENum} {k : EReg} (h : t.hart.e = u.hart.e.set e.val k) : onlyAcc u t e := by
  intro j hj
  have hne : e.val ≠ j.val := fun h => hj (Fin.ext h.symm)
  simp [h, hne]

theorem accOk_ok {s : State} {e : ENum} (h : s.hart.e[e.val].poison = false) : s.accOk e = .ok () := by
  unfold State.accOk State.require State.acc
  rw [h]; rfl

/-- Clearing an accumulator (R196). -/
theorem xaClr_says (s : State) (e : ENum) : ∃ t, exec (.xaClr e) s = .next t ∧ t.hart.e[e.val] = ⟨0, false, false, false, false⟩ ∧
    onlyAcc s t e ∧ goesOn s t ∧ t = { s with hart := { s.hart with e := t.hart.e, pc := t.hart.pc, instret := t.hart.instret } } :=
  ⟨_, rfl, Vector.getElem_set_self _, onlyAcc_set rfl, ⟨rfl, rfl⟩, rfl⟩

/-- What an accumulating instruction leaves once its operands are there and its terms known (R196). -/
theorem accumulate_core {s u : State} {o : Operands} {e : ENum} (hr : ready s u o) (l : List FVal) {i : Instr}
    (he : exec i s = .next (((u.setAcc e ((u.acc e).addAll l).1).raise (flagNv ((u.acc e).addAll l).2) false).vdone o.srcs)) :
    ∃ t, exec i s = .next t ∧ vectorDone s u t o.srcs ∧ t.hart.x = u.hart.x ∧ t.hart.v = u.hart.v ∧ t.hart.m = u.hart.m ∧
      accumulated u.hart.e[e.val] t.hart.e[e.val] l ∧ onlyAcc u t e ∧ raised u t { nv := invalid l } false := by
  have hd := deliver_only _ _ _ hr.2.2.2.2.2.2.1
  obtain ⟨hsum, hnv⟩ := addAll_says l (u.acc e)
  rw [hnv] at he
  generalize ((u.acc e).addAll l).1 = k at he hsum
  obtain ⟨t, heq, hdone, hx, hv, hm, hacc, hf, -⟩ := vdone_done o.srcs hd u.hart.x u.hart.v u.hart.m (u.hart.e.set e.val k)
    (u.hart.fcsr.merge (flagNv (invalid l)) false)
  refine ⟨t, he.trans (congrArg _ heq), hdone, hx, hv, hm, ?_, onlyAcc_set hacc, ?_⟩
  · simp only [hacc, Vector.getElem_set_self]; exact hsum
  · unfold raised; rw [hf]; exact ⟨rfl, rfl, rfl⟩

theorem delivered_acc {s u : State} (h : Delivered s u) : u.hart.e = s.hart.e := by
  obtain ⟨_, _, _, _, _, _, _, _, _, rfl⟩ := h; rfl

theorem xaAddv_runs {s u : State} {e : ENum} {a : VNum} {q : Bool} {k : MNum} {o : Operands} {l : List FVal}
    (hi : summed s u (.xaAddv e a q k) = some (o, e, l)) (hr : ready s u o) (hp : s.hart.e[e.val].poison = false) :
    exec (.xaAddv e a q k) s =
      .next (((u.setAcc e ((u.acc e).addAll l).1).raise (flagNv ((u.acc e).addAll l).2) false).vdone o.srcs) := by
  have hd := deliver_only _ _ _ hr.2.2.2.2.2.2.1
  have hacc : u.accOk e = .ok () := accOk_ok (by rw [delivered_acc hd]; exact hp)
  cases hi
  have htag := hr.1 (by simp)
  have hprep := prepare_ready hr [s.noScale, (untyped (tagOf s a), 2), (!tagFloat (tagOf s a), 3)] (by
    simp [noElements, untyped, State.noScale, Claim.noScale])
  show execXaAddv e a q k s = _
  unfold execXaAddv
  rw [needRef_ok htag]
  simp only [bind, Except.bind]
  rw [show s.vtagOf a = tagOf s a from rfl, group_eq _ _ _ htag]
  have hprep' : s.prepare [groupOf s a (tagOf s a)] [] (masksOf k) (k.val != 0) s.hart.vl
      [s.noScale, (untyped (tagOf s a), 2), (!tagFloat (tagOf s a), 3)] = .ok u := hprep
  rw [hprep']
  simp only [hacc, actives_eq]
  rfl

theorem xaDot_runs {s u : State} {e : ENum} {a b : VNum} {q p : Bool} {k : MNum} {o : Operands} {l : List FVal}
    (hi : summed s u (.xaDot e a b q p k) = some (o, e, l)) (hr : ready s u o) (hp : s.hart.e[e.val].poison = false) :
    exec (.xaDot e a b q p k) s =
      .next (((u.setAcc e ((u.acc e).addAll l).1).raise (flagNv ((u.acc e).addAll l).2) false).vdone o.srcs) := by
  have hd := deliver_only _ _ _ hr.2.2.2.2.2.2.1
  have hacc : u.accOk e = .ok () := accOk_ok (by rw [delivered_acc hd]; exact hp)
  cases hi
  have htag := hr.1 (by simp)
  have hnot := hr.2.2.1
  have hprep := prepare_ready hr [s.noScale, (untyped (tagOf s a) || untyped (tagOf s b), 2),
      (!(tagFloat (tagOf s a) && tagFloat (tagOf s b)), 3)] (by
    simp only [List.mem_cons, List.not_mem_nil, or_false, forall_eq_or_imp, forall_eq] at hnot
    obtain ⟨h0, h1, h2, h3, h4⟩ := hnot
    rw [Bool.not_eq_false'] at h3 h4
    simp [h3, h4, State.noScale, Claim.noScale, untyped, noElements] at h1 h2 ⊢
    simp [h1, h2])
  show execXaDot e a b q p k s = _
  unfold execXaDot
  rw [needRef_ok htag]
  simp only [bind, Except.bind]
  rw [show s.vtagOf a = tagOf s a from rfl, show s.vtagOf b = tagOf s b from rfl, group_eq _ _ _ htag, group_eq _ _ _ htag]
  have hprep' : s.prepare [groupOf s a (tagOf s a), groupOf s b (tagOf s b)] [] (masksOf k) (k.val != 0) s.hart.vl
      [s.noScale, (untyped (tagOf s a) || untyped (tagOf s b), 2), (!(tagFloat (tagOf s a) && tagFloat (tagOf s b)), 3)] = .ok u := hprep
  rw [hprep']
  simp only [hacc, actives_eq]
  rfl

theorem accumulation : Claim.Accumulation := by
  refine ⟨xaClr_says, fun s u i o e l hi hr hp => ?_⟩
  have hform := hi
  unfold summed at hform
  split at hform
  · cases hform; exact accumulate_core hr _ (xaAddv_runs hi hr hp)
  · cases hform; exact accumulate_core hr _ (xaDot_runs hi hr hp)
  · cases hform

end Sys2Proof.Laws
end

section
/-! What one line that goes out leaves of the others (04 R80, R95, 05 R110): states that agree on a line, and lines with nothing left
to send. -/

namespace Sys2Proof.Laws

set_option Elab.async false

open Sys2Proof Sys2Proof.Machine Sys2Proof.Claim

variable {s t u : State}

/-! ### Bytes that reach memory -/

/-- A byte of memory after dirty bytes of a line have gone out to their places in it. -/
def landed (line : Nat) (ds : List Dirty) (a : Nat) (b : Byte) : Byte :=
  ds.foldl (fun b d => if line + d.off % 128 = a then mergeHalf b d.byte d.half else b) b

theorem read_sendByte (hm : Memory.wf s.mem = true) (line : Nat) (d : Dirty) (a : Nat) :
    Memory.read (s.sendByte line d).mem a =
      if line + d.off % 128 = a then mergeHalf (Memory.read s.mem a) d.byte d.half else Memory.read s.mem a := by
  by_cases ha : line + d.off % 128 = a
  · have one (v : Nat) : Memory.read (Memory.writeN s.mem a 1 v) a = BitVec.ofNat 8 v := by
      simpa using Memory.read_writeN hm a 1 v 0 Nat.one_pos
    have old : BitVec.ofNat 8 (Memory.readN s.mem a 1) = Memory.read s.mem a := by simpa using byte_readN s.mem a 1 0 Nat.one_pos
    unfold State.sendByte State.putLoc
    rw [if_pos ha, ha]
    cases d.half with
    | none => simp [State.writeLoc, one, mergeHalf]
    | some h => simp [State.writeLoc, State.readLoc, one, old]
  · obtain ⟨-, -, hother, -⟩ := sendByte_says hm line d
    rw [if_neg ha, hother a ha]

theorem read_sendBytes (line : Nat) (ds : List Dirty) (s : State) (hm : Memory.wf s.mem = true) (a : Nat) :
    Memory.read (ds.foldl (fun s d => s.sendByte line d) s).mem a = landed line ds a (Memory.read s.mem a) := by
  induction ds generalizing s with
  | nil => rfl
  | cons d ds ih =>
    obtain ⟨-, hwf, -⟩ := sendByte_says hm line d
    rw [List.foldl_cons, ih _ hwf, read_sendByte hm]
    rfl

/-- A line that a write-back leaves alone: nothing in it is dirty, or its path is lost. -/
def stuck (s : State) (l : RLine) : Bool := l.dirty.isEmpty || s.turnedAway l.device l.line

/-- What a write-back of `l` makes of a line. -/
def cleaned (s : State) (l k : RLine) : RLine := if stuck s l then k else cleanLine l k

theorem writeBack_stuck {l : RLine} (h : stuck s l = true) : s.writeBack l = s := if_pos h

theorem writeBack_sent {l : RLine} (h : stuck s l = false) : s.writeBack l =
    { l.dirty.foldl (fun s d => s.sendByte l.line d) s with rcache := s.rcache.map (cleanLine l) } := by
  have hgo : ¬ (l.dirty.isEmpty || s.turnedAway l.device l.line) = true := ne_true_of_eq_false h
  unfold State.writeBack
  rw [if_neg hgo]
  simp only [State.refresh, List.map_map, sendBytes_rcache]
  rfl

theorem stuck_relined (h : Relined s t) (l : RLine) : stuck t l = stuck s l := by
  obtain ⟨_, _, _, rfl⟩ := h; rfl

theorem sendBytes_withLines (line : Nat) (ds : List Dirty) (s : State) (R : List RLine) :
    ds.foldl (fun s d => s.sendByte line d) { s with rcache := R } =
      { ds.foldl (fun s d => s.sendByte line d) s with rcache := R } := by
  induction ds generalizing s with
  | nil => rfl
  | cons d ds ih =>
    rw [List.foldl_cons, List.foldl_cons, ← ih]
    congr 1
    unfold State.sendByte State.putLoc
    cases d.half <;> rfl

/-- A write-back treats each cached line by itself. -/
theorem writeBack_withLines (s : State) (R : List RLine) (l : RLine) :
    ({ s with rcache := R } : State).writeBack l = { s.writeBack l with rcache := R.map (cleaned s l) } := by
  cases h : stuck s l with
  | true =>
    have hid : cleaned s l = id := funext fun k => if_pos h
    rw [writeBack_stuck h, writeBack_stuck (show stuck { s with rcache := R } l = true from h), hid, List.map_id]
  | false =>
    have hcl : cleaned s l = cleanLine l := funext fun k => if_neg (ne_true_of_eq_false h)
    rw [writeBack_sent h, writeBack_sent (show stuck { s with rcache := R } l = false from h), hcl, sendBytes_withLines]

/-- What the write-backs of some lines make of a line. -/
def cleanedBy (s : State) (ls : List RLine) (k : RLine) : RLine := ls.foldl (fun k l => cleaned s l k) k

theorem cleaned_relined (h : Relined s t) : cleaned t = cleaned s := by
  funext l k; unfold cleaned; rw [stuck_relined h]

theorem writeBacks_withLines (ls : List RLine) (s : State) (R : List RLine) :
    ls.foldl State.writeBack { s with rcache := R } =
      { ls.foldl State.writeBack s with rcache := R.map (cleanedBy s ls) } := by
  induction ls generalizing s R with
  | nil => exact congrArg (fun R => ({ s with rcache := R } : State)) (List.map_id R).symm
  | cons l ls ih =>
    have hby : cleanedBy s (l :: ls) = cleanedBy (s.writeBack l) ls ∘ cleaned s l := by
      funext k; unfold cleanedBy; rw [cleaned_relined (relined_writeBack s l)]; rfl
    rw [List.foldl_cons, List.foldl_cons, writeBack_withLines, ih, List.map_map, hby]

theorem cleaned_parts (s : State) (l k : RLine) : (cleaned s l k).holder = k.holder ∧ (cleaned s l k).line = k.line ∧
    (cleaned s l k).poison = k.poison ∧ (k.line ≠ l.line → cleaned s l k = k) := by
  unfold cleaned
  split
  · exact ⟨rfl, rfl, rfl, fun _ => rfl⟩
  · obtain ⟨hh, hl⟩ := (lineCleaned_cleanLine l).place k
    refine ⟨hh, hl, ?_, (lineCleaned_cleanLine l).far k⟩
    unfold cleanLine
    dsimp only
    split <;> split <;> rfl

/-- Write-backs leave where a line stands and its uncorrectable data; a line of another address they leave whole. -/
theorem cleanedBy_parts (s : State) (ls : List RLine) (k : RLine) : (cleanedBy s ls k).holder = k.holder ∧
    (cleanedBy s ls k).line = k.line ∧ (cleanedBy s ls k).poison = k.poison ∧
    ((∀ l ∈ ls, k.line ≠ l.line) → cleanedBy s ls k = k) := by
  induction ls generalizing k with
  | nil => exact ⟨rfl, rfl, rfl, fun _ => rfl⟩
  | cons l ls ih =>
    obtain ⟨h1, h2, h3, h4⟩ := cleaned_parts s l k
    obtain ⟨g1, g2, g3, g4⟩ := ih (cleaned s l k)
    refine ⟨g1.trans h1, g2.trans h2, g3.trans h3, fun h => ?_⟩
    have hk := h4 (h l (List.mem_cons_self ..))
    exact (g4 fun m hm => by rw [hk]; exact h m (List.mem_cons_of_mem _ hm)).trans hk

/-! ### Lines with nothing left to send -/

/-- The lines that an access of a hart waits for. -/
def waitedFor (s : State) (hid a : Nat) : List RLine :=
  (s.rcache.filter fun l => l.line == a / 128 * 128).filter fun l => l.dirty.any fun d => d.hid == hid

theorem settle_eq (s : State) (hid a : Nat) : s.settle hid a = (waitedFor s hid a).foldl State.writeBack s := by
  unfold State.settle waitedFor
  rw [List.filter_filter]
  congr 2
  funext l
  exact Bool.and_comm ..

theorem mem_waitedFor {hid a : Nat} {l : RLine} (h : l ∈ waitedFor s hid a) :
    l ∈ s.rcache ∧ l.line = a / 128 * 128 ∧ (l.dirty.any fun d => d.hid == hid) = true := by
  obtain ⟨h1, h2⟩ := List.mem_filter.1 h
  obtain ⟨h3, h4⟩ := List.mem_filter.1 h1
  exact ⟨h3, by simpa using h4, h2⟩

theorem waitedFor_line {hid a : Nat} {l : RLine} (h : l ∈ waitedFor s hid a) : l.line = a / 128 * 128 := (mem_waitedFor h).2.1

theorem settle_congr (s : State) (hid : Nat) {a b : Nat} (h : a / 128 = b / 128) : s.settle hid a = s.settle hid b := by
  unfold State.settle; rw [h]

theorem relined_settle (s : State) (hid a : Nat) : Relined s (s.settle hid a) := relined_foldl _ relined_writeBack _ s

/-- No byte that a hart has written in a line can go out: none is left, or the path is lost. -/
def Quiet (s : State) (hid line : Nat) : Prop :=
  ∀ k ∈ s.rcache, k.line = line → (k.dirty.any fun d => d.hid == hid) = true → s.turnedAway k.device k.line = true

theorem settle_of_quiet {hid a : Nat} (h : Quiet s hid (a / 128 * 128)) : s.settle hid a = s := by
  rw [settle_eq]
  have hst : ∀ l ∈ waitedFor s hid a, stuck s l = true := fun l hl => by
    obtain ⟨hin, hline, hd⟩ := mem_waitedFor hl
    unfold stuck; rw [h l hin hline hd, Bool.or_true]
  generalize waitedFor s hid a = ls at hst
  induction ls with
  | nil => rfl
  | cons l ls ih =>
    rw [List.foldl_cons, writeBack_stuck (hst l (List.mem_cons_self ..))]
    exact ih fun m hm => hst m (List.mem_cons_of_mem _ hm)

/-- A line keeps its place and keeps or loses its dirty bytes; it keeps those only that could not be sent. -/
theorem settle_lines {hid a : Nat} {k : RLine} (hk : k ∈ (s.settle hid a).rcache) :
    ∃ j ∈ s.rcache, k.line = j.line ∧ (k.dirty = [] ∨ k.dirty = j.dirty) ∧
      (j ∈ waitedFor s hid a → k.dirty = [] ∨ s.turnedAway j.device j.line = true) := by
  rw [settle_eq] at hk
  obtain ⟨j, hj, hh, hl, hd, hcl⟩ := writeBacks_lines _ s hk
  refine ⟨j, hj, hl, hd, fun hw => ?_⟩
  cases ht : s.turnedAway j.device j.line with
  | true => exact .inr rfl
  | false =>
    by_cases h0 : j.dirty = []
    · exact .inl (hd.elim id fun h => h.trans h0)
    · exact .inl (hcl j hw hh.symm hl.symm h0 ht)

theorem device_congr {k j : RLine} (h : k.line = j.line) : k.device = j.device := by unfold RLine.device; rw [h]

theorem any_of_kept {k j : RLine} {hid : Nat} (hd : k.dirty = [] ∨ k.dirty = j.dirty)
    (h : (k.dirty.any fun d => d.hid == hid) = true) : k.dirty ≠ [] ∧ (j.dirty.any fun d => d.hid == hid) = true := by
  rcases hd with hd | hd
  · rw [hd] at h; cases h
  · exact ⟨fun h0 => by simp [h0] at h, by rwa [← hd]⟩

theorem turnedAway_relined (h : Relined s t) (d pa : Nat) : t.turnedAway d pa = s.turnedAway d pa := by
  obtain ⟨_, _, _, rfl⟩ := h; rfl

theorem Quiet.settle {hid line : Nat} (h : Quiet s hid line) (a : Nat) : Quiet (s.settle hid a) hid line := by
  intro k hk hl hd
  obtain ⟨j, hj, hlj, hdj, -⟩ := settle_lines hk
  rw [turnedAway_relined (relined_settle s hid a), device_congr hlj, hlj]
  exact h j hj (hlj ▸ hl) (any_of_kept hdj hd).2

theorem quiet_settle (s : State) (hid a : Nat) : Quiet (s.settle hid a) hid (a / 128 * 128) := by
  intro k hk hl hd
  obtain ⟨j, hj, hlj, hdj, hw⟩ := settle_lines hk
  obtain ⟨hne, hdj'⟩ := any_of_kept hdj hd
  rw [turnedAway_relined (relined_settle s hid a), device_congr hlj, hlj]
  have hin : j ∈ waitedFor s hid a :=
    List.mem_filter.2 ⟨List.mem_filter.2 ⟨hj, by simp [← hlj, hl]⟩, hdj'⟩
  exact (hw hin).resolve_left hne

theorem settle_settle (s : State) (hid a : Nat) : (s.settle hid a).settle hid a = s.settle hid a :=
  settle_of_quiet (quiet_settle s hid a)

/-! ### States that agree on a line -/

/-- Two states agree on a line: on its copies, its bytes of memory, and the paths to devices. -/
structure AlikeAt (line : Nat) (s t : State) : Prop where
  lines : (s.rcache.filter fun k => k.line == line) = t.rcache.filter fun k => k.line == line
  mem : ∀ a, a / 128 * 128 = line → Memory.read s.mem a = Memory.read t.mem a
  away : ∀ d pa, s.turnedAway d pa = t.turnedAway d pa

theorem AlikeAt.refl (line : Nat) (s : State) : AlikeAt line s s := ⟨rfl, fun _ _ => rfl, fun _ _ => rfl⟩

theorem AlikeAt.trans {line : Nat} (h : AlikeAt line s t) (k : AlikeAt line t u) : AlikeAt line s u :=
  ⟨h.lines.trans k.lines, fun a ha => (h.mem a ha).trans (k.mem a ha), fun d pa => (h.away d pa).trans (k.away d pa)⟩

theorem lineOf_filter (s : State) (c : Cache) (a : Nat) :
    s.lineOf c a = (s.rcache.filter fun k => k.line == a / 128 * 128).find? fun k => k.holder == c := by
  unfold State.lineOf
  rw [List.find?_filter]
  congr 1
  funext k
  simp [and_comm, Bool.beq_eq_decide_eq]

theorem AlikeAt.copyOf {a : Nat} (h : AlikeAt (a / 128 * 128) s t) (core : Nat) : s.copyOf core a = t.copyOf core a := by
  unfold State.copyOf
  simp only [lineOf_filter, h.lines]

theorem AlikeAt.ownBytes {line : Nat} (h : AlikeAt line s t) (hid : Nat) : s.ownBytes hid line = t.ownBytes hid line := by
  unfold State.ownBytes; rw [h.lines]

/-- A byte of the line that a core reads: of the copy it reads, else of memory. -/
def lineByte (s : State) (core a : Nat) : Byte :=
  ((s.copyOf core a).map fun k => BitVec.ofNat 8 (k.data >>> (8 * (a % 128)))).getD (Memory.read s.mem a)

theorem lineAt_byte (s : State) (core a : Nat) :
    BitVec.ofNat 8 ((lineAt s core a).data >>> (8 * (a % 128))) = lineByte s core a := by
  unfold lineAt lineByte
  cases s.copyOf core a with
  | some k => rfl
  | none =>
    have ha : a / 128 * 128 + a % 128 = a := by omega
    show BitVec.ofNat 8 (Memory.readN s.mem (a / 128 * 128) 128 >>> (8 * (a % 128))) = Memory.read s.mem a
    rw [byte_readN _ _ _ _ (Nat.mod_lt _ (by norm_num)), ha]

/-- What a hart sees of another device's byte: the byte its core reads, under what the hart has not sent. -/
theorem seen_remote_byte {a : Nat} (hr : ∃ d o, targetOf a = .remote d o) (s : State) (core hid : Nat) : seen s core hid (.phys a) =
    under ((s.ownBytes hid (a / 128 * 128)).filter fun d => d.off == a % 128) (a % 128) (lineByte s core a) := by
  rw [seen_remote hr, under_filter, lineAt_byte]

/-- Every hart sees the same bytes of the line. -/
theorem AlikeAt.seen {a : Nat} (h : AlikeAt (a / 128 * 128) s t) (core hid : Nat) :
    seen s core hid (.phys a) = seen t core hid (.phys a) := by
  by_cases hr : ∃ d o, targetOf a = .remote d o
  · have hbyte : lineByte s core a = lineByte t core a := by unfold lineByte; rw [h.copyOf, h.mem a rfl]
    rw [seen_remote_byte hr, seen_remote_byte hr, h.ownBytes, hbyte]
  · rw [seen_local hr, seen_local hr, h.mem a rfl]

theorem filter_map_line (line : Nat) (g : RLine → RLine) (hg : ∀ k, (g k).line = k.line) (ls : List RLine) :
    ((ls.map g).filter fun k => k.line == line) = (ls.filter fun k => k.line == line).map g := by
  rw [List.filter_map]
  congr 2
  funext k
  exact congrArg (· == line) (hg k)

theorem writeBack_rcache (s : State) (l : RLine) : (s.writeBack l).rcache = s.rcache.map (cleaned s l) :=
  congrArg State.rcache (writeBack_withLines s s.rcache l)

theorem writeBack_filter (s : State) (l : RLine) (line : Nat) :
    ((s.writeBack l).rcache.filter fun k => k.line == line) = (s.rcache.filter fun k => k.line == line).map (cleaned s l) := by
  rw [writeBack_rcache, filter_map_line _ _ fun k => (cleaned_parts s l k).2.1]

theorem read_writeBack (hm : Memory.wf s.mem = true) (l : RLine) (a : Nat) : Memory.read (s.writeBack l).mem a =
    if stuck s l then Memory.read s.mem a else landed l.line l.dirty a (Memory.read s.mem a) := by
  cases h : stuck s l with
  | true => rw [writeBack_stuck h]; rfl
  | false => rw [writeBack_sent h]; exact read_sendBytes _ _ s hm a

/-- A line that goes out leaves every other one. -/
theorem alikeAt_writeBack_other (s : State) {l : RLine} {line : Nat} (hl : l.line % 128 = 0) (hne : l.line ≠ line) :
    AlikeAt line (s.writeBack l) s := by
  refine ⟨?_, fun a ha => writeBack_other s l a fun d _ => ?_, fun d pa => turnedAway_writeBack s l d pa⟩
  · rw [writeBack_filter]
    refine (List.map_congr_left (g := id) fun k hk => (cleaned_parts s l k).2.2.2 ?_).trans (List.map_id _)
    have hk' : k.line = line := by simpa using (List.mem_filter.1 hk).2
    exact fun h => hne (h.symm.trans hk')
  · omega

/-- Bytes that go out in two states that agree on a line leave them so. -/
theorem AlikeAt.writeBack {line : Nat} (h : AlikeAt line s t) (hs : Memory.wf s.mem = true) (ht : Memory.wf t.mem = true)
    (l : RLine) : AlikeAt line (s.writeBack l) (t.writeBack l) := by
  have hst : stuck s l = stuck t l := by unfold stuck; rw [h.away]
  have hcl : cleaned s l = cleaned t l := by funext k; unfold cleaned; rw [hst]
  refine ⟨?_, fun a ha => ?_, fun d pa => ?_⟩
  · rw [writeBack_filter, writeBack_filter, h.lines, hcl]
  · rw [read_writeBack hs, read_writeBack ht, h.mem a ha, hst]
  · rw [turnedAway_writeBack, turnedAway_writeBack, h.away]

theorem AlikeAt.writeBacks {line : Nat} (ls : List RLine) (h : AlikeAt line s t) (hs : Safety.Sound s) (ht : Safety.Sound t) :
    AlikeAt line (ls.foldl State.writeBack s) (ls.foldl State.writeBack t) := by
  induction ls generalizing s t with
  | nil => exact h
  | cons l ls ih => exact ih (h.writeBack hs.mem_wf ht.mem_wf l) (sound_writeBack hs l) (sound_writeBack ht l)

theorem AlikeAt.settle {a : Nat} (h : AlikeAt (a / 128 * 128) s t) (hs : Safety.Sound s) (ht : Safety.Sound t) (hid : Nat) :
    AlikeAt (a / 128 * 128) (s.settle hid a) (t.settle hid a) := by
  have hw : waitedFor s hid a = waitedFor t hid a := by unfold waitedFor; rw [h.lines]
  rw [settle_eq, settle_eq, hw]
  exact h.writeBacks _ hs ht

theorem alikeAt_settle_other (s : State) (hid : Nat) {a line : Nat} (hne : a / 128 * 128 ≠ line) :
    AlikeAt line (s.settle hid a) s := by
  rw [settle_eq]
  have hls : ∀ l ∈ waitedFor s hid a, l.line % 128 = 0 ∧ l.line ≠ line := fun l hl => by
    rw [waitedFor_line hl]; exact ⟨by omega, hne⟩
  generalize waitedFor s hid a = ls at hls
  induction ls generalizing s with
  | nil => exact .refl line s
  | cons l ls ih =>
    obtain ⟨hal, hl⟩ := hls l (List.mem_cons_self ..)
    exact (ih _ fun m hm => hls m (List.mem_cons_of_mem _ hm)).trans (alikeAt_writeBack_other s hal hl)

/-! ### Where an access finds its location -/

theorem relined_near (s : State) (l : Loc) : Relined s (near s l) := by
  cases l with
  | spad i => exact .refl s
  | phys a =>
    by_cases hr : ∃ d o, targetOf a = .remote d o
    · rw [near_phys s a hr]
      unfold filledFrom
      split
      · exact .refl s
      · exact relined_settle ..
    · rw [near_local s a hr]; exact .refl s

theorem Relined.hart (h : Relined s t) : t.hart = s.hart := by obtain ⟨_, _, _, rfl⟩ := h; rfl

theorem Relined.spad (h : Relined s t) : t.spad = s.spad := by obtain ⟨_, _, _, rfl⟩ := h; rfl

theorem sound_near (h : Safety.Sound s) (l : Loc) : Safety.Sound (near s l) := by
  unfold near
  split
  · exact h
  · split
    · split
      · exact h
      · exact sound_settle h _ _
    · exact h

theorem copyOf_settle_none {core hid a b : Nat} : (s.settle hid b).copyOf core a = none ↔ s.copyOf core a = none := by
  have hp := settle_places s hid b
  rw [copyOf_none, copyOf_none]
  exact ⟨fun h => ⟨lineOf_places hp.symm _ _ h.1, lineOf_places hp.symm _ _ h.2⟩,
    fun h => ⟨lineOf_places hp _ _ h.1, lineOf_places hp _ _ h.2⟩⟩

theorem copyOf_settle (s : State) (core hid a b : Nat) :
    ((s.settle hid b).copyOf core a).isSome = (s.copyOf core a).isSome := by
  rw [Bool.eq_iff_iff, Option.isSome_iff_ne_none, Option.isSome_iff_ne_none, ne_eq, ne_eq, copyOf_settle_none]

theorem copyOf_near (s : State) (core a : Nat) (l : Loc) : ((near s l).copyOf core a).isSome = (s.copyOf core a).isSome := by
  unfold near
  split
  · rfl
  · split
    · split
      · rfl
      · exact copyOf_settle ..
    · rfl

theorem near_remote {a : Nat} (hr : ∃ d o, targetOf a = .remote d o) (s : State) : near s (.phys a) =
    if (s.copyOf s.hart.place.core a).isSome then s else s.settle s.hart.place.hid a := near_phys s a hr

/-- An access to the line of the one before finds it where that one did. -/
theorem near_near_same {a b : Nat} (ha : ∃ d o, targetOf a = .remote d o) (hb : ∃ d o, targetOf b = .remote d o)
    (h : a / 128 = b / 128) (s : State) : near (near s (.phys a)) (.phys b) = near s (.phys b) := by
  have hab : near s (.phys a) = near s (.phys b) := by
    rw [near_remote ha, near_remote hb, copyOf_congr _ _ _ _ h, settle_congr _ _ h]
  rw [hab, near_remote hb (near s (.phys b)), copyOf_near, (relined_near s _).hart, near_remote hb s]
  split
  · rfl
  · exact settle_settle ..

theorem alikeAt_near_other (s : State) {l : Loc} {line : Nat}
    (h : ∀ b, l = .phys b → (∃ d o, targetOf b = .remote d o) → b / 128 * 128 ≠ line) : AlikeAt line (near s l) s := by
  cases l with
  | spad i => exact .refl line s
  | phys b =>
    by_cases hr : ∃ d o, targetOf b = .remote d o
    · rw [near_remote hr]
      split
      · exact .refl line s
      · exact alikeAt_settle_other s _ (h b rfl hr)
    · rw [near_local s b hr]; exact .refl line s

theorem AlikeAt.near {a : Nat} (h : AlikeAt (a / 128 * 128) s t) (hh : s.hart = t.hart) (hs : Safety.Sound s)
    (ht : Safety.Sound t) : AlikeAt (a / 128 * 128) (near s (.phys a)) (near t (.phys a)) := by
  by_cases hr : ∃ d o, targetOf a = .remote d o
  · rw [near_remote hr, near_remote hr, h.copyOf, hh]
    split
    · exact h
    · exact h.settle hs ht _
  · rw [near_local s a hr, near_local t a hr]; exact h

theorem remote_line {a b : Nat} (h : a / 128 = b / 128) (hr : ∃ d o, targetOf b = .remote d o) :
    ∃ d o, targetOf a = .remote d o := by
  rw [remote_iff] at hr ⊢
  omega

/-- Another access before it does not change what a hart sees where an access finds its location (R80, R95). -/
theorem seen_near_near (hs : Safety.Sound s) {n : Nat} (hn : n ∣ 8) {l : Loc} (ha : ∀ a, l = .phys a → a % n = 0) (l' : Loc)
    {k : Nat} (hk : k < n) (core hid : Nat) :
    seen (near (near s l') l) core hid (plus l k) = seen (near s l) core hid (plus l k) := by
  cases l with
  | spad i => exact congrArg (Memory.read · (i + k)) (relined_near s l').spad
  | phys a =>
    have hline := div128 a n k hn (ha a rfl) hk
    by_cases hsame : ∃ b, l' = .phys b ∧ (∃ d o, targetOf b = .remote d o) ∧ b / 128 = a / 128
    · obtain ⟨b, rfl, hb, hba⟩ := hsame
      rw [near_near_same hb (remote_line hba.symm hb) hba]
    · have hoff : AlikeAt (a / 128 * 128) (Claim.near s l') s := alikeAt_near_other s fun b hb hr he =>
        hsame ⟨b, hb, hr, by omega⟩
      have hnear := hoff.near (relined_near s l').hart (sound_near hs l') hs
      rw [← hline] at hnear
      exact hnear.seen core hid

end Sys2Proof.Laws
end

section
/-! Loads of several words one after another (08 R163, 04 R80, R95): each word is read as the hart sees it before the first. -/

namespace Sys2Proof.Laws

set_option Elab.async false

open Sys2Proof Sys2Proof.Machine Sys2Proof.Claim

variable {s t u : State}

/-! ### Uncorrectable data -/

theorem poisoned_unpoison {p : List (Nat × BitVec 32)} {a n b m : Nat} (h : poisoned p b m = false) :
    poisoned (unpoison p a n) b m = false := by
  unfold poisoned unpoison at *
  rw [List.any_eq_false] at *
  intro e he
  obtain ⟨⟨sector, mark⟩, hf, rfl⟩ := List.mem_map.1 (List.mem_filter.1 he).1
  have hno := h _ hf
  dsimp only
  split <;> exact hno

theorem poisoned_filter {p : List (Nat × BitVec 32)} (q : Nat × BitVec 32 → Bool) {b m : Nat} (h : poisoned p b m = false) :
    poisoned (p.filter q) b m = false := by
  unfold poisoned at *
  rw [List.any_eq_false] at *
  exact fun e he => h e (List.mem_filter.1 he).1

theorem poisoned_sendByte (line : Nat) (d : Dirty) (s : State) {b m : Nat} (h : poisoned s.poison b m = false) :
    poisoned (s.sendByte line d).poison b m = false := by
  unfold State.sendByte State.putLoc
  cases d.half with
  | none => exact poisoned_unpoison h
  | some _ => exact h

theorem poisoned_sendBytes (line : Nat) (ds : List Dirty) (s : State) {b m : Nat} (h : poisoned s.poison b m = false) :
    poisoned (ds.foldl (fun s d => s.sendByte line d) s).poison b m = false := by
  induction ds generalizing s with
  | nil => exact h
  | cons d ds ih => exact ih _ (poisoned_sendByte line d s h)

theorem poisoned_settle (s : State) (hid a : Nat) {b m : Nat} (h : poisoned s.poison b m = false) :
    poisoned (s.settle hid a).poison b m = false := by
  rw [settle_eq]
  generalize waitedFor s hid a = ls
  induction ls generalizing s with
  | nil => exact h
  | cons l ls ih =>
    refine ih _ ?_
    cases hst : stuck s l with
    | true => rwa [writeBack_stuck hst]
    | false => rw [writeBack_sent hst]; exact poisoned_sendBytes _ _ s h

/-- Lines changed where they stand: a core reads the same one, changed. -/
theorem copyOf_map {f : RLine → RLine} (hf : ∀ k, (f k).holder = k.holder ∧ (f k).line = k.line) (h : t.rcache = s.rcache.map f)
    (core a : Nat) : t.copyOf core a = (s.copyOf core a).map f := by
  unfold State.copyOf State.lineOf
  rw [h]
  simp only [find_map _ _ hf]
  cases s.rcache.find? fun l => l.holder == .core core && l.line == a / 128 * 128 <;> rfl

/-- The lines after the bytes of a line have gone out: each keeps its place and its uncorrectable data. -/
theorem copyOf_settle_map (s : State) (hid a : Nat) : ∃ f : RLine → RLine, (∀ k, (f k).poison = k.poison) ∧
    ∀ core b, (s.settle hid a).copyOf core b = (s.copyOf core b).map f := by
  refine ⟨cleanedBy s (waitedFor s hid a), fun k => (cleanedBy_parts s _ k).2.2.1, fun core b => ?_⟩
  rw [settle_eq]
  exact copyOf_map (fun k => ⟨(cleanedBy_parts s _ k).1, (cleanedBy_parts s _ k).2.1⟩)
    (congrArg State.rcache (writeBacks_withLines (waitedFor s hid a) s s.rcache)) core b

theorem readable_local {a n : Nat} (hr : ¬ ∃ d o, targetOf a = .remote d o) (s : State) :
    readable s (.phys a) n ↔ poisoned s.poison a n = false := by
  unfold readable
  cases e : targetOf a with
  | remote d o => exact absurd ⟨d, o, e⟩ hr
  | _ => simp only [e]

/-- Another device's bytes can be read: the copy that the core reads is sane, or memory where it has none. -/
theorem readable_remote {a n : Nat} (hr : ∃ d o, targetOf a = .remote d o) (s : State) : readable s (.phys a) n ↔
    poisoned (((s.copyOf s.hart.place.core a).map RLine.poison).getD s.poison) a n = false := by
  obtain ⟨d, o, e⟩ := hr
  unfold readable
  simp only [e]
  cases s.copyOf s.hart.place.core a <;> rfl

theorem readable_settle {l : Loc} {n : Nat} (h : readable s l n) (hid a : Nat) : readable (s.settle hid a) l n := by
  cases l with
  | spad i => obtain ⟨_, _, _, e⟩ := relined_settle s hid a; rw [e]; exact h
  | phys b =>
    by_cases hr : ∃ d o, targetOf b = .remote d o
    · rw [readable_remote hr] at h ⊢
      obtain ⟨f, hf, hc⟩ := copyOf_settle_map s hid a
      rw [(relined_settle s hid a).hart, hc]
      cases hk : s.copyOf s.hart.place.core b with
      | none => rw [hk] at h; exact poisoned_settle s hid a h
      | some k => rw [hk] at h; exact (congrArg (poisoned · b n) (hf k)).trans h
    · rw [readable_local hr] at h ⊢
      exact poisoned_settle s hid a h

theorem readable_near {l : Loc} {n : Nat} (h : readable s l n) (m : Loc) : readable (near s m) l n := by
  unfold near
  split
  · exact h
  · split
    · split
      · exact h
      · exact readable_settle h _ _
    · exact h

/-! ### Lines that a read brings near -/

theorem copyOf_isSome_iff (s : State) (core a : Nat) : (s.copyOf core a).isSome = true ↔
    ∃ k ∈ s.rcache, (k.holder = .core core ∨ k.holder = cacOf core) ∧ k.line = a / 128 * 128 := by
  rw [Option.isSome_iff_ne_none, ne_eq, copyOf_none]
  unfold State.lineOf
  rw [List.find?_eq_none, List.find?_eq_none]
  constructor
  · intro h
    by_contra hno
    exact h ⟨fun k hk hc => hno ⟨k, hk, by simp at hc; exact ⟨.inl hc.1, hc.2⟩⟩,
      fun k hk hc => hno ⟨k, hk, by simp at hc; exact ⟨.inr hc.1, hc.2⟩⟩⟩
  · rintro ⟨k, hk, hh | hh, hl⟩ ⟨h1, h2⟩
    · exact h1 k hk (by simp [hh, hl])
    · exact h2 k hk (by simp [hh, hl])

/-- Some lines put before the cached ones. -/
def withLines (F : List RLine) (s : State) : State := { s with rcache := F ++ s.rcache }

/-- Lines of other addresses do not stand between a core and its line. -/
theorem copyOf_withLines_other {F : List RLine} {a : Nat} (hF : ∀ f ∈ F, f.line ≠ a / 128 * 128) (s : State) (core : Nat) :
    (withLines F s).copyOf core a = s.copyOf core a := by
  have hno (c : Cache) : F.find? (fun l => l.holder == c && l.line == a / 128 * 128) = none :=
    List.find?_eq_none.2 fun f hf => by simp [hF f hf]
  unfold State.copyOf State.lineOf withLines
  simp only [List.find?_append, hno, Option.none_or]

/-- The lines that filling one puts before the cached ones: clean, near the core, at its address, and no more uncorrectable
than what the core would have read. -/
structure Filling (s : State) (a : Nat) (F : List RLine) : Prop where
  clean : ∀ f ∈ F, f.dirty = []
  holder : ∀ f ∈ F, f.holder = .core s.hart.place.core ∨ f.holder = cacOf s.hart.place.core
  line : ∀ f ∈ F, f.line = a / 128 * 128
  first : ∀ f F', F = f :: F' → f.holder = .core s.hart.place.core ∧ ∀ b n, b / 128 = a / 128 →
    (∃ d o, targetOf b = .remote d o) → readable s (.phys b) n → poisoned f.poison b n = false

theorem fillLine_adds (s : State) (a : Nat) :
    let v := filledFrom s s.hart.place.core s.hart.place.hid a
    ∃ F, (s.fillLine s.hart.place.core s.hart.place.hid a).2 = withLines F v ∧ Filling v a F := by
  unfold State.fillLine filledFrom
  cases h1 : s.lineOf (.core s.hart.place.core) a with
  | some l =>
    have hc : s.copyOf s.hart.place.core a = some l := by unfold State.copyOf; rw [h1]
    rw [hc]
    exact ⟨[], rfl, by simp, by simp, by simp, by simp⟩
  | none =>
    dsimp only
    cases h2 : s.lineOf (cacOf s.hart.place.core) a with
    | some l =>
      have hc : s.copyOf s.hart.place.core a = some l := by unfold State.copyOf; rw [h1]; exact h2
      rw [hc]
      refine ⟨[{ l with holder := .core s.hart.place.core, dirty := [] }], rfl, by simp, by simp, by simp [(lineOf_line h2).2], ?_⟩
      rintro f F' ⟨⟩
      refine ⟨rfl, fun b n hb hr hread => ?_⟩
      have hread' := (readable_remote hr s).1 hread
      rw [copyOf_congr s _ _ _ hb, hc] at hread'
      exact hread'
    | none =>
      have hc : s.copyOf s.hart.place.core a = none := copyOf_none.2 ⟨h1, h2⟩
      have hv := copyOf_settle_none (hid := s.hart.place.hid) (b := a).2 hc
      rw [hc]
      simp only [Option.isSome_none, Bool.false_eq_true, if_false]
      have hh := (relined_settle s s.hart.place.hid a).hart
      refine ⟨[_, _], rfl, by simp, by simp [hh], by simp, ?_⟩
      rintro f F' ⟨⟩
      refine ⟨by rw [hh], fun b n hb hr hread => poisoned_filter _ ?_⟩
      have hread' := (readable_remote hr _).1 hread
      rwa [hh, copyOf_congr _ _ _ _ hb, hv] at hread'

theorem Filling.readable {a : Nat} {F : List RLine} (h : Filling s a F) {l : Loc} {n : Nat} (hl : readable s l n) :
    Claim.readable (withLines F s) l n := by
  cases l with
  | spad i => exact hl
  | phys b =>
    by_cases hr : ∃ d o, targetOf b = .remote d o
    · rw [readable_remote hr]
      by_cases hb : b / 128 = a / 128
      · cases F with
        | nil => exact (readable_remote hr s).1 hl
        | cons f F =>
          obtain ⟨hf, hp⟩ := h.first f F rfl
          have hfound : (withLines (f :: F) s).copyOf s.hart.place.core b = some f := by
            have hline := h.line f (List.mem_cons_self ..)
            unfold State.copyOf State.lineOf withLines
            rw [List.cons_append, List.find?_cons_of_pos (by simp [hf, hline, hb])]
          rw [show (withLines (f :: F) s).hart = s.hart from rfl, hfound]
          exact hp b n hb hr hl
      · have hoff : ∀ f ∈ F, f.line ≠ b / 128 * 128 := fun f hf he => hb (by rw [h.line f hf] at he; omega)
        rw [show (withLines F s).hart = s.hart from rfl, copyOf_withLines_other hoff]
        exact (readable_remote hr s).1 hl
    · rw [readable_local hr] at hl ⊢
      exact hl

/-- An ordinary read fills at most the line it reads. -/
theorem readAt_adds {l : Loc} {va n v : Nat} (h : s.readAt .cached l va n = .ok (v, t)) :
    ∃ F, t = withLines F (near s l) ∧ (F = [] ∨ ∃ a, l = .phys a ∧
      (∃ d o, targetOf a = .remote d o) ∧ Filling (near s l) a F) := by
  cases l with
  | spad i =>
    refine ⟨[], ?_, .inl rfl⟩
    unfold State.readAt at h
    dsimp only at h
    split at h
    · cases h
    · cases h; rfl
  | phys a =>
    by_cases hr : ∃ d o, targetOf a = .remote d o
    · obtain ⟨F, hF, hfill⟩ := fillLine_adds s a
      rw [near_phys s a hr]
      refine ⟨F, ?_, .inr ⟨a, rfl, hr, hfill⟩⟩
      obtain ⟨d, o, e⟩ := hr
      unfold State.readAt at h
      simp only [e] at h
      rw [← hF]
      split at h <;> dsimp only at h <;> split at h <;> cases h <;> rfl
    · rw [near_local s a hr]
      refine ⟨[], ?_, .inl rfl⟩
      unfold State.readAt at h
      dsimp only at h
      cases e : targetOf a with
      | remote d o => exact absurd ⟨d, o, e⟩ hr
      | _ =>
        simp only [e] at h
        split at h
        · cases h
        · cases h; rfl

end Sys2Proof.Laws
end

section
/-! Loads of several words one after another (08 R163, 04 R80, R95): each word reads as the hart saw it before the first. -/

namespace Sys2Proof.Laws

set_option Elab.async false

open Sys2Proof Sys2Proof.Machine Sys2Proof.Claim

variable {n s t u : State}

/-! ### What reads leave -/

/-- A line that reads have brought near a core: clean, in its cache or its CAC's, of an address where the core had a copy before, or
where its hart has nothing left to send. -/
structure Fetched (s : State) (f : RLine) : Prop where
  clean : f.dirty = []
  holder : f.holder = .core s.hart.place.core ∨ f.holder = cacOf s.hart.place.core
  aligned : f.line / 128 * 128 = f.line
  quiet : (s.copyOf s.hart.place.core f.line).isSome = true ∨ Quiet s s.hart.place.hid f.line

/-- A state after some reads, beside the one in which the accesses only found their locations: it has fetched lines, which nobody sees. -/
structure Ahead (n s : State) : Prop where
  lines : ∃ F, s = withLines F n ∧ ∀ f ∈ F, Fetched n f
  seen : seenAlike n s

theorem Ahead.refl (s : State) : Ahead s s := ⟨⟨[], rfl, by simp⟩, fun _ _ _ => rfl⟩

theorem Fetched.near {f : RLine} (h : Fetched n f) (l : Loc) : Fetched (near n l) f := by
  have hh := (relined_near n l).hart
  refine ⟨h.clean, by rw [hh]; exact h.holder, h.aligned, ?_⟩
  rw [hh, copyOf_near]
  refine h.quiet.imp_right fun hq => ?_
  unfold Claim.near
  split
  · exact hq
  · split
    · split
      · exact hq
      · exact hq.settle _
    · exact hq

theorem copyOf_isSome_withLines (F : List RLine) {core a : Nat} (h : (n.copyOf core a).isSome = true) :
    ((withLines F n).copyOf core a).isSome = true := by
  obtain ⟨k, hk, hp⟩ := (copyOf_isSome_iff ..).1 h
  exact (copyOf_isSome_iff ..).2 ⟨k, List.mem_append_right _ hk, hp⟩

theorem waitedFor_withLines {F : List RLine} (hF : ∀ f ∈ F, f.dirty = []) (n : State) (hid a : Nat) :
    waitedFor (withLines F n) hid a = waitedFor n hid a := by
  have hno : ((F.filter fun l => l.line == a / 128 * 128).filter fun l => l.dirty.any fun d => d.hid == hid) = [] :=
    List.filter_eq_nil_iff.2 fun f hf => by simp [hF f (List.mem_filter.1 hf).1]
  unfold waitedFor withLines
  rw [List.filter_append, List.filter_append, hno, List.nil_append]

/-- Bytes that go out of a line of which nothing was fetched. -/
theorem settle_withLines {F : List RLine} {a : Nat} (hF : ∀ f ∈ F, f.dirty = []) (hline : ∀ f ∈ F, f.line ≠ a / 128 * 128) (n : State)
    (hid : Nat) : (withLines F n).settle hid a = withLines F (n.settle hid a) := by
  have hown := congrArg State.rcache (writeBacks_withLines (waitedFor n hid a) n n.rcache)
  have hsame : F.map (cleanedBy n (waitedFor n hid a)) = F :=
    (List.map_congr_left (g := id) fun f hf => (cleanedBy_parts n _ f).2.2.2 fun l hl =>
      by rw [waitedFor_line hl]; exact hline f hf).trans (List.map_id F)
  dsimp only at hown
  rw [settle_eq, settle_eq, waitedFor_withLines hF]
  unfold withLines
  rw [writeBacks_withLines, List.map_append, hsame, hown]

theorem alikeAt_withLines {F : List RLine} {line : Nat} (hF : ∀ f ∈ F, f.line ≠ line) (n : State) : AlikeAt line (withLines F n) n := by
  refine ⟨?_, fun _ _ => rfl, fun _ _ => rfl⟩
  have hno : (F.filter fun k => k.line == line) = [] := List.filter_eq_nil_iff.2 fun f hf => by simp [hF f hf]
  unfold withLines
  rw [List.filter_append, hno, List.nil_append]

theorem seen_settle_other (s : State) (hid : Nat) {a : Nat} {l : Loc} (hl : ∀ b, l = .phys b → b / 128 ≠ a / 128) (core h : Nat) :
    seen (s.settle hid a) core h l = seen s core h l := by
  cases l with
  | spad i => exact congrArg (Memory.read · i) (relined_settle s hid a).spad
  | phys b => exact (alikeAt_settle_other s hid (line := b / 128 * 128) fun he => hl b rfl (by omega)).seen core h

theorem seenAlike_settle {F : List RLine} {a : Nat} (hn : Safety.Sound n) (hline : ∀ f ∈ F, f.line ≠ a / 128 * 128)
    (h : seenAlike n (withLines F n)) (hid : Nat) : seenAlike (n.settle hid a) ((withLines F n).settle hid a) := by
  intro core h' m
  by_cases hm : ∃ b, m = .phys b ∧ b / 128 = a / 128
  · obtain ⟨b, rfl, hb⟩ := hm
    have hset := (alikeAt_withLines hline n).settle (show Safety.Sound (withLines F n) from hn) hn hid
    rw [← hb] at hset
    exact hset.seen core h'
  · have hoff : ∀ b, m = .phys b → b / 128 ≠ a / 128 := fun b hb he => hm ⟨b, hb, he⟩
    rw [seen_settle_other _ _ hoff, seen_settle_other _ _ hoff]
    exact h core h' m

/-- Where an access finds its location after reads, and without them. -/
theorem Ahead.near (h : Ahead n s) (hn : Safety.Sound n) (l : Loc) : Ahead (near n l) (near s l) := by
  by_cases hl : ∃ a, l = .phys a ∧ ∃ d o, targetOf a = .remote d o
  · obtain ⟨a, rfl, hr⟩ := hl
    obtain ⟨⟨F, rfl, hF⟩, hseen⟩ := h
    have hF' : ∀ f ∈ F, Fetched (Claim.near n (.phys a)) f := fun f hf => (hF f hf).near _
    have hplace : (withLines F n).hart = n.hart := rfl
    rw [near_remote hr] at hF' ⊢
    rw [near_remote hr, hplace]
    by_cases hc : (n.copyOf n.hart.place.core a).isSome = true
    · rw [if_pos hc, if_pos (copyOf_isSome_withLines F hc)]
      exact ⟨⟨F, rfl, hF⟩, hseen⟩
    rw [if_neg hc] at hF' ⊢
    by_cases hc' : ((withLines F n).copyOf n.hart.place.core a).isSome = true
    · -- a read has fetched the line: the hart has nothing left to send there
      obtain ⟨f, hf, hh, hl⟩ := (copyOf_isSome_iff ..).1 hc'
      have hfF : f ∈ F := (List.mem_append.1 hf).resolve_right fun hfn => hc ((copyOf_isSome_iff ..).2 ⟨f, hfn, hh, hl⟩)
      have hq : Quiet n n.hart.place.hid f.line := (hF f hfF).quiet.resolve_left fun hsome => hc (by
        rwa [copyOf_congr n _ _ a (by omega)] at hsome)
      rw [if_pos hc', settle_of_quiet (hl ▸ hq)]
      exact ⟨⟨F, rfl, hF⟩, hseen⟩
    · -- no line of the address stands near: it goes out in both states alike
      have hline : ∀ f ∈ F, f.line ≠ a / 128 * 128 := fun f hf hl =>
        hc' ((copyOf_isSome_iff ..).2 ⟨f, List.mem_append_left _ hf, (hF f hf).holder, hl⟩)
      rw [if_neg hc']
      exact ⟨⟨F, settle_withLines (fun f hf => (hF f hf).clean) hline n _, hF'⟩, seenAlike_settle hn hline hseen _⟩
  · have hsame (v : State) : Claim.near v l = v := by
      cases l with
      | spad i => rfl
      | phys a => exact near_local v a fun hr => hl ⟨a, rfl, hr⟩
    rwa [hsame, hsame]

/-- A read leaves its state ahead of the one in which it found its location. -/
theorem Ahead.read (h : Ahead n s) (hn : Safety.Sound n) {l : Loc} {va w v : Nat} (hs : seenAlike (Claim.near s l) t)
    (hread : s.readAt .cached l va w = .ok (v, t)) : Ahead (Claim.near n l) t := by
  obtain ⟨⟨F, hF, hfetched⟩, hseen⟩ := h.near hn l
  obtain ⟨G, hG, hfill⟩ := readAt_adds hread
  refine ⟨⟨G ++ F, ?_, fun f hf => ?_⟩, seenAlike.trans hseen hs⟩
  · rw [hG, hF]
    unfold withLines
    rw [List.append_assoc]
  · rcases List.mem_append.1 hf with hg | hf
    · obtain ⟨a, rfl, hr, hfill⟩ := hfill.resolve_left fun h0 => by rw [h0] at hg; cases hg
      have hh : (Claim.near s (.phys a)).hart = (Claim.near n (.phys a)).hart := by rw [hF]; rfl
      refine ⟨hfill.clean f hg, hh ▸ hfill.holder f hg, by rw [hfill.line f hg]; omega, ?_⟩
      rw [hfill.line f hg, near_remote hr]
      split
      · rename_i hc; rw [copyOf_congr n _ _ a (by omega)]; exact .inl hc
      · refine .inr fun k => ?_
        rw [(relined_settle ..).hart]
        exact quiet_settle n _ a k
    · exact hfetched f hf

/-! ### The words of a load -/

/-- A word that a load reads: its target takes the access (R148), and it holds no uncorrectable data. -/
def mayRead (s : State) (w : Nat) (p : Word × Loc) : Prop :=
  s.targetTakes s.hart.place.part .load p.2 p.1.toNat w true = .ok () ∧ readable s p.2 w

/-- The word at a location, each byte as the hart sees it under the open strip's own. -/
def wordIn (u : State) (w : Nat) (p : Word × Loc) : Nat :=
  (List.range w).foldr (fun k v => (ownByte u.strip? p.2 p.1.toNat k
    (seen (Claim.near u p.2) u.hart.place.core u.hart.place.hid (plus p.2 k))).toNat + 256 * v) 0

theorem wordAt_eq (u : State) (w : Nat) (a : Word) : wordAt u w a = wordIn u w (a, lies u .load w true a) := rfl

/-- When another device takes an access (R335, R371). -/
theorem targetTakes_remote {a d o : Nat} (e : targetOf a = .remote d o) (s : State) (p : Fin 8) (k : Access) (va w : Nat) (c : Bool) :
    s.targetTakes p k (.phys a) va w c = .ok () ↔ (d ≠ s.device.val ∧ s.inDomain d = true) ∧
      (s.turnedAway d a = false ∨ (c = true ∧ (s.copyOf s.hart.place.core a).isSome = true)) := by
  unfold State.targetTakes State.targetCheck
  simp only [e]
  generalize (s.copyOf s.hart.place.core a).isSome = near
  by_cases h : d = s.device.val ∨ (!s.inDomain d) = true
  · rw [if_pos h]
    refine ⟨fun h => (by cases h), fun h' => ?_⟩
    rcases h with h | h
    · exact absurd h h'.1.1
    · rw [h'.1.2] at h; cases h
  · rw [if_neg h]
    have hin : d ≠ s.device.val ∧ s.inDomain d = true := by simpa using h
    simp [hin, imp_iff_not_or]

theorem targetTakes_local {a : Nat} (hr : ¬ ∃ d o, targetOf a = .remote d o) (h : CopyOnly s t) (p : Fin 8) (k : Access) (va w : Nat)
    (c : Bool) : t.targetTakes p k (.phys a) va w c = s.targetTakes p k (.phys a) va w c := by
  obtain ⟨_, _, _, _, _, _, _, _, rfl⟩ := h
  unfold State.targetTakes State.targetCheck
  cases e : targetOf a with
  | remote d o => exact absurd ⟨d, o, e⟩ hr
  | hbm => simp only [e]; rfl
  | host => simp only [e]
  | nothing => simp only [e]

theorem turnedAway_copyOnly (h : CopyOnly s t) (d a : Nat) : t.turnedAway d a = s.turnedAway d a := by
  obtain ⟨_, _, _, _, _, _, _, _, rfl⟩ := h; rfl

/-- A target takes what it took, as long as copies that will do still stand near. -/
theorem targetTakes_kept (h : CopyOnly s t) {p : Fin 8} {k : Access} {l : Loc} {va w : Nat} {c : Bool}
    (hc : c = true → ∀ core a, (s.copyOf core a).isSome = true → (t.copyOf core a).isSome = true)
    (ht : s.targetTakes p k l va w c = .ok ()) : t.targetTakes p k l va w c = .ok () := by
  cases l with
  | spad i => rfl
  | phys a =>
    by_cases hr : ∃ d o, targetOf a = .remote d o
    · obtain ⟨d, o, e⟩ := hr
      rw [targetTakes_remote e] at ht ⊢
      obtain ⟨hin, hto⟩ := ht
      rw [turnedAway_copyOnly h, co_core h]
      exact ⟨by obtain ⟨_, _, _, _, _, _, _, _, rfl⟩ := h; exact hin, hto.imp_right fun hcp => ⟨hcp.1, hc hcp.1 _ _ hcp.2⟩⟩
    · rwa [targetTakes_local hr h]

theorem foldr_bytes_lt (f : Nat → Byte) (w : Nat) : (List.range w).foldr (fun k r => (f k).toNat + 256 * r) 0 < 2 ^ (8 * w) := by
  induction w generalizing f with
  | zero => simp
  | succ w ih =>
    rw [List.range_succ_eq_map, List.foldr_cons, List.foldr_map, Nat.mul_succ, Nat.pow_add]
    have hrest := ih fun k => f (k + 1)
    have hlow := (f 0).isLt
    generalize (List.range w).foldr (fun k r => (f k.succ).toNat + 256 * r) 0 = r at hrest ⊢
    omega

theorem eq_foldr_bytes (f : Nat → Byte) (w v : Nat) (hv : v < 2 ^ (8 * w)) (h : ∀ k < w, BitVec.ofNat 8 (v >>> (8 * k)) = f k) :
    v = (List.range w).foldr (fun k r => (f k).toNat + 256 * r) 0 := by
  induction w generalizing v f with
  | zero => simpa using hv
  | succ w ih =>
    rw [List.range_succ_eq_map, List.foldr_cons, List.foldr_map]
    have hrest := ih (fun k => f (k + 1)) (v / 256) (by rw [Nat.div_lt_iff_lt_mul (by norm_num)]; rwa [Nat.mul_succ, Nat.pow_add] at hv)
      fun k hk => by
        rw [← h (k + 1) (by omega), ← Nat.shiftRight_eq_div_pow v 8, ← Nat.shiftRight_add, Nat.mul_succ, Nat.add_comm]
    have hlow := congrArg BitVec.toNat (h 0 (by omega))
    rw [← hrest, ← hlow]
    simp
    omega

theorem wordIn_near (hs : Safety.Sound u) {w : Nat} (hw : w ∣ 8) {p : Word × Loc} (ha : ∀ a, p.2 = .phys a → a % w = 0) (m : Loc) :
    wordIn (Claim.near u m) w p = wordIn u w p := by
  have hh := (relined_near u m).hart
  have hstrip : (Claim.near u m).strip? = u.strip? := co_strip (co_near u m)
  unfold wordIn
  rw [hh, hstrip]
  exact List.foldr_ext _ _ _ fun k hk v => by rw [seen_near_near hs hw ha m (List.mem_range.1 hk)]

theorem laid_byte (s : State) (l : Loc) (va w v k : Nat) (hk : k < w) :
    BitVec.ofNat 8 (s.laid l va w v >>> (8 * k)) = ownByte s.strip? l va k (BitVec.ofNat 8 (v >>> (8 * k))) := by
  unfold State.laid
  cases s.strip? with
  | none => rfl
  | some st => exact byte_overlay st _ _ _ _ _ hk

theorem laid_lt (s : State) (l : Loc) (va w v : Nat) (hv : v < 2 ^ (8 * w)) : s.laid l va w v < 2 ^ (8 * w) := by
  unfold State.laid
  split
  · exact overlay_lt _ _ _ _ _ hv
  · exact hv

theorem wordIn_lt (u : State) (w : Nat) (p : Word × Loc) : wordIn u w p < 2 ^ (8 * w) := by
  exact foldr_bytes_lt _ w

/-- One word of a load after others. -/
theorem Ahead.readWord (h : Ahead n s) (hn : Safety.Sound n) {w : Nat} (hw : w ∣ 8) {p : Word × Loc} (ha : ∀ a, p.2 = .phys a → a % w = 0)
    (hp : mayRead s w p) : ∃ t, s.readElem w [p] = .ok ([wordIn n w p], t) ∧ Ahead (Claim.near n p.2) t ∧
      ∀ q, mayRead s w q → mayRead t w q := by
  obtain ⟨a, l⟩ := p
  obtain ⟨htake, hread⟩ := hp
  obtain ⟨v, t, hv, hbytes, hlt, hseen, ht⟩ := readAt_seen s l a.toNat w hw ha hread
  have hahead := h.read hn hseen hv
  have hrel := relined_readAt hv
  obtain ⟨F, hF, -⟩ := h.lines
  have hplace : s.hart = n.hart := by rw [hF]; rfl
  have hstrip : t.strip? = n.strip? := by
    unfold State.strip?; rw [hrel.hart, hplace]
  have hword : t.laid l a.toNat w v = wordIn n w (a, l) := by
    refine eq_foldr_bytes _ w _ (laid_lt _ _ _ _ _ hlt) fun k hk => ?_
    rw [laid_byte _ _ _ _ _ _ hk, hstrip, hbytes k hk, (h.near hn l).seen, hplace]
  obtain ⟨G, hG, hfill⟩ := readAt_adds hv
  refine ⟨t, ?_, hahead, fun q hq => ⟨?_, ?_⟩⟩
  · show (s.admitWords .load w true [(a, l)] >>= fun _ => s.readWords w [(a, l)]) = _
    have hadmit : s.admitWords .load w true [(a, l)] = .ok () := by
      show (s.targetTakes s.hart.place.part .load l a.toNat w true >>= fun _ => Except.ok ()) = _
      rw [htake]; rfl
    have hwords : s.readWords w [(a, l)] = .ok ([t.laid l a.toNat w v], t) := by
      show (s.readAt .cached l a.toNat w >>= fun r => _) = _
      rw [hv]; rfl
    rw [hadmit, ← hword]; exact hwords
  · rw [hrel.hart]
    refine targetTakes_kept (co_readAt hv) (fun _ core b hc => ?_) hq.1
    rw [hG]
    exact copyOf_isSome_withLines G (by rwa [copyOf_near])
  · have hnear := readable_near hq.2 l
    rw [hG]
    rcases hfill with rfl | ⟨b, rfl, hr, hfill⟩
    · exact hnear
    · exact hfill.readable hnear

/-- The words of a load, one element each, from number i on. -/
theorem Ahead.readElems (ps : List (Word × Loc)) (i : Nat) (h : Ahead n s) (hn : Safety.Sound n) {w : Nat} (hw : w ∣ 8)
    (ha : ∀ p ∈ ps, ∀ a, p.2 = .phys a → a % w = 0) (hp : ∀ p ∈ ps, mayRead s w p) :
    ∃ t, s.readElems w ((ps.zipIdx i).map fun e => (e.2, [e.1])) =
      ((ps.zipIdx i).map fun e => (e.2, [wordIn n w e.1]), t, none) ∧ Ahead (nearAll n (ps.map Prod.snd)) t := by
  induction ps generalizing n s i with
  | nil => exact ⟨s, rfl, h⟩
  | cons p ps ih =>
    obtain ⟨t, hread, hahead, hkeep⟩ := h.readWord hn hw (ha p (List.mem_cons_self ..)) (hp p (List.mem_cons_self ..))
    obtain ⟨r, hrest, hlast⟩ := ih (i + 1) hahead (sound_near hn p.2) (fun q hq => ha q (List.mem_cons_of_mem _ hq))
      fun q hq => hkeep q (hp q (List.mem_cons_of_mem _ hq))
    refine ⟨r, ?_, hlast⟩
    rw [List.zipIdx_cons, List.map_cons, List.map_cons, State.readElems, hread]
    dsimp only
    rw [hrest]
    congr 2
    exact List.map_congr_left fun e he => by rw [wordIn_near hn hw (ha _ (List.mem_cons_of_mem _ (List.fst_mem_of_mem_zipIdx he)))]

end Sys2Proof.Laws
end

section
/-! Stores that go through to memory, one after another (05 R110, 08 R163, 13 R265): what each leaves, and what all of them do. -/

namespace Sys2Proof.Laws

set_option Elab.async false

open Sys2Proof Sys2Proof.Machine Sys2Proof.Claim

variable {s t u : State}

/-! ### The byte that stands at a location -/

/-- The byte at a location's coherence point. -/
def stands (s : State) : Loc → Byte
  | .phys a => Memory.read s.mem a
  | .spad i => Memory.read s.spad i

theorem seen_near_by {m : Loc} (hm : ¬ faraway m) (s : State) (core hid : Nat) : seen s core hid m = stands s m := by
  cases m with
  | spad i => rfl
  | phys a => exact seen_local hm

theorem stands_writeLoc (hs : Safety.Sound s) (l : Loc) (n v : Nat) :
    (∀ k < n, stands (s.writeLoc l n v) (plus l k) = BitVec.ofNat 8 (v >>> (8 * k))) ∧
      ∀ m, (∀ k < n, m ≠ plus l k) → stands (s.writeLoc l n v) m = stands s m := by
  cases l with
  | phys a =>
    refine ⟨fun k hk => (Memory.read_writeN hs.mem_wf a n v k hk).trans (by rw [div256]), fun m hm => ?_⟩
    cases m with
    | spad i => rfl
    | phys b =>
      refine Memory.read_writeN_other _ _ _ _ (by_contra fun hc => hm (b - a) (by omega) ?_)
      exact congrArg Loc.phys (by omega)
  | spad i =>
    refine ⟨fun k hk => (Memory.read_writeN hs.spad_wf i n v k hk).trans (by rw [div256]), fun m hm => ?_⟩
    cases m with
    | phys a => rfl
    | spad j =>
      refine Memory.read_writeN_other _ _ _ _ (by_contra fun hc => hm (j - i) (by omega) ?_)
      exact congrArg Loc.spad (by omega)

/-! ### Copies of a line written through -/

/-- What a store of n bytes through to memory makes of a cached line. -/
def throughLine (line hid off va n v : Nat) (k : RLine) : RLine :=
  if k.line = line then
    { k with dirty := k.dirty.filter fun d => !d.under hid off n none, poison := unpoison k.poison (line + off) n
             data := (dirtyBytes off hid va n v none).foldl (fun v d => d.over v) k.data }
  else k

theorem writeThrough_remote {a : Nat} (hr : ∃ d o, targetOf a = .remote d o) (s : State) (va n v : Nat) :
    s.writeAt .through (.phys a) va n v = { s.writeLoc (.phys a) n v with
      rcache := s.rcache.map (throughLine (a / 128 * 128) s.hart.place.hid (a % 128) va n v) } := by
  obtain ⟨d, o, e⟩ := hr
  have ho : a - a / 128 * 128 = a % 128 := by omega
  unfold State.writeAt State.writeOver
  simp only [e]
  unfold State.withOlder State.refresh State.forget State.putLoc
  dsimp only
  rw [ho, List.map_map]
  congr 1
  refine List.map_congr_left fun k _ => ?_
  unfold throughLine Function.comp
  by_cases h : k.line = a / 128 * 128 <;> simp [h]

theorem writeThrough_local {l : Loc} (hl : ¬ faraway l) (s : State) (va n v : Nat) : s.writeAt .through l va n v = s.writeLoc l n v := by
  cases l with
  | spad i => rfl
  | phys a =>
    unfold State.writeAt State.writeOver
    cases e : targetOf a with
    | remote d o => exact absurd ⟨d, o, e⟩ hl
    | _ => simp only [e]; rfl

theorem under_absent {ds : List Dirty} {k : Nat} (h : ∀ d ∈ ds, d.off ≠ k) (b : Byte) : under ds k b = b := by
  rw [under_filter, List.filter_eq_nil_iff.2 fun d hd => by simpa using h d hd]
  rfl

theorem under_dirtyBytes (off hid va n v k : Nat) (b : Byte) : under (dirtyBytes off hid va n v none) k b =
    if off ≤ k ∧ k < off + n then BitVec.ofNat 8 (v >>> (8 * (k - off))) else b := by
  unfold dirtyBytes
  split
  · rename_i hk
    refine under_all _ _ _ _ (fun d hd hdk => ?_) ⟨_, List.mem_map.2 ⟨k - off, List.mem_range.2 (by omega), rfl⟩, by dsimp only; omega⟩
    obtain ⟨i, -, rfl⟩ := List.mem_map.1 hd
    dsimp only at hdk ⊢
    rw [div256, ← hdk, Nat.add_sub_cancel_left]
    exact ⟨rfl, rfl⟩
  · rename_i hk
    refine under_absent (fun d hd => ?_) b
    obtain ⟨i, hi, rfl⟩ := List.mem_map.1 hd
    have := List.mem_range.1 hi
    dsimp only
    omega

theorem throughLine_place (line hid off va n v : Nat) (k : RLine) :
    (throughLine line hid off va n v k).holder = k.holder ∧ (throughLine line hid off va n v k).line = k.line := by
  unfold throughLine; split <;> exact ⟨rfl, rfl⟩

/-- A byte of a copy after a store through to memory. -/
theorem throughLine_byte (line hid off va n v : Nat) (k : RLine) (j : Nat) :
    BitVec.ofNat 8 ((throughLine line hid off va n v k).data >>> (8 * j)) =
      if k.line = line ∧ off ≤ j ∧ j < off + n then BitVec.ofNat 8 (v >>> (8 * (j - off))) else BitVec.ofNat 8 (k.data >>> (8 * j)) := by
  unfold throughLine
  by_cases h : k.line = line
  · rw [if_pos h]
    dsimp only
    rw [byte_overs, under_dirtyBytes]
    simp [h]
  · rw [if_neg h, if_neg fun hc => h hc.1]

/-- What a hart has written and not sent, after a store of its own or of another through to memory: the bytes stored are forgotten. -/
theorem ownBytes_through {line hid off va n v : Nat} (ht : t.rcache = s.rcache.map (throughLine line hid off va n v)) (h lb j : Nat) :
    ((t.ownBytes h lb).filter fun d => d.off == j) =
      if lb = line ∧ h = hid ∧ off ≤ j ∧ j < off + n then [] else (s.ownBytes h lb).filter fun d => d.off == j := by
  have hmap : t.ownBytes h lb =
      (s.rcache.filter fun l => l.line == lb).flatMap fun l => (throughLine line hid off va n v l).dirty.filter fun d => d.hid == h := by
    unfold State.ownBytes
    rw [ht, filter_map_line _ _ (fun k => (throughLine_place line hid off va n v k).2), List.flatMap_map]
  rw [hmap, List.filter_flatMap]
  unfold State.ownBytes
  rw [List.filter_flatMap]
  have hline {l : RLine} (hl : l ∈ s.rcache.filter fun l => l.line == lb) : l.line = lb := by simpa using (List.mem_filter.1 hl).2
  split
  · rename_i hc
    obtain ⟨rfl, rfl, hj⟩ := hc
    refine List.flatMap_eq_nil_iff.2 fun l hl => ?_
    unfold throughLine
    rw [if_pos (hline hl), List.filter_filter, List.filter_filter]
    refine List.filter_eq_nil_iff.2 fun d _ => ?_
    simp [Dirty.under]
    omega
  · rename_i hc
    refine List.flatMap_congr fun l hl => ?_
    unfold throughLine
    by_cases he : l.line = line
    · rw [if_pos he, List.filter_filter, List.filter_filter, List.filter_filter]
      refine List.filter_congr fun d _ => ?_
      have := hline hl
      by_cases hd : d.off = j ∧ d.hid = h
      · have hno : d.under hid off n none = false := by
          simp [Dirty.under]
          intro h1 h2
          by_contra h3
          exact hc ⟨this.symm.trans he, hd.2.symm.trans h1, by omega, by omega⟩
        simp [hd, hno]
      · have : (d.off == j && d.hid == h) = false := by simpa using hd
        simp [this]
    · rw [if_neg he]

/-! ### One store -/

/-- The byte that a core reads in a line, after a store through to memory. -/
theorem lineByte_through {a n va v : Nat} (hs : Safety.Sound s) (hn : n ∣ 8) (ha : a % n = 0) (hr : ∃ d o, targetOf a = .remote d o)
    (core b : Nat) : lineByte (s.writeAt .through (.phys a) va n v) core b =
      if a ≤ b ∧ b < a + n then BitVec.ofNat 8 (v >>> (8 * (b - a))) else lineByte s core b := by
  obtain ⟨hin, hout⟩ := stands_writeLoc hs (.phys a) n v
  have hmem : Memory.read (s.writeAt .through (.phys a) va n v).mem b =
      if a ≤ b ∧ b < a + n then BitVec.ofNat 8 (v >>> (8 * (b - a))) else Memory.read s.mem b := by
    rw [writeThrough_remote hr]
    split
    · rename_i hc
      have hb : a + (b - a) = b := by omega
      have hst := hin (b - a) (by omega)
      rw [show plus (.phys a) (b - a) = .phys b from congrArg Loc.phys hb] at hst
      exact hst
    · rename_i hc
      refine hout (.phys b) fun k hk he => hc ?_
      injection he with he
      omega
  have hcopy := copyOf_map (throughLine_place (a / 128 * 128) s.hart.place.hid (a % 128) va n v)
    (congrArg State.rcache (writeThrough_remote hr s va n v)) core b
  unfold lineByte
  rw [hcopy, hmem]
  cases hk : s.copyOf core b with
  | none => rfl
  | some k =>
    simp only [Option.map_some, Option.getD_some]
    rw [throughLine_byte, copyOf_line hk]
    have hsame : (b / 128 * 128 = a / 128 * 128 ∧ a % 128 ≤ b % 128 ∧ b % 128 < a % 128 + n) ↔ (a ≤ b ∧ b < a + n) := by
      constructor
      · omega
      · intro hc
        have hline := div128 a n (b - a) hn ha (by omega)
        have hb : a + (b - a) = b := by omega
        rw [hb] at hline
        omega
    by_cases hc : a ≤ b ∧ b < a + n
    · rw [if_pos hc, if_pos (hsame.2 hc)]
      congr 3
      have := (hsame.2 hc).1
      omega
    · rw [if_neg hc, if_neg fun h => hc (hsame.1 h)]

/-- What a store of n bytes through to memory leaves: the bytes stored stand there and its hart sees them, on every core; every
other byte is as before, to every hart. -/
structure Through (s t : State) (l : Loc) (n v : Nat) : Prop where
  stored : ∀ k < n, stands t (plus l k) = BitVec.ofNat 8 (v >>> (8 * k))
  other : ∀ m, (∀ k < n, m ≠ plus l k) → stands t m = stands s m
  seen : ∀ core, ∀ k < n, seen t core s.hart.place.hid (plus l k) = BitVec.ofNat 8 (v >>> (8 * k))
  seenOther : ∀ core hid m, (∀ k < n, m ≠ plus l k) → Claim.seen t core hid m = Claim.seen s core hid m
  parts : ∃ mem spad poison spadPoison rcache,
    t = { s with mem := mem, spad := spad, poison := poison, spadPoison := spadPoison, rcache := rcache }

theorem writeThrough_says (hs : Safety.Sound s) {l : Loc} (va : Nat) {n : Nat} (v : Nat) (hn : n ∣ 8) (ha : ∀ a, l = .phys a → a % n = 0) :
    Through s (s.writeAt .through l va n v) l n v := by
  obtain ⟨hin, hout⟩ := stands_writeLoc hs l n v
  by_cases hl : faraway l
  · cases l with
    | spad i => exact absurd hl id
    | phys a =>
      have hw := writeThrough_remote hl s va n v
      have hstands : ∀ m, stands (s.writeAt .through (.phys a) va n v) m = stands (s.writeLoc (.phys a) n v) m := fun m => by
        rw [hw]; cases m <;> rfl
      have hown := ownBytes_through (congrArg State.rcache hw)
      have haway {b : Nat} {k : Nat} (hk : k < n) (hb : b = a + k) : (∃ d o, targetOf b = .remote d o) ∧ b / 128 = a / 128 :=
        hb ▸ ⟨(remote_plus a n k hn (ha a rfl) hk).2 hl, div128 a n k hn (ha a rfl) hk⟩
      refine ⟨fun k hk => (hstands _).trans (hin k hk), fun m hm => (hstands _).trans (hout m hm), fun core k hk => ?_,
        fun core hid m hm => ?_, ⟨_, _, _, _, _, hw⟩⟩
      · obtain ⟨hr, hline⟩ := haway hk rfl
        show Claim.seen _ core s.hart.place.hid (.phys (a + k)) = _
        rw [seen_remote_byte hr, hown, if_pos ⟨by rw [hline], rfl, by omega, by omega⟩, lineByte_through hs hn (ha a rfl) hl,
          if_pos ⟨by omega, by omega⟩, Nat.add_sub_cancel_left]
        rfl
      · by_cases hm' : faraway m
        · cases m with
          | spad i => exact absurd hm' id
          | phys b =>
            have hno : ¬ (a ≤ b ∧ b < a + n) := fun hc => hm (b - a) (by omega) (congrArg Loc.phys (by omega))
            rw [seen_remote_byte hm', seen_remote_byte hm', hown, if_neg (fun hc => hno (by omega)),
              lineByte_through hs hn (ha a rfl) hl, if_neg hno]
        · rw [seen_near_by hm', seen_near_by hm', hstands, hout m hm]
  · have hw := writeThrough_local hl s va n v
    rw [hw]
    refine ⟨hin, hout, fun core k hk => ?_, fun core hid m hm => ?_, ?_⟩
    · have hnear : ¬ faraway (plus l k) := by
        cases l with
        | spad i => exact id
        | phys a => exact fun h => hl ((remote_plus a n k hn (ha a rfl) hk).1 h)
      rw [seen_near_by hnear, hin k hk]
    · cases m with
      | spad i => exact hout _ hm
      | phys b =>
        have hlines : (s.writeLoc l n v).rcache = s.rcache := by cases l <;> rfl
        have hmem : Memory.read (s.writeLoc l n v).mem b = Memory.read s.mem b := hout (.phys b) hm
        have hcopy : (s.writeLoc l n v).copyOf core b = s.copyOf core b := by unfold State.copyOf State.lineOf; rw [hlines]
        by_cases hr : ∃ d o, targetOf b = .remote d o
        · have hown : (s.writeLoc l n v).ownBytes hid (b / 128 * 128) = s.ownBytes hid (b / 128 * 128) := by
            unfold State.ownBytes; rw [hlines]
          have hbyte : lineByte (s.writeLoc l n v) core b = lineByte s core b := by unfold lineByte; rw [hcopy, hmem]
          rw [seen_remote_byte hr, seen_remote_byte hr, hown, hbyte]
        · rw [seen_local hr, seen_local hr, hmem]
    · cases l <;> exact ⟨_, _, _, _, _, rfl⟩

/-! ### Stores one after another -/

theorem plus_inj (l : Loc) {j k : Nat} (h : plus l j = plus l k) : j = k := by
  cases l <;> injection h with h <;> exact Nat.add_left_cancel h

theorem byte_plus (w : Write) {k : Nat} (hk : k < w.n) : w.byte (plus w.loc k) = some (BitVec.ofNat 8 (w.v >>> (8 * k))) := by
  unfold Write.byte
  cases hf : (List.range w.n).find? fun j => plus w.loc j == plus w.loc k with
  | none => exact absurd (List.find?_eq_none.1 hf k (List.mem_range.2 hk)) (by simp)
  | some j =>
    have hj : plus w.loc j = plus w.loc k := by simpa using List.find?_some hf
    rw [plus_inj _ hj]; rfl

theorem byte_eq_none (w : Write) (m : Loc) : w.byte m = none ↔ ∀ k < w.n, m ≠ plus w.loc k := by
  unfold Write.byte
  rw [Option.map_eq_none_iff, List.find?_eq_none]
  constructor
  · intro h k hk he
    exact h k (List.mem_range.2 hk) (beq_iff_eq.2 he.symm)
  · intro h k hk he
    exact h k (List.mem_range.1 hk) (beq_iff_eq.1 he).symm

/-- A location is one of those that a write covers, or none of them. -/
theorem byte_cases (w : Write) (m : Loc) : w.byte m = none ∨ ∃ k < w.n, m = plus w.loc k := by
  by_cases h : ∃ k < w.n, m = plus w.loc k
  · exact .inr h
  · exact .inl ((byte_eq_none w m).2 fun k hk he => h ⟨k, hk, he⟩)

/-- What some whole stores that go through leave, one after another. -/
structure Wrote (s t : State) (ws : List Write) : Prop where
  stands : ∀ m, stands t m = rewritten ws m (Laws.stands s m)
  seen : ∀ core m, seen t core s.hart.place.hid m = rewritten ws m (Claim.seen s core s.hart.place.hid m)
  seenOther : ∀ core hid m, (∀ w ∈ ws, w.byte m = none) → Claim.seen t core hid m = Claim.seen s core hid m
  parts : ∃ mem spad poison spadPoison rcache,
    t = { s with mem := mem, spad := spad, poison := poison, spadPoison := spadPoison, rcache := rcache }

theorem Wrote.refl (s : State) : Wrote s s [] := ⟨fun _ => rfl, fun _ _ => rfl, fun _ _ _ _ => rfl, ⟨_, _, _, _, _, rfl⟩⟩

theorem rewritten_one {w : Write} (hw : w.half = none) (m : Loc) (b : Byte) : rewritten [w] m b = (w.byte m).getD b := by
  show (match w.byte m with | some x => mergeHalf b x w.half | none => b) = _
  rw [hw]
  cases w.byte m <;> rfl

theorem Through.wrote {w : Write} (h : Through s t w.loc w.n w.v) (hw : w.half = none) : Wrote s t [w] := by
  refine ⟨fun m => ?_, fun core m => ?_, fun core hid m hm => ?_, h.parts⟩
  · rw [rewritten_one hw]
    rcases byte_cases w m with hm | ⟨k, hk, rfl⟩
    · rw [hm]; exact h.other m ((byte_eq_none w m).1 hm)
    · rw [byte_plus w hk]; exact h.stored k hk
  · rw [rewritten_one hw]
    rcases byte_cases w m with hm | ⟨k, hk, rfl⟩
    · rw [hm]; exact h.seenOther core _ m ((byte_eq_none w m).1 hm)
    · rw [byte_plus w hk]; exact h.seen core k hk
  · exact h.seenOther core hid m ((byte_eq_none w m).1 (hm w (List.mem_cons_self ..)))

theorem Wrote.hart {ws : List Write} (h : Wrote s t ws) : t.hart = s.hart := by
  obtain ⟨_, _, _, _, _, rfl⟩ := h.parts; rfl

theorem Wrote.append {ws vs : List Write} (h : Wrote s t ws) (g : Wrote t u vs) : Wrote s u (ws ++ vs) := by
  refine ⟨fun m => ?_, fun core m => ?_, fun core hid m hm => ?_, ?_⟩
  · rw [g.stands, h.stands]; exact (List.foldl_append ..).symm
  · have hseen := g.seen core m
    rw [h.hart, h.seen] at hseen
    exact hseen.trans (List.foldl_append ..).symm
  · rw [g.seenOther _ _ _ fun w hw => hm w (List.mem_append_right _ hw), h.seenOther _ _ _ fun w hw => hm w (List.mem_append_left _ hw)]
  · obtain ⟨_, _, _, _, _, rfl⟩ := h.parts
    obtain ⟨_, _, _, _, _, rfl⟩ := g.parts
    exact ⟨_, _, _, _, _, rfl⟩

/-- Every whole write that covers a byte replaces it. -/
theorem rewritten_covered {ws : List Write} (hws : ∀ w ∈ ws, w.half = none) {m : Loc}
    (hm : ∃ w ∈ ws, (w.byte m).isSome = true) (b c : Byte) : rewritten ws m b = rewritten ws m c := by
  induction ws generalizing b c with
  | nil => obtain ⟨w, hw, -⟩ := hm; cases hw
  | cons w ws ih =>
    have hsplit (x : Byte) : rewritten (w :: ws) m x = rewritten ws m ((w.byte m).getD x) := by
      rw [← rewritten_one (hws w (List.mem_cons_self ..))]; rfl
    rw [hsplit, hsplit]
    by_cases hrest : ∃ v ∈ ws, (v.byte m).isSome = true
    · exact ih (fun v hv => hws v (List.mem_cons_of_mem _ hv)) hrest _ _
    · obtain ⟨v, hv, hsome⟩ := hm
      rcases List.mem_cons.1 hv with rfl | hv
      · obtain ⟨x, hx⟩ := Option.isSome_iff_exists.1 hsome
        rw [hx]; rfl
      · exact absurd ⟨v, hv, hsome⟩ hrest

theorem rewritten_uncovered {ws : List Write} {m : Loc} (hm : ∀ w ∈ ws, w.byte m = none) (b : Byte) : rewritten ws m b = b := by
  induction ws with
  | nil => rfl
  | cons w ws ih =>
    have hsplit : rewritten (w :: ws) m b = rewritten ws m b := by
      show rewritten ws m (match w.byte m with | some x => mergeHalf b x w.half | none => b) = _
      rw [hm w (List.mem_cons_self ..)]
    rw [hsplit]
    exact ih fun v hv => hm v (List.mem_cons_of_mem _ hv)

theorem foldl_through {ws : List Write} (hws : ∀ w ∈ ws, w.through = true) (u : State) :
    ws.foldl (fun r w => if w.through then r else near r w.loc) u = u := by
  induction ws with
  | nil => rfl
  | cons w ws ih =>
    rw [List.foldl_cons, if_pos (hws w (List.mem_cons_self ..))]
    exact ih fun v hv => hws v (List.mem_cons_of_mem _ hv)

theorem isSome_byte_false {w : Write} {m : Loc} (h : ¬ (w.byte m).isSome = true) : w.byte m = none := by simpa using h

/-- Whole stores that go through to memory outside a strip, as the obligations put them. -/
theorem Wrote.storedAll {ws : List Write} (h : Wrote s t ws) (hws : ∀ w ∈ ws, w.half = none ∧ w.through = true) (hs : s.strip? = none) :
    storedAll s t ws := by
  have hhalf := fun w hw => (hws w hw).1
  have hthrough := fun w hw => (hws w hw).2
  unfold Claim.storedAll
  dsimp only
  rw [foldl_through hthrough]
  have hcov {m : Loc} (hm : ∀ w ∈ ws, (w.byte m).isSome = true → w.through = false) : ∀ w ∈ ws, w.byte m = none := fun w hw =>
    isSome_byte_false fun hsome => absurd (hm w hw hsome) (by rw [hthrough w hw]; simp)
  refine ⟨fun _ => ⟨h.seen, fun core hid m hm => ?_, fun core hid m hm => ?_, fun b hb => ?_, fun b core w hw hsome _ => ?_,
    fun b hb => ?_, by rw [h.hart]⟩, fun st hst => (by rw [hs] at hst; cases hst)⟩
  · rw [seen_near_by hm, seen_near_by hm]; exact h.stands m
  · exact h.seenOther core hid m (hm.elim (fun hm => hcov hm.1) id)
  · exact (h.stands (.phys b)).trans (rewritten_uncovered (hcov fun w hw hsome => (hb w hw hsome).1) _)
  · rw [hhalf w hw]
    show Claim.seen t core s.hart.place.hid (.phys b) = Laws.stands t (.phys b)
    rw [h.seen, h.stands]
    exact rewritten_covered hhalf ⟨w, hw, hsome⟩ _ _
  · exact (h.stands (.spad b)).trans (rewritten_uncovered hb _)

/-! ### The words of a store -/

/-- A word of a store: its target takes the access through to memory (R148), and outside a strip no live barrier word stands there. -/
def mayWrite (s : State) (w : Nat) (p : Word × Loc) : Prop :=
  s.targetTakes s.hart.place.part .store p.2 p.1.toNat w false = .ok () ∧ (s.strip? = none → s.liveWord p.2 = false)

/-- The writes of some words that go through, with the values of their numbers. -/
def throughWrites (w : Nat) (val : Nat → Nat) (es : List ((Word × Loc) × Nat)) : List Write :=
  es.map fun e => { va := e.1.1, loc := e.1.2, n := w, v := val e.2, through := true }

theorem throughWrites_whole {w : Nat} {val : Nat → Nat} {es : List ((Word × Loc) × Nat)} :
    ∀ x ∈ throughWrites w val es, x.half = none ∧ x.through = true := by
  intro x hx
  obtain ⟨e, -, rfl⟩ := List.mem_map.1 hx
  exact ⟨rfl, rfl⟩

theorem writeElem_one {w v : Nat} {p : Word × Loc} (h : mayWrite s w p) : s.writeElem .through w none [p] [v] =
    s.put .through none p.2 p.1.toNat w v none := by
  obtain ⟨a, l⟩ := p
  have hadmit : s.admitWords .store w (Route.through == .cached) [(a, l)] = .ok () := by
    show (s.targetTakes s.hart.place.part .store l a.toNat w false >>= fun _ => Except.ok ()) = _
    rw [h.1]; rfl
  show (s.admitWords .store w (Route.through == .cached) [(a, l)] >>= fun _ => s.storeWords .through w none [(a, l)] [v]) = _
  rw [hadmit]
  show (s.put .through none l a.toNat w v none >>= fun t => t.storeWords .through w none [] []) = _
  cases s.put .through none l a.toNat w v none <;> rfl

/-- Parts that a store leaves decide whether the next one may be made. -/
theorem mayWrite_kept (h : CopyOnly s t) (hz : t.zones = s.zones) (hb : t.barriers = s.barriers) {w : Nat} {p : Word × Loc}
    (hp : mayWrite s w p) : mayWrite t w p := by
  refine ⟨?_, fun hst => ?_⟩
  · rw [co_core h]; exact targetTakes_kept h (fun hc => by cases hc) hp.1
  · have hlive := hp.2 ((co_strip h).symm.trans hst)
    unfold State.liveWord at hlive ⊢
    rwa [hz, hb]

/-- The words of a store outside a strip (R110). -/
theorem writeElems_through (ps : List (Word × Loc)) (i : Nat) (hs : Safety.Sound s) {w : Nat} (hw : w ∣ 8) (hst : s.strip? = none)
    (ha : ∀ p ∈ ps, ∀ a, p.2 = .phys a → a % w = 0) (hp : ∀ p ∈ ps, mayWrite s w p) (val : Nat → Nat) :
    ∃ t, s.writeElems .through w (fun _ => none) (fun k => [val k]) ((ps.zipIdx i).map fun e => (e.2, [e.1])) = (t, none) ∧
      Wrote s t (throughWrites w val (ps.zipIdx i)) := by
  induction ps generalizing s i with
  | nil => exact ⟨s, rfl, .refl s⟩
  | cons p ps ih =>
    have hfirst := hp p (List.mem_cons_self ..)
    have hput : s.put .through none p.2 p.1.toNat w (val i) none = .ok (s.writeAt .through p.2 p.1.toNat w (val i)) := by
      unfold State.put
      rw [hst]
      exact if_neg (by rw [hfirst.2 hst]; exact Bool.false_ne_true)
    have hone := writeThrough_says hs p.1.toNat (val i) hw (ha p (List.mem_cons_self ..))
    have hco := co_writeAt s .through p.2 p.1.toNat w (val i)
    obtain ⟨mem, spad, poison, spadPoison, rcache, hparts⟩ := hone.parts
    obtain ⟨t, hrest, hwrote⟩ := ih (i + 1) (sound_writeAt hs _ _ _ _ _) ((co_strip hco).trans hst)
      (fun q hq => ha q (List.mem_cons_of_mem _ hq))
      fun q hq => mayWrite_kept hco (by rw [hparts]) (by rw [hparts]) (hp q (List.mem_cons_of_mem _ hq))
    have hstep : Wrote s _ [{ va := p.1, loc := p.2, n := w, v := val i, through := true }] := Through.wrote hone rfl
    refine ⟨t, ?_, hstep.append hwrote⟩
    rw [List.zipIdx_cons, List.map_cons, State.writeElems, writeElem_one hfirst, hput]
    exact hrest

/-! ### The words of a store in a strip -/

/-- The records of some writes in a strip's buffer. -/
def recorded (new : List StripRec) (ws : List Write) : Prop :=
  new.map (fun r => (r.addr, 2 ^ r.size, r.rel, r.data, r.half, r.pin)) =
    ws.map fun w => (w.va.toNat, w.n, none, w.v % 2 ^ (8 * w.n), w.half, w.loc.phys?)

theorem stripBytes_eq (recs : List StripRec) : stripBytes recs = (recs.map fun r => 2 ^ r.size).sum := by
  have key (n : Nat) : recs.foldl (fun n r => n + 2 ^ r.size) n = n + (recs.map fun r => 2 ^ r.size).sum := by
    induction recs generalizing n with
    | nil => rfl
    | cons r recs ih => rw [List.foldl_cons, ih, List.map_cons, List.sum_cons, Nat.add_assoc]
  exact (key 0).trans (Nat.zero_add _)

/-- The state with an open strip of these records. -/
def buffering (s : State) (st : Strip) (recs : List StripRec) : State :=
  { s with hart := { s.hart with strip := some { st with recs := recs } } }

theorem strip_some {st : Strip} (hst : s.strip? = some st) : s.hart.strip = some st ∧ st.level = s.hart.priv.level := by
  unfold State.strip? at hst
  split at hst
  · rename_i k hk
    split at hst
    · rename_i hl
      cases hst
      exact ⟨hk, hl⟩
    · cases hst
  · cases hst

theorem strip_buffering {st : Strip} (hst : s.strip? = some st) (recs : List StripRec) :
    (buffering s st recs).strip? = some { st with recs := recs } := by
  exact if_pos (strip_some hst).2

theorem mayWrite_buffering {st : Strip} (hst : s.strip? = some st) (recs : List StripRec) {w : Nat} {p : Word × Loc}
    (hp : mayWrite s w p) : mayWrite (buffering s st recs) w p := by
  refine ⟨?_, fun h => by rw [strip_buffering hst] at h; cases h⟩
  obtain ⟨a, l⟩ := p
  cases l with
  | spad i => rfl
  | phys b => exact hp.1

theorem two_pow_log2 {w : Nat} (hw : w ∣ 8) : 2 ^ w.log2 = w := by
  obtain ⟨k, -, rfl⟩ := (Nat.dvd_prime_pow Nat.prime_two).1 (show w ∣ 2 ^ 3 from hw)
  rw [Nat.log2_two_pow]

/-- The words of a store in an open strip stand last in its buffer, in their order (R265). -/
theorem writeElems_buffered (ps : List (Word × Loc)) (i : Nat) {st : Strip} (hst : s.strip? = some st) {w : Nat} (hw : w ∣ 8)
    (hp : ∀ p ∈ ps, mayWrite s w p) (val : Nat → Nat)
    (hroom : stripBytes st.recs + ps.length * w ≤ 65536) :
    ∃ new, s.writeElems .through w (fun _ => none) (fun k => [val k]) ((ps.zipIdx i).map fun e => (e.2, [e.1])) =
      (buffering s st (st.recs ++ new), none) ∧ recorded new (throughWrites w val (ps.zipIdx i)) := by
  induction ps generalizing s i st with
  | nil =>
    have hsame : buffering s st (st.recs ++ []) = s := by
      unfold buffering
      rw [List.append_nil]
      show { s with hart := { s.hart with strip := some st } } = s
      rw [← (strip_some hst).1]
    exact ⟨[], by rw [hsame]; rfl, rfl⟩
  | cons p ps ih =>
    have hfirst := hp p (List.mem_cons_self ..)
    have hpow := two_pow_log2 hw
    let r := s.stripRec none p.2 p.1.toNat w (val i) none
    have hput : s.put .through none p.2 p.1.toNat w (val i) none = .ok (buffering s st (st.recs ++ [r])) := by
      unfold State.put
      rw [hst]
      refine if_neg ?_
      rw [List.length_cons, Nat.succ_mul] at hroom
      omega
    have hroom' : stripBytes (st.recs ++ [r]) + ps.length * w ≤ 65536 := by
      have hr : stripBytes (st.recs ++ [r]) = stripBytes st.recs + w := by
        rw [stripBytes_eq, List.map_append, List.sum_append, ← stripBytes_eq, List.map_singleton, List.sum_singleton]
        exact congrArg _ hpow
      rw [List.length_cons, Nat.succ_mul] at hroom
      omega
    obtain ⟨new, hrest, hnew⟩ := ih (i + 1) (strip_buffering hst (st.recs ++ [r]))
      (fun q hq => mayWrite_buffering hst _ (hp q (List.mem_cons_of_mem _ hq))) hroom'
    refine ⟨r :: new, ?_, ?_⟩
    · rw [List.zipIdx_cons, List.map_cons, State.writeElems, writeElem_one hfirst, hput]
      refine hrest.trans ?_
      rw [List.append_assoc]; rfl
    · exact congrArg₂ List.cons (Prod.ext rfl (Prod.ext hpow rfl)) hnew

theorem storedAll_buffering {st : Strip} (hst : s.strip? = some st) {new : List StripRec} {ws : List Write} (h : recorded new ws) :
    storedAll s (buffering s st (st.recs ++ new)) ws := by
  refine ⟨fun hno => (by rw [hst] at hno; cases hno), fun k hk => ?_⟩
  rw [hst] at hk
  cases hk
  refine ⟨⟨fun _ => rfl, fun _ => rfl⟩, rfl, rfl, rfl, new, rfl, ?_⟩
  rw [h]
  exact List.map_congr_left fun w _ => by cases w.loc <;> rfl

/-- The words of a store that goes through to memory, in a strip and outside one: they are stored, and nothing else is done. -/
theorem writeElems_says (ps : List (Word × Loc)) (hs : Safety.Sound s) {w : Nat} (hw : w ∣ 8)
    (ha : ∀ p ∈ ps, ∀ a, p.2 = .phys a → a % w = 0) (hp : ∀ p ∈ ps, mayWrite s w p) (val : Nat → Nat)
    (hroom : roomFor s (throughWrites w val ps.zipIdx)) :
    ∃ t, s.writeElems .through w (fun _ => none) (fun k => [val k]) (ps.zipIdx.map fun e => (e.2, [e.1])) = (t, none) ∧
      storedAll s t (throughWrites w val ps.zipIdx) ∧
      t = { s with mem := t.mem, spad := t.spad, poison := t.poison, spadPoison := t.spadPoison, rcache := t.rcache
                   hart := { s.hart with strip := t.hart.strip } } := by
  cases hst : s.strip? with
  | none =>
    obtain ⟨t, hexec, ht⟩ := writeElems_through ps 0 hs hw hst ha hp val
    refine ⟨t, hexec, ht.storedAll throughWrites_whole hst, ?_⟩
    obtain ⟨_, _, _, _, _, rfl⟩ := ht.parts
    rfl
  | some st =>
    have hsum : ((throughWrites w val ps.zipIdx).map Write.n).sum = ps.length * w := by
      unfold throughWrites
      rw [List.map_map, show (Write.n ∘ fun e : (Word × Loc) × Nat => _) = fun _ => w from rfl, List.map_const', List.sum_replicate_nat,
        List.length_zipIdx]
    have hfits := hroom st hst
    rw [hsum, ← stripBytes_eq] at hfits
    obtain ⟨new, hexec, hnew⟩ := writeElems_buffered ps 0 hst hw hp val hfits
    exact ⟨_, hexec, storedAll_buffering hst hnew, rfl⟩

end Sys2Proof.Laws
end

section
/-! Accumulator images: `xa.ld` and `xa.st` (02 R40, 09 R198). -/

namespace Sys2Proof.Laws

set_option Elab.async false

open Sys2Proof Sys2Proof.Machine Sys2Proof.Claim

variable {s t u : State}

/-! ### Words and images -/

theorem packWords_word (ws : List Nat) (k : Nat) : packWords ws >>> (64 * k) % 2 ^ 64 = ws.getD k 0 % 2 ^ 64 := by
  induction ws generalizing k with
  | nil => simp [packWords]
  | cons w ws ih =>
    have hlow := Nat.mod_lt w (show 0 < 2 ^ 64 by norm_num)
    rw [packWords]
    cases k with
    | zero => simp
    | succ k =>
      rw [List.getD_cons_succ, ← ih, Nat.mul_succ, Nat.add_comm (64 * k), Nat.shiftRight_add]
      congr 2
      rw [Nat.shiftRight_eq_div_pow]
      omega

theorem toSigned_toInt {w : Nat} (hw : 0 < w) (n : Nat) : toSigned w (n % 2 ^ w) = (BitVec.ofNat w n).toInt := by
  have hhalf : 2 ^ w = 2 * 2 ^ (w - 1) := by rw [← Nat.pow_succ']; congr 1; omega
  rw [BitVec.toInt_eq_toNat_cond, BitVec.toNat_ofNat, toSigned, Nat.mod_mod]
  have hcmp : n % 2 ^ w < 2 ^ (w - 1) ↔ 2 * (n % 2 ^ w) < 2 ^ w := by omega
  simp only [hcmp]
  split <;> push_cast <;> rfl

/-- The accumulator of an image (R40). -/
theorem ofImage_eq (n : Nat) : EReg.ofImage n = ⟨(BitVec.ofNat 4352 n).toInt, n.testBit 4352, n.testBit 4353, n.testBit 4354, false⟩ := by
  unfold EReg.ofImage
  rw [toSigned_toInt (w := 4352) (by norm_num), bitAt_testBit, bitAt_testBit, bitAt_testBit]

/-! ### The checks of an image -/

/-- The words of an image with the places that they lie at. -/
def imagePlaces (s u : State) (a : XReg) (k : Access) (c : Bool) : List (Word × Loc) :=
  (List.range 69).map fun j => (imageAddr s a j, lies u k 8 c (imageAddr s a j))

theorem mem_imagePlaces {a : XReg} {k : Access} {c : Bool} {p : Word × Loc} :
    p ∈ imagePlaces s u a k c ↔ ∃ j < 69, (imageAddr s a j, lies u k 8 c (imageAddr s a j)) = p := by
  unfold imagePlaces; simp

theorem lies_of_locate {k : Access} {n : Nat} {c : Bool} {a : Word} {l : Loc} (h : u.locate k a.toNat n n c = .ok l) :
    lies u k n c a = l := by
  unfold lies; rw [h]

theorem checkWords_ok {k : Access} {n : Nat} {c : Bool} (as : List Word) (h : ∀ a ∈ as, ∃ l, u.locate k a.toNat n n c = .ok l) :
    u.checkWords k n as = .ok (as.map fun a => (a, lies u k n c a)) := by
  induction as with
  | nil => rfl
  | cons a as ih =>
    obtain ⟨l, hl⟩ := h a (List.mem_cons_self ..)
    rw [State.checkWords, (locate_parts hl).1, ih fun b hb => h b (List.mem_cons_of_mem _ hb), List.map_cons, lies_of_locate hl]
    rfl

theorem imageLocs_ok {a : XReg} {k : Access} {c : Bool} (hx : u.x a = s.x a)
    (h : ∀ j < 69, ∃ l, u.locate k (imageAddr s a j).toNat 8 8 c = .ok l) :
    u.imageLocs k (u.x a) = .ok ((imagePlaces s u a k c).zipIdx.map fun e => (e.2, [e.1])) := by
  have hwords : imageWords (u.x a) = (List.range 69).map (imageAddr s a) := by rw [hx]; rfl
  have hchecks := checkWords_ok (u := u) (k := k) (c := c) (imageWords (u.x a)) (n := 8) (by
    rw [hwords]
    intro b hb
    obtain ⟨j, hj, rfl⟩ := List.mem_map.1 hb
    exact h j (List.mem_range.1 hj))
  unfold State.imageLocs
  rw [hchecks, hwords, List.map_map]
  rfl

/-! ### Loading an image -/

theorem relined_nearAll (u : State) (ls : List Loc) : Relined u (nearAll u ls) := relined_foldl _ relined_near ls u

theorem flatMap_elements {α β : Type} (f : α → β) (ps : List α) (i : Nat) :
    (((ps.zipIdx i).map fun e => (e.2, [f e.1])).flatMap fun e => e.2) = ps.map f := by
  rw [List.flatMap_map]
  induction ps generalizing i with
  | nil => rfl
  | cons p ps ih => rw [List.zipIdx_cons, List.flatMap_cons, ih]; rfl

theorem imagePlaces_locs (s u : State) (a : XReg) (k : Access) (c : Bool) :
    (imagePlaces s u a k c).map Prod.snd = (List.range 69).map fun j => lies u k 8 c (imageAddr s a j) := by
  unfold imagePlaces
  rw [List.map_map]
  exact List.map_congr_left fun _ _ => rfl

/-- `xa.ld` reads the words of an image, each as the hart sees it before the first. -/
theorem xaLd_reads (hs : Safety.Sound s) (e : ENum) (a : XReg) (hint : Hint) (hu : s.drain = u) {ps : List (Word × Loc)}
    (hps : u.imageLocs .load (u.x a) = .ok (ps.zipIdx.map fun e => (e.2, [e.1])))
    (h : ∀ p ∈ ps, u.locate .load p.1.toNat 8 8 true = .ok p.2 ∧ readable u p.2 8) :
    ∃ v, exec (.xaLd e a hint) s = .next (v.setAcc e (EReg.ofImage (packWords (ps.map (wordIn u 8))))).retire ∧
      Ahead (nearAll u (ps.map Prod.snd)) v := by
  obtain ⟨v, hread, hv⟩ := (Ahead.refl u).readElems ps 0 (hu ▸ sound_drain hs) (by norm_num : 8 ∣ 8)
    (fun p hp b hb => locate_phys (hb ▸ (h p hp).1) (by norm_num)) fun p hp => ⟨(locate_parts (h p hp).1).2, (h p hp).2⟩
  refine ⟨v, ?_, hv⟩
  show execXaLd e a hint s = _
  unfold execXaLd
  dsimp only
  rw [hu, hps]
  simp only [State.orTrap, bind, Except.bind]
  rw [hread]
  dsimp only
  rw [flatMap_elements]
  rfl

/-- What loading an accumulator leaves of a state that reads have left. -/
theorem loaded_says {r v : State} (hv : Ahead r v) (e : ENum) (n : Nat) :
    let t := (v.setAcc e (EReg.ofImage n)).retire
    t.hart.e[e.val] = ⟨(BitVec.ofNat 4352 n).toInt, n.testBit 4352, n.testBit 4353, n.testBit 4354, false⟩ ∧
      onlyAcc r t e ∧ goesOn r t ∧ sameMemory r t ∧ seenAlike r t ∧
      t = { r with rcache := t.rcache, hart := { r.hart with e := t.hart.e, pc := t.hart.pc, instret := t.hart.instret } } := by
  obtain ⟨⟨F, rfl, -⟩, hseen⟩ := hv
  rw [← ofImage_eq]
  exact ⟨Vector.getElem_set_self _, onlyAcc_set rfl, ⟨rfl, rfl⟩, ⟨fun _ => rfl, fun _ => rfl⟩,
    seenAlike.trans hseen (seen_of_parts rfl rfl rfl), rfl⟩

theorem getD_imagePlaces (f : Word × Loc → Nat) (s u : State) (a : XReg) (k : Access) (c : Bool) {j : Nat} (hj : j < 69) :
    ((imagePlaces s u a k c).map f).getD j 0 = f (imageAddr s a j, lies u k 8 c (imageAddr s a j)) := by
  unfold imagePlaces
  rw [List.map_map, List.getD_eq_getElem?_getD, List.getElem?_map, List.getElem?_range hj]
  rfl

/-- `xa.ld` of an image whose words pass their checks (R198). -/
theorem xaLd_says (hs : Safety.Sound s) (e : ENum) (a : XReg) (hint : Hint)
    (h : ∀ k, k < 69 → loadable s.drain 8 (imageAddr s a k)) :
    let r := nearAll s.drain ((List.range 69).map fun k => lies s.drain .load 8 true (imageAddr s a k))
    ∃ t n, exec (.xaLd e a hint) s = .next t ∧
      (∀ k, k < 69 → n >>> (64 * k) % 2 ^ 64 = wordAt s.drain 8 (imageAddr s a k)) ∧
      t.hart.e[e.val] = ⟨(BitVec.ofNat 4352 n).toInt, n.testBit 4352, n.testBit 4353, n.testBit 4354, false⟩ ∧
      onlyAcc s.drain t e ∧ goesOn s t ∧ sameMemory r t ∧ seenAlike r t ∧
      t = { r with rcache := t.rcache, hart := { r.hart with e := t.hart.e, pc := t.hart.pc, instret := t.hart.instret } } := by
  have hco := co_drain s
  generalize hu : s.drain = u at *
  have hx := co_x hco a
  obtain ⟨v, hexec, hahead⟩ := xaLd_reads hs e a hint hu (imageLocs_ok (c := true) hx fun j hj => (h j hj).imp fun l hl => hl.1)
    fun p hp => by
      obtain ⟨j, hj, rfl⟩ := mem_imagePlaces.1 hp
      obtain ⟨l, hl, hr⟩ := h j hj
      dsimp only
      rw [lies_of_locate hl]
      exact ⟨hl, hr⟩
  rw [imagePlaces_locs] at hahead
  have hhart := (relined_nearAll u ((List.range 69).map fun k => lies u .load 8 true (imageAddr s a k))).hart
  intro r
  change Ahead r v at hahead
  change r.hart = u.hart at hhart
  clear_value r
  obtain ⟨hacc, honly, hgoes, hmem, hseen, hparts⟩ :=
    loaded_says hahead e (packWords ((imagePlaces s u a .load true).map (wordIn u 8)))
  refine ⟨_, packWords ((imagePlaces s u a .load true).map (wordIn u 8)), hexec, fun k hk => ?_, hacc, ?_, ?_, hmem, hseen, hparts⟩
  · rw [packWords_word, getD_imagePlaces _ _ _ _ _ _ hk, wordAt_eq]
    exact Nat.mod_eq_of_lt (wordIn_lt u 8 _)
  · unfold onlyAcc at honly ⊢
    rwa [hhart] at honly
  · unfold goesOn at hgoes ⊢
    have hlen : r.len = u.len := by unfold State.len; rw [hhart]
    rwa [hlen, hhart, co_pc hco, co_len hco, co_instret hco] at hgoes

/-! ### Storing an image -/

theorem zipIdx_range (n : Nat) : (List.range n).zipIdx = (List.range n).map fun k => (k, k) :=
  List.ext_getElem (by simp) fun i _ _ => by simp

theorem imageWrites_eq (s u : State) (a : XReg) (img : Nat) :
    throughWrites 8 (fun k => bitsAt img (64 * k) 64) (imagePlaces s u a .store false).zipIdx =
      (List.range 69).map fun k => ({ va := imageAddr s a k, loc := lies u .store 8 false (imageAddr s a k), n := 8
                                      v := img >>> (64 * k) % 2 ^ 64, through := true } : Write) := by
  unfold throughWrites imagePlaces
  rw [List.zipIdx_map, List.map_map, zipIdx_range, List.map_map]
  exact List.map_congr_left fun _ _ => rfl

/-- `xa.st` once its image is written (R198). -/
theorem xaSt_writes {e : ENum} {a : XReg} {ps : List (Word × Loc)} (hu : s.drain = u) (he : u.hart.e[e.val].poison = false)
    (hps : u.imageLocs .store (u.x a) = .ok (ps.zipIdx.map fun e => (e.2, [e.1]))) (h : ∀ p ∈ ps, mayWrite u 8 p)
    (hw : u.writeElems .through 8 (fun _ => none) (fun k => [bitsAt (u.acc e).image (64 * k) 64])
      (ps.zipIdx.map fun e => (e.2, [e.1])) = (t, none)) : exec (.xaSt e a) s = .next t.retire := by
  have hflat : ((ps.zipIdx.map fun e => (e.2, [e.1])).flatMap fun e => e.2) = ps := (flatMap_elements id ps 0).trans (List.map_id ps)
  have hlive : u.strip?.isNone = true → (((ps.zipIdx.map fun e => (e.2, [e.1])).flatMap fun e => e.2).find? fun l => u.liveWord l.2) = none := by
    intro hst
    rw [hflat, List.find?_eq_none]
    intro p hp
    rw [(h p hp).2 (Option.isNone_iff_eq_none.1 hst)]
    exact Bool.false_ne_true
  show execXaSt e a s = _
  unfold execXaSt
  dsimp only
  rw [hu, accOk_ok he, hps]
  simp only [State.orTrap, bind, Except.bind]
  rw [hw]
  cases hst : u.strip?.isNone with
  | true => rw [hlive hst]; rfl
  | false => rfl

theorem image_eq (k : EReg) : k.image = imageOf k := by unfold EReg.image ofInt imageOf; rfl

theorem storedAll_retire {ws : List Write} (h : storedAll u t ws) : storedAll u t.retire ws := h

/-- `xa.st` of an image whose words pass their checks (R198). -/
theorem xaSt_says (hs : Safety.Sound s) (e : ENum) (a : XReg) (he : s.hart.e[e.val].poison = false)
    (h : ∀ k, k < 69 → storable s.drain 8 false (imageAddr s a k)) :
    let u := s.drain
    let ws := (List.range 69).map fun k =>
      ({ va := imageAddr s a k, loc := lies u .store 8 false (imageAddr s a k), n := 8
         v := imageOf s.hart.e[e.val] >>> (64 * k) % 2 ^ 64, through := true } : Write)
    roomFor u ws →
    ∃ t, exec (.xaSt e a) s = .next t ∧ storedAll u t ws ∧ goesOn s t ∧
      t = { u with mem := t.mem, spad := t.spad, poison := t.poison, spadPoison := t.spadPoison, rcache := t.rcache, hart := { u.hart with
        strip := t.hart.strip, pc := t.hart.pc, instret := t.hart.instret } } := by
  have hco := co_drain s
  have hsound := sound_drain hs
  generalize hu : s.drain = u at *
  have hacc : u.hart.e = s.hart.e := by obtain ⟨_, _, _, _, _, _, _, _, rfl⟩ := hco; rfl
  have hplaces : ∀ p ∈ imagePlaces s u a .store false, (∀ b, p.2 = .phys b → b % 8 = 0) ∧ mayWrite u 8 p := fun p hp => by
    obtain ⟨j, hj, rfl⟩ := mem_imagePlaces.1 hp
    obtain ⟨l, hl, hlive⟩ := h j hj
    dsimp only
    rw [lies_of_locate hl]
    exact ⟨fun b hb => locate_phys (hb ▸ hl) (by norm_num), (locate_parts hl).2, hlive⟩
  have hwrites := imageWrites_eq s u a (u.acc e).image
  rw [image_eq, show u.acc e = s.hart.e[e.val] by unfold State.acc; rw [hacc]] at hwrites
  intro u' ws hroom
  change _ = ws at hwrites
  clear_value ws
  subst hwrites
  obtain ⟨t, hexec, hstored, hparts⟩ := writeElems_says _ hsound (by norm_num) (fun p hp => (hplaces p hp).1)
    (fun p hp => (hplaces p hp).2) _ hroom
  refine ⟨t.retire, xaSt_writes hu (by rw [hacc]; exact he)
    (imageLocs_ok (c := false) (co_x hco a) fun j hj => (h j hj).imp fun l hl => hl.1) (fun p hp => (hplaces p hp).2) ?_,
    storedAll_retire hstored, ?_, ?_⟩
  · rw [image_eq, show u.acc e = s.hart.e[e.val] by unfold State.acc; rw [hacc]]
    exact hexec
  · have hgo : goesOn u t.retire := by rw [hparts]; exact ⟨rfl, rfl⟩
    unfold goesOn at hgo ⊢
    rwa [co_pc hco, co_len hco, co_instret hco] at hgo
  · rw [hparts]; rfl

theorem accumulatorImages : Claim.AccumulatorImages := fun _ e a hs =>
  ⟨fun hint h => xaLd_says hs e a hint h, fun he h hroom => xaSt_says hs e a he h hroom⟩

/-- Settles O31, by its two parts: what the accumulating instructions add, and what the images of accumulators hold. -/
theorem accumulators : Obligations.Accumulators := ⟨accumulation, accumulatorImages⟩

end Sys2Proof.Laws
end

section
/-! The moves of local copies (04 R81, 05 R97, 12 R235, R237, R252): addresses and marks, the checks before a move, the read of its
source and the write of its destination, and the obligation on the elements of a copy. -/

namespace Sys2Proof.Laws

set_option Elab.async false

open Sys2Proof Sys2Proof.Machine Sys2Proof.Claim

variable {s : State}

/-! ### Addresses and marks of a move (R81, R237) -/

section
variable {k : CopyCmd}

theorem form_of_local (h : toEyelet k = false) : k.form ≠ .cpyR ∧ k.form ≠ .qsend := by
  constructor <;> intro hf <;> simp [toEyelet, hf] at h

theorem ofInt_add_mul_toInt (r c : Nat) (p : Word) :
    BitVec.ofInt 64 (r * p.toInt + c) = BitVec.ofNat 64 r * p + BitVec.ofNat 64 c := by
  rw [BitVec.ofInt_add, BitVec.ofInt_mul, BitVec.ofInt_toInt, BitVec.ofInt_natCast, BitVec.ofInt_natCast]

theorem src_eq (hq : k.form ≠ .qsend) (e : Nat) : k.src e = sourceOf k e := by
  unfold sourceOf
  rw [← srcOff_eq hq]
  unfold CopyCmd.src CopyCmd.srcOff
  cases k.form with
  | cpy2 => dsimp only; rw [ofInt_add_mul_toInt, BitVec.add_assoc]
  | cpyG => rfl
  | _ => dsimp only; rw [BitVec.ofInt_natCast]

theorem dst_eq (hq : k.form ≠ .qsend) (e : Nat) : k.dst e = targetAt k e := by
  unfold targetAt
  rw [← dstOff_eq hq]
  unfold CopyCmd.dst CopyCmd.dstOff
  cases k.form with
  | cpy2 => dsimp only; rw [ofInt_add_mul_toInt, BitVec.add_assoc]
  | cpyGd => rfl
  | _ => dsimp only; rw [BitVec.ofInt_natCast]

/-- CWM of a copy that does not rise with each move: D, and after the last move the byte above the highest one written. -/
def wholeMark (k : CopyCmd) (d : Word) (p : Nat) : Word :=
  if p = k.moves ∧ p ≠ 0 then k.xa + BitVec.ofInt 64 ((spanOf k.dstOff k.moves).2 + k.width) else d

theorem wholeMark_says (hq : k.form ≠ .qsend) (d : Word) {p : Nat} (hp : 0 < p) :
    (p < moveCount k → wholeMark k d p = d) ∧ (p = moveCount k → aboveAt k (wholeMark k d p)) := by
  unfold wholeMark
  rw [moves_eq hq, width_eq hq, funext (dstOff_eq hq)]
  refine ⟨fun hlt => if_neg fun h => by omega, fun heq => ?_⟩
  obtain ⟨n, hn⟩ : ∃ n, moveCount k = n + 1 := ⟨moveCount k - 1, by omega⟩
  obtain ⟨-, ⟨e, he, hhi⟩, hall⟩ := spanOf_bounds (fun e => (displaced k e).2) n
  rw [if_pos ⟨heq, by omega⟩, hn]
  refine ⟨e, hn ▸ he, ?_, fun j hj => hhi ▸ (hall j (hn ▸ hj)).2⟩
  rw [hhi, BitVec.ofInt_add, BitVec.ofInt_natCast, ← BitVec.add_assoc]
  rfl

theorem watermark_marks (h : toEyelet k = false) (desc : Bool) (d : Word) {p : Nat} (hp : 0 < p) :
    markedAt k desc d p (k.watermark desc d p) := by
  obtain ⟨hr, hq⟩ := form_of_local h
  have hwhole := wholeMark_says hq d hp
  unfold markedAt CopyCmd.watermark
  rw [← width_eq hq, ← per_eq hq]
  cases hf : k.form with
  | cpy => cases desc with
    | true => exact hwhole
    | false => exact rfl
  | cpyG => exact rfl
  | cpy2 =>
    dsimp only
    split
    · rfl
    · exact hwhole
  | cpyGd => exact hwhole
  | cpyR => exact absurd hf hr
  | qsend => exact absurd hf hq

end

/-! ### Checks (R148, R235) -/

/-- While no row is under repair, no check that fails asks its access to wait (R380). -/
theorem locateIn_not_holds {c : Ctx} {acc : Access} {va n al : Nat} {b : Bool} {r : Reject} (h : s.locateIn c acc va n al b = .error r)
    (hrep : s.repairing = none) : r.holds = false := by
  have hcause : r.cause = 0x03 ∨ r.cause = 0x07 ∨ r.cause = pageFaultCause acc := by
    unfold State.locateIn at h
    cases hl : s.resolveIn c acc va n al with
    | ok l =>
      rw [hl] at h
      cases ht : s.targetTakes c.part acc l va n b with
      | ok _ => simp [ht, bind, Except.bind] at h
      | error e =>
        simp only [ht, bind, Except.bind] at h
        cases h
        cases l with
        | spad i => cases ht
        | phys a =>
          obtain ⟨-, h7 | ⟨-, hno⟩⟩ := target_err ht
          · exact .inr (.inl h7)
          · exact absurd hrep hno
    | error e =>
      rw [hl] at h
      cases h
      unfold State.resolveIn at hl
      dsimp only at hl
      split at hl
      · cases hl; exact .inl rfl
      split at hl
      · split at hl
        · cases hl; exact .inr (.inl rfl)
        split at hl <;> cases hl
        exact .inr (.inl rfl)
      · cases htr : s.translate c acc va with
        | ok pa => rw [htr] at hl; cases hl
        | error e' =>
          rw [htr] at hl
          cases hl
          obtain ⟨-, h7 | hpf | ⟨-, hno⟩⟩ := translate_err htr
          · exact .inr (.inl h7)
          · exact .inr (.inr hpf)
          · exact absurd hrep hno
  unfold Reject.holds
  rcases hcause with h | h | h <;> rw [h]
  · rfl
  · rfl
  · cases acc <;> rfl

/-- The checks of a move of a local copy: where its source and its destination lie. -/
def checked (s : State) (k : CopyCmd) (e : Nat) : Except Reject (Loc × Loc) := do
  let a ← s.copyLoc k .load (sourceOf k e)
  .ok (a, ← s.copyLoc k .store (targetAt k e))

section
variable {k : CopyCmd} {e : Nat} {r : Reject} {a b : Loc}

theorem copyLoc_eq (hq : k.form ≠ .qsend) (s : State) (acc : Access) (v : Word) :
    s.copyLoc k acc v = s.locateIn (copyContext s k) acc v.toNat (moveBytes k) (moveBytes k) false := by
  unfold State.copyLoc
  rw [width_eq hq]
  rfl

theorem checked_ok (ha : s.copyLoc k .load (sourceOf k e) = .ok a) (hb : s.copyLoc k .store (targetAt k e) = .ok b) :
    checked s k e = .ok (a, b) := by
  simp [checked, ha, hb, bind, Except.bind]

theorem checked_source (ha : s.copyLoc k .load (sourceOf k e) = .error r) : checked s k e = .error r := by
  simp [checked, ha, bind, Except.bind]

theorem checked_target (ha : s.copyLoc k .load (sourceOf k e) = .ok a) (hb : s.copyLoc k .store (targetAt k e) = .error r) :
    checked s k e = .error r := by
  simp [checked, ha, hb, bind, Except.bind]

theorem checked_not_holds (h : checked s k e = .error r) (hrep : s.repairing = none) : r.holds = false := by
  cases ha : s.copyLoc k .load (sourceOf k e) with
  | error r' => rw [checked_source ha] at h; cases h; exact locateIn_not_holds ha hrep
  | ok a =>
    cases hb : s.copyLoc k .store (targetAt k e) with
    | error r' => rw [checked_target ha hb] at h; cases h; exact locateIn_not_holds hb hrep
    | ok b => rw [checked_ok ha hb] at h; cases h

end

/-! ### The source is read and the destination written (R97, R356) -/

theorem relined_sourced (s : State) (l : Loc) : Relined s (sourced s l) := by
  unfold sourced
  split
  · exact .refl s
  · split
    · exact relined_settle ..
    · exact .refl s

theorem sound_sourced (h : Safety.Sound s) (l : Loc) : Safety.Sound (sourced s l) := by
  unfold sourced
  split
  · exact h
  · split
    · exact sound_settle h _ _
    · exact h

/-- A source is read once the hart's own bytes have gone there, unless uncorrectable data stands there. -/
theorem readAt_sourced (s : State) (l : Loc) (va n : Nat) :
    (sane (sourced s l) l n → s.readAt .through l va n = .ok ((sourced s l).readLoc l n, sourced s l)) ∧
      (¬ sane (sourced s l) l n → ∃ r, s.readAt .through l va n = .error r ∧ r.cause = 0x12 ∧ r.addr = va) := by
  cases l with
  | spad i => exact ⟨fun h => if_neg (ne_true_of_eq_false h), fun h => ⟨_, if_pos (eq_true_of_ne_false h), rfl, rfl⟩⟩
  | phys a =>
    unfold State.readAt sourced sane
    dsimp only
    cases targetOf a <;>
      exact ⟨fun h => if_neg (ne_true_of_eq_false h), fun h => ⟨_, if_pos (eq_true_of_ne_false h), rfl, rfl⟩⟩

theorem writeAt_through_parts (s : State) (l : Loc) (va n v : Nat) : ∃ m sp rc po q,
    s.writeAt .through l va n v = { s with mem := m, spad := sp, rcache := rc, poison := po, spadPoison := q } := by
  obtain ⟨rc, po, q, h⟩ := writeAt_through s l va n v
  rw [h]
  cases l <;> exact ⟨_, _, _, _, _, rfl⟩

theorem stored_writeAt (hs : Safety.Sound s) (l : Loc) (va : Nat) {n v : Nat} (hv : v < 2 ^ (8 * n)) :
    stored s (s.writeAt .through l va n v) l n v := by
  obtain ⟨rc, po, q, h⟩ := writeAt_through s l va n v
  have hw : wrote s l n (some v) = s.writeLoc l n v := congrArg (s.writeLoc l n) (Nat.mod_eq_of_lt hv)
  refine stored_wrote hs.mem_wf hs.spad_wf l n (some v) _ ?_ ?_ fun w hw => Option.some.inj hw ▸ hv
  · rw [h, hw]
  · rw [h, hw]

/-! ### A live barrier word is met (R252) -/

theorem setBitAt_true (n i : Nat) : setBitAt n i true = n ||| 2 ^ i := by
  refine Nat.eq_of_testBit_eq fun k => ?_
  unfold setBitAt
  rw [testBit_setBitsAt, Nat.testBit_or, Nat.testBit_two_pow]
  by_cases hk : k = i
  · subst hk; simp
  · rw [if_neg (by omega)]; simp [Ne.symm hk]

theorem clobber_broke (hs : Safety.Sound s) (l : Loc) : broke s (s.clobber l) l := by
  unfold broke State.clobber
  cases l with
  | spad i =>
    dsimp only
    cases hz : s.zones.find? fun z => z.core == i / Config.spadBytes && z.covers i with
    | none => exact ⟨rfl, fun z h => (by cases h)⟩
    | some z =>
      refine ⟨rfl, fun y h => ?_⟩
      cases h
      exact ⟨Memory.readN_writeN hs.spad_wf .., fun j hj => Memory.read_writeN_other _ _ _ _ hj⟩
  | phys a =>
    dsimp only
    cases hb : s.barriers.find? fun b => decide (b.addr ≤ a) && decide (a < b.addr + 16) with
    | none => exact ⟨rfl, fun b h => (by cases h)⟩
    | some b =>
      refine ⟨rfl, fun y h => ?_⟩
      cases h
      refine ⟨?_, fun j hj => Memory.read_writeN_other _ _ _ _ hj⟩
      have hlt : Memory.readN s.mem b.addr 8 ||| 2 ^ 33 < 2 ^ (8 * 8) := Nat.or_lt_two_pow (readN_lt ..) (by norm_num)
      dsimp only
      rw [Memory.readN_writeN hs.mem_wf, setBitAt_true]
      exact Nat.mod_eq_of_lt (by rwa [Nat.pow_mul] at hlt)

theorem clobber_parts (s : State) (l : Loc) :
    s.clobber l = { s with mem := (s.clobber l).mem, spad := (s.clobber l).spad, spadPoison := (s.clobber l).spadPoison } := by
  unfold State.clobber
  split <;> split <;> rfl

/-! ### One move of a local copy -/

theorem asLive_mine {h : Nat} (hm : mine s h) (f : State → State) : s.asLive h f = f s := by
  obtain ⟨hid, hempty, hsw⟩ := hm
  have hof : s.hartOf h = some s.hart := List.find?_cons_of_pos (by simp [hid, hempty])
  unfold State.asLive State.asHart
  rw [hof]
  dsimp only
  rw [if_neg hsw, if_pos hid]

theorem copyElement_moves {h : Nat} {ch : ChNum} {k : CopyCmd} (hm : mine s h) (hc : copying s ch k)
    (hrem : (channel s ch).rem = false) : exec (.copyElement h ch) s = .next (s.copyLocal ch k) := by
  obtain ⟨hrun, hpend, hcmd⟩ := hc
  have hcan : (s.chan ch).canMove = true := by
    show (channel s ch).canMove = true
    simp [Channel.canMove, hrun, hpend, hrem]
  show Host.Outcome.next (s.asLive h fun s => s.copyMove ch) = _
  rw [asLive_mine hm]
  unfold State.copyMove
  rw [if_pos hcan, show (s.chan ch).cmd = some k from hcmd]
  dsimp only
  rw [show (s.chan ch).rem = false from hrem]
  rfl

theorem onlyChannel_setChan {u : State} (h : u.hart.ch = s.hart.ch) (ch : ChNum) (c : Channel) : onlyChannel s (u.setChan ch c) ch := by
  intro j hj
  rw [channel_setChan, if_neg hj]
  unfold channel
  rw [h]

theorem channel_setChan_same (s : State) (ch : ChNum) (c : Channel) : channel (s.setChan ch c) ch = c := by
  rw [channel_setChan, if_pos rfl]

/-- A copy ends FAILED at a state: its channel says so, the other channels are as before, and so is all else. -/
theorem fails_says (s : State) (ch : ChNum) (code : Nat) (addr : Word) :
    let t := s.setChan ch ((channel s ch).fail code addr)
    onlyChannel s t ch ∧ failedAs (channel s ch) (channel t ch) code addr ∧ t = { s with hart := { s.hart with ch := t.hart.ch } } :=
  ⟨onlyChannel_setChan rfl ch _, channel_setChan_same .., rfl⟩

theorem broke_setChan {u : State} {l : Loc} (h : broke s u l) (ch : ChNum) (c : Channel) : broke s (u.setChan ch c) l := by
  cases l <;> exact h

theorem stored_setChan {r u : State} {l : Loc} {n v : Nat} (h : stored r u l n v) (ch : ChNum) (c : Channel) :
    stored r (u.setChan ch c) l n v := by
  cases l <;> exact h

/-- A channel after a move: its progress and CWM have risen, and after the last move it is DONE. -/
def risen (c : Channel) (k : CopyCmd) : Channel :=
  let done := c.progress / k.per
  let c' := { c with progress := c.progress + k.per, cwm := k.watermark c.desc c.dest (done + 1) }
  if done + 1 = k.moves then c'.finish else c'

theorem risen_says {c : Channel} {k : CopyCmd} (h : toEyelet k = false) (hrun : c.state = .running) (hpend : c.pend = false) :
    let done := c.progress / moveElements k
    let c' := risen c k
    c'.progress = c.progress + moveElements k ∧ markedAt k c.desc c.dest (done + 1) c'.cwm ∧
      (done + 1 < moveCount k → c'.state = .running ∧ c'.code = c.code) ∧
      (done + 1 = moveCount k → c'.state = .done ∧ c'.code = 0) ∧
      c' = { c with state := c'.state, code := c'.code, progress := c'.progress, cwm := c'.cwm } := by
  obtain ⟨-, hq⟩ := form_of_local h
  have hmark := watermark_marks h c.desc c.dest (Nat.succ_pos (c.progress / k.per))
  unfold risen
  rw [← per_eq hq, ← moves_eq hq]
  dsimp only
  split
  · rename_i hlast
    refine ⟨rfl, hmark, fun hlt => absurd hlast hlt.ne, fun _ => ⟨rfl, rfl⟩, ?_⟩
    unfold Channel.finish
    rw [hpend]
  · rename_i hmore
    exact ⟨rfl, hmark, fun _ => ⟨hrun, rfl⟩, fun heq => absurd heq hmore, rfl⟩

section
variable {ch : ChNum} {k : CopyCmd} (hk : toEyelet k = false)
  (hlt : (channel s ch).progress / moveElements k < moveCount k)
include hk hlt

/-- A move that is left: what the checks, then a live barrier word, then the read of the source make of it. -/
theorem copyLocal_says :
    let c := channel s ch
    let e := nextMove c k
    (∀ r, checked s k e = .error r →
      s.copyLocal ch k = if r.holds then s else s.setChan ch (c.fail (codeOf r) (BitVec.ofNat 64 r.addr))) ∧
    ∀ a b, checked s k e = .ok (a, b) →
      (s.liveWord b = true → s.copyLocal ch k = (s.clobber b).setChan ch (c.fail 0x06 (targetAt k e))) ∧
      (s.liveWord b = false →
        (∀ r, s.readAt .through a (sourceOf k e).toNat k.width = .error r →
          s.copyLocal ch k = s.setChan ch (c.fail (codeOf r) (BitVec.ofNat 64 r.addr))) ∧
        ∀ v u, s.readAt .through a (sourceOf k e).toNat k.width = .ok (v, u) →
          s.copyLocal ch k = (u.writeAt .through b (targetAt k e).toNat k.width v).setChan ch (risen c k)) := by
  obtain ⟨-, hq⟩ := form_of_local hk
  rw [← per_eq hq, ← moves_eq hq] at hlt
  have hnext : nextMove (channel s ch) k =
      if (s.chan ch).desc then k.moves - 1 - (s.chan ch).progress / k.per else (s.chan ch).progress / k.per := by
    rw [per_eq hq, moves_eq hq]; rfl
  unfold State.copyLocal
  dsimp only
  rw [if_neg (show ¬ k.moves ≤ (s.chan ch).progress / k.per from Nat.not_le.2 hlt), ← hnext, src_eq hq, dst_eq hq]
  unfold checked
  refine ⟨fun r h => by rw [h]; rfl, fun a b h => ?_⟩
  rw [h]
  refine ⟨fun hl => if_pos hl, fun hl => ⟨fun r hr => ?_, fun v u hv => ?_⟩⟩
  · dsimp only
    rw [if_neg (ne_true_of_eq_false hl), hr]
    rfl
  · dsimp only
    rw [if_neg (ne_true_of_eq_false hl), hv]
    rfl

/-- A move whose source or destination fails a check ends its copy (R235). -/
theorem move_rejected (hrep : s.repairing = none) {r : Reject} (hr : checked s k (nextMove (channel s ch) k) = .error r) :
    let t := s.copyLocal ch k
    onlyChannel s t ch ∧ failedAs (channel s ch) (channel t ch) (failCode r.cause) (BitVec.ofNat 64 r.addr) ∧
      t = { s with hart := { s.hart with ch := t.hart.ch } } := by
  obtain ⟨hrej, -⟩ := copyLocal_says hk hlt
  have heq := hrej r hr
  rw [if_neg (ne_true_of_eq_false (checked_not_holds hr hrep))] at heq
  rw [heq]
  exact fails_says s ch ..

section
variable {a b : Loc} (hab : checked s k (nextMove (channel s ch) k) = .ok (a, b))
include hab

/-- A move onto a live barrier word ends its copy and leaves the word's zone or object broken (R252). -/
theorem move_meets_word (hs : Safety.Sound s) (hl : s.liveWord b = true) :
    let t := s.copyLocal ch k
    onlyChannel s t ch ∧ failedAs (channel s ch) (channel t ch) 6 (targetAt k (nextMove (channel s ch) k)) ∧ broke s t b ∧
      t = { s with mem := t.mem, spad := t.spad, spadPoison := t.spadPoison, hart := { s.hart with ch := t.hart.ch } } := by
  obtain ⟨-, hok⟩ := copyLocal_says hk hlt
  rw [(hok a b hab).1 hl]
  have hparts := clobber_parts s b
  have hbroke := clobber_broke hs b
  generalize s.clobber b = u at hparts hbroke ⊢
  refine ⟨onlyChannel_setChan (by rw [hparts]) ch _, channel_setChan_same .., broke_setChan hbroke .., ?_⟩
  rw [hparts]
  rfl

variable (hl : s.liveWord b = false)
include hl

/-- A move whose source holds uncorrectable data ends its copy (R235, R356). -/
theorem move_unread (hbad : ¬ sane (sourced s a) a (moveBytes k)) :
    let t := s.copyLocal ch k
    onlyChannel s t ch ∧ failedAs (channel s ch) (channel t ch) 4 (sourceOf k (nextMove (channel s ch) k)) ∧
      t = { s with hart := { s.hart with ch := t.hart.ch } } := by
  obtain ⟨-, hok⟩ := copyLocal_says hk hlt
  obtain ⟨hfail, -⟩ := (hok a b hab).2 hl
  obtain ⟨r, hr, hcause, haddr⟩ := (readAt_sourced s a _ _).2 hbad
  rw [← width_eq (form_of_local hk).2] at hr
  rw [hfail r hr, haddr, BitVec.ofNat_toNat, BitVec.setWidth_eq, show codeOf r = 4 by unfold codeOf; rw [hcause]; rfl]
  exact fails_says s ch ..

/-- A move whose source is sound stores it at its destination (R81, R237). -/
theorem move_stores (hs : Safety.Sound s) (hgood : sane (sourced s a) a (moveBytes k)) :
    let r := sourced s a
    let t := s.copyLocal ch k
    onlyChannel s t ch ∧ stored r t b (moveBytes k) (r.readLoc a (moveBytes k)) ∧ channel t ch = risen (channel s ch) k ∧
      t = { r with mem := t.mem, spad := t.spad, poison := t.poison, spadPoison := t.spadPoison, rcache := t.rcache
                   hart := { r.hart with ch := t.hart.ch } } := by
  obtain ⟨-, hok⟩ := copyLocal_says hk hlt
  obtain ⟨-, hmoved⟩ := (hok a b hab).2 hl
  have hread := (readAt_sourced s a (sourceOf k (nextMove (channel s ch) k)).toNat _).1 hgood
  rw [← width_eq (form_of_local hk).2] at hread ⊢
  dsimp only
  rw [hmoved _ _ hread]
  have hhart := (relined_sourced s a).hart
  have hstored := stored_writeAt (sound_sourced hs a) b (targetAt k (nextMove (channel s ch) k)).toNat
    (readLoc_lt (sourced s a) a k.width)
  obtain ⟨_, _, _, _, _, hparts⟩ := writeAt_through_parts (sourced s a) b (targetAt k (nextMove (channel s ch) k)).toNat k.width
    ((sourced s a).readLoc a k.width)
  refine ⟨onlyChannel_setChan (by rw [hparts, ← hhart]) ch _, stored_setChan hstored .., channel_setChan_same .., ?_⟩
  rw [hparts]
  rfl

end

/-- A move changes no channel but its own. -/
theorem onlyChannel_copyLocal (hs : Safety.Sound s) (hrep : s.repairing = none) : onlyChannel s (s.copyLocal ch k) ch := by
  cases hc : checked s k (nextMove (channel s ch) k) with
  | error r => exact (move_rejected hk hlt hrep hc).1
  | ok p =>
    cases hl : s.liveWord p.2 with
    | true => exact (move_meets_word hk hlt hc hs hl).1
    | false =>
      by_cases hgood : sane (sourced s p.1) p.1 (moveBytes k)
      · exact (move_stores hk hlt hc hl hs hgood).1
      · exact (move_unread hk hlt hc hl hgood).1

end

/-- Settles O41, by what a checked move, and one that ends its copy, leave of the state. -/
theorem copyElements : Obligations.CopyElements := by
  intro s h ch k hs hm hc hk hrem hrep c w done e src dst from' onto hlt
  obtain ⟨hrun, hpend, -⟩ := id hc
  have hloc := copyLoc_eq (form_of_local hk).2 s
  refine ⟨_, copyElement_moves hm hc hrem, onlyChannel_copyLocal hk hlt hs hrep, ?_, ?_, ?_, ?_⟩
  · intro a b ha hb hl r
    have hab := checked_ok ((hloc ..).trans ha) ((hloc ..).trans hb)
    refine ⟨fun hgood => ?_, fun hbad => (move_unread hk hlt hab hl hbad).2⟩
    obtain ⟨-, hstored, hchan, hrest⟩ := move_stores hk hlt hab hl hs hgood
    exact ⟨hstored, by rw [hchan]; exact risen_says hk hrun hpend, hrest⟩
  · intro r hr
    exact (move_rejected hk hlt hrep (checked_source ((hloc ..).trans hr))).2
  · intro a r ha hr
    exact (move_rejected hk hlt hrep (checked_target ((hloc ..).trans ha) ((hloc ..).trans hr))).2
  · intro a b ha hb hl
    exact (move_meets_word hk hlt (checked_ok ((hloc ..).trans ha) ((hloc ..).trans hb)) hs hl).2

end Sys2Proof.Laws
end

section
/-! Fences (05 R98, 13 R259) and waits on a location (01 R25, 13 R260). -/

namespace Sys2Proof.Laws

set_option Elab.async false

open Sys2Proof.Machine Sys2Proof.Claim

variable {s u : State}

/-! ### Loads for an acquire (05 R99, 13 R256) -/

/-- Dropping the lines of a core drops those of its CAC too (R80, R99). -/
theorem noCopies_dropped (hp : u.hart.place = s.hart.place) : noCopies s (dropped u) := by
  intro k hk
  have hkeep := (List.mem_filter.1 hk).2
  simpa [hp] using hkeep

/-- Bytes read with the open strip's own over them (R106). -/
theorem laid_bytes (l : Loc) (va n : Nat) {v : Nat} (hv : v < 2 ^ (8 * n)) : s.laid l va n v < 2 ^ (8 * n) ∧
    ∀ k, k < n → BitVec.ofNat 8 (s.laid l va n v >>> (8 * k)) = ownByte s.strip? l va k (BitVec.ofNat 8 (v >>> (8 * k))) := by
  unfold State.laid
  cases s.strip? with
  | none => exact ⟨hv, fun k _ => rfl⟩
  | some st => exact ⟨overlay_lt _ _ _ _ _ hv, fun k hk => byte_overlay st _ _ _ _ _ hk⟩

theorem load_through {l : Loc} {va n : Nat} (hl : s.locate .load va n n false = .ok l) (hs : sane s l n) (hc : clean s) :
    s.load .through va n = .ok (s.laid l va n (s.readLoc l n), s) := by
  unfold State.load
  rw [show decide (Route.through = Route.cached) = false from rfl, hl]
  simp only [bind, Except.bind, readAt_through hs hc]

theorem byte_readLoc (l : Loc) (n k : Nat) (hk : k < n) : BitVec.ofNat 8 (s.readLoc l n >>> (8 * k)) = acquired s .sys l k := by
  cases l with
  | phys a => exact byte_readN _ _ _ _ hk
  | spad i => exact byte_readN _ _ _ _ hk

theorem acquired_below_sys {sc : Scope} (h : sc ≠ .sys) (l : Loc) (k : Nat) :
    acquired s sc l k = seen s s.hart.place.core s.hart.place.hid (plus l k) := if_neg h

/-- At scope sys the location is read at its coherence point, and the copies near the hart go (R99). -/
theorem acquireLoad_sys {l : Loc} {va n : Nat} (hl : s.locate .load va n n false = .ok l) (hs : sane s l n) (hc : clean s) :
    s.acquireLoad .sys va n = .ok (s.laid l va n (s.readLoc l n), dropped s) := by
  unfold State.acquireLoad
  rw [if_pos rfl, load_through hl hs hc]
  change s.ordered s.acquireSys >>= (fun t => Except.ok (s.laid l va n (s.readLoc l n), t)) = _
  rw [acquire_clean hc]
  rfl

theorem acquireLoad_below_sys {sc : Scope} (h : sc ≠ .sys) (va n : Nat) : s.acquireLoad sc va n = s.orTrap (s.load .cached va n) :=
  if_neg h

/-- A load for an acquire that can be performed reads the bytes of its scope, and changes no more than which copies of lines stand
near the hart: at scope sys none. -/
theorem acquireLoad_says {sc : Scope} {l : Loc} {va n : Nat} (hn : n ∣ 8) (hl : s.locate .load va n n (sc != .sys) = .ok l)
    (ha : acquirable s sc l n) : ∃ v t, s.acquireLoad sc va n = .ok (v, t) ∧ v < 2 ^ (8 * n) ∧
      (∀ k, k < n → BitVec.ofNat 8 (v >>> (8 * k)) = ownByte s.strip? l va k (acquired (nearFor s sc l) sc l k)) ∧
      (sc = .sys → noCopies s t) ∧ t = { nearFor s sc l with rcache := t.rcache } := by
  by_cases hsys : sc = .sys
  · subst hsys
    obtain ⟨hsane, hclean⟩ : sane s l n ∧ clean s := ha
    obtain ⟨hlt, hbytes⟩ := laid_bytes (s := s) l va n (readLoc_lt s l n)
    refine ⟨_, _, acquireLoad_sys hl hsane hclean, hlt, fun k hk => ?_, fun _ => noCopies_dropped rfl, rfl⟩
    rw [hbytes k hk, byte_readLoc l n k hk]
    rfl
  · have hnear : nearFor s sc l = near s l := if_neg hsys
    have hread : readable s l n := (if_neg hsys : acquirable s sc l n = _) ▸ ha
    rw [show (sc != .sys) = true from bne_iff_ne.2 hsys] at hl
    obtain ⟨v, t, hload, hbytes, hlt, -, ht⟩ := load_seen s l va n hn hl hread
    refine ⟨v, t, ?_, hlt, fun k hk => ?_, fun h => absurd h hsys, hnear ▸ ht⟩
    · rw [acquireLoad_below_sys hsys, hload]
      rfl
    · rw [hbytes k hk, hnear, acquired_below_sys hsys, near_parts]

theorem co_nearFor (s : State) (sc : Scope) (l : Loc) : CopyOnly s (nearFor s sc l) := by
  unfold nearFor
  split
  · exact .refl s
  · exact co_near s l

/-! ### Fences -/

theorem engIdle_iff (h : Hart) : h.engIdle = true ↔ ∀ c ∈ h.ch.toList, c.state ≠ .running := by
  unfold Hart.engIdle
  simp only [List.all_eq_true, bne_iff_ne]

/-- The copies that an acquiring fence drops; another fence drops none. -/
def fenced (u : State) (rem : Bool) : State := if rem then dropped u else u

/-- The state in which a fence looks at the copies: those that it names have moved on. -/
def fenceStart (s : State) (eng : Bool) : State := if eng then s.drain else s

theorem co_fenceStart (s : State) (eng : Bool) : CopyOnly s (fenceStart s eng) := by
  unfold fenceStart
  split
  · exact co_drain s
  · exact .refl s

/-- What a fence orders: an acquire where it names `rem`, else a release where it names `st` at scope sys (R98). -/
def fenceOrders (u : State) (st rem : Bool) (sc : Scope) : Run State :=
  if rem then u.ordered u.acquireSys else if st && sc == .sys then u.ordered u.releaseSys else .ok u

theorem exec_fence {ld st eng rem : Bool} {sc : Scope} (hs : s.strip? = none) : exec (.fence ld st eng rem sc) s =
    finish (if eng && !(fenceStart s eng).hart.engIdle then .ok (fenceStart s eng)
      else fenceOrders (fenceStart s eng) st rem sc >>= fun t => .ok t.retire) := by
  refine (finish_noStrip hs _).trans ?_
  unfold fenceOrders
  cases rem with
  | true => rfl
  | false => cases st && sc == .sys <;> rfl

theorem fenceOrders_clean {st rem : Bool} {sc : Scope} (hc : rem = true ∨ st = true ∧ sc = .sys → clean u) :
    fenceOrders u st rem sc = .ok (fenced u rem) := by
  unfold fenceOrders
  cases rem with
  | true => rw [if_pos rfl, acquire_clean (hc (.inl rfl))]; rfl
  | false =>
    rw [if_neg Bool.false_ne_true]
    split
    · next hst => rw [release_clean (hc (.inr (by simpa using hst)))]; rfl
    · rfl

theorem exec_fence_done {ld st eng rem : Bool} {sc : Scope} (hs : s.strip? = none)
    (hidle : eng = true → (fenceStart s eng).hart.engIdle = true)
    (hc : rem = true ∨ st = true ∧ sc = .sys → clean (fenceStart s eng)) :
    exec (.fence ld st eng rem sc) s = .next (fenced (fenceStart s eng) rem).retire := by
  have hgo : ¬ (eng && !(fenceStart s eng).hart.engIdle) = true := by simpa using hidle
  rw [exec_fence hs, if_neg hgo, fenceOrders_clean hc]
  rfl

theorem exec_fence_waits {ld st rem : Bool} {sc : Scope} (hs : s.strip? = none) (hrun : (fenceStart s true).hart.engIdle = false) :
    exec (.fence ld st true rem sc) s = .next (fenceStart s true) := by
  rw [exec_fence hs, if_pos (by rw [hrun]; rfl)]
  rfl

theorem exec_ifence (hs : s.strip? = none) : exec .ifence s = .next s.retire := finish_noStrip hs _

/-- What a completed fence leaves: the copies of remote lines may differ, and the instruction counts. -/
theorem fenced_leaves (h : CopyOnly s u) (rem : Bool) :
    let t := (fenced u rem).retire
    goesOn s t ∧ sameMemory u t ∧ (rem = true → noCopies s t) ∧ (rem = false → t.rcache = u.rcache) ∧
      t = { u with rcache := t.rcache, hart := { u.hart with pc := t.hart.pc, instret := t.hart.instret } } := by
  have hgoes : goesOn s u.retire := ⟨by rw [retire_hart_pc, co_pc h, co_len h], by rw [retire_hart_instret, co_instret h]⟩
  cases rem with
  | true => exact ⟨hgoes, ⟨fun _ => rfl, fun _ => rfl⟩, fun _ => noCopies_dropped (co_core h), nofun, rfl⟩
  | false => exact ⟨hgoes, ⟨fun _ => rfl, fun _ => rfl⟩, nofun, fun _ => rfl, rfl⟩

theorem fences : Claim.Fences := by
  intro s ld st eng rem sc hs
  dsimp only
  rw [show (if eng then s.drain else s) = fenceStart s eng from rfl]
  refine ⟨fun hidle hc => ?_, fun hrun heng => ?_, exec_ifence hs⟩
  · refine ⟨(fenced (fenceStart s eng) rem).retire, exec_fence_done hs (fun he => (engIdle_iff _).2 (hidle he)) hc, ?_⟩
    exact fenced_leaves (co_fenceStart s eng) rem
  · subst heng
    obtain ⟨c, hmem, hstate⟩ := hrun
    exact exec_fence_waits hs (Bool.eq_false_iff.2 fun hidle => (engIdle_iff _).1 hidle c hmem hstate)

/-! ### Waits on a location -/

/-- The two waits of R260 look at their location once copies have moved on (R104). -/
theorem exec_wait {i : Instr} {ge : Bool} {d a b : XReg} {sc : Scope} {n : Nat} (hi : waitForm i = some (ge, d, a, b, sc, n))
    (hs : s.strip? = none) : n ∣ 8 ∧ exec i s = finish (s.drain.waitLocation ge d n sc (s.x a) (s.x b)) := by
  have hlook : ∀ ge d a b sc z, waitInstr ge d a b sc z s = finish (s.drain.waitLocation ge d (size z) sc (s.x a) (s.x b)) := by
    intro ge d a b sc z
    rw [← co_x (co_drain s) a, ← co_x (co_drain s) b]
    exact finish_noStrip hs _
  have hsize : ∀ z, size z ∣ 8 := by decide
  unfold waitForm at hi
  split at hi
  · cases hi; exact ⟨hsize _, hlook ..⟩
  · cases hi; exact ⟨hsize _, hlook ..⟩
  · cases hi

/-- The value satisfies the wait (R260). -/
def satisfies (ge : Bool) (n v : Nat) (val : Word) : Prop :=
  let w := val.toNat % 2 ^ (8 * n)
  if ge then w ≤ v else w = v

section
variable {t : State} {ge : Bool} {d : XReg} {n v : Nat} {sc : Scope} {addr val : Word}

theorem waitLocation_of_load (h : s.acquireLoad sc addr.toNat n = .ok (v, t)) :
    (satisfies ge n v val → s.waitLocation ge d n sc addr val = .ok (t.wake.setX d (BitVec.ofNat 64 v)).retire) ∧
    (¬ satisfies ge n v val → s.waitLocation ge d n sc addr val = .ok (t.wait (.location ge d n sc addr val) .monitor)) := by
  have hlook : (if ge then decide (val.toNat % 2 ^ (8 * n) ≤ v) else v == val.toNat % 2 ^ (8 * n)) = true ↔ satisfies ge n v val := by
    cases ge with
    | true => exact decide_eq_true_iff
    | false => exact beq_iff_eq.trans eq_comm
  unfold State.waitLocation
  rw [h]
  exact ⟨fun hsat => if_pos (hlook.2 hsat), fun hsat => if_neg (mt hlook.1 hsat)⟩

/-- What a wait that completes leaves. -/
theorem woken_leaves (h : CopyOnly s u) (ht : t = { u with rcache := t.rcache }) (x : Word) :
    let r := (t.wake.setX d x).retire
    sameMemory u r ∧ r.x d = (if d = 0 then 0 else x) ∧ (∀ q, q ≠ d → r.x q = s.x q) ∧ goesOn s r ∧
      r = { u with rcache := r.rcache, hart := { u.hart with
        x := r.hart.x, pc := r.hart.pc, instret := r.hart.instret, phase := .active, waiting := none } } := by
  generalize t.rcache = rc at ht
  subst ht
  rw [setX_xWith]
  have hx := x_of_xWith (s := u) (t := State.retire { State.wake { u with rcache := rc } with
    hart := { u.wake.hart with x := xWith u.hart.x d x } }) rfl
  exact ⟨⟨fun _ => rfl, fun _ => rfl⟩, (hx d).trans (if_pos rfl), fun q hq => (hx q).trans ((if_neg hq).trans (co_x h q)),
    ⟨by rw [← co_pc h, ← co_len h]; rfl, by rw [← co_instret h]; rfl⟩, rfl⟩

/-- What a wait that is not satisfied leaves. -/
theorem wait_leaves (ht : t = { u with rcache := t.rcache }) (k : Wait) :
    let r := t.wait k .monitor
    sameMemory u r ∧ r = { u with rcache := r.rcache, hart := { u.hart with phase := .monitor, waiting := some k } } := by
  generalize t.rcache = rc at ht
  subst ht
  exact ⟨⟨fun _ => rfl, fun _ => rfl⟩, rfl⟩

end

theorem waitsLook : Claim.WaitsLook := by
  intro s i ge d a b sc n l hi hs hl ha
  obtain ⟨hn, hexec⟩ := exec_wait hi hs
  obtain ⟨v, t, hload, hlt, hbytes, -, ht⟩ := acquireLoad_says hn hl ha
  rw [co_strip (co_drain s), hs] at hbytes
  obtain ⟨hcompletes, hwaits⟩ := waitLocation_of_load (ge := ge) (d := d) (val := s.x b) hload
  have hco := (co_drain s).trans (co_nearFor s.drain sc l)
  by_cases hsat : satisfies ge n v (s.x b)
  · obtain ⟨hmem, hdone⟩ := woken_leaves (d := d) hco ht (BitVec.ofNat 64 v)
    rw [hcompletes hsat] at hexec
    exact ⟨_, v, hexec, hlt, hbytes, hmem, (if_pos hsat).symm ▸ hdone⟩
  · obtain ⟨hmem, hdone⟩ := wait_leaves ht (.location ge d n sc (s.x a) (s.x b))
    rw [hwaits hsat] at hexec
    exact ⟨_, v, hexec, hlt, hbytes, hmem, (if_neg hsat).symm ▸ hdone⟩

/-- Settles O16, by its two parts: fences, and looks at a location. -/
theorem fencesAndWaits : Obligations.FencesAndWaits := ⟨fences, waitsLook⟩

end Sys2Proof.Laws
end

section
/-! Every instruction's words decode to it (06 R113 to R120): the round trips of the single instructions put together. -/

namespace Sys2Proof.Laws.RoundTrip

set_option Elab.async false

open Sys2Proof

/-- The round trip of each instruction is its lemma; an event has no words. -/
theorem decodeWords_encode (i : Instr) : Statement i := by
  cases i with
  | add => exact add _ _ _
  | sub => exact sub _ _ _
  | and => exact and _ _ _
  | or => exact or _ _ _
  | xor => exact xor _ _ _
  | andn => exact andn _ _ _
  | sll => exact sll _ _ _
  | srl => exact srl _ _ _
  | sra => exact sra _ _ _
  | rol => exact rol _ _ _
  | ror => exact ror _ _ _
  | min => exact min _ _ _
  | max => exact max _ _ _
  | minu => exact minu _ _ _
  | maxu => exact maxu _ _ _
  | csel => exact csel _ _ _ _
  | addi => exact addi _ _ _
  | andi => exact andi _ _ _
  | ori => exact ori _ _ _
  | xori => exact xori _ _ _
  | slli => exact slli _ _ _
  | srli => exact srli _ _ _
  | srai => exact srai _ _ _
  | rori => exact rori _ _ _
  | lui => exact lui _ _
  | lb => exact lb _ _ _
  | lh => exact lh _ _ _
  | lw => exact lw _ _ _
  | ld => exact ld _ _ _
  | lbu => exact lbu _ _ _
  | lhu => exact lhu _ _ _
  | lwu => exact lwu _ _ _
  | sb => exact sb _ _ _
  | sh => exact sh _ _ _
  | sw => exact sw _ _ _
  | sd => exact sd _ _ _
  | bc => exact bc _ _ _
  | bnc => exact bnc _ _ _
  | jal => exact jal _ _
  | jalr => exact jalr _ _ _
  | cmpiEq => exact cmpiEq _ _ _
  | cmpiLt => exact cmpiLt _ _ _
  | cmpiLtu => exact cmpiLtu _ _ _
  | cmpEq => exact cmpEq _ _ _
  | cmpLt => exact cmpLt _ _ _
  | cmpLtu => exact cmpLtu _ _ _
  | cmpTst => exact cmpTst _ _ _
  | cand => exact cand _ _ _
  | cor => exact cor _ _ _
  | cxor => exact cxor _ _ _
  | candn => exact candn _ _ _
  | movs => exact movs _ _
  | smov => exact smov _ _
  | trap => exact trap _
  | ebreak => exact ebreak
  | kret => exact kret
  | mcall => exact mcall _
  | monret => exact monret
  | invpg => exact invpg _ _
  | invpgG => exact invpgG _
  | hend => exact hend _
  | mul => exact mul _ _ _
  | mulhiSs => exact mulhiSs _ _ _
  | mulhiUu => exact mulhiUu _ _ _
  | mulhiSu => exact mulhiSu _ _ _
  | div => exact div _ _ _
  | divu => exact divu _ _ _
  | rem => exact rem _ _ _
  | remu => exact remu _ _ _
  | faddS => exact faddS _ _ _ _
  | faddD => exact faddD _ _ _ _
  | fsubS => exact fsubS _ _ _ _
  | fsubD => exact fsubD _ _ _ _
  | fmulS => exact fmulS _ _ _ _
  | fmulD => exact fmulD _ _ _ _
  | fdivS => exact fdivS _ _ _ _
  | fdivD => exact fdivD _ _ _ _
  | fsqrtS => exact fsqrtS _ _ _
  | fsqrtD => exact fsqrtD _ _ _
  | fminS => exact fminS _ _ _ _
  | fminD => exact fminD _ _ _ _
  | fmaxS => exact fmaxS _ _ _ _
  | fmaxD => exact fmaxD _ _ _ _
  | fmacS => exact fmacS _ _ _ _
  | fmacD => exact fmacD _ _ _ _
  | fcmpEqS => exact fcmpEqS _ _ _ _
  | fcmpEqD => exact fcmpEqD _ _ _ _
  | fcmpLtS => exact fcmpLtS _ _ _ _
  | fcmpLtD => exact fcmpLtD _ _ _ _
  | fcmpLeS => exact fcmpLeS _ _ _ _
  | fcmpLeD => exact fcmpLeD _ _ _ _
  | fcvtLS => exact fcvtLS _ _ _ _
  | fcvtLD => exact fcvtLD _ _ _ _
  | fcvtLuS => exact fcvtLuS _ _ _ _
  | fcvtLuD => exact fcvtLuD _ _ _ _
  | fcvtSL => exact fcvtSL _ _ _
  | fcvtDL => exact fcvtDL _ _ _
  | fcvtSLu => exact fcvtSLu _ _ _
  | fcvtDLu => exact fcvtDLu _ _ _
  | fcvtSD => exact fcvtSD _ _ _ _
  | fcvtDS => exact fcvtDS _ _ _
  | clz => exact clz _ _
  | ctz => exact ctz _ _
  | popc => exact popc _ _
  | bswap => exact bswap _ _
  | bfx => exact bfx _ _ _ _
  | bfxu => exact bfxu _ _ _ _
  | bfi => exact bfi _ _ _ _
  | fsh => exact fsh _ _ _ _
  | fshv => exact fshv _ _ _ _
  | bfxuv => exact bfxuv _ _ _ _
  | amoAdd => exact amoAdd _ _ _ _ _ _
  | amoAnd => exact amoAnd _ _ _ _ _ _
  | amoOr => exact amoOr _ _ _ _ _ _
  | amoXor => exact amoXor _ _ _ _ _ _
  | amoMin => exact amoMin _ _ _ _ _ _
  | amoMax => exact amoMax _ _ _ _ _ _
  | amoMinu => exact amoMinu _ _ _ _ _ _
  | amoMaxu => exact amoMaxu _ _ _ _ _ _
  | amoSwap => exact amoSwap _ _ _ _ _ _
  | amoCas => exact amoCas _ _ _ _ _ _
  | casQ => exact casQ _ _ _ _ _
  | ldAcq => exact ldAcq _ _ _ _
  | stRel => exact stRel _ _ _ _
  | fence => exact fence _ _ _ _ _
  | ifence => exact ifence
  | waitge => exact waitge _ _ _ _ _
  | waiteq => exact waiteq _ _ _ _ _
  | barInit => exact barInit _ _ _
  | barArrive => exact barArrive _ _ _
  | barWait => exact barWait _ _ _
  | barFin => exact barFin _
  | farmDef => exact farmDef _ _
  | farmNext => exact farmNext _ _
  | farmEnd => exact farmEnd
  | scommit => exact scommit
  | sabort => exact sabort
  | sbegin => exact sbegin _
  | launch => exact launch _ _ _
  | setvl => exact setvl _ _ _ _
  | setvlH => exact setvlH _ _ _ _
  | vld => exact vld _ _ _ _ _
  | vldff => exact vldff _ _ _ _
  | vlds => exact vlds _ _ _ _ _ _
  | vst => exact vst _ _ _ _
  | vsts => exact vsts _ _ _ _ _
  | vldx => exact vldx _ _ _ _ _ _ _
  | vldxFar => exact vldxFar _ _ _ _ _ _ _
  | vstx => exact vstx _ _ _ _ _ _
  | vstxFar => exact vstxFar _ _ _ _ _ _
  | vldseg => exact vldseg _ _ _ _ _ _
  | vstseg => exact vstseg _ _ _ _ _
  | vldsegP => exact vldsegP _ _ _ _ _ _ _
  | vstsegP => exact vstsegP _ _ _ _ _ _ _
  | vld2 => exact vld2 _ _ _ _ _
  | vst2 => exact vst2 _ _ _ _
  | vsbind => exact vsbind _ _ _ _
  | vsunbind => exact vsunbind _
  | vtag => exact vtag _ _
  | vtagr => exact vtagr _ _
  | spdisc => exact spdisc _ _
  | spkeep => exact spkeep _ _
  | vadd => exact vadd _ _ _ _ _ _ _ _
  | vsub => exact vsub _ _ _ _ _ _ _ _
  | vmul => exact vmul _ _ _ _ _ _ _ _
  | vdiv => exact vdiv _ _ _ _ _ _ _
  | vrem => exact vrem _ _ _ _ _ _ _
  | vmin => exact vmin _ _ _ _ _ _ _
  | vmax => exact vmax _ _ _ _ _ _ _
  | vand => exact vand _ _ _ _ _ _ _
  | vor => exact vor _ _ _ _ _ _ _
  | vxor => exact vxor _ _ _ _ _ _ _
  | vsll => exact vsll _ _ _ _ _ _ _
  | vsrl => exact vsrl _ _ _ _ _ _ _
  | vsra => exact vsra _ _ _ _ _ _ _
  | vmulh => exact vmulh _ _ _ _ _ _ _
  | vaddX => exact vaddX _ _ _ _ _ _ _
  | vsubX => exact vsubX _ _ _ _ _ _ _
  | vmulX => exact vmulX _ _ _ _ _ _ _
  | vdivX => exact vdivX _ _ _ _ _ _
  | vremX => exact vremX _ _ _ _ _ _
  | vminX => exact vminX _ _ _ _ _ _
  | vmaxX => exact vmaxX _ _ _ _ _ _
  | vandX => exact vandX _ _ _ _ _ _
  | vorX => exact vorX _ _ _ _ _ _
  | vxorX => exact vxorX _ _ _ _ _ _
  | vsllX => exact vsllX _ _ _ _ _ _
  | vsrlX => exact vsrlX _ _ _ _ _ _
  | vsraX => exact vsraX _ _ _ _ _ _
  | vmulhX => exact vmulhX _ _ _ _ _ _
  | vfma => exact vfma _ _ _ _ _ _ _ _
  | vfms => exact vfms _ _ _ _ _ _ _ _
  | vfnma => exact vfnma _ _ _ _ _ _ _ _
  | vfnms => exact vfnms _ _ _ _ _ _ _ _
  | vcmpEq => exact vcmpEq _ _ _ _ _ _ _
  | vcmpNe => exact vcmpNe _ _ _ _ _ _ _
  | vcmpLt => exact vcmpLt _ _ _ _ _ _ _
  | vcmpLe => exact vcmpLe _ _ _ _ _ _ _
  | vcmpEqX => exact vcmpEqX _ _ _ _ _ _
  | vcmpNeX => exact vcmpNeX _ _ _ _ _ _
  | vcmpLtX => exact vcmpLtX _ _ _ _ _ _
  | vcmpLeX => exact vcmpLeX _ _ _ _ _ _
  | vcmpGtX => exact vcmpGtX _ _ _ _ _ _
  | vcmpGeX => exact vcmpGeX _ _ _ _ _ _
  | mand => exact mand _ _ _
  | mor => exact mor _ _ _
  | mxor => exact mxor _ _ _
  | mandn => exact mandn _ _ _
  | mnot => exact mnot _ _
  | msbf => exact msbf _ _
  | msif => exact msif _ _
  | mpopc => exact mpopc _ _ _
  | mfirst => exact mfirst _ _ _
  | vmv => exact vmv _ _ _ _
  | vmerge => exact vmerge _ _ _ _ _ _
  | vsplat => exact vsplat _ _ _
  | vid => exact vid _ _
  | vslideup => exact vslideup _ _ _ _ _
  | vslidedn => exact vslidedn _ _ _ _ _
  | vslide1up => exact vslide1up _ _ _ _ _
  | vslide1dn => exact vslide1dn _ _ _ _ _
  | vrgather => exact vrgather _ _ _ _ _ _
  | vcompress => exact vcompress _ _ _ _
  | vexpand => exact vexpand _ _ _ _
  | vpfxpop => exact vpfxpop _ _
  | vconflict => exact vconflict _ _ _ _
  | vscanSegAdd => exact vscanSegAdd _ _ _ _ _
  | vscanSegMin => exact vscanSegMin _ _ _ _ _
  | vscanSegMax => exact vscanSegMax _ _ _ _ _
  | vredAdd => exact vredAdd _ _ _ _ _ _ _
  | vredMin => exact vredMin _ _ _ _ _ _ _
  | vredMax => exact vredMax _ _ _ _ _ _ _
  | vredAnd => exact vredAnd _ _ _ _ _ _ _
  | vredOr => exact vredOr _ _ _ _ _ _ _
  | vredXor => exact vredXor _ _ _ _ _ _ _
  | vfredOrd => exact vfredOrd _ _ _ _ _ _ _
  | vcvt => exact vcvt _ _ _ _ _ _ _
  | vneg => exact vneg _ _ _ _ _ _
  | vabs => exact vabs _ _ _ _ _ _
  | vsqrt => exact vsqrt _ _ _ _ _
  | vexp2 => exact vexp2 _ _ _ _ _
  | vlog2 => exact vlog2 _ _ _ _ _
  | vrcp => exact vrcp _ _ _ _ _
  | vrsqrt => exact vrsqrt _ _ _ _ _
  | vbext => exact vbext _ _ _ _ _ _ _
  | vfsh => exact vfsh _ _ _ _ _ _
  | xaClr => exact xaClr _
  | xaAddv => exact xaAddv _ _ _ _
  | xaDot => exact xaDot _ _ _ _ _ _
  | xaRd => exact xaRd _ _ _ _
  | xaRdv => exact xaRdv _ _ _ _
  | xaLd => exact xaLd _ _ _
  | xaSt => exact xaSt _ _
  | vmvXv => exact vmvXv _ _ _ _
  | vmvVx => exact vmvVx _ _ _
  | qld => exact qld _ _ _
  | qwalk => exact qwalk _ _ _
  | qwalkD => exact qwalkD _ _ _
  | qst => exact qst _ _
  | qisectMul => exact qisectMul _ _ _ _ _
  | qisectA => exact qisectA _ _ _
  | qisectB => exact qisectB _ _ _
  | qunionAdd => exact qunionAdd _ _ _ _ _
  | qmerge => exact qmerge _ _ _
  | qsort => exact qsort _ _
  | qcompact => exact qcompact _ _
  | qcompactM => exact qcompactM _ _ _
  | qdot => exact qdot _ _ _
  | qexpand => exact qexpand _ _ _
  | qfromv => exact qfromv _ _ _
  | qfromvAll => exact qfromvAll _ _ _
  | qcoord => exact qcoord _ _
  | qval => exact qval _ _
  | qcnt => exact qcnt _ _
  | qclr => exact qclr _
  | qscale => exact qscale _ _ _ _ _
  | qredAdd => exact qredAdd _ _ _
  | qredMin => exact qredMin _ _
  | qredMax => exact qredMax _ _
  | mattach => exact mattach _
  | mdetach => exact mdetach
  | mzeroT => exact mzeroT _
  | mzeroZ => exact mzeroZ _
  | mldT => exact mldT _ _ _
  | mldZ => exact mldZ _ _ _
  | mldbm => exact mldbm _ _ _ _
  | mstT => exact mstT _ _
  | mstZ => exact mstZ _ _
  | mma => exact mma _ _ _ _ _ _
  | mmaSp => exact mmaSp _ _ _ _ _ _
  | mmaSs => exact mmaSs _ _ _ _ _ _
  | mdrain => exact mdrain _ _ _ _ _
  | mdrainX => exact mdrainX _ _ _ _ _ _
  | mdrainv => exact mdrainv _ _ _ _ _
  | cpy => exact cpy _ _ _ _
  | cpy2 => exact cpy2 _ _ _ _ _
  | cpyG => exact cpyG _ _ _ _ _
  | cpyGd => exact cpyGd _ _ _ _ _
  | cpyR => exact cpyR _ _ _ _
  | cbatch => exact cbatch
  | cwait => exact cwait _
  | cstat => exact cstat _ _ _
  | cack => exact cack _
  | lzInit => exact lzInit _ _ _
  | lzRes => exact lzRes _ _
  | lzWait => exact lzWait _ _
  | lzFree => exact lzFree _ _
  | lzScrub => exact lzScrub _ _
  | lzFin => exact lzFin _
  | qsend => exact qsend _ _ _ _
  | qrecv => exact qrecv _ _ _
  | _ => exact event _ rfl

/-- Settles O56: by the round trip of each instruction. -/
theorem encodeDecode : Obligations.EncodeDecode := decodeWords_encode

end Sys2Proof.Laws.RoundTrip
end

section
/-! Every instruction and every event answers with a next state (01 R16, R18; 18 R299), whatever the state. -/

namespace Sys2Proof.Laws

set_option Elab.async false

open Sys2Proof Sys2Proof.Machine

variable (s : State)

/-- An outcome is a next state. -/
def Answers (o : Host.Outcome State Fault Refusal) : Prop := ∃ t, o = .next t

theorem answers_next (t : State) : Answers (.next t) := ⟨t, rfl⟩

theorem answers_ite {p : Prop} [Decidable p] {a b : Host.Outcome State Fault Refusal} (ha : Answers a) (hb : Answers b) :
    Answers (if p then a else b) := by split <;> assumption

/-! ### The meanings that go several ways -/

theorem answers_scommit : Answers (execScommit s) := by
  unfold execScommit
  dsimp only
  split
  · exact answers_next _
  · split <;> exact answers_next _

theorem answers_zoneFirstRequest (t : Transfer) : Answers (execZoneFirstRequest t s) := by
  cases t with
  | theirs dev ticket size fib =>
    refine answers_ite ?_ (answers_next _)
    split
    · exact answers_next _
    · split
      · exact answers_ite (answers_next _) (answers_next _)
      · exact answers_next _
  | _ => exact answers_next _

theorem answers_eyeletPayloadWrite (t : Transfer) (data : List Byte) : Answers (execEyeletPayloadWrite t data s) := by
  unfold execEyeletPayloadWrite
  cases t with
  | theirs dev ticket size fib =>
    dsimp only
    split
    · exact answers_next _
    · split
      · exact answers_next _
      · exact answers_ite (answers_next _) (answers_next _)
  | ended dev ticket => dsimp only; split <;> exact answers_next _
  | _ => exact answers_next _

theorem answers_hartRestore (h : Nat) : Answers (execHartRestore h s) := by
  unfold execHartRestore
  split
  · exact answers_next _
  · refine answers_ite ?_ (answers_next _)
    split
    · exact answers_ite (answers_next _) (answers_next _)
    · exact answers_next _

theorem answers_launchDone (n : Nat) : Answers (execLaunchDone n s) := by
  unfold execLaunchDone
  split
  · exact answers_next _
  · refine answers_ite ?_ (answers_next _)
    split <;> exact answers_next _

theorem answers_packetAccept (q : Fin 1024) : Answers (execPacketAccept q s) := by
  unfold execPacketAccept
  split
  · exact answers_ite (answers_next _) (answers_next _)
  · exact answers_next _

theorem answers_rackLaunchRequest (source : Word) (queue request : BitVec 16) (rest : List Byte) :
    Answers (execRackLaunchRequest source queue request rest s) := by
  unfold execRackLaunchRequest
  dsimp only
  split
  · exact answers_ite (answers_ite (answers_next _) (answers_next _)) (answers_next _)
  · exact answers_next _

theorem answers_registerWrite (r : DevReg) (v : Word) : Answers (execRegisterWrite r v s) := by
  cases r with
  | bar off => exact answers_ite (answers_next _) (answers_next _)
  | partition p n => exact answers_ite (answers_next _) (answers_ite (answers_next _) (answers_next _))

theorem answers_cacheEvictionWriteback (holder : Cache) (line : Nat) : Answers (execCacheEvictionWriteback holder line s) := by
  unfold execCacheEvictionWriteback
  split
  · exact answers_next _
  · exact answers_ite (answers_next _) (answers_next _)

theorem answers_pathLost (p : Path) : Answers (execPathLost p s) := by
  cases p <;> exact answers_ite (answers_next _) (answers_next _)

theorem answers_hostInterrupt (vf : Fin 9) (value : BitVec 32) (core : Fin 128) (slot : Fin 16) :
    Answers (execHostInterrupt vf value core slot s) := by
  refine answers_ite (answers_next _) ?_
  split
  · exact answers_ite (answers_next _) (answers_next _)
  · exact answers_next _

theorem answers_rowRepairDone : Answers (execRowRepairDone s) := by
  unfold execRowRepairDone
  split <;> exact answers_next _

theorem answers_portTraining (port : Fin 4) (ok : Bool) : Answers (execPortTraining port ok s) := by
  unfold execPortTraining
  dsimp only
  split <;> exact answers_next _

/-- Every meaning ends in a next state: a trap and a wait are next states too. -/
theorem exec_answers (i : Instr) (s : State) : Answers (exec i s) := by
  cases i with
  | scommit => exact answers_scommit s
  | zoneFirstRequest t => exact answers_zoneFirstRequest s t
  | eyeletPayloadWrite t data => exact answers_eyeletPayloadWrite s t data
  | hartRestore h => exact answers_hartRestore s h
  | launchDone n => exact answers_launchDone s n
  | packetAccept q => exact answers_packetAccept s q
  | rackLaunchRequest source queue request rest => exact answers_rackLaunchRequest s source queue request rest
  | registerWrite r v => exact answers_registerWrite s r v
  | cacheEvictionWriteback holder line => exact answers_cacheEvictionWriteback s holder line
  | pathLost p => exact answers_pathLost s p
  | hostInterrupt vf value core slot => exact answers_hostInterrupt s vf value core slot
  | rowRepairDone => exact answers_rowRepairDone s
  | portTraining port ok => exact answers_portTraining s port ok
  | mattach => exact answers_ite (answers_next _) (answers_ite (answers_next _) (answers_ite (answers_next _) (answers_next _)))
  | hostWrite => exact answers_ite (answers_ite (answers_next _) (answers_next _)) (answers_next _)
  | configurationImage | memoryErrorEvent => exact answers_ite (answers_next _) (answers_ite (answers_next _) (answers_next _))
  | jalr | mdetach | lzResRequest | schedulePlacement | hostRead | pathReturn | pathLostForGood | transmitKeySwitch |
    counterExhaustion | keyHoldTimeout | ps3Standby | unitReady | tempAlert | thermalPowerRemoval | rowRepair =>
    exact answers_ite (answers_next _) (answers_next _)
  | _ => exact answers_next _

end Sys2Proof.Laws
end

section
/-! The words at the program counter are fetched (06 R113, R117, R120), and the instruction that they decode to runs (R113 to R124). Nothing
here needs a sound state: what a fetch brings near is read from the one memory that the state without it has. -/

namespace Sys2Proof.Laws

set_option Elab.async false

open Sys2Proof Sys2Proof.Machine Sys2Proof.Claim

variable {s t u : State}

/-! ### What a translation depends on -/

/-- Two states apart in the cached remote lines and the vector registers of the hart whose turn it is only. -/
def Refetched (s t : State) : Prop := ∃ R V, t = { s with rcache := R, hart := { s.hart with v := V } }

theorem Refetched.walk (h : Refetched s t) (c : Ctx) (k : Access) (va : Nat) (lv : List (Nat × Nat)) (table : Nat) :
    t.walk c k va lv table = s.walk c k va lv table := by
  induction lv generalizing table with
  | nil => rfl
  | cons p lv ih =>
    have hentry : t.tableEntry c va p.2 table = s.tableEntry c va p.2 table := by obtain ⟨_, _, rfl⟩ := h; rfl
    rw [State.walk, State.walk, hentry]
    simp only [ih]

theorem Refetched.translate (h : Refetched s t) (c : Ctx) (k : Access) (va : Nat) : t.translate c k va = s.translate c k va := by
  have hcached : t.cached c va = s.cached c va := by obtain ⟨_, _, rfl⟩ := h; rfl
  have hroot : t.rootOf c = s.rootOf c := by obtain ⟨_, _, rfl⟩ := h; rfl
  unfold State.translate State.lookup
  simp only [hcached, hroot, h.walk]

theorem Refetched.resolveIn (h : Refetched s t) (k : Access) (va n align : Nat) :
    t.resolveIn t.hart.ctx k va n align = s.resolveIn s.hart.ctx k va n align := by
  have hctx : t.hart.ctx = s.hart.ctx := by obtain ⟨_, _, rfl⟩ := h; rfl
  have hplace : t.hart.place = s.hart.place := by obtain ⟨_, _, rfl⟩ := h; rfl
  unfold State.resolveIn
  dsimp only
  rw [hctx, hplace, h.translate]

theorem locate_of_parts {k : Access} {va n : Nat} {c : Bool} {l : Loc} (hr : s.resolveIn s.hart.ctx k va n n = .ok l)
    (ht : s.targetTakes s.hart.place.part k l va n c = .ok ()) : s.locate k va n n c = .ok l := by
  show (s.resolveIn s.hart.ctx k va n n >>= fun l => s.targetTakes s.hart.ctx.part k l va n c >>= fun _ => .ok l) = _
  rw [hr]
  show (s.targetTakes s.hart.place.part k l va n c >>= fun _ => .ok l) = _
  rw [ht]
  rfl

/-! ### Vector registers, which no access looks at -/

/-- A state with other vector registers of the hart whose turn it is. -/
def withVectors (V : Vector VReg 32) (s : State) : State := { s with hart := { s.hart with v := V } }

/-- Every element present (R37): the registers are as they were but for what was still owed to them. -/
theorem present_eq (s : State) : ∃ V : Vector VReg 32, s.present = withVectors V s ∧
    ∀ r : VNum, V[r.val] = { s.hart.v[r.val] with owed := 0 } := by
  unfold State.present
  split
  · exact ⟨_, rfl, fun r => Vector.getElem_map ..⟩
  · rename_i hany
    refine ⟨s.hart.v, rfl, fun r => ?_⟩
    have hnone : s.hart.v[r.val].owed = 0 := by
      by_contra h
      exact hany (List.any_eq_true.2 ⟨_, Vector.mem_toList_iff.2 (Vector.getElem_mem _), bne_iff_ne.2 h⟩)
    rw [← hnone]

theorem sendBytes_withVectors (V : Vector VReg 32) (line : Nat) (ds : List Dirty) (s : State) :
    ds.foldl (fun s d => s.sendByte line d) (withVectors V s) = withVectors V (ds.foldl (fun s d => s.sendByte line d) s) := by
  induction ds generalizing s with
  | nil => rfl
  | cons d ds ih =>
    rw [List.foldl_cons, List.foldl_cons, ← ih]
    congr 1
    unfold State.sendByte State.putLoc
    cases d.half <;> rfl

theorem writeBack_withVectors (V : Vector VReg 32) (s : State) (l : RLine) :
    (withVectors V s).writeBack l = withVectors V (s.writeBack l) := by
  cases h : stuck s l with
  | true => rw [writeBack_stuck h, writeBack_stuck (show stuck (withVectors V s) l = true from h)]
  | false =>
    rw [writeBack_sent h, writeBack_sent (show stuck (withVectors V s) l = false from h), sendBytes_withVectors]
    rfl

theorem settle_withVectors (V : Vector VReg 32) (s : State) (hid a : Nat) :
    (withVectors V s).settle hid a = withVectors V (s.settle hid a) := by
  rw [settle_eq, settle_eq, show waitedFor (withVectors V s) hid a = waitedFor s hid a from rfl]
  generalize waitedFor s hid a = ls
  induction ls generalizing s with
  | nil => rfl
  | cons l ls ih => rw [List.foldl_cons, List.foldl_cons, writeBack_withVectors, ih]

theorem near_withVectors (V : Vector VReg 32) (s : State) (l : Loc) : near (withVectors V s) l = withVectors V (near s l) := by
  cases l with
  | spad i => rfl
  | phys a =>
    by_cases hr : ∃ d o, targetOf a = .remote d o
    · rw [near_remote hr, near_remote hr, apply_ite (withVectors V), ← settle_withVectors]
      rfl
    · rw [near_local _ a hr, near_local _ a hr]

theorem wordStands_withVectors {a : Word} {l : Loc} {w : Nat} (h : wordStands s a l w) (V : Vector VReg 32) :
    wordStands (withVectors V s) a l w := by
  obtain ⟨hl, hread, hw, hbytes⟩ := h
  obtain ⟨hresolve, htake⟩ := locate_parts hl
  refine ⟨locate_of_parts ((Refetched.resolveIn ⟨s.rcache, V, rfl⟩ ..).trans hresolve) htake, hread, hw, ?_⟩
  rw [near_withVectors]
  exact hbytes

/-! ### One word -/

/-- Lines that a read of a location brings: none, or those that fill the line of another device. -/
def Brings (n : State) (l : Loc) (F : List RLine) : Prop :=
  F = [] ∨ ∃ a, l = .phys a ∧ (∃ d o, targetOf a = .remote d o) ∧ Filling n a F

/-- A word that stands somewhere is fetched, and at most its line is brought near. -/
theorem fetchWord_says {a : Word} {l : Loc} {w : Nat} (h : wordStands s a l w) :
    ∃ F, fetchWord s a = .ok (w, withLines F (near s l)) ∧ Brings (near s l) l F ∧ seenAlike (near s l) (withLines F (near s l)) := by
  obtain ⟨hl, hread, hw, hstands⟩ := h
  obtain ⟨v, t, hv, hbytes, hlt, hseen, -⟩ := readAt_seen s l a.toNat 4 (by decide) (fun b hb => locate_phys (hb ▸ hl) (by decide)) hread
  have hvw : v = w := (eq_foldr_bytes _ 4 v hlt hbytes).trans (eq_foldr_bytes _ 4 w hw hstands).symm
  subst hvw
  obtain ⟨F, rfl, hF⟩ := readAt_adds hv
  refine ⟨F, ?_, hF, hseen⟩
  unfold fetchWord
  rw [hl]
  exact hv

/-! ### The word behind it -/

/-- An access to the line that a read has just brought finds it as the read left it. -/
theorem near_withLines_same {F : List RLine} {a b : Nat} (ha : ∃ d o, targetOf a = .remote d o) (hb : ∃ d o, targetOf b = .remote d o)
    (h : a / 128 = b / 128) (hF : Filling (near s (.phys a)) a F) :
    near (near s (.phys a)) (.phys b) = near s (.phys a) ∧
      near (withLines F (near s (.phys a))) (.phys b) = withLines F (near s (.phys a)) := by
  have hsame : near (near s (.phys a)) (.phys b) = near s (.phys a) := by
    rw [near_near_same ha hb h, near_remote hb, near_remote ha, copyOf_congr _ _ _ _ h, settle_congr _ _ h]
  refine ⟨hsame, ?_⟩
  cases F with
  | nil => exact hsame
  | cons f F =>
    have hcopy : ((withLines (f :: F) (near s (.phys a))).copyOf (near s (.phys a)).hart.place.core b).isSome = true :=
      (copyOf_isSome_iff ..).2 ⟨f, List.mem_cons_self .., hF.holder f (List.mem_cons_self ..),
        (hF.line f (List.mem_cons_self ..)).trans (by rw [h])⟩
    rw [near_remote hb]
    exact if_pos hcopy

/-- An access to another line finds it beside the lines that a read has brought as it would without them. -/
theorem near_withLines_other {F : List RLine} {b : Nat} (hb : ∃ d o, targetOf b = .remote d o) (hclean : ∀ f ∈ F, f.dirty = [])
    (hline : ∀ f ∈ F, f.line ≠ b / 128 * 128) (h : seenAlike s (withLines F s)) :
    near (withLines F s) (.phys b) = withLines F (near s (.phys b)) ∧
      seenAlike (near s (.phys b)) (withLines F (near s (.phys b))) := by
  rw [near_remote hb, near_remote hb, show (withLines F s).hart = s.hart from rfl, copyOf_withLines_other hline]
  split
  · exact ⟨rfl, h⟩
  rw [← settle_withLines hclean hline]
  refine ⟨rfl, fun core hid m => ?_⟩
  by_cases hm : ∃ a, m = .phys a ∧ a / 128 = b / 128
  · obtain ⟨a, rfl, hab⟩ := hm
    rw [settle_withLines hclean hline]
    exact (alikeAt_withLines (hab ▸ hline) _).seen core hid
  · have hoff : ∀ a, m = .phys a → a / 128 ≠ b / 128 := fun a ha he => hm ⟨a, ha, he⟩
    rw [seen_settle_other _ _ hoff, seen_settle_other _ _ hoff]
    exact h core hid m

/-- An access after a read finds its location as it would if the read had only found its own. -/
theorem near_after_read {F : List RLine} {l m : Loc} (hF : Brings (near s l) l F) (h : seenAlike (near s l) (withLines F (near s l))) :
    near (withLines F (near s l)) m = withLines F (near (near s l) m) ∧
      seenAlike (near (near s l) m) (withLines F (near (near s l) m)) := by
  by_cases hm : ∃ b, m = .phys b ∧ ∃ d o, targetOf b = .remote d o
  · obtain ⟨b, rfl, hb⟩ := hm
    rcases hF with rfl | ⟨a, rfl, ha, hfill⟩
    · exact ⟨rfl, fun _ _ _ => rfl⟩
    · by_cases hline : a / 128 = b / 128
      · obtain ⟨hn, ht⟩ := near_withLines_same ha hb hline hfill
        rw [hn]
        exact ⟨ht, h⟩
      · exact near_withLines_other hb hfill.clean (fun f hf he => hline (by rw [hfill.line f hf] at he; omega)) h
  · have hsame (v : State) : near v m = v := by
      cases m with
      | spad i => rfl
      | phys b => exact near_local v b fun hr => hm ⟨b, rfl, hr⟩
    rw [hsame, hsame]
    exact ⟨rfl, h⟩

/-- A word that stood beside a read stands after it. -/
theorem wordStands_after_read {F : List RLine} {l m : Loc} {a : Word} {w : Nat} (hF : Brings (near s l) l F)
    (h : seenAlike (near s l) (withLines F (near s l))) (hw : wordStands (near s l) a m w) :
    wordStands (withLines F (near s l)) a m w := by
  obtain ⟨hl, hread, hlt, hbytes⟩ := hw
  obtain ⟨hresolve, htake⟩ := locate_parts hl
  obtain ⟨hnear, hseen⟩ := near_after_read (m := m) hF h
  refine ⟨locate_of_parts ((Refetched.resolveIn ⟨_, (near s l).hart.v, rfl⟩ ..).trans hresolve)
    (targetTakes_kept (co_rcache ..) (fun _ _ _ => copyOf_isSome_withLines F) htake), ?_, hlt, fun k hk => ?_⟩
  · rcases hF with rfl | ⟨_, rfl, -, hfill⟩
    · exact hread
    · exact hfill.readable hread
  · rw [hnear, hbytes k hk]
    exact (hseen ..).symm

/-! ### Fetching -/

theorem fetch_single {w : Nat} (h : fetchWord s.present s.hart.pc = .ok (w, t)) (hw : isLeading w = false) :
    fetch s = .ok (w, 127, t) := by
  unfold fetch
  rw [h]
  show (if (isLeading w && _) = true then _ else _) = _
  rw [hw]
  rfl

theorem fetch_pair {w1 w2 : Nat} (h1 : fetchWord s.present s.hart.pc = .ok (w1, t)) (hw : isLeading w1 = true)
    (hexit : s.hart.pc + 4 ≠ exitAddress) (h2 : fetchWord t (s.hart.pc + 4) = .ok (w2, u)) : fetch s = .ok (w1, w2, u) := by
  unfold fetch
  rw [h1]
  show (if (isLeading w1 && s.hart.pc + 4 != exitAddress) = true then State.orTrap _ (fetchWord t (s.hart.pc + 4)) >>= _ else _) = _
  rw [if_pos (by rw [hw, bne_iff_ne.2 hexit]; rfl), h2]
  rfl

/-- What fetching words comes to: every element is present, lines may have come near, and nobody sees any of that. -/
def Comes (s u : State) (w1 w2 : Nat) : Prop :=
  ∃ V F, fetch s = .ok (w1, w2, withVectors V (withLines F u)) ∧ (∀ r : VNum, V[r.val] = { s.hart.v[r.val] with owed := 0 }) ∧
    seenAlike u (withLines F u)

theorem fetch_comes_single {l : Loc} {w : Nat} (h : wordStands s s.hart.pc l w) (hw : isLeading w = false) :
    Comes s (near s l) w 127 := by
  obtain ⟨V, hV, howed⟩ := present_eq s
  obtain ⟨F, hfetch, -, hseen⟩ := fetchWord_says (wordStands_withVectors h V)
  rw [near_withVectors] at hfetch hseen
  exact ⟨V, F, fetch_single (hV ▸ hfetch) hw, howed, hseen⟩

theorem fetch_comes_pair {l1 l2 : Loc} {w1 w2 : Nat} (h1 : wordStands s s.hart.pc l1 w1) (hw : isLeading w1 = true)
    (hexit : s.hart.pc + 4 ≠ exitAddress) (h2 : wordStands (near s l1) (s.hart.pc + 4) l2 w2) :
    Comes s (near (near s l1) l2) w1 w2 := by
  obtain ⟨V, hV, howed⟩ := present_eq s
  obtain ⟨F, hfetch1, hF, hseen1⟩ := fetchWord_says (wordStands_withVectors h1 V)
  have h2V : wordStands (near (withVectors V s) l1) (s.hart.pc + 4) l2 w2 := by
    rw [near_withVectors]
    exact wordStands_withVectors h2 V
  obtain ⟨G, hfetch2, -, hseen2⟩ := fetchWord_says (wordStands_after_read hF hseen1 h2V)
  obtain ⟨hnear, hseen⟩ := near_after_read (m := l2) hF hseen1
  rw [hnear] at hfetch2 hseen2
  have hboth := seenAlike.trans hseen hseen2
  rw [near_withVectors] at hfetch1
  rw [near_withVectors, near_withVectors] at hfetch2 hboth
  refine ⟨V, G ++ F, (fetch_pair (hV ▸ hfetch1) hw hexit hfetch2).trans ?_, howed, ?_⟩
  · unfold withLines withVectors; rw [List.append_assoc]
  · unfold withLines; rw [List.append_assoc]; exact hboth

/-! ### The step -/

theorem passed_rotate (v : State) : Claim.passed v v.rotate := by
  unfold State.rotate
  exact ⟨fun h => by rw [h], fun j rest h => by rw [h]⟩

theorem step_of_idle (ha : s.agenda = []) (hp : s.power = true) : step s = act s := by
  unfold step
  rw [ha]
  exact if_pos hp

theorem step_of_runs (h : Claim.runs s) : step s = passTurn (issue s) := by
  obtain ⟨hagenda, hchances, hpower, hactive, hwaiting, hpc, hevents⟩ := h
  have htakes : s.hart.takesEvent = false := by
    unfold Hart.takesEvent
    rcases hevents with ⟨h20, h21, h22⟩ | hmon | ⟨hkernel, haie⟩
    · simp [h20, h21, h22]
    · simp [hmon]
    · simp [hkernel, haie]
  have hkind : s.turnKind = .instruction := by
    unfold State.turnKind
    simp only [hactive, htakes, hwaiting]
    exact if_neg hpc
  have hturn : turn s = issue s := by
    unfold turn
    simp only [hkind]
  rw [step_of_idle hagenda hpower]
  unfold act
  rw [hchances, hturn]

/-- A step of words that have been fetched: the instruction they decode to, else the trap of the word at fault. -/
theorem step_of_comes {w1 w2 : Nat} (hr : Claim.runs s) (hc : Comes s u w1 w2) :
    ∃ s', Claim.fetched s u s' ∧
      (∀ i pair, Claim.decodesTo w1 w2 i pair → s'.hart.iword = BitVec.ofNat 32 (if pair then w2 else w1) ∧ s'.hart.ipair = pair ∧
        ∃ v t, exec i s' = .next v ∧ step s = .next t ∧ Claim.passed v t) ∧
      (∀ second, decode w1 w2 = .illegal second →
        let second := second || (secondDynamic w1 w2 && (roundingOf s.hart.fcsr.rm).isNone)
        ∃ v t, exec (.illegalEncoding (BitVec.ofNat 32 (if second then w2 else w1)) second) s' = .next v ∧
          step s = .next t ∧ Claim.passed v t) := by
  obtain ⟨V, F, hfetch, howed, hseen⟩ := hc
  have hfetched (w : BitVec 32) (p : Bool) : Claim.fetched s u ((withVectors V (withLines F u)).latch w p) := ⟨hseen, howed, rfl⟩
  generalize withVectors V (withLines F u) = t at hfetch hfetched
  have hstep {i : Instr} {s' : State} (hi : issue s = exec i s') :
      ∃ v t, exec i s' = .next v ∧ step s = .next t ∧ Claim.passed v t := by
    obtain ⟨v, hv⟩ := exec_answers i s'
    exact ⟨v, v.rotate, hv, by rw [step_of_runs hr, hi, hv]; rfl, passed_rotate v⟩
  cases hd : decode w1 w2 with
  | instr j p =>
    refine ⟨t.latch (BitVec.ofNat 32 (if p then w2 else w1)) p, hfetched _ _, fun i pair he => ?_, fun _ he => by cases he⟩
    cases hd.symm.trans he
    exact ⟨rfl, rfl, hstep (by unfold issue; rw [hfetch]; dsimp only; rw [hd])⟩
  | illegal b =>
    refine ⟨t, hfetched t.hart.iword t.hart.ipair, fun i pair he => (by cases hd.symm.trans he), fun second he => ?_⟩
    cases he
    exact hstep (by unfold issue; rw [hfetch]; dsimp only; rw [hd]; rfl)

theorem stepRunsDecoded : Claim.StepRunsTheDecodedInstruction := by
  refine fun s => ⟨fun hr l1 l2 w1 w2 h1 h2 h3 => ?_, fun e rest ha hp he => ?_, fun c rest ha hp hc => ?_, fun ha hp => ?_⟩
  · cases hlead : isLeading w1 with
    | true =>
      obtain ⟨hexit, hstands⟩ := h2 hlead
      exact step_of_comes hr (fetch_comes_pair h1 hlead hexit hstands)
    | false =>
      rw [h3 hlead]
      exact step_of_comes hr (fetch_comes_single h1 hlead)
  · obtain ⟨t, ht⟩ := exec_answers e { s with agenda := rest }
    have hhears : s.hears e = true := by
      unfold State.hears
      split
      · rfl
      · rw [he, hp]; rfl
    refine ⟨t, ht, ?_⟩
    unfold step
    rw [ha]
    exact (if_pos hhears).trans ht
  · rw [step_of_idle ha hp]
    unfold act
    rw [hc]
  · unfold step
    rw [ha]
    exact if_neg (by simp [hp])

end Sys2Proof.Laws
end

section
/-! Events of one hart in another hart's turn (02 R37, 12 R233 to R247, 21 R344 to R350). -/

namespace Sys2Proof.Laws

set_option Elab.async false

open Sys2Proof Sys2Proof.Machine Sys2Proof.Claim

variable {s : State}

/-- An event of one hart is one thing done as that hart, if it is there and not switched out. -/
theorem exec_eventHart {i : Instr} {h : Nat} (hi : eventHart i = some h) : ∃ f, ∀ s, exec i s = .next (s.asLive h f) := by
  cases i with
  | zoneFirstRequest t => cases t <;> cases hi <;> exact ⟨_, fun _ => rfl⟩
  | eyeletPayloadWrite t data => cases t <;> cases hi; exact ⟨_, fun _ => rfl⟩
  | _ => cases hi <;> exact ⟨_, fun _ => rfl⟩

/-- The first hart of a number gives its place to the other. -/
theorem exchange_append {n : Nat} {k : Hart} (h : Hart) {l : List Hart} (r : List Hart) (hl : ∀ j ∈ l, j.place.hid ≠ n)
    (hk : k.place.hid = n) : exchange n h (l ++ k :: r) = some (k, l ++ h :: r) := by
  induction l with
  | nil => exact if_pos hk
  | cons j l ih =>
    rw [List.cons_append, exchange, if_neg (hl j (List.mem_cons_self ..)), ih fun i hi => hl i (List.mem_cons_of_mem _ hi)]
    rfl

theorem swap_append {n : Nat} {k : Hart} {l r : List Hart} (hp : s.parked = l ++ k :: r) (hl : ∀ j ∈ l, j.place.hid ≠ n)
    (hk : k.place.hid = n) : s.swap n = { s with hart := k, parked := l ++ s.hart :: r } := by
  unfold State.swap
  rw [hp, exchange_append _ _ hl hk]

/-- The hart that is found by a number that only harts before it could share. -/
theorem hartOf_append {k : Hart} {l r : List Hart} (hs : s.harts = l ++ k :: r) (hl : ∀ j ∈ l, j.place.hid ≠ k.place.hid)
    (hempty : k.phase ≠ .empty) : s.hartOf k.place.hid = some k := by
  unfold State.hartOf
  rw [hs, List.find?_append, List.find?_eq_none.2 fun j hj => by simp [hl j hj], Option.none_or]
  exact List.find?_cons_of_pos (by simp [hempty])

theorem asLive_parked {h : Nat} {k : Hart} (hof : s.hartOf h = some k) (hsw : k.phase ≠ .switched) (hne : s.hart.place.hid ≠ h)
    (f : State → State) : s.asLive h f = (f (s.swap h)).swap s.hart.place.hid := by
  unfold State.asLive State.asHart
  rw [hof]
  dsimp only
  rw [if_neg hsw, if_neg hne]

theorem asLive_absent {h : Nat} (ha : ∀ k ∈ s.hart :: s.parked, k.place.hid ≠ h ∨ k.phase = .empty ∨ k.phase = .switched)
    (f : State → State) : s.asLive h f = s := by
  unfold State.asLive
  cases hof : s.hartOf h with
  | none => rfl
  | some k =>
    have hfound := List.find?_some hof
    simp only [Bool.and_eq_true, beq_iff_eq, bne_iff_ne] at hfound
    have hsw : k.phase = .switched := ((ha k (List.mem_of_find?_eq_some hof)).resolve_left fun hn => hn hfound.1).resolve_left hfound.2
    exact if_pos hsw

theorem eventsOfOtherHarts : Claim.EventsOfOtherHarts := by
  intro s i h hi hnodup
  obtain ⟨f, hf⟩ := exec_eventHart hi
  refine ⟨fun k hk hhid hempty hsw => ?_, fun ha => by rw [hf, asLive_absent ha]⟩
  subst hhid
  obtain ⟨l, r, hp⟩ := List.append_of_mem hk
  -- the harts before it in turn order have other numbers, the hart whose turn it is among them
  have hbefore : ∀ j ∈ s.hart :: l, j.place.hid ≠ k.place.hid := by
    rw [hp, ← List.cons_append, List.map_append, List.nodup_append] at hnodup
    exact fun j hj => hnodup.2.2 _ (List.mem_map_of_mem hj) _ (List.mem_map_of_mem (List.mem_cons_self ..))
  have hmine : ∀ j ∈ l, j.place.hid ≠ s.hart.place.hid := fun j hj he => by
    rw [hp, List.map_cons, List.nodup_cons] at hnodup
    exact hnodup.1 (he ▸ List.mem_map_of_mem (List.mem_append_left _ hj))
  have hswap := swap_append hp (fun j hj => hbefore j (List.mem_cons_of_mem _ hj)) rfl
  have hof : s.hartOf k.place.hid = some k :=
    hartOf_append (l := s.hart :: l) (congrArg (s.hart :: ·) hp) hbefore hempty
  refine ⟨f (s.swap k.place.hid), ?_, ?_, congrArg State.hart hswap, ?_⟩
  · rw [hf, asLive_mine (hswap ▸ ⟨rfl, hempty, hsw⟩)]
  · rw [hf, asLive_parked hof hsw (hbefore _ (List.mem_cons_self ..))]
  · rw [hswap, swap_append (s := { s with hart := k, parked := l ++ s.hart :: r }) rfl hmine rfl, ← hp]

/-- Settles O59, by its two parts: what a step runs, and events of other harts. -/
theorem stepRunsTheDecodedInstruction : Obligations.StepRunsTheDecodedInstruction := ⟨stepRunsDecoded, eventsOfOtherHarts⟩

end Sys2Proof.Laws
end

section
/-! Register, immediate, compare, condition, product and quotient instructions (07 R138 to R150). -/

namespace Sys2Proof.Laws

set_option Elab.async false

open Sys2Proof Sys2Proof.Machine Sys2Proof.Claim

variable {s : State} {i : Instr}

/-! ### Registers and immediates (R139 to R141) -/

/-- The lesser of two values, chosen by either order of the comparison: the two agree where neither is less. -/
theorem lesser_of_lt {α : Type} [LinearOrder α] (f : Word → α) (a b : Word) :
    (if f b < f a then b else a) = if f a ≤ f b then a else b := by
  simp only [← not_lt, ite_not]

theorem greater_of_lt {α : Type} [LinearOrder α] {f : Word → α} (hf : Function.Injective f) (a b : Word) :
    (if f a < f b then b else a) = if f a ≤ f b then b else a := by
  rcases lt_trichotomy (f a) (f b) with h | h | h
  · rw [if_pos h, if_pos h.le]
  · rw [hf h, ite_self, ite_self]
  · rw [if_neg h.asymm, if_neg h.not_ge]

/-- A register or immediate operation writes the value of its table (R139 to R141). -/
theorem exec_alu {d : XReg} {v : Word} (h : alu s i = some (d, v)) : exec i s = putX d v s := by
  have hint : Function.Injective (BitVec.toInt : Word → Int) := fun _ _ => BitVec.eq_of_toInt_eq
  have hnat : Function.Injective (BitVec.toNat : Word → Nat) := fun _ _ => BitVec.eq_of_toNat_eq
  cases i with
  | min d a b => cases h; exact congrArg (putX d · s) (by simpa [slt_int] using lesser_of_lt BitVec.toInt (s.x a) (s.x b))
  | max d a b => cases h; exact congrArg (putX d · s) (by simpa [slt_int] using greater_of_lt hint (s.x a) (s.x b))
  | minu d a b => cases h; exact congrArg (putX d · s) (by simpa [ult_nat] using lesser_of_lt BitVec.toNat (s.x a) (s.x b))
  | maxu d a b => cases h; exact congrArg (putX d · s) (by simpa [ult_nat] using greater_of_lt hnat (s.x a) (s.x b))
  | _ => cases h <;> rfl

theorem scalarArithmetic : ScalarArithmetic := by
  intro s i d v h
  rw [exec_alu h]
  exact putX_wrote s d v

/-! ### Compares and conditions (R143) -/

/-- A compare or condition operation writes the value of its table (R143). -/
theorem exec_condition {d : CBit} {v : Bool} (h : condition s i = some (d, v)) : exec i s = putC d v s := by
  cases i with
  | cmpTst d a b => cases h; exact congrArg (putC d · s) (Bool.eq_iff_iff.2 (bne_iff_ne.trans decide_eq_true_iff.symm))
  | _ => cases h <;> rfl

theorem scalarConditions : ScalarConditions := by
  intro s i d v h
  rw [exec_condition h]
  exact putC_wrote s d v

/-! ### Products (R150) -/

/-- The high half of a product that 128 bits hold, with the low half below it, is the product. -/
theorem mulHigh_signed {a b : Int} (hlo : -2 ^ 127 ≤ a * b) (hhi : a * b < 2 ^ 127) :
    (mulHigh a b).toInt * 2 ^ 64 + a * b % 2 ^ 64 = a * b := by
  have hv : (mulHigh a b).toInt = a * b / 2 ^ 64 := by
    unfold mulHigh
    rw [BitVec.toInt_ofInt, Int.bmod_eq_of_le] <;> omega
  rw [hv]
  omega

theorem mulHigh_unsigned (a b : Word) :
    (mulHigh a.toNat b.toNat).toNat * 2 ^ 64 + a.toNat * b.toNat % 2 ^ 64 = a.toNat * b.toNat := by
  have hlt : a.toNat * b.toNat < 2 ^ 128 := by
    rw [show 2 ^ 128 = 2 ^ 64 * 2 ^ 64 from rfl]
    exact Nat.mul_lt_mul'' a.isLt b.isLt
  have hv : (mulHigh a.toNat b.toNat).toNat = a.toNat * b.toNat / 2 ^ 64 := by
    unfold mulHigh
    rw [show (a.toNat : Int) * b.toNat / 2 ^ 64 = ((a.toNat * b.toNat / 2 ^ 64 : Nat) : Int) by push_cast; rfl, BitVec.ofInt_natCast,
      BitVec.toNat_ofNat, Nat.mod_eq_of_lt]
    omega
  rw [hv]
  omega

/-- The low half of a product, whatever the signs its factors are read with. -/
theorem mul_low {a b : Word} {m n : Int} (hm : BitVec.ofInt 64 m = a) (hn : BitVec.ofInt 64 n = b) :
    ((a * b).toNat : Int) = m * n % 2 ^ 64 := by
  rw [← hm, ← hn, ← BitVec.ofInt_mul, BitVec.toNat_ofInt]
  omega

theorem ofInt_toNat (a : Word) : BitVec.ofInt 64 a.toNat = a := by rw [BitVec.ofInt_natCast, BitVec.ofNat_toNat, BitVec.setWidth_eq]

/-- A product of a signed and an unsigned word is in the range of 128 bits. -/
theorem toInt_mul_toNat_range (a b : Word) : -2 ^ 127 ≤ a.toInt * b.toNat ∧ a.toInt * b.toNat < 2 ^ 127 := by
  have hlo : -2 ^ 63 ≤ a.toInt := BitVec.le_toInt a
  have hhi : a.toInt < 2 ^ 63 := BitVec.toInt_lt
  have hb := b.isLt
  constructor <;> nlinarith

theorem toInt_mul_toInt_range (a b : Word) : -2 ^ 127 ≤ a.toInt * b.toInt ∧ a.toInt * b.toInt < 2 ^ 127 := by
  have hlo : -2 ^ 126 ≤ a.toInt * b.toInt := BitVec.le_toInt_mul_toInt
  have hhi : a.toInt * b.toInt ≤ 2 ^ 126 := BitVec.toInt_mul_toInt_le
  omega

/-! ### Quotients and remainders (R150) -/

/-- The remainder of a division toward zero is smaller than the divisor and has the sign of the dividend. -/
theorem tmod_remainder (a : Int) {b : Int} (hb : b ≠ 0) :
    (a.tmod b).natAbs < b.natAbs ∧ (0 ≤ a → 0 ≤ a.tmod b) ∧ (a < 0 → a.tmod b ≤ 0) := by
  refine ⟨?_, Int.tmod_nonneg b, fun ha => ?_⟩
  · rw [Int.natAbs_tmod]
    exact Nat.mod_lt _ (Int.natAbs_pos.2 hb)
  · have hneg := Int.tmod_nonneg b (show 0 ≤ -a by omega)
    rw [Int.neg_tmod] at hneg
    omega

theorem toInt_ne_zero {b : Word} (hb : b ≠ 0) : b.toInt ≠ 0 := fun h => hb (BitVec.eq_of_toInt_eq h)

/-- Only one signed quotient is out of range. -/
theorem toInt_divS {a b : Word} (hb : b ≠ 0) (h : ¬ (a.toInt = -2 ^ 63 ∧ b.toInt = -1)) :
    (divS a b).toInt = a.toInt.tdiv b.toInt := by
  have hne : ¬ (a = 0x8000000000000000 ∧ b = 0xFFFFFFFFFFFFFFFF) := by
    rintro ⟨rfl, rfl⟩
    exact h ⟨by decide, by decide⟩
  have hsdiv : divS a b = a.sdiv b := by
    unfold divS
    rw [if_neg hb, if_neg hne]
    exact BitVec.eq_of_toInt_eq (by rw [BitVec.toInt_ofInt, BitVec.toInt_sdiv])
  rw [hsdiv, BitVec.toInt_sdiv_of_ne_or_ne _ _ (not_and_or.1 hne)]

theorem divS_zero (a : Word) : divS a 0 = if a.toInt < 0 then 0x8000000000000000 else 0x7FFFFFFFFFFFFFFF := by
  simp [divS, slt_int]

theorem divS_overflow {a b : Word} (ha : a.toInt = -2 ^ 63) (hb : b.toInt = -1) : divS a b = 0x7FFFFFFFFFFFFFFF := by
  obtain rfl : a = 0x8000000000000000 := BitVec.eq_of_toInt_eq ha
  obtain rfl : b = 0xFFFFFFFFFFFFFFFF := BitVec.eq_of_toInt_eq hb
  decide

theorem toInt_remS {a b : Word} (hb : b ≠ 0) : (remS a b).toInt = a.toInt.tmod b.toInt := by
  have hsrem : remS a b = a.srem b := by
    unfold remS
    rw [if_neg hb]
    exact BitVec.eq_of_toInt_eq (by rw [BitVec.toInt_ofInt, ← BitVec.toInt_srem, BitVec.toInt_bmod_cancel])
  rw [hsrem, BitVec.toInt_srem]

theorem toNat_divU {a b : Word} (hb : b ≠ 0) : (divU a b).toNat = a.toNat / b.toNat := by
  unfold divU
  rw [if_neg hb, BitVec.toNat_ofNat, Nat.mod_eq_of_lt ((Nat.div_le_self _ _).trans_lt a.isLt)]

theorem toNat_remU {a b : Word} (hb : b ≠ 0) : (remU a b).toNat = a.toNat % b.toNat := by
  unfold remU
  rw [if_neg hb, BitVec.toNat_ofNat, Nat.mod_eq_of_lt ((Nat.mod_le _ _).trans_lt a.isLt)]

theorem toNat_pos {b : Word} (hb : b ≠ 0) : 0 < b.toNat := Nat.pos_of_ne_zero fun h => hb (BitVec.eq_of_toNat_eq h)

/-- A product, quotient or remainder is written that is as the table asks (R150). -/
theorem exec_muldiv {d : XReg} {P : Word → Prop} (h : muldiv s i = some (d, P)) : ∃ v, P v ∧ exec i s = putX d v s := by
  cases i with
  | mul d a b => cases h; exact ⟨_, BitVec.toNat_mul .., rfl⟩
  | mulhiSs d a b =>
    cases h
    refine ⟨_, ?_, rfl⟩
    obtain ⟨hlo, hhi⟩ := toInt_mul_toInt_range (s.x a) (s.x b)
    rw [mul_low BitVec.ofInt_toInt BitVec.ofInt_toInt]
    exact mulHigh_signed hlo hhi
  | mulhiSu d a b =>
    cases h
    refine ⟨_, ?_, rfl⟩
    obtain ⟨hlo, hhi⟩ := toInt_mul_toNat_range (s.x a) (s.x b)
    rw [mul_low BitVec.ofInt_toInt (ofInt_toNat _)]
    exact mulHigh_signed hlo hhi
  | mulhiUu d a b => cases h; exact ⟨_, by rw [BitVec.toNat_mul]; exact mulHigh_unsigned .., rfl⟩
  | div d a b =>
    cases h
    refine ⟨_, ?_, rfl⟩
    split
    · next hb => rw [hb]; exact divS_zero _
    · next hb =>
      split
      · next hmin => exact divS_overflow hmin.1 hmin.2
      · next hmin =>
        refine ⟨_, ?_, tmod_remainder _ (toInt_ne_zero hb)⟩
        rw [toInt_divS hb hmin]
        exact (Int.tdiv_mul_add_tmod _ _).symm
  | divu d a b =>
    cases h
    refine ⟨_, ?_, rfl⟩
    split
    · next hb => exact if_pos hb
    · next hb =>
      refine ⟨(s.x a).toNat % (s.x b).toNat, ?_, Nat.mod_lt _ (toNat_pos hb)⟩
      rw [toNat_divU hb]
      exact (Nat.div_add_mod' _ _).symm
  | rem d a b =>
    cases h
    refine ⟨_, ?_, rfl⟩
    split
    · next hb => exact if_pos hb
    · next hb =>
      rw [toInt_remS hb]
      exact ⟨⟨_, (Int.tdiv_mul_add_tmod _ _).symm⟩, tmod_remainder _ (toInt_ne_zero hb)⟩
  | remu d a b =>
    cases h
    refine ⟨_, ?_, rfl⟩
    split
    · next hb => exact if_pos hb
    · next hb =>
      rw [toNat_remU hb]
      exact ⟨⟨_, (Nat.div_add_mod' _ _).symm⟩, Nat.mod_lt _ (toNat_pos hb)⟩
  | _ => cases h

theorem multiplyDivide : MultiplyDivide := by
  intro s i d P h
  obtain ⟨v, hv, hexec⟩ := exec_muldiv h
  obtain ⟨t, ht, hwrote⟩ := putX_wrote s d v
  exact ⟨t, v, hexec.trans ht, hv, hwrote⟩

/-- Settles O1, by its three parts: each row of the three tables writes its value. -/
theorem scalarResults : Obligations.ScalarResults := ⟨scalarArithmetic, scalarConditions, multiplyDivide⟩

end Sys2Proof.Laws
end

section
/-! Counts, byte swap, bit fields and funnel shifts (07 R152). -/

namespace Sys2Proof.Laws

set_option Elab.async false

open Sys2Proof Sys2Proof.Machine Sys2Proof.Claim

variable {s : State} {i : Instr}

/-- The leading zeros of a word are where its highest set bit is. -/
theorem clz64_says (a : Word) : clz64 a.toNat ≤ 64 ∧ (∀ k, 64 - clz64 a.toNat ≤ k → a.getLsbD k = false) ∧
    (clz64 a.toNat < 64 → a.getLsbD (63 - clz64 a.toNat) = true) := by
  unfold clz64
  split
  · next h =>
    obtain rfl : a = 0 := BitVec.eq_of_toNat_eq h
    exact ⟨le_rfl, fun k _ => BitVec.getLsbD_zero, fun h => absurd h (lt_irrefl _)⟩
  · next h =>
    have hlog : a.toNat.log2 < 64 := (Nat.log2_lt h).2 a.isLt
    refine ⟨by omega, fun k hk => ?_, fun _ => ?_⟩
    · exact Nat.testBit_lt_two_pow ((Nat.lt_log2_self).trans_le (Nat.pow_le_pow_right (by norm_num) (by omega)))
    · rw [show 63 - (63 - a.toNat.log2) = a.toNat.log2 by omega]
      exact Nat.testBit_log2 h

/-- A count of at most 64 is the word written. -/
theorem toNat_count {n : Nat} (h : n ≤ 64) : (BitVec.ofNat 64 n).toNat = n := by
  rw [BitVec.toNat_ofNat, Nat.mod_eq_of_lt (by omega)]

theorem toNat_popCount (a : Word) : (BitVec.ofNat 64 (popCount 64 a.toNat)).toNat = ((List.range 64).filter a.getLsbD).length := by
  have hle : ((List.range 64).filter a.getLsbD).length ≤ 64 := by
    simpa using List.length_filter_le a.getLsbD (List.range 64)
  rw [popCount_eq]
  exact toNat_count hle

/-- Byte i of a word with its bytes reversed (R5). -/
theorem extract_byteSwap (a : Word) {j : Nat} (hj : j < 8) :
    (BitVec.ofNat 64 (byteSwap 8 a.toNat)).extractLsb' (8 * j) 8 = a.extractLsb' (8 * (7 - j)) 8 := by
  have hlen : (bytesOf 8 a.toNat).length = 8 := bytesOf_length ..
  have hlt : byteSwap 8 a.toNat < 2 ^ 64 := by simpa [byteSwap, hlen] using ofBytes_lt (bytesOf 8 a.toNat).reverse
  change BitVec.ofNat 8 ((BitVec.ofNat 64 (byteSwap 8 a.toNat)).toNat >>> (8 * j)) = BitVec.ofNat 8 (a.toNat >>> (8 * (7 - j)))
  rw [BitVec.toNat_ofNat, Nat.mod_eq_of_lt hlt, byteSwap, byte_ofBytes, List.getD_reverse _ (by omega), hlen, bytesOf_getD _ _ _ (by omega)]

/-- A field read and sign-extended: above its top bit every bit is that bit. -/
theorem getLsbD_signedField (n p l : Nat) {k : Nat} (hk : k < 64) :
    (BitVec.ofInt 64 (toSigned (l + 1) (bitsAt n p (l + 1)))).getLsbD k = n.testBit (p + min k l) := by
  have hlt : bitsAt n p (l + 1) < 2 ^ (l + 1) := Nat.mod_lt _ (Nat.two_pow_pos _)
  have hbit {j : Nat} (hj : j ≤ l) : (BitVec.ofNat (l + 1) (bitsAt n p (l + 1))).getLsbD j = n.testBit (p + j) := by
    rw [BitVec.getLsbD_ofNat, testBit_bitsAt, decide_eq_true (Nat.lt_succ_of_le hj)]
    rfl
  rw [signed_ext (l + 1) _ (Nat.succ_pos l) hlt, BitVec.getLsbD_signExtend, decide_eq_true hk, Bool.true_and]
  split
  · next h => rw [hbit (Nat.le_of_lt_succ h), min_eq_left (Nat.le_of_lt_succ h)]
  · next h => rw [BitVec.msb_eq_getLsbD_last, Nat.add_sub_cancel, hbit le_rfl, min_eq_right (by omega)]

theorem getLsbD_field (n p l : Nat) {k : Nat} (hk : k < 64) :
    (BitVec.ofNat 64 (bitsAt n p (l + 1))).getLsbD k = (decide (k ≤ l) && n.testBit (p + k)) := by
  rw [getLsbD_ofNat64 _ _ hk, testBit_bitsAt]
  simp only [Nat.lt_succ_iff]

/-- A funnel shift by less than 64 (R152). -/
theorem getLsbD_funnel (a b : Word) (sh : Nat) {k : Nat} (hk : k < 64) : (funnel a b sh).getLsbD k = funnelBit a b sh k := by
  unfold funnel funnelBit
  rw [getLsbD_ofNat64 _ _ hk, ← Nat.shiftRight_eq_div_pow, Nat.testBit_shiftRight, Nat.mul_comm,
    Nat.testBit_two_pow_mul_add _ b.isLt, Nat.add_comm sh]
  split <;> rfl

/-- The value of the table of R152 is written. -/
theorem exec_bitField {d : XReg} {P : Word → Prop} (h : bitField s i = some (d, P)) : ∃ v, P v ∧ exec i s = putX d v s := by
  cases i with
  | clz d a =>
    cases h
    refine ⟨_, ?_, rfl⟩
    obtain ⟨hle, hzero, hone⟩ := clz64_says (s.x a)
    simp only [toNat_count hle]
    exact ⟨hle, hzero, hone⟩
  | ctz d a =>
    cases h
    refine ⟨_, ?_, rfl⟩
    obtain ⟨hle, hzero, hone⟩ := lowestBit_spec 64 (s.x a).toNat
    simp only [toNat_count hle]
    exact ⟨hle, hzero, hone⟩
  | popc d a => cases h; exact ⟨_, toNat_popCount _, rfl⟩
  | bswap d a => cases h; exact ⟨_, fun j hj => extract_byteSwap _ hj, rfl⟩
  | bfx d a l p => cases h; exact ⟨_, fun k hk => getLsbD_signedField _ _ _ hk, rfl⟩
  | bfxu d a l p => cases h; exact ⟨_, fun k hk => getLsbD_field _ _ _ hk, rfl⟩
  | bfi d a l p =>
    cases h
    refine ⟨_, fun k hk => ?_, rfl⟩
    rw [getLsbD_ofNat64 _ _ hk, testBit_setBitsAt]
    simp only [← Nat.add_assoc, Nat.lt_succ_iff]
    rfl
  | fsh d a k b => cases h; exact ⟨_, fun k hk => getLsbD_funnel _ _ _ hk, rfl⟩
  | fshv d a c b => cases h; exact ⟨_, fun k hk => getLsbD_funnel _ _ _ hk, rfl⟩
  | bfxuv d a l b => cases h; exact ⟨_, fun k hk => getLsbD_field _ _ _ hk, rfl⟩
  | _ => cases h

/-- Settles O2: each row of the table writes a word whose bits the row gives. -/
theorem bitFields : Obligations.BitFields := by
  intro s i d P _ h
  obtain ⟨v, hv, hexec⟩ := exec_bitField h
  obtain ⟨t, ht, hwrote⟩ := putX_wrote s d v
  exact ⟨t, v, hexec.trans ht, hv, hwrote⟩

end Sys2Proof.Laws
end

section
/-! Branches and jumps (07 R144 to R146), and scalar floating-point results and compares (07 R153 to R155). -/

namespace Sys2Proof.Laws

set_option Elab.async false

open Sys2Proof Sys2Proof.Machine Sys2Proof.Claim

variable {s : State} {i : Instr}

/-! ### Branches and jumps (R144 to R146) -/

/-- The state after a jump: the link written, the program counter at the target, the instruction counted. -/
def jumped (s : State) (d : XReg) (target : Word) : State := ((s.setX d (s.hart.pc + s.len)).setPc target).count

/-- A branch is a jump that links to x0, which discards the link. -/
theorem exec_jump {d : XReg} {target : Word} (h : jump s i = some (d, target)) : exec i s = .next (jumped s d target) := by
  cases i with
  | bc c k o =>
    cases h
    exact (congrArg (fun u : State => Host.Outcome.next u.count) (apply_ite s.setPc _ _ _)).symm
  | bnc c k o =>
    cases h
    exact (congrArg (fun u : State => Host.Outcome.next u.count) (apply_ite s.setPc _ _ _)).symm
  | jal d o => cases h; rfl
  | jalr d a o =>
    obtain ⟨hal, h⟩ := Option.ite_none_right_eq_some.1 h
    cases h
    exact if_neg (not_not.2 hal)
  | _ => cases h

/-- Settles O3, by what a jump leaves and by the check of the target of `jalr`. -/
theorem branchesAndJumps : Obligations.BranchesAndJumps := by
  refine ⟨fun s i d target h => ⟨jumped s d target, exec_jump h, ?_⟩, fun s d a o h => if_pos h⟩
  have hx (r : XReg) : (jumped s d target).x r = if r = d then (if d = 0 then 0 else s.hart.pc + s.len) else s.x r :=
    x_setX s d r _
  refine ⟨rfl, ?_, (hx d).trans (if_pos rfl), fun r hr => (hx r).trans (if_neg hr), ?_, ?_⟩
  all_goals unfold jumped; rw [setX_only]
  · rfl
  · exact ⟨fun _ => rfl, fun _ => rfl⟩
  · rfl

/-! ### Results and compares of scalar floating point (R153) -/

theorem exec_floatResult {d : XReg} {rm : Option Rounding} {k : Rounding → FRes} (h : floatResult s i = some (d, rm, k)) :
    exec i s = fpX d rm k s := by
  cases i <;> cases h <;> rfl

theorem floatResults : FloatResults := by
  intro s i d rm k m h hm
  rw [exec_floatResult h]
  exact fpX_wrote s d rm k m hm

/-- The bit of a compare: whether its order holds, and 0 for a NaN operand (R155). -/
def holdsFor (holds : Ordering → Bool) (x y : FVal) : Bool := match x.cmp y with | some o => holds o | none => false

theorem holdsFor_beq (o : Ordering) (x y : FVal) : (x.cmp y == some o) = holdsFor (· == o) x y := by
  unfold holdsFor
  cases x.cmp y <;> rfl

theorem holdsFor_ne_gt (x y : FVal) : (x.cmp y == some .lt || x.cmp y == some .eq) = holdsFor (· != .gt) x y := by
  unfold holdsFor
  cases x.cmp y with
  | none => rfl
  | some o => cases o <;> rfl

/-- A signalling NaN is a NaN, so where each NaN raises NV the signalling ones need no mention. -/
theorem isNan_or_isSig (x y : FVal) : (x.isSig || y.isSig || (true && (x.isNan || y.isNan))) = (x.isNan || y.isNan) := by
  have hsig (v : FVal) : (v.isSig || v.isNan) = v.isNan := by
    rcases v with _ | _ | (_ | _) <;> rfl
  calc (x.isSig || y.isSig || (true && (x.isNan || y.isNan)))
      = ((x.isSig || x.isNan) || (y.isSig || y.isNan)) := by rw [Bool.true_and]; ac_rfl
    _ = (x.isNan || y.isNan) := by rw [hsig, hsig]

theorem exec_floatCompare {d : CBit} {rm : Option Rounding} {holds : Ordering → Bool} {quiet : Bool} {x y : FVal}
    (h : floatCompare s i = some (d, rm, holds, quiet, x, y)) :
    exec i s = fpC d rm (holdsFor holds x y) (x.isSig || y.isSig || (quiet && (x.isNan || y.isNan))) s := by
  have heq (d : CBit) (rm : Option Rounding) (x y : FVal) : fpC d rm (x.cmp y == some .eq) (x.isSig || y.isSig) s =
      fpC d rm (holdsFor (· == .eq) x y) (x.isSig || y.isSig || (false && (x.isNan || y.isNan))) s := by
    rw [holdsFor_beq, Bool.false_and, Bool.or_false]
  have hlt (d : CBit) (rm : Option Rounding) (x y : FVal) : fpC d rm (x.cmp y == some .lt) (x.isNan || y.isNan) s =
      fpC d rm (holdsFor (· == .lt) x y) (x.isSig || y.isSig || (true && (x.isNan || y.isNan))) s := by
    rw [holdsFor_beq, isNan_or_isSig]
  have hle (d : CBit) (rm : Option Rounding) (x y : FVal) :
      fpC d rm (x.cmp y == some .lt || x.cmp y == some .eq) (x.isNan || y.isNan) s =
      fpC d rm (holdsFor (· != .gt) x y) (x.isSig || y.isSig || (true && (x.isNan || y.isNan))) s := by
    rw [holdsFor_ne_gt, isNan_or_isSig]
  cases i with
  | fcmpEqS c a b rm => cases h; exact heq ..
  | fcmpEqD c a b rm => cases h; exact heq ..
  | fcmpLtS c a b rm => cases h; exact hlt ..
  | fcmpLtD c a b rm => cases h; exact hlt ..
  | fcmpLeS c a b rm => cases h; exact hle ..
  | fcmpLeD c a b rm => cases h; exact hle ..
  | _ => cases h

theorem floatCompares : FloatCompares := by
  intro s i d rm holds quiet x y m h hm
  rw [exec_floatCompare h]
  exact fpC_wrote s d rm _ _ m hm

/-- Settles O4, by its two parts: each row of R153 is one of the two meanings of scalar floating point. -/
theorem floatArithmetic : Obligations.FloatArithmetic := ⟨floatResults, floatCompares⟩

end Sys2Proof.Laws
end

section
/-! The special cases of scalar floating point (07 R155), read off patterns: what a pattern stands for in an IEEE format, and what the
operations make of NaNs, infinities and zeros. -/

namespace Sys2Proof.Laws

set_option Elab.async false

open Sys2Proof Sys2Proof.Machine Sys2Proof.Claim

/-- A format whose top exponent is that of infinities and NaNs (R55). -/
def ieee (e f : Nat) : Fmt := ⟨e, f, .ieee⟩

/-! ### What a pattern stands for (R55, R58) -/

section
variable {e f x : Nat}

/-- A pattern without its sign: the fraction, with the exponent above it. -/
theorem mod_fields (e f x : Nat) : x % 2 ^ (e + f) = x % 2 ^ f + 2 ^ f * (x / 2 ^ f % 2 ^ e) := by
  rw [Nat.add_comm, Nat.pow_add, Nat.mod_mul]

theorem isInf_iff : isInf e f x = true ↔ x / 2 ^ f % 2 ^ e = 2 ^ e - 1 ∧ x % 2 ^ f = 0 := by
  have hlt := Nat.mod_lt x (Nat.two_pow_pos f)
  rw [isInf, beq_iff_eq, mod_fields, Nat.mul_comm (2 ^ e - 1)]
  constructor
  · intro h
    have hfrac : x % 2 ^ f = 0 := by
      have h' := congrArg (· % 2 ^ f) h
      simpa using h'
    rw [hfrac, Nat.zero_add] at h
    exact ⟨Nat.eq_of_mul_eq_mul_left (Nat.two_pow_pos f) h, hfrac⟩
  · rintro ⟨hexp, hfrac⟩
    rw [hexp, hfrac, Nat.zero_add]

theorem isZero_iff : isZero e f x = true ↔ x / 2 ^ f % 2 ^ e = 0 ∧ x % 2 ^ f = 0 := by
  have hpos := Nat.two_pow_pos f
  rw [isZero, beq_iff_eq, mod_fields]
  simp only [Nat.add_eq_zero_iff, Nat.mul_eq_zero]
  omega

theorem isNaN_iff : isNaN e f x = true ↔ x / 2 ^ f % 2 ^ e = 2 ^ e - 1 ∧ x % 2 ^ f ≠ 0 := by
  simp [isNaN]

/-- The top bit of a NaN's fraction is clear where the NaN is a signalling one (R58). -/
theorem quietBit (hf : 0 < f) : (!bitAt (x % 2 ^ f) (f - 1)) = decide (x % 2 ^ f < 2 ^ (f - 1)) := by
  have hlt := Nat.mod_lt x (Nat.two_pow_pos f)
  generalize x % 2 ^ f = n at hlt ⊢
  rw [bitAt_testBit]
  by_cases h : n < 2 ^ (f - 1)
  · rw [Nat.testBit_lt_two_pow h, decide_eq_true h]
    rfl
  · rw [decide_eq_false h, Nat.testBit_of_two_pow_le_and_two_pow_add_one_gt (by omega) (by rwa [Nat.sub_add_cancel hf])]
    rfl

/-- The value of a pattern by its fields (R55). -/
theorem value_ieee (e f x : Nat) : (ieee e f).value x =
    if x / 2 ^ f % 2 ^ e = 2 ^ e - 1 then
      if x % 2 ^ f = 0 then .inf (sign e f x) else .nan (!bitAt (x % 2 ^ f) (f - 1))
    else if x / 2 ^ f % 2 ^ e = 0 then .fin (sign e f x) (x % 2 ^ f) ((ieee e f).emin - f)
    else .fin (sign e f x) (2 ^ f + x % 2 ^ f) ((x / 2 ^ f % 2 ^ e : Nat) - (ieee e f).bias - f) := by
  simp [Fmt.value, ieee, bitsAt, bitAt, sign, Nat.shiftRight_eq_div_pow]

theorem value_of_isNaN (hf : 0 < f) (h : isNaN e f x = true) : (ieee e f).value x = .nan (isSignalling e f x) := by
  obtain ⟨hexp, hfrac⟩ := isNaN_iff.1 h
  rw [value_ieee, if_pos hexp, if_neg hfrac, quietBit hf, isSignalling, h, Bool.true_and]

theorem value_of_isInf (h : isInf e f x = true) : (ieee e f).value x = .inf (sign e f x) := by
  obtain ⟨hexp, hfrac⟩ := isInf_iff.1 h
  rw [value_ieee, if_pos hexp, if_pos hfrac]

theorem value_of_isZero (he : 0 < e) (h : isZero e f x = true) : (ieee e f).value x = .fin (sign e f x) 0 ((ieee e f).emin - f) := by
  obtain ⟨hexp, hfrac⟩ := isZero_iff.1 h
  have htop : 2 ≤ 2 ^ e := Nat.le_self_pow (by omega) 2
  rw [value_ieee, if_neg (by omega), if_pos hexp, hfrac]

/-- Every other pattern is of a finite number other than zero. -/
theorem value_of_nonzero (h : (isNaN e f x || isInf e f x || isZero e f x) = false) :
    ∃ n g, n ≠ 0 ∧ (ieee e f).value x = .fin (sign e f x) n g := by
  obtain ⟨h, hzero⟩ := Bool.or_eq_false_iff.1 h
  obtain ⟨hnan, hinf⟩ := Bool.or_eq_false_iff.1 h
  rw [← Bool.not_eq_true, isNaN_iff] at hnan
  rw [← Bool.not_eq_true, isInf_iff] at hinf
  rw [← Bool.not_eq_true, isZero_iff] at hzero
  have hpos := Nat.two_pow_pos f
  rw [value_ieee, if_neg (fun hexp => (em (x % 2 ^ f = 0)).elim (fun h => hinf ⟨hexp, h⟩) fun h => hnan ⟨hexp, h⟩)]
  split
  · next hexp => exact ⟨_, _, fun hfrac => hzero ⟨hexp, hfrac⟩, rfl⟩
  · exact ⟨_, _, by omega, rfl⟩

theorem isNaN_of_isZero (h : isZero e f x = true) : isNaN e f x = false :=
  Bool.eq_false_iff.2 fun hn => (isNaN_iff.1 hn).2 (isZero_iff.1 h).2

/-- A pattern that is no NaN is of a number: finite, or infinite. -/
theorem value_of_not_isNaN (h : isNaN e f x = false) :
    (ieee e f).value x = .inf (sign e f x) ∨ ∃ n g, (ieee e f).value x = .fin (sign e f x) n g := by
  rw [value_ieee]
  split
  · next hexp =>
    have hfrac : x % 2 ^ f = 0 := by
      by_contra hfrac
      exact absurd (isNaN_iff.2 ⟨hexp, hfrac⟩) (by rw [h]; exact Bool.false_ne_true)
    exact .inl (if_pos hfrac)
  · split
    · exact .inr ⟨_, _, rfl⟩
    · exact .inr ⟨_, _, rfl⟩

theorem isNan_value (hf : 0 < f) (x : Nat) : ((ieee e f).value x).isNan = isNaN e f x := by
  cases h : isNaN e f x with
  | true => rw [value_of_isNaN hf h]; rfl
  | false => rcases value_of_not_isNaN h with hv | ⟨n, g, hv⟩ <;> rw [hv] <;> rfl

theorem isSig_value (hf : 0 < f) (x : Nat) : ((ieee e f).value x).isSig = isSignalling e f x := by
  cases h : isNaN e f x with
  | true =>
    rw [value_of_isNaN hf h]
    cases isSignalling e f x <;> rfl
  | false =>
    rw [isSignalling, h]
    rcases value_of_not_isNaN h with hv | ⟨n, g, hv⟩ <;> rw [hv] <;> rfl

/-- A zero within the width is the sign bit alone. -/
theorem pattern_of_isZero (h : isZero e f x = true) (hx : x < 2 ^ (1 + e + f)) : x = if sign e f x then 2 ^ (e + f) else 0 := by
  have hmod : x % 2 ^ (e + f) = 0 := beq_iff_eq.1 h
  have hdiv := Nat.div_add_mod x (2 ^ (e + f))
  have htop : x / 2 ^ (e + f) < 2 := by
    rw [Nat.div_lt_iff_lt_mul (Nat.two_pow_pos _), ← Nat.pow_succ']
    rwa [Nat.add_assoc, Nat.add_comm] at hx
  rw [hmod, Nat.add_zero] at hdiv
  unfold sign
  generalize x / 2 ^ (e + f) = q at htop hdiv ⊢
  rcases (by omega : q = 0 ∨ q = 1) with rfl | rfl
  · exact hdiv.symm
  · exact hdiv.symm.trans (Nat.mul_one _)
end

/-! ### What the operations make of them (R155) -/

section
variable {e f a b : Nat}

/-- NV for a signalling operand. -/
def signals (e f a b : Nat) : Flags := { nv := isSignalling e f a || isSignalling e f b }

theorem nanBits_ieee : (ieee e f).nanBits = canonical e f := by
  simp [Fmt.nanBits, ieee, Fmt.pack, canonical]

theorem zeroBits_ieee (neg : Bool) : (ieee e f).zeroBits neg = if neg then 2 ^ (e + f) else 0 := by
  cases neg <;> simp [Fmt.zeroBits, ieee, Fmt.pack]

theorem infBits_ieee (neg : Bool) : (ieee e f).infBits neg = infinity e f neg := by
  simp [Fmt.infBits, ieee, Fmt.pack, infinity]

theorem nanResult_invalid : (ieee e f).nanResult true = ⟨canonical e f, { nv := true }, false⟩ := by
  rw [← nanBits_ieee]
  rfl

theorem minMax_nan_left (hf : 0 < f) (lo : Bool) (ha : isNaN e f a = true) (hb : isNaN e f b = false) :
    (ieee e f).minMax lo a b = ⟨b, signals e f a b, false⟩ := by
  unfold Fmt.minMax
  simp only [isNan_value hf, isSig_value hf, ha, hb]
  rfl

theorem minMax_nan_right (hf : 0 < f) (lo : Bool) (ha : isNaN e f a = false) (hb : isNaN e f b = true) :
    (ieee e f).minMax lo a b = ⟨a, signals e f a b, false⟩ := by
  unfold Fmt.minMax
  simp only [isNan_value hf, isSig_value hf, ha, hb]
  rfl

theorem minMax_nans (hf : 0 < f) (lo : Bool) (ha : isNaN e f a = true) (hb : isNaN e f b = true) :
    (ieee e f).minMax lo a b = ⟨canonical e f, signals e f a b, false⟩ := by
  unfold Fmt.minMax
  simp only [isNan_value hf, isSig_value hf, ha, hb, nanBits_ieee]
  rfl

/-- Zeros of two signs: the negative one is the lesser. -/
theorem minMax_zeros (he : 0 < e) (hf : 0 < f) (lo : Bool) (ha : isZero e f a = true) (hb : isZero e f b = true)
    (hs : sign e f a ≠ sign e f b) (hla : a < 2 ^ (1 + e + f)) (hlb : b < 2 ^ (1 + e + f)) :
    (ieee e f).minMax lo a b = ⟨if lo then 2 ^ (e + f) else 0, {}, false⟩ := by
  have hcmp : ((ieee e f).value a).cmp ((ieee e f).value b) = some .eq := by
    rw [value_of_isZero he ha, value_of_isZero he hb]
    simp [FVal.cmp, scaledInt]
  have hneg : ((ieee e f).value a).negSign = sign e f a := by rw [value_of_isZero he ha]; rfl
  have hpick : (if sign e f a == lo then a else b) = if lo then 2 ^ (e + f) else 0 := by
    have hsb : sign e f b = !sign e f a := Bool.eq_not.2 hs.symm
    have hpa := pattern_of_isZero ha hla
    have hpb := pattern_of_isZero hb hlb
    rw [hsb] at hpb
    generalize sign e f a = neg at hpa hpb ⊢
    rw [hpa, hpb]
    cases neg <;> cases lo <;> rfl
  unfold Fmt.minMax
  simp only [isNan_value hf, isNaN_of_isZero ha, isNaN_of_isZero hb, hcmp, hneg, hpick]
  rfl

theorem cmp_nan {x y : FVal} (h : (x.isNan || y.isNan) = true) : x.cmp y = none := by
  cases x with
  | nan q => rfl
  | _ => cases y with
    | nan q => rfl
    | _ => cases h

theorem div_by_zero (he : 0 < e) (m : Rounding) (ha : (isNaN e f a || isInf e f a || isZero e f a) = false) (hb : isZero e f b = true) :
    (ieee e f).div m false ((ieee e f).value a) ((ieee e f).value b) =
      ⟨infinity e f (sign e f a ^^ sign e f b), { dz := true }, false⟩ := by
  obtain ⟨n, g, hn, hv⟩ := value_of_nonzero ha
  rw [hv, value_of_isZero he hb]
  simp only [Fmt.div, if_neg hn, if_true, ← infBits_ieee]
  rfl

theorem div_invalid (he : 0 < e) (m : Rounding) (h : (isZero e f a && isZero e f b || isInf e f a && isInf e f b) = true) :
    (ieee e f).div m false ((ieee e f).value a) ((ieee e f).value b) = ⟨canonical e f, { nv := true }, false⟩ := by
  rw [← nanResult_invalid]
  rcases Bool.or_eq_true_iff.1 h with h | h <;> obtain ⟨ha, hb⟩ := Bool.and_eq_true_iff.1 h
  · rw [value_of_isZero he ha, value_of_isZero he hb]
    rfl
  · rw [value_of_isInf ha, value_of_isInf hb]
    rfl

theorem sqrt_negZero (he : 0 < e) (m : Rounding) (ha : isZero e f a = true) (hs : sign e f a = true) :
    (ieee e f).sqrt m ((ieee e f).value a) = ⟨2 ^ (e + f), {}, false⟩ := by
  rw [value_of_isZero he ha, hs]
  simp only [Fmt.sqrt, if_true, zeroBits_ieee]
  rfl

theorem sqrt_negative (m : Rounding) (hs : sign e f a = true) (h : (isZero e f a || isNaN e f a) = false) :
    (ieee e f).sqrt m ((ieee e f).value a) = ⟨canonical e f, { nv := true }, false⟩ := by
  obtain ⟨hz, hn⟩ := Bool.or_eq_false_iff.1 h
  rw [← nanResult_invalid]
  cases hi : isInf e f a with
  | true => rw [value_of_isInf hi, hs]; rfl
  | false =>
    obtain ⟨n, g, hn, hv⟩ := value_of_nonzero (x := a) (by rw [hn, hi, hz]; rfl)
    rw [hv, hs]
    simp only [Fmt.sqrt, if_neg hn, if_true]

theorem fma_invalid (he : 0 < e) (m : Rounding) (c : FVal)
    (h : (isInf e f a && isZero e f b || isZero e f a && isInf e f b) = true) :
    (ieee e f).fma m false ((ieee e f).value a) ((ieee e f).value b) c = ⟨canonical e f, { nv := true }, false⟩ := by
  have htimes : ((ieee e f).value a).times ((ieee e f).value b) = .nan true := by
    rcases Bool.or_eq_true_iff.1 h with h | h <;> obtain ⟨ha, hb⟩ := Bool.and_eq_true_iff.1 h
    · rw [value_of_isInf ha, value_of_isZero he hb]
      rfl
    · rw [value_of_isZero he ha, value_of_isInf hb]
      rfl
  rw [← nanResult_invalid]
  unfold Fmt.fma
  rw [htimes]
  cases c <;> rfl
end

/-! ### The instructions (R153, R155) -/

section
variable {s : State} {i : Instr} {rm : Option Rounding} {m : Rounding}

/-- An instruction whose row of R153 gives a result without SAT completes with it. -/
theorem givesX_of {d : XReg} {k : Rounding → FRes} {v : Nat} {fl : Flags} (hm : roundsBy s rm m)
    (hi : floatResult s i = some (d, rm, k)) (hk : k m = ⟨v, fl, false⟩) : givesX s i d v fl := by
  obtain ⟨t, hexec, hx, -, hraised, -⟩ := fpX_wrote s d rm k m hm
  rw [hk] at hx hraised
  exact ⟨t, (exec_floatResult hi).trans hexec, hx, hraised⟩

/-- A compare with a NaN operand makes its bit 0, with NV for a signalling NaN, or for each where it is not `fcmp.eq`. -/
theorem givesC_of_nan {c : CBit} {holds : Ordering → Bool} {quiet : Bool} {x y : FVal} (hm : roundsBy s rm m)
    (hi : floatCompare s i = some (c, rm, holds, quiet, x, y)) (hnan : (x.isNan || y.isNan) = true) :
    givesC s i c false { nv := x.isSig || y.isSig || quiet } := by
  obtain ⟨t, hexec, hc, -, hraised, -⟩ :=
    fpC_wrote s c rm (holdsFor holds x y) (x.isSig || y.isSig || (quiet && (x.isNan || y.isNan))) m hm
  rw [hnan, Bool.and_true] at hraised
  refine ⟨t, (exec_floatCompare hi).trans hexec, hc.trans ?_, hraised⟩
  unfold holdsFor
  rw [cmp_nan hnan]

/-- The rows of R153 for one format: e exponent bits and f fraction bits, and the pattern read of a register. -/
structure Rows (s : State) (rm : Option Rounding) (e f : Nat) (pat : XReg → Nat) (fmin fmax fdiv fmac : XReg → XReg → XReg → Instr)
    (fsqrt : XReg → XReg → Instr) (fcmpEq fcmpLt fcmpLe : CBit → XReg → XReg → Instr) : Prop where
  width (r : XReg) : pat r < 2 ^ (1 + e + f)
  min (d a b : XReg) : floatResult s (fmin d a b) = some (d, rm, fun _ => (ieee e f).minMax true (pat a) (pat b))
  max (d a b : XReg) : floatResult s (fmax d a b) = some (d, rm, fun _ => (ieee e f).minMax false (pat a) (pat b))
  div (d a b : XReg) : floatResult s (fdiv d a b) =
    some (d, rm, fun m => (ieee e f).div m false ((ieee e f).value (pat a)) ((ieee e f).value (pat b)))
  mac (d a b : XReg) : floatResult s (fmac d a b) =
    some (d, rm, fun m => (ieee e f).fma m false ((ieee e f).value (pat a)) ((ieee e f).value (pat b)) ((ieee e f).value (pat d)))
  sqrt (d a : XReg) : floatResult s (fsqrt d a) = some (d, rm, fun m => (ieee e f).sqrt m ((ieee e f).value (pat a)))
  cmpEq (c : CBit) (a b : XReg) : floatCompare s (fcmpEq c a b) =
    some (c, rm, (· == .eq), false, (ieee e f).value (pat a), (ieee e f).value (pat b))
  cmpLt (c : CBit) (a b : XReg) : floatCompare s (fcmpLt c a b) =
    some (c, rm, (· == .lt), true, (ieee e f).value (pat a), (ieee e f).value (pat b))
  cmpLe (c : CBit) (a b : XReg) : floatCompare s (fcmpLe c a b) =
    some (c, rm, (· != .gt), true, (ieee e f).value (pat a), (ieee e f).value (pat b))

theorem specialCases_of_rows {e f : Nat} {pat : XReg → Nat} {fmin fmax fdiv fmac : XReg → XReg → XReg → Instr}
    {fsqrt : XReg → XReg → Instr} {fcmpEq fcmpLt fcmpLe : CBit → XReg → XReg → Instr} (he : 0 < e) (hf : 0 < f) (hm : roundsBy s rm m)
    (h : Rows s rm e f pat fmin fmax fdiv fmac fsqrt fcmpEq fcmpLt fcmpLe) :
    specialCases s e f pat fmin fmax fdiv fmac fsqrt fcmpEq fcmpLt fcmpLe := by
  intro d a b c nv
  refine ⟨fun ha hb => ?_, fun ha hb => ?_, fun ha hb => ?_, fun ha hb hs => ?_, fun hnan => ?_, fun ha hb => ?_, fun hab => ?_,
    fun ha hs => ?_, fun hs ha => ?_, fun hab => ?_⟩
  · exact ⟨givesX_of hm (h.min d a b) (minMax_nan_left hf _ ha hb), givesX_of hm (h.max d a b) (minMax_nan_left hf _ ha hb)⟩
  · exact ⟨givesX_of hm (h.min d a b) (minMax_nan_right hf _ ha hb), givesX_of hm (h.max d a b) (minMax_nan_right hf _ ha hb)⟩
  · exact ⟨givesX_of hm (h.min d a b) (minMax_nans hf _ ha hb), givesX_of hm (h.max d a b) (minMax_nans hf _ ha hb)⟩
  · exact ⟨givesX_of hm (h.min d a b) (minMax_zeros he hf _ ha hb hs (h.width a) (h.width b)),
      givesX_of hm (h.max d a b) (minMax_zeros he hf _ ha hb hs (h.width a) (h.width b))⟩
  · have hnan' : (((ieee e f).value (pat a)).isNan || ((ieee e f).value (pat b)).isNan) = true := by
      rwa [isNan_value hf, isNan_value hf]
    have heq := givesC_of_nan hm (h.cmpEq c a b) hnan'
    have hlt := givesC_of_nan hm (h.cmpLt c a b) hnan'
    have hle := givesC_of_nan hm (h.cmpLe c a b) hnan'
    rw [isSig_value hf, isSig_value hf, Bool.or_false] at heq
    rw [Bool.or_true] at hlt hle
    exact ⟨heq, hlt, hle⟩
  · exact givesX_of hm (h.div d a b) (div_by_zero he m ha hb)
  · exact givesX_of hm (h.div d a b) (div_invalid he m hab)
  · exact givesX_of hm (h.sqrt d a) (sqrt_negZero he m ha hs)
  · exact givesX_of hm (h.sqrt d a) (sqrt_negative m hs ha)
  · exact givesX_of hm (h.mac d a b) (fma_invalid he m _ hab)

/-- Settles O5, by one proof for the rows of a format, at fp32 and at fp64. -/
theorem floatSpecialCases : Obligations.FloatSpecialCases := fun s rm m hm =>
  ⟨specialCases_of_rows (by norm_num) (by norm_num) hm
    { width := fun r => Nat.mod_lt _ (Nat.two_pow_pos 32), min := fun _ _ _ => rfl, max := fun _ _ _ => rfl, div := fun _ _ _ => rfl
      mac := fun _ _ _ => rfl, sqrt := fun _ _ => rfl, cmpEq := fun _ _ _ => rfl, cmpLt := fun _ _ _ => rfl, cmpLe := fun _ _ _ => rfl },
   specialCases_of_rows (by norm_num) (by norm_num) hm
    { width := fun r => (s.x r).isLt, min := fun _ _ _ => rfl, max := fun _ _ _ => rfl, div := fun _ _ _ => rfl
      mac := fun _ _ _ => rfl, sqrt := fun _ _ => rfl, cmpEq := fun _ _ _ => rfl, cmpLt := fun _ _ _ => rfl, cmpLe := fun _ _ _ => rfl }⟩
end

end Sys2Proof.Laws
end

section
/-! Scalar loads and stores (07 R147 to R149, 13 R265), and the traps of their checks (07 R148). -/

namespace Sys2Proof.Laws

set_option Elab.async false

open Sys2Proof Sys2Proof.Machine Sys2Proof.Claim

variable {s t u : State} {i : Instr} {n : Nat} {a : XReg} {o : Int}

/-! ### The two meanings (R147) -/

theorem exec_load {sg : Bool} {d : XReg} (h : loadForm i = some (n, sg, d, a, o)) (s : State) : exec i s = loadX n sg d a o s := by
  cases i <;> cases h <;> rfl

theorem exec_store {r : XReg} (h : storeForm i = some (n, r, a, o)) (s : State) : exec i s = storeX n r a o s := by
  cases i <;> cases h <;> rfl

theorem dvd_of_loadForm {sg : Bool} {d : XReg} (h : loadForm i = some (n, sg, d, a, o)) : n ∣ 8 := by
  cases i <;> cases h <;> decide

theorem dvd_of_storeForm {r : XReg} (h : storeForm i = some (n, r, a, o)) : n ∣ 8 := by
  cases i <;> cases h <;> decide

/-- Copies that move on change no register, so the address stays (R147). -/
theorem ea_drain (s : State) (a : XReg) (o : Int) : s.drain.ea a o = address s a o := by
  unfold State.ea address
  rw [co_x (co_drain s)]
  rfl

theorem loadX_ok {sg : Bool} {d : XReg} {v : Nat} (h : s.drain.load .cached (address s a o) n = .ok (v, t)) : loadX n sg d a o s =
    .next (t.setX d (if sg then BitVec.ofInt 64 (toSigned (8 * n) v) else BitVec.ofNat 64 v)).retire := by
  unfold loadX
  dsimp only
  rw [ea_drain, h]
  rfl

theorem loadX_error {sg : Bool} {d : XReg} {r : Reject} (h : s.drain.load .cached (address s a o) n = .error r) :
    loadX n sg d a o s = .next (s.drain.takeTrap (s.drain.trapOf r)) := by
  unfold loadX
  dsimp only
  rw [ea_drain, h]
  rfl

theorem storeX_ok {r : XReg} (h : s.drain.store .cached none (address s a o) n ((s.x r).toNat % 2 ^ (8 * n)) = .ok t) :
    storeX n r a o s = .next t.retire := by
  unfold storeX
  dsimp only
  rw [ea_drain, co_x (co_drain s), h]
  rfl

theorem storeX_error {r : XReg} {e : Reject} (h : s.drain.store .cached none (address s a o) n ((s.x r).toNat % 2 ^ (8 * n)) = .error e) :
    storeX n r a o s = .next (s.drain.takeTrap (s.drain.trapOf e)) := by
  unfold storeX
  dsimp only
  rw [ea_drain, co_x (co_drain s), h]
  rfl

/-! ### Loads (R147, R148, R106) -/

/-- What a load that completes leaves: its register, and the lines that it brought near. -/
theorem loaded_leaves (h : CopyOnly s u) (ht : t = { u with rcache := t.rcache }) (d : XReg) (x : Word) :
    let r := (t.setX d x).retire
    r.x d = (if d = 0 then 0 else x) ∧ (∀ q, q ≠ d → r.x q = s.x q) ∧ goesOn s r ∧ sameMemory u r ∧
      r = { u with rcache := r.rcache, hart := { u.hart with x := r.hart.x, pc := r.hart.pc, instret := r.hart.instret } } := by
  generalize t.rcache = rc at ht
  subst ht
  rw [setX_xWith]
  have hx := x_of_xWith (s := u) (t := State.retire { u with rcache := rc, hart := { u.hart with x := xWith u.hart.x d x } }) rfl
  exact ⟨(hx d).trans (if_pos rfl), fun q hq => (hx q).trans ((if_neg hq).trans (co_x h q)),
    ⟨by rw [← co_pc h, ← co_len h]; rfl, by rw [← co_instret h]; rfl⟩, ⟨fun _ => rfl, fun _ => rfl⟩, rfl⟩

/-- The bits of a value of 1 to 8 bytes, extended into a register (R147). -/
theorem extended_eq {v : Nat} (hn : n ∣ 8) (hv : v < 2 ^ (8 * n)) (sg : Bool) :
    (if sg then BitVec.ofInt 64 (toSigned (8 * n) v) else BitVec.ofNat 64 v) =
      if sg then (BitVec.ofNat (8 * n) v).signExtend 64 else BitVec.ofNat 64 v := by
  rw [signed_ext _ _ (Nat.mul_pos (by norm_num) (Nat.pos_of_dvd_of_pos hn (by norm_num))) hv]

/-- Settles O6: what a load reads is what the hart sees there, and it leaves its register written. -/
theorem scalarLoads : Obligations.ScalarLoads := by
  intro s i n sg d a o l hi hl hr u
  have hn := dvd_of_loadForm hi
  have hco := (co_drain s).trans (co_near s.drain l)
  obtain ⟨v, t, hload, hbytes, hv, hseen, ht⟩ := load_seen s.drain l (address s a o) n hn hl hr
  rw [co_core (co_drain s)] at hbytes
  obtain ⟨hd, hother, hon, hmem, hrest⟩ := loaded_leaves hco ht d
    (if sg then (BitVec.ofNat (8 * n) v).signExtend 64 else BitVec.ofNat 64 v)
  refine ⟨_, v, ?_, hbytes, hv, hd, hother, hon, hmem, seenAlike.trans hseen (seen_of_parts ?_ ?_ ?_), hrest⟩
  · rw [exec_load hi, loadX_ok hload, extended_eq hn hv]
  all_goals simp

/-! ### Stores (R147, R148, R265) -/

theorem store_of_locate {rel : Option Scope} {va v : Nat} {l : Loc} (hl : s.locate .store va n n true = .ok l) :
    s.store .cached rel va n v = s.put .cached rel l va n v none := by
  unfold State.store
  rw [show decide (Route.cached = Route.cached) = true from rfl, hl]
  rfl

/-- The bytes of a register's low part are the register's. -/
theorem byte_mod (v : Nat) {k : Nat} (hk : k < n) : BitVec.ofNat 8 ((v % 2 ^ (8 * n)) >>> (8 * k)) = BitVec.ofNat 8 (v >>> (8 * k)) := by
  simpa [bitsAt] using byte_bitsAt v 0 n k hk

/-- A location of this device, or of the host, looks alike to every hart. -/
theorem seen_anyHart {l : Loc} (hl : ¬ faraway l) (core h h' : Nat) : seen s core h l = seen s core h' l := by
  cases l with
  | spad j => rfl
  | phys b => rw [seen_local hl, seen_local hl]

theorem faraway_plus {l : Loc} {k : Nat} (hn : n ∣ 8) (ha : ∀ b, l = .phys b → b % n = 0) (hk : k < n) :
    faraway (plus l k) ↔ faraway l := by
  cases l with
  | spad j => exact Iff.rfl
  | phys b => exact remote_plus b n k hn (ha b rfl) hk

/-- What a store outside a strip leaves: the bytes of memory or of the core's line, and the instruction completed. -/
theorem stored_leaves (h : CopyOnly s u) (ht : ∃ mem spad rcache poison spadPoison,
      t = { u with mem := mem, spad := spad, rcache := rcache, poison := poison, spadPoison := spadPoison }) :
    goesOn s t.retire ∧ t.retire = { u with
      mem := t.mem, spad := t.spad, rcache := t.rcache, poison := t.poison, spadPoison := t.spadPoison
      hart := { u.hart with pc := t.retire.hart.pc, instret := t.retire.hart.instret } } := by
  obtain ⟨_, _, _, _, _, rfl⟩ := ht
  exact ⟨⟨by rw [← co_pc h, ← co_len h]; rfl, by rw [← co_instret h]; rfl⟩, rfl⟩

/-- A completed instruction leaves what every hart sees. -/
theorem seen_retire (t : State) : seenAlike t t.retire := seen_of_parts rfl rfl rfl

theorem scalarStores_complete : ScalarStores := by
  intro s i n r a o l hi hs hl hst hlive u
  have hn := dvd_of_storeForm hi
  have halign : ∀ b, l = .phys b → b % n = 0 := fun b hb => locate_phys (hb ▸ hl) hn
  obtain ⟨hmem, hspad, -, -⟩ := sound_drain hs
  obtain ⟨hmine, hothers, hfar, hm, hsp, hparts⟩ :=
    writeAt_seen s.drain l (address s a o) n ((s.x r).toNat % 2 ^ (8 * n)) hmem hspad hn halign
  rw [co_core (co_drain s)] at hmine hfar
  have hstore : s.drain.store .cached none (address s a o) n ((s.x r).toNat % 2 ^ (8 * n)) =
      .ok (s.drain.writeAt .cached l (address s a o) n ((s.x r).toNat % 2 ^ (8 * n))) := by
    rw [store_of_locate hl]
    unfold State.put
    rw [co_strip (co_drain s), hst]
    exact if_neg (by rw [hlive]; exact Bool.false_ne_true)
  generalize s.drain.writeAt .cached l (address s a o) n ((s.x r).toNat % 2 ^ (8 * n)) = t at *
  obtain ⟨hon, hrest⟩ := stored_leaves ((co_drain s).trans (co_near s.drain l)) hparts
  refine ⟨t.retire, (exec_store hi s).trans (storeX_ok hstore), fun core hid k hk hwho => ?_, fun core hid m hm => ?_, hm, hsp, hon, hrest⟩
  · rw [seen_retire, ← byte_mod _ hk, ← hmine core k hk]
    rcases hwho with rfl | hnear
    · rfl
    · exact seen_anyHart (mt (faraway_plus hn halign hk).1 hnear) ..
  · rw [seen_retire]
    rcases hm with hm | ⟨hhid, hl'⟩
    · exact hothers core hid m hm
    · refine hfar core hid m hhid ?_
      cases l with
      | spad j => exact hl'.elim
      | phys b => exact ⟨b, rfl, hl'⟩

/-- What a store in a strip leaves: its record, last in the buffer, and the instruction completed. -/
theorem buffered_leaves (h : CopyOnly s u) (st : Strip) (recs : List StripRec) :
    let t := (buffering u st recs).retire
    t.hart.strip = some { st with recs := recs } ∧ goesOn s t ∧ sameMemory u t ∧ t = { u with hart := { u.hart with
      strip := t.hart.strip, pc := t.hart.pc, instret := t.hart.instret } } :=
  ⟨rfl, ⟨by rw [← co_pc h, ← co_len h]; rfl, by rw [← co_instret h]; rfl⟩, ⟨fun _ => rfl, fun _ => rfl⟩, rfl⟩

/-- The record of a store of the low bytes of a value (R265, R338). -/
theorem stripRec_says (l : Loc) (va v : Nat) (hn : n ∣ 8) :
    let k := s.stripRec none l va n (v % 2 ^ (8 * n)) none
    k.addr = va ∧ 2 ^ k.size = n ∧ k.rel = none ∧ k.data = v % 2 ^ (8 * n) ∧ k.half = none ∧
      k.pin = (match l with | .phys pa => some pa | .spad _ => none) :=
  ⟨rfl, two_pow_log2 hn, rfl, Nat.mod_mod .., rfl, by cases l <;> rfl⟩

theorem put_buffered {st : Strip} {p : Route} {l : Loc} {va v : Nat} (hst : s.strip? = some st)
    (hfits : (st.recs.map fun k => 2 ^ k.size).sum + n ≤ 65536) :
    s.put p none l va n v none = .ok (buffering s st (st.recs ++ [s.stripRec none l va n v none])) := by
  unfold State.put
  rw [hst]
  exact if_neg (by rw [stripBytes_eq]; exact not_lt.2 hfits)

theorem stripStoresAreBuffered : StripStoresAreBuffered := by
  intro s i n r a o l st hi hl hst hfits
  obtain ⟨haddr, hsize, hrel, hdata, hhalf, hpin⟩ := stripRec_says (s := s.drain) l (address s a o) (s.x r).toNat (dvd_of_storeForm hi)
  obtain ⟨hstrip, hon, hmem, hrest⟩ := buffered_leaves (co_drain s) st
    (st.recs ++ [s.drain.stripRec none l (address s a o) n ((s.x r).toNat % 2 ^ (8 * n)) none])
  refine ⟨_, _, (exec_store hi s).trans (storeX_ok ?_), hstrip, haddr, hsize, hrel, hdata, hhalf, hpin, hon, hmem, hrest⟩
  exact (store_of_locate hl).trans (put_buffered hst hfits)

/-- Settles O7, by its two parts: stores outside a strip, and stores in one. -/
theorem scalarStores : Obligations.ScalarStores := ⟨scalarStores_complete, stripStoresAreBuffered⟩

/-! ### Checks that fail (R148) -/

/-- A scalar access of n bytes: a load, or a store. -/
def accessForm (i : Instr) (n : Nat) (k : Access) (a : XReg) (o : Int) : Prop :=
  (∃ sg d, loadForm i = some (n, sg, d, a, o)) ∧ k = .load ∨ (∃ r, storeForm i = some (n, r, a, o)) ∧ k = .store

/-- An access whose checks fail takes the trap of the check. -/
theorem exec_of_reject {k : Access} {r : Reject} (h : accessForm i n k a o)
    (hl : s.drain.locate k (address s a o) n n true = .error r) : exec i s = .next (s.drain.takeTrap (s.drain.trapOf r)) := by
  rcases h with ⟨⟨sg, d, hi⟩, rfl⟩ | ⟨⟨q, hi⟩, rfl⟩
  · rw [exec_load hi]
    refine loadX_error ?_
    unfold State.load
    exact congrArg (· >>= _) hl
  · rw [exec_store hi]
    refine storeX_error ?_
    unfold State.store
    exact congrArg (· >>= _) hl

/-- A reject that says no more than its cause and the address (R346). -/
theorem trapOf_plain (s : State) (c va : Nat) : s.trapOf { cause := c, addr := va } = ⟨c, BitVec.ofNat 64 va, s.info 0⟩ := by
  simp [State.trapOf]

theorem locate_of_resolve_error {k : Access} {va : Nat} {c : Bool} {r : Reject} (h : s.resolveIn s.hart.ctx k va n n = .error r) :
    s.locate k va n n c = .error r := by
  unfold State.locate State.locateIn
  rw [h]
  rfl

theorem locate_of_target_error {k : Access} {va : Nat} {c : Bool} {l : Loc} {r : Reject}
    (hl : s.resolveIn s.hart.ctx k va n n = .ok l) (ht : s.targetTakes s.hart.place.part k l va n c = .error r) :
    s.locate k va n n c = .error r := by
  show (s.resolveIn s.hart.ctx k va n n >>= fun l => s.targetTakes s.hart.place.part k l va n c >>= fun _ => .ok l) = _
  rw [hl]
  exact congrArg (· >>= fun _ => Except.ok l) ht

theorem resolve_misaligned {k : Access} {c : Ctx} {va : Nat} (h : va % n ≠ 0) :
    s.resolveIn c k va n n = .error { cause := 0x03, addr := va } := if_pos h

theorem resolve_beyond {k : Access} {c : Ctx} {va : Nat} (hal : va % n = 0) (hw : windowBase ≤ va)
    (h : s.hart.place.pieces.length * 65536 < va - windowBase + n) :
    s.resolveIn c k va n n = .error { cause := 0x07, addr := va } := by
  unfold State.resolveIn
  dsimp only
  rw [if_neg (not_not.2 hal), if_pos hw, if_neg (not_le.2 h), ite_self]

theorem resolve_translated {k : Access} {c : Ctx} {va : Nat} (hal : va % n = 0) (hw : va < windowBase) :
    s.resolveIn c k va n n = (s.translate c k va).map .phys := by
  unfold State.resolveIn
  dsimp only
  rw [if_neg (not_not.2 hal), if_neg (not_le.2 hw)]

/-- Settles O8: each check that fails rejects the access, and the reject is the trap taken. -/
theorem scalarAccessTraps : Obligations.ScalarAccessTraps := by
  intro s i n k a o hi
  dsimp only
  have hrep : s.drain.repairing = s.repairing := by
    obtain ⟨_, _, _, _, _, _, _, _, e⟩ := co_drain s
    exact (congrArg State.repairing e :)
  have hpage : pageFaultCause k = if k = .load then 0x04 else 0x05 := by
    rcases hi with ⟨-, rfl⟩ | ⟨-, rfl⟩ <;> rfl
  refine ⟨fun h => ?_, fun hal hw h => ?_, fun hal hw r h => ?_, fun hal hw pa r htr h => ?_⟩
  · rw [← trapOf_plain]
    exact exec_of_reject hi (locate_of_resolve_error (resolve_misaligned h))
  · rw [← trapOf_plain]
    exact exec_of_reject hi (locate_of_resolve_error (resolve_beyond (s := s.drain) hal hw h))
  · obtain ⟨haddr, hcause⟩ := translate_err h
    refine ⟨haddr, fun hno => ?_, exec_of_reject hi (locate_of_resolve_error ?_)⟩
    · rw [hrep, hpage] at hcause
      exact hcause.imp_right fun hc => hc.resolve_right fun hhold => hhold.2 hno
    · rw [resolve_translated hal hw, h]
      rfl
  · obtain ⟨haddr, hcause⟩ := target_err h
    refine ⟨haddr, fun hno => ?_, exec_of_reject hi ?_⟩
    · rw [hrep] at hcause
      exact hcause.resolve_right fun hc => hc.2 hno
    · refine locate_of_target_error (l := .phys pa) ?_ h
      rw [resolve_translated hal hw, htr]
      rfl

end Sys2Proof.Laws
end

section
/-! An unordered fp4 store beside two harts' unsent writes of its byte (04 R94, R95, R110). -/

namespace Sys2Proof.Laws

set_option Elab.async false

open Sys2Proof.Machine

/-- Page 0 lies in device 1. In the cache of a core on another chiplet stands a copy of its first line, whose first byte hart 0 and
then hart 1 have written and not sent. Hart 0 has one fp4 element, zero, to store there. -/
def storesUnderAnother : State :=
  { State.reset with
    hart := { phase := .active, vcfg := { tag := .fp4 }, vl := 1 }
    tlb := [userLeaf 0 (2 ^ 51 + 2 ^ 40)]
    rcache := [{ holder := .core 16, line := 2 ^ 51 + 2 ^ 40, data := 0, dirty := [⟨0, 0, 0, 0xAA, none⟩, ⟨0, 1, 0, 0xBB, none⟩] }]
    domain := [1], ports := (Vector.replicate 4 {}).set 0 { state := .up } }

/-- The byte that is stored to. -/
def sharedByte : Loc := .phys (2 ^ 51 + 2 ^ 40)

/-- The transfer of that store. -/
def halfStore : Claim.Transfer :=
  Claim.storeOf storesUnderAnother [Claim.dataGroup storesUnderAnother 0] [] 0 1 [] fun e => [Claim.unitAddress storesUnderAnother 1 e]

/-- What hart 0 sees at the byte after an outcome. -/
def sharedAfter (o : Host.Outcome State Fault Refusal) : Byte :=
  match o with
  | .next t => Claim.seen t 0 0 sharedByte
  | _ => 0

/-- The half stored lies over what hart 0 itself had written there. -/
theorem sharedAfter_halfStore : sharedAfter (exec (.vst 0 1 false 0) storesUnderAnother) = 0xA0 := by decide +kernel

/-- The words of that store. -/
def halfWrites : List Claim.Write := Claim.writes storesUnderAnother storesUnderAnother true halfStore

/-- The state in which a claim on stores finds their locations (`Claim.storedAll`). -/
def nearStores (u : State) (ws : List Claim.Write) : State := ws.foldl (fun r w => if w.through then r else Claim.near r w.loc) u

/-- Once both harts' writes have gone out, in their order, the byte is hart 1's, and the half stored belongs over that one. -/
theorem rewritten_halfWrites :
    Claim.rewritten halfWrites sharedByte (Claim.seen (nearStores storesUnderAnother halfWrites) 0 0 sharedByte) = 0xB0 := by
  decide +kernel

theorem sound_storesUnderAnother : Safety.Sound storesUnderAnother :=
  ⟨by decide, by decide, fun h => absurd h (by decide), fun h => absurd h (by decide)⟩

theorem drain_storesUnderAnother : storesUnderAnother.drain = storesUnderAnother := rfl

theorem ready_halfStore : Claim.ready storesUnderAnother storesUnderAnother halfStore.toOperands :=
  ⟨fun _ => by decide, by decide, by decide, fun h => absurd h (by decide), by decide, by decide, rfl, by decide, by decide⟩

theorem storable_halfStore (j : Nat) (hj : j ∈ halfStore.acts) (a : Word) (ha : a ∈ halfStore.addr j) :
    Claim.storable storesUnderAnother (Claim.accessBytes storesUnderAnother) true a := by
  have hzero : j = 0 := List.mem_singleton.1 ((show halfStore.acts = [0] by decide) ▸ hj)
  subst hzero
  rw [List.mem_singleton.1 ha]
  exact ⟨sharedByte, by decide, fun _ => by decide⟩

/-- Refutes O29: half of a byte goes out as one byte with the hart's own older one (R94, `State.withOlder`), which is read before the
line is brought near; but in between that older byte goes out and, after it, another hart's. What the hart then sees is its older
byte with the half stored, and not the byte that stood there with the half stored. -/
theorem not_vectorStores : ¬ Obligations.VectorStores := by
  intro h
  obtain ⟨t, he, -, -, -, hstored, -⟩ := h storesUnderAnother storesUnderAnother (.vst 0 1 false 0) true halfStore rfl
    sound_storesUnderAnother ready_halfStore rfl storable_halfStore fun st hst => nomatch hst
  obtain ⟨hseen, -⟩ := hstored.1 (by decide)
  have hbyte := sharedAfter_halfStore
  rw [he] at hbyte
  have hclaim : 0xA0 = (0xB0 : Byte) := calc
    0xA0 = Claim.seen t 0 0 sharedByte := hbyte.symm
    _ = Claim.rewritten halfWrites sharedByte (Claim.seen (nearStores storesUnderAnother halfWrites) 0 0 sharedByte) :=
      hseen 0 sharedByte
    _ = 0xB0 := rewritten_halfWrites
  exact absurd hclaim (by decide)

end Sys2Proof.Laws
end

section
/-! The vector length (02 R29, R30, R35, 08 R158, 18 R303): what a smaller G leaves of the registers, and the grant that `setvl` takes. -/

namespace Sys2Proof.Laws

set_option Elab.async false

open Sys2Proof Sys2Proof.Machine Sys2Proof.Claim

/-! ### Registers cut to a smaller G (R30, R35) -/

theorem groupBits_eq_storage (s : State) (n base : Nat) : s.hart.groupBits s.hart.slice base n = s.storage base n := by
  induction n generalizing base with
  | zero => rfl
  | succ n ih => rw [Hart.groupBits, State.storage, ih]

theorem groupBits_bit (h : Hart) (n base k : Nat) : (h.groupBits h.slice base n).testBit k =
    (decide (k < n * h.slice) && (h.v[(base + k / h.slice) % 32]?.getD {}).bits.testBit (k % h.slice)) := by
  have e := groupBits_eq_storage { State.reset with hart := h } n base
  exact (congrArg (·.testBit k) e).trans (storage_bit { State.reset with hart := h } n base k)

/-- Bit j of a register that keeps the slices of `ge` lies in its group's old storage. -/
theorem kept_bit_lt {ge old g r j : Nat} (hge : ge ≤ old) (hg : 0 < g) (hj : j < 8192 * ge) :
    r % g * (8192 * ge) + j < g * (8192 * old) := by
  have hr : r % g + 1 ≤ g := Nat.mod_lt r hg
  calc r % g * (8192 * ge) + j < (r % g + 1) * (8192 * ge) := by rw [Nat.add_mul]; omega
    _ ≤ g * (8192 * old) := Nat.mul_le_mul hr (Nat.mul_le_mul_left _ hge)

theorem cut_sliced (h : Hart) {ge : Nat} (hge : ge ≤ h.ge) : sliced h ge (h.cut ge).v (h.cut ge).m := by
  refine ⟨fun r => ?_, fun k => ?_⟩
  · have hreg : (h.cut ge).v[r.val] = { h.v[r.val] with
        bits := bitsAt (h.groupBits h.slice (r.val / 2 ^ h.vcfg.lgrp * 2 ^ h.vcfg.lgrp) (2 ^ h.vcfg.lgrp))
          (r.val % 2 ^ h.vcfg.lgrp * (8192 * ge)) (8192 * ge) } := Vector.getElem_ofFn _
    rw [hreg]
    refine ⟨rfl, fun j => ?_⟩
    dsimp only
    rw [testBit_bitsAt, groupBits_bit]
    by_cases hj : j < 8192 * ge
    · have hin := kept_bit_lt (r := r.val) hge (Nat.two_pow_pos h.vcfg.lgrp) hj
      unfold Hart.slice
      simp [hj, hin]
    · simp [hj]
  · exact Vector.getElem_map ..

/-! ### The grant and G (R29, R30, R303) -/

theorem fibresFit_iff (h : Hart) (n : Nat) : h.fibresFit (128 * n) = true ↔ Claim.fibresFit h n := by
  unfold Hart.fibresFit Claim.fibresFit
  simp only [List.all_eq_true, decide_eq_true_eq]

/-- The hart with a posted reclaim taken, where it is (R29). -/
def reclaimed (h : Hart) (hold : Bool) : Hart :=
  match h.reclaim with
  | some g => if h.takesReclaim hold g then { h with place := { h.place with grant := g }, reclaim := none, pend21 := none } else h
  | none => h

/-- The hart with the G that its grant and VLCAP then give it (R30, R303). -/
def resized (h : Hart) (hold : Bool) : Hart :=
  let target := Nat.min h.place.grant h.priv.vlcap
  if target < h.ge then
    if !hold && h.fibresFit (128 * target) then h.cut target else h.cut (Nat.min h.ge h.place.grant)
  else { h with ge := target }

theorem regrant_eq (h : Hart) (hold : Bool) : h.regrant hold = resized (reclaimed h hold) hold := rfl

theorem takesReclaim_iff {h : Hart} {hold : Bool} {n : Nat} :
    h.takesReclaim hold n = true ↔ hold = false ∧ h.strip = none ∧ Claim.fibresFit h n := by
  unfold Hart.takesReclaim
  rw [Bool.and_eq_true, Bool.and_eq_true, fibresFit_iff, Option.isNone_iff_eq_none, Bool.not_eq_true', and_assoc]

theorem reclaimed_taken {h : Hart} {n : Nat} (hst : h.strip = none) (hr : h.reclaim = some n) (hf : Claim.fibresFit h n) :
    reclaimed h false = { h with place := { h.place with grant := n }, reclaim := none, pend21 := none } := by
  unfold reclaimed
  rw [hr]
  exact if_pos (takesReclaim_iff.2 ⟨rfl, hst, hf⟩)

theorem reclaimed_left {h : Hart} {hold : Bool}
    (hno : hold = true ∨ h.strip ≠ none ∨ h.reclaim = none ∨ ∃ n, h.reclaim = some n ∧ ¬ Claim.fibresFit h n) : reclaimed h hold = h := by
  unfold reclaimed
  split
  next g hg =>
    refine if_neg fun ht => ?_
    obtain ⟨hhold, hst, hf⟩ := takesReclaim_iff.1 ht
    rcases hno with h1 | h1 | h1 | ⟨n, h1, hnf⟩
    · rw [hhold] at h1; cases h1
    · exact h1 hst
    · rw [hg] at h1; cases h1
    · rw [hg] at h1; cases h1; exact hnf hf
  next => rfl

theorem resized_follows (h : Hart) (hold : Bool) : follows h (resized h hold) hold h.place.grant := by
  have hcut : ∀ n, n ≤ h.ge → (h.cut n).ge = n ∧ sliced h n (h.cut n).v (h.cut n).m := fun n hn => ⟨rfl, cut_sliced h hn⟩
  unfold resized
  refine ⟨fun hge => ?_, fun hlt hhold hfit => ?_, fun hlt hkeep => ?_⟩
  · rw [if_neg (Nat.not_lt.2 hge)]
    exact ⟨rfl, rfl, rfl⟩
  · have hfits := (fibresFit_iff h (min h.place.grant h.priv.vlcap)).2 hfit
    rw [if_pos hlt, if_pos (by rw [hhold]; exact hfits)]
    exact hcut _ hlt.le
  · have hnot : ¬ (!hold && h.fibresFit (128 * Nat.min h.place.grant h.priv.vlcap)) = true := by
      intro hb
      obtain ⟨hhold, hfits⟩ := Bool.and_eq_true_iff.1 hb
      rcases hkeep with hk | hk
      · rw [hk] at hhold; cases hhold
      · exact hk ((fibresFit_iff h _).1 hfits)
    rw [if_pos hlt, if_neg hnot]
    exact hcut _ (Nat.min_le_left _ _)

theorem resized_only (h : Hart) (hold : Bool) : ∃ ge v m, resized h hold = { h with ge := ge, v := v, m := m } := by
  unfold resized
  dsimp only
  split
  · split <;> exact ⟨_, _, _, rfl⟩
  · exact ⟨_, _, _, rfl⟩

theorem regrant_only (h : Hart) (hold : Bool) : ∃ ge v m place reclaim pend21,
    h.regrant hold = { h with ge := ge, v := v, m := m, place := place, reclaim := reclaim, pend21 := pend21 } := by
  rw [regrant_eq]
  obtain ⟨ge, v, m, e⟩ := resized_only (reclaimed h hold) hold
  rw [e]
  unfold reclaimed
  split
  · split <;> exact ⟨ge, v, m, _, _, _, rfl⟩
  · exact ⟨ge, v, m, _, _, _, rfl⟩

/-! ### `setvl` (R158) -/

/-- The number of elements that a `setvl` gives, from the hart with its grant. -/
def newVl (s : State) (h : Hart) (a : XReg) (w : Tag) (g : Fin 4) : Nat :=
  if a = 0 then vlmaxOf w g.val h.ge else min (s.x a).toNat (vlmaxOf w g.val h.ge)

/-- What a `setvl` leaves, from the hart with its grant. -/
def withVl (s : State) (h : Hart) (hold : Bool) (d a : XReg) (w : Tag) (g : Fin 4) : State :=
  (State.setX { s with hart := { h with vcfg := ⟨w, g.val, hold⟩, vl := newVl s h a w g, vsi := 0 } } d
    (BitVec.ofNat 64 (newVl s h a w g))).retire

section
variable (s : State) (h : Hart) (hold : Bool) (d a : XReg) (w : Tag) (g : Fin 4)

theorem withVl_parts : withVl s h hold d a w g = { s with hart := { h with
    x := (withVl s h hold d a w g).hart.x, vcfg := ⟨w, g.val, hold⟩, vl := newVl s h a w g, vsi := 0
    pc := h.pc + (if h.ipair then 8 else 4), instret := h.instret + 1 } } := by
  unfold withVl
  rw [setX_only]
  rfl

theorem withVl_x (r : XReg) : (withVl s h hold d a w g).x r =
    if r = d then (if d = 0 then 0 else BitVec.ofNat 64 (newVl s h a w g)) else State.x { s with hart := h } r := x_setX _ d r _

end

theorem exec_setvl (s : State) (hold : Bool) (d a : XReg) (w : Tag) (g : Fin 4) :
    exec (if hold then .setvlH d a w g else .setvl d a w g) s = .next (withVl s (s.hart.regrant hold) hold d a w g) := by
  have hval : newVl s (s.hart.regrant hold) a w g = if a.val = 0 then vlmaxOf w g.val (s.hart.regrant hold).ge
      else Nat.min (s.x a).toNat (vlmaxOf w g.val (s.hart.regrant hold).ge) := by
    unfold newVl
    simp only [← Fin.val_eq_zero_iff]
  unfold withVl
  rw [hval]
  cases hold <;> rfl

theorem withVl_configured (s : State) (hold : Bool) (d a : XReg) {w : Tag} (g : Fin 4) (hw : w ≠ .none) :
    configured s (withVl s (s.hart.regrant hold) hold d a w g) hold d a w g := by
  obtain ⟨ge, v, m, place, reclaim, pend21, e⟩ := regrant_only s.hart hold
  rw [e]
  generalize hh : ({ s.hart with ge := ge, v := v, m := m, place := place, reclaim := reclaim, pend21 := pend21 } : Hart) = h
  have hmost : vlmaxOf w g.val h.ge = 1024 * h.ge * 2 ^ g.val * 8 / tagBits w := if_neg hw
  have hparts := withVl_parts s h hold d a w g
  have hx := withVl_x s h hold d a w g
  generalize withVl s h hold d a w g = t at hparts hx ⊢
  have hvl : t.hart.vl = newVl s h a w g := by rw [hparts]
  have hge : t.hart.ge = h.ge := by rw [hparts]
  refine ⟨?_, ?_, ?_, ?_, fun r hr => ?_, ?_, ?_, ?_⟩
  · rw [hparts]
  · rw [hvl, hge, ← hmost]
    rfl
  · rw [hparts]
  · rw [hx, if_pos rfl, hvl]
  · rw [hx, if_neg hr, ← hh]; rfl
  · rw [hparts, ← hh]
    exact ⟨rfl, rfl⟩
  · rw [hparts]
    exact ⟨fun _ => rfl, fun _ => rfl⟩
  · rw [hparts, ← hh]

/-- A `setvl` leaves what is posted and the grant as the hart with its reclaim taken has them, and G follows that grant. -/
theorem withVl_follows (s : State) (hold : Bool) (d a : XReg) (w : Tag) (g : Fin 4) :
    let k := reclaimed s.hart hold
    let t := withVl s (s.hart.regrant hold) hold d a w g
    t.hart.place = k.place ∧ t.hart.reclaim = k.reclaim ∧ t.hart.pend21 = k.pend21 ∧ follows k t.hart hold k.place.grant := by
  have hfollows := resized_follows (reclaimed s.hart hold) hold
  obtain ⟨ge, v, m, hsized⟩ := resized_only (reclaimed s.hart hold) hold
  dsimp only
  rw [withVl_parts, regrant_eq, hsized]
  rw [hsized] at hfollows
  exact ⟨rfl, rfl, rfl, hfollows⟩

/-- Settles O26: `setvl` leaves the hart with the reclaim taken, or as it was, at the size that its grant gives. -/
theorem vectorLength : Obligations.VectorLength := by
  intro s hold d a w g hw
  have hsays := withVl_follows s hold d a w g
  refine ⟨_, exec_setvl s hold d a w g, withVl_configured s hold d a g hw, fun n hhold hst hr hfit => ?_, fun hno => ?_⟩
  · subst hhold
    rw [reclaimed_taken hst hr hfit] at hsays
    exact hsays
  · rw [reclaimed_left hno] at hsays
    exact hsays

end Sys2Proof.Laws
end

section
/-! Tags, stream bindings and disc marks (04 R87, 08 R160, R175): how each instruction ends, and what it leaves. -/

namespace Sys2Proof.Laws

set_option Elab.async false

open Sys2Proof Sys2Proof.Machine Sys2Proof.Claim

variable {s : State}

/-! ### Checks -/

theorem require_holds {b : Bool} (h : b = true) (t : Trap) : s.require b t = .ok () := if_pos h

theorem require_fails {b : Bool} (h : b = false) (t : Trap) : s.require b t = .error (t, s) := if_neg (h ▸ Bool.false_ne_true)

theorem needRef_fails (h : s.hart.vcfg.tag = .none) : s.needRef = .error (s.tagFault 2, s) :=
  require_fails (by rw [h]; rfl) _

theorem aligned_of_mod {g : Grp} (h : g.base % g.n = 0) : g.aligned = true := by
  unfold Grp.aligned; simp [h]

theorem not_aligned_of_mod {g : Grp} (hn : g.n ≤ 8) (h : g.base % g.n ≠ 0) : g.aligned = false := by
  unfold Grp.aligned; simp [h, hn]

/-- An aligned group of at most 8 registers, a power of two, ends within the register file. -/
theorem aligned_group_end (d : VNum) {l : Nat} (hn : 2 ^ l ≤ 8) (hd : d.val % 2 ^ l = 0) : d.val + 2 ^ l ≤ 32 := by
  have hl : l ≤ 3 := (Nat.pow_le_pow_iff_right (by norm_num)).1 (hn.trans_eq (by norm_num : 8 = 2 ^ 3))
  have hlt := d.isLt
  interval_cases l <;> omega

/-! ### The tag of a group (R160) -/

section
variable {d : VNum}

theorem setTag_unaligned (hg : (s.plainGrp d).aligned = false) (w : Option Tag) : setTag d w s = .next (s.takeTrap (s.tagFault 1)) := by
  unfold setTag
  dsimp only
  rw [require_fails hg]
  rfl

theorem setTag_reserved (hg : (s.plainGrp d).aligned = true) : setTag d none s = .next (s.takeTrap (s.tagFault 2)) := by
  unfold setTag
  dsimp only
  rw [require_holds hg]
  rfl

theorem setTag_bound (hg : (s.plainGrp d).aligned = true) {k : Sys2Proof.SNum} {ks : List Sys2Proof.SNum}
    (hb : s.boundBy [s.plainGrp d] = k :: ks) (w : Tag) : setTag d (some w) s = .next (s.takeTrap (s.boundWrite k)) := by
  unfold setTag
  dsimp only
  rw [require_holds hg, hb]
  rfl

theorem setTag_free (hg : (s.plainGrp d).aligned = true) (hb : s.boundBy [s.plainGrp d] = []) (w : Tag) :
    setTag d (some w) s = .next (s.tagGroup (s.plainGrp d) w).retire := by
  unfold setTag
  dsimp only
  rw [require_holds hg, hb]
  rfl

end

theorem retire_wrote {u t : State} {g : Grp} {w : Tag} {acts : List Nat} {f : Nat → Nat} (h : wroteElements u t g w acts f) :
    wroteElements u t.retire g w acts f := wrote_congr (t := t) rfl rfl h

theorem tagGroup_only (u : State) (g : Grp) (w : Tag) : ∃ v, u.tagGroup g w = { u with hart := { u.hart with v := v } } := ⟨_, rfl⟩

/-- A group that takes a tag keeps its elements, and the instruction that sets it changes nothing else. -/
theorem tagGroup_says (u : State) {g : Grp} (hg : g.base + g.n ≤ 32) (w : Tag) :
    let t := (u.tagGroup g w).retire
    wroteElements u t g w [] (fun _ => 0) ∧ goesOn u t ∧ sameMemory u t ∧
      t = { u with hart := { u.hart with v := t.hart.v, pc := t.hart.pc, instret := t.hart.instret } } := by
  have hwrote : wroteElements u (u.tagGroup g w) g w [] fun _ => 0 := wrote_self u g w [] _ hg
  obtain ⟨v, hv⟩ := tagGroup_only u g w
  rw [hv] at hwrote ⊢
  exact ⟨retire_wrote hwrote, ⟨rfl, rfl⟩, ⟨fun _ => rfl, fun _ => rfl⟩, rfl⟩

theorem vtagr_eq {b : XReg} {w : Option Tag} (hb : Tag.ofCode ((s.x b).toNat % 32) = w) (d : VNum) : exec (.vtagr d b) s = setTag d w s := by
  rw [← hb]; rfl

theorem tagsSet : TagsSet := by
  intro s i d w hi g hn hd hb
  have hexec : exec i s = setTag d (some w) s := by
    rcases hi with rfl | ⟨b, rfl, hw⟩
    · rfl
    · exact vtagr_eq hw d
  have haligned : (s.plainGrp d).aligned = true := aligned_of_mod hd
  exact ⟨_, hexec.trans (setTag_free haligned hb w), tagGroup_says s (g := s.plainGrp d) (aligned_group_end d hn hd) w⟩

/-! ### Bindings (R175) -/

theorem tagBits_pos {w : Tag} (h : w ≠ .none) : 0 < tagBits w := by
  revert h; cases w <;> decide

theorem dataGrp_eq (h : s.hart.vcfg.tag ≠ .none) (d : VNum) :
    s.dataGrp d = ⟨d.val, 2 ^ s.hart.vcfg.lgrp, tagBits s.hart.vcfg.tag⟩ := by
  have hpos := tagBits_pos h
  have hregs : s.hart.vcfg.regs (tagBits s.hart.vcfg.tag) = 2 ^ s.hart.vcfg.lgrp := by
    unfold Vcfg.regs
    rw [if_neg (Nat.not_lt.2 (Nat.le_mul_of_pos_left _ (Nat.two_pow_pos _))), Nat.mul_div_cancel _ hpos]
  unfold State.dataGrp State.grp
  rw [hregs]

theorem unbind_stream (u : State) (p : Sys2Proof.SNum → Stream → Bool) (k : Sys2Proof.SNum) :
    (u.unbind p).hart.streams[k.val] = if u.hart.streams[k.val].bound && p k u.hart.streams[k.val]
      then { u.hart.streams[k.val] with bound := false, strips := [] } else u.hart.streams[k.val] := by
  unfold State.unbind
  simp only [Vector.getElem_ofFn]
  rfl

/-- A state with a group bound to a stream in place of the bindings of that stream and on that group. -/
def rebound (u : State) (n : Sys2Proof.SNum) (g : Grp) (b : Stream) : State :=
  let v := u.unbind fun k c => k == n || c.grp.overlaps g
  { v with hart := { v.hart with streams := v.hart.streams.set n.val b } }

theorem rebound_stream_same (u : State) (n : Sys2Proof.SNum) (g : Grp) (b : Stream) : (rebound u n g b).hart.streams[n.val] = b :=
  Vector.getElem_set_self _

theorem rebound_stream_other (u : State) {n k : Sys2Proof.SNum} (hk : k ≠ n) (g : Grp) (b : Stream) :
    (rebound u n g b).hart.streams[k.val] = if u.hart.streams[k.val].bound && u.hart.streams[k.val].grp.overlaps g
      then { u.hart.streams[k.val] with bound := false, strips := [] } else u.hart.streams[k.val] := by
  have hset : (rebound u n g b).hart.streams[k.val] = (u.unbind fun k c => k == n || c.grp.overlaps g).hart.streams[k.val] :=
    Vector.getElem_set_ne n.isLt k.isLt fun h => hk (Fin.ext h.symm)
  rw [hset, unbind_stream, beq_false_of_ne hk, Bool.false_or]

section
variable (d : VNum) (a r : XReg) (n : Sys2Proof.SNum)

theorem vsbind_untagged (h : s.hart.vcfg.tag = .none) : exec (.vsbind d a r n) s = .next (s.takeTrap (s.tagFault 2)) := by
  show execVsbind d a r n s = _
  unfold execVsbind
  rw [needRef_fails h]
  rfl

theorem vsbind_unaligned (h : s.hart.vcfg.tag ≠ .none) (hg : (s.drain.dataGrp d).aligned = false) :
    exec (.vsbind d a r n) s = .next (s.drain.takeTrap (s.drain.tagFault 1)) := by
  show execVsbind d a r n s = _
  unfold execVsbind
  dsimp only
  rw [needRef_ok h, require_fails hg]
  rfl

theorem vsbind_fp4 (h : s.hart.vcfg.tag ≠ .none) (hg : (s.drain.dataGrp d).aligned = true) (hf : s.drain.hart.vcfg.tag = .fp4) :
    exec (.vsbind d a r n) s = .next (s.drain.takeTrap (s.drain.tagFault 3)) := by
  show execVsbind d a r n s = _
  unfold execVsbind
  dsimp only
  rw [needRef_ok h, require_holds hg, require_fails (by rw [hf]; rfl)]
  rfl

theorem vsbind_binds (h : s.hart.vcfg.tag ≠ .none) (hg : (s.drain.dataGrp d).aligned = true) (hf : s.drain.hart.vcfg.tag ≠ .fp4) :
    exec (.vsbind d a r n) s = .next ((rebound s.drain n (s.drain.dataGrp d)
      ⟨true, d.val, s.drain.hart.vcfg.lgrp, s.drain.hart.vcfg.tag, s.drain.x a, s.drain.x r, 0, []⟩).tagGroup (s.drain.dataGrp d)
        s.drain.hart.vcfg.tag).retire := by
  show execVsbind d a r n s = _
  unfold execVsbind
  dsimp only
  rw [needRef_ok h, require_holds hg, require_holds (bne_iff_ne.2 hf)]
  rfl

theorem vsunbind_untagged (h : s.hart.vcfg.tag = .none) : exec (.vsunbind d) s = .next (s.takeTrap (s.tagFault 2)) := by
  show execVsunbind d s = _
  unfold execVsunbind
  rw [needRef_fails h]
  rfl

theorem vsunbind_unbinds (h : s.hart.vcfg.tag ≠ .none) :
    exec (.vsunbind d) s = .next (s.unbind fun _ b => b.grp.has d.val).retire := by
  show execVsunbind d s = _
  unfold execVsunbind
  rw [needRef_ok h]
  rfl

end

/-- Draining leaves VCFG and the bindings. -/
theorem drain_bindings (s : State) : s.drain.hart.vcfg = s.hart.vcfg ∧ s.drain.hart.streams = s.hart.streams := by
  obtain ⟨_, _, _, _, _, _, _, _, h⟩ := co_drain s
  rw [h]
  exact ⟨rfl, rfl⟩

theorem drain_dataGrp (h : s.hart.vcfg.tag ≠ .none) (d : VNum) :
    s.drain.dataGrp d = ⟨d.val, 2 ^ s.hart.vcfg.lgrp, tagBits s.hart.vcfg.tag⟩ := by
  rw [← dataGrp_eq h]
  unfold State.dataGrp State.grp
  rw [(drain_bindings s).1]

theorem tagTraps : TagTraps := by
  intro s d g u reason
  refine ⟨fun hn hd => ?_, fun _ hd => ?_, fun hw => ⟨fun a r n => vsbind_untagged d a r n hw, vsunbind_untagged d hw⟩⟩
  · have hplain : (s.plainGrp d).aligned = false := not_aligned_of_mod hn hd
    refine ⟨fun w => (setTag_unaligned hplain (some w) : setTag d (some w) s = _), fun b => ?_, fun hw a r n => ?_⟩
    · exact (vtagr_eq rfl d).trans (setTag_unaligned hplain _)
    · exact vsbind_unaligned d a r n hw (by rw [drain_dataGrp hw]; exact not_aligned_of_mod hn hd)
  · have hplain : (s.plainGrp d).aligned = true := aligned_of_mod hd
    refine ⟨fun b hb => (vtagr_eq hb d).trans (setTag_reserved hplain), fun hw a r n => ?_, fun k ks hk => ⟨fun w => ?_, fun b w hb => ?_⟩⟩
    · have hne : s.hart.vcfg.tag ≠ .none := by rw [hw]; decide
      exact vsbind_fp4 d a r n hne (by rw [drain_dataGrp hne]; exact aligned_of_mod hd) (by rw [(drain_bindings s).1, hw])
    · exact (setTag_bound hplain hk w : setTag d (some w) s = _)
    · exact (vtagr_eq hb d).trans (setTag_bound hplain hk w)

section
variable {d : VNum} (a r : XReg) (n : Sys2Proof.SNum)

/-- The group that `vsbind` binds, for the elements of VCFG.TAG. -/
def streamGroup (s : State) (d : VNum) : Grp := ⟨d.val, 2 ^ s.hart.vcfg.lgrp, tagBits s.hart.vcfg.tag⟩

/-- The binding that `vsbind` makes. -/
def newBinding (s : State) (d : VNum) (a r : XReg) : Stream :=
  ⟨true, d.val, s.hart.vcfg.lgrp, s.hart.vcfg.tag, s.x a, s.x r, 0, []⟩

theorem vsbind_aligned (hne : s.hart.vcfg.tag ≠ .none) (hf : s.hart.vcfg.tag ≠ .fp4) (hd : d.val % 2 ^ s.hart.vcfg.lgrp = 0) :
    exec (.vsbind d a r n) s =
      .next ((rebound s.drain n (streamGroup s d) (newBinding s d a r)).tagGroup (streamGroup s d) s.hart.vcfg.tag).retire := by
  have hg : s.drain.dataGrp d = streamGroup s d := drain_dataGrp hne d
  have haligned : (streamGroup s d).aligned = true := aligned_of_mod hd
  have hexec := vsbind_binds d a r n hne (by rw [hg]; exact haligned) (by rw [(drain_bindings s).1]; exact hf)
  rw [hg, (drain_bindings s).1, co_x (co_drain s), co_x (co_drain s)] at hexec
  exact hexec

end

theorem rebound_only (u : State) (n : Sys2Proof.SNum) (g : Grp) (b : Stream) :
    rebound u n g b = { u with hart := { u.hart with streams := (rebound u n g b).hart.streams } } := rfl

/-- Elements are read from the registers alone. -/
theorem wrote_congr_from {u u' t : State} {g : Grp} {w : Tag} {acts : List Nat} {f : Nat → Nat}
    (h : wroteElements u t g w acts f) (hv : u'.hart.v = u.hart.v) (hge : u'.hart.ge = u.hart.ge) : wroteElements u' t g w acts f := by
  have helement : ∀ i, element u' g i = element u g i := fun i => by
    unfold element State.bitsOf
    rw [storage_congr hv (congrArg (8192 * ·) hge)]
  obtain ⟨hin, hout, hregs⟩ := h
  unfold within at hin hout
  refine ⟨fun i hi hw => hin i hi (hge ▸ hw), fun i hi hw => ?_, fun r => ?_⟩
  · rw [helement]
    exact hout i hi (hge ▸ hw)
  · rw [hv]
    exact hregs r

/-- What a binding made at a state leaves. -/
theorem rebound_says (u : State) (n : Sys2Proof.SNum) {g : Grp} (hg : g.base + g.n ≤ 32) (b : Stream) (w : Tag) :
    ∃ t, ((rebound u n g b).tagGroup g w).retire = t ∧ t.hart.streams = (rebound u n g b).hart.streams ∧ goesOn u t ∧ sameMemory u t ∧
      wroteElements u t g w [] (fun _ => 0) ∧
      t = { u with hart := { u.hart with v := t.hart.v, streams := t.hart.streams, pc := t.hart.pc, instret := t.hart.instret } } := by
  rw [rebound_only]
  generalize (rebound u n g b).hart.streams = streams
  obtain ⟨hwrote, hgo, hmem, hparts⟩ := tagGroup_says { u with hart := { u.hart with streams := streams } } hg w
  refine ⟨_, rfl, ?_, hgo, hmem, wrote_congr_from hwrote rfl rfl, ?_⟩
  all_goals generalize (State.tagGroup _ g w).retire = t at *
  · rw [hparts]
  · rw [hparts]

theorem goesOn_of_drain {t : State} (h : goesOn s.drain t) : goesOn s t := by
  have hco := co_drain s
  unfold goesOn at h ⊢
  rwa [co_pc hco, co_len hco, co_instret hco] at h

theorem vsbind_says {d : VNum} (a r : XReg) (n : Sys2Proof.SNum) (hne : s.hart.vcfg.tag ≠ .none) (hf : s.hart.vcfg.tag ≠ .fp4)
    (hn : 2 ^ s.hart.vcfg.lgrp ≤ 8) (hd : d.val % 2 ^ s.hart.vcfg.lgrp = 0) :
    ∃ t, exec (.vsbind d a r n) s = .next t ∧ goesOn s t ∧ sameMemory s.drain t ∧ t.hart.streams[n.val] = newBinding s d a r ∧
      (∀ k : Sys2Proof.SNum, k ≠ n → let b := s.hart.streams[k.val]
        t.hart.streams[k.val] = if b.bound = true ∧ meets ⟨b.group, 2 ^ b.lgrp, 0⟩ (streamGroup s d) = true
          then { b with bound := false, strips := [] } else b) ∧
      wroteElements s.drain t (streamGroup s d) s.hart.vcfg.tag [] (fun _ => 0) ∧
      t = { s.drain with hart := { s.drain.hart with
        v := t.hart.v, streams := t.hart.streams, pc := t.hart.pc, instret := t.hart.instret } } := by
  have hexec := vsbind_aligned a r n hne hf hd
  obtain ⟨t, ht, hstreams, hgo, hmem, hwrote, hparts⟩ :=
    rebound_says s.drain n (g := streamGroup s d) (aligned_group_end d hn hd) (newBinding s d a r) s.hart.vcfg.tag
  rw [ht] at hexec
  refine ⟨t, hexec, goesOn_of_drain hgo, hmem, ?_, fun k hk => ?_, hwrote, hparts⟩
  · rw [hstreams]
    exact rebound_stream_same s.drain n _ _
  · have hother := rebound_stream_other s.drain hk (streamGroup s d) (newBinding s d a r)
    rw [(drain_bindings s).2] at hother
    simp only [Bool.and_eq_true] at hother
    rw [hstreams]
    exact hother

theorem vsunbind_says (d : VNum) (hne : s.hart.vcfg.tag ≠ .none) : ∃ t, exec (.vsunbind d) s = .next t ∧ goesOn s t ∧
    (∀ k : Sys2Proof.SNum, let b := s.hart.streams[k.val]
      t.hart.streams[k.val] = if b.bound = true ∧ b.group ≤ d.val ∧ d.val < b.group + 2 ^ b.lgrp
        then { b with bound := false, strips := [] } else b) ∧
    t = { s with hart := { s.hart with streams := t.hart.streams, pc := t.hart.pc, instret := t.hart.instret } } := by
  refine ⟨_, vsunbind_unbinds d hne, ⟨rfl, rfl⟩, fun k => ?_, rfl⟩
  have hstream := unbind_stream s (fun _ b => b.grp.has d.val) k
  simp only [Grp.has, Bool.and_eq_true, decide_eq_true_eq] at hstream
  exact hstream

theorem streamBindings : StreamBindings := fun _ hne =>
  ⟨fun _ a r n hf hn hd => vsbind_says a r n hne hf hn hd, fun d => vsunbind_says d hne⟩

/-! ### Disc marks (R87) -/

theorem discRange_ok {a len : Word} (ha : a.toNat % 4096 = 0) (hl : len.toNat % 4096 = 0) (hw : windowBase ≤ a.toNat)
    (hin : a.toNat - windowBase + len.toNat ≤ s.hart.place.pieces.length * 65536) :
    s.discRange a len = .ok (a.toNat - windowBase) := by
  unfold State.discRange
  dsimp only
  rw [require_holds (by simp [ha, hl]), require_holds (by simp [hw, hin])]
  rfl

theorem setDisc_bit {d off len : Nat} (hl : len % 4096 = 0) (v : Bool) (p : Nat) :
    (setDisc d off len v).testBit p = if off / 4096 ≤ p ∧ p < (off + len) / 4096 then v else d.testBit p := by
  have hend : (off + len) / 4096 = off / 4096 + len / 4096 := by omega
  unfold setDisc
  rw [testBit_setBitsAt, hend]
  split
  next hp =>
    have hlt : p - off / 4096 < len / 4096 := by omega
    cases v <;> simp [Nat.testBit_two_pow_sub_one, hlt]
  next => rfl

/-- The pages of a range marked, and the instruction completed. -/
def marked (s : State) (off len : Nat) (v : Bool) : State :=
  State.retire { s with hart := { s.hart with disc := setDisc s.hart.disc off len v } }

section
variable {a b : XReg}

theorem spdisc_empty (h : s.x b = 0) : exec (.spdisc a b) s = .next s.retire := by
  show execSpdisc a b s = _
  unfold execSpdisc
  dsimp only
  rw [if_pos h]
  rfl

theorem spkeep_empty (h : s.x b = 0) : exec (.spkeep a b) s = .next s.retire := by
  show execSpkeep a b s = _
  unfold execSpkeep
  dsimp only
  rw [if_pos h]
  rfl

theorem spkeep_marks {off : Nat} (hb : s.x b ≠ 0) (hr : s.discRange (s.x a) (s.x b) = .ok off) :
    exec (.spkeep a b) s = .next (marked s off (s.x b).toNat false) := by
  show execSpkeep a b s = _
  unfold execSpkeep
  dsimp only
  rw [if_neg hb, hr]
  rfl

theorem spdisc_marks {off : Nat} (hb : s.x b ≠ 0) (hr : s.discRange (s.x a) (s.x b) = .ok off)
    (hz : ∀ z ∈ s.zones, z.owner = s.hart.place.hid → z.stop ≤ off ∨ off + (s.x b).toNat ≤ z.base) :
    exec (.spdisc a b) s = .next (marked s off (s.x b).toNat true) := by
  have hfree : (s.zones.any fun z => z.owner == s.hart.place.hid && decide (off < z.stop) &&
      decide (z.base < off + (s.x b).toNat)) = false := by
    refine List.any_eq_false.2 fun z hzone => ?_
    have := hz z hzone
    simp only [Bool.and_eq_true, beq_iff_eq, decide_eq_true_eq]
    omega
  show execSpdisc a b s = _
  unfold execSpdisc
  dsimp only
  rw [if_neg hb, hr]
  simp only [bind, Except.bind]
  rw [require_holds (by rw [hfree]; rfl)]
  rfl

end

theorem discardMarks : DiscardMarks := by
  intro s disc a b off len i
  have hlen : len = 0 ↔ s.x b = 0 := BitVec.toNat_inj (y := 0)
  refine ⟨fun h => ⟨s.retire, ?_, ⟨rfl, rfl⟩, rfl⟩, fun h ha hl hw hin hz => ⟨marked s off len disc, ?_, ⟨rfl, rfl⟩, setDisc_bit hl disc, rfl⟩⟩
  · cases disc
    · exact spkeep_empty (hlen.1 h)
    · exact spdisc_empty (hlen.1 h)
  · have hb : s.x b ≠ 0 := fun e => h (hlen.2 e)
    have hrange := discRange_ok ha hl hw hin
    cases disc
    · exact spkeep_marks hb hrange
    · exact spdisc_marks hb hrange (hz rfl)

/-- Settles O27, by its four parts: tags set, where tags and bindings trap, bindings, and disc marks. -/
theorem tagsAndStreams : Obligations.TagsAndStreams := ⟨tagsSet, tagTraps, streamBindings, discardMarks⟩

end Sys2Proof.Laws
end

section
/-! Vector instructions whose operands are in order: their checks pass, and they end with the elements that they write (08 R164,
09 R180, R181). -/

namespace Sys2Proof.Laws

set_option Elab.async false

open Sys2Proof Sys2Proof.Machine Sys2Proof.Claim

variable {s u : State} {i : Instr}

/-! ### Checks -/

/-- A condition that is no fault of operands in order. -/
theorem faults_off {o : Operands} (hr : ready s u o) : ∀ b ∈ o.faults, b = false := by
  obtain ⟨-, -, hf, -⟩ := hr
  exact hf

/-- Operands in order pass the checks of an instruction, whose conditions all are among the claim's. -/
theorem prepare_passes {o : Operands} (hr : ready s u o) {flt : List (Bool × Nat)} (hf : (∀ b ∈ o.faults, b = false) → ∀ p ∈ flt, p.1 = false) :
    s.prepare o.srcs o.dsts o.masks o.usesMask o.len flt = .ok u :=
  prepare_ready hr flt fun p hp h => absurd h (Bool.eq_false_iff.1 (hf (faults_off hr) p hp))

/-- An instruction that names a group, with its checks passed. -/
theorem checked_run {o : Operands} (hr : ready s u o) (hne : o.srcs ++ o.dsts ≠ []) {flt : List (Bool × Nat)}
    (hf : (∀ b ∈ o.faults, b = false) → ∀ p ∈ flt, p.1 = false) (f : State → Run State) :
    finish (do s.needRef; let v ← s.prepare o.srcs o.dsts o.masks o.usesMask o.len flt; f v) = finish (f u) := by
  obtain ⟨href, -⟩ := id hr
  rw [needRef_ok (href hne), prepare_passes hr hf]
  rfl

/-- One that rounds too. -/
theorem rounded_run {o : Operands} {rm : Option Rounding} {m : Rounding} (hm : roundsBy s rm m) (hr : ready s u o)
    (hne : o.srcs ++ o.dsts ≠ []) {flt : List (Bool × Nat)} (hf : (∀ b ∈ o.faults, b = false) → ∀ p ∈ flt, p.1 = false)
    (f : Rounding → State → Run State) :
    finish (do let q ← s.mode rm; s.needRef; let v ← s.prepare o.srcs o.dsts o.masks o.usesMask o.len flt; f q v) = finish (f m u) := by
  rw [mode_ok hm]
  exact checked_run hr hne hf (f m)

theorem vcfgTag_of_ready {o : Operands} {g : Grp} (hr : ready s u o) (hg : g ∈ o.srcs ++ o.dsts) : s.hart.vcfg.tag ≠ .none := by
  obtain ⟨href, -⟩ := hr
  exact href (List.ne_nil_of_mem hg)

/-- A group that passes its checks ends within the register file. -/
theorem group_end_of_ready {o : Operands} {r : VNum} {t : Tag} (hr : ready s u o) (hg : groupOf s r t ∈ o.srcs ++ o.dsts) :
    (groupOf s r t).base + (groupOf s r t).n ≤ 32 := by
  obtain ⟨-, haligned, -⟩ := hr
  obtain ⟨hn, hbase⟩ := haligned _ hg
  exact group_small s r t hn hbase

theorem delivered_of_ready {o : Operands} (hr : ready s u o) : Delivered s u := by
  obtain ⟨-, -, -, -, -, -, hdel, -⟩ := hr
  exact deliver_only _ _ _ hdel

/-! ### The end of an element-wise instruction (R180) -/

/-- The state that an element-wise instruction leaves, from the one with its sources delivered. -/
def completed (u : State) (e : Elementwise) : State := (u.elementwise e.dst e.tag e.acts e.value).vdone e.srcs

/-- An instruction that ends there does what R180 says of it. -/
theorem performs_of_completed {e : Elementwise} {d : VNum} {t : Tag} (hr : ready s u e.toOperands) (hd : e.dst = groupOf s d t)
    (hmem : e.dst ∈ e.dsts) (he : exec i s = .next (completed u e)) : performs s u i e := by
  refine perform_core hr ?_ i he
  rw [hd] at hmem ⊢
  exact group_end_of_ready hr (List.mem_append_right _ hmem)

end Sys2Proof.Laws
end

section
/-! Vector arithmetic (09 R184, R185): each instruction is one of three forms. -/

namespace Sys2Proof.Laws

set_option Elab.async false

open Sys2Proof Sys2Proof.Machine Sys2Proof.Claim

variable {s u : State} {m : Rounding} {i : Instr}

/-- An instruction of the table is the V form or the VX form of an operation, or a fused one. -/
theorem arithmetic_forms {rm : Option Rounding} {e : Elementwise} (h : arithmetic s u m i = some (rm, e)) :
    (∃ d a b mk sat k, exec i s = vecVV d a b mk rm sat k s ∧ e = binary s u m d a b mk k.floats fun t => arithOp k t m sat) ∨
    (∃ d a x mk sat k, exec i s = vecVX d a x mk rm sat k s ∧ e = scalarForm s u d a x mk k.floats fun t => arithOp k t m sat) ∨
    ∃ d a b mk sat negP negD, exec i s = vecFused d a b mk rm sat negP negD s ∧ e = fused s u m d a b mk sat negP negD := by
  cases i with
  | vadd | vsub | vmul | vdiv | vrem | vmin | vmax | vand | vor | vxor | vsll | vsrl | vsra | vmulh =>
    cases h; exact .inl ⟨_, _, _, _, _, _, rfl, rfl⟩
  | vaddX | vsubX | vmulX | vdivX | vremX | vminX | vmaxX | vandX | vorX | vxorX | vsllX | vsrlX | vsraX | vmulhX =>
    cases h; exact .inr (.inl ⟨_, _, _, _, _, _, rfl, rfl⟩)
  | vfma | vfms | vfnma | vfnms => cases h; exact .inr (.inr ⟨_, _, _, _, _, _, _, rfl, rfl⟩)
  | _ => cases h

/-- Settles O21: each form ends with its elements written. -/
theorem vectorArithmetic : Obligations.VectorArithmetic := by
  intro s u i rm m e h hm hr
  rcases arithmetic_forms h with ⟨d, a, b, mk, sat, k, hexec, rfl⟩ | ⟨d, a, x, mk, sat, k, hexec, rfl⟩ |
    ⟨d, a, b, mk, sat, negP, negD, hexec, rfl⟩
  · exact performs_of_completed hr rfl (List.mem_singleton_self _) (hexec.trans (binary_core hm hr))
  · exact performs_of_completed hr rfl (List.mem_singleton_self _) (hexec.trans (scalar_core hm hr))
  · exact performs_of_completed hr rfl (List.mem_singleton_self _) (hexec.trans (fused_core hm hr))

end Sys2Proof.Laws
end

section
/-! Vector operations of one source, and bit streams (09 R192 to R195). -/

namespace Sys2Proof.Laws

set_option Elab.async false

open Sys2Proof Sys2Proof.Machine Sys2Proof.Claim

variable {s u : State} {m : Rounding} {i : Instr}

theorem element_lt (u : State) (g : Grp) (j : Nat) : element u g j < 2 ^ g.bits := Nat.mod_lt _ (Nat.two_pow_pos _)

/-! ### Sign bits -/

theorem testBit_setBitAt (n k j : Nat) (b : Bool) : (setBitAt n k b).testBit j = if j = k then b else n.testBit j := by
  unfold setBitAt
  rw [testBit_setBitsAt]
  by_cases hj : j = k
  · subst hj
    rw [if_pos ⟨le_rfl, Nat.lt_succ_self _⟩, if_pos rfl, Nat.sub_self]
    cases b <;> rfl
  · rw [if_neg (by omega), if_neg hj]

/-- Negating the sign bit of a pattern (R193). -/
theorem setBitAt_flip (x k : Nat) : setBitAt x k (!bitAt x k) = x ^^^ 2 ^ k := by
  refine Nat.eq_of_testBit_eq fun j => ?_
  rw [testBit_setBitAt, bitAt_testBit, Nat.testBit_xor, Nat.testBit_two_pow]
  by_cases hj : j = k
  · subst hj; simp
  · simp [hj, Ne.symm hj]

/-- Clearing the sign bit of a pattern (R193). -/
theorem setBitAt_clear {x w : Nat} (hx : x < 2 ^ (w + 1)) : setBitAt x w false = x % 2 ^ w := by
  refine Nat.eq_of_testBit_eq fun j => ?_
  rw [testBit_setBitAt, Nat.testBit_mod_two_pow]
  rcases Nat.lt_trichotomy j w with hj | rfl | hj
  · simp [hj, hj.ne]
  · simp
  · have hhigh : x.testBit j = false := Nat.testBit_lt_two_pow (hx.trans_le (Nat.pow_le_pow_right (by norm_num) hj))
    simp [hj.ne', hhigh]

/-! ### One source (R192 to R194) -/

/-- A unary form, whose condition on its tag is `bad` and whose operation on patterns of that tag is `op`. -/
theorem unary_core {rm : Option Rounding} {d a : VNum} {mk : MNum} {t : Tag} {bad : Bool} {op : Nat → FRes} {dst : Tag → Tag} {ok : Tag → Bool}
    {f : Tag → Rounding → Nat → FRes} (hm : roundsBy s rm m) (hr : ready s u (unary s u d a mk t bad op).toOperands)
    (hdst : dst (tagOf s a) = t) (hok : (!ok (tagOf s a)) = bad) (hop : ∀ x < 2 ^ tagBits (tagOf s a), f (tagOf s a) m x = op x) :
    vecUnary d a mk rm dst ok f s = .next (completed u (unary s u d a mk t bad op)) := by
  have htag := vcfgTag_of_ready hr (List.mem_cons_self ..)
  have hvalue : (fun j => f (tagOf s a) m (element u (groupOf s a (tagOf s a)) j)) = (unary s u d a mk t bad op).value :=
    funext fun j => hop _ (element_lt u _ j)
  subst hdst hok
  unfold vecUnary
  simp only [show s.vtagOf a = tagOf s a from rfl, group_eq _ _ _ htag]
  refine (rounded_run hm hr (List.cons_ne_nil _ _) ?_ _).trans ?_
  · simp +contextual [unary, untyped, noElements, tooWide, farApart, State.noScale, Claim.noScale]
  · rw [actives_eq]
    show finish (.ok ((u.elementwise _ _ _ fun j => f (tagOf s a) m (element u (groupOf s a (tagOf s a)) j)).vdone _)) = _
    rw [hvalue]
    rfl

theorem tagFloat_bits {t : Tag} (h : tagFloat t = true) : ∃ w, tagBits t = w + 1 := by
  cases t <;> cases h <;> exact ⟨_, rfl⟩

theorem negOp_eq (sat : Bool) (t : Tag) (x : Nat) :
    negOp sat t x = if tagFloat t then ⟨x ^^^ 2 ^ (tagBits t - 1), {}, false⟩ else intToInt t sat (-intValue t x) := by
  unfold negOp
  rw [setBitAt_flip]
  rfl

theorem absOp_eq (sat : Bool) {t : Tag} {x : Nat} (hx : x < 2 ^ tagBits t) :
    absOp sat t x = if tagFloat t then ⟨x % 2 ^ (tagBits t - 1), {}, false⟩ else intToInt t sat (intValue t x).natAbs := by
  unfold absOp
  split
  · next hfloat =>
    obtain ⟨w, hw⟩ := tagFloat_bits hfloat
    rw [hw] at hx ⊢
    rw [Nat.add_sub_cancel, setBitAt_clear hx]
    rfl
  · rfl

theorem sqrtOp_eq (t : Tag) (m : Rounding) (x : Nat) : sqrtOp t m x = inFormat t fun f => f.sqrt m (f.value x) := by
  unfold sqrtOp inFormat
  cases tagFmt t <;> rfl

theorem specialOp_eq (k : SpecFn) (t : Tag) (m : Rounding) (x : Nat) : specialOp k t m x = inFormat t fun f => specialFn t f m k x := by
  unfold specialOp inFormat
  cases tagFmt t <;> rfl

theorem specialTag_eq (t : Tag) : specialTag t = special t := by cases t <;> rfl

theorem sqrtTag_eq (t : Tag) : (!(tagFloat t && t != .fp4)) = (!tagFloat t || t == .fp4) := by cases t <;> rfl

/-- A unary instruction of the table is the unary form of its operation. -/
theorem unary_performs {rm : Option Rounding} {d a : VNum} {mk : MNum} {t : Tag} {bad : Bool} {op : Nat → FRes} {dst : Tag → Tag} {ok : Tag → Bool}
    {f : Tag → Rounding → Nat → FRes} (hm : roundsBy s rm m) (hr : ready s u (unary s u d a mk t bad op).toOperands)
    (he : exec i s = vecUnary d a mk rm dst ok f s) (hdst : dst (tagOf s a) = t) (hok : (!ok (tagOf s a)) = bad)
    (hop : ∀ x < 2 ^ tagBits (tagOf s a), f (tagOf s a) m x = op x) : performs s u i (unary s u d a mk t bad op) :=
  performs_of_completed hr rfl (List.mem_singleton_self _) (he.trans (unary_core hm hr hdst hok hop))

theorem special_performs {rm : Option Rounding} {d a : VNum} {mk : MNum} {k : SpecFn} (hm : roundsBy s rm m)
    (hr : ready s u (unary s u d a mk (tagOf s a) (!special (tagOf s a)) fun x =>
      inFormat (tagOf s a) fun f => specialFn (tagOf s a) f m k x).toOperands)
    (he : exec i s = vecUnary d a mk rm id specialTag (specialOp k) s) :
    performs s u i (unary s u d a mk (tagOf s a) (!special (tagOf s a)) fun x =>
      inFormat (tagOf s a) fun f => specialFn (tagOf s a) f m k x) :=
  unary_performs hm hr he rfl (congrArg not (specialTag_eq _)) fun _ _ => specialOp_eq ..

/-! ### Bit streams (R195) -/

theorem bitsOf_lt (u : State) (g : Grp) : u.bitsOf g < 2 ^ (g.n * u.hart.slice) :=
  Nat.lt_pow_two_of_testBit _ fun j hj => by
    unfold State.bitsOf
    rw [storage_bit]
    simp [Nat.not_lt.2 hj]

/-- A stream of a group's whole storage: bits beyond it read zero. -/
theorem streamBits_eq (u : State) (g : Grp) (off n : Nat) : streamBits (u.bitsOf g) (g.n * u.hart.slice) off n = (u.bitsOf g >>> off) % 2 ^ n := by
  unfold streamBits bitsAt
  rw [Nat.mod_eq_of_lt (bitsOf_lt u g)]

/-- An index element as an offset: extended by class, in 64 bits (R169). -/
theorem ofInt_indexInt (t : Tag) (x : Nat) :
    ofInt 64 (indexInt t x) = (BitVec.ofInt 64 (if tagSigned t then (BitVec.ofNat (tagBits t) x).toInt else x)).toNat := by
  rw [indexInt_eq, BitVec.toNat_ofInt]
  rfl

theorem vbext_runs {rm : Option (Option Rounding)} {d a b : VNum} {q p : Bool} {k : MNum} {len : Option (Fin 64)} {e : Elementwise}
    (h : unaries s u m (.vbext d a b q p k len) = some (rm, e)) (hr : ready s u e.toOperands) :
    exec (.vbext d a b q p k len) s = .next (completed u e) := by
  cases h
  have htag := vcfgTag_of_ready hr (List.mem_cons_self ..)
  show execVbext d a b q p k len s = _
  unfold execVbext
  simp only [show s.vtagOf a = tagOf s a from rfl, show s.vtagOf b = tagOf s b from rfl, group_eq _ _ _ htag]
  refine (checked_run hr (List.cons_ne_nil _ _) ?_ _).trans ?_
  · simp +contextual [untyped, noElements, tooWide, farApart, State.noScale, Claim.noScale]
  · simp only [actives_eq, streamBits_eq, ofInt_indexInt]
    rfl

theorem vfsh_runs {rm : Option (Option Rounding)} {d a b : VNum} {q p : Bool} {k : MNum} {e : Elementwise}
    (h : unaries s u m (.vfsh d a b q p k) = some (rm, e)) (hr : ready s u e.toOperands) :
    exec (.vfsh d a b q p k) s = .next (completed u e) := by
  cases h
  have htag := vcfgTag_of_ready hr (List.mem_cons_self ..)
  show execVfsh d a b q p k s = _
  unfold execVfsh
  simp only [show ∀ r, s.vtagOf r = tagOf s r from fun _ => rfl, group_eq _ _ _ htag]
  refine (checked_run hr (List.cons_ne_nil _ _) ?_ _).trans ?_
  · simp [untyped, noElements, State.noScale, Claim.noScale]
    tauto
  · simp only [actives_eq, Nat.shiftRight_eq_div_pow]
    rfl

/-- Settles O22: the unary forms, and the two instructions on bit streams, end with their elements written. -/
theorem vectorUnary : Obligations.VectorUnary := by
  intro s u i rm m e h hm hr
  cases i with
  | vcvt d a t q k rm sat =>
    cases h; exact unary_performs (hm _ rfl) hr (rfl : _ = execVcvt d a t q k rm sat s) rfl rfl fun _ _ => rfl
  | vneg d a q k rm sat =>
    cases h; exact unary_performs (hm _ rfl) hr (rfl : _ = execVneg d a q k rm sat s) rfl rfl fun _ _ => negOp_eq ..
  | vabs d a q k rm sat =>
    cases h; exact unary_performs (hm _ rfl) hr (rfl : _ = execVabs d a q k rm sat s) rfl rfl fun _ hx => absOp_eq _ hx
  | vsqrt d a q k rm =>
    cases h; exact unary_performs (hm _ rfl) hr (rfl : _ = execVsqrt d a q k rm s) rfl (sqrtTag_eq _) fun _ _ => sqrtOp_eq ..
  | vexp2 d a q k rm => cases h; exact special_performs (hm _ rfl) hr (rfl : _ = execVexp2 d a q k rm s)
  | vlog2 d a q k rm => cases h; exact special_performs (hm _ rfl) hr (rfl : _ = execVlog2 d a q k rm s)
  | vrcp d a q k rm => cases h; exact special_performs (hm _ rfl) hr (rfl : _ = execVrcp d a q k rm s)
  | vrsqrt d a q k rm => cases h; exact special_performs (hm _ rfl) hr (rfl : _ = execVrsqrt d a q k rm s)
  | vbext d a b q p k len =>
    have hruns := vbext_runs h hr
    cases h
    exact performs_of_completed hr rfl (List.mem_singleton_self _) hruns
  | vfsh d a b q p k =>
    have hruns := vfsh_runs h hr
    cases h
    exact performs_of_completed hr rfl (List.mem_singleton_self _) hruns
  | _ => cases h

end Sys2Proof.Laws
end

section
/-! Elements written without flags: lists of places and bits, and what the elements that VSI, VL and a mask leave are (09 R180, R188). -/

namespace Sys2Proof.Laws

set_option Elab.async false

open Sys2Proof Sys2Proof.Machine Sys2Proof.Claim

variable {s u : State}

/-! ### Writing values -/

/-- Writes with each value cut to the width of an element. -/
def cutTo (b : Nat) (l : List (Nat × Nat)) : List (Nat × Nat) := l.map fun p => (p.1, p.2 % 2 ^ b)

theorem putElems_cut (b : Nat) (l : List (Nat × Nat)) (v : Nat) : putElems v b (cutTo b l) = putElems v b l := by
  have hset (v k x : Nat) : setBitsAt v (k * b) b (x % 2 ^ b) = setBitsAt v (k * b) b x := by
    unfold setBitsAt
    rw [Nat.mod_mod]
  unfold putElems cutTo
  rw [List.foldl_map]
  exact congrArg (fun f => l.foldl f v) (funext fun v => funext fun p => hset v p.1 p.2)

theorem coversReg_cut (b : Nat) (l : List (Nat × Nat)) (per j : Nat) : coversReg (cutTo b l) per j = coversReg l per j := by
  unfold coversReg cutTo
  rw [List.filter_map, List.length_map]
  rfl

/-- What a group holds depends on the bits of each value that an element has. -/
theorem writeGroup_cut (u : State) (g : Grp) (t : Option Tag) (l : List (Nat × Nat)) : u.writeGroup g t (cutTo g.bits l) = u.writeGroup g t l := by
  unfold State.writeGroup
  simp only [putElems_cut, coversReg_cut]

theorem merge_none (f : Fcsr) : f.merge noFlags false = f := by
  rcases f with ⟨rm, sat, ⟨nv, dz, of', uf, nx⟩⟩
  simp [Fcsr.merge, orFlags, noFlags]

theorem raise_none (u : State) : u.raise noFlags false = u := by
  unfold State.raise
  rw [merge_none]

theorem allFlags_plain (l : List Nat) (v : Nat → Nat) : allFlags l (fun j => plain (v j)) = noFlags := by
  induction l with
  | nil => rfl
  | cons j l ih => exact congrArg (orFlags noFlags) ih

theorem anySat_plain (l : List Nat) (v : Nat → Nat) : anySat l (fun j => plain (v j)) = false := List.any_eq_false.2 fun _ _ => Bool.false_ne_true

/-- A list of writes is the element loop over values without flags. -/
theorem moveElems_eq {g : Grp} (t : Tag) {l : List (Nat × Nat)} {acts : List Nat} {v : Nat → Nat}
    (h : cutTo g.bits l = cutTo g.bits (acts.map fun j => (j, v j))) : u.moveElems g t l = u.elementwise g t acts fun j => plain (v j) := by
  unfold State.moveElems State.elementwise
  rw [runElems_eq, allFlags_plain, anySat_plain]
  dsimp only
  rw [raise_none, ← writeGroup_cut u g (some t) l, h, writeGroup_cut]
  rfl

theorem moveElems_map (u : State) (g : Grp) (t : Tag) (acts : List Nat) (v : Nat → Nat) :
    u.moveElems g t (acts.map fun j => (j, v j)) = u.elementwise g t acts fun j => plain (v j) := moveElems_eq t rfl

/-- Places and values written element by element. -/
theorem cutTo_map_congr {b : Nat} {acts : List Nat} {v w : Nat → Nat} (h : ∀ j ∈ acts, v j % 2 ^ b = w j % 2 ^ b) :
    cutTo b (acts.map fun j => (j, v j)) = cutTo b (acts.map fun j => (j, w j)) := by
  unfold cutTo
  rw [List.map_map, List.map_map]
  exact List.map_congr_left fun j hj => congrArg (Prod.mk j) (h j hj)

/-! ### Elements from VSI to VL − 1 -/

theorem mbit_eq (u : State) (k : MNum) (j : Nat) : u.mbit k j = maskBit u k j := bitAt_testBit ..

theorem range_eq (u : State) : u.range u.hart.vl = everyIn u := range_filter ..

theorem selected_eq (u : State) (k : MNum) : (u.range u.hart.vl).filter (u.mbit k) = selected u k := by
  unfold selected
  rw [range_eq, everyIn, List.filter_filter]
  refine List.filter_congr fun j _ => ?_
  rw [mbit_eq, Bool.and_comm]

theorem everyIn_of_stopped (h : u.hart.vl ≤ u.hart.vsi) : everyIn u = [] :=
  List.filter_eq_nil_iff.2 fun j hj => by have := List.mem_range.1 hj; simp; omega

theorem activeIn_of_stopped (h : u.hart.vl ≤ u.hart.vsi) (k : MNum) : activeIn u k = [] :=
  List.filter_eq_nil_iff.2 fun j hj => by have := List.mem_range.1 hj; simp; omega

theorem everyIn_sorted (u : State) : (everyIn u).Pairwise (· < ·) := List.Pairwise.filter _ List.pairwise_lt_range

theorem activeIn_sorted (u : State) (k : MNum) : (activeIn u k).Pairwise (· < ·) := List.Pairwise.filter _ List.pairwise_lt_range

theorem selected_sorted (u : State) (k : MNum) : (selected u k).Pairwise (· < ·) := List.Pairwise.filter _ List.pairwise_lt_range

end Sys2Proof.Laws
end

section
/-! Moves, slides, gathers, compress, expand, running counts and conflicts (09 R188, R189). -/

namespace Sys2Proof.Laws

set_option Elab.async false

open Sys2Proof Sys2Proof.Machine Sys2Proof.Claim

variable {s u : State} {m : Rounding} {i : Instr}

/-! ### Moves of one source (R188) -/

/-- A move from one group, which writes the claim's values at the claim's places. -/
theorem vecMove_core {d a : VNum} {masks : List MNum} {uses : Bool} {f : State → (Nat → Nat) → List (Nat × Nat)} {acts : List Nat}
    {v : Nat → Nat} (hr : ready s u (move s d a masks uses false (tagOf s a) acts fun j => plain (v j)).toOperands)
    (hf : cutTo (tagBits (tagOf s a)) (f u (element u (groupOf s a (tagOf s a)))) = cutTo (tagBits (tagOf s a)) (acts.map fun j => (j, v j))) :
    vecMove d a masks uses f s = .next (completed u (move s d a masks uses false (tagOf s a) acts fun j => plain (v j))) := by
  have htag := vcfgTag_of_ready hr (List.mem_cons_self ..)
  unfold vecMove
  simp only [show s.vtagOf a = tagOf s a from rfl, group_eq _ _ _ htag]
  refine (checked_run hr (List.cons_ne_nil _ _) ?_ _).trans ?_
  · simp [move]
  · exact congrArg (fun w : State => Host.Outcome.next (w.vdone _)) (moveElems_eq (g := groupOf s d (tagOf s a)) (tagOf s a) hf)

theorem move_performs {d a : VNum} {masks : List MNum} {uses : Bool} {f : State → (Nat → Nat) → List (Nat × Nat)} {acts : List Nat}
    {v : Nat → Nat} (hr : ready s u (move s d a masks uses false (tagOf s a) acts fun j => plain (v j)).toOperands)
    (he : exec i s = vecMove d a masks uses f s)
    (hf : cutTo (tagBits (tagOf s a)) (f u (element u (groupOf s a (tagOf s a)))) = cutTo (tagBits (tagOf s a)) (acts.map fun j => (j, v j))) :
    performs s u i (move s d a masks uses false (tagOf s a) acts fun j => plain (v j)) :=
  performs_of_completed hr rfl (List.mem_singleton_self _) (he.trans (vecMove_core hr hf))

/-- The n-th of the selected elements goes to place vsi + n. -/
theorem packed_eq (l : List Nat) (k : Nat) (f : Nat → Nat) :
    (l.zipIdx.map fun (i, j) => (k + j, f i)) = ((List.range l.length).map fun j => k + j).map fun j => (j, f (l.getD (j - k) 0)) := by
  refine List.ext_getElem (by simp) fun n h1 h2 => ?_
  have hn : n < l.length := by simpa using h1
  simp [hn]

/-- The rank of an element in an ascending list is the number of smaller ones. -/
theorem rank_eq {l : List Nat} (hl : l.Pairwise (· < ·)) {n : Nat} (hn : n < l.length) : (l.filter fun j => decide (j < l[n])).length = n := by
  induction l generalizing n with
  | nil => cases hn
  | cons x l ih =>
    obtain ⟨hx, htail⟩ := List.pairwise_cons.1 hl
    cases n with
    | zero =>
      have hnone : (l.filter fun j => decide (j < x)) = [] := List.filter_eq_nil_iff.2 fun j hj => by have := hx j hj; simp; omega
      simp [hnone]
    | succ n =>
      have hlt := hx _ (List.getElem_mem (Nat.lt_of_succ_lt_succ hn))
      simp [hlt, ih htail (Nat.lt_of_succ_lt_succ hn)]

theorem spread_eq {l : List Nat} (hl : l.Pairwise (· < ·)) (k : Nat) (f : Nat → Nat) :
    (l.zipIdx.map fun (i, j) => (i, f (k + j))) = l.map fun j => (j, f (k + (l.filter fun q => decide (q < j)).length)) := by
  refine List.ext_getElem (by simp) fun n h1 h2 => ?_
  have hn : n < l.length := by simpa using h1
  simp [rank_eq hl hn]

theorem vlmax_eq (h : s.hart.vcfg.tag ≠ .none) : s.hart.vlmax = vlmax s := if_neg h

theorem delivered_vcfg (h : Delivered s u) : u.hart.vcfg = s.hart.vcfg := by
  obtain ⟨_, _, _, _, _, _, _, _, _, rfl⟩ := h; rfl

/-- `reg_gather` of the elements of a group (R173). -/
theorem regGather_eq {o : Operands} {g : Grp} (hr : ready s u o) (hg : g ∈ o.srcs ++ o.dsts) (k : Grp) (j : Nat) :
    regGather u.hart.vlmax (element u k) j = gathered u k j := by
  unfold regGather gathered
  rw [vlmax_eq]
  rw [delivered_vcfg (delivered_of_ready hr)]
  exact vcfgTag_of_ready hr hg

theorem vl_of_ready {o : Operands} (hr : ready s u o) : u.hart.vl = s.hart.vl := (delivered_of_ready hr).keeps.1

/-! ### The other moves (R188) -/

theorem vmv_runs {rm : Option (Option Rounding)} {d a : VNum} {q : Bool} {k : MNum} {e : Elementwise}
    (h : moves s u m (.vmv d a q k) = some (rm, e)) (hr : ready s u e.toOperands) : exec (.vmv d a q k) s = .next (completed u e) := by
  cases h
  have htag := vcfgTag_of_ready hr (List.mem_cons_self ..)
  have hw : (if tagOf s a = .none then tagBits s.hart.vcfg.tag else tagBits (tagOf s a)) =
      tagBits (if tagOf s a = .none then s.hart.vcfg.tag else tagOf s a) := (apply_ite tagBits _ _ _).symm
  show execVmv d a q k s = _
  unfold execVmv
  simp only [show s.vtagOf a = tagOf s a from rfl, hw, group_eq _ _ _ htag]
  refine (checked_run hr (List.cons_ne_nil _ _) (fun _ _ hp => absurd hp List.not_mem_nil) _).trans ?_
  rw [actives_eq, moveElems_map]
  rfl

theorem vmerge_runs {rm : Option (Option Rounding)} {d a b : VNum} {q p : Bool} {k : MNum} {e : Elementwise}
    (h : moves s u m (.vmerge d a b q p k) = some (rm, e)) (hr : ready s u e.toOperands) :
    exec (.vmerge d a b q p k) s = .next (completed u e) := by
  cases h
  have htag := vcfgTag_of_ready hr (List.mem_cons_self ..)
  show execVmerge d a b q p k s = _
  unfold execVmerge
  simp only [show ∀ r, s.vtagOf r = tagOf s r from fun _ => rfl, group_eq _ _ _ htag]
  refine (checked_run hr (List.cons_ne_nil _ _) ?_ _).trans ?_
  · simp +contextual
  · simp only [range_eq, moveElems_map, mbit_eq]
    rfl

/-- An instruction without a vector source. -/
theorem vecFill_core {d : VNum} {mk : MNum} {flt : List (Bool × Nat)} {f v : Nat → Nat} {e : Elementwise}
    (he : e = { srcs := [], dsts := [groupOf s d s.hart.vcfg.tag], masks := governed mk, usesMask := mk.val != 0, len := s.hart.vl
                faults := flt.map Prod.fst, dst := groupOf s d s.hart.vcfg.tag, tag := s.hart.vcfg.tag, acts := activeIn u mk
                value := fun j => plain (v j) })
    (hr : ready s u e.toOperands) (hv : ∀ j, f j = v j % 2 ^ tagBits s.hart.vcfg.tag) : vecFill d mk flt f s = .next (completed u e) := by
  subst he
  have htag := vcfgTag_of_ready hr (List.mem_cons_self ..)
  unfold vecFill
  simp only [group_eq _ _ _ htag]
  refine (checked_run hr (List.cons_ne_nil _ _) (fun hf p hp => hf _ (List.mem_map_of_mem hp)) _).trans ?_
  rw [actives_eq, moveElems_eq (v := v)]
  · rfl
  · exact cutTo_map_congr fun j _ => by rw [hv]; exact Nat.mod_mod ..

theorem vrgather_runs {rm : Option (Option Rounding)} {d a b : VNum} {q p : Bool} {k : MNum} {e : Elementwise}
    (h : moves s u m (.vrgather d a b q p k) = some (rm, e)) (hr : ready s u e.toOperands) :
    exec (.vrgather d a b q p k) s = .next (completed u e) := by
  cases h
  have htag := vcfgTag_of_ready hr (List.mem_cons_self ..)
  have hgather (j : Nat) : regGather u.hart.vlmax (elemAt (u.bitsOf (groupOf s a (tagOf s a))) (tagBits (tagOf s a))) j =
      gathered u (groupOf s a (tagOf s a)) j := regGather_eq hr (List.mem_cons_self ..) (groupOf s a (tagOf s a)) j
  show execVrgather d a b q p k s = _
  unfold execVrgather
  simp only [show ∀ r, s.vtagOf r = tagOf s r from fun _ => rfl, group_eq _ _ _ htag]
  refine (checked_run hr (List.cons_ne_nil _ _) ?_ _).trans ?_
  · simp [untyped, noElements, tooWide, farApart]
    tauto
  · simp only [actives_eq, ofInt_indexInt, moveElems_map, show (groupOf s a (tagOf s a)).bits = tagBits (tagOf s a) from rfl, hgather]
    rfl

/-! ### Running counts and conflicts (R189) -/

theorem prefixCounts_eq (p : Nat → Bool) {l : List Nat} (hl : l.Pairwise (· < ·)) (n : Nat) :
    prefixCounts p l n = l.map fun j => (j, n + ((l.filter p).filter fun q => decide (q < j)).length) := by
  induction l generalizing n with
  | nil => rfl
  | cons x l ih =>
    obtain ⟨hx, htail⟩ := List.pairwise_cons.1 hl
    have hfirst : ((x :: l).filter p).filter (fun q => decide (q < x)) = [] := by
      rw [List.filter_filter, List.filter_eq_nil_iff]
      intro q hq
      rcases List.mem_cons.1 hq with rfl | hq
      · simp
      · have := hx q hq; simp; omega
    rw [prefixCounts, ih htail, List.map_cons, hfirst]
    refine congrArg₂ List.cons rfl (List.map_congr_left fun j hj => congrArg (Prod.mk j) ?_)
    rw [List.filter_cons]
    split
    · next hp => simp [hx j hj]; omega
    · rfl

theorem vpfxpop_runs {rm : Option (Option Rounding)} {d : VNum} {a : MNum} {e : Elementwise}
    (h : moves s u m (.vpfxpop d a) = some (rm, e)) (hr : ready s u e.toOperands) : exec (.vpfxpop d a) s = .next (completed u e) := by
  cases h
  have htag := vcfgTag_of_ready hr (List.mem_cons_self ..)
  show execVpfxpop d a s = _
  unfold execVpfxpop
  simp only [group_eq _ _ _ htag]
  refine (checked_run hr (List.cons_ne_nil _ _) ?_ _).trans ?_
  · simp [State.noScale, Claim.noScale]
  · rw [prefixCounts_eq _ (by rw [range_eq]; exact everyIn_sorted u), selected_eq, range_eq,
      moveElems_eq (v := fun j => ((selected u a).filter fun q => decide (q < j)).length)]
    · rfl
    · rw [List.map_map]
      exact cutTo_map_congr fun j _ => by dsimp only; rw [Nat.zero_add]; exact Nat.mod_mod ..

/-- The last of an ascending list is its greatest. -/
theorem getLast?_sorted {l : List Nat} (hl : l.Pairwise (· < ·)) : l.getLast? = l.max? := by
  rcases l.eq_nil_or_concat with rfl | ⟨l, x, rfl⟩
  · rfl
  · rw [List.concat_eq_append] at hl ⊢
    obtain ⟨-, -, hx⟩ := List.pairwise_append.1 hl
    rw [List.getLast?_concat]
    refine (List.max?_eq_some_iff.2 ⟨List.mem_append_right _ (List.mem_singleton_self x), fun y hy => ?_⟩).symm
    rcases List.mem_append.1 hy with hy | hy
    · exact (hx y hy x (List.mem_singleton_self x)).le
    · exact (List.mem_singleton.1 hy).le

theorem lastSame_eq {l : List Nat} (hl : l.Pairwise (· < ·)) (f : Nat → Nat) (j : Nat) :
    lastSame f (f j) (l.filter fun q => decide (q < j)) = lastBelow l j fun q => f q == f j := by
  unfold lastSame lastBelow
  rw [List.filter_filter, getLast?_sorted (hl.filter _)]
  exact congrArg List.max? (List.filter_congr fun q _ => Bool.and_comm ..)

theorem signedOf_eq (t : Tag) : signedOf t = if t = .ui32 then .i32 else if t = .ui64 then .i64 else t := by cases t <;> rfl

theorem groupOf_signedOf (s : State) (d : VNum) (t : Tag) : groupOf s d (signedOf t) = groupOf s d t := by cases t <;> rfl

theorem vconflict_runs {rm : Option (Option Rounding)} {d a : VNum} {q : Bool} {k : MNum} {e : Elementwise}
    (h : moves s u m (.vconflict d a q k) = some (rm, e)) (hr : ready s u e.toOperands) :
    exec (.vconflict d a q k) s = .next (completed u e) := by
  cases h
  rw [← signedOf_eq] at hr ⊢
  have htag := vcfgTag_of_ready hr (List.mem_cons_self ..)
  have hlast (j : Nat) : let f := elemAt (u.bitsOf (groupOf s a (tagOf s a))) (groupOf s a (tagOf s a)).bits
      lastSame f (f j) ((activeIn u k).filter fun q => decide (q < j)) = lastBelow (activeIn u k) j fun q => f q == f j :=
    lastSame_eq (activeIn_sorted u k) _ j
  show execVconflict d a q k s = _
  unfold execVconflict
  simp only [show s.vtagOf a = tagOf s a from rfl, group_eq _ _ _ htag]
  unfold move at hr ⊢
  rw [groupOf_signedOf] at hr ⊢
  refine (checked_run hr (List.cons_ne_nil _ _) ?_ _).trans ?_
  · simp [untyped, State.noScale, Claim.noScale]
    exact fun hnone hscale hword => ⟨hscale, ⟨hnone, fun hsc => by simp [hsc] at hword⟩, hword⟩
  · simp only [actives_eq, moveElems_map, hlast]
    rfl

/-! ### Segmented scans (R189) -/

section
variable (f : Fmt) (r : Rounding)

theorem round_unsaturated (neg : Bool) (n : Nat) (e : Int) : (f.round r false neg n e).sat = false := by
  unfold Fmt.round
  dsimp only
  split <;> rfl

theorem infResult_unsaturated (neg dz : Bool) : (f.infResult neg dz).sat = false := by
  unfold Fmt.infResult
  cases f.kind <;> rfl

theorem add_unsaturated (x y : FVal) : (f.add r false x y).sat = false := by
  unfold Fmt.add
  split
  · rfl
  · rfl
  · split
    · exact infResult_unsaturated ..
    · rfl
  · exact infResult_unsaturated ..
  · exact infResult_unsaturated ..
  · dsimp only
    split
    · rfl
    · exact round_unsaturated ..

theorem minMax_unsaturated (lo : Bool) (x y : Nat) : (f.minMax lo x y).sat = false := by
  unfold Fmt.minMax
  dsimp only
  split <;> rfl

end

/-- Sums, minima and maxima that do not saturate (R62, R182). -/
theorem arithOp_unsaturated {k : ArithOp} (hk : k ∈ [ArithOp.add, .min, .max]) (t : Tag) (r : Rounding) (x y : Nat) :
    (arithOp k t r false x y).sat = false := by
  have hcases : k = .add ∨ k = .min ∨ k = .max := by simpa using hk
  unfold arithOp
  cases tagFmt t with
  | none => rcases hcases with rfl | rfl | rfl <;> rfl
  | some f =>
    rcases hcases with rfl | rfl | rfl
    · exact add_unsaturated ..
    · exact minMax_unsaturated ..
    · exact minMax_unsaturated ..

theorem everyIn_eq_range' (u : State) : everyIn u = List.range' u.hart.vsi (u.hart.vl - u.hart.vsi) := by
  rw [← range_eq, State.range, List.range'_eq_map_range]
  exact List.map_congr_left fun j _ => Nat.add_comm ..

section
variable (op : Nat → Nat → FRes) (x : Nat → Nat) (head : Nat → Bool) (vsi : Nat)

theorem scanSeg_rest (n k : Nat) : scanSeg op x head (List.range' (vsi + (k + 1)) n) (some (running op x head vsi k).bits) =
    (List.range' (vsi + (k + 1)) n).map fun j => (j, running op x head vsi (j - vsi)) := by
  induction n generalizing k with
  | zero => rfl
  | succ n ih =>
    have hnext : running op x head vsi (k + 1) = if head (vsi + (k + 1)) then plain (x (vsi + (k + 1)))
      else op (running op x head vsi k).bits (x (vsi + (k + 1))) := rfl
    rw [List.range'_succ, List.map_cons, Nat.add_sub_cancel_left, Nat.add_assoc vsi, ← ih (k + 1), hnext]
    rfl

/-- A scan leaves the running value at each element. -/
theorem scanSeg_eq (n : Nat) : scanSeg op x head (List.range' vsi n) none = (List.range' vsi n).map fun j => (j, running op x head vsi (j - vsi)) := by
  cases n with
  | zero => rfl
  | succ n =>
    rw [List.range'_succ, List.map_cons, Nat.sub_self, ← scanSeg_rest op x head vsi n 0]
    rfl

variable {op} in
theorem running_unsaturated (hop : ∀ a b, (op a b).sat = false) (k : Nat) : (running op x head vsi k).sat = false := by
  cases k with
  | zero => rfl
  | succ k =>
    rw [running]
    split
    · rfl
    · exact hop ..

end

theorem flagsOr_map (l : List Nat) (r : Nat → FRes) : flagsOr (l.map fun j => (j, r j)) = allFlags l r := List.foldr_map ..

/-- Results written and their flags raised, none of which saturates. -/
theorem raise_moveElems (u : State) (g : Grp) (t : Tag) {acts : List Nat} {r : Nat → FRes} (hs : ∀ j, (r j).sat = false)
    (hstop : u.hart.vl ≤ u.hart.vsi → acts = []) :
    (u.moveElems g t (acts.map fun j => (j, (r j).bits))).raise (allFlags acts r) false = u.elementwise g t acts r := by
  have hsat : anySat acts r = false := List.any_eq_false.2 fun j _ => Bool.eq_false_iff.1 (hs j)
  unfold State.moveElems State.elementwise
  rw [runElems_eq, hsat]
  split
  · next h => rw [hstop h]; exact raise_none u
  · rfl

/-- The running values written from VSI on, with their flags. -/
theorem scan_written (u : State) (g : Grp) (t : Tag) {op : Nat → Nat → FRes} (hop : ∀ a b, (op a b).sat = false) (x : Nat → Nat)
    (head : Nat → Bool) : let l := scanSeg op x head (u.range u.hart.vl) none
    (u.moveElems g t (l.map fun (j, r) => (j, r.bits))).raise (flagsOr l) false =
      u.elementwise g t (everyIn u) fun j => running op x head u.hart.vsi (j - u.hart.vsi) := by
  dsimp only
  rw [range_eq, everyIn_eq_range', scanSeg_eq, flagsOr_map, List.map_map, ← everyIn_eq_range']
  exact raise_moveElems u g t (fun j => running_unsaturated x head u.hart.vsi hop (j - u.hart.vsi)) everyIn_of_stopped

theorem vecScan_core {d a : VNum} {mk : MNum} {rm : Option Rounding} {k : ArithOp} (hk : k ∈ [ArithOp.add, .min, .max]) (hm : roundsBy s rm m)
    (hr : ready s u (scan s u d a mk (arithOp k (tagOf s a) m false)).toOperands) :
    vecScan d a mk rm k s = .next (completed u (scan s u d a mk (arithOp k (tagOf s a) m false))) := by
  have htag := vcfgTag_of_ready hr (List.mem_cons_self ..)
  unfold vecScan
  simp only [show s.vtagOf a = tagOf s a from rfl, group_eq _ _ _ htag]
  refine (rounded_run hm hr (List.cons_ne_nil _ _) ?_ _).trans ?_
  · simp [scan, move, untyped, State.noScale, Claim.noScale]
    tauto
  · simp only [mbit_eq]
    exact congrArg (fun w : State => Host.Outcome.next (w.vdone _)) (scan_written u (groupOf s d (tagOf s a)) (tagOf s a)
      (arithOp_unsaturated hk (tagOf s a) m) (element u (groupOf s a (tagOf s a))) _)

theorem scan_performs {d a : VNum} {mk : MNum} {rm : Option Rounding} {k : ArithOp} (hk : k ∈ [ArithOp.add, .min, .max]) (hm : roundsBy s rm m)
    (hr : ready s u (scan s u d a mk (arithOp k (tagOf s a) m false)).toOperands) (he : exec i s = vecScan d a mk rm k s) :
    performs s u i (scan s u d a mk (arithOp k (tagOf s a) m false)) :=
  performs_of_completed hr rfl (List.mem_singleton_self _) (he.trans (vecScan_core hk hm hr))

/-! ### The table -/

/-- Settles O23: each instruction ends with the elements of its table written, by its meaning and the values it writes. -/
theorem vectorMoves : Obligations.VectorMoves := by
  intro s u i rm m e h hm hr
  cases i with
  | vmv d a q k => have hruns := vmv_runs h hr; cases h; exact performs_of_completed hr rfl (List.mem_singleton_self _) hruns
  | vmerge d a b q p k => have hruns := vmerge_runs h hr; cases h; exact performs_of_completed hr rfl (List.mem_singleton_self _) hruns
  | vsplat d x k =>
    cases h
    exact performs_of_completed hr rfl (List.mem_singleton_self _) (vecFill_core (flt := []) rfl hr fun _ => rfl)
  | vid d k =>
    cases h
    exact performs_of_completed hr rfl (List.mem_singleton_self _)
      (vecFill_core (flt := [s.noScale, (!tagInt s.hart.vcfg.tag, 3)]) rfl hr fun _ => rfl)
  | vslideup d a x q k =>
    cases h
    have hexec : exec (.vslideup d a x q k) s = execVslideup d a x q k s := rfl
    unfold execVslideup at hexec
    refine move_performs hr hexec ?_
    rw [actives_eq]
  | vslidedn d a x q k =>
    cases h
    have hexec : exec (.vslidedn d a x q k) s = execVslidedn d a x q k s := rfl
    unfold execVslidedn at hexec
    refine move_performs hr hexec ?_
    simp only [actives_eq, regGather_eq hr (List.mem_cons_self ..)]
  | vslide1up d a x q k =>
    cases h
    have hexec : exec (.vslide1up d a x q k) s = execVslide1up d a x q k s := rfl
    unfold execVslide1up at hexec
    refine move_performs hr hexec ?_
    rw [actives_eq]
    refine cutTo_map_congr fun j _ => ?_
    split
    · exact Nat.mod_mod ..
    · rfl
  | vslide1dn d a x q k =>
    cases h
    have hexec : exec (.vslide1dn d a x q k) s = execVslide1dn d a x q k s := rfl
    unfold execVslide1dn at hexec
    refine move_performs hr hexec ?_
    rw [actives_eq, vl_of_ready hr]
    refine cutTo_map_congr fun j _ => ?_
    split
    · exact Nat.mod_mod ..
    · rfl
  | vrgather d a b q p k => have hruns := vrgather_runs h hr; cases h; exact performs_of_completed hr rfl (List.mem_singleton_self _) hruns
  | vcompress d a q k =>
    cases h
    refine move_performs hr (rfl : _ = execVcompress d a q k s) ?_
    rw [selected_eq, packed_eq]
  | vexpand d a q k =>
    cases h
    refine move_performs hr (rfl : _ = execVexpand d a q k s) ?_
    rw [selected_eq, spread_eq (selected_sorted u k)]
  | vpfxpop d a => have hruns := vpfxpop_runs h hr; cases h; exact performs_of_completed hr rfl (List.mem_singleton_self _) hruns
  | vconflict d a q k =>
    have hruns := vconflict_runs h hr
    cases h
    exact performs_of_completed hr rfl (List.mem_singleton_self _) hruns
  | vscanSegAdd d a q k rm => cases h; exact scan_performs (by decide) (hm _ rfl) hr (rfl : _ = execVscanSegAdd d a q k rm s)
  | vscanSegMin d a q k rm => cases h; exact scan_performs (by decide) (hm _ rfl) hr (rfl : _ = execVscanSegMin d a q k rm s)
  | vscanSegMax d a q k rm => cases h; exact scan_performs (by decide) (hm _ rfl) hr (rfl : _ = execVscanSegMax d a q k rm s)
  | _ => cases h

end Sys2Proof.Laws
end

section
/-! Compares into masks, and mask operations (09 R186, R187). -/

namespace Sys2Proof.Laws

set_option Elab.async false

open Sys2Proof Sys2Proof.Machine Sys2Proof.Claim

variable {s u : State} {m : Rounding} {i : Instr}

/-! ### Masks written -/

/-- The bits of some elements of one mask are written; every other bit of it, and every other mask, is as before. -/
def wroteMask (old new : Vector MReg 8) (d : MNum) (acts : List Nat) (bit : Nat → Bool) : Prop :=
  (∀ j ∈ acts, new[d.val].bits.testBit j = bit j) ∧ (∀ j, j ∉ acts → new[d.val].bits.testBit j = old[d.val].bits.testBit j) ∧
    ∀ k : MNum, k ≠ d → new[k.val] = old[k.val]

theorem wroteMask_none (old : Vector MReg 8) (d : MNum) (bit : Nat → Bool) : wroteMask old old d [] bit :=
  ⟨fun _ h => absurd h List.not_mem_nil, fun _ _ => rfl, fun _ _ => rfl⟩

theorem testBit_setBits (acts : List Nat) (bit : Nat → Bool) (v j : Nat) :
    ((acts.map fun q => (q, bit q)).foldl (fun v (q, b) => setBitAt v q b) v).testBit j = if j ∈ acts then bit j else v.testBit j := by
  induction acts generalizing v with
  | nil => rfl
  | cons q acts ih =>
    rw [List.map_cons, List.foldl_cons, ih, testBit_setBitAt]
    by_cases hj : j ∈ acts
    · simp [hj]
    · by_cases hq : j = q
      · subst hq; simp
      · simp [hj, hq]

theorem writeMask_wrote (u : State) (d : MNum) (acts : List Nat) (bit : Nat → Bool) :
    wroteMask u.hart.m (u.writeMask d (acts.map fun j => (j, bit j))).hart.m d acts bit := by
  have hbits (j : Nat) : (u.writeMask d (acts.map fun j => (j, bit j))).hart.m[d.val].bits.testBit j =
      if j ∈ acts then bit j else u.hart.m[d.val].bits.testBit j := by
    unfold State.writeMask
    rw [Vector.getElem_set_self]
    exact testBit_setBits ..
  refine ⟨fun j hj => (hbits j).trans (if_pos hj), fun j hj => (hbits j).trans (if_neg hj), fun k hk => ?_⟩
  unfold State.writeMask
  exact Vector.getElem_set_ne d.isLt k.isLt fun h => hk (Fin.ext h.symm)

/-! ### The end of an instruction that writes a mask -/

/-- What an instruction of the table does once it can be performed (R186, R187). -/
def masksWritten (s u : State) (i : Instr) (e : MaskResult) : Prop :=
  ∃ t, exec i s = .next t ∧ vectorDone s u t e.srcs ∧ t.hart.x = u.hart.x ∧ t.hart.v = u.hart.v ∧ t.hart.e = u.hart.e ∧
    (∀ j ∈ e.acts, maskBit t e.dst j = decide ((e.value j).bits ≠ 0)) ∧
    (∀ j, j ∉ e.acts → maskBit t e.dst j = maskBit u e.dst j) ∧
    (∀ k : MNum, k ≠ e.dst → t.hart.m[k.val] = u.hart.m[k.val]) ∧
    raised u t (allFlags e.acts e.value) false

theorem masksWritten_of {e : MaskResult} (hr : ready s u e.toOperands) {new : Vector MReg 8}
    (hnew : wroteMask u.hart.m new e.dst e.acts fun j => decide ((e.value j).bits ≠ 0))
    (he : exec i s = .next ((({ u with hart := { u.hart with m := new } } : State).raise (allFlags e.acts e.value) false).vdone e.srcs)) :
    masksWritten s u i e := by
  obtain ⟨t, heq, hdone, hx, hv, hmask, hacc, hfcsr, -⟩ := vdone_done e.srcs (delivered_of_ready hr) u.hart.x u.hart.v new u.hart.e
    (u.hart.fcsr.merge (allFlags e.acts e.value) false)
  obtain ⟨hset, hkept, hothers⟩ := hnew
  refine ⟨t, he.trans (congrArg _ heq), hdone, hx, hv, hacc, ?_, ?_, ?_, ?_⟩
  · unfold maskBit; rw [hmask]; exact hset
  · unfold maskBit; rw [hmask]; exact hkept
  · rw [hmask]; exact hothers
  · unfold raised; rw [hfcsr]; exact ⟨rfl, rfl, rfl⟩

/-! ### Compares (R186) -/

theorem maskResult_eq (u : State) (d : MNum) (acts : List Nat) (f : Nat → FRes) (hstop : u.hart.vl ≤ u.hart.vsi → acts = []) :
    ∃ new, wroteMask u.hart.m new d acts (fun j => decide ((f j).bits ≠ 0)) ∧
      u.maskResult d acts f = ({ u with hart := { u.hart with m := new } } : State).raise (allFlags acts f) false := by
  unfold State.maskResult
  rw [runElems_eq]
  split
  · next h => rw [hstop h]; exact ⟨_, wroteMask_none .., (raise_none u).symm⟩
  · have hlist : (acts.map fun j => (j, (f j).bits)).map (fun (j, b) => (j, b != 0)) = acts.map fun j => (j, decide ((f j).bits ≠ 0)) := by
      rw [List.map_map]
      exact List.map_congr_left fun j _ => congrArg (Prod.mk j) (by rw [Bool.eq_iff_iff]; simp)
    dsimp only
    rw [hlist]
    exact ⟨_, writeMask_wrote .., rfl⟩

theorem cmpVV_core {rm : Option Rounding} {d : MNum} {a b : VNum} {mk : MNum} {k : CmpOp} (hm : roundsBy s rm m)
    (hr : ready s u (compareTwo s u m d a b mk k).toOperands) : let e := compareTwo s u m d a b mk k
    cmpVV d a b mk rm k s = .next ((u.maskResult e.dst e.acts e.value).vdone e.srcs) := by
  have htag := vcfgTag_of_ready hr (List.mem_cons_self ..)
  unfold cmpVV
  simp only [show ∀ r, s.vtagOf r = tagOf s r from fun _ => rfl, group_eq _ _ _ htag]
  refine (rounded_run hm hr (List.cons_ne_nil _ _) ?_ _).trans ?_
  · simp [compareTwo, untyped, noElements, State.noScale, Claim.noScale]
    tauto
  · rw [actives_eq]
    rfl

theorem cmpVX_core {rm : Option Rounding} {d : MNum} {a : VNum} {x : XReg} {mk : MNum} {k : CmpOp} (hm : roundsBy s rm m)
    (hr : ready s u (compareScalar s u d a x mk k).toOperands) : let e := compareScalar s u d a x mk k
    cmpVX d a x mk rm k s = .next ((u.maskResult e.dst e.acts e.value).vdone e.srcs) := by
  have htag := vcfgTag_of_ready hr (List.mem_cons_self ..)
  obtain ⟨-, -, -, -, -, -, hx⟩ := (delivered_of_ready hr).keeps
  unfold cmpVX
  simp only [show s.vtagOf a = tagOf s a from rfl, group_eq _ _ _ htag]
  refine (rounded_run hm hr (List.cons_ne_nil _ _) ?_ fun _ v => _).trans ?_
  · simp [compareScalar, untyped, noElements, State.noScale, Claim.noScale]
  · rw [actives_eq, hx]
    rfl

theorem compare_written {e : MaskResult} {k : MNum} (hr : ready s u e.toOperands) (hacts : e.acts = activeIn u k)
    (he : exec i s = .next ((u.maskResult e.dst e.acts e.value).vdone e.srcs)) : masksWritten s u i e := by
  obtain ⟨new, hnew, heq⟩ := maskResult_eq u e.dst e.acts e.value fun h => hacts.trans (activeIn_of_stopped h k)
  exact masksWritten_of hr hnew (he.trans (by rw [heq]))

/-! ### Mask operations (R187) -/

theorem maskOp_core {d : MNum} {srcs : List MNum} {f : State → Nat → Bool} (hr : ready s u (maskForm s u d srcs (f u)).toOperands) :
    maskOp d srcs f s = .next ((u.writeMask d ((everyIn u).map fun j => (j, f u j))).vdone []) := by
  unfold maskOp
  have hprep : s.prepare [] [] srcs true s.hart.vl [] = .ok u := prepare_passes hr fun _ _ h => absurd h List.not_mem_nil
  rw [hprep]
  simp only [range_eq, bind, Except.bind]
  rfl

theorem maskForm_written {d : MNum} {srcs : List MNum} {f : State → Nat → Bool} {g : Nat → Bool}
    (hr : ready s u (maskForm s u d srcs g).toOperands) (he : exec i s = maskOp d srcs f s) (hfg : ∀ j ∈ everyIn u, f u j = g j) :
    masksWritten s u i (maskForm s u d srcs g) := by
  have hlist : ((everyIn u).map fun j => (j, f u j)) = (everyIn u).map fun j => (j, decide ((g j).toNat ≠ 0)) :=
    List.map_congr_left fun j hj => congrArg (Prod.mk j) (by rw [hfg j hj]; cases g j <;> rfl)
  refine masksWritten_of hr (writeMask_wrote u d (everyIn u) fun j => decide ((g j).toNat ≠ 0)) (he.trans ((maskOp_core (f := f) hr).trans ?_))
  rw [hlist]
  show _ = Host.Outcome.next ((State.raise _ (allFlags (everyIn u) fun j => plain (g j).toNat) false).vdone [])
  rw [allFlags_plain, raise_none]
  rfl

theorem firstSet_eq (u : State) (k : MNum) : u.firstSet k = (selected u k).head?.getD u.hart.vl := by
  rw [← selected_eq, List.head?_filter]
  rfl

theorem everyIn_lt {j : Nat} (hj : j ∈ everyIn u) : j < u.hart.vl := List.mem_range.1 (List.mem_filter.1 hj).1

/-- What lies before the first position set, or before VL where none is, lies before all of them. -/
theorem firstSet_all {R : Nat → Nat → Prop} [DecidableRel R] (hR : ∀ {a b c}, R a b → b < c → R a c) (k : MNum) {j : Nat} (hj : R j u.hart.vl) :
    decide (R j (u.firstSet k)) = (selected u k).all fun q => decide (R j q) := by
  rw [firstSet_eq]
  cases h : selected u k with
  | nil => exact decide_eq_true hj
  | cons x l =>
    obtain ⟨hx, -⟩ := List.pairwise_cons.1 (h ▸ selected_sorted u k)
    have hall : R j x ↔ R j x ∧ ∀ q ∈ l, R j q := ⟨fun hr => ⟨hr, fun q hq => hR hr (hx q hq)⟩, And.left⟩
    show decide (R j x) = _
    rw [Bool.eq_iff_iff, List.all_eq_true, List.forall_mem_cons]
    simpa only [decide_eq_true_eq] using hall

/-- Settles O24: a compare writes the bits of the active elements, a mask operation those of every position from VSI on. -/
theorem vectorMasks : Obligations.VectorMasks := by
  intro s u i rm m e h hm hr
  cases i with
  | vcmpEq | vcmpNe | vcmpLt | vcmpLe => cases h; exact compare_written hr rfl (cmpVV_core (hm _ rfl) hr)
  | vcmpEqX | vcmpNeX | vcmpLtX | vcmpLeX | vcmpGtX | vcmpGeX => cases h; exact compare_written hr rfl (cmpVX_core (hm _ rfl) hr)
  | mand d a b => cases h; exact maskForm_written hr (rfl : _ = execMand d a b s) fun _ _ => by rw [mbit_eq, mbit_eq]
  | mor d a b => cases h; exact maskForm_written hr (rfl : _ = execMor d a b s) fun _ _ => by rw [mbit_eq, mbit_eq]
  | mxor d a b => cases h; exact maskForm_written hr (rfl : _ = execMxor d a b s) fun _ _ => by rw [mbit_eq, mbit_eq, Bool.bne_eq_xor]
  | mandn d a b => cases h; exact maskForm_written hr (rfl : _ = execMandn d a b s) fun _ _ => by rw [mbit_eq, mbit_eq]
  | mnot d a => cases h; exact maskForm_written hr (rfl : _ = execMnot d a s) fun _ _ => by rw [mbit_eq]
  | msbf d a => cases h; exact maskForm_written hr (rfl : _ = execMsbf d a s) fun _ hj => firstSet_all (R := (· < ·)) Nat.lt_trans a (everyIn_lt hj)
  | msif d a => cases h; exact maskForm_written hr (rfl : _ = execMsif d a s) fun _ hj =>
      firstSet_all (R := (· ≤ ·)) (fun h h' => h.trans h'.le) a (everyIn_lt hj).le
  | _ => cases h

end Sys2Proof.Laws
end

section
/-! Reductions (03 R69, R70, 09 R190, R191): the tree, the ordered sum, and where an event stops it. -/

namespace Sys2Proof.Laws

set_option Elab.async false

open Sys2Proof Sys2Proof.Machine Sys2Proof.Claim

variable {s u : State} {m : Rounding} {i : Instr}

/-! ### The tree of R69 -/

/-- A node of the tree as the model holds it. -/
def asPart : Option (Nat × Flags) → Part
  | none => (none, noFlags)
  | some (x, f) => (some x, f)

theorem orFlags_none (f : Flags) : orFlags f noFlags = f := by
  rcases f with ⟨nv, dz, of', uf, nx⟩
  simp [orFlags, noFlags]

section
variable (op : Nat → Nat → FRes)

theorem combine_asPart (a b : Option (Nat × Flags)) : combine op (asPart a) (asPart b) = asPart (join op a b) := by
  rcases a with _ | ⟨x, f⟩ <;> rcases b with _ | ⟨y, g⟩
  · rfl
  · rfl
  · exact congrArg (Prod.mk (some x)) (orFlags_none f)
  · rfl

theorem join_none (a : Option (Nat × Flags)) : join op a none = a := by cases a <;> rfl

theorem tree_absent {leaf : Nat → Option (Nat × Flags)} {k j : Nat} (h : ∀ q < 2 ^ k, leaf (j + q) = none) : tree op leaf k j = none := by
  induction k generalizing j with
  | zero => exact h 0 Nat.one_pos
  | succ k ih =>
    have hpow : 2 ^ (k + 1) = 2 ^ k + 2 ^ k := by rw [pow_succ, Nat.mul_two]
    rw [tree, ih fun q hq => h q (by omega), ih fun q hq => by rw [Nat.add_assoc]; exact h _ (by omega)]
    rfl

theorem ceilLog2_eq {n k : Nat} (hlo : 2 ^ k < n) (hhi : n ≤ 2 ^ (k + 1)) : ceilLog2 n = k + 1 := by
  have hpos := Nat.two_pow_pos k
  have hlog : (n - 1).log2 = k := (Nat.log2_eq_iff (by omega)).2 ⟨by omega, by omega⟩
  unfold ceilLog2
  rw [if_neg (by omega), hlog]

theorem le_two_pow_ceilLog2 (n : Nat) : n ≤ 2 ^ ceilLog2 n := by
  unfold ceilLog2
  split
  · next h => exact h
  · have := Nat.lt_log2_self (n := n - 1)
    omega

theorem treeFold_split {fuel : Nat} {l : List Part} (hl : 2 ≤ l.length) : treeFold op (fuel + 1) l =
    combine op (treeFold op fuel (l.take (2 ^ (ceilLog2 l.length - 1)))) (treeFold op fuel (l.drop (2 ^ (ceilLog2 l.length - 1)))) := by
  rcases l with _ | ⟨x, _ | ⟨y, l⟩⟩
  · cases hl
  · exact absurd hl (Nat.not_succ_le_self 1)
  · rfl

/-- The model's fold of a list is the tree over its elements, with absent leaves behind them. -/
theorem treeFold_eq (leaf : Nat → Option (Nat × Flags)) {k fuel j : Nat} {l : List (Option (Nat × Flags))} (hk : l.length ≤ 2 ^ k)
    (hfuel : l.length ≤ 2 ^ fuel) (hleaf : ∀ q < 2 ^ k, leaf (j + q) = l[q]?.getD none) :
    treeFold op fuel (l.map asPart) = asPart (tree op leaf k j) := by
  induction k generalizing fuel j l with
  | zero =>
    rw [tree, show leaf j = l[0]?.getD none from hleaf 0 Nat.one_pos]
    rcases l with _ | ⟨x, _ | ⟨y, l⟩⟩
    · cases fuel <;> rfl
    · cases fuel <;> rfl
    · simp at hk
  | succ k ih =>
    have hpow : 2 ^ (k + 1) = 2 ^ k + 2 ^ k := by rw [pow_succ, Nat.mul_two]
    rcases Nat.lt_or_ge (2 ^ k) l.length with hlong | hshort
    · have hlog := ceilLog2_eq hlong hk
      have hlt : k < fuel := (Nat.pow_lt_pow_iff_right (by norm_num)).1 (hlong.trans_le hfuel)
      obtain ⟨fuel, rfl⟩ : ∃ f, fuel = f + 1 := ⟨fuel - 1, by omega⟩
      have hle : 2 ^ k ≤ 2 ^ fuel := Nat.pow_le_pow_right (by norm_num) (by omega)
      have hpos := Nat.two_pow_pos k
      rw [treeFold_split op (by rw [List.length_map]; omega), List.length_map, hlog, Nat.add_sub_cancel, ← List.map_take, ← List.map_drop,
        ih (l := l.take (2 ^ k)) (j := j), ih (l := l.drop (2 ^ k)) (j := j + 2 ^ k), combine_asPart]
      · rfl
      · rw [List.length_drop]; omega
      · rw [List.length_drop]; omega
      · intro q hq
        rw [List.getElem?_drop, Nat.add_assoc]
        exact hleaf _ (by omega)
      · rw [List.length_take]; omega
      · rw [List.length_take]; omega
      · intro q hq
        rw [List.getElem?_take_of_lt hq]
        exact hleaf q (by omega)
    · rw [tree, tree_absent op (j := j + 2 ^ k), join_none]
      · exact ih hshort hfuel fun q hq => hleaf q (by omega)
      · intro q hq
        rw [Nat.add_assoc, hleaf _ (by omega), List.getElem?_eq_none (by omega)]
        rfl

/-- A tree reduction of at most 2^64 elements (R190). -/
theorem treeReduce_eq {leaf : Nat → Option (Nat × Flags)} {n : Nat} (hn : n ≤ 2 ^ 64) (hleaf : ∀ q, n ≤ q → leaf q = none) (init : FRes) :
    treeReduce op ((List.range n).map fun q => asPart (leaf q)) init = treeValue op leaf n init := by
  have hfold : treeFold op 64 ((List.range n).map fun q => asPart (leaf q)) = asPart (tree op leaf (ceilLog2 n) 0) := by
    rw [show ((List.range n).map fun q => asPart (leaf q)) = ((List.range n).map leaf).map asPart by rw [List.map_map]; rfl]
    refine treeFold_eq op leaf ?_ ?_ fun q _ => ?_
    · rw [List.length_map, List.length_range]; exact le_two_pow_ceilLog2 n
    · rw [List.length_map, List.length_range]; exact hn
    · rw [Nat.zero_add, List.getElem?_map]
      rcases Nat.lt_or_ge q n with hq | hq
      · rw [List.getElem?_range hq]; rfl
      · rw [List.getElem?_eq_none (by rw [List.length_range]; exact hq)]; exact hleaf q hq
  unfold treeReduce treeValue
  rw [hfold, show (some init.bits, init.flags) = asPart (some (init.bits, init.flags)) from rfl, combine_asPart]
  cases tree op leaf (ceilLog2 n) 0 <;> rfl

/-! ### The ordered sum of R70 -/

theorem orderedSum_eq (l : List FRes) {a b : FRes} (hbits : a.bits = b.bits) (hflags : a.flags = b.flags) :
    (orderedSum op l a).bits = (sumInOrder op l b).bits ∧ (orderedSum op l a).flags = (sumInOrder op l b).flags := by
  induction l generalizing a b with
  | nil => exact ⟨hbits, hflags⟩
  | cons x l ih =>
    refine ih ?_ ?_
    · rw [hbits]; rfl
    · rw [hbits, FRes.joined, hflags]

end

/-! ### A reduction instruction (R190, R191) -/

/-- The value that a reduction starts from: element 0 of vb, or, where an ordered sum goes on, of its own destination. -/
def initial (s u : State) (m : Rounding) (b : VNum) (e : Reduction) (ordered : Bool) : FRes :=
  if ordered && u.hart.vsi != 0 then plain (element u e.dst 0)
  else convElem (tagOf s b) e.tag m (element u (groupOf s b (tagOf s b)) 0)

/-- The element, with flags, that a reduction writes. -/
def elementZero (e : Reduction) (r : FRes) : Elementwise :=
  { toOperands := e.toOperands, dst := e.dst, tag := e.tag, acts := [0], value := fun _ => ⟨r.bits, r.flags, false⟩ }

/-- Element 0 written, with the flags raised. -/
def reduced (u : State) (e : Reduction) (r : FRes) : State := (u.writeGroup e.dst (some e.tag) [(0, r.bits)]).raise r.flags false

/-- A reduction, from its checks on: with VSI at VL or above it writes nothing; else it combines the elements that its share of the active ones
has, and ends, or stops at the first one left. -/
theorem vecReduce_core {rm : Option Rounding} {d a b : VNum} {mk : MNum} {floats ints ordered : Bool} {g : Tag → (Nat → FRes) → FRes → FRes}
    {ok : Tag → Bool} {f : State → Tag → Rounding → List Nat → (Nat → FRes) → FRes → FRes} (hm : roundsBy s rm m)
    (hr : ready s u (reduction s u m d a b mk floats ints ordered g).toOperands)
    (hok : ∀ t, (tagFloat t && floats || tagInt t && ints) = true → ok t = true) :
    let e := reduction s u m d a b mk floats ints ordered g
    let r (acts : List Nat) := f u e.tag m acts (readAs (tagOf s a) e.tag m u (groupOf s a (tagOf s a))) (initial s u m b e ordered)
    (u.hart.vl ≤ u.hart.vsi → vecReduce d a b mk rm ok ordered f s = .next (u.vdone e.srcs)) ∧
    (u.hart.vsi < u.hart.vl → ∀ acts left, (if ordered then u.share (activeIn u mk) else (activeIn u mk, none)) = (acts, left) →
      (left = none → vecReduce d a b mk rm ok ordered f s = .next ((reduced u e (r acts)).vdone e.srcs)) ∧
      ∀ j, left = some j → j ≠ u.hart.vsi → vecReduce d a b mk rm ok ordered f s = .next ((reduced u e (r acts)).setVsi j)) := by
  have htag := vcfgTag_of_ready hr (List.mem_cons_self ..)
  have hp : (promote (tagOf s a) (tagOf s b)).isSome = true := by
    have hoff := faults_off hr (promote (tagOf s a) (tagOf s b)).isNone (by simp [reduction])
    rw [← Option.not_isNone, hoff]
    rfl
  have hchecks : (∀ c ∈ (reduction s u m d a b mk floats ints ordered g).faults, c = false) →
      ∀ p ∈ [s.noScale, (untyped (tagOf s a) || untyped (tagOf s b), 2), ((promote (tagOf s a) (tagOf s b)).isNone, 3),
        (!ok ((promote (tagOf s a) (tagOf s b)).getD .none), 3),
        (ordered && (groupOf s d ((promote (tagOf s a) (tagOf s b)).getD .none)).overlaps (groupOf s a (tagOf s a)), 6)], p.1 = false := by
    have htagOk := hok ((promote (tagOf s a) (tagOf s b)).getD .none)
    simp [reduction, untyped, noElements, Grp.overlaps, State.noScale, Claim.noScale, ← Bool.not_eq_true] at htagOk ⊢
    tauto
  unfold vecReduce
  simp only [show ∀ r, s.vtagOf r = tagOf s r from fun _ => rfl, group_eq _ _ _ htag, hp, if_true]
  refine ⟨fun hstop => (rounded_run hm hr (List.cons_ne_nil _ _) hchecks _).trans ?_, fun hlive acts left hshare => ⟨?_, ?_⟩⟩
  · rw [if_pos hstop]
    rfl
  · rintro rfl
    refine (rounded_run hm hr (List.cons_ne_nil _ _) hchecks _).trans ?_
    simp only [if_neg (Nat.not_le.2 hlive), actives_eq, hshare]
    rfl
  · rintro j rfl hj
    refine (rounded_run hm hr (List.cons_ne_nil _ _) hchecks _).trans ?_
    simp only [if_neg (Nat.not_le.2 hlive), actives_eq, hshare, if_neg hj]
    rfl

theorem reduced_congr (e : Reduction) {r q : FRes} (hbits : r.bits = q.bits) (hflags : r.flags = q.flags) : reduced u e r = reduced u e q := by
  unfold reduced
  rw [hbits, hflags]

theorem completed_elementZero (e : Reduction) (r : FRes) (hlive : u.hart.vsi < u.hart.vl) :
    completed u (elementZero e r) = (reduced u e r).vdone e.srcs := by
  have hflags : allFlags [0] (fun _ => ⟨r.bits, r.flags, false⟩) = r.flags := orFlags_none r.flags
  unfold completed State.elementwise
  rw [if_neg (Nat.not_le.2 hlive), runElems_eq]
  unfold elementZero reduced
  rw [hflags]
  rfl

theorem completed_stopped (e : Elementwise) (hstop : u.hart.vl ≤ u.hart.vsi) : completed u e = u.vdone e.srcs := by
  unfold completed State.elementwise
  rw [if_pos hstop]

/-- A reduction that no event stops writes its value to element 0. -/
theorem reduction_performs {rm : Option Rounding} {d a b : VNum} {mk : MNum} {floats ints ordered : Bool} {g : Tag → (Nat → FRes) → FRes → FRes}
    {ok : Tag → Bool} {f : State → Tag → Rounding → List Nat → (Nat → FRes) → FRes → FRes} (hm : roundsBy s rm m)
    (hr : ready s u (reduction s u m d a b mk floats ints ordered g).toOperands)
    (hok : ∀ t, (tagFloat t && floats || tagInt t && ints) = true → ok t = true) (hlimit : ordered = true → u.hart.limit = none)
    (hf : ∀ t x start, (f u t m (activeIn u mk) x start).bits = (g t x start).bits ∧ (f u t m (activeIn u mk) x start).flags = (g t x start).flags)
    (he : exec i s = vecReduce d a b mk rm ok ordered f s) : let e := reduction s u m d a b mk floats ints ordered g
    performs s u i (elementZero e e.value) := by
  intro e
  obtain ⟨hstopped, hrunning⟩ := vecReduce_core (f := f) hm hr hok
  refine performs_of_completed (e := elementZero e e.value) hr rfl (List.mem_singleton_self _) (he.trans ?_)
  rcases Nat.lt_or_ge u.hart.vsi u.hart.vl with hlive | hstop
  · have hshare : (if ordered then u.share (activeIn u mk) else (activeIn u mk, none)) = (activeIn u mk, none) := by
      split
      · next hord => unfold State.share; rw [hlimit hord]
      · rfl
    obtain ⟨hends, -⟩ := hrunning hlive _ _ hshare
    obtain ⟨hbits, hflags⟩ := hf e.tag (readAs (tagOf s a) e.tag m u (groupOf s a (tagOf s a))) (initial s u m b e ordered)
    rw [hends rfl, completed_elementZero e e.value hlive, reduced_congr e hbits hflags]
    rfl
  · rw [hstopped hstop, completed_stopped _ hstop]
    rfl

theorem mem_activeIn {k : MNum} {j : Nat} : j ∈ activeIn u k ↔ j < u.hart.vl ∧ u.hart.vsi ≤ j ∧ (k.val = 0 ∨ maskBit u k j = true) := by
  simp [activeIn, maskBit]

theorem activeParts_eq (u : State) (mk : MNum) (x : Nat → FRes) :
    ((List.range u.hart.vl).map fun j => if decide (u.hart.vsi ≤ j) && u.active mk j then (some (x j).bits, (x j).flags) else (none, noFlags)) =
      (List.range u.hart.vl).map fun j => asPart (if j ∈ activeIn u mk then some ((x j).bits, (x j).flags) else none) := by
  refine List.map_congr_left fun j hj => ?_
  have hactive : (decide (u.hart.vsi ≤ j) && u.active mk j) = true ↔ j ∈ activeIn u mk := by
    rw [mem_activeIn, State.active, mbit_eq]
    simp [List.mem_range.1 hj]
  simp only [hactive, apply_ite asPart]
  rfl

/-- A tree reduction of the active elements (R69, R190). -/
theorem tree_performs {rm : Option Rounding} {d a b : VNum} {mk : MNum} {k : ArithOp} {floats : Bool} (hfl : k.floats = floats)
    (hm : roundsBy s rm m) (hvl : s.hart.vl ≤ 2 ^ 32) (hr : ready s u (treeForm s u m d a b mk floats k).toOperands)
    (he : exec i s = vecTree d a b mk rm k s) : let e := treeForm s u m d a b mk floats k
    performs s u i (elementZero e e.value) := by
  unfold treeForm at hr ⊢
  refine reduction_performs hm hr (fun t => ?_) (fun h => absurd h Bool.false_ne_true) (fun t x start => ?_) he
  · rw [hfl]
    cases floats <;> simp
  · have hpast (j : Nat) (hj : u.hart.vl ≤ j) : (if j ∈ activeIn u mk then some ((x j).bits, (x j).flags) else none) = none :=
      if_neg fun h => absurd (mem_activeIn.1 h).1 (Nat.not_lt.2 hj)
    rw [← vl_of_ready hr, ← treeReduce_eq _ (by rw [vl_of_ready hr]; omega) hpast, activeParts_eq]
    exact ⟨rfl, rfl⟩

theorem delivered_limit (h : Delivered s u) : u.hart.limit = s.hart.limit := by
  obtain ⟨_, _, _, _, _, _, _, _, _, rfl⟩ := h; rfl

/-- What `vfred.ord` leaves (R191). -/
def orderedForm (s u : State) (m : Rounding) (d a b : VNum) (k : MNum) : Reduction :=
  reduction s u m d a b k true false true fun t x init => sumInOrder (arithOp .add t m false) ((activeIn u k).map x) init

/-- An ordered sum of a share of the active elements, with another one left. -/
theorem vfredOrd_stops {rm : Option Rounding} {d a b : VNum} {p q : Bool} {k : MNum} {acts : List Nat} {j : Nat} (hm : roundsBy s rm m)
    (hr : ready s u (orderedForm s u m d a b k).toOperands) (hlive : u.hart.vsi < u.hart.vl)
    (hshare : u.share (activeIn u k) = (acts, some j)) (hj : j ≠ u.hart.vsi) : let e := orderedForm s u m d a b k
    exec (.vfredOrd d a b p q k rm) s = .next ((reduced u e (sumInOrder (arithOp .add e.tag m false)
      (acts.map (readAs (tagOf s a) e.tag m u (groupOf s a (tagOf s a)))) (initial s u m b e true))).setVsi j) := by
  intro e
  have hexec : exec (.vfredOrd d a b p q k rm) s = execVfredOrd d a b p q k rm s := rfl
  unfold execVfredOrd at hexec
  unfold orderedForm at hr
  obtain ⟨-, hrunning⟩ := vecReduce_core (f := fun _ t m acts x init => orderedSum (arithOp .add t m false) (acts.map x) init) hm hr
    (fun t h => by simpa using h)
  obtain ⟨-, hstops⟩ := hrunning hlive _ _ hshare
  obtain ⟨hbits, hflags⟩ := orderedSum_eq (arithOp .add e.tag m false)
    (acts.map (readAs (tagOf s a) e.tag m u (groupOf s a (tagOf s a)))) (a := initial s u m b e true) rfl rfl
  rw [hexec, ← reduced_congr e hbits hflags]
  exact hstops j rfl hj

/-- Element 0 written by an instruction that stays at its address. -/
theorem reduced_says {e : Reduction} (hg : e.dst.base + e.dst.n ≤ 32) (r : FRes) (j : Nat) : let t := (reduced u e r).setVsi j
    wroteElements u t e.dst e.tag [0] (fun _ => r.bits) ∧ raised u t r.flags false ∧ t.hart.vsi = j ∧ t.hart.pc = u.hart.pc ∧
      t.hart.instret = u.hart.instret ∧ t = { u with hart := { u.hart with v := t.hart.v, fcsr := t.hart.fcsr, vsi := t.hart.vsi } } := by
  have hwrote := wrote_self u e.dst e.tag [0] (fun _ => r.bits) hg
  have hlist : [0].map (fun q => (q, r.bits)) = [(0, r.bits)] := rfl
  unfold reduced
  rw [hlist, writeGroup_rec] at hwrote
  rw [writeGroup_rec]
  generalize (u.writeGroup e.dst (some e.tag) [(0, r.bits)]).hart.v = regs at *
  refine ⟨wrote_congr (t := { u with hart := { u.hart with v := regs } }) rfl rfl hwrote, ⟨rfl, rfl, rfl⟩, rfl, rfl, rfl, rfl⟩

theorem delivered_pc (h : Delivered s u) : u.hart.pc = s.hart.pc := by
  obtain ⟨_, _, _, _, _, _, _, _, _, rfl⟩ := h; rfl

/-- What an event that stops an ordered sum leaves (R19, R191). -/
theorem orderedSumStops : OrderedSumStops := by
  intro s u d a b p q k rm m e n j h hm hr hlimit hj hne ta first start sum
  have hdel := delivered_of_ready hr
  obtain ⟨-, hvsi, -, -, hinstret, -⟩ := hdel.keeps
  obtain ⟨hlt, hle, -⟩ := mem_activeIn.1 (List.mem_of_getElem? hj)
  have hshare : u.share (activeIn u k) = ((activeIn u k).take n, some j) := by
    unfold State.share
    rw [delivered_limit hdel, hlimit]
    exact congrArg (Prod.mk _) hj
  obtain rfl : orderedForm s u m d a b k = e := by cases h; rfl
  have hstart : initial s u m b (orderedForm s u m d a b k) true = start := by
    unfold initial start
    simp
  obtain ⟨hwrote, hraised, hstop, hpc, hcount, honly⟩ := reduced_says (u := u) (e := orderedForm s u m d a b k)
    (group_end_of_ready hr (List.mem_append_right _ (List.mem_singleton_self _))) sum j
  have hexec := vfredOrd_stops (p := p) (q := q) hm hr (hle.trans_lt hlt) hshare (hvsi ▸ hne)
  dsimp only at hexec
  rw [hstart] at hexec
  exact ⟨_, hexec, hwrote, hraised, hstop, hpc.trans (delivered_pc hdel), hcount.trans hinstret, honly⟩

theorem vectorReductions_complete : VectorReductions := by
  intro s u i rm m e h hm hvl hr hlimit
  suffices hperf : performs s u i (elementZero e e.value) by
    obtain ⟨t, hexec, hdone, hx, hmask, hacc, hlive, hstop⟩ := hperf
    refine ⟨t, hexec, hdone, hx, hmask, hacc, fun hlt => ?_, hstop⟩
    obtain ⟨hwrote, hraised⟩ := hlive hlt
    have hflags : allFlags [0] (fun _ => ⟨e.value.bits, e.value.flags, false⟩) = e.value.flags := orFlags_none e.value.flags
    exact ⟨hwrote, hflags ▸ hraised⟩
  cases i with
  | vredAdd | vredMin | vredMax | vredAnd | vredOr | vredXor => cases h; exact tree_performs rfl hm hvl hr rfl
  | vfredOrd d a b p q k r =>
    have hnone : u.hart.limit = none := (delivered_limit (delivered_of_ready hr)).trans (hlimit ⟨d, a, b, p, q, k, r, rfl⟩)
    have hexec : exec (.vfredOrd d a b p q k r) s = execVfredOrd d a b p q k r s := rfl
    unfold execVfredOrd at hexec
    cases h
    exact reduction_performs hm hr (fun t ht => by simpa using ht) (fun _ => hnone) (fun t x start => orderedSum_eq _ _ rfl rfl) hexec
  | _ => cases h

/-- Settles O25, by its two parts: reductions that complete, and the stop of an ordered sum. -/
theorem vectorReductions : Obligations.VectorReductions := ⟨vectorReductions_complete, orderedSumStops⟩

end Sys2Proof.Laws
end

section
/-! Moves from masks, vectors and accumulators to x registers, and to elements (09 R187, R197, R199). -/

namespace Sys2Proof.Laws

set_option Elab.async false

open Sys2Proof Sys2Proof.Machine Sys2Proof.Claim

variable {s u : State} {m : Rounding} {i : Instr}

/-! ### To an x register -/

/-- The state that a move to x[d] leaves, with its bound sources moved on and VSI at n. -/
def movedToX (s u : State) (srcs : List Grp) (d : XReg) (v : Word) (n : Nat) : State :=
  { u with hart := { u.hart with
    x := (u.setX d v).hart.x, vsi := n, streams := (u.advance (s.boundBy srcs)).hart.streams, pc := u.hart.pc + u.len
    instret := u.hart.instret + 1 } }

theorem movedToX_says {srcs : List Grp} (hdel : Delivered s u) (d : XReg) (v : Word) (n : Nat) : let t := movedToX s u srcs d v n
    t.x d = (if d = 0 then 0 else v) ∧ (∀ r, r ≠ d → t.x r = u.x r) ∧ goesOn s t ∧ sameMemory u t ∧ movedOn s srcs t.hart.streams ∧
      t.hart.vsi = n ∧ t = { u with hart := { u.hart with
        x := t.hart.x, vsi := t.hart.vsi, streams := t.hart.streams, pc := t.hart.pc, instret := t.hart.instret } } := by
  have hx (r : XReg) : (movedToX s u srcs d v n).x r = if r = d then (if d = 0 then 0 else v) else u.x r := x_setX u d r v
  obtain ⟨-, -, -, hpc, hinstret, -⟩ := hdel.keeps
  exact ⟨(hx d).trans (if_pos rfl), fun r hr => (hx r).trans (if_neg hr), ⟨hpc, congrArg (· + 1) hinstret⟩, ⟨fun _ => rfl, fun _ => rfl⟩,
    advance_movedOn s u srcs hdel, rfl, rfl⟩

theorem vdone_setX (hdel : Delivered s u) (srcs : List Grp) (d : XReg) (v : Word) : (u.setX d v).vdone srcs = movedToX s u srcs d v 0 := by
  obtain ⟨-, -, -, -, -, hbound, -⟩ := hdel.keeps
  unfold movedToX
  rw [← hbound, setX_only]
  rfl

theorem retire_setX (hdel : Delivered s u) (srcs : List Grp) (d : XReg) (v : Word) :
    ((u.setX d v).advance (u.boundBy srcs)).retire = movedToX s u srcs d v s.hart.vsi := by
  obtain ⟨-, hvsi, -, -, -, hbound, -⟩ := hdel.keeps
  unfold movedToX
  rw [← hbound, ← hvsi, setX_only]
  rfl

theorem setPositions_eq (u : State) (a mk : MNum) : u.setPositions a mk = (activeIn u mk).filter (maskBit u a) := by
  unfold State.setPositions
  rw [actives_eq, show u.mbit a = maskBit u a from funext (mbit_eq u a)]

/-- The first of an ascending list is its least. -/
theorem min?_sorted {l : List Nat} (hl : l.Pairwise (· < ·)) : l.min? = l.head? :=
  List.min?_eq_head? (hl.imp fun h => Nat.min_eq_left h.le)

theorem mpopc_runs {c d : XReg} {a k : MNum} {o : Operands} {v : Word} {z : Bool} (h : toScalar s u (.mpopc c a k) = some (o, d, v, z))
    (hr : ready s u o) : exec (.mpopc c a k) s = .next (movedToX s u o.srcs d v (if z then 0 else s.hart.vsi)) := by
  have hend := vdone_setX (delivered_of_ready hr) o.srcs d v
  cases h
  have hprep : s.prepare [] [] (a :: masksOf k) true s.hart.vl [] = .ok u := prepare_passes hr fun _ _ h => absurd h List.not_mem_nil
  rw [if_pos rfl, ← hend]
  show execMpopc c a k s = _
  unfold execMpopc
  rw [hprep]
  simp only [bind, Except.bind, setPositions_eq]
  rfl

theorem mfirst_runs {c d : XReg} {a k : MNum} {o : Operands} {v : Word} {z : Bool} (h : toScalar s u (.mfirst c a k) = some (o, d, v, z))
    (hr : ready s u o) : exec (.mfirst c a k) s = .next (movedToX s u o.srcs d v (if z then 0 else s.hart.vsi)) := by
  have hend := vdone_setX (delivered_of_ready hr) o.srcs d v
  cases h
  have hprep : s.prepare [] [] (a :: masksOf k) true s.hart.vl [] = .ok u := prepare_passes hr fun _ _ h => absurd h List.not_mem_nil
  rw [if_pos rfl, ← hend]
  show execMfirst c a k s = _
  unfold execMfirst
  rw [hprep, min?_sorted ((activeIn_sorted u k).filter _)]
  simp only [bind, Except.bind, setPositions_eq]
  rfl

/-- An element extended by class (R199). -/
theorem extendElem_eq (t : Tag) {v : Nat} (hv : v < 2 ^ tagBits t) :
    extendElem t v = if tagSigned t then (BitVec.ofNat (tagBits t) v).signExtend 64 else BitVec.ofNat 64 v := by
  unfold extendElem
  split
  · next hs => exact signed_ext _ _ (tagBits_pos (by rintro rfl; cases hs)) hv
  · rfl

theorem gathered_lt (u : State) (g : Grp) (j : Nat) : gathered u g j < 2 ^ g.bits := by
  unfold gathered
  split
  · exact element_lt u g j
  · exact Nat.two_pow_pos _

theorem vmvXv_runs {c d b : XReg} {a : VNum} {q : Bool} {o : Operands} {v : Word} {z : Bool}
    (h : toScalar s u (.vmvXv c a b q) = some (o, d, v, z)) (hr : ready s u o) :
    exec (.vmvXv c a b q) s = .next (movedToX s u o.srcs d v (if z then 0 else s.hart.vsi)) := by
  have hend := retire_setX (delivered_of_ready hr) o.srcs d v
  cases h
  rw [if_neg Bool.false_ne_true, ← hend]
  have htag := vcfgTag_of_ready hr (List.mem_cons_self ..)
  obtain ⟨-, -, -, -, -, -, hx⟩ := (delivered_of_ready hr).keeps
  have hgather (j : Nat) : regGather u.hart.vlmax (elemAt (u.bitsOf (groupOf s a (tagOf s a))) (groupOf s a (tagOf s a)).bits) j =
      gathered u (groupOf s a (tagOf s a)) j := regGather_eq hr (List.mem_cons_self ..) (groupOf s a (tagOf s a)) j
  show execVmvXv c a b q s = _
  unfold execVmvXv
  simp only [show s.vtagOf a = tagOf s a from rfl, group_eq _ _ _ htag]
  refine (checked_run hr (List.cons_ne_nil _ _) ?_ _).trans ?_
  · simp
  · rw [hgather, extendElem_eq _ (gathered_lt u (groupOf s a (tagOf s a)) _), hx]
    rfl

theorem vectorToScalar : VectorToScalar := by
  intro s u i o d v z h hr
  suffices hruns : exec i s = .next (movedToX s u o.srcs d v (if z then 0 else s.hart.vsi)) from
    ⟨_, hruns, movedToX_says (delivered_of_ready hr) d v _⟩
  cases i with
  | mpopc => exact mpopc_runs h hr
  | mfirst => exact mfirst_runs h hr
  | vmvXv => exact vmvXv_runs h hr
  | _ => cases h

/-! ### To one element (R197, R199) -/

/-- A value written to one element, without a tag. -/
theorem writeGroup_element (u : State) {g : Grp} (hg : g.base + g.n ≤ 32) (j v : Nat) : wroteElement u (u.writeGroup g none [(j, v)]) g j v := by
  have hput (q : Nat) : elemAt (putElems (u.bitsOf g) g.bits [(j, v)]) g.bits q = if q ∈ [j] then v % 2 ^ g.bits else element u g q :=
    elem_putElems g.bits (fun _ => v) [j] (u.bitsOf g) q
  refine ⟨fun hw => ?_, fun q hq hw => ?_, fun r => ⟨?_, fun hout => ?_⟩⟩
  · rw [element_writeGroup u g none _ hg j hw, hput, if_pos (List.mem_singleton_self j)]
  · rw [element_writeGroup u g none _ hg q hw, hput, if_neg (by simpa using hq)]
  · rw [writeGroup_reg _ _ _ _ _ r.isLt]
    split <;> rfl
  · rw [writeGroup_reg _ _ _ _ _ r.isLt, if_neg (by simpa [Grp.has] using hout)]

theorem wroteElement_congr {u t t' : State} {g : Grp} {j v : Nat} (hv : t'.hart.v = t.hart.v) (hs : t'.hart.slice = t.hart.slice)
    (h : wroteElement u t g j v) : wroteElement u t' g j v := by
  have helement (q : Nat) : element t' g q = element t g q := by
    unfold element State.bitsOf
    rw [storage_congr hv hs]
  obtain ⟨hset, hothers, hregs⟩ := h
  exact ⟨fun hw => (helement j).trans (hset hw), fun q hq hw => (helement q).trans (hothers q hq hw), fun r => by rw [hv]; exact hregs r⟩

/-- What an instruction leaves that writes one element, and raises flags, of a state without bound sources. -/
theorem element_placed (s : State) {g : Grp} (hg : g.base + g.n ≤ 32) (j v : Nat) (fl : Flags) :
    let t := ((s.writeGroup g none [(j, v)]).raise fl false).retire
    wroteElement s t g j v ∧ raised s t fl false ∧ goesOn s t ∧ sameMemory s t ∧
      t = { s with hart := { s.hart with v := t.hart.v, fcsr := t.hart.fcsr, pc := t.hart.pc, instret := t.hart.instret } } := by
  have hwrote := writeGroup_element s hg j v
  rw [writeGroup_rec] at hwrote ⊢
  generalize (s.writeGroup g none [(j, v)]).hart.v = regs at *
  exact ⟨wroteElement_congr (t := { s with hart := { s.hart with v := regs } }) rfl rfl hwrote,
    ⟨rfl, rfl, rfl⟩, ⟨rfl, rfl⟩, ⟨fun _ => rfl, fun _ => rfl⟩, rfl⟩

theorem element_only (s : State) (g : Grp) (j v : Nat) : let t := (s.writeGroup g none [(j, v)]).retire
    t = { s with hart := { s.hart with v := t.hart.v, pc := t.hart.pc, instret := t.hart.instret } } := by
  rw [writeGroup_rec]
  generalize (s.writeGroup g none [(j, v)]).hart.v = regs
  rfl

theorem wroteElement_mod {u t : State} {g : Grp} {j v : Nat} (h : wroteElement u t g j (v % 2 ^ g.bits)) : wroteElement u t g j v := by
  obtain ⟨hset, hrest⟩ := h
  exact ⟨fun hw => (hset hw).trans (Nat.mod_mod ..), hrest⟩

theorem vmvVx_runs {d : VNum} {a b : XReg} (hr : ready s s ⟨[], [groupOf s d (tagOf s d)], [], false, 0,
      [tagOf s d == .none, decide (vlmax s ≤ (s.x a).toNat)]⟩) :
    exec (.vmvVx d a b) s = .next (s.writeGroup (groupOf s d (tagOf s d)) none [((s.x a).toNat, (s.x b).toNat % 2 ^ tagBits (tagOf s d))]).retire := by
  have htag := vcfgTag_of_ready hr (List.mem_cons_self ..)
  show execVmvVx d a b s = _
  unfold execVmvVx
  simp only [show s.vtagOf d = tagOf s d from rfl, group_eq _ _ _ htag, vlmax_eq htag]
  refine (checked_run hr (List.cons_ne_nil _ _) ?_ _).trans rfl
  simp

/-- The read-out of R73. -/
theorem read_eq (k : EReg) (f : Fmt) (m : Rounding) : k.read f m = readOut k f m := by
  rcases k with ⟨a, nan, pinf, ninf, poison⟩
  unfold EReg.read readOut
  cases nan with
  | true => rfl
  | false =>
    cases pinf with
    | true => cases ninf <;> rfl
    | false =>
      cases ninf with
      | true => rfl
      | false =>
        by_cases ha : a = 0
        · subst ha
          simp [Fmt.finResult, Fmt.zeroBits, Fmt.pack]
          rfl
        · simp [ha]

theorem readFmt_eq {t : Tag} {f : Fmt} (h : tagFmt t = some f) : readFmt t = f := by
  unfold readFmt
  rw [h]
  rfl

theorem untyped_of_special {t : Tag} (h : special t = true) : untyped t = false := by
  revert h; cases t <;> decide

theorem xaRdv_runs {d : VNum} {e : ENum} {x : XReg} {rm : Option Rounding} {f : Fmt} (hm : roundsBy s rm m) (hf : tagFmt (tagOf s d) = some f)
    (hp : s.hart.e[e.val].poison = false) (hr : ready s s ⟨[], [groupOf s d (tagOf s d)], [], false, 0,
      [Claim.noScale s, !special (tagOf s d), decide (vlmax s ≤ (s.x x).toNat)]⟩) : let r := readOut s.hart.e[e.val] f m
    exec (.xaRdv d e x rm) s = .next ((s.writeGroup (groupOf s d (tagOf s d)) none [((s.x x).toNat, r.bits)]).raise r.flags false).retire := by
  have htag := vcfgTag_of_ready hr (List.mem_cons_self ..)
  show execXaRdv d e x rm s = _
  unfold execXaRdv
  simp only [show s.vtagOf d = tagOf s d from rfl, group_eq _ _ _ htag, vlmax_eq htag, specialTag_eq]
  refine (rounded_run hm hr (List.cons_ne_nil _ _) ?_ _).trans ?_
  · simp [State.noScale, Claim.noScale]
    exact fun hscale hspecial hplace => ⟨hscale, untyped_of_special hspecial, hspecial, hplace⟩
  · rw [accOk_ok hp]
    simp only [bind, Except.bind, read_eq, readFmt_eq hf]
    rfl

theorem xaRd_runs {d : XReg} {e : ENum} {w : Tag} {rm : Option Rounding} {f : Fmt} (hm : roundsBy s rm m) (hf : tagFmt w = some f)
    (hp : s.hart.e[e.val].poison = false) : let r := readOut s.hart.e[e.val] f m
    exec (.xaRd d e w rm) s = fpX d rm (fun _ => ⟨r.bits, r.flags, false⟩) s := by
  show execXaRd d e w rm s = _
  unfold execXaRd fpX
  rw [mode_ok hm, accOk_ok hp]
  simp only [bind, Except.bind, read_eq, readFmt_eq hf]
  rfl

theorem scalarToVector : ScalarToVector := by
  refine fun s => ⟨fun d a b hr => ?_, fun d e x rm m f hm hf hp hr => ?_, fun d e w rm m f _ hf hm hp => ?_⟩
  · have hend : (groupOf s d (tagOf s d)).base + (groupOf s d (tagOf s d)).n ≤ 32 := group_end_of_ready hr (List.mem_singleton_self _)
    have hsays := element_placed s hend (s.x a).toNat ((s.x b).toNat % 2 ^ tagBits (tagOf s d)) noFlags
    rw [raise_none] at hsays
    obtain ⟨hwrote, -, hgoes, hmem, -⟩ := hsays
    exact ⟨_, vmvVx_runs hr, wroteElement_mod hwrote, hgoes, hmem, element_only s _ _ _⟩
  · have hend : (groupOf s d (tagOf s d)).base + (groupOf s d (tagOf s d)).n ≤ 32 := group_end_of_ready hr (List.mem_singleton_self _)
    exact ⟨_, xaRdv_runs hm hf hp hr, element_placed s hend ..⟩
  · obtain ⟨t, hexec, hsays⟩ := fpX_wrote s d rm (fun _ => ⟨(readOut s.hart.e[e.val] f m).bits, (readOut s.hart.e[e.val] f m).flags, false⟩) m hm
    exact ⟨t, (xaRd_runs hm hf hp).trans hexec, hsays⟩

/-- Settles O30, by its two parts: moves to an x register, and moves to an element or from an accumulator. -/
theorem elementMoves : Obligations.ElementMoves := ⟨vectorToScalar, scalarToVector⟩

end Sys2Proof.Laws
end

section
/-! Fibre registers, and the reshapes and reductions of fibres (02 R39, 10 R213, R215, R216). -/

namespace Sys2Proof.Laws

set_option Elab.async false

open Sys2Proof Sys2Proof.Machine Sys2Proof.Claim

variable {s t u : State} {a d : QNum}

/-! ### Fibre registers -/

/-- A fibre written: it alone may differ. -/
theorem fibre_of_set {k : QReg} (h : t.hart.q = u.hart.q.set d.val k) : fibre t d = k ∧ onlyFibre u t d := by
  unfold onlyFibre fibre
  rw [h]
  exact ⟨Vector.getElem_set_self _, fun r hr => Vector.getElem_set_ne _ _ fun he => hr (Fin.ext he.symm)⟩

theorem fibresOk_ok {l : List QNum} (h : ∀ r ∈ l, (fibre s r).poison = false) : s.fibresOk l = .ok () := by
  have hnone : (l.any fun r => (s.q r).poison) = false := List.any_eq_false.2 fun r hr => by
    rw [show (s.q r).poison = false from h r hr]
    exact Bool.false_ne_true
  unfold State.fibresOk State.require
  rw [hnone]
  rfl

theorem fibresOk_one (h : (fibre s a).poison = false) : s.fibresOk [a] = .ok () :=
  fibresOk_ok fun _ hr => List.mem_singleton.1 hr ▸ h

/-! ### Sorting by coordinate (R213) -/

theorem perm_insertEntry (e : Nat × Nat) (l : List (Nat × Nat)) : (insertEntry e l).Perm (e :: l) := by
  induction l with
  | nil => exact .refl _
  | cons k l ih =>
    unfold insertEntry
    split
    · exact .refl _
    · exact (ih.cons k).trans (.swap e k l)

theorem sorted_insertEntry (e : Nat × Nat) {l : List (Nat × Nat)} (h : l.Pairwise fun x y => x.1 ≤ y.1) :
    (insertEntry e l).Pairwise fun x y => x.1 ≤ y.1 := by
  induction l with
  | nil => exact List.pairwise_singleton ..
  | cons k l ih =>
    obtain ⟨hk, hl⟩ := List.pairwise_cons.1 h
    unfold insertEntry
    split
    · next hle =>
      refine List.pairwise_cons.2 ⟨fun x hx => ?_, h⟩
      rcases List.mem_cons.1 hx with rfl | hx
      · exact hle
      · exact hle.trans (hk x hx)
    · next hgt =>
      refine List.pairwise_cons.2 ⟨fun x hx => ?_, ih hl⟩
      rcases List.mem_cons.1 ((perm_insertEntry e l).mem_iff.1 hx) with rfl | hx
      · omega
      · exact hk x hx

/-- An entry goes in front of those of its own coordinate. -/
theorem filter_insertEntry (e : Nat × Nat) (l : List (Nat × Nat)) (c : Nat) :
    (insertEntry e l).filter (fun x => x.1 == c) = (e :: l).filter fun x => x.1 == c := by
  induction l with
  | nil => rfl
  | cons k l ih =>
    unfold insertEntry
    split
    · rfl
    · next hgt =>
      rw [List.filter_cons, ih]
      by_cases he : e.1 = c
      · have hk : ¬ k.1 = c := by omega
        simp [he, hk]
      · simp [List.filter_cons, he]

theorem perm_sortEntries (l : List (Nat × Nat)) : (sortEntries l).Perm l := by
  induction l with
  | nil => exact .refl _
  | cons e l ih => exact (perm_insertEntry e _).trans (ih.cons e)

theorem sorted_sortEntries (l : List (Nat × Nat)) : (sortEntries l).Pairwise fun x y => x.1 ≤ y.1 := by
  induction l with
  | nil => exact .nil
  | cons e l ih => exact sorted_insertEntry e ih

theorem filter_sortEntries (l : List (Nat × Nat)) (c : Nat) :
    (sortEntries l).filter (fun x => x.1 == c) = l.filter fun x => x.1 == c := by
  induction l with
  | nil => rfl
  | cons e l ih => rw [sortEntries, filter_insertEntry, List.filter_cons, ih, List.filter_cons]

/-! ### Reshapes (R213, R215) -/

/-- The entries whose positions a predicate picks. -/
theorem filter_zipIdx (p : Nat → Bool) (l : List (Nat × Nat)) : (l.zipIdx.filter fun e => p e.2).map Prod.fst =
    ((List.range l.length).filter p).map fun j => (l[j]?).getD (0, 0) := by
  have hzip : l.zipIdx = (List.range l.length).map fun j => ((l[j]?).getD (0, 0), j) :=
    List.ext_getElem (by simp) fun j hj _ => by
      rw [List.length_zipIdx] at hj
      simp [hj]
  rw [hzip, List.filter_map, List.map_map]
  rfl

/-- What an indivisible fibre instruction leaves that writes one fibre. -/
theorem fibre_written (s : State) (d : QNum) (k : QReg) :
    let t := ({ s with hart := { s.hart with q := s.hart.q.set d.val k } } : State).retire
    fibre t d = k ∧ onlyFibre s t d ∧ goesOn s t ∧ sameMemory s t ∧
      t = { s with hart := { s.hart with q := t.hart.q, pc := t.hart.pc, instret := t.hart.instret } } := by
  obtain ⟨hsame, honly⟩ := fibre_of_set (u := s) (d := d) (k := k)
    (t := ({ s with hart := { s.hart with q := s.hart.q.set d.val k } } : State).retire) rfl
  exact ⟨hsame, honly, ⟨rfl, rfl⟩, ⟨fun _ => rfl, fun _ => rfl⟩, rfl⟩

/-- A reshape whose source holds no uncorrectable data. -/
theorem reshape_runs (d : QNum) (f : QReg → QReg) (h : (fibre s a).poison = false) :
    reshape d a f s = .next (s.setQ d { f (fibre s a) with poison := false }).retire := by
  unfold reshape
  rw [fibresOk_one h]
  rfl

theorem qcompactM_runs {m : MNum} (h : (fibre s a).poison = false) (hmask : s.hart.m[m.val].poison = false) :
    exec (.qcompactM d a m) s = .next (s.setQ d { fibre s a with
      entries := ((fibre s a).entries.zipIdx.filter fun e => maskBit s m e.2).map Prod.fst }).retire := by
  show execQcompactM d a m s = _
  unfold execQcompactM
  rw [fibresOk_one h, hmask, show s.mbit m = maskBit s m from funext (mbit_eq s m)]
  rfl

/-- A reshape ends with a fibre of which its claim holds. -/
theorem reshape_completes {i : Instr} {P : QReg → Prop} (h : reshapes s i = some (d, a, true, P)) (hp : (fibre s a).poison = false) :
    ∃ k, P k ∧ exec i s = .next ({ s with hart := { s.hart with q := s.hart.q.set d.val k } } : State).retire := by
  cases i with
  | qsort =>
    cases h
    refine ⟨{ fibre s a with entries := sortEntries (fibre s a).entries, sorted := true, poison := false, fresh := false },
      ⟨perm_sortEntries _, sorted_sortEntries _, filter_sortEntries _, rfl, rfl⟩, ?_⟩
    show execQsort d a s = _
    exact reshape_runs d _ hp
  | qcompact =>
    cases h
    refine ⟨{ fibre s a with
        entries := (fibre s a).entries.filter fun e => !isZeroValue (fibre s a).tag e.2, poison := false, fresh := false },
      ⟨rfl, rfl, rfl⟩, ?_⟩
    show execQcompact d a s = _
    exact reshape_runs d _ hp
  | qcompactM c b m =>
    simp only [reshapes, Option.some.injEq, Prod.mk.injEq, Bool.not_eq_true'] at h
    obtain ⟨rfl, rfl, hmask, rfl⟩ := h
    exact ⟨{ fibre s b with entries := ((fibre s b).entries.zipIdx.filter fun e => maskBit s m e.2).map Prod.fst, fresh := false },
      ⟨filter_zipIdx (maskBit s m) (fibre s b).entries, rfl, rfl⟩, qcompactM_runs hp hmask⟩
  | qclr => cases h; exact ⟨{ fibre s a with entries := [], sorted := true, poison := false }, ⟨rfl, rfl, rfl⟩, rfl⟩
  | _ => cases h

theorem qcnt_wrote (s : State) (a : QNum) (d : XReg) :
    ∃ t, exec (.qcnt a d) s = .next t ∧ wroteX s t d (BitVec.ofNat 64 (fibre s a).entries.length) := putX_wrote s d _

/-- `qscale` (R216). -/
theorem qscale_completes {d a : QNum} {v : XReg} {rm : Option Rounding} {sat : Bool} {m : Rounding} (hm : roundsBy s rm m)
    (hp : (fibre s a).poison = false) :
    let k := fibre s a
    let l := k.entries.map fun e => (e.1, arithOp .mul k.tag m sat e.2 ((s.x v).toNat % 2 ^ tagBits k.tag))
    ∃ t, exec (.qscale d a v rm sat) s = .next t ∧ fibre t d = ⟨l.map fun e => (e.1, e.2.bits), k.tag, k.sorted, false, false⟩ ∧
      onlyFibre s t d ∧ raised s t (Claim.flagsOf l) (l.any fun e => e.2.sat) ∧ goesOn s t ∧ sameMemory s t ∧
      t = { s with hart := { s.hart with q := t.hart.q, fcsr := t.hart.fcsr, pc := t.hart.pc, instret := t.hart.instret } } := by
  intro k l
  let t := ((s.setQ d { k with entries := l.map fun e => (e.1, e.2.bits) }).raise (Claim.flagsOf l) (l.any fun e => e.2.sat)).retire
  have hexec : exec (.qscale d a v rm sat) s = .next t := by
    show execQscale d a v rm sat s = _
    unfold execQscale
    rw [mode_ok hm, fibresOk_one hp]
    rfl
  obtain ⟨hfibre, honly⟩ := fibre_of_set (u := s) (t := t) (d := d) rfl
  refine ⟨t, hexec, hfibre.trans ?_, honly, ⟨rfl, rfl, rfl⟩, ⟨rfl, rfl⟩, ⟨fun _ => rfl, fun _ => rfl⟩, rfl⟩
  rw [show k.poison = false from hp]

theorem fibreReshapes_complete : Claim.FibreReshapes := by
  refine ⟨fun s i d a P h hp => ?_, qcnt_wrote, fun s d a v rm sat m hm hp => ?_⟩
  · obtain ⟨k, hk, hexec⟩ := reshape_completes h hp
    obtain ⟨hfibre, hrest⟩ := fibre_written s d k
    exact ⟨_, hexec, hfibre.symm ▸ hk, hrest⟩
  · intro k _
    exact qscale_completes hm hp

/-! ### Reductions (R216) -/

theorem join_isSome (op : Nat → Nat → FRes) {x y : Option (Nat × Flags)} (h : x.isSome = true) : (join op x y).isSome = true := by
  rcases x with _ | ⟨x, f⟩
  · cases h
  · cases y <;> rfl

/-- A tree whose first leaf is there has a value. -/
theorem tree_isSome (op : Nat → Nat → FRes) {leaf : Nat → Option (Nat × Flags)} {j : Nat} (h : (leaf j).isSome = true) (k : Nat) :
    (tree op leaf k j).isSome = true := by
  induction k with
  | zero => exact h
  | succ k ih => exact join_isSome op ih

/-- An element extended by class, of any pattern (R199). -/
theorem extendElem_pattern (t : Tag) (v : Nat) :
    extendElem t v = if tagSigned t then (BitVec.ofNat (tagBits t) v).signExtend 64 else BitVec.ofNat 64 v := by
  unfold extendElem
  split
  · next hs =>
    have hpos : 0 < tagBits t := tagBits_pos (by rintro rfl; cases hs)
    have hcut : toSigned (tagBits t) v = toSigned (tagBits t) (v % 2 ^ tagBits t) := by
      unfold toSigned
      rw [Nat.mod_mod]
    rw [hcut, toSigned_toInt hpos]
    rfl
  · rfl

/-- The value of a reduction of no entries (R216). -/
theorem emptyReduction_eq {q : QReg} (hq : q.entries = []) {k : ArithOp} (hk : k = .add ∨ k = .min ∨ k = .max) (m : Rounding)
    (hnone : q.tag ≠ .none) (hscale : q.tag ≠ .sc8) : emptyReduction k q.tag = reducedValue q k m := by
  unfold reducedValue
  rw [if_pos hq]
  generalize q.tag = t at *
  rcases hk with rfl | rfl | rfl
  · rfl
  · cases t with
    | none => exact absurd rfl hnone
    | sc8 => exact absurd rfl hscale
    | _ => rfl
  · cases t with
    | none => exact absurd rfl hnone
    | sc8 => exact absurd rfl hscale
    | _ => rfl

/-- The value of a reduction as the model takes it from its tree. -/
def foldedValue (q : QReg) (k : ArithOp) (m : Rounding) : FRes :=
  match treeFold (arithOp k q.tag m false) 64 (q.entries.map fun e => (some e.2, noFlags)) with
  | (some x, f) => ⟨x, f, false⟩
  | (none, _) => emptyReduction k q.tag

theorem foldedValue_eq {q : QReg} {k : ArithOp} (hk : k = .add ∨ k = .min ∨ k = .max) {m : Rounding} (hlen : q.entries.length ≤ 2 ^ 32)
    (hnone : q.tag ≠ .none) (hscale : q.tag ≠ .sc8) : foldedValue q k m = reducedValue q k m := by
  unfold foldedValue
  by_cases hq : q.entries = []
  · rw [← emptyReduction_eq hq hk m hnone hscale, hq]
    rfl
  have hfold := treeFold_eq (arithOp k q.tag m false) (fun j => (q.entries[j]?).map fun e => (e.2, {})) (j := 0) (fuel := 64)
    (l := q.entries.map fun e => some (e.2, {})) (k := ceilLog2 q.entries.length)
    (by rw [List.length_map]; exact le_two_pow_ceilLog2 _) (by rw [List.length_map]; omega)
    fun j _ => by
      rw [Nat.zero_add, List.getElem?_map]
      cases q.entries[j]? <;> rfl
  have hsome := tree_isSome (arithOp k q.tag m false) (leaf := fun j => (q.entries[j]?).map fun e => (e.2, {})) (j := 0)
    (by cases he : q.entries with | nil => exact absurd he hq | cons => rfl) (ceilLog2 q.entries.length)
  rw [List.map_map] at hfold
  unfold reducedValue
  rw [if_neg hq, show (q.entries.map fun e => (some e.2, noFlags)) = q.entries.map (asPart ∘ fun e => some (e.2, {})) from rfl, hfold]
  obtain ⟨⟨x, f⟩, hx⟩ := Option.isSome_iff_exists.1 hsome
  rw [hx]
  rfl

/-- What a reduction of a fibre leaves: a value in x[d], and flags. -/
theorem reductionToX_says (s : State) (d : XReg) (v : Word) (fl : Flags) :
    let t := ((s.setX d v).raise fl false).retire
    t.x d = (if d = 0 then 0 else v) ∧ (∀ z, z ≠ d → t.x z = s.x z) ∧ raised s t fl false ∧ goesOn s t ∧ sameMemory s t ∧
      t = { s with hart := { s.hart with x := t.hart.x, fcsr := t.hart.fcsr, pc := t.hart.pc, instret := t.hart.instret } } := by
  have hx (r : XReg) : (((s.setX d v).raise fl false).retire).x r = if r = d then (if d = 0 then 0 else v) else s.x r := x_setX s d r v
  refine ⟨(hx d).trans (if_pos rfl), fun z hz => (hx z).trans (if_neg hz), ?_⟩
  rw [setX_only]
  exact ⟨⟨rfl, rfl, rfl⟩, ⟨rfl, rfl⟩, ⟨fun _ => rfl, fun _ => rfl⟩, rfl⟩

/-- A reduction of a fibre that holds no uncorrectable data (R216, R384). -/
theorem fibreReduce_runs {d : XReg} {m : Rounding} {k : ArithOp} (hk : k = .add ∨ k = .min ∨ k = .max)
    (hp : (fibre s a).poison = false) (hlen : (fibre s a).entries.length ≤ 2 ^ 32) (hscale : (fibre s a).tag ≠ .sc8)
    (htag : (fibre s a).entries ≠ [] → (fibre s a).tag ≠ .none) :
    let q := fibre s a
    let r := if q.tag = .none then ⟨0, {}, false⟩ else reducedValue q k m
    finish (fibreReduce a d m k s) = .next ((s.setX d (extendElem q.tag r.bits)).raise r.flags false).retire := by
  intro q r
  have hq : s.q a = q := rfl
  have hempty : (q.n = 0 ∧ q.tag = .none) ↔ q.tag = .none :=
    ⟨And.right, fun h => ⟨by rw [QReg.n, List.length_eq_zero_iff]; by_contra he; exact htag he h, h⟩⟩
  unfold fibreReduce
  rw [fibresOk_one hp]
  simp only [bind, Except.bind, hq, hempty]
  by_cases hnone : q.tag = .none
  · have hr : r = ⟨0, {}, false⟩ := if_pos hnone
    rw [if_pos hnone, hr, hnone]
    show _ = Host.Outcome.next ((s.setX d 0).raise noFlags false).retire
    rw [raise_none]
    rfl
  · have hr : r = reducedValue q k m := if_neg hnone
    rw [if_neg hnone, hr, ← foldedValue_eq hk hlen hnone hscale]
    rfl

theorem fibreReductions_complete : Claim.FibreReductions := by
  intro s i a d rm k m h hm hrne q hp hscale hlen htag r
  have hk : k = .add ∨ k = .min ∨ k = .max := by
    unfold Claim.fibreReductions at h
    split at h <;> cases h <;> decide
  have hexec : exec i s = finish (fibreReduce a d m k s) := by
    cases i with
    | qredAdd a' d' r' =>
      cases h
      show execQredAdd a d r' s = _
      unfold execQredAdd
      rw [mode_ok (hm r' rfl)]
      rfl
    | qredMin | qredMax => cases h; rw [hrne rfl]; rfl
    | _ => cases h
  obtain ⟨hx, hrest⟩ := reductionToX_says s d (extendElem q.tag r.bits) r.flags
  exact ⟨_, hexec.trans (fibreReduce_runs hk hp hlen hscale htag), hx.trans (by rw [extendElem_pattern]), hrest⟩

/-- Settles O34, by its two parts: the reshapes of fibres, and their reductions. -/
theorem fibreReshapes : Obligations.FibreReshapes := ⟨fibreReshapes_complete, fibreReductions_complete⟩

end Sys2Proof.Laws
end

section
/-! Moves between fibres and vectors (10 R214, R215, R384), and the entries that a fibre keeps where an instruction goes on (R39, R205). -/

namespace Sys2Proof.Laws

set_option Elab.async false

open Sys2Proof Sys2Proof.Machine Sys2Proof.Claim

variable {s u : State} {a d : QNum} {i : Instr}

/-! ### Entries kept (R39, R52, R205) -/

/-- Entries 0 to PO − 1 of a fibre that goes on under a tag. -/
structure Kept (old : QReg) (t : Tag) (po : Nat) (kept : List (Nat × Nat)) : Prop where
  length : kept.length = po
  stay : ∀ j, j < po → j < old.entries.length → kept[j]? = (old.entries[j]?).map (narrowed t)
  zero : old.fresh = true → ∀ j, j < po → old.entries.length ≤ j → kept[j]? = some (0, 0)

/-- A state with another counter of free values. -/
def withFree (c : Nat) (s : State) : State := { s with freeCtr := c }

/-- What a fibre keeps, whatever is put behind it. -/
theorem kept_append {old : QReg} {t : Tag} {po : Nat} {more : List (Nat × Nat)}
    (hlen : ((old.entries.take po).map (narrowed t) ++ more).length = po)
    (hzero : old.fresh = true → ∀ j < more.length, more[j]? = some (0, 0)) :
    Kept old t po ((old.entries.take po).map (narrowed t) ++ more) := by
  have hfirst : ((old.entries.take po).map (narrowed t)).length = min po old.entries.length := by simp
  refine ⟨hlen, fun j hj hin => ?_, fun hfresh j hj hout => ?_⟩
  · rw [List.getElem?_append_left (by omega), List.getElem?_map, List.getElem?_take_of_lt hj]
  · rw [List.length_append] at hlen
    rw [List.getElem?_append_right (by omega)]
    exact hzero hfresh _ (by omega)

theorem keepEntries_says (s : State) (d : QNum) (po : Nat) (t : Tag) :
    ∃ kept c, s.keepEntries d po t = (kept, withFree c s) ∧ Kept (fibre s d) t po kept := by
  have hfirst : (((fibre s d).entries.take po).map (narrowed t)).length = min po (fibre s d).entries.length := by simp
  unfold State.keepEntries
  dsimp only
  rw [show (((s.q d).entries.take po).map fun e => (e.1, narrowValue t e.2)) = ((fibre s d).entries.take po).map (narrowed t) from rfl,
    show (s.q d).fresh = (fibre s d).fresh from rfl]
  split
  · next hfull =>
    refine ⟨_, s.freeCtr, rfl, ?_⟩
    have hkept := kept_append (old := fibre s d) (t := t) (po := po) (more := []) (by rwa [List.append_nil]) fun _ j hj => by cases hj
    rwa [List.append_nil] at hkept
  · split
    · refine ⟨_, s.freeCtr, rfl, kept_append (by simp) fun _ j hj => ?_⟩
      exact List.getElem?_replicate_of_lt (by rwa [List.length_replicate] at hj)
    · next hstale => exact ⟨_, s.freeCtr + 1, rfl, kept_append (by simp) fun hfresh => absurd hfresh hstale⟩

/-- A fibre that goes on from what it keeps. -/
theorem Kept.appended {old : QReg} {t : Tag} {po : Nat} {kept : List (Nat × Nat)} (h : Kept old t po kept) (out : List (Nat × Nat))
    (sorted poison fresh : Bool) : appended old ⟨kept ++ out, t, sorted, poison, fresh⟩ po out := by
  have hin {j : Nat} (hj : j < po) : (kept ++ out)[j]? = kept[j]? := List.getElem?_append_left (h.length.symm ▸ hj)
  refine ⟨⟨fun j hj hold => (hin hj).trans (h.stay j hj hold), fun hfresh j hj hold => (hin hj).trans (h.zero hfresh j hj hold), ?_⟩, ?_⟩
  · show po ≤ (kept ++ out).length
    rw [List.length_append, h.length]
    omega
  · exact List.drop_left' h.length

/-! ### Checks -/

theorem groupsOk_ok {o : Operands} (hr : ready s u o) {gs : List Grp} (hgs : ∀ g ∈ gs, g ∈ o.srcs ++ o.dsts) : s.groupsOk gs = .ok () := by
  obtain ⟨-, hgroups, -⟩ := hr
  have haligned : gs.all Grp.aligned = true := List.all_eq_true.2 fun g hg => by
    unfold Grp.aligned
    simp [(hgroups g (hgs g hg)).2]
  have hfits : gs.all Grp.fits = true := List.all_eq_true.2 fun g hg => by
    unfold Grp.fits
    simp [(hgroups g (hgs g hg)).1]
  unfold State.groupsOk State.require
  rw [haligned, hfits]
  rfl

/-- An instruction that checks its groups before anything else, with all its checks passed. -/
theorem grouped_run {o : Operands} (hr : ready s u o) (hne : o.srcs ++ o.dsts ≠ []) {gs : List Grp} (hgs : ∀ g ∈ gs, g ∈ o.srcs ++ o.dsts)
    {flt : List (Bool × Nat)} (hf : (∀ b ∈ o.faults, b = false) → ∀ p ∈ flt, p.1 = false) (f : State → Run State) :
    finish (do s.needRef; s.groupsOk gs; let v ← s.prepare o.srcs o.dsts o.masks o.usesMask o.len flt; f v) = finish (f u) := by
  rw [groupsOk_ok hr hgs]
  exact checked_run hr hne hf f

/-! ### From a fibre into a vector (R215) -/

theorem fibreTag_eq (s : State) (k : QReg) : s.fibreTag k = takenTag s k := by
  unfold State.fibreTag takenTag QReg.n
  simp only [List.length_eq_zero_iff]

/-- An element after a list of writes: the last one to its place is what stands. -/
theorem elemAt_putElems (b : Nat) (l : List (Nat × Nat)) (v j : Nat) :
    elemAt (putElems v b l) b j = ((l.reverse.find? fun e => e.1 == j).map fun e => e.2 % 2 ^ b).getD (elemAt v b j) := by
  induction l using List.reverseRecOn with
  | nil => rfl
  | append_singleton l e ih =>
    have hlast : putElems v b (l ++ [e]) = setBitsAt (putElems v b l) (e.1 * b) b e.2 := List.foldl_append ..
    rw [hlast, elem_setBits, List.reverse_append, List.reverse_singleton, List.singleton_append, List.find?_cons]
    by_cases he : e.1 = j
    · simp [he]
    · rw [if_neg (Ne.symm he), ih, beq_eq_false_iff_ne.2 he]

/-- A group after a list of writes to some places. -/
theorem wrote_last (u : State) {g : Grp} (hg : g.base + g.n ≤ 32) (t : Tag) {l : List (Nat × Nat)} {acts : List Nat} {value : Nat → Nat}
    (hacts : ∀ j ∈ acts, ∃ e, (l.reverse.find? fun e => e.1 == j) = some e ∧ e.2 = value j)
    (hothers : ∀ j, j ∉ acts → ∀ e ∈ l, e.1 ≠ j) : wroteElements u (u.writeGroup g (some t) l) g t acts value := by
  refine ⟨fun j hj hw => ?_, fun j hj hw => ?_, fun r => ?_⟩
  · obtain ⟨e, he, hv⟩ := hacts j hj
    rw [element_writeGroup _ _ _ _ hg _ hw, elemAt_putElems, he, ← hv]
    rfl
  · have hnone : (l.reverse.find? fun e => e.1 == j) = none := List.find?_eq_none.2 fun e he => by
      simpa using hothers j hj e (List.mem_reverse.1 he)
    rw [element_writeGroup _ _ _ _ hg _ hw, elemAt_putElems, hnone]
    rfl
  · have hhas : (g.base ≤ r.val ∧ r.val < g.base + g.n) ↔ g.has r.val = true := by simp [Grp.has]
    rw [writeGroup_reg _ _ _ _ _ r.isLt]
    simp only [hhas]
    split <;> rfl

/-- The writes of `qexpand`: zeros, then the values of the coordinates from x to x + n − 1. -/
def expanded (x n : Nat) (l : List (Nat × Nat)) : List (Nat × Nat) :=
  (List.range n).map (fun j => (j, 0)) ++ (l.filter fun e => decide (x ≤ e.1) && decide (e.1 < x + n)).map fun e => (e.1 - x, e.2)

theorem expanded_last (x : Nat) (l : List (Nat × Nat)) {n j : Nat} (hj : j < n) :
    ∃ e, ((expanded x n l).reverse.find? fun e => e.1 == j) = some e ∧
      e.2 = ((l.reverse.find? fun e => e.1 == x + j).map Prod.snd).getD 0 := by
  have hzero : (((List.range n).map fun j => (j, 0)).reverse.find? fun e => e.1 == j) = some (j, 0) := by
    cases hfind : ((List.range n).map fun j => (j, 0)).reverse.find? fun e => e.1 == j with
    | none => simpa using List.find?_eq_none.1 hfind (j, 0) (by simpa using hj)
    | some e =>
      obtain ⟨k, -, rfl⟩ := List.mem_map.1 (List.mem_reverse.1 (List.mem_of_find?_eq_some hfind))
      rw [show k = j by simpa using List.find?_some hfind]
  have hvalue : (((l.filter fun e => decide (x ≤ e.1) && decide (e.1 < x + n)).map fun e => (e.1 - x, e.2)).reverse.find? fun e => e.1 == j) =
      (l.reverse.find? fun e => e.1 == x + j).map fun e => (e.1 - x, e.2) := by
    rw [← List.map_reverse, ← List.filter_reverse, List.find?_map, List.find?_filter]
    congr 2
    funext e
    rw [Bool.eq_iff_iff]
    simp
    omega
  unfold expanded
  rw [List.reverse_append, List.find?_append, hvalue, hzero]
  cases l.reverse.find? fun e => e.1 == x + j with
  | none => exact ⟨_, rfl, rfl⟩
  | some e => exact ⟨_, rfl, rfl⟩

theorem expanded_place {x n : Nat} {l : List (Nat × Nat)} {e : Nat × Nat} (he : e ∈ expanded x n l) : e.1 < n := by
  rcases List.mem_append.1 he with he | he
  · obtain ⟨j, hj, rfl⟩ := List.mem_map.1 he
    exact List.mem_range.1 hj
  · obtain ⟨c, hc, rfl⟩ := List.mem_map.1 he
    have hrange := (List.mem_filter.1 hc).2
    rw [Bool.and_eq_true, decide_eq_true_eq, decide_eq_true_eq] at hrange
    dsimp only
    omega

/-- A move from a fibre whose operands are in order: elements of a group are written, and VSI is 0. -/
theorem fibreToVec_runs {d : VNum} {w : Tag} (hr : ready s s ⟨[], [groupOf s d w], [], false, 0, [Claim.noScale s, noElements w]⟩)
    (hp : (fibre s a).poison = false) {t : State → QReg → Tag} (ht : t s (fibre s a) = w) (f : State → QReg → List (Nat × Nat)) :
    fibreToVec a d t f s = .next ((s.writeGroup (groupOf s d w) (some w) (f s (fibre s a))).setVsi 0).retire := by
  have htag := vcfgTag_of_ready hr (List.mem_cons_self ..)
  unfold fibreToVec
  dsimp only
  rw [show s.q a = fibre s a from rfl, ht, group_eq _ _ _ htag]
  refine (grouped_run hr (List.cons_ne_nil _ _) (fun g hg => hg) ?_ _).trans ?_
  · simp [State.noScale, Claim.noScale, untyped, noElements]
  · rw [fibresOk_one hp]
    rfl

/-- What such a move leaves. -/
theorem vector_written {g : Grp} {w : Tag} {l : List (Nat × Nat)} {acts : List Nat} {value : Nat → Nat}
    (h : wroteElements s (s.writeGroup g (some w) l) g w acts value) : let t := ((s.writeGroup g (some w) l).setVsi 0).retire
    wroteElements s t g w acts value ∧ t.hart.vsi = 0 ∧ goesOn s t ∧ sameMemory s t ∧
      t = { s with hart := { s.hart with v := t.hart.v, vsi := 0, pc := t.hart.pc, instret := t.hart.instret } } := by
  rw [writeGroup_rec] at h ⊢
  generalize (s.writeGroup g (some w) l).hart.v = regs at *
  exact ⟨wrote_congr (t := { s with hart := { s.hart with v := regs } }) rfl rfl h, rfl, ⟨rfl, rfl⟩, ⟨fun _ => rfl, fun _ => rfl⟩, rfl⟩

/-- The first entries of a fibre, numbered. -/
theorem zipIdx_take (f : Nat × Nat → Nat) (n : Nat) (l : List (Nat × Nat)) : (l.take n).zipIdx.map (fun e => (e.2, f e.1)) =
    (List.range (min l.length n)).map fun j => (j, f ((l[j]?).getD (0, 0))) :=
  List.ext_getElem (by simp [Nat.min_comm]) fun j hj _ => by
    have hin : j < l.length := by simp at hj; omega
    simp [hin]

theorem fromFibre_completes {g : Grp} {w : Tag} {acts : List Nat} {value : Nat → Nat} (h : fromFibre s i = some (a, g, w, acts, value))
    (hp : (fibre s a).poison = false) (hr : ready s s ⟨[], [g], [], false, 0, [Claim.noScale s, noElements w]⟩) :
    ∃ l, exec i s = .next ((s.writeGroup g (some w) l).setVsi 0).retire ∧ wroteElements s (s.writeGroup g (some w) l) g w acts value := by
  cases i with
  | qexpand b v d =>
    cases h
    refine ⟨expanded (s.x v).toNat s.hart.vl (fibre s a).entries, ?_, wrote_last s (group_end_of_ready hr (List.mem_cons_self ..)) _ ?_ ?_⟩
    · show execQexpand a v d s = _
      unfold execQexpand
      dsimp only
      exact fibreToVec_runs hr hp (fibreTag_eq s _) _
    · exact fun j hj => expanded_last _ _ (List.mem_range.1 hj)
    · rintro j hj e he rfl
      exact hj (List.mem_range.2 (expanded_place he))
  | qcoord b d =>
    cases h
    refine ⟨_, ?_, wrote_self s _ _ _ _ (group_end_of_ready hr (List.mem_cons_self ..))⟩
    rw [← zipIdx_take Prod.fst]
    show execQcoord a d s = _
    unfold execQcoord
    exact fibreToVec_runs hr hp rfl _
  | qval b d =>
    cases h
    refine ⟨_, ?_, wrote_self s _ _ _ _ (group_end_of_ready hr (List.mem_cons_self ..))⟩
    rw [← zipIdx_take Prod.snd]
    show execQval a d s = _
    unfold execQval
    exact fibreToVec_runs hr hp (fibreTag_eq s _) _
  | _ => cases h

/-! ### From a vector into a fibre (R215) -/

/-- The entries that `fromVec` makes: of the elements that are due, those for which there is room, and the first one for which there is
none. -/
theorem fromVec_eq (all : Bool) (t : Tag) (f : Nat → Nat) (x room n j : Nat) {po : Nat} (hpo : po ≤ room) :
    let due := (List.range' j n).filter fun k => all || !isZeroValue t (f k)
    fromVec all t f x room n j po = ((due.take (room - po)).map fun k => (x + k, f k), due[room - po]?) := by
  induction n generalizing j po with
  | zero => simp [fromVec]
  | succ n ih =>
    unfold fromVec
    rw [List.range'_succ, List.filter_cons]
    show (if (all || !isZeroValue t (f j)) = true then _ else _) = _
    split
    · next hdue =>
      split
      · next hfull =>
        subst hfull
        simp
      · next hroom =>
        rw [ih (j + 1) (show po + 1 ≤ room by omega), show room - po = room - (po + 1) + 1 by omega]
        rfl
    · exact ih (j + 1) hpo

/-- A state with other fibres, QPOS and condition bits, and another counter of free values. -/
def refilled (u : State) (fc : Nat) (q : Vector QReg 8) (p : Qpos) (cs : Vector Bool 8) : State :=
  { u with freeCtr := fc, hart := { u.hart with q := q, qpos := p, c := cs } }

theorem refilled_eq (u : State) (fc : Nat) (d : QNum) (k : QReg) (p : Qpos) (b : Bool) :
    (((withFree fc u).setQ d k).setQpos p).setC 7 b =
      refilled u fc (u.hart.q.set d.val { k with fresh := false }) p (u.setC 7 b).hart.c := rfl

/-- The state in which a move from a vector ends, with its bound source moved on. -/
def refilledDone (u : State) (g : Grp) (fc : Nat) (q : Vector QReg 8) (p : Qpos) (cs : Vector Bool 8) : State :=
  { u with
    freeCtr := fc
    hart := { u.hart with
      q := q, qpos := p, c := cs, vsi := 0, streams := (u.advance (u.boundBy [g])).hart.streams, pc := u.hart.pc + u.len
      instret := u.hart.instret + 1 } }

theorem vdone_refilled (u : State) (g : Grp) (fc : Nat) (q : Vector QReg 8) (p : Qpos) (cs : Vector Bool 8) :
    (refilled u fc q p cs).vdone [g] = refilledDone u g fc q p cs := by
  unfold State.vdone
  rfl

theorem delivered_fibres (h : Delivered s u) : u.hart.q = s.hart.q := by
  obtain ⟨_, _, _, _, _, _, _, _, _, rfl⟩ := h; rfl

theorem delivered_qpos (h : Delivered s u) : u.hart.qpos = s.hart.qpos := by
  obtain ⟨_, _, _, _, _, _, _, _, _, rfl⟩ := h; rfl

theorem delivered_ge (h : Delivered s u) : u.hart.ge = s.hart.ge := by
  obtain ⟨_, _, _, _, _, _, _, _, _, rfl⟩ := h; rfl

theorem delivered_c (h : Delivered s u) : u.hart.c = s.hart.c := by
  obtain ⟨_, _, _, _, _, _, _, _, _, rfl⟩ := h; rfl

theorem onlyC7_set (u : State) (b : Bool) : onlyC7 u (u.setC 7 b) b :=
  ⟨(c_setC u 7 7 b).trans (if_pos rfl), fun r hr => (c_setC u 7 r b).trans (if_neg hr)⟩

/-- What a move from a vector leaves once it has written its fibre. -/
theorem refilled_says (hdel : Delivered s u) (g : Grp) (c : Nat) (d : QNum) (k : QReg) (p : Qpos) (b : Bool) :
    let t := refilledDone u g c (u.hart.q.set d.val { k with fresh := false }) p (u.setC 7 b).hart.c
    fibre t d = { k with fresh := false } ∧ onlyFibre s t d ∧ t.hart.qpos = p ∧ onlyC7 s t b ∧ t.hart.vsi = 0 ∧
      movedOn s [g] t.hart.streams ∧ goesOn s t ∧ sameMemory u t ∧
      t = { u with freeCtr := t.freeCtr, hart := { u.hart with
        q := t.hart.q, qpos := t.hart.qpos, c := t.hart.c, vsi := 0, streams := t.hart.streams, pc := t.hart.pc
        instret := t.hart.instret } } := by
  obtain ⟨-, -, -, hpc, hinstret, hbound, -⟩ := hdel.keeps
  have hstreams := advance_movedOn s u [g] hdel
  rw [← hbound] at hstreams
  intro t
  have hq : t.hart.q = s.hart.q.set d.val { k with fresh := false } := by rw [← delivered_fibres hdel]; rfl
  obtain ⟨hfibre, honly⟩ := fibre_of_set hq
  have hc : onlyC7 u t b := onlyC7_set u b
  refine ⟨hfibre, honly, rfl, ?_, rfl, hstreams, ⟨hpc, congrArg (· + 1) hinstret⟩, ⟨fun _ => rfl, fun _ => rfl⟩, rfl⟩
  unfold onlyC7 State.c at hc ⊢
  rwa [delivered_c hdel] at hc

theorem filter_from (pa n : Nat) : ((List.range n).filter fun j => decide (pa ≤ j)) = List.range' pa (n - pa) := by
  rw [← range_filter, List.range'_eq_map_range]
  exact List.map_congr_left fun j _ => Nat.add_comm ..

/-- The elements due from PA on, as a stretch of them. -/
theorem due_eq (pa n : Nat) (p : Nat → Bool) :
    ((List.range n).filter fun j => decide (pa ≤ j) && p j) = (List.range' pa (n - pa)).filter p := by
  rw [← filter_from, List.filter_filter]
  exact List.filter_congr fun j _ => Bool.and_comm ..

theorem poBad_off (h : s.hart.qpos.po ≤ 128 * s.hart.ge) : s.poBad = (false, 5) := by
  unfold State.poBad Hart.fcap
  rw [decide_eq_false (Nat.not_lt.2 h)]

/-- `qfromv` and `qfromv.all` with their operands in order. -/
theorem vecToFibre_runs {all : Bool} {v : XReg} {a : VNum} (hlimit : s.hart.limit = none)
    (hr : ready s u ⟨[groupOf s a (tagOf s a)], [], [], false, 0,
      [Claim.noScale s, noElements (tagOf s a), decide (4096 < s.hart.vl), decide (2 ^ 32 < (s.x v).toNat + s.hart.vl),
        decide (128 * s.hart.ge < s.hart.qpos.po)]⟩) :
    let w := tagOf s a
    let g := groupOf s a w
    let p := s.hart.qpos
    let due := (List.range s.hart.vl).filter fun j => decide (p.pa ≤ j) && (all || !isZeroValue w (element u g j))
    let room := 128 * s.hart.ge - p.po
    ∃ kept c poison, Kept (fibre s d) w p.po kept ∧ vecToFibre all d v a s =
      .next (refilledDone u g c
        (u.hart.q.set d.val ⟨kept ++ (due.take room).map fun j => ((s.x v).toNat + j, element u g j), w, true, poison, false⟩)
        (match due[room]? with | some j => ⟨0, p.pb, j⟩ | none => ⟨0, 0, 0⟩) (u.setC 7 (due[room]?).isSome).hart.c) := by
  intro w g p due room
  have htag := vcfgTag_of_ready hr (List.mem_cons_self ..)
  have hdel := delivered_of_ready hr
  obtain ⟨hvl, -, -, -, -, -, hx⟩ := hdel.keeps
  have hpo : p.po ≤ 128 * s.hart.ge := by
    have hoff := faults_off hr (decide (128 * s.hart.ge < p.po)) (by simp [p])
    simpa using hoff
  obtain ⟨kept, c, hkeep, hkept⟩ := keepEntries_says u d p.po w
  have hq : fibre u d = fibre s d := by unfold fibre; rw [delivered_fibres hdel]
  have hshare : (withFree c u).entryShare p.pa s.hart.vl = (s.hart.vl - p.pa, false) := by
    unfold State.entryShare
    rw [show (withFree c u).hart.limit = u.hart.limit from rfl, delivered_limit hdel, hlimit]
  have hloop := fromVec_eq all w (element u g) (s.x v).toNat (128 * s.hart.ge) (s.hart.vl - p.pa) p.pa hpo
  rw [← due_eq] at hloop
  have helem : elemAt ((withFree c u).bitsOf g) g.bits = element u g := by
    funext j
    unfold element State.bitsOf
    rw [storage_congr (s := u) (t := withFree c u) rfl rfl]
  refine ⟨kept, c, (u.q d).keepsPoison p.po, hq ▸ hkept, ?_⟩
  unfold vecToFibre
  dsimp only
  rw [show s.vtagOf a = w from rfl, group_eq _ _ _ htag]
  refine (grouped_run hr (List.cons_ne_nil _ _) (fun q hq => by simpa using hq) ?_ _).trans ?_
  · rw [poBad_off hpo]
    simp [w, State.noScale, Claim.noScale, untyped, noElements]
    tauto
  · rw [delivered_qpos hdel, hkeep]
    dsimp only
    rw [hshare]
    dsimp only
    rw [helem, show (withFree c u).hart.fcap = 128 * u.hart.ge from rfl, delivered_ge hdel, hloop]
    cases due[room]? with
    | none => exact congrArg Host.Outcome.next (vdone_refilled u g c _ ⟨0, 0, 0⟩ _)
    | some j => exact congrArg Host.Outcome.next (vdone_refilled u g c _ ⟨0, p.pb, j⟩ _)

theorem toFibre_completes {all : Bool} {v : XReg} {a : VNum} (h : toFibre i = some (all, d, v, a)) : exec i s = vecToFibre all d v a s := by
  cases i with
  | qfromv | qfromvAll => cases h; rfl
  | _ => cases h

/-- Settles O35, by its two directions: from a fibre into a vector, and from a vector into a fibre. -/
theorem fibreVectors : Obligations.FibreVectors := by
  refine ⟨fun s i a g w acts value h hp hr => ?_, fun s u i all d v a h => ?_⟩
  · obtain ⟨l, hexec, hwrote⟩ := fromFibre_completes h hp hr
    exact ⟨_, hexec, vector_written hwrote⟩
  · intro w g x p hlimit hr due room
    obtain ⟨kept, c, poison, hkept, hexec⟩ := vecToFibre_runs (d := d) (all := all) hlimit hr
    obtain ⟨hfibre, hrest⟩ := refilled_says (delivered_of_ready hr) g c d
      ⟨kept ++ (due.take room).map fun j => (x + j, element u g j), w, true, poison, false⟩
      (match due[room]? with | some j => ⟨0, p.pb, j⟩ | none => ⟨0, 0, 0⟩) (due[room]?).isSome
    refine ⟨_, (toFibre_completes h).trans hexec, ?_⟩
    rw [hfibre]
    exact ⟨hkept.appended _ _ _ _, rfl, rfl, hrest⟩

end Sys2Proof.Laws
end

section
/-! Loads and walks of fibres (10 R207, R208): accesses of two widths, one after another, between which values may be drawn that
nothing defines (R39). -/

namespace Sys2Proof.Laws

set_option Elab.async false

open Sys2Proof Sys2Proof.Machine Sys2Proof.Claim

variable {n s t u : State}

/-! ### Translations and other devices' memory -/

/-- Two states apart in what stands outside this device's HBM4, the poison, the cached remote lines and the counter of free values
only. -/
structure AlikeHere (s t : State) : Prop where
  parts : ∃ mem poison R c, t = { s with mem := mem, poison := poison, rcache := R, freeCtr := c }
  mem : ∀ a < Config.hbmBytes, Memory.read t.mem a = Memory.read s.mem a

theorem AlikeHere.refl (s : State) : AlikeHere s s := ⟨⟨_, _, _, _, rfl⟩, fun _ _ => rfl⟩

theorem AlikeHere.trans (h : AlikeHere s t) (k : AlikeHere t u) : AlikeHere s u := by
  refine ⟨?_, fun a ha => (k.mem a ha).trans (h.mem a ha)⟩
  obtain ⟨_, _, _, _, rfl⟩ := h.parts
  obtain ⟨_, _, _, _, rfl⟩ := k.parts
  exact ⟨_, _, _, _, rfl⟩

theorem alikeHere_withFree (c : Nat) (s : State) : AlikeHere s (withFree c s) := ⟨⟨_, _, _, _, rfl⟩, fun _ _ => rfl⟩

theorem alikeHere_withLines (F : List RLine) (s : State) : AlikeHere s (withLines F s) := ⟨⟨_, _, _, _, rfl⟩, fun _ _ => rfl⟩

/-- Bytes go out to other devices only. -/
theorem alikeHere_near (s : State) (l : Loc) : AlikeHere s (near s l) := by
  refine ⟨?_, fun a ha => (alikeAt_near_other s fun b _ hr he => ?_).mem a rfl⟩
  · obtain ⟨_, _, _, h⟩ := relined_near s l
    exact ⟨_, _, _, _, h⟩
  · rw [remote_iff] at hr
    have : Config.hbmBytes ≤ 2 ^ 50 := by decide
    omega

theorem alikeHere_nearAll (s : State) (ls : List Loc) : AlikeHere s (nearAll s ls) := by
  induction ls generalizing s with
  | nil => exact .refl s
  | cons l ls ih => exact (alikeHere_near s l).trans (ih _)

theorem readN_congr {m m' : List Host.Cell} {a n : Nat} (h : ∀ k < n, Memory.read m' (a + k) = Memory.read m (a + k)) :
    Memory.readN m' a n = Memory.readN m a n :=
  (eq_foldr_bytes (fun k => Memory.read m (a + k)) n _ (readN_lt ..) fun k hk => (byte_readN _ _ _ _ hk).trans (h k hk)).trans
    (eq_foldr_bytes (fun k => Memory.read m (a + k)) n _ (readN_lt ..) fun _ hk => byte_readN _ _ _ _ hk).symm

/-- The tables of translation stand in this device's HBM4 (R334). -/
theorem AlikeHere.tableEntry (h : AlikeHere s t) (c : Ctx) (va sh table : Nat) : t.tableEntry c va sh table = s.tableEntry c va sh table := by
  obtain ⟨⟨mem, poison, R, f, rfl⟩, hmem⟩ := h
  by_cases hr : s.inRange c.part table 32768 = true
  · have hword : Memory.readN mem (table + 8 * bitsAt va sh 12) 8 = Memory.readN s.mem (table + 8 * bitsAt va sh 12) 8 := by
      refine readN_congr fun k hk => hmem _ ?_
      have hindex : bitsAt va sh 12 < 2 ^ 12 := Nat.mod_lt _ (by norm_num)
      unfold State.inRange at hr
      simp only [Bool.and_eq_true, decide_eq_true_eq] at hr
      omega
    unfold State.tableEntry
    rw [hword]
    rfl
  · have hno : (!s.inRange c.part table 32768) = true := by simpa using hr
    exact (if_pos hno).trans (if_pos hno).symm

theorem AlikeHere.walk (h : AlikeHere s t) (c : Ctx) (k : Access) (va : Nat) (lv : List (Nat × Nat)) (table : Nat) :
    t.walk c k va lv table = s.walk c k va lv table := by
  induction lv generalizing table with
  | nil => rfl
  | cons p lv ih =>
    rw [State.walk, State.walk, h.tableEntry]
    simp only [ih]

theorem AlikeHere.hart (h : AlikeHere s t) : t.hart = s.hart := by obtain ⟨_, _, _, _, rfl⟩ := h.parts; rfl

theorem AlikeHere.resolveIn (h : AlikeHere s t) (k : Access) (va n align : Nat) :
    t.resolveIn t.hart.ctx k va n align = s.resolveIn s.hart.ctx k va n align := by
  have hcached : t.cached s.hart.ctx va = s.cached s.hart.ctx va := by obtain ⟨_, _, _, _, rfl⟩ := h.parts; rfl
  have hroot : t.rootOf s.hart.ctx = s.rootOf s.hart.ctx := by obtain ⟨_, _, _, _, rfl⟩ := h.parts; rfl
  unfold State.resolveIn State.translate State.lookup
  simp only [h.hart, hcached, hroot, h.walk]

/-! ### Free values, which no access looks at -/

theorem sendBytes_withFree (c line : Nat) (ds : List Dirty) (s : State) :
    ds.foldl (fun s d => s.sendByte line d) (withFree c s) = withFree c (ds.foldl (fun s d => s.sendByte line d) s) := by
  induction ds generalizing s with
  | nil => rfl
  | cons d ds ih =>
    rw [List.foldl_cons, List.foldl_cons, ← ih]
    congr 1
    unfold State.sendByte State.putLoc
    cases d.half <;> rfl

theorem writeBack_withFree (c : Nat) (s : State) (l : RLine) : (withFree c s).writeBack l = withFree c (s.writeBack l) := by
  cases h : stuck s l with
  | true => rw [writeBack_stuck h, writeBack_stuck (show stuck (withFree c s) l = true from h)]
  | false =>
    rw [writeBack_sent h, writeBack_sent (show stuck (withFree c s) l = false from h), sendBytes_withFree]
    rfl

theorem settle_withFree (c : Nat) (s : State) (hid a : Nat) : (withFree c s).settle hid a = withFree c (s.settle hid a) := by
  rw [settle_eq, settle_eq, show waitedFor (withFree c s) hid a = waitedFor s hid a from rfl]
  generalize waitedFor s hid a = ls
  induction ls generalizing s with
  | nil => rfl
  | cons l ls ih => rw [List.foldl_cons, List.foldl_cons, writeBack_withFree, ih]

theorem near_withFree (c : Nat) (s : State) (l : Loc) : near (withFree c s) l = withFree c (near s l) := by
  cases l with
  | spad i => rfl
  | phys a =>
    by_cases hr : ∃ d o, targetOf a = .remote d o
    · rw [near_remote hr, near_remote hr, apply_ite (withFree c), ← settle_withFree]
      rfl
    · rw [near_local _ a hr, near_local _ a hr]

theorem nearAll_withFree (c : Nat) (s : State) (ls : List Loc) : nearAll (withFree c s) ls = withFree c (nearAll s ls) := by
  induction ls generalizing s with
  | nil => rfl
  | cons l ls ih => exact (congrArg (nearAll · ls) (near_withFree c s l)).trans (ih _)

theorem wordIn_withFree (c : Nat) (u : State) (w : Nat) (p : Word × Loc) : wordIn (withFree c u) w p = wordIn u w p := by
  unfold wordIn
  rw [near_withFree]
  rfl

theorem mayRead_withFree (c : Nat) {w : Nat} {p : Word × Loc} (h : mayRead s w p) : mayRead (withFree c s) w p := h

theorem Ahead.withFree (h : Ahead n s) (c : Nat) : Ahead (withFree c n) (Laws.withFree c s) := by
  obtain ⟨⟨F, rfl, hF⟩, hseen⟩ := h
  refine ⟨⟨F, rfl, fun f hf => ?_⟩, hseen⟩
  obtain ⟨hclean, hholder, haligned, hquiet⟩ := hF f hf
  exact ⟨hclean, hholder, haligned, hquiet⟩

/-! ### What reads leave readable -/

/-- What an ordinary read leaves: what could be read still can, at any width. -/
theorem mayRead_of_readAt {l : Loc} {va w v : Nat} (h : s.readAt .cached l va w = .ok (v, t)) {m : Nat} {q : Word × Loc}
    (hq : mayRead s m q) : mayRead t m q := by
  obtain ⟨htake, hread⟩ := hq
  have hplace : t.hart.place = s.hart.place := co_core (co_readAt h)
  obtain ⟨F, hF, hfill⟩ := readAt_adds h
  refine ⟨?_, ?_⟩
  · rw [hplace]
    refine targetTakes_kept (co_readAt h) (fun _ core b hc => ?_) htake
    rw [hF]
    exact copyOf_isSome_withLines F (by rwa [copyOf_near])
  · have hnear := readable_near hread l
    rw [hF]
    rcases hfill with rfl | ⟨b, rfl, _, hfill⟩
    · exact hnear
    · exact hfill.readable hnear

theorem readWords_of_readElem {w : Nat} {ps : List (Word × Loc)} {r : List Nat × State} (h : s.readElem w ps = .ok r) :
    s.admitWords .load w true ps = .ok () ∧ s.readWords w ps = .ok r := by
  have hparts : (s.admitWords .load w true ps >>= fun _ => s.readWords w ps) = .ok r := h
  cases hadmit : s.admitWords .load w true ps with
  | error e => rw [hadmit] at hparts; cases hparts
  | ok => rw [hadmit] at hparts; exact ⟨rfl, hparts⟩

/-- A word read, with the open strip's own bytes over it (R106). -/
theorem readAt_of_readWords {w : Nat} {p : Word × Loc} {vs : List Nat} (h : s.readWords w [p] = .ok (vs, t)) :
    ∃ v, s.readAt .cached p.2 p.1.toNat w = .ok (v, t) ∧ vs = [t.laid p.2 p.1.toNat w v] := by
  obtain ⟨a, l⟩ := p
  have hwords : (s.readAt .cached l a.toNat w >>= fun r => .ok ([r.2.laid l a.toNat w r.1], r.2)) = Except.ok (vs, t) := h
  cases hread : s.readAt .cached l a.toNat w with
  | error e => rw [hread] at hwords; cases hwords
  | ok r =>
    rw [hread] at hwords
    obtain ⟨v, v'⟩ := r
    cases hwords
    exact ⟨v, rfl, rfl⟩

/-- Two words of one element are read one after the other. -/
theorem readElem_pair {w : Nat} {p q : Word × Loc} {vs ws : List Nat} (hp : s.readElem w [p] = .ok (vs, t))
    (hq : t.readElem w [q] = .ok (ws, u))
    (htake : s.targetTakes s.hart.place.part .load q.2 q.1.toNat w true = .ok ()) : s.readElem w [p, q] = .ok (vs ++ ws, u) := by
  obtain ⟨hadmit, hwords⟩ := readWords_of_readElem hp
  obtain ⟨v, hread, rfl⟩ := readAt_of_readWords hwords
  have hrest := (readWords_of_readElem hq).2
  obtain ⟨a, l⟩ := p
  obtain ⟨b, m⟩ := q
  have hboth : s.admitWords .load w true [(a, l), (b, m)] = .ok () := by
    have hfirst : (s.targetTakes s.hart.place.part .load l a.toNat w true >>= fun _ => Except.ok ()) = .ok () := hadmit
    show (s.targetTakes s.hart.place.part .load l a.toNat w true >>= fun _ =>
      s.targetTakes s.hart.place.part .load m b.toNat w true >>= fun _ => Except.ok ()) = _
    rw [htake]
    exact hfirst
  show (s.admitWords .load w true [(a, l), (b, m)] >>= fun _ => s.readWords w [(a, l), (b, m)]) = _
  rw [hboth]
  show (s.readAt .cached l a.toNat w >>= fun r => r.2.readWords w [(b, m)] >>= fun x => .ok (r.2.laid l a.toNat w r.1 :: x.1, x.2)) = _
  rw [hread]
  show (t.readWords w [(b, m)] >>= fun x => _) = _
  rw [hrest]
  rfl

/-- Reads of a hart have led from a state to another, having found their locations there one after another. -/
structure Reads (u : State) (pre : List Loc) (v : State) : Prop where
  ahead : Ahead (nearAll u pre) v
  may : ∀ w q, mayRead u w q → mayRead v w q

theorem Reads.refl (u : State) : Reads u [] u := ⟨.refl u, fun _ _ h => h⟩

theorem nearAll_append (u : State) (ls : List Loc) (l : Loc) : nearAll u (ls ++ [l]) = near (nearAll u ls) l := by
  unfold nearAll; rw [List.foldl_append]; rfl

theorem sound_nearAll (hs : Safety.Sound u) (ls : List Loc) : Safety.Sound (nearAll u ls) := by
  induction ls generalizing u with
  | nil => exact hs
  | cons l ls ih => exact ih (sound_near hs l)

theorem wordIn_nearAll (hs : Safety.Sound u) {w : Nat} (hw : w ∣ 8) {p : Word × Loc} (ha : ∀ a, p.2 = .phys a → a % w = 0) (ls : List Loc) :
    wordIn (nearAll u ls) w p = wordIn u w p := by
  induction ls generalizing u with
  | nil => rfl
  | cons l ls ih => exact (ih (sound_near hs l)).trans (wordIn_near hs hw ha l)

theorem Reads.withFree {pre : List Loc} {v : State} (h : Reads u pre v) (c : Nat) : Reads (withFree c u) pre (Laws.withFree c v) := by
  refine ⟨?_, fun w q hq => mayRead_withFree c (h.may w q hq)⟩
  rw [nearAll_withFree]
  exact h.ahead.withFree c

/-- One word more is read: as the hart sees it before them all. -/
theorem Reads.word {pre : List Loc} {v : State} (h : Reads u pre v) (hs : Safety.Sound u) {w : Nat} (hw : w ∣ 8) {p : Word × Loc}
    (ha : ∀ a, p.2 = .phys a → a % w = 0) (hp : mayRead u w p) :
    ∃ t, v.readElem w [p] = .ok ([wordIn u w p], t) ∧ Reads u (pre ++ [p.2]) t := by
  obtain ⟨t, hread, hahead, -⟩ := h.ahead.readWord (sound_nearAll hs pre) hw ha (h.may w p hp)
  obtain ⟨x, hx, -⟩ := readAt_of_readWords (readWords_of_readElem hread).2
  rw [wordIn_nearAll hs hw ha] at hread
  rw [← nearAll_append] at hahead
  exact ⟨t, hread, hahead, fun m q hq => mayRead_of_readAt hx (h.may m q hq)⟩

theorem Reads.here {pre : List Loc} {v : State} (h : Reads u pre v) : AlikeHere u v := by
  obtain ⟨⟨F, rfl, -⟩, -⟩ := h.ahead
  exact (alikeHere_nearAll u pre).trans (alikeHere_withLines F _)

/-! ### Entries of two planes -/

/-- The coordinate and the value of an entry, read where they lie. -/
def entryIn (u : State) (cb vb : Word) (w : Nat) (e : Nat × Loc × Loc) : Nat × Nat :=
  (wordIn u 4 (planeEntry cb 4 e.1, e.2.1), wordIn u w (planeEntry vb w e.1, e.2.2))

/-- The coordinate and the value of an entry can be read where they lie, each at an aligned place. -/
structure EntryStands (u : State) (cb vb : Word) (w : Nat) (e : Nat × Loc × Loc) : Prop where
  coordAligned : ∀ a, e.2.1 = .phys a → a % 4 = 0
  valueAligned : ∀ a, e.2.2 = .phys a → a % w = 0
  coord : mayRead u 4 (planeEntry cb 4 e.1, e.2.1)
  value : mayRead u w (planeEntry vb w e.1, e.2.2)

theorem Reads.entry {pre : List Loc} {v : State} (h : Reads u pre v) (hs : Safety.Sound u) {cb vb : Word} {w : Nat} (hw : w ∣ 8)
    {e : Nat × Loc × Loc} (he : EntryStands u cb vb w e) :
    ∃ t, v.readEntry w (planeEntry cb 4 e.1) (planeEntry vb w e.1) e.2.1 e.2.2 = .ok (entryIn u cb vb w e, t) ∧
      Reads u (pre ++ [e.2.1, e.2.2]) t := by
  obtain ⟨t, hcoord, ht⟩ := h.word hs (by decide) he.coordAligned he.coord
  obtain ⟨r, hvalue, hr⟩ := ht.word hs hw he.valueAligned he.value
  rw [List.append_assoc] at hr
  refine ⟨r, ?_, hr⟩
  unfold State.readEntry
  rw [hcoord]
  simp only [bind, Except.bind]
  rw [hvalue]
  rfl

theorem Reads.entries {pre : List Loc} {v : State} (h : Reads u pre v) (hs : Safety.Sound u) {cb vb : Word} {w : Nat} (hw : w ∣ 8)
    (es : List (Nat × Loc × Loc)) (hes : ∀ e ∈ es, EntryStands u cb vb w e) :
    ∃ t, v.readEntries cb vb w es = (es.map (entryIn u cb vb w), t, none) ∧
      Reads u (pre ++ es.flatMap fun e => [e.2.1, e.2.2]) t := by
  induction es generalizing pre v with
  | nil => exact ⟨v, rfl, by rwa [List.flatMap_nil, List.append_nil]⟩
  | cons e es ih =>
    obtain ⟨t, hfirst, ht⟩ := h.entry hs hw (hes e (List.mem_cons_self ..))
    obtain ⟨r, hrest, hr⟩ := ih ht fun k hk => hes k (List.mem_cons_of_mem _ hk)
    rw [List.append_assoc] at hr
    refine ⟨r, ?_, hr⟩
    obtain ⟨j, lc, lv⟩ := e
    rw [State.readEntries, hfirst]
    dsimp only
    rw [hrest]
    rfl

/-- The checks of entries whose coordinates and values all lie somewhere. -/
theorem checkEntries_ok {k : Access} {cb vb : Word} {w : Nat} {lc lv : Nat → Loc} (n j : Nat)
    (h : ∀ i ∈ List.range' j n, s.resolveIn s.hart.ctx k (planeEntry cb 4 i).toNat 4 4 = .ok (lc i) ∧
      s.resolveIn s.hart.ctx k (planeEntry vb w i).toNat w w = .ok (lv i)) :
    s.checkEntries k cb vb w n j = ((List.range' j n).map fun i => (i, lc i, lv i), none) := by
  induction n generalizing j with
  | zero => rfl
  | succ n ih =>
    rw [List.range'_succ] at h ⊢
    obtain ⟨hc, hv⟩ := h j (List.mem_cons_self ..)
    have hcheck : s.checkEntry k (planeEntry cb 4 j) (planeEntry vb w j) w = .ok (lc j, lv j) := by
      unfold State.checkEntry
      rw [hc]
      simp only [bind, Except.bind]
      rw [hv]
    rw [State.checkEntries, hcheck]
    dsimp only
    rw [ih (j + 1) fun i hi => h i (List.mem_cons_of_mem _ hi)]
    rfl

/-- An entry that can be loaded, with the places of its coordinate and its value. -/
def loadPlace (u : State) (cb vb : Word) (w j : Nat) : Nat × Loc × Loc :=
  (j, lies u .load 4 true (entryAddr cb 4 j), lies u .load w true (entryAddr vb w j))

theorem loadable_lies {w : Nat} {a : Word} (h : loadable u w a) :
    u.locate .load a.toNat w w true = .ok (lies u .load w true a) ∧ readable u (lies u .load w true a) w := by
  obtain ⟨l, hl, hr⟩ := h
  rw [lies_of_locate hl]
  exact ⟨hl, hr⟩

theorem entryStands_loadPlace {cb vb : Word} {w j : Nat} (hw : w ∣ 8) (hc : loadable u 4 (entryAddr cb 4 j))
    (hv : loadable u w (entryAddr vb w j)) : EntryStands u cb vb w (loadPlace u cb vb w j) := by
  obtain ⟨hcl, hcr⟩ := loadable_lies hc
  obtain ⟨hvl, hvr⟩ := loadable_lies hv
  exact ⟨fun a ha => locate_phys (hcl.trans (congrArg _ ha)) (by decide), fun a ha => locate_phys (hvl.trans (congrArg _ ha)) hw,
    ⟨(locate_parts hcl).2, hcr⟩, ⟨(locate_parts hvl).2, hvr⟩⟩

/-- Entries j to j + n − 1 of two planes, checked and read after other reads. -/
theorem Reads.planes {pre : List Loc} {v : State} (h : Reads u pre v) (hs : Safety.Sound u) {cb vb : Word} {w : Nat} (hw : w ∣ 8)
    (n j : Nat) (hload : ∀ i ∈ List.range' j n, loadable u 4 (entryAddr cb 4 i) ∧ loadable u w (entryAddr vb w i)) :
    ∃ t, v.checkEntries .load cb vb w n j = ((List.range' j n).map (loadPlace u cb vb w), none) ∧
      v.readEntries cb vb w ((List.range' j n).map (loadPlace u cb vb w)) =
        ((List.range' j n).map fun i => (wordAt u 4 (entryAddr cb 4 i), wordAt u w (entryAddr vb w i)), t, none) ∧
      Reads u (pre ++ ((List.range' j n).map (loadPlace u cb vb w)).flatMap fun e => [e.2.1, e.2.2]) t := by
  obtain ⟨t, hread, ht⟩ := h.entries hs hw ((List.range' j n).map (loadPlace u cb vb w)) fun e he => by
    obtain ⟨i, hi, rfl⟩ := List.mem_map.1 he
    exact entryStands_loadPlace hw (hload i hi).1 (hload i hi).2
  rw [List.map_map] at hread
  refine ⟨t, checkEntries_ok n j fun i hi => ⟨?_, ?_⟩, hread, ht⟩
  · exact (h.here.resolveIn ..).trans (locate_parts (loadable_lies (hload i hi).1).1).1
  · exact (h.here.resolveIn ..).trans (locate_parts (loadable_lies (hload i hi).2).1).1

/-! ### The fibre loaded -/

theorem nonDecreasing_iff (l : List (Nat × Nat)) : nonDecreasing l = true ↔
    ∀ j, 0 < j → j < l.length → ((l[j - 1]?).getD (0, 0)).1 ≤ ((l[j]?).getD (0, 0)).1 := by
  induction l with
  | nil => exact ⟨fun _ j _ hj => absurd hj (Nat.not_lt_zero j), fun _ => rfl⟩
  | cons a l ih =>
    cases l with
    | nil => exact ⟨fun _ j h0 hj => absurd hj (by simp; omega), fun _ => rfl⟩
    | cons b l =>
      rw [nonDecreasing, Bool.and_eq_true, decide_eq_true_eq, ih]
      constructor
      · rintro ⟨hab, hrest⟩ j h0 hj
        obtain ⟨k, rfl⟩ := Nat.exists_eq_succ_of_ne_zero h0.ne'
        cases k with
        | zero => exact hab
        | succ k => exact hrest (k + 1) (Nat.succ_pos k) (Nat.lt_of_succ_lt_succ hj)
      · intro h
        refine ⟨h 1 Nat.one_pos (by simp), fun j h0 hj => ?_⟩
        obtain ⟨k, rfl⟩ := Nat.exists_eq_succ_of_ne_zero h0.ne'
        exact h (k + 2) (Nat.succ_pos _) (Nat.succ_lt_succ hj)

/-- The sorted flag of a load speaks of the entries loaded and of the one before them. -/
theorem loaded_sorted {old : QReg} {t : Tag} {po : Nat} {kept out : List (Nat × Nat)} (hle : kept.length ≤ po)
    (hk : out ≠ [] → kept.length = po) : (old.loaded t po kept out).sorted = true ↔ (po = 0 ∨ old.sorted = true) ∧
      ∀ j, po ≤ j → j < (kept ++ out).length → 0 < j → (((kept ++ out)[j - 1]?).getD (0, 0)).1 ≤ (((kept ++ out)[j]?).getD (0, 0)).1 := by
  show ((po == 0 || old.sorted) && (out.isEmpty || nonDecreasing (kept.drop (po - 1) ++ out))) = true ↔ _
  rw [Bool.and_eq_true, Bool.or_eq_true, beq_iff_eq]
  refine and_congr_right fun _ => ?_
  by_cases hout : out = []
  · subst hout
    exact iff_of_true rfl fun j hj hlt => absurd hlt (by rw [List.append_nil]; omega)
  · have hlen := hk hout
    rw [← List.drop_append_of_le_length (by omega), show out.isEmpty = false by simpa using hout, Bool.false_or, nonDecreasing_iff]
    simp only [List.getElem?_drop, List.length_drop]
    constructor
    · intro h j hpo hj h0
      have hstep := h (j - (po - 1)) (by omega) (by omega)
      rwa [show po - 1 + (j - (po - 1) - 1) = j - 1 by omega, show po - 1 + (j - (po - 1)) = j by omega] at hstep
    · intro h k h0 hk
      have hstep := h (po - 1 + k) (by omega) (by omega) (by omega)
      rwa [show po - 1 + k - 1 = po - 1 + (k - 1) by omega] at hstep

/-- What a fibre keeps, and the entries read behind it. -/
theorem Kept.readFibre {d : QNum} {cb vb : Word} {m : Nat} {kept : List (Nat × Nat)}
    (h : Kept (fibre s d) s.hart.vcfg.tag s.hart.qpos.po kept) (honly : onlyFibre s t d) {f : Nat → Nat × Nat}
    (hf : f = fun j => (wordAt u 4 (entryAddr cb 4 j), wordAt u (tagBits s.hart.vcfg.tag / 8) (entryAddr vb (tagBits s.hart.vcfg.tag / 8) j)))
    (hq : fibre t d = { (fibre s d).loaded s.hart.vcfg.tag s.hart.qpos.po (kept.take m)
      ((List.range' s.hart.qpos.po (m - s.hart.qpos.po)).map f) with fresh := false }) : readFibre s u t d cb vb m := by
  unfold Claim.readFibre
  dsimp only
  rw [hq]
  generalize s.hart.qpos.po = po at *
  have hlen : (kept.take m).length = min m po := by rw [List.length_take, h.length]
  have hall : ((kept.take m) ++ (List.range' po (m - po)).map f).length = m := by
    rw [List.length_append, hlen, List.length_map, List.length_range']
    omega
  have hkept {j : Nat} (hpo : j < po) (hm : j < m) : ((kept.take m) ++ (List.range' po (m - po)).map f)[j]? = kept[j]? := by
    rw [List.getElem?_append_left (by omega), List.getElem?_take_of_lt hm]
  refine ⟨hall, rfl, fun j hpo hm hold => (hkept hpo hm).trans (h.stay j hpo hold),
    fun hfresh j hpo hm hold => (hkept hpo hm).trans (h.zero hfresh j hpo hold), fun j hpo hm => ?_, ?_, honly⟩
  · show ((kept.take m) ++ (List.range' po (m - po)).map f)[j]? = _
    rw [List.getElem?_append_right (by omega), hlen, List.getElem?_map, List.getElem?_range' (by omega), hf,
      show po + 1 * (j - min m po) = j by omega]
    rfl
  · have hsorted := loaded_sorted (old := fibre s d) (t := s.hart.vcfg.tag) (po := po) (kept := kept.take m)
      (out := (List.range' po (m - po)).map f) (by omega) fun hne => by
        have : m - po ≠ 0 := fun h0 => hne (by rw [h0]; rfl)
        omega
    rw [hall] at hsorted
    exact hsorted

/-- The state in which a load of a fibre ends. -/
def loadDone (u : State) (fc : Nat) (R : List RLine) (q : Vector QReg 8) (p : Qpos) (cs : Vector Bool 8) : State :=
  { u with
    freeCtr := fc
    rcache := R
    hart := { u.hart with q := q, qpos := p, c := cs, pc := u.hart.pc + u.len, instret := u.hart.instret + 1 } }

theorem retire_refilled (F : List RLine) (u : State) (fc : Nat) (q : Vector QReg 8) (p : Qpos) (cs : Vector Bool 8) :
    (refilled (withLines F u) fc q p cs).retire = loadDone u fc (F ++ u.rcache) q p cs := by
  unfold State.retire
  rfl

/-- Accesses leave the fibres, QPOS, the condition bits and what they are kept under. -/
theorem co_fibres (h : CopyOnly s t) : t.hart.q = s.hart.q ∧ t.hart.qpos = s.hart.qpos ∧ t.hart.c = s.hart.c ∧ t.hart.ge = s.hart.ge ∧
    t.hart.vcfg = s.hart.vcfg ∧ t.hart.limit = s.hart.limit ∧ t.hart.fcsr = s.hart.fcsr ∧ t.hart.e = s.hart.e := by
  obtain ⟨_, _, _, _, _, _, _, _, rfl⟩ := h
  exact ⟨rfl, rfl, rfl, rfl, rfl, rfl, rfl, rfl⟩

theorem load_done (F : List RLine) (u : State) (fc : Nat) (d : QNum) (k : QReg) (b : Bool) :
    ((((withLines F (withFree fc u)).setQ d k).setPo 0).setC 7 b).retire =
      loadDone u fc (F ++ u.rcache) (u.hart.q.set d.val { k with fresh := false }) { u.hart.qpos with po := 0 } (u.setC 7 b).hart.c :=
  (congrArg State.retire (refilled_eq (withLines F u) fc d k { u.hart.qpos with po := 0 } b)).trans (retire_refilled ..)

theorem loadDone_says (hco : CopyOnly s n) {F : List RLine} (hseen : seenAlike n (withLines F n)) (fc : Nat) (d : QNum) (k : QReg) (p : Qpos)
    (b : Bool) : let t := loadDone n fc (F ++ n.rcache) (n.hart.q.set d.val k) p (n.setC 7 b).hart.c
    fibre t d = k ∧ onlyFibre s t d ∧ t.hart.qpos = p ∧ onlyC7 s t b ∧ fibreFrame s n t ∧ t.hart.fcsr = s.hart.fcsr ∧
      t.hart.e = s.hart.e := by
  obtain ⟨hq, -, hcs, -, -, -, hfcsr, he⟩ := co_fibres hco
  intro t
  have hset : t.hart.q = s.hart.q.set d.val k := by rw [← hq]; rfl
  obtain ⟨hfibre, honly⟩ := fibre_of_set hset
  have hc : onlyC7 n t b := onlyC7_set n b
  refine ⟨hfibre, honly, rfl, ?_, ⟨⟨?_, ?_⟩, ⟨fun _ => rfl, fun _ => rfl⟩, seenAlike.trans hseen (seen_of_parts rfl rfl rfl), rfl⟩,
    hfcsr, he⟩
  · unfold onlyC7 State.c at hc ⊢
    rwa [hcs] at hc
  · rw [← co_pc hco, ← co_len hco]; rfl
  · rw [← co_instret hco]; rfl

theorem locate_withFree (c : Nat) (s : State) (k : Access) (va w : Nat) (b : Bool) :
    (withFree c s).locate k va w w b = s.locate k va w w b := by
  show ((withFree c s).resolveIn (withFree c s).hart.ctx k va w w >>= fun l => s.targetTakes s.hart.ctx.part k l va w b >>= fun _ => .ok l) = _
  rw [(alikeHere_withFree c s).resolveIn]
  rfl

theorem lies_withFree (c : Nat) (s : State) (k : Access) (w : Nat) (b : Bool) (a : Word) :
    lies (withFree c s) k w b a = lies s k w b a := by
  unfold lies; rw [locate_withFree]

theorem loadable_withFree (c : Nat) {w : Nat} {a : Word} (h : loadable s w a) : loadable (withFree c s) w a := by
  obtain ⟨l, hl, hr⟩ := h
  exact ⟨l, (locate_withFree ..).trans hl, hr⟩

theorem wordAt_withFree (c : Nat) (s : State) (w : Nat) (a : Word) : wordAt (withFree c s) w a = wordAt s w a := by
  rw [wordAt_eq, wordAt_eq, lies_withFree, wordIn_withFree]

theorem tagBytes_dvd {t : Tag} (hnone : t ≠ .none) (hsc8 : t ≠ .sc8) (hfp4 : t ≠ .fp4) : tagBits t / 8 ∣ 8 := by
  cases t with
  | none => exact absurd rfl hnone
  | sc8 => exact absurd rfl hsc8
  | fp4 => exact absurd rfl hfp4
  | _ => decide

theorem planeLocs_eq (s u : State) (cb vb : Word) (j m : Nat) : planeLocs s u cb vb j m =
    ((List.range' j (m - j)).map (loadPlace u cb vb (tagBits s.hart.vcfg.tag / 8))).flatMap fun e => [e.2.1, e.2.2] := by
  unfold planeLocs
  rw [filter_from, List.flatMap_map]
  rfl

theorem planeLocs_withFree (c : Nat) (s u : State) (cb vb : Word) (j m : Nat) :
    planeLocs s (withFree c u) cb vb j m = planeLocs s u cb vb j m := by
  unfold planeLocs
  simp only [lies_withFree]

/-- Loading the entries of two planes, after other reads. -/
theorem Reads.fibre {pre : List Loc} {v : State} (h : Reads u pre v) (hs : Safety.Sound u) (hco : CopyOnly s u) (hlimit : s.hart.limit = none)
    (hcan : canLoad s) (d : QNum) {cb vb : Word} {cnt : Nat} (hload : planesLoadable s u cb vb cnt) :
    ∃ t, v.loadFibre d cb vb cnt = .ok t ∧ loadedFibre s u t d pre cb vb cnt := by
  obtain ⟨hnone, hsc8, hfp4, -⟩ := hcan
  have hcon : ∀ ls, CopyOnly s (nearAll u ls) := fun ls => hco.trans (co_foldl _ _ co_near u)
  have hcov : CopyOnly s v := by
    obtain ⟨⟨F, rfl, -⟩, -⟩ := h.ahead
    exact (hcon pre).trans (co_rcache _ _)
  obtain ⟨hq, hqpos, -, hge, hvcfg, hlim, -⟩ := co_fibres hcov
  obtain ⟨kept, c, hkeep, hkept⟩ := keepEntries_says v d s.hart.qpos.po s.hart.vcfg.tag
  have hold : Claim.fibre v d = Claim.fibre s d := by unfold Claim.fibre; rw [hq]
  rw [hold] at hkept
  have hstand : ∀ i ∈ List.range' s.hart.qpos.po (min cnt (128 * s.hart.ge) - s.hart.qpos.po),
      loadable (Laws.withFree c u) 4 (entryAddr cb 4 i) ∧
        loadable (Laws.withFree c u) (tagBits s.hart.vcfg.tag / 8) (entryAddr vb (tagBits s.hart.vcfg.tag / 8) i) := fun i hi => by
    obtain ⟨hlo, hhi⟩ := List.mem_range'_1.1 hi
    obtain ⟨hc, hv⟩ := hload i hlo (by omega)
    exact ⟨loadable_withFree c hc, loadable_withFree c hv⟩
  obtain ⟨r, hcheck, hread, hr⟩ := (h.withFree c).planes hs (tagBytes_dvd hnone hsc8 hfp4) _ _ hstand
  rw [← planeLocs_eq, planeLocs_withFree] at hr
  simp only [wordAt_withFree] at hread
  obtain ⟨⟨F, rfl, -⟩, hseen⟩ := hr.ahead
  rw [nearAll_withFree] at hread hseen
  have hcoN := hcon (pre ++ planeLocs s u cb vb s.hart.qpos.po (min cnt (128 * s.hart.ge)))
  generalize hN : nearAll u (pre ++ planeLocs s u cb vb s.hart.qpos.po (min cnt (128 * s.hart.ge))) = N at *
  obtain ⟨-, hqposN, -, hgeN, -⟩ := co_fibres hcoN
  have hfcapN : (withLines F (Laws.withFree c N)).hart.fcap = 128 * s.hart.ge := congrArg (128 * ·) hgeN
  obtain ⟨hfibre, honly, hrest⟩ := loadDone_says hcoN (F := F) hseen c d
    { (Claim.fibre s d).loaded s.hart.vcfg.tag s.hart.qpos.po (kept.take (min cnt (128 * s.hart.ge))) _ with fresh := false }
    { s.hart.qpos with po := 0 } (decide (128 * s.hart.ge < cnt))
  refine ⟨_, ?_, hkept.readFibre honly rfl hfibre, ?_⟩
  · have hshare (m : Nat) : v.entryShare s.hart.qpos.po m = (m - s.hart.qpos.po, false) := by
      unfold State.entryShare
      rw [hlim, hlimit]
    unfold State.loadFibre
    dsimp only
    rw [hvcfg, hqpos, show v.hart.fcap = 128 * s.hart.ge from congrArg (128 * ·) hge,
      show Nat.min cnt (128 * s.hart.ge) = min cnt (128 * s.hart.ge) from rfl, hshare, hkeep]
    dsimp only
    rw [hcheck]
    dsimp only
    rw [hread]
    rw [hfcapN, show (Laws.withFree c v).hart.fcap = 128 * s.hart.ge from congrArg (128 * ·) hge, show v.q d = Claim.fibre s d from hold,
      ← hqposN]
    exact congrArg Except.ok (load_done ..)
  · dsimp only
    rw [hN]
    exact hrest

/-! ### Loads and walks -/

/-- An instruction without vector operands whose conditions are met. -/
theorem prepare_nothing {flt : List (Bool × Nat)} (hf : ∀ p ∈ flt, p.1 = false) : s.prepare [] [] [] false 0 flt = .ok s :=
  prepare_passes (o := ⟨[], [], [], false, 0, []⟩)
    ⟨absurd rfl, by simp, by simp, by simp, boundBy_nil s, by simp [boundBy_nil], by rw [boundBy_nil]; rfl, by simp, by simp⟩ fun _ => hf

/-- A load of a fibre whose tag and PO are in order. -/
theorem load_run (hcan : canLoad s) (f : State → Run State) :
    finish (do s.needRef; let v ← s.drain.prepare [] [] [] false 0 (s.poBad :: loadTagBad s.hart.vcfg.tag); f v) = finish (f s.drain) := by
  obtain ⟨hnone, hsc8, hfp4, hpo⟩ := hcan
  rw [needRef_ok hnone, prepare_nothing (by simp [poBad_off hpo, loadTagBad, hsc8, hfp4])]
  rfl

theorem qld_says (hs : Safety.Sound s) (hu : s.drain = u) (hlimit : s.hart.limit = none) (d : QNum) (v : XReg) (hint : Hint)
    (hcan : canLoad s) (hload : planesLoadable s u (s.x v) (s.x (v + 1)) (s.x (v + 2)).toNat) :
    ∃ t, exec (.qld d v hint) s = .next t ∧ loadedFibre s u t d [] (s.x v) (s.x (v + 1)) (s.x (v + 2)).toNat := by
  subst hu
  obtain ⟨t, hrun, ht⟩ := (Reads.refl s.drain).fibre (sound_drain hs) (co_drain s) hlimit hcan d hload
  refine ⟨t, ?_, ht⟩
  show execQld d v hint s = _
  unfold execQld
  rw [load_run hcan, co_x (co_drain s), co_x (co_drain s), co_x (co_drain s), hrun]
  rfl

/-- The positions of a walk are read one after the other. -/
theorem positions_read (hs : Safety.Sound u) {pw : Nat} (hw : pw ∣ 8) {a b : Word} (ha : loadable u pw a) (hb : loadable u pw b) :
    ∃ v, (do let ls ← u.checkWords .load pw [a, b]; u.readElem pw ls : Except Reject (List Nat × State)) =
      .ok ([wordAt u pw a, wordAt u pw b], v) ∧ Reads u [lies u .load pw true a, lies u .load pw true b] v := by
  obtain ⟨hla, hra⟩ := loadable_lies ha
  obtain ⟨hlb, hrb⟩ := loadable_lies hb
  obtain ⟨t, hfirst, ht⟩ := (Reads.refl u).word hs hw (p := (a, lies u .load pw true a))
    (fun c hc => locate_phys (hla.trans (congrArg _ hc)) hw) ⟨(locate_parts hla).2, hra⟩
  obtain ⟨v, hsecond, hv⟩ := ht.word hs hw (p := (b, lies u .load pw true b))
    (fun c hc => locate_phys (hlb.trans (congrArg _ hc)) hw) ⟨(locate_parts hlb).2, hrb⟩
  refine ⟨v, ?_, hv⟩
  rw [checkWords_ok (c := true) [a, b] (by simp [hla, hlb])]
  exact readElem_pair hfirst hsecond (locate_parts hlb).2

theorem walkFibre_says (hs : Safety.Sound s) (hu : s.drain = u) (hlimit : s.hart.limit = none) (hcan : canLoad s) {pw : Nat} (hw : pw ∣ 8)
    (d : QNum) {v : XReg} {i b e w : Nat} (hi : (s.x (v + 3)).toNat = i) (hfirst : loadable u pw (entryAddr (s.x v) pw i))
    (hsecond : loadable u pw (entryAddr (s.x v) pw (i + 1))) (hb : wordAt u pw (entryAddr (s.x v) pw i) = b)
    (he : wordAt u pw (entryAddr (s.x v) pw (i + 1)) = e) (hle : b ≤ e) (ht : tagBits s.hart.vcfg.tag / 8 = w)
    (hload : planesLoadable s u (entryAddr (s.x (v + 1)) 4 b) (entryAddr (s.x (v + 2)) w b) (e - b)) :
    ∃ t, walkFibre pw d v s = .next t ∧
      loadedFibre s u t d [lies u .load pw true (entryAddr (s.x v) pw i), lies u .load pw true (entryAddr (s.x v) pw (i + 1))]
        (entryAddr (s.x (v + 1)) 4 b) (entryAddr (s.x (v + 2)) w b) (e - b) := by
  have hco : CopyOnly s u := hu ▸ co_drain s
  have hsound : Safety.Sound u := hu ▸ sound_drain hs
  obtain ⟨r, hread, hr⟩ := positions_read (a := planeEntry (s.x v) pw i) (b := planeEntry (s.x v) pw (i + 1)) hsound hw hfirst hsecond
  obtain ⟨t, hfibre, hloaded⟩ := hr.fibre hsound hco hlimit hcan d hload
  refine ⟨t, ?_, hloaded⟩
  have hcor : CopyOnly s r := by
    obtain ⟨⟨F, rfl, -⟩, -⟩ := hr.ahead
    exact (hco.trans (co_foldl _ _ co_near u)).trans (co_rcache _ _)
  obtain ⟨-, -, -, -, hvcfg, -⟩ := co_fibres hcor
  unfold walkFibre
  rw [load_run hcan, hu]
  dsimp only
  rw [co_x hco, co_x hco, hi, hread]
  dsimp only
  rw [co_x hcor, co_x hcor, hvcfg, ht, show wordAt u pw (planeEntry (s.x v) pw i) = b from hb,
    show wordAt u pw (planeEntry (s.x v) pw (i + 1)) = e from he]
  show finish (r.require (decide (b ≤ e)) (r.fibreOrder 2) >>= fun _ =>
    r.loadFibre d (entryAddr (s.x (v + 1)) 4 b) (entryAddr (s.x (v + 2)) w b) (e - b)) = _
  rw [decide_eq_true hle]
  show finish (r.loadFibre d _ _ _) = _
  rw [hfibre]
  rfl

end Sys2Proof.Laws
end

section
/-! Stores of fibres (10 R209): entry after entry goes through to memory or into the open strip's buffer (13 R265), each coordinate
before its value. -/

namespace Sys2Proof.Laws

set_option Elab.async false

open Sys2Proof Sys2Proof.Machine Sys2Proof.Claim

variable {s t u : State}

/-! ### Stores of several widths -/

/-- Whole stores of a hart have led from a state to another: outside a strip they are made, in a strip they stand last in its buffer. -/
structure Stores (s t : State) (ws : List Write) : Prop where
  sound : Safety.Sound t
  may : ∀ w p, mayWrite s w p → mayWrite t w p
  made : s.strip? = none → Wrote s t ws
  held : ∀ st, s.strip? = some st → ∃ new, t = buffering s st (st.recs ++ new) ∧ recorded new ws

theorem buffering_self {st : Strip} (hst : s.strip? = some st) : buffering s st (st.recs ++ []) = s := by
  unfold buffering
  rw [List.append_nil]
  show { s with hart := { s.hart with strip := some st } } = s
  rw [← (strip_some hst).1]

theorem Stores.refl (hs : Safety.Sound s) : Stores s s [] :=
  ⟨hs, fun _ _ h => h, fun _ => .refl s, fun _ hst => ⟨[], (buffering_self hst).symm, rfl⟩⟩

/-- A whole store of one word that may be made where it lies. -/
structure Storable (s : State) (w : Write) : Prop where
  whole : w.half = none ∧ w.through = true
  width : w.n ∣ 8
  aligned : ∀ a, w.loc = .phys a → a % w.n = 0
  may : mayWrite s w.n (w.va, w.loc)

theorem roomFor_of_append {ws vs : List Write} (h : roomFor s (ws ++ vs)) : roomFor s ws := by
  intro st hst
  have hall := h st hst
  rw [List.map_append, List.sum_append] at hall
  omega

theorem recorded_bytes {new : List StripRec} {ws : List Write} (h : recorded new ws) :
    (new.map fun r => 2 ^ r.size).sum = (ws.map Write.n).sum := by
  have hsizes := congrArg (List.map fun e : Nat × Nat × Option Scope × Nat × Option Bool × Option Nat => e.2.1) h
  rw [List.map_map, List.map_map] at hsizes
  exact congrArg List.sum hsizes

/-- One store more. -/
theorem Stores.word {ws : List Write} (h : Stores s t ws) {w : Write} (hw : Storable s w) (hroom : roomFor s (ws ++ [w])) :
    ∃ r, t.writeElem .through w.n none [(w.va, w.loc)] [w.v] = .ok r ∧ Stores s r (ws ++ [w]) := by
  obtain ⟨hwhole, hwidth, haligned, hmay⟩ := hw
  have hmay' := h.may _ _ hmay
  rw [writeElem_one hmay']
  cases hst : s.strip? with
  | none =>
    have hwrote := h.made hst
    have hst' : t.strip? = none := by unfold State.strip? at hst ⊢; rwa [hwrote.hart]
    have hput : t.put .through none w.loc w.va.toNat w.n w.v none = .ok (t.writeAt .through w.loc w.va.toNat w.n w.v) := by
      unfold State.put
      rw [hst']
      exact if_neg (by rw [hmay'.2 hst']; exact Bool.false_ne_true)
    have hone := writeThrough_says h.sound w.va.toNat w.v hwidth haligned
    have hco := co_writeAt t .through w.loc w.va.toNat w.n w.v
    obtain ⟨mem, spad, poison, spadPoison, rcache, hparts⟩ := hone.parts
    refine ⟨_, hput, sound_writeAt h.sound _ _ _ _ _, fun m p hp => ?_, fun _ => hwrote.append (hone.wrote hwhole.1), fun st h => ?_⟩
    · exact mayWrite_kept hco (by rw [hparts]) (by rw [hparts]) (h.may m p hp)
    · rw [hst] at h; cases h
  | some st =>
    obtain ⟨new, rfl, hnew⟩ := h.held st hst
    have hst' := strip_buffering hst (st.recs ++ new)
    let r := (buffering s st (st.recs ++ new)).stripRec none w.loc w.va.toNat w.n w.v none
    have hput : (buffering s st (st.recs ++ new)).put .through none w.loc w.va.toNat w.n w.v none =
        .ok (buffering s st (st.recs ++ (new ++ [r]))) := by
      have hfits := hroom st hst
      rw [List.map_append, List.sum_append, ← recorded_bytes hnew, ← Nat.add_assoc, ← List.sum_append, ← List.map_append,
        ← stripBytes_eq, List.map_singleton, List.sum_singleton] at hfits
      unfold State.put
      rw [hst', ← List.append_assoc]
      exact if_neg (Nat.not_lt.2 hfits)
    refine ⟨_, hput, h.sound, fun m p hp => mayWrite_buffering hst _ hp, fun h => ?_, fun k hk => ?_⟩
    · rw [hst] at h; cases h
    · rw [hst] at hk
      cases hk
      refine ⟨_, rfl, ?_⟩
      unfold recorded at hnew ⊢
      rw [List.map_append, List.map_append, hnew]
      refine congrArg₂ _ rfl (congrArg (fun e => [e]) ?_)
      exact Prod.ext rfl (Prod.ext (two_pow_log2 hwidth) (Prod.ext rfl (Prod.ext rfl (Prod.ext hwhole.1.symm rfl))))

theorem Stores.storedAll {ws : List Write} (h : Stores s t ws) (hws : ∀ w ∈ ws, Storable s w) : storedAll s t ws := by
  cases hst : s.strip? with
  | none => exact (h.made hst).storedAll (fun w hw => (hws w hw).whole) hst
  | some st =>
    obtain ⟨new, rfl, hnew⟩ := h.held st hst
    exact storedAll_buffering hst hnew

/-- What stores of a hart may change. -/
def OnlyStored (s t : State) : Prop := ∃ mem spad poison spadPoison rcache strip, t = { s with
  mem := mem, spad := spad, poison := poison, spadPoison := spadPoison, rcache := rcache, hart := { s.hart with strip := strip } }

theorem Stores.parts {ws : List Write} (h : Stores s t ws) : OnlyStored s t := by
  cases hst : s.strip? with
  | none => obtain ⟨mem, spad, poison, spadPoison, rcache, rfl⟩ := (h.made hst).parts; exact ⟨mem, spad, poison, spadPoison, rcache, _, rfl⟩
  | some st => obtain ⟨_, rfl, -⟩ := h.held st hst; exact ⟨s.mem, s.spad, s.poison, s.spadPoison, s.rcache, _, rfl⟩

/-! ### Entries of a fibre -/

/-- The stores of an entry: its coordinate, then its value. -/
def entryWrites (cb vb : Word) (w : Nat) (es : List (Nat × Nat)) (e : Nat × Loc × Loc) : List Write :=
  [⟨entryAddr cb 4 e.1, e.2.1, 4, ((es[e.1]?).getD (0, 0)).1, none, true⟩,
    ⟨entryAddr vb w e.1, e.2.2, w, ((es[e.1]?).getD (0, 0)).2, none, true⟩]

theorem Stores.entries {cb vb : Word} {w : Nat} {es : List (Nat × Nat)} {ws : List Write} (h : Stores s t ws) (todo : List (Nat × Loc × Loc))
    (hmay : ∀ e ∈ todo, ∀ x ∈ entryWrites cb vb w es e, Storable s x) (hroom : roomFor s (ws ++ todo.flatMap (entryWrites cb vb w es))) :
    ∃ r, t.writeEntries cb vb w es todo = (r, none) ∧ Stores s r (ws ++ todo.flatMap (entryWrites cb vb w es)) := by
  induction todo generalizing t ws with
  | nil => exact ⟨t, rfl, by rwa [List.flatMap_nil, List.append_nil]⟩
  | cons e todo ih =>
    obtain ⟨j, lc, lv⟩ := e
    have hfirst := hmay (j, lc, lv) (List.mem_cons_self ..)
    have hsplit : ws ++ ((j, lc, lv) :: todo).flatMap (entryWrites cb vb w es) =
        ws ++ [⟨entryAddr cb 4 j, lc, 4, ((es[j]?).getD (0, 0)).1, none, true⟩] ++
          [⟨entryAddr vb w j, lv, w, ((es[j]?).getD (0, 0)).2, none, true⟩] ++ todo.flatMap (entryWrites cb vb w es) := by
      rw [List.flatMap_cons, List.append_assoc, List.append_assoc]; rfl
    rw [hsplit] at hroom ⊢
    obtain ⟨p, hcoord, hp⟩ := h.word (hfirst _ (List.mem_cons_self ..)) (roomFor_of_append (roomFor_of_append hroom))
    obtain ⟨q, hvalue, hq⟩ := hp.word (hfirst _ (List.mem_cons_of_mem _ (List.mem_cons_self ..))) (roomFor_of_append hroom)
    obtain ⟨r, hrest, hr⟩ := ih hq (fun e he => hmay e (List.mem_cons_of_mem _ he)) hroom
    refine ⟨r, ?_, hr⟩
    rw [State.writeEntries]
    dsimp only at hcoord hvalue ⊢
    rw [show planeEntry cb 4 j = entryAddr cb 4 j from rfl, show planeEntry vb w j = entryAddr vb w j from rfl, hcoord]
    dsimp only
    rw [hvalue]
    exact hrest

/-- An entry of a fibre with the places that its coordinate and its value are stored at. -/
def storePlace (u : State) (cb vb : Word) (w j : Nat) : Nat × Loc × Loc :=
  (j, lies u .store 4 false (entryAddr cb 4 j), lies u .store w false (entryAddr vb w j))

theorem storable_lies {w : Nat} {a : Word} (h : storable u w false a) :
    u.locate .store a.toNat w w false = .ok (lies u .store w false a) ∧ mayWrite u w (a, lies u .store w false a) := by
  obtain ⟨l, hl, hlive⟩ := h
  rw [lies_of_locate hl]
  exact ⟨hl, (locate_parts hl).2, hlive⟩

theorem storable_entry {cb vb : Word} {w j : Nat} (es : List (Nat × Nat)) (hw : w ∣ 8) (hc : storable u 4 false (entryAddr cb 4 j))
    (hv : storable u w false (entryAddr vb w j)) : ∀ x ∈ entryWrites cb vb w es (storePlace u cb vb w j), Storable u x := by
  obtain ⟨hcl, hcm⟩ := storable_lies hc
  obtain ⟨hvl, hvm⟩ := storable_lies hv
  have hfour : 4 ∣ 8 := by decide
  intro x hx
  rcases List.mem_cons.1 hx with rfl | hx
  · exact ⟨⟨rfl, rfl⟩, hfour, fun a ha => locate_phys (hcl.trans (congrArg _ ha)) hfour, hcm⟩
  · obtain rfl := List.mem_singleton.1 hx
    exact ⟨⟨rfl, rfl⟩, hw, fun a ha => locate_phys (hvl.trans (congrArg _ ha)) hw, hvm⟩

/-- The state in which a store of a fibre ends. -/
theorem storeDone_says {ws : List Write} (hco : CopyOnly s u) (h : storedAll u t ws) (hparts : OnlyStored u t) : let r := (t.setPo 0).retire
    storedAll u r ws ∧ r.hart.qpos = { s.hart.qpos with po := 0 } ∧ goesOn s r ∧
      r = { u with mem := r.mem, spad := r.spad, poison := r.poison, spadPoison := r.spadPoison, rcache := r.rcache, hart := { u.hart with
        strip := r.hart.strip, qpos := r.hart.qpos, pc := r.hart.pc, instret := r.hart.instret } } := by
  obtain ⟨-, hqpos, -⟩ := co_fibres hco
  obtain ⟨mem, spad, poison, spadPoison, rcache, strip, rfl⟩ := hparts
  refine ⟨h, ?_, ⟨?_, ?_⟩, rfl⟩
  · rw [← hqpos]; rfl
  · rw [← co_pc hco, ← co_len hco]; rfl
  · rw [← co_instret hco]; rfl

theorem checkEntries_store {cb vb : Word} {w n j : Nat}
    (h : ∀ i ∈ List.range' j n, storable u 4 false (entryAddr cb 4 i) ∧ storable u w false (entryAddr vb w i)) :
    u.checkEntries .store cb vb w n j = ((List.range' j n).map (storePlace u cb vb w), none) :=
  checkEntries_ok n j fun i hi => ⟨(locate_parts (storable_lies (h i hi).1).1).1, (locate_parts (storable_lies (h i hi).2).1).1⟩

/-- The places of the entries of a fibre from PO on. -/
def storePlaces (s u : State) (k : QReg) (v : XReg) : List (Nat × Loc × Loc) :=
  (List.range' s.hart.qpos.po (k.entries.length - s.hart.qpos.po)).map (storePlace u (s.x v) (s.x (v + 1)) (tagBits k.tag / 8))

section

variable {a : QNum} {k : QReg} {v : XReg} (hu : s.drain = u) (hk : fibre s a = k)
  (htag : k.entries ≠ [] → k.tag ≠ .none ∧ k.tag ≠ .sc8 ∧ k.tag ≠ .fp4) (hpo : s.hart.qpos.po ≤ 128 * s.hart.ge)
  (hmay : ∀ j ∈ List.range' s.hart.qpos.po (k.entries.length - s.hart.qpos.po),
    storable u 4 false (entryAddr (s.x v) 4 j) ∧
      storable u (tagBits k.tag / 8) false (entryAddr (s.x (v + 1)) (tagBits k.tag / 8) j))

include htag in
theorem qst_faults_off (hpo : s.hart.qpos.po ≤ 128 * s.hart.ge) :
    ∀ p ∈ [s.poBad, (decide (0 < k.n) && untyped k.tag, 2), (decide (0 < k.n) && k.tag == .fp4, 3)], p.1 = false := by
  rw [poBad_off hpo]
  by_cases hempty : k.entries = []
  · simp [QReg.n, hempty]
  · obtain ⟨hnone, hsc8, hfp4⟩ := htag hempty
    simp [untyped, hnone, hsc8, hfp4]

include hu hk htag hpo hmay in
/-- `qst` once its entries are stored (R209). -/
theorem qst_runs (hlimit : s.hart.limit = none) (hpoison : k.poison = false)
    (hwrite : u.writeEntries (s.x v) (s.x (v + 1)) (tagBits k.tag / 8) k.entries (storePlaces s u k v) = (t, none)) :
    exec (.qst a v) s = .next (t.setPo 0).retire := by
  have hco : CopyOnly s u := hu ▸ co_drain s
  obtain ⟨hq, hqpos, -, -, -, hlim, -⟩ := co_fibres hco
  have hshare (m : Nat) : u.entryShare s.hart.qpos.po m = (m - s.hart.qpos.po, false) := by
    unfold State.entryShare
    rw [hlim, hlimit]
  have hsane : u.fibresOk [a] = .ok () := fibresOk_one (by unfold fibre at hk ⊢; rw [hq, hk, hpoison])
  show execQst a v s = _
  unfold execQst
  dsimp only
  rw [show s.q a = k from hk, hu, prepare_nothing (qst_faults_off htag hpo)]
  simp only [bind, Except.bind]
  rw [hsane]
  dsimp only
  rw [hqpos, co_x hco, co_x hco, show k.n = k.entries.length from rfl, hshare]
  dsimp only
  rw [checkEntries_store hmay]
  dsimp only
  rw [show (List.range' _ _).map _ = storePlaces s u k v from rfl, hwrite]
  rfl

include hu hk htag hpo hmay in
/-- `qst` of a fibre whose entries pass their checks (R209). -/
theorem qst_says (hs : Safety.Sound s) (hlimit : s.hart.limit = none) (hpoison : k.poison = false) {ws : List Write}
    (hws : ws = (storePlaces s u k v).flatMap (entryWrites (s.x v) (s.x (v + 1)) (tagBits k.tag / 8) k.entries)) (hroom : roomFor u ws) :
    ∃ t, exec (.qst a v) s = .next t ∧ storedAll u t ws ∧ t.hart.qpos = { s.hart.qpos with po := 0 } ∧ goesOn s t ∧
      t = { u with mem := t.mem, spad := t.spad, poison := t.poison, spadPoison := t.spadPoison, rcache := t.rcache, hart := { u.hart with
        strip := t.hart.strip, qpos := t.hart.qpos, pc := t.hart.pc, instret := t.hart.instret } } := by
  subst hws
  have hstand : ∀ e ∈ storePlaces s u k v, ∀ x ∈ entryWrites (s.x v) (s.x (v + 1)) (tagBits k.tag / 8) k.entries e, Storable u x :=
    fun e he => by
      obtain ⟨j, hj, rfl⟩ := List.mem_map.1 he
      have hne : k.entries ≠ [] := fun h0 => by rw [h0, List.length_nil, Nat.zero_sub] at hj; cases hj
      obtain ⟨hnone, hsc8, hfp4⟩ := htag hne
      exact storable_entry _ (tagBytes_dvd hnone hsc8 hfp4) (hmay j hj).1 (hmay j hj).2
  obtain ⟨t, hwrite, ht⟩ := (Stores.refl (hu ▸ sound_drain hs)).entries _ hstand hroom
  refine ⟨_, qst_runs hu hk htag hpo hmay hlimit hpoison hwrite, storeDone_says (hu ▸ co_drain s) (ht.storedAll fun x hx => ?_) ht.parts⟩
  obtain ⟨e, he, hx⟩ := List.mem_flatMap.1 hx
  exact hstand e he x hx

end

/-- Settles O32, by what a load, a walk and a store of a fibre say. -/
theorem fibreMemory : Obligations.FibreMemory := by
  intro s hs hlimit
  generalize hu : s.drain = u
  intro u' w
  refine ⟨qld_says hs hu hlimit, fun wide d v hint hcan => ?_, fun a v => ?_⟩
  · intro pw i hfirst hsecond place b e hle hload
    have hw : pw ∣ 8 := by
      show (if wide then 8 else 4) ∣ 8
      split <;> decide
    obtain ⟨t, hexec, ht⟩ := walkFibre_says hs hu hlimit hcan hw d rfl hfirst hsecond rfl rfl hle rfl hload
    refine ⟨t, ?_, ht⟩
    cases wide <;> exact hexec
  · intro k n htag hpoison hpo todo hmay ws hroom
    have htodo : todo = List.range' s.hart.qpos.po (k.entries.length - s.hart.qpos.po) := filter_from ..
    have hws : ws = (storePlaces s u k v).flatMap (entryWrites (s.x v) (s.x (v + 1)) n k.entries) := by
      unfold storePlaces
      rw [← htodo, List.flatMap_map]
      rfl
    exact qst_says hu rfl htag hpo (fun j hj => hmay j (htodo ▸ hj)) hs hlimit hpoison hws hroom

end Sys2Proof.Laws
end

section
/-! A stopped load of a fibre from memory that is not in its canonical form (04 R95, 10 R205). -/

namespace Sys2Proof.Laws

set_option Elab.async false

open Sys2Proof Sys2Proof.Machine

/-- Page 0 lies in device 1, of whose memory two bytes are listed, the higher before the lower. The hart has a zero for each to send, in
the cache of another core, and loads the first of two entries: its coordinate stands at the higher byte, its value at the lower one. -/
def loadsFromUnordered : State :=
  { State.reset with
    hart := { phase := .active, x := ((Vector.replicate 32 0).set 1 0x80).set 3 2, vcfg := { tag := .i8 }, limit := some 1 }
    tlb := [userLeaf 0 (2 ^ 51 + 2 ^ 40)]
    mem := [(2 ^ 51 + 2 ^ 40 + 0x80, 1), (2 ^ 51 + 2 ^ 40, 1)]
    rcache := [{ holder := .core 16, line := 2 ^ 51 + 2 ^ 40 + 0x80, data := 1, dirty := [⟨0, 0, 0x80, 0, none⟩] },
      { holder := .core 16, line := 2 ^ 51 + 2 ^ 40, data := 1, dirty := [⟨0, 0, 0, 0, none⟩] }]
    domain := [1], ports := (Vector.replicate 4 {}).set 0 { state := .up } }

/-- The entries of q0 after an outcome. -/
def entriesAfter (o : Host.Outcome State Fault Refusal) : List (Nat × Nat) :=
  match o with
  | .next t => (Claim.fibre t 0).entries
  | _ => []

theorem qld_fromUnordered : entriesAfter (exec (.qld 0 1 .none) loadsFromUnordered) = [(0, 0)] := by decide +kernel

/-- What the claim says of the value, read in the state before the load: the zero sent there does not take the place of the listed byte. -/
theorem wordAt_value : Claim.wordAt loadsFromUnordered.drain (tagBits loadsFromUnordered.hart.vcfg.tag / 8)
    (Claim.entryAddr (loadsFromUnordered.x 2) (tagBits loadsFromUnordered.hart.vcfg.tag / 8) 0) = 1 := by decide +kernel

/-- A byte of device 1 that no cache near the hart holds can be read. -/
theorem loadable_byte {n k : Nat} {a : Word} (hl : loadsFromUnordered.locate .load a.toNat n n true = .ok (.phys (2 ^ 51 + 2 ^ 40 + k)))
    (hk : targetOf (2 ^ 51 + 2 ^ 40 + k) = .remote 1 k) : Claim.loadable loadsFromUnordered n a := by
  refine ⟨_, hl, ?_⟩
  have hcopy : loadsFromUnordered.copyOf loadsFromUnordered.hart.place.core (2 ^ 51 + 2 ^ 40 + k) = none :=
    copyOf_none.2 ⟨rfl, rfl⟩
  unfold Claim.readable
  dsimp only
  rw [hk, hcopy]
  rfl

theorem planesLoadable_unordered :
    Claim.planesLoadable loadsFromUnordered loadsFromUnordered (loadsFromUnordered.x 1) (loadsFromUnordered.x 2) 1 := by
  intro j _ hj
  obtain rfl : j = 0 := by have := Nat.lt_of_lt_of_le hj (Nat.min_le_left ..); omega
  exact ⟨loadable_byte (k := 0x80) (by decide) (by decide), loadable_byte (k := 0) (by decide) (by decide)⟩

theorem not_fibreStops : ¬ Claim.FibreStops := by
  rintro ⟨-, -, hstop⟩
  obtain ⟨t, hexec, ⟨-, -, -, -, hread, -⟩, -⟩ := hstop loadsFromUnordered 0 1 .none 1
    ⟨by decide, by decide, by decide, by decide⟩ rfl (by decide) planesLoadable_unordered
  have hentries := qld_fromUnordered
  rw [hexec] at hentries
  have hfirst := hread 0 (Nat.le_refl 0) Nat.one_pos
  rw [show (Claim.fibre t 0).entries = [(0, 0)] from hentries] at hfirst
  injection hfirst with hentry
  injection hentry with _ hvalue
  exact absurd (hvalue.trans wordAt_value) (by decide)

/-- Refutes O33, by its third part, whose clause on `qld` does not ask for sound states (`Safety.Sound`): in memory that is not in its canonical
form a zero may not take the place of a listed byte. The state before the load says that the zero for the value does not; but the
coordinate's line goes out first (R95), and what is listed then is in order. -/
theorem not_fibreSets : ¬ Obligations.FibreSets := fun ⟨_, _, h⟩ => not_fibreStops h

end Sys2Proof.Laws
end
